-- ==== Sys2Proof/Word.lean ====
section
/-!
DEFINITION. Bytes and words of the N4032, and the plainest arithmetic on them.
-/
namespace Sys2Proof

/-- One byte of memory, of a frame or of a payload. -/
abbrev Byte := BitVec 8

/-- A value in IEEE 754 binary32 encoding (04_attend.md R79 to R84). -/
abbrev F32 := BitVec 32

/-- A finite map as a list of pairs; the first pair with a key holds its value. -/
abbrev Assoc (κ α : Type) := List (κ × α)

/-- The value a map holds for a key. -/
def aget {κ α : Type} [DecidableEq κ] : Assoc κ α → κ → Option α
  | [], _ => none
  | (k', v) :: m, k => if k' = k then some v else aget m k

/-- The value a map holds for a key, or a default. -/
def agetD {κ α : Type} [DecidableEq κ] (m : Assoc κ α) (k : κ) (d : α) : α :=
  (aget m k).getD d

/-- Sets the value of a key, in its place or at the end. -/
def aset {κ α : Type} [DecidableEq κ] : Assoc κ α → κ → α → Assoc κ α
  | [], k, v => [(k, v)]
  | (k', v') :: m, k, v => if k' = k then (k, v) :: m else (k', v') :: aset m k v

/-- Removes every pair of a key. -/
def adel {κ α : Type} [DecidableEq κ] (m : Assoc κ α) (k : κ) : Assoc κ α :=
  m.filter fun p => decide (p.1 ≠ k)

/-- Changes the value of a key, starting from a default where it has none. -/
def aupd {κ α : Type} [DecidableEq κ] (m : Assoc κ α) (k : κ) (d : α) (f : α → α) : Assoc κ α :=
  aset m k (f (agetD m k d))

/-- Changes the value of a key that has one. -/
def amod {κ α : Type} [DecidableEq κ] (m : Assoc κ α) (k : κ) (f : α → α) : Assoc κ α :=
  m.map fun p => if p.1 = k then (p.1, f p.2) else p

/-- Bits hi to lo of a number. -/
def bits (v hi lo : Nat) : Nat := (v / 2 ^ lo) % 2 ^ (hi + 1 - lo)

/-- One bit of a number. -/
def bit1 (v n : Nat) : Bool := Nat.testBit v n

/-- A truth value as 0 or 1. -/
def b2n (b : Bool) : Nat := if b then 1 else 0

/-- The n low bytes of a number, least significant first (00_scope.md R7: device memory, PCIe). -/
def leBytes : Nat → Nat → List Byte
  | 0, _ => []
  | n + 1, v => BitVec.ofNat 8 v :: leBytes n (v / 256)

/-- The n low bytes of a number, most significant first (00_scope.md R7: the wire). -/
def beBytes (n v : Nat) : List Byte := (leBytes n v).reverse

/-- The number whose bytes are listed least significant first. -/
def leNat : List Byte → Nat
  | [] => 0
  | b :: bs => b.toNat + 256 * leNat bs

/-- The number whose bytes are listed most significant first. -/
def beNat (bs : List Byte) : Nat := leNat bs.reverse

/-- Bytes o to o + n - 1 of a list, zero beyond its end. -/
def takeBytes (bs : List Byte) (o n : Nat) : List Byte :=
  let r := (bs.drop o).take n
  r ++ List.replicate (n - r.length) 0#8

/-- A field of n bytes at offset o of a structure, in wire order when be is true and in device
order otherwise (00_scope.md R7). -/
def fld (be : Bool) (bs : List Byte) (o n : Nat) : Nat :=
  if be then beNat (takeBytes bs o n) else leNat (takeBytes bs o n)

/-- A field of n bytes written in wire or device order (00_scope.md R7). -/
def put (be : Bool) (n v : Nat) : List Byte := if be then beBytes n v else leBytes n v

/-- n zero bytes. -/
def zeros (n : Nat) : List Byte := List.replicate n 0#8

/-- A 32-bit counter that saturates, raised by n (for example 05_merge.md R119). -/
def satAdd (v n : Nat) : Nat := min (v + n) 0xFFFFFFFF

/-- Quotient rounded up. -/
def ceilDiv (a b : Nat) : Nat := (a + b - 1) / b

/-- a rounded up to a multiple of b. -/
def roundUp (a b : Nat) : Nat := ceilDiv a b * b

/-- Whether every element of a list of numbers is below the next one. -/
def risingStrict : List Nat → Bool
  | [] => true
  | [_] => true
  | a :: b :: r => decide (a < b) && risingStrict (b :: r)

/-- Inserts a number into a rising list. -/
def insertNat (x : Nat) : List Nat → List Nat
  | [] => [x]
  | y :: ys => if x ≤ y then x :: y :: ys else y :: insertNat x ys

/-- A list of numbers in ascending order. -/
def sortNat (l : List Nat) : List Nat := l.foldr insertNat []

/-- Sorts by a numeric key, ascending, equal keys in the order given. -/
def sortBy {α : Type} (key : α → Nat) (l : List α) : List α :=
  l.foldr (fun x acc =>
    let lo := acc.takeWhile fun y => decide (key y < key x)
    lo ++ x :: acc.drop lo.length) []

/-- Sum of a list of numbers. -/
def sumNat (l : List Nat) : Nat := l.foldl (· + ·) 0

/-- Greatest of a list of numbers, 0 for none. -/
def maxNat (l : List Nat) : Nat := l.foldl max 0

/-- The order of serial numbers modulo 2^w: a is before b (10_fabric.md R238, 12_ledger.md R270). -/
def serialLt (w a b : Nat) : Bool :=
  let d := (b + 2 ^ w - a % 2 ^ w) % 2 ^ w
  decide (0 < d) && decide (d < 2 ^ (w - 1))

/-- A 64-bit two's complement reading of a number of w bits. -/
def toSigned (w v : Nat) : Int :=
  if v % 2 ^ w < 2 ^ (w - 1) then (v % 2 ^ w : Nat) else ((v % 2 ^ w : Nat) : Int) - (2 ^ w : Nat)

/-- A number of w bits in two's complement. -/
def ofSigned (w : Nat) (i : Int) : Nat := (i % (2 ^ w : Nat)).toNat

end Sys2Proof
end

