-- ==== Sys2Proof/Syntax.lean ====
section
/-!
DEFINITION. The commands the node takes, with their operands: every frame, host write, deadline, sensor sample and pin
event of spec/opcode_table.json. A handler's operand is the identifier of a message the node has received.
`ide` is the IDE stream a TLP names; a TLP written without it names none, and a read written without its port comes by A.
-/
namespace Sys2Proof

/-- A hub HD0 to HD7, also a quadrant of origin. 01_node.md R12, R13. -/
abbrev Hub := Fin 8
/-- A slice SD0 to SD31. 01_node.md R12. -/
abbrev Slice := Fin 32
/-- A die by 08_memory.md R197: 0 to 31 slices, 32 to 39 hubs. -/
abbrev Die := Fin 40
/-- Dies and Lovages in the numbering of firmware: a die by its number, Lovage h as 40 + h. 16_lifecycle.md R387. -/
abbrev FwDie := Fin 48
/-- A lane of a slice. 07_dill.md R143. -/
abbrev Lane := Fin 16
/-- A sub-port of a fabric port. 10_fabric.md R218. -/
abbrev Sub := Fin 4
/-- A PCIe host port: 0 is A, 1 is B. 14_host.md R316. -/
abbrev Port := Fin 2
/-- A PCIe function of a port: 0 is the PF, v is VFv. 14_host.md R316. -/
abbrev Fn := Fin 64
/-- A command slot of a Dill sequencer (07_dill.md R144) or of a function's BAR2 (14_host.md R322). -/
abbrev Slot64 := Fin 64

/-- What an arriving Ethernet frame carries, by its EtherType and UDP port. 10_fabric.md R220, R226. -/
inductive Ether where
  /-- cell mode: this EtherType -/
  | cell (ethertype : Nat)
  /-- routed mode: IPv6 (true) or IPv4, destination UDP port, whether the UDP checksum holds, CE mark -/
  | routed (v6 : Bool) (udpPort : Nat) (sumOk ce : Bool)
  /-- PAUSE or priority flow control -/
  | pause
  /-- link key exchange, EtherType 0x88B6 (R224) -/
  | kx
  deriving DecidableEq, Repr

/-- An Ethernet frame as it meets a sub-port. 10_fabric.md R220, R223, R225. -/
structure Arrival where
  sub    : Sub
  /-- bytes of the whole frame, FCS included -/
  length : Nat
  ether  : Ether
  /-- it carries a SecTAG, with this association number and packet number -/
  prot   : Bool
  an     : Nat
  pn     : Nat
  /-- its ICV verifies under the key of that association -/
  icvOk  : Bool
  /-- codewords of the sub-port that the FEC corrected, and could not correct, since the frame before (R219, R247) -/
  fecDone : Nat
  fecLost : Nat
  /-- source MAC, IP and UDP port as one value -/
  peer   : Nat
  /-- the bytes from the Plembel header on -/
  bytes  : List Byte
  deriving DecidableEq, Repr

/-- The name of a merge group. 05_merge.md R113. -/
structure GroupKey where
  tenant    : Nat
  pd        : Nat
  requester : Nat
  tag       : Nat
  deriving DecidableEq, Repr, Inhabited

/-- A tail: descriptor index, layer, KV head and page index. 02_pages.md R34. -/
structure TailKey where
  desc  : Nat
  layer : Nat
  kv    : Nat
  page  : Nat
  deriving DecidableEq, Repr

/-- A unit that returns. 12_ledger.md R297. -/
inductive Unit_ where
  | slice (s : Slice)
  | hub (h : Hub)
  | node
  deriving DecidableEq, Repr

/-- A window of a Dill command slot. 07_dill.md R144, R145. -/
structure Window where
  base  : Nat
  len   : Nat
  /-- 0 none, 1 range, 2 tenant extents, 3 tenant pages in slice SRAM -/
  kind  : Nat
  read  : Bool
  write : Bool
  deriving DecidableEq, Repr, Inhabited

/-- What an issuer writes into a FREE command slot. 07_dill.md R144. -/
structure SlotFill where
  pool     : Bool
  program  : Nat
  cls      : Nat
  tenant   : Nat
  laneMask : Nat
  tag      : Nat
  windows  : List Window
  params   : List (BitVec 32)
  deriving DecidableEq, Repr

/-- Format M of 07_dill.md R152. -/
structure FmtM where
  buf    : Nat
  crc    : Bool
  sram   : Bool
  areg   : Fin 8
  len16  : Nat
  boff16 : Nat
  disp16 : BitVec 16
  deriving DecidableEq, Repr

/-- Format L of 07_dill.md R152. -/
structure FmtL where
  count  : Nat
  src16  : Nat
  aux16  : Nat
  row    : Nat
  sreg   : Fin 32
  pbsel  : Bool
  deriving DecidableEq, Repr

/-- Format S of 07_dill.md R152. -/
structure FmtS where
  func  : Nat
  sd    : Fin 32
  sa    : Fin 32
  sb    : Fin 32
  imm32 : BitVec 32
  deriving DecidableEq, Repr

/-- Format C of 07_dill.md R152. -/
structure FmtC where
  lc      : Fin 4
  sreg    : Fin 32
  maxIter : Nat
  target  : Nat
  deriving DecidableEq, Repr

/-- Format P of 07_dill.md R152. -/
structure FmtP where
  adst   : Fin 8
  asrc   : Fin 8
  slen   : Fin 32
  sres   : Fin 32
  func   : Nat
  maxKib : Nat
  deriving DecidableEq, Repr

/-- A pool operation, as an instruction of a program or as a POOL command of a slot. 07_dill.md R163. -/
inductive PoolForm where
  | instr (f : FmtP)
  | command (slot : Slot64)
  deriving DecidableEq, Repr

/-- A direction of a die-to-die link: from one die to another. 01_node.md R14. -/
structure LinkId where
  src : Die
  dst : Die
  deriving DecidableEq, Repr

/-- A row of the associative index. 09_chive.md R200. -/
structure ChiveRow where
  key   : Nat
  cls   : Nat
  prio  : Nat
  value : Nat
  deriving DecidableEq, Repr, Inhabited

/-- How the node's read of a command payload ended. 14_host.md R327. -/
inductive DmaResult where
  | data (bytes : List Byte)
  | failed
  | poisoned
  deriving DecidableEq, Repr

/-- What the serial NAND on the board is, as a start finds it. 17_health.md R410, R411. -/
structure NandFacts where
  /-- it has the geometry of R410 -/
  supported : Bool
  /-- blocks of the device, and those with a factory bad-block mark -/
  blocks    : Nat
  marked    : List Nat
  /-- rated program and erase cycles, and correction capability -/
  endurance : Nat
  eccCap    : Nat
  deriving DecidableEq, Repr

/-- The commands of the N4032: one constructor for each row of spec/opcode_table.json. -/
inductive Instr where
  /-- PLEMBEL_FRAME_RECEIVE (R230): A fabric frame arrives at a hub and passes MACsec, addressing, version, connection, window, domain, tag, policing and order-9 checks, segment by segment. -/
  | plembelFrameReceive (hub : Hub) (f : Arrival)
  /-- ATTEND (R72): An ATTEND request is checked, its query quantized, fanned out to all slices, scanned and merged, and a response or PARTIAL contribution is sent. -/
  | attend (msg : Nat)
  /-- SLICE_RECORD_ARRIVAL (R103): A slice's record set arrives at the hub that keeps its quadrant chain and is merged in slice order or on arrival, or discarded if the chain closed. -/
  | sliceRecordArrival (ctx : Nat) (slice : Slice)
  /-- QUADRANT_RECORD_ARRIVAL (R109): A quadrant record arrives at the ingress hub and joins the HD0 to HD7 chain; the merge closes when all expected records are present. -/
  | quadrantRecordArrival (ctx : Nat) (quad : Hub)
  /-- QUADRANT_MERGE_CLOSE (R108): A quadrant hub's closing time passes and it sends what it holds with a slice bitmap of the slices present. -/
  | quadrantMergeClose (ctx : Nat) (quad : Hub)
  /-- INGRESS_MERGE_DEADLINE (R109): The ingress merge deadline passes; the hub merges the records present and responds with PARTIAL and the contributor section. -/
  | ingressMergeDeadline (ctx : Nat)
  /-- PARTIAL (R113): A PARTIAL contribution arrives at a merge point and opens or joins its merge group, or is refused or discarded at a tombstone. -/
  | partialContribution (msg : Nat)
  /-- PARTIAL_RESPONSE (R114): The merge point's answer to a contribution arrives; on refusal the contributor answers its requester directly, otherwise a PCIe command completes. -/
  | partialResponse (msg : Nat)
  /-- GROUP_DEADLINE (R115): A merge group's deadline passes; the present records are tree-merged, the result delivered, a tombstone kept and the context freed. -/
  | groupDeadline (hub : Hub) (key : GroupKey)
  /-- TOMBSTONE_EXPIRY (R115): A merge group's tombstone lapses after twice the deadline. -/
  | tombstoneExpiry (hub : Hub) (key : GroupKey)
  /-- TOKENS (R124): An APPEND TOKENS request is checked, claims its tail-directory entries, stores rows into tails, freezes full tails and responds. -/
  | appendTokens (msg : Nat)
  /-- CREATE (R57): An APPEND CREATE allocates a descriptor, fixes formats and stripe, reserves tables and enters the handle in all eight hubs. -/
  | createSeq (msg : Nat)
  /-- FORK (R61): An APPEND FORK creates a child sharing the parent's pages up to P, copying a straddling page and waiting for a frozen tail's commit. -/
  | forkSeq (msg : Nat)
  /-- FORK_COMMIT_TIMEOUT (R61): A fork waiting for a frozen tail's seal commit reaches 10 ms and receives BUSY with nothing applied. -/
  | forkCommitTimeout (msg : Nat)
  /-- TRUNCATE (R62): An APPEND TRUNCATE moves the sequence to DRAINING and, once drained, releases pages at or beyond P and rewrites the straddling page or tail. -/
  | truncateSeq (msg : Nat)
  /-- PATTERN (R54): An APPEND PATTERN replaces the window and anchors once the sequence has drained. -/
  | setPattern (msg : Nat)
  /-- DROP (R57): An APPEND DROP drains the sequence, releases every reference, removes the handle and frees the descriptor. -/
  | dropSeq (msg : Nat)
  /-- BIND (R68): An APPEND BIND reads a delta stream through a region, checks it and binds it to a new sequence over a base. -/
  | bindDelta (msg : Nat)
  /-- SEQUENCE_DRAIN_COMPLETE (R59): A DRAINING sequence's inflight reaches zero and its truncate, pattern or drop takes effect. -/
  | sequenceDrainComplete (desc : Nat)
  /-- BULK_APPEND (R128): A BULK_APPEND routes complete pages through the seal buffer, leaves a final partial page as a tail and responds after its seals commit. -/
  | bulkAppend (msg : Nat)
  /-- SEAL (R129): A SEAL request freezes every named non-empty tail and responds after all commit or after 10 ms. -/
  | sealReq (msg : Nat)
  /-- SEAL_DEADLINE (R129): A SEAL request's 10 ms deadline passes and it responds BUSY while its tails stay frozen. -/
  | sealDeadline (msg : Nat)
  /-- TAIL_SEAL (R41): The seal unit takes a frozen tail, quantizes it, computes the sketch, completes the header and CRC, writes the page and commits its reference. -/
  | tailSeal (slice : Slice)
  /-- SEAL_RETRY (R129): A set-aside seal is retried when a slot of the tenant's extents in the slice is freed, or every 100 µs. -/
  | sealRetry (slice : Slice)
  /-- REF_COUNT_CHANGE (R60): The reference unit applies one queued ref_count change, freeing and scrubbing the slot when it reaches zero. -/
  | refCountChange (slice : Slice)
  /-- TAIL_WRITE_BACK (R131): A tail idle for wb_idle with dirty rows is written back as its images and stays resident. -/
  | tailWriteBack (tail : TailKey)
  /-- TAIL_EVICT (R131): A tail idle for evict_idle is written back if dirty and evicted from slice SRAM. -/
  | tailEvict (tail : TailKey)
  /-- PAGE_PROMOTE (R136): A page opened promote_threshold times within 1 ms is copied, CRC-checked and switched to a live copy in the promotion pool. -/
  | pagePromote (lpn : Nat)
  /-- PAGE_DEMOTE (R135): A promoted page is demoted, writing it home only if its ref_count word changed. -/
  | pageDemote (lpn : Nat)
  /-- READ (R257): A remote READ is checked against its region and returns data, through a fenced snapshot when requested. -/
  | readRegion (msg : Nat)
  /-- WRITE (R257): A remote WRITE is checked against its region and applied word by word or as page rewrites. -/
  | writeRegion (msg : Nat)
  /-- REGISTER (R253): A REGISTER control record allocates region memory, fills the entry, inserts the name row and activates the region key. -/
  | registerRegion (msg : Nat)
  /-- REVOKE (R263): A REVOKE control record deletes the name row and moves the entry to REVOKING, then waits for inflight to drain. -/
  | revokeRegion (msg : Nat)
  /-- REREGISTER (R253): A REREGISTER control record revokes the entry without scrub and reactivates the index with the next generation. -/
  | reregisterRegion (msg : Nat)
  /-- REVOKE_DRAIN_COMPLETE (R263): A REVOKING entry's inflight reaches zero; memory is scrubbed or kept, the entry becomes FREE or ACTIVE, and the response is sent. -/
  | revokeDrainComplete (index : Nat)
  /-- READ_RESP (R256): A READ_RESP arrives at a node that issued a READ, such as a transfer destination reading pages. -/
  | readResp (msg : Nat)
  /-- LEDGER_READ (R275): A LEDGER_READ is answered by the line's home, making the reader a sharer when cache = 1, or pulling the line if it is moving. -/
  | ledgerRead (msg : Nat)
  /-- LEDGER_PUBLISH (R277): A LEDGER_PUBLISH is checked and, if its version matches, recalls every sharer before writing the new content and version. -/
  | ledgerPublish (msg : Nat)
  /-- RECALL (R278): A RECALL arrives; the sharer discards older copies, acts on extent or ownership changes and answers RECALL_ACK at once. -/
  | recall (msg : Nat)
  /-- RECALL_ACK (R277): A RECALL_ACK arrives at the home; when all sharers have answered, the publish is written. -/
  | recallAck (msg : Nat)
  /-- RECALL_WAIT_EXPIRY (R277): A sharer's recall wait expires; a leased holder is passed over, a holder copy refuses the publish with BUSY unless the rule lets it proceed. -/
  | recallWaitExpiry (hub : Hub) (line sharer : Nat)
  /-- LEASE_EXPIRY (R274): A leased copy reaches lease_us of the holder's local time and ceases to be valid. -/
  | leaseExpiry (line : Nat)
  /-- TRANSFER_LEASE_EXPIRY (R288): A TRANSFER line's lease_end passes with no publish in progress and the home aborts the transfer. -/
  | transferLeaseExpiry (hub : Hub) (line : Nat)
  /-- EXTENT_DRAIN_EXPIRY (R283): drain_us passes for a CLOSING extent; remaining requests complete REVOKED, BUFFER regions are revoked and the scrub starts. -/
  | extentDrainExpiry (slice : Slice) (extent : Nat)
  /-- EXTENT_SCRUB_COMPLETE (R283): A withdrawn extent's scrub completes and the node publishes CLOSING to FREE with the next generation. -/
  | extentScrubComplete (slice : Slice) (extent : Nat)
  /-- MAP_ADOPT (R292): A node's in-flight count under epoch N-1 reaches zero and it adopts the newly read map as newest. -/
  | mapAdopt
  /-- EPOCH_WAIT_EXPIRY (R291): A request under a newer epoch waits epoch_wait_us without adoption and receives BUSY. -/
  | epochWaitExpiry (msg : Nat)
  /-- LINE_PULL (R293): A new home creates an ARRIVING entry and pulls the line from its old home, installing it when the content arrives. -/
  | linePull (hub : Hub) (line : Nat)
  /-- PULL_TIMEOUT (R293): A line pull receives no answer within pull_timeout_us from an absent old home and the line is created at version 0. -/
  | pullTimeout (hub : Hub) (line : Nat)
  /-- UNIT_RETURN (R297): A returning slice, hub or node raises its unit generation, is quarantined and verified against the ledger, then enters IN_SERVICE. -/
  | unitReturn (unit : Unit_)
  /-- ACK (R238): An ACK arrives; acknowledged segments are released, credit is taken, and SACK blocks may trigger fast retransmission. -/
  | ack (msg : Nat)
  /-- NACK (R230): A NACK arrives carrying the refusal status of a message before its handler. -/
  | nack (msg : Nat)
  /-- HELLO (R234): A HELLO or its response arrives; the responder opens a connection with the highest common version or refuses it. -/
  | hello (msg : Nat)
  /-- CONNECTION_FILL (R246): A spilled connection record returns on chip and the frames waiting in the fill queue proceed. -/
  | connectionFill (conn : Nat)
  /-- HEARTBEAT (R241): A HEARTBEAT arrives carrying local time and census report; it is answered with an ACK and its tag is entered in the census. -/
  | heartbeat (msg : Nat)
  /-- RTO_EXPIRY (R239): An unacknowledged segment's rto expires; it is retransmitted, rto doubles, and after retx_limit timeouts the connection fails. -/
  | rtoExpiry (conn : Nat)
  /-- HELLO_TIMEOUT (R236): An OPENING connection's HELLO times out; it is resent, or after retx_limit timeouts the open fails with BUSY. -/
  | helloTimeout (conn : Nat)
  /-- CREDIT_STALL_HEARTBEAT (R240): A sender stopped by credit sends a HEARTBEAT once per rto. -/
  | creditStallHeartbeat (conn : Nat)
  /-- ACK_DELAY_EXPIRY (R238): ack_delay passes after an arrival without a carried ack and an ACK is sent. -/
  | ackDelayExpiry (conn : Nat)
  /-- KEEPALIVE_EXPIRY (R241): Nothing has been received on a connection for keepalive and a HEARTBEAT is sent. -/
  | keepaliveExpiry (conn : Nat)
  /-- DEAD_TIME_EXPIRY (R236): Nothing arrives for dead_time; the connection becomes FAILED or, in CLOSING with nothing outstanding, ends. -/
  | deadTimeExpiry (conn : Nat)
  /-- QUIET_TIME_EXPIRY (R236): quiet_time passes for a FAILED connection and its record is freed. -/
  | quietTimeExpiry (conn : Nat)
  /-- SUBPORT_LINK_UP (R357): A sub-port link comes up and starts its key exchange with KX1. -/
  | subportLinkUp (hub : Hub) (sub : Sub) (peerMac : Nat)
  /-- SUBPORT_LINK_DOWN (R222): A sub-port link drops and its connections are reassigned across the remaining sub-ports. -/
  | subportLinkDown (hub : Hub) (sub : Sub)
  /-- KX1 (R357): A KX1 arrives; the side adopts a higher xid, checks the peer and sends KX2 once it holds both KX1 frames. -/
  | kx1 (hub : Hub) (sub : Sub) (frame : List Byte)
  /-- KX2 (R358): A valid KX2 arrives; the side derives keys, installs the receive association and sends KX3. -/
  | kx2 (hub : Hub) (sub : Sub) (frame : List Byte)
  /-- KX3 (R357): A KX3 arrives and the side sends with the new association from its next frame. -/
  | kx3 (hub : Hub) (sub : Sub) (frame : List Byte)
  /-- KX1_RETRY (R357): 10 ms pass without the peer's KX2 and KX1 is repeated, up to 20 times. -/
  | kx1Retry (hub : Hub) (sub : Sub)
  /-- KX_RESTART (R358): One second after a failed first exchange or failing rekey, the exchange is started again. -/
  | kxRestart (hub : Hub) (sub : Sub)
  /-- REKEY_INTERVAL_EXPIRY (R359): rekey_interval_s passes since the last install, or the packet number reaches 2^48, and a rekey starts. -/
  | rekeyIntervalExpiry (hub : Hub) (sub : Sub)
  /-- OLD_KEY_EXPIRY (R224): 10 ms after a rekey the previous key ceases to be valid for receiving. -/
  | oldKeyExpiry (hub : Hub) (sub : Sub)
  /-- BUCKET_REFILL (R303): At each microsecond of local time policer and shaper buckets refill and pending profile, shaper and quantum writes are applied. -/
  | bucketRefill (hub : Hub)
  /-- EGRESS_FRAME_OPPORTUNITY (R307): A sub-port frame opportunity is served from the lowest eligible strict class or by deficit round robin. -/
  | egressFrameOpportunity (hub : Hub) (sub : Sub)
  /-- GATE_LIST_COMMIT (R311): A write to gl_commit commits the pending gate list with its base time, or refuses it. -/
  | gateListCommit (hub : Hub)
  /-- GATE_LIST_SWITCH (R311): A committed gate list's base time arrives and it replaces the running list from entry 0. -/
  | gateListSwitch (hub : Hub) (sub : Sub)
  /-- GATE_ENTRY_ADVANCE (R310): The current gate-list entry's duration ends and the next entry's gate mask applies. -/
  | gateEntryAdvance (hub : Hub) (sub : Sub)
  /-- COMMAND_SLOT_ISSUE (R146): An issuer fills a Dill command slot and sets it QUEUED. -/
  | commandSlotIssue (slice : Slice) (slot : Slot64) (c : SlotFill)
  /-- COMMAND_CANCEL (R146): An issuer cancels a QUEUED or YIELDED command, which ends in FAULT with ABORTED. -/
  | commandCancel (slice : Slice) (slot : Slot64)
  /-- COMMAND_SLOT_RELEASE (R146): The issuer reads a DONE or FAULT slot's result and the slot becomes FREE. -/
  | commandSlotRelease (slice : Slice) (slot : Slot64)
  /-- VLD (R155): VLD starts an asynchronous load from memory into a lane buffer. -/
  | vld (slice : Slice) (f : FmtM)
  /-- VLD_COMPLETE (R155): An outstanding VLD completes, folding bytes into crc or faulting WORD_UNCORRECTABLE. -/
  | vldComplete (slice : Slice) (lane : Lane)
  /-- VST (R153): VST stores a lane buffer range to memory with fresh check bits. -/
  | vst (slice : Slice) (f : FmtM)
  /-- SLD (R153): SLD loads a word from memory or parameter space into a scalar register. -/
  | sld (slice : Slice) (f : FmtS)
  /-- SST (R153): SST stores a scalar register to memory or result space. -/
  | sst (slice : Slice) (f : FmtS)
  /-- WAITL (R153): WAITL waits until every outstanding load of the lane has completed. -/
  | waitl (slice : Slice) (f : FmtS)
  /-- CFG (R153): CFG sets the lane geometry from its immediate. -/
  | cfg (slice : Slice) (f : FmtS)
  /-- DQDOT8 (R79): DQDOT8 computes dot products of the queries with Q8T keys into ZB. -/
  | dqdot8 (slice : Slice) (f : FmtL)
  /-- DQDOT4 (R79): DQDOT4 computes dot products of the queries with Q4T keys into ZB. -/
  | dqdot4 (slice : Slice) (f : FmtL)
  /-- DQDOT4C (R79): DQDOT4C computes dot products of the folded queries with Q4C keys into ZB. -/
  | dqdot4c (slice : Slice) (f : FmtL)
  /-- FOLD (R79): FOLD folds a page's Q4C channel scales into the queries. -/
  | fold (slice : Slice) (f : FmtL)
  /-- DOTBF (R79): DOTBF computes dot products of the queries with BF16 tail keys into ZB. -/
  | dotbf (slice : Slice) (f : FmtL)
  /-- BND (R85): BND computes the page bound of each query head from a page's sketch. -/
  | bnd (slice : Slice) (f : FmtL)
  /-- BNDR (R88): BNDR computes the remaining skipped mass over unvisited pages, rounded upward. -/
  | bndr (slice : Slice) (f : FmtL)
  /-- LOGIT (R80): LOGIT turns ZB dot products into capped, biased base-2 logits with saturation. -/
  | logit (slice : Slice) (f : FmtL)
  /-- PMAX (R83): PMAX takes a page maximum and rescales the running record. -/
  | pmax (slice : Slice) (f : FmtL)
  /-- EXPACC8 (R83): EXPACC8 accumulates exponentiated weights and Q8T values into the records. -/
  | expacc8 (slice : Slice) (f : FmtL)
  /-- EXPACC4 (R83): EXPACC4 accumulates exponentiated weights and Q4T values into the records. -/
  | expacc4 (slice : Slice) (f : FmtL)
  /-- EXPACCBF (R83): EXPACCBF accumulates exponentiated weights and BF16 tail values into the records. -/
  | expaccbf (slice : Slice) (f : FmtL)
  /-- RMERGE (R97): RMERGE merges two OB record sets by the two-record merge. -/
  | rmerge (slice : Slice) (f : FmtL)
  /-- REMIT (R153): REMIT writes G records from OB to memory. -/
  | remit (slice : Slice) (f : FmtM)
  /-- CRCCHK (R153): CRCCHK compares the accumulated CRC with a register, faulting SEAL_CRC on mismatch, and clears it. -/
  | crcchk (slice : Slice) (f : FmtS)
  /-- SALU (R153): SALU performs an integer scalar operation. -/
  | salu (slice : Slice) (f : FmtS)
  /-- SFPU (R153): SFPU performs an FP32 scalar operation rounded to nearest even. -/
  | sfpu (slice : Slice) (f : FmtS)
  /-- MOVI (R153): MOVI loads an immediate into a scalar register. -/
  | movi (slice : Slice) (f : FmtS)
  /-- AADD (R153): AADD adds a sign-extended immediate to an address register. -/
  | aadd (slice : Slice) (f : FmtS)
  /-- LOOP (R154): LOOP opens a loop for the largest active-lane count, faulting LOOP_LIMIT above max_iter. -/
  | loopOpen (slice : Slice) (f : FmtC)
  /-- ENDL (R154): ENDL closes a loop, deactivating lanes whose count is exhausted. -/
  | endl (slice : Slice) (f : FmtC)
  /-- BRZ (R154): BRZ branches forward when its condition holds on any active lane, deactivating the others until the target. -/
  | brz (slice : Slice) (f : FmtC)
  /-- HALT (R146): HALT ends the command for all lanes with state DONE. -/
  | halt (slice : Slice) (f : FmtC)
  /-- YIELD (R159): When all active lanes reach YIELD, loads drain, refresh and throttle get their turn, and the scheduler picks the next command. -/
  | yield (slice : Slice) (f : FmtC)
  /-- PFILL (R163): PFILL writes a repeated pattern over a range with fresh check bits, as an instruction or POOL command. -/
  | pfill (slice : Slice) (f : PoolForm)
  /-- PCOPY (R163): PCOPY copies a source range to a destination in ascending order, as an instruction or POOL command. -/
  | pcopy (slice : Slice) (f : PoolForm)
  /-- PCMP (R163): PCMP compares two ranges word by word and returns the first difference, as an instruction or POOL command. -/
  | pcmp (slice : Slice) (f : PoolForm)
  /-- PRED (R163): PRED reduces a set of vectors element by element into one, as an instruction or POOL command. -/
  | pred (slice : Slice) (f : PoolForm)
  /-- POOL_CHUNK_COMPLETE (R161): A pool chunk of at most 64 KiB completes and the pool engine proceeds to its next chunk or waits for refresh catch-up. -/
  | poolChunkComplete (slice : Slice)
  /-- REFRESH_DUE (R161): A bank's refresh falls due and is issued, postponed during a segment or chunk, or forced at the backstop. -/
  | refreshDue (slice : Slice) (pc bank : Nat)
  /-- REFRESH_CATCH_UP (R161): With the lane engine at a yield and the pool engine at a chunk boundary, every postponed refresh is issued. -/
  | refreshCatchUp (slice : Slice)
  /-- THROTTLE_PAUSE_END (R189): The throttle pause after a lane segment ends and the next segment may start. -/
  | throttlePauseEnd (slice : Slice)
  /-- SNAPSHOT (R169): A PCIe SNAPSHOT command raises a fence on a range and returns it as it stood at one instant. -/
  | snapshot (msg : Nat)
  /-- SNAPSHOT_COPY (R169): Once started writers in a fenced range finish, the range is copied to the snapshot buffer, the fence lowered and the data returned. -/
  | snapshotCopy (snap : Nat)
  /-- STACK_TEMP_SAMPLE (R185): Every 100 µs a slice reads its stack temperature and sets the refresh rate, entering or leaving the critical level. -/
  | stackTempSample (slice : Slice) (temp : Int)
  /-- DIE_TEMP_SAMPLE (R402): Every 100 µs a die samples its four sensors, setting its thermal throttle level and checking the trip limits. -/
  | dieTempSample (die : Die) (t0 t1 t2 t3 : Int)
  /-- POWER_LEVEL_UPDATE (R190): Every 100 µs the input power average is taken and the node-wide power throttle level rises or falls by one. -/
  | powerLevelUpdate (watts : Nat)
  /-- PATROL_SCRUB_READ (R182): The patrol scrubber reads the next word of its round, rewriting corrected words and logging uncorrectable ones. -/
  | patrolScrubRead (die : Die)
  /-- BANK_RETAIN_IDLE (R192): An SRAM bank without access for retain_idle enters RETAIN. -/
  | bankRetainIdle (die : Die) (bank : Nat)
  /-- SELF_REFRESH_ENTRY (R187): A pseudo-channel whose banks are all idle for sr_idle enters self-refresh. -/
  | selfRefreshEntry (slice : Slice) (pc : Nat)
  /-- LINK_REPLAY (R15): A receiving die finding an uncorrectable word on a die-to-die link discards it and requests replay, taking the link down after three failures. -/
  | linkReplay (link : LinkId) (word : BitVec 144)
  /-- HUB_FAILURE (R20): An unplanned hub loss re-homes its quadrant, moves host port and NAND bus if needed, and leaves waiting merges to close PARTIAL. -/
  | hubFailure (hub : Hub)
  /-- CHIVE_INSERT (R207): An insert searches the key and places a new row by shifting rows to the nearest hole, or sends the key to overflow. -/
  | chiveInsert (hub : Hub) (row : ChiveRow)
  /-- CHIVE_DELETE (R207): A delete searches the row and clears its valid bit. -/
  | chiveDelete (hub : Hub) (row : ChiveRow)
  /-- CHIVE_REPLACE (R207): A replace searches the row and rewrites its value in place. -/
  | chiveReplace (hub : Hub) (row : ChiveRow)
  /-- OVERFLOW_RETURN (R211): A background task returns an overflowed key's rows to its home block when room allows. -/
  | overflowReturn (hub : Hub) (cls key : Nat)
  /-- CAM_SCRUB (R212): The scrubber compares the next CAM row with its shadow and rewrites it on mismatch. -/
  | camScrub (hub : Hub)
  /-- BLOCK_REBUILD (R213): A block with an uncorrectable shadow word is rebuilt from the authorities of its class. -/
  | blockRebuild (hub : Hub) (block : Nat)
  /-- PREFIX_ROOT_SCAN (R215): A new home hub scans re-homed slices' page headers to enter prefix-root rows. -/
  | prefixRootScan (hub : Hub)
  /-- COMMAND_BODY_WRITE (R325): A write to a command slot's body or inline payload is stored, or discarded when the slot is busy. -/
  | commandBodyWrite (port : Port) (fn : Fn) (slot : Slot64) (offset : Nat) (data : List Byte) (ide : Option Nat := none)
  /-- PAYLOAD_READ_COMPLETE (R327): The node's DMA read of a command payload completes, or fails, and the command proceeds to its handler or a refusal. -/
  | payloadReadComplete (msg : Nat) (r : DmaResult)
  /-- COALESCE_EXPIRY (R331): A ring's coalesce_ns interval ends and a held MSI-X message is sent. -/
  | coalesceExpiry (port : Port) (fn : Fn) (ring : Fin 16)
  /-- DIRECT_WINDOW_READ (R333): A read TLP through a BAR4 window is checked as a region access and served, refused or poisoned. -/
  | directWindowRead (port : Port) (fn : Fn) (window : Fin 16) (offset length : Nat) (ide : Option Nat)
  /-- DIRECT_WINDOW_WRITE (R333): A write TLP through a BAR4 window is checked as a region access and applied or discarded. -/
  | directWindowWrite (port : Port) (fn : Fn) (window : Fin 16) (offset : Nat) (data : List Byte) (ide : Option Nat)
  /-- FUNCTION_LEVEL_RESET (R335): A function-level reset or VF disable stops acceptance, discards completions, disables rings and windows and frees slots. -/
  | functionLevelReset (port : Port) (fn : Fn)
  /-- PCIE_LINK_DOWN (R336): A PCIe port's link goes down; it delivers no further completions and the other port becomes primary if needed. -/
  | pcieLinkDown (port : Port)
  /-- PERST_RELEASE (R427): The host releases PERST# and the port trains, answering Request Retry Status until start step 10. -/
  | perstRelease (port : Port)
  /-- RING_ENABLE (R340): Enabling a completion ring restarts it at entry 0, phase 1. -/
  | ringEnable (port : Port) (fn : Fn) (ring : Fin 16) (ide : Option Nat := none)
  /-- GET_MEASUREMENTS (R360): An SPDM GET_MEASUREMENTS returns the five attestation digests as measurement blocks. -/
  | getMeasurements (port : Port)
  /-- KEY_PROG (R360): An IDE_KM KEY_PROG programs a key for an IDE stream and sub-stream. -/
  | keyProg (port : Port) (stream sub set : Nat) (key : List Byte)
  /-- K_SET_GO (R360): An IDE_KM K_SET_GO switches a stream to the programmed key set. -/
  | kSetGo (port : Port) (stream set : Nat)
  /-- K_SET_STOP (R360): An IDE_KM K_SET_STOP stops a stream's key set. -/
  | kSetStop (port : Port) (stream set : Nat)
  /-- GET_CERTS (R346): A GET_CERTS MGMT op returns the alias, DeviceID and manufacturing certificates. -/
  | getCerts (msg : Nat)
  /-- ATTEST (R347): An ATTEST MGMT op holds changes and returns a signed report over the requester's nonce. -/
  | attest (msg : Nat)
  /-- SESSION_OPEN (R353): SESSION_OPEN exchanges ephemeral keys and returns a signed transcript and session_id. -/
  | sessionOpen (msg : Nat)
  /-- SESSION_AUTH (R353): SESSION_AUTH checks the operator key's signature and derives the session key. -/
  | sessionAuth (msg : Nat)
  /-- SESSION_CLOSE (R352): SESSION_CLOSE ends an operator session. -/
  | sessionClose (msg : Nat)
  /-- SESSION_IDLE_EXPIRY (R353): 600 s pass without a sealed message and the session ends. -/
  | sessionIdleExpiry (session : Nat)
  /-- REG_READ (R352): A session REG_READ returns a register at full resolution. -/
  | regRead (msg : Nat)
  /-- REG_WRITE (R352): A session REG_WRITE writes a register as from the primary PF, a class field becoming a delta. -/
  | regWrite (msg : Nat)
  /-- CONFIG_DELTA (R373): A CONFIG_DELTA is checked and its new full image written to the inactive NAND slot. -/
  | configDelta (msg : Nat)
  /-- DELTA_COMMIT (R374): The new image is read back and its commit record programmed, each class takes effect and the response is sent. -/
  | deltaCommit
  /-- PROGRAM_LOAD (R150): A PROGRAM_LOAD checks an operator program image and installs it into every slice. -/
  | programLoad (msg : Nat)
  /-- STAGE (R387): FIRMWARE STAGE writes and checks a bundle in the inactive firmware slot and commits it. -/
  | stage (msg : Nat)
  /-- ACTIVATE (R388): FIRMWARE ACTIVATE moves named dies to the staged slot by restart, failover or Lovage restart. -/
  | activate (msg : Nat)
  /-- REVERT (R387): FIRMWARE REVERT moves named dies back to the other slot. -/
  | revert (msg : Nat)
  /-- RATIFY (R387): FIRMWARE RATIFY raises every hub's fused security version minimum. -/
  | ratify (msg : Nat)
  /-- FW_READY_TIMEOUT (R388): A die not ready within ten times its bound after activation returns to its previous slot. -/
  | fwReadyTimeout (die : FwDie)
  /-- LEGACY_PSK (R366): LEGACY_PSK sets the wrapped legacy credential in serial NAND. -/
  | legacyPsk (msg : Nat)
  /-- TENANT_VIEW (R362): TENANT_VIEW returns the requesting tenant's coarsened counters and metering. -/
  | tenantView (msg : Nat)
  /-- CANDIDATE (R342): A CANDIDATE message arrives; the Lovage adopts a higher term and starts its vote wait on the first of a term. -/
  | candidate (hub sender : Hub) (term : Nat)
  /-- VOTE (R342): A vote arrives at a candidate, which becomes primary on holding five votes. -/
  | vote (hub voter : Hub) (term : Nat)
  /-- BEACON (R342): A primary's beacon arrives and resets the receiver's beacon timeout. -/
  | beacon (hub sender : Hub) (term : Nat)
  /-- BEACON_SEND (R342): Every 1 ms the primary sends a beacon to the other Lovages. -/
  | beaconSend (hub : Hub)
  /-- BEACON_TIMEOUT (R342): A Lovage hears no beacon for 10 ms, raises its term and stands as candidate. -/
  | beaconTimeout (hub : Hub)
  /-- VOTE_WAIT_EXPIRY (R342): 100 µs after a term's first CANDIDATE the Lovage votes for the lowest-numbered booted candidate. -/
  | voteWaitExpiry (hub : Hub)
  /-- CANDIDACY_TIMEOUT (R342): A candidate without five votes after 2 ms waits its hub number in ms and stands again with the next term. -/
  | candidacyTimeout (hub : Hub)
  /-- LOVAGE_MEASURED_BOOT (R344): A Lovage verifies its image, derives keys, issues its alias certificate, erases secrets and starts its firmware. -/
  | lovageMeasuredBoot (hub : Hub)
  /-- LEGACY_IDENTITY (R365): An authenticated legacy identity message returns the device identity. -/
  | legacyIdentity (counter : Nat) (body tag : List Byte)
  /-- LEGACY_HEALTH (R365): An authenticated legacy message returns the health summary. -/
  | legacyHealth (counter : Nat) (body tag : List Byte)
  /-- LEGACY_TEMP_POWER (R365): An authenticated legacy message returns full-resolution temperature and power. -/
  | legacyTempPower (counter : Nat) (body tag : List Byte)
  /-- LEGACY_DRAIN (R433): An authenticated legacy message sets the software drain latch, taken as one drain event. -/
  | legacyDrain (counter : Nat) (body tag : List Byte)
  /-- LEGACY_DRAIN_RELEASE (R433): An authenticated legacy message clears the software drain latch. -/
  | legacyDrainRelease (counter : Nat) (body tag : List Byte)
  /-- LEGACY_NODE_RESET (R365): An authenticated legacy message resets the node. -/
  | legacyNodeReset (counter : Nat) (body tag : List Byte)
  /-- RETRAIN (R389): lc_op RETRAIN drains a stack, puts it in self-refresh, retrains all pseudo-channels and resumes work. -/
  | retrain
  /-- RETIRE (R391): lc_op RETIRE evacuates a slice's extents to a substitute and marks it RETIRED. -/
  | retire
  /-- READMIT (R392): lc_op READMIT tests a retired slice, verifies it, copies its extents back and returns it to service. -/
  | readmit
  /-- FAILOVER (R394): lc_op FAILOVER moves a hub's merges, connections, rows and slices to its neighbour and takes its port down. -/
  | failover
  /-- FAILBACK (R394): lc_op FAILBACK returns a failed-over hub through verification and switches its slices back. -/
  | failback
  /-- ISOLATE_TEST (R385): lc_op ISOLATE_TEST isolates a retired slice or failed-over hub for self-test, link tests and scrub. -/
  | isolateTest
  /-- SHUTDOWN (R383): lc_op SHUTDOWN drains the node, flushes the journal, self-tests, writes the map TESTED and journals a clean shutdown. -/
  | shutdown
  /-- BANK_TEST (R384): Once per bist_period a die saves, tests, repairs and restores an ON SRAM or CAM bank in service. -/
  | bankTest (die : Die) (bank : Nat) (cam : Bool) (faults : List Nat)
  /-- CLASS_FIELD_WRITE (R373): A write to a configuration class field during an operator session is checked and committed as a one-field delta. -/
  | classFieldWrite (port : Port) (fn : Fn) (offset : Nat) (value : BitVec 32) (ide : Option Nat := none)
  /-- REGISTER_WRITE (R321): A write to a register without a row of its own is applied, counted as refused, or discarded by the write rules. -/
  | registerWrite (port : Port) (fn : Fn) (offset : Nat) (value : BitVec 32) (ide : Option Nat := none)
  /-- LOCAL_TIME_LATCH (R299): A read of local_time_lo latches local_time_hi. -/
  | localTimeLatch (hub : Hub) (port : Port := 0) (ide : Option Nat := none)
  /-- ERR_POP (R184): Writing 1 to err_pop discards the oldest error-log record. -/
  | errPop (die : Die)
  /-- DIE_SUMMARY_LATCH (R403): A read of offset 0x0100 latches the die summary of die_sel. -/
  | dieSummaryLatch (port : Port := 0) (ide : Option Nat := none)
  /-- METER_RECORD_LATCH (R417): A read of offset 0x0540 latches the metering record of meter_tenant whole. -/
  | meterRecordLatch (port : Port := 0) (ide : Option Nat := none)
  /-- CLEAR_MIN (R419): Writing clear_min restarts speed_min, min_width and max_temp of die_sel. -/
  | clearMin
  /-- JOURNAL_RECORD_LOAD (R419): Writing jr_seq_hi starts loading the named journal record into the window. -/
  | journalRecordLoad
  /-- JOURNAL_RECORD_LOADED (R419): A journal record load completes and jr_status reads loaded or not held. -/
  | journalRecordLoaded (corrected : Nat) (uncorrectable : Bool)
  /-- CENSUS_ENTRY_CLEAR (R377): Writing census_valid to 0 clears a census table entry. -/
  | censusEntryClear (hub : Hub) (entry : Fin 16)
  /-- BANK_FORCE_ON (R193): bank_request 1 forces the selected bank ON. -/
  | bankForceOn (die : Die)
  /-- BANK_FORCE_RETAIN (R193): bank_request 2 forces the selected bank to RETAIN, at the segment's yield if in use. -/
  | bankForceRetain (die : Die)
  /-- BANK_FORCE_OFF (R193): bank_request 3 forces the selected bank OFF, refused when it holds an allocation. -/
  | bankForceOff (die : Die)
  /-- BANK_AUTOMATIC (R193): bank_request 0 returns the selected bank to automatic state control. -/
  | bankAutomatic (die : Die)
  /-- MARGIN_MEASURE (R397): A slice measures one pseudo-channel's read eye, counting low readings and starting retraining after three. -/
  | marginMeasure (slice : Slice) (pc width height : Nat)
  /-- SERDES_MARGIN_REPORT (R399): Once per second a link receiver reports its margin, setting MARGIN_LOW after three low reports. -/
  | serdesMarginReport (die : Die) (unit height : Nat)
  /-- CANARY_MEASURE (R400): A die measures its canary loop periods over 10 µs and updates speed_index, setting SLACK_LOW when low. -/
  | canaryMeasure (die : Die) (index : Nat)
  /-- DROOP_EVENT (R402): The core supply falls by more than droop_mv for 5 ns and a droop event is counted. -/
  | droopEvent (die : Die) (mv : Nat)
  /-- HISTOGRAM_SAMPLE (R405): Once per second each die adds a second to its temperature, voltage and input histograms. -/
  | histogramSample (die : Die) (temp : Int) (core input : Nat)
  /-- HIST_FLUSH (R405): Every hist_flush_s histograms and metering records are written to the journal. -/
  | histFlush
  /-- METER_SAMPLE (R417): At each millisecond page-slot and SRAM use is added to every tenant's metering record. -/
  | meterSample
  /-- COARSE_PUBLISH (R362): Every 10 ms coarsened counter and occupancy values are published to tenant-facing readers. -/
  | coarsePublish (hub : Hub)
  /-- COARSE_PUBLISH_SECOND (R363): Every second power_avg, temperatures and throttle level are published to tenant-facing readers. -/
  | coarsePublishSecond (hub : Hub)
  /-- JOURNAL_RECORD_ARRIVAL (R408): A hub's journal record reaches the NAND-driving hub and is assigned a record_seq. -/
  | journalRecordArrival (hub : Hub)
  /-- JOURNAL_FLUSH_EXPIRY (R409): journal_flush_ms after a page's first record its page is programmed. -/
  | journalFlushExpiry
  /-- JOURNAL_PAGE_PROGRAM (R409): A full journal page is programmed to the head block, switching log blocks when full. -/
  | journalPageProgram
  /-- NAND_PROGRAM_FAIL (R413): A failed program or erase relocates the block into LB2 or LB3 and retires it. -/
  | nandProgramFail (block : Nat) (erase again : Bool)
  /-- VSB33_VALID (R427): VSB33 reaches its limits and the standby controller starts with PWROK low and DRAIN# armed. -/
  | vsb33Valid (drainLow : Bool)
  /-- VSB33_LOSS (R428): VSB33 leaves its limits while VIN48 is present and is treated as a loss of VIN48. -/
  | vsb33Loss
  /-- VIN48_VALID (R427): VIN48 reaches its limits and the regulators bring up the internal rails. -/
  | vin48Valid (mv : Nat)
  /-- RAILS_IN_REGULATION (R427): Every internal rail is in regulation and PWROK is released high; dies leave reset 1 ms later. -/
  | railsInRegulation
  /-- VIN48_UNDERVOLTAGE (R428): VIN48 falls below its limit and the device pulls PWROK low and turns off its rails, losing all die state. -/
  | vin48Undervoltage
  /-- RAIL_FAULT (R428): An internal rail leaves regulation and every internal rail is turned off until VIN48 cycles or RESET# is asserted. -/
  | railFault
  /-- RESET_ASSERT (R435): RESET# settles low and every die is held in reset, losing its state. -/
  | resetAssert
  /-- RESET_RELEASE (R378): The dies leave reset, MGMT_LEGACY is sampled and the node start sequence runs. -/
  | resetRelease (strap : Bool) (nand : NandFacts)
  /-- THROTTLE_ASSERT (R432): THROTTLE# falls and pin_level applies at each slice's next yield point. -/
  | throttleAssert
  /-- THROTTLE_RELEASE (R432): THROTTLE# settles high and the pin level leaves at the next yield point. -/
  | throttleRelease
  /-- DRAIN_EVENT (R433): An armed DRAIN# burst yields one drain event and the node enters DRAINING. -/
  | drainEvent
  /-- DRAIN_REARM (R431): DRAIN# stays settled high for the re-arm time, re-arms and releases the pin drain. -/
  | drainRearm
  /-- REF25_LOSS (R429): A REF25 input stops and its hub is treated as failed. -/
  | ref25Loss (hub : Hub)
  /-- BYPASS (R442): The BYPASS instruction selects the die's one-bit bypass register. -/
  | bypass (die : Die)
  /-- IDCODE (R442): The IDCODE instruction reads the die's identification code. -/
  | idcode (die : Die)
  /-- SAMPLE_PRELOAD (R442): SAMPLE/PRELOAD samples or preloads the boundary-scan cells while RESET# is low. -/
  | samplePreload (die : Die) (lands preload : List Bool)
  /-- EXTEST (R442): EXTEST drives and captures signal lands through the boundary-scan cells while RESET# is low. -/
  | extest (die : Die) (lands : List Bool)
  /-- CLAMP (R442): CLAMP holds outputs from the boundary cells with bypass selected while RESET# is low. -/
  | clamp (die : Die)
  /-- HIGHZ (R442): HIGHZ places outputs in high impedance while RESET# is low. -/
  | highz (die : Die)
  /-- LINKTEST (R443): LINKTEST selects a register that runs a PRBS generator and checker on a link unit. -/
  | linktest (die : Die) (data : BitVec 64)
  /-- HBMLOOP (R443): HBMLOOP selects a register that runs per-pin PRBS15 loopback on a pseudo-channel. -/
  | hbmloop (die : Die) (data : BitVec 64)
  /-- TAP_RESET (R442): TRST# or five TCK cycles with TMS high reset every TAP to IDCODE. -/
  | tapReset
  /-- FINAL_WRITE (R326): An aligned 8-byte write to bytes 56 to 63 of a BAR2 slot is judged by slot state, valid and slot_seq, accepting the command and running orders 1 to 5 of R327, or discarding, ignoring or refusing it. -/
  | finalWrite (port : Port) (fn : Fn) (slot : Slot64) (value : BitVec 64) (ide : Option Nat := none)
  /-- SLICE_FAILURE (R391): A slice die fails unplanned and becomes UNAVAILABLE; waiting merges close PARTIAL and, during an evacuation, unswitched extents become unavailable or the retirement ends UNCORRECTABLE. -/
  | sliceFailure (slice : Slice)
  /-- PROGRAM_FREE (R151): The operator frees an operator program number, refused with BUSY while a resident or queued command names it. -/
  | programFree (number : Nat)
  /-- SECURED_SESSION (R360): The host establishes an SPDM secured session with the port's responder, over which IDE_KM messages are then carried. -/
  | securedSession (port : Port)
  /-- LEDGER_READ_RESPONSE (R275): The home's answer to a node's own LEDGER_READ arrives; the node installs or discards its copy and resumes the ownership, extent, map or verification check that waited on it. -/
  | ledgerReadResponse (msg : Nat)
  /-- LEDGER_PUBLISH_RESPONSE (R276): The home's answer to a node's own LEDGER_PUBLISH arrives, letting a transfer destination, source or extent holder proceed or drop its work on CONFLICT. -/
  | ledgerPublishResponse (msg : Nat)
  /-- DIE_READY (R388): A die activated on the staged firmware slot reports ready within ten times its bound, and takes its queued work. -/
  | dieReady (die : Die)
  /-- CANDIDACY_BACKOFF_EXPIRY (R342): A candidate's wait of its hub number times 1 ms after a failed candidacy ends and it stands again with term + 1. -/
  | candidacyBackoffExpiry (hub : Hub)
  /-- VSB33_REMOVED (R438): VSB33 stays below 1.0 V for 10 ms, clearing the THERMTRIP# latch and losing any held DRAIN event. -/
  | vsb33Removed
  /-- STACK_RETRAIN_COMPLETE (R389): The PHY finishes retraining all pseudo-channels, the stack exits self-refresh and waiting work resumes, or a pseudo-channel failing three attempts makes the slice UNAVAILABLE. -/
  | stackRetrainComplete (slice : Slice) (failed : Bool)
  deriving DecidableEq, Repr

end Sys2Proof
end

