-- ==== Sys2Proof/Config.lean ====
section
/-!
DEFINITION. What an implementation fixes and what the spec leaves open: constants without a body, so that no proof can
lean on a value of theirs. The cryptographic functions the spec names by their standards are here for the same reason
(assumption 6), with the layouts the spec does not give (class bodies, assumption 9; the geometry word, assumption 28).
-/
namespace Sys2Proof

/-- The n-th value the spec leaves free: a random number, a nonce, an unstated result (assumption 5). -/
opaque Config.freeValue : Nat → Nat

/-- The n-th value of the records that an operator's program emits: its words and the numbers of its request, the bytes it is
given. 07_dill.md R149 (assumption 80). -/
opaque Config.operatorValue : List Nat → List Byte → Nat → Nat

/-- What the firmware writes in an entry of the kernel table from 12 to 15: entry, field (0 any, 1 tenant, 2 key format, 3
value format, 4 skip mode, 5 program). 07_dill.md R149 names no values (assumption 172). -/
opaque Config.kernelEntry : Nat → Nat → Nat

/-- Where a device structure starts: structure number, die; in 16-byte words (assumptions 7 and 145). Structures: 0
descriptor table, 1 sequence entries, 2 region table, 3 ledger directory, 4 connection arena, 5 command area, 6 prefetch
buffer, 9 Chive shadow, 10 + class overflow tables, 20 and 21 the record buffer and scratch of an ATTEND; 7 and 8 a
connection's send ring and reassembly buffer, by its index. -/
opaque Config.placeOf : Nat → Nat → Nat

/-- Sign and payload of the NaN that an invalid FP32 operation gives: the spec states no encoding (assumption 29). -/
opaque Config.nanBits : BitVec 32

/-- SHAKE256 of a byte string, squeezed to n bytes. 16_lifecycle.md R369 and elsewhere. -/
opaque Config.shake256 : List Byte → Nat → List Byte

/-- Ed448 signature with a private key and a context code. 15_trust.md R347 to R357. -/
opaque Config.ed448Sign : List Byte → Nat → List Byte → List Byte

/-- Ed448 verification: public key, context code, message, signature. -/
opaque Config.ed448Verify : List Byte → Nat → List Byte → List Byte → Bool

/-- X448 of a private and a public key. 15_trust.md R358. -/
opaque Config.x448 : List Byte → List Byte → List Byte

/-- X448 public key of a private key. -/
opaque Config.x448Public : List Byte → List Byte

/-- AES-256-GCM sealing: key, nonce, associated data, plain text. 15_trust.md R351. -/
opaque Config.gcmSeal : List Byte → List Byte → List Byte → List Byte → List Byte

/-- AES-256-GCM opening; none when the tag fails. -/
opaque Config.gcmOpen : List Byte → List Byte → List Byte → List Byte → Option (List Byte)

/-- HMAC-SHA-256 truncated to 16 bytes: key, message. 15_trust.md R365. -/
opaque Config.hmac16 : List Byte → List Byte → List Byte

/-- What a link key-exchange chain names: whether it leads to an anchor of the list, the DeviceID public key
and the alias public key. 15_trust.md R346, R358. -/
opaque Config.chainCheck : List (List Byte) → List Byte → Bool × List Byte × List Byte

/-- The unique device secret, 32 bytes, the same in all hubs. 15_trust.md R341. -/
opaque Config.uds : List Byte

/-- The fused digest of the firmware signing key, 32 bytes, the same in all hubs. 15_trust.md R341. -/
opaque Config.fwKeyDigest : List Byte

/-- The Ed448 public key of a 57-byte seed. 15_trust.md R345. -/
opaque Config.ed448Public : List Byte → List Byte

/-- The DER-encoded certificates that the serial NAND holds since manufacture: 1 DeviceID, 2 manufacturing. 15_trust.md
R346. -/
opaque Config.certificate : Nat → List Byte

/-- The DER-encoded alias certificate that the ROM issues: DeviceID seed, alias public key, lfw, security version.
15_trust.md R344 step 4, R346. -/
opaque Config.aliasCertificate : List Byte → List Byte → List Byte → Nat → List Byte

/-- Whether an endorsement of a peer joins its DeviceID key and its alias key. 15_trust.md R346, R355. -/
opaque Config.endorsed : List Byte → List Byte → List Byte → Bool

/-- Digest of an image of the bundle with a digest: 0 slice die, 1 hub die, 2 Lovage. 15_trust.md R345, R347. -/
opaque Config.imageDigest : List Byte → Nat → List Byte

/-- Whether the signature of the Lovage image of a bundle holds: fused key digest, digest of the bundle. 15_trust.md R344. -/
opaque Config.imageSigned : List Byte → List Byte → Bool

/-- Whether a class body keeps its class's layout. 16_lifecycle.md R373. The layouts are not in the spec. -/
opaque Config.bodyOk : Nat → List Byte → Bool

/-- The value a class body gives a register field: class, body, register number, instance, entry. -/
opaque Config.bodyField : Nat → List Byte → Nat → Nat → Nat → Option Nat

/-- A class body with one register field changed: class, body, register number, instance, entry, value. -/
opaque Config.bodySet : Nat → List Byte → Nat → Nat → Nat → Nat → List Byte

/-- The endpoint table of a class body: the packed address of an endpoint. 10_fabric.md R222. -/
opaque Config.endpointAddr : List Byte → Nat → Option Nat

/-- The map anchor of a MAP class body: endpoint and hub. 12_ledger.md R272. -/
opaque Config.mapAnchor : List Byte → Nat × Nat

/-- Whether a PAGE class body permits key format, value format, T code and D code for new sequences (R368). -/
opaque Config.pagePermits : List Byte → Nat → Nat → Nat → Nat → Bool

/-- Protocol versions a WIRE class body enables, bit v for version v. 16_lifecycle.md R368. -/
opaque Config.wireVersions : List Byte → Nat

/-- MAC address of a sub-port in a PORTS class body: hub, sub-port. -/
opaque Config.portMac : List Byte → Nat → Nat → Nat

/-- Profile a NODE class body selects: false Economy, true Full. 08_memory.md R173. -/
opaque Config.bodyProfile : List Byte → Bool

/-- The lowered operator programs a KERNEL class body carries: number and image. -/
opaque Config.kernelPrograms : List Byte → List (Nat × List Byte)

/-- A KERNEL class body with another digest of the micro-program store. 07_dill.md R148. -/
opaque Config.bodyPrograms : List Byte → List Byte → List Byte

/-- A program the firmware ships: its instruction words and its segment bound in ns. 07_dill.md R149. -/
opaque Config.shippedProgram : Nat → List Nat × Nat

/-- What the TRUST class holds (15_trust.md R350). -/
structure Trust where
  /-- operator keys, index 0 to 7 -/
  opKeys     : Assoc Nat (List Byte)
  /-- tenant keys by tenant and key index -/
  tenantKeys : Assoc (Nat × Nat) (List Byte)
  /-- protection domain to tenant -/
  domains    : Assoc Nat Nat
  /-- link anchors -/
  anchors    : List (List Byte)
  /-- peer lists by hub and sub-port -/
  peers      : Assoc (Nat × Nat) (List (List Byte))
  /-- member identities: 16-byte prefixes -/
  members    : List (List Byte)
  /-- operator role may open physical stack windows -/
  opWindows  : Bool
  legacyEn   : Bool
  deriving DecidableEq, Repr, Inhabited

/-- What a TRUST class body holds. Its layout is not in the spec. -/
opaque Config.trustOf : List Byte → Trust

/-- Geometry of a Dill command: G, D, key and value formats, cap and bias enables (07_dill.md R143). -/
structure Geom where
  g    : Nat
  d    : Nat
  kf   : Nat
  vf   : Nat
  cap  : Bool
  bias : Bool
  deriving DecidableEq, Repr, Inhabited

/-- What the 32-bit geometry word that CFG sets stands for. Its bits are not in the spec. -/
opaque Config.geometry : BitVec 32 → Geom

/-- The request's scalars as LOGIT and BND read them from the command's 32 parameter words: softmax_scale,
logit_cap, slopes, query position. Their places are not in the spec. -/
opaque Config.kernelScalar : Nat → List (BitVec 32) → BitVec 32

/-- Bundle facts: signature good, security version, digest, digests it may run beside. 16_lifecycle.md R387. -/
opaque Config.bundleFacts : List Byte → Bool × Nat × List Byte × List (List Byte)

/-- An answer of the forerunner's management protocol, whose layout is not in the spec: function, content.
15_trust.md R365. -/
opaque Config.legacyReply : Nat → List Byte → List Byte

/-- Unit serial, fused. 14_host.md R339. -/
opaque Config.serial : Nat

/-- What the array tests of a die find, by die and test number: kind (R380), unit and location of each fault.
16_lifecycle.md R382. -/
opaque Config.selfTestFaults : Nat → Nat → List (Nat × Nat × Nat)

/-- What the pattern tests of a die's lanes find, by die and test number: unit (17_health.md R399) and lane of each lane with an
error. 18_package.md R440. -/
opaque Config.laneErrors : Nat → Nat → List (Nat × Nat)

/-- What the loopback test of a slice's HBM PHY finds, by slice and test number: pseudo-channels with a pin that fails three
attempts. 18_package.md R441, 16_lifecycle.md R389. -/
opaque Config.pinFaults : Nat → Nat → List Nat

/-- Results of the manufacturing test that both known-good maps of a new part hold. 16_lifecycle.md R381. -/
opaque Config.factoryEntries : List (Nat × Nat × Nat × Nat × Nat)

end Sys2Proof
end

