-- ==== Sys2Proof/Machine/Numerics.lean ====
section
/-!
DEFINITION. FP32, BF16 and FP16 arithmetic, exact with one rounding, and the functions exp2, exp2_up and tanh that
04_attend.md R82 defines; the dequantize-dot, logit, visit and merge numerics rest on these. The CRC-32C of 02_pages.md R33.
-/
namespace Sys2Proof.Machine

/-- How an inexact result is rounded. 04_attend.md, Numerics; R85. -/
inductive Rnd where
  /-- to nearest, ties to even -/
  | ne
  /-- toward +∞ -/
  | up
  /-- toward −∞ -/
  | dn
  deriving DecidableEq, Repr

/-- A binary interchange format: significand bits with the hidden one, lowest normal exponent, width. -/
structure FpFmt where
  p    : Nat
  emin : Int
  w    : Nat
  deriving DecidableEq, Repr

/-- binary32. -/
def fp32 : FpFmt := ⟨24, -126, 32⟩
/-- bfloat16. -/
def bf16 : FpFmt := ⟨8, -126, 16⟩
/-- binary16. -/
def fp16 : FpFmt := ⟨11, -14, 16⟩

/-- Encoding of +∞ without its sign. -/
def FpFmt.inf (f : FpFmt) : Nat := 2 ^ (f.w - 1) - 2 ^ (f.p - 1)

/-- Sign of an encoding. -/
def FpFmt.neg (f : FpFmt) (v : Nat) : Bool := Nat.testBit v (f.w - 1)

/-- An encoding without its sign. -/
def FpFmt.mag (f : FpFmt) (v : Nat) : Nat := v % 2 ^ (f.w - 1)

/-- Whether an encoding is a NaN. -/
def FpFmt.isNan (f : FpFmt) (v : Nat) : Bool := decide (f.inf < f.mag v)

/-- Whether an encoding is an infinity. -/
def FpFmt.isInf (f : FpFmt) (v : Nat) : Bool := decide (f.mag v = f.inf)

/-- Whether an encoding is finite. -/
def FpFmt.finite (f : FpFmt) (v : Nat) : Bool := decide (f.mag v < f.inf)

/-- A dyadic number m × 2^e. -/
structure Dy where
  m : Int
  e : Int
  deriving DecidableEq, Repr

/-- The exact value of a finite encoding. -/
def FpFmt.val (f : FpFmt) (v : Nat) : Dy :=
  let a := f.mag v
  let ex := a / 2 ^ (f.p - 1)
  let fr := a % 2 ^ (f.p - 1)
  let sig : Nat := if ex = 0 then fr else fr + 2 ^ (f.p - 1)
  let e : Int := f.emin - (f.p - 1 : Nat) + (if ex = 0 then 0 else ex - 1 : Nat)
  ⟨if f.neg v then -(sig : Int) else sig, e⟩

/-- n × 2^k for an integer k, as numerator and denominator. -/
def shiftRat (n d : Nat) (k : Int) : Nat × Nat :=
  if 0 ≤ k then (n * 2 ^ k.toNat, d) else (n, d * 2 ^ (-k).toNat)

/-- The integer a quotient is rounded to; away names rounding away from zero in the directed modes. -/
def roundQuot (r : Rnd) (neg : Bool) (n d : Nat) : Nat :=
  let q := n / d
  let rem := n % d
  match r with
  | .ne => if d < 2 * rem ∨ (2 * rem = d ∧ q % 2 = 1) then q + 1 else q
  | .up => if rem ≠ 0 ∧ ¬ neg then q + 1 else q
  | .dn => if rem ≠ 0 ∧ neg then q + 1 else q

/-- The encoding of (−1)^neg × n / d × 2^e in a format, rounded once. -/
def FpFmt.round (f : FpFmt) (r : Rnd) (neg : Bool) (n d : Nat) (e : Int) : Nat :=
  let sg := if neg then 2 ^ (f.w - 1) else 0
  if n = 0 then sg
  else
    let k0 : Int := (Nat.log2 n : Int) - (Nat.log2 d : Int)
    let (a, b) := shiftRat n d (-k0)
    let k := if a < b then k0 - 1 else k0
    let q0 : Int := max (k + e) f.emin - (f.p - 1 : Nat)
    let (n', d') := shiftRat n d (e - q0)
    let m := roundQuot r neg n' d'
    let qmin : Int := f.emin - (f.p - 1 : Nat)
    let enc := (q0 - qmin).toNat * 2 ^ (f.p - 1) + m
    let lim :=
      match r with
      | .ne => f.inf
      | .up => if neg then f.inf - 1 else f.inf
      | .dn => if neg then f.inf else f.inf - 1
    sg + (if f.inf ≤ enc then lim else enc)

/-- The encoding of a dyadic number, rounded once; an exact zero is +0. -/
def FpFmt.ofDy (f : FpFmt) (r : Rnd) (x : Dy) : Nat :=
  f.round r (decide (x.m < 0)) x.m.natAbs 1 x.e

/-- Sum of two dyadic numbers. -/
def Dy.add (x y : Dy) : Dy :=
  if x.e ≤ y.e then ⟨x.m + y.m * (2 ^ (y.e - x.e).toNat : Nat), x.e⟩
  else ⟨x.m * (2 ^ (x.e - y.e).toNat : Nat) + y.m, y.e⟩

/-- Product of two dyadic numbers. -/
def Dy.mul (x y : Dy) : Dy := ⟨x.m * y.m, x.e + y.e⟩

/-- The negative of a dyadic number. -/
def Dy.neg (x : Dy) : Dy := ⟨-x.m, x.e⟩

/-- Whether a dyadic number is at most another. -/
def Dy.le (x y : Dy) : Bool := decide ((x.add y.neg).m ≤ 0)

/-- Whether a dyadic number is below another. -/
def Dy.lt (x y : Dy) : Bool := decide ((x.add y.neg).m < 0)

/-! ## FP32 -/

/-- FMAX. 04_attend.md, Numerics. -/
def FMAX : F32 := 0x7F7FFFFF#32
/-- −∞. -/
def NEGINF : F32 := 0xFF800000#32
/-- +∞. -/
def POSINF : F32 := 0x7F800000#32
/-- The NaN that an invalid FP32 operation gives: quiet, its sign and payload free (assumption 29). -/
def QNAN : F32 := 0x7FC00000#32 ||| (Config.nanBits &&& 0x803FFFFF#32)
/-- 1. -/
def ONE : F32 := 0x3F800000#32
/-- LOG2E. 04_attend.md, Numerics. -/
def LOG2E : F32 := 0x3FB8AA3B#32

/-- Whether an FP32 value is finite. -/
def f32fin (a : F32) : Bool := fp32.finite a.toNat
/-- Whether an FP32 value is a NaN. -/
def f32nan (a : F32) : Bool := fp32.isNan a.toNat
/-- Whether an FP32 value is an infinity. -/
def f32inf (a : F32) : Bool := fp32.isInf a.toNat
/-- Sign bit of an FP32 value. -/
def f32sgn (a : F32) : Bool := a.msb
/-- Exact value of a finite FP32 value. -/
def f32Dy (a : F32) : Dy := fp32.val a.toNat
/-- Whether an FP32 value is +0 or −0. -/
def f32zero (a : F32) : Bool := decide (a.toNat % 2 ^ 31 = 0)
/-- Magnitude of an FP32 value. -/
def f32Abs (a : F32) : F32 := a &&& 0x7FFFFFFF#32

/-- FP32 value of a dyadic number. -/
def f32OfDy (r : Rnd) (x : Dy) : F32 := BitVec.ofNat 32 (fp32.ofDy r x)

/-- FP32(q) of an integer. -/
def f32OfInt (r : Rnd) (i : Int) : F32 := f32OfDy r ⟨i, 0⟩

/-- FP32 addition. -/
def f32Add (r : Rnd) (a b : F32) : F32 :=
  if f32nan a ∨ f32nan b then QNAN
  else if f32inf a then (if f32inf b ∧ a ≠ b then QNAN else a)
  else if f32inf b then b
  else
    let x := (f32Dy a).add (f32Dy b)
    if x.m = 0 then
      (if f32zero a ∧ f32zero b ∧ f32sgn a ∧ f32sgn b then a
       else if r = .dn ∧ ¬ (f32zero a ∧ f32zero b ∧ ¬ f32sgn a ∧ ¬ f32sgn b) then 0x80000000#32 else 0#32)
    else f32OfDy r x

/-- FP32 subtraction. -/
def f32Sub (r : Rnd) (a b : F32) : F32 := f32Add r a (b ^^^ 0x80000000#32)

/-- FP32 multiplication. -/
def f32Mul (r : Rnd) (a b : F32) : F32 :=
  let s : F32 := if f32sgn a = f32sgn b then 0#32 else 0x80000000#32
  if f32nan a ∨ f32nan b then QNAN
  else if f32inf a ∨ f32inf b then (if f32zero a ∨ f32zero b then QNAN else s ||| POSINF)
  else if f32zero a ∨ f32zero b then s
  else f32OfDy r ((f32Dy a).mul (f32Dy b))

/-- FP32 division. -/
def f32Div (r : Rnd) (a b : F32) : F32 :=
  let neg := f32sgn a != f32sgn b
  let s : F32 := if neg then 0x80000000#32 else 0#32
  if f32nan a ∨ f32nan b then QNAN
  else if f32inf a then (if f32inf b then QNAN else s ||| POSINF)
  else if f32inf b then s
  else if f32zero b then (if f32zero a then QNAN else s ||| POSINF)
  else if f32zero a then s
  else
    let x := f32Dy a
    let y := f32Dy b
    BitVec.ofNat 32 (fp32.round r neg x.m.natAbs y.m.natAbs (x.e - y.e))

/-- a < b, for values that are not NaN. -/
def f32Lt (a b : F32) : Bool :=
  if f32nan a ∨ f32nan b then false
  else if a = NEGINF then decide (b ≠ NEGINF)
  else if b = NEGINF then false
  else if b = POSINF then decide (a ≠ POSINF)
  else if a = POSINF then false
  else (f32Dy a).lt (f32Dy b)

/-- a ≤ b, for values that are not NaN. -/
def f32Le (a b : F32) : Bool := decide (¬ f32nan a ∧ ¬ f32nan b) && ! f32Lt b a

/-- The greater of two values; of two that are equal or not ordered the smaller encoding, which of equal zeros is the
positive one, so that the choice is symmetric (05_merge.md R100). -/
def f32Max (a b : F32) : F32 :=
  if f32Lt a b then b else if f32Lt b a then a else if a.toNat ≤ b.toNat then a else b

/-- The lesser of two values. -/
def f32Min (a b : F32) : F32 := if f32Lt b a then b else a

/-- Replaces an infinity by ±FMAX and says whether it did. 04_attend.md R81. -/
def f32Sat (a : F32) : F32 × Bool :=
  if f32inf a then (FMAX ||| (a &&& 0x80000000#32), true) else (a, false)

/-- FP32 of a BF16 encoding, exact. -/
def f32OfBf16 (b : Nat) : F32 := BitVec.ofNat 32 (b % 65536 * 65536)

/-- FP32 of an FP16 encoding, exact. -/
def f32OfFp16 (h : Nat) : F32 :=
  if fp16.isNan h then QNAN
  else
    let s : F32 := if fp16.neg h then 0x80000000#32 else 0#32
    if fp16.isInf h then s ||| POSINF
    else s ||| f32Abs (f32OfDy .ne (fp16.val h))

/-- BF16 encoding of an FP32 value. -/
def f32ToBf16 (r : Rnd) (a : F32) : Nat :=
  let s := if f32sgn a then 0x8000 else 0
  if f32nan a then 0x7FC0
  else if f32inf a then s + 0x7F80
  else if f32zero a then s
  else bf16.ofDy r (f32Dy a)

/-- The integer nearest a dyadic number, ties to even (rne_int). -/
def Dy.rneInt (x : Dy) : Int :=
  if 0 ≤ x.e then x.m * (2 ^ x.e.toNat : Nat)
  else
    let q := roundQuot .ne (decide (x.m < 0)) x.m.natAbs (2 ^ (-x.e).toNat)
    if x.m < 0 then -(q : Int) else q

/-- The greatest integer at most a dyadic number. -/
def Dy.floor (x : Dy) : Int :=
  if 0 ≤ x.e then x.m * (2 ^ x.e.toNat : Nat) else x.m.fdiv (2 ^ (-x.e).toNat : Nat)

/-- The least integer at least a dyadic number. -/
def Dy.ceil (x : Dy) : Int := -(Dy.floor x.neg)

/-- clamp of an integer to −q to q. -/
def clampInt (q i : Int) : Int := if i < -q then -q else if q < i then q else i

/-! ## exp2, exp2_up, tanh (04_attend.md R82) -/

/-- Fraction bits of the fixed-point evaluation. -/
def expP : Nat := 256

/-- ⌊ln 2 × 2^256⌋. -/
def ln2P : Nat :=
  80260960185991308862233904206310070533990667611589946606122867505419956976171

/-- Adds the terms y^k / k! from k on, for a number of terms. -/
def expTaylor : Nat → Nat → Nat → Nat → Nat → Nat
  | 0, _, _, _, acc => acc
  | n + 1, k, y, t, acc =>
    let t' := t * y / 2 ^ expP / k
    expTaylor n (k + 1) y t' (acc + t')

/-- e^y × 2^256 for y = Y / 2^256 below 1. -/
def expFix (y : Nat) : Nat := expTaylor 72 1 y (2 ^ expP) (2 ^ expP)

/-- 2^x for a finite x, as significand and exponent: E / 2^256 × 2^i with 1 ≤ E / 2^256 < 2. -/
def pow2 (x : Dy) : Nat × Int :=
  let i := x.floor
  let f := x.add ⟨-i, 0⟩
  let fx := (shiftRat f.m.natAbs 1 (f.e + expP)).1 / (shiftRat f.m.natAbs 1 (f.e + expP)).2
  (expFix (fx * ln2P / 2 ^ expP), i)

/-- exp2(x) for x ≤ 0. -/
def exp2 (x : F32) : F32 :=
  if x = NEGINF ∨ f32Lt x (0xC2FC0000#32) then 0#32
  else
    let (e, i) := pow2 (f32Dy x)
    BitVec.ofNat 32 (fp32.round .ne false e (2 ^ expP) i)

/-- exp2_up(x) for finite x. -/
def exp2Up (x : F32) : F32 :=
  if f32Le 0x43000000#32 x then POSINF
  else if f32Lt x 0xC3150000#32 then 1#32
  else
    let (e, i) := pow2 (f32Dy x)
    BitVec.ofNat 32 (fp32.round .up false e (2 ^ expP) i)

/-- tanh(x) for finite x. A magnitude below 2^−13 rounds to itself, one of 20 and above to 1. -/
def tanh32 (x : F32) : F32 :=
  let s := x &&& 0x80000000#32
  let a := f32Abs x
  if f32Lt a 0x39000000#32 then x
  else if f32Le 0x41A00000#32 a then s ||| ONE
  else
    let d := f32Dy a
    let y := (shiftRat d.m.natAbs 1 (d.e + 1 + expP)).1
    let n := y / ln2P
    let e := expFix (y - n * ln2P) * 2 ^ n
    s ||| BitVec.ofNat 32 (fp32.round .ne false (e - 2 ^ expP) (e + 2 ^ expP) 0)

/-! ## CRC-32C -/

/-- CRC-32C. 02_pages.md R33: reflected, initial value and final XOR all ones. -/
def crcByte (c : Nat) (b : Byte) : Nat :=
  (List.range 8).foldl (fun c _ => if c % 2 = 1 then (c / 2) ^^^ 0x82F63B78 else c / 2) (c ^^^ b.toNat)

/-- CRC-32C register after more bytes, without the final XOR. -/
def crcRun (c : Nat) (bs : List Byte) : Nat := bs.foldl crcByte c

/-- CRC-32C of a byte string. 02_pages.md R33. -/
def crc32c (bs : List Byte) : Nat := crcRun 0xFFFFFFFF bs ^^^ 0xFFFFFFFF

end Sys2Proof.Machine
end

