-- ==== Sys2Proof/Machine/Maps.lean ====
section
/-!
DEFINITION. What stands in serial NAND and in fuses as bytes: the partitions, the known-good map, the fuse bank apart from
the UDS. 16_lifecycle.md R379, R380; 15_trust.md R341, R347.
-/
namespace Sys2Proof.Machine

/-! ## Serial NAND (16_lifecycle.md R379, 17_health.md R410, R411) -/

/-- Sizes of the fixed partitions in MiB: table, CONFIG A and B, FIRMWARE A and B, KGM A and B, SECRETS. The journal takes
the rest. 16_lifecycle.md R379. -/
def nandParts : List Nat := [1, 16, 16, 64, 64, 4, 4, 1]

/-- Blocks of 64 pages of 4 KiB before the JOURNAL partition. 17_health.md R410, R411. -/
def nandFixed : Nat := 4 * nandParts.foldl (· + ·) 0

/-- Good blocks of the JOURNAL partition of a device with so many blocks, some with a factory mark. 17_health.md R410,
R411. -/
def journalBlocks (blocks : Nat) (marked : List Nat) : Nat :=
  ((List.range (blocks - nandFixed)).filter fun i => ! marked.contains (nandFixed + i)).length

/-! ## The known-good map (16_lifecycle.md R380) -/

/-- A known-good map copy: the header's fields, and die, kind, unit, location, value of each entry. 16_lifecycle.md R380. -/
structure KgMap where
  /-- format version, 4 bits -/
  ver     : Nat
  /-- 1 TESTED, 2 DIRTY, 2 bits -/
  state   : Nat
  /-- entries, 16 bits -/
  count   : Nat
  /-- CRC-32C, 32 bits -/
  crc     : Nat
  /-- sequence number, 64 bits -/
  seq     : Nat
  /-- serial number, 64 bits -/
  serial  : Nat
  /-- first 128 bits of the fuse bank's digest -/
  fusePrefix : List Byte
  /-- 16 bytes each: die, kind, unit, location, value -/
  entries : List (Nat × Nat × Nat × Nat × Nat)
  deriving DecidableEq, Repr, Inhabited

/-- Bytes of an entry. -/
def kgmEntry (e : Nat × Nat × Nat × Nat × Nat) : List Byte :=
  leBytes 1 e.1 ++ leBytes 1 e.2.1 ++ leBytes 2 e.2.2.1 ++ leBytes 4 e.2.2.2.1 ++ leBytes 8 e.2.2.2.2

/-- Bytes of a map with a value in the crc field. -/
def kgmBytes (m : KgMap) (crc : Nat) : List Byte :=
  leBytes 1 (m.ver % 16) ++ leBytes 1 (m.state % 4) ++ leBytes 2 m.count ++ leBytes 4 crc ++ leBytes 8 m.serial ++
    leBytes 8 m.seq ++ takeBytes m.fusePrefix 0 16 ++ zeros 24 ++ m.entries.flatMap kgmEntry

/-- A map as it is written: format 1, its entries counted, its crc over the header with the field zero and the entries. -/
def kgmOf (state seq : Nat) (pre : List Byte) (entries : List (Nat × Nat × Nat × Nat × Nat)) : KgMap :=
  let m : KgMap := ⟨1, state, entries.length, 0, seq, Config.serial, pre, entries⟩
  { m with crc := crc32c (kgmBytes m 0) }

/-- Whether a copy is valid. -/
def kgmOk (m : KgMap) : Bool :=
  decide (m.ver = 1) && (decide (m.state = 1) || decide (m.state = 2)) && decide (m.count = m.entries.length) &&
    decide (m.crc = crc32c (kgmBytes m 0))

/-! ## The fuse bank (15_trust.md R341, R347) -/

/-- The identity fuses: serial, part code, stepping B0, 128 bits. 15_trust.md R341. -/
def idFuses (part : Nat) : List Byte := leBytes 8 Config.serial ++ leBytes 1 part ++ leBytes 1 0xB0 ++ zeros 6

/-- The fuse bank of a hub apart from the UDS: identity, digest of the firmware key, a fuse for each step of the minimum
security version, debug lock, repairs. The order is a DESIGN CHOICE (assumption 173). 15_trust.md R341, R347. -/
def fuseImage (part : Nat) (fwKey : List Byte) (svn : Nat) (lock : Bool) (repairs : List Byte) : List Byte :=
  idFuses part ++ takeBytes fwKey 0 32 ++ leBytes 8 (2 ^ min 64 svn - 1) ++ leBytes 1 (b2n lock) ++ repairs

/-- SHAKE256 over a fuse bank apart from the UDS. 15_trust.md R347. -/
def imageHash (image : List Byte) : List Byte := takeBytes (Config.shake256 image 64) 0 64

/-- First 16 bytes of the digest. 16_lifecycle.md R380. -/
def prefixOf (image : List Byte) : List Byte := (imageHash image).take 16

end Sys2Proof.Machine
end

