-- ==== Sys2Proof/Machine/Regs.lean ====
section
/-!
DEFINITION. The registers of the N4032, one constructor for each field of the register tables that is not reserved
(05_merge.md R119; 06_append.md R139; 07_dill.md R171; 08_memory.md R199; 09_chive.md R217; 10_fabric.md R247;
11_remote_access.md R267; 12_ledger.md R299; 13_traffic.md R315; 14_host.md R339, R340; 15_trust.md R367;
16_lifecycle.md R396; 17_health.md R419), with the place, access and reset value each table gives.
The configuration class of a field is PRESUMED where 16_lifecycle.md R368 does not name the field (assumption 12).
-/
namespace Sys2Proof.Machine

/-- The register blocks of BAR0. 14_host.md R338. -/
inductive Blk where
  | sorrel | tier | dill | mem | chive | fab | region | ledger | traffic | ident | port | fn | lov | life | health
  deriving DecidableEq, Repr

/-- The access codes of the register tables. 00_scope.md, table conventions. -/
inductive Acc where
  | ro | rw | w1c | w1s
  deriving DecidableEq, Repr

/-- What a field is one of several of: the table it is selected in by a selector field. -/
inductive SelKind where
  | none | quota | kernel | bank | profile | endpoint | egress | gate | fn | fw | cls | margin | die
  deriving DecidableEq, Repr

/-- What a register table says of a field. -/
structure RegInfo where
  blk    : Blk
  /-- offset of its 32-bit register in the block -/
  off    : Nat
  hi     : Nat
  lo     : Nat
  acc    : Acc
  reset  : Nat
  /-- distance of entries and number of entries, where the table has an index in its offset; 0 and 1 otherwise -/
  stride : Nat
  count  : Nat
  /-- class code of R368; 0 for a field of no class -/
  cls    : Nat
  /-- one value for the whole node (R448) -/
  wide   : Bool
  sel    : SelKind
  deriving DecidableEq, Repr

/-- The register fields. -/
inductive Reg where
  /-- 05_merge.md R119, 0x0000 [31:0], RW, reset 0x000F_4240: Node default merge deadline in ns of local time (1,000,000) -/
  | sorrel_default_deadline
  /-- 05_merge.md R119, 0x0004 [12:0], RO, reset 0x1000: Free merge contexts, 0 to 4,096 -/
  | sorrel_contexts_free
  /-- 05_merge.md R119, 0x0008 [31:0], RO, reset 0x0000_3000: Free accumulator pool in 4 KiB units -/
  | sorrel_pool_free
  /-- 05_merge.md R119, 0x0010 [31:0], W1C, reset 0: Records discarded after their merge closed. Bits clear on writing 1 -/
  | sorrel_LATE_DISCARDS
  /-- 05_merge.md R119, 0x0014 [31:0], W1C, reset 0: Contributions discarded at a tombstone -/
  | sorrel_TOMBSTONE_DISCARDS
  /-- 05_merge.md R119, 0x0018 [31:0], W1C, reset 0: Group results with no connection to the requester -/
  | sorrel_UNDELIVERED
  /-- 05_merge.md R119, 0x001C [31:0], W1C, reset 0: Contributions refused under R114 -/
  | sorrel_REFUSED
  /-- 05_merge.md R119, 0x0020 [31:0], W1C, reset 0: Responses sent with status PARTIAL -/
  | sorrel_PARTIALS
  /-- 06_append.md R139, 0x0000 [31:0], RW, reset 0x0098_9680: Idle time before write-back, ns of local time (10,000,000) -/
  | tier_wb_idle
  /-- 06_append.md R139, 0x0004 [31:0], RW, reset 0x3B9A_CA00: Idle time before eviction, ns of local time (1,000,000,000) -/
  | tier_evict_idle
  /-- 06_append.md R139, 0x0008 [0], RW, reset 1: Enables R133 -/
  | tier_prefetch_en
  /-- 06_append.md R139, 0x0008 [1], RW, reset 1: Enables sketch prefetch -/
  | tier_prefetch_sketch
  /-- 06_append.md R139, 0x0008 [2], RW, reset 1: Enables promotion -/
  | tier_promote_en
  /-- 06_append.md R139, 0x000C [7:0], RW, reset 0x20: Opens within 1 ms that promote a page -/
  | tier_promote_threshold
  /-- 06_append.md R139, 0x000C [15:8], RW, reset 0x10: Promotion pool limit per slice, MiB, at most 48 -/
  | tier_promote_pool_mib
  /-- 06_append.md R139, 0x0010 [11:0], RW, reset 0x000: Quota table entry selected -/
  | tier_quota_index
  /-- 06_append.md R139, 0x0014 [15:0], RW, reset 0x0000: Tenant of the entry; ignored for entry 0 -/
  | tier_quota_tenant
  /-- 06_append.md R139, 0x0018 [31:0], RW, reset 0: SRAM quota, 4 KiB units; 0 not enforced (R138) -/
  | tier_sram_limit
  /-- 06_append.md R139, 0x001C [31:0], RO, reset 0: SRAM in use, 4 KiB units -/
  | tier_sram_used
  /-- 06_append.md R139, 0x0020 [31:0], RW, reset 0: Page-slot quota, 4 KiB units; 0 not enforced (R138) -/
  | tier_slot_limit
  /-- 06_append.md R139, 0x0024 [31:0], RO, reset 0: Page slots in use, including reservations -/
  | tier_slot_used
  /-- 06_append.md R139, 0x0028 [15:0], RW, reset 0: Merge-buffer quota; 0 not enforced (R138) -/
  | tier_merge_limit
  /-- 06_append.md R139, 0x0028 [31:16], RO, reset 0: Merge buffers in use -/
  | tier_merge_used
  /-- 06_append.md R139, 0x0030 [31:0], W1C, reset 0: Duplicate requests under R124 -/
  | tier_DUP_APPENDS
  /-- 06_append.md R139, 0x0034 [31:0], W1C, reset 0: Seals that waited for a slot -/
  | tier_SEAL_WAITS
  /-- 06_append.md R139, 0x0038 [31:0], W1C, reset 0: Tails evicted -/
  | tier_TAIL_EVICTIONS
  /-- 06_append.md R139, 0x003C [31:0], W1C, reset 0: Prefetched sketches discarded -/
  | tier_PREFETCH_STALE
  /-- 07_dill.md R171, 0x0000 [0], RW, reset 1: Lane engine takes commands. 0 stops it at the next yield -/
  | dill_lane_en
  /-- 07_dill.md R171, 0x0000 [1], RW, reset 1: Pool engine takes commands. 0 stops it at the next chunk boundary -/
  | dill_pool_en
  /-- 07_dill.md R171, 0x0000 [2], RW, reset 0: Permits kernel-table entries naming programs 16–63 -/
  | dill_operator_programs
  /-- 07_dill.md R171, 0x0004 [6:0], RO, reset 0x00: Programs installed, 0 to 64; reads 6 once the firmware has installed its programs (R149) -/
  | dill_programs_valid
  /-- 07_dill.md R171, 0x0004 [10:8], RO, reset 0: Resident commands, 0 to 4 -/
  | dill_contexts_resident
  /-- 07_dill.md R171, 0x0008 [15:0], RO, reset 0x0FA0: Segment limit of R158 (4,000) -/
  | dill_segment_limit_ns
  /-- 07_dill.md R171, 0x000C [31:0], RW, reset 0: Longest segment measured in this slice. Writing 0 restarts it -/
  | dill_longest_segment_ns
  /-- 07_dill.md R171, 0x0010 [3:0], RW, reset 0x0: Kernel-table entry selected -/
  | dill_kt_index
  /-- 07_dill.md R171, 0x0014 [15:0], RW, reset 0x0000: Tenant matched -/
  | dill_kt_tenant
  /-- 07_dill.md R171, 0x0014 [16], RW, reset 0: 1 matches every tenant -/
  | dill_kt_any
  /-- 07_dill.md R171, 0x0014 [17], RW, reset 0: Entry in use; reads 1 for entries 12–15 -/
  | dill_kt_valid
  /-- 07_dill.md R171, 0x0018 [7:0], RW, reset 0x00: Key format code (R26) -/
  | dill_kt_key_format
  /-- 07_dill.md R171, 0x0018 [15:8], RW, reset 0x00: Value format code (R26) -/
  | dill_kt_value_format
  /-- 07_dill.md R171, 0x0018 [17:16], RW, reset 0: Skip mode (R70) -/
  | dill_kt_skip_mode
  /-- 07_dill.md R171, 0x0018 [23:18], RW, reset 0: Program number -/
  | dill_kt_program
  /-- 07_dill.md R171, 0x0020 [31:0], W1C, reset 0: Lane segments run -/
  | dill_SEGMENTS
  /-- 07_dill.md R171, 0x0024 [31:0], W1C, reset 0: Yields that switched command -/
  | dill_SWITCHES
  /-- 07_dill.md R171, 0x0028 [31:0], W1C, reset 0: Commands ended in FAULT, ABORTED excluded -/
  | dill_FAULTS
  /-- 07_dill.md R171, 0x002C [31:0], W1C, reset 0: Refreshes postponed under R161 -/
  | dill_REFRESH_POSTPONED
  /-- 07_dill.md R171, 0x0030 [3:0], W1C, reset 0: Most refreshes postponed in any bank, 0 to 8 -/
  | dill_POSTPONE_MAX
  /-- 07_dill.md R171, 0x0034 [31:0], W1C, reset 0: Backstop stops under R162 -/
  | dill_REFRESH_FORCED
  /-- 07_dill.md R171, 0x0038 [31:0], W1C, reset 0: Snapshots completed -/
  | dill_SNAPSHOTS
  /-- 07_dill.md R171, 0x003C [31:0], RW, reset 0: Longest fence wait measured. Writing 0 restarts it -/
  | dill_snapshot_wait_max_ns
  /-- 07_dill.md R171, 0x0100 + 8p [15:0], RO, reset 0: Program p: first word -/
  | dill_start_word
  /-- 07_dill.md R171, 0x0100 + 8p [31:16], RO, reset 0: Program p: length -/
  | dill_length_words
  /-- 07_dill.md R171, 0x0104 + 8p [15:0], RO, reset 0: Program p: segment bound of R158 -/
  | dill_bound_ns
  /-- 07_dill.md R171, 0x0104 + 8p [16], RO, reset 0: Program p was loaded by the operator -/
  | dill_operator
  /-- 07_dill.md R171, 0x0104 + 8p [17], RO, reset 0: Program p is installed -/
  | dill_valid
  /-- 08_memory.md R199, 0x0000 [0], RO, reset 0: Slice only. 1 while running Full -/
  | mem_profile_full
  /-- 08_memory.md R199, 0x0000 [1], RO, reset 0: Slice only. 1 on an -F part -/
  | mem_full_permitted
  /-- 08_memory.md R199, 0x0000 [2], RO, reset 0: Slice only. Profile set for the next start: 0 Economy, 1 Full -/
  | mem_profile_pending
  /-- 08_memory.md R199, 0x0000 [3], RW, reset 0: Permits hard row and column repair at shutdown (R183, R196) -/
  | mem_field_repair_en
  /-- 08_memory.md R199, 0x0004 [7:0], RO, reset 0x00: Slice only. Stack temperature, °C, two's complement -/
  | mem_stack_temp
  /-- 08_memory.md R199, 0x0004 [9:8], RO, reset 0: Slice only. 0 1×, 1 2×, 2 4×; 3 reserved -/
  | mem_refresh_rate
  /-- 08_memory.md R199, 0x0004 [17:10], RO, reset 0x00: Hottest die sensor, °C, two's complement -/
  | mem_die_temp
  /-- 08_memory.md R199, 0x0008 [7:0], RW, reset 0x55: Slice only. 2× threshold, °C (85) -/
  | mem_temp_2x
  /-- 08_memory.md R199, 0x0008 [15:8], RW, reset 0x5F: Slice only. 4× threshold, °C (95) -/
  | mem_temp_4x
  /-- 08_memory.md R199, 0x0008 [23:16], RW, reset 0x69: Slice only. Critical threshold, °C (105) -/
  | mem_temp_crit
  /-- 08_memory.md R199, 0x0008 [27:24], RW, reset 0x3: Slice only. Rate-fall hysteresis, °C -/
  | mem_hysteresis
  /-- 08_memory.md R199, 0x000C [31:0], RW, reset 0x0000_2710: Slice only. Bank idle time, ns of local time (10,000) -/
  | mem_sr_idle
  /-- 08_memory.md R199, 0x0010 [31:0], RW, reset 0x0001_5180: Patrol round, seconds (86,400) -/
  | mem_patrol_period
  /-- 08_memory.md R199, 0x0014 [3:0], RO, reset 0x0: Slice only. Current level, 0 to 8 -/
  | mem_throttle_level
  /-- 08_memory.md R199, 0x0014 [7:4], RW, reset 0x4: Level while THROTTLE# is asserted -/
  | mem_pin_level
  /-- 08_memory.md R199, 0x0014 [11:8], RW, reset 0x0: Operator minimum level -/
  | mem_min_level
  /-- 08_memory.md R199, 0x0014 [19:12], RW, reset 0x64: Junction throttle threshold, °C (100) -/
  | mem_throttle_temp
  /-- 08_memory.md R199, 0x0018 [15:0], RW, reset 0x0708: Node input power limit, W (1,800) -/
  | mem_power_limit
  /-- 08_memory.md R199, 0x0018 [31:16], RO, reset 0x0000: Input power over the last 100 µs, W -/
  | mem_power_avg
  /-- 08_memory.md R199, 0x001C [31:0], RW, reset 0x0001_86A0: Bank idle time before RETAIN, ns of local time (100,000) -/
  | mem_retain_idle
  /-- 08_memory.md R199, 0x0020 [9:0], RW, reset 0x000: Bank selected: 0–255 in a slice, 0–511 in a hub -/
  | mem_bank_sel
  /-- 08_memory.md R199, 0x0024 [1:0], RO, reset 0: 0 OFF, 1 RETAIN, 2 ON, 3 in transition -/
  | mem_bank_state
  /-- 08_memory.md R199, 0x0024 [3:2], RW, reset 0: 0 automatic, 1 force ON, 2 force RETAIN, 3 force OFF -/
  | mem_bank_request
  /-- 08_memory.md R199, 0x0024 [4], W1C, reset 0: A forced OFF was refused (R193) -/
  | mem_bank_request_refused
  /-- 08_memory.md R199, 0x0024 [5], RO, reset 0: Bank retired (R196) -/
  | mem_bank_retired
  /-- 08_memory.md R199, 0x0024 [15:8], RO, reset 0x00: Spare columns fused, bit per spare -/
  | mem_spares_fused
  /-- 08_memory.md R199, 0x0024 [23:16], RO, reset 0x00: Spare columns soft-repaired, bit per spare -/
  | mem_spares_soft
  /-- 08_memory.md R199, 0x0030 [31:0], W1C, reset 0: Corrected words -/
  | mem_CORRECTED
  /-- 08_memory.md R199, 0x0034 [31:0], W1C, reset 0: Uncorrectable words -/
  | mem_UNCORRECTABLE
  /-- 08_memory.md R199, 0x0038 [31:0], W1C, reset 0: Word-busy indications (R195) -/
  | mem_SAME_WORD_BUSY
  /-- 08_memory.md R199, 0x003C [31:0], W1C, reset 0: Corrected words rewritten by the patrol -/
  | mem_PATROL_REWRITES
  /-- 08_memory.md R199, 0x0040 [31:0], W1C, reset 0: Throttle level changes -/
  | mem_THROTTLE_CHANGES
  /-- 08_memory.md R199, 0x0044 [31:0], W1C, reset 0: Error records dropped -/
  | mem_LOG_OVERFLOW
  /-- 08_memory.md R199, 0x0050 [5:0], RO, reset 0x00: Records in the error log, 0 to 32 -/
  | mem_err_count
  /-- 08_memory.md R199, 0x0054 [0], W1S, reset 0: Discards the oldest record -/
  | mem_err_pop
  /-- 09_chive.md R217, 0x0000 [0], RW, reset 1: Enables the scrubber (R212) -/
  | chive_scrub_en
  /-- 09_chive.md R217, 0x0000 [7:4], RW, reset 0x6: Scrubber receives at least 1 slot in 2^scrub_share -/
  | chive_scrub_share
  /-- 09_chive.md R217, 0x0004 [15:0], RO, reset 0x0000: Blocks marked rebuilding (R213) -/
  | chive_rebuilding_blocks
  /-- 09_chive.md R217, 0x0010 + 8(c−1) [15:0], RO, reset By R203: Class c: first block -/
  | chive_part_base
  /-- 09_chive.md R217, 0x0010 + 8(c−1) [31:16], RO, reset By R203: Class c: blocks -/
  | chive_part_blocks
  /-- 09_chive.md R217, 0x0014 + 8(c−1) [19:0], RO, reset 0x0_0000: Class c: valid rows in the CAM -/
  | chive_rows_used
  /-- 09_chive.md R217, 0x0014 + 8(c−1) [20], RO, reset 0: Class c: flag of R209 -/
  | chive_overflowed
  /-- 09_chive.md R217, 0x0040 + 8(c−1) [31:0], RO, reset 0: Class c: rows in the overflow table -/
  | chive_ot_used
  /-- 09_chive.md R217, 0x0044 + 8(c−1) [15:0], RO, reset 0x0040 for c = 1 and c = 5, 0x0010 otherwise: Class c: overflow table size, MiB -/
  | chive_ot_mib
  /-- 09_chive.md R217, 0x0080 [31:0], W1C, reset 0: Searches -/
  | chive_SEARCHES
  /-- 09_chive.md R217, 0x0084 [31:0], W1C, reset 0: Confirmed hits -/
  | chive_HITS
  /-- 09_chive.md R217, 0x0088 [31:0], W1C, reset 0: Overflow table probes -/
  | chive_OVERFLOW_PROBES
  /-- 09_chive.md R217, 0x008C [31:0], W1C, reset 0: Hits that failed confirmation with an agreeing shadow -/
  | chive_CONFIRM_FAILS
  /-- 09_chive.md R217, 0x0090 [31:0], W1C, reset 0: CAM rows rewritten from the shadow under R205 -/
  | chive_SHADOW_CORRECTIONS
  /-- 09_chive.md R217, 0x0094 [31:0], W1C, reset 0: CAM rows rewritten by the scrubber -/
  | chive_SCRUB_MISMATCH
  /-- 09_chive.md R217, 0x0098 [31:0], W1C, reset 0: Inserts, deletes and replacements -/
  | chive_UPDATES
  /-- 09_chive.md R217, 0x009C [31:0], W1C, reset 0: Rows moved by inserts -/
  | chive_MOVES
  /-- 09_chive.md R217, 0x00A0 [31:0], W1C, reset 0: Inserts sent to an overflow table -/
  | chive_OVERFLOW_INSERTS
  /-- 09_chive.md R217, 0x00A4 [31:0], W1C, reset 0: Inserts refused with BUSY under R209 -/
  | chive_INSERT_REFUSED
  /-- 09_chive.md R217, 0x00A8 [31:0], W1C, reset 0: Blocks rebuilt under R213 -/
  | chive_REBUILDS
  /-- 10_fabric.md R247, 0x0000 [1:0], RO, reset 0: 0 1×1.6T, 1 2×800G, 2 4×400G; 3 reserved. Set by the image -/
  | fab_port_mode
  /-- 10_fabric.md R247, 0x0000 [2], RO, reset 0: 1 cell mode, 0 routed mode -/
  | fab_cell_mode
  /-- 10_fabric.md R247, 0x0000 [3], RO, reset 0: Routed mode over IPv4 -/
  | fab_ipv4
  /-- 10_fabric.md R247, 0x0000 [4], RO, reset 0: Tag transmitted frames -/
  | fab_vlan_en
  /-- 10_fabric.md R247, 0x0000 [5], RO, reset 0: Accept version 0 (R235) -/
  | fab_forerunner_compat
  /-- 10_fabric.md R247, 0x0000 [11:8], RO, reset 0x0: Bit per sub-port -/
  | fab_link_up
  /-- 10_fabric.md R247, 0x0004 [23:0], RO, reset 0x00_0000: This port's endpoint (R221) -/
  | fab_endpoint_id
  /-- 10_fabric.md R247, 0x0008 [15:0], RO, reset 0x88B5: Cell-mode EtherType -/
  | fab_ethertype
  /-- 10_fabric.md R247, 0x0008 [31:16], RO, reset 0xB8D4: Routed-mode destination port (47,316) -/
  | fab_udp_port
  /-- 10_fabric.md R247, 0x000C [3:0], RW, reset 0x7: Segment size offered in HELLO, 0 to 7 (R233). A value of 8 to 15 is discarded. WIRE class, critical: changed only by a delta, never by a register write (R373) -/
  | fab_seg_code
  /-- 10_fabric.md R247, 0x000C [7:4], RW, reset 0xC: Timeouts before FAILED (12) -/
  | fab_retx_limit
  /-- 10_fabric.md R247, 0x000C [14:8], RW, reset 0x00: MACsec replay window, 0 to 64 -/
  | fab_replay_window
  /-- 10_fabric.md R247, 0x0010 [31:0], RW, reset 0x0000_4E20: ns of local time (20,000) -/
  | fab_rto_init
  /-- 10_fabric.md R247, 0x0014 [31:0], RW, reset 0x0000_1388: ns (5,000) -/
  | fab_rto_min
  /-- 10_fabric.md R247, 0x0018 [31:0], RW, reset 0x0098_9680: ns (10,000,000) -/
  | fab_rto_max
  /-- 10_fabric.md R247, 0x001C [31:0], RW, reset 0x0000_07D0: ns (2,000) -/
  | fab_ack_delay
  /-- 10_fabric.md R247, 0x0020 [15:0], RW, reset 0x0064: ms of local time (100) -/
  | fab_keepalive_ms
  /-- 10_fabric.md R247, 0x0020 [31:16], RW, reset 0x1388: ms (5,000) -/
  | fab_dead_time_ms
  /-- 10_fabric.md R247, 0x0024 [15:0], RW, reset 0x03E8: ms (1,000) -/
  | fab_quiet_time_ms
  /-- 10_fabric.md R247, 0x0028 [14:0], RO, reset 0x0000: Records on chip, 0 to 16,384 -/
  | fab_conn_onchip
  /-- 10_fabric.md R247, 0x002C [19:0], RO, reset 0x0_0000: Records in the arena, 0 to 524,288 -/
  | fab_conn_spilled
  /-- 10_fabric.md R247, 0x0040 [31:0], W1C, reset 0: Frames discarded by R225 -/
  | fab_MACSEC_DROPS
  /-- 10_fabric.md R247, 0x0044 [31:0], W1C, reset 0: Frames discarded at order 2 of R230 -/
  | fab_MISDIRECTED
  /-- 10_fabric.md R247, 0x0048 [31:0], W1C, reset 0: Messages whose config_tag differed -/
  | fab_TAG_MISMATCH
  /-- 10_fabric.md R247, 0x004C [31:0], W1C, reset 0: Messages refused with CONFIG_MISMATCH -/
  | fab_CONFIG_REFUSED
  /-- 10_fabric.md R247, 0x0050 [31:0], W1C, reset 0: R240 duplicates -/
  | fab_DUPLICATES
  /-- 10_fabric.md R247, 0x0054 [31:0], W1C, reset 0: R240 out-of-window segments -/
  | fab_OUT_OF_WINDOW
  /-- 10_fabric.md R247, 0x0058 [31:0], W1C, reset 0: Segments retransmitted -/
  | fab_RETRANSMITS
  /-- 10_fabric.md R247, 0x005C [31:0], W1C, reset 0: Connections that became FAILED -/
  | fab_CONN_FAILED
  /-- 10_fabric.md R247, 0x0060 [31:0], W1C, reset 0: HELLOs answered with a refusal -/
  | fab_HELLO_REFUSED
  /-- 10_fabric.md R247, 0x0064 [31:0], W1C, reset 0: Records spilled -/
  | fab_SPILLS
  /-- 10_fabric.md R247, 0x0068 [31:0], W1C, reset 0: Records returned on chip -/
  | fab_FILLS
  /-- 10_fabric.md R247, 0x006C [31:0], W1C, reset 0: Frames discarded at a full fill queue -/
  | fab_FILL_DROPS
  /-- 10_fabric.md R247, 0x0070 [31:0], W1C, reset 0: PAUSE and PFC frames discarded -/
  | fab_PAUSE_DROPS
  /-- 10_fabric.md R247, 0x0074 [31:0], W1C, reset 0: Frames arriving with CE -/
  | fab_CE_MARKS
  /-- 10_fabric.md R247, 0x0078 [31:0], W1C, reset 0: Frames on version-0 connections -/
  | fab_V0_FRAMES
  /-- 10_fabric.md R247, 0x0080 + 8u [31:0], W1C, reset 0: Sub-port u: codewords corrected -/
  | fab_FEC_CORRECTED
  /-- 10_fabric.md R247, 0x0084 + 8u [31:0], W1C, reset 0: Sub-port u: codewords not corrected -/
  | fab_FEC_UNCORRECTED
  /-- 11_remote_access.md R267, 0x0000 [20:0], RO, reset 0x00_0000: Node-wide ACTIVE and REVOKING entries -/
  | region_regions_active
  /-- 11_remote_access.md R267, 0x0004 [31:0], W1C, reset 0: REGISTER and REREGISTER answered OK -/
  | region_REGISTERS
  /-- 11_remote_access.md R267, 0x0008 [31:0], W1C, reset 0: Revocations completed, including R265 -/
  | region_REVOKES
  /-- 11_remote_access.md R267, 0x000C [31:0], W1C, reset 0: Accesses and control records answered KEY_STALE -/
  | region_KEY_STALE_SEEN
  /-- 11_remote_access.md R267, 0x0010 [31:0], W1C, reset 0: Accesses answered KEY_REVOKED -/
  | region_KEY_REVOKED_SEEN
  /-- 11_remote_access.md R267, 0x0014 [31:0], W1C, reset 0: Accesses and control records answered PD_MISMATCH -/
  | region_PD_REFUSED
  /-- 11_remote_access.md R267, 0x0018 [31:0], W1C, reset 0: READs answered OK -/
  | region_READS
  /-- 11_remote_access.md R267, 0x001C [31:0], W1C, reset 0: WRITEs answered OK -/
  | region_WRITES
  /-- 11_remote_access.md R267, 0x0020 [31:0], W1C, reset 0: Pages rewritten under R259 -/
  | region_PAGE_REWRITES
  /-- 11_remote_access.md R267, 0x0024 [31:0], RW, reset 0: Longest step 3 of R263 measured, ns of local time. Writing 0 restarts it -/
  | region_revoke_wait_max_ns
  /-- 12_ledger.md R299, 0x0000 [31:0], RO, reset 0: local_time[31:0]; a read latches local_time_hi -/
  | ledger_local_time_lo
  /-- 12_ledger.md R299, 0x0004 [31:0], RO, reset 0: local_time[63:32], as latched -/
  | ledger_local_time_hi
  /-- 12_ledger.md R299, 0x0008 [15:0], RO, reset 0x0000: Newest live epoch -/
  | ledger_epoch_newest
  /-- 12_ledger.md R299, 0x0008 [31:16], RO, reset 0x0000: Previous live epoch -/
  | ledger_epoch_previous
  /-- 12_ledger.md R299, 0x000C [15:0], RO, reset 0x0000: Epoch read but not yet adopted (R292); 0 for none -/
  | ledger_epoch_pending
  /-- 12_ledger.md R299, 0x0010 [15:0], RW, reset 0x2710: Lease of leased copies, µs (10,000). MAP class, critical: changed only by a delta (R373) -/
  | ledger_lease_us
  /-- 12_ledger.md R299, 0x0014 [31:0], RW, reset 0x000F_4240: Holder-copy wait, µs (1,000,000). MAP class, critical: changed only by a delta (R373) -/
  | ledger_holder_wait_us
  /-- 12_ledger.md R299, 0x0018 [31:0], RW, reset 0x0000_03E8: Adoption wait, µs (1,000). MAP class, critical: changed only by a delta (R373) -/
  | ledger_epoch_wait_us
  /-- 12_ledger.md R299, 0x001C [31:0], RW, reset 0x0001_86A0: Line pull timeout, µs (100,000). MAP class, critical: changed only by a delta (R373) -/
  | ledger_pull_timeout_us
  /-- 12_ledger.md R299, 0x0020 [20:0], RO, reset 0x00_0000: Directory entries in use -/
  | ledger_dir_entries
  /-- 12_ledger.md R299, 0x0024 [1:0], RO, reset 0: 0 IN_SERVICE, 1 QUARANTINED, 2 VERIFYING; 3 reserved -/
  | ledger_unit_state
  /-- 12_ledger.md R299, 0x0028 [31:0], RO, reset 0: This hub's unit generation -/
  | ledger_unit_generation
  /-- 12_ledger.md R299, 0x002C [31:0], RO, reset 0: Requests in flight under epoch_previous -/
  | ledger_inflight_previous
  /-- 12_ledger.md R299, 0x0030 [31:0], W1C, reset 0: Publishes completed -/
  | ledger_PUBLISHES
  /-- 12_ledger.md R299, 0x0034 [31:0], W1C, reset 0: Publishes answered CONFLICT -/
  | ledger_CONFLICTS
  /-- 12_ledger.md R299, 0x0038 [31:0], W1C, reset 0: RECALLs sent -/
  | ledger_RECALLS
  /-- 12_ledger.md R299, 0x003C [31:0], W1C, reset 0: Holders passed over or waited out under step 4 of R277 -/
  | ledger_RECALL_TIMEOUTS
  /-- 12_ledger.md R299, 0x0040 [31:0], W1C, reset 0: REDIRECTs sent -/
  | ledger_REDIRECTS
  /-- 12_ledger.md R299, 0x0044 [31:0], W1C, reset 0: REROUTEs sent -/
  | ledger_REROUTES
  /-- 12_ledger.md R299, 0x0048 [31:0], W1C, reset 0: Requests answered EPOCH_OLD -/
  | ledger_EPOCH_OLD_SEEN
  /-- 12_ledger.md R299, 0x004C [31:0], W1C, reset 0: Requests answered STALE_UNIT -/
  | ledger_STALE_UNIT_SEEN
  /-- 12_ledger.md R299, 0x0050 [31:0], W1C, reset 0: Transfers committed at this home -/
  | ledger_TRANSFERS_DONE
  /-- 12_ledger.md R299, 0x0054 [31:0], W1C, reset 0: Transfers aborted under R288 -/
  | ledger_TRANSFERS_ABORTED
  /-- 12_ledger.md R299, 0x0058 [31:0], W1C, reset 0: Requests completed REVOKED under R283 -/
  | ledger_EXTENT_REVOKED
  /-- 12_ledger.md R299, 0x005C [31:0], W1C, reset 0: Lines created anew under R293 -/
  | ledger_LINES_LOST
  /-- 13_traffic.md R315, 0x0000 [2:0], RW, reset 0x6: Hub level at which yellow is refused (R304) -/
  | traffic_yellow_busy_level
  /-- 13_traffic.md R315, 0x0000 [7:4], RW, reset 0xF: Class for yellow responses -/
  | traffic_demote_class
  /-- 13_traffic.md R315, 0x0000 [11:8], RW, reset 0x1: Class of node-originated messages -/
  | traffic_device_class
  /-- 13_traffic.md R315, 0x0004 [15:0], RW, reset 0x0100: Largest grant, segments (256) -/
  | traffic_credit_max
  /-- 13_traffic.md R315, 0x0004 [31:16], RW, reset 0x0004: Grant under red or exhaustion (4) -/
  | traffic_credit_min
  /-- 13_traffic.md R315, 0x0010 [5:0], RW, reset 0x00: Profile selected -/
  | traffic_prof_index
  /-- 13_traffic.md R315, 0x0014 [31:0], RW, reset 0: Committed rate, Mb/s -/
  | traffic_cir_mbps
  /-- 13_traffic.md R315, 0x0018 [31:0], RW, reset 0: Committed burst, bytes -/
  | traffic_cbs
  /-- 13_traffic.md R315, 0x001C [31:0], RW, reset 0: Peak rate, Mb/s; at least cir_mbps -/
  | traffic_pir_mbps
  /-- 13_traffic.md R315, 0x0020 [31:0], RW, reset 0: Peak burst, bytes; at least cbs -/
  | traffic_pbs
  /-- 13_traffic.md R315, 0x0024 [3:0], RW, reset 0x4: Lowest class the profile may use -/
  | traffic_min_class
  /-- 13_traffic.md R315, 0x0024 [4], RW, reset 0: 0 colours all green -/
  | traffic_prof_enable
  /-- 13_traffic.md R315, 0x0030 [15:0], RW, reset 0x0000: Endpoint entry selected -/
  | traffic_pol_endpoint
  /-- 13_traffic.md R315, 0x0034 [5:0], RW, reset 0x00: Profile of the selected endpoint -/
  | traffic_pol_profile
  /-- 13_traffic.md R315, 0x0040 [1:0], RW, reset 0: Sub-port selected -/
  | traffic_eg_subport
  /-- 13_traffic.md R315, 0x0040 [7:4], RW, reset 0x0: Class selected -/
  | traffic_eg_class
  /-- 13_traffic.md R315, 0x0044 [31:0], RW, reset 0x0018_6A00: Shaper rate, Mb/s (1,600,000) -/
  | traffic_shape_mbps
  /-- 13_traffic.md R315, 0x0048 [31:0], RW, reset 0x0001_0000: Shaper burst, bytes (65,536) -/
  | traffic_shape_burst
  /-- 13_traffic.md R315, 0x004C [17:0], RW, reset 0x0_2400: Weighted classes: DRR quantum, bytes (9,216) -/
  | traffic_quantum
  /-- 13_traffic.md R315, 0x0060 [1:0], RW, reset 0: Sub-port whose gate list is addressed -/
  | traffic_gl_subport
  /-- 13_traffic.md R315, 0x0064 [6:0], RW, reset 0x00: Pending entries, 1 to 64 -/
  | traffic_gl_count
  /-- 13_traffic.md R315, 0x0064 [13:8], RO, reset 0x00: Running entry -/
  | traffic_gl_active_index
  /-- 13_traffic.md R315, 0x0064 [14], RO, reset 0: A list is running -/
  | traffic_gl_running
  /-- 13_traffic.md R315, 0x0068 [31:0], RW, reset 0: Base time [31:0], local time -/
  | traffic_gl_base_lo
  /-- 13_traffic.md R315, 0x006C [31:0], RW, reset 0: Base time [63:32] -/
  | traffic_gl_base_hi
  /-- 13_traffic.md R315, 0x0070 [0], W1S, reset 0: Commits the pending list (R311) -/
  | traffic_gl_commit
  /-- 13_traffic.md R315, 0x0070 [1], RO, reset 0: A committed list awaits its base time -/
  | traffic_gl_pending
  /-- 13_traffic.md R315, 0x0070 [2], W1C, reset 0: A list or commit was refused -/
  | traffic_gl_refused
  /-- 13_traffic.md R315, 0x0080 [31:0], W1C, reset 0: Messages coloured green -/
  | traffic_GREEN
  /-- 13_traffic.md R315, 0x0084 [31:0], W1C, reset 0: Messages coloured yellow -/
  | traffic_YELLOW
  /-- 13_traffic.md R315, 0x0088 [31:0], W1C, reset 0: Messages refused as red -/
  | traffic_RED
  /-- 13_traffic.md R315, 0x008C [31:0], W1C, reset 0: Yellow messages refused (R304) -/
  | traffic_YELLOW_BUSY
  /-- 13_traffic.md R315, 0x0090 [31:0], W1C, reset 0: Messages refused at a full request queue -/
  | traffic_QUEUE_FULL
  /-- 13_traffic.md R315, 0x0094 [31:0], W1C, reset 0: Requests raised to min_class -/
  | traffic_REMARKED
  /-- 13_traffic.md R315, 0x0098 [31:0], W1C, reset 0: Gate lists taken over at their base time -/
  | traffic_GATE_SWITCHES
  /-- 13_traffic.md R315, 0x0100 + 8i [15:0], RW, reset 0xFFFF: Pending entry i: open classes -/
  | traffic_gate_mask
  /-- 13_traffic.md R315, 0x0104 + 8i [31:0], RW, reset 0: Pending entry i: duration, ns of local time -/
  | traffic_duration_ns
  /-- 14_host.md R339, 0x0_0000 [7:0], RO, reset By part: 0x01 N4032-2T-F, 0x02 N4032-2T-E, 0x03 N4032-1T-E -/
  | ident_part_code
  /-- 14_host.md R339, 0x0_0000 [15:8], RO, reset 0xB0: Major letter in [15:12], number in [11:8]; B0 -/
  | ident_stepping
  /-- 14_host.md R339, 0x0_0000 [31:16], RO, reset 0x4032: PF device ID -/
  | ident_device_id
  /-- 14_host.md R339, 0x0_0004 [31:0], RO, reset Fused: Unit serial [31:0] -/
  | ident_serial_lo
  /-- 14_host.md R339, 0x0_0008 [31:0], RO, reset Fused: Unit serial [63:32] -/
  | ident_serial_hi
  /-- 14_host.md R339, 0x0_1000 [2:0], RO, reset 0: 5, 6 or 7 for Gen5 to Gen7; 0 when down -/
  | port_link_speed
  /-- 14_host.md R339, 0x0_1000 [7:3], RO, reset 0: 4, 8 or 16 -/
  | port_link_width
  /-- 14_host.md R339, 0x0_1000 [8], RO, reset 0: This port is primary (R321) -/
  | port_port_primary
  /-- 14_host.md R339, 0x0_1004 [0], RW, reset 0: Preferred primary: 0 port A, 1 port B -/
  | port_primary_pref
  /-- 14_host.md R339, 0x0_1004 [3:1], RW, reset 0x7: Highest generation trained, 5 to 7 -/
  | port_max_speed
  /-- 14_host.md R339, 0x0_1008 [5:0], RW, reset 0x00: Function selected -/
  | port_fn_sel
  /-- 14_host.md R339, 0x0_100C [15:0], RW, reset 0x0000: Bound tenant; 0 unbound; ignored for the PF -/
  | port_fn_tenant
  /-- 14_host.md R339, 0x0_100C [31:16], RW, reset 0x0000: Protection domain -/
  | port_fn_pd
  /-- 14_host.md R339, 0x0_1010 [5:0], RW, reset 0x00: Policer profile (R302) -/
  | port_fn_profile
  /-- 14_host.md R339, 0x0_1010 [6], RW, reset 0: R318 -/
  | port_fn_ide_required
  /-- 14_host.md R339, 0x0_1010 [19:8], RW, reset 0x020: MSI-X vectors of the function; the sum is at most 2,048 -/
  | port_fn_msix_count
  /-- 14_host.md R339, 0x0_1014 [23:0], RW, reset 0x00_0000: Endpoint of the function (R319); 0 for none -/
  | port_fn_endpoint
  /-- 14_host.md R339, 0x0_1020 [31:0], W1C, reset 0: Commands accepted on this port -/
  | port_COMMANDS
  /-- 14_host.md R339, 0x0_1024 [31:0], W1C, reset 0: Writes discarded under R321 -/
  | port_NODE_WRITES_REFUSED
  /-- 14_host.md R339, 0x0_1028 [31:0], W1C, reset 0: Link retrainings and speed or width changes -/
  | port_LINK_RETRAINS
  /-- 14_host.md R340, 0x0000 [5:0], RO, reset By function: 0 PF, v for VFv -/
  | fn_fn_number
  /-- 14_host.md R340, 0x0000 [6], RO, reset 0: Function's port is primary -/
  | fn_primary
  /-- 14_host.md R340, 0x0000 [31:16], RO, reset 0x0000: Bound tenant -/
  | fn_tenant
  /-- 14_host.md R340, 0x0004 [15:0], RO, reset 0x0000: Bound domain -/
  | fn_protection_domain
  /-- 14_host.md R340, 0x0010 + 16r [31:0], RW, reset 0: Ring address [31:0]; bits [11:0] written as zero -/
  | fn_ring_base_lo
  /-- 14_host.md R340, 0x0014 + 16r [31:0], RW, reset 0: Ring address [63:32] -/
  | fn_ring_base_hi
  /-- 14_host.md R340, 0x0018 + 16r [4:0], RW, reset 0x06: n of R329, 6 to 16 -/
  | fn_ring_log2
  /-- 14_host.md R340, 0x0018 + 16r [5], RW, reset 0: Enabling restarts the ring at entry 0, phase 1 -/
  | fn_ring_enable
  /-- 14_host.md R340, 0x0018 + 16r [26:16], RW, reset 0x000: MSI-X table entry of the function -/
  | fn_ring_vector
  /-- 14_host.md R340, 0x001C + 16r [31:0], RW, reset 0: R331, ns of local time -/
  | fn_coalesce_ns
  /-- 14_host.md R340, 0x0200 + 16w [31:0], RW, reset 0: Region key of window w -/
  | fn_win_key
  /-- 14_host.md R340, 0x0204 + 16w [0], RW, reset 0: Window in use -/
  | fn_win_enable
  /-- 14_host.md R340, 0x0204 + 16w [15:8], RO, reset 0x00: Status of the last refused access; 0x00 when none -/
  | fn_win_status
  /-- 14_host.md R340, 0x0208 + 16w [31:0], RW, reset 0: Region offset [31:0]; bits [11:0] written as zero -/
  | fn_win_offset_lo
  /-- 14_host.md R340, 0x020C + 16w [31:0], RW, reset 0: Region offset [63:32] -/
  | fn_win_offset_hi
  /-- 14_host.md R340, 0x0300 [31:0], W1C, reset 0: R326, R327 -/
  | fn_SLOT_BUSY_WRITES
  /-- 14_host.md R340, 0x0304 [31:0], W1C, reset 0: R326 -/
  | fn_DUP_FINALS
  /-- 14_host.md R340, 0x0308 [31:0], W1C, reset 0: R326 -/
  | fn_SEQ_REFUSED
  /-- 14_host.md R340, 0x030C [31:0], W1C, reset 0: R333 -/
  | fn_WINDOW_REFUSED
  /-- 14_host.md R340, 0x0310 [31:0], W1C, reset 0: R333 -/
  | fn_POISONED_READS
  /-- 14_host.md R340, 0x0400 + 4i [15:0], RO, reset 0x0001: e of slot i, i = 0 to 63 -/
  | fn_slot_expected
  /-- 14_host.md R340, 0x0400 + 4i [16], RO, reset 0: Slot i is busy -/
  | fn_slot_busy
  /-- 15_trust.md R367, 0x0000 [0], RO, reset 0: Measured boot complete (R344) -/
  | lov_lovage_ok
  /-- 15_trust.md R367, 0x0000 [1], RO, reset 0: This Lovage is primary -/
  | lov_is_primary
  /-- 15_trust.md R367, 0x0000 [2], RO, reset 0: R364 -/
  | lov_legacy_active
  /-- 15_trust.md R367, 0x0000 [3], RO, reset 1: Debug lock fuse -/
  | lov_debug_locked
  /-- 15_trust.md R367, 0x0000 [4], RO, reset 0: MGMT_LEGACY as sampled at power-up -/
  | lov_strap_legacy
  /-- 15_trust.md R367, 0x0000 [7:5], RO, reset 0: Hub of the current primary; valid when primary_known is 1 -/
  | lov_primary_hub
  /-- 15_trust.md R367, 0x0000 [8], RO, reset 0: A primary exists in this Lovage's term -/
  | lov_primary_known
  /-- 15_trust.md R367, 0x0000 [11:9], RO, reset 0: Operator sessions, 0 to 4 -/
  | lov_sessions_open
  /-- 15_trust.md R367, 0x0004 [31:0], RO, reset 0: Election term -/
  | lov_term
  /-- 15_trust.md R367, 0x0008 [31:0], RO, reset 0: Security version [31:0] -/
  | lov_svn_lo
  /-- 15_trust.md R367, 0x000C [31:0], RO, reset 0: Security version [63:32] -/
  | lov_svn_hi
  /-- 15_trust.md R367, 0x0010 [31:0], RW, reset 0x0000_0E10: R359, s of local time (3,600) -/
  | lov_rekey_interval_s
  /-- 15_trust.md R367, 0x0020 [31:0], W1C, reset 0: Terms in which this Lovage stood -/
  | lov_ELECTIONS
  /-- 15_trust.md R367, 0x0024 [31:0], W1C, reset 0: Reports signed -/
  | lov_ATTESTS
  /-- 15_trust.md R367, 0x0028 [31:0], W1C, reset 0: SESSION_AUTH failures and sessions ended by R351 -/
  | lov_SESSION_FAILS
  /-- 15_trust.md R367, 0x002C [31:0], W1C, reset 0: Link exchanges installed, all sub-ports -/
  | lov_KX_DONE
  /-- 15_trust.md R367, 0x0030 [31:0], W1C, reset 0: R358 -/
  | lov_KX_FAILURES
  /-- 15_trust.md R367, 0x0034 [31:0], W1C, reset 0: HELLO credentials refused (R354, R355) -/
  | lov_CRED_FAILS
  /-- 15_trust.md R367, 0x0038 [31:0], W1C, reset 0: R365 -/
  | lov_LEGACY_AUTH_FAILS
  /-- 15_trust.md R367, 0x0040 [31:0], RO, reset 0: First 16 bytes of SHAKE256 of the alias public key, bytes 0–3 -/
  | lov_alias_digest0
  /-- 15_trust.md R367, 0x0044 [31:0], RO, reset 0: Bytes 4–7 -/
  | lov_alias_digest1
  /-- 15_trust.md R367, 0x0048 [31:0], RO, reset 0: Bytes 8–11 -/
  | lov_alias_digest2
  /-- 15_trust.md R367, 0x004C [31:0], RO, reset 0: Bytes 12–15 -/
  | lov_alias_digest3
  /-- 16_lifecycle.md R396, 0x0000 [2:0], RO, reset 0: 0 STARTING, 1 RECOVERY, 2 IN_SERVICE, 3 DRAINING, 4 SHUTTING_DOWN, 5 SHUTDOWN_DONE -/
  | life_node_state
  /-- 16_lifecycle.md R396, 0x0000 [3], RO, reset 0: The last start skipped self-test (R381) -/
  | life_bist_skipped
  /-- 16_lifecycle.md R396, 0x0000 [5:4], RO, reset 0: 0 no alternate, 1 prepared, 2 switched (R375) -/
  | life_crit_phase
  /-- 16_lifecycle.md R396, 0x0000 [6], RO, reset 0: Active configuration slot: 0 A, 1 B -/
  | life_config_slot
  /-- 16_lifecycle.md R396, 0x0004 [31:0], RO, reset 0: config_seq[31:0] -/
  | life_config_seq_lo
  /-- 16_lifecycle.md R396, 0x0008 [31:0], RO, reset 0: config_seq[63:32] -/
  | life_config_seq_hi
  /-- 16_lifecycle.md R396, 0x000C [31:0], RO, reset 0: R369 -/
  | life_config_tag
  /-- 16_lifecycle.md R396, 0x0010 [31:0], RO, reset 0: R375; 0 when none -/
  | life_alt_tag
  /-- 16_lifecycle.md R396, 0x0014 [7:0], RW, reset 0x01: Class whose digest is shown -/
  | life_class_sel
  /-- 16_lifecycle.md R396, 0x0018 + 4k [31:0], RO, reset 0: Bytes 4k to 4k + 3 of D_c, k = 0 to 3 -/
  | life_class_digest
  /-- 16_lifecycle.md R396, 0x0030 [3:0], RW, reset 0x0: 1 RETRAIN, 2 RETIRE, 3 READMIT, 4 FAILOVER, 5 FAILBACK, 6 ISOLATE_TEST, 7 SHUTDOWN; others reserved -/
  | life_lc_op
  /-- 16_lifecycle.md R396, 0x0030 [9:4], RW, reset 0x00: Die, by R197 -/
  | life_lc_target
  /-- 16_lifecycle.md R396, 0x0030 [16], W1S, reset 0: Starts the operation (R386) -/
  | life_lc_go
  /-- 16_lifecycle.md R396, 0x0030 [17], RO, reset 0: An operation is running -/
  | life_lc_busy
  /-- 16_lifecycle.md R396, 0x0030 [31:24], RO, reset 0x00: R10 status of the last operation -/
  | life_lc_status
  /-- 16_lifecycle.md R396, 0x0034 [31:0], RO, reset 0: Extents switched, or steps completed -/
  | life_lc_progress
  /-- 16_lifecycle.md R396, 0x0040 + 4s [2:0], RO, reset 0: Slice s, by R392 -/
  | life_slice_state
  /-- 16_lifecycle.md R396, 0x0040 + 4s [12:8], RO, reset 0x00: Substitute of slice s -/
  | life_substitute
  /-- 16_lifecycle.md R396, 0x0040 + 4s [13], RO, reset 0: Slice s has a substitute -/
  | life_substituted
  /-- 16_lifecycle.md R396, 0x00C0 + 4h [2:0], RO, reset 0: Hub h, by R393 -/
  | life_hub_state
  /-- 16_lifecycle.md R396, 0x00C0 + 4h [10:8], RO, reset By h: Hub that serves quadrant h -/
  | life_serving_hub
  /-- 16_lifecycle.md R396, 0x00E0 [5:0], RW, reset 0x00: Die selected -/
  | life_fw_sel
  /-- 16_lifecycle.md R396, 0x00E4 [0], RO, reset 0: Selected die's running slot: 0 A, 1 B -/
  | life_fw_slot
  /-- 16_lifecycle.md R396, 0x00E4 [1], RO, reset 0: The inactive slot holds a committed bundle -/
  | life_fw_staged
  /-- 16_lifecycle.md R396, 0x00F0 [15:0], RW, reset 0x00A8: In-service test period, hours of local time (168) -/
  | life_bist_period_h
  /-- 16_lifecycle.md R396, 0x0100 [31:0], W1C, reset 0: Deltas committed -/
  | life_DELTAS_APPLIED
  /-- 16_lifecycle.md R396, 0x0104 [31:0], W1C, reset 0: Deltas refused by R373 -/
  | life_DELTAS_REFUSED
  /-- 16_lifecycle.md R396, 0x0108 [31:0], W1C, reset 0: R388 -/
  | life_FW_REVERTS
  /-- 16_lifecycle.md R396, 0x010C [31:0], W1C, reset 0: In-service bank tests completed -/
  | life_TESTS_RUN
  /-- 16_lifecycle.md R396, 0x0110 [31:0], W1C, reset 0: In-service tests that found a fault -/
  | life_TEST_FAILS
  /-- 16_lifecycle.md R396, 0x0114 [31:0], W1C, reset 0: R384 -/
  | life_TEST_POSTPONED
  /-- 16_lifecycle.md R396, 0x0118 [31:0], W1C, reset 0: R377 -/
  | life_CENSUS_OVERFLOW
  /-- 16_lifecycle.md R396, 0x0200 + 16i [31:0], RO, reset 0: Census entry i, i = 0 to 15 -/
  | life_census_tag
  /-- 16_lifecycle.md R396, 0x0204 + 16i [31:0], RO, reset 0: Frames seen with the tag -/
  | life_census_count
  /-- 16_lifecycle.md R396, 0x0208 + 16i [23:0], RO, reset 0x00_0000: Last endpoint seen with the tag -/
  | life_census_endpoint
  /-- 16_lifecycle.md R396, 0x020C + 16i [0], RW, reset 0: Entry in use; writing 0 clears it -/
  | life_census_valid
  /-- 17_health.md R419, 0x0000 [0], RW, reset 1: Enables R397 and R399 -/
  | health_margin_en
  /-- 17_health.md R419, 0x0000 [1], RW, reset 1: R398 -/
  | health_auto_retrain
  /-- 17_health.md R419, 0x0000 [2], RO, reset 0: Journal mounted and writable -/
  | health_journal_ok
  /-- 17_health.md R419, 0x0000 [3], RO, reset 0: R414 -/
  | health_journal_readonly
  /-- 17_health.md R419, 0x0000 [4], RO, reset 0: R410 -/
  | health_flash_unsupported
  /-- 17_health.md R419, 0x0000 [5], W1S, reset 0: Restarts speed_min, min_width and max_temp of die_sel -/
  | health_clear_min
  /-- 17_health.md R419, 0x0004 [15:0], RW, reset 0x003C: R397, s of local time (60) -/
  | health_margin_period_s
  /-- 17_health.md R419, 0x0004 [31:16], RW, reset 0x0E10: R405, R418 (3,600) -/
  | health_hist_flush_s
  /-- 17_health.md R419, 0x0008 [7:0], RW, reset 0x14: 1/64 UI (20) -/
  | health_hbm_width_min
  /-- 17_health.md R419, 0x0008 [15:8], RW, reset 0x0C: mV (12) -/
  | health_serdes_height_min
  /-- 17_health.md R419, 0x0008 [23:16], RW, reset 0x10: 1/256 (16) -/
  | health_slack_warn
  /-- 17_health.md R419, 0x0008 [31:24], RW, reset 0x32: mV (50) -/
  | health_droop_mv
  /-- 17_health.md R419, 0x000C [15:0], RW, reset 0x0064: R409 (100) -/
  | health_journal_flush_ms
  /-- 17_health.md R419, 0x000C [26:16], RW, reset 0x000: Primary PF MSI-X entry (R404) -/
  | health_health_vector
  /-- 17_health.md R419, 0x0010 [8:0], W1C, reset 0x000: R404 -/
  | health_events
  /-- 17_health.md R419, 0x0014 [8:0], RW, reset 0x1FF: 1 lets the bit raise the vector -/
  | health_event_mask
  /-- 17_health.md R419, 0x0020 [5:0], RW, reset 0x00: Die, by R197 -/
  | health_die_sel
  /-- 17_health.md R419, 0x0020 [14:8], RW, reset 0x00: R399 -/
  | health_margin_sel
  /-- 17_health.md R419, 0x0024 [7:0], RO, reset 0x00: Latest, 1/64 UI -/
  | health_eye_width
  /-- 17_health.md R419, 0x0024 [15:8], RO, reset 0x00: Latest, mV -/
  | health_eye_height_mv
  /-- 17_health.md R419, 0x0024 [23:16], RO, reset 0x00: Lowest since training or clear -/
  | health_min_width
  /-- 17_health.md R419, 0x0024 [27:24], RO, reset 0x0: Consecutive readings below limit -/
  | health_low_count
  /-- 17_health.md R419, 0x0200 + 4b [31:0], RO, reset 0: die_sel temperature, b = 0 to 31 -/
  | health_temp_bin
  /-- 17_health.md R419, 0x0280 + 4b [31:0], RO, reset 0: die_sel core voltage, b = 0 to 31 -/
  | health_volt_bin
  /-- 17_health.md R419, 0x0300 + 4b [31:0], RO, reset 0: Node input, b = 0 to 21 -/
  | health_input_bin
  /-- 17_health.md R419, 0x0400 [15:0], RO, reset 0x0000: R415 -/
  | health_spare_blocks
  /-- 17_health.md R419, 0x0400 [31:16], RO, reset 0x0000: R415 -/
  | health_retired_blocks
  /-- 17_health.md R419, 0x0404 [15:0], RO, reset 0x0000: R415 -/
  | health_erase_max
  /-- 17_health.md R419, 0x0404 [31:16], RO, reset 0x0000: R415 -/
  | health_erase_mean
  /-- 17_health.md R419, 0x0408 [31:0], RO, reset 0: Rated cycles -/
  | health_endurance
  /-- 17_health.md R419, 0x040C [7:0], RO, reset 0x00: R415 -/
  | health_wear_used_pct
  /-- 17_health.md R419, 0x040C [15:8], RO, reset 0x00: R415 -/
  | health_spare_left_pct
  /-- 17_health.md R419, 0x0410 [31:0], W1C, reset 0: R413 -/
  | health_PROGRAM_FAILS
  /-- 17_health.md R419, 0x0414 [31:0], W1C, reset 0: R413 -/
  | health_ERASE_FAILS
  /-- 17_health.md R419, 0x0418 [31:0], W1C, reset 0: R414 -/
  | health_READ_REFRESHES
  /-- 17_health.md R419, 0x041C [31:0], W1C, reset 0: R414 -/
  | health_READ_UNCORRECTABLE
  /-- 17_health.md R419, 0x0420 + 4b [31:0], RO, reset 0: R415, b = 0 to 7 -/
  | health_flash_temp_bin
  /-- 17_health.md R419, 0x0440 [31:0], RO, reset 0: Newest record_seq [31:0] -/
  | health_head_seq_lo
  /-- 17_health.md R419, 0x0444 [31:0], RO, reset 0: [63:32] -/
  | health_head_seq_hi
  /-- 17_health.md R419, 0x0448 [31:0], RO, reset 0: Oldest record_seq held [31:0] -/
  | health_oldest_seq_lo
  /-- 17_health.md R419, 0x044C [31:0], RO, reset 0: [63:32] -/
  | health_oldest_seq_hi
  /-- 17_health.md R419, 0x0450 [31:0], W1C, reset 0: R408 -/
  | health_JOURNAL_DROPS
  /-- 17_health.md R419, 0x0454 [31:0], RO, reset 0: Record bytes held by hubs, not yet programmed -/
  | health_held_bytes
  /-- 17_health.md R419, 0x0460 [31:0], RW, reset 0: Record to read [31:0] -/
  | health_jr_seq_lo
  /-- 17_health.md R419, 0x0464 [31:0], RW, reset 0: [63:32]; writing starts the load -/
  | health_jr_seq_hi
  /-- 17_health.md R419, 0x0468 [1:0], RO, reset 0: 0 loaded, 1 loading, 2 not held -/
  | health_jr_status
  /-- 17_health.md R419, 0x0500 [13:0], RW, reset 0x0000: Tenant whose record is latched -/
  | health_meter_tenant
  deriving DecidableEq, Repr

/-- Place, access, reset value and class of a field. -/
def Reg.info : Reg → RegInfo
  | .sorrel_default_deadline => ⟨.sorrel, 0x0, 31, 0, .rw, 0xf4240, 0, 1, 0x12, true, .none⟩
  | .sorrel_contexts_free => ⟨.sorrel, 0x4, 12, 0, .ro, 0x1000, 0, 1, 0x0, false, .none⟩
  | .sorrel_pool_free => ⟨.sorrel, 0x8, 31, 0, .ro, 0x3000, 0, 1, 0x0, false, .none⟩
  | .sorrel_LATE_DISCARDS => ⟨.sorrel, 0x10, 31, 0, .w1c, 0x0, 0, 1, 0x0, false, .none⟩
  | .sorrel_TOMBSTONE_DISCARDS => ⟨.sorrel, 0x14, 31, 0, .w1c, 0x0, 0, 1, 0x0, false, .none⟩
  | .sorrel_UNDELIVERED => ⟨.sorrel, 0x18, 31, 0, .w1c, 0x0, 0, 1, 0x0, false, .none⟩
  | .sorrel_REFUSED => ⟨.sorrel, 0x1c, 31, 0, .w1c, 0x0, 0, 1, 0x0, false, .none⟩
  | .sorrel_PARTIALS => ⟨.sorrel, 0x20, 31, 0, .w1c, 0x0, 0, 1, 0x0, false, .none⟩
  | .tier_wb_idle => ⟨.tier, 0x0, 31, 0, .rw, 0x989680, 0, 1, 0x12, true, .none⟩
  | .tier_evict_idle => ⟨.tier, 0x4, 31, 0, .rw, 0x3b9aca00, 0, 1, 0x12, true, .none⟩
  | .tier_prefetch_en => ⟨.tier, 0x8, 0, 0, .rw, 0x1, 0, 1, 0x12, true, .none⟩
  | .tier_prefetch_sketch => ⟨.tier, 0x8, 1, 1, .rw, 0x1, 0, 1, 0x12, true, .none⟩
  | .tier_promote_en => ⟨.tier, 0x8, 2, 2, .rw, 0x1, 0, 1, 0x12, true, .none⟩
  | .tier_promote_threshold => ⟨.tier, 0xc, 7, 0, .rw, 0x20, 0, 1, 0x12, true, .none⟩
  | .tier_promote_pool_mib => ⟨.tier, 0xc, 15, 8, .rw, 0x10, 0, 1, 0x12, true, .none⟩
  | .tier_quota_index => ⟨.tier, 0x10, 11, 0, .rw, 0x0, 0, 1, 0x0, false, .none⟩
  | .tier_quota_tenant => ⟨.tier, 0x14, 15, 0, .rw, 0x0, 0, 1, 0x12, true, .quota⟩
  | .tier_sram_limit => ⟨.tier, 0x18, 31, 0, .rw, 0x0, 0, 1, 0x12, true, .quota⟩
  | .tier_sram_used => ⟨.tier, 0x1c, 31, 0, .ro, 0x0, 0, 1, 0x0, false, .quota⟩
  | .tier_slot_limit => ⟨.tier, 0x20, 31, 0, .rw, 0x0, 0, 1, 0x12, true, .quota⟩
  | .tier_slot_used => ⟨.tier, 0x24, 31, 0, .ro, 0x0, 0, 1, 0x0, false, .quota⟩
  | .tier_merge_limit => ⟨.tier, 0x28, 15, 0, .rw, 0x0, 0, 1, 0x12, true, .quota⟩
  | .tier_merge_used => ⟨.tier, 0x28, 31, 16, .ro, 0x0, 0, 1, 0x0, false, .quota⟩
  | .tier_DUP_APPENDS => ⟨.tier, 0x30, 31, 0, .w1c, 0x0, 0, 1, 0x0, false, .none⟩
  | .tier_SEAL_WAITS => ⟨.tier, 0x34, 31, 0, .w1c, 0x0, 0, 1, 0x0, false, .none⟩
  | .tier_TAIL_EVICTIONS => ⟨.tier, 0x38, 31, 0, .w1c, 0x0, 0, 1, 0x0, false, .none⟩
  | .tier_PREFETCH_STALE => ⟨.tier, 0x3c, 31, 0, .w1c, 0x0, 0, 1, 0x0, false, .none⟩
  | .dill_lane_en => ⟨.dill, 0x0, 0, 0, .rw, 0x1, 0, 1, 0x12, true, .none⟩
  | .dill_pool_en => ⟨.dill, 0x0, 1, 1, .rw, 0x1, 0, 1, 0x12, true, .none⟩
  | .dill_operator_programs => ⟨.dill, 0x0, 2, 2, .rw, 0x0, 0, 1, 0x4, true, .none⟩
  | .dill_programs_valid => ⟨.dill, 0x4, 6, 0, .ro, 0x0, 0, 1, 0x0, false, .none⟩
  | .dill_contexts_resident => ⟨.dill, 0x4, 10, 8, .ro, 0x0, 0, 1, 0x0, false, .none⟩
  | .dill_segment_limit_ns => ⟨.dill, 0x8, 15, 0, .ro, 0xfa0, 0, 1, 0x0, false, .none⟩
  | .dill_longest_segment_ns => ⟨.dill, 0xc, 31, 0, .rw, 0x0, 0, 1, 0x0, false, .none⟩
  | .dill_kt_index => ⟨.dill, 0x10, 3, 0, .rw, 0x0, 0, 1, 0x0, false, .none⟩
  | .dill_kt_tenant => ⟨.dill, 0x14, 15, 0, .rw, 0x0, 0, 1, 0x4, true, .kernel⟩
  | .dill_kt_any => ⟨.dill, 0x14, 16, 16, .rw, 0x0, 0, 1, 0x4, true, .kernel⟩
  | .dill_kt_valid => ⟨.dill, 0x14, 17, 17, .rw, 0x0, 0, 1, 0x4, true, .kernel⟩
  | .dill_kt_key_format => ⟨.dill, 0x18, 7, 0, .rw, 0x0, 0, 1, 0x4, true, .kernel⟩
  | .dill_kt_value_format => ⟨.dill, 0x18, 15, 8, .rw, 0x0, 0, 1, 0x4, true, .kernel⟩
  | .dill_kt_skip_mode => ⟨.dill, 0x18, 17, 16, .rw, 0x0, 0, 1, 0x4, true, .kernel⟩
  | .dill_kt_program => ⟨.dill, 0x18, 23, 18, .rw, 0x0, 0, 1, 0x4, true, .kernel⟩
  | .dill_SEGMENTS => ⟨.dill, 0x20, 31, 0, .w1c, 0x0, 0, 1, 0x0, false, .none⟩
  | .dill_SWITCHES => ⟨.dill, 0x24, 31, 0, .w1c, 0x0, 0, 1, 0x0, false, .none⟩
  | .dill_FAULTS => ⟨.dill, 0x28, 31, 0, .w1c, 0x0, 0, 1, 0x0, false, .none⟩
  | .dill_REFRESH_POSTPONED => ⟨.dill, 0x2c, 31, 0, .w1c, 0x0, 0, 1, 0x0, false, .none⟩
  | .dill_POSTPONE_MAX => ⟨.dill, 0x30, 3, 0, .w1c, 0x0, 0, 1, 0x0, false, .none⟩
  | .dill_REFRESH_FORCED => ⟨.dill, 0x34, 31, 0, .w1c, 0x0, 0, 1, 0x0, false, .none⟩
  | .dill_SNAPSHOTS => ⟨.dill, 0x38, 31, 0, .w1c, 0x0, 0, 1, 0x0, false, .none⟩
  | .dill_snapshot_wait_max_ns => ⟨.dill, 0x3c, 31, 0, .rw, 0x0, 0, 1, 0x0, false, .none⟩
  | .dill_start_word => ⟨.dill, 0x100, 15, 0, .ro, 0x0, 8, 64, 0x0, false, .none⟩
  | .dill_length_words => ⟨.dill, 0x100, 31, 16, .ro, 0x0, 8, 64, 0x0, false, .none⟩
  | .dill_bound_ns => ⟨.dill, 0x104, 15, 0, .ro, 0x0, 8, 64, 0x0, false, .none⟩
  | .dill_operator => ⟨.dill, 0x104, 16, 16, .ro, 0x0, 8, 64, 0x0, false, .none⟩
  | .dill_valid => ⟨.dill, 0x104, 17, 17, .ro, 0x0, 8, 64, 0x0, false, .none⟩
  | .mem_profile_full => ⟨.mem, 0x0, 0, 0, .ro, 0x0, 0, 1, 0x0, false, .none⟩
  | .mem_full_permitted => ⟨.mem, 0x0, 1, 1, .ro, 0x0, 0, 1, 0x0, false, .none⟩
  | .mem_profile_pending => ⟨.mem, 0x0, 2, 2, .ro, 0x0, 0, 1, 0x0, false, .none⟩
  | .mem_field_repair_en => ⟨.mem, 0x0, 3, 3, .rw, 0x0, 0, 1, 0x12, true, .none⟩
  | .mem_stack_temp => ⟨.mem, 0x4, 7, 0, .ro, 0x0, 0, 1, 0x0, false, .none⟩
  | .mem_refresh_rate => ⟨.mem, 0x4, 9, 8, .ro, 0x0, 0, 1, 0x0, false, .none⟩
  | .mem_die_temp => ⟨.mem, 0x4, 17, 10, .ro, 0x0, 0, 1, 0x0, false, .none⟩
  | .mem_temp_2x => ⟨.mem, 0x8, 7, 0, .rw, 0x55, 0, 1, 0x12, true, .none⟩
  | .mem_temp_4x => ⟨.mem, 0x8, 15, 8, .rw, 0x5f, 0, 1, 0x12, true, .none⟩
  | .mem_temp_crit => ⟨.mem, 0x8, 23, 16, .rw, 0x69, 0, 1, 0x12, true, .none⟩
  | .mem_hysteresis => ⟨.mem, 0x8, 27, 24, .rw, 0x3, 0, 1, 0x12, true, .none⟩
  | .mem_sr_idle => ⟨.mem, 0xc, 31, 0, .rw, 0x2710, 0, 1, 0x12, true, .none⟩
  | .mem_patrol_period => ⟨.mem, 0x10, 31, 0, .rw, 0x15180, 0, 1, 0x12, true, .none⟩
  | .mem_throttle_level => ⟨.mem, 0x14, 3, 0, .ro, 0x0, 0, 1, 0x0, false, .none⟩
  | .mem_pin_level => ⟨.mem, 0x14, 7, 4, .rw, 0x4, 0, 1, 0x12, true, .none⟩
  | .mem_min_level => ⟨.mem, 0x14, 11, 8, .rw, 0x0, 0, 1, 0x12, true, .none⟩
  | .mem_throttle_temp => ⟨.mem, 0x14, 19, 12, .rw, 0x64, 0, 1, 0x12, true, .none⟩
  | .mem_power_limit => ⟨.mem, 0x18, 15, 0, .rw, 0x708, 0, 1, 0x12, true, .none⟩
  | .mem_power_avg => ⟨.mem, 0x18, 31, 16, .ro, 0x0, 0, 1, 0x0, false, .none⟩
  | .mem_retain_idle => ⟨.mem, 0x1c, 31, 0, .rw, 0x186a0, 0, 1, 0x12, true, .none⟩
  | .mem_bank_sel => ⟨.mem, 0x20, 9, 0, .rw, 0x0, 0, 1, 0x0, false, .none⟩
  | .mem_bank_state => ⟨.mem, 0x24, 1, 0, .ro, 0x0, 0, 1, 0x0, false, .bank⟩
  | .mem_bank_request => ⟨.mem, 0x24, 3, 2, .rw, 0x0, 0, 1, 0x0, false, .bank⟩
  | .mem_bank_request_refused => ⟨.mem, 0x24, 4, 4, .w1c, 0x0, 0, 1, 0x0, false, .bank⟩
  | .mem_bank_retired => ⟨.mem, 0x24, 5, 5, .ro, 0x0, 0, 1, 0x0, false, .bank⟩
  | .mem_spares_fused => ⟨.mem, 0x24, 15, 8, .ro, 0x0, 0, 1, 0x0, false, .bank⟩
  | .mem_spares_soft => ⟨.mem, 0x24, 23, 16, .ro, 0x0, 0, 1, 0x0, false, .bank⟩
  | .mem_CORRECTED => ⟨.mem, 0x30, 31, 0, .w1c, 0x0, 0, 1, 0x0, false, .none⟩
  | .mem_UNCORRECTABLE => ⟨.mem, 0x34, 31, 0, .w1c, 0x0, 0, 1, 0x0, false, .none⟩
  | .mem_SAME_WORD_BUSY => ⟨.mem, 0x38, 31, 0, .w1c, 0x0, 0, 1, 0x0, false, .none⟩
  | .mem_PATROL_REWRITES => ⟨.mem, 0x3c, 31, 0, .w1c, 0x0, 0, 1, 0x0, false, .none⟩
  | .mem_THROTTLE_CHANGES => ⟨.mem, 0x40, 31, 0, .w1c, 0x0, 0, 1, 0x0, false, .none⟩
  | .mem_LOG_OVERFLOW => ⟨.mem, 0x44, 31, 0, .w1c, 0x0, 0, 1, 0x0, false, .none⟩
  | .mem_err_count => ⟨.mem, 0x50, 5, 0, .ro, 0x0, 0, 1, 0x0, false, .none⟩
  | .mem_err_pop => ⟨.mem, 0x54, 0, 0, .w1s, 0x0, 0, 1, 0x0, false, .none⟩
  | .chive_scrub_en => ⟨.chive, 0x0, 0, 0, .rw, 0x1, 0, 1, 0x12, true, .none⟩
  | .chive_scrub_share => ⟨.chive, 0x0, 7, 4, .rw, 0x6, 0, 1, 0x12, true, .none⟩
  | .chive_rebuilding_blocks => ⟨.chive, 0x4, 15, 0, .ro, 0x0, 0, 1, 0x0, false, .none⟩
  | .chive_part_base => ⟨.chive, 0x10, 15, 0, .ro, 0x0, 8, 5, 0x0, true, .none⟩
  | .chive_part_blocks => ⟨.chive, 0x10, 31, 16, .ro, 0x0, 8, 5, 0x0, true, .none⟩
  | .chive_rows_used => ⟨.chive, 0x14, 19, 0, .ro, 0x0, 8, 5, 0x0, false, .none⟩
  | .chive_overflowed => ⟨.chive, 0x14, 20, 20, .ro, 0x0, 8, 5, 0x0, false, .none⟩
  | .chive_ot_used => ⟨.chive, 0x40, 31, 0, .ro, 0x0, 8, 5, 0x0, false, .none⟩
  | .chive_ot_mib => ⟨.chive, 0x44, 15, 0, .ro, 0x0, 8, 5, 0x0, true, .none⟩
  | .chive_SEARCHES => ⟨.chive, 0x80, 31, 0, .w1c, 0x0, 0, 1, 0x0, false, .none⟩
  | .chive_HITS => ⟨.chive, 0x84, 31, 0, .w1c, 0x0, 0, 1, 0x0, false, .none⟩
  | .chive_OVERFLOW_PROBES => ⟨.chive, 0x88, 31, 0, .w1c, 0x0, 0, 1, 0x0, false, .none⟩
  | .chive_CONFIRM_FAILS => ⟨.chive, 0x8c, 31, 0, .w1c, 0x0, 0, 1, 0x0, false, .none⟩
  | .chive_SHADOW_CORRECTIONS => ⟨.chive, 0x90, 31, 0, .w1c, 0x0, 0, 1, 0x0, false, .none⟩
  | .chive_SCRUB_MISMATCH => ⟨.chive, 0x94, 31, 0, .w1c, 0x0, 0, 1, 0x0, false, .none⟩
  | .chive_UPDATES => ⟨.chive, 0x98, 31, 0, .w1c, 0x0, 0, 1, 0x0, false, .none⟩
  | .chive_MOVES => ⟨.chive, 0x9c, 31, 0, .w1c, 0x0, 0, 1, 0x0, false, .none⟩
  | .chive_OVERFLOW_INSERTS => ⟨.chive, 0xa0, 31, 0, .w1c, 0x0, 0, 1, 0x0, false, .none⟩
  | .chive_INSERT_REFUSED => ⟨.chive, 0xa4, 31, 0, .w1c, 0x0, 0, 1, 0x0, false, .none⟩
  | .chive_REBUILDS => ⟨.chive, 0xa8, 31, 0, .w1c, 0x0, 0, 1, 0x0, false, .none⟩
  | .fab_port_mode => ⟨.fab, 0x0, 1, 0, .ro, 0x0, 0, 1, 0x0, false, .none⟩
  | .fab_cell_mode => ⟨.fab, 0x0, 2, 2, .ro, 0x0, 0, 1, 0x0, true, .none⟩
  | .fab_ipv4 => ⟨.fab, 0x0, 3, 3, .ro, 0x0, 0, 1, 0x0, true, .none⟩
  | .fab_vlan_en => ⟨.fab, 0x0, 4, 4, .ro, 0x0, 0, 1, 0x0, false, .none⟩
  | .fab_forerunner_compat => ⟨.fab, 0x0, 5, 5, .ro, 0x0, 0, 1, 0x0, true, .none⟩
  | .fab_link_up => ⟨.fab, 0x0, 11, 8, .ro, 0x0, 0, 1, 0x0, false, .none⟩
  | .fab_endpoint_id => ⟨.fab, 0x4, 23, 0, .ro, 0x0, 0, 1, 0x0, false, .none⟩
  | .fab_ethertype => ⟨.fab, 0x8, 15, 0, .ro, 0x88b5, 0, 1, 0x0, true, .none⟩
  | .fab_udp_port => ⟨.fab, 0x8, 31, 16, .ro, 0xb8d4, 0, 1, 0x0, true, .none⟩
  | .fab_seg_code => ⟨.fab, 0xc, 3, 0, .rw, 0x7, 0, 1, 0x1, true, .none⟩
  | .fab_retx_limit => ⟨.fab, 0xc, 7, 4, .rw, 0xc, 0, 1, 0x12, true, .none⟩
  | .fab_replay_window => ⟨.fab, 0xc, 14, 8, .rw, 0x0, 0, 1, 0x11, true, .none⟩
  | .fab_rto_init => ⟨.fab, 0x10, 31, 0, .rw, 0x4e20, 0, 1, 0x12, true, .none⟩
  | .fab_rto_min => ⟨.fab, 0x14, 31, 0, .rw, 0x1388, 0, 1, 0x12, true, .none⟩
  | .fab_rto_max => ⟨.fab, 0x18, 31, 0, .rw, 0x989680, 0, 1, 0x12, true, .none⟩
  | .fab_ack_delay => ⟨.fab, 0x1c, 31, 0, .rw, 0x7d0, 0, 1, 0x12, true, .none⟩
  | .fab_keepalive_ms => ⟨.fab, 0x20, 15, 0, .rw, 0x64, 0, 1, 0x12, true, .none⟩
  | .fab_dead_time_ms => ⟨.fab, 0x20, 31, 16, .rw, 0x1388, 0, 1, 0x12, true, .none⟩
  | .fab_quiet_time_ms => ⟨.fab, 0x24, 15, 0, .rw, 0x3e8, 0, 1, 0x12, true, .none⟩
  | .fab_conn_onchip => ⟨.fab, 0x28, 14, 0, .ro, 0x0, 0, 1, 0x0, false, .none⟩
  | .fab_conn_spilled => ⟨.fab, 0x2c, 19, 0, .ro, 0x0, 0, 1, 0x0, false, .none⟩
  | .fab_MACSEC_DROPS => ⟨.fab, 0x40, 31, 0, .w1c, 0x0, 0, 1, 0x0, false, .none⟩
  | .fab_MISDIRECTED => ⟨.fab, 0x44, 31, 0, .w1c, 0x0, 0, 1, 0x0, false, .none⟩
  | .fab_TAG_MISMATCH => ⟨.fab, 0x48, 31, 0, .w1c, 0x0, 0, 1, 0x0, false, .none⟩
  | .fab_CONFIG_REFUSED => ⟨.fab, 0x4c, 31, 0, .w1c, 0x0, 0, 1, 0x0, false, .none⟩
  | .fab_DUPLICATES => ⟨.fab, 0x50, 31, 0, .w1c, 0x0, 0, 1, 0x0, false, .none⟩
  | .fab_OUT_OF_WINDOW => ⟨.fab, 0x54, 31, 0, .w1c, 0x0, 0, 1, 0x0, false, .none⟩
  | .fab_RETRANSMITS => ⟨.fab, 0x58, 31, 0, .w1c, 0x0, 0, 1, 0x0, false, .none⟩
  | .fab_CONN_FAILED => ⟨.fab, 0x5c, 31, 0, .w1c, 0x0, 0, 1, 0x0, false, .none⟩
  | .fab_HELLO_REFUSED => ⟨.fab, 0x60, 31, 0, .w1c, 0x0, 0, 1, 0x0, false, .none⟩
  | .fab_SPILLS => ⟨.fab, 0x64, 31, 0, .w1c, 0x0, 0, 1, 0x0, false, .none⟩
  | .fab_FILLS => ⟨.fab, 0x68, 31, 0, .w1c, 0x0, 0, 1, 0x0, false, .none⟩
  | .fab_FILL_DROPS => ⟨.fab, 0x6c, 31, 0, .w1c, 0x0, 0, 1, 0x0, false, .none⟩
  | .fab_PAUSE_DROPS => ⟨.fab, 0x70, 31, 0, .w1c, 0x0, 0, 1, 0x0, false, .none⟩
  | .fab_CE_MARKS => ⟨.fab, 0x74, 31, 0, .w1c, 0x0, 0, 1, 0x0, false, .none⟩
  | .fab_V0_FRAMES => ⟨.fab, 0x78, 31, 0, .w1c, 0x0, 0, 1, 0x0, false, .none⟩
  | .fab_FEC_CORRECTED => ⟨.fab, 0x80, 31, 0, .w1c, 0x0, 8, 4, 0x0, false, .none⟩
  | .fab_FEC_UNCORRECTED => ⟨.fab, 0x84, 31, 0, .w1c, 0x0, 8, 4, 0x0, false, .none⟩
  | .region_regions_active => ⟨.region, 0x0, 20, 0, .ro, 0x0, 0, 1, 0x0, false, .none⟩
  | .region_REGISTERS => ⟨.region, 0x4, 31, 0, .w1c, 0x0, 0, 1, 0x0, false, .none⟩
  | .region_REVOKES => ⟨.region, 0x8, 31, 0, .w1c, 0x0, 0, 1, 0x0, false, .none⟩
  | .region_KEY_STALE_SEEN => ⟨.region, 0xc, 31, 0, .w1c, 0x0, 0, 1, 0x0, false, .none⟩
  | .region_KEY_REVOKED_SEEN => ⟨.region, 0x10, 31, 0, .w1c, 0x0, 0, 1, 0x0, false, .none⟩
  | .region_PD_REFUSED => ⟨.region, 0x14, 31, 0, .w1c, 0x0, 0, 1, 0x0, false, .none⟩
  | .region_READS => ⟨.region, 0x18, 31, 0, .w1c, 0x0, 0, 1, 0x0, false, .none⟩
  | .region_WRITES => ⟨.region, 0x1c, 31, 0, .w1c, 0x0, 0, 1, 0x0, false, .none⟩
  | .region_PAGE_REWRITES => ⟨.region, 0x20, 31, 0, .w1c, 0x0, 0, 1, 0x0, false, .none⟩
  | .region_revoke_wait_max_ns => ⟨.region, 0x24, 31, 0, .rw, 0x0, 0, 1, 0x0, false, .none⟩
  | .ledger_local_time_lo => ⟨.ledger, 0x0, 31, 0, .ro, 0x0, 0, 1, 0x0, false, .none⟩
  | .ledger_local_time_hi => ⟨.ledger, 0x4, 31, 0, .ro, 0x0, 0, 1, 0x0, false, .none⟩
  | .ledger_epoch_newest => ⟨.ledger, 0x8, 15, 0, .ro, 0x0, 0, 1, 0x0, false, .none⟩
  | .ledger_epoch_previous => ⟨.ledger, 0x8, 31, 16, .ro, 0x0, 0, 1, 0x0, false, .none⟩
  | .ledger_epoch_pending => ⟨.ledger, 0xc, 15, 0, .ro, 0x0, 0, 1, 0x0, false, .none⟩
  | .ledger_lease_us => ⟨.ledger, 0x10, 15, 0, .rw, 0x2710, 0, 1, 0x3, true, .none⟩
  | .ledger_holder_wait_us => ⟨.ledger, 0x14, 31, 0, .rw, 0xf4240, 0, 1, 0x3, true, .none⟩
  | .ledger_epoch_wait_us => ⟨.ledger, 0x18, 31, 0, .rw, 0x3e8, 0, 1, 0x3, true, .none⟩
  | .ledger_pull_timeout_us => ⟨.ledger, 0x1c, 31, 0, .rw, 0x186a0, 0, 1, 0x3, true, .none⟩
  | .ledger_dir_entries => ⟨.ledger, 0x20, 20, 0, .ro, 0x0, 0, 1, 0x0, false, .none⟩
  | .ledger_unit_state => ⟨.ledger, 0x24, 1, 0, .ro, 0x0, 0, 1, 0x0, false, .none⟩
  | .ledger_unit_generation => ⟨.ledger, 0x28, 31, 0, .ro, 0x0, 0, 1, 0x0, false, .none⟩
  | .ledger_inflight_previous => ⟨.ledger, 0x2c, 31, 0, .ro, 0x0, 0, 1, 0x0, false, .none⟩
  | .ledger_PUBLISHES => ⟨.ledger, 0x30, 31, 0, .w1c, 0x0, 0, 1, 0x0, false, .none⟩
  | .ledger_CONFLICTS => ⟨.ledger, 0x34, 31, 0, .w1c, 0x0, 0, 1, 0x0, false, .none⟩
  | .ledger_RECALLS => ⟨.ledger, 0x38, 31, 0, .w1c, 0x0, 0, 1, 0x0, false, .none⟩
  | .ledger_RECALL_TIMEOUTS => ⟨.ledger, 0x3c, 31, 0, .w1c, 0x0, 0, 1, 0x0, false, .none⟩
  | .ledger_REDIRECTS => ⟨.ledger, 0x40, 31, 0, .w1c, 0x0, 0, 1, 0x0, false, .none⟩
  | .ledger_REROUTES => ⟨.ledger, 0x44, 31, 0, .w1c, 0x0, 0, 1, 0x0, false, .none⟩
  | .ledger_EPOCH_OLD_SEEN => ⟨.ledger, 0x48, 31, 0, .w1c, 0x0, 0, 1, 0x0, false, .none⟩
  | .ledger_STALE_UNIT_SEEN => ⟨.ledger, 0x4c, 31, 0, .w1c, 0x0, 0, 1, 0x0, false, .none⟩
  | .ledger_TRANSFERS_DONE => ⟨.ledger, 0x50, 31, 0, .w1c, 0x0, 0, 1, 0x0, false, .none⟩
  | .ledger_TRANSFERS_ABORTED => ⟨.ledger, 0x54, 31, 0, .w1c, 0x0, 0, 1, 0x0, false, .none⟩
  | .ledger_EXTENT_REVOKED => ⟨.ledger, 0x58, 31, 0, .w1c, 0x0, 0, 1, 0x0, false, .none⟩
  | .ledger_LINES_LOST => ⟨.ledger, 0x5c, 31, 0, .w1c, 0x0, 0, 1, 0x0, false, .none⟩
  | .traffic_yellow_busy_level => ⟨.traffic, 0x0, 2, 0, .rw, 0x6, 0, 1, 0x5, true, .none⟩
  | .traffic_demote_class => ⟨.traffic, 0x0, 7, 4, .rw, 0xf, 0, 1, 0x5, true, .none⟩
  | .traffic_device_class => ⟨.traffic, 0x0, 11, 8, .rw, 0x1, 0, 1, 0x5, true, .none⟩
  | .traffic_credit_max => ⟨.traffic, 0x4, 15, 0, .rw, 0x100, 0, 1, 0x5, true, .none⟩
  | .traffic_credit_min => ⟨.traffic, 0x4, 31, 16, .rw, 0x4, 0, 1, 0x5, true, .none⟩
  | .traffic_prof_index => ⟨.traffic, 0x10, 5, 0, .rw, 0x0, 0, 1, 0x0, false, .none⟩
  | .traffic_cir_mbps => ⟨.traffic, 0x14, 31, 0, .rw, 0x0, 0, 1, 0x5, true, .profile⟩
  | .traffic_cbs => ⟨.traffic, 0x18, 31, 0, .rw, 0x0, 0, 1, 0x5, true, .profile⟩
  | .traffic_pir_mbps => ⟨.traffic, 0x1c, 31, 0, .rw, 0x0, 0, 1, 0x5, true, .profile⟩
  | .traffic_pbs => ⟨.traffic, 0x20, 31, 0, .rw, 0x0, 0, 1, 0x5, true, .profile⟩
  | .traffic_min_class => ⟨.traffic, 0x24, 3, 0, .rw, 0x4, 0, 1, 0x5, true, .profile⟩
  | .traffic_prof_enable => ⟨.traffic, 0x24, 4, 4, .rw, 0x0, 0, 1, 0x5, true, .profile⟩
  | .traffic_pol_endpoint => ⟨.traffic, 0x30, 15, 0, .rw, 0x0, 0, 1, 0x0, false, .none⟩
  | .traffic_pol_profile => ⟨.traffic, 0x34, 5, 0, .rw, 0x0, 0, 1, 0x5, true, .endpoint⟩
  | .traffic_eg_subport => ⟨.traffic, 0x40, 1, 0, .rw, 0x0, 0, 1, 0x0, false, .none⟩
  | .traffic_eg_class => ⟨.traffic, 0x40, 7, 4, .rw, 0x0, 0, 1, 0x0, false, .none⟩
  | .traffic_shape_mbps => ⟨.traffic, 0x44, 31, 0, .rw, 0x186a00, 0, 1, 0x5, false, .egress⟩
  | .traffic_shape_burst => ⟨.traffic, 0x48, 31, 0, .rw, 0x10000, 0, 1, 0x5, false, .egress⟩
  | .traffic_quantum => ⟨.traffic, 0x4c, 17, 0, .rw, 0x2400, 0, 1, 0x5, false, .egress⟩
  | .traffic_gl_subport => ⟨.traffic, 0x60, 1, 0, .rw, 0x0, 0, 1, 0x0, false, .none⟩
  | .traffic_gl_count => ⟨.traffic, 0x64, 6, 0, .rw, 0x0, 0, 1, 0x5, false, .gate⟩
  | .traffic_gl_active_index => ⟨.traffic, 0x64, 13, 8, .ro, 0x0, 0, 1, 0x0, false, .gate⟩
  | .traffic_gl_running => ⟨.traffic, 0x64, 14, 14, .ro, 0x0, 0, 1, 0x0, false, .gate⟩
  | .traffic_gl_base_lo => ⟨.traffic, 0x68, 31, 0, .rw, 0x0, 0, 1, 0x0, false, .gate⟩
  | .traffic_gl_base_hi => ⟨.traffic, 0x6c, 31, 0, .rw, 0x0, 0, 1, 0x0, false, .gate⟩
  | .traffic_gl_commit => ⟨.traffic, 0x70, 0, 0, .w1s, 0x0, 0, 1, 0x0, false, .gate⟩
  | .traffic_gl_pending => ⟨.traffic, 0x70, 1, 1, .ro, 0x0, 0, 1, 0x0, false, .gate⟩
  | .traffic_gl_refused => ⟨.traffic, 0x70, 2, 2, .w1c, 0x0, 0, 1, 0x0, false, .gate⟩
  | .traffic_GREEN => ⟨.traffic, 0x80, 31, 0, .w1c, 0x0, 0, 1, 0x0, false, .none⟩
  | .traffic_YELLOW => ⟨.traffic, 0x84, 31, 0, .w1c, 0x0, 0, 1, 0x0, false, .none⟩
  | .traffic_RED => ⟨.traffic, 0x88, 31, 0, .w1c, 0x0, 0, 1, 0x0, false, .none⟩
  | .traffic_YELLOW_BUSY => ⟨.traffic, 0x8c, 31, 0, .w1c, 0x0, 0, 1, 0x0, false, .none⟩
  | .traffic_QUEUE_FULL => ⟨.traffic, 0x90, 31, 0, .w1c, 0x0, 0, 1, 0x0, false, .none⟩
  | .traffic_REMARKED => ⟨.traffic, 0x94, 31, 0, .w1c, 0x0, 0, 1, 0x0, false, .none⟩
  | .traffic_GATE_SWITCHES => ⟨.traffic, 0x98, 31, 0, .w1c, 0x0, 0, 1, 0x0, false, .none⟩
  | .traffic_gate_mask => ⟨.traffic, 0x100, 15, 0, .rw, 0xffff, 8, 64, 0x5, false, .gate⟩
  | .traffic_duration_ns => ⟨.traffic, 0x104, 31, 0, .rw, 0x0, 8, 64, 0x5, false, .gate⟩
  | .ident_part_code => ⟨.ident, 0x0, 7, 0, .ro, 0x0, 0, 1, 0x0, false, .none⟩
  | .ident_stepping => ⟨.ident, 0x0, 15, 8, .ro, 0xb0, 0, 1, 0x0, false, .none⟩
  | .ident_device_id => ⟨.ident, 0x0, 31, 16, .ro, 0x4032, 0, 1, 0x0, false, .none⟩
  | .ident_serial_lo => ⟨.ident, 0x4, 31, 0, .ro, 0x0, 0, 1, 0x0, false, .none⟩
  | .ident_serial_hi => ⟨.ident, 0x8, 31, 0, .ro, 0x0, 0, 1, 0x0, false, .none⟩
  | .port_link_speed => ⟨.port, 0x0, 2, 0, .ro, 0x0, 0, 1, 0x0, false, .none⟩
  | .port_link_width => ⟨.port, 0x0, 7, 3, .ro, 0x0, 0, 1, 0x0, false, .none⟩
  | .port_port_primary => ⟨.port, 0x0, 8, 8, .ro, 0x0, 0, 1, 0x0, false, .none⟩
  | .port_primary_pref => ⟨.port, 0x4, 0, 0, .rw, 0x0, 0, 1, 0x11, true, .none⟩
  | .port_max_speed => ⟨.port, 0x4, 3, 1, .rw, 0x7, 0, 1, 0x11, false, .none⟩
  | .port_fn_sel => ⟨.port, 0x8, 5, 0, .rw, 0x0, 0, 1, 0x0, false, .none⟩
  | .port_fn_tenant => ⟨.port, 0xc, 15, 0, .rw, 0x0, 0, 1, 0x11, false, .fn⟩
  | .port_fn_pd => ⟨.port, 0xc, 31, 16, .rw, 0x0, 0, 1, 0x11, false, .fn⟩
  | .port_fn_profile => ⟨.port, 0x10, 5, 0, .rw, 0x0, 0, 1, 0x11, false, .fn⟩
  | .port_fn_ide_required => ⟨.port, 0x10, 6, 6, .rw, 0x0, 0, 1, 0x11, false, .fn⟩
  | .port_fn_msix_count => ⟨.port, 0x10, 19, 8, .rw, 0x20, 0, 1, 0x11, false, .fn⟩
  | .port_fn_endpoint => ⟨.port, 0x14, 23, 0, .rw, 0x0, 0, 1, 0x11, false, .fn⟩
  | .port_COMMANDS => ⟨.port, 0x20, 31, 0, .w1c, 0x0, 0, 1, 0x0, false, .none⟩
  | .port_NODE_WRITES_REFUSED => ⟨.port, 0x24, 31, 0, .w1c, 0x0, 0, 1, 0x0, false, .none⟩
  | .port_LINK_RETRAINS => ⟨.port, 0x28, 31, 0, .w1c, 0x0, 0, 1, 0x0, false, .none⟩
  | .fn_fn_number => ⟨.fn, 0x0, 5, 0, .ro, 0x0, 0, 1, 0x0, false, .none⟩
  | .fn_primary => ⟨.fn, 0x0, 6, 6, .ro, 0x0, 0, 1, 0x0, false, .none⟩
  | .fn_tenant => ⟨.fn, 0x0, 31, 16, .ro, 0x0, 0, 1, 0x0, false, .none⟩
  | .fn_protection_domain => ⟨.fn, 0x4, 15, 0, .ro, 0x0, 0, 1, 0x0, false, .none⟩
  | .fn_ring_base_lo => ⟨.fn, 0x10, 31, 0, .rw, 0x0, 16, 16, 0x0, false, .none⟩
  | .fn_ring_base_hi => ⟨.fn, 0x14, 31, 0, .rw, 0x0, 16, 16, 0x0, false, .none⟩
  | .fn_ring_log2 => ⟨.fn, 0x18, 4, 0, .rw, 0x6, 16, 16, 0x0, false, .none⟩
  | .fn_ring_enable => ⟨.fn, 0x18, 5, 5, .rw, 0x0, 16, 16, 0x0, false, .none⟩
  | .fn_ring_vector => ⟨.fn, 0x18, 26, 16, .rw, 0x0, 16, 16, 0x0, false, .none⟩
  | .fn_coalesce_ns => ⟨.fn, 0x1c, 31, 0, .rw, 0x0, 16, 16, 0x0, false, .none⟩
  | .fn_win_key => ⟨.fn, 0x200, 31, 0, .rw, 0x0, 16, 16, 0x0, false, .none⟩
  | .fn_win_enable => ⟨.fn, 0x204, 0, 0, .rw, 0x0, 16, 16, 0x0, false, .none⟩
  | .fn_win_status => ⟨.fn, 0x204, 15, 8, .ro, 0x0, 16, 16, 0x0, false, .none⟩
  | .fn_win_offset_lo => ⟨.fn, 0x208, 31, 0, .rw, 0x0, 16, 16, 0x0, false, .none⟩
  | .fn_win_offset_hi => ⟨.fn, 0x20c, 31, 0, .rw, 0x0, 16, 16, 0x0, false, .none⟩
  | .fn_SLOT_BUSY_WRITES => ⟨.fn, 0x300, 31, 0, .w1c, 0x0, 0, 1, 0x0, false, .none⟩
  | .fn_DUP_FINALS => ⟨.fn, 0x304, 31, 0, .w1c, 0x0, 0, 1, 0x0, false, .none⟩
  | .fn_SEQ_REFUSED => ⟨.fn, 0x308, 31, 0, .w1c, 0x0, 0, 1, 0x0, false, .none⟩
  | .fn_WINDOW_REFUSED => ⟨.fn, 0x30c, 31, 0, .w1c, 0x0, 0, 1, 0x0, false, .none⟩
  | .fn_POISONED_READS => ⟨.fn, 0x310, 31, 0, .w1c, 0x0, 0, 1, 0x0, false, .none⟩
  | .fn_slot_expected => ⟨.fn, 0x400, 15, 0, .ro, 0x1, 4, 64, 0x0, false, .none⟩
  | .fn_slot_busy => ⟨.fn, 0x400, 16, 16, .ro, 0x0, 4, 64, 0x0, false, .none⟩
  | .lov_lovage_ok => ⟨.lov, 0x0, 0, 0, .ro, 0x0, 0, 1, 0x0, false, .none⟩
  | .lov_is_primary => ⟨.lov, 0x0, 1, 1, .ro, 0x0, 0, 1, 0x0, false, .none⟩
  | .lov_legacy_active => ⟨.lov, 0x0, 2, 2, .ro, 0x0, 0, 1, 0x0, false, .none⟩
  | .lov_debug_locked => ⟨.lov, 0x0, 3, 3, .ro, 0x1, 0, 1, 0x0, false, .none⟩
  | .lov_strap_legacy => ⟨.lov, 0x0, 4, 4, .ro, 0x0, 0, 1, 0x0, false, .none⟩
  | .lov_primary_hub => ⟨.lov, 0x0, 7, 5, .ro, 0x0, 0, 1, 0x0, false, .none⟩
  | .lov_primary_known => ⟨.lov, 0x0, 8, 8, .ro, 0x0, 0, 1, 0x0, false, .none⟩
  | .lov_sessions_open => ⟨.lov, 0x0, 11, 9, .ro, 0x0, 0, 1, 0x0, false, .none⟩
  | .lov_term => ⟨.lov, 0x4, 31, 0, .ro, 0x0, 0, 1, 0x0, false, .none⟩
  | .lov_svn_lo => ⟨.lov, 0x8, 31, 0, .ro, 0x0, 0, 1, 0x0, false, .none⟩
  | .lov_svn_hi => ⟨.lov, 0xc, 31, 0, .ro, 0x0, 0, 1, 0x0, false, .none⟩
  | .lov_rekey_interval_s => ⟨.lov, 0x10, 31, 0, .rw, 0xe10, 0, 1, 0x12, true, .none⟩
  | .lov_ELECTIONS => ⟨.lov, 0x20, 31, 0, .w1c, 0x0, 0, 1, 0x0, false, .none⟩
  | .lov_ATTESTS => ⟨.lov, 0x24, 31, 0, .w1c, 0x0, 0, 1, 0x0, false, .none⟩
  | .lov_SESSION_FAILS => ⟨.lov, 0x28, 31, 0, .w1c, 0x0, 0, 1, 0x0, false, .none⟩
  | .lov_KX_DONE => ⟨.lov, 0x2c, 31, 0, .w1c, 0x0, 0, 1, 0x0, false, .none⟩
  | .lov_KX_FAILURES => ⟨.lov, 0x30, 31, 0, .w1c, 0x0, 0, 1, 0x0, false, .none⟩
  | .lov_CRED_FAILS => ⟨.lov, 0x34, 31, 0, .w1c, 0x0, 0, 1, 0x0, false, .none⟩
  | .lov_LEGACY_AUTH_FAILS => ⟨.lov, 0x38, 31, 0, .w1c, 0x0, 0, 1, 0x0, false, .none⟩
  | .lov_alias_digest0 => ⟨.lov, 0x40, 31, 0, .ro, 0x0, 0, 1, 0x0, false, .none⟩
  | .lov_alias_digest1 => ⟨.lov, 0x44, 31, 0, .ro, 0x0, 0, 1, 0x0, false, .none⟩
  | .lov_alias_digest2 => ⟨.lov, 0x48, 31, 0, .ro, 0x0, 0, 1, 0x0, false, .none⟩
  | .lov_alias_digest3 => ⟨.lov, 0x4c, 31, 0, .ro, 0x0, 0, 1, 0x0, false, .none⟩
  | .life_node_state => ⟨.life, 0x0, 2, 0, .ro, 0x0, 0, 1, 0x0, false, .none⟩
  | .life_bist_skipped => ⟨.life, 0x0, 3, 3, .ro, 0x0, 0, 1, 0x0, false, .none⟩
  | .life_crit_phase => ⟨.life, 0x0, 5, 4, .ro, 0x0, 0, 1, 0x0, false, .none⟩
  | .life_config_slot => ⟨.life, 0x0, 6, 6, .ro, 0x0, 0, 1, 0x0, false, .none⟩
  | .life_config_seq_lo => ⟨.life, 0x4, 31, 0, .ro, 0x0, 0, 1, 0x0, false, .none⟩
  | .life_config_seq_hi => ⟨.life, 0x8, 31, 0, .ro, 0x0, 0, 1, 0x0, false, .none⟩
  | .life_config_tag => ⟨.life, 0xc, 31, 0, .ro, 0x0, 0, 1, 0x0, false, .none⟩
  | .life_alt_tag => ⟨.life, 0x10, 31, 0, .ro, 0x0, 0, 1, 0x0, false, .none⟩
  | .life_class_sel => ⟨.life, 0x14, 7, 0, .rw, 0x1, 0, 1, 0x0, false, .none⟩
  | .life_class_digest => ⟨.life, 0x18, 31, 0, .ro, 0x0, 4, 4, 0x0, false, .cls⟩
  | .life_lc_op => ⟨.life, 0x30, 3, 0, .rw, 0x0, 0, 1, 0x0, false, .none⟩
  | .life_lc_target => ⟨.life, 0x30, 9, 4, .rw, 0x0, 0, 1, 0x0, false, .none⟩
  | .life_lc_go => ⟨.life, 0x30, 16, 16, .w1s, 0x0, 0, 1, 0x0, false, .none⟩
  | .life_lc_busy => ⟨.life, 0x30, 17, 17, .ro, 0x0, 0, 1, 0x0, false, .none⟩
  | .life_lc_status => ⟨.life, 0x30, 31, 24, .ro, 0x0, 0, 1, 0x0, false, .none⟩
  | .life_lc_progress => ⟨.life, 0x34, 31, 0, .ro, 0x0, 0, 1, 0x0, false, .none⟩
  | .life_slice_state => ⟨.life, 0x40, 2, 0, .ro, 0x0, 4, 32, 0x0, false, .none⟩
  | .life_substitute => ⟨.life, 0x40, 12, 8, .ro, 0x0, 4, 32, 0x0, false, .none⟩
  | .life_substituted => ⟨.life, 0x40, 13, 13, .ro, 0x0, 4, 32, 0x0, false, .none⟩
  | .life_hub_state => ⟨.life, 0xc0, 2, 0, .ro, 0x0, 4, 8, 0x0, false, .none⟩
  | .life_serving_hub => ⟨.life, 0xc0, 10, 8, .ro, 0x0, 4, 8, 0x0, false, .none⟩
  | .life_fw_sel => ⟨.life, 0xe0, 5, 0, .rw, 0x0, 0, 1, 0x0, false, .none⟩
  | .life_fw_slot => ⟨.life, 0xe4, 0, 0, .ro, 0x0, 0, 1, 0x0, false, .fw⟩
  | .life_fw_staged => ⟨.life, 0xe4, 1, 1, .ro, 0x0, 0, 1, 0x0, false, .fw⟩
  | .life_bist_period_h => ⟨.life, 0xf0, 15, 0, .rw, 0xa8, 0, 1, 0x12, true, .none⟩
  | .life_DELTAS_APPLIED => ⟨.life, 0x100, 31, 0, .w1c, 0x0, 0, 1, 0x0, false, .none⟩
  | .life_DELTAS_REFUSED => ⟨.life, 0x104, 31, 0, .w1c, 0x0, 0, 1, 0x0, false, .none⟩
  | .life_FW_REVERTS => ⟨.life, 0x108, 31, 0, .w1c, 0x0, 0, 1, 0x0, false, .none⟩
  | .life_TESTS_RUN => ⟨.life, 0x10c, 31, 0, .w1c, 0x0, 0, 1, 0x0, false, .none⟩
  | .life_TEST_FAILS => ⟨.life, 0x110, 31, 0, .w1c, 0x0, 0, 1, 0x0, false, .none⟩
  | .life_TEST_POSTPONED => ⟨.life, 0x114, 31, 0, .w1c, 0x0, 0, 1, 0x0, false, .none⟩
  | .life_CENSUS_OVERFLOW => ⟨.life, 0x118, 31, 0, .w1c, 0x0, 0, 1, 0x0, false, .none⟩
  | .life_census_tag => ⟨.life, 0x200, 31, 0, .ro, 0x0, 16, 16, 0x0, false, .none⟩
  | .life_census_count => ⟨.life, 0x204, 31, 0, .ro, 0x0, 16, 16, 0x0, false, .none⟩
  | .life_census_endpoint => ⟨.life, 0x208, 23, 0, .ro, 0x0, 16, 16, 0x0, false, .none⟩
  | .life_census_valid => ⟨.life, 0x20c, 0, 0, .rw, 0x0, 16, 16, 0x0, false, .none⟩
  | .health_margin_en => ⟨.health, 0x0, 0, 0, .rw, 0x1, 0, 1, 0x12, true, .none⟩
  | .health_auto_retrain => ⟨.health, 0x0, 1, 1, .rw, 0x1, 0, 1, 0x12, true, .none⟩
  | .health_journal_ok => ⟨.health, 0x0, 2, 2, .ro, 0x0, 0, 1, 0x0, false, .none⟩
  | .health_journal_readonly => ⟨.health, 0x0, 3, 3, .ro, 0x0, 0, 1, 0x0, false, .none⟩
  | .health_flash_unsupported => ⟨.health, 0x0, 4, 4, .ro, 0x0, 0, 1, 0x0, false, .none⟩
  | .health_clear_min => ⟨.health, 0x0, 5, 5, .w1s, 0x0, 0, 1, 0x0, false, .none⟩
  | .health_margin_period_s => ⟨.health, 0x4, 15, 0, .rw, 0x3c, 0, 1, 0x12, true, .none⟩
  | .health_hist_flush_s => ⟨.health, 0x4, 31, 16, .rw, 0xe10, 0, 1, 0x12, true, .none⟩
  | .health_hbm_width_min => ⟨.health, 0x8, 7, 0, .rw, 0x14, 0, 1, 0x12, true, .none⟩
  | .health_serdes_height_min => ⟨.health, 0x8, 15, 8, .rw, 0xc, 0, 1, 0x12, true, .none⟩
  | .health_slack_warn => ⟨.health, 0x8, 23, 16, .rw, 0x10, 0, 1, 0x12, true, .none⟩
  | .health_droop_mv => ⟨.health, 0x8, 31, 24, .rw, 0x32, 0, 1, 0x12, true, .none⟩
  | .health_journal_flush_ms => ⟨.health, 0xc, 15, 0, .rw, 0x64, 0, 1, 0x12, true, .none⟩
  | .health_health_vector => ⟨.health, 0xc, 26, 16, .rw, 0x0, 0, 1, 0x12, true, .none⟩
  | .health_events => ⟨.health, 0x10, 8, 0, .w1c, 0x0, 0, 1, 0x0, false, .none⟩
  | .health_event_mask => ⟨.health, 0x14, 8, 0, .rw, 0x1ff, 0, 1, 0x12, true, .none⟩
  | .health_die_sel => ⟨.health, 0x20, 5, 0, .rw, 0x0, 0, 1, 0x0, false, .none⟩
  | .health_margin_sel => ⟨.health, 0x20, 14, 8, .rw, 0x0, 0, 1, 0x0, false, .none⟩
  | .health_eye_width => ⟨.health, 0x24, 7, 0, .ro, 0x0, 0, 1, 0x0, false, .margin⟩
  | .health_eye_height_mv => ⟨.health, 0x24, 15, 8, .ro, 0x0, 0, 1, 0x0, false, .margin⟩
  | .health_min_width => ⟨.health, 0x24, 23, 16, .ro, 0x0, 0, 1, 0x0, false, .margin⟩
  | .health_low_count => ⟨.health, 0x24, 27, 24, .ro, 0x0, 0, 1, 0x0, false, .margin⟩
  | .health_temp_bin => ⟨.health, 0x200, 31, 0, .ro, 0x0, 4, 32, 0x0, false, .die⟩
  | .health_volt_bin => ⟨.health, 0x280, 31, 0, .ro, 0x0, 4, 32, 0x0, false, .die⟩
  | .health_input_bin => ⟨.health, 0x300, 31, 0, .ro, 0x0, 4, 22, 0x0, false, .none⟩
  | .health_spare_blocks => ⟨.health, 0x400, 15, 0, .ro, 0x0, 0, 1, 0x0, false, .none⟩
  | .health_retired_blocks => ⟨.health, 0x400, 31, 16, .ro, 0x0, 0, 1, 0x0, false, .none⟩
  | .health_erase_max => ⟨.health, 0x404, 15, 0, .ro, 0x0, 0, 1, 0x0, false, .none⟩
  | .health_erase_mean => ⟨.health, 0x404, 31, 16, .ro, 0x0, 0, 1, 0x0, false, .none⟩
  | .health_endurance => ⟨.health, 0x408, 31, 0, .ro, 0x0, 0, 1, 0x0, false, .none⟩
  | .health_wear_used_pct => ⟨.health, 0x40c, 7, 0, .ro, 0x0, 0, 1, 0x0, false, .none⟩
  | .health_spare_left_pct => ⟨.health, 0x40c, 15, 8, .ro, 0x0, 0, 1, 0x0, false, .none⟩
  | .health_PROGRAM_FAILS => ⟨.health, 0x410, 31, 0, .w1c, 0x0, 0, 1, 0x0, false, .none⟩
  | .health_ERASE_FAILS => ⟨.health, 0x414, 31, 0, .w1c, 0x0, 0, 1, 0x0, false, .none⟩
  | .health_READ_REFRESHES => ⟨.health, 0x418, 31, 0, .w1c, 0x0, 0, 1, 0x0, false, .none⟩
  | .health_READ_UNCORRECTABLE => ⟨.health, 0x41c, 31, 0, .w1c, 0x0, 0, 1, 0x0, false, .none⟩
  | .health_flash_temp_bin => ⟨.health, 0x420, 31, 0, .ro, 0x0, 4, 8, 0x0, false, .none⟩
  | .health_head_seq_lo => ⟨.health, 0x440, 31, 0, .ro, 0x0, 0, 1, 0x0, false, .none⟩
  | .health_head_seq_hi => ⟨.health, 0x444, 31, 0, .ro, 0x0, 0, 1, 0x0, false, .none⟩
  | .health_oldest_seq_lo => ⟨.health, 0x448, 31, 0, .ro, 0x0, 0, 1, 0x0, false, .none⟩
  | .health_oldest_seq_hi => ⟨.health, 0x44c, 31, 0, .ro, 0x0, 0, 1, 0x0, false, .none⟩
  | .health_JOURNAL_DROPS => ⟨.health, 0x450, 31, 0, .w1c, 0x0, 0, 1, 0x0, false, .none⟩
  | .health_held_bytes => ⟨.health, 0x454, 31, 0, .ro, 0x0, 0, 1, 0x0, false, .none⟩
  | .health_jr_seq_lo => ⟨.health, 0x460, 31, 0, .rw, 0x0, 0, 1, 0x0, false, .none⟩
  | .health_jr_seq_hi => ⟨.health, 0x464, 31, 0, .rw, 0x0, 0, 1, 0x0, false, .none⟩
  | .health_jr_status => ⟨.health, 0x468, 1, 0, .ro, 0x0, 0, 1, 0x0, false, .none⟩
  | .health_meter_tenant => ⟨.health, 0x500, 13, 0, .rw, 0x0, 0, 1, 0x0, false, .none⟩

/-- The fields of the sorrel block. -/
def Reg.ofSorrel : List Reg :=
  [.sorrel_default_deadline, .sorrel_contexts_free, .sorrel_pool_free, .sorrel_LATE_DISCARDS,
   .sorrel_TOMBSTONE_DISCARDS, .sorrel_UNDELIVERED, .sorrel_REFUSED, .sorrel_PARTIALS]

/-- The fields of the tier block. -/
def Reg.ofTier : List Reg :=
  [.tier_wb_idle, .tier_evict_idle, .tier_prefetch_en, .tier_prefetch_sketch,
   .tier_promote_en, .tier_promote_threshold, .tier_promote_pool_mib, .tier_quota_index,
   .tier_quota_tenant, .tier_sram_limit, .tier_sram_used, .tier_slot_limit,
   .tier_slot_used, .tier_merge_limit, .tier_merge_used, .tier_DUP_APPENDS,
   .tier_SEAL_WAITS, .tier_TAIL_EVICTIONS, .tier_PREFETCH_STALE]

/-- The fields of the dill block. -/
def Reg.ofDill : List Reg :=
  [.dill_lane_en, .dill_pool_en, .dill_operator_programs, .dill_programs_valid,
   .dill_contexts_resident, .dill_segment_limit_ns, .dill_longest_segment_ns, .dill_kt_index,
   .dill_kt_tenant, .dill_kt_any, .dill_kt_valid, .dill_kt_key_format,
   .dill_kt_value_format, .dill_kt_skip_mode, .dill_kt_program, .dill_SEGMENTS,
   .dill_SWITCHES, .dill_FAULTS, .dill_REFRESH_POSTPONED, .dill_POSTPONE_MAX,
   .dill_REFRESH_FORCED, .dill_SNAPSHOTS, .dill_snapshot_wait_max_ns, .dill_start_word,
   .dill_length_words, .dill_bound_ns, .dill_operator, .dill_valid]

/-- The fields of the mem block. -/
def Reg.ofMem : List Reg :=
  [.mem_profile_full, .mem_full_permitted, .mem_profile_pending, .mem_field_repair_en,
   .mem_stack_temp, .mem_refresh_rate, .mem_die_temp, .mem_temp_2x,
   .mem_temp_4x, .mem_temp_crit, .mem_hysteresis, .mem_sr_idle,
   .mem_patrol_period, .mem_throttle_level, .mem_pin_level, .mem_min_level,
   .mem_throttle_temp, .mem_power_limit, .mem_power_avg, .mem_retain_idle,
   .mem_bank_sel, .mem_bank_state, .mem_bank_request, .mem_bank_request_refused,
   .mem_bank_retired, .mem_spares_fused, .mem_spares_soft, .mem_CORRECTED,
   .mem_UNCORRECTABLE, .mem_SAME_WORD_BUSY, .mem_PATROL_REWRITES, .mem_THROTTLE_CHANGES,
   .mem_LOG_OVERFLOW, .mem_err_count, .mem_err_pop]

/-- The fields of the chive block. -/
def Reg.ofChive : List Reg :=
  [.chive_scrub_en, .chive_scrub_share, .chive_rebuilding_blocks, .chive_part_base,
   .chive_part_blocks, .chive_rows_used, .chive_overflowed, .chive_ot_used,
   .chive_ot_mib, .chive_SEARCHES, .chive_HITS, .chive_OVERFLOW_PROBES,
   .chive_CONFIRM_FAILS, .chive_SHADOW_CORRECTIONS, .chive_SCRUB_MISMATCH, .chive_UPDATES,
   .chive_MOVES, .chive_OVERFLOW_INSERTS, .chive_INSERT_REFUSED, .chive_REBUILDS]

/-- The fields of the fab block. -/
def Reg.ofFab : List Reg :=
  [.fab_port_mode, .fab_cell_mode, .fab_ipv4, .fab_vlan_en,
   .fab_forerunner_compat, .fab_link_up, .fab_endpoint_id, .fab_ethertype,
   .fab_udp_port, .fab_seg_code, .fab_retx_limit, .fab_replay_window,
   .fab_rto_init, .fab_rto_min, .fab_rto_max, .fab_ack_delay,
   .fab_keepalive_ms, .fab_dead_time_ms, .fab_quiet_time_ms, .fab_conn_onchip,
   .fab_conn_spilled, .fab_MACSEC_DROPS, .fab_MISDIRECTED, .fab_TAG_MISMATCH,
   .fab_CONFIG_REFUSED, .fab_DUPLICATES, .fab_OUT_OF_WINDOW, .fab_RETRANSMITS,
   .fab_CONN_FAILED, .fab_HELLO_REFUSED, .fab_SPILLS, .fab_FILLS,
   .fab_FILL_DROPS, .fab_PAUSE_DROPS, .fab_CE_MARKS, .fab_V0_FRAMES,
   .fab_FEC_CORRECTED, .fab_FEC_UNCORRECTED]

/-- The fields of the region block. -/
def Reg.ofRegion : List Reg :=
  [.region_regions_active, .region_REGISTERS, .region_REVOKES, .region_KEY_STALE_SEEN,
   .region_KEY_REVOKED_SEEN, .region_PD_REFUSED, .region_READS, .region_WRITES,
   .region_PAGE_REWRITES, .region_revoke_wait_max_ns]

/-- The fields of the ledger block. -/
def Reg.ofLedger : List Reg :=
  [.ledger_local_time_lo, .ledger_local_time_hi, .ledger_epoch_newest, .ledger_epoch_previous,
   .ledger_epoch_pending, .ledger_lease_us, .ledger_holder_wait_us, .ledger_epoch_wait_us,
   .ledger_pull_timeout_us, .ledger_dir_entries, .ledger_unit_state, .ledger_unit_generation,
   .ledger_inflight_previous, .ledger_PUBLISHES, .ledger_CONFLICTS, .ledger_RECALLS,
   .ledger_RECALL_TIMEOUTS, .ledger_REDIRECTS, .ledger_REROUTES, .ledger_EPOCH_OLD_SEEN,
   .ledger_STALE_UNIT_SEEN, .ledger_TRANSFERS_DONE, .ledger_TRANSFERS_ABORTED, .ledger_EXTENT_REVOKED,
   .ledger_LINES_LOST]

/-- The fields of the traffic block. -/
def Reg.ofTraffic : List Reg :=
  [.traffic_yellow_busy_level, .traffic_demote_class, .traffic_device_class, .traffic_credit_max,
   .traffic_credit_min, .traffic_prof_index, .traffic_cir_mbps, .traffic_cbs,
   .traffic_pir_mbps, .traffic_pbs, .traffic_min_class, .traffic_prof_enable,
   .traffic_pol_endpoint, .traffic_pol_profile, .traffic_eg_subport, .traffic_eg_class,
   .traffic_shape_mbps, .traffic_shape_burst, .traffic_quantum, .traffic_gl_subport,
   .traffic_gl_count, .traffic_gl_active_index, .traffic_gl_running, .traffic_gl_base_lo,
   .traffic_gl_base_hi, .traffic_gl_commit, .traffic_gl_pending, .traffic_gl_refused,
   .traffic_GREEN, .traffic_YELLOW, .traffic_RED, .traffic_YELLOW_BUSY,
   .traffic_QUEUE_FULL, .traffic_REMARKED, .traffic_GATE_SWITCHES, .traffic_gate_mask,
   .traffic_duration_ns]

/-- The fields of the ident block. -/
def Reg.ofIdent : List Reg :=
  [.ident_part_code, .ident_stepping, .ident_device_id, .ident_serial_lo,
   .ident_serial_hi]

/-- The fields of the port block. -/
def Reg.ofPort : List Reg :=
  [.port_link_speed, .port_link_width, .port_port_primary, .port_primary_pref,
   .port_max_speed, .port_fn_sel, .port_fn_tenant, .port_fn_pd,
   .port_fn_profile, .port_fn_ide_required, .port_fn_msix_count, .port_fn_endpoint,
   .port_COMMANDS, .port_NODE_WRITES_REFUSED, .port_LINK_RETRAINS]

/-- The fields of the fn block. -/
def Reg.ofFn : List Reg :=
  [.fn_fn_number, .fn_primary, .fn_tenant, .fn_protection_domain,
   .fn_ring_base_lo, .fn_ring_base_hi, .fn_ring_log2, .fn_ring_enable,
   .fn_ring_vector, .fn_coalesce_ns, .fn_win_key, .fn_win_enable,
   .fn_win_status, .fn_win_offset_lo, .fn_win_offset_hi, .fn_SLOT_BUSY_WRITES,
   .fn_DUP_FINALS, .fn_SEQ_REFUSED, .fn_WINDOW_REFUSED, .fn_POISONED_READS,
   .fn_slot_expected, .fn_slot_busy]

/-- The fields of the lov block. -/
def Reg.ofLov : List Reg :=
  [.lov_lovage_ok, .lov_is_primary, .lov_legacy_active, .lov_debug_locked,
   .lov_strap_legacy, .lov_primary_hub, .lov_primary_known, .lov_sessions_open,
   .lov_term, .lov_svn_lo, .lov_svn_hi, .lov_rekey_interval_s,
   .lov_ELECTIONS, .lov_ATTESTS, .lov_SESSION_FAILS, .lov_KX_DONE,
   .lov_KX_FAILURES, .lov_CRED_FAILS, .lov_LEGACY_AUTH_FAILS, .lov_alias_digest0,
   .lov_alias_digest1, .lov_alias_digest2, .lov_alias_digest3]

/-- The fields of the life block. -/
def Reg.ofLife : List Reg :=
  [.life_node_state, .life_bist_skipped, .life_crit_phase, .life_config_slot,
   .life_config_seq_lo, .life_config_seq_hi, .life_config_tag, .life_alt_tag,
   .life_class_sel, .life_class_digest, .life_lc_op, .life_lc_target,
   .life_lc_go, .life_lc_busy, .life_lc_status, .life_lc_progress,
   .life_slice_state, .life_substitute, .life_substituted, .life_hub_state,
   .life_serving_hub, .life_fw_sel, .life_fw_slot, .life_fw_staged,
   .life_bist_period_h, .life_DELTAS_APPLIED, .life_DELTAS_REFUSED, .life_FW_REVERTS,
   .life_TESTS_RUN, .life_TEST_FAILS, .life_TEST_POSTPONED, .life_CENSUS_OVERFLOW,
   .life_census_tag, .life_census_count, .life_census_endpoint, .life_census_valid]

/-- The fields of the health block. -/
def Reg.ofHealth : List Reg :=
  [.health_margin_en, .health_auto_retrain, .health_journal_ok, .health_journal_readonly,
   .health_flash_unsupported, .health_clear_min, .health_margin_period_s, .health_hist_flush_s,
   .health_hbm_width_min, .health_serdes_height_min, .health_slack_warn, .health_droop_mv,
   .health_journal_flush_ms, .health_health_vector, .health_events, .health_event_mask,
   .health_die_sel, .health_margin_sel, .health_eye_width, .health_eye_height_mv,
   .health_min_width, .health_low_count, .health_temp_bin, .health_volt_bin,
   .health_input_bin, .health_spare_blocks, .health_retired_blocks, .health_erase_max,
   .health_erase_mean, .health_endurance, .health_wear_used_pct, .health_spare_left_pct,
   .health_PROGRAM_FAILS, .health_ERASE_FAILS, .health_READ_REFRESHES, .health_READ_UNCORRECTABLE,
   .health_flash_temp_bin, .health_head_seq_lo, .health_head_seq_hi, .health_oldest_seq_lo,
   .health_oldest_seq_hi, .health_JOURNAL_DROPS, .health_held_bytes, .health_jr_seq_lo,
   .health_jr_seq_hi, .health_jr_status, .health_meter_tenant]

/-- The fields of a block. -/
def Reg.ofBlk : Blk → List Reg
  | .sorrel => Reg.ofSorrel
  | .tier => Reg.ofTier
  | .dill => Reg.ofDill
  | .mem => Reg.ofMem
  | .chive => Reg.ofChive
  | .fab => Reg.ofFab
  | .region => Reg.ofRegion
  | .ledger => Reg.ofLedger
  | .traffic => Reg.ofTraffic
  | .ident => Reg.ofIdent
  | .port => Reg.ofPort
  | .fn => Reg.ofFn
  | .lov => Reg.ofLov
  | .life => Reg.ofLife
  | .health => Reg.ofHealth

/-- Width of a field. -/
def Reg.width (r : Reg) : Nat := r.info.hi + 1 - r.info.lo

/-- Part codes. 14_host.md R339, 00_scope.md R1. -/
inductive Part where
  | p2TF | p2TE | p1TE
  deriving DecidableEq, Repr

/-- The code of a part. 14_host.md R339. -/
def Part.code : Part → Nat
  | .p2TF => 1
  | .p2TE => 2
  | .p1TE => 3

/-- Default Chive partitions: first block and blocks of class c. 09_chive.md R203. -/
def chivePart : Nat → Nat × Nat
  | 1 => (0x0000, 0x4000)
  | 2 => (0x4000, 0x2000)
  | 3 => (0x6000, 0x0800)
  | 4 => (0x6800, 0x0800)
  | 5 => (0x7000, 0x1000)
  | _ => (0, 0)

/-- The reset value of a field of an instance and entry, where it is not one number for all: the partitions of
R203, the overflow sizes of R217, kt_valid of entries 12 to 15 (R171), fn_number (R340), serving_hub (R396). -/
def Reg.reset (r : Reg) (inst idx : Nat) : Nat :=
  match r with
  | .chive_part_base => (chivePart (idx + 1)).1
  | .chive_part_blocks => (chivePart (idx + 1)).2
  | .chive_ot_mib => if idx = 0 ∨ idx = 4 then 0x40 else 0x10
  | .dill_kt_valid => if 12 ≤ idx then 1 else 0
  | .fn_fn_number => inst % 64
  | .life_serving_hub => idx
  | r => r.info.reset

end Sys2Proof.Machine
end

