-- ==== Sys2Proof/Machine/State.lean ====
section
/-!
DEFINITION. The state of the N4032: every register, table, queue, memory and pin the spec gives it, as plain data, and
the state after reset. Numbers of a stated width are kept as natural numbers; the operations that store them reduce
them to their widths.
-/
namespace Sys2Proof.Machine

/-- Reasons to stop with a fault. -/
inductive Fault where
  /-- Raised by VIN48_VALID alone: an input outside the part's limits, for which 00_scope.md R6 says that the device
  defines no behaviour. Safe: the model stops where the spec says nothing. -/
  | outsideLimits
  deriving DecidableEq, Repr

/-- Reasons to refuse a command. -/
inductive Refusal where
  /-- Raised by an arm of exec whose command has no meaning yet. Safe: nothing is claimed of it. -/
  | notModelled (mnemonic : String)
  deriving DecidableEq, Repr

/-- Status codes. 00_scope.md R10. -/
inductive Status where
  | ok | okBounded | partialMerge | busy | quota | notFound | closing | revoked | keyRevoked | keyStale | pdMismatch
  | bounds | reroute | redirect | epochOld | conflict | staleUnit | configMismatch | version | damaged | uncorrectable
  deriving DecidableEq, Repr, Inhabited

/-- The codes of R10. -/
def Status.code : Status → Nat
  | .ok => 0x00 | .okBounded => 0x01 | .partialMerge => 0x02 | .busy => 0x10 | .quota => 0x11 | .notFound => 0x20
  | .closing => 0x21 | .revoked => 0x22 | .keyRevoked => 0x23 | .keyStale => 0x24 | .pdMismatch => 0x25
  | .bounds => 0x26 | .reroute => 0x30 | .redirect => 0x31 | .epochOld => 0x32 | .conflict => 0x33
  | .staleUnit => 0x34 | .configMismatch => 0x40 | .version => 0x41 | .damaged => 0x50 | .uncorrectable => 0x51

/-- The statuses in the order of R10. -/
def Status.all : List Status :=
  [.ok, .okBounded, .partialMerge, .busy, .quota, .notFound, .closing, .revoked, .keyRevoked, .keyStale, .pdMismatch,
   .bounds, .reroute, .redirect, .epochOld, .conflict, .staleUnit, .configMismatch, .version, .damaged, .uncorrectable]

/-- The status a code names, if R10 lists it (R11). -/
def Status.ofCode (n : Nat) : Option Status := Status.all.find? fun s => decide (s.code = n)

/-- Opcodes of Plembel messages (10_fabric.md R229) and of command records (14_host.md R324). -/
inductive Opcode where
  | attend | append | bulkAppend | seal | partialRec | read | write | readResp | ledgerRead | ledgerPublish | recall
  | recallAck | ack | nack | hello | heartbeat | mgmt | snapshot
  deriving DecidableEq, Repr, Inhabited

/-- The codes of R229 and R324. -/
def Opcode.code : Opcode → Nat
  | .attend => 0x01 | .append => 0x02 | .bulkAppend => 0x03 | .seal => 0x04 | .partialRec => 0x08 | .read => 0x10
  | .write => 0x11 | .readResp => 0x12 | .ledgerRead => 0x18 | .ledgerPublish => 0x19 | .recall => 0x1A
  | .recallAck => 0x1B | .ack => 0x20 | .nack => 0x21 | .hello => 0x30 | .heartbeat => 0x31 | .mgmt => 0x38
  | .snapshot => 0x80

/-- All opcodes. -/
def Opcode.all : List Opcode :=
  [.attend, .append, .bulkAppend, .seal, .partialRec, .read, .write, .readResp, .ledgerRead, .ledgerPublish, .recall,
   .recallAck, .ack, .nack, .hello, .heartbeat, .mgmt, .snapshot]

/-- The opcode a code names; none for a reserved code. -/
def Opcode.ofCode (n : Nat) : Option Opcode := Opcode.all.find? fun o => decide (o.code = n)

/-- What holds a slot of page space. 06_append.md R138. -/
inductive SlotKind where
  | page | image | frag | chunkDir | chunk | tailRecord | tailDir | delta | buffer
  deriving DecidableEq, Repr, Inhabited

/-- What a use of SRAM is. 06_append.md R136, R138; 08_memory.md R445; 05_merge.md R105. -/
inductive SramKind where
  | tail | deltaCache | scratch | promotion | sealBuf
  /-- a fixed area's share that left a retired bank (08_memory.md R196) -/
  | area
  deriving DecidableEq, Repr, Inhabited

/-- Public instructions and the two private ones of a test access port. 18_package.md R442. -/
inductive TapInstr where
  | bypass | idcode | samplePreload | extest | clamp | highz | linktest | hbmloop
  deriving DecidableEq, Repr, Inhabited

/-! ## Shared small data -/

/-- One slot of page space that is in use. 06_append.md R129, R134. -/
structure SlotUse where
  /-- 4 KiB units held, from the slot's lpn upward (R29) -/
  units  : Nat
  /-- tenant charged (R138) -/
  tenant : Nat
  /-- what lies there -/
  kind   : SlotKind
  /-- generation of what lies there (02_pages.md R32, 03_sequences.md R52); a page's own header holds its own -/
  gen    : Nat
  deriving DecidableEq, Repr, Inhabited

/-- A page reference, one 128-bit word. 03_sequences.md R53. -/
structure PageRef where
  /-- lpn, 32 bits: slot address in page space in 4 KiB units -/
  lpn      : Nat
  /-- generation, 32 bits -/
  gen      : Nat
  /-- first_position, 24 bits -/
  firstPos : Nat
  /-- token_count, 8 bits -/
  tokens   : Nat
  /-- slot_class, 3 bits -/
  cls      : Nat
  deriving DecidableEq, Repr, Inhabited

/-- One 32-byte root of a fragment table with what its chunks hold. 03_sequences.md R52. -/
structure Root where
  /-- page references in position order; page_count is their number, and tail_state follows from `tails` and `images` -/
  refs       : List PageRef
  /-- chunk_dir: lpn of the chunk directory, which stands when there is a chunk -/
  chunkDir   : Nat
  /-- lpns of the chunks in order -/
  chunks     : List Nat
  deriving DecidableEq, Repr, Inhabited

/-- A tail's images in page space and the record that names them (tail_state 2 where the tail is not resident).
02_pages.md R36, 03_sequences.md R52. -/
structure TailImage where
  /-- tail record: lpn -/
  record : Nat
  /-- key image and value image: lpns -/
  key    : Nat
  value  : Nat
  /-- header copy, 64 bytes -/
  header : List Byte
  deriving DecidableEq, Repr, Inhabited, Inhabited

/-- The 16-byte sequence entry a slice keeps for a descriptor. 03_sequences.md R52. -/
structure SeqEntry where
  /-- fragment table: page-space address; there is none where the generation is 0, which nothing placed has (02_pages.md R32) -/
  frag     : Nat
  /-- its generation, 32 bits -/
  fragGen  : Nat
  /-- delta share: page-space address; there is none where the generation is 0 -/
  delta    : Nat
  /-- its generation, 32 bits -/
  deltaGen : Nat
  deriving DecidableEq, Repr, Inhabited

/-- An anchor entry. 03_sequences.md R54. -/
structure Anchor where
  /-- start, 24 bits -/
  start : Nat
  /-- len_m1, 8 bits -/
  lenM1 : Nat
  deriving DecidableEq, Repr, Inhabited

/-- The states of a descriptor. 03_sequences.md R50. -/
inductive DescState where
  | free | active | draining | transfer | dropping
  deriving DecidableEq, Repr, Inhabited

/-- The change a DRAINING sequence waits to take. 03_sequences.md R59. -/
inductive DrainOp where
  | truncate (p : Nat)
  | pattern (window : Nat) (anchors : List Anchor)
  | drop
  deriving DecidableEq, Repr

/-- A sequence descriptor core. 03_sequences.md R50. -/
structure Desc where
  /-- key_format, 8 bits -/
  keyFormat   : Nat
  /-- value_format, 8 bits -/
  valFormat   : Nat
  /-- t_code, 2 bits -/
  tCode       : Nat
  /-- d_code, 3 bits -/
  dCode       : Nat
  /-- state, 3 bits -/
  state       : DescState
  /-- anchor entries in use, at most 64 of 32 bits -/
  anchors     : List Anchor
  /-- handle, 64 bits -/
  handle      : Nat
  /-- tenant, 16 bits -/
  tenant      : Nat
  /-- layers, 16 bits -/
  layers      : Nat
  /-- kv_heads, 16 bits -/
  kvHeads     : Nat
  /-- length, 32 bits -/
  length      : Nat
  /-- generation, 32 bits -/
  gen         : Nat
  /-- owner, 24 bits -/
  owner       : Nat
  /-- owner_generation, 32 bits -/
  ownerGen    : Nat
  /-- window, 24 bits -/
  window      : Nat
  /-- stripe order of R55 (stripe_mask from stripe_base; stripe_width is its length) -/
  stripe      : List Nat
  /-- inflight, 32 bits -/
  inflight    : Nat
  /-- base_handle, 64 bits -/
  baseHandle  : Nat
  /-- delta_tokens, 24 bits -/
  deltaTokens : Nat
  /-- the delta binding held, 0 for none (delta_bound, R68) -/
  binding     : Nat
  /-- model's: the change waiting for inflight to reach zero, and the message to answer (R59) -/
  drain       : Option (DrainOp × Nat)
  deriving DecidableEq, Repr, Inhabited

/-- One entry of a tail directory. 06_append.md R125. -/
structure TailDir where
  /-- held_end, 25 bits -/
  heldEnd : Nat
  /-- claim, 1 bit -/
  claim   : Bool
  /-- tail_index, 24 bits -/
  index   : Nat
  /-- frozen, 2 bits -/
  frozen  : Nat
  deriving DecidableEq, Repr, Inhabited

/-- A tail page resident in slice SRAM; its 64-byte header and its rows lie in `mem` at `base`.
06_append.md R127, 02_pages.md R34. -/
structure Tail where
  /-- slice that holds it -/
  slice   : Nat
  /-- node address of its header in slice SRAM -/
  base    : Nat
  /-- dirty bitmap, T bits -/
  dirty   : List Bool
  /-- frozen and not yet committed (R128) -/
  frozen  : Bool
  /-- local time of the latest row (R131) -/
  lastRow : Nat
  deriving DecidableEq, Repr, Inhabited

/-- A page waiting for its slice's seal unit. 02_pages.md R41, R43; 06_append.md R128, R129. -/
structure SealItem where
  /-- slice of the seal unit -/
  slice    : Nat
  /-- descriptor index -/
  desc     : Nat
  /-- layer -/
  layer    : Nat
  /-- KV head -/
  kv       : Nat
  /-- page index (R55) -/
  page     : Nat
  /-- true: a frozen tail; false: a page in the seal buffer (R128) -/
  fromTail : Bool
  /-- seal buffer: the BF16 key rows then value rows; empty for a tail -/
  rows     : List Byte
  /-- first position -/
  firstPos : Nat
  /-- tokens held -/
  tokens   : Nat
  /-- writer-supplied content key (keyed = 1), if any -/
  key      : Option Nat
  /-- units reserved for its slot and structures (R129) -/
  resv     : Nat
  /-- message that answers after this seal, 0 for none -/
  waiter   : Nat
  /-- set aside for want of a slot, or because a word of its tail cannot be read (R43, 08_memory.md R181) -/
  aside    : Bool
  /-- set aside: local time of the latest try, and the slots of the tenant that the slice had freed by then (R129) -/
  tried    : Nat
  frees    : Nat
  deriving DecidableEq, Repr, Inhabited

/-- A queued ref_count change. 03_sequences.md R60. -/
structure RefChange where
  /-- slot of the page -/
  lpn : Nat
  /-- generation the change expects -/
  gen : Nat
  /-- true: increment; false: decrement -/
  inc : Bool
  deriving DecidableEq, Repr, Inhabited

/-- One block of a delta share. 03_sequences.md R67, R68. -/
structure DeltaBlock where
  layer : Nat
  kv    : Nat
  page  : Nat
  /-- slice that holds the block -/
  slice : Nat
  /-- the base page referenced -/
  base  : PageRef
  /-- block header and coded residual as read from the stream -/
  bytes : List Byte
  deriving DecidableEq, Repr, Inhabited

/-- A delta binding, shared by forks. 03_sequences.md R68, R69. -/
structure Binding where
  tenant       : Nat
  prefixTokens : Nat
  variantTag   : Nat
  blocks       : List DeltaBlock
  /-- descriptors that hold the binding -/
  holders      : List Nat
  /-- damaged-block map: (layer, KV head, page) -/
  damaged      : List (Nat × Nat × Nat)
  deriving DecidableEq, Repr, Inhabited

/-! ## Records and merges -/

/-- A partial record. 04_attend.md R91. -/
structure Rec where
  /-- query_head, 16 bits -/
  head    : Nat
  m       : F32
  l       : F32
  b       : F32
  /-- tokens_scanned, 32 bits -/
  scanned : Nat
  /-- pages_skipped, 32 bits -/
  skipped : Nat
  /-- D output values, FP32 inside the node -/
  o       : List F32
  saturated : Bool
  empty     : Bool
  bounded   : Bool
  toppages  : Bool
  deriving DecidableEq, Repr, Inhabited

/-- A failure of a scan: status, KV head and position. 04_attend.md R93. -/
structure ScanFail where
  status : Status
  kv     : Nat
  pos    : Nat
  deriving DecidableEq, Repr, Inhabited

/-- What a slice, quadrant or contributor reports: records or a failure. -/
structure Report where
  fails : List ScanFail
  recs  : List Rec
  deriving DecidableEq, Repr, Inhabited

/-- A quadrant's chain for one request. 05_merge.md R103, R104, R108, R444. -/
structure QuadChain where
  /-- quadrant of origin -/
  quad   : Nat
  /-- hub that keeps the chain -/
  hub    : Nat
  /-- slice reports in order of arrival -/
  slices : List (Nat × Report)
  /-- sent to the ingress hub -/
  closed : Bool
  /-- local time at its hub at which it closes (R108) -/
  closeAt : Nat
  deriving DecidableEq, Repr, Inhabited

/-- A merge context of an ingress hub with its quadrant chains. 05_merge.md R105 to R109. -/
structure MergeCtx where
  /-- the ATTEND message it answers -/
  msg      : Nat
  hub      : Nat
  tenant   : Nat
  desc     : Nat
  /-- the snapshot of the descriptor that every slice scans by (03_sequences.md R58) -/
  snap     : Desc
  /-- deadline duration D of R107, ns -/
  durNs    : Nat
  /-- local time of the ingress hub at which the deadline passes -/
  deadline : Nat
  arrival  : Bool
  /-- records of a set and their width, for the pool reservation of R105 -/
  nRecs    : Nat
  dim      : Nat
  chains   : List QuadChain
  /-- quadrants expected (R109) -/
  expected : List Nat
  /-- quadrant records present, in order of arrival: quadrant, slice bitmap, report -/
  quads    : List (Nat × Nat × Report)
  deriving DecidableEq, Repr, Inhabited

/-- A slice's part of a merge that has not run: it waits for a FREE command slot, or in one for the lane engine.
07_dill.md R142, R146. -/
structure HeldScan where
  ctx   : Nat
  /-- slice whose pages it scans -/
  slice : Nat
  /-- slice whose lanes run it: itself or its substitute -/
  die   : Nat
  /-- its command slot -/
  slot  : Option Nat
  deriving DecidableEq, Repr, Inhabited

/-- Something on its way over the hub links of one merge. -/
inductive InFlight where
  /-- a slice's record set to the hub that keeps its chain (R103, R444) -/
  | slice (ctx : Nat) (slice : Nat) (r : Report)
  /-- a quadrant record to the ingress hub (R109): quadrant, slice bitmap, ingress hub -/
  | quad (ctx : Nat) (quad : Nat) (bitmap : Nat) (hub : Nat) (r : Report)
  deriving DecidableEq, Repr

/-- One contribution present in a group. 05_merge.md R112, R113. -/
structure Contribution where
  endpoint : Nat
  status   : Status
  bitmap   : Nat
  failKv   : Nat
  failPos  : Nat
  recs     : List Rec
  deriving DecidableEq, Repr, Inhabited

/-- An open merge group. 05_merge.md R113 to R116. -/
structure Group where
  hub      : Nat
  key      : GroupKey
  count    : Nat
  durNs    : Nat
  deadline : Nat
  arrival  : Bool
  /-- out_fp32, D, record_count and query heads of the first contribution with records -/
  shape    : Option (Bool × Nat × List Nat)
  parts    : List Contribution
  deriving DecidableEq, Repr, Inhabited

/-- A tombstone of a closed group. 05_merge.md R115. -/
structure Tombstone where
  hub   : Nat
  key   : GroupKey
  until_ : Nat
  deriving DecidableEq, Repr, Inhabited

/-! ## Messages -/

/-- Where a request came from, and where its answer goes. 01_node.md R19, 14_host.md R319. -/
inductive Origin where
  /-- connection index at a hub, seq of the request's first segment -/
  | conn (hub : Nat) (idx : Nat) (seq : Nat)
  /-- port, function, command slot -/
  | pcie (port fn slot : Nat)
  /-- the device's own work -/
  | device
  deriving DecidableEq, Repr, Inhabited

/-- How far a message has come. -/
inductive Phase where
  /-- in the queue; its handler has not started -/
  | arrived
  /-- order 9 waits for a ledger line to be read (12_ledger.md R279, R286) -/
  | waitLine (line : Nat)
  /-- waits for its map epoch to be adopted (R291) -/
  | waitEpoch
  /-- a PCIe command waits for its payload (14_host.md R327) -/
  | waitPayload
  /-- an ATTEND waits for its merge context -/
  | waitMerge (ctx : Nat)
  /-- a contributor waits for the merge point's answer (R114) -/
  | waitContrib
  /-- a truncate, pattern or drop waits for its sequence to drain (R59) -/
  | waitDrain (desc : Nat)
  /-- waits for n seals to commit (R128, R129) -/
  | waitSeals (n : Nat)
  /-- a fork waits for frozen tails (R61) -/
  | waitFork
  /-- waits for a region entry to leave REVOKING (R263, R264) -/
  | waitRevoke (index : Nat)
  /-- waits at a line that is PUBLISHING or ARRIVING (R277, R293) -/
  | waitHome (line : Nat)
  /-- waits for a snapshot copy (07_dill.md R169) -/
  | waitSnapshot (id : Nat)
  /-- waits for space: an ATTEND or another issuer holds (R146), or a fault-free retry -/
  | waitSlot
  /-- a configuration delta waits for its commit (16_lifecycle.md R374) -/
  | waitCommit
  deriving DecidableEq, Repr, Inhabited

/-- Policer colours. 13_traffic.md R302. -/
inductive Colour where
  | green | yellow | red
  deriving DecidableEq, Repr, Inhabited

/-- A message or command that has been handed to the node and has not completed. -/
structure Msg where
  /-- ingress hub (R19) -/
  hub      : Nat
  origin   : Origin
  opcode   : Opcode
  /-- RESP flag -/
  resp     : Bool
  /-- reply_to of a response -/
  replyTo  : Nat
  /-- sending endpoint, or fn_endpoint (R319) -/
  endpoint : Nat
  tenant   : Nat
  pd       : Nat
  /-- traffic class of the answer (R304, R306) -/
  cls      : Nat
  colour   : Colour
  epoch    : Nat
  /-- payload bytes; big-endian from the wire, little-endian from PCIe (R7) -/
  be       : Bool
  payload  : List Byte
  /-- carried on a version-0 connection (R235) -/
  v0       : Bool
  phase    : Phase
  /-- local time of arrival at the ingress hub; of a FORK or SEAL that waits, the time at which its handler started (R61, R129) -/
  at_      : Nat
  /-- the package result a contributor or BULK_APPEND holds until it is answered -/
  held     : List Rec
  /-- reassembly space its segments hold until its handler starts, in 4 KiB units (13_traffic.md R314) -/
  units    : Nat
  /-- held status, slice bitmap, failing KV head and position, pages sealed -/
  heldSt   : Status
  heldMap  : Nat
  heldKv   : Nat
  heldPos  : Nat
  /-- PCIe: the record's interrupt bit, ring, payload_length, response_length, response_addr, tag, slot_seq, fence, arg0, arg1 -/
  irq      : Bool
  ring     : Nat
  payLen   : Nat
  respLen  : Nat
  respAddr : Nat
  tag      : Nat
  slotSeq  : Nat
  fence    : Bool
  arg0     : Nat
  arg1     : Nat
  deriving DecidableEq, Repr, Inhabited

/-! ## Connections -/

/-- A Plembel frame's header fields and payload. 10_fabric.md R227, R228. -/
structure Frame where
  version  : Nat
  loadHint : Nat
  opcode   : Nat
  flags    : Nat
  src      : Nat
  cls      : Nat
  dst      : Nat
  connId   : Nat
  seq      : Nat
  ack      : Nat
  tag      : Nat
  epoch    : Nat
  pd       : Nat
  credit   : Nat
  payLen   : Nat
  segIndex : Nat
  segCount : Nat
  replyTo  : Nat
  payload  : List Byte
  deriving DecidableEq, Repr, Inhabited

/-- A segment a sender retains. 10_fabric.md R239. -/
structure SentSeg where
  seq    : Nat
  frame  : Frame
  /-- first or latest sending, local time -/
  sentAt : Nat
  /-- waits at the egress scheduler -/
  queued : Bool
  /-- taken by the egress scheduler at least once -/
  sent   : Bool
  /-- covered by a SACK block -/
  sacked : Bool
  /-- retransmitted by SACK within the present rto -/
  fast   : Bool
  /-- retransmitted at all (no round-trip sample) -/
  again  : Bool
  deriving DecidableEq, Repr, Inhabited

/-- A request the node sent and has no response to. 10_fabric.md R236, R242. -/
structure Ask where
  /-- sequence number of its first segment; before it is sent, none -/
  seq     : Option Nat
  op      : Opcode
  /-- message, line or handle it is about -/
  about   : Nat
  payload : List Byte
  deriving DecidableEq, Repr, Inhabited, Inhabited

/-- States of a connection. 10_fabric.md R236, R245. -/
inductive ConnState where
  | opening | open_ | closing | failed
  deriving DecidableEq, Repr, Inhabited

/-- A connection record, on chip or spilled. 10_fabric.md R236 to R246. -/
structure Conn where
  hub        : Nat
  /-- connection_id, 32 bits -/
  id         : Nat
  /-- peer_endpoint, 24 bits -/
  peer       : Nat
  state      : ConnState
  /-- this node opened it -/
  opener     : Bool
  version    : Nat
  /-- seg_code, 4 bits -/
  segCode    : Nat
  tenant     : Nat
  pd         : Nat
  /-- own isn and the peer's isn (R233, R234) -/
  isn        : Nat
  peerIsn    : Nat
  sndNext    : Nat
  sndUna     : Nat
  rcvNext    : Nat
  peerCredit : Nat
  ownCredit  : Nat
  srtt       : Nat
  rttvar     : Nat
  rto        : Nat
  timeouts   : Nat
  lastRx     : Nat
  /-- peer_mac, peer_ip, peer_udp_port as one value (R222, R245) -/
  peerAddr   : Nat
  /-- true on chip, false in the spill arena (R244) -/
  onChip     : Bool
  /-- its record's number among its hub's: bits [18:0] of its state index, and its place in the arena (R244) -/
  slot       : Nat
  /-- model's: order of last use (R246) -/
  lastUse    : Nat
  /-- retained segments: the send ring -/
  ring       : List SentSeg
  /-- requests this node sent on it, or will send once it opens, without a response -/
  asked      : List Ask
  /-- received segments not yet handed to a handler: the reassembly space -/
  reasm      : List Frame
  /-- fate of a refused message: sequence numbers from, to (R230) -/
  refused    : List (Nat × Nat)
  /-- class, colour and phase decided at a message's first segment, by its sequence number -/
  passed     : List (Nat × Nat × Colour × Phase)
  /-- arrivals not yet acknowledged, and the local time of the first of them (R238) -/
  unacked    : Nat
  ackDue     : Option Nat
  closeSent  : Bool
  closeRcvd  : Bool
  /-- ack plus credit last sent: the edge of R314 -/
  edge       : Nat
  /-- local time of the last HEARTBEAT a stop by credit caused (R240) -/
  hbAt       : Nat
  /-- own endpoint: that of the port group the connection was opened on (R221) -/
  own        : Nat
  /-- the HELLO response it was opened with, for a repeated HELLO (R234) -/
  helloAns   : List Byte
  /-- the peer's local time in its last HEARTBEAT, logged for correlation only (R241) -/
  peerTime   : Option Nat
  deriving DecidableEq, Repr, Inhabited

/-- A MACsec secure association. 10_fabric.md R223, R224. -/
structure SecAssoc where
  an   : Nat
  /-- short secure channel identifier: 1 for what the lower MAC address sends, 2 for the other side (R358) -/
  ssci : Nat
  /-- SAK and salt as derived by R358 -/
  key  : List Byte
  /-- next packet number to send, or lowest acceptable -/
  pn   : Nat
  deriving DecidableEq, Repr, Inhabited

/-- The key exchange of a sub-port. 15_trust.md R356 to R359. -/
structure Kx where
  /-- xid of the exchange in progress, and of the last installed -/
  xid       : Nat
  installed : Nat
  running   : Bool
  /-- KX1 sent in this exchange, and the peer's KX1 -/
  sent      : List Byte
  peer      : List Byte
  /-- own ephemeral private key -/
  priv      : List Byte
  /-- KX1 repeats so far -/
  tries     : Nat
  kx2Sent   : Bool
  kx2Valid  : Bool
  /-- local time of the latest KX1, or of the failure; and whether the last exchange failed -/
  at_       : Nat
  failed    : Bool
  deriving DecidableEq, Repr, Inhabited

/-- One sub-port of a fabric port. 10_fabric.md R218, R223. -/
structure SubPort where
  /-- the link is up -/
  link    : Bool
  /-- it is up and its first key is installed (R224, 15_trust.md R358) -/
  up      : Bool
  /-- its packet number reached 2^62: it sends nothing and reports the link down until its next key (R224) -/
  spent   : Bool
  /-- partner's and own MAC address -/
  mac     : Nat
  peerMac : Nat
  tx      : Option SecAssoc
  rx      : Option SecAssoc
  rxOld   : Option SecAssoc
  /-- local times of the last install for sending and for receiving (15_trust.md R359) -/
  keyAt   : Nat
  rxAt    : Nat
  kx      : Kx
  deriving DecidableEq, Repr, Inhabited

/-! ## Traffic -/

/-- A policer entry: tc, tp in 1/8 bytes, local time of its last refill in µs. 13_traffic.md R302. -/
structure Policer where
  tc : Nat
  tp : Nat
  at_ : Nat
  /-- colour of the peer's last metered message, and the wait of a red one in µs (R312) -/
  last : Colour
  wait : Nat
  deriving DecidableEq, Repr, Inhabited

/-- A segment that waits for the egress scheduler. 13_traffic.md R306. -/
structure EgSeg where
  hub   : Nat
  cls   : Nat
  /-- connection record, 0 for an answer without a connection -/
  conn  : Nat
  /-- peer address -/
  peer  : Nat
  frame : Frame
  deriving DecidableEq, Repr, Inhabited

/-- Scheduler state of one class of a sub-port. 13_traffic.md R307, R308. -/
structure EgClass where
  count   : Int
  deficit : Nat
  deriving DecidableEq, Repr, Inhabited

/-- Gate lists of a sub-port. 13_traffic.md R310, R311. -/
structure Gates where
  /-- running list: mask and duration of each entry; empty for none -/
  run     : List (Nat × Nat)
  index   : Nat
  /-- local time at which the current entry began -/
  since   : Nat
  /-- committed pending list with its base time -/
  pend    : Option (List (Nat × Nat) × Nat)
  deriving DecidableEq, Repr, Inhabited

/-! ## Ledger -/

/-- What completes a publish in progress, or a pull by a new home. 12_ledger.md R277, R287, R288, R293. -/
inductive PubKind where
  | plain | commit | abort | pull
  deriving DecidableEq, Repr, Inhabited

/-- A publish in progress. 12_ledger.md R277. -/
structure Publish where
  /-- message to answer, 0 for the home's own abort -/
  msg     : Nat
  /-- local time of the home at which the recalls went out -/
  at_     : Nat
  kind    : PubKind
  content : List Byte
  /-- sharers whose RECALL_ACK is missing -/
  waiting : List Nat
  deriving DecidableEq, Repr, Inhabited

/-- States of a directory entry. 12_ledger.md R273. -/
inductive DirState where
  | valid | publishing | arriving
  deriving DecidableEq, Repr, Inhabited

/-- A directory entry. 12_ledger.md R273. -/
structure DirEntry where
  hub       : Nat
  /-- place in the directory -/
  index     : Nat
  lineId    : Nat
  state     : DirState
  homeEpoch : Nat
  version   : Nat
  /-- sharers as pointers; `coarse` holds cell bits once a ninth came -/
  sharers   : List Nat
  coarse    : Bool
  cells     : List Nat
  grantTime : Nat
  leaseEnd  : Nat
  content   : List Byte
  pub       : Option Publish
  deriving DecidableEq, Repr, Inhabited

/-- A copy of a ledger line at this node. 12_ledger.md R274. -/
structure LineCopy where
  version : Nat
  content : List Byte
  /-- a leased copy's end on the local time of the hub that read it; none for a holder copy -/
  lease   : Option (Nat × Nat)
  deriving DecidableEq, Repr, Inhabited

/-- States of an extent. 12_ledger.md R282. -/
inductive ExtState where
  | free | assigned | closing
  deriving DecidableEq, Repr, Inhabited

/-- A slice's view of an extent. 12_ledger.md R282, R283. -/
structure Extent where
  state    : ExtState
  tenant   : Nat
  gen      : Nat
  drainUs  : Nat
  /-- local time of the slice's home hub at which drain_us has passed; 0 when not closing -/
  drainEnd : Nat
  /-- the scrub of step 6 of R283 runs -/
  scrubbing : Bool
  deriving DecidableEq, Repr, Inhabited

/-- A composition map held by the node. 12_ledger.md R290. -/
structure CompMap where
  /-- bucket to (endpoint, hub) -/
  buckets : Assoc Nat (Nat × Nat)
  /-- node endpoint to (pool, state) -/
  members : Assoc Nat (Nat × Nat)
  /-- parts read so far, of 1 to 768 -/
  parts   : List Nat
  deriving DecidableEq, Repr, Inhabited

/-- Unit states. 12_ledger.md R297, R299. -/
inductive UnitState where
  | inService | quarantined | verifying
  deriving DecidableEq, Repr, Inhabited

/-- A registered region. 11_remote_access.md R250. -/
structure Region where
  /-- state: 0 FREE, 1 ACTIVE, 2 REVOKING -/
  state    : Nat
  kind     : Nat
  read     : Bool
  write    : Bool
  named    : Bool
  gen      : Nat
  tenant   : Nat
  pd       : Nat
  inflight : Nat
  prio     : Nat
  target   : Nat
  name     : Nat
  layerFirst : Nat
  layerCount : Nat
  kvFirst  : Nat
  kvCount  : Nat
  pageFirst : Nat
  pageCount : Nat
  length   : Nat
  seqGen   : Nat
  /-- order in which the index became FREE (R250) -/
  freedAt  : Nat
  /-- local time at which the entry became REVOKING, and the hub whose time it is (R267) -/
  revokedAt : Nat
  revHub   : Nat
  /-- messages waiting for the revocation, and the REREGISTER in progress: record, message,
  whether its fields are big-endian -/
  waiters  : List Nat
  reReg    : Option (List Byte × Nat × Bool)
  /-- a transfer region: its pages in page order and the descriptor core (12_ledger.md R287) -/
  xfer     : Bool
  deriving DecidableEq, Repr, Inhabited

/-! ## Chive -/

/-! ## Dill -/

/-- States of a command slot. 07_dill.md R144. -/
inductive CmdState where
  | free | queued | running | yielded | done | fault
  deriving DecidableEq, Repr, Inhabited

/-- A Dill command slot. 07_dill.md R144. -/
structure CmdSlot where
  kind     : Nat
  program  : Nat
  cls      : Nat
  state    : CmdState
  tenant   : Nat
  laneMask : Nat
  tag      : Nat
  status   : Nat
  faultCode : Nat
  faultPc  : Nat
  segments : Nat
  windows  : List Window
  params   : Assoc Nat (BitVec 32)
  results  : Assoc Nat (BitVec 32)
  /-- model's: order of waiting (R147) -/
  since    : Nat
  deriving DecidableEq, Repr, Inhabited

/-- An outstanding VLD. 07_dill.md R155. -/
structure Load where
  buf   : Nat
  off   : Nat
  len   : Nat
  addr  : Nat
  crc   : Bool
  deriving DecidableEq, Repr, Inhabited

/-- One lane. 07_dill.md R143, R154. -/
structure Lane where
  s      : Assoc Nat (BitVec 32)
  a      : Assoc Nat (BitVec 48)
  lc     : Assoc Nat Nat
  crc    : BitVec 32
  /-- the bytes of PB0 and PB1 that a load has written since the last YIELD -/
  pb     : Assoc (Nat × Nat) Byte
  /-- QB, ZB, OB as bytes; a byte not listed is zero -/
  qb     : Assoc Nat Byte
  zb     : Assoc Nat Byte
  ob     : Assoc Nat Byte
  geom   : BitVec 32
  /-- the active bit (R154) -/
  active : Bool
  loads  : List Load
  deriving DecidableEq, Repr, Inhabited

/-- An open loop: counter, first instruction of the body, iterations left. 07_dill.md R154. -/
structure LoopFrame where
  lc    : Nat
  start : Nat
  left  : Nat
  deriving DecidableEq, Repr, Inhabited

/-- What a command's switch saves. 07_dill.md R143, R159. -/
structure SavedCtx where
  pc    : Nat
  loops : List LoopFrame
  lanes : Assoc Nat Lane
  deriving DecidableEq, Repr, Inhabited

/-- The Dill sequencer of a slice. 07_dill.md R142 to R147. -/
structure Dill where
  slots   : Assoc Nat CmdSlot
  /-- command slot the lane engine runs -/
  cur     : Option Nat
  pc      : Nat
  loops   : List LoopFrame
  lanes   : Assoc Nat Lane
  saved   : Assoc Nat SavedCtx
  /-- a lane segment runs (R161) -/
  segment : Bool
  /-- a throttle pause holds the next segment until this local time (R189) -/
  pause   : Option Nat
  /-- lane segments since a background command last ran (R147) -/
  sinceBg : Nat
  /-- pool command and the bytes done of it -/
  pool    : Option Nat
  poolDone : Nat
  /-- the pool engine is inside a chunk -/
  chunk   : Bool
  /-- order counter for waiting (R147) -/
  clock   : Nat
  /-- local time at which the running segment began (R171) -/
  segAt   : Nat
  deriving DecidableEq, Repr, Inhabited

/-- A program-table entry. 07_dill.md R148, R171. -/
structure Prog where
  start : Nat
  len   : Nat
  bound : Nat
  operator : Bool
  deriving DecidableEq, Repr, Inhabited

/-- A fence with its snapshot. 07_dill.md R169. -/
structure Snapshot where
  /-- die of the range -/
  slice : Nat
  /-- a range of page space: the lpn of its page or unit; none for SRAM and stack windows -/
  lpn   : Option Nat
  /-- offset in the page or unit; node address elsewhere -/
  base  : Nat
  len   : Nat
  msg   : Nat
  /-- index of the region the access counts in -/
  region : Nat
  /-- fence raised (at most 4 in a slice) -/
  raised : Bool
  /-- local time at which the fence was asked for (R171) -/
  since : Nat
  deriving DecidableEq, Repr, Inhabited

/-! ## Memory -/

/-- SRAM in use: first 4 KiB unit, count, tenant charged. 06_append.md R137, R138; 08_memory.md R445. -/
structure SramUse where
  die    : Nat
  unit   : Nat
  count  : Nat
  tenant : Nat
  deriving DecidableEq, Repr, Inhabited

/-- Bank states. 08_memory.md R192. -/
inductive BankState where
  | off | retain | on
  deriving DecidableEq, Repr, Inhabited

/-- An SRAM bank. 08_memory.md R192, R193, R196. -/
structure Bank where
  state   : BankState
  /-- 0 automatic, 1 force ON, 2 force RETAIN, 3 force OFF -/
  request : Nat
  retired : Bool
  /-- bit-columns replaced by fuse, and by soft repair (at most 8 in all) -/
  fused   : List Nat
  soft    : List Nat
  /-- a forced RETAIN waits for the segment's yield -/
  retainDue : Bool
  deriving DecidableEq, Repr, Inhabited

/-- An error-log record. 08_memory.md R184. -/
structure ErrRec where
  cls      : Nat
  unc      : Bool
  nibble   : Nat
  syndrome : Nat
  die      : Nat
  reader   : Nat
  address  : Nat
  time     : Nat
  deriving DecidableEq, Repr, Inhabited

/-- The stack controller of a slice. 07_dill.md R161, R162; 08_memory.md R185 to R188. -/
structure Stack where
  /-- refresh rate: 0 1×, 1 2×, 2 4× -/
  rate      : Nat
  temp      : Int
  /-- refreshes postponed: (pseudo-channel, bank) to count -/
  postponed : Assoc (Nat × Nat) Nat
  /-- next row pair to refresh of a bank -/
  rows      : Assoc (Nat × Nat) Nat
  /-- pseudo-channels in self-refresh -/
  selfRef   : List Nat
  crit      : Bool
  deriving DecidableEq, Repr, Inhabited

/-! ## Host ports -/

/-- A command slot of a function. 14_host.md R326. -/
structure HostSlot where
  expected : Nat
  busy     : Bool
  /-- bytes written to the slot: record body and inline payload -/
  body     : Assoc Nat Byte
  deriving DecidableEq, Repr, Inhabited

/-- A completion ring. 14_host.md R329, R331. -/
structure Ring where
  index   : Nat
  phase   : Bool
  /-- local time of the last MSI-X message of the ring; none before the first -/
  lastMsg : Option Nat
  /-- a message is held back by coalescing -/
  held    : Bool
  deriving DecidableEq, Repr, Inhabited

/-- An IDE stream's keys. 15_trust.md R360. -/
structure IdeKey where
  port   : Nat
  stream : Nat
  sub    : Nat
  set    : Nat
  key    : List Byte
  deriving DecidableEq, Repr, Inhabited

/-! ## Trust -/

/-- A Lovage's election state. 15_trust.md R342, R344. -/
structure Lovage where
  booted    : Bool
  term      : Nat
  primary   : Option Nat
  isPrimary : Bool
  /-- term in which it last voted -/
  voted     : Nat
  /-- candidacies received of the present term -/
  cands     : List Nat
  /-- waits to vote (100 µs from the first CANDIDATE) -/
  waiting   : Bool
  standing  : Bool
  votes     : List Nat
  /-- waits its hub number × 1 ms before it stands again -/
  backoff   : Bool
  /-- secrets in the key unit: UDS, CDI, DeviceID seed between the latch and the erasure of a boot (R344) -/
  keyUnit   : List (List Byte)
  /-- alias_seed, store_key, lfw and security version of the firmware that runs (R345) -/
  aliasSeed : List Byte
  storeKey  : List Byte
  lfw       : List Byte
  svn       : Nat
  /-- what the ROM issued at step 4: the alias certificate and the compact endorsement (R346) -/
  aliasCert : List Byte
  endorse   : List Byte
  deriving DecidableEq, Repr, Inhabited

/-- A Lovage at reset. 15_trust.md R342, R367. -/
def Lovage.reset : Lovage :=
  { booted := false, term := 0, primary := none, isPrimary := false, voted := 0, cands := [], waiting := false,
    standing := false, votes := [], backoff := false, keyUnit := [], aliasSeed := [], storeKey := [], lfw := [], svn := 0,
    aliasCert := [], endorse := [] }

/-- The items of the fuse bank that are written at manufacture and are the same in all hubs; the serial number, the part code
and the stepping stand as Config.serial and the part of the lifecycle state. 15_trust.md R341. -/
structure FuseBank where
  /-- unique device secret, 256 bits -/
  uds       : List Byte
  /-- digest of the firmware signing key, 256 bits -/
  fwKey     : List Byte
  debugLock : Bool
  deriving DecidableEq, Repr, Inhabited

/-- An operator session's channel. 15_trust.md R353. -/
inductive Channel where
  | conn (hub : Nat) (idx : Nat)
  | pcie (port fn : Nat)
  deriving DecidableEq, Repr, Inhabited

/-- An operator session. 15_trust.md R353. -/
structure Session where
  id      : Nat
  chan    : Channel
  keyIdx  : Nat
  /-- transcript of SESSION_OPEN -/
  trans   : List Byte
  secret  : List Byte
  key     : List Byte
  authed  : Bool
  /-- last session_seq accepted, and last sent -/
  seqIn   : Nat
  seqOut  : Nat
  lastAt  : Nat
  deriving DecidableEq, Repr, Inhabited

/-! ## Lifecycle -/

/-- A configuration slot. 16_lifecycle.md R370, R374, R379. -/
structure CfgSlot where
  seq     : Nat
  signer  : Nat
  partMask : Nat
  /-- class code to body -/
  bodies  : Assoc Nat (List Byte)
  committed : Bool
  /-- its signature, binding and part check hold at start (R371, R378) -/
  good    : Bool
  deriving DecidableEq, Repr, Inhabited

/-- A firmware bundle in a slot. 16_lifecycle.md R387. -/
structure Bundle where
  digest : List Byte
  svn    : Nat
  /-- bundle digests it may run beside -/
  beside : List (List Byte)
  committed : Bool
  deriving DecidableEq, Repr, Inhabited

/-- A live operation that runs. 16_lifecycle.md R386. -/
structure LiveOp where
  op     : Nat
  target : Nat
  /-- started by R398, not by lc_go -/
  auto   : Bool
  /-- substitute slice of RETIRE -/
  subst  : Nat
  /-- extents still to switch, each with its place at the substitute -/
  left   : List (Nat × Nat)
  /-- step of the operation's order that comes next -/
  step   : Nat
  deriving DecidableEq, Repr, Inhabited

/-- A census entry. 16_lifecycle.md R377. -/
structure Census where
  tag   : Nat
  count : Nat
  endpoint : Nat
  deriving DecidableEq, Repr, Inhabited

/-! ## Health and journal -/

/-- A margin unit. 17_health.md R397 to R399. -/
structure Margin where
  width  : Nat
  height : Nat
  minW   : Nat
  low    : Nat
  deriving DecidableEq, Repr, Inhabited

/-- Health of a die. 17_health.md R400 to R403. -/
structure DieHealth where
  temps    : List Int
  maxTemp  : Int
  speed    : Nat
  speedMin : Nat
  droops   : Nat
  /-- droop events within the last second -/
  droopSec : Nat
  corrMem  : Nat
  corrLink : Nat
  uncMem   : Nat
  uncLink  : Nat
  camScrub : Nat
  bistResult : Nat
  bistWhen : Nat
  rowsRepaired : Nat
  deriving DecidableEq, Repr, Inhabited

/-- A metering record. 17_health.md R416. -/
structure Meter where
  pageMs  : Nat
  sramMs  : Nat
  scanned : Nat
  skipped : Nat
  bytesIn : Nat
  bytesOut : Nat
  merges  : Nat
  nonFinite : Nat
  keyMiss : Nat
  deriving DecidableEq, Repr, Inhabited

/-- A journal record. 17_health.md R406. -/
structure JRec where
  type    : Nat
  /-- payload from offset 32 -/
  payload : List Byte
  time    : Nat
  originSeq : Nat
  boot    : Nat
  hub     : Nat
  /-- record_seq, assigned by the driving hub; 0 before -/
  seq     : Nat
  deriving DecidableEq, Repr, Inhabited

/-- The journal's flash translation. 17_health.md R410 to R415. -/
structure Flash where
  mounted   : Bool
  supported : Bool
  readonly  : Bool
  formatted : Bool
  /-- good blocks of the partition, endurance and ECC capability from the parameter page -/
  nBlocks   : Nat
  endurance : Nat
  eccCap    : Nat
  /-- physical blocks of LB0 to LB3 -/
  logBlocks : List Nat
  spares    : List Nat
  sparesAtFormat : Nat
  /-- ring: physical block of each logical block, and the next logical block to take -/
  ring      : List Nat
  next      : Nat
  erases    : Assoc Nat Nat
  bad       : List Nat
  /-- pages programmed: (physical block, page) to its records -/
  pages     : Assoc (Nat × Nat) (List JRec)
  /-- pages programmed in LB0 and LB1, and the checkpoint sequence -/
  headPage  : Nat
  ckptPage  : Nat
  ckptSeq   : Nat
  /-- records of the page being filled -/
  fill      : List JRec
  deriving DecidableEq, Repr, Inhabited

/-! ## Links and power -/

/-- Die-to-die links. 01_node.md R14, R15. -/
structure Link where
  up    : Bool
  /-- replays of the present word that failed; a replay is outstanding when `pending` -/
  fails : Nat
  pending : Bool
  /-- the last words sent, newest first, at most 256 (R15) -/
  words : List (BitVec 128)
  deriving DecidableEq, Repr, Inhabited

/-- The standby controller and the power state. 18_package.md R427 to R438. -/
structure Power where
  vsb33     : Bool
  vin48     : Bool
  rails     : Bool
  pwrok     : Bool
  /-- rails stay off after a rail fault until VIN48 cycles or RESET# is asserted -/
  railFault : Bool
  /-- RESET# settled low -/
  resetLow  : Bool
  /-- the dies are out of reset -/
  diesOut   : Bool
  /-- THROTTLE# asserted -/
  throttle  : Bool
  /-- DRAIN# armed, and a DRAIN event held before the node is in service (R434) -/
  drainArmed : Bool
  drainHeld : Bool
  /-- pin and software drain latches (R433) -/
  drainPin  : Bool
  drainSoft : Bool
  /-- latched trip: die and reading (R438); a stack's is its slice's -/
  trip      : Option (Nat × Int)
  /-- a trip that the next start records (R438) -/
  tripRec   : Option (Nat × Int)
  /-- MGMT_LEGACY as last sampled -/
  strap     : Bool
  /-- PERST# released, ports A and B; the port answers Retry Status until start step 10 -/
  perst     : List Bool
  /-- PCIe link up, ports A and B -/
  pcieUp    : List Bool
  /-- rate and width of the last training, ports A and B: 5 to 7 for Gen5 to Gen7; 4, 8 or 16 lanes (14_host.md R316) -/
  pcieLink  : List (Nat × Nat)
  /-- the link went down since it last trained (14_host.md R336) -/
  pcieLost  : List Bool
  deriving DecidableEq, Repr, Inhabited

/-- A die's test access port. 18_package.md R442, R443. -/
structure Tap where
  /-- instruction register: the instruction in force -/
  instr    : TapInstr
  /-- boundary-scan cells -/
  cells    : List Bool
  linktest : BitVec 64
  hbmloop  : BitVec 64
  deriving DecidableEq, Repr, Inhabited

/-! ## Hubs and slices -/

/-- A hub die. 12_ledger.md R268, R297; 16_lifecycle.md R393. -/
structure HubSt where
  /-- local_time, 64 bits, ns since it left reset -/
  time    : Nat
  /-- 0 IN_SERVICE, 1 FAILING_OVER, 2 FAILED_OVER, 3 ISOLATED, 4 UNAVAILABLE -/
  st      : Nat
  unitSt  : UnitState
  unitGen : Nat
  /-- out of reset -/
  up      : Bool
  /-- its REF25 input runs -/
  ref25   : Bool
  deriving DecidableEq, Repr, Inhabited

/-- A slice die. 16_lifecycle.md R390, R392; 12_ledger.md R297. -/
structure SliceSt where
  /-- 0 IN_SERVICE, 1 RETRAINING, 2 RETIRING, 3 RETIRED, 4 ISOLATED, 5 UNAVAILABLE, 6 REPATRIATING -/
  st      : Nat
  unitSt  : UnitState
  unitGen : Nat
  /-- home hub; none when no hub reaches it (R17, R20) -/
  home    : Option Nat
  /-- substitute (R390) -/
  subst   : Option Nat
  /-- extents that the substitute holds, each with the substitute's extent -/
  moved   : Assoc Nat Nat
  /-- R385 has run since retirement -/
  tested  : Bool
  deriving DecidableEq, Repr, Inhabited

/-- A promoted page's live copy. 06_append.md R135. -/
structure Promo where
  /-- node address in slice SRAM -/
  base    : Nat
  /-- the live copy differs from the home image: the header word at offset 32, a rewrite or the damaged bit
  (02_pages.md R45, R62) -/
  changed : Bool
  opened  : Nat
  deriving DecidableEq, Repr, Inhabited

/-- Use of SRAM with what it is. -/
structure SramHold where
  use  : SramUse
  kind : SramKind
  deriving DecidableEq, Repr, Inhabited

/-- Memory: contents, word-code state, allocation, banks, errors, stacks, throttling. 08_memory.md. -/
structure MemSt where
  /-- bytes by node address (R197), in canonical form: rising addresses, no zero byte listed -/
  cells   : List Host.Cell
  /-- stored check bits XOR those R176 gives for the stored data, by word address; unlisted 0 -/
  chk     : Assoc Nat Nat
  /-- slots of page space in use, by lpn -/
  slots   : Assoc Nat SlotUse
  sram    : List SramHold
  banks   : Assoc (Nat × Nat) Bank
  /-- error logs by die, oldest first, at most 32 records (R184) -/
  errs    : Assoc Nat (List ErrRec)
  stackCtl  : Assoc Nat Stack
  /-- corrections of a word within the present patrol period (R183) -/
  hits    : Assoc Nat Nat
  /-- next offset the patrol scrubber of a die reads (R182) -/
  patrol  : Assoc Nat Nat
  /-- stack rows repaired: die, pseudo-channel × 2^20 + row counted over its banks (R183) -/
  rowFix  : List (Nat × Nat)
  /-- those of them whose repair has been fused, with field_repair_en (R183) -/
  rowHard : List (Nat × Nat)
  /-- prefetched sketches: slice, lpn, generation (06_append.md R133) -/
  prefetch : List (Nat × Nat × Nat)
  /-- opens of a page within the last 1 ms: their local times, oldest first (R135) -/
  opens   : Assoc Nat (List Nat)
  /-- generations held at free slot bases that now lie inside a slot, by its lpn: unit within the slot, generation
  (02_pages.md R32) -/
  under   : Assoc Nat (List (Nat × Nat))
  /-- slots freed so far of a tenant's extents in a slice (06_append.md R129) -/
  frees   : Assoc (Nat × Nat) Nat
  promo   : Assoc Nat Promo
  /-- node-wide power level and average of the last 100 µs (R190), and the samples of the present second (15_trust.md R363) -/
  powerLvl : Nat
  powerAvg : Nat
  powerSum : Nat
  powerN   : Nat
  /-- level in force at a slice (R189, R432) -/
  level   : Assoc Nat Nat
  deriving DecidableEq, Repr, Inhabited

/-- Sequences, tails, seals and reference counts. 03_sequences.md, 06_append.md. -/
structure SeqSt where
  descs    : Assoc Nat Desc
  /-- generation an unused descriptor index takes next, where it has been used (R50) -/
  descGen  : Assoc Nat Nat
  /-- (slice, descriptor) -/
  entries  : Assoc (Nat × Nat) SeqEntry
  /-- (slice, descriptor, layer × kv_heads + kv_head) -/
  roots    : Assoc (Nat × Nat × Nat) Root
  /-- (descriptor, layer × kv_heads + kv_head) -/
  tdirs    : Assoc (Nat × Nat) TailDir
  /-- slots that hold the tail directories of a descriptor -/
  tdirSlots : Assoc Nat (List Nat)
  tails    : Assoc TailKey Tail
  /-- tails written back (06_append.md R130) -/
  images   : Assoc TailKey TailImage
  sealQ    : List SealItem
  refQ     : List RefChange
  bindings : Assoc Nat Binding
  /-- delta cache: slice, binding, layer, KV head, page to the node address of the expanded page (R69) -/
  cache    : Assoc (Nat × Nat × Nat × Nat × Nat) Nat
  deriving DecidableEq, Repr, Inhabited

/-- Merges. 05_merge.md. -/
structure MergeSt where
  ctxs     : Assoc Nat MergeCtx
  inflight : List InFlight
  groups   : List Group
  tombs    : List Tombstone
  /-- scans that the dispatcher holds or that wait in their command slots (07_dill.md R142, R146) -/
  held     : List HeldScan
  deriving DecidableEq, Repr, Inhabited

/-- Connections and sub-ports. 10_fabric.md. -/
structure FabSt where
  subs   : Assoc (Nat × Nat) SubPort
  conns  : Assoc Nat Conn
  /-- frames waiting for a spilled record, at most 256 a hub (R246): connection, frame -/
  fillQ  : List (Nat × Frame)
  /-- IDs of ended connections that the node opened: peer, ID, hub, its local time at the end (R237) -/
  usedIds : List (Nat × Nat × Nat × Nat)
  /-- census tables by hub (16_lifecycle.md R377) -/
  census : Assoc Nat (List (Option Census))
  deriving DecidableEq, Repr, Inhabited

/-- Policing, egress and gates. 13_traffic.md. -/
structure TrafSt where
  /-- (hub, policer entry): an entry is an endpoint, or 2^24 + 64 × port + function -/
  pols   : Assoc (Nat × Nat) Policer
  egress : List EgSeg
  /-- (hub, sub-port, class) -/
  shapers : Assoc (Nat × Nat × Nat) EgClass
  /-- local time of a hub's last refill -/
  refillAt : Assoc Nat Nat
  /-- class that holds the turn of the weighted group: (hub, sub-port) -/
  turn   : Assoc (Nat × Nat) Nat
  gates  : Assoc (Nat × Nat) Gates
  /-- writes held until the next refill (R309): field, instance, entry, value -/
  held   : List (Reg × Nat × Nat × Nat)
  /-- node-wide fields a refill has written that other hubs have still to apply: field, entry, the value before, those hubs
  (R305, R309) -/
  lag    : List (Reg × Nat × Nat × List Nat)
  deriving DecidableEq, Repr, Inhabited

/-- Why the node reads a ledger line. -/
inductive ReadWhy where
  /-- a check of order 9 of this message waits (12_ledger.md R279) -/
  | check (msg : Nat)
  /-- a member re-reads a MAP line (R292) -/
  | map
  /-- verification of a returning unit (R297) -/
  | verify
  /-- the new content of a recalled EXTENT or OWNER line (R283, R287) -/
  | recalled
  /-- a new home pulls the line (R293) -/
  | pull (hub : Nat)
  deriving DecidableEq, Repr, Inhabited

/-- A read of a ledger line the node has sent. 12_ledger.md R274, R275. -/
structure LineRead where
  line : Nat
  why  : ReadWhy
  /-- hub that sent it, and its local time then -/
  hub  : Nat
  at_  : Nat
  deriving DecidableEq, Repr

/-- A publish of the node's own, and whether it has been sent. 12_ledger.md R283, R287. -/
structure OwnPub where
  line    : Nat
  content : List Byte
  /-- version it expects -/
  expect  : Nat
  sent    : Bool
  deriving DecidableEq, Repr, Inhabited

/-- Steps of a transfer the node takes part in. 12_ledger.md R287. -/
structure Transfer where
  handle : Nat
  /-- this node is the destination -/
  dest   : Bool
  /-- the other node's endpoint -/
  peer   : Nat
  key    : Nat
  /-- bytes of the transfer region read so far -/
  done   : Nat
  /-- page images read so far, in page order -/
  pages  : List (List Byte)
  /-- index of the transfer region at the source -/
  region : Nat
  /-- the OWNER line's version and content as the destination began to read -/
  version : Nat
  owner   : List Byte
  /-- source: 0 sealing its tails, 1 publishing the key, 2 offered, 9 waiting for its descriptor to be ACTIVE; destination: 0 reading the first page, 1 reading
  pages, 2 reading the core, 3 committing -/
  step   : Nat
  deriving DecidableEq, Repr, Inhabited

/-- Ledger homes, copies, maps, extents. 12_ledger.md. -/
structure LedgSt where
  /-- (hub, line) -/
  dir     : Assoc (Nat × Nat) DirEntry
  copies  : Assoc Nat LineCopy
  newest   : Nat
  previous : Nat
  pendEpoch : Nat
  /-- newest and previous epoch of the head as last read (R292) -/
  head     : Nat × Nat
  maps    : Assoc Nat CompMap
  reads   : List LineRead
  /-- versions that a RECALL named for a line whose read was outstanding (R278) -/
  floors  : Assoc Nat Nat
  pubs    : List OwnPub
  exts    : Assoc (Nat × Nat) Extent
  moves   : List Transfer
  /-- lines a verifying unit still has to read -/
  verify  : List Nat
  deriving DecidableEq, Repr, Inhabited

/-- Regions. 11_remote_access.md. -/
structure RegnSt where
  regions : Assoc Nat Region
  /-- lowest index never registered -/
  fresh   : Nat
  /-- orders the freeing of indices -/
  clock   : Nat
  deriving DecidableEq, Repr, Inhabited

/-- The associative index. 09_chive.md. -/
structure ChiveSt where
  /-- (hub, position): rows as the CAM holds them -/
  cam     : Assoc (Nat × Nat) ChiveRow
  /-- (hub, position): rows as the shadow holds them -/
  shadow  : Assoc (Nat × Nat) ChiveRow
  /-- (hub, class): bucket and row, in order of entry -/
  ovf     : Assoc (Nat × Nat) (List (Nat × ChiveRow))
  /-- overflowed flags set: (hub, class) -/
  flags   : List (Nat × Nat)
  /-- blocks marked rebuilding: (hub, block) -/
  rebuild : List (Nat × Nat)
  /-- blocks retired by a test: (hub, block) -/
  retired : List (Nat × Nat)
  /-- next position the scrubber of a hub visits -/
  scrub   : Assoc Nat Nat
  /-- keyed pages still to enter after a re-homing, by hub (R215) -/
  scan    : Assoc Nat (List Nat)
  deriving DecidableEq, Repr, Inhabited

/-- Dill sequencers, the micro-program store and snapshots. 07_dill.md. -/
structure DillSt where
  eng   : Assoc Nat Dill
  progs : Assoc Nat Prog
  /-- instruction words of the store -/
  store : Assoc Nat Nat
  snaps : Assoc Nat Snapshot
  deriving DecidableEq, Repr, Inhabited

/-- A TLP through a direct window that waits for a stack being retrained: counted in its region's inflight. 14_host.md R332,
16_lifecycle.md R389. -/
structure WinTlp where
  port   : Nat
  fn     : Nat
  window : Nat
  /-- index of the region, and the offset in it -/
  region : Nat
  offset : Nat
  length : Nat
  /-- the data of a write; none for a read -/
  data   : Option (List Byte)
  deriving DecidableEq, Repr

/-- Functions, rings and links of the host ports. 14_host.md. -/
structure HostSt where
  /-- (port, function, slot) -/
  slots   : Assoc (Nat × Nat × Nat) HostSlot
  /-- (port, function, ring) -/
  rings   : Assoc (Nat × Nat × Nat) Ring
  ideKeys : List IdeKey
  /-- key set in use of a stream, and whether the other still receives: (port, stream) -/
  ideSet  : Assoc (Nat × Nat) (Nat × Bool)
  /-- ports with an SPDM secured session (15_trust.md R360) -/
  secured : List Nat
  /-- functions whose completions are discarded since their reset: (port, function) to the messages concerned -/
  muted   : List Nat
  /-- MSI-X vectors of a function since its last reset, where they differ from the default: (port, function) (14_host.md
  R331, R339) -/
  msix    : Assoc (Nat × Nat) Nat
  /-- TLPs through direct windows that wait for a stack being retrained, oldest first (16_lifecycle.md R389) -/
  waits   : List WinTlp
  /-- latched values: local_time_hi by hub, die_summary, meter_record, jr_window -/
  ltHi    : Assoc Nat Nat
  dieSum  : List Byte
  meterRec : List Byte
  jrWin   : List Byte
  /-- 0 loaded, 1 loading, 2 not held -/
  jrStatus : Nat
  deriving DecidableEq, Repr, Inhabited

/-- Lovage, sessions and secrets. 15_trust.md. -/
structure TrustSt where
  lov      : Assoc Nat Lovage
  sessions : List Session
  /-- fuses written at manufacture (R341) -/
  fuses    : FuseBank
  /-- the legacy credential as the Lovages hold it, and as serial NAND does: nonce, and the credential wrapped with AES-256-GCM
  under store_key (R366) -/
  psk      : Option (List Byte)
  pskNand  : Option (List Byte × List Byte)
  /-- highest counter accepted, and the value below which counters are refused (R366) -/
  legacyMax   : Nat
  legacyFloor : Nat
  /-- acceptances since the counter was last stored -/
  legacyRun : Nat
  /-- second of the primary's local time in which reports were last answered, and their number (R349) -/
  reports  : Nat × Nat
  /-- fused minimum security version by hub (R341) -/
  svnMin   : Assoc Nat Nat
  deriving DecidableEq, Repr, Inhabited

/-- A delta between its acceptance and its commit. 16_lifecycle.md R374. -/
structure DeltaJob where
  msg    : Nat
  seq    : Nat
  signer : Nat
  phase  : Nat
  bodies : Assoc Nat (List Byte)
  /-- an IMAGE accepted in RECOVERY (R378) -/
  image  : Bool
  partMask : Nat
  /-- the channel is a register write, with no message to answer (R373) -/
  silent : Bool
  /-- a register write: its fields with instance, entry and value (R373) -/
  fields : List (Reg × Nat × Nat × Nat)
  deriving DecidableEq, Repr, Inhabited

/-- Configuration, firmware, map, live operations. 16_lifecycle.md. -/
structure LifeSt where
  part    : Part
  /-- 0 STARTING, 1 RECOVERY, 2 IN_SERVICE, 3 DRAINING, 4 SHUTTING_DOWN, 5 SHUTDOWN_DONE -/
  node    : Nat
  bistSkipped : Bool
  /-- active configuration slot -/
  slot    : Nat
  cfg     : Assoc Nat CfgSlot
  binding : Option (List Byte)
  /-- alternate critical bodies and the phase (R375): 0 none, 1 prepared, 2 switched -/
  alt     : Assoc Nat (List Byte)
  crit    : Nat
  job     : Option DeltaJob
  /-- firmware slots -/
  bundles : Assoc Nat Bundle
  /-- slot a die runs: dies by number, Lovage h as 40 + h -/
  dieFw   : Assoc Nat Nat
  /-- firmware slot the last STAGE wrote -/
  staged  : Option Nat
  /-- dies that a firmware sub-op moves: slot they go to, and 0 hub waits for its failover, 1 restarts, 2 hub waits for
  its failback -/
  moving  : Assoc Nat (Nat × Nat)
  /-- local time at which the activation of a slice began (R388) -/
  moveAt  : Assoc Nat Nat
  kgm     : Assoc Nat KgMap
  /-- lane mappings in force on the die-to-die links: die, unit of R399, lane; the mapping (R378 step 7, R380) -/
  lanes   : Assoc (Nat × Nat × Nat) Nat
  op      : Option LiveOp
  /-- slices whose automatic retraining waits for the operation that runs (17_health.md R398) -/
  retrainDue : List Nat
  lcStatus : Nat
  progress : Nat
  /-- starts so far: boot_count -/
  boot    : Nat
  /-- profile running, and profile set for the next start: true Full (08_memory.md R173) -/
  full    : Bool
  fullNext : Bool
  /-- the node has been a member of a map (R378 step 11) -/
  member  : Bool
  hubs    : Assoc Nat HubSt
  slices  : Assoc Nat SliceSt
  /-- the node as a returning unit (12_ledger.md R297) -/
  nodeUnit : UnitState
  nodeGen  : Nat
  /-- newest epoch when the node last left (12_ledger.md R297 step 6) -/
  leftEpoch : Nat
  links   : Assoc (Nat × Nat) Link
  deriving DecidableEq, Repr

/-- Health, histograms and metering. 17_health.md. -/
structure HealthSt where
  dies   : Assoc Nat DieHealth
  /-- (die, unit of R399) -/
  margins : Assoc (Nat × Nat) Margin
  /-- (die, bin) -/
  temps  : Assoc (Nat × Nat) Nat
  volts  : Assoc (Nat × Nat) Nat
  inputs : Assoc Nat Nat
  /-- programs by die temperature of the driving hub -/
  flashT : Assoc Nat Nat
  meters : Assoc Nat Meter
  /-- coarse values published: register field, instance, entry (15_trust.md R362) -/
  pub    : Assoc (Reg × Nat × Nat) Nat
  /-- published values of R363: stack and die temperatures, level, power -/
  pubT   : Assoc (Reg × Nat) Nat
  /-- metering as published to tenants -/
  pubM   : Assoc Nat Meter
  deriving DecidableEq, Repr, Inhabited

/-- The Bay journal. 17_health.md. -/
structure JrnlSt where
  /-- records a hub has formed and not yet seen programmed, oldest first -/
  held    : List JRec
  /-- of those, how many the driving hub has numbered -/
  origin  : Assoc Nat Nat
  /-- next record_seq -/
  nextSeq : Nat
  flash   : Flash
  /-- records dropped for want of room, by hub: JOURNAL_DROP due -/
  dropped : List Nat
  deriving DecidableEq, Repr, Inhabited

/-- What lies between a sent frame's Ethernet header and its Plembel header. 10_fabric.md R226. -/
inductive Encap where
  /-- cell mode: the EtherType -/
  | cell (ethertype : Nat)
  /-- routed mode: IPv6 (true) or IPv4, UDP ports, hop limit or TTL, ECN field; the UDP checksum, none where it is the one
  computed over the packet -/
  | routed (v6 : Bool) (srcPort dstPort hops ecn : Nat) (sum : Option Nat)
  deriving DecidableEq, Repr

/-- What the node shows its environment. -/
inductive Out where
  /-- a protected frame sent on a sub-port: 802.1Q priority where tagged, association and packet number, peer address,
  frame length, encapsulation, and the bytes from the Plembel header on (10_fabric.md R220, R223, R226) -/
  | frame (hub sub : Nat) (pcp : Option Nat) (an pn peer length : Nat) (enc : Encap) (bytes : List Byte)
  /-- a link key-exchange frame -/
  | kx (hub sub : Nat) (bytes : List Byte)
  /-- bytes written to host memory: port, address -/
  | hostWrite (port addr : Nat) (bytes : List Byte)
  /-- a read of a command payload: port, address, length -/
  | hostRead (port addr len : Nat)
  /-- an MSI-X message: port, function, table entry -/
  | msix (port fn vec : Nat)
  /-- completion of a window or register read; none is Unsupported Request, the flag marks poisoned data -/
  | readDone (port fn : Nat) (poisoned : Bool) (data : Option (List Byte))
  /-- AER logs an error of a function -/
  | aer (port fn : Nat)
  /-- an answer on the legacy management port -/
  | legacy (bytes : List Byte)
  /-- an answer of a port's SPDM responder -/
  | spdm (port : Nat) (bytes : List Byte)
  /-- what a die's test data register shifts out -/
  | tdo (die : Nat) (data : List Bool)
  /-- an election message: 1 CANDIDATE, 2 VOTE, 3 BEACON; sender, receiver (8 for every other Lovage), term
  (15_trust.md R342) -/
  | lov (kind sender receiver term : Nat)
  /-- a status given to the operator or the slice's own unit without a message -/
  | status (st : Status)
  deriving DecidableEq, Repr

/-- The node. The queue of commands that wait comes first; `out` and `freeCtr` are the model's own. -/
structure State where
  /-- commands waiting, first in first out (block form of the model) -/
  pending : List Instr
  /-- what the node has shown its environment, oldest first (the model's own) -/
  out     : List Out
  /-- free values drawn so far (the model's own, assumption 5) -/
  freeCtr : Nat
  /-- next message, context, connection or session number (the model's own) -/
  nextId  : Nat
  msgs    : Assoc Nat Msg
  /-- registers whose value differs from reset: field, instance, entry -/
  regs    : Assoc (Reg × Nat × Nat) Nat
  mem     : MemSt
  seqs    : SeqSt
  merge   : MergeSt
  fab     : FabSt
  traf    : TrafSt
  ledg    : LedgSt
  regn    : RegnSt
  chive   : ChiveSt
  dill    : DillSt
  host    : HostSt
  trust   : TrustSt
  life    : LifeSt
  health  : HealthSt
  jrnl    : JrnlSt
  power   : Power
  taps    : Assoc Nat Tap
  deriving DecidableEq, Repr

/-- Whether a list of cells is in canonical form: rising addresses, no byte equal to what an unlisted address reads as
(0, 15_trust.md R361). -/
def cellsWf : List Host.Cell → Bool
  | [] => true
  | [c] => decide (c.2 ≠ 0#8)
  | c :: d :: r => decide (c.2 ≠ 0#8) && decide (c.1 < d.1) && cellsWf (d :: r)

/-- Memory in canonical form. -/
def Memory.wf (cells : List Host.Cell) : Bool := cellsWf cells

/-- Power at reset: standby supply absent, nothing latched, PCIe in reset. 18_package.md R427. -/
def Power.reset : Power :=
  { vsb33 := false, vin48 := false, rails := false, pwrok := false, railFault := false, resetLow := false,
    diesOut := false, throttle := false, drainArmed := false, drainHeld := false, drainPin := false,
    drainSoft := false, trip := none, tripRec := none, strap := false, perst := [false, false], pcieUp := [false, false],
    pcieLink := [(0, 0), (0, 0)], pcieLost := [false, false] }

/-- A known-good map as manufacture leaves it: TESTED, with the results of the manufacturing test. 16_lifecycle.md R381. That the
two maps have the numbers 1 and 2 is a DESIGN CHOICE (assumption 187). -/
def factoryMap (seq : Nat) : KgMap :=
  kgmOf 1 seq (prefixOf (fuseImage Part.p2TF.code Config.fwKeyDigest 0 true [])) Config.factoryEntries

/-- The lifecycle at reset: STARTING, no configuration active, dies held in reset. 16_lifecycle.md R378, R381. -/
def LifeSt.reset : LifeSt :=
  { part := .p2TF, node := 0, bistSkipped := false, slot := 0, cfg := [], binding := none, alt := [], crit := 0,
    job := none, bundles := [], dieFw := [], staged := none, moving := [], moveAt := [],
    kgm := [(0, factoryMap 1), (1, factoryMap 2)], lanes := [], op := none, retrainDue := [], lcStatus := 0, progress := 0,
    boot := 0, full := false, fullNext := false, member := false, hubs := [], slices := [], nodeUnit := .inService, nodeGen := 0,
    leftEpoch := 0, links := [] }

/-- Memory at reset: nothing listed, every byte 0. 15_trust.md R361. -/
def MemSt.reset : MemSt :=
  { cells := [], chk := [], slots := [], sram := [], banks := [], errs := [], stackCtl := [], hits := [], patrol := [],
    rowFix := [], rowHard := [], prefetch := [], opens := [], under := [], frees := [], promo := [], powerLvl := 0, powerAvg := 0,
    powerSum := 0, powerN := 0, level := [] }

/-- The journal's flash before its first mount. 17_health.md R411. -/
def Flash.reset : Flash :=
  { mounted := false, supported := false, readonly := false, formatted := false, nBlocks := 0, endurance := 0,
    eccCap := 0, logBlocks := [], spares := [], sparesAtFormat := 0, ring := [], next := 0, erases := [], bad := [],
    pages := [], headPage := 0, ckptPage := 0, ckptSeq := 0, fill := [] }

/-- The node right after reset: every register at the value its table gives, every table and queue empty, the dies
held in reset. -/
def State.reset : State :=
  { pending := [], out := [], freeCtr := 0, nextId := 1, msgs := [], regs := [], mem := MemSt.reset,
    seqs := { descs := [], descGen := [], entries := [], roots := [], tdirs := [], tdirSlots := [], tails := [], images := [],
              sealQ := [], refQ := [], bindings := [], cache := [] },
    merge := { ctxs := [], inflight := [], groups := [], tombs := [], held := [] },
    fab := { subs := [], conns := [], fillQ := [], usedIds := [], census := [] },
    traf := { pols := [], egress := [], shapers := [], refillAt := [], turn := [], gates := [], held := [], lag := [] },
    ledg := { dir := [], copies := [], newest := 0, previous := 0, pendEpoch := 0, head := (0, 0), maps := [], reads := [],
              floors := [], pubs := [], exts := [], moves := [], verify := [] },
    regn := { regions := [], fresh := 1, clock := 0 },
    chive := { cam := [], shadow := [], ovf := [], flags := [], rebuild := [], retired := [], scrub := [],
               scan := [] },
    dill := { eng := [], progs := [], store := [], snaps := [] },
    host := { slots := [], rings := [], ideKeys := [], ideSet := [], secured := [], muted := [], msix := [], waits := [], ltHi := [],
              dieSum := [], meterRec := [], jrWin := [], jrStatus := 0 },
    trust := { lov := [], sessions := [], fuses := ⟨Config.uds, Config.fwKeyDigest, true⟩, psk := none, pskNand := none, legacyMax := 0, legacyFloor := 0, legacyRun := 0,
               reports := (0, 0), svnMin := [] },
    life := LifeSt.reset,
    health := { dies := [], margins := [], temps := [], volts := [], inputs := [], flashT := [], meters := [],
                pub := [], pubT := [], pubM := [] },
    jrnl := { held := [], origin := [], nextSeq := 1, flash := Flash.reset, dropped := [] },
    power := Power.reset, taps := [] }

end Sys2Proof.Machine
end

