-- ==== Sys2Proof/Machine/Ops.lean ====
section
/-!
DEFINITION. The shared operations: clocks, registers, memory and its word code, allocation, the error log, the journal,
health events, and what the node shows outside. Every meaning is written over these.
-/
namespace Sys2Proof.Machine

/-- The next state. -/
abbrev Next := Host.Outcome State Fault Refusal

/-! ## Parts of the state -/

/-- Changes the memory. -/
def modMem (s : State) (f : MemSt → MemSt) : State := { s with mem := f s.mem }

/-- Changes the sequences. -/
def modSeqs (s : State) (f : SeqSt → SeqSt) : State := { s with seqs := f s.seqs }

/-- Changes the merges. -/
def modMerge (s : State) (f : MergeSt → MergeSt) : State := { s with merge := f s.merge }

/-- Changes the fabric. -/
def modFab (s : State) (f : FabSt → FabSt) : State := { s with fab := f s.fab }

/-- Changes the traffic. -/
def modTraf (s : State) (f : TrafSt → TrafSt) : State := { s with traf := f s.traf }

/-- Changes the ledger. -/
def modLedg (s : State) (f : LedgSt → LedgSt) : State := { s with ledg := f s.ledg }

/-- Changes the region table. -/
def modRegn (s : State) (f : RegnSt → RegnSt) : State := { s with regn := f s.regn }

/-- Changes the associative index. -/
def modChive (s : State) (f : ChiveSt → ChiveSt) : State := { s with chive := f s.chive }

/-- Changes the Dill sequencers. -/
def modDill (s : State) (f : DillSt → DillSt) : State := { s with dill := f s.dill }

/-- Changes the host ports. -/
def modHost (s : State) (f : HostSt → HostSt) : State := { s with host := f s.host }

/-- Changes the trust state. -/
def modTrust (s : State) (f : TrustSt → TrustSt) : State := { s with trust := f s.trust }

/-- Changes the lifecycle. -/
def modLife (s : State) (f : LifeSt → LifeSt) : State := { s with life := f s.life }

/-- Changes the health. -/
def modHealth (s : State) (f : HealthSt → HealthSt) : State := { s with health := f s.health }

/-- Changes the journal. -/
def modJrnl (s : State) (f : JrnlSt → JrnlSt) : State := { s with jrnl := f s.jrnl }

/-- Changes the power state. -/
def modPower (s : State) (f : Power → Power) : State := { s with power := f s.power }

/-- Sets the messages in hand. -/
def setMsgs (s : State) (l : Assoc Nat Msg) : State := { s with msgs := l }

/-- Sets the test access ports. -/
def setTaps (s : State) (l : Assoc Nat Tap) : State := { s with taps := l }

/-! ## Clocks and units -/

/-- A hub, with its values before it leaves reset. -/
def hubSt (s : State) (h : Nat) : HubSt :=
  agetD s.life.hubs h ⟨0, 0, .inService, 0, false, true⟩

/-- A slice, with its values before any change: homed to its primary hub (01_node.md R13, R17). -/
def sliceSt (s : State) (k : Nat) : SliceSt :=
  agetD s.life.slices k ⟨0, .inService, 0, some (k / 4), none, [], false⟩

/-- Changes a hub. -/
def modHub (s : State) (h : Nat) (f : HubSt → HubSt) : State :=
  modLife s fun l => { l with hubs := aset l.hubs h (f (hubSt s h)) }

/-- Changes a slice. -/
def modSlice (s : State) (k : Nat) (f : SliceSt → SliceSt) : State :=
  modLife s fun l => { l with slices := aset l.slices k (f (sliceSt s k)) }

/-- Local time of a hub. 12_ledger.md R268. -/
def now (s : State) (h : Nat) : Nat := (hubSt s h).time

/-- The passing of a hub's local time to a deadline: it is at least t afterwards (assumption 3). -/
def passTo (s : State) (h t : Nat) : State := modHub s h fun x => { x with time := max x.time t }

/-- One cycle of every running 25 MHz reference: 40 ns. 12_ledger.md R268. -/
def tickClocks (s : State) : State :=
  let tick := fun (p : Nat × HubSt) =>
    if p.2.up ∧ p.2.ref25 then (p.1, { p.2 with time := (p.2.time + 40) % 2 ^ 64 }) else p
  modLife s fun l => { l with hubs := l.hubs.map tick }

/-- Whether a hub is in service. 16_lifecycle.md R393. -/
def hubOk (s : State) (h : Nat) : Bool :=
  let x := hubSt s h
  x.up && x.ref25 && decide (x.st = 0)

/-- Whether a hub carries traffic: in service, or failing over with its merges still open (R394). -/
def hubAlive (s : State) (h : Nat) : Bool :=
  let x := hubSt s h
  x.up && x.ref25 && decide (x.st ≤ 1)

/-- The hub that serves a quadrant. 01_node.md R20, 05_merge.md R444. -/
def quadHub (s : State) (q : Nat) : Option Nat :=
  if hubAlive s q then some q
  else if (List.range 4).any fun i => decide ((sliceSt s (4 * q + i)).home = some ((q + 1) % 8)) then some ((q + 1) % 8)
  else none

/-- Whether a hub serves the quadrant before it. -/
def servesOther (s : State) (h : Nat) : Bool :=
  (List.range 4).any fun i => decide ((sliceSt s (4 * ((h + 7) % 8) + i)).home = some h) && ! hubAlive s ((h + 7) % 8)

/-! ## Links (01_node.md R13 to R16) -/

/-- A link from one die to another, up with nothing sent at reset. -/
def linkOf (s : State) (a b : Nat) : Link := agetD s.life.links (a, b) ⟨true, 0, false, []⟩

/-- Changes a link. -/
def modLink (s : State) (a b : Nat) (f : Link → Link) : State :=
  modLife s fun l => { l with links := aset l.links (a, b) (f (linkOf s a b)) }

/-- Whether two dies are joined by a link. 01_node.md R13, R14. -/
def linkExists (a b : Nat) : Bool :=
  if a < 32 then decide (b = 32 + a / 4) || decide (b = 32 + (a / 4 + 1) % 8)
  else if b < 32 then decide (a = 32 + b / 4) || decide (a = 32 + (b / 4 + 1) % 8)
  else
    let d := (b + 8 - a) % 8
    decide (b < 40) && decide (a < 40) && (decide (d = 1) || decide (d = 7) || decide (d = 4))

/-- Whether the link between two dies is up in both directions. -/
def linkUp (s : State) (a b : Nat) : Bool := (linkOf s a b).up && (linkOf s b a).up

/-- The hubs that traffic from one hub to another passes, its end among them: the direct link, else two links through the
lower-numbered hub between that carries traffic and whose links are up; none where every shortest path is down (DEDUCED, assumption 151).
01_node.md R16. -/
def hubRoute (s : State) (a b : Nat) : Option (List Nat) :=
  let joined := fun (x y : Nat) => linkExists (32 + x) (32 + y)
  let up := fun (x y : Nat) => joined x y && linkUp s (32 + x) (32 + y)
  if a = b then some []
  else if joined a b then (if up a b then some [b] else none)
  else ((List.range 8).find? fun v => up a v && up v b && hubAlive s v).map fun v => [v, b]

/-- Whether a die state lets a slice take requests for its own pages. 16_lifecycle.md R391, R392. -/
def sliceReachable (s : State) (k : Nat) : Bool :=
  let x := sliceSt s k
  x.home.isSome && decide (x.st ≠ 5) && decide (x.st ≠ 4)

/-- Home hub of a slice, with its primary hub for a slice no hub reaches. -/
def homeHub (s : State) (k : Nat) : Nat := ((sliceSt s k).home).getD (k / 4)

/-- Home hub of a die: a hub's own, a slice's R17. -/
def dieHub (s : State) (d : Nat) : Nat := if d < 32 then homeHub s d else d - 32

/-- The hub that drives the serial NAND: HD0 when healthy, HD4 otherwise. 01_node.md R18, R20. -/
def nandHub (s : State) : Option Nat :=
  if hubAlive s 0 then some 0 else if hubAlive s 4 then some 4 else none

/-- Hub of a PCIe port. 14_host.md R316. -/
def portHub (p : Nat) : Nat := if p = 0 then 0 else 4

/-! ## Registers -/

/-- The instance a field is kept under: one for the node where R448 gives one value. -/
def regInst (r : Reg) (inst : Nat) : Nat := if r.info.wide then 0 else inst

/-- The stored value of a field of an instance and entry. -/
def rget (s : State) (r : Reg) (inst idx : Nat) : Nat :=
  agetD s.regs (r, regInst r inst, idx) (r.reset (regInst r inst) idx)

/-- A node-wide field. -/
def rg (s : State) (r : Reg) : Nat := rget s r 0 0

/-- Stores a field, reduced to its width. -/
def rset (s : State) (r : Reg) (inst idx v : Nat) : State :=
  { s with regs := aset s.regs (r, regInst r inst, idx) (v % 2 ^ r.width) }

/-- Raises a counter that saturates. 05_merge.md R119 and the other register tables. -/
def bumpBy (s : State) (r : Reg) (inst n : Nat) : State :=
  rset s r inst 0 (min (rget s r inst 0 + n) (2 ^ r.width - 1))

/-- Raises entry i of a counter by n, up to its largest value. -/
def bumpAt (s : State) (r : Reg) (inst i n : Nat) : State :=
  rset s r inst i (min (rget s r inst i + n) (2 ^ r.width - 1))

/-- Raises a counter by one. -/
def bump (s : State) (r : Reg) (inst : Nat) : State := bumpBy s r inst 1

/-- Keeps the greatest value of a measurement. -/
def rmax (s : State) (r : Reg) (inst v : Nat) : State :=
  if rget s r inst 0 < v then rset s r inst 0 (min v (2 ^ r.width - 1)) else s

/-! ## What the node shows -/

/-- Appends to what the node has shown. -/
def emit (s : State) (o : Out) : State := { s with out := s.out ++ [o] }

/-- A value the spec leaves free, and the state with the next one. -/
def fresh (s : State) : Nat × State := (Config.freeValue s.freeCtr, { s with freeCtr := s.freeCtr + 1 })

/-- The number of a test, by which the results of tests are told apart: each is a free value of the test's own (assumption 176). -/
def testNo (s : State) : Nat × State := (s.freeCtr, (fresh s).2)

/-- A refusal whose status the spec does not state: a free value among the statuses that refuse (assumption 41; reserved
codes are never returned, 00_scope.md R11). -/
def freeRefusal (s : State) : State × Status := ((fresh s).2, (Status.all.drop 3).getD ((fresh s).1 % 18) .busy)

/-- A list of n bytes the spec leaves free. -/
def freshBytes (s : State) (n : Nat) : List Byte × State := (leBytes n (fresh s).1, (fresh s).2)

/-- A number no other message, context, connection or session has. -/
def newId (s : State) : Nat × State := (s.nextId, { s with nextId := s.nextId + 1 })

/-! ## Memory cells -/

/-- The byte at an address; an unlisted one reads 0. -/
def readByte : List Host.Cell → Nat → Byte
  | [], _ => 0#8
  | c :: cs, a => if c.1 = a then c.2 else readByte cs a

/-- The n bytes from an address on. -/
def readCells (cells : List Host.Cell) (a n : Nat) : List Byte :=
  let part := cells.filter fun c => decide (a ≤ c.1) && decide (c.1 < a + n)
  (List.range n).map fun i => readByte part (a + i)

/-- Bytes as cells from an address on, without the zero ones. -/
def toCells : Nat → List Byte → List Host.Cell
  | _, [] => []
  | a, b :: bs => if b = 0#8 then toCells (a + 1) bs else (a, b) :: toCells (a + 1) bs

/-- Writes bytes from an address on; the canonical form stays. -/
def writeCells (cells : List Host.Cell) (a : Nat) (bs : List Byte) : List Host.Cell :=
  (cells.filter fun c => decide (c.1 < a)) ++ toCells a bs ++ cells.filter fun c => decide (a + bs.length ≤ c.1)

/-- Writes n zero bytes from an address on. -/
def zeroCells (cells : List Host.Cell) (a n : Nat) : List Host.Cell :=
  cells.filter fun c => decide (c.1 < a) || decide (a + n ≤ c.1)

/-- Sets the cells of a state. -/
def setCells (s : State) (cells : List Host.Cell) : State := { s with mem := { s.mem with cells := cells } }

/-- Sets the deviations of stored check bits. -/
def setChk (s : State) (chk : Assoc Nat Nat) : State := { s with mem := { s.mem with chk := chk } }

/-- The n bytes from a node address on, without decoding. -/
def peek (s : State) (a n : Nat) : List Byte := readCells s.mem.cells a n

/-- First node address of a die. 08_memory.md R197. -/
def dieBase (d : Nat) : Nat := 2 ^ 42 * d

/-- Offset of SRAM in a die's space. 08_memory.md R197. -/
def sramOff : Nat := 0x10000000000

/-- Whether a bank in RETAIN holds bytes of a range. 08_memory.md R192, R197. -/
def asleep (a n : Nat) (p : (Nat × Nat) × Bank) : Bool :=
  let b := dieBase p.1.1 + sramOff + p.1.2 * 0x40000
  decide (p.2.state = .retain) && decide (a < b + 0x40000) && decide (b < a + n)

/-- Pseudo-channels of the 256-byte granules of a range of stack addresses. 08_memory.md R174. -/
def rangePcs (s : State) (off n : Nat) : List Nat :=
  let bank := fun a => if s.life.part = .p1TE then bits a 20 16 else bits a 21 16
  (List.range (min 256 (ceilDiv (off % 256 + n) 256))).map fun i =>
    let a := off / 256 * 256 + 256 * i
    bits a 13 8 ^^^ bank a

/-- An access brings the pseudo-channels it reaches out of self-refresh; a stack that retrains stays in it until the
retraining ends. 08_memory.md R187, 16_lifecycle.md R389. -/
def touchStack (s : State) (a n : Nat) : State :=
  let k := a / 2 ^ 42
  let off := a % 2 ^ 42
  match aget s.mem.stackCtl k with
  | none => s
  | some x =>
    if x.selfRef.isEmpty ∨ sramOff ≤ off ∨ (sliceSt s k).st = 1 then s
    else
      let pcs := rangePcs s off n
      modMem s fun m =>
        { m with stackCtl := aset m.stackCtl k { x with selfRef := x.selfRef.filter fun p => ! pcs.contains p } }

/-- An access brings the banks it reaches back from RETAIN, and the pseudo-channels it reaches out of self-refresh.
08_memory.md R187, R192. -/
def touchBanks (s : State) (a n : Nat) : State :=
  let s := touchStack s a n
  if s.mem.banks.any (asleep a n) then
    let wakeBank := fun (p : (Nat × Nat) × Bank) =>
      if asleep a n p then (p.1, { p.2 with state := .on, retainDue := false }) else p
    modMem s fun m => { m with banks := m.banks.map wakeBank }
  else s

/-- Writes whole words with fresh check bits (08_memory.md R179): the deviation of every word touched is gone. -/
def poke (s : State) (a : Nat) (bs : List Byte) : State :=
  let s := touchBanks s a bs.length
  setChk (setCells s (writeCells s.mem.cells a bs))
    (s.mem.chk.filter fun p => decide (p.1 + 16 ≤ a) || decide (a + bs.length ≤ p.1))

/-- PFILL with pattern 0 over a range. 07_dill.md R163. -/
def scrub (s : State) (a n : Nat) : State :=
  let s := touchBanks s a n
  setChk (setCells s (zeroCells s.mem.cells a n))
    (s.mem.chk.filter fun p => decide (p.1 + 16 ≤ a) || decide (a + n ≤ p.1))

/-- Stack capacity in bytes. 00_scope.md R1, R4. -/
def stackBytes (s : State) : Nat := if s.life.part = .p1TE then 32 * 2 ^ 30 else 64 * 2 ^ 30

/-- Whether a range of a die's space exists. 08_memory.md R197. -/
def rangeExists (s : State) (die off n : Nat) : Bool :=
  if die < 32 then
    decide (off + n ≤ stackBytes s) || (decide (sramOff ≤ off) && decide (off + n ≤ sramOff + 2 ^ 26)) ||
      (decide (0x20000000000 ≤ off) && decide (off + n ≤ 0x20000000000 + 2 ^ 18))
  else decide (die < 40) && decide (sramOff ≤ off) && decide (off + n ≤ sramOff + 2 ^ 27)

/-! ## The word code (08_memory.md R175 to R178) -/

/-- Multiplication by x in GF(16) on x^4 + x + 1. -/
def gfx (a : Nat) : Nat := if 8 ≤ a then (a * 2) ^^^ 0x13 else a * 2

/-- Multiplication in GF(16). -/
def gfMul (a b : Nat) : Nat :=
  (if bit1 b 0 then a else 0) ^^^ (if bit1 b 1 then gfx a else 0) ^^^ (if bit1 b 2 then gfx (gfx a) else 0) ^^^
    (if bit1 b 3 then gfx (gfx (gfx a)) else 0)

/-- Inverse in GF(16), of a non-zero element. -/
def gfInv (a : Nat) : Nat :=
  ((List.range 16).find? fun b => decide (gfMul a b = 1)).getD 0

/-- f(x, y) of R175. -/
def gfF (x y : Nat) : Nat := gfMul x x ^^^ gfMul x y ^^^ gfMul 8 (gfMul y y)

/-- The column of a nibble, 0 to 31 data and 32 to 35 check. -/
def column (n : Nat) : Nat × Nat × Nat × Nat :=
  if n < 16 then (1, n, 2, gfF n 2)
  else if n < 32 then (1, n - 16, 3, gfF (n - 16) 3)
  else if n = 32 then (1, 0, 0, 0)
  else if n = 33 then (1, 1, 0, 1)
  else if n = 34 then (1, 0, 1, 8)
  else (0, 0, 0, 1)

/-- Sum of the columns of nibbles, each times its value. R176. -/
def syndromes (nibs : List (Nat × Nat)) : Nat × Nat × Nat × Nat :=
  nibs.foldl (fun (a, b, c, d) (n, v) =>
    let (h0, h1, h2, h3) := column n
    (a ^^^ gfMul h0 v, b ^^^ gfMul h1 v, c ^^^ gfMul h2 v, d ^^^ gfMul h3 v)) (0, 0, 0, 0)

/-- Data nibble n of a 128-bit word. -/
def nibble (w n : Nat) : Nat := bits w (4 * n + 3) (4 * n)

/-- The check bits the writer sets. R176. -/
def checkBits (w : Nat) : Nat :=
  let (d0, d1, d2, d3) := syndromes ((List.range 32).map fun n => (n, nibble w n))
  (d0 ^^^ d1 ^^^ d2) + 16 * d1 + 256 * d2 + 4096 * (d3 ^^^ d1 ^^^ gfMul 8 d2)

/-- What the decoder finds. R177. -/
inductive Decoded where
  | clean
  /-- the nibble in error and its error -/
  | corrected (nib err : Nat)
  | uncorrectable
  deriving DecidableEq, Repr

/-- The decision of R177 from the four syndromes. -/
def decodeSyn (syn : Nat × Nat × Nat × Nat) : Decoded :=
  let (s0, s1, s2, s3) := syn
  if s0 = 0 ∧ s1 = 0 ∧ s2 = 0 ∧ s3 = 0 then .clean
  else if s0 = 0 then (if s1 = 0 ∧ s2 = 0 then .corrected 35 s3 else .uncorrectable)
  else
    let i := gfInv s0
    let x := gfMul s1 i
    let y := gfMul s2 i
    let z := gfMul s3 i
    if z ≠ gfF x y then .uncorrectable
    else if y = 2 then .corrected x s0
    else if y = 3 then .corrected (16 + x) s0
    else if x = 0 ∧ y = 0 then .corrected 32 s0
    else if x = 1 ∧ y = 0 then .corrected 33 s0
    else if x = 0 ∧ y = 1 then .corrected 34 s0
    else .uncorrectable

/-- Syndromes of a stored word, from data and check bits. R176. -/
def wordSyn (w chk : Nat) : Nat × Nat × Nat × Nat :=
  syndromes (((List.range 32).map fun n => (n, nibble w n)) ++
    (List.range 4).map fun k => (32 + k, bits chk (4 * k + 3) (4 * k)))

/-- A data word with a nibble flipped. -/
def flipNib (w nib err : Nat) : Nat := if nib < 32 then w ^^^ (err * 2 ^ (4 * nib)) else w

/-- A word as a reader sees it, without what the reading leaves behind: corrected where the code can, none where it cannot.
08_memory.md R177. -/
def seenWord (s : State) (a : Nat) : Option (List Byte) :=
  let raw := peek s a 16
  let dev := agetD s.mem.chk a 0
  if dev = 0 then some raw
  else
    let w := leNat raw
    match decodeSyn (wordSyn w (checkBits w ^^^ dev)) with
    | .clean => some raw
    | .corrected nib err => some (leBytes 16 (flipNib w nib err))
    | .uncorrectable => none

/-- Bytes as a reader sees them, for a look that another read of the same step accounts for; none where a word cannot be
corrected. -/
def seen (s : State) (a n : Nat) : Option (List Byte) :=
  let lo := a / 16 * 16
  let words := ceilDiv (a + n - lo) 16
  if s.mem.chk.any fun p => decide (lo ≤ p.1) && decide (p.1 < lo + 16 * words) then
    ((List.range words).foldr (fun i acc => (seenWord s (lo + 16 * i)).bind fun w => acc.map fun r => w ++ r) (some [])).map
      fun b => (b.drop (a - lo)).take n
  else some (peek s a n)

/-! ## Journal, events, error log -/

/-- The record's bytes in a journal page: header and payload (17_health.md R406) count toward a hub's 1 MiB. -/
def JRec.length (r : JRec) : Nat := 32 + r.payload.length

/-- Whether records reach a mounted, writable journal: a hub drives the NAND bus. 17_health.md R408, R410, R414. -/
def journalPath (s : State) : Bool := (nandHub s).isSome && s.jrnl.flash.mounted && ! s.jrnl.flash.readonly

/-- A hub forms a journal record and holds it (17_health.md R408). Without a path to the journal a record that does not
fit 1 MiB is dropped and counted, a clean-shutdown record excepted. -/
def journal (s : State) (h type : Nat) (payload : List Byte) : State :=
  let held := sumNat ((s.jrnl.held.filter fun r => decide (r.hub = h)).map JRec.length)
  let n := agetD s.jrnl.origin h 0 + 1
  let r : JRec := ⟨type, payload, now s h, n, s.life.boot, h, 0⟩
  if ¬ journalPath s ∧ 2 ^ 20 < held + r.length ∧ type ≠ 2 then
    let s := bump s .health_JOURNAL_DROPS 0
    modJrnl s fun j => { j with dropped := j.dropped ++ [h] }
  else
    modJrnl s fun j => { j with held := j.held ++ [r], origin := aset j.origin h n }

/-- Whether a port is lost: its hub is not healthy, or its link went down and has not trained since. 14_host.md R321, R336. -/
def portLost (s : State) (p : Nat) : Bool := ! hubAlive s (portHub p) || s.power.pcieLost.getD p false

/-- The primary port: the preferred one, the other where that one is lost and the other is not. 14_host.md R321, R336. -/
def primaryPort (s : State) : Nat :=
  let pref := rg s .port_primary_pref
  if ! portLost s pref then pref
  else if ! portLost s (1 - pref) then 1 - pref
  else if hubAlive s (portHub pref) then pref else 1 - pref

/-- Whether an authenticated session stands on a channel. -/
def sessionOn (s : State) (c : Channel) : Bool :=
  s.trust.sessions.any fun x => x.authed && decide (x.chan = c)

/-- A register write that needs an operator session on the primary port's PF is discarded and counted without one.
14_host.md R321. -/
def pfSession (s : State) : Bool := sessionOn s (.pcie (primaryPort s) 0)

/-- A write discarded under R321. -/
def writeRefused (s : State) (port : Nat) : State := bump s .port_NODE_WRITES_REFUSED port

/-- Sets a health event, with its EVENT record and the vector on an unmasked rise. 17_health.md R404. -/
def healthEvent (s : State) (die bit value : Nat) : State :=
  let old := rg s .health_events
  let s := journal s (dieHub s die) 0x21 (leBytes 2 die ++ leBytes 2 bit ++ leBytes 4 value)
  let s := rset s .health_events 0 0 (old ||| 2 ^ bit)
  if ¬ bit1 old bit ∧ bit1 (rg s .health_event_mask) bit then
    emit s (.msix (primaryPort s) 0 (rg s .health_health_vector))
  else s

/-- Health of a die, with its values at start. 17_health.md R403. -/
def dieHealth (s : State) (d : Nat) : DieHealth :=
  agetD s.health.dies d ⟨[0, 0, 0, 0], -128, 0, 0xFFFF, 0, 0, 0, 0, 0, 0, 0, 0xFF, 0, 0⟩

/-- Changes the health of a die. -/
def modDie (s : State) (d : Nat) (f : DieHealth → DieHealth) : State :=
  modHealth s fun x => { x with dies := aset x.dies d (f (dieHealth s d)) }

/-- Reader codes of error records. 08_memory.md R184; which reader a unit's read counts as is assumption 130. -/
def readDemand : Nat := 0
def readPool : Nat := 2
def readHost : Nat := 3
def readLane : Nat := 4
def readLink : Nat := 5
def readUnit : Nat := 6

/-- Offset of the Chive shadow in a hub's SRAM: 16 MiB within the fixed areas, the lower 112 MiB. 08_memory.md R445
(assumption 145). -/
def shadowOff : Nat := sramOff + Config.placeOf 9 0 % 0x600001 * 16

/-- Class of an error record by the die and offset of the word. 08_memory.md R184. -/
def errClass (die off : Nat) : Nat :=
  if die < 32 then (if 0x20000000000 ≤ off then 5 else if sramOff ≤ off then 1 else 0)
  else if shadowOff ≤ off ∧ off < shadowOff + 2 ^ 24 then 3 else 2

/-- An error record of a word in error. 08_memory.md R184. -/
def errRec (s : State) (cls : Nat) (unc : Bool) (nib syn die reader off : Nat) : ErrRec :=
  ⟨cls, unc, nib, syn, die, reader, off, now s (dieHub s die)⟩

/-- The bytes of an error record. 08_memory.md R184. -/
def ErrRec.bytes (r : ErrRec) : List Byte :=
  leBytes 1 (r.cls % 16 + 16 * b2n r.unc) ++ leBytes 1 r.nibble ++ leBytes 2 r.syndrome ++ leBytes 1 r.die ++
    leBytes 1 r.reader ++ leBytes 2 0 ++ leBytes 8 (r.address % 2 ^ 48) ++ leBytes 8 r.time

/-- Appends to a die's error log, which holds 32 records. 08_memory.md R184. -/
def logErr (s : State) (r : ErrRec) : State :=
  let l := agetD s.mem.errs r.die []
  if 32 ≤ l.length then bump s .mem_LOG_OVERFLOW r.die
  else modMem s fun m => { m with errs := aset m.errs r.die (l ++ [r]) }

/-- First and last unit of a die's general pool: the upper 48 MiB of a slice (06_append.md R136), the upper 16 MiB of a
hub (08_memory.md R445); the places are the model's (assumption 16). -/
def poolRange (die : Nat) : Nat × Nat := if die < 32 then (0x1000, 0x4000) else (0x7000, 0x8000)

/-- Whether a bank belongs to the fixed areas of its die. 08_memory.md R445, 06_append.md R136. -/
def fixedBank (die b : Nat) : Bool := decide (b < (poolRange die).1 / 64)

/-- A bank with its values before any change: automatic, no repair; once the dies are out of reset the banks of the fixed
areas are ON, which hold an allocation from the start on. 08_memory.md R192, R193, R196, R445. -/
def bankSt (s : State) (die b : Nat) : Bank :=
  agetD s.mem.banks (die, b) ⟨if fixedBank die b ∧ s.power.diesOut then .on else .off, 0, false, [], [], false⟩

/-- A bank of a die that holds no allocation but the fixed areas. 08_memory.md R192. -/
def idleBank (die b : Nat) (x : Bank) : Bank := { x with state := if fixedBank die b ∧ ! x.retired then .on else .off }

/-- Changes a bank. -/
def modBank (s : State) (die b : Nat) (f : Bank → Bank) : State :=
  modMem s fun m => { m with banks := aset m.banks (die, b) (f (bankSt s die b)) }

/-- Bank of a die's SRAM that holds an offset. 08_memory.md R197. -/
def bankOf (off : Nat) : Nat := (off - sramOff) / 0x40000

/-! ## Page space -/

/-- Extent count of a slice, the two device extents included. 06_append.md R134. -/
def extentCount (s : State) : Nat := if s.life.part = .p1TE then 32 else 64

/-- Fields of an lpn. 06_append.md R134. -/
def lpnSlice (lpn : Nat) : Nat := bits lpn 28 24
def lpnExtent (lpn : Nat) : Nat := bits lpn 23 18
def lpnUnit (lpn : Nat) : Nat := bits lpn 17 0
/-- The lpn of a unit. -/
def mkLpn (slice ext unit : Nat) : Nat := slice * 2 ^ 24 + ext * 2 ^ 18 + unit

/-- Home location of a page-space unit, through the extent map of a retired slice. 08_memory.md R198,
16_lifecycle.md R390. -/
def homeAddr (s : State) (lpn : Nat) : Nat :=
  let k := lpnSlice lpn
  let x := sliceSt s k
  match x.subst, aget x.moved (lpnExtent lpn) with
  | some t, some e => dieBase t + (e * 2 ^ 18 + lpnUnit lpn) * 4096
  | _, _ => dieBase k + (lpn % 2 ^ 24) * 4096

/-- Where the live copy of the page at an lpn lies. 06_append.md R135. -/
def liveAddr (s : State) (lpn : Nat) : Nat :=
  match aget s.mem.promo lpn with
  | some p => p.base
  | none => homeAddr s lpn

/-- Slot sizes in 4 KiB units by class code. 02_pages.md R29. -/
def slotUnits (cls : Nat) : Nat := [2, 3, 4, 6, 8, 12, 16].getD cls 16

/-- The smallest class whose size is at least n bytes. 02_pages.md R29. -/
def slotClass (n : Nat) : Nat :=
  ((List.range 7).find? fun c => decide (n ≤ slotUnits c * 4096)).getD 6

/-- Extent state as the slice holds it; an extent without a line reads FREE. 12_ledger.md R282. -/
def extentSt (s : State) (k e : Nat) : Extent := agetD s.ledg.exts (k, e) ⟨.free, 0, 0, 0, 0, false⟩

/-- Whether a substitute's extent holds, or is to hold, an extent of a retired slice. 16_lifecycle.md R390. -/
def hostsExtent (s : State) (t e : Nat) : Bool :=
  (s.life.slices.any fun p => decide (p.2.subst = some t) && p.2.moved.any fun m => decide (m.2 = e)) ||
    match s.life.op with
    | some o => (decide (o.op = 2) || decide (o.op = 3)) && decide (o.subst = t) && o.left.any fun m => decide (m.2 = e)
    | none => false

/-- Extents of a slice assigned to a tenant and not closing, ascending; one that holds a retired slice's extent has no
room of its own. 06_append.md R129, 12_ledger.md R283, 16_lifecycle.md R390. -/
def tenantExtents (s : State) (k tenant : Nat) : List Nat :=
  (List.range (extentCount s - 2)).filter fun e =>
    let x := extentSt s k e
    decide (x.state = .assigned) && decide (x.tenant = tenant) && ! hostsExtent s k e

/-- First gap of n units among rising intervals of a space of size units. -/
def firstGap : Nat → List (Nat × Nat) → Nat → Nat → Option Nat
  | at_, [], n, size => if at_ + n ≤ size then some at_ else none
  | at_, (b, l) :: r, n, size => if at_ + n ≤ b then some at_ else firstGap (max at_ (b + l)) r n size

/-- Units in use in an extent, as rising intervals. -/
def extentUse (s : State) (k e : Nat) : List (Nat × Nat) :=
  let base := mkLpn k e 0
  sortBy (·.1) ((s.mem.slots.filter fun p => decide (base ≤ p.1) && decide (p.1 < base + 2 ^ 18)).map
    fun p => (p.1 - base, p.2.units))

/-- The lowest free place of n units in the given extents of a slice (assumption 15). -/
def findSlot (s : State) (k : Nat) (exts : List Nat) (n : Nat) : Option Nat :=
  exts.findSome? fun e => (firstGap 0 (extentUse s k e) n (2 ^ 18)).map fun u => mkLpn k e u

/-- Quota table entry of a tenant: its own, or entry 0. 06_append.md R138. -/
def quotaEntry (s : State) (tenant : Nat) : Nat :=
  match s.regs.find? fun p => decide (p.1.1 = .tier_quota_tenant) && decide (p.1.2.2 ≠ 0) && decide (p.2 = tenant) with
  | some p => p.1.2.2
  | none => 0

/-- 4 KiB units of page space charged to a tenant, reservations included. 06_append.md R138, R139. -/
def slotUsed (s : State) (tenant : Nat) : Nat :=
  sumNat ((s.mem.slots.filter fun p => decide (p.2.tenant = tenant)).map fun p => p.2.units) +
    sumNat ((s.seqs.sealQ.filter fun q =>
      match aget s.seqs.descs q.desc with
      | some d => decide (d.tenant = tenant)
      | none => false).map fun q => q.resv)

/-- 4 KiB units of SRAM charged to a tenant. 06_append.md R138. -/
def sramUsed (s : State) (tenant : Nat) : Nat :=
  sumNat ((s.mem.sram.filter fun p => decide (p.use.tenant = tenant) && decide (p.kind ≠ .promotion) &&
    decide (p.kind ≠ .sealBuf)).map fun p => p.use.count)

/-- Merge buffers of a tenant: ingress and merge-point contexts. 05_merge.md R105, 06_append.md R138. -/
def mergeUsed (s : State) (tenant : Nat) : Nat :=
  (s.merge.ctxs.filter fun p => decide (p.2.tenant = tenant)).length +
    (s.merge.groups.filter fun g => decide (g.key.tenant = tenant)).length

/-- Whether n more units fit a limit; 0 is not enforced. 06_append.md R138. -/
def withinQuota (limit used n : Nat) : Bool := decide (limit = 0) || decide (used + n ≤ limit)

/-- Room for n units in a tenant's page-slot quota. -/
def slotQuotaOk (s : State) (tenant n : Nat) : Bool :=
  withinQuota (rget s .tier_slot_limit 0 (quotaEntry s tenant)) (slotUsed s tenant) n

/-- Room for n units in a tenant's SRAM quota. -/
def sramQuotaOk (s : State) (tenant n : Nat) : Bool :=
  withinQuota (rget s .tier_sram_limit 0 (quotaEntry s tenant)) (sramUsed s tenant) n

/-- Generation after one of a slot or descriptor: 0xFFFF_FFFF is followed by 1. 02_pages.md R32. -/
def nextGen (g : Nat) : Nat := if g % 2 ^ 32 = 0xFFFFFFFF then 1 else g % 2 ^ 32 + 1

/-- Generation of what lies at a slot. -/
def slotGen (s : State) (lpn : Nat) : Nat := ((aget s.mem.slots lpn).map (·.gen)).getD 0

/-- The header of a free slot: NONE with the generation the slot held last. 02_pages.md R32. -/
def freeHeader (s : State) (a gen : Nat) : State := poke s (a + 16) (zeros 4 ++ leBytes 4 gen ++ zeros 8)

/-- Slots of a tenant that a slice has freed so far. 06_append.md R129. -/
def freesOf (s : State) (k tenant : Nat) : Nat := agetD s.mem.frees (k, tenant) 0

/-- Clears a slot: scrubbed, its header NONE with the generation it held last, and so the slot bases that lay inside it.
03_sequences.md R60, 02_pages.md R32. -/
def clearSlot (s : State) (lpn : Nat) : State :=
  match aget s.mem.slots lpn with
  | none => s
  | some u =>
    let a := homeAddr s lpn
    let s := scrub s a (u.units * 4096)
    let s := freeHeader s a u.gen
    let s := (agetD s.mem.under lpn []).foldl (fun s p => freeHeader s (a + p.1 * 4096) p.2) s
    modMem s fun m =>
      { m with slots := adel m.slots lpn, promo := adel m.promo lpn, opens := adel m.opens lpn, under := adel m.under lpn,
               frees := aupd m.frees (lpnSlice lpn, u.tenant) 0 fun n => n + 1 }

/-- The generation of a slot whose page is rewritten in place. 02_pages.md R32. -/
def setSlotGen (s : State) (lpn gen : Nat) : State :=
  modMem s fun m => { m with slots := amod m.slots lpn fun u => { u with gen := gen } }

/-! ## SRAM allocation -/

/-- SRAM of a die in use or retired, as rising intervals of units. -/
def sramUse (s : State) (die : Nat) : List (Nat × Nat) :=
  sortBy (·.1) (((s.mem.sram.filter fun p => decide (p.use.die = die)).map fun p => (p.use.unit, p.use.count)) ++
    (s.mem.banks.filter fun p => decide (p.1.1 = die) && p.2.retired).map fun p => (p.1.2 * 64, 64))

/-- Free units of a die's general pool. -/
def poolFree (s : State) (die : Nat) : Nat :=
  let (lo, hi) := poolRange die
  let used := sumNat (((sramUse s die).filter fun p => decide (lo ≤ p.1)).map (·.2))
  hi - lo - min used (hi - lo)

/-- Node address of an SRAM unit. -/
def sramAddr (die unit : Nat) : Nat := dieBase die + sramOff + unit * 4096

/-- Turns ON the banks of a range of units; a bank turned ON reads zero (08_memory.md R192, R193). -/
def banksOn (s : State) (die unit n : Nat) : State :=
  (List.range (ceilDiv (unit % 64 + n) 64)).foldl (fun s i =>
    let b := unit / 64 + i
    if (bankSt s die b).state = .off then
      modBank (scrub s (sramAddr die (b * 64)) 0x40000) die b fun x => { x with state := .on }
    else modBank s die b fun x => { x with state := .on }) s

/-- The die whose SRAM serves a slice: its substitute's while the slice retires, is retired or isolated.
16_lifecycle.md R390. -/
def sramDie (s : State) (die : Nat) : Nat :=
  let x := sliceSt s die
  if die < 32 ∧ (x.st = 2 ∨ x.st = 3 ∨ x.st = 4) then x.subst.getD die else die

/-- Takes n units of a die's general pool, scrubbed (15_trust.md R361). -/
def allocSram (s : State) (die0 tenant n : Nat) (kind : SramKind) : Option (State × Nat) :=
  let die := sramDie s die0
  let (lo, hi) := poolRange die
  (firstGap lo ((sramUse s die).filter fun p => decide (lo ≤ p.1)) n hi).map fun u =>
    let s := banksOn s die u n
    let s := scrub s (sramAddr die u) (n * 4096)
    (modMem s fun m => { m with sram := m.sram ++ [⟨⟨die, u, n, tenant⟩, kind⟩] }, sramAddr die u)

/-- Releases the SRAM at a node address; a bank whose last allocation goes turns OFF (08_memory.md R193). -/
def freeSram (s : State) (addr : Nat) : State :=
  let die := addr / 2 ^ 42
  let unit := (addr % 2 ^ 42 - sramOff) / 4096
  match s.mem.sram.find? fun p => decide (p.use.die = die) && decide (p.use.unit = unit) with
  | none => s
  | some p =>
    let keep := s.mem.sram.filter fun q => ! (decide (q.use.die = die) && decide (q.use.unit = unit))
    let s := modMem s fun m => { m with sram := keep }
    (List.range (ceilDiv (unit % 64 + p.use.count) 64)).foldl (fun s i =>
      let b := unit / 64 + i
      let busy := s.mem.sram.any fun q => decide (q.use.die = die) && decide (q.use.unit / 64 ≤ b) &&
        decide (b ≤ (q.use.unit + q.use.count - 1) / 64)
      if busy ∨ (bankSt s die b).request ≠ 0 then s
      else modBank (scrub s (sramAddr die (b * 64)) 0x40000) die b fun x => { x with state := .off }) s

/-! ## Repair (08_memory.md R183, R196; 16_lifecycle.md R380) -/

/-- The known-good map copy in force: the valid one with the higher sequence. 16_lifecycle.md R380. -/
def kgmSlot (s : State) : Option Nat :=
  let good := s.life.kgm.filter fun p => kgmOk p.2
  (good.foldl (fun b p =>
    match b with
    | none => some p
    | some x => if x.2.seq < p.2.seq then some p else some x) none).map fun p => p.1

/-- The map in force. -/
def kgmNow (s : State) : KgMap := ((kgmSlot s).bind fun i => aget s.life.kgm i).getD default

/-- The repair fuses: spare columns and rows that are blown. 15_trust.md R341, 08_memory.md R183, R196. -/
def repairFuses (s : State) : List Byte :=
  (s.mem.banks.flatMap fun p => p.2.fused.flatMap fun c => leBytes 1 p.1.1 ++ leBytes 2 p.1.2 ++ leBytes 4 c) ++
    s.mem.rowHard.flatMap fun r => leBytes 1 r.1 ++ leBytes 8 r.2

/-- The fuse bank of a hub apart from the UDS. 15_trust.md R341, R347. -/
def fuseBytes (s : State) (h : Nat) : List Byte :=
  fuseImage s.life.part.code s.trust.fuses.fwKey (agetD s.trust.svnMin h 0) s.trust.fuses.debugLock (repairFuses s)

/-- SHAKE256 over the whole fuse bank of a hub apart from the UDS. 15_trust.md R347. -/
def fuseDigest (s : State) (h : Nat) : List Byte := imageHash (fuseBytes s h)

/-- Fuse prefix of the part: first 16 bytes of the fuse digest of the hub that drives the NAND bus. 16_lifecycle.md R380. -/
def fusePrefix (s : State) : List Byte := prefixOf (fuseBytes s ((nandHub s).getD 0))

/-- Writes the map to the other copy, with the next sequence, when a hub drives the NAND bus. 16_lifecycle.md R379,
R380. -/
def writeKgm (s : State) (state : Nat) (entries : List (Nat × Nat × Nat × Nat × Nat)) : State :=
  if (nandHub s).isNone then s
  else
    let i := ((kgmSlot s).map fun i => 1 - i).getD 0
    modLife s fun l => { l with kgm := aset l.kgm i (kgmOf state ((kgmNow s).seq + 1) (fusePrefix s) entries) }

/-- Enters a repair or a retired unit in the map: die, kind, unit, location, value. 16_lifecycle.md R380. -/
def kgmAdd (s : State) (die kind unit loc value : Nat) : State :=
  let m := kgmNow s
  writeKgm s (if m.state = 1 then 1 else 2) (m.entries ++ [(die, kind, unit, loc, value)])

/-- Pseudo-channel, and row counted over the banks, of a stack address. 08_memory.md R174. -/
def stackRow (s : State) (off : Nat) : Nat × Nat :=
  let small := decide (s.life.part = .p1TE)
  let bank := if small then bits off 20 16 else bits off 21 16
  let row := if small then bits off 34 21 else bits off 35 22
  (bits off 13 8 ^^^ bank, bank * 16384 + row)

/-- Spare bit-columns in use in a die. 17_health.md R403. -/
def sparesUsed (s : State) (die : Nat) : Nat :=
  sumNat ((s.mem.banks.filter fun p => decide (p.1.1 = die)).map fun p => p.2.fused.length + p.2.soft.length)

/-- What a word that cannot be corrected leaves: counted, logged, journalled. 08_memory.md R181, R184. -/
def badWord (s : State) (cls sy die reader off : Nat) : State :=
  let r := errRec s cls true 0xFF sy die reader off
  let s := bump s .mem_UNCORRECTABLE die
  let s := modDie s die fun x => { x with uncMem := min (x.uncMem + 1) 0xFFFF }
  let s := logErr s r
  healthEvent (journal s (dieHub s die) 0x10 r.bytes) die 8 off

/-- Reads and decodes one word of memory for a reader (08_memory.md R177, R180, R181, R184): a corrected word is counted,
logged and written back, and its nibble and error are answered; an uncorrectable one is counted, logged and journalled
and gives none. -/
def readWord (s : State) (a reader : Nat) : State × Option (List Byte) × Option (Nat × Nat) :=
  let raw := peek s a 16
  let dev := agetD s.mem.chk a 0
  if dev = 0 then (s, some raw, none)
  else
    let w := leNat raw
    let syn := wordSyn w (checkBits w ^^^ dev)
    let sy := syn.1 + 16 * syn.2.1 + 256 * syn.2.2.1 + 4096 * syn.2.2.2
    let die := a / 2 ^ 42
    let off := a % 2 ^ 42
    match decodeSyn syn with
    | .clean => (s, some raw, none)
    | .corrected nib err =>
      let d := leBytes 16 (flipNib w nib err)
      let s := bump s .mem_CORRECTED die
      let s := modDie s die fun x => { x with corrMem := satAdd x.corrMem 1 }
      let s := logErr s (errRec s (errClass die off) false nib sy die reader off)
      let n := agetD s.mem.hits a 0 + 1
      let s := poke s a d
      (modMem s fun y => { y with hits := aset y.hits a n }, some d, some (nib, err))
    | .uncorrectable => (badWord s (errClass die off) sy die reader off, none, none)

/-- Copies words through the code: corrected ones with fresh check bits; one that cannot be corrected stays so at its new
place, for no data is put in its stead. 08_memory.md R179, R180, R181. -/
def moveWords : Nat → State → Nat → Nat → State
  | 0, s, _, _ => s
  | n + 1, s, src, dst =>
    let raw := peek s src 16
    let dev := agetD s.mem.chk src 0
    match readWord s src readDemand with
    | (s, some d, _) => moveWords n (poke s dst d) (src + 16) (dst + 16)
    | (s, none, _) =>
      let s := poke s dst raw
      moveWords n (setChk s (aset s.mem.chk dst dev)) (src + 16) (dst + 16)

/-- Copies n bytes of SRAM, whole words, to another place. 08_memory.md R179, R196. -/
def moveRaw (s : State) (src dst n : Nat) : State :=
  let s := touchBanks s src n
  if s.mem.chk.any fun p => decide (src ≤ p.1) && decide (p.1 < src + n) then moveWords (n / 16) s src dst
  else poke s dst (peek s src n)

/-- What refers to a range of slice or hub SRAM refers to its new place. -/
def renameSram (s : State) (src dst n : Nat) : State :=
  let f := fun (a : Nat) => if src ≤ a ∧ a < src + n then a - src + dst else a
  let off := fun (k a : Nat) => f (dieBase k + a) - dieBase k
  let win := fun (k : Nat) (c : CmdSlot) =>
    { c with windows := c.windows.map fun w => { w with base := off k w.base } }
  let s := modSeqs s fun q =>
    { q with tails := q.tails.map fun p => (p.1, { p.2 with base := f p.2.base }),
             cache := q.cache.map fun p => (p.1, f p.2) }
  let s := modMem s fun m => { m with promo := m.promo.map fun p => (p.1, { p.2 with base := f p.2.base }) }
  let s := modRegn s fun r =>
    { r with regions := r.regions.map fun p => if p.2.kind = 3 then (p.1, { p.2 with target := f p.2.target }) else p }
  modDill s fun d =>
    { d with eng := d.eng.map fun p => (p.1, { p.2 with slots := p.2.slots.map fun c => (c.1, win p.1 c.2) }),
             snaps := d.snaps.map fun p => (p.1, if p.2.lpn.isSome then p.2 else { p.2 with base := f p.2.base }) }

/-- Banks of a die. -/
def bankCount (d : Nat) : Nat := if d < 32 then 256 else 512

/-- Moves an allocation to another place of its die's general pool; it stays where there is none. -/
def moveHold (s : State) (h : SramHold) : State :=
  match allocSram s h.use.die h.use.tenant h.use.count h.kind with
  | none => s
  | some (t, dst) =>
    let src := sramAddr h.use.die h.use.unit
    let n := h.use.count * 4096
    freeSram (renameSram (moveRaw t src dst n) src dst n) src

/-- A bank's share of a fixed area moves into the general pool, which shrinks by a bank; it stays where the pool has no
room. 08_memory.md R196, R445. -/
def moveArea (s : State) (die b : Nat) : State :=
  if fixedBank die b then
    match allocSram s die 0 64 .area with
    | none => s
    | some (t, dst) =>
      let src := sramAddr die (b * 64)
      modBank (renameSram (moveRaw t src dst 0x40000) src dst 0x40000) die b fun x => { x with state := .off }
  else s

/-- Retires a bank: its allocations move, it turns OFF and the map records it. 08_memory.md R196, 17_health.md R404. -/
def retireBank (s : State) (die b : Nat) : State :=
  let inBank := fun (h : SramHold) => decide (h.use.die = die) && decide (h.use.unit / 64 ≤ b) &&
    decide (b ≤ (h.use.unit + h.use.count - 1) / 64)
  let s := modBank s die b fun x => { x with retired := true }
  let s := moveArea ((s.mem.sram.filter inBank).foldl moveHold s) die b
  let s := if s.mem.sram.any inBank ∨ fixedBank die b then s else modBank s die b fun x => { x with state := .off }
  healthEvent (kgmAdd s die 2 b 0 0) die 5 b

/-- Repairs a bit-column of a bank: a soft repair with a free spare, or retirement where the bank needs a ninth.
08_memory.md R196. -/
def repairColumn (s : State) (die b col : Nat) : State :=
  let k := bankSt s die b
  let n := k.fused.length + k.soft.length
  let most := if die < 32 then 2048 else 4096
  let s :=
    if 8 ≤ n then retireBank s die b
    else
      let s := kgmAdd (modBank s die b fun x => { x with soft := x.soft ++ [col] }) die 3 b col n
      if 4 * sparesUsed s die = 3 * most then healthEvent s die 5 (sparesUsed s die) else s
  journal s (dieHub s die) 0x13 (leBytes 1 die ++ leBytes 1 3 ++ leBytes 2 b ++ leBytes 4 col ++ leBytes 1 0)

/-- Soft post-package repair of the stack row that holds an offset. 08_memory.md R183. -/
def repairRow (s : State) (die off : Nat) : State :=
  let (pc, row) := stackRow s off
  let s := modMem s fun m => { m with rowFix := m.rowFix ++ [(die, pc * 2 ^ 20 + row)] }
  let s := modDie s die fun x => { x with rowsRepaired := min (x.rowsRepaired + 1) 0xFFFF }
  let s := kgmAdd s die 4 pc row (fresh s).1
  journal (fresh s).2 (dieHub s die) 0x13 (leBytes 1 die ++ leBytes 1 4 ++ leBytes 2 pc ++ leBytes 4 row ++ leBytes 1 0)

/-- Repair after the third correction of one word in a patrol period. 08_memory.md R183, R196. -/
def repairWord (s : State) (die off nib err : Nat) : State :=
  let low := ((List.range 4).find? fun b => bit1 err b).getD 0
  if errClass die off = 0 then repairRow s die off
  else if errClass die off = 5 then s
  else repairColumn s die (bankOf off) (4 * nib + low)

/-! ## Reading and writing through the word code -/

/-- The third correction of one word in a patrol period repairs it, once the access that corrected it is done.
08_memory.md R183. -/
def mend (s : State) (a : Nat) : Option (Nat × Nat) → State
  | none => s
  | some (nib, err) => if agetD s.mem.hits a 0 = 3 then repairWord s (a / 2 ^ 42) (a % 2 ^ 42) nib err else s

/-- Reads and decodes one word of memory for a reader. 08_memory.md R177, R180, R181, R183. -/
def loadWord (s : State) (a reader : Nat) : State × Option (List Byte) :=
  match readWord s a reader with
  | (s, d, fix) => (mend s a fix, d)

/-- Reads the words that cover a range, in ascending order, stopping at the first that cannot be corrected. -/
def loadWords : Nat → State → Nat → Nat → State × Option (List Byte)
  | 0, s, _, _ => (s, some [])
  | n + 1, s, a, reader =>
    match readWord s a reader with
    | (s, none, _) => (s, none)
    | (s, some d, fix) =>
      match loadWords n s (a + 16) reader with
      | (s, r) => (mend s a fix, r.map fun r => d ++ r)

/-- Reads n bytes from a node address on through the word code; none when a word cannot be corrected. Without deviating
check bits in the range it is a plain read. -/
def load (s : State) (a n reader : Nat) : State × Option (List Byte) :=
  let s := touchBanks s a n
  let lo := a / 16 * 16
  let words := ceilDiv (a + n - lo) 16
  if s.mem.chk.any fun p => decide (lo ≤ p.1) && decide (p.1 < lo + 16 * words) then
    match loadWords words s lo reader with
    | (s, none) => (s, none)
    | (s, some d) => (s, some ((d.drop (a - lo)).take n))
  else (s, some (peek s a n))

/-- Writes bytes word by word in ascending address (07_dill.md R166, R167): a word written in part is read first, and
one the code cannot correct ends the write. Answers the bytes written and whether all were. -/
def storeWords : Nat → State → Nat → List Byte → Nat → State × Nat × Bool
  | 0, s, _, _, _ => (s, 0, true)
  | n + 1, s, a, bs, reader =>
    if bs.isEmpty then (s, 0, true)
    else
      let lo := a / 16 * 16
      let k := min (lo + 16 - a) bs.length
      if k = 16 then
        match storeWords n (poke s a (bs.take 16)) (a + 16) (bs.drop 16) reader with
        | (s, c, ok) => (s, c + 16, ok)
      else
        match readWord s lo reader with
        | (s, none, _) => (s, 0, false)
        | (s, some d, fix) =>
          let d' := d.take (a - lo) ++ bs.take k ++ d.drop (a - lo + k)
          match storeWords n (poke s lo d') (a + k) (bs.drop k) reader with
          | (s, c, ok) => (mend s lo fix, c + k, ok)

/-- A host, fabric or store write of any length. 07_dill.md R166, R167. -/
def store (s : State) (a : Nat) (bs : List Byte) (reader : Nat) : State × Nat × Bool :=
  storeWords (bs.length / 16 + 2) s a bs reader

/-! ## Metering -/

/-- Metering record of a tenant. 17_health.md R416. -/
def meterOf (s : State) (tenant : Nat) : Meter := agetD s.health.meters tenant ⟨0, 0, 0, 0, 0, 0, 0, 0, 0⟩

/-- Changes the metering record of a tenant from 1 to 16,383. 17_health.md R416. -/
def modMeter (s : State) (tenant : Nat) (f : Meter → Meter) : State :=
  if 1 ≤ tenant ∧ tenant ≤ 16383 then
    modHealth s fun h => { h with meters := aset h.meters tenant (f (meterOf s tenant)) }
  else s

/-- Records a change of die state. 17_health.md R407. -/
def dieStateRec (s : State) (die old new st : Nat) : State :=
  journal s (dieHub s die) 0x06 (leBytes 1 die ++ leBytes 1 old ++ leBytes 1 new ++ leBytes 1 st)

/-- Sets the die state of a slice, journalled. 16_lifecycle.md R392. -/
def setSliceSt (s : State) (k st lcStatus : Nat) : State :=
  let old := (sliceSt s k).st
  if old = st then s else dieStateRec (modSlice s k fun x => { x with st := st }) k old st lcStatus

/-- Sets the die state of a hub, journalled. 16_lifecycle.md R393. -/
def setHubSt (s : State) (h st lcStatus : Nat) : State :=
  let old := (hubSt s h).st
  if old = st then s else dieStateRec (modHub s h fun x => { x with st := st }) (32 + h) old st lcStatus

/-- The first condition of a table of ordered checks that holds gives the status. -/
def firstFail : List (Bool × Status) → Option Status
  | [] => none
  | (c, st) :: r => if c then some st else firstFail r

end Sys2Proof.Machine
end

