-- ==== Sys2Proof/Machine/Chive.lean ====
section
/-!
DEFINITION. The Chive index as an operation: home blocks, search with confirmation, insert, delete and replace, and the
overflow tables. 09_chive.md R200 to R213.
-/
namespace Sys2Proof.Machine

/-- Class codes. 09_chive.md R201. -/
def clsHandle : Nat := 1
def clsPrefix : Nat := 2
def clsRegion : Nat := 3
def clsConn : Nat := 4
def clsLedger : Nat := 5

/-- The hash of a class and key. 09_chive.md R202. -/
def chiveHash (cls key : Nat) : Nat := crc32c (leBytes 1 cls ++ leBytes 8 key)

/-- Home block of a key. 09_chive.md R202. -/
def homeBlock (s : State) (h cls key : Nat) : Nat :=
  rget s .chive_part_base h (cls - 1) + chiveHash cls key % max 1 (rget s .chive_part_blocks h (cls - 1))

/-- Rows of one block with their offsets, ascending. -/
def blockRows (tab : Assoc (Nat × Nat) ChiveRow) (h block : Nat) : List (Nat × ChiveRow) :=
  (List.range 16).filterMap fun i => (aget tab (h, block * 16 + i)).map fun r => (i, r)

/-- Writes a row: the shadow first, then the CAM. A bank's test is one step, so no row is written during it. 09_chive.md
R206, R214. -/
def rowWrite (s : State) (h pos : Nat) (r : Option ChiveRow) : State :=
  let set := fun (t : Assoc (Nat × Nat) ChiveRow) =>
    match r with
    | some x => aset t (h, pos) x
    | none => adel t (h, pos)
  modChive s fun c =>
    { c with shadow := set c.shadow, cam := set c.cam }

/-- Whether a row carries a class and key. -/
def rowIs (cls key : Nat) (r : ChiveRow) : Bool := decide (r.cls = cls) && decide (r.key = key)

/-- The row that answers: highest priority, then lowest offset. 09_chive.md R204. -/
def answerRow (cls key : Nat) (rows : List (Nat × ChiveRow)) : Option (Nat × ChiveRow) :=
  (rows.filter fun p => rowIs cls key p.2).foldl (fun best p =>
    match best with
    | none => some p
    | some b => if b.2.prio < p.2.prio then some p else some b) none

/-! ## Overflow tables (R209, R210) -/

/-- Buckets of a class's table. -/
def otBuckets (s : State) (h cls : Nat) : Nat := rget s .chive_ot_mib h (cls - 1) * 4096

/-- Rows of a class's table at a hub. -/
def otRows (s : State) (h cls : Nat) : List (Nat × ChiveRow) := agetD s.chive.ovf (h, cls) []

/-- Entries in use in a bucket. -/
def bucketUse (rows : List (Nat × ChiveRow)) (b : Nat) : Nat := (rows.filter fun p => decide (p.1 = b)).length

/-- The buckets within a key's probe limit, first to last. 09_chive.md R210. -/
def probeBuckets (s : State) (h cls key : Nat) : List Nat :=
  let n := max 1 (otBuckets s h cls)
  (List.range 8).map fun i => (chiveHash cls key + i) % n

/-- Rows the table holds for a key. A probe that has met no row of the key stops at a free entry; one whose key lies beyond,
after a move or a delete, reads on to it, since a key is never lost from view (R209; DEDUCED, assumption 144). R210. -/
def otFind (s : State) (h cls key : Nat) : List ChiveRow :=
  let bs := probeBuckets s h cls key
  ((otRows s h cls).filter fun p => bs.contains p.1 && rowIs cls key p.2).map (·.2)

/-- Whether one of a table's two copies can be read, in the upper device extents of SD(4q) and SD(4q+1). R210. -/
def otReadable (s : State) (h : Nat) : Bool := sliceReachable s (4 * h) || sliceReachable s (4 * h + 1)

/-- Sets a class's table. -/
def setOt (s : State) (h cls : Nat) (rows : List (Nat × ChiveRow)) : State :=
  modChive s fun c => { c with ovf := aset c.ovf (h, cls) rows }

/-- Whether a class's overflowed flag is set. -/
def overflowed (s : State) (h cls : Nat) : Bool := s.chive.flags.contains (h, cls)

/-- Puts the rows of one key in a bucket with room for all of them; none when the probe finds none.
09_chive.md R210. -/
def otPlace (s : State) (h cls key : Nat) (group : List ChiveRow) : Option State :=
  let rest := (otRows s h cls).filter fun p => ! rowIs cls key p.2
  let bs := probeBuckets s h cls key
  let old := ((otRows s h cls).find? fun p => rowIs cls key p.2).map (·.1)
  let fits := fun b => decide (bucketUse rest b + group.length ≤ 8)
  let pick := match old with
    | some b => if fits b then some b else bs.find? fits
    | none => bs.find? fits
  pick.map fun b => setOt s h cls (rest ++ group.map fun r => (b, r))

/-! ## Search (R204, R205, R213, R214) -/

/-- Result of a search. -/
inductive Found where
  | hit (value : Nat)
  | miss
  /-- a miss in a block that is being rebuilt -/
  | rebuilding
  deriving DecidableEq, Repr

/-- Raises a counter of a hub's Chive block. -/
def chiveBump (s : State) (h : Nat) (r : Reg) : State := bump s r h

/-- What a miss answers: BUSY while the key's block is rebuilding. 09_chive.md R213. -/
def missed (s : State) (h cls key : Nat) : Found :=
  if s.chive.rebuild.contains (h, homeBlock s h cls key) then .rebuilding else .miss

/-- The end of a search that the CAM block and its shadow do not answer. With no copy of an overflowed table to read it answers
as a block being rebuilt does (DESIGN CHOICE, assumption 152). -/
def searchRest (s : State) (h cls key : Nat) (confirm : Nat → Bool) : State × Found :=
  let gone := missed s h cls key
  if overflowed s h cls ∧ ! otReadable s h then (s, .rebuilding)
  else if overflowed s h cls then
    let s := chiveBump s h .chive_OVERFLOW_PROBES
    match answerRow cls key ((otFind s h cls key).map fun r => (0, r)) with
    | some (_, r) =>
      if confirm r.value then (chiveBump s h .chive_HITS, .hit r.value)
      else (chiveBump s h .chive_CONFIRM_FAILS, gone)
    | none => (s, gone)
  else (s, gone)

/-- A miss in the CAM: the shadow block is read first. 09_chive.md R205. -/
def searchShadow (s : State) (h cls key : Nat) (confirm : Nat → Bool) : State × Found :=
  let block := homeBlock s h cls key
  match answerRow cls key (blockRows s.chive.shadow h block) with
  | some (i, r) =>
    let s := chiveBump (modChive s fun c => { c with cam := aset c.cam (h, block * 16 + i) r }) h .chive_SHADOW_CORRECTIONS
    if confirm r.value then (chiveBump s h .chive_HITS, .hit r.value)
    else (chiveBump s h .chive_CONFIRM_FAILS, missed s h cls key)
  | none => searchRest s h cls key confirm

/-- One pass over the CAM; `again` allows the single repeat of R205. -/
def searchCam (again : Nat) (s : State) (h cls key : Nat) (confirm : Nat → Bool) : State × Found :=
  let s := chiveBump s h .chive_SEARCHES
  let block := homeBlock s h cls key
  match answerRow cls key (blockRows s.chive.cam h block) with
  | none => searchShadow s h cls key confirm
  | some (i, r) =>
    if confirm r.value then (chiveBump s h .chive_HITS, .hit r.value)
    else
      let sh := aget s.chive.shadow (h, block * 16 + i)
      if sh = some r then (chiveBump s h .chive_CONFIRM_FAILS, missed s h cls key)
      else
        let s := modChive s fun c =>
          { c with cam := match sh with
              | some x => aset c.cam (h, block * 16 + i) x
              | none => adel c.cam (h, block * 16 + i) }
        let s := chiveBump s h .chive_SHADOW_CORRECTIONS
        match again with
        | 0 => (s, missed s h cls key)
        | n + 1 => searchCam n s h cls key confirm

/-- A search of (class, key) at a hub, with the caller's confirmation of a value. 09_chive.md R205. -/
def search (s : State) (h cls key : Nat) (confirm : Nat → Bool) : State × Found := searchCam 1 s h cls key confirm

/-! ## Updates (R206 to R209) -/

/-- Result of an insert. -/
inductive Inserted where
  | done
  /-- the key has a row already, with this value -/
  | exists_ (value : Nat)
  /-- a fifth row of one key: BOUNDS -/
  | bounds
  /-- no room in the overflow table: BUSY -/
  | busy
  deriving DecidableEq, Repr

/-- Moves rows up by one from offset lo to the hole. -/
def shiftUp (s : State) (h block lo : Nat) : Nat → State
  | 0 => s
  | n + 1 =>
    let s' := rowWrite s h (block * 16 + lo + n + 1) (aget s.chive.shadow (h, block * 16 + lo + n))
    shiftUp s' h block lo n

/-- Moves n rows down by one, the first from offset lo + 1 into the hole at lo. -/
def shiftDown (s : State) (h block lo : Nat) : Nat → State
  | 0 => s
  | n + 1 =>
    let s' := rowWrite s h (block * 16 + lo) (aget s.chive.shadow (h, block * 16 + lo + 1))
    shiftDown s' h block (lo + 1) n

/-- Where a new row goes in a block of at most 14 rows: its offset, the hole taken, the rows that move.
09_chive.md R207. -/
def insertPlace (rows : List (Nat × ChiveRow)) (prio : Nat) : Nat × Bool × Nat × Nat :=
  let place := ((rows.filter fun p => decide (prio ≤ p.2.prio)).map fun p => p.1 + 1).getLast?.getD 0
  let holes := (List.range 16).filter fun i => ! rows.any fun p => decide (p.1 = i)
  let after := holes.find? fun i => decide (place ≤ i)
  let before := (holes.filter fun i => decide (i < place)).getLast?
  match before, after with
  | some b, some a => if a - place ≤ place - 1 - b then (place, true, a, a - place) else (place - 1, false, b, place - 1 - b)
  | some b, none => (place - 1, false, b, place - 1 - b)
  | none, some a => (place, true, a, a - place)
  | none, none => (place, true, place, 0)

/-- Inserts into the home block. -/
def insertBlock (s : State) (h : Nat) (row : ChiveRow) : State :=
  let block := homeBlock s h row.cls row.key
  let (at_, up, hole, moves) := insertPlace (blockRows s.chive.shadow h block) row.prio
  let s := if up then shiftUp s h block at_ moves else shiftDown s h block hole moves
  let s := bumpBy s .chive_MOVES h moves
  chiveBump (rowWrite s h (block * 16 + at_) (some row)) h .chive_UPDATES

/-- Order of a key's rows in a table: priority descending, older first. -/
def byPrio (rows : List ChiveRow) : List ChiveRow := sortBy (fun r => 255 - r.prio) rows

/-- Inserts a row. 09_chive.md R207, R209. -/
def insert (s : State) (h : Nat) (row : ChiveRow) : State × Inserted :=
  let block := homeBlock s h row.cls row.key
  let rows := blockRows s.chive.shadow h block
  let mine := rows.filter fun p => rowIs row.cls row.key p.2
  let probes := mine.isEmpty && overflowed s h row.cls
  let spilt := if probes then otFind s h row.cls row.key else []
  let have_ := mine.map (·.2) ++ spilt
  let same := have_.find? fun r => decide (r.prio = row.prio)
  let s := chiveBump s h .chive_SEARCHES
  let s := if probes then chiveBump s h .chive_OVERFLOW_PROBES else s
  if probes ∧ ! otReadable s h then (s, .busy)
  else if row.cls ≠ clsRegion ∧ ! have_.isEmpty then (s, .exists_ ((have_.head?.map (·.value)).getD 0))
  else if same.isSome then
    let s := match mine.find? fun p => decide (p.2.prio = row.prio) with
      | some (i, _) => rowWrite s h (block * 16 + i) (some row)
      | none => setOt s h row.cls ((otRows s h row.cls).map fun p =>
          if rowIs row.cls row.key p.2 ∧ p.2.prio = row.prio then (p.1, row) else p)
    (chiveBump s h .chive_UPDATES, .done)
  else if 4 ≤ have_.length then (s, .bounds)
  else if spilt.isEmpty ∧ rows.length < 15 ∧ ¬ s.chive.retired.contains (h, block) then (insertBlock s h row, .done)
  else
    match otPlace s h row.cls row.key (byPrio (have_ ++ [row])) with
    | none => (chiveBump s h .chive_INSERT_REFUSED, .busy)
    | some s =>
      let s := modChive s fun c => { c with flags := if c.flags.contains (h, row.cls) then c.flags else c.flags ++ [(h, row.cls)] }
      let s := mine.foldl (fun s p => rowWrite s h (block * 16 + p.1) none) s
      (chiveBump (chiveBump s h .chive_OVERFLOW_INSERTS) h .chive_UPDATES, .done)

/-- Clears an overflowed flag once the table's last row is gone. 09_chive.md R211. -/
def settleFlag (s : State) (h cls : Nat) : State :=
  if (otRows s h cls).isEmpty then modChive s fun c => { c with flags := c.flags.filter fun f => decide (f ≠ (h, cls)) } else s

/-- The search before an update probes the table of a class that has overflowed. 09_chive.md R204, R207, R217. -/
def probed (s : State) (h cls : Nat) : State :=
  if overflowed s h cls then chiveBump s h .chive_OVERFLOW_PROBES else s

/-- Deletes the row of a class and key with a value and priority. 09_chive.md R207. -/
def delete (s : State) (h cls key prio : Nat) : State :=
  let block := homeBlock s h cls key
  let s := chiveBump (chiveBump s h .chive_SEARCHES) h .chive_UPDATES
  match (blockRows s.chive.shadow h block).find? fun p => rowIs cls key p.2 && decide (p.2.prio = prio) with
  | some (i, _) => rowWrite s h (block * 16 + i) none
  | none =>
    let s := probed s h cls
    settleFlag (setOt s h cls ((otRows s h cls).filter fun p => ! (rowIs cls key p.2 && decide (p.2.prio = prio)))) h cls

/-- Rewrites the value of a row in place. 09_chive.md R207. -/
def replace (s : State) (h : Nat) (row : ChiveRow) : State :=
  let block := homeBlock s h row.cls row.key
  let s := chiveBump (chiveBump s h .chive_SEARCHES) h .chive_UPDATES
  match (blockRows s.chive.shadow h block).find? fun p => rowIs row.cls row.key p.2 && decide (p.2.prio = row.prio) with
  | some (i, _) => rowWrite s h (block * 16 + i) (some row)
  | none => setOt (probed s h row.cls) h row.cls ((otRows s h row.cls).map fun p =>
      if rowIs row.cls row.key p.2 ∧ p.2.prio = row.prio then (p.1, row) else p)

/-- The hubs that keep an index: those in service. -/
def liveHubs (s : State) : List Nat := (List.range 8).filter fun h => hubAlive s h

/-- Inserts a row at every hub that lives; on a refusal the rows already entered are withdrawn. 03_sequences.md R49. -/
def insertAll (s : State) (hs : List Nat) (row : ChiveRow) : State × Inserted :=
  match hs with
  | [] => (s, .done)
  | h :: hs =>
    match insert s h row with
    | (s, .done) =>
      match insertAll s hs row with
      | (s, .done) => (s, .done)
      | (s, r) => (delete s h row.cls row.key row.prio, r)
    | (s, r) => (s, r)

/-- Deletes a row at every hub that lives. -/
def deleteAll (s : State) (cls key prio : Nat) : State :=
  (liveHubs s).foldl (fun s h => delete s h cls key prio) s

end Sys2Proof.Machine
end

