-- ==== Sys2Proof/Machine/Flags.lean ====
section
/-!
DEFINITION. The values the node derives from its state: configuration bodies, digests and tags, trust, queue levels, load
hints, credit, in-flight counts.
-/
namespace Sys2Proof.Machine

/-! ## Configuration in force (16_lifecycle.md R368 to R376) -/

/-- Class codes. 16_lifecycle.md R368. -/
def clsWire : Nat := 1
def clsPage : Nat := 2
def clsMap : Nat := 3
def clsKernel : Nat := 4
def clsTraffic : Nat := 5
def clsEndpoints : Nat := 6
def clsTrust : Nat := 0x10
def clsPorts : Nat := 0x11
def clsNode : Nat := 0x12

/-- The nine classes, ascending. -/
def allClasses : List Nat := [1, 2, 3, 4, 5, 6, 0x10, 0x11, 0x12]

/-- Whether a class is critical. 16_lifecycle.md R368. -/
def critical (c : Nat) : Bool := decide (1 ≤ c) && decide (c ≤ 3)

/-- The configuration slot in force. -/
def cfgSlot (s : State) : CfgSlot := agetD s.life.cfg s.life.slot default

/-- Body of a class in force. -/
def body (s : State) (c : Nat) : List Byte := agetD (cfgSlot s).bodies c []

/-- Digest of a class body. 16_lifecycle.md R369. -/
def digestOf (c : Nat) (b : List Byte) : List Byte := Config.shake256 (leBytes 1 c ++ b) 64

/-- Digest of a class in force. -/
def digest (s : State) (c : Nat) : List Byte := digestOf c (body s c)

/-- A configuration tag from critical and other digests. 16_lifecycle.md R369. -/
def tagOf (hi lo : List Byte) : Nat :=
  beNat (takeBytes (Config.shake256 hi 64) 0 2) * 65536 + beNat (takeBytes (Config.shake256 lo 64) 0 2)

/-- The digests of KERNEL, TRAFFIC and ENDPOINTS. -/
def loDigests (s : State) : List Byte := digest s clsKernel ++ digest s clsTraffic ++ digest s clsEndpoints

/-- The node's configuration tag. 16_lifecycle.md R369. -/
def configTag (s : State) : Nat := tagOf (digest s clsWire ++ digest s clsPage ++ digest s clsMap) (loDigests s)

/-- The alternate body of a critical class, or the body in force where the alternate carries none. -/
def altBody (s : State) (c : Nat) : List Byte := (aget s.life.alt c).getD (body s c)

/-- The alternate tag, 0 when none. 16_lifecycle.md R375. -/
def altTag (s : State) : Nat :=
  if s.life.crit = 0 then 0
  else tagOf (digestOf 1 (altBody s 1) ++ digestOf 2 (altBody s 2) ++ digestOf 3 (altBody s 3)) (loDigests s)

/-- What a TRUST body holds; without a body the class holds nothing, operator_windows_en and legacy_mgmt_en at their default
0. 15_trust.md R350. -/
def trustOf (b : List Byte) : Trust := if b.isEmpty then ⟨[], [], [], [], [], [], false, false⟩ else Config.trustOf b

/-- Whether a TRUST class keeps the limits of R350: 8 operator keys, 4 keys a tenant, 65,536 domains with domain 0 the
device's, 16 link anchors, 64 prefixes a peer list, 8,192 members, prefixes of 16 bytes. -/
def trustFits (t : Trust) : Bool :=
  (t.opKeys.all fun p => decide (p.1 < 8)) && (t.tenantKeys.all fun p => decide (p.1.1 < 65536) && decide (p.1.2 < 4)) &&
    (t.domains.all fun p => decide (p.1 < 65536) && (decide (p.1 ≠ 0) || decide (p.2 = 0))) && decide (t.anchors.length ≤ 16) &&
    (t.peers.all fun p => decide (p.2.length ≤ 64) && p.2.all fun x => decide (x.length = 16)) &&
    decide (t.members.length ≤ 8192) && t.members.all fun x => decide (x.length = 16)

/-- What the TRUST class holds. 15_trust.md R350. -/
def trustCfg (s : State) : Trust := trustOf (body s clsTrust)

/-! ## Identity (15_trust.md R341, R345) -/

/-- A hub's Lovage. 15_trust.md R342. -/
def lovOf (s : State) (h : Nat) : Lovage := agetD s.trust.lov h Lovage.reset

/-- dev_seed: the DeviceID private key, of the UDS and the identity fuses alone. 15_trust.md R345; the label is "DEVID". -/
def devSeed (s : State) : List Byte :=
  takeBytes (Config.shake256 ([0x44#8, 0x45#8, 0x56#8, 0x49#8, 0x44#8] ++ s.trust.fuses.uds ++ idFuses s.life.part.code) 57) 0 57

/-- Public keys of DeviceID and of a hub's alias key. 15_trust.md R345. -/
def devPublic (s : State) : List Byte := takeBytes (Config.ed448Public (devSeed s)) 0 57
def aliasPublic (s : State) (h : Nat) : List Byte := takeBytes (Config.ed448Public (lovOf s h).aliasSeed) 0 57

/-- A signature by a hub's alias key. -/
def aliasSign (s : State) (h ctx : Nat) (b : List Byte) : List Byte :=
  takeBytes (Config.ed448Sign (lovOf s h).aliasSeed ctx b) 0 114

/-- Tenant of a protection domain; domain 0 is the device's. 15_trust.md R350. -/
def pdTenant (s : State) (pd : Nat) : Option Nat :=
  if pd = 0 then some 0 else aget (trustCfg s).domains pd

/-- Configuration sequence in force. -/
def configSeq (s : State) : Nat := (cfgSlot s).seq

/-! ## Endpoints -/

/-- Endpoint of a hub's port. 10_fabric.md R221. -/
def endpointOf (s : State) (h : Nat) : Nat := rget s .fab_endpoint_id h 0

/-- Hubs whose port carries an endpoint: a port group. 10_fabric.md R221. -/
def groupHubs (s : State) (ep : Nat) : List Nat := (List.range 8).filter fun h => decide (endpointOf s h = ep)

/-- The node's own endpoints. -/
def isOwn (s : State) (ep : Nat) : Bool := (List.range 8).any fun h => decide (endpointOf s h = ep)

/-- The endpoint the node stands as: port 0's (assumption 30). -/
def nodeEndpoint (s : State) : Nat := endpointOf s 0

/-- Sub-ports of a hub that are up, ascending. -/
def upSubs (s : State) (h : Nat) : List Nat :=
  (List.range 4).filter fun u => (agetD s.fab.subs (h, u) default).up

/-- Where frames of a connection of an own endpoint leave: its hub's sub-port (connection ID mod n), or another port of the
endpoint's group, over the hub links, when none is up. 10_fabric.md R221, R222, 01_node.md R16. -/
def egressAt (s : State) (h ep cid : Nat) : Option (Nat × Nat) :=
  let at_ := fun (k : Nat) =>
    let us := upSubs s k
    us[cid % max 1 us.length]?.map fun u => (k, u)
  match if endpointOf s h = ep then at_ h else none with
  | some r => some r
  | none => ((groupHubs s ep).filter fun k => hubAlive s k && (hubRoute s h k).isSome).findSome? at_

/-! ## Queues, credit and load (13_traffic.md R304, R312, R314) -/

/-- Requests in a hub's queue: from order 8 to completion. 13_traffic.md R304. -/
def queueLen (s : State) (h : Nat) : Nat :=
  (s.msgs.filter fun p => decide (p.2.hub = h) && ! p.2.resp && decide (p.2.opcode ≠ .recallAck) &&
    decide (p.2.opcode ≠ .nack) && decide (p.2.opcode ≠ .hello) && decide (p.2.opcode ≠ .ack) &&
    decide (p.2.opcode ≠ .heartbeat) && decide (p.2.opcode ≠ .readResp) && decide (p.2.phase ≠ .waitContrib)).length +
    sumNat ((s.fab.conns.filter fun p => decide (p.2.hub = h)).map fun p => p.2.passed.length)

/-- Room in a hub's request queue. 13_traffic.md R304. -/
def queueMax : Nat := 4096

/-- The hub level. 13_traffic.md R312. -/
def hubLevel (s : State) (h : Nat) : Nat := min 7 (8 * queueLen s h / queueMax)

/-- Least k with 2^k ≥ n. -/
def clog2 (n : Nat) : Nat := if n ≤ 1 then 0 else Nat.log2 (n - 1) + 1

/-- Policer entry of a fabric endpoint and of a function. 13_traffic.md R300, 14_host.md R319. -/
def polEndpoint (ep : Nat) : Nat := ep % 65536
def polFn (port fn : Nat) : Nat := 2 ^ 24 + 64 * port + fn

/-- The peer level of a policer entry. 13_traffic.md R312: for red, 8 + ⌈log2(w / 8 µs)⌉, capped at 15. -/
def peerLevel (s : State) (h key : Nat) : Nat :=
  match aget s.traf.pols (h, key) with
  | none => 0
  | some p =>
    match p.last with
    | .green => 0
    | .yellow => 4
    | .red => min 15 (5 + clog2 p.wait)

/-- The load hint for a peer, at least 8 beside a BUSY status. 13_traffic.md R312. -/
def loadHint (s : State) (h key : Nat) (busy : Bool) : Nat :=
  max (max (hubLevel s h) (peerLevel s h key)) (if busy then 8 else 0)

/-- Whether a message's handler has not started. 13_traffic.md R314. -/
def Phase.before (p : Phase) : Bool :=
  match p with
  | .arrived | .waitLine _ | .waitEpoch | .waitPayload => true
  | _ => false

/-- Reassembly space of a hub in use, in 4 KiB units: the segments that its connections hold, and those of messages whose
handler has not started. 13_traffic.md R314. -/
def reasmUsed (s : State) (h : Nat) : Nat :=
  sumNat ((s.fab.conns.filter fun p => decide (p.2.hub = h)).map fun p =>
    sumNat (p.2.reasm.map fun f => ceilDiv f.payLen 4096)) +
    sumNat ((s.msgs.filter fun p => decide (p.2.hub = h) && p.2.phase.before).map fun p => p.2.units)

/-- Reassembly space of a hub in 4 KiB units: 32 MiB. 13_traffic.md R314, 08_memory.md R445. -/
def reasmUnits : Nat := 8192

/-- The grant of R314 before the edge rule, for a policer entry. -/
def creditGrant (s : State) (h key : Nat) : Nat :=
  let lo := rg s .traffic_credit_min
  let isRed : Bool := match aget s.traf.pols (h, key) with
    | some p => decide (p.last = .red)
    | none => false
  if isRed then lo
  else max lo (rg s .traffic_credit_max * (reasmUnits - min (reasmUsed s h) reasmUnits) / reasmUnits)

/-! ## In flight -/

/-- Requests of a hub in flight under an epoch. 12_ledger.md R292, R299. -/
def inflightUnder (s : State) (h epoch : Nat) : Nat :=
  (s.msgs.filter fun p => decide (p.2.hub = h) && ! p.2.resp && decide (p.2.epoch = epoch)).length

/-- Total of TAG_MISMATCH over all ports. 16_lifecycle.md R376. -/
def tagMismatches (s : State) : Nat := sumNat ((List.range 8).map fun h => rget s .fab_TAG_MISMATCH h 0)

/-- Whether the node takes new requests: IN_SERVICE. 16_lifecycle.md R378, R383. -/
def inService (s : State) : Bool := decide (s.life.node = 2)

/-- Whether new requests are refused BUSY: DRAINING or SHUTTING_DOWN. 16_lifecycle.md R383, 18_package.md R433. -/
def draining (s : State) : Bool := decide (s.life.node = 3) || decide (s.life.node = 4)

end Sys2Proof.Machine
end

