-- ==== Sys2Proof/Machine/Conn.lean ====
section
/-!
DEFINITION. Sending: frames and messages on connections, completions on PCIe rings, and the end of a request.
10_fabric.md R226 to R246, 13_traffic.md R306 to R314, 14_host.md R328 to R331.
-/
namespace Sys2Proof.Machine

/-! ## Sequence numbers -/

/-- Addition of sequence numbers. 10_fabric.md R238. -/
def sAdd (a b : Nat) : Nat := (a + b) % 2 ^ 32

/-- Distance from a to b in sequence numbers. -/
def sDist (a b : Nat) : Nat := (b + 2 ^ 32 - a % 2 ^ 32) % 2 ^ 32

/-- Whether a precedes b. 10_fabric.md R238. -/
def sLt (a b : Nat) : Bool := serialLt 32 a b

/-! ## The header (R227, R228) -/

/-- Flags of R228. -/
def flAckValid : Nat := 1
def flSack : Nat := 2
def flRetx : Nat := 4
def flClose : Nat := 8
def flResp : Nat := 16

/-- Bytes of the Plembel header. 10_fabric.md R227. -/
def hdrLen : Nat := 44

/-- A frame's bytes from the header on. 10_fabric.md R227. -/
def Frame.bytes (f : Frame) : List Byte :=
  beBytes 1 (f.version * 16 + f.loadHint) ++ beBytes 1 f.opcode ++ beBytes 2 f.flags ++ beBytes 4 f.src ++
    beBytes 4 (f.cls * 2 ^ 24 + f.dst) ++ beBytes 4 f.connId ++ beBytes 4 f.seq ++ beBytes 4 f.ack ++ beBytes 4 f.tag ++
    beBytes 2 f.epoch ++ beBytes 2 f.pd ++ beBytes 2 f.credit ++ beBytes 2 f.payLen ++ beBytes 2 f.segIndex ++
    beBytes 2 f.segCount ++ beBytes 4 f.replyTo ++ f.payload

/-- The frame that bytes spell: none when they are shorter than a header or their payload. 10_fabric.md R227. -/
def Frame.parse (b : List Byte) : Option Frame :=
  let g := fun o n => fld true b o n
  if b.length < hdrLen then none
  else if b.length < hdrLen + g 34 2 then none
  else some
    { version := g 0 1 / 16, loadHint := g 0 1 % 16, opcode := g 1 1, flags := g 2 2, src := g 4 4 % 2 ^ 24,
      cls := bits (g 8 4) 27 24, dst := g 8 4 % 2 ^ 24, connId := g 12 4, seq := g 16 4, ack := g 20 4, tag := g 24 4,
      epoch := g 28 2, pd := g 30 2, credit := g 32 2, payLen := g 34 2, segIndex := g 36 2, segCount := g 38 2,
      replyTo := g 40 4, payload := (b.drop hdrLen).take (g 34 2) }

/-- Opcodes that always use class 0. 13_traffic.md R306. -/
def controlOp (o : Opcode) : Bool :=
  o == .ack || o == .nack || o == .hello || o == .heartbeat || o == .recall || o == .recallAck || o == .mgmt

/-- Opcodes that consume no sequence number. 10_fabric.md R231. -/
def unsequenced (o : Opcode) : Bool := o == .ack || o == .hello || o == .heartbeat

/-! ## Connections -/

/-- A connection record. -/
def connOf (s : State) (id : Nat) : Option Conn := aget s.fab.conns id

/-- Changes a connection record. -/
def modConn (s : State) (id : Nat) (f : Conn → Conn) : State :=
  modFab s fun x => { x with conns := amod x.conns id f }

/-- The record of (connection ID, peer) of an own endpoint; a FAILED one answers when there is no other. 10_fabric.md R221,
R230, R234. -/
def findConn (s : State) (ep cid peer : Nat) : Option (Nat × Conn) :=
  let mine := s.fab.conns.filter fun p => decide (p.2.id = cid) && decide (p.2.peer = peer) &&
    decide (p.2.own = ep)
  (mine.find? fun p => decide (p.2.state ≠ .failed)) <|> mine.head?

/-- Segment size of a connection. 10_fabric.md R231, R233. -/
def segSize (c : Conn) : Nat := (min c.segCode 7 + 1) * 1024

/-- Whether a record is pinned: unacknowledged sends, a partial reassembly or a request without a response.
10_fabric.md R245. -/
def pinned (s : State) (id : Nat) (c : Conn) : Bool :=
  ! c.ring.isEmpty || ! c.reasm.isEmpty || ! c.asked.isEmpty ||
    s.msgs.any fun p => match p.2.origin with
      | .conn _ i _ => decide (i = id)
      | _ => false

/-- The Chive key of a connection. 09_chive.md R201. -/
def connKey (c : Conn) : Nat := c.id + c.peer * 2 ^ 32

/-- State index of a connection: its hub and its record among the hub's 524,288, the 4,194,304 of a node in all.
10_fabric.md R244. -/
def Conn.index (c : Conn) : Nat := c.hub * 524288 + c.slot

/-- The Chive row of a connection: state index, and bit 22 when spilled. 09_chive.md R201, 10_fabric.md R244. -/
def connRow (c : Conn) : ChiveRow := ⟨connKey c, clsConn, 0, c.index + if c.onChip then 0 else 2 ^ 22⟩

/-- The lowest record number of a hub that no connection holds; none where all are held. 10_fabric.md R244. -/
def freeRecord (s : State) (h : Nat) : Option Nat :=
  let used := (s.fab.conns.filter fun p => decide (p.2.hub = h)).map fun p => p.2.slot
  ((List.range (used.length + 1)).find? fun n => ! used.contains n).filter fun n => decide (n < 524288)

/-- Records of a hub on chip, and in its arena. 10_fabric.md R244. -/
def onChipCount (s : State) (h : Nat) : Nat :=
  (s.fab.conns.filter fun p => decide (p.2.hub = h) && p.2.onChip).length
def spilledCount (s : State) (h : Nat) : Nat :=
  (s.fab.conns.filter fun p => decide (p.2.hub = h) && ! p.2.onChip).length

/-- Spills the least recently used OPEN record of a hub that is not pinned. 10_fabric.md R246. -/
def spillOne (s : State) (h : Nat) : Option State :=
  let cand := s.fab.conns.filter fun p => decide (p.2.hub = h) && p.2.onChip && decide (p.2.state = .open_) &&
    ! pinned s p.1 p.2
  if 524288 ≤ spilledCount s h then none
  else
    (sortBy (fun p => p.2.lastUse) cand).head?.map fun p =>
      let s := modConn s p.1 fun c => { c with onChip := false }
      let s := replace s h (connRow { p.2 with onChip := false })
      bump s .fab_SPILLS h

/-- Room for one more record on chip. 10_fabric.md R234, R246. -/
def makeRoom (s : State) (h : Nat) : Option State :=
  if onChipCount s h < 16384 then some s else spillOne s h

/-- Enters a new connection record with its Chive row; none when no record or row can be had, with what the search for one
counted. 10_fabric.md R234, R244, 09_chive.md R217. -/
def enterConn (s : State) (c : Conn) : State × Option Nat :=
  match freeRecord s c.hub, makeRoom s c.hub with
  | none, _ => (s, none)
  | _, none => (s, none)
  | some n, some s =>
    let (id, s) := newId s
    let c := { c with lastUse := id, slot := n }
    match insert s c.hub (connRow c) with
    | (s, .busy) => (s, none)
    | (s, .bounds) => (s, none)
    | (s, _) => (modFab s fun x => { x with conns := aset x.conns id c }, some id)

/-! ## Sending -/

/-- The grant a connection sends now: R314 with the edge rule, and the edge it makes. 13_traffic.md R314. -/
def grantNow (s : State) (c : Conn) : Nat :=
  let g := creditGrant s c.hub (polEndpoint c.peer)
  let left := if sLt (sAdd c.rcvNext g) c.edge then sDist c.rcvNext c.edge else g
  min left 65535

/-- A frame of a connection with its header's lasting fields; the passing ones are set when it leaves. -/
def frameOf (c : Conn) (op : Opcode) (flags replyTo cls hint : Nat) (payload : List Byte) : Frame :=
  { version := c.version, loadHint := hint, opcode := op.code, flags := flags ||| flAckValid, src := c.own,
    cls := if controlOp op then 0 else cls % 16, dst := c.peer, connId := c.id, seq := c.sndNext, ack := c.rcvNext,
    tag := 0, epoch := 0, pd := c.pd, credit := 0, payLen := payload.length, segIndex := 0, segCount := 1,
    replyTo := replyTo, payload := payload }

/-- Hands a frame to the egress scheduler. 13_traffic.md R306. -/
def toEgress (s : State) (h id peer : Nat) (f : Frame) : State :=
  modTraf s fun x => { x with egress := x.egress ++ [⟨h, f.cls, id, peer, f⟩] }

/-- Next class of the weighted group. 13_traffic.md R307. -/
def nextClass (c : Nat) : Nat := if c = 15 then 4 else c + 1

/-- The queue of the egress scheduler in which a segment waits: hub, sub-port, class. 10_fabric.md R222, 13_traffic.md
R306. -/
def queueOf (s : State) (e : EgSeg) : Option (Nat × Nat × Nat) :=
  (egressAt s e.hub e.frame.src e.frame.connId).map fun p => (p.1, p.2, e.cls)

/-- A queue that empties loses its deficit, and the turn where it holds it. 13_traffic.md R307 step 3, R308. -/
def emptied (s : State) (q : Nat × Nat × Nat) : State :=
  if s.traf.egress.any fun e => decide (queueOf s e = some q) then s
  else modTraf s fun x =>
    { x with shapers := amod x.shapers q fun c => { c with deficit := 0 },
             turn := amod x.turn (q.1, q.2.1) fun t => if t = q.2.2 then 16 + nextClass t else t }

/-- The egress scheduler keeps the segments that pass a test; the queues this empties lose deficit and turn. 13_traffic.md
R307, R308. -/
def keepEgress (s : State) (keep : EgSeg → Bool) : State :=
  let gone := (s.traf.egress.filter fun e => ! keep e).filterMap (queueOf s)
  gone.foldl emptied (modTraf s fun x => { x with egress := x.egress.filter keep })

/-- Sends an unsequenced message. 10_fabric.md R231. -/
def sendUnseq (s : State) (id : Nat) (op : Opcode) (flags hint : Nat) (payload : List Byte) : State :=
  match connOf s id with
  | none => s
  | some c => toEgress s c.hub id c.peerAddr (frameOf c op flags 0 0 hint payload)

/-- SACK blocks of a connection: the runs held beyond a hole, at most 8. 10_fabric.md R238. -/
def sackBlocks (c : Conn) : List (Nat × Nat) :=
  let held := sortBy (fun q => sDist c.rcvNext q) ((c.reasm.map fun f => f.seq).filter fun q => ! sLt q c.rcvNext)
  (held.foldl (fun (acc : List (Nat × Nat)) q =>
    match acc.getLast? with
    | some (a, b) => if sAdd b 1 = q then acc.dropLast ++ [(a, q)] else acc ++ [(q, q)]
    | none => [(q, q)]) []).take 8

/-- Sends an ACK now. 10_fabric.md R238. -/
def sendAck (s : State) (id : Nat) : State :=
  match connOf s id with
  | none => s
  | some c =>
    let bl := sackBlocks c
    let pay := if bl.isEmpty then []
      else beBytes 1 1 ++ beBytes 1 bl.length ++ beBytes 2 0 ++ bl.flatMap fun p => beBytes 4 p.1 ++ beBytes 4 p.2
    let s := sendUnseq s id .ack (if bl.isEmpty then 0 else flSack) 0 pay
    modConn s id fun c => { c with unacked := 0, ackDue := none }

/-- Whether an ACK of a connection waits for egress. -/
def ackQueued (s : State) (id : Nat) : Bool :=
  s.traf.egress.any fun e => decide (e.conn = id) && decide (e.frame.opcode = Opcode.ack.code)

/-- A receiver that reopens credit tells its peers at once. 10_fabric.md R240. -/
def reopen (s : State) (h : Nat) : State :=
  (s.fab.conns.filter fun p => decide (p.2.hub = h) && p.2.onChip && (p.2.state == .open_ || p.2.state == .closing) &&
    decide (p.2.edge = p.2.rcvNext) && ! ackQueued s p.1 && decide (0 < grantNow s p.2)).foldl (fun s p => sendAck s p.1) s

/-- The segments of a message leave the reassembly space where its handler has started, or it is gone, and what they held
reopens credit. 13_traffic.md R314, 10_fabric.md R240. -/
def freeUnits (s : State) (m : Msg) : State := if m.units = 0 ∨ ! m.phase.before then s else reopen s m.hub

/-- Operator sessions of a channel end. 15_trust.md R353. -/
def endSessions (s : State) (c : Channel) : State :=
  modTrust s fun x => { x with sessions := x.sessions.filter fun y => decide (y.chan ≠ c) }

/-- Frees a connection record and its row; the ID of one the node opened is kept for quiet_time, the sessions over it end, and
the reassembly space it held reopens credit. 10_fabric.md R236, R237, R240, R246, 15_trust.md R353. -/
def dropConn (s : State) (id : Nat) : State :=
  match connOf s id with
  | none => s
  | some c =>
    let mine : Bool := s.fab.conns.all fun p => decide (p.1 = id) || decide (connKey p.2 ≠ connKey c) || decide (p.2.hub ≠ c.hub)
    let s := endSessions (if mine then delete s c.hub clsConn (connKey c) 0 else s) (.conn c.hub id)
    let used := if c.opener ∧ c.state ≠ .failed then [(c.peer, c.id, c.hub, now s c.hub)] else []
    let s := modFab s fun x => { x with conns := adel x.conns id, fillQ := x.fillQ.filter fun p => decide (p.1 ≠ id),
                                        usedIds := x.usedIds ++ used }
    if c.reasm.isEmpty then s else reopen s c.hub

/-- The census report and local time of a HEARTBEAT. 10_fabric.md R241, 16_lifecycle.md R376. -/
def heartbeatPayload (s : State) (h : Nat) : List Byte :=
  beBytes 1 1 ++ zeros 7 ++ beBytes 8 (now s h) ++ beBytes 1 1 ++ beBytes 1 6 ++ beBytes 2 0 ++ beBytes 4 (configTag s) ++
    beBytes 4 (altTag s) ++ beBytes 4 0 ++ beBytes 8 (configSeq s) ++ beBytes 4 (tagMismatches s) ++ beBytes 4 0 ++
    [1, 2, 3, 4, 5, 6].flatMap fun c => takeBytes (digest s c) 0 4

/-- Sends a HEARTBEAT. -/
def sendHeartbeat (s : State) (id : Nat) : State :=
  match connOf s id with
  | none => s
  | some c => sendUnseq s id .heartbeat 0 0 (heartbeatPayload s c.hub)

/-- Whether a sequence number lies below ack + credit_grant of the peer's latest frame. 10_fabric.md R240. -/
def inCredit (c : Conn) (q : Nat) : Bool := decide (sDist c.sndUna q < c.peerCredit)

/-- Units of a segment in a send ring, and a hub's send rings in use: retained segments and those that wait for egress; they
hold 8 MiB. 08_memory.md R445. -/
def segUnits (g : SentSeg) : Nat := max 1 (ceilDiv g.frame.payLen 4096)
def sendUsed (s : State) (h : Nat) : Nat :=
  sumNat ((s.fab.conns.filter fun p => decide (p.2.hub = h)).map fun p =>
    sumNat ((p.2.ring.filter fun g => g.queued || g.sent).map segUnits))
def sendUnits : Nat := 2048

/-- The first segments that fit a room. -/
def takeFit : Nat → List SentSeg → List SentSeg
  | _, [] => []
  | room, g :: gs => if segUnits g ≤ room then g :: takeFit (room - segUnits g) gs else []

/-- Hands the egress scheduler the segments that the peer's credit permits, as far as the hub's send rings have room (what
waits for room: DESIGN CHOICE, assumption 149). Those of a spilled record wait for its return. 10_fabric.md R240, R246,
08_memory.md R445. -/
def pump (s : State) (id : Nat) : State :=
  match connOf s id with
  | none => s
  | some c =>
    if c.state = .opening ∨ c.state = .failed ∨ ! c.onChip then s
    else
      let ready := takeFit (sendUnits - sendUsed s c.hub) (c.ring.filter fun g => ! g.queued && ! g.sent && inCredit c g.seq)
      let s := ready.foldl (fun s g => toEgress s c.hub id c.peerAddr g.frame) s
      modConn s id fun c => { c with ring := c.ring.map fun g =>
        if (ready.map fun r => r.seq).contains g.seq then { g with queued := true } else g }

/-- Segments of a payload: s bytes each, at least one. 10_fabric.md R231. -/
def segments : Nat → Nat → List Byte → List (List Byte)
  | 0, _, _ => []
  | n + 1, size, b => if b.length ≤ size then [b] else b.take size :: segments n size (b.drop size)

/-- Sends a sequenced message on a connection; answers the sequence number of its first segment.
10_fabric.md R231, R239. -/
def sendMsg (s : State) (id : Nat) (op : Opcode) (flags replyTo cls hint : Nat) (payload : List Byte) : State × Nat :=
  match connOf s id with
  | none => (s, 0)
  | some c =>
    let parts := segments (payload.length / 1024 + 1) (segSize c) payload
    let n := parts.length
    let base := frameOf c op flags replyTo cls hint []
    let segs := (List.range n).map fun i =>
      let p := parts.getD i []
      (⟨sAdd c.sndNext i, { base with seq := sAdd c.sndNext i, payLen := p.length, segIndex := i, segCount := n,
                                      payload := p }, 0, false, false, false, false, false⟩ : SentSeg)
    let s := modConn s id fun c =>
      { c with ring := c.ring ++ segs, sndNext := sAdd c.sndNext n,
               closeSent := c.closeSent || bit1 flags 3,
               state := if bit1 flags 3 ∧ c.state = .open_ then .closing else c.state }
    (pump s id, c.sndNext)

/-- The payload of a NACK: fmt_version and status. 10_fabric.md R230, 12_ledger.md R296 (assumption 31). -/
def nackPayload (be : Bool) (st : Status) : List Byte := put be 1 1 ++ put be 1 st.code ++ put be 2 0

/-- Sends a NACK on a connection; it consumes one sequence number. 10_fabric.md R230, R231. -/
def sendNack (s : State) (id replyTo : Nat) (st : Status) (hint : Nat) (payload : List Byte) : State :=
  (sendMsg s id .nack 0 replyTo 0 (if st = .busy then max 8 hint else hint) payload).1

/-- A NACK without a connection, to the address a frame came from, unsequenced. 10_fabric.md R230. -/
def bareNack (s : State) (h peerAddr : Nat) (f : Frame) (st : Status) : State :=
  toEgress s h 0 peerAddr
    { f with opcode := Opcode.nack.code, flags := 0, src := endpointOf s h, dst := f.src, cls := 0,
             loadHint := if st = .busy then 8 else 0, seq := 0,
             ack := 0, tag := configTag s, epoch := s.ledg.newest, credit := 0, payLen := 4, segIndex := 0, segCount := 1,
             replyTo := (f.seq + 2 ^ 32 - f.segIndex) % 2 ^ 32, payload := nackPayload true st }

/-- Whether a connection owes its peer an acknowledgement, or has one that waits for egress. 10_fabric.md R238. -/
def owesAck (s : State) (id : Nat) (c : Conn) : Bool :=
  decide (c.unacked ≠ 0) || c.ackDue.isSome || s.traf.egress.any fun e => decide (e.conn = id)

/-- A connection in CLOSING ends once every sequenced message of both directions is acknowledged and every request answered.
10_fabric.md R236. -/
def settleConn (s : State) (id : Nat) : State :=
  match connOf s id with
  | some c => if c.state = .closing ∧ ! pinned s id c ∧ ! owesAck s id c then dropConn s id else s
  | none => s

/-! ## Connections the node opens (R236, R237) -/

/-- Protocol versions the node supports, bit v for version v. 10_fabric.md R235. -/
def versions (s : State) (h : Nat) : Nat := 2 + rget s .fab_forerunner_compat h 0

/-- A HELLO or HELLO response payload without credential. 10_fabric.md R233. -/
def helloPayload (s : State) (h : Nat) (status isn tenant credit credLen : Nat) : List Byte :=
  beBytes 1 1 ++ beBytes 1 status ++ beBytes 2 (versions s h) ++ beBytes 4 isn ++ beBytes 2 tenant ++
    beBytes 1 (rget s .fab_seg_code h 0) ++ beBytes 1 0 ++ beBytes 2 credit ++ beBytes 2 credLen

/-- The fields a HELLO credential signs, big-endian. 15_trust.md R354. -/
def helloSigned (tenant pd src dst cid isn vers : Nat) : List Byte :=
  beBytes 2 tenant ++ beBytes 2 pd ++ beBytes 3 src ++ beBytes 3 dst ++ beBytes 4 cid ++ beBytes 4 isn ++ beBytes 2 vers

/-- Context codes of Ed448 signatures, one for each context string of 15_trust.md. -/
def ctxHello : Nat := 1
def ctxDevice : Nat := 2
def ctxReport : Nat := 3
def ctxSession : Nat := 4
def ctxKx : Nat := 5
def ctxConfig : Nat := 6
def ctxElection : Nat := 7
def ctxEndorse : Nat := 8

/-- The credential of a connection between devices. 15_trust.md R355. -/
def deviceCredential (s : State) (c : Conn) : List Byte :=
  let ep := c.own
  beBytes 1 1 ++ beBytes 1 2 ++ zeros 6 ++ aliasPublic s c.hub ++ devPublic s ++ takeBytes (lovOf s c.hub).endorse 0 114 ++
    aliasSign s c.hub ctxDevice (Config.shake256 (helloSigned 0 0 ep c.peer c.id c.isn (versions s c.hub)) 64)

/-- Sends the HELLO of an OPENING connection. 10_fabric.md R236. -/
def sendHello (s : State) (id : Nat) : State :=
  match connOf s id with
  | none => s
  | some c =>
    let pay := helloPayload s c.hub 0 c.isn 0 (creditGrant s c.hub (polEndpoint c.peer)) 350 ++ deviceCredential s c
    toEgress s c.hub id c.peerAddr { frameOf c .hello 0 0 0 0 pay with flags := 0, seq := c.isn, ack := 0 }

/-- A new record with every count at its start. -/
def newConn (s : State) (h cid peer tenant pd isn peerAddr : Nat) : Conn :=
  { hub := h, id := cid, peer := peer, state := .opening, opener := true, version := 1,
    segCode := rget s .fab_seg_code h 0, tenant := tenant, pd := pd, isn := isn, peerIsn := 0, sndNext := isn, sndUna := isn,
    rcvNext := 0, peerCredit := 0, ownCredit := 0, srtt := 0, rttvar := 0, rto := rget s .fab_rto_init h 0, timeouts := 0,
    lastRx := now s h, peerAddr := peerAddr, onChip := true, slot := 0, lastUse := 0, ring := [], asked := [], reasm := [],
    refused := [], passed := [], unacked := 0, ackDue := none, closeSent := false, closeRcvd := false, edge := 0, hbAt := 0,
    own := endpointOf s h, helloAns := [], peerTime := none }

/-- Connection IDs that the node may not give a new connection to a peer: those in use with it, and those it used less than
quiet_time ago. 10_fabric.md R237. -/
def busyIds (s : State) (peer : Nat) : List Nat :=
  ((s.fab.conns.filter fun p => decide (p.2.peer = peer)).map fun p => p.2.id) ++
    (s.fab.usedIds.filter fun u => decide (u.1 = peer) &&
      decide (now s u.2.2.1 < u.2.2.2 + 1000000 * rget s .fab_quiet_time_ms u.2.2.1 0)).map fun u => u.2.1

/-- The first ID from a number on that a new connection may take. 10_fabric.md R237. -/
def freeCid (s : State) (peer top n : Nat) : Nat :=
  let bad := busyIds s peer
  let at_ := fun i => (n + i) % 2 ^ 31 + top
  at_ (((List.range (bad.length + 1)).find? fun i => ! bad.contains (at_ i)).getD 0)

/-- Opens a device connection from a hub to an endpoint; none when the endpoint table has no address or no record can
be had. 10_fabric.md R222, R236, R237. -/
def openConn (s : State) (h peer : Nat) : State × Option Nat :=
  match Config.endpointAddr (body s clsEndpoints) peer with
  | none => (s, none)
  | some addr =>
    let cid := freeCid s peer (if endpointOf s h < peer then 2 ^ 31 else 0) s.nextId
    let (isn, s) := fresh s
    match enterConn s (newConn s h cid peer 0 0 (isn % 2 ^ 32) addr) with
    | (s, some id) => (sendHello s id, some id)
    | (s, none) => (s, none)

/-- Opcodes of a version-0 connection. 10_fabric.md R235. -/
def v0Ops : List Opcode := [.attend, .append, .read, .write, .readResp, .ack, .nack, .hello, .heartbeat]

/-- Whether a connection may carry an opcode. 10_fabric.md R235. -/
def carries (c : Conn) (op : Opcode) : Bool := decide (c.version ≠ 0) || v0Ops.contains op

/-- A live device connection of a hub to an endpoint that may carry an opcode: an OPEN one with the lowest ID, else one that
is opening. -/
def deviceConn (s : State) (h peer : Nat) (op : Opcode) : Option Nat :=
  let mine := s.fab.conns.filter fun p => decide (p.2.hub = h) && decide (p.2.peer = peer) && decide (p.2.tenant = 0) &&
    carries p.2 op
  let open_ := mine.filter fun p => decide (p.2.state = .open_)
  match (sortBy (fun p => p.2.id) open_).head? with
  | some p => some p.1
  | none => ((sortBy (fun p => p.2.id) (mine.filter fun p => decide (p.2.state = .opening))).head?).map (·.1)

/-- Sends a request of the node's own to an endpoint over a device connection, opening one where there is none, and notes
that it awaits a response; false when the peer cannot be reached. 10_fabric.md R242, 13_traffic.md R306. -/
def ask (s : State) (h peer : Nat) (op : Opcode) (about : Nat) (payload : List Byte) : State × Bool :=
  let go := fun (s : State) (id : Nat) =>
    match connOf s id with
    | none => s
    | some c =>
      if c.state = .open_ then
        let (s, q) := sendMsg s id op 0 0 (rg s .traffic_device_class) 0 payload
        modConn s id fun c => { c with asked := c.asked ++ [⟨some q, op, about, payload⟩] }
      else modConn s id fun c => { c with asked := c.asked ++ [⟨none, op, about, payload⟩] }
  match deviceConn s h peer op with
  | some id => (go s id, true)
  | none =>
    match openConn s h peer with
    | (s, some id) => (go s id, true)
    | (s, none) => (s, false)

/-- Sends the requests that waited for a connection to open. -/
def sendWaiting (s : State) (id : Nat) : State :=
  match connOf s id with
  | none => s
  | some c =>
    c.asked.foldl (fun s a =>
      if a.seq.isSome then s
      else
        let (s, q) := sendMsg s id a.op 0 0 (rg s .traffic_device_class) 0 a.payload
        modConn s id fun c => { c with asked := c.asked.map fun b =>
          if b.seq.isNone ∧ b.op = a.op ∧ b.about = a.about then { b with seq := some q } else b }) s

/-! ## PCIe completions (14_host.md R328 to R331) -/

/-- A function's slot at reset: e = 1, free. 14_host.md R326. -/
def slotReset : HostSlot := ⟨1, false, []⟩

/-- A slot of a function. -/
def hostSlot (s : State) (p f k : Nat) : HostSlot := agetD s.host.slots (p, f, k) slotReset

/-- Changes a slot. -/
def modSlot (s : State) (p f k : Nat) (g : HostSlot → HostSlot) : State :=
  modHost s fun x => { x with slots := aset x.slots (p, f, k) (g (hostSlot s p f k)) }

/-- A completion ring: index 0, phase 1 when enabled. 14_host.md R329. -/
def ringOf (s : State) (p f r : Nat) : Ring := agetD s.host.rings (p, f, r) ⟨0, true, none, false⟩

/-- Instance of a function's register block. -/
def fnInst (p f : Nat) : Nat := 64 * p + f

/-- Whether a port delivers: link up, its hub in service. 14_host.md R336. -/
def portUp (s : State) (p : Nat) : Bool := (s.power.pcieUp.getD p false) && hubAlive s (portHub p)

/-- A PCIe port trains: the rate and the width that the channel and the lanes give, which the spec leaves to them, are free
values, the rate at most max_speed. A retraining, or another rate or width, is counted. 14_host.md R316, R339. -/
def trainPort (s : State) (p : Nat) : State :=
  let (r, s) := fresh s
  let (w, s) := fresh s
  let new := (5 + r % (min 7 (max 5 (rget s .port_max_speed p 0)) - 4), 4 * 2 ^ (w % 3))
  let old := s.power.pcieLink.getD p (0, 0)
  let s := if s.power.pcieUp.getD p false ∨ (old ≠ (0, 0) ∧ old ≠ new) then bump s .port_LINK_RETRAINS p else s
  modPower s fun x => { x with pcieUp := x.pcieUp.set p true, pcieLink := x.pcieLink.set p new, pcieLost := x.pcieLost.set p false }

/-- MSI-X vectors of a function: what fn_msix_count gave at its last reset. 14_host.md R339. -/
def msixCount (s : State) (p f : Nat) : Nat := agetD s.host.msix (p, f) (Reg.port_fn_msix_count.reset p f)

/-- Sends or holds back a ring's MSI-X message. A vector beyond the function's table has no entry, so no message is sent (DESIGN
CHOICE, assumption 174). 14_host.md R331. -/
def raiseRing (s : State) (p f r : Nat) : State :=
  let g := ringOf s p f r
  let t := now s (portHub p)
  let wait := rget s .fn_coalesce_ns (fnInst p f) r
  let due := match g.lastMsg with
    | none => true
    | some l => decide (l + wait ≤ t)
  if due then
    let s := modHost s fun x => { x with rings := aset x.rings (p, f, r) { g with lastMsg := some t, held := false } }
    let v := rget s .fn_ring_vector (fnInst p f) r
    if v < msixCount s p f then emit s (.msix p f v) else s
  else modHost s fun x => { x with rings := aset x.rings (p, f, r) { g with held := true } }

/-- Writes a completion record to a ring and advances it. 14_host.md R328, R329, R330. -/
def writeCompletion (s : State) (p f slot r seq tag respBytes : Nat) (st hintMin : Nat) (irq : Bool) : State :=
  let g := ringOf s p f r
  let i := fnInst p f
  let hub := portHub p
  let base := rget s .fn_ring_base_lo i r + rget s .fn_ring_base_hi i r * 2 ^ 32
  let addr := base + 32 * g.index
  let hint := max hintMin (loadHint s hub (polFn p f) (decide (st = Status.busy.code)))
  let credit := min 64 (creditGrant s hub (polFn p f))
  let lo := leBytes 1 1 ++ leBytes 1 st ++ leBytes 1 slot ++ leBytes 1 (b2n g.phase + 2 * hint) ++ leBytes 2 seq ++
    leBytes 2 credit
  let hi := leBytes 8 tag ++ leBytes 4 respBytes ++ leBytes 4 0 ++ leBytes 8 (now s hub)
  let s := emit (emit s (.hostWrite p (addr + 8) hi)) (.hostWrite p addr lo)
  let last := decide (g.index + 1 = 2 ^ rget s .fn_ring_log2 i r)
  let g' : Ring := { g with index := if last then 0 else g.index + 1, phase := if last then ! g.phase else g.phase }
  let s := modHost s fun x => { x with rings := aset x.rings (p, f, r) g' }
  if irq then raiseRing s p f r else s

/-- Completes a command: the response if any, the completion, the slot free. 14_host.md R326, R330, R335, R336. -/
def completePcie (s : State) (m : Msg) (id p f slot : Nat) (st : Status) (hintMin : Nat) (resp : List Byte) : State :=
  let s := setMsgs s (adel s.msgs id)
  if s.host.muted.contains id then modHost s fun x => { x with muted := x.muted.filter fun i => decide (i ≠ id) }
  else
    let s := modSlot s p f slot fun x => { x with busy := false }
    if ! portUp s p then s
    else
      let out := resp.take m.respLen
      let s := if out.isEmpty then s else emit s (.hostWrite p m.respAddr out)
      let s := modMeter s m.tenant fun x => { x with bytesOut := x.bytesOut + out.length }
      writeCompletion s p f slot m.ring m.slotSeq m.tag out.length st.code hintMin m.irq

/-! ## The end of a request -/

/-- The class of an answer: the request's, demoted when yellow. 13_traffic.md R304, R306. -/
def answerClass (s : State) (m : Msg) : Nat :=
  if m.colour = .yellow then max m.cls (rg s .traffic_demote_class) else m.cls

/-- Whether an answer to a message leaves the node: its connection stands, or its port delivers and its function still hears.
10_fabric.md R236, 14_host.md R335, R336. -/
def answerLeaves (s : State) (id : Nat) : Bool :=
  match aget s.msgs id with
  | none => false
  | some m =>
    match m.origin with
    | .conn _ idx _ => (connOf s idx).any fun c => decide (c.state ≠ .failed)
    | .pcie p _ _ => ! s.host.muted.contains id && portUp s p
    | .device => false

/-- Answers a message and removes it: a response on its connection, or a completion on its ring. -/
def answer (s : State) (id : Nat) (op : Opcode) (st : Status) (hintMin : Nat) (payload : List Byte) : State :=
  match aget s.msgs id with
  | none => s
  | some m =>
    match m.origin with
    | .conn _ idx seq =>
      let s := freeUnits (setMsgs s (adel s.msgs id)) m
      match connOf s idx with
      | none => s
      | some c =>
        if c.state = .failed then s
        else
          let s := modMeter s m.tenant fun x => { x with bytesOut := x.bytesOut + payload.length }
          let hint := if st = .busy then max 8 hintMin else hintMin
          let s := (sendMsg s idx op flResp seq (answerClass s m) hint payload).1
          settleConn s idx
    | .pcie p f slot => completePcie s m id p f slot st hintMin payload
    | .device => setMsgs s (adel s.msgs id)

/-- Refuses a message before its handler: a NACK on its connection, or a completion with the response its opcode defines.
10_fabric.md R230, 14_host.md R327, R330. -/
def refuse (s : State) (id : Nat) (st : Status) (hintMin : Nat) (payload resp : List Byte) : State :=
  match aget s.msgs id with
  | none => s
  | some m =>
    match m.origin with
    | .conn _ idx seq =>
      let s := freeUnits (setMsgs s (adel s.msgs id)) m
      match connOf s idx with
      | none => s
      | some c => if c.state = .failed then s else settleConn (sendNack s idx seq st hintMin payload) idx
    | .pcie p f slot => completePcie s m id p f slot st hintMin resp
    | .device => setMsgs s (adel s.msgs id)

/-- A message that needs no answer leaves the queue. -/
def dropMsg (s : State) (id : Nat) : State :=
  match aget s.msgs id with
  | none => s
  | some m =>
    let s := freeUnits (setMsgs s (adel s.msgs id)) m
    match m.origin with
    | .conn _ idx _ => settleConn s idx
    | _ => s

/-- A message that has been handed to the node. -/
def msgOf (s : State) (id : Nat) : Option Msg := aget s.msgs id

/-- Changes a message. -/
def modMsg (s : State) (id : Nat) (f : Msg → Msg) : State := setMsgs s (amod s.msgs id f)

/-- Sets how far a message has come. -/
def setPhase (s : State) (id : Nat) (p : Phase) : State :=
  match msgOf s id with
  | none => s
  | some m =>
    let s := modMsg s id fun m => { m with phase := p, units := if p.before then m.units else 0 }
    if p.before then s else freeUnits s m

/-- The stream a message belongs to: a connection or a function (14_host.md R320). -/
def streamOf : Origin → Option (Nat × Nat × Nat)
  | .conn _ idx _ => some (0, idx, 0)
  | .pcie p f _ => some (1, p, f)
  | .device => none

/-- Whether a handler of the opcode may start on a message: it is in the queue, no earlier message of its connection or
function still waits for its handler, and a fence waits for every earlier command of its function.
10_fabric.md R232, 14_host.md R320, R323. -/
def mayStart (s : State) (id : Nat) (op : Opcode) : Option Msg :=
  match msgOf s id with
  | none => none
  | some m =>
    let st := streamOf m.origin
    let earlier := s.msgs.filter fun p => decide (p.1 < id) && decide (streamOf p.2.origin = st) && st.isSome &&
      ! p.2.resp && ! unsequenced p.2.opcode && decide (p.2.opcode ≠ .nack)
    let waits := earlier.any fun p => p.2.phase.before
    if m.opcode ≠ op ∨ m.phase ≠ .arrived ∨ waits ∨ (m.fence ∧ ! earlier.isEmpty) then none else some m

end Sys2Proof.Machine
end

