-- ==== Sys2Proof/Machine/Pages.lean ====
section
/-!
DEFINITION. Pages: geometry, header, section layout, quantization, sketch, seal CRC, classification and the expansion of
delta blocks (02_pages.md R25 to R47; 03_sequences.md R62, R69).
-/
namespace Sys2Proof.Machine

/-- Format codes. 02_pages.md R26. -/
def fmtNone : Nat := 0
def fmtBf16 : Nat := 1
def fmtQ8T : Nat := 2
def fmtQ4T : Nat := 3
def fmtQ4C : Nat := 4

/-- T by its code. 02_pages.md R31. -/
def tOf (c : Nat) : Nat := [32, 64, 128].getD c 0
/-- D by its code. 02_pages.md R31. -/
def dOf (c : Nat) : Nat := [64, 96, 128, 192, 256].getD c 0

/-- What fixes a page's layout. 02_pages.md R25, R27. -/
structure PGeom where
  kf : Nat
  vf : Nat
  tc : Nat
  dc : Nat
  deriving DecidableEq, Repr, Inhabited

def PGeom.t (g : PGeom) : Nat := tOf g.tc
def PGeom.d (g : PGeom) : Nat := dOf g.dc
/-- Blocks of 32 channels in a head. 02_pages.md R25. -/
def PGeom.nb (g : PGeom) : Nat := g.d / 32
/-- Sections in bytes. 02_pages.md R27. -/
def PGeom.ksc (g : PGeom) : Nat := if g.kf = fmtQ4C then 2 * g.d else g.t * g.nb * 2
def PGeom.kel (g : PGeom) : Nat := if g.kf = fmtQ8T then g.t * g.d else g.t * g.d / 2
def PGeom.vsc (g : PGeom) : Nat := g.t * g.nb * 2
def PGeom.vel (g : PGeom) : Nat := if g.vf = fmtQ8T then g.t * g.d else g.t * g.d / 2
def PGeom.sketchOff (g : PGeom) : Nat := 64 + g.ksc + g.kel + g.vsc + g.vel
def PGeom.sketchLen (g : PGeom) : Nat := roundUp (2 * g.d + 2) 16
def PGeom.size (g : PGeom) : Nat := g.sketchOff + g.sketchLen
/-- Class of the page's slot. 02_pages.md R29. -/
def PGeom.cls (g : PGeom) : Nat := slotClass g.size
/-- Bytes of a tail in SRAM: header, keys, values. 02_pages.md R34. -/
def PGeom.tailSize (g : PGeom) : Nat := 64 + 4 * g.t * g.d

/-- Formats and codes a sealed page may have, and none that makes a page larger than 64 KiB. 02_pages.md R26, R30, R31. -/
def PGeom.ok (g : PGeom) : Bool :=
  (decide (g.kf = fmtQ8T) || decide (g.kf = fmtQ4T) || decide (g.kf = fmtQ4C)) &&
    (decide (g.vf = fmtQ8T) || decide (g.vf = fmtQ4T)) && decide (g.tc ≤ 2) && decide (g.dc ≤ 4) &&
    decide (g.size ≤ 65536)

/-- The page header. 02_pages.md R31. -/
structure Hdr where
  ver      : Nat
  kf       : Nat
  vf       : Nat
  tc       : Nat
  dc       : Nat
  cls      : Nat
  sealed   : Bool
  keyed    : Bool
  damaged  : Bool
  count    : Nat
  layer    : Nat
  kv       : Nat
  sketch   : Nat
  tenant   : Nat
  firstPos : Nat
  gen      : Nat
  key      : Nat
  crc      : Nat
  refs     : Nat
  deriving DecidableEq, Repr, Inhabited

/-- A header's fields. 02_pages.md R31. -/
def Hdr.parse (b : List Byte) : Hdr :=
  let f := fun o n => fld false b o n
  let c := f 3 1
  let fl := f 5 1
  { ver := f 0 1 % 16, kf := f 1 1, vf := f 2 1, tc := c % 4, dc := bits c 4 2, cls := f 4 1, sealed := bit1 fl 0,
    keyed := bit1 fl 1, damaged := bit1 fl 2, count := f 6 2, layer := f 8 2, kv := f 10 2, sketch := f 12 2,
    tenant := f 14 2, firstPos := f 16 3, gen := f 20 4, key := f 24 8, crc := f 32 4, refs := f 36 4 }

/-- A header's bytes; reserved fields are zero (00_scope.md R8). 02_pages.md R31. -/
def Hdr.bytes (h : Hdr) : List Byte :=
  leBytes 1 (h.ver % 16) ++ leBytes 1 h.kf ++ leBytes 1 h.vf ++ leBytes 1 (h.tc % 4 + 4 * (h.dc % 8)) ++
    leBytes 1 h.cls ++ leBytes 1 (b2n h.sealed + 2 * b2n h.keyed + 4 * b2n h.damaged) ++ leBytes 2 h.count ++
    leBytes 2 h.layer ++ leBytes 2 h.kv ++ leBytes 2 h.sketch ++ leBytes 2 h.tenant ++ leBytes 3 h.firstPos ++
    zeros 1 ++ leBytes 4 h.gen ++ leBytes 8 h.key ++ leBytes 4 h.crc ++ leBytes 4 h.refs ++ zeros 24

/-- Geometry a header names. -/
def Hdr.geom (h : Hdr) : PGeom := ⟨h.kf, h.vf, h.tc, h.dc⟩

/-- The seal CRC of a page: bytes 0 to 31 with the damaged bit and reserved fields zero, then from 64 to the end of the
sketch. 02_pages.md R33. -/
def sealCrc (page : List Byte) : Nat :=
  let h := { Hdr.parse page with damaged := false }
  crc32c (h.bytes.take 32 ++ page.drop 64)

/-! ## Elements and scales (02_pages.md R28) -/

/-- Splits a list into pieces of n. -/
def pieces {α : Type} : Nat → Nat → List α → List (List α)
  | 0, _, _ => []
  | k + 1, n, l => l.take n :: pieces k n (l.drop n)

/-- INT8 elements of bytes. -/
def elems8 (b : List Byte) : List Int := b.map fun x => toSigned 8 x.toNat

/-- INT4 elements of bytes, low nibble first. -/
def elems4 (b : List Byte) : List Int :=
  b.flatMap fun x => [toSigned 4 (x.toNat % 16), toSigned 4 (x.toNat / 16)]

/-- Bytes of INT8 elements. -/
def bytes8 (e : List Int) : List Byte := e.map fun i => BitVec.ofNat 8 (ofSigned 8 i)

/-- Bytes of INT4 elements. -/
def bytes4 : List Int → List Byte
  | a :: b :: r => BitVec.ofNat 8 (ofSigned 4 a + 16 * ofSigned 4 b) :: bytes4 r
  | [a] => [BitVec.ofNat 8 (ofSigned 4 a)]
  | [] => []

/-- 16-bit little-endian values of bytes. -/
def halves : List Byte → List Nat
  | a :: b :: r => (a.toNat + 256 * b.toNat) :: halves r
  | _ => []

/-- Rows of elements of a format: T rows of D. -/
def elemRows (fmt t d : Nat) (b : List Byte) : List (List Int) :=
  pieces t d (if fmt = fmtQ8T then elems8 b else elems4 b)

/-- Section bytes of a page. 02_pages.md R27. -/
def PGeom.kscB (g : PGeom) (p : List Byte) : List Byte := (p.drop 64).take g.ksc
def PGeom.kelB (g : PGeom) (p : List Byte) : List Byte := (p.drop (64 + g.ksc)).take g.kel
def PGeom.vscB (g : PGeom) (p : List Byte) : List Byte := (p.drop (64 + g.ksc + g.kel)).take g.vsc
def PGeom.velB (g : PGeom) (p : List Byte) : List Byte := (p.drop (64 + g.ksc + g.kel + g.vsc)).take g.vel
def PGeom.sketchB (g : PGeom) (p : List Byte) : List Byte := (p.drop g.sketchOff).take g.sketchLen

/-! ## Quantization (02_pages.md R37) -/

/-- Greatest magnitude of BF16 values, as an encoding. -/
def amaxBf (l : List Nat) : Nat := maxNat (l.map fun v => v % 0x8000)

/-- scale_for of an exact magnitude num / den × 2^e over qmax, rounded up to BF16. R37, R39. -/
def scaleFor (amax : Dy) (qmax : Nat) : Nat :=
  if amax.m = 0 then 0 else bf16.round .up false amax.m.natAbs qmax amax.e

/-- quant of a BF16 value by a BF16 scale. R37. -/
def quant (x s qmax : Nat) : Int :=
  if s % 0x8000 = 0 then 0
  else clampInt qmax (f32Dy (f32Div .ne (f32OfBf16 x) (f32OfBf16 s))).rneInt

/-- seal_per_token: scales and elements of the T rows. R37. -/
def sealPerToken (nb t n qmax : Nat) (rows : List (List Nat)) : List Nat × List Int :=
  let per := (List.range t).map fun i =>
    if n ≤ i then (List.replicate nb 0, List.replicate (32 * nb) (0 : Int))
    else
      let bs := pieces nb 32 (rows.getD i [])
      let sc := bs.map fun b => scaleFor (f32Dy (f32OfBf16 (amaxBf b))) qmax
      (sc, (bs.zip sc).flatMap fun (b, s) => b.map fun x => quant x s qmax)
  (per.flatMap (·.1), per.flatMap (·.2))

/-- seal_per_channel: scales of the D channels and elements of the T rows. R37. -/
def sealPerChannel (d t n : Nat) (rows : List (List Nat)) : List Nat × List Int :=
  let live := rows.take n
  let sc := (List.range d).map fun c =>
    scaleFor (f32Dy (f32OfBf16 (amaxBf (live.map fun r => r.getD c 0)))) 7
  (sc, (List.range t).flatMap fun i =>
    if n ≤ i then List.replicate d (0 : Int)
    else ((rows.getD i []).zip sc).map fun (x, s) => quant x s 7)

/-- Keys or values of a tail in a format: scale bytes and element bytes. R37, R28. -/
def quantSection (fmt nb t d n : Nat) (rows : List (List Nat)) : List Byte × List Byte :=
  let (sc, el) :=
    if fmt = fmtQ4C then sealPerChannel d t n rows
    else sealPerToken nb t n (if fmt = fmtQ8T then 127 else 7) rows
  (sc.flatMap (leBytes 2), if fmt = fmtQ8T then bytes8 el else bytes4 el)

/-! ## Sketch (02_pages.md R39) -/

/-- Exact value of a stored element: q × s. R38. -/
def stored (q : Int) (s : Nat) : Dy := Dy.mul ⟨q, 0⟩ (f32Dy (f32OfBf16 s))

/-- Stored key values of row t. R38. -/
def keyRow (g : PGeom) (scales : List Nat) (t : Nat) (row : List Int) : List Dy :=
  if g.kf = fmtQ4C then (row.zip scales).map fun (q, s) => stored q s
  else
    let sc := (scales.drop (t * g.nb)).take g.nb
    ((pieces g.nb 32 row).zip sc).flatMap fun (b, s) => b.map fun q => stored q s

/-- The greater of two dyadic numbers. -/
def Dy.max (a b : Dy) : Dy := if a.lt b then b else a
/-- The lesser of two dyadic numbers. -/
def Dy.min (a b : Dy) : Dy := if b.lt a then b else a
/-- Magnitude. -/
def Dy.abs (a : Dy) : Dy := ⟨a.m.natAbs, a.e⟩

/-- The sketch's bytes from key scales and elements, over the first n rows. R39. -/
def sketchOf (g : PGeom) (scales : List Nat) (rows : List (List Int)) (n : Nat) : List Byte :=
  let ks := ((rows.take n).zipIdx).map fun (r, t) => keyRow g scales t r
  let col := fun c => ks.map fun r => r.getD c ⟨0, 0⟩
  let ext := fun (f : Dy → Dy → Dy) (l : List Dy) => match l with
    | [] => (⟨0, 0⟩ : Dy)
    | x :: r => r.foldl f x
  let hc := (List.range g.d).map fun c => ext Dy.max (col c)
  let lc := (List.range g.d).map fun c => ext Dy.min (col c)
  let m := (hc ++ lc).foldl (fun a x => Dy.max a x.abs) ⟨0, 0⟩
  let sg := scaleFor m 127
  let sd := f32Dy (f32OfBf16 sg)
  let q := fun (r : Rnd) (x : Dy) =>
    f32Dy (BitVec.ofNat 32 (fp32.round r (decide (x.m < 0)) x.m.natAbs sd.m.natAbs (x.e - sd.e)))
  let hi := hc.map fun x => if sg = 0 then (0 : Int) else clampInt 127 (q .up x).ceil
  let lo := lc.map fun x => if sg = 0 then (0 : Int) else clampInt 127 (q .dn x).floor
  bytes8 hi ++ bytes8 lo ++ leBytes 2 sg ++ zeros (g.sketchLen - (2 * g.d + 2))

/-- The sketch of a page from its stored keys over n tokens. R39. -/
def pageSketch (g : PGeom) (p : List Byte) (n : Nat) : List Byte :=
  sketchOf g (halves (g.kscB p)) (elemRows g.kf g.t g.d (g.kelB p)) n

/-- The body of a sealed page (from byte 64) from BF16 key and value rows. R37, R39. -/
def sealBody (g : PGeom) (keys vals : List (List Nat)) (n : Nat) : List Byte :=
  let (ks, ke) := quantSection g.kf g.nb g.t g.d n keys
  let (vs, ve) := quantSection g.vf g.nb g.t g.d n vals
  let pre := zeros 64 ++ ks ++ ke ++ vs ++ ve
  ks ++ ke ++ vs ++ ve ++ pageSketch g pre n

/-- A page with its seal CRC set. R41 step 5. -/
def withCrc (h : Hdr) (body : List Byte) : List Byte :=
  let p := h.bytes ++ body
  { h with crc := sealCrc p }.bytes ++ body

/-- BF16 rows of a tail: T rows of D, keys then values. 02_pages.md R34. -/
def tailRows (g : PGeom) (b : List Byte) : List (List Nat) × List (List Nat) :=
  let h := halves (b.drop 64)
  (pieces g.t g.d h, pieces g.t g.d (h.drop (g.t * g.d)))

/-- A page truncated to n tokens: rows from n on become zero with zero scales, Q4C channel scales stay, the sketch is
recomputed. 03_sequences.md R62. -/
def truncBody (g : PGeom) (p : List Byte) (n : Nat) : List Byte :=
  let cut := fun (unit : Nat) (b : List Byte) => b.take (n * unit) ++ zeros (b.length - n * unit)
  let ks := if g.kf = fmtQ4C then g.kscB p else cut (2 * g.nb) (g.kscB p)
  let ke := cut (g.kel / g.t) (g.kelB p)
  let vs := cut (2 * g.nb) (g.vscB p)
  let ve := cut (g.vel / g.t) (g.velB p)
  let pre := zeros 64 ++ ks ++ ke ++ vs ++ ve
  ks ++ ke ++ vs ++ ve ++ pageSketch g pre n

/-- A finite value in place of a non-finite BF16 one, and whether it was replaced. 02_pages.md R35. -/
def finiteBf (v : Nat) : Nat × Bool :=
  if bf16.isNan v then (0, true)
  else if bf16.isInf v then ((v / 0x8000) % 2 * 0x8000 + 0x7F7F, true)
  else (v % 65536, false)

/-- Whether a page's codes and scales are ones the device writes: no −128, no −8, no non-finite scale.
11_remote_access.md R259. -/
def codesOk (g : PGeom) (p : List Byte) : Bool :=
  ((halves (g.kscB p)).all fun s => bf16.finite s) && ((halves (g.vscB p)).all fun s => bf16.finite s) &&
    ((if g.kf = fmtQ8T then elems8 (g.kelB p) else elems4 (g.kelB p)).all fun q =>
      decide (q ≠ if g.kf = fmtQ8T then -128 else -8)) &&
    ((if g.vf = fmtQ8T then elems8 (g.velB p) else elems4 (g.velB p)).all fun q =>
      decide (q ≠ if g.vf = fmtQ8T then -128 else -8))

/-! ## Reading a page -/

/-- What a reader that holds a reference finds. 02_pages.md R45 to R47. -/
inductive PageRead where
  | ok (page : List Byte)
  | fail (st : Status)
  deriving DecidableEq, Repr

/-- A promoted page's live copy no longer agrees with its home image. 06_append.md R135 (assumption 131). -/
def noteChange (s : State) (lpn : Nat) : State :=
  modMem s fun m => { m with promo := amod m.promo lpn fun p => { p with changed := true } }

/-- A header at a node address, for a look that another read of the same step accounts for; one that cannot be read names
no page. -/
def hdrAt (s : State) (a : Nat) : Hdr := Hdr.parse ((seen s a 64).getD (zeros 64))

/-- The header of the live copy of the page at an lpn. -/
def liveHdr (s : State) (lpn : Nat) : Hdr := hdrAt s (liveAddr s lpn)

/-- Marks the page at an lpn damaged and records it. 02_pages.md R45. -/
def markDamaged (s : State) (lpn : Nat) : State :=
  let a := liveAddr s lpn
  let h := liveHdr s lpn
  let s := noteChange (poke s a { h with damaged := true }.bytes) lpn
  journal s (homeHub s (lpnSlice lpn)) 0x11
    (leBytes 4 lpn ++ leBytes 4 h.gen ++ leBytes 2 h.layer ++ leBytes 2 h.tenant)

/-- Whether an lpn lies in an extent withdrawn from a tenant. 12_ledger.md R284. -/
def extentGone (s : State) (tenant lpn : Nat) : Bool :=
  let e := extentSt s (lpnSlice lpn) (lpnExtent lpn)
  decide (e.tenant ≠ tenant) || decide (e.state = .free) ||
    (decide (e.state = .closing) && decide (e.drainEnd ≤ now s (homeHub s (lpnSlice lpn))))

/-- What a request that has not resolved its target meets at an lpn's extent: withdrawn, or closing. 12_ledger.md R283 step
2, R284, R295 order 9e. -/
def extentStatus (s : State) (tenant lpn : Nat) : Option Status :=
  let e := extentSt s (lpnSlice lpn) (lpnExtent lpn)
  if e.tenant ≠ tenant ∨ e.state = .free then some .revoked else if e.state = .closing then some .closing else none

/-- What a stale reference gives: REVOKED where the extent rules apply, NOT_FOUND otherwise. 02_pages.md R47, 12_ledger.md
R284. -/
def staleStatus (s : State) (tenant lpn : Nat) : Status := if extentGone s tenant lpn then .revoked else .notFound

/-- Reads and checks a sealed page by its reference: stale first, then format, then damage, then the seal CRC when the
whole page is scanned. 02_pages.md R45, R46, R47; withdrawn extents give REVOKED (12_ledger.md R284). -/
def readPage (s : State) (r : PageRef) (g : PGeom) (tenant : Nat) (checkCrc : Bool) (reader : Nat) :
    State × PageRead :=
  if extentGone s tenant r.lpn then (s, .fail .revoked)
  else
    match load s (liveAddr s r.lpn) g.size reader with
    | (s, none) => (s, .fail .uncorrectable)
    | (s, some p) =>
      let h := Hdr.parse p
      if h.kf = fmtNone ∨ h.vf = fmtNone ∨ h.gen ≠ r.gen then (s, .fail .notFound)
      else if h.damaged then (s, .fail .damaged)
      else
        let bad := checkCrc && decide (sealCrc p ≠ h.crc)
        if h.ver ≠ 1 ∨ ¬ h.geom.ok ∨ h.geom ≠ g then
          (if decide (sealCrc p ≠ h.crc) then (markDamaged s r.lpn, .fail .damaged) else (s, .fail .version))
        else if bad then (markDamaged s r.lpn, .fail .damaged)
        else (s, .ok p)

/-- Reads the header of the page at an lpn through the word code. -/
def loadHdr (s : State) (lpn reader : Nat) : State × Option Hdr :=
  match load s (liveAddr s lpn) 64 reader with
  | (s, none) => (s, none)
  | (s, some b) => (s, some (Hdr.parse b))

/-! ## Delta blocks (03_sequences.md R67, R69) -/

/-- Decodes a coded residual: literals after 0x00 to 0x7F, zero runs for 0x80 to 0xFF; none when it ends within a
literal. -/
def rleDecode : Nat → List Byte → Option (List Byte)
  | 0, l => if l.isEmpty then some [] else none
  | _ + 1, [] => some []
  | n + 1, c :: r =>
    if c.toNat < 0x80 then
      let k := c.toNat + 1
      if r.length < k then none else (rleDecode n (r.drop k)).map fun t => r.take k ++ t
    else (rleDecode n r).map fun t => zeros (c.toNat - 0x7F) ++ t

/-- The XOR of two byte strings. -/
def xorBytes (a b : List Byte) : List Byte := (a.zip b).map fun (x, y) => x ^^^ y

/-- Expands a block over its base page's body; the number is the cause of R407: 0 header, 2 coded length, 3 expanded
length, 4 body CRC. -/
def expandBlock (g : PGeom) (b : DeltaBlock) (baseBody : List Byte) : Except Nat (List Byte) :=
  let f := fun o n => fld false b.bytes o n
  if f 0 2 ≠ b.layer ∨ f 2 2 ≠ b.kv ∨ f 4 4 ≠ b.page then .error 0
  else
    match rleDecode b.bytes.length (b.bytes.drop 16) with
    | none => .error 2
    | some res =>
      if res.length ≠ f 8 4 ∨ res.length ≠ g.size - 64 then .error 3
      else
        let body := xorBytes baseBody res
        if crc32c body ≠ f 12 4 then .error 4 else .ok body

end Sys2Proof.Machine
end

