-- ==== Sys2Proof/Machine/Scan.lean ====
section
/-!
DEFINITION. Attention numerics: query quantization, dot products, logits, the running record, page bounds, skipping, lane
and slice combination, and the merge of two records (04_attend.md R76 to R90; 05_merge.md R97 to R99).
-/
namespace Sys2Proof.Machine

/-- A query head quantized on entry. 04_attend.md R78. -/
structure Qh where
  qq    : List Int
  qs    : List F32
  slope : F32
  deriving DecidableEq, Repr, Inhabited

/-- A flagged value: what R81 replaced sets the flag. -/
abbrev Fl := F32 × Bool

/-- A result saturated by R81, keeping a flag. -/
def satFl (fl : Bool) (v : F32) : Fl := ((f32Sat v).1, fl || (f32Sat v).2)

/-- quantize_query of one head. R78. -/
def quantizeQuery (nb : Nat) (x : List F32) : List Int × List F32 :=
  let per := (pieces nb 32 x).map fun b =>
    let amax := b.foldl (fun a v => f32Max a (f32Abs v)) 0#32
    if f32zero amax then (List.replicate 32 (0 : Int), (0#32 : F32))
    else
      let s := f32Div .up amax 0x42FE0000#32
      (b.map fun v => clampInt 127 (f32Dy (f32Div .ne v s)).rneInt, s)
  (per.flatMap (·.1), per.map (·.2))

/-- fold_q4c: folded query, folded block scales, saturation. R79. -/
def foldQ4c (nb : Nat) (q : Qh) (scales : List Nat) : List Int × List F32 × Bool :=
  let per := ((pieces nb 32 (q.qq.zip scales)).zip q.qs).map fun (b, s) =>
    let y := b.map fun (i, sc) =>
      let a := satFl false (f32Mul .ne (f32OfInt .ne i) s)
      satFl a.2 (f32Mul .ne a.1 (f32OfBf16 sc))
    let amax := y.foldl (fun a (v : Fl) => f32Max a (f32Abs v.1)) 0#32
    let py : F32 := if f32zero amax then 0#32 else f32Div .up amax 0x42FE0000#32
    let pq := y.map fun (v : Fl) => if f32zero py then (0 : Int) else clampInt 127 (f32Dy (f32Div .ne v.1 py)).rneInt
    (pq, py, y.any (·.2))
  (per.flatMap (·.1), per.map (·.2.1), per.any (·.2.2))

/-- Exact sum of products of integers. -/
def dotInt (a b : List Int) : Int := ((a.zip b).map fun (x, y) => x * y).foldl (· + ·) 0

/-- dot for a format with per-token block scales. R79. -/
def dotTok (nb : Nat) (q : Qh) (row : List Int) (scales : List Nat) : Fl :=
  ((pieces nb 32 (q.qq.zip row)).zip (q.qs.zip scales)).foldl (fun (d : Fl) (b, s, ks) =>
    let a := (b.map fun (x, y) => x * y).foldl (· + ·) 0
    let w := satFl d.2 (f32Mul .ne s (f32OfBf16 ks))
    let t := satFl w.2 (f32Mul .ne (f32OfInt .ne a) w.1)
    satFl t.2 (f32Add .ne d.1 t.1)) (0#32, false)

/-- dot for Q4C keys over the folded query. R79. -/
def dotFold (nb : Nat) (pq : List Int) (py : List F32) (row : List Int) : Fl :=
  ((pieces nb 32 (pq.zip row)).zip py).foldl (fun (d : Fl) (b, s) =>
    let a := (b.map fun (x, y) => x * y).foldl (· + ·) 0
    let t := satFl d.2 (f32Mul .ne (f32OfInt .ne a) s)
    satFl t.2 (f32Add .ne d.1 t.1)) (0#32, false)

/-- dot for a BF16 tail. R79. -/
def dotBf (nb : Nat) (q : Qh) (row : List Nat) : Fl :=
  ((pieces nb 32 (q.qq.zip row)).zip q.qs).foldl (fun (d : Fl) (b, s) =>
    let a := b.foldl (fun (a : Fl) (x, k) =>
      let t := satFl a.2 (f32Mul .ne (f32OfInt .ne x) (f32OfBf16 k))
      satFl t.2 (f32Add .ne a.1 t.1)) (0#32, d.2)
    let t := satFl a.2 (f32Mul .ne a.1 s)
    satFl t.2 (f32Add .ne d.1 t.1)) (0#32, false)

/-- The negative of an FP32 value. -/
def f32Neg (a : F32) : F32 := a ^^^ 0x80000000#32

/-- clamp of an FP32 value to −c to c. -/
def f32Clamp (c v : F32) : F32 := if f32Lt c v then c else if f32Lt v (f32Neg c) then f32Neg c else v

/-- logit of a dot product, with the distance p − P_q. R80. -/
def logit (scale cap slope : F32) (dist : Int) (d : Fl) : Fl :=
  let s := satFl d.2 (f32Mul .ne d.1 scale)
  let s : Fl :=
    if f32Lt 0#32 cap then
      let q := satFl s.2 (f32Div .ne s.1 cap)
      (f32Clamp cap (f32Mul .ne cap (tanh32 q.1)), q.2)
    else s
  let s : Fl :=
    if f32zero slope then s
    else
      let t := satFl s.2 (f32Mul .ne slope (f32OfInt .ne dist))
      satFl t.2 (f32Add .ne s.1 t.1)
  satFl s.2 (f32Mul .ne s.1 LOG2E)

/-- A page as a lane holds it: opened, with its visible tokens. -/
structure SPage where
  lpn      : Nat
  idx      : Nat
  firstPos : Nat
  tail     : Bool
  g        : PGeom
  /-- key rows: elements, or BF16 encodings of a tail -/
  krows    : List (List Int)
  ksc      : List Nat
  vrows    : List (List Int)
  vsc      : List Nat
  hi       : List Int
  lo       : List Int
  sigma    : Nat
  /-- visible tokens of the page (R75) -/
  vis      : List Nat
  /-- what opening it met -/
  err      : Option Status
  /-- what a visit meets besides: the seal CRC or a word of its body -/
  verr     : Option Status
  deriving DecidableEq, Repr, Inhabited

/-- The request as the lanes hold it. -/
structure AttQ where
  nb    : Nat
  dim   : Nat
  group : Nat
  heads : List Qh
  scale : F32
  cap   : F32
  pq    : Int
  mode  : Nat
  eps   : F32
  topk  : Nat
  deriving DecidableEq, Repr, Inhabited

/-- Dot products of a page's visible tokens with one head. R79. -/
def pageDots (a : AttQ) (q : Qh) (p : SPage) : List (Nat × Fl) :=
  if p.tail then p.vis.map fun t => (t, dotBf a.nb q ((p.krows.getD t []).map Int.toNat))
  else if p.g.kf = fmtQ4C then
    let (pq, py, fl) := foldQ4c a.nb q p.ksc
    p.vis.map fun t => (t, (fun (d : Fl) => (d.1, d.2 || fl)) (dotFold a.nb pq py (p.krows.getD t [])))
  else p.vis.map fun t => (t, dotTok a.nb q (p.krows.getD t []) ((p.ksc.drop (t * a.nb)).take a.nb))

/-- Logits of a page's visible tokens. R80. -/
def pageLogits (a : AttQ) (q : Qh) (p : SPage) : List (Nat × Fl) :=
  (pageDots a q p).map fun (t, d) => (t, logit a.scale a.cap q.slope ((p.firstPos + t : Nat) - a.pq) d)

/-- Values of token t with their weight: v and u of R83. -/
def valueRow (a : AttQ) (p : SPage) (t : Nat) (w : F32) : List (F32 × Fl) :=
  let row := p.vrows.getD t []
  if p.tail then row.map fun v => (f32OfBf16 v.toNat, (w, false))
  else
    ((pieces a.nb 32 row).zip ((p.vsc.drop (t * a.nb)).take a.nb)).flatMap fun (b, vs) =>
      let u := satFl false (f32Mul .ne w (f32OfBf16 vs))
      b.map fun v => (f32OfInt .ne v, u)

/-- The record a head starts from. R83. -/
def emptyRec (head dim : Nat) : Rec :=
  ⟨head, NEGINF, 0#32, 0#32, 0, 0, List.replicate dim 0#32, false, true, false, false⟩

/-- PMAX: the page maximum and the rescaling of the record. R83. -/
def rescale (r : Rec) (mp : F32) : Rec :=
  let mn := f32Max r.m mp
  if r.m ≠ NEGINF ∧ f32Lt r.m mn then
    let x := satFl r.saturated (f32Sub .ne r.m mn)
    let f := exp2 x.1
    let l := satFl x.2 (f32Mul .ne r.l f)
    let o := r.o.map fun v => satFl false (f32Mul .ne v f)
    { r with m := mn, l := l.1, o := o.map (·.1), saturated := l.2 || o.any (·.2) }
  else { r with m := mn }

/-- Accumulation of one token into a record. R83. -/
def accum (r : Rec) (z : F32) (vals : F32 → List (F32 × Fl)) : Rec :=
  let x := satFl r.saturated (f32Sub .ne z r.m)
  let w := exp2 x.1
  let l := satFl x.2 (f32Add .ne r.l w)
  let o := (r.o.zip (vals w)).map fun (o, v, u) =>
    let t := satFl u.2 (f32Mul .ne v u.1)
    satFl t.2 (f32Add .ne o t.1)
  { r with l := l.1, o := o.map (·.1), saturated := l.2 || o.any (·.2), empty := false }

/-- visit of a page for one head. R83. -/
def visit (a : AttQ) (q : Qh) (r : Rec) (p : SPage) : Rec :=
  let zs := pageLogits a q p
  let mp := zs.foldl (fun m z => f32Max m z.2.1) NEGINF
  let r := { rescale r mp with saturated := (rescale r mp).saturated || zs.any (·.2.2) }
  let r := zs.foldl (fun r z => accum r z.2.1 (valueRow a p z.1)) r
  { r with scanned := min (r.scanned + p.vis.length) 0xFFFFFFFF }

/-! ## Bounds and skipping (R85 to R88) -/

/-- page_bound with the folded block scales given: every operation rounds toward +∞. A bound that overflowed scales leave
without a value is +∞, which holds of every page (DESIGN CHOICE, assumption 136). R85. -/
def pageBoundWith (a : AttQ) (q : Qh) (p : SPage) (py : List F32) : F32 :=
  let add := f32Add .up
  let mul := f32Mul .up
  let c16 : F32 := 0x37800000#32
  let sg := f32OfBf16 p.sigma
  let blk := (pieces a.nb 32 (q.qq.zip (p.hi.zip p.lo))).zip q.qs
  let (u, am) := blk.foldl (fun (u, am) (b, s) =>
    let w := mul s sg
    let x := (b.map fun (i, h, l) => i * (if 0 ≤ i then h else l)).foldl (· + ·) 0
    let y := (b.map fun (i, h, l) => (i.natAbs * max h.natAbs l.natAbs : Nat)).foldl (· + ·) 0
    (add u (mul (f32OfInt .up x) w), add am (mul (f32OfInt .up y) w))) ((0#32 : F32), (0#32 : F32))
  let f := py.foldl (fun f y => add f (mul 0x42E00000#32 y)) (0#32 : F32)
  let s := mul (add (add u (mul c16 am)) f) a.scale
  let s :=
    if f32Lt 0#32 a.cap then
      f32Min a.cap (add (mul a.cap (tanh32 (f32Sat (f32Div .up s a.cap)).1)) (mul 0x36000000#32 a.cap))
    else s
  let betas := p.vis.map fun t => mul q.slope (f32OfInt .up ((p.firstPos + t : Nat) - a.pq))
  let beta := if f32zero q.slope then (0#32 : F32) else betas.foldl f32Max NEGINF
  let s := add (add s beta) (mul c16 (f32Abs beta))
  let z := mul s LOG2E
  let z := add (add z (mul c16 (f32Abs z))) (mul c16 (mul (mul am a.scale) LOG2E))
  if f32nan z then POSINF else z

/-- page_bound. A query folded for a bound alone leaves the record's saturated flag as it is (DESIGN CHOICE, assumption 137).
R85. -/
def pageBound (a : AttQ) (q : Qh) (p : SPage) : F32 :=
  pageBoundWith a q p (if p.g.kf = fmtQ4C then (foldQ4c a.nb q p.ksc).2.1 else [])

/-- Remaining mass of unvisited pages for one head: each entry is n_vis and Z. R88 step 3. -/
def remaining (m : F32) (rest : List (Nat × F32)) : F32 :=
  if rest.isEmpty then 0#32
  else if m = NEGINF then POSINF
  else rest.foldl (fun acc (n, z) =>
    f32Add .up acc (f32Mul .up (f32OfInt .up n) (if f32fin z then exp2Up (f32Sub .up z m) else POSINF))) 0#32

/-- ε′ = ε × (1 − 2^−16), rounded down. R87. -/
def epsPrime (e : F32) : F32 := f32Mul .dn e 0x3F7FFF00#32

/-- A lane's progress on a segment: records, pages visited, pages left, first failure. -/
structure SegRes where
  recs  : List Rec
  read  : List Nat
  left  : List Nat
  fail  : Option (Status × Nat)
  deriving DecidableEq, Repr, Inhabited

/-- Visits pages in order until one fails; under TOPPAGES the sketches of the others have been read. -/
def visitAll (a : AttQ) (qs : List Qh) : List SPage → SegRes → SegRes
  | [], r => r
  | p :: ps, r =>
    match p.err <|> p.verr with
    | some st =>
      { r with fail := some (st, p.firstPos), read := r.read ++ [p.lpn], left := if a.mode = 2 then ps.map (·.lpn) else [] }
    | none =>
      visitAll a qs ps { r with recs := (qs.zip r.recs).map fun (q, x) => visit a q x p,
                                read := r.read ++ [p.lpn] }

/-- Visits pages in bound order until the stop rule of R88 step 4 holds; each page carries its bounds by head. -/
def visitBounded (a : AttQ) (qs : List Qh) (eps : F32) : List (SPage × List F32) → SegRes → SegRes
  | [], r => { r with recs := r.recs.map fun x => { x with b := 0#32 } }
  | (p, z) :: ps, r =>
    let rest := (p, z) :: ps
    let bs := (r.recs.zipIdx).map fun (x, i) => remaining x.m (rest.map fun (p, z) => (p.vis.length, z.getD i 0#32))
    if (r.recs.zip bs).all fun (x, b) => f32Le b (f32Mul .dn eps x.l) then
      { r with recs := (r.recs.zip bs).map fun (x, b) =>
                 { x with b := b, skipped := rest.length, bounded := true },
               left := rest.map fun (p, _) => p.lpn }
    else
      match p.verr with
      | some st => { r with fail := some (st, p.firstPos), read := r.read ++ [p.lpn], left := ps.map fun (p, _) => p.lpn }
      | none =>
        visitBounded a qs eps ps { r with recs := (qs.zip r.recs).map fun (q, x) => visit a q x p,
                                          read := r.read ++ [p.lpn] }

/-- Whether one FP32 key sorts before another, descending, ties by ascending page index. R88 step 2. -/
def keyBefore (x y : F32 × Nat) : Bool := f32Lt y.1 x.1 || (! f32Lt x.1 y.1 && decide (x.2 < y.2))

/-- Inserts by descending key. -/
def insertKey {α : Type} (x : (F32 × Nat) × α) : List ((F32 × Nat) × α) → List ((F32 × Nat) × α)
  | [] => [x]
  | y :: ys => if keyBefore x.1 y.1 then x :: y :: ys else y :: insertKey x ys

/-- Pages of a segment with their bounds, in the order of R88 step 2. -/
def boundOrder (a : AttQ) (qs : List Qh) (ps : List SPage) : List (SPage × List F32) :=
  (ps.foldr (fun p acc =>
    let z := qs.map fun q => pageBound a q p
    insertKey ((z.foldl f32Max NEGINF, p.idx), (p, z)) acc) []).map (·.2)

/-- Heads of a KV head, counted from the first of the range. R71. -/
def headsOf (a : AttQ) (kvOff : Nat) : List Qh := (a.heads.drop (kvOff * a.group)).take a.group

/-- A lane's segment: the pages of one KV head in its run, and the unselected pages it reports; under TOPPAGES it adds up
the terms of b in ascending page index (DESIGN CHOICE, assumption 140). R88. -/
def runSegment (a : AttQ) (kvOff : Nat) (pages unsel : List SPage) : SegRes :=
  let qs := headsOf a kvOff
  let r0 : SegRes := ⟨(List.range a.group).map fun g => emptyRec (kvOff * a.group + g) a.dim, [], [], none⟩
  if a.mode = 1 ∧ ¬ f32zero a.eps then
    let r := visitAll a qs (pages.filter (·.tail)) r0
    let rest := pages.filter fun p => ! p.tail
    match r.fail, rest.find? fun p => p.err.isSome with
    | some _, _ => r
    | none, some p => { r with fail := p.err.map fun st => (st, p.firstPos), read := r.read ++ [p.lpn],
                               left := (rest.filter fun q => decide (q.lpn ≠ p.lpn)).map (·.lpn) }
    | none, none => visitBounded a qs (epsPrime a.eps) (boundOrder a qs rest) r
  else
    let r := visitAll a qs pages r0
    if unsel.isEmpty then r
    else if r.fail.isSome then { r with left := r.left ++ unsel.map (·.lpn) }
    else
      { r with recs := (r.recs.zip qs).map fun (x, q) =>
          { x with b := remaining x.m (unsel.map fun p => (p.vis.length, pageBound a q p)),
                   skipped := unsel.length, toppages := true },
               left := unsel.map (·.lpn) }

/-! ## Merge of two records (05_merge.md R97 to R99) -/

/-- mul_up for a rescaled bound: +∞ times any factor is +∞. R97. -/
def mulUpInf (b f : F32) : F32 := if b = POSINF then POSINF else f32Mul .up b f

/-- merge(a, b). R97 to R99. -/
def mergeRec (a b : Rec) : Rec :=
  let base : Rec :=
    { a with saturated := a.saturated || b.saturated, empty := a.empty && b.empty, bounded := a.bounded || b.bounded,
             toppages := a.toppages || b.toppages, scanned := satAdd a.scanned b.scanned,
             skipped := satAdd a.skipped b.skipped }
  if a.empty ∧ b.empty then
    { base with m := NEGINF, l := 0#32, o := a.o.map fun _ => 0#32, b := f32Add .up a.b b.b }
  else if a.empty ∨ b.empty then
    let x := if a.empty then b else a
    let e := if a.empty then a else b
    { base with m := x.m, l := x.l, o := x.o, b := f32Add .up x.b e.b }
  else
    let m := f32Max a.m b.m
    let fa : F32 := if a.m = m then ONE else exp2 (f32Sub .ne a.m m)
    let fb : F32 := if b.m = m then ONE else exp2 (f32Sub .ne b.m m)
    let comb := fun (x y : F32) => satFl false (f32Add .ne (f32Mul .ne x fa) (f32Mul .ne y fb))
    let l := comb a.l b.l
    let o := (a.o.zip b.o).map fun (x, y) => comb x y
    { base with m := m, l := l.1, o := o.map (·.1), b := f32Add .up (mulUpInf a.b fa) (mulUpInf b.b fb),
                saturated := base.saturated || l.2 || o.any (·.2) }

/-- A chain: the first two present inputs, then each later one. R103. -/
def chainRecs : List Rec → Option Rec
  | [] => none
  | r :: rs => some (rs.foldl mergeRec r)

/-- Merges record sets of one request position by position. -/
def mergeSets (a b : List Rec) : List Rec :=
  if a.isEmpty then b else if b.isEmpty then a else (a.zip b).map fun (x, y) => mergeRec x y

/-! ## A slice (R76, R77, R88, R93) -/

/-- A KV head's opened pages in a slice, in ascending page index. -/
structure HeadPages where
  kv    : Nat
  off   : Nat
  pages : List SPage
  deriving DecidableEq, Repr, Inhabited

/-- TOPPAGES selection of one KV head: selected, and unselected. R88. -/
def selectTop (a : AttQ) (h : HeadPages) : List SPage × List SPage :=
  if a.mode ≠ 2 then (h.pages, [])
  else
    let cand := h.pages.filter fun p => ! p.tail
    if cand.length ≤ a.topk then (h.pages, [])
    else
      let keep := ((boundOrder a (headsOf a h.off) cand).take a.topk).map fun (p, _) => p.idx
      (h.pages.filter fun p => p.tail || keep.contains p.idx, cand.filter fun p => ! keep.contains p.idx)

/-- The entries of a lane's run among N. R76. -/
def laneRun {α : Type} (l : List α) (i : Nat) : List α :=
  let n := l.length
  (l.drop (i * n / 16)).take ((i + 1) * n / 16 - i * n / 16)

/-- What a slice's scan gives: its report and the pages it read, and those it bounded only. -/
structure SliceRes where
  rep  : Report
  read : List Nat
  left : List Nat
  /-- tokens scored and pages skipped of head g = 0 of each KV head (17_health.md R417) -/
  scanned : Nat
  skipped : Nat
  deriving DecidableEq, Repr, Inhabited

/-- Scan of a request in a slice: work list, lanes, segments, lane combination in ascending order. A slice reports the
first failure of each lane and of each head's unselected pages; the hub's ranking chooses among them (DESIGN CHOICE,
assumption 138). R76, R77, R93. -/
def sliceScan (a : AttQ) (hs : List HeadPages) : SliceRes :=
  let sel := hs.map fun h => (h, selectTop a h)
  let work := sel.flatMap fun (h, s) => s.1.map fun p => (h.off, p)
  let segs := (List.range 16).flatMap fun i =>
    let run := laneRun work i
    hs.filterMap fun h =>
      let mine := (run.filter fun e => decide (e.1 = h.off)).map (·.2)
      if mine.isEmpty then none
      else
        let s := ((sel.find? fun x => decide (x.1.off = h.off)).map (·.2)).getD ([], [])
        let first := match s.1, mine with
          | p :: _, q :: _ => decide (p.idx = q.idx)
          | _, _ => false
        some (h, runSegment a h.off mine (if first then s.2 else []))
  let selBad := sel.filterMap fun (h, s) => if a.mode = 2 then (s.2.find? fun p => p.err.isSome).map fun p => (h, p) else none
  let selErr := selBad.filterMap fun (h, p) => p.err.map fun st => (⟨st, h.kv, p.firstPos⟩ : ScanFail)
  let fails := segs.filterMap fun (h, r) => r.fail.map fun (st, pos) => (⟨st, h.kv, pos⟩ : ScanFail)
  let recs := (List.range (hs.length * a.group)).map fun n =>
    ((chainRecs (segs.filterMap fun (h, r) =>
      if n / a.group = h.off then r.recs[n % a.group]? else none))).getD (emptyRec n a.dim)
  ⟨if (fails ++ selErr).isEmpty then ⟨[], recs⟩ else ⟨fails ++ selErr, []⟩,
   (segs.flatMap fun (_, r) => r.read) ++ selBad.map fun (_, p) => p.lpn, segs.flatMap fun (_, r) => r.left,
   sumNat (segs.map fun (_, r) => (r.recs.head?.map (·.scanned)).getD 0),
   sumNat (segs.map fun (_, r) => (r.recs.head?.map (·.skipped)).getD 0)⟩

/-- Rank of a failing status: UNCORRECTABLE, DAMAGED, REVOKED, NOT_FOUND, then VERSION. R93 (assumption 20). -/
def failRank : Status → Nat
  | .uncorrectable => 0
  | .damaged => 1
  | .revoked => 2
  | .notFound => 3
  | _ => 4

/-- The failure an ingress hub returns. R93. -/
def worstFail (l : List ScanFail) : Option ScanFail :=
  match l with
  | [] => none
  | x :: r => some (r.foldl (fun a b =>
      let ka := (failRank a.status, a.kv, a.pos)
      let kb := (failRank b.status, b.kv, b.pos)
      if kb.1 < ka.1 ∨ (kb.1 = ka.1 ∧ (kb.2.1 < ka.2.1 ∨ (kb.2.1 = ka.2.1 ∧ kb.2.2 < ka.2.2))) then b else a) x)

/-! ## Record bytes (R84, R91, R92) -/

/-- A record with its output narrowed to BF16 when out_fp32 = 0. R84. -/
def narrow (fp32out : Bool) (r : Rec) : List Byte × Bool :=
  if fp32out then (r.o.flatMap fun v => leBytes 4 v.toNat, false)
  else
    let vs := r.o.map fun v =>
      let x := f32ToBf16 .ne v
      if bf16.isInf x then (x / 0x8000 * 0x8000 + 0x7F7F, true) else (x, false)
    (vs.flatMap fun v => leBytes 2 v.1, vs.any (·.2))

/-- A multi-byte value list in wire or device order: bytes given little-endian in units of n are reversed by unit. -/
def orderUnits (be : Bool) (n : Nat) (b : List Byte) : List Byte :=
  if be then (pieces (b.length / max n 1) n b).flatMap List.reverse else b

/-- A partial record's bytes. R91. -/
def recBytes (be fp32out : Bool) (r : Rec) : List Byte :=
  let (o, sat) := narrow fp32out r
  put be 1 1 ++ put be 1 (b2n fp32out + 2 * b2n (r.saturated || sat) + 4 * b2n r.empty + 8 * b2n r.bounded +
    16 * b2n r.toppages) ++ put be 2 r.head ++ put be 4 r.m.toNat ++ put be 4 r.l.toNat ++ put be 4 r.b.toNat ++
    put be 4 r.scanned ++ put be 4 r.skipped ++ orderUnits be (if fp32out then 4 else 2) o

/-- Bytes of a record. R91. -/
def recSize (fp32out : Bool) (dim : Nat) : Nat := 24 + dim * (if fp32out then 4 else 2)

/-- Reads a record of dim output values; a BF16 output becomes FP32 exactly (05_merge.md R97). -/
def parseRec (be : Bool) (dim : Nat) (b : List Byte) : Rec :=
  let f := fun o n => fld be b o n
  let fl := f 1 1
  let w := if bit1 fl 0 then 4 else 2
  let o := (List.range dim).map fun i =>
    if w = 4 then BitVec.ofNat 32 (f (24 + 4 * i) 4) else f32OfBf16 (f (24 + 2 * i) 2)
  { head := f 2 2, m := BitVec.ofNat 32 (f 4 4), l := BitVec.ofNat 32 (f 8 4), b := BitVec.ofNat 32 (f 12 4),
    scanned := f 16 4, skipped := f 20 4, o := o, saturated := bit1 fl 1, empty := bit1 fl 2, bounded := bit1 fl 3,
    toppages := bit1 fl 4 }

end Sys2Proof.Machine
end

