-- ==== Sys2Proof/Machine/Descs.lean ====
section
/-!
DEFINITION. Sequence descriptors and the roots of page lists. 03_sequences.md R48 to R56.
-/
namespace Sys2Proof.Machine

/-! ## Descriptors (R48 to R56) -/

/-- A descriptor. -/
def descOf (s : State) (i : Nat) : Option Desc := aget s.seqs.descs i

/-- Changes a descriptor. -/
def modDesc (s : State) (i : Nat) (f : Desc → Desc) : State :=
  modSeqs s fun q => { q with descs := amod q.descs i f }

/-- Page geometry of a sequence. -/
def Desc.geom (d : Desc) : PGeom := ⟨d.keyFormat, d.valFormat, d.tCode, d.dCode⟩

/-- Tokens in a page of the sequence. -/
def Desc.t (d : Desc) : Nat := tOf d.tCode
def Desc.dim (d : Desc) : Nat := dOf d.dCode

/-- (layer, KV head) pairs. -/
def Desc.pairs (d : Desc) : Nat := d.layers * d.kvHeads

/-- Index of a (layer, KV head) pair. 03_sequences.md R52. -/
def Desc.pair (d : Desc) (layer kv : Nat) : Nat := layer * d.kvHeads + kv

/-- Slice that holds page index p. 03_sequences.md R55. -/
def Desc.slice (d : Desc) (p : Nat) : Nat := d.stripe.getD (p % max 1 d.stripe.length) 0

/-- Pages of the delta prefix of a pair. 03_sequences.md R67. -/
def Desc.deltaPages (d : Desc) : Nat := d.deltaTokens / max 1 d.t

/-- stripe_mask of a stripe order. -/
def stripeMask (o : List Nat) : Nat := sumNat (o.map fun k => 2 ^ k)

/-- Codes of descriptor states. 03_sequences.md R50. -/
def DescState.code : DescState → Nat
  | .free => 0 | .active => 1 | .draining => 2 | .transfer => 3 | .dropping => 4

/-- The 512-byte descriptor core. 03_sequences.md R50. -/
def Desc.core (d : Desc) : List Byte :=
  leBytes 1 1 ++ leBytes 1 d.keyFormat ++ leBytes 1 d.valFormat ++ leBytes 1 (d.tCode + 4 * d.dCode) ++
    leBytes 1 d.state.code ++ leBytes 1 d.anchors.length ++ leBytes 2 (b2n (decide (d.binding ≠ 0))) ++ leBytes 8 d.handle ++
    leBytes 2 d.tenant ++ leBytes 2 d.layers ++ leBytes 2 d.kvHeads ++ zeros 2 ++ leBytes 4 d.length ++ leBytes 4 d.gen ++
    leBytes 4 d.owner ++ leBytes 4 d.ownerGen ++ leBytes 4 d.window ++ leBytes 4 (stripeMask d.stripe) ++
    leBytes 1 (d.stripe.head?.getD 0) ++ leBytes 1 d.stripe.length ++ zeros 2 ++ leBytes 4 d.inflight ++
    leBytes 8 d.baseHandle ++ leBytes 4 d.deltaTokens ++ zeros 60 ++
    (d.anchors.flatMap fun a => leBytes 4 (a.start + a.lenM1 * 2 ^ 24)) ++ zeros (4 * (64 - d.anchors.length)) ++ zeros 128

/-- Confirmation of a handle row against the descriptor core. 03_sequences.md R49. -/
def confirmHandle (s : State) (handle v : Nat) : Bool :=
  match descOf s v with
  | some d => decide (d.handle = handle) && decide (d.tenant = handle / 2 ^ 48) && decide (d.state ≠ .free)
  | none => false

/-- Resolves a handle for a tenant at a hub. 03_sequences.md R48, R49. -/
def findSeq (s : State) (hub tenant handle : Nat) : State × Found :=
  if handle / 2 ^ 48 ≠ tenant ∨ handle % 2 ^ 48 = 0 then (s, .miss)
  else search s hub clsHandle handle (confirmHandle s handle)

/-- The descriptor a handle names, without a search. -/
def peekSeq (s : State) (tenant handle : Nat) : Option (Nat × Desc) :=
  if handle / 2 ^ 48 ≠ tenant then none
  else s.seqs.descs.find? fun p => decide (p.2.handle = handle) && decide (p.2.state ≠ .free)

/-- Generation match. 03_sequences.md R51. -/
def genMatch (want have_ : Nat) : Bool := decide (want = 0) || decide (want = have_)

/-- Slices whose die state is IN_SERVICE, ascending. 03_sequences.md R56. -/
def servingSlices (s : State) : List Nat := (List.range 32).filter fun k => decide ((sliceSt s k).st = 0)

/-- Stripe order of a fresh sequence with descriptor index i. 03_sequences.md R55, R56. -/
def freshStripe (s : State) (i : Nat) : List Nat :=
  let all := servingSlices s
  let base := (all.find? fun k => decide (i % 32 ≤ k)).getD (all.head?.getD 0)
  (all.filter fun k => decide (base ≤ k)) ++ all.filter fun k => decide (k < base)

/-- Lowest descriptor index not in use. 03_sequences.md R49. -/
def freeDescIndex (s : State) : Option Nat :=
  let used := sortNat (s.seqs.descs.map (·.1))
  let i := used.foldl (fun n u => if u = n then n + 1 else n) 0
  if i < 1048576 then some i else none

/-- Generation a free descriptor index carries. 03_sequences.md R50. -/
def descGenOf (s : State) (i : Nat) : Nat := agetD s.seqs.descGen i 1

/-! ## Page lists (R52, R53) -/

/-- A root of a fragment table. -/
def rootOf (s : State) (k i pair : Nat) : Root := agetD s.seqs.roots (k, i, pair) ⟨[], 0, []⟩

/-- Sets a root. -/
def setRoot (s : State) (k i pair : Nat) (r : Root) : State :=
  modSeqs s fun q => { q with roots := aset q.roots (k, i, pair) r }

end Sys2Proof.Machine
end

