-- ==== Sys2Proof/Machine/Places.lean ====
section
/-!
DEFINITION. The typed records of State as the bytes that stand for them in device memory: which record a word of memory
belongs to, its bytes in the layout the spec gives, and what a window's write of such a word does to the record.
03_sequences.md R50 to R53, R68; 06_append.md R125, R134; 07_dill.md R144; 08_memory.md R197; 09_chive.md R200, R210;
10_fabric.md R244, R245; 11_remote_access.md R250; 12_ledger.md R273. Where the spec gives a structure's extent and not its
place in it, the place is a constant of Config (assumption 7).
-/
namespace Sys2Proof.Machine

/-! ## Bytes of records -/

/-- A region-table entry. 11_remote_access.md R250. -/
def Region.bytes (r : Region) : List Byte :=
  leBytes 1 1 ++ leBytes 1 (r.state + 4 * r.kind) ++ leBytes 1 (b2n r.read + 2 * b2n r.write + 4 * b2n r.named) ++
    leBytes 1 r.gen ++ leBytes 2 r.tenant ++ leBytes 2 r.pd ++ leBytes 4 r.inflight ++ leBytes 4 r.prio ++ leBytes 8 r.target ++
    leBytes 8 r.name ++ leBytes 2 r.layerFirst ++ leBytes 2 r.layerCount ++ leBytes 2 r.kvFirst ++ leBytes 2 r.kvCount ++
    leBytes 4 r.pageFirst ++ leBytes 4 r.pageCount ++ leBytes 8 r.length ++ leBytes 4 r.seqGen ++ zeros 4

/-- An entry with the fields its 64 bytes give. 11_remote_access.md R250. -/
def Region.ofBytes (r : Region) (b : List Byte) : Region :=
  let f := fun o n => fld false b o n
  { r with state := f 1 1 % 4, kind := f 1 1 / 4 % 8, read := bit1 (f 2 1) 0, write := bit1 (f 2 1) 1, named := bit1 (f 2 1) 2,
           gen := f 3 1, tenant := f 4 2, pd := f 6 2, inflight := f 8 4, prio := f 12 1, target := f 16 8,
           name := f 24 8 % 2 ^ 48, layerFirst := f 32 2, layerCount := f 34 2, kvFirst := f 36 2, kvCount := f 38 2,
           pageFirst := f 40 4 % 2 ^ 24, pageCount := f 44 4, length := f 48 8, seqGen := f 56 4 }

/-- A row as a shadow or a table holds it. 09_chive.md R200. -/
def rowBytes (r : ChiveRow) : List Byte :=
  leBytes 8 r.key ++ leBytes 1 r.cls ++ leBytes 1 r.prio ++ leBytes 1 1 ++ zeros 5 ++ leBytes 8 r.value ++ zeros 8

/-- The row 32 bytes hold; none when its valid bit is 0. 09_chive.md R200. -/
def rowParse (b : List Byte) : Option ChiveRow :=
  let f := fun o n => fld false b o n
  if bit1 (f 10 1) 0 then some ⟨f 0 8, f 8 1, f 9 1, f 16 8⟩ else none

/-- A page reference. 03_sequences.md R53. -/
def PageRef.bytes (r : PageRef) : List Byte :=
  leBytes 4 r.lpn ++ leBytes 4 r.gen ++ leBytes 4 r.firstPos ++ leBytes 1 r.tokens ++ leBytes 1 r.cls ++ zeros 2

/-- The reference a word holds. 03_sequences.md R53. -/
def PageRef.ofBytes (b : List Byte) : PageRef :=
  let f := fun o n => fld false b o n
  ⟨f 0 4, f 4 4, f 8 3, f 12 1, f 13 1 % 8⟩

/-- A sequence entry. 03_sequences.md R52. -/
def SeqEntry.bytes (e : SeqEntry) : List Byte :=
  leBytes 4 e.frag ++ leBytes 4 e.fragGen ++ leBytes 4 e.delta ++ leBytes 4 e.deltaGen

/-- The sequence entry a word holds. 03_sequences.md R52. -/
def SeqEntry.ofBytes (b : List Byte) : SeqEntry :=
  let f := fun o n => fld false b o n
  ⟨f 0 4, f 4 4, f 8 4, f 12 4⟩

/-- An entry of a tail directory. 06_append.md R125. -/
def TailDir.bytes (t : TailDir) : List Byte := leBytes 4 (t.heldEnd + 2 ^ 31 * b2n t.claim) ++ leBytes 4 (t.index + 2 ^ 24 * t.frozen)

/-- The tail-directory entry eight bytes hold. 06_append.md R125. -/
def TailDir.ofBytes (b : List Byte) : TailDir :=
  let e := fld false b 0 4
  let x := fld false b 4 4
  ⟨e % 2 ^ 25, bit1 e 31, x % 2 ^ 24, x / 2 ^ 24 % 4⟩

/-- States of a directory entry. 12_ledger.md R273. -/
def DirState.code : DirState → Nat
  | .valid => 1 | .publishing => 2 | .arriving => 3

/-- A directory entry: eight sharers, or a cell vector. 12_ledger.md R273. -/
def DirEntry.bytes (e : DirEntry) : List Byte :=
  let ptrs := if e.coarse then leBytes 16 (sumNat (e.cells.eraseDups.map fun c => 2 ^ c)) ++ zeros 8
    else takeBytes (e.sharers.flatMap fun x => leBytes 3 x) 0 24
  leBytes 1 1 ++ leBytes 1 e.state.code ++ leBytes 1 (e.sharers.length + 16 * b2n e.coarse) ++ zeros 1 ++
    leBytes 2 (e.lineId / 2 ^ 48 % 2 ^ 14) ++ leBytes 2 e.homeEpoch ++ leBytes 8 e.lineId ++ leBytes 8 e.version ++ ptrs ++
    leBytes 8 e.grantTime ++ leBytes 8 e.leaseEnd ++ takeBytes e.content 0 64

/-- A directory entry with the fields its 128 bytes give. 12_ledger.md R273. -/
def DirEntry.ofBytes (e : DirEntry) (b : List Byte) : DirEntry :=
  let f := fun o n => fld false b o n
  let coarse := bit1 (f 2 1) 4
  { e with state := if f 1 1 % 4 = 2 then .publishing else if f 1 1 % 4 = 3 then .arriving else .valid, homeEpoch := f 6 2,
           version := f 16 8, coarse := coarse,
           sharers := if coarse then [] else (List.range (min 8 (f 2 1 % 16))).map fun i => f (24 + 3 * i) 3,
           cells := if coarse then (List.range 128).filter fun c => bit1 (f 24 16) c else [],
           grantTime := f 48 8, leaseEnd := f 56 8, content := (b.drop 64).take 64 }

/-- States of a connection. 10_fabric.md R245. -/
def ConnState.code : ConnState → Nat
  | .opening => 1 | .open_ => 2 | .closing => 3 | .failed => 4

/-- A connection record. The peer's addresses are one value: MAC address, UDP port, IP address, lowest first. Where its rings
lie in hub SRAM is a constant of Config. 10_fabric.md R245. -/
def connBytes (s : State) (i : Nat) (c : Conn) : List Byte :=
  leBytes 1 1 ++ leBytes 1 (c.state.code + 8 * b2n (pinned s i c) + 16 * c.version) ++ leBytes 1 c.segCode ++ zeros 1 ++
    leBytes 4 c.id ++ leBytes 4 c.peer ++ leBytes 2 c.tenant ++ leBytes 2 c.pd ++ leBytes 4 c.sndNext ++ leBytes 4 c.sndUna ++
    leBytes 4 c.rcvNext ++ leBytes 2 c.peerCredit ++ leBytes 2 c.ownCredit ++ leBytes 4 c.srtt ++ leBytes 4 c.rttvar ++
    leBytes 4 c.rto ++ leBytes 1 c.timeouts ++ zeros 3 ++ leBytes 8 c.lastRx ++ leBytes 24 c.peerAddr ++
    leBytes 4 (if c.ring.isEmpty then 0 else Config.placeOf 7 i) ++ leBytes 4 (if c.reasm.isEmpty then 0 else Config.placeOf 8 i) ++
    zeros 168

/-- A connection record with the fields its 256 bytes give; the state stays where a reserved code is written.
10_fabric.md R245. -/
def connOfBytes (c : Conn) (b : List Byte) : Conn :=
  let f := fun o n => fld false b o n
  { c with state := ([ConnState.opening, .open_, .closing, .failed].find? fun x => decide (x.code = f 1 1 % 8)).getD c.state,
           version := f 1 1 / 16 % 4, segCode := f 2 1 % 16, id := f 4 4, peer := f 8 3, tenant := f 12 2, pd := f 14 2,
           sndNext := f 16 4, sndUna := f 20 4, rcvNext := f 24 4, peerCredit := f 28 2, ownCredit := f 30 2, srtt := f 32 4,
           rttvar := f 36 4, rto := f 40 4, timeouts := f 44 1, lastRx := f 48 8, peerAddr := f 56 24 }

/-- A descriptor core that is FREE. 03_sequences.md R50. -/
def freeCore (gen : Nat) : List Byte := leBytes 1 1 ++ zeros 27 ++ leBytes 4 gen ++ zeros 480

/-- Stripe order of a mask and a base. 03_sequences.md R55. -/
def stripeOf (mask base : Nat) : List Nat :=
  let all := (List.range 32).filter fun k => bit1 mask k
  (all.filter fun k => decide (base ≤ k)) ++ all.filter fun k => decide (k < base)

/-- A descriptor with the fields its core gives. 03_sequences.md R50. -/
def Desc.ofCore (d : Desc) (b : List Byte) : Desc :=
  let f := fun o n => fld false b o n
  { d with keyFormat := f 1 1, valFormat := f 2 1, tCode := f 3 1 % 4, dCode := f 3 1 / 4 % 8,
           state := ([DescState.free, .active, .draining, .transfer, .dropping].find? fun x =>
             decide (x.code = f 4 1 % 8)).getD d.state,
           anchors := (List.range (min 64 (f 5 1 % 128))).map fun j => ⟨f (128 + 4 * j) 4 % 2 ^ 24, f (128 + 4 * j) 4 / 2 ^ 24⟩,
           handle := f 8 8, tenant := f 16 2, layers := f 18 2, kvHeads := f 20 2, length := f 24 4, gen := f 28 4, owner := f 32 3,
           ownerGen := f 36 4, window := f 40 3, stripe := stripeOf (f 44 4) (f 48 1 % 32), inflight := f 52 4,
           baseHandle := f 56 8, deltaTokens := f 64 3, binding := if bit1 (f 6 1) 0 then d.binding else 0 }

/-- States of a command slot. 07_dill.md R144. -/
def CmdState.code : CmdState → Nat
  | .free => 0 | .queued => 1 | .running => 2 | .yielded => 3 | .done => 4 | .fault => 5

/-- A command slot. 07_dill.md R144. -/
def CmdSlot.bytes (c : CmdSlot) : List Byte :=
  let win := fun (w : Window) => leBytes 8 w.base ++ leBytes 4 w.len ++ leBytes 4 (w.kind + 4 * b2n w.read + 8 * b2n w.write)
  leBytes 1 1 ++ leBytes 1 c.kind ++ leBytes 1 (c.program + 64 * c.cls) ++ leBytes 1 c.state.code ++ leBytes 2 c.tenant ++
    leBytes 2 c.laneMask ++ leBytes 8 c.tag ++ leBytes 1 c.status ++ leBytes 1 c.faultCode ++ leBytes 2 c.faultPc ++
    leBytes 4 c.segments ++ zeros 8 ++ takeBytes (c.windows.flatMap win) 0 64 ++
    ((List.range 32).flatMap fun i => leBytes 4 (agetD c.params i 0#32).toNat) ++
    (List.range 8).flatMap fun i => leBytes 4 (agetD c.results i 0#32).toNat

/-- Tails of a pair that a slice holds: resident ones, then written-back ones. -/
def pairTails (s : State) (k i : Nat) (d : Desc) (pair : Nat) : List TailKey × List TailKey :=
  let mine := fun (q : TailKey) => decide (q.desc = i) && decide (d.pair q.layer q.kv = pair) && decide (d.slice q.page = k)
  ((s.seqs.tails.map (·.1)).filter mine, (s.seqs.images.map (·.1)).filter mine)

/-- A 32-byte root of a fragment table. 03_sequences.md R52. -/
def rootBytes (s : State) (k i pair : Nat) (d : Desc) : List Byte :=
  let r := rootOf s k i pair
  let (res, img) := pairTails s k i d pair
  let rec_ := ((img.head?.bind fun q => aget s.seqs.images q).map (·.record)).getD 0
  leBytes 4 r.refs.length ++ leBytes 4 r.chunkDir ++ leBytes 4 (if r.chunks.isEmpty then 0 else slotGen s r.chunkDir) ++
    leBytes 4 (if ! res.isEmpty then 1 else if ! img.isEmpty then 2 else 0) ++ leBytes 4 rec_ ++
    leBytes 4 (if img.isEmpty then 0 else slotGen s rec_) ++ zeros 8

/-- A tail record: the header, then the references of the two images, laid out as page references (assumption 7).
03_sequences.md R52, 02_pages.md R36. -/
def recordBytes (s : State) (x : TailImage) : List Byte :=
  let ref := fun lpn => PageRef.bytes ⟨lpn, slotGen s lpn, fld false x.header 28 4, 0, 0⟩
  takeBytes x.header 0 64 ++ ref x.key ++ ref x.value ++ zeros 32

/-! ## What stands where -/

/-- A record that holds words of memory. -/
inductive MemRec where
  | core (i : Nat)
  | entry (k i : Nat)
  | region (i : Nat)
  | row (h cls bucket j : Nat)
  | line (h index : Nat)
  | conn (i : Nat)
  | cmd (k i : Nat)
  /-- two instruction words of the program store -/
  | code (n : Nat)
  | root (k i pair : Nat)
  /-- two entries of a chunk directory -/
  | chunkPair (k i pair j : Nat)
  | ref (k i pair j : Nat)
  | tailRec (key : TailKey)
  /-- two entries of a tail directory -/
  | tdirPair (i j : Nat)
  /-- a word of a delta share -/
  | share (lpn j : Nat)
  deriving DecidableEq, Repr

/-- A command slot that holds nothing. 07_dill.md R144. -/
def freeCmd : CmdSlot := ⟨0, 0, 0, .free, 0, 0, 0, 0, 0, 0, 0, [], [], [], 0⟩

/-- The row of an entry of a bucket. 09_chive.md R210. -/
def bucketRow (s : State) (h cls b j : Nat) : Option ChiveRow :=
  (((otRows s h cls).filter fun p => decide (p.1 = b))[j]?).map (·.2)

/-- The directory entry at a place of a hub's directory. 12_ledger.md R273. -/
def lineAt (s : State) (h index : Nat) : Option ((Nat × Nat) × DirEntry) :=
  s.ledg.dir.find? fun p => decide (p.1.1 = h) && decide (p.2.index = index)

/-- The delta share at an lpn: the index entries of the pages its slice holds, each the offset of its block from the share's
start and its coded length, then the blocks, in the order of the stream. 03_sequences.md R67, R68; the order within a share
is a DESIGN CHOICE (assumption 7). -/
def shareBytes (s : State) (lpn : Nat) : List Byte :=
  match s.seqs.entries.find? fun x => decide (x.2.delta = lpn) && decide (x.2.deltaGen ≠ 0) with
  | none => []
  | some ((k, i), _) =>
    match (descOf s i).bind fun d => aget s.seqs.bindings d.binding with
    | none => []
    | some b =>
      let mine := b.blocks.filter fun x => decide (x.slice = k)
      let index := mine.foldl (fun (acc : Nat × List Byte) x =>
        (acc.1 + x.bytes.length, acc.2 ++ leBytes 4 acc.1 ++ leBytes 4 x.bytes.length)) (8 * mine.length, [])
      index.2 ++ mine.flatMap (·.bytes)

/-- The bytes of a record. -/
def MemRec.bytes (s : State) : MemRec → List Byte
  | .core i => ((descOf s i).map Desc.core).getD (freeCore (descGenOf s i))
  | .entry k i => SeqEntry.bytes (agetD s.seqs.entries (k, i) ⟨0, 0, 0, 0⟩)
  | .region i => ((aget s.regn.regions i).map Region.bytes).getD (zeros 64)
  | .row h cls b j => ((bucketRow s h cls b j).map rowBytes).getD (zeros 32)
  | .line h index => ((lineAt s h index).map fun p => p.2.bytes).getD (zeros 128)
  | .conn i => ((aget s.fab.conns i).map (connBytes s i)).getD (zeros 256)
  | .cmd k i => CmdSlot.bytes (agetD ((aget s.dill.eng k).map (·.slots)).toList.flatten i freeCmd)
  | .code n => leBytes 8 (agetD s.dill.store (2 * n) 0) ++ leBytes 8 (agetD s.dill.store (2 * n + 1) 0)
  | .root k i pair => ((descOf s i).map (rootBytes s k i pair)).getD (zeros 32)
  | .chunkPair k i pair j =>
    let e := fun n => match (rootOf s k i pair).chunks[n]? with
      | some l => leBytes 4 l ++ leBytes 4 (slotGen s l)
      | none => zeros 8
    e (2 * j) ++ e (2 * j + 1)
  | .ref k i pair j => (((rootOf s k i pair).refs[j]?).map PageRef.bytes).getD (zeros 16)
  | .tailRec key => ((aget s.seqs.images key).map (recordBytes s)).getD (zeros 128)
  | .tdirPair i j =>
    let e := fun n => TailDir.bytes (agetD s.seqs.tdirs (i, n) ⟨0, false, 0, 0⟩)
    e (2 * j) ++ e (2 * j + 1)
  | .share lpn j => takeBytes (shareBytes s lpn) (16 * j) 16

/-- Changes a region. -/
def putRegion (s : State) (i : Nat) (b : List Byte) : State :=
  modRegn s fun x => { x with regions := aset x.regions i (((aget x.regions i).getD default).ofBytes b), fresh := max x.fresh (i + 1) }

/-- A record takes the bytes a window writes. Records that only their own units write, and those at which nothing is held,
stay as they are (assumption 7). -/
def MemRec.put (s : State) (b : List Byte) : MemRec → State
  | .core i => modSeqs s fun q => { q with descs := amod q.descs i fun d => d.ofCore b }
  | .entry k i => modSeqs s fun q => { q with entries := aset q.entries (k, i) (SeqEntry.ofBytes b) }
  | .region i => putRegion s i b
  | .row h cls n j =>
    let rows := otRows s h cls
    let old := bucketRow s h cls n j
    match old, rowParse b with
    | some r, some x => setOt s h cls (rows.map fun p => if p = (n, r) then (n, x) else p)
    | some r, none => setOt s h cls (rows.erase (n, r))
    | none, some x => setOt s h cls (rows ++ [(n, x)])
    | none, none => s
  | .line h index =>
    match lineAt s h index with
    | some (k, e) => modLedg s fun x => { x with dir := aset x.dir k (e.ofBytes b) }
    | none => s
  | .conn i => modFab s fun x => { x with conns := amod x.conns i fun c => connOfBytes c b }
  | .ref k i pair j => setRoot s k i pair
      { rootOf s k i pair with refs := (rootOf s k i pair).refs.zipIdx.map fun (r, n) => if n = j then PageRef.ofBytes b else r }
  | .tdirPair i j => modSeqs s fun q =>
      { q with tdirs := aset (aset q.tdirs (i, 2 * j) (TailDir.ofBytes b)) (i, 2 * j + 1) (TailDir.ofBytes (b.drop 8)) }
  | .cmd _ _ => s
  | .code _ => s
  | .root _ _ _ => s
  | .chunkPair _ _ _ _ => s
  | .tailRec _ => s
  | .share _ _ => s

/-- Stack offset of a structure in the lower (0) or upper (1) device extent of a slice. 06_append.md R134. -/
def placeBase (s : State) (what die ext : Nat) : Nat :=
  2 ^ 30 * (extentCount s - 2 + ext) + Config.placeOf what die * 16 % 2 ^ 30

/-- A word of an array of records at a base: the record's number and the word's offset in it. -/
def inArray (off base size count : Nat) : Option (Nat × Nat) :=
  if base ≤ off ∧ off < base + size * count then some ((off - base) / size, (off - base) % size) else none

/-- The device structure a word of a device extent belongs to, with the word's offset in the record. The region table and
the overflow tables lie in the upper extent, the directory and the arena in the lower. 06_append.md R134. -/
def devicePlace (s : State) (k off : Nat) : Option (MemRec × Nat) :=
  let q := k / 4
  let cores := (inArray off (placeBase s 0 k 0) 512 32768).map fun (n, o) => (MemRec.core (32 * n + k), o)
  let entries := (inArray off (placeBase s 1 k 0) 16 1048576).map fun (n, o) => (MemRec.entry k n, o)
  let regions := (inArray off (placeBase s 2 k 1) 64 32768).map fun (n, o) => (MemRec.region (32 * n + k), o)
  let lines := if k % 4 < 2 then (inArray off (placeBase s 3 k 0) 128 1048576).map fun (n, o) => (MemRec.line q n, o) else none
  let arena := if 2 ≤ k % 4 then (inArray off (placeBase s 4 k 0) 256 524288).bind fun (n, o) =>
      (s.fab.conns.find? fun p => decide (p.2.hub = q) && decide (p.2.slot = n) && ! p.2.onChip).map fun p => (MemRec.conn p.1, o)
    else none
  let tables := if k % 4 < 2 then (List.range 5).findSome? fun c =>
      (inArray off (placeBase s (11 + c) k 1) 32 (8 * otBuckets s q (c + 1))).map fun (n, o) => (MemRec.row q (c + 1) (n / 8) (n % 8), o)
    else none
  cores <|> entries <|> regions <|> lines <|> arena <|> tables

/-- The structure in a slot of page space a word belongs to, at an offset in the slot. 03_sequences.md R52, R53, R68,
06_append.md R125. -/
def slotPlace (s : State) (lpn : Nat) (u : SlotUse) (rel : Nat) : Option (MemRec × Nat) :=
  let rootWith := fun (p : Root → Bool) => s.seqs.roots.find? fun x => p x.2
  match u.kind with
  | .frag => (s.seqs.entries.find? fun x => decide (x.2.frag = lpn) && decide (x.2.fragGen ≠ 0)).map fun x =>
      (.root x.1.1 x.1.2 (rel / 32), rel % 32)
  | .chunkDir => (rootWith fun r => decide (r.chunkDir = lpn) && ! r.chunks.isEmpty).map fun x => (.chunkPair x.1.1 x.1.2.1 x.1.2.2 (rel / 16), rel % 16)
  | .chunk => (rootWith fun r => r.chunks.contains lpn).map fun x =>
      (.ref x.1.1 x.1.2.1 x.1.2.2 (256 * x.2.chunks.idxOf lpn + rel / 16), rel % 16)
  | .tailRecord => if rel < 128 then (s.seqs.images.find? fun x => decide (x.2.record = lpn)).map fun x => (.tailRec x.1, rel) else none
  | .tailDir => (s.seqs.tdirSlots.find? fun x => x.2.contains lpn).map fun x => (.tdirPair x.1 (rel / 16), rel % 16)
  | .delta => some (.share lpn (rel / 16), rel % 16)
  | .page => none
  | .image => none
  | .buffer => none

/-- The record that the word at a node address belongs to, and the word's offset in it. 08_memory.md R197, R198. -/
def placeAt (s : State) (a : Nat) : Option (MemRec × Nat) :=
  let die := a / 2 ^ 42
  let off := a % 2 ^ 42
  if 32 ≤ die then none
  else if 2 * sramOff ≤ off then some (.code ((off - 2 * sramOff) / 16), 0)
  else if sramOff ≤ off then
    (inArray (off - sramOff) (Config.placeOf 5 0 * 16 % 0x1000000) 256 64).map fun (n, o) => (.cmd die n, o)
  else if 2 ^ 30 * (extentCount s - 2) ≤ off then devicePlace s die off
  else (s.mem.slots.find? fun p => decide (homeAddr s p.1 ≤ a) && decide (a < homeAddr s p.1 + p.2.units * 4096)).bind fun p =>
    slotPlace s p.1 p.2 (a - homeAddr s p.1)

/-! ## Reading and writing what stands there -/

/-- The word at an address: of the record that holds it, else as given. -/
def wordThere (s : State) (a : Nat) (raw : List Byte) : List Byte :=
  match placeAt s a with
  | some (p, o) => takeBytes (p.bytes s) o 16
  | none => raw

/-- Whether a record stands in a range. -/
def recordIn (s : State) (a n : Nat) : Bool :=
  (List.range (ceilDiv (a % 16 + n) 16)).any fun i => (placeAt s (a / 16 * 16 + 16 * i)).isSome

/-- Reads bytes through the word code, the words of records as the records stand. -/
def view (s : State) (a n reader : Nat) : State × Option (List Byte) :=
  if ! recordIn s a n then load s a n reader
  else
  match load s (a / 16 * 16) (roundUp (a % 16 + n) 16) reader with
  | (s, none) => (s, none)
  | (s, some b) =>
    (s, some ((((List.range (b.length / 16)).flatMap fun i =>
      wordThere s (a / 16 * 16 + 16 * i) ((b.drop (16 * i)).take 16)).drop (a % 16)).take n))

/-- Writes bytes word by word in ascending address, the words of records into the records: how many were written, and whether
all were. 07_dill.md R166, R167. -/
def putView : Nat → State → Nat → List Byte → Nat → State × Nat × Bool
  | 0, s, _, _, _ => (s, 0, true)
  | n + 1, s, a, bs, reader =>
    if bs.isEmpty then (s, 0, true)
    else
      let lo := a / 16 * 16
      let k := min (lo + 16 - a) bs.length
      let one : State × Bool :=
        match placeAt s lo with
        | some (p, o) =>
          let old := p.bytes s
          let at_ := o + (a - lo)
          (p.put s (old.take at_ ++ bs.take k ++ old.drop (at_ + k)), true)
        | none => match store s a (bs.take k) reader with
          | (s, _, ok) => (s, ok)
      match one with
      | (s, false) => (s, 0, false)
      | (s, true) =>
        match putView n s (a + k) (bs.drop k) reader with
        | (s, c, ok) => (s, c + k, ok)

/-- Writes whole words, the words of records into the records. -/
def putBytes (s : State) (a : Nat) (bs : List Byte) : State :=
  if recordIn s a bs.length then (putView (bs.length / 16 + 2) s a bs readPool).1 else poke s a bs

end Sys2Proof.Machine
end

