-- ==== Sys2Proof/Machine/Fences.lean ====
section
/-!
DEFINITION. Fenced snapshots, with the answers of reads and the region entries they leave: the fence, the copy, the writers
that wait for it. 07_dill.md R169, R171; 11_remote_access.md R256, R257, R261.
-/
namespace Sys2Proof.Machine

/-! ## Answers of accesses -/

/-- A 16-byte access response. 11_remote_access.md R256. -/
def accResp (be : Bool) (st : Status) (key count : Nat) : List Byte :=
  put be 1 1 ++ put be 1 st.code ++ put be 2 0 ++ put be 4 key ++ put be 8 count

/-- A region-table entry. 11_remote_access.md R250. -/
def regionOf (s : State) (i : Nat) : Option Region := aget s.regn.regions i

/-- Changes an entry. -/
def modRegion (s : State) (i : Nat) (f : Region → Region) : State :=
  modRegn s fun x => { x with regions := amod x.regions i f }

/-- Counters of refusals by keys. 11_remote_access.md R267. -/
def countRefusal (s : State) (hub : Nat) : Status → State
  | .keyStale => bump s .region_KEY_STALE_SEEN hub
  | .keyRevoked => bump s .region_KEY_REVOKED_SEEN hub
  | .pdMismatch => bump s .region_PD_REFUSED hub
  | _ => s

/-- A message's answer to a READ or SNAPSHOT. -/
def answerRead (s : State) (id : Nat) (st : Status) (key : Nat) (data : List Byte) : State :=
  match msgOf s id with
  | none => s
  | some m =>
    let s := if st = .ok then bump s .region_READS m.hub else countRefusal s m.hub st
    answer s id .readResp st 0 (accResp m.be st key (if st = .ok then data.length else 0) ++ if st = .ok then data else [])

/-- The region key a snapshot's message names. -/
def msgRegionKey (m : Msg) : Nat :=
  if m.opcode = .snapshot then m.arg0 % 2 ^ 32 else m.heldPos

/-- One access leaves a region's inflight. 11_remote_access.md R257. -/
def leaveRegion (s : State) (i : Nat) : State := modRegion s i fun r => { r with inflight := r.inflight - 1 }

/-! ## Fences -/

/-- Whether two ranges overlap. -/
def overlap (a n b m : Nat) : Bool := decide (a < b + m) && decide (b < a + n)

/-- Node address of a snapshot's range: a page-space range follows its live copy. 06_append.md R136. -/
def snapAddr (s : State) (x : Snapshot) : Nat :=
  match x.lpn with
  | some l => liveAddr s l + x.base
  | none => x.base

/-- Whether a command may write inside a range of its slice. -/
def writesOver (k a n : Nat) (c : CmdSlot) : Bool :=
  c.windows.any fun w => decide (w.kind = 1) && w.write && overlap (dieBase k + w.base) w.len a n

/-- Whether a lane segment that is running may write inside a range of its slice. 07_dill.md R169 step 2. -/
def laneWriting (s : State) (k a n : Nat) : Bool :=
  match aget s.dill.eng k with
  | some d => d.segment && (d.cur.bind (aget d.slots)).any (writesOver k a n)
  | none => false

/-- Whether an issuer finds a FREE command slot in a slice. 07_dill.md R144, R146. -/
def slotFree (s : State) (k : Nat) : Bool :=
  match aget s.dill.eng k with
  | some d => (List.range 64).any fun i => decide ((agetD d.slots i freeCmd).state = .free)
  | none => true

/-- Local time of the hub of a die. -/
def dieNow (s : State) (die : Nat) : Nat := now s (dieHub s die)

/-- A snapshot leaves; the one of its die that has waited longest is fenced in its place. 07_dill.md R169. -/
def dropSnap (s : State) (snap : Nat) (x : Snapshot) : State :=
  let s := modDill s fun d => { d with snaps := adel d.snaps snap }
  match s.dill.snaps.find? fun p => decide (p.2.slice = x.slice) && ! p.2.raised with
  | some p => modDill s fun d => { d with snaps := aset d.snaps p.1 { p.2 with raised := true } }
  | none => s

/-- Answers a snapshot with what was read or the status it ends with; the access leaves its region. -/
def answerSnap (s : State) (x : Snapshot) (got : Except Status (List Byte)) : State :=
  let s := leaveRegion s x.region
  match msgOf s x.msg with
  | none => s
  | some m =>
    match got with
    | .ok b => answerRead s x.msg .ok (msgRegionKey m) b
    | .error st => answerRead s x.msg st (msgRegionKey m) []

/-- Copies a fenced range, lowers the fence and answers (R169 steps 3 to 5). The wait since the fence was asked for is
measured (R171). -/
def snapshotCopy (s : State) (snap : Nat) : State :=
  match aget s.dill.snaps snap with
  | none => s
  | some x =>
    if ! x.raised then s
    else
      let (s, got) := view s (snapAddr s x) x.len readPool
      let s := dropSnap s snap x
      let s := if x.slice < 32 then
          rmax (bump s .dill_SNAPSHOTS x.slice) .dill_snapshot_wait_max_ns x.slice (dieNow s x.slice - x.since)
        else s
      answerSnap s x (match got with
        | some b => .ok b
        | none => .error .uncorrectable)

/-- A writer that would start inside a raised fence waits until the range is copied (R169 step 1): the snapshots it
overlaps complete first. -/
def lowerFences (s : State) (a n : Nat) : State :=
  (s.dill.snaps.filter fun p => p.2.raised && overlap a n (snapAddr s p.2) p.2.len).foldl (fun s p => snapshotCopy s p.1) s

/-- Raises the fence of a snapshot, or lets it wait when four of its die are fenced (R169). -/
def raiseFence (s : State) (die : Nat) (lpn : Option Nat) (base len msg region : Nat) : State :=
  let n := (s.dill.snaps.filter fun p => decide (p.2.slice = die) && p.2.raised).length
  let (id, s) := newId s
  modDill s fun d => { d with snaps := aset d.snaps id ⟨die, lpn, base, len, msg, region, decide (n < 4), dieNow s die⟩ }

/-- Writes whole words once no fence stands in the way. 07_dill.md R166, R169. -/
def putWords (s : State) (a : Nat) (bs : List Byte) : State := poke (lowerFences s a bs.length) a bs

/-! ## Slots -/

/-- Generation that the header of a free unit holds; one whose header cannot be read holds a free value: 08_memory.md R181
gives no data for it, and the spec states no generation for the page placed there (DESIGN CHOICE, assumption 158).
02_pages.md R32. -/
def loadGen (s : State) (lpn : Nat) : State × Nat :=
  match load s (homeAddr s lpn + 16) 16 readUnit with
  | (s, some b) => (s, fld false b 4 4)
  | (s, none) => ((fresh s).2, (fresh s).1 % 2 ^ 32)

/-- Free slot bases inside a place of n units with the generations they hold; they come back when the place is free again.
02_pages.md R32. -/
def innerGens (s : State) (lpn n : Nat) : State × List (Nat × Nat) :=
  (List.range (n - 1)).foldl (fun (acc : State × List (Nat × Nat)) i =>
    match loadGen acc.1 (lpn + i + 1) with
    | (s, g) => (s, if g = 0 then acc.2 else acc.2 ++ [(i + 1, g)])) (s, [])

/-- Places a slot for a tenant in a slice: the lowest place in the tenant's extents, scrubbed once no fence stands in the
way, with the slot's next generation. 02_pages.md R32, 06_append.md R129, 07_dill.md R169. -/
def placeSlot (s : State) (k tenant units : Nat) (kind : SlotKind) : Option (State × Nat) :=
  (findSlot s k (tenantExtents s k tenant) units).map fun lpn =>
    let s := lowerFences s (homeAddr s lpn) (units * 4096)
    let (s, old) := loadGen s lpn
    let (s, inner) := innerGens s lpn units
    let s := scrub s (homeAddr s lpn) (units * 4096)
    (modMem s fun m => { m with slots := aset m.slots lpn ⟨units, tenant, kind, nextGen old⟩,
                                under := if inner.isEmpty then adel m.under lpn else aset m.under lpn inner }, lpn)

/-- Takes a slot under the tenant's page-slot quota. 06_append.md R138. -/
def allocSlot (s : State) (k tenant units : Nat) (kind : SlotKind) : Option (State × Nat) :=
  if slotQuotaOk s tenant units then placeSlot s k tenant units kind else none

/-- Frees a slot once no fence stands in the way of its scrub. 03_sequences.md R60, 07_dill.md R169. -/
def freeSlot (s : State) (lpn : Nat) : State :=
  clearSlot (lowerFences s (homeAddr s lpn) (((aget s.mem.slots lpn).map (·.units)).getD 0 * 4096)) lpn

end Sys2Proof.Machine
end

