-- ==== Sys2Proof/Machine/Lanes.lean ====
section
/-!
DEFINITION. The scheduler of a slice's lane engine: its command slots, the throttle level, what holds the lanes back, which
command runs next, the start and the end of a segment. 07_dill.md R142 to R147, R159 to R161; 08_memory.md R189, R190.
-/
namespace Sys2Proof.Machine

/-! ## Sequencers -/

/-- A lane at the start of a command (assumption 33). -/
def lane0 : Lane := ⟨[], [], [], 0#32, [], [], [], [], 0#32, true, []⟩

/-- A sequencer with nothing to do. R142. -/
def dill0 : Dill := ⟨[], none, 0, [], [], [], false, none, 0, none, 0, false, 0, 0⟩

/-- The sequencer of a slice. -/
def dillOf (s : State) (k : Nat) : Dill := agetD s.dill.eng k dill0

/-- Changes the sequencer of a slice. -/
def modEng (s : State) (k : Nat) (f : Dill → Dill) : State :=
  modDill s fun d => { d with eng := aset d.eng k (f (agetD d.eng k dill0)) }

/-- A command slot. -/
def cmdOf (d : Dill) (i : Nat) : CmdSlot := agetD d.slots i freeCmd

/-- Changes a command slot. -/
def modCmd (s : State) (k i : Nat) (f : CmdSlot → CmdSlot) : State :=
  modEng s k fun d => { d with slots := aset d.slots i (f (cmdOf d i)) }

/-- The stack controller of a slice. -/
def stackSt (s : State) (k : Nat) : Stack := agetD s.mem.stackCtl k ⟨0, 0, [], [], [], false⟩

/-- Changes the stack controller of a slice. -/
def modStack (s : State) (k : Nat) (f : Stack → Stack) : State :=
  modMem s fun m => { m with stackCtl := aset m.stackCtl k (f (stackSt s k)) }

/-! ## Throttle level (08_memory.md R189, R190) -/

/-- A register value as an integer. -/
def rgi (s : State) (r : Reg) : Int := (rg s r : Int)

/-- Thermal level of a reading in whole °C. 08_memory.md R190. -/
def thermalLevel (limit t : Int) : Nat := if t < limit then 0 else min 7 (1 + (t - limit).toNat)

/-- A die's hottest sensor reading. -/
def hottest (s : State) (d : Nat) : Int := (dieHealth s d).temps.foldl max ((dieHealth s d).temps.headD 0)

/-- Thermal level of a slice from its hottest sensor and the limit as it stands. 08_memory.md R190. -/
def thermalDue (s : State) (k : Nat) : Nat := thermalLevel (rgi s .mem_throttle_temp) (hottest s k)

/-- The level R190 gives a slice: the largest of its four. -/
def dueLevel (s : State) (k : Nat) : Nat :=
  let th := if (stackSt s k).crit then 8 else thermalDue s k
  let pin := if s.power.throttle then rget s .mem_pin_level k 0 else 0
  min 8 (max (max th s.mem.powerLvl) (max pin (rget s .mem_min_level k 0)))

/-- The level in force at a slice. R189. -/
def levelOf (s : State) (k : Nat) : Nat := agetD s.mem.level k 0

/-- The level a slice is due takes force, at a yield point only. R160, R189. -/
def settleLevel (s : State) (k : Nat) : State :=
  let n := dueLevel s k
  if (dillOf s k).segment ∨ n = levelOf s k then s
  else
    let s := modMem s fun m => { m with level := aset m.level k n }
    bump s .mem_THROTTLE_CHANGES k

/-- Every slice's level takes force where a yield point allows. -/
def settleLevels (s : State) : State := (List.range 32).foldl settleLevel s

/-- Banks whose forced RETAIN waited for the segment's yield. 08_memory.md R193. -/
def settleBanks (s : State) (k : Nat) : State :=
  let due := s.mem.banks.filter fun p => decide (p.1.1 = k) && p.2.retainDue
  due.foldl (fun s p => modBank s k p.1.2 fun b => { b with state := .retain, retainDue := false }) s

/-! ## The scheduler (R146, R147, R159 to R161) -/

/-- Resident commands: RUNNING or YIELDED on the lane engine. R147. -/
def residents (d : Dill) : Nat :=
  (d.slots.filter fun p => decide (p.2.kind = 0) && (decide (p.2.state = .running) || decide (p.2.state = .yielded))).length

/-- Whether a raised fence of the slice overlaps a write window of a command. R169 step 1. -/
def fencedCmd (s : State) (k : Nat) (c : CmdSlot) : Bool :=
  s.dill.snaps.any fun p => p.2.raised && decide (p.2.slice = k) && writesOver k (snapAddr s p.2) p.2.len c

/-- Whether postponed refreshes wait for the lane engine's yield and the pool engine's chunk boundary. R161. -/
def catchUpDue (s : State) (k : Nat) : Bool := ! (stackSt s k).postponed.isEmpty && ! (dillOf s k).segment

/-- What keeps the lane engine from starting a segment: lane_en, the throttle pause, level 8, the catch-up, a stack
that retrains. R159 to R161, R171; 08_memory.md R189; 16_lifecycle.md R389. -/
def laneHeld (s : State) (k : Nat) : Bool :=
  decide (rget s .dill_lane_en k 0 = 0) || (dillOf s k).pause.isSome || decide (8 ≤ levelOf s k) || catchUpDue s k ||
    decide ((sliceSt s k).st = 1)

/-- Whether the lane engine may take a command; a slice that is being activated leaves its queue. R147, 16_lifecycle.md
R388. -/
def laneReady (s : State) (k : Nat) (d : Dill) (p : Nat × CmdSlot) : Bool :=
  decide (p.2.kind = 0) && ! fencedCmd s k p.2 &&
    (decide (p.2.state = .yielded) || (decide (p.2.state = .running) && decide (d.cur = some p.1)) ||
      (decide (p.2.state = .queued) && decide (residents d < 4) && (aget s.life.moving k).isNone))

/-- The command that has waited longest. R147. -/
def longest (l : List (Nat × CmdSlot)) : Option Nat := ((sortBy (fun p => p.2.since) l).head?).map (·.1)

/-- The command the lane engine takes. R147: highest class, longest wait; background once in 16. -/
def pickLane (s : State) (k : Nat) : Option Nat :=
  let d := dillOf s k
  let r := d.slots.filter (laneReady s k d)
  let ofCls := fun n => longest (r.filter fun p => decide (p.2.cls = n))
  if 15 ≤ d.sinceBg ∧ (ofCls 2).isSome then ofCls 2 else ofCls 0 <|> ofCls 1 <|> ofCls 2

/-- The lane engine takes a command: it saves the yielding one, restores or starts the chosen one, and its segment
begins. R146, R159. -/
def takeLane (s : State) (k i : Nat) : State :=
  let d := dillOf s k
  let bg := d.slots.any fun p => laneReady s k d p && decide (p.2.cls = 2)
  let c := cmdOf d i
  let s :=
    match d.cur with
    | some j =>
      if j = i then s
      else
        let s := modCmd s k j fun c => { c with state := .yielded }
        let s := modEng s k fun x => { x with saved := aset x.saved j ⟨d.pc, d.loops, d.lanes⟩ }
        bump s .dill_SWITCHES k
    | none => s
  let s :=
    if d.cur = some i then s
    else
      match aget d.saved i with
      | some x => modEng s k fun e =>
          { e with pc := x.pc, loops := x.loops, lanes := x.lanes, saved := adel e.saved i }
      | none => modEng s k fun e =>
          { e with pc := 0, loops := [],
                   lanes := (List.range 16).map fun n => (n, { lane0 with active := bit1 c.laneMask n }) }
  let s := modCmd s k i fun c => { c with state := .running }
  modEng s k fun e =>
    { e with cur := some i, segment := true, segAt := dieNow s k,
             sinceBg := if c.cls = 2 ∨ ! bg then 0 else e.sinceBg + 1 }

/-- At a level n of 1 to 7 the lane engine follows a segment of t ns with a pause of t × n / (8 − n). 08_memory.md R189. -/
def pauseAfter (s : State) (k n t : Nat) : State :=
  modEng s k fun d => { d with pause := if 1 ≤ n ∧ n ≤ 7 then some (dieNow s k + t * n / (8 - n)) else none }

/-- The segment of the running command ends: it is counted and measured, what waited for a yield takes force, and at a
level of 1 to 7 a pause follows it. R160, R171, 08_memory.md R189. -/
def endSegment (s : State) (k i : Nat) : State :=
  let t := (dillOf s k).clock + 1
  let from_ := (dillOf s k).segAt
  let s := rmax s .dill_longest_segment_ns k (dieNow s k - from_)
  let s := modEng s k fun d => { d with segment := false, clock := t }
  let s := modCmd s k i fun c => { c with segments := satAdd c.segments 1, since := t }
  let s := settleBanks (settleLevel (bump s .dill_SEGMENTS k) k) k
  let n := levelOf s k
  pauseAfter s k n (dieNow s k - from_)

/-- The lowest FREE command slot of a slice. 07_dill.md R144, R146. -/
def freeCmdSlot (s : State) (k : Nat) : Option Nat :=
  (List.range 64).find? fun i => decide ((cmdOf (dillOf s k) i).state = .free)

/-- An issuer fills a FREE slot: the command is QUEUED. 07_dill.md R144, R146. -/
def fillSlot (s : State) (k i : Nat) (c : CmdSlot) : State :=
  modEng s k fun d => { d with slots := aset d.slots i { c with state := .queued, since := d.clock + 1 }, clock := d.clock + 1 }

/-- Whether the lane engine takes a command that comes now at once: a slot is FREE, no segment runs, nothing holds the lanes
back and no command is ready before it. 07_dill.md R142, R146, R147. -/
def laneIdle (s : State) (k : Nat) : Bool :=
  slotFree s k && ! (dillOf s k).segment && ! laneHeld s k && (pickLane s k).isNone && (aget s.life.moving k).isNone

end Sys2Proof.Machine
end

