-- ==== Sys2Proof/Machine/Operands.lean ====
section
/-!
DEFINITION. The operand layouts: request and response payloads of every opcode, in wire order when `be` is true and in
device order otherwise (00_scope.md R7). Reserved fields are ignored on input (R8) but where a rule refuses them.
-/
namespace Sys2Proof.Machine

/-! ## ATTEND (04_attend.md R70, R71) -/

/-- An ATTEND header. 04_attend.md R70. -/
structure Att where
  ver     : Nat
  fp16    : Bool
  out32   : Bool
  arrival : Bool
  noAnch  : Bool
  slopes  : Bool
  expQpos : Bool
  mode    : Nat
  group   : Nat
  handle  : Nat
  gen     : Nat
  layer   : Nat
  kvFirst : Nat
  kvCount : Nat
  blocks  : Nat
  scale   : F32
  cap     : F32
  slope   : F32
  param   : Nat
  window  : Nat
  qpos    : Nat
  tag     : Nat
  contribs : Nat
  point   : Nat
  deadline : Nat
  deriving DecidableEq, Repr, Inhabited

/-- Parses an ATTEND header. -/
def Att.parse (be : Bool) (b : List Byte) : Att :=
  let f := fun o n => fld be b o n
  { ver := f 0 1 % 16, fp16 := bit1 (f 1 1) 0, out32 := bit1 (f 1 1) 1, arrival := bit1 (f 1 1) 2,
    noAnch := bit1 (f 1 1) 3, slopes := bit1 (f 1 1) 4, expQpos := bit1 (f 1 1) 5, mode := f 2 1 % 4, group := f 3 1,
    handle := f 4 8, gen := f 12 4, layer := f 16 2, kvFirst := f 18 2, kvCount := f 20 2, blocks := f 22 1,
    scale := BitVec.ofNat 32 (f 24 4), cap := BitVec.ofNat 32 (f 28 4), slope := BitVec.ofNat 32 (f 32 4), param := f 36 4,
    window := f 40 4 % 2 ^ 24, qpos := f 44 4 % 2 ^ 24, tag := f 48 4, contribs := f 52 2, point := f 56 4 % 2 ^ 24,
    deadline := f 60 4 }

/-- Query heads of a request: H · G. -/
def Att.heads (a : Att) : Nat := a.kvCount * a.group

/-- Offset of the slopes and of the queries. R71. -/
def Att.slopeOff (a : Att) : Nat := 64 + 8 * a.blocks
def Att.queryOff (a : Att) : Nat := a.slopeOff + if a.slopes then 4 * a.heads else 0

/-- Payload length of R71 for D channels. -/
def Att.payloadLen (a : Att) (d : Nat) : Nat := a.queryOff + 2 * a.heads * d

/-- Block-list entries: start and length. R71. -/
def Att.blockList (be : Bool) (a : Att) (b : List Byte) : List (Nat × Nat) :=
  (List.range a.blocks).map fun i => (fld be b (64 + 8 * i) 4 % 2 ^ 24, fld be b (68 + 8 * i) 4)

/-- Whether a block list keeps R71: sorted, disjoint, lengths and ends in range. -/
def blocksOk : List (Nat × Nat) → Bool
  | [] => true
  | [(s, l)] => decide (1 ≤ l) && decide (s + l ≤ 16777216)
  | (s, l) :: (t, m) :: r => decide (1 ≤ l) && decide (s + l ≤ t) && decide (s + l ≤ 16777216) && blocksOk ((t, m) :: r)

/-- Slope of query head h. R71. -/
def Att.slopeOf (be : Bool) (a : Att) (b : List Byte) (h : Nat) : F32 :=
  if a.slopes then BitVec.ofNat 32 (fld be b (a.slopeOff + 4 * h) 4) else a.slope

/-- A query value after the replacement of R78: FP32, and whether it was replaced. -/
def queryVal (fp16In : Bool) (v : Nat) : F32 × Bool :=
  if fp16In then
    if fp16.isNan v then (0#32, true)
    else if fp16.isInf v then (f32OfFp16 (v / 0x8000 * 0x8000 + 0x7BFF), true)
    else (f32OfFp16 v, false)
  else
    if bf16.isNan v then (0#32, true)
    else if bf16.isInf v then (f32OfBf16 (v / 0x8000 * 0x8000 + 0x7F7F), true)
    else (f32OfBf16 v, false)

/-- Query values of head h with their replacements. R71, R78. -/
def Att.queryOf (be : Bool) (a : Att) (b : List Byte) (d h : Nat) : List (F32 × Bool) :=
  (List.range d).map fun i => queryVal a.fp16 (fld be b (a.queryOff + 2 * (h * d + i)) 2)

/-- Header of an ATTEND response. 04_attend.md R92. -/
def attHead (be : Bool) (st : Status) (count failKv failPos : Nat) : List Byte :=
  put be 1 1 ++ put be 1 st.code ++ put be 2 count ++ put be 2 failKv ++ put be 2 0 ++ put be 4 (failPos % 2 ^ 24) ++
    put be 4 0

/-- A contributor section: expected, and entries of endpoint, status and bitmap. 05_merge.md R110. -/
def contribSection (be : Bool) (expected : Nat) (es : List (Nat × Status × Nat)) : List Byte :=
  put be 2 es.length ++ put be 2 expected ++ put be 4 0 ++
    es.flatMap fun (ep, st, map) => put be 4 (ep % 2 ^ 24 + st.code * 2 ^ 24) ++ put be 4 map

/-- OK or OK_BOUNDED of records. R92. -/
def recsStatus (rs : List Rec) : Status := if rs.any fun r => decide (0 < r.skipped) then .okBounded else .ok

/-! ## PARTIAL (05_merge.md R112) -/

/-- The 40-byte header of a contribution. 05_merge.md R112. -/
structure PartHdr where
  ver      : Nat
  status   : Nat
  count    : Nat
  tag      : Nat
  contribs : Nat
  tenant   : Nat
  requester : Nat
  deadline : Nat
  bitmap   : Nat
  out32    : Bool
  arrival  : Bool
  dCode    : Nat
  failKv   : Nat
  failPos  : Nat
  pd       : Nat
  deriving DecidableEq, Repr, Inhabited

/-- Parses a contribution's header. -/
def PartHdr.parse (be : Bool) (b : List Byte) : PartHdr :=
  let f := fun o n => fld be b o n
  { ver := f 0 1 % 16, status := f 1 1, count := f 2 2, tag := f 4 4, contribs := f 8 2, tenant := f 10 2,
    requester := f 12 4 % 2 ^ 24, deadline := f 16 4, bitmap := f 20 4, out32 := bit1 (f 24 1) 0,
    arrival := bit1 (f 24 1) 1, dCode := f 25 1 % 8, failKv := f 26 2, failPos := f 28 4 % 2 ^ 24, pd := f 32 2 }

/-- Bytes of a contribution's header. -/
def PartHdr.bytes (be : Bool) (h : PartHdr) : List Byte :=
  put be 1 1 ++ put be 1 h.status ++ put be 2 h.count ++ put be 4 h.tag ++ put be 2 h.contribs ++ put be 2 h.tenant ++
    put be 4 h.requester ++ put be 4 h.deadline ++ put be 4 h.bitmap ++ put be 1 (b2n h.out32 + 2 * b2n h.arrival) ++
    put be 1 h.dCode ++ put be 2 h.failKv ++ put be 4 h.failPos ++ put be 2 h.pd ++ zeros 6

/-- Payload of a PARTIAL response. 05_merge.md R114. -/
def partResp (be : Bool) (st : Status) : List Byte := put be 1 1 ++ put be 1 st.code ++ zeros 14

/-! ## APPEND, BULK_APPEND, SEAL (06_append.md R120 to R122, R140) -/

/-- An APPEND header with its form fields. 06_append.md R120, R121. -/
structure App where
  ver     : Nat
  form    : Nat
  keyed   : Bool
  layer   : Nat
  handle  : Nat
  gen     : Nat
  pos     : Nat
  kvFirst : Nat
  kvCount : Nat
  tokens  : Nat
  layerCount : Nat
  /-- CREATE -/
  kf      : Nat
  vf      : Nat
  tCode   : Nat
  dCode   : Nat
  layers  : Nat
  kvHeads : Nat
  window  : Nat
  donor   : Nat
  donorGen : Nat
  /-- FORK and BIND: parent or base -/
  other   : Nat
  otherGen : Nat
  /-- PATTERN -/
  patWindow : Nat
  anchors : Nat
  /-- BIND -/
  regionKey : Nat
  regionOff : Nat
  deriving DecidableEq, Repr, Inhabited

/-- Parses an APPEND header. -/
def App.parse (be : Bool) (b : List Byte) : App :=
  let f := fun o n => fld be b o n
  { ver := f 0 1 % 16, form := f 1 1 % 16, keyed := bit1 (f 1 1) 4, layer := f 2 2, handle := f 4 8, gen := f 12 4,
    pos := f 16 4 % 2 ^ 24, kvFirst := f 20 2, kvCount := f 22 2, tokens := f 24 4, layerCount := f 28 2, kf := f 32 1,
    vf := f 33 1, tCode := f 34 1 % 4, dCode := f 34 1 / 4 % 8, layers := f 36 2, kvHeads := f 38 2,
    window := f 40 4 % 2 ^ 24, donor := f 48 8, donorGen := f 56 4, other := f 32 8, otherGen := f 40 4,
    patWindow := f 32 4 % 2 ^ 24, anchors := f 36 1 % 128, regionKey := f 44 4, regionOff := f 48 8 }

/-- The content keys of a key section of n pages. R122. -/
def App.keys (be : Bool) (b : List Byte) (n : Nat) : List Nat := (List.range n).map fun i => fld be b (64 + 8 * i) 8

/-- The anchor entries of PATTERN: start in [23:0], len_m1 in [31:24] (03_sequences.md R54). -/
def App.anchorList (be : Bool) (a : App) (b : List Byte) : List Anchor :=
  (List.range a.anchors).map fun i =>
    let v := fld be b (64 + 4 * i) 4
    ⟨v % 2 ^ 24, v / 2 ^ 24⟩

/-- Row of token t, KV head offset h: keys and values, from the row bytes; token-major or head-major. R122. -/
def App.row (a : App) (d : Nat) (bulk : Bool) (rows : List Byte) (t h : Nat) : List Byte × List Byte :=
  let n := if bulk then h * a.tokens + t else t * a.kvCount + h
  let r := takeBytes rows (n * 4 * d) (4 * d)
  (r.take (2 * d), r.drop (2 * d))

/-- Payload of an APPEND response. 06_append.md R140. -/
def appResp (be : Bool) (st : Status) (sealed length gen held : Nat) : List Byte :=
  put be 1 1 ++ put be 1 st.code ++ put be 2 (min sealed 65535) ++ put be 4 length ++ put be 4 gen ++
    put be 4 (held % 2 ^ 24)

/-! ## Ledger (12_ledger.md R275, R276, R278, R296) -/

/-- Payload of a LEDGER_READ. The pull flag of R293 is taken as bit 1 of offset 1. -/
def ledgerReadReq (be cache pull : Bool) (line : Nat) : List Byte :=
  put be 1 1 ++ put be 1 (b2n cache + 2 * b2n pull) ++ zeros 6 ++ put be 8 line

/-- Payload of a LEDGER_READ response. R275. -/
def ledgerReadResp (be : Bool) (st : Status) (lease version line : Nat) (content : List Byte) : List Byte :=
  put be 1 1 ++ put be 1 st.code ++ put be 2 lease ++ zeros 4 ++ put be 8 version ++ put be 8 line ++
    takeBytes content 0 64

/-- Payload of a LEDGER_PUBLISH. R276. -/
def ledgerPubReq (be : Bool) (line expected : Nat) (content : List Byte) : List Byte :=
  put be 1 1 ++ zeros 7 ++ put be 8 line ++ put be 8 expected ++ takeBytes content 0 64

/-- Payload of a LEDGER_PUBLISH response. R276. -/
def ledgerPubResp (be : Bool) (st : Status) (digest version line : Nat) : List Byte :=
  put be 1 1 ++ put be 1 st.code ++ zeros 2 ++ put be 4 digest ++ put be 8 version ++ put be 8 line

/-- Payload of RECALL and RECALL_ACK. R278. -/
def recallBytes (be : Bool) (line version : Nat) : List Byte := put be 1 1 ++ zeros 7 ++ put be 8 line ++ put be 8 version

/-- The 24-byte payload of a refusal with a hint: kinds 0 none, 1 HOLDER, 2 WRITER, 3 HOME, 4 TARGET. R296. -/
def hintBytes (be : Bool) (st : Status) (kind ep hub gen newest line : Nat) : List Byte :=
  put be 1 1 ++ put be 1 st.code ++ put be 1 kind ++ put be 1 0 ++ put be 4 (ep % 2 ^ 24 + hub * 2 ^ 24) ++ put be 4 gen ++
    put be 2 newest ++ put be 2 0 ++ put be 8 line

/-! ## HELLO, ACK (10_fabric.md R233, R238) -/

/-- A HELLO payload. 10_fabric.md R233. -/
structure Hello where
  ver     : Nat
  status  : Nat
  vers    : Nat
  isn     : Nat
  tenant  : Nat
  segCode : Nat
  credit  : Nat
  credLen : Nat
  cred    : List Byte
  deriving DecidableEq, Repr, Inhabited

/-- Parses a HELLO payload. -/
def Hello.parse (b : List Byte) : Hello :=
  let f := fun o n => fld true b o n
  { ver := f 0 1 % 16, status := f 1 1, vers := f 2 2, isn := f 4 4, tenant := f 8 2, segCode := f 10 1 % 16,
    credit := f 12 2, credLen := f 14 2, cred := takeBytes b 16 (f 14 2) }

/-- SACK blocks of an ACK payload. 10_fabric.md R238. -/
def sackParse (b : List Byte) : List (Nat × Nat) :=
  (List.range (min 8 (fld true b 1 1))).map fun i => (fld true b (4 + 8 * i) 4, fld true b (8 + 8 * i) 4)

/-! ## Command records (14_host.md R323, R324) -/

/-- A command record. 14_host.md R323. -/
structure CmdRec where
  ver     : Nat
  /-- a reserved bit or field is set -/
  resv    : Bool
  opcode  : Nat
  irq     : Bool
  inl     : Bool
  fence   : Bool
  ring    : Nat
  cls     : Nat
  epoch   : Nat
  tenant  : Nat
  tag     : Nat
  addr    : Nat
  length  : Nat
  respLen : Nat
  respAddr : Nat
  arg0    : Nat
  arg1    : Nat
  seq     : Nat
  valid   : Bool
  deriving DecidableEq, Repr, Inhabited

/-- Parses a command record. -/
def CmdRec.parse (b : List Byte) : CmdRec :=
  let f := fun o n => fld false b o n
  let snap := decide (f 1 1 = 0x80)
  { ver := f 0 1 % 16,
    resv := decide (f 0 1 / 16 ≠ 0) || decide (f 2 1 / 8 ≠ 0) || decide (f 58 1 / 2 ≠ 0) || decide (f 59 5 ≠ 0) ||
      (if snap then decide (f 44 4 ≠ 0) else decide (f 40 8 ≠ 0) || decide (f 48 8 ≠ 0)),
    opcode := f 1 1, irq := bit1 (f 2 1) 0, inl := bit1 (f 2 1) 1, fence := bit1 (f 2 1) 2, ring := f 3 1 % 16,
    cls := f 3 1 / 16, epoch := f 4 2, tenant := f 6 2, tag := f 8 8, addr := f 16 8, length := f 24 4, respLen := f 28 4,
    respAddr := f 32 8, arg0 := f 40 8, arg1 := f 48 8, seq := f 56 2, valid := bit1 (f 58 1) 0 }

/-- Opcodes a command record may carry. 14_host.md R324. -/
def pcieOps : List Opcode :=
  [.attend, .append, .bulkAppend, .seal, .read, .write, .ledgerRead, .ledgerPublish, .mgmt, .snapshot]

/-- Least response length of R324; of ATTEND and READ it depends on the payload. -/
def leastResp (op : Opcode) (inlinePayload : List Byte) (length d : Nat) : Nat :=
  match op with
  | .attend =>
    let a := Att.parse false inlinePayload
    16 + a.heads * (24 + (if a.out32 then 4 else 2) * d) + 528
  | .read => 32 + fld false inlinePayload 24 4
  | .ledgerRead => 88
  | .snapshot => 16 + length
  | _ => 32

end Sys2Proof.Machine
end

