-- ==== Sys2Proof/Machine/Seqs.lean ====
section
/-!
DEFINITION. Sequences: descriptors, placement, page lists, the reference unit, tails in SRAM and in images, freezing,
sealing, promotion. 03_sequences.md, 06_append.md, 02_pages.md R41 to R44.
-/
namespace Sys2Proof.Machine

/-- Sealed pages of a pair in position order, with their page indexes. 03_sequences.md R55. -/
def pairPages (s : State) (i : Nat) (d : Desc) (pair : Nat) : List (Nat × PageRef) :=
  let refs := sortBy (·.firstPos) (d.stripe.flatMap fun k => (rootOf s k i pair).refs)
  (refs.zipIdx d.deltaPages).map fun (r, p) => (p, r)

/-- The page reference at a page index of a pair. -/
def pageAt (s : State) (i : Nat) (d : Desc) (pair p : Nat) : Option PageRef :=
  ((pairPages s i d pair).find? fun x => decide (x.1 = p)).map (·.2)

/-- Structure units one more reference in a root needs: a chunk directory, a chunk. 03_sequences.md R52. -/
def refUnits (r : Root) (more : Nat) : Nat :=
  (if r.chunks.isEmpty then 1 else 0) + (ceilDiv (r.refs.length + more + 1) 256 - r.chunks.length)

/-- The deviation of a chunk's word goes when its reference is written anew. 08_memory.md R181, 03_sequences.md R53. -/
def freshRefs (s : State) (old new : Root) : State :=
  let same := fun (j : Nat) => decide (old.refs[j]? = new.refs[j]?)
  let written := fun (a : Nat) => new.chunks.zipIdx.any fun (l, n) =>
    let b := homeAddr s l
    decide (b ≤ a) && decide (a < b + 4096) && ! same (256 * n + (a - b) / 16)
  if s.mem.chk.isEmpty then s else setChk s (s.mem.chk.filter fun p => ! written p.1)

/-- Sets a root's references: the words that change are written. -/
def putRoot (s : State) (k i pair : Nat) (r : Root) : State :=
  setRoot (freshRefs s (rootOf s k i pair) r) k i pair r

/-- Adds a page reference to a root, with the structures it needs; none when there is no place for them. A (layer, KV head)
that needs more chunks than the 512 entries of R52's chunk directory goes on past them: the spec does not say what happens
then (DESIGN CHOICE, assumption 160). 03_sequences.md R52. -/
def addRef (s : State) (k i pair tenant : Nat) (ref : PageRef) : Option State :=
  let r := rootOf s k i pair
  let dir := if r.chunks.isEmpty then (placeSlot s k tenant 1 .chunkDir).map fun (s, l) => (s, { r with chunkDir := l })
    else some (s, r)
  dir.bind fun (s, r) =>
    let full := decide (r.refs.length + 1 > 256 * r.chunks.length)
    let ch := if full then (placeSlot s k tenant 1 .chunk).map fun (s, l) => (s, { r with chunks := r.chunks ++ [l] })
      else some (s, r)
    ch.map fun (s, r) => putRoot s k i pair { r with refs := sortBy (·.firstPos) (ref :: r.refs) }

/-- Keeps of a root the references that a test keeps, and frees the chunks no longer needed. -/
def keepRefs (s : State) (k i pair : Nat) (keep : PageRef → Bool) : State :=
  let r := rootOf s k i pair
  let refs := r.refs.filter keep
  let n := ceilDiv refs.length 256
  let s := (r.chunks.drop n).foldl freeSlot s
  if refs.isEmpty then
    let s := if r.chunks.isEmpty then s else freeSlot s r.chunkDir
    modSeqs s fun q => { q with roots := adel q.roots (k, i, pair) }
  else putRoot s k i pair { r with refs := refs, chunks := r.chunks.take n }

/-- Replaces one reference of a root by another of the same position. 03_sequences.md R63 step 5. -/
def swapRef (s : State) (k i pair : Nat) (old new : PageRef) : State :=
  let r := rootOf s k i pair
  putRoot s k i pair { r with refs := r.refs.map fun x => if x = old then new else x }

/-- Units of a fragment table and of a tail directory. 03_sequences.md R52, 06_append.md R125. -/
def fragUnits (d : Desc) : Nat := ceilDiv (d.pairs * 32) 4096
def tdirUnits (d : Desc) : Nat := ceilDiv (d.pairs * 8) 4096

/-- Allocates the fragment tables of every stripe slice and the tail directory under quota. 06_append.md R129. -/
def allocTables (s : State) (i : Nat) (d : Desc) : Option State :=
  let frags := d.stripe.foldl (fun (acc : Option State) k =>
    acc.bind fun s => (allocSlot s k d.tenant (fragUnits d) .frag).map fun (s, l) =>
      modSeqs s fun q => { q with entries := aset q.entries (k, i) ⟨l, slotGen s l, 0, 0⟩ }) (some s)
  frags.bind fun s => (allocSlot s (i % 32) d.tenant (tdirUnits d) .tailDir).map fun (s, l) =>
    modSeqs s fun q => { q with tdirSlots := aset q.tdirSlots i [l] }

/-! ## The reference unit (R60) -/

/-- Index key of a keyed page held in a slice. 03_sequences.md R64. -/
def prefixKey (tenant k content : Nat) : Nat := (content ^^^ (tenant * 2 ^ 48) ^^^ (k * 2 ^ 40)) % 2 ^ 64

/-- The row of a class and key a hub holds, wherever it stands. -/
def rowOf (s : State) (h cls key : Nat) : Option ChiveRow :=
  match answerRow cls key (blockRows s.chive.shadow h (homeBlock s h cls key)) with
  | some (_, r) => some r
  | none => (otFind s h cls key).head?

/-- Removes the index row of a keyed page that leaves its slot or changes. 03_sequences.md R60, R63. -/
def unindexPage (s : State) (lpn : Nat) (h : Hdr) : State :=
  let k := lpnSlice lpn
  let hub := homeHub s k
  let key := prefixKey h.tenant k h.key
  if h.keyed ∧ (rowOf s hub clsPrefix key).map (·.value) = some (lpn + h.gen * 2 ^ 32)
    then delete s hub clsPrefix key 0 else s

/-- Releases the slot of a page whose last reference went: its live copy, its index row, its slot. 03_sequences.md R60. -/
def freePage (s : State) (lpn : Nat) : State :=
  let s := unindexPage s lpn (liveHdr s lpn)
  let promo := (aget s.mem.promo lpn).map (·.base)
  let s := freeSlot s lpn
  match promo with
  | some a => freeSram s a
  | none => s

/-- Writes the header word at offset 32 of a page's live copy. 02_pages.md R33, 06_append.md R135. -/
def writeRefWord (s : State) (lpn crc refs : Nat) : State :=
  noteChange (putWords s (liveAddr s lpn + 32) (leBytes 4 crc ++ leBytes 4 refs ++ zeros 8)) lpn

/-- What became of a change of a ref_count. 03_sequences.md R60, 08_memory.md R181. -/
inductive RefDone where
  | ok
  /-- the slot holds no page of the generation: the operation treats the page as absent -/
  | absent
  /-- the count is full: the operation copies the page instead -/
  | full
  /-- the header cannot be read: UNCORRECTABLE, nothing changed -/
  | bad
  deriving DecidableEq, Repr

/-- Applies one change of a ref_count. 03_sequences.md R60, 08_memory.md R181. -/
def applyRef (s : State) (c : RefChange) : State × RefDone :=
  match loadHdr s c.lpn readUnit with
  | (s, none) => (s, .bad)
  | (s, some h) =>
    if h.kf = fmtNone ∨ h.vf = fmtNone ∨ h.gen ≠ c.gen then (s, .absent)
    else if c.inc then
      if 0xFFFFFFFF ≤ h.refs then (s, .full) else (writeRefWord s c.lpn h.crc (h.refs + 1), .ok)
    else if h.refs ≤ 1 then (freePage s c.lpn, .ok)
    else (writeRefWord s c.lpn h.crc (h.refs - 1), .ok)

/-- Applies the changes a slice's reference unit holds, in order of arrival. -/
def drainRefs (s : State) (k : Nat) : State :=
  let mine := s.seqs.refQ.filter fun c => decide (lpnSlice c.lpn = k)
  let s := modSeqs s fun q => { q with refQ := q.refQ.filter fun c => decide (lpnSlice c.lpn ≠ k) }
  mine.foldl (fun s c => (applyRef s c).1) s

/-- Takes a reference to a page, after the changes that arrived before. -/
def takeRef (s : State) (r : PageRef) : State × RefDone :=
  applyRef (drainRefs s (lpnSlice r.lpn)) ⟨r.lpn, r.gen, true⟩

/-- Hands the reference unit the release of a page. -/
def giveRef (s : State) (r : PageRef) : State :=
  modSeqs s fun q => { q with refQ := q.refQ ++ [⟨r.lpn, r.gen, false⟩] }

/-- The header of a page, with its ref_count, as the reference unit reads it; none when it cannot be read.
03_sequences.md R63 step 1, 08_memory.md R181. -/
def refCount (s : State) (r : PageRef) : State × Option Hdr :=
  loadHdr (drainRefs s (lpnSlice r.lpn)) r.lpn readUnit

/-! ## Promotion (06_append.md R135, R136) -/

/-- A demotion after its copy was read: the live copy goes home when it changed, and the page's place is its home again.
06_append.md R135, R136 steps 3 to 5. -/
def settleHome (s : State) (lpn : Nat) (p : Promo) (page : List Byte) : State :=
  let s := if p.changed then putWords s (homeAddr s lpn) page else s
  let base := ((aget s.mem.promo lpn).getD p).base
  freeSram (modMem s fun m => { m with promo := adel m.promo lpn }) base

/-- Whether a page's extent is being withdrawn, so that no migration of it starts. 12_ledger.md R284. -/
def extentClosing (s : State) (lpn : Nat) : Bool := decide ((extentSt s (lpnSlice lpn) (lpnExtent lpn)).state = .closing)

/-- Size of the page at an lpn. -/
def livePageSize (s : State) (lpn : Nat) : Nat := (liveHdr s lpn).geom.size

/-- Demotes a page: its seal CRC is checked, a word that cannot be corrected abandons the demotion, and the live copy goes
home only when it changed. 06_append.md R135, R136, 02_pages.md R45 (assumption 131), 12_ledger.md R284. -/
def demote (s : State) (lpn : Nat) : State :=
  match aget s.mem.promo lpn with
  | none => s
  | some p =>
    if extentClosing s lpn then s else
    match load s p.base (livePageSize s lpn) readPool with
    | (s, none) => s
    | (s, some page) =>
      let h := Hdr.parse page
      if h.damaged ∨ sealCrc page = h.crc then settleHome s lpn p page
      else
        let page' := { h with damaged := true }.bytes ++ page.drop 64
        settleHome (markDamaged s lpn) lpn { p with changed := true } page'

/-- Promoted pages of a slice, least recently opened first. -/
def promotedOf (s : State) (k : Nat) : List Nat :=
  (sortBy (fun p => p.2.opened) (s.mem.promo.filter fun p => decide (p.2.base / 2 ^ 42 = k))).map (·.1)

/-! ## Tails (06_append.md R125 to R132) -/

/-- A tail directory entry. -/
def tdirOf (s : State) (i pair : Nat) : TailDir := agetD s.seqs.tdirs (i, pair) ⟨0, false, 0, 0⟩

/-- Changes a tail directory entry. -/
def modTdir (s : State) (i pair : Nat) (f : TailDir → TailDir) : State :=
  modSeqs s fun q => { q with tdirs := aset q.tdirs (i, pair) (f (tdirOf s i pair)) }

/-- Key of the open tail of a pair. -/
def openKey (s : State) (i : Nat) (d : Desc) (layer kv : Nat) : TailKey :=
  ⟨i, layer, kv, (tdirOf s i (d.pair layer kv)).index⟩

/-- What a read of a tail through the word code gives. -/
inductive TailRead where
  /-- there is no such tail -/
  | none
  /-- a word cannot be corrected -/
  | bad
  | ok (bytes : List Byte)
  deriving DecidableEq, Repr

/-- Header and rows of a tail through the word code: from SRAM, or from its images without reloading it. 02_pages.md R34,
R36, 06_append.md R132. -/
def loadTail (s : State) (d : Desc) (key : TailKey) (reader : Nat) : State × TailRead :=
  let half := d.t * d.dim * 2
  match aget s.seqs.tails key with
  | some t =>
    match load s t.base d.geom.tailSize reader with
    | (s, .none) => (s, .bad)
    | (s, .some b) => (s, .ok b)
  | .none =>
    match aget s.seqs.images key with
    | .none => (s, .none)
    | some x =>
      match load s (homeAddr s x.key) half reader with
      | (s, .none) => (s, .bad)
      | (s, .some a) =>
        match load s (homeAddr s x.value) half reader with
        | (s, .none) => (s, .bad)
        | (s, .some b) => (s, .ok (x.header ++ a ++ b))

/-- Header of a tail, for a look that another read of the same step accounts for. -/
def tailHdr (s : State) (key : TailKey) : Option Hdr :=
  match aget s.seqs.tails key with
  | some t => (seen s t.base 64).map Hdr.parse
  | none => (aget s.seqs.images key).map fun x => Hdr.parse x.header

/-- Reads the headers of tails, in SRAM or in their records, that a request is about to look at; one that cannot be read
gives UNCORRECTABLE. 08_memory.md R180, R181, R192. -/
def lookTails : List TailKey → State → State × Status
  | [], s => (s, .ok)
  | key :: ks, s =>
    let a := match aget s.seqs.tails key with
      | some t => some t.base
      | none => (aget s.seqs.images key).map fun x => homeAddr s x.record
    match a with
    | none => lookTails ks s
    | some a =>
      match load s a 64 readUnit with
      | (s, none) => (s, .uncorrectable)
      | (s, some _) => lookTails ks s

/-- Tokens a tail holds. -/
def tailCount (s : State) (key : TailKey) : Nat := ((tailHdr s key).map (·.count)).getD 0

/-- The images and the record of a tail, which its first write-back allocates; none when they have no place.
06_append.md R130. -/
def tailImages (s : State) (d : Desc) (key : TailKey) (k : Nat) : Option (State × TailImage) :=
  let units := slotUnits (slotClass (d.t * (d.dim * 2)))
  match aget s.seqs.images key with
  | some x => some (s, x)
  | none =>
    (allocSlot s k d.tenant 1 .tailRecord).bind fun (s, r) =>
      (allocSlot s k d.tenant units .image).bind fun (s, a) =>
        (allocSlot s k d.tenant units .image).map fun (s, b) => (s, ⟨r, a, b, []⟩)

/-- Writes the dirty rows of a tail to its images and the record last; false when they have no place, or a word of the tail
cannot be corrected. The tail is read first, so a first write-back that meets such a word allocates nothing: the spec does
not say what becomes of images without a write-back (DESIGN CHOICE, assumption 166). 06_append.md R130, 08_memory.md R181. -/
def writeBack (s : State) (d : Desc) (key : TailKey) : State × Bool :=
  match aget s.seqs.tails key with
  | none => (s, true)
  | some t =>
    let row := d.dim * 2
    match load s t.base d.geom.tailSize readUnit with
    | (s, none) => (s, false)
    | (s, some b) =>
      match tailImages s d key t.slice with
      | none => (s, false)
      | some (s, x) =>
        let s := (t.dirty.zipIdx).foldl (fun s (on, j) =>
          if on then
            let s := putWords s (homeAddr s x.key + j * row) (takeBytes b (64 + j * row) row)
            putWords s (homeAddr s x.value + j * row) (takeBytes b (64 + (d.t + j) * row) row)
          else s) s
        let hdr := b.take 64
        let rec_ := hdr ++ leBytes 4 x.key ++ leBytes 4 (slotGen s x.key) ++ zeros 8 ++ leBytes 4 x.value ++
          leBytes 4 (slotGen s x.value) ++ zeros 8
        let s := putWords s (homeAddr s x.record) (rec_ ++ zeros (128 - rec_.length))
        (modSeqs s fun q => { q with
          images := aset q.images key { x with header := hdr },
          tails := amod q.tails key fun t => { t with dirty := t.dirty.map fun _ => false } }, true)

/-- Evicts a tail: written back when dirty, its SRAM released. 06_append.md R131. -/
def evictTail (s : State) (d : Desc) (key : TailKey) : State × Bool :=
  match aget s.seqs.tails key with
  | none => (s, true)
  | some t =>
    let (s, ok) := if t.dirty.any id ∨ (aget s.seqs.images key).isNone then writeBack s d key else (s, true)
    if ok then
      let base := ((aget s.seqs.tails key).getD t).base
      let s := modSeqs s fun q => { q with tails := adel q.tails key }
      (bump (freeSram s base) .tier_TAIL_EVICTIONS 0, true)
    else (s, false)

/-- Resident tails of a slice that may be evicted, least recently appended first; of one tenant or of any. -/
def evictable (s : State) (k : Nat) (tenant : Option Nat) : List (TailKey × Desc) :=
  ((sortBy (fun p => p.2.lastRow) (s.seqs.tails.filter fun p => decide (p.2.slice = k) && ! p.2.frozen)).filterMap fun p =>
    (descOf s p.1.desc).map fun d => (p.1, d)).filter fun p =>
      match tenant with
      | some t => decide (p.2.tenant = t)
      | none => true

/-- Evicts from a list of tails until a test holds. -/
def evictUntil (ok : State → Bool) : List (TailKey × Desc) → State → State
  | [], s => s
  | p :: ps, s => if ok s then s else evictUntil ok ps (evictTail s p.2 p.1).1

/-- Demotes from a list of pages until a test holds. -/
def demoteUntil (ok : State → Bool) : List Nat → State → State
  | [], s => s
  | p :: ps, s => if ok s then s else demoteUntil ok ps (demote s p)

/-- Delta-cache entries of a slice, least recently used first; of one tenant or of any. 03_sequences.md R69. -/
def cached (s : State) (k : Nat) (tenant : Option Nat) : List ((Nat × Nat × Nat × Nat × Nat) × Nat) :=
  s.seqs.cache.filter fun p => decide (p.1.1 = k) &&
    match tenant with
    | some t => decide ((aget s.seqs.bindings p.1.2.1).map (·.tenant) = some t)
    | none => true

/-- Drops delta-cache entries of a slice until a test holds. 03_sequences.md R69. -/
def uncacheUntil (ok : State → Bool) : List ((Nat × Nat × Nat × Nat × Nat) × Nat) → State → State
  | [], s => s
  | p :: ps, s =>
    if ok s then s
    else uncacheUntil ok ps (freeSram (modSeqs s fun q => { q with cache := adel q.cache p.1 }) p.2)

/-- SRAM of a slice's general pool for a tenant, after promoted pages and idle tails have yielded. 06_append.md R131,
R136, R138. -/
def sramGet (s : State) (k tenant n : Nat) (kind : SramKind) : Option (State × Nat) :=
  let quota := fun (s : State) => sramQuotaOk s tenant n
  let place := fun (s : State) => (allocSram s k tenant n kind).isSome
  let s := evictUntil quota (evictable s k (some tenant)) s
  let s := uncacheUntil quota (cached s k (some tenant)) s
  let s := demoteUntil place (promotedOf s k) s
  let s := uncacheUntil place (cached s k none) s
  let s := evictUntil place (evictable s k none) s
  if quota s then allocSram s k tenant n kind else none

/-- Header of a tail page. 02_pages.md R31, R34. Its generation, which R31 says is never 0 and R32 gives to slots alone, is
1, and its ref_count, the number of page lists that name it, is 0: DESIGN CHOICE (assumption 132). -/
def tailHeader (d : Desc) (key : TailKey) (firstPos count : Nat) : Hdr :=
  { ver := 1, kf := fmtBf16, vf := fmtBf16, tc := d.tCode, dc := d.dCode, cls := 0xFF, sealed := false, keyed := false,
    damaged := false, count := count, layer := key.layer, kv := key.kv, sketch := 0, tenant := d.tenant,
    firstPos := firstPos, gen := 1, key := 0, crc := 0, refs := 0 }

/-- A tail just placed in SRAM, with a clean dirty bitmap. -/
def freshTail (s : State) (d : Desc) (k a : Nat) : Tail :=
  { slice := k, base := a, dirty := List.replicate d.t false, frozen := false, lastRow := now s (homeHub s k) }

/-- Places the bytes of a tail in its slice's SRAM. 06_append.md R127, R131. -/
def placeTail (s : State) (d : Desc) (key : TailKey) (b : List Byte) : Except Status State :=
  let k := d.slice key.page
  match sramGet s k d.tenant (ceilDiv d.geom.tailSize 4096) .tail with
  | none => .error .quota
  | some (s, a) =>
    let s := poke s a b
    .ok (modSeqs s fun q => { q with tails := aset q.tails key (freshTail s d k a) })

/-- Opens a tail in its slice's SRAM. 06_append.md R127. -/
def openTail (s : State) (d : Desc) (key : TailKey) (firstPos : Nat) : Except Status State :=
  placeTail s d key (tailHeader d key firstPos 0).bytes

/-- Reloads an evicted tail into SRAM with a clean dirty bitmap. 06_append.md R132. -/
def reloadTail (s : State) (d : Desc) (key : TailKey) : Except Status State :=
  match loadTail s d key readUnit with
  | (_, .none) => .error .notFound
  | (_, .bad) => .error .uncorrectable
  | (s, .ok b) => placeTail s d key b

/-- Makes the tail of a key resident: it is, it is reloaded, or it opens at a position. -/
def residentTail (s : State) (d : Desc) (key : TailKey) (pos : Nat) : Except Status State :=
  if (aget s.seqs.tails key).isSome then .ok s
  else if (aget s.seqs.images key).isSome then reloadTail s d key
  else openTail s d key pos

/-- Stores rows (keys, values) into a resident tail after those it holds; its header is read first, and one that cannot
be corrected fails the store. 06_append.md R127, 02_pages.md R34, 08_memory.md R181. -/
def storeRows (s : State) (d : Desc) (key : TailKey) (rows : List (List Byte × List Byte)) : Except Status State :=
  match aget s.seqs.tails key with
  | none => .ok s
  | some t =>
    match load s t.base 64 readUnit with
    | (_, none) => .error .uncorrectable
    | (s, some hb) =>
    let t := (aget s.seqs.tails key).getD t
    let h := Hdr.parse hb
    let row := d.dim * 2
    let ks := rows.flatMap (·.1)
    let vs := rows.flatMap (·.2)
    let s := putWords s (t.base + 64 + h.count * row) ks
    let s := putWords s (t.base + 64 + (d.t + h.count) * row) vs
    let s := putWords s t.base { h with count := h.count + rows.length }.bytes
    let dirty := (t.dirty.zipIdx).map fun (on, j) => on || (decide (h.count ≤ j) && decide (j < h.count + rows.length))
    let t' : Tail := { t with dirty := dirty, lastRow := now s (homeHub s t.slice) }
    .ok (modSeqs s fun q => { q with tails := aset q.tails key t' })

/-- A row's BF16 bytes with every non-finite value replaced, and how many were. 02_pages.md R35. -/
def finiteRow (be : Bool) (b : List Byte) : List Byte × Nat :=
  let vs := (halves (orderUnits be 2 b)).map finiteBf
  (vs.flatMap fun v => leBytes 2 v.1, (vs.filter (·.2)).length)

/-! ## Freezing and sealing (02_pages.md R41 to R43, 06_append.md R128, R129) -/

/-- Units a seal of a pair reserves: its page slot and the structures its reference needs. 06_append.md R129. -/
def sealUnits (s : State) (i : Nat) (d : Desc) (layer kv page : Nat) : Nat :=
  let k := d.slice page
  let pair := d.pair layer kv
  let queued := (s.seqs.sealQ.filter fun q => decide (q.desc = i) && decide (q.slice = k) && decide (q.layer = layer) &&
    decide (q.kv = kv)).length
  slotUnits d.geom.cls + (refUnits (rootOf s k i pair) queued - (if queued = 0 then 0 else refUnits (rootOf s k i pair) (queued - 1)))

/-- Freezes a tail: it waits for its slice's seal unit, the directory advances. 06_append.md R128. -/
def freezeTail (s : State) (d : Desc) (key : TailKey) (content : Option Nat) (waiter : Nat) : State :=
  let pair := d.pair key.layer key.kv
  match tailHdr s key with
  | none => s
  | some h =>
    let it : SealItem :=
      { slice := d.slice key.page, desc := key.desc, layer := key.layer, kv := key.kv, page := key.page, fromTail := true,
        rows := [], firstPos := h.firstPos, tokens := h.count, key := content,
        resv := sealUnits s key.desc d key.layer key.kv key.page, waiter := waiter, aside := false,
        tried := 0, frees := 0 }
    let s := modTdir s key.desc pair fun t => { t with index := key.page + 1, frozen := t.frozen + 1 }
    modSeqs s fun q => { q with tails := amod q.tails key fun t => { t with frozen := true }, sealQ := q.sealQ ++ [it] }

/-- Queues a complete page of a BULK_APPEND in the seal buffer. 06_append.md R128. -/
def queuePage (s : State) (d : Desc) (key : TailKey) (firstPos : Nat) (rows : List (List Byte × List Byte))
    (content : Option Nat) (waiter : Nat) : State :=
  let it : SealItem :=
    { slice := d.slice key.page, desc := key.desc, layer := key.layer, kv := key.kv, page := key.page, fromTail := false,
      rows := (rows.flatMap (·.1)) ++ rows.flatMap (·.2), firstPos := firstPos, tokens := rows.length, key := content,
      resv := sealUnits s key.desc d key.layer key.kv key.page, waiter := waiter, aside := false,
        tried := 0, frees := 0 }
  let s := modTdir s key.desc (d.pair key.layer key.kv) fun t => { t with index := key.page + 1 }
  modSeqs s fun q => { q with sealQ := q.sealQ ++ [it] }

/-- BF16 key and value rows of a page that waits for the seal unit; none when a word of its tail cannot be corrected.
02_pages.md R41, 08_memory.md R181. -/
def sealRows (s : State) (d : Desc) (it : SealItem) : State × Option (List (List Nat) × List (List Nat)) :=
  if it.fromTail then
    match loadTail s d ⟨it.desc, it.layer, it.kv, it.page⟩ readUnit with
    | (s, .none) => (s, some (tailRows d.geom []))
    | (s, .bad) => (s, none)
    | (s, .ok b) => (s, some (tailRows d.geom b))
  else
    let h := halves it.rows
    (s, some (pieces it.tokens d.dim h, pieces it.tokens d.dim (h.drop (it.tokens * d.dim))))

/-- The header of the page a seal writes. 02_pages.md R41 step 4. -/
def sealHeader (d : Desc) (it : SealItem) (gen : Nat) : Hdr :=
  { ver := 1, kf := d.keyFormat, vf := d.valFormat, tc := d.tCode, dc := d.dCode, cls := d.geom.cls, sealed := true,
    keyed := it.key.isSome, damaged := false, count := it.tokens, layer := it.layer, kv := it.kv,
    sketch := d.geom.sketchOff, tenant := d.tenant, firstPos := it.firstPos, gen := gen, key := it.key.getD 0, crc := 0,
    refs := 1 }

/-- The page reference of a sealed page. 03_sequences.md R53. -/
def refOf (h : Hdr) (lpn : Nat) : PageRef := ⟨lpn, h.gen, h.firstPos, h.count, h.cls⟩

/-- Releases a tail that has been sealed or cut away: its SRAM, its images. 06_append.md R128. -/
def dropTail (s : State) (key : TailKey) : State :=
  let s := match aget s.seqs.tails key with
    | some t => freeSram s t.base
    | none => s
  let s := match aget s.seqs.images key with
    | some x => freeSlot (freeSlot (freeSlot s x.record) x.key) x.value
    | none => s
  modSeqs s fun q => { q with tails := adel q.tails key, images := adel q.images key }

/-- How a keyed seal goes on. 03_sequences.md R65. -/
inductive ShareWay where
  /-- written and entered (6b), or replacing the entry that stands (6g) -/
  | write
  /-- written for this sequence alone (6f, or a count that is full) -/
  | alone
  /-- the existing page is referenced (6e) -/
  | share (ref : PageRef)
  deriving DecidableEq, Repr

/-- Whether an existing page's header names the candidate's page: the third check of step 6c. 03_sequences.md R65. -/
def sameFields (h cand : Hdr) : Bool :=
  decide (h.tenant = cand.tenant) && decide (h.geom = cand.geom) && decide (h.layer = cand.layer) &&
    decide (h.kv = cand.kv) && decide (h.firstPos = cand.firstPos) && decide (h.count = cand.count) &&
    decide (h.key = cand.key)

/-- What step 6c finds at the page an index row names. 03_sequences.md R65. -/
inductive HeldPage where
  /-- the candidate's page -/
  | same
  /-- no page, another generation, or the damaged bit: step 6g -/
  | stale
  /-- its seal CRC fails: it is marked damaged, step 6g -/
  | corrupt
  /-- a field differs: step 6f -/
  | other
  deriving DecidableEq, Repr

/-- Step 6c for the value of an index row, the bytes at its slot and a candidate's header. 03_sequences.md R65,
02_pages.md R47. -/
def heldPage (cand : Hdr) (v : Nat) (page : List Byte) : HeldPage :=
  let h := Hdr.parse page
  if h.kf = fmtNone ∨ h.vf = fmtNone ∨ h.gen ≠ v / 2 ^ 32 ∨ h.damaged then .stale
  else if sealCrc page ≠ h.crc then .corrupt
  else if sameFields h cand then .same
  else .other

/-- Confirmation of the prefix-root class: step 6c of R65. A page that cannot be read is left to the read that follows.
09_chive.md R201, R205. -/
def confirmPrefix (s : State) (cand : Hdr) (v : Nat) : Bool :=
  match seen s (liveAddr s (v % 2 ^ 32)) (livePageSize s (v % 2 ^ 32)) with
  | some page => decide (heldPage cand v page = .same)
  | none => true

/-- Step 6f: the slice counts a key mismatch for the tenant. 03_sequences.md R65. -/
def keyMismatch (s : State) (d : Desc) : State := modMeter s d.tenant fun m => { m with keyMiss := satAdd m.keyMiss 1 }

/-- Steps 6c to 6g of R65 for the value of an index row of the candidate's key. A word of the existing page that cannot be
corrected takes step 6f (07_dill.md R164). -/
def meetHeld (s : State) (d : Desc) (cand : Hdr) (cbody : List Byte) (v : Nat) : State × ShareWay :=
  let lpn := v % 2 ^ 32
  match load s (liveAddr s lpn) (livePageSize s lpn) readPool with
  | (s, none) => (keyMismatch s d, .alone)
  | (s, some page) =>
    match heldPage cand v page with
    | .stale => (s, .write)
    | .corrupt => (markDamaged s lpn, .write)
    | .other => (keyMismatch s d, .alone)
    | .same =>
      if page.drop 64 ≠ cbody then (keyMismatch s d, .alone)
      else
        let ref := refOf (Hdr.parse page) lpn
        match takeRef s ref with
        | (s, .ok) => (s, .share ref)
        | (s, .absent) => (s, .write)
        | (s, _) => (s, .alone)

/-- Steps 6a to 6g of R65 for a candidate page. A row that the search does not confirm and that stands is judged by step 6c
as it is. 03_sequences.md R65, 09_chive.md R205, R213. -/
def shareStep (s : State) (d : Desc) (k : Nat) (cand : Hdr) (cbody : List Byte) : State × ShareWay :=
  let key := prefixKey d.tenant k cand.key
  match search s (homeHub s k) clsPrefix key (confirmPrefix s cand) with
  | (s, .hit v) => meetHeld s d cand cbody v
  | (s, .rebuilding) => (s, .write)
  | (s, .miss) =>
    match rowOf s (homeHub s k) clsPrefix key with
    | some r => meetHeld s d cand cbody r.value
    | none => (s, .write)

/-- Enters a keyed page in the index of its slice's home hub; a row of its key that stands is replaced. 03_sequences.md
R65 steps 6b and 6g, 09_chive.md R207. -/
def indexPage (s : State) (k lpn : Nat) (h : Hdr) : State :=
  let row : ChiveRow := ⟨prefixKey h.tenant k h.key, clsPrefix, 0, lpn + h.gen * 2 ^ 32⟩
  match insert s (homeHub s k) row with
  | (s, .exists_ _) => replace s (homeHub s k) row
  | (s, _) => s

/-- Writes a sealed page in a slot of its class; none when its slice has no place for it. 02_pages.md R41 steps 4 to 6. -/
def writeSealed (s : State) (d : Desc) (it : SealItem) (cbody : List Byte) (way : ShareWay) : Option (State × PageRef) :=
  match way with
  | .share r => some (s, r)
  | _ =>
    (placeSlot s it.slice d.tenant (slotUnits d.geom.cls) .page).map fun (s, lpn) =>
      let h := sealHeader d it (slotGen s lpn)
      let s := putWords s (homeAddr s lpn) (withCrc h cbody)
      (if way = .write then indexPage s it.slice lpn h else s, refOf h lpn)

/-- Step 7 of R41: the page's reference and the release of its tail. 02_pages.md R41, 06_append.md R128. -/
def commitSeal (s : State) (d : Desc) (it : SealItem) (r : PageRef) : Option State :=
  let pair := d.pair it.layer it.kv
  (addRef s it.slice it.desc pair d.tenant r).map fun s =>
    if it.fromTail then modTdir (dropTail s ⟨it.desc, it.layer, it.kv, it.page⟩) it.desc pair fun t =>
      { t with frozen := t.frozen - 1 }
    else s

/-- Seals one waiting page: written or shared, its reference committed with the release of its tail. A seal that finds no
place changes nothing (BUSY), and so one whose tail has a word that cannot be corrected (UNCORRECTABLE). 02_pages.md R41,
R43, 03_sequences.md R65, 06_append.md R128, R129, 08_memory.md R181. -/
def sealItem (s : State) (it : SealItem) : State × Status :=
  match descOf s it.desc with
  | none => (s, .busy)
  | some d =>
    match sealRows s d it with
    | (s, none) => (s, .uncorrectable)
    | (s, some (ks, vs)) =>
      let cbody := sealBody d.geom ks vs it.tokens
      let t := modSeqs s fun q => { q with sealQ := q.sealQ.erase it }
      let (t, way) := if it.key.isSome then shareStep t d it.slice (sealHeader d it 0) cbody else (t, .alone)
      match (writeSealed t d it cbody way).bind fun (t, r) => commitSeal t d it r with
      | some t => (t, .ok)
      | none => (s, .busy)

/-- Whether two waiting pages are of one (layer, KV head). -/
def SealItem.samePair (x it : SealItem) : Bool :=
  decide (x.desc = it.desc) && decide (x.layer = it.layer) && decide (x.kv = it.kv)

/-- Whether a waiting page may be taken: no earlier page of its pair waits. 02_pages.md R43. -/
def sealReady (q : List SealItem) (it : SealItem) : Bool :=
  match q.find? fun x => x.samePair it with
  | some x => decide (x = it)
  | none => false

/-- Whether a waiting page stands behind one of its pair that is set aside. 02_pages.md R43. -/
def behindAside (q : List SealItem) (it : SealItem) : Bool :=
  (q.takeWhile fun x => decide (x ≠ it)).any fun x => x.aside && x.samePair it

/-- The page a slice's seal unit takes next. Of those not set aside: the oldest that is not behind one of its pair set aside,
once the earlier pages of its pair have committed in their slices. Of those set aside: the one whose latest try lies
furthest back. 02_pages.md R43, 06_append.md R129 (assumption 133). -/
def nextSeal (s : State) (k : Nat) (aside : Bool) : Option SealItem :=
  let q := s.seqs.sealQ
  let mine := q.filter fun it => decide (it.slice = k) && (it.aside == aside)
  (if aside then (sortBy (·.tried) mine).head? else (mine.filter fun it => ! behindAside q it).head?).bind fun it =>
    if sealReady q it then some it else none

/-! ## Copy before write, truncation, release (R62, R63) -/

/-- Writes a page's new bytes with its new generation and seal CRC and no content key. 03_sequences.md R62, R63. -/
def putPage (s : State) (a : Nat) (h : Hdr) (page : List Byte) (gen refs count : Nat) : State :=
  putWords s a (withCrc { h with gen := gen, refs := refs, keyed := false, key := 0, count := count } (page.drop 64))

/-- Rewrites a page in its slot or, when it is shared, in a copy that takes its reference's place. The page is one that
its reader has checked: an undamaged page of the reference's generation. 02_pages.md R42, R44, 03_sequences.md R63. -/
def rewritePage (s : State) (i : Nat) (d : Desc) (pair : Nat) (r : PageRef) (page : List Byte) (count : Nat) :
    State × Except Status PageRef :=
  let k := lpnSlice r.lpn
  match refCount s r with
  | (s, none) => (s, .error .uncorrectable)
  | (s, some h) =>
    if h.refs ≤ 1 then
      let gen := nextGen h.gen
      let r' : PageRef := { r with gen := gen, tokens := count }
      let s := putPage (unindexPage s r.lpn h) (liveAddr s r.lpn) h page gen h.refs count
      (swapRef (setSlotGen (noteChange s r.lpn) r.lpn gen) k i pair r r', .ok r')
    else
      match allocSlot s k d.tenant (slotUnits r.cls) .page with
      | none => (s, .error .quota)
      | some (s, lpn) =>
        let r' : PageRef := { r with lpn := lpn, gen := slotGen s lpn, tokens := count }
        let s := putPage s (homeAddr s lpn) h page r'.gen 1 count
        (giveRef (swapRef s k i pair r r') r, .ok r')

/-- Truncates one sealed page of a pair at position p; a page that cannot be used, or that has no place for its copy, gives
its status and stays unchanged. 03_sequences.md R62, 02_pages.md R45 to R47. -/
def truncPage (s : State) (i : Nat) (d : Desc) (pair : Nat) (r : PageRef) (p : Nat) : State × Status :=
  let n := p - r.firstPos
  match readPage s r d.geom d.tenant false readPool with
  | (s, .fail st) => (s, st)
  | (s, .ok page) =>
    match rewritePage s i d pair r (page.take 64 ++ truncBody d.geom page n) n with
    | (s, .ok _) => (s, .ok)
    | (s, .error st) => (s, st)

/-- A private copy of a page's first n tokens for a sequence that cannot share it, its count being full. 03_sequences.md
R60. -/
def copyPage (s : State) (d : Desc) (r : PageRef) (n : Nat) : State × Except Status PageRef :=
  match readPage s r d.geom d.tenant false readPool with
  | (s, .fail st) => (s, .error st)
  | (s, .ok b) =>
    match allocSlot s (lpnSlice r.lpn) d.tenant (slotUnits d.geom.cls) .page with
    | none => (s, .error .quota)
    | some (s, lpn) =>
      let r' : PageRef := { r with lpn := lpn, gen := slotGen s lpn, tokens := n }
      let page := if n = r.tokens then b else b.take 64 ++ truncBody d.geom b n
      (putPage s (homeAddr s lpn) (Hdr.parse b) page r'.gen 1 n, .ok r')

/-- Reads pages that a change is about to copy or rewrite: the first that cannot be used gives its status. 02_pages.md R45
to R47; a copy that has not started in a closing extent gives CLOSING (12_ledger.md R284). -/
def checkPages (d : Desc) : List PageRef → State → State × Status
  | [], s => (s, .ok)
  | r :: rs, s =>
    match extentStatus s d.tenant r.lpn with
    | some st => (s, st)
    | none =>
      match readPage s r d.geom d.tenant false readPool with
      | (s, .fail st) => (s, st)
      | (s, .ok _) => checkPages d rs s

/-- Looks at pages that a fork or a bind is about to share: a header that cannot be read gives UNCORRECTABLE, a stale
reference NOT_FOUND or REVOKED, and a page whose count is full is read, since it is copied instead. 03_sequences.md R60,
R61, R68, 02_pages.md R47, 08_memory.md R181. -/
def checkShares (d : Desc) : List PageRef → State → State × Status
  | [], s => (s, .ok)
  | r :: rs, s =>
    match refCount s r with
    | (s, none) => (s, .uncorrectable)
    | (s, some h) =>
      if extentGone s d.tenant r.lpn then (s, .revoked)
      else if h.kf = fmtNone ∨ h.vf = fmtNone ∨ h.gen ≠ r.gen then (s, .notFound)
      else if h.refs < 0xFFFFFFFF then checkShares d rs s
      else
        match checkPages d [r] s with
        | (s, .ok) => checkShares d rs s
        | e => e

/-- Reads tails that a change is about to use; one with a word that cannot be corrected gives UNCORRECTABLE.
08_memory.md R181. -/
def checkTails (d : Desc) : List TailKey → State → State × Status
  | [], s => (s, .ok)
  | t :: ts, s =>
    match loadTail s d t readUnit with
    | (s, .bad) => (s, .uncorrectable)
    | (s, _) => checkTails d ts s

/-- Reads what rows stored into open tails look at: the header of a resident tail, all of one that is to be reloaded.
06_append.md R127, R132, 08_memory.md R180, R181. -/
def checkOpen (d : Desc) : List TailKey → State → State × Status
  | [], s => (s, .ok)
  | key :: ks, s =>
    match (if (aget s.seqs.tails key).isSome then lookTails [key] s else checkTails d [key] s) with
    | (s, .ok) => checkOpen d ks s
    | e => e

/-- Tails of a (layer, KV head) of a sequence, resident or in images. -/
def tailsOfPair (s : State) (i layer kv : Nat) : List TailKey :=
  (((s.seqs.tails.map (·.1)) ++ s.seqs.images.map (·.1)).filter fun t =>
    decide (t.desc = i) && decide (t.layer = layer) && decide (t.kv = kv)).eraseDups

/-- Removes from a pair the pages that start at or beyond p. -/
def releaseFrom (s : State) (i : Nat) (d : Desc) (pair p : Nat) : State :=
  let gone := (pairPages s i d pair).filter fun x => decide (p ≤ x.2.firstPos)
  let s := gone.foldl (fun s x => giveRef s x.2) s
  d.stripe.foldl (fun s k => keepRefs s k i pair fun r => decide (r.firstPos < p)) s

/-- Cuts the tails of a pair at p: rows below p stay. 03_sequences.md R62. -/
def cutTails (s : State) (i : Nat) (d : Desc) (layer kv p : Nat) : State :=
  (tailsOfPair s i layer kv).foldl (fun s t =>
    match tailHdr s t with
    | none => s
    | some h =>
      if p ≤ h.firstPos then dropTail s t
      else if h.firstPos + h.count ≤ p then s
      else
        let n := p - h.firstPos
        let row := d.dim * 2
        match aget s.seqs.tails t with
        | some x =>
          let s := putWords s (x.base + 64 + n * row) (zeros ((d.t - n) * row))
          let s := putWords s (x.base + 64 + (d.t + n) * row) (zeros ((d.t - n) * row))
          let s := putWords s x.base { h with count := n }.bytes
          modSeqs s fun q => { q with tails := aset q.tails t { x with dirty := (x.dirty.zipIdx).map fun (on, j) => on || decide (n ≤ j) } }
        | none =>
          match aget s.seqs.images t with
          | none => s
          | some x =>
            let s := putWords s (homeAddr s x.key + n * row) (zeros ((d.t - n) * row))
            let s := putWords s (homeAddr s x.value + n * row) (zeros ((d.t - n) * row))
            let hdr := { h with count := n }.bytes
            let s := putWords s (homeAddr s x.record) hdr
            modSeqs s fun q => { q with images := aset q.images t { x with header := hdr } }) s

/-- Seals that wait and concern positions at or beyond p of a sequence are dropped. -/
def dropSeals (s : State) (i p : Nat) : State :=
  modSeqs s fun q => { q with sealQ := q.sealQ.filter fun it => ! (decide (it.desc = i) && decide (p ≤ it.firstPos)) }

/-- Releases everything a descriptor holds but its core: pages, tails, tables, its share of a binding.
03_sequences.md R57, R69. -/
def releaseSeq (s : State) (i : Nat) (d : Desc) : State :=
  let s := dropSeals s i 0
  let s := (List.range d.pairs).foldl (fun s pair => releaseFrom s i d pair 0) s
  let mine := ((s.seqs.tails.map (·.1)) ++ s.seqs.images.map (·.1)).filter fun t => decide (t.desc = i)
  let s := mine.foldl dropTail s
  let s := (s.seqs.entries.filter fun p => decide (p.1.2 = i)).foldl (fun s p =>
    if p.2.fragGen = 0 then s else freeSlot s p.2.frag) s
  let s := (agetD s.seqs.tdirSlots i []).foldl freeSlot s
  let s := match aget s.seqs.bindings d.binding with
    | none => s
    | some b =>
      let holders := b.holders.filter fun x => decide (x ≠ i)
      if holders.isEmpty then
        let s := b.blocks.foldl (fun s x => giveRef s x.base) s
        let s := (s.seqs.entries.filter fun p => decide (p.1.2 = i) && decide (p.2.deltaGen ≠ 0)).foldl (fun s p => freeSlot s p.2.delta) s
        let s := (s.seqs.cache.filter fun p => decide (p.1.2.1 = d.binding)).foldl (fun s p => freeSram s p.2) s
        modSeqs s fun q => { q with bindings := adel q.bindings d.binding,
                                    cache := q.cache.filter fun p => decide (p.1.2.1 ≠ d.binding) }
      else modSeqs s fun q => { q with bindings := aset q.bindings d.binding { b with holders := holders } }
  modSeqs s fun q =>
    { q with entries := q.entries.filter fun p => decide (p.1.2 ≠ i), tdirs := q.tdirs.filter fun p => decide (p.1.1 ≠ i),
             tdirSlots := adel q.tdirSlots i }

/-- Frees a descriptor whose handle has left all hubs: its generation rises. 03_sequences.md R50, R57. -/
def freeDesc (s : State) (i : Nat) (d : Desc) : State :=
  let s := deleteAll s clsHandle d.handle 0
  modSeqs s fun q => { q with descs := adel q.descs i, descGen := aset q.descGen i (nextGen d.gen) }

/-- Raises a descriptor's length to the largest held end. 06_append.md R126. -/
def raiseLength (s : State) (i n : Nat) : State := modDesc s i fun d => { d with length := max d.length n }

/-! ## Delta prefixes (R67 to R69) -/

/-- The block of a delta prefix for a page. -/
def blockOf (s : State) (d : Desc) (layer kv page : Nat) : Option DeltaBlock :=
  (aget s.seqs.bindings d.binding).bind fun b =>
    b.blocks.find? fun x => decide (x.layer = layer) && decide (x.kv = kv) && decide (x.page = page)

/-- A delta failure is journalled and the block marked. 03_sequences.md R69, 17_health.md R407. -/
def deltaDamaged (s : State) (d : Desc) (b : DeltaBlock) (cause : Nat) : State :=
  let s := journal s (homeHub s b.slice) 0x12
    (leBytes 8 d.handle ++ leBytes 2 b.layer ++ leBytes 2 b.kv ++ leBytes 4 b.page ++ leBytes 1 cause)
  modSeqs s fun q => { q with bindings := amod q.bindings d.binding fun x =>
    { x with damaged := x.damaged ++ [(b.layer, b.kv, b.page)] } }

/-- Expands the page of a delta block: its body, or DAMAGED. A base page that is not at fault itself gives its own status:
a stale or withdrawn reference, an unknown version, a word that cannot be corrected. 03_sequences.md R69, 02_pages.md R45
to R47. -/
def expandDelta (s : State) (d : Desc) (b : DeltaBlock) : State × Except Status (List Byte) :=
  let bad : Bool := match aget s.seqs.bindings d.binding with
    | some x => x.damaged.contains (b.layer, b.kv, b.page)
    | none => true
  if bad then (s, .error .damaged)
  else
    match readPage s b.base d.geom d.tenant true readLane with
    | (s, .fail .damaged) => (deltaDamaged s d b 1, .error .damaged)
    | (s, .fail st) => (s, .error st)
    | (s, .ok p) =>
      match expandBlock d.geom b (p.drop 64) with
      | .error c => (deltaDamaged s d b c, .error .damaged)
      | .ok body => (s, .ok body)

/-- First position of a page of the delta prefix. -/
def deltaFirst (d : Desc) (page : Nat) : Nat := page * d.t

end Sys2Proof.Machine
end

