-- ==== Sys2Proof/Machine/Regions.lean ====
section
/-!
DEFINITION. The region table, access checks, data movement through regions, fenced snapshots and revocation.
11_remote_access.md R248 to R266, 07_dill.md R166 to R170.
-/
namespace Sys2Proof.Machine

/-! ## Headers (R251, R255, R256) -/

/-- A READ or WRITE header. 11_remote_access.md R255. -/
structure AccHdr where
  ver      : Nat
  /-- a reserved flag is set; reserved fields are ignored (00_scope.md R8, 11_remote_access.md R257) -/
  resv     : Bool
  snapshot : Bool
  byName   : Bool
  key      : Nat
  name     : Nat
  offset   : Nat
  length   : Nat
  deriving DecidableEq, Repr, Inhabited

/-- Parses a READ or WRITE header. -/
def AccHdr.parse (be : Bool) (b : List Byte) : AccHdr :=
  let f := fun o n => fld be b o n
  { ver := f 0 1 % 16, resv := decide (f 1 1 / 4 ≠ 0),
    snapshot := bit1 (f 1 1) 0, byName := bit1 (f 1 1) 1, key := f 4 4, name := f 8 8 % 2 ^ 48, offset := f 16 8,
    length := f 24 4 }

/-- A region control record. 11_remote_access.md R251. -/
structure RegRec where
  ver      : Nat
  op       : Nat
  kind     : Nat
  read     : Bool
  write    : Bool
  named    : Bool
  pd       : Nat
  prio     : Nat
  name     : Nat
  target   : Nat
  tgtGen   : Nat
  oldKey   : Nat
  layerFirst : Nat
  layerCount : Nat
  kvFirst  : Nat
  kvCount  : Nat
  pageFirst : Nat
  pageCount : Nat
  length   : Nat
  deriving DecidableEq, Repr, Inhabited

/-- Parses a region control record. -/
def RegRec.parse (be : Bool) (b : List Byte) : RegRec :=
  let f := fun o n => fld be b o n
  { ver := f 0 1 % 16,
    op := f 1 1, kind := f 2 1 % 8, read := bit1 (f 3 1) 0, write := bit1 (f 3 1) 1, named := bit1 (f 3 1) 2,
    pd := f 4 2, prio := f 6 1, name := f 8 8 % 2 ^ 48, target := f 16 8, tgtGen := f 24 4, oldKey := f 28 4,
    layerFirst := f 32 2, layerCount := f 34 2, kvFirst := f 36 2, kvCount := f 38 2, pageFirst := f 40 4 % 2 ^ 24,
    pageCount := f 44 4, length := f 48 8 }

/-! ## The table (R249, R250) -/

/-- Region kinds. 11_remote_access.md R248. -/
def rkSequence : Nat := 1
def rkBuffer : Nat := 2
def rkScratch : Nat := 3
def rkWindow : Nat := 4

/-- Region key of an index and generation. 11_remote_access.md R249. -/
def regionKey (i gen : Nat) : Nat := i * 256 + gen % 256

/-- Generation after one of a region: 255 is followed by 1. 11_remote_access.md R249. -/
def nextRegionGen (g : Nat) : Nat := if g % 256 = 255 then 1 else g % 256 + 1

/-- The key of a name row. 09_chive.md R201. -/
def nameKey (tenant name : Nat) : Nat := tenant * 2 ^ 48 + name

/-- Confirmation of a name row against its entry: ACTIVE, with tenant and name. 09_chive.md R201, 11_remote_access.md R257. -/
def confirmName (s : State) (tenant name v : Nat) : Bool :=
  match regionOf s (v / 256) with
  | some r => decide (r.state = 1) && r.named && decide (r.tenant = tenant) && decide (r.name = name) &&
      decide (r.gen = v % 256)
  | none => false

/-- The status of a key: orders 3 to 6 of R257, or the entry. 11_remote_access.md R257. -/
def checkKey (s : State) (key pd : Nat) : Except Status (Nat × Region) :=
  let i := key / 256
  match (if i = 0 then none else regionOf s i) with
  | none => .error .notFound
  | some r =>
    if r.gen ≠ key % 256 then .error .keyStale
    else if r.state ≠ 1 then .error .keyRevoked
    else if r.pd ≠ pd then .error .pdMismatch
    else .ok (i, r)

/-- The key an access uses: its own, or the row of its name. 11_remote_access.md R254, R257 order 2. -/
def accessKey (s : State) (hub tenant : Nat) (a : AccHdr) : State × Except Status Nat :=
  if a.byName then
    match search s hub clsRegion (nameKey tenant a.name) (confirmName s tenant a.name) with
    | (s, .hit v) => (s, .ok v)
    | (s, .rebuilding) => (s, .error .busy)
    | (s, .miss) => (s, .error .notFound)
  else (s, .ok a.key)

/-! ## Transfer regions (12_ledger.md R287) -/

/-- The sealed image of a delta page, with keyed = 0. 12_ledger.md R287 step 2. -/
def deltaImage (d : Desc) (b : DeltaBlock) (body : List Byte) : List Byte :=
  withCrc { ver := 1, kf := d.keyFormat, vf := d.valFormat, tc := d.tCode, dc := d.dCode, cls := d.geom.cls, sealed := true,
            keyed := false, damaged := false, count := d.t, layer := b.layer, kv := b.kv, sketch := d.geom.sketchOff,
            tenant := d.tenant, firstPos := deltaFirst d b.page, gen := 1, key := 0, crc := 0, refs := 1 } body

/-- The page images of a pair in page order: its delta prefix expanded, then its sealed pages; the first that cannot be
read gives its status. -/
def pairImages (s : State) (i : Nat) (d : Desc) (pair : Nat) : State × Except Status (List (List Byte)) :=
  let l := pair / max 1 d.kvHeads
  let h := pair % max 1 d.kvHeads
  let step := fun (acc : State × Except Status (List (List Byte))) (go : State → State × Except Status (List Byte)) =>
    match acc.2 with
    | .error _ => acc
    | .ok ps =>
      match go acc.1 with
      | (s, .ok p) => (s, .ok (ps ++ [p]))
      | (s, .error st) => (s, .error st)
  let fromDelta := (List.range d.deltaPages).foldl (fun acc p => step acc fun s =>
    match blockOf s d l h p with
    | none => (s, .error .damaged)
    | some b =>
      match expandDelta s d b with
      | (s, .ok body) => (s, .ok (deltaImage d b body))
      | (s, .error st) => (s, .error st)) (s, .ok [])
  (pairPages s i d pair).foldl (fun acc x => step acc fun s =>
    match readPage s x.2 d.geom d.tenant false readHost with
    | (s, .ok p) => (s, .ok p)
    | (s, .fail st) => (s, .error st)) fromDelta

/-- The bytes of a transfer region: every page in page order, then the descriptor core. -/
def xferBytes (s : State) (r : Region) : State × Except Status (List Byte) :=
  match peekSeq s r.tenant r.target with
  | none => (s, .error .notFound)
  | some (i, d) =>
    let got := (List.range d.pairs).foldl (fun (acc : State × Except Status (List Byte)) pair =>
      match acc.2 with
      | .error _ => acc
      | .ok b =>
        match pairImages acc.1 i d pair with
        | (s, .ok ps) => (s, .ok (b ++ ps.flatten))
        | (s, .error st) => (s, .error st)) (s, .ok [])
    match got with
    | (s, .ok b) => (s, .ok (b ++ takeBytes d.core 0 512))
    | e => e

/-! ## Where a region's bytes lie -/

/-- Node address at an offset of a region that is not a SEQUENCE; page-space units follow the extent map of their slice.
11_remote_access.md R248, R265. -/
def spanAddr (s : State) (r : Region) (off : Nat) : Nat :=
  let a := r.target + off
  if r.kind = rkBuffer then homeAddr s (mkLpn (a / 2 ^ 42) (a % 2 ^ 42 / 2 ^ 30) (a % 2 ^ 30 / 4096)) + a % 4096 else a

/-- Die whose memory a region that is not a SEQUENCE uses. -/
def regionDie (r : Region) : Nat := r.target / 2 ^ 42

/-- The page of a SEQUENCE region at ordinal j: layer, KV head, page index. 11_remote_access.md R258. -/
def regionPage (r : Region) (j : Nat) : Nat × Nat × Nat :=
  (r.layerFirst + j / max 1 (r.kvCount * r.pageCount), r.kvFirst + j / max 1 r.pageCount % max 1 r.kvCount,
    r.pageFirst + j % max 1 r.pageCount)

/-- The pieces of an access to a SEQUENCE region: page ordinal, offset in the page, length. 11_remote_access.md R258. -/
def pageParts : Nat → Nat → Nat → Nat → List (Nat × Nat × Nat)
  | 0, _, _, _ => []
  | n + 1, size, off, len =>
    if len = 0 ∨ size = 0 then []
    else
      let k := min len (size - off % size)
      (off / size, off % size, k) :: pageParts n size (off + k) (len - k)

/-- Every page of a SEQUENCE access resolved through its page list; none when one is not a sealed page of the sequence that
was registered. 11_remote_access.md R250, R258. -/
def resolveParts (s : State) (r : Region) (off len : Nat) : Option (Nat × Desc × List (Nat × PageRef × Nat × Nat)) :=
  match (peekSeq s r.tenant r.target).filter fun x => decide (x.2.gen = r.seqGen) with
  | none => none
  | some (i, d) =>
    let parts := pageParts (len / max 1 d.geom.size + 2) d.geom.size off len
    let got := parts.map fun (j, o, n) =>
      let (l, h, p) := regionPage r j
      (pageAt s i d (d.pair l h) p).map fun ref => (d.pair l h, ref, o, n)
    if got.all Option.isSome then some (i, d, got.filterMap id) else none

/-- Status of a page whose header an access has read: stale, damaged, or of a form it cannot use. 02_pages.md R45 to R47. -/
def hdrStatus (g : PGeom) (ref : PageRef) (h : Hdr) : Option Status :=
  firstFail [(decide (h.kf = fmtNone) || decide (h.vf = fmtNone) || decide (h.gen ≠ ref.gen), .notFound), (h.damaged, .damaged),
    (decide (h.ver ≠ 1) || ! h.geom.ok || decide (h.geom ≠ g), .version)]

/-- What a region access meets at a page: its extent, then its header through the word code. 02_pages.md R45 to R47,
08_memory.md R181, 12_ledger.md R283, R284. -/
def refStatus (s : State) (g : PGeom) (tenant : Nat) (ref : PageRef) : State × Option Status :=
  match extentStatus s tenant ref.lpn with
  | some st => (s, some st)
  | none =>
    match loadHdr s ref.lpn readHost with
    | (s, none) => (s, some .uncorrectable)
    | (s, some h) => (s, hdrStatus g ref h)

/-- What a region access meets first at the pages it touches. -/
def partsStatus (g : PGeom) (tenant : Nat) : List (Nat × PageRef × Nat × Nat) → State → State × Option Status
  | [], s => (s, none)
  | (_, ref, _, _) :: ps, s =>
    match refStatus s g tenant ref with
    | (s, none) => partsStatus g tenant ps s
    | e => e

/-- Status of a region's own memory: a BUFFER in a CLOSING extent. 12_ledger.md R283. -/
def bufferStatus (s : State) (r : Region) : Option Status :=
  if r.kind ≠ rkBuffer then none
  else
    let x := extentSt s (regionDie r) (r.target % 2 ^ 42 / 2 ^ 30)
    if x.state = .closing then some .closing
    else if x.state = .free ∨ x.tenant ≠ r.tenant then some .revoked
    else none

/-- Whether a stack address lies in an extent a tenant holds, or in one that holds a retired slice's. 06_append.md R137,
16_lifecycle.md R390. -/
def inTenantExtent (s : State) (die off n : Nat) : Bool :=
  decide (die < 32) && decide (off < stackBytes s) &&
    (List.range ((off + n - 1) / 2 ^ 30 - off / 2 ^ 30 + 1)).any fun j =>
      decide ((extentSt s die (off / 2 ^ 30 + j)).state ≠ .free) || hostsExtent s die (off / 2 ^ 30 + j)

/-- Order 7 of R257 for an entry and a range. The pages of a SEQUENCE access are looked at once nothing else of the order
fails. -/
def rangeCheck (s : State) (r : Region) (write : Bool) (a : AccHdr) : State × Option Status :=
  if (if write then r.write else r.read) = false then (s, some .bounds)
  else if r.length < a.offset + a.length then (s, some .bounds)
  else if a.snapshot ∧ (a.offset % 16 ≠ 0 ∨ a.length % 16 ≠ 0 ∨ 262144 < a.length) then (s, some .bounds)
  else if r.xfer then (s, if write ∨ a.snapshot then some .bounds else none)
  else if r.kind = rkSequence then
    match resolveParts s r a.offset a.length with
    | none => (s, some .bounds)
    | some (_, d, parts) =>
      if a.snapshot ∧ 1 < parts.length then (s, some .bounds)
      else if write ∧ parts.any fun (_, _, o, n) => decide (o < 64) || decide (d.geom.sketchOff < o + n) then (s, some .bounds)
      else partsStatus d.geom r.tenant parts s
  else if write ∧ r.kind = rkWindow ∧
      (sliceSt s (regionDie r)).st ≠ 3 ∧ (sliceSt s (regionDie r)).st ≠ 4 ∧
      inTenantExtent s (regionDie r) (r.target % 2 ^ 42 + a.offset) a.length then (s, some .bounds)
  else (s, bufferStatus s r)

/-- Limits of the length and key 0 of R251 and R255, at order 7. -/
def lengthCheck (write : Bool) (a : AccHdr) (data : Nat) : Bool :=
  decide (1 ≤ a.length) && decide (a.length ≤ if write then 8388576 else 8388592) &&
    decide (data = if write then a.length else 0)

/-! ## Moving data -/

/-- Reads a checked range of a region. 07_dill.md R166, R168. -/
def readRange (s : State) (r : Region) (off len : Nat) : State × Except Status (List Byte) :=
  if r.xfer then
    match xferBytes s r with
    | (s, .ok b) => (s, .ok (takeBytes b off len))
    | (s, .error st) => (s, .error st)
  else if r.kind = rkSequence then
    match resolveParts s r off len with
    | none => (s, .error .bounds)
    | some (_, _, parts) =>
      parts.foldl (fun (acc : State × Except Status (List Byte)) (_, ref, o, n) =>
        match acc.2 with
        | .error _ => acc
        | .ok b =>
          match load acc.1 (liveAddr acc.1 ref.lpn + o) n readHost with
          | (s, some x) => (s, .ok (b ++ x))
          | (s, none) => (s, .error .uncorrectable)) (s, .ok [])
  else
    match (if r.kind = rkWindow then view s (spanAddr s r off) len readHost else load s (spanAddr s r off) len readHost) with
    | (s, some x) => (s, .ok x)
    | (s, none) => (s, .error .uncorrectable)

/-- Rewrites one page of a SEQUENCE region with new bytes at an offset; a status other than OK leaves the page unchanged.
11_remote_access.md R259. -/
def writePage (s : State) (i : Nat) (d : Desc) (pair : Nat) (ref : PageRef) (o : Nat) (data : List Byte) :
    State × Status :=
  let a := liveAddr s ref.lpn
  let lo := roundUp o 16
  let hi := (o + data.length) / 16 * 16
  let keep := if lo < hi then [(0, lo), (hi, d.geom.size - hi)] else [(0, d.geom.size)]
  let pre := keep.foldl (fun (acc : State × Bool) (b, n) =>
    let got := load acc.1 (a + b) n readUnit
    if acc.2 then (got.1, got.2.isSome) else acc) (s, true)
  if ! pre.2 then (pre.1, .uncorrectable)
  else
    let s := lowerFences pre.1 a d.geom.size
    let old := peek s a d.geom.size
    let new := old.take o ++ data ++ old.drop (o + data.length)
    if ! codesOk d.geom new then (s, .bounds)
    else
      let body := (new.drop 64).take (d.geom.sketchOff - 64) ++ pageSketch d.geom new ref.tokens
      match rewritePage s i d pair ref (new.take 64 ++ body) ref.tokens with
      | (s, .ok _) => (s, .ok)
      | (s, .error st) => (s, st)

/-- Applies the page rewrites of a SEQUENCE write in ascending ordinal; answers the bytes of pages rewritten, the pages,
and the status it ends with. 11_remote_access.md R259. -/
def writeParts (i : Nat) (d : Desc) : List (Nat × PageRef × Nat × Nat) → State → List Byte → State × Nat × Nat × Status
  | [], s, _ => (s, 0, 0, .ok)
  | (pair, ref, o, n) :: ps, s, data =>
    match writePage s i d pair ref o (data.take n) with
    | (s, .ok) =>
      match writeParts i d ps s (data.drop n) with
      | (s, c, k, st) => (s, c + n, k + 1, st)
    | (s, st) => (s, 0, 0, st)

/-- Writes a checked range of a region: bytes written and the status. 11_remote_access.md R259, R260. -/
def writeRange (s : State) (hub : Nat) (r : Region) (off : Nat) (data : List Byte) : State × Nat × Status :=
  if r.kind = rkSequence then
    match resolveParts s r off data.length with
    | none => (s, 0, .bounds)
    | some (i, d, parts) =>
      let (s, c, k, st) := writeParts i d parts s data
      (bumpBy s .region_PAGE_REWRITES hub k, c, st)
  else
    let a := spanAddr s r off
    let s := lowerFences s a data.length
    let (s, c, ok) := if r.kind = rkWindow then putView (data.length / 16 + 2) s a data readHost else store s a data readHost
    (s, c, if ok then .ok else .uncorrectable)

/-! ## Registration and revocation (R253, R263, R265) -/

/-- The index a plain registration takes: the lowest never registered, else the one FREE for longest; one below with no entry
has been so from the start. R250. -/
def freeIndex (s : State) : Option Nat :=
  if s.regn.fresh < 0x100000 then some (max 1 s.regn.fresh)
  else
    let never := (List.range 0x100000).find? fun i => decide (0 < i) && (regionOf s i).isNone
    never <|> ((sortBy (fun p => p.2.freedAt) (s.regn.regions.filter fun p => decide (p.2.state = 0))).head?).map (·.1)

/-- Generation an index takes at its next registration. 11_remote_access.md R249, R250. -/
def regionGenAt (s : State) (i : Nat) : Nat :=
  match regionOf s i with
  | some r => nextRegionGen r.gen
  | none => 1

/-- Enters an ACTIVE entry at an index. 11_remote_access.md R250, R253. -/
def enterRegion (s : State) (i : Nat) (r : Region) : State :=
  modRegn s fun x => { x with regions := aset x.regions i r, fresh := max x.fresh (i + 1) }

/-- Enters a region's name row in the hubs' indexes. The row of another version of equal priority is replaced, and that version
then has none. 11_remote_access.md R250, R253, R254, 09_chive.md R207. -/
def insertName (s : State) (tenant name prio i gen : Nat) : State × Inserted :=
  match insertAll s (liveHubs s) ⟨nameKey tenant name, clsRegion, prio, regionKey i gen⟩ with
  | (s, .done) =>
    let same := fun (p : Nat × Region) => decide (p.1 ≠ i) && decide (p.2.state ≠ 0) && p.2.named &&
      decide (p.2.tenant = tenant) && decide (p.2.name = name) && decide (p.2.prio = prio)
    let lose := fun (p : Nat × Region) => if same p then (p.1, { p.2 with named := false, name := 0 }) else p
    (modRegn s fun x => { x with regions := x.regions.map lose }, .done)
  | r => r

/-- The row of a class, key and priority that a hub holds. -/
def rowAt (s : State) (h cls key prio : Nat) : Option ChiveRow :=
  ((blockRows s.chive.shadow h (homeBlock s h cls key)).map (·.2) ++ (otRows s h cls).map (·.2)).find? fun r =>
    rowIs cls key r && decide (r.prio = prio)

/-- Deletes a region's name row from all hubs; a row that another version of equal priority replaced is that version's.
R254, R263 step 1. -/
def dropName (s : State) (i : Nat) : State :=
  match regionOf s i with
  | none => s
  | some r =>
    if r.named then
      (liveHubs s).foldl (fun s h =>
        if (rowAt s h clsRegion (nameKey r.tenant r.name) r.prio).map (·.value) = some (regionKey i r.gen)
        then delete s h clsRegion (nameKey r.tenant r.name) r.prio else s) s
    else s

/-- Releases the memory of a region: BUFFER and SCRATCH are scrubbed and returned. R263 step 5. -/
def releaseRegion (s : State) (r : Region) : State :=
  if r.kind = rkBuffer then freeSlot s (mkLpn (regionDie r) (r.target % 2 ^ 42 / 2 ^ 30) (r.target % 2 ^ 30 / 4096))
  else if r.kind = rkScratch then scrub (freeSram s r.target) r.target r.length
  else s

/-- Sends the answers of the messages that waited for an entry. -/
def answerControl (s : State) (id : Nat) (st : Status) (key count : Nat) : State :=
  match msgOf s id with
  | none => s
  | some m =>
    let s := if st = .keyRevoked then s else countRefusal s m.hub st
    answer s id .write st 0 (accResp m.be st key count)

/-- The hub a revocation is counted at: its requester's, or hub 0 for the node's own. 11_remote_access.md R267. -/
def waiterHub (s : State) (w : Option Nat) : Nat := ((w.bind (msgOf s)).map fun m => m.hub).getD 0

/-- The wait of step 3 is measured on the clock it began on, where that still runs. 11_remote_access.md R267. -/
def measureRevoke (s : State) (r : Region) : State :=
  if hubAlive s r.revHub then rmax s .region_revoke_wait_max_ns r.revHub (now s r.revHub - r.revokedAt) else s

/-- A revocation is over: the memory is released and the entry FREE. R263 steps 5 to 7. -/
def endRevoke (s : State) (i : Nat) (r : Region) : State :=
  let s := releaseRegion (bump s .region_REVOKES (waiterHub s r.waiters.head?)) r
  let c := s.regn.clock + 1
  let s := modRegn s fun x => { x with clock := c }
  let s := modRegion s i fun r => { r with state := 0, named := false, name := 0, freedAt := c, waiters := [] }
  r.waiters.foldl (fun s m => answerControl s m .ok (regionKey i r.gen) 0) s

/-- A REREGISTER takes its entry back: ACTIVE with the next generation. A name row that the index refuses by then gives the
record's answer its status, and the entry has no name (DESIGN CHOICE, assumption 180). 11_remote_access.md R253, R263. -/
def endReregister (s : State) (i : Nat) (r : Region) (x : RegRec) (m : Nat) : State :=
  let gen := nextRegionGen r.gen
  let (s, got) := if x.named then insertName s r.tenant x.name x.prio i gen else (s, .done)
  let named := x.named && decide (got = .done)
  let s := modRegion s i fun _ =>
    { r with state := 1, gen := gen, read := x.read, write := x.write, named := named, prio := x.prio,
             name := if named then x.name else 0, waiters := [], reReg := none }
  let s := match got with
    | .done => answerControl (bump s .region_REGISTERS (waiterHub s r.waiters.head?)) m .ok (regionKey i gen) r.length
    | .bounds => answerControl s m .bounds (regionKey i gen) 0
    | _ => answerControl s m .busy (regionKey i gen) 0
  (r.waiters.filter fun w => decide (w ≠ m)).foldl (fun s w => answerControl s w .ok (regionKey i r.gen) 0) s

/-- Ends the revocation of an entry whose inflight is 0: R263 steps 5 to 7. -/
def finishRevoke (s : State) (i : Nat) : State :=
  match regionOf s i with
  | none => s
  | some r =>
    if r.state ≠ 2 ∨ r.inflight ≠ 0 then s
    else
      let s := measureRevoke s r
      match r.reReg with
      | none => endRevoke s i r
      | some (rec_, m, be) => endReregister s i r (RegRec.parse be rec_) m

/-- Starts a revocation: the name row goes, the entry becomes REVOKING; with nothing in flight it ends at once. The node's own
revocation of an entry that a REREGISTER holds REVOKING takes its place, and the REREGISTER is answered as order 9 of R252
answers one that comes later (DESIGN CHOICE, assumption 181). R263, R265. -/
def startRevoke (s : State) (i : Nat) (waiter : Option Nat) (reReg : Option (List Byte × Nat × Bool)) : State :=
  match regionOf s i with
  | none => s
  | some r =>
    match r.state, waiter, r.reReg with
    | 1, _, _ =>
      let s := dropName s i
      let h := waiterHub s waiter
      let s := modRegion s i fun r =>
        { r with state := 2, waiters := r.waiters ++ waiter.toList, reReg := reReg, revokedAt := now s h, revHub := h }
      let s := match waiter with
        | some m => setPhase s m (.waitRevoke i)
        | none => s
      finishRevoke s i
    | 2, none, some (_, m, _) =>
      let s := modRegion s i fun r => { r with reReg := none, waiters := r.waiters.filter fun w => decide (w ≠ m) }
      finishRevoke (answerControl s m .keyRevoked (regionKey i r.gen) 0) i
    | _, _, _ => s

/-- SEQUENCE regions that cover a page a truncation to p releases. R265. -/
def regionsFrom (s : State) (i : Nat) (d : Desc) (p : Nat) : List Nat :=
  (s.regn.regions.filter fun x => decide (x.2.state ≠ 0) && decide (x.2.kind = rkSequence) &&
    decide (x.2.tenant = d.tenant) && decide (x.2.target = d.handle) &&
    (List.range d.pairs).any fun pair =>
      let l := pair / max 1 d.kvHeads
      let h := pair % max 1 d.kvHeads
      decide (x.2.layerFirst ≤ l) && decide (l < x.2.layerFirst + x.2.layerCount) && decide (x.2.kvFirst ≤ h) &&
        decide (h < x.2.kvFirst + x.2.kvCount) && (pairPages s i d pair).any fun g =>
          decide (x.2.pageFirst ≤ g.1) && decide (g.1 < x.2.pageFirst + x.2.pageCount) && decide (p ≤ g.2.firstPos)).map (·.1)

/-- Units of a region in use count; ACTIVE and REVOKING entries. R267. -/
def regionsActive (s : State) : Nat := (s.regn.regions.filter fun p => decide (p.2.state ≠ 0)).length

end Sys2Proof.Machine
end

