-- ==== Sys2Proof/Machine/Pattern.lean ====
section
/-!
DEFINITION. Which positions of a sequence an ATTEND sees and which pages it opens. 04_attend.md R73 to R75.
-/
namespace Sys2Proof.Machine

/-- The visibility of a request: query position, window (none for no window), spans of anchors and block list.
04_attend.md R73, R74. -/
structure Pat where
  pq     : Int
  window : Option Nat
  spans  : List (Nat × Nat)
  deriving DecidableEq, Repr, Inhabited

/-- The pattern of a request against a descriptor snapshot. R73, R74. -/
def attPattern (be : Bool) (a : Att) (payload : List Byte) (d : Desc) : Pat :=
  { pq := if a.expQpos then (a.qpos : Int) else (d.length : Int) - 1,
    window :=
      if a.window = 0xFFFFFF then none
      else if a.window = 0 then (if d.window = 0 then none else some d.window)
      else some a.window,
    spans := (if a.noAnch then [] else d.anchors.map fun x => (x.start, x.lenM1 + 1)) ++ a.blockList be payload }

/-- Whether a position is visible. R74. -/
def Pat.sees (x : Pat) (p : Nat) : Bool :=
  decide ((p : Int) ≤ x.pq) &&
    (match x.window with
      | none => true
      | some w => decide (x.pq - w + 1 ≤ p) || x.spans.any fun (b, n) => decide (b ≤ p) && decide (p < b + n))

/-- Visible rows of a page that starts at a position and holds some tokens. R75. -/
def Pat.rows (x : Pat) (first count : Nat) : List Nat := (List.range count).filter fun t => x.sees (first + t)

/-- KV heads of a request, with their places in the range. -/
def Att.kvRange (a : Att) : List (Nat × Nat) := (List.range a.kvCount).map fun j => (j, a.kvFirst + j)

/-- Sealed pages of a slice that a request opens: KV head, page index, reference. R75, R76. -/
def openedPages (s : State) (i : Nat) (d : Desc) (a : Att) (x : Pat) : List (Nat × Nat × PageRef) :=
  a.kvRange.flatMap fun (_, kv) =>
    (pairPages s i d (d.pair a.layer kv)).filterMap fun (p, r) =>
      if (x.rows r.firstPos r.tokens).isEmpty then none else some (kv, p, r)

/-- Sealed pages of the sequence that straddle a position. 03_sequences.md R61, R62. -/
def straddlers (s : State) (i : Nat) (d : Desc) (p : Nat) : List PageRef :=
  (List.range d.pairs).flatMap fun pair => ((pairPages s i d pair).map (·.2)).filter fun r =>
    decide (r.firstPos < p) && decide (p < r.firstPos + r.tokens)

/-- What a request meets at the extents of the pages it touches: REVOKED before CLOSING, whose order the spec leaves open
(DESIGN CHOICE, assumption 169). 12_ledger.md R295 order 9e. -/
def refsExtent (s : State) (d : Desc) (refs : List PageRef) : Option Status :=
  let got := refs.filterMap fun r => extentStatus s d.tenant r.lpn
  if got.contains .revoked then some .revoked else got.head?

end Sys2Proof.Machine
end

