-- ==== Sys2Proof/Machine/Lines.lean ====
section
/-!
DEFINITION. Ledger lines as every check sees them: names, homes, contents, copies, and the checks of order 9.
12_ledger.md R271 to R275, R285, R286, R290, R291, R295 to R298.
-/
namespace Sys2Proof.Machine

/-! ## Names and homes (R271, R272) -/

/-- Kinds of lines. 12_ledger.md R271. -/
def lkMap : Nat := 0
def lkExtent : Nat := 1
def lkOwner : Nat := 2
def lkRegion : Nat := 3

/-- Fields of a line ID. 12_ledger.md R271. -/
def lineKind (l : Nat) : Nat := bits l 63 62
def lineTenant (l : Nat) : Nat := bits l 61 48
def lineName (l : Nat) : Nat := bits l 47 0

/-- The head line. 12_ledger.md R290. -/
def headLine : Nat := 0

/-- The line of a part of an epoch's map. -/
def mapLine (epoch part : Nat) : Nat := epoch * 2 ^ 16 + part

/-- The EXTENT line of an extent of a node. -/
def extentLine (ep k e : Nat) : Nat := 2 ^ 62 + ep * 2 ^ 11 + k * 2 ^ 6 + e

/-- The OWNER line of a handle. -/
def ownerLine (handle : Nat) : Nat := 2 * 2 ^ 62 + handle % 2 ^ 62

/-- Bucket of a line. 12_ledger.md R272. -/
def lineBucket (l : Nat) : Nat := crc32c (leBytes 8 l) % 4096

/-- Home of a line under an epoch: endpoint and hub. 12_ledger.md R272. -/
def lineHome (s : State) (epoch l : Nat) : Option (Nat × Nat) :=
  if lineKind l = lkMap then some (Config.mapAnchor (body s clsMap))
  else (aget s.ledg.maps epoch).bind fun m => aget m.buckets (lineBucket l)

/-- Whether hub x answers as hub h: itself, or as the hub that serves its quadrant. 12_ledger.md R272. -/
def answersAs (s : State) (x h : Nat) : Bool := decide (quadHub s h = some x)

/-- Local time by which a home hub's entries are kept. -/
def homeNow (s : State) (h : Nat) : Nat := now s ((quadHub s h).getD h)

/-- The hub over which the node reads ledger lines: a live hub of the node endpoint's port group. -/
def ledgerHub (s : State) : Nat :=
  ((groupHubs s (nodeEndpoint s)).find? fun h => hubAlive s h).getD 0

/-! ## Contents (R281, R282, R285, R290) -/

/-- A field of a line's content; contents are little-endian (00_scope.md R7). -/
def cfld (c : List Byte) (o n : Nat) : Nat := fld false c o n

/-- An OWNER line's content. 12_ledger.md R285. -/
structure Owner where
  ver      : Nat
  transfer : Bool
  holder   : Nat
  gen      : Nat
  writer   : Nat
  target   : Nat
  lease    : Nat
  key      : Nat
  deriving DecidableEq, Repr, Inhabited

/-- Parses an OWNER line. -/
def Owner.parse (c : List Byte) : Owner :=
  { ver := cfld c 0 1 % 16, transfer := bit1 (cfld c 1 1) 0, holder := cfld c 4 3, gen := cfld c 8 4, writer := cfld c 12 3,
    target := cfld c 16 3, lease := cfld c 20 4, key := cfld c 24 4 }

/-- Content of an OWNER line. -/
def Owner.bytes (o : Owner) : List Byte :=
  leBytes 1 1 ++ leBytes 1 (b2n o.transfer) ++ zeros 2 ++ leBytes 4 o.holder ++ leBytes 4 o.gen ++ leBytes 4 o.writer ++
    leBytes 4 o.target ++ leBytes 4 o.lease ++ leBytes 4 o.key ++ zeros 36

/-- An EXTENT line's content. 12_ledger.md R282. -/
structure ExtLine where
  ver    : Nat
  state  : Nat
  tenant : Nat
  gen    : Nat
  drain  : Nat
  deriving DecidableEq, Repr, Inhabited

/-- Parses an EXTENT line. -/
def ExtLine.parse (c : List Byte) : ExtLine :=
  { ver := cfld c 0 1 % 16, state := cfld c 1 1 % 4, tenant := cfld c 2 2, gen := cfld c 4 4, drain := cfld c 8 4 }

/-- Content of an EXTENT line. -/
def ExtLine.bytes (x : ExtLine) : List Byte :=
  leBytes 1 1 ++ leBytes 1 x.state ++ leBytes 2 x.tenant ++ leBytes 4 x.gen ++ leBytes 4 x.drain ++ zeros 52

/-- Newest and previous epoch that a head names. 12_ledger.md R290. -/
def headNewest (c : List Byte) : Nat := cfld c 2 2
def headPrevious (c : List Byte) : Nat := cfld c 4 2

/-- Epoch after one: 0xFFFF is followed by 1. 12_ledger.md R270. -/
def nextEpoch (e : Nat) : Nat := if e % 2 ^ 16 = 0xFFFF then 1 else e % 2 ^ 16 + 1

/-- Whether content is all zeros: a deleted line. 12_ledger.md R276. -/
def blank (c : List Byte) : Bool := c.all fun b => decide (b = 0#8)

/-! ## The directory and the copies (R273, R274) -/

/-- A directory entry. -/
def dirOf (s : State) (h l : Nat) : Option DirEntry := aget s.ledg.dir (h, l)

/-- Changes a directory entry. -/
def modDir (s : State) (h l : Nat) (f : DirEntry → DirEntry) : State :=
  modLedg s fun x => { x with dir := amod x.dir (h, l) f }

/-- Entries of a hub's directory. -/
def dirCount (s : State) (h : Nat) : Nat := (s.ledg.dir.filter fun p => decide (p.1.1 = h)).length

/-- Confirmation of a ledger row against its entry. 09_chive.md R201. -/
def confirmLine (s : State) (h l v : Nat) : Bool :=
  match dirOf s h l with
  | some e => decide (e.index = v)
  | none => false

/-- A line's entry as its home finds it, through the confirmed ledger-home row of its index; BUSY while the row's block is
rebuilding. 12_ledger.md R273, R277 step 1, 09_chive.md R205, R213. -/
def findLine (s : State) (h l : Nat) : State × Except Status (Option DirEntry) :=
  match search s ((quadHub s h).getD h) clsLedger l (confirmLine s h l) with
  | (s, .hit _) => (s, .ok (dirOf s h l))
  | (s, .miss) => (s, .ok none)
  | (s, .rebuilding) => (s, .error .busy)

/-- Creates a directory entry with its Chive row; false when there is no free entry or no room for the row.
12_ledger.md R273, 09_chive.md R217. -/
def newEntry (s : State) (h l : Nat) (st : DirState) (epoch version : Nat) (content : List Byte) : State × Bool :=
  if 1048576 ≤ dirCount s h then (s, false)
  else
    let used := sortNat ((s.ledg.dir.filter fun p => decide (p.1.1 = h)).map fun p => p.2.index)
    let i := used.foldl (fun n u => if u = n then n + 1 else n) 0
    let x := (quadHub s h).getD h
    let e : DirEntry :=
      { hub := h, index := i, lineId := l, state := st, homeEpoch := epoch, version := version, sharers := [],
        coarse := false, cells := [], grantTime := 0, leaseEnd := 0, content := content, pub := none }
    match insert s x ⟨l, clsLedger, 0, i⟩ with
    | (s, .done) => (modLedg s fun y => { y with dir := aset y.dir (h, l) e }, true)
    | (s, _) => (s, false)

/-- Removes a directory entry and its row. -/
def dropEntry (s : State) (h l : Nat) : State :=
  let s := delete s ((quadHub s h).getD h) clsLedger l 0
  modLedg s fun y => { y with dir := adel y.dir (h, l) }

/-- Whether a copy may be used. 12_ledger.md R274. -/
def copyValid (s : State) (c : LineCopy) : Bool :=
  match c.lease with
  | none => true
  | some (h, t) => decide (now s h < t)

/-- Content of a line with what its version says: none for a line never published or deleted. -/
def lineContent (version : Nat) (c : List Byte) : Option (List Byte) := if version = 0 ∨ blank c then none else some c

/-- Where a line of a bucket that the newest map moved here lay before: the pull of R293. -/
def oldHome (s : State) (l : Nat) : Option (Nat × Nat) :=
  match lineHome s s.ledg.previous l, lineHome s s.ledg.newest l with
  | some a, some b => if lineKind l ≠ lkMap ∧ s.ledg.previous ≠ 0 ∧ a ≠ b then some a else none
  | _, _ => none

/-- Whether a read serves the check of one request alone. -/
def ReadWhy.checks (w : ReadWhy) : Bool :=
  match w with
  | .check _ => true
  | _ => false

/-- Sends a LEDGER_READ of the node's own, unless one of the line is outstanding; false when the home cannot be reached. A read
the node lives by is noted then, and sent when it can be (assumption 182). 12_ledger.md R274, R275. -/
def sendRead (s : State) (ep l : Nat) (why : ReadWhy) (pull : Bool) : State × Bool :=
  let h := ledgerHub s
  let note := fun (s : State) => modLedg s fun x => { x with reads := x.reads ++ [⟨l, why, h, now s h⟩] }
  if s.ledg.reads.any fun r => decide (r.line = l) then (note s, true)
  else
    match ask s h ep .ledgerRead l (ledgerReadReq true (! pull) pull l) with
    | (s, true) => (note s, true)
    | (s, false) => (if why.checks then s else note s, false)

/-- A new home creates an ARRIVING entry and pulls the line; from a hub of its own node the line comes by localPull.
12_ledger.md R293. -/
def startPull (s : State) (h l : Nat) : State × Bool :=
  match dirOf s h l, oldHome s l with
  | none, some (ep, _) =>
    match newEntry s h l .arriving s.ledg.newest 0 (zeros 64) with
    | (s, false) => (s, false)
    | (s, true) => if isOwn s ep then (s, true) else ((sendRead s ep l (.pull h) true).1, true)
  | _, _ => (s, false)

/-- A line as a check of this node sees it. -/
inductive View where
  | known (content : Option (List Byte))
  | wait
  | busy
  deriving DecidableEq, Repr

/-- Looks at a line; where the node has no valid copy it reads the line again, for a reason. 12_ledger.md R274, R279. -/
def seekLine (s : State) (l : Nat) (why : ReadWhy) : State × View :=
  match lineHome s s.ledg.newest l with
  | none => (s, .busy)
  | some (ep, h) =>
    if isOwn s ep then
      match findLine s h l with
      | (s, .error _) => (s, .busy)
      | (s, .ok (some e)) => if e.state = .valid then (s, .known (lineContent e.version e.content)) else (s, .wait)
      | (s, .ok none) =>
        match oldHome s l with
        | none => (s, .known none)
        | some _ =>
          match startPull s h l with
          | (s, true) => (s, .wait)
          | (s, false) => (s, .busy)
    else
      match aget s.ledg.copies l with
      | some c =>
        if copyValid s c then (s, .known (lineContent c.version c.content))
        else
          match sendRead s ep l why false with
          | (s, true) => (s, .wait)
          | (s, false) => (s, .busy)
      | none =>
        match sendRead s ep l why false with
        | (s, true) => (s, .wait)
        | (s, false) => (s, .busy)

/-- Reads the head of the composition map again. 12_ledger.md R291, R292. -/
def readHead (s : State) : State :=
  match lineHome s s.ledg.newest headLine with
  | none => s
  | some (ep, _) => if isOwn s ep then s else (sendRead s ep headLine .map false).1

/-! ## Reachability (R298) -/

/-- The die a slice's requests reach: its substitute's once it is retired. 16_lifecycle.md R390. -/
def servingSlice (s : State) (k : Nat) : Nat :=
  let x := sliceSt s k
  if x.st = 3 ∨ x.st = 4 then x.subst.getD k else k

/-- Whether a slice's pages can be had: it, or the substitute that serves it, is reachable and not quarantined, and so is
the substitute that holds extents of it. 12_ledger.md R298, 16_lifecycle.md R390, R391. -/
def sliceServes (s : State) (k : Nat) : Bool :=
  let x := sliceSt s k
  let ok := fun (t : Nat) => sliceReachable s t && decide ((sliceSt s t).unitSt = .inService)
  ok (servingSlice s k) && (x.moved.isEmpty || ok (x.subst.getD k))

/-- Whether a die can be reached for a region access. -/
def dieServes (s : State) (d : Nat) : Bool := if d < 32 then sliceServes s d else hubAlive s (d - 32)

/-- Whether one extent of a slice can be had: a switched one at the substitute, the others at the slice that serves. 12_ledger.md
R298, 16_lifecycle.md R391. -/
def extentServes (s : State) (k e : Nat) : Bool :=
  let ok := fun (t : Nat) => sliceReachable s t && decide ((sliceSt s t).unitSt = .inService)
  if (aget (sliceSt s k).moved e).isSome then (sliceSt s k).subst.any ok else ok (servingSlice s k)

/-- Whether a place can be had: an extent of a slice, or a die as a whole. -/
def placeServes (s : State) (p : Nat × Option Nat) : Bool :=
  match p.2 with
  | some e => extentServes s p.1 e
  | none => dieServes s p.1

/-- Whether the stack that holds a place is being retrained. 16_lifecycle.md R389. -/
def placeRetrains (s : State) (p : Nat × Option Nat) : Bool :=
  match p.2 with
  | some e =>
    let k := if (aget (sliceSt s p.1).moved e).isSome then (sliceSt s p.1).subst.getD p.1 else servingSlice s p.1
    decide ((sliceSt s k).st = 1)
  | none => decide (p.1 < 32) && decide ((sliceSt s (servingSlice s p.1)).st = 1)

/-- Slices a sequence request needs: its descriptor's and its stripe's. 12_ledger.md R298. -/
def seqNeeds (i : Nat) (d : Desc) : List Nat := (i % 32) :: d.stripe

/-- Extents a sequence request needs: the device extents of those slices, and those of the sequence's pages. 12_ledger.md R298,
16_lifecycle.md R391. -/
def seqPlaces (s : State) (i : Nat) (d : Desc) : List (Nat × Option Nat) :=
  let n := extentCount s
  (seqNeeds i d).flatMap (fun k => [(k, some (n - 2)), (k, some (n - 1))]) ++
    (List.range d.pairs).flatMap fun pair => (pairPages s i d pair).map fun g => (lpnSlice g.2.lpn, some (lpnExtent g.2.lpn))

/-! ## Order 9 (R295, R296) -/

/-- Outcome of the checks of order 9. -/
inductive Nine where
  | pass
  | fail (st : Status) (payload : List Byte)
  | wait (p : Phase)
  deriving DecidableEq, Repr

/-- A refusal that carries a hint. 12_ledger.md R296. -/
def nineHint (s : State) (m : Msg) (st : Status) (kind ep hub gen l : Nat) : State × Nine :=
  let s := match st with
    | .redirect => bump s .ledger_REDIRECTS m.hub
    | .reroute => bump s .ledger_REROUTES m.hub
    | .epochOld => bump s .ledger_EPOCH_OLD_SEEN m.hub
    | .staleUnit => bump s .ledger_STALE_UNIT_SEEN m.hub
    | _ => s
  (s, .fail st (hintBytes m.be st kind ep hub gen s.ledg.newest l))

/-- Whether a message came through a host port. -/
def viaPcie (m : Msg) : Bool :=
  match m.origin with
  | .pcie _ _ _ => true
  | _ => false

/-- The epoch a request is routed by: the newest where it names none. 10_fabric.md R235, 14_host.md R323. -/
def effEpoch (s : State) (m : Msg) : Nat := if m.v0 ∨ (viaPcie m ∧ m.epoch = 0) then s.ledg.newest else m.epoch

/-- Order 9a. 12_ledger.md R291. -/
def nineEpoch (s : State) (m : Msg) : State × Nine :=
  let e := effEpoch s m
  if m.opcode = .mgmt ∨ m.opcode = .recall ∨ m.opcode = .recallAck ∨ m.v0 ∨ (viaPcie m ∧ m.epoch = 0) then (s, .pass)
  else if e ≠ 0 ∧ (e = s.ledg.newest ∨ e = s.ledg.previous) then (s, .pass)
  else if e ≠ 0 ∧ (s.ledg.newest = 0 ∨ serialLt 16 s.ledg.newest e) then (readHead s, .wait .waitEpoch)
  else nineHint s m .epochOld 0 0 0 0 0

/-- The handle a sequence request names. -/
def seqTarget (m : Msg) : Option Nat :=
  match m.opcode with
  | .attend => some (Att.parse m.be m.payload).handle
  | .append | .bulkAppend | .seal => some (App.parse m.be m.payload).handle
  | _ => none

/-- The key a name reaches: that of its ACTIVE version of the highest priority. It is looked up here without a search.
11_remote_access.md R254. -/
def peekName (s : State) (tenant name : Nat) : Nat :=
  let mine := s.regn.regions.filter fun p => decide (p.2.state = 1) && p.2.named && decide (p.2.tenant = tenant) &&
    decide (p.2.name = name)
  (((sortBy (fun p => 255 - p.2.prio) mine).head?).map fun p => regionKey p.1 p.2.gen).getD 0

/-- The region and range a remote access names, where its key or name resolves. -/
def accTarget (s : State) (m : Msg) : Option (Region × Nat × Nat) :=
  let get := fun (key off len : Nat) =>
    match checkKey s key m.pd with
    | .ok (_, r) => some (r, off, len)
    | .error _ => none
  match m.opcode with
  | .read | .write =>
    let a := AccHdr.parse m.be m.payload
    get (if a.byName then peekName s m.tenant a.name else a.key) a.offset a.length
  | .snapshot => get (m.arg0 % 2 ^ 32) m.arg1 m.payLen
  | _ => none

/-- Places that the bytes of a region's range need. 12_ledger.md R298. -/
def regionPlaces (s : State) (r : Region) (off len : Nat) : List (Nat × Option Nat) :=
  if r.kind = rkSequence then
    match resolveParts s r off len with
    | some (_, _, parts) => parts.map fun p => (lpnSlice p.2.1.lpn, some (lpnExtent p.2.1.lpn))
    | none => []
  else if r.kind = rkBuffer then [(regionDie r, some (r.target % 2 ^ 42 / 2 ^ 30))]
  else [(regionDie r, none)]

/-- Places a request needs. 12_ledger.md R298. -/
def nineNeeds (s : State) (m : Msg) : List (Nat × Option Nat) :=
  match seqTarget m with
  | some handle =>
    let of_ := fun (h : Nat) =>
      match peekSeq s m.tenant h with
      | some (i, d) => seqPlaces s i d
      | none => []
    let a := App.parse m.be m.payload
    of_ handle ++ if m.opcode = .append ∧ a.form = 2 then of_ a.other else []
  | none =>
    match accTarget s m with
    | none => []
    | some (r, off, len) => regionPlaces s r off len

/-- Whether a region's range needs a stack that is being retrained: a SCRATCH region and a promoted page stand in SRAM.
16_lifecycle.md R389. -/
def rangeRetrains (s : State) (r : Region) (off len : Nat) : Bool :=
  if r.kind = rkScratch then false
  else if r.kind = rkSequence then
    match resolveParts s r off len with
    | some (_, _, parts) => parts.any fun p => (aget s.mem.promo p.2.1.lpn).isNone &&
        placeRetrains s (lpnSlice p.2.1.lpn, some (lpnExtent p.2.1.lpn))
    | none => false
  else (regionPlaces s r off len).any (placeRetrains s)

/-- Whether a request waits for a stack that is being retrained. Rows go to tails in SRAM; an ATTEND's scans wait each
in its slice. 16_lifecycle.md R389. -/
def stackWaits (s : State) (m : Msg) : Bool :=
  let rows := decide (m.opcode = .append) && decide ((App.parse m.be m.payload).form = 0)
  match accTarget s m with
  | some (r, off, len) => rangeRetrains s r off len
  | none => decide (m.opcode ≠ .attend) && ! rows && (nineNeeds s m).any (placeRetrains s)

/-- A request whose handler may start: none that needs a stack which is being retrained. 16_lifecycle.md R389. -/
def startsWork (s : State) (id : Nat) (op : Opcode) : Option Msg := (mayStart s id op).filter fun m => ! stackWaits s m

/-- Order 9b. 12_ledger.md R298. -/
def nineStale (s : State) (m : Msg) : State × Nine :=
  let ledgerOp := decide (m.opcode = .ledgerRead) || decide (m.opcode = .ledgerPublish)
  let home := lineHome s (effEpoch s m) (fld m.be m.payload 8 8)
  let homeBad : Bool := match home with
    | some (ep, h) => ledgerOp && isOwn s ep && (decide ((hubSt s h).unitSt ≠ .inService) || (quadHub s h).isNone)
    | none => false
  if m.opcode = .mgmt then (s, .pass)
  else if s.life.nodeUnit ≠ .inService ∨ homeBad ∨ (nineNeeds s m).any fun d => ! placeServes s d then
    nineHint s m .staleUnit 0 0 0 0 0
  else (s, .pass)

/-- The home hub of this node whose directory serves a ledger request: under the newest epoch its home, under the previous one a
home that holds the line, or whose bucket did not move. 12_ledger.md R291, R293. -/
def servedHome (s : State) (m : Msg) (l : Nat) : Option Nat :=
  let at_ := fun (x : Option (Nat × Nat)) =>
    match x with
    | some (ep, h) => if isOwn s ep ∧ answersAs s m.hub h then some h else none
    | none => none
  let stays := (oldHome s l).isNone
  let holds := fun (h : Nat) => stays || (dirOf s h l).isSome
  if effEpoch s m = s.ledg.newest then at_ (lineHome s s.ledg.newest l)
  else (at_ (lineHome s s.ledg.newest l)).filter holds <|> (at_ (lineHome s s.ledg.previous l)).filter fun h => (dirOf s h l).isSome

/-- Order 9c. 12_ledger.md R291, R293. -/
def nineHome (s : State) (m : Msg) : State × Nine :=
  if m.opcode ≠ .ledgerRead ∧ m.opcode ≠ .ledgerPublish then (s, .pass)
  else
    let l := fld m.be m.payload 8 8
    match servedHome s m l with
    | some _ => (s, .pass)
    | none =>
      match lineHome s s.ledg.newest l with
      | some (ep, h) => nineHint s m .reroute 3 ep h 0 l
      | none => (s, .fail .busy [])

/-- Order 9d: ownership. 12_ledger.md R286, R291. -/
def nineOwner (s : State) (id : Nat) (m : Msg) : State × Nine :=
  let go := fun (handle : Nat) (write : Bool) =>
    let l := ownerLine handle
    match seekLine s l (.check id) with
    | (s, .busy) => (s, .fail .busy [])
    | (s, .wait) => (s, .wait (.waitLine l))
    | (s, .known none) =>
      let drop := decide (m.opcode = .append) && decide ((App.parse m.be m.payload).form = 5)
      if drop ∧ (peekSeq s m.tenant handle).isSome then (s, .pass) else (s, .fail .notFound [])
    | (s, .known (some c)) =>
      let o := Owner.parse c
      if isOwn s o.holder then
        if o.transfer then (if write then nineHint s m .redirect 4 o.target 0 o.gen l else (s, .pass))
        else if write ∧ o.writer ≠ 0 ∧ o.writer ≠ m.endpoint then nineHint s m .redirect 2 o.writer 0 0 l
        else (s, .pass)
      else if effEpoch s m = s.ledg.newest then nineHint s m .redirect 1 o.holder 0 o.gen l
      else nineHint s m .reroute 1 o.holder 0 o.gen l
  match seqTarget m with
  | some handle => if handle / 2 ^ 48 ≠ m.tenant then (s, .pass) else go handle (decide (m.opcode ≠ .attend))
  | none =>
    match m.opcode, accTarget s m with
    | .write, some (r, _, _) =>
      if r.kind ≠ rkSequence then (s, .pass)
      else
        match peekSeq s r.tenant r.target with
        | some (_, d) => if d.state = .transfer then go r.target true else (s, .pass)
        | none => (s, .pass)
    | _, _ => (s, .pass)

/-- The EXTENT line of this node that is being read again and that a request depends on: one of a slice the request needs, or
of any slice for a request that creates a sequence. 12_ledger.md R279. -/
def heldExtent (s : State) (m : Msg) : Option Nat :=
  let needs := nineNeeds s m
  let any_ := (seqTarget m).isSome && needs.isEmpty
  ((s.ledg.reads.map (·.line)).find? fun l => decide (lineKind l = lkExtent) && isOwn s (bits l 34 11) &&
    (any_ || needs.any fun p => decide (p.1 = bits l 10 6)))

/-- Order 9e waits while an extent line is being read again. 12_ledger.md R279. -/
def nineExtent (s : State) (m : Msg) : State × Nine :=
  match heldExtent s m with
  | some l => (s, .wait (.waitLine l))
  | none => (s, .pass)

/-- Requests at their handlers that depend on an EXTENT line which is being read again wait for it. 12_ledger.md R279. -/
def holdExtent (s : State) : State :=
  setMsgs s (s.msgs.map fun p => if p.2.phase = .arrived ∧ ! p.2.resp then
    match heldExtent s p.2 with
    | some l => (p.1, { p.2 with phase := .waitLine l })
    | none => p
    else p)

/-- Order 9e for the requests that touch pages named by their own payload. 12_ledger.md R283 step 2, R284, R295. -/
def nineClosing (s : State) (m : Msg) : State × Nine :=
  let hit := fun (handle : Nat) (refs : Nat → Desc → List PageRef) =>
    match peekSeq s m.tenant handle with
    | some (i, d) => if d.state = .active then refsExtent s d (refs i d) else none
    | none => none
  let bad : Option Status := match m.opcode with
    | .attend =>
      let a := Att.parse m.be m.payload
      hit a.handle fun i d =>
        if a.layer < d.layers ∧ a.kvFirst + a.kvCount ≤ d.kvHeads ∧ a.blocks ≤ 64
        then (openedPages s i d a (attPattern m.be a m.payload d)).map (·.2.2) else []
    | .append =>
      let a := App.parse m.be m.payload
      if a.form = 2 then hit a.other fun i d => straddlers s i d a.pos
      else if a.form = 3 then hit a.handle fun i d => straddlers s i d a.pos
      else none
    | _ => none
  match bad with
  | some st => (s, .fail st [])
  | none => (s, .pass)

/-- Runs checks in order: the first that does not pass decides. -/
def nineSeq : List (State → State × Nine) → State → State × Nine
  | [], s => (s, .pass)
  | f :: fs, s =>
    match f s with
    | (s, .pass) => nineSeq fs s
    | r => r

/-- Check 9e of a whole payload: the extent's copy is held, and the extent is not CLOSING. 12_ledger.md R284, R295. -/
def nineWhole (s : State) (m : Msg) : State × Nine := nineSeq [fun s => nineExtent s m, fun s => nineClosing s m] s

/-- The checks of order 9 of a message; 9e needs the whole payload. 12_ledger.md R295. -/
def nine (s : State) (id : Nat) (m : Msg) (whole : Bool) : State × Nine :=
  nineSeq ([fun s => nineEpoch s m, fun s => nineStale s m, fun s => nineHome s m, fun s => nineOwner s id m] ++
    if whole then [fun s => nineWhole s m] else []) s

/-- The response payload an opcode's chapter gives a bare status; an ATTEND that names a merge tag has its contributor
section too. 05_merge.md R110. -/
def opResp (s : State) (m : Msg) (st : Status) : List Byte :=
  match m.opcode with
  | .attend =>
    let a := Att.parse m.be m.payload
    attHead m.be st 0 0 0 ++
      if a.tag ≠ 0 ∧ a.ver = 1 then contribSection m.be a.contribs [(endpointOf s m.hub, st, 0)] else []
  | .append | .bulkAppend | .seal => appResp m.be st 0 0 0 0
  | .read | .write => accResp m.be st (fld m.be m.payload 4 4) 0
  | .snapshot => accResp m.be st (m.arg0 % 2 ^ 32) 0
  | .ledgerRead => ledgerReadResp m.be st 0 0 (fld m.be m.payload 8 8) []
  | .ledgerPublish => ledgerPubResp m.be st 0 0 (fld m.be m.payload 8 8)
  | _ => []

/-- Refuses a message at order 9. 10_fabric.md R230, 14_host.md R327, R330. -/
def refuseNine (s : State) (id : Nat) (st : Status) (payload : List Byte) : State :=
  match msgOf s id with
  | none => s
  | some m =>
    refuse s id st 0 (if payload.isEmpty then nackPayload m.be st else payload)
      (if payload.isEmpty then opResp s m st else payload)

/-- Runs order 9 for a message in the queue, and lets it proceed, wait or go. -/
def runNine (s : State) (id : Nat) : State :=
  match msgOf s id with
  | none => s
  | some m =>
    match nine s id m true with
    | (s, .pass) => setPhase s id .arrived
    | (s, .wait p) => setPhase s id p
    | (s, .fail st payload) => refuseNine s id st payload

/-- Runs order 9 again for the messages whose phase a test picks. -/
def wake (s : State) (pick : Phase → Bool) : State :=
  (s.msgs.filter fun p => pick p.2.phase).foldl (fun s p => runNine s p.1) s

/-- A line the node waited for can be judged again. 12_ledger.md R279. -/
def wakeLine (s : State) (l : Nat) : State := wake s fun p => decide (p = .waitLine l)

/-- A new map has been adopted. 12_ledger.md R292. -/
def wakeEpoch (s : State) : State := wake s fun p => decide (p = .waitEpoch)

/-- Requests that waited at their line's home return to the queue. 12_ledger.md R277. -/
def wakeHome (s : State) (l : Nat) : State :=
  setMsgs s (s.msgs.map fun p => if p.2.phase = .waitHome l then (p.1, { p.2 with phase := .arrived }) else p)

end Sys2Proof.Machine
end

