-- ==== Sys2Proof/Machine/Homes.lean ====
section
/-!
DEFINITION. What a ledger home does and what a line's new content does at this node: reads, publishes and recalls, pulls,
extents, transfers of sequences, map parts. 12_ledger.md R275 to R294.
-/
namespace Sys2Proof.Machine

/-! ## Roles and sharers (R274, R280) -/

/-- Whether a message comes on the channel of an authenticated operator session. 15_trust.md R353 (assumption 32). -/
def operatorRole (s : State) (m : Msg) : Bool :=
  s.trust.sessions.any fun x => x.authed &&
    match x.chan, m.origin with
    | .conn h i, .conn h' i' _ => decide (h = h') && decide (i = i')
    | .pcie p f, .pcie p' f' _ => decide (p = p') && decide (f = f')
    | _, _ => false

/-- Whether an endpoint is a member node of the newest map. 12_ledger.md R290. -/
def isMember (s : State) (ep : Nat) : Bool :=
  match (aget s.ledg.maps s.ledg.newest).bind fun m => aget m.members ep with
  | some (_, st) => decide (st ≠ 0)
  | none => false

/-- Whether an endpoint's copy of a line is a holder copy. 12_ledger.md R274. -/
def holderCopy (s : State) (l : Nat) (content : List Byte) (ep : Nat) : Bool :=
  if lineKind l = lkMap then isMember s ep
  else if lineKind l = lkExtent then decide (bits l 34 11 = ep)
  else if lineKind l = lkOwner then decide ((Owner.parse content).holder = ep)
  else false

/-- Adds a sharer: eight pointers, cell bits from the ninth on. 12_ledger.md R273. -/
def addSharer (e : DirEntry) (ep : Nat) : DirEntry :=
  let cell := ep / 512
  if e.coarse then { e with cells := if e.cells.contains cell then e.cells else e.cells ++ [cell] }
  else if e.sharers.contains ep then e
  else if e.sharers.length < 8 then { e with sharers := e.sharers ++ [ep] }
  else { e with coarse := true, sharers := [], cells := ((e.sharers ++ [ep]).map (· / 512)).eraseDups }

/-- Endpoints a recall goes to. 12_ledger.md R277 step 3; the node's own copies need none. -/
def recallTargets (s : State) (e : DirEntry) : List Nat :=
  let all := if e.coarse then e.cells.flatMap fun c => ((List.range 512).map fun i => 512 * c + i).filter fun ep =>
      (Config.endpointAddr (body s clsEndpoints) ep).isSome
    else e.sharers
  all.filter fun ep => ! isOwn s ep

/-! ## What a line's content does here -/

/-- Takes an EXTENT line's content into the slice's state. 12_ledger.md R282, R283 step 1. -/
def applyExtent (s : State) (l : Nat) (content : Option (List Byte)) : State :=
  let k := bits l 10 6
  let e := bits l 5 0
  let old := extentSt s k e
  let x : ExtLine := match content with
    | some c => ExtLine.parse c
    | none => ⟨1, 0, 0, 0, 0⟩
  let st : ExtState := if x.state = 1 then .assigned else if x.state = 2 then .closing else .free
  let new : Extent :=
    if st = .closing ∧ old.state = .closing then { old with tenant := x.tenant, gen := x.gen }
    else ⟨st, x.tenant, x.gen, x.drain, if st = .closing then now s (homeHub s k) + x.drain * 1000 else 0, false⟩
  modLedg s fun y => { y with exts := aset y.exts (k, e) new }

/-- Whether every part of an epoch's map has been read. -/
def mapWhole (s : State) (epoch : Nat) : Bool := decide ((agetD s.ledg.maps epoch ⟨[], [], []⟩).parts.length = 768)

/-- The epoch the node adopts next: of the two the head names, the first that is newer than its newest, once its map is whole; 0
for none. 12_ledger.md R292. -/
def nextPending (s : State) : Nat :=
  let newer := fun (e : Nat) => decide (e ≠ 0) && decide (e ≠ s.ledg.newest) &&
    (decide (s.ledg.newest = 0) || serialLt 16 s.ledg.newest e)
  let e := if newer s.ledg.head.2 then s.ledg.head.2 else if newer s.ledg.head.1 then s.ledg.head.1 else 0
  if mapWhole s e then e else 0

/-- Sets the epoch that has been read and not adopted. 12_ledger.md R292. -/
def setPending (s : State) : State := modLedg s fun y => { y with pendEpoch := nextPending s }

/-- Takes one part of a map. 12_ledger.md R290. -/
def addMapPart (s : State) (epoch part : Nat) (c : List Byte) : State :=
  let m := agetD s.ledg.maps epoch ⟨[], [], []⟩
  let es := (List.range 16).map fun i => (i, cfld c (4 * i) 4)
  let m := { m with parts := if m.parts.contains part then m.parts else m.parts ++ [part] }
  let m :=
    if part ≤ 256 then { m with buckets := es.foldl (fun b x =>
      aset b (16 * (part - 1) + x.1) (x.2 % 2 ^ 24, bits x.2 26 24)) m.buckets }
    else { m with members := es.foldl (fun b x =>
      if x.2 % 2 ^ 24 = 0 then b else aset b (x.2 % 2 ^ 24) (bits x.2 25 24, bits x.2 28 26)) m.members }
  setPending (modLedg s fun y => { y with maps := aset y.maps epoch m })

/-- Reads one part of a map: from this node's directory at the anchor, or from the anchor. -/
def readPart (s : State) (epoch part : Nat) : State :=
  let l := mapLine epoch part
  match lineHome s s.ledg.newest l with
  | none => s
  | some (ep, h) =>
    if isOwn s ep then
      match dirOf s h l with
      | some e => addMapPart s epoch part e.content
      | none => s
    else (sendRead s ep l .map false).1

/-- Reads the 768 parts of an epoch the node has not read. 12_ledger.md R292 step 3. -/
def readMap (s : State) (n : Nat) : State :=
  if n = 0 ∨ n = s.ledg.newest ∨ n = s.ledg.previous ∨ mapWhole s n then s
  else (List.range 768).foldl (fun s p => readPart s n (p + 1)) s

/-- The head names epochs: the node reads those it has not read, the older first. 12_ledger.md R292 step 3. -/
def headChanged (s : State) (c : List Byte) : State :=
  let s := modLedg s fun y => { y with head := (headNewest c, headPrevious c) }
  setPending (readMap (readMap s (headPrevious c)) (headNewest c))

/-- Queues a publish of the node's own, over the version it knows. -/
def queuePub (s : State) (l : Nat) (content : List Byte) (expect : Nat) : State :=
  modLedg s fun y => { y with pubs := (y.pubs.filter fun p => decide (p.line ≠ l)) ++ [⟨l, content, expect, false⟩] }

/-! ## Transfers (R287, R288) -/

/-- The transfer of a handle this node takes part in. -/
def moveOf (s : State) (handle : Nat) (dest : Bool) : Option Transfer :=
  s.ledg.moves.find? fun x => decide (x.handle = handle) && (x.dest == dest)

/-- Changes a transfer. -/
def modMove (s : State) (handle : Nat) (dest : Bool) (f : Transfer → Transfer) : State :=
  modLedg s fun y => { y with moves := y.moves.map fun x => if x.handle = handle ∧ x.dest = dest then f x else x }

/-- Ends a transfer at this node. -/
def endMove (s : State) (handle : Nat) (dest : Bool) : State :=
  modLedg s fun y => { y with moves := y.moves.filter fun x => ! (decide (x.handle = handle) && (x.dest == dest)) }

/-- Content of a line as this node holds it. -/
def heldContent (s : State) (l : Nat) : Option (Nat × List Byte) :=
  match lineHome s s.ledg.newest l with
  | none => none
  | some (ep, h) =>
    if isOwn s ep then (dirOf s h l).map fun e => (e.version, e.content)
    else (aget s.ledg.copies l).map fun c => (c.version, c.content)

/-- Whether tails or seals of a sequence still wait. -/
def sealsPending (s : State) (i : Nat) : Bool :=
  (s.seqs.sealQ.any fun it => decide (it.desc = i)) || (s.seqs.tails.any fun t => decide (t.1.desc = i)) ||
    s.seqs.images.any fun t => decide (t.1.desc = i)

/-- Pages of a sequence, its delta prefix included. -/
def pageTotal (s : State) (i : Nat) (d : Desc) : Nat :=
  sumNat ((List.range d.pairs).map fun pair => d.deltaPages + (pairPages s i d pair).length)

/-- Step 2 of R287 once every tail is sealed: the source registers the transfer region and publishes its key. -/
def offerTransfer (s : State) (handle : Nat) : State :=
  match moveOf s handle false, peekSeq s (handle / 2 ^ 48) handle, heldContent s (ownerLine handle), freeIndex s with
  | some x, some (i, d), some (v, c), some r =>
    if x.step ≠ 0 ∨ sealsPending s i then s
    else
      let gen := regionGenAt s r
      let reg : Region :=
        { state := 1, kind := rkSequence, read := true, write := false, named := false, gen := gen, tenant := d.tenant, pd := 0,
          inflight := 0, prio := 0, target := handle, name := 0, layerFirst := 0, layerCount := d.layers, kvFirst := 0,
          kvCount := d.kvHeads, pageFirst := 0, pageCount := maxNat ((List.range d.pairs).map fun p =>
            d.deltaPages + (pairPages s i d p).length), length := pageTotal s i d * d.geom.size + 512, seqGen := d.gen,
          freedAt := 0, revokedAt := 0, revHub := 0, waiters := [], reReg := none, xfer := true }
      let s := enterRegion s r reg
      let s := modMove s handle false fun y => { y with step := 1, region := r, key := regionKey r gen }
      queuePub s (ownerLine handle) { Owner.parse c with key := regionKey r gen }.bytes v
  | _, _, _, _ => s

/-- Freezes every tail of a sequence that holds a token; evicted ones seal from their images, and one whose header cannot be
read stays. 12_ledger.md R287 step 2. -/
def freezeAll (s : State) (i : Nat) (d : Desc) : State :=
  let keys := ((s.seqs.tails.map (·.1)) ++ (s.seqs.images.filter fun p => (aget s.seqs.tails p.1).isNone).map (·.1)).filter
    fun k => decide (k.desc = i) && ! s.seqs.sealQ.any fun it =>
      it.fromTail && decide (it.desc = i) && decide (it.layer = k.layer) && decide (it.kv = k.kv) && decide (it.page = k.page)
  keys.foldl (fun s k =>
    match tailHdr s k with
    | none => s
    | some h => if h.count = 0 then dropTail s k else freezeTail s d k none 0) (lookTails keys s).1

/-- The source sets its descriptor to TRANSFER and seals its tails. 12_ledger.md R287 step 2. -/
def sealSource (s : State) (i : Nat) (d : Desc) : State :=
  offerTransfer (freezeAll (modDesc s i fun x => { x with state := .transfer }) i d) d.handle

/-- The source of a transfer starts, once its descriptor is ACTIVE: writes already in flight come first. 12_ledger.md R287
step 2. -/
def startSource (s : State) (i : Nat) (d : Desc) (o : Owner) : State :=
  if (moveOf s d.handle false).isSome then s
  else
    let mv : Transfer := { handle := d.handle, dest := false, peer := o.target, key := 0, done := 0, pages := [], region := 0,
                           version := 0, owner := [], step := if d.state = .active then 0 else 9 }
    let s := modLedg s fun y => { y with moves := y.moves ++ [mv] }
    if d.state = .active then sealSource s i d else s

/-- Sources that waited for their descriptors to be ACTIVE again start. 12_ledger.md R287 step 2. -/
def resumeSources (s : State) : State :=
  (s.ledg.moves.filter fun x => ! x.dest && decide (x.step = 9)).foldl (fun s x =>
    match peekSeq s (x.handle / 2 ^ 48) x.handle with
    | none => endMove s x.handle false
    | some (i, d) => if d.state = .active then sealSource (modMove s x.handle false fun y => { y with step := 0 }) i d else s) s

/-- Drops a sequence without a request: its SEQUENCE regions are revoked first, and it stays DRAINING until the last of
them and of its requests in flight has ended; a change that waited for its drain finds it gone. 03_sequences.md R57,
11_remote_access.md R265, 12_ledger.md R287 step 5, R297 step 4. -/
def dropHere (s : State) (i : Nat) (d : Desc) : State :=
  let s := match d.drain with
    | some (op, id) => if op = .drop then s else
        (match msgOf s id with
          | some m => answer s id .append .notFound 0 (appResp m.be .notFound 0 0 0 0)
          | none => s)
    | none => s
  let keep := match d.drain with
    | some (.drop, id) => id
    | _ => 0
  let s := modDesc s i fun y => { y with state := .draining, drain := some (.drop, keep) }
  let s := (regionsFrom s i d 0).foldl (fun s r => startRevoke s r none none) s
  if d.inflight ≠ 0 ∨ keep ≠ 0 ∨ ! (regionsFrom s i d 0).isEmpty then s
  else
    let s := modDesc s i fun y => { y with state := .dropping, drain := none }
    freeDesc (releaseSeq s i d) i d

/-- Revokes the transfer region of a source. -/
def dropXfer (s : State) (x : Transfer) : State := if x.region = 0 then s else startRevoke s x.region none none

/-- The source learns of the commit or of the abort. 12_ledger.md R287 step 5, R288. -/
def endSource (s : State) (i : Nat) (d : Desc) (kept : Bool) : State :=
  match moveOf s d.handle false with
  | none => s
  | some x =>
    let s := endMove (dropXfer s x) d.handle false
    if kept then modDesc s i fun y => { y with state := .active } else dropHere s i d

/-- Bytes of a READ payload of the node's own. 11_remote_access.md R255. -/
def readReq (key off len : Nat) : List Byte :=
  beBytes 1 1 ++ zeros 3 ++ beBytes 4 key ++ zeros 8 ++ beBytes 8 off ++ beBytes 4 len ++ zeros 4

/-- Bytes of the smallest page: Q4T or Q4C keys, T = 32, D = 64. 02_pages.md R27. -/
def leastPage : Nat := PGeom.size ⟨3, 3, 0, 0⟩

/-- The destination asks for a stretch of the transfer region. -/
def askStretch (s : State) (x : Transfer) (len : Nat) : State :=
  (ask s (ledgerHub s) x.peer .read x.handle (readReq x.key x.done len)).1

/-- The destination starts to read. 12_ledger.md R287 step 3. -/
def startDest (s : State) (handle : Nat) (o : Owner) : State :=
  if (moveOf s handle true).isSome ∨ (peekSeq s (handle / 2 ^ 48) handle).isSome then s
  else
    let held := (heldContent s (ownerLine handle)).getD (0, o.bytes)
    let mv : Transfer := { handle := handle, dest := true, peer := o.holder, key := o.key, done := 0, pages := [], region := 0,
                           version := held.1, owner := held.2, step := 0 }
    askStretch (modLedg s fun y => { y with moves := y.moves ++ [mv] }) mv leastPage

/-- Whether a transferred page image may be placed: known codes, the sequence's geometry, undamaged, its seal CRC right.
02_pages.md R45 to R47. -/
def pageImageOk (d : Desc) (page : List Byte) : Bool :=
  let h := Hdr.parse page
  decide (h.ver = 1) && h.geom.ok && decide (h.geom = d.geom) && ! h.damaged && decide (sealCrc page = h.crc)

/-- Places one page of a transferred sequence in its slice: shared when keyed and known, else written; a page that may not
be placed, or finds no place, gives none. 12_ledger.md R287 step 3, 03_sequences.md R65. -/
def placePage (s : State) (i : Nat) (d : Desc) (page : List Byte) : Option State :=
  let h := Hdr.parse page
  let pair := d.pair h.layer h.kv
  let p := (pairPages s i d pair).length
  let k := d.slice p
  if ! pageImageOk d page then none
  else
    let (s, way) := if h.keyed then shareStep s d k h (page.drop 64) else (s, .alone)
    let got : Option (State × PageRef) :=
      match way with
      | .share r => some (s, r)
      | _ => (allocSlot s k d.tenant (slotUnits d.geom.cls) .page).map fun (s, lpn) =>
          let h := { h with gen := slotGen s lpn, refs := 1 }
          let s := putWords s (homeAddr s lpn) (withCrc h (page.drop 64))
          (if way = .write then indexPage s k lpn h else s, refOf h lpn)
    got.bind fun (s, r) =>
      (addRef s k i pair d.tenant r).map fun s =>
        modTdir s i pair fun t => { t with index := p + 1, heldEnd := max t.heldEnd (r.firstPos + r.tokens) }

/-- The descriptor a transferred core gives at this node. 12_ledger.md R287 step 3. -/
def coreDesc (s : State) (i : Nat) (c : List Byte) : Desc :=
  let f := fun o n => cfld c o n
  { keyFormat := f 1 1, valFormat := f 2 1, tCode := f 3 1 % 4, dCode := f 3 1 / 4 % 8, state := .active,
    anchors := (List.range (f 5 1 % 128)).map fun j => ⟨f (128 + 4 * j) 4 % 2 ^ 24, f (128 + 4 * j) 4 / 2 ^ 24⟩,
    handle := f 8 8, tenant := f 16 2, layers := f 18 2, kvHeads := f 20 2, length := f 24 4, gen := descGenOf s i,
    owner := f 32 3, ownerGen := f 36 4, window := f 40 3, stripe := freshStripe s i, inflight := 0, baseHandle := 0,
    deltaTokens := 0, binding := 0, drain := none }

/-- Whether a transferred core is one this node can hold: its version, format codes and limits. 03_sequences.md R50, R51,
02_pages.md R26, R30, R31. -/
def coreOk (c : List Byte) : Bool :=
  let f := fun o n => cfld c o n
  let g : PGeom := ⟨f 1 1, f 2 1, f 3 1 % 4, f 3 1 / 4 % 8⟩
  decide (f 0 1 % 16 = 1) && g.ok && decide (1 ≤ f 18 2) && decide (f 18 2 ≤ 1024) && decide (1 ≤ f 20 2) &&
    decide (f 20 2 ≤ 256) && decide (f 18 2 * f 20 2 ≤ 16384)

/-- Creates the transferred sequence from its core and pages; none when it finds no place, or a code is unknown. -/
def adoptSeq (s : State) (x : Transfer) (core : List Byte) : Option State :=
  (freeDescIndex s).bind fun i =>
    let d := coreDesc s i core
    if d.handle ≠ x.handle ∨ d.stripe.isEmpty ∨ ! coreOk core then none
    else
      match insertAll s (liveHubs s) ⟨d.handle, clsHandle, 0, i⟩ with
      | (s, .done) =>
        let s := modSeqs s fun q => { q with descs := aset q.descs i d }
        match (allocTables s i d).bind fun s => x.pages.foldl (fun (acc : Option State) p =>
            acc.bind fun s => placePage s i d p) (some s) with
        | some s => some s
        | none => none
      | _ => none

/-- The destination gives a transfer up: what it has copied goes. 12_ledger.md R288. -/
def dropDest (s : State) (handle : Nat) : State :=
  match moveOf s handle true with
  | none => s
  | some x =>
    let s := endMove s handle true
    match peekSeq s (handle / 2 ^ 48) handle with
    | some (i, d) => if x.step = 3 then dropHere s i d else s
    | none => s

/-- A READ of the transfer region has been answered. 12_ledger.md R287 steps 3 and 4. -/
def destRead (s : State) (handle : Nat) (st : Option Status) (data : List Byte) : State :=
  match moveOf s handle true with
  | none => s
  | some x =>
    let size := (Hdr.parse (x.pages.headD data)).geom.size
    match x.step, st with
    | 0, some .ok => askStretch (modMove s handle true fun y => { y with step := 1 }) x size
    | 1, some .ok =>
      let x' := { x with pages := x.pages ++ [data], done := x.done + data.length }
      askStretch (modMove s handle true fun _ => x') x' data.length
    | 0, some .bounds => askStretch (modMove s handle true fun y => { y with step := 2 }) x 512
    | 1, some .bounds => askStretch (modMove s handle true fun y => { y with step := 2 }) x 512
    | 2, some .ok =>
      match adoptSeq s x data with
      | some s =>
        let o := Owner.parse x.owner
        let new : Owner := { o with transfer := false, holder := o.target, gen := (o.gen + 1) % 2 ^ 32, target := 0, lease := 0,
                                    key := 0 }
        queuePub (modMove s handle true fun y => { y with step := 3, pages := [] }) (ownerLine handle) new.bytes x.version
      | none => dropDest s handle
    | _, _ => dropDest s handle

/-- What an OWNER line's content does at this node. 12_ledger.md R285, R287, R288. -/
def applyOwner (s : State) (l : Nat) (content : Option (List Byte)) : State :=
  let handle := l % 2 ^ 62
  match content with
  | none => dropDest s handle
  | some c =>
    let o := Owner.parse c
    let mine := isOwn s o.holder
    let s := match peekSeq s (handle / 2 ^ 48) handle with
      | none => s
      | some (i, d) =>
        let s := modDesc s i fun y => { y with owner := o.holder, ownerGen := o.gen }
        if mine ∧ o.transfer then (if o.key = 0 then startSource s i d o else modMove s handle false fun y => { y with step := 2 })
        else if mine then endSource s i d true
        else if ! o.transfer then endSource s i d false
        else s
    if ! mine ∧ o.transfer ∧ isOwn s o.target then (if o.key = 0 then s else startDest s handle o)
    else if ! o.transfer ∧ mine then endMove s handle true
    else if ! o.transfer then dropDest s handle
    else s

/-- What a line's new content does at this node. -/
def lineChanged (s : State) (l : Nat) (content : Option (List Byte)) : State :=
  if lineKind l = lkExtent then (if isOwn s (bits l 34 11) then applyExtent s l content else s)
  else if lineKind l = lkOwner then applyOwner s l content
  else if lineKind l = lkMap then
    match content with
    | none => s
    | some c =>
      if l = headLine then headChanged s c
      else if l / 2 ^ 16 ≠ 0 ∧ (aget s.ledg.maps (l / 2 ^ 16)).isSome then addMapPart s (l / 2 ^ 16) (l % 2 ^ 16) c
      else s
  else s

/-! ## Publishing (R276, R277, R280, R282, R290, R446) -/

/-- Transitions of an OWNER line. 12_ledger.md R446. -/
inductive OwnerStep where
  | create | held | start | key | commit | abort | delete
  deriving DecidableEq, Repr

/-- The transition a publish makes, if the table of R446 lists it. -/
def ownerStep (old : Option Owner) (new : Option Owner) : Option OwnerStep :=
  match old, new with
  | none, none => none
  | none, some n =>
    if ! n.transfer ∧ n.gen = 1 ∧ n.target = 0 ∧ n.lease = 0 ∧ n.key = 0 then some .create else none
  | some o, none => if o.transfer then none else some .delete
  | some o, some n =>
    let clear := decide (n.target = 0) && decide (n.lease = 0) && decide (n.key = 0)
    if ! o.transfer ∧ ! n.transfer then (if clear ∧ n.gen = o.gen then some .held else none)
    else if ! o.transfer then
      if n.holder = o.holder ∧ n.gen = o.gen ∧ n.writer = o.writer ∧ n.target ≠ 0 ∧ n.target ≠ o.holder ∧
          10000 ≤ n.lease ∧ n.lease ≤ 10000000 ∧ n.key = 0 then some .start else none
    else if n.transfer then
      if n.holder = o.holder ∧ n.gen = o.gen ∧ n.writer = o.writer ∧ n.target = o.target ∧ n.lease = o.lease ∧ o.key = 0 ∧
          n.key ≠ 0 then some .key else none
    else if ! clear ∨ n.gen ≠ (o.gen + 1) % 2 ^ 32 ∨ n.writer ≠ o.writer then none
    else if n.holder = o.target then some .commit
    else if n.holder = o.holder then some .abort
    else none

/-- Whether an EXTENT change is permitted. 12_ledger.md R282. -/
def extentStep (s : State) (l : Nat) (o n : ExtLine) : Bool :=
  decide (bits l 5 0 < extentCount s - 2) &&
    ((decide (o.state = 0) && decide (n.state = 1) && decide (1 ≤ n.tenant) && decide (n.tenant ≤ 16383) &&
        decide (n.gen = o.gen)) ||
      (decide (o.state = 1) && decide (n.state = 2) && decide (n.tenant = o.tenant) && decide (n.gen = o.gen) &&
        decide (1000 ≤ n.drain) && decide (n.drain ≤ 10000000)) ||
      (decide (o.state = 2) && decide (n.state = 0) && decide (n.tenant = 0) && decide (n.gen = (o.gen + 1) % 2 ^ 32)))

/-- Whether a MAP change is permitted: a head advances by one, a part of a live epoch does not change.
12_ledger.md R290. -/
def mapStep (s : State) (l : Nat) (fresh : Bool) (old new : List Byte) : Bool :=
  if l = headLine then
    let n := if fresh then 0 else headNewest old
    ! blank new && decide (headPrevious new = n) && decide (headNewest new = nextEpoch n)
  else
    let e := bits l 31 16
    let (_, h) := Config.mapAnchor (body s clsMap)
    let live : Bool := match dirOf s h headLine with
      | some d => decide (e = headNewest d.content) || decide (e = headPrevious d.content)
      | none => false
    decide (bits l 47 32 = 0) && decide (e ≠ 0) && decide (1 ≤ bits l 15 0) && decide (bits l 15 0 ≤ 768) && (fresh || ! live)

/-- Who publishes: message, tenant, endpoint, operator role. -/
structure Publisher where
  tenant   : Nat
  endpoint : Nat
  operator : Bool
  deriving DecidableEq, Repr, Inhabited

/-- The checks of a publish, orders 1 to 5 of R280. The commit of a destination that comes after the abort is judged at order 5:
R288 gives it CONFLICT. 12_ledger.md R280, R288. -/
def pubCheck (s : State) (w : Publisher) (ver l version expected : Nat) (old new : List Byte) : Option Status :=
  let kind := lineKind l
  let fresh := decide (version = 0)
  let del := blank new
  let oldO := if fresh then none else some (Owner.parse old)
  let newO := if del then none else some (Owner.parse new)
  let step := ownerStep oldO newO
  let x := ExtLine.parse old
  let y := ExtLine.parse new
  let verBad := decide (ver ≠ 1) ||
    (! del && ((decide (kind ≠ lkMap) && decide (cfld new 0 1 % 16 ≠ 1)) || (decide (l = headLine) && decide (cfld new 0 1 % 16 ≠ 1)) ||
      (decide (kind = lkExtent) && decide (y.state = 3))))
  let byHolder := decide (w.tenant = 0) && decide (w.endpoint = bits l 34 11) && decide (x.state = 2) && decide (y.state = 0)
  let right : Bool :=
    if kind = lkMap then w.operator
    else if kind = lkExtent then w.operator || byHolder
    else if kind = lkRegion then decide (w.tenant = lineTenant l)
    else if w.tenant ≠ 0 then true
    else
      match step with
      | some .start => decide ((newO.map (·.target)) = some w.endpoint)
      | some .key => decide ((oldO.map (·.holder)) = some w.endpoint)
      | some .commit => decide ((oldO.map (·.target)) = some w.endpoint)
      | some .held => decide (version ≠ expected) && decide ((newO.map (·.holder)) = some w.endpoint)
      | _ => false
  let allowed : Bool :=
    if kind = lkMap then mapStep s l fresh old new
    else if kind = lkExtent then ! del && extentStep s l x y && (decide (x.state ≠ 2) || byHolder)
    else if kind = lkRegion then true
    else step.isSome && (decide (w.tenant = 0) || (decide (step ≠ some .key) && decide (step ≠ some .commit)))
  firstFail [(verBad, .version),
    ((decide (kind = lkOwner) || decide (kind = lkRegion)) && decide (w.tenant ≠ 0) && decide (lineTenant l ≠ w.tenant), .notFound),
    (! right, .pdMismatch), (! allowed, .bounds), (decide (version ≠ expected), .conflict)]

/-- Sends a RECALL: on an OPEN connection to the sharer with the lowest ID, or on one the home opens. 12_ledger.md R278. -/
def sendRecall (s : State) (x ep l version : Nat) : State :=
  let open_ := s.fab.conns.filter fun p => decide (p.2.hub = x) && decide (p.2.peer = ep) && decide (p.2.state = .open_) &&
    carries p.2 .recall
  let pay := recallBytes true l version
  match (sortBy (fun p => p.2.id) open_).head? with
  | some p =>
    let (s, q) := sendMsg s p.1 .recall 0 0 0 0 pay
    modConn s p.1 fun c => { c with asked := c.asked ++ [⟨some q, .recall, l, pay⟩] }
  | none => (ask s x ep .recall l pay).1

/-- Counts what an OWNER line's new content ends or starts at its home. 12_ledger.md R287, R288, R299. -/
def settleTransfer (s : State) (h l : Nat) (kind : PubKind) (old new : List Byte) : State :=
  if lineKind l ≠ lkOwner then s
  else
    let o := Owner.parse old
    let n := Owner.parse new
    if n.transfer ∧ ! o.transfer then modDir s h l fun e => { e with leaseEnd := homeNow s h + n.lease * 1000 }
    else if o.transfer ∧ ! n.transfer then
      let s := modDir s h l fun e => { e with leaseEnd := 0 }
      if kind = .abort then bump s .ledger_TRANSFERS_ABORTED h
      else if n.holder = o.target then bump s .ledger_TRANSFERS_DONE h
      else s
    else s

/-- A message that published, answered. -/
def answerPub (s : State) (id : Nat) (st : Status) (digest version l : Nat) : State :=
  match msgOf s id with
  | none => s
  | some m => answer s id .ledgerPublish st 0 (ledgerPubResp m.be st digest version l)

/-- A pulled line is installed at its new home in this node, with its version. 12_ledger.md R293. -/
def arrive (s : State) (l version : Nat) (content : List Byte) : State :=
  match lineHome s s.ledg.newest l with
  | none => s
  | some (_, h) => modDir s h l fun e =>
      { e with state := .valid, homeEpoch := s.ledg.newest, version := version, content := content }

/-- Steps 5 and 6 of R277, or the answer to a pull. 12_ledger.md R277, R293. -/
def finishPublish (s : State) (h l : Nat) : State :=
  match dirOf s h l with
  | none => s
  | some e =>
    match e.pub with
    | none => s
    | some p =>
      let s :=
        if p.kind = .pull then
          let s := dropEntry s h l
          match msgOf s p.msg with
          | none => if p.msg = 0 then arrive s l e.version e.content else s
          | some m => answer s p.msg .ledgerRead .ok 0 (ledgerReadResp m.be .ok 0 e.version l e.content)
        else
          let s := bump s .ledger_PUBLISHES h
          let s := modDir s h l fun e => { e with state := .valid, version := e.version + 1, content := p.content, sharers := [],
                                                  coarse := false, cells := [], pub := none }
          let s := settleTransfer s h l p.kind e.content p.content
          let s := if blank p.content then dropEntry s h l else s
          let s := answerPub s p.msg .ok 0 (e.version + 1) l
          let s := modLedg s fun y => { y with pubs := y.pubs.filter fun q => ! (decide (q.line = l) && q.sent) }
          lineChanged s l (lineContent 1 p.content)
      wakeLine (wakeHome s l) l

/-- Steps 3 and 4 of R277: the line is PUBLISHING and its sharers are recalled. -/
def startPublish (s : State) (h l : Nat) (kind : PubKind) (content : List Byte) (msg : Nat) : State :=
  match dirOf s h l with
  | none => s
  | some e =>
    let ts := recallTargets s e
    let x := (quadHub s h).getD h
    let p : Publish := ⟨msg, homeNow s h, kind, content, ts⟩
    let s := modDir s h l fun e => { e with state := .publishing, pub := some p }
    let s := ts.foldl (fun s ep => bump (sendRecall s x ep l (e.version + 1)) .ledger_RECALLS h) s
    if ts.isEmpty then finishPublish s h l else s

/-- A home refuses a publish that waits: the line is VALID again. 12_ledger.md R277 step 4. -/
def failPublish (s : State) (h l : Nat) (st : Status) : State :=
  match dirOf s h l with
  | none => s
  | some e =>
    match e.pub with
    | none => s
    | some p =>
      let s := modDir s h l fun e => { e with state := .valid, pub := none }
      let s := answerPub s p.msg st 0 e.version l
      let s := modLedg s fun y => { y with pubs := y.pubs.map fun q => if q.line = l then { q with sent := false } else q }
      wakeLine (wakeHome s l) l

/-- A sharer's answer, or its being passed over: when none is missing, the publish is written. -/
def sharerGone (s : State) (h l ep : Nat) : State :=
  match dirOf s h l with
  | none => s
  | some e =>
    match e.pub with
    | none => s
    | some p =>
      let left := p.waiting.filter fun x => decide (x ≠ ep)
      let s := modDir s h l fun e => { e with pub := some { p with waiting := left } }
      if left.isEmpty then finishPublish s h l else s

/-- Which kind a publish of an OWNER line is. -/
def pubKind (l : Nat) (old new : List Byte) : PubKind :=
  let o := Owner.parse old
  let n := Owner.parse new
  if lineKind l = lkOwner ∧ o.transfer ∧ ! n.transfer ∧ n.holder = o.target then .commit else .plain

/-- A publish at its home, from the checks on. 12_ledger.md R277 steps 1 to 3. -/
def homePublish (s : State) (h l : Nat) (w : Publisher) (ver expected : Nat) (content : List Byte) (msg : Nat) : State :=
  let e := dirOf s h l
  let version := (e.map (·.version)).getD 0
  let old := (e.map (·.content)).getD (zeros 64)
  match pubCheck s w ver l version expected old content with
  | some .conflict =>
    answerPub (bump s .ledger_CONFLICTS h) msg .conflict (beNat (takeBytes (Config.shake256 old 64) 0 4)) version l
  | some st => answerPub s msg st 0 0 l
  | none =>
    match e with
    | some _ => startPublish s h l (pubKind l old content) content msg
    | none =>
      match newEntry s h l .valid s.ledg.newest 0 (zeros 64) with
      | (s, true) => startPublish s h l .plain content msg
      | (s, false) => answerPub s msg .busy 0 0 l

/-- Whether a publish of the node's own must wait at its home in this node: the line is not VALID. 12_ledger.md R277. -/
def pubBlocked (s : State) (p : OwnPub) : Bool :=
  match lineHome s s.ledg.newest p.line with
  | none => true
  | some (ep, h) => isOwn s ep && (dirOf s h p.line).any fun e => decide (e.state ≠ .valid)

/-- A publish of the node's own at its home in this node, in its turn: the entry is found, or its line pulled first; one that the
checks refuse has lost. 12_ledger.md R277, R280, R293. -/
def ownPublish (s : State) (h : Nat) (p : OwnPub) : State :=
  let w : Publisher := ⟨0, nodeEndpoint s, false⟩
  let done := fun (s : State) => modLedg s fun y => { y with pubs := y.pubs.filter fun q => decide (q.line ≠ p.line) }
  match findLine s h p.line with
  | (s, .error _) => s
  | (s, .ok none) =>
    match oldHome s p.line with
    | some _ => (startPull s h p.line).1
    | none => homePublish s h p.line w 1 p.expect p.content 0
  | (s, .ok (some e)) =>
    match pubCheck s w 1 p.line e.version p.expect e.content p.content with
    | some st => dropDest (done (if st = .conflict then bump s .ledger_CONFLICTS h else s)) (p.line % 2 ^ 62)
    | none => homePublish s h p.line w 1 p.expect p.content 0

/-- Sends the publishes of the node's own that have not been sent: at the home of this node in their turn, else to the home. -/
def flushPubs : Nat → State → State
  | 0, s => s
  | n + 1, s =>
    match s.ledg.pubs.find? fun p => ! p.sent && ! pubBlocked s p with
    | none => s
    | some p =>
      let sent := fun (s : State) (b : Bool) => modLedg s fun y => { y with pubs := y.pubs.map fun q =>
        if q.line = p.line then { q with sent := b } else q }
      match lineHome s s.ledg.newest p.line with
      | none => s
      | some (ep, h) =>
        if isOwn s ep then
          let t := ownPublish (sent s true) h p
          flushPubs n (if pubBlocked t p ∧ ((dirOf t h p.line).bind (·.pub)).isNone then sent t false else t)
        else flushPubs n (ask (sent s true) (ledgerHub s) ep .ledgerPublish p.line (ledgerPubReq true p.line p.expect p.content)).1

/-- Lines that move between hubs of this node: the old home recalls every sharer, then the line arrives; without an entry it is
created with version 0. 12_ledger.md R293. -/
def localPulls (s : State) : State :=
  (s.ledg.dir.filter fun p => decide (p.2.state = .arriving)).foldl (fun s p =>
    let l := p.1.2
    match oldHome s l with
    | none => s
    | some (ep, x) =>
      if ! isOwn s ep then s
      else
        match dirOf s x l with
        | none => wakeLine (wakeHome (arrive s l 0 (zeros 64)) l) l
        | some e => if e.state = .valid then startPublish s x l .pull e.content 0 else s) s

/-- Sends what the last step made due. -/
def flush (s : State) : State := flushPubs 8 (localPulls (resumeSources s))

/-! ## Extents (R283) -/

/-- Slots of page space in an extent. -/
def extentSlots (s : State) (k e : Nat) : List Nat :=
  (s.mem.slots.filter fun p => decide (lpnSlice p.1 = k) && decide (lpnExtent p.1 = e)).map (·.1)

/-- BUFFER regions in an extent, ACTIVE or REVOKING. 12_ledger.md R283 step 5. -/
def extentBuffers (s : State) (k e : Nat) : List Nat :=
  (s.regn.regions.filter fun p => decide (p.2.kind = rkBuffer) && decide (p.2.state ≠ 0) && decide (regionDie p.2 = k) &&
    decide (p.2.target % 2 ^ 42 / 2 ^ 30 = e)).map (·.1)

/-- Whether a region that still stands holds a slot of page space. 11_remote_access.md R248. -/
def bufferHolds (s : State) (lpn : Nat) : Bool :=
  s.regn.regions.any fun p => decide (p.2.kind = rkBuffer) && decide (p.2.state ≠ 0) &&
    decide (mkLpn (regionDie p.2) (p.2.target % 2 ^ 42 / 2 ^ 30) (p.2.target % 2 ^ 30 / 4096) = lpn)

/-- Scrubs an extent: every slot is freed, apart from a BUFFER's whose revocation still runs, which frees it. 12_ledger.md R283
step 6. -/
def scrubExtent (s : State) (k e : Nat) : State :=
  ((extentSlots s k e).filter fun lpn => ! bufferHolds s lpn).foldl freeSlot s

end Sys2Proof.Machine
end

