-- ==== Sys2Proof/Machine/Merges.lean ====
section
/-!
DEFINITION. The merge operations: contexts and their pool, the end of a package merge, contributions and groups.
05_merge.md R103 to R117.
-/
namespace Sys2Proof.Machine

/-! ## Contexts and the pool (R105) -/

/-- Pool units of one held record set. 05_merge.md R105. -/
def setUnits (n dim : Nat) : Nat := ceilDiv (n * (24 + 4 * dim)) 4096

/-- Record sets a merge point holds. 05_merge.md R105. -/
def groupHeld (n : Nat) (arrival : Bool) : Nat := if arrival then clog2 n + 1 else n

/-- Merge contexts in use at a hub: ingress, quadrant and merge-point ones. -/
def ctxsUsed (s : State) (h : Nat) : Nat :=
  (s.merge.ctxs.filter fun p => decide (p.2.hub = h)).length +
    sumNat (s.merge.ctxs.map fun p => (p.2.chains.filter fun c => decide (c.hub = h) && ! c.closed).length) +
    (s.merge.groups.filter fun g => decide (g.hub = h)).length

/-- Pool units of a group. One opened by a contribution without records has no record size yet: it holds no pool space until
the first contribution with records, which may then be refused with BUSY (DESIGN CHOICE, assumption 162). 05_merge.md
R105. -/
def groupUnits (g : Group) : Nat :=
  match g.shape with
  | none => 0
  | some (_, dim, heads) => setUnits heads.length dim * groupHeld g.count g.arrival

/-- Pool units in use at a hub. -/
def poolUsed (s : State) (h : Nat) : Nat :=
  sumNat (s.merge.ctxs.map fun p =>
    (if p.2.hub = h then setUnits p.2.nRecs p.2.dim * (if p.2.arrival then 1 else 8) else 0) +
      4 * setUnits p.2.nRecs p.2.dim * (p.2.chains.filter fun c => decide (c.hub = h) && ! c.closed).length) +
    sumNat ((s.merge.groups.filter fun g => decide (g.hub = h)).map groupUnits)

/-- Contexts and pool units of a hub. 05_merge.md R105. -/
def ctxMax : Nat := 4096
def poolMax : Nat := 12288


/-- The quadrants whose chain a hub in service keeps, with that hub. 05_merge.md R104, R109. -/
def servedQuads (s : State) : List (Nat × Nat) :=
  (List.range 8).filterMap fun q => (quadHub s q).map fun h => (q, h)

/-- Whether a fan-out finds its contexts and their pool space: one at the ingress hub and one for each quadrant at the hub
that keeps its chain, each record set of the given units. The spec names BUSY for the ingress hub; a quadrant hub without
room gives the same answer (DESIGN CHOICE, assumption 141). 05_merge.md R105. -/
def fanRoom (s : State) (h units : Nat) (arrival : Bool) : Bool :=
  let own := if arrival then 1 else 8
  (List.range 8).all fun k =>
    let chains := ((servedQuads s).filter fun q => decide (q.2 = k)).length
    let ctxs := chains + if k = h then 1 else 0
    let need := 4 * units * chains + if k = h then own * units else 0
    decide (ctxs = 0) || (decide (ctxsUsed s k + ctxs ≤ ctxMax) && decide (poolUsed s k + need ≤ poolMax))

/-- Room in a tenant's merge-buffer quota. 06_append.md R138. -/
def mergeQuotaOk (s : State) (tenant : Nat) : Bool :=
  withinQuota (rget s .tier_merge_limit 0 (quotaEntry s tenant)) (mergeUsed s tenant) 1

/-- Duration of a merge deadline before halving. 05_merge.md R107. -/
def deadlineNs (s : State) (h field : Nat) : Nat := max 10000 (if field = 0 then rget s .sorrel_default_deadline h 0 else field)

/-! ## Answers -/

/-- An ATTEND response: header, records, and a contributor section where there is one. 04_attend.md R92, 05_merge.md R110. -/
def attAnswer (be out32 : Bool) (st : Status) (recs : List Rec) (failKv failPos : Nat)
    (section_ : Option (Nat × List (Nat × Status × Nat))) : List Byte :=
  attHead be st recs.length failKv failPos ++ recs.flatMap (recBytes be out32) ++
    match section_ with
    | some (n, es) => contribSection be n es
    | none => []

/-- A refusal of an ATTEND by R72, with the section a merge tag asks for. A request of another fmt_version has no merge_tag
that this version can read, so its refusal has no section (DESIGN CHOICE, assumption 164). 04_attend.md R72, 05_merge.md
R110. -/
def refuseAttend (s : State) (id : Nat) (m : Msg) (a : Att) (st : Status) : State :=
  let sec := if a.tag ≠ 0 ∧ a.ver = 1 then some (a.contribs, [(endpointOf s m.hub, st, 0)]) else none
  answer s id .attend st 0 (attAnswer m.be a.out32 st [] 0 0 sec)

/-- Counts a response with status PARTIAL that is sent. 05_merge.md R119. -/
def countPartial (s : State) (id h : Nat) (st : Status) : State :=
  if st = .partialMerge ∧ answerLeaves s id then bump s .sorrel_PARTIALS h else s

/-- The direct answer of a contributor. 05_merge.md R114. -/
def directAnswer (s : State) (id : Nat) : State :=
  match msgOf s id with
  | none => s
  | some m =>
    let a := Att.parse m.be m.payload
    let s := countPartial s id m.hub m.heldSt
    answer s id .attend m.heldSt 0 (attAnswer m.be a.out32 m.heldSt m.held m.heldKv m.heldPos
      (some (a.contribs, [(endpointOf s m.hub, m.heldSt, m.heldMap)])))

/-- The merge point's answer to a contribution reaches the contributor. 05_merge.md R112, R114, 14_host.md R447. -/
def contribAnswered (s : State) (id : Nat) (ok : Bool) : State :=
  match msgOf s id with
  | none => s
  | some m =>
    if m.phase ≠ .waitContrib then s
    else if ! ok then directAnswer s id
    else
      let a := Att.parse m.be m.payload
      match m.origin with
      | .pcie _ _ _ =>
        let s := countPartial s id m.hub m.heldSt
        answer s id .attend m.heldSt 0 (attAnswer m.be a.out32 m.heldSt [] m.heldKv m.heldPos
          (some (a.contribs, [(endpointOf s m.hub, m.heldSt, m.heldMap)])))
      | _ => dropMsg s id

/-- A message the node hands itself: a contribution to a merge point of its own. -/
def ownMsg (s : State) (hub : Nat) (op : Opcode) (payload : List Byte) (about : Nat) : Msg :=
  { hub := hub, origin := .device, opcode := op, resp := false, replyTo := 0, endpoint := 0, tenant := 0, pd := 0,
    cls := 0, colour := .green, epoch := 0, be := true, payload := payload, v0 := false, phase := .arrived,
    at_ := now s hub, held := [], units := 0, heldSt := .ok, heldMap := 0, heldKv := 0, heldPos := 0, irq := false, ring := 0,
    payLen := payload.length, respLen := 0, respAddr := 0, tag := 0, slotSeq := 0, fence := false, arg0 := about, arg1 := 0 }

/-- The hub at which a merge point's group is kept: the contributor's own hub where its port carries the endpoint, else
the first live port of the group. 05_merge.md R111, 10_fabric.md R221. -/
def pointHub (s : State) (h ep : Nat) : Option Nat :=
  if endpointOf s h = ep ∧ hubAlive s h then some h else (groupHubs s ep).find? fun x => hubAlive s x

/-- Sends a package result to the merge point, or answers directly. To a merge point of this node the records go as they
are, FP32, since they do not leave the node (04_attend.md R84). 05_merge.md R112, R114. -/
def contribute (s : State) (id : Nat) (m : Msg) (a : Att) (dim : Nat) (st : Status) (recs : List Rec) (map kv pos : Nat) :
    State :=
  let s := modMsg (setPhase s id .waitContrib) id fun x =>
    { x with held := recs, heldSt := st, heldMap := map, heldKv := kv, heldPos := pos }
  let hdr : PartHdr :=
    { ver := 1, status := st.code, count := recs.length, tag := a.tag, contribs := a.contribs, tenant := m.tenant,
      requester := m.endpoint, deadline := a.deadline, bitmap := map, out32 := a.out32, arrival := a.arrival,
      dCode := ((List.range 5).find? fun c => decide (dOf c = dim)).getD 0, failKv := kv, failPos := pos, pd := m.pd }
  if isOwn s a.point then
    match (pointHub s m.hub a.point).filter fun h => (hubRoute s m.hub h).isSome with
    | none => directAnswer s id
    | some h =>
      let (n, s) := newId s
      setMsgs s (s.msgs ++ [(n, { ownMsg s h .partialRec (hdr.bytes true) id with endpoint := endpointOf s m.hub, held := recs })])
  else
    match ask s m.hub a.point .partialRec id (hdr.bytes true ++ recs.flatMap (recBytes true a.out32)) with
    | (s, true) => s
    | (s, false) => directAnswer s id

/-! ## The package merge (R106 to R109) -/

/-- A failure status carries no records. -/
def failing (st : Status) : Bool := st ≠ .ok && st ≠ .okBounded && st ≠ .partialMerge

/-- Combines reports in the order given: failures gathered, record sets merged position by position. -/
def combine (l : List Report) : Report :=
  l.foldl (fun a r => ⟨a.fails ++ r.fails, mergeSets a.recs r.recs⟩) ⟨[], []⟩

/-- A merge context leaves: its records in flight go, its sequence is one request lighter. 03_sequences.md R58. -/
def endCtx (s : State) (ctx : Nat) (x : MergeCtx) : State :=
  let s := modMerge s fun y => { y with ctxs := adel y.ctxs ctx }
  modDesc s x.desc fun d => { d with inflight := d.inflight - 1 }

/-- The ingress merge ends with a result: it goes to the requester or to the merge point. 05_merge.md R109, R112. -/
def deliver (s : State) (x : MergeCtx) (st : Status) (recs : List Rec) (map kv pos : Nat) : State :=
  let s := if st = .revoked then bump s .ledger_EXTENT_REVOKED x.hub else s
  match msgOf s x.msg with
  | none => s
  | some m =>
    let a := Att.parse m.be m.payload
    if a.tag ≠ 0 then contribute s x.msg m a x.dim st recs map kv pos
    else
      let s := countPartial s x.msg x.hub st
      let sec := if st = .partialMerge then some (1, [(endpointOf s x.hub, st, map)]) else none
      answer s x.msg .attend st 0 (attAnswer m.be a.out32 st recs kv pos sec)

/-- Closes an ingress merge with what it holds. 05_merge.md R106, R109, 04_attend.md R92, R93. -/
def closeMerge (s : State) (ctx : Nat) : State :=
  match aget s.merge.ctxs ctx with
  | none => s
  | some x =>
    let qs := if x.arrival then x.quads else sortBy (fun q => q.1) x.quads
    let r := combine (qs.map fun q => q.2.2)
    let map := qs.foldl (fun m q => m ||| q.2.1) 0
    let s := endCtx s ctx x
    match worstFail r.fails with
    | some f => deliver s x f.status [] 0 f.kv f.pos
    | none =>
      let whole := x.expected.all fun q => (qs.map (·.1)).contains q && decide (map / 16 ^ q % 16 = 15)
      deliver s x (if whole then recsStatus r.recs else .partialMerge) r.recs map 0 0

/-- Closes a quadrant chain: it sends the ingress hub what it holds, over the hub links; without a path it does not arrive.
05_merge.md R103, R106, R108, 01_node.md R16. -/
def closeChain (s : State) (ctx q : Nat) : State :=
  match aget s.merge.ctxs ctx with
  | none => s
  | some x =>
    match x.chains.find? fun c => decide (c.quad = q) with
    | none => s
    | some c =>
      if c.closed then s
      else
        let l := if x.arrival then c.slices else sortBy (·.1) c.slices
        let map := sumNat (l.map fun p => 2 ^ p.1)
        let x' : MergeCtx := { x with chains := x.chains.map fun d => if d.quad = q then { d with closed := true } else d }
        modMerge s fun y => { y with ctxs := aset y.ctxs ctx x',
                                     inflight := y.inflight ++ if (hubRoute s c.hub x.hub).isNone then [] else
                                       [.quad ctx q map x.hub (combine (l.map (·.2)))] }

/-! ## Groups (R113 to R116) -/

/-- Tree merge of one query head. 05_merge.md R113. -/
def treeInsert (slots : List (Option Rec)) (r : Rec) : List (Option Rec) :=
  match slots with
  | [] => [some r]
  | none :: rest => some r :: rest
  | some x :: rest => none :: treeInsert rest (mergeRec x r)

/-- tree_merge. 05_merge.md R113. -/
def treeMerge (rs : List Rec) : Option Rec :=
  (rs.foldl treeInsert []).foldl (fun (acc : Option Rec) slot =>
    match slot, acc with
    | some x, some a => some (mergeRec x a)
    | some x, none => some x
    | none, a => a) none

/-- The group of a tuple at a merge point, whichever port of the group holds it. 05_merge.md R113. -/
def groupAt (s : State) (h : Nat) (k : GroupKey) : Option Group :=
  s.merge.groups.find? fun g => decide (g.key = k) && decide (endpointOf s g.hub = endpointOf s h)

/-- Status, failing place and records of a group's result. 05_merge.md R113, R116. -/
def groupResult (g : Group) : Status × Nat × Nat × List Rec :=
  let byEp := sortBy (·.endpoint) g.parts
  let bad := byEp.filter fun c => failing c.status
  match bad with
  | b :: _ =>
    let sts := bad.map (·.status)
    let low := bad.foldl (fun (st : Status) c => if c.status.code < st.code then c.status else st) b.status
    let st := if sts.contains .uncorrectable then Status.uncorrectable else if sts.contains .damaged then .damaged else low
    let at_ := (bad.find? fun c => decide (c.status = st)).getD b
    (st, at_.failKv, at_.failPos, [])
  | [] =>
    let order := if g.arrival then g.parts else byEp
    let heads := (g.shape.map fun x => x.2.2).getD []
    let recs := heads.zipIdx.filterMap fun (_, i) => treeMerge (order.filterMap fun c => c.recs[i]?)
    if g.parts.length < g.count ∨ g.parts.any fun c => decide (c.status = .partialMerge) then (.partialMerge, 0, 0, recs)
    else (recsStatus recs, 0, 0, recs)

/-- The merge point's connection with a requester: OPEN, of the tenant and domain, with the lowest ID. 05_merge.md R115. -/
def requesterConn (s : State) (h : Nat) (k : GroupKey) : Option Nat :=
  ((sortBy (fun p => p.2.id) (s.fab.conns.filter fun p =>
    decide (p.2.own = endpointOf s h) && decide (p.2.peer = k.requester) && decide (p.2.tenant = k.tenant) &&
      decide (p.2.pd = k.pd) && decide (p.2.state = .open_))).head?).map (·.1)

/-- Closes a group: the result goes to the requester, a tombstone stays. 05_merge.md R115, R116. -/
def closeGroup (s : State) (g : Group) : State :=
  let (st, kv, pos, recs) := groupResult g
  let s := modMerge s fun y => { y with groups := y.groups.filter fun x => ! (decide (x.hub = g.hub) && decide (x.key = g.key)),
                                        tombs := y.tombs ++ [⟨g.hub, g.key, g.deadline + g.durNs⟩] }
  let es := (sortBy (·.endpoint) g.parts).map fun c => (c.endpoint, c.status, c.bitmap)
  let out32 := (g.shape.map fun x => x.1).getD false
  let pay := attAnswer true out32 st recs kv pos (some (g.count, es))
  match requesterConn s g.hub g.key with
  | none => bump s .sorrel_UNDELIVERED g.hub
  | some id =>
    let s := if st = .partialMerge then bump s .sorrel_PARTIALS g.hub else s
    let s := modMeter s g.key.tenant fun x => { x with bytesOut := x.bytesOut + pay.length }
    (sendMsg s id .attend flResp 0 (rg s .traffic_device_class) (if st = .busy then 8 else 0) pay).1

end Sys2Proof.Machine
end

