-- ==== Sys2Proof/Machine/Ledger.lean ====
section
/-!
DEFINITION. The commands of the ledger family: reads, publishes, recalls, leases, extents, maps, pulls and returning units.
12_ledger.md R273 to R299.
-/
namespace Sys2Proof.Machine

/-! ## Responses of the node's own requests -/

/-- A response in the queue that no handler has taken. -/
def respMsg (s : State) (id : Nat) (op : Opcode) : Option Msg :=
  (msgOf s id).filter fun m => m.resp && decide (m.opcode = op) && decide (m.phase = .arrived)

/-- Takes from a connection the request that a response names. -/
def takeAsk (s : State) (m : Msg) : State × Option Ask :=
  match m.origin with
  | .conn _ idx _ =>
    match (connOf s idx).bind fun c => c.asked.find? fun a => decide (a.seq = some m.replyTo) with
    | some a => (modConn s idx fun c => { c with asked := c.asked.erase a }, some a)
    | none => (s, none)
  | _ => (s, none)

/-- The home of a line could not answer: the checks that wait for it end with BUSY; a line the node lives by, and one it pulls,
stays to be read again (assumption 182). -/
def readFailed (s : State) (l : Nat) : State :=
  let s := modLedg s fun y => { y with reads := y.reads.filter fun r => decide (r.line ≠ l) || ! r.why.checks }
  (s.msgs.filter fun p => decide (p.2.phase = .waitLine l)).foldl (fun s p => refuseNine s p.1 .busy []) s

/-- The oldest of the node's reads that no request stands for is sent again; a line whose home is here by now needs none.
12_ledger.md R274, R282 (assumption 182). -/
def retryReads (s : State) : State :=
  let asked := fun (l : Nat) => s.fab.conns.any fun p => p.2.asked.any fun a => decide (a.op = .ledgerRead) && decide (a.about = l)
  match s.ledg.reads.find? fun r => ! asked r.line with
  | none => s
  | some r =>
    let pull := match r.why with
      | .pull _ => true
      | _ => false
    let home := if pull then oldHome s r.line else lineHome s s.ledg.newest r.line
    match home with
    | none => s
    | some (ep, _) =>
      if isOwn s ep then
        let s := modLedg s fun y => { y with reads := y.reads.filter fun q => decide (q.line ≠ r.line),
                                             verify := y.verify.filter fun v => decide (v ≠ r.line) }
        wakeLine s r.line
      else (ask s (ledgerHub s) ep .ledgerRead r.line (ledgerReadReq true (! pull) pull r.line)).1

/-- Earlier ledger requests of one line that have not been handled (R277: arrival order). -/
def earlierAtLine (s : State) (id l : Nat) : Bool :=
  s.msgs.any fun p => decide (p.1 < id) && ! p.2.resp && decide (p.2.phase = .arrived) &&
    (decide (p.2.opcode = .ledgerRead) || decide (p.2.opcode = .ledgerPublish)) && decide (fld p.2.be p.2.payload 8 8 = l)

/-! ## Requests at the home (R275 to R277) -/

/-- The answer to a read, from the entry as found: a cached read makes the reader a sharer, with a holder copy or a lease. An
entry of version 0 has no content: NOT_FOUND. 12_ledger.md R274, R275. -/
def grantLine (s : State) (id : Nat) (m : Msg) (h l : Nat) (e : DirEntry) (cache : Bool) : State :=
  let hold := holderCopy s l e.content m.endpoint
  let lease := if cache ∧ ¬ hold then rget s .ledger_lease_us h 0 else 0
  let s := if cache then modDir s h l fun e =>
      { addSharer e m.endpoint with grantTime := if hold then e.grantTime else homeNow s h }
    else s
  let st := if e.version = 0 then Status.notFound else .ok
  answer s id .ledgerRead st 0 (ledgerReadResp m.be st lease e.version l e.content)

/-- A read of a line that has no entry: NOT_FOUND. A cached read makes the reader a sharer all the same, so that its copy has
a lease or is recalled: an entry of version 0 is made for it (DEDUCED, assumption 147). 12_ledger.md R274, R275. -/
def readNone (s : State) (id : Nat) (m : Msg) (h l : Nat) (cache : Bool) : State :=
  if ! cache then answer s id .ledgerRead .notFound 0 (ledgerReadResp m.be .notFound 0 0 l [])
  else
    match newEntry s h l .valid s.ledg.newest 0 (zeros 64) with
    | (s, true) =>
      match dirOf s h l with
      | some e => grantLine s id m h l e true
      | none => s
    | (s, false) => answer s id .ledgerRead .busy 0 (ledgerReadResp m.be .busy 0 0 l [])

/-- A LEDGER_READ is answered by the line's home. 12_ledger.md R275, R277, R293. -/
def homeRead (s : State) (id : Nat) (m : Msg) (h l : Nat) (cache pull : Bool) : State :=
  match findLine s h l with
  | (s, .error st) => answer s id .ledgerRead st 0 (ledgerReadResp m.be st 0 0 l [])
  | (s, .ok none) =>
    if pull then readNone s id m h l false
    else
      match oldHome s l with
      | none => readNone s id m h l cache
      | some _ =>
        match startPull s h l with
        | (s, true) => setPhase s id (.waitHome l)
        | (s, false) => answer s id .ledgerRead .busy 0 (ledgerReadResp m.be .busy 0 0 l [])
  | (s, .ok (some e)) =>
    if e.state ≠ .valid then setPhase s id (.waitHome l)
    else if pull then startPublish (setPhase s id (.waitHome l)) h l .pull e.content id
    else grantLine s id m h l e cache

/-- LEDGER_READ. 12_ledger.md R275. -/
def execLedgerRead (msg : Nat) (s : State) : Next :=
  .next (match mayStart s msg .ledgerRead with
    | none => s
    | some m =>
      let l := fld m.be m.payload 8 8
      let fl := fld m.be m.payload 1 1
      if m.resp ∨ earlierAtLine s msg l then s
      else if fld m.be m.payload 0 1 % 16 ≠ 1 then
        answer s msg .ledgerRead .version 0 (ledgerReadResp m.be .version 0 0 l [])
      else
        match servedHome s m l with
        | none => runNine s msg
        | some h => flush (homeRead s msg m h l (bit1 fl 0 && ! viaPcie m) (bit1 fl 1 && decide (m.tenant = 0) && ! viaPcie m)))

/-- LEDGER_PUBLISH. 12_ledger.md R276, R277, R280. -/
def execLedgerPublish (msg : Nat) (s : State) : Next :=
  .next (match mayStart s msg .ledgerPublish with
    | none => s
    | some m =>
      let l := fld m.be m.payload 8 8
      if m.resp ∨ earlierAtLine s msg l then s
      else
        match servedHome s m l with
        | none => runNine s msg
        | some h =>
          let go := fun (s : State) =>
            flush (homePublish (setPhase s msg (.waitHome l)) h l ⟨m.tenant, m.endpoint, operatorRole s m⟩
              (fld m.be m.payload 0 1 % 16) (fld m.be m.payload 16 8) (takeBytes m.payload 24 64) msg)
          match findLine s h l with
          | (s, .error st) => answer s msg .ledgerPublish st 0 (ledgerPubResp m.be st 0 0 l)
          | (s, .ok (some e)) => if e.state ≠ .valid then setPhase s msg (.waitHome l) else go s
          | (s, .ok none) =>
            if (oldHome s l).isNone then go s
            else
              match startPull s h l with
              | (s, true) => flush (setPhase s msg (.waitHome l))
              | (s, false) => answer s msg .ledgerPublish .busy 0 (ledgerPubResp m.be .busy 0 0 l))

/-! ## Recalls (R277, R278) -/

/-- Whether the node reads a recalled line again at once: EXTENT, OWNER and MAP lines it held. 12_ledger.md R274, R279. -/
def rereads (l : Nat) : Bool := decide (lineKind l ≠ lkRegion)

/-- RECALL: older copies go, the answer leaves at once, and a line the node lives by is read again.
12_ledger.md R278, R279. -/
def execRecall (msg : Nat) (s : State) : Next :=
  .next (match mayStart s msg .recall with
    | none => s
    | some m =>
      let l := fld m.be m.payload 8 8
      let v := fld m.be m.payload 16 8
      let had : Bool := match aget s.ledg.copies l with
        | some c => decide (c.version < v)
        | none => false
      let s := if had then modLedg s fun y => { y with copies := adel y.copies l } else s
      let s := if s.ledg.reads.any fun r => decide (r.line = l) then
          modLedg s fun y => { y with floors := aset y.floors l (max v (agetD y.floors l 0)) }
        else s
      let s := answer s msg .recallAck .ok 0 (recallBytes m.be l v)
      if had ∧ rereads l then
        match lineHome s s.ledg.newest l with
        | some (ep, _) => holdExtent (sendRead s ep l .recalled false).1
        | none => s
      else s)

/-- RECALL_ACK: when no sharer's answer is missing, the publish is written. 12_ledger.md R277. -/
def execRecallAck (msg : Nat) (s : State) : Next :=
  .next (match (msgOf s msg).filter fun m => decide (m.opcode = .recallAck) && decide (m.phase = .arrived) with
    | none => s
    | some m =>
      let l := fld m.be m.payload 8 8
      let v := fld m.be m.payload 16 8
      let s := match m.origin with
        | .conn _ idx _ => modConn s idx fun c => { c with asked := c.asked.filter fun a =>
            ! (decide (a.op = .recall) && decide (a.about = l)) }
        | _ => s
      let s := dropMsg s msg
      match s.ledg.dir.find? fun p => decide (p.1.2 = l) && decide (p.2.version + 1 = v) && p.2.pub.isSome with
      | some p => flush (sharerGone s p.1.1 l m.endpoint)
      | none => s)

/-- Local time of the home at which a sharer's recall wait ends. 12_ledger.md R277 step 4. -/
def recallDue (s : State) (h l : Nat) (e : DirEntry) (p : Publish) (sharer : Nat) : Nat :=
  if ! holderCopy s l e.content sharer then e.grantTime + rget s .ledger_lease_us h 0 * 1025 * 1000 / 1024 + 100000
  else if p.kind = .commit then e.leaseEnd
  else p.at_ + rget s .ledger_holder_wait_us h 0 * 1000

/-- RECALL_WAIT_EXPIRY. 12_ledger.md R277 step 4, R287, R288. -/
def execRecallWaitExpiry (hub : Hub) (line sharer : Nat) (s : State) : Next :=
  .next (match dirOf s hub line with
    | none => s
    | some e =>
      match e.pub with
      | none => s
      | some p =>
        if ! p.waiting.contains sharer then s
        else
          let s := passTo s ((quadHub s hub).getD hub) (recallDue s hub line e p sharer)
          let s := bump s .ledger_RECALL_TIMEOUTS hub
          if holderCopy s line e.content sharer ∧ p.kind = .plain ∧ lineKind line ≠ lkMap then
            flush (failPublish s hub line .busy)
          else flush (sharerGone s hub line sharer))

/-- LEASE_EXPIRY: a leased copy ceases to be valid. 12_ledger.md R274. -/
def execLeaseExpiry (line : Nat) (s : State) : Next :=
  .next (match aget s.ledg.copies line with
    | some ⟨_, _, some (h, t)⟩ => modLedg (passTo s h t) fun y => { y with copies := adel y.copies line }
    | _ => s)

/-- TRANSFER_LEASE_EXPIRY: the home aborts the transfer. 12_ledger.md R288. -/
def execTransferLeaseExpiry (hub : Hub) (line : Nat) (s : State) : Next :=
  .next (match dirOf s hub line with
    | none => s
    | some e =>
      let o := Owner.parse e.content
      if lineKind line ≠ lkOwner ∨ e.state ≠ .valid ∨ ! o.transfer ∨ e.leaseEnd = 0 then s
      else
        let s := passTo s ((quadHub s hub).getD hub) e.leaseEnd
        flush (startPublish s hub line .abort
          { o with transfer := false, gen := (o.gen + 1) % 2 ^ 32, target := 0, lease := 0, key := 0 }.bytes 0))

/-! ## Extents (R283) -/

/-- Whether a merge reads a page in an extent. -/
def ctxTouches (s : State) (k e : Nat) (x : MergeCtx) : Bool :=
  match descOf s x.desc, msgOf s x.msg with
  | some d, some m =>
    let a := Att.parse m.be m.payload
    (openedPages s x.desc d a (attPattern m.be a m.payload d)).any fun p =>
      decide (lpnSlice p.2.2.lpn = k) && decide (lpnExtent p.2.2.lpn = e)
  | _, _ => false

/-- Ends an ATTEND's merge without records. 12_ledger.md R283 step 4. -/
def revokeCtx (s : State) (ctx : Nat) (x : MergeCtx) : State := deliver (endCtx s ctx x) x .revoked [] 0 0 0

/-- Ends the snapshots of pages and buffers in an extent that is withdrawn. 12_ledger.md R283 step 4. -/
def revokeSnaps (s : State) (k e : Nat) : State :=
  let inside := fun (l : Nat) => decide (lpnSlice l = k) && decide (lpnExtent l = e)
  (s.dill.snaps.filter fun p => p.2.lpn.any inside).foldl (fun s p =>
    let s := dropSnap s p.1 p.2
    let s := match msgOf s p.2.msg with
      | none => s
      | some m => bump s .ledger_EXTENT_REVOKED m.hub
    answerSnap s p.2 (.error .revoked)) s

/-- Steps 5 and 6 of a withdrawal: the BUFFER regions and snapshots of an extent end, then it is scrubbed.
11_remote_access.md R265, 12_ledger.md R283, R297 step 3. -/
def clearExtent (s : State) (k e : Nat) : State :=
  let s := revokeSnaps s k e
  scrubExtent ((extentBuffers s k e).foldl (fun s i => startRevoke s i none none) s) k e

/-- EXTENT_DRAIN_EXPIRY: steps 4 to 6 of R283. 12_ledger.md R283. -/
def execExtentDrainExpiry (slice : Slice) (extent : Nat) (s : State) : Next :=
  .next (let x := extentSt s slice extent
    if x.state ≠ .closing ∨ x.scrubbing then s
    else
      let k : Nat := slice
      let s := passTo s (homeHub s k) x.drainEnd
      let s := (s.merge.ctxs.filter fun p => ctxTouches s k extent p.2).foldl (fun s p =>
        revokeCtx s p.1 p.2) s
      let s := clearExtent s k extent
      modLedg s fun y => { y with exts := aset y.exts (k, extent) { x with scrubbing := true } })

/-- EXTENT_SCRUB_COMPLETE: the last BUFFER gone, the node publishes CLOSING to FREE. 12_ledger.md R283 steps 5 to 7. -/
def execExtentScrubComplete (slice : Slice) (extent : Nat) (s : State) : Next :=
  .next (let x := extentSt s slice extent
    if x.state ≠ .closing ∨ ! x.scrubbing then s
    else if ! (extentBuffers s slice extent).isEmpty then s
    else
      let l := extentLine (nodeEndpoint s) slice extent
      flush (queuePub s l (ExtLine.bytes ⟨1, 0, 0, (x.gen + 1) % 2 ^ 32, 0⟩) (((heldContent s l).map (·.1)).getD 0)))

/-! ## Maps (R291 to R293) -/

/-- Requests in flight under an epoch at every hub. 12_ledger.md R292. -/
def inflightAll (s : State) (epoch : Nat) : Nat := sumNat ((List.range 8).map fun h => inflightUnder s h epoch)

/-- Every EXTENT line of the node, read as holder copies. 12_ledger.md R282. -/
def readExtents (s : State) : State :=
  (List.range 32).foldl (fun s k => (List.range (extentCount s - 2)).foldl (fun s e =>
    let l := extentLine (nodeEndpoint s) k e
    match lineHome s s.ledg.newest l with
    | none => s
    | some (ep, h) =>
      if isOwn s ep then
        match dirOf s h l with
        | some d => if d.state = .valid then applyExtent s l (lineContent d.version d.content) else s
        | none => s
      else if (aget s.ledg.copies l).isSome then s
      else (sendRead s ep l .recalled false).1) s) s

/-- MAP_ADOPT: the newly read map becomes newest once nothing is in flight under the oldest. 12_ledger.md R292. -/
def execMapAdopt (s : State) : Next :=
  .next (let n := s.ledg.pendEpoch
    if n = 0 ∨ (s.ledg.previous ≠ 0 ∧ 0 < inflightAll s s.ledg.previous) then s
    else
      let prev := s.ledg.newest
      let live := fun (e : Nat) => decide (e = n) || decide (e = prev) || serialLt 16 n e
      let s := setPending (modLedg s fun y => { y with newest := n, previous := prev, maps := y.maps.filter fun p => live p.1 })
      let s := if isMember s (nodeEndpoint s) then modLife s fun y => { y with member := true } else s
      wakeEpoch (readExtents s))

/-- EPOCH_WAIT_EXPIRY. 12_ledger.md R291. -/
def execEpochWaitExpiry (msg : Nat) (s : State) : Next :=
  .next (match msgOf s msg with
    | some m =>
      if m.phase = .waitEpoch then
        refuseNine (passTo s m.hub (m.at_ + rget s .ledger_epoch_wait_us m.hub 0 * 1000)) msg .busy []
      else s
    | none => s)

/-- LINE_PULL. 12_ledger.md R293. -/
def execLinePull (hub : Hub) (line : Nat) (s : State) : Next :=
  .next (match lineHome s s.ledg.newest line with
    | some (ep, h) => if isOwn s ep ∧ h = hub then (startPull s hub line).1 else s
    | none => s)

/-- PULL_TIMEOUT: the line of an absent old home is created anew. 12_ledger.md R293. -/
def execPullTimeout (hub : Hub) (line : Nat) (s : State) : Next :=
  .next (match dirOf s hub line with
    | none => s
    | some e =>
      if e.state ≠ .arriving then s
      else
        let at_ := (s.ledg.reads.find? fun r => decide (r.line = line)).map fun r => (r.hub, r.at_)
        let s := match at_ with
          | some (h, t) => passTo s h (t + rget s .ledger_pull_timeout_us hub 0 * 1000)
          | none => s
        let absent : Bool := match oldHome s line with
          | some (ep, _) => ! isMember s ep
          | none => true
        if absent then
          let s := bump s .ledger_LINES_LOST hub
          let s := modDir s hub line fun e => { e with state := .valid }
          let s := modLedg s fun y => { y with reads := y.reads.filter fun r => decide (r.line ≠ line) }
          wakeLine (wakeHome s line) line
        else s)

/-! ## Answers to the node's own requests -/

/-- Installs what a read of a line brought, for every reason it was read. 12_ledger.md R274, R275, R278, R293. -/
def installLine (s : State) (l : Nat) (st : Option Status) (lease version : Nat) (content : List Byte) : State :=
  let rs := s.ledg.reads.filter fun r => decide (r.line = l)
  let floor := agetD s.ledg.floors l 0
  let old := version < floor
  let s := modLedg s fun y => { y with reads := y.reads.filter fun r => decide (r.line ≠ l), floors := adel y.floors l,
                                       verify := if old then y.verify else y.verify.filter fun v => decide (v ≠ l) }
  match rs.head? with
  | none => s
  | some r =>
    if old then
      match lineHome s s.ledg.newest l with
      | some (ep, _) => rs.foldl (fun s r => (sendRead s ep l r.why false).1) s
      | none => s
    else
      let pull := rs.find? fun r => match r.why with
        | .pull _ => true
        | _ => false
      match pull with
      | some ⟨_, .pull h, _, _⟩ =>
        let s := modDir s h l fun e => { e with state := .valid, homeEpoch := s.ledg.newest,
                                                version := if st = some .ok then version else 0,
                                                content := if st = some .ok then content else zeros 64 }
        wakeLine (wakeHome (lineChanged s l (if st = some .ok then lineContent version content else none)) l) l
      | _ =>
        let copy : LineCopy := ⟨version, content, if lease = 0 then none else some (r.hub, r.at_ + lease * 1000)⟩
        let s := if st = some .ok ∨ st = some .notFound then modLedg s fun y => { y with copies := aset y.copies l copy } else s
        wakeLine (lineChanged s l (lineContent version content)) l

/-- LEDGER_READ_RESPONSE. 12_ledger.md R275, R279. -/
def execLedgerReadResponse (msg : Nat) (s : State) : Next :=
  .next (match respMsg s msg .ledgerRead with
    | none => s
    | some m =>
      let l := fld m.be m.payload 16 8
      let st := Status.ofCode (fld m.be m.payload 1 1)
      let (s, a) := takeAsk s m
      let s := dropMsg s msg
      match a with
      | none => s
      | some _ =>
        if st = some .ok ∨ st = some .notFound then
          flush (installLine s l st (fld m.be m.payload 2 2) (fld m.be m.payload 8 8) (takeBytes m.payload 24 64))
        else readFailed s l)

/-- Reads a line again for a copy of which the node is a sharer, unless a read of it is outstanding. 12_ledger.md R274. -/
def readAgain (s : State) (l : Nat) : State :=
  if s.ledg.reads.any fun r => decide (r.line = l) then s
  else
    match lineHome s s.ledg.newest l with
    | some (ep, _) => (sendRead s ep l .recalled false).1
    | none => s

/-- LEDGER_PUBLISH_RESPONSE: the node's own publish took effect, or lost. The publish made no sharer of the node, so the content
it published is no copy it may keep: it reads the line again. 12_ledger.md R274, R276, R277 step 5, R283, R287. -/
def execLedgerPublishResponse (msg : Nat) (s : State) : Next :=
  .next (match respMsg s msg .ledgerPublish with
    | none => s
    | some m =>
      let l := fld m.be m.payload 16 8
      let st := Status.ofCode (fld m.be m.payload 1 1)
      let v := fld m.be m.payload 8 8
      let (s, a) := takeAsk s m
      let s := dropMsg s msg
      let own := s.ledg.pubs.find? fun p => decide (p.line = l)
      match a, own with
      | some _, some p =>
        let s := modLedg s fun y => { y with pubs := y.pubs.filter fun q => decide (q.line ≠ l) }
        if st = some .ok then
          let s := lineChanged (modLedg s fun y => { y with copies := adel y.copies l }) l (lineContent v p.content)
          flush (readAgain s l)
        else
          let s := dropDest (modLedg s fun y => { y with copies := adel y.copies l }) (l % 2 ^ 62)
          match lineHome s s.ledg.newest l with
          | some (ep, _) => (sendRead s ep l .recalled false).1
          | none => s
      | _, _ => s)

/-! ## Units that return (R297) -/

/-- Drops the descriptor of a sequence that a returning unit may not keep. 12_ledger.md R297 step 4. -/
def dropStale (s : State) (i : Nat) : State :=
  match descOf s i with
  | none => s
  | some d => dropHere s i d

/-- Whether the ledger, as this node holds it, still names this node as holder of a sequence. -/
def stillHeld (s : State) (d : Desc) : Bool :=
  match heldContent s (ownerLine d.handle) with
  | some (v, c) =>
    match lineContent v c with
    | some c => isOwn s (Owner.parse c).holder && decide ((Owner.parse c).gen = d.ownerGen)
    | none => false
  | none => false

/-- Whether the ledger's view of an extent agrees with the slice's. 12_ledger.md R297 step 3. -/
def extentAgrees (s : State) (k e : Nat) : Bool :=
  let x := extentSt s k e
  let y : ExtLine := match heldContent s (extentLine (nodeEndpoint s) k e) with
    | some (v, c) => match lineContent v c with
      | some c => ExtLine.parse c
      | none => ⟨1, 0, 0, 0, 0⟩
    | none => ⟨1, 0, 0, 0, 0⟩
  decide (x.tenant = y.tenant) && decide (x.gen = y.gen)

/-- Lines that slices' verification reads: their extents' and their sequences'. 12_ledger.md R297 steps 3 and 4. -/
def verifyLines (s : State) (ks : List Nat) : List Nat :=
  (ks.flatMap fun k => (List.range (extentCount s - 2)).map fun e => extentLine (nodeEndpoint s) k e) ++
    (s.seqs.descs.filter fun p => (seqNeeds p.1 p.2).any fun k => ks.contains k).map fun p => ownerLine p.2.handle

/-- Reads again every line a verification needs, and others named; a node that was never a member needs none. 12_ledger.md R297,
16_lifecycle.md R378 step 11. -/
def startVerify (s : State) (ks more : List Nat) : State :=
  if ! s.life.member then s
  else
    (verifyLines s ks ++ more).eraseDups.foldl (fun s l =>
      match lineHome s s.ledg.newest l with
      | none => modLedg s fun y => { y with verify := y.verify ++ [l] }
      | some (ep, _) =>
        if isOwn s ep then s
        else
          let s := modLedg s fun y => { y with copies := adel y.copies l, verify := y.verify ++ [l] }
          (sendRead s ep l .verify false).1) s

/-- Verifies a slice: extents whose tenancy disagrees are scrubbed, sequences held elsewhere are dropped, and one whose line is
in TRANSFER to this node is pulled (assumption 48). 12_ledger.md R297 steps 3 and 4. -/
def verifySlice (s : State) (k : Nat) : State :=
  let bad := (List.range (extentCount s - 2)).filter fun e => ! extentAgrees s k e
  if ! s.life.member then s
  else
  let s := bad.foldl (fun s e =>
    let s := clearExtent s k e
    let l := extentLine (nodeEndpoint s) k e
    applyExtent s l ((heldContent s l).bind fun x => lineContent x.1 x.2)) s
  let mine := s.seqs.descs.filter fun p => decide (k ∈ seqNeeds p.1 p.2) && ! stillHeld s p.2
  mine.foldl (fun s p =>
    let l := ownerLine p.2.handle
    let s := dropStale s p.1
    match heldContent s l with
    | some (v, c) => lineChanged s l (lineContent v c)
    | none => s) s

/-- Blocks of a hub's Chive index: each is marked for rebuilding from its authorities. 12_ledger.md R297 step 5. -/
def rebuildHub (s : State) (h : Nat) : State :=
  let blocks := ((s.chive.shadow.filter fun p => decide (p.1.1 = h)).map fun p => (h, p.1.2 / 16)).eraseDups
  let new := blocks.filter fun b => ! s.chive.rebuild.contains b
  let s := modChive s fun c => { c with rebuild := c.rebuild ++ new }
  let s := bumpBy s .chive_REBUILDS h new.length
  (s.fab.conns.filter fun p => decide (p.2.hub = h) && p.2.onChip).foldl (fun s p => dropConn s p.1) s

/-- UNIT_RETURN: steps 1 to 7 of R297. 12_ledger.md R297. -/
def execUnitReturn (unit : Unit_) (s : State) : Next :=
  .next (match unit with
    | .slice k =>
      let x := sliceSt s k
      match x.unitSt with
      | .inService => modSlice s k fun y => { y with unitGen := (y.unitGen + 1) % 2 ^ 32, unitSt := .quarantined }
      | .quarantined => startVerify (modSlice s k fun y => { y with unitSt := .verifying }) [k] []
      | .verifying => if ! s.ledg.verify.isEmpty then s else modSlice (verifySlice s k) k fun y => { y with unitSt := .inService }
    | .hub h =>
      let x := hubSt s h
      match x.unitSt with
      | .inService => modHub s h fun y => { y with unitGen := (y.unitGen + 1) % 2 ^ 32, unitSt := .quarantined }
      | .quarantined => modHub s h fun y => { y with unitSt := .verifying }
      | .verifying => modHub (rebuildHub s h) h fun y => { y with unitSt := .inService }
    | .node =>
      match s.life.nodeUnit with
      | .inService => modLife s fun y =>
          { y with nodeGen := (y.nodeGen + 1) % 2 ^ 32, nodeUnit := .quarantined, leftEpoch := s.ledg.newest }
      | .quarantined =>
        let s := modLife s fun y => { y with nodeUnit := .verifying }
        let held := (s.ledg.copies.filter fun c => c.2.lease.isNone).map (·.1)
        startVerify (readHead (modLedg s fun y => { y with copies := [] })) (List.range 32)
          (held.filter fun l => decide (l ≠ headLine))
      | .verifying =>
        if ! s.ledg.verify.isEmpty then s
        else
        let s := (List.range 32).foldl verifySlice s
        let stale := s.ledg.pendEpoch ≠ 0 ∨ s.ledg.newest ≠ s.life.leftEpoch
        let s := if stale then s.ledg.dir.foldl (fun s p => dropEntry s p.1.1 p.1.2) s else s
        modLife s fun y => { y with nodeUnit := .inService })

end Sys2Proof.Machine
end

