-- ==== Sys2Proof/Machine/Traffic.lean ====
section
/-!
DEFINITION. The commands of the traffic family, with the policing, scheduling, shaping and gate operations they share.
13_traffic.md R300 to R315.
-/
namespace Sys2Proof.Machine

/-! ## Policing (R300 to R305) -/

/-- A policer profile. 13_traffic.md R302. -/
structure Prof where
  on       : Bool
  cir      : Nat
  cbs      : Nat
  pir      : Nat
  pbs      : Nat
  minClass : Nat
  deriving DecidableEq, Repr, Inhabited

/-- A node-wide field as a hub has it in force: a write that the hub has still to apply shows its value before.
13_traffic.md R305, R309. -/
def hubField (s : State) (h : Nat) (r : Reg) (i : Nat) : Nat :=
  match s.traf.lag.find? fun x => decide (x.1 = r) && decide (x.2.1 = i) && x.2.2.2.contains h with
  | some x => x.2.2.1
  | none => rget s r 0 i

/-- Profile p as a hub has it in force. -/
def profOf (s : State) (h p : Nat) : Prof :=
  { on := decide (hubField s h .traffic_prof_enable p = 1), cir := hubField s h .traffic_cir_mbps p,
    cbs := hubField s h .traffic_cbs p, pir := hubField s h .traffic_pir_mbps p, pbs := hubField s h .traffic_pbs p,
    minClass := hubField s h .traffic_min_class p }

/-- Profile that an entry names at a hub: an endpoint's (R300), a function's (14_host.md R319). -/
def profIndex (s : State) (h key : Nat) : Nat :=
  if key < 2 ^ 24 then hubField s h .traffic_pol_profile key
  else rget s .port_fn_profile ((key - 2 ^ 24) / 64) ((key - 2 ^ 24) % 64)

/-- An entry brought to refill number us. 13_traffic.md R303. -/
def Policer.refill (x : Policer) (p : Prof) (us : Nat) : Policer :=
  let n := us - x.at_
  { x with tc := min (x.tc + n * p.cir) (8 * p.cbs), tp := min (x.tp + n * p.pir) (8 * p.pbs), at_ := max us x.at_ }

/-- An entry at refill number us; one that was never used is full. 13_traffic.md R303. -/
def policerAt (s : State) (h key : Nat) (p : Prof) (us : Nat) : Policer :=
  match aget s.traf.pols (h, key) with
  | some x => x.refill p us
  | none => ⟨8 * p.cbs, 8 * p.pbs, us, .green, 0⟩

/-- The two-rate three-colour marker on an entry. 13_traffic.md R302. -/
def colourOf (x : Policer) (bytes : Nat) : Policer × Colour :=
  let n := 8 * bytes
  if x.tp < n then (x, .red)
  else if x.tc < n then ({ x with tp := x.tp - n }, .yellow)
  else ({ x with tp := x.tp - n, tc := x.tc - n }, .green)

/-- Refills until tp reaches a charge; 2^20 when it never does (R312). -/
def redWait (p : Prof) (x : Policer) (bytes : Nat) : Nat :=
  if p.pir = 0 ∨ p.pbs < bytes then 2 ^ 20 else min (ceilDiv (8 * bytes - x.tp) p.pir) (2 ^ 20)

/-! ## Refills and held writes (R303, R305, R308, R309) -/

/-- Fields whose writes wait for the next refill. 13_traffic.md R309. -/
def heldField (r : Reg) : Bool :=
  r == .traffic_cir_mbps || r == .traffic_cbs || r == .traffic_pir_mbps || r == .traffic_pbs || r == .traffic_min_class ||
    r == .traffic_prof_enable || r == .traffic_pol_profile || r == .traffic_shape_mbps || r == .traffic_shape_burst ||
    r == .traffic_quantum || r == .port_fn_profile

/-- Shaper state of a class; one that was never used is full. 13_traffic.md R308. -/
def shaperOf (s : State) (h u c : Nat) : EgClass :=
  agetD s.traf.shapers (h, u, c) ⟨8 * (rget s .traffic_shape_burst h (16 * u + c) : Nat), 0⟩

/-- Brings every policer entry of a hub to its last refill under the profiles in force there. -/
def settlePolicers (s : State) (h k0 : Nat) : State :=
  modTraf s fun x => { x with pols := x.pols.map fun p =>
    if p.1.1 = h then (p.1, p.2.refill (profOf s h (profIndex s h p.1.2)) k0) else p }

/-- A held write takes effect at a hub: the first hub to refill writes a node-wide field, and the others apply it at their own
refills. 13_traffic.md R305, R309. -/
def applyWrite (h : Nat) (s : State) (w : Reg × Nat × Nat × Nat) : State :=
  let s := if w.1.info.wide then
      modTraf s fun x => { x with lag := x.lag ++
        [(w.1, w.2.2.1, rget s w.1 0 w.2.2.1, (List.range 8).filter fun k => decide (k ≠ h))] }
    else s
  rset s w.1 w.2.1 w.2.2.1 w.2.2.2

/-- Applies the writes that wait for a refill of a hub, together: those no hub has applied yet, and those that others have.
13_traffic.md R309. -/
def applyHeld (s : State) (h k0 : Nat) : State :=
  let mine := fun (w : Reg × Nat × Nat × Nat) =>
    w.1.info.wide || (if w.1 = .port_fn_profile then decide (portHub w.2.1 = h) else decide (w.2.1 = h))
  let todo := s.traf.held.filter mine
  if todo.isEmpty ∧ ! s.traf.lag.any fun x => x.2.2.2.contains h then s
  else
    let s := settlePolicers s h k0
    let s := modTraf s fun x =>
      { x with held := x.held.filter fun w => ! mine w,
               lag := (x.lag.map fun y => (y.1, y.2.1, y.2.2.1, y.2.2.2.filter fun k => decide (k ≠ h))).filter fun y =>
                 ! y.2.2.2.isEmpty }
    todo.foldl (applyWrite h) s

/-- Refills the shapers of a hub n times. 13_traffic.md R308. -/
def refillShapers (s : State) (h n : Nat) : State :=
  modTraf s fun x => { x with shapers := x.shapers.map fun p =>
    if p.1.1 = h then
      let i := 16 * p.1.2.1 + p.1.2.2
      let up : Int := p.2.count + (n * rget s .traffic_shape_mbps h i : Nat)
      let cap : Int := (8 * rget s .traffic_shape_burst h i : Nat)
      (p.1, { p.2 with count := min up cap })
    else p }

/-- Every refill of a hub that its local time has passed. 13_traffic.md R303, R305. -/
def refillTo (s : State) (h : Nat) : State :=
  let k0 := agetD s.traf.refillAt h 0
  let k1 := now s h / 1000
  if k1 ≤ k0 then s
  else
    let s := refillShapers (applyHeld s h k0) h (k1 - k0)
    modTraf s fun x => { x with refillAt := aset x.refillAt h k1 }

/-- A write that waits for the next refill: the refills already due come first. 13_traffic.md R309. -/
def holdWrite (s : State) (r : Reg) (inst idx v : Nat) : State :=
  let s := (List.range 8).foldl refillTo s
  modTraf s fun x => { x with held := x.held ++ [(r, inst, idx, v)] }

/-- Meters a message of an entry. 13_traffic.md R301 to R305. -/
def meter (s : State) (h key bytes : Nat) : State × Colour :=
  let s := refillTo s h
  let p := profOf s h (profIndex s h key)
  if ! p.on then
    (bump (modTraf s fun x => { x with pols := amod x.pols (h, key) fun e => { e with last := .green } }) .traffic_GREEN h, .green)
  else
    let x := policerAt s h key p (now s h / 1000)
    let (y, c) := colourOf x bytes
    let y := { y with last := c, wait := if c = .red then redWait p x bytes else 0 }
    let s := modTraf s fun t => { t with pols := aset t.pols (h, key) y }
    match c with
    | .green => (bump s .traffic_GREEN h, c)
    | .yellow => (bump s .traffic_YELLOW h, c)
    | .red => (bump s .traffic_RED h, c)

/-- Outcome of order 8. -/
inductive Eight where
  /-- the class and colour the message goes on with -/
  | take (cls : Nat) (colour : Colour)
  | busy
  deriving DecidableEq, Repr

/-- Order 8 for a request: remarking by the profile its entry has in force, colouring where it is metered, and the queue.
13_traffic.md R301 to R306. -/
def orderEight (s : State) (h key cls charge : Nat) (metered : Bool) : State × Eight :=
  let room := fun (s : State) (cls : Nat) (c : Colour) =>
    if queueMax ≤ queueLen s h then (bump s .traffic_QUEUE_FULL h, Eight.busy) else (s, .take cls c)
  let s := refillTo s h
  let low := (profOf s h (profIndex s h key)).minClass
  let s := if cls < low then bump s .traffic_REMARKED h else s
  let cls := max cls low
  if ! metered then room s cls .green
  else
    match meter s h key charge with
    | (s, .red) => (s, .busy)
    | (s, .yellow) =>
      if rg s .traffic_yellow_busy_level ≤ hubLevel s h then (bump s .traffic_YELLOW_BUSY h, .busy) else room s cls .yellow
    | (s, .green) => room s cls .green

/-! ## Gates (R310, R311) -/

/-- Rate of a sub-port in Mb/s. 10_fabric.md R218. -/
def subRate (s : State) (h : Nat) : Nat :=
  match rget s .fab_port_mode h 0 with
  | 0 => 1600000
  | 1 => 800000
  | _ => 400000

/-- Whether a time in ns covers the transmission of n bytes at a rate in Mb/s. -/
def covers (rate ns n : Nat) : Bool := decide (8000 * n ≤ ns * rate)

/-- Gate lists of a sub-port. -/
def gatesOf (s : State) (h u : Nat) : Gates := agetD s.traf.gates (h, u) ⟨[], 0, 0, none⟩

/-- Changes the gate lists of a sub-port. -/
def modGates (s : State) (h u : Nat) (f : Gates → Gates) : State :=
  modTraf s fun x => { x with gates := aset x.gates (h, u) (f (gatesOf s h u)) }

/-- Time that a run of entries open for a class lasts from the first on. -/
def openRun (c : Nat) (es : List (Nat × Nat)) : Nat := sumNat ((es.takeWhile fun e => bit1 e.1 c).map (·.2))

/-- A list turned to start with entry i. -/
def turned (es : List (Nat × Nat)) (i : Nat) : List (Nat × Nat) := es.drop i ++ es.take i

/-- Whether a class's gate lets a frame of n bytes start now. 13_traffic.md R310. -/
def gateOpen (s : State) (h u c n : Nat) : Bool :=
  let g := gatesOf s h u
  if g.run.isEmpty ∨ g.run.all fun e => bit1 e.1 c then true
  else
    let es := turned g.run g.index
    match es.head? with
    | none => true
    | some e => bit1 e.1 c && covers (subRate s h) (openRun c es - (now s h - g.since)) n

/-- Whether a gate list is refused. 13_traffic.md R310. -/
def listRefused (rate : Nat) (es : List (Nat × Nat)) : Bool :=
  let shortRun := fun (c : Nat) => (List.range es.length).any fun i =>
    let first := (turned es ((i + es.length - 1) % es.length)).head?.map fun e => ! bit1 e.1 c
    decide (first = some true) && bit1 ((es.getD i (0, 0)).1) c && ! covers rate (openRun c (turned es i)) 9216
  es.isEmpty || decide (64 < es.length) || (es.any fun e => decide (e.2 < 100) || decide (1000000000 < e.2)) ||
    decide (1000000000 < sumNat (es.map (·.2))) ||
    (List.range 16).any fun c => ! (es.any fun e => bit1 e.1 c) || shortRun c

/-- Commits the pending gate list of the sub-port selected, or refuses it with BOUNDS. 13_traffic.md R310, R311. -/
def commitGates (s : State) (h : Nat) : State × Status :=
  let u := rget s .traffic_gl_subport h 0
  let es := (List.range (rget s .traffic_gl_count h (64 * u))).map fun i =>
    (rget s .traffic_gate_mask h (64 * u + i), rget s .traffic_duration_ns h (64 * u + i))
  let base := rget s .traffic_gl_base_lo h (64 * u) + rget s .traffic_gl_base_hi h (64 * u) * 2 ^ 32
  if listRefused (subRate s h) es ∨ base < now s h + 10000 then (rset s .traffic_gl_refused h (64 * u) 1, .bounds)
  else (modGates s h u fun g => { g with pend := some (es, base) }, .ok)

/-- A write to gl_commit, under 14_host.md R321. -/
def execGateListCommit (hub : Hub) (s : State) : Next :=
  if pfSession s then .next (commitGates s hub.val).1 else .next (writeRefused s (primaryPort s))

/-- A committed gate list's base time arrives. 13_traffic.md R311. -/
def execGateListSwitch (hub : Hub) (sub : Sub) (s : State) : Next :=
  let h := hub.val
  match (gatesOf s h sub).pend with
  | none => .next s
  | some (es, base) =>
    let s := refillTo (passTo s h base) h
    .next (bump (modGates s h sub fun g => { g with run := es, index := 0, since := base, pend := none }) .traffic_GATE_SWITCHES h)

/-- The current gate-list entry's duration ends. 13_traffic.md R310. -/
def execGateEntryAdvance (hub : Hub) (sub : Sub) (s : State) : Next :=
  let h := hub.val
  let g := gatesOf s h sub
  match g.run[g.index]? with
  | none => .next s
  | some e =>
    let s := passTo s h (g.since + e.2)
    .next (modGates s h sub fun g =>
      { g with index := if g.index + 1 < g.run.length then g.index + 1 else 0, since := g.since + e.2 })

/-- A refill of a hub's buckets. 13_traffic.md R303, R309. -/
def execBucketRefill (hub : Hub) (s : State) : Next :=
  let h := hub.val
  .next (refillTo (passTo s h ((agetD s.traf.refillAt h 0 + 1) * 1000)) h)

/-! ## Egress (R306 to R308) -/

/-- Length of the Ethernet frame that carries a Plembel frame, FCS included. 10_fabric.md R220, R223, R226. -/
def frameLength (s : State) (h : Nat) (f : Frame) : Nat :=
  let vlan := if rget s .fab_vlan_en h 0 = 1 then 4 else 0
  let ip := if rget s .fab_cell_mode h 0 = 1 then 0 else if rget s .fab_ipv4 h 0 = 1 then 28 else 48
  max 64 (14 + vlan + 16 + ip + hdrLen + f.payLen + 16 + 4)

/-- Whether a queued segment may still be sent: its connection, if any, exists and has not failed. -/
def liveSeg (s : State) (e : EgSeg) : Bool :=
  decide (e.conn = 0) || (connOf s e.conn).any fun c => decide (c.state ≠ .failed)

/-- Segments that wait for a sub-port, oldest first, with their places in the queue. 10_fabric.md R222. -/
def subQueue (s : State) (h u : Nat) : List (Nat × EgSeg) :=
  (s.traf.egress.zipIdx.map fun p => (p.2, p.1)).filter fun p =>
    liveSeg s p.2 && decide (egressAt s p.2.hub p.2.frame.src p.2.frame.connId = some (h, u))

/-- The next segment of a class. -/
def headOf (q : List (Nat × EgSeg)) (c : Nat) : Option (Nat × EgSeg) := q.find? fun p => decide (p.2.cls = c)

/-- Whether a class is eligible: it has a segment, its gate is open and its shaper count is above zero; a shaper as fast
as the sub-port does not limit. 13_traffic.md R307, R308. -/
def eligible (s : State) (h u : Nat) (q : List (Nat × EgSeg)) (c : Nat) : Bool :=
  match headOf q c with
  | none => false
  | some (_, e) =>
    gateOpen s h u c (frameLength s h e.frame) &&
      (decide (subRate s h ≤ rget s .traffic_shape_mbps h (16 * u + c)) || decide (0 < (shaperOf s h u c).count))

/-- Deficit round robin: the class that may send, from the class that holds the turn, with the deficits it changed. `begun`:
the class has added its quantum in this turn. 13_traffic.md R307. -/
def drr (s : State) (h u : Nat) (q : List (Nat × EgSeg)) :
    Nat → Nat → Bool → Assoc Nat Nat → Option (Nat × Assoc Nat Nat)
  | 0, _, _, _ => none
  | n + 1, c, begun, ds =>
    if ! eligible s h u q c then drr s h u q n (nextClass c) false ds
    else
      let d := agetD ds c (shaperOf s h u c).deficit
      let d := if begun then d else d + rget s .traffic_quantum h (16 * u + c)
      let ds := aset ds c d
      match headOf q c with
      | some (_, e) =>
        if frameLength s h e.frame ≤ d then some (c, ds) else drr s h u q n (nextClass c) false ds
      | none => none

/-- Rounds that give every class a frame whatever the quantum, 0 apart. -/
def drrFuel : Nat := 12 * 9217

/-- The map epoch a frame leaves under: the newest, and for a pull of R293 the one before. 10_fabric.md R227, 12_ledger.md
R293. -/
def frameEpoch (s : State) (f : Frame) : Nat :=
  if f.opcode = Opcode.ledgerRead.code ∧ ! bit1 f.flags 4 ∧ bit1 (fld true f.payload 1 1) 1 then s.ledg.previous
  else s.ledg.newest

/-- The header a frame leaves with: acknowledgement, credit, load hint, tag and epoch of the moment. 10_fabric.md R227,
R235, 13_traffic.md R312, R314. -/
def stamped (s : State) (c : Conn) (f : Frame) : Frame :=
  let v0 := decide (c.version = 0)
  { f with loadHint := max f.loadHint (loadHint s c.hub (polEndpoint c.peer) false),
           ack := if c.state = .opening then 0 else c.rcvNext, credit := grantNow s c,
           seq := if unsequenced ((Opcode.ofCode f.opcode).getD .ack) ∧ f.opcode ≠ Opcode.hello.code then c.sndNext else f.seq,
           tag := if v0 then 0 else configTag s, epoch := if v0 then 0 else frameEpoch s f }

/-- The header fields between Ethernet and Plembel of a frame that leaves by a port. 10_fabric.md R226. -/
def encapOf (s : State) (h : Nat) (f : Frame) : Encap :=
  if rget s .fab_cell_mode h 0 = 1 then .cell (rget s .fab_ethertype h 0)
  else
    let v4 := decide (rget s .fab_ipv4 h 0 = 1)
    .routed (! v4) (0xC000 + f.connId % 16384) (rget s .fab_udp_port h 0) 64 2 (if v4 then some 0 else none)

/-- What sending a frame leaves in its connection: the edge granted, the acknowledgement carried, the segment sent.
10_fabric.md R238, R239, 13_traffic.md R314. -/
def noteSent (s : State) (f : Frame) (c : Conn) : Conn :=
  { c with ownCredit := f.credit, edge := sAdd f.ack f.credit, unacked := 0, ackDue := none,
           ring := c.ring.map fun g =>
             if g.seq = f.seq ∧ ! unsequenced ((Opcode.ofCode f.opcode).getD .ack) then
               { g with sent := true, queued := false, sentAt := now s c.hub, again := g.again || bit1 f.flags 2 }
             else g }

/-- A weighted class that has become ineligible while it holds the turn passes the turn on and keeps its deficit.
13_traffic.md R307 step 3. -/
def passTurn (s : State) (h u : Nat) : State :=
  let t := agetD s.traf.turn (h, u) 20
  if t < 16 ∧ ! eligible s h u (subQueue s h u) t then modTraf s fun x => { x with turn := aset x.turn (h, u) (16 + nextClass t) }
  else s

/-- Sends the segment chosen: header, protection, shaper and deficit. 10_fabric.md R223, 13_traffic.md R307, R308. -/
def sendSeg (s : State) (h u i : Nat) (e : EgSeg) (sa : SecAssoc) : State :=
  let len := frameLength s h e.frame
  let f := match connOf s e.conn with
    | some c => stamped s c e.frame
    | none => { e.frame with loadHint := max e.frame.loadHint (loadHint s e.hub (polEndpoint e.frame.dst) false),
                             tag := if e.frame.version = 0 then 0 else configTag s,
                             epoch := if e.frame.version = 0 then 0 else s.ledg.newest }
  let s := modConn s e.conn (noteSent s f)
  let s := modTraf s fun x => { x with egress := x.egress.eraseIdx i }
  let x := shaperOf s h u e.cls
  let x' : EgClass := { count := x.count - (8 * len : Nat), deficit := if e.cls < 4 then 0 else x.deficit - len }
  let s := emptied (modTraf s fun t => { t with shapers := aset t.shapers (h, u, e.cls) x' }) (h, u, e.cls)
  let s := modFab s fun y => { y with subs := amod y.subs (h, u) fun p => { p with tx := some { sa with pn := sa.pn + 1 } } }
  let pcp := if rget s .fab_vlan_en h 0 = 1 then some (7 - e.cls / 2) else none
  settleConn (passTurn (emit s (.frame h u pcp sa.an sa.pn e.peer len (encapOf s h f) f.bytes)) h u) e.conn

/-- A sub-port frame opportunity is served. 13_traffic.md R307; 10_fabric.md R224: nothing is sent before the first key,
nor with a packet number of 2^62 or more. -/
def execEgressFrameOpportunity (hub : Hub) (sub : Sub) (s : State) : Next :=
  let h := hub.val
  let u := sub.val
  let s := refillTo s h
  let s := passTurn (keepEgress s fun e => liveSeg s e) h u
  match (agetD s.fab.subs (h, u) default).tx with
  | none => .next s
  | some sa =>
    if 2 ^ 62 ≤ sa.pn then
      .next (modFab s fun y => { y with subs := amod y.subs (h, u) fun p => { p with up := false, spent := true, tx := none } })
    else
      let q := subQueue s h u
      match ((List.range 4).find? fun c => eligible s h u q c).bind fun c => headOf q c with
      | some (i, e) => .next (sendSeg s h u i e sa)
      | none =>
        if ! ((List.range 16).any fun c => decide (4 ≤ c) && eligible s h u q c) then .next s
        else
          let t := agetD s.traf.turn (h, u) 20
          match drr s h u q drrFuel (if 16 ≤ t then t - 16 else t) (decide (t < 16)) [] with
          | none => .next s
          | some (c, ds) =>
            let s := ds.foldl (fun s p =>
              let x := shaperOf s h u p.1
              modTraf s fun t => { t with shapers := aset t.shapers (h, u, p.1) { x with deficit := p.2 } }) s
            let s := modTraf s fun t => { t with turn := aset t.turn (h, u) c }
            match headOf q c with
            | some (i, e) => .next (sendSeg s h u i e sa)
            | none => .next s

end Sys2Proof.Machine
end

