-- ==== Sys2Proof/Machine/Attend.lean ====
section
/-!
DEFINITION. The commands of the attend and merge families: the request's checks, its scan in the slices, the arrival of
records, and merge points. 04_attend.md R70 to R95, 05_merge.md R103 to R117, 06_append.md R133, R135.
-/
namespace Sys2Proof.Machine

/-! ## Pages as a slice opens them -/

/-- A sealed page's image as an SPage, without its failures. -/
def pageOf (d : Desc) (x : Pat) (lpn idx first count : Nat) (p : List Byte) : SPage :=
  let g := d.geom
  let sk := elems8 (g.sketchB p)
  { lpn := lpn, idx := idx, firstPos := first, tail := false, g := g,
    krows := elemRows g.kf g.t g.d (g.kelB p), ksc := halves (g.kscB p), vrows := elemRows g.vf g.t g.d (g.velB p),
    vsc := halves (g.vscB p), hi := sk.take g.d, lo := (sk.drop g.d).take g.d,
    sigma := (halves ((g.sketchB p).drop (2 * g.d))).headD 0, vis := x.rows first count, err := none, verr := none }

/-- The bytes of a stored page as the word code gives them, and what its header, its sketch and its body meet. Of several
failures of one page the first in this order is reported: a withdrawn extent, an uncorrectable word of the header or the
sketch, a stale reference, the damaged bit or an unknown version, then the body (DESIGN CHOICE, assumption 139). -/
def sealedPage (s : State) (d : Desc) (x : Pat) (bounds : Bool) (idx : Nat) (r : PageRef) : SPage :=
  let g := d.geom
  let a := liveAddr s r.lpn
  let gone := extentGone s d.tenant r.lpn
  let head := (load s a 64 readLane).2
  let sk := (load s (a + g.sketchOff) g.sketchLen readLane).2
  let ksc := if g.kf = fmtQ4C then (load s (a + 64) g.ksc readLane).2 else some []
  let whole := (load s a g.size readLane).2
  let raw := whole.getD (peek s a g.size)
  let h := Hdr.parse raw
  let crc := sealCrc raw
  let err : Option Status :=
    if gone then some .revoked
    else if head.isNone ∨ (bounds ∧ (sk.isNone ∨ ksc.isNone)) then some .uncorrectable
    else if h.kf = fmtNone ∨ h.vf = fmtNone ∨ h.gen ≠ r.gen then some .notFound
    else if h.damaged then some .damaged
    else if h.ver ≠ 1 ∨ ¬ h.geom.ok ∨ h.geom ≠ g then some (if crc ≠ h.crc then .damaged else .version)
    else none
  let verr : Option Status := if whole.isNone then some .uncorrectable else if crc ≠ h.crc then some .damaged else none
  { pageOf d x r.lpn idx r.firstPos r.tokens raw with err := err, verr := verr }

/-- A failing page without contents. -/
def badPage (d : Desc) (idx first : Nat) (vis : List Nat) (st : Status) : SPage :=
  { lpn := 0, idx := idx, firstPos := first, tail := false, g := d.geom, krows := [], ksc := [], vrows := [], vsc := [],
    hi := [], lo := [], sigma := 0, vis := vis, err := some st, verr := none }

/-- The expanded page of a delta block: from the cache, whose least recently used entry comes first, or expanded and cached
where SRAM can be had. 03_sequences.md R69, 04_attend.md R94. -/
def deltaPage (s : State) (k : Nat) (d : Desc) (x : Pat) (kv layer page : Nat) : State × SPage :=
  let first := deltaFirst d page
  let vis := x.rows first d.t
  let ck := (k, d.binding, layer, kv, page)
  match aget s.seqs.cache ck with
  | some a =>
    let s := modSeqs s fun q => { q with cache := adel q.cache ck ++ [(ck, a)] }
    match load s a d.geom.size readLane with
    | (s, some b) => (s, pageOf d x 0 page first d.t b)
    | (s, none) => (s, badPage d page first vis .uncorrectable)
  | none =>
    match blockOf s d layer kv page with
    | none => (s, badPage d page first vis .damaged)
    | some b =>
      match expandDelta s d b with
      | (s, .error st) => (s, badPage d page first vis st)
      | (s, .ok body) =>
        let img := deltaImage d b body
        let s := match sramGet s k d.tenant (ceilDiv d.geom.size 4096) .deltaCache with
          | some (s, a) => modSeqs (poke s a img) fun q => { q with cache := aset q.cache ck a }
          | none => s
        (s, pageOf d x 0 page first d.t img)

/-- Tails of a pair that a slice holds, in ascending page index. -/
def tailsOf (s : State) (i k : Nat) (d : Desc) (layer kv : Nat) : List TailKey :=
  let mine := fun (q : TailKey) => decide (q.desc = i) && decide (q.layer = layer) && decide (q.kv = kv) && decide (d.slice q.page = k)
  let keys := (s.seqs.tails.map (·.1)).filter mine
  sortBy (·.page) (keys ++ ((s.seqs.images.map (·.1)).filter mine).filter fun q => ! keys.contains q)

/-- Whether a tail is read from images that lie in an extent withdrawn from its tenant. 04_attend.md R93. -/
def tailGone (s : State) (d : Desc) (key : TailKey) : Bool :=
  (aget s.seqs.tails key).isNone &&
    (aget s.seqs.images key).any fun x => extentGone s d.tenant x.key || extentGone s d.tenant x.value

/-- A tail as an SPage: read only when it holds a visible position. 04_attend.md R75, R93. -/
def tailPage (s : State) (d : Desc) (x : Pat) (key : TailKey) : State × Option SPage :=
  match tailHdr s key with
  | none => (s, none)
  | some h =>
    let vis := x.rows h.firstPos h.count
    let bad := fun (st : Status) => { badPage d key.page h.firstPos vis st with tail := true }
    if vis.isEmpty then (s, none)
    else if tailGone s d key then (s, some (bad .revoked))
    else
      match loadTail s d key readLane with
      | (s, .none) => (s, none)
      | (s, .bad) => (s, some (bad .uncorrectable))
      | (s, .ok b) =>
        let (ks, vs) := tailRows d.geom b
        (s, some
          { lpn := 0, idx := key.page, firstPos := h.firstPos, tail := true, g := d.geom,
            krows := ks.map fun r => r.map Int.ofNat, ksc := [], vrows := vs.map fun r => r.map Int.ofNat, vsc := [], hi := [],
            lo := [], sigma := 0, vis := vis, err := none, verr := none })

/-- Whether the lanes read sketches: under TOPPAGES, and under BOUNDED with ε above 0. 04_attend.md R88. -/
def Att.bounds (a : Att) : Bool :=
  decide (a.mode = 2) || (decide (a.mode = 1) && ! f32zero (BitVec.ofNat 32 a.param))

/-- Reads the words of a root's page references, which the lanes go through; those that cannot be read. 03_sequences.md R53,
04_attend.md R93, 08_memory.md R180, R181. -/
def badRefs (s : State) (r : Root) : State × List PageRef :=
  (r.refs.zipIdx).foldl (fun (acc : State × List PageRef) (x, n) =>
    match load acc.1 (homeAddr acc.1 (r.chunks.getD (n / 256) 0) + n % 256 * 16) 16 readLane with
    | (s, some _) => (s, acc.2)
    | (s, none) => (s, acc.2 ++ [x])) (s, [])

/-- The opened pages of a KV head in a slice. 04_attend.md R75, R76, R93. -/
def headPages (s : State) (i k : Nat) (d : Desc) (a : Att) (x : Pat) (off kv : Nat) : State × HeadPages :=
  let bounds := a.bounds
  let deltas := (List.range d.deltaPages).filter fun p => decide (d.slice p = k) && ! (x.rows (deltaFirst d p) d.t).isEmpty
  let (s, dp) := deltas.foldl (fun (acc : State × List SPage) p =>
    let (s, g) := deltaPage acc.1 k d x kv a.layer p
    (s, acc.2 ++ [g])) (s, [])
  let (s, lost) := badRefs s (rootOf s k i (d.pair a.layer kv))
  let sealed := (pairPages s i d (d.pair a.layer kv)).filterMap fun q =>
    let vis := x.rows q.2.firstPos q.2.tokens
    if d.slice q.1 ≠ k then none
    else if lost.contains q.2 then some (badPage d q.1 q.2.firstPos vis .uncorrectable)
    else if vis.isEmpty then none
    else some (sealedPage s d x bounds q.1 q.2)
  let (s, tp) := (tailsOf s i k d a.layer kv).foldl (fun (acc : State × List SPage) q =>
    match tailPage acc.1 d x q with
    | (s, some g) => (s, acc.2 ++ [g])
    | (s, none) => (s, acc.2)) (s, [])
  (s, ⟨kv, off, sortBy (·.idx) (dp ++ sealed ++ tp)⟩)

/-! ## What a scan leaves -/

/-- A page has been opened: the opens of the last 1 ms count toward its promotion. 06_append.md R135. -/
def noteOpen (s : State) (k lpn : Nat) : State :=
  let t := now s (homeHub s k)
  modMem s fun m =>
    { m with opens := aset m.opens lpn (((agetD m.opens lpn []).filter fun x => decide (t < x + 1000000)) ++ [t]),
             promo := amod m.promo lpn fun p => { p with opened := t } }

/-- A visited page is read and checked for good: words corrected, damage marked. 02_pages.md R45, 08_memory.md R180. -/
def settleRead (s : State) (i k : Nat) (d : Desc) (pairs : List Nat) (lpn : Nat) : State :=
  match (pairs.flatMap fun p => pairPages s i d p).find? fun q => decide (q.2.lpn = lpn) with
  | none => s
  | some q => noteOpen (readPage s q.2 d.geom d.tenant true readLane).1 k lpn

/-- A page's sketch is wanted: an entry of the prefetch buffer serves when it is of the page's generation and becomes the
most recently used; one that is not goes and is counted. Answers whether the buffer served. 06_append.md R133. -/
def useSketch (s : State) (k lpn : Nat) : State × Bool :=
  let mine := fun (p : Nat × Nat × Nat) => decide (p.1 = k) && decide (p.2.1 = lpn)
  match s.mem.prefetch.find? mine with
  | none => (s, false)
  | some p =>
    let s := modMem s fun m => { m with prefetch := m.prefetch.filter fun x => ! mine x }
    if p.2.2 = slotGen s lpn then (modMem s fun m => { m with prefetch := m.prefetch ++ [p] }, true)
    else (bump s .tier_PREFETCH_STALE 0, false)

/-- A page's sketch is read, with the channel scales of Q4C keys. 04_attend.md R85, 06_append.md R133. -/
def readSketch (s : State) (g : PGeom) (lpn : Nat) : State :=
  let s := (load s (liveAddr s lpn + g.sketchOff) g.sketchLen readLane).1
  if g.kf = fmtQ4C then (load s (liveAddr s lpn + 64) g.ksc readLane).1 else s

/-- A bounded page's sketch is read, from the prefetch buffer where it serves. A page that is bounded and skipped does not count
as opened for its promotion, nor for its place among the least recently opened: only a visit does, for the spec calls such a
page opened in one place and eligible to be opened in another (DESIGN CHOICE, assumption 168). 06_append.md R133, R135. -/
def settleBound (s : State) (k : Nat) (d : Desc) (lpn : Nat) : State :=
  match useSketch s k lpn with
  | (s, true) => s
  | (s, false) => readSketch s d.geom lpn

/-- Bytes of the prefetch buffer that an entry takes. 06_append.md R133. -/
def sketchSize (g : PGeom) : Nat := g.sketchLen + if g.kf = fmtQ4C then g.ksc else 0

/-- Enters a sketch in a slice's 8 MiB prefetch buffer; the least recently used yield. 06_append.md R133. -/
def prefetchSketch (s : State) (k lpn gen size : Nat) : State :=
  let others := s.mem.prefetch.filter fun p => ! (decide (p.1 = k) && decide (p.2.1 = lpn))
  let mine := others.filter fun p => decide (p.1 = k)
  let room := 0x800000 / max 1 size
  let drop := mine.take (mine.length + 1 - room)
  modMem s fun m => { m with prefetch := (others.filter fun p => ! drop.contains p) ++ [(k, lpn, gen)] }

/-- Prefetch for the next layer: evicted tails return where nothing must yield, sketches enter the buffer.
06_append.md R133. -/
def prefetchNext (s : State) (i k : Nat) (d : Desc) (a : Att) : State :=
  if rg s .tier_prefetch_en = 0 ∨ d.layers ≤ a.layer + 1 then s
  else
    let next := a.layer + 1
    let tails := a.kvRange.flatMap fun p => (tailsOf s i k d next p.2).filter fun q => (aget s.seqs.tails q).isNone
    let units := ceilDiv d.geom.tailSize 4096
    let s := tails.foldl (fun s q =>
      if sramQuotaOk s d.tenant units ∧ (allocSram s k d.tenant units .tail).isSome then
        match reloadTail s d q with
        | .ok t => t
        | .error _ => s
      else s) s
    if a.mode = 0 ∨ rg s .tier_prefetch_sketch = 0 then s
    else
      a.kvRange.foldl (fun s p => ((pairPages s i d (d.pair next p.2)).filter fun q => decide (d.slice q.1 = k)).foldl (fun s q =>
        prefetchSketch (readSketch s d.geom q.2.lpn) k q.2.lpn (slotGen s q.2.lpn) (sketchSize d.geom)) s) s

/-- The request as lanes hold it, with the number of values replaced. 04_attend.md R78. -/
def attQuery (be : Bool) (a : Att) (payload : List Byte) (d : Desc) (x : Pat) : AttQ × Nat :=
  let raw := (List.range a.heads).map fun h => a.queryOf be payload d.dim h
  let heads := raw.zipIdx.map fun (vs, h) =>
    let (qq, qs) := quantizeQuery (d.dim / 32) (vs.map (·.1))
    (⟨qq, qs, a.slopeOf be payload h⟩ : Qh)
  ({ nb := d.dim / 32, dim := d.dim, group := a.group, heads := heads, scale := a.scale, cap := a.cap, pq := x.pq,
     mode := a.mode, eps := BitVec.ofNat 32 a.param, topk := a.param },
   sumNat (raw.map fun vs => (vs.filter (·.2)).length))

/-- The program the kernel table selects for a request: the first valid entry of the operator's that matches and names an
installed program it may name; none where a shipped kernel runs. 07_dill.md R149, R171. -/
def kernelOf (s : State) (tenant mode : Nat) (d : Desc) : Option Nat :=
  ((List.range 12).find? fun i =>
    let g := fun (r : Reg) => rget s r 0 i
    decide (g .dill_kt_valid = 1) && (decide (g .dill_kt_any = 1) || decide (g .dill_kt_tenant = tenant)) &&
      decide (g .dill_kt_key_format = d.keyFormat) && decide (g .dill_kt_value_format = d.valFormat) &&
      decide (g .dill_kt_skip_mode = mode) &&
      (decide (g .dill_kt_program < 16) || decide (rg s .dill_operator_programs = 1)) &&
      (aget s.dill.progs (g .dill_kt_program)).isSome).map fun i => rget s .dill_kt_program 0 i

/-- What an operator's program is given: its words, the request's descriptor and pattern, and the bytes of the pages its slice
holds of the request. 07_dill.md R149. -/
def operatorInput (s : State) (i k : Nat) (d : Desc) (a : Att) (x : Pat) (q : AttQ) (prog : Nat) : List Nat × List Byte :=
  let words := match aget s.dill.progs prog with
    | some p => (List.range p.len).map fun n => agetD s.dill.store (p.start + n) 0
    | none => []
  let pages := ((openedPages s i d a x).filter fun p => decide (d.slice p.2.1 = k)).flatMap fun p =>
    peek s (liveAddr s p.2.2.lpn) d.geom.size
  (words ++ [a.mode, a.param, x.pq.toNat] ++ q.heads.flatMap (fun h =>
      h.slope.toNat :: h.qs.map BitVec.toNat ++ h.qq.map fun v => (BitVec.ofInt 16 v).toNat),
   Desc.core d ++ pages)

/-- The records an operator's program emits: it determines its own results, an opaque function of the program and of what it is
given, so that equal inputs give equal records. 07_dill.md R149 (assumptions 5, 80). -/
def operatorRecs (input : List Nat × List Byte) (n dim : Nat) : List Rec :=
  let w := dim + 8
  let v := fun (i : Nat) => Config.operatorValue input.1 input.2 i
  let f := fun (i : Nat) => (BitVec.ofNat 32 (v i) : F32)
  (List.range n).map fun h =>
     { head := h, m := f (h * w), l := f (h * w + 1), b := f (h * w + 2), scanned := v (h * w + 3) % 2 ^ 32,
       skipped := v (h * w + 4) % 2 ^ 32, o := (List.range dim).map fun j => f (h * w + 8 + j),
       saturated := bit1 (v (h * w + 5)) 0, empty := bit1 (v (h * w + 5)) 1, bounded := bit1 (v (h * w + 5)) 2,
       toppages := bit1 (v (h * w + 5)) 3 }

/-- A slice scans a request: its report, with what the scan leaves in memory, buffers and meters. 04_attend.md R76, R77,
R93, 17_health.md R417. -/
def scanSlice (s : State) (i k : Nat) (d : Desc) (a : Att) (x : Pat) (q : AttQ) : State × Report :=
  let (s, hs) := a.kvRange.foldl (fun (acc : State × List HeadPages) p =>
    let (s, h) := headPages acc.1 i k d a x p.1 p.2
    (s, acc.2 ++ [h])) (s, [])
  let r := sliceScan q hs
  let pairs := a.kvRange.map fun p => d.pair a.layer p.2
  let s := (r.read.filter fun l => decide (l ≠ 0)).foldl (fun s l =>
    settleRead (if a.bounds then (useSketch s k l).1 else s) i k d pairs l) s
  let s := (r.left.filter fun l => decide (l ≠ 0)).foldl (fun s l => settleBound s k d l) s
  let s := modMeter s d.tenant fun m => { m with scanned := m.scanned + r.scanned, skipped := m.skipped + r.skipped }
  (prefetchNext s i k d a, r.rep)

/-- A slice runs the kernel selected: a shipped one, or an operator's. 07_dill.md R149. -/
def runKernel (s : State) (i k : Nat) (d : Desc) (a : Att) (x : Pat) (q : AttQ) (prog : Option Nat) : State × Report :=
  match prog with
  | none => scanSlice s i k d a x q
  | some p =>
    if p ≤ 2 then scanSlice s i k d a x { q with mode := p }
    else
      let rs := operatorRecs (operatorInput s i k d a x q p) a.heads d.dim
      let lead := rs.filter fun r => decide (r.head % max 1 a.group = 0)
      let s := modMeter s d.tenant fun m =>
        { m with scanned := m.scanned + sumNat (lead.map (·.scanned)), skipped := m.skipped + sumNat (lead.map (·.skipped)) }
      (prefetchNext s i k d a, ⟨[], rs⟩)

/-! ## ATTEND (R72) -/

/-- Order 5 of R72 but for the descriptor's part, with R111 and 14_host.md R319. -/
def attBounds (m : Msg) (a : Att) (d : Desc) : Bool :=
  decide (d.layers ≤ a.layer) || decide (a.kvCount = 0) || decide (d.kvHeads < a.kvFirst + a.kvCount) ||
    decide (a.group < 1) || decide (16 < a.group) || decide (256 < a.heads) || decide (64 < a.blocks) ||
    decide (m.payload.length ≠ a.payloadLen d.dim) ||
    (decide (a.tag ≠ 0) && (decide (a.contribs < 1) || decide (64 < a.contribs) || decide (a.point = 0) ||
      (viaPcie m && decide (m.endpoint = 0))))

/-- Order 6 of R72. -/
def attValues (m : Msg) (a : Att) : Bool :=
  let eps : F32 := BitVec.ofNat 32 a.param
  ! f32fin a.scale || ! f32Lt 0#32 a.scale || ! f32fin a.cap || f32Lt a.cap 0#32 ||
    ((List.range a.heads).any fun h => ! f32fin (a.slopeOf m.be m.payload h)) ||
    (decide (a.mode = 1) && (f32nan eps || f32Lt eps 0#32 || f32Lt ONE eps)) ||
    (decide (a.mode = 2) && decide (a.param = 0))

/-- Order 7 of R72. -/
def attPlaces (m : Msg) (a : Att) (d : Desc) : Bool :=
  (a.expQpos && decide (d.length ≤ a.qpos)) || ! blocksOk (a.blockList m.be m.payload)

/-- A slice's kernel runs for a merge: its records leave for the hub that keeps the chain of its quadrant, and at a level of
1 to 7 a pause follows. 07_dill.md R149, 01_node.md R16, 08_memory.md R189, 16_lifecycle.md R390. -/
def runScan (s : State) (ctx k e : Nat) (m : Msg) (i : Nat) (d : Desc) : State :=
  let a := Att.parse m.be m.payload
  let x := attPattern m.be a m.payload d
  let (s, r) := runKernel s i k d a x (attQuery m.be a m.payload d x).1 (kernelOf s m.tenant a.mode d)
  let s := if levelOf s e = 0 then s else pauseAfter s e (levelOf s e) 0
  let home := homeHub s e
  if (hubRoute s home ((quadHub s (k / 4)).getD home)).isNone then s
  else modMerge s fun y => { y with inflight := y.inflight ++ [.slice ctx k r] }

/-- The windows an ATTEND's command gets: its tenant's extents, the request's record buffer and scratch, its tenant's pages
in slice SRAM. The places of the two buffers are constants of Config. 07_dill.md R145 (assumption 171). -/
def attendWindows (k : Nat) (a : Att) (d : Desc) : List Window :=
  let buf := fun (what n : Nat) => (⟨sramOff + Config.placeOf what k * 16 % 0x1000000, roundUp n 16, 1, true, true⟩ : Window)
  [⟨0, 0, 2, true, false⟩, buf 20 (a.heads * recSize true d.dim), buf 21 (16 * a.heads * recSize true d.dim),
   ⟨0, 0, 3, true, false⟩]

/-- The command that the dispatcher writes for a slice's part of an ATTEND: of class background for a yellow message, else
normal. 07_dill.md R144, R145, R149, 13_traffic.md R304. -/
def attendCmd (s : State) (ctx k : Nat) (m : Msg) (d : Desc) : CmdSlot :=
  let a := Att.parse m.be m.payload
  { freeCmd with program := (kernelOf s m.tenant a.mode d).getD a.mode, cls := if m.colour = .yellow then 2 else 1,
                 tenant := m.tenant, laneMask := 0xFFFF, tag := ctx, windows := attendWindows k a d }

/-- A slice's part of a merge: the dispatcher writes a command slot and the lane engine takes it in its turn. Where it is
taken at once, the slot is FREE again by the end of the step; without a FREE slot the dispatcher holds the scan. 07_dill.md
R142, R146, R147. -/
def scanAt (s : State) (ctx i k : Nat) (m : Msg) (d : Desc) : State :=
  let e := servingSlice s k
  let hold := fun (s : State) (n : Option Nat) => modMerge s fun y => { y with held := y.held ++ [⟨ctx, k, e, n⟩] }
  if laneIdle s e then runScan s ctx k e m i d
  else
    match freeCmdSlot s e with
    | none => hold s none
    | some n => hold (fillSlot s e n (attendCmd s ctx k m d)) (some n)

/-- A scan that waited runs, if its merge still stands: by the snapshot of its request. 03_sequences.md R58, 07_dill.md
R146. -/
def runHeld (s : State) (p : HeldScan) : State :=
  let s := modMerge s fun y => { y with held := y.held.filter fun q => decide (q ≠ p) }
  let s := match p.slot with
    | some n => modEng s p.die fun d => { d with slots := adel d.slots n }
    | none => s
  match aget s.merge.ctxs p.ctx with
  | none => s
  | some x =>
    match msgOf s x.msg with
    | some m => runScan s p.ctx p.slice p.die m x.desc x.snap
    | none => s

/-- The scans that a slice's dispatcher holds take the slots that are FREE. 07_dill.md R146. -/
def issueHeld (s : State) (k : Nat) : State :=
  (s.merge.held.filter fun p => decide (p.die = k) && p.slot.isNone).foldl (fun s p =>
    match freeCmdSlot s k with
    | none => s
    | some n =>
      let swap := fun (q : HeldScan) => if q = p then { q with slot := some n } else q
      match (aget s.merge.ctxs p.ctx).bind fun x => (msgOf s x.msg).map fun m => (x, m) with
      | some (x, m) => modMerge (fillSlot s k n (attendCmd s p.ctx p.slice m x.snap)) fun y => { y with held := y.held.map swap }
      | none => modMerge s fun y => { y with held := y.held.filter fun q => decide (q ≠ p) }) s

/-- The scheduler runs when no segment runs and nothing holds the lanes back. An ATTEND's command runs whole and the next is
picked; of another a segment begins. 07_dill.md R146, R147. -/
def scheduleN : Nat → State → Nat → State
  | 0, s, _ => s
  | n + 1, s, k =>
    if (dillOf s k).segment ∨ laneHeld s k then s
    else
      match pickLane s k with
      | none => s
      | some i =>
        match s.merge.held.find? fun p => decide (p.die = k) && decide (p.slot = some i) with
        | some p => scheduleN n (runHeld s p) k
        | none => takeLane s k i

/-- The scheduler of a slice, once its dispatcher has filled the slots that are FREE. 07_dill.md R146, R147. -/
def schedule (s : State) (k : Nat) : State := scheduleN 65 (issueHeld s k) k

/-- The request is fanned out: the sequence is one request heavier, a context opens, every slice scans.
04_attend.md R76 to R78, 05_merge.md R105 to R109. -/
def startAttend (s : State) (id : Nat) (m : Msg) (a : Att) (i : Nat) (d : Desc) : State :=
  let s := modDesc s i fun d => { d with inflight := d.inflight + 1 }
  let x := attPattern m.be a m.payload d
  let bad := (attQuery m.be a m.payload d x).2
  let s := modMeter s m.tenant fun t => { t with merges := t.merges + 1, nonFinite := t.nonFinite + bad }
  let full := deadlineNs s m.hub a.deadline
  let dur := if a.tag = 0 then full else full / 2
  let (ctx, s) := newId s
  let qs := servedQuads s
  let chains := qs.map fun (q, h) => (⟨q, h, [], false, now s h + (dur * 1023 / 1024 - 2500)⟩ : QuadChain)
  let c : MergeCtx :=
    { msg := id, hub := m.hub, tenant := m.tenant, desc := i, snap := d, durNs := dur, deadline := m.at_ + dur, arrival := a.arrival,
      nRecs := a.heads, dim := d.dim, chains := chains, expected := qs.map (·.1), quads := [] }
  let s := modMerge s fun y => { y with ctxs := aset y.ctxs ctx c }
  let s := setPhase s id (.waitMerge ctx)
  let ks := (List.range 32).filter fun k => sliceReachable s (servingSlice s k) &&
    (hubRoute s m.hub (homeHub s (servingSlice s k))).isSome
  ks.foldl (fun s k => scanAt s ctx i k m d) s

/-- An ATTEND request. 04_attend.md R72. -/
def execAttend (msg : Nat) (s : State) : Next :=
  match mayStart s msg .attend with
  | none => .next s
  | some m =>
    let a := Att.parse m.be m.payload
    if a.ver ≠ 1 ∨ a.mode = 3 then .next (refuseAttend s msg m a .version)
    else
      match findSeq s m.hub m.tenant a.handle with
      | (s, .miss) => .next (refuseAttend s msg m a .notFound)
      | (s, .rebuilding) => .next (refuseAttend s msg m a .busy)
      | (s, .hit i) =>
        match descOf s i with
        | none => .next (refuseAttend s msg m a .notFound)
        | some d =>
          let fail := firstFail
            [(! genMatch a.gen d.gen, .notFound), (decide (d.state = .draining), .busy),
             (decide (d.state = .dropping), .notFound), (attBounds m a d, .bounds), (attValues m a, .bounds),
             (attPlaces m a d, .bounds), (! mergeQuotaOk s m.tenant, .quota),
             (! fanRoom s m.hub (setUnits a.heads d.dim) a.arrival, .busy)]
          match fail with
          | some st => .next (refuseAttend s msg m a st)
          | none => .next (startAttend s msg m a i d)

/-! ## Records on their way (05_merge.md R103 to R109) -/

/-- A record set in flight from a slice. -/
def sliceInFlight (s : State) (ctx k : Nat) : Option Report :=
  s.merge.inflight.findSome? fun f => match f with
    | .slice c j r => if c = ctx ∧ j = k then some r else none
    | _ => none

/-- A quadrant record in flight: bitmap, ingress hub, report. -/
def quadInFlight (s : State) (ctx q : Nat) : Option (Nat × Nat × Report) :=
  s.merge.inflight.findSome? fun f => match f with
    | .quad c j b h r => if c = ctx ∧ j = q then some (b, h, r) else none
    | _ => none

/-- A slice's record set arrives at the hub that keeps its quadrant chain. 05_merge.md R103, R106, R109, R444. -/
def execSliceRecordArrival (ctx : Nat) (slice : Slice) (s : State) : Next :=
  let k := slice.val
  let q := k / 4
  match sliceInFlight s ctx k with
  | none => .next s
  | some r =>
    if (aget s.life.moving (servingSlice s k)).isSome then .next s else
    let s := modMerge s fun y => { y with inflight := y.inflight.filter fun f => decide (f ≠ .slice ctx k r) }
    match aget s.merge.ctxs ctx with
    | none => .next (bump s .sorrel_LATE_DISCARDS ((quadHub s q).getD q))
    | some x =>
      match x.chains.find? fun c => decide (c.quad = q) with
      | none => .next s
      | some c =>
        if c.closed then .next (bump s .sorrel_LATE_DISCARDS c.hub)
        else
          let c' : QuadChain := { c with slices := c.slices ++ [(k, r)] }
          let x' : MergeCtx := { x with chains := x.chains.map fun d => if d.quad = q then c' else d }
          let s := modMerge s fun y => { y with ctxs := aset y.ctxs ctx x' }
          .next (if c'.slices.length = 4 then closeChain s ctx q else s)

/-- A quadrant hub's closing time passes. 05_merge.md R108. -/
def execQuadrantMergeClose (ctx : Nat) (quad : Hub) (s : State) : Next :=
  match (aget s.merge.ctxs ctx).bind fun x => x.chains.find? fun c => decide (c.quad = quad.val) with
  | none => .next s
  | some c => if c.closed then .next s else .next (closeChain (passTo s c.hub c.closeAt) ctx quad.val)

/-- A quadrant record arrives at the ingress hub. 05_merge.md R109. -/
def execQuadrantRecordArrival (ctx : Nat) (quad : Hub) (s : State) : Next :=
  let q := quad.val
  match quadInFlight s ctx q with
  | none => .next s
  | some (b, h, r) =>
    let s := modMerge s fun y => { y with inflight := y.inflight.filter fun f => decide (f ≠ .quad ctx q b h r) }
    match aget s.merge.ctxs ctx with
    | none => .next (bump s .sorrel_LATE_DISCARDS h)
    | some x =>
      let x' : MergeCtx := { x with quads := x.quads ++ [(q, b, r)] }
      let s := modMerge s fun y => { y with ctxs := aset y.ctxs ctx x' }
      .next (if x'.expected.all fun e => (x'.quads.map (·.1)).contains e then closeMerge s ctx else s)

/-- The ingress merge deadline passes. 05_merge.md R109. -/
def execIngressMergeDeadline (ctx : Nat) (s : State) : Next :=
  match aget s.merge.ctxs ctx with
  | none => .next s
  | some x => .next (closeMerge (passTo s x.hub x.deadline) ctx)

/-! ## Merge points (05_merge.md R113 to R116) -/

/-- The merge point's answer to a contribution, over the fabric or inside the node. -/
def answerPart (s : State) (id : Nat) (m : Msg) (st : Status) : State :=
  match m.origin with
  | .device => contribAnswered (dropMsg s id) m.arg0 (decide (st = .ok))
  | _ => answer s id .partialRec st 0 (partResp m.be st)

/-- A contribution is refused. REFUSED counts every refusal at a merge point, those of its fmt_version and its form too, which
R114 does not list (DESIGN CHOICE, assumption 163). 05_merge.md R114, R119. -/
def refusePart (s : State) (id : Nat) (m : Msg) (st : Status) : State :=
  answerPart (bump s .sorrel_REFUSED m.hub) id m st

/-- A contribution joins a group. Where several refusals of R114 apply, BOUNDS comes before QUOTA and QUOTA before BUSY
(DESIGN CHOICE, assumption 143). 05_merge.md R113 to R115. -/
def joinGroup (s : State) (id : Nat) (m : Msg) (g : Group) (isNew : Bool) (p : PartHdr) (st : Status) (recs : List Rec) : State :=
  let shape := if recs.isEmpty then none else some (p.out32, dOf p.dCode, recs.map (·.head))
  let shape' := g.shape <|> shape
  let g0 : Group := { g with shape := shape' }
  let need := groupUnits g0 - (if isNew then 0 else groupUnits g)
  let bad := firstFail
    [(decide (p.contribs ≠ g.count), Status.bounds), (shape.isSome && decide (shape ≠ shape'), .bounds),
     (g.parts.any fun c => decide (c.endpoint = m.endpoint), .bounds),
     (isNew && ! mergeQuotaOk s p.tenant, .quota),
     (isNew && decide (ctxMax ≤ ctxsUsed s g.hub), .busy), (decide (poolMax < poolUsed s g.hub + need), .busy)]
  match bad with
  | some e => refusePart s id m e
  | none =>
    let g' : Group := { g0 with parts := g.parts ++ [⟨m.endpoint, st, p.bitmap, p.failKv, p.failPos, recs⟩] }
    let rest := s.merge.groups.filter fun x => ! (decide (x.hub = g.hub) && decide (x.key = g.key))
    let s := modMerge s fun y => { y with groups := rest ++ [g'] }
    let s := if isNew then modMeter s p.tenant fun t => { t with merges := t.merges + 1 } else s
    let s := answerPart s id m .ok
    if g'.count ≤ g'.parts.length then closeGroup s g' else s

/-- A PARTIAL contribution arrives at a merge point; one of this node's own holds its records as they are. The checks come
in the order tombstone, format, group, and a contribution that is not formed as R112 forms it is refused with BOUNDS
(DESIGN CHOICE, assumptions 142 and 143). 05_merge.md R113, R114, R115. -/
def execPartialContribution (msg : Nat) (s : State) : Next :=
  match mayStart s msg .partialRec with
  | none => .next s
  | some m =>
    let p := PartHdr.parse m.be m.payload
    let key : GroupKey := ⟨p.tenant, p.pd, p.requester, p.tag⟩
    let dim := dOf p.dCode
    let size := recSize p.out32 dim
    let tomb := s.merge.tombs.any fun t => decide (t.key = key) && decide (endpointOf s t.hub = endpointOf s m.hub) &&
      decide (now s t.hub < t.until_)
    if tomb then .next (answerPart (bump s .sorrel_TOMBSTONE_DISCARDS m.hub) msg m .ok)
    else if p.ver ≠ 1 then .next (refusePart s msg m .version)
    else
      match Status.ofCode p.status with
      | none => .next (refusePart s msg m .bounds)
      | some st =>
        let own := decide (m.origin = .device)
        if dim = 0 ∨ m.payload.length ≠ 40 + (if own then 0 else p.count * size) ∨ (failing st ∧ p.count ≠ 0) ∨ p.contribs < 1 ∨
            64 < p.contribs then
          .next (refusePart s msg m .bounds)
        else
          let recs := if own then m.held
            else (List.range p.count).map fun i => parseRec m.be dim (m.payload.drop (40 + i * size))
          match groupAt s m.hub key with
          | some g => .next (joinGroup s msg m g false p st recs)
          | none =>
            let dur := deadlineNs s m.hub p.deadline
            .next (joinGroup s msg m ⟨m.hub, key, p.contribs, dur, m.at_ + dur, p.arrival, none, []⟩ true p st recs)

/-- The merge point's answer to a contribution arrives. 05_merge.md R114. -/
def execPartialResponse (msg : Nat) (s : State) : Next :=
  match respMsg s msg .partialRec with
  | none => .next s
  | some m =>
    let (s, a) := takeAsk s m
    let s := dropMsg s msg
    match a with
    | none => .next s
    | some a => .next (contribAnswered s a.about (decide (fld m.be m.payload 1 1 = Status.ok.code)))

/-- A merge group's deadline passes. 05_merge.md R115. -/
def execGroupDeadline (hub : Hub) (key : GroupKey) (s : State) : Next :=
  match s.merge.groups.find? fun g => decide (g.hub = hub.val) && decide (g.key = key) with
  | none => .next s
  | some g => .next (closeGroup (passTo s hub.val g.deadline) g)

/-- A merge group's tombstone lapses. 05_merge.md R115. -/
def execTombstoneExpiry (hub : Hub) (key : GroupKey) (s : State) : Next :=
  match s.merge.tombs.find? fun t => decide (t.hub = hub.val) && decide (t.key = key) with
  | none => .next s
  | some t => .next (modMerge (passTo s hub.val t.until_) fun y => { y with tombs := y.tombs.erase t })

end Sys2Proof.Machine
end

