-- ==== Sys2Proof/Machine/Append.lean ====
section
/-!
DEFINITION. The commands of the append family: rows, the descriptor forms, and the seals a request asks for.
06_append.md R120 to R129, 03_sequences.md R54, R56 to R63, R67, R68.
-/
namespace Sys2Proof.Machine

/-! ## Answers -/

/-- (layer, KV head) pairs of a range of layers and the request's KV heads. -/
def App.named (a : App) (layers : Nat) : List (Nat × Nat) :=
  (List.range layers).flatMap fun l => (List.range a.kvCount).map fun h => (a.layer + l, a.kvFirst + h)

/-- Least held end over named pairs, 0 for none. 06_append.md R140. -/
def leastHeld (s : State) (i : Nat) (d : Desc) (named : List (Nat × Nat)) : Nat :=
  match named.map fun p => (tdirOf s i (d.pair p.1 p.2)).heldEnd with
  | [] => 0
  | x :: r => r.foldl min x

/-- Answers an APPEND, BULK_APPEND or SEAL of a sequence. 06_append.md R140. -/
def appAnswer (s : State) (id : Nat) (m : Msg) (st : Status) (sealed i : Nat) (named : List (Nat × Nat)) : State :=
  match descOf s i with
  | none => answer s id m.opcode st 0 (appResp m.be st sealed 0 0 0)
  | some d => answer s id m.opcode st 0 (appResp m.be st sealed d.length d.gen (leastHeld s i d named))

/-- Refuses a request before its sequence is known. -/
def appRefuse (s : State) (id : Nat) (m : Msg) (st : Status) : State := answer s id m.opcode st 0 (appResp m.be st 0 0 0 0)

/-- Whether a form that is its header alone is one: no keys, no layer count. 06_append.md R120, R122. -/
def App.bare (a : App) (m : Msg) : Bool := decide (m.payload.length = 64) && ! a.keyed && decide (a.layerCount = 0)

/-- An APPEND message in the queue of one form. -/
def appStart (s : State) (msg : Nat) (pick : App → Bool) : Option (Msg × App) :=
  (startsWork s msg .append).bind fun m =>
    let a := App.parse m.be m.payload
    if pick a then some (m, a) else none

/-- Orders 1 to 4 of R123 for a form that names an existing sequence. 06_append.md R123. -/
def findActive (s : State) (m : Msg) (a : App) : State × Except Status (Nat × Desc) :=
  if a.ver ≠ 1 then (s, .error .version)
  else
    match findSeq s m.hub m.tenant a.handle with
    | (s, .miss) => (s, .error .notFound)
    | (s, .rebuilding) => (s, .error .busy)
    | (s, .hit i) =>
      match descOf s i with
      | none => (s, .error .notFound)
      | some d =>
        match firstFail [(! genMatch a.gen d.gen, Status.notFound), (decide (d.state = .draining), .busy),
                         (decide (d.state = .dropping), .notFound)] with
        | some st => (s, .error st)
        | none => (s, .ok (i, d))

/-! ## Rows (R122 to R128) -/

/-- Rows of one (layer, KV head) stored into tails, each frozen as it fills: the state, tails frozen, keys left. A tail that
finds no SRAM, or whose words cannot be corrected, gives its status. 06_append.md R127, R128, R132. -/
def storeHead (i : Nat) (d : Desc) (layer kv waiter : Nat) :
    Nat → State → Nat → List (List Byte × List Byte) → List Nat → Nat → Except Status (State × Nat × List Nat)
  | 0, s, _, _, keys, n => .ok (s, n, keys)
  | fuel + 1, s, pos, rows, keys, n =>
    if rows.isEmpty then .ok (s, n, keys)
    else
      let key := openKey s i d layer kv
      (residentTail s d key pos).bind fun s =>
        let room := d.t - tailCount s key
        let part := rows.take room
        (storeRows s d key part).bind fun s =>
          if part.length = room then
            let s := freezeTail s d key keys.head? waiter
            storeHead i d layer kv waiter fuel s (pos + part.length) (rows.drop room) keys.tail (n + 1)
          else .ok (s, n, keys)

/-- Rows of one (layer, KV head) of a BULK_APPEND: an open tail fills first, complete pages go through the seal buffer, the
rest becomes a tail. Answers the state, pages frozen or queued, tails frozen, keys left. 06_append.md R128. -/
def bulkHead (i : Nat) (d : Desc) (layer kv waiter : Nat) :
    Nat → State → Nat → List (List Byte × List Byte) → List Nat → Nat → Nat → Except Status (State × Nat × Nat × List Nat)
  | 0, s, _, _, keys, n, f => .ok (s, n, f, keys)
  | fuel + 1, s, pos, rows, keys, n, f =>
    if rows.isEmpty then .ok (s, n, f, keys)
    else
      let key := openKey s i d layer kv
      let held := tailCount s key
      if held = 0 ∧ d.t ≤ rows.length then
        let s := queuePage (dropTail s key) d key pos (rows.take d.t) keys.head? waiter
        bulkHead i d layer kv waiter fuel s (pos + d.t) (rows.drop d.t) keys.tail (n + 1) f
      else
        (residentTail s d key pos).bind fun s =>
          let room := d.t - held
          let part := rows.take room
          (storeRows s d key part).bind fun s =>
            if part.length = room then
              let s := freezeTail s d key keys.head? waiter
              bulkHead i d layer kv waiter fuel s (pos + part.length) (rows.drop room) keys.tail (n + 1) (f + 1)
            else .ok (s, n, f, keys)

/-- How a request's positions stand to the held ends. 06_append.md R124. -/
inductive Place where
  | apply | duplicate | bad
  deriving DecidableEq, Repr

/-- Judges the positions of a request. 06_append.md R124. -/
def placeOf (ends : List Nat) (pos n : Nat) : Place :=
  if 16777216 < pos + n then .bad
  else if ends.all fun e => decide (pos = e) then .apply
  else if ends.all fun e => decide (pos + n ≤ e) then .duplicate
  else .bad

/-- Pages a request completes in a (layer, KV head). 06_append.md R122. -/
def completes (s : State) (i : Nat) (d : Desc) (layer kv n : Nat) : Nat :=
  (tailCount s (openKey s i d layer kv) + n) / max 1 d.t

/-- Tails a request freezes in a (layer, KV head): those it opens and fills, for BULK_APPEND only one already open. -/
def freezes (s : State) (i : Nat) (d : Desc) (layer kv n : Nat) (bulk : Bool) : Nat :=
  let held := tailCount s (openKey s i d layer kv)
  if bulk then (if 0 < held ∧ d.t ≤ held + n then 1 else 0) else (held + n) / max 1 d.t

/-- Whether page slots charged since an earlier state fit the tenant's quota. 06_append.md R129, R138. -/
def slotsFit (before after : State) (tenant : Nat) : Bool :=
  let u := slotUsed after tenant
  decide (u ≤ slotUsed before tenant) || withinQuota (rget before .tier_slot_limit 0 (quotaEntry before tenant)) u 0

/-- Applies the rows of a TOKENS or BULK_APPEND; QUOTA when the reservation of R129 cannot be covered. The count is the
seals it caused. 06_append.md R124 to R129. -/
def applyRows (s : State) (i : Nat) (d : Desc) (m : Msg) (a : App) (bulk : Bool) (waiter : Nat) (keys : List Nat)
    (rowBytes : List Byte) : Except Status (State × Nat) :=
  let step := fun (acc : Except Status (State × Nat × List Nat)) (h : Nat) =>
    acc.bind fun (s, n, keys) =>
      let kv := a.kvFirst + h
      let raw := (List.range a.tokens).map fun t => a.row d.dim bulk rowBytes t h
      let fin := raw.map fun r => (finiteRow m.be r.1, finiteRow m.be r.2)
      let rows := fin.map fun r => (r.1.1, r.2.1)
      let bad := sumNat (fin.map fun r => r.1.2 + r.2.2)
      let s := modMeter s d.tenant fun t => { t with nonFinite := satAdd t.nonFinite bad }
      let done := if bulk
        then (bulkHead i d a.layer kv waiter (a.tokens + 1) s a.pos rows keys 0 0).map fun r => (r.1, r.2.1, r.2.2.2)
        else storeHead i d a.layer kv 0 (a.tokens + 1) s a.pos rows keys 0
      done.map fun (s, k, keys) => (s, n + k, keys)
  ((List.range a.kvCount).foldl step (.ok (s, 0, keys))).bind fun (s', n, _) =>
    if slotsFit s s' d.tenant then .ok (s', n) else .error .quota

/-- Sets or clears the claims of named tail-directory entries. 06_append.md R125. -/
def claimAll (s : State) (i : Nat) (d : Desc) (named : List (Nat × Nat)) (on : Bool) : State :=
  named.foldl (fun s p => modTdir s i (d.pair p.1 p.2) fun t => { t with claim := on }) s

/-- Every row of a request is stored: its held ends are written, its claims cleared, the length raised. 06_append.md R125,
R126. -/
def endRows (s : State) (i : Nat) (named : List (Nat × Nat)) (n : Nat) : State :=
  match descOf s i with
  | none => s
  | some d =>
    let s := named.foldl (fun s p => modTdir s i (d.pair p.1 p.2) fun t => { t with heldEnd := n }) s
    raiseLength (claimAll s i d named false) i n

/-- A TOKENS or BULK_APPEND request from order 5 of R123 on: the state and the status, or the seals it caused. The pages it
completes, and so the number of its keys, are known only under its claims and once its position is judged: a wrong number
is BUSY on a claimed pair, and no fault of a duplicate (DESIGN CHOICE, assumption 71). 06_append.md R122, R123, R125. -/
def rowsRequest (s : State) (id : Nat) (m : Msg) (a : App) (i : Nat) (d : Desc) (bulk : Bool) : State × Except Status Nat :=
  let named := a.named 1
  let rowLen := a.tokens * a.kvCount * 4 * d.dim
  let keyLen := m.payload.length - 64 - rowLen
  let limit := if bulk then 4194304 else 262144
  let ends := named.map fun p => (tdirOf s i (d.pair p.1 p.2)).heldEnd
  let bounds := decide (d.layers ≤ a.layer) || decide (a.kvCount = 0) || decide (d.kvHeads < a.kvFirst + a.kvCount) ||
    decide (a.tokens = 0) || decide (4096 < a.tokens) || decide (limit < rowLen) || decide (m.payload.length < 64 + rowLen) ||
    decide (a.form ≠ 0) || decide (a.layerCount ≠ 0) ||
    (! a.keyed && decide (keyLen ≠ 0)) || decide (keyLen % 8 ≠ 0)
  if bounds then (s, .error .bounds)
  else if named.any fun p => (tdirOf s i (d.pair p.1 p.2)).claim then (s, .error .busy)
  else
    match placeOf ends a.pos a.tokens with
    | .bad => (s, .error .bounds)
    | .duplicate => (bump s .tier_DUP_APPENDS 0, .error .ok)
    | .apply =>
      let looked := checkOpen d (named.map fun p => openKey s i d p.1 p.2) s
      let s := looked.1
      let pages := sumNat (named.map fun p => completes s i d p.1 p.2 a.tokens)
      if looked.2 ≠ .ok then (s, .error looked.2)
      else if a.keyed ∧ keyLen ≠ 8 * pages then (s, .error .bounds)
      else
        let keys := if a.keyed then App.keys m.be m.payload pages else []
        match applyRows s i d m a bulk id keys (m.payload.drop (64 + keyLen)) with
        | .error st => (s, .error st)
        | .ok (s', n) =>
          if named.any fun p =>
              decide (2 < (tdirOf s i (d.pair p.1 p.2)).frozen + freezes s i d p.1 p.2 a.tokens bulk) then (s, .error .busy)
          else (if bulk ∧ n ≠ 0 then claimAll s' i d named true else endRows s' i named (a.pos + a.tokens), .ok n)

/-- An APPEND TOKENS request; reserved forms are refused here. 06_append.md R123, R124. -/
def execAppendTokens (msg : Nat) (s : State) : Next :=
  match appStart s msg fun a => decide (a.form = 0) || decide (7 ≤ a.form) with
  | none => .next s
  | some (m, a) =>
    if a.form ≠ 0 then .next (appRefuse s msg m .version)
    else
      match findActive s m a with
      | (s, .error st) => .next (appRefuse s msg m st)
      | (s, .ok (i, d)) =>
        match rowsRequest s msg m a i d false with
        | (s, .error st) => .next (appAnswer s msg m st 0 i (a.named 1))
        | (s, .ok n) => .next (appAnswer s msg m .ok n i (a.named 1))

/-- A BULK_APPEND request: it holds its claims and answers when its seals have committed, for its complete pages are stored
by their seals. heldMap keeps the position its rows end at. 06_append.md R125, R126, R128. -/
def execBulkAppend (msg : Nat) (s : State) : Next :=
  match startsWork s msg .bulkAppend with
  | none => .next s
  | some m =>
    let a := App.parse m.be m.payload
    if 7 ≤ a.form then .next (appRefuse s msg m .version)
    else
      match findActive s m a with
      | (s, .error st) => .next (appRefuse s msg m st)
      | (s, .ok (i, d)) =>
        match rowsRequest s msg m a i d true with
        | (s, .error st) => .next (appAnswer s msg m st 0 i (a.named 1))
        | (s, .ok 0) => .next (appAnswer s msg m .ok 0 i (a.named 1))
        | (s, .ok n) => .next (modMsg (setPhase s msg (.waitSeals n)) msg fun x =>
            { x with heldPos := i, heldMap := a.pos + a.tokens })

/-! ## SEAL (R129) -/

/-- Whether a pair's open tail holds a token. -/
def hasRows (s : State) (i : Nat) (d : Desc) (p : Nat × Nat) : Bool :=
  decide (0 < tailCount s (openKey s i d p.1 p.2))

/-- The checks of a SEAL that need the tails it names, and the freezing of them. 06_append.md R122, R129. -/
def sealNamed (s : State) (msg : Nat) (m : Msg) (a : App) (i : Nat) (d : Desc) : Next :=
  let named := a.named a.layerCount
  let (s, looked) := lookTails (named.map fun p => openKey s i d p.1 p.2) s
  let full := named.filter fun p => hasRows s i d p
  if looked ≠ .ok then .next (appAnswer s msg m looked 0 i named)
  else if m.payload.length ≠ 64 + (if a.keyed then 8 * full.length else 0) then .next (appAnswer s msg m .bounds 0 i named)
  else if named.any fun p => (tdirOf s i (d.pair p.1 p.2)).claim then .next (appAnswer s msg m .busy 0 i named)
  else
    let keys := if a.keyed then App.keys m.be m.payload full.length else []
    let s' := (full.zipIdx).foldl (fun s (p, n) => freezeTail s d (openKey s i d p.1 p.2) keys[n]? msg) s
    if ! slotsFit s s' d.tenant then .next (appAnswer s msg m .quota 0 i named)
    else if full.any fun p => decide (2 ≤ (tdirOf s i (d.pair p.1 p.2)).frozen) then .next (appAnswer s msg m .busy 0 i named)
    else if full.isEmpty then .next (appAnswer s msg m .ok 0 i named)
    else .next (modMsg (setPhase s' msg (.waitSeals full.length)) msg fun x => { x with heldPos := i, at_ := now s m.hub })

/-- A SEAL request freezes every named tail that holds a token. 06_append.md R122, R123, R129. -/
def execSealReq (msg : Nat) (s : State) : Next :=
  match startsWork s msg .seal with
  | none => .next s
  | some m =>
    let a := App.parse m.be m.payload
    if 7 ≤ a.form then .next (appRefuse s msg m .version)
    else
      match findActive s m a with
      | (s, .error st) => .next (appRefuse s msg m st)
      | (s, .ok (i, d)) =>
        let bounds := decide (a.layerCount = 0) || decide (d.layers < a.layer + a.layerCount) || decide (a.kvCount = 0) ||
          decide (d.kvHeads < a.kvFirst + a.kvCount) || decide (a.form ≠ 0)
        if bounds then .next (appAnswer s msg m .bounds 0 i []) else sealNamed s msg m a i d

/-- The 10 ms of a SEAL request pass. 06_append.md R129. -/
def execSealDeadline (msg : Nat) (s : State) : Next :=
  match msgOf s msg with
  | none => .next s
  | some m =>
    match m.opcode, m.phase with
    | .seal, .waitSeals n =>
      let s := passTo s m.hub (m.at_ + 10000000)
      let s := modSeqs s fun q => { q with sealQ := q.sealQ.map fun it => if it.waiter = msg then { it with waiter := 0 } else it }
      let a := App.parse m.be m.payload
      .next (appAnswer s msg m .busy n m.heldPos (a.named a.layerCount))
    | _, _ => .next s

/-- A request that waits for seals ends with a status; the rows of a BULK_APPEND count as held from now on.
06_append.md R126, R128, R140. -/
def endSeals (s : State) (w : Nat) (m : Msg) (n : Nat) (st : Status) : State :=
  let a := App.parse m.be m.payload
  if m.opcode = .seal then appAnswer s w m st n m.heldPos (a.named a.layerCount)
  else appAnswer (endRows s m.heldPos (a.named 1) m.heldMap) w m st n m.heldPos (a.named 1)

/-- Answers a request none of whose seals still waits. 06_append.md R128, R129. -/
def settleSeals (s : State) (w : Nat) : State :=
  match msgOf s w with
  | none => s
  | some m =>
    match m.phase with
    | .waitSeals n => if s.seqs.sealQ.any fun it => decide (it.waiter = w) then s else endSeals s w m n .ok
    | _ => s

/-- A pair of a BULK_APPEND one of whose seals failed keeps its rows up to the first page that still waits in the seal
buffer: behind that page nothing can be held, so its later pages and its last tail are dropped (DESIGN CHOICE, assumption
167), and its held end is the position to resume at. 06_append.md R124, R128, R140. -/
def cutBulk (s : State) (w i : Nat) (d : Desc) (n layer kv : Nat) : State :=
  let pair := d.pair layer kv
  let mine := fun (it : SealItem) => decide (it.waiter = w) && ! it.fromTail && decide (it.layer = layer) && decide (it.kv = kv)
  match s.seqs.sealQ.find? mine with
  | none => modTdir s i pair fun t => { t with heldEnd := n }
  | some it =>
    let s := modSeqs s fun q => { q with sealQ := q.sealQ.filter fun x => ! mine x }
    let s := dropTail s (openKey s i d layer kv)
    modTdir s i pair fun t => { t with heldEnd := it.firstPos, index := it.page }

/-- A request one of whose seals met a word that cannot be corrected. The length rises to the largest held end.
06_append.md R126, R140, 08_memory.md R181. -/
def failSeals (s : State) (w : Nat) : State :=
  match msgOf s w with
  | none => s
  | some m =>
    match m.phase with
    | .waitSeals n =>
      let free := fun (s : State) => modSeqs s fun q =>
        { q with sealQ := q.sealQ.map fun it => if it.waiter = w then { it with waiter := 0 } else it }
      let a := App.parse m.be m.payload
      match m.opcode, descOf s m.heldPos with
      | .seal, _ => endSeals (free s) w m n .uncorrectable
      | _, none => endSeals (free s) w m n .uncorrectable
      | _, some d =>
        let i := m.heldPos
        let s := (a.named 1).foldl (fun s p => cutBulk s w i d m.heldMap p.1 p.2) s
        let top := (a.named 1).foldl (fun n p => max n (tdirOf s i (d.pair p.1 p.2)).heldEnd) 0
        appAnswer (raiseLength (claimAll (free s) i d (a.named 1) false) i top) w m .uncorrectable n i (a.named 1)
    | _ => s

/-! ## CREATE and FORK (R49 to R51, R56, R57, R61) -/

/-- Ownership a descriptor copies from the ledger: holder and generation. 03_sequences.md R50. -/
def ownerOf (s : State) (handle : Nat) : Nat × Nat :=
  match (heldContent s (ownerLine handle)).map fun p => Owner.parse p.2 with
  | some o => (o.holder, o.gen)
  | none => (nodeEndpoint s, 0)

/-- Whether the new handle of a CREATE or FORK fits the requesting tenant. 03_sequences.md R48. -/
def handleOk (m : Msg) (a : App) : Bool := decide (a.handle / 2 ^ 48 = m.tenant) && decide (a.handle % 2 ^ 48 ≠ 0)

/-- Resolves the other sequence a CREATE, FORK or BIND names. 06_append.md R123 order 2. -/
def findOther (s : State) (m : Msg) (handle gen : Nat) : State × Except Status (Nat × Desc) :=
  match findSeq s m.hub m.tenant handle with
  | (s, .miss) => (s, .error .notFound)
  | (s, .rebuilding) => (s, .error .busy)
  | (s, .hit i) =>
    match descOf s i with
    | none => (s, .error .notFound)
    | some d => (s, if genMatch gen d.gen then .ok (i, d) else .error .notFound)

/-- A handle that some hub's index has no room for: what the searches and the refused insert count stays, and no row. 09_chive.md
R209, R217. -/
def refusedDesc (s : State) (i : Nat) (d : Desc) : State := (insertAll s (liveHubs s) ⟨d.handle, clsHandle, 0, i⟩).1

/-- Enters a descriptor's handle in every hub's index and the descriptor in its table; none when a hub has no room.
03_sequences.md R49. -/
def enterDesc (s : State) (i : Nat) (d : Desc) : Option State :=
  match insertAll s (liveHubs s) ⟨d.handle, clsHandle, 0, i⟩ with
  | (s, .done) => some (modSeqs s fun q => { q with descs := aset q.descs i d })
  | _ => none

/-- Whether a format code is one of R26 in its role. 02_pages.md R26. -/
def formatsKnown (kf vf : Nat) : Bool :=
  (decide (kf = fmtQ8T) || decide (kf = fmtQ4T) || decide (kf = fmtQ4C)) && (decide (vf = fmtQ8T) || decide (vf = fmtQ4T))

/-- The descriptor a CREATE makes. 03_sequences.md R50, R56. -/
def newDesc (s : State) (m : Msg) (a : App) (i : Nat) (stripe : List Nat) : Desc :=
  { keyFormat := a.kf, valFormat := a.vf, tCode := a.tCode, dCode := a.dCode, state := .active, anchors := [],
    handle := a.handle, tenant := m.tenant, layers := a.layers, kvHeads := a.kvHeads, length := 0, gen := descGenOf s i,
    owner := (ownerOf s a.handle).1, ownerGen := (ownerOf s a.handle).2, window := a.window, stripe := stripe, inflight := 0,
    baseHandle := 0, deltaTokens := 0, binding := 0, drain := none }

/-- Whether an existing sequence has every parameter of a CREATE. 03_sequences.md R57. The window compared is the one the
sequence has now, and of a donor its stripe: DESIGN CHOICE (assumption 134). -/
def sameCreate (d : Desc) (a : App) (donor : Option Desc) : Bool :=
  decide (d.keyFormat = a.kf) && decide (d.valFormat = a.vf) && decide (d.tCode = a.tCode) && decide (d.dCode = a.dCode) &&
    decide (d.layers = a.layers) && decide (d.kvHeads = a.kvHeads) && decide (d.window = a.window) &&
    (donor.map fun x => decide (x.stripe = d.stripe)).getD true

/-- An APPEND CREATE. 06_append.md R121, R123, R129, 03_sequences.md R57. -/
def execCreateSeq (msg : Nat) (s : State) : Next :=
  match appStart s msg fun a => decide (a.form = 1) with
  | none => .next s
  | some (m, a) =>
    if a.ver ≠ 1 then .next (appRefuse s msg m .version)
    else
      let got : State × Except Status (Option Desc) := if a.donor = 0 then (s, .ok none)
        else match findOther s m a.donor a.donorGen with
          | (s, .ok (_, d)) => (s, .ok (some d))
          | (s, .error st) => (s, .error st)
      let s := got.1
      match got.2 with
      | .error st => .next (appRefuse s msg m st)
      | .ok donor =>
        let old := peekSeq s m.tenant a.handle
        let st := (old.map fun x => x.2.state).getD .free
        let g : PGeom := ⟨a.kf, a.vf, a.tCode, a.dCode⟩
        let fail := firstFail
          [(decide (st = .draining) || decide (st = .dropping), Status.busy), (! formatsKnown a.kf a.vf, .version),
           (! handleOk m a, .bounds), (decide (tOf a.tCode = 0) || decide (dOf a.dCode = 0) || ! g.ok, .bounds),
           (decide (a.layers < 1) || decide (1024 < a.layers) || decide (a.kvHeads < 1) || decide (256 < a.kvHeads) ||
             decide (16384 < a.layers * a.kvHeads) || ! a.bare m, .bounds)]
        match fail, old with
        | some st, _ => .next (appRefuse s msg m st)
        | none, some (i, d) => .next (appAnswer s msg m (if sameCreate d a donor then .ok else .bounds) 0 i [])
        | none, none =>
          if ! Config.pagePermits (body s clsPage) a.kf a.vf a.tCode a.dCode then .next (appRefuse s msg m .bounds)
          else
            match freeDescIndex s with
            | none => .next (appRefuse s msg m .busy)
            | some i =>
              let stripe := (donor.map (·.stripe)).getD (freshStripe s i)
              if stripe.isEmpty then .next (appRefuse s msg m .busy)
              else
                let d := newDesc s m a i stripe
                match allocTables s i d with
                | none => .next (appRefuse s msg m .quota)
                | some s' =>
                  match enterDesc s' i d with
                  | none => .next (appRefuse (refusedDesc s i d) msg m .busy)
                  | some s => .next (appAnswer s msg m .ok 0 i [])

/-- Whether a fork at P must wait: a page of the parent that waits for its seal holds a position below P.
03_sequences.md R61. -/
def forkWaits (s : State) (i p : Nat) : Bool :=
  s.seqs.sealQ.any fun it => decide (it.desc = i) && decide (it.firstPos < p)

/-- Gives a child one sealed page of its parent: shared, or copied where the count is full, and truncated where it straddles
p. A stale reference fails the fork (02_pages.md R47). 03_sequences.md R60, R61. -/
def forkPage (s : State) (j : Nat) (c : Desc) (p pair : Nat) (r : PageRef) : Except Status State :=
  let k := lpnSlice r.lpn
  let add := fun (s : State) (r : PageRef) => match addRef s k j pair c.tenant r with
    | some s => Except.ok s
    | none => .error .quota
  match takeRef s r with
  | (s, .ok) =>
    (add s r).bind fun s =>
      if r.firstPos + r.tokens ≤ p then .ok s
      else
        match truncPage s j c pair r p with
        | (s, .ok) => .ok s
        | (_, st) => .error st
  | (s, .absent) => .error (staleStatus s c.tenant r.lpn)
  | (s, .full) =>
    match copyPage s c r (min r.tokens (p - r.firstPos)) with
    | (s, .ok r) => add s r
    | (_, .error st) => .error st
  | (_, .bad) => .error .uncorrectable

/-- Gives a child the rows below p of its parent's open tail. 03_sequences.md R61. -/
def forkTail (s : State) (i j : Nat) (d c : Desc) (p layer kv : Nat) : Except Status State :=
  let key := openKey s i d layer kv
  match loadTail s d key readUnit with
  | (s, .none) => .ok s
  | (_, .bad) => .error .uncorrectable
  | (s, .ok b) =>
    let h := Hdr.parse b
    if p < h.firstPos then .ok s
    else
      let n := min h.count (p - h.firstPos)
      let row := d.dim * 2
      let ckey : TailKey := ⟨j, layer, kv, key.page⟩
      (openTail s c ckey h.firstPos).bind fun s =>
        let s := modTdir s j (d.pair layer kv) fun t => { t with index := key.page }
        let rows := (List.range n).map fun r => (takeBytes b (64 + r * row) row, takeBytes b (64 + (d.t + r) * row) row)
        storeRows s c ckey rows

/-- Gives a child one pair of its parent: shared pages, a truncated copy, a tail. 03_sequences.md R61. -/
def forkPair (s : State) (i j : Nat) (d c : Desc) (p layer kv : Nat) : Except Status State :=
  let pair := d.pair layer kv
  let pages := (pairPages s i d pair).filter fun x => decide (x.2.firstPos < p)
  let shared := pages.foldl (fun (acc : Except Status State) x => acc.bind fun s => forkPage s j c p pair x.2) (.ok s)
  shared.bind fun s =>
    let held := min (tdirOf s i pair).heldEnd p
    let count := (pairPages s j c pair).length + c.deltaPages
    forkTail (modTdir s j pair fun t => { t with heldEnd := held, index := count, frozen := 0, claim := false }) i j d c p layer kv

/-- The child of a fork. Its window and its anchors are its parent's, which the spec does not say (DESIGN CHOICE, assumption
159). 03_sequences.md R61. -/
def childDesc (s : State) (a : App) (j p : Nat) (d : Desc) : Desc :=
  { d with state := .active, handle := a.handle, length := p, gen := descGenOf s j, owner := (ownerOf s a.handle).1,
           ownerGen := (ownerOf s a.handle).2, inflight := 0, drain := none }

/-- A child takes its parent's share of a delta binding: the addresses of its shares and a place among the holders.
03_sequences.md R52, R61. -/
def shareBinding (s : State) (i j : Nat) (d : Desc) : State :=
  if d.binding = 0 then s
  else
    let s := d.stripe.foldl (fun s k =>
      match aget s.seqs.entries (k, i) with
      | none => s
      | some e => modSeqs s fun q => { q with entries := aupd q.entries (k, j) ⟨0, 0, 0, 0⟩ fun x =>
          { x with delta := e.delta, deltaGen := e.deltaGen } }) s
    modSeqs s fun q => { q with bindings := amod q.bindings d.binding fun b => { b with holders := b.holders ++ [j] } }

/-- Applies a fork: every pair, the binding, the handle, under the tenant's page-slot quota. 03_sequences.md R61,
06_append.md R129, R138. A fork that fails changes nothing but what its reads and its refused insert count. -/
def applyFork (s : State) (a : App) (i : Nat) (d : Desc) : State × Except Status Nat :=
  match freeDescIndex s with
  | none => (s, .error .busy)
  | some j =>
    let c := childDesc s a j a.pos d
    match allocTables s j c with
    | none => (s, .error .quota)
    | some s0 =>
      let done := (List.range d.pairs).foldl (fun (acc : Except Status State) pair =>
        acc.bind fun s => forkPair s i j d c a.pos (pair / max 1 d.kvHeads) (pair % max 1 d.kvHeads)) (.ok s0)
      match done with
      | .error st => (s, .error st)
      | .ok s' =>
        if ! slotsFit s s' d.tenant then (s, .error .quota)
        else
          match enterDesc (shareBinding s' i j d) j c with
          | none => (refusedDesc s j c, .error .busy)
          | some s => (s, .ok j)

/-- Whether the pages a fork shares stand, and whether those that straddle its position and the tails it copies can be
read; the first failing status otherwise. 02_pages.md R45 to R47, 08_memory.md R181. -/
def checkFork (s : State) (i : Nat) (d : Desc) (p : Nat) : State × Status :=
  let below := (List.range d.pairs).flatMap fun pair =>
    ((pairPages s i d pair).map (·.2)).filter fun r => decide (r.firstPos < p)
  let shares := checkShares d below s
  match (if shares.2 = .ok then checkPages d (straddlers shares.1 i d p) shares.1 else shares) with
  | (s, .ok) => checkTails d ((List.range d.pairs).map fun pair =>
      openKey s i d (pair / max 1 d.kvHeads) (pair % max 1 d.kvHeads)) s
  | r => r

/-- Runs a fork whose checks passed, or lets it wait. 03_sequences.md R61. -/
def runFork (s : State) (msg : Nat) (m : Msg) (a : App) (i : Nat) (d : Desc) : State :=
  if forkWaits s i a.pos then
    (if m.phase = .waitFork then s else modMsg (setPhase s msg .waitFork) msg fun x => { x with at_ := now s m.hub })
  else
    match checkFork s i d a.pos with
    | (s, .ok) =>
      match applyFork s a i d with
      | (s, .ok j) => appAnswer s msg m .ok 0 j []
      | (s, .error st) => appRefuse s msg m st
    | (s, st) => appRefuse s msg m st

/-- Judges a fork against its parent and the sequence its child handle names, and runs it. 06_append.md R123,
03_sequences.md R57, R61. -/
def judgeFork (s : State) (msg : Nat) (m : Msg) (a : App) (i : Nat) (d : Desc) : State :=
  let old := peekSeq s m.tenant a.handle
  let st := (old.map fun x => x.2.state).getD .free
  let fail := firstFail
    [(decide (st = .draining) || decide (st = .dropping), Status.busy), (decide (d.state ≠ .active), .busy),
     (! handleOk m a || ! a.bare m, .bounds)]
  match fail, old with
  | some st, _ => appRefuse s msg m st
  | none, some (j, c) =>
    let same := decide (c.geom = d.geom) && decide (c.layers = d.layers) && decide (c.kvHeads = d.kvHeads) &&
      decide (c.stripe = d.stripe)
    appAnswer s msg m (if same then .ok else .bounds) 0 j []
  | none, none =>
    if d.length < a.pos ∨ a.pos < d.deltaTokens then appRefuse s msg m .bounds
    else runFork s msg m a i d

/-- An APPEND FORK. 06_append.md R123, 03_sequences.md R57, R61. -/
def execForkSeq (msg : Nat) (s : State) : Next :=
  match appStart s msg fun a => decide (a.form = 2) with
  | none => .next s
  | some (m, a) =>
    if a.ver ≠ 1 then .next (appRefuse s msg m .version)
    else
      match findOther s m a.other a.otherGen with
      | (s, .error st) => .next (appRefuse s msg m st)
      | (s, .ok (i, d)) => .next (judgeFork s msg m a i d)

/-- A fork that waits reaches 10 ms. 03_sequences.md R61. -/
def execForkCommitTimeout (msg : Nat) (s : State) : Next :=
  match msgOf s msg with
  | none => .next s
  | some m =>
    if m.phase ≠ .waitFork then .next s
    else .next (appRefuse (passTo s m.hub (m.at_ + 10000000)) msg m .busy)

/-- Forks that wait for a sequence's commits try again: their parent is judged anew. 03_sequences.md R57, R61. -/
def retryForks (s : State) (i : Nat) : State :=
  (s.msgs.filter fun p => decide (p.2.phase = .waitFork)).foldl (fun s p =>
    let a := App.parse p.2.be p.2.payload
    match peekSeq s p.2.tenant a.other with
    | some (j, d) =>
      if j ≠ i then s
      else if genMatch a.otherGen d.gen then judgeFork s p.1 p.2 a j d
      else appRefuse s p.1 p.2 .notFound
    | none => appRefuse s p.1 p.2 .notFound) s

/-! ## TRUNCATE, PATTERN, DROP (R54, R57, R59, R62, R265) -/

/-- Cuts a page that waits for its seal at p. 03_sequences.md R62. A writer's content key stays with the shortened page,
since R62 takes it from sealed pages alone: DESIGN CHOICE (assumption 135). -/
def cutItem (d : Desc) (p : Nat) (it : SealItem) : SealItem :=
  if it.firstPos + it.tokens ≤ p then it
  else
    let n := p - it.firstPos
    let row := d.dim * 2
    { it with tokens := n, rows := if it.fromTail then [] else
                it.rows.take (n * row) ++ (it.rows.drop (it.tokens * row)).take (n * row) }

/-- A pair's tail directory after a truncation to p. 06_append.md R125. -/
def cutDir (s : State) (i : Nat) (d : Desc) (layer kv p : Nat) : State :=
  let pair := d.pair layer kv
  let mine := s.seqs.sealQ.filter fun it => decide (it.desc = i) && decide (it.layer = layer) && decide (it.kv = kv)
  let queued := mine.map (·.page)
  let open_ := (tailsOfPair s i layer kv).filter fun t => ! queued.contains t.page
  let next := d.deltaPages + (pairPages s i d pair).length + queued.length
  modTdir s i pair fun t => { t with heldEnd := min t.heldEnd p, index := (open_.head?.map (·.page)).getD next,
                                     frozen := (mine.filter (·.fromTail)).length }

/-- Sealed pages of a pair that straddle p. 03_sequences.md R62. -/
def straddling (s : State) (i : Nat) (d : Desc) (p pair : Nat) : List PageRef :=
  ((pairPages s i d pair).map (·.2)).filter fun r => decide (r.firstPos < p) && decide (p < r.firstPos + r.tokens)

/-- Reads what a truncation to p is to rewrite: pages and tails that straddle p. 03_sequences.md R62, 02_pages.md R45 to
R47, 08_memory.md R181. -/
def checkCut (s : State) (i : Nat) (d : Desc) (p : Nat) : State × Status :=
  let tail := fun (t : TailKey) => match tailHdr s t with
    | some h => decide (h.firstPos < p) && decide (p < h.firstPos + h.count)
    | none => false
  let mine := (((s.seqs.tails.map (·.1)) ++ s.seqs.images.map (·.1)).eraseDups).filter fun t => decide (t.desc = i)
  match checkPages d (straddlers s i d p) s with
  | (s, .ok) =>
    match lookTails mine s with
    | (s, .ok) => checkTails d (mine.filter tail) s
    | r => r
  | r => r

/-- Rewrites the pages of every pair that straddle p. 03_sequences.md R62, R63. -/
def cutPages (s : State) (i : Nat) (d : Desc) (p : Nat) : State × Status :=
  (List.range d.pairs).foldl (fun (acc : State × Status) pair =>
    (straddling acc.1 i d p pair).foldl (fun (acc : State × Status) r =>
      if acc.2 = .ok then truncPage acc.1 i d pair r p else acc) acc) (s, .ok)

/-- The position at which the rows of a BULK_APPEND in flight end once its sequence is truncated to p. 06_append.md R125. -/
def capRows (s : State) (i p : Nat) : State :=
  let cap := fun (m : Msg) => match m.phase with
    | .waitSeals _ => if m.opcode ≠ .seal ∧ m.heldPos = i then { m with heldMap := min m.heldMap p } else m
    | _ => m
  setMsgs s (s.msgs.map fun x => (x.1, cap x.2))

/-- Truncates a drained sequence; a page that cannot be rewritten leaves the sequence unchanged. 03_sequences.md R62. -/
def applyTruncate (s : State) (i : Nat) (d : Desc) (p : Nat) : State × Status :=
  let (s, st) := checkCut s i d p
  let cut := cutPages s i d p
  if st ≠ .ok then (s, st)
  else if cut.2 ≠ .ok then (s, cut.2)
  else
    let s := capRows (dropSeals cut.1 i p) i p
    let s := (List.range d.pairs).foldl (fun s pair =>
      let l := pair / max 1 d.kvHeads
      let h := pair % max 1 d.kvHeads
      cutTails (releaseFrom s i d pair p) i d l h p) s
    let s := modSeqs s fun q => { q with sealQ := q.sealQ.map fun it => if it.desc = i then cutItem d p it else it }
    let s := (List.range d.pairs).foldl (fun s pair => cutDir s i d (pair / max 1 d.kvHeads) (pair % max 1 d.kvHeads) p) s
    (modDesc s i fun x => { x with length := p }, .ok)

/-- Messages that wait for seals of a sequence. -/
def sealWaiters (s : State) (i : Nat) : List Nat :=
  ((s.seqs.sealQ.filter fun it => decide (it.desc = i) && decide (it.waiter ≠ 0)).map (·.waiter)).eraseDups

/-- A drained sequence takes its change and its request is answered. A BULK_APPEND or SEAL whose last waiting seals go with
the rows a TRUNCATE or DROP takes away is answered OK: the spec gives no status for it (DESIGN CHOICE, assumption 165).
03_sequences.md R57, R59. -/
def tryDrain (s : State) (i : Nat) : State :=
  match descOf s i with
  | none => s
  | some d =>
    match d.drain with
    | none => s
    | some (op, msg) =>
      let p := match op with
        | .truncate p => p
        | .drop => 0
        | .pattern _ _ => 2 ^ 32
      if d.state ≠ .draining ∨ d.inflight ≠ 0 ∨ ! (regionsFrom s i d p).isEmpty then s
      else
        let ws := sealWaiters s i
        let m := (msgOf s msg).getD default
        let back := fun (s : State) => modDesc s i fun x => { x with state := .active, drain := none }
        match op with
        | .truncate p =>
          let (s, st) := applyTruncate s i d p
          let s := appAnswer (back s) msg m st 0 i []
          retryForks (ws.foldl settleSeals s) i
        | .pattern w an =>
          let s := back (modDesc s i fun x => { x with window := w, anchors := an })
          appAnswer s msg m .ok 0 i []
        | .drop =>
          let s := modDesc s i fun x => { x with state := .dropping, drain := none }
          let s := freeDesc (releaseSeq s i d) i d
          let s := answer s msg .append .ok 0 (appResp m.be .ok 0 0 d.gen 0)
          retryForks (ws.foldl settleSeals s) i

/-- Moves a sequence to DRAINING for a change, revokes the regions the change concerns, and applies it if it can.
03_sequences.md R59, 11_remote_access.md R265. -/
def startDrain (s : State) (i : Nat) (d : Desc) (op : DrainOp) (msg p : Nat) : State :=
  let s := modDesc s i fun x => { x with state := .draining, drain := some (op, msg) }
  let s := setPhase s msg (.waitDrain i)
  tryDrain ((regionsFrom s i d p).foldl (fun s r => startRevoke s r none none) s) i

/-- An APPEND TRUNCATE. 03_sequences.md R57, R62. -/
def execTruncateSeq (msg : Nat) (s : State) : Next :=
  match appStart s msg fun a => decide (a.form = 3) with
  | none => .next s
  | some (m, a) =>
    match findActive s m a with
    | (s, .error st) => .next (appRefuse s msg m st)
    | (s, .ok (i, d)) =>
      if ! a.bare m ∨ d.length < a.pos ∨ a.pos < d.deltaTokens then .next (appAnswer s msg m .bounds 0 i [])
      else .next (startDrain s i d (.truncate a.pos) msg a.pos)

/-- Whether an anchor list keeps R54. 03_sequences.md R54. -/
def anchorsOk : List Anchor → Bool
  | [] => true
  | [x] => decide (x.start + x.lenM1 + 1 ≤ 16777216)
  | x :: y :: r => decide (x.start + x.lenM1 + 1 ≤ y.start) && decide (x.start + x.lenM1 + 1 ≤ 16777216) && anchorsOk (y :: r)

/-- An APPEND PATTERN. 03_sequences.md R54, R59. -/
def execSetPattern (msg : Nat) (s : State) : Next :=
  match appStart s msg fun a => decide (a.form = 4) with
  | none => .next s
  | some (m, a) =>
    match findActive s m a with
    | (s, .error st) => .next (appRefuse s msg m st)
    | (s, .ok (i, d)) =>
      let an := a.anchorList m.be m.payload
      if 64 < a.anchors ∨ a.keyed ∨ a.layerCount ≠ 0 ∨ m.payload.length ≠ 64 + 4 * a.anchors ∨ ! anchorsOk an then
        .next (appAnswer s msg m .bounds 0 i [])
      else .next (startDrain s i d (.pattern a.patWindow an) msg (2 ^ 32))

/-- An APPEND DROP. 03_sequences.md R57, R59. -/
def execDropSeq (msg : Nat) (s : State) : Next :=
  match appStart s msg fun a => decide (a.form = 5) with
  | none => .next s
  | some (m, a) =>
    match findActive s m a with
    | (s, .error st) => .next (appRefuse s msg m st)
    | (s, .ok (i, d)) =>
      if ! a.bare m then .next (appAnswer s msg m .bounds 0 i [])
      else .next (startDrain s i d .drop msg 0)

/-- A DRAINING sequence's inflight reaches zero. 03_sequences.md R59. -/
def execSequenceDrainComplete (desc : Nat) (s : State) : Next := .next (flush (tryDrain s desc))

/-! ## BIND (R67, R68) -/

/-- A delta stream's header and its index table. 03_sequences.md R67. -/
structure Stream where
  ver    : Nat
  kf     : Nat
  vf     : Nat
  tc     : Nat
  dc     : Nat
  layers : Nat
  kvHeads : Nat
  baseKey : Nat
  variant : Nat
  prefixTokens : Nat
  blocks : Nat
  index  : Nat
  length : Nat
  crc    : Nat
  deriving DecidableEq, Repr, Inhabited

/-- Parses a stream header; it lies in device memory. -/
def Stream.parse (b : List Byte) : Stream :=
  let f := fun o n => fld false b o n
  { ver := f 0 1 % 16, kf := f 1 1, vf := f 2 1, tc := f 3 1 % 4, dc := f 3 1 / 4 % 8, layers := f 4 2, kvHeads := f 6 2,
    baseKey := f 8 8, variant := f 16 8, prefixTokens := f 24 4 % 2 ^ 24, blocks := f 28 4, index := f 32 4,
    length := f 36 4, crc := f 40 4 }

/-- Entry e of a stream's index table: offset and coded length. -/
def Stream.entry (h : Stream) (b : List Byte) (e : Nat) : Nat × Nat :=
  (fld false b (h.index + 8 * e) 4, fld false b (h.index + 8 * e + 4) 4)

/-- The conditions of R68 whose failure is DAMAGED. 03_sequences.md R68. -/
def streamWhole (h : Stream) (b : List Byte) : Bool :=
  let n := h.blocks
  let ok := fun (e : Nat) =>
    let (o, l) := h.entry b e
    decide (17 ≤ l) && decide (o + l = if e + 1 = n then h.length else (h.entry b (e + 1)).1)
  decide (h.index + 8 * n ≤ b.length) &&
    decide (crc32c (b.take 40 ++ (b.drop h.index).take (8 * n)) = h.crc) &&
    (decide (n = 0) || decide ((h.entry b 0).1 = h.index + 8 * n)) && (List.range n).all ok

/-- The conditions of R68 whose failure is BOUNDS. A base that is itself bound to a delta prefix has no page references below
its delta_tokens, so it fails them: the spec does not say what a bind to such a base does (DESIGN CHOICE, assumption 161).
03_sequences.md R68. -/
def streamFits (s : State) (h : Stream) (d : Desc) (i : Nat) (base : Nat × Desc) : Bool :=
  let (j, e) := base
  let n := h.prefixTokens / max 1 d.t
  let first := (pageAt s j e 0 0).map fun r => liveHdr s r.lpn
  decide ((⟨h.kf, h.vf, h.tc, h.dc⟩ : PGeom) = d.geom) && decide (h.layers = d.layers) && decide (h.kvHeads = d.kvHeads) &&
    decide (e.geom = d.geom) && decide (e.layers = d.layers) && decide (e.kvHeads = d.kvHeads) &&
    decide (e.state = .active) && decide (e.tenant = d.tenant) && decide (h.prefixTokens ≤ e.length) &&
    decide (h.prefixTokens % max 1 d.t = 0) && decide (h.blocks = d.pairs * n) && decide (d.length = 0) && decide (i ≠ j) &&
    ((List.range d.pairs).all fun pair => (List.range n).all fun p =>
      match pageAt s j e pair p with
      | some r => decide (r.tokens = d.t)
      | none => false) &&
    (decide (n = 0) || (first.map fun x => decide (x.key = h.baseKey)).getD false)

/-- The blocks of a stream over a base. 03_sequences.md R67. -/
def streamBlocks (s : State) (h : Stream) (b : List Byte) (d : Desc) (base : Nat × Desc) : List DeltaBlock :=
  let n := h.prefixTokens / max 1 d.t
  (List.range d.pairs).flatMap fun pair => (List.range n).filterMap fun p =>
    (pageAt s base.1 base.2 pair p).map fun r =>
      let (o, l) := h.entry b (pair * n + p)
      ⟨pair / max 1 d.kvHeads, pair % max 1 d.kvHeads, p, base.2.slice p, r, (b.drop o).take l⟩

/-- Gives each slice its share of a stream, in its page space. 03_sequences.md R68. -/
def placeShares (s : State) (i : Nat) (d : Desc) (blocks : List DeltaBlock) : Option State :=
  d.stripe.foldl (fun (acc : Option State) k =>
    acc.bind fun s =>
      let mine := blocks.filter fun x => decide (x.slice = k)
      if mine.isEmpty then some s
      else
        (allocSlot s k d.tenant (ceilDiv (sumNat (mine.map fun x => 8 + x.bytes.length)) 4096) .delta).map fun (s, l) =>
          modSeqs s fun q => { q with entries := aupd q.entries (k, i) ⟨0, 0, 0, 0⟩ fun e =>
            { e with delta := l, deltaGen := slotGen s l } }) (some s)

/-- Takes the base page of a block, or a copy of it where its count is full; a stale reference fails the bind (02_pages.md
R47). 03_sequences.md R60, R68. -/
def takeBase (s : State) (d : Desc) (x : DeltaBlock) : Except Status (State × DeltaBlock) :=
  match takeRef s x.base with
  | (s, .ok) => .ok (s, x)
  | (s, .full) =>
    match copyPage s d x.base x.base.tokens with
    | (s, .ok r) => .ok (s, { x with base := r })
    | (_, .error st) => .error st
  | (s, .absent) => .error (staleStatus s d.tenant x.base.lpn)
  | (_, .bad) => .error .uncorrectable

/-- Binds a stream that passed its checks. 03_sequences.md R68. -/
def applyBind (s : State) (i : Nat) (d : Desc) (base : Nat × Desc) (h : Stream) (b : List Byte) : Except Status State :=
  let blocks := streamBlocks s h b d base
  let d' : Desc := { d with stripe := base.2.stripe, length := h.prefixTokens, deltaTokens := h.prefixTokens,
                            baseHandle := base.2.handle }
  let taken := blocks.foldl (fun (acc : Except Status (State × List DeltaBlock)) x =>
    acc.bind fun (s, l) => (takeBase s d x).map fun (s, x) => (s, l ++ [x])) (.ok (s, []))
  match taken with
  | .error st => .error st
  | .ok (s, blocks) =>
    let s := (s.seqs.entries.filter fun p => decide (p.1.2 = i)).foldl (fun s p => if p.2.fragGen = 0 then s else freeSlot s p.2.frag) s
    let s := (agetD s.seqs.tdirSlots i []).foldl freeSlot s
    let s := modSeqs s fun q => { q with entries := q.entries.filter fun p => decide (p.1.2 ≠ i), tdirSlots := adel q.tdirSlots i }
    match (allocTables s i d').bind fun s => placeShares s i d' blocks with
    | none => .error .quota
    | some s =>
      let (n, s) := newId s
      let s := modSeqs s fun q => { q with bindings := aset q.bindings n ⟨d.tenant, h.prefixTokens, h.variant, blocks, [i], []⟩ }
      let s := (List.range d.pairs).foldl (fun s pair => modTdir s i pair fun t =>
        { t with heldEnd := h.prefixTokens, index := h.prefixTokens / max 1 d.t }) s
      .ok (modDesc s i fun _ => { d' with binding := n })

/-- Reads the stream a BIND names through its region. 06_append.md R121, 11_remote_access.md R257. -/
def readStream (s : State) (m : Msg) (a : App) : State × Except Status (List Byte) :=
  match checkKey s a.regionKey m.pd with
  | .error st => (countRefusal s m.hub st, .error st)
  | .ok (_, r) =>
    let part := fun (s : State) (len : Nat) =>
      let acc : AccHdr := { (default : AccHdr) with key := a.regionKey, offset := a.regionOff, length := len }
      match rangeCheck s r false acc with
      | (s, some st) => (countRefusal s m.hub st, Except.error st)
      | (s, none) => readRange s r a.regionOff len
    match part s 64 with
    | (s, .error st) => (s, .error st)
    | (s, .ok b) => part s (max 64 (Stream.parse b).length)

/-- An APPEND BIND. 06_append.md R121, R123, 03_sequences.md R68. -/
def execBindDelta (msg : Nat) (s : State) : Next :=
  match appStart s msg fun a => decide (a.form = 6) with
  | none => .next s
  | some (m, a) =>
    if a.ver ≠ 1 then .next (appRefuse s msg m .version)
    else
      match findOther s m a.other a.otherGen with
      | (s, .error st) => .next (appRefuse s msg m st)
      | (s, .ok base) =>
        match findActive s m a with
        | (s, .error st) => .next (appRefuse s msg m st)
        | (s, .ok (i, d)) =>
          if ! a.bare m then .next (appAnswer s msg m .bounds 0 i [])
          else
            match readStream s m a with
            | (s, .error st) => .next (appAnswer s msg m st 0 i [])
            | (s, .ok b) =>
              let h := Stream.parse b
              let fail := firstFail [(decide (h.ver ≠ 1), Status.version), (! streamWhole h b, .damaged),
                                     (! streamFits s h d i base, .bounds)]
              match fail with
              | some st => .next (appAnswer s msg m st 0 i [])
              | none =>
                match checkShares d ((streamBlocks s h b d base).map (·.base)) s with
                | (s, .ok) =>
                  match applyBind s i d base h b with
                  | .ok s => .next (appAnswer s msg m .ok 0 i [])
                  | .error st => .next (appAnswer s msg m st 0 i [])
                | (s, st) => .next (appAnswer s msg m st 0 i [])

end Sys2Proof.Machine
end

