-- ==== Sys2Proof/Machine/Seals.lean ====
section
/-!
DEFINITION. The seal unit, the reference unit, write-back, eviction, promotion and demotion: what slices do by
themselves. 02_pages.md R41 to R43, 03_sequences.md R60, 06_append.md R128 to R136.
-/
namespace Sys2Proof.Machine

/-! ## Sealing -/

/-- What follows a seal that committed: its request may be answered, forks and a transfer of its sequence go on.
06_append.md R129, 03_sequences.md R61, 12_ledger.md R287 step 2. -/
def afterSeal (s : State) (it : SealItem) : State :=
  let s := if it.waiter = 0 then s else settleSeals s it.waiter
  let s := retryForks s it.desc
  match descOf s it.desc with
  | some d => flush (offerTransfer s d.handle)
  | none => s

/-- A waiting page set aside after a try: at this time, with so many slots freed. 06_append.md R129. -/
def SealItem.setAside (it : SealItem) (s : State) : SealItem :=
  { it with aside := true, tried := now s (homeHub s it.slice),
            frees := freesOf s it.slice (((descOf s it.desc).map (·.tenant)).getD 0) }

/-- Sets a waiting page aside. 02_pages.md R43. -/
def putAside (s : State) (it : SealItem) : State :=
  modSeqs s fun q => { q with sealQ := q.sealQ.map fun x => if x = it then it.setAside s else x }

/-- The seal unit of a slice seals a page. One that finds no place is set aside and counted; one whose tail has a word that
cannot be corrected is set aside, and the request that waits for it is answered (assumption 133). 02_pages.md R43,
06_append.md R129, 08_memory.md R181. -/
def sealOne (s : State) (it : SealItem) : State :=
  match sealItem s it with
  | (s, .ok) => afterSeal s it
  | (s, .busy) => bump (putAside s it) .tier_SEAL_WAITS 0
  | (s, _) => retryForks (failSeals (putAside s it) it.waiter) it.desc

/-- Whether the seal unit holds a page: for want of a FREE command slot, since its comparison with an existing page is a pool
operation, or while the stack is retrained. 03_sequences.md R65, 07_dill.md R142, R146, 16_lifecycle.md R389. -/
def sealHeld (s : State) (it : SealItem) : Bool :=
  decide ((sliceSt s it.slice).st = 1) || ! slotFree s it.slice && it.key.any fun key =>
    (rowOf s (homeHub s it.slice) clsPrefix (prefixKey (((descOf s it.desc).map (·.tenant)).getD 0) it.slice key)).isSome

/-- The seal unit takes its oldest page. 02_pages.md R41, R43. -/
def execTailSeal (slice : Slice) (s : State) : Next :=
  match nextSeal s slice.val false with
  | none => .next s
  | some it => .next (if sealHeld s it then s else sealOne s it)

/-- The time at which a page set aside is taken again: at once when a slot of its tenant has been freed since, else 100 µs
of local time after the latest try. 06_append.md R129. -/
def retryAt (s : State) (it : SealItem) : State :=
  if freesOf s it.slice (((descOf s it.desc).map (·.tenant)).getD 0) ≠ it.frees then s
  else passTo s (homeHub s it.slice) (it.tried + 100000)

/-- The seal unit takes a page it had set aside again. 06_append.md R129. -/
def execSealRetry (slice : Slice) (s : State) : Next :=
  match nextSeal s slice.val true with
  | none => .next s
  | some it => .next (if sealHeld s it then s else sealOne (retryAt s it) it)

/-- Whether the reference unit holds a change: a release for want of a FREE command slot, since the scrub of the page's slot is a
pool operation, or any while the stack is retrained. 03_sequences.md R60, 07_dill.md R142, R146, 16_lifecycle.md R389. -/
def scrubHeld (s : State) (c : RefChange) : Bool :=
  let k := lpnSlice c.lpn
  decide ((sliceSt s k).st = 1) ||
    ! slotFree s k && ! c.inc && decide ((liveHdr s c.lpn).gen = c.gen) && decide ((liveHdr s c.lpn).refs ≤ 1)

/-- The reference unit of a slice applies its oldest change. 03_sequences.md R60. -/
def execRefCountChange (slice : Slice) (s : State) : Next :=
  match s.seqs.refQ.find? fun c => decide (lpnSlice c.lpn = slice.val) with
  | none => .next s
  | some c => .next (if scrubHeld s c then s else (applyRef (modSeqs s fun q => { q with refQ := q.refQ.erase c }) c).1)

/-! ## Write-back and eviction (R130, R131) -/

/-- A tail has received no row for wb_idle: its dirty rows are written back. 06_append.md R130, R131. -/
def execTailWriteBack (tail : TailKey) (s : State) : Next :=
  match aget s.seqs.tails tail, descOf s tail.desc with
  | some t, some d =>
    let s := passTo s (homeHub s t.slice) (t.lastRow + rg s .tier_wb_idle)
    .next (if (t.dirty.any id) ∧ (sliceSt s t.slice).st ≠ 1 then (writeBack s d tail).1 else s)
  | _, _ => .next s

/-- A tail has received no row for evict_idle: written back when dirty, its SRAM is released. 06_append.md R131. -/
def execTailEvict (tail : TailKey) (s : State) : Next :=
  match aget s.seqs.tails tail, descOf s tail.desc with
  | some t, some d =>
    if t.frozen ∨ (sliceSt s t.slice).st = 1 then .next s
    else
      .next (evictTail (passTo s (homeHub s t.slice) (t.lastRow + rg s .tier_evict_idle)) d tail).1
  | _, _ => .next s

/-! ## Promotion (R135, R136) -/

/-- Units of a slice's promotion pool in use. 06_append.md R135. -/
def promoUsed (s : State) (k : Nat) : Nat :=
  sumNat ((s.mem.sram.filter fun p => decide (p.use.die = k) && decide (p.kind = .promotion)).map fun p => p.use.count)

/-- Copies a page into the promotion pool. A page that cannot be read stays where it is. 06_append.md R136. -/
def promotePage (s : State) (k lpn : Nat) (u : SlotUse) : State :=
  let limit := 256 * min 48 (rg s .tier_promote_pool_mib)
  let fits := fun (s : State) => decide (promoUsed s k + u.units ≤ limit)
  let place := fun (s : State) => (allocSram s k 0 u.units .promotion).isSome
  if limit < u.units then s
  else
    match load s (homeAddr s lpn) (hdrAt s (homeAddr s lpn)).geom.size readPool with
    | (s, none) => s
    | (s, some p) =>
      if sealCrc p ≠ (Hdr.parse p).crc then markDamaged s lpn
      else
        let s := demoteUntil place (promotedOf s k) (demoteUntil fits (promotedOf s k) s)
        if ! fits s then s
        else
          match allocSram s k 0 u.units .promotion with
          | none => s
          | some (s, a) =>
            let pr : Promo := ⟨a, false, now s (homeHub s k)⟩
            modMem (poke s a p) fun m => { m with promo := aset m.promo lpn pr }

/-- A page opened promote_threshold times within 1 ms is promoted. 06_append.md R135, R136, 12_ledger.md R284. -/
def execPagePromote (lpn : Nat) (s : State) : Next :=
  match aget s.mem.slots lpn with
  | none => .next s
  | some u =>
    let k := lpnSlice lpn
    let n := ((agetD s.mem.opens lpn []).filter fun t => decide (now s (homeHub s k) < t + 1000000)).length
    let h := hdrAt s (homeAddr s lpn)
    let due : Bool := decide (rg s .tier_promote_en = 1) && decide (u.kind = .page) && decide (0 < n) &&
      decide (rg s .tier_promote_threshold ≤ n) && h.sealed && decide (h.kf ≠ fmtNone) && (aget s.mem.promo lpn).isNone &&
      ! extentClosing s lpn && decide ((sliceSt s k).st ≠ 1)
    if due then .next (promotePage (drainRefs s k) k lpn u) else .next s

/-- A promoted page is demoted, once its stack is not being retrained. 06_append.md R135, R136, 16_lifecycle.md R389. -/
def execPageDemote (lpn : Nat) (s : State) : Next :=
  .next (if (sliceSt s (lpnSlice lpn)).st = 1 then s else demote s lpn)

end Sys2Proof.Machine
end

