-- ==== Sys2Proof/Machine/Remote.lean ====
section
/-!
DEFINITION. READ, WRITE, the region control records, snapshots, and the answers to the node's own READs.
11_remote_access.md R248 to R266, 07_dill.md R169, 14_host.md R324.
-/
namespace Sys2Proof.Machine

/-! ## Access (R255 to R261) -/

/-- Whether an earlier WRITE of the message's stream has not been fully applied. 11_remote_access.md R260, 14_host.md R320. -/
def writeAhead (s : State) (id : Nat) (m : Msg) : Bool :=
  s.msgs.any fun p => decide (p.1 < id) && decide (streamOf p.2.origin = streamOf m.origin) &&
    decide (p.2.opcode = .write) && ! p.2.resp && (streamOf m.origin).isSome

/-- A READ or WRITE whose handler may start. -/
def accStart (s : State) (id : Nat) (op : Opcode) : Option Msg :=
  (startsWork s id op).bind fun m => if writeAhead s id m then none else some m

/-- Whether a WRITE names the region-control function. 11_remote_access.md R249, R251. -/
def toControl (a : AccHdr) : Bool := ! a.byName && decide (a.key = 0)

/-- Orders 1 to 6 of R257: the key used and the entry; the key that goes into the answer otherwise. -/
def accCheck (s : State) (m : Msg) (write : Bool) (a : AccHdr) : State × Except (Status × Nat) (Nat × Nat × Region) :=
  if a.ver ≠ 1 ∨ a.resv ∨ (write ∧ a.snapshot) then (s, .error (.version, a.key))
  else if toControl a then (s, .error (.bounds, 0))
  else
    match accessKey s m.hub m.tenant a with
    | (s, .error st) => (s, .error (st, 0))
    | (s, .ok key) =>
      match checkKey s key m.pd with
      | .error st => (s, .error (st, key))
      | .ok (i, r) => (s, .ok (key, i, r))

/-- Where a checked range that lies in one place stands: a page or buffer unit of page space with an offset, which move
together, or a node address. 11_remote_access.md R261, R265, 06_append.md R136. -/
def rangePlace (s : State) (r : Region) (off len : Nat) : Option Nat × Nat :=
  let a := r.target + off
  if r.kind = rkSequence then
    match resolveParts s r off len with
    | some (_, _, (_, ref, o, _) :: _) => (some ref.lpn, o)
    | _ => (none, 0)
  else if r.kind = rkBuffer then (some (mkLpn (a / 2 ^ 42) (a % 2 ^ 42 / 2 ^ 30) (a % 2 ^ 30 / 4096)), a % 4096)
  else (none, a)

/-- Node address of such a range. -/
def rangeAddr (s : State) (r : Region) (off len : Nat) : Nat :=
  match rangePlace s r off len with
  | (some lpn, o) => liveAddr s lpn + o
  | (none, a) => a

/-- A fenced snapshot of a checked range: the access stays in flight until it is answered. 07_dill.md R169. -/
def startSnapshot (s : State) (id i key : Nat) (r : Region) (off len : Nat) : State :=
  let p := rangePlace s r off len
  let a := rangeAddr s r off len
  let s := modRegion s i fun x => { x with inflight := x.inflight + 1 }
  let s := raiseFence s (a / 2 ^ 42) p.1 p.2 len id i
  modMsg (setPhase s id (.waitSnapshot id)) id fun m => { m with heldPos := key }

/-- A remote READ. 11_remote_access.md R255 to R261. -/
def execReadRegion (msg : Nat) (s : State) : Next :=
  match accStart s msg .read with
  | none => .next s
  | some m =>
    let a := AccHdr.parse m.be m.payload
    match accCheck s m false a with
    | (s, .error (st, key)) => .next (answerRead s msg st key [])
    | (s, .ok (key, i, r)) =>
      if ! lengthCheck false a (m.payload.length - 32) then .next (answerRead s msg .bounds key [])
      else
        match rangeCheck s r false a with
        | (s, some st) => .next (answerRead s msg st key [])
        | (s, none) =>
          if a.snapshot then .next (startSnapshot s msg i key r a.offset a.length)
          else
            match readRange s r a.offset a.length with
            | (s, .ok b) => .next (answerRead s msg .ok key b)
            | (s, .error st) => .next (answerRead s msg st key [])

/-- Answers a WRITE. 11_remote_access.md R256. -/
def answerWrite (s : State) (id : Nat) (m : Msg) (st : Status) (key count : Nat) : State :=
  let s := if st = .ok then bump s .region_WRITES m.hub else countRefusal s m.hub st
  answer s id .write st 0 (accResp m.be st key count)

/-- The control record of a WRITE to key 0 with sound framing. 11_remote_access.md R251. -/
def controlOf (m : Msg) : Option RegRec :=
  let a := AccHdr.parse m.be m.payload
  if a.ver ≠ 1 ∨ a.resv ∨ a.snapshot ∨ ! toControl a ∨ a.offset ≠ 0 ∨ a.length ≠ 64 ∨ m.payload.length ≠ 96 then none
  else some (RegRec.parse m.be (m.payload.drop 32))

/-- A remote WRITE; control records that name no operation of R251 are refused here. 11_remote_access.md R251, R255 to
R260. -/
def execWriteRegion (msg : Nat) (s : State) : Next :=
  match accStart s msg .write with
  | none => .next s
  | some m =>
    match controlOf m with
    | some x => if 1 ≤ x.op ∧ x.op ≤ 3 then .next s else .next (answerControl s msg .version 0 0)
    | none =>
      let a := AccHdr.parse m.be m.payload
      let data := m.payload.drop 32
      match accCheck s m true a with
      | (s, .error (st, key)) => .next (answerWrite s msg m st key 0)
      | (s, .ok (key, _, r)) =>
        if ! lengthCheck true a data.length then .next (answerWrite s msg m .bounds key 0)
        else
          match rangeCheck s r true a with
          | (s, some st) => .next (answerWrite s msg m st key 0)
          | (s, none) =>
            let (s, n, st) := writeRange s m.hub r a.offset data
            .next (answerWrite s msg m st key n)

/-- A SNAPSHOT command. 14_host.md R324, 07_dill.md R169, 11_remote_access.md R261. -/
def execSnapshot (msg : Nat) (s : State) : Next :=
  match startsWork s msg .snapshot with
  | none => .next s
  | some m =>
    let a := { (default : AccHdr) with ver := 1, snapshot := true, key := m.arg0 % 2 ^ 32, offset := m.arg1, length := m.payLen }
    match accCheck s m false a with
    | (s, .error (st, key)) => .next (answerRead s msg st key [])
    | (s, .ok (key, i, r)) =>
      if a.length = 0 then .next (answerRead s msg .bounds key [])
      else
        match rangeCheck s r false a with
        | (s, some st) => .next (answerRead s msg st key [])
        | (s, none) => .next (startSnapshot s msg i key r a.offset a.length)

/-- The writers in a fenced range have finished: it is copied, the fence goes, the requester is answered. While a lane
segment with a write window over it runs, the copy is not due. 07_dill.md R169. -/
def execSnapshotCopy (snap : Nat) (s : State) : Next :=
  match aget s.dill.snaps snap with
  | none => .next s
  | some x => if laneWriting s x.slice (snapAddr s x) x.len then .next s else .next (snapshotCopy s snap)

/-! ## Control records (R251 to R253) -/

/-- A control record of one operation whose handler may start. -/
def controlStart (s : State) (id op : Nat) : Option (Msg × RegRec) :=
  (accStart s id .write).bind fun m =>
    (controlOf m).bind fun x => if x.op = op then some (m, x) else none

/-- Longest region of a kind. 11_remote_access.md R248. -/
def kindMax (s : State) (kind : Nat) : Nat :=
  if kind = rkBuffer then 2 ^ 30 else if kind = rkScratch then 2 ^ 24 else stackBytes s

/-- Order 3 of R252 for a REGISTER. -/
def registerBounds (s : State) (m : Msg) (x : RegRec) : Bool :=
  let die := x.target % 256
  let dieBad := decide (die ≠ 0xFF) && decide ((if x.kind = rkBuffer then 32 else 40) ≤ x.target % 64)
  (decide (x.kind = rkWindow) && ! operatorRole s m) || (! x.read && ! x.write) || (x.named && decide (x.name = 0)) ||
    (if x.kind = rkSequence then
      decide (x.layerCount = 0) || decide (x.kvCount = 0) || decide (x.pageCount = 0) ||
        decide (1024 < x.layerFirst + x.layerCount) || decide (256 < x.kvFirst + x.kvCount) ||
        decide (524288 < x.pageFirst + x.pageCount)
    else
      decide (x.length < 4096) || decide (kindMax s x.kind < x.length) || decide (x.length % 4096 ≠ 0) ||
        (if x.kind = rkWindow then
          decide (32 ≤ x.target / 2 ^ 42) || decide (x.target % 4096 ≠ 0) ||
            decide (stackBytes s < x.target % 2 ^ 42 + x.length)
        else dieBad))

/-- Orders 4 and 5 of R252: the sequence of a SEQUENCE registration. -/
def registerSeq (s : State) (m : Msg) (x : RegRec) : State × Except Status (Option Desc) :=
  if x.kind ≠ rkSequence then (s, .ok none)
  else
    match findSeq s m.hub m.tenant x.target with
    | (s, .miss) => (s, .error .notFound)
    | (s, .rebuilding) => (s, .error .busy)
    | (s, .hit i) =>
      match descOf s i with
      | none => (s, .error .notFound)
      | some d =>
        match firstFail [(! genMatch x.tgtGen d.gen || decide (d.state = .dropping), Status.notFound),
            (decide (d.layers < x.layerFirst + x.layerCount) || decide (d.kvHeads < x.kvFirst + x.kvCount) ||
              decide (16777216 < (x.pageFirst + x.pageCount) * d.t), .bounds),
            (decide (d.state = .draining) || decide (d.state = .transfer), .busy)] with
        | some st => (s, .error st)
        | none => (s, .ok (some d))

/-- The rows of a name as the lowest hub in service holds them. 09_chive.md R207. -/
def nameRows (s : State) (tenant name : Nat) : List ChiveRow :=
  let h := (liveHubs s).head?.getD 0
  let key := nameKey tenant name
  ((blockRows s.chive.shadow h (homeBlock s h clsRegion key)).map (·.2)).filter (rowIs clsRegion key) ++ otFind s h clsRegion key

/-- Whether a name already has four rows of other priorities, leaving out the row of an entry. 09_chive.md R207. -/
def nameFull (s : State) (tenant name prio except : Nat) : Bool :=
  let rows := (nameRows s tenant name).filter fun r => decide (r.value / 256 ≠ except)
  decide (4 ≤ rows.length) && ! rows.any fun r => decide (r.prio = prio)

/-- Slices a BUFFER may take its units from, ascending. -/
def bufferSlices (s : State) (die : Nat) : List Nat :=
  if die = 0xFF then (List.range 32).filter fun k => sliceServes s k
  else if sliceServes s (die % 64) then [die % 64] else []

/-- The die whose general pool has the most free bytes, of those in service; ties go to the lowest. R253. -/
def roomiestDie (s : State) : Option Nat :=
  ((List.range 40).filter fun d => if d < 32 then decide ((sliceSt s d).st = 0) && (sliceSt s d).home.isSome else hubOk s (d - 32)).foldl
    (fun best d => match best with
      | none => some d
      | some b => if poolFree s b < poolFree s d then some d else some b) none

/-- SRAM for a SCRATCH region: of a slice, after tails and promoted pages have yielded (06_append.md R131, R136). -/
def scratchGet (s : State) (die tenant n : Nat) : Except Status (State × Nat) :=
  if die < 32 then
    match sramGet s die tenant n .scratch with
    | some r => .ok r
    | none =>
      let quota := fun (s : State) => sramQuotaOk s tenant n
      let s := uncacheUntil quota (s.seqs.cache.filter fun p => decide (p.1.1 = die))
        (evictUntil quota (evictable s die (some tenant)) s)
      .error (if quota s then .busy else .quota)
  else if ! sramQuotaOk s tenant n then .error .quota
  else
    match allocSram s die tenant n .scratch with
    | some r => .ok r
    | none => .error .busy

/-- Orders 10 and 11 of R252 for the memory of a region: its node address. -/
def registerMem (s : State) (m : Msg) (x : RegRec) : Except Status (State × Nat) :=
  let n := x.length / 4096
  let die := x.target % 256
  if x.kind = rkBuffer then
    if ! slotQuotaOk s m.tenant n then .error .quota
    else
      match (bufferSlices s die).findSome? fun k => placeSlot s k m.tenant n .buffer with
      | some (s, lpn) => .ok (s, dieBase (lpnSlice lpn) + (lpn % 2 ^ 24) * 4096)
      | none => .error .busy
  else if x.kind = rkScratch then
    match (if die = 0xFF then roomiestDie s else if dieServes s (die % 64) then some (die % 64) else none) with
    | none => .error (if sramQuotaOk s m.tenant n then .busy else .quota)
    | some d => scratchGet s d m.tenant n
  else .ok (s, x.target)

/-- Fills the entry of a REGISTER that passed its checks. 11_remote_access.md R253. -/
def newRegion (s : State) (m : Msg) (x : RegRec) (i addr : Nat) (d : Option Desc) : Region :=
  { state := 1, kind := x.kind, read := x.read, write := x.write, named := x.named, gen := regionGenAt s i,
    tenant := m.tenant, pd := m.pd, inflight := 0, prio := x.prio, target := addr, name := if x.named then x.name else 0,
    layerFirst := x.layerFirst, layerCount := x.layerCount, kvFirst := x.kvFirst, kvCount := x.kvCount,
    pageFirst := x.pageFirst, pageCount := x.pageCount,
    length := match d with
      | some d => x.layerCount * x.kvCount * x.pageCount * d.geom.size
      | none => x.length,
    seqGen := (d.map (·.gen)).getD 0, freedAt := 0, revokedAt := 0, revHub := 0, waiters := [], reReg := none, xfer := false }

/-- The last steps of a REGISTER: the name row, then the memory, which the index has no part in, and the entry. A refused
insert is counted. 11_remote_access.md R252 order 11, R253. -/
def registerName (s : State) (msg : Nat) (m : Msg) (x : RegRec) (i : Nat) (d : Option Desc) : State :=
  let named : State × Inserted :=
    if x.named then insertName s m.tenant x.name x.prio i (regionGenAt s i) else (s, .done)
  match named with
  | (s, .done) =>
    match registerMem s m x with
    | .ok (s, addr) =>
      let r := newRegion s m x i addr d
      answerControl (bump (enterRegion s i r) .region_REGISTERS m.hub) msg .ok (regionKey i r.gen) r.length
    | .error st => answerControl s msg st 0 0
  | (s, .bounds) => answerControl s msg .bounds 0 0
  | (s, _) => answerControl s msg .busy 0 0

/-- A REGISTER control record. 11_remote_access.md R252, R253. -/
def execRegisterRegion (msg : Nat) (s : State) : Next :=
  match controlStart s msg 1 with
  | none => .next s
  | some (m, x) =>
    let fail := firstFail [(decide (x.ver ≠ 1) || decide (x.kind = 0) || decide (4 < x.kind), Status.version),
                           (decide (x.pd ≠ m.pd), .pdMismatch), (registerBounds s m x, .bounds)]
    match fail with
    | some st => .next (answerControl s msg st 0 0)
    | none =>
      match registerSeq s m x with
      | (s, .error st) => .next (answerControl s msg st 0 0)
      | (s, .ok d) =>
        match registerMem s m x, freeIndex s with
        | .error st, _ => .next (answerControl s msg st 0 0)
        | .ok _, none => .next (answerControl s msg .busy 0 0)
        | .ok _, some i =>
          if x.named ∧ nameFull s m.tenant x.name x.prio 0 then .next (answerControl s msg .bounds 0 0)
          else .next (registerName s msg m x i d)

/-- Orders 6 to 8 of R252: the entry a record acts on. -/
def oldEntry (s : State) (m : Msg) (x : RegRec) : Except Status (Nat × Region) :=
  let i := x.oldKey / 256
  match (if i = 0 then none else regionOf s i) with
  | none => .error .notFound
  | some r =>
    if r.gen ≠ x.oldKey % 256 then .error .keyStale
    else if r.tenant ≠ m.tenant ∨ r.pd ≠ m.pd then .error .pdMismatch
    else .ok (i, r)

/-- A REVOKE control record. 11_remote_access.md R252, R263, R264. -/
def execRevokeRegion (msg : Nat) (s : State) : Next :=
  match controlStart s msg 2 with
  | none => .next s
  | some (m, x) =>
    match firstFail [(decide (x.ver ≠ 1), Status.version), (decide (x.pd ≠ m.pd), .pdMismatch)] with
    | some st => .next (answerControl s msg st 0 0)
    | none =>
      match oldEntry s m x with
      | .error st => .next (answerControl s msg st x.oldKey 0)
      | .ok (i, r) =>
        if r.state = 0 then .next (answerControl s msg .ok x.oldKey 0)
        else if r.state = 2 then
          .next (setPhase (modRegion s i fun r => { r with waiters := r.waiters ++ [msg] }) msg (.waitRevoke i))
        else .next (startRevoke s i (some msg) none)

/-- A REREGISTER control record. 11_remote_access.md R252, R253, R263. -/
def execReregisterRegion (msg : Nat) (s : State) : Next :=
  match controlStart s msg 3 with
  | none => .next s
  | some (m, x) =>
    match firstFail [(decide (x.ver ≠ 1), Status.version), (decide (x.pd ≠ m.pd), .pdMismatch),
        ((! x.read && ! x.write) || (x.named && decide (x.name = 0)), .bounds)] with
    | some st => .next (answerControl s msg st 0 0)
    | none =>
      match oldEntry s m x with
      | .error st => .next (answerControl s msg st x.oldKey 0)
      | .ok (i, r) =>
        if r.state ≠ 1 then .next (answerControl s msg .keyRevoked x.oldKey 0)
        else if x.named ∧ nameFull s m.tenant x.name x.prio i then .next (answerControl s msg .bounds x.oldKey 0)
        else .next (startRevoke s i (some msg) (some (m.payload.drop 32, msg, m.be)))

/-- The sequence a freed SEQUENCE region covered may go on draining. 11_remote_access.md R265. -/
def drainAfter (s : State) (r : Region) : State :=
  if r.kind = rkSequence then
    match peekSeq s r.tenant r.target with
    | some (i, _) => tryDrain s i
    | none => s
  else s

/-- A REVOKING entry's inflight reaches zero. 11_remote_access.md R263. -/
def execRevokeDrainComplete (index : Nat) (s : State) : Next :=
  match regionOf s index with
  | none => .next s
  | some r => if r.state = 2 ∧ r.inflight = 0 then .next (drainAfter (finishRevoke s index) r) else .next s

/-! ## Answers to the node's own READs (12_ledger.md R287) -/

/-- A READ_RESP arrives; the node asks for a transfer region's bytes alone. 11_remote_access.md R256, 12_ledger.md R287. -/
def execReadResp (msg : Nat) (s : State) : Next :=
  match respMsg s msg .readResp with
  | none => .next s
  | some m =>
    match takeAsk s m with
    | (s, none) => .next (dropMsg s msg)
    | (s, some a) =>
      let s := dropMsg s msg
      let st := Status.ofCode (fld m.be m.payload 1 1)
      .next (flush (destRead s a.about st (m.payload.drop 16)))

end Sys2Proof.Machine
end

