-- ==== Sys2Proof/Machine/Frames.lean ====
section
/-!
DEFINITION. Receiving a frame: protection, addressing, the checks of a first segment, the window, reassembly and delivery;
acknowledgements and failure of a connection. 10_fabric.md R220 to R246.
-/
namespace Sys2Proof.Machine

/-! ## Orders 1 and 2 of R230 -/

/-- A sub-port. -/
def subOf (s : State) (h u : Nat) : SubPort := agetD s.fab.subs (h, u) default

/-- Changes a sub-port. -/
def modSub (s : State) (h u : Nat) (f : SubPort → SubPort) : State :=
  modFab s fun x => { x with subs := aset x.subs (h, u) (f (subOf s h u)) }

/-- Lowest packet number acceptable after one has passed. 10_fabric.md R223. -/
def nextLowest (s : State) (h : Nat) (a : SecAssoc) (pn : Nat) : SecAssoc :=
  { a with pn := max a.pn (pn + 1 - min 64 (rget s .fab_replay_window h 0)) }

/-- MACsec: the association of the frame's number, its ICV, the replay check. 10_fabric.md R223, R225. -/
def secCheck (s : State) (h u : Nat) (f : Arrival) : Option State :=
  let p := subOf s h u
  let fits := fun (a : SecAssoc) => decide (a.an = f.an) && decide (a.pn ≤ f.pn)
  if ! f.prot ∨ ! f.icvOk then none
  else
    match p.rx with
    | some a =>
      if fits a then some (modSub s h u fun x => { x with rx := some (nextLowest s h a f.pn) })
      else
        match p.rxOld with
        | some b =>
          if a.an ≠ f.an ∧ fits b then some (modSub s h u fun x => { x with rxOld := some (nextLowest s h b f.pn) }) else none
        | none => none
    | none => none

/-- Whether a frame's encapsulation is Plembel at a port, and whether its IPv6 checksum lets it pass. 10_fabric.md R226. -/
def etherOk (s : State) (h : Nat) : Ether → Bool × Bool
  | .cell t => (decide (rget s .fab_cell_mode h 0 = 1) && decide (t = rget s .fab_ethertype h 0), true)
  | .routed v6 p sumOk _ =>
    (decide (rget s .fab_cell_mode h 0 = 0) && decide (v6 = decide (rget s .fab_ipv4 h 0 = 0)) &&
      decide (p = rget s .fab_udp_port h 0), ! v6 || sumOk)
  | _ => (false, true)

/-- Whether a frame carries a CE mark. 10_fabric.md R226. -/
def ceMark : Ether → Bool
  | .routed _ _ _ ce => ce
  | _ => false

/-! ## The census (16_lifecycle.md R377) -/

/-- Notes a peer tag that differs from the node's own at a hub. 16_lifecycle.md R377. -/
def noteTag (s : State) (h tag ep : Nat) : State :=
  if tag = configTag s ∨ (s.life.crit ≠ 0 ∧ tag = altTag s) then s
  else
    let tab := takeTab (agetD s.fab.census h [])
    let set := fun (i : Nat) (c : Census) => modFab s fun x => { x with census := aset x.census h (tab.set i (some c)) }
    match tab.findIdx? fun e => decide ((e.map (·.tag)) = some tag) with
    | some i => set i ⟨tag, satAdd (((tab.getD i none).map (·.count)).getD 0) 1, ep⟩
    | none =>
      match tab.findIdx? fun e => e.isNone with
      | some i => set i ⟨tag, 1, ep⟩
      | none => bump s .life_CENSUS_OVERFLOW 0
where
  takeTab (l : List (Option Census)) : List (Option Census) := l ++ List.replicate (16 - l.length) none

/-! ## Acknowledgements (R238, R239) -/

/-- Sends a retained segment again, unless it lies beyond the peer's credit. 10_fabric.md R239, R240. -/
def retransmit (s : State) (id : Nat) (c : Conn) (g : SentSeg) : State :=
  if ! inCredit c g.seq then s else
  let f := { g.frame with flags := g.frame.flags ||| flRetx }
  let s := bump (toEgress s c.hub id c.peerAddr f) .fab_RETRANSMITS c.hub
  modConn s id fun x => { x with ring := x.ring.map fun y => if y.seq = g.seq then { y with queued := true, again := true } else y }

/-- Smoothed estimates after a round-trip sample (RFC 6298 gains). 10_fabric.md R239. -/
def smooth (c : Conn) (r : Nat) : Conn :=
  if c.srtt = 0 then { c with srtt := r, rttvar := r / 2 }
  else
    let d := if c.srtt < r then r - c.srtt else c.srtt - r
    { c with rttvar := (3 * c.rttvar + d) / 4, srtt := (7 * c.srtt + r) / 8 }

/-- rto from the estimates, clamped. 10_fabric.md R239. -/
def withRto (s : State) (c : Conn) : Conn :=
  if c.srtt = 0 then c
  else { c with rto := max (rget s .fab_rto_min c.hub 0) (min (rget s .fab_rto_max c.hub 0) (c.srtt + 4 * c.rttvar)) }

/-- Whether a sequence number lies in a block. -/
def inBlock (p : Nat × Nat) (q : Nat) : Bool := ! sLt q p.1 && ! sLt p.2 q

/-- Sequence numbers that blocks hold beyond one. 10_fabric.md R239. -/
def coveredAfter (bl : List (Nat × Nat)) (q : Nat) : Nat :=
  sumNat (bl.map fun p => if sLt q p.1 then sDist p.1 p.2 + 1 else if inBlock p q then sDist q p.2 else 0)

/-- Segments at the egress scheduler beyond a credit that the peer has lowered come back and wait. 10_fabric.md R240. -/
def takeBack (s : State) (id : Nat) : State :=
  match connOf s id with
  | none => s
  | some c =>
    let out := (c.ring.filter fun g => g.queued && ! inCredit c g.seq).map (·.seq)
    if out.isEmpty then s
    else
      let s := keepEgress s fun e =>
        ! (decide (e.conn = id) && ! unsequenced ((Opcode.ofCode e.frame.opcode).getD .ack) && out.contains e.frame.seq)
      modConn s id fun c => { c with ring := c.ring.map fun g => if out.contains g.seq then { g with queued := false } else g }

/-- Hands on what the send rings of a hub have room for again. 08_memory.md R445. -/
def pumpHub (s : State) (h : Nat) : State :=
  (s.fab.conns.filter fun p => decide (p.2.hub = h)).foldl (fun s p => pump s p.1) s

/-- Takes an acknowledgement, its credit and its SACK blocks. 10_fabric.md R238, R239, R240. -/
def onAck (s : State) (id ack credit : Nat) (bl : List (Nat × Nat)) : State :=
  match connOf s id with
  | none => s
  | some c =>
    if sDist c.sndUna c.sndNext < sDist c.sndUna ack then s
    else
      let t := now s c.hub
      let gone := c.ring.filter fun g => sLt g.seq ack
      let moved := decide (ack ≠ c.sndUna)
      let sample := ((gone.filter fun g => g.sent && ! g.again).getLast?).map fun g => t - g.sentAt
      let c1 := match sample with
        | some r => smooth c r
        | none => c
      let c1 := if moved then withRto s { c1 with timeouts := 0 } else c1
      let ring := (c.ring.filter fun g => ! sLt g.seq ack).map fun g =>
        if bl.any fun p => inBlock p g.seq then { g with sacked := true } else g
      let s := modConn s id fun _ => { c1 with sndUna := ack, peerCredit := credit, ring := ring }
      let done := fun (e : EgSeg) => decide (e.conn = id) && ! unsequenced ((Opcode.ofCode e.frame.opcode).getD .ack) &&
        ! ring.any fun g => decide (g.seq = e.frame.seq) && ! g.sacked
      let s := keepEgress s fun e => ! done e
      let s := takeBack s id
      let c := (connOf s id).getD c
      let lost := ring.filter fun g => g.sent && ! g.queued && ! g.sacked && decide (3 ≤ coveredAfter bl g.seq) &&
        ! (g.fast && decide (t < g.sentAt + c1.rto))
      let s := lost.foldl (fun s g =>
        let s := retransmit s id c g
        modConn s id fun x => { x with ring := x.ring.map fun y => if y.seq = g.seq then { y with fast := true } else y }) s
      settleConn (pumpHub s c.hub) id

/-! ## Failure (R236, R242) -/

/-- A request of the node's own that no peer will answer. 10_fabric.md R236, R242. -/
def askFailed (s : State) (a : Ask) : State :=
  match a.op with
  | .partialRec => contribAnswered s a.about false
  | .ledgerRead => readFailed s a.about
  | .ledgerPublish => modLedg s fun y => { y with pubs := y.pubs.map fun p => if p.line = a.about then { p with sent := false } else p }
  | .read => destRead s a.about none []
  | _ => s

/-- The requests of the node's own that a connection left without a response are issued again from a hub, in their order, on
another connection to the same peer. A contribution is not: "when that connection fails before the answer arrives" its merge
point counts as unreachable, and the requester is answered directly. 10_fabric.md R242, 05_merge.md R114. -/
def reissue (s : State) (h : Nat) (c : Conn) : State :=
  c.asked.foldl (fun s a =>
    if a.op = .partialRec then askFailed s a
    else
      match ask s h c.peer a.op a.about a.payload with
      | (s, true) => s
      | (s, false) => askFailed s a) s

/-- A connection becomes FAILED: what it held goes, the node's own requests are issued again on another connection.
10_fabric.md R236, R240, R242, 05_merge.md R114. -/
def connFail (s : State) (id : Nat) : State :=
  match connOf s id with
  | none => s
  | some c =>
    let s := bump s .fab_CONN_FAILED c.hub
    let s := endSessions s (.conn c.hub id)
    let s := modConn s id fun x => { x with state := .failed, ring := [], reasm := [], passed := [], refused := [], asked := [],
                                            unacked := 0, ackDue := none, lastRx := now s x.hub }
    let s := reissue (keepEgress s fun e => decide (e.conn ≠ id)) c.hub c
    pumpHub (if c.reasm.isEmpty then s else reopen s c.hub) c.hub

/-- A connection in OPENING ends without opening: its requests fail. 10_fabric.md R236. -/
def openFailed (s : State) (id : Nat) : State :=
  match connOf s id with
  | none => s
  | some c => flush (c.asked.foldl askFailed (dropConn s id))

/-! ## Orders 3 and 6 to 9 of R230 -/

/-- The fate of a message's first segment. -/
inductive Fate where
  /-- traffic class, colour, and how far order 9 let it come -/
  | pass (cls : Nat) (colour : Colour) (phase : Phase)
  | refuse (st : Status) (hint : Nat) (payload : List Byte)
  deriving DecidableEq, Repr

/-- Whether a frame belongs to an answer. 10_fabric.md R229. -/
def isReply (f : Frame) : Bool :=
  bit1 f.flags 4 || decide (f.opcode = Opcode.readResp.code) || decide (f.opcode = Opcode.nack.code) ||
    decide (f.opcode = Opcode.recallAck.code)

/-- Whether order 8 lets a message by without metering it: RESP set, RECALL_ACK. 13_traffic.md R301. -/
def unmetered (f : Frame) : Bool := bit1 f.flags 4 || decide (f.opcode = Opcode.recallAck.code)

/-- Whether a version-0 request keeps R235: the basic level of ATTEND, APPEND of form TOKENS. -/
def v0Ok (op : Opcode) (resp : Bool) (b : List Byte) : Bool :=
  v0Ops.contains op &&
    (resp || match op with
      | .attend =>
        let a := Att.parse true b
        ! a.out32 && ! a.arrival && ! a.noAnch && ! a.slopes && ! a.expQpos && decide (a.mode = 0) && decide (a.blocks = 0) &&
          decide (a.cap = 0#32) && decide (a.slope = 0#32) && decide (a.param = 0) && decide (a.window = 0) &&
          decide (a.qpos = 0) && decide (a.tag = 0) && decide (a.contribs = 0) && decide (a.point = 0) && decide (a.deadline = 0)
      | .append => decide ((App.parse true b).form = 0)
      | _ => true)

/-- The message a first segment starts, as its checks see it. -/
def asMsg (s : State) (id : Nat) (c : Conn) (f : Frame) (op : Opcode) (cls : Nat) (colour : Colour) (phase : Phase)
    (payload : List Byte) : Msg :=
  { hub := c.hub, origin := .conn c.hub id f.seq, opcode := op, resp := isReply f, replyTo := f.replyTo, endpoint := c.peer,
    tenant := c.tenant, pd := c.pd, cls := cls, colour := colour, epoch := f.epoch, be := true, payload := payload,
    v0 := decide (c.version = 0), phase := phase, at_ := now s c.hub, held := [], units := 0, heldSt := .ok, heldMap := 0, heldKv := 0,
    heldPos := 0, irq := false, ring := 0, payLen := payload.length, respLen := 0, respAddr := 0, tag := f.tag, slotSeq := 0,
    fence := false, arg0 := 0, arg1 := 0 }

/-- Order 7: the configuration tag. 10_fabric.md R230, R235, 16_lifecycle.md R375. -/
def orderSeven (s : State) (c : Conn) (f : Frame) : State × Bool :=
  if c.version = 0 ∨ f.tag = configTag s then (s, true)
  else
    let s := bump s .fab_TAG_MISMATCH c.hub
    if f.tag / 65536 = configTag s / 65536 ∨ (s.life.crit ≠ 0 ∧ f.tag / 65536 = altTag s / 65536) then (s, true)
    else (bump s .fab_CONFIG_REFUSED c.hub, false)

/-- The charge of a message. 13_traffic.md R301. -/
def chargeOf (c : Conn) (f : Frame) : Nat := if f.segCount = 1 then f.payLen + 44 else f.segCount * (segSize c + 44)

/-- Order 8 for an answer that is metered: a NACK or READ_RESP without RESP on a connection of a tenant. 13_traffic.md R301. -/
def answerEight (s : State) (c : Conn) (f : Frame) : State × Fate :=
  if unmetered f ∨ c.tenant = 0 then (s, .pass f.cls .green .arrived)
  else
    match orderEight s c.hub (polEndpoint c.peer) f.cls (chargeOf c f) true with
    | (s, .busy) => (s, .refuse .busy (loadHint s c.hub (polEndpoint c.peer) true) [])
    | (s, .take cls colour) => (s, .pass cls colour .arrived)

/-- Orders 8 and 9 for a request. 10_fabric.md R230, 13_traffic.md R301, 16_lifecycle.md R394, 18_package.md R433. -/
def ordersEightNine (s : State) (id : Nat) (c : Conn) (f : Frame) (op : Opcode) : State × Fate :=
  if draining s ∨ (hubSt s c.hub).st = 1 then (s, .refuse .busy 15 [])
  else
    match orderEight s c.hub (polEndpoint c.peer) f.cls (chargeOf c f) (decide (c.tenant ≠ 0)) with
    | (s, .busy) => (s, .refuse .busy (loadHint s c.hub (polEndpoint c.peer) true) [])
    | (s, .take cls colour) =>
      let m := asMsg s id c f op cls colour .arrived f.payload
      match nine s s.nextId m (decide (f.segCount = 1)) with
      | (s, .pass) => (s, .pass cls colour .arrived)
      | (s, .wait p) => (s, .pass cls colour p)
      | (s, .fail st payload) => (s, .refuse st 0 payload)

/-- The checks of a message's first segment in the order of R230. -/
def firstChecks (s : State) (id : Nat) (c : Conn) (f : Frame) : State × Fate :=
  match Opcode.ofCode f.opcode with
  | none => (s, .refuse .version 0 [])
  | some op =>
    if op = .snapshot ∨ (c.version = 0 ∧ ! v0Ok op (isReply f) f.payload) then (s, .refuse .version 0 [])
    else if ! isReply f ∧ (c.closeSent ∨ c.closeRcvd) then (s, .refuse .notFound 0 [])
    else if f.pd ≠ c.pd then (s, .refuse .pdMismatch 0 [])
    else
      match orderSeven s c f with
      | (s, false) => (s, .refuse .configMismatch 0 [])
      | (s, true) => if isReply f then answerEight s c f else ordersEightNine s id c f op

/-! ## Reassembly (R231, R232) -/

/-- Whether a sequence number lies in a refused message. -/
def isRefused (c : Conn) (q : Nat) : Bool := c.refused.any fun p => inBlock p q

/-- Segments that have arrived in order and have not been handed on, in sequence order. -/
def inOrder (c : Conn) : List Frame :=
  sortBy (fun f => sDist (sAdd c.rcvNext (2 ^ 31)) f.seq) (c.reasm.filter fun f => sLt f.seq c.rcvNext)

/-- rcv_next after every segment held in order. -/
def advance : Nat → List Nat → Nat → Nat
  | 0, _, n => n
  | k + 1, held, n => if held.contains n then advance k held (sAdd n 1) else n

/-- Whether a segment agrees with the first of its message and with s. 10_fabric.md R231, R232. -/
def segAgrees (size : Nat) (hd : Frame) (i : Nat) (f : Frame) : Bool :=
  decide (f.segIndex = i) && decide (f.segCount = hd.segCount) && decide (f.opcode = hd.opcode) &&
    decide (f.payLen ≤ size) && decide (f.payLen = f.payload.length) &&
    (decide (i + 1 = hd.segCount) || decide (f.payLen = size)) &&
    decide (i < hd.segCount) && decide (i * size + f.payLen ≤ 8388608)

/-- Takes segments of a connection out of reassembly. -/
def takeSegs (s : State) (id : Nat) (fs : List Frame) : State :=
  let qs := fs.map (·.seq)
  modConn s id fun c => { c with reasm := c.reasm.filter fun f => ! qs.contains f.seq }

/-- A message refused once its segments are at hand: its later segments are discarded as they arrive. 10_fabric.md R230,
R232. -/
def refuseHead (s : State) (id : Nat) (hd : Frame) (st : Status) (upTo : Nat) : State :=
  let first := (hd.seq + 2 ^ 32 - hd.segIndex % 2 ^ 32) % 2 ^ 32
  let s := modConn s id fun c => { c with refused := c.refused ++ [(hd.seq, upTo)],
                                          passed := c.passed.filter fun p => decide (p.1 ≠ hd.seq) }
  sendNack s id first st 0 (nackPayload true st)

/-- A message with CLOSE has been received, refused or not. 10_fabric.md R236. -/
def takeClose (s : State) (id : Nat) (hd : Frame) : State :=
  if bit1 hd.flags 3 then
    modConn s id fun c => { c with closeRcvd := true, state := if c.state = .open_ then .closing else c.state }
  else s

/-- A whole message of some segments enters the queue; a CLOSE ends what the peer may ask. Its segments hold reassembly space
until its handler starts. 10_fabric.md R232, R236, 13_traffic.md R314. -/
def handOver (s : State) (id : Nat) (c : Conn) (hd : Frame) (part : List Frame) : State :=
  let payload := part.flatMap (·.payload)
  let s := modConn s id fun c => { c with passed := c.passed.filter fun p => decide (p.1 ≠ hd.seq) }
  let (cls, colour, phase) := match c.passed.find? fun p => decide (p.1 = hd.seq) with
    | some p => (p.2.1, p.2.2.1, p.2.2.2)
    | none => (hd.cls, .green, .arrived)
  let op := (Opcode.ofCode hd.opcode).getD .nack
  if ! isReply hd ∧ c.closeRcvd then sendNack s id hd.seq .notFound 0 (nackPayload true .notFound)
  else
    let m := asMsg s id c hd op cls colour phase payload
    let (n, s) := newId s
    let units := sumNat (part.map fun f => ceilDiv f.payLen 4096)
    let s := takeClose (setMsgs s (s.msgs ++ [(n, { m with units := units })])) id hd
    let s := modMeter s c.tenant fun x => { x with bytesIn := x.bytesIn + payload.length }
    if isReply hd then s
    else if phase ≠ .arrived then runNine s n
    else if 1 < hd.segCount then
      match nineWhole s m with
      | (s, .fail st p) => refuseNine s n st p
      | (s, .wait p) => setPhase s n p
      | (s, .pass) => s
    else s

/-- Hands on what has arrived in order. 10_fabric.md R232. -/
def deliverLoop : Nat → State → Nat → State
  | 0, s, _ => s
  | k + 1, s, id =>
    match connOf s id with
    | none => s
    | some c =>
      match inOrder c with
      | [] => s
      | hd :: rest =>
        if isRefused c hd.seq then deliverLoop k (takeClose (takeSegs s id [hd]) id hd) id
        else
          let last := sAdd hd.seq (max 1 hd.segCount - 1 - min hd.segIndex (max 1 hd.segCount - 1))
          let part := hd :: rest.take (hd.segCount - 1)
          let bad := (part.zipIdx).find? fun p => ! segAgrees (segSize c) hd p.2 p.1
          match bad with
          | some (f, i) =>
            let upTo := if i ≠ 0 ∧ f.segIndex = 0 then (f.seq + 2 ^ 32 - 1) % 2 ^ 32 else last
            deliverLoop k (refuseHead s id hd .bounds upTo) id
          | none =>
            if part.length < hd.segCount then s
            else deliverLoop k (handOver (takeSegs s id part) id c hd part) id

/-- Refused messages wholly before rcv_next are forgotten. -/
def forgetRefused (s : State) (id : Nat) : State :=
  modConn s id fun c => { c with refused := c.refused.filter fun p => ! sLt p.2 c.rcvNext }

/-! ## The window (R240) -/

/-- Whether a segment needs an acknowledgement at once. 10_fabric.md R238. -/
def ackAfter (s : State) (id : Nat) (atOnce : Bool) : State :=
  match connOf s id with
  | none => s
  | some c =>
    let n := c.unacked + 1
    if atOnce ∨ 16 ≤ n then sendAck s id
    else modConn s id fun x => { x with unacked := n, ackDue := x.ackDue <|> some (now s x.hub) }

/-- Sequence number of the first segment of a frame's message. -/
def firstSeq (f : Frame) : Nat := (f.seq + 2 ^ 32 - f.segIndex % 2 ^ 32) % 2 ^ 32

/-- A segment that is taken: its place in reassembly, what can be handed on, its acknowledgement. 10_fabric.md R232, R238,
R240. -/
def takeIn (s : State) (id : Nat) (c : Conn) (f : Frame) : State :=
  let first := firstSeq f
  match connOf s id with
  | none => s
  | some c1 =>
    let f := if isRefused c1 first ∨ isRefused c1 f.seq then { f with payload := [], payLen := 0 } else f
    let held := c1.reasm.any fun g => ! sLt g.seq c1.rcvNext
    let reasm := (c1.reasm ++ [f]).map fun g => if isRefused c1 g.seq then { g with payload := [], payLen := 0 } else g
    let rcv := advance reasm.length (reasm.map (·.seq)) c1.rcvNext
    let s := modConn s id fun x => { x with reasm := reasm, rcvNext := rcv }
    let s := forgetRefused (deliverLoop (reasm.length + 1) s id) id
    reopen (ackAfter s id (held || decide (f.seq ≠ c1.rcvNext))) c.hub

/-- An accepted segment: the first one decides its message's fate. 10_fabric.md R230, R240. -/
def accept (s : State) (id : Nat) (c : Conn) (f : Frame) : State :=
  let s :=
    if f.segIndex = 0 then
      match firstChecks s id c f with
      | (s, .pass cls colour phase) =>
        if isReply f then s else modConn s id fun x => { x with passed := x.passed ++ [(f.seq, cls, colour, phase)] }
      | (s, .refuse st hint payload) =>
        let s := modConn s id fun x => { x with refused := x.refused ++ [(f.seq, sAdd f.seq (max 1 f.segCount - 1))] }
        sendNack s id f.seq st hint (if payload.isEmpty then nackPayload true st else payload)
    else s
  takeIn s id c f

/-- A frame of another version than its connection's is refused with VERSION before anything else of it is taken; its message
consumes its sequence numbers where they lie in the window. 10_fabric.md R230 order 3. -/
def refuseVersion (s : State) (id : Nat) (c : Conn) (f : Frame) : State :=
  let first := firstSeq f
  let nack := fun (s : State) => sendNack s id first .version 0 (nackPayload true .version)
  if ((Opcode.ofCode f.opcode).any unsequenced) ∨ sLt f.seq c.rcvNext ∨ c.ownCredit ≤ sDist c.rcvNext f.seq ∨
      c.reasm.any (fun g => decide (g.seq = f.seq)) then nack s
  else if isRefused c f.seq then takeIn s id c f
  else
    let s := modConn s id fun x => { x with refused := x.refused ++ [(first, sAdd first (max 1 f.segCount - 1))],
                                            passed := x.passed.filter fun p => decide (p.1 ≠ first) }
    takeIn (nack s) id c f

/-- A sequenced segment meets the window. 10_fabric.md R240. -/
def judge (s : State) (id : Nat) (c : Conn) (f : Frame) : State :=
  if sLt f.seq c.rcvNext then sendAck (bump s .fab_DUPLICATES c.hub) id
  else if c.reasm.any fun g => decide (g.seq = f.seq) then bump s .fab_DUPLICATES c.hub
  else if c.ownCredit ≤ sDist c.rcvNext f.seq then sendAck (bump s .fab_OUT_OF_WINDOW c.hub) id
  else accept s id c f

/-! ## A frame at its hub -/

/-- Puts an unsequenced message in the queue. -/
def queueUnseq (s : State) (id : Nat) (c : Conn) (f : Frame) (op : Opcode) : State :=
  let (n, s) := newId s
  let m := { asMsg s id c f op 0 .green .arrived f.payload with resp := false, arg0 := f.ack, arg1 := f.credit, slotSeq := f.flags }
  setMsgs s (s.msgs ++ [(n, m)])

/-- A frame of a connection whose record is on chip. 10_fabric.md R230 order 3 on, R235, R238. -/
def connFrame (s : State) (id : Nat) (f : Frame) : State :=
  match connOf s id with
  | none => s
  | some c =>
    if c.state = .opening then s
    else
      let op := Opcode.ofCode f.opcode
      let bare := decide (op = some .nack) && ! bit1 f.flags 0
      if f.version ≠ c.version ∧ ! bare then refuseVersion s id c f
      else
      let (use, s) := newId s
      let s := modConn s id fun x => { x with lastRx := now s x.hub, lastUse := use }
      let s := if c.version = 0 then bump s .fab_V0_FRAMES c.hub
        else if f.opcode = Opcode.heartbeat.code then s else noteTag s c.hub f.tag c.peer
      let s := if bit1 f.flags 0 ∧ op ≠ some .ack then onAck s id f.ack f.credit [] else s
      match op, connOf s id with
      | _, none => s
      | some .ack, some c => queueUnseq s id c f .ack
      | some .heartbeat, some c => queueUnseq s id c f .heartbeat
      | some .nack, some c => if bare then queueUnseq s id c f .nack else judge s id c f
      | _, some c => judge s id c f

/-- A HELLO or its response enters the queue of the hub it reached; the census notes its tag. A response of a version the
node does not support is refused by a NACK, a HELLO of one by its own response. 10_fabric.md R230 order 3, R236,
16_lifecycle.md R377. -/
def queueHello (s : State) (h peerAddr : Nat) (f : Frame) : State :=
  let s := if f.version = 0 then s else noteTag s h f.tag f.src
  if bit1 f.flags 4 ∧ ! bit1 (versions s h) f.version then bareNack s h peerAddr f .version
  else
  let (n, s) := newId s
  let m := { ownMsg s h .hello f.payload f.connId with
    resp := bit1 f.flags 4, endpoint := f.src, pd := f.pd, arg1 := f.credit, tag := f.tag, respAddr := peerAddr,
    slotSeq := f.version, replyTo := f.seq, epoch := f.ack }
  setMsgs s (s.msgs ++ [(n, m)])

/-- Whether a connection row names a record of its key at a hub. 09_chive.md R201, R205. -/
def confirmConn (s : State) (h key v : Nat) : Bool :=
  s.fab.conns.any fun p => decide (p.2.hub = h) && decide (connKey p.2 = key) && decide (p.2.index = v % 2 ^ 22)

/-- The connection a frame names, sought in the index of each hub in turn; BUSY when none has it and one is rebuilding the
row's block. 09_chive.md R201, R205, R213, 10_fabric.md R221, R230, R244. -/
def seekConn (ep cid peer : Nat) : List Nat → State → Bool → State × Except Status (Option (Nat × Conn))
  | [], s, busy => (s, if busy then .error .busy else .ok none)
  | h :: hs, s, busy =>
    let key := cid + peer * 2 ^ 32
    match search s h clsConn key (confirmConn s h key) with
    | (s, .hit _) => (s, .ok (findConn s ep cid peer))
    | (s, .miss) => seekConn ep cid peer hs s busy
    | (s, .rebuilding) => seekConn ep cid peer hs s true

/-- The hubs that may hold a connection of an endpoint, the one the frame reached first: those of the port group, and one that
serves a quadrant of the group. 10_fabric.md R221, R243. -/
def connHubs (s : State) (h ep : Nat) : List Nat :=
  let own := (List.range 8).filter fun x => decide (endpointOf s x = ep)
  h :: ((own ++ own.filterMap fun x => quadHub s x).eraseDups.filter fun x => decide (x ≠ h) && hubAlive s x)

/-- A frame waits in the fill queue of its spilled connection's hub. 10_fabric.md R246. -/
def waitFill (s : State) (id : Nat) (c : Conn) (f : Frame) : State :=
  if 256 ≤ (s.fab.fillQ.filter fun p => (connOf s p.1).any fun x => decide (x.hub = c.hub)).length then
    bump s .fab_FILL_DROPS c.hub
  else modFab s fun x => { x with fillQ := x.fillQ ++ [(id, f)] }

/-- A Plembel frame addressed to this port or its group: it goes to the hub that holds its connection, over the hub links.
10_fabric.md R221, R230, R246, 01_node.md R16. -/
def plembelFrame (s : State) (h peerAddr : Nat) (f : Frame) : State :=
  if f.version = 0 ∧ rget s .fab_forerunner_compat h 0 = 0 then s
  else
    let hello := decide (f.opcode = Opcode.hello.code)
    let lost := fun (s : State) (st : Status) =>
      if hello then queueHello s h peerAddr f
      else if f.opcode = Opcode.nack.code ∧ ! bit1 f.flags 0 then s
      else bareNack s h peerAddr f st
    match seekConn f.dst f.connId f.src (connHubs s h f.dst) s false with
    | (s, .error st) => lost s st
    | (s, .ok none) => lost s .notFound
    | (s, .ok (some (id, c))) =>
      if (hubRoute s h c.hub).isNone then s
      else if c.state = .failed then lost s .notFound
      else if ! c.onChip then waitFill s id c f
      else if hello then queueHello s h peerAddr f
      else connFrame s id f

/-- A frame arrives at a sub-port. 10_fabric.md R220, R225, R226, R230. -/
def execPlembelFrameReceive (hub : Hub) (f : Arrival) (s : State) : Next :=
  let h := hub.val
  let u := f.sub.val
  if ! hubAlive s h ∨ ! (subOf s h u).link then .next s
  else
  let s := bumpAt (bumpAt s .fab_FEC_CORRECTED h u f.fecDone) .fab_FEC_UNCORRECTED h u f.fecLost
  if f.length < 64 ∨ 9216 < f.length then .next s
  else
    match f.ether with
    | .pause => .next (bump s .fab_PAUSE_DROPS h)
    | .kx => .next s
    | e =>
      match secCheck s h u f with
      | none => .next (bump s .fab_MACSEC_DROPS h)
      | some s =>
        let s := if ceMark e then bump s .fab_CE_MARKS h else s
        match etherOk s h e, Frame.parse f.bytes with
        | (false, _), _ => .next (bump s .fab_MISDIRECTED h)
        | (true, false), _ => .next s
        | (true, true), none => .next s
        | (true, true), some x => .next (if x.dst = endpointOf s h then plembelFrame s h f.peer x else bump s .fab_MISDIRECTED h)

end Sys2Proof.Machine
end

