-- ==== Sys2Proof/Machine/Fabric.lean ====
section
/-!
DEFINITION. The commands of the fabric family that concern connections: acknowledgements, refusals, HELLO, HEARTBEAT, spilled
records and the connection timers. 10_fabric.md R233 to R246.
-/
namespace Sys2Proof.Machine

/-- An unsequenced message in the queue, or a NACK. -/
def wireMsg (s : State) (id : Nat) (op : Opcode) : Option Msg :=
  (msgOf s id).filter fun m => decide (m.opcode = op) && decide (m.phase = .arrived)

/-- Connection of a message. -/
def msgConn (m : Msg) : Nat :=
  match m.origin with
  | .conn _ idx _ => idx
  | _ => 0

/-- An ACK arrives. 10_fabric.md R238, R239, R240. -/
def execAck (msg : Nat) (s : State) : Next :=
  match wireMsg s msg .ack with
  | none => .next s
  | some m =>
    let s := setMsgs s (adel s.msgs msg)
    let bl := if bit1 m.slotSeq 1 then sackParse m.payload else []
    .next (if bit1 m.slotSeq 0 then onAck s (msgConn m) m.arg0 m.arg1 bl else settleConn s (msgConn m))

/-- A publish of the node's own lost its race or was refused. 12_ledger.md R276, R287. -/
def pubLost (s : State) (l : Nat) : State :=
  let s := modLedg s fun y => { y with pubs := y.pubs.filter fun q => decide (q.line ≠ l), copies := adel y.copies l }
  let s := dropDest s (l % 2 ^ 62)
  match lineHome s s.ledg.newest l with
  | some (ep, _) => (sendRead s ep l .recalled false).1
  | none => s

/-- A request of the node's own has been refused before its handler. 10_fabric.md R230, 05_merge.md R114. -/
def askRefused (s : State) (a : Ask) (st : Option Status) : State :=
  match a.op with
  | .partialRec => contribAnswered s a.about false
  | .ledgerRead => readFailed s a.about
  | .ledgerPublish => pubLost s a.about
  | .read => destRead s a.about st []
  | _ => s

/-- A NACK arrives with the status of a refusal. 10_fabric.md R230. -/
def execNack (msg : Nat) (s : State) : Next :=
  match wireMsg s msg .nack with
  | none => .next s
  | some m =>
    match takeAsk s m with
    | (s, none) => .next (dropMsg s msg)
    | (s, some a) => .next (flush (askRefused (dropMsg s msg) a (Status.ofCode (fld true m.payload 1 1))))

/-! ## HELLO (R233 to R237, 15_trust.md R354, R355) -/

/-- Whether the credential of a HELLO binds its tenant and domain to the opener. 15_trust.md R354, R355. -/
def credentialOk (s : State) (m : Msg) (x : Hello) : Bool :=
  let f := fun o n => takeBytes x.cred o n
  let signed := Config.shake256 (helloSigned x.tenant m.pd m.endpoint (endpointOf s m.hub) m.arg0 x.isn x.vers) 64
  let kind := fld true x.cred 1 1
  if fld true x.cred 0 1 % 16 ≠ 1 ∨ pdTenant s m.pd ≠ some x.tenant then false
  else if x.tenant ≠ 0 then
    match aget (trustCfg s).tenantKeys (x.tenant, fld true x.cred 2 1) with
    | some key => decide (kind = 1) && decide (x.credLen = 122) && Config.ed448Verify key ctxHello signed (f 8 114)
    | none => false
  else
    let alias_ := f 8 57
    let dev := f 65 57
    decide (kind = 2) && decide (x.credLen = 350) && Config.endorsed dev alias_ (f 122 114) &&
      Config.ed448Verify alias_ ctxDevice signed (f 236 114) &&
      (trustCfg s).members.contains (takeBytes (Config.shake256 dev 64) 0 16)

/-- Sends a HELLO response, with the connection it opened or without one; a repeated HELLO has the same answer as before.
10_fabric.md R233, R234. -/
def answerHello (s : State) (m : Msg) (id : Nat) (st : Status) (hint : Nat) : State :=
  let s := if st = .ok then s else bump s .fab_HELLO_REFUSED m.hub
  let c := (connOf s id).getD { newConn s m.hub m.arg0 m.endpoint 0 m.pd 0 m.respAddr with version := m.slotSeq % 2 }
  let pay := if st = .ok then c.helloAns else helloPayload s m.hub st.code c.isn c.tenant c.ownCredit 0
  let f := { frameOf c .hello flResp m.replyTo 0 (if st = .busy then max 8 hint else hint) pay with
    seq := c.isn, flags := if st = .ok then flResp ||| flAckValid else flResp }
  toEgress s c.hub id c.peerAddr f

/-- The connection a HELLO opens. 10_fabric.md R234, R240. -/
def acceptedConn (s : State) (m : Msg) (x : Hello) (isn : Nat) : Conn :=
  let c := newConn s m.hub m.arg0 m.endpoint x.tenant m.pd isn m.respAddr
  let credit := creditGrant s m.hub (polEndpoint m.endpoint)
  { c with state := .open_, opener := false, version := if bit1 x.vers 1 then 1 else 0, segCode := min c.segCode (min 7 x.segCode),
           peerIsn := x.isn, rcvNext := x.isn, peerCredit := x.credit, ownCredit := credit, edge := sAdd x.isn credit,
           helloAns := helloPayload s m.hub Status.ok.code isn x.tenant credit 0 }

/-- A record of the same connection that a HELLO supersedes: it becomes FAILED and its row goes. 10_fabric.md R234. -/
def supersede (s : State) (old : Option (Nat × Conn)) : State :=
  match old with
  | none => s
  | some (id, c) =>
    let s := if c.state = .failed then s else connFail s id
    delete s c.hub clsConn (connKey c) 0

/-- A HELLO from an opener. 10_fabric.md R234, 16_lifecycle.md R394, 18_package.md R433. -/
def openHello (s : State) (m : Msg) (x : Hello) : State :=
  if ! bit1 (versions s m.hub) m.slotSeq ∨ x.ver ≠ 1 ∨ (x.vers % 4) &&& versions s m.hub = 0 then answerHello s m 0 .version 0
  else
  match seekConn (endpointOf s m.hub) m.arg0 m.endpoint (connHubs s m.hub (endpointOf s m.hub)) s false with
  | (s, .error _) => answerHello s m 0 .busy 0
  | (s, .ok old) =>
  let same := old.filter fun p => decide (p.2.peerIsn = x.isn) && ! p.2.opener &&
    (p.2.state == .open_ || p.2.state == .closing)
  match same with
  | some (id, _) => answerHello s m id .ok 0
  | none =>
    if draining s ∨ (hubSt s m.hub).st = 1 then answerHello s m 0 .busy 15
    else if ! credentialOk s m x then answerHello (bump s .lov_CRED_FAILS m.hub) m 0 .notFound 0
    else
      let s := supersede s old
      let (isn, s) := fresh s
      match enterConn s (acceptedConn s m x (isn % 2 ^ 32)) with
      | (s, none) => answerHello s m 0 .busy 0
      | (s, some id) => answerHello s m id .ok 0

/-- Requests that a connection of version 0 may not carry end without a response. 10_fabric.md R235. -/
def dropForeign (s : State) (id : Nat) : State :=
  match connOf s id with
  | none => s
  | some c =>
    let bad := c.asked.filter fun a => ! carries c a.op
    bad.foldl askFailed (modConn s id fun c => { c with asked := c.asked.filter fun a => carries c a.op })

/-- The response to a HELLO of the node's own: the highest version both support. 10_fabric.md R235, R236. -/
def helloAnswered (s : State) (m : Msg) (x : Hello) : State :=
  match seekConn (endpointOf s m.hub) m.arg0 m.endpoint (connHubs s m.hub (endpointOf s m.hub)) s false with
  | (s, .error _) => s
  | (s, .ok none) => s
  | (s, .ok (some (id, c))) =>
    if c.state ≠ .opening then s
    else if x.status ≠ Status.ok.code ∨ (x.vers % 4) &&& versions s c.hub = 0 then openFailed s id
    else
      let s := modConn s id fun c => { c with
        state := .open_, version := if bit1 x.vers 1 then 1 else 0, segCode := min c.segCode (min 7 x.segCode), peerIsn := x.isn,
        rcvNext := x.isn, edge := sAdd x.isn c.ownCredit, peerCredit := x.credit, timeouts := 0,
        rto := rget s .fab_rto_init c.hub 0, lastRx := now s c.hub }
      sendWaiting (dropForeign (sendAck s id) id) id

/-- A HELLO or its response arrives. 10_fabric.md R233 to R237. -/
def execHello (msg : Nat) (s : State) : Next :=
  match wireMsg s msg .hello with
  | none => .next s
  | some m =>
    let s := setMsgs s (adel s.msgs msg)
    let x := Hello.parse m.payload
    .next (if m.resp then helloAnswered s m x else openHello s m x)

/-- A HEARTBEAT arrives: the census takes its tag, the peer's local time is logged, an ACK answers. 10_fabric.md R238, R241,
16_lifecycle.md R377. -/
def execHeartbeat (msg : Nat) (s : State) : Next :=
  match wireMsg s msg .heartbeat with
  | none => .next s
  | some m =>
    let s := if m.v0 then s else noteTag s m.hub m.tag m.endpoint
    let s := modConn s (msgConn m) fun c => { c with peerTime := some (fld true m.payload 8 8) }
    .next (sendAck (setMsgs s (adel s.msgs msg)) (msgConn m))

/-! ## Spilled records (R244, R246) -/

/-- Reads a record's 256 bytes of an arena's copy in extent 62 of a slice, where the slice is available. 10_fabric.md R244,
08_memory.md R181. -/
def arenaCopy (s : State) (k i : Nat) : State × Bool :=
  if ! sliceServes s k then (s, false)
  else
    let r := view s (dieBase k + placeBase s 4 k 0 + 256 * i) 256 readUnit
    (r.1, r.2.isSome)

/-- Reads a record of a hub's arena from the copy in SD(4q+2), else from the one in SD(4q+3). 10_fabric.md R244. -/
def readArena (s : State) (q i : Nat) : State × Bool :=
  match arenaCopy s (4 * q + 2) i with
  | (s, true) => (s, true)
  | (s, false) => arenaCopy s (4 * q + 3) i

/-- A spilled record returns on chip from the first copy whose slice is available, and the frames and segments that waited
for it go on. 10_fabric.md R244, R246. -/
def execConnectionFill (conn : Nat) (s : State) : Next :=
  match connOf s conn with
  | none => .next s
  | some c =>
    if c.onChip then .next s
    else
      match readArena s c.hub c.slot, makeRoom (readArena s c.hub c.slot).1 c.hub with
      | (s, false), _ => .next s
      | (s, true), none => .next s
      | (_, true), some s =>
        let s := modConn s conn fun x => { x with onChip := true }
        let s := bump (replace s c.hub (connRow { c with onChip := true })) .fab_FILLS c.hub
        let mine := s.fab.fillQ.filter fun p => decide (p.1 = conn)
        let s := modFab s fun x => { x with fillQ := x.fillQ.filter fun p => decide (p.1 ≠ conn) }
        let s := mine.foldl (fun s p =>
          if p.2.opcode = Opcode.hello.code then queueHello s c.hub c.peerAddr p.2 else connFrame s conn p.2) s
        .next (pump s conn)

/-! ## Timers (R236, R238 to R241) -/

/-- Whether a connection carries messages. -/
def Conn.live (c : Conn) : Bool := c.state == .open_ || c.state == .closing

/-- Segments whose acknowledgement a sender waits for. 10_fabric.md R239. -/
def awaited (c : Conn) : List SentSeg := c.ring.filter fun g => g.sent && ! g.queued && ! g.sacked

/-- The oldest segment a sender waits for reaches its rto. 10_fabric.md R236, R239. -/
def execRtoExpiry (conn : Nat) (s : State) : Next :=
  match connOf s conn with
  | none => .next s
  | some c =>
    match (sortBy (fun g => g.sentAt) (awaited c)).head? with
    | none => .next s
    | some g =>
      if ! c.live then .next s
      else
        let s := passTo s c.hub (g.sentAt + c.rto)
        if rget s .fab_retx_limit c.hub 0 ≤ c.timeouts + 1 then .next (flush (connFail s conn))
        else
          let due := (awaited c).filter fun g => decide (g.sentAt + c.rto ≤ now s c.hub)
          let s := modConn s conn fun x => { x with
            timeouts := x.timeouts + 1, rto := min (2 * x.rto) (rget s .fab_rto_max c.hub 0) }
          .next (due.foldl (fun s g => retransmit s conn c g) s)

/-- An opener's HELLO times out. 10_fabric.md R236. -/
def execHelloTimeout (conn : Nat) (s : State) : Next :=
  match connOf s conn with
  | none => .next s
  | some c =>
    if c.state ≠ .opening then .next s
    else
      let s := passTo s c.hub (c.lastRx + c.rto)
      if rget s .fab_retx_limit c.hub 0 ≤ c.timeouts + 1 then .next (openFailed s conn)
      else
        let s := modConn s conn fun x => { x with timeouts := x.timeouts + 1, lastRx := now s x.hub,
                                                  rto := min (2 * x.rto) (rget s .fab_rto_max c.hub 0) }
        .next (sendHello s conn)

/-- Whether credit alone stops a sender. 10_fabric.md R240. -/
def stalled (c : Conn) : Bool :=
  c.live && c.ring.any fun g => ! g.queued && ! g.sacked && ! inCredit c g.seq

/-- A sender stopped by credit sends a HEARTBEAT. 10_fabric.md R240. -/
def execCreditStallHeartbeat (conn : Nat) (s : State) : Next :=
  match connOf s conn with
  | none => .next s
  | some c =>
    if ! stalled c then .next s
    else
      let s := passTo s c.hub (c.hbAt + c.rto)
      .next (sendHeartbeat (modConn s conn fun x => { x with hbAt := now s x.hub }) conn)

/-- ack_delay has passed since an arrival. 10_fabric.md R238. -/
def execAckDelayExpiry (conn : Nat) (s : State) : Next :=
  match connOf s conn with
  | none => .next s
  | some c =>
    match c.ackDue with
    | none => .next s
    | some t => .next (sendAck (passTo s c.hub (t + rget s .fab_ack_delay c.hub 0)) conn)

/-- Nothing has been received for keepalive. 10_fabric.md R241. -/
def execKeepaliveExpiry (conn : Nat) (s : State) : Next :=
  match connOf s conn with
  | none => .next s
  | some c =>
    if ! c.live then .next s
    else .next (sendHeartbeat (passTo s c.hub (c.lastRx + 1000000 * rget s .fab_keepalive_ms c.hub 0)) conn)

/-- Whether a sequenced message is unacknowledged or a request is without a response. 10_fabric.md R236. -/
def outstanding (s : State) (id : Nat) (c : Conn) : Bool :=
  ! c.ring.isEmpty || ! c.asked.isEmpty || s.msgs.any fun p => match p.2.origin with
    | .conn _ i _ => decide (i = id) && ! p.2.resp && ! unsequenced p.2.opcode
    | _ => false

/-- Nothing has arrived for dead_time. 10_fabric.md R236, R241. -/
def execDeadTimeExpiry (conn : Nat) (s : State) : Next :=
  match connOf s conn with
  | none => .next s
  | some c =>
    if ! c.live then .next s
    else
      let s := passTo s c.hub (c.lastRx + 1000000 * rget s .fab_dead_time_ms c.hub 0)
      if c.state = .closing ∧ ! outstanding s conn c then .next (dropConn s conn) else .next (flush (connFail s conn))

/-- quiet_time passes for a FAILED connection. 10_fabric.md R236. -/
def execQuietTimeExpiry (conn : Nat) (s : State) : Next :=
  match connOf s conn with
  | none => .next s
  | some c =>
    if c.state ≠ .failed then .next s
    else .next (dropConn (passTo s c.hub (c.lastRx + 1000000 * rget s .fab_quiet_time_ms c.hub 0)) conn)

end Sys2Proof.Machine
end

