-- ==== Sys2Proof/Machine/Keys.lean ====
section
/-!
DEFINITION. Sub-port links and the link key exchange. 10_fabric.md R218, R222 to R224; 15_trust.md R356 to R359.
-/
namespace Sys2Proof.Machine

/-! ## Frames of the exchange (15_trust.md R356) -/

/-- A key-exchange frame's fields. 15_trust.md R356. -/
structure KxFrame where
  ver    : Nat
  msg    : Nat
  an     : Nat
  xid    : Nat
  pub    : List Byte
  tail   : List Byte
  deriving DecidableEq, Repr, Inhabited

/-- Parses a key-exchange frame. -/
def KxFrame.parse (b : List Byte) : KxFrame :=
  { ver := fld true b 0 1 % 16, msg := fld true b 0 1 / 16, an := fld true b 1 1 % 4, xid := fld true b 4 4,
    pub := takeBytes b 40 56, tail := takeBytes b 98 (fld true b 96 2) }

/-- The head of a key-exchange frame up to its nonce. -/
def kxHead (msg an xid : Nat) : List Byte := beBytes 1 (1 + 16 * msg) ++ beBytes 1 (an % 4) ++ beBytes 2 0 ++ beBytes 4 xid

/-- The chain of R346: the alias, DeviceID and manufacturing certificates, each after its 16-bit length. 15_trust.md
R346. -/
def certChain (s : State) (h : Nat) : List Byte :=
  [(lovOf s h).aliasCert, Config.certificate 1, Config.certificate 2].flatMap fun c => beBytes 2 c.length ++ c

/-- A KX1. 15_trust.md R356. -/
def kx1Bytes (s : State) (h an xid : Nat) (nonce priv : List Byte) : List Byte :=
  let chain := certChain s h
  kxHead 1 an xid ++ takeBytes nonce 0 32 ++ takeBytes (Config.x448Public priv) 0 56 ++ beBytes 2 chain.length ++ chain

/-- A KX2 or KX3: nonce and public key zero. 15_trust.md R356. -/
def kxTail (msg an xid : Nat) (sig : List Byte) : List Byte := kxHead msg an xid ++ zeros 88 ++ beBytes 2 sig.length ++ sig

/-! ## The exchange (15_trust.md R357, R358) -/

/-- Changes the key exchange of a sub-port. -/
def modKx (s : State) (h u : Nat) (f : Kx → Kx) : State := modSub s h u fun p => { p with kx := f p.kx }

/-- Association number the next exchange installs: it alternates. 10_fabric.md R223. -/
def nextAn (p : SubPort) : Nat :=
  match p.tx with
  | some a => 1 - min 1 a.an
  | none => 0

/-- Starts an exchange with a fresh key and sends its KX1. 15_trust.md R357 steps 1 and 2. -/
def startKx (s : State) (h u xid : Nat) : State :=
  let (nonce, s) := freshBytes s 32
  let (priv, s) := freshBytes s 56
  let b := kx1Bytes s h (nextAn (subOf s h u)) (xid % 2 ^ 32) nonce priv
  let s := modKx s h u fun k => { k with xid := xid % 2 ^ 32, running := true, sent := b, peer := [], priv := priv, tries := 0,
                                         kx2Sent := false, kx2Valid := false, at_ := now s h, failed := false }
  emit s (.kx h u b)

/-- An exchange fails. 15_trust.md R358. -/
def failKx (s : State) (h u : Nat) : State :=
  let s := bump s .lov_KX_FAILURES h
  modKx s h u fun k => { k with running := false, priv := [], kx2Sent := false, kx2Valid := false, failed := true, at_ := now s h }

/-- Whether this side has the lower MAC address. -/
def lowerMac (p : SubPort) : Bool := decide (p.mac < p.peerMac)

/-- T: the digest over both KX1 frames, the lower MAC address first. 15_trust.md R357 step 3. -/
def transcriptKx (p : SubPort) : List Byte :=
  Config.shake256 (if lowerMac p then p.kx.sent ++ p.kx.peer else p.kx.peer ++ p.kx.sent) 64

/-- Keys for sending and for receiving, SAK and salt. 15_trust.md R358. -/
def kxKeys (p : SubPort) : List Byte × List Byte :=
  let sec := Config.x448 p.kx.priv (KxFrame.parse p.kx.peer).pub
  let k := takeBytes (Config.shake256 ([0x4D#8, 0x41#8, 0x43#8, 0x53#8, 0x45#8, 0x43#8] ++ sec ++ transcriptKx p) 88) 0 88
  if lowerMac p then (k.take 44, k.drop 44) else (k.drop 44, k.take 44)

/-- The peer check: the chain leads to a link anchor, and the peer list is empty or holds the DeviceID's prefix.
15_trust.md R358. -/
def peerChecked (s : State) (h u : Nat) (k : KxFrame) : Bool :=
  let t := trustCfg s
  let (ok, dev, _) := Config.chainCheck t.anchors k.tail
  let list := agetD t.peers (h, u) []
  ok && (list.isEmpty || list.contains (takeBytes (Config.shake256 dev 64) 0 16))

/-- Both KX1 frames of one exchange are held: the peer is checked and KX2 goes out. 15_trust.md R357 step 3. -/
def sendKx2 (s : State) (h u : Nat) : State :=
  let p := subOf s h u
  if ! peerChecked s h u (KxFrame.parse p.kx.peer) then failKx s h u
  else
    let sig := aliasSign s h ctxKx (transcriptKx p)
    let s := modKx s h u fun k => { k with kx2Sent := true }
    emit s (.kx h u (kxTail 2 (KxFrame.parse p.kx.sent).an p.kx.xid sig))

/-- A KX1 arrives. 15_trust.md R357 steps 2 and 3. -/
def execKx1 (hub : Hub) (sub : Sub) (frame : List Byte) (s : State) : Next :=
  let h := hub.val
  let u := sub.val
  let p := subOf s h u
  let k := KxFrame.parse frame
  if ! hubAlive s h ∨ ! p.link ∨ k.ver ≠ 1 ∨ k.msg ≠ 1 then .next s
  else
    let own := if p.kx.running then p.kx.xid else p.kx.installed
    if own < k.xid then
      let s := startKx s h u k.xid
      .next (sendKx2 (modKx s h u fun x => { x with peer := frame }) h u)
    else if p.kx.running ∧ k.xid = p.kx.xid then
      if p.kx.kx2Sent then .next s else .next (sendKx2 (modKx s h u fun x => { x with peer := frame }) h u)
    else if p.kx.running then .next (emit s (.kx h u p.kx.sent))
    else .next (startKx s h u (p.kx.installed + 1))

/-- A KX2 arrives: on a valid signature the receive association is installed under the number the peer's frame names, and KX3
goes out. 15_trust.md R357 step 4, R358. -/
def execKx2 (hub : Hub) (sub : Sub) (frame : List Byte) (s : State) : Next :=
  let h := hub.val
  let u := sub.val
  let p := subOf s h u
  let k := KxFrame.parse frame
  if ! hubAlive s h ∨ ! p.link ∨ k.ver ≠ 1 ∨ k.msg ≠ 2 ∨ ! p.kx.running ∨ ! p.kx.kx2Sent ∨ p.kx.kx2Valid ∨ k.xid ≠ p.kx.xid then .next s
  else
    let (_, _, alias_) := Config.chainCheck (trustCfg s).anchors (KxFrame.parse p.kx.peer).tail
    if ! Config.ed448Verify alias_ ctxKx (transcriptKx p) k.tail then .next (failKx s h u)
    else
      let an := (KxFrame.parse p.kx.sent).an
      let rx : SecAssoc := { an := k.an, ssci := if lowerMac p then 2 else 1, key := (kxKeys p).2, pn := 1 }
      let s := modSub s h u fun x => { x with rxOld := x.rx, rx := some rx, rxAt := now s h, kx := { x.kx with kx2Valid := true } }
      .next (emit s (.kx h u (kxTail 3 an p.kx.xid [])))

/-- A KX3 arrives: the next frame goes under the new association; the private key is erased, and the
exchange is counted. 15_trust.md R357 step 5, R358, R367. -/
def execKx3 (hub : Hub) (sub : Sub) (frame : List Byte) (s : State) : Next :=
  let h := hub.val
  let u := sub.val
  let p := subOf s h u
  let k := KxFrame.parse frame
  if ! hubAlive s h ∨ ! p.link ∨ k.ver ≠ 1 ∨ k.msg ≠ 3 ∨ ! p.kx.running ∨ ! p.kx.kx2Valid ∨ k.xid ≠ p.kx.xid then .next s
  else
    let tx : SecAssoc := { an := (KxFrame.parse p.kx.sent).an, ssci := if lowerMac p then 1 else 2, key := (kxKeys p).1, pn := 1 }
    .next (bump (modSub s h u fun x => { x with
      tx := some tx, up := true, spent := false, keyAt := now s h,
      kx := { x.kx with installed := p.kx.xid, running := false, priv := [], failed := false } }) .lov_KX_DONE h)

/-! ## Timers of the exchange (15_trust.md R357 to R359) -/

/-- 10 ms pass without the peer's KX2: KX1 goes out again, and at the twentieth such end, 200 ms after the first, the exchange
fails. 15_trust.md R357 step 1, R358. -/
def execKx1Retry (hub : Hub) (sub : Sub) (s : State) : Next :=
  let h := hub.val
  let u := sub.val
  let k := (subOf s h u).kx
  if ! k.running ∨ k.kx2Valid then .next s
  else
    let s := passTo s h (k.at_ + 10000000)
    if 19 ≤ k.tries then .next (failKx s h u)
    else .next (emit (modKx s h u fun x => { x with tries := x.tries + 1, at_ := now s h }) (.kx h u k.sent))

/-- 1 s after a failed exchange, it starts again. 15_trust.md R358, R359. -/
def execKxRestart (hub : Hub) (sub : Sub) (s : State) : Next :=
  let h := hub.val
  let u := sub.val
  let p := subOf s h u
  if ! p.link ∨ p.kx.running ∨ ! p.kx.failed then .next s
  else .next (startKx (passTo s h (p.kx.at_ + 1000000000)) h u (p.kx.installed + 1))

/-- A rekey is due. 15_trust.md R359. -/
def execRekeyIntervalExpiry (hub : Hub) (sub : Sub) (s : State) : Next :=
  let h := hub.val
  let u := sub.val
  let p := subOf s h u
  match p.tx with
  | none => .next s
  | some a =>
    if p.kx.running ∨ ! p.link then .next s
    else
      let s := if 2 ^ 48 ≤ a.pn then s else passTo s h (p.keyAt + 1000000000 * rget s .lov_rekey_interval_s h 0)
      .next (startKx s h u (p.kx.installed + 1))

/-- 10 ms after a rekey the previous key no longer receives. 10_fabric.md R224. -/
def execOldKeyExpiry (hub : Hub) (sub : Sub) (s : State) : Next :=
  let h := hub.val
  let u := sub.val
  let p := subOf s h u
  match p.rxOld with
  | none => .next s
  | some _ => .next (modSub (passTo s h (p.rxAt + 10000000)) h u fun x => { x with rxOld := none })

/-! ## Links (10_fabric.md R218, R219, R222) -/

/-- Sub-ports of a port by its mode. 10_fabric.md R218. -/
def subCount (s : State) (h : Nat) : Nat :=
  match rget s .fab_port_mode h 0 with
  | 0 => 1
  | 1 => 2
  | _ => 4

/-- A sub-port's link comes up and its key exchange starts. 10_fabric.md R219, R224, 15_trust.md R357; in RECOVERY the ports
stay down (16_lifecycle.md R378). -/
def execSubportLinkUp (hub : Hub) (sub : Sub) (peerMac : Nat) (s : State) : Next :=
  let h := hub.val
  let u := sub.val
  if ! hubAlive s h ∨ s.life.node = 1 ∨ subCount s h ≤ u ∨ (subOf s h u).link then .next s
  else
    let s := modSub s h u fun p => { p with link := true, spent := false, mac := Config.portMac (body s clsPorts) h u, peerMac := peerMac }
    .next (startKx s h u ((subOf s h u).kx.installed + 1))

/-- A sub-port's link drops: its keys go, its connections leave by the sub-ports that remain. 10_fabric.md R219, R222. -/
def execSubportLinkDown (hub : Hub) (sub : Sub) (s : State) : Next :=
  let h := hub.val
  let u := sub.val
  if ! (subOf s h u).link then .next s
  else
    .next (modSub s h u fun p => { p with
      link := false, up := false, tx := none, rx := none, rxOld := none,
      kx := { p.kx with running := false, priv := [], sent := [], peer := [], kx2Sent := false, kx2Valid := false, failed := false } })

end Sys2Proof.Machine
end

