-- ==== Sys2Proof/Machine/Dill.lean ====
section
/-!
DEFINITION. The Dill sequencers: command slots, the lane engine and its instructions, the pool engine, refresh against
segments and throttling at yields. 07_dill.md R142 to R165, R171; 08_memory.md R187, R189, R190.

An instruction's command is the lane engine's next one: it acts on the command whose segment runs. The engine takes a
command whenever none holds it back, so an instruction that finds no segment running waits.
-/
namespace Sys2Proof.Machine

/-! ## Windows (R145) -/

/-- Extents of a slice that a tenant's commands may read: those assigned to it, one that is being withdrawn until its drain
ends, and those that hold such an extent of a retired slice. R145, 12_ledger.md R283, 16_lifecycle.md R390. -/
def windowExtents (s : State) (k tenant : Nat) : List Nat :=
  let mine := fun (j e : Nat) =>
    let x := extentSt s j e
    decide (x.tenant = tenant) &&
      (decide (x.state = .assigned) || (decide (x.state = .closing) && decide (now s (homeHub s j) < x.drainEnd)))
  ((List.range (extentCount s - 2)).filter fun e => mine k e && ! hostsExtent s k e && (sliceSt s k).subst.isNone) ++
    s.life.slices.flatMap fun p =>
      if p.2.subst = some k then (p.2.moved.filter fun x => mine p.1 x.1).map (·.2) else []

/-- Die-local ranges of slice SRAM that hold pages of a tenant; the prefetch buffer's place in the reserve is a constant of
Config. R145, 06_append.md R133. -/
def tenantSram (s : State) (k tenant : Nat) : List (Nat × Nat) :=
  (s.mem.sram.filterMap fun p =>
    if p.use.die = k ∧ p.use.tenant = tenant ∧ (p.kind = .tail ∨ p.kind = .deltaCache ∨ p.kind = .sealBuf) then
      some (sramOff + p.use.unit * 4096, p.use.count * 4096)
    else none) ++
  (s.mem.promo.filterMap fun (lpn, p) =>
    match aget s.mem.slots lpn with
    | some u => if lpnSlice lpn = k ∧ u.tenant = tenant then some (p.base % 2 ^ 42, u.units * 4096) else none
    | none => none) ++
  s.mem.prefetch.filterMap fun (j, lpn, _) =>
    match aget s.mem.slots lpn with
    | some u => if j = k ∧ u.tenant = tenant then some (sramOff + Config.placeOf 6 lpn * 16 % 0x800000, sketchSize (liveHdr s lpn).geom) else none
    | none => none

/-- Die-local ranges a command may read or write. R145. -/
def spans (s : State) (k : Nat) (c : CmdSlot) (write : Bool) : List (Nat × Nat) :=
  c.windows.flatMap fun w =>
    if w.kind = 1 then (if (if write then w.write else w.read) then [(w.base, w.len)] else [])
    else if write ∨ ! w.read then []
    else if w.kind = 2 then (windowExtents s k c.tenant).map fun e => (2 ^ 30 * e, 2 ^ 30)
    else if w.kind = 3 then tenantSram s k c.tenant
    else []

/-- Whether ranges cover all addresses from one to another. -/
def spanCover : Nat → List (Nat × Nat) → Nat → Nat → Bool
  | 0, _, a, e => decide (e ≤ a)
  | n + 1, l, a, e =>
    if e ≤ a then true
    else
      match l.find? fun r => decide (r.1 ≤ a) && decide (a < r.1 + r.2) with
      | none => false
      | some r => spanCover n l (r.1 + r.2) e

/-- Whether an access lies in windows that permit it, where memory exists. R145, 08_memory.md R197. -/
def permitted (s : State) (k : Nat) (c : CmdSlot) (write : Bool) (a n : Nat) : Bool :=
  let l := spans s k c write
  spanCover (l.length + 1) l a (a + n) && rangeExists s k a n && ! (write && decide (0x20000000000 ≤ a))

/-- What an access does besides: it brings pseudo-channels out of self-refresh (08_memory.md R187) and banks out of
RETAIN (R192). -/
def rouse (s : State) (k a n : Nat) : State := touchBanks s (dieBase k + a) n

/-! ## The scheduler (R146, R147, R159 to R161) -/

/-- The running command leaves the lane engine in a state of R146, with a status and a fault. -/
def endCommand (s : State) (k i : Nat) (st : CmdState) (status : Status) (code pc : Nat) : State :=
  let s := endSegment s k i
  let s := modCmd s k i fun c => { c with state := st, status := status.code, faultCode := code, faultPc := pc }
  let s := modEng s k fun d => { d with cur := none, pc := 0, loops := [], lanes := [] }
  schedule s k

/-- Status of a fault code. R156. -/
def faultStatus (code : Nat) : Status :=
  if code = 4 then .uncorrectable else if code = 5 then .damaged else if code = 7 then .busy else .bounds

/-- A fault of the running command. R156. -/
def laneFault (s : State) (k i code : Nat) : State :=
  endCommand (bump s .dill_FAULTS k) k i .fault (faultStatus code) code (dillOf s k).pc

/-- An instruction acts on the command whose segment runs; without one it waits. -/
def onLane (k : Nat) (s : State) (f : State → Nat → State) : Next :=
  let s := schedule s k
  match (dillOf s k).cur with
  | some i => if (dillOf s k).segment then .next (f s i) else .next s
  | none => .next s

/-- What an instruction does in one lane: the node, the lane, and a fault code. -/
abbrev LaneRes := State × Lane × Option Nat

/-- An operation in every active lane, in ascending order, up to the first fault. R142, R154. -/
def eachLane (s : State) (k i : Nat) (op : State → CmdSlot → Lane → LaneRes) : State × Option Nat :=
  (List.range 16).foldl (fun (r : State × Option Nat) n =>
    let l := agetD (dillOf r.1 k).lanes n lane0
    if r.2.isSome ∨ ! l.active then r
    else
      let x := op r.1 (cmdOf (dillOf r.1 k) i) l
      (modEng x.1 k fun d => { d with lanes := aset d.lanes n x.2.1 }, x.2.2)) (s, none)

/-- An instruction of every active lane, after which the next one follows. -/
def laneOp (k : Nat) (s : State) (op : State → CmdSlot → Lane → LaneRes) : Next :=
  onLane k s fun s i =>
    match eachLane s k i op with
    | (s, some code) => laneFault s k i code
    | (s, none) => modEng s k fun d => { d with pc := d.pc + 1 }

/-! ## Lane state -/

/-- Reads a scalar register; s0 reads zero. R143. -/
def Lane.sget (l : Lane) (n : Nat) : BitVec 32 := if n = 0 then 0#32 else agetD l.s n 0#32

/-- Writes a scalar register; s0 ignores writes, and a result beyond s31 has no register (assumption 34). R143. -/
def Lane.sset (l : Lane) (n : Nat) (v : BitVec 32) : Lane :=
  if n = 0 ∨ 32 ≤ n then l else { l with s := aset l.s n v }

/-- Reads an address register. R143. -/
def Lane.aget (l : Lane) (n : Nat) : BitVec 48 := agetD l.a (n % 8) 0#48

/-- Writes an address register. R143. -/
def Lane.aset (l : Lane) (n : Nat) (v : BitVec 48) : Lane := { l with a := Sys2Proof.aset l.a (n % 8) v }

/-- Size of a buffer. R143, R152. -/
def bufSize (b : Nat) : Nat := [65536, 65536, 9216, 8192, 16768].getD b 0

/-- Reads bytes of a page buffer; none where no load has written since the last YIELD. R159. -/
def Lane.pbGet (l : Lane) (b off n : Nat) : Option (List Byte) :=
  (List.range n).mapM fun i => Sys2Proof.aget l.pb (b, off + i)

/-- Reads bytes of a buffer. -/
def Lane.bufGet (l : Lane) (b off n : Nat) : Option (List Byte) :=
  if b < 2 then l.pbGet b off n
  else some (readCells (if b = 2 then l.qb else if b = 3 then l.zb else l.ob) off n)

/-- Writes bytes of a buffer. -/
def Lane.bufPut (l : Lane) (b off : Nat) (bs : List Byte) : Lane :=
  if b < 2 then
    let keep := l.pb.filter fun p => ! (decide (p.1.1 = b) && decide (off ≤ p.1.2) && decide (p.1.2 < off + bs.length))
    { l with pb := keep ++ (bs.zipIdx).map fun (x, i) => ((b, off + i), x) }
  else if b = 2 then { l with qb := writeCells l.qb off bs }
  else if b = 3 then { l with zb := writeCells l.zb off bs }
  else { l with ob := writeCells l.ob off bs }

/-- CRC-32C of what was accumulated followed by more bytes. R155, 02_pages.md R33. -/
def crcMore (c : BitVec 32) (bs : List Byte) : BitVec 32 :=
  BitVec.ofNat 32 (crcRun (c.toNat ^^^ 0xFFFFFFFF) bs ^^^ 0xFFFFFFFF)

/-- An outstanding load completes. R155. -/
def finishLoad (s : State) (k : Nat) (l : Lane) (x : Load) : LaneRes :=
  let l := { l with loads := l.loads.erase x }
  match view (rouse s k x.addr x.len) (dieBase k + x.addr) x.len readLane with
  | (s, none) => (s, l, some 4)
  | (s, some b) =>
    let l := l.bufPut x.buf x.off b
    (s, if x.crc then { l with crc := crcMore l.crc b } else l, none)

/-- Waits for the loads that a test names, in the order of their issue. R155. -/
def waitLoads (s : State) (k : Nat) (l : Lane) (p : Load → Bool) : LaneRes :=
  (l.loads.filter p).foldl (fun (r : LaneRes) x => if r.2.2.isSome then r else finishLoad r.1 k r.2.1 x) (s, l, none)

/-- Whether a load has a buffer range or a memory range in use. R155. -/
def loadUses (b off n a m : Nat) (x : Load) : Bool :=
  (decide (x.buf = b) && overlap x.off x.len off n) || overlap x.addr x.len a m

/-- Waits, then goes on unless a load faulted. -/
def afterLoads (k : Nat) (p : Load → Bool) (op : State → CmdSlot → Lane → LaneRes) (s : State) (c : CmdSlot) (l : Lane) :
    LaneRes :=
  match waitLoads s k l p with
  | (s, l, some e) => (s, l, some e)
  | (s, l, none) => op s c l

/-- Address of a format M instruction: areg plus the signed displacement in 16-byte units. R152. -/
def mAddr (l : Lane) (f : FmtM) : Nat := (l.aget f.areg.val + BitVec.ofInt 48 (f.disp16.toInt * 16)).toNat

/-! ## Command slots (R144, R146) -/

/-- An issuer fills a FREE slot; one that finds none holds its request. R144, R146. -/
def execCommandSlotIssue (slice : Slice) (slot : Slot64) (c : SlotFill) (s : State) : Next :=
  let k := slice.val
  let d := dillOf s k
  if (cmdOf d slot.val).state ≠ .free then .next s
  else
    let x : CmdSlot :=
      { kind := b2n c.pool, program := c.program, cls := c.cls, state := .queued, tenant := c.tenant,
        laneMask := c.laneMask, tag := c.tag, status := 0, faultCode := 0, faultPc := 0, segments := 0,
        windows := c.windows, params := (c.params.zipIdx).map fun (v, i) => (i, v), results := [],
        since := d.clock + 1 }
    .next (schedule (fillSlot s k slot.val x) k)

/-- A command that is QUEUED or YIELDED ends with BUSY and ABORTED. R146. -/
def abortCmd (s : State) (k i : Nat) : State :=
  let st := (cmdOf (dillOf s k) i).state
  if st = .queued ∨ st = .yielded then
    let s := modEng s k fun d => { d with saved := adel d.saved i }
    modCmd s k i fun c => { c with state := .fault, status := Status.busy.code, faultCode := 7 }
  else s

/-- Aborts every waiting command of a slice that retires or is re-homed; the dispatcher's own are read at once, and their
scans give no records. R146. -/
def abortCmds (s : State) (k : Nat) : State :=
  let s := ((dillOf s k).slots.map (·.1)).foldl (fun s i => abortCmd s k i) s
  let mine := fun (p : HeldScan) => decide (p.die = k) && p.slot.isSome
  let s := (s.merge.held.filter mine).foldl (fun s p => modCmd s k (p.slot.getD 0) fun _ => freeCmd) s
  modMerge s fun y => { y with held := y.held.filter fun p => ! mine p }

/-- An issuer cancels a QUEUED or YIELDED command. R146. -/
def execCommandCancel (slice : Slice) (slot : Slot64) (s : State) : Next := .next (abortCmd s slice.val slot.val)

/-- The issuer has read the result of a DONE or FAULT slot. R146. -/
def execCommandSlotRelease (slice : Slice) (slot : Slot64) (s : State) : Next :=
  let st := (cmdOf (dillOf s slice.val) slot.val).state
  if st = .done ∨ st = .fault then .next (schedule (modCmd s slice.val slot.val fun _ => freeCmd) slice.val) else .next s

/-! ## Bank vector loads (R153, R155) -/

/-- VLD: the load is issued and completes in the background. R153, R155. -/
def execVld (slice : Slice) (f : FmtM) (s : State) : Next :=
  let k := slice.val
  laneOp k s fun s c l =>
    let a := mAddr l f
    let n := f.len16 * 16
    let off := f.boff16 * 16
    if a % 16 ≠ 0 ∨ bufSize f.buf < off + n then (s, l, some 6)
    else if ! permitted s k c false a n then (s, l, some 1)
    else
      afterLoads k (loadUses f.buf off n a n) (fun s _ l =>
        let x : Load := ⟨f.buf, off, n, a, f.crc⟩
        (s, { l with loads := l.loads ++ [x] }, none)) s c l

/-- The oldest outstanding load of a lane completes. R155. -/
def execVldComplete (slice : Slice) (lane : Sys2Proof.Lane) (s : State) : Next :=
  let k := slice.val
  let l := agetD (dillOf s k).lanes lane.val lane0
  match (dillOf s k).cur, l.loads with
  | some i, x :: _ =>
    let r := finishLoad s k l x
    let s := modEng r.1 k fun d => { d with lanes := aset d.lanes lane.val r.2.1 }
    match r.2.2 with
    | some code => .next (laneFault s k i code)
    | none => .next s
  | _, _ => .next s

/-- Stores bytes at a sub-slice address for a lane, into the crc where asked; a word that cannot be corrected and is written
only in part faults it. R152, R156, R167. -/
def laneStore (k a : Nat) (b : List Byte) (crc : Bool) (s : State) (l : Lane) : LaneRes :=
  match putView (b.length / 16 + 2) (rouse s k a b.length) (dieBase k + a) b readLane with
  | (s, _, ok) => (s, if crc ∧ ok then { l with crc := crcMore l.crc b } else l, if ok then none else some 4)

/-- VST: whole words go to memory with fresh check bits. R153. -/
def execVst (slice : Slice) (f : FmtM) (s : State) : Next :=
  let k := slice.val
  laneOp k s fun s c l =>
    let a := mAddr l f
    let n := f.len16 * 16
    let off := f.boff16 * 16
    if a % 16 ≠ 0 ∨ bufSize f.buf < off + n then (s, l, some 6)
    else if ! permitted s k c true a n then (s, l, some 1)
    else
      afterLoads k (loadUses f.buf off n a n) (fun s _ l =>
        match l.bufGet f.buf off n with
        | none => (s, l, some 3)
        | some b => laneStore k a b f.crc s l) s c l

/-- SLD: a 32-bit word of memory or of parameter space. R153. -/
def execSld (slice : Slice) (f : FmtS) (s : State) : Next :=
  let k := slice.val
  laneOp k s fun s c l =>
    if f.func = 1 then
      if 32 ≤ f.imm32.toNat then (s, l, some 1)
      else (s, l.sset f.sd.val (agetD c.params f.imm32.toNat 0#32), none)
    else
      let a := (l.aget f.sa.val + f.imm32.setWidth 48).toNat
      if a % 16 ≠ 0 then (s, l, some 6)
      else if ! permitted s k c false a 4 then (s, l, some 1)
      else
        match view (rouse s k a 4) (dieBase k + a) 4 readLane with
        | (s, none) => (s, l, some 4)
        | (s, some b) => (s, l.sset f.sd.val (BitVec.ofNat 32 (leNat b)), none)

/-- SST to memory in one lane: a word at a sub-slice address, once the lane's loads over it have completed. -/
def sstMem (k a v : Nat) (s : State) (c : CmdSlot) (l : Lane) : LaneRes :=
  if a % 16 ≠ 0 then (s, l, some 6)
  else if ! permitted s k c true a 4 then (s, l, some 1)
  else
    match afterLoads k (fun x => overlap x.addr x.len a 16) (fun s _ l => (s, l, none)) s c l with
    | (s, l, some e) => (s, l, some e)
    | (s, l, none) => laneStore k a (leBytes 4 v) false s l

/-- SST in one lane: the command's result word, or memory at the sub-slice's address. -/
def sstOp (k i : Nat) (f : FmtS) (s : State) (c : CmdSlot) (l : Lane) : LaneRes :=
  if f.func = 1 then
    if 8 ≤ f.imm32.toNat then (s, l, some 1)
    else (modCmd s k i fun c => { c with results := aset c.results f.imm32.toNat (l.sget f.sb.val) }, l, none)
  else sstMem k (l.aget f.sa.val + f.imm32.setWidth 48).toNat (l.sget f.sb.val).toNat s c l

/-- SST: a 32-bit word to memory or to result space. R153, R167. -/
def execSst (slice : Slice) (f : FmtS) (s : State) : Next :=
  onLane slice.val s fun s i =>
    match eachLane s slice.val i (sstOp slice.val i f) with
    | (s, some code) => laneFault s slice.val i code
    | (s, none) => modEng s slice.val fun d => { d with pc := d.pc + 1 }

/-- WAITL: every outstanding load of the lane completes. R153. -/
def execWaitl (slice : Slice) (_f : FmtS) (s : State) : Next :=
  laneOp slice.val s fun s _ l => waitLoads s slice.val l fun _ => true

/-- CFG: the geometry. R153. -/
def execCfg (slice : Slice) (f : FmtS) (s : State) : Next :=
  laneOp slice.val s fun s _ l => (s, { l with geom := f.imm32 }, none)

/-! ## Dequantize-dot, bound and exp-accumulate (R153) -/

/-- The geometry in force, within the buffers' 16 heads of 256. R143, assumption 28. -/
def Lane.geo (l : Lane) : Geom :=
  let g := Config.geometry l.geom
  { g with g := min g.g 16, d := min g.d 256 }

/-- FP32 values of bytes. -/
def words32 : List Byte → List F32
  | a :: b :: c :: d :: r => BitVec.ofNat 32 (leNat [a, b, c, d]) :: words32 r
  | _ => []

/-- Head h's quantized query in QB: 256 elements, then 8 block scales (assumption 35). R143. -/
def Lane.query (l : Lane) (g : Geom) (slope : F32) (h : Nat) : Qh :=
  ⟨elems8 (readCells l.qb (288 * h) g.d), words32 (readCells l.qb (288 * h + 256) (g.d / 32 * 4)), slope⟩

/-- Head h's folded query and folded block scales in QB. R143. -/
def Lane.folded (l : Lane) (g : Geom) (h : Nat) : List Int × List F32 :=
  (elems8 (readCells l.qb (4608 + 288 * h) g.d), words32 (readCells l.qb (4608 + 288 * h + 256) (g.d / 32 * 4)))

/-- The ZB entry of a head and token column (assumption 35). R143. -/
def Lane.zget (l : Lane) (h c : Nat) : F32 := BitVec.ofNat 32 (leNat (readCells l.zb (512 * h + 4 * c) 4))

/-- Writes a ZB entry. -/
def Lane.zset (l : Lane) (h c : Nat) (v : F32) : Lane :=
  { l with zb := writeCells l.zb (512 * h + 4 * c) (leBytes 4 v.toNat) }

/-- Record r of OB: records follow each other in R91's form (assumption 35). R143. -/
def Lane.oget (l : Lane) (g : Geom) (r : Nat) : Rec :=
  parseRec false g.d (readCells l.ob (recSize true g.d * r) (recSize true g.d))

/-- Writes record r of OB. -/
def Lane.oset (l : Lane) (g : Geom) (r : Nat) (x : Rec) : Lane :=
  { l with ob := writeCells l.ob (recSize true g.d * r) (recBytes false true x) }

/-- A value replaced under R81 sets the saturated flag of head h's running record, OB record h (assumption 35). -/
def Lane.osat (l : Lane) (g : Geom) (h : Nat) (fl : Bool) : Lane :=
  if fl then l.oset g h { l.oget g h with saturated := true } else l

/-- A format L instruction reads two ranges of a page buffer: their bytes, with the checks of R156. -/
def withOperands (k : Nat) (f : FmtL) (src aux : Nat) (op : Lane → List Byte → List Byte → Lane) (s : State) (c : CmdSlot)
    (l : Lane) : LaneRes :=
  let b := b2n f.pbsel
  let o := f.src16 * 16
  let x := f.aux16 * 16
  if bufSize b < o + src ∨ bufSize b < x + aux ∨ 128 < f.row + f.count then (s, l, some 6)
  else
    afterLoads k (fun y => (decide (y.buf = b) && (overlap y.off y.len o src || overlap y.off y.len x aux)) ||
      decide (2 ≤ y.buf)) (fun s _ l =>
        match l.bufGet b o src, l.bufGet b x aux with
        | some p, some q => (s, op l p q, none)
        | _, _ => (s, l, some 3)) s c l

/-- Applies an operation to heads and columns, in ascending head, then column. -/
def Lane.cells (l : Lane) (g : Geom) (n : Nat) (f : Lane → Nat → Nat → Lane) : Lane :=
  (List.range g.g).foldl (fun l h => (List.range n).foldl (fun l t => f l h t) l) l

/-- Dot products of count tokens into ZB: bytes of a token's row and scales, and the dot of a head. R79. -/
def dotOp (k : Nat) (f : FmtL) (row scl : Geom → Nat) (dot : Lane → Geom → Nat → List Byte → List Byte → Fl) (s : State)
    (c : CmdSlot) (l : Lane) : LaneRes :=
  let g := l.geo
  withOperands k f (f.count * row g) (f.count * scl g) (fun l p q =>
    l.cells g f.count fun l h t =>
      let d := dot l g h ((p.drop (t * row g)).take (row g)) ((q.drop (t * scl g)).take (scl g))
      (l.zset h (f.row + t) d.1).osat g h d.2) s c l

/-- DQDOT8. R79. -/
def execDqdot8 (slice : Slice) (f : FmtL) (s : State) : Next :=
  laneOp slice.val s (dotOp slice.val f (fun g => g.d) (fun g => g.d / 32 * 2) fun l g h r q =>
    dotTok (g.d / 32) (l.query g 0#32 h) (elems8 r) (halves q))

/-- DQDOT4. R79. -/
def execDqdot4 (slice : Slice) (f : FmtL) (s : State) : Next :=
  laneOp slice.val s (dotOp slice.val f (fun g => g.d / 2) (fun g => g.d / 32 * 2) fun l g h r q =>
    dotTok (g.d / 32) (l.query g 0#32 h) (elems4 r) (halves q))

/-- DQDOT4C, over the folded query. R79. -/
def execDqdot4c (slice : Slice) (f : FmtL) (s : State) : Next :=
  laneOp slice.val s (dotOp slice.val f (fun g => g.d / 2) (fun _ => 0) fun l g h r _ =>
    dotFold (g.d / 32) (l.folded g h).1 (l.folded g h).2 (elems4 r))

/-- DOTBF. R79. -/
def execDotbf (slice : Slice) (f : FmtL) (s : State) : Next :=
  laneOp slice.val s (dotOp slice.val f (fun g => 2 * g.d) (fun _ => 0) fun l g h r _ =>
    dotBf (g.d / 32) (l.query g 0#32 h) (halves r))

/-- FOLD: the channel scales at aux16 folded into the queries. R79. -/
def execFold (slice : Slice) (f : FmtL) (s : State) : Next :=
  laneOp slice.val s fun s c l =>
    let g := l.geo
    withOperands slice.val { f with row := 0 } 0 (2 * g.d) (fun l _ q =>
      (List.range g.g).foldl (fun l h =>
        let (pq, py, fl) := foldQ4c (g.d / 32) (l.query g 0#32 h) (halves q)
        let l := { l with qb := writeCells l.qb (4608 + 288 * h) (bytes8 pq) }
        let l := { l with qb := writeCells l.qb (4608 + 288 * h + 256) (py.flatMap fun (v : F32) => leBytes 4 v.toNat) }
        l.osat g h fl) l) s c l

/-- The request's scalars from parameter space: 0 softmax_scale, 1 logit_cap, 2 query position, 3 + h slope of head h
(assumption 28). -/
def cmdScalar (c : CmdSlot) (n : Nat) : BitVec 32 :=
  Config.kernelScalar n ((List.range 32).map fun i => agetD c.params i 0#32)

/-- Cap and slope as the geometry enables them. R80, R143. -/
def cmdCap (c : CmdSlot) (g : Geom) : F32 := if g.cap then cmdScalar c 1 else 0#32
/-- Slope of a head. -/
def cmdSlope (c : CmdSlot) (g : Geom) (h : Nat) : F32 := if g.bias then cmdScalar c (3 + h) else 0#32
/-- Position of the query. -/
def cmdPos (c : CmdSlot) : Int := ((cmdScalar c 2).toNat : Int)

/-- BND: the page bound of each head from the sketch at aux16, into s registers from sreg. R85. -/
def execBnd (slice : Slice) (f : FmtL) (s : State) : Next :=
  laneOp slice.val s fun s c l =>
    let g := l.geo
    withOperands slice.val { f with row := 0 } 0 (2 * g.d + 2) (fun l _ q =>
      let p : SPage :=
        { lpn := 0, idx := 0, firstPos := (l.sget f.sreg.val).toNat, tail := false,
          g := ⟨g.kf, g.vf, 0, 0⟩, krows := [], ksc := [], vrows := [], vsc := [],
          hi := elems8 (q.take g.d), lo := elems8 ((q.drop g.d).take g.d), sigma := leNat (q.drop (2 * g.d)),
          vis := List.range f.count, err := none, verr := none }
      let a : AttQ :=
        { nb := g.d / 32, dim := g.d, group := g.g, heads := [], scale := cmdScalar c 0, cap := cmdCap c g,
          pq := cmdPos c, mode := 0, eps := 0#32, topk := 0 }
      (List.range g.g).foldl (fun l' h =>
        l'.sset (f.sreg.val + h) (pageBoundWith a (l.query g (cmdSlope c g h) h) p
          (if g.kf = fmtQ4C then (l.folded g h).2 else []))) l) s c l

/-- BNDR: the remaining mass over count pages, whose bounds stand in ZB from column row and whose n_vis words stand at
aux16, into s registers from sreg (assumption 35). R88. -/
def execBndr (slice : Slice) (f : FmtL) (s : State) : Next :=
  laneOp slice.val s fun s c l =>
    let g := l.geo
    withOperands slice.val f 0 (4 * f.count) (fun l _ q =>
      let n := words32 q
      (List.range g.g).foldl (fun l' h =>
        l'.sset (f.sreg.val + h) (remaining (l.oget g h).m
          ((List.range f.count).map fun i => ((n.getD i 0#32).toNat, l.zget h (f.row + i))))) l) s c l

/-- Operations on ZB and OB alone. -/
def withRow (k : Nat) (f : FmtL) (op : CmdSlot → Lane → Lane) (s : State) (c : CmdSlot) (l : Lane) : LaneRes :=
  withOperands k { f with src16 := 0, aux16 := 0 } 0 0 (fun l _ _ => op c l) s c l

/-- LOGIT: scale, cap, bias and base 2, over ZB entries. R80, R81. -/
def execLogit (slice : Slice) (f : FmtL) (s : State) : Next :=
  laneOp slice.val s (withRow slice.val f fun c l =>
    let g := l.geo
    let p0 := ((l.sget f.sreg.val).toNat : Int)
    l.cells g f.count fun l h t =>
      let z := logit (cmdScalar c 0) (cmdCap c g) (cmdSlope c g h) (p0 + t - cmdPos c) (l.zget h (f.row + t), false)
      (l.zset h (f.row + t) z.1).osat g h z.2)

/-- PMAX: the page maximum over ZB entries, and the rescaling of the running record. R83. -/
def execPmax (slice : Slice) (f : FmtL) (s : State) : Next :=
  laneOp slice.val s (withRow slice.val f fun _ l =>
    let g := l.geo
    (List.range g.g).foldl (fun l h =>
      let mp := (List.range f.count).foldl (fun m t => f32Max m (l.zget h (f.row + t))) NEGINF
      l.oset g h (rescale (l.oget g h) mp)) l)

/-- The values of one token with their weight, from element and scale bytes. R83. -/
def valueBytes (nb : Nat) (el : List Int) (sc : List Nat) (w : F32) : List (F32 × Fl) :=
  ((pieces nb 32 el).zip sc).flatMap fun (b, vs) =>
    let u := satFl false (f32Mul .ne w (f32OfBf16 vs))
    b.map fun v => (f32OfInt .ne v, u)

/-- Accumulation of count tokens into the running records. R83. -/
def expOp (k : Nat) (f : FmtL) (row scl : Geom → Nat) (vals : Geom → List Byte → List Byte → F32 → List (F32 × Fl))
    (s : State) (c : CmdSlot) (l : Lane) : LaneRes :=
  let g := l.geo
  withOperands k f (f.count * row g) (f.count * scl g) (fun l p q =>
    (List.range g.g).foldl (fun l h =>
      let r := (List.range f.count).foldl (fun r t =>
        accum r (l.zget h (f.row + t))
          (vals g ((p.drop (t * row g)).take (row g)) ((q.drop (t * scl g)).take (scl g)))) (l.oget g h)
      l.oset g h { r with scanned := satAdd r.scanned f.count }) l) s c l

/-- EXPACC8: Q8T values. R83. -/
def execExpacc8 (slice : Slice) (f : FmtL) (s : State) : Next :=
  laneOp slice.val s (expOp slice.val f (fun g => g.d) (fun g => g.d / 32 * 2) fun g p q w =>
    valueBytes (g.d / 32) (elems8 p) (halves q) w)

/-- EXPACC4: Q4T values. R83. -/
def execExpacc4 (slice : Slice) (f : FmtL) (s : State) : Next :=
  laneOp slice.val s (expOp slice.val f (fun g => g.d / 2) (fun g => g.d / 32 * 2) fun g p q w =>
    valueBytes (g.d / 32) (elems4 p) (halves q) w)

/-- EXPACCBF: BF16 tail values. R83. -/
def execExpaccbf (slice : Slice) (f : FmtL) (s : State) : Next :=
  laneOp slice.val s (expOp slice.val f (fun g => 2 * g.d) (fun _ => 0) fun _ p _ w =>
    (halves p).map fun v => (f32OfBf16 v, (w, false)))

/-- RMERGE: OB record sets row and row + G into row. 05_merge.md R97. -/
def execRmerge (slice : Slice) (f : FmtL) (s : State) : Next :=
  laneOp slice.val s fun s c l =>
    let g := l.geo
    if bufSize 4 < recSize true g.d * (f.row + 2 * g.g) then (s, l, some 6)
    else
      afterLoads slice.val (fun x => decide (x.buf = 4)) (fun s _ l =>
        (s, (List.range g.g).foldl (fun l h =>
          l.oset g (f.row + h) (mergeRec (l.oget g (f.row + h)) (l.oget g (f.row + g.g + h)))) l, none)) s c l

/-- REMIT: G records from OB to memory. R153. -/
def execRemit (slice : Slice) (f : FmtM) (s : State) : Next :=
  let k := slice.val
  laneOp k s fun s c l =>
    let a := mAddr l f
    let g := l.geo
    let n := g.g * recSize true g.d
    let off := f.boff16 * 16
    if a % 16 ≠ 0 ∨ bufSize 4 < off + n then (s, l, some 6)
    else if ! permitted s k c true a n then (s, l, some 1)
    else
      afterLoads k (loadUses 4 off n a n) (fun s _ l => laneStore k a (readCells l.ob off n) f.crc s l) s c l

/-- CRCCHK: the accumulated CRC against a register; it is cleared. R153. -/
def execCrcchk (slice : Slice) (f : FmtS) (s : State) : Next :=
  laneOp slice.val s fun s c l =>
    afterLoads slice.val (fun x => x.crc) (fun s _ l =>
      (s, { l with crc := 0#32 }, if l.crc = l.sget f.sa.val then none else some 5)) s c l

/-! ## Scalars (R153) -/

/-- Signed comparison of INT32 values. -/
def int32Lt (a b : BitVec 32) : Bool := decide (a.toInt < b.toInt)

/-- SALU's result; none where the rules state none: a shift by the width or more (assumption 36), a reserved func. -/
def saluRes (func : Nat) (a b : BitVec 32) : Option (BitVec 32) :=
  match func with
  | 0 => some (a + b)
  | 1 => some (a - b)
  | 2 => some (a * b)
  | 3 => some (a &&& b)
  | 4 => some (a ||| b)
  | 5 => some (a ^^^ b)
  | 6 => if b.toNat < 32 then some (a <<< b.toNat) else none
  | 7 => if b.toNat < 32 then some (a >>> b.toNat) else none
  | 8 => some (if int32Lt b a then b else a)
  | 9 => some (if int32Lt a b then b else a)
  | 10 => some (if int32Lt a b then 1#32 else 0#32)
  | _ => none

/-- Writes a result, or a free value where the rules state none. -/
def putResult (s : State) (l : Lane) (sd : Nat) (r : Option (BitVec 32)) : LaneRes :=
  match r with
  | some v => (s, l.sset sd v, none)
  | none => ((fresh s).2, l.sset sd (BitVec.ofNat 32 (fresh s).1), none)

/-- SALU. R153. -/
def execSalu (slice : Slice) (f : FmtS) (s : State) : Next :=
  laneOp slice.val s fun s _ l => putResult s l f.sd.val (saluRes f.func (l.sget f.sa.val) (l.sget f.sb.val))

/-- A stated FP32 result: one that is no NaN. -/
def notNan (v : F32) : Option F32 := if f32nan v then none else some v

/-- SFPU's result, rounded to nearest even; none where the rules state none: a NaN (assumption 36), a reserved func. -/
def sfpuRes (func : Nat) (a b : F32) : Option F32 :=
  match func with
  | 0 => notNan (f32Add .ne a b)
  | 1 => notNan (f32Sub .ne a b)
  | 2 => notNan (f32Mul .ne a b)
  | 3 => if f32nan a ∨ f32nan b then none else some (f32Min a b)
  | 4 => if f32nan a ∨ f32nan b then none else some (f32Max a b)
  | 5 => some (if f32Lt a b then 1#32 else 0#32)
  | _ => none

/-- SFPU. R153. -/
def execSfpu (slice : Slice) (f : FmtS) (s : State) : Next :=
  laneOp slice.val s fun s _ l => putResult s l f.sd.val (sfpuRes f.func (l.sget f.sa.val) (l.sget f.sb.val))

/-- MOVI. R153. -/
def execMovi (slice : Slice) (f : FmtS) (s : State) : Next :=
  laneOp slice.val s fun s _ l => (s, l.sset f.sd.val f.imm32, none)

/-- AADD. R153. -/
def execAadd (slice : Slice) (f : FmtS) (s : State) : Next :=
  laneOp slice.val s fun s _ l => (s, l.aset f.sd.val (l.aget f.sa.val + BitVec.ofInt 48 f.imm32.toInt), none)

/-! ## Control flow (R154, R159) -/

/-- The active bits: in the lane mask, and with iterations left of every open loop. R154. -/
def setActive (s : State) (k i : Nat) : State :=
  modEng s k fun d =>
    { d with lanes := d.lanes.map fun (n, l) =>
        (n, { l with active := bit1 (cmdOf d i).laneMask n && d.loops.all fun f => decide (0 < agetD l.lc f.lc 0) }) }

/-- LOOP: the largest count over the active lanes; a count above max_iter faults first. R154. -/
def execLoopOpen (slice : Slice) (f : FmtC) (s : State) : Next :=
  let k := slice.val
  onLane k s fun s i =>
    let d := dillOf s k
    let count := fun (l : Lane) => if l.active then (l.sget f.sreg.val).toNat else 0
    if d.lanes.any fun p => decide (f.maxIter < count p.2) then laneFault s k i 2
    else
      let fr : LoopFrame := ⟨f.lc.val, d.pc + 1, maxNat (d.lanes.map fun p => count p.2)⟩
      setActive (modEng s k fun d =>
        { d with loops := fr :: d.loops, pc := d.pc + 1,
                 lanes := d.lanes.map fun (n, l) => (n, { l with lc := aset l.lc f.lc.val (count l) }) }) k i

/-- ENDL: one iteration less; the body again while any is left. R154. -/
def execEndl (slice : Slice) (f : FmtC) (s : State) : Next :=
  let k := slice.val
  onLane k s fun s i =>
    match (dillOf s k).loops with
    | fr :: rest =>
      if fr.lc ≠ f.lc.val then modEng s k fun d => { d with pc := d.pc + 1 }
      else
        let more := decide (1 < fr.left)
        let frs := if more then { fr with left := fr.left - 1 } :: rest else rest
        setActive (modEng s k fun d =>
          { d with loops := frs, pc := if more then fr.start else d.pc + 1,
                   lanes := d.lanes.map fun (n, l) =>
                     (n, { l with lc := aset l.lc fr.lc (agetD l.lc fr.lc 0 - 1) }) }) k i
    | [] => modEng s k fun d => { d with pc := d.pc + 1 }

/-- BRZ: taken when the condition holds on any active lane; the others are inactive until the target, which is the next
instruction to run. R154. -/
def execBrz (slice : Slice) (f : FmtC) (s : State) : Next :=
  let k := slice.val
  onLane k s fun s _ =>
    let taken := (dillOf s k).lanes.any fun p => p.2.active && decide (p.2.sget f.sreg.val = 0#32)
    modEng s k fun d => { d with pc := if taken then f.target else d.pc + 1 }

/-- Whether a loop that no lane iterates is open: what stands in it has no effect. R154. -/
def inDeadLoop (d : Dill) : Bool := d.loops.any fun f => decide (f.left = 0)

/-- Status of a command that ends in DONE: OK, or the program's result status. No rule says how a program gives one, so a
program that has written result space ends with a free status (assumption 155). R146. -/
def resultStatus (s : State) (c : CmdSlot) : State × Status :=
  if c.results.isEmpty then (s, .ok) else ((fresh s).2, Status.all.getD ((fresh s).1 % 21) .ok)

/-- HALT: loads complete and are discarded, and the command is DONE. R146, R153. -/
def execHalt (slice : Slice) (_f : FmtC) (s : State) : Next :=
  let k := slice.val
  onLane k s fun s i =>
    if inDeadLoop (dillOf s k) then modEng s k fun d => { d with pc := d.pc + 1 }
    else
      let r := resultStatus s (cmdOf (dillOf s k) i)
      endCommand r.1 k i .done r.2 0 0

/-- Waits for every outstanding load of every lane, up to the first fault. R159 step 1. -/
def drainLoads (s : State) (k : Nat) : State × Option Nat :=
  (List.range 16).foldl (fun (r : State × Option Nat) n =>
    if r.2.isSome then r
    else
      let x := waitLoads r.1 k (agetD (dillOf r.1 k).lanes n lane0) fun _ => true
      (modEng x.1 k fun d => { d with lanes := aset d.lanes n x.2.1 }, x.2.2)) (s, none)

/-- YIELD: loads drain, the page buffers are invalidated, refresh and throttle get their turn, and the scheduler picks
the next command. R159, R160; 08_memory.md R189. -/
def execYield (slice : Slice) (_f : FmtC) (s : State) : Next :=
  let k := slice.val
  onLane k s fun s i =>
    if inDeadLoop (dillOf s k) then modEng s k fun d => { d with pc := d.pc + 1 }
    else
      match drainLoads s k with
      | (s, some code) => laneFault s k i code
      | (s, none) =>
        let s := modEng s k fun d =>
          { d with pc := d.pc + 1, lanes := d.lanes.map fun (n, l) => (n, { l with pb := [] }) }
        schedule (endSegment s k i) k

/-- The throttle pause ends. 08_memory.md R189. -/
def execThrottlePauseEnd (slice : Slice) (s : State) : Next :=
  let k := slice.val
  match (dillOf s k).pause with
  | none => .next (schedule s k)
  | some t => .next (schedule (modEng (passTo s (dieHub s k) t) k fun d => { d with pause := none }) k)

/-! ## Pool operations (R163, R164) -/

/-- The 64-bit pattern repeated over n bytes. R163. -/
def fillBytes (pat n : Nat) : List Byte := ((List.replicate (n / 8) (leBytes 8 pat)).flatten)

/-- Copies word by word in ascending order up to a word that cannot be corrected: bytes done. R163, R164. -/
def copyWords : Nat → State → Nat → Nat → State × Nat × Bool
  | 0, s, _, _ => (s, 0, true)
  | n + 1, s, dst, src =>
    match view s src 16 readPool with
    | (s, none) => (s, 0, false)
    | (s, some b) =>
      let r := copyWords n (putBytes s dst b) (dst + 16) (src + 16)
      (r.1, r.2.1 + 16, r.2.2)

/-- Compares word by word up to a difference or a word that cannot be corrected: bytes equal before it, and which. R163. -/
def cmpWords : Nat → State → Nat → Nat → State × Nat × Option Bool
  | 0, s, _, _ => (s, 0, none)
  | n + 1, s, x, y =>
    match view s x 16 readPool with
    | (s, none) => (s, 0, some true)
    | (s, some a) =>
      match view s y 16 readPool with
      | (s, none) => (s, 0, some true)
      | (s, some b) =>
        if a ≠ b then (s, 0, some false)
        else
          let r := cmpWords n s (x + 16) (y + 16)
          (r.1, r.2.1 + 16, r.2.2)

/-- One element of PRED: function 0 FP32 sum, 1 FP32 max, 2 INT32 sum saturating, 3 INT32 max. R163. -/
def predStep (func : Nat) (a b : BitVec 32) : BitVec 32 :=
  match func with
  | 0 => f32Add .ne a b
  | 1 => f32Max a b
  | 2 =>
    let v := a.toInt + b.toInt
    BitVec.ofInt 32 (if 2147483647 < v then 2147483647 else if v < -2147483648 then -2147483648 else v)
  | _ => if int32Lt a b then b else a

/-- Adds further vectors, in ascending order; fails at the first word that cannot be corrected, with the number of vectors
left from it on. -/
def predVectors (func : Nat) : Nat → State → Nat → Nat → Nat → List (BitVec 32) → State × Except Nat (List (BitVec 32))
  | 0, s, _, _, _, acc => (s, .ok acc)
  | c + 1, s, src, len, m, acc =>
    match view s src m readPool with
    | (s, none) => (s, .error (c + 1))
    | (s, some b) => predVectors func c s (src + len) len m ((acc.zip (words32 b)).map fun (x, y) => predStep func x y)

/-- The first so many vectors of m bytes, reduced; fails at the first word that cannot be corrected, with the number of
vectors left from it on. -/
def predSums (s : State) (func count src len m : Nat) : State × Except Nat (List (BitVec 32)) :=
  match view s src m readPool with
  | (s, none) => (s, .error count)
  | (s, some b) => predVectors func (count - 1) s (src + len) len m (words32 b)

/-- Reduces word by word of the result in ascending order, each over all vectors, up to a source word that cannot be
corrected (the order is the model's: assumption 146): result bytes done, and the vector that holds such a word. R163, R164. -/
def predWords (func count len : Nat) : Nat → State → Nat → Nat → State × Nat × Option Nat
  | 0, s, _, _ => (s, 0, none)
  | n + 1, s, dst, src =>
    match predSums s func count src len 16 with
    | (s, .error left) => (s, 0, some (count - left))
    | (s, .ok v) =>
      let r := predWords func count len n (putBytes s dst (v.flatMap fun x => leBytes 4 x.toNat)) (dst + 16) (src + 16)
      (r.1, r.2.1 + 16, r.2.2)

/-- What a pool operation on a range gives. -/
inductive PoolRes where
  /-- the range is done -/
  | done
  /-- PCMP found a difference in the word at this byte of the range -/
  | diff (at_ : Nat)
  /-- the source word at this byte from the source's start cannot be corrected -/
  | bad (at_ : Nat)
  deriving DecidableEq, Repr

/-- A pool operation's operands: code of R163, die-local addresses, length, function, vector count, pattern. -/
structure PoolArgs where
  code : Nat
  dst  : Nat
  src  : Nat
  len  : Nat
  func : Nat
  count : Nat
  pat  : Nat
  deriving DecidableEq, Repr

/-- The part of a pool operation from byte o on, m bytes long. R163, R164. -/
def poolPart (s : State) (k : Nat) (p : PoolArgs) (o m : Nat) : State × PoolRes :=
  let s := rouse (rouse s k (p.dst + o) m) k (p.src + o) m
  let dst := dieBase k + p.dst + o
  let src := dieBase k + p.src + o
  match p.code with
  | 0 => (if p.pat = 0 ∧ ! recordIn s dst m then scrub s dst m else putBytes s dst (fillBytes p.pat m), .done)
  | 1 =>
    match view s src m readPool with
    | (s', some b) => (putBytes s' dst b, .done)
    | (_, none) =>
      let r := copyWords (m / 16) s dst src
      (r.1, if r.2.2 then .done else .bad (o + r.2.1))
  | 2 =>
    match view s dst m readPool with
    | (s', some a) =>
      match view s' src m readPool with
      | (s'', some b) =>
        if a = b then (s'', .done)
        else
          let at_ := ((List.range m).find? fun i => decide (a.getD i 0#8 ≠ b.getD i 0#8)).getD 0
          (s'', .diff (o + at_ / 16 * 16))
      | (_, none) =>
        let r := cmpWords (m / 16) s dst src
        (r.1, match r.2.2 with
          | none => .done
          | some true => .bad (o + r.2.1)
          | some false => .diff (o + r.2.1))
    | (_, none) =>
      let r := cmpWords (m / 16) s dst src
      (r.1, match r.2.2 with
        | none => .done
        | some true => .bad (o + r.2.1)
        | some false => .diff (o + r.2.1))
  | _ =>
    if p.count = 0 then (s, .done)
    else
      match predSums s p.func p.count src p.len m with
      | (s', .ok v) => (putBytes s' dst (v.flatMap fun x => leBytes 4 x.toNat), .done)
      | (_, .error _) =>
        let r := predWords p.func p.count p.len (m / 16) s dst src
        (r.1, match r.2.2 with
          | none => .done
          | some j => .bad (j * p.len + o + r.2.1))

/-- The result of a whole operation. R163. -/
def poolResult (p : PoolArgs) : Nat :=
  if p.code = 2 then 0 else if p.code = 3 then p.count else p.len

/-- Bytes of source a PRED of m result bytes reads: its vectors lie one after another. R163. -/
def srcLen (p : PoolArgs) (m : Nat) : Nat := if p.code = 3 then (if p.count = 0 then 0 else (p.count - 1) * p.len + m) else m

/-- Fault of a part before it runs: alignment, then windows. R156, R163. -/
def poolCheck (s : State) (k : Nat) (c : CmdSlot) (p : PoolArgs) (o m : Nat) : Option Nat :=
  if p.dst % 16 ≠ 0 ∨ (p.code ≠ 0 ∧ p.src % 16 ≠ 0) ∨ p.len % 16 ≠ 0 then some 6
  else if ! permitted s k c (decide (p.code ≠ 2)) (p.dst + o) m then some 1
  else if p.code ≠ 0 ∧ ! permitted s k c false (p.src + o) (srcLen p m) then some 1
  else none

/-- Operands of a POOL command. R144. -/
def cmdArgs (c : CmdSlot) : PoolArgs :=
  let p := fun i => (agetD c.params i 0#32).toNat
  ⟨p 0, (p 1 + 2 ^ 32 * p 2) % 2 ^ 48, (p 3 + 2 ^ 32 * p 4) % 2 ^ 48, p 5, p 6 % 4, p 7, p 6 + 2 ^ 32 * p 7⟩

/-- A POOL command ends in DONE with a result, or in FAULT. R146, R156, R164. -/
def endPool (s : State) (k i : Nat) (code result : Nat) : State :=
  let s := modEng s k fun d => { d with pool := none, poolDone := 0, chunk := false }
  let s := if code = 0 then s else bump s .dill_FAULTS k
  modCmd s k i fun c =>
    { c with state := if code = 0 then .done else .fault, faultCode := code,
             status := if code = 0 then Status.ok.code else (faultStatus code).code,
             results := aset c.results 0 (BitVec.ofNat 32 result) }

/-- What keeps the pool engine at a chunk boundary: pool_en, level 8 for what is not urgent, the catch-up, a fence on
the chunk, a stack that retrains. R161, R169, R171; 08_memory.md R189. -/
def poolHeld (s : State) (k : Nat) (c : CmdSlot) (p : PoolArgs) (o m : Nat) : Bool :=
  decide (rget s .dill_pool_en k 0 = 0) || (decide (8 ≤ levelOf s k) && decide (c.cls ≠ 0)) || catchUpDue s k ||
    decide ((sliceSt s k).st = 1) ||
    (decide (p.code ≠ 2) && s.dill.snaps.any fun x => x.2.raised && overlap (dieBase k + p.dst + o) m (snapAddr s x.2) x.2.len)

/-- The pool engine starts the next chunk of its command. A length that R163 excludes, 0 or above 1 GiB, ends the command in
FAULT with code ALIGN and BOUNDS: the spec names no fault for it (DESIGN CHOICE, assumption 170). R142, R161, R163. -/
def poolStart (s : State) (k : Nat) : State :=
  let d := dillOf s k
  match d.pool with
  | none => s
  | some i =>
    let c := cmdOf d i
    let p := cmdArgs c
    let m := min 65536 (p.len - d.poolDone)
    if d.chunk ∨ poolHeld s k c p d.poolDone m then s
    else if p.len = 0 ∨ 2 ^ 30 < p.len then endPool s k i 6 0
    else
      match poolCheck s k c p d.poolDone m with
      | some code => endPool s k i code d.poolDone
      | none =>
        match poolPart s k p d.poolDone m with
        | (s, .done) => modEng s k fun d => { d with chunk := true, poolDone := d.poolDone + m }
        | (s, .diff a) =>
          let s := modCmd s k i fun c => { c with results := aset c.results 0 (BitVec.ofNat 32 (a + 1)) }
          modEng s k fun d => { d with chunk := true, poolDone := p.len }
        | (s, .bad a) => endPool s k i 4 a

/-- A POOL command of a slot starts when the pool engine is free and it is first by class and then by issue. R147. -/
def poolTake (s : State) (k i code : Nat) : State :=
  let d := dillOf s k
  let wait := d.slots.filter fun p => decide (p.2.kind = 1) && decide (p.2.state = .queued)
  let first := longest (wait.filter fun p => decide (p.2.cls = ((sortBy (fun x => x.2.cls) wait).head?.map fun x => x.2.cls).getD 0))
  if d.pool.isNone ∧ first = some i ∧ (cmdArgs (cmdOf d i)).code = code ∧ rget s .dill_pool_en k 0 = 1 ∧
      aget s.life.moving k = none then
    let s := modCmd s k i fun c => { c with state := .running, segments := 0 }
    poolStart (modEng s k fun d => { d with pool := some i, poolDone := 0, chunk := false }) k
  else s

/-- A pool instruction of a program in one lane. Format P has no field for PFILL's pattern, and the spec names no register for
it: the pattern is a free value, a fresh one in each lane (DESIGN CHOICE, assumption 77). R153, R163. -/
def poolLane (k code : Nat) (f : FmtP) (s : State) (c : CmdSlot) (l : Lane) : LaneRes :=
  let pat := if code = 0 then (fresh s).1 % 2 ^ 64 else 0
  let s := if code = 0 then (fresh s).2 else s
  let n := min (l.sget f.slen.val).toNat (f.maxKib * 1024)
  let p : PoolArgs :=
    ⟨code, (l.aget f.adst.val).toNat, (l.aget f.asrc.val).toNat, n, f.func, (l.sget f.sres.val).toNat, pat⟩
  match poolCheck s k c p 0 n with
  | some e => (s, l, some e)
  | none =>
    afterLoads k (fun x => overlap x.addr x.len p.dst n || overlap x.addr x.len p.src (srcLen p n)) (fun s _ l =>
      match poolPart s k p 0 n with
      | (s, .done) => (s, l.sset f.sres.val (BitVec.ofNat 32 (poolResult p)), none)
      | (s, .diff a) => (s, l.sset f.sres.val (BitVec.ofNat 32 (a + 1)), none)
      | (s, .bad _) => (s, l, some 4)) s c l

/-- A pool operation in either form. -/
def poolExec (k code : Nat) (f : PoolForm) (s : State) : Next :=
  match f with
  | .instr f => laneOp k s (poolLane k code f)
  | .command slot => .next (poolTake s k slot.val code)

/-- PFILL. R163. -/
def execPfill (slice : Slice) (f : PoolForm) (s : State) : Next := poolExec slice.val 0 f s

/-- PCOPY. R163. -/
def execPcopy (slice : Slice) (f : PoolForm) (s : State) : Next := poolExec slice.val 1 f s

/-- PCMP. R163. -/
def execPcmp (slice : Slice) (f : PoolForm) (s : State) : Next := poolExec slice.val 2 f s

/-- PRED. R163. -/
def execPred (slice : Slice) (f : PoolForm) (s : State) : Next := poolExec slice.val 3 f s

/-- A pool chunk completes: the command ends, or its next chunk starts. R142, R161. -/
def execPoolChunkComplete (slice : Slice) (s : State) : Next :=
  let k := slice.val
  let d := dillOf s k
  match d.pool with
  | none => .next s
  | some i =>
    if d.chunk then
      let p := cmdArgs (cmdOf d i)
      let s := modEng s k fun d => { d with chunk := false }
      if p.len ≤ d.poolDone then
        .next (endPool s k i 0 (match aget (cmdOf d i).results 0 with
          | some v => v.toNat
          | none => poolResult p))
      else .next (poolStart s k)
    else .next (poolStart s k)

/-! ## Refresh (R161, R162) -/

/-- Refreshes of a bank are issued, two rows each, in ascending row order. 08_memory.md R186. -/
def issueRefresh (x : Stack) (b : Nat × Nat) (n : Nat) : Stack :=
  { x with rows := aset x.rows b ((agetD x.rows b 0 + n) % 8192) }

/-- A bank's refresh falls due: issued, postponed while a segment or a chunk runs, or forced with eight postponed. R161, R162.
None falls due in self-refresh (08_memory.md R187). -/
def execRefreshDue (slice : Slice) (pc bank : Nat) (s : State) : Next :=
  let k := slice.val
  let b := (pc, bank)
  let n := agetD (stackSt s k).postponed b 0
  if (stackSt s k).selfRef.contains pc then .next s
  else if (dillOf s k).segment ∨ (dillOf s k).chunk then
    if n < 8 then
      let s := modStack s k fun x => { x with postponed := aset x.postponed b (n + 1) }
      .next (rmax (bump s .dill_REFRESH_POSTPONED k) .dill_POSTPONE_MAX k (n + 1))
    else
      let s := modStack s k fun x => issueRefresh { x with postponed := adel x.postponed b } b 9
      .next (bump s .dill_REFRESH_FORCED k)
  else .next (modStack s k fun x => issueRefresh x b 1)

/-- The catch-up: with the lane engine at a yield and the pool engine at a chunk boundary every postponed refresh is
issued, and both engines go on. R161. -/
def execRefreshCatchUp (slice : Slice) (s : State) : Next :=
  let k := slice.val
  let d := dillOf s k
  if d.segment ∨ d.chunk then .next s
  else
    let s := modStack s k fun x =>
      { x.postponed.foldl (fun x p => issueRefresh x p.1 p.2) x with postponed := [] }
    .next (schedule (poolStart s k) k)

end Sys2Proof.Machine
end

