-- ==== Sys2Proof/Machine/Engine.lean ====
section
/-!
DEFINITION. The words of the micro-program store as instructions: their fields, the check of reserved encodings, and the
lane engines that run the programs the store holds. 07_dill.md R142, R148, R152, R153.
-/
namespace Sys2Proof.Machine

/-! ## Instruction words (07_dill.md R152, R153) -/

/-- Opcode of an instruction word. -/
def insnOp (w : Nat) : Nat := bits w 63 56

/-- Opcodes of each format. 07_dill.md R153. -/
def opsM : List Nat := [0x01, 0x02, 0x26]
def opsS : List Nat := [0x03, 0x04, 0x05, 0x08, 0x27, 0x30, 0x31, 0x32, 0x33]
def opsL : List Nat := [0x10, 0x11, 0x12, 0x13, 0x14, 0x18, 0x19, 0x20, 0x21, 0x22, 0x23, 0x24, 0x25]
def opsC : List Nat := [0x38, 0x39, 0x3A, 0x3C, 0x3F]
def opsP : List Nat := [0x40, 0x41, 0x42, 0x43]

/-- Largest function code of a scalar opcode. 07_dill.md R153. -/
def funcMax (op : Nat) : Nat :=
  if op = 0x30 then 10 else if op = 0x31 then 5 else if op = 0x03 ∨ op = 0x04 then 1 else 0

/-- Whether a word is an instruction without reserved opcode, field or encoding. 07_dill.md R150 order 1, R152, R153. -/
def insnOk (w : Nat) : Bool :=
  let op := insnOp w
  if opsM.contains op then
    decide (bits w 55 52 ≤ 4) && decide (bits w 51 50 = 0) && decide (bits w 44 42 = 0) && decide (1 ≤ bits w 41 29) &&
      decide (bits w 41 29 ≤ 4096)
  else if opsL.contains op then decide (1 ≤ bits w 55 48) && decide (bits w 55 48 ≤ 128) && decide (bits w 6 0 = 0)
  else if opsS.contains op then decide (bits w 55 52 ≤ funcMax op) && decide (bits w 36 32 = 0)
  else if opsC.contains op then decide (bits w 48 48 = 0) && decide (bits w 31 16 = 0)
  else if opsP.contains op then
    decide (bits w 39 36 ≤ 3) && decide (1 ≤ bits w 35 20) && decide (bits w 35 20 ≤ 64) && decide (bits w 19 0 = 0)
  else false

/-! ## Fields (07_dill.md R152) -/

/-- Fields of format M. -/
def wordM (w : Nat) : FmtM :=
  ⟨bits w 55 52, bit1 w 48, bit1 w 49, Fin.ofNat 8 (bits w 47 45), bits w 41 29, bits w 28 16, BitVec.ofNat 16 (bits w 15 0)⟩

/-- Fields of format L. -/
def wordL (w : Nat) : FmtL :=
  ⟨bits w 55 48, bits w 47 35, bits w 34 22, bits w 21 13, Fin.ofNat 32 (bits w 12 8), bit1 w 7⟩

/-- Fields of format S. -/
def wordS (w : Nat) : FmtS :=
  ⟨bits w 55 52, Fin.ofNat 32 (bits w 51 47), Fin.ofNat 32 (bits w 46 42), Fin.ofNat 32 (bits w 41 37), BitVec.ofNat 32 (bits w 31 0)⟩

/-- Fields of format C. -/
def wordC (w : Nat) : FmtC :=
  ⟨Fin.ofNat 4 (bits w 55 54), Fin.ofNat 32 (bits w 53 49), bits w 47 32, bits w 15 0⟩

/-- Fields of format P, an instruction of a program. -/
def wordP (w : Nat) : PoolForm :=
  .instr ⟨Fin.ofNat 8 (bits w 55 53), Fin.ofNat 8 (bits w 52 50), Fin.ofNat 32 (bits w 49 45), Fin.ofNat 32 (bits w 44 40),
    bits w 39 36, bits w 35 20⟩

/-- What the instruction a word encodes does in a slice. 07_dill.md R153. -/
def wordRun (k : Slice) (w : Nat) : Option (State → Next) :=
  if ! insnOk w then none
  else
    match insnOp w with
    | 0x01 => some (execVld k (wordM w))
    | 0x02 => some (execVst k (wordM w))
    | 0x03 => some (execSld k (wordS w))
    | 0x04 => some (execSst k (wordS w))
    | 0x05 => some (execWaitl k (wordS w))
    | 0x08 => some (execCfg k (wordS w))
    | 0x10 => some (execDqdot8 k (wordL w))
    | 0x11 => some (execDqdot4 k (wordL w))
    | 0x12 => some (execDqdot4c k (wordL w))
    | 0x13 => some (execFold k (wordL w))
    | 0x14 => some (execDotbf k (wordL w))
    | 0x18 => some (execBnd k (wordL w))
    | 0x19 => some (execBndr k (wordL w))
    | 0x20 => some (execLogit k (wordL w))
    | 0x21 => some (execPmax k (wordL w))
    | 0x22 => some (execExpacc8 k (wordL w))
    | 0x23 => some (execExpacc4 k (wordL w))
    | 0x24 => some (execExpaccbf k (wordL w))
    | 0x25 => some (execRmerge k (wordL w))
    | 0x26 => some (execRemit k (wordM w))
    | 0x27 => some (execCrcchk k (wordS w))
    | 0x30 => some (execSalu k (wordS w))
    | 0x31 => some (execSfpu k (wordS w))
    | 0x32 => some (execMovi k (wordS w))
    | 0x33 => some (execAadd k (wordS w))
    | 0x38 => some (execLoopOpen k (wordC w))
    | 0x39 => some (execEndl k (wordC w))
    | 0x3A => some (execBrz k (wordC w))
    | 0x3C => some (execHalt k (wordC w))
    | 0x3F => some (execYield k (wordC w))
    | 0x40 => some (execPfill k (wordP w))
    | 0x41 => some (execPcopy k (wordP w))
    | 0x42 => some (execPcmp k (wordP w))
    | 0x43 => some (execPred k (wordP w))
    | _ => none

/-! ## Running stored programs (07_dill.md R142, R148) -/

/-- The stored word a slice's lane engine is at: of the program its running command names, inside the program. -/
def fetched (s : State) (k : Nat) : Option Nat :=
  let d := dillOf s k
  d.cur.bind fun i =>
    (aget s.dill.progs (cmdOf d i).program).bind fun p =>
      if d.segment ∧ d.pc < p.len then aget s.dill.store (p.start + d.pc) else none

/-- A pool engine without a command takes the first that waits, whatever its operation. 07_dill.md R147, R171. -/
def poolNext (s : State) (k : Nat) : State :=
  if (dillOf s k).pool.isSome then poolStart s k
  else
    ((dillOf s k).slots.filter fun p => decide (p.2.kind = 1) && decide (p.2.state = .queued)).foldl
      (fun s p => poolTake s k p.1 (cmdArgs p.2).code) s

/-- A slice's engines go on: commands that wait are taken where nothing holds the engines back any more, and a lane engine
whose segment runs takes the next word of its program. 07_dill.md R142, R147, R171. -/
def engineStep (s : State) (k : Slice) : State :=
  let s := if (aget s.dill.eng k.val).isSome ∨ (s.merge.held.any fun p => decide (p.die = k.val)) then
      poolNext (schedule s k.val) k.val
    else s
  match (fetched s k).bind (wordRun k) with
  | none => s
  | some f =>
    match f s with
    | .next t => t
    | _ => s

/-- Every slice's lane engine runs one stored instruction (assumption 27). -/
def engines (s : State) : State := (List.finRange 32).foldl engineStep s

end Sys2Proof.Machine
end

