-- ==== Sys2Proof/Machine/Journal.lean ====
section
/-!
DEFINITION. The Bay journal (17_health.md R406 to R415): numbering and programming of records, the flash translation,
block retirement, the window of the health block, and the records that carry histograms and metering.
-/
namespace Sys2Proof.Machine

/-! ## Records -/

/-- The bytes of a record: header and payload. 17_health.md R406. -/
def JRec.bytes (r : JRec) : List Byte :=
  let with_ := fun (crc : Nat) =>
    leBytes 1 1 ++ leBytes 1 r.type ++ leBytes 2 r.length ++ leBytes 4 crc ++ leBytes 8 r.seq ++ leBytes 8 r.time ++
      leBytes 4 r.originSeq ++ leBytes 4 (r.boot % 2 ^ 24 + r.hub % 8 * 2 ^ 24) ++ r.payload
  with_ (crc32c (with_ 0))

/-- Changes the flash. -/
def modFlash (s : State) (f : Flash → Flash) : State := modJrnl s fun j => { j with flash := f j.flash }

/-- Records of the pages programmed. -/
def Flash.recs (f : Flash) : List JRec := (f.pages.map fun p => p.2).flatten

/-- The newest record of those a test picks. -/
def newestRec (l : List JRec) (pick : JRec → Bool) : Option JRec :=
  (l.filter pick).foldl (fun b r =>
    match b with
    | none => some r
    | some x => if x.seq < r.seq then some r else some x) none

/-- Newest record_seq programmed, 0 for none. -/
def Flash.lastSeq (f : Flash) : Nat := maxNat (f.recs.map fun r => r.seq)

/-- Oldest record_seq held, 0 for none. 17_health.md R419. -/
def Flash.oldestSeq (f : Flash) : Nat :=
  f.recs.foldl (fun b r => if b = 0 then r.seq else min b r.seq) 0

/-! ## Flash translation (17_health.md R410 to R412) -/

/-- Erase count of a block. -/
def Flash.erased (f : Flash) (b : Nat) : Nat := agetD f.erases b 0

/-- The spare with the lowest erase count, the first of those equal. 17_health.md R411. -/
def Flash.lowestSpare (f : Flash) : Option Nat := (sortBy (fun b => f.erased b) f.spares).head?

/-- Takes the lowest-count spare from the pool. -/
def Flash.takeSpare (f : Flash) : Option (Nat × Flash) :=
  f.lowestSpare.map fun b => (b, { f with spares := f.spares.filter fun x => decide (x ≠ b) })

/-- Erases a block: its pages go, its count rises, and it joins the pool. 17_health.md R411. -/
def Flash.erase (f : Flash) (b : Nat) : Flash :=
  { f with pages := f.pages.filter fun p => decide (p.1.1 ≠ b), erases := aset f.erases b (f.erased b + 1),
           spares := f.spares ++ [b] }

/-- Block of a log role 0 to 3. -/
def Flash.log (f : Flash) (i : Nat) : Nat := f.logBlocks.getD i 0

/-- Gives a log role a block. -/
def Flash.setLog (f : Flash) (i b : Nat) : Flash := { f with logBlocks := f.logBlocks.set i b }

/-- Programs a checkpoint page; a full LB1 gives way to a fresh block and is erased afterwards. 17_health.md R411. -/
def Flash.checkpoint (f : Flash) : Flash :=
  let g := { f with ckptSeq := f.ckptSeq + 1, ckptPage := f.ckptPage + 1 }
  if f.ckptPage < 64 then g
  else
    match g.takeSpare with
    | none => f
    | some (b, h) => ({ h.setLog 1 b with ckptPage := 1 }).erase (f.log 1)

/-- A full LB0 becomes the block of the next logical ring block; after a checkpoint the old one is erased, and the
lowest-count spare is the new LB0. 17_health.md R411. -/
def Flash.switchHead (f : Flash) : Flash :=
  let old := f.ring.getD f.next 0
  let g := { f with ring := f.ring.set f.next (f.log 0), next := (f.next + 1) % max 1 f.ring.length, headPage := 0 }
  let g := g.checkpoint.erase old
  match g.takeSpare with
  | none => g
  | some (b, h) => (h.setLog 0 b).checkpoint

/-- Formats the partition at its first mount. 17_health.md R411. The places of the roles among the good blocks are the
model's. -/
def Flash.format (f : Flash) : Flash :=
  let n := f.nBlocks
  let sp := max 16 (n / 32)
  { f with formatted := true, logBlocks := [0, 1, 2, 3], spares := (List.range sp).map fun i => 4 + i,
           sparesAtFormat := sp, ring := (List.range (n - 4 - sp)).map fun i => 4 + sp + i, next := 0, erases := [],
           bad := [], pages := [], headPage := 0, ckptPage := 1, ckptSeq := 1, fill := [], readonly := false }

/-- Whether the journal is mounted and writable. 17_health.md R419. -/
def Flash.writable (f : Flash) : Bool := f.mounted && ! f.readonly

/-- Blocks whose erase counts R415 takes: ring and log blocks. -/
def Flash.counted (f : Flash) : List Nat := f.ring ++ f.logBlocks

/-- erase_max and erase_mean. 17_health.md R415. -/
def Flash.eraseMax (f : Flash) : Nat := maxNat (f.counted.map f.erased)
def Flash.eraseMean (f : Flash) : Nat := sumNat (f.counted.map f.erased) / max 1 f.counted.length

/-- wear_used_pct and spare_left_pct. 17_health.md R415. -/
def Flash.wearUsed (f : Flash) : Nat := min 255 (100 * f.eraseMax / max 1 f.endurance)
def Flash.spareLeft (f : Flash) : Nat := 100 * f.spares.length / max 1 f.sparesAtFormat

/-- Whether the flash is low. 17_health.md R415. -/
def Flash.low (f : Flash) : Bool := decide (f.spareLeft < 25) || decide (90 ≤ f.wearUsed)

/-- FLASH_LOW as the flash comes to be low, and the read-only state of an empty pool. 17_health.md R414, R415. -/
def settleFlash (s : State) (old : Flash) : State :=
  let f := s.jrnl.flash
  let die := 32 + (nandHub s).getD 0
  let s := if f.low ∧ ¬ old.low then
      healthEvent s die 6 (if f.spareLeft < 25 then f.spareLeft else f.wearUsed) else s
  if f.spares.isEmpty ∧ ¬ f.readonly then
    healthEvent (modFlash s fun x => { x with readonly := true }) die 6 0
  else s

/-- Bin of a program by the die temperature of the driving hub. 17_health.md R415. -/
def flashBin (t : Int) : Nat := if t < 25 then 0 else if 115 ≤ t then 7 else ((t - 25) / 15).toNat + 1

/-- Hottest sensor of a die. 17_health.md R402. -/
def dieTemp (s : State) (d : Nat) : Int :=
  match (dieHealth s d).temps with
  | [] => 0
  | t :: r => r.foldl max t

/-- The records of the page being filled are programmed: every hub drops its copy, and the program is binned by the
driving hub's temperature. 17_health.md R408, R415. -/
def programmed (s : State) : State :=
  let f := s.jrnl.flash
  let done := f.fill.map fun r => r.seq
  let s := modJrnl s fun j => { j with held := j.held.filter fun r => decide (r.seq = 0) || ! done.contains r.seq }
  let b := flashBin (dieTemp s (32 + (nandHub s).getD 0))
  let s := modHealth s fun h => { h with flashT := aset h.flashT b (satAdd (agetD h.flashT b 0) 1) }
  modFlash s fun x => { x with fill := [] }

/-- Programs the page being filled into the head. 17_health.md R409, R411. -/
def programPage (s : State) : State :=
  let f := s.jrnl.flash
  if f.fill.isEmpty ∨ ¬ journalPath s then s
  else
    let s := modFlash s fun x => { x with pages := aset x.pages (x.log 0, x.headPage) x.fill, headPage := x.headPage + 1 }
    let s := programmed s
    settleFlash (if s.jrnl.flash.headPage < 64 then s else modFlash s Flash.switchHead) f

/-- Bytes of the page being filled. -/
def Flash.fillLen (f : Flash) : Nat := sumNat (f.fill.map JRec.length)

/-- The oldest record of a hub that has no record_seq. -/
def oldestHeld (s : State) (h : Nat) : Option JRec :=
  s.jrnl.held.find? fun r => decide (r.hub = h) && decide (r.seq = 0)

/-- A hub's oldest record reaches the driving hub: it takes the next record_seq and a place in the page, if it fits.
17_health.md R408. -/
def arriveRec (s : State) (h : Nat) : State :=
  match oldestHeld s h, nandHub s with
  | some r, some _ =>
    let f := s.jrnl.flash
    if ¬ f.writable ∨ 4096 < f.fillLen + r.length then s
    else
      let n := s.jrnl.nextSeq
      let mark := fun (x : JRec) => if x = r then { x with seq := n } else x
      modJrnl s fun j => { j with held := j.held.map mark, nextSeq := n + 1,
                                  flash := { j.flash with fill := j.flash.fill ++ [{ r with seq := n }] } }
  | _, _ => s

/-- JOURNAL_DROP once a path returns. 17_health.md R408. -/
def dropEvents (s : State) : State :=
  if ¬ journalPath s then s
  else
    let l := s.jrnl.dropped.eraseDups
    let s := modJrnl s fun j => { j with dropped := [] }
    l.foldl (fun s h => healthEvent s (32 + h) 7 (rg s .health_JOURNAL_DROPS)) s

/-- Programs every record held: pages are filled in the order of the hubs and programmed. 17_health.md R409. -/
def flushJournal : Nat → State → State
  | 0, s => s
  | n + 1, s =>
    match s.jrnl.held.find? fun r => decide (r.seq = 0) with
    | none => programPage s
    | some r =>
      let t := arriveRec s r.hub
      if t.jrnl.nextSeq = s.jrnl.nextSeq then
        let u := programPage s
        if u.jrnl.flash.fill.isEmpty ∧ ¬ s.jrnl.flash.fill.isEmpty then flushJournal n u else u
      else flushJournal n t

/-- A flush with room for every record held: each takes at most one arrival and one program. -/
def flushAll (s : State) : State := flushJournal (2 * s.jrnl.held.length + 2) s

/-- The bus changes hands: the new driver numbers on from the pages programmed, and the hubs send what they hold again.
17_health.md R408. -/
def busMoves (s : State) : State :=
  modJrnl s fun j =>
    { j with held := j.held.map fun r => { r with seq := 0 },
             flash := { j.flash with fill := [] }, nextSeq := j.flash.lastSeq + 1 }

/-- Mounts the journal at a start, formatting it the first time. 17_health.md R410 to R412. -/
def mountJournal (s : State) (n : NandFacts) : State :=
  if ¬ n.supported then modFlash s fun f => { f with mounted := false, supported := false }
  else
    let s := modFlash s fun f =>
      let f := { f with mounted := true, supported := true, endurance := n.endurance, eccCap := n.eccCap }
      if f.formatted then f else { f with nBlocks := journalBlocks n.blocks n.marked }.format
    modJrnl s fun j => { j with nextSeq := j.flash.lastSeq + 1 }

/-! ## Retiring blocks (17_health.md R413, R414) -/

/-- A FLASH record. 17_health.md R407. -/
def flashRecord (s : State) (blk cause : Nat) : State :=
  journal s ((nandHub s).getD 0) 0x33 (leBytes 4 blk ++ leBytes 1 cause)

/-- Gives a block's role to another block, and enters the first among the bad ones. 17_health.md R413. -/
def Flash.giveRole (f : Flash) (blk dst : Nat) : Flash :=
  let sub := fun (b : Nat) => if b = blk then dst else b
  { f with logBlocks := f.logBlocks.map sub, ring := f.ring.map sub, bad := f.bad ++ [blk],
           spares := f.spares.filter fun b => decide (b ≠ blk) }

/-- Refills a relocation role from the pool. 17_health.md R413 step 4. -/
def Flash.refillLog (f : Flash) (i : Nat) : Flash :=
  match f.takeSpare with
  | none => f
  | some (b, g) => g.setLog i b

/-- Whether a block has a role. -/
def Flash.hasRole (f : Flash) (blk : Nat) : Bool := f.logBlocks.contains blk || f.ring.contains blk

/-- Steps 2 to 4 of R413: the pages of a block move to LB2, or to LB3 where LB2 fails too, the block's role with them,
and spares refill the relocation blocks. -/
def Flash.relocate (f : Flash) (blk : Nat) (again : Bool) : Flash :=
  let via := if again then 3 else 2
  let dst := f.log via
  let move := fun (p : (Nat × Nat) × List JRec) => if p.1.1 = blk then ((dst, p.1.2), p.2) else p
  let g := { f with pages := f.pages.map move }
  let lb2 := g.log 2
  let g := g.giveRole blk dst
  let g := if again then { g with bad := g.bad ++ [lb2] } else g
  let g := g.checkpoint.refillLog 2
  (if again then g.refillLog 3 else g).checkpoint

/-- The blocks a relocation loses: the block, and LB2 when the relocation itself fails. -/
def lostBlocks (f : Flash) (blk : Nat) (again : Bool) : List Nat := if again then [blk, f.log 2] else [blk]

/-- A program of the present page fails: the block's pages and the failed page's records go to a relocation block.
17_health.md R413. -/
def programFails (s : State) (blk : Nat) (again : Bool) : State :=
  let f := s.jrnl.flash
  let lost := lostBlocks f blk again
  let head := decide (blk = f.log 0)
  let s := modFlash s fun x => x.relocate blk again
  let s := if head ∧ ¬ f.fill.isEmpty then
      let s := modFlash s fun x =>
        { x with pages := aset x.pages (x.log 0, x.headPage) x.fill, headPage := x.headPage + 1 }
      let s := programmed s
      if s.jrnl.flash.headPage < 64 then s else modFlash s Flash.switchHead
    else s
  let s := bumpBy s .health_PROGRAM_FAILS 0 lost.length
  settleFlash (lost.foldl (fun s b => flashRecord s b 0) s) f

/-- An erase fails: the block is retired and no data moves. 17_health.md R413. -/
def eraseFails (s : State) (blk : Nat) : State :=
  let f := s.jrnl.flash
  let s := modFlash s fun x => { x with spares := x.spares.filter fun b => decide (b ≠ blk), bad := x.bad ++ [blk] }.checkpoint
  settleFlash (flashRecord (bump s .health_ERASE_FAILS 0) blk 1) f

/-! ## Commands -/

/-- JOURNAL_RECORD_ARRIVAL. 17_health.md R408, R404. -/
def execJournalRecordArrival (hub : Hub) (s : State) : Next := .next (arriveRec (dropEvents s) hub.val)

/-- JOURNAL_FLUSH_EXPIRY: journal_flush_ms of the driving hub's local time after the page's first record. 17_health.md
R409. -/
def execJournalFlushExpiry (s : State) : Next :=
  match s.jrnl.flash.fill, nandHub s with
  | r :: _, some h =>
    .next (programPage (passTo s h (r.time + rg s .health_journal_flush_ms * 1000000)))
  | _, _ => .next s

/-- Whether the page being filled is full: no record fits any more, or the next one waiting does not. -/
def pageFull (s : State) : Bool :=
  let n := s.jrnl.flash.fillLen
  decide (4096 < n + 32) ||
    (s.jrnl.held.any fun r => decide (r.seq = 0) && decide (4096 < n + r.length))

/-- JOURNAL_PAGE_PROGRAM. 17_health.md R409. -/
def execJournalPageProgram (s : State) : Next := .next (if pageFull s then programPage s else s)

/-- NAND_PROGRAM_FAIL. 17_health.md R413. -/
def execNandProgramFail (block : Nat) (erase again : Bool) (s : State) : Next :=
  let f := s.jrnl.flash
  if ! journalPath s then .next s
  else if erase then .next (if f.spares.contains block then eraseFails s block else s)
  else .next (if f.hasRole block then programFails s block again else s)

/-! ## The journal window (17_health.md R414, R419) -/

/-- The page that holds a record. -/
def pageWith (f : Flash) (seq : Nat) : Option (Nat × Nat) :=
  (f.pages.find? fun p => p.2.any fun r => decide (r.seq = seq)).map fun p => p.1

/-- record_seq the window is to show. -/
def jrSeq (s : State) : Nat := rg s .health_jr_seq_lo + rg s .health_jr_seq_hi * 2 ^ 32

/-- Starts the load of a record into the window. -/
def loadRecord (s : State) : State := modHost s fun h => { h with jrStatus := 1 }

/-- JOURNAL_RECORD_LOAD: writing jr_seq_hi starts the load, under 14_host.md R321. 17_health.md R419. -/
def execJournalRecordLoad (s : State) : Next :=
  if pfSession s then .next (loadRecord s) else .next (writeRefused s (primaryPort s))

/-- Relocates a block after a read. 17_health.md R414. -/
def readRelocate (s : State) (blk cause : Nat) : State :=
  let f := s.jrnl.flash
  if ! f.writable then s
  else settleFlash (flashRecord (modFlash s fun x => x.relocate blk false) blk cause) f

/-- JOURNAL_RECORD_LOADED: the read of the record's page ends with bits corrected by the on-die ECC, or as
uncorrectable. 17_health.md R414, R419. -/
def execJournalRecordLoaded (corrected : Nat) (uncorrectable : Bool) (s : State) : Next :=
  if s.host.jrStatus ≠ 1 then .next s
  else
    let f := s.jrnl.flash
    let gone := fun (s : State) => modHost s fun h => { h with jrStatus := 2 }
    match pageWith f (jrSeq s), nandHub s with
    | some pg, some _ =>
      if ! f.mounted then .next (gone s)
      else if uncorrectable then
        let s := modFlash s fun x => { x with pages := adel x.pages pg }
        .next (gone (readRelocate (bump s .health_READ_UNCORRECTABLE 0) pg.1 3))
      else
        let r := (f.recs.find? fun r => decide (r.seq = jrSeq s))
        let s := modHost s fun h => { h with jrStatus := 0, jrWin := (r.map JRec.bytes).getD [] }
        if 0 < f.eccCap ∧ 3 * f.eccCap ≤ 4 * corrected then
          .next (readRelocate (bump s .health_READ_REFRESHES 0) pg.1 2)
        else .next s
    | _, _ => .next (gone s)

/-! ## Histograms and metering (17_health.md R405, R416 to R418) -/

/-- Payload of a HISTOGRAM record. 17_health.md R407. -/
def histPayload (s : State) (d : Nat) : List Byte :=
  let h := s.health
  let ins := if nandHub s = some (d - 32) ∧ 32 ≤ d then (List.range 22).map fun b => agetD h.inputs b 0
    else List.replicate 22 0
  leBytes 4 d ++ ((List.range 32).map fun b => leBytes 4 (agetD h.temps (d, b) 0)).flatten ++
    ((List.range 32).map fun b => leBytes 4 (agetD h.volts (d, b) 0)).flatten ++ (ins.map (leBytes 4)).flatten

/-- A metering record in a byte order. 17_health.md R416, 00_scope.md R7. -/
def Meter.wire (be : Bool) (m : Meter) : List Byte :=
  put be 8 m.pageMs ++ put be 8 m.sramMs ++ put be 8 m.scanned ++ put be 8 m.skipped ++ put be 8 m.bytesIn ++
    put be 8 m.bytesOut ++ put be 8 m.merges ++ put be 4 m.nonFinite ++ put be 4 m.keyMiss

/-- The bytes of a metering record in memory. 17_health.md R416. -/
def Meter.bytes (m : Meter) : List Byte := m.wire false

/-- The record its bytes name. -/
def Meter.parse (b : List Byte) : Meter :=
  let f := fun o n => fld false b o n
  ⟨f 0 8, f 8 8, f 16 8, f 24 8, f 32 8, f 40 8, f 48 8, f 56 4, f 60 4⟩

/-- A metering record that has counted nothing. -/
def meter0 : Meter := ⟨0, 0, 0, 0, 0, 0, 0, 0, 0⟩

/-- Payload of a METER record: at most 59 tenants. 17_health.md R407. -/
def meterPayload (l : List (Nat × Meter)) : List Byte :=
  leBytes 4 l.length ++ (l.map fun p => leBytes 2 p.1 ++ zeros 2 ++ p.2.bytes).flatten

/-- Every tenant's record in METER records. 17_health.md R418. -/
def journalMeters (s : State) : State :=
  let l := s.health.meters.filter fun p => decide (p.2 ≠ meter0)
  let h := (nandHub s).getD 0
  (pieces (l.length / 59 + 1) 59 l).foldl (fun s g => if g.isEmpty then s else journal s h 0x31 (meterPayload g)) s

/-- Every histogram and metering record into the journal. 17_health.md R405, R418. -/
def histFlush (s : State) : State :=
  journalMeters ((List.range 40).foldl (fun s d => journal s (dieHub s d) 0x30 (histPayload s d)) s)

/-- HIST_FLUSH. 17_health.md R405, R418. -/
def execHistFlush (s : State) : Next := .next (histFlush s)

/-- Tenants that hold page slots or SRAM. -/
def heldTenants (s : State) : List Nat :=
  let l := (s.mem.slots.map fun p => p.2.tenant) ++ (s.mem.sram.map fun p => p.use.tenant) ++
    (s.seqs.descs.map fun p => p.2.tenant)
  (l.filter fun t => decide (0 < t)).eraseDups

/-- METER_SAMPLE: at a whole millisecond of the driving hub's local time. 17_health.md R417. -/
def execMeterSample (s : State) : Next :=
  match nandHub s with
  | none => .next s
  | some h =>
    let s := passTo s h ((now s h / 1000000 + 1) * 1000000)
    .next ((heldTenants s).foldl (fun s t =>
      let p := slotUsed s t
      let r := sramUsed s t
      modMeter s t fun m => { m with pageMs := (m.pageMs + p) % 2 ^ 64, sramMs := (m.sramMs + r) % 2 ^ 64 }) s)

/-- Histograms and metering resume from the newest records of the journal. 17_health.md R405, R418. -/
def resumeHealth (s : State) : State :=
  let l := s.jrnl.flash.recs
  let die := fun (s : State) (d : Nat) =>
    match newestRec l fun r => decide (r.type = 0x30) && decide (fld false r.payload 0 1 = d) with
    | none => s
    | some r =>
      let f := fun o => fld false r.payload o 4
      modHealth s fun h => { h with
        temps := (List.range 32).foldl (fun m b => aset m (d, b) (f (4 + 4 * b))) h.temps,
        volts := (List.range 32).foldl (fun m b => aset m (d, b) (f (132 + 4 * b))) h.volts }
  let s := (List.range 40).foldl die s
  let s := match newestRec l fun r => decide (r.type = 0x30) &&
      ((List.range 22).any fun b => decide (fld false r.payload (260 + 4 * b) 4 ≠ 0)) with
    | none => s
    | some r => modHealth s fun h =>
        { h with inputs := (List.range 22).map fun b => (b, fld false r.payload (260 + 4 * b) 4) }
  let ms := sortBy (fun r => r.seq) (l.filter fun r => decide (r.type = 0x31))
  ms.foldl (fun s r => (List.range (fld false r.payload 0 4)).foldl (fun s i =>
    let o := 4 + 68 * i
    modHealth s fun h =>
      { h with meters := aset h.meters (fld false r.payload o 2) (Meter.parse (takeBytes r.payload (o + 4) 64)) }) s) s

end Sys2Proof.Machine
end

