-- ==== Sys2Proof/Machine/Power.lean ====
section
/-!
DEFINITION. Rails, the standby controller, resets of the dies, board inputs, thermal trip and the test access port.
18_package.md R427 to R443.
-/
namespace Sys2Proof.Machine

/-! ## Loss of the dies' state (18_package.md R428, R435) -/

/-- A bank as the start finds it: only blown fuses stay. 08_memory.md R196. -/
def coldBank (b : Bank) : Bank := ⟨.off, 0, false, b.fused, [], false⟩

/-- A slice and a hub as their die's state is lost: the unit generation, which the Bay journal records, stays (assumption 148).
12_ledger.md R270. -/
def coldSlice (x : SliceSt) (r : SliceSt) : SliceSt := { r with unitGen := x.unitGen }
def coldHub (x : HubSt) (r : HubSt) : HubSt := { r with unitGen := x.unitGen }

/-- Every die loses its state: what lies in serial NAND, in fuses and in the standby controller stays.
18_package.md R428, R435; 16_lifecycle.md R379, 12_ledger.md R270. -/
def loseDies (s : State) : State :=
  let r := State.reset
  { r with
    pending := s.pending, out := s.out, freeCtr := s.freeCtr, nextId := s.nextId,
    mem := { r.mem with banks := (s.mem.banks.filter fun p => ! p.2.fused.isEmpty).map fun p => (p.1, coldBank p.2),
                        rowFix := s.mem.rowHard, rowHard := s.mem.rowHard },
    trust := { r.trust with fuses := s.trust.fuses, pskNand := s.trust.pskNand, svnMin := s.trust.svnMin },
    life := { r.life with part := s.life.part, slot := s.life.slot, cfg := s.life.cfg, binding := s.life.binding,
                          bundles := s.life.bundles, dieFw := s.life.dieFw, staged := s.life.staged, kgm := s.life.kgm, boot := s.life.boot,
                          member := s.life.member, nodeGen := s.life.nodeGen, leftEpoch := s.ledg.newest,
                          slices := s.life.slices.map fun p => (p.1, coldSlice p.2 (sliceSt r p.1)),
                          hubs := s.life.hubs.map fun p => (p.1, coldHub p.2 (hubSt r p.1)) },
    jrnl := { r.jrnl with flash := { s.jrnl.flash with mounted := false, fill := [] },
                          nextSeq := s.jrnl.flash.lastSeq + 1 },
    power := { s.power with diesOut := false, drainSoft := false, pcieUp := [false, false],
                              pcieLink := [(0, 0), (0, 0)], pcieLost := [false, false] },
    taps := s.taps }

/-- PWROK goes low and the internal rails go off. 18_package.md R428. -/
def railsOff (s : State) : State :=
  setTaps (modPower (loseDies s) fun p => { p with rails := false, pwrok := false }) []

/-- Whether the regulators run: both inputs valid, no latched rail fault or trip. 18_package.md R427, R428, R438. -/
def railsMayRise (s : State) : Bool :=
  let p := s.power
  p.vsb33 && p.vin48 && ! p.railFault && p.trip.isNone

/-- A trip: THERMTRIP# is latched with die and reading and the rails go off. 18_package.md R438. -/
def tripDie (s : State) (die : Nat) (t : Int) : State :=
  railsOff (modPower s fun p => { p with trip := some (die, t), tripRec := some (die, t) })

/-- VSB33 out of its limits, with VIN48 present a loss of VIN48. 18_package.md R428. -/
def vsb33Lost (s : State) : State :=
  let s := modPower s fun p => { p with vsb33 := false }
  if s.power.vin48 then railsOff s else s

/-- VSB33_VALID: the standby controller starts with PWROK low and DRAIN# armed; a DRAIN# that is low yields one event at
once, which is held. 18_package.md R427 step 1, R431, R434. -/
def execVsb33Valid (drainLow : Bool) (s : State) : Next :=
  if s.power.vsb33 then .next s
  else .next (modPower s fun p =>
    { p with vsb33 := true, pwrok := false, drainArmed := ! drainLow, drainHeld := p.drainHeld || drainLow })

/-- VSB33_LOSS. 18_package.md R428. -/
def execVsb33Loss (s : State) : Next := .next (if s.power.vsb33 then vsb33Lost s else s)

/-- VSB33_REMOVED: the trip latch clears and a held DRAIN event is lost. 18_package.md R434, R438. -/
def execVsb33Removed (s : State) : Next :=
  let s := if s.power.vsb33 then vsb33Lost s else s
  .next (modPower s fun p => { p with trip := none, drainHeld := false, drainPin := false, drainArmed := false })

/-- VIN48_VALID: the input stands within its steady limits of 40 V to 60 V and the regulators may run. Below them
nothing has reached its limits; above them the device defines no behaviour (00_scope.md R6). 18_package.md R425, R427
step 2. -/
def execVin48Valid (mv : Nat) (s : State) : Next :=
  if 60000 < mv then .fault .outsideLimits
  else if mv < 40000 then .next s
  else .next (modPower s fun p => { p with vin48 := true })

/-- RAILS_IN_REGULATION: PWROK is released. 18_package.md R427 step 3. -/
def execRailsInRegulation (s : State) : Next :=
  if railsMayRise s then .next (modPower s fun p => { p with rails := true, pwrok := true }) else .next s

/-- VIN48_UNDERVOLTAGE: PWROK low, rails off, every die's state lost; a rail fault is over. 18_package.md R428. -/
def execVin48Undervoltage (s : State) : Next :=
  .next (railsOff (modPower s fun p => { p with vin48 := false, railFault := false }))

/-- RAIL_FAULT. 18_package.md R428. -/
def execRailFault (s : State) : Next :=
  if s.power.rails then .next (railsOff (modPower s fun p => { p with railFault := true })) else .next s

/-- RESET_ASSERT: the dies are held in reset and lose their state, the rails stay up; a latched rail fault is over.
18_package.md R428, R435. -/
def execResetAssert (s : State) : Next :=
  let s := if s.power.diesOut then loseDies s else s
  .next (modPower s fun p => { p with resetLow := true, railFault := false })

/-! ## THROTTLE# and DRAIN# (18_package.md R431 to R434) -/

/-- THROTTLE_ASSERT. 18_package.md R432. -/
def execThrottleAssert (s : State) : Next :=
  let s := modPower s fun p => { p with throttle := true }
  .next (if s.power.diesOut then settleLevels s else s)

/-- THROTTLE_RELEASE. 18_package.md R432. -/
def execThrottleRelease (s : State) : Next :=
  let s := modPower s fun p => { p with throttle := false }
  .next (if s.power.diesOut then settleLevels s else s)

/-- Whether a drain is latched: by the pin, by software, or an event held from before the start. -/
def drainLatched (s : State) : Bool := s.power.drainPin || s.power.drainSoft

/-- Whether lc_op SHUTDOWN runs. -/
def shuttingDown (s : State) : Bool :=
  match s.life.op with
  | some o => decide (o.op = 7)
  | none => false

/-- The node drains: in service it becomes DRAINING. 18_package.md R433 step 2. -/
def startDraining (s : State) : State :=
  if s.life.node = 2 then modLife s fun l => { l with node := 3 } else s

/-- With both latches released the node returns to IN_SERVICE, unless it shuts down. 18_package.md R433 step 5, R434. -/
def endDraining (s : State) : State :=
  if s.life.node = 3 ∧ ¬ drainLatched s ∧ ¬ shuttingDown s then modLife s fun l => { l with node := 2 } else s

/-- What a drain event of the pin does in each node state. 18_package.md R434. -/
def takeDrain (s : State) : State :=
  if s.life.node = 0 ∨ ¬ s.power.diesOut then modPower s fun p => { p with drainHeld := true }
  else if s.life.node = 2 ∨ s.life.node = 3 then startDraining (modPower s fun p => { p with drainPin := true })
  else s

/-- DRAIN_EVENT: an armed DRAIN# yields one event and is disarmed. 18_package.md R431, R433, R434. -/
def execDrainEvent (s : State) : Next :=
  if s.power.vsb33 ∧ s.power.drainArmed then .next (takeDrain (modPower s fun p => { p with drainArmed := false }))
  else .next s

/-- DRAIN_REARM: DRAIN# re-arms, a held event and the pin's drain are released. 18_package.md R431, R433, R434. -/
def execDrainRearm (s : State) : Next :=
  if s.power.vsb33 then
    .next (endDraining (modPower s fun p => { p with drainArmed := true, drainHeld := false, drainPin := false }))
  else .next s

/-! ## Test access port (18_package.md R442, R443) -/

/-- A die's port with its values after TRST#. -/
def tapOf (s : State) (d : Nat) : Tap := agetD s.taps d ⟨.idcode, [], 0#64, 0#64⟩

/-- Changes a die's port. -/
def modTap (s : State) (d : Nat) (f : Tap → Tap) : State := setTaps s (aset s.taps d (f (tapOf s d)))

/-- The low n bits of a number, bit 0 first. -/
def bitList (n v : Nat) : List Bool := (List.range n).map fun i => bit1 v i

/-- Identification code of a die, stepping B0. 18_package.md R442. -/
def idcode (d : Nat) : Nat := if d < 32 then 0xB43209C7 else 0xB43219C7

/-- BYPASS in force: the register of one bit shifts out the 0 it captured. -/
def tapBypass (s : State) (d : Nat) : State := emit (modTap s d fun t => { t with instr := .bypass }) (.tdo d [false])

/-- Runs an instruction of a powered port: while RESET# is high every instruction but BYPASS and IDCODE acts as BYPASS.
18_package.md R442. -/
def tapRun (s : State) (d : Nat) (free : Bool) (f : State → State) : Next :=
  if ¬ s.power.rails then .next s
  else if free ∨ s.power.resetLow then .next (f s)
  else .next (tapBypass s d)

/-- BYPASS. 18_package.md R442. -/
def execBypass (die : Die) (s : State) : Next := tapRun s die.val true fun s => tapBypass s die.val

/-- IDCODE. 18_package.md R442. -/
def execIdcode (die : Die) (s : State) : Next :=
  tapRun s die.val true fun s =>
    emit (modTap s die.val fun t => { t with instr := .idcode }) (.tdo die.val (bitList 32 (idcode die.val)))

/-- SAMPLE_PRELOAD: the cells sample the lands, which shift out, and take the values shifted in. 18_package.md R442. -/
def execSamplePreload (die : Die) (lands preload : List Bool) (s : State) : Next :=
  tapRun s die.val false fun s =>
    emit (modTap s die.val fun t => { t with instr := .samplePreload, cells := preload }) (.tdo die.val lands)

/-- EXTEST: the cells drive the lands, and what the lands carry is captured and shifts out. 18_package.md R442. -/
def execExtest (die : Die) (lands : List Bool) (s : State) : Next :=
  tapRun s die.val false fun s =>
    emit (modTap s die.val fun t => { t with instr := .extest }) (.tdo die.val lands)

/-- CLAMP: the cells hold the outputs with the bypass register selected. 18_package.md R442. -/
def execClamp (die : Die) (s : State) : Next :=
  tapRun s die.val false fun s =>
    emit (modTap s die.val fun t => { t with instr := .clamp }) (.tdo die.val [false])

/-- HIGHZ: the outputs are in high impedance with the bypass register selected. 18_package.md R442. -/
def execHighz (die : Die) (s : State) : Next :=
  tapRun s die.val false fun s =>
    emit (modTap s die.val fun t => { t with instr := .highz }) (.tdo die.val [false])

/-- Whether a die has a unit of the margin_sel numbering. 17_health.md R399. -/
def unitExists (d u : Nat) : Bool :=
  if d < 32 then decide (u ≤ 66)
  else decide (u ≤ 7) || (decide (8 ≤ u) && decide (u ≤ 23) && (decide (d = 32) || decide (d = 36))) ||
    (decide (32 ≤ u) && decide (u ≤ 49))

/-- The register after a write of data to a unit that exists: control bits as written, locked and error_count as before,
error_count 0 where chk_en is written 1. 18_package.md R443. -/
def testReg (old data : BitVec 64) : BitVec 64 :=
  let o := old.toNat
  let d := data.toNat
  let errs := if bit1 d 12 then 0 else bits o 47 16
  BitVec.ofNat 64 (bits d 12 0 + errs * 65536)

/-- What a test register captures: while its checker runs, locked and error_count are what the link gives, which the
spec leaves open (assumption 37). -/
def testCapture (s : State) (r : BitVec 64) : BitVec 64 × State :=
  if bit1 r.toNat 12 then
    let v := (fresh s).1
    (BitVec.ofNat 64 (bits r.toNat 12 0 + bits v 0 0 * 8192 + bits v 32 1 * 65536), (fresh s).2)
  else (r, s)

/-- LINKTEST. 18_package.md R442, R443. -/
def execLinktest (die : Die) (data : BitVec 64) (s : State) : Next :=
  tapRun s die.val false fun s =>
    if unitExists die.val (bits data.toNat 7 0) then
      let (c, s) := testCapture s (tapOf s die.val).linktest
      emit (modTap s die.val fun t => { t with instr := .linktest, linktest := testReg c data })
        (.tdo die.val (bitList 64 c.toNat))
    else emit (modTap s die.val fun t => { t with instr := .linktest }) (.tdo die.val (bitList 64 0))

/-- HBMLOOP: pseudo-channels 0 to 63 of a slice. 18_package.md R442, R443. -/
def execHbmloop (die : Die) (data : BitVec 64) (s : State) : Next :=
  tapRun s die.val false fun s =>
    if die.val < 32 ∧ bits data.toNat 7 0 < 64 then
      let (c, s) := testCapture s (tapOf s die.val).hbmloop
      emit (modTap s die.val fun t => { t with instr := .hbmloop, hbmloop := testReg c data })
        (.tdo die.val (bitList 64 c.toNat))
    else emit (modTap s die.val fun t => { t with instr := .hbmloop }) (.tdo die.val (bitList 64 0))

/-- TAP_RESET: every port takes IDCODE. 18_package.md R442. -/
def execTapReset (s : State) : Next :=
  .next (setTaps s (s.taps.map fun p => (p.1, { p.2 with instr := .idcode })))

end Sys2Proof.Machine
end

