-- ==== Sys2Proof/Machine/Mgmt.lean ====
section
/-!
DEFINITION. The management class: its header, operator sessions and their sealed messages, and the primary Lovage they
run at. 15_trust.md R342, R343, R351 to R353.
-/
namespace Sys2Proof.Machine

/-! ## The primary Lovage -/

/-- Changes a Lovage. -/
def modLov (s : State) (h : Nat) (f : Lovage → Lovage) : State :=
  modTrust s fun t => { t with lov := aset t.lov h (f (lovOf s h)) }

/-- The hub whose Lovage is primary, of the newest term. 15_trust.md R342. -/
def primaryLov (s : State) : Option Nat :=
  ((List.range 8).filter fun h => hubAlive s h && (lovOf s h).isPrimary).foldl (fun b h =>
    match b with
    | none => some h
    | some x => if (lovOf s x).term < (lovOf s h).term then some h else some x) none

/-! ## Messages (15_trust.md R351) -/

/-- A MGMT header. 15_trust.md R351. -/
structure MgmtHdr where
  ver : Nat
  op  : Nat
  sid : Nat
  seq : Nat
  deriving DecidableEq, Repr

/-- The header a payload begins with. -/
def MgmtHdr.parse (be : Bool) (b : List Byte) : MgmtHdr :=
  ⟨fld be b 0 1 % 16, fld be b 1 1, fld be b 4 4, fld be b 8 8⟩

/-- The header of an answer. -/
def mgmtHead (be : Bool) (op : Nat) (st : Status) (sid seq : Nat) : List Byte :=
  put be 1 1 ++ put be 1 op ++ put be 1 st.code ++ zeros 1 ++ put be 4 sid ++ put be 8 seq

/-- Op codes. 15_trust.md R352. -/
def opGetCerts : Nat := 0x01
def opAttest : Nat := 0x02
def opSessionOpen : Nat := 0x10
def opSessionAuth : Nat := 0x11
def opSessionClose : Nat := 0x12
def opRegRead : Nat := 0x20
def opRegWrite : Nat := 0x21
def opConfigDelta : Nat := 0x30
def opProgramLoad : Nat := 0x31
def opFirmware : Nat := 0x32
def opLegacyPsk : Nat := 0x33
def opTenantView : Nat := 0x40

/-- The codes of R352. -/
def mgmtOps : List Nat := [0x01, 0x02, 0x10, 0x11, 0x12, 0x20, 0x21, 0x30, 0x31, 0x32, 0x33, 0x40]

/-- Answers a MGMT request in the clear. -/
def mgmtAnswer (s : State) (id : Nat) (m : Msg) (st : Status) (body : List Byte) : State :=
  let h := MgmtHdr.parse m.be m.payload
  answer s id .mgmt st 0 (mgmtHead m.be h.op st h.sid 0 ++ body)

/-- Whether a request is one that RECOVERY answers without a primary and without a session: GET_CERTS, ATTEST, and CONFIG_DELTA
of kind IMAGE, through the primary port's PF. 16_lifecycle.md R378. -/
def recoveryOp (s : State) (m : Msg) (h : MgmtHdr) : Bool :=
  decide (s.life.node = 1) && decide (m.origin = .pcie (primaryPort s) 0 (match m.origin with
    | .pcie _ _ k => k
    | _ => 0)) &&
    (decide (h.op = opGetCerts) || decide (h.op = opAttest) ||
      (decide (h.op = opConfigDelta) && decide (h.sid = 0) && decide (fld false m.payload 17 1 = 1)))

/-- Runs a MGMT op on a message whose turn has come. Without a primary every request receives BUSY, but for what RECOVERY
answers; a format version other than 1 or a code R352 does not list is refused with VERSION. 15_trust.md R342, R352,
16_lifecycle.md R378. -/
def mgmtRun (s : State) (id op : Nat) (f : State → Msg → MgmtHdr → State) : Next :=
  match mayStart s id .mgmt with
  | none => .next s
  | some m =>
    let h := MgmtHdr.parse m.be m.payload
    if mgmtOps.contains h.op ∧ h.op ≠ op then .next s
    else if (primaryLov s).isNone ∧ ! recoveryOp s m h then .next (mgmtAnswer s id m .busy [])
    else if h.ver ≠ 1 ∨ ¬ mgmtOps.contains h.op then .next (mgmtAnswer s id m .version [])
    else .next (f s m h)

/-! ## Sessions (15_trust.md R351, R353) -/

/-- The channel a message came on. -/
def chanOf (m : Msg) : Option Channel :=
  match m.origin with
  | .conn h i _ => some (.conn h i)
  | .pcie p f _ => some (.pcie p f)
  | .device => none

/-- Channel bytes of the signature of SESSION_AUTH: connection ID and peer endpoint, or port and function. 15_trust.md
R353. -/
def chanBytes (s : State) : Channel → List Byte
  | .conn _ i => match connOf s i with
    | some c => beBytes 4 c.id ++ beBytes 3 c.peer
    | none => []
  | .pcie p f => beBytes 1 p ++ beBytes 1 f

/-- The session with an identifier. -/
def sessionOf (s : State) (sid : Nat) : Option Session := s.trust.sessions.find? fun x => decide (x.id = sid)

/-- Changes a session. -/
def modSession (s : State) (sid : Nat) (f : Session → Session) : State :=
  modTrust s fun t => { t with sessions := t.sessions.map fun x => if x.id = sid then f x else x }

/-- Ends a session. -/
def endSession (s : State) (sid : Nat) : State :=
  modTrust s fun t => { t with sessions := t.sessions.filter fun x => decide (x.id ≠ sid) }

/-- GCM nonce of a session message: direction bit, then session_seq, in 12 bytes. 15_trust.md R351. -/
def mgmtNonce (dir : Bool) (seq : Nat) : List Byte := beBytes 12 ((if dir then 2 ^ 95 else 0) + seq)

/-- The primary's local time, hub 0's without one. -/
def primaryNow (s : State) : Nat := now s ((primaryLov s).getD 0)

/-- Counts at the primary. -/
def bumpPrimary (s : State) (r : Reg) : State := bump s r ((primaryLov s).getD 0)

/-- The body of a sealed message without taking it: session and plain text, or the status of its refusal and whether the
session ends. 15_trust.md R351 to R353. -/
def peekSealed (s : State) (m : Msg) : Except (Status × Bool) (Session × List Byte) :=
  let h := MgmtHdr.parse m.be m.payload
  if h.sid = 0 then .error (.pdMismatch, false)
  else
    match sessionOf s h.sid with
    | none => .error (.notFound, false)
    | some x =>
      if chanOf m ≠ some x.chan ∨ ! x.authed then .error (.notFound, false)
      else if h.seq ≠ x.seqIn + 1 then .error (.notFound, true)
      else
        match Config.gcmOpen x.key (mgmtNonce false h.seq) (m.payload.take 16) (m.payload.drop 16) with
        | none => .error (.notFound, true)
        | some b => .ok (x, b)

/-- Takes a sealed message: the session's sequence number and its time of last use follow it. -/
def takeSealed (s : State) (x : Session) (seq : Nat) : State :=
  modSession s x.id fun y => { y with seqIn := seq, lastAt := primaryNow s }

/-- Answers a sealed message under the session's key. 15_trust.md R351. -/
def sealedAnswer (s : State) (id : Nat) (m : Msg) (sid : Nat) (st : Status) (body : List Byte) : State :=
  match sessionOf s sid with
  | none => mgmtAnswer s id m st []
  | some x =>
    let h := MgmtHdr.parse m.be m.payload
    let hd := mgmtHead m.be h.op st sid (x.seqOut + 1)
    let s := modSession s sid fun y => { y with seqOut := y.seqOut + 1 }
    answer s id .mgmt st 0 (hd ++ Config.gcmSeal x.key (mgmtNonce true (x.seqOut + 1)) hd body)

/-- Runs a session op: the body once the message opens. A pick may leave the message for another row. -/
def sessionRun (s : State) (id op : Nat) (pick : List Byte → Bool)
    (f : State → Msg → Session → List Byte → State) : Next :=
  mgmtRun s id op fun s m h =>
    match peekSealed s m with
    | .error (st, ends) =>
      let s := if ends then endSession (bumpPrimary s .lov_SESSION_FAILS) h.sid else s
      mgmtAnswer s id m st []
    | .ok (x, b) => if pick b then f (takeSealed s x h.seq) m x b else s

/-- The primary changes: every operator session ends, a MGMT request in progress receives BUSY, a delta that is not committed
is lost, and the count of reports starts anew on the next primary's clock. 15_trust.md R343, R349, 16_lifecycle.md R374,
12_ledger.md R269. -/
def primaryGone (s : State) : State :=
  let s := modTrust s fun t => { t with sessions := [], reports := (0, 0) }
  let ids := (s.msgs.filter fun p => decide (p.2.opcode = .mgmt) && ! p.2.resp && decide (p.2.phase = .waitCommit)).map (·.1)
  let s := ids.foldl (fun s id =>
    match msgOf s id with
    | some m => mgmtAnswer s id m .busy []
    | none => s) s
  match s.life.job with
  | some j => if j.image then s else modLife s fun l => { l with job := none }
  | none => s

/-- A primary steps down. 15_trust.md R342. -/
def stepDown (s : State) (h : Nat) : State :=
  if (lovOf s h).isPrimary then
    primaryGone (modLov s h fun x => { x with isPrimary := false, primary := none })
  else s

end Sys2Proof.Machine
end

