-- ==== Sys2Proof/Machine/Live.lean ====
section
/-!
DEFINITION. Die-to-die links, loss of hubs and slices, and the live operations of the lifecycle block with the work an
idle step does for them. 01_node.md R13 to R21; 16_lifecycle.md R382 to R395.
-/
namespace Sys2Proof.Machine

/-! ## Links and homes (01_node.md R13, R15, R17, R20) -/

/-- The home a slice takes: its primary hub, else its secondary hub; none where neither can be reached.
01_node.md R13, R20. -/
def pickHome (s : State) (k : Nat) : Option Nat :=
  let q := k / 4
  let n := (q + 1) % 8
  if hubOk s q ∧ linkUp s k (32 + q) then some q
  else if hubOk s n ∧ linkUp s k (32 + n) then some n
  else none

/-- Page slots whose home lies in a slice. 09_chive.md R215. -/
def slicePages (s : State) (k : Nat) : List Nat :=
  (s.mem.slots.filter fun p => decide (lpnSlice p.1 = k) && decide (p.2.kind = .page)).map (·.1)

/-- The prefix-root row of the page with a header. 03_sequences.md R65. -/
def pageRow (h : Hdr) (lpn : Nat) : ChiveRow :=
  ⟨prefixKey h.tenant (lpnSlice lpn) h.key, clsPrefix, 0, lpn + h.gen * 2 ^ 32⟩

/-- The prefix-root rows of the keyed ones of some pages, from headers read through the word code; a header that cannot be
read gives none. 09_chive.md R213, R215, 08_memory.md R180, R181. -/
def readRows (lpns : List Nat) (s : State) : State × List ChiveRow :=
  lpns.foldl (fun (acc : State × List ChiveRow) lpn =>
    match loadHdr acc.1 lpn readUnit with
    | (s, some h) => (s, if h.sealed ∧ h.keyed then acc.2 ++ [pageRow h lpn] else acc.2)
    | (s, none) => (s, acc.2)) (s, [])

/-- The prefix-root rows of a slice's pages that a hub holds, in its block rows and its overflow table. -/
def prefixRowsOf (s : State) (h k : Nat) : List ChiveRow :=
  ((s.chive.shadow.filter fun p => decide (p.1.1 = h)).map (·.2) ++ (otRows s h clsPrefix).map (·.2)).filter fun r =>
    decide (r.cls = clsPrefix) && decide (lpnSlice (r.value % 2 ^ 32) = k)

/-- Takes a slice's prefix-root rows out of a hub's index. -/
def dropPrefixRows (s : State) (h k : Nat) : State :=
  (prefixRowsOf s h k).foldl (fun s r => delete s h clsPrefix r.key 0) s

/-- The local times kept for a slice start anew on its new home hub's: times of two hubs are never compared. 12_ledger.md
R269 (assumption 157). -/
def restampSlice (s : State) (k : Nat) : State :=
  let t := now s (homeHub s k)
  let s := modLedg s fun y => { y with exts := y.exts.map fun p =>
    if p.1.1 = k ∧ p.2.state = .closing then (p.1, { p.2 with drainEnd := t + p.2.drainUs * 1000 }) else p }
  let s := modSeqs s fun q =>
    { q with tails := q.tails.map fun p => if p.2.slice = k then (p.1, { p.2 with lastRow := t }) else p,
             sealQ := q.sealQ.map fun it => if it.slice = k then { it with tried := t } else it }
  modMem s fun m => { m with opens := m.opens.filter fun p => decide (lpnSlice p.1 ≠ k),
                             promo := m.promo.map fun p => if lpnSlice p.1 = k then (p.1, { p.2 with opened := t }) else p }

/-- The local times of a home hub's entries start anew on the clock of the hub that answers for it. 12_ledger.md R269
(assumption 157). -/
def restampDir (s : State) (q : Nat) : State :=
  let t := homeNow s q
  modLedg s fun y => { y with dir := y.dir.map fun p =>
    if p.1.1 = q then
      let lease := (Owner.parse p.2.content).lease * 1000
      (p.1, { p.2 with grantTime := t, leaseEnd := if p.2.leaseEnd = 0 then 0 else t + lease,
                       pub := p.2.pub.map fun x => { x with at_ := t } })
    else p }

/-- Gives a slice another home: its waiting commands are aborted (07_dill.md R146), and the new home hub has the
headers of its pages to scan (09_chive.md R215). -/
def moveHome (s : State) (k : Nat) (dest : Option Nat) : State :=
  let old := (sliceSt s k).home
  if old = dest then s
  else
    let s := match old with
      | some h => if hubAlive s h then dropPrefixRows s h k else s
      | none => s
    let s := restampSlice (abortCmds (modSlice s k fun x => { x with home := dest }) k) k
    match dest with
    | some h => modChive s fun c => { c with scan := aupd c.scan h [] fun l => l ++ slicePages s k }
    | none => s

/-- A slice whose home hub or link is lost takes another home. 01_node.md R20. -/
def rehome (s : State) (k : Nat) : State :=
  match (sliceSt s k).home with
  | none => s
  | some h => if hubAlive s h ∧ linkUp s k (32 + h) then s else moveHome s k (pickHome s k)

/-- Every slice whose home is lost takes another. -/
def rehomeAll (s : State) : State := (List.range 32).foldl rehome s

/-- A link goes down in both directions. 01_node.md R15, R20. -/
def linkDown (s : State) (a b : Nat) : State :=
  rehomeAll (modLink (modLink s a b fun l => { l with up := false }) b a fun l => { l with up := false })

/-- LINK_REPLAY: a word arrives over a link; an uncorrectable one is discarded and asked for again, and a third replay
that fails takes the link down. 01_node.md R15, 08_memory.md R179, R184. -/
def execLinkReplay (link : LinkId) (word : BitVec 144) (s : State) : Next :=
  let a := link.src.val
  let b := link.dst.val
  if ! linkExists a b || ! linkUp s a b then .next s
  else
    let w := word.toNat % 2 ^ 128
    let syn := wordSyn w (word.toNat / 2 ^ 128)
    let sy := syn.1 + 16 * syn.2.1 + 256 * syn.2.2.1 + 4096 * syn.2.2.2
    let keep := fun (s : State) (v : Nat) =>
      modLink s a b fun l => { l with fails := 0, pending := false, words := (BitVec.ofNat 128 v :: l.words).take 256 }
    match decodeSyn syn with
    | .clean => .next (keep s w)
    | .corrected nib err =>
      let s := bump s .mem_CORRECTED b
      let s := modDie s b fun x => { x with corrLink := satAdd x.corrLink 1 }
      .next (keep (logErr s (errRec s 4 false nib sy b 5 0)) (flipNib w nib err))
    | .uncorrectable =>
      let r := errRec s 4 true 0xFF sy b 5 0
      let s := bump s .mem_UNCORRECTABLE b
      let s := modDie s b fun x => { x with uncLink := min (x.uncLink + 1) 0xFFFF }
      let s := journal (logErr s r) (dieHub s b) 0x10 r.bytes
      let s := healthEvent s b 8 sy
      let l := linkOf s a b
      if l.pending ∧ 2 ≤ l.fails then .next (linkDown (modLink s a b fun l => { l with fails := 3 }) a b)
      else .next (modLink s a b fun l => { l with fails := if l.pending then l.fails + 1 else 0, pending := true })

/-! ## A hub leaves service (01_node.md R20, R21; 10_fabric.md R243; 16_lifecycle.md R394, R395) -/

/-- Rows of a hub's index that its authorities give: descriptors, named regions, its connections, the directories it
answers for. 09_chive.md R213, R215. -/
def authorityRows (s : State) (h : Nat) : List ChiveRow :=
  (s.seqs.descs.map fun p => ⟨p.2.handle, clsHandle, 0, p.1⟩) ++
    ((s.regn.regions.filter fun p => decide (p.2.state = 1) && p.2.named).map fun p =>
      ⟨nameKey p.2.tenant p.2.name, clsRegion, p.2.prio, regionKey p.1 p.2.gen⟩) ++
    ((s.fab.conns.filter fun p => decide (p.2.hub = h)).map fun p => connRow p.2) ++
    ((s.ledg.dir.filter fun p => decide (quadHub s p.1.1 = some h)).map fun p => ⟨p.1.2, clsLedger, 0, p.2.index⟩)

/-- Enters rows in a hub's index where they are missing. -/
def enterRows (s : State) (h : Nat) (rows : List ChiveRow) : State := rows.foldl (fun s r => (insert s h r).1) s

/-- The hub that takes over a hub's connections of an endpoint: the neighbour that takes over its quadrant, once a slice of
its arena re-homes to it, where another port of the group reaches the endpoint. 10_fabric.md R221, R243. -/
def connHeir (s : State) (q own : Nat) : Option Nat :=
  let n := (q + 1) % 8
  let arena := [4 * q + 2, 4 * q + 3].any fun k => decide (pickHome s k = some n)
  let port := (List.range 8).any fun h => decide (h ≠ q) && hubOk s h && decide (endpointOf s h = own)
  if arena ∧ port then some n else none

/-- The hub that speaks for a hub that leaves: the one that takes over its quadrant, else the first in service. -/
def speaker (s : State) (q : Nat) : Option Nat :=
  if hubAlive s ((q + 1) % 8) then some ((q + 1) % 8) else (liveHubs s).find? fun h => decide (h ≠ q)

/-- A connection of a hub that leaves is lost: what the node had asked on it is issued again from the hub that takes over.
10_fabric.md R242, R243. -/
def loseConn (s : State) (q id : Nat) (c : Conn) : State :=
  let s := dropConn s id
  match speaker s q with
  | some h => reissue s h c
  | none => c.asked.foldl askFailed s

/-- A connection passes to another hub: a record number of that hub, its times anew on that hub's clock, its operator session
with it. 10_fabric.md R243, R244, 12_ledger.md R269 (assumption 157). -/
def passConn (s : State) (h id : Nat) (c : Conn) (n : Nat) : State :=
  let t := now s h
  let d := { c with hub := h, slot := n, onChip := false, lastRx := t, hbAt := t, ackDue := c.ackDue.map fun _ => t,
                    ring := c.ring.map fun g => { g with sentAt := t } }
  let s := modFab s fun f => { f with conns := aset f.conns id d }
  let follow := fun (y : Session) => if y.chan = .conn c.hub id then { y with chan := .conn h id } else y
  let s := modTrust s fun x => { x with sessions := x.sessions.map follow }
  let s := modTraf s fun x => { x with egress := x.egress.map fun e => if e.conn = id then { e with hub := h } else e }
  enterRows s h [connRow d]

/-- The connections of a hub that leaves: spilled records pass to the hub that takes over, those on chip too when the move is
planned, as far as it has records; the others are lost. 10_fabric.md R243, 16_lifecycle.md R394 step 3. -/
def moveConns (s : State) (q : Nat) (planned : Bool) : State :=
  (s.fab.conns.filter fun p => decide (p.2.hub = q)).foldl (fun s p =>
    match connHeir s q p.2.own with
    | none => loseConn s q p.1 p.2
    | some h =>
      match freeRecord s h with
      | some n => if planned ∨ ¬ p.2.onChip then passConn s h p.1 p.2 n else loseConn s q p.1 p.2
      | none => loseConn s q p.1 p.2) s

/-- Messages of a hub that leaves: those of connections that live on go with them. In a planned move the commands of its host
port and the node's own work stay until they are done (assumption 178); else they are gone. -/
def moveMsgs (s : State) (q : Nat) (planned : Bool) : State :=
  let lost := fun (p : Nat × Msg) =>
    decide (p.2.hub = q) && (! planned ||
      match p.2.origin with
      | .conn _ i _ => (connOf s i).isNone
      | _ => false)
  let hubOf := fun (m : Msg) =>
    match m.origin with
    | .conn _ i x => (match connOf s i with
      | some c => { m with hub := c.hub, origin := .conn c.hub i x, at_ := now s c.hub }
      | none => m)
    | _ => m
  let keep := s.msgs.filter fun p => ! lost p
  setMsgs s (keep.map fun p => if p.2.hub = q then (p.1, hubOf p.2) else p)

/-- Merges at a hub that is lost: its own end without an answer, those elsewhere lose the quadrants it kept and what was on
its way through it or to it. What is on its way to another hub arrives there, and finds its merge gone. 01_node.md R21,
05_merge.md R109. -/
def dropMerges (s : State) (q : Nat) : State :=
  let mine := s.merge.ctxs.filter fun p => decide (p.2.hub = q)
  let old := s.merge.ctxs
  let s := mine.foldl (fun s p => endCtx s p.1 p.2) s
  let kept := fun (c ctx : Nat) => ((aget old ctx).bind fun x => x.chains.find? fun y => decide (y.quad = c)).any fun y =>
    decide (y.hub = q)
  modMerge s fun m =>
    { m with
      ctxs := m.ctxs.map fun p =>
        (p.1, { p.2 with chains := p.2.chains.map fun y => if y.hub = q then { y with closed := true } else y }),
      inflight := m.inflight.filter fun f => match f with
        | .slice ctx k _ => ! kept (k / 4) ctx && decide (homeHub s k ≠ q)
        | .quad ctx c _ h _ => decide (h ≠ q) && ! kept c ctx,
      groups := m.groups.filter fun g => decide (g.hub ≠ q),
      tombs := m.tombs.filter fun t => decide (t.hub ≠ q) }

/-- A PCIe port's link is down: no further completion of its commands, no session over it. 14_host.md R336, 15_trust.md
R353. -/
def pcieDown (s : State) (p : Nat) : State :=
  let ids := (s.msgs.filter fun x => match x.2.origin with
    | .pcie p' _ _ => decide (p' = p)
    | _ => false).map (·.1)
  let s := modHost s fun h => { h with muted := h.muted ++ ids.filter fun i => ! h.muted.contains i }
  let s := modTrust s fun t => { t with sessions := t.sessions.filter fun x => match x.chan with
    | .pcie p' _ => decide (p' ≠ p)
    | _ => true }
  modPower s fun x => { x with pcieUp := x.pcieUp.set p false, pcieLost := x.pcieLost.set p true }

/-- A hub's port, its queues and its index are gone. -/
def clearHub (s : State) (q : Nat) : State :=
  let s := modFab s fun f =>
    { f with subs := f.subs.map fun p => if p.1.1 = q then
        (p.1, { p.2 with link := false, up := false, tx := none, rx := none, rxOld := none, kx := default }) else p,
             census := adel f.census q }
  let s := modTraf s fun t =>
    { t with pols := t.pols.filter fun p => decide (p.1.1 ≠ q), egress := t.egress.filter fun e => decide (e.hub ≠ q),
             shapers := t.shapers.filter fun p => decide (p.1.1 ≠ q), refillAt := adel t.refillAt q,
             turn := t.turn.filter fun p => decide (p.1.1 ≠ q), gates := t.gates.filter fun p => decide (p.1.1 ≠ q),
             lag := (t.lag.map fun x => (x.1, x.2.1, x.2.2.1, x.2.2.2.filter fun h => decide (h ≠ q))).filter fun x =>
               ! x.2.2.2.isEmpty }
  let s := modChive s fun c =>
    { c with cam := c.cam.filter fun p => decide (p.1.1 ≠ q), shadow := c.shadow.filter fun p => decide (p.1.1 ≠ q),
             ovf := c.ovf.filter fun p => decide (p.1.1 ≠ q), flags := c.flags.filter fun p => decide (p.1 ≠ q),
             rebuild := c.rebuild.filter fun p => decide (p.1 ≠ q), scan := adel c.scan q, scrub := adel c.scrub q }
  modLov s q fun _ => Lovage.reset

/-- The ledger-home rows of the directories a hub has come to answer for, their times anew on its clock. 16_lifecycle.md R394
step 3, 12_ledger.md R269. -/
def enterHomes (s : State) (q : Nat) : State :=
  match quadHub s q with
  | none => s
  | some h =>
    let s := restampDir s q
    enterRows s h ((s.ledg.dir.filter fun p => decide (p.1.1 = q)).map fun p => ⟨p.1.2, clsLedger, 0, p.2.index⟩)

/-- The host port of a hub and the NAND bus leave it. 01_node.md R18, R20; 17_health.md R408. -/
def movePorts (s : State) (q : Nat) (old : Option Nat) : State :=
  let s := if q = 0 then pcieDown s 0 else if q = 4 then pcieDown s 1 else s
  if nandHub s ≠ old ∧ (nandHub s).isSome then busMoves s else s

/-- The status of a live operation that the spec does not state: a free value (assumption 38). -/
def endOpFree (s : State) : State :=
  let v := (Status.all.getD ((fresh s).1 % 21) .ok).code
  modLife (fresh s).2 fun l => { l with op := none, lcStatus := v }

/-- A failover or failback ends when a hub it needs is lost, and the hub that was leaving stays in service (assumption 38).
16_lifecycle.md R386. -/
def breakMove (s : State) (q : Nat) : State :=
  match s.life.op with
  | none => s
  | some o =>
    let own := decide (o.target = 32 + q) && decide (4 ≤ o.op) && decide (o.op ≤ 6)
    let heir := decide (o.op = 4) && decide ((o.target - 32 + 1) % 8 = q)
    if own then endOpFree s
    else if heir then modHub (endOpFree s) (o.target - 32) fun x => { x with st := if x.st = 1 then 0 else x.st }
    else s

/-- A hub that is out of service is lost while an operation works on it: the operation ends, and a hub under test is
FAILED_OVER again. 16_lifecycle.md R386, R395. -/
def lostAgain (s : State) (q : Nat) : State :=
  match s.life.op with
  | none => s
  | some o =>
    if o.target = 32 + q ∧ (o.op = 5 ∨ o.op = 6) then
      let s := endOpFree s
      dieStateRec (modHub s q fun x => { x with st := if x.st = 3 then 2 else x.st }) (32 + q) (hubSt s q).st
        (if (hubSt s q).st = 3 then 2 else (hubSt s q).st) s.life.lcStatus
    else s

/-- An unplanned loss of a hub: what it held on chip is lost, another hub records it, and it becomes FAILED_OVER. Copies whose
lease ran on its clock are no longer valid. 01_node.md R20, R21; 10_fabric.md R243; 16_lifecycle.md R394 step 6, R395;
12_ledger.md R269. -/
def hubLost (s : State) (q : Nat) : State :=
  if ¬ (hubSt s q).up then s
  else if 2 ≤ (hubSt s q).st then lostAgain s q
  else
    let old := nandHub s
    let was := (hubSt s q).st
    let s := modHub (stepDown (breakMove s q) q) q fun x => { x with st := 2 }
    let s := modJrnl s fun j => { j with held := j.held.filter fun r => decide (r.hub ≠ q) || decide (r.seq ≠ 0) }
    let s := journal s ((liveHubs s).headD q) 0x06
      (leBytes 1 (32 + q) ++ leBytes 1 was ++ leBytes 1 2 ++ leBytes 1 s.life.lcStatus)
    let s := dropMerges s q
    let s := moveMsgs (moveConns s q false) q false
    let s := clearHub s q
    let s := modLedg s fun y => { y with copies := y.copies.filter fun c => (c.2.lease.map (·.1)) ≠ some q }
    let s := enterHomes (rehomeAll s) q
    movePorts s q old

/-- HUB_FAILURE. 01_node.md R20. -/
def execHubFailure (hub : Hub) (s : State) : Next := .next (hubLost s hub.val)

/-- REF25_LOSS: the input stops and the hub is treated as failed. 18_package.md R429. -/
def execRef25Loss (hub : Hub) (s : State) : Next :=
  .next (modHub (hubLost s hub.val) hub.val fun x => { x with ref25 := false })

/-! ## A slice leaves service -/

/-- What a slice that is lost leaves on its way is gone; merges that wait for it close without it. 05_merge.md R109. -/
def dropSliceRecs (s : State) (k : Nat) : State :=
  let s := (s.merge.held.filter fun p => decide (p.die = k)).foldl (fun s p =>
    match p.slot with
    | some n => modCmd s k n fun _ => freeCmd
    | none => s) s
  modMerge s fun m => { m with held := m.held.filter fun p => decide (p.die ≠ k),
                               inflight := m.inflight.filter fun f => match f with
    | .slice _ k' _ => decide (k' ≠ k)
    | _ => true }

/-- The record of the end of an operation: the target's state and lc_status. 17_health.md R407. -/
def opRecord (s : State) (d : Nat) : State :=
  let st := if d < 32 then (sliceSt s d).st else (hubSt s (d - 32)).st
  dieStateRec s d st st s.life.lcStatus

/-- The operation that runs ends with a status. 16_lifecycle.md R386. -/
def endOp (s : State) (st : Status) : State := modLife s fun l => { l with op := none, lcStatus := st.code }

/-! ## Starting operations (16_lifecycle.md R386, R389 to R394) -/

/-- The last pseudo-channels all in self-refresh, no refresh postponed. 08_memory.md R187. -/
def stackSleeps (s : State) (k : Nat) : State :=
  modStack s k fun x => { x with selfRef := List.range 64, postponed := [] }

/-- Stack retraining starts: the slice is RETRAINING and its stack in self-refresh. 16_lifecycle.md R389 steps 1, 2. -/
def startRetrain (s : State) (k : Nat) (auto : Bool) : State :=
  let s := stackSleeps (setSliceSt s k 1 0) k
  modLife s fun l => { l with op := some ⟨1, k, auto, 0, [], 3⟩, progress := 2 }

/-- The automatic retraining that waits longest starts. 17_health.md R398. -/
def nextRetrain (s : State) : State :=
  if s.life.op.isSome then s
  else
    match s.life.retrainDue with
    | [] => s
    | k :: r =>
      let s := modLife s fun l => { l with retrainDue := r }
      if (sliceSt s k).st = 0 then startRetrain s k true else s

/-- Whether a slice is some slice's substitute. -/
def isSubst (s : State) (t : Nat) : Bool := (List.range 32).any fun k => decide ((sliceSt s k).subst = some t)

/-- Extents of a slice in use, the device extents included. 16_lifecycle.md R391. -/
def extentsUsed (s : State) (k : Nat) : List Nat :=
  ((List.range (extentCount s - 2)).filter fun e => decide ((extentSt s k e).state ≠ .free)) ++
    [extentCount s - 2, extentCount s - 1]

/-- Unassigned extents of a slice. -/
def extentsFree (s : State) (t : Nat) : List Nat :=
  (List.range (extentCount s - 2)).filter fun e => decide ((extentSt s t e).state = .free)

/-- The substitute of a slice: the lowest slice in service of its quadrant, then of any, that is not a substitute and has
room. 16_lifecycle.md R391. -/
def pickSubst (s : State) (k : Nat) : Option Nat :=
  let need := (extentsUsed s k).length
  let ok := fun (t : Nat) => decide (t ≠ k) && decide ((sliceSt s t).st = 0) && sliceServes s t && ! isSubst s t &&
    decide (need ≤ (extentsFree s t).length)
  (((List.range 4).map fun i => k / 4 * 4 + i) ++ List.range 32).find? ok

/-- Tails of a slice are written back and leave its SRAM, expanded delta pages go and promoted pages return home; a frozen
tail is written back but stays until its seal, or until the SRAM itself leaves service. 16_lifecycle.md R391 step 1,
06_append.md R131. -/
def emptySram (s : State) (k : Nat) (leaves : Bool) : State :=
  let tails := s.seqs.tails.filter fun p => decide (p.2.slice = k)
  let s := tails.foldl (fun s p =>
    match descOf s p.1.desc with
    | some d => if p.2.frozen ∧ ! leaves then (writeBack s d p.1).1 else (evictTail s d p.1).1
    | none => s) s
  let s := uncacheUntil (fun _ => false) (s.seqs.cache.filter fun p => decide (p.1.1 = k)) s
  ((s.mem.promo.map (·.1)).filter fun lpn => decide (lpnSlice lpn = k)).foldl demote s

/-- Indexes of the SCRATCH regions that hold SRAM of a die. 11_remote_access.md R248. -/
def scratchOn (s : State) (d : Nat) : List Nat :=
  (s.regn.regions.filter fun p => decide (p.2.kind = rkScratch) && decide (regionDie p.2 = d) &&
    decide (p.2.state ≠ 0)).map (·.1)

/-- SCRATCH regions in a die's SRAM are revoked. 11_remote_access.md R265, 16_lifecycle.md R391. -/
def revokeScratch (s : State) (d : Nat) : State := (scratchOn s d).foldl (fun s i => startRevoke s i none none) s

/-- Retirement starts. 16_lifecycle.md R390, R391 step 1. -/
def startRetire (s : State) (k : Nat) : State :=
  match pickSubst s k with
  | none => endOp s .quota
  | some t =>
    let plan := (extentsUsed s k).zip (extentsFree s t)
    let s := setSliceSt (modSlice s k fun x => { x with subst := some t, moved := [], tested := false }) k 2 0
    let s := emptySram (revokeScratch (abortCmds s k) k) k false
    modLife s fun l => { l with op := some ⟨2, k, false, t, plan, 2⟩, progress := 0 }

/-- Re-admission starts. 16_lifecycle.md R392. -/
def startReadmit (s : State) (k : Nat) : State :=
  let t := ((sliceSt s k).subst).getD k
  modLife s fun l => { l with op := some ⟨3, k, false, t, (sliceSt s k).moved, 0⟩, progress := 0 }

/-- Whether FAILOVER of a hub is refused. 16_lifecycle.md R393. -/
def failoverBusy (s : State) (q : Nat) : Bool :=
  let n := (q + 1) % 8
  decide ((hubSt s n).st ≠ 0) || ! hubOk s n || servesOther s n ||
    (decide (q = 0) && ! hubOk s 4) || (decide (q = 4) && ! hubOk s 0)

/-- A planned failover starts. 16_lifecycle.md R394 step 1. -/
def startFailover (s : State) (q : Nat) : State :=
  let s := stepDown (setHubSt s q 1 0) q
  modLife s fun l => { l with op := some ⟨4, 32 + q, false, 0, [], 2⟩, progress := 1 }

/-- lc_go: starts the operation lc_op names on lc_target. 16_lifecycle.md R386. A target the operation cannot take ends
it with BOUNDS (assumption 39). -/
def startOp (s : State) : State :=
  let op := rg s .life_lc_op
  let d := rg s .life_lc_target
  let k := d
  let q := d - 32
  let isHub : Bool := decide (32 ≤ d) && decide (d < 40)
  if s.life.op.isSome then modLife s fun l => { l with lcStatus := Status.busy.code }
  else if op = 0 ∨ 7 < op then s
  else if op = 1 then (if d < 32 ∧ (sliceSt s k).st = 0 then startRetrain s k false else endOp s .bounds)
  else if op = 2 then (if d < 32 ∧ (sliceSt s k).st = 0 then startRetire s k else endOp s .bounds)
  else if op = 3 then (if d < 32 ∧ (sliceSt s k).st = 3 then startReadmit s k else endOp s .bounds)
  else if op = 4 then
    (if isHub ∧ (hubSt s q).st = 0 ∧ (hubSt s q).up then
      (if failoverBusy s q then endOp s .busy else startFailover s q) else endOp s .bounds)
  else if op = 5 then
    (if isHub ∧ (hubSt s q).st = 2 ∧ (hubSt s q).up ∧ (hubSt s q).ref25 then
      modLife s fun l => { l with op := some ⟨5, d, false, 0, [], 0⟩, progress := 0 }
     else endOp s .bounds)
  else if op = 6 then
    (if d < 32 ∧ (sliceSt s k).st = 3 then
      modLife (setSliceSt s k 4 0) fun l => { l with op := some ⟨6, d, false, 0, [], 1⟩, progress := 1 }
     else if isHub ∧ (hubSt s q).st = 2 then
      modLife (setHubSt s q 3 0) fun l => { l with op := some ⟨6, d, false, 0, [], 1⟩, progress := 1 }
     else endOp s .bounds)
  else if s.life.node = 2 ∨ s.life.node = 3 then
    modLife s fun l => { l with op := some ⟨7, 0, false, 0, [], 2⟩, progress := 1, node := 3 }
  else endOp s .bounds

/-- A write of lc_go with its lc_op through the primary port's PF. 14_host.md R321, 16_lifecycle.md R386, R396. -/
def lcGo (s : State) (op : Nat) : State :=
  if pfSession s then startOp (rset s .life_lc_op 0 0 op) else writeRefused s (primaryPort s)

/-- RETRAIN. 16_lifecycle.md R389. -/
def execRetrain (s : State) : Next := .next (lcGo s 1)

/-- RETIRE. 16_lifecycle.md R391. -/
def execRetire (s : State) : Next := .next (lcGo s 2)

/-- READMIT. 16_lifecycle.md R392. -/
def execReadmit (s : State) : Next := .next (lcGo s 3)

/-- FAILOVER. 16_lifecycle.md R394. -/
def execFailover (s : State) : Next := .next (lcGo s 4)

/-- FAILBACK. 16_lifecycle.md R394. -/
def execFailback (s : State) : Next := .next (lcGo s 5)

/-- ISOLATE_TEST. 16_lifecycle.md R385. -/
def execIsolateTest (s : State) : Next := .next (lcGo s 6)

/-- SHUTDOWN. 16_lifecycle.md R383. -/
def execShutdown (s : State) : Next := .next (lcGo s 7)

/-! ## Retraining ends (16_lifecycle.md R389, 17_health.md R398) -/

/-- Margins of a stack's pseudo-channels after a training: no low reading, min_width restarts. 17_health.md R398. -/
def restartMargins (s : State) (k : Nat) : State :=
  modHealth s fun h => { h with margins := h.margins.map fun p =>
    if p.1.1 = k ∧ p.1.2 < 64 then (p.1, { p.2 with low := 0, minW := 256 }) else p }

/-- STACK_RETRAIN_COMPLETE: the stack leaves self-refresh and work resumes, or the slice becomes UNAVAILABLE.
16_lifecycle.md R389 steps 3, 4. -/
def execStackRetrainComplete (slice : Slice) (failed : Bool) (s : State) : Next :=
  let k := slice.val
  match s.life.op with
  | some o =>
    if o.op ≠ 1 ∨ o.target ≠ k then .next s
    else if failed then
      .next (nextRetrain (opRecord (endOpFree (dropSliceRecs (setSliceSt s k 5 s.life.lcStatus) k)) k))
    else
      let s := modStack s k fun x => { x with selfRef := [] }
      let s := opRecord (restartMargins (setSliceSt (endOp s .ok) k 0 0) k) k
      let s := modLife s fun l => { l with progress := 4, retrainDue := l.retrainDue.filter fun x => decide (x ≠ k) }
      .next (nextRetrain (poolStart (schedule s k) k))
  | none => .next s

/-! ## Evacuation (16_lifecycle.md R391, R392) -/

/-- Copies a range of one stack to another through the word code; a word the code cannot correct becomes data zero with
check bits 0x0011. 16_lifecycle.md R391. -/
def copyRange (s : State) (src dst n : Nat) : State :=
  let s := touchStack (touchStack s src n) dst n
  let devs := (s.mem.chk.filter fun p => decide (src ≤ p.1) && decide (p.1 < src + n)).map (·.1)
  let r : State × List Nat := devs.foldl (fun r a =>
    match loadWord r.1 a 6 with
    | (t, none) => (t, r.2 ++ [a])
    | (t, some _) => (t, r.2)) (s, [])
  let s := r.1
  let bad := r.2
  let at_ := fun (a : Nat) => a - src + dst
  let lost := fun (a : Nat) => bad.any fun b => decide (b ≤ a) && decide (a < b + 16)
  let cells := s.mem.cells
  let part := (cells.filter fun c => decide (src ≤ c.1) && decide (c.1 < src + n) && ! lost c.1).map fun c => (at_ c.1, c.2)
  let s := setCells s ((cells.filter fun c => decide (c.1 < dst)) ++ part ++ cells.filter fun c => decide (dst + n ≤ c.1))
  setChk s ((s.mem.chk.filter fun p => decide (p.1 < dst) || decide (dst + n ≤ p.1)) ++ bad.map fun a => (at_ a, 0x0011))

/-- Node address of an extent. -/
def extentAddr (k e : Nat) : Nat := dieBase k + 2 ^ 30 * e

/-- One extent of a retiring slice is copied and its extent map switches. 16_lifecycle.md R391 steps 2, 3. -/
def retireOne (s : State) (o : LiveOp) : State :=
  let k := o.target
  match o.left with
  | [] =>
    let s := setSliceSt (emptySram s k true) k 3 0
    endOp s .ok
  | (e, e') :: r =>
    let s := copyRange s (extentAddr k e) (extentAddr o.subst e') (2 ^ 30)
    let s := modSlice s k fun x => { x with moved := aset x.moved e e' }
    modLife s fun l => { l with op := some { o with left := r }, progress := l.progress + 1 }

/-! ## Self-test (16_lifecycle.md R382, R384, R385) -/

/-- Contents of a die's arrays are destroyed or scrubbed. -/
def wipeDie (s : State) (d : Nat) : State := scrub s (dieBase d) (2 ^ 42)

/-- What a faulty unit of a die comes to: kind (R380), unit, location. 16_lifecycle.md R382. -/
def applyFault (s : State) (d : Nat) (f : Nat × Nat × Nat) : State :=
  if f.1 = 1 then
    let s := kgmAdd s d 1 0 0 (if d < 32 then 5 else 4)
    if d < 32 then setSliceSt s d 5 0 else setHubSt s (d - 32) 4 0
  else if f.1 = 2 then retireBank s d f.2.1
  else if f.1 = 3 then repairColumn s d f.2.1 f.2.2
  else if f.1 = 4 then
    let s := modMem s fun m => { m with rowFix := m.rowFix ++ [(d, f.2.1 * 2 ^ 20 + f.2.2)] }
    let s := modDie s d fun x => { x with rowsRepaired := min (x.rowsRepaired + 1) 0xFFFF }
    let s := kgmAdd s d 4 f.2.1 f.2.2 (fresh s).1
    journal (fresh s).2 (dieHub s d) 0x13 (leBytes 1 d ++ leBytes 1 4 ++ leBytes 2 f.2.1 ++ leBytes 4 f.2.2 ++ leBytes 1 0)
  else if f.1 = 6 then
    kgmAdd (modChive s fun c => { c with retired := c.retired ++ [(d - 32, f.2.1)] }) d 6 f.2.1 0 0
  else if f.1 = 5 then
    let v := (fresh s).1
    kgmAdd (modLife (fresh s).2 fun l => { l with lanes := aset l.lanes (d, f.2.1, f.2.2) v }) d 5 f.2.1 f.2.2 v
  else s

/-- Whether no quadrant of a die's memory works: no quarter of its SRAM has a bank left (DEDUCED, assumption 177). A stack
beyond repair is a fault of kind 1 by itself. 16_lifecycle.md R382. -/
def memoryLost (s : State) (d : Nat) : Bool :=
  let n := bankCount d / 4
  (List.range 4).all fun q => (List.range n).all fun b => (bankSt s d (q * n + b)).retired

/-- Whether a unit of the margin_sel numbering is a module of a die-to-die link. 17_health.md R399. -/
def dieLink (d u : Nat) : Bool := if d < 32 then decide (64 ≤ u) && decide (u ≤ 66) else decide (32 ≤ u) && decide (u ≤ 49)

/-- What the pattern and loopback tests of a die find: die-to-die lanes to remap; a slice whose stack cannot be trained becomes
UNAVAILABLE. 18_package.md R440, R441, 16_lifecycle.md R378, R389. -/
def linkFaults (d no : Nat) : List (Nat × Nat × Nat) :=
  (((Config.laneErrors d no).filter fun p => dieLink d p.1).map fun p => (5, p.1, p.2)) ++
    if d < 32 ∧ Config.pinFaults d no ≠ [] then [(1, 0, 0)] else []

/-- The result code of a test that found these faults. 17_health.md R403. -/
def bistCode (faults : List (Nat × Nat × Nat)) : Nat :=
  if faults.isEmpty then 0
  else if faults.any fun f => decide (f.1 = 1) then 3
  else if faults.any fun f => decide (f.1 = 2) || decide (f.1 = 6) then 2
  else 1

/-- The end of a test of a die: its faults repaired or their units retired, the BIST record and BIST_FAIL. 16_lifecycle.md
R382, 17_health.md R403, R404, R407. -/
def endTest (s : State) (d when_ banks : Nat) (faults : List (Nat × Nat × Nat)) : State :=
  let s := faults.foldl (fun s f => applyFault s d f) s
  let faults := if memoryLost s d then faults ++ [(1, 0, 0)] else faults
  let s := if memoryLost s d then applyFault s d (1, 0, 0) else s
  let code := bistCode faults
  let s := modDie s d fun x => { x with bistResult := code, bistWhen := when_ }
  let s := journal s (dieHub s d) 0x14 (leBytes 1 d ++ leBytes 1 code ++ leBytes 2 when_ ++ leBytes 4 banks ++
    leBytes 4 faults.length)
  if faults.isEmpty then s else healthEvent s d 4 code

/-- The full self-test of a die; an isolated one has the pattern and loopback tests too, whose results enter its record. 16_lifecycle.md
R382, R385, 18_package.md R440, R441. -/
def testDie (when_ : Nat) (links : Bool) (s : State) (d : Nat) : State :=
  let (no, s) := testNo (wipeDie s d)
  endTest s d when_ (bankCount d) (Config.selfTestFaults d no ++ if links then linkFaults d no else [])

/-- Every die tests at once. 16_lifecycle.md R382. -/
def selfTest (s : State) (when_ : Nat) : State := (List.range 40).foldl (testDie when_ false) s

/-- What a slice's dropped contents leave: allocations of a die that is scrubbed. -/
def freeDie (s : State) (d : Nat) : State :=
  modMem s fun m => { m with sram := m.sram.filter fun p => decide (p.use.die ≠ d) || decide (p.kind = .area),
                             banks := m.banks.map fun p => if p.1.1 = d then (p.1, idleBank d p.1.2 p.2) else p }

/-- The test of an isolated die: R382 on its arrays, pattern and loopback tests, scrub, map. 16_lifecycle.md R385. -/
def isolateTest (s : State) (d : Nat) : State :=
  let s := freeDie (wipeDie (testDie 2 true s d) d) d
  writeKgm s (kgmNow s).state (kgmNow s).entries

/-! ## The work of an operation in one idle step -/

/-- One step of the return of a unit, as UNIT_RETURN makes it. 12_ledger.md R297. -/
def returnUnit (s : State) (u : Unit_) : State :=
  match execUnitReturn u s with
  | .next t => t
  | _ => s

/-- One step of READMIT. 16_lifecycle.md R392. -/
def readmitOne (s : State) (o : LiveOp) : State :=
  let k := o.target
  let go := fun (s : State) (n : Nat) => modLife s fun l => { l with op := some { o with step := n }, progress := l.progress + 1 }
  if h : k < 32 then
    if o.step = 0 ∧ ¬ (sliceSt s k).tested ∧ ¬ (scratchOn s k).isEmpty then revokeScratch s k
    else if o.step = 0 then
      let s := if (sliceSt s k).tested then s
        else
          let s := isolateTest (setSliceSt s k 4 0) k
          if (sliceSt s k).st = 5 then s else modSlice (setSliceSt s k 3 0) k fun x => { x with tested := true }
      if (sliceSt s k).st = 5 then endOpFree s else go s 1
    else if o.step ≤ 2 then go (returnUnit s (.slice ⟨k, h⟩)) (o.step + 1)
    else if o.step = 3 then
      let s := returnUnit s (.slice ⟨k, h⟩)
      if (sliceSt s k).unitSt = .inService then go (setSliceSt s k 6 0) 4 else s
    else
      match o.left with
      | (e, e') :: r =>
        let s := copyRange s (extentAddr o.subst e') (extentAddr k e) (2 ^ 30)
        let s := modSlice s k fun x => { x with moved := adel x.moved e }
        modLife s fun l => { l with op := some { o with left := r }, progress := l.progress + 1 }
      | [] =>
        let s := emptySram s k true
        let s := modSlice s k fun x => { x with subst := none, moved := [], tested := false }
        endOp (setSliceSt s k 0 0) .ok
  else endOp s .bounds

/-- The first slice of a quadrant that is not homed to a hub though it could be. -/
def nextToMove (s : State) (q h : Nat) : Option Nat :=
  ((List.range 4).map fun i => 4 * q + i).find? fun k => decide ((sliceSt s k).home ≠ some h) && linkUp s k (32 + h)

/-- Whether commands of a hub's host port or work of its own are still on their way: the port moves once they are done
(assumption 178). -/
def portBusy (s : State) (q : Nat) : Bool :=
  s.msgs.any fun p => decide (p.2.hub = q) && match p.2.origin with
    | .conn _ _ _ => false
    | _ => true

/-- One step of a planned failover. 16_lifecycle.md R394 steps 2 to 6. -/
def failoverOne (s : State) (o : LiveOp) : State :=
  let q := o.target - 32
  let n := (q + 1) % 8
  let go := fun (s : State) (n : Nat) => modLife s fun l => { l with op := some { o with step := n }, progress := n - 1 }
  if o.step = 2 then
    if (s.merge.ctxs.any fun p => decide (p.2.hub = q)) ∨ (s.merge.groups.any fun g => decide (g.hub = q)) then s else go s 3
  else if o.step = 3 then go (moveMsgs (moveConns s q true) q true) 4
  else if o.step = 4 then
    match nextToMove s q n with
    | some k => if s.merge.inflight.any fun f => match f with
        | .slice _ k' _ => decide (k' = k)
        | _ => false
      then s else moveHome s k (some n)
    | none => go s 5
  else if o.step = 5 then
    if portBusy s q then s
    else
      let old := nandHub s
      let s := setHubSt s q 2 0
      go (movePorts s q old) 6
  else endOp (rehomeAll (enterHomes (clearHub s q) q)) .ok

/-- A slice takes a home; one that had none returns through the quarantine. 01_node.md R20, 12_ledger.md R297, R298. -/
def takeHome (s : State) (k h : Nat) : State :=
  let s := if (sliceSt s k).home.isNone then modSlice s k fun x => { x with unitSt := .quarantined } else s
  moveHome s k (some h)

/-- Slices that no hub reached take one that has come back. 01_node.md R20. -/
def reachAgain (s : State) : State :=
  (List.range 32).foldl (fun s k =>
    if (sliceSt s k).home.isSome then s
    else match pickHome s k with
      | some h => takeHome s k h
      | none => s) s

/-- The host port of a hub that returns trains again, where its PERST# is released. 16_lifecycle.md R394. -/
def portsBack (s : State) (q : Nat) : State :=
  let up := fun (s : State) (p : Nat) => if s.power.perst.getD p false then trainPort s p else s
  if q = 0 then up s 0 else if q = 4 then up s 1 else s

/-- One step of FAILBACK: the hub returns through R297, its rows are rebuilt, its slices switch back one at a time.
16_lifecycle.md R394. -/
def failbackOne (s : State) (o : LiveOp) : State :=
  let q := o.target - 32
  let go := fun (s : State) (n : Nat) => modLife s fun l => { l with op := some { o with step := n }, progress := n }
  if h : q < 8 then
    if o.step ≤ 1 then go (returnUnit s (.hub ⟨q, h⟩)) (o.step + 1)
    else if o.step = 2 then
      let old := nandHub s
      let s := setHubSt (returnUnit s (.hub ⟨q, h⟩)) q 0 0
      let prev := (quadHub (modLife s fun l => { l with hubs := amod l.hubs q fun x => { x with st := 2 } }) q)
      let s := match prev with
        | some n => (s.ledg.dir.filter fun p => decide (p.1.1 = q)).foldl (fun s p => delete s n clsLedger p.1.2 0) s
        | none => s
      let s := enterRows (restampDir s q) q (authorityRows s q)
      go (portsBack (if nandHub s ≠ old ∧ old.isSome then busMoves s else s) q) 3
    else
      match nextToMove s q q with
      | some k =>
        takeHome s k q
      | none => endOp (reachAgain s) .ok
  else endOp s .bounds

/-- One step of ISOLATE_TEST: the die's SCRATCH regions are revoked, which keep their bytes until then (assumption 184); the die
is tested, scrubbed and may be re-admitted. 16_lifecycle.md R385, 11_remote_access.md R248. -/
def isolateOne (s : State) (o : LiveOp) : State :=
  let d := o.target
  if ! (scratchOn s d).isEmpty then revokeScratch s d
  else
    let s := isolateTest s d
    let failed : Bool := if d < 32 then decide ((sliceSt s d).st = 5) else decide ((hubSt s (d - 32)).st = 4)
    if failed then endOpFree s
    else if d < 32 then endOp (modSlice (setSliceSt s d 3 0) d fun x => { x with tested := true }) .ok
    else endOp (setHubSt s (d - 32) 2 0) .ok

/-- Every sub-port and host port goes down. 16_lifecycle.md R383 step 5. -/
def portsDown (s : State) : State :=
  let s := modFab s fun f => { f with subs := f.subs.map fun p =>
    (p.1, { p.2 with link := false, up := false, tx := none, rx := none, rxOld := none, kx := default }) }
  pcieDown (pcieDown s 0) 1

/-- Hard repair: soft repairs of stack rows and of every bank are fused, with field_repair_en set. 08_memory.md R183, R196; 16_lifecycle.md
R382. -/
def hardRepair (s : State) : State :=
  if rg s .mem_field_repair_en = 0 then s
  else
    let rows := s.mem.rowFix.filter fun r => ! s.mem.rowHard.contains r
    let s := rows.foldl (fun s r => journal s (dieHub s r.1) 0x13
      (leBytes 1 r.1 ++ leBytes 1 4 ++ leBytes 2 (r.2 / 2 ^ 20) ++ leBytes 4 (r.2 % 2 ^ 20) ++ leBytes 1 1)) s
    let s := modMem s fun m => { m with rowHard := m.rowHard ++ rows }
    (s.mem.banks.filter fun p => ! p.2.soft.isEmpty).foldl (fun s p =>
      let s := modBank s p.1.1 p.1.2 fun b => { b with fused := b.fused ++ b.soft, soft := [] }
      p.2.soft.foldl (fun s c => journal s (dieHub s p.1.1) 0x13
        (leBytes 1 p.1.1 ++ leBytes 1 3 ++ leBytes 2 p.1.2 ++ leBytes 4 c ++ leBytes 1 1)) s) s

/-- Every tenant's data is gone: the self-test has destroyed all contents. 16_lifecycle.md R382. -/
def dropContents (s : State) : State :=
  let r := State.reset
  { s with
    seqs := r.seqs, merge := r.merge, regn := r.regn,
    chive := { r.chive with retired := s.chive.retired }, ledg := r.ledg, dill := r.dill,
    mem := { s.mem with cells := [], chk := [], slots := [], sram := s.mem.sram.filter fun p => decide (p.kind = .area),
                         promo := [], opens := [], prefetch := [] } }

/-- One step of SHUTDOWN. 16_lifecycle.md R383 steps 2 to 5. -/
def shutdownOne (s : State) (o : LiveOp) : State :=
  let go := fun (s : State) (n : Nat) => modLife s fun l => { l with op := some { o with step := n }, progress := n - 1 }
  if o.step = 2 then
    if s.msgs.isEmpty then
      go (modLife (modTrust s fun t => { t with sessions := [] }) fun l => { l with node := 4 }) 3
    else s
  else if o.step = 3 then
    if journalPath s then go (flushAll (histFlush s)) 4 else s
  else if o.step = 4 then
    let s := dropContents (hardRepair (selfTest s 1))
    go (writeKgm s 1 (kgmNow s).entries) 5
  else if journalPath s then
    let s := journal s ((nandHub s).getD 0) 0x02 (leBytes 8 (kgmNow s).seq)
    endOp (modLife (portsDown (flushAll s)) fun l => { l with node := 5 }) .ok
  else s

/-- A hub whose firmware moves and that can take its next step: its planned failover, the end of it, or its failback.
16_lifecycle.md R388. -/
def hubToMove (s : State) : Option (Nat × Nat × Nat) :=
  s.life.moving.find? fun p =>
    let x := hubSt s (p.1 - 32)
    decide (32 ≤ p.1) && decide (p.1 < 40) &&
      ((decide (p.2.2 = 0) && (decide (x.st = 2) || (decide (x.st = 0) && x.up && ! failoverBusy s (p.1 - 32)))) ||
       (decide (p.2.2 = 2) && decide (x.st = 2) && x.up && x.ref25))

/-- Takes that step. 16_lifecycle.md R388. -/
def moveHub (s : State) (p : Nat × Nat × Nat) : State :=
  if p.2.2 = 2 then
    modLife s fun l => { l with moving := adel l.moving p.1, op := some ⟨5, p.1, false, 0, [], 0⟩, progress := 0 }
  else if (hubSt s (p.1 - 32)).st = 2 then modLife s fun l => { l with moving := aset l.moving p.1 (p.2.1, 1) }
  else startFailover s (p.1 - 32)

/-- What starts when no live operation runs: a hub's firmware move, else a retraining that waits. -/
def nextOp (s : State) : State :=
  match hubToMove s with
  | some p => moveHub s p
  | none => nextRetrain s

/-- One unit of the work of the live operation that runs. 16_lifecycle.md R386. -/
def liveStep (s : State) : State :=
  match s.life.op with
  | none => nextOp s
  | some o =>
    let t :=
      if o.op = 2 then retireOne s o
      else if o.op = 3 then readmitOne s o
      else if o.op = 4 then failoverOne s o
      else if o.op = 5 then failbackOne s o
      else if o.op = 6 then isolateOne s o
      else if o.op = 7 then shutdownOne s o
      else s
    if t.life.op.isNone ∧ o.op ≠ 7 ∧ o.op ≠ 1 then opRecord t o.target else t

/-- A drained node with no request in flight flushes its journal. 18_package.md R433 step 3. -/
def drainStep (s : State) : State :=
  if s.life.node = 3 ∧ s.msgs.isEmpty ∧ ¬ shuttingDown s ∧ ¬ s.jrnl.held.isEmpty ∧ journalPath s then flushAll s else s

/-- Rows of a hub's authorities whose key homes to a block. 09_chive.md R213 step 3. -/
def blockAuthority (s : State) (h block : Nat) : State × List ChiveRow :=
  let rows := authorityRows s h
  let (s, pages) := readRows (((List.range 32).filter fun k => decide ((sliceSt s k).home = some h)).flatMap (slicePages s)) s
  (s, (rows ++ pages).filter fun r => decide (homeBlock s h r.cls r.key = block))

/-- The oldest block marked rebuilding takes every row of its class back from the authorities, and its mark is cleared.
09_chive.md R213 steps 3 and 4. -/
def rebuildStep (s : State) : State :=
  match s.chive.rebuild with
  | [] => s
  | (h, block) :: rest =>
    let (s, rows) := blockAuthority s h block
    modChive (enterRows s h rows) fun c => { c with rebuild := rest }

/-! ## TLPs through direct windows (14_host.md R332, R333) -/

/-- Tenant of a function's windows: its binding; the PF's is 0. 14_host.md R319, R332. -/
def fnTenant (s : State) (p f : Nat) : Nat := if f = 0 then 0 else rget s .port_fn_tenant p f

/-- Latches the status of a refused window access. -/
def latchWin (s : State) (p f w code : Nat) : State := rset s .fn_win_status (fnInst p f) w code

/-- The completion of a window read, which a port that takes no TLP does not carry. -/
def readDone (s : State) (p f : Nat) (poisoned : Bool) (data : Option (List Byte)) : State :=
  if portUp s p then emit s (.readDone p f poisoned data) else s

/-- A window access that is refused: a read is an Unsupported Request, a write is discarded and counted. 14_host.md R333. -/
def refuseTlp (s : State) (t : WinTlp) (st : Status) : State :=
  let s := latchWin (countRefusal s (portHub t.port) st) t.port t.fn t.window st.code
  if t.data.isSome then bump s .fn_WINDOW_REFUSED (fnInst t.port t.fn) else readDone s t.port t.fn false none

/-- A window access whose checks pass, carried out. 14_host.md R333, 07_dill.md R166 to R168. -/
def serveTlp (s : State) (t : WinTlp) (r : Region) : State :=
  match t.data with
  | some data =>
    let s := modMeter s (fnTenant s t.port t.fn) fun x => { x with bytesIn := x.bytesIn + data.length }
    (writeRange s (portHub t.port) r t.offset data).1
  | none =>
    match readRange s r t.offset t.length with
    | (s, .ok b) =>
      readDone (modMeter s (fnTenant s t.port t.fn) fun x => { x with bytesOut := x.bytesOut + b.length }) t.port t.fn false
        (some b)
    | (s, .error .uncorrectable) =>
      let (b, s) := freshBytes s t.length
      readDone (emit (bump s .fn_POISONED_READS (fnInst t.port t.fn)) (.aer t.port t.fn)) t.port t.fn true (some b)
    | (s, .error st) => readDone (latchWin s t.port t.fn t.window st.code) t.port t.fn false none

/-- Whether the place of a window access is out of reach. 12_ledger.md R298 (assumption 183). -/
def tlpStale (s : State) (r : Region) (off len : Nat) : Bool :=
  decide (s.life.nodeUnit ≠ .inService) || (regionPlaces s r off len).any fun p => ! placeServes s p

/-- A window access after its checks: while its stack is being retrained it waits, counted in the region's inflight.
14_host.md R332, 16_lifecycle.md R389. -/
def takeTlp (s : State) (t : WinTlp) (r : Region) : State :=
  if rangeRetrains s r t.offset t.length then
    modHost (modRegion s t.region fun x => { x with inflight := x.inflight + 1 }) fun h => { h with waits := h.waits ++ [t] }
  else serveTlp s t r

/-- The oldest window access whose stack no longer retrains is served, or refused where the stack was lost. 16_lifecycle.md
R389 step 4. The order is a DESIGN CHOICE (assumption 186). -/
def winStep (s : State) : State :=
  let ready := fun (t : WinTlp) => (regionOf s t.region).all fun r => ! rangeRetrains s r t.offset t.length
  match s.host.waits.find? ready with
  | none => s
  | some t =>
    let s := leaveRegion (modHost s fun h => { h with waits := h.waits.erase t }) t.region
    match regionOf s t.region with
    | none => s
    | some r => if tlpStale s r t.offset t.length then refuseTlp s t .staleUnit else serveTlp s t r

/-- What the node does in a step that no command drives: its clocks advance, the live operation goes on, a marked block is
rebuilt, reads without a request are sent again, a window access that waited is served, and the lane engines run on
(assumptions 2, 27 and 182). -/
def idle (s : State) : State := engines (winStep (retryReads (drainStep (rebuildStep (liveStep (tickClocks s))))))

/-! ## A slice fails (16_lifecycle.md R391, R392; 12_ledger.md R298) -/

/-- SLICE_FAILURE. 16_lifecycle.md R391. -/
def execSliceFailure (slice : Slice) (s : State) : Next :=
  let k := slice.val
  if (sliceSt s k).st = 5 then .next s
  else
    let s := dropSliceRecs (setSliceSt s k 5 s.life.lcStatus) k
    .next (match s.life.op with
      | none => s
      | some o =>
        if o.op = 2 ∧ o.subst = k then
          nextRetrain (opRecord (endOp (setSliceSt s o.target 0 Status.uncorrectable.code) .uncorrectable) o.target)
        else if o.op = 3 ∧ o.subst = k then nextRetrain (opRecord (endOpFree s) o.target)
        else if (o.op = 1 ∨ o.op = 2 ∨ o.op = 3 ∨ o.op = 6) ∧ o.target = k then nextRetrain (opRecord (endOpFree s) k)
        else s)

end Sys2Proof.Machine
end

