-- ==== Sys2Proof/Machine/Sensors.lean ====
section
/-!
DEFINITION. What dies measure of themselves and how their memories are kept: temperature, power and throttling, patrol,
SRAM banks and their in-service test, margins, canaries, droop, histograms and latched summaries. 08_memory.md R182 to
R196; 16_lifecycle.md R384; 17_health.md R397 to R405.
-/
namespace Sys2Proof.Machine

/-! ## Temperature and power (08_memory.md R185, R188 to R190; 18_package.md R438) -/

/-- The refresh rate after a sample. 08_memory.md R185. -/
def rateAfter (t2 t4 hyst : Int) (rate : Nat) (t : Int) : Nat :=
  if t4 ≤ t then 2
  else if rate = 2 ∧ t4 - hyst ≤ t then 2
  else if t2 ≤ t then 1
  else if 1 ≤ rate ∧ t2 - hyst ≤ t then 1
  else 0

/-- A THERMAL record. 17_health.md R407. -/
def thermalRec (s : State) (k : Nat) (t : Int) (entry : Bool) : State :=
  journal s (dieHub s k) 0x20 (leBytes 1 k ++ leBytes 1 (ofSigned 8 t) ++ leBytes 1 (b2n entry))

/-- STACK_TEMP_SAMPLE: the refresh rate, the critical level and the trip of a stack. 08_memory.md R185, R188, 18_package.md
R438. -/
def execStackTempSample (slice : Slice) (temp : Int) (s : State) : Next :=
  let k := slice.val
  let old := stackSt s k
  let lim := rgi s .mem_temp_crit
  let rate := rateAfter (rgi s .mem_temp_2x) (rgi s .mem_temp_4x) (rgi s .mem_hysteresis) old.rate temp
  let crit := decide (lim ≤ temp) || (old.crit && decide (lim - 5 ≤ temp))
  let s := modStack s k fun x => { x with rate := rate, temp := temp, crit := crit }
  if 110 ≤ old.temp ∧ 110 ≤ temp then .next (tripDie s k temp)
  else
    let s :=
      if crit ∧ ¬ old.crit then healthEvent (thermalRec s k temp true) k 2 (ofSigned 32 temp)
      else if old.crit ∧ ¬ crit then thermalRec s k temp false
      else s
    .next (settleLevel s k)

/-- DIE_TEMP_SAMPLE: four sensors; a slice's thermal level; the trip of a die. 17_health.md R402, 08_memory.md R190,
18_package.md R438. -/
def execDieTempSample (die : Die) (t0 t1 t2 t3 : Int) (s : State) : Next :=
  let d := die.val
  let ts := [t0, t1, t2, t3]
  let hot := max (max t0 t1) (max t2 t3)
  let old := (dieHealth s d).temps
  let s := modDie s d fun x => { x with temps := ts, maxTemp := max x.maxTemp hot }
  if (old.zip ts).any fun p => decide (115 ≤ p.1) && decide (115 ≤ p.2) then .next (tripDie s d hot)
  else .next (if d < 32 then settleLevel s d else s)

/-- POWER_LEVEL_UPDATE: the average of 100 µs and the node-wide level it moves by one. 08_memory.md R190. -/
def execPowerLevelUpdate (watts : Nat) (s : State) : Next :=
  let lim := rg s .mem_power_limit
  let old := s.mem.powerLvl
  let n := if lim < watts then min 7 (old + 1) else if 100 * watts < 95 * lim then old - 1 else old
  .next (settleLevels (modMem s fun m =>
    { m with powerLvl := n, powerAvg := watts, powerSum := m.powerSum + watts, powerN := m.powerN + 1 }))

/-! ## Patrol (08_memory.md R182, R183) -/

/-- Bytes of a die's SRAM. -/
def sramBytes (d : Nat) : Nat := if d < 32 then 2 ^ 26 else 2 ^ 27

/-- The offset after one in a die's patrol round: a slice's stack ascending, then SRAM; 0 starts a round. -/
def patrolNext (s : State) (d off : Nat) : Nat :=
  let start := if d < 32 then 0 else sramOff
  if off + 16 = stackBytes s ∧ d < 32 then sramOff
  else if sramOff + sramBytes d ≤ off + 16 then start
  else off + 16

/-- Whether the patrol passes over a word: its bank is not ON, or its pseudo-channel in self-refresh. 08_memory.md R182. -/
def patrolSkips (s : State) (d off : Nat) : Bool :=
  if sramOff ≤ off then decide ((bankSt s d (bankOf off)).state ≠ .on)
  else (stackSt s d).selfRef.contains (stackRow s off).1

/-- PATROL_SCRUB_READ: the next word of a die's round is read and rewritten where it was corrected. 08_memory.md R182,
R183. -/
def execPatrolScrubRead (die : Die) (s : State) : Next :=
  let d := die.val
  let off := agetD s.mem.patrol d (if d < 32 then 0 else sramOff)
  let a := dieBase d + off
  let dev := agetD s.mem.chk a 0
  let s :=
    if patrolSkips s d off then s
    else
      match loadWord s a 1 with
      | (s, some _) => if dev = 0 then s else bump s .mem_PATROL_REWRITES d
      | (s, none) => s
  let nxt := patrolNext s d off
  let s := modMem s fun m => { m with patrol := aset m.patrol d nxt }
  .next (if off < nxt then s else modMem s fun m => { m with hits := m.hits.filter fun p => decide (p.1 / 2 ^ 42 ≠ d) })

/-- SELF_REFRESH_ENTRY: a pseudo-channel enters self-refresh and its postponed refreshes are void. 08_memory.md R187. -/
def execSelfRefreshEntry (slice : Slice) (pc : Nat) (s : State) : Next :=
  let k := slice.val
  if 64 ≤ pc ∨ (stackSt s k).selfRef.contains pc then .next s
  else .next (modStack s k fun x =>
    { x with selfRef := x.selfRef ++ [pc], postponed := x.postponed.filter fun p => decide (p.1.1 ≠ pc) })

/-! ## SRAM banks (08_memory.md R192, R193) -/

/-- Whether a bank holds an allocation: one of the general pool, or one of the fixed areas. 08_memory.md R193, R445,
06_append.md R136. -/
def bankInUse (s : State) (d b : Nat) : Bool :=
  decide (b < (poolRange d).1 / 64) ||
    s.mem.sram.any fun p => decide (p.use.die = d) && decide (p.use.unit / 64 ≤ b) &&
      decide (b ≤ (p.use.unit + p.use.count - 1) / 64)

/-- BANK_RETAIN_IDLE: an ON bank under automatic control without access for retain_idle. 08_memory.md R192. -/
def execBankRetainIdle (die : Die) (bank : Nat) (s : State) : Next :=
  let d := die.val
  let b := bankSt s d bank
  if bankCount d ≤ bank ∨ b.state ≠ .on ∨ b.request ≠ 0 then .next s
  else .next (modBank s d bank fun x => { x with state := .retain })

/-- A bank turns ON: from OFF every word is zero. 08_memory.md R192. -/
def bankOn (s : State) (d b : Nat) : State :=
  let s := if (bankSt s d b).state = .off then scrub s (sramAddr d (64 * b)) 0x40000 else s
  modBank s d b fun x => { x with state := .on, retainDue := false }

/-- A bank turns OFF and loses its contents. 08_memory.md R192. -/
def bankOff (s : State) (d b : Nat) : State :=
  modBank (scrub s (sramAddr d (64 * b)) 0x40000) d b fun x => { x with state := .off, retainDue := false }

/-- Whether the lane segment that runs on a slice uses a bank: a window of its command reaches it. 08_memory.md R193,
07_dill.md R145. -/
def segmentUses (s : State) (d b : Nat) : Bool :=
  let x := dillOf s d
  decide (d < 32) && x.segment && (x.cur.bind (aget x.slots)).any fun c =>
    (spans s d c false ++ spans s d c true).any fun r => overlap (dieBase d + r.1) r.2 (sramAddr d (64 * b)) 0x40000

/-- bank_request of a bank: 0 automatic, 1 force ON, 2 force RETAIN, 3 force OFF. 08_memory.md R193. A retired bank stays
OFF. -/
def bankRequest (s : State) (d b req : Nat) : State :=
  if bankCount d ≤ b then s
  else
    let x := bankSt s d b
    let set := fun (s : State) => modBank s d b fun y => { y with request := req }
    if req = 1 then (if x.retired then set s else bankOn (set s) d b)
    else if req = 2 then
      (if x.state ≠ .on then set s
       else if segmentUses s d b then modBank (set s) d b fun y => { y with retainDue := true }
       else modBank (set s) d b fun y => { y with state := .retain })
    else if req = 3 then
      (if bankInUse s d b then rset s .mem_bank_request_refused d b 1 else bankOff (set s) d b)
    else
      let s := set s
      if x.retired then s else if bankInUse s d b then bankOn s d b else bankOff s d b

/-- A write of bank_request for the bank that bank_sel names, under R321. -/
def bankWrite (die : Die) (req : Nat) (s : State) : Next :=
  if pfSession s then .next (bankRequest s die.val (rget s .mem_bank_sel die.val 0) req)
  else .next (writeRefused s (primaryPort s))

/-- BANK_FORCE_ON. 08_memory.md R193. -/
def execBankForceOn (die : Die) (s : State) : Next := bankWrite die 1 s

/-- BANK_FORCE_RETAIN. 08_memory.md R193. -/
def execBankForceRetain (die : Die) (s : State) : Next := bankWrite die 2 s

/-- BANK_FORCE_OFF. 08_memory.md R193. -/
def execBankForceOff (die : Die) (s : State) : Next := bankWrite die 3 s

/-- BANK_AUTOMATIC. 08_memory.md R193. -/
def execBankAutomatic (die : Die) (s : State) : Next := bankWrite die 0 s

/-! ## In-service test (16_lifecycle.md R384) -/

/-- The outcome of an in-service test: counts, die health, and for a fault the BIST record and event. 16_lifecycle.md
R384, 17_health.md R403, R404, R407. -/
def testDone (s : State) (d : Nat) (faults code : Nat) : State :=
  let s := bump s .life_TESTS_RUN 0
  let s := modDie s d fun x => { x with bistResult := code, bistWhen := 2 }
  if faults = 0 then s
  else
    let s := bump s .life_TEST_FAILS 0
    let s := journal s (dieHub s d) 0x14 (leBytes 1 d ++ leBytes 1 code ++ leBytes 2 2 ++ leBytes 4 1 ++ leBytes 4 faults)
    healthEvent s d 4 code

/-- A CAM block with a failing row is retired: its keys go to the overflow table for good. 16_lifecycle.md R384. -/
def retireBlock (s : State) (h block : Nat) : State :=
  if s.chive.retired.contains (h, block) then s
  else
    let rows := (blockRows s.chive.shadow h block).map (·.2)
    let s := modChive s fun c => { c with retired := c.retired ++ [(h, block)] }
    let s := rows.foldl (fun s r => delete s h r.cls r.key r.prio) s
    let s := rows.foldl (fun s r => (insert s h r).1) s
    kgmAdd s (32 + h) 6 block 0 0

/-- A CAM bank takes its rows from the shadow before it returns to service. 09_chive.md R214. -/
def reloadBank (s : State) (h bank : Nat) : State :=
  let mine := fun (p : (Nat × Nat) × ChiveRow) => decide (p.1.1 = h) && decide (p.1.2 / 32768 = bank)
  modChive s fun c => { c with cam := (c.cam.filter fun p => ! mine p) ++ c.shadow.filter mine }

/-- Whether a die has a free ON bank to hold a copy. -/
def spareBank (s : State) (d b : Nat) : Bool :=
  (List.range (bankCount d)).any fun i =>
    decide (i ≠ b) && decide ((bankSt s d i).state = .on) && ! (bankSt s d i).retired && ! bankInUse s d i

/-- BANK_TEST: an ON SRAM bank, saved and restored around the test, or a CAM bank; faults are failing bit-columns, or
failing rows of the CAM bank. 16_lifecycle.md R384, 09_chive.md R214. -/
def execBankTest (die : Die) (bank : Nat) (cam : Bool) (faults : List Nat) (s : State) : Next :=
  let d := die.val
  if cam then
    if d < 32 ∨ 16 ≤ bank then .next s
    else
      let blocks := (faults.map fun f => bank * 2048 + f / 16 % 2048).eraseDups
      let s := reloadBank (blocks.foldl (fun s b => retireBlock s (d - 32) b) s) (d - 32) bank
      .next (testDone s d faults.length (if faults.isEmpty then 0 else 2))
  else if bankCount d ≤ bank ∨ (bankSt s d bank).state ≠ .on then .next s
  else if ! spareBank s d bank then .next (bump s .life_TEST_POSTPONED 0)
  else
    let cols := (faults.filter fun c => decide (c < 144)).eraseDups
    let s := cols.foldl (fun s c => if (bankSt s d bank).retired then s else repairColumn s d bank c) s
    let code := if cols.isEmpty then 0 else if (bankSt s d bank).retired then 2 else 1
    .next (testDone s d cols.length code)

/-- ERR_POP: the oldest record of the error log goes. 08_memory.md R184, 14_host.md R321. -/
def execErrPop (die : Die) (s : State) : Next :=
  if pfSession s then .next (modMem s fun m => { m with errs := amod m.errs die.val fun l => l.drop 1 })
  else .next (writeRefused s (primaryPort s))

/-! ## Margins, canaries, droop (17_health.md R397 to R402) -/

/-- A margin unit with its values before the first measurement; 256 stands for no width since the restart. -/
def marginOf (s : State) (d u : Nat) : Margin := agetD s.health.margins (d, u) ⟨0, 0, 256, 0⟩

/-- Changes a margin unit. -/
def modMargin (s : State) (d u : Nat) (f : Margin → Margin) : State :=
  modHealth s fun h => { h with margins := aset h.margins (d, u) (f (marginOf s d u)) }

/-- MARGIN_MEASURE: one pseudo-channel's read eye. 17_health.md R397, R398. -/
def execMarginMeasure (slice : Slice) (pc width height : Nat) (s : State) : Next :=
  let k := slice.val
  if rg s .health_margin_en = 0 ∨ 64 ≤ pc then .next s
  else
    let w := min width 255
    let low := if w < rg s .health_hbm_width_min then min 15 ((marginOf s k pc).low + 1) else 0
    let s := modMargin s k pc fun x => { x with width := w, height := min height 255, minW := min x.minW w, low := low }
    if low ≠ 3 then .next s
    else
      let s := healthEvent s k 0 w
      if rg s .health_auto_retrain = 0 ∨ (sliceSt s k).st ≠ 0 then .next s
      else if s.life.retrainDue.contains k then .next s
      else .next (nextRetrain (modLife s fun l => { l with retrainDue := l.retrainDue ++ [k] }))

/-- SERDES_MARGIN_REPORT: a receiver's eye height, once per second. 17_health.md R399. -/
def execSerdesMarginReport (die : Die) (unit height : Nat) (s : State) : Next :=
  let d := die.val
  if rg s .health_margin_en = 0 ∨ ¬ unitExists d unit ∨ (d < 32 ∧ unit < 64) then .next s
  else
    let v := min height 255
    let low := if v < rg s .health_serdes_height_min then min 15 ((marginOf s d unit).low + 1) else 0
    let s := modMargin s d unit fun x => { x with height := v, low := low }
    .next (if low = 3 then healthEvent s d 0 v else s)

/-- CANARY_MEASURE: the lowest canary index of the last 1 ms. 17_health.md R400, R401. -/
def execCanaryMeasure (die : Die) (index : Nat) (s : State) : Next :=
  let d := die.val
  let v := min index 0xFFFF
  let lim := 256 + rg s .health_slack_warn
  let old := (dieHealth s d).speed
  let s := modDie s d fun x => { x with speed := v, speedMin := min x.speedMin v }
  .next (if v < lim ∧ (old = 0 ∨ lim ≤ old) then healthEvent s d 1 v else s)

/-- DROOP_EVENT: a fall of mv below the nominal core supply. 17_health.md R402. -/
def execDroopEvent (die : Die) (mv : Nat) (s : State) : Next :=
  let d := die.val
  if mv ≤ rg s .health_droop_mv then .next s
  else
    let s := modDie s d fun x => { x with droops := satAdd x.droops 1, droopSec := x.droopSec + 1 }
    .next (if (dieHealth s d).droopSec = 64 then healthEvent s d 3 64 else s)

/-- Bins of the histograms. 17_health.md R405. -/
def tempBin (t : Int) : Nat := if t < 0 then 0 else min 31 ((t / 4).toNat + 1)
def voltBin (mv : Nat) : Nat := if mv < 670 then 0 else min 31 ((mv - 670) / 5)
def inputBin (mv : Nat) : Nat := if mv < 40000 then 0 else min 21 (mv / 1000 - 39)

/-- HISTOGRAM_SAMPLE: one second of a die's histograms; the hub that drives the NAND bus holds the input's. 17_health.md
R405. -/
def execHistogramSample (die : Die) (temp : Int) (core input : Nat) (s : State) : Next :=
  let d := die.val
  let s := modDie s d fun x => { x with droopSec := 0 }
  let driver : Bool := decide (32 ≤ d) && decide (nandHub s = some (d - 32))
  .next (modHealth s fun h =>
    { h with
      temps := aupd h.temps (d, tempBin temp) 0 fun n => satAdd n 1,
      volts := aupd h.volts (d, voltBin core) 0 fun n => satAdd n 1,
      inputs := if driver then aupd h.inputs (inputBin input) 0 fun n => satAdd n 1 else h.inputs })

/-- speed_min, min_width and max_temp of die_sel restart. 17_health.md R419. -/
def clearMin (s : State) : State :=
  let d := rg s .health_die_sel
  let s := modDie s d fun x => { x with speedMin := 0xFFFF, maxTemp := -128 }
  modHealth s fun h => { h with margins := h.margins.map fun p => if p.1.1 = d then (p.1, { p.2 with minW := 256 }) else p }

/-- A write of clear_min under R321. 17_health.md R419, 14_host.md R321. -/
def execClearMin (s : State) : Next :=
  if pfSession s then .next (clearMin s) else .next (writeRefused s (primaryPort s))

/-! ## Latched reads (17_health.md R403, R417; 12_ledger.md R299) -/

/-- The margin unit of a die with the narrowest eye: width and margin_sel. -/
def worstMargin (s : State) (d : Nat) : Nat × Nat :=
  match sortBy (fun p => p.2.width) (s.health.margins.filter fun p => decide (p.1.1 = d) && decide (0 < p.2.width)) with
  | [] => (0, 0)
  | p :: _ => (p.2.width, p.1.2)

/-- The summary of a die; its count of fuse bits left is a free value (assumption 40). 17_health.md R403. -/
def dieSummary (s : State) (d : Nat) (fuseFree : Nat) : List Byte :=
  let x := dieHealth s d
  let st := if d < 32 then (sliceSt s d).st else (hubSt s (d - 32)).st
  let stack := if d < 32 then ofSigned 8 (stackSt s d).temp else 0
  let (w, sel) := worstMargin s d
  leBytes 1 1 ++ leBytes 1 (st % 8) ++ (x.temps.map fun t => leBytes 1 (ofSigned 8 t)).flatten ++ leBytes 1 stack ++
    leBytes 1 (ofSigned 8 (max x.maxTemp (dieTemp s d))) ++ leBytes 2 x.speed ++ leBytes 2 x.speedMin ++
    leBytes 4 x.droops ++ leBytes 4 x.corrMem ++ leBytes 4 x.corrLink ++ leBytes 2 x.uncMem ++ leBytes 2 x.uncLink ++
    leBytes 2 (if d < 32 then 0 else x.camScrub) ++ leBytes 1 x.bistResult ++ leBytes 1 (x.bistWhen % 4) ++
    leBytes 2 (s.mem.banks.filter fun p => decide (p.1.1 = d) && p.2.retired).length ++ leBytes 2 (sparesUsed s d) ++
    leBytes 2 (if d < 32 then x.rowsRepaired else 0) ++ leBytes 2 (fuseFree % 65536) ++ leBytes 1 w ++ leBytes 1 sel ++
    zeros 14 ++ leBytes 8 (now s (dieHub s d))

/-- Latches the summary of die_sel. -/
def latchSummary (s : State) : State :=
  let d := rg s .health_die_sel
  if 40 ≤ d then modHost s fun h => { h with dieSum := zeros 64 }
  else
    let b := dieSummary s d (fresh s).1
    modHost (fresh s).2 fun h => { h with dieSum := b }

/-- A tenant's metering record as published: what a tenant-facing reader sees of it. 15_trust.md R362, 17_health.md R418. -/
def meterSeen (s : State) (t : Nat) : Meter := agetD s.health.pubM t ⟨0, 0, 0, 0, 0, 0, 0, 0, 0⟩

/-- Latches the metering record of meter_tenant for a reader: the published one where it is tenant-facing. -/
def latchMeter (s : State) (coarse : Bool) : State :=
  let t := rg s .health_meter_tenant
  let m := if coarse then meterSeen s t else meterOf s t
  modHost s fun h => { h with meterRec := m.bytes }

/-- A read of local_time_lo latches local_time_hi of its hub. 12_ledger.md R299. -/
def latchTime (s : State) (h : Nat) : State :=
  modHost s fun x => { x with ltHi := aset x.ltHi h (now s h / 2 ^ 32 % 2 ^ 32) }

/-- Clears a census entry. -/
def clearCensus (s : State) (h i : Nat) : State :=
  modFab s fun f => { f with census := amod f.census h fun l => l.set i none }

/-- CENSUS_ENTRY_CLEAR. 16_lifecycle.md R377, 14_host.md R321. -/
def execCensusEntryClear (hub : Hub) (entry : Fin 16) (s : State) : Next :=
  if pfSession s then .next (clearCensus s hub.val entry.val) else .next (writeRefused s (primaryPort s))

end Sys2Proof.Machine
end

