-- ==== Sys2Proof/Machine/Index.lean ====
section
/-!
DEFINITION. The commands of the Chive index. 09_chive.md R206 to R215.
-/
namespace Sys2Proof.Machine

/-- What an insert tells the unit that asked: BOUNDS or BUSY where it is refused. 09_chive.md R207, R209. -/
def insertStatus (r : State × Inserted) : State :=
  match r.2 with
  | .done => r.1
  | .exists_ _ => r.1
  | .bounds => emit r.1 (.status .bounds)
  | .busy => emit r.1 (.status .busy)

/-- CHIVE_INSERT. 09_chive.md R206 to R209. -/
def execChiveInsert (hub : Hub) (row : ChiveRow) (s : State) : Next :=
  .next (if hubAlive s hub.val then insertStatus (insert s hub.val row) else s)

/-- CHIVE_DELETE. 09_chive.md R207. -/
def execChiveDelete (hub : Hub) (row : ChiveRow) (s : State) : Next :=
  .next (if hubAlive s hub.val then delete s hub.val row.cls row.key row.prio else s)

/-- CHIVE_REPLACE. 09_chive.md R207. -/
def execChiveReplace (hub : Hub) (row : ChiveRow) (s : State) : Next :=
  .next (if hubAlive s hub.val then replace s hub.val row else s)

/-- Returns the overflowed rows of a key to their block when it has room for all of them with a hole left: the rows go
into the block, then leave the table. 09_chive.md R211. -/
def returnKey (s : State) (h cls key : Nat) : State :=
  let block := homeBlock s h cls key
  let rows := byPrio (otFind s h cls key)
  if rows.isEmpty ∨ s.chive.retired.contains (h, block) ∨
      15 < (blockRows s.chive.shadow h block).length + rows.length then s
  else
    let s := rows.foldl (fun s r => insertBlock s h r) s
    settleFlag (setOt s h cls ((otRows s h cls).filter fun p => ! rowIs cls key p.2)) h cls

/-- OVERFLOW_RETURN. 09_chive.md R211. -/
def execOverflowReturn (hub : Hub) (cls key : Nat) (s : State) : Next :=
  .next (if hubAlive s hub.val then returnKey s hub.val cls key else s)

/-- Positions of a hub's CAM. 09_chive.md R200. -/
def camPositions : Nat := 32768 * 16

/-- The scrubber compares the next position with its shadow. 09_chive.md R212. -/
def camScrubOne (s : State) (h : Nat) : State :=
  let pos := agetD s.chive.scrub h 0 % camPositions
  let sh := aget s.chive.shadow (h, pos)
  let ok := decide (aget s.chive.cam (h, pos) = sh)
  let s := modChive s fun c =>
    { c with scrub := aset c.scrub h ((pos + 1) % camPositions),
             cam := match ok, sh with
               | true, _ => c.cam
               | false, some r => aset c.cam (h, pos) r
               | false, none => adel c.cam (h, pos) }
  if ok then s
  else modDie (chiveBump s h .chive_SCRUB_MISMATCH) (32 + h) fun d => { d with camScrub := d.camScrub + 1 }

/-- CAM_SCRUB. 09_chive.md R212. -/
def execCamScrub (hub : Hub) (s : State) : Next :=
  .next (if hubAlive s hub.val ∧ rget s .chive_scrub_en hub.val 0 = 1 then camScrubOne s hub.val else s)

/-- A shadow word of a block cannot be corrected: it is counted, logged and journalled, one row of the block, which the
command does not name, is invalidated and the block is marked rebuilding. 09_chive.md R213 steps 1 and 2, 08_memory.md
R181, R184 (assumption 145). -/
def markRebuild (s : State) (h block : Nat) : State :=
  let (v, s) := fresh s
  let pos := block * 16 + v % 16
  let s := badWord s 3 (v / 32 % 65536) (32 + h) readDemand (shadowOff + pos * 32 + v / 16 % 2 * 16)
  let s := rowWrite s h pos none
  chiveBump (modChive s fun c =>
    { c with rebuild := if c.rebuild.contains (h, block) then c.rebuild else c.rebuild ++ [(h, block)] }) h .chive_REBUILDS

/-- BLOCK_REBUILD. 09_chive.md R213. -/
def execBlockRebuild (hub : Hub) (block : Nat) (s : State) : Next :=
  .next (if hubAlive s hub.val then markRebuild s hub.val block else s)

/-- The scan of a new home hub reads the next page header and enters the row of a keyed page unless its key has one.
09_chive.md R215, 08_memory.md R180, R181. -/
def rootScan (s : State) (h : Nat) : State :=
  match agetD s.chive.scan h [] with
  | [] => s
  | lpn :: rest =>
    let s := modChive s fun c => { c with scan := aset c.scan h rest }
    if (aget s.mem.slots lpn).isNone then s
    else
      match loadHdr s lpn readUnit with
      | (s, none) => s
      | (s, some hd) =>
        let r := pageRow hd lpn
        if hd.sealed ∧ hd.keyed ∧ (rowOf s h clsPrefix r.key).isNone then (insert s h r).1 else s

/-- PREFIX_ROOT_SCAN. 09_chive.md R215. -/
def execPrefixRootScan (hub : Hub) (s : State) : Next :=
  .next (if hubAlive s hub.val then rootScan s hub.val else s)

end Sys2Proof.Machine
end

