-- ==== Sys2Proof/Machine/HostPort.lean ====
section
/-!
DEFINITION. The commands of the host ports: command slots and their final writes, payload reads, completion rings, direct
windows, and the resets of functions and ports. 14_host.md R316 to R337.
-/
namespace Sys2Proof.Machine

/-- Whether a port takes requests of the host: its link is up, its hub serves it, and Retry Status is over (16_lifecycle.md
R378 steps 1 and 10). -/
def portTakes (s : State) (p : Nat) : Bool := portUp s p && decide (s.life.node ≠ 0)

/-- Whether a selective IDE stream of a port is in use. 15_trust.md R360. -/
def ideOn (s : State) (p stream : Nat) : Bool := (aget s.host.ideSet (p, stream)).isSome

/-- Whether a function takes a request that comes on the named IDE stream of its port, or on none. Which streams are bound
to a function the spec leaves to fn_ide_required alone: every stream in use at the port (assumption 98). 14_host.md
R318, 15_trust.md R360. -/
def ideOk (s : State) (p f : Nat) (ide : Option Nat) : Bool :=
  decide (rget s .port_fn_ide_required p f = 0) || ide.any (ideOn s p)

/-- Whether a function takes a write of the host. -/
def takesTlp (s : State) (p f : Nat) (ide : Option Nat) : Bool := portTakes s p && ideOk s p f ide

/-- What becomes of a write a function does not take: without its stream it is logged through AER. 14_host.md R318. -/
def untaken (s : State) (p f : Nat) : State := if portTakes s p then emit s (.aer p f) else s

/-! ## Command slots (14_host.md R323 to R327) -/

/-- COMMAND_BODY_WRITE. 14_host.md R325, R326. -/
def execCommandBodyWrite (port : Port) (fn : Fn) (slot : Slot64) (offset : Nat) (data : List Byte) (s : State)
    (ide : Option Nat := none) : Next :=
  let p := port.val
  let f := fn.val
  if ! takesTlp s p f ide then .next (untaken s p f)
  else if (hostSlot s p f slot.val).busy then .next (bump s .fn_SLOT_BUSY_WRITES (fnInst p f))
  else .next (modSlot s p f slot.val fun x =>
    { x with body := (data.zipIdx).foldl (fun m b => aset m (offset + b.2) b.1) x.body })

/-- The n bytes of a slot from an offset on; a byte never written is zero. -/
def slotBytes (x : HostSlot) (off n : Nat) : List Byte := (List.range n).map fun i => agetD x.body (off + i) 0#8

/-- Expected sequence after one, and before one. 14_host.md R326. -/
def seqAfter (e : Nat) : Nat := if e = 0xFFFF then 1 else e + 1
def seqBefore (e : Nat) : Nat := if e = 1 then 0xFFFF else e - 1

/-- Whether a ring is enabled. -/
def ringOn (s : State) (p f r : Nat) : Bool := decide (rget s .fn_ring_enable (fnInst p f) r = 1)

/-- The ring a completion goes to. 14_host.md R327 order 2. -/
def ringFor (s : State) (p f r : Nat) : Nat := if ringOn s p f r then r else 0

/-- D of the sequence that an ATTEND payload names; 0 where the handle names none. -/
def attDim (s : State) (m : Msg) : Nat :=
  match s.seqs.descs.find? fun x => decide (x.2.handle = (Att.parse m.be m.payload).handle) && decide (x.2.tenant = m.tenant) with
  | some (_, d) => d.geom.d
  | none => 0

/-- Whether response_length is below the least of R324, which of an ATTEND and a READ shows once the payload is at hand. -/
def respShort (s : State) (m : Msg) : Bool := decide (m.respLen < leastResp m.opcode m.payload m.payLen (attDim s m))

/-- The command a record makes of an accepted slot. 14_host.md R319, R323. -/
def cmdMsg (s : State) (p f slot : Nat) (c : CmdRec) (op : Opcode) (payload : List Byte) : Msg :=
  { hub := portHub p, origin := .pcie p f slot, opcode := op, resp := false, replyTo := 0,
    endpoint := rget s .port_fn_endpoint p f, tenant := if f = 0 then c.tenant else rget s .port_fn_tenant p f,
    pd := rget s .port_fn_pd p f, cls := c.cls, colour := .green, epoch := c.epoch, be := false, payload := payload,
    v0 := false, phase := .arrived, at_ := now s (portHub p), held := [], units := 0, heldSt := .ok, heldMap := 0, heldKv := 0,
    heldPos := 0, irq := c.irq, ring := ringFor s p f c.ring, payLen := c.length, respLen := c.respLen,
    respAddr := c.respAddr, tag := c.tag, slotSeq := c.seq, fence := c.fence, arg0 := c.arg0, arg1 := c.arg1 }

/-- Orders 1 to 4 of R327. 14_host.md R327. -/
def cmdFail (s : State) (p f : Nat) (c : CmdRec) (m : Msg) (known : Bool) : Option Status :=
  firstFail [
    (decide (c.ver ≠ 1) || c.resv || ! (pcieOps.any fun o => decide (o.code = c.opcode)), .version),
    (! ringOn s p f c.ring, .bounds),
    ((decide (f ≠ 0) && decide (rget s .port_fn_tenant p f = 0)) ||
      (decide (m.opcode = .mgmt) && (decide (f ≠ 0) || decide (primaryPort s ≠ p))), .pdMismatch),
    (decide (8388608 < c.length) || (c.inl && decide (4032 < c.length)) || (known && respShort s m), .bounds)]

/-- Ends a command without a response. 14_host.md R330. -/
def endCmd (s : State) (id : Nat) (st : Status) (hint : Nat) : State :=
  match msgOf s id with
  | none => s
  | some m =>
    match m.origin with
    | .pcie p f slot => completePcie s m id p f slot st hint []
    | _ => s

/-- The payload of a command is at hand: what remains of order 4, then order 7. 14_host.md R327. -/
def payloadIn (s : State) (id : Nat) (m : Msg) : State :=
  let s := modMeter s m.tenant fun x => { x with bytesIn := x.bytesIn + m.payload.length }
  if respShort s m then endCmd s id .bounds 0 else runNine s id

/-- Whether a command may be taken in the node's state: in service, or the management of RECOVERY. 14_host.md R327,
16_lifecycle.md R378, R383, 18_package.md R433. -/
def cmdOpen (s : State) (op : Opcode) : Bool := inService s || (decide (s.life.node = 1) && decide (op = .mgmt))

/-- Puts a command in the queue. -/
def queueCmd (s : State) (id : Nat) (m : Msg) : State := setMsgs s (s.msgs ++ [(id, m)])

/-- Orders 5 to 7 of R327 for a command that passed orders 1 to 4; it takes its place in the queue once order 5's policing has
let it by. 14_host.md R327, 13_traffic.md R304. -/
def cmdFive (s : State) (id : Nat) (c : CmdRec) (m : Msg) (p f : Nat) : State :=
  if ! cmdOpen s m.opcode then endCmd (queueCmd s id m) id .busy (if draining s then 15 else 0)
  else
    match orderEight s m.hub (polFn p f) c.cls (c.length + 64) true with
    | (s, .busy) => endCmd (queueCmd s id m) id .busy 0
    | (s, .take cls colour) =>
      let m := { m with cls := cls, colour := colour }
      let s := queueCmd s id m
      if c.inl ∨ c.length = 0 ∨ m.opcode = .snapshot then payloadIn s id m
      else emit (setPhase s id .waitPayload) (.hostRead p c.addr c.length)

/-- A command is accepted: its slot is busy, e advances, its body and inline payload are copied, and its checks run.
14_host.md R325 to R327. -/
def acceptCmd (s : State) (p f slot : Nat) (c : CmdRec) : State :=
  let x := hostSlot s p f slot
  let op := (Opcode.ofCode c.opcode).getD .nack
  let m := cmdMsg s p f slot c op (if c.inl ∧ op ≠ .snapshot then slotBytes x 64 (min c.length 4032) else [])
  let s := modSlot s p f slot fun y => { y with busy := true, expected := seqAfter y.expected }
  let s := bump s .port_COMMANDS p
  let (id, s) := newId s
  match cmdFail s p f c m (c.inl || decide (op ≠ .attend) && decide (op ≠ .read)) with
  | some st => endCmd (queueCmd s id m) id st 0
  | none => cmdFive s id c m p f

/-- A final write to a slot that is free. 14_host.md R326. -/
def finalTo (s : State) (p f slot : Nat) (value : BitVec 64) : State :=
  let x := hostSlot s p f slot
  let c := CmdRec.parse (slotBytes x 0 56 ++ leBytes 8 value.toNat)
  if ! c.valid then s
  else if c.seq = x.expected then acceptCmd s p f slot c
  else if c.seq = seqBefore x.expected then bump s .fn_DUP_FINALS (fnInst p f)
  else
    let s := bump s .fn_SEQ_REFUSED (fnInst p f)
    writeCompletion s p f slot (ringFor s p f c.ring) c.seq c.tag 0 Status.bounds.code 0 c.irq

/-- FINAL_WRITE. 14_host.md R325 to R327. -/
def execFinalWrite (port : Port) (fn : Fn) (slot : Slot64) (value : BitVec 64) (s : State) (ide : Option Nat := none) : Next :=
  let p := port.val
  let f := fn.val
  if ! takesTlp s p f ide then .next (untaken s p f)
  else if ! ringOn s p f 0 ∨ (hostSlot s p f slot.val).busy then .next (bump s .fn_SLOT_BUSY_WRITES (fnInst p f))
  else .next (finalTo s p f slot.val value)

/-- PAYLOAD_READ_COMPLETE: the reads of a command's payload end; data of another length is no such end. 14_host.md R327
order 6. -/
def execPayloadReadComplete (msg : Nat) (r : DmaResult) (s : State) : Next :=
  match msgOf s msg with
  | none => .next s
  | some m =>
    if m.phase ≠ .waitPayload then .next s
    else
      match r with
      | .failed => .next (endCmd s msg .bounds 0)
      | .poisoned => .next (endCmd s msg .uncorrectable 0)
      | .data bytes =>
        if bytes.length ≠ m.payLen then .next s
        else
          let m' := { m with payload := bytes, phase := .arrived }
          .next (payloadIn (modMsg s msg fun _ => m') msg m')

/-! ## Rings (14_host.md R329, R331, R340) -/

/-- COALESCE_EXPIRY. 14_host.md R331. -/
def execCoalesceExpiry (port : Port) (fn : Fn) (ring : Fin 16) (s : State) : Next :=
  let p := port.val
  let g := ringOf s p fn.val ring.val
  if ! g.held ∨ ! portUp s p then .next s
  else
    let due := g.lastMsg.getD 0 + rget s .fn_coalesce_ns (fnInst p fn.val) ring.val
    .next (raiseRing (passTo s (portHub p) due) p fn.val ring.val)

/-- ring_enable written 1: a ring that was not enabled starts at entry 0, phase 1. 14_host.md R340. -/
def enableRing (s : State) (p f r : Nat) : State :=
  if ringOn s p f r then s
  else
    let s := rset s .fn_ring_enable (fnInst p f) r 1
    modHost s fun x => { x with rings := aset x.rings (p, f, r) ⟨0, true, none, false⟩ }

/-- RING_ENABLE. 14_host.md R340. -/
def execRingEnable (port : Port) (fn : Fn) (ring : Fin 16) (s : State) (ide : Option Nat := none) : Next :=
  if takesTlp s port.val fn.val ide then .next (enableRing s port.val fn.val ring.val) else .next (untaken s port.val fn.val)

/-! ## Direct windows (14_host.md R332, R333) -/

/-- The access a window makes of a TLP. -/
def winAcc (s : State) (p f w off len : Nat) : AccHdr :=
  let i := fnInst p f
  { (default : AccHdr) with
    ver := 1, key := rget s .fn_win_key i w,
    offset := rget s .fn_win_offset_lo i w + rget s .fn_win_offset_hi i w * 2 ^ 32 + off, length := len }

/-- Orders 3 to 7 of R257 for a window access: the region and its index, or the status. A region out of reach is STALE_UNIT
before them (12_ledger.md R298, assumption 183); a write to a SEQUENCE region is refused. 14_host.md R332. -/
def winCheck (s : State) (p f : Nat) (write : Bool) (a : AccHdr) : State × Except Status (Nat × Region) :=
  match checkKey s a.key (rget s .port_fn_pd p f) with
  | .error st => (s, .error st)
  | .ok (i, r) =>
    if tlpStale s r a.offset a.length then (s, .error .staleUnit)
    else if write ∧ r.kind = rkSequence then (s, .error .bounds)
    else
      match rangeCheck s r write a with
      | (s, some st) => (s, .error st)
      | (s, none) => (s, .ok (i, r))

/-- The status a disabled window latches, which the spec does not state: a free value among the statuses that refuse. -/
def disabledWin (s : State) (p f w : Nat) : State := latchWin (freeRefusal s).1 p f w (freeRefusal s).2.code

/-- DIRECT_WINDOW_READ. 14_host.md R318, R332, R333. -/
def execDirectWindowRead (port : Port) (fn : Fn) (window : Fin 16) (offset length : Nat) (ide : Option Nat) (s : State) : Next :=
  let p := port.val
  let f := fn.val
  let w := window.val
  let ur := fun (s : State) => emit s (.readDone p f false none)
  if ! portTakes s p then .next s
  else if ! ideOk s p f ide then .next (ur (emit s (.aer p f)))
  else if rget s .fn_win_enable (fnInst p f) w = 0 then .next (ur (disabledWin s p f w))
  else
    let a := winAcc s p f w offset length
    match winCheck s p f false a with
    | (s, .error st) => .next (refuseTlp s ⟨p, f, w, 0, a.offset, length, none⟩ st)
    | (s, .ok (i, r)) => .next (takeTlp s ⟨p, f, w, i, a.offset, length, none⟩ r)

/-- DIRECT_WINDOW_WRITE. 14_host.md R318, R332, R333. -/
def execDirectWindowWrite (port : Port) (fn : Fn) (window : Fin 16) (offset : Nat) (data : List Byte) (ide : Option Nat)
    (s : State) : Next :=
  let p := port.val
  let f := fn.val
  let w := window.val
  let no := fun (s : State) => bump s .fn_WINDOW_REFUSED (fnInst p f)
  if ! portTakes s p then .next s
  else if ! ideOk s p f ide then .next (emit s (.aer p f))
  else if rget s .fn_win_enable (fnInst p f) w = 0 then .next (no (disabledWin s p f w))
  else
    let a := winAcc s p f w offset data.length
    match winCheck s p f true a with
    | (s, .error st) => .next (refuseTlp s ⟨p, f, w, 0, a.offset, data.length, some data⟩ st)
    | (s, .ok (i, r)) => .next (takeTlp s ⟨p, f, w, i, a.offset, data.length, some data⟩ r)

/-! ## Resets and loss of a port (14_host.md R335, R336) -/

/-- Commands of a function that run. -/
def fnCmds (s : State) (p f : Nat) : List Nat :=
  (s.msgs.filter fun x => match x.2.origin with
    | .pcie p' f' _ => decide (p' = p) && decide (f' = f)
    | _ => false).map (·.1)

/-- A function is reset: what it accepted runs on unheard, its rings and windows are disabled, its slots are free at
e = 1, and a changed fn_msix_count takes effect. 14_host.md R335, R339. -/
def resetFn (s : State) (p f : Nat) : State :=
  let ids := fnCmds s p f
  let s := modHost s fun h =>
    { h with muted := h.muted ++ ids.filter fun i => ! h.muted.contains i,
             slots := h.slots.filter fun x => ! (decide (x.1.1 = p) && decide (x.1.2.1 = f)),
             rings := h.rings.filter fun x => ! (decide (x.1.1 = p) && decide (x.1.2.1 = f)),
             msix := aset h.msix (p, f) (rget s .port_fn_msix_count p f) }
  let off := fun (s : State) (i : Nat) =>
    rset (rset s .fn_ring_enable (fnInst p f) i 0) .fn_win_enable (fnInst p f) i 0
  (List.range 16).foldl off s

/-- FUNCTION_LEVEL_RESET. 14_host.md R335. -/
def execFunctionLevelReset (port : Port) (fn : Fn) (s : State) : Next := .next (resetFn s port.val fn.val)

/-- PCIE_LINK_DOWN. 14_host.md R336. -/
def execPcieLinkDown (port : Port) (s : State) : Next := .next (pcieDown s port.val)

/-- A port comes out of PERST#: every function of it is reset, its keys and its SPDM session are gone, and it trains
where its hub is out of reset. 18_package.md R427 step 6. -/
def portRelease (s : State) (p : Nat) : State :=
  let s := (List.range 64).foldl (fun s f => resetFn s p f) s
  let s := modHost s fun h =>
    { h with ideKeys := h.ideKeys.filter fun k => decide (k.port ≠ p), ideSet := h.ideSet.filter fun k => decide (k.1.1 ≠ p),
             secured := h.secured.filter fun q => decide (q ≠ p) }
  let s := modPower s fun x => { x with perst := x.perst.set p true }
  if (hubSt s (portHub p)).up then trainPort s p else modPower s fun x => { x with pcieUp := x.pcieUp.set p false }

/-- PERST_RELEASE. 18_package.md R427 step 6. -/
def execPerstRelease (port : Port) (s : State) : Next :=
  if s.power.rails then .next (portRelease s port.val) else .next s

end Sys2Proof.Machine
end

