-- ==== Sys2Proof/Machine/Registers.lean ====
section
/-!
DEFINITION. The registers behind BAR0: where an offset lies, what a field reads as, what a write does, the coarse values
tenant-facing readers see, and the rows of register writes. 14_host.md R321, R338 to R340; 15_trust.md R362, R363;
16_lifecycle.md R368, R373, R448.
-/
namespace Sys2Proof.Machine

/-! ## Places (14_host.md R338) -/

/-- Block, instance and offset in the block of an offset in the BAR0 of port p's PF; none where it is reserved. -/
def barPlace (p off : Nat) : Option (Blk × Nat × Nat) :=
  if off < 0x1000 then some (.ident, 0, off)
  else if off < 0x2000 then some (.port, p, off - 0x1000)
  else if off < 0x3000 then some (.tier, 0, off - 0x2000)
  else if off < 0x10000 then none
  else if off < 0x20000 then some (.fn, fnInst p 0, off - 0x10000)
  else if off < 0x21000 then none
  else if off < 0x60000 then some (.fn, fnInst p ((off - 0x20000) / 0x1000), off % 0x1000)
  else if off < 0x100000 then none
  else if off < 0x900000 then
    let h := (off - 0x100000) / 0x100000
    let o := off % 0x1000
    match off % 0x100000 / 0x1000 with
    | 0 => some (.sorrel, h, o)
    | 1 => some (.chive, h, o)
    | 2 => some (.fab, h, o)
    | 3 => some (.region, h, o)
    | 4 => some (.ledger, h, o)
    | 5 => some (.traffic, h, o)
    | 6 => some (.mem, 32 + h, o)
    | 8 => some (.lov, h, o)
    | _ => none
  else if off < 0xD00000 then
    let k := (off - 0x900000) / 0x20000
    let o := (off - 0x900000) % 0x20000
    if o < 0x10000 then some (.mem, k, o) else some (.dill, k, o - 0x10000)
  else if off < 0xD10000 then some (.life, 0, off - 0xD00000)
  else if off < 0xD20000 then some (.health, 0, off - 0xD10000)
  else none

/-- The fields of the 32-bit register at an offset of a block, each with its entry in the table's index. -/
def fieldsAt (b : Blk) (off : Nat) : List (Reg × Nat) :=
  (Reg.ofBlk b).filterMap fun r =>
    let x := r.info
    let k := if x.stride = 0 ∨ off < x.off then 0 else (off - x.off) / x.stride
    if x.off + x.stride * k = off ∧ k < x.count then some (r, k) else none

/-- The entry a field stands for: what its selector names, or its index in the table. -/
def entryOf (s : State) (r : Reg) (inst k : Nat) : Nat :=
  match r.info.sel with
  | .quota => rget s .tier_quota_index 0 0
  | .kernel => rget s .dill_kt_index inst 0
  | .bank => rget s .mem_bank_sel inst 0
  | .profile => rget s .traffic_prof_index inst 0
  | .endpoint => rget s .traffic_pol_endpoint inst 0
  | .egress => 16 * rget s .traffic_eg_subport inst 0 + rget s .traffic_eg_class inst 0
  | .gate => 64 * rget s .traffic_gl_subport inst 0 + k
  | .fn => rget s .port_fn_sel inst 0
  | _ => k

/-! ## What a field reads as -/

/-- Tenant of the quota entry selected; entry 0 names none. 06_append.md R138, R139. -/
def quotaTenant (s : State) (i : Nat) : Nat := if i = 0 then 0 else rget s .tier_quota_tenant 0 i

/-- Commands of a slice's Dill that are resident. 07_dill.md R146. -/
def residentCmds (s : State) (k : Nat) : Nat :=
  residents (dillOf s k)

/-- A program-table entry. -/
def progAt (s : State) (p : Nat) : Prog := agetD s.dill.progs p ⟨0, 0, 0, false⟩

/-- Bits of a list of numbers counted from a place. -/
def maskFrom (n lo : Nat) : Nat := (2 ^ n - 1) * 2 ^ lo

/-- Codes of bank states. 08_memory.md R199. -/
def BankState.code : BankState → Nat
  | .off => 0 | .retain => 1 | .on => 2

/-- Codes of unit states. 12_ledger.md R299. -/
def UnitState.code : UnitState → Nat
  | .inService => 0 | .quarantined => 1 | .verifying => 2

/-- Security version of the Lovage firmware a hub runs, 0 before its measured boot. 15_trust.md R345, R367. -/
def lovSvn (s : State) (h : Nat) : Nat := (lovOf s h).svn

/-- Bytes o to o + 3 of the alias digest: the first 16 bytes of SHAKE256 of the alias public key; 0 before the measured
boot. 15_trust.md R367. -/
def aliasDigest (s : State) (h o : Nat) : Nat :=
  if (lovOf s h).aliasSeed.isEmpty then 0 else fld false (Config.shake256 (aliasPublic s h) 16) o 4

/-- Whether the legacy port is enabled. 15_trust.md R364. -/
def legacyOn (s : State) : Bool := s.power.strap || (trustCfg s).legacyEn

/-- Erase counts of the ring and log blocks. 17_health.md R415. -/
def eraseCounts (f : Flash) : List Nat := (f.ring ++ f.logBlocks).map fun b => agetD f.erases b 0

/-- The census entry i of a hub. 16_lifecycle.md R377. -/
def censusAt (s : State) (h i : Nat) : Option Census := ((agetD s.fab.census h [])[i]?).getD none

/-- The running firmware slot of a die. -/
def fwSlot (s : State) (d : Nat) : Nat := agetD s.life.dieFw d 0

/-- Slice-only fields of the memory block, which read zero in a hub. 08_memory.md R199. -/
def sliceOnly (r : Reg) : Bool :=
  r == .mem_temp_2x || r == .mem_temp_4x || r == .mem_temp_crit || r == .mem_hysteresis || r == .mem_sr_idle

/-- Fields of the hub blocks that follow from the state. -/
def hubVal (s : State) (r : Reg) (h k : Nat) : Option Nat :=
  match r with
  | .sorrel_contexts_free => some (ctxMax - ctxsUsed s h)
  | .sorrel_pool_free => some (poolMax - poolUsed s h)
  | .chive_rebuilding_blocks => some (s.chive.rebuild.filter fun p => decide (p.1 = h)).length
  | .chive_rows_used => some (s.chive.cam.filter fun p => decide (p.1.1 = h) && decide (p.2.cls = k + 1)).length
  | .chive_overflowed => some (b2n (overflowed s h (k + 1)))
  | .chive_ot_used => some (otRows s h (k + 1)).length
  | .fab_link_up => some (sumNat ((List.range 4).map fun u =>
      match aget s.fab.subs (h, u) with
      | some x => if x.link ∧ ! x.spent then 2 ^ u else 0
      | none => 0))
  | .fab_conn_onchip => some (onChipCount s h)
  | .fab_conn_spilled => some (spilledCount s h)
  | .region_regions_active => some (regionsActive s)
  | .ledger_local_time_lo => some (now s h % 2 ^ 32)
  | .ledger_local_time_hi => some (agetD s.host.ltHi h 0)
  | .ledger_epoch_newest => some s.ledg.newest
  | .ledger_epoch_previous => some s.ledg.previous
  | .ledger_epoch_pending => some s.ledg.pendEpoch
  | .ledger_dir_entries => some (dirCount s h)
  | .ledger_unit_state => some (hubSt s h).unitSt.code
  | .ledger_unit_generation => some (hubSt s h).unitGen
  | .ledger_inflight_previous => some (inflightUnder s h s.ledg.previous)
  | .traffic_gl_active_index => some (gatesOf s h (k / 64)).index
  | .traffic_gl_running => some (b2n (! (gatesOf s h (k / 64)).run.isEmpty))
  | .traffic_gl_pending => some (b2n (gatesOf s h (k / 64)).pend.isSome)
  | .lov_lovage_ok => some (b2n (lovOf s h).booted)
  | .lov_is_primary => some (b2n (lovOf s h).isPrimary)
  | .lov_legacy_active => some (b2n (decide (h = 0) && legacyOn s))
  | .lov_strap_legacy => some (b2n s.power.strap)
  | .lov_primary_hub => some ((lovOf s h).primary.getD 0)
  | .lov_primary_known => some (b2n (lovOf s h).primary.isSome)
  | .lov_sessions_open => some (if (lovOf s h).isPrimary then s.trust.sessions.length else 0)
  | .lov_term => some (lovOf s h).term
  | .lov_svn_lo => some (lovSvn s h % 2 ^ 32)
  | .lov_svn_hi => some (lovSvn s h / 2 ^ 32)
  | .lov_alias_digest0 => some (aliasDigest s h 0)
  | .lov_alias_digest1 => some (aliasDigest s h 4)
  | .lov_alias_digest2 => some (aliasDigest s h 8)
  | .lov_alias_digest3 => some (aliasDigest s h 12)
  | _ => none

/-- Fields of the slice, die, tier, function and port blocks that follow from the state. -/
def dieVal (s : State) (r : Reg) (d k : Nat) : Option Nat :=
  match r with
  | .tier_sram_used => some (sramUsed s (quotaTenant s k))
  | .tier_slot_used => some (slotUsed s (quotaTenant s k))
  | .tier_merge_used => some (mergeUsed s (quotaTenant s k))
  | .dill_programs_valid => some s.dill.progs.length
  | .dill_contexts_resident => some (residentCmds s d)
  | .dill_start_word => some (progAt s k).start
  | .dill_length_words => some (progAt s k).len
  | .dill_bound_ns => some (progAt s k).bound
  | .dill_operator => some (b2n (progAt s k).operator)
  | .dill_valid => some (b2n (aget s.dill.progs k).isSome)
  | .mem_profile_full => some (b2n (decide (d < 32) && s.life.full))
  | .mem_full_permitted => some (b2n (decide (d < 32) && decide (s.life.part = .p2TF)))
  | .mem_profile_pending => some (b2n (decide (d < 32) && s.life.fullNext))
  | .mem_stack_temp => some (if d < 32 then ofSigned 8 (stackSt s d).temp else 0)
  | .mem_refresh_rate => some (if d < 32 then (stackSt s d).rate else 0)
  | .mem_die_temp => some (ofSigned 8 (dieTemp s d))
  | .mem_throttle_level => some (if d < 32 then agetD s.mem.level d 0 else 0)
  | .mem_power_avg => some s.mem.powerAvg
  | .mem_bank_state => some (bankSt s d k).state.code
  | .mem_bank_request => some (bankSt s d k).request
  | .mem_bank_retired => some (b2n (bankSt s d k).retired)
  | .mem_spares_fused => some (maskFrom (bankSt s d k).fused.length 0)
  | .mem_spares_soft => some (maskFrom (bankSt s d k).soft.length (bankSt s d k).fused.length)
  | .mem_err_count => some (agetD s.mem.errs d []).length
  | .ident_part_code => some s.life.part.code
  | .ident_serial_lo => some (Config.serial % 2 ^ 32)
  | .ident_serial_hi => some (Config.serial / 2 ^ 32)
  | .port_link_speed => some (if portUp s d then (s.power.pcieLink.getD d (0, 0)).1 else 0)
  | .port_link_width => some (if portUp s d then (s.power.pcieLink.getD d (0, 0)).2 else 0)
  | .port_port_primary => some (b2n (decide (primaryPort s = d)))
  | .fn_primary => some (b2n (decide (primaryPort s = d / 64)))
  | .fn_tenant => some (rget s .port_fn_tenant (d / 64) (d % 64))
  | .fn_protection_domain => some (rget s .port_fn_pd (d / 64) (d % 64))
  | .fn_slot_expected => some (hostSlot s (d / 64) (d % 64) k).expected
  | .fn_slot_busy => some (b2n (hostSlot s (d / 64) (d % 64) k).busy)
  | r => if sliceOnly r ∧ 32 ≤ d then some 0 else none

/-- Fields of the lifecycle and health blocks that follow from the state; p is the port whose PF reads. -/
def nodeVal (s : State) (p : Nat) (r : Reg) (k : Nat) : Option Nat :=
  let f := s.jrnl.flash
  let d := rg s .health_die_sel
  let mg := marginOf s d (rg s .health_margin_sel)
  let cls := rg s .life_class_sel
  match r with
  | .life_node_state => some s.life.node
  | .life_bist_skipped => some (b2n s.life.bistSkipped)
  | .life_crit_phase => some s.life.crit
  | .life_config_slot => some s.life.slot
  | .life_config_seq_lo => some (configSeq s % 2 ^ 32)
  | .life_config_seq_hi => some (configSeq s / 2 ^ 32)
  | .life_config_tag => some (configTag s)
  | .life_alt_tag => some (if s.life.crit = 0 then 0 else altTag s)
  | .life_class_digest => some (if allClasses.contains cls then fld false (digest s cls) (4 * k) 4 else 0)
  | .life_lc_busy => some (b2n s.life.op.isSome)
  | .life_lc_status => some s.life.lcStatus
  | .life_lc_progress => some s.life.progress
  | .life_slice_state => some (sliceSt s k).st
  | .life_substitute => some ((sliceSt s k).subst.getD 0)
  | .life_substituted => some (b2n (sliceSt s k).subst.isSome)
  | .life_hub_state => some (hubSt s k).st
  | .life_serving_hub => some ((quadHub s k).getD k)
  | .life_fw_slot => some (fwSlot s (rg s .life_fw_sel))
  | .life_fw_staged => some (b2n (agetD s.life.bundles (1 - fwSlot s (rg s .life_fw_sel)) default).committed)
  | .life_census_tag => some (((censusAt s (portHub p) k).map (·.tag)).getD 0)
  | .life_census_count => some (((censusAt s (portHub p) k).map (·.count)).getD 0)
  | .life_census_endpoint => some (((censusAt s (portHub p) k).map (·.endpoint)).getD 0)
  | .life_census_valid => some (b2n (censusAt s (portHub p) k).isSome)
  | .health_journal_ok => some (b2n (f.mounted && ! f.readonly))
  | .health_journal_readonly => some (b2n f.readonly)
  | .health_flash_unsupported => some (b2n (! f.supported && decide (s.life.node ≠ 0)))
  | .health_eye_width => some mg.width
  | .health_eye_height_mv => some mg.height
  | .health_min_width => some (if mg.minW = 256 then 0 else mg.minW)
  | .health_low_count => some mg.low
  | .health_temp_bin => some (agetD s.health.temps (d, k) 0)
  | .health_volt_bin => some (agetD s.health.volts (d, k) 0)
  | .health_input_bin => some (agetD s.health.inputs k 0)
  | .health_spare_blocks => some f.spares.length
  | .health_retired_blocks => some f.bad.length
  | .health_erase_max => some ((eraseCounts f).foldl max 0)
  | .health_erase_mean => some (sumNat (eraseCounts f) / max 1 (eraseCounts f).length)
  | .health_endurance => some f.endurance
  | .health_wear_used_pct => some (if f.endurance = 0 then 0 else min 255 (100 * (eraseCounts f).foldl max 0 / f.endurance))
  | .health_spare_left_pct => some (if f.sparesAtFormat = 0 then 0 else 100 * f.spares.length / f.sparesAtFormat)
  | .health_flash_temp_bin => some (agetD s.health.flashT k 0)
  | .health_head_seq_lo => some ((s.jrnl.nextSeq - 1) % 2 ^ 32)
  | .health_head_seq_hi => some ((s.jrnl.nextSeq - 1) / 2 ^ 32)
  | .health_oldest_seq_lo => some ((f.recs.map (·.seq)).min?.getD 0 % 2 ^ 32)
  | .health_oldest_seq_hi => some ((f.recs.map (·.seq)).min?.getD 0 / 2 ^ 32)
  | .health_held_bytes => some (sumNat (s.jrnl.held.map JRec.length))
  | .health_jr_status => some s.host.jrStatus
  | _ => none

/-- The true value of a field for a reader through port p; k is its index in the table. -/
def fieldVal (s : State) (p : Nat) (r : Reg) (inst k : Nat) : Nat :=
  let e := entryOf s r inst k
  let v := match r.info.blk with
    | .sorrel | .chive | .fab | .region | .ledger | .traffic | .lov => hubVal s r inst e
    | .tier | .dill | .mem | .ident | .port | .fn => dieVal s r inst e
    | .life | .health => nodeVal s p r k
  v.getD (rget s r inst e) % 2 ^ r.width

/-- A word of a byte string read in place. -/
def wordIn (b : List Byte) (off : Nat) : Nat := fld false b off 4

/-- Words that stand for a stored record: the error record, the command area, the die summary, the metering record, the
journal window. 08_memory.md R199, 07_dill.md R144, R171, 17_health.md R419. -/
def recordWord (s : State) (b : Blk) (inst off : Nat) : Option Nat :=
  match b with
  | .mem => if 0x60 ≤ off ∧ off < 0x78 then
      some (match agetD s.mem.errs inst [] with
        | r :: _ => wordIn r.bytes (off - 0x60)
        | [] => 0) else none
  | .dill => if 0x4000 ≤ off ∧ off < 0x8000 then
      some (wordIn (cmdOf (dillOf s inst) ((off - 0x4000) / 256)).bytes ((off - 0x4000) % 256)) else none
  | .health =>
    if 0x100 ≤ off ∧ off < 0x140 then some (wordIn s.host.dieSum (off - 0x100))
    else if 0x540 ≤ off ∧ off < 0x580 then some (wordIn s.host.meterRec (off - 0x540))
    else if 0x1000 ≤ off ∧ off < 0x2000 then some (wordIn s.host.jrWin (off - 0x1000))
    else none
  | _ => none

/-- A read latches where the table says so. 12_ledger.md R299, 17_health.md R403, R417. -/
def latchRead (s : State) (b : Blk) (inst off : Nat) (coarse : Bool) : State :=
  if b = .ledger ∧ off = 0 then latchTime s inst
  else if b = .health ∧ off = 0x100 then latchSummary s
  else if b = .health ∧ off = 0x540 then latchMeter s coarse
  else s

/-- Reads the 32-bit register at a BAR0 offset at full resolution; a reserved offset reads zero. 14_host.md R338. -/
def readReg (s : State) (p off : Nat) : State × Nat :=
  match barPlace p off with
  | none => (s, 0)
  | some (b, inst, o) =>
    let s := latchRead s b inst o false
    (s, (recordWord s b inst o).getD
      (sumNat ((fieldsAt b o).map fun x => fieldVal s p x.1 inst x.2 * 2 ^ x.1.info.lo)))

/-! ## Writes (14_host.md R321, R339, R340; 15_trust.md R362; 16_lifecycle.md R368, R448) -/

/-- Fields that measure and that a write of 0 restarts. 16_lifecycle.md R368. -/
def measured (r : Reg) : Bool :=
  r == .dill_longest_segment_ns || r == .dill_snapshot_wait_max_ns || r == .region_revoke_wait_max_ns

/-- Fields that settle the throttle levels. 08_memory.md R190. -/
def levelField (r : Reg) : Bool :=
  r == .mem_pin_level || r == .mem_min_level || r == .mem_throttle_temp || r == .mem_power_limit

/-- Vectors of a port's functions but for one. 14_host.md R339. -/
def otherVectors (s : State) (p f : Nat) : Nat :=
  sumNat (((List.range 64).filter fun g => decide (g ≠ f)).map fun g => rget s .port_fn_msix_count p g)

/-- max_speed takes a value: a port whose link is up trains again under another one. 14_host.md R316, R339, 16_lifecycle.md
R368. -/
def maxSpeed (s : State) (p v : Nat) : State :=
  let old := rget s .port_max_speed p 0
  let s := rset s .port_max_speed p 0 v
  if old ≠ v ∧ portUp s p then trainPort s p else s

/-- Writes a RW field at its entry; a value the table excludes is discarded. -/
def putField (s : State) (r : Reg) (inst e v : Nat) : State :=
  if measured r then (if v = 0 then rset s r inst e 0 else s)
  else if heldField r then holdWrite s r inst e v
  else if levelField r then settleLevels (rset s r inst e v)
  else
    match r with
    | .mem_bank_request => bankRequest s inst e v
    | .fn_ring_enable => if v = 1 then enableRing s (inst / 64) (inst % 64) e else rset s r inst e 0
    | .fn_ring_base_lo | .fn_win_offset_lo => rset s r inst e (v / 4096 * 4096)
    | .fn_ring_log2 => if 6 ≤ v ∧ v ≤ 16 then rset s r inst e v else s
    | .port_max_speed => if 5 ≤ v ∧ v ≤ 7 then maxSpeed s inst v else s
    | .port_fn_msix_count => if otherVectors s inst e + v ≤ 2048 then rset s r inst e v else s
    | .fab_seg_code => if v ≤ 7 then rset s r inst e v else s
    | .health_jr_seq_hi => loadRecord (rset s r inst e v)
    | _ => if r.info.sel = .kernel ∧ 12 ≤ e then s else rset s r inst e v

/-- What a write of 1 to a W1S field does. -/
def fireField (s : State) (r : Reg) (inst : Nat) : State :=
  match r with
  | .life_lc_go => startOp s
  | .mem_err_pop => modMem s fun m => { m with errs := amod m.errs inst fun l => l.drop 1 }
  | .traffic_gl_commit => (commitGates s inst).1
  | .health_clear_min => clearMin s
  | _ => s

/-- Writes one field of no class at once; hub is the one whose census the writer sees. -/
def writeField (s : State) (hub : Nat) (r : Reg) (inst k v : Nat) : State :=
  let e := entryOf s r inst k
  match r.info.acc with
  | .ro => s
  | .w1c => rset s r inst e (rget s r inst e &&& (2 ^ r.width - 1 - v))
  | .w1s => if v = 1 then fireField s r inst else s
  | .rw => if r = .life_census_valid then (if v = 0 then clearCensus s hub k else s) else putField s r inst e v

/-- The parts of a written word: fields with the value written to each. -/
def wordParts (b : Blk) (off : Nat) (value : Nat) : List (Reg × Nat × Nat) :=
  (fieldsAt b off).map fun x => (x.1, x.2, bits value x.1.info.hi x.1.info.lo)

/-- Fields of a word that belong to a class. 16_lifecycle.md R368. -/
def classParts (b : Blk) (off value : Nat) : List (Reg × Nat × Nat) :=
  (wordParts b off value).filter fun x => decide (x.1.info.cls ≠ 0)

/-- A register write refused at R373, or accepted as a delta of its fields: new bodies, and the fields with their
instance, entry and value. 16_lifecycle.md R373. -/
def fieldDelta (s : State) (inst : Nat) (cs : List (Reg × Nat × Nat)) : Except Status (Assoc Nat (List Byte) × List (Reg × Nat × Nat × Nat)) :=
  if cs.any fun x => critical x.1.info.cls then .error .bounds
  else
    let fs := cs.map fun x => (x.1, regInst x.1 inst, entryOf s x.1 inst x.2.1, x.2.2)
    let bodies := fs.foldl (fun (m : Assoc Nat (List Byte)) f =>
      let c := f.1.info.cls
      aset m c (Config.bodySet c ((aget m c).getD (body s c)) f.1.ctorIdx f.2.1 f.2.2.1 f.2.2.2)) []
    if bodies.any fun p => ! Config.bodyOk p.1 p.2 then .error .bounds
    else if s.life.job.isSome then .error .busy
    else .ok (bodies, fs)

/-- Starts the delta of a register write, signed by the session's key. 16_lifecycle.md R373, R374. -/
def startFieldDelta (s : State) (msg signer : Nat) (silent : Bool) (bodies : Assoc Nat (List Byte))
    (fs : List (Reg × Nat × Nat × Nat)) : State :=
  modLife s fun l =>
    { l with job := some { msg := msg, seq := configSeq s + 1, signer := signer, phase := 0, bodies := bodies,
                           image := false, partMask := (cfgSlot s).partMask, silent := silent, fields := fs } }

/-- Key index of the session on the primary port's PF. -/
def pfKey (s : State) : Nat :=
  ((s.trust.sessions.find? fun x => x.authed && decide (x.chan = .pcie (primaryPort s) 0)).map (·.keyIdx)).getD 0

/-- Whether a written word commits a gate list that is refused. 13_traffic.md R310. -/
def gatesRefused (s : State) (inst : Nat) (parts : List (Reg × Nat × Nat)) : Bool :=
  parts.any fun x => decide (x.1 = .traffic_gl_commit) && decide (x.2.2 = 1) && decide ((commitGates s inst).2 ≠ .ok)

/-- Writes a word of a node block as from the primary port's PF. A field of a critical class is refused and stays as it is;
the other class fields become one delta; the rest takes effect at once. Answers BOUNDS for a critical field or a refused
gate list, else the status of the delta. A word that holds fields of both kinds is taken field by field (DESIGN CHOICE,
assumption 175). 14_host.md R321, 13_traffic.md R310, 16_lifecycle.md R373. -/
def writeNode (s : State) (p : Nat) (b : Blk) (inst off value msg signer : Nat) (silent : Bool) : State × Status :=
  let all := classParts b off value
  let cs := all.filter fun x => ! critical x.1.info.cls
  let now_ := (wordParts b off value).filter fun x => decide (x.1.info.cls = 0)
  let d := fieldDelta s inst cs
  let rest := now_.filter fun x => decide (x.1.info.acc ≠ .w1s)
  let fire := now_.filter fun x => decide (x.1.info.acc = .w1s)
  let s := rest.foldl (fun s x => writeField s (portHub p) x.1 inst x.2.1 x.2.2) s
  let st : Status := if gatesRefused s inst fire then .bounds else .ok
  let s := fire.foldl (fun s x => writeField s (portHub p) x.1 inst x.2.1 x.2.2) s
  let (s, st) := if cs.length < all.length then (bump s .life_DELTAS_REFUSED 0, Status.bounds) else (s, st)
  if cs.isEmpty then (s, st)
  else
    match d with
    | .error e => (bump s .life_DELTAS_REFUSED 0, if st = .ok then e else st)
    | .ok (bodies, fs) => (startFieldDelta s msg signer (silent || decide (st ≠ .ok)) bodies fs, st)

/-- A write to a function's own block: through its own BAR0, or the PF's at 0x01_0000. Rings and windows are the
function's to set; a tenant-facing writer clears no counter. 14_host.md R340, 15_trust.md R362. -/
def writeOwn (s : State) (p f off value : Nat) : State :=
  let full := decide (f = 0) && pfSession s && decide (primaryPort s = p)
  let xs := (wordParts .fn off value).filter fun x => full || decide (x.1.info.acc ≠ .w1c)
  let last := fun (x : Reg × Nat × Nat) => decide (x.1 = .fn_ring_enable) || decide (x.1 = .fn_win_enable)
  ((xs.filter fun x => ! last x) ++ xs.filter last).foldl (fun s x => writeField s (portHub p) x.1 (fnInst p f) x.2.1 x.2.2) s

/-- A write to a VF's block through the PF: with a session it clears counters, nothing else. 14_host.md R340. -/
def writeOther (s : State) (p inst off value : Nat) : State :=
  if ! sessionOn s (.pcie p 0) then writeRefused s p
  else
    ((wordParts .fn off value).filter fun x => decide (x.1.info.acc = .w1c)).foldl (fun s x =>
      writeField s (portHub p) x.1 inst x.2.1 x.2.2) s

/-- A 32-bit write to a function's BAR0. 14_host.md R321, R322, R338, R340. -/
def barWrite (s : State) (p f off value : Nat) : State :=
  if f ≠ 0 then writeOwn s p f off value
  else
    match barPlace p off with
    | none => s
    | some (b, inst, o) =>
      if b = .fn then (if inst = fnInst p 0 then writeOwn s p 0 o value else writeOther s p inst o value)
      else if ! pfSession s ∨ (b ≠ .port ∧ p ≠ primaryPort s) then writeRefused s p
      else (writeNode s p b inst o value 0 (pfKey s) true).1

/-- REGISTER_WRITE. 14_host.md R318, R321, R338 to R340. -/
def execRegisterWrite (port : Port) (fn : Fn) (offset : Nat) (value : BitVec 32) (s : State) (ide : Option Nat := none) : Next :=
  if takesTlp s port.val fn.val ide then .next (barWrite s port.val fn.val offset value.toNat)
  else .next (untaken s port.val fn.val)

/-- CLASS_FIELD_WRITE: a write to a register that holds a class field. 16_lifecycle.md R373. -/
def execClassFieldWrite (port : Port) (fn : Fn) (offset : Nat) (value : BitVec 32) (s : State) (ide : Option Nat := none) : Next :=
  if takesTlp s port.val fn.val ide then .next (barWrite s port.val fn.val offset value.toNat)
  else .next (untaken s port.val fn.val)

/-! ## Coarse publication (15_trust.md R362, R363; 17_health.md R418) -/

/-- Size of a granule. 15_trust.md R362. -/
def granule (n : Nat) : Nat := n / 4096 * 4096

/-- The read-only occupancy fields. 15_trust.md R362. -/
def occupancy : List Reg :=
  [.sorrel_contexts_free, .sorrel_pool_free, .chive_rebuilding_blocks, .chive_rows_used, .chive_ot_used,
   .fab_conn_onchip, .fab_conn_spilled, .region_regions_active, .ledger_dir_entries, .ledger_inflight_previous,
   .tier_sram_used, .tier_slot_used, .tier_merge_used, .dill_contexts_resident, .mem_err_count, .health_held_bytes]

/-- Counters: W1C fields that are no flags. -/
def isCounter (r : Reg) : Bool :=
  decide (r.info.acc = .w1c) && r != .health_events && r != .mem_bank_request_refused && r != .traffic_gl_refused

/-- The hub that publishes the node's own blocks: the primary's, else the one that drives the NAND bus. 15_trust.md R343,
R362. -/
def nodeHub (s : State) : Nat := (primaryLov s).getD ((nandHub s).getD 0)

/-- The hub that holds a field of a block instance. 15_trust.md R362. -/
def holderOf (s : State) (b : Blk) (inst : Nat) : Nat :=
  match b with
  | .sorrel | .chive | .fab | .region | .ledger | .traffic | .lov => inst
  | .mem => dieHub s inst
  | .dill => homeHub s inst
  | .port => portHub inst
  | .fn => portHub (inst / 64)
  | .tier | .ident | .life | .health => nodeHub s

/-- Instances and entries of an occupancy field that a hub holds. -/
def occPlaces (s : State) (h : Nat) (r : Reg) : List (Nat × Nat) :=
  let n := r.info.count
  let insts := match r.info.blk with
    | .mem => (List.range 40).filter fun d => decide (dieHub s d = h)
    | .dill => (List.range 32).filter fun k => decide (homeHub s k = h)
    | .tier | .health => if nodeHub s = h then [0] else []
    | _ => [h]
  insts.flatMap fun i =>
    if r.info.sel = .quota then (List.range 4096).filterMap fun e =>
      if e = 0 ∨ rget s .tier_quota_tenant 0 e ≠ 0 then some (i, e) else none
    else (List.range n).map fun k => (i, k)

/-- The true value of an occupancy field at an instance and entry. -/
def occVal (s : State) (r : Reg) (inst e : Nat) : Nat :=
  match r.info.blk with
  | .tier | .dill | .mem => (dieVal s r inst e).getD 0
  | .health => (nodeVal s 0 r e).getD 0
  | _ => (hubVal s r inst e).getD 0

/-- What a hub publishes: a granule count of each of its counters and occupancy fields; a value of zero is not listed.
15_trust.md R362. -/
def coarseOf (s : State) (h : Nat) : Assoc (Reg × Nat × Nat) Nat :=
  let cs := (s.regs.filter fun p => isCounter p.1.1 && decide (holderOf s p.1.1.info.blk p.1.2.1 = h)).map fun p =>
    (p.1, granule p.2)
  let os := occupancy.flatMap fun r => (occPlaces s h r).map fun (i, e) => ((r, i, e), granule (occVal s r i e))
  (cs ++ os).filter fun p => decide (p.2 ≠ 0)

/-- A publication of a hub. 15_trust.md R362, 17_health.md R418. -/
def publish (s : State) (h : Nat) : State :=
  let new := coarseOf s h
  let keep := fun (p : (Reg × Nat × Nat) × Nat) => decide (holderOf s p.1.1.info.blk p.1.2.1 ≠ h)
  let g := fun (m : Meter) =>
    (⟨granule m.pageMs, granule m.sramMs, granule m.scanned, granule m.skipped, granule m.bytesIn, granule m.bytesOut,
      granule m.merges, granule m.nonFinite, granule m.keyMiss⟩ : Meter)
  modHealth s fun x =>
    { x with pub := x.pub.filter keep ++ new,
             pubM := if nodeHub s = h then x.meters.map fun p => (p.1, g p.2) else x.pubM }

/-- Local time of the next whole multiple of a period. -/
def nextMultiple (t n : Nat) : Nat := (t / n + 1) * n

/-- COARSE_PUBLISH: the next 10 ms of a hub's local time. 15_trust.md R362. -/
def execCoarsePublish (hub : Hub) (s : State) : Next :=
  let h := hub.val
  if ! hubAlive s h then .next s
  else
    let s := passTo s h (nextMultiple (now s h) 10000000)
    .next (publish s h)

/-- The values of R363 that a hub holds. -/
def publishSecond (s : State) (h : Nat) : State :=
  let dies := (List.range 40).filter fun d => decide (dieHub s d = h)
  let vals := dies.flatMap fun d =>
    [.mem_die_temp, .mem_stack_temp, .mem_throttle_level].map fun r => ((r, d), (dieVal s r d 0).getD 0)
  let avg := if s.mem.powerN = 0 then s.mem.powerAvg else s.mem.powerSum / s.mem.powerN
  let mine := decide (nodeHub s = h)
  let s := modHealth s fun x =>
    let t := vals.foldl (fun (m : Assoc (Reg × Nat) Nat) v => aset m v.1 v.2) x.pubT
    { x with pubT := if mine then aset t (.mem_power_avg, 0) (avg / 5 * 5) else t }
  if mine then modMem s fun m => { m with powerSum := 0, powerN := 0 } else s

/-- COARSE_PUBLISH_SECOND: the next whole second of a hub's local time. 15_trust.md R363. -/
def execCoarsePublishSecond (hub : Hub) (s : State) : Next :=
  let h := hub.val
  if ! hubAlive s h then .next s
  else
    let s := passTo s h (nextMultiple (now s h) 1000000000)
    .next (publishSecond s h)

/-- What a tenant-facing reader sees of a field. 15_trust.md R362, R363. -/
def coarseVal (s : State) (p : Nat) (r : Reg) (inst k : Nat) : Nat :=
  let e := entryOf s r inst k
  if isCounter r ∨ occupancy.contains r then agetD s.health.pub (r, regInst r inst, e) 0
  else if r = .mem_power_avg then agetD s.health.pubT (r, 0) 0
  else if r = .mem_die_temp ∨ r = .mem_stack_temp ∨ r = .mem_throttle_level then agetD s.health.pubT (r, inst) 0
  else fieldVal s p r inst k

/-! ## Reads of a BAR0 (14_host.md R318, R338, R340; 15_trust.md R362; 17_health.md R419) -/

/-- What a tenant-facing reader sees of a word that stands for a stored record: the journal window reads as zero.
17_health.md R419. The die summary is read as it stands: DEDUCED (assumption 188). -/
def recordSeen (s : State) (b : Blk) (inst off : Nat) : Option Nat :=
  if b = .health ∧ 0x1000 ≤ off ∧ off < 0x2000 then some 0 else recordWord s b inst off

/-- A tenant-facing read of a register of a block. 15_trust.md R362, R363. -/
def readSeen (s : State) (p : Nat) (b : Blk) (inst off : Nat) : State × Nat :=
  let s := latchRead s b inst off true
  (s, (recordSeen s b inst off).getD
    (sumNat ((fieldsAt b off).map fun x => coarseVal s p x.1 inst x.2 * 2 ^ x.1.info.lo)))

/-- A 32-bit read of a function's BAR0: a VF reads its own block, tenant-facing; a PF reads the node's map, at full
resolution while an operator session is open on it. 14_host.md R338, R340, 15_trust.md R362. -/
def barRead (s : State) (p f off : Nat) : State × Nat :=
  if f ≠ 0 then (if off < 0x1000 then readSeen s p .fn (fnInst p f) off else (s, 0))
  else if sessionOn s (.pcie p 0) then readReg s p off
  else
    match barPlace p off with
    | none => (s, 0)
    | some (b, inst, o) => readSeen s p b inst o

/-- A read TLP of four bytes of a PF's BAR0: its data, or Unsupported Request where the function requires another stream;
little-endian as all of the PCIe path. 14_host.md R318, R338. -/
def readTlp (s : State) (p off : Nat) (ide : Option Nat) : State :=
  if ! portTakes s p then s
  else if ! ideOk s p 0 ide then emit (emit s (.aer p 0)) (.readDone p 0 false none)
  else
    let (s, v) := barRead s p 0 off
    emit s (.readDone p 0 false (some (leBytes 4 v)))

/-- LOCAL_TIME_LATCH: a read of local_time_lo of a hub's ledger block. 12_ledger.md R299. -/
def execLocalTimeLatch (hub : Hub) (s : State) (port : Port := 0) (ide : Option Nat := none) : Next :=
  .next (readTlp s port.val (0x104000 + 0x100000 * hub.val) ide)

/-- DIE_SUMMARY_LATCH: a read of offset 0x0100 of the health block. 17_health.md R403. -/
def execDieSummaryLatch (s : State) (port : Port := 0) (ide : Option Nat := none) : Next :=
  .next (readTlp s port.val 0xD10100 ide)

/-- METER_RECORD_LATCH: a read of offset 0x0540 of the health block. 17_health.md R417. -/
def execMeterRecordLatch (s : State) (port : Port := 0) (ide : Option Nat := none) : Next :=
  .next (readTlp s port.val 0xD10540 ide)

end Sys2Proof.Machine
end

