-- ==== Sys2Proof/Machine/Trust.lean ====
section
/-!
DEFINITION. The commands of the trust family: the Lovages and their election, attestation, operator sessions, PCIe IDE
keys and the legacy management port. 15_trust.md R341 to R366.
-/
namespace Sys2Proof.Machine

/-! ## Election (15_trust.md R342, R344) -/

/-- Whether a Lovage runs its firmware in a hub that carries traffic. -/
def lovRuns (s : State) (h : Nat) : Bool := hubAlive s h && (lovOf s h).booted

/-- Term after one: 32 bits. -/
def nextTerm (t : Nat) : Nat := (t + 1) % 2 ^ 32

/-- A Lovage raises its term and stands as candidate; its own candidacy is the first it holds. 15_trust.md R342. -/
def stand (s : State) (h : Nat) : State :=
  let s := stepDown s h
  let s := bump (modLov s h fun x =>
    { x with term := nextTerm x.term, primary := none, standing := true, votes := [], cands := [h], waiting := true,
             backoff := false }) .lov_ELECTIONS h
  emit s (.lov 1 h 8 (lovOf s h).term)

/-- An election message of a term above a Lovage's own: it adopts that term. 15_trust.md R342. -/
def adoptTerm (s : State) (h term : Nat) : State :=
  if (lovOf s h).term < term then
    modLov (stepDown s h) h fun x =>
      { x with term := term, primary := none, standing := false, votes := [], cands := [], waiting := false, backoff := false }
  else s

/-- A candidate that holds five votes is primary for its term. 15_trust.md R342, 17_health.md R407. -/
def settleVotes (s : State) (h : Nat) : State :=
  let x := lovOf s h
  if x.standing ∧ 5 ≤ x.votes.length then
    let s := modLov s h fun y => { y with isPrimary := true, primary := some h, standing := false }
    let s := journal s h 0x07 (leBytes 4 x.term ++ leBytes 1 h)
    emit s (.lov 3 h 8 x.term)
  else s

/-- Runs an election message of a term at a Lovage: an older one is discarded, a newer one adopted. -/
def onTerm (s : State) (h term : Nat) (f : State → State) : State :=
  if ! lovRuns s h ∨ term < (lovOf s h).term then s else f (adoptTerm s h term)

/-- CANDIDATE. 15_trust.md R342. -/
def execCandidate (hub sender : Hub) (term : Nat) (s : State) : Next :=
  let h := hub.val
  .next (onTerm s h (term % 2 ^ 32) fun s =>
    modLov s h fun x =>
      { x with cands := if x.cands.contains sender.val then x.cands else x.cands ++ [sender.val],
               waiting := x.waiting || (x.cands.isEmpty && decide (x.voted ≠ x.term)) })

/-- VOTE. 15_trust.md R342. -/
def execVote (hub voter : Hub) (term : Nat) (s : State) : Next :=
  let h := hub.val
  .next (onTerm s h (term % 2 ^ 32) fun s =>
    if (lovOf s h).standing then
      settleVotes (modLov s h fun x =>
        { x with votes := if x.votes.contains voter.val then x.votes else x.votes ++ [voter.val] }) h
    else s)

/-- BEACON: the sender is the primary of its term; a wait to vote or to stand again is over. 15_trust.md R342. -/
def execBeacon (hub sender : Hub) (term : Nat) (s : State) : Next :=
  let h := hub.val
  .next (onTerm s h (term % 2 ^ 32) fun s =>
    if (lovOf s h).isPrimary then s
    else modLov s h fun x =>
      { x with primary := some sender.val, standing := false, waiting := false, backoff := false, votes := [] })

/-- BEACON_SEND: a millisecond of the primary's local time has passed since its last beacon. 15_trust.md R342. -/
def execBeaconSend (hub : Hub) (s : State) : Next :=
  let h := hub.val
  if lovRuns s h ∧ (lovOf s h).isPrimary then .next (emit (passTo s h (now s h + 1000000)) (.lov 3 h 8 (lovOf s h).term))
  else .next s

/-- BEACON_TIMEOUT: 10 ms of local time without a beacon. 15_trust.md R342. -/
def execBeaconTimeout (hub : Hub) (s : State) : Next :=
  let h := hub.val
  if lovRuns s h ∧ ¬ (lovOf s h).isPrimary then .next (stand (passTo s h (now s h + 10000000)) h) else .next s

/-- VOTE_WAIT_EXPIRY: the vote of the term goes to the lowest-numbered candidate that completed measured boot.
15_trust.md R342. -/
def execVoteWaitExpiry (hub : Hub) (s : State) : Next :=
  let h := hub.val
  let x := lovOf s h
  if ! lovRuns s h ∨ ! x.waiting then .next s
  else
    let s := passTo s h (now s h + 100000)
    let s := modLov s h fun y => { y with waiting := false }
    match (x.cands.filter fun c => (lovOf s c).booted).min? with
    | none => .next s
    | some c =>
      if x.voted = x.term then .next s
      else
        let s := modLov s h fun y => { y with voted := y.term }
        if c = h then
          .next (settleVotes (modLov s h fun y => { y with votes := if y.votes.contains h then y.votes else y.votes ++ [h] }) h)
        else .next (emit s (.lov 2 h c x.term))

/-- CANDIDACY_TIMEOUT: 2 ms without five votes; the candidate waits its hub number in ms. 15_trust.md R342. -/
def execCandidacyTimeout (hub : Hub) (s : State) : Next :=
  let h := hub.val
  if lovRuns s h ∧ (lovOf s h).standing then
    .next (modLov (passTo s h (now s h + 2000000)) h fun x => { x with standing := false, backoff := true, votes := [] })
  else .next s

/-- CANDIDACY_BACKOFF_EXPIRY: the wait ends and the Lovage stands again with term + 1. 15_trust.md R342. -/
def execCandidacyBackoffExpiry (hub : Hub) (s : State) : Next :=
  let h := hub.val
  if lovRuns s h ∧ (lovOf s h).backoff then .next (stand (passTo s h (now s h + h * 1000000)) h) else .next s

/-- Whether the Lovage image of a firmware slot passes: signature, and security version at least the fused minimum.
15_trust.md R344 step 3. -/
def imageOk (s : State) (h slot : Nat) : Bool :=
  let b := agetD s.life.bundles slot default
  b.committed && Config.imageSigned s.trust.fuses.fwKey b.digest && decide (agetD s.trust.svnMin h 0 ≤ b.svn)

/-- The slot a Lovage boots: its own, else the other; none leaves it in recovery. 15_trust.md R344 step 3. -/
def bootSlot (s : State) (h : Nat) : Option Nat :=
  let k := agetD s.life.dieFw (40 + h) 0
  if imageOk s h k then some k else if imageOk s h (1 - k) then some (1 - k) else none

/-- Steps 1 and 4 of a boot from a firmware slot: the UDS is latched, the keys are derived, the alias certificate and the
endorsement are issued, and the key unit is erased. The labels are "CDI", "ALIAS" and "STORE". 15_trust.md R344, R345,
R346. -/
def derive (s : State) (h slot : Nat) : Lovage :=
  let x := { lovOf s h with keyUnit := [s.trust.fuses.uds] }
  let uds := x.keyUnit.headD []
  let b := agetD s.life.bundles slot default
  let lfw := takeBytes (Config.imageDigest b.digest 2) 0 64
  let cdi := takeBytes (Config.shake256 ([0x43#8, 0x44#8, 0x49#8] ++ uds ++ idFuses s.life.part.code ++ lfw ++ leBytes 8 b.svn) 64) 0 64
  let seed := takeBytes (Config.shake256 ([0x41#8, 0x4C#8, 0x49#8, 0x41#8, 0x53#8] ++ cdi) 57) 0 57
  let pub := takeBytes (Config.ed448Public seed) 0 57
  { x with
    booted := true, keyUnit := [], aliasSeed := seed, lfw := lfw, svn := b.svn,
    storeKey := takeBytes (Config.shake256 ([0x53#8, 0x54#8, 0x4F#8, 0x52#8, 0x45#8] ++ uds) 32) 0 32,
    aliasCert := Config.aliasCertificate (devSeed s) pub lfw b.svn,
    endorse := takeBytes (Config.ed448Sign (devSeed s) ctxEndorse (pub ++ lfw)) 0 114 }

/-- The legacy credential that serial NAND holds, unwrapped under a Lovage's store_key. 15_trust.md R366. -/
def unwrapPsk (s : State) (h : Nat) : State :=
  match s.trust.psk, s.trust.pskNand with
  | none, some (n, b) => modTrust s fun t => { t with psk := Config.gcmOpen (lovOf s h).storeKey n [] b }
  | _, _ => s

/-- LOVAGE_MEASURED_BOOT: a Lovage that does not run boots from a slot that passes, and stands when it knows no primary. The
digests of step 5 are those of the images in force wherever a report takes them. 15_trust.md R342, R344 to R346. -/
def execLovageMeasuredBoot (hub : Hub) (s : State) : Next :=
  let h := hub.val
  if ! hubAlive s h ∨ (lovOf s h).booted then .next s
  else
    match bootSlot s h with
    | none => .next s
    | some k =>
      let s := modLife s fun l => { l with dieFw := aset l.dieFw (40 + h) k, moving := adel l.moving (40 + h) }
      let s := unwrapPsk (modLov s h fun _ => derive s h k) h
      .next (if (lovOf s h).primary.isNone then stand s h else s)

/-! ## Certificates and reports (15_trust.md R346 to R349) -/

/-- The Lovage that answers for the node: the primary, in RECOVERY without one the primary port's. -/
def signerHub (s : State) : Nat := (primaryLov s).getD (portHub (primaryPort s))

/-- GET_CERTS. 15_trust.md R346, R352. -/
def execGetCerts (msg : Nat) (s : State) : Next :=
  mgmtRun s msg opGetCerts fun s m _ => mgmtAnswer s msg m .ok (certChain s (signerHub s))

/-- Digest of the bundle in the slot a die or Lovage runs. -/
def runningDigest (s : State) (key : Nat) : List Byte := (agetD s.life.bundles (agetD s.life.dieFw key 0) default).digest

/-- Digest over the running die images in the order SD0 to SD31, HD0 to HD7. 15_trust.md R347. -/
def dieFwDigest (s : State) : List Byte :=
  Config.shake256 ((List.range 40).flatMap fun d => Config.imageDigest (runningDigest s d) (if d < 32 then 0 else 1)) 64

/-- Digest over the nine class digests in ascending code. 16_lifecycle.md R369. -/
def configDigest (s : State) : List Byte := Config.shake256 (allClasses.flatMap (digest s)) 64

/-- Digest of the current map: over its entries alone. 15_trust.md R347, 16_lifecycle.md R380. -/
def kgmDigest (s : State) : List Byte := Config.shake256 ((kgmNow s).entries.flatMap kgmEntry) 64

/-- The five digests of a report. 15_trust.md R347. -/
def reportDigests (s : State) (h : Nat) : List (List Byte) :=
  [fuseDigest s h, (lovOf s h).lfw, dieFwDigest s, configDigest s, kgmDigest s].map
    fun d => takeBytes d 0 64

/-- Flags of a report. 15_trust.md R347. -/
def reportFlags (s : State) : Nat :=
  b2n (legacyOn s) + 2 * rg s .dill_operator_programs + 4 * b2n (trustCfg s).opWindows + 8 * b2n s.trust.fuses.debugLock + 16 * b2n s.life.full

/-- The signed region of a report: bytes 0 to 391. 15_trust.md R347, R348. -/
def reportBody (s : State) (h : Nat) (nonce : List Byte) : List Byte :=
  leBytes 1 1 ++ leBytes 1 s.life.part.code ++ leBytes 1 0xB0 ++ leBytes 1 h ++ leBytes 4 (lovOf s h).term ++
    leBytes 8 Config.serial ++ takeBytes nonce 0 32 ++ leBytes 8 (now s h) ++ leBytes 8 (lovSvn s h) ++
    leBytes 4 (reportFlags s) ++ zeros 4 ++ (reportDigests s h).flatten

/-- A signed report, 506 bytes. 15_trust.md R348. -/
def report (s : State) (h : Nat) (nonce : List Byte) : List Byte :=
  let b := reportBody s h nonce
  b ++ aliasSign s h ctxReport (Config.shake256 b 64)

/-- Reports answered in the present second of a hub's local time. 15_trust.md R349. -/
def reportsNow (s : State) (h : Nat) : Nat := if s.trust.reports.1 = now s h / 1000000000 then s.trust.reports.2 else 0

/-- ATTEST: at most 256 reports a second. 15_trust.md R347 to R349. -/
def execAttest (msg : Nat) (s : State) : Next :=
  mgmtRun s msg opAttest fun s m _ =>
    let h := signerHub s
    let n := reportsNow s h
    if m.payload.length ≠ 48 then mgmtAnswer s msg m .bounds []
    else if 256 ≤ n then mgmtAnswer s msg m .busy []
    else
      let r := report s h (m.payload.drop 16)
      let s := modTrust s fun t => { t with reports := (now s h / 1000000000, n + 1) }
      mgmtAnswer (bump s .lov_ATTESTS h) msg m .ok r

/-! ## Operator sessions (15_trust.md R351 to R353) -/

/-- SESSION_OPEN: the body is a key index and a 56-byte X448 public key; the answer's is the primary's public key, a
nonce and the signature of the transcript. 15_trust.md R353 steps 1, 2. -/
def execSessionOpen (msg : Nat) (s : State) : Next :=
  mgmtRun s msg opSessionOpen fun s m _ =>
    let b := m.payload.drop 16
    match chanOf m with
    | none => mgmtAnswer s msg m .pdMismatch []
    | some c =>
      if b.length ≠ 57 then mgmtAnswer s msg m .bounds []
      else if 4 ≤ s.trust.sessions.length then mgmtAnswer s msg m .busy []
      else
        let h := signerHub s
        let (priv, s) := freshBytes s 56
        let (nonce, s) := freshBytes s 32
        let (sid, s) := newId s
        let mine := takeBytes (Config.x448Public priv) 0 56 ++ nonce ++ put m.be 4 sid
        let trans := b ++ mine
        let sig := aliasSign s h ctxSession (Config.shake256 trans 64)
        let x : Session :=
          { id := sid, chan := c, keyIdx := fld m.be b 0 1, trans := trans, secret := Config.x448 priv (b.drop 1), key := [],
            authed := false, seqIn := 0, seqOut := 0, lastAt := primaryNow s }
        let s := modTrust s fun t => { t with sessions := t.sessions ++ [x] }
        answer s msg .mgmt .ok 0 (mgmtHead m.be opSessionOpen .ok sid 0 ++ mine ++ sig)

/-- The session a request names on its own channel that still waits for SESSION_AUTH. -/
def pendingSession (s : State) (m : Msg) (sid : Nat) : Option Session :=
  (sessionOf s sid).bind fun x => if chanOf m = some x.chan ∧ ! x.authed then some x else none

/-- Label of the session key. 15_trust.md R353. -/
def sessionLabel : List Byte := [0x53#8, 0x45#8, 0x53#8, 0x53#8, 0x49#8, 0x4F#8, 0x4E#8]

/-- SESSION_AUTH. 15_trust.md R353 steps 3, 4. -/
def execSessionAuth (msg : Nat) (s : State) : Next :=
  mgmtRun s msg opSessionAuth fun s m h =>
    match pendingSession s m h.sid with
    | none => mgmtAnswer s msg m .notFound []
    | some x =>
      let signed := Config.shake256 (x.trans ++ chanBytes s x.chan) 64
      let ok : Bool := match aget (trustCfg s).opKeys x.keyIdx with
        | some k => Config.ed448Verify k ctxSession signed (m.payload.drop 16)
        | none => false
      if ok then
        let key := Config.shake256 (sessionLabel ++ x.secret ++ x.trans) 32
        let s := modSession s x.id fun y => { y with authed := true, key := key, lastAt := primaryNow s }
        mgmtAnswer s msg m .ok []
      else mgmtAnswer (endSession (bumpPrimary s .lov_SESSION_FAILS) x.id) msg m .notFound []

/-- SESSION_CLOSE. 15_trust.md R352, R353. -/
def execSessionClose (msg : Nat) (s : State) : Next :=
  sessionRun s msg opSessionClose (fun _ => true) fun s m x _ =>
    endSession (sealedAnswer s msg m x.id .ok []) x.id

/-- SESSION_IDLE_EXPIRY: 600 s without a sealed message. 15_trust.md R353. -/
def execSessionIdleExpiry (session : Nat) (s : State) : Next :=
  match sessionOf s session with
  | none => .next s
  | some x => .next (endSession (passTo s ((primaryLov s).getD 0) (x.lastAt + 600000000000)) session)

/-- Whether a BAR0 offset names a 32-bit register. -/
def regOffsetOk (off : Nat) : Bool := decide (off % 4 = 0) && decide (off < 2 ^ 24)

/-- REG_READ: the body is a 4-byte BAR0 offset, the answer's the register. 15_trust.md R352, R362. -/
def execRegRead (msg : Nat) (s : State) : Next :=
  sessionRun s msg opRegRead (fun _ => true) fun s m x b =>
    let off := fld m.be b 0 4
    if b.length ≠ 4 ∨ ! regOffsetOk off then sealedAnswer s msg m x.id .bounds []
    else
      let (s, v) := readReg s (primaryPort s) off
      sealedAnswer s msg m x.id .ok (put m.be 4 v)

/-- A register write of a session, as from the primary port's PF: the status, or the message left to its delta's commit.
15_trust.md R352, 16_lifecycle.md R373. -/
def sessionWrite (s : State) (msg : Nat) (m : Msg) (x : Session) (off value : Nat) : State :=
  let p := primaryPort s
  match barPlace p off with
  | none => sealedAnswer s msg m x.id .ok []
  | some (b, inst, o) =>
    if b = .fn then
      let s := if inst = fnInst p 0 then
          (wordParts .fn o value).foldl (fun s f => writeField s (portHub p) f.1 inst f.2.1 f.2.2) s
        else
          ((wordParts .fn o value).filter fun f => decide (f.1.info.acc = .w1c)).foldl (fun s f =>
            writeField s (portHub p) f.1 inst f.2.1 f.2.2) s
      sealedAnswer s msg m x.id .ok []
    else
      match writeNode s p b inst o value msg x.keyIdx false with
      | (s, .ok) =>
        if (s.life.job.map (·.msg)) = some msg then setPhase s msg .waitCommit else sealedAnswer s msg m x.id .ok []
      | (s, st) => sealedAnswer s msg m x.id st []

/-- REG_WRITE: the body is a 4-byte BAR0 offset and the 4-byte value. 15_trust.md R352, 16_lifecycle.md R373. -/
def execRegWrite (msg : Nat) (s : State) : Next :=
  sessionRun s msg opRegWrite (fun _ => true) fun s m x b =>
    let off := fld m.be b 0 4
    if b.length ≠ 8 ∨ ! regOffsetOk off then sealedAnswer s msg m x.id .bounds []
    else sessionWrite s msg m x off (fld m.be b 4 4)

/-- LEGACY_PSK: the body is the 32-byte credential; serial NAND takes it wrapped under the primary's store_key. 15_trust.md
R352, R366. -/
def execLegacyPsk (msg : Nat) (s : State) : Next :=
  sessionRun s msg opLegacyPsk (fun _ => true) fun s m x b =>
    if b.length ≠ 32 then sealedAnswer s msg m x.id .bounds []
    else
      let (n, s) := freshBytes s 12
      let w := Config.gcmSeal (lovOf s (signerHub s)).storeKey n [] b
      sealedAnswer (modTrust s fun t => { t with psk := some b, pskNand := some (n, w) }) msg m x.id .ok []

/-- The quota entry of a tenant's own; none where the default applies. -/
def ownQuota (s : State) (tenant : Nat) : Option Nat :=
  (List.range 4096).find? fun e => decide (e ≠ 0) && decide (rget s .tier_quota_tenant 0 e = tenant)

/-- The coarse occupancy of a tenant's quota entry; zero without one. 15_trust.md R362. -/
def tenantPub (s : State) (tenant : Nat) (r : Reg) : Nat :=
  match ownQuota s tenant with
  | some e => agetD s.health.pub (r, 0, e) 0
  | none => 0

/-- TENANT_VIEW: the requesting tenant's published metering record, then its published occupancy. 15_trust.md R352, R362,
17_health.md R418. -/
def execTenantView (msg : Nat) (s : State) : Next :=
  mgmtRun s msg opTenantView fun s m _ =>
    if m.tenant = 0 then mgmtAnswer s msg m .pdMismatch []
    else
      let r := meterSeen s m.tenant
      mgmtAnswer s msg m .ok (r.wire m.be ++ put m.be 4 (tenantPub s m.tenant .tier_sram_used) ++
        put m.be 4 (tenantPub s m.tenant .tier_slot_used) ++ put m.be 4 (tenantPub s m.tenant .tier_merge_used))

/-! ## SPDM and PCIe IDE keys (15_trust.md R360) -/

/-- Whether a port's SPDM responder answers: its link is up and its hub's Lovage runs. -/
def spdmOn (s : State) (p : Nat) : Bool := portUp s p && (lovOf s (portHub p)).booted

/-- GET_MEASUREMENTS: the five digests as measurement blocks 1 to 5, each after its index. 15_trust.md R360. -/
def execGetMeasurements (port : Port) (s : State) : Next :=
  let p := port.val
  if ! spdmOn s p then .next s
  else .next (emit s (.spdm p (((reportDigests s (portHub p)).zipIdx).flatMap fun d => leBytes 1 (d.2 + 1) ++ d.1)))

/-- SECURED_SESSION. 15_trust.md R360. -/
def execSecuredSession (port : Port) (s : State) : Next :=
  let p := port.val
  if ! spdmOn s p ∨ s.host.secured.contains p then .next s
  else .next (modHost s fun h => { h with secured := h.secured ++ [p] })

/-- Whether IDE_KM messages reach a port: over its secured session. -/
def ideKm (s : State) (p : Nat) : Bool := spdmOn s p && s.host.secured.contains p

/-- Streams of a port with keys. -/
def ideStreams (s : State) (p : Nat) : List Nat :=
  ((s.host.ideKeys.filter fun k => decide (k.port = p)).map (·.stream)).eraseDups

/-- KEY_PROG: a key of a stream's set and sub-stream; a port holds keys of at most eight streams. 14_host.md R316,
15_trust.md R360. -/
def execKeyProg (port : Port) (stream sub set : Nat) (key : List Byte) (s : State) : Next :=
  let p := port.val
  if ! ideKm s p ∨ (! (ideStreams s p).contains stream ∧ 8 ≤ (ideStreams s p).length) then .next s
  else
    let other := fun (k : IdeKey) =>
      ! (decide (k.port = p) && decide (k.stream = stream) && decide (k.sub = sub) && decide (k.set = set))
    .next (modHost s fun h => { h with ideKeys := h.ideKeys.filter other ++ [⟨p, stream, sub, set, key⟩] })

/-- Whether a stream holds a key of a set. -/
def hasSet (s : State) (p stream set : Nat) : Bool :=
  s.host.ideKeys.any fun k => decide (k.port = p) && decide (k.stream = stream) && decide (k.set = set)

/-- K_SET_GO: the stream switches to a programmed set; packets under the old one are still accepted. 15_trust.md R360. -/
def execKSetGo (port : Port) (stream set : Nat) (s : State) : Next :=
  let p := port.val
  if ! ideKm s p ∨ ! hasSet s p stream set then .next s
  else
    let old := aget s.host.ideSet (p, stream)
    let both := match old with
      | some (u, b) => if u = set then b else true
      | none => false
    .next (modHost s fun h => { h with ideSet := aset h.ideSet (p, stream) (set, both) })

/-- K_SET_STOP: a stream's key set stops and its keys go; the set in use takes the stream out of use. 15_trust.md R360. -/
def execKSetStop (port : Port) (stream set : Nat) (s : State) : Next :=
  let p := port.val
  if ! ideKm s p then .next s
  else
    let gone := fun (k : IdeKey) => decide (k.port = p) && decide (k.stream = stream) && decide (k.set = set)
    let s := modHost s fun h => { h with ideKeys := h.ideKeys.filter fun k => ! gone k }
    match aget s.host.ideSet (p, stream) with
    | none => .next s
    | some (u, _) =>
      if u = set then .next (modHost s fun h => { h with ideSet := adel h.ideSet (p, stream) })
      else .next (modHost s fun h => { h with ideSet := aset h.ideSet (p, stream) (u, false) })

/-! ## The legacy management port (15_trust.md R364 to R366) -/

/-- Whether a legacy message passes: a credential is set, its tag holds, its counter is above the highest accepted.
15_trust.md R365, R366. -/
def legacyPasses (s : State) (counter : Nat) (b tag : List Byte) : Bool :=
  match s.trust.psk with
  | none => false
  | some k => decide (tag = Config.hmac16 k (beBytes 8 counter ++ b)) && decide (s.trust.legacyMax < counter) &&
      decide (s.trust.legacyFloor < counter)

/-- A message is accepted: the counter is kept, and journalled every 65,536 acceptances. 15_trust.md R366. -/
def legacyTake (s : State) (counter : Nat) : State :=
  let s := modTrust s fun t => { t with legacyMax := counter, legacyRun := t.legacyRun + 1 }
  if s.trust.legacyRun < 65536 then s
  else journal (modTrust s fun t => { t with legacyRun := 0 }) 0 0x32 (leBytes 8 counter)

/-- Runs a message on the legacy port, which is HD0's and leaves service with it; a port not enabled answers nothing.
15_trust.md R364, R365. -/
def legacyRun (s : State) (counter : Nat) (b tag : List Byte) (f : State → State) : Next :=
  if ! hubAlive s 0 ∨ ! legacyOn s then .next s
  else if ! legacyPasses s counter b tag then .next (bump s .lov_LEGACY_AUTH_FAILS 0)
  else .next (f (legacyTake s counter))

/-- Answers on the legacy port: function and content. -/
def legacyAnswer (s : State) (fn : Nat) (content : List Byte) : State := emit s (.legacy (Config.legacyReply fn content))

/-- LEGACY_IDENTITY. 15_trust.md R365. -/
def execLegacyIdentity (counter : Nat) (body tag : List Byte) (s : State) : Next :=
  legacyRun s counter body tag fun s =>
    legacyAnswer s 0 (leBytes 1 s.life.part.code ++ leBytes 1 0xB0 ++ leBytes 8 Config.serial)

/-- LEGACY_HEALTH. 15_trust.md R365. -/
def execLegacyHealth (counter : Nat) (body tag : List Byte) (s : State) : Next :=
  legacyRun s counter body tag fun s =>
    legacyAnswer s 1 (leBytes 1 s.life.node ++ leBytes 2 (rg s .health_events) ++
      (List.range 32).flatMap (fun k => leBytes 1 (sliceSt s k).st) ++ (List.range 8).flatMap fun h => leBytes 1 (hubSt s h).st)

/-- LEGACY_TEMP_POWER: temperatures and power at full resolution. 15_trust.md R365. -/
def execLegacyTempPower (counter : Nat) (body tag : List Byte) (s : State) : Next :=
  legacyRun s counter body tag fun s =>
    legacyAnswer s 2 ((List.range 40).flatMap (fun d => leBytes 1 (ofSigned 8 (dieTemp s d))) ++
      (List.range 32).flatMap (fun k => leBytes 1 (ofSigned 8 (stackSt s k).temp)) ++ leBytes 2 s.mem.powerAvg)

/-- LEGACY_DRAIN: the software drain latch, taken as one event. 18_package.md R433, R434. -/
def execLegacyDrain (counter : Nat) (body tag : List Byte) (s : State) : Next :=
  legacyRun s counter body tag fun s =>
    let s := if s.life.node = 2 ∨ s.life.node = 3 then startDraining (modPower s fun p => { p with drainSoft := true }) else s
    legacyAnswer s 3 []

/-- LEGACY_DRAIN_RELEASE. 18_package.md R433. -/
def execLegacyDrainRelease (counter : Nat) (body tag : List Byte) (s : State) : Next :=
  legacyRun s counter body tag fun s => legacyAnswer (endDraining (modPower s fun p => { p with drainSoft := false })) 4 []

/-- LEGACY_NODE_RESET: the answer goes out, then every die loses its state. 15_trust.md R365, 18_package.md R435. -/
def execLegacyNodeReset (counter : Nat) (body tag : List Byte) (s : State) : Next :=
  legacyRun s counter body tag fun s => loseDies (legacyAnswer s 5 [])

end Sys2Proof.Machine
end

