-- ==== Sys2Proof/Machine/Loader.lean ====
section
/-!
DEFINITION. The program loader: the checks of an operator's image, the cost of its segments, and the store it is
installed in. 07_dill.md R148 to R158.
-/
namespace Sys2Proof.Machine

/-! ## Loops and branches (07_dill.md R150 order 5) -/

/-- The loops open before each instruction, innermost first, as indices of their LOOP; none where loops are unmatched
or nest deeper than 4. -/
def loopsAt : Nat → List Nat → List (Nat × Nat) → Option (List (List Nat))
  | _, [], open_ => if open_.isEmpty then some [] else none
  | i, w :: r, open_ =>
    let here := open_.map (·.1)
    let next :=
      if insnOp w = 0x38 then (if open_.length < 4 then some ((i, bits w 55 54) :: open_) else none)
      else if insnOp w = 0x39 then
        match open_ with
        | (_, lc) :: t => if lc = bits w 55 54 then some t else none
        | [] => none
      else some open_
    match next with
    | none => none
    | some o => (loopsAt (i + 1) r o).map fun l => here :: l

/-- Whether branches go ahead within the program and their loop, and no LOOP has max_iter 0. -/
def flowOk (ws : List Nat) : Bool :=
  match loopsAt 0 ws [] with
  | none => false
  | some ls =>
    (ws.zipIdx).all fun (w, i) =>
      if insnOp w = 0x3A then
        let t := bits w 15 0
        decide (i < t) && decide (t < ws.length) && decide (ls[t]? = ls[i]?)
      else if insnOp w = 0x38 then decide (1 ≤ bits w 47 32)
      else true

/-! ## Costs (07_dill.md R157, R158), in units of 1/96,000 ns -/

/-- Cost of a number of lane steps of 0.476 ns. -/
def stepCost (n : Nat) : Nat := 45696 * n

/-- Guaranteed cost of an instruction under a geometry. 07_dill.md R157. -/
def insnCost (g : Geom) (w : Nat) : Nat :=
  let op := insnOp w
  let n := bits w 55 48
  let gd := g.g * g.d
  let bytes := 16 * bits w 41 29
  if op = 0x01 ∨ op = 0x02 then (if bit1 w 49 then 3840000 + 375 * bytes else 28800000 + 1000 * bytes)
  else if op = 0x03 ∨ op = 0x04 then (if bits w 55 52 = 1 then 3840000 else 28800000)
  else if op = 0x26 then 3840000 + stepCost (ceilDiv gd 64)
  else if op = 0x08 then stepCost 4
  else if op = 0x10 ∨ op = 0x14 then stepCost (8 + ceilDiv (n * gd * 2) 512)
  else if op = 0x11 ∨ op = 0x12 then stepCost (8 + ceilDiv (n * gd) 512)
  else if op = 0x13 then stepCost (8 + ceilDiv gd 128)
  else if op = 0x18 then stepCost (16 + ceilDiv gd 256)
  else if op = 0x19 then stepCost (4 + ceilDiv (n * g.g) 8)
  else if op = 0x20 then stepCost (4 + (if g.cap then 2 else 1) * ceilDiv (n * g.g) 8)
  else if op = 0x21 then stepCost (4 + ceilDiv (n * g.g) 16 + ceilDiv gd 256)
  else if op = 0x22 ∨ op = 0x24 then stepCost (8 + ceilDiv (n * g.g) 8 + ceilDiv (n * gd * 2) 512)
  else if op = 0x23 then stepCost (8 + ceilDiv (n * g.g) 8 + ceilDiv (n * gd) 512)
  else if op = 0x25 then stepCost (8 + ceilDiv gd 256)
  else if op = 0x27 ∨ op = 0x38 ∨ op = 0x39 ∨ op = 0x3A then stepCost 2
  else if op = 0x3C then stepCost 4
  else if op = 0x3F then stepCost 20
  else if opsP.contains op then 28800000 + 3072000 * bits w 35 20
  else stepCost 1

/-- What the paths from a place to the end of its loop body cost: those without YIELD or HALT, the stretch to the first
of them, the stretch from the last YIELD on, and the costliest segment that lies between. -/
structure PathCost where
  thru  : Option Nat
  head  : Option Nat
  tail  : Option Nat
  inner : Nat
  deriving DecidableEq, Repr

/-- The larger of two costs. -/
def maxCost : Option Nat → Option Nat → Option Nat
  | none, b => b
  | a, none => a
  | some a, some b => some (max a b)

/-- The sum of two costs, where both paths exist. -/
def addCost : Option Nat → Option Nat → Option Nat
  | some a, some b => some (a + b)
  | _, _ => none

/-- The paths of either of two continuations. -/
def PathCost.either (a b : PathCost) : PathCost :=
  ⟨maxCost a.thru b.thru, maxCost a.head b.head, maxCost a.tail b.tail, max a.inner b.inner⟩

/-- An instruction of a cost before a continuation. -/
def PathCost.after (c : Nat) (x : PathCost) : PathCost :=
  { x with thru := x.thru.map (c + ·), head := x.head.map (c + ·) }

/-- A YIELD before a continuation: its segment ends, the next begins. -/
def PathCost.yielded (c : Nat) (x : PathCost) : PathCost :=
  ⟨none, some c, maxCost x.tail x.thru, max x.inner (x.head.getD 0)⟩

/-- A loop of at most m iterations of a body before a continuation. 07_dill.md R158. -/
def PathCost.looped (c m : Nat) (b x : PathCost) : PathCost :=
  let extra := m * b.thru.getD 0
  let out := b.thru.map fun _ => c + extra
  let left := b.tail.map (· + extra)
  ⟨addCost out x.thru, maxCost (b.head.map (c + extra + ·)) (addCost out x.head), maxCost x.tail (addCost left x.thru),
   max (max b.inner x.inner) (max ((addCost left b.head).getD 0) ((addCost left x.head).getD 0))⟩

/-- The pass from the last instruction to the first: costs from each place, from the place just passed, and of what
follows the loops whose body the pass is in. -/
structure CostPass where
  at_    : Assoc Nat PathCost
  cur    : PathCost
  frames : List PathCost
  deriving DecidableEq, Repr

/-- One instruction of the pass: its index, word and the geometry in force. -/
def costStep (x : Nat × Nat × Geom) (p : CostPass) : CostPass :=
  let (i, w, g) := x
  let c := insnCost g w
  let op := insnOp w
  let set := fun (v : PathCost) (fs : List PathCost) => (⟨(i, v) :: p.at_, v, fs⟩ : CostPass)
  if op = 0x3F then set (p.cur.yielded c) p.frames
  else if op = 0x3C then set ⟨none, some c, none, 0⟩ p.frames
  else if op = 0x39 then set ⟨some c, none, none, 0⟩ (p.cur :: p.frames)
  else if op = 0x38 then
    match p.frames with
    | x :: r => set (PathCost.looped c (bits w 47 32) p.cur x) r
    | [] => p
  else if op = 0x3A then set (((agetD p.at_ (bits w 15 0) p.cur).either p.cur).after c) p.frames
  else set (p.cur.after c) p.frames

/-- The geometry in force at each instruction, as the CFG before it in the text sets it. -/
def geomsAt : Geom → List Nat → List Geom
  | _, [] => []
  | g, w :: r => g :: geomsAt (if insnOp w = 0x08 then Config.geometry (BitVec.ofNat 32 w) else g) r

/-- The costliest segment of a program. 07_dill.md R158. -/
def segmentCost (ws : List Nat) : Nat :=
  let xs := (ws.zip (geomsAt (Config.geometry 0#32) ws)).zipIdx.map fun (x, i) => (i, x.1, x.2)
  let p := (xs.foldr costStep ⟨[], ⟨some 0, none, none, 0⟩, []⟩).cur
  max (max (p.thru.getD 0) (p.head.getD 0)) (max (p.tail.getD 0) p.inner)

/-! ## The store (07_dill.md R148, R150, R151) -/

/-- Whether a resident or queued command of any slice names a program. -/
def cmdNames (s : State) (n : Nat) : Bool :=
  s.dill.eng.any fun e => e.2.slots.any fun p =>
    decide (p.2.kind = 0) && decide (p.2.program = n) &&
      (decide (p.2.state = .queued) || decide (p.2.state = .running) || decide (p.2.state = .yielded))

/-- Whether a valid kernel-table entry names a program. -/
def tableNames (s : State) (n : Nat) : Bool :=
  (List.range 12).any fun i =>
    decide (rget s .dill_kt_valid 0 i = 1) && decide (rget s .dill_kt_program 0 i = n)

/-- The instruction words of an image, from byte 8. -/
def imageWords (b : List Byte) : List Nat := (List.range ((b.length - 8) / 8)).map fun i => fld false b (8 + 8 * i) 8

/-- A place for n words among the operator's, beside every program but the one that is replaced. -/
def placeWords (s : State) (number n : Nat) : Option Nat :=
  let others := s.dill.progs.filter fun p =>
    decide (p.1 ≠ number) && decide (12288 ≤ p.2.start) && decide (p.2.start < 32768)
  let used := sortBy (·.1) (others.map fun p => (p.2.start, p.2.len))
  firstGap 12288 used n 32768

/-- Takes a program out of the store. -/
def removeProg (s : State) (n : Nat) : State :=
  match aget s.dill.progs n with
  | none => s
  | some p => modDill s fun d =>
    { d with progs := adel d.progs n, store := d.store.filter fun x => decide (x.1 < p.start) || decide (p.start + p.len ≤ x.1) }

/-- Writes a program into the store of every slice. 07_dill.md R150. -/
def installProg (s : State) (n start bound : Nat) (operator : Bool) (ws : List Nat) : State :=
  modDill (removeProg s n) fun d =>
    { d with progs := aset d.progs n ⟨start, ws.length, bound, operator⟩,
             store := (ws.zipIdx).foldl (fun m x => aset m (start + x.2) x.1) d.store }

/-- The loader's checks, in order; the place and the bound of an image it accepts. 07_dill.md R150. -/
def checkImage (s : State) (n : Nat) (b : List Byte) : Except Status (Nat × Nat × List Nat) :=
  let ws := imageWords b
  if b.length < 8 ∨ b.length % 8 ≠ 0 ∨ fld false b 0 1 % 16 ≠ 1 ∨ ! ws.all insnOk then .error .version
  else if n < 16 ∨ 63 < n then .error .bounds
  else if cmdNames s n ∨ tableNames s n then .error .busy
  else
    match placeWords s n ws.length with
    | none => .error .quota
    | some a =>
      if ! flowOk ws then .error .bounds
      else
        let c := segmentCost ws
        if 384000000 < c then .error .bounds else .ok (a, ceilDiv c 96000, ws)

/-- Loads an operator's image under a number. -/
def loadImage (s : State) (n : Nat) (b : List Byte) : State × Status :=
  match checkImage s n b with
  | .error st => (s, st)
  | .ok (a, bound, ws) => (installProg s n a bound true ws, .ok)

/-- SHAKE256 digest of the store: every word, zero where none is installed. 07_dill.md R148. -/
def storeDigest (s : State) : List Byte :=
  Config.shake256 ((List.range 32768).flatMap fun i => leBytes 8 (agetD s.dill.store i 0)) 64

/-- The KERNEL class takes the digest of the store. 07_dill.md R148. -/
def noteStore (s : State) : State :=
  modLife s fun l => { l with cfg := amod l.cfg l.slot fun c =>
    { c with bodies := aset c.bodies clsKernel (Config.bodyPrograms (agetD c.bodies clsKernel []) (storeDigest s)) } }

/-- PROGRAM_LOAD: the body is the program number, seven bytes, and the image. 07_dill.md R150, 15_trust.md R352. -/
def execProgramLoad (msg : Nat) (s : State) : Next :=
  sessionRun s msg opProgramLoad (fun _ => true) fun s m x b =>
    match loadImage s (fld false b 0 1) (b.drop 8) with
    | (s, .ok) => sealedAnswer (noteStore s) msg m x.id .ok []
    | (s, st) => sealedAnswer s msg m x.id st []

/-- PROGRAM_FREE: an operator program leaves the store unless a resident or queued command names it. 07_dill.md R151. -/
def execProgramFree (number : Nat) (s : State) : Next :=
  if number < 16 ∨ 63 < number then .next (emit s (.status .bounds))
  else if (aget s.dill.progs number).isNone then .next (emit s (.status .notFound))
  else if cmdNames s number then .next (emit s (.status .busy))
  else .next (emit (noteStore (removeProg s number)) (.status .ok))

end Sys2Proof.Machine
end

