-- ==== Sys2Proof/Machine/Deltas.lean ====
section
/-!
DEFINITION. Configuration images and deltas: their checks, their commit, and how each class takes effect.
16_lifecycle.md R368 to R375.
-/
namespace Sys2Proof.Machine

/-! ## The image (16_lifecycle.md R370) -/

/-- Header of an image or delta. 16_lifecycle.md R370. -/
structure CfgHdr where
  ver      : Nat
  resv     : Nat
  kind     : Nat
  count    : Nat
  signer   : Nat
  partMask : Nat
  phase    : Nat
  seq      : Nat
  base     : Nat
  length   : Nat
  deriving DecidableEq, Repr

/-- The header an image begins with; `resv` is the sum of its reserved bits. -/
def CfgHdr.parse (b : List Byte) : CfgHdr :=
  let f := fld false b
  { ver := f 0 1 % 16, resv := f 0 1 / 16 + f 3 1 / 8 + f 5 1 / 2 + f 6 2 / 4 + f 28 4, kind := f 1 1, count := f 2 1,
    signer := f 3 1 % 8, partMask := f 4 1, phase := f 6 2 % 4, seq := f 8 8, base := f 16 8, length := f 24 4 }

/-- A class entry: code, body length, body offset, digest. 16_lifecycle.md R370. -/
def cfgEntry (b : List Byte) (i : Nat) : Nat × Nat × Nat × List Byte :=
  let o := 32 + 80 * i
  (fld false b o 1, fld false b (o + 4) 4, fld false b (o + 8) 4, takeBytes b (o + 16) 64)

/-- The class entries of an image. -/
def cfgEntries (b : List Byte) (h : CfgHdr) : List (Nat × Nat × Nat × List Byte) := (List.range h.count).map (cfgEntry b)

/-- The class bodies of an image. -/
def cfgBodies (b : List Byte) (h : CfgHdr) : Assoc Nat (List Byte) :=
  (cfgEntries b h).foldl (fun m e => aset m e.1 (takeBytes b e.2.2.1 e.2.1)) []

/-- Digest of the eight operator-key slots of a TRUST class. 16_lifecycle.md R371. -/
def bindingOf (t : Trust) : List Byte :=
  Config.shake256 ((List.range 8).flatMap fun i => takeBytes (agetD t.opKeys i (zeros 57)) 0 57) 64

/-- The key an image's signature is checked against: one of the TRUST class in force. In RECOVERY no class is in force:
there the image's own TRUST class counts, if the device has no binding or that class matches it. 16_lifecycle.md R371,
R378. -/
def signerKey (s : State) (image : Bool) (bodies : Assoc Nat (List Byte)) (signer : Nat) : Option (List Byte) :=
  if image then
    let t := trustOf (agetD bodies clsTrust [])
    if s.life.binding = none ∨ s.life.binding = some (bindingOf t) then aget t.opKeys signer else none
  else aget (trustCfg s).opKeys signer

/-- Whether an image's signature holds. 16_lifecycle.md R370. -/
def cfgSigned (s : State) (b : List Byte) (h : CfgHdr) : Bool :=
  decide (h.length = b.length) && decide (146 ≤ h.length) &&
    match signerKey s (decide (h.kind = 1)) (cfgBodies b h) h.signer with
    | none => false
    | some k => Config.ed448Verify k ctxConfig (Config.shake256 (b.take (h.length - 114)) 64) (b.drop (h.length - 114))

/-- The phase rules. 16_lifecycle.md R375. -/
def phaseOk (s : State) (h : CfgHdr) (codes : List Nat) : Bool :=
  if h.kind = 1 then decide (h.phase = 0)
  else if h.phase = 0 then codes.all fun c => ! critical c
  else (codes.all critical) && (if h.phase = 1 then decide (s.life.crit = 0) else decide (s.life.crit ≠ 0))

/-- Whether a body of the MAP class, as any other, has pull_timeout_us above lease_us × 1,025/1,024 + 100; a field the
body leaves out counts as it is. 12_ledger.md R294. -/
def mapMargin (s : State) (c : Nat) (b : List Byte) : Bool :=
  let field := fun (r : Reg) =>
    match Config.bodyField c b r.ctorIdx 0 0 with
    | some v => v % 2 ^ r.width
    | none => rget s r 0 0
  decide (c ≠ clsMap) || decide (field .ledger_lease_us * 1025 + 102400 < field .ledger_pull_timeout_us * 1024)

/-- Whether a body keeps its class's layout: the limits of TRUST, the margin of MAP, and what its own layout asks.
15_trust.md R350, 12_ledger.md R294, 16_lifecycle.md R373. -/
def classOk (s : State) (c : Nat) (b : List Byte) : Bool :=
  Config.bodyOk c b && mapMargin s c b && (decide (c ≠ clsTrust) || trustFits (trustOf b))

/-- The checks of a delta or image, in order. 16_lifecycle.md R373. -/
def checkCfg (s : State) (b : List Byte) : Except Status CfgHdr :=
  let h := CfgHdr.parse b
  let es := cfgEntries b h
  let codes := es.map (·.1)
  let recovery : Bool := decide (s.life.node = 1)
  let image : Bool := decide (h.kind = 1)
  match firstFail
    [(decide (h.ver ≠ 1) || decide (h.resv ≠ 0) || (decide (h.kind ≠ 1) && decide (h.kind ≠ 2)) || decide (h.count = 0) ||
        decide (9 < h.count) || codes.any (fun c => ! allClasses.contains c) || (image && ! recovery), .version),
     (! cfgSigned s b h, .notFound),
     (! bit1 h.partMask s.life.part.code ||
        (if image then decide (h.base ≠ 0) || allClasses.any (fun c => ! codes.contains c)
         else decide (h.base ≠ configSeq s) || decide (h.seq ≤ configSeq s)) ||
        es.any (fun e => decide (h.length < e.2.2.1 + e.2.1 + 114) ||
          ! classOk s e.1 (takeBytes b e.2.2.1 e.2.1) ||
          decide (digestOf e.1 (takeBytes b e.2.2.1 e.2.1) ≠ e.2.2.2)) ||
        ! phaseOk s h codes, .bounds),
     (s.life.job.isSome, .busy)] with
  | some st => .error st
  | none => .ok h

/-- A delta is accepted and waits for its commit. 16_lifecycle.md R374. -/
def startDelta (s : State) (msg : Nat) (b : List Byte) (h : CfgHdr) : State :=
  let j : DeltaJob :=
    { msg := msg, seq := h.seq, signer := h.signer, phase := h.phase, bodies := cfgBodies b h,
      image := decide (h.kind = 1), partMask := h.partMask, silent := false, fields := [] }
  setPhase (modLife s fun l => { l with job := some j }) msg .waitCommit

/-- CONFIG_DELTA: in a session the body is the delta; in RECOVERY an image comes without one, through the primary port's PF. 16_lifecycle.md R373, R378;
15_trust.md R352. -/
def execConfigDelta (msg : Nat) (s : State) : Next :=
  let bare : Bool := match msgOf s msg with
    | some m =>
      let h := MgmtHdr.parse m.be m.payload
      decide (h.op = opConfigDelta) && recoveryOp s m h
    | none => false
  if bare then
    mgmtRun s msg opConfigDelta fun s m _ =>
      match checkCfg s (m.payload.drop 16) with
      | .error st => mgmtAnswer (bump s .life_DELTAS_REFUSED 0) msg m st []
      | .ok h => startDelta s msg (m.payload.drop 16) h
  else
    sessionRun s msg opConfigDelta (fun _ => true) fun s m x b =>
      match checkCfg s b with
      | .error st => sealedAnswer (bump s .life_DELTAS_REFUSED 0) msg m x.id st []
      | .ok h => startDelta s msg b h

/-! ## Classes take effect (16_lifecycle.md R368) -/

/-- The register blocks. -/
def allBlks : List Blk :=
  [.sorrel, .tier, .dill, .mem, .chive, .fab, .region, .ledger, .traffic, .ident, .port, .fn, .lov, .life, .health]

/-- Read-only fields that a class sets, and whether only at a start. 16_lifecycle.md R368. -/
def imageFields (c : Nat) : List (Reg × Bool) :=
  if c = clsWire then
    [(.fab_cell_mode, true), (.fab_ipv4, true), (.fab_ethertype, true), (.fab_udp_port, true),
     (.fab_forerunner_compat, false)]
  else if c = clsPorts then [(.fab_port_mode, true), (.fab_endpoint_id, true), (.fab_vlan_en, false)]
  else if c = clsNode then [(.chive_part_base, true), (.chive_part_blocks, true), (.chive_ot_mib, true)]
  else []

/-- Fields of a class that it sets now, at a start all of them. -/
def classFields (c : Nat) (start : Bool) : List Reg :=
  (allBlks.flatMap fun b => (Reg.ofBlk b).filter fun r => decide (r.info.cls = c) && decide (r.info.acc = .rw)) ++
    ((imageFields c).filter fun p => start || ! p.2).map (·.1)

/-- Entries of a field in a block. -/
def entriesOf (r : Reg) : Nat :=
  match r.info.sel with
  | .quota => 4096
  | .kernel => 12
  | .bank => 512
  | .profile => 64
  | .endpoint => 65536
  | .egress => 64
  | .gate => 256
  | .fn => 64
  | _ => r.info.count

/-- Instances of a field: one for the node where R448 gives one value. -/
def instancesOf (r : Reg) : Nat :=
  if r.info.wide then 1
  else
    match r.info.blk with
    | .sorrel | .chive | .fab | .region | .ledger | .traffic | .lov => 8
    | .mem => 40
    | .dill => 32
    | .port => 2
    | .fn => 128
    | .tier | .ident | .life | .health => 1

/-- Every place of a field: instance and entry. -/
def placesOf (r : Reg) : List (Nat × Nat) :=
  (List.range (instancesOf r)).flatMap fun i => (List.range (entriesOf r)).map fun e => (i, e)

/-- Gives a field the value of its class body; at a start, and for a read-only field, without what a write would wait
for. -/
def takeField (s : State) (b : List Byte) (start : Bool) (r : Reg) (p : Nat × Nat) : State :=
  match Config.bodyField r.info.cls b r.ctorIdx p.1 p.2 with
  | none => s
  | some v =>
    let v := v % 2 ^ r.width
    if v = rget s r p.1 p.2 then s
    else if start ∨ r.info.acc = .ro then rset s r p.1 p.2 v
    else putField s r p.1 p.2 v

/-- The profile a NODE body selects: for the next start, at a start for the run; an -E part refuses the Full profile.
00_scope.md R3, 08_memory.md R173. -/
def takeProfile (s : State) (b : List Byte) (seq : Nat) (start : Bool) : State :=
  let want := Config.bodyProfile b
  let full : Bool := want && decide (s.life.part = .p2TF)
  let s := modLife s fun l => { l with full := if start then full else l.full, fullNext := full }
  if want ∧ ¬ full then journal s (nodeHub s) 0x03 (leBytes 8 seq) else s

/-- The operator programs of a KERNEL body are loaded as R150 loads them. -/
def takePrograms (s : State) (b : List Byte) : State :=
  (Config.kernelPrograms b).foldl (fun s p => (loadImage s p.1 p.2).1) s

/-- A class of the configuration in force takes effect. 16_lifecycle.md R368. -/
def applyClass (start : Bool) (s : State) (c : Nat) : State :=
  let b := body s c
  let s := (classFields c start).foldl (fun s r => (placesOf r).foldl (fun s p => takeField s b start r p) s) s
  if c = clsNode then takeProfile s b (configSeq s) start
  else if c = clsKernel then takePrograms s b
  else s

/-- Sessions of an operator key that a TRUST class no longer holds end. 16_lifecycle.md R368. -/
def dropKeys (s : State) (old new : Trust) : State :=
  let stays := fun (x : Session) => decide (aget old.opKeys x.keyIdx = aget new.opKeys x.keyIdx)
  modTrust s fun t => { t with sessions := t.sessions.filter stays }

/-! ## The commit (16_lifecycle.md R374, R375) -/

/-- The bodies of the configuration that a delta produces. -/
def nextBodies (s : State) (j : DeltaJob) : Assoc Nat (List Byte) :=
  let old := if j.image then [] else (cfgSlot s).bodies
  if j.phase = 0 then j.bodies.foldl (fun m p => aset m p.1 p.2) old
  else if j.phase = 2 then s.life.alt.foldl (fun m p => aset m p.1 p.2) old
  else old

/-- The alternate critical bodies and the phase after a delta. 16_lifecycle.md R375. -/
def nextAlt (s : State) (j : DeltaJob) : Assoc Nat (List Byte) × Nat :=
  if j.phase = 1 then (j.bodies, 1)
  else if j.phase = 2 then (s.life.alt.map fun p => (p.1, body s p.1), if s.life.crit = 2 then 1 else 2)
  else if j.phase = 3 then ([], 0)
  else (s.life.alt, s.life.crit)

/-- The classes whose bodies a delta changes. -/
def changedClasses (s : State) (j : DeltaJob) : List Nat :=
  if j.phase = 0 then j.bodies.map (·.1) else if j.phase = 2 then s.life.alt.map (·.1) else []

/-- Steps 1 and 2: the image is in the inactive slot, its commit record programmed, and the CONFIG record formed.
16_lifecycle.md R374, 17_health.md R407. -/
def commitSlot (s : State) (j : DeltaJob) : State :=
  let i := 1 - s.life.slot
  let bodies := nextBodies s j
  let alt := nextAlt s j
  let c : CfgSlot := { seq := j.seq, signer := j.signer, partMask := j.partMask, bodies := bodies, committed := true, good := true }
  let trust := trustOf (agetD bodies clsTrust [])
  let rebind : Bool := j.image || (j.bodies.map (·.1)).contains clsTrust
  let s := modLife s fun l =>
    { l with slot := i, cfg := aset l.cfg i c, alt := alt.1, crit := alt.2, job := none,
             binding := if rebind then some (bindingOf trust) else l.binding }
  let codes := sumNat (((j.bodies.map (·.1)).eraseDups).map fun c => 2 ^ c)
  let s := bump s .life_DELTAS_APPLIED 0
  journal s (nodeHub s) 0x04 (leBytes 8 j.seq ++ leBytes 8 codes ++ leBytes 1 (j.signer + 16 * j.phase))

/-- The response of a committed delta. 16_lifecycle.md R374 step 4. -/
def answerDelta (s : State) (j : DeltaJob) : State :=
  if j.silent then s
  else
    match msgOf s j.msg with
    | none => s
    | some m =>
      let sid := (MgmtHdr.parse m.be m.payload).sid
      if sid = 0 then mgmtAnswer s j.msg m .ok [] else sealedAnswer s j.msg m sid .ok []

/-- The delta that waits is committed and takes effect. 16_lifecycle.md R374. -/
def commitDelta (s : State) (j : DeltaJob) : State :=
  let old := trustCfg s
  let cs := changedClasses s j
  let s := commitSlot s j
  if j.image then loseDies (answerDelta s j)
  else
    let s := if j.fields.isEmpty then cs.foldl (applyClass false) s
      else j.fields.foldl (fun s f => putField s f.1 f.2.1 f.2.2.1 f.2.2.2) s
    let s := answerDelta s j
    if cs.contains clsTrust then dropKeys s old (trustCfg s) else s

/-- DELTA_COMMIT: the accepted delta is written by the hub that drives the NAND bus, and committed. 16_lifecycle.md
R374. -/
def execDeltaCommit (s : State) : Next :=
  match s.life.job with
  | none => .next s
  | some j => if (nandHub s).isNone then .next s else .next (commitDelta s j)

end Sys2Proof.Machine
end

