-- ==== Sys2Proof/Machine/Firmware.lean ====
section
/-!
DEFINITION. Firmware bundles and the activation of dies. 16_lifecycle.md R387, R388.
-/
namespace Sys2Proof.Machine

/-- The bundle in a slot. -/
def bundleAt (s : State) (k : Nat) : Bundle := agetD s.life.bundles k default

/-- The slot no die runs; none while dies run both or move. 16_lifecycle.md R387. -/
def inactiveSlot (s : State) : Option Nat :=
  let k := fwSlot s 0
  if s.life.moving.isEmpty ∧ (List.range 48).all (fun d => decide (fwSlot s d = k)) then some (1 - k) else none

/-- Dies named by a FIRMWARE body in its channel's byte order: a bit of the 8-byte map at offset 8 for each die, bit 40 + h for
Lovage h. 00_scope.md R7. -/
def namedDies (be : Bool) (b : List Byte) : List Nat := (List.range 48).filter fun d => bit1 (fld be b 8 8) d

/-- A FIRMWARE record of a die and the bundle it concerns. 17_health.md R407. -/
def fwRecord (s : State) (sub d : Nat) (b : Bundle) : State :=
  journal s (nodeHub s) 0x05 (leBytes 1 sub ++ leBytes 1 d ++ leBytes 2 0 ++ leBytes 8 b.svn ++ takeBytes b.digest 0 16)

/-- Runs a FIRMWARE sub-op: the body is the sub-op, seven bytes, the die map, and for STAGE the bundle. A reserved
sub-op is refused with VERSION. 16_lifecycle.md R387, 15_trust.md R352. -/
def firmwareRun (s : State) (msg sub : Nat) (f : State → Msg → Session → List Byte → State) : Next :=
  sessionRun s msg opFirmware (fun b => decide (fld false b 0 1 = sub) || decide (fld false b 0 1 = 0) || decide (4 < fld false b 0 1))
    fun s m x b => if fld false b 0 1 = sub then f s m x b else sealedAnswer s msg m x.id .version []

/-- STAGE: a bundle whose signature and security version pass is written to the inactive slot and committed.
16_lifecycle.md R387, 15_trust.md R344. -/
def execStage (msg : Nat) (s : State) : Next :=
  firmwareRun s msg 1 fun s m x b =>
    match inactiveSlot s with
    | none => sealedAnswer s msg m x.id .busy []
    | some k =>
      let (signed, svn, digest, beside) := Config.bundleFacts (b.drop 16)
      let pass : Bool := signed && (List.range 8).all (fun h => decide (agetD s.trust.svnMin h 0 ≤ svn)) && (nandHub s).isSome
      if ! pass then sealedAnswer (freeRefusal s).1 msg m x.id (freeRefusal s).2 []
      else
        let d : Bundle := ⟨digest, svn, beside, true⟩
        let s := modLife s fun l => { l with bundles := aset l.bundles k d, staged := some k }
        sealedAnswer (fwRecord s 1 0 d) msg m x.id .ok []

/-- Moves a die to a slot: a slice restarts once its resident commands are DONE, a hub after its failover, a Lovage
alone, stepping down first. 16_lifecycle.md R388. -/
def moveDie (k : Nat) (s : State) (d : Nat) : State :=
  let s := modLife s fun l => { l with moving := aset l.moving d (k, if d < 32 ∨ 40 ≤ d then 1 else 0),
                                       moveAt := if d < 32 then aset l.moveAt d (now s (homeHub s d)) else l.moveAt }
  if d < 40 then s
  else
    let s := modLov (stepDown s (d - 40)) (d - 40) fun x =>
      { x with booted := false, primary := none, standing := false, waiting := false, backoff := false, votes := [], cands := [] }
    modLife s fun l => { l with dieFw := aset l.dieFw d k }

/-- ACTIVATE. 16_lifecycle.md R387, R388. -/
def execActivate (msg : Nat) (s : State) : Next :=
  firmwareRun s msg 2 fun s m x b =>
    match s.life.staged with
    | none => sealedAnswer s msg m x.id .bounds []
    | some k =>
      let ds := (namedDies m.be b).filter fun d => decide (fwSlot s d ≠ k) && (aget s.life.moving d).isNone
      if ds.any fun d => ! (bundleAt s k).beside.contains (bundleAt s (fwSlot s d)).digest then
        sealedAnswer s msg m x.id .bounds []
      else
        let s := ds.foldl (fun s d => fwRecord s 2 d (bundleAt s k)) s
        ds.foldl (moveDie k) (sealedAnswer s msg m x.id .ok [])

/-- REVERT: each named die moves to the slot it does not run. 16_lifecycle.md R387. -/
def execRevert (msg : Nat) (s : State) : Next :=
  firmwareRun s msg 3 fun s m x b =>
    let ds := (namedDies m.be b).filter fun d => (aget s.life.moving d).isNone
    let dest := fun (d : Nat) => 1 - fwSlot s d
    if ds.any fun d => ! (bundleAt s (dest d)).committed then sealedAnswer (freeRefusal s).1 msg m x.id (freeRefusal s).2 []
    else
      let s := ds.foldl (fun s d => fwRecord s 3 d (bundleAt s (dest d))) s
      ds.foldl (fun s d => moveDie (dest d) s d) (sealedAnswer s msg m x.id .ok [])

/-- RATIFY: the fused minimum of every hub rises to the staged security version, once every die runs the staged slot.
16_lifecycle.md R387. -/
def execRatify (msg : Nat) (s : State) : Next :=
  firmwareRun s msg 4 fun s m x _ =>
    match s.life.staged with
    | none => sealedAnswer (freeRefusal s).1 msg m x.id (freeRefusal s).2 []
    | some k =>
      if ! s.life.moving.isEmpty || (List.range 48).any (fun d => decide (fwSlot s d ≠ k)) then
        sealedAnswer s msg m x.id .busy []
      else
        let v := (bundleAt s k).svn
        let s := modTrust s fun t => { t with svnMin := (List.range 8).map fun h => (h, max (agetD t.svnMin h 0) v) }
        sealedAnswer (fwRecord s 4 0 (bundleAt s k)) msg m x.id .ok []

/-- A die's restart is over: a slice takes its queue, a hub waits for its failback. 16_lifecycle.md R388. -/
def endRestart (s : State) (d k : Nat) : State :=
  if d < 32 then schedule (modLife s fun l => { l with moving := adel l.moving d }) d
  else modLife s fun l => { l with moving := aset l.moving d (k, 2) }

/-- A Lovage goes back to its previous slot, which it boots next. 16_lifecycle.md R388. -/
def lovageBack (s : State) (d k : Nat) : State :=
  modLife s fun l => { l with moving := adel l.moving d, dieFw := aset l.dieFw d (1 - k) }

/-- FW_READY_TIMEOUT: a die or Lovage that restarts has not reported ready within ten times its bound, 3 ms for a slice and
40 ms for a Lovage, and returns to its previous slot. 16_lifecycle.md R378, R388. -/
def execFwReadyTimeout (die : FwDie) (s : State) : Next :=
  let d := die.val
  match aget s.life.moving d with
  | some (k, 1) =>
    let s := if d < 32 then passTo s (homeHub s d) (now s (homeHub s d) + 30000000) else s
    let s := if 40 ≤ d then lovageBack (passTo s (d - 40) (now s (d - 40) + 400000000)) d k else s
    let s := fwRecord (bump s .life_FW_REVERTS 0) 3 d (bundleAt s (fwSlot s d))
    .next (if d < 40 then endRestart s d k else s)
  | _ => .next s

/-- The resident commands of a slice that restarts have had their 10 ms: they end as aborted commands do (DESIGN CHOICE,
assumption 179). 16_lifecycle.md R388, 07_dill.md R146. -/
def endResidents (s : State) (k : Nat) : State :=
  let end_ := fun (c : CmdSlot) =>
    if c.kind = 0 ∧ (c.state = .running ∨ c.state = .yielded) then
      { c with state := .fault, status := Status.busy.code, faultCode := 7 }
    else c
  modEng s k fun d => { d with slots := d.slots.map fun p => (p.1, end_ p.2), saved := [], cur := none, segment := false }

/-- DIE_READY: a die that restarts reports ready, running the slot it was moved to; a slice does not restart before its
resident commands are DONE, or have had 10 ms. 16_lifecycle.md R388. -/
def execDieReady (die : Die) (s : State) : Next :=
  let d := die.val
  match aget s.life.moving d with
  | some (k, 1) =>
    if d < 32 ∧ 0 < residents (dillOf s d) ∧ now s (homeHub s d) < agetD s.life.moveAt d 0 + 10000000 then .next s
    else
      let s := if d < 32 then endResidents s d else s
      .next (endRestart (modLife s fun l => { l with dieFw := aset l.dieFw d k }) d k)
  | _ => .next s

end Sys2Proof.Machine
end

