-- ==== Sys2Proof/Machine/Start.lean ====
section
/-!
DEFINITION. The start of the node. 16_lifecycle.md R378 to R382; 18_package.md R427, R434 to R436.
-/
namespace Sys2Proof.Machine

/-- Whether a configuration slot passes: signature, binding, part and the margin of its MAP class. 16_lifecycle.md R371,
R378; 12_ledger.md R294. -/
def slotGood (s : State) (i : Nat) : Bool :=
  let c := agetD s.life.cfg i default
  c.committed && c.good && decide (s.life.binding = some (bindingOf (trustOf (agetD c.bodies clsTrust [])))) &&
    bit1 c.partMask s.life.part.code && mapMargin s clsMap (agetD c.bodies clsMap [])

/-- The configuration slot of a start: the active one, else the other. 16_lifecycle.md R378. -/
def startSlot (s : State) : Option Nat :=
  if slotGood s s.life.slot then some s.life.slot else if slotGood s (1 - s.life.slot) then some (1 - s.life.slot) else none

/-- Step 1: hubs leave reset and local time starts, the banks of the fixed areas are ON, the PCIe links train.
16_lifecycle.md R378, 18_package.md R427, 08_memory.md R192, R445. -/
def hubsLeave (s : State) (strap : Bool) : State :=
  let s := modPower s fun p => { p with diesOut := true, resetLow := false, strap := strap }
  let s := [0, 1].foldl (fun s p => if s.power.perst.getD p false then trainPort s p else s) s
  let s := modMem s fun m => { m with banks := m.banks.map fun p => (p.1, idleBank p.1.1 p.1.2 p.2) }
  modLife s fun l =>
    { l with node := 0, boot := l.boot + 1,
             hubs := (List.range 8).map fun h => (h, ⟨0, 0, .inService, (hubSt s h).unitGen, true, true⟩) }

/-- Whether the self-test is skipped. 16_lifecycle.md R381. -/
def skipsTest (s : State) (nand : NandFacts) : Bool :=
  let m := kgmNow s
  (kgmSlot s).isSome && decide (m.state = 1) && decide (m.serial = Config.serial) && decide (m.fusePrefix = fusePrefix s) &&
    nand.supported && decide ((newestRec s.jrnl.flash.recs fun _ => true).map (·.type) = some 0x02)

/-- Steps 5 and 6: the map check, the self-test where it fails, and the map rewritten DIRTY. 16_lifecycle.md R378. -/
def checkMap (s : State) (nand : NandFacts) : State :=
  let skip := skipsTest s nand
  let s := modLife s fun l => { l with bistSkipped := skip }
  let s := if skip then s else selfTest s 0
  writeKgm s 2 (kgmNow s).entries

/-- An entry of the map is applied. 16_lifecycle.md R378 step 8, R380. -/
def applyEntry (s : State) (e : Nat × Nat × Nat × Nat × Nat) : State :=
  let (d, kind, unit, loc, value) := e
  if kind = 1 then
    if d < 32 then modSlice s d fun x => { x with st := value % 8 } else modHub s (d - 32) fun x => { x with st := value % 8 }
  else if kind = 2 then
    if (bankSt s d unit).retired then s else moveArea (modBank s d unit fun b => { b with retired := true }) d unit
  else if kind = 3 then
    let b := bankSt s d unit
    if b.fused.contains loc ∨ b.soft.contains loc then s else modBank s d unit fun b => { b with soft := b.soft ++ [loc] }
  else if kind = 4 then
    let r := (d, unit * 2 ^ 20 + loc)
    if s.mem.rowFix.contains r then s else modMem s fun m => { m with rowFix := m.rowFix ++ [r] }
  else if kind = 6 then
    if s.chive.retired.contains (d - 32, unit) then s
    else modChive s fun c => { c with retired := c.retired ++ [(d - 32, unit)] }
  else s

/-- Step 7: the die-to-die links train with the lane remaps of the map and are checked with PRBS31; step 8: the HBM PHYs train
and check their pins. A lane with an error is remapped, a slice whose stack cannot be trained is UNAVAILABLE, and a die's
results enter its BIST record. 16_lifecycle.md R378, 18_package.md R440, R441. A mapping is a free value, DESIGN CHOICE (assumption 189). -/
def trainLinks (s : State) : State :=
  let remap := (kgmNow s).entries.filter fun e => decide (e.2.1 = 5)
  let s := modLife s fun l =>
    { l with lanes := remap.foldl (fun m e => aset m (e.1, e.2.2.1, e.2.2.2.1) e.2.2.2.2) l.lanes }
  (List.range 40).foldl (fun s d =>
    let (no, s) := testNo s
    if (linkFaults d no).isEmpty then s else endTest s d 0 0 (linkFaults d no)) s

/-- Step 8: repairs of the map, and slices without a hub take another home. 16_lifecycle.md R378. -/
def applyMap (s : State) : State := rehomeAll ((kgmNow s).entries.foldl applyEntry s)

/-- The shipped programs go into the store. 07_dill.md R149, R171; 16_lifecycle.md R378 step 9. -/
def installShipped (s : State) : State :=
  ((List.range 6).foldl (fun (r : State × Nat) n =>
    let (ws, bound) := Config.shippedProgram n
    (installProg r.1 n r.2 bound false ws, r.2 + ws.length)) (s, 0)).1

/-- The firmware writes the kernel-table entries 12 to 15, each naming a shipped program; what they match the spec does not
state (assumption 172). 07_dill.md R149. -/
def installKernels (s : State) : State :=
  (List.range 4).foldl (fun s n =>
    let i := 12 + n
    let put := fun (s : State) (r : Reg) (v m : Nat) => rset s r 0 i (v % m)
    let s := put (rset s .dill_kt_valid 0 i 1) .dill_kt_any (Config.kernelEntry i 0) 2
    let s := put (put s .dill_kt_tenant (Config.kernelEntry i 1) (2 ^ 16)) .dill_kt_key_format (Config.kernelEntry i 2) 256
    let s := put (put s .dill_kt_value_format (Config.kernelEntry i 3) 256) .dill_kt_skip_mode (Config.kernelEntry i 4) 4
    put s .dill_kt_program (Config.kernelEntry i 5) 6) s

/-- Step 9: classes applied and programs installed. 16_lifecycle.md R378. -/
def applyAll (s : State) : State := installKernels (allClasses.foldl (applyClass true) (installShipped s))

/-- The journal is mounted beside steps 4 to 9; histograms, metering and the legacy counter resume from it. 17_health.md
R405, R412, R418; 15_trust.md R366. -/
def resumeJournal (s : State) (nand : NandFacts) : State :=
  let s := resumeHealth (mountJournal s nand)
  let stored := ((newestRec s.jrnl.flash.recs fun r => decide (r.type = 0x32)).map fun r => fld false r.payload 0 8).getD 0
  modTrust s fun t => { t with legacyFloor := stored + 65536 }

/-- Step 10: the START record, and the EVENT of a trip before this start. 17_health.md R404, R407; 18_package.md R438. -/
def recordStart (s : State) : State :=
  let s := journal s (nodeHub s) 0x01
    (leBytes 8 (configSeq s) ++ leBytes 8 (kgmNow s).seq ++ takeBytes (dieFwDigest s) 0 16 ++ leBytes 1 (b2n s.life.bistSkipped))
  match s.power.tripRec with
  | none => s
  | some (d, t) => modPower (healthEvent s d 2 (ofSigned 32 t)) fun p => { p with tripRec := none }

/-- Step 11: the node as a returning unit, in service or draining, each slice at the throttle level it is due. 12_ledger.md
R297, 16_lifecycle.md R378, 18_package.md R434, 08_memory.md R190. -/
def enterService (s : State) : State :=
  let drains : Bool := s.power.drainHeld || s.power.drainPin
  let s := settleLevels (modPower s fun p => { p with drainPin := drains, drainHeld := false })
  modLife s fun l =>
    { l with node := if drains then 3 else 2, nodeGen := (l.nodeGen + 1) % 2 ^ 32,
             nodeUnit := if l.member then .quarantined else .inService }

/-- The start of the node; both configuration slots bad leaves it in RECOVERY. 16_lifecycle.md R378. -/
def startNode (s : State) (strap : Bool) (nand : NandFacts) : State :=
  let s := hubsLeave s strap
  let good := startSlot s
  let s := applyMap (trainLinks (checkMap s nand))
  match good with
  | none => modLife (recordStart (resumeJournal s nand)) fun l => { l with node := 1 }
  | some i => enterService (recordStart (applyAll (resumeJournal (modLife s fun l => { l with slot := i }) nand)))

/-- RESET_RELEASE: with the rails in regulation the dies leave reset, MGMT_LEGACY is sampled and the node starts; an
earlier release has no effect on them. 18_package.md R427, R435, R436; 16_lifecycle.md R378. -/
def execResetRelease (strap : Bool) (nand : NandFacts) (s : State) : Next :=
  if s.power.rails ∧ s.power.pwrok ∧ ¬ s.power.diesOut then .next (startNode s strap nand)
  else .next (modPower s fun p => { p with resetLow := false })

end Sys2Proof.Machine
end

