-- ==== Sys2Proof/Machine/Dispatch.lean ====
section
/-!
DEFINITION. The meaning of every command: one arm per constructor, each a direct call of the command's own meaning.
-/
namespace Sys2Proof.Machine

/-- The effect of a command on everything but the queue. -/
def exec (i : Instr) (s : State) : Host.Outcome State Fault Refusal :=
  match i with
  | .plembelFrameReceive hub f => Sys2Proof.Machine.execPlembelFrameReceive hub f s
  | .attend msg => Sys2Proof.Machine.execAttend msg s
  | .sliceRecordArrival ctx slice => Sys2Proof.Machine.execSliceRecordArrival ctx slice s
  | .quadrantRecordArrival ctx quad => Sys2Proof.Machine.execQuadrantRecordArrival ctx quad s
  | .quadrantMergeClose ctx quad => Sys2Proof.Machine.execQuadrantMergeClose ctx quad s
  | .ingressMergeDeadline ctx => Sys2Proof.Machine.execIngressMergeDeadline ctx s
  | .partialContribution msg => Sys2Proof.Machine.execPartialContribution msg s
  | .partialResponse msg => Sys2Proof.Machine.execPartialResponse msg s
  | .groupDeadline hub key => Sys2Proof.Machine.execGroupDeadline hub key s
  | .tombstoneExpiry hub key => Sys2Proof.Machine.execTombstoneExpiry hub key s
  | .appendTokens msg => Sys2Proof.Machine.execAppendTokens msg s
  | .createSeq msg => Sys2Proof.Machine.execCreateSeq msg s
  | .forkSeq msg => Sys2Proof.Machine.execForkSeq msg s
  | .forkCommitTimeout msg => Sys2Proof.Machine.execForkCommitTimeout msg s
  | .truncateSeq msg => Sys2Proof.Machine.execTruncateSeq msg s
  | .setPattern msg => Sys2Proof.Machine.execSetPattern msg s
  | .dropSeq msg => Sys2Proof.Machine.execDropSeq msg s
  | .bindDelta msg => Sys2Proof.Machine.execBindDelta msg s
  | .sequenceDrainComplete desc => Sys2Proof.Machine.execSequenceDrainComplete desc s
  | .bulkAppend msg => Sys2Proof.Machine.execBulkAppend msg s
  | .sealReq msg => Sys2Proof.Machine.execSealReq msg s
  | .sealDeadline msg => Sys2Proof.Machine.execSealDeadline msg s
  | .tailSeal slice => Sys2Proof.Machine.execTailSeal slice s
  | .sealRetry slice => Sys2Proof.Machine.execSealRetry slice s
  | .refCountChange slice => Sys2Proof.Machine.execRefCountChange slice s
  | .tailWriteBack tail => Sys2Proof.Machine.execTailWriteBack tail s
  | .tailEvict tail => Sys2Proof.Machine.execTailEvict tail s
  | .pagePromote lpn => Sys2Proof.Machine.execPagePromote lpn s
  | .pageDemote lpn => Sys2Proof.Machine.execPageDemote lpn s
  | .readRegion msg => Sys2Proof.Machine.execReadRegion msg s
  | .writeRegion msg => Sys2Proof.Machine.execWriteRegion msg s
  | .registerRegion msg => Sys2Proof.Machine.execRegisterRegion msg s
  | .revokeRegion msg => Sys2Proof.Machine.execRevokeRegion msg s
  | .reregisterRegion msg => Sys2Proof.Machine.execReregisterRegion msg s
  | .revokeDrainComplete index => Sys2Proof.Machine.execRevokeDrainComplete index s
  | .readResp msg => Sys2Proof.Machine.execReadResp msg s
  | .ledgerRead msg => Sys2Proof.Machine.execLedgerRead msg s
  | .ledgerPublish msg => Sys2Proof.Machine.execLedgerPublish msg s
  | .recall msg => Sys2Proof.Machine.execRecall msg s
  | .recallAck msg => Sys2Proof.Machine.execRecallAck msg s
  | .recallWaitExpiry hub line sharer => Sys2Proof.Machine.execRecallWaitExpiry hub line sharer s
  | .leaseExpiry line => Sys2Proof.Machine.execLeaseExpiry line s
  | .transferLeaseExpiry hub line => Sys2Proof.Machine.execTransferLeaseExpiry hub line s
  | .extentDrainExpiry slice extent => Sys2Proof.Machine.execExtentDrainExpiry slice extent s
  | .extentScrubComplete slice extent => Sys2Proof.Machine.execExtentScrubComplete slice extent s
  | .mapAdopt => Sys2Proof.Machine.execMapAdopt s
  | .epochWaitExpiry msg => Sys2Proof.Machine.execEpochWaitExpiry msg s
  | .linePull hub line => Sys2Proof.Machine.execLinePull hub line s
  | .pullTimeout hub line => Sys2Proof.Machine.execPullTimeout hub line s
  | .unitReturn unit => Sys2Proof.Machine.execUnitReturn unit s
  | .ack msg => Sys2Proof.Machine.execAck msg s
  | .nack msg => Sys2Proof.Machine.execNack msg s
  | .hello msg => Sys2Proof.Machine.execHello msg s
  | .connectionFill conn => Sys2Proof.Machine.execConnectionFill conn s
  | .heartbeat msg => Sys2Proof.Machine.execHeartbeat msg s
  | .rtoExpiry conn => Sys2Proof.Machine.execRtoExpiry conn s
  | .helloTimeout conn => Sys2Proof.Machine.execHelloTimeout conn s
  | .creditStallHeartbeat conn => Sys2Proof.Machine.execCreditStallHeartbeat conn s
  | .ackDelayExpiry conn => Sys2Proof.Machine.execAckDelayExpiry conn s
  | .keepaliveExpiry conn => Sys2Proof.Machine.execKeepaliveExpiry conn s
  | .deadTimeExpiry conn => Sys2Proof.Machine.execDeadTimeExpiry conn s
  | .quietTimeExpiry conn => Sys2Proof.Machine.execQuietTimeExpiry conn s
  | .subportLinkUp hub sub peerMac => Sys2Proof.Machine.execSubportLinkUp hub sub peerMac s
  | .subportLinkDown hub sub => Sys2Proof.Machine.execSubportLinkDown hub sub s
  | .kx1 hub sub frame => Sys2Proof.Machine.execKx1 hub sub frame s
  | .kx2 hub sub frame => Sys2Proof.Machine.execKx2 hub sub frame s
  | .kx3 hub sub frame => Sys2Proof.Machine.execKx3 hub sub frame s
  | .kx1Retry hub sub => Sys2Proof.Machine.execKx1Retry hub sub s
  | .kxRestart hub sub => Sys2Proof.Machine.execKxRestart hub sub s
  | .rekeyIntervalExpiry hub sub => Sys2Proof.Machine.execRekeyIntervalExpiry hub sub s
  | .oldKeyExpiry hub sub => Sys2Proof.Machine.execOldKeyExpiry hub sub s
  | .bucketRefill hub => Sys2Proof.Machine.execBucketRefill hub s
  | .egressFrameOpportunity hub sub => Sys2Proof.Machine.execEgressFrameOpportunity hub sub s
  | .gateListCommit hub => Sys2Proof.Machine.execGateListCommit hub s
  | .gateListSwitch hub sub => Sys2Proof.Machine.execGateListSwitch hub sub s
  | .gateEntryAdvance hub sub => Sys2Proof.Machine.execGateEntryAdvance hub sub s
  | .commandSlotIssue slice slot c => Sys2Proof.Machine.execCommandSlotIssue slice slot c s
  | .commandCancel slice slot => Sys2Proof.Machine.execCommandCancel slice slot s
  | .commandSlotRelease slice slot => Sys2Proof.Machine.execCommandSlotRelease slice slot s
  | .vld slice f => Sys2Proof.Machine.execVld slice f s
  | .vldComplete slice lane => Sys2Proof.Machine.execVldComplete slice lane s
  | .vst slice f => Sys2Proof.Machine.execVst slice f s
  | .sld slice f => Sys2Proof.Machine.execSld slice f s
  | .sst slice f => Sys2Proof.Machine.execSst slice f s
  | .waitl slice f => Sys2Proof.Machine.execWaitl slice f s
  | .cfg slice f => Sys2Proof.Machine.execCfg slice f s
  | .dqdot8 slice f => Sys2Proof.Machine.execDqdot8 slice f s
  | .dqdot4 slice f => Sys2Proof.Machine.execDqdot4 slice f s
  | .dqdot4c slice f => Sys2Proof.Machine.execDqdot4c slice f s
  | .fold slice f => Sys2Proof.Machine.execFold slice f s
  | .dotbf slice f => Sys2Proof.Machine.execDotbf slice f s
  | .bnd slice f => Sys2Proof.Machine.execBnd slice f s
  | .bndr slice f => Sys2Proof.Machine.execBndr slice f s
  | .logit slice f => Sys2Proof.Machine.execLogit slice f s
  | .pmax slice f => Sys2Proof.Machine.execPmax slice f s
  | .expacc8 slice f => Sys2Proof.Machine.execExpacc8 slice f s
  | .expacc4 slice f => Sys2Proof.Machine.execExpacc4 slice f s
  | .expaccbf slice f => Sys2Proof.Machine.execExpaccbf slice f s
  | .rmerge slice f => Sys2Proof.Machine.execRmerge slice f s
  | .remit slice f => Sys2Proof.Machine.execRemit slice f s
  | .crcchk slice f => Sys2Proof.Machine.execCrcchk slice f s
  | .salu slice f => Sys2Proof.Machine.execSalu slice f s
  | .sfpu slice f => Sys2Proof.Machine.execSfpu slice f s
  | .movi slice f => Sys2Proof.Machine.execMovi slice f s
  | .aadd slice f => Sys2Proof.Machine.execAadd slice f s
  | .loopOpen slice f => Sys2Proof.Machine.execLoopOpen slice f s
  | .endl slice f => Sys2Proof.Machine.execEndl slice f s
  | .brz slice f => Sys2Proof.Machine.execBrz slice f s
  | .halt slice f => Sys2Proof.Machine.execHalt slice f s
  | .yield slice f => Sys2Proof.Machine.execYield slice f s
  | .pfill slice f => Sys2Proof.Machine.execPfill slice f s
  | .pcopy slice f => Sys2Proof.Machine.execPcopy slice f s
  | .pcmp slice f => Sys2Proof.Machine.execPcmp slice f s
  | .pred slice f => Sys2Proof.Machine.execPred slice f s
  | .poolChunkComplete slice => Sys2Proof.Machine.execPoolChunkComplete slice s
  | .refreshDue slice pc bank => Sys2Proof.Machine.execRefreshDue slice pc bank s
  | .refreshCatchUp slice => Sys2Proof.Machine.execRefreshCatchUp slice s
  | .throttlePauseEnd slice => Sys2Proof.Machine.execThrottlePauseEnd slice s
  | .snapshot msg => Sys2Proof.Machine.execSnapshot msg s
  | .snapshotCopy snap => Sys2Proof.Machine.execSnapshotCopy snap s
  | .stackTempSample slice temp => Sys2Proof.Machine.execStackTempSample slice temp s
  | .dieTempSample die t0 t1 t2 t3 => Sys2Proof.Machine.execDieTempSample die t0 t1 t2 t3 s
  | .powerLevelUpdate watts => Sys2Proof.Machine.execPowerLevelUpdate watts s
  | .patrolScrubRead die => Sys2Proof.Machine.execPatrolScrubRead die s
  | .bankRetainIdle die bank => Sys2Proof.Machine.execBankRetainIdle die bank s
  | .selfRefreshEntry slice pc => Sys2Proof.Machine.execSelfRefreshEntry slice pc s
  | .linkReplay link word => Sys2Proof.Machine.execLinkReplay link word s
  | .hubFailure hub => Sys2Proof.Machine.execHubFailure hub s
  | .chiveInsert hub row => Sys2Proof.Machine.execChiveInsert hub row s
  | .chiveDelete hub row => Sys2Proof.Machine.execChiveDelete hub row s
  | .chiveReplace hub row => Sys2Proof.Machine.execChiveReplace hub row s
  | .overflowReturn hub cls key => Sys2Proof.Machine.execOverflowReturn hub cls key s
  | .camScrub hub => Sys2Proof.Machine.execCamScrub hub s
  | .blockRebuild hub block => Sys2Proof.Machine.execBlockRebuild hub block s
  | .prefixRootScan hub => Sys2Proof.Machine.execPrefixRootScan hub s
  | .commandBodyWrite port fn slot offset data ide => Sys2Proof.Machine.execCommandBodyWrite port fn slot offset data s ide
  | .payloadReadComplete msg r => Sys2Proof.Machine.execPayloadReadComplete msg r s
  | .coalesceExpiry port fn ring => Sys2Proof.Machine.execCoalesceExpiry port fn ring s
  | .directWindowRead port fn window offset length ide => Sys2Proof.Machine.execDirectWindowRead port fn window offset length ide s
  | .directWindowWrite port fn window offset data ide => Sys2Proof.Machine.execDirectWindowWrite port fn window offset data ide s
  | .functionLevelReset port fn => Sys2Proof.Machine.execFunctionLevelReset port fn s
  | .pcieLinkDown port => Sys2Proof.Machine.execPcieLinkDown port s
  | .perstRelease port => Sys2Proof.Machine.execPerstRelease port s
  | .ringEnable port fn ring ide => Sys2Proof.Machine.execRingEnable port fn ring s ide
  | .getMeasurements port => Sys2Proof.Machine.execGetMeasurements port s
  | .keyProg port stream sub set key => Sys2Proof.Machine.execKeyProg port stream sub set key s
  | .kSetGo port stream set => Sys2Proof.Machine.execKSetGo port stream set s
  | .kSetStop port stream set => Sys2Proof.Machine.execKSetStop port stream set s
  | .getCerts msg => Sys2Proof.Machine.execGetCerts msg s
  | .attest msg => Sys2Proof.Machine.execAttest msg s
  | .sessionOpen msg => Sys2Proof.Machine.execSessionOpen msg s
  | .sessionAuth msg => Sys2Proof.Machine.execSessionAuth msg s
  | .sessionClose msg => Sys2Proof.Machine.execSessionClose msg s
  | .sessionIdleExpiry session => Sys2Proof.Machine.execSessionIdleExpiry session s
  | .regRead msg => Sys2Proof.Machine.execRegRead msg s
  | .regWrite msg => Sys2Proof.Machine.execRegWrite msg s
  | .configDelta msg => Sys2Proof.Machine.execConfigDelta msg s
  | .deltaCommit => Sys2Proof.Machine.execDeltaCommit s
  | .programLoad msg => Sys2Proof.Machine.execProgramLoad msg s
  | .stage msg => Sys2Proof.Machine.execStage msg s
  | .activate msg => Sys2Proof.Machine.execActivate msg s
  | .revert msg => Sys2Proof.Machine.execRevert msg s
  | .ratify msg => Sys2Proof.Machine.execRatify msg s
  | .fwReadyTimeout die => Sys2Proof.Machine.execFwReadyTimeout die s
  | .legacyPsk msg => Sys2Proof.Machine.execLegacyPsk msg s
  | .tenantView msg => Sys2Proof.Machine.execTenantView msg s
  | .candidate hub sender term => Sys2Proof.Machine.execCandidate hub sender term s
  | .vote hub voter term => Sys2Proof.Machine.execVote hub voter term s
  | .beacon hub sender term => Sys2Proof.Machine.execBeacon hub sender term s
  | .beaconSend hub => Sys2Proof.Machine.execBeaconSend hub s
  | .beaconTimeout hub => Sys2Proof.Machine.execBeaconTimeout hub s
  | .voteWaitExpiry hub => Sys2Proof.Machine.execVoteWaitExpiry hub s
  | .candidacyTimeout hub => Sys2Proof.Machine.execCandidacyTimeout hub s
  | .lovageMeasuredBoot hub => Sys2Proof.Machine.execLovageMeasuredBoot hub s
  | .legacyIdentity counter body tag => Sys2Proof.Machine.execLegacyIdentity counter body tag s
  | .legacyHealth counter body tag => Sys2Proof.Machine.execLegacyHealth counter body tag s
  | .legacyTempPower counter body tag => Sys2Proof.Machine.execLegacyTempPower counter body tag s
  | .legacyDrain counter body tag => Sys2Proof.Machine.execLegacyDrain counter body tag s
  | .legacyDrainRelease counter body tag => Sys2Proof.Machine.execLegacyDrainRelease counter body tag s
  | .legacyNodeReset counter body tag => Sys2Proof.Machine.execLegacyNodeReset counter body tag s
  | .retrain => Sys2Proof.Machine.execRetrain s
  | .retire => Sys2Proof.Machine.execRetire s
  | .readmit => Sys2Proof.Machine.execReadmit s
  | .failover => Sys2Proof.Machine.execFailover s
  | .failback => Sys2Proof.Machine.execFailback s
  | .isolateTest => Sys2Proof.Machine.execIsolateTest s
  | .shutdown => Sys2Proof.Machine.execShutdown s
  | .bankTest die bank cam faults => Sys2Proof.Machine.execBankTest die bank cam faults s
  | .classFieldWrite port fn offset value ide => Sys2Proof.Machine.execClassFieldWrite port fn offset value s ide
  | .registerWrite port fn offset value ide => Sys2Proof.Machine.execRegisterWrite port fn offset value s ide
  | .localTimeLatch hub port ide => Sys2Proof.Machine.execLocalTimeLatch hub s port ide
  | .errPop die => Sys2Proof.Machine.execErrPop die s
  | .dieSummaryLatch port ide => Sys2Proof.Machine.execDieSummaryLatch s port ide
  | .meterRecordLatch port ide => Sys2Proof.Machine.execMeterRecordLatch s port ide
  | .clearMin => Sys2Proof.Machine.execClearMin s
  | .journalRecordLoad => Sys2Proof.Machine.execJournalRecordLoad s
  | .journalRecordLoaded corrected uncorrectable => Sys2Proof.Machine.execJournalRecordLoaded corrected uncorrectable s
  | .censusEntryClear hub entry => Sys2Proof.Machine.execCensusEntryClear hub entry s
  | .bankForceOn die => Sys2Proof.Machine.execBankForceOn die s
  | .bankForceRetain die => Sys2Proof.Machine.execBankForceRetain die s
  | .bankForceOff die => Sys2Proof.Machine.execBankForceOff die s
  | .bankAutomatic die => Sys2Proof.Machine.execBankAutomatic die s
  | .marginMeasure slice pc width height => Sys2Proof.Machine.execMarginMeasure slice pc width height s
  | .serdesMarginReport die unit height => Sys2Proof.Machine.execSerdesMarginReport die unit height s
  | .canaryMeasure die index => Sys2Proof.Machine.execCanaryMeasure die index s
  | .droopEvent die mv => Sys2Proof.Machine.execDroopEvent die mv s
  | .histogramSample die temp core input => Sys2Proof.Machine.execHistogramSample die temp core input s
  | .histFlush => Sys2Proof.Machine.execHistFlush s
  | .meterSample => Sys2Proof.Machine.execMeterSample s
  | .coarsePublish hub => Sys2Proof.Machine.execCoarsePublish hub s
  | .coarsePublishSecond hub => Sys2Proof.Machine.execCoarsePublishSecond hub s
  | .journalRecordArrival hub => Sys2Proof.Machine.execJournalRecordArrival hub s
  | .journalFlushExpiry => Sys2Proof.Machine.execJournalFlushExpiry s
  | .journalPageProgram => Sys2Proof.Machine.execJournalPageProgram s
  | .nandProgramFail block erase again => Sys2Proof.Machine.execNandProgramFail block erase again s
  | .vsb33Valid drainLow => Sys2Proof.Machine.execVsb33Valid drainLow s
  | .vsb33Loss => Sys2Proof.Machine.execVsb33Loss s
  | .vin48Valid mv => Sys2Proof.Machine.execVin48Valid mv s
  | .railsInRegulation => Sys2Proof.Machine.execRailsInRegulation s
  | .vin48Undervoltage => Sys2Proof.Machine.execVin48Undervoltage s
  | .railFault => Sys2Proof.Machine.execRailFault s
  | .resetAssert => Sys2Proof.Machine.execResetAssert s
  | .resetRelease strap nand => Sys2Proof.Machine.execResetRelease strap nand s
  | .throttleAssert => Sys2Proof.Machine.execThrottleAssert s
  | .throttleRelease => Sys2Proof.Machine.execThrottleRelease s
  | .drainEvent => Sys2Proof.Machine.execDrainEvent s
  | .drainRearm => Sys2Proof.Machine.execDrainRearm s
  | .ref25Loss hub => Sys2Proof.Machine.execRef25Loss hub s
  | .bypass die => Sys2Proof.Machine.execBypass die s
  | .idcode die => Sys2Proof.Machine.execIdcode die s
  | .samplePreload die lands preload => Sys2Proof.Machine.execSamplePreload die lands preload s
  | .extest die lands => Sys2Proof.Machine.execExtest die lands s
  | .clamp die => Sys2Proof.Machine.execClamp die s
  | .highz die => Sys2Proof.Machine.execHighz die s
  | .linktest die data => Sys2Proof.Machine.execLinktest die data s
  | .hbmloop die data => Sys2Proof.Machine.execHbmloop die data s
  | .tapReset => Sys2Proof.Machine.execTapReset s
  | .finalWrite port fn slot value ide => Sys2Proof.Machine.execFinalWrite port fn slot value s ide
  | .sliceFailure slice => Sys2Proof.Machine.execSliceFailure slice s
  | .programFree number => Sys2Proof.Machine.execProgramFree number s
  | .securedSession port => Sys2Proof.Machine.execSecuredSession port s
  | .ledgerReadResponse msg => Sys2Proof.Machine.execLedgerReadResponse msg s
  | .ledgerPublishResponse msg => Sys2Proof.Machine.execLedgerPublishResponse msg s
  | .dieReady die => Sys2Proof.Machine.execDieReady die s
  | .candidacyBackoffExpiry hub => Sys2Proof.Machine.execCandidacyBackoffExpiry hub s
  | .vsb33Removed => Sys2Proof.Machine.execVsb33Removed s
  | .stackRetrainComplete slice failed => Sys2Proof.Machine.execStackRetrainComplete slice failed s

end Sys2Proof.Machine
end

