-- ==== Sys2Proof/Safety.lean ====
section
/-!
DEFINITION. The terms that statements are made in: a command that completes, memory read one byte at a time, canonical
memory, and runs of the block.
-/
namespace Sys2Proof.Machine

/-- The command runs to a next state, and P holds there. -/
def Completes (c : Instr) (s : State) (P : State → Prop) : Prop :=
  ∃ t, exec c s = Host.Outcome.next t ∧ P t

/-- The byte at a node address of memory. -/
def byteAt (s : State) (a : Nat) : Byte := readByte s.mem.cells a

/-- Memory stands in its canonical form: rising addresses and no byte equal to what an unlisted address reads as. -/
def Canonical (s : State) : Prop := Memory.wf s.mem.cells = true

/-- The state after n steps of a run that neither faults nor is refused. -/
def Reaches : Nat → State → State → Prop
  | 0, s, t => t = s
  | n + 1, s, t => ∃ u, step s = Host.Outcome.next u ∧ Reaches n u t

/-- A run is safe for n steps: no step of it is refused, and only the environment's breach of the stated limits
(00_scope.md R6) ends it. -/
def SafeFor : Nat → State → Prop
  | 0, _ => True
  | n + 1, s =>
    match step s with
    | .next t => SafeFor n t
    | .fault f => f = Fault.outsideLimits
    | .refused _ => False

end Sys2Proof.Machine
end

