-- ==== Sys2Proof/Certificates/Slice0/Obligations.lean ====
section
/-!
DEFINITION. The statements for the provers. Each is about every state unless it says otherwise; `Completes c s P` is that
exec of c on s answers a next state that has P.
-/
open Sys2Proof Sys2Proof.Machine

/-- Every KV head that a request names holds up to its end, and the sequence is at least that long. -/
def RowsHeld (t : State) (i : Nat) (d : Desc) (a : App) : Prop :=
  (∀ h, h < a.kvCount → (tdirOf t i (d.pair a.layer (a.kvFirst + h))).heldEnd = a.pos + a.tokens) ∧
  (descOf t i).map (·.length) = some (max d.length (a.pos + a.tokens))

/-- The open tails of the layers and KV heads a SEAL names. -/
def sealTails (u : State) (i : Nat) (d : Desc) (a : App) : List TailKey :=
  (a.named a.layerCount).map fun p => openKey u i d p.1 p.2

/-- What a request of rows looks at holds no word to correct. -/
def LooksClean (u : State) (i : Nat) (d : Desc) (a : App) : Prop :=
  let v := checkOpen d ((a.named 1).map fun p => openKey u i d p.1 p.2) u
  v.2 = .ok ∧ v.1.mem = u.mem ∧ v.1.seqs = u.seqs

/-- The named tails that hold a token. -/
def fullTails (u : State) (i : Nat) (d : Desc) (a : App) : List (Nat × Nat) :=
  (a.named a.layerCount).filter fun p => hasRows u i d p

/-- A SEAL within bounds, without keys, none of whose pairs is claimed. -/
def SealFits (u : State) (i : Nat) (d : Desc) (m : Msg) (a : App) : Prop :=
  a.layerCount ≠ 0 ∧ a.layer + a.layerCount ≤ d.layers ∧ a.kvCount ≠ 0 ∧ a.kvFirst + a.kvCount ≤ d.kvHeads ∧
  a.keyed = false ∧ m.payload.length = 64 ∧ ∀ p ∈ a.named a.layerCount, (tdirOf u i (d.pair p.1 p.2)).claim = false

/-- APPEND_TOKENS, BULK_APPEND, SEAL_REQ and SEAL_DEADLINE: rows join a sequence and tails freeze. Rows that pass their
checks are stored: every named KV head then holds up to pos + tokens, the sequence's length is at least that, and an
APPEND is answered OK with the seals it caused, as is a BULK_APPEND that caused none; one that caused seals holds
the claims of its KV heads and waits for the seals. Rows that do not pass, or that all heads hold already, are
answered with their status, and where the words they look at need no correction they leave memory and sequences as
they were. A request whose handle, generation or version does not stand is answered before anything else, a reserved
form is VERSION, and another form in a BULK_APPEND is BOUNDS. A SEAL with rows in its named tails puts one page of
each in the seal queue and waits for them, one without is answered at once, and one of whose tails the header cannot
be read is UNCORRECTABLE. At its deadline a SEAL that waits is answered BUSY with the number it waits for, and its
pages keep their places in the queue. -/
def Obligations.RowsAreAppendedAndSealed : Prop :=
  (∀ (msg i n : Nat) (m : Msg) (a : App) (d : Desc) (s u v : State), startsWork s msg .append = some m →
    a = App.parse m.be m.payload → a.form = 0 → findActive s m a = (u, .ok (i, d)) →
    rowsRequest u msg m a i d false = (v, .ok n) → Completes (.appendTokens msg) s fun t =>
      t = appAnswer v msg m .ok n i (a.named 1) ∧ RowsHeld t i d a ∧ t.ledg = s.ledg ∧ t.merge = s.merge) ∧
  (∀ (msg i n : Nat) (m : Msg) (a : App) (d : Desc) (s u v : State), startsWork s msg .bulkAppend = some m →
    a = App.parse m.be m.payload → a.form = 0 → findActive s m a = (u, .ok (i, d)) →
    rowsRequest u msg m a i d true = (v, .ok n) → Completes (.bulkAppend msg) s fun t =>
      t.ledg = s.ledg ∧ t.merge = s.merge ∧
      (n = 0 → RowsHeld t i d a ∧ t = appAnswer v msg m .ok 0 i (a.named 1)) ∧
      (n ≠ 0 → (∀ p ∈ a.named 1, (tdirOf t i (d.pair p.1 p.2)).claim = true) ∧
        t = modMsg (setPhase v msg (.waitSeals n)) msg fun x => { x with heldPos := i, heldMap := a.pos + a.tokens })) ∧
  (∀ (msg i : Nat) (m : Msg) (a : App) (d : Desc) (st : Status) (s u v : State), a = App.parse m.be m.payload → a.form = 0 →
    findActive s m a = (u, .ok (i, d)) →
    (startsWork s msg .append = some m → rowsRequest u msg m a i d false = (v, .error st) → Completes (.appendTokens msg) s fun t =>
      t = appAnswer v msg m st 0 i (a.named 1) ∧ (LooksClean u i d a → t.mem = s.mem ∧ t.seqs = s.seqs)) ∧
    (startsWork s msg .bulkAppend = some m → rowsRequest u msg m a i d true = (v, .error st) → Completes (.bulkAppend msg) s fun t =>
      t = appAnswer v msg m st 0 i (a.named 1) ∧ (LooksClean u i d a → t.mem = s.mem ∧ t.seqs = s.seqs))) ∧
  (∀ (msg : Nat) (m : Msg) (a : App) (st : Status) (s u : State), a = App.parse m.be m.payload → a.form = 0 →
    findActive s m a = (u, .error st) →
    (startsWork s msg .append = some m → Completes (.appendTokens msg) s fun t => t = appRefuse u msg m st) ∧
    (startsWork s msg .bulkAppend = some m → Completes (.bulkAppend msg) s fun t => t = appRefuse u msg m st) ∧
    (startsWork s msg .seal = some m → Completes (.sealReq msg) s fun t => t = appRefuse u msg m st)) ∧
  (∀ (msg i : Nat) (m : Msg) (a : App) (d : Desc) (s u : State), startsWork s msg .bulkAppend = some m →
    a = App.parse m.be m.payload → 1 ≤ a.form → a.form ≤ 6 → findActive s m a = (u, .ok (i, d)) →
    Completes (.bulkAppend msg) s fun t => t = appAnswer u msg m .bounds 0 i (a.named 1) ∧ t.mem = s.mem ∧ t.seqs = s.seqs) ∧
  (∀ (msg : Nat) (m : Msg) (s : State), startsWork s msg .append = some m → 7 ≤ (App.parse m.be m.payload).form →
    Completes (.appendTokens msg) s fun t => t = appRefuse s msg m .version) ∧
  (∀ (msg i : Nat) (m : Msg) (a : App) (d : Desc) (s u v : State), startsWork s msg .seal = some m →
    a = App.parse m.be m.payload → a.form = 0 → findActive s m a = (u, .ok (i, d)) → SealFits v i d m a →
    lookTails (sealTails u i d a) u = (v, .ok) → fullTails v i d a = [] → slotsFit v v d.tenant = true →
    Completes (.sealReq msg) s fun t => t = appAnswer v msg m .ok 0 i (a.named a.layerCount) ∧ t.seqs = v.seqs) ∧
  (∀ (msg i : Nat) (m : Msg) (a : App) (d : Desc) (s u v : State), startsWork s msg .seal = some m →
    a = App.parse m.be m.payload → a.form = 0 → findActive s m a = (u, .ok (i, d)) → SealFits u i d m a →
    lookTails (sealTails u i d a) u = (v, .uncorrectable) → Completes (.sealReq msg) s fun t =>
      t = appAnswer v msg m .uncorrectable 0 i (a.named a.layerCount)) ∧
  (∀ (msg i : Nat) (m : Msg) (a : App) (d : Desc) (s u v w : State), startsWork s msg .seal = some m →
    a = App.parse m.be m.payload → a.form = 0 → findActive s m a = (u, .ok (i, d)) → SealFits v i d m a →
    lookTails (sealTails u i d a) u = (v, .ok) → fullTails v i d a ≠ [] →
    w = (fullTails v i d a).foldl (fun s p => freezeTail s d (openKey s i d p.1 p.2) none msg) v →
    slotsFit v w d.tenant = true → (∀ p ∈ fullTails v i d a, (tdirOf v i (d.pair p.1 p.2)).frozen < 2) →
    Completes (.sealReq msg) s fun t =>
      (msgOf t msg).map (·.phase) = some (.waitSeals (fullTails v i d a).length) ∧
      (∃ l, t.seqs.sealQ = v.seqs.sealQ ++ l ∧ l.length = (fullTails v i d a).length ∧
        ∀ it ∈ l, it.waiter = msg ∧ it.desc = i ∧ it.fromTail = true ∧ it.aside = false) ∧
      t.mem = v.mem ∧ t.ledg = s.ledg) ∧
  (∀ (msg n : Nat) (m : Msg) (s : State), msgOf s msg = some m → m.opcode = .seal → m.phase = .waitSeals n →
    Completes (.sealDeadline msg) s fun t =>
      msgOf t msg = none ∧ m.at_ + 10000000 ≤ now t m.hub ∧
      t.seqs.sealQ = s.seqs.sealQ.map (fun it => if it.waiter = msg then { it with waiter := 0 } else it) ∧
      t.mem = s.mem ∧ t.seqs = { s.seqs with sealQ := t.seqs.sealQ })

/-- A CREATE without a donor within the bounds of its fields. -/
def CreateFits (m : Msg) (a : App) : Prop :=
  a.ver = 1 ∧ a.donor = 0 ∧ formatsKnown a.kf a.vf = true ∧ handleOk m a = true ∧ tOf a.tCode ≠ 0 ∧ dOf a.dCode ≠ 0 ∧
  (⟨a.kf, a.vf, a.tCode, a.dCode⟩ : PGeom).ok = true ∧ 1 ≤ a.layers ∧ a.layers ≤ 1024 ∧ 1 ≤ a.kvHeads ∧ a.kvHeads ≤ 256 ∧
  a.layers * a.kvHeads ≤ 16384 ∧ a.bare m = true

/-- A BIND that reaches its stream. -/
def BindsStream (s u v w : State) (msg i : Nat) (m : Msg) (a : App) (d : Desc) (base : Nat × Desc) (b : List Byte) : Prop :=
  appStart s msg (fun a => decide (a.form = 6)) = some (m, a) ∧ a.ver = 1 ∧ findOther s m a.other a.otherGen = (u, .ok base) ∧
  findActive u m a = (v, .ok (i, d)) ∧ a.bare m = true ∧ readStream v m a = (w, .ok b)

/-- CREATE_SEQ, FORK_SEQ, FORK_COMMIT_TIMEOUT and BIND_DELTA: how a sequence comes to be. A CREATE of a handle without a
sequence, with formats, sizes and an index that R121 and R123 admit and room for its tables, leaves an ACTIVE
descriptor of length 0 with the request's parameters, unless the PAGE class body forbids the geometry, which answers
BOUNDS; of a handle with a sequence it changes nothing and answers OK for the same parameters and BOUNDS for others.
A fork whose parent is ACTIVE and has no page below the fork point in the seal queue leaves an ACTIVE child of that
length with the parent's geometry and stripe, is refused where a page it shares is gone or a page or tail it must
copy cannot be read, waits where a page does, and 10 ms after its handler began answers BUSY. A BIND whose stream
keeps R68 leaves its sequence with the stream's prefix length, the base's stripe and a binding; one whose stream is
damaged answers DAMAGED, one whose base has lost a page the status of that. No answer changes the ledger or a merge. -/
def Obligations.SequencesAreMadeForkedAndBound : Prop :=
  (∀ (msg i : Nat) (m : Msg) (a : App) (s v w : State), appStart s msg (fun a => decide (a.form = 1)) = some (m, a) →
    CreateFits m a → peekSeq s m.tenant a.handle = none → freeDescIndex s = some i → freshStripe s i ≠ [] →
    allocTables s i (newDesc s m a i (freshStripe s i)) = some v → enterDesc v i (newDesc s m a i (freshStripe s i)) = some w →
    Completes (.createSeq msg) s fun t =>
      if Config.pagePermits (body s clsPage) a.kf a.vf a.tCode a.dCode then
        t = appAnswer w msg m .ok 0 i [] ∧ t.ledg = s.ledg ∧ t.merge = s.merge ∧
        ∃ d, descOf t i = some d ∧ d.state = .active ∧ d.handle = a.handle ∧ d.tenant = m.tenant ∧ d.length = 0 ∧
          d.layers = a.layers ∧ d.kvHeads = a.kvHeads ∧ d.geom = ⟨a.kf, a.vf, a.tCode, a.dCode⟩ ∧ d.window = a.window ∧
          d.anchors = [] ∧ d.inflight = 0 ∧ d.gen = descGenOf s i ∧ d.binding = 0 ∧ d.stripe = freshStripe s i
      else t = appRefuse s msg m .bounds) ∧
  (∀ (msg i : Nat) (m : Msg) (a : App) (d : Desc) (s : State), appStart s msg (fun a => decide (a.form = 1)) = some (m, a) →
    CreateFits m a → peekSeq s m.tenant a.handle = some (i, d) → d.state ≠ .draining → d.state ≠ .dropping →
    Completes (.createSeq msg) s fun t =>
      t = appAnswer s msg m (if sameCreate d a none then .ok else .bounds) 0 i [] ∧ t.seqs = s.seqs ∧ t.mem = s.mem) ∧
  (∀ (msg i : Nat) (m : Msg) (a : App) (d : Desc) (s u : State), appStart s msg (fun a => decide (a.form = 2)) = some (m, a) →
    a.ver = 1 → findOther s m a.other a.otherGen = (u, .ok (i, d)) → peekSeq u m.tenant a.handle = none → d.state = .active →
    handleOk m a = true → a.bare m = true → a.pos ≤ d.length → d.deltaTokens ≤ a.pos →
    Completes (.forkSeq msg) s fun t =>
      (forkWaits u i a.pos = true →
        t = modMsg (setPhase u msg .waitFork) msg fun x => { x with at_ := now u m.hub }) ∧
      (∀ w v j, forkWaits u i a.pos = false → checkFork u i d a.pos = (w, .ok) → applyFork w a i d = (v, .ok j) →
        t = appAnswer v msg m .ok 0 j [] ∧ t.ledg = s.ledg ∧ t.merge = s.merge ∧
        ∃ c, descOf t j = some c ∧ c.state = .active ∧ c.handle = a.handle ∧ c.length = a.pos ∧ c.geom = d.geom ∧
          c.stripe = d.stripe ∧ c.layers = d.layers ∧ c.kvHeads = d.kvHeads ∧ c.anchors = d.anchors ∧ c.window = d.window ∧
          c.inflight = 0 ∧ c.gen = descGenOf w j) ∧
      (∀ w v st, forkWaits u i a.pos = false → checkFork u i d a.pos = (w, .ok) → applyFork w a i d = (v, .error st) →
        t = appRefuse v msg m st) ∧
      (∀ w st, forkWaits u i a.pos = false → checkFork u i d a.pos = (w, st) → st ≠ .ok → t = appRefuse w msg m st)) ∧
  (∀ (msg : Nat) (m : Msg) (s : State), msgOf s msg = some m → m.phase = .waitFork → Completes (.forkCommitTimeout msg) s fun t =>
      t = appRefuse (passTo s m.hub (m.at_ + 10000000)) msg m .busy ∧ t.seqs = s.seqs ∧ t.mem = s.mem ∧
      m.at_ + 10000000 ≤ now t m.hub) ∧
  (∀ (msg i : Nat) (m : Msg) (a : App) (d : Desc) (base : Nat × Desc) (b : List Byte) (s u v w : State),
    BindsStream s u v w msg i m a d base b → (Stream.parse b).ver = 1 → Completes (.bindDelta msg) s fun t =>
      (streamWhole (Stream.parse b) b = false → t = appAnswer w msg m .damaged 0 i []) ∧
      (streamWhole (Stream.parse b) b = true → streamFits w (Stream.parse b) d i base = false →
        t = appAnswer w msg m .bounds 0 i []) ∧
      (∀ y st, streamWhole (Stream.parse b) b = true → streamFits w (Stream.parse b) d i base = true → st ≠ .ok →
        checkShares d ((streamBlocks w (Stream.parse b) b d base).map (·.base)) w = (y, st) → t = appAnswer y msg m st 0 i []) ∧
      (∀ x y, streamWhole (Stream.parse b) b = true → streamFits w (Stream.parse b) d i base = true →
        checkShares d ((streamBlocks w (Stream.parse b) b d base).map (·.base)) w = (y, .ok) →
        applyBind y i d base (Stream.parse b) b = .ok x → descOf y i = some d →
        t = appAnswer x msg m .ok 0 i [] ∧ t.ledg = w.ledg ∧ t.merge = w.merge ∧
        ∃ c, descOf t i = some c ∧ c.length = (Stream.parse b).prefixTokens ∧ c.deltaTokens = (Stream.parse b).prefixTokens ∧
          c.stripe = base.2.stripe ∧ c.baseHandle = base.2.handle ∧ (aget t.seqs.bindings c.binding).isSome = true))

/-- A form of APPEND finds its sequence. -/
def FormFinds (s u : State) (msg f i : Nat) (m : Msg) (a : App) (d : Desc) : Prop :=
  appStart s msg (fun a => decide (a.form = f)) = some (m, a) ∧ findActive s m a = (u, .ok (i, d)) ∧ descOf u i = some d

/-- The sequence waits in DRAINING with a change noted for a message, and nothing else has changed. -/
def Waits (u t : State) (i : Nat) (d : Desc) (op : DrainOp) (msg : Nat) : Prop :=
  descOf t i = some { d with state := .draining, drain := some (op, msg) } ∧
  (msgOf t msg).map (·.phase) = some (.waitDrain i) ∧ (∀ j, j ≠ i → descOf t j = descOf u j) ∧
  t = { u with seqs := { u.seqs with descs := t.seqs.descs }, msgs := t.msgs }

/-- The sequence in DRAINING with a change noted for a message that waits: what an idle sequence's drain applies to. -/
def drained (u : State) (i : Nat) (op : DrainOp) (msg : Nat) : State :=
  setPhase (modDesc u i fun x => { x with state := .draining, drain := some (op, msg) }) msg (.waitDrain i)

/-- Requests that wait for seals of a sequence are appends and seals of that sequence. -/
def WaitersOf (u : State) (i : Nat) : Prop := ∀ w ∈ sealWaiters u i, ∀ x, msgOf u w = some x → x.heldPos = i

/-- No fork waits. -/
def NoForkWaits (u : State) : Prop := ∀ p ∈ u.msgs, p.2.phase ≠ .waitFork

/-- TRUNCATE_SEQ, SET_PATTERN, DROP_SEQ and SEQUENCE_DRAIN_COMPLETE. A truncation, a pattern or a drop that passes its
checks puts its sequence in DRAINING. With requests in flight it waits there, the change noted, and nothing else
changes; when none is in flight and no region concerns it, it is applied at once and answered OK: a truncation whose
pages can be read and rewritten leaves that length and one whose cannot leaves the sequence as it was, a pattern its
window and anchors, a drop no descriptor at all, and the sequence is ACTIVE again. What waited is applied when the
drain completes, and a drain that is not complete changes nothing but what the ledger then has due. A truncation
past the length or inside the delta prefix, a pattern with a list that breaks R54 and a drop with a payload are
answered BOUNDS and change nothing. -/
def Obligations.SequencesDrainBeforeTheyChange : Prop :=
  (∀ (msg i : Nat) (m : Msg) (a : App) (d : Desc) (s u : State), FormFinds s u msg 3 i m a d → a.bare m = true →
    a.pos ≤ d.length → d.deltaTokens ≤ a.pos → regionsFrom u i d a.pos = [] →
    Completes (.truncateSeq msg) s fun t =>
      (d.inflight ≠ 0 → Waits u t i d (.truncate a.pos) msg) ∧
      (∀ v e, d.inflight = 0 → NoForkWaits u → e = { d with state := .draining, drain := some (.truncate a.pos, msg) } →
        checkCut (drained u i (.truncate a.pos) msg) i e a.pos = (v, .ok) → (cutPages v i e a.pos).2 = .ok →
        descOf t i = some { d with length := a.pos, state := .active, drain := none } ∧ msgOf t msg = none ∧
        (∀ it ∈ t.seqs.sealQ, it.desc = i → it.firstPos < a.pos) ∧
        (∀ pair, pair < d.pairs → (tdirOf t i pair).heldEnd ≤ a.pos)) ∧
      (∀ v e st, d.inflight = 0 → NoForkWaits u → e = { d with state := .draining, drain := some (.truncate a.pos, msg) } →
        checkCut (drained u i (.truncate a.pos) msg) i e a.pos = (v, st) → st ≠ .ok →
        t = appAnswer (modDesc v i fun x => { x with state := .active, drain := none }) msg m st 0 i [])) ∧
  (∀ (msg i : Nat) (m : Msg) (a : App) (d : Desc) (s u : State), FormFinds s u msg 4 i m a d → a.anchors ≤ 64 →
    a.keyed = false → a.layerCount = 0 → m.payload.length = 64 + 4 * a.anchors → anchorsOk (a.anchorList m.be m.payload) = true →
    regionsFrom u i d (2 ^ 32) = [] → Completes (.setPattern msg) s fun t =>
      (d.inflight ≠ 0 → Waits u t i d (.pattern a.patWindow (a.anchorList m.be m.payload)) msg) ∧
      (d.inflight = 0 →
        descOf t i = some { d with window := a.patWindow, anchors := a.anchorList m.be m.payload, state := .active, drain := none } ∧
        msgOf t msg = none ∧ (∀ j, j ≠ i → descOf t j = descOf u j) ∧ t.mem = s.mem)) ∧
  (∀ (msg i : Nat) (m : Msg) (a : App) (d : Desc) (s u : State), FormFinds s u msg 5 i m a d → a.bare m = true →
    regionsFrom u i d 0 = [] → Completes (.dropSeq msg) s fun t =>
      (d.inflight ≠ 0 → Waits u t i d .drop msg) ∧
      (d.inflight = 0 → NoForkWaits u → WaitersOf u i → descOf t i = none ∧ msgOf t msg = none ∧ descGenOf t i = nextGen d.gen ∧
        (∀ it ∈ t.seqs.sealQ, it.desc ≠ i) ∧ (∀ j, j ≠ i → descOf t j = descOf u j))) ∧
  (∀ (i msg : Nat) (d : Desc) (w : Nat) (an : List Anchor) (s : State), descOf s i = some d → d.state = .draining →
    d.drain = some (.pattern w an, msg) → d.inflight = 0 → regionsFrom s i d (2 ^ 32) = [] →
    Completes (.sequenceDrainComplete i) s fun t => ∃ u, t = flush u ∧
      descOf u i = some { d with window := w, anchors := an, state := .active, drain := none } ∧ msgOf u msg = none ∧
      u.mem = s.mem ∧ u.ledg = s.ledg) ∧
  (∀ (i : Nat) (d : Desc) (s : State), descOf s i = some d → (d.inflight ≠ 0 ∨ d.drain = none ∨ d.state ≠ .draining) →
    Completes (.sequenceDrainComplete i) s fun t => t = flush s) ∧
  (∀ (msg i : Nat) (m : Msg) (a : App) (d : Desc) (s u : State),
    (FormFinds s u msg 3 i m a d → (d.length < a.pos ∨ a.pos < d.deltaTokens) → Completes (.truncateSeq msg) s fun t =>
      t = appAnswer u msg m .bounds 0 i [] ∧ t.seqs = s.seqs) ∧
    (FormFinds s u msg 4 i m a d → anchorsOk (a.anchorList m.be m.payload) = false → Completes (.setPattern msg) s fun t =>
      t = appAnswer u msg m .bounds 0 i [] ∧ t.seqs = s.seqs) ∧
    (FormFinds s u msg 5 i m a d → m.payload.length ≠ 64 → Completes (.dropSeq msg) s fun t =>
      t = appAnswer u msg m .bounds 0 i [] ∧ t.seqs = s.seqs))

/-- No word of memory deviates from its check bits and no snapshot is fenced. -/
def Quiet (s : State) : Prop := s.mem.chk = [] ∧ s.dill.snaps = []

/-- What a seal unit's turn on a page does. -/
def SealTurn (s t : State) (it : SealItem) : Prop :=
  ∃ v st, sealItem s it = (v, st) ∧
    (st = .ok → t = afterSeal v it ∧ v.seqs.sealQ = s.seqs.sealQ.erase it) ∧
    (st = .busy → t.seqs.sealQ = s.seqs.sealQ.map (fun x => if x = it then it.setAside v else x) ∧
      rget t .tier_SEAL_WAITS 0 0 = min (rget v .tier_SEAL_WAITS 0 0 + 1) (2 ^ Reg.tier_SEAL_WAITS.width - 1) ∧
      t = { v with seqs := { v.seqs with sealQ := t.seqs.sealQ }, regs := t.regs }) ∧
    (st ≠ .ok → st ≠ .busy → st = .uncorrectable ∧ t = retryForks (failSeals (putAside v it) it.waiter) it.desc)

/-- What a change of a count does to a page whose live header is h. -/
def RefTurn (s t : State) (c : RefChange) (h : Hdr) : Prop :=
  t.seqs = { s.seqs with refQ := s.seqs.refQ.erase c } ∧
  ((h.kf = fmtNone ∨ h.vf = fmtNone ∨ h.gen ≠ c.gen) → t.mem.cells = s.mem.cells ∧ t.mem.slots = s.mem.slots) ∧
  (h.kf ≠ fmtNone → h.vf ≠ fmtNone → h.gen = c.gen →
    (c.inc = true → h.refs < 0xFFFFFFFF → peek t (liveAddr s c.lpn + 36) 4 = leBytes 4 (h.refs + 1)) ∧
    (c.inc = false → 1 < h.refs → peek t (liveAddr s c.lpn + 36) 4 = leBytes 4 (h.refs - 1)) ∧
    (c.inc = false → h.refs ≤ 1 → aget t.mem.slots c.lpn = none))

/-- Opens of a page within the last millisecond. -/
def recentOpens (s : State) (lpn : Nat) : Nat :=
  ((agetD s.mem.opens lpn []).filter fun t => decide (now s (homeHub s (lpnSlice lpn)) < t + 1000000)).length

/-- A page that its opens make due for promotion. -/
def PromotionDue (s : State) (lpn : Nat) (u : SlotUse) : Prop :=
  aget s.mem.slots lpn = some u ∧ rg s .tier_promote_en = 1 ∧ u.kind = .page ∧ 0 < recentOpens s lpn ∧
  rg s .tier_promote_threshold ≤ recentOpens s lpn ∧ (hdrAt s (homeAddr s lpn)).sealed = true ∧
  (hdrAt s (homeAddr s lpn)).kf ≠ fmtNone ∧ aget s.mem.promo lpn = none ∧ extentClosing s lpn = false ∧
  (sliceSt s (lpnSlice lpn)).st ≠ 1

/-- TAIL_SEAL, SEAL_RETRY, REF_COUNT_CHANGE, TAIL_WRITE_BACK, TAIL_EVICT, PAGE_PROMOTE and PAGE_DEMOTE. The seal unit of
a slice takes the oldest page it may take: one that finds its places leaves the queue and what follows a seal
follows; one that does not is set aside, keeps its place in the queue and is counted, and a retry, at once when a
slot of its tenant was freed and else 100 µs after the latest try, takes it again; one whose tail cannot be read is
set aside and its request fails. A page that needs a command slot where none is FREE stays as it is, and so does all
that needs a stack which is being retrained. The reference unit applies its oldest change: a page of the reference's
generation gains or loses one count and is freed with its last, and another generation changes nothing. A tail idle
for wb_idle is written back when a row of it is dirty; one idle for evict_idle that is not frozen releases its SRAM,
is gone from the tails, and TAIL_EVICTIONS counts it. A page due for promotion takes a place in SRAM when it can,
and one whose checksum fails is marked damaged; a demoted page has no place in SRAM any more, and a live copy that
changed is home. What is said of memory bytes is said where no word deviates from its check bits and no snapshot is
fenced. -/
def Obligations.SlicesSealEvictAndPromote : Prop :=
  (∀ (k : Slice) (it : SealItem) (s : State), nextSeal s k.val false = some it →
    Completes (.tailSeal k) s fun t => it.slice = k.val ∧ it.aside = false ∧ (sealHeld s it = true → t = s) ∧
      (sealHeld s it = false → SealTurn s t it)) ∧
  (∀ (k : Slice) (it : SealItem) (s : State), nextSeal s k.val true = some it →
    Completes (.sealRetry k) s fun t => it.slice = k.val ∧ it.aside = true ∧ (sealHeld s it = true → t = s) ∧
      (sealHeld s it = false → SealTurn (retryAt s it) t it) ∧
      (freesOf s it.slice (((descOf s it.desc).map (·.tenant)).getD 0) = it.frees →
        it.tried + 100000 ≤ now (retryAt s it) (homeHub s it.slice))) ∧
  (∀ (k : Slice) (c : RefChange) (s : State),
    (s.seqs.refQ.find? fun c => decide (lpnSlice c.lpn = k.val)) = some c → Completes (.refCountChange k) s fun t =>
      (scrubHeld s c = true → t = s) ∧
      (scrubHeld s c = false → t.seqs.refQ = s.seqs.refQ.erase c ∧
        (Quiet s → RefTurn s t c (Hdr.parse (peek s (liveAddr s c.lpn) 64))))) ∧
  (∀ (q : TailKey) (x : Tail) (d : Desc) (s u : State), aget s.seqs.tails q = some x → descOf s q.desc = some d →
    u = passTo s (homeHub s x.slice) (x.lastRow + rg s .tier_wb_idle) → Completes (.tailWriteBack q) s fun t =>
      ((x.dirty.any id = false ∨ (sliceSt u x.slice).st = 1) → t = u) ∧
      (∀ v, x.dirty.any id = true → (sliceSt u x.slice).st ≠ 1 → writeBack u d q = (v, true) → t = v ∧ (aget t.seqs.images q).isSome = true ∧
        ∃ y, aget t.seqs.tails q = some y ∧ y.dirty.any id = false ∧ (s.mem.chk = [] → y.base = x.base)) ∧
      (∀ v, x.dirty.any id = true → (sliceSt u x.slice).st ≠ 1 → writeBack u d q = (v, false) → t = v)) ∧
  (∀ (q : TailKey) (x : Tail) (d : Desc) (s u : State), aget s.seqs.tails q = some x → descOf s q.desc = some d →
    x.frozen = false → u = passTo s (homeHub s x.slice) (x.lastRow + rg s .tier_evict_idle) →
    Completes (.tailEvict q) s fun t =>
      ((sliceSt s x.slice).st = 1 → t = s) ∧
      (∀ v, (sliceSt s x.slice).st ≠ 1 → evictTail u d q = (v, true) → t = v ∧ aget t.seqs.tails q = none ∧ (aget t.seqs.images q).isSome = true ∧
        rget t .tier_TAIL_EVICTIONS 0 0 = min (rget s .tier_TAIL_EVICTIONS 0 0 + 1) (2 ^ Reg.tier_TAIL_EVICTIONS.width - 1)) ∧
      (∀ v, (sliceSt s x.slice).st ≠ 1 → evictTail u d q = (v, false) → t = v)) ∧
  (∀ (lpn : Nat) (u : SlotUse) (s v w : State) (p : List Byte), PromotionDue s lpn u →
    v = drainRefs s (lpnSlice lpn) → u.units ≤ 256 * min 48 (rg v .tier_promote_pool_mib) →
    load v (homeAddr v lpn) (hdrAt v (homeAddr v lpn)).geom.size readPool = (w, some p) →
    promoUsed w (lpnSlice lpn) + u.units ≤ 256 * min 48 (rg v .tier_promote_pool_mib) →
    promotedOf w (lpnSlice lpn) = [] → Completes (.pagePromote lpn) s fun t =>
      (sealCrc p ≠ (Hdr.parse p).crc → t = markDamaged w lpn) ∧
      (∀ z a, sealCrc p = (Hdr.parse p).crc → allocSram w (lpnSlice lpn) 0 u.units .promotion = some (z, a) →
        aget t.mem.promo lpn = some ⟨a, false, now z (homeHub z (lpnSlice lpn))⟩ ∧ t.seqs = z.seqs ∧ t.ledg = s.ledg)) ∧
  (∀ (lpn : Nat) (p : Promo) (s : State), aget s.mem.promo lpn = some p → Completes (.pageDemote lpn) s fun t =>
      ((extentClosing s lpn = true ∨ (sliceSt s (lpnSlice lpn)).st = 1) → t = s) ∧
      (∀ w, (sliceSt s (lpnSlice lpn)).st ≠ 1 → extentClosing s lpn = false → load s p.base (liveHdr s lpn).geom.size readPool = (w, none) → t = w) ∧
      (∀ w page, (sliceSt s (lpnSlice lpn)).st ≠ 1 → extentClosing s lpn = false → load s p.base (liveHdr s lpn).geom.size readPool = (w, some page) →
        aget t.mem.promo lpn = none ∧
        (Quiet s → ((Hdr.parse page).damaged = true ∨ sealCrc page = (Hdr.parse page).crc) → t = { s with mem := t.mem } ∧
          (∀ l, l ≠ lpn → aget t.mem.promo l = aget s.mem.promo l) ∧
          ∃ v, t = freeSram v p.base ∧ (p.changed = true → peek v (homeAddr s lpn) page.length = page) ∧
            (p.changed = false → v.mem.cells = s.mem.cells))))

/-- No sub-port but one has changed. -/
def OtherSubs (s t : State) (h u : Nat) : Prop := ∀ x, x ≠ (h, u) → aget t.fab.subs x = aget s.fab.subs x

/-- KX1, KX2 and KX3: the link key exchange of a sub-port. On a link with no exchange running, a KX1 with an exchange
number not above the installed one makes the node start its own next exchange; one with a higher number makes it
join that exchange: its own KX1 of that number goes out first, and then, when the peer's certificate chain and the
peer list admit it, its KX2, and otherwise the exchange fails and KX_FAILURES counts it. The KX2 of the running
exchange installs the receive association under the number the frame names, and the KX3 goes out, when its signature
verifies over the transcript, and fails the exchange otherwise. The KX3 of the running exchange puts the send
association in force with packet number 1, brings the sub-port up, erases the private key and counts in KX_DONE,
with every other register unchanged. No other sub-port changes. -/
def Obligations.LinkKeyExchange : Prop :=
  (∀ (h : Hub) (u : Sub) (b : List Byte) (s : State), hubAlive s h.val = true → (subOf s h.val u.val).link = true →
    (KxFrame.parse b).ver = 1 → (KxFrame.parse b).msg = 1 → (subOf s h.val u.val).kx.running = false →
    (KxFrame.parse b).xid ≤ (subOf s h.val u.val).kx.installed → Completes (.kx1 h u b) s fun t =>
      (subOf t h.val u.val).kx.running = true ∧
      (subOf t h.val u.val).kx.xid = ((subOf s h.val u.val).kx.installed + 1) % 2 ^ 32 ∧
      t.out = s.out ++ [.kx h.val u.val (subOf t h.val u.val).kx.sent] ∧ OtherSubs s t h.val u.val ∧ t.mem = s.mem) ∧
  (∀ (h : Hub) (u : Sub) (b : List Byte) (s : State), hubAlive s h.val = true → (subOf s h.val u.val).link = true →
    (KxFrame.parse b).ver = 1 → (KxFrame.parse b).msg = 1 → (subOf s h.val u.val).kx.running = false →
    (subOf s h.val u.val).kx.installed < (KxFrame.parse b).xid → Completes (.kx1 h u b) s fun t =>
      (subOf t h.val u.val).kx.xid = (KxFrame.parse b).xid % 2 ^ 32 ∧ (subOf t h.val u.val).kx.peer = b ∧
      OtherSubs s t h.val u.val ∧ t.mem = s.mem ∧
      (if peerChecked t h.val u.val (KxFrame.parse b) then
        (subOf t h.val u.val).kx.kx2Sent = true ∧ (subOf t h.val u.val).kx.running = true ∧
        ∃ x, t.out = s.out ++ [.kx h.val u.val (subOf t h.val u.val).kx.sent, .kx h.val u.val x] ∧ (KxFrame.parse x).msg = 2
      else
        (subOf t h.val u.val).kx.failed = true ∧ (subOf t h.val u.val).kx.running = false ∧
        (subOf t h.val u.val).kx.priv = [] ∧
        rget t .lov_KX_FAILURES h.val 0 = min (rget s .lov_KX_FAILURES h.val 0 + 1) 0xFFFFFFFF)) ∧
  (∀ (h : Hub) (u : Sub) (b : List Byte) (s : State), hubAlive s h.val = true → (subOf s h.val u.val).link = true →
    (KxFrame.parse b).ver = 1 → (KxFrame.parse b).msg = 2 → (subOf s h.val u.val).kx.running = true →
    (subOf s h.val u.val).kx.kx2Sent = true → (subOf s h.val u.val).kx.kx2Valid = false →
    (KxFrame.parse b).xid = (subOf s h.val u.val).kx.xid → Completes (.kx2 h u b) s fun t =>
      OtherSubs s t h.val u.val ∧ t.mem = s.mem ∧
      (if Config.ed448Verify
          (Config.chainCheck (trustCfg s).anchors (KxFrame.parse (subOf s h.val u.val).kx.peer).tail).2.2
          ctxKx (transcriptKx (subOf s h.val u.val)) (KxFrame.parse b).tail then
        (subOf t h.val u.val).rx = some ⟨(KxFrame.parse b).an, if lowerMac (subOf s h.val u.val) then 2 else 1,
          (kxKeys (subOf s h.val u.val)).2, 1⟩ ∧
        (subOf t h.val u.val).rxOld = (subOf s h.val u.val).rx ∧ (subOf t h.val u.val).kx.kx2Valid = true ∧
        t.out.length = s.out.length + 1
      else
        (subOf t h.val u.val).kx.failed = true ∧ (subOf t h.val u.val).kx.running = false ∧ t.out = s.out ∧
        (subOf t h.val u.val).rx = (subOf s h.val u.val).rx)) ∧
  (∀ (h : Hub) (u : Sub) (b : List Byte) (s : State), hubAlive s h.val = true → (subOf s h.val u.val).link = true →
    (KxFrame.parse b).ver = 1 → (KxFrame.parse b).msg = 3 → (subOf s h.val u.val).kx.running = true →
    (subOf s h.val u.val).kx.kx2Valid = true → (KxFrame.parse b).xid = (subOf s h.val u.val).kx.xid →
    Completes (.kx3 h u b) s fun t =>
      (subOf t h.val u.val).tx = some ⟨(KxFrame.parse (subOf s h.val u.val).kx.sent).an,
        if lowerMac (subOf s h.val u.val) then 1 else 2, (kxKeys (subOf s h.val u.val)).1, 1⟩ ∧
      (subOf t h.val u.val).up = true ∧ (subOf t h.val u.val).kx.installed = (subOf s h.val u.val).kx.xid ∧
      (subOf t h.val u.val).kx.running = false ∧ (subOf t h.val u.val).kx.priv = [] ∧
      (subOf t h.val u.val).keyAt = now s h.val ∧ (subOf t h.val u.val).rx = (subOf s h.val u.val).rx ∧
      rget t .lov_KX_DONE h.val 0 = min (rget s .lov_KX_DONE h.val 0 + 1) 0xFFFFFFFF ∧
      (∀ r i e, r ≠ .lov_KX_DONE → rget t r i e = rget s r i e) ∧
      OtherSubs s t h.val u.val ∧ t = { s with regs := t.regs, fab := { s.fab with subs := t.fab.subs } })

/-- SUBPORT_LINK_UP, SUBPORT_LINK_DOWN, KX1_RETRY, KX_RESTART, REKEY_INTERVAL_EXPIRY and OLD_KEY_EXPIRY. A link that
comes up on a sub-port of the port's mode starts a key exchange with the number after the installed one, and its KX1
goes out; a link that drops takes the sub-port's keys and its exchange with it. 10 ms without the peer's KX2 repeats
the KX1, and at the twentieth such end, 200 ms after the first, the exchange fails (that the bound counts so is
DEDUCED, assumption 185). A failed exchange starts again 1 s later, and a rekey starts when the interval since the
last install has passed. 10 ms after a rekey the previous key no longer receives. Each moves the hub's local time to
its deadline at least, and no other sub-port changes. -/
def Obligations.LinkTimersAndLinks : Prop :=
  (∀ (h : Hub) (u : Sub) (mac : Nat) (s : State), hubAlive s h.val = true → s.life.node ≠ 1 → u.val < subCount s h.val →
    (subOf s h.val u.val).link = false → Completes (.subportLinkUp h u mac) s fun t =>
      (subOf t h.val u.val).link = true ∧ (subOf t h.val u.val).peerMac = mac ∧ (subOf t h.val u.val).kx.running = true ∧
      (subOf t h.val u.val).kx.xid = ((subOf s h.val u.val).kx.installed + 1) % 2 ^ 32 ∧
      t.out = s.out ++ [.kx h.val u.val (subOf t h.val u.val).kx.sent] ∧ OtherSubs s t h.val u.val) ∧
  (∀ (h : Hub) (u : Sub) (s : State), (subOf s h.val u.val).link = true → Completes (.subportLinkDown h u) s fun t =>
      (subOf t h.val u.val).link = false ∧ (subOf t h.val u.val).up = false ∧ (subOf t h.val u.val).tx = none ∧
      (subOf t h.val u.val).rx = none ∧ (subOf t h.val u.val).rxOld = none ∧ (subOf t h.val u.val).kx.running = false ∧
      (subOf t h.val u.val).kx.priv = [] ∧ OtherSubs s t h.val u.val ∧
      t = { s with fab := { s.fab with subs := t.fab.subs } }) ∧
  (∀ (h : Hub) (u : Sub) (s : State), (subOf s h.val u.val).kx.running = true → (subOf s h.val u.val).kx.kx2Valid = false →
    (subOf s h.val u.val).kx.tries < 19 → Completes (.kx1Retry h u) s fun t =>
      (subOf t h.val u.val).kx.tries = (subOf s h.val u.val).kx.tries + 1 ∧
      t.out = s.out ++ [.kx h.val u.val (subOf s h.val u.val).kx.sent] ∧
      now t h.val = max (now s h.val) ((subOf s h.val u.val).kx.at_ + 10000000) ∧ OtherSubs s t h.val u.val) ∧
  (∀ (h : Hub) (u : Sub) (s : State), (subOf s h.val u.val).kx.running = true → (subOf s h.val u.val).kx.kx2Valid = false →
    19 ≤ (subOf s h.val u.val).kx.tries → Completes (.kx1Retry h u) s fun t =>
      (subOf t h.val u.val).kx.failed = true ∧ (subOf t h.val u.val).kx.running = false ∧ (subOf t h.val u.val).kx.priv = [] ∧
      rget t .lov_KX_FAILURES h.val 0 = min (rget s .lov_KX_FAILURES h.val 0 + 1) 0xFFFFFFFF ∧ t.out = s.out ∧
      now t h.val = max (now s h.val) ((subOf s h.val u.val).kx.at_ + 10000000) ∧ OtherSubs s t h.val u.val) ∧
  (∀ (h : Hub) (u : Sub) (s : State), (subOf s h.val u.val).link = true → (subOf s h.val u.val).kx.running = false →
    (subOf s h.val u.val).kx.failed = true → Completes (.kxRestart h u) s fun t =>
      (subOf t h.val u.val).kx.running = true ∧ (subOf t h.val u.val).kx.failed = false ∧
      now t h.val = max (now s h.val) ((subOf s h.val u.val).kx.at_ + 1000000000) ∧
      t.out = s.out ++ [.kx h.val u.val (subOf t h.val u.val).kx.sent] ∧ OtherSubs s t h.val u.val) ∧
  (∀ (h : Hub) (u : Sub) (a : SecAssoc) (s : State), (subOf s h.val u.val).tx = some a → a.pn < 2 ^ 48 →
    (subOf s h.val u.val).link = true → (subOf s h.val u.val).kx.running = false →
    Completes (.rekeyIntervalExpiry h u) s fun t =>
      (subOf t h.val u.val).kx.running = true ∧ (subOf t h.val u.val).tx = some a ∧
      (subOf t h.val u.val).kx.xid = ((subOf s h.val u.val).kx.installed + 1) % 2 ^ 32 ∧
      now t h.val = max (now s h.val) ((subOf s h.val u.val).keyAt + 1000000000 * rget s .lov_rekey_interval_s h.val 0) ∧
      t.out = s.out ++ [.kx h.val u.val (subOf t h.val u.val).kx.sent] ∧ OtherSubs s t h.val u.val) ∧
  (∀ (h : Hub) (u : Sub) (a : SecAssoc) (s : State), (subOf s h.val u.val).rxOld = some a →
    Completes (.oldKeyExpiry h u) s fun t =>
      (subOf t h.val u.val).rxOld = none ∧ (subOf t h.val u.val).rx = (subOf s h.val u.val).rx ∧
      (subOf t h.val u.val).tx = (subOf s h.val u.val).tx ∧
      now t h.val = max (now s h.val) ((subOf s h.val u.val).rxAt + 10000000) ∧ OtherSubs s t h.val u.val ∧ t.out = s.out)

/-- No connection but one has changed. -/
def OtherConns (s t : State) (id : Nat) : Prop := ∀ j, j ≠ id → connOf t j = connOf s j

/-- What a connection has received and what it has to send. -/
def flow (c : Conn) : ConnState × Nat × Nat × List Nat := (c.state, c.rcvNext, c.sndNext, c.ring.map (·.seq))

/-- No connection but one has received, or has more or less to send; more of what waits may be at the egress scheduler. -/
def OthersFlow (s t : State) (id : Nat) : Prop := ∀ j, j ≠ id → (connOf t j).map flow = (connOf s j).map flow

/-- Exactly one more frame of a connection waits at the egress scheduler: one of an opcode, in class 0. -/
def OneFrame (s t : State) (id : Nat) (c : Conn) (op : Opcode) : Prop :=
  ∃ f, t.traf.egress = s.traf.egress ++ [⟨c.hub, 0, id, c.peerAddr, f⟩] ∧ f.opcode = op.code ∧ f.connId = c.id ∧ f.dst = c.peer

/-- RTO_EXPIRY, HELLO_TIMEOUT, CREDIT_STALL_HEARTBEAT, ACK_DELAY_EXPIRY, KEEPALIVE_EXPIRY, DEAD_TIME_EXPIRY,
QUIET_TIME_EXPIRY. Each timer moves the local time of the connection's hub to its deadline at least (assumption 3).
The retransmission timer of a live connection doubles its rto up to rto_max, counts a timeout and hands the egress
scheduler every awaited segment whose rto has passed and which the peer's credit covers, marked as retransmitted. A
HELLO timeout repeats the HELLO under the same doubling. A sender stopped by credit, and a connection that has heard
nothing for keepalive, send a HEARTBEAT; ack_delay sends the ACK that is due. dead_time makes a live connection
FAILED: its segments and its queued frames go, its operator session ends and CONN_FAILED counts it; a CLOSING
connection with nothing outstanding is freed instead, and its sessions end too. quiet_time frees a FAILED record.
Memory stands, and what every other connection has received and has to send, before the ledger sends what it has
due; room that a failed connection leaves may let more of it go to the egress scheduler. -/
def Obligations.ConnectionTimers : Prop :=
  (∀ (id : Nat) (c : Conn) (g : SentSeg) (s : State), connOf s id = some c → c.live = true →
    (sortBy (fun g => g.sentAt) (awaited c)).head? = some g → c.timeouts + 1 < rget s .fab_retx_limit c.hub 0 →
    Completes (.rtoExpiry id) s fun t =>
      now t c.hub = max (now s c.hub) (g.sentAt + c.rto) ∧
      (∃ d, connOf t id = some d ∧ d.timeouts = c.timeouts + 1 ∧ d.rto = min (2 * c.rto) (rget s .fab_rto_max c.hub 0) ∧
        d.state = c.state ∧ d.ring.map (·.seq) = c.ring.map (·.seq)) ∧
      t.traf.egress = s.traf.egress ++
        ((awaited c).filter fun g => decide (g.sentAt + c.rto ≤ now t c.hub) && inCredit c g.seq).map
        (fun g => ⟨c.hub, g.frame.cls, id, c.peerAddr, { g.frame with flags := g.frame.flags ||| 4 }⟩) ∧
      OtherConns s t id ∧ t = { s with fab := t.fab, traf := t.traf, life := t.life, regs := t.regs }) ∧
  (∀ (id : Nat) (c : Conn) (s : State), connOf s id = some c → c.state = .opening →
    c.timeouts + 1 < rget s .fab_retx_limit c.hub 0 → Completes (.helloTimeout id) s fun t =>
      now t c.hub = max (now s c.hub) (c.lastRx + c.rto) ∧
      connOf t id = some { c with timeouts := c.timeouts + 1, lastRx := now t c.hub,
                                  rto := min (2 * c.rto) (rget s .fab_rto_max c.hub 0) } ∧
      OneFrame s t id c .hello ∧ OtherConns s t id ∧ t = { s with fab := t.fab, traf := t.traf, life := t.life }) ∧
  (∀ (id : Nat) (c : Conn) (s : State), connOf s id = some c → stalled c = true →
    Completes (.creditStallHeartbeat id) s fun t =>
      connOf t id = some { c with hbAt := now t c.hub } ∧ now t c.hub = max (now s c.hub) (c.hbAt + c.rto) ∧
      OneFrame s t id c .heartbeat ∧ OtherConns s t id ∧ t = { s with fab := t.fab, traf := t.traf, life := t.life }) ∧
  (∀ (id d : Nat) (c : Conn) (s : State), connOf s id = some c → c.ackDue = some d →
    Completes (.ackDelayExpiry id) s fun t =>
      connOf t id = some { c with unacked := 0, ackDue := none } ∧
      now t c.hub = max (now s c.hub) (d + rget s .fab_ack_delay c.hub 0) ∧
      OneFrame s t id c .ack ∧ OtherConns s t id ∧ t = { s with fab := t.fab, traf := t.traf, life := t.life }) ∧
  (∀ (id : Nat) (c : Conn) (s : State), connOf s id = some c → c.live = true →
    Completes (.keepaliveExpiry id) s fun t =>
      now t c.hub = max (now s c.hub) (c.lastRx + 1000000 * rget s .fab_keepalive_ms c.hub 0) ∧
      OneFrame s t id c .heartbeat ∧ t = { s with traf := t.traf, life := t.life }) ∧
  (∀ (id : Nat) (c : Conn) (s : State), connOf s id = some c → c.live = true → c.asked = [] →
    ¬ (c.state = .closing ∧ outstanding s id c = false) → Completes (.deadTimeExpiry id) s fun t => ∃ u, t = flush u ∧
      (∃ d, connOf u id = some d ∧ d.state = .failed ∧ d.ring = [] ∧ d.reasm = [] ∧ d.ackDue = none) ∧
      (∃ l, u.traf.egress = s.traf.egress.filter (fun e => decide (e.conn ≠ id)) ++ l ∧ ∀ e ∈ l, e.conn ≠ id) ∧
      u.trust.sessions = s.trust.sessions.filter (fun y => decide (y.chan ≠ .conn c.hub id)) ∧
      rget u .fab_CONN_FAILED c.hub 0 = min (rget s .fab_CONN_FAILED c.hub 0 + 1) (2 ^ Reg.fab_CONN_FAILED.width - 1) ∧
      OthersFlow s u id ∧ u.mem = s.mem ∧ u.seqs = s.seqs ∧ u.ledg = s.ledg) ∧
  (∀ (id : Nat) (c : Conn) (s : State), connOf s id = some c → c.state = .closing → outstanding s id c = false →
    Completes (.deadTimeExpiry id) s fun t => connOf t id = none ∧ OthersFlow s t id ∧ t.mem = s.mem ∧
      (c.reasm = [] → OtherConns s t id ∧ t.traf = s.traf) ∧
      t.trust.sessions = s.trust.sessions.filter (fun y => decide (y.chan ≠ .conn c.hub id))) ∧
  (∀ (id : Nat) (c : Conn) (s : State), connOf s id = some c → c.state = .failed →
    Completes (.quietTimeExpiry id) s fun t =>
      connOf t id = none ∧ OthersFlow s t id ∧ t.mem = s.mem ∧ (c.reasm = [] → OtherConns s t id ∧ t.traf = s.traf) ∧
      now t c.hub = max (now s c.hub) (c.lastRx + 1000000 * rget s .fab_quiet_time_ms c.hub 0))

/-- A HELLO in a version the port supports, of a payload it knows, that names a version both ends support. -/
def Versed (s : State) (m : Msg) (x : Hello) : Prop :=
  bit1 (versions s m.hub) m.slotSeq = true ∧ x.ver = 1 ∧ (x.vers % 4) &&& versions s m.hub ≠ 0

/-- A node that takes this HELLO: it carries traffic, and the credential holds. -/
def TakesHello (u : State) (m : Msg) (x : Hello) : Prop :=
  draining u = false ∧ (hubSt u m.hub).st ≠ 1 ∧ credentialOk u m x = true

/-- What the index answers about the connection a HELLO or its response names, once the message has left the queue. -/
def helloSeek (s : State) (msg : Nat) (m : Msg) : State × Except Status (Option (Nat × Conn)) :=
  let u := setMsgs s (adel s.msgs msg)
  seekConn (endpointOf u m.hub) m.arg0 m.endpoint (connHubs u m.hub (endpointOf u m.hub)) u false

/-- One more frame waits at the egress scheduler: a HELLO that answers a message. -/
def OneHello (s t : State) (m : Msg) : Prop :=
  ∃ e, t.traf.egress = s.traf.egress ++ [e] ∧ e.frame.opcode = Opcode.hello.code ∧ e.frame.replyTo = m.replyTo

/-- HELLO, ACK, NACK, HEARTBEAT and CONNECTION_FILL: how a connection opens, is acknowledged, refused, heard and filled.
A HELLO that no record answers, on a node that takes connections, with a version both ends support and a credential
that binds its tenant, opens a record in OPEN that expects the opener's isn, and one response leaves; repeated, it
is answered as before and opens nothing; in a version this port does not take or of another payload version, it is
refused before any of that; where an index block that may hold its row is rebuilding, it is answered and opens
nothing; with a version, credential or moment that forbids it, one response leaves, no record is opened and
HELLO_REFUSED counts it. The OK response to a HELLO of the node's own turns OPENING into OPEN. An ACK within what
was sent frees every segment it covers and takes the peer's credit. A NACK ends the request of the node's own that
it answers, and one that answers none only leaves the queue. A HEARTBEAT leaves the peer's local time in the record
and is answered by an ACK. A spilled record that a copy of its arena gives returns on chip, and FILLS counts it;
without a copy that can be read it stays. -/
def Obligations.ConnectionsOpenAndAcknowledge : Prop :=
  (∀ (msg id : Nat) (m : Msg) (s u v : State), wireMsg s msg .hello = some m → m.resp = false →
    Versed s m (Hello.parse m.payload) → helloSeek s msg m = (u, .ok none) → TakesHello u m (Hello.parse m.payload) →
    enterConn (fresh u).2 (acceptedConn (fresh u).2 m (Hello.parse m.payload) ((fresh u).1 % 2 ^ 32)) = (v, some id) →
    Completes (.hello msg) s fun t =>
      (∃ c, connOf t id = some c ∧ c.state = .open_ ∧ c.id = m.arg0 ∧ c.peer = m.endpoint ∧ c.pd = m.pd ∧
        c.tenant = (Hello.parse m.payload).tenant ∧ c.peerIsn = (Hello.parse m.payload).isn ∧
        c.rcvNext = (Hello.parse m.payload).isn ∧ c.peerCredit = (Hello.parse m.payload).credit) ∧
      (∃ e, t.traf.egress = v.traf.egress ++ [e] ∧ e.frame.opcode = Opcode.hello.code ∧ e.conn = id) ∧
      t = { v with traf := t.traf }) ∧
  (∀ (msg id : Nat) (m : Msg) (c : Conn) (s u : State), wireMsg s msg .hello = some m → m.resp = false →
    Versed s m (Hello.parse m.payload) → helloSeek s msg m = (u, .ok (some (id, c))) → connOf u id = some c →
    c.peerIsn = (Hello.parse m.payload).isn → c.opener = false → c.state = .open_ →
    Completes (.hello msg) s fun t =>
      t = { u with traf := t.traf } ∧ OneHello s t m ∧ ∀ e ∈ t.traf.egress.getLast?, e.frame.payload = c.helloAns) ∧
  (∀ (msg : Nat) (m : Msg) (s u : State), wireMsg s msg .hello = some m → m.resp = false →
    Versed s m (Hello.parse m.payload) → helloSeek s msg m = (u, .ok none) → ¬ TakesHello u m (Hello.parse m.payload) →
    Completes (.hello msg) s fun t =>
      t.fab.conns = s.fab.conns ∧ t.mem = s.mem ∧
      rget t .fab_HELLO_REFUSED m.hub 0 = min (rget s .fab_HELLO_REFUSED m.hub 0 + 1) (2 ^ Reg.fab_HELLO_REFUSED.width - 1) ∧
      OneHello s t m) ∧
  (∀ (msg : Nat) (m : Msg) (s : State), wireMsg s msg .hello = some m → m.resp = false →
    ¬ Versed s m (Hello.parse m.payload) → Completes (.hello msg) s fun t =>
      rget t .fab_HELLO_REFUSED m.hub 0 = min (rget s .fab_HELLO_REFUSED m.hub 0 + 1) (2 ^ Reg.fab_HELLO_REFUSED.width - 1) ∧
      OneHello s t m ∧ t = { s with msgs := adel s.msgs msg, regs := t.regs, traf := t.traf }) ∧
  (∀ (msg : Nat) (m : Msg) (st : Status) (s u : State), wireMsg s msg .hello = some m → m.resp = false →
    Versed s m (Hello.parse m.payload) → helloSeek s msg m = (u, .error st) → Completes (.hello msg) s fun t =>
      t = { u with regs := t.regs, traf := t.traf } ∧ OneHello s t m) ∧
  (∀ (msg id : Nat) (m : Msg) (c : Conn) (s u : State), wireMsg s msg .hello = some m → m.resp = true →
    helloSeek s msg m = (u, .ok (some (id, c))) → connOf u id = some c → c.state = .opening → c.asked = [] →
    (Hello.parse m.payload).status = Status.ok.code → ((Hello.parse m.payload).vers % 4) &&& versions u c.hub ≠ 0 →
    Completes (.hello msg) s fun t =>
      (∃ d, connOf t id = some d ∧ d.state = .open_ ∧ d.peerIsn = (Hello.parse m.payload).isn ∧
        d.rcvNext = (Hello.parse m.payload).isn ∧ d.peerCredit = (Hello.parse m.payload).credit ∧ d.timeouts = 0 ∧
        d.sndNext = c.sndNext) ∧ OneFrame s t id c .ack ∧ OtherConns s t id ∧ t.mem = s.mem ∧ msgOf t msg = none) ∧
  (∀ (msg id h q : Nat) (m : Msg) (c : Conn) (s : State), wireMsg s msg .ack = some m → m.origin = .conn h id q →
    bit1 m.slotSeq 0 = true → connOf s id = some c → c.state = .open_ →
    sDist c.sndUna m.arg0 ≤ sDist c.sndUna c.sndNext → Completes (.ack msg) s fun t =>
      (∃ d, connOf t id = some d ∧ d.sndUna = m.arg0 ∧ d.peerCredit = m.arg1 ∧ d.rcvNext = c.rcvNext ∧
        d.ring.map (·.seq) = (c.ring.map (·.seq)).filter (fun q => ! sLt q m.arg0)) ∧
      OthersFlow s t id ∧ msgOf t msg = none ∧ t.mem = s.mem ∧ t.out = s.out) ∧
  (∀ (msg id h q : Nat) (m : Msg) (c : Conn) (s : State), wireMsg s msg .nack = some m → m.origin = .conn h id q →
    connOf s id = some c → c.state = .open_ → (∀ a ∈ c.asked, a.seq ≠ some m.replyTo) →
    Completes (.nack msg) s fun t => t = { s with msgs := adel s.msgs msg }) ∧
  (∀ (msg id h q : Nat) (m : Msg) (c : Conn) (a : Ask) (s : State), wireMsg s msg .nack = some m → m.origin = .conn h id q →
    connOf s id = some c → c.state = .open_ → c.asked.find? (fun a => decide (a.seq = some m.replyTo)) = some a →
    Completes (.nack msg) s fun t =>
      t = flush (askRefused (modConn { s with msgs := adel s.msgs msg } id fun c => { c with asked := c.asked.erase a }) a
        (Status.ofCode (fld true m.payload 1 1)))) ∧
  (∀ (msg id h q : Nat) (m : Msg) (c : Conn) (s : State), wireMsg s msg .heartbeat = some m → m.origin = .conn h id q →
    connOf s id = some c → Completes (.heartbeat msg) s fun t =>
      connOf t id = some { c with unacked := 0, ackDue := none, peerTime := some (fld true m.payload 8 8) } ∧
      OneFrame s t id c .ack ∧ OtherConns s t id ∧
      t.msgs = adel s.msgs msg ∧ t.mem = s.mem) ∧
  (∀ (id : Nat) (c : Conn) (s u : State), connOf s id = some c → c.onChip = false → readArena s c.hub c.slot = (u, true) →
    onChipCount u c.hub < 16384 → (∀ p ∈ s.fab.fillQ, p.1 ≠ id) → Completes (.connectionFill id) s fun t =>
      (∃ d, connOf t id = some d ∧ d.onChip = true ∧ flow d = flow c) ∧ OtherConns s t id ∧
      rget t .fab_FILLS c.hub 0 = min (rget u .fab_FILLS c.hub 0 + 1) (2 ^ Reg.fab_FILLS.width - 1) ∧
      t = { u with fab := t.fab, chive := t.chive, regs := t.regs, traf := t.traf }) ∧
  (∀ (id : Nat) (c : Conn) (s u : State), connOf s id = some c → c.onChip = false → readArena s c.hub c.slot = (u, false) →
    Completes (.connectionFill id) s fun t => t = u)

/-- A frame of a legal length reaches a hub that lives on a sub-port whose link is up. -/
def AtHub (s : State) (h : Nat) (f : Arrival) : Prop :=
  hubAlive s h = true ∧ (subOf s h f.sub.val).link = true ∧ 64 ≤ f.length ∧ f.length ≤ 9216 ∧ f.ether ≠ .pause ∧ f.ether ≠ .kx

/-- The sub-port has counted the codewords the frame's FEC corrected and lost. -/
def fecSeen (s : State) (h : Nat) (f : Arrival) : State :=
  bumpAt (bumpAt s .fab_FEC_CORRECTED h f.sub.val f.fecDone) .fab_FEC_UNCORRECTED h f.sub.val f.fecLost

/-- The frame's protection holds, its encapsulation is the port's and it is addressed to the port: the state with its packet
number taken, and the header it spells. -/
def Arrives (s u : State) (h : Nat) (f : Arrival) (x : Frame) : Prop :=
  AtHub s h f ∧ secCheck (fecSeen s h f) h f.sub.val f = some u ∧ ceMark f.ether = false ∧ etherOk u h f.ether = (true, true) ∧
  Frame.parse f.bytes = some x ∧ x.dst = endpointOf u h ∧ (x.version = 0 → rget u .fab_forerunner_compat h 0 ≠ 0)

/-- What the index answers about the connection a frame names, at the hub it reached. -/
def frameSeek (u : State) (h : Nat) (x : Frame) : State × Except Status (Option (Nat × Conn)) :=
  seekConn x.dst x.connId x.src (connHubs u h x.dst) u false

/-- A frame that belongs to a record that is on chip and OPEN, at a hub that the frame can reach; v is the state once the index
has answered. -/
def OnOpen (u v : State) (h : Nat) (x : Frame) (id : Nat) (c : Conn) : Prop :=
  frameSeek u h x = (v, .ok (some (id, c))) ∧ (hubRoute v h c.hub).isSome = true ∧ connOf v id = some c ∧ c.state = .open_ ∧
  c.onChip = true

/-- The index has no record for a frame, or an on-chip one that stands. -/
def OpensOrStands (u v : State) (h : Nat) (x : Frame) : Prop :=
  frameSeek u h x = (v, .ok none) ∨ (∃ st, frameSeek u h x = (v, .error st)) ∨
  ∃ id c, frameSeek u h x = (v, .ok (some (id, c))) ∧ (hubRoute v h c.hub).isSome = true ∧ c.state ≠ .failed ∧ c.onChip = true

/-- The census has taken the tag of a HELLO or of its response. -/
def tagNoted (v : State) (h : Nat) (x : Frame) : State := if x.version = 0 then v else noteTag v h x.tag x.src

/-- The state in which a connection has heard a frame: its times, and the configuration tag the census takes. -/
def heard (u : State) (id : Nat) (c : Conn) (x : Frame) : State :=
  let v := modConn (newId u).2 id fun y => { y with lastRx := now u y.hub, lastUse := u.nextId }
  if c.version = 0 then bump v .fab_V0_FRAMES c.hub else noteTag v c.hub x.tag c.peer

/-- PLEMBEL_FRAME_RECEIVE: from the sub-port to the connection and into the queue. Every frame adds its corrected and
lost codewords to the sub-port's counts. A PAUSE frame is counted and goes no further; a frame without protection,
with a failed ICV or outside its replay window is dropped and counted; a frame for another endpoint or in another
encapsulation is counted as misdirected. A protected frame for this port that belongs to no connection is answered
by one bare NACK with NOT_FOUND, or with BUSY where an index block is rebuilding; a HELLO enters the queue with its
tag in the census, and its response too unless it is of a version the port does not take, which a NACK with VERSION
answers; a frame whose hub no link path reaches ends; and a frame of a spilled record waits for the record, while
fewer than 256 wait. An ACK of an on-chip OPEN connection enters the queue. The segment a connection expects,
holding a whole message that its first checks pass, advances rcv_next by one and puts the message, with its payload,
at the end of the queue. A segment before rcv_next is counted as a duplicate, acknowledged and discarded. A frame of
another version than its connection's is answered by a NACK with VERSION, and nothing of it is taken. -/
def Obligations.FramesReachTheirConnection : Prop :=
  (∀ (h : Hub) (f : Arrival) (s : State), hubAlive s h.val = true → (subOf s h.val f.sub.val).link = true →
    64 ≤ f.length → f.length ≤ 9216 → f.ether = .pause → Completes (.plembelFrameReceive h f) s fun t =>
      t = bump (fecSeen s h.val f) .fab_PAUSE_DROPS h.val) ∧
  (∀ (h : Hub) (f : Arrival) (s : State), AtHub s h.val f →
    (f.prot = false ∨ f.icvOk = false ∨ ∀ a, (subOf s h.val f.sub.val).rx = some a ∨ (subOf s h.val f.sub.val).rxOld = some a →
      a.an ≠ f.an ∨ f.pn < a.pn) → Completes (.plembelFrameReceive h f) s fun t =>
      t = bump (fecSeen s h.val f) .fab_MACSEC_DROPS h.val) ∧
  (∀ (h : Hub) (f : Arrival) (x : Frame) (s u : State), AtHub s h.val f → secCheck (fecSeen s h.val f) h.val f.sub.val f = some u →
    ceMark f.ether = false → (etherOk u h.val f.ether).1 = true → (etherOk u h.val f.ether).2 = true →
    Frame.parse f.bytes = some x → x.dst ≠ endpointOf u h.val → Completes (.plembelFrameReceive h f) s fun t =>
      t = bump u .fab_MISDIRECTED h.val ∧ OtherSubs s t h.val f.sub.val) ∧
  (∀ (h : Hub) (f : Arrival) (x : Frame) (st : Status) (s u v : State), Arrives s u h.val f x → x.opcode ≠ Opcode.hello.code →
    x.opcode ≠ Opcode.nack.code →
    (frameSeek u h.val x = (v, .ok none) ∧ st = .notFound ∨ frameSeek u h.val x = (v, .error st)) →
    Completes (.plembelFrameReceive h f) s fun t =>
      t = { v with traf := t.traf } ∧ ∃ g, t.traf.egress = s.traf.egress ++ [⟨h.val, 0, 0, f.peer, g⟩] ∧
        g.opcode = Opcode.nack.code ∧ g.dst = x.src ∧ g.connId = x.connId ∧ g.payload = nackPayload true st ∧
        (st = .busy → g.loadHint = 8)) ∧
  (∀ (h : Hub) (f : Arrival) (x : Frame) (s u v : State), Arrives s u h.val f x → x.opcode = Opcode.hello.code →
    OpensOrStands u v h.val x → bit1 x.flags 4 = true → bit1 (versions (tagNoted v h.val x) h.val) x.version = false →
    Completes (.plembelFrameReceive h f) s fun t =>
      t = { tagNoted v h.val x with traf := t.traf } ∧ ∃ g, t.traf.egress = s.traf.egress ++ [⟨h.val, 0, 0, f.peer, g⟩] ∧
        g.opcode = Opcode.nack.code ∧ g.dst = x.src ∧ g.connId = x.connId ∧ g.payload = nackPayload true .version) ∧
  (∀ (h : Hub) (f : Arrival) (x : Frame) (s u v : State), Arrives s u h.val f x → x.opcode = Opcode.hello.code →
    OpensOrStands u v h.val x → (bit1 x.flags 4 = false ∨ bit1 (versions (tagNoted v h.val x) h.val) x.version = true) →
    Completes (.plembelFrameReceive h f) s fun t =>
      (∃ m, t.msgs = s.msgs ++ [(s.nextId, m)] ∧ m.opcode = .hello ∧ m.payload = x.payload ∧ m.endpoint = x.src ∧
        m.arg0 = x.connId ∧ m.pd = x.pd ∧ m.respAddr = f.peer) ∧ t = { tagNoted v h.val x with msgs := t.msgs, nextId := s.nextId + 1 }) ∧
  (∀ (h : Hub) (f : Arrival) (x : Frame) (id : Nat) (c : Conn) (s u v : State), Arrives s u h.val f x →
    frameSeek u h.val x = (v, .ok (some (id, c))) → Completes (.plembelFrameReceive h f) s fun t =>
      ((hubRoute v h.val c.hub).isNone = true → t = v) ∧
      ((hubRoute v h.val c.hub).isSome = true → c.state = .open_ → c.onChip = false →
        if (s.fab.fillQ.filter fun p => (connOf s p.1).any fun y => decide (y.hub = c.hub)).length < 256 then
          t = { v with fab := { v.fab with fillQ := s.fab.fillQ ++ [(id, x)] } }
        else t = bump v .fab_FILL_DROPS c.hub)) ∧
  (∀ (h : Hub) (f : Arrival) (x : Frame) (id : Nat) (c : Conn) (s u v : State), Arrives s u h.val f x → OnOpen u v h.val x id c →
    c.version = x.version → x.opcode = Opcode.ack.code → Completes (.plembelFrameReceive h f) s fun t =>
      (∃ n m, t.msgs = s.msgs ++ [(n, m)] ∧ m.opcode = .ack ∧ m.arg0 = x.ack ∧ m.arg1 = x.credit ∧ m.payload = x.payload ∧
        m.origin = .conn c.hub id x.seq) ∧ OtherConns s t id ∧ t.traf = s.traf ∧ t.mem = s.mem) ∧
  (∀ (h : Hub) (f : Arrival) (x : Frame) (id : Nat) (c : Conn) (cls : Nat) (colour : Colour) (s u r v w : State),
    Arrives s u h.val f x → OnOpen u r h.val x id c → c.version = x.version → Opcode.ofCode x.opcode ≠ some .ack →
    Opcode.ofCode x.opcode ≠ some .heartbeat → Opcode.ofCode x.opcode ≠ some .hello → Opcode.ofCode x.opcode ≠ some .nack →
    x.segIndex = 0 → x.segCount = 1 → x.payLen = x.payload.length → x.payLen ≤ segSize c → x.seq < 2 ^ 32 →
    v = (if bit1 x.flags 0 then onAck (heard r id c x) id x.ack x.credit [] else heard r id c x) →
    ∀ d e, connOf v id = some d → d.rcvNext = x.seq → 0 < d.ownCredit → d.reasm = [] →
    firstChecks v id d x = (w, .pass cls colour .arrived) → connOf w id = some e → e.rcvNext = x.seq → e.reasm = [] →
    e.refused = [] → e.passed = [] → e.closeRcvd = false → e.state = .open_ → e.segCode = c.segCode →
    Completes (.plembelFrameReceive h f) s fun t =>
      (∃ n m, t.msgs = w.msgs ++ [(n, m)] ∧ some m.opcode = Opcode.ofCode x.opcode ∧ m.payload = x.payload ∧
        m.cls = (if isReply x then x.cls else cls) ∧ m.colour = (if isReply x then .green else colour) ∧ m.phase = .arrived ∧ m.origin = .conn e.hub id x.seq ∧ m.tenant = e.tenant ∧ m.pd = e.pd) ∧
      (∃ k, connOf t id = some k ∧ k.rcvNext = sAdd x.seq 1 ∧ k.reasm = [])) ∧
  (∀ (h : Hub) (f : Arrival) (x : Frame) (id : Nat) (c : Conn) (s u v : State), Arrives s u h.val f x → OnOpen u v h.val x id c →
    c.version = x.version → Opcode.ofCode x.opcode ≠ some .ack → Opcode.ofCode x.opcode ≠ some .heartbeat →
    Opcode.ofCode x.opcode ≠ some .hello → Opcode.ofCode x.opcode ≠ some .nack → bit1 x.flags 0 = false →
    sLt x.seq c.rcvNext = true → Completes (.plembelFrameReceive h f) s fun t =>
      t.msgs = s.msgs ∧ OneFrame s t id c .ack ∧ OtherConns s t id ∧
      rget t .fab_DUPLICATES c.hub 0 = min (rget s .fab_DUPLICATES c.hub 0 + 1) (2 ^ Reg.fab_DUPLICATES.width - 1)) ∧
  (∀ (h : Hub) (f : Arrival) (x : Frame) (id : Nat) (c : Conn) (s u v : State), Arrives s u h.val f x → OnOpen u v h.val x id c →
    c.version ≠ x.version → x.opcode ≠ Opcode.hello.code → x.opcode ≠ Opcode.nack.code → sLt x.seq c.rcvNext = true →
    Completes (.plembelFrameReceive h f) s fun t =>
      (∃ d g, connOf t id = some d ∧ d.lastRx = c.lastRx ∧ d.ring.map (·.seq) = c.ring.map (·.seq) ++ [g.seq] ∧ g.seq = c.sndNext ∧
        (∃ y ∈ d.ring, y.frame = g) ∧ g.opcode = Opcode.nack.code ∧ g.payload = nackPayload true .version) ∧
      OtherConns s t id ∧ t.msgs = s.msgs)

/-- The gate list written for the selected sub-port, and its base time. -/
def writtenList (s : State) (h : Nat) : List (Nat × Nat) × Nat :=
  let u := rget s .traffic_gl_subport h 0
  ((List.range (rget s .traffic_gl_count h (64 * u))).map fun i =>
    (rget s .traffic_gate_mask h (64 * u + i), rget s .traffic_duration_ns h (64 * u + i)),
   rget s .traffic_gl_base_lo h (64 * u) + rget s .traffic_gl_base_hi h (64 * u) * 2 ^ 32)

/-- A shaper after n refills. -/
def refilled (s : State) (h u c n : Nat) (x : EgClass) : EgClass :=
  let i := 16 * u + c
  { x with count := min (x.count + (n * rget s .traffic_shape_mbps h i : Nat)) ((8 * rget s .traffic_shape_burst h i : Nat) : Int) }

/-- No sub-port's gate lists but one's have changed. -/
def OtherGates (s t : State) (h u : Nat) : Prop := ∀ x, x ≠ (h, u) → aget t.traf.gates x = aget s.traf.gates x

/-- BUCKET_REFILL, GATE_LIST_COMMIT, GATE_LIST_SWITCH and GATE_ENTRY_ADVANCE. A refill of a hub moves its local time to
the next microsecond at least and brings every shaper of the hub up by its rate for each refill passed, up to 8
times its burst; shapers of other hubs stand, and a single write held for the hub takes effect with the refill: a
node-wide field's at this hub, while the other hubs go on with the old value until their own refills. Under an
operator session of the primary port's PF a gate-list commit leaves the list pending with its base time when the
list keeps R310 and the base is 10 us ahead or more, and otherwise raises gl_refused and leaves every list as it
was. At its base time the pending list becomes the running one, at its first entry, and GATE_SWITCHES counts it.
When the current entry's duration ends, the next entry is in force, the first after the last. Memory stands. -/
def Obligations.RefillsAndGateLists : Prop :=
  (∀ (h : Hub) (s : State), s.traf.held = [] → s.traf.lag = [] → Completes (.bucketRefill h) s fun t =>
      agetD s.traf.refillAt h.val 0 < agetD t.traf.refillAt h.val 0 ∧
      now t h.val = max (now s h.val) ((agetD s.traf.refillAt h.val 0 + 1) * 1000) ∧
      agetD t.traf.refillAt h.val 0 = now t h.val / 1000 ∧
      (∀ u c, aget t.traf.shapers (h.val, u, c) = (aget s.traf.shapers (h.val, u, c)).map fun x =>
        refilled s h.val u c (agetD t.traf.refillAt h.val 0 - agetD s.traf.refillAt h.val 0) x) ∧
      (∀ g u c, g ≠ h.val → aget t.traf.shapers (g, u, c) = aget s.traf.shapers (g, u, c)) ∧
      t = { s with life := t.life, traf := { s.traf with shapers := t.traf.shapers, refillAt := t.traf.refillAt } }) ∧
  (∀ (h : Hub) (r : Reg) (k i v : Nat) (s : State), s.traf.held = [(r, k, i, v)] → s.traf.lag = [] →
    r.info.wide = true ∨ (if r = .port_fn_profile then portHub k = h.val else k = h.val) → Completes (.bucketRefill h) s fun t =>
      t.traf.held = [] ∧ rget t r k i = v % 2 ^ r.width ∧
      (r.info.wide = true → hubField t h.val r i = v % 2 ^ r.width ∧
        ∀ g, g < 8 → g ≠ h.val → hubField t g r i = rget s r 0 i) ∧
      t.mem = s.mem ∧ t.traf.gates = s.traf.gates ∧
      t.traf.egress = s.traf.egress) ∧
  (∀ (h : Hub) (s : State), pfSession s = true → Completes (.gateListCommit h) s fun t =>
      if listRefused (subRate s h.val) (writtenList s h.val).1 = true ∨ (writtenList s h.val).2 < now s h.val + 10000 then
        rget t .traffic_gl_refused h.val (64 * rget s .traffic_gl_subport h.val 0) = 1 ∧ t = { s with regs := t.regs }
      else
        (gatesOf t h.val (rget s .traffic_gl_subport h.val 0)).pend = some (writtenList s h.val) ∧
        (gatesOf t h.val (rget s .traffic_gl_subport h.val 0)).run = (gatesOf s h.val (rget s .traffic_gl_subport h.val 0)).run ∧
        OtherGates s t h.val (rget s .traffic_gl_subport h.val 0) ∧ t = { s with traf := { s.traf with gates := t.traf.gates } }) ∧
  (∀ (h : Hub) (u : Sub) (es : List (Nat × Nat)) (base : Nat) (s : State), (gatesOf s h.val u.val).pend = some (es, base) →
    s.traf.held = [] → Completes (.gateListSwitch h u) s fun t =>
      gatesOf t h.val u.val = ⟨es, 0, base, none⟩ ∧ base ≤ now t h.val ∧ OtherGates s t h.val u.val ∧
      rget t .traffic_GATE_SWITCHES h.val 0 =
        min (rget s .traffic_GATE_SWITCHES h.val 0 + 1) (2 ^ Reg.traffic_GATE_SWITCHES.width - 1) ∧
      t.mem = s.mem ∧ t.out = s.out) ∧
  (∀ (h : Hub) (u : Sub) (e : Nat × Nat) (s : State),
    (gatesOf s h.val u.val).run[(gatesOf s h.val u.val).index]? = some e → Completes (.gateEntryAdvance h u) s fun t =>
      (gatesOf t h.val u.val).run = (gatesOf s h.val u.val).run ∧
      (gatesOf t h.val u.val).index = ((gatesOf s h.val u.val).index + 1) % (gatesOf s h.val u.val).run.length ∧
      (gatesOf t h.val u.val).since = (gatesOf s h.val u.val).since + e.2 ∧
      now t h.val = max (now s h.val) ((gatesOf s h.val u.val).since + e.2) ∧ OtherGates s t h.val u.val ∧
      t = { s with life := t.life, traf := { s.traf with gates := t.traf.gates } })

/-- The state at an opportunity: refills passed, segments without a live connection gone, the turn passed on where its holder
has become ineligible. -/
def atOpportunity (s : State) (h u : Nat) : State :=
  passTurn (keepEgress (refillTo s h) fun e => liveSeg (refillTo s h) e) h u

/-- One protected frame carrying the waiting segment has left the sub-port; a connection in CLOSING may end with it. -/
def Leaves (u t : State) (h v i : Nat) (e : EgSeg) (sa : SecAssoc) : Prop :=
  (∃ (f : Frame) (pcp : Option Nat), f.payload = e.frame.payload ∧ f.opcode = e.frame.opcode ∧ f.connId = e.frame.connId ∧ f.dst = e.frame.dst ∧
    t.out = u.out ++ [.frame h v pcp sa.an sa.pn e.peer (frameLength u h e.frame) (encapOf u h e.frame)
      f.bytes]) ∧
  (subOf t h v).tx = some { sa with pn := sa.pn + 1 } ∧ OtherSubs u t h v ∧
  (shaperOf t h v e.cls).count = (shaperOf u h v e.cls).count - (8 * frameLength u h e.frame : Nat) ∧
  t.mem = u.mem ∧ t.seqs = u.seqs ∧
  ((∀ c, connOf u e.conn = some c → c.state ≠ .closing) →
    t.traf.egress = u.traf.egress.eraseIdx i ∧ t = { u with fab := t.fab, traf := t.traf, out := t.out })

/-- EGRESS_FRAME_OPPORTUNITY: which segment leaves a sub-port, and what its sending changes. On a sub-port whose first
key is installed, the segment that leaves is the first of the lowest eligible class below 4; with none of these, the
first of the class that the deficit round robin gives the turn, whose deficit covers the frame. It leaves under the
send association's packet number, which rises by one, in the encapsulation of its port, with the payload, opcode and
connection it waited with; it waits no longer, and its class's shaper count falls by 8 times the frame's length; a
weighted class whose queue empties or that can send no more passes the turn on. Without a key nothing leaves, with
no class eligible nothing leaves, and at packet number 2^62 the sub-port goes down. -/
def Obligations.EgressSendsOneFrame : Prop :=
  (∀ (h : Hub) (v : Sub) (s u : State), u = atOpportunity s h.val v.val → (subOf u h.val v.val).tx = none →
    Completes (.egressFrameOpportunity h v) s fun t => t = u) ∧
  (∀ (h : Hub) (v : Sub) (sa : SecAssoc) (s u : State), u = atOpportunity s h.val v.val → (subOf u h.val v.val).tx = some sa →
    2 ^ 62 ≤ sa.pn → Completes (.egressFrameOpportunity h v) s fun t =>
      t.out = u.out ∧ (subOf t h.val v.val).up = false ∧ (subOf t h.val v.val).spent = true ∧ (subOf t h.val v.val).tx = none ∧ OtherSubs u t h.val v.val ∧
      t.traf = u.traf) ∧
  (∀ (h : Hub) (v : Sub) (sa : SecAssoc) (c i : Nat) (e : EgSeg) (s u : State), u = atOpportunity s h.val v.val →
    (subOf u h.val v.val).tx = some sa → sa.pn < 2 ^ 62 → c < 4 →
    eligible u h.val v.val (subQueue u h.val v.val) c = true →
    (∀ b, b < c → eligible u h.val v.val (subQueue u h.val v.val) b = false) →
    headOf (subQueue u h.val v.val) c = some (i, e) →
    Completes (.egressFrameOpportunity h v) s fun t => e.cls = c ∧ Leaves u t h.val v.val i e sa) ∧
  (∀ (h : Hub) (v : Sub) (sa : SecAssoc) (s u : State), u = atOpportunity s h.val v.val → (subOf u h.val v.val).tx = some sa →
    sa.pn < 2 ^ 62 → (∀ c, c < 16 → eligible u h.val v.val (subQueue u h.val v.val) c = false) →
    Completes (.egressFrameOpportunity h v) s fun t => t = u) ∧
  (∀ (h : Hub) (v : Sub) (sa : SecAssoc) (c d : Nat) (ds : Assoc Nat Nat) (s u : State), u = atOpportunity s h.val v.val →
    (subOf u h.val v.val).tx = some sa → sa.pn < 2 ^ 62 →
    (∀ b, b < 4 → eligible u h.val v.val (subQueue u h.val v.val) b = false) →
    (∃ b, 4 ≤ b ∧ b < 16 ∧ eligible u h.val v.val (subQueue u h.val v.val) b = true) →
    d = agetD u.traf.turn (h.val, v.val) 20 →
    drr u h.val v.val (subQueue u h.val v.val) drrFuel (if 16 ≤ d then d - 16 else d) (decide (d < 16)) [] = some (c, ds) →
    Completes (.egressFrameOpportunity h v) s fun t =>
      ∃ i e, headOf (subQueue u h.val v.val) c = some (i, e) ∧ e.cls = c ∧
        eligible u h.val v.val (subQueue u h.val v.val) c = true ∧ frameLength u h.val e.frame ≤ agetD ds c 0 ∧
        Leaves u t h.val v.val i e sa ∧
        (agetD t.traf.turn (h.val, v.val) 20 = c ∨ agetD t.traf.turn (h.val, v.val) 20 = 16 + nextClass c))

/-- The fields of an ATTEND keep R72 for the sequence it names. -/
def AttendFits (u : State) (m : Msg) (a : Att) (d : Desc) : Prop :=
  attBounds m a d = false ∧ attValues m a = false ∧ attPlaces m a d = false ∧ mergeQuotaOk u m.tenant = true ∧
  fanRoom u m.hub (setUnits a.heads d.dim) a.arrival = true

/-- The request is fanned out: a new context that expects a chain of every quadrant a hub serves, each open and empty. -/
def FannedOut (u t : State) (msg i : Nat) (m : Msg) (a : Att) (d : Desc) : Prop :=
  (descOf t i).map (·.inflight) = some (d.inflight + 1) ∧
  ∃ c, aget t.merge.ctxs u.nextId = some c ∧ c.msg = msg ∧ c.hub = m.hub ∧ c.desc = i ∧ c.snap = d ∧
    c.nRecs = a.heads ∧ c.dim = d.dim ∧
    c.arrival = a.arrival ∧ c.quads = [] ∧ (∀ x ∈ c.chains, x.slices = [] ∧ x.closed = false) ∧
    c.expected = (List.range 8).filter (fun q => (quadHub u q).isSome) ∧
    c.durNs = (if a.tag = 0 then deadlineNs u m.hub a.deadline else deadlineNs u m.hub a.deadline / 2) ∧ c.deadline = m.at_ + c.durNs

/-- The slices a request of a hub reaches, and whose records reach the hub that keeps their chain. -/
def slicesInReach (u : State) (h : Nat) : List Nat :=
  (List.range 32).filter fun k =>
    let home := homeHub u (servingSlice u k)
    sliceReachable u (servingSlice u k) && (hubRoute u h home).isSome && (hubRoute u home ((quadHub u (k / 4)).getD home)).isSome

/-- Slices that record sets are on their way from, for a context. -/
def slicesOnWay (s : State) (ctx : Nat) : List Nat :=
  s.merge.inflight.filterMap fun f => match f with
    | .slice c k _ => if c = ctx then some k else none
    | _ => none

/-- ATTEND: an accepted request opens one merge context and scans every slice; a refused one answers at once. An ATTEND
that may start, whose handle the index finds, whose generation matches, whose sequence neither drains nor is dropped
and whose fields keep R72, within its merge quota and the hub's pool, makes its sequence one request heavier and
opens a new merge context of its hub, which keeps the sequence's descriptor as it is then. With memory sound, no
snapshot fenced and every slice's lane engine idle and at level 0 it waits for that context, and every slice in
reach, whose records reach the hub that keeps their chain, has exactly one record set on its way to it. The context
expects a chain of every quadrant a hub serves, each open and empty. An unsupported version, an unknown handle,
another generation, a sequence that drains or is dropped, and fields out of bounds are answered with their own
status, and open no context. -/
def Obligations.AttendFansOut : Prop :=
  (∀ (msg i : Nat) (m : Msg) (a : Att) (d : Desc) (s u : State), mayStart s msg .attend = some m →
    a = Att.parse m.be m.payload → a.ver = 1 → a.mode ≠ 3 → findSeq s m.hub m.tenant a.handle = (u, .hit i) →
    descOf u i = some d → genMatch a.gen d.gen = true → d.state ≠ .draining → d.state ≠ .dropping →
    AttendFits u m a d → Completes (.attend msg) s fun t => FannedOut u t msg i m a d ∧ t.merge.groups = s.merge.groups) ∧
  (∀ (msg i : Nat) (m : Msg) (a : Att) (d : Desc) (s u : State), mayStart s msg .attend = some m →
    a = Att.parse m.be m.payload → a.ver = 1 → a.mode ≠ 3 → findSeq s m.hub m.tenant a.handle = (u, .hit i) →
    descOf u i = some d → genMatch a.gen d.gen = true → d.state ≠ .draining → d.state ≠ .dropping →
    AttendFits u m a d → Quiet s → slicesOnWay s u.nextId = [] →
    (∀ k, k < 32 → laneIdle s (servingSlice s k) = true ∧ levelOf s (servingSlice s k) = 0) → Completes (.attend msg) s fun t =>
      FannedOut u t msg i m a d ∧ (msgOf t msg).map (·.phase) = some (.waitMerge u.nextId) ∧
      slicesOnWay t u.nextId = slicesInReach u m.hub ∧ t.merge.held = s.merge.held ∧
      (m.units = 0 → t.fab = s.fab ∧ t.traf = s.traf) ∧ t.ledg = s.ledg ∧ t.host = s.host) ∧
  (∀ (msg : Nat) (m : Msg) (a : Att) (s : State), mayStart s msg .attend = some m → a = Att.parse m.be m.payload →
    (a.ver ≠ 1 ∨ a.mode = 3) → Completes (.attend msg) s fun t => t = refuseAttend s msg m a .version) ∧
  (∀ (msg : Nat) (m : Msg) (a : Att) (s u : State), mayStart s msg .attend = some m → a = Att.parse m.be m.payload →
    a.ver = 1 → a.mode ≠ 3 → findSeq s m.hub m.tenant a.handle = (u, .miss) →
    Completes (.attend msg) s fun t => t = refuseAttend u msg m a .notFound ∧ t.merge = s.merge) ∧
  (∀ (msg i : Nat) (m : Msg) (a : Att) (d : Desc) (s u : State), mayStart s msg .attend = some m →
    a = Att.parse m.be m.payload → a.ver = 1 → a.mode ≠ 3 → findSeq s m.hub m.tenant a.handle = (u, .hit i) →
    descOf u i = some d → Completes (.attend msg) s fun t =>
      (genMatch a.gen d.gen = false → t = refuseAttend u msg m a .notFound ∧ t.merge = s.merge) ∧
      (genMatch a.gen d.gen = true → d.state = .draining → t = refuseAttend u msg m a .busy ∧ t.merge = s.merge) ∧
      (genMatch a.gen d.gen = true → d.state = .dropping → t = refuseAttend u msg m a .notFound ∧ t.merge = s.merge) ∧
      (genMatch a.gen d.gen = true → d.state ≠ .draining → d.state ≠ .dropping →
        (attBounds m a d = true ∨ attValues m a = true ∨ attPlaces m a d = true) →
        t = refuseAttend u msg m a .bounds ∧ t.merge = s.merge))

/-- The quadrant record a chain sends. -/
def chainRecord (x : MergeCtx) (ctx : Nat) (c : QuadChain) : InFlight :=
  let l := if x.arrival then c.slices else sortBy (·.1) c.slices
  .quad ctx c.quad (sumNat (l.map fun p => 2 ^ p.1)) x.hub (combine (l.map (·.2)))

/-- What a chain that closes puts on its way: its record, where a path of hub links leads to the ingress hub. -/
def chainSends (s : State) (x : MergeCtx) (ctx : Nat) (c : QuadChain) : List InFlight :=
  if (hubRoute s c.hub x.hub).isSome then [chainRecord x ctx c] else []

/-- A context and its open chain of a quadrant. -/
def OpenChain (s : State) (ctx q : Nat) (x : MergeCtx) (c : QuadChain) : Prop :=
  aget s.merge.ctxs ctx = some x ∧ (x.chains.find? fun c => decide (c.quad = q)) = some c ∧ c.closed = false

/-- The context is gone, its sequence is one request lighter, and its request has left the queue. -/
def MergeEnded (s t : State) (ctx : Nat) (x : MergeCtx) : Prop :=
  aget t.merge.ctxs ctx = none ∧ msgOf t x.msg = none ∧
  (descOf t x.desc).map (·.inflight) = (descOf s x.desc).map (fun d => d.inflight - 1) ∧ t.mem = s.mem ∧ t.ledg = s.ledg

/-- The request of a context carries no merge tag. -/
def Untagged (s : State) (x : MergeCtx) : Prop :=
  ∃ m, msgOf s x.msg = some m ∧ (Att.parse m.be m.payload).tag = 0

/-- SLICE_RECORD_ARRIVAL, QUADRANT_MERGE_CLOSE, QUADRANT_RECORD_ARRIVAL and INGRESS_MERGE_DEADLINE. A slice's record set
that arrives at an open chain of a live context joins it, in order of arrival, and is on its way no longer; one that
arrives at a closed chain or after its context is discarded and counted. A chain that closes, at its fourth record
set or at its closing time, puts one quadrant record on its way where a path of hub links leads to the ingress hub,
with the bitmap of the slices it holds and their merge in slice order, or in order of arrival where the request asks
for that. A quadrant record that arrives joins the context; with the last one expected the context closes. At the
ingress deadline the context closes with what it holds: PARTIAL where anything is missing. A closed context is gone
and its sequence is one request lighter, and its request, without a merge tag, is answered. -/
def Obligations.MergeRecordsArrive : Prop :=
  (∀ (ctx : Nat) (k : Slice) (r : Report) (x : MergeCtx) (c : QuadChain) (s : State), sliceInFlight s ctx k.val = some r →
    (aget s.life.moving (servingSlice s k.val)).isSome = false → OpenChain s ctx (k.val / 4) x c →
    Completes (.sliceRecordArrival ctx k) s fun t =>
      (∃ y e, aget t.merge.ctxs ctx = some y ∧ (y.chains.find? fun c => decide (c.quad = k.val / 4)) = some e ∧
        e.slices = c.slices ++ [(k.val, r)] ∧ e.closed = decide (c.slices.length = 3)) ∧
      t.merge.inflight = (s.merge.inflight.filter fun f => decide (f ≠ .slice ctx k.val r)) ++
        (if c.slices.length = 3 then chainSends s x ctx { c with slices := c.slices ++ [(k.val, r)] } else []) ∧
      t = { s with merge := { s.merge with ctxs := t.merge.ctxs, inflight := t.merge.inflight } }) ∧
  (∀ (ctx : Nat) (k : Slice) (r : Report) (s : State), sliceInFlight s ctx k.val = some r →
    (aget s.life.moving (servingSlice s k.val)).isSome = false → aget s.merge.ctxs ctx = none →
    Completes (.sliceRecordArrival ctx k) s fun t =>
      t.merge = { s.merge with inflight := s.merge.inflight.filter fun f => decide (f ≠ .slice ctx k.val r) } ∧
      rget t .sorrel_LATE_DISCARDS ((quadHub s (k.val / 4)).getD (k.val / 4)) 0 =
        min (rget s .sorrel_LATE_DISCARDS ((quadHub s (k.val / 4)).getD (k.val / 4)) 0 + 1)
          (2 ^ Reg.sorrel_LATE_DISCARDS.width - 1)) ∧
  (∀ (ctx : Nat) (q : Hub) (x : MergeCtx) (c : QuadChain) (s : State), OpenChain s ctx q.val x c →
    Completes (.quadrantMergeClose ctx q) s fun t =>
      t.merge.inflight = s.merge.inflight ++ chainSends s x ctx c ∧
      (∃ y e, aget t.merge.ctxs ctx = some y ∧ (y.chains.find? fun c => decide (c.quad = q.val)) = some e ∧
        e = { c with closed := true } ∧ y.quads = x.quads) ∧
      now t c.hub = max (now s c.hub) c.closeAt ∧
      t = { s with life := t.life, merge := { s.merge with ctxs := t.merge.ctxs, inflight := t.merge.inflight } }) ∧
  (∀ (ctx : Nat) (q : Hub) (b h : Nat) (r : Report) (x : MergeCtx) (s : State), quadInFlight s ctx q.val = some (b, h, r) →
    aget s.merge.ctxs ctx = some x → (∃ e ∈ x.expected, e ≠ q.val ∧ ∀ p ∈ x.quads, p.1 ≠ e) →
    Completes (.quadrantRecordArrival ctx q) s fun t =>
      aget t.merge.ctxs ctx = some { x with quads := x.quads ++ [(q.val, b, r)] } ∧ quadInFlight t ctx q.val ≠ some (b, h, r) ∧
      t = { s with merge := { s.merge with ctxs := t.merge.ctxs, inflight := t.merge.inflight } }) ∧
  (∀ (ctx : Nat) (q : Hub) (b h : Nat) (r : Report) (x : MergeCtx) (s : State), quadInFlight s ctx q.val = some (b, h, r) →
    aget s.merge.ctxs ctx = some x → (∀ e ∈ x.expected, e = q.val ∨ ∃ p ∈ x.quads, p.1 = e) → Untagged s x →
    Completes (.quadrantRecordArrival ctx q) s fun t => MergeEnded s t ctx x) ∧
  (∀ (ctx : Nat) (x : MergeCtx) (s : State), aget s.merge.ctxs ctx = some x → Untagged s x →
    Completes (.ingressMergeDeadline ctx) s fun t =>
      MergeEnded s t ctx x ∧ x.deadline ≤ now t x.hub ∧
      (x.quads = [] → x.expected ≠ [] →
        t = deliver (endCtx (passTo s x.hub x.deadline) ctx x) x .partialMerge [] 0 0 0))

/-- A contribution that keeps R112 to R114, with its header, status and records. -/
def Contributes (s : State) (msg : Nat) (m : Msg) (p : PartHdr) (st : Status) (recs : List Rec) : Prop :=
  mayStart s msg .partialRec = some m ∧ (∃ h id q, m.origin = .conn h id q) ∧ p = PartHdr.parse m.be m.payload ∧ p.ver = 1 ∧
  Status.ofCode p.status = some st ∧ dOf p.dCode ≠ 0 ∧ m.payload.length = 40 + p.count * recSize p.out32 (dOf p.dCode) ∧
  ¬ (failing st = true ∧ p.count ≠ 0) ∧ 1 ≤ p.contribs ∧ p.contribs ≤ 64 ∧
  recs = (List.range p.count).map fun i => parseRec m.be (dOf p.dCode) (m.payload.drop (40 + i * recSize p.out32 (dOf p.dCode)))

/-- The tuple of a contribution. -/
def tupleOf (p : PartHdr) : GroupKey := ⟨p.tenant, p.pd, p.requester, p.tag⟩

/-- No tombstone of a tuple stands at a hub's endpoint. -/
def NoTomb (s : State) (h : Nat) (k : GroupKey) : Prop :=
  ∀ t ∈ s.merge.tombs, t.key = k → endpointOf s t.hub = endpointOf s h → t.until_ ≤ now s t.hub

/-- The group that a first contribution opens. -/
def groupOf (s : State) (m : Msg) (p : PartHdr) (st : Status) (recs : List Rec) : Group :=
  ⟨m.hub, tupleOf p, p.contribs, deadlineNs s m.hub p.deadline, m.at_ + deadlineNs s m.hub p.deadline, p.arrival,
   if recs.isEmpty then none else some (p.out32, dOf p.dCode, recs.map (·.head)),
   [⟨m.endpoint, st, p.bitmap, p.failKv, p.failPos, recs⟩]⟩

/-- PARTIAL_CONTRIBUTION, PARTIAL_RESPONSE, GROUP_DEADLINE and TOMBSTONE_EXPIRY: groups at a merge point. A first
contribution for a tuple, well formed and within quota and pool, opens a group of its hub that holds it, with the
count and the deadline it names; another endpoint's contribution joins the group; a second one of the same endpoint
is refused with BOUNDS and counted. A contribution for a tuple with a tombstone is answered and discarded. The OK
answer to a contribution of the node's own over the fabric ends the contributor's request, and another status makes
it answer directly. A group's deadline closes it with what it holds: the group is gone, its tombstone stands until
its lapse, and the tombstone's lapse removes it. -/
def Obligations.MergePoints : Prop :=
  (∀ (msg : Nat) (m : Msg) (p : PartHdr) (st : Status) (recs : List Rec) (s : State), Contributes s msg m p st recs →
    NoTomb s m.hub (tupleOf p) → groupAt s m.hub (tupleOf p) = none → 1 < p.contribs → mergeQuotaOk s p.tenant = true →
    ctxsUsed s m.hub < ctxMax → poolUsed s m.hub + groupUnits (groupOf s m p st recs) ≤ poolMax →
    Completes (.partialContribution msg) s fun t =>
      groupOf s m p st recs ∈ t.merge.groups ∧ msgOf t msg = none ∧ t.merge.tombs = s.merge.tombs ∧
      t.merge.ctxs = s.merge.ctxs ∧ t.mem = s.mem ∧ t.seqs = s.seqs) ∧
  (∀ (msg : Nat) (m : Msg) (p : PartHdr) (st : Status) (recs : List Rec) (g : Group) (s : State), Contributes s msg m p st recs →
    NoTomb s m.hub (tupleOf p) → groupAt s m.hub (tupleOf p) = some g → p.contribs = g.count → recs = [] →
    (∀ c ∈ g.parts, c.endpoint ≠ m.endpoint) → g.parts.length + 1 < g.count → poolUsed s g.hub ≤ poolMax →
    Completes (.partialContribution msg) s fun t =>
      (∃ x ∈ t.merge.groups, x.key = tupleOf p ∧ x.parts = g.parts ++ [⟨m.endpoint, st, p.bitmap, p.failKv, p.failPos, []⟩]) ∧
      msgOf t msg = none ∧ t.merge.tombs = s.merge.tombs ∧ t.mem = s.mem) ∧
  (∀ (msg : Nat) (m : Msg) (p : PartHdr) (st : Status) (recs : List Rec) (g : Group) (s : State), Contributes s msg m p st recs →
    NoTomb s m.hub (tupleOf p) → groupAt s m.hub (tupleOf p) = some g → (∃ c ∈ g.parts, c.endpoint = m.endpoint) →
    Completes (.partialContribution msg) s fun t =>
      t = answer (bump s .sorrel_REFUSED m.hub) msg .partialRec .bounds 0 (partResp m.be .bounds) ∧ t.merge = s.merge) ∧
  (∀ (msg : Nat) (m : Msg) (p : PartHdr) (x : Tombstone) (s : State), mayStart s msg .partialRec = some m →
    (∃ h id q, m.origin = .conn h id q) → p = PartHdr.parse m.be m.payload → x ∈ s.merge.tombs → x.key = tupleOf p →
    endpointOf s x.hub = endpointOf s m.hub → now s x.hub < x.until_ → Completes (.partialContribution msg) s fun t =>
      t = answer (bump s .sorrel_TOMBSTONE_DISCARDS m.hub) msg .partialRec .ok 0 (partResp m.be .ok) ∧ t.merge = s.merge) ∧
  (∀ (msg id h q : Nat) (m w : Msg) (c : Conn) (a : Ask) (s : State), respMsg s msg .partialRec = some m →
    m.origin = .conn h id q → connOf s id = some c → c.state = .open_ →
    c.asked.find? (fun a => decide (a.seq = some m.replyTo)) = some a → a.about ≠ msg → msgOf s a.about = some w →
    w.phase = .waitContrib → (∃ h id q, w.origin = .conn h id q) → Completes (.partialResponse msg) s fun t =>
      msgOf t msg = none ∧ msgOf t a.about = none ∧ t.mem = s.mem ∧ t.merge = s.merge ∧
      (fld m.be m.payload 1 1 = Status.ok.code → m.units = 0 → (∀ x ∈ s.fab.conns, x.2.state ≠ .closing) → t.traf = s.traf)) ∧
  (∀ (h : Hub) (g : Group) (s : State), (s.merge.groups.find? fun x => decide (x.hub = h.val) && decide (x.key = g.key)) = some g →
    Completes (.groupDeadline h g.key) s fun t =>
      (∀ x ∈ t.merge.groups, ¬ (x.hub = h.val ∧ x.key = g.key)) ∧
      t.merge.tombs = s.merge.tombs ++ [⟨h.val, g.key, g.deadline + g.durNs⟩] ∧ g.deadline ≤ now t h.val ∧
      (requesterConn s h.val g.key = none → t.traf = s.traf ∧ rget t .sorrel_UNDELIVERED h.val 0 =
        min (rget s .sorrel_UNDELIVERED h.val 0 + 1) (2 ^ Reg.sorrel_UNDELIVERED.width - 1)) ∧
      t.mem = s.mem ∧ t.seqs = s.seqs ∧ t.merge.ctxs = s.merge.ctxs) ∧
  (∀ (h : Hub) (x : Tombstone) (s : State), (s.merge.tombs.find? fun t => decide (t.hub = h.val) && decide (t.key = x.key)) = some x →
    Completes (.tombstoneExpiry h x.key) s fun t =>
      t.merge.tombs = s.merge.tombs.erase x ∧ x.until_ ≤ now t h.val ∧
      t = { s with life := t.life, merge := { s.merge with tombs := t.merge.tombs } })

/-- An access that passes orders 1 to 7 of R257; u is the state once its range has been looked at. -/
def AccessPasses (s u : State) (m : Msg) (write : Bool) (a : AccHdr) (key i : Nat) (r : Region) : Prop :=
  ∃ v, accCheck s m write a = (v, .ok (key, i, r)) ∧ lengthCheck write a (m.payload.length - 32) = true ∧
    rangeCheck v r write a = (u, none)

/-- A range of one span in memory without deviating check bits and without fences, and without a structure of the node's own. -/
def PlainSpan (u : State) (r : Region) (off n : Nat) : Prop :=
  r.kind ≠ rkSequence ∧ r.xfer = false ∧ u.mem.chk = [] ∧ (∀ p ∈ u.dill.snaps, p.2.raised = false) ∧
  (r.kind = rkWindow → recordIn u (spanAddr u r off) n = false)

/-- An access to a range stands fenced, or waits for one of the four fences of its die to go, and its region counts it. -/
def Fenced (u t : State) (msg i : Nat) (r : Region) (off len : Nat) : Prop :=
  let die := rangeAddr u r off len / 2 ^ 42
  (∃ n x, aget t.dill.snaps n = some x ∧ x.slice = die ∧ (x.lpn, x.base) = rangePlace u r off len ∧
    snapAddr t x = rangeAddr u r off len ∧ x.len = len ∧ x.msg = msg ∧ x.region = i ∧ x.since = dieNow u die ∧
    x.raised = decide ((u.dill.snaps.filter fun p => decide (p.2.slice = die) && p.2.raised).length < 4)) ∧
  regionOf t i = some { r with inflight := r.inflight + 1 } ∧ (msgOf t msg).map (·.phase) = some (.waitSnapshot msg) ∧
  t = { u with regn := t.regn, dill := t.dill, msgs := t.msgs, nextId := t.nextId, fab := t.fab, traf := t.traf }

/-- A refused access leaves memory: its bytes where no check bits deviate, all of it where no page was looked at. -/
def MemoryStands (s t : State) (r : Region) : Prop :=
  (s.mem.chk = [] → t.mem.cells = s.mem.cells) ∧ (r.kind ≠ rkSequence → t.mem = s.mem)

/-- An answer of a connection to a READ of a transfer the node is the destination of, with its status code. -/
def TransferRead (s : State) (msg id code : Nat) (m : Msg) (c : Conn) (a : Ask) (x : Transfer) : Prop :=
  respMsg s msg .readResp = some m ∧ (∃ h q, m.origin = .conn h id q) ∧ connOf s id = some c ∧ c.state = .open_ ∧
  c.asked.find? (fun a => decide (a.seq = some m.replyTo)) = some a ∧ moveOf s a.about true = some x ∧
  fld m.be m.payload 1 1 = code

/-- The answer has left the queue, the transfer is as y, and the memory and sequences stand. -/
def TransferIs (s t : State) (msg : Nat) (a : Ask) (y : Transfer) : Prop :=
  msgOf t msg = none ∧ moveOf t a.about true = some y ∧ t.mem = s.mem ∧ t.seqs = s.seqs ∧ t.regn = s.regn

/-- The destination of a transfer asks its source for the next stretch. -/
def AsksOn (s t : State) (m : Msg) (y : Transfer) : Prop :=
  ∃ w n, t = (ask w (ledgerHub w) y.peer .read y.handle (readReq y.key y.done n)).1 ∧ (m.units = 0 → w.traf = s.traf)

/-- READ_REGION, WRITE_REGION, SNAPSHOT, SNAPSHOT_COPY and READ_RESP. A READ whose key, range and length pass R257 is
answered OK with the bytes of its range: for a range of one span, without structures of the node's own, in memory
without deviating check bits, the bytes that stand there. A WRITE that passes stores its bytes: in such a range
exactly those bytes change, and it is answered OK with their number. A READ or WRITE that does not pass is answered
with the status of the first check it fails and changes no byte of memory. A fenced snapshot, by READ or by
SNAPSHOT, raises a fence over its range, at most four in a die, counts toward its region's accesses and waits; its
copy, once no running lane segment may write inside, answers it with what was read, removes the fence and the count;
before that nothing happens. A READ_RESP that answers no READ of the node's own leaves the queue. One that answers a
READ of a transfer adds its bytes to the transfer and the next stretch is asked for; BOUNDS, past the last page,
turns to the descriptor core; another status gives the transfer up; then the ledger sends what it has due. -/
def Obligations.RemoteReadsAndWrites : Prop :=
  (∀ (msg key i : Nat) (m : Msg) (a : AccHdr) (r : Region) (s u : State), accStart s msg .read = some m →
    a = AccHdr.parse m.be m.payload → AccessPasses s u m false a key i r → a.snapshot = false →
    Completes (.readRegion msg) s fun t =>
      (∀ v b, readRange u r a.offset a.length = (v, .ok b) → t = answerRead v msg .ok key b) ∧
      (∀ v st, readRange u r a.offset a.length = (v, .error st) → t = answerRead v msg st key []) ∧
      (PlainSpan u r a.offset a.length → t = answerRead (touchBanks u (spanAddr u r a.offset) a.length) msg .ok key
        (peek u (spanAddr u r a.offset) a.length) ∧ t.mem.cells = s.mem.cells)) ∧
  (∀ (msg key i : Nat) (m : Msg) (a : AccHdr) (r : Region) (s u : State), accStart s msg .read = some m →
    a = AccHdr.parse m.be m.payload → AccessPasses s u m false a key i r → a.snapshot = true → regionOf u i = some r →
    Completes (.readRegion msg) s fun t => Fenced u t msg i r a.offset a.length) ∧
  (∀ (msg key : Nat) (m : Msg) (a : AccHdr) (st : Status) (s u : State), a = AccHdr.parse m.be m.payload →
    (accStart s msg .read = some m → accCheck s m false a = (u, .error (st, key)) → Completes (.readRegion msg) s fun t =>
      t = answerRead u msg st key [] ∧ t.mem = s.mem) ∧
    (accStart s msg .write = some m → controlOf m = none → accCheck s m true a = (u, .error (st, key)) →
      Completes (.writeRegion msg) s fun t => t = answerWrite u msg m st key 0 ∧ t.mem = s.mem)) ∧
  (∀ (msg key i : Nat) (m : Msg) (a : AccHdr) (r : Region) (s u : State), accStart s msg .write = some m →
    a = AccHdr.parse m.be m.payload → controlOf m = none → AccessPasses s u m true a key i r →
    Completes (.writeRegion msg) s fun t =>
      (∀ v n st, writeRange u m.hub r a.offset (m.payload.drop 32) = (v, n, st) → t = answerWrite v msg m st key n) ∧
      (PlainSpan u r a.offset a.length → msgOf t msg = none ∧ t.mem.chk = [] ∧
        (∀ j, j < a.length → byteAt t (spanAddr u r a.offset + j) = (m.payload.drop 32).getD j 0#8) ∧
        (∀ b, b < spanAddr u r a.offset ∨ spanAddr u r a.offset + a.length ≤ b → byteAt t b = byteAt s b))) ∧
  (∀ (msg key i : Nat) (m : Msg) (a : AccHdr) (r : Region) (st : Status) (s u v : State),
    a = AccHdr.parse m.be m.payload →
    (accStart s msg .read = some m → accCheck s m false a = (v, .ok (key, i, r)) →
      lengthCheck false a (m.payload.length - 32) = true → rangeCheck v r false a = (u, some st) →
      Completes (.readRegion msg) s fun t => t = answerRead u msg st key [] ∧ MemoryStands s t r) ∧
    (accStart s msg .write = some m → controlOf m = none → accCheck s m true a = (v, .ok (key, i, r)) →
      lengthCheck true a (m.payload.length - 32) = true → rangeCheck v r true a = (u, some st) →
      Completes (.writeRegion msg) s fun t => t = answerWrite u msg m st key 0 ∧ MemoryStands s t r)) ∧
  (∀ (msg key i : Nat) (m : Msg) (a : AccHdr) (r : Region) (s v : State), a = AccHdr.parse m.be m.payload →
    (accStart s msg .read = some m → accCheck s m false a = (v, .ok (key, i, r)) →
      lengthCheck false a (m.payload.length - 32) = false →
      Completes (.readRegion msg) s fun t => t = answerRead v msg .bounds key [] ∧ t.mem = s.mem) ∧
    (accStart s msg .write = some m → controlOf m = none → accCheck s m true a = (v, .ok (key, i, r)) →
      lengthCheck true a (m.payload.length - 32) = false →
      Completes (.writeRegion msg) s fun t => t = answerWrite v msg m .bounds key 0 ∧ t.mem = s.mem)) ∧
  (∀ (msg key i : Nat) (m : Msg) (a : AccHdr) (r : Region) (s u v : State), mayStart s msg .snapshot = some m →
    a = { (default : AccHdr) with ver := 1, snapshot := true, key := m.arg0 % 2 ^ 32, offset := m.arg1, length := m.payLen } →
    accCheck s m false a = (v, .ok (key, i, r)) → a.length ≠ 0 → rangeCheck v r false a = (u, none) → regionOf u i = some r →
    Completes (.snapshot msg) s fun t => Fenced u t msg i r a.offset a.length) ∧
  (∀ (n : Nat) (x : Snapshot) (s : State), aget s.dill.snaps n = some x → x.raised = true →
    s.mem.chk = [] → laneWriting s x.slice (snapAddr s x) x.len = false → Completes (.snapshotCopy n) s fun t =>
      aget t.dill.snaps n = none ∧ msgOf t x.msg = none ∧ t.mem.cells = s.mem.cells ∧
      (∀ r, regionOf s x.region = some r → regionOf t x.region = some { r with inflight := r.inflight - 1 })) ∧
  (∀ (n : Nat) (x : Snapshot) (s : State), aget s.dill.snaps n = some x →
    (x.raised = false ∨ laneWriting s x.slice (snapAddr s x) x.len = true) → Completes (.snapshotCopy n) s fun t => t = s) ∧
  (∀ (msg id h q : Nat) (m : Msg) (c : Conn) (s : State), respMsg s msg .readResp = some m → m.origin = .conn h id q →
    connOf s id = some c → c.state = .open_ → (∀ a ∈ c.asked, a.seq ≠ some m.replyTo) → Completes (.readResp msg) s fun t =>
      (m.units = 0 → t = { s with msgs := adel s.msgs msg }) ∧
      t = { s with msgs := adel s.msgs msg, fab := t.fab, traf := t.traf }) ∧
  (∀ (msg id h q : Nat) (m : Msg) (c : Conn) (a : Ask) (s : State), respMsg s msg .readResp = some m →
    m.origin = .conn h id q → connOf s id = some c → c.state = .open_ →
    c.asked.find? (fun a => decide (a.seq = some m.replyTo)) = some a → moveOf s a.about true = none →
    Completes (.readResp msg) s fun t => ∃ u, t = flush u ∧
      (∃ d, connOf u id = some d ∧ d.asked = c.asked.erase a) ∧ u.msgs = adel s.msgs msg ∧ u.mem = s.mem ∧ u.ledg = s.ledg) ∧
  (∀ (msg id : Nat) (m : Msg) (c : Conn) (a : Ask) (x : Transfer) (s : State),
    TransferRead s msg id Status.ok.code m c a x → x.step ≤ 1 → Completes (.readResp msg) s fun t =>
      ∃ u y, t = flush u ∧ TransferIs s u msg a y ∧ AsksOn s u m y ∧
        y = if x.step = 0 then { x with step := 1 }
          else { x with pages := x.pages ++ [m.payload.drop 16], done := x.done + (m.payload.drop 16).length }) ∧
  (∀ (msg id : Nat) (m : Msg) (c : Conn) (a : Ask) (x : Transfer) (s : State),
    TransferRead s msg id Status.bounds.code m c a x → x.step ≤ 1 → Completes (.readResp msg) s fun t =>
      ∃ u, t = flush u ∧ TransferIs s u msg a { x with step := 2 } ∧ AsksOn s u m { x with step := 2 }) ∧
  (∀ (msg id code : Nat) (m : Msg) (c : Conn) (a : Ask) (x : Transfer) (s : State), TransferRead s msg id code m c a x →
    code ≠ Status.ok.code → (code ≠ Status.bounds.code ∨ x.step = 2) → x.step ≤ 2 → Completes (.readResp msg) s fun t =>
      ∃ u, t = flush u ∧ msgOf u msg = none ∧ moveOf u a.about true = none ∧ u.mem = s.mem ∧ u.seqs = s.seqs ∧ u.regn = s.regn)

/-- A REVOKE or REREGISTER record that names an entry of the requester's. -/
def NamesEntry (s : State) (msg op i : Nat) (m : Msg) (x : RegRec) (r : Region) : Prop :=
  controlStart s msg op = some (m, x) ∧ x.ver = 1 ∧ x.pd = m.pd ∧ oldEntry s m x = .ok (i, r) ∧ regionOf s i = some r

/-- A REGISTER that keeps orders 1 to 11 of R252 for the entry with index i; v is the state once the index has its name row. -/
def Registers (s u v : State) (msg i : Nat) (m : Msg) (x : RegRec) (d : Option Desc) : Prop :=
  controlStart s msg 1 = some (m, x) ∧ x.ver = 1 ∧ 1 ≤ x.kind ∧ x.kind ≤ 4 ∧ x.pd = m.pd ∧ registerBounds s m x = false ∧
  registerSeq s m x = (u, .ok d) ∧ (∃ z, registerMem u m x = .ok z) ∧ freeIndex u = some i ∧
  ¬ (x.named = true ∧ nameFull u m.tenant x.name x.prio 0 = true) ∧
  (if x.named then insertName u m.tenant x.name x.prio i (regionGenAt u i) else (u, .done)) = (v, .done)

/-- An entry apart from its name. -/
def unnamed (r : Region) : Region := { r with named := false, name := 0 }

/-- REGISTER_REGION, REVOKE_REGION, REREGISTER_REGION and REVOKE_DRAIN_COMPLETE: the region-control records. A REGISTER
that passes R252 fills the free entry with its record, ACTIVE, of the requester's tenant and domain, and is answered
OK with the entry's key and length; a name that takes another version's row leaves that one without a name; one that
fails a check is answered with that check's status. A REVOKE of an ACTIVE entry without accesses frees it, counts it
and is answered; with accesses it makes it REVOKING and waits, and so does a REVOKE of a REVOKING entry; of a FREE
entry it is answered OK at once. A REREGISTER of an ACTIVE entry without accesses gives it the next generation and
the record's rights, under the same index. When the accesses of a REVOKING entry are done it is freed and every
record that waited for it is answered; before that nothing happens. -/
def Obligations.RegionsAreRegisteredAndRevoked : Prop :=
  (∀ (msg i addr : Nat) (m : Msg) (x : RegRec) (d : Option Desc) (s u v w : State), Registers s u v msg i m x d →
    registerMem v m x = .ok (w, addr) → Completes (.registerRegion msg) s fun t =>
      regionOf t i = some (newRegion w m x i addr d) ∧
      (Quiet s → ∀ j, j ≠ i → (x.named = false → regionOf t j = regionOf s j) ∧
        (regionOf t j).map unnamed = (regionOf s j).map unnamed) ∧
      t = answerControl (bump (enterRegion w i (newRegion w m x i addr d)) .region_REGISTERS m.hub) msg .ok
        (regionKey i (newRegion w m x i addr d).gen) (newRegion w m x i addr d).length) ∧
  (∀ (msg : Nat) (m : Msg) (x : RegRec) (s : State), controlStart s msg 1 = some (m, x) → Completes (.registerRegion msg) s fun t =>
      ((x.ver ≠ 1 ∨ x.kind = 0 ∨ 4 < x.kind) → t = answerControl s msg .version 0 0) ∧
      (x.ver = 1 → 1 ≤ x.kind → x.kind ≤ 4 → x.pd ≠ m.pd → t = answerControl s msg .pdMismatch 0 0) ∧
      (x.ver = 1 → 1 ≤ x.kind → x.kind ≤ 4 → x.pd = m.pd → registerBounds s m x = true →
        t = answerControl s msg .bounds 0 0 ∧ t.regn = s.regn)) ∧
  (∀ (msg i : Nat) (m : Msg) (x : RegRec) (r : Region) (s : State), NamesEntry s msg 2 i m x r →
    Completes (.revokeRegion msg) s fun t =>
      (r.state = 0 → t = answerControl s msg .ok x.oldKey 0) ∧
      (r.state = 2 → regionOf t i = some { r with waiters := r.waiters ++ [msg] } ∧
        (msgOf t msg).map (·.phase) = some (.waitRevoke i) ∧ t.mem = s.mem) ∧
      (r.state = 1 → r.inflight ≠ 0 → (∃ e, regionOf t i = some e ∧ e.state = 2 ∧ e.waiters = r.waiters ++ [msg] ∧ e.gen = r.gen ∧
        e.inflight = r.inflight) ∧ (msgOf t msg).map (·.phase) = some (.waitRevoke i) ∧ t.mem = s.mem) ∧
      (r.state = 1 → r.inflight = 0 → (∃ e, regionOf t i = some e ∧ e.state = 0 ∧ e.named = false ∧ e.waiters = [] ∧ e.gen = r.gen) ∧
        msgOf t msg = none ∧ t.regn.clock = s.regn.clock + 1 ∧ (s.dill.snaps = [] → ∀ j, j ≠ i → regionOf t j = regionOf s j))) ∧
  (∀ (msg i : Nat) (m : Msg) (x : RegRec) (r : Region) (s : State), NamesEntry s msg 3 i m x r → (x.read || x.write) = true →
    ¬ (x.named = true ∧ x.name = 0) → Completes (.reregisterRegion msg) s fun t =>
      (r.state ≠ 1 → t = answerControl s msg .keyRevoked x.oldKey 0) ∧
      (r.state = 1 → x.named = false → r.inflight = 0 →
        (∃ e, regionOf t i = some e ∧ e.state = 1 ∧ e.gen = nextRegionGen r.gen ∧ e.read = x.read ∧ e.write = x.write ∧
          e.target = r.target ∧ e.length = r.length ∧ e.kind = r.kind ∧ e.named = false ∧ e.waiters = []) ∧
        msgOf t msg = none ∧ t.mem = s.mem ∧ (∀ j, j ≠ i → regionOf t j = regionOf s j)) ∧
      (r.state = 1 → x.named = false → r.inflight ≠ 0 →
        (∃ e, regionOf t i = some e ∧ e.state = 2 ∧ e.gen = r.gen ∧ e.reReg = some (m.payload.drop 32, msg, m.be)) ∧
        (msgOf t msg).map (·.phase) = some (.waitRevoke i))) ∧
  (∀ (i : Nat) (r : Region) (s : State), regionOf s i = some r → Completes (.revokeDrainComplete i) s fun t =>
      (¬ (r.state = 2 ∧ r.inflight = 0) → t = s) ∧
      (r.state = 2 → r.inflight = 0 → r.reReg = none → r.kind ≠ rkSequence →
        (∃ e, regionOf t i = some e ∧ e.state = 0 ∧ e.waiters = [] ∧ e.gen = r.gen) ∧ (∀ w ∈ r.waiters, msgOf t w = none) ∧
        t.regn.clock = s.regn.clock + 1))

/-- No publish of the node's own waits to be sent, none is of the line, and no check waits for the line. -/
def LineQuiet (s : State) (l : Nat) : Prop :=
  (∀ p ∈ s.ledg.pubs, p.sent = true ∧ p.line ≠ l) ∧ ∀ p ∈ s.msgs, p.2.phase ≠ .waitLine l

/-- The ledger has nothing due: no line is on its way to a hub, no source waits for its descriptor, no publish of the node's own
waits to be sent. -/
def NothingDue (s : State) : Prop :=
  (∀ p ∈ s.ledg.pubs, p.sent = true) ∧ (∀ p ∈ s.ledg.dir, p.2.state ≠ .arriving) ∧
  ∀ x ∈ s.ledg.moves, x.dest = true ∨ x.step ≠ 9

/-- No line of any directory but one has changed. -/
def OtherLines (s t : State) (h l : Nat) : Prop := ∀ k, k ≠ (h, l) → aget t.ledg.dir k = aget s.ledg.dir k

/-- A ledger request that its home takes up: the line, and the hub whose directory serves it. -/
def AtHome (s : State) (msg : Nat) (op : Opcode) (m : Msg) (l h : Nat) : Prop :=
  mayStart s msg op = some m ∧ m.resp = false ∧ l = fld m.be m.payload 8 8 ∧ earlierAtLine s msg l = false ∧
  servedHome s m l = some h

/-- The checks of a publish on what its home holds. -/
def PubChecked (s : State) (m : Msg) (l version : Nat) (old : List Byte) : Option Status :=
  pubCheck s ⟨m.tenant, m.endpoint, operatorRole s m⟩ (fld m.be m.payload 0 1 % 16) l version (fld m.be m.payload 16 8) old
    (takeBytes m.payload 24 64)

/-- Status of a read of an entry: one never published has no content. -/
def readStatus (e : DirEntry) : Status := if e.version = 0 then .notFound else .ok

/-- A directory entry after step 5 of a publish. -/
def written (e : DirEntry) (content : List Byte) : DirEntry :=
  { e with state := .valid, version := e.version + 1, content := content, sharers := [], coarse := false, cells := [], pub := none }

/-- LEDGER_READ, LEDGER_PUBLISH, RECALL_ACK, RECALL_WAIT_EXPIRY, TRANSFER_LEASE_EXPIRY, LINE_PULL and PULL_TIMEOUT. At a
line's home, once the index has found its entry (BUSY while the entry's block rebuilds), a read of a VALID line is
answered with its version and content, NOT_FOUND at version 0, and a cached read makes the reader a sharer with the
lease of R274; a read of a line without an entry is answered NOT_FOUND, and a cached one makes an entry of version 0
with the reader as its sharer (the model's, assumption 147); a request for a line that is not VALID waits. A publish
that fails a check of R280 changes no line and is answered with that check's status. One that passes makes the line
PUBLISHING and waits while sharers are recalled; without sharers (shown for REGION lines, whose content does nothing
else at the home) the content and the next version are written, the sharers go, and OK is answered; so it is when
the last RECALL_ACK comes or a leased sharer is passed over, while a holder that does not answer refuses a plain
publish with BUSY. An expired transfer lease starts the abort that R288 describes. A pull makes an ARRIVING entry;
when the old home is absent the line becomes VALID without content and LINES_LOST counts it. Every other line
stands. -/
def Obligations.LinesAtTheirHome : Prop :=
  (∀ (msg l h : Nat) (m : Msg) (c : Bool) (s v : State), AtHome s msg .ledgerRead m l h → LineQuiet s l → NothingDue s →
    fld m.be m.payload 0 1 % 16 = 1 → (bit1 (fld m.be m.payload 1 1) 1 && decide (m.tenant = 0) && ! viaPcie m) = false →
    c = (bit1 (fld m.be m.payload 1 1) 0 && ! viaPcie m) → Completes (.ledgerRead msg) s fun t =>
      (∀ e hold, findLine s h l = (v, .ok (some e)) → e.state = .valid → hold = holderCopy v l e.content m.endpoint →
        ∃ u, t = answer u msg .ledgerRead (readStatus e) 0 (ledgerReadResp m.be (readStatus e)
            (if c ∧ ¬ hold then rget v .ledger_lease_us h 0 else 0) e.version l e.content) ∧
          dirOf u h l = some (if c then { addSharer e m.endpoint with grantTime := if hold then e.grantTime else homeNow v h }
            else e) ∧ OtherLines s u h l ∧ u = { v with ledg := { v.ledg with dir := u.ledg.dir } }) ∧
      (∀ e, findLine s h l = (v, .ok (some e)) → e.state ≠ .valid → t = setPhase v msg (.waitHome l)) ∧
      (∀ st, findLine s h l = (v, .error st) → t = answer v msg .ledgerRead st 0 (ledgerReadResp m.be st 0 0 l [])) ∧
      (findLine s h l = (v, .ok none) → oldHome v l = none → c = false →
        t = answer v msg .ledgerRead .notFound 0 (ledgerReadResp m.be .notFound 0 0 l [])) ∧
      (∀ u, findLine s h l = (v, .ok none) → oldHome v l = none → c = true →
        newEntry v h l .valid v.ledg.newest 0 (zeros 64) = (u, true) → OtherLines s t h l ∧ msgOf t msg = none ∧
        ∃ e, dirOf t h l = some e ∧ e.state = .valid ∧ e.version = 0 ∧ e.sharers = [m.endpoint])) ∧
  (∀ (msg l h : Nat) (m : Msg) (e : DirEntry) (content : List Byte) (s v : State), AtHome s msg .ledgerPublish m l h →
    LineQuiet s l → NothingDue s → findLine s h l = (v, .ok (some e)) → e.state = .valid → content = takeBytes m.payload 24 64 →
    Completes (.ledgerPublish msg) s fun t =>
      (∀ st, PubChecked v m l e.version e.content = some st → t.ledg = s.ledg ∧ msgOf t msg = none ∧ t.mem = s.mem ∧
        (st ≠ .conflict → t = answer (setPhase v msg (.waitHome l)) msg .ledgerPublish st 0 (ledgerPubResp m.be st 0 0 l))) ∧
      (PubChecked v m l e.version e.content = none → recallTargets v e ≠ [] →
        dirOf t h l = some { e with
          state := .publishing, pub := some ⟨msg, homeNow v h, pubKind l e.content content, content, recallTargets v e⟩ } ∧
        OtherLines s t h l ∧ (msgOf t msg).map (·.phase) = some (.waitHome l) ∧ t.mem = s.mem) ∧
      (PubChecked v m l e.version e.content = none → recallTargets v e = [] → lineKind l = lkRegion → blank content = false →
        dirOf t h l = some (written e content) ∧ OtherLines s t h l ∧ t.mem = s.mem ∧ t.seqs = s.seqs ∧
        rget t .ledger_PUBLISHES h 0 = min (rget v .ledger_PUBLISHES h 0 + 1) (2 ^ Reg.ledger_PUBLISHES.width - 1) ∧
        ∃ u w, u.fab = (setPhase v msg (.waitHome l)).fab ∧ u.out = s.out ∧ u.msgs = (setPhase v msg (.waitHome l)).msgs ∧
          w = answer u msg .ledgerPublish .ok 0 (ledgerPubResp m.be .ok 0 (e.version + 1) l) ∧
          t.fab = w.fab ∧ t.out = w.out ∧ t.msgs = (wakeHome w l).msgs)) ∧
  (∀ (msg l h : Nat) (m : Msg) (st : Status) (s v : State), AtHome s msg .ledgerPublish m l h →
    findLine s h l = (v, .error st) → Completes (.ledgerPublish msg) s fun t =>
      t = answer v msg .ledgerPublish st 0 (ledgerPubResp m.be st 0 0 l)) ∧
  (∀ (msg l h : Nat) (m : Msg) (e : DirEntry) (s v : State), AtHome s msg .ledgerPublish m l h →
    findLine s h l = (v, .ok (some e)) → e.state ≠ .valid → Completes (.ledgerPublish msg) s fun t =>
      t = setPhase v msg (.waitHome l)) ∧
  (∀ (msg l h : Nat) (m : Msg) (content : List Byte) (s u v : State), AtHome s msg .ledgerPublish m l h → LineQuiet s l →
    NothingDue s → findLine s h l = (v, .ok none) → dirOf s h l = none → oldHome v l = none → content = takeBytes m.payload 24 64 →
    lineKind l = lkRegion → blank content = false → PubChecked v m l 0 (zeros 64) = none →
    newEntry (setPhase v msg (.waitHome l)) h l .valid v.ledg.newest 0 (zeros 64) = (u, true) →
    Completes (.ledgerPublish msg) s fun t =>
      (∃ e, dirOf t h l = some e ∧ e.state = .valid ∧ e.version = 1 ∧ e.content = content ∧ e.sharers = [] ∧ e.lineId = l) ∧
      OtherLines s t h l ∧ msgOf t msg = none ∧ t.mem = s.mem) ∧
  (∀ (msg l v h : Nat) (m : Msg) (e : DirEntry) (p : Publish) (s : State), msgOf s msg = some m → m.opcode = .recallAck →
    m.phase = .arrived → l = fld m.be m.payload 8 8 → v = fld m.be m.payload 16 8 → LineQuiet s l → NothingDue s → dirOf s h l = some e →
    e.pub = some p → (s.ledg.dir.find? fun x => decide (x.1.2 = l) && decide (x.2.version + 1 = v) && x.2.pub.isSome) = some ((h, l), e) →
    Completes (.recallAck msg) s fun t =>
      msgOf t msg = none ∧
      (p.waiting.filter (fun x => decide (x ≠ m.endpoint)) ≠ [] →
        dirOf t h l = some { e with pub := some { p with waiting := p.waiting.filter fun x => decide (x ≠ m.endpoint) } } ∧
        OtherLines s t h l ∧ t.mem = s.mem) ∧
      (p.waiting.filter (fun x => decide (x ≠ m.endpoint)) = [] → p.kind = .plain → lineKind l = lkRegion → blank p.content = false →
        dirOf t h l = some (written e p.content) ∧ OtherLines s t h l ∧ msgOf t p.msg = none ∧ t.mem = s.mem)) ∧
  (∀ (h : Hub) (l sharer : Nat) (e : DirEntry) (p : Publish) (s : State), dirOf s h l = some e → e.pub = some p →
    p.waiting.contains sharer = true → LineQuiet s l → NothingDue s → Completes (.recallWaitExpiry h l sharer) s fun t =>
      recallDue s h l e p sharer ≤ homeNow t h ∧
      (holderCopy s l e.content sharer = true → p.kind = .plain → lineKind l ≠ lkMap →
        dirOf t h l = some { e with state := .valid, pub := none } ∧ msgOf t p.msg = none ∧ OtherLines s t h l ∧ t.mem = s.mem) ∧
      (holderCopy s l e.content sharer = false → p.waiting.filter (fun x => decide (x ≠ sharer)) ≠ [] →
        dirOf t h l = some { e with pub := some { p with waiting := p.waiting.filter fun x => decide (x ≠ sharer) } } ∧
        OtherLines s t h l ∧ t.msgs = s.msgs ∧ t.mem = s.mem)) ∧
  (∀ (h : Hub) (l : Nat) (e : DirEntry) (o : Owner) (s : State), dirOf s h l = some e → o = Owner.parse e.content →
    NothingDue s → Completes (.transferLeaseExpiry h l) s fun t =>
      ((lineKind l ≠ lkOwner ∨ e.state ≠ .valid ∨ o.transfer = false ∨ e.leaseEnd = 0) → t = s) ∧
      (lineKind l = lkOwner → e.state = .valid → o.transfer = true → e.leaseEnd ≠ 0 → recallTargets s e ≠ [] →
        (∃ at_, dirOf t h l = some { e with
          state := .publishing, pub := some ⟨0, at_, .abort,
            { o with transfer := false, gen := (o.gen + 1) % 2 ^ 32, target := 0, lease := 0, key := 0 }.bytes,
            recallTargets s e⟩ }) ∧ e.leaseEnd ≤ homeNow t h ∧ OtherLines s t h l ∧ t.mem = s.mem)) ∧
  (∀ (h : Hub) (l ep : Nat) (s : State), lineHome s s.ledg.newest l = some (ep, (h : Nat)) → isOwn s ep = true →
    Completes (.linePull h l) s fun t =>
      ((∃ e, dirOf s h l = some e) → t = s) ∧
      (∀ v, startPull s h l = (v, true) → t = v ∧ OtherLines s t h l ∧
        ∃ e, dirOf t h l = some e ∧ e.state = .arriving ∧ e.version = 0 ∧ e.homeEpoch = s.ledg.newest)) ∧
  (∀ (h : Hub) (l : Nat) (e : DirEntry) (s : State), dirOf s h l = some e → e.state = .arriving → LineQuiet s l →
    Completes (.pullTimeout h l) s fun t =>
      ((∀ ep x, oldHome s l = some (ep, x) → isMember s ep = false) →
        dirOf t h l = some { e with state := .valid } ∧ OtherLines s t h l ∧ t.mem = s.mem ∧ (∀ r ∈ t.ledg.reads, r.line ≠ l) ∧
        rget t .ledger_LINES_LOST h 0 = min (rget s .ledger_LINES_LOST h 0 + 1) (2 ^ Reg.ledger_LINES_LOST.width - 1)) ∧
      (∀ ep x, oldHome s l = some (ep, x) → isMember s ep = true → t.ledg = s.ledg ∧ t.msgs = s.msgs))

/-- A response that answers a request of the node's own. -/
def Answers (s : State) (msg : Nat) (op : Opcode) (m : Msg) (id : Nat) (c : Conn) (a : Ask) : Prop :=
  respMsg s msg op = some m ∧ (∃ h q, m.origin = .conn h id q) ∧ connOf s id = some c ∧
  c.asked.find? (fun a => decide (a.seq = some m.replyTo)) = some a

/-- No copy of a line but one has changed. -/
def OtherCopies (s t : State) (l : Nat) : Prop := ∀ j, j ≠ l → aget t.ledg.copies j = aget s.ledg.copies j

/-- RECALL, LEASE_EXPIRY, LEDGER_READ_RESPONSE and LEDGER_PUBLISH_RESPONSE: the node's own copies and publishes. A
RECALL of a line the node does not live by discards its copy below the recalled version, keeps a newer one,
remembers the version for a read that is outstanding and is answered at once with its line and version, held or not.
A lease that ends takes its copy away. The answer to a read of the node's own installs the version and content it
brought, with its lease from the sending of the read, and the read is no longer outstanding; an answer older than a
RECALL's version is not installed. a read that fails ends with the checks that wait for it, and one the node lives
by stays outstanding. After the answer to a publish of the node's own the line is read again, for the publish made
no sharer of the node, and no copy of it stands till then. Every other line's copy stands and memory stands (lines
of kind REGION, whose content does nothing else here). -/
def Obligations.LinesTheNodeHolds : Prop :=
  (∀ (msg l v : Nat) (m : Msg) (s : State), mayStart s msg .recall = some m → l = fld m.be m.payload 8 8 →
    v = fld m.be m.payload 16 8 → rereads l = false → Completes (.recall msg) s fun t =>
      (∃ u, u = { s with ledg := u.ledg } ∧ t = answer u msg .recallAck .ok 0 (recallBytes m.be l v)) ∧
      (∀ c, aget s.ledg.copies l = some c → aget t.ledg.copies l = if c.version < v then none else some c) ∧
      (aget s.ledg.copies l = none → aget t.ledg.copies l = none) ∧ OtherCopies s t l ∧
      (∀ r ∈ s.ledg.reads, r.line = l → agetD t.ledg.floors l 0 = max v (agetD s.ledg.floors l 0)) ∧
      t.ledg.dir = s.ledg.dir ∧ t.mem = s.mem) ∧
  (∀ (l : Nat) (c : LineCopy) (s : State), aget s.ledg.copies l = some c → Completes (.leaseExpiry l) s fun t =>
      (c.lease = none → t = s) ∧
      (∀ h e, c.lease = some (h, e) → aget t.ledg.copies l = none ∧ now t h = max (now s h) e ∧ OtherCopies s t l ∧
        t = { s with ledg := { s.ledg with copies := t.ledg.copies }, life := t.life })) ∧
  (∀ (msg l v id : Nat) (m : Msg) (c : Conn) (a : Ask) (r : LineRead) (st : Status) (s : State),
    Answers s msg .ledgerRead m id c a → l = fld m.be m.payload 16 8 → v = fld m.be m.payload 8 8 → lineKind l = lkRegion →
    LineQuiet s l → NothingDue s → s.ledg.reads.filter (fun r => decide (r.line = l)) = [r] → (∀ h, r.why ≠ .pull h) →
    Status.ofCode (fld m.be m.payload 1 1) = some st → Completes (.ledgerReadResponse msg) s fun t =>
      msgOf t msg = none ∧ t.mem = s.mem ∧ OtherCopies s t l ∧
      (st ≠ .ok → st ≠ .notFound → aget t.ledg.copies l = aget s.ledg.copies l ∧
        t.ledg.reads = s.ledg.reads.filter fun x => decide (x.line ≠ l) || ! x.why.checks) ∧
      ((st = .ok ∨ st = .notFound) → v < agetD s.ledg.floors l 0 → aget t.ledg.copies l = aget s.ledg.copies l) ∧
      ((st = .ok ∨ st = .notFound) → agetD s.ledg.floors l 0 ≤ v →
        aget t.ledg.copies l = some ⟨v, takeBytes m.payload 24 64,
          if fld m.be m.payload 2 2 = 0 then none else some (r.hub, r.at_ + fld m.be m.payload 2 2 * 1000)⟩ ∧
        (∀ x ∈ t.ledg.reads, x.line ≠ l) ∧
        (c.state = .open_ → m.units = 0 → connOf t id = some { c with asked := c.asked.erase a }))) ∧
  (∀ (msg l id : Nat) (m : Msg) (c : Conn) (a : Ask) (p : OwnPub) (s : State),
    Answers s msg .ledgerPublish m id c a → l = fld m.be m.payload 16 8 → lineKind l = lkRegion →
    s.ledg.pubs.find? (fun p => decide (p.line = l)) = some p → NothingDue s →
    moveOf s (l % 2 ^ 62) true = none → Completes (.ledgerPublishResponse msg) s fun t =>
      msgOf t msg = none ∧ (∀ q ∈ t.ledg.pubs, q.line ≠ l) ∧ OtherCopies s t l ∧ t.mem = s.mem ∧ t.seqs = s.seqs ∧
      aget t.ledg.copies l = none ∧ (∀ x, lineHome s s.ledg.newest l = some x → ∃ r ∈ t.ledg.reads, r.line = l))

/-- EXTENT_DRAIN_EXPIRY, EXTENT_SCRUB_COMPLETE, MAP_ADOPT, EPOCH_WAIT_EXPIRY and UNIT_RETURN. When the drain of a
CLOSING extent ends, the local time of its slice's home hub has reached drain_us, and it scrubs, its slots freed; an
extent that is not CLOSING stands. A scrub that is complete, with no BUFFER left in the extent, queues the publish
of CLOSING to FREE with the next generation and no tenant, over the version the node knows. A map that has been read
becomes newest, and the newest previous, once no request is in flight under the previous epoch, and a newer map that
has been read whole waits in its turn; else nothing happens. A request that waited epoch_wait_us for a newer map is
refused BUSY and leaves the queue. A returning unit goes from in service to QUARANTINED with the next unit
generation, to VERIFYING, and in service again once no line is left to verify; a hub's Chive blocks are then
rebuilt, and a node whose newest epoch is not the one it left with drops its directory. -/
def Obligations.ExtentsMapsAndUnits : Prop :=
  (∀ (k : Slice) (e : Nat) (x : Extent) (s : State), x = extentSt s k e → Completes (.extentDrainExpiry k e) s fun t =>
      ((x.state ≠ .closing ∨ x.scrubbing = true) → t = s) ∧
      (x.state = .closing → x.scrubbing = false → x.drainEnd ≤ now t (homeHub s k) ∧
        extentSt t k e = { x with scrubbing := true } ∧ t.ledg.dir = s.ledg.dir) ∧
      (x.state = .closing → x.scrubbing = false → s.merge.ctxs = [] → (∀ p ∈ s.regn.regions, p.2.kind = rkBuffer → p.2.state = 0) →
        s.dill.snaps = [] →
        (∀ lpn, lpnSlice lpn = k → lpnExtent lpn = e → aget t.mem.slots lpn = none) ∧
        (∀ lpn, (lpnSlice lpn ≠ k ∨ lpnExtent lpn ≠ e) → aget t.mem.slots lpn = aget s.mem.slots lpn) ∧
        t = { s with mem := t.mem, ledg := t.ledg, life := t.life })) ∧
  (∀ (k : Slice) (e : Nat) (x : Extent) (s : State), x = extentSt s k e → Completes (.extentScrubComplete k e) s fun t =>
      ((x.state ≠ .closing ∨ x.scrubbing = false ∨ extentBuffers s k e ≠ []) → t = s) ∧
      (∀ l ep h, x.state = .closing → x.scrubbing = true → extentBuffers s k e = [] → s.ledg.pubs = [] → NothingDue s →
        l = extentLine (nodeEndpoint s) k e →
        lineHome s s.ledg.newest l = some (ep, h) → isOwn s ep = false →
        t.ledg.pubs = [⟨l, ExtLine.bytes ⟨1, 0, 0, (x.gen + 1) % 2 ^ 32, 0⟩, ((heldContent s l).map (·.1)).getD 0, true⟩] ∧ t.mem = s.mem ∧ t.ledg.exts = s.ledg.exts)) ∧
  (∀ (n : Nat) (s : State), n = s.ledg.pendEpoch → Completes .mapAdopt s fun t =>
      ((n = 0 ∨ s.ledg.previous ≠ 0 ∧ 0 < inflightAll s s.ledg.previous) → t = s) ∧
      (n ≠ 0 → (s.ledg.previous = 0 ∨ inflightAll s s.ledg.previous = 0) →
        t.ledg.newest = n ∧ t.ledg.previous = s.ledg.newest ∧ t.ledg.pendEpoch = nextPending t ∧
        t.ledg.maps = s.ledg.maps.filter (fun p => decide (p.1 = n) || decide (p.1 = s.ledg.newest) || serialLt 16 n p.1) ∧ t.mem = s.mem)) ∧
  (∀ (msg : Nat) (m : Msg) (s : State), msgOf s msg = some m → Completes (.epochWaitExpiry msg) s fun t =>
      (m.phase ≠ .waitEpoch → t = s) ∧
      (m.phase = .waitEpoch → msgOf t msg = none ∧ t.mem = s.mem ∧ t.ledg = s.ledg ∧
        m.at_ + rget s .ledger_epoch_wait_us m.hub 0 * 1000 ≤ now t m.hub)) ∧
  (∀ (k : Slice) (s : State), Completes (.unitReturn (.slice k)) s fun t =>
      ((sliceSt s k).unitSt = .inService →
        sliceSt t k = { sliceSt s k with unitGen := ((sliceSt s k).unitGen + 1) % 2 ^ 32, unitSt := .quarantined } ∧
        (∀ j, j ≠ (k : Nat) → sliceSt t j = sliceSt s j) ∧ t = { s with life := t.life }) ∧
      ((sliceSt s k).unitSt = .quarantined → sliceSt t k = { sliceSt s k with unitSt := .verifying } ∧ t.mem = s.mem) ∧
      ((sliceSt s k).unitSt = .verifying → s.ledg.verify ≠ [] → t = s) ∧
      ((sliceSt s k).unitSt = .verifying → s.ledg.verify = [] → sliceSt t k = { sliceSt s k with unitSt := .inService } ∧
        (∀ j, j ≠ (k : Nat) → sliceSt t j = sliceSt s j))) ∧
  (∀ (h : Hub) (s : State), Completes (.unitReturn (.hub h)) s fun t =>
      ((hubSt s h).unitSt = .inService →
        hubSt t h = { hubSt s h with unitGen := ((hubSt s h).unitGen + 1) % 2 ^ 32, unitSt := .quarantined }) ∧
      ((hubSt s h).unitSt = .quarantined → hubSt t h = { hubSt s h with unitSt := .verifying }) ∧
      ((hubSt s h).unitSt = .verifying → hubSt t h = { hubSt s h with unitSt := .inService } ∧
        ∀ p ∈ s.chive.shadow, p.1.1 = (h : Nat) → ((h : Nat), p.1.2 / 16) ∈ t.chive.rebuild) ∧
      (∀ j, j ≠ (h : Nat) → hubSt t j = hubSt s j) ∧ t.mem = s.mem ∧ t.seqs = s.seqs) ∧
  (∀ (s : State), Completes (.unitReturn .node) s fun t =>
      (s.life.nodeUnit = .inService → t.life.nodeGen = (s.life.nodeGen + 1) % 2 ^ 32 ∧ t.life.nodeUnit = .quarantined ∧
        t = { s with life := t.life }) ∧
      (s.life.nodeUnit = .quarantined → t.life.nodeUnit = .verifying ∧ t.ledg.copies = [] ∧ t.mem = s.mem) ∧
      (s.life.nodeUnit = .verifying → s.ledg.verify ≠ [] → t = s) ∧
      (s.life.nodeUnit = .verifying → s.ledg.verify = [] → t.life.nodeUnit = .inService ∧ t.life.nodeGen = s.life.nodeGen ∧
        (s.ledg.newest ≠ s.life.leftEpoch → t.ledg.dir = [])))

/-- A lane of a slice. -/
def laneAt (s : State) (k n : Nat) : Machine.Lane := agetD (dillOf s k).lanes n lane0

/-- A segment of the command of a slot runs in a slice, whose dispatcher has no scan to write a slot for. -/
def Segment (s : State) (k i : Nat) : Prop := (dillOf s k).segment = true ∧ (dillOf s k).cur = some i ∧ issueHeld s k = s

/-- No ATTEND's scan waits in a slice. -/
def NoScans (s : State) (k : Nat) : Prop := ∀ p ∈ s.merge.held, p.die ≠ k

/-- The next instruction follows: of the sequencer only the lanes have changed besides, and of the node nothing else. -/
def NextInstr (s t : State) (k : Nat) : Prop :=
  dillOf t k = { dillOf s k with pc := (dillOf s k).pc + 1, lanes := (dillOf t k).lanes } ∧
  (∀ j, j ≠ k → dillOf t j = dillOf s j) ∧
  t = { s with dill := { s.dill with eng := t.dill.eng }, mem := t.mem, freeCtr := t.freeCtr }

/-- Every active lane has changed by a function, and no other. -/
def EachLane (s t : State) (k : Nat) (f : Machine.Lane → Machine.Lane) : Prop :=
  ∀ n, n < 16 → laneAt t k n = if (laneAt s k n).active then f (laneAt s k n) else laneAt s k n

/-- Every active lane has written one scalar register, and nothing else. -/
def PutsScalar (s t : State) (k sd : Nat) (v : Nat → BitVec 32) : Prop :=
  ∀ n, n < 16 →
    ((laneAt s k n).active = false → laneAt t k n = laneAt s k n) ∧
    ((laneAt s k n).active = true → laneAt t k n = { laneAt s k n with s := (laneAt t k n).s } ∧
      (laneAt t k n).sget sd = (if sd = 0 then 0#32 else v n) ∧ ∀ r, r ≠ sd → (laneAt t k n).sget r = (laneAt s k n).sget r)

/-- The command of a slot has ended in FAULT with a code, its status and the pc. -/
def Faulted (s t : State) (k i code : Nat) (st : Status) : Prop :=
  (cmdOf (dillOf t k) i).state = .fault ∧ (cmdOf (dillOf t k) i).faultCode = code ∧ (cmdOf (dillOf t k) i).status = st.code ∧
  (cmdOf (dillOf t k) i).faultPc = (dillOf s k).pc

/-- A lane after a load of it has completed: the buffer holds the bytes of memory, the CRC covers them. -/
def loadedLane (s : State) (k : Nat) (l : Machine.Lane) (x : Load) : Machine.Lane :=
  let b := peek s (dieBase k + x.addr) x.len
  let l := { l with loads := l.loads.erase x }.bufPut x.buf x.off b
  if x.crc then { l with crc := crcMore l.crc b } else l

/-- No structure of the node's own stands in a range of a die. -/
def PlainRange (s : State) (k a n : Nat) : Prop := recordIn s (dieBase k + a) n = false

/-- A lane after a memory instruction has stored bytes, into the CRC where asked. -/
def crcLane (l : Machine.Lane) (crc : Bool) (b : List Byte) : Machine.Lane := if crc then { l with crc := crcMore l.crc b } else l

/-- Lane n is the only active lane of the running command. -/
def OnlyLane (s : State) (k i n : Nat) (l : Machine.Lane) (c : CmdSlot) : Prop :=
  Segment s k i ∧ n < 16 ∧ laneAt s k n = l ∧ l.active = true ∧ (∀ m, m < 16 → m ≠ n → (laneAt s k m).active = false) ∧
  cmdOf (dillOf s k) i = c

/-- MOVI, AADD, CFG, SALU, SFPU, CRCCHK and WAITL in every active lane. In each active lane of the running command MOVI,
SALU and SFPU write sd and no other register, where s0 reads zero whatever is written: MOVI the immediate, SALU and
SFPU the result of R153 (sum, difference, product, logic, shift by less than 32, signed minimum, maximum and less-
than; FP32 to nearest even that is no NaN); where the spec states no result the register is written with a free
value and all else is the same. AADD adds the signed immediate to an address register, CFG sets the geometry. CRCCHK
clears the accumulated CRC where it equals sa in every active lane, and else the command ends in FAULT with code 5,
status DAMAGED and the pc. WAITL without outstanding loads changes no lane; with one, its bytes come to the buffer.
Inactive lanes, memory and other slices stand, and the next instruction follows. -/
def Obligations.LanesComputeScalars : Prop :=
  (∀ (k : Slice) (i : Nat) (f : FmtS) (s : State), Segment s k i →
    Completes (.movi k f) s (fun t => NextInstr s t k ∧ PutsScalar s t k f.sd (fun _ => f.imm32) ∧ t.mem = s.mem ∧
      t.freeCtr = s.freeCtr) ∧
    Completes (.aadd k f) s (fun t => NextInstr s t k ∧ t.mem = s.mem ∧ t.freeCtr = s.freeCtr ∧
      EachLane s t k fun l => l.aset f.sd (l.aget f.sa + BitVec.ofInt 48 f.imm32.toInt)) ∧
    Completes (.cfg k f) s (fun t => NextInstr s t k ∧ t.mem = s.mem ∧ t.freeCtr = s.freeCtr ∧
      EachLane s t k fun l => { l with geom := f.imm32 }) ∧
    Completes (.salu k f) s (fun t => NextInstr s t k ∧ t.mem = s.mem ∧ ∃ v, PutsScalar s t k f.sd v ∧
      ∀ n r, saluRes f.func ((laneAt s k n).sget f.sa) ((laneAt s k n).sget f.sb) = some r → v n = r) ∧
    Completes (.sfpu k f) s (fun t => NextInstr s t k ∧ t.mem = s.mem ∧ ∃ v, PutsScalar s t k f.sd v ∧
      ∀ n r, sfpuRes f.func ((laneAt s k n).sget f.sa) ((laneAt s k n).sget f.sb) = some r → v n = r)) ∧
  (∀ (k : Slice) (i : Nat) (f : FmtS) (s : State), Segment s k i → NoScans s k → ((dillOf s k).slots.map (·.1)).Nodup →
    (∀ n, n < 16 → (laneAt s k n).active = true → (laneAt s k n).loads.filter (fun x => x.crc) = []) →
    Completes (.crcchk k f) s fun t => t.mem.cells = s.mem.cells ∧
      ((∀ n, n < 16 → (laneAt s k n).active = true → (laneAt s k n).crc = (laneAt s k n).sget f.sa) →
        NextInstr s t k ∧ EachLane s t k fun l => { l with crc := 0#32 }) ∧
      (∀ n, n < 16 → (laneAt s k n).active = true → (laneAt s k n).crc ≠ (laneAt s k n).sget f.sa → Faulted s t k i 5 .damaged)) ∧
  (∀ (k : Slice) (i : Nat) (f : FmtS) (s : State), Segment s k i →
    (∀ n, n < 16 → (laneAt s k n).active = true → (laneAt s k n).loads = []) →
    Completes (.waitl k f) s fun t => NextInstr s t k ∧ EachLane s t k (fun l => l) ∧ t.mem = s.mem ∧ t.freeCtr = s.freeCtr) ∧
  (∀ (k : Slice) (i n : Nat) (l : Machine.Lane) (c : CmdSlot) (x : Load) (f : FmtS) (s : State), OnlyLane s k i n l c →
    l.loads = [x] → s.mem.chk = [] → PlainRange s k x.addr x.len →
    Completes (.waitl k f) s fun t => NextInstr s t k ∧ laneAt t k n = loadedLane s k l x ∧ t.mem.cells = s.mem.cells)

/-- Lane n has changed, the next instruction follows, and of the node at most memory has changed besides. -/
def LaneStep (s t : State) (k n : Nat) (l : Machine.Lane) : Prop :=
  NextInstr s t k ∧ t.freeCtr = s.freeCtr ∧ laneAt t k n = l ∧ ∀ m, m < 16 → m ≠ n → laneAt t k m = laneAt s k m

/-- Bytes stand at an address, and every other byte of memory is as before. -/
def Stored (s t : State) (a : Nat) (b : List Byte) : Prop :=
  (∀ j, j < b.length → byteAt t (a + j) = b.getD j 0#8) ∧ (∀ x, x < a ∨ a + b.length ≤ x → byteAt t x = byteAt s x) ∧
  t.mem.chk = []

/-- A lane that a memory instruction runs in, without outstanding loads, in memory without deviating check bits. -/
def QuietLane (s : State) (k i n : Nat) (l : Machine.Lane) (c : CmdSlot) : Prop :=
  OnlyLane s k i n l c ∧ l.loads = [] ∧ s.mem.chk = []

/-- VLD, VLD_COMPLETE, VST, SLD, SST and REMIT: loads and stores of a lane. Shown for a command with one active lane, in
memory without deviating check bits and without structures of the node's own. VLD of an aligned range inside its
buffer and the command's read windows becomes an outstanding load; its completion brings the bytes of memory to the
buffer and, where asked, into the CRC, and changes no byte of memory. VST stores the buffer's bytes, SST the four
bytes of a register and REMIT the G records of OB, each at its address and nowhere else, and where asked into the
CRC. SLD brings the word at its address, or a parameter word, to sd; SST to result space writes the command's result
word. A misaligned address faults with code 6, an address outside the windows with code 1, and no byte of memory
changes. -/
def Obligations.LanesLoadAndStore : Prop :=
  (∀ (k : Slice) (i n a : Nat) (l : Machine.Lane) (c : CmdSlot) (f : FmtM) (s : State), QuietLane s k i n l c → a = mAddr l f →
    a % 16 = 0 → f.boff16 * 16 + f.len16 * 16 ≤ bufSize f.buf →
    (permitted s k c false a (f.len16 * 16) = true → Completes (.vld k f) s fun t =>
      LaneStep s t k n { l with loads := [⟨f.buf, f.boff16 * 16, f.len16 * 16, a, f.crc⟩] } ∧ t.mem = s.mem) ∧
    (∀ b, permitted s k c true a (f.len16 * 16) = true → l.bufGet f.buf (f.boff16 * 16) (f.len16 * 16) = some b →
      PlainRange s k a b.length → Completes (.vst k f) s fun t =>
        LaneStep s t k n (crcLane l f.crc b) ∧ Stored s t (dieBase k + a) b)) ∧
  (∀ (k : Slice) (i n a : Nat) (l : Machine.Lane) (c : CmdSlot) (f : FmtM) (s : State), QuietLane s k i n l c → a = mAddr l f →
    a % 16 = 0 → f.boff16 * 16 + l.geo.g * recSize true l.geo.d ≤ bufSize 4 →
    permitted s k c true a (l.geo.g * recSize true l.geo.d) = true → PlainRange s k a (l.geo.g * recSize true l.geo.d) →
    Completes (.remit k f) s fun t =>
      LaneStep s t k n (crcLane l f.crc (readCells l.ob (f.boff16 * 16) (l.geo.g * recSize true l.geo.d))) ∧
      Stored s t (dieBase k + a) (readCells l.ob (f.boff16 * 16) (l.geo.g * recSize true l.geo.d))) ∧
  (∀ (k : Slice) (n : Sys2Proof.Lane) (i : Nat) (l : Machine.Lane) (x : Load) (xs : List Load) (s : State),
    (dillOf s k).cur = some i → l = laneAt s k n → l.loads = x :: xs → s.mem.chk = [] →
    PlainRange s k x.addr x.len → Completes (.vldComplete k n) s fun t => laneAt t k n = loadedLane s k l x ∧ t.mem.cells = s.mem.cells ∧
      (∀ m, m ≠ (n : Nat) → laneAt t k m = laneAt s k m) ∧ dillOf t k = { dillOf s k with lanes := (dillOf t k).lanes }) ∧
  (∀ (k : Slice) (i n a : Nat) (l : Machine.Lane) (c : CmdSlot) (f : FmtS) (s : State), QuietLane s k i n l c →
    a = (l.aget f.sa + f.imm32.setWidth 48).toNat → f.func ≠ 1 → a % 16 = 0 → PlainRange s k a 4 →
    (permitted s k c false a 4 = true → Completes (.sld k f) s fun t =>
      LaneStep s t k n (l.sset f.sd (BitVec.ofNat 32 (leNat (peek s (dieBase k + a) 4)))) ∧ t.mem.cells = s.mem.cells) ∧
    (permitted s k c true a 4 = true → Completes (.sst k f) s fun t =>
      LaneStep s t k n l ∧ Stored s t (dieBase k + a) (leBytes 4 (l.sget f.sb).toNat))) ∧
  (∀ (k : Slice) (i n : Nat) (l : Machine.Lane) (c : CmdSlot) (f : FmtS) (s : State), OnlyLane s k i n l c → f.func = 1 →
    (f.imm32.toNat < 32 → Completes (.sld k f) s fun t =>
      LaneStep s t k n (l.sset f.sd (agetD c.params f.imm32.toNat 0#32)) ∧ t.mem = s.mem) ∧
    (f.imm32.toNat < 8 → Completes (.sst k f) s fun t =>
      cmdOf (dillOf t k) i = { c with results := aset c.results f.imm32.toNat (l.sget f.sb) } ∧
      (dillOf t k).pc = (dillOf s k).pc + 1 ∧ (∀ m, m < 16 → laneAt t k m = laneAt s k m) ∧
      (∀ j, j ≠ i → cmdOf (dillOf t k) j = cmdOf (dillOf s k) j) ∧ t.mem = s.mem)) ∧
  (∀ (k : Slice) (i n : Nat) (l : Machine.Lane) (c : CmdSlot) (f : FmtM) (g : FmtS) (s : State), OnlyLane s k i n l c → NoScans s k →
    ((dillOf s k).slots.map (·.1)).Nodup →
    (mAddr l f % 16 ≠ 0 → Completes (.vld k f) s (fun t => Faulted s t k i 6 .bounds ∧ t.mem.cells = s.mem.cells) ∧
      Completes (.vst k f) s (fun t => Faulted s t k i 6 .bounds ∧ t.mem.cells = s.mem.cells) ∧
      Completes (.remit k f) s (fun t => Faulted s t k i 6 .bounds ∧ t.mem.cells = s.mem.cells)) ∧
    (mAddr l f % 16 = 0 → f.boff16 * 16 + f.len16 * 16 ≤ bufSize f.buf →
      (permitted s k c false (mAddr l f) (f.len16 * 16) = false → Completes (.vld k f) s fun t =>
        Faulted s t k i 1 .bounds ∧ t.mem.cells = s.mem.cells) ∧
      (permitted s k c true (mAddr l f) (f.len16 * 16) = false → Completes (.vst k f) s fun t =>
        Faulted s t k i 1 .bounds ∧ t.mem.cells = s.mem.cells)) ∧
    (g.func ≠ 1 → (l.aget g.sa + g.imm32.setWidth 48).toNat % 16 ≠ 0 →
      Completes (.sld k g) s (fun t => Faulted s t k i 6 .bounds ∧ t.mem.cells = s.mem.cells) ∧
      Completes (.sst k g) s (fun t => Faulted s t k i 6 .bounds ∧ t.mem.cells = s.mem.cells)))

/-- A lane without outstanding loads whose page buffer holds two operands of a format L instruction. -/
def Operands (l : Machine.Lane) (f : FmtL) (src aux : Nat) (p q : List Byte) : Prop :=
  l.loads = [] ∧ f.src16 * 16 + src ≤ bufSize (b2n f.pbsel) ∧ f.aux16 * 16 + aux ≤ bufSize (b2n f.pbsel) ∧
  f.row + f.count ≤ 128 ∧ l.bufGet (b2n f.pbsel) (f.src16 * 16) src = some p ∧ l.bufGet (b2n f.pbsel) (f.aux16 * 16) aux = some q

/-- A part of an operand: that of token t where a token has n bytes. -/
def part (p : List Byte) (t n : Nat) : List Byte := (p.drop (t * n)).take n

/-- The ZB entries of the heads in columns row to row + count hold values, every other entry stands, and of the lane at
most OB has changed besides. -/
def ZbHolds (l l' : Machine.Lane) (f : FmtL) (v : Nat → Nat → Fl) : Prop :=
  l' = { l with zb := l'.zb, ob := l'.ob } ∧
  (∀ h c, h < 16 → c < 128 → l'.zget h c =
    if h < l.geo.g ∧ f.row ≤ c ∧ c < f.row + f.count then (v h (c - f.row)).1 else l.zget h c) ∧
  ((∀ h t, h < l.geo.g → t < f.count → (v h t).2 = false) → l'.ob = l.ob)

/-- Scalar registers from sreg on hold a value for each head, and nothing else has changed. -/
def HeadScalars (l l' : Machine.Lane) (f : FmtL) (v : Nat → BitVec 32) : Prop :=
  l' = { l with s := l'.s } ∧
  ∀ r, 1 ≤ r → r < 32 → l'.sget r = if f.sreg ≤ r ∧ r < f.sreg + l.geo.g then v (r - f.sreg) else l.sget r

/-- Records of OB from one on hold a value for each head, and of the lane nothing but OB has changed. -/
def RecordsHold (l l' : Machine.Lane) (first : Nat) (v : Nat → Rec) : Prop :=
  l' = { l with ob := l'.ob } ∧ ∀ h, h < l.geo.g →
    readCells l'.ob (recSize true l.geo.d * (first + h)) (recBytes false true (v h)).length = recBytes false true (v h)

/-- Running record h with count tokens' values accumulated, weighted by their ZB entries. -/
def accumulated (l : Machine.Lane) (f : FmtL) (vals : Nat → F32 → List (F32 × Fl)) (h : Nat) : Rec :=
  let r := (List.range f.count).foldl (fun r t => accum r (l.zget h (f.row + t)) (vals t)) (l.oget l.geo h)
  { r with scanned := satAdd r.scanned f.count }

/-- What BND takes a sketch as: a page of count visible tokens from the position in sreg. -/
def sketchPage (l : Machine.Lane) (f : FmtL) (q : List Byte) : SPage :=
  { lpn := 0, idx := 0, firstPos := (l.sget f.sreg).toNat, tail := false, g := ⟨l.geo.kf, l.geo.vf, 0, 0⟩, krows := [], ksc := [],
    vrows := [], vsc := [], hi := elems8 (q.take l.geo.d), lo := elems8 ((q.drop l.geo.d).take l.geo.d),
    sigma := leNat (q.drop (2 * l.geo.d)), vis := List.range f.count, err := none, verr := none }

/-- What BND takes the request as. -/
def sketchQuery (l : Machine.Lane) (c : CmdSlot) : AttQ :=
  { nb := l.geo.d / 32, dim := l.geo.d, group := l.geo.g, heads := [], scale := cmdScalar c 0, cap := cmdCap c l.geo,
    pq := cmdPos c, mode := 0, eps := 0#32, topk := 0 }

/-- DQDOT8, DQDOT4, DQDOT4C, DOTBF, FOLD, BND, BNDR, LOGIT, PMAX, EXPACC8, EXPACC4, EXPACCBF and RMERGE in a lane. Shown
for a command with one active lane whose operands are in the page buffer. The dot products of R79 of each head with
each of count tokens come to ZB at columns row on, by format, LOGIT's logits of R80 over them; all other entries
stand, and no record changes where nothing saturates. FOLD leaves the folded queries and their block scales in QB
behind the queries. BND's page bounds (R85) and BNDR's remaining mass (R88) come to the scalar registers from sreg
on, and no other. PMAX rescales each head's running record to the page maximum, EXPACC accumulates count tokens of
values into it by format and counts them (R83), RMERGE merges record row + G + h into row + h (R97). Of the lane
nothing else changes, memory and the other lanes stand, and the next instruction follows. What CFG's geometry word
and the parameter words stand for is the model's opaque choice (assumption 28). -/
def Obligations.LanesAttend : Prop :=
  (∀ (k : Slice) (i n : Nat) (l : Machine.Lane) (c : CmdSlot) (f : FmtL) (p q : List Byte) (s : State), OnlyLane s k i n l c →
    (Operands l f (f.count * l.geo.d) (f.count * (l.geo.d / 32 * 2)) p q → Completes (.dqdot8 k f) s fun t => ∃ l',
      LaneStep s t k n l' ∧ t.mem = s.mem ∧ ZbHolds l l' f fun h t =>
        dotTok (l.geo.d / 32) (l.query l.geo 0#32 h) (elems8 (part p t l.geo.d)) (halves (part q t (l.geo.d / 32 * 2)))) ∧
    (Operands l f (f.count * (l.geo.d / 2)) (f.count * (l.geo.d / 32 * 2)) p q → Completes (.dqdot4 k f) s fun t => ∃ l',
      LaneStep s t k n l' ∧ t.mem = s.mem ∧ ZbHolds l l' f fun h t =>
        dotTok (l.geo.d / 32) (l.query l.geo 0#32 h) (elems4 (part p t (l.geo.d / 2))) (halves (part q t (l.geo.d / 32 * 2)))) ∧
    (Operands l f (f.count * (l.geo.d / 2)) 0 p q → Completes (.dqdot4c k f) s fun t => ∃ l',
      LaneStep s t k n l' ∧ t.mem = s.mem ∧ ZbHolds l l' f fun h t =>
        dotFold (l.geo.d / 32) (l.folded l.geo h).1 (l.folded l.geo h).2 (elems4 (part p t (l.geo.d / 2)))) ∧
    (Operands l f (f.count * (2 * l.geo.d)) 0 p q → Completes (.dotbf k f) s fun t => ∃ l',
      LaneStep s t k n l' ∧ t.mem = s.mem ∧ ZbHolds l l' f fun h t =>
        dotBf (l.geo.d / 32) (l.query l.geo 0#32 h) (halves (part p t (2 * l.geo.d))))) ∧
  (∀ (k : Slice) (i n : Nat) (l : Machine.Lane) (c : CmdSlot) (f : FmtL) (p q : List Byte) (s : State), OnlyLane s k i n l c →
    Operands l { f with row := 0 } 0 (2 * l.geo.d) p q → Completes (.fold k f) s fun t => ∃ l',
      LaneStep s t k n l' ∧ t.mem = s.mem ∧ l' = { l with qb := l'.qb, ob := l'.ob } ∧
      (∀ x, x < 4608 → readByte l'.qb x = readByte l.qb x) ∧
      ∀ h pq py fl, h < l.geo.g → foldQ4c (l.geo.d / 32) (l.query l.geo 0#32 h) (halves q) = (pq, py, fl) →
        readCells l'.qb (4608 + 288 * h) pq.length = bytes8 pq ∧
        readCells l'.qb (4608 + 288 * h + 256) (4 * py.length) = py.flatMap fun (v : F32) => leBytes 4 v.toNat) ∧
  (∀ (k : Slice) (i n : Nat) (l : Machine.Lane) (c : CmdSlot) (f : FmtL) (p q : List Byte) (s : State), OnlyLane s k i n l c →
    (Operands l { f with row := 0 } 0 (2 * l.geo.d + 2) p q → Completes (.bnd k f) s fun t => ∃ l',
      LaneStep s t k n l' ∧ t.mem = s.mem ∧ HeadScalars l l' f fun h =>
        pageBoundWith (sketchQuery l c) (l.query l.geo (cmdSlope c l.geo h) h) (sketchPage l f q)
          (if l.geo.kf = fmtQ4C then (l.folded l.geo h).2 else [])) ∧
    (Operands l f 0 (4 * f.count) p q → Completes (.bndr k f) s fun t => ∃ l',
      LaneStep s t k n l' ∧ t.mem = s.mem ∧ HeadScalars l l' f fun h =>
        remaining (l.oget l.geo h).m ((List.range f.count).map fun i => (((words32 q).getD i 0#32).toNat, l.zget h (f.row + i))))) ∧
  (∀ (k : Slice) (i n : Nat) (l : Machine.Lane) (c : CmdSlot) (f : FmtL) (s : State), OnlyLane s k i n l c → l.loads = [] →
    f.row + f.count ≤ 128 →
    Completes (.logit k f) s (fun t => ∃ l', LaneStep s t k n l' ∧ t.mem = s.mem ∧ ZbHolds l l' f fun h t =>
      logit (cmdScalar c 0) (cmdCap c l.geo) (cmdSlope c l.geo h) (((l.sget f.sreg).toNat : Int) + t - cmdPos c)
        (l.zget h (f.row + t), false)) ∧
    Completes (.pmax k f) s (fun t => ∃ l', LaneStep s t k n l' ∧ t.mem = s.mem ∧ RecordsHold l l' 0 fun h =>
      rescale (l.oget l.geo h) ((List.range f.count).foldl (fun m t => f32Max m (l.zget h (f.row + t))) NEGINF))) ∧
  (∀ (k : Slice) (i n : Nat) (l : Machine.Lane) (c : CmdSlot) (f : FmtL) (p q : List Byte) (s : State), OnlyLane s k i n l c →
    (Operands l f (f.count * l.geo.d) (f.count * (l.geo.d / 32 * 2)) p q → Completes (.expacc8 k f) s fun t => ∃ l',
      LaneStep s t k n l' ∧ t.mem = s.mem ∧ RecordsHold l l' 0 (accumulated l f fun t w =>
        valueBytes (l.geo.d / 32) (elems8 (part p t l.geo.d)) (halves (part q t (l.geo.d / 32 * 2))) w)) ∧
    (Operands l f (f.count * (l.geo.d / 2)) (f.count * (l.geo.d / 32 * 2)) p q → Completes (.expacc4 k f) s fun t => ∃ l',
      LaneStep s t k n l' ∧ t.mem = s.mem ∧ RecordsHold l l' 0 (accumulated l f fun t w =>
        valueBytes (l.geo.d / 32) (elems4 (part p t (l.geo.d / 2))) (halves (part q t (l.geo.d / 32 * 2))) w)) ∧
    (Operands l f (f.count * (2 * l.geo.d)) 0 p q → Completes (.expaccbf k f) s fun t => ∃ l',
      LaneStep s t k n l' ∧ t.mem = s.mem ∧ RecordsHold l l' 0 (accumulated l f fun t w =>
        (halves (part p t (2 * l.geo.d))).map fun v => (f32OfBf16 v, (w, false))))) ∧
  (∀ (k : Slice) (i n : Nat) (l : Machine.Lane) (c : CmdSlot) (f : FmtL) (s : State), OnlyLane s k i n l c → l.loads = [] →
    recSize true l.geo.d * (f.row + 2 * l.geo.g) ≤ bufSize 4 → Completes (.rmerge k f) s fun t => ∃ l',
      LaneStep s t k n l' ∧ t.mem = s.mem ∧ RecordsHold l l' f.row fun h =>
        mergeRec (l.oget l.geo (f.row + h)) (l.oget l.geo (f.row + l.geo.g + h)))

/-- The sixteen lanes of a slice are listed once each, and so are its slots. -/
def Laned (s : State) (k : Nat) : Prop :=
  (dillOf s k).lanes.map (·.1) = List.range 16 ∧ ((dillOf s k).slots.map (·.1)).Nodup

/-- How often a lane is to go through a loop. -/
def loopCount (s : State) (k n : Nat) (sreg : Nat) : Nat :=
  if (laneAt s k n).active then ((laneAt s k n).sget sreg).toNat else 0

/-- Of every lane at most the counters and the active bit have changed, and the bit is what R154 says. -/
def Activated (s t : State) (k i : Nat) : Prop :=
  ∀ n, n < 16 → laneAt t k n = { laneAt s k n with lc := (laneAt t k n).lc, active := (laneAt t k n).active } ∧
    (laneAt t k n).active = (bit1 (cmdOf (dillOf s k) i).laneMask n &&
      (dillOf t k).loops.all fun fr => decide (0 < agetD (laneAt t k n).lc fr.lc 0))

/-- Of the node only the sequencer of a slice has changed, and of that only what is named. -/
def OnlyEng (s t : State) (k : Nat) : Prop :=
  (∀ j, j ≠ k → dillOf t j = dillOf s j) ∧ t = { s with dill := { s.dill with eng := t.dill.eng } }

/-- LOOP, ENDL, BRZ, HALT, YIELD, COMMAND_SLOT_ISSUE, COMMAND_CANCEL, COMMAND_SLOT_RELEASE and THROTTLE_PAUSE_END. LOOP
opens a loop with the largest count of the active lanes and sets each lane's counter to its own count, zero in an
inactive lane; a count above max_iter faults with code 2. ENDL of the innermost loop lowers every counter by one and
goes back to the body while an iteration is left, else on. After both a lane is active just where the lane mask has
it and every open loop's counter is above zero. BRZ goes to its target when sreg is zero in any active lane. HALT
ends the command DONE, with OK where the program has left result space alone and else with a free status (the
model's, assumption 155), YIELD ends a segment, counts it and invalidates the page buffers; both end under a
throttle pause at levels 1 to 7. An issuer fills a FREE slot, which is then queued or runs; a cancel ends a QUEUED
or YIELDED command in FAULT with BUSY and code 7; a DONE or FAULT slot becomes FREE, and while a segment runs a scan
that waited for a slot takes one as a QUEUED command. The end of a pause comes at its time and lets the scheduler
take the next command. (Shown where no ATTEND's scan waits in the slice, apart from that.) In every other state of
the slot these three change nothing. -/
def Obligations.CommandsRunAndEnd : Prop :=
  (∀ (k : Slice) (i : Nat) (f : FmtC) (s : State), Segment s k i → Laned s k → Completes (.loopOpen k f) s fun t =>
      ((∀ n, n < 16 → loopCount s k n f.sreg ≤ f.maxIter) → OnlyEng s t k ∧ Activated s t k i ∧
        (∀ n, n < 16 → ∀ j, agetD (laneAt t k n).lc j 0 = if j = (f.lc : Nat) then loopCount s k n f.sreg else agetD (laneAt s k n).lc j 0) ∧
        dillOf t k = { dillOf s k with
          pc := (dillOf s k).pc + 1, lanes := (dillOf t k).lanes,
          loops := ⟨f.lc, (dillOf s k).pc + 1, maxNat ((List.range 16).map fun n => loopCount s k n f.sreg)⟩ :: (dillOf s k).loops }) ∧
      (∀ n, n < 16 → f.maxIter < loopCount s k n f.sreg → Faulted s t k i 2 .bounds)) ∧
  (∀ (k : Slice) (i : Nat) (f : FmtC) (fr : LoopFrame) (rest : List LoopFrame) (s : State), Segment s k i → Laned s k →
    (dillOf s k).loops = fr :: rest → fr.lc = f.lc → Completes (.endl k f) s fun t => OnlyEng s t k ∧ Activated s t k i ∧
      (∀ n, n < 16 → ∀ j, agetD (laneAt t k n).lc j 0 = agetD (laneAt s k n).lc j 0 - if j = fr.lc then 1 else 0) ∧
      dillOf t k = { dillOf s k with
        lanes := (dillOf t k).lanes, pc := if 1 < fr.left then fr.start else (dillOf s k).pc + 1,
        loops := if 1 < fr.left then { fr with left := fr.left - 1 } :: rest else rest }) ∧
  (∀ (k : Slice) (i : Nat) (f : FmtC) (s : State), Segment s k i → Laned s k → Completes (.brz k f) s fun t =>
      OnlyEng s t k ∧
      ((∃ n, n < 16 ∧ (laneAt s k n).active = true ∧ (laneAt s k n).sget f.sreg = 0#32) →
        dillOf t k = { dillOf s k with pc := f.target }) ∧
      ((∀ n, n < 16 → (laneAt s k n).active = true → (laneAt s k n).sget f.sreg ≠ 0#32) →
        dillOf t k = { dillOf s k with pc := (dillOf s k).pc + 1 })) ∧
  (∀ (k : Slice) (i : Nat) (f g : FmtC) (s : State), Segment s k i → NoScans s k → Laned s k → inDeadLoop (dillOf s k) = false →
    Completes (.halt k f) s (fun t =>
      (cmdOf (dillOf t k) i).state = .done ∧
      ((cmdOf (dillOf s k) i).results = [] → (cmdOf (dillOf t k) i).status = Status.ok.code ∧ t.freeCtr = s.freeCtr) ∧
      ((cmdOf (dillOf s k) i).results ≠ [] → t.freeCtr = s.freeCtr + 1 ∧ ∃ st : Status, (cmdOf (dillOf t k) i).status = st.code) ∧
      (1 ≤ levelOf t k → levelOf t k ≤ 7 → (dillOf t k).pause.isSome = true ∧ (dillOf t k).segment = false ∧ (dillOf t k).cur = none) ∧
      (cmdOf (dillOf t k) i).faultCode = 0 ∧ (cmdOf (dillOf t k) i).segments = satAdd (cmdOf (dillOf s k) i).segments 1 ∧
      (cmdOf (dillOf t k) i).results = (cmdOf (dillOf s k) i).results ∧ t.mem.cells = s.mem.cells) ∧
    ((∀ n, n < 16 → (laneAt s k n).loads = []) → Completes (.yield k g) s fun t =>
      (cmdOf (dillOf t k) i).segments = satAdd (cmdOf (dillOf s k) i).segments 1 ∧ t.mem.cells = s.mem.cells ∧
      rget t .dill_SEGMENTS k 0 = min (rget s .dill_SEGMENTS k 0 + 1) (2 ^ Reg.dill_SEGMENTS.width - 1) ∧
      (1 ≤ levelOf t k → levelOf t k ≤ 7 → (dillOf t k).pause.isSome = true ∧ (dillOf t k).segment = false ∧
        (dillOf t k).cur = some i ∧ (dillOf t k).pc = (dillOf s k).pc + 1 ∧
        ∀ n, n < 16 → laneAt t k n = { laneAt s k n with pb := [] }))) ∧
  (∀ (k : Slice) (i : Nat) (f g : FmtC) (s : State), Segment s k i → inDeadLoop (dillOf s k) = true →
    Completes (.halt k f) s (fun t => OnlyEng s t k ∧ dillOf t k = { dillOf s k with pc := (dillOf s k).pc + 1 }) ∧
    Completes (.yield k g) s (fun t => OnlyEng s t k ∧ dillOf t k = { dillOf s k with pc := (dillOf s k).pc + 1 })) ∧
  (∀ (k : Slice) (i : Slot64) (c : SlotFill) (s : State), Laned s k → NoScans s k → (dillOf s k).cur ≠ some (i : Nat) →
    Completes (.commandSlotIssue k i c) s fun t =>
      ((cmdOf (dillOf s k) i).state ≠ .free → t = s) ∧
      ((cmdOf (dillOf s k) i).state = .free → t.mem = s.mem ∧ ∃ st, (st = .queued ∨ st = .running) ∧
        cmdOf (dillOf t k) i =
          { kind := b2n c.pool, program := c.program, cls := c.cls, state := st, tenant := c.tenant, laneMask := c.laneMask,
            tag := c.tag, status := 0, faultCode := 0, faultPc := 0, segments := 0, windows := c.windows,
            params := (c.params.zipIdx).map fun (v, i) => (i, v), results := [], since := (dillOf s k).clock + 1 } ∧
        ((dillOf s k).segment = true → st = .queued ∧ ∀ j, j ≠ (i : Nat) → cmdOf (dillOf t k) j = cmdOf (dillOf s k) j))) ∧
  (∀ (k : Slice) (i : Slot64) (s : State),
    Completes (.commandCancel k i) s (fun t =>
      (((cmdOf (dillOf s k) i).state = .queued ∨ (cmdOf (dillOf s k) i).state = .yielded) → OnlyEng s t k ∧
        cmdOf (dillOf t k) i = { cmdOf (dillOf s k) i with state := .fault, status := Status.busy.code, faultCode := 7 } ∧
        ∀ j, j ≠ (i : Nat) → cmdOf (dillOf t k) j = cmdOf (dillOf s k) j) ∧
      ((cmdOf (dillOf s k) i).state ≠ .queued → (cmdOf (dillOf s k) i).state ≠ .yielded → t = s)) ∧
    Completes (.commandSlotRelease k i) s (fun t =>
      (((cmdOf (dillOf s k) i).state = .done ∨ (cmdOf (dillOf s k) i).state = .fault) → ∃ u, OnlyEng s u k ∧
        cmdOf (dillOf u k) i = freeCmd ∧ (∀ j, j ≠ (i : Nat) → cmdOf (dillOf u k) j = cmdOf (dillOf s k) j) ∧ t = schedule u k ∧
        ((dillOf s k).segment = true → NoScans s k → t = u) ∧
        (∀ p n x m, (dillOf s k).segment = true → s.merge.held = [p] → p.die = (k : Nat) → p.slot = none →
          aget s.merge.ctxs p.ctx = some x → msgOf s x.msg = some m → freeCmdSlot u k = some n →
          t.merge.held = [{ p with slot := some n }] ∧
          cmdOf (dillOf t k) n =
            { attendCmd u p.ctx p.slice m x.snap with state := .queued, since := (dillOf u k).clock + 1 })) ∧
      ((cmdOf (dillOf s k) i).state ≠ .done → (cmdOf (dillOf s k) i).state ≠ .fault → t = s))) ∧
  (∀ (k : Slice) (s : State), NoScans s k → Completes (.throttlePauseEnd k) s fun t =>
      (dillOf t k).pause = none ∧ t.mem = s.mem ∧
      ((dillOf s k).segment = true → dillOf t k = { dillOf s k with pause := none }) ∧
      (∀ e, (dillOf s k).pause = some e → e ≤ now t (dieHub s k)) ∧
      (∀ i e u, (dillOf s k).pause = some e → (dillOf s k).segment = false →
        u = modEng (passTo s (dieHub s k) e) k (fun d => { d with pause := none }) → laneHeld u k = false →
        pickLane u k = some i → (dillOf t k).segment = true ∧ (dillOf t k).cur = some i ∧ (cmdOf (dillOf t k) i).state = .running))

/-- What the vectors of a PRED come to, word by word: the first and so many further ones, len bytes apart. -/
def predSum (s : State) (func src len m : Nat) : Nat → List (BitVec 32)
  | 0 => words32 (peek s src m)
  | j + 1 => ((predSum s func src len m j).zip (words32 (peek s (src + (j + 1) * len) m))).map fun x => predStep func x.1 x.2

/-- What a pool operation does to m bytes of memory. -/
def PoolEffect (s t : State) (k : Nat) (p : PoolArgs) (m : Nat) : Prop :=
  (p.code = 0 → Stored s t (dieBase k + p.dst) (fillBytes p.pat m)) ∧
  (p.code = 1 → Stored s t (dieBase k + p.dst) (peek s (dieBase k + p.src) m)) ∧
  (p.code = 2 → t.mem.cells = s.mem.cells) ∧
  (p.code = 3 → p.count = 0 → t.mem.cells = s.mem.cells) ∧
  (p.code = 3 → p.count ≠ 0 → Stored s t (dieBase k + p.dst)
    ((predSum s p.func (dieBase k + p.src) p.len m (p.count - 1)).flatMap fun x => leBytes 4 x.toNat))

/-- No structure of the node's own stands in what a pool operation writes and reads. -/
def PlainPool (s : State) (k : Nat) (p : PoolArgs) (m : Nat) : Prop :=
  PlainRange s k p.dst m ∧ (p.code ≠ 0 → PlainRange s k p.src (srcLen p m))

/-- What a pool instruction leaves in sres, n bytes long. -/
def PoolLeaves (s : State) (k : Nat) (p : PoolArgs) (n : Nat) (v : BitVec 32) : Prop :=
  ((p.code = 0 ∨ p.code = 1) → v = BitVec.ofNat 32 n) ∧ (p.code = 3 → v = BitVec.ofNat 32 p.count) ∧
  (p.code = 2 → peek s (dieBase k + p.dst) n = peek s (dieBase k + p.src) n → v = 0#32) ∧
  (∀ j, p.code = 2 → j < n → (∀ x, x < j → byteAt s (dieBase k + p.dst + x) = byteAt s (dieBase k + p.src + x)) →
    byteAt s (dieBase k + p.dst + j) ≠ byteAt s (dieBase k + p.src + j) → v = BitVec.ofNat 32 (j / 16 * 16 + 1))

/-- The pool operation that an instruction asks for in a lane, and its length. -/
def laneArgs (l : Machine.Lane) (f : FmtP) (code pat : Nat) : PoolArgs :=
  ⟨code, (l.aget f.adst).toNat, (l.aget f.asrc).toNat, min (l.sget f.slen).toNat (f.maxKib * 1024), f.func,
    (l.sget f.sres).toNat, pat⟩

/-- A pool instruction of a lane runs: its effect, its result, and the next instruction. -/
def PoolInstr (c : Instr) (code : Nat) (f : FmtP) (s : State) (k n : Nat) (l : Machine.Lane) (x : CmdSlot) : Prop :=
  poolCheck s k x (laneArgs l f code 0) 0 (laneArgs l f code 0).len = none →
  PlainPool s k (laneArgs l f code 0) (laneArgs l f code 0).len → Completes c s fun t =>
    ∃ v pat, NextInstr s t k ∧ laneAt t k n = l.sset f.sres v ∧ (∀ m, m < 16 → m ≠ n → laneAt t k m = laneAt s k m) ∧
      PoolEffect s t k (laneArgs l f code pat) (laneArgs l f code 0).len ∧
      PoolLeaves s k (laneArgs l f code pat) (laneArgs l f code 0).len v

/-- The pool engine is free and takes the POOL command of a slot as the first that waits. -/
def FirstInPool (s : State) (k i : Nat) (c : CmdSlot) : Prop :=
  (dillOf s k).pool = none ∧ (dillOf s k).slots = [(i, c)] ∧ c.kind = 1 ∧ c.state = .queued ∧ rget s .dill_pool_en k 0 = 1 ∧
  aget s.life.moving k = none ∧ poolHeld s k c (cmdArgs c) 0 (min 65536 (cmdArgs c).len) = false ∧
  (cmdArgs c).len ≠ 0 ∧ (cmdArgs c).len ≤ 2 ^ 30 ∧ poolCheck s k c (cmdArgs c) 0 (min 65536 (cmdArgs c).len) = none ∧
  PlainPool s k (cmdArgs c) (min 65536 (cmdArgs c).len)

/-- The first chunk of a POOL command has run. -/
def ChunkRuns (s t : State) (k i : Nat) (c : CmdSlot) : Prop :=
  (dillOf t k).pool = some i ∧ (dillOf t k).chunk = true ∧ (cmdOf (dillOf t k) i).state = .running ∧
  PoolEffect s t k (cmdArgs c) (min 65536 (cmdArgs c).len) ∧
  ((cmdArgs c).code ≠ 2 → (dillOf t k).poolDone = min 65536 (cmdArgs c).len)

/-- PFILL, PCOPY, PCMP, PRED, POOL_CHUNK_COMPLETE, REFRESH_DUE and REFRESH_CATCH_UP. Shown in memory without deviating
check bits and without structures of the node's own. A pool operation of a program's one active lane and the first
chunk of a POOL command do the same to their range: PFILL writes the pattern, which in an instruction is a free
value, PCOPY the source's bytes, PRED the vectors' sum or maximum, each at the destination and nowhere else, and
PCMP changes no byte. An instruction leaves the length, PRED the count, PCMP zero or one more than the offset of the
first word that differs. A command that is not the first to run waits. A chunk that completes ends a command whose
range is done: DONE, with its result. In self-refresh no refresh is due. A refresh that is due advances its bank's
row counter; while a segment or a chunk runs it is postponed up to eight times and counted, the ninth time all nine
are issued and FORCED counts them. A catch-up leaves none postponed, and waits for the segment and the chunk. -/
def Obligations.PoolsAndRefreshes : Prop :=
  (∀ (k : Slice) (i n : Nat) (l : Machine.Lane) (c : CmdSlot) (f : FmtP) (s : State), QuietLane s k i n l c →
    PoolInstr (.pfill k (.instr f)) 0 f s k n l c ∧ PoolInstr (.pcopy k (.instr f)) 1 f s k n l c ∧
    PoolInstr (.pcmp k (.instr f)) 2 f s k n l c ∧ PoolInstr (.pred k (.instr f)) 3 f s k n l c) ∧
  (∀ (k : Slice) (i : Slot64) (c : CmdSlot) (s : State), FirstInPool s k i c → s.mem.chk = [] →
    ((cmdArgs c).code = 0 → Completes (.pfill k (.command i)) s fun t => ChunkRuns s t k i c) ∧
    ((cmdArgs c).code = 1 → Completes (.pcopy k (.command i)) s fun t => ChunkRuns s t k i c) ∧
    ((cmdArgs c).code = 2 → Completes (.pcmp k (.command i)) s fun t => ChunkRuns s t k i c) ∧
    ((cmdArgs c).code = 3 → Completes (.pred k (.command i)) s fun t => ChunkRuns s t k i c)) ∧
  (∀ (k : Slice) (i : Slot64) (s : State), (dillOf s k).pool.isSome = true →
    Completes (.pfill k (.command i)) s (fun t => t = s) ∧ Completes (.pcopy k (.command i)) s (fun t => t = s) ∧
    Completes (.pcmp k (.command i)) s (fun t => t = s) ∧ Completes (.pred k (.command i)) s (fun t => t = s)) ∧
  (∀ (k : Slice) (i : Nat) (c : CmdSlot) (s : State), (dillOf s k).pool = some i → (dillOf s k).chunk = true →
    c = cmdOf (dillOf s k) i → (cmdArgs c).len ≤ (dillOf s k).poolDone → Completes (.poolChunkComplete k) s fun t =>
      cmdOf (dillOf t k) i = { c with
        state := .done, faultCode := 0, status := Status.ok.code,
        results := aset c.results 0 (match aget c.results 0 with
          | some v => v
          | none => BitVec.ofNat 32 (poolResult (cmdArgs c))) } ∧
      (dillOf t k).pool = none ∧ OnlyEng s t k) ∧
  (∀ (k : Slice) (s : State), (dillOf s k).pool = none → Completes (.poolChunkComplete k) s fun t => t = s) ∧
  (∀ (k : Slice) (pc b : Nat) (s : State), pc ∈ (stackSt s k).selfRef → Completes (.refreshDue k pc b) s fun t => t = s) ∧
  (∀ (k : Slice) (pc b n : Nat) (s : State), n = agetD (stackSt s k).postponed (pc, b) 0 → pc ∉ (stackSt s k).selfRef →
    Completes (.refreshDue k pc b) s fun t =>
      (stackSt t k).selfRef = (stackSt s k).selfRef ∧ t.mem.cells = s.mem.cells ∧
      (∀ j, j ≠ (k : Nat) → stackSt t j = stackSt s j) ∧
      (∀ y, y ≠ (pc, b) → agetD (stackSt t k).rows y 0 = agetD (stackSt s k).rows y 0 ∧
        agetD (stackSt t k).postponed y 0 = agetD (stackSt s k).postponed y 0) ∧
      (((dillOf s k).segment || (dillOf s k).chunk) = false →
        agetD (stackSt t k).rows (pc, b) 0 = (agetD (stackSt s k).rows (pc, b) 0 + 1) % 8192 ∧
        agetD (stackSt t k).postponed (pc, b) 0 = n ∧ t.regs = s.regs) ∧
      (((dillOf s k).segment || (dillOf s k).chunk) = true → n < 8 →
        agetD (stackSt t k).rows (pc, b) 0 = agetD (stackSt s k).rows (pc, b) 0 ∧
        agetD (stackSt t k).postponed (pc, b) 0 = n + 1 ∧
        rget t .dill_REFRESH_POSTPONED k 0 = min (rget s .dill_REFRESH_POSTPONED k 0 + 1) (2 ^ Reg.dill_REFRESH_POSTPONED.width - 1)) ∧
      (((dillOf s k).segment || (dillOf s k).chunk) = true → 8 ≤ n →
        agetD (stackSt t k).rows (pc, b) 0 = (agetD (stackSt s k).rows (pc, b) 0 + 9) % 8192 ∧
        agetD (stackSt t k).postponed (pc, b) 0 = 0 ∧
        rget t .dill_REFRESH_FORCED k 0 = min (rget s .dill_REFRESH_FORCED k 0 + 1) (2 ^ Reg.dill_REFRESH_FORCED.width - 1))) ∧
  (∀ (k : Slice) (s : State), Completes (.refreshCatchUp k) s fun t =>
      (((dillOf s k).segment || (dillOf s k).chunk) = true → t = s) ∧
      (((dillOf s k).segment || (dillOf s k).chunk) = false → (stackSt t k).postponed = []))

/-- STACK_TEMP_SAMPLE, DIE_TEMP_SAMPLE and POWER_LEVEL_UPDATE: refresh rate, throttle levels and the trip. A stack's
sample is kept and sets its refresh rate by temp_2x, temp_4x and the hysteresis, and the critical state from
temp_crit until temp_crit - 5; other stacks keep theirs. A die's sample is kept with its greatest value, and sets a
slice's thermal level, one per degree from throttle_temp up to 7. A power sample moves the node-wide level by one:
up to 7 above power_limit, down below 95% of it. In each case the slice between segments takes the level that is due
at once. Two successive samples of at least 110 °C of a stack, or 115 °C of one sensor of a die, trip the package:
the die and the reading are latched and the rails go off. Page memory is untouched otherwise. -/
def Obligations.TemperatureAndPowerSamples : Prop :=
  (∀ (k : Slice) (temp : Int) (s : State), (stackSt s k.val).temp < 110 ∨ temp < 110 →
    Completes (.stackTempSample k temp) s fun t =>
      (stackSt t k.val).temp = temp ∧
      (stackSt t k.val).rate = rateAfter (rg s .mem_temp_2x) (rg s .mem_temp_4x) (rg s .mem_hysteresis) (stackSt s k.val).rate temp ∧
      ((stackSt t k.val).crit = true ↔
        (rg s .mem_temp_crit : Int) ≤ temp ∨ ((stackSt s k.val).crit = true ∧ (rg s .mem_temp_crit : Int) - 5 ≤ temp)) ∧
      (∀ j, j ≠ k.val → stackSt t j = stackSt s j ∧ levelOf t j = levelOf s j) ∧
      ((dillOf s k.val).segment = false → levelOf t k.val = dueLevel t k.val) ∧ t.mem.cells = s.mem.cells) ∧
  (∀ (k : Slice) (temp : Int) (s : State), 110 ≤ (stackSt s k.val).temp → 110 ≤ temp →
    Completes (.stackTempSample k temp) s fun t =>
      t.power.trip = some (k.val, temp) ∧ t.power.rails = false ∧ t.power.pwrok = false ∧ t.mem.cells = []) ∧
  (∀ (d : Die) (t0 t1 t2 t3 : Int) (s : State), t0 < 115 → t1 < 115 → t2 < 115 → t3 < 115 →
    Completes (.dieTempSample d t0 t1 t2 t3) s fun t =>
      (dieHealth t d.val).temps = [t0, t1, t2, t3] ∧
      (dieHealth t d.val).maxTemp = max (dieHealth s d.val).maxTemp (max (max t0 t1) (max t2 t3)) ∧
      (d.val < 32 → thermalDue t d.val = thermalLevel (rg s .mem_throttle_temp) (max (max t0 t1) (max t2 t3)) ∧
        ((dillOf s d.val).segment = false → levelOf t d.val = dueLevel t d.val)) ∧
      (32 ≤ d.val → t = { s with health := t.health }) ∧
      (∀ e, e ≠ d.val → dieHealth t e = dieHealth s e) ∧ t.mem.cells = s.mem.cells) ∧
  (∀ (d : Die) (t0 t1 t2 t3 u0 u1 u2 u3 : Int) (s : State), (dieHealth s d.val).temps = [u0, u1, u2, u3] →
    115 ≤ min u0 t0 ∨ 115 ≤ min u1 t1 ∨ 115 ≤ min u2 t2 ∨ 115 ≤ min u3 t3 →
    Completes (.dieTempSample d t0 t1 t2 t3) s fun t =>
      t.power.trip = some (d.val, max (max t0 t1) (max t2 t3)) ∧ t.power.rails = false ∧ t.power.pwrok = false) ∧
  (∀ (w : Nat) (s : State), Completes (.powerLevelUpdate w) s fun t =>
    t.mem.powerLvl = (if rg s .mem_power_limit < w then min 7 (s.mem.powerLvl + 1)
      else if 100 * w < 95 * rg s .mem_power_limit then s.mem.powerLvl - 1 else s.mem.powerLvl) ∧
    t.mem.powerAvg = w ∧ t.mem.cells = s.mem.cells ∧ t.power = s.power ∧
    ∀ k, k < 32 → (dillOf s k).segment = false → levelOf t k = dueLevel t k)

/-- The bytes of SRAM bank b of die d. -/
def InBank (d b a : Nat) : Prop := sramAddr d (64 * b) ≤ a ∧ a < sramAddr d (64 * b) + 0x40000

/-- PATROL_SCRUB_READ, SELF_REFRESH_ENTRY, BANK_RETAIN_IDLE, the four bank requests, BANK_TEST and ERR_POP. The patrol
reads the next word of a die's round and goes on to the one after; a word without deviation leaves memory as it was.
A pseudo-channel in self-refresh has no postponed refreshes. An idle ON bank under automatic control goes to RETAIN.
With an operator session bank_request of the selected bank takes effect: force ON turns it on and a bank that was
OFF reads zero, force RETAIN keeps the contents and waits for the end of a segment that uses the bank, force OFF of
a bank without allocations loses them, one with allocations is refused, and automatic control follows the
allocations. An in-service test without faults leaves memory as it was and is counted. ERR_POP drops the oldest
error record. Bytes outside the bank do not change. -/
def Obligations.PatrolRefreshAndBanks : Prop :=
  (∀ (d : Die) (off : Nat) (s : State), off = agetD s.mem.patrol d.val (if d.val < 32 then 0 else sramOff) →
    agetD s.mem.chk (dieBase d.val + off) 0 = 0 → Completes (.patrolScrubRead d) s fun t =>
      agetD t.mem.patrol d.val 0 = patrolNext s d.val off ∧ t.mem.cells = s.mem.cells ∧ t.mem.chk = s.mem.chk ∧
      t.regs = s.regs ∧ t = { s with mem := t.mem }) ∧
  (∀ (k : Slice) (pc : Nat) (s : State), pc < 64 → (stackSt s k.val).selfRef.contains pc = false →
    Completes (.selfRefreshEntry k pc) s fun t =>
      (stackSt t k.val).selfRef = (stackSt s k.val).selfRef ++ [pc] ∧
      (∀ p ∈ (stackSt t k.val).postponed, p.1.1 ≠ pc) ∧ (∀ j, j ≠ k.val → stackSt t j = stackSt s j) ∧
      t.mem.cells = s.mem.cells ∧ t = { s with mem := t.mem }) ∧
  (∀ (d : Die) (b : Nat) (s : State), b < bankCount d.val → (bankSt s d.val b).state = .on →
    (bankSt s d.val b).request = 0 → Completes (.bankRetainIdle d b) s fun t =>
      t.mem.banks = aset s.mem.banks (d.val, b) { bankSt s d.val b with state := .retain } ∧
      t = { s with mem := { s.mem with banks := t.mem.banks } }) ∧
  (∀ (d : Die) (b : Nat) (s : State), pfSession s = true → b = rget s .mem_bank_sel d.val 0 → b < bankCount d.val →
    (bankSt s d.val b).retired = false →
    Completes (.bankForceOn d) s (fun t =>
      (bankSt t d.val b).state = .on ∧ (bankSt t d.val b).request = 1 ∧
      (∀ a, InBank d.val b a → byteAt t a = if (bankSt s d.val b).state = .off then 0#8 else byteAt s a) ∧
      (∀ a, ¬ InBank d.val b a → byteAt t a = byteAt s a) ∧ t.regs = s.regs) ∧
    (bankInUse s d.val b = false → Completes (.bankForceOff d) s (fun t =>
      (bankSt t d.val b).state = .off ∧ (bankSt t d.val b).request = 3 ∧ (∀ a, InBank d.val b a → byteAt t a = 0#8) ∧
      (∀ a, ¬ InBank d.val b a → byteAt t a = byteAt s a) ∧ t.regs = s.regs)) ∧
    (bankInUse s d.val b = true → Completes (.bankForceOff d) s (fun t =>
      rget t .mem_bank_request_refused d.val b = 1 ∧ t = { s with regs := t.regs })) ∧
    ((bankSt s d.val b).state = .on → Completes (.bankForceRetain d) s (fun t =>
        (bankSt t d.val b).state = (if segmentUses s d.val b then .on else .retain) ∧ (bankSt t d.val b).request = 2 ∧
        (segmentUses s d.val b = true → (bankSt t d.val b).retainDue = true) ∧
        t = { s with mem := { s.mem with banks := t.mem.banks } })) ∧
    Completes (.bankAutomatic d) s (fun t =>
      (bankSt t d.val b).request = 0 ∧ (bankSt t d.val b).state = (if bankInUse s d.val b then .on else .off) ∧
      (∀ a, ¬ InBank d.val b a → byteAt t a = byteAt s a))) ∧
  (∀ (d : Die) (b : Nat) (s : State), b < bankCount d.val → (bankSt s d.val b).state = .on →
    spareBank s d.val b = true → Completes (.bankTest d b false []) s fun t =>
      t.mem = s.mem ∧ (dieHealth t d.val).bistResult = 0 ∧ (dieHealth t d.val).bistWhen = 2 ∧
      rg t .life_TESTS_RUN = min (rg s .life_TESTS_RUN + 1) 0xFFFFFFFF ∧ rg t .life_TEST_FAILS = rg s .life_TEST_FAILS) ∧
  (∀ (d : Die) (r : ErrRec) (l : List ErrRec) (s : State), pfSession s = true → aget s.mem.errs d.val = some (r :: l) →
    Completes (.errPop d) s fun t =>
      aget t.mem.errs d.val = some l ∧ (∀ e, e ≠ d.val → aget t.mem.errs e = aget s.mem.errs e) ∧
      t = { s with mem := { s.mem with errs := t.mem.errs } })

/-- MARGIN_MEASURE, SERDES_MARGIN_REPORT, CANARY_MEASURE, DROOP_EVENT, HISTOGRAM_SAMPLE and CLEAR_MIN. With margins
enabled a read-eye measurement keeps width and height, at most 255, and the least width since the restart, and a
receiver's report its height; a measurement that is not the third low one in a row raises no event. A canary reading
is kept with its minimum, and one that does not fall below 256 + slack_warn changes nothing else. A droop above
droop_mv is counted and others are not. A histogram sample raises the bin of the die's temperature and of its core
supply by one, saturating, and ends the second's droop count. CLEAR_MIN, with an operator session, restarts the
minimum speed, the least widths and the greatest temperature of die_sel alone. -/
def Obligations.MarginsCanariesAndDroops : Prop :=
  (∀ (k : Slice) (pc w h : Nat) (s : State), rg s .health_margin_en ≠ 0 → pc < 64 →
    rg s .health_hbm_width_min ≤ min w 255 → Completes (.marginMeasure k pc w h) s fun t =>
      (marginOf t k.val pc).width = min w 255 ∧ (marginOf t k.val pc).height = min h 255 ∧
      (marginOf t k.val pc).minW = min (marginOf s k.val pc).minW (min w 255) ∧ (marginOf t k.val pc).low = 0 ∧
      (∀ d u, (d, u) ≠ (k.val, pc) → marginOf t d u = marginOf s d u) ∧ t = { s with health := t.health }) ∧
  (∀ (d : Die) (u h : Nat) (s : State), rg s .health_margin_en ≠ 0 → unitExists d.val u = true → 32 ≤ d.val ∨ 64 ≤ u →
    rg s .health_serdes_height_min ≤ min h 255 → Completes (.serdesMarginReport d u h) s fun t =>
      (marginOf t d.val u).height = min h 255 ∧ (marginOf t d.val u).low = 0 ∧
      (∀ e v, (e, v) ≠ (d.val, u) → marginOf t e v = marginOf s e v) ∧ t = { s with health := t.health }) ∧
  (∀ (d : Die) (i : Nat) (s : State), 256 + rg s .health_slack_warn ≤ min i 0xFFFF →
    Completes (.canaryMeasure d i) s fun t =>
      (dieHealth t d.val).speed = min i 0xFFFF ∧ (dieHealth t d.val).speedMin = min (dieHealth s d.val).speedMin (min i 0xFFFF) ∧
      (∀ e, e ≠ d.val → dieHealth t e = dieHealth s e) ∧ t = { s with health := t.health }) ∧
  (∀ (d : Die) (mv : Nat) (s : State), rg s .health_droop_mv < mv → Completes (.droopEvent d mv) s fun t =>
      (dieHealth t d.val).droops = min ((dieHealth s d.val).droops + 1) 0xFFFFFFFF ∧
      (dieHealth t d.val).droopSec = (dieHealth s d.val).droopSec + 1 ∧
      (∀ e, e ≠ d.val → dieHealth t e = dieHealth s e) ∧ t.mem = s.mem) ∧
  (∀ (d : Die) (mv : Nat) (s : State), mv ≤ rg s .health_droop_mv → exec (.droopEvent d mv) s = .next s) ∧
  (∀ (d : Die) (temp : Int) (core input : Nat) (s : State), Completes (.histogramSample d temp core input) s fun t =>
      agetD t.health.temps (d.val, tempBin temp) 0 = min (agetD s.health.temps (d.val, tempBin temp) 0 + 1) 0xFFFFFFFF ∧
      agetD t.health.volts (d.val, voltBin core) 0 = min (agetD s.health.volts (d.val, voltBin core) 0 + 1) 0xFFFFFFFF ∧
      (dieHealth t d.val).droopSec = 0 ∧
      (∀ x, x ≠ (d.val, tempBin temp) → agetD t.health.temps x 0 = agetD s.health.temps x 0) ∧
      t = { s with health := t.health }) ∧
  (∀ s : State, pfSession s = true → Completes .clearMin s fun t =>
      (dieHealth t (rg s .health_die_sel)).speedMin = 0xFFFF ∧ (dieHealth t (rg s .health_die_sel)).maxTemp = -128 ∧
      (∀ e, e ≠ rg s .health_die_sel → dieHealth t e = dieHealth s e) ∧ t = { s with health := t.health }) ∧
  (∀ s : State, pfSession s = false → Completes .clearMin s fun t => t.health = s.health ∧ t = { s with regs := t.regs })

/-- The three reads that latch, of a port and under an IDE stream. -/
def latchReads (p : Port) (h : Hub) (ide : Option Nat) : List Instr :=
  [.dieSummaryLatch p ide, .meterRecordLatch p ide, .localTimeLatch h p ide]

/-- The PF of a port takes a read that comes under an IDE stream. -/
def TakesRead (s : State) (p : Port) (ide : Option Nat) : Prop := portTakes s p.val = true ∧ ideOk s p.val 0 ide = true

/-- One read has been answered with four bytes of data; of the node the latches alone have changed besides. -/
def ReadAnswered (s t : State) (p : Port) : Prop :=
  (∃ b, b.length = 4 ∧ t.out = s.out ++ [.readDone p.val 0 false (some b)]) ∧
  t = { s with host := t.host, out := t.out, freeCtr := t.freeCtr }

/-- DIE_SUMMARY_LATCH, METER_RECORD_LATCH, LOCAL_TIME_LATCH and CENSUS_ENTRY_CLEAR. The reads of a PF that latch: a read
of the die summary's first word latches the 64-byte summary of die_sel, its count of free fuse bits being left open
(a free value, assumption 40), and of no die above 39, zeros; one of the metering record's first word latches the
record of meter_tenant, at full resolution while an operator session is open on the PF and else as it was published
last; one of local_time_lo latches the high half of that hub's local time. Each answers its port four bytes of data.
A port that is down takes no read, and without a stream that the function requires it is answered Unsupported
Request and logged through AER. Clearing a census entry, with an operator session, empties that entry of that hub
alone. None of them changes anything else. -/
def Obligations.LatchedReads : Prop :=
  (∀ (p : Port) (h : Hub) (ide : Option Nat) (c : Instr) (s : State), c ∈ latchReads p h ide → Completes c s fun t =>
    (portTakes s p.val = false → t = s) ∧
    (portTakes s p.val = true → ideOk s p.val 0 ide = false →
      t = { s with out := s.out ++ [.aer p.val 0, .readDone p.val 0 false none] })) ∧
  (∀ (p : Port) (ide : Option Nat) (s : State), TakesRead s p ide → Completes (.dieSummaryLatch p ide) s fun t =>
    ReadAnswered s t p ∧ t.host = { s.host with dieSum := t.host.dieSum } ∧
    (rg s .health_die_sel < 40 → t.host.dieSum = dieSummary s (rg s .health_die_sel) (fresh s).1 ∧ t.freeCtr = s.freeCtr + 1) ∧
    (40 ≤ rg s .health_die_sel → t.host.dieSum = zeros 64 ∧ t.freeCtr = s.freeCtr)) ∧
  (∀ (p : Port) (ide : Option Nat) (s : State), TakesRead s p ide → Completes (.meterRecordLatch p ide) s fun t =>
    ReadAnswered s t p ∧ t.freeCtr = s.freeCtr ∧ t.host = { s.host with meterRec := t.host.meterRec } ∧
    t.host.meterRec = (if sessionOn s (.pcie p.val 0) then meterOf s (rg s .health_meter_tenant)
      else meterSeen s (rg s .health_meter_tenant)).bytes) ∧
  (∀ (p : Port) (h : Hub) (ide : Option Nat) (s : State), TakesRead s p ide → Completes (.localTimeLatch h p ide) s fun t =>
    ReadAnswered s t p ∧ t.freeCtr = s.freeCtr ∧ t.host = { s.host with ltHi := t.host.ltHi } ∧
    agetD t.host.ltHi h.val 0 = now s h.val / 2 ^ 32 % 2 ^ 32 ∧
    (∀ g, g ≠ h.val → agetD t.host.ltHi g 0 = agetD s.host.ltHi g 0)) ∧
  (∀ (h : Hub) (i : Fin 16) (s : State), pfSession s = true → Completes (.censusEntryClear h i) s fun t =>
    aget t.fab.census h.val = (aget s.fab.census h.val).map (fun l => l.set i.val none) ∧
    (∀ g, g ≠ h.val → aget t.fab.census g = aget s.fab.census g) ∧
    t = { s with fab := { s.fab with census := t.fab.census } })

/-- A row stands in its home block of a hub, in the CAM and in the shadow. -/
def RowStands (s : State) (h : Nat) (row : ChiveRow) : Prop :=
  ∃ i, i < 16 ∧ aget s.chive.shadow (h, homeBlock s h row.cls row.key * 16 + i) = some row ∧
    aget s.chive.cam (h, homeBlock s h row.cls row.key * 16 + i) = some row

/-- The home block of a new key has room, and the class has not overflowed. -/
def RoomFor (s : State) (h : Nat) (row : ChiveRow) : Prop :=
  overflowed s h row.cls = false ∧ s.chive.retired.contains (h, homeBlock s h row.cls row.key) = false ∧
  (blockRows s.chive.shadow h (homeBlock s h row.cls row.key)).length < 15 ∧
  ∀ p ∈ blockRows s.chive.shadow h (homeBlock s h row.cls row.key), rowIs row.cls row.key p.2 = false

/-- The home block of a row holds, at one offset first, the row of its class, key and priority. -/
def RowAt (s : State) (h : Nat) (row : ChiveRow) (i : Nat) (old : ChiveRow) : Prop :=
  ((blockRows s.chive.shadow h (homeBlock s h row.cls row.key)).find? fun p =>
    rowIs row.cls row.key p.2 && decide (p.2.prio = row.prio)) = some (i, old)
/-- The scan of a hub has taken its next page. -/
def scanned (s : State) (h : Nat) (rest : List Nat) : State := modChive s fun c => { c with scan := aset c.scan h rest }

/-- CHIVE_INSERT, CHIVE_DELETE, CHIVE_REPLACE, PREFIX_ROOT_SCAN: a row enters, leaves and changes in its home block. At
a hub that lives, an insert of a key without a row, whose home block has room and whose class has not overflowed,
leaves the row in one of the 16 positions of its home block, in the CAM and its shadow alike. A delete empties the
position of the row of the class, key and priority and a replace rewrites it, in both, and no other position
changes. The scan of a re-homed quadrant takes the next page, reads its header through the word code, enters the
page's prefix-root row under the same condition when the page is sealed, keyed and held, and skips it otherwise, an
uncorrectable header included. No position of another block or another hub changes, nor does anything but the index
and its counters, and what the read itself leaves. -/
def Obligations.IndexRowsAreKept : Prop :=
  (∀ (h : Hub) (row : ChiveRow) (s : State), hubAlive s h.val = true → RoomFor s h.val row →
    Completes (.chiveInsert h row) s fun t =>
      RowStands t h.val row ∧ t.out = s.out ∧ t.chive.ovf = s.chive.ovf ∧
      (∀ g p, (g, p / 16) ≠ (h.val, homeBlock s h.val row.cls row.key) → aget t.chive.shadow (g, p) = aget s.chive.shadow (g, p)) ∧
      t = { s with chive := t.chive, regs := t.regs }) ∧
  (∀ (h : Hub) (row old : ChiveRow) (i : Nat) (s : State), hubAlive s h.val = true → RowAt s h.val row i old →
    Completes (.chiveDelete h row) s (fun t =>
      aget t.chive.shadow (h.val, homeBlock s h.val row.cls row.key * 16 + i) = none ∧
      aget t.chive.cam (h.val, homeBlock s h.val row.cls row.key * 16 + i) = none ∧
      (∀ x, x ≠ (h.val, homeBlock s h.val row.cls row.key * 16 + i) → aget t.chive.shadow x = aget s.chive.shadow x) ∧
      t = { s with chive := t.chive, regs := t.regs }) ∧
    Completes (.chiveReplace h row) s (fun t =>
      aget t.chive.shadow (h.val, homeBlock s h.val row.cls row.key * 16 + i) = some row ∧
      aget t.chive.cam (h.val, homeBlock s h.val row.cls row.key * 16 + i) = some row ∧
      (∀ x, x ≠ (h.val, homeBlock s h.val row.cls row.key * 16 + i) → aget t.chive.shadow x = aget s.chive.shadow x) ∧
      t = { s with chive := t.chive, regs := t.regs })) ∧
  (∀ (h : Hub) (lpn : Nat) (rest : List Nat) (got : Option Hdr) (s u : State), hubAlive s h.val = true →
    agetD s.chive.scan h.val [] = lpn :: rest → loadHdr (scanned s h.val rest) lpn readUnit = (u, got) →
    Completes (.prefixRootScan h) s fun t =>
      agetD t.chive.scan h.val [] = rest ∧ (s.mem.chk = [] → t.mem.cells = s.mem.cells) ∧
      (aget s.mem.slots lpn = none → t = scanned s h.val rest) ∧
      ((aget s.mem.slots lpn).isSome = true →
        (got = none → t = u) ∧ (∀ hd, got = some hd → (hd.sealed && hd.keyed) = false → t = u) ∧
        ∀ hd, got = some hd → hd.sealed = true → hd.keyed = true → RoomFor s h.val (pageRow hd lpn) →
          otFind s h.val clsPrefix (pageRow hd lpn).key = [] →
          RowStands t h.val (pageRow hd lpn) ∧ t = { u with chive := t.chive, regs := t.regs }))

/-- CAM_SCRUB, BLOCK_REBUILD and OVERFLOW_RETURN. With scrub_en set the scrubber of a hub that lives compares one
position with its shadow and goes on to the next, the last position being followed by the first: a CAM row that
agrees is left alone, and one that differs becomes its shadow's and SCRUB_MISMATCH counts it. A block whose shadow
word is lost is marked as being rebuilt, with one row of it gone (which one the command does not say: a free value),
REBUILDS counts it, and the word counts as uncorrectable. A key whose overflowed rows fit its home block with a hole
left leaves the overflow table. Other blocks keep their rows. -/
def Obligations.IndexUpkeep : Prop :=
  (∀ (h : Hub) (s : State), hubAlive s h.val = true → rget s .chive_scrub_en h.val 0 = 1 →
    Completes (.camScrub h) s fun t =>
      agetD t.chive.scrub h.val 0 = (agetD s.chive.scrub h.val 0 % camPositions + 1) % camPositions ∧
      t.chive.shadow = s.chive.shadow ∧
      aget t.chive.cam (h.val, agetD s.chive.scrub h.val 0 % camPositions) =
        aget s.chive.shadow (h.val, agetD s.chive.scrub h.val 0 % camPositions) ∧
      (∀ x, x ≠ (h.val, agetD s.chive.scrub h.val 0 % camPositions) → aget t.chive.cam x = aget s.chive.cam x) ∧
      rget t .chive_SCRUB_MISMATCH h.val 0 =
        (if aget s.chive.cam (h.val, agetD s.chive.scrub h.val 0 % camPositions) =
            aget s.chive.shadow (h.val, agetD s.chive.scrub h.val 0 % camPositions) then rget s .chive_SCRUB_MISMATCH h.val 0
          else min (rget s .chive_SCRUB_MISMATCH h.val 0 + 1) 0xFFFFFFFF)) ∧
  (∀ (h : Hub) (b : Nat) (s : State), hubAlive s h.val = true → Completes (.blockRebuild h b) s fun t =>
      (h.val, b) ∈ t.chive.rebuild ∧ aget t.chive.shadow (h.val, b * 16 + (fresh s).1 % 16) = none ∧
      (∀ g p, (g, p / 16) ≠ (h.val, b) → aget t.chive.shadow (g, p) = aget s.chive.shadow (g, p)) ∧
      rget t .chive_REBUILDS h.val 0 = min (rget s .chive_REBUILDS h.val 0 + 1) 0xFFFFFFFF ∧
      rget t .mem_UNCORRECTABLE (32 + h.val) 0 = min (rget s .mem_UNCORRECTABLE (32 + h.val) 0 + 1) 0xFFFFFFFF ∧
      t.mem.cells = s.mem.cells) ∧
  (∀ (h : Hub) (cls key : Nat) (s : State), hubAlive s h.val = true → otFind s h.val cls key ≠ [] →
    s.chive.retired.contains (h.val, homeBlock s h.val cls key) = false →
    (blockRows s.chive.shadow h.val (homeBlock s h.val cls key)).length + (otFind s h.val cls key).length ≤ 15 →
    Completes (.overflowReturn h cls key) s fun t =>
      (∀ p ∈ otRows t h.val cls, rowIs cls key p.2 = false) ∧
      (∀ c, c ≠ cls → otRows t h.val c = otRows s h.val c) ∧
      (∀ g p, (g, p / 16) ≠ (h.val, homeBlock s h.val cls key) →
        aget t.chive.shadow (g, p) = aget s.chive.shadow (g, p)) ∧ t.mem = s.mem ∧ t.out = s.out)

/-- The record a final write completes in a slot. -/
def recordAt (s : State) (p f slot : Nat) (value : BitVec 64) : CmdRec :=
  CmdRec.parse (slotBytes (hostSlot s p f slot) 0 56 ++ leBytes 8 value.toNat)

/-- No refill of a hub is due. -/
def NoRefillDue (s : State) (h : Nat) : Prop := now s h / 1000 ≤ agetD s.traf.refillAt h 0

/-- COMMAND_BODY_WRITE and FINAL_WRITE: a command record is written and accepted. A write to the body of a slot that has
no command running stores its bytes at the offset and no others. A final write of a valid record whose slot_seq is
the expected one, on a function with ring 0 enabled and a free slot, is accepted: the slot is busy, the expected
sequence goes on by one (skipping 0), and COMMANDS counts it. Where its payload lies in host memory, orders 1 to 5
pass, no policer profile applies, no refill is due and the queue has room, the node asks the host for exactly the
payload's bytes and the command waits for them. A repeat of the sequence before counts DUP_FINALS and changes
nothing else; a write to a busy slot counts SLOT_BUSY_WRITES and changes nothing else. -/
def Obligations.CommandSlotWrites : Prop :=
  (∀ (p : Port) (f : Fn) (k : Slot64) (o : Nat) (data : List Byte) (ide : Option Nat) (s : State), takesTlp s p.val f.val ide = true →
    (hostSlot s p.val f.val k.val).busy = false → Completes (.commandBodyWrite p f k o data ide) s fun t =>
      (∀ i, i < data.length → agetD (hostSlot t p.val f.val k.val).body (o + i) 0#8 = data.getD i 0#8) ∧
      (∀ a, a < o ∨ o + data.length ≤ a → agetD (hostSlot t p.val f.val k.val).body a 0#8 =
        agetD (hostSlot s p.val f.val k.val).body a 0#8) ∧
      (∀ x, x ≠ (p.val, f.val, k.val) → aget t.host.slots x = aget s.host.slots x) ∧
      t = { s with host := { s.host with slots := t.host.slots } }) ∧
  (∀ (p : Port) (f : Fn) (k : Slot64) (v : BitVec 64) (op : Opcode) (ide : Option Nat) (s : State), takesTlp s p.val f.val ide = true →
    ringOn s p.val f.val 0 = true → (hostSlot s p.val f.val k.val).busy = false →
    (recordAt s p.val f.val k.val v).valid = true →
    (recordAt s p.val f.val k.val v).seq = (hostSlot s p.val f.val k.val).expected →
    Opcode.ofCode (recordAt s p.val f.val k.val v).opcode = some op → op ≠ .snapshot →
    (recordAt s p.val f.val k.val v).inl = false → 0 < (recordAt s p.val f.val k.val v).length →
    cmdFail s p.val f.val (recordAt s p.val f.val k.val v)
      (cmdMsg s p.val f.val k.val (recordAt s p.val f.val k.val v) op [])
      (decide (op ≠ .attend) && decide (op ≠ .read)) = none →
    cmdOpen s op = true → NoRefillDue s (portHub p.val) →
    (profOf s (portHub p.val) (rget s .port_fn_profile p.val f.val)).on = false →
    (profOf s (portHub p.val) (rget s .port_fn_profile p.val f.val)).minClass ≤ (recordAt s p.val f.val k.val v).cls →
    queueLen s (portHub p.val) < queueMax → Completes (.finalWrite p f k v ide) s fun t =>
      (hostSlot t p.val f.val k.val).busy = true ∧
      (hostSlot t p.val f.val k.val).expected =
        (if (hostSlot s p.val f.val k.val).expected = 0xFFFF then 1 else (hostSlot s p.val f.val k.val).expected + 1) ∧
      rget t .port_COMMANDS p.val 0 = min (rget s .port_COMMANDS p.val 0 + 1) (2 ^ (Reg.width .port_COMMANDS) - 1) ∧
      t.out = s.out ++ [.hostRead p.val (recordAt s p.val f.val k.val v).addr (recordAt s p.val f.val k.val v).length] ∧
      (∃ m, (s.nextId, m) ∈ t.msgs ∧ m.opcode = op ∧ m.phase = .waitPayload ∧
        m.tag = (recordAt s p.val f.val k.val v).tag) ∧
      t.mem = s.mem ∧ t.seqs = s.seqs) ∧
  (∀ (p : Port) (f : Fn) (k : Slot64) (v : BitVec 64) (ide : Option Nat) (s : State), takesTlp s p.val f.val ide = true →
    ringOn s p.val f.val 0 = true → (hostSlot s p.val f.val k.val).busy = false →
    (recordAt s p.val f.val k.val v).valid = true →
    (recordAt s p.val f.val k.val v).seq ≠ (hostSlot s p.val f.val k.val).expected →
    (recordAt s p.val f.val k.val v).seq = seqBefore (hostSlot s p.val f.val k.val).expected →
    exec (.finalWrite p f k v ide) s = .next (bump s .fn_DUP_FINALS (fnInst p.val f.val))) ∧
  (∀ (p : Port) (f : Fn) (k : Slot64) (v : BitVec 64) (o : Nat) (data : List Byte) (ide : Option Nat) (s : State), takesTlp s p.val f.val ide = true →
    (hostSlot s p.val f.val k.val).busy = true →
    exec (.finalWrite p f k v ide) s = .next (bump s .fn_SLOT_BUSY_WRITES (fnInst p.val f.val)) ∧
    exec (.commandBodyWrite p f k o data ide) s = .next (bump s .fn_SLOT_BUSY_WRITES (fnInst p.val f.val)))

/-- The state in which a command's payload has arrived and been charged. -/
def payloadArrived (s : State) (id : Nat) (m : Msg) : State :=
  modMeter (modMsg s id fun _ => m) m.tenant fun x => { x with bytesIn := x.bytesIn + m.payload.length }

/-- PAYLOAD_READ_COMPLETE, COALESCE_EXPIRY, RING_ENABLE, FUNCTION_LEVEL_RESET, PCIE_LINK_DOWN and PERST_RELEASE. The end
of a command's payload reads, with all its bytes, gives the command its payload, charges the tenant's bytes_in and
runs the checks of order 9, after which a command that passes stands at its handler; failed reads end it. The
coalescing interval of a ring that holds a message back ends with the ring's MSI-X message, where its vector is one
of the function's (the model's, assumption 174). Enabling a ring that was not enabled starts it at entry 0, phase 1.
A function-level reset disables the function's rings and windows and frees its slots at e = 1, of that function
alone; what it accepted runs on unheard. A link down ends the sessions of that port alone. PERST# released with the
rails up brings the port up where its hub is out of reset, at a rate of Gen5 to Gen7, max_speed at most, and a width
of x4, x8 or x16, without IDE keys. Page memory does not change. -/
def Obligations.HostPortEvents : Prop :=
  (∀ (id : Nat) (m : Msg) (b : List Byte) (s v : State), msgOf s id = some m → m.phase = .waitPayload →
    b.length = m.payLen →
    respShort (payloadArrived s id { m with payload := b, phase := .arrived }) { m with payload := b, phase := .arrived } = false →
    nine (payloadArrived s id { m with payload := b, phase := .arrived }) id { m with payload := b, phase := .arrived } true =
      (v, .pass) → Completes (.payloadReadComplete id (.data b)) s fun t =>
      t = setPhase v id .arrived ∧
      (payloadArrived s id { m with payload := b, phase := .arrived }).mem = s.mem) ∧
  (∀ (p : Port) (f : Fn) (r : Fin 16) (s : State), (ringOf s p.val f.val r.val).held = true → portUp s p.val = true →
    Completes (.coalesceExpiry p f r) s fun t =>
      t.out = s.out ++ (if rget s .fn_ring_vector (fnInst p.val f.val) r.val < msixCount s p.val f.val
        then [.msix p.val f.val (rget s .fn_ring_vector (fnInst p.val f.val) r.val)] else []) ∧
      (ringOf t p.val f.val r.val).held = false ∧
      (∀ x, x ≠ (p.val, f.val, r.val) → aget t.host.rings x = aget s.host.rings x) ∧
      now t (portHub p.val) = max (now s (portHub p.val)) ((ringOf s p.val f.val r.val).lastMsg.getD 0 +
        rget s .fn_coalesce_ns (fnInst p.val f.val) r.val) ∧ t.mem = s.mem ∧ t.regs = s.regs) ∧
  (∀ (p : Port) (f : Fn) (r : Fin 16) (ide : Option Nat) (s : State), takesTlp s p.val f.val ide = true → ringOn s p.val f.val r.val = false →
    Completes (.ringEnable p f r ide) s fun t =>
      ringOn t p.val f.val r.val = true ∧ ringOf t p.val f.val r.val = ⟨0, true, none, false⟩ ∧
      (∀ x, x ≠ (p.val, f.val, r.val) → aget t.host.rings x = aget s.host.rings x) ∧
      t = { s with regs := t.regs, host := { s.host with rings := t.host.rings } }) ∧
  (∀ (p : Port) (f : Fn) (s : State), Completes (.functionLevelReset p f) s fun t =>
      (∀ r, r < 16 → ringOn t p.val f.val r = false ∧ rget t .fn_win_enable (fnInst p.val f.val) r = 0) ∧
      (∀ k, hostSlot t p.val f.val k = ⟨1, false, []⟩) ∧
      (∀ q g k, (q, g) ≠ (p.val, f.val) → hostSlot t q g k = hostSlot s q g k) ∧ t.msgs = s.msgs ∧
      (∀ id ∈ fnCmds s p.val f.val, id ∈ t.host.muted) ∧ t = { s with regs := t.regs, host := t.host }) ∧
  (∀ (p : Port) (s : State), Completes (.pcieLinkDown p) s fun t =>
      portUp t p.val = false ∧ (∀ x ∈ t.trust.sessions, x ∈ s.trust.sessions ∧ ∀ g, x.chan ≠ .pcie p.val g) ∧
      (∀ x ∈ s.trust.sessions, (∀ g, x.chan ≠ .pcie p.val g) → x ∈ t.trust.sessions) ∧ t.mem = s.mem ∧ t.regs = s.regs ∧
      t.out = s.out) ∧
  (∀ (p : Port) (s : State), s.power.rails = true → s.power.perst.length = 2 → s.power.pcieUp.length = 2 →
    s.power.pcieLink.length = 2 →
    Completes (.perstRelease p) s fun t =>
      t.power.perst.getD p.val false = true ∧ t.power.pcieUp.getD p.val false = (hubSt s (portHub p.val)).up ∧
      ((hubSt s (portHub p.val)).up = true → ∃ g w, t.power.pcieLink.getD p.val (0, 0) = (g, w) ∧ 5 ≤ g ∧ g ≤ 7 ∧
        g ≤ max 5 (rget s .port_max_speed p.val 0) ∧ (w = 4 ∨ w = 8 ∨ w = 16)) ∧
      (∀ k ∈ t.host.ideKeys, k.port ≠ p.val) ∧ (∀ f k, f < 64 → hostSlot t p.val f k = ⟨1, false, []⟩) ∧ t.mem = s.mem ∧
      t.seqs = s.seqs)

/-- A function whose window is enabled takes an access under an IDE stream. -/
def WindowTakes (s : State) (p : Port) (f : Fn) (w : Fin 16) (ide : Option Nat) : Prop :=
  portTakes s p.val = true ∧ ideOk s p.val f.val ide = true ∧ rget s .fn_win_enable (fnInst p.val f.val) w.val ≠ 0

/-- The access that a read or a write through a window makes of a region. -/
def winTlp (s : State) (p : Port) (f : Fn) (w : Fin 16) (i o n : Nat) (data : Option (List Byte)) : WinTlp :=
  ⟨p.val, f.val, w.val, i, (winAcc s p.val f.val w.val o n).offset, n, data⟩

/-- An access of a region waits behind those that do, and its region counts it. -/
def TlpWaits (v t : State) (x : WinTlp) (r : Region) : Prop :=
  t.host.waits = v.host.waits ++ [x] ∧ regionOf t x.region = some { r with inflight := r.inflight + 1 } ∧
  t = { v with regn := t.regn, host := { v.host with waits := t.host.waits } }

/-- DIRECT_WINDOW_READ and DIRECT_WINDOW_WRITE: a window is an access of its region. A read through an enabled window of
a function that takes requests, whose key resolves and whose range and rights hold, answers exactly the bytes that
the region's read gives, and a write stores through the region's own write; the window's offset is added. While the
stack of the range is being retrained the access waits, in order, and counts toward its region's accesses. A window
access that a check refuses latches its status in win_status and is answered as Unsupported Request, or, a write, is
discarded and counted in WINDOW_REFUSED; a region out of reach is STALE_UNIT (the model's order, assumption 183). A
function that needs its IDE stream refuses a request that does not come on one in use at its port, logs it through
AER and does nothing else. -/
def Obligations.DirectWindows : Prop :=
  (∀ (p : Port) (f : Fn) (w : Fin 16) (i o n : Nat) (ide : Option Nat) (r : Region) (s v : State), WindowTakes s p f w ide →
    winCheck s p.val f.val false (winAcc s p.val f.val w.val o n) = (v, .ok (i, r)) → regionOf v i = some r →
    Completes (.directWindowRead p f w o n ide) s fun t =>
      (r.kind ≠ rkSequence → v = s) ∧
      (rangeRetrains v r (winAcc s p.val f.val w.val o n).offset n = true → TlpWaits v t (winTlp s p f w i o n none) r) ∧
      (∀ b u, rangeRetrains v r (winAcc s p.val f.val w.val o n).offset n = false →
        readRange v r (winAcc s p.val f.val w.val o n).offset n = (u, .ok b) →
        t.out = u.out ++ [.readDone p.val f.val false (some b)] ∧ t.mem = u.mem ∧ t.regs = u.regs)) ∧
  (∀ (p : Port) (f : Fn) (w : Fin 16) (i o : Nat) (data : List Byte) (ide : Option Nat) (r : Region) (s v : State),
    WindowTakes s p f w ide →
    winCheck s p.val f.val true (winAcc s p.val f.val w.val o data.length) = (v, .ok (i, r)) → regionOf v i = some r →
    Completes (.directWindowWrite p f w o data ide) s fun t =>
      (rangeRetrains v r (winAcc s p.val f.val w.val o data.length).offset data.length = true →
        TlpWaits v t (winTlp s p f w i o data.length (some data)) r) ∧
      (rangeRetrains v r (winAcc s p.val f.val w.val o data.length).offset data.length = false →
        t = (writeRange (modMeter v (fnTenant v p.val f.val) fun x => { x with bytesIn := x.bytesIn + data.length })
          (portHub p.val) r (winAcc s p.val f.val w.val o data.length).offset data).1)) ∧
  (∀ (p : Port) (f : Fn) (w : Fin 16) (o n : Nat) (ide : Option Nat) (st : Status) (s v : State), WindowTakes s p f w ide →
    winCheck s p.val f.val false (winAcc s p.val f.val w.val o n) = (v, .error st) →
    Completes (.directWindowRead p f w o n ide) s fun t =>
      rget t .fn_win_status (fnInst p.val f.val) w.val = st.code % 256 ∧
      t.out = v.out ++ [.readDone p.val f.val false none] ∧ t.mem = v.mem ∧ t.host = v.host) ∧
  (∀ (p : Port) (f : Fn) (w : Fin 16) (o : Nat) (data : List Byte) (ide : Option Nat) (st : Status) (s v : State),
    WindowTakes s p f w ide → winCheck s p.val f.val true (winAcc s p.val f.val w.val o data.length) = (v, .error st) →
    Completes (.directWindowWrite p f w o data ide) s fun t =>
      rget t .fn_win_status (fnInst p.val f.val) w.val = st.code % 256 ∧
      rget t .fn_WINDOW_REFUSED (fnInst p.val f.val) 0 =
        min (rget v .fn_WINDOW_REFUSED (fnInst p.val f.val) 0 + 1) (2 ^ Reg.fn_WINDOW_REFUSED.width - 1) ∧
      t = { v with regs := t.regs }) ∧
  (∀ (p : Port) (f : Fn) (write : Bool) (a : AccHdr) (i : Nat) (r : Region) (s : State),
    checkKey s a.key (rget s .port_fn_pd p.val f.val) = .ok (i, r) → tlpStale s r a.offset a.length = true →
    winCheck s p.val f.val write a = (s, .error .staleUnit)) ∧
  (∀ (p : Port) (f : Fn) (w : Fin 16) (o n : Nat) (data : List Byte) (ide : Option Nat) (s : State), portTakes s p.val = true →
    ideOk s p.val f.val ide = false →
    exec (.directWindowRead p f w o n ide) s =
      .next { s with out := s.out ++ [.aer p.val f.val, .readDone p.val f.val false none] } ∧
    exec (.directWindowWrite p f w o data ide) s = .next { s with out := s.out ++ [.aer p.val f.val] })

/-- The page being filled in s stands programmed in t as the next page of the head block. -/
def HeadProgrammed (s t : State) : Prop :=
  t.jrnl.flash.fill = [] ∧
  aget t.jrnl.flash.pages (s.jrnl.flash.log 0, s.jrnl.flash.headPage) = some s.jrnl.flash.fill ∧
  t.jrnl.flash.headPage = s.jrnl.flash.headPage + 1 ∧ t.mem = s.mem ∧
  ∀ r ∈ s.jrnl.flash.fill, r.seq ≠ 0 → r ∉ t.jrnl.held

/-- The journal: JOURNAL_RECORD_ARRIVAL, JOURNAL_FLUSH_EXPIRY, JOURNAL_PAGE_PROGRAM and NAND_PROGRAM_FAIL. A hub's
oldest record that has no record_seq takes the next one and the next place in the page being filled, when the record
fits a 4 KiB page and the journal is writable; nothing but the journal changes. The expiry of journal_flush_ms after
the page's first record, and a full page, program the page into the head block in order: the records stand in serial
NAND, the page is empty, and every hub's copy of them is gone. A failed program retires its block: it enters the bad
blocks, leaves the ring and holds no page any more, and PROGRAM_FAILS counts it. A failed erase retires a spare and
counts ERASE_FAILS. -/
def Obligations.JournalPagesAndBlocks : Prop :=
  (∀ (h : Hub) (r : JRec) (s : State), journalPath s = true → s.jrnl.dropped = [] → oldestHeld s h.val = some r →
    s.jrnl.flash.fillLen + r.length ≤ 4096 → Completes (.journalRecordArrival h) s fun t =>
      t.jrnl.flash.fill = s.jrnl.flash.fill ++ [{ r with seq := s.jrnl.nextSeq }] ∧
      t.jrnl.nextSeq = s.jrnl.nextSeq + 1 ∧ { r with seq := s.jrnl.nextSeq } ∈ t.jrnl.held ∧
      t.jrnl.held.length = s.jrnl.held.length ∧ t = { s with jrnl := t.jrnl }) ∧
  (∀ (h : Nat) (r : JRec) (l : List JRec) (s : State), journalPath s = true → nandHub s = some h →
    s.jrnl.flash.fill = r :: l → s.jrnl.flash.headPage + 1 < 64 → Completes .journalFlushExpiry s fun t =>
      HeadProgrammed s t ∧ now t h = max (now s h) (r.time + rg s .health_journal_flush_ms * 1000000)) ∧
  (∀ s : State, journalPath s = true → s.jrnl.flash.fill ≠ [] → pageFull s = true → s.jrnl.flash.headPage + 1 < 64 →
    Completes .journalPageProgram s fun t => HeadProgrammed s t) ∧
  (∀ (b : Nat) (s : State), journalPath s = true → s.jrnl.flash.hasRole b = true → b ≠ s.jrnl.flash.log 2 →
    Completes (.nandProgramFail b false false) s fun t =>
      b ∈ t.jrnl.flash.bad ∧ b ∉ t.jrnl.flash.ring ∧ (∀ p ∈ t.jrnl.flash.pages, p.1.1 ≠ b) ∧
      rg t .health_PROGRAM_FAILS = min (rg s .health_PROGRAM_FAILS + 1) 0xFFFFFFFF ∧ t.mem = s.mem) ∧
  (∀ (b : Nat) (again : Bool) (s : State), journalPath s = true → b ∈ s.jrnl.flash.spares →
    Completes (.nandProgramFail b true again) s fun t =>
      b ∈ t.jrnl.flash.bad ∧ rg t .health_ERASE_FAILS = min (rg s .health_ERASE_FAILS + 1) 0xFFFFFFFF ∧ t.mem = s.mem)

/-- The journal window, histogram and metering records: JOURNAL_RECORD_LOAD, JOURNAL_RECORD_LOADED, HIST_FLUSH,
METER_SAMPLE. With an operator session of the primary port's PF a load starts; without one the write is discarded
and counted in NODE_WRITES_REFUSED. The read of the record's page ends with the record in the window and jr_status 0
when it is found and the corrected bits stay under three quarters of the ECC's capability, and with jr_status 2 when
no page holds it. HIST_FLUSH forms one HISTOGRAM record per die, in die order, before the METER records.
METER_SAMPLE falls on the next whole millisecond of the driving hub's local time and adds each tenant's page slots
and SRAM units, modulo 2^64; a tenant that holds none keeps its record. Memory does not change. -/
def Obligations.JournalWindowAndMeters : Prop :=
  (∀ s : State, pfSession s = true → Completes .journalRecordLoad s fun t =>
    t = { s with host := { s.host with jrStatus := 1 } }) ∧
  (∀ s : State, pfSession s = false → Completes .journalRecordLoad s fun t =>
    rget t .port_NODE_WRITES_REFUSED (primaryPort s) 0 =
      min (rget s .port_NODE_WRITES_REFUSED (primaryPort s) 0 + 1) 0xFFFFFFFF ∧ t = { s with regs := t.regs }) ∧
  (∀ (n : Nat) (pg : Nat × Nat) (r : JRec) (s : State), s.host.jrStatus = 1 → s.jrnl.flash.mounted = true →
    (nandHub s).isSome = true → pageWith s.jrnl.flash (jrSeq s) = some pg →
    (s.jrnl.flash.recs.find? fun x => decide (x.seq = jrSeq s)) = some r →
    s.jrnl.flash.eccCap = 0 ∨ 4 * n < 3 * s.jrnl.flash.eccCap →
    Completes (.journalRecordLoaded n false) s fun t =>
      t = { s with host := { s.host with jrStatus := 0, jrWin := r.bytes } }) ∧
  (∀ (n : Nat) (u : Bool) (s : State), s.host.jrStatus = 1 → pageWith s.jrnl.flash (jrSeq s) = none →
    Completes (.journalRecordLoaded n u) s fun t => t = { s with host := { s.host with jrStatus := 2 } }) ∧
  (∀ s : State, journalPath s = true → Completes .histFlush s fun t =>
    (∃ l, t.jrnl.held = s.jrnl.held ++ l ∧ (∀ r ∈ l, r.type = 0x30 ∨ r.type = 0x31) ∧
      ∀ d, d < 40 → ∃ r, l[d]? = some r ∧ r.type = 0x30 ∧ r.payload = histPayload s d ∧ r.seq = 0) ∧
    t.mem = s.mem ∧ t.health = s.health ∧ t.regs = s.regs) ∧
  (∀ (h : Nat) (s : State), nandHub s = some h → Completes .meterSample s fun t =>
    now t h = (now s h / 1000000 + 1) * 1000000 ∧ t.mem = s.mem ∧ t.seqs = s.seqs ∧
    ∀ x, 1 ≤ x → x ≤ 16383 →
      meterOf t x = if x ∈ heldTenants s then
          { meterOf s x with pageMs := ((meterOf s x).pageMs + slotUsed s x) % 2 ^ 64,
                             sramMs := ((meterOf s x).sramMs + sramUsed s x) % 2 ^ 64 }
        else meterOf s x)

/-- Supply inputs: what VSB33_VALID, VSB33_LOSS, VSB33_REMOVED, VIN48_VALID and RAILS_IN_REGULATION do. VSB33 becoming
valid starts the standby controller with PWROK low, with DRAIN# armed unless it is low, and a low DRAIN# as one held
event. VIN48 of 40 V to 60 V lets the regulators run; below 40 V nothing has reached its limit; above 60 V the
device defines no behaviour and the command faults. Rails in regulation release PWROK when both inputs are valid and
no rail fault or trip is latched, and change nothing otherwise. Each changes nothing but those power bits. Loss of
VSB33 with no VIN48 clears the input alone; with VIN48 it puts the rails off and the dies lose their state. Removal
of VSB33 clears the trip latch and a held drain event. -/
def Obligations.InputsReachLimits : Prop :=
  (∀ (low : Bool) (s : State), s.power.vsb33 = false →
    Completes (.vsb33Valid low) s fun t =>
      t = { s with power := { s.power with vsb33 := true, pwrok := false, drainArmed := ! low,
                                           drainHeld := s.power.drainHeld || low } }) ∧
  (∀ s : State, s.power.vsb33 = true → s.power.vin48 = false →
    Completes .vsb33Loss s fun t => t = { s with power := { s.power with vsb33 := false } }) ∧
  (∀ s : State, s.power.vsb33 = true → s.power.vin48 = true →
    Completes .vsb33Loss s fun t =>
      t.power.vsb33 = false ∧ t.power.rails = false ∧ t.power.pwrok = false ∧ t.power.vin48 = true ∧
      t.power.diesOut = false ∧ t.mem.cells = [] ∧ t.msgs = [] ∧ t.regs = [] ∧ t.taps = [] ∧
      t.life.cfg = s.life.cfg ∧ t.jrnl.flash.pages = s.jrnl.flash.pages) ∧
  (∀ s : State, Completes .vsb33Removed s fun t =>
      t.power.vsb33 = false ∧ t.power.trip = none ∧ t.power.drainHeld = false ∧ t.power.drainArmed = false ∧
      (s.power.vsb33 = false ∨ s.power.vin48 = false →
        t = { s with power := { s.power with vsb33 := false, trip := none, drainHeld := false, drainPin := false,
                                             drainArmed := false } })) ∧
  (∀ (mv : Nat) (s : State), 40000 ≤ mv → mv ≤ 60000 →
    Completes (.vin48Valid mv) s fun t => t = { s with power := { s.power with vin48 := true } }) ∧
  (∀ (mv : Nat) (s : State), mv < 40000 → exec (.vin48Valid mv) s = .next s) ∧
  (∀ (mv : Nat) (s : State), 60000 < mv → exec (.vin48Valid mv) s = .fault .outsideLimits) ∧
  (∀ s : State, s.power.vsb33 = true → s.power.vin48 = true → s.power.railFault = false → s.power.trip = none →
    Completes .railsInRegulation s fun t => t = { s with power := { s.power with rails := true, pwrok := true } }) ∧
  (∀ s : State, s.power.vsb33 = false ∨ s.power.vin48 = false ∨ s.power.railFault = true ∨ s.power.trip ≠ none →
    exec .railsInRegulation s = .next s)

/-- Every die's state is lost from s to t: what lies in serial NAND, in fuses and in the standby controller stays. -/
def DiesLost (s t : State) : Prop :=
  t.mem.cells = [] ∧ t.mem.chk = [] ∧ t.regs = [] ∧ t.msgs = [] ∧ t.seqs = State.reset.seqs ∧ t.merge = State.reset.merge ∧
  t.fab = State.reset.fab ∧ t.traf = State.reset.traf ∧ t.ledg = State.reset.ledg ∧ t.regn = State.reset.regn ∧
  t.chive = State.reset.chive ∧ t.dill = State.reset.dill ∧ t.host = State.reset.host ∧ t.trust.sessions = [] ∧
  t.health = State.reset.health ∧ t.pending = s.pending ∧ t.out = s.out ∧ t.jrnl.flash.pages = s.jrnl.flash.pages ∧
  t.life.cfg = s.life.cfg ∧ t.life.bundles = s.life.bundles ∧ t.life.binding = s.life.binding ∧
  t.trust.psk = none ∧ t.trust.lov = [] ∧ t.trust.pskNand = s.trust.pskNand ∧ t.trust.fuses = s.trust.fuses ∧
  t.trust.svnMin = s.trust.svnMin ∧ t.power.diesOut = false ∧ t.life.node = 0

/-- VIN48_UNDERVOLTAGE, RAIL_FAULT and RESET_ASSERT: what the dies lose and what stays. A loss of VIN48 and, with the
rails up, a rail fault take PWROK low and the rails off; a reset of running dies keeps the rails. In each the dies
lose their memory, registers, messages, sequences, connections, sessions and index, the Lovages their keys and the
unwrapped pre-shared key; and the queue, the output, the journal's pages in serial NAND, the configuration slots,
the wrapped pre-shared key and the fuse bank stay. A loss of VIN48 ends a rail fault; a rail fault latches; a reset
ends a latched rail fault and holds the dies in reset. A rail fault with the rails off changes nothing. -/
def Obligations.LossOfPowerAndReset : Prop :=
  (∀ s : State, Completes .vin48Undervoltage s fun t =>
    DiesLost s t ∧ t.power.vin48 = false ∧ t.power.rails = false ∧ t.power.pwrok = false ∧ t.power.railFault = false ∧
    t.power.vsb33 = s.power.vsb33 ∧ t.power.trip = s.power.trip ∧ t.power.drainHeld = s.power.drainHeld) ∧
  (∀ s : State, s.power.rails = true → Completes .railFault s fun t =>
    DiesLost s t ∧ t.power.railFault = true ∧ t.power.rails = false ∧ t.power.pwrok = false ∧
    t.power.vsb33 = s.power.vsb33 ∧ t.power.vin48 = s.power.vin48) ∧
  (∀ s : State, s.power.rails = false → exec .railFault s = .next s) ∧
  (∀ s : State, s.power.diesOut = true → Completes .resetAssert s fun t =>
    DiesLost s t ∧ t.power.resetLow = true ∧ t.power.railFault = false ∧ t.power.rails = s.power.rails ∧
    t.power.pwrok = s.power.pwrok ∧ t.taps = s.taps) ∧
  (∀ s : State, s.power.diesOut = false → Completes .resetAssert s fun t =>
    t = { s with power := { s.power with resetLow := true, railFault := false } })

/-- THROTTLE# and DRAIN#: THROTTLE_ASSERT, THROTTLE_RELEASE, DRAIN_EVENT and DRAIN_REARM. THROTTLE# sets or clears the
pin's part of every slice's throttle level: with the dies out of reset, each slice whose lane engine is between
segments takes the level that is due at once (the others at their next yield point). An armed DRAIN# yields one
event and is disarmed: the node in service drains; before the dies leave reset the event is held. Re-arming arms the
input, releases a held event and the pin's drain, and a draining node with no other latch and no shutdown returns to
service. With the input disarmed an event changes nothing. Nothing else changes. -/
def Obligations.ThrottleAndDrainLands : Prop :=
  (∀ s : State, s.power.diesOut = true → Completes .throttleAssert s fun t =>
    t.power = { s.power with throttle := true } ∧ t.mem.cells = s.mem.cells ∧
    (∀ k, k < 32 → (dillOf s k).segment = false → levelOf t k = dueLevel t k) ∧
    (∀ k, k < 32 → (dillOf s k).segment = true → levelOf t k = levelOf s k)) ∧
  (∀ s : State, s.power.diesOut = true → Completes .throttleRelease s fun t =>
    t.power = { s.power with throttle := false } ∧ t.mem.cells = s.mem.cells ∧
    (∀ k, k < 32 → (dillOf s k).segment = false → levelOf t k = dueLevel t k) ∧
    (∀ k, k < 32 → (dillOf s k).segment = true → levelOf t k = levelOf s k)) ∧
  (∀ s : State, s.power.vsb33 = true → s.power.drainArmed = true → s.power.diesOut = true → s.life.node = 2 →
    Completes .drainEvent s fun t =>
      t = { s with power := { s.power with drainArmed := false, drainPin := true }, life := { s.life with node := 3 } }) ∧
  (∀ s : State, s.power.vsb33 = true → s.power.drainArmed = true → s.power.diesOut = false →
    Completes .drainEvent s fun t =>
      t = { s with power := { s.power with drainArmed := false, drainHeld := true } }) ∧
  (∀ s : State, s.power.drainArmed = false → exec .drainEvent s = .next s) ∧
  (∀ s : State, s.power.vsb33 = true → s.power.drainSoft = false → s.life.node = 3 → s.life.op = none →
    Completes .drainRearm s fun t =>
      t = { s with power := { s.power with drainArmed := true, drainHeld := false, drainPin := false },
                   life := { s.life with node := 2 } }) ∧
  (∀ s : State, s.power.vsb33 = true → s.life.node ≠ 3 ∨ s.power.drainSoft = true → Completes .drainRearm s fun t =>
      t = { s with power := { s.power with drainArmed := true, drainHeld := false, drainPin := false } })

/-- The test access port: BYPASS, IDCODE, SAMPLE_PRELOAD, EXTEST, CLAMP, HIGHZ, LINKTEST, HBMLOOP and TAP_RESET. With
the rails up BYPASS selects the bypass register, which shifts out one 0, and IDCODE shifts out the 32-bit code of
the die, 0xB43209C7 for a slice and 0xB43219C7 for a hub, in every state of RESET#. With RESET# low SAMPLE_PRELOAD
samples the lands and loads the cells, EXTEST drives the cells and captures the lands, CLAMP and HIGHZ hold or float
the outputs with the bypass register selected, and LINKTEST and HBMLOOP shift out the register's value of before,
when its checker is off, and take control bits 12 to 0 of the data shifted in, with the error count kept or, where
chk_en is written 1, cleared. With RESET# high each of these six acts as BYPASS. TAP_RESET puts every port to
IDCODE. No command changes anything but the port and the output, and with the rails off none changes anything. -/
def Obligations.TestPortShiftsOut : Prop :=
  (∀ (d : Die) (s : State), s.power.rails = true → Completes (.bypass d) s fun t =>
    t = { s with out := s.out ++ [.tdo d.val [false]],
                 taps := aset s.taps d.val { tapOf s d.val with instr := .bypass } }) ∧
  (∀ (d : Die) (s : State), s.power.rails = true → Completes (.idcode d) s fun t =>
    t = { s with out := s.out ++ [.tdo d.val (bitList 32 (if d.val < 32 then 0xB43209C7 else 0xB43219C7))],
                 taps := aset s.taps d.val { tapOf s d.val with instr := .idcode } }) ∧
  (∀ (d : Die) (lands pre : List Bool) (s : State), s.power.rails = true → s.power.resetLow = true →
    Completes (.samplePreload d lands pre) s (fun t =>
      t = { s with out := s.out ++ [.tdo d.val lands],
                   taps := aset s.taps d.val { tapOf s d.val with instr := .samplePreload, cells := pre } }) ∧
    Completes (.extest d lands) s (fun t =>
      t = { s with out := s.out ++ [.tdo d.val lands],
                   taps := aset s.taps d.val { tapOf s d.val with instr := .extest } }) ∧
    Completes (.clamp d) s (fun t =>
      t = { s with out := s.out ++ [.tdo d.val [false]],
                   taps := aset s.taps d.val { tapOf s d.val with instr := .clamp } }) ∧
    Completes (.highz d) s (fun t =>
      t = { s with out := s.out ++ [.tdo d.val [false]],
                   taps := aset s.taps d.val { tapOf s d.val with instr := .highz } })) ∧
  (∀ (d : Die) (data : BitVec 64) (s : State), s.power.rails = true → s.power.resetLow = true →
    unitExists d.val (data.toNat % 256) = true → bit1 (tapOf s d.val).linktest.toNat 12 = false →
    Completes (.linktest d data) s fun t =>
      t.out = s.out ++ [.tdo d.val (bitList 64 (tapOf s d.val).linktest.toNat)] ∧
      (tapOf t d.val).instr = .linktest ∧
      (tapOf t d.val).linktest.toNat % 8192 = data.toNat % 8192 ∧
      bits (tapOf t d.val).linktest.toNat 47 16 =
        (if bit1 data.toNat 12 then 0 else bits (tapOf s d.val).linktest.toNat 47 16) ∧
      (∀ e, e ≠ d.val → tapOf t e = tapOf s e) ∧ t = { s with out := t.out, taps := t.taps }) ∧
  (∀ (d : Die) (data : BitVec 64) (s : State), s.power.rails = true → s.power.resetLow = true →
    d.val < 32 → data.toNat % 256 < 64 → bit1 (tapOf s d.val).hbmloop.toNat 12 = false →
    Completes (.hbmloop d data) s fun t =>
      t.out = s.out ++ [.tdo d.val (bitList 64 (tapOf s d.val).hbmloop.toNat)] ∧
      (tapOf t d.val).instr = .hbmloop ∧
      (tapOf t d.val).hbmloop.toNat % 8192 = data.toNat % 8192 ∧
      bits (tapOf t d.val).hbmloop.toNat 47 16 =
        (if bit1 data.toNat 12 then 0 else bits (tapOf s d.val).hbmloop.toNat 47 16) ∧
      (∀ e, e ≠ d.val → tapOf t e = tapOf s e) ∧ t = { s with out := t.out, taps := t.taps }) ∧
  (∀ (d : Die) (lands pre : List Bool) (data : BitVec 64) (s : State) (c : Instr),
    s.power.rails = true → s.power.resetLow = false →
    c ∈ [Instr.samplePreload d lands pre, .extest d lands, .clamp d, .highz d, .linktest d data, .hbmloop d data] →
    exec c s = exec (.bypass d) s) ∧
  (∀ s : State, Completes .tapReset s fun t =>
    (∀ d, (tapOf t d).instr = .idcode) ∧ (∀ d, (tapOf t d).cells = (tapOf s d).cells) ∧ t = { s with taps := t.taps }) ∧
  (∀ (d : Die) (lands pre : List Bool) (data : BitVec 64) (s : State) (c : Instr), s.power.rails = false →
    c ∈ [Instr.bypass d, .idcode d, .samplePreload d lands pre, .extest d lands, .clamp d, .highz d, .linktest d data,
      .hbmloop d data] →
    exec c s = .next s)

/-- The commands of lc_go with their lc_op. -/
def liveOps : List (Instr × Nat) :=
  [(.retrain, 1), (.retire, 2), (.readmit, 3), (.failover, 4), (.failback, 5), (.isolateTest, 6), (.shutdown, 7)]

/-- An operator session stands, no operation runs, and the target is a number. -/
def MayGo (s : State) (d : Nat) : Prop := pfSession s = true ∧ s.life.op = none ∧ rg s .life_lc_target = d

/-- An operation that could not start has left its status, and nothing but lc_op and it has changed. -/
def Refused (s t : State) (op : Nat) (st : Status) : Prop :=
  t = { rset s .life_lc_op 0 0 op with life := { s.life with op := none, lcStatus := st.code } }

/-- RETRAIN, RETIRE, READMIT, FAILOVER, FAILBACK, ISOLATE_TEST, SHUTDOWN and STACK_RETRAIN_COMPLETE. Without an operator
session on the primary port's PF none of the seven starts: the write is discarded and counted. While an operation
runs each answers BUSY in lc_status and starts nothing. Else, where the target's state permits, it starts and is the
operation that runs: a retrained slice is RETRAINING with its stack in self-refresh, a retired one RETIRING with the
substitute of R391, a failed-over hub FAILING_OVER, an isolated die ISOLATED, a shut-down node DRAINING; READMIT
starts on a RETIRED slice and FAILBACK on a FAILED_OVER hub that runs with its reference clock. RETIRE without a
substitute ends with QUOTA, FAILOVER under R393 with BUSY. A target of another kind or state ends the operation with
BOUNDS, which is the model's choice (assumption 39). A retraining that completes brings the slice back to IN_SERVICE
with its stack out of self-refresh, one that fails makes it UNAVAILABLE. -/
def Obligations.LiveOperationsRun : Prop :=
  (∀ (c : Instr) (op : Nat) (s : State), (c, op) ∈ liveOps → Completes c s fun t =>
      (pfSession s = false → t = writeRefused s (primaryPort s)) ∧
      (∀ o, pfSession s = true → s.life.op = some o →
        t = { rset s .life_lc_op 0 0 op with life := { s.life with lcStatus := Status.busy.code } })) ∧
  (∀ (d : Nat) (s : State), MayGo s d → Completes .retrain s fun t =>
      (d < 32 → (sliceSt s d).st = 0 → sliceSt t d = { sliceSt s d with st := 1 } ∧ (stackSt t d).selfRef = List.range 64 ∧
        t.life.op = some ⟨1, d, false, 0, [], 3⟩ ∧ t.mem.cells = s.mem.cells) ∧
      ((32 ≤ d ∨ (sliceSt s d).st ≠ 0) → Refused s t 1 .bounds)) ∧
  (∀ (d : Nat) (s : State), MayGo s d → Completes .retire s fun t =>
      (∀ u, d < 32 → (sliceSt s d).st = 0 → pickSubst s d = some u →
        (sliceSt t d).st = 2 ∧ (sliceSt t d).subst = some u ∧ (sliceSt t d).home = (sliceSt s d).home ∧
        t.life.op = some ⟨2, d, false, u, (extentsUsed s d).zip (extentsFree s u), 2⟩) ∧
      (d < 32 → (sliceSt s d).st = 0 → pickSubst s d = none → Refused s t 2 .quota) ∧
      ((32 ≤ d ∨ (sliceSt s d).st ≠ 0) → Refused s t 2 .bounds)) ∧
  (∀ (d : Nat) (s : State), MayGo s d → Completes .readmit s fun t =>
      (d < 32 → (sliceSt s d).st = 3 → t.life.op = some ⟨3, d, false, ((sliceSt s d).subst).getD d, (sliceSt s d).moved, 0⟩ ∧
        sliceSt t d = sliceSt s d ∧ t.mem = s.mem) ∧
      ((32 ≤ d ∨ (sliceSt s d).st ≠ 3) → Refused s t 3 .bounds)) ∧
  (∀ (d : Nat) (s : State), MayGo s d → Completes .failover s fun t =>
      (32 ≤ d → d < 40 → (hubSt s (d - 32)).st = 0 → (hubSt s (d - 32)).up = true → failoverBusy s (d - 32) = false →
        (hubSt t (d - 32)).st = 1 ∧ t.life.op = some ⟨4, d, false, 0, [], 2⟩ ∧ t.mem = s.mem) ∧
      (32 ≤ d → d < 40 → (hubSt s (d - 32)).st = 0 → (hubSt s (d - 32)).up = true → failoverBusy s (d - 32) = true →
        Refused s t 4 .busy) ∧
      ((d < 32 ∨ 40 ≤ d ∨ (hubSt s (d - 32)).st ≠ 0 ∨ (hubSt s (d - 32)).up = false) → Refused s t 4 .bounds)) ∧
  (∀ (d : Nat) (s : State), MayGo s d → Completes .failback s fun t =>
      (32 ≤ d → d < 40 → (hubSt s (d - 32)).st = 2 → (hubSt s (d - 32)).up = true → (hubSt s (d - 32)).ref25 = true →
        t.life.op = some ⟨5, d, false, 0, [], 0⟩ ∧ t.mem = s.mem) ∧
      ((d < 32 ∨ 40 ≤ d ∨ (hubSt s (d - 32)).st ≠ 2 ∨ (hubSt s (d - 32)).up = false ∨ (hubSt s (d - 32)).ref25 = false) →
        Refused s t 5 .bounds)) ∧
  (∀ (d : Nat) (s : State), MayGo s d → Completes .isolateTest s fun t => t.mem = s.mem ∧
      (d < 32 → (sliceSt s d).st = 3 → (sliceSt t d).st = 4 ∧ t.life.op = some ⟨6, d, false, 0, [], 1⟩) ∧
      (32 ≤ d → d < 40 → (hubSt s (d - 32)).st = 2 → (hubSt t (d - 32)).st = 3 ∧ t.life.op = some ⟨6, d, false, 0, [], 1⟩) ∧
      ((40 ≤ d ∨ d < 32 ∧ (sliceSt s d).st ≠ 3 ∨ 32 ≤ d ∧ (hubSt s (d - 32)).st ≠ 2) → Refused s t 6 .bounds)) ∧
  (∀ (d : Nat) (s : State), MayGo s d → Completes .shutdown s fun t => t.mem = s.mem ∧
      ((s.life.node = 2 ∨ s.life.node = 3) → t.life.node = 3 ∧ t.life.op = some ⟨7, 0, false, 0, [], 2⟩) ∧
      (s.life.node ≠ 2 → s.life.node ≠ 3 → Refused s t 7 .bounds)) ∧
  (∀ (k : Slice) (failed : Bool) (s : State), Completes (.stackRetrainComplete k failed) s fun t =>
      (s.life.op = none → t = s) ∧
      (∀ o, s.life.op = some o → (o.op ≠ 1 ∨ o.target ≠ (k : Nat)) → t = s) ∧
      (∀ o, s.life.op = some o → o.op = 1 → o.target = (k : Nat) → (∀ x ∈ s.life.retrainDue, x = (k : Nat)) →
        (dillOf s k).pool = none → failed = false →
        (sliceSt t k).st = 0 ∧ (stackSt t k).selfRef = [] ∧ t.life.op = none ∧ t.life.lcStatus = Status.ok.code) ∧
      (∀ o, s.life.op = some o → o.op = 1 → o.target = (k : Nat) → s.life.retrainDue = [] → failed = true →
        (sliceSt t k).st = 5 ∧ t.life.op = none ∧ t.mem = s.mem))

/-- A hub is FAILED_OVER and holds nothing more, nor is a copy valid whose lease ran on its clock. -/
def HubGone (t : State) (h : Nat) : Prop :=
  (hubSt t h).st = 2 ∧ (∀ k : Slice, (sliceSt t k).home ≠ some h) ∧ (∀ e ∈ t.traf.egress, e.hub ≠ h) ∧
  (∀ p ∈ t.chive.cam, p.1.1 ≠ h) ∧ (∀ p ∈ t.merge.ctxs, p.2.hub ≠ h) ∧ (∀ g ∈ t.merge.groups, g.hub ≠ h) ∧
  ∀ c ∈ t.ledg.copies, c.2.lease.map (·.1) ≠ some h

/-- LINK_REPLAY, HUB_FAILURE, REF25_LOSS and SLICE_FAILURE. A word that arrives clean over a link, or corrected in one
nibble and counted, is delivered and ends the replays; an uncorrectable one is counted and asked for again, and when
the third replay fails the link is down in both directions. A hub in service that fails is FAILED_OVER: no slice is
homed to it any more, its index, its egress queue, its merges and its merge groups are gone, and no copy is left
whose lease it timed; so it is when its reference clock stops, which is then recorded. A hub that is not in service
changes nothing, but that the loss of a hub under failback or test ends that operation and leaves it FAILED_OVER. A
slice that fails is UNAVAILABLE and the records on their way from it are gone; the operation that retires a slice to
it ends with UNCORRECTABLE and the source returns to service. -/
def Obligations.DiesAndLinksAreLost : Prop :=
  (∀ (l : LinkId) (word : BitVec 144) (a b w c : Nat) (s : State), a = l.src → b = l.dst → w = word.toNat % 2 ^ 128 →
    c = word.toNat / 2 ^ 128 → Completes (.linkReplay l word) s fun t =>
      ((linkExists a b = false ∨ linkUp s a b = false) → t = s) ∧
      (linkExists a b = true → linkUp s a b = true → decodeSyn (wordSyn w c) = .clean →
        linkOf t a b = { linkOf s a b with
          fails := 0, pending := false, words := (BitVec.ofNat 128 w :: (linkOf s a b).words).take 256 } ∧
        t = { s with life := t.life }) ∧
      (∀ nib err, linkExists a b = true → linkUp s a b = true → decodeSyn (wordSyn w c) = .corrected nib err →
        linkOf t a b = { linkOf s a b with
          fails := 0, pending := false, words := (BitVec.ofNat 128 (flipNib w nib err) :: (linkOf s a b).words).take 256 } ∧
        rget t .mem_CORRECTED b 0 = min (rget s .mem_CORRECTED b 0 + 1) (2 ^ Reg.mem_CORRECTED.width - 1)) ∧
      (linkExists a b = true → linkUp s a b = true → decodeSyn (wordSyn w c) = .uncorrectable →
        rget t .mem_UNCORRECTABLE b 0 = min (rget s .mem_UNCORRECTABLE b 0 + 1) (2 ^ Reg.mem_UNCORRECTABLE.width - 1) ∧
        (¬ ((linkOf s a b).pending = true ∧ 2 ≤ (linkOf s a b).fails) → linkOf t a b = { linkOf s a b with
          fails := if (linkOf s a b).pending then (linkOf s a b).fails + 1 else 0, pending := true }) ∧
        ((linkOf s a b).pending = true → 2 ≤ (linkOf s a b).fails → (linkOf t a b).up = false ∧ (linkOf t b a).up = false))) ∧
  (∀ (h : Hub) (s : State), (hubSt s h).up = true → (hubSt s h).st < 2 →
    Completes (.hubFailure h) s (fun t => HubGone t h) ∧
    Completes (.ref25Loss h) s (fun t => HubGone t h ∧ (hubSt t h).ref25 = false)) ∧
  (∀ (h : Hub) (o : LiveOp) (s : State), (hubSt s h).up = true → 2 ≤ (hubSt s h).st → s.life.op = some o →
    o.target = 32 + (h : Nat) → o.op = 5 ∨ o.op = 6 → Completes (.hubFailure h) s fun t =>
      t.life.op = none ∧ (hubSt t h).st = (if (hubSt s h).st = 3 then 2 else (hubSt s h).st) ∧ t.mem = s.mem) ∧
  (∀ (h : Hub) (s : State), ((hubSt s h).up = false ∨
      2 ≤ (hubSt s h).st ∧ ∀ o, s.life.op = some o → o.target = 32 + (h : Nat) → o.op ≠ 5 ∧ o.op ≠ 6) →
    Completes (.hubFailure h) s (fun t => t = s) ∧
    Completes (.ref25Loss h) s (fun t => hubSt t h = { hubSt s h with ref25 := false } ∧ t = { s with life := t.life })) ∧
  (∀ (k : Slice) (s : State), Completes (.sliceFailure k) s fun t => t.mem.cells = s.mem.cells ∧
      ((sliceSt s k).st = 5 → t = s) ∧
      ((sliceSt s k).st ≠ 5 → s.life.op = none → sliceSt t k = { sliceSt s k with st := 5 } ∧
        (∀ j, j ≠ (k : Nat) → sliceSt t j = sliceSt s j) ∧ (∀ c r, .slice c (k : Nat) r ∉ t.merge.inflight) ∧ t.mem = s.mem) ∧
      (∀ o, (sliceSt s k).st ≠ 5 → s.life.op = some o → o.op = 2 → o.subst = (k : Nat) → o.target ≠ (k : Nat) →
        s.life.retrainDue = [] → (sliceSt t k).st = 5 ∧ (sliceSt t o.target).st = 0 ∧ t.life.op = none ∧
        t.life.lcStatus = Status.uncorrectable.code))

/-- No Lovage but one has changed. -/
def OtherLovages (s t : State) (h : Nat) : Prop := ∀ j, j ≠ h → lovOf t j = lovOf s j

/-- A Lovage has stood as candidate of the next term. -/
def Stands (s t : State) (h : Nat) : Prop :=
  (lovOf t h).term = nextTerm (lovOf s h).term ∧ (lovOf t h).standing = true ∧ (lovOf t h).cands = [h] ∧ (lovOf t h).votes = [] ∧
  (lovOf t h).primary = none ∧ (lovOf t h).waiting = true ∧ (lovOf t h).backoff = false ∧
  t.out = s.out ++ [.lov 1 h 8 (nextTerm (lovOf s h).term)] ∧
  rget t .lov_ELECTIONS h 0 = min (rget s .lov_ELECTIONS h 0 + 1) (2 ^ Reg.lov_ELECTIONS.width - 1)

/-- CANDIDATE, VOTE, BEACON, BEACON_SEND, BEACON_TIMEOUT, VOTE_WAIT_EXPIRY, CANDIDACY_TIMEOUT, CANDIDACY_BACKOFF_EXPIRY,
LOVAGE_MEASURED_BOOT. A Lovage that runs discards a message of an older term and adopts a newer one, and then knows
no primary but a beacon's sender. A candidate of its term joins the candidacies it holds and starts its wait unless
it has voted; a vote counts only while it stands, and with five it is primary; a beacon ends every wait and names
its sender. The primary sends a beacon a millisecond on. Ten milliseconds without one, and the end of the backoff,
let it stand: term + 1, its own candidacy, a CANDIDATE sent, ELECTIONS counted. The wait's end gives the vote of the
term to the lowest candidate that booted, once. Two milliseconds without five votes end a candidacy and start the
backoff. Measured boot starts a Lovage from a slot that passes: it holds the image's digest and security version and
the keys derived from the UDS, the key unit is erased, and it stands if it knows no primary. No other Lovage
changes, and no memory. -/
def Obligations.PrimaryIsElected : Prop :=
  (∀ (h sender : Hub) (term n : Nat) (x : Lovage) (s : State), x = lovOf s h → n = term % 2 ^ 32 →
    ((lovRuns s h = false ∨ n < x.term) → Completes (.candidate h sender term) s (fun t => t = s) ∧
      Completes (.vote h sender term) s (fun t => t = s) ∧ Completes (.beacon h sender term) s (fun t => t = s)) ∧
    (lovRuns s h = true → x.term < n →
      Completes (.candidate h sender term) s (fun t => OtherLovages s t h ∧ t.mem = s.mem ∧
        (lovOf t h).term = n ∧ (lovOf t h).cands = [(sender : Nat)] ∧ (lovOf t h).standing = false ∧ (lovOf t h).isPrimary = false ∧
        (lovOf t h).primary = none ∧ (lovOf t h).waiting = decide (x.voted ≠ n)) ∧
      Completes (.vote h sender term) s (fun t => OtherLovages s t h ∧ t.mem = s.mem ∧
        (lovOf t h).term = n ∧ (lovOf t h).standing = false ∧ (lovOf t h).isPrimary = false ∧ (lovOf t h).votes = []) ∧
      Completes (.beacon h sender term) s (fun t => OtherLovages s t h ∧ t.mem = s.mem ∧
        (lovOf t h).term = n ∧ (lovOf t h).primary = some (sender : Nat) ∧ (lovOf t h).standing = false ∧
        (lovOf t h).isPrimary = false)) ∧
    (lovRuns s h = true → x.term = n →
      Completes (.candidate h sender term) s (fun t => OtherLovages s t h ∧ t = { s with trust := t.trust } ∧
        lovOf t h = { x with cands := if x.cands.contains (sender : Nat) then x.cands else x.cands ++ [(sender : Nat)],
                             waiting := x.waiting || (x.cands.isEmpty && decide (x.voted ≠ x.term)) }) ∧
      (x.standing = false → Completes (.vote h sender term) s fun t => t = s) ∧
      (∀ v, x.standing = true → v = (if x.votes.contains (sender : Nat) then x.votes else x.votes ++ [(sender : Nat)]) →
        Completes (.vote h sender term) s fun t => OtherLovages s t h ∧ t.mem = s.mem ∧
          (v.length < 5 → lovOf t h = { x with votes := v } ∧ t = { s with trust := t.trust }) ∧
          (5 ≤ v.length → lovOf t h = { x with votes := v, isPrimary := true, primary := some (h : Nat), standing := false } ∧
            t.out = s.out ++ [.lov 3 h 8 x.term])) ∧
      (x.isPrimary = true → Completes (.beacon h sender term) s fun t => t = s) ∧
      (x.isPrimary = false → Completes (.beacon h sender term) s fun t => OtherLovages s t h ∧ t = { s with trust := t.trust } ∧
        lovOf t h = { x with primary := some (sender : Nat), standing := false, waiting := false, backoff := false, votes := [] }))) ∧
  (∀ (h : Hub) (x : Lovage) (s : State), x = lovOf s h → lovRuns s h = true →
    (x.isPrimary = true → Completes (.beaconSend h) s fun t => now t h = now s h + 1000000 ∧
      t.out = s.out ++ [.lov 3 h 8 x.term] ∧ t = { s with life := t.life, out := t.out }) ∧
    (x.isPrimary = false → Completes (.beaconSend h) s (fun t => t = s) ∧
      Completes (.beaconTimeout h) s (fun t => now t h = now s h + 10000000 ∧ Stands s t h ∧ OtherLovages s t h ∧ t.mem = s.mem)) ∧
    (x.backoff = true → x.isPrimary = false → Completes (.candidacyBackoffExpiry h) s fun t =>
      now t h = now s h + h * 1000000 ∧ Stands s t h ∧ OtherLovages s t h ∧ t.mem = s.mem) ∧
    (x.standing = true → Completes (.candidacyTimeout h) s fun t => now t h = now s h + 2000000 ∧ OtherLovages s t h ∧
      lovOf t h = { x with standing := false, backoff := true, votes := [] } ∧ t = { s with life := t.life, trust := t.trust })) ∧
  (∀ (h : Hub) (x : Lovage) (s : State), x = lovOf s h → lovRuns s h = true → x.waiting = true →
    Completes (.voteWaitExpiry h) s fun t => OtherLovages s t h ∧ t.mem = s.mem ∧ now t h = now s h + 100000 ∧
      (lovOf t h).waiting = false ∧ (lovOf t h).term = x.term ∧
      ((x.cands.filter fun c => (lovOf s c).booted) = [] → (lovOf t h).voted = x.voted ∧ t.out = s.out) ∧
      (x.voted = x.term → (lovOf t h).votes = x.votes ∧ t.out = s.out) ∧
      (∀ c, (x.cands.filter fun c => (lovOf s c).booted).min? = some c → x.voted ≠ x.term → (lovOf t h).voted = x.term ∧
        (c ≠ (h : Nat) → t.out = s.out ++ [.lov 2 h c x.term] ∧ (lovOf t h).votes = x.votes) ∧
        (c = (h : Nat) → (h : Nat) ∈ (lovOf t h).votes))) ∧
  (∀ (h : Hub) (s : State), Completes (.lovageMeasuredBoot h) s fun t => OtherLovages s t h ∧ t.mem = s.mem ∧
      ((hubAlive s h = false ∨ (lovOf s h).booted = true ∨ bootSlot s h = none) → t = s) ∧
      (∀ k, hubAlive s h = true → (lovOf s h).booted = false → bootSlot s h = some k →
        (lovOf t h).booted = true ∧ agetD t.life.dieFw (40 + h) 0 = k ∧ t.trust.fuses = s.trust.fuses ∧
        (lovOf t h).keyUnit = [] ∧ (lovOf t h).svn = (agetD s.life.bundles k default).svn ∧
        (lovOf t h).lfw = takeBytes (Config.imageDigest (agetD s.life.bundles k default).digest 2) 0 64 ∧
        ((lovOf s h).primary.isSome = true → lovOf t h = derive s h k) ∧
        ((lovOf s h).primary = none → (lovOf s h).isPrimary = false → Stands s t h)))

/-- The key of a port's stream, sub-stream and set. -/
def keyOf (s : State) (p stream sub set : Nat) : Option (List Byte) :=
  (s.host.ideKeys.find? fun k => decide (k.port = p) && decide (k.stream = stream) && decide (k.sub = sub) && decide (k.set = set)).map
    (·.key)

/-- No stream's set in use but one has changed, and of the node only the host ports. -/
def OtherStreams (s t : State) (p stream : Nat) : Prop :=
  (∀ y, y ≠ (p, stream) → aget t.host.ideSet y = aget s.host.ideSet y) ∧ t = { s with host := t.host }

/-- GET_MEASUREMENTS, SECURED_SESSION, KEY_PROG, K_SET_GO and K_SET_STOP: SPDM and IDE keys of a PCIe port. A port whose
responder answers shows the five digests as measurement blocks 1 to 5 and opens its secured session. Over that
session KEY_PROG sets the key of a stream's sub-stream and set and replaces none but that one, for at most eight
streams a port; K_SET_GO puts a programmed set of a stream in use; K_SET_STOP removes the keys of a set, and takes
the stream out of use if it was the one in use. Without the secured session, for a ninth stream, or for a set
without keys nothing changes, which is the model's reading (the ninth stream: a log entry). No other stream's set
changes, and nothing else of the node. -/
def Obligations.PortKeysAndMeasurements : Prop :=
  (∀ (p : Port) (s : State),
    (spdmOn s p = true → Completes (.getMeasurements p) s fun t => t = { s with out := t.out } ∧
      t.out = s.out ++ [.spdm p (((reportDigests s (portHub p)).zipIdx).flatMap fun d => leBytes 1 (d.2 + 1) ++ d.1)]) ∧
    (spdmOn s p = true → Completes (.securedSession p) s fun t => t = { s with host := t.host } ∧
      ∀ q, q ∈ t.host.secured ↔ q = (p : Nat) ∨ q ∈ s.host.secured) ∧
    (spdmOn s p = false → Completes (.getMeasurements p) s (fun t => t = s) ∧ Completes (.securedSession p) s (fun t => t = s))) ∧
  (∀ (p : Port) (stream sub set : Nat) (key : List Byte) (s : State), ideKm s p = true →
    ((ideStreams s p).contains stream = true ∨ (ideStreams s p).length < 8) →
    Completes (.keyProg p stream sub set key) s fun t => OtherStreams s t p stream ∧
      aget t.host.ideSet ((p : Nat), stream) = aget s.host.ideSet ((p : Nat), stream) ∧ keyOf t p stream sub set = some key ∧
      ∀ q a b c, (q, a, b, c) ≠ ((p : Nat), stream, sub, set) → keyOf t q a b c = keyOf s q a b c) ∧
  (∀ (p : Port) (stream sub set : Nat) (key : List Byte) (s : State),
    (ideKm s p = false → Completes (.keyProg p stream sub set key) s (fun t => t = s) ∧
      Completes (.kSetGo p stream set) s (fun t => t = s) ∧ Completes (.kSetStop p stream set) s (fun t => t = s)) ∧
    ((ideStreams s p).contains stream = false → 8 ≤ (ideStreams s p).length →
      Completes (.keyProg p stream sub set key) s fun t => t = s) ∧
    (hasSet s p stream set = false → Completes (.kSetGo p stream set) s fun t => t = s)) ∧
  (∀ (p : Port) (stream set : Nat) (s : State), ideKm s p = true → hasSet s p stream set = true →
    Completes (.kSetGo p stream set) s fun t => OtherStreams s t p stream ∧ t.host.ideKeys = s.host.ideKeys ∧
      ∃ both, aget t.host.ideSet ((p : Nat), stream) = some (set, both) ∧
        ∀ u b, aget s.host.ideSet ((p : Nat), stream) = some (u, b) → u ≠ set → both = true) ∧
  (∀ (p : Port) (stream set : Nat) (s : State), ideKm s p = true → Completes (.kSetStop p stream set) s fun t =>
      OtherStreams s t p stream ∧ hasSet t p stream set = false ∧
      (∀ q a b c, (q, a, c) ≠ ((p : Nat), stream, set) → keyOf t q a b c = keyOf s q a b c) ∧
      (∀ b, aget s.host.ideSet ((p : Nat), stream) = some (set, b) → aget t.host.ideSet ((p : Nat), stream) = none) ∧
      (∀ u b, aget s.host.ideSet ((p : Nat), stream) = some (u, b) → u ≠ set →
        aget t.host.ideSet ((p : Nat), stream) = some (u, false)))

/-- The six commands of the legacy port, on one message. -/
def legacyCmds (counter : Nat) (b tag : List Byte) : List Instr :=
  [.legacyIdentity counter b tag, .legacyHealth counter b tag, .legacyTempPower counter b tag, .legacyDrain counter b tag,
   .legacyDrainRelease counter b tag, .legacyNodeReset counter b tag]

/-- The port is enabled on a live HD0 and the message passes. -/
def LegacyOk (s : State) (counter : Nat) (b tag : List Byte) : Prop :=
  hubAlive s 0 = true ∧ legacyOn s = true ∧ legacyPasses s counter b tag = true

/-- The message is accepted, answered with a function's content, and of the node at most the journal, its count of drops and
the trust block have changed besides what is named. -/
def LegacyReplied (s t : State) (counter fn : Nat) (content : List Byte) : Prop :=
  t.trust.legacyMax = counter ∧ t.out = s.out ++ [.legacy (Config.legacyReply fn content)] ∧ t.mem = s.mem ∧ t.seqs = s.seqs ∧
  t.trust.psk = s.trust.psk ∧ t.trust.sessions = s.trust.sessions

/-- LEGACY_IDENTITY, LEGACY_HEALTH, LEGACY_TEMP_POWER, LEGACY_DRAIN, LEGACY_DRAIN_RELEASE and LEGACY_NODE_RESET. On the
legacy port of a live HD0, when it is enabled, a message with a good tag and a counter above the highest accepted
and the floor is answered once with its function's content, and its counter is the highest accepted; identity,
health and temperatures change nothing else that they read. DRAIN makes a node in service DRAINING with the software
latch set, DRAIN_RELEASE clears the latch and brings it back when no latch is left. NODE_RESET answers, and then
every die has lost its state while the wrapped credential, the fuse bank, the part and the unit generations stand. A
message that fails is counted and nothing else happens; a port not enabled, or without HD0, answers nothing. The
tag's MAC and the reply's layout are opaque (a log entry). -/
def Obligations.LegacyPortAnswers : Prop :=
  (∀ (counter : Nat) (b tag : List Byte) (c : Instr) (s : State), c ∈ legacyCmds counter b tag → Completes c s fun t =>
      ((hubAlive s 0 = false ∨ legacyOn s = false) → t = s) ∧
      (hubAlive s 0 = true → legacyOn s = true → legacyPasses s counter b tag = false → t = bump s .lov_LEGACY_AUTH_FAILS 0)) ∧
  (∀ (counter : Nat) (b tag : List Byte) (s : State), LegacyOk s counter b tag →
    Completes (.legacyIdentity counter b tag) s (fun t => t.life = s.life ∧ t.power = s.power ∧
      LegacyReplied s t counter 0 (leBytes 1 s.life.part.code ++ leBytes 1 0xB0 ++ leBytes 8 Config.serial)) ∧
    Completes (.legacyHealth counter b tag) s (fun t => t.life = s.life ∧ t.power = s.power ∧
      LegacyReplied s t counter 1 (leBytes 1 s.life.node ++ leBytes 2 (rg s .health_events) ++
        (List.range 32).flatMap (fun k => leBytes 1 (sliceSt s k).st) ++ (List.range 8).flatMap fun h => leBytes 1 (hubSt s h).st)) ∧
    Completes (.legacyTempPower counter b tag) s (fun t => t.life = s.life ∧ t.power = s.power ∧
      LegacyReplied s t counter 2 ((List.range 40).flatMap (fun d => leBytes 1 (ofSigned 8 (dieTemp s d))) ++
        (List.range 32).flatMap (fun k => leBytes 1 (ofSigned 8 (stackSt s k).temp)) ++ leBytes 2 s.mem.powerAvg)) ∧
    Completes (.legacyDrain counter b tag) s (fun t => LegacyReplied s t counter 3 [] ∧
      ((s.life.node = 2 ∨ s.life.node = 3) → t.life = { s.life with node := 3 } ∧ t.power = { s.power with drainSoft := true }) ∧
      (s.life.node ≠ 2 → s.life.node ≠ 3 → t.life = s.life ∧ t.power = s.power)) ∧
    Completes (.legacyDrainRelease counter b tag) s (fun t => LegacyReplied s t counter 4 [] ∧
      t.power = { s.power with drainSoft := false } ∧
      (s.life.node = 3 → s.power.drainPin = false → shuttingDown s = false → t.life = { s.life with node := 2 }) ∧
      ((s.life.node ≠ 3 ∨ s.power.drainPin = true ∨ shuttingDown s = true) → t.life = s.life)) ∧
    Completes (.legacyNodeReset counter b tag) s (fun t =>
      t.out = s.out ++ [.legacy (Config.legacyReply 5 [])] ∧ t.mem.cells = [] ∧ t.msgs = [] ∧ t.trust.sessions = [] ∧
      t.trust.pskNand = s.trust.pskNand ∧ t.trust.fuses = s.trust.fuses ∧ t.trust.svnMin = s.trust.svnMin ∧ t.life.part = s.life.part ∧
      (∀ h, (hubSt t h).up = false ∧ (hubSt t h).unitGen = (hubSt s h).unitGen) ∧
      t.power.diesOut = false))

/-- The commands of the management class on one message, with their op codes. -/
def mgmtCmds (msg : Nat) : List (Instr × Nat) :=
  [(.getCerts msg, opGetCerts), (.attest msg, opAttest), (.sessionOpen msg, opSessionOpen), (.sessionAuth msg, opSessionAuth),
   (.sessionClose msg, opSessionClose), (.regRead msg, opRegRead), (.regWrite msg, opRegWrite), (.configDelta msg, opConfigDelta),
   (.programLoad msg, opProgramLoad), (.stage msg, opFirmware), (.activate msg, opFirmware), (.revert msg, opFirmware),
   (.ratify msg, opFirmware), (.legacyPsk msg, opLegacyPsk), (.tenantView msg, opTenantView)]

/-- A MGMT request of an op that starts at the primary, or in RECOVERY. -/
def MgmtReq (s : State) (msg op : Nat) (m : Msg) : Prop :=
  mayStart s msg .mgmt = some m ∧ (MgmtHdr.parse m.be m.payload).ver = 1 ∧ (MgmtHdr.parse m.be m.payload).op = op ∧
  (recoveryOp s m (MgmtHdr.parse m.be m.payload) = true ∨ (primaryLov s).isSome = true)

/-- A sealed request of an op opens: its session, its body, and the state once it is taken. -/
def Opens (s : State) (msg op : Nat) (m : Msg) (x : Session) (b : List Byte) (u : State) : Prop :=
  MgmtReq s msg op m ∧ peekSealed s m = .ok (x, b) ∧ u = takeSealed s x (MgmtHdr.parse m.be m.payload).seq

/-- GET_CERTS, ATTEST, SESSION_OPEN, SESSION_AUTH, SESSION_CLOSE, SESSION_IDLE_EXPIRY, LEGACY_PSK and TENANT_VIEW.
Without a primary a MGMT message receives BUSY from every command of the class, but for what RECOVERY answers; with
one, a message of another format version or of an op that R352 does not list is refused VERSION. A command of
another op than the message's changes nothing. Else GET_CERTS answers the signer's chain, ATTEST the signed report
with the nonce while under 256 in the second, counted, and BUSY above. SESSION_OPEN on a channel adds one pending
session of its own number while fewer than four stand, and BUSY above; SESSION_AUTH authenticates the pending
session of its channel when the signature verifies, else it ends it and counts. A sealed SESSION_CLOSE ends its
session, LEGACY_PSK sets the credential and stores it wrapped under store_key with a free nonce; both answers are
sealed. An idle session ends after 600 s. TENANT_VIEW answers the tenant's published record and occupancy in the
channel's byte order, and an operator's connection gets PD_MISMATCH. No command of these writes memory. -/
def Obligations.ManagementSessionsRun : Prop :=
  (∀ (msg op : Nat) (m : Msg) (h : MgmtHdr) (c : Instr) (s : State), (c, op) ∈ mgmtCmds msg → mayStart s msg .mgmt = some m →
    h = MgmtHdr.parse m.be m.payload → Completes c s fun t =>
      (mgmtOps.contains h.op = true → h.op ≠ op → t = s) ∧
      (mgmtOps.contains h.op = false ∨ h.op = op → primaryLov s = none → recoveryOp s m h = false → t = mgmtAnswer s msg m .busy []) ∧
      (mgmtOps.contains h.op = false ∨ h.op = op ∧ h.ver ≠ 1 → (primaryLov s).isSome = true ∨ recoveryOp s m h = true →
        t = mgmtAnswer s msg m .version [])) ∧
  (∀ (msg : Nat) (m : Msg) (s : State), MgmtReq s msg opGetCerts m → Completes (.getCerts msg) s fun t =>
      t = mgmtAnswer s msg m .ok (certChain s (signerHub s)) ∧ t.mem = s.mem) ∧
  (∀ (msg : Nat) (m : Msg) (s : State), MgmtReq s msg opAttest m → Completes (.attest msg) s fun t => t.mem = s.mem ∧
      (m.payload.length ≠ 48 → t = mgmtAnswer s msg m .bounds []) ∧
      (m.payload.length = 48 → 256 ≤ reportsNow s (signerHub s) → t = mgmtAnswer s msg m .busy []) ∧
      (m.payload.length = 48 → reportsNow s (signerHub s) < 256 →
        t.trust.reports = (now s (signerHub s) / 1000000000, reportsNow s (signerHub s) + 1) ∧
        ∃ u, u = { s with trust := { s.trust with reports := t.trust.reports }, regs := u.regs } ∧
          t = mgmtAnswer u msg m .ok (report s (signerHub s) (m.payload.drop 16)))) ∧
  (∀ (msg : Nat) (m : Msg) (c : Channel) (s : State), MgmtReq s msg opSessionOpen m → chanOf m = some c →
    m.payload.length = 73 → Completes (.sessionOpen msg) s fun t => t.mem = s.mem ∧
      (4 ≤ s.trust.sessions.length → t = mgmtAnswer s msg m .busy []) ∧
      (s.trust.sessions.length < 4 → msgOf t msg = none ∧ ∃ x, t.trust.sessions = s.trust.sessions ++ [x] ∧ x.chan = c ∧
        x.authed = false ∧ x.id = s.nextId ∧ x.keyIdx = fld m.be m.payload 16 1 ∧ x.seqIn = 0 ∧ x.seqOut = 0 ∧
        x.lastAt = primaryNow s)) ∧
  (∀ (msg sid : Nat) (m : Msg) (s : State), MgmtReq s msg opSessionAuth m → sid = (MgmtHdr.parse m.be m.payload).sid →
    Completes (.sessionAuth msg) s fun t => t.mem = s.mem ∧
      (pendingSession s m sid = none → t = mgmtAnswer s msg m .notFound []) ∧
      (∀ x k, pendingSession s m sid = some x → aget (trustCfg s).opKeys x.keyIdx = some k →
        Config.ed448Verify k ctxSession (Config.shake256 (x.trans ++ chanBytes s x.chan) 64) (m.payload.drop 16) = true →
        msgOf t msg = none ∧ t.trust.sessions = s.trust.sessions.map fun y => if y.id = x.id then { y with
          authed := true, key := Config.shake256 (sessionLabel ++ x.secret ++ x.trans) 32, lastAt := primaryNow s } else y) ∧
      (∀ x, pendingSession s m sid = some x → aget (trustCfg s).opKeys x.keyIdx = none →
        t = mgmtAnswer (endSession (bumpPrimary s .lov_SESSION_FAILS) x.id) msg m .notFound [] ∧ sessionOf t x.id = none)) ∧
  (∀ (msg : Nat) (m : Msg) (s : State), mayStart s msg .mgmt = some m →
    Completes (.sessionClose msg) s (fun t => t.mem = s.mem ∧ ∀ x b u, Opens s msg opSessionClose m x b u →
      t = endSession (sealedAnswer u msg m x.id .ok []) x.id ∧ sessionOf t x.id = none) ∧
    Completes (.legacyPsk msg) s (fun t => t.mem = s.mem ∧ ∀ x b u, Opens s msg opLegacyPsk m x b u →
      (b.length = 32 → t.trust.psk = some b ∧ ∃ n v, freshBytes u 12 = (n, v) ∧
        t = sealedAnswer (modTrust v fun y =>
          { y with psk := some b, pskNand := some (n, Config.gcmSeal (lovOf u (signerHub u)).storeKey n [] b) }) msg m x.id .ok []) ∧
      (b.length ≠ 32 → t = sealedAnswer u msg m x.id .bounds [] ∧ t.trust.psk = s.trust.psk))) ∧
  (∀ (sid : Nat) (s : State), Completes (.sessionIdleExpiry sid) s fun t => sessionOf t sid = none ∧ t.mem = s.mem ∧
      (∀ y ∈ s.trust.sessions, y.id ≠ sid → y ∈ t.trust.sessions) ∧
      (∀ x, sessionOf s sid = some x → x.lastAt + 600000000000 ≤ now t ((primaryLov s).getD 0)) ∧
      (sessionOf s sid = none → t = s)) ∧
  (∀ (msg : Nat) (m : Msg) (s : State), MgmtReq s msg opTenantView m → Completes (.tenantView msg) s fun t => t.mem = s.mem ∧
      (m.tenant = 0 → t = mgmtAnswer s msg m .pdMismatch []) ∧
      (m.tenant ≠ 0 → t = mgmtAnswer s msg m .ok
        ((agetD s.health.pubM m.tenant ⟨0, 0, 0, 0, 0, 0, 0, 0, 0⟩).wire m.be ++ put m.be 4 (tenantPub s m.tenant .tier_sram_used) ++
          put m.be 4 (tenantPub s m.tenant .tier_slot_used) ++ put m.be 4 (tenantPub s m.tenant .tier_merge_used))))

/-- The two writes of a 32-bit word at a BAR0 offset. -/
def wordWrites (p : Port) (f : Fn) (off : Nat) (v : BitVec 32) (ide : Option Nat) : List Instr :=
  [.registerWrite p f off v ide, .classFieldWrite p f off v ide]

/-- An operator writes a word of a node block through the primary port's PF. -/
def OperatorWord (s : State) (p : Port) (f : Fn) (ide : Option Nat) (off : Nat) (b : Blk) (inst o : Nat) : Prop :=
  takesTlp s p.val f.val ide = true ∧ f.val = 0 ∧ barPlace p.val off = some (b, inst, o) ∧ b ≠ .fn ∧ pfSession s = true ∧
  p.val = primaryPort s

/-- A written word is one field's. -/
def OneField (b : Blk) (o v : Nat) (r : Reg) (k w : Nat) : Prop := wordParts b o v = [(r, k, w)]

/-- The body of a field's class with the field at a value. -/
def newBody (s : State) (r : Reg) (inst k w : Nat) : List Byte :=
  Config.bodySet r.info.cls (body s r.info.cls) r.ctorIdx (regInst r inst) (entryOf s r inst k) w

/-- A RW field that a write sets at once, to any value of its width. -/
def plainField (r : Reg) : Bool :=
  decide (r.info.acc = .rw) && decide (r.info.cls = 0) && ! measured r && ! heldField r && ! levelField r &&
    decide (r.info.sel ≠ .kernel) &&
    ! [Reg.life_census_valid, .mem_bank_request, .port_max_speed, .port_fn_msix_count, .fab_seg_code, .health_jr_seq_hi].contains r

/-- REGISTER_WRITE and CLASS_FIELD_WRITE: words written through a function's BAR0. A write a function does not take is
discarded, and a write of the PF at a reserved offset changes nothing. A write to a node block without an operator
session on the primary port's PF, or, outside the port's own block, through the other port, is discarded and
counted; so is a write to a VF's block through a PF without a session. A VF's write changes only fields of its own
block, and none of its counters. With the session, a word of one field: a read-only field keeps its value, a W1C
field loses the bits written 1 and nothing else changes, a plain RW field of no class takes the value; a word with a
field of a critical class is refused whole and counted in DELTAS_REFUSED; a field of another class starts one delta
of that field, signed by the session's key, and keeps its value until the commit, or is refused and counted while a
delta is in progress or where the class does not take the body that results. A word of one field that starts no
operation and is not bank_request changes no byte of page memory. -/
def Obligations.RegisterWordsAreWritten : Prop :=
  (∀ (p : Port) (f : Fn) (off : Nat) (v : BitVec 32) (ide : Option Nat) (c : Instr) (s : State), c ∈ wordWrites p f off v ide →
    Completes c s fun t =>
      (takesTlp s p.val f.val ide = false → t = untaken s p.val f.val) ∧
      (takesTlp s p.val f.val ide = true → f.val = 0 → barPlace p.val off = none → t = s) ∧
      (∀ b inst o, takesTlp s p.val f.val ide = true → f.val = 0 → barPlace p.val off = some (b, inst, o) → b ≠ .fn →
        (pfSession s = false ∨ (b ≠ .port ∧ p.val ≠ primaryPort s)) → t = writeRefused s p.val) ∧
      (∀ inst o, takesTlp s p.val f.val ide = true → f.val = 0 → barPlace p.val off = some (.fn, inst, o) → inst ≠ fnInst p.val 0 →
        sessionOn s (.pcie p.val 0) = false → t = writeRefused s p.val) ∧
      (takesTlp s p.val f.val ide = true → f.val ≠ 0 → t = { s with regs := t.regs, host := t.host } ∧
        (∀ r i e, (r.info.blk ≠ .fn ∨ i ≠ fnInst p.val f.val) → rget t r i e = rget s r i e) ∧
        ∀ r e, r.info.acc = .w1c → rget t r (fnInst p.val f.val) e = rget s r (fnInst p.val f.val) e)) ∧
  (∀ (p : Port) (f : Fn) (off : Nat) (v : BitVec 32) (ide : Option Nat) (b : Blk) (inst o : Nat) (r : Reg) (k w : Nat)
    (nb : List Byte) (c : Instr) (s : State), c ∈ wordWrites p f off v ide → OperatorWord s p f ide off b inst o →
    OneField b o v.toNat r k w → nb = newBody s r inst k w → Completes c s fun t =>
      (r.info.acc ≠ .w1s → r ≠ .mem_bank_request → t.mem.cells = s.mem.cells) ∧
      (r.info.cls = 0 → r.info.acc = .ro → t = s) ∧
      (r.info.cls = 0 → r.info.acc = .w1c → t = { s with regs := t.regs } ∧
        rget t r inst (entryOf s r inst k) = rget s r inst (entryOf s r inst k) &&& (2 ^ r.width - 1 - w) ∧
        ∀ y, y ≠ (r, regInst r inst, entryOf s r inst k) → aget t.regs y = aget s.regs y) ∧
      (plainField r = true → t = { s with regs := t.regs } ∧ rget t r inst (entryOf s r inst k) = w ∧
        ∀ y, y ≠ (r, regInst r inst, entryOf s r inst k) → aget t.regs y = aget s.regs y) ∧
      (critical r.info.cls = true → t = bump s .life_DELTAS_REFUSED 0) ∧
      (r.info.cls ≠ 0 → critical r.info.cls = false → Config.bodyOk r.info.cls nb = true → s.life.job = none →
        t = { s with life := t.life } ∧
        ∃ j, t.life = { s.life with job := some j } ∧ j.seq = configSeq s + 1 ∧ j.signer = pfKey s ∧ j.phase = 0 ∧
          j.image = false ∧ j.silent = true ∧ j.fields = [(r, regInst r inst, entryOf s r inst k, w)] ∧
          j.bodies = [(r.info.cls, nb)]) ∧
      (r.info.cls ≠ 0 → critical r.info.cls = false → Config.bodyOk r.info.cls nb = false ∨ s.life.job.isSome = true →
        t = bump s .life_DELTAS_REFUSED 0))

/-- A session's write of one field of a node block: the place and the field. -/
def SessionField (m : Msg) (b : List Byte) (u : State) (blk : Blk) (inst o : Nat) (r : Reg) (k w : Nat) : Prop :=
  b.length = 8 ∧ regOffsetOk (fld m.be b 0 4) = true ∧ barPlace (primaryPort u) (fld m.be b 0 4) = some (blk, inst, o) ∧
  blk ≠ .fn ∧ OneField blk o (fld m.be b 4 4) r k w

/-- REG_READ and REG_WRITE: registers over an operator session. Once a sealed request opens, a body of another length or
an offset that names no 32-bit register is answered BOUNDS. REG_READ answers the register at full resolution, as the
primary port's PF sees it; a reserved offset reads zero. REG_WRITE writes as the primary port's PF would: a reserved
offset or a read-only field answers OK and changes nothing, a W1C field loses the bits written 1, a plain RW field
of no class takes the value, a word of a critical class, or one whose body the class does not take, answers BOUNDS,
and a field of another class starts one delta that names this request and answers at its commit, or BUSY while a
delta is in progress. Every refused delta is counted. REG_READ, and a word of one field that starts no operation and
is not bank_request, change no byte of page memory. -/
def Obligations.SessionsReadAndWriteRegisters : Prop :=
  (∀ (msg : Nat) (m : Msg) (s : State), mayStart s msg .mgmt = some m → Completes (.regRead msg) s fun t => t.mem = s.mem ∧
      ∀ x b u, Opens s msg opRegRead m x b u →
        ((b.length ≠ 4 ∨ regOffsetOk (fld m.be b 0 4) = false) → t = sealedAnswer u msg m x.id .bounds []) ∧
        (b.length = 4 → regOffsetOk (fld m.be b 0 4) = true →
          t = sealedAnswer (readReg u (primaryPort u) (fld m.be b 0 4)).1 msg m x.id .ok
            (put m.be 4 (readReg u (primaryPort u) (fld m.be b 0 4)).2)) ∧
        (b.length = 4 → regOffsetOk (fld m.be b 0 4) = true → barPlace (primaryPort u) (fld m.be b 0 4) = none →
          t = sealedAnswer u msg m x.id .ok (put m.be 4 0))) ∧
  (∀ (msg : Nat) (m : Msg) (s : State), mayStart s msg .mgmt = some m → Completes (.regWrite msg) s fun t =>
      ∀ x b u, Opens s msg opRegWrite m x b u →
        ((b.length ≠ 8 ∨ regOffsetOk (fld m.be b 0 4) = false) → t = sealedAnswer u msg m x.id .bounds []) ∧
        (b.length = 8 → regOffsetOk (fld m.be b 0 4) = true → barPlace (primaryPort u) (fld m.be b 0 4) = none →
          t = sealedAnswer u msg m x.id .ok []) ∧
        (∀ blk inst o r k w nb, SessionField m b u blk inst o r k w → nb = newBody u r inst k w → u.life.job.map (·.msg) ≠ some msg →
          (r.info.acc ≠ .w1s → r ≠ .mem_bank_request → t.mem.cells = s.mem.cells) ∧
          (r.info.cls = 0 → r.info.acc = .ro → t = sealedAnswer u msg m x.id .ok []) ∧
          (r.info.cls = 0 → r.info.acc = .w1c → t = sealedAnswer (rset u r inst (entryOf u r inst k)
            (rget u r inst (entryOf u r inst k) &&& (2 ^ r.width - 1 - w))) msg m x.id .ok []) ∧
          (plainField r = true → t = sealedAnswer (rset u r inst (entryOf u r inst k) w) msg m x.id .ok []) ∧
          (critical r.info.cls = true → t = sealedAnswer (bump u .life_DELTAS_REFUSED 0) msg m x.id .bounds []) ∧
          (r.info.cls ≠ 0 → critical r.info.cls = false → Config.bodyOk r.info.cls nb = false →
            t = sealedAnswer (bump u .life_DELTAS_REFUSED 0) msg m x.id .bounds []) ∧
          (r.info.cls ≠ 0 → critical r.info.cls = false → Config.bodyOk r.info.cls nb = true → u.life.job.isSome = true →
            t = sealedAnswer (bump u .life_DELTAS_REFUSED 0) msg m x.id .busy []) ∧
          (r.info.cls ≠ 0 → critical r.info.cls = false → Config.bodyOk r.info.cls nb = true → u.life.job = none →
            t.out = s.out ∧ t.regs = s.regs ∧ (msgOf t msg).map (·.phase) = some .waitCommit ∧
            ∃ j, t.life = { s.life with job := some j } ∧ j.msg = msg ∧ j.seq = configSeq s + 1 ∧ j.signer = x.keyIdx ∧
              j.silent = false ∧ j.bodies = [(r.info.cls, nb)] ∧ j.fields = [(r, regInst r inst, entryOf u r inst k, w)])))

/-- COARSE_PUBLISH and COARSE_PUBLISH_SECOND: what tenant-facing readers see. A hub that is in service publishes at the
next 10 ms of its local time, which has come afterwards: each of its counters becomes its value rounded down to a
multiple of 4096, what other hubs published stays, and the hub of the node's blocks publishes every tenant's
metering record the same way. At the next whole second it publishes the temperatures and throttle levels of its dies
as they are, and the hub of the node's blocks the average power of the samples since, as a multiple of 5 W, whose
collection starts again. Neither changes any other state. A hub out of service publishes nothing. -/
def Obligations.HubsPublishCoarseValues : Prop :=
  (∀ (h : Hub) (s : State), hubAlive s h = false → Completes (.coarsePublish h) s (fun t => t = s) ∧
    Completes (.coarsePublishSecond h) s fun t => t = s) ∧
  (∀ (h : Hub) (s : State), hubAlive s h = true → Completes (.coarsePublish h) s fun t =>
      t = { s with life := t.life, health := t.health } ∧ t.life = { s.life with hubs := t.life.hubs } ∧
      now t h % 10000000 = 0 ∧ now s h < now t h ∧ now t h ≤ now s h + 10000000 ∧ (∀ g, g ≠ (h : Nat) → hubSt t g = hubSt s g) ∧
      ((s.regs.map (·.1)).Nodup → ∀ r i e, isCounter r = true → holderOf s r.info.blk i = (h : Nat) →
        agetD t.health.pub (r, i, e) 0 = agetD s.regs (r, i, e) 0 / 4096 * 4096) ∧
      (∀ y, holderOf s y.1.info.blk y.2.1 ≠ (h : Nat) → agetD t.health.pub y 0 = agetD s.health.pub y 0) ∧
      (nodeHub s = (h : Nat) → ∀ x m, aget s.health.meters x = some m → ∃ g, aget t.health.pubM x = some g ∧
        g.bytesIn = m.bytesIn / 4096 * 4096 ∧ g.bytesOut = m.bytesOut / 4096 * 4096 ∧ g.pageMs = m.pageMs / 4096 * 4096 ∧
        g.sramMs = m.sramMs / 4096 * 4096 ∧ g.scanned = m.scanned / 4096 * 4096 ∧ g.skipped = m.skipped / 4096 * 4096 ∧
        g.merges = m.merges / 4096 * 4096 ∧ g.nonFinite = m.nonFinite / 4096 * 4096 ∧ g.keyMiss = m.keyMiss / 4096 * 4096) ∧
      (nodeHub s ≠ (h : Nat) → t.health.pubM = s.health.pubM) ∧ t.health.pubT = s.health.pubT) ∧
  (∀ (h : Hub) (s : State), hubAlive s h = true → Completes (.coarsePublishSecond h) s fun t =>
      t = { s with life := t.life, health := t.health, mem := t.mem } ∧ t.mem.cells = s.mem.cells ∧ t.health.pub = s.health.pub ∧
      now t h % 1000000000 = 0 ∧ now s h < now t h ∧ now t h ≤ now s h + 1000000000 ∧
      (∀ d, d < 40 → dieHub s d = (h : Nat) →
        agetD t.health.pubT (.mem_die_temp, d) 0 = ofSigned 8 (dieTemp s d) ∧
        (d < 32 → agetD t.health.pubT (.mem_stack_temp, d) 0 = ofSigned 8 (stackSt s d).temp ∧
          agetD t.health.pubT (.mem_throttle_level, d) 0 = agetD s.mem.level d 0)) ∧
      (nodeHub s = (h : Nat) → agetD t.health.pubT (.mem_power_avg, 0) 0 =
          (if s.mem.powerN = 0 then s.mem.powerAvg else s.mem.powerSum / s.mem.powerN) / 5 * 5 ∧
        t.mem.powerSum = 0 ∧ t.mem.powerN = 0) ∧
      (nodeHub s ≠ (h : Nat) → t.mem = s.mem ∧
        agetD t.health.pubT (.mem_power_avg, 0) 0 = agetD s.health.pubT (.mem_power_avg, 0) 0))

/-- A delta's bytes fail the first of the checks of R373. -/
def BadFormat (s : State) (b : List Byte) : Prop :=
  (CfgHdr.parse b).ver ≠ 1 ∨ (CfgHdr.parse b).resv ≠ 0 ∨ ((CfgHdr.parse b).kind ≠ 1 ∧ (CfgHdr.parse b).kind ≠ 2) ∨
  (CfgHdr.parse b).count = 0 ∨ 9 < (CfgHdr.parse b).count ∨ ((CfgHdr.parse b).kind = 1 ∧ s.life.node ≠ 1) ∨
  ∃ e ∈ cfgEntries b (CfgHdr.parse b), e.1 ∉ allClasses

/-- An image in the clear to a node in RECOVERY. -/
def BareImage (s : State) (m : Msg) : Prop :=
  (MgmtHdr.parse m.be m.payload).op = opConfigDelta ∧ recoveryOp s m (MgmtHdr.parse m.be m.payload) = true

/-- A delta of one register field of a class, waiting for its commit. -/
def FieldJob (j : DeltaJob) (c : Nat) (body : List Byte) : Prop :=
  j.image = false ∧ j.phase = 0 ∧ j.bodies = [(c, body)] ∧ j.fields ≠ []

/-- CONFIG_DELTA and DELTA_COMMIT: a delta is checked, waits, and takes the other slot. A delta in a sealed request, or
in RECOVERY an image in the clear through the primary port's PF, is checked in the order of R373: a format, class or
kind the spec does not list gets VERSION, then a signature that does not verify under the class in force NOT_FOUND,
then a part, sequence, base, length, body, digest or phase that does not fit, or a MAP class without the margin of
R294, BOUNDS, then BUSY while a delta is in progress. A refusal is counted in DELTAS_REFUSED, changes no class, and
is answered; an accepted delta is the delta in progress and its request waits, unanswered. DELTA_COMMIT does nothing
without a delta or a NAND path. Else the inactive slot becomes the active one with the delta's sequence and signer,
committed, the delta is no longer in progress, and the slot that was active stays as it was. A delta of one register
field also leaves every class body but its own, and the phase of the critical classes, unchanged. No delta but an
image changes page memory's contents. -/
def Obligations.DeltasAreCheckedAndCommitted : Prop :=
  (∀ (s : State) (b : List Byte),
    (BadFormat s b → checkCfg s b = .error .version) ∧
    (¬ BadFormat s b → cfgSigned s b (CfgHdr.parse b) = false → checkCfg s b = .error .notFound) ∧
    (∀ h, checkCfg s b = .ok h → ¬ BadFormat s b ∧ h = CfgHdr.parse b ∧ cfgSigned s b h = true ∧ s.life.job = none ∧
      (∀ e ∈ cfgEntries b h, mapMargin s e.1 (takeBytes b e.2.2.1 e.2.1) = true) ∧
      (h.kind = 2 → h.base = configSeq s ∧ configSeq s < h.seq ∧ (h.phase = 0 → ∀ e ∈ cfgEntries b h, critical e.1 = false)))) ∧
  (∀ (msg : Nat) (m : Msg) (s : State), mayStart s msg .mgmt = some m → Completes (.configDelta msg) s fun t =>
      t.mem = s.mem ∧ t.life.cfg = s.life.cfg ∧ t.life.slot = s.life.slot ∧
      (∀ st, BareImage s m → MgmtReq s msg opConfigDelta m → checkCfg s (m.payload.drop 16) = .error st →
        t = mgmtAnswer (bump s .life_DELTAS_REFUSED 0) msg m st []) ∧
      (∀ x b u st, ¬ BareImage s m → Opens s msg opConfigDelta m x b u → checkCfg u b = .error st →
        t = sealedAnswer (bump u .life_DELTAS_REFUSED 0) msg m x.id st []) ∧
      (∀ x b u h, ¬ BareImage s m → Opens s msg opConfigDelta m x b u → checkCfg u b = .ok h →
        t.out = s.out ∧ t.regs = s.regs ∧ (msgOf t msg).map (·.phase) = some .waitCommit ∧
        ∃ j, t.life = { s.life with job := some j } ∧ j.msg = msg ∧ j.seq = h.seq ∧ j.signer = h.signer ∧ j.phase = h.phase ∧
          j.bodies = cfgBodies b h ∧ j.fields = [] ∧ j.silent = false)) ∧
  (∀ s : State, (s.life.job = none ∨ nandHub s = none) → Completes .deltaCommit s fun t => t = s) ∧
  (∀ (j : DeltaJob) (s : State), s.life.job = some j → (nandHub s).isSome = true → Completes .deltaCommit s fun t =>
      (j.image = false → s.life.slot ≤ 1 → t.life.slot = 1 - s.life.slot ∧ t.life.job = none ∧ configSeq t = j.seq ∧
        (cfgSlot t).signer = j.signer ∧ (cfgSlot t).committed = true ∧
        aget t.life.cfg s.life.slot = aget s.life.cfg s.life.slot) ∧
      (∀ c body, FieldJob j c body → s.life.slot ≤ 1 → agetD (cfgSlot t).bodies c [] = body ∧
        (∀ d, d ≠ c → agetD (cfgSlot t).bodies d [] = agetD (cfgSlot s).bodies d []) ∧
        t.life.crit = s.life.crit ∧ t.life.alt = s.life.alt) ∧
      (j.image = true → t.life.node = 0 ∧ t.mem.cells = []))

/-- A request to load an image has opened: its number and image bytes. -/
def LoadsImage (s : State) (msg : Nat) (m : Msg) (x : Session) (u : State) (n : Nat) (b : List Byte) : Prop :=
  ∃ c, Opens s msg opProgramLoad m x c u ∧ fld false c 0 1 = n ∧ c.drop 8 = b

/-- An image of the format, all of whose words are instructions. -/
def imageOk (b : List Byte) : Bool :=
  decide (8 ≤ b.length) && decide (b.length % 8 = 0) && decide (fld false b 0 1 % 16 = 1) && (imageWords b).all insnOk

/-- PROGRAM_LOAD and PROGRAM_FREE: operator programs enter and leave the store. An image that is not a whole number of
8-byte words of the format or holds a reserved instruction gets VERSION, then a number outside 16 to 63 BOUNDS, then
a number that a queued or resident command or a valid kernel-table entry names BUSY, then QUOTA where no room is
left, then BOUNDS for a loop or branch that R150 forbids or a segment above 4,000 ns; a refused image changes
nothing. An accepted one stands in the store under its number with its words, where it starts, its bound and as the
operator's, clear of every other program, and the answer is OK. PROGRAM_FREE of a number outside 16 to 63 shows
BOUNDS, of none installed NOT_FOUND, of one a command names BUSY; else the program and its words are gone, every
other program stands, and it shows OK. Neither writes memory. -/
def Obligations.ProgramsAreLoadedAndFreed : Prop :=
  (∀ (s : State) (n : Nat) (b : List Byte),
    (imageOk b = false → checkImage s n b = .error .version) ∧
    (imageOk b = true → (n < 16 ∨ 63 < n) → checkImage s n b = .error .bounds) ∧
    (imageOk b = true → 16 ≤ n → n ≤ 63 → (cmdNames s n = true ∨ tableNames s n = true) → checkImage s n b = .error .busy) ∧
    (∀ a bound ws, checkImage s n b = .ok (a, bound, ws) → imageOk b = true ∧ 16 ≤ n ∧ n ≤ 63 ∧ ws = imageWords b ∧ bound ≤ 4000 ∧
      flowOk ws = true ∧ 12288 ≤ a ∧ a + ws.length ≤ 32768 ∧
      ∀ p ∈ s.dill.progs, p.1 ≠ n → 12288 ≤ p.2.start → a + ws.length ≤ p.2.start ∨ p.2.start + p.2.len ≤ a)) ∧
  (∀ (msg : Nat) (m : Msg) (s : State), mayStart s msg .mgmt = some m → Completes (.programLoad msg) s fun t =>
      t.mem = s.mem ∧ ∀ x u n b, LoadsImage s msg m x u n b →
        (∀ st, checkImage u n b = .error st → t = sealedAnswer u msg m x.id st []) ∧
        (∀ a bound ws, checkImage u n b = .ok (a, bound, ws) →
          aget t.dill.progs n = some ⟨a, ws.length, bound, true⟩ ∧
          (∀ i, i < ws.length → agetD t.dill.store (a + i) 0 = ws.getD i 0) ∧
          (∀ k, k ≠ n → aget t.dill.progs k = aget s.dill.progs k) ∧ t.dill.eng = s.dill.eng ∧
          t = sealedAnswer { u with dill := t.dill, life := t.life } msg m x.id .ok [])) ∧
  (∀ (n : Nat) (s : State), Completes (.programFree n) s fun t => t.mem = s.mem ∧ t.dill.eng = s.dill.eng ∧
      ((n < 16 ∨ 63 < n) → t = emit s (.status .bounds)) ∧
      (16 ≤ n → n ≤ 63 → aget s.dill.progs n = none → t = emit s (.status .notFound)) ∧
      (16 ≤ n → n ≤ 63 → (aget s.dill.progs n).isSome = true → cmdNames s n = true → t = emit s (.status .busy)) ∧
      (∀ p, 16 ≤ n → n ≤ 63 → aget s.dill.progs n = some p → cmdNames s n = false →
        aget t.dill.progs n = none ∧ (∀ k, k ≠ n → aget t.dill.progs k = aget s.dill.progs k) ∧
        (∀ a, p.start ≤ a → a < p.start + p.len → aget t.dill.store a = none) ∧
        (∀ a, (a < p.start ∨ p.start + p.len ≤ a) → aget t.dill.store a = aget s.dill.store a) ∧
        t.out = s.out ++ [.status .ok]))

/-- The FIRMWARE commands with their sub-ops. -/
def fwCmds (msg : Nat) : List (Instr × Nat) := [(.stage msg, 1), (.activate msg, 2), (.revert msg, 3), (.ratify msg, 4)]

/-- A sealed FIRMWARE request of a sub-op has opened. -/
def FwOpens (s : State) (msg sub : Nat) (m : Msg) (x : Session) (b : List Byte) (u : State) : Prop :=
  Opens s msg opFirmware m x b u ∧ fld false b 0 1 = sub

/-- A bundle passes: signed, of a security version no hub's minimum is above, with a NAND path to write it. -/
def BundlePasses (s : State) (f : Bool × Nat × List Byte × List (List Byte)) : Prop :=
  f.1 = true ∧ (∀ h, h < 8 → agetD s.trust.svnMin h 0 ≤ f.2.1) ∧ (nandHub s).isSome = true

/-- The request is refused with a status the spec leaves open, and nothing else happens. -/
def FreelyRefused (u t : State) (msg : Nat) (m : Msg) (x : Session) : Prop :=
  ∃ st : Status, st ≠ .ok ∧ t = sealedAnswer { u with freeCtr := u.freeCtr + 1 } msg m x.id st []

/-- Dies that a body names and that move: the slices and hubs among them begin to, a Lovage restarts into its new slot. -/
def DiesMove (s t : State) (moves : Nat → Prop) (dest : Nat → Nat) : Prop :=
  (∀ d, d < 40 → moves d → aget t.life.moving d = some (dest d, if d < 32 then 1 else 0) ∧ fwSlot t d = fwSlot s d) ∧
  (∀ d, 40 ≤ d → d < 48 → moves d → aget t.life.moving d = some (dest d, 1) ∧ fwSlot t d = dest d ∧ (lovOf t (d - 40)).booted = false) ∧
  (∀ d, ¬ moves d → aget t.life.moving d = aget s.life.moving d ∧ fwSlot t d = fwSlot s d) ∧ t.life.bundles = s.life.bundles

/-- STAGE, ACTIVATE, REVERT and RATIFY: the sub-ops of FIRMWARE. A sub-op other than 1 to 4 answers VERSION. STAGE
answers BUSY while dies run both slots or move; a bundle whose signature passes and whose security version is at
least every hub's fused minimum is then the committed bundle of the inactive slot and the staged one, and answers
OK; another bundle is refused and changes no bundle, with a status the spec leaves open (assumption 41). ACTIVATE
answers BOUNDS where the staged bundle does not list the bundle a named die runs; else every named slice and hub
that does not run the staged slot begins to move to it, and a named Lovage restarts into it. REVERT moves each named
die to the slot it does not run, where that holds a committed bundle. RATIFY answers BUSY until every die runs the
staged slot, then raises every hub's fused minimum to at least the staged security version. None of them writes
memory, and only RATIFY changes a fused minimum. -/
def Obligations.FirmwareIsStagedAndActivated : Prop :=
  (∀ (msg sub : Nat) (c : Instr) (m : Msg) (s : State), (c, sub) ∈ fwCmds msg → mayStart s msg .mgmt = some m → Completes c s fun t =>
      t.mem = s.mem ∧ (sub ≠ 4 → t.trust.svnMin = s.trust.svnMin) ∧
      ∀ x b u, Opens s msg opFirmware m x b u → (fld false b 0 1 = 0 ∨ 4 < fld false b 0 1) →
        t = sealedAnswer u msg m x.id .version []) ∧
  (∀ (msg : Nat) (m : Msg) (s : State), mayStart s msg .mgmt = some m → Completes (.stage msg) s fun t =>
      ∀ x b u, FwOpens s msg 1 m x b u →
        (inactiveSlot s = none → t = sealedAnswer u msg m x.id .busy []) ∧
        (∀ k, inactiveSlot s = some k → BundlePasses s (Config.bundleFacts (b.drop 16)) →
          bundleAt t k = ⟨(Config.bundleFacts (b.drop 16)).2.2.1, (Config.bundleFacts (b.drop 16)).2.1,
            (Config.bundleFacts (b.drop 16)).2.2.2, true⟩ ∧
          t.life = { s.life with staged := some k, bundles := t.life.bundles } ∧ (∀ i, i ≠ k → bundleAt t i = bundleAt s i)) ∧
        (∀ k, inactiveSlot s = some k → ¬ BundlePasses s (Config.bundleFacts (b.drop 16)) → FreelyRefused u t msg m x)) ∧
  (∀ (msg : Nat) (m : Msg) (s : State), mayStart s msg .mgmt = some m → Completes (.activate msg) s fun t =>
      ∀ x b u, FwOpens s msg 2 m x b u →
        (s.life.staged = none → t = sealedAnswer u msg m x.id .bounds []) ∧
        (∀ k d, s.life.staged = some k → d ∈ namedDies m.be b → fwSlot s d ≠ k → aget s.life.moving d = none →
          (bundleAt s (fwSlot s d)).digest ∉ (bundleAt s k).beside → t = sealedAnswer u msg m x.id .bounds []) ∧
        (∀ k, s.life.staged = some k →
          (∀ d ∈ namedDies m.be b, fwSlot s d ≠ k → aget s.life.moving d = none →
            (bundleAt s (fwSlot s d)).digest ∈ (bundleAt s k).beside) →
          DiesMove s t (fun d => d ∈ namedDies m.be b ∧ fwSlot s d ≠ k ∧ aget s.life.moving d = none) fun _ => k)) ∧
  (∀ (msg : Nat) (m : Msg) (s : State), mayStart s msg .mgmt = some m → Completes (.revert msg) s fun t =>
      ∀ x b u, FwOpens s msg 3 m x b u →
        ((∃ d ∈ namedDies m.be b, aget s.life.moving d = none ∧ (bundleAt s (1 - fwSlot s d)).committed = false) →
          FreelyRefused u t msg m x) ∧
        ((∀ d ∈ namedDies m.be b, aget s.life.moving d = none → (bundleAt s (1 - fwSlot s d)).committed = true) →
          DiesMove s t (fun d => d ∈ namedDies m.be b ∧ aget s.life.moving d = none) fun d => 1 - fwSlot s d)) ∧
  (∀ (msg : Nat) (m : Msg) (s : State), mayStart s msg .mgmt = some m → Completes (.ratify msg) s fun t =>
      ∀ x b u, FwOpens s msg 4 m x b u →
        (s.life.staged = none → FreelyRefused u t msg m x) ∧
        (∀ k, s.life.staged = some k → (s.life.moving ≠ [] ∨ ∃ d, d < 48 ∧ fwSlot s d ≠ k) →
          t = sealedAnswer u msg m x.id .busy []) ∧
        (∀ k, s.life.staged = some k → s.life.moving = [] → (∀ d, d < 48 → fwSlot s d = k) → t.life = s.life ∧
          ∀ h, h < 8 → agetD t.trust.svnMin h 0 = max (agetD s.trust.svnMin h 0) (bundleAt s k).svn))

/-- A die restarts into a slot. -/
def Restarts (s : State) (d k : Nat) : Prop := aget s.life.moving d = some (k, 1)

/-- A die's restart is over: a slice or Lovage has moved, a hub waits for its failback. -/
def RestartOver (t : State) (d k : Nat) : Prop := aget t.life.moving d = if d < 32 ∨ 40 ≤ d then none else some (k, 2)
/-- A slice's resident commands are not DONE and have not had their 10 ms. -/
def StillWorks (s : State) (d : Nat) : Prop :=
  d < 32 ∧ 0 < residents (dillOf s d) ∧ now s (homeHub s d) < agetD s.life.moveAt d 0 + 10000000

/-- DIE_READY, FW_READY_TIMEOUT and RESET_RELEASE: dies restart, and the node leaves reset. A die that restarts runs its
new slot once it reports ready, a slice only with no command resident or 10 ms after the activation, its resident
lane commands then ended in FAULT with BUSY and code 7 (model's choice, assumption 179); when it has not reported
within ten times its bound, 30 ms at a slice and 400 ms at a Lovage, it is on its old slot and FW_REVERTS counts it.
Either way a slice has moved and a hub waits for its failback. Neither does anything for a die that does not
restart. RESET_RELEASE with the rails in regulation and the dies held starts the node: the dies are out of reset,
MGMT_LEGACY is sampled, every hub is up, and the boot count has risen by one. A configuration slot that passes, the
active one first, is then the active one, and the node is DRAINING where a drain is held and else IN_SERVICE, one
generation on; without one the node is in RECOVERY. Another release only raises NODE_RESET#. No start changes a
fused minimum, the part or a configuration image. -/
def Obligations.DiesRestartAndTheNodeStarts : Prop :=
  (∀ (d : Die) (s : State), (∀ k, ¬ Restarts s d k) → Completes (.dieReady d) s fun t => t = s) ∧
  (∀ (d : FwDie) (s : State), (∀ k, ¬ Restarts s d k) → Completes (.fwReadyTimeout d) s fun t => t = s) ∧
  (∀ (d : Die) (k : Nat) (s : State), Restarts s d k → ((d : Nat) < 32 → NoScans s d) →
    Completes (.dieReady d) s fun t => t.mem = s.mem ∧
      (StillWorks s d → t = s) ∧
      (¬ StillWorks s d → RestartOver t d k ∧ fwSlot t d = k ∧
        (∀ e, e ≠ (d : Nat) → fwSlot t e = fwSlot s e ∧ aget t.life.moving e = aget s.life.moving e) ∧
        ((d : Nat) < 32 → ∀ i, (cmdOf (dillOf s d) i).kind = 0 →
          (cmdOf (dillOf s d) i).state = .running ∨ (cmdOf (dillOf s d) i).state = .yielded →
          cmdOf (dillOf t d) i = { cmdOf (dillOf s d) i with state := .fault, status := Status.busy.code, faultCode := 7 }))) ∧
  (∀ (d : FwDie) (k : Nat) (s : State), Restarts s d k → ((d : Nat) < 32 → NoScans s d) →
    Completes (.fwReadyTimeout d) s fun t => t.mem = s.mem ∧ RestartOver t d k ∧
      fwSlot t d = (if (d : Nat) < 40 then fwSlot s d else 1 - k) ∧
      (∀ e, e ≠ (d : Nat) → fwSlot t e = fwSlot s e ∧ aget t.life.moving e = aget s.life.moving e) ∧
      rget t .life_FW_REVERTS 0 0 = min (rget s .life_FW_REVERTS 0 0 + 1) (2 ^ Reg.width .life_FW_REVERTS - 1) ∧
      ((d : Nat) < 32 → now s (homeHub s d) + 30000000 ≤ now t (homeHub s d)) ∧
      (40 ≤ (d : Nat) → now s (d - 40) + 400000000 ≤ now t (d - 40))) ∧
  (∀ (strap : Bool) (n : NandFacts) (s : State), ¬ (s.power.rails = true ∧ s.power.pwrok = true ∧ s.power.diesOut = false) →
    Completes (.resetRelease strap n) s fun t => t = { s with power := { s.power with resetLow := false } }) ∧
  (∀ (strap : Bool) (n : NandFacts) (s : State), s.power.rails = true → s.power.pwrok = true → s.power.diesOut = false →
    Completes (.resetRelease strap n) s fun t => t.power.diesOut = true ∧ t.power.resetLow = false ∧ t.power.strap = strap ∧
      t.power.rails = true ∧ (∀ h, h < 8 → (hubSt t h).up = true) ∧ t.life.boot = s.life.boot + 1 ∧
      t.trust.svnMin = s.trust.svnMin ∧ t.life.part = s.life.part ∧ t.life.cfg = s.life.cfg ∧
      (startSlot s = none → t.life.node = 1) ∧
      (∀ i, startSlot s = some i → t.life.slot = i ∧ t.life.nodeGen = (s.life.nodeGen + 1) % 2 ^ 32 ∧
        t.life.node = if s.power.drainHeld ∨ s.power.drainPin then 3 else 2))

/-- The factor that rescales a record to the larger maximum. -/
def mergeFactor (m big : F32) : F32 := if m = big then ONE else exp2 (f32Sub .ne m big)

/-- The sum of two values of records, rescaled, before a replacement. -/
def mergedSum (a b : Rec) (x y : F32) : F32 :=
  f32Add .ne (f32Mul .ne x (mergeFactor a.m (f32Max a.m b.m))) (f32Mul .ne y (mergeFactor b.m (f32Max a.m b.m)))

/-- A value with an infinity replaced by FMAX of its sign. -/
def unInf (x : F32) : F32 := if x = POSINF then FMAX else if x = NEGINF then 0xFF7FFFFF#32 else x

/-- A record whose l and o are not infinite. -/
def NoInf (r : Rec) : Prop := f32inf r.l = false ∧ ∀ x ∈ r.o, f32inf x = false

/-- A merged l or o that would be infinite is replaced by FMAX of its sign and sets saturated; a bound may be infinite.
When two non-empty records merge, l and every o are the rescaled sums, with an infinite sum replaced by FMAX of its
sign; the result is saturated exactly when an input was or such a replacement was made. The merged bound is the
upward sum of the upward rescaled bounds and stays +∞ where that rounds to +∞, and no value of the bounds changes
whether the result is saturated. From inputs whose l and o are not infinite no merge, of empty records or not, gives
an infinite l or o. The same records of one head and width merge to the same record in either order, bit for bit. -/
def Obligations.MergedValuesSaturate : Prop :=
  (∀ a b : Rec, a.empty = false → b.empty = false →
    (mergeRec a b).l = unInf (mergedSum a b a.l b.l) ∧
    (mergeRec a b).o = (a.o.zip b.o).map (fun p => unInf (mergedSum a b p.1 p.2)) ∧
    ((mergeRec a b).saturated = true ↔ a.saturated = true ∨ b.saturated = true ∨ f32inf (mergedSum a b a.l b.l) = true ∨
      ∃ p ∈ a.o.zip b.o, f32inf (mergedSum a b p.1 p.2) = true) ∧
    (mergeRec a b).b = f32Add .up (mulUpInf a.b (mergeFactor a.m (f32Max a.m b.m)))
      (mulUpInf b.b (mergeFactor b.m (f32Max a.m b.m))) ∧ NoInf (mergeRec a b)) ∧
  (∀ (a b : Rec) (x y : F32), (mergeRec { a with b := x } { b with b := y }).saturated = (mergeRec a b).saturated ∧
    (mergeRec { a with b := x } { b with b := y }).l = (mergeRec a b).l ∧
    (mergeRec { a with b := x } { b with b := y }).o = (mergeRec a b).o) ∧
  (∀ a b : Rec, NoInf a → NoInf b → NoInf (mergeRec a b)) ∧
  (∀ a b : Rec, a.head = b.head → a.o.length = b.o.length → mergeRec a b = mergeRec b a)

/-- The query position of a request: qpos, or one below the snapshot length. With explicit_qpos the query position of a
request is its qpos; else it is one less than the length of the snapshot, and where that is zero it is −1 and no
position is visible. It depends on nothing else of the request or the descriptor, so every query head has the same
one. -/
def Obligations.QueryPositionIsShared : Prop :=
  ∀ (be : Bool) (a : Att) (payload : List Byte) (d : Desc),
    (a.expQpos = true → (attPattern be a payload d).pq = a.qpos) ∧
    (a.expQpos = false → (attPattern be a payload d).pq = (d.length : Int) - 1) ∧
    (a.expQpos = false → d.length = 0 → (attPattern be a payload d).pq = -1 ∧
      ∀ p, (attPattern be a payload d).sees p = false) ∧
    (∀ (a' : Att) (payload' : List Byte) (d' : Desc), a'.expQpos = a.expQpos → a'.qpos = a.qpos → d'.length = d.length →
      (attPattern be a' payload' d').pq = (attPattern be a payload d).pq)

/-- A page occupies a slot of the smallest class that holds it, on a 4 KiB boundary. The classes 0 to 6 are of 8, 12,
16, 24, 32, 48 and 64 KiB. The class of a page's slot holds the page, and every smaller class is too small for it. A
slot allocated for a page is the class's size from its base, and the home of a slot's base, like that of every unit
of page space, lies on a 4 KiB boundary. -/
def Obligations.PagesTakeTheSmallestSlot : Prop :=
  (List.range 7).map (fun c => slotUnits c * 4096) = [8192, 12288, 16384, 24576, 32768, 49152, 65536] ∧
  (∀ g : PGeom, g.size ≤ 65536 → g.cls < 7 ∧ g.size ≤ slotUnits g.cls * 4096 ∧ ∀ c, c < g.cls → slotUnits c * 4096 < g.size) ∧
  (∀ (s : State) (k tenant : Nat) (g : PGeom) (t : State) (lpn : Nat),
    allocSlot s k tenant (slotUnits g.cls) .page = some (t, lpn) →
    (aget t.mem.slots lpn).map (·.units) = some (slotUnits g.cls)) ∧
  (∀ (s : State) (lpn : Nat), homeAddr s lpn % 4096 = 0)

/-- The node has no work of its own under way: no operation, activation or retraining, no rebuilding, no drain, no read and no
window access that waits, no scan and no command in a slice. -/
def NothingToDo (s : State) : Prop :=
  s.life.op = none ∧ s.life.moving = [] ∧ s.life.retrainDue = [] ∧ s.chive.rebuild = [] ∧ s.life.node ≠ 3 ∧
  s.ledg.reads = [] ∧ s.host.waits = [] ∧ s.merge.held = [] ∧
  ∀ k, k < 32 → (dillOf s k).segment = false ∧ (dillOf s k).pool = none ∧
    ∀ p ∈ (dillOf s k).slots, p.2.state ≠ .queued ∧ p.2.state ≠ .running ∧ p.2.state ≠ .yielded

/-- A step runs the command at the front of the queue, and without one the clocks tick and stored words run. With
command c at the front of the queue a step is exec of c on the state with the queue's rest. With an empty queue, on
a node with no work of its own under way, a step changes nothing but the local times: each hub out of reset whose 25
MHz reference runs counts 40 ns more, modulo 2^64, and every other hub's count stands. That a step without a command
is one cycle of every reference, and one stored instruction of every running segment, is the model's choice
(assumptions 2, 27 and 182). Then a slice's scheduler and pool engine take what waits, which changes nothing where
nothing does, and a lane engine whose running command's program holds, at its program counter, a word of an
instruction does what the command of that instruction does; words of the table are read field by field, and a
reserved one is no instruction. -/
def Obligations.StepRunsTheFrontCommand : Prop :=
  (∀ (c : Instr) (rest : List Instr) (s : State), s.pending = c :: rest → step s = exec c { s with pending := rest }) ∧
  (∀ s : State, s.pending = [] → NothingToDo s →
    ∃ t, step s = Host.Outcome.next t ∧ t = { s with life := t.life } ∧
      t.life = { s.life with hubs := t.life.hubs } ∧
      ∀ h, now t h = if (hubSt s h).up = true ∧ (hubSt s h).ref25 = true then (now s h + 40) % 2 ^ 64 else now s h) ∧
  (∀ (k : Slice) (i w : Nat) (p : Prog) (f : State → Next) (s u t : State), (aget s.dill.eng k.val).isSome = true →
    u = poolNext (schedule s k.val) k.val → (dillOf u k.val).segment = true →
    (dillOf u k.val).cur = some i → aget u.dill.progs (cmdOf (dillOf u k.val) i).program = some p →
    (dillOf u k.val).pc < p.len → aget u.dill.store (p.start + (dillOf u k.val).pc) = some w → wordRun k w = some f →
    f u = .next t → engineStep s k = t) ∧
  (∀ (k : Slice) (s : State), (dillOf s k.val).segment = true → NoScans s k.val → (dillOf s k.val).pool = none →
    (∀ p ∈ (dillOf s k.val).slots, p.2.kind = 1 → p.2.state ≠ .queued) → poolNext (schedule s k.val) k.val = s) ∧
  (∀ (k : Slice) (w : Nat), insnOk w = false → wordRun k w = none) ∧
  (∀ k : Slice, wordRun k 0x3C00000000000000 = some (execHalt k ⟨0, 0, 0, 0⟩) ∧
    wordRun k 0x3201800089ABCDEF = some (execMovi k ⟨0, 3, 0, 0, 0x89ABCDEF#32⟩) ∧
    wordRun k 0x01130002_00640010 = some (execVld k ⟨1, true, true, 0, 16, 100, 16#16⟩) ∧
    wordRun k 0x40A1400030040000 = none)

/-- The state after reset. After reset no command waits, every register field reads the reset value its table gives, no
message, sequence, connection, merge context, region or ledger line stands, memory lists nothing and is canonical,
no operator session is open, every Lovage has term 0, no fused minimum or configuration is set, both known-good maps
are valid and TESTED with the results of manufacturing test, no die is out of reset, and the node state is STARTING.
The part, N4032-2T-F, and that reset is the unpowered node are the model's choices (assumption 1). -/
def Obligations.ResetStateIsAsSpecified : Prop :=
  State.reset.pending = [] ∧ State.reset.out = [] ∧ (∀ r i e, rget State.reset r i e = r.reset (regInst r i) e) ∧
  State.reset.msgs = [] ∧ State.reset.seqs.descs = [] ∧ State.reset.fab.conns = [] ∧ State.reset.merge.ctxs = [] ∧
  State.reset.regn.regions = [] ∧ State.reset.ledg.dir = [] ∧ State.reset.mem.cells = [] ∧ Canonical State.reset ∧
  State.reset.trust.sessions = [] ∧ (∀ h, (lovOf State.reset h).term = 0 ∧ (lovOf State.reset h).isPrimary = false) ∧
  State.reset.life.kgm.map (·.1) = [0, 1] ∧
  (∀ p ∈ State.reset.life.kgm, p.2.state = 1 ∧ kgmOk p.2 = true ∧ p.2.entries = Config.factoryEntries) ∧
  State.reset.trust.svnMin = [] ∧ State.reset.life.cfg = [] ∧ State.reset.life.node = 0 ∧ State.reset.life.part = .p2TF ∧
  State.reset.power.diesOut = false ∧ State.reset.power.rails = false ∧ (∀ h, hubAlive State.reset h = false ∧ now State.reset h = 0)

/-- Every step keeps memory in its canonical form. From every state whose memory is canonical (addresses strictly
rising, no byte listed that equals what an unlisted address reads as), whatever command runs, and when none waits, a
step that answers a next state gives one whose memory is canonical. Two such states whose bytes read the same at
every address then hold the same list. The form is the model's own; what an unlisted byte reads as is its choice
(assumption 4). -/
def Obligations.EveryStepKeepsMemoryCanonical : Prop :=
  (∀ s t : State, Canonical s → step s = Host.Outcome.next t → Canonical t) ∧
  (∀ (n : Nat) (s t : State), Canonical s → Reaches n s t → Canonical t) ∧
  (∀ s t : State, Canonical s → Canonical t → (∀ a, byteAt s a = byteAt t a) → s.mem.cells = t.mem.cells)

/-- No step takes back output, reuses a number, lowers a fused minimum or changes the part, and only the environment
ends a run. From every state, a step takes exactly the front command from the queue. What the node has shown stays
shown and only grows at its end; the counters that message and connection numbers and free values are drawn from
never fall; starts are only counted up; the part stays the same; no hub's fused minimum security version falls. No
step is refused, and the only fault is that the 48 V input is driven above the absolute maximum, where the spec
defines no behaviour. -/
def Obligations.NoStepUndoesWhatStands : Prop :=
  ∀ s : State, match step s with
    | .next t => t.pending = s.pending.drop 1 ∧ s.out <+: t.out ∧ s.freeCtr ≤ t.freeCtr ∧ s.nextId ≤ t.nextId ∧
        t.life.part = s.life.part ∧ s.life.boot ≤ t.life.boot ∧
        ∀ h, h < 8 → agetD s.trust.svnMin h 0 ≤ agetD t.trust.svnMin h 0
    | .fault f => f = .outsideLimits ∧ ∃ mv rest, s.pending = .vin48Valid mv :: rest ∧ 60000 < mv
    | .refused _ => False

/-- Every field of a frame fits its width, and payload_length is its payload's. -/
def FrameFits (f : Frame) : Prop :=
  f.version < 16 ∧ f.loadHint < 16 ∧ f.opcode < 256 ∧ f.flags < 65536 ∧ f.src < 2 ^ 24 ∧ f.cls < 16 ∧ f.dst < 2 ^ 24 ∧
  f.connId < 2 ^ 32 ∧ f.seq < 2 ^ 32 ∧ f.ack < 2 ^ 32 ∧ f.tag < 2 ^ 32 ∧ f.epoch < 65536 ∧ f.pd < 65536 ∧ f.credit < 65536 ∧
  f.payLen = f.payload.length ∧ f.payload.length < 65536 ∧ f.segIndex < 65536 ∧ f.segCount < 65536 ∧ f.replyTo < 2 ^ 32

/-- A Plembel frame's bytes spell the frame, whatever padding follows. For every frame whose fields fit their widths and
whose payload_length is its payload's length, the bytes written for it, followed by any padding, parse to that
frame: 44 bytes of header, big-endian, then the payload. Fewer bytes than a header, or than the header and the
payload it announces, spell no frame. -/
def Obligations.FramesRoundTrip : Prop :=
  (∀ (f : Frame) (pad : List Byte), FrameFits f → Frame.parse (f.bytes ++ pad) = some f ∧
    f.bytes.length = 44 + f.payload.length) ∧
  (∀ (f : Frame) (n : Nat), FrameFits f → n < f.bytes.length → Frame.parse (f.bytes.take n) = none) ∧
  (∀ f g : Frame, FrameFits f → FrameFits g → f.bytes = g.bytes → f = g)
end

