-- ==== Sys2Proof/Laws/Assoc.lean ====
section
/-!
SUPPORT. What the finite maps answer after a change, and with it what a register field, a hub and a slice read as.
-/
namespace Sys2Proof.Laws
open Sys2Proof.Machine

variable {κ α : Type} [DecidableEq κ]

@[simp] theorem aget_aset_same (k : κ) (v : α) : ∀ m : Assoc κ α, aget (aset m k v) k = some v
  | [] => by simp [aset, aget]
  | (k', v') :: m => by
    unfold aset
    split
    · simp [aget]
    · rename_i h
      simp only [aget, h, if_false]
      exact aget_aset_same k v m

theorem aget_aset_other {k k' : κ} (h : k' ≠ k) (v : α) : ∀ m : Assoc κ α, aget (aset m k v) k' = aget m k'
  | [] => by simp [aset, aget, Ne.symm h]
  | (k'', v'') :: m => by
    unfold aset
    split
    · rename_i e
      subst e
      simp [aget, Ne.symm h]
    · simp only [aget]
      split
      · rfl
      · exact aget_aset_other h v m

@[simp] theorem agetD_aset_same (m : Assoc κ α) (k : κ) (v d : α) : agetD (aset m k v) k d = v := by
  simp [agetD]

theorem agetD_aset_other (m : Assoc κ α) {k k' : κ} (h : k' ≠ k) (v d : α) : agetD (aset m k v) k' d = agetD m k' d := by
  simp [agetD, aget_aset_other h]

theorem aget_filter (p : κ × α → Bool) (k : κ) (hp : ∀ v, p (k, v) = true) : ∀ m : Assoc κ α, aget (m.filter p) k = aget m k
  | [] => rfl
  | (k', v) :: m => by
    by_cases e : k' = k
    · subst e
      simp [hp, aget]
    · by_cases q : p (k', v) = true
      · simp [q, aget, e, aget_filter p k hp m]
      · simp [q, aget, e, aget_filter p k hp m]

@[simp] theorem aget_adel_same (k : κ) : ∀ m : Assoc κ α, aget (adel m k) k = none
  | [] => rfl
  | (k', v) :: m => by
    have ih := aget_adel_same k m
    by_cases e : k' = k
    · simpa [adel, e] using ih
    · simpa [adel, e, aget] using ih

theorem aget_adel_other {k k' : κ} (h : k' ≠ k) (m : Assoc κ α) : aget (adel m k) k' = aget m k' :=
  aget_filter _ _ (fun _ => by simp [h]) m

theorem aget_amod_same (k : κ) (f : α → α) : ∀ m : Assoc κ α, aget (amod m k f) k = (aget m k).map f
  | [] => rfl
  | (k', v) :: m => by
    have ih := aget_amod_same k f m
    unfold amod at ih ⊢
    by_cases e : k' = k
    · simp [e, aget]
    · simp [e, aget, ih]

theorem aget_amod_other {k k' : κ} (h : k' ≠ k) (f : α → α) : ∀ m : Assoc κ α, aget (amod m k f) k' = aget m k'
  | [] => rfl
  | (k'', v) :: m => by
    have ih := aget_amod_other h f m
    unfold amod at ih ⊢
    by_cases e : k'' = k
    · subst e
      simp [aget, Ne.symm h, ih]
    · simp only [List.map_cons, e, if_false, aget, ih]

/-! ## Register fields -/

/-- A field reads as what was stored, reduced to its width. -/
theorem rget_rset_same (s : State) (r : Reg) (i x v : Nat) : rget (rset s r i x v) r i x = v % 2 ^ r.width := by
  simp [rget, rset]

/-- Storing a field leaves every other field, instance and entry as it was. -/
theorem rget_rset_other (s : State) {r r' : Reg} {i i' x x' : Nat} (v : Nat)
    (h : (r', regInst r' i', x') ≠ (r, regInst r i, x)) : rget (rset s r i x v) r' i' x' = rget s r' i' x' := by
  simp only [rget, rset]
  exact agetD_aset_other _ h _ _

/-! ## Hubs and slices -/

theorem hubSt_modHub_same (s : State) (h : Nat) (f : HubSt → HubSt) : hubSt (modHub s h f) h = f (hubSt s h) := by
  simp [hubSt, modHub, modLife]

theorem hubSt_modHub_other (s : State) {h h' : Nat} (e : h' ≠ h) (f : HubSt → HubSt) :
    hubSt (modHub s h f) h' = hubSt s h' := by
  simp only [hubSt, modHub, modLife]
  exact agetD_aset_other _ e _ _

theorem sliceSt_modSlice_same (s : State) (k : Nat) (f : SliceSt → SliceSt) :
    sliceSt (modSlice s k f) k = f (sliceSt s k) := by
  simp [sliceSt, modSlice, modLife]

theorem sliceSt_modSlice_other (s : State) {k k' : Nat} (e : k' ≠ k) (f : SliceSt → SliceSt) :
    sliceSt (modSlice s k f) k' = sliceSt s k' := by
  simp only [sliceSt, modSlice, modLife]
  exact agetD_aset_other _ e _ _

/-- The passing of time to a deadline: it is reached, and time never runs back. -/
theorem now_passTo (s : State) (h t : Nat) : now (passTo s h t) h = max (now s h) t := by
  unfold now passTo
  rw [hubSt_modHub_same]

end Sys2Proof.Laws
end

