-- ==== Sys2Proof/Laws/Memory.lean ====
section
/-!
SUPPORT. Memory: the canonical form, what every operation on cells does to it, and what a byte reads as after a write.
-/
namespace Sys2Proof.Laws
open Sys2Proof.Machine

/-- The canonical form said with Pairwise: addresses rise, no byte is zero. -/
theorem cellsWf_iff (l : List Host.Cell) :
    cellsWf l = true ↔ l.Pairwise (fun c d => c.1 < d.1) ∧ ∀ c ∈ l, c.2 ≠ 0#8 := by
  induction l with
  | nil => simp [cellsWf]
  | cons c r ih =>
    cases r with
    | nil => simp [cellsWf]
    | cons d t =>
      simp only [cellsWf, Bool.and_eq_true, decide_eq_true_eq, ih, List.pairwise_cons, List.mem_cons, forall_eq_or_imp]
      constructor
      · rintro ⟨⟨hz, hlt⟩, ⟨h1, h2⟩, h3⟩
        exact ⟨⟨⟨hlt, fun e he => Nat.lt_trans hlt (h1 e he)⟩, h1, h2⟩, hz, h3⟩
      · rintro ⟨⟨⟨hlt, _⟩, h1, h2⟩, hz, h3⟩
        exact ⟨⟨hz, hlt⟩, ⟨h1, h2⟩, h3⟩

theorem wf_nil : Memory.wf [] = true := rfl

/-- A part of a canonical memory is canonical. -/
theorem wf_filter {l : List Host.Cell} (p : Host.Cell → Bool) (h : Memory.wf l = true) : Memory.wf (l.filter p) = true := by
  rw [Memory.wf, cellsWf_iff] at *
  exact ⟨h.1.filter p, fun c hc => h.2 c (List.mem_filter.mp hc).1⟩

theorem mem_toCells {c : Host.Cell} : ∀ {bs : List Byte} {a : Nat}, c ∈ toCells a bs →
    a ≤ c.1 ∧ c.1 < a + bs.length ∧ c.2 ≠ 0#8
  | [], _, h => by simp [toCells] at h
  | b :: bs, a, h => by
    unfold toCells at h
    split at h
    · have ⟨h1, h2, h3⟩ := mem_toCells h
      exact ⟨by omega, by simp only [List.length_cons]; omega, h3⟩
    · next hb =>
      rcases List.mem_cons.mp h with rfl | h
      · exact ⟨Nat.le_refl _, by simp, hb⟩
      · have ⟨h1, h2, h3⟩ := mem_toCells h
        exact ⟨by omega, by simp only [List.length_cons]; omega, h3⟩

/-- Bytes laid out as cells are canonical. -/
theorem wf_toCells : ∀ (bs : List Byte) (a : Nat), Memory.wf (toCells a bs) = true
  | [], _ => rfl
  | b :: bs, a => by
    unfold toCells
    split
    · exact wf_toCells bs (a + 1)
    · next hb =>
      have ih := wf_toCells bs (a + 1)
      rw [Memory.wf, cellsWf_iff] at *
      refine ⟨List.pairwise_cons.mpr ⟨fun c hc => ?_, ih.1⟩, ?_⟩
      · have := mem_toCells hc
        simp only; omega
      · intro c hc
        rcases List.mem_cons.mp hc with rfl | hc
        · exact hb
        · exact ih.2 c hc

/-- Two canonical memories, every address of one below every address of the other, are canonical together. -/
theorem wf_append {l r : List Host.Cell} (hl : Memory.wf l = true) (hr : Memory.wf r = true)
    (hlr : ∀ c ∈ l, ∀ d ∈ r, c.1 < d.1) : Memory.wf (l ++ r) = true := by
  rw [Memory.wf, cellsWf_iff] at *
  refine ⟨List.pairwise_append.mpr ⟨hl.1, hr.1, hlr⟩, fun c hc => ?_⟩
  rcases List.mem_append.mp hc with h | h
  · exact hl.2 c h
  · exact hr.2 c h

/-- A write keeps the canonical form. -/
theorem wf_writeCells {l : List Host.Cell} (a : Nat) (bs : List Byte) (h : Memory.wf l = true) :
    Memory.wf (writeCells l a bs) = true := by
  unfold writeCells
  refine wf_append (wf_append (wf_filter _ h) (wf_toCells bs a) ?_) (wf_filter _ h) ?_
  · intro c hc d hd
    have h1 := (List.mem_filter.mp hc).2
    have h2 := mem_toCells hd
    simp at h1; omega
  · intro c hc d hd
    have h2 := (List.mem_filter.mp hd).2
    simp at h2
    rcases List.mem_append.mp hc with hc | hc
    · have h1 := (List.mem_filter.mp hc).2
      simp at h1; omega
    · have h1 := mem_toCells hc
      omega

/-- Zeroing a range keeps the canonical form. -/
theorem wf_zeroCells {l : List Host.Cell} (a n : Nat) (h : Memory.wf l = true) : Memory.wf (zeroCells l a n) = true :=
  wf_filter _ h

/-- A range moved by a rising map of addresses is canonical. -/
theorem wf_map {l : List Host.Cell} (f : Nat → Nat) (hf : ∀ c ∈ l, ∀ d ∈ l, c.1 < d.1 → f c.1 < f d.1)
    (h : Memory.wf l = true) : Memory.wf (l.map fun c => (f c.1, c.2)) = true := by
  rw [Memory.wf, cellsWf_iff] at *
  refine ⟨List.pairwise_map.mpr ?_, ?_⟩
  · exact h.1.imp_of_mem fun hc hd hlt => hf _ hc _ hd hlt
  · intro c hc
    obtain ⟨d, hd, rfl⟩ := List.mem_map.mp hc
    exact h.2 d hd

/-- A range of memory moved over another, less the bytes that a test drops, leaves a canonical memory. -/
theorem wf_moveRange {l : List Host.Cell} (src dst n : Nat) (lost : Host.Cell → Bool) (h : Memory.wf l = true) :
    Memory.wf ((l.filter fun c => decide (c.1 < dst)) ++
      (l.filter fun c => decide (src ≤ c.1) && decide (c.1 < src + n) && ! lost c).map (fun c => (c.1 - src + dst, c.2)) ++
      l.filter fun c => decide (dst + n ≤ c.1)) = true := by
  refine wf_append (wf_append (wf_filter _ h) (wf_map (fun a => a - src + dst) ?_ (wf_filter _ h)) ?_) (wf_filter _ h) ?_
  · intro c hc d hd hlt
    have := (List.mem_filter.mp hc).2
    simp only [Bool.and_eq_true, decide_eq_true_eq] at this
    omega
  · intro c hc d hd
    obtain ⟨e, -, rfl⟩ := List.mem_map.mp hd
    have := (List.mem_filter.mp hc).2
    simp only [decide_eq_true_eq] at this
    dsimp only
    omega
  · intro c hc d hd
    have hd := (List.mem_filter.mp hd).2
    simp only [decide_eq_true_eq] at hd
    rcases List.mem_append.mp hc with hc | hc
    · have := (List.mem_filter.mp hc).2
      simp only [decide_eq_true_eq] at this
      omega
    · obtain ⟨e, he, rfl⟩ := List.mem_map.mp hc
      have := (List.mem_filter.mp he).2
      simp only [Bool.and_eq_true, decide_eq_true_eq] at this
      dsimp only
      omega

/-! ## Reads -/

theorem readByte_of_forall_ne : ∀ (l : List Host.Cell) (a : Nat), (∀ c ∈ l, c.1 ≠ a) → readByte l a = 0#8
  | [], _, _ => rfl
  | c :: r, a, h => by
    have h0 : c.1 ≠ a := h c (by simp)
    simp only [readByte, h0, if_false]
    exact readByte_of_forall_ne r a fun d hd => h d (by simp [hd])

theorem readByte_append : ∀ (l r : List Host.Cell) (a : Nat), (∀ c ∈ l, c.1 ≠ a) → readByte (l ++ r) a = readByte r a
  | [], _, _, _ => rfl
  | c :: l, r, a, h => by
    have h0 : c.1 ≠ a := h c (by simp)
    simp only [List.cons_append, readByte, h0, if_false]
    exact readByte_append l r a fun d hd => h d (by simp [hd])

theorem readByte_append_left : ∀ (l r : List Host.Cell) (a : Nat), (∀ c ∈ r, c.1 ≠ a) → readByte (l ++ r) a = readByte l a
  | [], r, a, h => by simp [readByte, readByte_of_forall_ne r a h]
  | c :: l, r, a, h => by
    simp only [List.cons_append, readByte]
    split
    · rfl
    · exact readByte_append_left l r a h

theorem readByte_filter (p : Host.Cell → Bool) (a : Nat) (hp : ∀ c : Host.Cell, c.1 = a → p c = true) :
    ∀ l : List Host.Cell, readByte (l.filter p) a = readByte l a
  | [] => rfl
  | c :: r => by
    by_cases hc : c.1 = a
    · have := hp c hc
      simp [List.filter, this, readByte, hc]
    · by_cases hpc : p c = true
      · simp [List.filter, hpc, readByte, hc, readByte_filter p a hp r]
      · simp [List.filter, hpc, readByte, hc, readByte_filter p a hp r]

theorem readByte_toCells : ∀ (bs : List Byte) (a i : Nat), readByte (toCells a bs) (a + i) = bs.getD i 0#8
  | [], _, _ => by simp [toCells, readByte]
  | b :: bs, a, 0 => by
    unfold toCells
    split
    · next hb =>
      rw [readByte_of_forall_ne]
      · simp [hb]
      · intro c hc
        have := mem_toCells hc
        omega
    · simp [readByte]
  | b :: bs, a, i + 1 => by
    have ih := readByte_toCells bs (a + 1) i
    have e : a + 1 + i = a + (i + 1) := by omega
    rw [e] at ih
    unfold toCells
    split
    · rw [ih]; simp
    · have hne : a ≠ a + (i + 1) := by omega
      simp only [readByte, hne, if_false, ih]
      simp

/-- Outside the bytes written, a write leaves every byte as it was. -/
theorem readByte_writeCells_other (l : List Host.Cell) (a : Nat) (bs : List Byte) (b : Nat)
    (hb : b < a ∨ a + bs.length ≤ b) : readByte (writeCells l a bs) b = readByte l b := by
  unfold writeCells
  have hto : ∀ c ∈ toCells a bs, c.1 ≠ b := by
    intro c hc
    have := mem_toCells hc
    omega
  rcases hb with hb | hb
  · rw [readByte_append_left _ _ _ ?_, readByte_append_left _ _ _ hto, readByte_filter]
    · intro c hc; simp [hc, hb]
    · intro c hc
      have h2 := (List.mem_filter.mp hc).2
      simp at h2; omega
  · rw [readByte_append _ _ _ ?_, readByte_filter]
    · intro c hc; simp [hc, hb]
    · intro c hc
      rcases List.mem_append.mp hc with hc | hc
      · have h1 := (List.mem_filter.mp hc).2
        simp at h1; omega
      · exact hto c hc

/-- A byte written reads back. -/
theorem readByte_writeCells_same (l : List Host.Cell) (a : Nat) (bs : List Byte) (i : Nat) (hi : i < bs.length) :
    readByte (writeCells l a bs) (a + i) = bs.getD i 0#8 := by
  unfold writeCells
  rw [List.append_assoc, readByte_append, readByte_append_left, readByte_toCells]
  · intro c hc
    have h2 := (List.mem_filter.mp hc).2
    simp at h2; omega
  · intro c hc
    have h1 := (List.mem_filter.mp hc).2
    simp at h1; omega

/-- The bytes a range reads as are the bytes at its addresses. -/
theorem readCells_eq (l : List Host.Cell) (a n : Nat) : readCells l a n = (List.range n).map fun i => readByte l (a + i) := by
  unfold readCells
  refine List.map_congr_left fun i hi => readByte_filter _ _ ?_ l
  intro c hc
  have := List.mem_range.mp hi
  simp [hc]; omega

end Sys2Proof.Laws
end

