-- ==== Sys2Proof/Laws/Keeps.lean ====
section
/-!
SUPPORT. What no operation of the node undoes: the relation that each of them keeps, with the rules that carry it through
record updates, folds, branches and outcomes.
-/
namespace Sys2Proof.Laws
open Sys2Proof.Machine

/-- From s to t the queue is untouched, output has only grown, free values and numbers are only drawn, the part stays the
same, starts are only counted up, no hub's fused minimum has fallen, and memory has stayed canonical. -/
structure Keeps (s t : State) : Prop where
  pending : t.pending = s.pending
  out     : s.out <+: t.out
  free    : s.freeCtr ≤ t.freeCtr
  ids     : s.nextId ≤ t.nextId
  part    : t.life.part = s.life.part
  boot    : s.life.boot ≤ t.life.boot
  svn     : ∀ h, h < 8 → agetD s.trust.svnMin h 0 ≤ agetD t.trust.svnMin h 0
  mem     : Memory.wf s.mem.cells = true → Memory.wf t.mem.cells = true

/-- The same of an outcome. -/
def KeepsN (s : State) (o : Next) : Prop := ∀ t, o = .next t → Keeps s t

theorem Keeps.refl (s : State) : Keeps s s :=
  ⟨rfl, List.prefix_rfl, Nat.le_refl _, Nat.le_refl _, rfl, Nat.le_refl _, fun _ _ => Nat.le_refl _, id⟩

theorem Keeps.trans {a b c : State} (h : Keeps a b) (g : Keeps b c) : Keeps a c :=
  ⟨g.pending.trans h.pending, h.out.trans g.out, Nat.le_trans h.free g.free, Nat.le_trans h.ids g.ids,
   g.part.trans h.part, Nat.le_trans h.boot g.boot, fun k hk => Nat.le_trans (h.svn k hk) (g.svn k hk),
   fun w => g.mem (h.mem w)⟩

/-- A record update that leaves every one of these as it was. -/
theorem Keeps.same {a s t : State} (h : Keeps a s) (h1 : t.pending = s.pending) (h2 : t.out = s.out)
    (h3 : t.freeCtr = s.freeCtr) (h4 : t.nextId = s.nextId) (h5 : t.life.part = s.life.part)
    (h6 : t.life.boot = s.life.boot) (h7 : t.trust.svnMin = s.trust.svnMin) (h8 : t.mem.cells = s.mem.cells) : Keeps a t :=
  h.trans ⟨h1, h2 ▸ List.prefix_rfl, Nat.le_of_eq h3.symm, Nat.le_of_eq h4.symm, h5, Nat.le_of_eq h6.symm,
    fun _ _ => Nat.le_of_eq (by rw [h7]), fun w => h8 ▸ w⟩

theorem Keeps.ite {a s t : State} {c : Prop} [Decidable c] (h : Keeps a s) (g : Keeps a t) : Keeps a (if c then s else t) := by
  split <;> assumption

theorem Keeps.foldl {α : Type} {a : State} {f : State → α → State} (hf : ∀ s x, Keeps a s → Keeps a (f s x)) :
    ∀ (l : List α) {s : State}, Keeps a s → Keeps a (l.foldl f s)
  | [], _, h => h
  | x :: l, _, h => Keeps.foldl hf l (hf _ x h)

theorem Keeps.foldl1 {α β : Type} {a : State} {f : State × β → α → State × β}
    (hf : ∀ p x, Keeps a p.1 → Keeps a (f p x).1) : ∀ (l : List α) {p : State × β}, Keeps a p.1 → Keeps a (l.foldl f p).1
  | [], _, h => h
  | x :: l, _, h => Keeps.foldl1 hf l (hf _ x h)

theorem Keeps.foldlE {α β : Type} {a t : State} {r : β} {f : State × β → α → State × β} {l : List α} {p : State × β}
    (e : l.foldl f p = (t, r)) (hf : ∀ p x, Keeps a p.1 → Keeps a (f p x).1) (h : Keeps a p.1) : Keeps a t := by
  have := Keeps.foldl1 hf l h
  rw [e] at this
  exact this

theorem Keeps.fst {β : Type} {a t : State} {r : β} {p : State × β} (e : p = (t, r)) (h : Keeps a p.1) : Keeps a t := by
  subst e; exact h

theorem Keeps.snd {β : Type} {a t : State} {r : β} {p : β × State} (e : p = (r, t)) (h : Keeps a p.2) : Keeps a t := by
  subst e; exact h

/-- The same of a state that an operation may not give. -/
def KeepsO (a : State) (o : Option State) : Prop := ∀ t, o = some t → Keeps a t

/-- The same of a state and a value that an operation may not give. -/
def KeepsO1 {β : Type} (a : State) (o : Option (State × β)) : Prop := ∀ t, o = some t → Keeps a t.1

/-- The same of a state or a refusal's reason. -/
def KeepsE {ε : Type} (a : State) (o : Except ε State) : Prop := ∀ t, o = .ok t → Keeps a t

/-- The same of a state and a value, or a refusal's reason. -/
def KeepsE1 {ε β : Type} (a : State) (o : Except ε (State × β)) : Prop := ∀ t, o = .ok t → Keeps a t.1

theorem Keeps.get {a t : State} {p : Option State} (e : p = some t) (h : KeepsO a p) : Keeps a t := h t e

theorem Keeps.get1 {β : Type} {a t : State} {r : β} {p : Option (State × β)} (e : p = some (t, r)) (h : KeepsO1 a p) :
    Keeps a t := h _ e

theorem Keeps.get1' {β : Type} {a : State} {x : State × β} {p : Option (State × β)} (e : p = some x) (h : KeepsO1 a p) :
    Keeps a x.1 := h _ e

theorem Keeps.ok {ε : Type} {a t : State} {p : Except ε State} (e : p = .ok t) (h : KeepsE a p) : Keeps a t := h t e

theorem Keeps.ok1 {ε β : Type} {a t : State} {r : β} {p : Except ε (State × β)} (e : p = .ok (t, r)) (h : KeepsE1 a p) :
    Keeps a t := h _ e

theorem KeepsO.some {a t : State} (h : Keeps a t) : KeepsO a (some t) := fun _ e => by cases e; exact h
theorem KeepsO.none {a : State} : KeepsO a none := fun _ e => by cases e
theorem KeepsO1.some {β : Type} {a t : State} {r : β} (h : Keeps a t) : KeepsO1 a (some (t, r)) := fun _ e => by
  cases e; exact h
theorem KeepsO1.some' {β : Type} {a : State} {p : State × β} (h : Keeps a p.1) : KeepsO1 a (.some p) := fun _ e => by
  cases e; exact h
theorem KeepsO1.none {β : Type} {a : State} : KeepsO1 (β := β) a none := fun _ e => by cases e
theorem KeepsE.ok {ε : Type} {a t : State} (h : Keeps a t) : KeepsE (ε := ε) a (.ok t) := fun _ e => by cases e; exact h
theorem KeepsE.error {ε : Type} {a : State} {r : ε} : KeepsE a (.error r) := fun _ e => by cases e
theorem KeepsE1.ok {ε β : Type} {a : State} {p : State × β} (h : Keeps a p.1) : KeepsE1 (ε := ε) a (.ok p) := fun _ e => by
  cases e; exact h
theorem KeepsE1.error {ε β : Type} {a : State} {r : ε} : KeepsE1 (β := β) a (.error r) := fun _ e => by cases e

theorem KeepsO.bind0 {α : Type} {a : State} {o : Option α} {f : α → Option State} (h : ∀ x, KeepsO a (f x)) :
    KeepsO a (o.bind f) := fun t e => by
  cases o with
  | none => cases e
  | some x => exact h x t e

theorem KeepsO.bind {a : State} {o : Option State} {f : State → Option State} (g : KeepsO a o)
    (h : ∀ x, Keeps a x → KeepsO a (f x)) : KeepsO a (o.bind f) := fun t e => by
  cases o with
  | none => cases e
  | some x => exact h x (g x rfl) t e

theorem KeepsO.bind1 {β : Type} {a : State} {o : Option (State × β)} {f : State × β → Option State} (g : KeepsO1 a o)
    (h : ∀ x, Keeps a x.1 → KeepsO a (f x)) : KeepsO a (o.bind f) := fun t e => by
  cases o with
  | none => cases e
  | some x => exact h x (g x rfl) t e

theorem KeepsO1.bind0 {α β : Type} {a : State} {o : Option α} {f : α → Option (State × β)} (h : ∀ x, KeepsO1 a (f x)) :
    KeepsO1 a (o.bind f) := fun t e => by
  cases o with
  | none => cases e
  | some x => exact h x t e

theorem KeepsO1.bind {β : Type} {a : State} {o : Option State} {f : State → Option (State × β)} (g : KeepsO a o)
    (h : ∀ x, Keeps a x → KeepsO1 a (f x)) : KeepsO1 a (o.bind f) := fun t e => by
  cases o with
  | none => cases e
  | some x => exact h x (g x rfl) t e

theorem KeepsO1.bind1 {β γ : Type} {a : State} {o : Option (State × γ)} {f : State × γ → Option (State × β)}
    (g : KeepsO1 a o) (h : ∀ x, Keeps a x.1 → KeepsO1 a (f x)) : KeepsO1 a (o.bind f) := fun t e => by
  cases o with
  | none => cases e
  | some x => exact h x (g x rfl) t e

theorem KeepsO.map {a : State} {o : Option State} {f : State → State} (g : KeepsO a o)
    (h : ∀ x, Keeps a x → Keeps a (f x)) : KeepsO a (o.map f) := fun t e => by
  cases o with
  | none => cases e
  | some x => cases e; exact h x (g x rfl)

theorem KeepsO.map1 {β : Type} {a : State} {o : Option (State × β)} {f : State × β → State} (g : KeepsO1 a o)
    (h : ∀ x, Keeps a x.1 → Keeps a (f x)) : KeepsO a (o.map f) := fun t e => by
  cases o with
  | none => cases e
  | some x => cases e; exact h x (g x rfl)

theorem KeepsO1.map {β : Type} {a : State} {o : Option State} {f : State → State × β} (g : KeepsO a o)
    (h : ∀ x, Keeps a x → Keeps a (f x).1) : KeepsO1 a (o.map f) := fun t e => by
  cases o with
  | none => cases e
  | some x => cases e; exact h x (g x rfl)

theorem KeepsO1.map1 {β γ : Type} {a : State} {o : Option (State × γ)} {f : State × γ → State × β} (g : KeepsO1 a o)
    (h : ∀ x, Keeps a x.1 → Keeps a (f x).1) : KeepsO1 a (o.map f) := fun t e => by
  cases o with
  | none => cases e
  | some x => cases e; exact h x (g x rfl)

theorem KeepsO.map0 {α : Type} {a : State} {o : Option α} {f : α → State} (h : ∀ x, Keeps a (f x)) :
    KeepsO a (o.map f) := fun t e => by
  cases o with
  | none => cases e
  | some x => cases e; exact h x

theorem KeepsO1.map0 {α β : Type} {a : State} {o : Option α} {f : α → State × β} (h : ∀ x, Keeps a (f x).1) :
    KeepsO1 a (o.map f) := fun t e => by
  cases o with
  | none => cases e
  | some x => cases e; exact h x

theorem KeepsE.bind {ε : Type} {a : State} {o : Except ε State} {f : State → Except ε State} (g : KeepsE a o)
    (h : ∀ x, Keeps a x → KeepsE a (f x)) : KeepsE a (o.bind f) := fun t e => by
  cases o with
  | error _ => cases e
  | ok x => exact h x (g x rfl) t e

theorem KeepsE1.bind {ε β : Type} {a : State} {o : Except ε State} {f : State → Except ε (State × β)} (g : KeepsE a o)
    (h : ∀ x, Keeps a x → KeepsE1 a (f x)) : KeepsE1 a (o.bind f) := fun t e => by
  cases o with
  | error _ => cases e
  | ok x => exact h x (g x rfl) t e

theorem KeepsE.bind1 {ε β : Type} {a : State} {o : Except ε (State × β)} {f : State × β → Except ε State} (g : KeepsE1 a o)
    (h : ∀ x, Keeps a x.1 → KeepsE a (f x)) : KeepsE a (o.bind f) := fun t e => by
  cases o with
  | error _ => cases e
  | ok x => exact h x (g x rfl) t e

theorem KeepsE1.bind1 {ε β γ : Type} {a : State} {o : Except ε (State × γ)} {f : State × γ → Except ε (State × β)}
    (g : KeepsE1 a o) (h : ∀ x, Keeps a x.1 → KeepsE1 a (f x)) : KeepsE1 a (o.bind f) := fun t e => by
  cases o with
  | error _ => cases e
  | ok x => exact h x (g x rfl) t e

theorem KeepsE.bind0 {α ε : Type} {a : State} {o : Except ε α} {f : α → Except ε State} (h : ∀ x, KeepsE a (f x)) :
    KeepsE a (o.bind f) := fun t e => by
  cases o with
  | error _ => cases e
  | ok x => exact h x t e

theorem KeepsE1.bind0 {α β ε : Type} {a : State} {o : Except ε α} {f : α → Except ε (State × β)}
    (h : ∀ x, KeepsE1 a (f x)) : KeepsE1 a (o.bind f) := fun t e => by
  cases o with
  | error _ => cases e
  | ok x => exact h x t e

theorem KeepsE.map {ε : Type} {a : State} {o : Except ε State} {f : State → State} (g : KeepsE a o)
    (h : ∀ x, Keeps a x → Keeps a (f x)) : KeepsE a (o.map f) := fun t e => by
  cases o with
  | error _ => cases e
  | ok x => cases e; exact h x (g x rfl)

theorem KeepsE.map1 {ε γ : Type} {a : State} {o : Except ε (State × γ)} {f : State × γ → State} (g : KeepsE1 a o)
    (h : ∀ x, Keeps a x.1 → Keeps a (f x)) : KeepsE a (o.map f) := fun t e => by
  cases o with
  | error _ => cases e
  | ok x => cases e; exact h x (g x rfl)

theorem KeepsE.map0 {α ε : Type} {a : State} {o : Except ε α} {f : α → State} (h : ∀ x, Keeps a (f x)) :
    KeepsE a (o.map f) := fun t e => by
  cases o with
  | error _ => cases e
  | ok x => cases e; exact h x

theorem KeepsE1.map {ε β : Type} {a : State} {o : Except ε State} {f : State → State × β} (g : KeepsE a o)
    (h : ∀ x, Keeps a x → Keeps a (f x).1) : KeepsE1 a (o.map f) := fun t e => by
  cases o with
  | error _ => cases e
  | ok x => cases e; exact h x (g x rfl)

theorem KeepsE1.map1 {ε β γ : Type} {a : State} {o : Except ε (State × γ)} {f : State × γ → State × β} (g : KeepsE1 a o)
    (h : ∀ x, Keeps a x.1 → Keeps a (f x).1) : KeepsE1 a (o.map f) := fun t e => by
  cases o with
  | error _ => cases e
  | ok x => cases e; exact h x (g x rfl)

theorem KeepsE1.map0 {α ε β : Type} {a : State} {o : Except ε α} {f : α → State × β} (h : ∀ x, Keeps a (f x).1) :
    KeepsE1 a (o.map f) := fun t e => by
  cases o with
  | error _ => cases e
  | ok x => cases e; exact h x

theorem KeepsO.findSome {α : Type} {a : State} {f : α → Option State} (h : ∀ x, KeepsO a (f x)) :
    ∀ l : List α, KeepsO a (l.findSome? f)
  | [] => fun _ e => by cases e
  | x :: l => fun t e => by
    rw [List.findSome?_cons] at e
    split at e
    · rename_i e'; cases e; exact h x _ e'
    · exact KeepsO.findSome h l t e

theorem KeepsO1.findSome {α β : Type} {a : State} {f : α → Option (State × β)} (h : ∀ x, KeepsO1 a (f x)) :
    ∀ l : List α, KeepsO1 a (l.findSome? f)
  | [] => fun _ e => by cases e
  | x :: l => fun t e => by
    rw [List.findSome?_cons] at e
    split at e
    · rename_i e'; cases e; exact h x _ e'
    · exact KeepsO1.findSome h l t e

theorem KeepsO.getD {a d : State} {o : Option State} (h : KeepsO a o) (g : Keeps a d) : Keeps a (o.getD d) := by
  cases o with
  | none => exact g
  | some x => exact h x rfl

theorem KeepsO1.getD {β : Type} {a : State} {d : State × β} {o : Option (State × β)} (h : KeepsO1 a o) (g : Keeps a d.1) :
    Keeps a (o.getD d).1 := by
  cases o with
  | none => exact g
  | some x => exact h x rfl

theorem KeepsO.foldl {α : Type} {a : State} {f : Option State → α → Option State}
    (hf : ∀ o x, KeepsO a o → KeepsO a (f o x)) : ∀ (l : List α) {o : Option State}, KeepsO a o → KeepsO a (l.foldl f o)
  | [], _, h => h
  | x :: l, _, h => KeepsO.foldl hf l (hf _ x h)

theorem KeepsO1.foldl {α β : Type} {a : State} {f : Option (State × β) → α → Option (State × β)}
    (hf : ∀ o x, KeepsO1 a o → KeepsO1 a (f o x)) :
    ∀ (l : List α) {o : Option (State × β)}, KeepsO1 a o → KeepsO1 a (l.foldl f o)
  | [], _, h => h
  | x :: l, _, h => KeepsO1.foldl hf l (hf _ x h)

theorem KeepsE.foldl {α ε : Type} {a : State} {f : Except ε State → α → Except ε State}
    (hf : ∀ o x, KeepsE a o → KeepsE a (f o x)) : ∀ (l : List α) {o : Except ε State}, KeepsE a o → KeepsE a (l.foldl f o)
  | [], _, h => h
  | x :: l, _, h => KeepsE.foldl hf l (hf _ x h)

theorem KeepsE1.foldl {α ε β : Type} {a : State} {f : Except ε (State × β) → α → Except ε (State × β)}
    (hf : ∀ o x, KeepsE1 a o → KeepsE1 a (f o x)) :
    ∀ (l : List α) {o : Except ε (State × β)}, KeepsE1 a o → KeepsE1 a (l.foldl f o)
  | [], _, h => h
  | x :: l, _, h => KeepsE1.foldl hf l (hf _ x h)

theorem KeepsN.next {a t : State} (h : Keeps a t) : KeepsN a (.next t) := fun _ e => by cases e; exact h

theorem KeepsN.fault {a : State} {r : Fault} : KeepsN a (.fault r) := fun _ e => by cases e

theorem KeepsN.refused {a : State} {r : Refusal} : KeepsN a (.refused r) := fun _ e => by cases e

theorem KeepsN.get {a t : State} {o : Next} (e : o = .next t) (h : KeepsN a o) : Keeps a t := h t e

/-! ## The plain operations -/

theorem modMem_keeps {a s : State} {f : MemSt → MemSt} (h : Keeps a s) (hf : (f s.mem).cells = s.mem.cells) :
    Keeps a (modMem s f) := h.same rfl rfl rfl rfl rfl rfl rfl hf

theorem modLife_keeps {a s : State} {f : LifeSt → LifeSt} (h : Keeps a s) (hp : (f s.life).part = s.life.part)
    (hb : (f s.life).boot = s.life.boot) : Keeps a (modLife s f) := h.same rfl rfl rfl rfl hp hb rfl rfl

theorem modTrust_keeps {a s : State} {f : TrustSt → TrustSt} (h : Keeps a s) (hf : (f s.trust).svnMin = s.trust.svnMin) :
    Keeps a (modTrust s f) := h.same rfl rfl rfl rfl rfl rfl hf rfl

/-- A map that tabulates a function over a list gives the function's value at each entry of the list. -/
theorem aget_tabulate {α : Type} (g : Nat → α) : ∀ (l : List Nat) (k : Nat), k ∈ l → aget (l.map fun j => (j, g j)) k = some (g k)
  | [], _, h => nomatch h
  | j :: l, k, h => by
    by_cases e : j = k
    · simp [aget, e]
    · have m : k ∈ l := (List.mem_cons.mp h).resolve_left fun x => e x.symm
      simpa [aget, e] using aget_tabulate g l k m

/-- A start is counted. -/
theorem modLife_boots {a s : State} {f : LifeSt → LifeSt} (h : Keeps a s) (hp : (f s.life).part = s.life.part)
    (hb : (f s.life).boot = s.life.boot + 1) : Keeps a (modLife s f) :=
  h.trans { Keeps.refl s with part := hp, boot := Nat.le_of_lt (Nat.lt_of_lt_of_eq (Nat.lt_succ_self _) hb.symm) }

/-- A raise of every hub's fused minimum. -/
theorem modTrust_raises {a s : State} {f : TrustSt → TrustSt} {g : Nat → Nat} (h : Keeps a s)
    (hf : (f s.trust).svnMin = (List.range 8).map fun k => (k, g k)) (hg : ∀ k, agetD s.trust.svnMin k 0 ≤ g k) :
    Keeps a (modTrust s f) :=
  h.trans { Keeps.refl s with
    svn := fun k hk => by
      have e : agetD (modTrust s f).trust.svnMin k 0 = g k := by
        show agetD (f s.trust).svnMin k 0 = g k
        rw [hf, agetD, aget_tabulate g (List.range 8) k (List.mem_range.mpr hk), Option.getD_some]
      rw [e]
      exact hg k }

theorem modSeqs_keeps {a s : State} {f : SeqSt → SeqSt} (h : Keeps a s) : Keeps a (modSeqs s f) :=
  h.same rfl rfl rfl rfl rfl rfl rfl rfl
theorem modMerge_keeps {a s : State} {f : MergeSt → MergeSt} (h : Keeps a s) : Keeps a (modMerge s f) :=
  h.same rfl rfl rfl rfl rfl rfl rfl rfl
theorem modFab_keeps {a s : State} {f : FabSt → FabSt} (h : Keeps a s) : Keeps a (modFab s f) :=
  h.same rfl rfl rfl rfl rfl rfl rfl rfl
theorem modTraf_keeps {a s : State} {f : TrafSt → TrafSt} (h : Keeps a s) : Keeps a (modTraf s f) :=
  h.same rfl rfl rfl rfl rfl rfl rfl rfl
theorem modLedg_keeps {a s : State} {f : LedgSt → LedgSt} (h : Keeps a s) : Keeps a (modLedg s f) :=
  h.same rfl rfl rfl rfl rfl rfl rfl rfl
theorem modRegn_keeps {a s : State} {f : RegnSt → RegnSt} (h : Keeps a s) : Keeps a (modRegn s f) :=
  h.same rfl rfl rfl rfl rfl rfl rfl rfl
theorem modChive_keeps {a s : State} {f : ChiveSt → ChiveSt} (h : Keeps a s) : Keeps a (modChive s f) :=
  h.same rfl rfl rfl rfl rfl rfl rfl rfl
theorem modDill_keeps {a s : State} {f : DillSt → DillSt} (h : Keeps a s) : Keeps a (modDill s f) :=
  h.same rfl rfl rfl rfl rfl rfl rfl rfl
theorem modHost_keeps {a s : State} {f : HostSt → HostSt} (h : Keeps a s) : Keeps a (modHost s f) :=
  h.same rfl rfl rfl rfl rfl rfl rfl rfl
theorem modHealth_keeps {a s : State} {f : HealthSt → HealthSt} (h : Keeps a s) : Keeps a (modHealth s f) :=
  h.same rfl rfl rfl rfl rfl rfl rfl rfl
theorem modJrnl_keeps {a s : State} {f : JrnlSt → JrnlSt} (h : Keeps a s) : Keeps a (modJrnl s f) :=
  h.same rfl rfl rfl rfl rfl rfl rfl rfl
theorem modPower_keeps {a s : State} {f : Power → Power} (h : Keeps a s) : Keeps a (modPower s f) :=
  h.same rfl rfl rfl rfl rfl rfl rfl rfl

theorem emit_keeps {a s : State} {o : Out} (h : Keeps a s) : Keeps a (emit s o) :=
  h.trans { Keeps.refl s with out := List.prefix_append _ _ }

theorem fresh_keeps {a s : State} (h : Keeps a s) : Keeps a (fresh s).2 :=
  h.trans { Keeps.refl s with free := Nat.le_succ _ }

theorem freshBytes_keeps {a s : State} {n : Nat} (h : Keeps a s) : Keeps a (freshBytes s n).2 := fresh_keeps h

theorem newId_keeps {a s : State} (h : Keeps a s) : Keeps a (newId s).2 :=
  h.trans { Keeps.refl s with ids := Nat.le_succ _ }

theorem setCells_keeps {a s : State} {l : List Host.Cell} (h : Keeps a s)
    (hl : Memory.wf s.mem.cells = true → Memory.wf l = true) : Keeps a (setCells s l) :=
  h.trans { Keeps.refl s with mem := hl }

theorem setMsgs_keeps {a s : State} {l : Assoc Nat Msg} (h : Keeps a s) : Keeps a (setMsgs s l) :=
  h.same rfl rfl rfl rfl rfl rfl rfl rfl

theorem setTaps_keeps {a s : State} {l : Assoc Nat Tap} (h : Keeps a s) : Keeps a (setTaps s l) :=
  h.same rfl rfl rfl rfl rfl rfl rfl rfl

theorem rset_keeps {a s : State} {r : Reg} {inst idx v : Nat} (h : Keeps a s) : Keeps a (rset s r inst idx v) :=
  h.same rfl rfl rfl rfl rfl rfl rfl rfl

theorem setChk_keeps {a s : State} {m : Assoc Nat Nat} (h : Keeps a s) : Keeps a (setChk s m) :=
  h.same rfl rfl rfl rfl rfl rfl rfl rfl

end Sys2Proof.Laws
end

