-- ==== Sys2Proof/Laws/KeepsOps.lean ====
section
/-!
SUPPORT. The operations of Machine/Ops.lean keep what Laws/Keeps.lean says.
-/
namespace Sys2Proof.Laws
open Sys2Proof.Machine

theorem modHub_keeps {a0 : State} (s : State) (h : Nat) (f : HubSt → HubSt) (h0 : Keeps a0 s) : Keeps a0 (modHub s h f) := by
  unfold modHub
  try dsimp only
  with_reducible repeat' first
    | assumption
    | rfl
    | apply modLife_keeps
    | split

theorem modSlice_keeps {a0 : State} (s : State) (k : Nat) (f : SliceSt → SliceSt) (h0 : Keeps a0 s) : Keeps a0 (modSlice s k f) := by
  unfold modSlice
  try dsimp only
  with_reducible repeat' first
    | assumption
    | rfl
    | apply modLife_keeps
    | split

theorem passTo_keeps {a0 : State} (s : State) (h : Nat) (t : Nat) (h0 : Keeps a0 s) : Keeps a0 (passTo s h t) := by
  unfold passTo
  try dsimp only
  with_reducible repeat' first
    | assumption
    | rfl
    | apply modHub_keeps
    | split

theorem tickClocks_keeps {a0 : State} (s : State) (h0 : Keeps a0 s) : Keeps a0 (tickClocks s) := by
  unfold tickClocks
  try dsimp only
  with_reducible repeat' first
    | assumption
    | rfl
    | apply modLife_keeps
    | refine KeepsO.map ?_ (fun _ _ => ?_)
    | refine KeepsO.map1 ?_ (fun _ _ => ?_)
    | refine KeepsO.map0 (fun _ => ?_)
    | refine KeepsO1.map ?_ (fun _ _ => ?_)
    | refine KeepsO1.map1 ?_ (fun _ _ => ?_)
    | refine KeepsO1.map0 (fun _ => ?_)
    | split

theorem modLink_keeps {a0 : State} (s : State) (a : Nat) (b : Nat) (f : Link → Link) (h0 : Keeps a0 s) : Keeps a0 (modLink s a b f) := by
  unfold modLink
  try dsimp only
  with_reducible repeat' first
    | assumption
    | rfl
    | apply modLife_keeps
    | split

theorem bumpBy_keeps {a0 : State} (s : State) (r : Reg) (inst : Nat) (n : Nat) (h0 : Keeps a0 s) : Keeps a0 (bumpBy s r inst n) := by
  unfold bumpBy
  try dsimp only
  with_reducible repeat' first
    | assumption
    | rfl
    | apply rset_keeps
    | split

theorem bumpAt_keeps {a0 : State} (s : State) (r : Reg) (inst : Nat) (i : Nat) (n : Nat) (h0 : Keeps a0 s) : Keeps a0 (bumpAt s r inst i n) := by
  unfold bumpAt
  try dsimp only
  with_reducible repeat' first
    | assumption
    | rfl
    | apply rset_keeps
    | split

theorem bump_keeps {a0 : State} (s : State) (r : Reg) (inst : Nat) (h0 : Keeps a0 s) : Keeps a0 (bump s r inst) := by
  unfold bump
  try dsimp only
  with_reducible repeat' first
    | assumption
    | rfl
    | apply bumpBy_keeps
    | split

theorem rmax_keeps {a0 : State} (s : State) (r : Reg) (inst : Nat) (v : Nat) (h0 : Keeps a0 s) : Keeps a0 (rmax s r inst v) := by
  unfold rmax
  try dsimp only
  with_reducible repeat' first
    | assumption
    | rfl
    | apply rset_keeps
    | split

theorem testNo_keeps {a0 : State} (s : State) (h0 : Keeps a0 s) : Keeps a0 (testNo s).2 := by
  unfold testNo
  try dsimp only
  with_reducible repeat' first
    | assumption
    | rfl
    | apply fresh_keeps
    | split

theorem freeRefusal_keeps {a0 : State} (s : State) (h0 : Keeps a0 s) : Keeps a0 (freeRefusal s).1 := by
  unfold freeRefusal
  try dsimp only
  with_reducible repeat' first
    | assumption
    | rfl
    | apply fresh_keeps
    | refine KeepsO.getD ?_ ?_
    | refine KeepsO1.getD ?_ ?_
    | split

theorem touchStack_keeps {a0 : State} (s : State) (a : Nat) (n : Nat) (h0 : Keeps a0 s) : Keeps a0 (touchStack s a n) := by
  unfold touchStack
  try dsimp only
  with_reducible repeat' first
    | assumption
    | rfl
    | apply KeepsO.some
    | exact KeepsO.none
    | apply KeepsO1.some
    | apply KeepsO1.some'
    | exact KeepsO1.none
    | apply modMem_keeps
    | refine Keeps.fst (by assumption) ?_
    | refine Keeps.snd (by assumption) ?_
    | refine Keeps.get (by assumption) ?_
    | refine Keeps.get1 (by assumption) ?_
    | refine Keeps.get1' (by assumption) ?_
    | refine Keeps.ok (by assumption) ?_
    | refine Keeps.ok1 (by assumption) ?_
    | split

theorem touchBanks_keeps {a0 : State} (s : State) (a : Nat) (n : Nat) (h0 : Keeps a0 s) : Keeps a0 (touchBanks s a n) := by
  unfold touchBanks
  try dsimp only
  with_reducible repeat' first
    | assumption
    | rfl
    | apply touchStack_keeps
    | apply modMem_keeps
    | refine KeepsO.map ?_ (fun _ _ => ?_)
    | refine KeepsO.map1 ?_ (fun _ _ => ?_)
    | refine KeepsO.map0 (fun _ => ?_)
    | refine KeepsO1.map ?_ (fun _ _ => ?_)
    | refine KeepsO1.map1 ?_ (fun _ _ => ?_)
    | refine KeepsO1.map0 (fun _ => ?_)
    | split

theorem poke_keeps {a0 : State} (s : State) (a : Nat) (bs : List Byte) (h0 : Keeps a0 s) : Keeps a0 (poke s a bs) := by
  unfold poke
  try dsimp only
  with_reducible repeat' first
    | assumption
    | rfl
    | apply touchBanks_keeps
    | apply setChk_keeps
    | apply setCells_keeps
    | exact wf_writeCells _ _
    | exact wf_zeroCells _ _
    | exact wf_moveRange _ _ _ _
    | split

theorem scrub_keeps {a0 : State} (s : State) (a : Nat) (n : Nat) (h0 : Keeps a0 s) : Keeps a0 (scrub s a n) := by
  unfold scrub
  try dsimp only
  with_reducible repeat' first
    | assumption
    | rfl
    | apply touchBanks_keeps
    | apply setChk_keeps
    | apply setCells_keeps
    | exact wf_writeCells _ _
    | exact wf_zeroCells _ _
    | exact wf_moveRange _ _ _ _
    | split

theorem journal_keeps {a0 : State} (s : State) (h : Nat) (type : Nat) (payload : List Byte) (h0 : Keeps a0 s) : Keeps a0 (journal s h type payload) := by
  unfold journal
  try dsimp only
  with_reducible repeat' first
    | assumption
    | rfl
    | apply bump_keeps
    | apply modJrnl_keeps
    | refine KeepsO.getD ?_ ?_
    | refine KeepsO1.getD ?_ ?_
    | refine KeepsO.map ?_ (fun _ _ => ?_)
    | refine KeepsO.map1 ?_ (fun _ _ => ?_)
    | refine KeepsO.map0 (fun _ => ?_)
    | refine KeepsO1.map ?_ (fun _ _ => ?_)
    | refine KeepsO1.map1 ?_ (fun _ _ => ?_)
    | refine KeepsO1.map0 (fun _ => ?_)
    | split

theorem writeRefused_keeps {a0 : State} (s : State) (port : Nat) (h0 : Keeps a0 s) : Keeps a0 (writeRefused s port) := by
  unfold writeRefused
  try dsimp only
  with_reducible repeat' first
    | assumption
    | rfl
    | apply bump_keeps
    | split

theorem healthEvent_keeps {a0 : State} (s : State) (die : Nat) (bit : Nat) (value : Nat) (h0 : Keeps a0 s) : Keeps a0 (healthEvent s die bit value) := by
  unfold healthEvent
  try dsimp only
  with_reducible repeat' first
    | assumption
    | rfl
    | apply journal_keeps
    | apply rset_keeps
    | apply emit_keeps
    | split

theorem modDie_keeps {a0 : State} (s : State) (d : Nat) (f : DieHealth → DieHealth) (h0 : Keeps a0 s) : Keeps a0 (modDie s d f) := by
  unfold modDie
  try dsimp only
  with_reducible repeat' first
    | assumption
    | rfl
    | apply modHealth_keeps
    | split

theorem logErr_keeps {a0 : State} (s : State) (r : ErrRec) (h0 : Keeps a0 s) : Keeps a0 (logErr s r) := by
  unfold logErr
  try dsimp only
  with_reducible repeat' first
    | assumption
    | rfl
    | apply bump_keeps
    | apply modMem_keeps
    | refine KeepsO.getD ?_ ?_
    | refine KeepsO1.getD ?_ ?_
    | split

theorem modBank_keeps {a0 : State} (s : State) (die : Nat) (b : Nat) (f : Bank → Bank) (h0 : Keeps a0 s) : Keeps a0 (modBank s die b f) := by
  unfold modBank
  try dsimp only
  with_reducible repeat' first
    | assumption
    | rfl
    | apply modMem_keeps
    | split

theorem freeHeader_keeps {a0 : State} (s : State) (a : Nat) (gen : Nat) (h0 : Keeps a0 s) : Keeps a0 (freeHeader s a gen) := by
  unfold freeHeader
  try dsimp only
  with_reducible repeat' first
    | assumption
    | rfl
    | apply poke_keeps
    | split

theorem clearSlot_keeps {a0 : State} (s : State) (lpn : Nat) (h0 : Keeps a0 s) : Keeps a0 (clearSlot s lpn) := by
  unfold clearSlot
  try dsimp only
  with_reducible repeat' first
    | assumption
    | rfl
    | apply KeepsO.some
    | exact KeepsO.none
    | apply KeepsO1.some
    | apply KeepsO1.some'
    | exact KeepsO1.none
    | refine KeepsO.foldl (fun _ _ _ => ?_) _ ?_
    | refine KeepsO1.foldl (fun _ _ _ => ?_) _ ?_
    | apply scrub_keeps
    | apply freeHeader_keeps
    | apply modMem_keeps
    | refine KeepsO.getD ?_ ?_
    | refine KeepsO1.getD ?_ ?_
    | refine Keeps.foldl (fun _ _ _ => ?_) _ ?_
    | refine Keeps.foldl1 (fun _ _ _ => ?_) _ ?_
    | refine Keeps.fst (by assumption) ?_
    | refine Keeps.snd (by assumption) ?_
    | refine Keeps.get (by assumption) ?_
    | refine Keeps.get1 (by assumption) ?_
    | refine Keeps.get1' (by assumption) ?_
    | refine Keeps.ok (by assumption) ?_
    | refine Keeps.ok1 (by assumption) ?_
    | split

theorem setSlotGen_keeps {a0 : State} (s : State) (lpn : Nat) (gen : Nat) (h0 : Keeps a0 s) : Keeps a0 (setSlotGen s lpn gen) := by
  unfold setSlotGen
  try dsimp only
  with_reducible repeat' first
    | assumption
    | rfl
    | apply modMem_keeps
    | split

theorem banksOn_keeps {a0 : State} (s : State) (die : Nat) (unit : Nat) (n : Nat) (h0 : Keeps a0 s) : Keeps a0 (banksOn s die unit n) := by
  unfold banksOn
  try dsimp only
  with_reducible repeat' first
    | assumption
    | rfl
    | apply modBank_keeps
    | apply scrub_keeps
    | refine Keeps.foldl (fun _ _ _ => ?_) _ ?_
    | refine Keeps.foldl1 (fun _ _ _ => ?_) _ ?_
    | split

theorem allocSram_keeps {a0 : State} (s : State) (die0 : Nat) (tenant : Nat) (n : Nat) (kind : SramKind) (h0 : Keeps a0 s) : KeepsO1 a0 (allocSram s die0 tenant n kind) := by
  unfold allocSram
  try dsimp only
  with_reducible repeat' first
    | assumption
    | rfl
    | apply KeepsO.some
    | exact KeepsO.none
    | apply KeepsO1.some
    | apply KeepsO1.some'
    | exact KeepsO1.none
    | apply banksOn_keeps
    | apply scrub_keeps
    | apply modMem_keeps
    | refine KeepsO.map ?_ (fun _ _ => ?_)
    | refine KeepsO.map1 ?_ (fun _ _ => ?_)
    | refine KeepsO.map0 (fun _ => ?_)
    | refine KeepsO1.map ?_ (fun _ _ => ?_)
    | refine KeepsO1.map1 ?_ (fun _ _ => ?_)
    | refine KeepsO1.map0 (fun _ => ?_)
    | refine Keeps.fst (by assumption) ?_
    | refine Keeps.snd (by assumption) ?_
    | refine Keeps.get (by assumption) ?_
    | refine Keeps.get1 (by assumption) ?_
    | refine Keeps.get1' (by assumption) ?_
    | refine Keeps.ok (by assumption) ?_
    | refine Keeps.ok1 (by assumption) ?_
    | split

theorem freeSram_keeps {a0 : State} (s : State) (addr : Nat) (h0 : Keeps a0 s) : Keeps a0 (freeSram s addr) := by
  unfold freeSram
  try dsimp only
  with_reducible repeat' first
    | assumption
    | rfl
    | apply KeepsO.some
    | exact KeepsO.none
    | apply KeepsO1.some
    | apply KeepsO1.some'
    | exact KeepsO1.none
    | refine KeepsO.foldl (fun _ _ _ => ?_) _ ?_
    | refine KeepsO1.foldl (fun _ _ _ => ?_) _ ?_
    | apply modMem_keeps
    | apply modBank_keeps
    | apply scrub_keeps
    | refine Keeps.foldl (fun _ _ _ => ?_) _ ?_
    | refine Keeps.foldl1 (fun _ _ _ => ?_) _ ?_
    | refine Keeps.fst (by assumption) ?_
    | refine Keeps.snd (by assumption) ?_
    | refine Keeps.get (by assumption) ?_
    | refine Keeps.get1 (by assumption) ?_
    | refine Keeps.get1' (by assumption) ?_
    | refine Keeps.ok (by assumption) ?_
    | refine Keeps.ok1 (by assumption) ?_
    | split

theorem writeKgm_keeps {a0 : State} (s : State) (state : Nat) (entries : List (Nat × Nat × Nat × Nat × Nat)) (h0 : Keeps a0 s) : Keeps a0 (writeKgm s state entries) := by
  unfold writeKgm
  try dsimp only
  with_reducible repeat' first
    | assumption
    | rfl
    | apply modLife_keeps
    | refine KeepsO.getD ?_ ?_
    | refine KeepsO1.getD ?_ ?_
    | refine KeepsO.map ?_ (fun _ _ => ?_)
    | refine KeepsO.map1 ?_ (fun _ _ => ?_)
    | refine KeepsO.map0 (fun _ => ?_)
    | refine KeepsO1.map ?_ (fun _ _ => ?_)
    | refine KeepsO1.map1 ?_ (fun _ _ => ?_)
    | refine KeepsO1.map0 (fun _ => ?_)
    | split

theorem kgmAdd_keeps {a0 : State} (s : State) (die : Nat) (kind : Nat) (unit : Nat) (loc : Nat) (value : Nat) (h0 : Keeps a0 s) : Keeps a0 (kgmAdd s die kind unit loc value) := by
  unfold kgmAdd
  try dsimp only
  with_reducible repeat' first
    | assumption
    | rfl
    | apply writeKgm_keeps
    | split

theorem badWord_keeps {a0 : State} (s : State) (cls : Nat) (sy : Nat) (die : Nat) (reader : Nat) (off : Nat) (h0 : Keeps a0 s) : Keeps a0 (badWord s cls sy die reader off) := by
  unfold badWord
  try dsimp only
  with_reducible repeat' first
    | assumption
    | rfl
    | apply bump_keeps
    | apply modDie_keeps
    | apply logErr_keeps
    | apply healthEvent_keeps
    | apply journal_keeps
    | split

theorem readWord_keeps {a0 : State} (s : State) (a : Nat) (reader : Nat) (h0 : Keeps a0 s) : Keeps a0 (readWord s a reader).1 := by
  unfold readWord
  try dsimp only
  with_reducible repeat' first
    | assumption
    | rfl
    | apply KeepsO.some
    | exact KeepsO.none
    | apply KeepsO1.some
    | apply KeepsO1.some'
    | exact KeepsO1.none
    | apply bump_keeps
    | apply modDie_keeps
    | apply logErr_keeps
    | apply poke_keeps
    | apply modMem_keeps
    | apply badWord_keeps
    | refine KeepsO.getD ?_ ?_
    | refine KeepsO1.getD ?_ ?_
    | refine Keeps.fst (by assumption) ?_
    | refine Keeps.snd (by assumption) ?_
    | refine Keeps.get (by assumption) ?_
    | refine Keeps.get1 (by assumption) ?_
    | refine Keeps.get1' (by assumption) ?_
    | refine Keeps.ok (by assumption) ?_
    | refine Keeps.ok1 (by assumption) ?_
    | split

theorem moveWords_keeps {a0 : State} :
    ∀ (x0 : Nat) (x1 : State) (x2 : Nat) (x3 : Nat), Keeps a0 x1 → Keeps a0 (moveWords x0 x1 x2 x3)
  | 0, _, _, _, h0 => by
    unfold moveWords
    try dsimp only
    with_reducible repeat' first
      | assumption
      | rfl
      | apply KeepsO.some
      | exact KeepsO.none
      | apply KeepsO1.some
      | apply KeepsO1.some'
      | exact KeepsO1.none
      | apply readWord_keeps
      | apply poke_keeps
      | apply setChk_keeps
      | refine KeepsO.getD ?_ ?_
      | refine KeepsO1.getD ?_ ?_
      | refine Keeps.fst (by assumption) ?_
      | refine Keeps.snd (by assumption) ?_
      | refine Keeps.get (by assumption) ?_
      | refine Keeps.get1 (by assumption) ?_
      | refine Keeps.get1' (by assumption) ?_
      | refine Keeps.ok (by assumption) ?_
      | refine Keeps.ok1 (by assumption) ?_
      | split
  | n + 1, _, _, _, h0 => by
    unfold moveWords
    try dsimp only
    with_reducible repeat' first
      | assumption
      | rfl
      | apply KeepsO.some
      | exact KeepsO.none
      | apply KeepsO1.some
      | apply KeepsO1.some'
      | exact KeepsO1.none
      | apply readWord_keeps
      | apply poke_keeps
      | apply setChk_keeps
      | refine KeepsO.getD ?_ ?_
      | refine KeepsO1.getD ?_ ?_
      | refine Keeps.fst (by assumption) ?_
      | refine Keeps.snd (by assumption) ?_
      | refine Keeps.get (by assumption) ?_
      | refine Keeps.get1 (by assumption) ?_
      | refine Keeps.get1' (by assumption) ?_
      | refine Keeps.ok (by assumption) ?_
      | refine Keeps.ok1 (by assumption) ?_
      | split
      | apply moveWords_keeps

theorem moveRaw_keeps {a0 : State} (s : State) (src : Nat) (dst : Nat) (n : Nat) (h0 : Keeps a0 s) : Keeps a0 (moveRaw s src dst n) := by
  unfold moveRaw
  try dsimp only
  with_reducible repeat' first
    | assumption
    | rfl
    | apply touchBanks_keeps
    | apply moveWords_keeps
    | apply poke_keeps
    | split

theorem renameSram_keeps {a0 : State} (s : State) (src : Nat) (dst : Nat) (n : Nat) (h0 : Keeps a0 s) : Keeps a0 (renameSram s src dst n) := by
  unfold renameSram
  try dsimp only
  with_reducible repeat' first
    | assumption
    | rfl
    | apply modSeqs_keeps
    | apply modMem_keeps
    | apply modRegn_keeps
    | apply modDill_keeps
    | refine KeepsO.map ?_ (fun _ _ => ?_)
    | refine KeepsO.map1 ?_ (fun _ _ => ?_)
    | refine KeepsO.map0 (fun _ => ?_)
    | refine KeepsO1.map ?_ (fun _ _ => ?_)
    | refine KeepsO1.map1 ?_ (fun _ _ => ?_)
    | refine KeepsO1.map0 (fun _ => ?_)
    | split

theorem moveHold_keeps {a0 : State} (s : State) (h : SramHold) (h0 : Keeps a0 s) : Keeps a0 (moveHold s h) := by
  unfold moveHold
  try dsimp only
  with_reducible repeat' first
    | assumption
    | rfl
    | apply KeepsO.some
    | exact KeepsO.none
    | apply KeepsO1.some
    | apply KeepsO1.some'
    | exact KeepsO1.none
    | apply allocSram_keeps
    | apply freeSram_keeps
    | apply renameSram_keeps
    | apply moveRaw_keeps
    | refine Keeps.fst (by assumption) ?_
    | refine Keeps.snd (by assumption) ?_
    | refine Keeps.get (by assumption) ?_
    | refine Keeps.get1 (by assumption) ?_
    | refine Keeps.get1' (by assumption) ?_
    | refine Keeps.ok (by assumption) ?_
    | refine Keeps.ok1 (by assumption) ?_
    | split

theorem moveArea_keeps {a0 : State} (s : State) (die : Nat) (b : Nat) (h0 : Keeps a0 s) : Keeps a0 (moveArea s die b) := by
  unfold moveArea
  try dsimp only
  with_reducible repeat' first
    | assumption
    | rfl
    | apply KeepsO.some
    | exact KeepsO.none
    | apply KeepsO1.some
    | apply KeepsO1.some'
    | exact KeepsO1.none
    | apply allocSram_keeps
    | apply modBank_keeps
    | apply renameSram_keeps
    | apply moveRaw_keeps
    | refine Keeps.fst (by assumption) ?_
    | refine Keeps.snd (by assumption) ?_
    | refine Keeps.get (by assumption) ?_
    | refine Keeps.get1 (by assumption) ?_
    | refine Keeps.get1' (by assumption) ?_
    | refine Keeps.ok (by assumption) ?_
    | refine Keeps.ok1 (by assumption) ?_
    | split

theorem retireBank_keeps {a0 : State} (s : State) (die : Nat) (b : Nat) (h0 : Keeps a0 s) : Keeps a0 (retireBank s die b) := by
  unfold retireBank
  try dsimp only
  with_reducible repeat' first
    | assumption
    | rfl
    | apply modBank_keeps
    | apply moveArea_keeps
    | apply moveHold_keeps
    | apply healthEvent_keeps
    | apply kgmAdd_keeps
    | refine Keeps.foldl (fun _ _ _ => ?_) _ ?_
    | refine Keeps.foldl1 (fun _ _ _ => ?_) _ ?_
    | split

theorem repairColumn_keeps {a0 : State} (s : State) (die : Nat) (b : Nat) (col : Nat) (h0 : Keeps a0 s) : Keeps a0 (repairColumn s die b col) := by
  unfold repairColumn
  try dsimp only
  with_reducible repeat' first
    | assumption
    | rfl
    | apply retireBank_keeps
    | apply kgmAdd_keeps
    | apply modBank_keeps
    | apply healthEvent_keeps
    | apply journal_keeps
    | split

theorem repairRow_keeps {a0 : State} (s : State) (die : Nat) (off : Nat) (h0 : Keeps a0 s) : Keeps a0 (repairRow s die off) := by
  unfold repairRow
  try dsimp only
  with_reducible repeat' first
    | assumption
    | rfl
    | apply modMem_keeps
    | apply modDie_keeps
    | apply kgmAdd_keeps
    | apply fresh_keeps
    | apply journal_keeps
    | refine Keeps.fst (by assumption) ?_
    | refine Keeps.snd (by assumption) ?_
    | refine Keeps.get (by assumption) ?_
    | refine Keeps.get1 (by assumption) ?_
    | refine Keeps.get1' (by assumption) ?_
    | refine Keeps.ok (by assumption) ?_
    | refine Keeps.ok1 (by assumption) ?_
    | split

theorem repairWord_keeps {a0 : State} (s : State) (die : Nat) (off : Nat) (nib : Nat) (err : Nat) (h0 : Keeps a0 s) : Keeps a0 (repairWord s die off nib err) := by
  unfold repairWord
  try dsimp only
  with_reducible repeat' first
    | assumption
    | rfl
    | apply repairRow_keeps
    | apply repairColumn_keeps
    | refine KeepsO.getD ?_ ?_
    | refine KeepsO1.getD ?_ ?_
    | split

theorem mend_keeps {a0 : State} :
    ∀ (s : State) (a : Nat) (x0 : Option (Nat × Nat)), Keeps a0 s → Keeps a0 (mend s a x0)
  | _, _, none, h0 => by
    unfold mend
    try dsimp only
    with_reducible repeat' first
      | assumption
      | rfl
      | apply KeepsO.some
      | exact KeepsO.none
      | apply KeepsO1.some
      | apply KeepsO1.some'
      | exact KeepsO1.none
      | apply repairWord_keeps
      | refine KeepsO.getD ?_ ?_
      | refine KeepsO1.getD ?_ ?_
      | split
  | _, _, some (_, _), h0 => by
    unfold mend
    try dsimp only
    with_reducible repeat' first
      | assumption
      | rfl
      | apply KeepsO.some
      | exact KeepsO.none
      | apply KeepsO1.some
      | apply KeepsO1.some'
      | exact KeepsO1.none
      | apply repairWord_keeps
      | refine KeepsO.getD ?_ ?_
      | refine KeepsO1.getD ?_ ?_
      | split

theorem loadWord_keeps {a0 : State} (s : State) (a : Nat) (reader : Nat) (h0 : Keeps a0 s) : Keeps a0 (loadWord s a reader).1 := by
  unfold loadWord
  try dsimp only
  with_reducible repeat' first
    | assumption
    | rfl
    | apply readWord_keeps
    | apply mend_keeps
    | refine Keeps.fst (by assumption) ?_
    | refine Keeps.snd (by assumption) ?_
    | refine Keeps.get (by assumption) ?_
    | refine Keeps.get1 (by assumption) ?_
    | refine Keeps.get1' (by assumption) ?_
    | refine Keeps.ok (by assumption) ?_
    | refine Keeps.ok1 (by assumption) ?_
    | split

theorem loadWords_keeps {a0 : State} :
    ∀ (x0 : Nat) (x1 : State) (x2 : Nat) (x3 : Nat), Keeps a0 x1 → Keeps a0 (loadWords x0 x1 x2 x3).1
  | 0, _, _, _, h0 => by
    unfold loadWords
    try dsimp only
    with_reducible repeat' first
      | assumption
      | rfl
      | apply KeepsO.some
      | exact KeepsO.none
      | apply KeepsO1.some
      | apply KeepsO1.some'
      | exact KeepsO1.none
      | apply readWord_keeps
      | apply mend_keeps
      | refine KeepsO.map ?_ (fun _ _ => ?_)
      | refine KeepsO.map1 ?_ (fun _ _ => ?_)
      | refine KeepsO.map0 (fun _ => ?_)
      | refine KeepsO1.map ?_ (fun _ _ => ?_)
      | refine KeepsO1.map1 ?_ (fun _ _ => ?_)
      | refine KeepsO1.map0 (fun _ => ?_)
      | refine Keeps.fst (by assumption) ?_
      | refine Keeps.snd (by assumption) ?_
      | refine Keeps.get (by assumption) ?_
      | refine Keeps.get1 (by assumption) ?_
      | refine Keeps.get1' (by assumption) ?_
      | refine Keeps.ok (by assumption) ?_
      | refine Keeps.ok1 (by assumption) ?_
      | split
  | n + 1, _, _, _, h0 => by
    unfold loadWords
    try dsimp only
    with_reducible repeat' first
      | assumption
      | rfl
      | apply KeepsO.some
      | exact KeepsO.none
      | apply KeepsO1.some
      | apply KeepsO1.some'
      | exact KeepsO1.none
      | apply readWord_keeps
      | apply mend_keeps
      | refine KeepsO.map ?_ (fun _ _ => ?_)
      | refine KeepsO.map1 ?_ (fun _ _ => ?_)
      | refine KeepsO.map0 (fun _ => ?_)
      | refine KeepsO1.map ?_ (fun _ _ => ?_)
      | refine KeepsO1.map1 ?_ (fun _ _ => ?_)
      | refine KeepsO1.map0 (fun _ => ?_)
      | refine Keeps.fst (by assumption) ?_
      | refine Keeps.snd (by assumption) ?_
      | refine Keeps.get (by assumption) ?_
      | refine Keeps.get1 (by assumption) ?_
      | refine Keeps.get1' (by assumption) ?_
      | refine Keeps.ok (by assumption) ?_
      | refine Keeps.ok1 (by assumption) ?_
      | split
      | apply loadWords_keeps

theorem load_keeps {a0 : State} (s : State) (a : Nat) (n : Nat) (reader : Nat) (h0 : Keeps a0 s) : Keeps a0 (load s a n reader).1 := by
  unfold load
  try dsimp only
  with_reducible repeat' first
    | assumption
    | rfl
    | apply KeepsO.some
    | exact KeepsO.none
    | apply KeepsO1.some
    | apply KeepsO1.some'
    | exact KeepsO1.none
    | apply touchBanks_keeps
    | apply loadWords_keeps
    | refine Keeps.fst (by assumption) ?_
    | refine Keeps.snd (by assumption) ?_
    | refine Keeps.get (by assumption) ?_
    | refine Keeps.get1 (by assumption) ?_
    | refine Keeps.get1' (by assumption) ?_
    | refine Keeps.ok (by assumption) ?_
    | refine Keeps.ok1 (by assumption) ?_
    | split

theorem storeWords_keeps {a0 : State} :
    ∀ (x0 : Nat) (x1 : State) (x2 : Nat) (x3 : List Byte) (x4 : Nat), Keeps a0 x1 → Keeps a0 (storeWords x0 x1 x2 x3 x4).1
  | 0, _, _, _, _, h0 => by
    unfold storeWords
    try dsimp only
    with_reducible repeat' first
      | assumption
      | rfl
      | apply KeepsO.some
      | exact KeepsO.none
      | apply KeepsO1.some
      | apply KeepsO1.some'
      | exact KeepsO1.none
      | apply poke_keeps
      | apply readWord_keeps
      | apply mend_keeps
      | refine Keeps.fst (by assumption) ?_
      | refine Keeps.snd (by assumption) ?_
      | refine Keeps.get (by assumption) ?_
      | refine Keeps.get1 (by assumption) ?_
      | refine Keeps.get1' (by assumption) ?_
      | refine Keeps.ok (by assumption) ?_
      | refine Keeps.ok1 (by assumption) ?_
      | split
  | n + 1, _, _, _, _, h0 => by
    unfold storeWords
    try dsimp only
    with_reducible repeat' first
      | assumption
      | rfl
      | apply KeepsO.some
      | exact KeepsO.none
      | apply KeepsO1.some
      | apply KeepsO1.some'
      | exact KeepsO1.none
      | apply poke_keeps
      | apply readWord_keeps
      | apply mend_keeps
      | refine Keeps.fst (by assumption) ?_
      | refine Keeps.snd (by assumption) ?_
      | refine Keeps.get (by assumption) ?_
      | refine Keeps.get1 (by assumption) ?_
      | refine Keeps.get1' (by assumption) ?_
      | refine Keeps.ok (by assumption) ?_
      | refine Keeps.ok1 (by assumption) ?_
      | split
      | apply storeWords_keeps

theorem store_keeps {a0 : State} (s : State) (a : Nat) (bs : List Byte) (reader : Nat) (h0 : Keeps a0 s) : Keeps a0 (store s a bs reader).1 := by
  unfold store
  try dsimp only
  with_reducible repeat' first
    | assumption
    | rfl
    | apply storeWords_keeps
    | split

theorem modMeter_keeps {a0 : State} (s : State) (tenant : Nat) (f : Meter → Meter) (h0 : Keeps a0 s) : Keeps a0 (modMeter s tenant f) := by
  unfold modMeter
  try dsimp only
  with_reducible repeat' first
    | assumption
    | rfl
    | apply modHealth_keeps
    | split

theorem dieStateRec_keeps {a0 : State} (s : State) (die : Nat) (old : Nat) (new : Nat) (st : Nat) (h0 : Keeps a0 s) : Keeps a0 (dieStateRec s die old new st) := by
  unfold dieStateRec
  try dsimp only
  with_reducible repeat' first
    | assumption
    | rfl
    | apply journal_keeps
    | split

theorem setSliceSt_keeps {a0 : State} (s : State) (k : Nat) (st : Nat) (lcStatus : Nat) (h0 : Keeps a0 s) : Keeps a0 (setSliceSt s k st lcStatus) := by
  unfold setSliceSt
  try dsimp only
  with_reducible repeat' first
    | assumption
    | rfl
    | apply dieStateRec_keeps
    | apply modSlice_keeps
    | split

theorem setHubSt_keeps {a0 : State} (s : State) (h : Nat) (st : Nat) (lcStatus : Nat) (h0 : Keeps a0 s) : Keeps a0 (setHubSt s h st lcStatus) := by
  unfold setHubSt
  try dsimp only
  with_reducible repeat' first
    | assumption
    | rfl
    | apply dieStateRec_keeps
    | apply modHub_keeps
    | split

end Sys2Proof.Laws
end

