-- ==== Sys2Proof/Laws/KeepsChive.lean ====
section
/-!
SUPPORT. The operations of Machine/Chive.lean keep what Laws/Keeps.lean says.
-/
namespace Sys2Proof.Laws
open Sys2Proof.Machine

theorem rowWrite_keeps {a0 : State} (s : State) (h : Nat) (pos : Nat) (r : Option ChiveRow) (h0 : Keeps a0 s) : Keeps a0 (rowWrite s h pos r) := by
  unfold rowWrite
  try dsimp only
  with_reducible repeat' first
    | assumption
    | rfl
    | apply KeepsO.some
    | exact KeepsO.none
    | apply KeepsO1.some
    | apply KeepsO1.some'
    | exact KeepsO1.none
    | apply modChive_keeps
    | refine Keeps.fst (by assumption) ?_
    | refine Keeps.snd (by assumption) ?_
    | refine Keeps.get (by assumption) ?_
    | refine Keeps.get1 (by assumption) ?_
    | refine Keeps.get1' (by assumption) ?_
    | refine Keeps.ok (by assumption) ?_
    | refine Keeps.ok1 (by assumption) ?_
    | split

theorem setOt_keeps {a0 : State} (s : State) (h : Nat) (cls : Nat) (rows : List (Nat × ChiveRow)) (h0 : Keeps a0 s) : Keeps a0 (setOt s h cls rows) := by
  unfold setOt
  try dsimp only
  with_reducible repeat' first
    | assumption
    | rfl
    | apply modChive_keeps
    | split

theorem otPlace_keeps {a0 : State} (s : State) (h : Nat) (cls : Nat) (key : Nat) (group : List ChiveRow) (h0 : Keeps a0 s) : KeepsO a0 (otPlace s h cls key group) := by
  unfold otPlace
  try dsimp only
  with_reducible repeat' first
    | assumption
    | rfl
    | apply KeepsO.some
    | exact KeepsO.none
    | apply KeepsO1.some
    | apply KeepsO1.some'
    | exact KeepsO1.none
    | apply setOt_keeps
    | refine KeepsO.map ?_ (fun _ _ => ?_)
    | refine KeepsO.map1 ?_ (fun _ _ => ?_)
    | refine KeepsO.map0 (fun _ => ?_)
    | refine KeepsO1.map ?_ (fun _ _ => ?_)
    | refine KeepsO1.map1 ?_ (fun _ _ => ?_)
    | refine KeepsO1.map0 (fun _ => ?_)
    | refine Keeps.fst (by assumption) ?_
    | refine Keeps.snd (by assumption) ?_
    | refine Keeps.get (by assumption) ?_
    | refine Keeps.get1 (by assumption) ?_
    | refine Keeps.get1' (by assumption) ?_
    | refine Keeps.ok (by assumption) ?_
    | refine Keeps.ok1 (by assumption) ?_
    | split

theorem chiveBump_keeps {a0 : State} (s : State) (h : Nat) (r : Reg) (h0 : Keeps a0 s) : Keeps a0 (chiveBump s h r) := by
  unfold chiveBump
  try dsimp only
  with_reducible repeat' first
    | assumption
    | rfl
    | apply bump_keeps
    | split

theorem searchRest_keeps {a0 : State} (s : State) (h : Nat) (cls : Nat) (key : Nat) (confirm : Nat → Bool) (h0 : Keeps a0 s) : Keeps a0 (searchRest s h cls key confirm).1 := by
  unfold searchRest
  try dsimp only
  with_reducible repeat' first
    | assumption
    | rfl
    | apply KeepsO.some
    | exact KeepsO.none
    | apply KeepsO1.some
    | apply KeepsO1.some'
    | exact KeepsO1.none
    | apply chiveBump_keeps
    | refine KeepsO.map ?_ (fun _ _ => ?_)
    | refine KeepsO.map1 ?_ (fun _ _ => ?_)
    | refine KeepsO.map0 (fun _ => ?_)
    | refine KeepsO1.map ?_ (fun _ _ => ?_)
    | refine KeepsO1.map1 ?_ (fun _ _ => ?_)
    | refine KeepsO1.map0 (fun _ => ?_)
    | refine Keeps.fst (by assumption) ?_
    | refine Keeps.snd (by assumption) ?_
    | refine Keeps.get (by assumption) ?_
    | refine Keeps.get1 (by assumption) ?_
    | refine Keeps.get1' (by assumption) ?_
    | refine Keeps.ok (by assumption) ?_
    | refine Keeps.ok1 (by assumption) ?_
    | split

theorem searchShadow_keeps {a0 : State} (s : State) (h : Nat) (cls : Nat) (key : Nat) (confirm : Nat → Bool) (h0 : Keeps a0 s) : Keeps a0 (searchShadow s h cls key confirm).1 := by
  unfold searchShadow
  try dsimp only
  with_reducible repeat' first
    | assumption
    | rfl
    | apply KeepsO.some
    | exact KeepsO.none
    | apply KeepsO1.some
    | apply KeepsO1.some'
    | exact KeepsO1.none
    | apply chiveBump_keeps
    | apply modChive_keeps
    | apply searchRest_keeps
    | refine Keeps.fst (by assumption) ?_
    | refine Keeps.snd (by assumption) ?_
    | refine Keeps.get (by assumption) ?_
    | refine Keeps.get1 (by assumption) ?_
    | refine Keeps.get1' (by assumption) ?_
    | refine Keeps.ok (by assumption) ?_
    | refine Keeps.ok1 (by assumption) ?_
    | split

theorem searchCam_keeps {a0 : State} (again : Nat) (s : State) (h : Nat) (cls : Nat) (key : Nat) (confirm : Nat → Bool) (h0 : Keeps a0 s) : Keeps a0 (searchCam again s h cls key confirm).1 := by
  induction again generalizing s with
  | zero =>
    unfold searchCam
    try dsimp only
    with_reducible repeat' first
      | assumption
      | rfl
      | apply KeepsO.some
      | exact KeepsO.none
      | apply KeepsO1.some
      | apply KeepsO1.some'
      | exact KeepsO1.none
      | apply chiveBump_keeps
      | apply searchShadow_keeps
      | apply modChive_keeps
      | refine Keeps.fst (by assumption) ?_
      | refine Keeps.snd (by assumption) ?_
      | refine Keeps.get (by assumption) ?_
      | refine Keeps.get1 (by assumption) ?_
      | refine Keeps.get1' (by assumption) ?_
      | refine Keeps.ok (by assumption) ?_
      | refine Keeps.ok1 (by assumption) ?_
      | split
  | succ n ih =>
    unfold searchCam
    try dsimp only
    with_reducible repeat' first
      | assumption
      | rfl
      | apply KeepsO.some
      | exact KeepsO.none
      | apply KeepsO1.some
      | apply KeepsO1.some'
      | exact KeepsO1.none
      | apply chiveBump_keeps
      | apply searchShadow_keeps
      | apply modChive_keeps
      | refine Keeps.fst (by assumption) ?_
      | refine Keeps.snd (by assumption) ?_
      | refine Keeps.get (by assumption) ?_
      | refine Keeps.get1 (by assumption) ?_
      | refine Keeps.get1' (by assumption) ?_
      | refine Keeps.ok (by assumption) ?_
      | refine Keeps.ok1 (by assumption) ?_
      | split
      | apply ih

theorem search_keeps {a0 : State} (s : State) (h : Nat) (cls : Nat) (key : Nat) (confirm : Nat → Bool) (h0 : Keeps a0 s) : Keeps a0 (search s h cls key confirm).1 := by
  unfold search
  try dsimp only
  with_reducible repeat' first
    | assumption
    | rfl
    | apply searchCam_keeps
    | split

theorem shiftUp_keeps {a0 : State} :
    ∀ (s : State) (h : Nat) (block : Nat) (lo : Nat) (x0 : Nat), Keeps a0 s → Keeps a0 (shiftUp s h block lo x0)
  | _, _, _, _, 0, h0 => by
    unfold shiftUp
    try dsimp only
    with_reducible repeat' first
      | assumption
      | rfl
      | apply rowWrite_keeps
      | split
  | _, _, _, _, n + 1, h0 => by
    unfold shiftUp
    try dsimp only
    with_reducible repeat' first
      | assumption
      | rfl
      | apply rowWrite_keeps
      | split
      | apply shiftUp_keeps

theorem shiftDown_keeps {a0 : State} :
    ∀ (s : State) (h : Nat) (block : Nat) (lo : Nat) (x0 : Nat), Keeps a0 s → Keeps a0 (shiftDown s h block lo x0)
  | _, _, _, _, 0, h0 => by
    unfold shiftDown
    try dsimp only
    with_reducible repeat' first
      | assumption
      | rfl
      | apply rowWrite_keeps
      | split
  | _, _, _, _, n + 1, h0 => by
    unfold shiftDown
    try dsimp only
    with_reducible repeat' first
      | assumption
      | rfl
      | apply rowWrite_keeps
      | split
      | apply shiftDown_keeps

theorem insertBlock_keeps {a0 : State} (s : State) (h : Nat) (row : ChiveRow) (h0 : Keeps a0 s) : Keeps a0 (insertBlock s h row) := by
  unfold insertBlock
  try dsimp only
  with_reducible repeat' first
    | assumption
    | rfl
    | apply KeepsO.some
    | exact KeepsO.none
    | apply KeepsO1.some
    | apply KeepsO1.some'
    | exact KeepsO1.none
    | apply shiftUp_keeps
    | apply shiftDown_keeps
    | apply bumpBy_keeps
    | apply chiveBump_keeps
    | apply rowWrite_keeps
    | refine Keeps.fst (by assumption) ?_
    | refine Keeps.snd (by assumption) ?_
    | refine Keeps.get (by assumption) ?_
    | refine Keeps.get1 (by assumption) ?_
    | refine Keeps.get1' (by assumption) ?_
    | refine Keeps.ok (by assumption) ?_
    | refine Keeps.ok1 (by assumption) ?_
    | split

theorem insert_keeps {a0 : State} (s : State) (h : Nat) (row : ChiveRow) (h0 : Keeps a0 s) : Keeps a0 (Machine.insert s h row).1 := by
  unfold Machine.insert
  try dsimp only
  with_reducible repeat' first
    | assumption
    | rfl
    | apply KeepsO.some
    | exact KeepsO.none
    | apply KeepsO1.some
    | apply KeepsO1.some'
    | exact KeepsO1.none
    | refine KeepsO.foldl (fun _ _ _ => ?_) _ ?_
    | refine KeepsO1.foldl (fun _ _ _ => ?_) _ ?_
    | apply chiveBump_keeps
    | apply rowWrite_keeps
    | apply setOt_keeps
    | apply insertBlock_keeps
    | apply otPlace_keeps
    | apply modChive_keeps
    | refine KeepsO.getD ?_ ?_
    | refine KeepsO1.getD ?_ ?_
    | refine KeepsO.map ?_ (fun _ _ => ?_)
    | refine KeepsO.map1 ?_ (fun _ _ => ?_)
    | refine KeepsO.map0 (fun _ => ?_)
    | refine KeepsO1.map ?_ (fun _ _ => ?_)
    | refine KeepsO1.map1 ?_ (fun _ _ => ?_)
    | refine KeepsO1.map0 (fun _ => ?_)
    | refine Keeps.foldl (fun _ _ _ => ?_) _ ?_
    | refine Keeps.foldl1 (fun _ _ _ => ?_) _ ?_
    | refine Keeps.fst (by assumption) ?_
    | refine Keeps.snd (by assumption) ?_
    | refine Keeps.get (by assumption) ?_
    | refine Keeps.get1 (by assumption) ?_
    | refine Keeps.get1' (by assumption) ?_
    | refine Keeps.ok (by assumption) ?_
    | refine Keeps.ok1 (by assumption) ?_
    | split

theorem settleFlag_keeps {a0 : State} (s : State) (h : Nat) (cls : Nat) (h0 : Keeps a0 s) : Keeps a0 (settleFlag s h cls) := by
  unfold settleFlag
  try dsimp only
  with_reducible repeat' first
    | assumption
    | rfl
    | apply modChive_keeps
    | split

theorem probed_keeps {a0 : State} (s : State) (h : Nat) (cls : Nat) (h0 : Keeps a0 s) : Keeps a0 (probed s h cls) := by
  unfold probed
  try dsimp only
  with_reducible repeat' first
    | assumption
    | rfl
    | apply chiveBump_keeps
    | split

theorem delete_keeps {a0 : State} (s : State) (h : Nat) (cls : Nat) (key : Nat) (prio : Nat) (h0 : Keeps a0 s) : Keeps a0 (delete s h cls key prio) := by
  unfold delete
  try dsimp only
  with_reducible repeat' first
    | assumption
    | rfl
    | apply KeepsO.some
    | exact KeepsO.none
    | apply KeepsO1.some
    | apply KeepsO1.some'
    | exact KeepsO1.none
    | apply chiveBump_keeps
    | apply rowWrite_keeps
    | apply probed_keeps
    | apply settleFlag_keeps
    | apply setOt_keeps
    | refine Keeps.fst (by assumption) ?_
    | refine Keeps.snd (by assumption) ?_
    | refine Keeps.get (by assumption) ?_
    | refine Keeps.get1 (by assumption) ?_
    | refine Keeps.get1' (by assumption) ?_
    | refine Keeps.ok (by assumption) ?_
    | refine Keeps.ok1 (by assumption) ?_
    | split

theorem replace_keeps {a0 : State} (s : State) (h : Nat) (row : ChiveRow) (h0 : Keeps a0 s) : Keeps a0 (replace s h row) := by
  unfold replace
  try dsimp only
  with_reducible repeat' first
    | assumption
    | rfl
    | apply KeepsO.some
    | exact KeepsO.none
    | apply KeepsO1.some
    | apply KeepsO1.some'
    | exact KeepsO1.none
    | apply chiveBump_keeps
    | apply rowWrite_keeps
    | apply setOt_keeps
    | apply probed_keeps
    | refine KeepsO.map ?_ (fun _ _ => ?_)
    | refine KeepsO.map1 ?_ (fun _ _ => ?_)
    | refine KeepsO.map0 (fun _ => ?_)
    | refine KeepsO1.map ?_ (fun _ _ => ?_)
    | refine KeepsO1.map1 ?_ (fun _ _ => ?_)
    | refine KeepsO1.map0 (fun _ => ?_)
    | refine Keeps.fst (by assumption) ?_
    | refine Keeps.snd (by assumption) ?_
    | refine Keeps.get (by assumption) ?_
    | refine Keeps.get1 (by assumption) ?_
    | refine Keeps.get1' (by assumption) ?_
    | refine Keeps.ok (by assumption) ?_
    | refine Keeps.ok1 (by assumption) ?_
    | split

theorem insertAll_keeps {a0 : State} (s : State) (hs : List Nat) (row : ChiveRow) (h0 : Keeps a0 s) : Keeps a0 (insertAll s hs row).1 := by
  induction hs generalizing s with
  | nil =>
    unfold insertAll
    try dsimp only
    with_reducible repeat' first
      | assumption
      | rfl
      | apply insert_keeps
      | apply delete_keeps
      | refine Keeps.fst (by assumption) ?_
      | refine Keeps.snd (by assumption) ?_
      | refine Keeps.get (by assumption) ?_
      | refine Keeps.get1 (by assumption) ?_
      | refine Keeps.get1' (by assumption) ?_
      | refine Keeps.ok (by assumption) ?_
      | refine Keeps.ok1 (by assumption) ?_
      | split
  | cons p ps ih =>
    unfold insertAll
    try dsimp only
    with_reducible repeat' first
      | assumption
      | rfl
      | apply insert_keeps
      | apply delete_keeps
      | refine Keeps.fst (by assumption) ?_
      | refine Keeps.snd (by assumption) ?_
      | refine Keeps.get (by assumption) ?_
      | refine Keeps.get1 (by assumption) ?_
      | refine Keeps.get1' (by assumption) ?_
      | refine Keeps.ok (by assumption) ?_
      | refine Keeps.ok1 (by assumption) ?_
      | split
      | apply ih

theorem deleteAll_keeps {a0 : State} (s : State) (cls : Nat) (key : Nat) (prio : Nat) (h0 : Keeps a0 s) : Keeps a0 (deleteAll s cls key prio) := by
  unfold deleteAll
  try dsimp only
  with_reducible repeat' first
    | assumption
    | rfl
    | apply delete_keeps
    | refine Keeps.foldl (fun _ _ _ => ?_) _ ?_
    | refine Keeps.foldl1 (fun _ _ _ => ?_) _ ?_
    | split

end Sys2Proof.Laws
end

