-- ==== Sys2Proof/Laws/KeepsConn.lean ====
section
/-!
SUPPORT. The operations of Machine/Conn.lean keep what Laws/Keeps.lean says.
-/
namespace Sys2Proof.Laws
open Sys2Proof.Machine

theorem modConn_keeps {a0 : State} (s : State) (id : Nat) (f : Conn → Conn) (h0 : Keeps a0 s) : Keeps a0 (modConn s id f) := by
  unfold modConn
  try dsimp only
  with_reducible repeat' first
    | assumption
    | rfl
    | apply modFab_keeps
    | split

theorem spillOne_keeps {a0 : State} (s : State) (h : Nat) (h0 : Keeps a0 s) : KeepsO a0 (spillOne s h) := by
  unfold spillOne
  try dsimp only
  with_reducible repeat' first
    | assumption
    | rfl
    | apply KeepsO.some
    | exact KeepsO.none
    | apply KeepsO1.some
    | apply KeepsO1.some'
    | exact KeepsO1.none
    | apply modConn_keeps
    | apply replace_keeps
    | apply bump_keeps
    | refine KeepsO.map ?_ (fun _ _ => ?_)
    | refine KeepsO.map1 ?_ (fun _ _ => ?_)
    | refine KeepsO.map0 (fun _ => ?_)
    | refine KeepsO1.map ?_ (fun _ _ => ?_)
    | refine KeepsO1.map1 ?_ (fun _ _ => ?_)
    | refine KeepsO1.map0 (fun _ => ?_)
    | split

theorem makeRoom_keeps {a0 : State} (s : State) (h : Nat) (h0 : Keeps a0 s) : KeepsO a0 (makeRoom s h) := by
  unfold makeRoom
  try dsimp only
  with_reducible repeat' first
    | assumption
    | rfl
    | apply KeepsO.some
    | exact KeepsO.none
    | apply KeepsO1.some
    | apply KeepsO1.some'
    | exact KeepsO1.none
    | apply spillOne_keeps
    | split

theorem enterConn_keeps {a0 : State} (s : State) (c : Conn) (h0 : Keeps a0 s) : Keeps a0 (enterConn s c).1 := by
  unfold enterConn
  try dsimp only
  with_reducible repeat' first
    | assumption
    | rfl
    | apply KeepsO.some
    | exact KeepsO.none
    | apply KeepsO1.some
    | apply KeepsO1.some'
    | exact KeepsO1.none
    | apply makeRoom_keeps
    | apply newId_keeps
    | apply insert_keeps
    | apply modFab_keeps
    | refine Keeps.fst (by assumption) ?_
    | refine Keeps.snd (by assumption) ?_
    | refine Keeps.get (by assumption) ?_
    | refine Keeps.get1 (by assumption) ?_
    | refine Keeps.get1' (by assumption) ?_
    | refine Keeps.ok (by assumption) ?_
    | refine Keeps.ok1 (by assumption) ?_
    | split

theorem toEgress_keeps {a0 : State} (s : State) (h : Nat) (id : Nat) (peer : Nat) (f : Frame) (h0 : Keeps a0 s) : Keeps a0 (toEgress s h id peer f) := by
  unfold toEgress
  try dsimp only
  with_reducible repeat' first
    | assumption
    | rfl
    | apply modTraf_keeps
    | split

theorem emptied_keeps {a0 : State} (s : State) (q : Nat × Nat × Nat) (h0 : Keeps a0 s) : Keeps a0 (emptied s q) := by
  unfold emptied
  try dsimp only
  with_reducible repeat' first
    | assumption
    | rfl
    | apply KeepsO.some
    | exact KeepsO.none
    | apply KeepsO1.some
    | apply KeepsO1.some'
    | exact KeepsO1.none
    | apply modTraf_keeps
    | split

theorem keepEgress_keeps {a0 : State} (s : State) (keep : EgSeg → Bool) (h0 : Keeps a0 s) : Keeps a0 (keepEgress s keep) := by
  unfold keepEgress
  try dsimp only
  with_reducible repeat' first
    | assumption
    | rfl
    | apply emptied_keeps
    | apply modTraf_keeps
    | refine Keeps.foldl (fun _ _ _ => ?_) _ ?_
    | refine Keeps.foldl1 (fun _ _ _ => ?_) _ ?_
    | split

theorem sendUnseq_keeps {a0 : State} (s : State) (id : Nat) (op : Opcode) (flags : Nat) (hint : Nat) (payload : List Byte) (h0 : Keeps a0 s) : Keeps a0 (sendUnseq s id op flags hint payload) := by
  unfold sendUnseq
  try dsimp only
  with_reducible repeat' first
    | assumption
    | rfl
    | apply KeepsO.some
    | exact KeepsO.none
    | apply KeepsO1.some
    | apply KeepsO1.some'
    | exact KeepsO1.none
    | apply toEgress_keeps
    | refine Keeps.fst (by assumption) ?_
    | refine Keeps.snd (by assumption) ?_
    | refine Keeps.get (by assumption) ?_
    | refine Keeps.get1 (by assumption) ?_
    | refine Keeps.get1' (by assumption) ?_
    | refine Keeps.ok (by assumption) ?_
    | refine Keeps.ok1 (by assumption) ?_
    | split

theorem sendAck_keeps {a0 : State} (s : State) (id : Nat) (h0 : Keeps a0 s) : Keeps a0 (sendAck s id) := by
  unfold sendAck
  try dsimp only
  with_reducible repeat' first
    | assumption
    | rfl
    | apply KeepsO.some
    | exact KeepsO.none
    | apply KeepsO1.some
    | apply KeepsO1.some'
    | exact KeepsO1.none
    | apply sendUnseq_keeps
    | apply modConn_keeps
    | refine Keeps.fst (by assumption) ?_
    | refine Keeps.snd (by assumption) ?_
    | refine Keeps.get (by assumption) ?_
    | refine Keeps.get1 (by assumption) ?_
    | refine Keeps.get1' (by assumption) ?_
    | refine Keeps.ok (by assumption) ?_
    | refine Keeps.ok1 (by assumption) ?_
    | split

theorem reopen_keeps {a0 : State} (s : State) (h : Nat) (h0 : Keeps a0 s) : Keeps a0 (reopen s h) := by
  unfold reopen
  try dsimp only
  with_reducible repeat' first
    | assumption
    | rfl
    | apply sendAck_keeps
    | refine Keeps.foldl (fun _ _ _ => ?_) _ ?_
    | refine Keeps.foldl1 (fun _ _ _ => ?_) _ ?_
    | split

theorem freeUnits_keeps {a0 : State} (s : State) (m : Msg) (h0 : Keeps a0 s) : Keeps a0 (freeUnits s m) := by
  unfold freeUnits
  try dsimp only
  with_reducible repeat' first
    | assumption
    | rfl
    | apply reopen_keeps
    | split

theorem endSessions_keeps {a0 : State} (s : State) (c : Channel) (h0 : Keeps a0 s) : Keeps a0 (endSessions s c) := by
  unfold endSessions
  try dsimp only
  with_reducible repeat' first
    | assumption
    | rfl
    | apply modTrust_keeps
    | split

theorem dropConn_keeps {a0 : State} (s : State) (id : Nat) (h0 : Keeps a0 s) : Keeps a0 (dropConn s id) := by
  unfold dropConn
  try dsimp only
  with_reducible repeat' first
    | assumption
    | rfl
    | apply KeepsO.some
    | exact KeepsO.none
    | apply KeepsO1.some
    | apply KeepsO1.some'
    | exact KeepsO1.none
    | apply endSessions_keeps
    | apply delete_keeps
    | apply modFab_keeps
    | apply reopen_keeps
    | refine Keeps.fst (by assumption) ?_
    | refine Keeps.snd (by assumption) ?_
    | refine Keeps.get (by assumption) ?_
    | refine Keeps.get1 (by assumption) ?_
    | refine Keeps.get1' (by assumption) ?_
    | refine Keeps.ok (by assumption) ?_
    | refine Keeps.ok1 (by assumption) ?_
    | split

theorem sendHeartbeat_keeps {a0 : State} (s : State) (id : Nat) (h0 : Keeps a0 s) : Keeps a0 (sendHeartbeat s id) := by
  unfold sendHeartbeat
  try dsimp only
  with_reducible repeat' first
    | assumption
    | rfl
    | apply KeepsO.some
    | exact KeepsO.none
    | apply KeepsO1.some
    | apply KeepsO1.some'
    | exact KeepsO1.none
    | apply sendUnseq_keeps
    | refine Keeps.fst (by assumption) ?_
    | refine Keeps.snd (by assumption) ?_
    | refine Keeps.get (by assumption) ?_
    | refine Keeps.get1 (by assumption) ?_
    | refine Keeps.get1' (by assumption) ?_
    | refine Keeps.ok (by assumption) ?_
    | refine Keeps.ok1 (by assumption) ?_
    | split

theorem pump_keeps {a0 : State} (s : State) (id : Nat) (h0 : Keeps a0 s) : Keeps a0 (pump s id) := by
  unfold pump
  try dsimp only
  with_reducible repeat' first
    | assumption
    | rfl
    | apply KeepsO.some
    | exact KeepsO.none
    | apply KeepsO1.some
    | apply KeepsO1.some'
    | exact KeepsO1.none
    | refine KeepsO.foldl (fun _ _ _ => ?_) _ ?_
    | refine KeepsO1.foldl (fun _ _ _ => ?_) _ ?_
    | apply toEgress_keeps
    | apply modConn_keeps
    | refine KeepsO.map ?_ (fun _ _ => ?_)
    | refine KeepsO.map1 ?_ (fun _ _ => ?_)
    | refine KeepsO.map0 (fun _ => ?_)
    | refine KeepsO1.map ?_ (fun _ _ => ?_)
    | refine KeepsO1.map1 ?_ (fun _ _ => ?_)
    | refine KeepsO1.map0 (fun _ => ?_)
    | refine Keeps.foldl (fun _ _ _ => ?_) _ ?_
    | refine Keeps.foldl1 (fun _ _ _ => ?_) _ ?_
    | refine Keeps.fst (by assumption) ?_
    | refine Keeps.snd (by assumption) ?_
    | refine Keeps.get (by assumption) ?_
    | refine Keeps.get1 (by assumption) ?_
    | refine Keeps.get1' (by assumption) ?_
    | refine Keeps.ok (by assumption) ?_
    | refine Keeps.ok1 (by assumption) ?_
    | split

theorem sendMsg_keeps {a0 : State} (s : State) (id : Nat) (op : Opcode) (flags : Nat) (replyTo : Nat) (cls : Nat) (hint : Nat) (payload : List Byte) (h0 : Keeps a0 s) : Keeps a0 (sendMsg s id op flags replyTo cls hint payload).1 := by
  unfold sendMsg
  try dsimp only
  with_reducible repeat' first
    | assumption
    | rfl
    | apply KeepsO.some
    | exact KeepsO.none
    | apply KeepsO1.some
    | apply KeepsO1.some'
    | exact KeepsO1.none
    | apply modConn_keeps
    | apply pump_keeps
    | refine KeepsO.getD ?_ ?_
    | refine KeepsO1.getD ?_ ?_
    | refine KeepsO.map ?_ (fun _ _ => ?_)
    | refine KeepsO.map1 ?_ (fun _ _ => ?_)
    | refine KeepsO.map0 (fun _ => ?_)
    | refine KeepsO1.map ?_ (fun _ _ => ?_)
    | refine KeepsO1.map1 ?_ (fun _ _ => ?_)
    | refine KeepsO1.map0 (fun _ => ?_)
    | refine Keeps.fst (by assumption) ?_
    | refine Keeps.snd (by assumption) ?_
    | refine Keeps.get (by assumption) ?_
    | refine Keeps.get1 (by assumption) ?_
    | refine Keeps.get1' (by assumption) ?_
    | refine Keeps.ok (by assumption) ?_
    | refine Keeps.ok1 (by assumption) ?_
    | split

theorem sendNack_keeps {a0 : State} (s : State) (id : Nat) (replyTo : Nat) (st : Status) (hint : Nat) (payload : List Byte) (h0 : Keeps a0 s) : Keeps a0 (sendNack s id replyTo st hint payload) := by
  unfold sendNack
  try dsimp only
  with_reducible repeat' first
    | assumption
    | rfl
    | apply sendMsg_keeps
    | split

theorem bareNack_keeps {a0 : State} (s : State) (h : Nat) (peerAddr : Nat) (f : Frame) (st : Status) (h0 : Keeps a0 s) : Keeps a0 (bareNack s h peerAddr f st) := by
  unfold bareNack
  try dsimp only
  with_reducible repeat' first
    | assumption
    | rfl
    | apply toEgress_keeps
    | split

theorem settleConn_keeps {a0 : State} (s : State) (id : Nat) (h0 : Keeps a0 s) : Keeps a0 (settleConn s id) := by
  unfold settleConn
  try dsimp only
  with_reducible repeat' first
    | assumption
    | rfl
    | apply KeepsO.some
    | exact KeepsO.none
    | apply KeepsO1.some
    | apply KeepsO1.some'
    | exact KeepsO1.none
    | apply dropConn_keeps
    | refine Keeps.fst (by assumption) ?_
    | refine Keeps.snd (by assumption) ?_
    | refine Keeps.get (by assumption) ?_
    | refine Keeps.get1 (by assumption) ?_
    | refine Keeps.get1' (by assumption) ?_
    | refine Keeps.ok (by assumption) ?_
    | refine Keeps.ok1 (by assumption) ?_
    | split

theorem sendHello_keeps {a0 : State} (s : State) (id : Nat) (h0 : Keeps a0 s) : Keeps a0 (sendHello s id) := by
  unfold sendHello
  try dsimp only
  with_reducible repeat' first
    | assumption
    | rfl
    | apply KeepsO.some
    | exact KeepsO.none
    | apply KeepsO1.some
    | apply KeepsO1.some'
    | exact KeepsO1.none
    | apply toEgress_keeps
    | refine Keeps.fst (by assumption) ?_
    | refine Keeps.snd (by assumption) ?_
    | refine Keeps.get (by assumption) ?_
    | refine Keeps.get1 (by assumption) ?_
    | refine Keeps.get1' (by assumption) ?_
    | refine Keeps.ok (by assumption) ?_
    | refine Keeps.ok1 (by assumption) ?_
    | split

theorem openConn_keeps {a0 : State} (s : State) (h : Nat) (peer : Nat) (h0 : Keeps a0 s) : Keeps a0 (openConn s h peer).1 := by
  unfold openConn
  try dsimp only
  with_reducible repeat' first
    | assumption
    | rfl
    | apply KeepsO.some
    | exact KeepsO.none
    | apply KeepsO1.some
    | apply KeepsO1.some'
    | exact KeepsO1.none
    | apply fresh_keeps
    | apply enterConn_keeps
    | apply sendHello_keeps
    | refine Keeps.fst (by assumption) ?_
    | refine Keeps.snd (by assumption) ?_
    | refine Keeps.get (by assumption) ?_
    | refine Keeps.get1 (by assumption) ?_
    | refine Keeps.get1' (by assumption) ?_
    | refine Keeps.ok (by assumption) ?_
    | refine Keeps.ok1 (by assumption) ?_
    | split

theorem ask_keeps {a0 : State} (s : State) (h : Nat) (peer : Nat) (op : Opcode) (about : Nat) (payload : List Byte) (h0 : Keeps a0 s) : Keeps a0 (ask s h peer op about payload).1 := by
  unfold ask
  try dsimp only
  with_reducible repeat' first
    | assumption
    | rfl
    | apply KeepsO.some
    | exact KeepsO.none
    | apply KeepsO1.some
    | apply KeepsO1.some'
    | exact KeepsO1.none
    | apply sendMsg_keeps
    | apply modConn_keeps
    | apply openConn_keeps
    | refine Keeps.fst (by assumption) ?_
    | refine Keeps.snd (by assumption) ?_
    | refine Keeps.get (by assumption) ?_
    | refine Keeps.get1 (by assumption) ?_
    | refine Keeps.get1' (by assumption) ?_
    | refine Keeps.ok (by assumption) ?_
    | refine Keeps.ok1 (by assumption) ?_
    | split

theorem sendWaiting_keeps {a0 : State} (s : State) (id : Nat) (h0 : Keeps a0 s) : Keeps a0 (sendWaiting s id) := by
  unfold sendWaiting
  try dsimp only
  with_reducible repeat' first
    | assumption
    | rfl
    | apply KeepsO.some
    | exact KeepsO.none
    | apply KeepsO1.some
    | apply KeepsO1.some'
    | exact KeepsO1.none
    | refine KeepsO.foldl (fun _ _ _ => ?_) _ ?_
    | refine KeepsO1.foldl (fun _ _ _ => ?_) _ ?_
    | apply sendMsg_keeps
    | apply modConn_keeps
    | refine KeepsO.map ?_ (fun _ _ => ?_)
    | refine KeepsO.map1 ?_ (fun _ _ => ?_)
    | refine KeepsO.map0 (fun _ => ?_)
    | refine KeepsO1.map ?_ (fun _ _ => ?_)
    | refine KeepsO1.map1 ?_ (fun _ _ => ?_)
    | refine KeepsO1.map0 (fun _ => ?_)
    | refine Keeps.foldl (fun _ _ _ => ?_) _ ?_
    | refine Keeps.foldl1 (fun _ _ _ => ?_) _ ?_
    | refine Keeps.fst (by assumption) ?_
    | refine Keeps.snd (by assumption) ?_
    | refine Keeps.get (by assumption) ?_
    | refine Keeps.get1 (by assumption) ?_
    | refine Keeps.get1' (by assumption) ?_
    | refine Keeps.ok (by assumption) ?_
    | refine Keeps.ok1 (by assumption) ?_
    | split

theorem modSlot_keeps {a0 : State} (s : State) (p : Nat) (f : Nat) (k : Nat) (g : HostSlot → HostSlot) (h0 : Keeps a0 s) : Keeps a0 (modSlot s p f k g) := by
  unfold modSlot
  try dsimp only
  with_reducible repeat' first
    | assumption
    | rfl
    | apply modHost_keeps
    | split

theorem trainPort_keeps {a0 : State} (s : State) (p : Nat) (h0 : Keeps a0 s) : Keeps a0 (trainPort s p) := by
  unfold trainPort
  try dsimp only
  with_reducible repeat' first
    | assumption
    | rfl
    | apply fresh_keeps
    | apply bump_keeps
    | apply modPower_keeps
    | refine KeepsO.getD ?_ ?_
    | refine KeepsO1.getD ?_ ?_
    | refine Keeps.fst (by assumption) ?_
    | refine Keeps.snd (by assumption) ?_
    | refine Keeps.get (by assumption) ?_
    | refine Keeps.get1 (by assumption) ?_
    | refine Keeps.get1' (by assumption) ?_
    | refine Keeps.ok (by assumption) ?_
    | refine Keeps.ok1 (by assumption) ?_
    | split

theorem raiseRing_keeps {a0 : State} (s : State) (p : Nat) (f : Nat) (r : Nat) (h0 : Keeps a0 s) : Keeps a0 (raiseRing s p f r) := by
  unfold raiseRing
  try dsimp only
  with_reducible repeat' first
    | assumption
    | rfl
    | apply KeepsO.some
    | exact KeepsO.none
    | apply KeepsO1.some
    | apply KeepsO1.some'
    | exact KeepsO1.none
    | apply modHost_keeps
    | apply emit_keeps
    | refine Keeps.fst (by assumption) ?_
    | refine Keeps.snd (by assumption) ?_
    | refine Keeps.get (by assumption) ?_
    | refine Keeps.get1 (by assumption) ?_
    | refine Keeps.get1' (by assumption) ?_
    | refine Keeps.ok (by assumption) ?_
    | refine Keeps.ok1 (by assumption) ?_
    | split

theorem writeCompletion_keeps {a0 : State} (s : State) (p : Nat) (f : Nat) (slot : Nat) (r : Nat) (seq : Nat) (tag : Nat) (respBytes : Nat) (st : Nat) (hintMin : Nat) (irq : Bool) (h0 : Keeps a0 s) : Keeps a0 (writeCompletion s p f slot r seq tag respBytes st hintMin irq) := by
  unfold writeCompletion
  try dsimp only
  with_reducible repeat' first
    | assumption
    | rfl
    | apply emit_keeps
    | apply modHost_keeps
    | apply raiseRing_keeps
    | split

theorem completePcie_keeps {a0 : State} (s : State) (m : Msg) (id : Nat) (p : Nat) (f : Nat) (slot : Nat) (st : Status) (hintMin : Nat) (resp : List Byte) (h0 : Keeps a0 s) : Keeps a0 (completePcie s m id p f slot st hintMin resp) := by
  unfold completePcie
  try dsimp only
  with_reducible repeat' first
    | assumption
    | rfl
    | apply setMsgs_keeps
    | apply modHost_keeps
    | apply modSlot_keeps
    | apply emit_keeps
    | apply modMeter_keeps
    | apply writeCompletion_keeps
    | apply setMsgs_keeps
    | split

theorem answer_keeps {a0 : State} (s : State) (id : Nat) (op : Opcode) (st : Status) (hintMin : Nat) (payload : List Byte) (h0 : Keeps a0 s) : Keeps a0 (answer s id op st hintMin payload) := by
  unfold answer
  try dsimp only
  with_reducible repeat' first
    | assumption
    | rfl
    | apply KeepsO.some
    | exact KeepsO.none
    | apply KeepsO1.some
    | apply KeepsO1.some'
    | exact KeepsO1.none
    | apply freeUnits_keeps
    | apply setMsgs_keeps
    | apply modMeter_keeps
    | apply sendMsg_keeps
    | apply settleConn_keeps
    | apply completePcie_keeps
    | apply setMsgs_keeps
    | refine Keeps.fst (by assumption) ?_
    | refine Keeps.snd (by assumption) ?_
    | refine Keeps.get (by assumption) ?_
    | refine Keeps.get1 (by assumption) ?_
    | refine Keeps.get1' (by assumption) ?_
    | refine Keeps.ok (by assumption) ?_
    | refine Keeps.ok1 (by assumption) ?_
    | split

theorem refuse_keeps {a0 : State} (s : State) (id : Nat) (st : Status) (hintMin : Nat) (payload : List Byte) (resp : List Byte) (h0 : Keeps a0 s) : Keeps a0 (refuse s id st hintMin payload resp) := by
  unfold refuse
  try dsimp only
  with_reducible repeat' first
    | assumption
    | rfl
    | apply KeepsO.some
    | exact KeepsO.none
    | apply KeepsO1.some
    | apply KeepsO1.some'
    | exact KeepsO1.none
    | apply freeUnits_keeps
    | apply setMsgs_keeps
    | apply settleConn_keeps
    | apply sendNack_keeps
    | apply completePcie_keeps
    | apply setMsgs_keeps
    | refine Keeps.fst (by assumption) ?_
    | refine Keeps.snd (by assumption) ?_
    | refine Keeps.get (by assumption) ?_
    | refine Keeps.get1 (by assumption) ?_
    | refine Keeps.get1' (by assumption) ?_
    | refine Keeps.ok (by assumption) ?_
    | refine Keeps.ok1 (by assumption) ?_
    | split

theorem dropMsg_keeps {a0 : State} (s : State) (id : Nat) (h0 : Keeps a0 s) : Keeps a0 (dropMsg s id) := by
  unfold dropMsg
  try dsimp only
  with_reducible repeat' first
    | assumption
    | rfl
    | apply KeepsO.some
    | exact KeepsO.none
    | apply KeepsO1.some
    | apply KeepsO1.some'
    | exact KeepsO1.none
    | apply freeUnits_keeps
    | apply setMsgs_keeps
    | apply settleConn_keeps
    | apply setMsgs_keeps
    | refine Keeps.fst (by assumption) ?_
    | refine Keeps.snd (by assumption) ?_
    | refine Keeps.get (by assumption) ?_
    | refine Keeps.get1 (by assumption) ?_
    | refine Keeps.get1' (by assumption) ?_
    | refine Keeps.ok (by assumption) ?_
    | refine Keeps.ok1 (by assumption) ?_
    | split

theorem modMsg_keeps {a0 : State} (s : State) (id : Nat) (f : Msg → Msg) (h0 : Keeps a0 s) : Keeps a0 (modMsg s id f) := by
  unfold modMsg
  try dsimp only
  with_reducible repeat' first
    | assumption
    | rfl
    | apply setMsgs_keeps
    | apply setMsgs_keeps
    | split

theorem setPhase_keeps {a0 : State} (s : State) (id : Nat) (p : Phase) (h0 : Keeps a0 s) : Keeps a0 (setPhase s id p) := by
  unfold setPhase
  try dsimp only
  with_reducible repeat' first
    | assumption
    | rfl
    | apply KeepsO.some
    | exact KeepsO.none
    | apply KeepsO1.some
    | apply KeepsO1.some'
    | exact KeepsO1.none
    | apply modMsg_keeps
    | apply freeUnits_keeps
    | refine Keeps.fst (by assumption) ?_
    | refine Keeps.snd (by assumption) ?_
    | refine Keeps.get (by assumption) ?_
    | refine Keeps.get1 (by assumption) ?_
    | refine Keeps.get1' (by assumption) ?_
    | refine Keeps.ok (by assumption) ?_
    | refine Keeps.ok1 (by assumption) ?_
    | split

end Sys2Proof.Laws
end

