-- ==== Sys2Proof/Laws/KeepsPages.lean ====
section
/-!
SUPPORT. The operations of Machine/Pages.lean keep what Laws/Keeps.lean says.
-/
namespace Sys2Proof.Laws
open Sys2Proof.Machine

theorem noteChange_keeps {a0 : State} (s : State) (lpn : Nat) (h0 : Keeps a0 s) : Keeps a0 (noteChange s lpn) := by
  unfold noteChange
  try dsimp only
  with_reducible repeat' first
    | assumption
    | rfl
    | apply modMem_keeps
    | split

theorem markDamaged_keeps {a0 : State} (s : State) (lpn : Nat) (h0 : Keeps a0 s) : Keeps a0 (markDamaged s lpn) := by
  unfold markDamaged
  try dsimp only
  with_reducible repeat' first
    | assumption
    | rfl
    | apply noteChange_keeps
    | apply poke_keeps
    | apply journal_keeps
    | split

theorem readPage_keeps {a0 : State} (s : State) (r : PageRef) (g : PGeom) (tenant : Nat) (checkCrc : Bool) (reader : Nat) (h0 : Keeps a0 s) : Keeps a0 (readPage s r g tenant checkCrc reader).1 := by
  unfold readPage
  try dsimp only
  with_reducible repeat' first
    | assumption
    | rfl
    | apply KeepsO.some
    | exact KeepsO.none
    | apply KeepsO1.some
    | apply KeepsO1.some'
    | exact KeepsO1.none
    | apply KeepsE.ok
    | exact KeepsE.error
    | apply KeepsE1.ok
    | exact KeepsE1.error
    | apply load_keeps
    | apply markDamaged_keeps
    | refine Keeps.fst (by assumption) ?_
    | refine Keeps.snd (by assumption) ?_
    | refine Keeps.get (by assumption) ?_
    | refine Keeps.get1 (by assumption) ?_
    | refine Keeps.get1' (by assumption) ?_
    | refine Keeps.ok (by assumption) ?_
    | refine Keeps.ok1 (by assumption) ?_
    | split

theorem loadHdr_keeps {a0 : State} (s : State) (lpn : Nat) (reader : Nat) (h0 : Keeps a0 s) : Keeps a0 (loadHdr s lpn reader).1 := by
  unfold loadHdr
  try dsimp only
  with_reducible repeat' first
    | assumption
    | rfl
    | apply KeepsO.some
    | exact KeepsO.none
    | apply KeepsO1.some
    | apply KeepsO1.some'
    | exact KeepsO1.none
    | apply load_keeps
    | refine Keeps.fst (by assumption) ?_
    | refine Keeps.snd (by assumption) ?_
    | refine Keeps.get (by assumption) ?_
    | refine Keeps.get1 (by assumption) ?_
    | refine Keeps.get1' (by assumption) ?_
    | refine Keeps.ok (by assumption) ?_
    | refine Keeps.ok1 (by assumption) ?_
    | split

end Sys2Proof.Laws
end

