-- ==== Sys2Proof/Laws/KeepsDescs.lean ====
section
/-!
SUPPORT. The operations of Machine/Descs.lean keep what Laws/Keeps.lean says.
-/
namespace Sys2Proof.Laws
open Sys2Proof.Machine

theorem modDesc_keeps {a0 : State} (s : State) (i : Nat) (f : Desc → Desc) (h0 : Keeps a0 s) : Keeps a0 (modDesc s i f) := by
  unfold modDesc
  try dsimp only
  with_reducible repeat' first
    | assumption
    | rfl
    | apply modSeqs_keeps
    | split

theorem findSeq_keeps {a0 : State} (s : State) (hub : Nat) (tenant : Nat) (handle : Nat) (h0 : Keeps a0 s) : Keeps a0 (findSeq s hub tenant handle).1 := by
  unfold findSeq
  try dsimp only
  with_reducible repeat' first
    | assumption
    | rfl
    | apply search_keeps
    | split

theorem setRoot_keeps {a0 : State} (s : State) (k : Nat) (i : Nat) (pair : Nat) (r : Root) (h0 : Keeps a0 s) : Keeps a0 (setRoot s k i pair r) := by
  unfold setRoot
  try dsimp only
  with_reducible repeat' first
    | assumption
    | rfl
    | apply modSeqs_keeps
    | split

end Sys2Proof.Laws
end

