-- ==== Sys2Proof/Laws/KeepsPlaces.lean ====
section
/-!
SUPPORT. The operations of Machine/Places.lean keep what Laws/Keeps.lean says.
-/
namespace Sys2Proof.Laws
open Sys2Proof.Machine

theorem putRegion_keeps {a0 : State} (s : State) (i : Nat) (b : List Byte) (h0 : Keeps a0 s) : Keeps a0 (putRegion s i b) := by
  unfold putRegion
  try dsimp only
  with_reducible repeat' first
    | assumption
    | rfl
    | apply modRegn_keeps
    | apply fresh_keeps
    | refine KeepsO.getD ?_ ?_
    | refine KeepsO1.getD ?_ ?_
    | split

theorem MemRec.put_keeps {a0 : State} (s : State) (b : List Byte) (r : MemRec) (h0 : Keeps a0 s) :
    Keeps a0 (MemRec.put s b r) := by
  cases r <;> unfold MemRec.put
  all_goals
    try dsimp only
    with_reducible repeat' first
      | assumption
      | apply modSeqs_keeps
      | apply putRegion_keeps
      | apply setOt_keeps
      | apply modLedg_keeps
      | apply modFab_keeps
      | apply setRoot_keeps
      | rfl
      | split

theorem view_keeps {a0 : State} (s : State) (a : Nat) (n : Nat) (reader : Nat) (h0 : Keeps a0 s) : Keeps a0 (view s a n reader).1 := by
  unfold view
  try dsimp only
  with_reducible repeat' first
    | assumption
    | rfl
    | apply KeepsO.some
    | exact KeepsO.none
    | apply KeepsO1.some
    | apply KeepsO1.some'
    | exact KeepsO1.none
    | apply load_keeps
    | refine Keeps.fst (by assumption) ?_
    | refine Keeps.snd (by assumption) ?_
    | refine Keeps.get (by assumption) ?_
    | refine Keeps.get1 (by assumption) ?_
    | refine Keeps.get1' (by assumption) ?_
    | refine Keeps.ok (by assumption) ?_
    | refine Keeps.ok1 (by assumption) ?_
    | split

theorem putView_keeps {a0 : State} :
    ∀ (x0 : Nat) (x1 : State) (x2 : Nat) (x3 : List Byte) (x4 : Nat), Keeps a0 x1 → Keeps a0 (putView x0 x1 x2 x3 x4).1
  | 0, _, _, _, _, h0 => by
    unfold putView
    try dsimp only
    with_reducible repeat' first
      | assumption
      | rfl
      | apply KeepsO.some
      | exact KeepsO.none
      | apply KeepsO1.some
      | apply KeepsO1.some'
      | exact KeepsO1.none
      | apply MemRec.put_keeps
      | apply store_keeps
      | refine Keeps.fst (by assumption) ?_
      | refine Keeps.snd (by assumption) ?_
      | refine Keeps.get (by assumption) ?_
      | refine Keeps.get1 (by assumption) ?_
      | refine Keeps.get1' (by assumption) ?_
      | refine Keeps.ok (by assumption) ?_
      | refine Keeps.ok1 (by assumption) ?_
      | split
  | n + 1, _, _, _, _, h0 => by
    unfold putView
    try dsimp only
    with_reducible repeat' first
      | assumption
      | rfl
      | apply KeepsO.some
      | exact KeepsO.none
      | apply KeepsO1.some
      | apply KeepsO1.some'
      | exact KeepsO1.none
      | apply MemRec.put_keeps
      | apply store_keeps
      | refine Keeps.fst (by assumption) ?_
      | refine Keeps.snd (by assumption) ?_
      | refine Keeps.get (by assumption) ?_
      | refine Keeps.get1 (by assumption) ?_
      | refine Keeps.get1' (by assumption) ?_
      | refine Keeps.ok (by assumption) ?_
      | refine Keeps.ok1 (by assumption) ?_
      | split
      | apply putView_keeps

theorem putBytes_keeps {a0 : State} (s : State) (a : Nat) (bs : List Byte) (h0 : Keeps a0 s) : Keeps a0 (putBytes s a bs) := by
  unfold putBytes
  try dsimp only
  with_reducible repeat' first
    | assumption
    | rfl
    | apply putView_keeps
    | apply poke_keeps
    | split

end Sys2Proof.Laws
end

