-- ==== Sys2Proof/Laws/KeepsFences.lean ====
section
/-!
SUPPORT. The operations of Machine/Fences.lean keep what Laws/Keeps.lean says.
-/
namespace Sys2Proof.Laws
open Sys2Proof.Machine

theorem modRegion_keeps {a0 : State} (s : State) (i : Nat) (f : Region → Region) (h0 : Keeps a0 s) : Keeps a0 (modRegion s i f) := by
  unfold modRegion
  try dsimp only
  with_reducible repeat' first
    | assumption
    | rfl
    | apply modRegn_keeps
    | split

theorem countRefusal_keeps {a0 : State} :
    ∀ (s : State) (hub : Nat) (x0 : Status), Keeps a0 s → Keeps a0 (countRefusal s hub x0)
  | _, _, st, h0 => by
    unfold countRefusal
    try dsimp only
    with_reducible repeat' first
      | assumption
      | rfl
      | apply bump_keeps
      | refine Keeps.fst (by assumption) ?_
      | refine Keeps.snd (by assumption) ?_
      | refine Keeps.get (by assumption) ?_
      | refine Keeps.get1 (by assumption) ?_
      | refine Keeps.get1' (by assumption) ?_
      | refine Keeps.ok (by assumption) ?_
      | refine Keeps.ok1 (by assumption) ?_
      | split

theorem answerRead_keeps {a0 : State} (s : State) (id : Nat) (st : Status) (key : Nat) (data : List Byte) (h0 : Keeps a0 s) : Keeps a0 (answerRead s id st key data) := by
  unfold answerRead
  try dsimp only
  with_reducible repeat' first
    | assumption
    | rfl
    | apply KeepsO.some
    | exact KeepsO.none
    | apply KeepsO1.some
    | apply KeepsO1.some'
    | exact KeepsO1.none
    | apply KeepsE.ok
    | exact KeepsE.error
    | apply KeepsE1.ok
    | exact KeepsE1.error
    | apply bump_keeps
    | apply countRefusal_keeps
    | apply answer_keeps
    | refine Keeps.fst (by assumption) ?_
    | refine Keeps.snd (by assumption) ?_
    | refine Keeps.get (by assumption) ?_
    | refine Keeps.get1 (by assumption) ?_
    | refine Keeps.get1' (by assumption) ?_
    | refine Keeps.ok (by assumption) ?_
    | refine Keeps.ok1 (by assumption) ?_
    | split

theorem leaveRegion_keeps {a0 : State} (s : State) (i : Nat) (h0 : Keeps a0 s) : Keeps a0 (leaveRegion s i) := by
  unfold leaveRegion
  try dsimp only
  with_reducible repeat' first
    | assumption
    | rfl
    | apply modRegion_keeps
    | split

theorem dropSnap_keeps {a0 : State} (s : State) (snap : Nat) (x : Snapshot) (h0 : Keeps a0 s) : Keeps a0 (dropSnap s snap x) := by
  unfold dropSnap
  try dsimp only
  with_reducible repeat' first
    | assumption
    | rfl
    | apply KeepsO.some
    | exact KeepsO.none
    | apply KeepsO1.some
    | apply KeepsO1.some'
    | exact KeepsO1.none
    | apply modDill_keeps
    | refine Keeps.fst (by assumption) ?_
    | refine Keeps.snd (by assumption) ?_
    | refine Keeps.get (by assumption) ?_
    | refine Keeps.get1 (by assumption) ?_
    | refine Keeps.get1' (by assumption) ?_
    | refine Keeps.ok (by assumption) ?_
    | refine Keeps.ok1 (by assumption) ?_
    | split

theorem answerSnap_keeps {a0 : State} (s : State) (x : Snapshot) (got : Except Status (List Byte)) (h0 : Keeps a0 s) : Keeps a0 (answerSnap s x got) := by
  unfold answerSnap
  try dsimp only
  with_reducible repeat' first
    | assumption
    | rfl
    | apply KeepsO.some
    | exact KeepsO.none
    | apply KeepsO1.some
    | apply KeepsO1.some'
    | exact KeepsO1.none
    | apply KeepsE.ok
    | exact KeepsE.error
    | apply KeepsE1.ok
    | exact KeepsE1.error
    | apply leaveRegion_keeps
    | apply answerRead_keeps
    | refine Keeps.fst (by assumption) ?_
    | refine Keeps.snd (by assumption) ?_
    | refine Keeps.get (by assumption) ?_
    | refine Keeps.get1 (by assumption) ?_
    | refine Keeps.get1' (by assumption) ?_
    | refine Keeps.ok (by assumption) ?_
    | refine Keeps.ok1 (by assumption) ?_
    | split

theorem snapshotCopy_keeps {a0 : State} (s : State) (snap : Nat) (h0 : Keeps a0 s) : Keeps a0 (snapshotCopy s snap) := by
  unfold snapshotCopy
  try dsimp only
  with_reducible repeat' first
    | assumption
    | rfl
    | apply KeepsO.some
    | exact KeepsO.none
    | apply KeepsO1.some
    | apply KeepsO1.some'
    | exact KeepsO1.none
    | apply KeepsE.ok
    | exact KeepsE.error
    | apply KeepsE1.ok
    | exact KeepsE1.error
    | apply view_keeps
    | apply dropSnap_keeps
    | apply rmax_keeps
    | apply bump_keeps
    | apply answerSnap_keeps
    | refine Keeps.fst (by assumption) ?_
    | refine Keeps.snd (by assumption) ?_
    | refine Keeps.get (by assumption) ?_
    | refine Keeps.get1 (by assumption) ?_
    | refine Keeps.get1' (by assumption) ?_
    | refine Keeps.ok (by assumption) ?_
    | refine Keeps.ok1 (by assumption) ?_
    | split

theorem lowerFences_keeps {a0 : State} (s : State) (a : Nat) (n : Nat) (h0 : Keeps a0 s) : Keeps a0 (lowerFences s a n) := by
  unfold lowerFences
  try dsimp only
  with_reducible repeat' first
    | assumption
    | rfl
    | apply snapshotCopy_keeps
    | refine Keeps.foldl (fun _ _ _ => ?_) _ ?_
    | refine Keeps.foldl1 (fun _ _ _ => ?_) _ ?_
    | split

theorem raiseFence_keeps {a0 : State} (s : State) (die : Nat) (lpn : Option Nat) (base : Nat) (len : Nat) (msg : Nat) (region : Nat) (h0 : Keeps a0 s) : Keeps a0 (raiseFence s die lpn base len msg region) := by
  unfold raiseFence
  try dsimp only
  with_reducible repeat' first
    | assumption
    | rfl
    | apply newId_keeps
    | apply modDill_keeps
    | refine Keeps.fst (by assumption) ?_
    | refine Keeps.snd (by assumption) ?_
    | refine Keeps.get (by assumption) ?_
    | refine Keeps.get1 (by assumption) ?_
    | refine Keeps.get1' (by assumption) ?_
    | refine Keeps.ok (by assumption) ?_
    | refine Keeps.ok1 (by assumption) ?_
    | split

theorem putWords_keeps {a0 : State} (s : State) (a : Nat) (bs : List Byte) (h0 : Keeps a0 s) : Keeps a0 (putWords s a bs) := by
  unfold putWords
  try dsimp only
  with_reducible repeat' first
    | assumption
    | rfl
    | apply poke_keeps
    | apply lowerFences_keeps
    | split

theorem loadGen_keeps {a0 : State} (s : State) (lpn : Nat) (h0 : Keeps a0 s) : Keeps a0 (loadGen s lpn).1 := by
  unfold loadGen
  try dsimp only
  with_reducible repeat' first
    | assumption
    | rfl
    | apply KeepsO.some
    | exact KeepsO.none
    | apply KeepsO1.some
    | apply KeepsO1.some'
    | exact KeepsO1.none
    | apply load_keeps
    | apply fresh_keeps
    | refine Keeps.fst (by assumption) ?_
    | refine Keeps.snd (by assumption) ?_
    | refine Keeps.get (by assumption) ?_
    | refine Keeps.get1 (by assumption) ?_
    | refine Keeps.get1' (by assumption) ?_
    | refine Keeps.ok (by assumption) ?_
    | refine Keeps.ok1 (by assumption) ?_
    | split

theorem innerGens_keeps {a0 : State} (s : State) (lpn : Nat) (n : Nat) (h0 : Keeps a0 s) : Keeps a0 (innerGens s lpn n).1 := by
  unfold innerGens
  try dsimp only
  with_reducible repeat' first
    | assumption
    | rfl
    | apply loadGen_keeps
    | refine Keeps.foldl (fun _ _ _ => ?_) _ ?_
    | refine Keeps.foldl1 (fun _ _ _ => ?_) _ ?_
    | refine Keeps.fst (by assumption) ?_
    | refine Keeps.snd (by assumption) ?_
    | refine Keeps.get (by assumption) ?_
    | refine Keeps.get1 (by assumption) ?_
    | refine Keeps.get1' (by assumption) ?_
    | refine Keeps.ok (by assumption) ?_
    | refine Keeps.ok1 (by assumption) ?_
    | split

theorem placeSlot_keeps {a0 : State} (s : State) (k : Nat) (tenant : Nat) (units : Nat) (kind : SlotKind) (h0 : Keeps a0 s) : KeepsO1 a0 (placeSlot s k tenant units kind) := by
  unfold placeSlot
  try dsimp only
  with_reducible repeat' first
    | assumption
    | rfl
    | apply KeepsO.some
    | exact KeepsO.none
    | apply KeepsO1.some
    | apply KeepsO1.some'
    | exact KeepsO1.none
    | apply lowerFences_keeps
    | apply loadGen_keeps
    | apply innerGens_keeps
    | apply scrub_keeps
    | apply modMem_keeps
    | refine KeepsO.map ?_ (fun _ _ => ?_)
    | refine KeepsO.map1 ?_ (fun _ _ => ?_)
    | refine KeepsO.map0 (fun _ => ?_)
    | refine KeepsO1.map ?_ (fun _ _ => ?_)
    | refine KeepsO1.map1 ?_ (fun _ _ => ?_)
    | refine KeepsO1.map0 (fun _ => ?_)
    | refine Keeps.fst (by assumption) ?_
    | refine Keeps.snd (by assumption) ?_
    | refine Keeps.get (by assumption) ?_
    | refine Keeps.get1 (by assumption) ?_
    | refine Keeps.get1' (by assumption) ?_
    | refine Keeps.ok (by assumption) ?_
    | refine Keeps.ok1 (by assumption) ?_
    | split

theorem allocSlot_keeps {a0 : State} (s : State) (k : Nat) (tenant : Nat) (units : Nat) (kind : SlotKind) (h0 : Keeps a0 s) : KeepsO1 a0 (allocSlot s k tenant units kind) := by
  unfold allocSlot
  try dsimp only
  with_reducible repeat' first
    | assumption
    | rfl
    | apply KeepsO.some
    | exact KeepsO.none
    | apply KeepsO1.some
    | apply KeepsO1.some'
    | exact KeepsO1.none
    | apply placeSlot_keeps
    | split

theorem freeSlot_keeps {a0 : State} (s : State) (lpn : Nat) (h0 : Keeps a0 s) : Keeps a0 (freeSlot s lpn) := by
  unfold freeSlot
  try dsimp only
  with_reducible repeat' first
    | assumption
    | rfl
    | apply clearSlot_keeps
    | apply lowerFences_keeps
    | refine KeepsO.getD ?_ ?_
    | refine KeepsO1.getD ?_ ?_
    | refine KeepsO.map ?_ (fun _ _ => ?_)
    | refine KeepsO.map1 ?_ (fun _ _ => ?_)
    | refine KeepsO.map0 (fun _ => ?_)
    | refine KeepsO1.map ?_ (fun _ _ => ?_)
    | refine KeepsO1.map1 ?_ (fun _ _ => ?_)
    | refine KeepsO1.map0 (fun _ => ?_)
    | split

end Sys2Proof.Laws
end

