-- ==== Sys2Proof/Laws/KeepsLanes.lean ====
section
/-!
SUPPORT. The operations of Machine/Lanes.lean keep what Laws/Keeps.lean says.
-/
namespace Sys2Proof.Laws
open Sys2Proof.Machine

theorem modEng_keeps {a0 : State} (s : State) (k : Nat) (f : Dill → Dill) (h0 : Keeps a0 s) : Keeps a0 (modEng s k f) := by
  unfold modEng
  try dsimp only
  with_reducible repeat' first
    | assumption
    | rfl
    | apply modDill_keeps
    | refine KeepsO.getD ?_ ?_
    | refine KeepsO1.getD ?_ ?_
    | split

theorem modCmd_keeps {a0 : State} (s : State) (k : Nat) (i : Nat) (f : CmdSlot → CmdSlot) (h0 : Keeps a0 s) : Keeps a0 (modCmd s k i f) := by
  unfold modCmd
  try dsimp only
  with_reducible repeat' first
    | assumption
    | rfl
    | apply modEng_keeps
    | split

theorem modStack_keeps {a0 : State} (s : State) (k : Nat) (f : Stack → Stack) (h0 : Keeps a0 s) : Keeps a0 (modStack s k f) := by
  unfold modStack
  try dsimp only
  with_reducible repeat' first
    | assumption
    | rfl
    | apply modMem_keeps
    | split

theorem settleLevel_keeps {a0 : State} (s : State) (k : Nat) (h0 : Keeps a0 s) : Keeps a0 (settleLevel s k) := by
  unfold settleLevel
  try dsimp only
  with_reducible repeat' first
    | assumption
    | rfl
    | apply modMem_keeps
    | apply bump_keeps
    | split

theorem settleLevels_keeps {a0 : State} (s : State) (h0 : Keeps a0 s) : Keeps a0 (settleLevels s) := by
  unfold settleLevels
  try dsimp only
  with_reducible repeat' first
    | assumption
    | rfl
    | apply settleLevel_keeps
    | refine Keeps.foldl (fun _ _ _ => ?_) _ ?_
    | refine Keeps.foldl1 (fun _ _ _ => ?_) _ ?_
    | split

theorem settleBanks_keeps {a0 : State} (s : State) (k : Nat) (h0 : Keeps a0 s) : Keeps a0 (settleBanks s k) := by
  unfold settleBanks
  try dsimp only
  with_reducible repeat' first
    | assumption
    | rfl
    | apply modBank_keeps
    | refine Keeps.foldl (fun _ _ _ => ?_) _ ?_
    | refine Keeps.foldl1 (fun _ _ _ => ?_) _ ?_
    | split

theorem takeLane_keeps {a0 : State} (s : State) (k : Nat) (i : Nat) (h0 : Keeps a0 s) : Keeps a0 (takeLane s k i) := by
  unfold takeLane
  try dsimp only
  with_reducible repeat' first
    | assumption
    | rfl
    | apply KeepsO.some
    | exact KeepsO.none
    | apply KeepsO1.some
    | apply KeepsO1.some'
    | exact KeepsO1.none
    | apply modCmd_keeps
    | apply modEng_keeps
    | apply bump_keeps
    | refine KeepsO.map ?_ (fun _ _ => ?_)
    | refine KeepsO.map1 ?_ (fun _ _ => ?_)
    | refine KeepsO.map0 (fun _ => ?_)
    | refine KeepsO1.map ?_ (fun _ _ => ?_)
    | refine KeepsO1.map1 ?_ (fun _ _ => ?_)
    | refine KeepsO1.map0 (fun _ => ?_)
    | refine Keeps.fst (by assumption) ?_
    | refine Keeps.snd (by assumption) ?_
    | refine Keeps.get (by assumption) ?_
    | refine Keeps.get1 (by assumption) ?_
    | refine Keeps.get1' (by assumption) ?_
    | refine Keeps.ok (by assumption) ?_
    | refine Keeps.ok1 (by assumption) ?_
    | split

theorem pauseAfter_keeps {a0 : State} (s : State) (k : Nat) (n : Nat) (t : Nat) (h0 : Keeps a0 s) : Keeps a0 (pauseAfter s k n t) := by
  unfold pauseAfter
  try dsimp only
  with_reducible repeat' first
    | assumption
    | rfl
    | apply KeepsO.some
    | exact KeepsO.none
    | apply KeepsO1.some
    | apply KeepsO1.some'
    | exact KeepsO1.none
    | apply modEng_keeps
    | split

theorem endSegment_keeps {a0 : State} (s : State) (k : Nat) (i : Nat) (h0 : Keeps a0 s) : Keeps a0 (endSegment s k i) := by
  unfold endSegment
  try dsimp only
  with_reducible repeat' first
    | assumption
    | rfl
    | apply rmax_keeps
    | apply modEng_keeps
    | apply modCmd_keeps
    | apply settleBanks_keeps
    | apply settleLevel_keeps
    | apply bump_keeps
    | apply pauseAfter_keeps
    | split

theorem fillSlot_keeps {a0 : State} (s : State) (k : Nat) (i : Nat) (c : CmdSlot) (h0 : Keeps a0 s) : Keeps a0 (fillSlot s k i c) := by
  unfold fillSlot
  try dsimp only
  with_reducible repeat' first
    | assumption
    | rfl
    | apply modEng_keeps
    | split

end Sys2Proof.Laws
end

