-- ==== Sys2Proof/Laws/KeepsSeqs.lean ====
section
/-!
SUPPORT. The operations of Machine/Seqs.lean keep what Laws/Keeps.lean says.
-/
namespace Sys2Proof.Laws
open Sys2Proof.Machine

theorem freshRefs_keeps {a0 : State} (s : State) (old : Root) (new : Root) (h0 : Keeps a0 s) : Keeps a0 (freshRefs s old new) := by
  unfold freshRefs
  try dsimp only
  with_reducible repeat' first
    | assumption
    | rfl
    | apply setChk_keeps
    | split

theorem putRoot_keeps {a0 : State} (s : State) (k : Nat) (i : Nat) (pair : Nat) (r : Root) (h0 : Keeps a0 s) : Keeps a0 (putRoot s k i pair r) := by
  unfold putRoot
  try dsimp only
  with_reducible repeat' first
    | assumption
    | rfl
    | apply setRoot_keeps
    | apply freshRefs_keeps
    | split

theorem addRef_keeps {a0 : State} (s : State) (k : Nat) (i : Nat) (pair : Nat) (tenant : Nat) (ref : PageRef) (h0 : Keeps a0 s) : KeepsO a0 (addRef s k i pair tenant ref) := by
  unfold addRef
  try dsimp only
  with_reducible repeat' first
    | assumption
    | rfl
    | apply KeepsO.some
    | exact KeepsO.none
    | apply KeepsO1.some
    | apply KeepsO1.some'
    | exact KeepsO1.none
    | apply placeSlot_keeps
    | apply putRoot_keeps
    | refine KeepsO.bind ?_ (fun _ _ => ?_)
    | refine KeepsO.bind1 ?_ (fun _ _ => ?_)
    | refine KeepsO.bind0 (fun _ => ?_)
    | refine KeepsO1.bind ?_ (fun _ _ => ?_)
    | refine KeepsO1.bind1 ?_ (fun _ _ => ?_)
    | refine KeepsO1.bind0 (fun _ => ?_)
    | refine KeepsO.map ?_ (fun _ _ => ?_)
    | refine KeepsO.map1 ?_ (fun _ _ => ?_)
    | refine KeepsO.map0 (fun _ => ?_)
    | refine KeepsO1.map ?_ (fun _ _ => ?_)
    | refine KeepsO1.map1 ?_ (fun _ _ => ?_)
    | refine KeepsO1.map0 (fun _ => ?_)
    | split

theorem keepRefs_keeps {a0 : State} (s : State) (k : Nat) (i : Nat) (pair : Nat) (keep : PageRef → Bool) (h0 : Keeps a0 s) : Keeps a0 (keepRefs s k i pair keep) := by
  unfold keepRefs
  try dsimp only
  with_reducible repeat' first
    | assumption
    | rfl
    | apply freeSlot_keeps
    | apply modSeqs_keeps
    | apply putRoot_keeps
    | refine Keeps.foldl (fun _ _ _ => ?_) _ ?_
    | refine Keeps.foldl1 (fun _ _ _ => ?_) _ ?_
    | split

theorem swapRef_keeps {a0 : State} (s : State) (k : Nat) (i : Nat) (pair : Nat) (old : PageRef) (new : PageRef) (h0 : Keeps a0 s) : Keeps a0 (swapRef s k i pair old new) := by
  unfold swapRef
  try dsimp only
  with_reducible repeat' first
    | assumption
    | rfl
    | apply putRoot_keeps
    | refine KeepsO.map ?_ (fun _ _ => ?_)
    | refine KeepsO.map1 ?_ (fun _ _ => ?_)
    | refine KeepsO.map0 (fun _ => ?_)
    | refine KeepsO1.map ?_ (fun _ _ => ?_)
    | refine KeepsO1.map1 ?_ (fun _ _ => ?_)
    | refine KeepsO1.map0 (fun _ => ?_)
    | split

theorem allocTables_keeps {a0 : State} (s : State) (i : Nat) (d : Desc) (h0 : Keeps a0 s) : KeepsO a0 (allocTables s i d) := by
  unfold allocTables
  try dsimp only
  with_reducible repeat' first
    | assumption
    | rfl
    | apply KeepsO.some
    | exact KeepsO.none
    | apply KeepsO1.some
    | apply KeepsO1.some'
    | exact KeepsO1.none
    | refine KeepsO.foldl (fun _ _ _ => ?_) _ ?_
    | refine KeepsO1.foldl (fun _ _ _ => ?_) _ ?_
    | apply allocSlot_keeps
    | apply modSeqs_keeps
    | refine KeepsO.bind ?_ (fun _ _ => ?_)
    | refine KeepsO.bind1 ?_ (fun _ _ => ?_)
    | refine KeepsO.bind0 (fun _ => ?_)
    | refine KeepsO1.bind ?_ (fun _ _ => ?_)
    | refine KeepsO1.bind1 ?_ (fun _ _ => ?_)
    | refine KeepsO1.bind0 (fun _ => ?_)
    | refine KeepsO.map ?_ (fun _ _ => ?_)
    | refine KeepsO.map1 ?_ (fun _ _ => ?_)
    | refine KeepsO.map0 (fun _ => ?_)
    | refine KeepsO1.map ?_ (fun _ _ => ?_)
    | refine KeepsO1.map1 ?_ (fun _ _ => ?_)
    | refine KeepsO1.map0 (fun _ => ?_)
    | refine Keeps.foldl (fun _ _ _ => ?_) _ ?_
    | refine Keeps.foldl1 (fun _ _ _ => ?_) _ ?_
    | split

theorem unindexPage_keeps {a0 : State} (s : State) (lpn : Nat) (h : Hdr) (h0 : Keeps a0 s) : Keeps a0 (unindexPage s lpn h) := by
  unfold unindexPage
  try dsimp only
  with_reducible repeat' first
    | assumption
    | rfl
    | apply KeepsO.some
    | exact KeepsO.none
    | apply KeepsO1.some
    | apply KeepsO1.some'
    | exact KeepsO1.none
    | apply delete_keeps
    | refine KeepsO.map ?_ (fun _ _ => ?_)
    | refine KeepsO.map1 ?_ (fun _ _ => ?_)
    | refine KeepsO.map0 (fun _ => ?_)
    | refine KeepsO1.map ?_ (fun _ _ => ?_)
    | refine KeepsO1.map1 ?_ (fun _ _ => ?_)
    | refine KeepsO1.map0 (fun _ => ?_)
    | split

theorem freePage_keeps {a0 : State} (s : State) (lpn : Nat) (h0 : Keeps a0 s) : Keeps a0 (freePage s lpn) := by
  unfold freePage
  try dsimp only
  with_reducible repeat' first
    | assumption
    | rfl
    | apply KeepsO.some
    | exact KeepsO.none
    | apply KeepsO1.some
    | apply KeepsO1.some'
    | exact KeepsO1.none
    | apply unindexPage_keeps
    | apply freeSlot_keeps
    | apply freeSram_keeps
    | refine KeepsO.map ?_ (fun _ _ => ?_)
    | refine KeepsO.map1 ?_ (fun _ _ => ?_)
    | refine KeepsO.map0 (fun _ => ?_)
    | refine KeepsO1.map ?_ (fun _ _ => ?_)
    | refine KeepsO1.map1 ?_ (fun _ _ => ?_)
    | refine KeepsO1.map0 (fun _ => ?_)
    | refine Keeps.fst (by assumption) ?_
    | refine Keeps.snd (by assumption) ?_
    | refine Keeps.get (by assumption) ?_
    | refine Keeps.get1 (by assumption) ?_
    | refine Keeps.get1' (by assumption) ?_
    | refine Keeps.ok (by assumption) ?_
    | refine Keeps.ok1 (by assumption) ?_
    | split

theorem writeRefWord_keeps {a0 : State} (s : State) (lpn : Nat) (crc : Nat) (refs : Nat) (h0 : Keeps a0 s) : Keeps a0 (writeRefWord s lpn crc refs) := by
  unfold writeRefWord
  try dsimp only
  with_reducible repeat' first
    | assumption
    | rfl
    | apply noteChange_keeps
    | apply putWords_keeps
    | split

theorem applyRef_keeps {a0 : State} (s : State) (c : RefChange) (h0 : Keeps a0 s) : Keeps a0 (applyRef s c).1 := by
  unfold applyRef
  try dsimp only
  with_reducible repeat' first
    | assumption
    | rfl
    | apply KeepsO.some
    | exact KeepsO.none
    | apply KeepsO1.some
    | apply KeepsO1.some'
    | exact KeepsO1.none
    | apply KeepsE.ok
    | exact KeepsE.error
    | apply KeepsE1.ok
    | exact KeepsE1.error
    | apply loadHdr_keeps
    | apply writeRefWord_keeps
    | apply freePage_keeps
    | refine Keeps.fst (by assumption) ?_
    | refine Keeps.snd (by assumption) ?_
    | refine Keeps.get (by assumption) ?_
    | refine Keeps.get1 (by assumption) ?_
    | refine Keeps.get1' (by assumption) ?_
    | refine Keeps.ok (by assumption) ?_
    | refine Keeps.ok1 (by assumption) ?_
    | split

theorem drainRefs_keeps {a0 : State} (s : State) (k : Nat) (h0 : Keeps a0 s) : Keeps a0 (drainRefs s k) := by
  unfold drainRefs
  try dsimp only
  with_reducible repeat' first
    | assumption
    | rfl
    | apply modSeqs_keeps
    | apply applyRef_keeps
    | refine Keeps.foldl (fun _ _ _ => ?_) _ ?_
    | refine Keeps.foldl1 (fun _ _ _ => ?_) _ ?_
    | split

theorem takeRef_keeps {a0 : State} (s : State) (r : PageRef) (h0 : Keeps a0 s) : Keeps a0 (takeRef s r).1 := by
  unfold takeRef
  try dsimp only
  with_reducible repeat' first
    | assumption
    | rfl
    | apply applyRef_keeps
    | apply drainRefs_keeps
    | split

theorem giveRef_keeps {a0 : State} (s : State) (r : PageRef) (h0 : Keeps a0 s) : Keeps a0 (giveRef s r) := by
  unfold giveRef
  try dsimp only
  with_reducible repeat' first
    | assumption
    | rfl
    | apply modSeqs_keeps
    | split

theorem refCount_keeps {a0 : State} (s : State) (r : PageRef) (h0 : Keeps a0 s) : Keeps a0 (refCount s r).1 := by
  unfold refCount
  try dsimp only
  with_reducible repeat' first
    | assumption
    | rfl
    | apply loadHdr_keeps
    | apply drainRefs_keeps
    | split

theorem settleHome_keeps {a0 : State} (s : State) (lpn : Nat) (p : Promo) (page : List Byte) (h0 : Keeps a0 s) : Keeps a0 (settleHome s lpn p page) := by
  unfold settleHome
  try dsimp only
  with_reducible repeat' first
    | assumption
    | rfl
    | apply putWords_keeps
    | apply freeSram_keeps
    | apply modMem_keeps
    | refine KeepsO.getD ?_ ?_
    | refine KeepsO1.getD ?_ ?_
    | split

theorem demote_keeps {a0 : State} (s : State) (lpn : Nat) (h0 : Keeps a0 s) : Keeps a0 (demote s lpn) := by
  unfold demote
  try dsimp only
  with_reducible repeat' first
    | assumption
    | rfl
    | apply KeepsO.some
    | exact KeepsO.none
    | apply KeepsO1.some
    | apply KeepsO1.some'
    | exact KeepsO1.none
    | apply load_keeps
    | apply settleHome_keeps
    | apply markDamaged_keeps
    | refine Keeps.fst (by assumption) ?_
    | refine Keeps.snd (by assumption) ?_
    | refine Keeps.get (by assumption) ?_
    | refine Keeps.get1 (by assumption) ?_
    | refine Keeps.get1' (by assumption) ?_
    | refine Keeps.ok (by assumption) ?_
    | refine Keeps.ok1 (by assumption) ?_
    | split

theorem modTdir_keeps {a0 : State} (s : State) (i : Nat) (pair : Nat) (f : TailDir → TailDir) (h0 : Keeps a0 s) : Keeps a0 (modTdir s i pair f) := by
  unfold modTdir
  try dsimp only
  with_reducible repeat' first
    | assumption
    | rfl
    | apply modSeqs_keeps
    | split

theorem loadTail_keeps {a0 : State} (s : State) (d : Desc) (key : TailKey) (reader : Nat) (h0 : Keeps a0 s) : Keeps a0 (loadTail s d key reader).1 := by
  unfold loadTail
  try dsimp only
  with_reducible repeat' first
    | assumption
    | rfl
    | apply KeepsO.some
    | exact KeepsO.none
    | apply KeepsO1.some
    | apply KeepsO1.some'
    | exact KeepsO1.none
    | apply KeepsE.ok
    | exact KeepsE.error
    | apply KeepsE1.ok
    | exact KeepsE1.error
    | apply load_keeps
    | refine Keeps.fst (by assumption) ?_
    | refine Keeps.snd (by assumption) ?_
    | refine Keeps.get (by assumption) ?_
    | refine Keeps.get1 (by assumption) ?_
    | refine Keeps.get1' (by assumption) ?_
    | refine Keeps.ok (by assumption) ?_
    | refine Keeps.ok1 (by assumption) ?_
    | split

theorem lookTails_keeps {a0 : State} :
    ∀ (x0 : List TailKey) (x1 : State), Keeps a0 x1 → Keeps a0 (lookTails x0 x1).1
  | [], _, h0 => by
    unfold lookTails
    try dsimp only
    with_reducible repeat' first
      | assumption
      | rfl
      | apply KeepsO.some
      | exact KeepsO.none
      | apply KeepsO1.some
      | apply KeepsO1.some'
      | exact KeepsO1.none
      | apply KeepsE.ok
      | exact KeepsE.error
      | apply KeepsE1.ok
      | exact KeepsE1.error
      | apply load_keeps
      | refine KeepsO.map ?_ (fun _ _ => ?_)
      | refine KeepsO.map1 ?_ (fun _ _ => ?_)
      | refine KeepsO.map0 (fun _ => ?_)
      | refine KeepsO1.map ?_ (fun _ _ => ?_)
      | refine KeepsO1.map1 ?_ (fun _ _ => ?_)
      | refine KeepsO1.map0 (fun _ => ?_)
      | refine KeepsE.map ?_ (fun _ _ => ?_)
      | refine KeepsE.map1 ?_ (fun _ _ => ?_)
      | refine KeepsE.map0 (fun _ => ?_)
      | refine KeepsE1.map ?_ (fun _ _ => ?_)
      | refine KeepsE1.map1 ?_ (fun _ _ => ?_)
      | refine KeepsE1.map0 (fun _ => ?_)
      | refine Keeps.fst (by assumption) ?_
      | refine Keeps.snd (by assumption) ?_
      | refine Keeps.get (by assumption) ?_
      | refine Keeps.get1 (by assumption) ?_
      | refine Keeps.get1' (by assumption) ?_
      | refine Keeps.ok (by assumption) ?_
      | refine Keeps.ok1 (by assumption) ?_
      | split
  | p :: ps, _, h0 => by
    unfold lookTails
    try dsimp only
    with_reducible repeat' first
      | assumption
      | rfl
      | apply KeepsO.some
      | exact KeepsO.none
      | apply KeepsO1.some
      | apply KeepsO1.some'
      | exact KeepsO1.none
      | apply KeepsE.ok
      | exact KeepsE.error
      | apply KeepsE1.ok
      | exact KeepsE1.error
      | apply load_keeps
      | refine KeepsO.map ?_ (fun _ _ => ?_)
      | refine KeepsO.map1 ?_ (fun _ _ => ?_)
      | refine KeepsO.map0 (fun _ => ?_)
      | refine KeepsO1.map ?_ (fun _ _ => ?_)
      | refine KeepsO1.map1 ?_ (fun _ _ => ?_)
      | refine KeepsO1.map0 (fun _ => ?_)
      | refine KeepsE.map ?_ (fun _ _ => ?_)
      | refine KeepsE.map1 ?_ (fun _ _ => ?_)
      | refine KeepsE.map0 (fun _ => ?_)
      | refine KeepsE1.map ?_ (fun _ _ => ?_)
      | refine KeepsE1.map1 ?_ (fun _ _ => ?_)
      | refine KeepsE1.map0 (fun _ => ?_)
      | refine Keeps.fst (by assumption) ?_
      | refine Keeps.snd (by assumption) ?_
      | refine Keeps.get (by assumption) ?_
      | refine Keeps.get1 (by assumption) ?_
      | refine Keeps.get1' (by assumption) ?_
      | refine Keeps.ok (by assumption) ?_
      | refine Keeps.ok1 (by assumption) ?_
      | split
      | apply lookTails_keeps

theorem tailImages_keeps {a0 : State} (s : State) (d : Desc) (key : TailKey) (k : Nat) (h0 : Keeps a0 s) : KeepsO1 a0 (tailImages s d key k) := by
  unfold tailImages
  try dsimp only
  with_reducible repeat' first
    | assumption
    | rfl
    | apply KeepsO.some
    | exact KeepsO.none
    | apply KeepsO1.some
    | apply KeepsO1.some'
    | exact KeepsO1.none
    | apply allocSlot_keeps
    | refine KeepsO.bind ?_ (fun _ _ => ?_)
    | refine KeepsO.bind1 ?_ (fun _ _ => ?_)
    | refine KeepsO.bind0 (fun _ => ?_)
    | refine KeepsO1.bind ?_ (fun _ _ => ?_)
    | refine KeepsO1.bind1 ?_ (fun _ _ => ?_)
    | refine KeepsO1.bind0 (fun _ => ?_)
    | refine KeepsO.map ?_ (fun _ _ => ?_)
    | refine KeepsO.map1 ?_ (fun _ _ => ?_)
    | refine KeepsO.map0 (fun _ => ?_)
    | refine KeepsO1.map ?_ (fun _ _ => ?_)
    | refine KeepsO1.map1 ?_ (fun _ _ => ?_)
    | refine KeepsO1.map0 (fun _ => ?_)
    | refine Keeps.fst (by assumption) ?_
    | refine Keeps.snd (by assumption) ?_
    | refine Keeps.get (by assumption) ?_
    | refine Keeps.get1 (by assumption) ?_
    | refine Keeps.get1' (by assumption) ?_
    | refine Keeps.ok (by assumption) ?_
    | refine Keeps.ok1 (by assumption) ?_
    | split

theorem writeBack_keeps {a0 : State} (s : State) (d : Desc) (key : TailKey) (h0 : Keeps a0 s) : Keeps a0 (writeBack s d key).1 := by
  unfold writeBack
  try dsimp only
  with_reducible repeat' first
    | assumption
    | rfl
    | apply KeepsO.some
    | exact KeepsO.none
    | apply KeepsO1.some
    | apply KeepsO1.some'
    | exact KeepsO1.none
    | refine KeepsO.foldl (fun _ _ _ => ?_) _ ?_
    | refine KeepsO1.foldl (fun _ _ _ => ?_) _ ?_
    | apply load_keeps
    | apply tailImages_keeps
    | apply putWords_keeps
    | apply modSeqs_keeps
    | refine KeepsO.map ?_ (fun _ _ => ?_)
    | refine KeepsO.map1 ?_ (fun _ _ => ?_)
    | refine KeepsO.map0 (fun _ => ?_)
    | refine KeepsO1.map ?_ (fun _ _ => ?_)
    | refine KeepsO1.map1 ?_ (fun _ _ => ?_)
    | refine KeepsO1.map0 (fun _ => ?_)
    | refine Keeps.foldl (fun _ _ _ => ?_) _ ?_
    | refine Keeps.foldl1 (fun _ _ _ => ?_) _ ?_
    | refine Keeps.fst (by assumption) ?_
    | refine Keeps.snd (by assumption) ?_
    | refine Keeps.get (by assumption) ?_
    | refine Keeps.get1 (by assumption) ?_
    | refine Keeps.get1' (by assumption) ?_
    | refine Keeps.ok (by assumption) ?_
    | refine Keeps.ok1 (by assumption) ?_
    | split

theorem evictTail_keeps {a0 : State} (s : State) (d : Desc) (key : TailKey) (h0 : Keeps a0 s) : Keeps a0 (evictTail s d key).1 := by
  unfold evictTail
  try dsimp only
  with_reducible repeat' first
    | assumption
    | rfl
    | apply KeepsO.some
    | exact KeepsO.none
    | apply KeepsO1.some
    | apply KeepsO1.some'
    | exact KeepsO1.none
    | apply writeBack_keeps
    | apply modSeqs_keeps
    | apply bump_keeps
    | apply freeSram_keeps
    | refine KeepsO.getD ?_ ?_
    | refine KeepsO1.getD ?_ ?_
    | refine Keeps.fst (by assumption) ?_
    | refine Keeps.snd (by assumption) ?_
    | refine Keeps.get (by assumption) ?_
    | refine Keeps.get1 (by assumption) ?_
    | refine Keeps.get1' (by assumption) ?_
    | refine Keeps.ok (by assumption) ?_
    | refine Keeps.ok1 (by assumption) ?_
    | split

theorem evictUntil_keeps {a0 : State} :
    ∀ (ok : State → Bool) (x0 : List (TailKey × Desc)) (x1 : State), Keeps a0 x1 → Keeps a0 (evictUntil ok x0 x1)
  | _, [], _, h0 => by
    unfold evictUntil
    try dsimp only
    with_reducible repeat' first
      | assumption
      | rfl
      | apply evictTail_keeps
      | split
  | _, p :: ps, _, h0 => by
    unfold evictUntil
    try dsimp only
    with_reducible repeat' first
      | assumption
      | rfl
      | apply evictTail_keeps
      | split
      | apply evictUntil_keeps

theorem demoteUntil_keeps {a0 : State} :
    ∀ (ok : State → Bool) (x0 : List Nat) (x1 : State), Keeps a0 x1 → Keeps a0 (demoteUntil ok x0 x1)
  | _, [], _, h0 => by
    unfold demoteUntil
    try dsimp only
    with_reducible repeat' first
      | assumption
      | rfl
      | apply demote_keeps
      | split
  | _, p :: ps, _, h0 => by
    unfold demoteUntil
    try dsimp only
    with_reducible repeat' first
      | assumption
      | rfl
      | apply demote_keeps
      | split
      | apply demoteUntil_keeps

theorem uncacheUntil_keeps {a0 : State} :
    ∀ (ok : State → Bool) (x0 : List ((Nat × Nat × Nat × Nat × Nat) × Nat)) (x1 : State), Keeps a0 x1 → Keeps a0 (uncacheUntil ok x0 x1)
  | _, [], _, h0 => by
    unfold uncacheUntil
    try dsimp only
    with_reducible repeat' first
      | assumption
      | rfl
      | apply freeSram_keeps
      | apply modSeqs_keeps
      | split
  | _, p :: ps, _, h0 => by
    unfold uncacheUntil
    try dsimp only
    with_reducible repeat' first
      | assumption
      | rfl
      | apply freeSram_keeps
      | apply modSeqs_keeps
      | split
      | apply uncacheUntil_keeps

theorem sramGet_keeps {a0 : State} (s : State) (k : Nat) (tenant : Nat) (n : Nat) (kind : SramKind) (h0 : Keeps a0 s) : KeepsO1 a0 (sramGet s k tenant n kind) := by
  unfold sramGet
  try dsimp only
  with_reducible repeat' first
    | assumption
    | rfl
    | apply KeepsO.some
    | exact KeepsO.none
    | apply KeepsO1.some
    | apply KeepsO1.some'
    | exact KeepsO1.none
    | apply allocSram_keeps
    | apply evictUntil_keeps
    | apply uncacheUntil_keeps
    | apply demoteUntil_keeps
    | split

theorem placeTail_keeps {a0 : State} (s : State) (d : Desc) (key : TailKey) (b : List Byte) (h0 : Keeps a0 s) : KeepsE a0 (placeTail s d key b) := by
  unfold placeTail
  try dsimp only
  with_reducible repeat' first
    | assumption
    | rfl
    | apply KeepsO.some
    | exact KeepsO.none
    | apply KeepsO1.some
    | apply KeepsO1.some'
    | exact KeepsO1.none
    | apply KeepsE.ok
    | exact KeepsE.error
    | apply KeepsE1.ok
    | exact KeepsE1.error
    | apply sramGet_keeps
    | apply poke_keeps
    | apply modSeqs_keeps
    | refine Keeps.fst (by assumption) ?_
    | refine Keeps.snd (by assumption) ?_
    | refine Keeps.get (by assumption) ?_
    | refine Keeps.get1 (by assumption) ?_
    | refine Keeps.get1' (by assumption) ?_
    | refine Keeps.ok (by assumption) ?_
    | refine Keeps.ok1 (by assumption) ?_
    | split

theorem openTail_keeps {a0 : State} (s : State) (d : Desc) (key : TailKey) (firstPos : Nat) (h0 : Keeps a0 s) : KeepsE a0 (openTail s d key firstPos) := by
  unfold openTail
  try dsimp only
  with_reducible repeat' first
    | assumption
    | rfl
    | apply KeepsE.ok
    | exact KeepsE.error
    | apply KeepsE1.ok
    | exact KeepsE1.error
    | apply placeTail_keeps
    | split

theorem reloadTail_keeps {a0 : State} (s : State) (d : Desc) (key : TailKey) (h0 : Keeps a0 s) : KeepsE a0 (reloadTail s d key) := by
  unfold reloadTail
  try dsimp only
  with_reducible repeat' first
    | assumption
    | rfl
    | apply KeepsO.some
    | exact KeepsO.none
    | apply KeepsO1.some
    | apply KeepsO1.some'
    | exact KeepsO1.none
    | apply KeepsE.ok
    | exact KeepsE.error
    | apply KeepsE1.ok
    | exact KeepsE1.error
    | apply loadTail_keeps
    | apply placeTail_keeps
    | refine Keeps.fst (by assumption) ?_
    | refine Keeps.snd (by assumption) ?_
    | refine Keeps.get (by assumption) ?_
    | refine Keeps.get1 (by assumption) ?_
    | refine Keeps.get1' (by assumption) ?_
    | refine Keeps.ok (by assumption) ?_
    | refine Keeps.ok1 (by assumption) ?_
    | split

theorem residentTail_keeps {a0 : State} (s : State) (d : Desc) (key : TailKey) (pos : Nat) (h0 : Keeps a0 s) : KeepsE a0 (residentTail s d key pos) := by
  unfold residentTail
  try dsimp only
  with_reducible repeat' first
    | assumption
    | rfl
    | apply KeepsE.ok
    | exact KeepsE.error
    | apply KeepsE1.ok
    | exact KeepsE1.error
    | apply reloadTail_keeps
    | apply openTail_keeps
    | split

theorem storeRows_keeps {a0 : State} (s : State) (d : Desc) (key : TailKey) (rows : List (List Byte × List Byte)) (h0 : Keeps a0 s) : KeepsE a0 (storeRows s d key rows) := by
  unfold storeRows
  try dsimp only
  with_reducible repeat' first
    | assumption
    | rfl
    | apply KeepsO.some
    | exact KeepsO.none
    | apply KeepsO1.some
    | apply KeepsO1.some'
    | exact KeepsO1.none
    | apply KeepsE.ok
    | exact KeepsE.error
    | apply KeepsE1.ok
    | exact KeepsE1.error
    | apply load_keeps
    | apply putWords_keeps
    | apply modSeqs_keeps
    | refine KeepsO.getD ?_ ?_
    | refine KeepsO1.getD ?_ ?_
    | refine KeepsO.map ?_ (fun _ _ => ?_)
    | refine KeepsO.map1 ?_ (fun _ _ => ?_)
    | refine KeepsO.map0 (fun _ => ?_)
    | refine KeepsO1.map ?_ (fun _ _ => ?_)
    | refine KeepsO1.map1 ?_ (fun _ _ => ?_)
    | refine KeepsO1.map0 (fun _ => ?_)
    | refine KeepsE.map ?_ (fun _ _ => ?_)
    | refine KeepsE.map1 ?_ (fun _ _ => ?_)
    | refine KeepsE.map0 (fun _ => ?_)
    | refine KeepsE1.map ?_ (fun _ _ => ?_)
    | refine KeepsE1.map1 ?_ (fun _ _ => ?_)
    | refine KeepsE1.map0 (fun _ => ?_)
    | refine Keeps.fst (by assumption) ?_
    | refine Keeps.snd (by assumption) ?_
    | refine Keeps.get (by assumption) ?_
    | refine Keeps.get1 (by assumption) ?_
    | refine Keeps.get1' (by assumption) ?_
    | refine Keeps.ok (by assumption) ?_
    | refine Keeps.ok1 (by assumption) ?_
    | split

theorem freezeTail_keeps {a0 : State} (s : State) (d : Desc) (key : TailKey) (content : Option Nat) (waiter : Nat) (h0 : Keeps a0 s) : Keeps a0 (freezeTail s d key content waiter) := by
  unfold freezeTail
  try dsimp only
  with_reducible repeat' first
    | assumption
    | rfl
    | apply KeepsO.some
    | exact KeepsO.none
    | apply KeepsO1.some
    | apply KeepsO1.some'
    | exact KeepsO1.none
    | apply modTdir_keeps
    | apply modSeqs_keeps
    | refine Keeps.fst (by assumption) ?_
    | refine Keeps.snd (by assumption) ?_
    | refine Keeps.get (by assumption) ?_
    | refine Keeps.get1 (by assumption) ?_
    | refine Keeps.get1' (by assumption) ?_
    | refine Keeps.ok (by assumption) ?_
    | refine Keeps.ok1 (by assumption) ?_
    | split

theorem queuePage_keeps {a0 : State} (s : State) (d : Desc) (key : TailKey) (firstPos : Nat) (rows : List (List Byte × List Byte)) (content : Option Nat) (waiter : Nat) (h0 : Keeps a0 s) : Keeps a0 (queuePage s d key firstPos rows content waiter) := by
  unfold queuePage
  try dsimp only
  with_reducible repeat' first
    | assumption
    | rfl
    | apply modTdir_keeps
    | apply modSeqs_keeps
    | split

theorem sealRows_keeps {a0 : State} (s : State) (d : Desc) (it : SealItem) (h0 : Keeps a0 s) : Keeps a0 (sealRows s d it).1 := by
  unfold sealRows
  try dsimp only
  with_reducible repeat' first
    | assumption
    | rfl
    | apply KeepsO.some
    | exact KeepsO.none
    | apply KeepsO1.some
    | apply KeepsO1.some'
    | exact KeepsO1.none
    | apply KeepsE.ok
    | exact KeepsE.error
    | apply KeepsE1.ok
    | exact KeepsE1.error
    | apply loadTail_keeps
    | refine Keeps.fst (by assumption) ?_
    | refine Keeps.snd (by assumption) ?_
    | refine Keeps.get (by assumption) ?_
    | refine Keeps.get1 (by assumption) ?_
    | refine Keeps.get1' (by assumption) ?_
    | refine Keeps.ok (by assumption) ?_
    | refine Keeps.ok1 (by assumption) ?_
    | split

theorem dropTail_keeps {a0 : State} (s : State) (key : TailKey) (h0 : Keeps a0 s) : Keeps a0 (dropTail s key) := by
  unfold dropTail
  try dsimp only
  with_reducible repeat' first
    | assumption
    | rfl
    | apply KeepsO.some
    | exact KeepsO.none
    | apply KeepsO1.some
    | apply KeepsO1.some'
    | exact KeepsO1.none
    | apply freeSram_keeps
    | apply freeSlot_keeps
    | apply modSeqs_keeps
    | refine Keeps.fst (by assumption) ?_
    | refine Keeps.snd (by assumption) ?_
    | refine Keeps.get (by assumption) ?_
    | refine Keeps.get1 (by assumption) ?_
    | refine Keeps.get1' (by assumption) ?_
    | refine Keeps.ok (by assumption) ?_
    | refine Keeps.ok1 (by assumption) ?_
    | split

theorem keyMismatch_keeps {a0 : State} (s : State) (d : Desc) (h0 : Keeps a0 s) : Keeps a0 (keyMismatch s d) := by
  unfold keyMismatch
  try dsimp only
  with_reducible repeat' first
    | assumption
    | rfl
    | apply modMeter_keeps
    | split

theorem meetHeld_keeps {a0 : State} (s : State) (d : Desc) (cand : Hdr) (cbody : List Byte) (v : Nat) (h0 : Keeps a0 s) : Keeps a0 (meetHeld s d cand cbody v).1 := by
  unfold meetHeld
  try dsimp only
  with_reducible repeat' first
    | assumption
    | rfl
    | apply KeepsO.some
    | exact KeepsO.none
    | apply KeepsO1.some
    | apply KeepsO1.some'
    | exact KeepsO1.none
    | apply KeepsE.ok
    | exact KeepsE.error
    | apply KeepsE1.ok
    | exact KeepsE1.error
    | apply load_keeps
    | apply keyMismatch_keeps
    | apply markDamaged_keeps
    | apply takeRef_keeps
    | refine Keeps.fst (by assumption) ?_
    | refine Keeps.snd (by assumption) ?_
    | refine Keeps.get (by assumption) ?_
    | refine Keeps.get1 (by assumption) ?_
    | refine Keeps.get1' (by assumption) ?_
    | refine Keeps.ok (by assumption) ?_
    | refine Keeps.ok1 (by assumption) ?_
    | split

theorem shareStep_keeps {a0 : State} (s : State) (d : Desc) (k : Nat) (cand : Hdr) (cbody : List Byte) (h0 : Keeps a0 s) : Keeps a0 (shareStep s d k cand cbody).1 := by
  unfold shareStep
  try dsimp only
  with_reducible repeat' first
    | assumption
    | rfl
    | apply KeepsO.some
    | exact KeepsO.none
    | apply KeepsO1.some
    | apply KeepsO1.some'
    | exact KeepsO1.none
    | apply search_keeps
    | apply meetHeld_keeps
    | refine Keeps.fst (by assumption) ?_
    | refine Keeps.snd (by assumption) ?_
    | refine Keeps.get (by assumption) ?_
    | refine Keeps.get1 (by assumption) ?_
    | refine Keeps.get1' (by assumption) ?_
    | refine Keeps.ok (by assumption) ?_
    | refine Keeps.ok1 (by assumption) ?_
    | split

theorem indexPage_keeps {a0 : State} (s : State) (k : Nat) (lpn : Nat) (h : Hdr) (h0 : Keeps a0 s) : Keeps a0 (indexPage s k lpn h) := by
  unfold indexPage
  try dsimp only
  with_reducible repeat' first
    | assumption
    | rfl
    | apply insert_keeps
    | apply replace_keeps
    | refine Keeps.fst (by assumption) ?_
    | refine Keeps.snd (by assumption) ?_
    | refine Keeps.get (by assumption) ?_
    | refine Keeps.get1 (by assumption) ?_
    | refine Keeps.get1' (by assumption) ?_
    | refine Keeps.ok (by assumption) ?_
    | refine Keeps.ok1 (by assumption) ?_
    | split

theorem writeSealed_keeps {a0 : State} (s : State) (d : Desc) (it : SealItem) (cbody : List Byte) (way : ShareWay) (h0 : Keeps a0 s) : KeepsO1 a0 (writeSealed s d it cbody way) := by
  unfold writeSealed
  try dsimp only
  with_reducible repeat' first
    | assumption
    | rfl
    | apply KeepsO.some
    | exact KeepsO.none
    | apply KeepsO1.some
    | apply KeepsO1.some'
    | exact KeepsO1.none
    | apply placeSlot_keeps
    | apply putWords_keeps
    | apply indexPage_keeps
    | refine KeepsO.map ?_ (fun _ _ => ?_)
    | refine KeepsO.map1 ?_ (fun _ _ => ?_)
    | refine KeepsO.map0 (fun _ => ?_)
    | refine KeepsO1.map ?_ (fun _ _ => ?_)
    | refine KeepsO1.map1 ?_ (fun _ _ => ?_)
    | refine KeepsO1.map0 (fun _ => ?_)
    | refine Keeps.fst (by assumption) ?_
    | refine Keeps.snd (by assumption) ?_
    | refine Keeps.get (by assumption) ?_
    | refine Keeps.get1 (by assumption) ?_
    | refine Keeps.get1' (by assumption) ?_
    | refine Keeps.ok (by assumption) ?_
    | refine Keeps.ok1 (by assumption) ?_
    | split

theorem commitSeal_keeps {a0 : State} (s : State) (d : Desc) (it : SealItem) (r : PageRef) (h0 : Keeps a0 s) : KeepsO a0 (commitSeal s d it r) := by
  unfold commitSeal
  try dsimp only
  with_reducible repeat' first
    | assumption
    | rfl
    | apply KeepsO.some
    | exact KeepsO.none
    | apply KeepsO1.some
    | apply KeepsO1.some'
    | exact KeepsO1.none
    | apply addRef_keeps
    | apply modTdir_keeps
    | apply dropTail_keeps
    | refine KeepsO.map ?_ (fun _ _ => ?_)
    | refine KeepsO.map1 ?_ (fun _ _ => ?_)
    | refine KeepsO.map0 (fun _ => ?_)
    | refine KeepsO1.map ?_ (fun _ _ => ?_)
    | refine KeepsO1.map1 ?_ (fun _ _ => ?_)
    | refine KeepsO1.map0 (fun _ => ?_)
    | split

theorem sealItem_keeps {a0 : State} (s : State) (it : SealItem) (h0 : Keeps a0 s) : Keeps a0 (sealItem s it).1 := by
  unfold sealItem
  try dsimp only
  with_reducible repeat' first
    | assumption
    | rfl
    | apply KeepsO.some
    | exact KeepsO.none
    | apply KeepsO1.some
    | apply KeepsO1.some'
    | exact KeepsO1.none
    | apply KeepsE.ok
    | exact KeepsE.error
    | apply KeepsE1.ok
    | exact KeepsE1.error
    | apply sealRows_keeps
    | apply modSeqs_keeps
    | apply shareStep_keeps
    | apply writeSealed_keeps
    | apply commitSeal_keeps
    | refine KeepsO.bind ?_ (fun _ _ => ?_)
    | refine KeepsO.bind1 ?_ (fun _ _ => ?_)
    | refine KeepsO.bind0 (fun _ => ?_)
    | refine KeepsO1.bind ?_ (fun _ _ => ?_)
    | refine KeepsO1.bind1 ?_ (fun _ _ => ?_)
    | refine KeepsO1.bind0 (fun _ => ?_)
    | refine KeepsE.bind ?_ (fun _ _ => ?_)
    | refine KeepsE.bind1 ?_ (fun _ _ => ?_)
    | refine KeepsE.bind0 (fun _ => ?_)
    | refine KeepsE1.bind ?_ (fun _ _ => ?_)
    | refine KeepsE1.bind1 ?_ (fun _ _ => ?_)
    | refine KeepsE1.bind0 (fun _ => ?_)
    | refine Keeps.fst (by assumption) ?_
    | refine Keeps.snd (by assumption) ?_
    | refine Keeps.get (by assumption) ?_
    | refine Keeps.get1 (by assumption) ?_
    | refine Keeps.get1' (by assumption) ?_
    | refine Keeps.ok (by assumption) ?_
    | refine Keeps.ok1 (by assumption) ?_
    | split

theorem putPage_keeps {a0 : State} (s : State) (a : Nat) (h : Hdr) (page : List Byte) (gen : Nat) (refs : Nat) (count : Nat) (h0 : Keeps a0 s) : Keeps a0 (putPage s a h page gen refs count) := by
  unfold putPage
  try dsimp only
  with_reducible repeat' first
    | assumption
    | rfl
    | apply putWords_keeps
    | split

theorem rewritePage_keeps {a0 : State} (s : State) (i : Nat) (d : Desc) (pair : Nat) (r : PageRef) (page : List Byte) (count : Nat) (h0 : Keeps a0 s) : Keeps a0 (rewritePage s i d pair r page count).1 := by
  unfold rewritePage
  try dsimp only
  with_reducible repeat' first
    | assumption
    | rfl
    | apply KeepsO.some
    | exact KeepsO.none
    | apply KeepsO1.some
    | apply KeepsO1.some'
    | exact KeepsO1.none
    | apply KeepsE.ok
    | exact KeepsE.error
    | apply KeepsE1.ok
    | exact KeepsE1.error
    | apply refCount_keeps
    | apply putPage_keeps
    | apply unindexPage_keeps
    | apply swapRef_keeps
    | apply setSlotGen_keeps
    | apply noteChange_keeps
    | apply allocSlot_keeps
    | apply giveRef_keeps
    | refine Keeps.fst (by assumption) ?_
    | refine Keeps.snd (by assumption) ?_
    | refine Keeps.get (by assumption) ?_
    | refine Keeps.get1 (by assumption) ?_
    | refine Keeps.get1' (by assumption) ?_
    | refine Keeps.ok (by assumption) ?_
    | refine Keeps.ok1 (by assumption) ?_
    | split

theorem truncPage_keeps {a0 : State} (s : State) (i : Nat) (d : Desc) (pair : Nat) (r : PageRef) (p : Nat) (h0 : Keeps a0 s) : Keeps a0 (truncPage s i d pair r p).1 := by
  unfold truncPage
  try dsimp only
  with_reducible repeat' first
    | assumption
    | rfl
    | apply KeepsE.ok
    | exact KeepsE.error
    | apply KeepsE1.ok
    | exact KeepsE1.error
    | apply readPage_keeps
    | apply rewritePage_keeps
    | refine Keeps.fst (by assumption) ?_
    | refine Keeps.snd (by assumption) ?_
    | refine Keeps.get (by assumption) ?_
    | refine Keeps.get1 (by assumption) ?_
    | refine Keeps.get1' (by assumption) ?_
    | refine Keeps.ok (by assumption) ?_
    | refine Keeps.ok1 (by assumption) ?_
    | split

theorem copyPage_keeps {a0 : State} (s : State) (d : Desc) (r : PageRef) (n : Nat) (h0 : Keeps a0 s) : Keeps a0 (copyPage s d r n).1 := by
  unfold copyPage
  try dsimp only
  with_reducible repeat' first
    | assumption
    | rfl
    | apply KeepsO.some
    | exact KeepsO.none
    | apply KeepsO1.some
    | apply KeepsO1.some'
    | exact KeepsO1.none
    | apply KeepsE.ok
    | exact KeepsE.error
    | apply KeepsE1.ok
    | exact KeepsE1.error
    | apply readPage_keeps
    | apply allocSlot_keeps
    | apply putPage_keeps
    | refine Keeps.fst (by assumption) ?_
    | refine Keeps.snd (by assumption) ?_
    | refine Keeps.get (by assumption) ?_
    | refine Keeps.get1 (by assumption) ?_
    | refine Keeps.get1' (by assumption) ?_
    | refine Keeps.ok (by assumption) ?_
    | refine Keeps.ok1 (by assumption) ?_
    | split

theorem checkPages_keeps {a0 : State} :
    ∀ (d : Desc) (x0 : List PageRef) (x1 : State), Keeps a0 x1 → Keeps a0 (checkPages d x0 x1).1
  | _, [], _, h0 => by
    unfold checkPages
    try dsimp only
    with_reducible repeat' first
      | assumption
      | rfl
      | apply KeepsO.some
      | exact KeepsO.none
      | apply KeepsO1.some
      | apply KeepsO1.some'
      | exact KeepsO1.none
      | apply KeepsE.ok
      | exact KeepsE.error
      | apply KeepsE1.ok
      | exact KeepsE1.error
      | apply readPage_keeps
      | refine Keeps.fst (by assumption) ?_
      | refine Keeps.snd (by assumption) ?_
      | refine Keeps.get (by assumption) ?_
      | refine Keeps.get1 (by assumption) ?_
      | refine Keeps.get1' (by assumption) ?_
      | refine Keeps.ok (by assumption) ?_
      | refine Keeps.ok1 (by assumption) ?_
      | split
  | _, p :: ps, _, h0 => by
    unfold checkPages
    try dsimp only
    with_reducible repeat' first
      | assumption
      | rfl
      | apply KeepsO.some
      | exact KeepsO.none
      | apply KeepsO1.some
      | apply KeepsO1.some'
      | exact KeepsO1.none
      | apply KeepsE.ok
      | exact KeepsE.error
      | apply KeepsE1.ok
      | exact KeepsE1.error
      | apply readPage_keeps
      | refine Keeps.fst (by assumption) ?_
      | refine Keeps.snd (by assumption) ?_
      | refine Keeps.get (by assumption) ?_
      | refine Keeps.get1 (by assumption) ?_
      | refine Keeps.get1' (by assumption) ?_
      | refine Keeps.ok (by assumption) ?_
      | refine Keeps.ok1 (by assumption) ?_
      | split
      | apply checkPages_keeps

theorem checkShares_keeps {a0 : State} :
    ∀ (d : Desc) (x0 : List PageRef) (x1 : State), Keeps a0 x1 → Keeps a0 (checkShares d x0 x1).1
  | _, [], _, h0 => by
    unfold checkShares
    try dsimp only
    with_reducible repeat' first
      | assumption
      | rfl
      | apply KeepsO.some
      | exact KeepsO.none
      | apply KeepsO1.some
      | apply KeepsO1.some'
      | exact KeepsO1.none
      | apply KeepsE.ok
      | exact KeepsE.error
      | apply KeepsE1.ok
      | exact KeepsE1.error
      | apply refCount_keeps
      | apply checkPages_keeps
      | refine Keeps.fst (by assumption) ?_
      | refine Keeps.snd (by assumption) ?_
      | refine Keeps.get (by assumption) ?_
      | refine Keeps.get1 (by assumption) ?_
      | refine Keeps.get1' (by assumption) ?_
      | refine Keeps.ok (by assumption) ?_
      | refine Keeps.ok1 (by assumption) ?_
      | split
  | _, p :: ps, _, h0 => by
    unfold checkShares
    try dsimp only
    with_reducible repeat' first
      | assumption
      | rfl
      | apply KeepsO.some
      | exact KeepsO.none
      | apply KeepsO1.some
      | apply KeepsO1.some'
      | exact KeepsO1.none
      | apply KeepsE.ok
      | exact KeepsE.error
      | apply KeepsE1.ok
      | exact KeepsE1.error
      | apply refCount_keeps
      | apply checkPages_keeps
      | refine Keeps.fst (by assumption) ?_
      | refine Keeps.snd (by assumption) ?_
      | refine Keeps.get (by assumption) ?_
      | refine Keeps.get1 (by assumption) ?_
      | refine Keeps.get1' (by assumption) ?_
      | refine Keeps.ok (by assumption) ?_
      | refine Keeps.ok1 (by assumption) ?_
      | split
      | apply checkShares_keeps

theorem checkTails_keeps {a0 : State} :
    ∀ (d : Desc) (x0 : List TailKey) (x1 : State), Keeps a0 x1 → Keeps a0 (checkTails d x0 x1).1
  | _, [], _, h0 => by
    unfold checkTails
    try dsimp only
    with_reducible repeat' first
      | assumption
      | rfl
      | apply KeepsE.ok
      | exact KeepsE.error
      | apply KeepsE1.ok
      | exact KeepsE1.error
      | apply loadTail_keeps
      | refine Keeps.fst (by assumption) ?_
      | refine Keeps.snd (by assumption) ?_
      | refine Keeps.get (by assumption) ?_
      | refine Keeps.get1 (by assumption) ?_
      | refine Keeps.get1' (by assumption) ?_
      | refine Keeps.ok (by assumption) ?_
      | refine Keeps.ok1 (by assumption) ?_
      | split
  | _, p :: ps, _, h0 => by
    unfold checkTails
    try dsimp only
    with_reducible repeat' first
      | assumption
      | rfl
      | apply KeepsE.ok
      | exact KeepsE.error
      | apply KeepsE1.ok
      | exact KeepsE1.error
      | apply loadTail_keeps
      | refine Keeps.fst (by assumption) ?_
      | refine Keeps.snd (by assumption) ?_
      | refine Keeps.get (by assumption) ?_
      | refine Keeps.get1 (by assumption) ?_
      | refine Keeps.get1' (by assumption) ?_
      | refine Keeps.ok (by assumption) ?_
      | refine Keeps.ok1 (by assumption) ?_
      | split
      | apply checkTails_keeps

theorem checkOpen_keeps {a0 : State} :
    ∀ (d : Desc) (x0 : List TailKey) (x1 : State), Keeps a0 x1 → Keeps a0 (checkOpen d x0 x1).1
  | _, [], _, h0 => by
    unfold checkOpen
    try dsimp only
    with_reducible repeat' first
      | assumption
      | rfl
      | apply KeepsE.ok
      | exact KeepsE.error
      | apply KeepsE1.ok
      | exact KeepsE1.error
      | apply lookTails_keeps
      | apply checkTails_keeps
      | refine Keeps.fst (by assumption) ?_
      | refine Keeps.snd (by assumption) ?_
      | refine Keeps.get (by assumption) ?_
      | refine Keeps.get1 (by assumption) ?_
      | refine Keeps.get1' (by assumption) ?_
      | refine Keeps.ok (by assumption) ?_
      | refine Keeps.ok1 (by assumption) ?_
      | split
  | _, p :: ps, _, h0 => by
    unfold checkOpen
    try dsimp only
    with_reducible repeat' first
      | assumption
      | rfl
      | apply KeepsE.ok
      | exact KeepsE.error
      | apply KeepsE1.ok
      | exact KeepsE1.error
      | apply lookTails_keeps
      | apply checkTails_keeps
      | refine Keeps.fst (by assumption) ?_
      | refine Keeps.snd (by assumption) ?_
      | refine Keeps.get (by assumption) ?_
      | refine Keeps.get1 (by assumption) ?_
      | refine Keeps.get1' (by assumption) ?_
      | refine Keeps.ok (by assumption) ?_
      | refine Keeps.ok1 (by assumption) ?_
      | split
      | apply checkOpen_keeps

theorem releaseFrom_keeps {a0 : State} (s : State) (i : Nat) (d : Desc) (pair : Nat) (p : Nat) (h0 : Keeps a0 s) : Keeps a0 (releaseFrom s i d pair p) := by
  unfold releaseFrom
  try dsimp only
  with_reducible repeat' first
    | assumption
    | rfl
    | apply giveRef_keeps
    | apply keepRefs_keeps
    | refine Keeps.foldl (fun _ _ _ => ?_) _ ?_
    | refine Keeps.foldl1 (fun _ _ _ => ?_) _ ?_
    | split

theorem cutTails_keeps {a0 : State} (s : State) (i : Nat) (d : Desc) (layer : Nat) (kv : Nat) (p : Nat) (h0 : Keeps a0 s) : Keeps a0 (cutTails s i d layer kv p) := by
  unfold cutTails
  try dsimp only
  with_reducible repeat' first
    | assumption
    | rfl
    | apply KeepsO.some
    | exact KeepsO.none
    | apply KeepsO1.some
    | apply KeepsO1.some'
    | exact KeepsO1.none
    | refine KeepsO.foldl (fun _ _ _ => ?_) _ ?_
    | refine KeepsO1.foldl (fun _ _ _ => ?_) _ ?_
    | apply dropTail_keeps
    | apply putWords_keeps
    | apply modSeqs_keeps
    | refine KeepsO.map ?_ (fun _ _ => ?_)
    | refine KeepsO.map1 ?_ (fun _ _ => ?_)
    | refine KeepsO.map0 (fun _ => ?_)
    | refine KeepsO1.map ?_ (fun _ _ => ?_)
    | refine KeepsO1.map1 ?_ (fun _ _ => ?_)
    | refine KeepsO1.map0 (fun _ => ?_)
    | refine Keeps.foldl (fun _ _ _ => ?_) _ ?_
    | refine Keeps.foldl1 (fun _ _ _ => ?_) _ ?_
    | refine Keeps.fst (by assumption) ?_
    | refine Keeps.snd (by assumption) ?_
    | refine Keeps.get (by assumption) ?_
    | refine Keeps.get1 (by assumption) ?_
    | refine Keeps.get1' (by assumption) ?_
    | refine Keeps.ok (by assumption) ?_
    | refine Keeps.ok1 (by assumption) ?_
    | split

theorem dropSeals_keeps {a0 : State} (s : State) (i : Nat) (p : Nat) (h0 : Keeps a0 s) : Keeps a0 (dropSeals s i p) := by
  unfold dropSeals
  try dsimp only
  with_reducible repeat' first
    | assumption
    | rfl
    | apply modSeqs_keeps
    | split

theorem releaseSeq_keeps {a0 : State} (s : State) (i : Nat) (d : Desc) (h0 : Keeps a0 s) : Keeps a0 (releaseSeq s i d) := by
  unfold releaseSeq
  try dsimp only
  with_reducible repeat' first
    | assumption
    | rfl
    | apply KeepsO.some
    | exact KeepsO.none
    | apply KeepsO1.some
    | apply KeepsO1.some'
    | exact KeepsO1.none
    | refine KeepsO.foldl (fun _ _ _ => ?_) _ ?_
    | refine KeepsO1.foldl (fun _ _ _ => ?_) _ ?_
    | apply dropSeals_keeps
    | apply releaseFrom_keeps
    | apply dropTail_keeps
    | apply freeSlot_keeps
    | apply giveRef_keeps
    | apply freeSram_keeps
    | apply modSeqs_keeps
    | refine KeepsO.getD ?_ ?_
    | refine KeepsO1.getD ?_ ?_
    | refine KeepsO.map ?_ (fun _ _ => ?_)
    | refine KeepsO.map1 ?_ (fun _ _ => ?_)
    | refine KeepsO.map0 (fun _ => ?_)
    | refine KeepsO1.map ?_ (fun _ _ => ?_)
    | refine KeepsO1.map1 ?_ (fun _ _ => ?_)
    | refine KeepsO1.map0 (fun _ => ?_)
    | refine Keeps.foldl (fun _ _ _ => ?_) _ ?_
    | refine Keeps.foldl1 (fun _ _ _ => ?_) _ ?_
    | refine Keeps.fst (by assumption) ?_
    | refine Keeps.snd (by assumption) ?_
    | refine Keeps.get (by assumption) ?_
    | refine Keeps.get1 (by assumption) ?_
    | refine Keeps.get1' (by assumption) ?_
    | refine Keeps.ok (by assumption) ?_
    | refine Keeps.ok1 (by assumption) ?_
    | split

theorem freeDesc_keeps {a0 : State} (s : State) (i : Nat) (d : Desc) (h0 : Keeps a0 s) : Keeps a0 (freeDesc s i d) := by
  unfold freeDesc
  try dsimp only
  with_reducible repeat' first
    | assumption
    | rfl
    | apply deleteAll_keeps
    | apply modSeqs_keeps
    | split

theorem raiseLength_keeps {a0 : State} (s : State) (i : Nat) (n : Nat) (h0 : Keeps a0 s) : Keeps a0 (raiseLength s i n) := by
  unfold raiseLength
  try dsimp only
  with_reducible repeat' first
    | assumption
    | rfl
    | apply modDesc_keeps
    | split

theorem deltaDamaged_keeps {a0 : State} (s : State) (d : Desc) (b : DeltaBlock) (cause : Nat) (h0 : Keeps a0 s) : Keeps a0 (deltaDamaged s d b cause) := by
  unfold deltaDamaged
  try dsimp only
  with_reducible repeat' first
    | assumption
    | rfl
    | apply journal_keeps
    | apply modSeqs_keeps
    | split

theorem expandDelta_keeps {a0 : State} (s : State) (d : Desc) (b : DeltaBlock) (h0 : Keeps a0 s) : Keeps a0 (expandDelta s d b).1 := by
  unfold expandDelta
  try dsimp only
  with_reducible repeat' first
    | assumption
    | rfl
    | apply KeepsO.some
    | exact KeepsO.none
    | apply KeepsO1.some
    | apply KeepsO1.some'
    | exact KeepsO1.none
    | apply KeepsE.ok
    | exact KeepsE.error
    | apply KeepsE1.ok
    | exact KeepsE1.error
    | apply readPage_keeps
    | apply deltaDamaged_keeps
    | refine Keeps.fst (by assumption) ?_
    | refine Keeps.snd (by assumption) ?_
    | refine Keeps.get (by assumption) ?_
    | refine Keeps.get1 (by assumption) ?_
    | refine Keeps.get1' (by assumption) ?_
    | refine Keeps.ok (by assumption) ?_
    | refine Keeps.ok1 (by assumption) ?_
    | split

end Sys2Proof.Laws
end

