-- ==== Sys2Proof/Laws/KeepsRegions.lean ====
section
/-!
SUPPORT. The operations of Machine/Regions.lean keep what Laws/Keeps.lean says.
-/
namespace Sys2Proof.Laws
open Sys2Proof.Machine

theorem accessKey_keeps {a0 : State} (s : State) (hub : Nat) (tenant : Nat) (a : AccHdr) (h0 : Keeps a0 s) : Keeps a0 (accessKey s hub tenant a).1 := by
  unfold accessKey
  try dsimp only
  with_reducible repeat' first
    | assumption
    | rfl
    | apply KeepsE.ok
    | exact KeepsE.error
    | apply KeepsE1.ok
    | exact KeepsE1.error
    | apply search_keeps
    | refine Keeps.fst (by assumption) ?_
    | refine Keeps.snd (by assumption) ?_
    | refine Keeps.get (by assumption) ?_
    | refine Keeps.get1 (by assumption) ?_
    | refine Keeps.get1' (by assumption) ?_
    | refine Keeps.ok (by assumption) ?_
    | refine Keeps.ok1 (by assumption) ?_
    | split

theorem pairImages_keeps {a0 : State} (s : State) (i : Nat) (d : Desc) (pair : Nat) (h0 : Keeps a0 s) : Keeps a0 (pairImages s i d pair).1 := by
  unfold pairImages
  try dsimp only
  with_reducible repeat' first
    | assumption
    | rfl
    | apply KeepsO.some
    | exact KeepsO.none
    | apply KeepsO1.some
    | apply KeepsO1.some'
    | exact KeepsO1.none
    | apply KeepsE.ok
    | exact KeepsE.error
    | apply KeepsE1.ok
    | exact KeepsE1.error
    | refine KeepsO.foldl (fun _ _ _ => ?_) _ ?_
    | refine KeepsO1.foldl (fun _ _ _ => ?_) _ ?_
    | refine KeepsE.foldl (fun _ _ _ => ?_) _ ?_
    | refine KeepsE1.foldl (fun _ _ _ => ?_) _ ?_
    | apply expandDelta_keeps
    | apply readPage_keeps
    | refine Keeps.foldl (fun _ _ _ => ?_) _ ?_
    | refine Keeps.foldl1 (fun _ _ _ => ?_) _ ?_
    | refine Keeps.fst (by assumption) ?_
    | refine Keeps.snd (by assumption) ?_
    | refine Keeps.get (by assumption) ?_
    | refine Keeps.get1 (by assumption) ?_
    | refine Keeps.get1' (by assumption) ?_
    | refine Keeps.ok (by assumption) ?_
    | refine Keeps.ok1 (by assumption) ?_
    | split

theorem xferBytes_keeps {a0 : State} (s : State) (r : Region) (h0 : Keeps a0 s) : Keeps a0 (xferBytes s r).1 := by
  unfold xferBytes
  try dsimp only
  with_reducible repeat' first
    | assumption
    | rfl
    | apply KeepsO.some
    | exact KeepsO.none
    | apply KeepsO1.some
    | apply KeepsO1.some'
    | exact KeepsO1.none
    | apply KeepsE.ok
    | exact KeepsE.error
    | apply KeepsE1.ok
    | exact KeepsE1.error
    | refine KeepsO.foldl (fun _ _ _ => ?_) _ ?_
    | refine KeepsO1.foldl (fun _ _ _ => ?_) _ ?_
    | refine KeepsE.foldl (fun _ _ _ => ?_) _ ?_
    | refine KeepsE1.foldl (fun _ _ _ => ?_) _ ?_
    | apply pairImages_keeps
    | refine Keeps.foldl (fun _ _ _ => ?_) _ ?_
    | refine Keeps.foldl1 (fun _ _ _ => ?_) _ ?_
    | refine Keeps.fst (by assumption) ?_
    | refine Keeps.snd (by assumption) ?_
    | refine Keeps.get (by assumption) ?_
    | refine Keeps.get1 (by assumption) ?_
    | refine Keeps.get1' (by assumption) ?_
    | refine Keeps.ok (by assumption) ?_
    | refine Keeps.ok1 (by assumption) ?_
    | split

theorem refStatus_keeps {a0 : State} (s : State) (g : PGeom) (tenant : Nat) (ref : PageRef) (h0 : Keeps a0 s) : Keeps a0 (refStatus s g tenant ref).1 := by
  unfold refStatus
  try dsimp only
  with_reducible repeat' first
    | assumption
    | rfl
    | apply KeepsO.some
    | exact KeepsO.none
    | apply KeepsO1.some
    | apply KeepsO1.some'
    | exact KeepsO1.none
    | apply loadHdr_keeps
    | refine Keeps.fst (by assumption) ?_
    | refine Keeps.snd (by assumption) ?_
    | refine Keeps.get (by assumption) ?_
    | refine Keeps.get1 (by assumption) ?_
    | refine Keeps.get1' (by assumption) ?_
    | refine Keeps.ok (by assumption) ?_
    | refine Keeps.ok1 (by assumption) ?_
    | split

theorem partsStatus_keeps {a0 : State} :
    ∀ (g : PGeom) (tenant : Nat) (x0 : List (Nat × PageRef × Nat × Nat)) (x1 : State), Keeps a0 x1 → Keeps a0 (partsStatus g tenant x0 x1).1
  | _, _, [], _, h0 => by
    unfold partsStatus
    try dsimp only
    with_reducible repeat' first
      | assumption
      | rfl
      | apply KeepsO.some
      | exact KeepsO.none
      | apply KeepsO1.some
      | apply KeepsO1.some'
      | exact KeepsO1.none
      | apply refStatus_keeps
      | refine Keeps.fst (by assumption) ?_
      | refine Keeps.snd (by assumption) ?_
      | refine Keeps.get (by assumption) ?_
      | refine Keeps.get1 (by assumption) ?_
      | refine Keeps.get1' (by assumption) ?_
      | refine Keeps.ok (by assumption) ?_
      | refine Keeps.ok1 (by assumption) ?_
      | split
  | _, _, p :: ps, _, h0 => by
    unfold partsStatus
    try dsimp only
    with_reducible repeat' first
      | assumption
      | rfl
      | apply KeepsO.some
      | exact KeepsO.none
      | apply KeepsO1.some
      | apply KeepsO1.some'
      | exact KeepsO1.none
      | apply refStatus_keeps
      | refine Keeps.fst (by assumption) ?_
      | refine Keeps.snd (by assumption) ?_
      | refine Keeps.get (by assumption) ?_
      | refine Keeps.get1 (by assumption) ?_
      | refine Keeps.get1' (by assumption) ?_
      | refine Keeps.ok (by assumption) ?_
      | refine Keeps.ok1 (by assumption) ?_
      | split
      | apply partsStatus_keeps

theorem rangeCheck_keeps {a0 : State} (s : State) (r : Region) (write : Bool) (a : AccHdr) (h0 : Keeps a0 s) : Keeps a0 (rangeCheck s r write a).1 := by
  unfold rangeCheck
  try dsimp only
  with_reducible repeat' first
    | assumption
    | rfl
    | apply KeepsO.some
    | exact KeepsO.none
    | apply KeepsO1.some
    | apply KeepsO1.some'
    | exact KeepsO1.none
    | apply partsStatus_keeps
    | refine Keeps.fst (by assumption) ?_
    | refine Keeps.snd (by assumption) ?_
    | refine Keeps.get (by assumption) ?_
    | refine Keeps.get1 (by assumption) ?_
    | refine Keeps.get1' (by assumption) ?_
    | refine Keeps.ok (by assumption) ?_
    | refine Keeps.ok1 (by assumption) ?_
    | split

theorem readRange_keeps {a0 : State} (s : State) (r : Region) (off : Nat) (len : Nat) (h0 : Keeps a0 s) : Keeps a0 (readRange s r off len).1 := by
  unfold readRange
  try dsimp only
  with_reducible repeat' first
    | assumption
    | rfl
    | apply KeepsO.some
    | exact KeepsO.none
    | apply KeepsO1.some
    | apply KeepsO1.some'
    | exact KeepsO1.none
    | apply KeepsE.ok
    | exact KeepsE.error
    | apply KeepsE1.ok
    | exact KeepsE1.error
    | refine KeepsO.foldl (fun _ _ _ => ?_) _ ?_
    | refine KeepsO1.foldl (fun _ _ _ => ?_) _ ?_
    | refine KeepsE.foldl (fun _ _ _ => ?_) _ ?_
    | refine KeepsE1.foldl (fun _ _ _ => ?_) _ ?_
    | apply xferBytes_keeps
    | apply load_keeps
    | apply view_keeps
    | refine Keeps.foldl (fun _ _ _ => ?_) _ ?_
    | refine Keeps.foldl1 (fun _ _ _ => ?_) _ ?_
    | refine Keeps.fst (by assumption) ?_
    | refine Keeps.snd (by assumption) ?_
    | refine Keeps.get (by assumption) ?_
    | refine Keeps.get1 (by assumption) ?_
    | refine Keeps.get1' (by assumption) ?_
    | refine Keeps.ok (by assumption) ?_
    | refine Keeps.ok1 (by assumption) ?_
    | split

theorem writePage_keeps {a0 : State} (s : State) (i : Nat) (d : Desc) (pair : Nat) (ref : PageRef) (o : Nat) (data : List Byte) (h0 : Keeps a0 s) : Keeps a0 (writePage s i d pair ref o data).1 := by
  unfold writePage
  try dsimp only
  with_reducible repeat' first
    | assumption
    | rfl
    | apply KeepsE.ok
    | exact KeepsE.error
    | apply KeepsE1.ok
    | exact KeepsE1.error
    | refine KeepsE.foldl (fun _ _ _ => ?_) _ ?_
    | refine KeepsE1.foldl (fun _ _ _ => ?_) _ ?_
    | apply load_keeps
    | apply lowerFences_keeps
    | apply rewritePage_keeps
    | refine Keeps.foldl (fun _ _ _ => ?_) _ ?_
    | refine Keeps.foldl1 (fun _ _ _ => ?_) _ ?_
    | refine Keeps.fst (by assumption) ?_
    | refine Keeps.snd (by assumption) ?_
    | refine Keeps.get (by assumption) ?_
    | refine Keeps.get1 (by assumption) ?_
    | refine Keeps.get1' (by assumption) ?_
    | refine Keeps.ok (by assumption) ?_
    | refine Keeps.ok1 (by assumption) ?_
    | split

theorem writeParts_keeps {a0 : State} :
    ∀ (i : Nat) (d : Desc) (x0 : List (Nat × PageRef × Nat × Nat)) (x1 : State) (x2 : List Byte), Keeps a0 x1 → Keeps a0 (writeParts i d x0 x1 x2).1
  | _, _, [], _, _, h0 => by
    unfold writeParts
    try dsimp only
    with_reducible repeat' first
      | assumption
      | rfl
      | apply KeepsE.ok
      | exact KeepsE.error
      | apply KeepsE1.ok
      | exact KeepsE1.error
      | apply writePage_keeps
      | refine Keeps.fst (by assumption) ?_
      | refine Keeps.snd (by assumption) ?_
      | refine Keeps.get (by assumption) ?_
      | refine Keeps.get1 (by assumption) ?_
      | refine Keeps.get1' (by assumption) ?_
      | refine Keeps.ok (by assumption) ?_
      | refine Keeps.ok1 (by assumption) ?_
      | split
  | _, _, p :: ps, _, _, h0 => by
    unfold writeParts
    try dsimp only
    with_reducible repeat' first
      | assumption
      | rfl
      | apply KeepsE.ok
      | exact KeepsE.error
      | apply KeepsE1.ok
      | exact KeepsE1.error
      | apply writePage_keeps
      | refine Keeps.fst (by assumption) ?_
      | refine Keeps.snd (by assumption) ?_
      | refine Keeps.get (by assumption) ?_
      | refine Keeps.get1 (by assumption) ?_
      | refine Keeps.get1' (by assumption) ?_
      | refine Keeps.ok (by assumption) ?_
      | refine Keeps.ok1 (by assumption) ?_
      | split
      | apply writeParts_keeps

theorem writeRange_keeps {a0 : State} (s : State) (hub : Nat) (r : Region) (off : Nat) (data : List Byte) (h0 : Keeps a0 s) : Keeps a0 (writeRange s hub r off data).1 := by
  unfold writeRange
  try dsimp only
  with_reducible repeat' first
    | assumption
    | rfl
    | apply KeepsO.some
    | exact KeepsO.none
    | apply KeepsO1.some
    | apply KeepsO1.some'
    | exact KeepsO1.none
    | apply KeepsE.ok
    | exact KeepsE.error
    | apply KeepsE1.ok
    | exact KeepsE1.error
    | apply writeParts_keeps
    | apply bumpBy_keeps
    | apply lowerFences_keeps
    | apply putView_keeps
    | apply store_keeps
    | refine Keeps.fst (by assumption) ?_
    | refine Keeps.snd (by assumption) ?_
    | refine Keeps.get (by assumption) ?_
    | refine Keeps.get1 (by assumption) ?_
    | refine Keeps.get1' (by assumption) ?_
    | refine Keeps.ok (by assumption) ?_
    | refine Keeps.ok1 (by assumption) ?_
    | split

theorem enterRegion_keeps {a0 : State} (s : State) (i : Nat) (r : Region) (h0 : Keeps a0 s) : Keeps a0 (enterRegion s i r) := by
  unfold enterRegion
  try dsimp only
  with_reducible repeat' first
    | assumption
    | rfl
    | apply modRegn_keeps
    | apply fresh_keeps
    | split

theorem insertName_keeps {a0 : State} (s : State) (tenant : Nat) (name : Nat) (prio : Nat) (i : Nat) (gen : Nat) (h0 : Keeps a0 s) : Keeps a0 (insertName s tenant name prio i gen).1 := by
  unfold insertName
  try dsimp only
  with_reducible repeat' first
    | assumption
    | rfl
    | apply insertAll_keeps
    | apply modRegn_keeps
    | refine KeepsO.map ?_ (fun _ _ => ?_)
    | refine KeepsO.map1 ?_ (fun _ _ => ?_)
    | refine KeepsO.map0 (fun _ => ?_)
    | refine KeepsO1.map ?_ (fun _ _ => ?_)
    | refine KeepsO1.map1 ?_ (fun _ _ => ?_)
    | refine KeepsO1.map0 (fun _ => ?_)
    | refine Keeps.fst (by assumption) ?_
    | refine Keeps.snd (by assumption) ?_
    | refine Keeps.get (by assumption) ?_
    | refine Keeps.get1 (by assumption) ?_
    | refine Keeps.get1' (by assumption) ?_
    | refine Keeps.ok (by assumption) ?_
    | refine Keeps.ok1 (by assumption) ?_
    | split

theorem dropName_keeps {a0 : State} (s : State) (i : Nat) (h0 : Keeps a0 s) : Keeps a0 (dropName s i) := by
  unfold dropName
  try dsimp only
  with_reducible repeat' first
    | assumption
    | rfl
    | apply KeepsO.some
    | exact KeepsO.none
    | apply KeepsO1.some
    | apply KeepsO1.some'
    | exact KeepsO1.none
    | refine KeepsO.foldl (fun _ _ _ => ?_) _ ?_
    | refine KeepsO1.foldl (fun _ _ _ => ?_) _ ?_
    | apply delete_keeps
    | refine KeepsO.map ?_ (fun _ _ => ?_)
    | refine KeepsO.map1 ?_ (fun _ _ => ?_)
    | refine KeepsO.map0 (fun _ => ?_)
    | refine KeepsO1.map ?_ (fun _ _ => ?_)
    | refine KeepsO1.map1 ?_ (fun _ _ => ?_)
    | refine KeepsO1.map0 (fun _ => ?_)
    | refine Keeps.foldl (fun _ _ _ => ?_) _ ?_
    | refine Keeps.foldl1 (fun _ _ _ => ?_) _ ?_
    | refine Keeps.fst (by assumption) ?_
    | refine Keeps.snd (by assumption) ?_
    | refine Keeps.get (by assumption) ?_
    | refine Keeps.get1 (by assumption) ?_
    | refine Keeps.get1' (by assumption) ?_
    | refine Keeps.ok (by assumption) ?_
    | refine Keeps.ok1 (by assumption) ?_
    | split

theorem releaseRegion_keeps {a0 : State} (s : State) (r : Region) (h0 : Keeps a0 s) : Keeps a0 (releaseRegion s r) := by
  unfold releaseRegion
  try dsimp only
  with_reducible repeat' first
    | assumption
    | rfl
    | apply freeSlot_keeps
    | apply scrub_keeps
    | apply freeSram_keeps
    | split

theorem answerControl_keeps {a0 : State} (s : State) (id : Nat) (st : Status) (key : Nat) (count : Nat) (h0 : Keeps a0 s) : Keeps a0 (answerControl s id st key count) := by
  unfold answerControl
  try dsimp only
  with_reducible repeat' first
    | assumption
    | rfl
    | apply KeepsO.some
    | exact KeepsO.none
    | apply KeepsO1.some
    | apply KeepsO1.some'
    | exact KeepsO1.none
    | apply countRefusal_keeps
    | apply answer_keeps
    | refine Keeps.fst (by assumption) ?_
    | refine Keeps.snd (by assumption) ?_
    | refine Keeps.get (by assumption) ?_
    | refine Keeps.get1 (by assumption) ?_
    | refine Keeps.get1' (by assumption) ?_
    | refine Keeps.ok (by assumption) ?_
    | refine Keeps.ok1 (by assumption) ?_
    | split

theorem measureRevoke_keeps {a0 : State} (s : State) (r : Region) (h0 : Keeps a0 s) : Keeps a0 (measureRevoke s r) := by
  unfold measureRevoke
  try dsimp only
  with_reducible repeat' first
    | assumption
    | rfl
    | apply rmax_keeps
    | split

theorem endRevoke_keeps {a0 : State} (s : State) (i : Nat) (r : Region) (h0 : Keeps a0 s) : Keeps a0 (endRevoke s i r) := by
  unfold endRevoke
  try dsimp only
  with_reducible repeat' first
    | assumption
    | rfl
    | apply KeepsE.ok
    | exact KeepsE.error
    | apply KeepsE1.ok
    | exact KeepsE1.error
    | refine KeepsE.foldl (fun _ _ _ => ?_) _ ?_
    | refine KeepsE1.foldl (fun _ _ _ => ?_) _ ?_
    | apply releaseRegion_keeps
    | apply bump_keeps
    | apply modRegn_keeps
    | apply modRegion_keeps
    | apply answerControl_keeps
    | refine Keeps.foldl (fun _ _ _ => ?_) _ ?_
    | refine Keeps.foldl1 (fun _ _ _ => ?_) _ ?_
    | split

theorem endReregister_keeps {a0 : State} (s : State) (i : Nat) (r : Region) (x : RegRec) (m : Nat) (h0 : Keeps a0 s) : Keeps a0 (endReregister s i r x m) := by
  unfold endReregister
  try dsimp only
  with_reducible repeat' first
    | assumption
    | rfl
    | apply KeepsO.some
    | exact KeepsO.none
    | apply KeepsO1.some
    | apply KeepsO1.some'
    | exact KeepsO1.none
    | apply KeepsE.ok
    | exact KeepsE.error
    | apply KeepsE1.ok
    | exact KeepsE1.error
    | refine KeepsO.foldl (fun _ _ _ => ?_) _ ?_
    | refine KeepsO1.foldl (fun _ _ _ => ?_) _ ?_
    | refine KeepsE.foldl (fun _ _ _ => ?_) _ ?_
    | refine KeepsE1.foldl (fun _ _ _ => ?_) _ ?_
    | apply insertName_keeps
    | apply modRegion_keeps
    | apply answerControl_keeps
    | apply bump_keeps
    | refine Keeps.foldl (fun _ _ _ => ?_) _ ?_
    | refine Keeps.foldl1 (fun _ _ _ => ?_) _ ?_
    | refine Keeps.fst (by assumption) ?_
    | refine Keeps.snd (by assumption) ?_
    | refine Keeps.get (by assumption) ?_
    | refine Keeps.get1 (by assumption) ?_
    | refine Keeps.get1' (by assumption) ?_
    | refine Keeps.ok (by assumption) ?_
    | refine Keeps.ok1 (by assumption) ?_
    | split

theorem finishRevoke_keeps {a0 : State} (s : State) (i : Nat) (h0 : Keeps a0 s) : Keeps a0 (finishRevoke s i) := by
  unfold finishRevoke
  try dsimp only
  with_reducible repeat' first
    | assumption
    | rfl
    | apply KeepsO.some
    | exact KeepsO.none
    | apply KeepsO1.some
    | apply KeepsO1.some'
    | exact KeepsO1.none
    | apply measureRevoke_keeps
    | apply endRevoke_keeps
    | apply endReregister_keeps
    | refine Keeps.fst (by assumption) ?_
    | refine Keeps.snd (by assumption) ?_
    | refine Keeps.get (by assumption) ?_
    | refine Keeps.get1 (by assumption) ?_
    | refine Keeps.get1' (by assumption) ?_
    | refine Keeps.ok (by assumption) ?_
    | refine Keeps.ok1 (by assumption) ?_
    | split

theorem startRevoke_keeps {a0 : State} (s : State) (i : Nat) (waiter : Option Nat) (reReg : Option (List Byte × Nat × Bool)) (h0 : Keeps a0 s) : Keeps a0 (startRevoke s i waiter reReg) := by
  unfold startRevoke
  try dsimp only
  with_reducible repeat' first
    | assumption
    | rfl
    | apply KeepsO.some
    | exact KeepsO.none
    | apply KeepsO1.some
    | apply KeepsO1.some'
    | exact KeepsO1.none
    | apply dropName_keeps
    | apply modRegion_keeps
    | apply setPhase_keeps
    | apply finishRevoke_keeps
    | apply answerControl_keeps
    | refine Keeps.fst (by assumption) ?_
    | refine Keeps.snd (by assumption) ?_
    | refine Keeps.get (by assumption) ?_
    | refine Keeps.get1 (by assumption) ?_
    | refine Keeps.get1' (by assumption) ?_
    | refine Keeps.ok (by assumption) ?_
    | refine Keeps.ok1 (by assumption) ?_
    | split

end Sys2Proof.Laws
end

