-- ==== Sys2Proof/Laws/KeepsLines.lean ====
section
/-!
SUPPORT. The operations of Machine/Lines.lean keep what Laws/Keeps.lean says.
-/
namespace Sys2Proof.Laws
open Sys2Proof.Machine

theorem modDir_keeps {a0 : State} (s : State) (h : Nat) (l : Nat) (f : DirEntry → DirEntry) (h0 : Keeps a0 s) : Keeps a0 (modDir s h l f) := by
  unfold modDir
  try dsimp only
  with_reducible repeat' first
    | assumption
    | rfl
    | apply modLedg_keeps
    | split

theorem findLine_keeps {a0 : State} (s : State) (h : Nat) (l : Nat) (h0 : Keeps a0 s) : Keeps a0 (findLine s h l).1 := by
  unfold findLine
  try dsimp only
  with_reducible repeat' first
    | assumption
    | rfl
    | apply KeepsO.some
    | exact KeepsO.none
    | apply KeepsO1.some
    | apply KeepsO1.some'
    | exact KeepsO1.none
    | apply KeepsE.ok
    | exact KeepsE.error
    | apply KeepsE1.ok
    | exact KeepsE1.error
    | apply search_keeps
    | refine KeepsO.getD ?_ ?_
    | refine KeepsO1.getD ?_ ?_
    | refine Keeps.fst (by assumption) ?_
    | refine Keeps.snd (by assumption) ?_
    | refine Keeps.get (by assumption) ?_
    | refine Keeps.get1 (by assumption) ?_
    | refine Keeps.get1' (by assumption) ?_
    | refine Keeps.ok (by assumption) ?_
    | refine Keeps.ok1 (by assumption) ?_
    | split

theorem newEntry_keeps {a0 : State} (s : State) (h : Nat) (l : Nat) (st : DirState) (epoch : Nat) (version : Nat) (content : List Byte) (h0 : Keeps a0 s) : Keeps a0 (newEntry s h l st epoch version content).1 := by
  unfold newEntry
  try dsimp only
  with_reducible repeat' first
    | assumption
    | rfl
    | apply KeepsO.some
    | exact KeepsO.none
    | apply KeepsO1.some
    | apply KeepsO1.some'
    | exact KeepsO1.none
    | refine KeepsO.foldl (fun _ _ _ => ?_) _ ?_
    | refine KeepsO1.foldl (fun _ _ _ => ?_) _ ?_
    | apply insert_keeps
    | apply modLedg_keeps
    | refine KeepsO.getD ?_ ?_
    | refine KeepsO1.getD ?_ ?_
    | refine KeepsO.map ?_ (fun _ _ => ?_)
    | refine KeepsO.map1 ?_ (fun _ _ => ?_)
    | refine KeepsO.map0 (fun _ => ?_)
    | refine KeepsO1.map ?_ (fun _ _ => ?_)
    | refine KeepsO1.map1 ?_ (fun _ _ => ?_)
    | refine KeepsO1.map0 (fun _ => ?_)
    | refine Keeps.foldl (fun _ _ _ => ?_) _ ?_
    | refine Keeps.foldl1 (fun _ _ _ => ?_) _ ?_
    | refine Keeps.fst (by assumption) ?_
    | refine Keeps.snd (by assumption) ?_
    | refine Keeps.get (by assumption) ?_
    | refine Keeps.get1 (by assumption) ?_
    | refine Keeps.get1' (by assumption) ?_
    | refine Keeps.ok (by assumption) ?_
    | refine Keeps.ok1 (by assumption) ?_
    | split

theorem dropEntry_keeps {a0 : State} (s : State) (h : Nat) (l : Nat) (h0 : Keeps a0 s) : Keeps a0 (dropEntry s h l) := by
  unfold dropEntry
  try dsimp only
  with_reducible repeat' first
    | assumption
    | rfl
    | apply delete_keeps
    | apply modLedg_keeps
    | refine KeepsO.getD ?_ ?_
    | refine KeepsO1.getD ?_ ?_
    | split

theorem sendRead_keeps {a0 : State} (s : State) (ep : Nat) (l : Nat) (why : ReadWhy) (pull : Bool) (h0 : Keeps a0 s) : Keeps a0 (sendRead s ep l why pull).1 := by
  unfold sendRead
  try dsimp only
  with_reducible repeat' first
    | assumption
    | rfl
    | apply modLedg_keeps
    | apply ask_keeps
    | refine Keeps.fst (by assumption) ?_
    | refine Keeps.snd (by assumption) ?_
    | refine Keeps.get (by assumption) ?_
    | refine Keeps.get1 (by assumption) ?_
    | refine Keeps.get1' (by assumption) ?_
    | refine Keeps.ok (by assumption) ?_
    | refine Keeps.ok1 (by assumption) ?_
    | split

theorem startPull_keeps {a0 : State} (s : State) (h : Nat) (l : Nat) (h0 : Keeps a0 s) : Keeps a0 (startPull s h l).1 := by
  unfold startPull
  try dsimp only
  with_reducible repeat' first
    | assumption
    | rfl
    | apply KeepsO.some
    | exact KeepsO.none
    | apply KeepsO1.some
    | apply KeepsO1.some'
    | exact KeepsO1.none
    | apply newEntry_keeps
    | apply sendRead_keeps
    | refine Keeps.fst (by assumption) ?_
    | refine Keeps.snd (by assumption) ?_
    | refine Keeps.get (by assumption) ?_
    | refine Keeps.get1 (by assumption) ?_
    | refine Keeps.get1' (by assumption) ?_
    | refine Keeps.ok (by assumption) ?_
    | refine Keeps.ok1 (by assumption) ?_
    | split

theorem seekLine_keeps {a0 : State} (s : State) (l : Nat) (why : ReadWhy) (h0 : Keeps a0 s) : Keeps a0 (seekLine s l why).1 := by
  unfold seekLine
  try dsimp only
  with_reducible repeat' first
    | assumption
    | rfl
    | apply KeepsO.some
    | exact KeepsO.none
    | apply KeepsO1.some
    | apply KeepsO1.some'
    | exact KeepsO1.none
    | apply KeepsE.ok
    | exact KeepsE.error
    | apply KeepsE1.ok
    | exact KeepsE1.error
    | apply findLine_keeps
    | apply startPull_keeps
    | apply sendRead_keeps
    | refine Keeps.fst (by assumption) ?_
    | refine Keeps.snd (by assumption) ?_
    | refine Keeps.get (by assumption) ?_
    | refine Keeps.get1 (by assumption) ?_
    | refine Keeps.get1' (by assumption) ?_
    | refine Keeps.ok (by assumption) ?_
    | refine Keeps.ok1 (by assumption) ?_
    | split

theorem readHead_keeps {a0 : State} (s : State) (h0 : Keeps a0 s) : Keeps a0 (readHead s) := by
  unfold readHead
  try dsimp only
  with_reducible repeat' first
    | assumption
    | rfl
    | apply KeepsO.some
    | exact KeepsO.none
    | apply KeepsO1.some
    | apply KeepsO1.some'
    | exact KeepsO1.none
    | apply sendRead_keeps
    | refine KeepsO.map ?_ (fun _ _ => ?_)
    | refine KeepsO.map1 ?_ (fun _ _ => ?_)
    | refine KeepsO.map0 (fun _ => ?_)
    | refine KeepsO1.map ?_ (fun _ _ => ?_)
    | refine KeepsO1.map1 ?_ (fun _ _ => ?_)
    | refine KeepsO1.map0 (fun _ => ?_)
    | refine Keeps.fst (by assumption) ?_
    | refine Keeps.snd (by assumption) ?_
    | refine Keeps.get (by assumption) ?_
    | refine Keeps.get1 (by assumption) ?_
    | refine Keeps.get1' (by assumption) ?_
    | refine Keeps.ok (by assumption) ?_
    | refine Keeps.ok1 (by assumption) ?_
    | split

theorem nineHint_keeps {a0 : State} (s : State) (m : Msg) (st : Status) (kind : Nat) (ep : Nat) (hub : Nat) (gen : Nat) (l : Nat) (h0 : Keeps a0 s) : Keeps a0 (nineHint s m st kind ep hub gen l).1 := by
  unfold nineHint
  try dsimp only
  with_reducible repeat' first
    | assumption
    | rfl
    | apply bump_keeps
    | refine Keeps.fst (by assumption) ?_
    | refine Keeps.snd (by assumption) ?_
    | refine Keeps.get (by assumption) ?_
    | refine Keeps.get1 (by assumption) ?_
    | refine Keeps.get1' (by assumption) ?_
    | refine Keeps.ok (by assumption) ?_
    | refine Keeps.ok1 (by assumption) ?_
    | split

theorem nineEpoch_keeps {a0 : State} (s : State) (m : Msg) (h0 : Keeps a0 s) : Keeps a0 (nineEpoch s m).1 := by
  unfold nineEpoch
  try dsimp only
  with_reducible repeat' first
    | assumption
    | rfl
    | apply readHead_keeps
    | apply nineHint_keeps
    | split

theorem nineStale_keeps {a0 : State} (s : State) (m : Msg) (h0 : Keeps a0 s) : Keeps a0 (nineStale s m).1 := by
  unfold nineStale
  try dsimp only
  with_reducible repeat' first
    | assumption
    | rfl
    | apply KeepsO.some
    | exact KeepsO.none
    | apply KeepsO1.some
    | apply KeepsO1.some'
    | exact KeepsO1.none
    | apply nineHint_keeps
    | refine Keeps.fst (by assumption) ?_
    | refine Keeps.snd (by assumption) ?_
    | refine Keeps.get (by assumption) ?_
    | refine Keeps.get1 (by assumption) ?_
    | refine Keeps.get1' (by assumption) ?_
    | refine Keeps.ok (by assumption) ?_
    | refine Keeps.ok1 (by assumption) ?_
    | split

theorem nineHome_keeps {a0 : State} (s : State) (m : Msg) (h0 : Keeps a0 s) : Keeps a0 (nineHome s m).1 := by
  unfold nineHome
  try dsimp only
  with_reducible repeat' first
    | assumption
    | rfl
    | apply KeepsO.some
    | exact KeepsO.none
    | apply KeepsO1.some
    | apply KeepsO1.some'
    | exact KeepsO1.none
    | apply nineHint_keeps
    | refine Keeps.fst (by assumption) ?_
    | refine Keeps.snd (by assumption) ?_
    | refine Keeps.get (by assumption) ?_
    | refine Keeps.get1 (by assumption) ?_
    | refine Keeps.get1' (by assumption) ?_
    | refine Keeps.ok (by assumption) ?_
    | refine Keeps.ok1 (by assumption) ?_
    | split

theorem nineOwner_keeps {a0 : State} (s : State) (id : Nat) (m : Msg) (h0 : Keeps a0 s) : Keeps a0 (nineOwner s id m).1 := by
  unfold nineOwner
  try dsimp only
  with_reducible repeat' first
    | assumption
    | rfl
    | apply KeepsO.some
    | exact KeepsO.none
    | apply KeepsO1.some
    | apply KeepsO1.some'
    | exact KeepsO1.none
    | apply seekLine_keeps
    | apply nineHint_keeps
    | refine Keeps.fst (by assumption) ?_
    | refine Keeps.snd (by assumption) ?_
    | refine Keeps.get (by assumption) ?_
    | refine Keeps.get1 (by assumption) ?_
    | refine Keeps.get1' (by assumption) ?_
    | refine Keeps.ok (by assumption) ?_
    | refine Keeps.ok1 (by assumption) ?_
    | split

theorem nineExtent_keeps {a0 : State} (s : State) (m : Msg) (h0 : Keeps a0 s) : Keeps a0 (nineExtent s m).1 := by
  unfold nineExtent
  try dsimp only
  with_reducible repeat' first
    | assumption
    | rfl
    | apply KeepsO.some
    | exact KeepsO.none
    | apply KeepsO1.some
    | apply KeepsO1.some'
    | exact KeepsO1.none
    | refine Keeps.fst (by assumption) ?_
    | refine Keeps.snd (by assumption) ?_
    | refine Keeps.get (by assumption) ?_
    | refine Keeps.get1 (by assumption) ?_
    | refine Keeps.get1' (by assumption) ?_
    | refine Keeps.ok (by assumption) ?_
    | refine Keeps.ok1 (by assumption) ?_
    | split

theorem holdExtent_keeps {a0 : State} (s : State) (h0 : Keeps a0 s) : Keeps a0 (holdExtent s) := by
  unfold holdExtent
  try dsimp only
  with_reducible repeat' first
    | assumption
    | rfl
    | apply KeepsO.some
    | exact KeepsO.none
    | apply KeepsO1.some
    | apply KeepsO1.some'
    | exact KeepsO1.none
    | apply setMsgs_keeps
    | refine KeepsO.map ?_ (fun _ _ => ?_)
    | refine KeepsO.map1 ?_ (fun _ _ => ?_)
    | refine KeepsO.map0 (fun _ => ?_)
    | refine KeepsO1.map ?_ (fun _ _ => ?_)
    | refine KeepsO1.map1 ?_ (fun _ _ => ?_)
    | refine KeepsO1.map0 (fun _ => ?_)
    | apply setMsgs_keeps
    | refine Keeps.fst (by assumption) ?_
    | refine Keeps.snd (by assumption) ?_
    | refine Keeps.get (by assumption) ?_
    | refine Keeps.get1 (by assumption) ?_
    | refine Keeps.get1' (by assumption) ?_
    | refine Keeps.ok (by assumption) ?_
    | refine Keeps.ok1 (by assumption) ?_
    | split

theorem nineClosing_keeps {a0 : State} (s : State) (m : Msg) (h0 : Keeps a0 s) : Keeps a0 (nineClosing s m).1 := by
  unfold nineClosing
  try dsimp only
  with_reducible repeat' first
    | assumption
    | rfl
    | apply KeepsO.some
    | exact KeepsO.none
    | apply KeepsO1.some
    | apply KeepsO1.some'
    | exact KeepsO1.none
    | refine KeepsO.map ?_ (fun _ _ => ?_)
    | refine KeepsO.map1 ?_ (fun _ _ => ?_)
    | refine KeepsO.map0 (fun _ => ?_)
    | refine KeepsO1.map ?_ (fun _ _ => ?_)
    | refine KeepsO1.map1 ?_ (fun _ _ => ?_)
    | refine KeepsO1.map0 (fun _ => ?_)
    | refine Keeps.fst (by assumption) ?_
    | refine Keeps.snd (by assumption) ?_
    | refine Keeps.get (by assumption) ?_
    | refine Keeps.get1 (by assumption) ?_
    | refine Keeps.get1' (by assumption) ?_
    | refine Keeps.ok (by assumption) ?_
    | refine Keeps.ok1 (by assumption) ?_
    | split

/-- A sequence of checks keeps what each of them keeps. -/
theorem nineSeq_keeps {a0 : State} : ∀ (fs : List (State → State × Nine)) (s : State),
    (∀ f ∈ fs, ∀ s, Keeps a0 s → Keeps a0 (f s).1) → Keeps a0 s → Keeps a0 (nineSeq fs s).1
  | [], _, _, h0 => h0
  | f :: fs, s, hf, h0 => by
    have h1 := hf f (List.mem_cons_self ..) s h0
    unfold nineSeq
    split
    · rename_i e
      exact nineSeq_keeps fs _ (fun g hg => hf g (List.mem_cons_of_mem _ hg)) (by rw [e] at h1; exact h1)
    · exact h1

theorem nineWhole_keeps {a0 : State} (s : State) (m : Msg) (h0 : Keeps a0 s) : Keeps a0 (nineWhole s m).1 := by
  unfold nineWhole
  refine nineSeq_keeps _ _ (fun f hf t ht => ?_) h0
  simp only [List.mem_cons, List.not_mem_nil, or_false] at hf
  obtain rfl | rfl := hf
  · exact nineExtent_keeps t m ht
  · exact nineClosing_keeps t m ht

theorem nine_keeps {a0 : State} (s : State) (id : Nat) (m : Msg) (whole : Bool) (h0 : Keeps a0 s) :
    Keeps a0 (nine s id m whole).1 := by
  unfold nine
  refine nineSeq_keeps _ _ (fun f hf t ht => ?_) h0
  cases whole <;>
    simp only [Bool.false_eq_true, if_false, if_true, List.append_nil, List.cons_append, List.nil_append, List.mem_cons,
      List.not_mem_nil, or_false] at hf
  · obtain rfl | rfl | rfl | rfl := hf
    · exact nineEpoch_keeps t m ht
    · exact nineStale_keeps t m ht
    · exact nineHome_keeps t m ht
    · exact nineOwner_keeps t id m ht
  · obtain rfl | rfl | rfl | rfl | rfl := hf
    · exact nineEpoch_keeps t m ht
    · exact nineStale_keeps t m ht
    · exact nineHome_keeps t m ht
    · exact nineOwner_keeps t id m ht
    · exact nineWhole_keeps t m ht

theorem refuseNine_keeps {a0 : State} (s : State) (id : Nat) (st : Status) (payload : List Byte) (h0 : Keeps a0 s) : Keeps a0 (refuseNine s id st payload) := by
  unfold refuseNine
  try dsimp only
  with_reducible repeat' first
    | assumption
    | rfl
    | apply KeepsO.some
    | exact KeepsO.none
    | apply KeepsO1.some
    | apply KeepsO1.some'
    | exact KeepsO1.none
    | apply refuse_keeps
    | refine Keeps.fst (by assumption) ?_
    | refine Keeps.snd (by assumption) ?_
    | refine Keeps.get (by assumption) ?_
    | refine Keeps.get1 (by assumption) ?_
    | refine Keeps.get1' (by assumption) ?_
    | refine Keeps.ok (by assumption) ?_
    | refine Keeps.ok1 (by assumption) ?_
    | split

theorem runNine_keeps {a0 : State} (s : State) (id : Nat) (h0 : Keeps a0 s) : Keeps a0 (runNine s id) := by
  unfold runNine
  try dsimp only
  with_reducible repeat' first
    | assumption
    | rfl
    | apply KeepsO.some
    | exact KeepsO.none
    | apply KeepsO1.some
    | apply KeepsO1.some'
    | exact KeepsO1.none
    | apply nine_keeps
    | apply setPhase_keeps
    | apply refuseNine_keeps
    | refine Keeps.fst (by assumption) ?_
    | refine Keeps.snd (by assumption) ?_
    | refine Keeps.get (by assumption) ?_
    | refine Keeps.get1 (by assumption) ?_
    | refine Keeps.get1' (by assumption) ?_
    | refine Keeps.ok (by assumption) ?_
    | refine Keeps.ok1 (by assumption) ?_
    | split

theorem wake_keeps {a0 : State} (s : State) (pick : Phase → Bool) (h0 : Keeps a0 s) : Keeps a0 (wake s pick) := by
  unfold wake
  try dsimp only
  with_reducible repeat' first
    | assumption
    | rfl
    | apply runNine_keeps
    | refine Keeps.foldl (fun _ _ _ => ?_) _ ?_
    | refine Keeps.foldl1 (fun _ _ _ => ?_) _ ?_
    | split

theorem wakeLine_keeps {a0 : State} (s : State) (l : Nat) (h0 : Keeps a0 s) : Keeps a0 (wakeLine s l) := by
  unfold wakeLine
  try dsimp only
  with_reducible repeat' first
    | assumption
    | rfl
    | apply wake_keeps
    | split

theorem wakeEpoch_keeps {a0 : State} (s : State) (h0 : Keeps a0 s) : Keeps a0 (wakeEpoch s) := by
  unfold wakeEpoch
  try dsimp only
  with_reducible repeat' first
    | assumption
    | rfl
    | apply wake_keeps
    | split

theorem wakeHome_keeps {a0 : State} (s : State) (l : Nat) (h0 : Keeps a0 s) : Keeps a0 (wakeHome s l) := by
  unfold wakeHome
  try dsimp only
  with_reducible repeat' first
    | assumption
    | rfl
    | apply setMsgs_keeps
    | refine KeepsO.map ?_ (fun _ _ => ?_)
    | refine KeepsO.map1 ?_ (fun _ _ => ?_)
    | refine KeepsO.map0 (fun _ => ?_)
    | refine KeepsO1.map ?_ (fun _ _ => ?_)
    | refine KeepsO1.map1 ?_ (fun _ _ => ?_)
    | refine KeepsO1.map0 (fun _ => ?_)
    | apply setMsgs_keeps
    | split

end Sys2Proof.Laws
end

