-- ==== Sys2Proof/Laws/KeepsHomes.lean ====
section
/-!
SUPPORT. The operations of Machine/Homes.lean keep what Laws/Keeps.lean says.
-/
namespace Sys2Proof.Laws
open Sys2Proof.Machine

theorem applyExtent_keeps {a0 : State} (s : State) (l : Nat) (content : Option (List Byte)) (h0 : Keeps a0 s) : Keeps a0 (applyExtent s l content) := by
  unfold applyExtent
  try dsimp only
  with_reducible repeat' first
    | assumption
    | rfl
    | apply KeepsO.some
    | exact KeepsO.none
    | apply KeepsO1.some
    | apply KeepsO1.some'
    | exact KeepsO1.none
    | apply modLedg_keeps
    | refine Keeps.fst (by assumption) ?_
    | refine Keeps.snd (by assumption) ?_
    | refine Keeps.get (by assumption) ?_
    | refine Keeps.get1 (by assumption) ?_
    | refine Keeps.get1' (by assumption) ?_
    | refine Keeps.ok (by assumption) ?_
    | refine Keeps.ok1 (by assumption) ?_
    | split

theorem setPending_keeps {a0 : State} (s : State) (h0 : Keeps a0 s) : Keeps a0 (setPending s) := by
  unfold setPending
  try dsimp only
  with_reducible repeat' first
    | assumption
    | rfl
    | apply modLedg_keeps
    | split

theorem addMapPart_keeps {a0 : State} (s : State) (epoch : Nat) (part : Nat) (c : List Byte) (h0 : Keeps a0 s) : Keeps a0 (addMapPart s epoch part c) := by
  unfold addMapPart
  try dsimp only
  with_reducible repeat' first
    | assumption
    | rfl
    | apply setPending_keeps
    | apply modLedg_keeps
    | refine KeepsO.getD ?_ ?_
    | refine KeepsO1.getD ?_ ?_
    | refine KeepsO.map ?_ (fun _ _ => ?_)
    | refine KeepsO.map1 ?_ (fun _ _ => ?_)
    | refine KeepsO.map0 (fun _ => ?_)
    | refine KeepsO1.map ?_ (fun _ _ => ?_)
    | refine KeepsO1.map1 ?_ (fun _ _ => ?_)
    | refine KeepsO1.map0 (fun _ => ?_)
    | refine Keeps.foldl (fun _ _ _ => ?_) _ ?_
    | refine Keeps.foldl1 (fun _ _ _ => ?_) _ ?_
    | split

theorem readPart_keeps {a0 : State} (s : State) (epoch : Nat) (part : Nat) (h0 : Keeps a0 s) : Keeps a0 (readPart s epoch part) := by
  unfold readPart
  try dsimp only
  with_reducible repeat' first
    | assumption
    | rfl
    | apply KeepsO.some
    | exact KeepsO.none
    | apply KeepsO1.some
    | apply KeepsO1.some'
    | exact KeepsO1.none
    | apply addMapPart_keeps
    | apply sendRead_keeps
    | refine KeepsO.map ?_ (fun _ _ => ?_)
    | refine KeepsO.map1 ?_ (fun _ _ => ?_)
    | refine KeepsO.map0 (fun _ => ?_)
    | refine KeepsO1.map ?_ (fun _ _ => ?_)
    | refine KeepsO1.map1 ?_ (fun _ _ => ?_)
    | refine KeepsO1.map0 (fun _ => ?_)
    | refine Keeps.fst (by assumption) ?_
    | refine Keeps.snd (by assumption) ?_
    | refine Keeps.get (by assumption) ?_
    | refine Keeps.get1 (by assumption) ?_
    | refine Keeps.get1' (by assumption) ?_
    | refine Keeps.ok (by assumption) ?_
    | refine Keeps.ok1 (by assumption) ?_
    | split

theorem readMap_keeps {a0 : State} (s : State) (n : Nat) (h0 : Keeps a0 s) : Keeps a0 (readMap s n) := by
  unfold readMap
  try dsimp only
  with_reducible repeat' first
    | assumption
    | rfl
    | apply readPart_keeps
    | refine Keeps.foldl (fun _ _ _ => ?_) _ ?_
    | refine Keeps.foldl1 (fun _ _ _ => ?_) _ ?_
    | split

theorem headChanged_keeps {a0 : State} (s : State) (c : List Byte) (h0 : Keeps a0 s) : Keeps a0 (headChanged s c) := by
  unfold headChanged
  try dsimp only
  with_reducible repeat' first
    | assumption
    | rfl
    | apply modLedg_keeps
    | apply setPending_keeps
    | apply readMap_keeps
    | split

theorem queuePub_keeps {a0 : State} (s : State) (l : Nat) (content : List Byte) (expect : Nat) (h0 : Keeps a0 s) : Keeps a0 (queuePub s l content expect) := by
  unfold queuePub
  try dsimp only
  with_reducible repeat' first
    | assumption
    | rfl
    | apply modLedg_keeps
    | split

theorem modMove_keeps {a0 : State} (s : State) (handle : Nat) (dest : Bool) (f : Transfer → Transfer) (h0 : Keeps a0 s) : Keeps a0 (modMove s handle dest f) := by
  unfold modMove
  try dsimp only
  with_reducible repeat' first
    | assumption
    | rfl
    | apply modLedg_keeps
    | refine KeepsO.map ?_ (fun _ _ => ?_)
    | refine KeepsO.map1 ?_ (fun _ _ => ?_)
    | refine KeepsO.map0 (fun _ => ?_)
    | refine KeepsO1.map ?_ (fun _ _ => ?_)
    | refine KeepsO1.map1 ?_ (fun _ _ => ?_)
    | refine KeepsO1.map0 (fun _ => ?_)
    | split

theorem endMove_keeps {a0 : State} (s : State) (handle : Nat) (dest : Bool) (h0 : Keeps a0 s) : Keeps a0 (endMove s handle dest) := by
  unfold endMove
  try dsimp only
  with_reducible repeat' first
    | assumption
    | rfl
    | apply modLedg_keeps
    | split

theorem offerTransfer_keeps {a0 : State} (s : State) (handle : Nat) (h0 : Keeps a0 s) : Keeps a0 (offerTransfer s handle) := by
  unfold offerTransfer
  try dsimp only
  with_reducible repeat' first
    | assumption
    | rfl
    | apply KeepsO.some
    | exact KeepsO.none
    | apply KeepsO1.some
    | apply KeepsO1.some'
    | exact KeepsO1.none
    | apply enterRegion_keeps
    | apply modMove_keeps
    | apply queuePub_keeps
    | refine KeepsO.map ?_ (fun _ _ => ?_)
    | refine KeepsO.map1 ?_ (fun _ _ => ?_)
    | refine KeepsO.map0 (fun _ => ?_)
    | refine KeepsO1.map ?_ (fun _ _ => ?_)
    | refine KeepsO1.map1 ?_ (fun _ _ => ?_)
    | refine KeepsO1.map0 (fun _ => ?_)
    | refine Keeps.fst (by assumption) ?_
    | refine Keeps.snd (by assumption) ?_
    | refine Keeps.get (by assumption) ?_
    | refine Keeps.get1 (by assumption) ?_
    | refine Keeps.get1' (by assumption) ?_
    | refine Keeps.ok (by assumption) ?_
    | refine Keeps.ok1 (by assumption) ?_
    | split

theorem freezeAll_keeps {a0 : State} (s : State) (i : Nat) (d : Desc) (h0 : Keeps a0 s) : Keeps a0 (freezeAll s i d) := by
  unfold freezeAll
  try dsimp only
  with_reducible repeat' first
    | assumption
    | rfl
    | apply KeepsO.some
    | exact KeepsO.none
    | apply KeepsO1.some
    | apply KeepsO1.some'
    | exact KeepsO1.none
    | refine KeepsO.foldl (fun _ _ _ => ?_) _ ?_
    | refine KeepsO1.foldl (fun _ _ _ => ?_) _ ?_
    | apply dropTail_keeps
    | apply freezeTail_keeps
    | apply lookTails_keeps
    | refine KeepsO.map ?_ (fun _ _ => ?_)
    | refine KeepsO.map1 ?_ (fun _ _ => ?_)
    | refine KeepsO.map0 (fun _ => ?_)
    | refine KeepsO1.map ?_ (fun _ _ => ?_)
    | refine KeepsO1.map1 ?_ (fun _ _ => ?_)
    | refine KeepsO1.map0 (fun _ => ?_)
    | refine Keeps.foldl (fun _ _ _ => ?_) _ ?_
    | refine Keeps.foldl1 (fun _ _ _ => ?_) _ ?_
    | refine Keeps.fst (by assumption) ?_
    | refine Keeps.snd (by assumption) ?_
    | refine Keeps.get (by assumption) ?_
    | refine Keeps.get1 (by assumption) ?_
    | refine Keeps.get1' (by assumption) ?_
    | refine Keeps.ok (by assumption) ?_
    | refine Keeps.ok1 (by assumption) ?_
    | split

theorem sealSource_keeps {a0 : State} (s : State) (i : Nat) (d : Desc) (h0 : Keeps a0 s) : Keeps a0 (sealSource s i d) := by
  unfold sealSource
  try dsimp only
  with_reducible repeat' first
    | assumption
    | rfl
    | apply offerTransfer_keeps
    | apply freezeAll_keeps
    | apply modDesc_keeps
    | split

theorem startSource_keeps {a0 : State} (s : State) (i : Nat) (d : Desc) (o : Owner) (h0 : Keeps a0 s) : Keeps a0 (startSource s i d o) := by
  unfold startSource
  try dsimp only
  with_reducible repeat' first
    | assumption
    | rfl
    | apply modLedg_keeps
    | apply sealSource_keeps
    | split

theorem resumeSources_keeps {a0 : State} (s : State) (h0 : Keeps a0 s) : Keeps a0 (resumeSources s) := by
  unfold resumeSources
  try dsimp only
  with_reducible repeat' first
    | assumption
    | rfl
    | apply KeepsO.some
    | exact KeepsO.none
    | apply KeepsO1.some
    | apply KeepsO1.some'
    | exact KeepsO1.none
    | refine KeepsO.foldl (fun _ _ _ => ?_) _ ?_
    | refine KeepsO1.foldl (fun _ _ _ => ?_) _ ?_
    | apply endMove_keeps
    | apply sealSource_keeps
    | apply modMove_keeps
    | refine Keeps.foldl (fun _ _ _ => ?_) _ ?_
    | refine Keeps.foldl1 (fun _ _ _ => ?_) _ ?_
    | refine Keeps.fst (by assumption) ?_
    | refine Keeps.snd (by assumption) ?_
    | refine Keeps.get (by assumption) ?_
    | refine Keeps.get1 (by assumption) ?_
    | refine Keeps.get1' (by assumption) ?_
    | refine Keeps.ok (by assumption) ?_
    | refine Keeps.ok1 (by assumption) ?_
    | split

theorem dropHere_keeps {a0 : State} (s : State) (i : Nat) (d : Desc) (h0 : Keeps a0 s) : Keeps a0 (dropHere s i d) := by
  unfold dropHere
  try dsimp only
  with_reducible repeat' first
    | assumption
    | rfl
    | apply KeepsO.some
    | exact KeepsO.none
    | apply KeepsO1.some
    | apply KeepsO1.some'
    | exact KeepsO1.none
    | refine KeepsO.foldl (fun _ _ _ => ?_) _ ?_
    | refine KeepsO1.foldl (fun _ _ _ => ?_) _ ?_
    | apply answer_keeps
    | apply modDesc_keeps
    | apply startRevoke_keeps
    | apply freeDesc_keeps
    | apply releaseSeq_keeps
    | refine Keeps.foldl (fun _ _ _ => ?_) _ ?_
    | refine Keeps.foldl1 (fun _ _ _ => ?_) _ ?_
    | refine Keeps.fst (by assumption) ?_
    | refine Keeps.snd (by assumption) ?_
    | refine Keeps.get (by assumption) ?_
    | refine Keeps.get1 (by assumption) ?_
    | refine Keeps.get1' (by assumption) ?_
    | refine Keeps.ok (by assumption) ?_
    | refine Keeps.ok1 (by assumption) ?_
    | split

theorem dropXfer_keeps {a0 : State} (s : State) (x : Transfer) (h0 : Keeps a0 s) : Keeps a0 (dropXfer s x) := by
  unfold dropXfer
  try dsimp only
  with_reducible repeat' first
    | assumption
    | rfl
    | apply KeepsO.some
    | exact KeepsO.none
    | apply KeepsO1.some
    | apply KeepsO1.some'
    | exact KeepsO1.none
    | apply startRevoke_keeps
    | split

theorem endSource_keeps {a0 : State} (s : State) (i : Nat) (d : Desc) (kept : Bool) (h0 : Keeps a0 s) : Keeps a0 (endSource s i d kept) := by
  unfold endSource
  try dsimp only
  with_reducible repeat' first
    | assumption
    | rfl
    | apply KeepsO.some
    | exact KeepsO.none
    | apply KeepsO1.some
    | apply KeepsO1.some'
    | exact KeepsO1.none
    | apply endMove_keeps
    | apply dropXfer_keeps
    | apply modDesc_keeps
    | apply dropHere_keeps
    | refine Keeps.fst (by assumption) ?_
    | refine Keeps.snd (by assumption) ?_
    | refine Keeps.get (by assumption) ?_
    | refine Keeps.get1 (by assumption) ?_
    | refine Keeps.get1' (by assumption) ?_
    | refine Keeps.ok (by assumption) ?_
    | refine Keeps.ok1 (by assumption) ?_
    | split

theorem askStretch_keeps {a0 : State} (s : State) (x : Transfer) (len : Nat) (h0 : Keeps a0 s) : Keeps a0 (askStretch s x len) := by
  unfold askStretch
  try dsimp only
  with_reducible repeat' first
    | assumption
    | rfl
    | apply ask_keeps
    | split

theorem startDest_keeps {a0 : State} (s : State) (handle : Nat) (o : Owner) (h0 : Keeps a0 s) : Keeps a0 (startDest s handle o) := by
  unfold startDest
  try dsimp only
  with_reducible repeat' first
    | assumption
    | rfl
    | apply askStretch_keeps
    | apply modLedg_keeps
    | refine KeepsO.getD ?_ ?_
    | refine KeepsO1.getD ?_ ?_
    | split

theorem placePage_keeps {a0 : State} (s : State) (i : Nat) (d : Desc) (page : List Byte) (h0 : Keeps a0 s) : KeepsO a0 (placePage s i d page) := by
  unfold placePage
  try dsimp only
  with_reducible repeat' first
    | assumption
    | rfl
    | apply KeepsO.some
    | exact KeepsO.none
    | apply KeepsO1.some
    | apply KeepsO1.some'
    | exact KeepsO1.none
    | apply shareStep_keeps
    | apply allocSlot_keeps
    | apply putWords_keeps
    | apply indexPage_keeps
    | apply addRef_keeps
    | apply modTdir_keeps
    | refine KeepsO.bind ?_ (fun _ _ => ?_)
    | refine KeepsO.bind1 ?_ (fun _ _ => ?_)
    | refine KeepsO.bind0 (fun _ => ?_)
    | refine KeepsO1.bind ?_ (fun _ _ => ?_)
    | refine KeepsO1.bind1 ?_ (fun _ _ => ?_)
    | refine KeepsO1.bind0 (fun _ => ?_)
    | refine KeepsO.map ?_ (fun _ _ => ?_)
    | refine KeepsO.map1 ?_ (fun _ _ => ?_)
    | refine KeepsO.map0 (fun _ => ?_)
    | refine KeepsO1.map ?_ (fun _ _ => ?_)
    | refine KeepsO1.map1 ?_ (fun _ _ => ?_)
    | refine KeepsO1.map0 (fun _ => ?_)
    | refine Keeps.fst (by assumption) ?_
    | refine Keeps.snd (by assumption) ?_
    | refine Keeps.get (by assumption) ?_
    | refine Keeps.get1 (by assumption) ?_
    | refine Keeps.get1' (by assumption) ?_
    | refine Keeps.ok (by assumption) ?_
    | refine Keeps.ok1 (by assumption) ?_
    | split

theorem adoptSeq_keeps {a0 : State} (s : State) (x : Transfer) (core : List Byte) (h0 : Keeps a0 s) : KeepsO a0 (adoptSeq s x core) := by
  unfold adoptSeq
  try dsimp only
  with_reducible repeat' first
    | assumption
    | rfl
    | apply KeepsO.some
    | exact KeepsO.none
    | apply KeepsO1.some
    | apply KeepsO1.some'
    | exact KeepsO1.none
    | refine KeepsO.foldl (fun _ _ _ => ?_) _ ?_
    | refine KeepsO1.foldl (fun _ _ _ => ?_) _ ?_
    | apply insertAll_keeps
    | apply modSeqs_keeps
    | apply allocTables_keeps
    | apply placePage_keeps
    | refine KeepsO.bind ?_ (fun _ _ => ?_)
    | refine KeepsO.bind1 ?_ (fun _ _ => ?_)
    | refine KeepsO.bind0 (fun _ => ?_)
    | refine KeepsO1.bind ?_ (fun _ _ => ?_)
    | refine KeepsO1.bind1 ?_ (fun _ _ => ?_)
    | refine KeepsO1.bind0 (fun _ => ?_)
    | refine Keeps.foldl (fun _ _ _ => ?_) _ ?_
    | refine Keeps.foldl1 (fun _ _ _ => ?_) _ ?_
    | refine Keeps.fst (by assumption) ?_
    | refine Keeps.snd (by assumption) ?_
    | refine Keeps.get (by assumption) ?_
    | refine Keeps.get1 (by assumption) ?_
    | refine Keeps.get1' (by assumption) ?_
    | refine Keeps.ok (by assumption) ?_
    | refine Keeps.ok1 (by assumption) ?_
    | split

theorem dropDest_keeps {a0 : State} (s : State) (handle : Nat) (h0 : Keeps a0 s) : Keeps a0 (dropDest s handle) := by
  unfold dropDest
  try dsimp only
  with_reducible repeat' first
    | assumption
    | rfl
    | apply KeepsO.some
    | exact KeepsO.none
    | apply KeepsO1.some
    | apply KeepsO1.some'
    | exact KeepsO1.none
    | apply endMove_keeps
    | apply dropHere_keeps
    | refine Keeps.fst (by assumption) ?_
    | refine Keeps.snd (by assumption) ?_
    | refine Keeps.get (by assumption) ?_
    | refine Keeps.get1 (by assumption) ?_
    | refine Keeps.get1' (by assumption) ?_
    | refine Keeps.ok (by assumption) ?_
    | refine Keeps.ok1 (by assumption) ?_
    | split

theorem destRead_keeps {a0 : State} (s : State) (handle : Nat) (st : Option Status) (data : List Byte) (h0 : Keeps a0 s) : Keeps a0 (destRead s handle st data) := by
  unfold destRead
  try dsimp only
  with_reducible repeat' first
    | assumption
    | rfl
    | apply KeepsO.some
    | exact KeepsO.none
    | apply KeepsO1.some
    | apply KeepsO1.some'
    | exact KeepsO1.none
    | apply KeepsE.ok
    | exact KeepsE.error
    | apply KeepsE1.ok
    | exact KeepsE1.error
    | apply askStretch_keeps
    | apply modMove_keeps
    | apply adoptSeq_keeps
    | apply queuePub_keeps
    | apply dropDest_keeps
    | refine Keeps.fst (by assumption) ?_
    | refine Keeps.snd (by assumption) ?_
    | refine Keeps.get (by assumption) ?_
    | refine Keeps.get1 (by assumption) ?_
    | refine Keeps.get1' (by assumption) ?_
    | refine Keeps.ok (by assumption) ?_
    | refine Keeps.ok1 (by assumption) ?_
    | split

theorem applyOwner_keeps {a0 : State} (s : State) (l : Nat) (content : Option (List Byte)) (h0 : Keeps a0 s) : Keeps a0 (applyOwner s l content) := by
  unfold applyOwner
  try dsimp only
  with_reducible repeat' first
    | assumption
    | rfl
    | apply KeepsO.some
    | exact KeepsO.none
    | apply KeepsO1.some
    | apply KeepsO1.some'
    | exact KeepsO1.none
    | apply dropDest_keeps
    | apply modDesc_keeps
    | apply startSource_keeps
    | apply modMove_keeps
    | apply endSource_keeps
    | apply startDest_keeps
    | apply endMove_keeps
    | refine Keeps.fst (by assumption) ?_
    | refine Keeps.snd (by assumption) ?_
    | refine Keeps.get (by assumption) ?_
    | refine Keeps.get1 (by assumption) ?_
    | refine Keeps.get1' (by assumption) ?_
    | refine Keeps.ok (by assumption) ?_
    | refine Keeps.ok1 (by assumption) ?_
    | split

theorem lineChanged_keeps {a0 : State} (s : State) (l : Nat) (content : Option (List Byte)) (h0 : Keeps a0 s) : Keeps a0 (lineChanged s l content) := by
  unfold lineChanged
  try dsimp only
  with_reducible repeat' first
    | assumption
    | rfl
    | apply KeepsO.some
    | exact KeepsO.none
    | apply KeepsO1.some
    | apply KeepsO1.some'
    | exact KeepsO1.none
    | apply applyExtent_keeps
    | apply applyOwner_keeps
    | apply headChanged_keeps
    | apply addMapPart_keeps
    | refine KeepsO.map ?_ (fun _ _ => ?_)
    | refine KeepsO.map1 ?_ (fun _ _ => ?_)
    | refine KeepsO.map0 (fun _ => ?_)
    | refine KeepsO1.map ?_ (fun _ _ => ?_)
    | refine KeepsO1.map1 ?_ (fun _ _ => ?_)
    | refine KeepsO1.map0 (fun _ => ?_)
    | refine Keeps.fst (by assumption) ?_
    | refine Keeps.snd (by assumption) ?_
    | refine Keeps.get (by assumption) ?_
    | refine Keeps.get1 (by assumption) ?_
    | refine Keeps.get1' (by assumption) ?_
    | refine Keeps.ok (by assumption) ?_
    | refine Keeps.ok1 (by assumption) ?_
    | split

theorem sendRecall_keeps {a0 : State} (s : State) (x : Nat) (ep : Nat) (l : Nat) (version : Nat) (h0 : Keeps a0 s) : Keeps a0 (sendRecall s x ep l version) := by
  unfold sendRecall
  try dsimp only
  with_reducible repeat' first
    | assumption
    | rfl
    | apply KeepsO.some
    | exact KeepsO.none
    | apply KeepsO1.some
    | apply KeepsO1.some'
    | exact KeepsO1.none
    | apply sendMsg_keeps
    | apply modConn_keeps
    | apply ask_keeps
    | refine Keeps.fst (by assumption) ?_
    | refine Keeps.snd (by assumption) ?_
    | refine Keeps.get (by assumption) ?_
    | refine Keeps.get1 (by assumption) ?_
    | refine Keeps.get1' (by assumption) ?_
    | refine Keeps.ok (by assumption) ?_
    | refine Keeps.ok1 (by assumption) ?_
    | split

theorem settleTransfer_keeps {a0 : State} (s : State) (h : Nat) (l : Nat) (kind : PubKind) (old : List Byte) (new : List Byte) (h0 : Keeps a0 s) : Keeps a0 (settleTransfer s h l kind old new) := by
  unfold settleTransfer
  try dsimp only
  with_reducible repeat' first
    | assumption
    | rfl
    | apply modDir_keeps
    | apply bump_keeps
    | split

theorem answerPub_keeps {a0 : State} (s : State) (id : Nat) (st : Status) (digest : Nat) (version : Nat) (l : Nat) (h0 : Keeps a0 s) : Keeps a0 (answerPub s id st digest version l) := by
  unfold answerPub
  try dsimp only
  with_reducible repeat' first
    | assumption
    | rfl
    | apply KeepsO.some
    | exact KeepsO.none
    | apply KeepsO1.some
    | apply KeepsO1.some'
    | exact KeepsO1.none
    | apply answer_keeps
    | refine Keeps.fst (by assumption) ?_
    | refine Keeps.snd (by assumption) ?_
    | refine Keeps.get (by assumption) ?_
    | refine Keeps.get1 (by assumption) ?_
    | refine Keeps.get1' (by assumption) ?_
    | refine Keeps.ok (by assumption) ?_
    | refine Keeps.ok1 (by assumption) ?_
    | split

theorem arrive_keeps {a0 : State} (s : State) (l : Nat) (version : Nat) (content : List Byte) (h0 : Keeps a0 s) : Keeps a0 (arrive s l version content) := by
  unfold arrive
  try dsimp only
  with_reducible repeat' first
    | assumption
    | rfl
    | apply KeepsO.some
    | exact KeepsO.none
    | apply KeepsO1.some
    | apply KeepsO1.some'
    | exact KeepsO1.none
    | apply modDir_keeps
    | refine Keeps.fst (by assumption) ?_
    | refine Keeps.snd (by assumption) ?_
    | refine Keeps.get (by assumption) ?_
    | refine Keeps.get1 (by assumption) ?_
    | refine Keeps.get1' (by assumption) ?_
    | refine Keeps.ok (by assumption) ?_
    | refine Keeps.ok1 (by assumption) ?_
    | split

theorem finishPublish_keeps {a0 : State} (s : State) (h : Nat) (l : Nat) (h0 : Keeps a0 s) : Keeps a0 (finishPublish s h l) := by
  unfold finishPublish
  try dsimp only
  with_reducible repeat' first
    | assumption
    | rfl
    | apply KeepsO.some
    | exact KeepsO.none
    | apply KeepsO1.some
    | apply KeepsO1.some'
    | exact KeepsO1.none
    | apply KeepsE.ok
    | exact KeepsE.error
    | apply KeepsE1.ok
    | exact KeepsE1.error
    | apply dropEntry_keeps
    | apply arrive_keeps
    | apply answer_keeps
    | apply bump_keeps
    | apply modDir_keeps
    | apply settleTransfer_keeps
    | apply answerPub_keeps
    | apply modLedg_keeps
    | apply lineChanged_keeps
    | apply wakeLine_keeps
    | apply wakeHome_keeps
    | refine Keeps.fst (by assumption) ?_
    | refine Keeps.snd (by assumption) ?_
    | refine Keeps.get (by assumption) ?_
    | refine Keeps.get1 (by assumption) ?_
    | refine Keeps.get1' (by assumption) ?_
    | refine Keeps.ok (by assumption) ?_
    | refine Keeps.ok1 (by assumption) ?_
    | split

theorem startPublish_keeps {a0 : State} (s : State) (h : Nat) (l : Nat) (kind : PubKind) (content : List Byte) (msg : Nat) (h0 : Keeps a0 s) : Keeps a0 (startPublish s h l kind content msg) := by
  unfold startPublish
  try dsimp only
  with_reducible repeat' first
    | assumption
    | rfl
    | apply KeepsO.some
    | exact KeepsO.none
    | apply KeepsO1.some
    | apply KeepsO1.some'
    | exact KeepsO1.none
    | refine KeepsO.foldl (fun _ _ _ => ?_) _ ?_
    | refine KeepsO1.foldl (fun _ _ _ => ?_) _ ?_
    | apply modDir_keeps
    | apply bump_keeps
    | apply sendRecall_keeps
    | apply finishPublish_keeps
    | refine KeepsO.getD ?_ ?_
    | refine KeepsO1.getD ?_ ?_
    | refine Keeps.foldl (fun _ _ _ => ?_) _ ?_
    | refine Keeps.foldl1 (fun _ _ _ => ?_) _ ?_
    | refine Keeps.fst (by assumption) ?_
    | refine Keeps.snd (by assumption) ?_
    | refine Keeps.get (by assumption) ?_
    | refine Keeps.get1 (by assumption) ?_
    | refine Keeps.get1' (by assumption) ?_
    | refine Keeps.ok (by assumption) ?_
    | refine Keeps.ok1 (by assumption) ?_
    | split

theorem failPublish_keeps {a0 : State} (s : State) (h : Nat) (l : Nat) (st : Status) (h0 : Keeps a0 s) : Keeps a0 (failPublish s h l st) := by
  unfold failPublish
  try dsimp only
  with_reducible repeat' first
    | assumption
    | rfl
    | apply KeepsO.some
    | exact KeepsO.none
    | apply KeepsO1.some
    | apply KeepsO1.some'
    | exact KeepsO1.none
    | apply modDir_keeps
    | apply answerPub_keeps
    | apply modLedg_keeps
    | apply wakeLine_keeps
    | apply wakeHome_keeps
    | refine KeepsO.map ?_ (fun _ _ => ?_)
    | refine KeepsO.map1 ?_ (fun _ _ => ?_)
    | refine KeepsO.map0 (fun _ => ?_)
    | refine KeepsO1.map ?_ (fun _ _ => ?_)
    | refine KeepsO1.map1 ?_ (fun _ _ => ?_)
    | refine KeepsO1.map0 (fun _ => ?_)
    | refine Keeps.fst (by assumption) ?_
    | refine Keeps.snd (by assumption) ?_
    | refine Keeps.get (by assumption) ?_
    | refine Keeps.get1 (by assumption) ?_
    | refine Keeps.get1' (by assumption) ?_
    | refine Keeps.ok (by assumption) ?_
    | refine Keeps.ok1 (by assumption) ?_
    | split

theorem sharerGone_keeps {a0 : State} (s : State) (h : Nat) (l : Nat) (ep : Nat) (h0 : Keeps a0 s) : Keeps a0 (sharerGone s h l ep) := by
  unfold sharerGone
  try dsimp only
  with_reducible repeat' first
    | assumption
    | rfl
    | apply KeepsO.some
    | exact KeepsO.none
    | apply KeepsO1.some
    | apply KeepsO1.some'
    | exact KeepsO1.none
    | apply modDir_keeps
    | apply finishPublish_keeps
    | refine Keeps.fst (by assumption) ?_
    | refine Keeps.snd (by assumption) ?_
    | refine Keeps.get (by assumption) ?_
    | refine Keeps.get1 (by assumption) ?_
    | refine Keeps.get1' (by assumption) ?_
    | refine Keeps.ok (by assumption) ?_
    | refine Keeps.ok1 (by assumption) ?_
    | split

theorem homePublish_keeps {a0 : State} (s : State) (h : Nat) (l : Nat) (w : Publisher) (ver : Nat) (expected : Nat) (content : List Byte) (msg : Nat) (h0 : Keeps a0 s) : Keeps a0 (homePublish s h l w ver expected content msg) := by
  unfold homePublish
  try dsimp only
  with_reducible repeat' first
    | assumption
    | rfl
    | apply KeepsO.some
    | exact KeepsO.none
    | apply KeepsO1.some
    | apply KeepsO1.some'
    | exact KeepsO1.none
    | apply answerPub_keeps
    | apply bump_keeps
    | apply startPublish_keeps
    | apply newEntry_keeps
    | refine KeepsO.getD ?_ ?_
    | refine KeepsO1.getD ?_ ?_
    | refine KeepsO.map ?_ (fun _ _ => ?_)
    | refine KeepsO.map1 ?_ (fun _ _ => ?_)
    | refine KeepsO.map0 (fun _ => ?_)
    | refine KeepsO1.map ?_ (fun _ _ => ?_)
    | refine KeepsO1.map1 ?_ (fun _ _ => ?_)
    | refine KeepsO1.map0 (fun _ => ?_)
    | refine Keeps.fst (by assumption) ?_
    | refine Keeps.snd (by assumption) ?_
    | refine Keeps.get (by assumption) ?_
    | refine Keeps.get1 (by assumption) ?_
    | refine Keeps.get1' (by assumption) ?_
    | refine Keeps.ok (by assumption) ?_
    | refine Keeps.ok1 (by assumption) ?_
    | split

theorem ownPublish_keeps {a0 : State} (s : State) (h : Nat) (p : OwnPub) (h0 : Keeps a0 s) : Keeps a0 (ownPublish s h p) := by
  unfold ownPublish
  try dsimp only
  with_reducible repeat' first
    | assumption
    | rfl
    | apply KeepsO.some
    | exact KeepsO.none
    | apply KeepsO1.some
    | apply KeepsO1.some'
    | exact KeepsO1.none
    | apply KeepsE.ok
    | exact KeepsE.error
    | apply KeepsE1.ok
    | exact KeepsE1.error
    | apply modLedg_keeps
    | apply findLine_keeps
    | apply startPull_keeps
    | apply homePublish_keeps
    | apply dropDest_keeps
    | apply bump_keeps
    | refine Keeps.fst (by assumption) ?_
    | refine Keeps.snd (by assumption) ?_
    | refine Keeps.get (by assumption) ?_
    | refine Keeps.get1 (by assumption) ?_
    | refine Keeps.get1' (by assumption) ?_
    | refine Keeps.ok (by assumption) ?_
    | refine Keeps.ok1 (by assumption) ?_
    | split

theorem flushPubs_keeps {a0 : State} :
    ∀ (x0 : Nat) (x1 : State), Keeps a0 x1 → Keeps a0 (flushPubs x0 x1)
  | 0, _, h0 => by
    unfold flushPubs
    try dsimp only
    with_reducible repeat' first
      | assumption
      | rfl
      | apply KeepsO.some
      | exact KeepsO.none
      | apply KeepsO1.some
      | apply KeepsO1.some'
      | exact KeepsO1.none
      | apply modLedg_keeps
      | apply ownPublish_keeps
      | apply ask_keeps
      | refine KeepsO.bind ?_ (fun _ _ => ?_)
      | refine KeepsO.bind1 ?_ (fun _ _ => ?_)
      | refine KeepsO.bind0 (fun _ => ?_)
      | refine KeepsO1.bind ?_ (fun _ _ => ?_)
      | refine KeepsO1.bind1 ?_ (fun _ _ => ?_)
      | refine KeepsO1.bind0 (fun _ => ?_)
      | refine KeepsO.map ?_ (fun _ _ => ?_)
      | refine KeepsO.map1 ?_ (fun _ _ => ?_)
      | refine KeepsO.map0 (fun _ => ?_)
      | refine KeepsO1.map ?_ (fun _ _ => ?_)
      | refine KeepsO1.map1 ?_ (fun _ _ => ?_)
      | refine KeepsO1.map0 (fun _ => ?_)
      | refine Keeps.fst (by assumption) ?_
      | refine Keeps.snd (by assumption) ?_
      | refine Keeps.get (by assumption) ?_
      | refine Keeps.get1 (by assumption) ?_
      | refine Keeps.get1' (by assumption) ?_
      | refine Keeps.ok (by assumption) ?_
      | refine Keeps.ok1 (by assumption) ?_
      | split
  | n + 1, _, h0 => by
    unfold flushPubs
    try dsimp only
    with_reducible repeat' first
      | assumption
      | rfl
      | apply KeepsO.some
      | exact KeepsO.none
      | apply KeepsO1.some
      | apply KeepsO1.some'
      | exact KeepsO1.none
      | apply modLedg_keeps
      | apply ownPublish_keeps
      | apply ask_keeps
      | refine KeepsO.bind ?_ (fun _ _ => ?_)
      | refine KeepsO.bind1 ?_ (fun _ _ => ?_)
      | refine KeepsO.bind0 (fun _ => ?_)
      | refine KeepsO1.bind ?_ (fun _ _ => ?_)
      | refine KeepsO1.bind1 ?_ (fun _ _ => ?_)
      | refine KeepsO1.bind0 (fun _ => ?_)
      | refine KeepsO.map ?_ (fun _ _ => ?_)
      | refine KeepsO.map1 ?_ (fun _ _ => ?_)
      | refine KeepsO.map0 (fun _ => ?_)
      | refine KeepsO1.map ?_ (fun _ _ => ?_)
      | refine KeepsO1.map1 ?_ (fun _ _ => ?_)
      | refine KeepsO1.map0 (fun _ => ?_)
      | refine Keeps.fst (by assumption) ?_
      | refine Keeps.snd (by assumption) ?_
      | refine Keeps.get (by assumption) ?_
      | refine Keeps.get1 (by assumption) ?_
      | refine Keeps.get1' (by assumption) ?_
      | refine Keeps.ok (by assumption) ?_
      | refine Keeps.ok1 (by assumption) ?_
      | split
      | apply flushPubs_keeps

theorem localPulls_keeps {a0 : State} (s : State) (h0 : Keeps a0 s) : Keeps a0 (localPulls s) := by
  unfold localPulls
  try dsimp only
  with_reducible repeat' first
    | assumption
    | rfl
    | apply KeepsO.some
    | exact KeepsO.none
    | apply KeepsO1.some
    | apply KeepsO1.some'
    | exact KeepsO1.none
    | refine KeepsO.foldl (fun _ _ _ => ?_) _ ?_
    | refine KeepsO1.foldl (fun _ _ _ => ?_) _ ?_
    | apply wakeLine_keeps
    | apply wakeHome_keeps
    | apply arrive_keeps
    | apply startPublish_keeps
    | refine Keeps.foldl (fun _ _ _ => ?_) _ ?_
    | refine Keeps.foldl1 (fun _ _ _ => ?_) _ ?_
    | refine Keeps.fst (by assumption) ?_
    | refine Keeps.snd (by assumption) ?_
    | refine Keeps.get (by assumption) ?_
    | refine Keeps.get1 (by assumption) ?_
    | refine Keeps.get1' (by assumption) ?_
    | refine Keeps.ok (by assumption) ?_
    | refine Keeps.ok1 (by assumption) ?_
    | split

theorem flush_keeps {a0 : State} (s : State) (h0 : Keeps a0 s) : Keeps a0 (flush s) := by
  unfold flush
  try dsimp only
  with_reducible repeat' first
    | assumption
    | rfl
    | apply flushPubs_keeps
    | apply localPulls_keeps
    | apply resumeSources_keeps
    | split

theorem scrubExtent_keeps {a0 : State} (s : State) (k : Nat) (e : Nat) (h0 : Keeps a0 s) : Keeps a0 (scrubExtent s k e) := by
  unfold scrubExtent
  try dsimp only
  with_reducible repeat' first
    | assumption
    | rfl
    | apply freeSlot_keeps
    | refine Keeps.foldl (fun _ _ _ => ?_) _ ?_
    | refine Keeps.foldl1 (fun _ _ _ => ?_) _ ?_
    | split

end Sys2Proof.Laws
end

