-- ==== Sys2Proof/Laws/KeepsMerges.lean ====
section
/-!
SUPPORT. The operations of Machine/Merges.lean keep what Laws/Keeps.lean says.
-/
namespace Sys2Proof.Laws
open Sys2Proof.Machine

theorem refuseAttend_keeps {a0 : State} (s : State) (id : Nat) (m : Msg) (a : Att) (st : Status) (h0 : Keeps a0 s) : Keeps a0 (refuseAttend s id m a st) := by
  unfold refuseAttend
  try dsimp only
  with_reducible repeat' first
    | assumption
    | rfl
    | apply KeepsO.some
    | exact KeepsO.none
    | apply KeepsO1.some
    | apply KeepsO1.some'
    | exact KeepsO1.none
    | apply answer_keeps
    | split

theorem countPartial_keeps {a0 : State} (s : State) (id : Nat) (h : Nat) (st : Status) (h0 : Keeps a0 s) : Keeps a0 (countPartial s id h st) := by
  unfold countPartial
  try dsimp only
  with_reducible repeat' first
    | assumption
    | rfl
    | apply bump_keeps
    | split

theorem directAnswer_keeps {a0 : State} (s : State) (id : Nat) (h0 : Keeps a0 s) : Keeps a0 (directAnswer s id) := by
  unfold directAnswer
  try dsimp only
  with_reducible repeat' first
    | assumption
    | rfl
    | apply KeepsO.some
    | exact KeepsO.none
    | apply KeepsO1.some
    | apply KeepsO1.some'
    | exact KeepsO1.none
    | apply countPartial_keeps
    | apply answer_keeps
    | refine Keeps.fst (by assumption) ?_
    | refine Keeps.snd (by assumption) ?_
    | refine Keeps.get (by assumption) ?_
    | refine Keeps.get1 (by assumption) ?_
    | refine Keeps.get1' (by assumption) ?_
    | refine Keeps.ok (by assumption) ?_
    | refine Keeps.ok1 (by assumption) ?_
    | split

theorem contribAnswered_keeps {a0 : State} (s : State) (id : Nat) (ok : Bool) (h0 : Keeps a0 s) : Keeps a0 (contribAnswered s id ok) := by
  unfold contribAnswered
  try dsimp only
  with_reducible repeat' first
    | assumption
    | rfl
    | apply KeepsO.some
    | exact KeepsO.none
    | apply KeepsO1.some
    | apply KeepsO1.some'
    | exact KeepsO1.none
    | apply directAnswer_keeps
    | apply countPartial_keeps
    | apply answer_keeps
    | apply dropMsg_keeps
    | refine Keeps.fst (by assumption) ?_
    | refine Keeps.snd (by assumption) ?_
    | refine Keeps.get (by assumption) ?_
    | refine Keeps.get1 (by assumption) ?_
    | refine Keeps.get1' (by assumption) ?_
    | refine Keeps.ok (by assumption) ?_
    | refine Keeps.ok1 (by assumption) ?_
    | split

theorem contribute_keeps {a0 : State} (s : State) (id : Nat) (m : Msg) (a : Att) (dim : Nat) (st : Status) (recs : List Rec) (map : Nat) (kv : Nat) (pos : Nat) (h0 : Keeps a0 s) : Keeps a0 (contribute s id m a dim st recs map kv pos) := by
  unfold contribute
  try dsimp only
  with_reducible repeat' first
    | assumption
    | rfl
    | apply KeepsO.some
    | exact KeepsO.none
    | apply KeepsO1.some
    | apply KeepsO1.some'
    | exact KeepsO1.none
    | apply modMsg_keeps
    | apply setPhase_keeps
    | apply directAnswer_keeps
    | apply newId_keeps
    | apply setMsgs_keeps
    | apply ask_keeps
    | refine KeepsO.getD ?_ ?_
    | refine KeepsO1.getD ?_ ?_
    | apply setMsgs_keeps
    | refine Keeps.fst (by assumption) ?_
    | refine Keeps.snd (by assumption) ?_
    | refine Keeps.get (by assumption) ?_
    | refine Keeps.get1 (by assumption) ?_
    | refine Keeps.get1' (by assumption) ?_
    | refine Keeps.ok (by assumption) ?_
    | refine Keeps.ok1 (by assumption) ?_
    | split

theorem endCtx_keeps {a0 : State} (s : State) (ctx : Nat) (x : MergeCtx) (h0 : Keeps a0 s) : Keeps a0 (endCtx s ctx x) := by
  unfold endCtx
  try dsimp only
  with_reducible repeat' first
    | assumption
    | rfl
    | apply modMerge_keeps
    | apply modDesc_keeps
    | split

theorem deliver_keeps {a0 : State} (s : State) (x : MergeCtx) (st : Status) (recs : List Rec) (map : Nat) (kv : Nat) (pos : Nat) (h0 : Keeps a0 s) : Keeps a0 (deliver s x st recs map kv pos) := by
  unfold deliver
  try dsimp only
  with_reducible repeat' first
    | assumption
    | rfl
    | apply KeepsO.some
    | exact KeepsO.none
    | apply KeepsO1.some
    | apply KeepsO1.some'
    | exact KeepsO1.none
    | apply bump_keeps
    | apply contribute_keeps
    | apply countPartial_keeps
    | apply answer_keeps
    | refine Keeps.fst (by assumption) ?_
    | refine Keeps.snd (by assumption) ?_
    | refine Keeps.get (by assumption) ?_
    | refine Keeps.get1 (by assumption) ?_
    | refine Keeps.get1' (by assumption) ?_
    | refine Keeps.ok (by assumption) ?_
    | refine Keeps.ok1 (by assumption) ?_
    | split

theorem closeMerge_keeps {a0 : State} (s : State) (ctx : Nat) (h0 : Keeps a0 s) : Keeps a0 (closeMerge s ctx) := by
  unfold closeMerge
  try dsimp only
  with_reducible repeat' first
    | assumption
    | rfl
    | apply KeepsO.some
    | exact KeepsO.none
    | apply KeepsO1.some
    | apply KeepsO1.some'
    | exact KeepsO1.none
    | refine KeepsO.foldl (fun _ _ _ => ?_) _ ?_
    | refine KeepsO1.foldl (fun _ _ _ => ?_) _ ?_
    | apply endCtx_keeps
    | apply deliver_keeps
    | refine KeepsO.map ?_ (fun _ _ => ?_)
    | refine KeepsO.map1 ?_ (fun _ _ => ?_)
    | refine KeepsO.map0 (fun _ => ?_)
    | refine KeepsO1.map ?_ (fun _ _ => ?_)
    | refine KeepsO1.map1 ?_ (fun _ _ => ?_)
    | refine KeepsO1.map0 (fun _ => ?_)
    | refine Keeps.foldl (fun _ _ _ => ?_) _ ?_
    | refine Keeps.foldl1 (fun _ _ _ => ?_) _ ?_
    | refine Keeps.fst (by assumption) ?_
    | refine Keeps.snd (by assumption) ?_
    | refine Keeps.get (by assumption) ?_
    | refine Keeps.get1 (by assumption) ?_
    | refine Keeps.get1' (by assumption) ?_
    | refine Keeps.ok (by assumption) ?_
    | refine Keeps.ok1 (by assumption) ?_
    | split

theorem closeChain_keeps {a0 : State} (s : State) (ctx : Nat) (q : Nat) (h0 : Keeps a0 s) : Keeps a0 (closeChain s ctx q) := by
  unfold closeChain
  try dsimp only
  with_reducible repeat' first
    | assumption
    | rfl
    | apply KeepsO.some
    | exact KeepsO.none
    | apply KeepsO1.some
    | apply KeepsO1.some'
    | exact KeepsO1.none
    | apply modMerge_keeps
    | refine KeepsO.map ?_ (fun _ _ => ?_)
    | refine KeepsO.map1 ?_ (fun _ _ => ?_)
    | refine KeepsO.map0 (fun _ => ?_)
    | refine KeepsO1.map ?_ (fun _ _ => ?_)
    | refine KeepsO1.map1 ?_ (fun _ _ => ?_)
    | refine KeepsO1.map0 (fun _ => ?_)
    | refine Keeps.fst (by assumption) ?_
    | refine Keeps.snd (by assumption) ?_
    | refine Keeps.get (by assumption) ?_
    | refine Keeps.get1 (by assumption) ?_
    | refine Keeps.get1' (by assumption) ?_
    | refine Keeps.ok (by assumption) ?_
    | refine Keeps.ok1 (by assumption) ?_
    | split

theorem closeGroup_keeps {a0 : State} (s : State) (g : Group) (h0 : Keeps a0 s) : Keeps a0 (closeGroup s g) := by
  unfold closeGroup
  try dsimp only
  with_reducible repeat' first
    | assumption
    | rfl
    | apply KeepsO.some
    | exact KeepsO.none
    | apply KeepsO1.some
    | apply KeepsO1.some'
    | exact KeepsO1.none
    | apply modMerge_keeps
    | apply bump_keeps
    | apply modMeter_keeps
    | apply sendMsg_keeps
    | refine KeepsO.getD ?_ ?_
    | refine KeepsO1.getD ?_ ?_
    | refine KeepsO.map ?_ (fun _ _ => ?_)
    | refine KeepsO.map1 ?_ (fun _ _ => ?_)
    | refine KeepsO.map0 (fun _ => ?_)
    | refine KeepsO1.map ?_ (fun _ _ => ?_)
    | refine KeepsO1.map1 ?_ (fun _ _ => ?_)
    | refine KeepsO1.map0 (fun _ => ?_)
    | refine Keeps.fst (by assumption) ?_
    | refine Keeps.snd (by assumption) ?_
    | refine Keeps.get (by assumption) ?_
    | refine Keeps.get1 (by assumption) ?_
    | refine Keeps.get1' (by assumption) ?_
    | refine Keeps.ok (by assumption) ?_
    | refine Keeps.ok1 (by assumption) ?_
    | split

end Sys2Proof.Laws
end

