-- ==== Sys2Proof/Laws/KeepsLedger.lean ====
section
/-!
SUPPORT. The operations of Machine/Ledger.lean keep what Laws/Keeps.lean says.
-/
namespace Sys2Proof.Laws
open Sys2Proof.Machine

theorem takeAsk_keeps {a0 : State} (s : State) (m : Msg) (h0 : Keeps a0 s) : Keeps a0 (takeAsk s m).1 := by
  unfold takeAsk
  try dsimp only
  with_reducible repeat' first
    | assumption
    | rfl
    | apply KeepsO.some
    | exact KeepsO.none
    | apply KeepsO1.some
    | apply KeepsO1.some'
    | exact KeepsO1.none
    | apply modConn_keeps
    | refine KeepsO.bind ?_ (fun _ _ => ?_)
    | refine KeepsO.bind1 ?_ (fun _ _ => ?_)
    | refine KeepsO.bind0 (fun _ => ?_)
    | refine KeepsO1.bind ?_ (fun _ _ => ?_)
    | refine KeepsO1.bind1 ?_ (fun _ _ => ?_)
    | refine KeepsO1.bind0 (fun _ => ?_)
    | refine Keeps.fst (by assumption) ?_
    | refine Keeps.snd (by assumption) ?_
    | refine Keeps.get (by assumption) ?_
    | refine Keeps.get1 (by assumption) ?_
    | refine Keeps.get1' (by assumption) ?_
    | refine Keeps.ok (by assumption) ?_
    | refine Keeps.ok1 (by assumption) ?_
    | split

theorem readFailed_keeps {a0 : State} (s : State) (l : Nat) (h0 : Keeps a0 s) : Keeps a0 (readFailed s l) := by
  unfold readFailed
  try dsimp only
  with_reducible repeat' first
    | assumption
    | rfl
    | apply modLedg_keeps
    | apply refuseNine_keeps
    | refine Keeps.foldl (fun _ _ _ => ?_) _ ?_
    | refine Keeps.foldl1 (fun _ _ _ => ?_) _ ?_
    | split

theorem retryReads_keeps {a0 : State} (s : State) (h0 : Keeps a0 s) : Keeps a0 (retryReads s) := by
  unfold retryReads
  try dsimp only
  with_reducible repeat' first
    | assumption
    | rfl
    | apply KeepsO.some
    | exact KeepsO.none
    | apply KeepsO1.some
    | apply KeepsO1.some'
    | exact KeepsO1.none
    | apply modLedg_keeps
    | apply wakeLine_keeps
    | apply ask_keeps
    | refine Keeps.fst (by assumption) ?_
    | refine Keeps.snd (by assumption) ?_
    | refine Keeps.get (by assumption) ?_
    | refine Keeps.get1 (by assumption) ?_
    | refine Keeps.get1' (by assumption) ?_
    | refine Keeps.ok (by assumption) ?_
    | refine Keeps.ok1 (by assumption) ?_
    | split

theorem grantLine_keeps {a0 : State} (s : State) (id : Nat) (m : Msg) (h : Nat) (l : Nat) (e : DirEntry) (cache : Bool) (h0 : Keeps a0 s) : Keeps a0 (grantLine s id m h l e cache) := by
  unfold grantLine
  try dsimp only
  with_reducible repeat' first
    | assumption
    | rfl
    | apply KeepsE.ok
    | exact KeepsE.error
    | apply KeepsE1.ok
    | exact KeepsE1.error
    | apply modDir_keeps
    | apply answer_keeps
    | split

theorem readNone_keeps {a0 : State} (s : State) (id : Nat) (m : Msg) (h : Nat) (l : Nat) (cache : Bool) (h0 : Keeps a0 s) : Keeps a0 (readNone s id m h l cache) := by
  unfold readNone
  try dsimp only
  with_reducible repeat' first
    | assumption
    | rfl
    | apply KeepsO.some
    | exact KeepsO.none
    | apply KeepsO1.some
    | apply KeepsO1.some'
    | exact KeepsO1.none
    | apply answer_keeps
    | apply newEntry_keeps
    | apply grantLine_keeps
    | refine Keeps.fst (by assumption) ?_
    | refine Keeps.snd (by assumption) ?_
    | refine Keeps.get (by assumption) ?_
    | refine Keeps.get1 (by assumption) ?_
    | refine Keeps.get1' (by assumption) ?_
    | refine Keeps.ok (by assumption) ?_
    | refine Keeps.ok1 (by assumption) ?_
    | split

theorem homeRead_keeps {a0 : State} (s : State) (id : Nat) (m : Msg) (h : Nat) (l : Nat) (cache : Bool) (pull : Bool) (h0 : Keeps a0 s) : Keeps a0 (homeRead s id m h l cache pull) := by
  unfold homeRead
  try dsimp only
  with_reducible repeat' first
    | assumption
    | rfl
    | apply KeepsO.some
    | exact KeepsO.none
    | apply KeepsO1.some
    | apply KeepsO1.some'
    | exact KeepsO1.none
    | apply KeepsE.ok
    | exact KeepsE.error
    | apply KeepsE1.ok
    | exact KeepsE1.error
    | apply findLine_keeps
    | apply answer_keeps
    | apply readNone_keeps
    | apply startPull_keeps
    | apply setPhase_keeps
    | apply startPublish_keeps
    | apply grantLine_keeps
    | refine Keeps.fst (by assumption) ?_
    | refine Keeps.snd (by assumption) ?_
    | refine Keeps.get (by assumption) ?_
    | refine Keeps.get1 (by assumption) ?_
    | refine Keeps.get1' (by assumption) ?_
    | refine Keeps.ok (by assumption) ?_
    | refine Keeps.ok1 (by assumption) ?_
    | split

theorem execLedgerRead_keeps {a0 : State} (msg : Nat) (s : State) (h0 : Keeps a0 s) : KeepsN a0 (execLedgerRead msg s) := by
  unfold execLedgerRead
  try dsimp only
  with_reducible repeat' first
    | assumption
    | rfl
    | apply KeepsN.next
    | apply KeepsN.fault
    | apply KeepsO.some
    | exact KeepsO.none
    | apply KeepsO1.some
    | apply KeepsO1.some'
    | exact KeepsO1.none
    | apply answer_keeps
    | apply runNine_keeps
    | apply flush_keeps
    | apply homeRead_keeps
    | refine Keeps.fst (by assumption) ?_
    | refine Keeps.snd (by assumption) ?_
    | refine Keeps.get (by assumption) ?_
    | refine Keeps.get1 (by assumption) ?_
    | refine Keeps.get1' (by assumption) ?_
    | refine KeepsN.get (by assumption) ?_
    | refine Keeps.ok (by assumption) ?_
    | refine Keeps.ok1 (by assumption) ?_
    | split

theorem execLedgerPublish_keeps {a0 : State} (msg : Nat) (s : State) (h0 : Keeps a0 s) : KeepsN a0 (execLedgerPublish msg s) := by
  unfold execLedgerPublish
  try dsimp only
  with_reducible repeat' first
    | assumption
    | rfl
    | apply KeepsN.next
    | apply KeepsN.fault
    | apply KeepsO.some
    | exact KeepsO.none
    | apply KeepsO1.some
    | apply KeepsO1.some'
    | exact KeepsO1.none
    | apply KeepsE.ok
    | exact KeepsE.error
    | apply KeepsE1.ok
    | exact KeepsE1.error
    | apply runNine_keeps
    | apply flush_keeps
    | apply homePublish_keeps
    | apply setPhase_keeps
    | apply findLine_keeps
    | apply answer_keeps
    | apply startPull_keeps
    | refine Keeps.fst (by assumption) ?_
    | refine Keeps.snd (by assumption) ?_
    | refine Keeps.get (by assumption) ?_
    | refine Keeps.get1 (by assumption) ?_
    | refine Keeps.get1' (by assumption) ?_
    | refine KeepsN.get (by assumption) ?_
    | refine Keeps.ok (by assumption) ?_
    | refine Keeps.ok1 (by assumption) ?_
    | split

theorem execRecall_keeps {a0 : State} (msg : Nat) (s : State) (h0 : Keeps a0 s) : KeepsN a0 (execRecall msg s) := by
  unfold execRecall
  try dsimp only
  with_reducible repeat' first
    | assumption
    | rfl
    | apply KeepsN.next
    | apply KeepsN.fault
    | apply KeepsO.some
    | exact KeepsO.none
    | apply KeepsO1.some
    | apply KeepsO1.some'
    | exact KeepsO1.none
    | apply KeepsE.ok
    | exact KeepsE.error
    | apply KeepsE1.ok
    | exact KeepsE1.error
    | apply modLedg_keeps
    | apply answer_keeps
    | apply holdExtent_keeps
    | apply sendRead_keeps
    | refine KeepsO.getD ?_ ?_
    | refine KeepsO1.getD ?_ ?_
    | refine Keeps.fst (by assumption) ?_
    | refine Keeps.snd (by assumption) ?_
    | refine Keeps.get (by assumption) ?_
    | refine Keeps.get1 (by assumption) ?_
    | refine Keeps.get1' (by assumption) ?_
    | refine KeepsN.get (by assumption) ?_
    | refine Keeps.ok (by assumption) ?_
    | refine Keeps.ok1 (by assumption) ?_
    | split

theorem execRecallAck_keeps {a0 : State} (msg : Nat) (s : State) (h0 : Keeps a0 s) : KeepsN a0 (execRecallAck msg s) := by
  unfold execRecallAck
  try dsimp only
  with_reducible repeat' first
    | assumption
    | rfl
    | apply KeepsN.next
    | apply KeepsN.fault
    | apply KeepsO.some
    | exact KeepsO.none
    | apply KeepsO1.some
    | apply KeepsO1.some'
    | exact KeepsO1.none
    | apply modConn_keeps
    | apply dropMsg_keeps
    | apply flush_keeps
    | apply sharerGone_keeps
    | refine Keeps.fst (by assumption) ?_
    | refine Keeps.snd (by assumption) ?_
    | refine Keeps.get (by assumption) ?_
    | refine Keeps.get1 (by assumption) ?_
    | refine Keeps.get1' (by assumption) ?_
    | refine KeepsN.get (by assumption) ?_
    | refine Keeps.ok (by assumption) ?_
    | refine Keeps.ok1 (by assumption) ?_
    | split

theorem execRecallWaitExpiry_keeps {a0 : State} (hub : Hub) (line : Nat) (sharer : Nat) (s : State) (h0 : Keeps a0 s) : KeepsN a0 (execRecallWaitExpiry hub line sharer s) := by
  unfold execRecallWaitExpiry
  try dsimp only
  with_reducible repeat' first
    | assumption
    | rfl
    | apply KeepsN.next
    | apply KeepsN.fault
    | apply KeepsO.some
    | exact KeepsO.none
    | apply KeepsO1.some
    | apply KeepsO1.some'
    | exact KeepsO1.none
    | apply passTo_keeps
    | apply bump_keeps
    | apply flush_keeps
    | apply failPublish_keeps
    | apply sharerGone_keeps
    | refine KeepsO.getD ?_ ?_
    | refine KeepsO1.getD ?_ ?_
    | refine Keeps.fst (by assumption) ?_
    | refine Keeps.snd (by assumption) ?_
    | refine Keeps.get (by assumption) ?_
    | refine Keeps.get1 (by assumption) ?_
    | refine Keeps.get1' (by assumption) ?_
    | refine KeepsN.get (by assumption) ?_
    | refine Keeps.ok (by assumption) ?_
    | refine Keeps.ok1 (by assumption) ?_
    | split

theorem execLeaseExpiry_keeps {a0 : State} (line : Nat) (s : State) (h0 : Keeps a0 s) : KeepsN a0 (execLeaseExpiry line s) := by
  unfold execLeaseExpiry
  try dsimp only
  with_reducible repeat' first
    | assumption
    | rfl
    | apply KeepsN.next
    | apply KeepsN.fault
    | apply KeepsO.some
    | exact KeepsO.none
    | apply KeepsO1.some
    | apply KeepsO1.some'
    | exact KeepsO1.none
    | apply modLedg_keeps
    | apply passTo_keeps
    | refine Keeps.fst (by assumption) ?_
    | refine Keeps.snd (by assumption) ?_
    | refine Keeps.get (by assumption) ?_
    | refine Keeps.get1 (by assumption) ?_
    | refine Keeps.get1' (by assumption) ?_
    | refine KeepsN.get (by assumption) ?_
    | refine Keeps.ok (by assumption) ?_
    | refine Keeps.ok1 (by assumption) ?_
    | split

theorem execTransferLeaseExpiry_keeps {a0 : State} (hub : Hub) (line : Nat) (s : State) (h0 : Keeps a0 s) : KeepsN a0 (execTransferLeaseExpiry hub line s) := by
  unfold execTransferLeaseExpiry
  try dsimp only
  with_reducible repeat' first
    | assumption
    | rfl
    | apply KeepsN.next
    | apply KeepsN.fault
    | apply KeepsO.some
    | exact KeepsO.none
    | apply KeepsO1.some
    | apply KeepsO1.some'
    | exact KeepsO1.none
    | apply passTo_keeps
    | apply flush_keeps
    | apply startPublish_keeps
    | refine KeepsO.getD ?_ ?_
    | refine KeepsO1.getD ?_ ?_
    | refine Keeps.fst (by assumption) ?_
    | refine Keeps.snd (by assumption) ?_
    | refine Keeps.get (by assumption) ?_
    | refine Keeps.get1 (by assumption) ?_
    | refine Keeps.get1' (by assumption) ?_
    | refine KeepsN.get (by assumption) ?_
    | refine Keeps.ok (by assumption) ?_
    | refine Keeps.ok1 (by assumption) ?_
    | split

theorem revokeCtx_keeps {a0 : State} (s : State) (ctx : Nat) (x : MergeCtx) (h0 : Keeps a0 s) : Keeps a0 (revokeCtx s ctx x) := by
  unfold revokeCtx
  try dsimp only
  with_reducible repeat' first
    | assumption
    | rfl
    | apply deliver_keeps
    | apply endCtx_keeps
    | split

theorem revokeSnaps_keeps {a0 : State} (s : State) (k : Nat) (e : Nat) (h0 : Keeps a0 s) : Keeps a0 (revokeSnaps s k e) := by
  unfold revokeSnaps
  try dsimp only
  with_reducible repeat' first
    | assumption
    | rfl
    | apply KeepsO.some
    | exact KeepsO.none
    | apply KeepsO1.some
    | apply KeepsO1.some'
    | exact KeepsO1.none
    | apply KeepsE.ok
    | exact KeepsE.error
    | apply KeepsE1.ok
    | exact KeepsE1.error
    | refine KeepsO.foldl (fun _ _ _ => ?_) _ ?_
    | refine KeepsO1.foldl (fun _ _ _ => ?_) _ ?_
    | refine KeepsE.foldl (fun _ _ _ => ?_) _ ?_
    | refine KeepsE1.foldl (fun _ _ _ => ?_) _ ?_
    | apply dropSnap_keeps
    | apply bump_keeps
    | apply answerSnap_keeps
    | refine Keeps.foldl (fun _ _ _ => ?_) _ ?_
    | refine Keeps.foldl1 (fun _ _ _ => ?_) _ ?_
    | refine Keeps.fst (by assumption) ?_
    | refine Keeps.snd (by assumption) ?_
    | refine Keeps.get (by assumption) ?_
    | refine Keeps.get1 (by assumption) ?_
    | refine Keeps.get1' (by assumption) ?_
    | refine Keeps.ok (by assumption) ?_
    | refine Keeps.ok1 (by assumption) ?_
    | split

theorem clearExtent_keeps {a0 : State} (s : State) (k : Nat) (e : Nat) (h0 : Keeps a0 s) : Keeps a0 (clearExtent s k e) := by
  unfold clearExtent
  try dsimp only
  with_reducible repeat' first
    | assumption
    | rfl
    | apply KeepsO.some
    | exact KeepsO.none
    | apply KeepsO1.some
    | apply KeepsO1.some'
    | exact KeepsO1.none
    | refine KeepsO.foldl (fun _ _ _ => ?_) _ ?_
    | refine KeepsO1.foldl (fun _ _ _ => ?_) _ ?_
    | apply revokeSnaps_keeps
    | apply scrubExtent_keeps
    | apply startRevoke_keeps
    | refine Keeps.foldl (fun _ _ _ => ?_) _ ?_
    | refine Keeps.foldl1 (fun _ _ _ => ?_) _ ?_
    | split

theorem execExtentDrainExpiry_keeps {a0 : State} (slice : Slice) (extent : Nat) (s : State) (h0 : Keeps a0 s) : KeepsN a0 (execExtentDrainExpiry slice extent s) := by
  unfold execExtentDrainExpiry
  try dsimp only
  with_reducible repeat' first
    | assumption
    | rfl
    | apply KeepsN.next
    | apply KeepsN.fault
    | apply passTo_keeps
    | apply revokeCtx_keeps
    | apply clearExtent_keeps
    | apply modLedg_keeps
    | refine Keeps.foldl (fun _ _ _ => ?_) _ ?_
    | refine Keeps.foldl1 (fun _ _ _ => ?_) _ ?_
    | split

theorem execExtentScrubComplete_keeps {a0 : State} (slice : Slice) (extent : Nat) (s : State) (h0 : Keeps a0 s) : KeepsN a0 (execExtentScrubComplete slice extent s) := by
  unfold execExtentScrubComplete
  try dsimp only
  with_reducible repeat' first
    | assumption
    | rfl
    | apply KeepsN.next
    | apply KeepsN.fault
    | apply flush_keeps
    | apply queuePub_keeps
    | refine KeepsO.getD ?_ ?_
    | refine KeepsO1.getD ?_ ?_
    | refine KeepsO.map ?_ (fun _ _ => ?_)
    | refine KeepsO.map1 ?_ (fun _ _ => ?_)
    | refine KeepsO.map0 (fun _ => ?_)
    | refine KeepsO1.map ?_ (fun _ _ => ?_)
    | refine KeepsO1.map1 ?_ (fun _ _ => ?_)
    | refine KeepsO1.map0 (fun _ => ?_)
    | split

theorem readExtents_keeps {a0 : State} (s : State) (h0 : Keeps a0 s) : Keeps a0 (readExtents s) := by
  unfold readExtents
  try dsimp only
  with_reducible repeat' first
    | assumption
    | rfl
    | apply KeepsO.some
    | exact KeepsO.none
    | apply KeepsO1.some
    | apply KeepsO1.some'
    | exact KeepsO1.none
    | refine KeepsO.foldl (fun _ _ _ => ?_) _ ?_
    | refine KeepsO1.foldl (fun _ _ _ => ?_) _ ?_
    | apply applyExtent_keeps
    | apply sendRead_keeps
    | refine Keeps.foldl (fun _ _ _ => ?_) _ ?_
    | refine Keeps.foldl1 (fun _ _ _ => ?_) _ ?_
    | refine Keeps.fst (by assumption) ?_
    | refine Keeps.snd (by assumption) ?_
    | refine Keeps.get (by assumption) ?_
    | refine Keeps.get1 (by assumption) ?_
    | refine Keeps.get1' (by assumption) ?_
    | refine Keeps.ok (by assumption) ?_
    | refine Keeps.ok1 (by assumption) ?_
    | split

theorem execMapAdopt_keeps {a0 : State} (s : State) (h0 : Keeps a0 s) : KeepsN a0 (execMapAdopt s) := by
  unfold execMapAdopt
  try dsimp only
  with_reducible repeat' first
    | assumption
    | rfl
    | apply KeepsN.next
    | apply KeepsN.fault
    | apply setPending_keeps
    | apply modLedg_keeps
    | apply modLife_keeps
    | apply wakeEpoch_keeps
    | apply readExtents_keeps
    | refine KeepsO.map ?_ (fun _ _ => ?_)
    | refine KeepsO.map1 ?_ (fun _ _ => ?_)
    | refine KeepsO.map0 (fun _ => ?_)
    | refine KeepsO1.map ?_ (fun _ _ => ?_)
    | refine KeepsO1.map1 ?_ (fun _ _ => ?_)
    | refine KeepsO1.map0 (fun _ => ?_)
    | split

theorem execEpochWaitExpiry_keeps {a0 : State} (msg : Nat) (s : State) (h0 : Keeps a0 s) : KeepsN a0 (execEpochWaitExpiry msg s) := by
  unfold execEpochWaitExpiry
  try dsimp only
  with_reducible repeat' first
    | assumption
    | rfl
    | apply KeepsN.next
    | apply KeepsN.fault
    | apply KeepsO.some
    | exact KeepsO.none
    | apply KeepsO1.some
    | apply KeepsO1.some'
    | exact KeepsO1.none
    | apply refuseNine_keeps
    | apply passTo_keeps
    | refine Keeps.fst (by assumption) ?_
    | refine Keeps.snd (by assumption) ?_
    | refine Keeps.get (by assumption) ?_
    | refine Keeps.get1 (by assumption) ?_
    | refine Keeps.get1' (by assumption) ?_
    | refine KeepsN.get (by assumption) ?_
    | refine Keeps.ok (by assumption) ?_
    | refine Keeps.ok1 (by assumption) ?_
    | split

theorem execLinePull_keeps {a0 : State} (hub : Hub) (line : Nat) (s : State) (h0 : Keeps a0 s) : KeepsN a0 (execLinePull hub line s) := by
  unfold execLinePull
  try dsimp only
  with_reducible repeat' first
    | assumption
    | rfl
    | apply KeepsN.next
    | apply KeepsN.fault
    | apply KeepsO.some
    | exact KeepsO.none
    | apply KeepsO1.some
    | apply KeepsO1.some'
    | exact KeepsO1.none
    | apply startPull_keeps
    | refine Keeps.fst (by assumption) ?_
    | refine Keeps.snd (by assumption) ?_
    | refine Keeps.get (by assumption) ?_
    | refine Keeps.get1 (by assumption) ?_
    | refine Keeps.get1' (by assumption) ?_
    | refine KeepsN.get (by assumption) ?_
    | refine Keeps.ok (by assumption) ?_
    | refine Keeps.ok1 (by assumption) ?_
    | split

theorem execPullTimeout_keeps {a0 : State} (hub : Hub) (line : Nat) (s : State) (h0 : Keeps a0 s) : KeepsN a0 (execPullTimeout hub line s) := by
  unfold execPullTimeout
  try dsimp only
  with_reducible repeat' first
    | assumption
    | rfl
    | apply KeepsN.next
    | apply KeepsN.fault
    | apply KeepsO.some
    | exact KeepsO.none
    | apply KeepsO1.some
    | apply KeepsO1.some'
    | exact KeepsO1.none
    | apply passTo_keeps
    | apply bump_keeps
    | apply modDir_keeps
    | apply modLedg_keeps
    | apply wakeLine_keeps
    | apply wakeHome_keeps
    | refine KeepsO.map ?_ (fun _ _ => ?_)
    | refine KeepsO.map1 ?_ (fun _ _ => ?_)
    | refine KeepsO.map0 (fun _ => ?_)
    | refine KeepsO1.map ?_ (fun _ _ => ?_)
    | refine KeepsO1.map1 ?_ (fun _ _ => ?_)
    | refine KeepsO1.map0 (fun _ => ?_)
    | refine Keeps.fst (by assumption) ?_
    | refine Keeps.snd (by assumption) ?_
    | refine Keeps.get (by assumption) ?_
    | refine Keeps.get1 (by assumption) ?_
    | refine Keeps.get1' (by assumption) ?_
    | refine KeepsN.get (by assumption) ?_
    | refine Keeps.ok (by assumption) ?_
    | refine Keeps.ok1 (by assumption) ?_
    | split

theorem installLine_keeps {a0 : State} (s : State) (l : Nat) (st : Option Status) (lease : Nat) (version : Nat) (content : List Byte) (h0 : Keeps a0 s) : Keeps a0 (installLine s l st lease version content) := by
  unfold installLine
  try dsimp only
  with_reducible repeat' first
    | assumption
    | rfl
    | apply KeepsO.some
    | exact KeepsO.none
    | apply KeepsO1.some
    | apply KeepsO1.some'
    | exact KeepsO1.none
    | apply KeepsE.ok
    | exact KeepsE.error
    | apply KeepsE1.ok
    | exact KeepsE1.error
    | refine KeepsO.foldl (fun _ _ _ => ?_) _ ?_
    | refine KeepsO1.foldl (fun _ _ _ => ?_) _ ?_
    | refine KeepsE.foldl (fun _ _ _ => ?_) _ ?_
    | refine KeepsE1.foldl (fun _ _ _ => ?_) _ ?_
    | apply modLedg_keeps
    | apply sendRead_keeps
    | apply modDir_keeps
    | apply wakeLine_keeps
    | apply wakeHome_keeps
    | apply lineChanged_keeps
    | refine KeepsO.getD ?_ ?_
    | refine KeepsO1.getD ?_ ?_
    | refine Keeps.foldl (fun _ _ _ => ?_) _ ?_
    | refine Keeps.foldl1 (fun _ _ _ => ?_) _ ?_
    | refine Keeps.fst (by assumption) ?_
    | refine Keeps.snd (by assumption) ?_
    | refine Keeps.get (by assumption) ?_
    | refine Keeps.get1 (by assumption) ?_
    | refine Keeps.get1' (by assumption) ?_
    | refine Keeps.ok (by assumption) ?_
    | refine Keeps.ok1 (by assumption) ?_
    | split

theorem execLedgerReadResponse_keeps {a0 : State} (msg : Nat) (s : State) (h0 : Keeps a0 s) : KeepsN a0 (execLedgerReadResponse msg s) := by
  unfold execLedgerReadResponse
  try dsimp only
  with_reducible repeat' first
    | assumption
    | rfl
    | apply KeepsN.next
    | apply KeepsN.fault
    | apply KeepsO.some
    | exact KeepsO.none
    | apply KeepsO1.some
    | apply KeepsO1.some'
    | exact KeepsO1.none
    | apply KeepsE.ok
    | exact KeepsE.error
    | apply KeepsE1.ok
    | exact KeepsE1.error
    | apply takeAsk_keeps
    | apply dropMsg_keeps
    | apply flush_keeps
    | apply installLine_keeps
    | apply readFailed_keeps
    | refine Keeps.fst (by assumption) ?_
    | refine Keeps.snd (by assumption) ?_
    | refine Keeps.get (by assumption) ?_
    | refine Keeps.get1 (by assumption) ?_
    | refine Keeps.get1' (by assumption) ?_
    | refine KeepsN.get (by assumption) ?_
    | refine Keeps.ok (by assumption) ?_
    | refine Keeps.ok1 (by assumption) ?_
    | split

theorem readAgain_keeps {a0 : State} (s : State) (l : Nat) (h0 : Keeps a0 s) : Keeps a0 (readAgain s l) := by
  unfold readAgain
  try dsimp only
  with_reducible repeat' first
    | assumption
    | rfl
    | apply KeepsO.some
    | exact KeepsO.none
    | apply KeepsO1.some
    | apply KeepsO1.some'
    | exact KeepsO1.none
    | apply sendRead_keeps
    | refine Keeps.fst (by assumption) ?_
    | refine Keeps.snd (by assumption) ?_
    | refine Keeps.get (by assumption) ?_
    | refine Keeps.get1 (by assumption) ?_
    | refine Keeps.get1' (by assumption) ?_
    | refine Keeps.ok (by assumption) ?_
    | refine Keeps.ok1 (by assumption) ?_
    | split

theorem execLedgerPublishResponse_keeps {a0 : State} (msg : Nat) (s : State) (h0 : Keeps a0 s) : KeepsN a0 (execLedgerPublishResponse msg s) := by
  unfold execLedgerPublishResponse
  try dsimp only
  with_reducible repeat' first
    | assumption
    | rfl
    | apply KeepsN.next
    | apply KeepsN.fault
    | apply KeepsO.some
    | exact KeepsO.none
    | apply KeepsO1.some
    | apply KeepsO1.some'
    | exact KeepsO1.none
    | apply KeepsE.ok
    | exact KeepsE.error
    | apply KeepsE1.ok
    | exact KeepsE1.error
    | apply takeAsk_keeps
    | apply dropMsg_keeps
    | apply modLedg_keeps
    | apply lineChanged_keeps
    | apply flush_keeps
    | apply readAgain_keeps
    | apply dropDest_keeps
    | apply sendRead_keeps
    | refine Keeps.fst (by assumption) ?_
    | refine Keeps.snd (by assumption) ?_
    | refine Keeps.get (by assumption) ?_
    | refine Keeps.get1 (by assumption) ?_
    | refine Keeps.get1' (by assumption) ?_
    | refine KeepsN.get (by assumption) ?_
    | refine Keeps.ok (by assumption) ?_
    | refine Keeps.ok1 (by assumption) ?_
    | split

theorem dropStale_keeps {a0 : State} (s : State) (i : Nat) (h0 : Keeps a0 s) : Keeps a0 (dropStale s i) := by
  unfold dropStale
  try dsimp only
  with_reducible repeat' first
    | assumption
    | rfl
    | apply KeepsO.some
    | exact KeepsO.none
    | apply KeepsO1.some
    | apply KeepsO1.some'
    | exact KeepsO1.none
    | apply dropHere_keeps
    | refine Keeps.fst (by assumption) ?_
    | refine Keeps.snd (by assumption) ?_
    | refine Keeps.get (by assumption) ?_
    | refine Keeps.get1 (by assumption) ?_
    | refine Keeps.get1' (by assumption) ?_
    | refine Keeps.ok (by assumption) ?_
    | refine Keeps.ok1 (by assumption) ?_
    | split

theorem startVerify_keeps {a0 : State} (s : State) (ks : List Nat) (more : List Nat) (h0 : Keeps a0 s) : Keeps a0 (startVerify s ks more) := by
  unfold startVerify
  try dsimp only
  with_reducible repeat' first
    | assumption
    | rfl
    | apply KeepsO.some
    | exact KeepsO.none
    | apply KeepsO1.some
    | apply KeepsO1.some'
    | exact KeepsO1.none
    | refine KeepsO.foldl (fun _ _ _ => ?_) _ ?_
    | refine KeepsO1.foldl (fun _ _ _ => ?_) _ ?_
    | apply modLedg_keeps
    | apply sendRead_keeps
    | refine Keeps.foldl (fun _ _ _ => ?_) _ ?_
    | refine Keeps.foldl1 (fun _ _ _ => ?_) _ ?_
    | refine Keeps.fst (by assumption) ?_
    | refine Keeps.snd (by assumption) ?_
    | refine Keeps.get (by assumption) ?_
    | refine Keeps.get1 (by assumption) ?_
    | refine Keeps.get1' (by assumption) ?_
    | refine Keeps.ok (by assumption) ?_
    | refine Keeps.ok1 (by assumption) ?_
    | split

theorem verifySlice_keeps {a0 : State} (s : State) (k : Nat) (h0 : Keeps a0 s) : Keeps a0 (verifySlice s k) := by
  unfold verifySlice
  try dsimp only
  with_reducible repeat' first
    | assumption
    | rfl
    | apply KeepsO.some
    | exact KeepsO.none
    | apply KeepsO1.some
    | apply KeepsO1.some'
    | exact KeepsO1.none
    | refine KeepsO.foldl (fun _ _ _ => ?_) _ ?_
    | refine KeepsO1.foldl (fun _ _ _ => ?_) _ ?_
    | apply clearExtent_keeps
    | apply applyExtent_keeps
    | apply dropStale_keeps
    | apply lineChanged_keeps
    | refine KeepsO.bind ?_ (fun _ _ => ?_)
    | refine KeepsO.bind1 ?_ (fun _ _ => ?_)
    | refine KeepsO.bind0 (fun _ => ?_)
    | refine KeepsO1.bind ?_ (fun _ _ => ?_)
    | refine KeepsO1.bind1 ?_ (fun _ _ => ?_)
    | refine KeepsO1.bind0 (fun _ => ?_)
    | refine Keeps.foldl (fun _ _ _ => ?_) _ ?_
    | refine Keeps.foldl1 (fun _ _ _ => ?_) _ ?_
    | refine Keeps.fst (by assumption) ?_
    | refine Keeps.snd (by assumption) ?_
    | refine Keeps.get (by assumption) ?_
    | refine Keeps.get1 (by assumption) ?_
    | refine Keeps.get1' (by assumption) ?_
    | refine Keeps.ok (by assumption) ?_
    | refine Keeps.ok1 (by assumption) ?_
    | split

theorem rebuildHub_keeps {a0 : State} (s : State) (h : Nat) (h0 : Keeps a0 s) : Keeps a0 (rebuildHub s h) := by
  unfold rebuildHub
  try dsimp only
  with_reducible repeat' first
    | assumption
    | rfl
    | apply modChive_keeps
    | apply bumpBy_keeps
    | apply dropConn_keeps
    | refine KeepsO.map ?_ (fun _ _ => ?_)
    | refine KeepsO.map1 ?_ (fun _ _ => ?_)
    | refine KeepsO.map0 (fun _ => ?_)
    | refine KeepsO1.map ?_ (fun _ _ => ?_)
    | refine KeepsO1.map1 ?_ (fun _ _ => ?_)
    | refine KeepsO1.map0 (fun _ => ?_)
    | refine Keeps.foldl (fun _ _ _ => ?_) _ ?_
    | refine Keeps.foldl1 (fun _ _ _ => ?_) _ ?_
    | split

theorem execUnitReturn_keeps {a0 : State} (unit : Unit_) (s : State) (h0 : Keeps a0 s) : KeepsN a0 (execUnitReturn unit s) := by
  unfold execUnitReturn
  try dsimp only
  with_reducible repeat' first
    | assumption
    | rfl
    | apply KeepsN.next
    | apply KeepsN.fault
    | apply modSlice_keeps
    | apply startVerify_keeps
    | apply verifySlice_keeps
    | apply modHub_keeps
    | apply rebuildHub_keeps
    | apply modLife_keeps
    | apply readHead_keeps
    | apply modLedg_keeps
    | apply dropEntry_keeps
    | refine KeepsO.map ?_ (fun _ _ => ?_)
    | refine KeepsO.map1 ?_ (fun _ _ => ?_)
    | refine KeepsO.map0 (fun _ => ?_)
    | refine KeepsO1.map ?_ (fun _ _ => ?_)
    | refine KeepsO1.map1 ?_ (fun _ _ => ?_)
    | refine KeepsO1.map0 (fun _ => ?_)
    | refine Keeps.foldl (fun _ _ _ => ?_) _ ?_
    | refine Keeps.foldl1 (fun _ _ _ => ?_) _ ?_
    | refine Keeps.fst (by assumption) ?_
    | refine Keeps.snd (by assumption) ?_
    | refine Keeps.get (by assumption) ?_
    | refine Keeps.get1 (by assumption) ?_
    | refine Keeps.get1' (by assumption) ?_
    | refine KeepsN.get (by assumption) ?_
    | refine Keeps.ok (by assumption) ?_
    | refine Keeps.ok1 (by assumption) ?_
    | split

end Sys2Proof.Laws
end

