-- ==== Sys2Proof/Laws/KeepsTraffic.lean ====
section
/-!
SUPPORT. The operations of Machine/Traffic.lean keep what Laws/Keeps.lean says.
-/
namespace Sys2Proof.Laws
open Sys2Proof.Machine

theorem settlePolicers_keeps {a0 : State} (s : State) (h : Nat) (k0 : Nat) (h0 : Keeps a0 s) : Keeps a0 (settlePolicers s h k0) := by
  unfold settlePolicers
  try dsimp only
  with_reducible repeat' first
    | assumption
    | rfl
    | apply modTraf_keeps
    | refine KeepsO.map ?_ (fun _ _ => ?_)
    | refine KeepsO.map1 ?_ (fun _ _ => ?_)
    | refine KeepsO.map0 (fun _ => ?_)
    | refine KeepsO1.map ?_ (fun _ _ => ?_)
    | refine KeepsO1.map1 ?_ (fun _ _ => ?_)
    | refine KeepsO1.map0 (fun _ => ?_)
    | split

theorem applyWrite_keeps {a0 : State} (h : Nat) (s : State) (w : Reg × Nat × Nat × Nat) (h0 : Keeps a0 s) : Keeps a0 (applyWrite h s w) := by
  unfold applyWrite
  try dsimp only
  with_reducible repeat' first
    | assumption
    | rfl
    | apply modTraf_keeps
    | apply rset_keeps
    | split

theorem applyHeld_keeps {a0 : State} (s : State) (h : Nat) (k0 : Nat) (h0 : Keeps a0 s) : Keeps a0 (applyHeld s h k0) := by
  unfold applyHeld
  try dsimp only
  with_reducible repeat' first
    | assumption
    | rfl
    | apply settlePolicers_keeps
    | apply modTraf_keeps
    | apply applyWrite_keeps
    | refine KeepsO.map ?_ (fun _ _ => ?_)
    | refine KeepsO.map1 ?_ (fun _ _ => ?_)
    | refine KeepsO.map0 (fun _ => ?_)
    | refine KeepsO1.map ?_ (fun _ _ => ?_)
    | refine KeepsO1.map1 ?_ (fun _ _ => ?_)
    | refine KeepsO1.map0 (fun _ => ?_)
    | refine Keeps.foldl (fun _ _ _ => ?_) _ ?_
    | refine Keeps.foldl1 (fun _ _ _ => ?_) _ ?_
    | split

theorem refillShapers_keeps {a0 : State} (s : State) (h : Nat) (n : Nat) (h0 : Keeps a0 s) : Keeps a0 (refillShapers s h n) := by
  unfold refillShapers
  try dsimp only
  with_reducible repeat' first
    | assumption
    | rfl
    | apply modTraf_keeps
    | refine KeepsO.map ?_ (fun _ _ => ?_)
    | refine KeepsO.map1 ?_ (fun _ _ => ?_)
    | refine KeepsO.map0 (fun _ => ?_)
    | refine KeepsO1.map ?_ (fun _ _ => ?_)
    | refine KeepsO1.map1 ?_ (fun _ _ => ?_)
    | refine KeepsO1.map0 (fun _ => ?_)
    | split

theorem refillTo_keeps {a0 : State} (s : State) (h : Nat) (h0 : Keeps a0 s) : Keeps a0 (refillTo s h) := by
  unfold refillTo
  try dsimp only
  with_reducible repeat' first
    | assumption
    | rfl
    | apply refillShapers_keeps
    | apply applyHeld_keeps
    | apply modTraf_keeps
    | refine KeepsO.getD ?_ ?_
    | refine KeepsO1.getD ?_ ?_
    | split

theorem holdWrite_keeps {a0 : State} (s : State) (r : Reg) (inst : Nat) (idx : Nat) (v : Nat) (h0 : Keeps a0 s) : Keeps a0 (holdWrite s r inst idx v) := by
  unfold holdWrite
  try dsimp only
  with_reducible repeat' first
    | assumption
    | rfl
    | apply refillTo_keeps
    | apply modTraf_keeps
    | refine Keeps.foldl (fun _ _ _ => ?_) _ ?_
    | refine Keeps.foldl1 (fun _ _ _ => ?_) _ ?_
    | split

theorem meter_keeps {a0 : State} (s : State) (h : Nat) (key : Nat) (bytes : Nat) (h0 : Keeps a0 s) : Keeps a0 (meter s h key bytes).1 := by
  unfold meter
  try dsimp only
  with_reducible repeat' first
    | assumption
    | rfl
    | apply refillTo_keeps
    | apply bump_keeps
    | apply modTraf_keeps
    | refine Keeps.fst (by assumption) ?_
    | refine Keeps.snd (by assumption) ?_
    | refine Keeps.get (by assumption) ?_
    | refine Keeps.get1 (by assumption) ?_
    | refine Keeps.get1' (by assumption) ?_
    | refine Keeps.ok (by assumption) ?_
    | refine Keeps.ok1 (by assumption) ?_
    | split

theorem orderEight_keeps {a0 : State} (s : State) (h : Nat) (key : Nat) (cls : Nat) (charge : Nat) (metered : Bool) (h0 : Keeps a0 s) : Keeps a0 (orderEight s h key cls charge metered).1 := by
  unfold orderEight
  try dsimp only
  with_reducible repeat' first
    | assumption
    | rfl
    | apply bump_keeps
    | apply refillTo_keeps
    | apply meter_keeps
    | refine Keeps.fst (by assumption) ?_
    | refine Keeps.snd (by assumption) ?_
    | refine Keeps.get (by assumption) ?_
    | refine Keeps.get1 (by assumption) ?_
    | refine Keeps.get1' (by assumption) ?_
    | refine Keeps.ok (by assumption) ?_
    | refine Keeps.ok1 (by assumption) ?_
    | split

theorem modGates_keeps {a0 : State} (s : State) (h : Nat) (u : Nat) (f : Gates → Gates) (h0 : Keeps a0 s) : Keeps a0 (modGates s h u f) := by
  unfold modGates
  try dsimp only
  with_reducible repeat' first
    | assumption
    | rfl
    | apply modTraf_keeps
    | split

theorem commitGates_keeps {a0 : State} (s : State) (h : Nat) (h0 : Keeps a0 s) : Keeps a0 (commitGates s h).1 := by
  unfold commitGates
  try dsimp only
  with_reducible repeat' first
    | assumption
    | rfl
    | apply KeepsO.some
    | exact KeepsO.none
    | apply KeepsO1.some
    | apply KeepsO1.some'
    | exact KeepsO1.none
    | apply KeepsE.ok
    | exact KeepsE.error
    | apply KeepsE1.ok
    | exact KeepsE1.error
    | apply rset_keeps
    | apply modGates_keeps
    | refine KeepsO.map ?_ (fun _ _ => ?_)
    | refine KeepsO.map1 ?_ (fun _ _ => ?_)
    | refine KeepsO.map0 (fun _ => ?_)
    | refine KeepsO1.map ?_ (fun _ _ => ?_)
    | refine KeepsO1.map1 ?_ (fun _ _ => ?_)
    | refine KeepsO1.map0 (fun _ => ?_)
    | refine KeepsE.map ?_ (fun _ _ => ?_)
    | refine KeepsE.map1 ?_ (fun _ _ => ?_)
    | refine KeepsE.map0 (fun _ => ?_)
    | refine KeepsE1.map ?_ (fun _ _ => ?_)
    | refine KeepsE1.map1 ?_ (fun _ _ => ?_)
    | refine KeepsE1.map0 (fun _ => ?_)
    | split

theorem execGateListCommit_keeps {a0 : State} (hub : Hub) (s : State) (h0 : Keeps a0 s) : KeepsN a0 (execGateListCommit hub s) := by
  unfold execGateListCommit
  try dsimp only
  with_reducible repeat' first
    | assumption
    | rfl
    | apply KeepsN.next
    | apply KeepsN.fault
    | apply commitGates_keeps
    | apply writeRefused_keeps
    | split

theorem execGateListSwitch_keeps {a0 : State} (hub : Hub) (sub : Sub) (s : State) (h0 : Keeps a0 s) : KeepsN a0 (execGateListSwitch hub sub s) := by
  unfold execGateListSwitch
  try dsimp only
  with_reducible repeat' first
    | assumption
    | rfl
    | apply KeepsN.next
    | apply KeepsN.fault
    | apply KeepsO.some
    | exact KeepsO.none
    | apply KeepsO1.some
    | apply KeepsO1.some'
    | exact KeepsO1.none
    | apply refillTo_keeps
    | apply passTo_keeps
    | apply bump_keeps
    | apply modGates_keeps
    | refine Keeps.fst (by assumption) ?_
    | refine Keeps.snd (by assumption) ?_
    | refine Keeps.get (by assumption) ?_
    | refine Keeps.get1 (by assumption) ?_
    | refine Keeps.get1' (by assumption) ?_
    | refine KeepsN.get (by assumption) ?_
    | refine Keeps.ok (by assumption) ?_
    | refine Keeps.ok1 (by assumption) ?_
    | split

theorem execGateEntryAdvance_keeps {a0 : State} (hub : Hub) (sub : Sub) (s : State) (h0 : Keeps a0 s) : KeepsN a0 (execGateEntryAdvance hub sub s) := by
  unfold execGateEntryAdvance
  try dsimp only
  with_reducible repeat' first
    | assumption
    | rfl
    | apply KeepsN.next
    | apply KeepsN.fault
    | apply KeepsO.some
    | exact KeepsO.none
    | apply KeepsO1.some
    | apply KeepsO1.some'
    | exact KeepsO1.none
    | apply passTo_keeps
    | apply modGates_keeps
    | refine Keeps.fst (by assumption) ?_
    | refine Keeps.snd (by assumption) ?_
    | refine Keeps.get (by assumption) ?_
    | refine Keeps.get1 (by assumption) ?_
    | refine Keeps.get1' (by assumption) ?_
    | refine KeepsN.get (by assumption) ?_
    | refine Keeps.ok (by assumption) ?_
    | refine Keeps.ok1 (by assumption) ?_
    | split

theorem execBucketRefill_keeps {a0 : State} (hub : Hub) (s : State) (h0 : Keeps a0 s) : KeepsN a0 (execBucketRefill hub s) := by
  unfold execBucketRefill
  try dsimp only
  with_reducible repeat' first
    | assumption
    | rfl
    | apply KeepsN.next
    | apply KeepsN.fault
    | apply refillTo_keeps
    | apply passTo_keeps
    | refine KeepsO.getD ?_ ?_
    | refine KeepsO1.getD ?_ ?_
    | split

theorem passTurn_keeps {a0 : State} (s : State) (h : Nat) (u : Nat) (h0 : Keeps a0 s) : Keeps a0 (passTurn s h u) := by
  unfold passTurn
  try dsimp only
  with_reducible repeat' first
    | assumption
    | rfl
    | apply modTraf_keeps
    | refine KeepsO.getD ?_ ?_
    | refine KeepsO1.getD ?_ ?_
    | split

theorem sendSeg_keeps {a0 : State} (s : State) (h : Nat) (u : Nat) (i : Nat) (e : EgSeg) (sa : SecAssoc) (h0 : Keeps a0 s) : Keeps a0 (sendSeg s h u i e sa) := by
  unfold sendSeg
  try dsimp only
  with_reducible repeat' first
    | assumption
    | rfl
    | apply KeepsO.some
    | exact KeepsO.none
    | apply KeepsO1.some
    | apply KeepsO1.some'
    | exact KeepsO1.none
    | apply modConn_keeps
    | apply modTraf_keeps
    | apply emptied_keeps
    | apply modFab_keeps
    | apply settleConn_keeps
    | apply passTurn_keeps
    | apply emit_keeps
    | refine Keeps.fst (by assumption) ?_
    | refine Keeps.snd (by assumption) ?_
    | refine Keeps.get (by assumption) ?_
    | refine Keeps.get1 (by assumption) ?_
    | refine Keeps.get1' (by assumption) ?_
    | refine Keeps.ok (by assumption) ?_
    | refine Keeps.ok1 (by assumption) ?_
    | split

theorem execEgressFrameOpportunity_keeps {a0 : State} (hub : Hub) (sub : Sub) (s : State) (h0 : Keeps a0 s) : KeepsN a0 (execEgressFrameOpportunity hub sub s) := by
  unfold execEgressFrameOpportunity
  try dsimp only
  with_reducible repeat' first
    | assumption
    | rfl
    | apply KeepsN.next
    | apply KeepsN.fault
    | apply KeepsO.some
    | exact KeepsO.none
    | apply KeepsO1.some
    | apply KeepsO1.some'
    | exact KeepsO1.none
    | refine KeepsO.foldl (fun _ _ _ => ?_) _ ?_
    | refine KeepsO1.foldl (fun _ _ _ => ?_) _ ?_
    | apply refillTo_keeps
    | apply passTurn_keeps
    | apply keepEgress_keeps
    | apply modFab_keeps
    | apply sendSeg_keeps
    | apply modTraf_keeps
    | refine KeepsO.bind ?_ (fun _ _ => ?_)
    | refine KeepsO.bind1 ?_ (fun _ _ => ?_)
    | refine KeepsO.bind0 (fun _ => ?_)
    | refine KeepsO1.bind ?_ (fun _ _ => ?_)
    | refine KeepsO1.bind1 ?_ (fun _ _ => ?_)
    | refine KeepsO1.bind0 (fun _ => ?_)
    | refine KeepsO.getD ?_ ?_
    | refine KeepsO1.getD ?_ ?_
    | refine Keeps.foldl (fun _ _ _ => ?_) _ ?_
    | refine Keeps.foldl1 (fun _ _ _ => ?_) _ ?_
    | refine Keeps.fst (by assumption) ?_
    | refine Keeps.snd (by assumption) ?_
    | refine Keeps.get (by assumption) ?_
    | refine Keeps.get1 (by assumption) ?_
    | refine Keeps.get1' (by assumption) ?_
    | refine KeepsN.get (by assumption) ?_
    | refine Keeps.ok (by assumption) ?_
    | refine Keeps.ok1 (by assumption) ?_
    | split

end Sys2Proof.Laws
end

