-- ==== Sys2Proof/Laws/KeepsAttend.lean ====
section
/-!
SUPPORT. The operations of Machine/Attend.lean keep what Laws/Keeps.lean says.
-/
namespace Sys2Proof.Laws
open Sys2Proof.Machine

theorem deltaPage_keeps {a0 : State} (s : State) (k : Nat) (d : Desc) (x : Pat) (kv : Nat) (layer : Nat) (page : Nat) (h0 : Keeps a0 s) : Keeps a0 (deltaPage s k d x kv layer page).1 := by
  unfold deltaPage
  try dsimp only
  with_reducible repeat' first
    | assumption
    | rfl
    | apply KeepsO.some
    | exact KeepsO.none
    | apply KeepsO1.some
    | apply KeepsO1.some'
    | exact KeepsO1.none
    | apply KeepsE.ok
    | exact KeepsE.error
    | apply KeepsE1.ok
    | exact KeepsE1.error
    | apply modSeqs_keeps
    | apply load_keeps
    | apply expandDelta_keeps
    | apply sramGet_keeps
    | apply poke_keeps
    | refine Keeps.fst (by assumption) ?_
    | refine Keeps.snd (by assumption) ?_
    | refine Keeps.get (by assumption) ?_
    | refine Keeps.get1 (by assumption) ?_
    | refine Keeps.get1' (by assumption) ?_
    | refine Keeps.ok (by assumption) ?_
    | refine Keeps.ok1 (by assumption) ?_
    | split

theorem tailPage_keeps {a0 : State} (s : State) (d : Desc) (x : Pat) (key : TailKey) (h0 : Keeps a0 s) : Keeps a0 (tailPage s d x key).1 := by
  unfold tailPage
  try dsimp only
  with_reducible repeat' first
    | assumption
    | rfl
    | apply KeepsO.some
    | exact KeepsO.none
    | apply KeepsO1.some
    | apply KeepsO1.some'
    | exact KeepsO1.none
    | apply KeepsE.ok
    | exact KeepsE.error
    | apply KeepsE1.ok
    | exact KeepsE1.error
    | apply loadTail_keeps
    | refine KeepsO.map ?_ (fun _ _ => ?_)
    | refine KeepsO.map1 ?_ (fun _ _ => ?_)
    | refine KeepsO.map0 (fun _ => ?_)
    | refine KeepsO1.map ?_ (fun _ _ => ?_)
    | refine KeepsO1.map1 ?_ (fun _ _ => ?_)
    | refine KeepsO1.map0 (fun _ => ?_)
    | refine KeepsE.map ?_ (fun _ _ => ?_)
    | refine KeepsE.map1 ?_ (fun _ _ => ?_)
    | refine KeepsE.map0 (fun _ => ?_)
    | refine KeepsE1.map ?_ (fun _ _ => ?_)
    | refine KeepsE1.map1 ?_ (fun _ _ => ?_)
    | refine KeepsE1.map0 (fun _ => ?_)
    | refine Keeps.fst (by assumption) ?_
    | refine Keeps.snd (by assumption) ?_
    | refine Keeps.get (by assumption) ?_
    | refine Keeps.get1 (by assumption) ?_
    | refine Keeps.get1' (by assumption) ?_
    | refine Keeps.ok (by assumption) ?_
    | refine Keeps.ok1 (by assumption) ?_
    | split

theorem badRefs_keeps {a0 : State} (s : State) (r : Root) (h0 : Keeps a0 s) : Keeps a0 (badRefs s r).1 := by
  unfold badRefs
  try dsimp only
  with_reducible repeat' first
    | assumption
    | rfl
    | apply KeepsO.some
    | exact KeepsO.none
    | apply KeepsO1.some
    | apply KeepsO1.some'
    | exact KeepsO1.none
    | refine KeepsO.foldl (fun _ _ _ => ?_) _ ?_
    | refine KeepsO1.foldl (fun _ _ _ => ?_) _ ?_
    | apply load_keeps
    | refine KeepsO.getD ?_ ?_
    | refine KeepsO1.getD ?_ ?_
    | refine Keeps.foldl (fun _ _ _ => ?_) _ ?_
    | refine Keeps.foldl1 (fun _ _ _ => ?_) _ ?_
    | refine Keeps.fst (by assumption) ?_
    | refine Keeps.snd (by assumption) ?_
    | refine Keeps.get (by assumption) ?_
    | refine Keeps.get1 (by assumption) ?_
    | refine Keeps.get1' (by assumption) ?_
    | refine Keeps.ok (by assumption) ?_
    | refine Keeps.ok1 (by assumption) ?_
    | split

theorem headPages_keeps {a0 : State} (s : State) (i : Nat) (k : Nat) (d : Desc) (a : Att) (x : Pat) (off : Nat) (kv : Nat) (h0 : Keeps a0 s) : Keeps a0 (headPages s i k d a x off kv).1 := by
  unfold headPages
  try dsimp only
  with_reducible repeat' first
    | assumption
    | rfl
    | apply KeepsO.some
    | exact KeepsO.none
    | apply KeepsO1.some
    | apply KeepsO1.some'
    | exact KeepsO1.none
    | refine KeepsO.foldl (fun _ _ _ => ?_) _ ?_
    | refine KeepsO1.foldl (fun _ _ _ => ?_) _ ?_
    | apply deltaPage_keeps
    | apply badRefs_keeps
    | apply tailPage_keeps
    | refine Keeps.foldl (fun _ _ _ => ?_) _ ?_
    | refine Keeps.foldl1 (fun _ _ _ => ?_) _ ?_
    | refine Keeps.fst (by assumption) ?_
    | refine Keeps.snd (by assumption) ?_
    | refine Keeps.get (by assumption) ?_
    | refine Keeps.get1 (by assumption) ?_
    | refine Keeps.get1' (by assumption) ?_
    | refine Keeps.ok (by assumption) ?_
    | refine Keeps.ok1 (by assumption) ?_
    | split

theorem noteOpen_keeps {a0 : State} (s : State) (k : Nat) (lpn : Nat) (h0 : Keeps a0 s) : Keeps a0 (noteOpen s k lpn) := by
  unfold noteOpen
  try dsimp only
  with_reducible repeat' first
    | assumption
    | rfl
    | apply modMem_keeps
    | refine KeepsO.getD ?_ ?_
    | refine KeepsO1.getD ?_ ?_
    | split

theorem settleRead_keeps {a0 : State} (s : State) (i : Nat) (k : Nat) (d : Desc) (pairs : List Nat) (lpn : Nat) (h0 : Keeps a0 s) : Keeps a0 (settleRead s i k d pairs lpn) := by
  unfold settleRead
  try dsimp only
  with_reducible repeat' first
    | assumption
    | rfl
    | apply KeepsO.some
    | exact KeepsO.none
    | apply KeepsO1.some
    | apply KeepsO1.some'
    | exact KeepsO1.none
    | apply noteOpen_keeps
    | apply readPage_keeps
    | refine Keeps.fst (by assumption) ?_
    | refine Keeps.snd (by assumption) ?_
    | refine Keeps.get (by assumption) ?_
    | refine Keeps.get1 (by assumption) ?_
    | refine Keeps.get1' (by assumption) ?_
    | refine Keeps.ok (by assumption) ?_
    | refine Keeps.ok1 (by assumption) ?_
    | split

theorem useSketch_keeps {a0 : State} (s : State) (k : Nat) (lpn : Nat) (h0 : Keeps a0 s) : Keeps a0 (useSketch s k lpn).1 := by
  unfold useSketch
  try dsimp only
  with_reducible repeat' first
    | assumption
    | rfl
    | apply KeepsO.some
    | exact KeepsO.none
    | apply KeepsO1.some
    | apply KeepsO1.some'
    | exact KeepsO1.none
    | apply modMem_keeps
    | apply bump_keeps
    | refine Keeps.fst (by assumption) ?_
    | refine Keeps.snd (by assumption) ?_
    | refine Keeps.get (by assumption) ?_
    | refine Keeps.get1 (by assumption) ?_
    | refine Keeps.get1' (by assumption) ?_
    | refine Keeps.ok (by assumption) ?_
    | refine Keeps.ok1 (by assumption) ?_
    | split

theorem readSketch_keeps {a0 : State} (s : State) (g : PGeom) (lpn : Nat) (h0 : Keeps a0 s) : Keeps a0 (readSketch s g lpn) := by
  unfold readSketch
  try dsimp only
  with_reducible repeat' first
    | assumption
    | rfl
    | apply load_keeps
    | split

theorem settleBound_keeps {a0 : State} (s : State) (k : Nat) (d : Desc) (lpn : Nat) (h0 : Keeps a0 s) : Keeps a0 (settleBound s k d lpn) := by
  unfold settleBound
  try dsimp only
  with_reducible repeat' first
    | assumption
    | rfl
    | apply useSketch_keeps
    | apply readSketch_keeps
    | refine Keeps.fst (by assumption) ?_
    | refine Keeps.snd (by assumption) ?_
    | refine Keeps.get (by assumption) ?_
    | refine Keeps.get1 (by assumption) ?_
    | refine Keeps.get1' (by assumption) ?_
    | refine Keeps.ok (by assumption) ?_
    | refine Keeps.ok1 (by assumption) ?_
    | split

theorem prefetchSketch_keeps {a0 : State} (s : State) (k : Nat) (lpn : Nat) (gen : Nat) (size : Nat) (h0 : Keeps a0 s) : Keeps a0 (prefetchSketch s k lpn gen size) := by
  unfold prefetchSketch
  try dsimp only
  with_reducible repeat' first
    | assumption
    | rfl
    | apply modMem_keeps
    | split

theorem prefetchNext_keeps {a0 : State} (s : State) (i : Nat) (k : Nat) (d : Desc) (a : Att) (h0 : Keeps a0 s) : Keeps a0 (prefetchNext s i k d a) := by
  unfold prefetchNext
  try dsimp only
  with_reducible repeat' first
    | assumption
    | rfl
    | apply KeepsE.ok
    | exact KeepsE.error
    | apply KeepsE1.ok
    | exact KeepsE1.error
    | refine KeepsE.foldl (fun _ _ _ => ?_) _ ?_
    | refine KeepsE1.foldl (fun _ _ _ => ?_) _ ?_
    | apply allocSram_keeps
    | apply reloadTail_keeps
    | apply prefetchSketch_keeps
    | apply readSketch_keeps
    | refine Keeps.foldl (fun _ _ _ => ?_) _ ?_
    | refine Keeps.foldl1 (fun _ _ _ => ?_) _ ?_
    | refine Keeps.fst (by assumption) ?_
    | refine Keeps.snd (by assumption) ?_
    | refine Keeps.get (by assumption) ?_
    | refine Keeps.get1 (by assumption) ?_
    | refine Keeps.get1' (by assumption) ?_
    | refine Keeps.ok (by assumption) ?_
    | refine Keeps.ok1 (by assumption) ?_
    | split

theorem scanSlice_keeps {a0 : State} (s : State) (i : Nat) (k : Nat) (d : Desc) (a : Att) (x : Pat) (q : AttQ) (h0 : Keeps a0 s) : Keeps a0 (scanSlice s i k d a x q).1 := by
  unfold scanSlice
  try dsimp only
  with_reducible repeat' first
    | assumption
    | rfl
    | apply headPages_keeps
    | apply settleRead_keeps
    | apply useSketch_keeps
    | apply settleBound_keeps
    | apply modMeter_keeps
    | apply prefetchNext_keeps
    | refine KeepsO.map ?_ (fun _ _ => ?_)
    | refine KeepsO.map1 ?_ (fun _ _ => ?_)
    | refine KeepsO.map0 (fun _ => ?_)
    | refine KeepsO1.map ?_ (fun _ _ => ?_)
    | refine KeepsO1.map1 ?_ (fun _ _ => ?_)
    | refine KeepsO1.map0 (fun _ => ?_)
    | refine Keeps.foldl (fun _ _ _ => ?_) _ ?_
    | refine Keeps.foldl1 (fun _ _ _ => ?_) _ ?_
    | refine Keeps.fst (by assumption) ?_
    | refine Keeps.snd (by assumption) ?_
    | refine Keeps.get (by assumption) ?_
    | refine Keeps.get1 (by assumption) ?_
    | refine Keeps.get1' (by assumption) ?_
    | refine Keeps.ok (by assumption) ?_
    | refine Keeps.ok1 (by assumption) ?_
    | split

theorem runKernel_keeps {a0 : State} (s : State) (i : Nat) (k : Nat) (d : Desc) (a : Att) (x : Pat) (q : AttQ) (prog : Option Nat) (h0 : Keeps a0 s) : Keeps a0 (runKernel s i k d a x q prog).1 := by
  unfold runKernel
  try dsimp only
  with_reducible repeat' first
    | assumption
    | rfl
    | apply KeepsO.some
    | exact KeepsO.none
    | apply KeepsO1.some
    | apply KeepsO1.some'
    | exact KeepsO1.none
    | apply scanSlice_keeps
    | apply modMeter_keeps
    | apply prefetchNext_keeps
    | refine KeepsO.map ?_ (fun _ _ => ?_)
    | refine KeepsO.map1 ?_ (fun _ _ => ?_)
    | refine KeepsO.map0 (fun _ => ?_)
    | refine KeepsO1.map ?_ (fun _ _ => ?_)
    | refine KeepsO1.map1 ?_ (fun _ _ => ?_)
    | refine KeepsO1.map0 (fun _ => ?_)
    | refine Keeps.fst (by assumption) ?_
    | refine Keeps.snd (by assumption) ?_
    | refine Keeps.get (by assumption) ?_
    | refine Keeps.get1 (by assumption) ?_
    | refine Keeps.get1' (by assumption) ?_
    | refine Keeps.ok (by assumption) ?_
    | refine Keeps.ok1 (by assumption) ?_
    | split

theorem runScan_keeps {a0 : State} (s : State) (ctx : Nat) (k : Nat) (e : Nat) (m : Msg) (i : Nat) (d : Desc) (h0 : Keeps a0 s) : Keeps a0 (runScan s ctx k e m i d) := by
  unfold runScan
  try dsimp only
  with_reducible repeat' first
    | assumption
    | rfl
    | apply runKernel_keeps
    | apply pauseAfter_keeps
    | apply modMerge_keeps
    | refine KeepsO.getD ?_ ?_
    | refine KeepsO1.getD ?_ ?_
    | refine Keeps.fst (by assumption) ?_
    | refine Keeps.snd (by assumption) ?_
    | refine Keeps.get (by assumption) ?_
    | refine Keeps.get1 (by assumption) ?_
    | refine Keeps.get1' (by assumption) ?_
    | refine Keeps.ok (by assumption) ?_
    | refine Keeps.ok1 (by assumption) ?_
    | split

theorem scanAt_keeps {a0 : State} (s : State) (ctx : Nat) (i : Nat) (k : Nat) (m : Msg) (d : Desc) (h0 : Keeps a0 s) : Keeps a0 (scanAt s ctx i k m d) := by
  unfold scanAt
  try dsimp only
  with_reducible repeat' first
    | assumption
    | rfl
    | apply KeepsO.some
    | exact KeepsO.none
    | apply KeepsO1.some
    | apply KeepsO1.some'
    | exact KeepsO1.none
    | apply modMerge_keeps
    | apply runScan_keeps
    | apply fillSlot_keeps
    | refine Keeps.fst (by assumption) ?_
    | refine Keeps.snd (by assumption) ?_
    | refine Keeps.get (by assumption) ?_
    | refine Keeps.get1 (by assumption) ?_
    | refine Keeps.get1' (by assumption) ?_
    | refine Keeps.ok (by assumption) ?_
    | refine Keeps.ok1 (by assumption) ?_
    | split

theorem runHeld_keeps {a0 : State} (s : State) (p : HeldScan) (h0 : Keeps a0 s) : Keeps a0 (runHeld s p) := by
  unfold runHeld
  try dsimp only
  with_reducible repeat' first
    | assumption
    | rfl
    | apply KeepsO.some
    | exact KeepsO.none
    | apply KeepsO1.some
    | apply KeepsO1.some'
    | exact KeepsO1.none
    | apply modMerge_keeps
    | apply modEng_keeps
    | apply runScan_keeps
    | refine Keeps.fst (by assumption) ?_
    | refine Keeps.snd (by assumption) ?_
    | refine Keeps.get (by assumption) ?_
    | refine Keeps.get1 (by assumption) ?_
    | refine Keeps.get1' (by assumption) ?_
    | refine Keeps.ok (by assumption) ?_
    | refine Keeps.ok1 (by assumption) ?_
    | split

theorem issueHeld_keeps {a0 : State} (s : State) (k : Nat) (h0 : Keeps a0 s) : Keeps a0 (issueHeld s k) := by
  unfold issueHeld
  try dsimp only
  with_reducible repeat' first
    | assumption
    | rfl
    | apply KeepsO.some
    | exact KeepsO.none
    | apply KeepsO1.some
    | apply KeepsO1.some'
    | exact KeepsO1.none
    | refine KeepsO.foldl (fun _ _ _ => ?_) _ ?_
    | refine KeepsO1.foldl (fun _ _ _ => ?_) _ ?_
    | apply modMerge_keeps
    | apply fillSlot_keeps
    | refine KeepsO.bind ?_ (fun _ _ => ?_)
    | refine KeepsO.bind1 ?_ (fun _ _ => ?_)
    | refine KeepsO.bind0 (fun _ => ?_)
    | refine KeepsO1.bind ?_ (fun _ _ => ?_)
    | refine KeepsO1.bind1 ?_ (fun _ _ => ?_)
    | refine KeepsO1.bind0 (fun _ => ?_)
    | refine KeepsO.map ?_ (fun _ _ => ?_)
    | refine KeepsO.map1 ?_ (fun _ _ => ?_)
    | refine KeepsO.map0 (fun _ => ?_)
    | refine KeepsO1.map ?_ (fun _ _ => ?_)
    | refine KeepsO1.map1 ?_ (fun _ _ => ?_)
    | refine KeepsO1.map0 (fun _ => ?_)
    | refine Keeps.foldl (fun _ _ _ => ?_) _ ?_
    | refine Keeps.foldl1 (fun _ _ _ => ?_) _ ?_
    | refine Keeps.fst (by assumption) ?_
    | refine Keeps.snd (by assumption) ?_
    | refine Keeps.get (by assumption) ?_
    | refine Keeps.get1 (by assumption) ?_
    | refine Keeps.get1' (by assumption) ?_
    | refine Keeps.ok (by assumption) ?_
    | refine Keeps.ok1 (by assumption) ?_
    | split

theorem scheduleN_keeps {a0 : State} :
    ∀ (x0 : Nat) (x1 : State) (x2 : Nat), Keeps a0 x1 → Keeps a0 (scheduleN x0 x1 x2)
  | 0, _, _, h0 => by
    unfold scheduleN
    try dsimp only
    with_reducible repeat' first
      | assumption
      | rfl
      | apply KeepsO.some
      | exact KeepsO.none
      | apply KeepsO1.some
      | apply KeepsO1.some'
      | exact KeepsO1.none
      | apply runHeld_keeps
      | apply takeLane_keeps
      | refine Keeps.fst (by assumption) ?_
      | refine Keeps.snd (by assumption) ?_
      | refine Keeps.get (by assumption) ?_
      | refine Keeps.get1 (by assumption) ?_
      | refine Keeps.get1' (by assumption) ?_
      | refine Keeps.ok (by assumption) ?_
      | refine Keeps.ok1 (by assumption) ?_
      | split
  | n + 1, _, _, h0 => by
    unfold scheduleN
    try dsimp only
    with_reducible repeat' first
      | assumption
      | rfl
      | apply KeepsO.some
      | exact KeepsO.none
      | apply KeepsO1.some
      | apply KeepsO1.some'
      | exact KeepsO1.none
      | apply runHeld_keeps
      | apply takeLane_keeps
      | refine Keeps.fst (by assumption) ?_
      | refine Keeps.snd (by assumption) ?_
      | refine Keeps.get (by assumption) ?_
      | refine Keeps.get1 (by assumption) ?_
      | refine Keeps.get1' (by assumption) ?_
      | refine Keeps.ok (by assumption) ?_
      | refine Keeps.ok1 (by assumption) ?_
      | split
      | apply scheduleN_keeps

theorem schedule_keeps {a0 : State} (s : State) (k : Nat) (h0 : Keeps a0 s) : Keeps a0 (schedule s k) := by
  unfold schedule
  try dsimp only
  with_reducible repeat' first
    | assumption
    | rfl
    | apply scheduleN_keeps
    | apply issueHeld_keeps
    | split

theorem startAttend_keeps {a0 : State} (s : State) (id : Nat) (m : Msg) (a : Att) (i : Nat) (d : Desc) (h0 : Keeps a0 s) : Keeps a0 (startAttend s id m a i d) := by
  unfold startAttend
  try dsimp only
  with_reducible repeat' first
    | assumption
    | rfl
    | apply modDesc_keeps
    | apply modMeter_keeps
    | apply newId_keeps
    | apply modMerge_keeps
    | apply setPhase_keeps
    | apply scanAt_keeps
    | refine KeepsO.map ?_ (fun _ _ => ?_)
    | refine KeepsO.map1 ?_ (fun _ _ => ?_)
    | refine KeepsO.map0 (fun _ => ?_)
    | refine KeepsO1.map ?_ (fun _ _ => ?_)
    | refine KeepsO1.map1 ?_ (fun _ _ => ?_)
    | refine KeepsO1.map0 (fun _ => ?_)
    | refine Keeps.foldl (fun _ _ _ => ?_) _ ?_
    | refine Keeps.foldl1 (fun _ _ _ => ?_) _ ?_
    | refine Keeps.fst (by assumption) ?_
    | refine Keeps.snd (by assumption) ?_
    | refine Keeps.get (by assumption) ?_
    | refine Keeps.get1 (by assumption) ?_
    | refine Keeps.get1' (by assumption) ?_
    | refine Keeps.ok (by assumption) ?_
    | refine Keeps.ok1 (by assumption) ?_
    | split

theorem execAttend_keeps {a0 : State} (msg : Nat) (s : State) (h0 : Keeps a0 s) : KeepsN a0 (execAttend msg s) := by
  unfold execAttend
  try dsimp only
  with_reducible repeat' first
    | assumption
    | rfl
    | apply KeepsN.next
    | apply KeepsN.fault
    | apply KeepsO.some
    | exact KeepsO.none
    | apply KeepsO1.some
    | apply KeepsO1.some'
    | exact KeepsO1.none
    | apply refuseAttend_keeps
    | apply findSeq_keeps
    | apply startAttend_keeps
    | refine Keeps.fst (by assumption) ?_
    | refine Keeps.snd (by assumption) ?_
    | refine Keeps.get (by assumption) ?_
    | refine Keeps.get1 (by assumption) ?_
    | refine Keeps.get1' (by assumption) ?_
    | refine KeepsN.get (by assumption) ?_
    | refine Keeps.ok (by assumption) ?_
    | refine Keeps.ok1 (by assumption) ?_
    | split

theorem execSliceRecordArrival_keeps {a0 : State} (ctx : Nat) (slice : Slice) (s : State) (h0 : Keeps a0 s) : KeepsN a0 (execSliceRecordArrival ctx slice s) := by
  unfold execSliceRecordArrival
  try dsimp only
  with_reducible repeat' first
    | assumption
    | rfl
    | apply KeepsN.next
    | apply KeepsN.fault
    | apply KeepsO.some
    | exact KeepsO.none
    | apply KeepsO1.some
    | apply KeepsO1.some'
    | exact KeepsO1.none
    | apply modMerge_keeps
    | apply bump_keeps
    | apply closeChain_keeps
    | refine KeepsO.getD ?_ ?_
    | refine KeepsO1.getD ?_ ?_
    | refine KeepsO.map ?_ (fun _ _ => ?_)
    | refine KeepsO.map1 ?_ (fun _ _ => ?_)
    | refine KeepsO.map0 (fun _ => ?_)
    | refine KeepsO1.map ?_ (fun _ _ => ?_)
    | refine KeepsO1.map1 ?_ (fun _ _ => ?_)
    | refine KeepsO1.map0 (fun _ => ?_)
    | refine Keeps.fst (by assumption) ?_
    | refine Keeps.snd (by assumption) ?_
    | refine Keeps.get (by assumption) ?_
    | refine Keeps.get1 (by assumption) ?_
    | refine Keeps.get1' (by assumption) ?_
    | refine KeepsN.get (by assumption) ?_
    | refine Keeps.ok (by assumption) ?_
    | refine Keeps.ok1 (by assumption) ?_
    | split

theorem execQuadrantMergeClose_keeps {a0 : State} (ctx : Nat) (quad : Hub) (s : State) (h0 : Keeps a0 s) : KeepsN a0 (execQuadrantMergeClose ctx quad s) := by
  unfold execQuadrantMergeClose
  try dsimp only
  with_reducible repeat' first
    | assumption
    | rfl
    | apply KeepsN.next
    | apply KeepsN.fault
    | apply KeepsO.some
    | exact KeepsO.none
    | apply KeepsO1.some
    | apply KeepsO1.some'
    | exact KeepsO1.none
    | apply closeChain_keeps
    | apply passTo_keeps
    | refine KeepsO.bind ?_ (fun _ _ => ?_)
    | refine KeepsO.bind1 ?_ (fun _ _ => ?_)
    | refine KeepsO.bind0 (fun _ => ?_)
    | refine KeepsO1.bind ?_ (fun _ _ => ?_)
    | refine KeepsO1.bind1 ?_ (fun _ _ => ?_)
    | refine KeepsO1.bind0 (fun _ => ?_)
    | refine Keeps.fst (by assumption) ?_
    | refine Keeps.snd (by assumption) ?_
    | refine Keeps.get (by assumption) ?_
    | refine Keeps.get1 (by assumption) ?_
    | refine Keeps.get1' (by assumption) ?_
    | refine KeepsN.get (by assumption) ?_
    | refine Keeps.ok (by assumption) ?_
    | refine Keeps.ok1 (by assumption) ?_
    | split

theorem execQuadrantRecordArrival_keeps {a0 : State} (ctx : Nat) (quad : Hub) (s : State) (h0 : Keeps a0 s) : KeepsN a0 (execQuadrantRecordArrival ctx quad s) := by
  unfold execQuadrantRecordArrival
  try dsimp only
  with_reducible repeat' first
    | assumption
    | rfl
    | apply KeepsN.next
    | apply KeepsN.fault
    | apply KeepsO.some
    | exact KeepsO.none
    | apply KeepsO1.some
    | apply KeepsO1.some'
    | exact KeepsO1.none
    | apply modMerge_keeps
    | apply bump_keeps
    | apply closeMerge_keeps
    | refine KeepsO.map ?_ (fun _ _ => ?_)
    | refine KeepsO.map1 ?_ (fun _ _ => ?_)
    | refine KeepsO.map0 (fun _ => ?_)
    | refine KeepsO1.map ?_ (fun _ _ => ?_)
    | refine KeepsO1.map1 ?_ (fun _ _ => ?_)
    | refine KeepsO1.map0 (fun _ => ?_)
    | refine Keeps.fst (by assumption) ?_
    | refine Keeps.snd (by assumption) ?_
    | refine Keeps.get (by assumption) ?_
    | refine Keeps.get1 (by assumption) ?_
    | refine Keeps.get1' (by assumption) ?_
    | refine KeepsN.get (by assumption) ?_
    | refine Keeps.ok (by assumption) ?_
    | refine Keeps.ok1 (by assumption) ?_
    | split

theorem execIngressMergeDeadline_keeps {a0 : State} (ctx : Nat) (s : State) (h0 : Keeps a0 s) : KeepsN a0 (execIngressMergeDeadline ctx s) := by
  unfold execIngressMergeDeadline
  try dsimp only
  with_reducible repeat' first
    | assumption
    | rfl
    | apply KeepsN.next
    | apply KeepsN.fault
    | apply KeepsO.some
    | exact KeepsO.none
    | apply KeepsO1.some
    | apply KeepsO1.some'
    | exact KeepsO1.none
    | apply closeMerge_keeps
    | apply passTo_keeps
    | refine Keeps.fst (by assumption) ?_
    | refine Keeps.snd (by assumption) ?_
    | refine Keeps.get (by assumption) ?_
    | refine Keeps.get1 (by assumption) ?_
    | refine Keeps.get1' (by assumption) ?_
    | refine KeepsN.get (by assumption) ?_
    | refine Keeps.ok (by assumption) ?_
    | refine Keeps.ok1 (by assumption) ?_
    | split

theorem answerPart_keeps {a0 : State} (s : State) (id : Nat) (m : Msg) (st : Status) (h0 : Keeps a0 s) : Keeps a0 (answerPart s id m st) := by
  unfold answerPart
  try dsimp only
  with_reducible repeat' first
    | assumption
    | rfl
    | apply KeepsE.ok
    | exact KeepsE.error
    | apply KeepsE1.ok
    | exact KeepsE1.error
    | apply contribAnswered_keeps
    | apply dropMsg_keeps
    | apply answer_keeps
    | refine Keeps.fst (by assumption) ?_
    | refine Keeps.snd (by assumption) ?_
    | refine Keeps.get (by assumption) ?_
    | refine Keeps.get1 (by assumption) ?_
    | refine Keeps.get1' (by assumption) ?_
    | refine Keeps.ok (by assumption) ?_
    | refine Keeps.ok1 (by assumption) ?_
    | split

theorem refusePart_keeps {a0 : State} (s : State) (id : Nat) (m : Msg) (st : Status) (h0 : Keeps a0 s) : Keeps a0 (refusePart s id m st) := by
  unfold refusePart
  try dsimp only
  with_reducible repeat' first
    | assumption
    | rfl
    | apply answerPart_keeps
    | apply bump_keeps
    | split

theorem joinGroup_keeps {a0 : State} (s : State) (id : Nat) (m : Msg) (g : Group) (isNew : Bool) (p : PartHdr) (st : Status) (recs : List Rec) (h0 : Keeps a0 s) : Keeps a0 (joinGroup s id m g isNew p st recs) := by
  unfold joinGroup
  try dsimp only
  with_reducible repeat' first
    | assumption
    | rfl
    | apply KeepsO.some
    | exact KeepsO.none
    | apply KeepsO1.some
    | apply KeepsO1.some'
    | exact KeepsO1.none
    | apply KeepsE.ok
    | exact KeepsE.error
    | apply KeepsE1.ok
    | exact KeepsE1.error
    | apply refusePart_keeps
    | apply modMerge_keeps
    | apply modMeter_keeps
    | apply answerPart_keeps
    | apply closeGroup_keeps
    | refine KeepsO.map ?_ (fun _ _ => ?_)
    | refine KeepsO.map1 ?_ (fun _ _ => ?_)
    | refine KeepsO.map0 (fun _ => ?_)
    | refine KeepsO1.map ?_ (fun _ _ => ?_)
    | refine KeepsO1.map1 ?_ (fun _ _ => ?_)
    | refine KeepsO1.map0 (fun _ => ?_)
    | refine KeepsE.map ?_ (fun _ _ => ?_)
    | refine KeepsE.map1 ?_ (fun _ _ => ?_)
    | refine KeepsE.map0 (fun _ => ?_)
    | refine KeepsE1.map ?_ (fun _ _ => ?_)
    | refine KeepsE1.map1 ?_ (fun _ _ => ?_)
    | refine KeepsE1.map0 (fun _ => ?_)
    | refine Keeps.fst (by assumption) ?_
    | refine Keeps.snd (by assumption) ?_
    | refine Keeps.get (by assumption) ?_
    | refine Keeps.get1 (by assumption) ?_
    | refine Keeps.get1' (by assumption) ?_
    | refine Keeps.ok (by assumption) ?_
    | refine Keeps.ok1 (by assumption) ?_
    | split

theorem execPartialContribution_keeps {a0 : State} (msg : Nat) (s : State) (h0 : Keeps a0 s) : KeepsN a0 (execPartialContribution msg s) := by
  unfold execPartialContribution
  try dsimp only
  with_reducible repeat' first
    | assumption
    | rfl
    | apply KeepsN.next
    | apply KeepsN.fault
    | apply KeepsO.some
    | exact KeepsO.none
    | apply KeepsO1.some
    | apply KeepsO1.some'
    | exact KeepsO1.none
    | apply KeepsE.ok
    | exact KeepsE.error
    | apply KeepsE1.ok
    | exact KeepsE1.error
    | apply answerPart_keeps
    | apply bump_keeps
    | apply refusePart_keeps
    | apply joinGroup_keeps
    | refine KeepsO.map ?_ (fun _ _ => ?_)
    | refine KeepsO.map1 ?_ (fun _ _ => ?_)
    | refine KeepsO.map0 (fun _ => ?_)
    | refine KeepsO1.map ?_ (fun _ _ => ?_)
    | refine KeepsO1.map1 ?_ (fun _ _ => ?_)
    | refine KeepsO1.map0 (fun _ => ?_)
    | refine KeepsE.map ?_ (fun _ _ => ?_)
    | refine KeepsE.map1 ?_ (fun _ _ => ?_)
    | refine KeepsE.map0 (fun _ => ?_)
    | refine KeepsE1.map ?_ (fun _ _ => ?_)
    | refine KeepsE1.map1 ?_ (fun _ _ => ?_)
    | refine KeepsE1.map0 (fun _ => ?_)
    | refine Keeps.fst (by assumption) ?_
    | refine Keeps.snd (by assumption) ?_
    | refine Keeps.get (by assumption) ?_
    | refine Keeps.get1 (by assumption) ?_
    | refine Keeps.get1' (by assumption) ?_
    | refine KeepsN.get (by assumption) ?_
    | refine Keeps.ok (by assumption) ?_
    | refine Keeps.ok1 (by assumption) ?_
    | split

theorem execPartialResponse_keeps {a0 : State} (msg : Nat) (s : State) (h0 : Keeps a0 s) : KeepsN a0 (execPartialResponse msg s) := by
  unfold execPartialResponse
  try dsimp only
  with_reducible repeat' first
    | assumption
    | rfl
    | apply KeepsN.next
    | apply KeepsN.fault
    | apply KeepsO.some
    | exact KeepsO.none
    | apply KeepsO1.some
    | apply KeepsO1.some'
    | exact KeepsO1.none
    | apply KeepsE.ok
    | exact KeepsE.error
    | apply KeepsE1.ok
    | exact KeepsE1.error
    | apply takeAsk_keeps
    | apply dropMsg_keeps
    | apply contribAnswered_keeps
    | refine Keeps.fst (by assumption) ?_
    | refine Keeps.snd (by assumption) ?_
    | refine Keeps.get (by assumption) ?_
    | refine Keeps.get1 (by assumption) ?_
    | refine Keeps.get1' (by assumption) ?_
    | refine KeepsN.get (by assumption) ?_
    | refine Keeps.ok (by assumption) ?_
    | refine Keeps.ok1 (by assumption) ?_
    | split

theorem execGroupDeadline_keeps {a0 : State} (hub : Hub) (key : GroupKey) (s : State) (h0 : Keeps a0 s) : KeepsN a0 (execGroupDeadline hub key s) := by
  unfold execGroupDeadline
  try dsimp only
  with_reducible repeat' first
    | assumption
    | rfl
    | apply KeepsN.next
    | apply KeepsN.fault
    | apply KeepsO.some
    | exact KeepsO.none
    | apply KeepsO1.some
    | apply KeepsO1.some'
    | exact KeepsO1.none
    | apply closeGroup_keeps
    | apply passTo_keeps
    | refine Keeps.fst (by assumption) ?_
    | refine Keeps.snd (by assumption) ?_
    | refine Keeps.get (by assumption) ?_
    | refine Keeps.get1 (by assumption) ?_
    | refine Keeps.get1' (by assumption) ?_
    | refine KeepsN.get (by assumption) ?_
    | refine Keeps.ok (by assumption) ?_
    | refine Keeps.ok1 (by assumption) ?_
    | split

theorem execTombstoneExpiry_keeps {a0 : State} (hub : Hub) (key : GroupKey) (s : State) (h0 : Keeps a0 s) : KeepsN a0 (execTombstoneExpiry hub key s) := by
  unfold execTombstoneExpiry
  try dsimp only
  with_reducible repeat' first
    | assumption
    | rfl
    | apply KeepsN.next
    | apply KeepsN.fault
    | apply KeepsO.some
    | exact KeepsO.none
    | apply KeepsO1.some
    | apply KeepsO1.some'
    | exact KeepsO1.none
    | apply modMerge_keeps
    | apply passTo_keeps
    | refine Keeps.fst (by assumption) ?_
    | refine Keeps.snd (by assumption) ?_
    | refine Keeps.get (by assumption) ?_
    | refine Keeps.get1 (by assumption) ?_
    | refine Keeps.get1' (by assumption) ?_
    | refine KeepsN.get (by assumption) ?_
    | refine Keeps.ok (by assumption) ?_
    | refine Keeps.ok1 (by assumption) ?_
    | split

end Sys2Proof.Laws
end

