-- ==== Sys2Proof/Laws/KeepsAppend.lean ====
section
/-!
SUPPORT. The operations of Machine/Append.lean keep what Laws/Keeps.lean says.
-/
namespace Sys2Proof.Laws
open Sys2Proof.Machine

theorem appAnswer_keeps {a0 : State} (s : State) (id : Nat) (m : Msg) (st : Status) (sealed : Nat) (i : Nat) (named : List (Nat × Nat)) (h0 : Keeps a0 s) : Keeps a0 (appAnswer s id m st sealed i named) := by
  unfold appAnswer
  try dsimp only
  with_reducible repeat' first
    | assumption
    | rfl
    | apply KeepsO.some
    | exact KeepsO.none
    | apply KeepsO1.some
    | apply KeepsO1.some'
    | exact KeepsO1.none
    | apply answer_keeps
    | refine Keeps.fst (by assumption) ?_
    | refine Keeps.snd (by assumption) ?_
    | refine Keeps.get (by assumption) ?_
    | refine Keeps.get1 (by assumption) ?_
    | refine Keeps.get1' (by assumption) ?_
    | refine Keeps.ok (by assumption) ?_
    | refine Keeps.ok1 (by assumption) ?_
    | split

theorem appRefuse_keeps {a0 : State} (s : State) (id : Nat) (m : Msg) (st : Status) (h0 : Keeps a0 s) : Keeps a0 (appRefuse s id m st) := by
  unfold appRefuse
  try dsimp only
  with_reducible repeat' first
    | assumption
    | rfl
    | apply answer_keeps
    | split

theorem findActive_keeps {a0 : State} (s : State) (m : Msg) (a : App) (h0 : Keeps a0 s) : Keeps a0 (findActive s m a).1 := by
  unfold findActive
  try dsimp only
  with_reducible repeat' first
    | assumption
    | rfl
    | apply KeepsO.some
    | exact KeepsO.none
    | apply KeepsO1.some
    | apply KeepsO1.some'
    | exact KeepsO1.none
    | apply KeepsE.ok
    | exact KeepsE.error
    | apply KeepsE1.ok
    | exact KeepsE1.error
    | apply findSeq_keeps
    | refine Keeps.fst (by assumption) ?_
    | refine Keeps.snd (by assumption) ?_
    | refine Keeps.get (by assumption) ?_
    | refine Keeps.get1 (by assumption) ?_
    | refine Keeps.get1' (by assumption) ?_
    | refine Keeps.ok (by assumption) ?_
    | refine Keeps.ok1 (by assumption) ?_
    | split

theorem storeHead_keeps {a0 : State} :
    ∀ (i : Nat) (d : Desc) (layer : Nat) (kv : Nat) (waiter : Nat) (x0 : Nat) (x1 : State) (x2 : Nat) (x3 : List (List Byte × List Byte)) (x4 : List Nat) (x5 : Nat), Keeps a0 x1 → KeepsE1 a0 (storeHead i d layer kv waiter x0 x1 x2 x3 x4 x5)
  | _, _, _, _, _, 0, _, _, _, _, _, h0 => by
    unfold storeHead
    try dsimp only
    with_reducible repeat' first
      | assumption
      | rfl
      | apply KeepsE.ok
      | exact KeepsE.error
      | apply KeepsE1.ok
      | exact KeepsE1.error
      | apply residentTail_keeps
      | apply storeRows_keeps
      | apply freezeTail_keeps
      | refine KeepsO.bind ?_ (fun _ _ => ?_)
      | refine KeepsO.bind1 ?_ (fun _ _ => ?_)
      | refine KeepsO.bind0 (fun _ => ?_)
      | refine KeepsO1.bind ?_ (fun _ _ => ?_)
      | refine KeepsO1.bind1 ?_ (fun _ _ => ?_)
      | refine KeepsO1.bind0 (fun _ => ?_)
      | refine KeepsE.bind ?_ (fun _ _ => ?_)
      | refine KeepsE.bind1 ?_ (fun _ _ => ?_)
      | refine KeepsE.bind0 (fun _ => ?_)
      | refine KeepsE1.bind ?_ (fun _ _ => ?_)
      | refine KeepsE1.bind1 ?_ (fun _ _ => ?_)
      | refine KeepsE1.bind0 (fun _ => ?_)
      | split
  | _, _, _, _, _, n + 1, _, _, _, _, _, h0 => by
    unfold storeHead
    try dsimp only
    with_reducible repeat' first
      | assumption
      | rfl
      | apply KeepsE.ok
      | exact KeepsE.error
      | apply KeepsE1.ok
      | exact KeepsE1.error
      | apply residentTail_keeps
      | apply storeRows_keeps
      | apply freezeTail_keeps
      | refine KeepsO.bind ?_ (fun _ _ => ?_)
      | refine KeepsO.bind1 ?_ (fun _ _ => ?_)
      | refine KeepsO.bind0 (fun _ => ?_)
      | refine KeepsO1.bind ?_ (fun _ _ => ?_)
      | refine KeepsO1.bind1 ?_ (fun _ _ => ?_)
      | refine KeepsO1.bind0 (fun _ => ?_)
      | refine KeepsE.bind ?_ (fun _ _ => ?_)
      | refine KeepsE.bind1 ?_ (fun _ _ => ?_)
      | refine KeepsE.bind0 (fun _ => ?_)
      | refine KeepsE1.bind ?_ (fun _ _ => ?_)
      | refine KeepsE1.bind1 ?_ (fun _ _ => ?_)
      | refine KeepsE1.bind0 (fun _ => ?_)
      | split
      | apply storeHead_keeps

theorem bulkHead_keeps {a0 : State} :
    ∀ (i : Nat) (d : Desc) (layer : Nat) (kv : Nat) (waiter : Nat) (x0 : Nat) (x1 : State) (x2 : Nat) (x3 : List (List Byte × List Byte)) (x4 : List Nat) (x5 : Nat) (x6 : Nat), Keeps a0 x1 → KeepsE1 a0 (bulkHead i d layer kv waiter x0 x1 x2 x3 x4 x5 x6)
  | _, _, _, _, _, 0, _, _, _, _, _, _, h0 => by
    unfold bulkHead
    try dsimp only
    with_reducible repeat' first
      | assumption
      | rfl
      | apply KeepsE.ok
      | exact KeepsE.error
      | apply KeepsE1.ok
      | exact KeepsE1.error
      | apply queuePage_keeps
      | apply dropTail_keeps
      | apply residentTail_keeps
      | apply storeRows_keeps
      | apply freezeTail_keeps
      | refine KeepsO.bind ?_ (fun _ _ => ?_)
      | refine KeepsO.bind1 ?_ (fun _ _ => ?_)
      | refine KeepsO.bind0 (fun _ => ?_)
      | refine KeepsO1.bind ?_ (fun _ _ => ?_)
      | refine KeepsO1.bind1 ?_ (fun _ _ => ?_)
      | refine KeepsO1.bind0 (fun _ => ?_)
      | refine KeepsE.bind ?_ (fun _ _ => ?_)
      | refine KeepsE.bind1 ?_ (fun _ _ => ?_)
      | refine KeepsE.bind0 (fun _ => ?_)
      | refine KeepsE1.bind ?_ (fun _ _ => ?_)
      | refine KeepsE1.bind1 ?_ (fun _ _ => ?_)
      | refine KeepsE1.bind0 (fun _ => ?_)
      | split
  | _, _, _, _, _, n + 1, _, _, _, _, _, _, h0 => by
    unfold bulkHead
    try dsimp only
    with_reducible repeat' first
      | assumption
      | rfl
      | apply KeepsE.ok
      | exact KeepsE.error
      | apply KeepsE1.ok
      | exact KeepsE1.error
      | apply queuePage_keeps
      | apply dropTail_keeps
      | apply residentTail_keeps
      | apply storeRows_keeps
      | apply freezeTail_keeps
      | refine KeepsO.bind ?_ (fun _ _ => ?_)
      | refine KeepsO.bind1 ?_ (fun _ _ => ?_)
      | refine KeepsO.bind0 (fun _ => ?_)
      | refine KeepsO1.bind ?_ (fun _ _ => ?_)
      | refine KeepsO1.bind1 ?_ (fun _ _ => ?_)
      | refine KeepsO1.bind0 (fun _ => ?_)
      | refine KeepsE.bind ?_ (fun _ _ => ?_)
      | refine KeepsE.bind1 ?_ (fun _ _ => ?_)
      | refine KeepsE.bind0 (fun _ => ?_)
      | refine KeepsE1.bind ?_ (fun _ _ => ?_)
      | refine KeepsE1.bind1 ?_ (fun _ _ => ?_)
      | refine KeepsE1.bind0 (fun _ => ?_)
      | split
      | apply bulkHead_keeps

theorem applyRows_keeps {a0 : State} (s : State) (i : Nat) (d : Desc) (m : Msg) (a : App) (bulk : Bool) (waiter : Nat) (keys : List Nat) (rowBytes : List Byte) (h0 : Keeps a0 s) : KeepsE1 a0 (applyRows s i d m a bulk waiter keys rowBytes) := by
  unfold applyRows
  try dsimp only
  with_reducible repeat' first
    | assumption
    | rfl
    | apply KeepsE.ok
    | exact KeepsE.error
    | apply KeepsE1.ok
    | exact KeepsE1.error
    | refine KeepsE.foldl (fun _ _ _ => ?_) _ ?_
    | refine KeepsE1.foldl (fun _ _ _ => ?_) _ ?_
    | apply modMeter_keeps
    | apply bulkHead_keeps
    | apply storeHead_keeps
    | refine KeepsO.bind ?_ (fun _ _ => ?_)
    | refine KeepsO.bind1 ?_ (fun _ _ => ?_)
    | refine KeepsO.bind0 (fun _ => ?_)
    | refine KeepsO1.bind ?_ (fun _ _ => ?_)
    | refine KeepsO1.bind1 ?_ (fun _ _ => ?_)
    | refine KeepsO1.bind0 (fun _ => ?_)
    | refine KeepsE.bind ?_ (fun _ _ => ?_)
    | refine KeepsE.bind1 ?_ (fun _ _ => ?_)
    | refine KeepsE.bind0 (fun _ => ?_)
    | refine KeepsE1.bind ?_ (fun _ _ => ?_)
    | refine KeepsE1.bind1 ?_ (fun _ _ => ?_)
    | refine KeepsE1.bind0 (fun _ => ?_)
    | refine KeepsO.map ?_ (fun _ _ => ?_)
    | refine KeepsO.map1 ?_ (fun _ _ => ?_)
    | refine KeepsO.map0 (fun _ => ?_)
    | refine KeepsO1.map ?_ (fun _ _ => ?_)
    | refine KeepsO1.map1 ?_ (fun _ _ => ?_)
    | refine KeepsO1.map0 (fun _ => ?_)
    | refine KeepsE.map ?_ (fun _ _ => ?_)
    | refine KeepsE.map1 ?_ (fun _ _ => ?_)
    | refine KeepsE.map0 (fun _ => ?_)
    | refine KeepsE1.map ?_ (fun _ _ => ?_)
    | refine KeepsE1.map1 ?_ (fun _ _ => ?_)
    | refine KeepsE1.map0 (fun _ => ?_)
    | refine Keeps.foldl (fun _ _ _ => ?_) _ ?_
    | refine Keeps.foldl1 (fun _ _ _ => ?_) _ ?_
    | split

theorem claimAll_keeps {a0 : State} (s : State) (i : Nat) (d : Desc) (named : List (Nat × Nat)) (on : Bool) (h0 : Keeps a0 s) : Keeps a0 (claimAll s i d named on) := by
  unfold claimAll
  try dsimp only
  with_reducible repeat' first
    | assumption
    | rfl
    | apply modTdir_keeps
    | refine Keeps.foldl (fun _ _ _ => ?_) _ ?_
    | refine Keeps.foldl1 (fun _ _ _ => ?_) _ ?_
    | split

theorem endRows_keeps {a0 : State} (s : State) (i : Nat) (named : List (Nat × Nat)) (n : Nat) (h0 : Keeps a0 s) : Keeps a0 (endRows s i named n) := by
  unfold endRows
  try dsimp only
  with_reducible repeat' first
    | assumption
    | rfl
    | apply KeepsO.some
    | exact KeepsO.none
    | apply KeepsO1.some
    | apply KeepsO1.some'
    | exact KeepsO1.none
    | refine KeepsO.foldl (fun _ _ _ => ?_) _ ?_
    | refine KeepsO1.foldl (fun _ _ _ => ?_) _ ?_
    | apply modTdir_keeps
    | apply raiseLength_keeps
    | apply claimAll_keeps
    | refine Keeps.foldl (fun _ _ _ => ?_) _ ?_
    | refine Keeps.foldl1 (fun _ _ _ => ?_) _ ?_
    | refine Keeps.fst (by assumption) ?_
    | refine Keeps.snd (by assumption) ?_
    | refine Keeps.get (by assumption) ?_
    | refine Keeps.get1 (by assumption) ?_
    | refine Keeps.get1' (by assumption) ?_
    | refine Keeps.ok (by assumption) ?_
    | refine Keeps.ok1 (by assumption) ?_
    | split

theorem rowsRequest_keeps {a0 : State} (s : State) (id : Nat) (m : Msg) (a : App) (i : Nat) (d : Desc) (bulk : Bool) (h0 : Keeps a0 s) : Keeps a0 (rowsRequest s id m a i d bulk).1 := by
  unfold rowsRequest
  try dsimp only
  with_reducible repeat' first
    | assumption
    | rfl
    | apply KeepsE.ok
    | exact KeepsE.error
    | apply KeepsE1.ok
    | exact KeepsE1.error
    | apply bump_keeps
    | apply checkOpen_keeps
    | apply applyRows_keeps
    | apply claimAll_keeps
    | apply endRows_keeps
    | refine KeepsO.map ?_ (fun _ _ => ?_)
    | refine KeepsO.map1 ?_ (fun _ _ => ?_)
    | refine KeepsO.map0 (fun _ => ?_)
    | refine KeepsO1.map ?_ (fun _ _ => ?_)
    | refine KeepsO1.map1 ?_ (fun _ _ => ?_)
    | refine KeepsO1.map0 (fun _ => ?_)
    | refine KeepsE.map ?_ (fun _ _ => ?_)
    | refine KeepsE.map1 ?_ (fun _ _ => ?_)
    | refine KeepsE.map0 (fun _ => ?_)
    | refine KeepsE1.map ?_ (fun _ _ => ?_)
    | refine KeepsE1.map1 ?_ (fun _ _ => ?_)
    | refine KeepsE1.map0 (fun _ => ?_)
    | refine Keeps.fst (by assumption) ?_
    | refine Keeps.snd (by assumption) ?_
    | refine Keeps.get (by assumption) ?_
    | refine Keeps.get1 (by assumption) ?_
    | refine Keeps.get1' (by assumption) ?_
    | refine Keeps.ok (by assumption) ?_
    | refine Keeps.ok1 (by assumption) ?_
    | split

theorem execAppendTokens_keeps {a0 : State} (msg : Nat) (s : State) (h0 : Keeps a0 s) : KeepsN a0 (execAppendTokens msg s) := by
  unfold execAppendTokens
  try dsimp only
  with_reducible repeat' first
    | assumption
    | rfl
    | apply KeepsN.next
    | apply KeepsN.fault
    | apply KeepsO.some
    | exact KeepsO.none
    | apply KeepsO1.some
    | apply KeepsO1.some'
    | exact KeepsO1.none
    | apply KeepsE.ok
    | exact KeepsE.error
    | apply KeepsE1.ok
    | exact KeepsE1.error
    | apply appRefuse_keeps
    | apply findActive_keeps
    | apply rowsRequest_keeps
    | apply appAnswer_keeps
    | refine Keeps.fst (by assumption) ?_
    | refine Keeps.snd (by assumption) ?_
    | refine Keeps.get (by assumption) ?_
    | refine Keeps.get1 (by assumption) ?_
    | refine Keeps.get1' (by assumption) ?_
    | refine KeepsN.get (by assumption) ?_
    | refine Keeps.ok (by assumption) ?_
    | refine Keeps.ok1 (by assumption) ?_
    | split

theorem execBulkAppend_keeps {a0 : State} (msg : Nat) (s : State) (h0 : Keeps a0 s) : KeepsN a0 (execBulkAppend msg s) := by
  unfold execBulkAppend
  try dsimp only
  with_reducible repeat' first
    | assumption
    | rfl
    | apply KeepsN.next
    | apply KeepsN.fault
    | apply KeepsO.some
    | exact KeepsO.none
    | apply KeepsO1.some
    | apply KeepsO1.some'
    | exact KeepsO1.none
    | apply KeepsE.ok
    | exact KeepsE.error
    | apply KeepsE1.ok
    | exact KeepsE1.error
    | apply appRefuse_keeps
    | apply findActive_keeps
    | apply rowsRequest_keeps
    | apply appAnswer_keeps
    | apply modMsg_keeps
    | apply setPhase_keeps
    | refine Keeps.fst (by assumption) ?_
    | refine Keeps.snd (by assumption) ?_
    | refine Keeps.get (by assumption) ?_
    | refine Keeps.get1 (by assumption) ?_
    | refine Keeps.get1' (by assumption) ?_
    | refine KeepsN.get (by assumption) ?_
    | refine Keeps.ok (by assumption) ?_
    | refine Keeps.ok1 (by assumption) ?_
    | split

theorem sealNamed_keeps {a0 : State} (s : State) (msg : Nat) (m : Msg) (a : App) (i : Nat) (d : Desc) (h0 : Keeps a0 s) : KeepsN a0 (sealNamed s msg m a i d) := by
  unfold sealNamed
  try dsimp only
  with_reducible repeat' first
    | assumption
    | rfl
    | apply KeepsN.next
    | apply KeepsN.fault
    | apply KeepsE.ok
    | exact KeepsE.error
    | apply KeepsE1.ok
    | exact KeepsE1.error
    | refine KeepsE.foldl (fun _ _ _ => ?_) _ ?_
    | refine KeepsE1.foldl (fun _ _ _ => ?_) _ ?_
    | apply lookTails_keeps
    | apply appAnswer_keeps
    | apply freezeTail_keeps
    | apply modMsg_keeps
    | apply setPhase_keeps
    | refine KeepsO.map ?_ (fun _ _ => ?_)
    | refine KeepsO.map1 ?_ (fun _ _ => ?_)
    | refine KeepsO.map0 (fun _ => ?_)
    | refine KeepsO1.map ?_ (fun _ _ => ?_)
    | refine KeepsO1.map1 ?_ (fun _ _ => ?_)
    | refine KeepsO1.map0 (fun _ => ?_)
    | refine KeepsE.map ?_ (fun _ _ => ?_)
    | refine KeepsE.map1 ?_ (fun _ _ => ?_)
    | refine KeepsE.map0 (fun _ => ?_)
    | refine KeepsE1.map ?_ (fun _ _ => ?_)
    | refine KeepsE1.map1 ?_ (fun _ _ => ?_)
    | refine KeepsE1.map0 (fun _ => ?_)
    | refine Keeps.foldl (fun _ _ _ => ?_) _ ?_
    | refine Keeps.foldl1 (fun _ _ _ => ?_) _ ?_
    | refine Keeps.fst (by assumption) ?_
    | refine Keeps.snd (by assumption) ?_
    | refine Keeps.get (by assumption) ?_
    | refine Keeps.get1 (by assumption) ?_
    | refine Keeps.get1' (by assumption) ?_
    | refine KeepsN.get (by assumption) ?_
    | refine Keeps.ok (by assumption) ?_
    | refine Keeps.ok1 (by assumption) ?_
    | split

theorem execSealReq_keeps {a0 : State} (msg : Nat) (s : State) (h0 : Keeps a0 s) : KeepsN a0 (execSealReq msg s) := by
  unfold execSealReq
  try dsimp only
  with_reducible repeat' first
    | assumption
    | rfl
    | apply KeepsN.next
    | apply KeepsN.fault
    | apply KeepsO.some
    | exact KeepsO.none
    | apply KeepsO1.some
    | apply KeepsO1.some'
    | exact KeepsO1.none
    | apply KeepsE.ok
    | exact KeepsE.error
    | apply KeepsE1.ok
    | exact KeepsE1.error
    | apply appRefuse_keeps
    | apply findActive_keeps
    | apply appAnswer_keeps
    | apply sealNamed_keeps
    | refine Keeps.fst (by assumption) ?_
    | refine Keeps.snd (by assumption) ?_
    | refine Keeps.get (by assumption) ?_
    | refine Keeps.get1 (by assumption) ?_
    | refine Keeps.get1' (by assumption) ?_
    | refine KeepsN.get (by assumption) ?_
    | refine Keeps.ok (by assumption) ?_
    | refine Keeps.ok1 (by assumption) ?_
    | split

theorem execSealDeadline_keeps {a0 : State} (msg : Nat) (s : State) (h0 : Keeps a0 s) : KeepsN a0 (execSealDeadline msg s) := by
  unfold execSealDeadline
  try dsimp only
  with_reducible repeat' first
    | assumption
    | rfl
    | apply KeepsN.next
    | apply KeepsN.fault
    | apply KeepsO.some
    | exact KeepsO.none
    | apply KeepsO1.some
    | apply KeepsO1.some'
    | exact KeepsO1.none
    | apply passTo_keeps
    | apply modSeqs_keeps
    | apply appAnswer_keeps
    | refine KeepsO.map ?_ (fun _ _ => ?_)
    | refine KeepsO.map1 ?_ (fun _ _ => ?_)
    | refine KeepsO.map0 (fun _ => ?_)
    | refine KeepsO1.map ?_ (fun _ _ => ?_)
    | refine KeepsO1.map1 ?_ (fun _ _ => ?_)
    | refine KeepsO1.map0 (fun _ => ?_)
    | refine Keeps.fst (by assumption) ?_
    | refine Keeps.snd (by assumption) ?_
    | refine Keeps.get (by assumption) ?_
    | refine Keeps.get1 (by assumption) ?_
    | refine Keeps.get1' (by assumption) ?_
    | refine KeepsN.get (by assumption) ?_
    | refine Keeps.ok (by assumption) ?_
    | refine Keeps.ok1 (by assumption) ?_
    | split

theorem endSeals_keeps {a0 : State} (s : State) (w : Nat) (m : Msg) (n : Nat) (st : Status) (h0 : Keeps a0 s) : Keeps a0 (endSeals s w m n st) := by
  unfold endSeals
  try dsimp only
  with_reducible repeat' first
    | assumption
    | rfl
    | apply appAnswer_keeps
    | apply endRows_keeps
    | split

theorem settleSeals_keeps {a0 : State} (s : State) (w : Nat) (h0 : Keeps a0 s) : Keeps a0 (settleSeals s w) := by
  unfold settleSeals
  try dsimp only
  with_reducible repeat' first
    | assumption
    | rfl
    | apply KeepsO.some
    | exact KeepsO.none
    | apply KeepsO1.some
    | apply KeepsO1.some'
    | exact KeepsO1.none
    | apply KeepsE.ok
    | exact KeepsE.error
    | apply KeepsE1.ok
    | exact KeepsE1.error
    | apply endSeals_keeps
    | refine Keeps.fst (by assumption) ?_
    | refine Keeps.snd (by assumption) ?_
    | refine Keeps.get (by assumption) ?_
    | refine Keeps.get1 (by assumption) ?_
    | refine Keeps.get1' (by assumption) ?_
    | refine Keeps.ok (by assumption) ?_
    | refine Keeps.ok1 (by assumption) ?_
    | split

theorem cutBulk_keeps {a0 : State} (s : State) (w : Nat) (i : Nat) (d : Desc) (n : Nat) (layer : Nat) (kv : Nat) (h0 : Keeps a0 s) : Keeps a0 (cutBulk s w i d n layer kv) := by
  unfold cutBulk
  try dsimp only
  with_reducible repeat' first
    | assumption
    | rfl
    | apply KeepsO.some
    | exact KeepsO.none
    | apply KeepsO1.some
    | apply KeepsO1.some'
    | exact KeepsO1.none
    | apply modTdir_keeps
    | apply modSeqs_keeps
    | apply dropTail_keeps
    | refine Keeps.fst (by assumption) ?_
    | refine Keeps.snd (by assumption) ?_
    | refine Keeps.get (by assumption) ?_
    | refine Keeps.get1 (by assumption) ?_
    | refine Keeps.get1' (by assumption) ?_
    | refine Keeps.ok (by assumption) ?_
    | refine Keeps.ok1 (by assumption) ?_
    | split

theorem failSeals_keeps {a0 : State} (s : State) (w : Nat) (h0 : Keeps a0 s) : Keeps a0 (failSeals s w) := by
  unfold failSeals
  try dsimp only
  with_reducible repeat' first
    | assumption
    | rfl
    | apply KeepsO.some
    | exact KeepsO.none
    | apply KeepsO1.some
    | apply KeepsO1.some'
    | exact KeepsO1.none
    | refine KeepsO.foldl (fun _ _ _ => ?_) _ ?_
    | refine KeepsO1.foldl (fun _ _ _ => ?_) _ ?_
    | apply modSeqs_keeps
    | apply endSeals_keeps
    | apply cutBulk_keeps
    | apply appAnswer_keeps
    | apply raiseLength_keeps
    | apply claimAll_keeps
    | refine KeepsO.map ?_ (fun _ _ => ?_)
    | refine KeepsO.map1 ?_ (fun _ _ => ?_)
    | refine KeepsO.map0 (fun _ => ?_)
    | refine KeepsO1.map ?_ (fun _ _ => ?_)
    | refine KeepsO1.map1 ?_ (fun _ _ => ?_)
    | refine KeepsO1.map0 (fun _ => ?_)
    | refine Keeps.foldl (fun _ _ _ => ?_) _ ?_
    | refine Keeps.foldl1 (fun _ _ _ => ?_) _ ?_
    | refine Keeps.fst (by assumption) ?_
    | refine Keeps.snd (by assumption) ?_
    | refine Keeps.get (by assumption) ?_
    | refine Keeps.get1 (by assumption) ?_
    | refine Keeps.get1' (by assumption) ?_
    | refine Keeps.ok (by assumption) ?_
    | refine Keeps.ok1 (by assumption) ?_
    | split

theorem findOther_keeps {a0 : State} (s : State) (m : Msg) (handle : Nat) (gen : Nat) (h0 : Keeps a0 s) : Keeps a0 (findOther s m handle gen).1 := by
  unfold findOther
  try dsimp only
  with_reducible repeat' first
    | assumption
    | rfl
    | apply KeepsO.some
    | exact KeepsO.none
    | apply KeepsO1.some
    | apply KeepsO1.some'
    | exact KeepsO1.none
    | apply KeepsE.ok
    | exact KeepsE.error
    | apply KeepsE1.ok
    | exact KeepsE1.error
    | apply findSeq_keeps
    | refine Keeps.fst (by assumption) ?_
    | refine Keeps.snd (by assumption) ?_
    | refine Keeps.get (by assumption) ?_
    | refine Keeps.get1 (by assumption) ?_
    | refine Keeps.get1' (by assumption) ?_
    | refine Keeps.ok (by assumption) ?_
    | refine Keeps.ok1 (by assumption) ?_
    | split

theorem refusedDesc_keeps {a0 : State} (s : State) (i : Nat) (d : Desc) (h0 : Keeps a0 s) : Keeps a0 (refusedDesc s i d) := by
  unfold refusedDesc
  try dsimp only
  with_reducible repeat' first
    | assumption
    | rfl
    | apply insertAll_keeps
    | split

theorem enterDesc_keeps {a0 : State} (s : State) (i : Nat) (d : Desc) (h0 : Keeps a0 s) : KeepsO a0 (enterDesc s i d) := by
  unfold enterDesc
  try dsimp only
  with_reducible repeat' first
    | assumption
    | rfl
    | apply KeepsO.some
    | exact KeepsO.none
    | apply KeepsO1.some
    | apply KeepsO1.some'
    | exact KeepsO1.none
    | apply insertAll_keeps
    | apply modSeqs_keeps
    | refine Keeps.fst (by assumption) ?_
    | refine Keeps.snd (by assumption) ?_
    | refine Keeps.get (by assumption) ?_
    | refine Keeps.get1 (by assumption) ?_
    | refine Keeps.get1' (by assumption) ?_
    | refine Keeps.ok (by assumption) ?_
    | refine Keeps.ok1 (by assumption) ?_
    | split

theorem execCreateSeq_keeps {a0 : State} (msg : Nat) (s : State) (h0 : Keeps a0 s) : KeepsN a0 (execCreateSeq msg s) := by
  unfold execCreateSeq
  try dsimp only
  with_reducible repeat' first
    | assumption
    | rfl
    | apply KeepsN.next
    | apply KeepsN.fault
    | apply KeepsO.some
    | exact KeepsO.none
    | apply KeepsO1.some
    | apply KeepsO1.some'
    | exact KeepsO1.none
    | apply KeepsE.ok
    | exact KeepsE.error
    | apply KeepsE1.ok
    | exact KeepsE1.error
    | apply appRefuse_keeps
    | apply findOther_keeps
    | apply appAnswer_keeps
    | apply allocTables_keeps
    | apply enterDesc_keeps
    | apply refusedDesc_keeps
    | refine KeepsO.getD ?_ ?_
    | refine KeepsO1.getD ?_ ?_
    | refine KeepsO.map ?_ (fun _ _ => ?_)
    | refine KeepsO.map1 ?_ (fun _ _ => ?_)
    | refine KeepsO.map0 (fun _ => ?_)
    | refine KeepsO1.map ?_ (fun _ _ => ?_)
    | refine KeepsO1.map1 ?_ (fun _ _ => ?_)
    | refine KeepsO1.map0 (fun _ => ?_)
    | refine KeepsE.map ?_ (fun _ _ => ?_)
    | refine KeepsE.map1 ?_ (fun _ _ => ?_)
    | refine KeepsE.map0 (fun _ => ?_)
    | refine KeepsE1.map ?_ (fun _ _ => ?_)
    | refine KeepsE1.map1 ?_ (fun _ _ => ?_)
    | refine KeepsE1.map0 (fun _ => ?_)
    | refine Keeps.fst (by assumption) ?_
    | refine Keeps.snd (by assumption) ?_
    | refine Keeps.get (by assumption) ?_
    | refine Keeps.get1 (by assumption) ?_
    | refine Keeps.get1' (by assumption) ?_
    | refine KeepsN.get (by assumption) ?_
    | refine Keeps.ok (by assumption) ?_
    | refine Keeps.ok1 (by assumption) ?_
    | split

theorem forkPage_keeps {a0 : State} (s : State) (j : Nat) (c : Desc) (p : Nat) (pair : Nat) (r : PageRef) (h0 : Keeps a0 s) : KeepsE a0 (forkPage s j c p pair r) := by
  unfold forkPage
  try dsimp only
  with_reducible repeat' first
    | assumption
    | rfl
    | apply KeepsO.some
    | exact KeepsO.none
    | apply KeepsO1.some
    | apply KeepsO1.some'
    | exact KeepsO1.none
    | apply KeepsE.ok
    | exact KeepsE.error
    | apply KeepsE1.ok
    | exact KeepsE1.error
    | apply addRef_keeps
    | apply takeRef_keeps
    | apply truncPage_keeps
    | apply copyPage_keeps
    | refine KeepsO.bind ?_ (fun _ _ => ?_)
    | refine KeepsO.bind1 ?_ (fun _ _ => ?_)
    | refine KeepsO.bind0 (fun _ => ?_)
    | refine KeepsO1.bind ?_ (fun _ _ => ?_)
    | refine KeepsO1.bind1 ?_ (fun _ _ => ?_)
    | refine KeepsO1.bind0 (fun _ => ?_)
    | refine KeepsE.bind ?_ (fun _ _ => ?_)
    | refine KeepsE.bind1 ?_ (fun _ _ => ?_)
    | refine KeepsE.bind0 (fun _ => ?_)
    | refine KeepsE1.bind ?_ (fun _ _ => ?_)
    | refine KeepsE1.bind1 ?_ (fun _ _ => ?_)
    | refine KeepsE1.bind0 (fun _ => ?_)
    | refine Keeps.fst (by assumption) ?_
    | refine Keeps.snd (by assumption) ?_
    | refine Keeps.get (by assumption) ?_
    | refine Keeps.get1 (by assumption) ?_
    | refine Keeps.get1' (by assumption) ?_
    | refine Keeps.ok (by assumption) ?_
    | refine Keeps.ok1 (by assumption) ?_
    | split

theorem forkTail_keeps {a0 : State} (s : State) (i : Nat) (j : Nat) (d : Desc) (c : Desc) (p : Nat) (layer : Nat) (kv : Nat) (h0 : Keeps a0 s) : KeepsE a0 (forkTail s i j d c p layer kv) := by
  unfold forkTail
  try dsimp only
  with_reducible repeat' first
    | assumption
    | rfl
    | apply KeepsO.some
    | exact KeepsO.none
    | apply KeepsO1.some
    | apply KeepsO1.some'
    | exact KeepsO1.none
    | apply KeepsE.ok
    | exact KeepsE.error
    | apply KeepsE1.ok
    | exact KeepsE1.error
    | apply loadTail_keeps
    | apply openTail_keeps
    | apply modTdir_keeps
    | apply storeRows_keeps
    | refine KeepsO.bind ?_ (fun _ _ => ?_)
    | refine KeepsO.bind1 ?_ (fun _ _ => ?_)
    | refine KeepsO.bind0 (fun _ => ?_)
    | refine KeepsO1.bind ?_ (fun _ _ => ?_)
    | refine KeepsO1.bind1 ?_ (fun _ _ => ?_)
    | refine KeepsO1.bind0 (fun _ => ?_)
    | refine KeepsE.bind ?_ (fun _ _ => ?_)
    | refine KeepsE.bind1 ?_ (fun _ _ => ?_)
    | refine KeepsE.bind0 (fun _ => ?_)
    | refine KeepsE1.bind ?_ (fun _ _ => ?_)
    | refine KeepsE1.bind1 ?_ (fun _ _ => ?_)
    | refine KeepsE1.bind0 (fun _ => ?_)
    | refine KeepsO.map ?_ (fun _ _ => ?_)
    | refine KeepsO.map1 ?_ (fun _ _ => ?_)
    | refine KeepsO.map0 (fun _ => ?_)
    | refine KeepsO1.map ?_ (fun _ _ => ?_)
    | refine KeepsO1.map1 ?_ (fun _ _ => ?_)
    | refine KeepsO1.map0 (fun _ => ?_)
    | refine KeepsE.map ?_ (fun _ _ => ?_)
    | refine KeepsE.map1 ?_ (fun _ _ => ?_)
    | refine KeepsE.map0 (fun _ => ?_)
    | refine KeepsE1.map ?_ (fun _ _ => ?_)
    | refine KeepsE1.map1 ?_ (fun _ _ => ?_)
    | refine KeepsE1.map0 (fun _ => ?_)
    | refine Keeps.fst (by assumption) ?_
    | refine Keeps.snd (by assumption) ?_
    | refine Keeps.get (by assumption) ?_
    | refine Keeps.get1 (by assumption) ?_
    | refine Keeps.get1' (by assumption) ?_
    | refine Keeps.ok (by assumption) ?_
    | refine Keeps.ok1 (by assumption) ?_
    | split

theorem forkPair_keeps {a0 : State} (s : State) (i : Nat) (j : Nat) (d : Desc) (c : Desc) (p : Nat) (layer : Nat) (kv : Nat) (h0 : Keeps a0 s) : KeepsE a0 (forkPair s i j d c p layer kv) := by
  unfold forkPair
  try dsimp only
  with_reducible repeat' first
    | assumption
    | rfl
    | apply KeepsE.ok
    | exact KeepsE.error
    | apply KeepsE1.ok
    | exact KeepsE1.error
    | refine KeepsE.foldl (fun _ _ _ => ?_) _ ?_
    | refine KeepsE1.foldl (fun _ _ _ => ?_) _ ?_
    | apply forkPage_keeps
    | apply forkTail_keeps
    | apply modTdir_keeps
    | refine KeepsO.bind ?_ (fun _ _ => ?_)
    | refine KeepsO.bind1 ?_ (fun _ _ => ?_)
    | refine KeepsO.bind0 (fun _ => ?_)
    | refine KeepsO1.bind ?_ (fun _ _ => ?_)
    | refine KeepsO1.bind1 ?_ (fun _ _ => ?_)
    | refine KeepsO1.bind0 (fun _ => ?_)
    | refine KeepsE.bind ?_ (fun _ _ => ?_)
    | refine KeepsE.bind1 ?_ (fun _ _ => ?_)
    | refine KeepsE.bind0 (fun _ => ?_)
    | refine KeepsE1.bind ?_ (fun _ _ => ?_)
    | refine KeepsE1.bind1 ?_ (fun _ _ => ?_)
    | refine KeepsE1.bind0 (fun _ => ?_)
    | refine Keeps.foldl (fun _ _ _ => ?_) _ ?_
    | refine Keeps.foldl1 (fun _ _ _ => ?_) _ ?_
    | split

theorem shareBinding_keeps {a0 : State} (s : State) (i : Nat) (j : Nat) (d : Desc) (h0 : Keeps a0 s) : Keeps a0 (shareBinding s i j d) := by
  unfold shareBinding
  try dsimp only
  with_reducible repeat' first
    | assumption
    | rfl
    | apply KeepsO.some
    | exact KeepsO.none
    | apply KeepsO1.some
    | apply KeepsO1.some'
    | exact KeepsO1.none
    | refine KeepsO.foldl (fun _ _ _ => ?_) _ ?_
    | refine KeepsO1.foldl (fun _ _ _ => ?_) _ ?_
    | apply modSeqs_keeps
    | refine Keeps.foldl (fun _ _ _ => ?_) _ ?_
    | refine Keeps.foldl1 (fun _ _ _ => ?_) _ ?_
    | refine Keeps.fst (by assumption) ?_
    | refine Keeps.snd (by assumption) ?_
    | refine Keeps.get (by assumption) ?_
    | refine Keeps.get1 (by assumption) ?_
    | refine Keeps.get1' (by assumption) ?_
    | refine Keeps.ok (by assumption) ?_
    | refine Keeps.ok1 (by assumption) ?_
    | split

theorem applyFork_keeps {a0 : State} (s : State) (a : App) (i : Nat) (d : Desc) (h0 : Keeps a0 s) : Keeps a0 (applyFork s a i d).1 := by
  unfold applyFork
  try dsimp only
  with_reducible repeat' first
    | assumption
    | rfl
    | apply KeepsO.some
    | exact KeepsO.none
    | apply KeepsO1.some
    | apply KeepsO1.some'
    | exact KeepsO1.none
    | apply KeepsE.ok
    | exact KeepsE.error
    | apply KeepsE1.ok
    | exact KeepsE1.error
    | refine KeepsO.foldl (fun _ _ _ => ?_) _ ?_
    | refine KeepsO1.foldl (fun _ _ _ => ?_) _ ?_
    | refine KeepsE.foldl (fun _ _ _ => ?_) _ ?_
    | refine KeepsE1.foldl (fun _ _ _ => ?_) _ ?_
    | apply allocTables_keeps
    | apply forkPair_keeps
    | apply enterDesc_keeps
    | apply shareBinding_keeps
    | apply refusedDesc_keeps
    | refine KeepsO.bind ?_ (fun _ _ => ?_)
    | refine KeepsO.bind1 ?_ (fun _ _ => ?_)
    | refine KeepsO.bind0 (fun _ => ?_)
    | refine KeepsO1.bind ?_ (fun _ _ => ?_)
    | refine KeepsO1.bind1 ?_ (fun _ _ => ?_)
    | refine KeepsO1.bind0 (fun _ => ?_)
    | refine KeepsE.bind ?_ (fun _ _ => ?_)
    | refine KeepsE.bind1 ?_ (fun _ _ => ?_)
    | refine KeepsE.bind0 (fun _ => ?_)
    | refine KeepsE1.bind ?_ (fun _ _ => ?_)
    | refine KeepsE1.bind1 ?_ (fun _ _ => ?_)
    | refine KeepsE1.bind0 (fun _ => ?_)
    | refine Keeps.foldl (fun _ _ _ => ?_) _ ?_
    | refine Keeps.foldl1 (fun _ _ _ => ?_) _ ?_
    | refine Keeps.fst (by assumption) ?_
    | refine Keeps.snd (by assumption) ?_
    | refine Keeps.get (by assumption) ?_
    | refine Keeps.get1 (by assumption) ?_
    | refine Keeps.get1' (by assumption) ?_
    | refine Keeps.ok (by assumption) ?_
    | refine Keeps.ok1 (by assumption) ?_
    | split

theorem checkFork_keeps {a0 : State} (s : State) (i : Nat) (d : Desc) (p : Nat) (h0 : Keeps a0 s) : Keeps a0 (checkFork s i d p).1 := by
  unfold checkFork
  try dsimp only
  with_reducible repeat' first
    | assumption
    | rfl
    | apply KeepsE.ok
    | exact KeepsE.error
    | apply KeepsE1.ok
    | exact KeepsE1.error
    | apply checkShares_keeps
    | apply checkPages_keeps
    | apply checkTails_keeps
    | refine KeepsO.map ?_ (fun _ _ => ?_)
    | refine KeepsO.map1 ?_ (fun _ _ => ?_)
    | refine KeepsO.map0 (fun _ => ?_)
    | refine KeepsO1.map ?_ (fun _ _ => ?_)
    | refine KeepsO1.map1 ?_ (fun _ _ => ?_)
    | refine KeepsO1.map0 (fun _ => ?_)
    | refine KeepsE.map ?_ (fun _ _ => ?_)
    | refine KeepsE.map1 ?_ (fun _ _ => ?_)
    | refine KeepsE.map0 (fun _ => ?_)
    | refine KeepsE1.map ?_ (fun _ _ => ?_)
    | refine KeepsE1.map1 ?_ (fun _ _ => ?_)
    | refine KeepsE1.map0 (fun _ => ?_)
    | refine Keeps.fst (by assumption) ?_
    | refine Keeps.snd (by assumption) ?_
    | refine Keeps.get (by assumption) ?_
    | refine Keeps.get1 (by assumption) ?_
    | refine Keeps.get1' (by assumption) ?_
    | refine Keeps.ok (by assumption) ?_
    | refine Keeps.ok1 (by assumption) ?_
    | split

theorem runFork_keeps {a0 : State} (s : State) (msg : Nat) (m : Msg) (a : App) (i : Nat) (d : Desc) (h0 : Keeps a0 s) : Keeps a0 (runFork s msg m a i d) := by
  unfold runFork
  try dsimp only
  with_reducible repeat' first
    | assumption
    | rfl
    | apply KeepsE.ok
    | exact KeepsE.error
    | apply KeepsE1.ok
    | exact KeepsE1.error
    | apply modMsg_keeps
    | apply setPhase_keeps
    | apply checkFork_keeps
    | apply applyFork_keeps
    | apply appAnswer_keeps
    | apply appRefuse_keeps
    | refine Keeps.fst (by assumption) ?_
    | refine Keeps.snd (by assumption) ?_
    | refine Keeps.get (by assumption) ?_
    | refine Keeps.get1 (by assumption) ?_
    | refine Keeps.get1' (by assumption) ?_
    | refine Keeps.ok (by assumption) ?_
    | refine Keeps.ok1 (by assumption) ?_
    | split

theorem judgeFork_keeps {a0 : State} (s : State) (msg : Nat) (m : Msg) (a : App) (i : Nat) (d : Desc) (h0 : Keeps a0 s) : Keeps a0 (judgeFork s msg m a i d) := by
  unfold judgeFork
  try dsimp only
  with_reducible repeat' first
    | assumption
    | rfl
    | apply KeepsO.some
    | exact KeepsO.none
    | apply KeepsO1.some
    | apply KeepsO1.some'
    | exact KeepsO1.none
    | apply KeepsE.ok
    | exact KeepsE.error
    | apply KeepsE1.ok
    | exact KeepsE1.error
    | apply appRefuse_keeps
    | apply appAnswer_keeps
    | apply runFork_keeps
    | refine KeepsO.getD ?_ ?_
    | refine KeepsO1.getD ?_ ?_
    | refine KeepsO.map ?_ (fun _ _ => ?_)
    | refine KeepsO.map1 ?_ (fun _ _ => ?_)
    | refine KeepsO.map0 (fun _ => ?_)
    | refine KeepsO1.map ?_ (fun _ _ => ?_)
    | refine KeepsO1.map1 ?_ (fun _ _ => ?_)
    | refine KeepsO1.map0 (fun _ => ?_)
    | refine KeepsE.map ?_ (fun _ _ => ?_)
    | refine KeepsE.map1 ?_ (fun _ _ => ?_)
    | refine KeepsE.map0 (fun _ => ?_)
    | refine KeepsE1.map ?_ (fun _ _ => ?_)
    | refine KeepsE1.map1 ?_ (fun _ _ => ?_)
    | refine KeepsE1.map0 (fun _ => ?_)
    | refine Keeps.fst (by assumption) ?_
    | refine Keeps.snd (by assumption) ?_
    | refine Keeps.get (by assumption) ?_
    | refine Keeps.get1 (by assumption) ?_
    | refine Keeps.get1' (by assumption) ?_
    | refine Keeps.ok (by assumption) ?_
    | refine Keeps.ok1 (by assumption) ?_
    | split

theorem execForkSeq_keeps {a0 : State} (msg : Nat) (s : State) (h0 : Keeps a0 s) : KeepsN a0 (execForkSeq msg s) := by
  unfold execForkSeq
  try dsimp only
  with_reducible repeat' first
    | assumption
    | rfl
    | apply KeepsN.next
    | apply KeepsN.fault
    | apply KeepsO.some
    | exact KeepsO.none
    | apply KeepsO1.some
    | apply KeepsO1.some'
    | exact KeepsO1.none
    | apply KeepsE.ok
    | exact KeepsE.error
    | apply KeepsE1.ok
    | exact KeepsE1.error
    | apply appRefuse_keeps
    | apply findOther_keeps
    | apply judgeFork_keeps
    | refine Keeps.fst (by assumption) ?_
    | refine Keeps.snd (by assumption) ?_
    | refine Keeps.get (by assumption) ?_
    | refine Keeps.get1 (by assumption) ?_
    | refine Keeps.get1' (by assumption) ?_
    | refine KeepsN.get (by assumption) ?_
    | refine Keeps.ok (by assumption) ?_
    | refine Keeps.ok1 (by assumption) ?_
    | split

theorem execForkCommitTimeout_keeps {a0 : State} (msg : Nat) (s : State) (h0 : Keeps a0 s) : KeepsN a0 (execForkCommitTimeout msg s) := by
  unfold execForkCommitTimeout
  try dsimp only
  with_reducible repeat' first
    | assumption
    | rfl
    | apply KeepsN.next
    | apply KeepsN.fault
    | apply KeepsO.some
    | exact KeepsO.none
    | apply KeepsO1.some
    | apply KeepsO1.some'
    | exact KeepsO1.none
    | apply appRefuse_keeps
    | apply passTo_keeps
    | refine Keeps.fst (by assumption) ?_
    | refine Keeps.snd (by assumption) ?_
    | refine Keeps.get (by assumption) ?_
    | refine Keeps.get1 (by assumption) ?_
    | refine Keeps.get1' (by assumption) ?_
    | refine KeepsN.get (by assumption) ?_
    | refine Keeps.ok (by assumption) ?_
    | refine Keeps.ok1 (by assumption) ?_
    | split

theorem retryForks_keeps {a0 : State} (s : State) (i : Nat) (h0 : Keeps a0 s) : Keeps a0 (retryForks s i) := by
  unfold retryForks
  try dsimp only
  with_reducible repeat' first
    | assumption
    | rfl
    | apply KeepsO.some
    | exact KeepsO.none
    | apply KeepsO1.some
    | apply KeepsO1.some'
    | exact KeepsO1.none
    | refine KeepsO.foldl (fun _ _ _ => ?_) _ ?_
    | refine KeepsO1.foldl (fun _ _ _ => ?_) _ ?_
    | apply judgeFork_keeps
    | apply appRefuse_keeps
    | refine Keeps.foldl (fun _ _ _ => ?_) _ ?_
    | refine Keeps.foldl1 (fun _ _ _ => ?_) _ ?_
    | refine Keeps.fst (by assumption) ?_
    | refine Keeps.snd (by assumption) ?_
    | refine Keeps.get (by assumption) ?_
    | refine Keeps.get1 (by assumption) ?_
    | refine Keeps.get1' (by assumption) ?_
    | refine Keeps.ok (by assumption) ?_
    | refine Keeps.ok1 (by assumption) ?_
    | split

theorem cutDir_keeps {a0 : State} (s : State) (i : Nat) (d : Desc) (layer : Nat) (kv : Nat) (p : Nat) (h0 : Keeps a0 s) : Keeps a0 (cutDir s i d layer kv p) := by
  unfold cutDir
  try dsimp only
  with_reducible repeat' first
    | assumption
    | rfl
    | apply modTdir_keeps
    | refine KeepsO.getD ?_ ?_
    | refine KeepsO1.getD ?_ ?_
    | refine KeepsO.map ?_ (fun _ _ => ?_)
    | refine KeepsO.map1 ?_ (fun _ _ => ?_)
    | refine KeepsO.map0 (fun _ => ?_)
    | refine KeepsO1.map ?_ (fun _ _ => ?_)
    | refine KeepsO1.map1 ?_ (fun _ _ => ?_)
    | refine KeepsO1.map0 (fun _ => ?_)
    | split

theorem checkCut_keeps {a0 : State} (s : State) (i : Nat) (d : Desc) (p : Nat) (h0 : Keeps a0 s) : Keeps a0 (checkCut s i d p).1 := by
  unfold checkCut
  try dsimp only
  with_reducible repeat' first
    | assumption
    | rfl
    | apply KeepsO.some
    | exact KeepsO.none
    | apply KeepsO1.some
    | apply KeepsO1.some'
    | exact KeepsO1.none
    | apply KeepsE.ok
    | exact KeepsE.error
    | apply KeepsE1.ok
    | exact KeepsE1.error
    | apply checkPages_keeps
    | apply lookTails_keeps
    | apply checkTails_keeps
    | refine KeepsO.map ?_ (fun _ _ => ?_)
    | refine KeepsO.map1 ?_ (fun _ _ => ?_)
    | refine KeepsO.map0 (fun _ => ?_)
    | refine KeepsO1.map ?_ (fun _ _ => ?_)
    | refine KeepsO1.map1 ?_ (fun _ _ => ?_)
    | refine KeepsO1.map0 (fun _ => ?_)
    | refine KeepsE.map ?_ (fun _ _ => ?_)
    | refine KeepsE.map1 ?_ (fun _ _ => ?_)
    | refine KeepsE.map0 (fun _ => ?_)
    | refine KeepsE1.map ?_ (fun _ _ => ?_)
    | refine KeepsE1.map1 ?_ (fun _ _ => ?_)
    | refine KeepsE1.map0 (fun _ => ?_)
    | refine Keeps.fst (by assumption) ?_
    | refine Keeps.snd (by assumption) ?_
    | refine Keeps.get (by assumption) ?_
    | refine Keeps.get1 (by assumption) ?_
    | refine Keeps.get1' (by assumption) ?_
    | refine Keeps.ok (by assumption) ?_
    | refine Keeps.ok1 (by assumption) ?_
    | split

theorem cutPages_keeps {a0 : State} (s : State) (i : Nat) (d : Desc) (p : Nat) (h0 : Keeps a0 s) : Keeps a0 (cutPages s i d p).1 := by
  unfold cutPages
  try dsimp only
  with_reducible repeat' first
    | assumption
    | rfl
    | apply KeepsE.ok
    | exact KeepsE.error
    | apply KeepsE1.ok
    | exact KeepsE1.error
    | refine KeepsE.foldl (fun _ _ _ => ?_) _ ?_
    | refine KeepsE1.foldl (fun _ _ _ => ?_) _ ?_
    | apply truncPage_keeps
    | refine Keeps.foldl (fun _ _ _ => ?_) _ ?_
    | refine Keeps.foldl1 (fun _ _ _ => ?_) _ ?_
    | split

theorem capRows_keeps {a0 : State} (s : State) (i : Nat) (p : Nat) (h0 : Keeps a0 s) : Keeps a0 (capRows s i p) := by
  unfold capRows
  try dsimp only
  with_reducible repeat' first
    | assumption
    | rfl
    | apply setMsgs_keeps
    | refine KeepsO.map ?_ (fun _ _ => ?_)
    | refine KeepsO.map1 ?_ (fun _ _ => ?_)
    | refine KeepsO.map0 (fun _ => ?_)
    | refine KeepsO1.map ?_ (fun _ _ => ?_)
    | refine KeepsO1.map1 ?_ (fun _ _ => ?_)
    | refine KeepsO1.map0 (fun _ => ?_)
    | apply setMsgs_keeps
    | refine Keeps.fst (by assumption) ?_
    | refine Keeps.snd (by assumption) ?_
    | refine Keeps.get (by assumption) ?_
    | refine Keeps.get1 (by assumption) ?_
    | refine Keeps.get1' (by assumption) ?_
    | refine Keeps.ok (by assumption) ?_
    | refine Keeps.ok1 (by assumption) ?_
    | split

theorem applyTruncate_keeps {a0 : State} (s : State) (i : Nat) (d : Desc) (p : Nat) (h0 : Keeps a0 s) : Keeps a0 (applyTruncate s i d p).1 := by
  unfold applyTruncate
  try dsimp only
  with_reducible repeat' first
    | assumption
    | rfl
    | apply KeepsE.ok
    | exact KeepsE.error
    | apply KeepsE1.ok
    | exact KeepsE1.error
    | refine KeepsE.foldl (fun _ _ _ => ?_) _ ?_
    | refine KeepsE1.foldl (fun _ _ _ => ?_) _ ?_
    | apply checkCut_keeps
    | apply cutPages_keeps
    | apply capRows_keeps
    | apply dropSeals_keeps
    | apply cutTails_keeps
    | apply releaseFrom_keeps
    | apply modSeqs_keeps
    | apply cutDir_keeps
    | apply modDesc_keeps
    | refine KeepsO.map ?_ (fun _ _ => ?_)
    | refine KeepsO.map1 ?_ (fun _ _ => ?_)
    | refine KeepsO.map0 (fun _ => ?_)
    | refine KeepsO1.map ?_ (fun _ _ => ?_)
    | refine KeepsO1.map1 ?_ (fun _ _ => ?_)
    | refine KeepsO1.map0 (fun _ => ?_)
    | refine KeepsE.map ?_ (fun _ _ => ?_)
    | refine KeepsE.map1 ?_ (fun _ _ => ?_)
    | refine KeepsE.map0 (fun _ => ?_)
    | refine KeepsE1.map ?_ (fun _ _ => ?_)
    | refine KeepsE1.map1 ?_ (fun _ _ => ?_)
    | refine KeepsE1.map0 (fun _ => ?_)
    | refine Keeps.foldl (fun _ _ _ => ?_) _ ?_
    | refine Keeps.foldl1 (fun _ _ _ => ?_) _ ?_
    | refine Keeps.fst (by assumption) ?_
    | refine Keeps.snd (by assumption) ?_
    | refine Keeps.get (by assumption) ?_
    | refine Keeps.get1 (by assumption) ?_
    | refine Keeps.get1' (by assumption) ?_
    | refine Keeps.ok (by assumption) ?_
    | refine Keeps.ok1 (by assumption) ?_
    | split

theorem tryDrain_keeps {a0 : State} (s : State) (i : Nat) (h0 : Keeps a0 s) : Keeps a0 (tryDrain s i) := by
  unfold tryDrain
  try dsimp only
  with_reducible repeat' first
    | assumption
    | rfl
    | apply KeepsO.some
    | exact KeepsO.none
    | apply KeepsO1.some
    | apply KeepsO1.some'
    | exact KeepsO1.none
    | apply KeepsE.ok
    | exact KeepsE.error
    | apply KeepsE1.ok
    | exact KeepsE1.error
    | refine KeepsO.foldl (fun _ _ _ => ?_) _ ?_
    | refine KeepsO1.foldl (fun _ _ _ => ?_) _ ?_
    | refine KeepsE.foldl (fun _ _ _ => ?_) _ ?_
    | refine KeepsE1.foldl (fun _ _ _ => ?_) _ ?_
    | apply modDesc_keeps
    | apply applyTruncate_keeps
    | apply appAnswer_keeps
    | apply retryForks_keeps
    | apply settleSeals_keeps
    | apply freeDesc_keeps
    | apply releaseSeq_keeps
    | apply answer_keeps
    | refine KeepsO.getD ?_ ?_
    | refine KeepsO1.getD ?_ ?_
    | refine Keeps.foldl (fun _ _ _ => ?_) _ ?_
    | refine Keeps.foldl1 (fun _ _ _ => ?_) _ ?_
    | refine Keeps.fst (by assumption) ?_
    | refine Keeps.snd (by assumption) ?_
    | refine Keeps.get (by assumption) ?_
    | refine Keeps.get1 (by assumption) ?_
    | refine Keeps.get1' (by assumption) ?_
    | refine Keeps.ok (by assumption) ?_
    | refine Keeps.ok1 (by assumption) ?_
    | split

theorem startDrain_keeps {a0 : State} (s : State) (i : Nat) (d : Desc) (op : DrainOp) (msg : Nat) (p : Nat) (h0 : Keeps a0 s) : Keeps a0 (startDrain s i d op msg p) := by
  unfold startDrain
  try dsimp only
  with_reducible repeat' first
    | assumption
    | rfl
    | apply KeepsO.some
    | exact KeepsO.none
    | apply KeepsO1.some
    | apply KeepsO1.some'
    | exact KeepsO1.none
    | refine KeepsO.foldl (fun _ _ _ => ?_) _ ?_
    | refine KeepsO1.foldl (fun _ _ _ => ?_) _ ?_
    | apply modDesc_keeps
    | apply setPhase_keeps
    | apply tryDrain_keeps
    | apply startRevoke_keeps
    | refine Keeps.foldl (fun _ _ _ => ?_) _ ?_
    | refine Keeps.foldl1 (fun _ _ _ => ?_) _ ?_
    | split

theorem execTruncateSeq_keeps {a0 : State} (msg : Nat) (s : State) (h0 : Keeps a0 s) : KeepsN a0 (execTruncateSeq msg s) := by
  unfold execTruncateSeq
  try dsimp only
  with_reducible repeat' first
    | assumption
    | rfl
    | apply KeepsN.next
    | apply KeepsN.fault
    | apply KeepsO.some
    | exact KeepsO.none
    | apply KeepsO1.some
    | apply KeepsO1.some'
    | exact KeepsO1.none
    | apply KeepsE.ok
    | exact KeepsE.error
    | apply KeepsE1.ok
    | exact KeepsE1.error
    | apply findActive_keeps
    | apply appRefuse_keeps
    | apply appAnswer_keeps
    | apply startDrain_keeps
    | refine Keeps.fst (by assumption) ?_
    | refine Keeps.snd (by assumption) ?_
    | refine Keeps.get (by assumption) ?_
    | refine Keeps.get1 (by assumption) ?_
    | refine Keeps.get1' (by assumption) ?_
    | refine KeepsN.get (by assumption) ?_
    | refine Keeps.ok (by assumption) ?_
    | refine Keeps.ok1 (by assumption) ?_
    | split

theorem execSetPattern_keeps {a0 : State} (msg : Nat) (s : State) (h0 : Keeps a0 s) : KeepsN a0 (execSetPattern msg s) := by
  unfold execSetPattern
  try dsimp only
  with_reducible repeat' first
    | assumption
    | rfl
    | apply KeepsN.next
    | apply KeepsN.fault
    | apply KeepsO.some
    | exact KeepsO.none
    | apply KeepsO1.some
    | apply KeepsO1.some'
    | exact KeepsO1.none
    | apply KeepsE.ok
    | exact KeepsE.error
    | apply KeepsE1.ok
    | exact KeepsE1.error
    | apply findActive_keeps
    | apply appRefuse_keeps
    | apply appAnswer_keeps
    | apply startDrain_keeps
    | refine Keeps.fst (by assumption) ?_
    | refine Keeps.snd (by assumption) ?_
    | refine Keeps.get (by assumption) ?_
    | refine Keeps.get1 (by assumption) ?_
    | refine Keeps.get1' (by assumption) ?_
    | refine KeepsN.get (by assumption) ?_
    | refine Keeps.ok (by assumption) ?_
    | refine Keeps.ok1 (by assumption) ?_
    | split

theorem execDropSeq_keeps {a0 : State} (msg : Nat) (s : State) (h0 : Keeps a0 s) : KeepsN a0 (execDropSeq msg s) := by
  unfold execDropSeq
  try dsimp only
  with_reducible repeat' first
    | assumption
    | rfl
    | apply KeepsN.next
    | apply KeepsN.fault
    | apply KeepsO.some
    | exact KeepsO.none
    | apply KeepsO1.some
    | apply KeepsO1.some'
    | exact KeepsO1.none
    | apply KeepsE.ok
    | exact KeepsE.error
    | apply KeepsE1.ok
    | exact KeepsE1.error
    | apply findActive_keeps
    | apply appRefuse_keeps
    | apply appAnswer_keeps
    | apply startDrain_keeps
    | refine Keeps.fst (by assumption) ?_
    | refine Keeps.snd (by assumption) ?_
    | refine Keeps.get (by assumption) ?_
    | refine Keeps.get1 (by assumption) ?_
    | refine Keeps.get1' (by assumption) ?_
    | refine KeepsN.get (by assumption) ?_
    | refine Keeps.ok (by assumption) ?_
    | refine Keeps.ok1 (by assumption) ?_
    | split

theorem execSequenceDrainComplete_keeps {a0 : State} (desc : Nat) (s : State) (h0 : Keeps a0 s) : KeepsN a0 (execSequenceDrainComplete desc s) := by
  unfold execSequenceDrainComplete
  try dsimp only
  with_reducible repeat' first
    | assumption
    | rfl
    | apply KeepsN.next
    | apply KeepsN.fault
    | apply flush_keeps
    | apply tryDrain_keeps
    | split

theorem placeShares_keeps {a0 : State} (s : State) (i : Nat) (d : Desc) (blocks : List DeltaBlock) (h0 : Keeps a0 s) : KeepsO a0 (placeShares s i d blocks) := by
  unfold placeShares
  try dsimp only
  with_reducible repeat' first
    | assumption
    | rfl
    | apply KeepsO.some
    | exact KeepsO.none
    | apply KeepsO1.some
    | apply KeepsO1.some'
    | exact KeepsO1.none
    | refine KeepsO.foldl (fun _ _ _ => ?_) _ ?_
    | refine KeepsO1.foldl (fun _ _ _ => ?_) _ ?_
    | apply allocSlot_keeps
    | apply modSeqs_keeps
    | refine KeepsO.bind ?_ (fun _ _ => ?_)
    | refine KeepsO.bind1 ?_ (fun _ _ => ?_)
    | refine KeepsO.bind0 (fun _ => ?_)
    | refine KeepsO1.bind ?_ (fun _ _ => ?_)
    | refine KeepsO1.bind1 ?_ (fun _ _ => ?_)
    | refine KeepsO1.bind0 (fun _ => ?_)
    | refine KeepsO.map ?_ (fun _ _ => ?_)
    | refine KeepsO.map1 ?_ (fun _ _ => ?_)
    | refine KeepsO.map0 (fun _ => ?_)
    | refine KeepsO1.map ?_ (fun _ _ => ?_)
    | refine KeepsO1.map1 ?_ (fun _ _ => ?_)
    | refine KeepsO1.map0 (fun _ => ?_)
    | refine Keeps.foldl (fun _ _ _ => ?_) _ ?_
    | refine Keeps.foldl1 (fun _ _ _ => ?_) _ ?_
    | split

theorem takeBase_keeps {a0 : State} (s : State) (d : Desc) (x : DeltaBlock) (h0 : Keeps a0 s) : KeepsE1 a0 (takeBase s d x) := by
  unfold takeBase
  try dsimp only
  with_reducible repeat' first
    | assumption
    | rfl
    | apply KeepsE.ok
    | exact KeepsE.error
    | apply KeepsE1.ok
    | exact KeepsE1.error
    | apply takeRef_keeps
    | apply copyPage_keeps
    | refine Keeps.fst (by assumption) ?_
    | refine Keeps.snd (by assumption) ?_
    | refine Keeps.get (by assumption) ?_
    | refine Keeps.get1 (by assumption) ?_
    | refine Keeps.get1' (by assumption) ?_
    | refine Keeps.ok (by assumption) ?_
    | refine Keeps.ok1 (by assumption) ?_
    | split

theorem applyBind_keeps {a0 : State} (s : State) (i : Nat) (d : Desc) (base : Nat × Desc) (h : Stream) (b : List Byte) (h0 : Keeps a0 s) : KeepsE a0 (applyBind s i d base h b) := by
  unfold applyBind
  try dsimp only
  with_reducible repeat' first
    | assumption
    | rfl
    | apply KeepsO.some
    | exact KeepsO.none
    | apply KeepsO1.some
    | apply KeepsO1.some'
    | exact KeepsO1.none
    | apply KeepsE.ok
    | exact KeepsE.error
    | apply KeepsE1.ok
    | exact KeepsE1.error
    | refine KeepsO.foldl (fun _ _ _ => ?_) _ ?_
    | refine KeepsO1.foldl (fun _ _ _ => ?_) _ ?_
    | refine KeepsE.foldl (fun _ _ _ => ?_) _ ?_
    | refine KeepsE1.foldl (fun _ _ _ => ?_) _ ?_
    | apply takeBase_keeps
    | apply freeSlot_keeps
    | apply modSeqs_keeps
    | apply allocTables_keeps
    | apply placeShares_keeps
    | apply newId_keeps
    | apply modTdir_keeps
    | apply modDesc_keeps
    | refine KeepsO.bind ?_ (fun _ _ => ?_)
    | refine KeepsO.bind1 ?_ (fun _ _ => ?_)
    | refine KeepsO.bind0 (fun _ => ?_)
    | refine KeepsO1.bind ?_ (fun _ _ => ?_)
    | refine KeepsO1.bind1 ?_ (fun _ _ => ?_)
    | refine KeepsO1.bind0 (fun _ => ?_)
    | refine KeepsE.bind ?_ (fun _ _ => ?_)
    | refine KeepsE.bind1 ?_ (fun _ _ => ?_)
    | refine KeepsE.bind0 (fun _ => ?_)
    | refine KeepsE1.bind ?_ (fun _ _ => ?_)
    | refine KeepsE1.bind1 ?_ (fun _ _ => ?_)
    | refine KeepsE1.bind0 (fun _ => ?_)
    | refine KeepsO.getD ?_ ?_
    | refine KeepsO1.getD ?_ ?_
    | refine KeepsO.map ?_ (fun _ _ => ?_)
    | refine KeepsO.map1 ?_ (fun _ _ => ?_)
    | refine KeepsO.map0 (fun _ => ?_)
    | refine KeepsO1.map ?_ (fun _ _ => ?_)
    | refine KeepsO1.map1 ?_ (fun _ _ => ?_)
    | refine KeepsO1.map0 (fun _ => ?_)
    | refine KeepsE.map ?_ (fun _ _ => ?_)
    | refine KeepsE.map1 ?_ (fun _ _ => ?_)
    | refine KeepsE.map0 (fun _ => ?_)
    | refine KeepsE1.map ?_ (fun _ _ => ?_)
    | refine KeepsE1.map1 ?_ (fun _ _ => ?_)
    | refine KeepsE1.map0 (fun _ => ?_)
    | refine Keeps.foldl (fun _ _ _ => ?_) _ ?_
    | refine Keeps.foldl1 (fun _ _ _ => ?_) _ ?_
    | refine Keeps.fst (by assumption) ?_
    | refine Keeps.snd (by assumption) ?_
    | refine Keeps.get (by assumption) ?_
    | refine Keeps.get1 (by assumption) ?_
    | refine Keeps.get1' (by assumption) ?_
    | refine Keeps.ok (by assumption) ?_
    | refine Keeps.ok1 (by assumption) ?_
    | split

theorem readStream_keeps {a0 : State} (s : State) (m : Msg) (a : App) (h0 : Keeps a0 s) : Keeps a0 (readStream s m a).1 := by
  unfold readStream
  try dsimp only
  with_reducible repeat' first
    | assumption
    | rfl
    | apply KeepsO.some
    | exact KeepsO.none
    | apply KeepsO1.some
    | apply KeepsO1.some'
    | exact KeepsO1.none
    | apply KeepsE.ok
    | exact KeepsE.error
    | apply KeepsE1.ok
    | exact KeepsE1.error
    | apply countRefusal_keeps
    | apply rangeCheck_keeps
    | apply readRange_keeps
    | refine Keeps.fst (by assumption) ?_
    | refine Keeps.snd (by assumption) ?_
    | refine Keeps.get (by assumption) ?_
    | refine Keeps.get1 (by assumption) ?_
    | refine Keeps.get1' (by assumption) ?_
    | refine Keeps.ok (by assumption) ?_
    | refine Keeps.ok1 (by assumption) ?_
    | split

theorem execBindDelta_keeps {a0 : State} (msg : Nat) (s : State) (h0 : Keeps a0 s) : KeepsN a0 (execBindDelta msg s) := by
  unfold execBindDelta
  try dsimp only
  with_reducible repeat' first
    | assumption
    | rfl
    | apply KeepsN.next
    | apply KeepsN.fault
    | apply KeepsO.some
    | exact KeepsO.none
    | apply KeepsO1.some
    | apply KeepsO1.some'
    | exact KeepsO1.none
    | apply KeepsE.ok
    | exact KeepsE.error
    | apply KeepsE1.ok
    | exact KeepsE1.error
    | apply appRefuse_keeps
    | apply findOther_keeps
    | apply findActive_keeps
    | apply appAnswer_keeps
    | apply readStream_keeps
    | apply checkShares_keeps
    | apply applyBind_keeps
    | refine KeepsO.map ?_ (fun _ _ => ?_)
    | refine KeepsO.map1 ?_ (fun _ _ => ?_)
    | refine KeepsO.map0 (fun _ => ?_)
    | refine KeepsO1.map ?_ (fun _ _ => ?_)
    | refine KeepsO1.map1 ?_ (fun _ _ => ?_)
    | refine KeepsO1.map0 (fun _ => ?_)
    | refine KeepsE.map ?_ (fun _ _ => ?_)
    | refine KeepsE.map1 ?_ (fun _ _ => ?_)
    | refine KeepsE.map0 (fun _ => ?_)
    | refine KeepsE1.map ?_ (fun _ _ => ?_)
    | refine KeepsE1.map1 ?_ (fun _ _ => ?_)
    | refine KeepsE1.map0 (fun _ => ?_)
    | refine Keeps.fst (by assumption) ?_
    | refine Keeps.snd (by assumption) ?_
    | refine Keeps.get (by assumption) ?_
    | refine Keeps.get1 (by assumption) ?_
    | refine Keeps.get1' (by assumption) ?_
    | refine KeepsN.get (by assumption) ?_
    | refine Keeps.ok (by assumption) ?_
    | refine Keeps.ok1 (by assumption) ?_
    | split

end Sys2Proof.Laws
end

