-- ==== Sys2Proof/Laws/KeepsSeals.lean ====
section
/-!
SUPPORT. The operations of Machine/Seals.lean keep what Laws/Keeps.lean says.
-/
namespace Sys2Proof.Laws
open Sys2Proof.Machine

theorem afterSeal_keeps {a0 : State} (s : State) (it : SealItem) (h0 : Keeps a0 s) : Keeps a0 (afterSeal s it) := by
  unfold afterSeal
  try dsimp only
  with_reducible repeat' first
    | assumption
    | rfl
    | apply KeepsO.some
    | exact KeepsO.none
    | apply KeepsO1.some
    | apply KeepsO1.some'
    | exact KeepsO1.none
    | apply settleSeals_keeps
    | apply retryForks_keeps
    | apply flush_keeps
    | apply offerTransfer_keeps
    | refine Keeps.fst (by assumption) ?_
    | refine Keeps.snd (by assumption) ?_
    | refine Keeps.get (by assumption) ?_
    | refine Keeps.get1 (by assumption) ?_
    | refine Keeps.get1' (by assumption) ?_
    | refine Keeps.ok (by assumption) ?_
    | refine Keeps.ok1 (by assumption) ?_
    | split

theorem putAside_keeps {a0 : State} (s : State) (it : SealItem) (h0 : Keeps a0 s) : Keeps a0 (putAside s it) := by
  unfold putAside
  try dsimp only
  with_reducible repeat' first
    | assumption
    | rfl
    | apply modSeqs_keeps
    | refine KeepsO.map ?_ (fun _ _ => ?_)
    | refine KeepsO.map1 ?_ (fun _ _ => ?_)
    | refine KeepsO.map0 (fun _ => ?_)
    | refine KeepsO1.map ?_ (fun _ _ => ?_)
    | refine KeepsO1.map1 ?_ (fun _ _ => ?_)
    | refine KeepsO1.map0 (fun _ => ?_)
    | split

theorem sealOne_keeps {a0 : State} (s : State) (it : SealItem) (h0 : Keeps a0 s) : Keeps a0 (sealOne s it) := by
  unfold sealOne
  try dsimp only
  with_reducible repeat' first
    | assumption
    | rfl
    | apply KeepsE.ok
    | exact KeepsE.error
    | apply KeepsE1.ok
    | exact KeepsE1.error
    | apply sealItem_keeps
    | apply afterSeal_keeps
    | apply bump_keeps
    | apply putAside_keeps
    | apply retryForks_keeps
    | apply failSeals_keeps
    | refine Keeps.fst (by assumption) ?_
    | refine Keeps.snd (by assumption) ?_
    | refine Keeps.get (by assumption) ?_
    | refine Keeps.get1 (by assumption) ?_
    | refine Keeps.get1' (by assumption) ?_
    | refine Keeps.ok (by assumption) ?_
    | refine Keeps.ok1 (by assumption) ?_
    | split

theorem execTailSeal_keeps {a0 : State} (slice : Slice) (s : State) (h0 : Keeps a0 s) : KeepsN a0 (execTailSeal slice s) := by
  unfold execTailSeal
  try dsimp only
  with_reducible repeat' first
    | assumption
    | rfl
    | apply KeepsN.next
    | apply KeepsN.fault
    | apply KeepsO.some
    | exact KeepsO.none
    | apply KeepsO1.some
    | apply KeepsO1.some'
    | exact KeepsO1.none
    | apply sealOne_keeps
    | refine Keeps.fst (by assumption) ?_
    | refine Keeps.snd (by assumption) ?_
    | refine Keeps.get (by assumption) ?_
    | refine Keeps.get1 (by assumption) ?_
    | refine Keeps.get1' (by assumption) ?_
    | refine KeepsN.get (by assumption) ?_
    | refine Keeps.ok (by assumption) ?_
    | refine Keeps.ok1 (by assumption) ?_
    | split

theorem retryAt_keeps {a0 : State} (s : State) (it : SealItem) (h0 : Keeps a0 s) : Keeps a0 (retryAt s it) := by
  unfold retryAt
  try dsimp only
  with_reducible repeat' first
    | assumption
    | rfl
    | apply passTo_keeps
    | refine KeepsO.getD ?_ ?_
    | refine KeepsO1.getD ?_ ?_
    | refine KeepsO.map ?_ (fun _ _ => ?_)
    | refine KeepsO.map1 ?_ (fun _ _ => ?_)
    | refine KeepsO.map0 (fun _ => ?_)
    | refine KeepsO1.map ?_ (fun _ _ => ?_)
    | refine KeepsO1.map1 ?_ (fun _ _ => ?_)
    | refine KeepsO1.map0 (fun _ => ?_)
    | split

theorem execSealRetry_keeps {a0 : State} (slice : Slice) (s : State) (h0 : Keeps a0 s) : KeepsN a0 (execSealRetry slice s) := by
  unfold execSealRetry
  try dsimp only
  with_reducible repeat' first
    | assumption
    | rfl
    | apply KeepsN.next
    | apply KeepsN.fault
    | apply KeepsO.some
    | exact KeepsO.none
    | apply KeepsO1.some
    | apply KeepsO1.some'
    | exact KeepsO1.none
    | apply sealOne_keeps
    | apply retryAt_keeps
    | refine Keeps.fst (by assumption) ?_
    | refine Keeps.snd (by assumption) ?_
    | refine Keeps.get (by assumption) ?_
    | refine Keeps.get1 (by assumption) ?_
    | refine Keeps.get1' (by assumption) ?_
    | refine KeepsN.get (by assumption) ?_
    | refine Keeps.ok (by assumption) ?_
    | refine Keeps.ok1 (by assumption) ?_
    | split

theorem execRefCountChange_keeps {a0 : State} (slice : Slice) (s : State) (h0 : Keeps a0 s) : KeepsN a0 (execRefCountChange slice s) := by
  unfold execRefCountChange
  try dsimp only
  with_reducible repeat' first
    | assumption
    | rfl
    | apply KeepsN.next
    | apply KeepsN.fault
    | apply KeepsO.some
    | exact KeepsO.none
    | apply KeepsO1.some
    | apply KeepsO1.some'
    | exact KeepsO1.none
    | apply applyRef_keeps
    | apply modSeqs_keeps
    | refine Keeps.fst (by assumption) ?_
    | refine Keeps.snd (by assumption) ?_
    | refine Keeps.get (by assumption) ?_
    | refine Keeps.get1 (by assumption) ?_
    | refine Keeps.get1' (by assumption) ?_
    | refine KeepsN.get (by assumption) ?_
    | refine Keeps.ok (by assumption) ?_
    | refine Keeps.ok1 (by assumption) ?_
    | split

theorem execTailWriteBack_keeps {a0 : State} (tail : TailKey) (s : State) (h0 : Keeps a0 s) : KeepsN a0 (execTailWriteBack tail s) := by
  unfold execTailWriteBack
  try dsimp only
  with_reducible repeat' first
    | assumption
    | rfl
    | apply KeepsN.next
    | apply KeepsN.fault
    | apply KeepsO.some
    | exact KeepsO.none
    | apply KeepsO1.some
    | apply KeepsO1.some'
    | exact KeepsO1.none
    | apply passTo_keeps
    | apply writeBack_keeps
    | refine Keeps.fst (by assumption) ?_
    | refine Keeps.snd (by assumption) ?_
    | refine Keeps.get (by assumption) ?_
    | refine Keeps.get1 (by assumption) ?_
    | refine Keeps.get1' (by assumption) ?_
    | refine KeepsN.get (by assumption) ?_
    | refine Keeps.ok (by assumption) ?_
    | refine Keeps.ok1 (by assumption) ?_
    | split

theorem execTailEvict_keeps {a0 : State} (tail : TailKey) (s : State) (h0 : Keeps a0 s) : KeepsN a0 (execTailEvict tail s) := by
  unfold execTailEvict
  try dsimp only
  with_reducible repeat' first
    | assumption
    | rfl
    | apply KeepsN.next
    | apply KeepsN.fault
    | apply KeepsO.some
    | exact KeepsO.none
    | apply KeepsO1.some
    | apply KeepsO1.some'
    | exact KeepsO1.none
    | apply evictTail_keeps
    | apply passTo_keeps
    | refine Keeps.fst (by assumption) ?_
    | refine Keeps.snd (by assumption) ?_
    | refine Keeps.get (by assumption) ?_
    | refine Keeps.get1 (by assumption) ?_
    | refine Keeps.get1' (by assumption) ?_
    | refine KeepsN.get (by assumption) ?_
    | refine Keeps.ok (by assumption) ?_
    | refine Keeps.ok1 (by assumption) ?_
    | split

theorem promotePage_keeps {a0 : State} (s : State) (k : Nat) (lpn : Nat) (u : SlotUse) (h0 : Keeps a0 s) : Keeps a0 (promotePage s k lpn u) := by
  unfold promotePage
  try dsimp only
  with_reducible repeat' first
    | assumption
    | rfl
    | apply KeepsO.some
    | exact KeepsO.none
    | apply KeepsO1.some
    | apply KeepsO1.some'
    | exact KeepsO1.none
    | apply allocSram_keeps
    | apply load_keeps
    | apply markDamaged_keeps
    | apply demoteUntil_keeps
    | apply modMem_keeps
    | apply poke_keeps
    | refine Keeps.fst (by assumption) ?_
    | refine Keeps.snd (by assumption) ?_
    | refine Keeps.get (by assumption) ?_
    | refine Keeps.get1 (by assumption) ?_
    | refine Keeps.get1' (by assumption) ?_
    | refine Keeps.ok (by assumption) ?_
    | refine Keeps.ok1 (by assumption) ?_
    | split

theorem execPagePromote_keeps {a0 : State} (lpn : Nat) (s : State) (h0 : Keeps a0 s) : KeepsN a0 (execPagePromote lpn s) := by
  unfold execPagePromote
  try dsimp only
  with_reducible repeat' first
    | assumption
    | rfl
    | apply KeepsN.next
    | apply KeepsN.fault
    | apply KeepsO.some
    | exact KeepsO.none
    | apply KeepsO1.some
    | apply KeepsO1.some'
    | exact KeepsO1.none
    | apply promotePage_keeps
    | apply drainRefs_keeps
    | refine KeepsO.getD ?_ ?_
    | refine KeepsO1.getD ?_ ?_
    | refine Keeps.fst (by assumption) ?_
    | refine Keeps.snd (by assumption) ?_
    | refine Keeps.get (by assumption) ?_
    | refine Keeps.get1 (by assumption) ?_
    | refine Keeps.get1' (by assumption) ?_
    | refine KeepsN.get (by assumption) ?_
    | refine Keeps.ok (by assumption) ?_
    | refine Keeps.ok1 (by assumption) ?_
    | split

theorem execPageDemote_keeps {a0 : State} (lpn : Nat) (s : State) (h0 : Keeps a0 s) : KeepsN a0 (execPageDemote lpn s) := by
  unfold execPageDemote
  try dsimp only
  with_reducible repeat' first
    | assumption
    | rfl
    | apply KeepsN.next
    | apply KeepsN.fault
    | apply demote_keeps
    | split

end Sys2Proof.Laws
end

