-- ==== Sys2Proof/Laws/KeepsRemote.lean ====
section
/-!
SUPPORT. The operations of Machine/Remote.lean keep what Laws/Keeps.lean says.
-/
namespace Sys2Proof.Laws
open Sys2Proof.Machine

theorem accCheck_keeps {a0 : State} (s : State) (m : Msg) (write : Bool) (a : AccHdr) (h0 : Keeps a0 s) : Keeps a0 (accCheck s m write a).1 := by
  unfold accCheck
  try dsimp only
  with_reducible repeat' first
    | assumption
    | rfl
    | apply KeepsE.ok
    | exact KeepsE.error
    | apply KeepsE1.ok
    | exact KeepsE1.error
    | apply accessKey_keeps
    | refine Keeps.fst (by assumption) ?_
    | refine Keeps.snd (by assumption) ?_
    | refine Keeps.get (by assumption) ?_
    | refine Keeps.get1 (by assumption) ?_
    | refine Keeps.get1' (by assumption) ?_
    | refine Keeps.ok (by assumption) ?_
    | refine Keeps.ok1 (by assumption) ?_
    | split

theorem startSnapshot_keeps {a0 : State} (s : State) (id : Nat) (i : Nat) (key : Nat) (r : Region) (off : Nat) (len : Nat) (h0 : Keeps a0 s) : Keeps a0 (startSnapshot s id i key r off len) := by
  unfold startSnapshot
  try dsimp only
  with_reducible repeat' first
    | assumption
    | rfl
    | apply modRegion_keeps
    | apply raiseFence_keeps
    | apply modMsg_keeps
    | apply setPhase_keeps
    | split

theorem execReadRegion_keeps {a0 : State} (msg : Nat) (s : State) (h0 : Keeps a0 s) : KeepsN a0 (execReadRegion msg s) := by
  unfold execReadRegion
  try dsimp only
  with_reducible repeat' first
    | assumption
    | rfl
    | apply KeepsN.next
    | apply KeepsN.fault
    | apply KeepsO.some
    | exact KeepsO.none
    | apply KeepsO1.some
    | apply KeepsO1.some'
    | exact KeepsO1.none
    | apply KeepsE.ok
    | exact KeepsE.error
    | apply KeepsE1.ok
    | exact KeepsE1.error
    | apply accCheck_keeps
    | apply answerRead_keeps
    | apply rangeCheck_keeps
    | apply startSnapshot_keeps
    | apply readRange_keeps
    | refine Keeps.fst (by assumption) ?_
    | refine Keeps.snd (by assumption) ?_
    | refine Keeps.get (by assumption) ?_
    | refine Keeps.get1 (by assumption) ?_
    | refine Keeps.get1' (by assumption) ?_
    | refine KeepsN.get (by assumption) ?_
    | refine Keeps.ok (by assumption) ?_
    | refine Keeps.ok1 (by assumption) ?_
    | split

theorem answerWrite_keeps {a0 : State} (s : State) (id : Nat) (m : Msg) (st : Status) (key : Nat) (count : Nat) (h0 : Keeps a0 s) : Keeps a0 (answerWrite s id m st key count) := by
  unfold answerWrite
  try dsimp only
  with_reducible repeat' first
    | assumption
    | rfl
    | apply KeepsE.ok
    | exact KeepsE.error
    | apply KeepsE1.ok
    | exact KeepsE1.error
    | apply bump_keeps
    | apply countRefusal_keeps
    | apply answer_keeps
    | split

theorem execWriteRegion_keeps {a0 : State} (msg : Nat) (s : State) (h0 : Keeps a0 s) : KeepsN a0 (execWriteRegion msg s) := by
  unfold execWriteRegion
  try dsimp only
  with_reducible repeat' first
    | assumption
    | rfl
    | apply KeepsN.next
    | apply KeepsN.fault
    | apply KeepsO.some
    | exact KeepsO.none
    | apply KeepsO1.some
    | apply KeepsO1.some'
    | exact KeepsO1.none
    | apply KeepsE.ok
    | exact KeepsE.error
    | apply KeepsE1.ok
    | exact KeepsE1.error
    | apply answerControl_keeps
    | apply accCheck_keeps
    | apply answerWrite_keeps
    | apply rangeCheck_keeps
    | apply writeRange_keeps
    | refine Keeps.fst (by assumption) ?_
    | refine Keeps.snd (by assumption) ?_
    | refine Keeps.get (by assumption) ?_
    | refine Keeps.get1 (by assumption) ?_
    | refine Keeps.get1' (by assumption) ?_
    | refine KeepsN.get (by assumption) ?_
    | refine Keeps.ok (by assumption) ?_
    | refine Keeps.ok1 (by assumption) ?_
    | split

theorem execSnapshot_keeps {a0 : State} (msg : Nat) (s : State) (h0 : Keeps a0 s) : KeepsN a0 (execSnapshot msg s) := by
  unfold execSnapshot
  try dsimp only
  with_reducible repeat' first
    | assumption
    | rfl
    | apply KeepsN.next
    | apply KeepsN.fault
    | apply KeepsO.some
    | exact KeepsO.none
    | apply KeepsO1.some
    | apply KeepsO1.some'
    | exact KeepsO1.none
    | apply KeepsE.ok
    | exact KeepsE.error
    | apply KeepsE1.ok
    | exact KeepsE1.error
    | apply accCheck_keeps
    | apply answerRead_keeps
    | apply rangeCheck_keeps
    | apply startSnapshot_keeps
    | refine Keeps.fst (by assumption) ?_
    | refine Keeps.snd (by assumption) ?_
    | refine Keeps.get (by assumption) ?_
    | refine Keeps.get1 (by assumption) ?_
    | refine Keeps.get1' (by assumption) ?_
    | refine KeepsN.get (by assumption) ?_
    | refine Keeps.ok (by assumption) ?_
    | refine Keeps.ok1 (by assumption) ?_
    | split

theorem execSnapshotCopy_keeps {a0 : State} (snap : Nat) (s : State) (h0 : Keeps a0 s) : KeepsN a0 (execSnapshotCopy snap s) := by
  unfold execSnapshotCopy
  try dsimp only
  with_reducible repeat' first
    | assumption
    | rfl
    | apply KeepsN.next
    | apply KeepsN.fault
    | apply KeepsO.some
    | exact KeepsO.none
    | apply KeepsO1.some
    | apply KeepsO1.some'
    | exact KeepsO1.none
    | apply snapshotCopy_keeps
    | refine Keeps.fst (by assumption) ?_
    | refine Keeps.snd (by assumption) ?_
    | refine Keeps.get (by assumption) ?_
    | refine Keeps.get1 (by assumption) ?_
    | refine Keeps.get1' (by assumption) ?_
    | refine KeepsN.get (by assumption) ?_
    | refine Keeps.ok (by assumption) ?_
    | refine Keeps.ok1 (by assumption) ?_
    | split

theorem registerSeq_keeps {a0 : State} (s : State) (m : Msg) (x : RegRec) (h0 : Keeps a0 s) : Keeps a0 (registerSeq s m x).1 := by
  unfold registerSeq
  try dsimp only
  with_reducible repeat' first
    | assumption
    | rfl
    | apply KeepsO.some
    | exact KeepsO.none
    | apply KeepsO1.some
    | apply KeepsO1.some'
    | exact KeepsO1.none
    | apply KeepsE.ok
    | exact KeepsE.error
    | apply KeepsE1.ok
    | exact KeepsE1.error
    | apply findSeq_keeps
    | refine Keeps.fst (by assumption) ?_
    | refine Keeps.snd (by assumption) ?_
    | refine Keeps.get (by assumption) ?_
    | refine Keeps.get1 (by assumption) ?_
    | refine Keeps.get1' (by assumption) ?_
    | refine Keeps.ok (by assumption) ?_
    | refine Keeps.ok1 (by assumption) ?_
    | split

theorem scratchGet_keeps {a0 : State} (s : State) (die : Nat) (tenant : Nat) (n : Nat) (h0 : Keeps a0 s) : KeepsE1 a0 (scratchGet s die tenant n) := by
  unfold scratchGet
  try dsimp only
  with_reducible repeat' first
    | assumption
    | rfl
    | apply KeepsO.some
    | exact KeepsO.none
    | apply KeepsO1.some
    | apply KeepsO1.some'
    | exact KeepsO1.none
    | apply KeepsE.ok
    | exact KeepsE.error
    | apply KeepsE1.ok
    | exact KeepsE1.error
    | apply sramGet_keeps
    | apply uncacheUntil_keeps
    | apply evictUntil_keeps
    | apply allocSram_keeps
    | refine Keeps.fst (by assumption) ?_
    | refine Keeps.snd (by assumption) ?_
    | refine Keeps.get (by assumption) ?_
    | refine Keeps.get1 (by assumption) ?_
    | refine Keeps.get1' (by assumption) ?_
    | refine Keeps.ok (by assumption) ?_
    | refine Keeps.ok1 (by assumption) ?_
    | split

theorem registerMem_keeps {a0 : State} (s : State) (m : Msg) (x : RegRec) (h0 : Keeps a0 s) : KeepsE1 a0 (registerMem s m x) := by
  unfold registerMem
  try dsimp only
  with_reducible repeat' first
    | assumption
    | rfl
    | apply KeepsO.some
    | exact KeepsO.none
    | apply KeepsO1.some
    | apply KeepsO1.some'
    | exact KeepsO1.none
    | apply KeepsE.ok
    | exact KeepsE.error
    | apply KeepsE1.ok
    | exact KeepsE1.error
    | apply placeSlot_keeps
    | apply scratchGet_keeps
    | refine KeepsO.findSome (fun _ => ?_) _
    | refine KeepsO1.findSome (fun _ => ?_) _
    | refine Keeps.fst (by assumption) ?_
    | refine Keeps.snd (by assumption) ?_
    | refine Keeps.get (by assumption) ?_
    | refine Keeps.get1 (by assumption) ?_
    | refine Keeps.get1' (by assumption) ?_
    | refine Keeps.ok (by assumption) ?_
    | refine Keeps.ok1 (by assumption) ?_
    | split

theorem registerName_keeps {a0 : State} (s : State) (msg : Nat) (m : Msg) (x : RegRec) (i : Nat) (d : Option Desc) (h0 : Keeps a0 s) : Keeps a0 (registerName s msg m x i d) := by
  unfold registerName
  try dsimp only
  with_reducible repeat' first
    | assumption
    | rfl
    | apply KeepsE.ok
    | exact KeepsE.error
    | apply KeepsE1.ok
    | exact KeepsE1.error
    | apply insertName_keeps
    | apply registerMem_keeps
    | apply answerControl_keeps
    | apply bump_keeps
    | apply enterRegion_keeps
    | refine Keeps.fst (by assumption) ?_
    | refine Keeps.snd (by assumption) ?_
    | refine Keeps.get (by assumption) ?_
    | refine Keeps.get1 (by assumption) ?_
    | refine Keeps.get1' (by assumption) ?_
    | refine Keeps.ok (by assumption) ?_
    | refine Keeps.ok1 (by assumption) ?_
    | split

theorem execRegisterRegion_keeps {a0 : State} (msg : Nat) (s : State) (h0 : Keeps a0 s) : KeepsN a0 (execRegisterRegion msg s) := by
  unfold execRegisterRegion
  try dsimp only
  with_reducible repeat' first
    | assumption
    | rfl
    | apply KeepsN.next
    | apply KeepsN.fault
    | apply KeepsO.some
    | exact KeepsO.none
    | apply KeepsO1.some
    | apply KeepsO1.some'
    | exact KeepsO1.none
    | apply KeepsE.ok
    | exact KeepsE.error
    | apply KeepsE1.ok
    | exact KeepsE1.error
    | apply answerControl_keeps
    | apply registerSeq_keeps
    | apply registerMem_keeps
    | apply registerName_keeps
    | refine Keeps.fst (by assumption) ?_
    | refine Keeps.snd (by assumption) ?_
    | refine Keeps.get (by assumption) ?_
    | refine Keeps.get1 (by assumption) ?_
    | refine Keeps.get1' (by assumption) ?_
    | refine KeepsN.get (by assumption) ?_
    | refine Keeps.ok (by assumption) ?_
    | refine Keeps.ok1 (by assumption) ?_
    | split

theorem execRevokeRegion_keeps {a0 : State} (msg : Nat) (s : State) (h0 : Keeps a0 s) : KeepsN a0 (execRevokeRegion msg s) := by
  unfold execRevokeRegion
  try dsimp only
  with_reducible repeat' first
    | assumption
    | rfl
    | apply KeepsN.next
    | apply KeepsN.fault
    | apply KeepsO.some
    | exact KeepsO.none
    | apply KeepsO1.some
    | apply KeepsO1.some'
    | exact KeepsO1.none
    | apply KeepsE.ok
    | exact KeepsE.error
    | apply KeepsE1.ok
    | exact KeepsE1.error
    | apply answerControl_keeps
    | apply setPhase_keeps
    | apply modRegion_keeps
    | apply startRevoke_keeps
    | refine Keeps.fst (by assumption) ?_
    | refine Keeps.snd (by assumption) ?_
    | refine Keeps.get (by assumption) ?_
    | refine Keeps.get1 (by assumption) ?_
    | refine Keeps.get1' (by assumption) ?_
    | refine KeepsN.get (by assumption) ?_
    | refine Keeps.ok (by assumption) ?_
    | refine Keeps.ok1 (by assumption) ?_
    | split

theorem execReregisterRegion_keeps {a0 : State} (msg : Nat) (s : State) (h0 : Keeps a0 s) : KeepsN a0 (execReregisterRegion msg s) := by
  unfold execReregisterRegion
  try dsimp only
  with_reducible repeat' first
    | assumption
    | rfl
    | apply KeepsN.next
    | apply KeepsN.fault
    | apply KeepsO.some
    | exact KeepsO.none
    | apply KeepsO1.some
    | apply KeepsO1.some'
    | exact KeepsO1.none
    | apply KeepsE.ok
    | exact KeepsE.error
    | apply KeepsE1.ok
    | exact KeepsE1.error
    | apply answerControl_keeps
    | apply startRevoke_keeps
    | refine Keeps.fst (by assumption) ?_
    | refine Keeps.snd (by assumption) ?_
    | refine Keeps.get (by assumption) ?_
    | refine Keeps.get1 (by assumption) ?_
    | refine Keeps.get1' (by assumption) ?_
    | refine KeepsN.get (by assumption) ?_
    | refine Keeps.ok (by assumption) ?_
    | refine Keeps.ok1 (by assumption) ?_
    | split

theorem drainAfter_keeps {a0 : State} (s : State) (r : Region) (h0 : Keeps a0 s) : Keeps a0 (drainAfter s r) := by
  unfold drainAfter
  try dsimp only
  with_reducible repeat' first
    | assumption
    | rfl
    | apply KeepsO.some
    | exact KeepsO.none
    | apply KeepsO1.some
    | apply KeepsO1.some'
    | exact KeepsO1.none
    | apply tryDrain_keeps
    | refine Keeps.fst (by assumption) ?_
    | refine Keeps.snd (by assumption) ?_
    | refine Keeps.get (by assumption) ?_
    | refine Keeps.get1 (by assumption) ?_
    | refine Keeps.get1' (by assumption) ?_
    | refine Keeps.ok (by assumption) ?_
    | refine Keeps.ok1 (by assumption) ?_
    | split

theorem execRevokeDrainComplete_keeps {a0 : State} (index : Nat) (s : State) (h0 : Keeps a0 s) : KeepsN a0 (execRevokeDrainComplete index s) := by
  unfold execRevokeDrainComplete
  try dsimp only
  with_reducible repeat' first
    | assumption
    | rfl
    | apply KeepsN.next
    | apply KeepsN.fault
    | apply KeepsO.some
    | exact KeepsO.none
    | apply KeepsO1.some
    | apply KeepsO1.some'
    | exact KeepsO1.none
    | apply drainAfter_keeps
    | apply finishRevoke_keeps
    | refine Keeps.fst (by assumption) ?_
    | refine Keeps.snd (by assumption) ?_
    | refine Keeps.get (by assumption) ?_
    | refine Keeps.get1 (by assumption) ?_
    | refine Keeps.get1' (by assumption) ?_
    | refine KeepsN.get (by assumption) ?_
    | refine Keeps.ok (by assumption) ?_
    | refine Keeps.ok1 (by assumption) ?_
    | split

theorem execReadResp_keeps {a0 : State} (msg : Nat) (s : State) (h0 : Keeps a0 s) : KeepsN a0 (execReadResp msg s) := by
  unfold execReadResp
  try dsimp only
  with_reducible repeat' first
    | assumption
    | rfl
    | apply KeepsN.next
    | apply KeepsN.fault
    | apply KeepsO.some
    | exact KeepsO.none
    | apply KeepsO1.some
    | apply KeepsO1.some'
    | exact KeepsO1.none
    | apply takeAsk_keeps
    | apply dropMsg_keeps
    | apply flush_keeps
    | apply destRead_keeps
    | refine Keeps.fst (by assumption) ?_
    | refine Keeps.snd (by assumption) ?_
    | refine Keeps.get (by assumption) ?_
    | refine Keeps.get1 (by assumption) ?_
    | refine Keeps.get1' (by assumption) ?_
    | refine KeepsN.get (by assumption) ?_
    | refine Keeps.ok (by assumption) ?_
    | refine Keeps.ok1 (by assumption) ?_
    | split

end Sys2Proof.Laws
end

