-- ==== Sys2Proof/Laws/KeepsFrames.lean ====
section
/-!
SUPPORT. The operations of Machine/Frames.lean keep what Laws/Keeps.lean says.
-/
namespace Sys2Proof.Laws
open Sys2Proof.Machine

theorem modSub_keeps {a0 : State} (s : State) (h : Nat) (u : Nat) (f : SubPort → SubPort) (h0 : Keeps a0 s) : Keeps a0 (modSub s h u f) := by
  unfold modSub
  try dsimp only
  with_reducible repeat' first
    | assumption
    | rfl
    | apply modFab_keeps
    | split

theorem secCheck_keeps {a0 : State} (s : State) (h : Nat) (u : Nat) (f : Arrival) (h0 : Keeps a0 s) : KeepsO a0 (secCheck s h u f) := by
  unfold secCheck
  try dsimp only
  with_reducible repeat' first
    | assumption
    | rfl
    | apply KeepsO.some
    | exact KeepsO.none
    | apply KeepsO1.some
    | apply KeepsO1.some'
    | exact KeepsO1.none
    | apply modSub_keeps
    | refine Keeps.fst (by assumption) ?_
    | refine Keeps.snd (by assumption) ?_
    | refine Keeps.get (by assumption) ?_
    | refine Keeps.get1 (by assumption) ?_
    | refine Keeps.get1' (by assumption) ?_
    | refine Keeps.ok (by assumption) ?_
    | refine Keeps.ok1 (by assumption) ?_
    | split

theorem noteTag_keeps {a0 : State} (s : State) (h : Nat) (tag : Nat) (ep : Nat) (h0 : Keeps a0 s) : Keeps a0 (noteTag s h tag ep) := by
  unfold noteTag
  try dsimp only
  with_reducible repeat' first
    | assumption
    | rfl
    | apply KeepsO.some
    | exact KeepsO.none
    | apply KeepsO1.some
    | apply KeepsO1.some'
    | exact KeepsO1.none
    | apply modFab_keeps
    | apply bump_keeps
    | refine KeepsO.getD ?_ ?_
    | refine KeepsO1.getD ?_ ?_
    | refine KeepsO.map ?_ (fun _ _ => ?_)
    | refine KeepsO.map1 ?_ (fun _ _ => ?_)
    | refine KeepsO.map0 (fun _ => ?_)
    | refine KeepsO1.map ?_ (fun _ _ => ?_)
    | refine KeepsO1.map1 ?_ (fun _ _ => ?_)
    | refine KeepsO1.map0 (fun _ => ?_)
    | refine Keeps.fst (by assumption) ?_
    | refine Keeps.snd (by assumption) ?_
    | refine Keeps.get (by assumption) ?_
    | refine Keeps.get1 (by assumption) ?_
    | refine Keeps.get1' (by assumption) ?_
    | refine Keeps.ok (by assumption) ?_
    | refine Keeps.ok1 (by assumption) ?_
    | split

theorem retransmit_keeps {a0 : State} (s : State) (id : Nat) (c : Conn) (g : SentSeg) (h0 : Keeps a0 s) : Keeps a0 (retransmit s id c g) := by
  unfold retransmit
  try dsimp only
  with_reducible repeat' first
    | assumption
    | rfl
    | apply bump_keeps
    | apply toEgress_keeps
    | apply modConn_keeps
    | refine KeepsO.map ?_ (fun _ _ => ?_)
    | refine KeepsO.map1 ?_ (fun _ _ => ?_)
    | refine KeepsO.map0 (fun _ => ?_)
    | refine KeepsO1.map ?_ (fun _ _ => ?_)
    | refine KeepsO1.map1 ?_ (fun _ _ => ?_)
    | refine KeepsO1.map0 (fun _ => ?_)
    | split

theorem takeBack_keeps {a0 : State} (s : State) (id : Nat) (h0 : Keeps a0 s) : Keeps a0 (takeBack s id) := by
  unfold takeBack
  try dsimp only
  with_reducible repeat' first
    | assumption
    | rfl
    | apply KeepsO.some
    | exact KeepsO.none
    | apply KeepsO1.some
    | apply KeepsO1.some'
    | exact KeepsO1.none
    | apply keepEgress_keeps
    | apply modConn_keeps
    | refine KeepsO.getD ?_ ?_
    | refine KeepsO1.getD ?_ ?_
    | refine KeepsO.map ?_ (fun _ _ => ?_)
    | refine KeepsO.map1 ?_ (fun _ _ => ?_)
    | refine KeepsO.map0 (fun _ => ?_)
    | refine KeepsO1.map ?_ (fun _ _ => ?_)
    | refine KeepsO1.map1 ?_ (fun _ _ => ?_)
    | refine KeepsO1.map0 (fun _ => ?_)
    | refine Keeps.fst (by assumption) ?_
    | refine Keeps.snd (by assumption) ?_
    | refine Keeps.get (by assumption) ?_
    | refine Keeps.get1 (by assumption) ?_
    | refine Keeps.get1' (by assumption) ?_
    | refine Keeps.ok (by assumption) ?_
    | refine Keeps.ok1 (by assumption) ?_
    | split

theorem pumpHub_keeps {a0 : State} (s : State) (h : Nat) (h0 : Keeps a0 s) : Keeps a0 (pumpHub s h) := by
  unfold pumpHub
  try dsimp only
  with_reducible repeat' first
    | assumption
    | rfl
    | apply pump_keeps
    | refine Keeps.foldl (fun _ _ _ => ?_) _ ?_
    | refine Keeps.foldl1 (fun _ _ _ => ?_) _ ?_
    | split

theorem onAck_keeps {a0 : State} (s : State) (id : Nat) (ack : Nat) (credit : Nat) (bl : List (Nat × Nat)) (h0 : Keeps a0 s) : Keeps a0 (onAck s id ack credit bl) := by
  unfold onAck
  try dsimp only
  with_reducible repeat' first
    | assumption
    | rfl
    | apply KeepsO.some
    | exact KeepsO.none
    | apply KeepsO1.some
    | apply KeepsO1.some'
    | exact KeepsO1.none
    | refine KeepsO.foldl (fun _ _ _ => ?_) _ ?_
    | refine KeepsO1.foldl (fun _ _ _ => ?_) _ ?_
    | apply modConn_keeps
    | apply keepEgress_keeps
    | apply takeBack_keeps
    | apply retransmit_keeps
    | apply settleConn_keeps
    | apply pumpHub_keeps
    | refine KeepsO.getD ?_ ?_
    | refine KeepsO1.getD ?_ ?_
    | refine KeepsO.map ?_ (fun _ _ => ?_)
    | refine KeepsO.map1 ?_ (fun _ _ => ?_)
    | refine KeepsO.map0 (fun _ => ?_)
    | refine KeepsO1.map ?_ (fun _ _ => ?_)
    | refine KeepsO1.map1 ?_ (fun _ _ => ?_)
    | refine KeepsO1.map0 (fun _ => ?_)
    | refine Keeps.foldl (fun _ _ _ => ?_) _ ?_
    | refine Keeps.foldl1 (fun _ _ _ => ?_) _ ?_
    | refine Keeps.fst (by assumption) ?_
    | refine Keeps.snd (by assumption) ?_
    | refine Keeps.get (by assumption) ?_
    | refine Keeps.get1 (by assumption) ?_
    | refine Keeps.get1' (by assumption) ?_
    | refine Keeps.ok (by assumption) ?_
    | refine Keeps.ok1 (by assumption) ?_
    | split

theorem askFailed_keeps {a0 : State} (s : State) (a : Ask) (h0 : Keeps a0 s) : Keeps a0 (askFailed s a) := by
  unfold askFailed
  try dsimp only
  with_reducible repeat' first
    | assumption
    | rfl
    | apply KeepsO.some
    | exact KeepsO.none
    | apply KeepsO1.some
    | apply KeepsO1.some'
    | exact KeepsO1.none
    | apply contribAnswered_keeps
    | apply readFailed_keeps
    | apply modLedg_keeps
    | apply destRead_keeps
    | refine KeepsO.map ?_ (fun _ _ => ?_)
    | refine KeepsO.map1 ?_ (fun _ _ => ?_)
    | refine KeepsO.map0 (fun _ => ?_)
    | refine KeepsO1.map ?_ (fun _ _ => ?_)
    | refine KeepsO1.map1 ?_ (fun _ _ => ?_)
    | refine KeepsO1.map0 (fun _ => ?_)
    | refine Keeps.fst (by assumption) ?_
    | refine Keeps.snd (by assumption) ?_
    | refine Keeps.get (by assumption) ?_
    | refine Keeps.get1 (by assumption) ?_
    | refine Keeps.get1' (by assumption) ?_
    | refine Keeps.ok (by assumption) ?_
    | refine Keeps.ok1 (by assumption) ?_
    | split

theorem reissue_keeps {a0 : State} (s : State) (h : Nat) (c : Conn) (h0 : Keeps a0 s) : Keeps a0 (reissue s h c) := by
  unfold reissue
  try dsimp only
  with_reducible repeat' first
    | assumption
    | rfl
    | apply askFailed_keeps
    | apply ask_keeps
    | refine Keeps.foldl (fun _ _ _ => ?_) _ ?_
    | refine Keeps.foldl1 (fun _ _ _ => ?_) _ ?_
    | refine Keeps.fst (by assumption) ?_
    | refine Keeps.snd (by assumption) ?_
    | refine Keeps.get (by assumption) ?_
    | refine Keeps.get1 (by assumption) ?_
    | refine Keeps.get1' (by assumption) ?_
    | refine Keeps.ok (by assumption) ?_
    | refine Keeps.ok1 (by assumption) ?_
    | split

theorem connFail_keeps {a0 : State} (s : State) (id : Nat) (h0 : Keeps a0 s) : Keeps a0 (connFail s id) := by
  unfold connFail
  try dsimp only
  with_reducible repeat' first
    | assumption
    | rfl
    | apply KeepsO.some
    | exact KeepsO.none
    | apply KeepsO1.some
    | apply KeepsO1.some'
    | exact KeepsO1.none
    | apply bump_keeps
    | apply endSessions_keeps
    | apply modConn_keeps
    | apply reissue_keeps
    | apply keepEgress_keeps
    | apply pumpHub_keeps
    | apply reopen_keeps
    | refine Keeps.fst (by assumption) ?_
    | refine Keeps.snd (by assumption) ?_
    | refine Keeps.get (by assumption) ?_
    | refine Keeps.get1 (by assumption) ?_
    | refine Keeps.get1' (by assumption) ?_
    | refine Keeps.ok (by assumption) ?_
    | refine Keeps.ok1 (by assumption) ?_
    | split

theorem openFailed_keeps {a0 : State} (s : State) (id : Nat) (h0 : Keeps a0 s) : Keeps a0 (openFailed s id) := by
  unfold openFailed
  try dsimp only
  with_reducible repeat' first
    | assumption
    | rfl
    | apply KeepsO.some
    | exact KeepsO.none
    | apply KeepsO1.some
    | apply KeepsO1.some'
    | exact KeepsO1.none
    | refine KeepsO.foldl (fun _ _ _ => ?_) _ ?_
    | refine KeepsO1.foldl (fun _ _ _ => ?_) _ ?_
    | apply flush_keeps
    | apply askFailed_keeps
    | apply dropConn_keeps
    | refine Keeps.foldl (fun _ _ _ => ?_) _ ?_
    | refine Keeps.foldl1 (fun _ _ _ => ?_) _ ?_
    | refine Keeps.fst (by assumption) ?_
    | refine Keeps.snd (by assumption) ?_
    | refine Keeps.get (by assumption) ?_
    | refine Keeps.get1 (by assumption) ?_
    | refine Keeps.get1' (by assumption) ?_
    | refine Keeps.ok (by assumption) ?_
    | refine Keeps.ok1 (by assumption) ?_
    | split

theorem orderSeven_keeps {a0 : State} (s : State) (c : Conn) (f : Frame) (h0 : Keeps a0 s) : Keeps a0 (orderSeven s c f).1 := by
  unfold orderSeven
  try dsimp only
  with_reducible repeat' first
    | assumption
    | rfl
    | apply bump_keeps
    | split

theorem answerEight_keeps {a0 : State} (s : State) (c : Conn) (f : Frame) (h0 : Keeps a0 s) : Keeps a0 (answerEight s c f).1 := by
  unfold answerEight
  try dsimp only
  with_reducible repeat' first
    | assumption
    | rfl
    | apply orderEight_keeps
    | refine Keeps.fst (by assumption) ?_
    | refine Keeps.snd (by assumption) ?_
    | refine Keeps.get (by assumption) ?_
    | refine Keeps.get1 (by assumption) ?_
    | refine Keeps.get1' (by assumption) ?_
    | refine Keeps.ok (by assumption) ?_
    | refine Keeps.ok1 (by assumption) ?_
    | split

theorem ordersEightNine_keeps {a0 : State} (s : State) (id : Nat) (c : Conn) (f : Frame) (op : Opcode) (h0 : Keeps a0 s) : Keeps a0 (ordersEightNine s id c f op).1 := by
  unfold ordersEightNine
  try dsimp only
  with_reducible repeat' first
    | assumption
    | rfl
    | apply orderEight_keeps
    | apply nine_keeps
    | refine Keeps.fst (by assumption) ?_
    | refine Keeps.snd (by assumption) ?_
    | refine Keeps.get (by assumption) ?_
    | refine Keeps.get1 (by assumption) ?_
    | refine Keeps.get1' (by assumption) ?_
    | refine Keeps.ok (by assumption) ?_
    | refine Keeps.ok1 (by assumption) ?_
    | split

theorem firstChecks_keeps {a0 : State} (s : State) (id : Nat) (c : Conn) (f : Frame) (h0 : Keeps a0 s) : Keeps a0 (firstChecks s id c f).1 := by
  unfold firstChecks
  try dsimp only
  with_reducible repeat' first
    | assumption
    | rfl
    | apply KeepsO.some
    | exact KeepsO.none
    | apply KeepsO1.some
    | apply KeepsO1.some'
    | exact KeepsO1.none
    | apply orderSeven_keeps
    | apply answerEight_keeps
    | apply ordersEightNine_keeps
    | refine Keeps.fst (by assumption) ?_
    | refine Keeps.snd (by assumption) ?_
    | refine Keeps.get (by assumption) ?_
    | refine Keeps.get1 (by assumption) ?_
    | refine Keeps.get1' (by assumption) ?_
    | refine Keeps.ok (by assumption) ?_
    | refine Keeps.ok1 (by assumption) ?_
    | split

theorem takeSegs_keeps {a0 : State} (s : State) (id : Nat) (fs : List Frame) (h0 : Keeps a0 s) : Keeps a0 (takeSegs s id fs) := by
  unfold takeSegs
  try dsimp only
  with_reducible repeat' first
    | assumption
    | rfl
    | apply modConn_keeps
    | refine KeepsO.map ?_ (fun _ _ => ?_)
    | refine KeepsO.map1 ?_ (fun _ _ => ?_)
    | refine KeepsO.map0 (fun _ => ?_)
    | refine KeepsO1.map ?_ (fun _ _ => ?_)
    | refine KeepsO1.map1 ?_ (fun _ _ => ?_)
    | refine KeepsO1.map0 (fun _ => ?_)
    | split

theorem refuseHead_keeps {a0 : State} (s : State) (id : Nat) (hd : Frame) (st : Status) (upTo : Nat) (h0 : Keeps a0 s) : Keeps a0 (refuseHead s id hd st upTo) := by
  unfold refuseHead
  try dsimp only
  with_reducible repeat' first
    | assumption
    | rfl
    | apply modConn_keeps
    | apply sendNack_keeps
    | split

theorem takeClose_keeps {a0 : State} (s : State) (id : Nat) (hd : Frame) (h0 : Keeps a0 s) : Keeps a0 (takeClose s id hd) := by
  unfold takeClose
  try dsimp only
  with_reducible repeat' first
    | assumption
    | rfl
    | apply modConn_keeps
    | split

theorem handOver_keeps {a0 : State} (s : State) (id : Nat) (c : Conn) (hd : Frame) (part : List Frame) (h0 : Keeps a0 s) : Keeps a0 (handOver s id c hd part) := by
  unfold handOver
  try dsimp only
  with_reducible repeat' first
    | assumption
    | rfl
    | apply KeepsO.some
    | exact KeepsO.none
    | apply KeepsO1.some
    | apply KeepsO1.some'
    | exact KeepsO1.none
    | apply modConn_keeps
    | apply sendNack_keeps
    | apply newId_keeps
    | apply takeClose_keeps
    | apply setMsgs_keeps
    | apply modMeter_keeps
    | apply runNine_keeps
    | apply nineWhole_keeps
    | apply refuseNine_keeps
    | apply setPhase_keeps
    | refine KeepsO.getD ?_ ?_
    | refine KeepsO1.getD ?_ ?_
    | refine KeepsO.map ?_ (fun _ _ => ?_)
    | refine KeepsO.map1 ?_ (fun _ _ => ?_)
    | refine KeepsO.map0 (fun _ => ?_)
    | refine KeepsO1.map ?_ (fun _ _ => ?_)
    | refine KeepsO1.map1 ?_ (fun _ _ => ?_)
    | refine KeepsO1.map0 (fun _ => ?_)
    | apply setMsgs_keeps
    | refine Keeps.fst (by assumption) ?_
    | refine Keeps.snd (by assumption) ?_
    | refine Keeps.get (by assumption) ?_
    | refine Keeps.get1 (by assumption) ?_
    | refine Keeps.get1' (by assumption) ?_
    | refine Keeps.ok (by assumption) ?_
    | refine Keeps.ok1 (by assumption) ?_
    | split

theorem deliverLoop_keeps {a0 : State} :
    ∀ (x0 : Nat) (x1 : State) (x2 : Nat), Keeps a0 x1 → Keeps a0 (deliverLoop x0 x1 x2)
  | 0, _, _, h0 => by
    unfold deliverLoop
    try dsimp only
    with_reducible repeat' first
      | assumption
      | rfl
      | apply KeepsO.some
      | exact KeepsO.none
      | apply KeepsO1.some
      | apply KeepsO1.some'
      | exact KeepsO1.none
      | apply takeClose_keeps
      | apply takeSegs_keeps
      | apply refuseHead_keeps
      | apply handOver_keeps
      | refine Keeps.fst (by assumption) ?_
      | refine Keeps.snd (by assumption) ?_
      | refine Keeps.get (by assumption) ?_
      | refine Keeps.get1 (by assumption) ?_
      | refine Keeps.get1' (by assumption) ?_
      | refine Keeps.ok (by assumption) ?_
      | refine Keeps.ok1 (by assumption) ?_
      | split
  | n + 1, _, _, h0 => by
    unfold deliverLoop
    try dsimp only
    with_reducible repeat' first
      | assumption
      | rfl
      | apply KeepsO.some
      | exact KeepsO.none
      | apply KeepsO1.some
      | apply KeepsO1.some'
      | exact KeepsO1.none
      | apply takeClose_keeps
      | apply takeSegs_keeps
      | apply refuseHead_keeps
      | apply handOver_keeps
      | refine Keeps.fst (by assumption) ?_
      | refine Keeps.snd (by assumption) ?_
      | refine Keeps.get (by assumption) ?_
      | refine Keeps.get1 (by assumption) ?_
      | refine Keeps.get1' (by assumption) ?_
      | refine Keeps.ok (by assumption) ?_
      | refine Keeps.ok1 (by assumption) ?_
      | split
      | apply deliverLoop_keeps

theorem forgetRefused_keeps {a0 : State} (s : State) (id : Nat) (h0 : Keeps a0 s) : Keeps a0 (forgetRefused s id) := by
  unfold forgetRefused
  try dsimp only
  with_reducible repeat' first
    | assumption
    | rfl
    | apply modConn_keeps
    | split

theorem ackAfter_keeps {a0 : State} (s : State) (id : Nat) (atOnce : Bool) (h0 : Keeps a0 s) : Keeps a0 (ackAfter s id atOnce) := by
  unfold ackAfter
  try dsimp only
  with_reducible repeat' first
    | assumption
    | rfl
    | apply KeepsO.some
    | exact KeepsO.none
    | apply KeepsO1.some
    | apply KeepsO1.some'
    | exact KeepsO1.none
    | apply sendAck_keeps
    | apply modConn_keeps
    | refine Keeps.fst (by assumption) ?_
    | refine Keeps.snd (by assumption) ?_
    | refine Keeps.get (by assumption) ?_
    | refine Keeps.get1 (by assumption) ?_
    | refine Keeps.get1' (by assumption) ?_
    | refine Keeps.ok (by assumption) ?_
    | refine Keeps.ok1 (by assumption) ?_
    | split

theorem takeIn_keeps {a0 : State} (s : State) (id : Nat) (c : Conn) (f : Frame) (h0 : Keeps a0 s) : Keeps a0 (takeIn s id c f) := by
  unfold takeIn
  try dsimp only
  with_reducible repeat' first
    | assumption
    | rfl
    | apply KeepsO.some
    | exact KeepsO.none
    | apply KeepsO1.some
    | apply KeepsO1.some'
    | exact KeepsO1.none
    | apply modConn_keeps
    | apply forgetRefused_keeps
    | apply deliverLoop_keeps
    | apply reopen_keeps
    | apply ackAfter_keeps
    | refine KeepsO.map ?_ (fun _ _ => ?_)
    | refine KeepsO.map1 ?_ (fun _ _ => ?_)
    | refine KeepsO.map0 (fun _ => ?_)
    | refine KeepsO1.map ?_ (fun _ _ => ?_)
    | refine KeepsO1.map1 ?_ (fun _ _ => ?_)
    | refine KeepsO1.map0 (fun _ => ?_)
    | refine Keeps.fst (by assumption) ?_
    | refine Keeps.snd (by assumption) ?_
    | refine Keeps.get (by assumption) ?_
    | refine Keeps.get1 (by assumption) ?_
    | refine Keeps.get1' (by assumption) ?_
    | refine Keeps.ok (by assumption) ?_
    | refine Keeps.ok1 (by assumption) ?_
    | split

theorem accept_keeps {a0 : State} (s : State) (id : Nat) (c : Conn) (f : Frame) (h0 : Keeps a0 s) : Keeps a0 (accept s id c f) := by
  unfold accept
  try dsimp only
  with_reducible repeat' first
    | assumption
    | rfl
    | apply firstChecks_keeps
    | apply modConn_keeps
    | apply sendNack_keeps
    | apply takeIn_keeps
    | refine Keeps.fst (by assumption) ?_
    | refine Keeps.snd (by assumption) ?_
    | refine Keeps.get (by assumption) ?_
    | refine Keeps.get1 (by assumption) ?_
    | refine Keeps.get1' (by assumption) ?_
    | refine Keeps.ok (by assumption) ?_
    | refine Keeps.ok1 (by assumption) ?_
    | split

theorem refuseVersion_keeps {a0 : State} (s : State) (id : Nat) (c : Conn) (f : Frame) (h0 : Keeps a0 s) : Keeps a0 (refuseVersion s id c f) := by
  unfold refuseVersion
  try dsimp only
  with_reducible repeat' first
    | assumption
    | rfl
    | apply sendNack_keeps
    | apply takeIn_keeps
    | apply modConn_keeps
    | split

theorem judge_keeps {a0 : State} (s : State) (id : Nat) (c : Conn) (f : Frame) (h0 : Keeps a0 s) : Keeps a0 (judge s id c f) := by
  unfold judge
  try dsimp only
  with_reducible repeat' first
    | assumption
    | rfl
    | apply sendAck_keeps
    | apply bump_keeps
    | apply accept_keeps
    | split

theorem queueUnseq_keeps {a0 : State} (s : State) (id : Nat) (c : Conn) (f : Frame) (op : Opcode) (h0 : Keeps a0 s) : Keeps a0 (queueUnseq s id c f op) := by
  unfold queueUnseq
  try dsimp only
  with_reducible repeat' first
    | assumption
    | rfl
    | apply newId_keeps
    | apply setMsgs_keeps
    | apply setMsgs_keeps
    | refine Keeps.fst (by assumption) ?_
    | refine Keeps.snd (by assumption) ?_
    | refine Keeps.get (by assumption) ?_
    | refine Keeps.get1 (by assumption) ?_
    | refine Keeps.get1' (by assumption) ?_
    | refine Keeps.ok (by assumption) ?_
    | refine Keeps.ok1 (by assumption) ?_
    | split

theorem connFrame_keeps {a0 : State} (s : State) (id : Nat) (f : Frame) (h0 : Keeps a0 s) : Keeps a0 (connFrame s id f) := by
  unfold connFrame
  try dsimp only
  with_reducible repeat' first
    | assumption
    | rfl
    | apply KeepsO.some
    | exact KeepsO.none
    | apply KeepsO1.some
    | apply KeepsO1.some'
    | exact KeepsO1.none
    | apply refuseVersion_keeps
    | apply newId_keeps
    | apply modConn_keeps
    | apply bump_keeps
    | apply noteTag_keeps
    | apply onAck_keeps
    | apply queueUnseq_keeps
    | apply judge_keeps
    | refine Keeps.fst (by assumption) ?_
    | refine Keeps.snd (by assumption) ?_
    | refine Keeps.get (by assumption) ?_
    | refine Keeps.get1 (by assumption) ?_
    | refine Keeps.get1' (by assumption) ?_
    | refine Keeps.ok (by assumption) ?_
    | refine Keeps.ok1 (by assumption) ?_
    | split

theorem queueHello_keeps {a0 : State} (s : State) (h : Nat) (peerAddr : Nat) (f : Frame) (h0 : Keeps a0 s) : Keeps a0 (queueHello s h peerAddr f) := by
  unfold queueHello
  try dsimp only
  with_reducible repeat' first
    | assumption
    | rfl
    | apply noteTag_keeps
    | apply bareNack_keeps
    | apply newId_keeps
    | apply setMsgs_keeps
    | apply setMsgs_keeps
    | refine Keeps.fst (by assumption) ?_
    | refine Keeps.snd (by assumption) ?_
    | refine Keeps.get (by assumption) ?_
    | refine Keeps.get1 (by assumption) ?_
    | refine Keeps.get1' (by assumption) ?_
    | refine Keeps.ok (by assumption) ?_
    | refine Keeps.ok1 (by assumption) ?_
    | split

theorem seekConn_keeps {a0 : State} :
    ∀ (ep : Nat) (cid : Nat) (peer : Nat) (x0 : List Nat) (x1 : State) (x2 : Bool), Keeps a0 x1 → Keeps a0 (seekConn ep cid peer x0 x1 x2).1
  | _, _, _, [], _, _, h0 => by
    unfold seekConn
    try dsimp only
    with_reducible repeat' first
      | assumption
      | rfl
      | apply KeepsO.some
      | exact KeepsO.none
      | apply KeepsO1.some
      | apply KeepsO1.some'
      | exact KeepsO1.none
      | apply KeepsE.ok
      | exact KeepsE.error
      | apply KeepsE1.ok
      | exact KeepsE1.error
      | apply search_keeps
      | refine Keeps.fst (by assumption) ?_
      | refine Keeps.snd (by assumption) ?_
      | refine Keeps.get (by assumption) ?_
      | refine Keeps.get1 (by assumption) ?_
      | refine Keeps.get1' (by assumption) ?_
      | refine Keeps.ok (by assumption) ?_
      | refine Keeps.ok1 (by assumption) ?_
      | split
  | _, _, _, p :: ps, _, _, h0 => by
    unfold seekConn
    try dsimp only
    with_reducible repeat' first
      | assumption
      | rfl
      | apply KeepsO.some
      | exact KeepsO.none
      | apply KeepsO1.some
      | apply KeepsO1.some'
      | exact KeepsO1.none
      | apply KeepsE.ok
      | exact KeepsE.error
      | apply KeepsE1.ok
      | exact KeepsE1.error
      | apply search_keeps
      | refine Keeps.fst (by assumption) ?_
      | refine Keeps.snd (by assumption) ?_
      | refine Keeps.get (by assumption) ?_
      | refine Keeps.get1 (by assumption) ?_
      | refine Keeps.get1' (by assumption) ?_
      | refine Keeps.ok (by assumption) ?_
      | refine Keeps.ok1 (by assumption) ?_
      | split
      | apply seekConn_keeps

theorem waitFill_keeps {a0 : State} (s : State) (id : Nat) (c : Conn) (f : Frame) (h0 : Keeps a0 s) : Keeps a0 (waitFill s id c f) := by
  unfold waitFill
  try dsimp only
  with_reducible repeat' first
    | assumption
    | rfl
    | apply bump_keeps
    | apply modFab_keeps
    | split

theorem plembelFrame_keeps {a0 : State} (s : State) (h : Nat) (peerAddr : Nat) (f : Frame) (h0 : Keeps a0 s) : Keeps a0 (plembelFrame s h peerAddr f) := by
  unfold plembelFrame
  try dsimp only
  with_reducible repeat' first
    | assumption
    | rfl
    | apply KeepsO.some
    | exact KeepsO.none
    | apply KeepsO1.some
    | apply KeepsO1.some'
    | exact KeepsO1.none
    | apply KeepsE.ok
    | exact KeepsE.error
    | apply KeepsE1.ok
    | exact KeepsE1.error
    | apply queueHello_keeps
    | apply bareNack_keeps
    | apply seekConn_keeps
    | apply waitFill_keeps
    | apply connFrame_keeps
    | refine Keeps.fst (by assumption) ?_
    | refine Keeps.snd (by assumption) ?_
    | refine Keeps.get (by assumption) ?_
    | refine Keeps.get1 (by assumption) ?_
    | refine Keeps.get1' (by assumption) ?_
    | refine Keeps.ok (by assumption) ?_
    | refine Keeps.ok1 (by assumption) ?_
    | split

theorem execPlembelFrameReceive_keeps {a0 : State} (hub : Hub) (f : Arrival) (s : State) (h0 : Keeps a0 s) : KeepsN a0 (execPlembelFrameReceive hub f s) := by
  unfold execPlembelFrameReceive
  try dsimp only
  with_reducible repeat' first
    | assumption
    | rfl
    | apply KeepsN.next
    | apply KeepsN.fault
    | apply KeepsO.some
    | exact KeepsO.none
    | apply KeepsO1.some
    | apply KeepsO1.some'
    | exact KeepsO1.none
    | apply bumpAt_keeps
    | apply bump_keeps
    | apply secCheck_keeps
    | apply plembelFrame_keeps
    | refine Keeps.fst (by assumption) ?_
    | refine Keeps.snd (by assumption) ?_
    | refine Keeps.get (by assumption) ?_
    | refine Keeps.get1 (by assumption) ?_
    | refine Keeps.get1' (by assumption) ?_
    | refine KeepsN.get (by assumption) ?_
    | refine Keeps.ok (by assumption) ?_
    | refine Keeps.ok1 (by assumption) ?_
    | split

end Sys2Proof.Laws
end

