-- ==== Sys2Proof/Laws/KeepsKeys.lean ====
section
/-!
SUPPORT. The operations of Machine/Keys.lean keep what Laws/Keeps.lean says.
-/
namespace Sys2Proof.Laws
open Sys2Proof.Machine

theorem modKx_keeps {a0 : State} (s : State) (h : Nat) (u : Nat) (f : Kx → Kx) (h0 : Keeps a0 s) : Keeps a0 (modKx s h u f) := by
  unfold modKx
  try dsimp only
  with_reducible repeat' first
    | assumption
    | rfl
    | apply modSub_keeps
    | split

theorem startKx_keeps {a0 : State} (s : State) (h : Nat) (u : Nat) (xid : Nat) (h0 : Keeps a0 s) : Keeps a0 (startKx s h u xid) := by
  unfold startKx
  try dsimp only
  with_reducible repeat' first
    | assumption
    | rfl
    | apply freshBytes_keeps
    | apply modKx_keeps
    | apply emit_keeps
    | refine Keeps.fst (by assumption) ?_
    | refine Keeps.snd (by assumption) ?_
    | refine Keeps.get (by assumption) ?_
    | refine Keeps.get1 (by assumption) ?_
    | refine Keeps.get1' (by assumption) ?_
    | refine Keeps.ok (by assumption) ?_
    | refine Keeps.ok1 (by assumption) ?_
    | split

theorem failKx_keeps {a0 : State} (s : State) (h : Nat) (u : Nat) (h0 : Keeps a0 s) : Keeps a0 (failKx s h u) := by
  unfold failKx
  try dsimp only
  with_reducible repeat' first
    | assumption
    | rfl
    | apply bump_keeps
    | apply modKx_keeps
    | split

theorem sendKx2_keeps {a0 : State} (s : State) (h : Nat) (u : Nat) (h0 : Keeps a0 s) : Keeps a0 (sendKx2 s h u) := by
  unfold sendKx2
  try dsimp only
  with_reducible repeat' first
    | assumption
    | rfl
    | apply failKx_keeps
    | apply modKx_keeps
    | apply emit_keeps
    | split

theorem execKx1_keeps {a0 : State} (hub : Hub) (sub : Sub) (frame : List Byte) (s : State) (h0 : Keeps a0 s) : KeepsN a0 (execKx1 hub sub frame s) := by
  unfold execKx1
  try dsimp only
  with_reducible repeat' first
    | assumption
    | rfl
    | apply KeepsN.next
    | apply KeepsN.fault
    | apply startKx_keeps
    | apply sendKx2_keeps
    | apply modKx_keeps
    | apply emit_keeps
    | split

theorem execKx2_keeps {a0 : State} (hub : Hub) (sub : Sub) (frame : List Byte) (s : State) (h0 : Keeps a0 s) : KeepsN a0 (execKx2 hub sub frame s) := by
  unfold execKx2
  try dsimp only
  with_reducible repeat' first
    | assumption
    | rfl
    | apply KeepsN.next
    | apply KeepsN.fault
    | apply KeepsO.some
    | exact KeepsO.none
    | apply KeepsO1.some
    | apply KeepsO1.some'
    | exact KeepsO1.none
    | apply failKx_keeps
    | apply modSub_keeps
    | apply emit_keeps
    | refine Keeps.fst (by assumption) ?_
    | refine Keeps.snd (by assumption) ?_
    | refine Keeps.get (by assumption) ?_
    | refine Keeps.get1 (by assumption) ?_
    | refine Keeps.get1' (by assumption) ?_
    | refine KeepsN.get (by assumption) ?_
    | refine Keeps.ok (by assumption) ?_
    | refine Keeps.ok1 (by assumption) ?_
    | split

theorem execKx3_keeps {a0 : State} (hub : Hub) (sub : Sub) (frame : List Byte) (s : State) (h0 : Keeps a0 s) : KeepsN a0 (execKx3 hub sub frame s) := by
  unfold execKx3
  try dsimp only
  with_reducible repeat' first
    | assumption
    | rfl
    | apply KeepsN.next
    | apply KeepsN.fault
    | apply KeepsO.some
    | exact KeepsO.none
    | apply KeepsO1.some
    | apply KeepsO1.some'
    | exact KeepsO1.none
    | apply bump_keeps
    | apply modSub_keeps
    | split

theorem execKx1Retry_keeps {a0 : State} (hub : Hub) (sub : Sub) (s : State) (h0 : Keeps a0 s) : KeepsN a0 (execKx1Retry hub sub s) := by
  unfold execKx1Retry
  try dsimp only
  with_reducible repeat' first
    | assumption
    | rfl
    | apply KeepsN.next
    | apply KeepsN.fault
    | apply passTo_keeps
    | apply failKx_keeps
    | apply emit_keeps
    | apply modKx_keeps
    | split

theorem execKxRestart_keeps {a0 : State} (hub : Hub) (sub : Sub) (s : State) (h0 : Keeps a0 s) : KeepsN a0 (execKxRestart hub sub s) := by
  unfold execKxRestart
  try dsimp only
  with_reducible repeat' first
    | assumption
    | rfl
    | apply KeepsN.next
    | apply KeepsN.fault
    | apply startKx_keeps
    | apply passTo_keeps
    | split

theorem execRekeyIntervalExpiry_keeps {a0 : State} (hub : Hub) (sub : Sub) (s : State) (h0 : Keeps a0 s) : KeepsN a0 (execRekeyIntervalExpiry hub sub s) := by
  unfold execRekeyIntervalExpiry
  try dsimp only
  with_reducible repeat' first
    | assumption
    | rfl
    | apply KeepsN.next
    | apply KeepsN.fault
    | apply KeepsO.some
    | exact KeepsO.none
    | apply KeepsO1.some
    | apply KeepsO1.some'
    | exact KeepsO1.none
    | apply passTo_keeps
    | apply startKx_keeps
    | refine Keeps.fst (by assumption) ?_
    | refine Keeps.snd (by assumption) ?_
    | refine Keeps.get (by assumption) ?_
    | refine Keeps.get1 (by assumption) ?_
    | refine Keeps.get1' (by assumption) ?_
    | refine KeepsN.get (by assumption) ?_
    | refine Keeps.ok (by assumption) ?_
    | refine Keeps.ok1 (by assumption) ?_
    | split

theorem execOldKeyExpiry_keeps {a0 : State} (hub : Hub) (sub : Sub) (s : State) (h0 : Keeps a0 s) : KeepsN a0 (execOldKeyExpiry hub sub s) := by
  unfold execOldKeyExpiry
  try dsimp only
  with_reducible repeat' first
    | assumption
    | rfl
    | apply KeepsN.next
    | apply KeepsN.fault
    | apply KeepsO.some
    | exact KeepsO.none
    | apply KeepsO1.some
    | apply KeepsO1.some'
    | exact KeepsO1.none
    | apply modSub_keeps
    | apply passTo_keeps
    | refine Keeps.fst (by assumption) ?_
    | refine Keeps.snd (by assumption) ?_
    | refine Keeps.get (by assumption) ?_
    | refine Keeps.get1 (by assumption) ?_
    | refine Keeps.get1' (by assumption) ?_
    | refine KeepsN.get (by assumption) ?_
    | refine Keeps.ok (by assumption) ?_
    | refine Keeps.ok1 (by assumption) ?_
    | split

theorem execSubportLinkUp_keeps {a0 : State} (hub : Hub) (sub : Sub) (peerMac : Nat) (s : State) (h0 : Keeps a0 s) : KeepsN a0 (execSubportLinkUp hub sub peerMac s) := by
  unfold execSubportLinkUp
  try dsimp only
  with_reducible repeat' first
    | assumption
    | rfl
    | apply KeepsN.next
    | apply KeepsN.fault
    | apply modSub_keeps
    | apply startKx_keeps
    | split

theorem execSubportLinkDown_keeps {a0 : State} (hub : Hub) (sub : Sub) (s : State) (h0 : Keeps a0 s) : KeepsN a0 (execSubportLinkDown hub sub s) := by
  unfold execSubportLinkDown
  try dsimp only
  with_reducible repeat' first
    | assumption
    | rfl
    | apply KeepsN.next
    | apply KeepsN.fault
    | apply KeepsO.some
    | exact KeepsO.none
    | apply KeepsO1.some
    | apply KeepsO1.some'
    | exact KeepsO1.none
    | apply modSub_keeps
    | split

end Sys2Proof.Laws
end

