-- ==== Sys2Proof/Laws/KeepsDill.lean ====
section
/-!
SUPPORT. The operations of Machine/Dill.lean keep what Laws/Keeps.lean says.
-/
namespace Sys2Proof.Laws
open Sys2Proof.Machine

theorem rouse_keeps {a0 : State} (s : State) (k : Nat) (a : Nat) (n : Nat) (h0 : Keeps a0 s) : Keeps a0 (rouse s k a n) := by
  unfold rouse
  try dsimp only
  with_reducible repeat' first
    | assumption
    | rfl
    | apply touchBanks_keeps
    | split

theorem endCommand_keeps {a0 : State} (s : State) (k : Nat) (i : Nat) (st : CmdState) (status : Status) (code : Nat) (pc : Nat) (h0 : Keeps a0 s) : Keeps a0 (endCommand s k i st status code pc) := by
  unfold endCommand
  try dsimp only
  with_reducible repeat' first
    | assumption
    | rfl
    | apply KeepsO.some
    | exact KeepsO.none
    | apply KeepsO1.some
    | apply KeepsO1.some'
    | exact KeepsO1.none
    | apply endSegment_keeps
    | apply modCmd_keeps
    | apply modEng_keeps
    | apply schedule_keeps
    | split

theorem laneFault_keeps {a0 : State} (s : State) (k : Nat) (i : Nat) (code : Nat) (h0 : Keeps a0 s) : Keeps a0 (laneFault s k i code) := by
  unfold laneFault
  try dsimp only
  with_reducible repeat' first
    | assumption
    | rfl
    | apply endCommand_keeps
    | apply bump_keeps
    | split

theorem onLane_keeps {a0 : State} (k : Nat) (s : State) (f : State → Nat → State) (h_f : ∀ (x0 : State) (x1 : Nat), Keeps a0 x0 → Keeps a0 (f x0 x1)) (h0 : Keeps a0 s) : KeepsN a0 (onLane k s f) := by
  unfold onLane
  try dsimp only
  with_reducible repeat' first
    | assumption
    | rfl
    | apply KeepsN.next
    | apply KeepsN.fault
    | apply KeepsO.some
    | exact KeepsO.none
    | apply KeepsO1.some
    | apply KeepsO1.some'
    | exact KeepsO1.none
    | apply schedule_keeps
    | refine Keeps.fst (by assumption) ?_
    | refine Keeps.snd (by assumption) ?_
    | refine Keeps.get (by assumption) ?_
    | refine Keeps.get1 (by assumption) ?_
    | refine Keeps.get1' (by assumption) ?_
    | refine KeepsN.get (by assumption) ?_
    | refine Keeps.ok (by assumption) ?_
    | refine Keeps.ok1 (by assumption) ?_
    | apply h_f
    | split

theorem eachLane_keeps {a0 : State} (s : State) (k : Nat) (i : Nat) (op : State → CmdSlot → Machine.Lane → LaneRes) (h_op : ∀ (x0 : State) (x1 : CmdSlot) (x2 : Machine.Lane), Keeps a0 x0 → Keeps a0 (op x0 x1 x2).1) (h0 : Keeps a0 s) : Keeps a0 (eachLane s k i op).1 := by
  unfold eachLane
  try dsimp only
  with_reducible repeat' first
    | assumption
    | rfl
    | apply KeepsO.some
    | exact KeepsO.none
    | apply KeepsO1.some
    | apply KeepsO1.some'
    | exact KeepsO1.none
    | refine KeepsO.foldl (fun _ _ _ => ?_) _ ?_
    | refine KeepsO1.foldl (fun _ _ _ => ?_) _ ?_
    | apply modEng_keeps
    | refine KeepsO.getD ?_ ?_
    | refine KeepsO1.getD ?_ ?_
    | refine Keeps.foldl (fun _ _ _ => ?_) _ ?_
    | refine Keeps.foldl1 (fun _ _ _ => ?_) _ ?_
    | apply h_op
    | split

theorem laneOp_keeps {a0 : State} (k : Nat) (s : State) (op : State → CmdSlot → Machine.Lane → LaneRes) (h_op : ∀ (x0 : State) (x1 : CmdSlot) (x2 : Machine.Lane), Keeps a0 x0 → Keeps a0 (op x0 x1 x2).1) (h0 : Keeps a0 s) : KeepsN a0 (laneOp k s op) := by
  unfold laneOp
  try dsimp only
  with_reducible repeat' first
    | assumption
    | rfl
    | apply KeepsN.next
    | apply KeepsN.fault
    | apply KeepsO.some
    | exact KeepsO.none
    | apply KeepsO1.some
    | apply KeepsO1.some'
    | exact KeepsO1.none
    | apply onLane_keeps
    | apply eachLane_keeps
    | apply laneFault_keeps
    | apply modEng_keeps
    | refine Keeps.fst (by assumption) ?_
    | refine Keeps.snd (by assumption) ?_
    | refine Keeps.get (by assumption) ?_
    | refine Keeps.get1 (by assumption) ?_
    | refine Keeps.get1' (by assumption) ?_
    | refine KeepsN.get (by assumption) ?_
    | refine Keeps.ok (by assumption) ?_
    | refine Keeps.ok1 (by assumption) ?_
    | apply h_op
    | intro _
    | split

theorem finishLoad_keeps {a0 : State} (s : State) (k : Nat) (l : Machine.Lane) (x : Load) (h0 : Keeps a0 s) : Keeps a0 (finishLoad s k l x).1 := by
  unfold finishLoad
  try dsimp only
  with_reducible repeat' first
    | assumption
    | rfl
    | apply KeepsO.some
    | exact KeepsO.none
    | apply KeepsO1.some
    | apply KeepsO1.some'
    | exact KeepsO1.none
    | apply view_keeps
    | apply rouse_keeps
    | refine Keeps.fst (by assumption) ?_
    | refine Keeps.snd (by assumption) ?_
    | refine Keeps.get (by assumption) ?_
    | refine Keeps.get1 (by assumption) ?_
    | refine Keeps.get1' (by assumption) ?_
    | refine Keeps.ok (by assumption) ?_
    | refine Keeps.ok1 (by assumption) ?_
    | split

theorem waitLoads_keeps {a0 : State} (s : State) (k : Nat) (l : Machine.Lane) (p : Load → Bool) (h0 : Keeps a0 s) : Keeps a0 (waitLoads s k l p).1 := by
  unfold waitLoads
  try dsimp only
  with_reducible repeat' first
    | assumption
    | rfl
    | apply KeepsO.some
    | exact KeepsO.none
    | apply KeepsO1.some
    | apply KeepsO1.some'
    | exact KeepsO1.none
    | refine KeepsO.foldl (fun _ _ _ => ?_) _ ?_
    | refine KeepsO1.foldl (fun _ _ _ => ?_) _ ?_
    | apply finishLoad_keeps
    | refine Keeps.foldl (fun _ _ _ => ?_) _ ?_
    | refine Keeps.foldl1 (fun _ _ _ => ?_) _ ?_
    | split

theorem afterLoads_keeps {a0 : State} (k : Nat) (p : Load → Bool) (op : State → CmdSlot → Machine.Lane → LaneRes) (s : State) (c : CmdSlot) (l : Machine.Lane) (h_op : ∀ (x0 : State) (x1 : CmdSlot) (x2 : Machine.Lane), Keeps a0 x0 → Keeps a0 (op x0 x1 x2).1) (h0 : Keeps a0 s) : Keeps a0 (afterLoads k p op s c l).1 := by
  unfold afterLoads
  try dsimp only
  with_reducible repeat' first
    | assumption
    | rfl
    | apply KeepsO.some
    | exact KeepsO.none
    | apply KeepsO1.some
    | apply KeepsO1.some'
    | exact KeepsO1.none
    | apply waitLoads_keeps
    | refine Keeps.fst (by assumption) ?_
    | refine Keeps.snd (by assumption) ?_
    | refine Keeps.get (by assumption) ?_
    | refine Keeps.get1 (by assumption) ?_
    | refine Keeps.get1' (by assumption) ?_
    | refine Keeps.ok (by assumption) ?_
    | refine Keeps.ok1 (by assumption) ?_
    | apply h_op
    | split

theorem execCommandSlotIssue_keeps {a0 : State} (slice : Slice) (slot : Slot64) (c : SlotFill) (s : State) (h0 : Keeps a0 s) : KeepsN a0 (execCommandSlotIssue slice slot c s) := by
  unfold execCommandSlotIssue
  try dsimp only
  with_reducible repeat' first
    | assumption
    | rfl
    | apply KeepsN.next
    | apply KeepsN.fault
    | apply schedule_keeps
    | apply fillSlot_keeps
    | refine KeepsO.map ?_ (fun _ _ => ?_)
    | refine KeepsO.map1 ?_ (fun _ _ => ?_)
    | refine KeepsO.map0 (fun _ => ?_)
    | refine KeepsO1.map ?_ (fun _ _ => ?_)
    | refine KeepsO1.map1 ?_ (fun _ _ => ?_)
    | refine KeepsO1.map0 (fun _ => ?_)
    | split

theorem abortCmd_keeps {a0 : State} (s : State) (k : Nat) (i : Nat) (h0 : Keeps a0 s) : Keeps a0 (abortCmd s k i) := by
  unfold abortCmd
  try dsimp only
  with_reducible repeat' first
    | assumption
    | rfl
    | apply modEng_keeps
    | apply modCmd_keeps
    | split

theorem abortCmds_keeps {a0 : State} (s : State) (k : Nat) (h0 : Keeps a0 s) : Keeps a0 (abortCmds s k) := by
  unfold abortCmds
  try dsimp only
  with_reducible repeat' first
    | assumption
    | rfl
    | apply abortCmd_keeps
    | apply modCmd_keeps
    | apply modMerge_keeps
    | refine KeepsO.getD ?_ ?_
    | refine KeepsO1.getD ?_ ?_
    | refine KeepsO.map ?_ (fun _ _ => ?_)
    | refine KeepsO.map1 ?_ (fun _ _ => ?_)
    | refine KeepsO.map0 (fun _ => ?_)
    | refine KeepsO1.map ?_ (fun _ _ => ?_)
    | refine KeepsO1.map1 ?_ (fun _ _ => ?_)
    | refine KeepsO1.map0 (fun _ => ?_)
    | refine Keeps.foldl (fun _ _ _ => ?_) _ ?_
    | refine Keeps.foldl1 (fun _ _ _ => ?_) _ ?_
    | split

theorem execCommandCancel_keeps {a0 : State} (slice : Slice) (slot : Slot64) (s : State) (h0 : Keeps a0 s) : KeepsN a0 (execCommandCancel slice slot s) := by
  unfold execCommandCancel
  try dsimp only
  with_reducible repeat' first
    | assumption
    | rfl
    | apply KeepsN.next
    | apply KeepsN.fault
    | apply abortCmd_keeps
    | split

theorem execCommandSlotRelease_keeps {a0 : State} (slice : Slice) (slot : Slot64) (s : State) (h0 : Keeps a0 s) : KeepsN a0 (execCommandSlotRelease slice slot s) := by
  unfold execCommandSlotRelease
  try dsimp only
  with_reducible repeat' first
    | assumption
    | rfl
    | apply KeepsN.next
    | apply KeepsN.fault
    | apply schedule_keeps
    | apply modCmd_keeps
    | split

theorem execVld_keeps {a0 : State} (slice : Slice) (f : FmtM) (s : State) (h0 : Keeps a0 s) : KeepsN a0 (execVld slice f s) := by
  unfold execVld
  try dsimp only
  with_reducible repeat' first
    | assumption
    | rfl
    | apply KeepsN.next
    | apply KeepsN.fault
    | apply KeepsO.some
    | exact KeepsO.none
    | apply KeepsO1.some
    | apply KeepsO1.some'
    | exact KeepsO1.none
    | apply laneOp_keeps
    | apply afterLoads_keeps
    | intro _
    | split

theorem execVldComplete_keeps {a0 : State} (slice : Slice) (lane : Sys2Proof.Lane) (s : State) (h0 : Keeps a0 s) : KeepsN a0 (execVldComplete slice lane s) := by
  unfold execVldComplete
  try dsimp only
  with_reducible repeat' first
    | assumption
    | rfl
    | apply KeepsN.next
    | apply KeepsN.fault
    | apply KeepsO.some
    | exact KeepsO.none
    | apply KeepsO1.some
    | apply KeepsO1.some'
    | exact KeepsO1.none
    | apply finishLoad_keeps
    | apply modEng_keeps
    | apply laneFault_keeps
    | refine KeepsO.getD ?_ ?_
    | refine KeepsO1.getD ?_ ?_
    | refine Keeps.fst (by assumption) ?_
    | refine Keeps.snd (by assumption) ?_
    | refine Keeps.get (by assumption) ?_
    | refine Keeps.get1 (by assumption) ?_
    | refine Keeps.get1' (by assumption) ?_
    | refine KeepsN.get (by assumption) ?_
    | refine Keeps.ok (by assumption) ?_
    | refine Keeps.ok1 (by assumption) ?_
    | split

theorem laneStore_keeps {a0 : State} (k : Nat) (a : Nat) (b : List Byte) (crc : Bool) (s : State) (l : Machine.Lane) (h0 : Keeps a0 s) : Keeps a0 (laneStore k a b crc s l).1 := by
  unfold laneStore
  try dsimp only
  with_reducible repeat' first
    | assumption
    | rfl
    | apply KeepsO.some
    | exact KeepsO.none
    | apply KeepsO1.some
    | apply KeepsO1.some'
    | exact KeepsO1.none
    | apply putView_keeps
    | apply rouse_keeps
    | refine Keeps.fst (by assumption) ?_
    | refine Keeps.snd (by assumption) ?_
    | refine Keeps.get (by assumption) ?_
    | refine Keeps.get1 (by assumption) ?_
    | refine Keeps.get1' (by assumption) ?_
    | refine Keeps.ok (by assumption) ?_
    | refine Keeps.ok1 (by assumption) ?_
    | split

theorem execVst_keeps {a0 : State} (slice : Slice) (f : FmtM) (s : State) (h0 : Keeps a0 s) : KeepsN a0 (execVst slice f s) := by
  unfold execVst
  try dsimp only
  with_reducible repeat' first
    | assumption
    | rfl
    | apply KeepsN.next
    | apply KeepsN.fault
    | apply KeepsO.some
    | exact KeepsO.none
    | apply KeepsO1.some
    | apply KeepsO1.some'
    | exact KeepsO1.none
    | apply laneOp_keeps
    | apply afterLoads_keeps
    | apply laneStore_keeps
    | refine Keeps.fst (by assumption) ?_
    | refine Keeps.snd (by assumption) ?_
    | refine Keeps.get (by assumption) ?_
    | refine Keeps.get1 (by assumption) ?_
    | refine Keeps.get1' (by assumption) ?_
    | refine KeepsN.get (by assumption) ?_
    | refine Keeps.ok (by assumption) ?_
    | refine Keeps.ok1 (by assumption) ?_
    | intro _
    | split

theorem execSld_keeps {a0 : State} (slice : Slice) (f : FmtS) (s : State) (h0 : Keeps a0 s) : KeepsN a0 (execSld slice f s) := by
  unfold execSld
  try dsimp only
  with_reducible repeat' first
    | assumption
    | rfl
    | apply KeepsN.next
    | apply KeepsN.fault
    | apply KeepsO.some
    | exact KeepsO.none
    | apply KeepsO1.some
    | apply KeepsO1.some'
    | exact KeepsO1.none
    | apply laneOp_keeps
    | apply view_keeps
    | apply rouse_keeps
    | refine KeepsO.getD ?_ ?_
    | refine KeepsO1.getD ?_ ?_
    | refine Keeps.fst (by assumption) ?_
    | refine Keeps.snd (by assumption) ?_
    | refine Keeps.get (by assumption) ?_
    | refine Keeps.get1 (by assumption) ?_
    | refine Keeps.get1' (by assumption) ?_
    | refine KeepsN.get (by assumption) ?_
    | refine Keeps.ok (by assumption) ?_
    | refine Keeps.ok1 (by assumption) ?_
    | intro _
    | split

theorem sstMem_keeps {a0 : State} (k : Nat) (a : Nat) (v : Nat) (s : State) (c : CmdSlot) (l : Machine.Lane) (h0 : Keeps a0 s) : Keeps a0 (sstMem k a v s c l).1 := by
  unfold sstMem
  try dsimp only
  with_reducible repeat' first
    | assumption
    | rfl
    | apply KeepsO.some
    | exact KeepsO.none
    | apply KeepsO1.some
    | apply KeepsO1.some'
    | exact KeepsO1.none
    | apply afterLoads_keeps
    | apply laneStore_keeps
    | refine Keeps.fst (by assumption) ?_
    | refine Keeps.snd (by assumption) ?_
    | refine Keeps.get (by assumption) ?_
    | refine Keeps.get1 (by assumption) ?_
    | refine Keeps.get1' (by assumption) ?_
    | refine Keeps.ok (by assumption) ?_
    | refine Keeps.ok1 (by assumption) ?_
    | intro _
    | split

theorem sstOp_keeps {a0 : State} (k : Nat) (i : Nat) (f : FmtS) (s : State) (c : CmdSlot) (l : Machine.Lane) (h0 : Keeps a0 s) : Keeps a0 (sstOp k i f s c l).1 := by
  unfold sstOp
  try dsimp only
  with_reducible repeat' first
    | assumption
    | rfl
    | apply KeepsO.some
    | exact KeepsO.none
    | apply KeepsO1.some
    | apply KeepsO1.some'
    | exact KeepsO1.none
    | apply modCmd_keeps
    | apply sstMem_keeps
    | split

theorem execSst_keeps {a0 : State} (slice : Slice) (f : FmtS) (s : State) (h0 : Keeps a0 s) : KeepsN a0 (execSst slice f s) := by
  unfold execSst
  try dsimp only
  with_reducible repeat' first
    | assumption
    | rfl
    | apply KeepsN.next
    | apply KeepsN.fault
    | apply KeepsO.some
    | exact KeepsO.none
    | apply KeepsO1.some
    | apply KeepsO1.some'
    | exact KeepsO1.none
    | apply onLane_keeps
    | apply eachLane_keeps
    | apply sstOp_keeps
    | apply laneFault_keeps
    | apply modEng_keeps
    | refine Keeps.fst (by assumption) ?_
    | refine Keeps.snd (by assumption) ?_
    | refine Keeps.get (by assumption) ?_
    | refine Keeps.get1 (by assumption) ?_
    | refine Keeps.get1' (by assumption) ?_
    | refine KeepsN.get (by assumption) ?_
    | refine Keeps.ok (by assumption) ?_
    | refine Keeps.ok1 (by assumption) ?_
    | intro _
    | split

theorem execWaitl_keeps {a0 : State} (slice : Slice) (_f : FmtS) (s : State) (h0 : Keeps a0 s) : KeepsN a0 (execWaitl slice _f s) := by
  unfold execWaitl
  try dsimp only
  with_reducible repeat' first
    | assumption
    | rfl
    | apply KeepsN.next
    | apply KeepsN.fault
    | apply laneOp_keeps
    | apply waitLoads_keeps
    | intro _
    | split

theorem execCfg_keeps {a0 : State} (slice : Slice) (f : FmtS) (s : State) (h0 : Keeps a0 s) : KeepsN a0 (execCfg slice f s) := by
  unfold execCfg
  try dsimp only
  with_reducible repeat' first
    | assumption
    | rfl
    | apply KeepsN.next
    | apply KeepsN.fault
    | apply KeepsO.some
    | exact KeepsO.none
    | apply KeepsO1.some
    | apply KeepsO1.some'
    | exact KeepsO1.none
    | apply laneOp_keeps
    | intro _
    | split

theorem withOperands_keeps {a0 : State} (k : Nat) (f : FmtL) (src : Nat) (aux : Nat) (op : Machine.Lane → List Byte → List Byte → Machine.Lane) (s : State) (c : CmdSlot) (l : Machine.Lane) (h0 : Keeps a0 s) : Keeps a0 (withOperands k f src aux op s c l).1 := by
  unfold withOperands
  try dsimp only
  with_reducible repeat' first
    | assumption
    | rfl
    | apply KeepsO.some
    | exact KeepsO.none
    | apply KeepsO1.some
    | apply KeepsO1.some'
    | exact KeepsO1.none
    | apply afterLoads_keeps
    | refine Keeps.fst (by assumption) ?_
    | refine Keeps.snd (by assumption) ?_
    | refine Keeps.get (by assumption) ?_
    | refine Keeps.get1 (by assumption) ?_
    | refine Keeps.get1' (by assumption) ?_
    | refine Keeps.ok (by assumption) ?_
    | refine Keeps.ok1 (by assumption) ?_
    | intro _
    | split

theorem dotOp_keeps {a0 : State} (k : Nat) (f : FmtL) (row : Geom → Nat) (scl : Geom → Nat) (dot : Machine.Lane → Geom → Nat → List Byte → List Byte → Fl) (s : State) (c : CmdSlot) (l : Machine.Lane) (h0 : Keeps a0 s) : Keeps a0 (dotOp k f row scl dot s c l).1 := by
  unfold dotOp
  try dsimp only
  with_reducible repeat' first
    | assumption
    | rfl
    | apply withOperands_keeps
    | split

theorem execDqdot8_keeps {a0 : State} (slice : Slice) (f : FmtL) (s : State) (h0 : Keeps a0 s) : KeepsN a0 (execDqdot8 slice f s) := by
  unfold execDqdot8
  try dsimp only
  with_reducible repeat' first
    | assumption
    | rfl
    | apply KeepsN.next
    | apply KeepsN.fault
    | apply laneOp_keeps
    | apply dotOp_keeps
    | intro _
    | split

theorem execDqdot4_keeps {a0 : State} (slice : Slice) (f : FmtL) (s : State) (h0 : Keeps a0 s) : KeepsN a0 (execDqdot4 slice f s) := by
  unfold execDqdot4
  try dsimp only
  with_reducible repeat' first
    | assumption
    | rfl
    | apply KeepsN.next
    | apply KeepsN.fault
    | apply laneOp_keeps
    | apply dotOp_keeps
    | intro _
    | split

theorem execDqdot4c_keeps {a0 : State} (slice : Slice) (f : FmtL) (s : State) (h0 : Keeps a0 s) : KeepsN a0 (execDqdot4c slice f s) := by
  unfold execDqdot4c
  try dsimp only
  with_reducible repeat' first
    | assumption
    | rfl
    | apply KeepsN.next
    | apply KeepsN.fault
    | apply laneOp_keeps
    | apply dotOp_keeps
    | intro _
    | split

theorem execDotbf_keeps {a0 : State} (slice : Slice) (f : FmtL) (s : State) (h0 : Keeps a0 s) : KeepsN a0 (execDotbf slice f s) := by
  unfold execDotbf
  try dsimp only
  with_reducible repeat' first
    | assumption
    | rfl
    | apply KeepsN.next
    | apply KeepsN.fault
    | apply laneOp_keeps
    | apply dotOp_keeps
    | intro _
    | split

theorem execFold_keeps {a0 : State} (slice : Slice) (f : FmtL) (s : State) (h0 : Keeps a0 s) : KeepsN a0 (execFold slice f s) := by
  unfold execFold
  try dsimp only
  with_reducible repeat' first
    | assumption
    | rfl
    | apply KeepsN.next
    | apply KeepsN.fault
    | apply laneOp_keeps
    | apply withOperands_keeps
    | refine Keeps.foldl (fun _ _ _ => ?_) _ ?_
    | refine Keeps.foldl1 (fun _ _ _ => ?_) _ ?_
    | refine Keeps.fst (by assumption) ?_
    | refine Keeps.snd (by assumption) ?_
    | refine Keeps.get (by assumption) ?_
    | refine Keeps.get1 (by assumption) ?_
    | refine Keeps.get1' (by assumption) ?_
    | refine KeepsN.get (by assumption) ?_
    | refine Keeps.ok (by assumption) ?_
    | refine Keeps.ok1 (by assumption) ?_
    | intro _
    | split

theorem execBnd_keeps {a0 : State} (slice : Slice) (f : FmtL) (s : State) (h0 : Keeps a0 s) : KeepsN a0 (execBnd slice f s) := by
  unfold execBnd
  try dsimp only
  with_reducible repeat' first
    | assumption
    | rfl
    | apply KeepsN.next
    | apply KeepsN.fault
    | apply KeepsO.some
    | exact KeepsO.none
    | apply KeepsO1.some
    | apply KeepsO1.some'
    | exact KeepsO1.none
    | refine KeepsO.foldl (fun _ _ _ => ?_) _ ?_
    | refine KeepsO1.foldl (fun _ _ _ => ?_) _ ?_
    | apply laneOp_keeps
    | apply withOperands_keeps
    | refine Keeps.foldl (fun _ _ _ => ?_) _ ?_
    | refine Keeps.foldl1 (fun _ _ _ => ?_) _ ?_
    | intro _
    | split

theorem execBndr_keeps {a0 : State} (slice : Slice) (f : FmtL) (s : State) (h0 : Keeps a0 s) : KeepsN a0 (execBndr slice f s) := by
  unfold execBndr
  try dsimp only
  with_reducible repeat' first
    | assumption
    | rfl
    | apply KeepsN.next
    | apply KeepsN.fault
    | apply laneOp_keeps
    | apply withOperands_keeps
    | refine KeepsO.getD ?_ ?_
    | refine KeepsO1.getD ?_ ?_
    | refine KeepsO.map ?_ (fun _ _ => ?_)
    | refine KeepsO.map1 ?_ (fun _ _ => ?_)
    | refine KeepsO.map0 (fun _ => ?_)
    | refine KeepsO1.map ?_ (fun _ _ => ?_)
    | refine KeepsO1.map1 ?_ (fun _ _ => ?_)
    | refine KeepsO1.map0 (fun _ => ?_)
    | refine Keeps.foldl (fun _ _ _ => ?_) _ ?_
    | refine Keeps.foldl1 (fun _ _ _ => ?_) _ ?_
    | intro _
    | split

theorem withRow_keeps {a0 : State} (k : Nat) (f : FmtL) (op : CmdSlot → Machine.Lane → Machine.Lane) (s : State) (c : CmdSlot) (l : Machine.Lane) (h0 : Keeps a0 s) : Keeps a0 (withRow k f op s c l).1 := by
  unfold withRow
  try dsimp only
  with_reducible repeat' first
    | assumption
    | rfl
    | apply withOperands_keeps
    | split

theorem execLogit_keeps {a0 : State} (slice : Slice) (f : FmtL) (s : State) (h0 : Keeps a0 s) : KeepsN a0 (execLogit slice f s) := by
  unfold execLogit
  try dsimp only
  with_reducible repeat' first
    | assumption
    | rfl
    | apply KeepsN.next
    | apply KeepsN.fault
    | apply laneOp_keeps
    | apply withRow_keeps
    | intro _
    | split

theorem execPmax_keeps {a0 : State} (slice : Slice) (f : FmtL) (s : State) (h0 : Keeps a0 s) : KeepsN a0 (execPmax slice f s) := by
  unfold execPmax
  try dsimp only
  with_reducible repeat' first
    | assumption
    | rfl
    | apply KeepsN.next
    | apply KeepsN.fault
    | apply laneOp_keeps
    | apply withRow_keeps
    | refine Keeps.foldl (fun _ _ _ => ?_) _ ?_
    | refine Keeps.foldl1 (fun _ _ _ => ?_) _ ?_
    | intro _
    | split

theorem expOp_keeps {a0 : State} (k : Nat) (f : FmtL) (row : Geom → Nat) (scl : Geom → Nat) (vals : Geom → List Byte → List Byte → F32 → List (F32 × Fl)) (s : State) (c : CmdSlot) (l : Machine.Lane) (h0 : Keeps a0 s) : Keeps a0 (expOp k f row scl vals s c l).1 := by
  unfold expOp
  try dsimp only
  with_reducible repeat' first
    | assumption
    | rfl
    | apply withOperands_keeps
    | refine Keeps.foldl (fun _ _ _ => ?_) _ ?_
    | refine Keeps.foldl1 (fun _ _ _ => ?_) _ ?_
    | split

theorem execExpacc8_keeps {a0 : State} (slice : Slice) (f : FmtL) (s : State) (h0 : Keeps a0 s) : KeepsN a0 (execExpacc8 slice f s) := by
  unfold execExpacc8
  try dsimp only
  with_reducible repeat' first
    | assumption
    | rfl
    | apply KeepsN.next
    | apply KeepsN.fault
    | apply laneOp_keeps
    | apply expOp_keeps
    | intro _
    | split

theorem execExpacc4_keeps {a0 : State} (slice : Slice) (f : FmtL) (s : State) (h0 : Keeps a0 s) : KeepsN a0 (execExpacc4 slice f s) := by
  unfold execExpacc4
  try dsimp only
  with_reducible repeat' first
    | assumption
    | rfl
    | apply KeepsN.next
    | apply KeepsN.fault
    | apply laneOp_keeps
    | apply expOp_keeps
    | intro _
    | split

theorem execExpaccbf_keeps {a0 : State} (slice : Slice) (f : FmtL) (s : State) (h0 : Keeps a0 s) : KeepsN a0 (execExpaccbf slice f s) := by
  unfold execExpaccbf
  try dsimp only
  with_reducible repeat' first
    | assumption
    | rfl
    | apply KeepsN.next
    | apply KeepsN.fault
    | apply laneOp_keeps
    | apply expOp_keeps
    | refine KeepsO.map ?_ (fun _ _ => ?_)
    | refine KeepsO.map1 ?_ (fun _ _ => ?_)
    | refine KeepsO.map0 (fun _ => ?_)
    | refine KeepsO1.map ?_ (fun _ _ => ?_)
    | refine KeepsO1.map1 ?_ (fun _ _ => ?_)
    | refine KeepsO1.map0 (fun _ => ?_)
    | intro _
    | split

theorem execRmerge_keeps {a0 : State} (slice : Slice) (f : FmtL) (s : State) (h0 : Keeps a0 s) : KeepsN a0 (execRmerge slice f s) := by
  unfold execRmerge
  try dsimp only
  with_reducible repeat' first
    | assumption
    | rfl
    | apply KeepsN.next
    | apply KeepsN.fault
    | apply KeepsO.some
    | exact KeepsO.none
    | apply KeepsO1.some
    | apply KeepsO1.some'
    | exact KeepsO1.none
    | refine KeepsO.foldl (fun _ _ _ => ?_) _ ?_
    | refine KeepsO1.foldl (fun _ _ _ => ?_) _ ?_
    | apply laneOp_keeps
    | apply afterLoads_keeps
    | refine Keeps.foldl (fun _ _ _ => ?_) _ ?_
    | refine Keeps.foldl1 (fun _ _ _ => ?_) _ ?_
    | intro _
    | split

theorem execRemit_keeps {a0 : State} (slice : Slice) (f : FmtM) (s : State) (h0 : Keeps a0 s) : KeepsN a0 (execRemit slice f s) := by
  unfold execRemit
  try dsimp only
  with_reducible repeat' first
    | assumption
    | rfl
    | apply KeepsN.next
    | apply KeepsN.fault
    | apply KeepsO.some
    | exact KeepsO.none
    | apply KeepsO1.some
    | apply KeepsO1.some'
    | exact KeepsO1.none
    | apply laneOp_keeps
    | apply afterLoads_keeps
    | apply laneStore_keeps
    | intro _
    | split

theorem execCrcchk_keeps {a0 : State} (slice : Slice) (f : FmtS) (s : State) (h0 : Keeps a0 s) : KeepsN a0 (execCrcchk slice f s) := by
  unfold execCrcchk
  try dsimp only
  with_reducible repeat' first
    | assumption
    | rfl
    | apply KeepsN.next
    | apply KeepsN.fault
    | apply KeepsO.some
    | exact KeepsO.none
    | apply KeepsO1.some
    | apply KeepsO1.some'
    | exact KeepsO1.none
    | apply laneOp_keeps
    | apply afterLoads_keeps
    | intro _
    | split

theorem putResult_keeps {a0 : State} (s : State) (l : Machine.Lane) (sd : Nat) (r : Option (BitVec 32)) (h0 : Keeps a0 s) : Keeps a0 (putResult s l sd r).1 := by
  unfold putResult
  try dsimp only
  with_reducible repeat' first
    | assumption
    | rfl
    | apply KeepsO.some
    | exact KeepsO.none
    | apply KeepsO1.some
    | apply KeepsO1.some'
    | exact KeepsO1.none
    | apply fresh_keeps
    | refine Keeps.fst (by assumption) ?_
    | refine Keeps.snd (by assumption) ?_
    | refine Keeps.get (by assumption) ?_
    | refine Keeps.get1 (by assumption) ?_
    | refine Keeps.get1' (by assumption) ?_
    | refine Keeps.ok (by assumption) ?_
    | refine Keeps.ok1 (by assumption) ?_
    | split

theorem execSalu_keeps {a0 : State} (slice : Slice) (f : FmtS) (s : State) (h0 : Keeps a0 s) : KeepsN a0 (execSalu slice f s) := by
  unfold execSalu
  try dsimp only
  with_reducible repeat' first
    | assumption
    | rfl
    | apply KeepsN.next
    | apply KeepsN.fault
    | apply laneOp_keeps
    | apply putResult_keeps
    | intro _
    | split

theorem execSfpu_keeps {a0 : State} (slice : Slice) (f : FmtS) (s : State) (h0 : Keeps a0 s) : KeepsN a0 (execSfpu slice f s) := by
  unfold execSfpu
  try dsimp only
  with_reducible repeat' first
    | assumption
    | rfl
    | apply KeepsN.next
    | apply KeepsN.fault
    | apply laneOp_keeps
    | apply putResult_keeps
    | intro _
    | split

theorem execMovi_keeps {a0 : State} (slice : Slice) (f : FmtS) (s : State) (h0 : Keeps a0 s) : KeepsN a0 (execMovi slice f s) := by
  unfold execMovi
  try dsimp only
  with_reducible repeat' first
    | assumption
    | rfl
    | apply KeepsN.next
    | apply KeepsN.fault
    | apply KeepsO.some
    | exact KeepsO.none
    | apply KeepsO1.some
    | apply KeepsO1.some'
    | exact KeepsO1.none
    | apply laneOp_keeps
    | intro _
    | split

theorem execAadd_keeps {a0 : State} (slice : Slice) (f : FmtS) (s : State) (h0 : Keeps a0 s) : KeepsN a0 (execAadd slice f s) := by
  unfold execAadd
  try dsimp only
  with_reducible repeat' first
    | assumption
    | rfl
    | apply KeepsN.next
    | apply KeepsN.fault
    | apply KeepsO.some
    | exact KeepsO.none
    | apply KeepsO1.some
    | apply KeepsO1.some'
    | exact KeepsO1.none
    | apply laneOp_keeps
    | intro _
    | split

theorem setActive_keeps {a0 : State} (s : State) (k : Nat) (i : Nat) (h0 : Keeps a0 s) : Keeps a0 (setActive s k i) := by
  unfold setActive
  try dsimp only
  with_reducible repeat' first
    | assumption
    | rfl
    | apply modEng_keeps
    | refine KeepsO.getD ?_ ?_
    | refine KeepsO1.getD ?_ ?_
    | refine KeepsO.map ?_ (fun _ _ => ?_)
    | refine KeepsO.map1 ?_ (fun _ _ => ?_)
    | refine KeepsO.map0 (fun _ => ?_)
    | refine KeepsO1.map ?_ (fun _ _ => ?_)
    | refine KeepsO1.map1 ?_ (fun _ _ => ?_)
    | refine KeepsO1.map0 (fun _ => ?_)
    | split

theorem execLoopOpen_keeps {a0 : State} (slice : Slice) (f : FmtC) (s : State) (h0 : Keeps a0 s) : KeepsN a0 (execLoopOpen slice f s) := by
  unfold execLoopOpen
  try dsimp only
  with_reducible repeat' first
    | assumption
    | rfl
    | apply KeepsN.next
    | apply KeepsN.fault
    | apply onLane_keeps
    | apply laneFault_keeps
    | apply setActive_keeps
    | apply modEng_keeps
    | refine KeepsO.map ?_ (fun _ _ => ?_)
    | refine KeepsO.map1 ?_ (fun _ _ => ?_)
    | refine KeepsO.map0 (fun _ => ?_)
    | refine KeepsO1.map ?_ (fun _ _ => ?_)
    | refine KeepsO1.map1 ?_ (fun _ _ => ?_)
    | refine KeepsO1.map0 (fun _ => ?_)
    | intro _
    | split

theorem execEndl_keeps {a0 : State} (slice : Slice) (f : FmtC) (s : State) (h0 : Keeps a0 s) : KeepsN a0 (execEndl slice f s) := by
  unfold execEndl
  try dsimp only
  with_reducible repeat' first
    | assumption
    | rfl
    | apply KeepsN.next
    | apply KeepsN.fault
    | apply onLane_keeps
    | apply modEng_keeps
    | apply setActive_keeps
    | refine KeepsO.getD ?_ ?_
    | refine KeepsO1.getD ?_ ?_
    | refine KeepsO.map ?_ (fun _ _ => ?_)
    | refine KeepsO.map1 ?_ (fun _ _ => ?_)
    | refine KeepsO.map0 (fun _ => ?_)
    | refine KeepsO1.map ?_ (fun _ _ => ?_)
    | refine KeepsO1.map1 ?_ (fun _ _ => ?_)
    | refine KeepsO1.map0 (fun _ => ?_)
    | refine Keeps.fst (by assumption) ?_
    | refine Keeps.snd (by assumption) ?_
    | refine Keeps.get (by assumption) ?_
    | refine Keeps.get1 (by assumption) ?_
    | refine Keeps.get1' (by assumption) ?_
    | refine KeepsN.get (by assumption) ?_
    | refine Keeps.ok (by assumption) ?_
    | refine Keeps.ok1 (by assumption) ?_
    | intro _
    | split

theorem execBrz_keeps {a0 : State} (slice : Slice) (f : FmtC) (s : State) (h0 : Keeps a0 s) : KeepsN a0 (execBrz slice f s) := by
  unfold execBrz
  try dsimp only
  with_reducible repeat' first
    | assumption
    | rfl
    | apply KeepsN.next
    | apply KeepsN.fault
    | apply onLane_keeps
    | apply modEng_keeps
    | intro _
    | split

theorem resultStatus_keeps {a0 : State} (s : State) (c : CmdSlot) (h0 : Keeps a0 s) : Keeps a0 (resultStatus s c).1 := by
  unfold resultStatus
  try dsimp only
  with_reducible repeat' first
    | assumption
    | rfl
    | apply KeepsE.ok
    | exact KeepsE.error
    | apply KeepsE1.ok
    | exact KeepsE1.error
    | apply fresh_keeps
    | refine KeepsO.getD ?_ ?_
    | refine KeepsO1.getD ?_ ?_
    | split

theorem execHalt_keeps {a0 : State} (slice : Slice) (_f : FmtC) (s : State) (h0 : Keeps a0 s) : KeepsN a0 (execHalt slice _f s) := by
  unfold execHalt
  try dsimp only
  with_reducible repeat' first
    | assumption
    | rfl
    | apply KeepsN.next
    | apply KeepsN.fault
    | apply onLane_keeps
    | apply modEng_keeps
    | apply resultStatus_keeps
    | apply endCommand_keeps
    | intro _
    | split

theorem drainLoads_keeps {a0 : State} (s : State) (k : Nat) (h0 : Keeps a0 s) : Keeps a0 (drainLoads s k).1 := by
  unfold drainLoads
  try dsimp only
  with_reducible repeat' first
    | assumption
    | rfl
    | apply KeepsO.some
    | exact KeepsO.none
    | apply KeepsO1.some
    | apply KeepsO1.some'
    | exact KeepsO1.none
    | refine KeepsO.foldl (fun _ _ _ => ?_) _ ?_
    | refine KeepsO1.foldl (fun _ _ _ => ?_) _ ?_
    | apply waitLoads_keeps
    | apply modEng_keeps
    | refine KeepsO.getD ?_ ?_
    | refine KeepsO1.getD ?_ ?_
    | refine Keeps.foldl (fun _ _ _ => ?_) _ ?_
    | refine Keeps.foldl1 (fun _ _ _ => ?_) _ ?_
    | split

theorem execYield_keeps {a0 : State} (slice : Slice) (_f : FmtC) (s : State) (h0 : Keeps a0 s) : KeepsN a0 (execYield slice _f s) := by
  unfold execYield
  try dsimp only
  with_reducible repeat' first
    | assumption
    | rfl
    | apply KeepsN.next
    | apply KeepsN.fault
    | apply KeepsO.some
    | exact KeepsO.none
    | apply KeepsO1.some
    | apply KeepsO1.some'
    | exact KeepsO1.none
    | apply onLane_keeps
    | apply modEng_keeps
    | apply drainLoads_keeps
    | apply laneFault_keeps
    | apply schedule_keeps
    | apply endSegment_keeps
    | refine KeepsO.map ?_ (fun _ _ => ?_)
    | refine KeepsO.map1 ?_ (fun _ _ => ?_)
    | refine KeepsO.map0 (fun _ => ?_)
    | refine KeepsO1.map ?_ (fun _ _ => ?_)
    | refine KeepsO1.map1 ?_ (fun _ _ => ?_)
    | refine KeepsO1.map0 (fun _ => ?_)
    | refine Keeps.fst (by assumption) ?_
    | refine Keeps.snd (by assumption) ?_
    | refine Keeps.get (by assumption) ?_
    | refine Keeps.get1 (by assumption) ?_
    | refine Keeps.get1' (by assumption) ?_
    | refine KeepsN.get (by assumption) ?_
    | refine Keeps.ok (by assumption) ?_
    | refine Keeps.ok1 (by assumption) ?_
    | intro _
    | split

theorem execThrottlePauseEnd_keeps {a0 : State} (slice : Slice) (s : State) (h0 : Keeps a0 s) : KeepsN a0 (execThrottlePauseEnd slice s) := by
  unfold execThrottlePauseEnd
  try dsimp only
  with_reducible repeat' first
    | assumption
    | rfl
    | apply KeepsN.next
    | apply KeepsN.fault
    | apply KeepsO.some
    | exact KeepsO.none
    | apply KeepsO1.some
    | apply KeepsO1.some'
    | exact KeepsO1.none
    | apply schedule_keeps
    | apply modEng_keeps
    | apply passTo_keeps
    | refine Keeps.fst (by assumption) ?_
    | refine Keeps.snd (by assumption) ?_
    | refine Keeps.get (by assumption) ?_
    | refine Keeps.get1 (by assumption) ?_
    | refine Keeps.get1' (by assumption) ?_
    | refine KeepsN.get (by assumption) ?_
    | refine Keeps.ok (by assumption) ?_
    | refine Keeps.ok1 (by assumption) ?_
    | split

theorem copyWords_keeps {a0 : State} :
    ∀ (x0 : Nat) (x1 : State) (x2 : Nat) (x3 : Nat), Keeps a0 x1 → Keeps a0 (copyWords x0 x1 x2 x3).1
  | 0, _, _, _, h0 => by
    unfold copyWords
    try dsimp only
    with_reducible repeat' first
      | assumption
      | rfl
      | apply KeepsO.some
      | exact KeepsO.none
      | apply KeepsO1.some
      | apply KeepsO1.some'
      | exact KeepsO1.none
      | apply view_keeps
      | apply putBytes_keeps
      | refine Keeps.fst (by assumption) ?_
      | refine Keeps.snd (by assumption) ?_
      | refine Keeps.get (by assumption) ?_
      | refine Keeps.get1 (by assumption) ?_
      | refine Keeps.get1' (by assumption) ?_
      | refine Keeps.ok (by assumption) ?_
      | refine Keeps.ok1 (by assumption) ?_
      | split
  | n + 1, _, _, _, h0 => by
    unfold copyWords
    try dsimp only
    with_reducible repeat' first
      | assumption
      | rfl
      | apply KeepsO.some
      | exact KeepsO.none
      | apply KeepsO1.some
      | apply KeepsO1.some'
      | exact KeepsO1.none
      | apply view_keeps
      | apply putBytes_keeps
      | refine Keeps.fst (by assumption) ?_
      | refine Keeps.snd (by assumption) ?_
      | refine Keeps.get (by assumption) ?_
      | refine Keeps.get1 (by assumption) ?_
      | refine Keeps.get1' (by assumption) ?_
      | refine Keeps.ok (by assumption) ?_
      | refine Keeps.ok1 (by assumption) ?_
      | split
      | apply copyWords_keeps

theorem cmpWords_keeps {a0 : State} :
    ∀ (x0 : Nat) (x1 : State) (x2 : Nat) (x3 : Nat), Keeps a0 x1 → Keeps a0 (cmpWords x0 x1 x2 x3).1
  | 0, _, _, _, h0 => by
    unfold cmpWords
    try dsimp only
    with_reducible repeat' first
      | assumption
      | rfl
      | apply KeepsO.some
      | exact KeepsO.none
      | apply KeepsO1.some
      | apply KeepsO1.some'
      | exact KeepsO1.none
      | apply view_keeps
      | refine Keeps.fst (by assumption) ?_
      | refine Keeps.snd (by assumption) ?_
      | refine Keeps.get (by assumption) ?_
      | refine Keeps.get1 (by assumption) ?_
      | refine Keeps.get1' (by assumption) ?_
      | refine Keeps.ok (by assumption) ?_
      | refine Keeps.ok1 (by assumption) ?_
      | split
  | n + 1, _, _, _, h0 => by
    unfold cmpWords
    try dsimp only
    with_reducible repeat' first
      | assumption
      | rfl
      | apply KeepsO.some
      | exact KeepsO.none
      | apply KeepsO1.some
      | apply KeepsO1.some'
      | exact KeepsO1.none
      | apply view_keeps
      | refine Keeps.fst (by assumption) ?_
      | refine Keeps.snd (by assumption) ?_
      | refine Keeps.get (by assumption) ?_
      | refine Keeps.get1 (by assumption) ?_
      | refine Keeps.get1' (by assumption) ?_
      | refine Keeps.ok (by assumption) ?_
      | refine Keeps.ok1 (by assumption) ?_
      | split
      | apply cmpWords_keeps

theorem predVectors_keeps {a0 : State} :
    ∀ (func : Nat) (x0 : Nat) (x1 : State) (x2 : Nat) (x3 : Nat) (x4 : Nat) (x5 : List (BitVec 32)), Keeps a0 x1 → Keeps a0 (predVectors func x0 x1 x2 x3 x4 x5).1
  | _, 0, _, _, _, _, _, h0 => by
    unfold predVectors
    try dsimp only
    with_reducible repeat' first
      | assumption
      | rfl
      | apply KeepsO.some
      | exact KeepsO.none
      | apply KeepsO1.some
      | apply KeepsO1.some'
      | exact KeepsO1.none
      | apply KeepsE.ok
      | exact KeepsE.error
      | apply KeepsE1.ok
      | exact KeepsE1.error
      | apply view_keeps
      | refine KeepsO.map ?_ (fun _ _ => ?_)
      | refine KeepsO.map1 ?_ (fun _ _ => ?_)
      | refine KeepsO.map0 (fun _ => ?_)
      | refine KeepsO1.map ?_ (fun _ _ => ?_)
      | refine KeepsO1.map1 ?_ (fun _ _ => ?_)
      | refine KeepsO1.map0 (fun _ => ?_)
      | refine KeepsE.map ?_ (fun _ _ => ?_)
      | refine KeepsE.map1 ?_ (fun _ _ => ?_)
      | refine KeepsE.map0 (fun _ => ?_)
      | refine KeepsE1.map ?_ (fun _ _ => ?_)
      | refine KeepsE1.map1 ?_ (fun _ _ => ?_)
      | refine KeepsE1.map0 (fun _ => ?_)
      | refine Keeps.fst (by assumption) ?_
      | refine Keeps.snd (by assumption) ?_
      | refine Keeps.get (by assumption) ?_
      | refine Keeps.get1 (by assumption) ?_
      | refine Keeps.get1' (by assumption) ?_
      | refine Keeps.ok (by assumption) ?_
      | refine Keeps.ok1 (by assumption) ?_
      | split
  | _, n + 1, _, _, _, _, _, h0 => by
    unfold predVectors
    try dsimp only
    with_reducible repeat' first
      | assumption
      | rfl
      | apply KeepsO.some
      | exact KeepsO.none
      | apply KeepsO1.some
      | apply KeepsO1.some'
      | exact KeepsO1.none
      | apply KeepsE.ok
      | exact KeepsE.error
      | apply KeepsE1.ok
      | exact KeepsE1.error
      | apply view_keeps
      | refine KeepsO.map ?_ (fun _ _ => ?_)
      | refine KeepsO.map1 ?_ (fun _ _ => ?_)
      | refine KeepsO.map0 (fun _ => ?_)
      | refine KeepsO1.map ?_ (fun _ _ => ?_)
      | refine KeepsO1.map1 ?_ (fun _ _ => ?_)
      | refine KeepsO1.map0 (fun _ => ?_)
      | refine KeepsE.map ?_ (fun _ _ => ?_)
      | refine KeepsE.map1 ?_ (fun _ _ => ?_)
      | refine KeepsE.map0 (fun _ => ?_)
      | refine KeepsE1.map ?_ (fun _ _ => ?_)
      | refine KeepsE1.map1 ?_ (fun _ _ => ?_)
      | refine KeepsE1.map0 (fun _ => ?_)
      | refine Keeps.fst (by assumption) ?_
      | refine Keeps.snd (by assumption) ?_
      | refine Keeps.get (by assumption) ?_
      | refine Keeps.get1 (by assumption) ?_
      | refine Keeps.get1' (by assumption) ?_
      | refine Keeps.ok (by assumption) ?_
      | refine Keeps.ok1 (by assumption) ?_
      | split
      | apply predVectors_keeps

theorem predSums_keeps {a0 : State} (s : State) (func : Nat) (count : Nat) (src : Nat) (len : Nat) (m : Nat) (h0 : Keeps a0 s) : Keeps a0 (predSums s func count src len m).1 := by
  unfold predSums
  try dsimp only
  with_reducible repeat' first
    | assumption
    | rfl
    | apply KeepsO.some
    | exact KeepsO.none
    | apply KeepsO1.some
    | apply KeepsO1.some'
    | exact KeepsO1.none
    | apply KeepsE.ok
    | exact KeepsE.error
    | apply KeepsE1.ok
    | exact KeepsE1.error
    | apply view_keeps
    | apply predVectors_keeps
    | refine Keeps.fst (by assumption) ?_
    | refine Keeps.snd (by assumption) ?_
    | refine Keeps.get (by assumption) ?_
    | refine Keeps.get1 (by assumption) ?_
    | refine Keeps.get1' (by assumption) ?_
    | refine Keeps.ok (by assumption) ?_
    | refine Keeps.ok1 (by assumption) ?_
    | split

theorem predWords_keeps {a0 : State} :
    ∀ (func : Nat) (count : Nat) (len : Nat) (x0 : Nat) (x1 : State) (x2 : Nat) (x3 : Nat), Keeps a0 x1 → Keeps a0 (predWords func count len x0 x1 x2 x3).1
  | _, _, _, 0, _, _, _, h0 => by
    unfold predWords
    try dsimp only
    with_reducible repeat' first
      | assumption
      | rfl
      | apply KeepsO.some
      | exact KeepsO.none
      | apply KeepsO1.some
      | apply KeepsO1.some'
      | exact KeepsO1.none
      | apply KeepsE.ok
      | exact KeepsE.error
      | apply KeepsE1.ok
      | exact KeepsE1.error
      | apply predSums_keeps
      | apply putBytes_keeps
      | refine Keeps.fst (by assumption) ?_
      | refine Keeps.snd (by assumption) ?_
      | refine Keeps.get (by assumption) ?_
      | refine Keeps.get1 (by assumption) ?_
      | refine Keeps.get1' (by assumption) ?_
      | refine Keeps.ok (by assumption) ?_
      | refine Keeps.ok1 (by assumption) ?_
      | split
  | _, _, _, n + 1, _, _, _, h0 => by
    unfold predWords
    try dsimp only
    with_reducible repeat' first
      | assumption
      | rfl
      | apply KeepsO.some
      | exact KeepsO.none
      | apply KeepsO1.some
      | apply KeepsO1.some'
      | exact KeepsO1.none
      | apply KeepsE.ok
      | exact KeepsE.error
      | apply KeepsE1.ok
      | exact KeepsE1.error
      | apply predSums_keeps
      | apply putBytes_keeps
      | refine Keeps.fst (by assumption) ?_
      | refine Keeps.snd (by assumption) ?_
      | refine Keeps.get (by assumption) ?_
      | refine Keeps.get1 (by assumption) ?_
      | refine Keeps.get1' (by assumption) ?_
      | refine Keeps.ok (by assumption) ?_
      | refine Keeps.ok1 (by assumption) ?_
      | split
      | apply predWords_keeps

theorem poolPart_keeps {a0 : State} (s : State) (k : Nat) (p : PoolArgs) (o : Nat) (m : Nat) (h0 : Keeps a0 s) : Keeps a0 (poolPart s k p o m).1 := by
  unfold poolPart
  try dsimp only
  with_reducible repeat' first
    | assumption
    | rfl
    | apply KeepsO.some
    | exact KeepsO.none
    | apply KeepsO1.some
    | apply KeepsO1.some'
    | exact KeepsO1.none
    | apply KeepsE.ok
    | exact KeepsE.error
    | apply KeepsE1.ok
    | exact KeepsE1.error
    | apply rouse_keeps
    | apply scrub_keeps
    | apply putBytes_keeps
    | apply view_keeps
    | apply copyWords_keeps
    | apply cmpWords_keeps
    | apply predSums_keeps
    | apply predWords_keeps
    | refine KeepsO.getD ?_ ?_
    | refine KeepsO1.getD ?_ ?_
    | refine Keeps.fst (by assumption) ?_
    | refine Keeps.snd (by assumption) ?_
    | refine Keeps.get (by assumption) ?_
    | refine Keeps.get1 (by assumption) ?_
    | refine Keeps.get1' (by assumption) ?_
    | refine Keeps.ok (by assumption) ?_
    | refine Keeps.ok1 (by assumption) ?_
    | split

theorem endPool_keeps {a0 : State} (s : State) (k : Nat) (i : Nat) (code : Nat) (result : Nat) (h0 : Keeps a0 s) : Keeps a0 (endPool s k i code result) := by
  unfold endPool
  try dsimp only
  with_reducible repeat' first
    | assumption
    | rfl
    | apply KeepsO.some
    | exact KeepsO.none
    | apply KeepsO1.some
    | apply KeepsO1.some'
    | exact KeepsO1.none
    | apply KeepsE.ok
    | exact KeepsE.error
    | apply KeepsE1.ok
    | exact KeepsE1.error
    | apply modEng_keeps
    | apply bump_keeps
    | apply modCmd_keeps
    | split

theorem poolStart_keeps {a0 : State} (s : State) (k : Nat) (h0 : Keeps a0 s) : Keeps a0 (poolStart s k) := by
  unfold poolStart
  try dsimp only
  with_reducible repeat' first
    | assumption
    | rfl
    | apply KeepsO.some
    | exact KeepsO.none
    | apply KeepsO1.some
    | apply KeepsO1.some'
    | exact KeepsO1.none
    | apply endPool_keeps
    | apply poolPart_keeps
    | apply modEng_keeps
    | apply modCmd_keeps
    | refine Keeps.fst (by assumption) ?_
    | refine Keeps.snd (by assumption) ?_
    | refine Keeps.get (by assumption) ?_
    | refine Keeps.get1 (by assumption) ?_
    | refine Keeps.get1' (by assumption) ?_
    | refine Keeps.ok (by assumption) ?_
    | refine Keeps.ok1 (by assumption) ?_
    | split

theorem poolTake_keeps {a0 : State} (s : State) (k : Nat) (i : Nat) (code : Nat) (h0 : Keeps a0 s) : Keeps a0 (poolTake s k i code) := by
  unfold poolTake
  try dsimp only
  with_reducible repeat' first
    | assumption
    | rfl
    | apply KeepsO.some
    | exact KeepsO.none
    | apply KeepsO1.some
    | apply KeepsO1.some'
    | exact KeepsO1.none
    | apply modCmd_keeps
    | apply poolStart_keeps
    | apply modEng_keeps
    | refine KeepsO.getD ?_ ?_
    | refine KeepsO1.getD ?_ ?_
    | refine KeepsO.map ?_ (fun _ _ => ?_)
    | refine KeepsO.map1 ?_ (fun _ _ => ?_)
    | refine KeepsO.map0 (fun _ => ?_)
    | refine KeepsO1.map ?_ (fun _ _ => ?_)
    | refine KeepsO1.map1 ?_ (fun _ _ => ?_)
    | refine KeepsO1.map0 (fun _ => ?_)
    | split

theorem poolLane_keeps {a0 : State} (k : Nat) (code : Nat) (f : FmtP) (s : State) (c : CmdSlot) (l : Machine.Lane) (h0 : Keeps a0 s) : Keeps a0 (poolLane k code f s c l).1 := by
  unfold poolLane
  try dsimp only
  with_reducible repeat' first
    | assumption
    | rfl
    | apply KeepsO.some
    | exact KeepsO.none
    | apply KeepsO1.some
    | apply KeepsO1.some'
    | exact KeepsO1.none
    | apply fresh_keeps
    | apply afterLoads_keeps
    | apply poolPart_keeps
    | refine Keeps.fst (by assumption) ?_
    | refine Keeps.snd (by assumption) ?_
    | refine Keeps.get (by assumption) ?_
    | refine Keeps.get1 (by assumption) ?_
    | refine Keeps.get1' (by assumption) ?_
    | refine Keeps.ok (by assumption) ?_
    | refine Keeps.ok1 (by assumption) ?_
    | intro _
    | split

theorem poolExec_keeps {a0 : State} (k : Nat) (code : Nat) (f : PoolForm) (s : State) (h0 : Keeps a0 s) : KeepsN a0 (poolExec k code f s) := by
  unfold poolExec
  try dsimp only
  with_reducible repeat' first
    | assumption
    | rfl
    | apply KeepsN.next
    | apply KeepsN.fault
    | apply laneOp_keeps
    | apply poolLane_keeps
    | apply poolTake_keeps
    | refine Keeps.fst (by assumption) ?_
    | refine Keeps.snd (by assumption) ?_
    | refine Keeps.get (by assumption) ?_
    | refine Keeps.get1 (by assumption) ?_
    | refine Keeps.get1' (by assumption) ?_
    | refine KeepsN.get (by assumption) ?_
    | refine Keeps.ok (by assumption) ?_
    | refine Keeps.ok1 (by assumption) ?_
    | intro _
    | split

theorem execPfill_keeps {a0 : State} (slice : Slice) (f : PoolForm) (s : State) (h0 : Keeps a0 s) : KeepsN a0 (execPfill slice f s) := by
  unfold execPfill
  try dsimp only
  with_reducible repeat' first
    | assumption
    | rfl
    | apply KeepsN.next
    | apply KeepsN.fault
    | apply poolExec_keeps
    | split

theorem execPcopy_keeps {a0 : State} (slice : Slice) (f : PoolForm) (s : State) (h0 : Keeps a0 s) : KeepsN a0 (execPcopy slice f s) := by
  unfold execPcopy
  try dsimp only
  with_reducible repeat' first
    | assumption
    | rfl
    | apply KeepsN.next
    | apply KeepsN.fault
    | apply poolExec_keeps
    | split

theorem execPcmp_keeps {a0 : State} (slice : Slice) (f : PoolForm) (s : State) (h0 : Keeps a0 s) : KeepsN a0 (execPcmp slice f s) := by
  unfold execPcmp
  try dsimp only
  with_reducible repeat' first
    | assumption
    | rfl
    | apply KeepsN.next
    | apply KeepsN.fault
    | apply poolExec_keeps
    | split

theorem execPred_keeps {a0 : State} (slice : Slice) (f : PoolForm) (s : State) (h0 : Keeps a0 s) : KeepsN a0 (execPred slice f s) := by
  unfold execPred
  try dsimp only
  with_reducible repeat' first
    | assumption
    | rfl
    | apply KeepsN.next
    | apply KeepsN.fault
    | apply poolExec_keeps
    | split

theorem execPoolChunkComplete_keeps {a0 : State} (slice : Slice) (s : State) (h0 : Keeps a0 s) : KeepsN a0 (execPoolChunkComplete slice s) := by
  unfold execPoolChunkComplete
  try dsimp only
  with_reducible repeat' first
    | assumption
    | rfl
    | apply KeepsN.next
    | apply KeepsN.fault
    | apply KeepsO.some
    | exact KeepsO.none
    | apply KeepsO1.some
    | apply KeepsO1.some'
    | exact KeepsO1.none
    | apply modEng_keeps
    | apply endPool_keeps
    | apply poolStart_keeps
    | refine Keeps.fst (by assumption) ?_
    | refine Keeps.snd (by assumption) ?_
    | refine Keeps.get (by assumption) ?_
    | refine Keeps.get1 (by assumption) ?_
    | refine Keeps.get1' (by assumption) ?_
    | refine KeepsN.get (by assumption) ?_
    | refine Keeps.ok (by assumption) ?_
    | refine Keeps.ok1 (by assumption) ?_
    | split

theorem execRefreshDue_keeps {a0 : State} (slice : Slice) (pc : Nat) (bank : Nat) (s : State) (h0 : Keeps a0 s) : KeepsN a0 (execRefreshDue slice pc bank s) := by
  unfold execRefreshDue
  try dsimp only
  with_reducible repeat' first
    | assumption
    | rfl
    | apply KeepsN.next
    | apply KeepsN.fault
    | apply modStack_keeps
    | apply rmax_keeps
    | apply bump_keeps
    | refine KeepsO.getD ?_ ?_
    | refine KeepsO1.getD ?_ ?_
    | split

theorem execRefreshCatchUp_keeps {a0 : State} (slice : Slice) (s : State) (h0 : Keeps a0 s) : KeepsN a0 (execRefreshCatchUp slice s) := by
  unfold execRefreshCatchUp
  try dsimp only
  with_reducible repeat' first
    | assumption
    | rfl
    | apply KeepsN.next
    | apply KeepsN.fault
    | apply modStack_keeps
    | apply schedule_keeps
    | apply poolStart_keeps
    | refine Keeps.foldl (fun _ _ _ => ?_) _ ?_
    | refine Keeps.foldl1 (fun _ _ _ => ?_) _ ?_
    | split

end Sys2Proof.Laws
end

