-- ==== Sys2Proof/Laws/KeepsEngine.lean ====
section
/-!
SUPPORT. The operations of Machine/Engine.lean keep what Laws/Keeps.lean says.
-/
namespace Sys2Proof.Laws
open Sys2Proof.Machine

theorem poolNext_keeps {a0 : State} (s : State) (k : Nat) (h0 : Keeps a0 s) : Keeps a0 (poolNext s k) := by
  unfold poolNext
  try dsimp only
  with_reducible repeat' first
    | assumption
    | rfl
    | apply poolStart_keeps
    | apply poolTake_keeps
    | refine Keeps.foldl (fun _ _ _ => ?_) _ ?_
    | refine Keeps.foldl1 (fun _ _ _ => ?_) _ ?_
    | split

/-- What an instruction of a stored program does keeps what its meaning keeps. -/
theorem wordRun_keeps {a0 s : State} {k : Slice} {w : Nat} {f : State → Next} (e : wordRun k w = some f) (h0 : Keeps a0 s) :
    KeepsN a0 (f s) := by
  unfold wordRun at e
  split at e
  · cases e
  · split at e <;> first
      | (cases e; done)
      | (cases e
         with_reducible first
         | exact execVld_keeps _ _ _ h0
         | exact execVst_keeps _ _ _ h0
         | exact execSld_keeps _ _ _ h0
         | exact execSst_keeps _ _ _ h0
         | exact execWaitl_keeps _ _ _ h0
         | exact execCfg_keeps _ _ _ h0
         | exact execDqdot8_keeps _ _ _ h0
         | exact execDqdot4_keeps _ _ _ h0
         | exact execDqdot4c_keeps _ _ _ h0
         | exact execFold_keeps _ _ _ h0
         | exact execDotbf_keeps _ _ _ h0
         | exact execBnd_keeps _ _ _ h0
         | exact execBndr_keeps _ _ _ h0
         | exact execLogit_keeps _ _ _ h0
         | exact execPmax_keeps _ _ _ h0
         | exact execExpacc8_keeps _ _ _ h0
         | exact execExpacc4_keeps _ _ _ h0
         | exact execExpaccbf_keeps _ _ _ h0
         | exact execRmerge_keeps _ _ _ h0
         | exact execRemit_keeps _ _ _ h0
         | exact execCrcchk_keeps _ _ _ h0
         | exact execSalu_keeps _ _ _ h0
         | exact execSfpu_keeps _ _ _ h0
         | exact execMovi_keeps _ _ _ h0
         | exact execAadd_keeps _ _ _ h0
         | exact execLoopOpen_keeps _ _ _ h0
         | exact execEndl_keeps _ _ _ h0
         | exact execBrz_keeps _ _ _ h0
         | exact execHalt_keeps _ _ _ h0
         | exact execYield_keeps _ _ _ h0
         | exact execPfill_keeps _ _ _ h0
         | exact execPcopy_keeps _ _ _ h0
         | exact execPcmp_keeps _ _ _ h0
         | exact execPred_keeps _ _ _ h0
         )

theorem engineStep_keeps {a0 : State} (s : State) (k : Slice) (h0 : Keeps a0 s) : Keeps a0 (engineStep s k) := by
  have run : ∀ s, Keeps a0 s → Keeps a0 (match (fetched s k).bind (wordRun k) with
      | none => s
      | some f =>
        match f s with
        | .next t => t
        | _ => s) := by
    intro s h1
    split
    · exact h1
    · rename_i f e
      obtain ⟨w, -, e⟩ := Option.bind_eq_some_iff.mp e
      have h := wordRun_keeps e h1
      split
      · rename_i t e'
        exact h t e'
      · exact h1
  unfold engineStep
  split
  · exact run _ (poolNext_keeps _ _ (schedule_keeps _ _ h0))
  · exact run _ h0

theorem engines_keeps {a0 : State} (s : State) (h0 : Keeps a0 s) : Keeps a0 (engines s) := by
  unfold engines
  try dsimp only
  with_reducible repeat' first
    | assumption
    | rfl
    | apply engineStep_keeps
    | refine Keeps.foldl (fun _ _ _ => ?_) _ ?_
    | refine Keeps.foldl1 (fun _ _ _ => ?_) _ ?_
    | split

end Sys2Proof.Laws
end

