-- ==== Sys2Proof/Laws/KeepsJournal.lean ====
section
/-!
SUPPORT. The operations of Machine/Journal.lean keep what Laws/Keeps.lean says.
-/
namespace Sys2Proof.Laws
open Sys2Proof.Machine

theorem modFlash_keeps {a0 : State} (s : State) (f : Flash → Flash) (h0 : Keeps a0 s) : Keeps a0 (modFlash s f) := by
  unfold modFlash
  try dsimp only
  with_reducible repeat' first
    | assumption
    | rfl
    | apply modJrnl_keeps
    | split

theorem settleFlash_keeps {a0 : State} (s : State) (old : Flash) (h0 : Keeps a0 s) : Keeps a0 (settleFlash s old) := by
  unfold settleFlash
  try dsimp only
  with_reducible repeat' first
    | assumption
    | rfl
    | apply healthEvent_keeps
    | apply modFlash_keeps
    | refine KeepsO.getD ?_ ?_
    | refine KeepsO1.getD ?_ ?_
    | split

theorem programmed_keeps {a0 : State} (s : State) (h0 : Keeps a0 s) : Keeps a0 (programmed s) := by
  unfold programmed
  try dsimp only
  with_reducible repeat' first
    | assumption
    | rfl
    | apply modJrnl_keeps
    | apply modHealth_keeps
    | apply modFlash_keeps
    | refine KeepsO.getD ?_ ?_
    | refine KeepsO1.getD ?_ ?_
    | refine KeepsO.map ?_ (fun _ _ => ?_)
    | refine KeepsO.map1 ?_ (fun _ _ => ?_)
    | refine KeepsO.map0 (fun _ => ?_)
    | refine KeepsO1.map ?_ (fun _ _ => ?_)
    | refine KeepsO1.map1 ?_ (fun _ _ => ?_)
    | refine KeepsO1.map0 (fun _ => ?_)
    | split

theorem programPage_keeps {a0 : State} (s : State) (h0 : Keeps a0 s) : Keeps a0 (programPage s) := by
  unfold programPage
  try dsimp only
  with_reducible repeat' first
    | assumption
    | rfl
    | apply modFlash_keeps
    | apply programmed_keeps
    | apply settleFlash_keeps
    | split

theorem arriveRec_keeps {a0 : State} (s : State) (h : Nat) (h0 : Keeps a0 s) : Keeps a0 (arriveRec s h) := by
  unfold arriveRec
  try dsimp only
  with_reducible repeat' first
    | assumption
    | rfl
    | apply KeepsO.some
    | exact KeepsO.none
    | apply KeepsO1.some
    | apply KeepsO1.some'
    | exact KeepsO1.none
    | apply modJrnl_keeps
    | refine KeepsO.map ?_ (fun _ _ => ?_)
    | refine KeepsO.map1 ?_ (fun _ _ => ?_)
    | refine KeepsO.map0 (fun _ => ?_)
    | refine KeepsO1.map ?_ (fun _ _ => ?_)
    | refine KeepsO1.map1 ?_ (fun _ _ => ?_)
    | refine KeepsO1.map0 (fun _ => ?_)
    | refine Keeps.fst (by assumption) ?_
    | refine Keeps.snd (by assumption) ?_
    | refine Keeps.get (by assumption) ?_
    | refine Keeps.get1 (by assumption) ?_
    | refine Keeps.get1' (by assumption) ?_
    | refine Keeps.ok (by assumption) ?_
    | refine Keeps.ok1 (by assumption) ?_
    | split

theorem dropEvents_keeps {a0 : State} (s : State) (h0 : Keeps a0 s) : Keeps a0 (dropEvents s) := by
  unfold dropEvents
  try dsimp only
  with_reducible repeat' first
    | assumption
    | rfl
    | apply modJrnl_keeps
    | apply healthEvent_keeps
    | refine Keeps.foldl (fun _ _ _ => ?_) _ ?_
    | refine Keeps.foldl1 (fun _ _ _ => ?_) _ ?_
    | split

theorem flushJournal_keeps {a0 : State} :
    ∀ (x0 : Nat) (x1 : State), Keeps a0 x1 → Keeps a0 (flushJournal x0 x1)
  | 0, _, h0 => by
    unfold flushJournal
    try dsimp only
    with_reducible repeat' first
      | assumption
      | rfl
      | apply KeepsO.some
      | exact KeepsO.none
      | apply KeepsO1.some
      | apply KeepsO1.some'
      | exact KeepsO1.none
      | apply programPage_keeps
      | apply arriveRec_keeps
      | refine Keeps.fst (by assumption) ?_
      | refine Keeps.snd (by assumption) ?_
      | refine Keeps.get (by assumption) ?_
      | refine Keeps.get1 (by assumption) ?_
      | refine Keeps.get1' (by assumption) ?_
      | refine Keeps.ok (by assumption) ?_
      | refine Keeps.ok1 (by assumption) ?_
      | split
  | n + 1, _, h0 => by
    unfold flushJournal
    try dsimp only
    with_reducible repeat' first
      | assumption
      | rfl
      | apply KeepsO.some
      | exact KeepsO.none
      | apply KeepsO1.some
      | apply KeepsO1.some'
      | exact KeepsO1.none
      | apply programPage_keeps
      | apply arriveRec_keeps
      | refine Keeps.fst (by assumption) ?_
      | refine Keeps.snd (by assumption) ?_
      | refine Keeps.get (by assumption) ?_
      | refine Keeps.get1 (by assumption) ?_
      | refine Keeps.get1' (by assumption) ?_
      | refine Keeps.ok (by assumption) ?_
      | refine Keeps.ok1 (by assumption) ?_
      | split
      | apply flushJournal_keeps

theorem flushAll_keeps {a0 : State} (s : State) (h0 : Keeps a0 s) : Keeps a0 (flushAll s) := by
  unfold flushAll
  try dsimp only
  with_reducible repeat' first
    | assumption
    | rfl
    | apply flushJournal_keeps
    | split

theorem busMoves_keeps {a0 : State} (s : State) (h0 : Keeps a0 s) : Keeps a0 (busMoves s) := by
  unfold busMoves
  try dsimp only
  with_reducible repeat' first
    | assumption
    | rfl
    | apply modJrnl_keeps
    | refine KeepsO.map ?_ (fun _ _ => ?_)
    | refine KeepsO.map1 ?_ (fun _ _ => ?_)
    | refine KeepsO.map0 (fun _ => ?_)
    | refine KeepsO1.map ?_ (fun _ _ => ?_)
    | refine KeepsO1.map1 ?_ (fun _ _ => ?_)
    | refine KeepsO1.map0 (fun _ => ?_)
    | split

theorem mountJournal_keeps {a0 : State} (s : State) (n : NandFacts) (h0 : Keeps a0 s) : Keeps a0 (mountJournal s n) := by
  unfold mountJournal
  try dsimp only
  with_reducible repeat' first
    | assumption
    | rfl
    | apply modFlash_keeps
    | apply modJrnl_keeps
    | split

theorem flashRecord_keeps {a0 : State} (s : State) (blk : Nat) (cause : Nat) (h0 : Keeps a0 s) : Keeps a0 (flashRecord s blk cause) := by
  unfold flashRecord
  try dsimp only
  with_reducible repeat' first
    | assumption
    | rfl
    | apply journal_keeps
    | refine KeepsO.getD ?_ ?_
    | refine KeepsO1.getD ?_ ?_
    | split

theorem programFails_keeps {a0 : State} (s : State) (blk : Nat) (again : Bool) (h0 : Keeps a0 s) : Keeps a0 (programFails s blk again) := by
  unfold programFails
  try dsimp only
  with_reducible repeat' first
    | assumption
    | rfl
    | apply modFlash_keeps
    | apply programmed_keeps
    | apply bumpBy_keeps
    | apply settleFlash_keeps
    | apply flashRecord_keeps
    | refine Keeps.foldl (fun _ _ _ => ?_) _ ?_
    | refine Keeps.foldl1 (fun _ _ _ => ?_) _ ?_
    | split

theorem eraseFails_keeps {a0 : State} (s : State) (blk : Nat) (h0 : Keeps a0 s) : Keeps a0 (eraseFails s blk) := by
  unfold eraseFails
  try dsimp only
  with_reducible repeat' first
    | assumption
    | rfl
    | apply modFlash_keeps
    | apply settleFlash_keeps
    | apply flashRecord_keeps
    | apply bump_keeps
    | split

theorem execJournalRecordArrival_keeps {a0 : State} (hub : Hub) (s : State) (h0 : Keeps a0 s) : KeepsN a0 (execJournalRecordArrival hub s) := by
  unfold execJournalRecordArrival
  try dsimp only
  with_reducible repeat' first
    | assumption
    | rfl
    | apply KeepsN.next
    | apply KeepsN.fault
    | apply arriveRec_keeps
    | apply dropEvents_keeps
    | split

theorem execJournalFlushExpiry_keeps {a0 : State} (s : State) (h0 : Keeps a0 s) : KeepsN a0 (execJournalFlushExpiry s) := by
  unfold execJournalFlushExpiry
  try dsimp only
  with_reducible repeat' first
    | assumption
    | rfl
    | apply KeepsN.next
    | apply KeepsN.fault
    | apply KeepsO.some
    | exact KeepsO.none
    | apply KeepsO1.some
    | apply KeepsO1.some'
    | exact KeepsO1.none
    | apply programPage_keeps
    | apply passTo_keeps
    | refine Keeps.fst (by assumption) ?_
    | refine Keeps.snd (by assumption) ?_
    | refine Keeps.get (by assumption) ?_
    | refine Keeps.get1 (by assumption) ?_
    | refine Keeps.get1' (by assumption) ?_
    | refine KeepsN.get (by assumption) ?_
    | refine Keeps.ok (by assumption) ?_
    | refine Keeps.ok1 (by assumption) ?_
    | split

theorem execJournalPageProgram_keeps {a0 : State} (s : State) (h0 : Keeps a0 s) : KeepsN a0 (execJournalPageProgram s) := by
  unfold execJournalPageProgram
  try dsimp only
  with_reducible repeat' first
    | assumption
    | rfl
    | apply KeepsN.next
    | apply KeepsN.fault
    | apply programPage_keeps
    | split

theorem execNandProgramFail_keeps {a0 : State} (block : Nat) (erase : Bool) (again : Bool) (s : State) (h0 : Keeps a0 s) : KeepsN a0 (execNandProgramFail block erase again s) := by
  unfold execNandProgramFail
  try dsimp only
  with_reducible repeat' first
    | assumption
    | rfl
    | apply KeepsN.next
    | apply KeepsN.fault
    | apply eraseFails_keeps
    | apply programFails_keeps
    | split

theorem loadRecord_keeps {a0 : State} (s : State) (h0 : Keeps a0 s) : Keeps a0 (loadRecord s) := by
  unfold loadRecord
  try dsimp only
  with_reducible repeat' first
    | assumption
    | rfl
    | apply modHost_keeps
    | split

theorem execJournalRecordLoad_keeps {a0 : State} (s : State) (h0 : Keeps a0 s) : KeepsN a0 (execJournalRecordLoad s) := by
  unfold execJournalRecordLoad
  try dsimp only
  with_reducible repeat' first
    | assumption
    | rfl
    | apply KeepsN.next
    | apply KeepsN.fault
    | apply loadRecord_keeps
    | apply writeRefused_keeps
    | split

theorem readRelocate_keeps {a0 : State} (s : State) (blk : Nat) (cause : Nat) (h0 : Keeps a0 s) : Keeps a0 (readRelocate s blk cause) := by
  unfold readRelocate
  try dsimp only
  with_reducible repeat' first
    | assumption
    | rfl
    | apply settleFlash_keeps
    | apply flashRecord_keeps
    | apply modFlash_keeps
    | split

theorem execJournalRecordLoaded_keeps {a0 : State} (corrected : Nat) (uncorrectable : Bool) (s : State) (h0 : Keeps a0 s) : KeepsN a0 (execJournalRecordLoaded corrected uncorrectable s) := by
  unfold execJournalRecordLoaded
  try dsimp only
  with_reducible repeat' first
    | assumption
    | rfl
    | apply KeepsN.next
    | apply KeepsN.fault
    | apply KeepsO.some
    | exact KeepsO.none
    | apply KeepsO1.some
    | apply KeepsO1.some'
    | exact KeepsO1.none
    | apply modHost_keeps
    | apply modFlash_keeps
    | apply readRelocate_keeps
    | apply bump_keeps
    | refine KeepsO.getD ?_ ?_
    | refine KeepsO1.getD ?_ ?_
    | refine KeepsO.map ?_ (fun _ _ => ?_)
    | refine KeepsO.map1 ?_ (fun _ _ => ?_)
    | refine KeepsO.map0 (fun _ => ?_)
    | refine KeepsO1.map ?_ (fun _ _ => ?_)
    | refine KeepsO1.map1 ?_ (fun _ _ => ?_)
    | refine KeepsO1.map0 (fun _ => ?_)
    | refine Keeps.fst (by assumption) ?_
    | refine Keeps.snd (by assumption) ?_
    | refine Keeps.get (by assumption) ?_
    | refine Keeps.get1 (by assumption) ?_
    | refine Keeps.get1' (by assumption) ?_
    | refine KeepsN.get (by assumption) ?_
    | refine Keeps.ok (by assumption) ?_
    | refine Keeps.ok1 (by assumption) ?_
    | split

theorem journalMeters_keeps {a0 : State} (s : State) (h0 : Keeps a0 s) : Keeps a0 (journalMeters s) := by
  unfold journalMeters
  try dsimp only
  with_reducible repeat' first
    | assumption
    | rfl
    | apply journal_keeps
    | refine KeepsO.getD ?_ ?_
    | refine KeepsO1.getD ?_ ?_
    | refine Keeps.foldl (fun _ _ _ => ?_) _ ?_
    | refine Keeps.foldl1 (fun _ _ _ => ?_) _ ?_
    | split

theorem histFlush_keeps {a0 : State} (s : State) (h0 : Keeps a0 s) : Keeps a0 (histFlush s) := by
  unfold histFlush
  try dsimp only
  with_reducible repeat' first
    | assumption
    | rfl
    | apply journalMeters_keeps
    | apply journal_keeps
    | refine Keeps.foldl (fun _ _ _ => ?_) _ ?_
    | refine Keeps.foldl1 (fun _ _ _ => ?_) _ ?_
    | split

theorem execHistFlush_keeps {a0 : State} (s : State) (h0 : Keeps a0 s) : KeepsN a0 (execHistFlush s) := by
  unfold execHistFlush
  try dsimp only
  with_reducible repeat' first
    | assumption
    | rfl
    | apply KeepsN.next
    | apply KeepsN.fault
    | apply histFlush_keeps
    | split

theorem execMeterSample_keeps {a0 : State} (s : State) (h0 : Keeps a0 s) : KeepsN a0 (execMeterSample s) := by
  unfold execMeterSample
  try dsimp only
  with_reducible repeat' first
    | assumption
    | rfl
    | apply KeepsN.next
    | apply KeepsN.fault
    | apply KeepsO.some
    | exact KeepsO.none
    | apply KeepsO1.some
    | apply KeepsO1.some'
    | exact KeepsO1.none
    | refine KeepsO.foldl (fun _ _ _ => ?_) _ ?_
    | refine KeepsO1.foldl (fun _ _ _ => ?_) _ ?_
    | apply passTo_keeps
    | apply modMeter_keeps
    | refine Keeps.foldl (fun _ _ _ => ?_) _ ?_
    | refine Keeps.foldl1 (fun _ _ _ => ?_) _ ?_
    | refine Keeps.fst (by assumption) ?_
    | refine Keeps.snd (by assumption) ?_
    | refine Keeps.get (by assumption) ?_
    | refine Keeps.get1 (by assumption) ?_
    | refine Keeps.get1' (by assumption) ?_
    | refine KeepsN.get (by assumption) ?_
    | refine Keeps.ok (by assumption) ?_
    | refine Keeps.ok1 (by assumption) ?_
    | split

theorem resumeHealth_keeps {a0 : State} (s : State) (h0 : Keeps a0 s) : Keeps a0 (resumeHealth s) := by
  unfold resumeHealth
  try dsimp only
  with_reducible repeat' first
    | assumption
    | rfl
    | apply KeepsO.some
    | exact KeepsO.none
    | apply KeepsO1.some
    | apply KeepsO1.some'
    | exact KeepsO1.none
    | refine KeepsO.foldl (fun _ _ _ => ?_) _ ?_
    | refine KeepsO1.foldl (fun _ _ _ => ?_) _ ?_
    | apply modHealth_keeps
    | refine KeepsO.map ?_ (fun _ _ => ?_)
    | refine KeepsO.map1 ?_ (fun _ _ => ?_)
    | refine KeepsO.map0 (fun _ => ?_)
    | refine KeepsO1.map ?_ (fun _ _ => ?_)
    | refine KeepsO1.map1 ?_ (fun _ _ => ?_)
    | refine KeepsO1.map0 (fun _ => ?_)
    | refine Keeps.foldl (fun _ _ _ => ?_) _ ?_
    | refine Keeps.foldl1 (fun _ _ _ => ?_) _ ?_
    | refine Keeps.fst (by assumption) ?_
    | refine Keeps.snd (by assumption) ?_
    | refine Keeps.get (by assumption) ?_
    | refine Keeps.get1 (by assumption) ?_
    | refine Keeps.get1' (by assumption) ?_
    | refine Keeps.ok (by assumption) ?_
    | refine Keeps.ok1 (by assumption) ?_
    | split

end Sys2Proof.Laws
end

