-- ==== Sys2Proof/Laws/KeepsPower.lean ====
section
/-!
SUPPORT. The operations of Machine/Power.lean keep what Laws/Keeps.lean says.
-/
namespace Sys2Proof.Laws
open Sys2Proof.Machine

theorem loseDies_keeps {a0 : State} (s : State) (h0 : Keeps a0 s) : Keeps a0 (loseDies s) := by
  exact h0.trans ⟨rfl, List.prefix_rfl, Nat.le_refl _, Nat.le_refl _, rfl, Nat.le_refl _, fun _ _ => Nat.le_refl _, fun _ => rfl⟩

theorem railsOff_keeps {a0 : State} (s : State) (h0 : Keeps a0 s) : Keeps a0 (railsOff s) := by
  unfold railsOff
  try dsimp only
  with_reducible repeat' first
    | assumption
    | rfl
    | apply setTaps_keeps
    | apply modPower_keeps
    | apply loseDies_keeps
    | apply setTaps_keeps
    | split

theorem tripDie_keeps {a0 : State} (s : State) (die : Nat) (t : Int) (h0 : Keeps a0 s) : Keeps a0 (tripDie s die t) := by
  unfold tripDie
  try dsimp only
  with_reducible repeat' first
    | assumption
    | rfl
    | apply KeepsO.some
    | exact KeepsO.none
    | apply KeepsO1.some
    | apply KeepsO1.some'
    | exact KeepsO1.none
    | apply railsOff_keeps
    | apply modPower_keeps
    | split

theorem vsb33Lost_keeps {a0 : State} (s : State) (h0 : Keeps a0 s) : Keeps a0 (vsb33Lost s) := by
  unfold vsb33Lost
  try dsimp only
  with_reducible repeat' first
    | assumption
    | rfl
    | apply modPower_keeps
    | apply railsOff_keeps
    | split

theorem execVsb33Valid_keeps {a0 : State} (drainLow : Bool) (s : State) (h0 : Keeps a0 s) : KeepsN a0 (execVsb33Valid drainLow s) := by
  unfold execVsb33Valid
  try dsimp only
  with_reducible repeat' first
    | assumption
    | rfl
    | apply KeepsN.next
    | apply KeepsN.fault
    | apply modPower_keeps
    | split

theorem execVsb33Loss_keeps {a0 : State} (s : State) (h0 : Keeps a0 s) : KeepsN a0 (execVsb33Loss s) := by
  unfold execVsb33Loss
  try dsimp only
  with_reducible repeat' first
    | assumption
    | rfl
    | apply KeepsN.next
    | apply KeepsN.fault
    | apply vsb33Lost_keeps
    | split

theorem execVsb33Removed_keeps {a0 : State} (s : State) (h0 : Keeps a0 s) : KeepsN a0 (execVsb33Removed s) := by
  unfold execVsb33Removed
  try dsimp only
  with_reducible repeat' first
    | assumption
    | rfl
    | apply KeepsN.next
    | apply KeepsN.fault
    | apply KeepsO.some
    | exact KeepsO.none
    | apply KeepsO1.some
    | apply KeepsO1.some'
    | exact KeepsO1.none
    | apply vsb33Lost_keeps
    | apply modPower_keeps
    | split

theorem execVin48Valid_keeps {a0 : State} (mv : Nat) (s : State) (h0 : Keeps a0 s) : KeepsN a0 (execVin48Valid mv s) := by
  unfold execVin48Valid
  try dsimp only
  with_reducible repeat' first
    | assumption
    | rfl
    | apply KeepsN.next
    | apply KeepsN.fault
    | apply modPower_keeps
    | split

theorem execRailsInRegulation_keeps {a0 : State} (s : State) (h0 : Keeps a0 s) : KeepsN a0 (execRailsInRegulation s) := by
  unfold execRailsInRegulation
  try dsimp only
  with_reducible repeat' first
    | assumption
    | rfl
    | apply KeepsN.next
    | apply KeepsN.fault
    | apply modPower_keeps
    | split

theorem execVin48Undervoltage_keeps {a0 : State} (s : State) (h0 : Keeps a0 s) : KeepsN a0 (execVin48Undervoltage s) := by
  unfold execVin48Undervoltage
  try dsimp only
  with_reducible repeat' first
    | assumption
    | rfl
    | apply KeepsN.next
    | apply KeepsN.fault
    | apply railsOff_keeps
    | apply modPower_keeps
    | split

theorem execRailFault_keeps {a0 : State} (s : State) (h0 : Keeps a0 s) : KeepsN a0 (execRailFault s) := by
  unfold execRailFault
  try dsimp only
  with_reducible repeat' first
    | assumption
    | rfl
    | apply KeepsN.next
    | apply KeepsN.fault
    | apply railsOff_keeps
    | apply modPower_keeps
    | split

theorem execResetAssert_keeps {a0 : State} (s : State) (h0 : Keeps a0 s) : KeepsN a0 (execResetAssert s) := by
  unfold execResetAssert
  try dsimp only
  with_reducible repeat' first
    | assumption
    | rfl
    | apply KeepsN.next
    | apply KeepsN.fault
    | apply loseDies_keeps
    | apply modPower_keeps
    | split

theorem execThrottleAssert_keeps {a0 : State} (s : State) (h0 : Keeps a0 s) : KeepsN a0 (execThrottleAssert s) := by
  unfold execThrottleAssert
  try dsimp only
  with_reducible repeat' first
    | assumption
    | rfl
    | apply KeepsN.next
    | apply KeepsN.fault
    | apply modPower_keeps
    | apply settleLevels_keeps
    | split

theorem execThrottleRelease_keeps {a0 : State} (s : State) (h0 : Keeps a0 s) : KeepsN a0 (execThrottleRelease s) := by
  unfold execThrottleRelease
  try dsimp only
  with_reducible repeat' first
    | assumption
    | rfl
    | apply KeepsN.next
    | apply KeepsN.fault
    | apply modPower_keeps
    | apply settleLevels_keeps
    | split

theorem startDraining_keeps {a0 : State} (s : State) (h0 : Keeps a0 s) : Keeps a0 (startDraining s) := by
  unfold startDraining
  try dsimp only
  with_reducible repeat' first
    | assumption
    | rfl
    | apply modLife_keeps
    | split

theorem endDraining_keeps {a0 : State} (s : State) (h0 : Keeps a0 s) : Keeps a0 (endDraining s) := by
  unfold endDraining
  try dsimp only
  with_reducible repeat' first
    | assumption
    | rfl
    | apply modLife_keeps
    | split

theorem takeDrain_keeps {a0 : State} (s : State) (h0 : Keeps a0 s) : Keeps a0 (takeDrain s) := by
  unfold takeDrain
  try dsimp only
  with_reducible repeat' first
    | assumption
    | rfl
    | apply modPower_keeps
    | apply startDraining_keeps
    | split

theorem execDrainEvent_keeps {a0 : State} (s : State) (h0 : Keeps a0 s) : KeepsN a0 (execDrainEvent s) := by
  unfold execDrainEvent
  try dsimp only
  with_reducible repeat' first
    | assumption
    | rfl
    | apply KeepsN.next
    | apply KeepsN.fault
    | apply takeDrain_keeps
    | apply modPower_keeps
    | split

theorem execDrainRearm_keeps {a0 : State} (s : State) (h0 : Keeps a0 s) : KeepsN a0 (execDrainRearm s) := by
  unfold execDrainRearm
  try dsimp only
  with_reducible repeat' first
    | assumption
    | rfl
    | apply KeepsN.next
    | apply KeepsN.fault
    | apply endDraining_keeps
    | apply modPower_keeps
    | split

theorem modTap_keeps {a0 : State} (s : State) (d : Nat) (f : Tap → Tap) (h0 : Keeps a0 s) : Keeps a0 (modTap s d f) := by
  unfold modTap
  try dsimp only
  with_reducible repeat' first
    | assumption
    | rfl
    | apply setTaps_keeps
    | apply setTaps_keeps
    | split

theorem tapBypass_keeps {a0 : State} (s : State) (d : Nat) (h0 : Keeps a0 s) : Keeps a0 (tapBypass s d) := by
  unfold tapBypass
  try dsimp only
  with_reducible repeat' first
    | assumption
    | rfl
    | apply emit_keeps
    | apply modTap_keeps
    | split

theorem tapRun_keeps {a0 : State} (s : State) (d : Nat) (free : Bool) (f : State → State) (h_f : ∀ (x0 : State), Keeps a0 x0 → Keeps a0 (f x0)) (h0 : Keeps a0 s) : KeepsN a0 (tapRun s d free f) := by
  unfold tapRun
  try dsimp only
  with_reducible repeat' first
    | assumption
    | rfl
    | apply KeepsN.next
    | apply KeepsN.fault
    | apply tapBypass_keeps
    | apply h_f
    | split

theorem execBypass_keeps {a0 : State} (die : Die) (s : State) (h0 : Keeps a0 s) : KeepsN a0 (execBypass die s) := by
  unfold execBypass
  try dsimp only
  with_reducible repeat' first
    | assumption
    | rfl
    | apply KeepsN.next
    | apply KeepsN.fault
    | apply tapRun_keeps
    | apply tapBypass_keeps
    | intro _
    | split

theorem execIdcode_keeps {a0 : State} (die : Die) (s : State) (h0 : Keeps a0 s) : KeepsN a0 (execIdcode die s) := by
  unfold execIdcode
  try dsimp only
  with_reducible repeat' first
    | assumption
    | rfl
    | apply KeepsN.next
    | apply KeepsN.fault
    | apply tapRun_keeps
    | apply emit_keeps
    | apply modTap_keeps
    | intro _
    | split

theorem execSamplePreload_keeps {a0 : State} (die : Die) (lands : List Bool) (preload : List Bool) (s : State) (h0 : Keeps a0 s) : KeepsN a0 (execSamplePreload die lands preload s) := by
  unfold execSamplePreload
  try dsimp only
  with_reducible repeat' first
    | assumption
    | rfl
    | apply KeepsN.next
    | apply KeepsN.fault
    | apply tapRun_keeps
    | apply emit_keeps
    | apply modTap_keeps
    | intro _
    | split

theorem execExtest_keeps {a0 : State} (die : Die) (lands : List Bool) (s : State) (h0 : Keeps a0 s) : KeepsN a0 (execExtest die lands s) := by
  unfold execExtest
  try dsimp only
  with_reducible repeat' first
    | assumption
    | rfl
    | apply KeepsN.next
    | apply KeepsN.fault
    | apply tapRun_keeps
    | apply emit_keeps
    | apply modTap_keeps
    | intro _
    | split

theorem execClamp_keeps {a0 : State} (die : Die) (s : State) (h0 : Keeps a0 s) : KeepsN a0 (execClamp die s) := by
  unfold execClamp
  try dsimp only
  with_reducible repeat' first
    | assumption
    | rfl
    | apply KeepsN.next
    | apply KeepsN.fault
    | apply tapRun_keeps
    | apply emit_keeps
    | apply modTap_keeps
    | intro _
    | split

theorem execHighz_keeps {a0 : State} (die : Die) (s : State) (h0 : Keeps a0 s) : KeepsN a0 (execHighz die s) := by
  unfold execHighz
  try dsimp only
  with_reducible repeat' first
    | assumption
    | rfl
    | apply KeepsN.next
    | apply KeepsN.fault
    | apply tapRun_keeps
    | apply emit_keeps
    | apply modTap_keeps
    | intro _
    | split

theorem testCapture_keeps {a0 : State} (s : State) (r : BitVec 64) (h0 : Keeps a0 s) : Keeps a0 (testCapture s r).2 := by
  unfold testCapture
  try dsimp only
  with_reducible repeat' first
    | assumption
    | rfl
    | apply fresh_keeps
    | split

theorem execLinktest_keeps {a0 : State} (die : Die) (data : BitVec 64) (s : State) (h0 : Keeps a0 s) : KeepsN a0 (execLinktest die data s) := by
  unfold execLinktest
  try dsimp only
  with_reducible repeat' first
    | assumption
    | rfl
    | apply KeepsN.next
    | apply KeepsN.fault
    | apply tapRun_keeps
    | apply testCapture_keeps
    | apply emit_keeps
    | apply modTap_keeps
    | refine Keeps.fst (by assumption) ?_
    | refine Keeps.snd (by assumption) ?_
    | refine Keeps.get (by assumption) ?_
    | refine Keeps.get1 (by assumption) ?_
    | refine Keeps.get1' (by assumption) ?_
    | refine KeepsN.get (by assumption) ?_
    | refine Keeps.ok (by assumption) ?_
    | refine Keeps.ok1 (by assumption) ?_
    | intro _
    | split

theorem execHbmloop_keeps {a0 : State} (die : Die) (data : BitVec 64) (s : State) (h0 : Keeps a0 s) : KeepsN a0 (execHbmloop die data s) := by
  unfold execHbmloop
  try dsimp only
  with_reducible repeat' first
    | assumption
    | rfl
    | apply KeepsN.next
    | apply KeepsN.fault
    | apply tapRun_keeps
    | apply testCapture_keeps
    | apply emit_keeps
    | apply modTap_keeps
    | refine Keeps.fst (by assumption) ?_
    | refine Keeps.snd (by assumption) ?_
    | refine Keeps.get (by assumption) ?_
    | refine Keeps.get1 (by assumption) ?_
    | refine Keeps.get1' (by assumption) ?_
    | refine KeepsN.get (by assumption) ?_
    | refine Keeps.ok (by assumption) ?_
    | refine Keeps.ok1 (by assumption) ?_
    | intro _
    | split

theorem execTapReset_keeps {a0 : State} (s : State) (h0 : Keeps a0 s) : KeepsN a0 (execTapReset s) := by
  unfold execTapReset
  try dsimp only
  with_reducible repeat' first
    | assumption
    | rfl
    | apply KeepsN.next
    | apply KeepsN.fault
    | apply setTaps_keeps
    | refine KeepsO.map ?_ (fun _ _ => ?_)
    | refine KeepsO.map1 ?_ (fun _ _ => ?_)
    | refine KeepsO.map0 (fun _ => ?_)
    | refine KeepsO1.map ?_ (fun _ _ => ?_)
    | refine KeepsO1.map1 ?_ (fun _ _ => ?_)
    | refine KeepsO1.map0 (fun _ => ?_)
    | apply setTaps_keeps
    | split

end Sys2Proof.Laws
end

