-- ==== Sys2Proof/Laws/KeepsMgmt.lean ====
section
/-!
SUPPORT. The operations of Machine/Mgmt.lean keep what Laws/Keeps.lean says.
-/
namespace Sys2Proof.Laws
open Sys2Proof.Machine

theorem modLov_keeps {a0 : State} (s : State) (h : Nat) (f : Lovage → Lovage) (h0 : Keeps a0 s) : Keeps a0 (modLov s h f) := by
  unfold modLov
  try dsimp only
  with_reducible repeat' first
    | assumption
    | rfl
    | apply modTrust_keeps
    | split

theorem mgmtAnswer_keeps {a0 : State} (s : State) (id : Nat) (m : Msg) (st : Status) (body : List Byte) (h0 : Keeps a0 s) : Keeps a0 (mgmtAnswer s id m st body) := by
  unfold mgmtAnswer
  try dsimp only
  with_reducible repeat' first
    | assumption
    | rfl
    | apply answer_keeps
    | split

theorem mgmtRun_keeps {a0 : State} (s : State) (id : Nat) (op : Nat) (f : State → Msg → MgmtHdr → State) (h_f : ∀ (x0 : State) (x1 : Msg) (x2 : MgmtHdr), Keeps a0 x0 → Keeps a0 (f x0 x1 x2)) (h0 : Keeps a0 s) : KeepsN a0 (mgmtRun s id op f) := by
  unfold mgmtRun
  try dsimp only
  with_reducible repeat' first
    | assumption
    | rfl
    | apply KeepsN.next
    | apply KeepsN.fault
    | apply KeepsO.some
    | exact KeepsO.none
    | apply KeepsO1.some
    | apply KeepsO1.some'
    | exact KeepsO1.none
    | apply mgmtAnswer_keeps
    | refine Keeps.fst (by assumption) ?_
    | refine Keeps.snd (by assumption) ?_
    | refine Keeps.get (by assumption) ?_
    | refine Keeps.get1 (by assumption) ?_
    | refine Keeps.get1' (by assumption) ?_
    | refine KeepsN.get (by assumption) ?_
    | refine Keeps.ok (by assumption) ?_
    | refine Keeps.ok1 (by assumption) ?_
    | apply h_f
    | split

theorem modSession_keeps {a0 : State} (s : State) (sid : Nat) (f : Session → Session) (h0 : Keeps a0 s) : Keeps a0 (modSession s sid f) := by
  unfold modSession
  try dsimp only
  with_reducible repeat' first
    | assumption
    | rfl
    | apply modTrust_keeps
    | refine KeepsO.map ?_ (fun _ _ => ?_)
    | refine KeepsO.map1 ?_ (fun _ _ => ?_)
    | refine KeepsO.map0 (fun _ => ?_)
    | refine KeepsO1.map ?_ (fun _ _ => ?_)
    | refine KeepsO1.map1 ?_ (fun _ _ => ?_)
    | refine KeepsO1.map0 (fun _ => ?_)
    | split

theorem endSession_keeps {a0 : State} (s : State) (sid : Nat) (h0 : Keeps a0 s) : Keeps a0 (endSession s sid) := by
  unfold endSession
  try dsimp only
  with_reducible repeat' first
    | assumption
    | rfl
    | apply modTrust_keeps
    | split

theorem bumpPrimary_keeps {a0 : State} (s : State) (r : Reg) (h0 : Keeps a0 s) : Keeps a0 (bumpPrimary s r) := by
  unfold bumpPrimary
  try dsimp only
  with_reducible repeat' first
    | assumption
    | rfl
    | apply bump_keeps
    | refine KeepsO.getD ?_ ?_
    | refine KeepsO1.getD ?_ ?_
    | split

theorem takeSealed_keeps {a0 : State} (s : State) (x : Session) (seq : Nat) (h0 : Keeps a0 s) : Keeps a0 (takeSealed s x seq) := by
  unfold takeSealed
  try dsimp only
  with_reducible repeat' first
    | assumption
    | rfl
    | apply modSession_keeps
    | split

theorem sealedAnswer_keeps {a0 : State} (s : State) (id : Nat) (m : Msg) (sid : Nat) (st : Status) (body : List Byte) (h0 : Keeps a0 s) : Keeps a0 (sealedAnswer s id m sid st body) := by
  unfold sealedAnswer
  try dsimp only
  with_reducible repeat' first
    | assumption
    | rfl
    | apply KeepsO.some
    | exact KeepsO.none
    | apply KeepsO1.some
    | apply KeepsO1.some'
    | exact KeepsO1.none
    | apply mgmtAnswer_keeps
    | apply modSession_keeps
    | apply answer_keeps
    | refine Keeps.fst (by assumption) ?_
    | refine Keeps.snd (by assumption) ?_
    | refine Keeps.get (by assumption) ?_
    | refine Keeps.get1 (by assumption) ?_
    | refine Keeps.get1' (by assumption) ?_
    | refine Keeps.ok (by assumption) ?_
    | refine Keeps.ok1 (by assumption) ?_
    | split

theorem sessionRun_keeps {a0 : State} (s : State) (id : Nat) (op : Nat) (pick : List Byte → Bool) (f : State → Msg → Session → List Byte → State) (h_f : ∀ (x0 : State) (x1 : Msg) (x2 : Session) (x3 : List Byte), Keeps a0 x0 → Keeps a0 (f x0 x1 x2 x3)) (h0 : Keeps a0 s) : KeepsN a0 (sessionRun s id op pick f) := by
  unfold sessionRun
  try dsimp only
  with_reducible repeat' first
    | assumption
    | rfl
    | apply KeepsN.next
    | apply KeepsN.fault
    | apply KeepsE.ok
    | exact KeepsE.error
    | apply KeepsE1.ok
    | exact KeepsE1.error
    | apply mgmtRun_keeps
    | apply endSession_keeps
    | apply bumpPrimary_keeps
    | apply mgmtAnswer_keeps
    | apply takeSealed_keeps
    | refine Keeps.fst (by assumption) ?_
    | refine Keeps.snd (by assumption) ?_
    | refine Keeps.get (by assumption) ?_
    | refine Keeps.get1 (by assumption) ?_
    | refine Keeps.get1' (by assumption) ?_
    | refine KeepsN.get (by assumption) ?_
    | refine Keeps.ok (by assumption) ?_
    | refine Keeps.ok1 (by assumption) ?_
    | apply h_f
    | intro _
    | split

theorem primaryGone_keeps {a0 : State} (s : State) (h0 : Keeps a0 s) : Keeps a0 (primaryGone s) := by
  unfold primaryGone
  try dsimp only
  with_reducible repeat' first
    | assumption
    | rfl
    | apply KeepsO.some
    | exact KeepsO.none
    | apply KeepsO1.some
    | apply KeepsO1.some'
    | exact KeepsO1.none
    | refine KeepsO.foldl (fun _ _ _ => ?_) _ ?_
    | refine KeepsO1.foldl (fun _ _ _ => ?_) _ ?_
    | apply modTrust_keeps
    | apply mgmtAnswer_keeps
    | apply modLife_keeps
    | refine KeepsO.map ?_ (fun _ _ => ?_)
    | refine KeepsO.map1 ?_ (fun _ _ => ?_)
    | refine KeepsO.map0 (fun _ => ?_)
    | refine KeepsO1.map ?_ (fun _ _ => ?_)
    | refine KeepsO1.map1 ?_ (fun _ _ => ?_)
    | refine KeepsO1.map0 (fun _ => ?_)
    | refine Keeps.foldl (fun _ _ _ => ?_) _ ?_
    | refine Keeps.foldl1 (fun _ _ _ => ?_) _ ?_
    | refine Keeps.fst (by assumption) ?_
    | refine Keeps.snd (by assumption) ?_
    | refine Keeps.get (by assumption) ?_
    | refine Keeps.get1 (by assumption) ?_
    | refine Keeps.get1' (by assumption) ?_
    | refine Keeps.ok (by assumption) ?_
    | refine Keeps.ok1 (by assumption) ?_
    | split

theorem stepDown_keeps {a0 : State} (s : State) (h : Nat) (h0 : Keeps a0 s) : Keeps a0 (stepDown s h) := by
  unfold stepDown
  try dsimp only
  with_reducible repeat' first
    | assumption
    | rfl
    | apply KeepsO.some
    | exact KeepsO.none
    | apply KeepsO1.some
    | apply KeepsO1.some'
    | exact KeepsO1.none
    | apply primaryGone_keeps
    | apply modLov_keeps
    | split

end Sys2Proof.Laws
end

