-- ==== Sys2Proof/Laws/KeepsLive.lean ====
section
/-!
SUPPORT. The operations of Machine/Live.lean keep what Laws/Keeps.lean says.
-/
namespace Sys2Proof.Laws
open Sys2Proof.Machine

theorem readRows_keeps {a0 : State} (lpns : List Nat) (s : State) (h0 : Keeps a0 s) : Keeps a0 (readRows lpns s).1 := by
  unfold readRows
  try dsimp only
  with_reducible repeat' first
    | assumption
    | rfl
    | apply KeepsO.some
    | exact KeepsO.none
    | apply KeepsO1.some
    | apply KeepsO1.some'
    | exact KeepsO1.none
    | refine KeepsO.foldl (fun _ _ _ => ?_) _ ?_
    | refine KeepsO1.foldl (fun _ _ _ => ?_) _ ?_
    | apply loadHdr_keeps
    | refine Keeps.foldl (fun _ _ _ => ?_) _ ?_
    | refine Keeps.foldl1 (fun _ _ _ => ?_) _ ?_
    | refine Keeps.fst (by assumption) ?_
    | refine Keeps.snd (by assumption) ?_
    | refine Keeps.get (by assumption) ?_
    | refine Keeps.get1 (by assumption) ?_
    | refine Keeps.get1' (by assumption) ?_
    | refine Keeps.ok (by assumption) ?_
    | refine Keeps.ok1 (by assumption) ?_
    | split

theorem dropPrefixRows_keeps {a0 : State} (s : State) (h : Nat) (k : Nat) (h0 : Keeps a0 s) : Keeps a0 (dropPrefixRows s h k) := by
  unfold dropPrefixRows
  try dsimp only
  with_reducible repeat' first
    | assumption
    | rfl
    | apply delete_keeps
    | refine Keeps.foldl (fun _ _ _ => ?_) _ ?_
    | refine Keeps.foldl1 (fun _ _ _ => ?_) _ ?_
    | split

theorem restampSlice_keeps {a0 : State} (s : State) (k : Nat) (h0 : Keeps a0 s) : Keeps a0 (restampSlice s k) := by
  unfold restampSlice
  try dsimp only
  with_reducible repeat' first
    | assumption
    | rfl
    | apply modLedg_keeps
    | apply modSeqs_keeps
    | apply modMem_keeps
    | refine KeepsO.map ?_ (fun _ _ => ?_)
    | refine KeepsO.map1 ?_ (fun _ _ => ?_)
    | refine KeepsO.map0 (fun _ => ?_)
    | refine KeepsO1.map ?_ (fun _ _ => ?_)
    | refine KeepsO1.map1 ?_ (fun _ _ => ?_)
    | refine KeepsO1.map0 (fun _ => ?_)
    | split

theorem restampDir_keeps {a0 : State} (s : State) (q : Nat) (h0 : Keeps a0 s) : Keeps a0 (restampDir s q) := by
  unfold restampDir
  try dsimp only
  with_reducible repeat' first
    | assumption
    | rfl
    | apply modLedg_keeps
    | refine KeepsO.map ?_ (fun _ _ => ?_)
    | refine KeepsO.map1 ?_ (fun _ _ => ?_)
    | refine KeepsO.map0 (fun _ => ?_)
    | refine KeepsO1.map ?_ (fun _ _ => ?_)
    | refine KeepsO1.map1 ?_ (fun _ _ => ?_)
    | refine KeepsO1.map0 (fun _ => ?_)
    | split

theorem moveHome_keeps {a0 : State} (s : State) (k : Nat) (dest : Option Nat) (h0 : Keeps a0 s) : Keeps a0 (moveHome s k dest) := by
  unfold moveHome
  try dsimp only
  with_reducible repeat' first
    | assumption
    | rfl
    | apply KeepsO.some
    | exact KeepsO.none
    | apply KeepsO1.some
    | apply KeepsO1.some'
    | exact KeepsO1.none
    | apply dropPrefixRows_keeps
    | apply restampSlice_keeps
    | apply abortCmds_keeps
    | apply modSlice_keeps
    | apply modChive_keeps
    | refine Keeps.fst (by assumption) ?_
    | refine Keeps.snd (by assumption) ?_
    | refine Keeps.get (by assumption) ?_
    | refine Keeps.get1 (by assumption) ?_
    | refine Keeps.get1' (by assumption) ?_
    | refine Keeps.ok (by assumption) ?_
    | refine Keeps.ok1 (by assumption) ?_
    | split

theorem rehome_keeps {a0 : State} (s : State) (k : Nat) (h0 : Keeps a0 s) : Keeps a0 (rehome s k) := by
  unfold rehome
  try dsimp only
  with_reducible repeat' first
    | assumption
    | rfl
    | apply KeepsO.some
    | exact KeepsO.none
    | apply KeepsO1.some
    | apply KeepsO1.some'
    | exact KeepsO1.none
    | apply moveHome_keeps
    | refine Keeps.fst (by assumption) ?_
    | refine Keeps.snd (by assumption) ?_
    | refine Keeps.get (by assumption) ?_
    | refine Keeps.get1 (by assumption) ?_
    | refine Keeps.get1' (by assumption) ?_
    | refine Keeps.ok (by assumption) ?_
    | refine Keeps.ok1 (by assumption) ?_
    | split

theorem rehomeAll_keeps {a0 : State} (s : State) (h0 : Keeps a0 s) : Keeps a0 (rehomeAll s) := by
  unfold rehomeAll
  try dsimp only
  with_reducible repeat' first
    | assumption
    | rfl
    | apply rehome_keeps
    | refine Keeps.foldl (fun _ _ _ => ?_) _ ?_
    | refine Keeps.foldl1 (fun _ _ _ => ?_) _ ?_
    | split

theorem linkDown_keeps {a0 : State} (s : State) (a : Nat) (b : Nat) (h0 : Keeps a0 s) : Keeps a0 (linkDown s a b) := by
  unfold linkDown
  try dsimp only
  with_reducible repeat' first
    | assumption
    | rfl
    | apply rehomeAll_keeps
    | apply modLink_keeps
    | split

theorem execLinkReplay_keeps {a0 : State} (link : LinkId) (word : BitVec 144) (s : State) (h0 : Keeps a0 s) : KeepsN a0 (execLinkReplay link word s) := by
  unfold execLinkReplay
  try dsimp only
  with_reducible repeat' first
    | assumption
    | rfl
    | apply KeepsN.next
    | apply KeepsN.fault
    | apply modLink_keeps
    | apply bump_keeps
    | apply modDie_keeps
    | apply logErr_keeps
    | apply journal_keeps
    | apply healthEvent_keeps
    | apply linkDown_keeps
    | refine Keeps.fst (by assumption) ?_
    | refine Keeps.snd (by assumption) ?_
    | refine Keeps.get (by assumption) ?_
    | refine Keeps.get1 (by assumption) ?_
    | refine Keeps.get1' (by assumption) ?_
    | refine KeepsN.get (by assumption) ?_
    | refine Keeps.ok (by assumption) ?_
    | refine Keeps.ok1 (by assumption) ?_
    | split

theorem enterRows_keeps {a0 : State} (s : State) (h : Nat) (rows : List ChiveRow) (h0 : Keeps a0 s) : Keeps a0 (enterRows s h rows) := by
  unfold enterRows
  try dsimp only
  with_reducible repeat' first
    | assumption
    | rfl
    | apply insert_keeps
    | refine Keeps.foldl (fun _ _ _ => ?_) _ ?_
    | refine Keeps.foldl1 (fun _ _ _ => ?_) _ ?_
    | split

theorem loseConn_keeps {a0 : State} (s : State) (q : Nat) (id : Nat) (c : Conn) (h0 : Keeps a0 s) : Keeps a0 (loseConn s q id c) := by
  unfold loseConn
  try dsimp only
  with_reducible repeat' first
    | assumption
    | rfl
    | apply KeepsO.some
    | exact KeepsO.none
    | apply KeepsO1.some
    | apply KeepsO1.some'
    | exact KeepsO1.none
    | refine KeepsO.foldl (fun _ _ _ => ?_) _ ?_
    | refine KeepsO1.foldl (fun _ _ _ => ?_) _ ?_
    | apply dropConn_keeps
    | apply reissue_keeps
    | apply askFailed_keeps
    | refine Keeps.foldl (fun _ _ _ => ?_) _ ?_
    | refine Keeps.foldl1 (fun _ _ _ => ?_) _ ?_
    | refine Keeps.fst (by assumption) ?_
    | refine Keeps.snd (by assumption) ?_
    | refine Keeps.get (by assumption) ?_
    | refine Keeps.get1 (by assumption) ?_
    | refine Keeps.get1' (by assumption) ?_
    | refine Keeps.ok (by assumption) ?_
    | refine Keeps.ok1 (by assumption) ?_
    | split

theorem passConn_keeps {a0 : State} (s : State) (h : Nat) (id : Nat) (c : Conn) (n : Nat) (h0 : Keeps a0 s) : Keeps a0 (passConn s h id c n) := by
  unfold passConn
  try dsimp only
  with_reducible repeat' first
    | assumption
    | rfl
    | apply modFab_keeps
    | apply modTrust_keeps
    | apply modTraf_keeps
    | apply enterRows_keeps
    | refine KeepsO.map ?_ (fun _ _ => ?_)
    | refine KeepsO.map1 ?_ (fun _ _ => ?_)
    | refine KeepsO.map0 (fun _ => ?_)
    | refine KeepsO1.map ?_ (fun _ _ => ?_)
    | refine KeepsO1.map1 ?_ (fun _ _ => ?_)
    | refine KeepsO1.map0 (fun _ => ?_)
    | split

theorem moveConns_keeps {a0 : State} (s : State) (q : Nat) (planned : Bool) (h0 : Keeps a0 s) : Keeps a0 (moveConns s q planned) := by
  unfold moveConns
  try dsimp only
  with_reducible repeat' first
    | assumption
    | rfl
    | apply KeepsO.some
    | exact KeepsO.none
    | apply KeepsO1.some
    | apply KeepsO1.some'
    | exact KeepsO1.none
    | refine KeepsO.foldl (fun _ _ _ => ?_) _ ?_
    | refine KeepsO1.foldl (fun _ _ _ => ?_) _ ?_
    | apply loseConn_keeps
    | apply passConn_keeps
    | refine Keeps.foldl (fun _ _ _ => ?_) _ ?_
    | refine Keeps.foldl1 (fun _ _ _ => ?_) _ ?_
    | refine Keeps.fst (by assumption) ?_
    | refine Keeps.snd (by assumption) ?_
    | refine Keeps.get (by assumption) ?_
    | refine Keeps.get1 (by assumption) ?_
    | refine Keeps.get1' (by assumption) ?_
    | refine Keeps.ok (by assumption) ?_
    | refine Keeps.ok1 (by assumption) ?_
    | split

theorem moveMsgs_keeps {a0 : State} (s : State) (q : Nat) (planned : Bool) (h0 : Keeps a0 s) : Keeps a0 (moveMsgs s q planned) := by
  unfold moveMsgs
  try dsimp only
  with_reducible repeat' first
    | assumption
    | rfl
    | apply KeepsO.some
    | exact KeepsO.none
    | apply KeepsO1.some
    | apply KeepsO1.some'
    | exact KeepsO1.none
    | apply setMsgs_keeps
    | refine KeepsO.map ?_ (fun _ _ => ?_)
    | refine KeepsO.map1 ?_ (fun _ _ => ?_)
    | refine KeepsO.map0 (fun _ => ?_)
    | refine KeepsO1.map ?_ (fun _ _ => ?_)
    | refine KeepsO1.map1 ?_ (fun _ _ => ?_)
    | refine KeepsO1.map0 (fun _ => ?_)
    | apply setMsgs_keeps
    | refine Keeps.fst (by assumption) ?_
    | refine Keeps.snd (by assumption) ?_
    | refine Keeps.get (by assumption) ?_
    | refine Keeps.get1 (by assumption) ?_
    | refine Keeps.get1' (by assumption) ?_
    | refine Keeps.ok (by assumption) ?_
    | refine Keeps.ok1 (by assumption) ?_
    | split

theorem dropMerges_keeps {a0 : State} (s : State) (q : Nat) (h0 : Keeps a0 s) : Keeps a0 (dropMerges s q) := by
  unfold dropMerges
  try dsimp only
  with_reducible repeat' first
    | assumption
    | rfl
    | apply endCtx_keeps
    | apply modMerge_keeps
    | refine KeepsO.bind ?_ (fun _ _ => ?_)
    | refine KeepsO.bind1 ?_ (fun _ _ => ?_)
    | refine KeepsO.bind0 (fun _ => ?_)
    | refine KeepsO1.bind ?_ (fun _ _ => ?_)
    | refine KeepsO1.bind1 ?_ (fun _ _ => ?_)
    | refine KeepsO1.bind0 (fun _ => ?_)
    | refine KeepsO.map ?_ (fun _ _ => ?_)
    | refine KeepsO.map1 ?_ (fun _ _ => ?_)
    | refine KeepsO.map0 (fun _ => ?_)
    | refine KeepsO1.map ?_ (fun _ _ => ?_)
    | refine KeepsO1.map1 ?_ (fun _ _ => ?_)
    | refine KeepsO1.map0 (fun _ => ?_)
    | refine Keeps.foldl (fun _ _ _ => ?_) _ ?_
    | refine Keeps.foldl1 (fun _ _ _ => ?_) _ ?_
    | refine Keeps.fst (by assumption) ?_
    | refine Keeps.snd (by assumption) ?_
    | refine Keeps.get (by assumption) ?_
    | refine Keeps.get1 (by assumption) ?_
    | refine Keeps.get1' (by assumption) ?_
    | refine Keeps.ok (by assumption) ?_
    | refine Keeps.ok1 (by assumption) ?_
    | split

theorem pcieDown_keeps {a0 : State} (s : State) (p : Nat) (h0 : Keeps a0 s) : Keeps a0 (pcieDown s p) := by
  unfold pcieDown
  try dsimp only
  with_reducible repeat' first
    | assumption
    | rfl
    | apply modHost_keeps
    | apply modTrust_keeps
    | apply modPower_keeps
    | refine KeepsO.map ?_ (fun _ _ => ?_)
    | refine KeepsO.map1 ?_ (fun _ _ => ?_)
    | refine KeepsO.map0 (fun _ => ?_)
    | refine KeepsO1.map ?_ (fun _ _ => ?_)
    | refine KeepsO1.map1 ?_ (fun _ _ => ?_)
    | refine KeepsO1.map0 (fun _ => ?_)
    | refine Keeps.fst (by assumption) ?_
    | refine Keeps.snd (by assumption) ?_
    | refine Keeps.get (by assumption) ?_
    | refine Keeps.get1 (by assumption) ?_
    | refine Keeps.get1' (by assumption) ?_
    | refine Keeps.ok (by assumption) ?_
    | refine Keeps.ok1 (by assumption) ?_
    | split

theorem clearHub_keeps {a0 : State} (s : State) (q : Nat) (h0 : Keeps a0 s) : Keeps a0 (clearHub s q) := by
  unfold clearHub
  try dsimp only
  with_reducible repeat' first
    | assumption
    | rfl
    | apply KeepsO.some
    | exact KeepsO.none
    | apply KeepsO1.some
    | apply KeepsO1.some'
    | exact KeepsO1.none
    | apply modFab_keeps
    | apply modTraf_keeps
    | apply modChive_keeps
    | apply scrub_keeps
    | apply modLov_keeps
    | refine KeepsO.map ?_ (fun _ _ => ?_)
    | refine KeepsO.map1 ?_ (fun _ _ => ?_)
    | refine KeepsO.map0 (fun _ => ?_)
    | refine KeepsO1.map ?_ (fun _ _ => ?_)
    | refine KeepsO1.map1 ?_ (fun _ _ => ?_)
    | refine KeepsO1.map0 (fun _ => ?_)
    | split

theorem enterHomes_keeps {a0 : State} (s : State) (q : Nat) (h0 : Keeps a0 s) : Keeps a0 (enterHomes s q) := by
  unfold enterHomes
  try dsimp only
  with_reducible repeat' first
    | assumption
    | rfl
    | apply KeepsO.some
    | exact KeepsO.none
    | apply KeepsO1.some
    | apply KeepsO1.some'
    | exact KeepsO1.none
    | apply restampDir_keeps
    | apply enterRows_keeps
    | refine KeepsO.map ?_ (fun _ _ => ?_)
    | refine KeepsO.map1 ?_ (fun _ _ => ?_)
    | refine KeepsO.map0 (fun _ => ?_)
    | refine KeepsO1.map ?_ (fun _ _ => ?_)
    | refine KeepsO1.map1 ?_ (fun _ _ => ?_)
    | refine KeepsO1.map0 (fun _ => ?_)
    | refine Keeps.fst (by assumption) ?_
    | refine Keeps.snd (by assumption) ?_
    | refine Keeps.get (by assumption) ?_
    | refine Keeps.get1 (by assumption) ?_
    | refine Keeps.get1' (by assumption) ?_
    | refine Keeps.ok (by assumption) ?_
    | refine Keeps.ok1 (by assumption) ?_
    | split

theorem movePorts_keeps {a0 : State} (s : State) (q : Nat) (old : Option Nat) (h0 : Keeps a0 s) : Keeps a0 (movePorts s q old) := by
  unfold movePorts
  try dsimp only
  with_reducible repeat' first
    | assumption
    | rfl
    | apply pcieDown_keeps
    | apply busMoves_keeps
    | split

theorem endOpFree_keeps {a0 : State} (s : State) (h0 : Keeps a0 s) : Keeps a0 (endOpFree s) := by
  unfold endOpFree
  try dsimp only
  with_reducible repeat' first
    | assumption
    | rfl
    | apply KeepsO.some
    | exact KeepsO.none
    | apply KeepsO1.some
    | apply KeepsO1.some'
    | exact KeepsO1.none
    | apply KeepsE.ok
    | exact KeepsE.error
    | apply KeepsE1.ok
    | exact KeepsE1.error
    | apply fresh_keeps
    | apply modLife_keeps
    | refine KeepsO.getD ?_ ?_
    | refine KeepsO1.getD ?_ ?_
    | split

theorem breakMove_keeps {a0 : State} (s : State) (q : Nat) (h0 : Keeps a0 s) : Keeps a0 (breakMove s q) := by
  unfold breakMove
  try dsimp only
  with_reducible repeat' first
    | assumption
    | rfl
    | apply KeepsO.some
    | exact KeepsO.none
    | apply KeepsO1.some
    | apply KeepsO1.some'
    | exact KeepsO1.none
    | apply endOpFree_keeps
    | apply modHub_keeps
    | refine Keeps.fst (by assumption) ?_
    | refine Keeps.snd (by assumption) ?_
    | refine Keeps.get (by assumption) ?_
    | refine Keeps.get1 (by assumption) ?_
    | refine Keeps.get1' (by assumption) ?_
    | refine Keeps.ok (by assumption) ?_
    | refine Keeps.ok1 (by assumption) ?_
    | split

theorem lostAgain_keeps {a0 : State} (s : State) (q : Nat) (h0 : Keeps a0 s) : Keeps a0 (lostAgain s q) := by
  unfold lostAgain
  try dsimp only
  with_reducible repeat' first
    | assumption
    | rfl
    | apply KeepsO.some
    | exact KeepsO.none
    | apply KeepsO1.some
    | apply KeepsO1.some'
    | exact KeepsO1.none
    | apply endOpFree_keeps
    | apply dieStateRec_keeps
    | apply modHub_keeps
    | refine Keeps.fst (by assumption) ?_
    | refine Keeps.snd (by assumption) ?_
    | refine Keeps.get (by assumption) ?_
    | refine Keeps.get1 (by assumption) ?_
    | refine Keeps.get1' (by assumption) ?_
    | refine Keeps.ok (by assumption) ?_
    | refine Keeps.ok1 (by assumption) ?_
    | split

theorem hubLost_keeps {a0 : State} (s : State) (q : Nat) (h0 : Keeps a0 s) : Keeps a0 (hubLost s q) := by
  unfold hubLost
  try dsimp only
  with_reducible repeat' first
    | assumption
    | rfl
    | apply KeepsO.some
    | exact KeepsO.none
    | apply KeepsO1.some
    | apply KeepsO1.some'
    | exact KeepsO1.none
    | apply lostAgain_keeps
    | apply modHub_keeps
    | apply stepDown_keeps
    | apply breakMove_keeps
    | apply modJrnl_keeps
    | apply journal_keeps
    | apply dropMerges_keeps
    | apply moveMsgs_keeps
    | apply moveConns_keeps
    | apply clearHub_keeps
    | apply modLedg_keeps
    | apply enterHomes_keeps
    | apply rehomeAll_keeps
    | apply movePorts_keeps
    | refine KeepsO.map ?_ (fun _ _ => ?_)
    | refine KeepsO.map1 ?_ (fun _ _ => ?_)
    | refine KeepsO.map0 (fun _ => ?_)
    | refine KeepsO1.map ?_ (fun _ _ => ?_)
    | refine KeepsO1.map1 ?_ (fun _ _ => ?_)
    | refine KeepsO1.map0 (fun _ => ?_)
    | split

theorem execHubFailure_keeps {a0 : State} (hub : Hub) (s : State) (h0 : Keeps a0 s) : KeepsN a0 (execHubFailure hub s) := by
  unfold execHubFailure
  try dsimp only
  with_reducible repeat' first
    | assumption
    | rfl
    | apply KeepsN.next
    | apply KeepsN.fault
    | apply hubLost_keeps
    | split

theorem execRef25Loss_keeps {a0 : State} (hub : Hub) (s : State) (h0 : Keeps a0 s) : KeepsN a0 (execRef25Loss hub s) := by
  unfold execRef25Loss
  try dsimp only
  with_reducible repeat' first
    | assumption
    | rfl
    | apply KeepsN.next
    | apply KeepsN.fault
    | apply modHub_keeps
    | apply hubLost_keeps
    | split

theorem dropSliceRecs_keeps {a0 : State} (s : State) (k : Nat) (h0 : Keeps a0 s) : Keeps a0 (dropSliceRecs s k) := by
  unfold dropSliceRecs
  try dsimp only
  with_reducible repeat' first
    | assumption
    | rfl
    | apply KeepsO.some
    | exact KeepsO.none
    | apply KeepsO1.some
    | apply KeepsO1.some'
    | exact KeepsO1.none
    | refine KeepsO.foldl (fun _ _ _ => ?_) _ ?_
    | refine KeepsO1.foldl (fun _ _ _ => ?_) _ ?_
    | apply modCmd_keeps
    | apply modMerge_keeps
    | refine Keeps.foldl (fun _ _ _ => ?_) _ ?_
    | refine Keeps.foldl1 (fun _ _ _ => ?_) _ ?_
    | refine Keeps.fst (by assumption) ?_
    | refine Keeps.snd (by assumption) ?_
    | refine Keeps.get (by assumption) ?_
    | refine Keeps.get1 (by assumption) ?_
    | refine Keeps.get1' (by assumption) ?_
    | refine Keeps.ok (by assumption) ?_
    | refine Keeps.ok1 (by assumption) ?_
    | split

theorem opRecord_keeps {a0 : State} (s : State) (d : Nat) (h0 : Keeps a0 s) : Keeps a0 (opRecord s d) := by
  unfold opRecord
  try dsimp only
  with_reducible repeat' first
    | assumption
    | rfl
    | apply dieStateRec_keeps
    | split

theorem endOp_keeps {a0 : State} (s : State) (st : Status) (h0 : Keeps a0 s) : Keeps a0 (endOp s st) := by
  unfold endOp
  try dsimp only
  with_reducible repeat' first
    | assumption
    | rfl
    | apply KeepsO.some
    | exact KeepsO.none
    | apply KeepsO1.some
    | apply KeepsO1.some'
    | exact KeepsO1.none
    | apply modLife_keeps
    | split

theorem stackSleeps_keeps {a0 : State} (s : State) (k : Nat) (h0 : Keeps a0 s) : Keeps a0 (stackSleeps s k) := by
  unfold stackSleeps
  try dsimp only
  with_reducible repeat' first
    | assumption
    | rfl
    | apply modStack_keeps
    | split

theorem startRetrain_keeps {a0 : State} (s : State) (k : Nat) (auto : Bool) (h0 : Keeps a0 s) : Keeps a0 (startRetrain s k auto) := by
  unfold startRetrain
  try dsimp only
  with_reducible repeat' first
    | assumption
    | rfl
    | apply KeepsO.some
    | exact KeepsO.none
    | apply KeepsO1.some
    | apply KeepsO1.some'
    | exact KeepsO1.none
    | apply stackSleeps_keeps
    | apply setSliceSt_keeps
    | apply modLife_keeps
    | split

theorem nextRetrain_keeps {a0 : State} (s : State) (h0 : Keeps a0 s) : Keeps a0 (nextRetrain s) := by
  unfold nextRetrain
  try dsimp only
  with_reducible repeat' first
    | assumption
    | rfl
    | apply modLife_keeps
    | apply startRetrain_keeps
    | refine Keeps.fst (by assumption) ?_
    | refine Keeps.snd (by assumption) ?_
    | refine Keeps.get (by assumption) ?_
    | refine Keeps.get1 (by assumption) ?_
    | refine Keeps.get1' (by assumption) ?_
    | refine Keeps.ok (by assumption) ?_
    | refine Keeps.ok1 (by assumption) ?_
    | split

theorem emptySram_keeps {a0 : State} (s : State) (k : Nat) (leaves : Bool) (h0 : Keeps a0 s) : Keeps a0 (emptySram s k leaves) := by
  unfold emptySram
  try dsimp only
  with_reducible repeat' first
    | assumption
    | rfl
    | apply KeepsO.some
    | exact KeepsO.none
    | apply KeepsO1.some
    | apply KeepsO1.some'
    | exact KeepsO1.none
    | refine KeepsO.foldl (fun _ _ _ => ?_) _ ?_
    | refine KeepsO1.foldl (fun _ _ _ => ?_) _ ?_
    | apply writeBack_keeps
    | apply evictTail_keeps
    | apply uncacheUntil_keeps
    | apply demote_keeps
    | refine KeepsO.map ?_ (fun _ _ => ?_)
    | refine KeepsO.map1 ?_ (fun _ _ => ?_)
    | refine KeepsO.map0 (fun _ => ?_)
    | refine KeepsO1.map ?_ (fun _ _ => ?_)
    | refine KeepsO1.map1 ?_ (fun _ _ => ?_)
    | refine KeepsO1.map0 (fun _ => ?_)
    | refine Keeps.foldl (fun _ _ _ => ?_) _ ?_
    | refine Keeps.foldl1 (fun _ _ _ => ?_) _ ?_
    | refine Keeps.fst (by assumption) ?_
    | refine Keeps.snd (by assumption) ?_
    | refine Keeps.get (by assumption) ?_
    | refine Keeps.get1 (by assumption) ?_
    | refine Keeps.get1' (by assumption) ?_
    | refine Keeps.ok (by assumption) ?_
    | refine Keeps.ok1 (by assumption) ?_
    | split

theorem revokeScratch_keeps {a0 : State} (s : State) (d : Nat) (h0 : Keeps a0 s) : Keeps a0 (revokeScratch s d) := by
  unfold revokeScratch
  try dsimp only
  with_reducible repeat' first
    | assumption
    | rfl
    | apply KeepsO.some
    | exact KeepsO.none
    | apply KeepsO1.some
    | apply KeepsO1.some'
    | exact KeepsO1.none
    | refine KeepsO.foldl (fun _ _ _ => ?_) _ ?_
    | refine KeepsO1.foldl (fun _ _ _ => ?_) _ ?_
    | apply startRevoke_keeps
    | refine Keeps.foldl (fun _ _ _ => ?_) _ ?_
    | refine Keeps.foldl1 (fun _ _ _ => ?_) _ ?_
    | split

theorem startRetire_keeps {a0 : State} (s : State) (k : Nat) (h0 : Keeps a0 s) : Keeps a0 (startRetire s k) := by
  unfold startRetire
  try dsimp only
  with_reducible repeat' first
    | assumption
    | rfl
    | apply KeepsO.some
    | exact KeepsO.none
    | apply KeepsO1.some
    | apply KeepsO1.some'
    | exact KeepsO1.none
    | apply endOp_keeps
    | apply setSliceSt_keeps
    | apply modSlice_keeps
    | apply emptySram_keeps
    | apply revokeScratch_keeps
    | apply abortCmds_keeps
    | apply modLife_keeps
    | refine Keeps.fst (by assumption) ?_
    | refine Keeps.snd (by assumption) ?_
    | refine Keeps.get (by assumption) ?_
    | refine Keeps.get1 (by assumption) ?_
    | refine Keeps.get1' (by assumption) ?_
    | refine Keeps.ok (by assumption) ?_
    | refine Keeps.ok1 (by assumption) ?_
    | split

theorem startReadmit_keeps {a0 : State} (s : State) (k : Nat) (h0 : Keeps a0 s) : Keeps a0 (startReadmit s k) := by
  unfold startReadmit
  try dsimp only
  with_reducible repeat' first
    | assumption
    | rfl
    | apply KeepsO.some
    | exact KeepsO.none
    | apply KeepsO1.some
    | apply KeepsO1.some'
    | exact KeepsO1.none
    | apply modLife_keeps
    | refine KeepsO.getD ?_ ?_
    | refine KeepsO1.getD ?_ ?_
    | split

theorem startFailover_keeps {a0 : State} (s : State) (q : Nat) (h0 : Keeps a0 s) : Keeps a0 (startFailover s q) := by
  unfold startFailover
  try dsimp only
  with_reducible repeat' first
    | assumption
    | rfl
    | apply KeepsO.some
    | exact KeepsO.none
    | apply KeepsO1.some
    | apply KeepsO1.some'
    | exact KeepsO1.none
    | apply stepDown_keeps
    | apply setHubSt_keeps
    | apply modLife_keeps
    | split

theorem startOp_keeps {a0 : State} (s : State) (h0 : Keeps a0 s) : Keeps a0 (startOp s) := by
  unfold startOp
  try dsimp only
  with_reducible repeat' first
    | assumption
    | rfl
    | apply KeepsO.some
    | exact KeepsO.none
    | apply KeepsO1.some
    | apply KeepsO1.some'
    | exact KeepsO1.none
    | apply modLife_keeps
    | apply startRetrain_keeps
    | apply endOp_keeps
    | apply startRetire_keeps
    | apply startReadmit_keeps
    | apply startFailover_keeps
    | apply setSliceSt_keeps
    | apply setHubSt_keeps
    | refine Keeps.ite ?_ ?_
    | split

theorem lcGo_keeps {a0 : State} (s : State) (op : Nat) (h0 : Keeps a0 s) : Keeps a0 (lcGo s op) := by
  unfold lcGo
  try dsimp only
  with_reducible repeat' first
    | assumption
    | rfl
    | apply startOp_keeps
    | apply rset_keeps
    | apply writeRefused_keeps
    | split

theorem execRetrain_keeps {a0 : State} (s : State) (h0 : Keeps a0 s) : KeepsN a0 (execRetrain s) := by
  unfold execRetrain
  try dsimp only
  with_reducible repeat' first
    | assumption
    | rfl
    | apply KeepsN.next
    | apply KeepsN.fault
    | apply lcGo_keeps
    | split

theorem execRetire_keeps {a0 : State} (s : State) (h0 : Keeps a0 s) : KeepsN a0 (execRetire s) := by
  unfold execRetire
  try dsimp only
  with_reducible repeat' first
    | assumption
    | rfl
    | apply KeepsN.next
    | apply KeepsN.fault
    | apply lcGo_keeps
    | split

theorem execReadmit_keeps {a0 : State} (s : State) (h0 : Keeps a0 s) : KeepsN a0 (execReadmit s) := by
  unfold execReadmit
  try dsimp only
  with_reducible repeat' first
    | assumption
    | rfl
    | apply KeepsN.next
    | apply KeepsN.fault
    | apply lcGo_keeps
    | split

theorem execFailover_keeps {a0 : State} (s : State) (h0 : Keeps a0 s) : KeepsN a0 (execFailover s) := by
  unfold execFailover
  try dsimp only
  with_reducible repeat' first
    | assumption
    | rfl
    | apply KeepsN.next
    | apply KeepsN.fault
    | apply lcGo_keeps
    | split

theorem execFailback_keeps {a0 : State} (s : State) (h0 : Keeps a0 s) : KeepsN a0 (execFailback s) := by
  unfold execFailback
  try dsimp only
  with_reducible repeat' first
    | assumption
    | rfl
    | apply KeepsN.next
    | apply KeepsN.fault
    | apply lcGo_keeps
    | split

theorem execIsolateTest_keeps {a0 : State} (s : State) (h0 : Keeps a0 s) : KeepsN a0 (execIsolateTest s) := by
  unfold execIsolateTest
  try dsimp only
  with_reducible repeat' first
    | assumption
    | rfl
    | apply KeepsN.next
    | apply KeepsN.fault
    | apply lcGo_keeps
    | split

theorem execShutdown_keeps {a0 : State} (s : State) (h0 : Keeps a0 s) : KeepsN a0 (execShutdown s) := by
  unfold execShutdown
  try dsimp only
  with_reducible repeat' first
    | assumption
    | rfl
    | apply KeepsN.next
    | apply KeepsN.fault
    | apply lcGo_keeps
    | split

theorem restartMargins_keeps {a0 : State} (s : State) (k : Nat) (h0 : Keeps a0 s) : Keeps a0 (restartMargins s k) := by
  unfold restartMargins
  try dsimp only
  with_reducible repeat' first
    | assumption
    | rfl
    | apply modHealth_keeps
    | refine KeepsO.map ?_ (fun _ _ => ?_)
    | refine KeepsO.map1 ?_ (fun _ _ => ?_)
    | refine KeepsO.map0 (fun _ => ?_)
    | refine KeepsO1.map ?_ (fun _ _ => ?_)
    | refine KeepsO1.map1 ?_ (fun _ _ => ?_)
    | refine KeepsO1.map0 (fun _ => ?_)
    | split

theorem execStackRetrainComplete_keeps {a0 : State} (slice : Slice) (failed : Bool) (s : State) (h0 : Keeps a0 s) : KeepsN a0 (execStackRetrainComplete slice failed s) := by
  unfold execStackRetrainComplete
  try dsimp only
  with_reducible repeat' first
    | assumption
    | rfl
    | apply KeepsN.next
    | apply KeepsN.fault
    | apply KeepsO.some
    | exact KeepsO.none
    | apply KeepsO1.some
    | apply KeepsO1.some'
    | exact KeepsO1.none
    | apply KeepsE.ok
    | exact KeepsE.error
    | apply KeepsE1.ok
    | exact KeepsE1.error
    | apply nextRetrain_keeps
    | apply opRecord_keeps
    | apply endOpFree_keeps
    | apply dropSliceRecs_keeps
    | apply setSliceSt_keeps
    | apply modStack_keeps
    | apply restartMargins_keeps
    | apply endOp_keeps
    | apply modLife_keeps
    | apply poolStart_keeps
    | apply schedule_keeps
    | refine Keeps.fst (by assumption) ?_
    | refine Keeps.snd (by assumption) ?_
    | refine Keeps.get (by assumption) ?_
    | refine Keeps.get1 (by assumption) ?_
    | refine Keeps.get1' (by assumption) ?_
    | refine KeepsN.get (by assumption) ?_
    | refine Keeps.ok (by assumption) ?_
    | refine Keeps.ok1 (by assumption) ?_
    | split

theorem copyRange_keeps {a0 : State} (s : State) (src : Nat) (dst : Nat) (n : Nat) (h0 : Keeps a0 s) : Keeps a0 (copyRange s src dst n) := by
  unfold copyRange
  try dsimp only
  with_reducible repeat' first
    | assumption
    | rfl
    | apply KeepsO.some
    | exact KeepsO.none
    | apply KeepsO1.some
    | apply KeepsO1.some'
    | exact KeepsO1.none
    | refine KeepsO.foldl (fun _ _ _ => ?_) _ ?_
    | refine KeepsO1.foldl (fun _ _ _ => ?_) _ ?_
    | apply touchStack_keeps
    | apply loadWord_keeps
    | apply setCells_keeps
    | apply setChk_keeps
    | refine KeepsO.map ?_ (fun _ _ => ?_)
    | refine KeepsO.map1 ?_ (fun _ _ => ?_)
    | refine KeepsO.map0 (fun _ => ?_)
    | refine KeepsO1.map ?_ (fun _ _ => ?_)
    | refine KeepsO1.map1 ?_ (fun _ _ => ?_)
    | refine KeepsO1.map0 (fun _ => ?_)
    | exact wf_writeCells _ _
    | exact wf_zeroCells _ _
    | exact wf_moveRange _ _ _ _
    | refine Keeps.foldl (fun _ _ _ => ?_) _ ?_
    | refine Keeps.foldl1 (fun _ _ _ => ?_) _ ?_
    | refine Keeps.fst (by assumption) ?_
    | refine Keeps.snd (by assumption) ?_
    | refine Keeps.get (by assumption) ?_
    | refine Keeps.get1 (by assumption) ?_
    | refine Keeps.get1' (by assumption) ?_
    | refine Keeps.ok (by assumption) ?_
    | refine Keeps.ok1 (by assumption) ?_
    | split

theorem retireOne_keeps {a0 : State} (s : State) (o : LiveOp) (h0 : Keeps a0 s) : Keeps a0 (retireOne s o) := by
  unfold retireOne
  try dsimp only
  with_reducible repeat' first
    | assumption
    | rfl
    | apply KeepsO.some
    | exact KeepsO.none
    | apply KeepsO1.some
    | apply KeepsO1.some'
    | exact KeepsO1.none
    | apply KeepsE.ok
    | exact KeepsE.error
    | apply KeepsE1.ok
    | exact KeepsE1.error
    | apply setSliceSt_keeps
    | apply emptySram_keeps
    | apply endOp_keeps
    | apply copyRange_keeps
    | apply modSlice_keeps
    | apply modLife_keeps
    | refine Keeps.fst (by assumption) ?_
    | refine Keeps.snd (by assumption) ?_
    | refine Keeps.get (by assumption) ?_
    | refine Keeps.get1 (by assumption) ?_
    | refine Keeps.get1' (by assumption) ?_
    | refine Keeps.ok (by assumption) ?_
    | refine Keeps.ok1 (by assumption) ?_
    | split

theorem wipeDie_keeps {a0 : State} (s : State) (d : Nat) (h0 : Keeps a0 s) : Keeps a0 (wipeDie s d) := by
  unfold wipeDie
  try dsimp only
  with_reducible repeat' first
    | assumption
    | rfl
    | apply scrub_keeps
    | split

theorem applyFault_keeps {a0 : State} (s : State) (d : Nat) (f : Nat × Nat × Nat) (h0 : Keeps a0 s) : Keeps a0 (applyFault s d f) := by
  unfold applyFault
  try dsimp only
  with_reducible repeat' first
    | assumption
    | rfl
    | apply kgmAdd_keeps
    | apply setSliceSt_keeps
    | apply setHubSt_keeps
    | apply retireBank_keeps
    | apply repairColumn_keeps
    | apply modMem_keeps
    | apply modDie_keeps
    | apply fresh_keeps
    | apply journal_keeps
    | apply modChive_keeps
    | apply modLife_keeps
    | split

theorem endTest_keeps {a0 : State} (s : State) (d : Nat) (when_ : Nat) (banks : Nat) (faults : List (Nat × Nat × Nat)) (h0 : Keeps a0 s) : Keeps a0 (endTest s d when_ banks faults) := by
  unfold endTest
  try dsimp only
  with_reducible repeat' first
    | assumption
    | rfl
    | apply applyFault_keeps
    | apply modDie_keeps
    | apply journal_keeps
    | apply healthEvent_keeps
    | refine Keeps.foldl (fun _ _ _ => ?_) _ ?_
    | refine Keeps.foldl1 (fun _ _ _ => ?_) _ ?_
    | split

theorem testDie_keeps {a0 : State} (when_ : Nat) (links : Bool) (s : State) (d : Nat) (h0 : Keeps a0 s) : Keeps a0 (testDie when_ links s d) := by
  unfold testDie
  try dsimp only
  with_reducible repeat' first
    | assumption
    | rfl
    | apply testNo_keeps
    | apply wipeDie_keeps
    | apply endTest_keeps
    | refine Keeps.fst (by assumption) ?_
    | refine Keeps.snd (by assumption) ?_
    | refine Keeps.get (by assumption) ?_
    | refine Keeps.get1 (by assumption) ?_
    | refine Keeps.get1' (by assumption) ?_
    | refine Keeps.ok (by assumption) ?_
    | refine Keeps.ok1 (by assumption) ?_
    | split

theorem selfTest_keeps {a0 : State} (s : State) (when_ : Nat) (h0 : Keeps a0 s) : Keeps a0 (selfTest s when_) := by
  unfold selfTest
  try dsimp only
  with_reducible repeat' first
    | assumption
    | rfl
    | apply testDie_keeps
    | refine Keeps.foldl (fun _ _ _ => ?_) _ ?_
    | refine Keeps.foldl1 (fun _ _ _ => ?_) _ ?_
    | split

theorem freeDie_keeps {a0 : State} (s : State) (d : Nat) (h0 : Keeps a0 s) : Keeps a0 (freeDie s d) := by
  unfold freeDie
  try dsimp only
  with_reducible repeat' first
    | assumption
    | rfl
    | apply modMem_keeps
    | refine KeepsO.map ?_ (fun _ _ => ?_)
    | refine KeepsO.map1 ?_ (fun _ _ => ?_)
    | refine KeepsO.map0 (fun _ => ?_)
    | refine KeepsO1.map ?_ (fun _ _ => ?_)
    | refine KeepsO1.map1 ?_ (fun _ _ => ?_)
    | refine KeepsO1.map0 (fun _ => ?_)
    | split

theorem isolateTest_keeps {a0 : State} (s : State) (d : Nat) (h0 : Keeps a0 s) : Keeps a0 (isolateTest s d) := by
  unfold isolateTest
  try dsimp only
  with_reducible repeat' first
    | assumption
    | rfl
    | apply freeDie_keeps
    | apply wipeDie_keeps
    | apply testDie_keeps
    | apply writeKgm_keeps
    | split

theorem returnUnit_keeps {a0 : State} (s : State) (u : Unit_) (h0 : Keeps a0 s) : Keeps a0 (returnUnit s u) := by
  unfold returnUnit
  try dsimp only
  with_reducible repeat' first
    | assumption
    | rfl
    | apply execUnitReturn_keeps
    | refine Keeps.fst (by assumption) ?_
    | refine Keeps.snd (by assumption) ?_
    | refine Keeps.get (by assumption) ?_
    | refine Keeps.get1 (by assumption) ?_
    | refine Keeps.get1' (by assumption) ?_
    | refine KeepsN.get (by assumption) ?_
    | refine Keeps.ok (by assumption) ?_
    | refine Keeps.ok1 (by assumption) ?_
    | split

theorem readmitOne_keeps {a0 : State} (s : State) (o : LiveOp) (h0 : Keeps a0 s) : Keeps a0 (readmitOne s o) := by
  unfold readmitOne
  try dsimp only
  with_reducible repeat' first
    | assumption
    | rfl
    | apply KeepsO.some
    | exact KeepsO.none
    | apply KeepsO1.some
    | apply KeepsO1.some'
    | exact KeepsO1.none
    | apply KeepsE.ok
    | exact KeepsE.error
    | apply KeepsE1.ok
    | exact KeepsE1.error
    | apply modLife_keeps
    | apply revokeScratch_keeps
    | apply isolateTest_keeps
    | apply setSliceSt_keeps
    | apply modSlice_keeps
    | apply endOpFree_keeps
    | apply returnUnit_keeps
    | apply copyRange_keeps
    | apply emptySram_keeps
    | apply endOp_keeps
    | refine Keeps.fst (by assumption) ?_
    | refine Keeps.snd (by assumption) ?_
    | refine Keeps.get (by assumption) ?_
    | refine Keeps.get1 (by assumption) ?_
    | refine Keeps.get1' (by assumption) ?_
    | refine Keeps.ok (by assumption) ?_
    | refine Keeps.ok1 (by assumption) ?_
    | split

theorem failoverOne_keeps {a0 : State} (s : State) (o : LiveOp) (h0 : Keeps a0 s) : Keeps a0 (failoverOne s o) := by
  unfold failoverOne
  try dsimp only
  with_reducible repeat' first
    | assumption
    | rfl
    | apply KeepsO.some
    | exact KeepsO.none
    | apply KeepsO1.some
    | apply KeepsO1.some'
    | exact KeepsO1.none
    | apply KeepsE.ok
    | exact KeepsE.error
    | apply KeepsE1.ok
    | exact KeepsE1.error
    | apply modLife_keeps
    | apply moveMsgs_keeps
    | apply moveConns_keeps
    | apply moveHome_keeps
    | apply setHubSt_keeps
    | apply movePorts_keeps
    | apply endOp_keeps
    | apply rehomeAll_keeps
    | apply enterHomes_keeps
    | apply clearHub_keeps
    | refine Keeps.fst (by assumption) ?_
    | refine Keeps.snd (by assumption) ?_
    | refine Keeps.get (by assumption) ?_
    | refine Keeps.get1 (by assumption) ?_
    | refine Keeps.get1' (by assumption) ?_
    | refine Keeps.ok (by assumption) ?_
    | refine Keeps.ok1 (by assumption) ?_
    | split

theorem takeHome_keeps {a0 : State} (s : State) (k : Nat) (h : Nat) (h0 : Keeps a0 s) : Keeps a0 (takeHome s k h) := by
  unfold takeHome
  try dsimp only
  with_reducible repeat' first
    | assumption
    | rfl
    | apply KeepsO.some
    | exact KeepsO.none
    | apply KeepsO1.some
    | apply KeepsO1.some'
    | exact KeepsO1.none
    | apply modSlice_keeps
    | apply moveHome_keeps
    | split

theorem reachAgain_keeps {a0 : State} (s : State) (h0 : Keeps a0 s) : Keeps a0 (reachAgain s) := by
  unfold reachAgain
  try dsimp only
  with_reducible repeat' first
    | assumption
    | rfl
    | apply KeepsO.some
    | exact KeepsO.none
    | apply KeepsO1.some
    | apply KeepsO1.some'
    | exact KeepsO1.none
    | refine KeepsO.foldl (fun _ _ _ => ?_) _ ?_
    | refine KeepsO1.foldl (fun _ _ _ => ?_) _ ?_
    | apply takeHome_keeps
    | refine Keeps.foldl (fun _ _ _ => ?_) _ ?_
    | refine Keeps.foldl1 (fun _ _ _ => ?_) _ ?_
    | refine Keeps.fst (by assumption) ?_
    | refine Keeps.snd (by assumption) ?_
    | refine Keeps.get (by assumption) ?_
    | refine Keeps.get1 (by assumption) ?_
    | refine Keeps.get1' (by assumption) ?_
    | refine Keeps.ok (by assumption) ?_
    | refine Keeps.ok1 (by assumption) ?_
    | split

theorem portsBack_keeps {a0 : State} (s : State) (q : Nat) (h0 : Keeps a0 s) : Keeps a0 (portsBack s q) := by
  unfold portsBack
  try dsimp only
  with_reducible repeat' first
    | assumption
    | rfl
    | apply trainPort_keeps
    | refine KeepsO.getD ?_ ?_
    | refine KeepsO1.getD ?_ ?_
    | split

theorem failbackOne_keeps {a0 : State} (s : State) (o : LiveOp) (h0 : Keeps a0 s) : Keeps a0 (failbackOne s o) := by
  unfold failbackOne
  try dsimp only
  with_reducible repeat' first
    | assumption
    | rfl
    | apply KeepsO.some
    | exact KeepsO.none
    | apply KeepsO1.some
    | apply KeepsO1.some'
    | exact KeepsO1.none
    | apply KeepsE.ok
    | exact KeepsE.error
    | apply KeepsE1.ok
    | exact KeepsE1.error
    | refine KeepsO.foldl (fun _ _ _ => ?_) _ ?_
    | refine KeepsO1.foldl (fun _ _ _ => ?_) _ ?_
    | refine KeepsE.foldl (fun _ _ _ => ?_) _ ?_
    | refine KeepsE1.foldl (fun _ _ _ => ?_) _ ?_
    | apply modLife_keeps
    | apply returnUnit_keeps
    | apply setHubSt_keeps
    | apply delete_keeps
    | apply enterRows_keeps
    | apply restampDir_keeps
    | apply portsBack_keeps
    | apply busMoves_keeps
    | apply takeHome_keeps
    | apply endOp_keeps
    | apply reachAgain_keeps
    | refine Keeps.foldl (fun _ _ _ => ?_) _ ?_
    | refine Keeps.foldl1 (fun _ _ _ => ?_) _ ?_
    | refine Keeps.fst (by assumption) ?_
    | refine Keeps.snd (by assumption) ?_
    | refine Keeps.get (by assumption) ?_
    | refine Keeps.get1 (by assumption) ?_
    | refine Keeps.get1' (by assumption) ?_
    | refine Keeps.ok (by assumption) ?_
    | refine Keeps.ok1 (by assumption) ?_
    | split

theorem isolateOne_keeps {a0 : State} (s : State) (o : LiveOp) (h0 : Keeps a0 s) : Keeps a0 (isolateOne s o) := by
  unfold isolateOne
  try dsimp only
  with_reducible repeat' first
    | assumption
    | rfl
    | apply KeepsE.ok
    | exact KeepsE.error
    | apply KeepsE1.ok
    | exact KeepsE1.error
    | apply revokeScratch_keeps
    | apply isolateTest_keeps
    | apply endOpFree_keeps
    | apply endOp_keeps
    | apply modSlice_keeps
    | apply setSliceSt_keeps
    | apply setHubSt_keeps
    | split

theorem portsDown_keeps {a0 : State} (s : State) (h0 : Keeps a0 s) : Keeps a0 (portsDown s) := by
  unfold portsDown
  try dsimp only
  with_reducible repeat' first
    | assumption
    | rfl
    | apply KeepsO.some
    | exact KeepsO.none
    | apply KeepsO1.some
    | apply KeepsO1.some'
    | exact KeepsO1.none
    | apply modFab_keeps
    | apply pcieDown_keeps
    | refine KeepsO.map ?_ (fun _ _ => ?_)
    | refine KeepsO.map1 ?_ (fun _ _ => ?_)
    | refine KeepsO.map0 (fun _ => ?_)
    | refine KeepsO1.map ?_ (fun _ _ => ?_)
    | refine KeepsO1.map1 ?_ (fun _ _ => ?_)
    | refine KeepsO1.map0 (fun _ => ?_)
    | split

theorem hardRepair_keeps {a0 : State} (s : State) (h0 : Keeps a0 s) : Keeps a0 (hardRepair s) := by
  unfold hardRepair
  try dsimp only
  with_reducible repeat' first
    | assumption
    | rfl
    | apply journal_keeps
    | apply modMem_keeps
    | apply modBank_keeps
    | refine Keeps.foldl (fun _ _ _ => ?_) _ ?_
    | refine Keeps.foldl1 (fun _ _ _ => ?_) _ ?_
    | split

theorem dropContents_keeps {a0 : State} (s : State) (h0 : Keeps a0 s) : Keeps a0 (dropContents s) := by
  exact h0.trans ⟨rfl, List.prefix_rfl, Nat.le_refl _, Nat.le_refl _, rfl, Nat.le_refl _, fun _ _ => Nat.le_refl _, fun _ => rfl⟩

theorem shutdownOne_keeps {a0 : State} (s : State) (o : LiveOp) (h0 : Keeps a0 s) : Keeps a0 (shutdownOne s o) := by
  unfold shutdownOne
  try dsimp only
  with_reducible repeat' first
    | assumption
    | rfl
    | apply KeepsO.some
    | exact KeepsO.none
    | apply KeepsO1.some
    | apply KeepsO1.some'
    | exact KeepsO1.none
    | apply KeepsE.ok
    | exact KeepsE.error
    | apply KeepsE1.ok
    | exact KeepsE1.error
    | apply modLife_keeps
    | apply modTrust_keeps
    | apply flushAll_keeps
    | apply histFlush_keeps
    | apply dropContents_keeps
    | apply hardRepair_keeps
    | apply selfTest_keeps
    | apply writeKgm_keeps
    | apply journal_keeps
    | apply endOp_keeps
    | apply portsDown_keeps
    | refine KeepsO.getD ?_ ?_
    | refine KeepsO1.getD ?_ ?_
    | split

theorem moveHub_keeps {a0 : State} (s : State) (p : Nat × Nat × Nat) (h0 : Keeps a0 s) : Keeps a0 (moveHub s p) := by
  unfold moveHub
  try dsimp only
  with_reducible repeat' first
    | assumption
    | rfl
    | apply KeepsO.some
    | exact KeepsO.none
    | apply KeepsO1.some
    | apply KeepsO1.some'
    | exact KeepsO1.none
    | apply modLife_keeps
    | apply startFailover_keeps
    | split

theorem nextOp_keeps {a0 : State} (s : State) (h0 : Keeps a0 s) : Keeps a0 (nextOp s) := by
  unfold nextOp
  try dsimp only
  with_reducible repeat' first
    | assumption
    | rfl
    | apply KeepsO.some
    | exact KeepsO.none
    | apply KeepsO1.some
    | apply KeepsO1.some'
    | exact KeepsO1.none
    | apply moveHub_keeps
    | apply nextRetrain_keeps
    | refine Keeps.fst (by assumption) ?_
    | refine Keeps.snd (by assumption) ?_
    | refine Keeps.get (by assumption) ?_
    | refine Keeps.get1 (by assumption) ?_
    | refine Keeps.get1' (by assumption) ?_
    | refine Keeps.ok (by assumption) ?_
    | refine Keeps.ok1 (by assumption) ?_
    | split

theorem liveStep_keeps {a0 : State} (s : State) (h0 : Keeps a0 s) : Keeps a0 (liveStep s) := by
  unfold liveStep
  try dsimp only
  with_reducible repeat' first
    | assumption
    | rfl
    | apply KeepsO.some
    | exact KeepsO.none
    | apply KeepsO1.some
    | apply KeepsO1.some'
    | exact KeepsO1.none
    | apply nextOp_keeps
    | apply retireOne_keeps
    | apply readmitOne_keeps
    | apply failoverOne_keeps
    | apply failbackOne_keeps
    | apply isolateOne_keeps
    | apply shutdownOne_keeps
    | apply opRecord_keeps
    | refine Keeps.fst (by assumption) ?_
    | refine Keeps.snd (by assumption) ?_
    | refine Keeps.get (by assumption) ?_
    | refine Keeps.get1 (by assumption) ?_
    | refine Keeps.get1' (by assumption) ?_
    | refine Keeps.ok (by assumption) ?_
    | refine Keeps.ok1 (by assumption) ?_
    | split

theorem drainStep_keeps {a0 : State} (s : State) (h0 : Keeps a0 s) : Keeps a0 (drainStep s) := by
  unfold drainStep
  try dsimp only
  with_reducible repeat' first
    | assumption
    | rfl
    | apply flushAll_keeps
    | split

theorem blockAuthority_keeps {a0 : State} (s : State) (h : Nat) (block : Nat) (h0 : Keeps a0 s) : Keeps a0 (blockAuthority s h block).1 := by
  unfold blockAuthority
  try dsimp only
  with_reducible repeat' first
    | assumption
    | rfl
    | apply KeepsO.some
    | exact KeepsO.none
    | apply KeepsO1.some
    | apply KeepsO1.some'
    | exact KeepsO1.none
    | apply readRows_keeps
    | refine Keeps.fst (by assumption) ?_
    | refine Keeps.snd (by assumption) ?_
    | refine Keeps.get (by assumption) ?_
    | refine Keeps.get1 (by assumption) ?_
    | refine Keeps.get1' (by assumption) ?_
    | refine Keeps.ok (by assumption) ?_
    | refine Keeps.ok1 (by assumption) ?_
    | split

theorem rebuildStep_keeps {a0 : State} (s : State) (h0 : Keeps a0 s) : Keeps a0 (rebuildStep s) := by
  unfold rebuildStep
  try dsimp only
  with_reducible repeat' first
    | assumption
    | rfl
    | apply blockAuthority_keeps
    | apply modChive_keeps
    | apply enterRows_keeps
    | refine Keeps.fst (by assumption) ?_
    | refine Keeps.snd (by assumption) ?_
    | refine Keeps.get (by assumption) ?_
    | refine Keeps.get1 (by assumption) ?_
    | refine Keeps.get1' (by assumption) ?_
    | refine Keeps.ok (by assumption) ?_
    | refine Keeps.ok1 (by assumption) ?_
    | split

theorem latchWin_keeps {a0 : State} (s : State) (p : Nat) (f : Nat) (w : Nat) (code : Nat) (h0 : Keeps a0 s) : Keeps a0 (latchWin s p f w code) := by
  unfold latchWin
  try dsimp only
  with_reducible repeat' first
    | assumption
    | rfl
    | apply rset_keeps
    | split

theorem readDone_keeps {a0 : State} (s : State) (p : Nat) (f : Nat) (poisoned : Bool) (data : Option (List Byte)) (h0 : Keeps a0 s) : Keeps a0 (readDone s p f poisoned data) := by
  unfold readDone
  try dsimp only
  with_reducible repeat' first
    | assumption
    | rfl
    | apply emit_keeps
    | split

theorem refuseTlp_keeps {a0 : State} (s : State) (t : WinTlp) (st : Status) (h0 : Keeps a0 s) : Keeps a0 (refuseTlp s t st) := by
  unfold refuseTlp
  try dsimp only
  with_reducible repeat' first
    | assumption
    | rfl
    | apply KeepsO.some
    | exact KeepsO.none
    | apply KeepsO1.some
    | apply KeepsO1.some'
    | exact KeepsO1.none
    | apply latchWin_keeps
    | apply countRefusal_keeps
    | apply bump_keeps
    | apply readDone_keeps
    | split

theorem serveTlp_keeps {a0 : State} (s : State) (t : WinTlp) (r : Region) (h0 : Keeps a0 s) : Keeps a0 (serveTlp s t r) := by
  unfold serveTlp
  try dsimp only
  with_reducible repeat' first
    | assumption
    | rfl
    | apply KeepsO.some
    | exact KeepsO.none
    | apply KeepsO1.some
    | apply KeepsO1.some'
    | exact KeepsO1.none
    | apply KeepsE.ok
    | exact KeepsE.error
    | apply KeepsE1.ok
    | exact KeepsE1.error
    | apply modMeter_keeps
    | apply writeRange_keeps
    | apply readRange_keeps
    | apply readDone_keeps
    | apply freshBytes_keeps
    | apply emit_keeps
    | apply bump_keeps
    | apply latchWin_keeps
    | refine Keeps.fst (by assumption) ?_
    | refine Keeps.snd (by assumption) ?_
    | refine Keeps.get (by assumption) ?_
    | refine Keeps.get1 (by assumption) ?_
    | refine Keeps.get1' (by assumption) ?_
    | refine Keeps.ok (by assumption) ?_
    | refine Keeps.ok1 (by assumption) ?_
    | split

theorem takeTlp_keeps {a0 : State} (s : State) (t : WinTlp) (r : Region) (h0 : Keeps a0 s) : Keeps a0 (takeTlp s t r) := by
  unfold takeTlp
  try dsimp only
  with_reducible repeat' first
    | assumption
    | rfl
    | apply modHost_keeps
    | apply modRegion_keeps
    | apply serveTlp_keeps
    | split

theorem winStep_keeps {a0 : State} (s : State) (h0 : Keeps a0 s) : Keeps a0 (winStep s) := by
  unfold winStep
  try dsimp only
  with_reducible repeat' first
    | assumption
    | rfl
    | apply KeepsO.some
    | exact KeepsO.none
    | apply KeepsO1.some
    | apply KeepsO1.some'
    | exact KeepsO1.none
    | apply leaveRegion_keeps
    | apply modHost_keeps
    | apply refuseTlp_keeps
    | apply serveTlp_keeps
    | refine Keeps.fst (by assumption) ?_
    | refine Keeps.snd (by assumption) ?_
    | refine Keeps.get (by assumption) ?_
    | refine Keeps.get1 (by assumption) ?_
    | refine Keeps.get1' (by assumption) ?_
    | refine Keeps.ok (by assumption) ?_
    | refine Keeps.ok1 (by assumption) ?_
    | split

theorem idle_keeps {a0 : State} (s : State) (h0 : Keeps a0 s) : Keeps a0 (idle s) := by
  unfold idle
  try dsimp only
  with_reducible repeat' first
    | assumption
    | rfl
    | apply engines_keeps
    | apply winStep_keeps
    | apply retryReads_keeps
    | apply drainStep_keeps
    | apply rebuildStep_keeps
    | apply liveStep_keeps
    | apply tickClocks_keeps
    | split

theorem execSliceFailure_keeps {a0 : State} (slice : Slice) (s : State) (h0 : Keeps a0 s) : KeepsN a0 (execSliceFailure slice s) := by
  unfold execSliceFailure
  try dsimp only
  with_reducible repeat' first
    | assumption
    | rfl
    | apply KeepsN.next
    | apply KeepsN.fault
    | apply KeepsO.some
    | exact KeepsO.none
    | apply KeepsO1.some
    | apply KeepsO1.some'
    | exact KeepsO1.none
    | apply dropSliceRecs_keeps
    | apply setSliceSt_keeps
    | apply nextRetrain_keeps
    | apply opRecord_keeps
    | apply endOp_keeps
    | apply endOpFree_keeps
    | refine Keeps.fst (by assumption) ?_
    | refine Keeps.snd (by assumption) ?_
    | refine Keeps.get (by assumption) ?_
    | refine Keeps.get1 (by assumption) ?_
    | refine Keeps.get1' (by assumption) ?_
    | refine KeepsN.get (by assumption) ?_
    | refine Keeps.ok (by assumption) ?_
    | refine Keeps.ok1 (by assumption) ?_
    | split

end Sys2Proof.Laws
end

