-- ==== Sys2Proof/Laws/KeepsSensors.lean ====
section
/-!
SUPPORT. The operations of Machine/Sensors.lean keep what Laws/Keeps.lean says.
-/
namespace Sys2Proof.Laws
open Sys2Proof.Machine

theorem thermalRec_keeps {a0 : State} (s : State) (k : Nat) (t : Int) (entry : Bool) (h0 : Keeps a0 s) : Keeps a0 (thermalRec s k t entry) := by
  unfold thermalRec
  try dsimp only
  with_reducible repeat' first
    | assumption
    | rfl
    | apply journal_keeps
    | split

theorem execStackTempSample_keeps {a0 : State} (slice : Slice) (temp : Int) (s : State) (h0 : Keeps a0 s) : KeepsN a0 (execStackTempSample slice temp s) := by
  unfold execStackTempSample
  try dsimp only
  with_reducible repeat' first
    | assumption
    | rfl
    | apply KeepsN.next
    | apply KeepsN.fault
    | apply modStack_keeps
    | apply tripDie_keeps
    | apply healthEvent_keeps
    | apply thermalRec_keeps
    | apply settleLevel_keeps
    | split

theorem execDieTempSample_keeps {a0 : State} (die : Die) (t0 : Int) (t1 : Int) (t2 : Int) (t3 : Int) (s : State) (h0 : Keeps a0 s) : KeepsN a0 (execDieTempSample die t0 t1 t2 t3 s) := by
  unfold execDieTempSample
  try dsimp only
  with_reducible repeat' first
    | assumption
    | rfl
    | apply KeepsN.next
    | apply KeepsN.fault
    | apply modDie_keeps
    | apply tripDie_keeps
    | apply settleLevel_keeps
    | split

theorem execPowerLevelUpdate_keeps {a0 : State} (watts : Nat) (s : State) (h0 : Keeps a0 s) : KeepsN a0 (execPowerLevelUpdate watts s) := by
  unfold execPowerLevelUpdate
  try dsimp only
  with_reducible repeat' first
    | assumption
    | rfl
    | apply KeepsN.next
    | apply KeepsN.fault
    | apply settleLevels_keeps
    | apply modMem_keeps
    | split

theorem execPatrolScrubRead_keeps {a0 : State} (die : Die) (s : State) (h0 : Keeps a0 s) : KeepsN a0 (execPatrolScrubRead die s) := by
  unfold execPatrolScrubRead
  try dsimp only
  with_reducible repeat' first
    | assumption
    | rfl
    | apply KeepsN.next
    | apply KeepsN.fault
    | apply KeepsO.some
    | exact KeepsO.none
    | apply KeepsO1.some
    | apply KeepsO1.some'
    | exact KeepsO1.none
    | apply loadWord_keeps
    | apply bump_keeps
    | apply modMem_keeps
    | refine KeepsO.getD ?_ ?_
    | refine KeepsO1.getD ?_ ?_
    | refine Keeps.fst (by assumption) ?_
    | refine Keeps.snd (by assumption) ?_
    | refine Keeps.get (by assumption) ?_
    | refine Keeps.get1 (by assumption) ?_
    | refine Keeps.get1' (by assumption) ?_
    | refine KeepsN.get (by assumption) ?_
    | refine Keeps.ok (by assumption) ?_
    | refine Keeps.ok1 (by assumption) ?_
    | split

theorem execSelfRefreshEntry_keeps {a0 : State} (slice : Slice) (pc : Nat) (s : State) (h0 : Keeps a0 s) : KeepsN a0 (execSelfRefreshEntry slice pc s) := by
  unfold execSelfRefreshEntry
  try dsimp only
  with_reducible repeat' first
    | assumption
    | rfl
    | apply KeepsN.next
    | apply KeepsN.fault
    | apply modStack_keeps
    | split

theorem execBankRetainIdle_keeps {a0 : State} (die : Die) (bank : Nat) (s : State) (h0 : Keeps a0 s) : KeepsN a0 (execBankRetainIdle die bank s) := by
  unfold execBankRetainIdle
  try dsimp only
  with_reducible repeat' first
    | assumption
    | rfl
    | apply KeepsN.next
    | apply KeepsN.fault
    | apply modBank_keeps
    | split

theorem bankOn_keeps {a0 : State} (s : State) (d : Nat) (b : Nat) (h0 : Keeps a0 s) : Keeps a0 (bankOn s d b) := by
  unfold bankOn
  try dsimp only
  with_reducible repeat' first
    | assumption
    | rfl
    | apply scrub_keeps
    | apply modBank_keeps
    | split

theorem bankOff_keeps {a0 : State} (s : State) (d : Nat) (b : Nat) (h0 : Keeps a0 s) : Keeps a0 (bankOff s d b) := by
  unfold bankOff
  try dsimp only
  with_reducible repeat' first
    | assumption
    | rfl
    | apply modBank_keeps
    | apply scrub_keeps
    | split

theorem bankRequest_keeps {a0 : State} (s : State) (d : Nat) (b : Nat) (req : Nat) (h0 : Keeps a0 s) : Keeps a0 (bankRequest s d b req) := by
  unfold bankRequest
  try dsimp only
  with_reducible repeat' first
    | assumption
    | rfl
    | apply modBank_keeps
    | apply bankOn_keeps
    | apply rset_keeps
    | apply bankOff_keeps
    | split

theorem bankWrite_keeps {a0 : State} (die : Die) (req : Nat) (s : State) (h0 : Keeps a0 s) : KeepsN a0 (bankWrite die req s) := by
  unfold bankWrite
  try dsimp only
  with_reducible repeat' first
    | assumption
    | rfl
    | apply KeepsN.next
    | apply KeepsN.fault
    | apply bankRequest_keeps
    | apply writeRefused_keeps
    | split

theorem execBankForceOn_keeps {a0 : State} (die : Die) (s : State) (h0 : Keeps a0 s) : KeepsN a0 (execBankForceOn die s) := by
  unfold execBankForceOn
  try dsimp only
  with_reducible repeat' first
    | assumption
    | rfl
    | apply KeepsN.next
    | apply KeepsN.fault
    | apply bankWrite_keeps
    | split

theorem execBankForceRetain_keeps {a0 : State} (die : Die) (s : State) (h0 : Keeps a0 s) : KeepsN a0 (execBankForceRetain die s) := by
  unfold execBankForceRetain
  try dsimp only
  with_reducible repeat' first
    | assumption
    | rfl
    | apply KeepsN.next
    | apply KeepsN.fault
    | apply bankWrite_keeps
    | split

theorem execBankForceOff_keeps {a0 : State} (die : Die) (s : State) (h0 : Keeps a0 s) : KeepsN a0 (execBankForceOff die s) := by
  unfold execBankForceOff
  try dsimp only
  with_reducible repeat' first
    | assumption
    | rfl
    | apply KeepsN.next
    | apply KeepsN.fault
    | apply bankWrite_keeps
    | split

theorem execBankAutomatic_keeps {a0 : State} (die : Die) (s : State) (h0 : Keeps a0 s) : KeepsN a0 (execBankAutomatic die s) := by
  unfold execBankAutomatic
  try dsimp only
  with_reducible repeat' first
    | assumption
    | rfl
    | apply KeepsN.next
    | apply KeepsN.fault
    | apply bankWrite_keeps
    | split

theorem testDone_keeps {a0 : State} (s : State) (d : Nat) (faults : Nat) (code : Nat) (h0 : Keeps a0 s) : Keeps a0 (testDone s d faults code) := by
  unfold testDone
  try dsimp only
  with_reducible repeat' first
    | assumption
    | rfl
    | apply bump_keeps
    | apply modDie_keeps
    | apply journal_keeps
    | apply healthEvent_keeps
    | split

theorem retireBlock_keeps {a0 : State} (s : State) (h : Nat) (block : Nat) (h0 : Keeps a0 s) : Keeps a0 (retireBlock s h block) := by
  unfold retireBlock
  try dsimp only
  with_reducible repeat' first
    | assumption
    | rfl
    | apply modChive_keeps
    | apply delete_keeps
    | apply insert_keeps
    | apply kgmAdd_keeps
    | refine KeepsO.map ?_ (fun _ _ => ?_)
    | refine KeepsO.map1 ?_ (fun _ _ => ?_)
    | refine KeepsO.map0 (fun _ => ?_)
    | refine KeepsO1.map ?_ (fun _ _ => ?_)
    | refine KeepsO1.map1 ?_ (fun _ _ => ?_)
    | refine KeepsO1.map0 (fun _ => ?_)
    | refine Keeps.foldl (fun _ _ _ => ?_) _ ?_
    | refine Keeps.foldl1 (fun _ _ _ => ?_) _ ?_
    | split

theorem reloadBank_keeps {a0 : State} (s : State) (h : Nat) (bank : Nat) (h0 : Keeps a0 s) : Keeps a0 (reloadBank s h bank) := by
  unfold reloadBank
  try dsimp only
  with_reducible repeat' first
    | assumption
    | rfl
    | apply modChive_keeps
    | split

theorem execBankTest_keeps {a0 : State} (die : Die) (bank : Nat) (cam : Bool) (faults : List Nat) (s : State) (h0 : Keeps a0 s) : KeepsN a0 (execBankTest die bank cam faults s) := by
  unfold execBankTest
  try dsimp only
  with_reducible repeat' first
    | assumption
    | rfl
    | apply KeepsN.next
    | apply KeepsN.fault
    | apply reloadBank_keeps
    | apply retireBlock_keeps
    | apply testDone_keeps
    | apply bump_keeps
    | apply repairColumn_keeps
    | refine KeepsO.map ?_ (fun _ _ => ?_)
    | refine KeepsO.map1 ?_ (fun _ _ => ?_)
    | refine KeepsO.map0 (fun _ => ?_)
    | refine KeepsO1.map ?_ (fun _ _ => ?_)
    | refine KeepsO1.map1 ?_ (fun _ _ => ?_)
    | refine KeepsO1.map0 (fun _ => ?_)
    | refine Keeps.foldl (fun _ _ _ => ?_) _ ?_
    | refine Keeps.foldl1 (fun _ _ _ => ?_) _ ?_
    | split

theorem execErrPop_keeps {a0 : State} (die : Die) (s : State) (h0 : Keeps a0 s) : KeepsN a0 (execErrPop die s) := by
  unfold execErrPop
  try dsimp only
  with_reducible repeat' first
    | assumption
    | rfl
    | apply KeepsN.next
    | apply KeepsN.fault
    | apply modMem_keeps
    | apply writeRefused_keeps
    | split

theorem modMargin_keeps {a0 : State} (s : State) (d : Nat) (u : Nat) (f : Margin → Margin) (h0 : Keeps a0 s) : Keeps a0 (modMargin s d u f) := by
  unfold modMargin
  try dsimp only
  with_reducible repeat' first
    | assumption
    | rfl
    | apply modHealth_keeps
    | split

theorem execMarginMeasure_keeps {a0 : State} (slice : Slice) (pc : Nat) (width : Nat) (height : Nat) (s : State) (h0 : Keeps a0 s) : KeepsN a0 (execMarginMeasure slice pc width height s) := by
  unfold execMarginMeasure
  try dsimp only
  with_reducible repeat' first
    | assumption
    | rfl
    | apply KeepsN.next
    | apply KeepsN.fault
    | apply modMargin_keeps
    | apply healthEvent_keeps
    | apply nextRetrain_keeps
    | apply modLife_keeps
    | split

theorem execSerdesMarginReport_keeps {a0 : State} (die : Die) (unit : Nat) (height : Nat) (s : State) (h0 : Keeps a0 s) : KeepsN a0 (execSerdesMarginReport die unit height s) := by
  unfold execSerdesMarginReport
  try dsimp only
  with_reducible repeat' first
    | assumption
    | rfl
    | apply KeepsN.next
    | apply KeepsN.fault
    | apply modMargin_keeps
    | apply healthEvent_keeps
    | split

theorem execCanaryMeasure_keeps {a0 : State} (die : Die) (index : Nat) (s : State) (h0 : Keeps a0 s) : KeepsN a0 (execCanaryMeasure die index s) := by
  unfold execCanaryMeasure
  try dsimp only
  with_reducible repeat' first
    | assumption
    | rfl
    | apply KeepsN.next
    | apply KeepsN.fault
    | apply modDie_keeps
    | apply healthEvent_keeps
    | split

theorem execDroopEvent_keeps {a0 : State} (die : Die) (mv : Nat) (s : State) (h0 : Keeps a0 s) : KeepsN a0 (execDroopEvent die mv s) := by
  unfold execDroopEvent
  try dsimp only
  with_reducible repeat' first
    | assumption
    | rfl
    | apply KeepsN.next
    | apply KeepsN.fault
    | apply modDie_keeps
    | apply healthEvent_keeps
    | split

theorem execHistogramSample_keeps {a0 : State} (die : Die) (temp : Int) (core : Nat) (input : Nat) (s : State) (h0 : Keeps a0 s) : KeepsN a0 (execHistogramSample die temp core input s) := by
  unfold execHistogramSample
  try dsimp only
  with_reducible repeat' first
    | assumption
    | rfl
    | apply KeepsN.next
    | apply KeepsN.fault
    | apply KeepsO.some
    | exact KeepsO.none
    | apply KeepsO1.some
    | apply KeepsO1.some'
    | exact KeepsO1.none
    | apply modDie_keeps
    | apply modHealth_keeps
    | split

theorem clearMin_keeps {a0 : State} (s : State) (h0 : Keeps a0 s) : Keeps a0 (clearMin s) := by
  unfold clearMin
  try dsimp only
  with_reducible repeat' first
    | assumption
    | rfl
    | apply modDie_keeps
    | apply modHealth_keeps
    | refine KeepsO.map ?_ (fun _ _ => ?_)
    | refine KeepsO.map1 ?_ (fun _ _ => ?_)
    | refine KeepsO.map0 (fun _ => ?_)
    | refine KeepsO1.map ?_ (fun _ _ => ?_)
    | refine KeepsO1.map1 ?_ (fun _ _ => ?_)
    | refine KeepsO1.map0 (fun _ => ?_)
    | split

theorem execClearMin_keeps {a0 : State} (s : State) (h0 : Keeps a0 s) : KeepsN a0 (execClearMin s) := by
  unfold execClearMin
  try dsimp only
  with_reducible repeat' first
    | assumption
    | rfl
    | apply KeepsN.next
    | apply KeepsN.fault
    | apply clearMin_keeps
    | apply writeRefused_keeps
    | split

theorem latchSummary_keeps {a0 : State} (s : State) (h0 : Keeps a0 s) : Keeps a0 (latchSummary s) := by
  unfold latchSummary
  try dsimp only
  with_reducible repeat' first
    | assumption
    | rfl
    | apply modHost_keeps
    | apply fresh_keeps
    | split

theorem latchMeter_keeps {a0 : State} (s : State) (coarse : Bool) (h0 : Keeps a0 s) : Keeps a0 (latchMeter s coarse) := by
  unfold latchMeter
  try dsimp only
  with_reducible repeat' first
    | assumption
    | rfl
    | apply modHost_keeps
    | split

theorem latchTime_keeps {a0 : State} (s : State) (h : Nat) (h0 : Keeps a0 s) : Keeps a0 (latchTime s h) := by
  unfold latchTime
  try dsimp only
  with_reducible repeat' first
    | assumption
    | rfl
    | apply modHost_keeps
    | split

theorem clearCensus_keeps {a0 : State} (s : State) (h : Nat) (i : Nat) (h0 : Keeps a0 s) : Keeps a0 (clearCensus s h i) := by
  unfold clearCensus
  try dsimp only
  with_reducible repeat' first
    | assumption
    | rfl
    | apply KeepsO.some
    | exact KeepsO.none
    | apply KeepsO1.some
    | apply KeepsO1.some'
    | exact KeepsO1.none
    | apply modFab_keeps
    | split

theorem execCensusEntryClear_keeps {a0 : State} (hub : Hub) (entry : Fin 16) (s : State) (h0 : Keeps a0 s) : KeepsN a0 (execCensusEntryClear hub entry s) := by
  unfold execCensusEntryClear
  try dsimp only
  with_reducible repeat' first
    | assumption
    | rfl
    | apply KeepsN.next
    | apply KeepsN.fault
    | apply clearCensus_keeps
    | apply writeRefused_keeps
    | split

end Sys2Proof.Laws
end

