-- ==== Sys2Proof/Laws/KeepsIndex.lean ====
section
/-!
SUPPORT. The operations of Machine/Index.lean keep what Laws/Keeps.lean says.
-/
namespace Sys2Proof.Laws
open Sys2Proof.Machine

theorem insertStatus_keeps {a0 : State} (r : State × Inserted) (h0 : Keeps a0 r.1) : Keeps a0 (insertStatus r) := by
  unfold insertStatus
  split <;> first | exact h0 | exact emit_keeps h0

theorem execChiveInsert_keeps {a0 : State} (hub : Hub) (row : ChiveRow) (s : State) (h0 : Keeps a0 s) : KeepsN a0 (execChiveInsert hub row s) := by
  unfold execChiveInsert
  try dsimp only
  with_reducible repeat' first
    | assumption
    | rfl
    | apply KeepsN.next
    | apply KeepsN.fault
    | apply insertStatus_keeps
    | apply insert_keeps
    | split

theorem execChiveDelete_keeps {a0 : State} (hub : Hub) (row : ChiveRow) (s : State) (h0 : Keeps a0 s) : KeepsN a0 (execChiveDelete hub row s) := by
  unfold execChiveDelete
  try dsimp only
  with_reducible repeat' first
    | assumption
    | rfl
    | apply KeepsN.next
    | apply KeepsN.fault
    | apply delete_keeps
    | split

theorem execChiveReplace_keeps {a0 : State} (hub : Hub) (row : ChiveRow) (s : State) (h0 : Keeps a0 s) : KeepsN a0 (execChiveReplace hub row s) := by
  unfold execChiveReplace
  try dsimp only
  with_reducible repeat' first
    | assumption
    | rfl
    | apply KeepsN.next
    | apply KeepsN.fault
    | apply replace_keeps
    | split

theorem returnKey_keeps {a0 : State} (s : State) (h : Nat) (cls : Nat) (key : Nat) (h0 : Keeps a0 s) : Keeps a0 (returnKey s h cls key) := by
  unfold returnKey
  try dsimp only
  with_reducible repeat' first
    | assumption
    | rfl
    | apply insertBlock_keeps
    | apply settleFlag_keeps
    | apply setOt_keeps
    | refine Keeps.foldl (fun _ _ _ => ?_) _ ?_
    | refine Keeps.foldl1 (fun _ _ _ => ?_) _ ?_
    | split

theorem execOverflowReturn_keeps {a0 : State} (hub : Hub) (cls : Nat) (key : Nat) (s : State) (h0 : Keeps a0 s) : KeepsN a0 (execOverflowReturn hub cls key s) := by
  unfold execOverflowReturn
  try dsimp only
  with_reducible repeat' first
    | assumption
    | rfl
    | apply KeepsN.next
    | apply KeepsN.fault
    | apply returnKey_keeps
    | split

theorem camScrubOne_keeps {a0 : State} (s : State) (h : Nat) (h0 : Keeps a0 s) : Keeps a0 (camScrubOne s h) := by
  unfold camScrubOne
  try dsimp only
  with_reducible repeat' first
    | assumption
    | rfl
    | apply KeepsO.some
    | exact KeepsO.none
    | apply KeepsO1.some
    | apply KeepsO1.some'
    | exact KeepsO1.none
    | apply modChive_keeps
    | apply scrub_keeps
    | apply modDie_keeps
    | apply chiveBump_keeps
    | refine KeepsO.getD ?_ ?_
    | refine KeepsO1.getD ?_ ?_
    | refine Keeps.fst (by assumption) ?_
    | refine Keeps.snd (by assumption) ?_
    | refine Keeps.get (by assumption) ?_
    | refine Keeps.get1 (by assumption) ?_
    | refine Keeps.get1' (by assumption) ?_
    | refine Keeps.ok (by assumption) ?_
    | refine Keeps.ok1 (by assumption) ?_
    | split

theorem execCamScrub_keeps {a0 : State} (hub : Hub) (s : State) (h0 : Keeps a0 s) : KeepsN a0 (execCamScrub hub s) := by
  unfold execCamScrub
  try dsimp only
  with_reducible repeat' first
    | assumption
    | rfl
    | apply KeepsN.next
    | apply KeepsN.fault
    | apply camScrubOne_keeps
    | split

theorem markRebuild_keeps {a0 : State} (s : State) (h : Nat) (block : Nat) (h0 : Keeps a0 s) : Keeps a0 (markRebuild s h block) := by
  unfold markRebuild
  try dsimp only
  with_reducible repeat' first
    | assumption
    | rfl
    | apply KeepsO.some
    | exact KeepsO.none
    | apply KeepsO1.some
    | apply KeepsO1.some'
    | exact KeepsO1.none
    | apply fresh_keeps
    | apply badWord_keeps
    | apply rowWrite_keeps
    | apply chiveBump_keeps
    | apply modChive_keeps
    | refine Keeps.fst (by assumption) ?_
    | refine Keeps.snd (by assumption) ?_
    | refine Keeps.get (by assumption) ?_
    | refine Keeps.get1 (by assumption) ?_
    | refine Keeps.get1' (by assumption) ?_
    | refine Keeps.ok (by assumption) ?_
    | refine Keeps.ok1 (by assumption) ?_
    | split

theorem execBlockRebuild_keeps {a0 : State} (hub : Hub) (block : Nat) (s : State) (h0 : Keeps a0 s) : KeepsN a0 (execBlockRebuild hub block s) := by
  unfold execBlockRebuild
  try dsimp only
  with_reducible repeat' first
    | assumption
    | rfl
    | apply KeepsN.next
    | apply KeepsN.fault
    | apply markRebuild_keeps
    | split

theorem rootScan_keeps {a0 : State} (s : State) (h : Nat) (h0 : Keeps a0 s) : Keeps a0 (rootScan s h) := by
  unfold rootScan
  try dsimp only
  with_reducible repeat' first
    | assumption
    | rfl
    | apply KeepsO.some
    | exact KeepsO.none
    | apply KeepsO1.some
    | apply KeepsO1.some'
    | exact KeepsO1.none
    | apply modChive_keeps
    | apply loadHdr_keeps
    | apply insert_keeps
    | refine KeepsO.getD ?_ ?_
    | refine KeepsO1.getD ?_ ?_
    | refine Keeps.fst (by assumption) ?_
    | refine Keeps.snd (by assumption) ?_
    | refine Keeps.get (by assumption) ?_
    | refine Keeps.get1 (by assumption) ?_
    | refine Keeps.get1' (by assumption) ?_
    | refine Keeps.ok (by assumption) ?_
    | refine Keeps.ok1 (by assumption) ?_
    | split

theorem execPrefixRootScan_keeps {a0 : State} (hub : Hub) (s : State) (h0 : Keeps a0 s) : KeepsN a0 (execPrefixRootScan hub s) := by
  unfold execPrefixRootScan
  try dsimp only
  with_reducible repeat' first
    | assumption
    | rfl
    | apply KeepsN.next
    | apply KeepsN.fault
    | apply rootScan_keeps
    | split

end Sys2Proof.Laws
end

