-- ==== Sys2Proof/Laws/KeepsHostPort.lean ====
section
/-!
SUPPORT. The operations of Machine/HostPort.lean keep what Laws/Keeps.lean says.
-/
namespace Sys2Proof.Laws
open Sys2Proof.Machine

theorem untaken_keeps {a0 : State} (s : State) (p : Nat) (f : Nat) (h0 : Keeps a0 s) : Keeps a0 (untaken s p f) := by
  unfold untaken
  try dsimp only
  with_reducible repeat' first
    | assumption
    | rfl
    | apply emit_keeps
    | split

theorem execCommandBodyWrite_keeps {a0 : State} (port : Port) (fn : Fn) (slot : Slot64) (offset : Nat) (data : List Byte) (ide : Option Nat) (s : State) (h0 : Keeps a0 s) : KeepsN a0 (execCommandBodyWrite port fn slot offset data s ide) := by
  unfold execCommandBodyWrite
  try dsimp only
  with_reducible repeat' first
    | assumption
    | rfl
    | apply KeepsN.next
    | apply KeepsN.fault
    | apply untaken_keeps
    | apply bump_keeps
    | apply modSlot_keeps
    | refine Keeps.foldl (fun _ _ _ => ?_) _ ?_
    | refine Keeps.foldl1 (fun _ _ _ => ?_) _ ?_
    | split

theorem endCmd_keeps {a0 : State} (s : State) (id : Nat) (st : Status) (hint : Nat) (h0 : Keeps a0 s) : Keeps a0 (endCmd s id st hint) := by
  unfold endCmd
  try dsimp only
  with_reducible repeat' first
    | assumption
    | rfl
    | apply KeepsO.some
    | exact KeepsO.none
    | apply KeepsO1.some
    | apply KeepsO1.some'
    | exact KeepsO1.none
    | apply completePcie_keeps
    | refine Keeps.fst (by assumption) ?_
    | refine Keeps.snd (by assumption) ?_
    | refine Keeps.get (by assumption) ?_
    | refine Keeps.get1 (by assumption) ?_
    | refine Keeps.get1' (by assumption) ?_
    | refine Keeps.ok (by assumption) ?_
    | refine Keeps.ok1 (by assumption) ?_
    | split

theorem payloadIn_keeps {a0 : State} (s : State) (id : Nat) (m : Msg) (h0 : Keeps a0 s) : Keeps a0 (payloadIn s id m) := by
  unfold payloadIn
  try dsimp only
  with_reducible repeat' first
    | assumption
    | rfl
    | apply modMeter_keeps
    | apply endCmd_keeps
    | apply runNine_keeps
    | split

theorem queueCmd_keeps {a0 : State} (s : State) (id : Nat) (m : Msg) (h0 : Keeps a0 s) : Keeps a0 (queueCmd s id m) := by
  unfold queueCmd
  try dsimp only
  with_reducible repeat' first
    | assumption
    | rfl
    | apply setMsgs_keeps
    | apply setMsgs_keeps
    | split

theorem cmdFive_keeps {a0 : State} (s : State) (id : Nat) (c : CmdRec) (m : Msg) (p : Nat) (f : Nat) (h0 : Keeps a0 s) : Keeps a0 (cmdFive s id c m p f) := by
  unfold cmdFive
  try dsimp only
  with_reducible repeat' first
    | assumption
    | rfl
    | apply endCmd_keeps
    | apply queueCmd_keeps
    | apply orderEight_keeps
    | apply payloadIn_keeps
    | apply emit_keeps
    | apply setPhase_keeps
    | refine Keeps.fst (by assumption) ?_
    | refine Keeps.snd (by assumption) ?_
    | refine Keeps.get (by assumption) ?_
    | refine Keeps.get1 (by assumption) ?_
    | refine Keeps.get1' (by assumption) ?_
    | refine Keeps.ok (by assumption) ?_
    | refine Keeps.ok1 (by assumption) ?_
    | split

theorem acceptCmd_keeps {a0 : State} (s : State) (p : Nat) (f : Nat) (slot : Nat) (c : CmdRec) (h0 : Keeps a0 s) : Keeps a0 (acceptCmd s p f slot c) := by
  unfold acceptCmd
  try dsimp only
  with_reducible repeat' first
    | assumption
    | rfl
    | apply KeepsO.some
    | exact KeepsO.none
    | apply KeepsO1.some
    | apply KeepsO1.some'
    | exact KeepsO1.none
    | apply modSlot_keeps
    | apply bump_keeps
    | apply newId_keeps
    | apply endCmd_keeps
    | apply queueCmd_keeps
    | apply cmdFive_keeps
    | refine KeepsO.getD ?_ ?_
    | refine KeepsO1.getD ?_ ?_
    | refine Keeps.fst (by assumption) ?_
    | refine Keeps.snd (by assumption) ?_
    | refine Keeps.get (by assumption) ?_
    | refine Keeps.get1 (by assumption) ?_
    | refine Keeps.get1' (by assumption) ?_
    | refine Keeps.ok (by assumption) ?_
    | refine Keeps.ok1 (by assumption) ?_
    | split

theorem finalTo_keeps {a0 : State} (s : State) (p : Nat) (f : Nat) (slot : Nat) (value : BitVec 64) (h0 : Keeps a0 s) : Keeps a0 (finalTo s p f slot value) := by
  unfold finalTo
  try dsimp only
  with_reducible repeat' first
    | assumption
    | rfl
    | apply acceptCmd_keeps
    | apply bump_keeps
    | apply writeCompletion_keeps
    | split

theorem execFinalWrite_keeps {a0 : State} (port : Port) (fn : Fn) (slot : Slot64) (value : BitVec 64) (ide : Option Nat) (s : State) (h0 : Keeps a0 s) : KeepsN a0 (execFinalWrite port fn slot value s ide) := by
  unfold execFinalWrite
  try dsimp only
  with_reducible repeat' first
    | assumption
    | rfl
    | apply KeepsN.next
    | apply KeepsN.fault
    | apply untaken_keeps
    | apply bump_keeps
    | apply finalTo_keeps
    | split

theorem execPayloadReadComplete_keeps {a0 : State} (msg : Nat) (r : DmaResult) (s : State) (h0 : Keeps a0 s) : KeepsN a0 (execPayloadReadComplete msg r s) := by
  unfold execPayloadReadComplete
  try dsimp only
  with_reducible repeat' first
    | assumption
    | rfl
    | apply KeepsN.next
    | apply KeepsN.fault
    | apply KeepsO.some
    | exact KeepsO.none
    | apply KeepsO1.some
    | apply KeepsO1.some'
    | exact KeepsO1.none
    | apply endCmd_keeps
    | apply payloadIn_keeps
    | apply modMsg_keeps
    | refine Keeps.fst (by assumption) ?_
    | refine Keeps.snd (by assumption) ?_
    | refine Keeps.get (by assumption) ?_
    | refine Keeps.get1 (by assumption) ?_
    | refine Keeps.get1' (by assumption) ?_
    | refine KeepsN.get (by assumption) ?_
    | refine Keeps.ok (by assumption) ?_
    | refine Keeps.ok1 (by assumption) ?_
    | split

theorem execCoalesceExpiry_keeps {a0 : State} (port : Port) (fn : Fn) (ring : Fin 16) (s : State) (h0 : Keeps a0 s) : KeepsN a0 (execCoalesceExpiry port fn ring s) := by
  unfold execCoalesceExpiry
  try dsimp only
  with_reducible repeat' first
    | assumption
    | rfl
    | apply KeepsN.next
    | apply KeepsN.fault
    | apply raiseRing_keeps
    | apply passTo_keeps
    | refine KeepsO.getD ?_ ?_
    | refine KeepsO1.getD ?_ ?_
    | split

theorem enableRing_keeps {a0 : State} (s : State) (p : Nat) (f : Nat) (r : Nat) (h0 : Keeps a0 s) : Keeps a0 (enableRing s p f r) := by
  unfold enableRing
  try dsimp only
  with_reducible repeat' first
    | assumption
    | rfl
    | apply KeepsO.some
    | exact KeepsO.none
    | apply KeepsO1.some
    | apply KeepsO1.some'
    | exact KeepsO1.none
    | apply rset_keeps
    | apply modHost_keeps
    | split

theorem execRingEnable_keeps {a0 : State} (port : Port) (fn : Fn) (ring : Fin 16) (ide : Option Nat) (s : State) (h0 : Keeps a0 s) : KeepsN a0 (execRingEnable port fn ring s ide) := by
  unfold execRingEnable
  try dsimp only
  with_reducible repeat' first
    | assumption
    | rfl
    | apply KeepsN.next
    | apply KeepsN.fault
    | apply enableRing_keeps
    | apply untaken_keeps
    | split

theorem winCheck_keeps {a0 : State} (s : State) (p : Nat) (f : Nat) (write : Bool) (a : AccHdr) (h0 : Keeps a0 s) : Keeps a0 (winCheck s p f write a).1 := by
  unfold winCheck
  try dsimp only
  with_reducible repeat' first
    | assumption
    | rfl
    | apply KeepsO.some
    | exact KeepsO.none
    | apply KeepsO1.some
    | apply KeepsO1.some'
    | exact KeepsO1.none
    | apply KeepsE.ok
    | exact KeepsE.error
    | apply KeepsE1.ok
    | exact KeepsE1.error
    | apply rangeCheck_keeps
    | refine Keeps.fst (by assumption) ?_
    | refine Keeps.snd (by assumption) ?_
    | refine Keeps.get (by assumption) ?_
    | refine Keeps.get1 (by assumption) ?_
    | refine Keeps.get1' (by assumption) ?_
    | refine Keeps.ok (by assumption) ?_
    | refine Keeps.ok1 (by assumption) ?_
    | split

theorem disabledWin_keeps {a0 : State} (s : State) (p : Nat) (f : Nat) (w : Nat) (h0 : Keeps a0 s) : Keeps a0 (disabledWin s p f w) := by
  unfold disabledWin
  try dsimp only
  with_reducible repeat' first
    | assumption
    | rfl
    | apply latchWin_keeps
    | apply freeRefusal_keeps
    | split

theorem execDirectWindowRead_keeps {a0 : State} (port : Port) (fn : Fn) (window : Fin 16) (offset : Nat) (length : Nat) (ide : Option Nat) (s : State) (h0 : Keeps a0 s) : KeepsN a0 (execDirectWindowRead port fn window offset length ide s) := by
  unfold execDirectWindowRead
  try dsimp only
  with_reducible repeat' first
    | assumption
    | rfl
    | apply KeepsN.next
    | apply KeepsN.fault
    | apply KeepsO.some
    | exact KeepsO.none
    | apply KeepsO1.some
    | apply KeepsO1.some'
    | exact KeepsO1.none
    | apply KeepsE.ok
    | exact KeepsE.error
    | apply KeepsE1.ok
    | exact KeepsE1.error
    | apply emit_keeps
    | apply disabledWin_keeps
    | apply winCheck_keeps
    | apply refuseTlp_keeps
    | apply takeTlp_keeps
    | refine Keeps.fst (by assumption) ?_
    | refine Keeps.snd (by assumption) ?_
    | refine Keeps.get (by assumption) ?_
    | refine Keeps.get1 (by assumption) ?_
    | refine Keeps.get1' (by assumption) ?_
    | refine KeepsN.get (by assumption) ?_
    | refine Keeps.ok (by assumption) ?_
    | refine Keeps.ok1 (by assumption) ?_
    | split

theorem execDirectWindowWrite_keeps {a0 : State} (port : Port) (fn : Fn) (window : Fin 16) (offset : Nat) (data : List Byte) (ide : Option Nat) (s : State) (h0 : Keeps a0 s) : KeepsN a0 (execDirectWindowWrite port fn window offset data ide s) := by
  unfold execDirectWindowWrite
  try dsimp only
  with_reducible repeat' first
    | assumption
    | rfl
    | apply KeepsN.next
    | apply KeepsN.fault
    | apply KeepsO.some
    | exact KeepsO.none
    | apply KeepsO1.some
    | apply KeepsO1.some'
    | exact KeepsO1.none
    | apply KeepsE.ok
    | exact KeepsE.error
    | apply KeepsE1.ok
    | exact KeepsE1.error
    | apply bump_keeps
    | apply emit_keeps
    | apply disabledWin_keeps
    | apply winCheck_keeps
    | apply refuseTlp_keeps
    | apply takeTlp_keeps
    | refine Keeps.fst (by assumption) ?_
    | refine Keeps.snd (by assumption) ?_
    | refine Keeps.get (by assumption) ?_
    | refine Keeps.get1 (by assumption) ?_
    | refine Keeps.get1' (by assumption) ?_
    | refine KeepsN.get (by assumption) ?_
    | refine Keeps.ok (by assumption) ?_
    | refine Keeps.ok1 (by assumption) ?_
    | split

theorem resetFn_keeps {a0 : State} (s : State) (p : Nat) (f : Nat) (h0 : Keeps a0 s) : Keeps a0 (resetFn s p f) := by
  unfold resetFn
  try dsimp only
  with_reducible repeat' first
    | assumption
    | rfl
    | apply modHost_keeps
    | apply rset_keeps
    | refine Keeps.foldl (fun _ _ _ => ?_) _ ?_
    | refine Keeps.foldl1 (fun _ _ _ => ?_) _ ?_
    | split

theorem execFunctionLevelReset_keeps {a0 : State} (port : Port) (fn : Fn) (s : State) (h0 : Keeps a0 s) : KeepsN a0 (execFunctionLevelReset port fn s) := by
  unfold execFunctionLevelReset
  try dsimp only
  with_reducible repeat' first
    | assumption
    | rfl
    | apply KeepsN.next
    | apply KeepsN.fault
    | apply resetFn_keeps
    | split

theorem execPcieLinkDown_keeps {a0 : State} (port : Port) (s : State) (h0 : Keeps a0 s) : KeepsN a0 (execPcieLinkDown port s) := by
  unfold execPcieLinkDown
  try dsimp only
  with_reducible repeat' first
    | assumption
    | rfl
    | apply KeepsN.next
    | apply KeepsN.fault
    | apply pcieDown_keeps
    | split

theorem portRelease_keeps {a0 : State} (s : State) (p : Nat) (h0 : Keeps a0 s) : Keeps a0 (portRelease s p) := by
  unfold portRelease
  try dsimp only
  with_reducible repeat' first
    | assumption
    | rfl
    | apply resetFn_keeps
    | apply modHost_keeps
    | apply modPower_keeps
    | apply trainPort_keeps
    | refine Keeps.foldl (fun _ _ _ => ?_) _ ?_
    | refine Keeps.foldl1 (fun _ _ _ => ?_) _ ?_
    | split

theorem execPerstRelease_keeps {a0 : State} (port : Port) (s : State) (h0 : Keeps a0 s) : KeepsN a0 (execPerstRelease port s) := by
  unfold execPerstRelease
  try dsimp only
  with_reducible repeat' first
    | assumption
    | rfl
    | apply KeepsN.next
    | apply KeepsN.fault
    | apply portRelease_keeps
    | split

end Sys2Proof.Laws
end

