-- ==== Sys2Proof/Laws/KeepsRegisters.lean ====
section
/-!
SUPPORT. The operations of Machine/Registers.lean keep what Laws/Keeps.lean says.
-/
namespace Sys2Proof.Laws
open Sys2Proof.Machine

theorem latchRead_keeps {a0 : State} (s : State) (b : Blk) (inst : Nat) (off : Nat) (coarse : Bool) (h0 : Keeps a0 s) : Keeps a0 (latchRead s b inst off coarse) := by
  unfold latchRead
  try dsimp only
  with_reducible repeat' first
    | assumption
    | rfl
    | apply latchTime_keeps
    | apply latchSummary_keeps
    | apply latchMeter_keeps
    | split

theorem readReg_keeps {a0 : State} (s : State) (p : Nat) (off : Nat) (h0 : Keeps a0 s) : Keeps a0 (readReg s p off).1 := by
  unfold readReg
  try dsimp only
  with_reducible repeat' first
    | assumption
    | rfl
    | apply KeepsO.some
    | exact KeepsO.none
    | apply KeepsO1.some
    | apply KeepsO1.some'
    | exact KeepsO1.none
    | apply latchRead_keeps
    | refine KeepsO.getD ?_ ?_
    | refine KeepsO1.getD ?_ ?_
    | refine KeepsO.map ?_ (fun _ _ => ?_)
    | refine KeepsO.map1 ?_ (fun _ _ => ?_)
    | refine KeepsO.map0 (fun _ => ?_)
    | refine KeepsO1.map ?_ (fun _ _ => ?_)
    | refine KeepsO1.map1 ?_ (fun _ _ => ?_)
    | refine KeepsO1.map0 (fun _ => ?_)
    | refine Keeps.fst (by assumption) ?_
    | refine Keeps.snd (by assumption) ?_
    | refine Keeps.get (by assumption) ?_
    | refine Keeps.get1 (by assumption) ?_
    | refine Keeps.get1' (by assumption) ?_
    | refine Keeps.ok (by assumption) ?_
    | refine Keeps.ok1 (by assumption) ?_
    | split

theorem maxSpeed_keeps {a0 : State} (s : State) (p : Nat) (v : Nat) (h0 : Keeps a0 s) : Keeps a0 (maxSpeed s p v) := by
  unfold maxSpeed
  try dsimp only
  with_reducible repeat' first
    | assumption
    | rfl
    | apply rset_keeps
    | apply trainPort_keeps
    | split

theorem putField_keeps {a0 : State} (s : State) (r : Reg) (inst : Nat) (e : Nat) (v : Nat) (h0 : Keeps a0 s) : Keeps a0 (putField s r inst e v) := by
  unfold putField
  try dsimp only
  with_reducible repeat' first
    | assumption
    | rfl
    | apply rset_keeps
    | apply holdWrite_keeps
    | apply settleLevels_keeps
    | apply bankRequest_keeps
    | apply enableRing_keeps
    | apply maxSpeed_keeps
    | apply loadRecord_keeps
    | refine Keeps.fst (by assumption) ?_
    | refine Keeps.snd (by assumption) ?_
    | refine Keeps.get (by assumption) ?_
    | refine Keeps.get1 (by assumption) ?_
    | refine Keeps.get1' (by assumption) ?_
    | refine Keeps.ok (by assumption) ?_
    | refine Keeps.ok1 (by assumption) ?_
    | split

theorem fireField_keeps {a0 : State} (s : State) (r : Reg) (inst : Nat) (h0 : Keeps a0 s) : Keeps a0 (fireField s r inst) := by
  unfold fireField
  try dsimp only
  with_reducible repeat' first
    | assumption
    | rfl
    | apply startOp_keeps
    | apply modMem_keeps
    | apply commitGates_keeps
    | apply clearMin_keeps
    | refine Keeps.fst (by assumption) ?_
    | refine Keeps.snd (by assumption) ?_
    | refine Keeps.get (by assumption) ?_
    | refine Keeps.get1 (by assumption) ?_
    | refine Keeps.get1' (by assumption) ?_
    | refine Keeps.ok (by assumption) ?_
    | refine Keeps.ok1 (by assumption) ?_
    | split

theorem writeField_keeps {a0 : State} (s : State) (hub : Nat) (r : Reg) (inst : Nat) (k : Nat) (v : Nat) (h0 : Keeps a0 s) : Keeps a0 (writeField s hub r inst k v) := by
  unfold writeField
  try dsimp only
  with_reducible repeat' first
    | assumption
    | rfl
    | apply rset_keeps
    | apply fireField_keeps
    | apply clearCensus_keeps
    | apply putField_keeps
    | refine Keeps.fst (by assumption) ?_
    | refine Keeps.snd (by assumption) ?_
    | refine Keeps.get (by assumption) ?_
    | refine Keeps.get1 (by assumption) ?_
    | refine Keeps.get1' (by assumption) ?_
    | refine Keeps.ok (by assumption) ?_
    | refine Keeps.ok1 (by assumption) ?_
    | split

theorem startFieldDelta_keeps {a0 : State} (s : State) (msg : Nat) (signer : Nat) (silent : Bool) (bodies : Assoc Nat (List Byte)) (fs : List (Reg × Nat × Nat × Nat)) (h0 : Keeps a0 s) : Keeps a0 (startFieldDelta s msg signer silent bodies fs) := by
  unfold startFieldDelta
  try dsimp only
  with_reducible repeat' first
    | assumption
    | rfl
    | apply KeepsO.some
    | exact KeepsO.none
    | apply KeepsO1.some
    | apply KeepsO1.some'
    | exact KeepsO1.none
    | apply modLife_keeps
    | split

theorem writeNode_keeps {a0 : State} (s : State) (p : Nat) (b : Blk) (inst : Nat) (off : Nat) (value : Nat) (msg : Nat) (signer : Nat) (silent : Bool) (h0 : Keeps a0 s) : Keeps a0 (writeNode s p b inst off value msg signer silent).1 := by
  unfold writeNode
  try dsimp only
  with_reducible repeat' first
    | assumption
    | rfl
    | apply KeepsE.ok
    | exact KeepsE.error
    | apply KeepsE1.ok
    | exact KeepsE1.error
    | refine KeepsE.foldl (fun _ _ _ => ?_) _ ?_
    | refine KeepsE1.foldl (fun _ _ _ => ?_) _ ?_
    | apply writeField_keeps
    | apply bump_keeps
    | apply startFieldDelta_keeps
    | refine Keeps.foldl (fun _ _ _ => ?_) _ ?_
    | refine Keeps.foldl1 (fun _ _ _ => ?_) _ ?_
    | refine Keeps.fst (by assumption) ?_
    | refine Keeps.snd (by assumption) ?_
    | refine Keeps.get (by assumption) ?_
    | refine Keeps.get1 (by assumption) ?_
    | refine Keeps.get1' (by assumption) ?_
    | refine Keeps.ok (by assumption) ?_
    | refine Keeps.ok1 (by assumption) ?_
    | split

theorem writeOwn_keeps {a0 : State} (s : State) (p : Nat) (f : Nat) (off : Nat) (value : Nat) (h0 : Keeps a0 s) : Keeps a0 (writeOwn s p f off value) := by
  unfold writeOwn
  try dsimp only
  with_reducible repeat' first
    | assumption
    | rfl
    | apply writeField_keeps
    | refine Keeps.foldl (fun _ _ _ => ?_) _ ?_
    | refine Keeps.foldl1 (fun _ _ _ => ?_) _ ?_
    | split

theorem writeOther_keeps {a0 : State} (s : State) (p : Nat) (inst : Nat) (off : Nat) (value : Nat) (h0 : Keeps a0 s) : Keeps a0 (writeOther s p inst off value) := by
  unfold writeOther
  try dsimp only
  with_reducible repeat' first
    | assumption
    | rfl
    | apply writeRefused_keeps
    | apply writeField_keeps
    | refine Keeps.foldl (fun _ _ _ => ?_) _ ?_
    | refine Keeps.foldl1 (fun _ _ _ => ?_) _ ?_
    | split

theorem barWrite_keeps {a0 : State} (s : State) (p : Nat) (f : Nat) (off : Nat) (value : Nat) (h0 : Keeps a0 s) : Keeps a0 (barWrite s p f off value) := by
  unfold barWrite
  try dsimp only
  with_reducible repeat' first
    | assumption
    | rfl
    | apply KeepsO.some
    | exact KeepsO.none
    | apply KeepsO1.some
    | apply KeepsO1.some'
    | exact KeepsO1.none
    | apply writeOwn_keeps
    | apply writeOther_keeps
    | apply writeRefused_keeps
    | apply writeNode_keeps
    | refine Keeps.fst (by assumption) ?_
    | refine Keeps.snd (by assumption) ?_
    | refine Keeps.get (by assumption) ?_
    | refine Keeps.get1 (by assumption) ?_
    | refine Keeps.get1' (by assumption) ?_
    | refine Keeps.ok (by assumption) ?_
    | refine Keeps.ok1 (by assumption) ?_
    | split

theorem execRegisterWrite_keeps {a0 : State} (port : Port) (fn : Fn) (offset : Nat) (value : BitVec 32) (ide : Option Nat) (s : State) (h0 : Keeps a0 s) : KeepsN a0 (execRegisterWrite port fn offset value s ide) := by
  unfold execRegisterWrite
  try dsimp only
  with_reducible repeat' first
    | assumption
    | rfl
    | apply KeepsN.next
    | apply KeepsN.fault
    | apply barWrite_keeps
    | apply untaken_keeps
    | split

theorem execClassFieldWrite_keeps {a0 : State} (port : Port) (fn : Fn) (offset : Nat) (value : BitVec 32) (ide : Option Nat) (s : State) (h0 : Keeps a0 s) : KeepsN a0 (execClassFieldWrite port fn offset value s ide) := by
  unfold execClassFieldWrite
  try dsimp only
  with_reducible repeat' first
    | assumption
    | rfl
    | apply KeepsN.next
    | apply KeepsN.fault
    | apply barWrite_keeps
    | apply untaken_keeps
    | split

theorem publish_keeps {a0 : State} (s : State) (h : Nat) (h0 : Keeps a0 s) : Keeps a0 (publish s h) := by
  unfold publish
  try dsimp only
  with_reducible repeat' first
    | assumption
    | rfl
    | apply modHealth_keeps
    | refine KeepsO.map ?_ (fun _ _ => ?_)
    | refine KeepsO.map1 ?_ (fun _ _ => ?_)
    | refine KeepsO.map0 (fun _ => ?_)
    | refine KeepsO1.map ?_ (fun _ _ => ?_)
    | refine KeepsO1.map1 ?_ (fun _ _ => ?_)
    | refine KeepsO1.map0 (fun _ => ?_)
    | split

theorem execCoarsePublish_keeps {a0 : State} (hub : Hub) (s : State) (h0 : Keeps a0 s) : KeepsN a0 (execCoarsePublish hub s) := by
  unfold execCoarsePublish
  try dsimp only
  with_reducible repeat' first
    | assumption
    | rfl
    | apply KeepsN.next
    | apply KeepsN.fault
    | apply passTo_keeps
    | apply publish_keeps
    | split

theorem publishSecond_keeps {a0 : State} (s : State) (h : Nat) (h0 : Keeps a0 s) : Keeps a0 (publishSecond s h) := by
  unfold publishSecond
  try dsimp only
  with_reducible repeat' first
    | assumption
    | rfl
    | apply modHealth_keeps
    | apply modMem_keeps
    | refine KeepsO.getD ?_ ?_
    | refine KeepsO1.getD ?_ ?_
    | refine KeepsO.map ?_ (fun _ _ => ?_)
    | refine KeepsO.map1 ?_ (fun _ _ => ?_)
    | refine KeepsO.map0 (fun _ => ?_)
    | refine KeepsO1.map ?_ (fun _ _ => ?_)
    | refine KeepsO1.map1 ?_ (fun _ _ => ?_)
    | refine KeepsO1.map0 (fun _ => ?_)
    | refine Keeps.foldl (fun _ _ _ => ?_) _ ?_
    | refine Keeps.foldl1 (fun _ _ _ => ?_) _ ?_
    | split

theorem execCoarsePublishSecond_keeps {a0 : State} (hub : Hub) (s : State) (h0 : Keeps a0 s) : KeepsN a0 (execCoarsePublishSecond hub s) := by
  unfold execCoarsePublishSecond
  try dsimp only
  with_reducible repeat' first
    | assumption
    | rfl
    | apply KeepsN.next
    | apply KeepsN.fault
    | apply passTo_keeps
    | apply publishSecond_keeps
    | split

theorem readSeen_keeps {a0 : State} (s : State) (p : Nat) (b : Blk) (inst : Nat) (off : Nat) (h0 : Keeps a0 s) : Keeps a0 (readSeen s p b inst off).1 := by
  unfold readSeen
  try dsimp only
  with_reducible repeat' first
    | assumption
    | rfl
    | apply latchRead_keeps
    | refine KeepsO.getD ?_ ?_
    | refine KeepsO1.getD ?_ ?_
    | refine KeepsO.map ?_ (fun _ _ => ?_)
    | refine KeepsO.map1 ?_ (fun _ _ => ?_)
    | refine KeepsO.map0 (fun _ => ?_)
    | refine KeepsO1.map ?_ (fun _ _ => ?_)
    | refine KeepsO1.map1 ?_ (fun _ _ => ?_)
    | refine KeepsO1.map0 (fun _ => ?_)
    | split

theorem barRead_keeps {a0 : State} (s : State) (p : Nat) (f : Nat) (off : Nat) (h0 : Keeps a0 s) : Keeps a0 (barRead s p f off).1 := by
  unfold barRead
  try dsimp only
  with_reducible repeat' first
    | assumption
    | rfl
    | apply KeepsO.some
    | exact KeepsO.none
    | apply KeepsO1.some
    | apply KeepsO1.some'
    | exact KeepsO1.none
    | apply readSeen_keeps
    | apply readReg_keeps
    | refine Keeps.fst (by assumption) ?_
    | refine Keeps.snd (by assumption) ?_
    | refine Keeps.get (by assumption) ?_
    | refine Keeps.get1 (by assumption) ?_
    | refine Keeps.get1' (by assumption) ?_
    | refine Keeps.ok (by assumption) ?_
    | refine Keeps.ok1 (by assumption) ?_
    | split

theorem readTlp_keeps {a0 : State} (s : State) (p : Nat) (off : Nat) (ide : Option Nat) (h0 : Keeps a0 s) : Keeps a0 (readTlp s p off ide) := by
  unfold readTlp
  try dsimp only
  with_reducible repeat' first
    | assumption
    | rfl
    | apply KeepsO.some
    | exact KeepsO.none
    | apply KeepsO1.some
    | apply KeepsO1.some'
    | exact KeepsO1.none
    | apply emit_keeps
    | apply barRead_keeps
    | refine Keeps.fst (by assumption) ?_
    | refine Keeps.snd (by assumption) ?_
    | refine Keeps.get (by assumption) ?_
    | refine Keeps.get1 (by assumption) ?_
    | refine Keeps.get1' (by assumption) ?_
    | refine Keeps.ok (by assumption) ?_
    | refine Keeps.ok1 (by assumption) ?_
    | split

theorem execLocalTimeLatch_keeps {a0 : State} (hub : Hub) (port : Port) (ide : Option Nat) (s : State) (h0 : Keeps a0 s) : KeepsN a0 (execLocalTimeLatch hub s port ide) := by
  unfold execLocalTimeLatch
  try dsimp only
  with_reducible repeat' first
    | assumption
    | rfl
    | apply KeepsN.next
    | apply KeepsN.fault
    | apply readTlp_keeps
    | split

theorem execDieSummaryLatch_keeps {a0 : State} (port : Port) (ide : Option Nat) (s : State) (h0 : Keeps a0 s) : KeepsN a0 (execDieSummaryLatch s port ide) := by
  unfold execDieSummaryLatch
  try dsimp only
  with_reducible repeat' first
    | assumption
    | rfl
    | apply KeepsN.next
    | apply KeepsN.fault
    | apply readTlp_keeps
    | split

theorem execMeterRecordLatch_keeps {a0 : State} (port : Port) (ide : Option Nat) (s : State) (h0 : Keeps a0 s) : KeepsN a0 (execMeterRecordLatch s port ide) := by
  unfold execMeterRecordLatch
  try dsimp only
  with_reducible repeat' first
    | assumption
    | rfl
    | apply KeepsN.next
    | apply KeepsN.fault
    | apply readTlp_keeps
    | split

end Sys2Proof.Laws
end

