-- ==== Sys2Proof/Laws/KeepsTrust.lean ====
section
/-!
SUPPORT. The operations of Machine/Trust.lean keep what Laws/Keeps.lean says.
-/
namespace Sys2Proof.Laws
open Sys2Proof.Machine

theorem stand_keeps {a0 : State} (s : State) (h : Nat) (h0 : Keeps a0 s) : Keeps a0 (stand s h) := by
  unfold stand
  try dsimp only
  with_reducible repeat' first
    | assumption
    | rfl
    | apply KeepsO.some
    | exact KeepsO.none
    | apply KeepsO1.some
    | apply KeepsO1.some'
    | exact KeepsO1.none
    | apply stepDown_keeps
    | apply bump_keeps
    | apply modLov_keeps
    | apply emit_keeps
    | split

theorem adoptTerm_keeps {a0 : State} (s : State) (h : Nat) (term : Nat) (h0 : Keeps a0 s) : Keeps a0 (adoptTerm s h term) := by
  unfold adoptTerm
  try dsimp only
  with_reducible repeat' first
    | assumption
    | rfl
    | apply KeepsO.some
    | exact KeepsO.none
    | apply KeepsO1.some
    | apply KeepsO1.some'
    | exact KeepsO1.none
    | apply modLov_keeps
    | apply stepDown_keeps
    | split

theorem settleVotes_keeps {a0 : State} (s : State) (h : Nat) (h0 : Keeps a0 s) : Keeps a0 (settleVotes s h) := by
  unfold settleVotes
  try dsimp only
  with_reducible repeat' first
    | assumption
    | rfl
    | apply KeepsO.some
    | exact KeepsO.none
    | apply KeepsO1.some
    | apply KeepsO1.some'
    | exact KeepsO1.none
    | apply modLov_keeps
    | apply journal_keeps
    | apply emit_keeps
    | split

theorem onTerm_keeps {a0 : State} (s : State) (h : Nat) (term : Nat) (f : State → State) (h_f : ∀ (x0 : State), Keeps a0 x0 → Keeps a0 (f x0)) (h0 : Keeps a0 s) : Keeps a0 (onTerm s h term f) := by
  unfold onTerm
  try dsimp only
  with_reducible repeat' first
    | assumption
    | rfl
    | apply adoptTerm_keeps
    | apply h_f
    | split

theorem execCandidate_keeps {a0 : State} (hub : Hub) (sender : Hub) (term : Nat) (s : State) (h0 : Keeps a0 s) : KeepsN a0 (execCandidate hub sender term s) := by
  unfold execCandidate
  try dsimp only
  with_reducible repeat' first
    | assumption
    | rfl
    | apply KeepsN.next
    | apply KeepsN.fault
    | apply onTerm_keeps
    | apply modLov_keeps
    | intro _
    | split

theorem execVote_keeps {a0 : State} (hub : Hub) (voter : Hub) (term : Nat) (s : State) (h0 : Keeps a0 s) : KeepsN a0 (execVote hub voter term s) := by
  unfold execVote
  try dsimp only
  with_reducible repeat' first
    | assumption
    | rfl
    | apply KeepsN.next
    | apply KeepsN.fault
    | apply onTerm_keeps
    | apply settleVotes_keeps
    | apply modLov_keeps
    | intro _
    | split

theorem execBeacon_keeps {a0 : State} (hub : Hub) (sender : Hub) (term : Nat) (s : State) (h0 : Keeps a0 s) : KeepsN a0 (execBeacon hub sender term s) := by
  unfold execBeacon
  try dsimp only
  with_reducible repeat' first
    | assumption
    | rfl
    | apply KeepsN.next
    | apply KeepsN.fault
    | apply KeepsO.some
    | exact KeepsO.none
    | apply KeepsO1.some
    | apply KeepsO1.some'
    | exact KeepsO1.none
    | apply onTerm_keeps
    | apply modLov_keeps
    | intro _
    | split

theorem execBeaconSend_keeps {a0 : State} (hub : Hub) (s : State) (h0 : Keeps a0 s) : KeepsN a0 (execBeaconSend hub s) := by
  unfold execBeaconSend
  try dsimp only
  with_reducible repeat' first
    | assumption
    | rfl
    | apply KeepsN.next
    | apply KeepsN.fault
    | apply emit_keeps
    | apply passTo_keeps
    | split

theorem execBeaconTimeout_keeps {a0 : State} (hub : Hub) (s : State) (h0 : Keeps a0 s) : KeepsN a0 (execBeaconTimeout hub s) := by
  unfold execBeaconTimeout
  try dsimp only
  with_reducible repeat' first
    | assumption
    | rfl
    | apply KeepsN.next
    | apply KeepsN.fault
    | apply stand_keeps
    | apply passTo_keeps
    | split

theorem execVoteWaitExpiry_keeps {a0 : State} (hub : Hub) (s : State) (h0 : Keeps a0 s) : KeepsN a0 (execVoteWaitExpiry hub s) := by
  unfold execVoteWaitExpiry
  try dsimp only
  with_reducible repeat' first
    | assumption
    | rfl
    | apply KeepsN.next
    | apply KeepsN.fault
    | apply KeepsO.some
    | exact KeepsO.none
    | apply KeepsO1.some
    | apply KeepsO1.some'
    | exact KeepsO1.none
    | apply passTo_keeps
    | apply modLov_keeps
    | apply settleVotes_keeps
    | apply emit_keeps
    | refine Keeps.fst (by assumption) ?_
    | refine Keeps.snd (by assumption) ?_
    | refine Keeps.get (by assumption) ?_
    | refine Keeps.get1 (by assumption) ?_
    | refine Keeps.get1' (by assumption) ?_
    | refine KeepsN.get (by assumption) ?_
    | refine Keeps.ok (by assumption) ?_
    | refine Keeps.ok1 (by assumption) ?_
    | split

theorem execCandidacyTimeout_keeps {a0 : State} (hub : Hub) (s : State) (h0 : Keeps a0 s) : KeepsN a0 (execCandidacyTimeout hub s) := by
  unfold execCandidacyTimeout
  try dsimp only
  with_reducible repeat' first
    | assumption
    | rfl
    | apply KeepsN.next
    | apply KeepsN.fault
    | apply modLov_keeps
    | apply passTo_keeps
    | split

theorem execCandidacyBackoffExpiry_keeps {a0 : State} (hub : Hub) (s : State) (h0 : Keeps a0 s) : KeepsN a0 (execCandidacyBackoffExpiry hub s) := by
  unfold execCandidacyBackoffExpiry
  try dsimp only
  with_reducible repeat' first
    | assumption
    | rfl
    | apply KeepsN.next
    | apply KeepsN.fault
    | apply stand_keeps
    | apply passTo_keeps
    | split

theorem unwrapPsk_keeps {a0 : State} (s : State) (h : Nat) (h0 : Keeps a0 s) : Keeps a0 (unwrapPsk s h) := by
  unfold unwrapPsk
  try dsimp only
  with_reducible repeat' first
    | assumption
    | rfl
    | apply KeepsO.some
    | exact KeepsO.none
    | apply KeepsO1.some
    | apply KeepsO1.some'
    | exact KeepsO1.none
    | apply modTrust_keeps
    | refine Keeps.fst (by assumption) ?_
    | refine Keeps.snd (by assumption) ?_
    | refine Keeps.get (by assumption) ?_
    | refine Keeps.get1 (by assumption) ?_
    | refine Keeps.get1' (by assumption) ?_
    | refine Keeps.ok (by assumption) ?_
    | refine Keeps.ok1 (by assumption) ?_
    | split

theorem execLovageMeasuredBoot_keeps {a0 : State} (hub : Hub) (s : State) (h0 : Keeps a0 s) : KeepsN a0 (execLovageMeasuredBoot hub s) := by
  unfold execLovageMeasuredBoot
  try dsimp only
  with_reducible repeat' first
    | assumption
    | rfl
    | apply KeepsN.next
    | apply KeepsN.fault
    | apply KeepsO.some
    | exact KeepsO.none
    | apply KeepsO1.some
    | apply KeepsO1.some'
    | exact KeepsO1.none
    | apply modLife_keeps
    | apply unwrapPsk_keeps
    | apply modLov_keeps
    | apply stand_keeps
    | refine Keeps.fst (by assumption) ?_
    | refine Keeps.snd (by assumption) ?_
    | refine Keeps.get (by assumption) ?_
    | refine Keeps.get1 (by assumption) ?_
    | refine Keeps.get1' (by assumption) ?_
    | refine KeepsN.get (by assumption) ?_
    | refine Keeps.ok (by assumption) ?_
    | refine Keeps.ok1 (by assumption) ?_
    | split

theorem execGetCerts_keeps {a0 : State} (msg : Nat) (s : State) (h0 : Keeps a0 s) : KeepsN a0 (execGetCerts msg s) := by
  unfold execGetCerts
  try dsimp only
  with_reducible repeat' first
    | assumption
    | rfl
    | apply KeepsN.next
    | apply KeepsN.fault
    | apply KeepsE.ok
    | exact KeepsE.error
    | apply KeepsE1.ok
    | exact KeepsE1.error
    | apply mgmtRun_keeps
    | apply mgmtAnswer_keeps
    | intro _
    | split

theorem execAttest_keeps {a0 : State} (msg : Nat) (s : State) (h0 : Keeps a0 s) : KeepsN a0 (execAttest msg s) := by
  unfold execAttest
  try dsimp only
  with_reducible repeat' first
    | assumption
    | rfl
    | apply KeepsN.next
    | apply KeepsN.fault
    | apply KeepsE.ok
    | exact KeepsE.error
    | apply KeepsE1.ok
    | exact KeepsE1.error
    | apply mgmtRun_keeps
    | apply mgmtAnswer_keeps
    | apply modTrust_keeps
    | apply bump_keeps
    | intro _
    | split

theorem execSessionOpen_keeps {a0 : State} (msg : Nat) (s : State) (h0 : Keeps a0 s) : KeepsN a0 (execSessionOpen msg s) := by
  unfold execSessionOpen
  try dsimp only
  with_reducible repeat' first
    | assumption
    | rfl
    | apply KeepsN.next
    | apply KeepsN.fault
    | apply KeepsO.some
    | exact KeepsO.none
    | apply KeepsO1.some
    | apply KeepsO1.some'
    | exact KeepsO1.none
    | apply KeepsE.ok
    | exact KeepsE.error
    | apply KeepsE1.ok
    | exact KeepsE1.error
    | apply mgmtRun_keeps
    | apply mgmtAnswer_keeps
    | apply freshBytes_keeps
    | apply newId_keeps
    | apply modTrust_keeps
    | apply answer_keeps
    | refine Keeps.fst (by assumption) ?_
    | refine Keeps.snd (by assumption) ?_
    | refine Keeps.get (by assumption) ?_
    | refine Keeps.get1 (by assumption) ?_
    | refine Keeps.get1' (by assumption) ?_
    | refine KeepsN.get (by assumption) ?_
    | refine Keeps.ok (by assumption) ?_
    | refine Keeps.ok1 (by assumption) ?_
    | intro _
    | split

theorem execSessionAuth_keeps {a0 : State} (msg : Nat) (s : State) (h0 : Keeps a0 s) : KeepsN a0 (execSessionAuth msg s) := by
  unfold execSessionAuth
  try dsimp only
  with_reducible repeat' first
    | assumption
    | rfl
    | apply KeepsN.next
    | apply KeepsN.fault
    | apply KeepsO.some
    | exact KeepsO.none
    | apply KeepsO1.some
    | apply KeepsO1.some'
    | exact KeepsO1.none
    | apply KeepsE.ok
    | exact KeepsE.error
    | apply KeepsE1.ok
    | exact KeepsE1.error
    | apply mgmtRun_keeps
    | apply mgmtAnswer_keeps
    | apply modSession_keeps
    | apply endSession_keeps
    | apply bumpPrimary_keeps
    | refine Keeps.fst (by assumption) ?_
    | refine Keeps.snd (by assumption) ?_
    | refine Keeps.get (by assumption) ?_
    | refine Keeps.get1 (by assumption) ?_
    | refine Keeps.get1' (by assumption) ?_
    | refine KeepsN.get (by assumption) ?_
    | refine Keeps.ok (by assumption) ?_
    | refine Keeps.ok1 (by assumption) ?_
    | intro _
    | split

theorem execSessionClose_keeps {a0 : State} (msg : Nat) (s : State) (h0 : Keeps a0 s) : KeepsN a0 (execSessionClose msg s) := by
  unfold execSessionClose
  try dsimp only
  with_reducible repeat' first
    | assumption
    | rfl
    | apply KeepsN.next
    | apply KeepsN.fault
    | apply KeepsE.ok
    | exact KeepsE.error
    | apply KeepsE1.ok
    | exact KeepsE1.error
    | apply sessionRun_keeps
    | apply endSession_keeps
    | apply sealedAnswer_keeps
    | intro _
    | split

theorem execSessionIdleExpiry_keeps {a0 : State} (session : Nat) (s : State) (h0 : Keeps a0 s) : KeepsN a0 (execSessionIdleExpiry session s) := by
  unfold execSessionIdleExpiry
  try dsimp only
  with_reducible repeat' first
    | assumption
    | rfl
    | apply KeepsN.next
    | apply KeepsN.fault
    | apply KeepsO.some
    | exact KeepsO.none
    | apply KeepsO1.some
    | apply KeepsO1.some'
    | exact KeepsO1.none
    | apply endSession_keeps
    | apply passTo_keeps
    | refine KeepsO.getD ?_ ?_
    | refine KeepsO1.getD ?_ ?_
    | refine Keeps.fst (by assumption) ?_
    | refine Keeps.snd (by assumption) ?_
    | refine Keeps.get (by assumption) ?_
    | refine Keeps.get1 (by assumption) ?_
    | refine Keeps.get1' (by assumption) ?_
    | refine KeepsN.get (by assumption) ?_
    | refine Keeps.ok (by assumption) ?_
    | refine Keeps.ok1 (by assumption) ?_
    | split

theorem execRegRead_keeps {a0 : State} (msg : Nat) (s : State) (h0 : Keeps a0 s) : KeepsN a0 (execRegRead msg s) := by
  unfold execRegRead
  try dsimp only
  with_reducible repeat' first
    | assumption
    | rfl
    | apply KeepsN.next
    | apply KeepsN.fault
    | apply KeepsE.ok
    | exact KeepsE.error
    | apply KeepsE1.ok
    | exact KeepsE1.error
    | apply sessionRun_keeps
    | apply sealedAnswer_keeps
    | apply readReg_keeps
    | refine Keeps.fst (by assumption) ?_
    | refine Keeps.snd (by assumption) ?_
    | refine Keeps.get (by assumption) ?_
    | refine Keeps.get1 (by assumption) ?_
    | refine Keeps.get1' (by assumption) ?_
    | refine KeepsN.get (by assumption) ?_
    | refine Keeps.ok (by assumption) ?_
    | refine Keeps.ok1 (by assumption) ?_
    | intro _
    | split

theorem sessionWrite_keeps {a0 : State} (s : State) (msg : Nat) (m : Msg) (x : Session) (off : Nat) (value : Nat) (h0 : Keeps a0 s) : Keeps a0 (sessionWrite s msg m x off value) := by
  unfold sessionWrite
  try dsimp only
  with_reducible repeat' first
    | assumption
    | rfl
    | apply KeepsO.some
    | exact KeepsO.none
    | apply KeepsO1.some
    | apply KeepsO1.some'
    | exact KeepsO1.none
    | apply KeepsE.ok
    | exact KeepsE.error
    | apply KeepsE1.ok
    | exact KeepsE1.error
    | refine KeepsO.foldl (fun _ _ _ => ?_) _ ?_
    | refine KeepsO1.foldl (fun _ _ _ => ?_) _ ?_
    | refine KeepsE.foldl (fun _ _ _ => ?_) _ ?_
    | refine KeepsE1.foldl (fun _ _ _ => ?_) _ ?_
    | apply sealedAnswer_keeps
    | apply writeField_keeps
    | apply writeNode_keeps
    | apply setPhase_keeps
    | refine KeepsO.map ?_ (fun _ _ => ?_)
    | refine KeepsO.map1 ?_ (fun _ _ => ?_)
    | refine KeepsO.map0 (fun _ => ?_)
    | refine KeepsO1.map ?_ (fun _ _ => ?_)
    | refine KeepsO1.map1 ?_ (fun _ _ => ?_)
    | refine KeepsO1.map0 (fun _ => ?_)
    | refine KeepsE.map ?_ (fun _ _ => ?_)
    | refine KeepsE.map1 ?_ (fun _ _ => ?_)
    | refine KeepsE.map0 (fun _ => ?_)
    | refine KeepsE1.map ?_ (fun _ _ => ?_)
    | refine KeepsE1.map1 ?_ (fun _ _ => ?_)
    | refine KeepsE1.map0 (fun _ => ?_)
    | refine Keeps.foldl (fun _ _ _ => ?_) _ ?_
    | refine Keeps.foldl1 (fun _ _ _ => ?_) _ ?_
    | refine Keeps.fst (by assumption) ?_
    | refine Keeps.snd (by assumption) ?_
    | refine Keeps.get (by assumption) ?_
    | refine Keeps.get1 (by assumption) ?_
    | refine Keeps.get1' (by assumption) ?_
    | refine Keeps.ok (by assumption) ?_
    | refine Keeps.ok1 (by assumption) ?_
    | split

theorem execRegWrite_keeps {a0 : State} (msg : Nat) (s : State) (h0 : Keeps a0 s) : KeepsN a0 (execRegWrite msg s) := by
  unfold execRegWrite
  try dsimp only
  with_reducible repeat' first
    | assumption
    | rfl
    | apply KeepsN.next
    | apply KeepsN.fault
    | apply sessionRun_keeps
    | apply sealedAnswer_keeps
    | apply sessionWrite_keeps
    | intro _
    | split

theorem execLegacyPsk_keeps {a0 : State} (msg : Nat) (s : State) (h0 : Keeps a0 s) : KeepsN a0 (execLegacyPsk msg s) := by
  unfold execLegacyPsk
  try dsimp only
  with_reducible repeat' first
    | assumption
    | rfl
    | apply KeepsN.next
    | apply KeepsN.fault
    | apply KeepsO.some
    | exact KeepsO.none
    | apply KeepsO1.some
    | apply KeepsO1.some'
    | exact KeepsO1.none
    | apply KeepsE.ok
    | exact KeepsE.error
    | apply KeepsE1.ok
    | exact KeepsE1.error
    | apply sessionRun_keeps
    | apply sealedAnswer_keeps
    | apply freshBytes_keeps
    | apply modTrust_keeps
    | refine Keeps.fst (by assumption) ?_
    | refine Keeps.snd (by assumption) ?_
    | refine Keeps.get (by assumption) ?_
    | refine Keeps.get1 (by assumption) ?_
    | refine Keeps.get1' (by assumption) ?_
    | refine KeepsN.get (by assumption) ?_
    | refine Keeps.ok (by assumption) ?_
    | refine Keeps.ok1 (by assumption) ?_
    | intro _
    | split

theorem execTenantView_keeps {a0 : State} (msg : Nat) (s : State) (h0 : Keeps a0 s) : KeepsN a0 (execTenantView msg s) := by
  unfold execTenantView
  try dsimp only
  with_reducible repeat' first
    | assumption
    | rfl
    | apply KeepsN.next
    | apply KeepsN.fault
    | apply KeepsE.ok
    | exact KeepsE.error
    | apply KeepsE1.ok
    | exact KeepsE1.error
    | apply mgmtRun_keeps
    | apply mgmtAnswer_keeps
    | refine Keeps.fst (by assumption) ?_
    | refine Keeps.snd (by assumption) ?_
    | refine Keeps.get (by assumption) ?_
    | refine Keeps.get1 (by assumption) ?_
    | refine Keeps.get1' (by assumption) ?_
    | refine KeepsN.get (by assumption) ?_
    | refine Keeps.ok (by assumption) ?_
    | refine Keeps.ok1 (by assumption) ?_
    | intro _
    | split

theorem execGetMeasurements_keeps {a0 : State} (port : Port) (s : State) (h0 : Keeps a0 s) : KeepsN a0 (execGetMeasurements port s) := by
  unfold execGetMeasurements
  try dsimp only
  with_reducible repeat' first
    | assumption
    | rfl
    | apply KeepsN.next
    | apply KeepsN.fault
    | apply emit_keeps
    | split

theorem execSecuredSession_keeps {a0 : State} (port : Port) (s : State) (h0 : Keeps a0 s) : KeepsN a0 (execSecuredSession port s) := by
  unfold execSecuredSession
  try dsimp only
  with_reducible repeat' first
    | assumption
    | rfl
    | apply KeepsN.next
    | apply KeepsN.fault
    | apply modHost_keeps
    | split

theorem execKeyProg_keeps {a0 : State} (port : Port) (stream : Nat) (sub : Nat) (set : Nat) (key : List Byte) (s : State) (h0 : Keeps a0 s) : KeepsN a0 (execKeyProg port stream sub set key s) := by
  unfold execKeyProg
  try dsimp only
  with_reducible repeat' first
    | assumption
    | rfl
    | apply KeepsN.next
    | apply KeepsN.fault
    | apply modHost_keeps
    | split

theorem execKSetGo_keeps {a0 : State} (port : Port) (stream : Nat) (set : Nat) (s : State) (h0 : Keeps a0 s) : KeepsN a0 (execKSetGo port stream set s) := by
  unfold execKSetGo
  try dsimp only
  with_reducible repeat' first
    | assumption
    | rfl
    | apply KeepsN.next
    | apply KeepsN.fault
    | apply KeepsO.some
    | exact KeepsO.none
    | apply KeepsO1.some
    | apply KeepsO1.some'
    | exact KeepsO1.none
    | apply modHost_keeps
    | refine Keeps.fst (by assumption) ?_
    | refine Keeps.snd (by assumption) ?_
    | refine Keeps.get (by assumption) ?_
    | refine Keeps.get1 (by assumption) ?_
    | refine Keeps.get1' (by assumption) ?_
    | refine KeepsN.get (by assumption) ?_
    | refine Keeps.ok (by assumption) ?_
    | refine Keeps.ok1 (by assumption) ?_
    | split

theorem execKSetStop_keeps {a0 : State} (port : Port) (stream : Nat) (set : Nat) (s : State) (h0 : Keeps a0 s) : KeepsN a0 (execKSetStop port stream set s) := by
  unfold execKSetStop
  try dsimp only
  with_reducible repeat' first
    | assumption
    | rfl
    | apply KeepsN.next
    | apply KeepsN.fault
    | apply KeepsO.some
    | exact KeepsO.none
    | apply KeepsO1.some
    | apply KeepsO1.some'
    | exact KeepsO1.none
    | apply modHost_keeps
    | refine Keeps.fst (by assumption) ?_
    | refine Keeps.snd (by assumption) ?_
    | refine Keeps.get (by assumption) ?_
    | refine Keeps.get1 (by assumption) ?_
    | refine Keeps.get1' (by assumption) ?_
    | refine KeepsN.get (by assumption) ?_
    | refine Keeps.ok (by assumption) ?_
    | refine Keeps.ok1 (by assumption) ?_
    | split

theorem legacyTake_keeps {a0 : State} (s : State) (counter : Nat) (h0 : Keeps a0 s) : Keeps a0 (legacyTake s counter) := by
  unfold legacyTake
  try dsimp only
  with_reducible repeat' first
    | assumption
    | rfl
    | apply modTrust_keeps
    | apply legacyRun_keeps
    | apply journal_keeps
    | intro _
    | split

theorem legacyRun_keeps {a0 : State} (s : State) (counter : Nat) (b : List Byte) (tag : List Byte) (f : State → State) (h_f : ∀ (x0 : State), Keeps a0 x0 → Keeps a0 (f x0)) (h0 : Keeps a0 s) : KeepsN a0 (legacyRun s counter b tag f) := by
  unfold legacyRun
  try dsimp only
  with_reducible repeat' first
    | assumption
    | rfl
    | apply KeepsN.next
    | apply KeepsN.fault
    | apply bump_keeps
    | apply legacyTake_keeps
    | apply h_f
    | split

theorem legacyAnswer_keeps {a0 : State} (s : State) (fn : Nat) (content : List Byte) (h0 : Keeps a0 s) : Keeps a0 (legacyAnswer s fn content) := by
  unfold legacyAnswer
  try dsimp only
  with_reducible repeat' first
    | assumption
    | rfl
    | apply emit_keeps
    | split

theorem execLegacyIdentity_keeps {a0 : State} (counter : Nat) (body : List Byte) (tag : List Byte) (s : State) (h0 : Keeps a0 s) : KeepsN a0 (execLegacyIdentity counter body tag s) := by
  unfold execLegacyIdentity
  try dsimp only
  with_reducible repeat' first
    | assumption
    | rfl
    | apply KeepsN.next
    | apply KeepsN.fault
    | apply legacyRun_keeps
    | apply legacyAnswer_keeps
    | intro _
    | split

theorem execLegacyHealth_keeps {a0 : State} (counter : Nat) (body : List Byte) (tag : List Byte) (s : State) (h0 : Keeps a0 s) : KeepsN a0 (execLegacyHealth counter body tag s) := by
  unfold execLegacyHealth
  try dsimp only
  with_reducible repeat' first
    | assumption
    | rfl
    | apply KeepsN.next
    | apply KeepsN.fault
    | apply legacyRun_keeps
    | apply legacyAnswer_keeps
    | intro _
    | split

theorem execLegacyTempPower_keeps {a0 : State} (counter : Nat) (body : List Byte) (tag : List Byte) (s : State) (h0 : Keeps a0 s) : KeepsN a0 (execLegacyTempPower counter body tag s) := by
  unfold execLegacyTempPower
  try dsimp only
  with_reducible repeat' first
    | assumption
    | rfl
    | apply KeepsN.next
    | apply KeepsN.fault
    | apply legacyRun_keeps
    | apply legacyAnswer_keeps
    | intro _
    | split

theorem execLegacyDrain_keeps {a0 : State} (counter : Nat) (body : List Byte) (tag : List Byte) (s : State) (h0 : Keeps a0 s) : KeepsN a0 (execLegacyDrain counter body tag s) := by
  unfold execLegacyDrain
  try dsimp only
  with_reducible repeat' first
    | assumption
    | rfl
    | apply KeepsN.next
    | apply KeepsN.fault
    | apply legacyRun_keeps
    | apply startDraining_keeps
    | apply modPower_keeps
    | apply legacyAnswer_keeps
    | intro _
    | split

theorem execLegacyDrainRelease_keeps {a0 : State} (counter : Nat) (body : List Byte) (tag : List Byte) (s : State) (h0 : Keeps a0 s) : KeepsN a0 (execLegacyDrainRelease counter body tag s) := by
  unfold execLegacyDrainRelease
  try dsimp only
  with_reducible repeat' first
    | assumption
    | rfl
    | apply KeepsN.next
    | apply KeepsN.fault
    | apply legacyRun_keeps
    | apply legacyAnswer_keeps
    | apply endDraining_keeps
    | apply modPower_keeps
    | intro _
    | split

theorem execLegacyNodeReset_keeps {a0 : State} (counter : Nat) (body : List Byte) (tag : List Byte) (s : State) (h0 : Keeps a0 s) : KeepsN a0 (execLegacyNodeReset counter body tag s) := by
  unfold execLegacyNodeReset
  try dsimp only
  with_reducible repeat' first
    | assumption
    | rfl
    | apply KeepsN.next
    | apply KeepsN.fault
    | apply legacyRun_keeps
    | apply loseDies_keeps
    | apply legacyAnswer_keeps
    | intro _
    | split

end Sys2Proof.Laws
end

