-- ==== Sys2Proof/Laws/KeepsLoader.lean ====
section
/-!
SUPPORT. The operations of Machine/Loader.lean keep what Laws/Keeps.lean says.
-/
namespace Sys2Proof.Laws
open Sys2Proof.Machine

theorem removeProg_keeps {a0 : State} (s : State) (n : Nat) (h0 : Keeps a0 s) : Keeps a0 (removeProg s n) := by
  unfold removeProg
  try dsimp only
  with_reducible repeat' first
    | assumption
    | rfl
    | apply KeepsO.some
    | exact KeepsO.none
    | apply KeepsO1.some
    | apply KeepsO1.some'
    | exact KeepsO1.none
    | apply modDill_keeps
    | apply store_keeps
    | refine Keeps.fst (by assumption) ?_
    | refine Keeps.snd (by assumption) ?_
    | refine Keeps.get (by assumption) ?_
    | refine Keeps.get1 (by assumption) ?_
    | refine Keeps.get1' (by assumption) ?_
    | refine Keeps.ok (by assumption) ?_
    | refine Keeps.ok1 (by assumption) ?_
    | split

theorem installProg_keeps {a0 : State} (s : State) (n : Nat) (start : Nat) (bound : Nat) (operator : Bool) (ws : List Nat) (h0 : Keeps a0 s) : Keeps a0 (installProg s n start bound operator ws) := by
  unfold installProg
  try dsimp only
  with_reducible repeat' first
    | assumption
    | rfl
    | apply modDill_keeps
    | apply removeProg_keeps
    | apply store_keeps
    | refine Keeps.foldl (fun _ _ _ => ?_) _ ?_
    | refine Keeps.foldl1 (fun _ _ _ => ?_) _ ?_
    | split

theorem loadImage_keeps {a0 : State} (s : State) (n : Nat) (b : List Byte) (h0 : Keeps a0 s) : Keeps a0 (loadImage s n b).1 := by
  unfold loadImage
  try dsimp only
  with_reducible repeat' first
    | assumption
    | rfl
    | apply KeepsE.ok
    | exact KeepsE.error
    | apply KeepsE1.ok
    | exact KeepsE1.error
    | apply installProg_keeps
    | refine Keeps.fst (by assumption) ?_
    | refine Keeps.snd (by assumption) ?_
    | refine Keeps.get (by assumption) ?_
    | refine Keeps.get1 (by assumption) ?_
    | refine Keeps.get1' (by assumption) ?_
    | refine Keeps.ok (by assumption) ?_
    | refine Keeps.ok1 (by assumption) ?_
    | split

theorem noteStore_keeps {a0 : State} (s : State) (h0 : Keeps a0 s) : Keeps a0 (noteStore s) := by
  unfold noteStore
  try dsimp only
  with_reducible repeat' first
    | assumption
    | rfl
    | apply modLife_keeps
    | refine KeepsO.getD ?_ ?_
    | refine KeepsO1.getD ?_ ?_
    | split

theorem execProgramLoad_keeps {a0 : State} (msg : Nat) (s : State) (h0 : Keeps a0 s) : KeepsN a0 (execProgramLoad msg s) := by
  unfold execProgramLoad
  try dsimp only
  with_reducible repeat' first
    | assumption
    | rfl
    | apply KeepsN.next
    | apply KeepsN.fault
    | apply KeepsE.ok
    | exact KeepsE.error
    | apply KeepsE1.ok
    | exact KeepsE1.error
    | apply sessionRun_keeps
    | apply loadImage_keeps
    | apply sealedAnswer_keeps
    | apply noteStore_keeps
    | refine Keeps.fst (by assumption) ?_
    | refine Keeps.snd (by assumption) ?_
    | refine Keeps.get (by assumption) ?_
    | refine Keeps.get1 (by assumption) ?_
    | refine Keeps.get1' (by assumption) ?_
    | refine KeepsN.get (by assumption) ?_
    | refine Keeps.ok (by assumption) ?_
    | refine Keeps.ok1 (by assumption) ?_
    | intro _
    | split

theorem execProgramFree_keeps {a0 : State} (number : Nat) (s : State) (h0 : Keeps a0 s) : KeepsN a0 (execProgramFree number s) := by
  unfold execProgramFree
  try dsimp only
  with_reducible repeat' first
    | assumption
    | rfl
    | apply KeepsN.next
    | apply KeepsN.fault
    | apply KeepsE.ok
    | exact KeepsE.error
    | apply KeepsE1.ok
    | exact KeepsE1.error
    | apply emit_keeps
    | apply noteStore_keeps
    | apply removeProg_keeps
    | split

end Sys2Proof.Laws
end

