-- ==== Sys2Proof/Laws/KeepsDeltas.lean ====
section
/-!
SUPPORT. The operations of Machine/Deltas.lean keep what Laws/Keeps.lean says.
-/
namespace Sys2Proof.Laws
open Sys2Proof.Machine

theorem startDelta_keeps {a0 : State} (s : State) (msg : Nat) (b : List Byte) (h : CfgHdr) (h0 : Keeps a0 s) : Keeps a0 (startDelta s msg b h) := by
  unfold startDelta
  try dsimp only
  with_reducible repeat' first
    | assumption
    | rfl
    | apply KeepsO.some
    | exact KeepsO.none
    | apply KeepsO1.some
    | apply KeepsO1.some'
    | exact KeepsO1.none
    | apply setPhase_keeps
    | apply modLife_keeps
    | split

theorem execConfigDelta_keeps {a0 : State} (msg : Nat) (s : State) (h0 : Keeps a0 s) : KeepsN a0 (execConfigDelta msg s) := by
  unfold execConfigDelta
  try dsimp only
  with_reducible repeat' first
    | assumption
    | rfl
    | apply KeepsN.next
    | apply KeepsN.fault
    | apply KeepsO.some
    | exact KeepsO.none
    | apply KeepsO1.some
    | apply KeepsO1.some'
    | exact KeepsO1.none
    | apply KeepsE.ok
    | exact KeepsE.error
    | apply KeepsE1.ok
    | exact KeepsE1.error
    | apply mgmtRun_keeps
    | apply mgmtAnswer_keeps
    | apply bump_keeps
    | apply startDelta_keeps
    | apply sessionRun_keeps
    | apply sealedAnswer_keeps
    | refine Keeps.fst (by assumption) ?_
    | refine Keeps.snd (by assumption) ?_
    | refine Keeps.get (by assumption) ?_
    | refine Keeps.get1 (by assumption) ?_
    | refine Keeps.get1' (by assumption) ?_
    | refine KeepsN.get (by assumption) ?_
    | refine Keeps.ok (by assumption) ?_
    | refine Keeps.ok1 (by assumption) ?_
    | intro _
    | split

theorem takeField_keeps {a0 : State} (s : State) (b : List Byte) (start : Bool) (r : Reg) (p : Nat × Nat) (h0 : Keeps a0 s) : Keeps a0 (takeField s b start r p) := by
  unfold takeField
  try dsimp only
  with_reducible repeat' first
    | assumption
    | rfl
    | apply KeepsO.some
    | exact KeepsO.none
    | apply KeepsO1.some
    | apply KeepsO1.some'
    | exact KeepsO1.none
    | apply rset_keeps
    | apply putField_keeps
    | refine Keeps.fst (by assumption) ?_
    | refine Keeps.snd (by assumption) ?_
    | refine Keeps.get (by assumption) ?_
    | refine Keeps.get1 (by assumption) ?_
    | refine Keeps.get1' (by assumption) ?_
    | refine Keeps.ok (by assumption) ?_
    | refine Keeps.ok1 (by assumption) ?_
    | split

theorem takeProfile_keeps {a0 : State} (s : State) (b : List Byte) (seq : Nat) (start : Bool) (h0 : Keeps a0 s) : Keeps a0 (takeProfile s b seq start) := by
  unfold takeProfile
  try dsimp only
  with_reducible repeat' first
    | assumption
    | rfl
    | apply modLife_keeps
    | apply journal_keeps
    | split

theorem takePrograms_keeps {a0 : State} (s : State) (b : List Byte) (h0 : Keeps a0 s) : Keeps a0 (takePrograms s b) := by
  unfold takePrograms
  try dsimp only
  with_reducible repeat' first
    | assumption
    | rfl
    | apply loadImage_keeps
    | refine Keeps.foldl (fun _ _ _ => ?_) _ ?_
    | refine Keeps.foldl1 (fun _ _ _ => ?_) _ ?_
    | split

theorem applyClass_keeps {a0 : State} (start : Bool) (s : State) (c : Nat) (h0 : Keeps a0 s) : Keeps a0 (applyClass start s c) := by
  unfold applyClass
  try dsimp only
  with_reducible repeat' first
    | assumption
    | rfl
    | apply takeField_keeps
    | apply takeProfile_keeps
    | apply takePrograms_keeps
    | refine Keeps.foldl (fun _ _ _ => ?_) _ ?_
    | refine Keeps.foldl1 (fun _ _ _ => ?_) _ ?_
    | split

theorem dropKeys_keeps {a0 : State} (s : State) (old : Trust) (new : Trust) (h0 : Keeps a0 s) : Keeps a0 (dropKeys s old new) := by
  unfold dropKeys
  try dsimp only
  with_reducible repeat' first
    | assumption
    | rfl
    | apply modTrust_keeps
    | split

theorem commitSlot_keeps {a0 : State} (s : State) (j : DeltaJob) (h0 : Keeps a0 s) : Keeps a0 (commitSlot s j) := by
  unfold commitSlot
  try dsimp only
  with_reducible repeat' first
    | assumption
    | rfl
    | apply KeepsO.some
    | exact KeepsO.none
    | apply KeepsO1.some
    | apply KeepsO1.some'
    | exact KeepsO1.none
    | apply modLife_keeps
    | apply bump_keeps
    | apply journal_keeps
    | refine KeepsO.getD ?_ ?_
    | refine KeepsO1.getD ?_ ?_
    | refine KeepsO.map ?_ (fun _ _ => ?_)
    | refine KeepsO.map1 ?_ (fun _ _ => ?_)
    | refine KeepsO.map0 (fun _ => ?_)
    | refine KeepsO1.map ?_ (fun _ _ => ?_)
    | refine KeepsO1.map1 ?_ (fun _ _ => ?_)
    | refine KeepsO1.map0 (fun _ => ?_)
    | split

theorem answerDelta_keeps {a0 : State} (s : State) (j : DeltaJob) (h0 : Keeps a0 s) : Keeps a0 (answerDelta s j) := by
  unfold answerDelta
  try dsimp only
  with_reducible repeat' first
    | assumption
    | rfl
    | apply KeepsO.some
    | exact KeepsO.none
    | apply KeepsO1.some
    | apply KeepsO1.some'
    | exact KeepsO1.none
    | apply KeepsE.ok
    | exact KeepsE.error
    | apply KeepsE1.ok
    | exact KeepsE1.error
    | apply mgmtAnswer_keeps
    | apply sealedAnswer_keeps
    | refine Keeps.fst (by assumption) ?_
    | refine Keeps.snd (by assumption) ?_
    | refine Keeps.get (by assumption) ?_
    | refine Keeps.get1 (by assumption) ?_
    | refine Keeps.get1' (by assumption) ?_
    | refine Keeps.ok (by assumption) ?_
    | refine Keeps.ok1 (by assumption) ?_
    | split

theorem commitDelta_keeps {a0 : State} (s : State) (j : DeltaJob) (h0 : Keeps a0 s) : Keeps a0 (commitDelta s j) := by
  unfold commitDelta
  try dsimp only
  with_reducible repeat' first
    | assumption
    | rfl
    | apply commitSlot_keeps
    | apply loseDies_keeps
    | apply answerDelta_keeps
    | apply applyClass_keeps
    | apply putField_keeps
    | apply dropKeys_keeps
    | refine Keeps.foldl (fun _ _ _ => ?_) _ ?_
    | refine Keeps.foldl1 (fun _ _ _ => ?_) _ ?_
    | split

theorem execDeltaCommit_keeps {a0 : State} (s : State) (h0 : Keeps a0 s) : KeepsN a0 (execDeltaCommit s) := by
  unfold execDeltaCommit
  try dsimp only
  with_reducible repeat' first
    | assumption
    | rfl
    | apply KeepsN.next
    | apply KeepsN.fault
    | apply KeepsO.some
    | exact KeepsO.none
    | apply KeepsO1.some
    | apply KeepsO1.some'
    | exact KeepsO1.none
    | apply commitDelta_keeps
    | refine Keeps.fst (by assumption) ?_
    | refine Keeps.snd (by assumption) ?_
    | refine Keeps.get (by assumption) ?_
    | refine Keeps.get1 (by assumption) ?_
    | refine Keeps.get1' (by assumption) ?_
    | refine KeepsN.get (by assumption) ?_
    | refine Keeps.ok (by assumption) ?_
    | refine Keeps.ok1 (by assumption) ?_
    | split

end Sys2Proof.Laws
end

