-- ==== Sys2Proof/Laws/KeepsStart.lean ====
section
/-!
SUPPORT. The operations of Machine/Start.lean keep what Laws/Keeps.lean says.
-/
namespace Sys2Proof.Laws
open Sys2Proof.Machine

theorem hubsLeave_keeps {a0 : State} (s : State) (strap : Bool) (h0 : Keeps a0 s) : Keeps a0 (hubsLeave s strap) := by
  unfold hubsLeave
  try dsimp only
  with_reducible repeat' first
    | assumption
    | rfl
    | apply modPower_keeps
    | apply trainPort_keeps
    | apply modMem_keeps
    | refine modLife_boots ?_ rfl rfl
    | apply modLife_keeps
    | refine KeepsO.getD ?_ ?_
    | refine KeepsO1.getD ?_ ?_
    | refine KeepsO.map ?_ (fun _ _ => ?_)
    | refine KeepsO.map1 ?_ (fun _ _ => ?_)
    | refine KeepsO.map0 (fun _ => ?_)
    | refine KeepsO1.map ?_ (fun _ _ => ?_)
    | refine KeepsO1.map1 ?_ (fun _ _ => ?_)
    | refine KeepsO1.map0 (fun _ => ?_)
    | refine Keeps.foldl (fun _ _ _ => ?_) _ ?_
    | refine Keeps.foldl1 (fun _ _ _ => ?_) _ ?_
    | split

theorem checkMap_keeps {a0 : State} (s : State) (nand : NandFacts) (h0 : Keeps a0 s) : Keeps a0 (checkMap s nand) := by
  unfold checkMap
  try dsimp only
  with_reducible repeat' first
    | assumption
    | rfl
    | apply modLife_keeps
    | apply selfTest_keeps
    | apply writeKgm_keeps
    | split

theorem applyEntry_keeps {a0 : State} (s : State) (e : Nat × Nat × Nat × Nat × Nat) (h0 : Keeps a0 s) : Keeps a0 (applyEntry s e) := by
  unfold applyEntry
  try dsimp only
  with_reducible repeat' first
    | assumption
    | rfl
    | apply modSlice_keeps
    | apply modHub_keeps
    | apply moveArea_keeps
    | apply modBank_keeps
    | apply modMem_keeps
    | apply modChive_keeps
    | refine Keeps.fst (by assumption) ?_
    | refine Keeps.snd (by assumption) ?_
    | refine Keeps.get (by assumption) ?_
    | refine Keeps.get1 (by assumption) ?_
    | refine Keeps.get1' (by assumption) ?_
    | refine Keeps.ok (by assumption) ?_
    | refine Keeps.ok1 (by assumption) ?_
    | split

theorem trainLinks_keeps {a0 : State} (s : State) (h0 : Keeps a0 s) : Keeps a0 (trainLinks s) := by
  unfold trainLinks
  try dsimp only
  with_reducible repeat' first
    | assumption
    | rfl
    | apply modLife_keeps
    | apply testNo_keeps
    | apply endTest_keeps
    | refine Keeps.foldl (fun _ _ _ => ?_) _ ?_
    | refine Keeps.foldl1 (fun _ _ _ => ?_) _ ?_
    | refine Keeps.fst (by assumption) ?_
    | refine Keeps.snd (by assumption) ?_
    | refine Keeps.get (by assumption) ?_
    | refine Keeps.get1 (by assumption) ?_
    | refine Keeps.get1' (by assumption) ?_
    | refine Keeps.ok (by assumption) ?_
    | refine Keeps.ok1 (by assumption) ?_
    | split

theorem applyMap_keeps {a0 : State} (s : State) (h0 : Keeps a0 s) : Keeps a0 (applyMap s) := by
  unfold applyMap
  try dsimp only
  with_reducible repeat' first
    | assumption
    | rfl
    | apply rehomeAll_keeps
    | apply applyEntry_keeps
    | refine Keeps.foldl (fun _ _ _ => ?_) _ ?_
    | refine Keeps.foldl1 (fun _ _ _ => ?_) _ ?_
    | split

theorem installShipped_keeps {a0 : State} (s : State) (h0 : Keeps a0 s) : Keeps a0 (installShipped s) := by
  unfold installShipped
  try dsimp only
  with_reducible repeat' first
    | assumption
    | rfl
    | apply installProg_keeps
    | refine Keeps.foldl (fun _ _ _ => ?_) _ ?_
    | refine Keeps.foldl1 (fun _ _ _ => ?_) _ ?_
    | refine Keeps.fst (by assumption) ?_
    | refine Keeps.snd (by assumption) ?_
    | refine Keeps.get (by assumption) ?_
    | refine Keeps.get1 (by assumption) ?_
    | refine Keeps.get1' (by assumption) ?_
    | refine Keeps.ok (by assumption) ?_
    | refine Keeps.ok1 (by assumption) ?_
    | split

theorem installKernels_keeps {a0 : State} (s : State) (h0 : Keeps a0 s) : Keeps a0 (installKernels s) := by
  unfold installKernels
  try dsimp only
  with_reducible repeat' first
    | assumption
    | rfl
    | apply rset_keeps
    | refine Keeps.foldl (fun _ _ _ => ?_) _ ?_
    | refine Keeps.foldl1 (fun _ _ _ => ?_) _ ?_
    | split

theorem applyAll_keeps {a0 : State} (s : State) (h0 : Keeps a0 s) : Keeps a0 (applyAll s) := by
  unfold applyAll
  try dsimp only
  with_reducible repeat' first
    | assumption
    | rfl
    | apply installKernels_keeps
    | apply applyClass_keeps
    | apply installShipped_keeps
    | refine Keeps.foldl (fun _ _ _ => ?_) _ ?_
    | refine Keeps.foldl1 (fun _ _ _ => ?_) _ ?_
    | split

theorem resumeJournal_keeps {a0 : State} (s : State) (nand : NandFacts) (h0 : Keeps a0 s) : Keeps a0 (resumeJournal s nand) := by
  unfold resumeJournal
  try dsimp only
  with_reducible repeat' first
    | assumption
    | rfl
    | apply resumeHealth_keeps
    | apply mountJournal_keeps
    | apply modTrust_keeps
    | refine KeepsO.getD ?_ ?_
    | refine KeepsO1.getD ?_ ?_
    | refine KeepsO.map ?_ (fun _ _ => ?_)
    | refine KeepsO.map1 ?_ (fun _ _ => ?_)
    | refine KeepsO.map0 (fun _ => ?_)
    | refine KeepsO1.map ?_ (fun _ _ => ?_)
    | refine KeepsO1.map1 ?_ (fun _ _ => ?_)
    | refine KeepsO1.map0 (fun _ => ?_)
    | split

theorem recordStart_keeps {a0 : State} (s : State) (h0 : Keeps a0 s) : Keeps a0 (recordStart s) := by
  unfold recordStart
  try dsimp only
  with_reducible repeat' first
    | assumption
    | rfl
    | apply KeepsO.some
    | exact KeepsO.none
    | apply KeepsO1.some
    | apply KeepsO1.some'
    | exact KeepsO1.none
    | apply journal_keeps
    | apply modPower_keeps
    | apply healthEvent_keeps
    | refine Keeps.fst (by assumption) ?_
    | refine Keeps.snd (by assumption) ?_
    | refine Keeps.get (by assumption) ?_
    | refine Keeps.get1 (by assumption) ?_
    | refine Keeps.get1' (by assumption) ?_
    | refine Keeps.ok (by assumption) ?_
    | refine Keeps.ok1 (by assumption) ?_
    | split

theorem enterService_keeps {a0 : State} (s : State) (h0 : Keeps a0 s) : Keeps a0 (enterService s) := by
  unfold enterService
  try dsimp only
  with_reducible repeat' first
    | assumption
    | rfl
    | apply settleLevels_keeps
    | apply modPower_keeps
    | apply modLife_keeps
    | split

theorem startNode_keeps {a0 : State} (s : State) (strap : Bool) (nand : NandFacts) (h0 : Keeps a0 s) : Keeps a0 (startNode s strap nand) := by
  unfold startNode
  try dsimp only
  with_reducible repeat' first
    | assumption
    | rfl
    | apply KeepsO.some
    | exact KeepsO.none
    | apply KeepsO1.some
    | apply KeepsO1.some'
    | exact KeepsO1.none
    | apply hubsLeave_keeps
    | apply applyMap_keeps
    | apply trainLinks_keeps
    | apply checkMap_keeps
    | apply modLife_keeps
    | apply recordStart_keeps
    | apply resumeJournal_keeps
    | apply enterService_keeps
    | apply applyAll_keeps
    | refine Keeps.fst (by assumption) ?_
    | refine Keeps.snd (by assumption) ?_
    | refine Keeps.get (by assumption) ?_
    | refine Keeps.get1 (by assumption) ?_
    | refine Keeps.get1' (by assumption) ?_
    | refine Keeps.ok (by assumption) ?_
    | refine Keeps.ok1 (by assumption) ?_
    | split

theorem execResetRelease_keeps {a0 : State} (strap : Bool) (nand : NandFacts) (s : State) (h0 : Keeps a0 s) : KeepsN a0 (execResetRelease strap nand s) := by
  unfold execResetRelease
  try dsimp only
  with_reducible repeat' first
    | assumption
    | rfl
    | apply KeepsN.next
    | apply KeepsN.fault
    | apply startNode_keeps
    | apply modPower_keeps
    | split

end Sys2Proof.Laws
end

