-- ==== Sys2Proof/Laws/State.lean ====
section
/-!
SUPPORT. One lemma per field of State and per operation that changes one part of it: each is true by unfolding, and no later
proof need unfold a record update.
-/
namespace Sys2Proof.Laws
open Sys2Proof.Machine

/-! ## modMem -/

@[simp] theorem modMem_pending (s : State) (f : MemSt → MemSt) : (modMem s f).pending = s.pending := rfl
@[simp] theorem modMem_out (s : State) (f : MemSt → MemSt) : (modMem s f).out = s.out := rfl
@[simp] theorem modMem_freeCtr (s : State) (f : MemSt → MemSt) : (modMem s f).freeCtr = s.freeCtr := rfl
@[simp] theorem modMem_nextId (s : State) (f : MemSt → MemSt) : (modMem s f).nextId = s.nextId := rfl
@[simp] theorem modMem_msgs (s : State) (f : MemSt → MemSt) : (modMem s f).msgs = s.msgs := rfl
@[simp] theorem modMem_regs (s : State) (f : MemSt → MemSt) : (modMem s f).regs = s.regs := rfl
@[simp] theorem modMem_mem (s : State) (f : MemSt → MemSt) : (modMem s f).mem = f s.mem := rfl
@[simp] theorem modMem_seqs (s : State) (f : MemSt → MemSt) : (modMem s f).seqs = s.seqs := rfl
@[simp] theorem modMem_merge (s : State) (f : MemSt → MemSt) : (modMem s f).merge = s.merge := rfl
@[simp] theorem modMem_fab (s : State) (f : MemSt → MemSt) : (modMem s f).fab = s.fab := rfl
@[simp] theorem modMem_traf (s : State) (f : MemSt → MemSt) : (modMem s f).traf = s.traf := rfl
@[simp] theorem modMem_ledg (s : State) (f : MemSt → MemSt) : (modMem s f).ledg = s.ledg := rfl
@[simp] theorem modMem_regn (s : State) (f : MemSt → MemSt) : (modMem s f).regn = s.regn := rfl
@[simp] theorem modMem_chive (s : State) (f : MemSt → MemSt) : (modMem s f).chive = s.chive := rfl
@[simp] theorem modMem_dill (s : State) (f : MemSt → MemSt) : (modMem s f).dill = s.dill := rfl
@[simp] theorem modMem_host (s : State) (f : MemSt → MemSt) : (modMem s f).host = s.host := rfl
@[simp] theorem modMem_trust (s : State) (f : MemSt → MemSt) : (modMem s f).trust = s.trust := rfl
@[simp] theorem modMem_life (s : State) (f : MemSt → MemSt) : (modMem s f).life = s.life := rfl
@[simp] theorem modMem_health (s : State) (f : MemSt → MemSt) : (modMem s f).health = s.health := rfl
@[simp] theorem modMem_jrnl (s : State) (f : MemSt → MemSt) : (modMem s f).jrnl = s.jrnl := rfl
@[simp] theorem modMem_power (s : State) (f : MemSt → MemSt) : (modMem s f).power = s.power := rfl
@[simp] theorem modMem_taps (s : State) (f : MemSt → MemSt) : (modMem s f).taps = s.taps := rfl

/-! ## modSeqs -/

@[simp] theorem modSeqs_pending (s : State) (f : SeqSt → SeqSt) : (modSeqs s f).pending = s.pending := rfl
@[simp] theorem modSeqs_out (s : State) (f : SeqSt → SeqSt) : (modSeqs s f).out = s.out := rfl
@[simp] theorem modSeqs_freeCtr (s : State) (f : SeqSt → SeqSt) : (modSeqs s f).freeCtr = s.freeCtr := rfl
@[simp] theorem modSeqs_nextId (s : State) (f : SeqSt → SeqSt) : (modSeqs s f).nextId = s.nextId := rfl
@[simp] theorem modSeqs_msgs (s : State) (f : SeqSt → SeqSt) : (modSeqs s f).msgs = s.msgs := rfl
@[simp] theorem modSeqs_regs (s : State) (f : SeqSt → SeqSt) : (modSeqs s f).regs = s.regs := rfl
@[simp] theorem modSeqs_mem (s : State) (f : SeqSt → SeqSt) : (modSeqs s f).mem = s.mem := rfl
@[simp] theorem modSeqs_seqs (s : State) (f : SeqSt → SeqSt) : (modSeqs s f).seqs = f s.seqs := rfl
@[simp] theorem modSeqs_merge (s : State) (f : SeqSt → SeqSt) : (modSeqs s f).merge = s.merge := rfl
@[simp] theorem modSeqs_fab (s : State) (f : SeqSt → SeqSt) : (modSeqs s f).fab = s.fab := rfl
@[simp] theorem modSeqs_traf (s : State) (f : SeqSt → SeqSt) : (modSeqs s f).traf = s.traf := rfl
@[simp] theorem modSeqs_ledg (s : State) (f : SeqSt → SeqSt) : (modSeqs s f).ledg = s.ledg := rfl
@[simp] theorem modSeqs_regn (s : State) (f : SeqSt → SeqSt) : (modSeqs s f).regn = s.regn := rfl
@[simp] theorem modSeqs_chive (s : State) (f : SeqSt → SeqSt) : (modSeqs s f).chive = s.chive := rfl
@[simp] theorem modSeqs_dill (s : State) (f : SeqSt → SeqSt) : (modSeqs s f).dill = s.dill := rfl
@[simp] theorem modSeqs_host (s : State) (f : SeqSt → SeqSt) : (modSeqs s f).host = s.host := rfl
@[simp] theorem modSeqs_trust (s : State) (f : SeqSt → SeqSt) : (modSeqs s f).trust = s.trust := rfl
@[simp] theorem modSeqs_life (s : State) (f : SeqSt → SeqSt) : (modSeqs s f).life = s.life := rfl
@[simp] theorem modSeqs_health (s : State) (f : SeqSt → SeqSt) : (modSeqs s f).health = s.health := rfl
@[simp] theorem modSeqs_jrnl (s : State) (f : SeqSt → SeqSt) : (modSeqs s f).jrnl = s.jrnl := rfl
@[simp] theorem modSeqs_power (s : State) (f : SeqSt → SeqSt) : (modSeqs s f).power = s.power := rfl
@[simp] theorem modSeqs_taps (s : State) (f : SeqSt → SeqSt) : (modSeqs s f).taps = s.taps := rfl

/-! ## modMerge -/

@[simp] theorem modMerge_pending (s : State) (f : MergeSt → MergeSt) : (modMerge s f).pending = s.pending := rfl
@[simp] theorem modMerge_out (s : State) (f : MergeSt → MergeSt) : (modMerge s f).out = s.out := rfl
@[simp] theorem modMerge_freeCtr (s : State) (f : MergeSt → MergeSt) : (modMerge s f).freeCtr = s.freeCtr := rfl
@[simp] theorem modMerge_nextId (s : State) (f : MergeSt → MergeSt) : (modMerge s f).nextId = s.nextId := rfl
@[simp] theorem modMerge_msgs (s : State) (f : MergeSt → MergeSt) : (modMerge s f).msgs = s.msgs := rfl
@[simp] theorem modMerge_regs (s : State) (f : MergeSt → MergeSt) : (modMerge s f).regs = s.regs := rfl
@[simp] theorem modMerge_mem (s : State) (f : MergeSt → MergeSt) : (modMerge s f).mem = s.mem := rfl
@[simp] theorem modMerge_seqs (s : State) (f : MergeSt → MergeSt) : (modMerge s f).seqs = s.seqs := rfl
@[simp] theorem modMerge_merge (s : State) (f : MergeSt → MergeSt) : (modMerge s f).merge = f s.merge := rfl
@[simp] theorem modMerge_fab (s : State) (f : MergeSt → MergeSt) : (modMerge s f).fab = s.fab := rfl
@[simp] theorem modMerge_traf (s : State) (f : MergeSt → MergeSt) : (modMerge s f).traf = s.traf := rfl
@[simp] theorem modMerge_ledg (s : State) (f : MergeSt → MergeSt) : (modMerge s f).ledg = s.ledg := rfl
@[simp] theorem modMerge_regn (s : State) (f : MergeSt → MergeSt) : (modMerge s f).regn = s.regn := rfl
@[simp] theorem modMerge_chive (s : State) (f : MergeSt → MergeSt) : (modMerge s f).chive = s.chive := rfl
@[simp] theorem modMerge_dill (s : State) (f : MergeSt → MergeSt) : (modMerge s f).dill = s.dill := rfl
@[simp] theorem modMerge_host (s : State) (f : MergeSt → MergeSt) : (modMerge s f).host = s.host := rfl
@[simp] theorem modMerge_trust (s : State) (f : MergeSt → MergeSt) : (modMerge s f).trust = s.trust := rfl
@[simp] theorem modMerge_life (s : State) (f : MergeSt → MergeSt) : (modMerge s f).life = s.life := rfl
@[simp] theorem modMerge_health (s : State) (f : MergeSt → MergeSt) : (modMerge s f).health = s.health := rfl
@[simp] theorem modMerge_jrnl (s : State) (f : MergeSt → MergeSt) : (modMerge s f).jrnl = s.jrnl := rfl
@[simp] theorem modMerge_power (s : State) (f : MergeSt → MergeSt) : (modMerge s f).power = s.power := rfl
@[simp] theorem modMerge_taps (s : State) (f : MergeSt → MergeSt) : (modMerge s f).taps = s.taps := rfl

/-! ## modFab -/

@[simp] theorem modFab_pending (s : State) (f : FabSt → FabSt) : (modFab s f).pending = s.pending := rfl
@[simp] theorem modFab_out (s : State) (f : FabSt → FabSt) : (modFab s f).out = s.out := rfl
@[simp] theorem modFab_freeCtr (s : State) (f : FabSt → FabSt) : (modFab s f).freeCtr = s.freeCtr := rfl
@[simp] theorem modFab_nextId (s : State) (f : FabSt → FabSt) : (modFab s f).nextId = s.nextId := rfl
@[simp] theorem modFab_msgs (s : State) (f : FabSt → FabSt) : (modFab s f).msgs = s.msgs := rfl
@[simp] theorem modFab_regs (s : State) (f : FabSt → FabSt) : (modFab s f).regs = s.regs := rfl
@[simp] theorem modFab_mem (s : State) (f : FabSt → FabSt) : (modFab s f).mem = s.mem := rfl
@[simp] theorem modFab_seqs (s : State) (f : FabSt → FabSt) : (modFab s f).seqs = s.seqs := rfl
@[simp] theorem modFab_merge (s : State) (f : FabSt → FabSt) : (modFab s f).merge = s.merge := rfl
@[simp] theorem modFab_fab (s : State) (f : FabSt → FabSt) : (modFab s f).fab = f s.fab := rfl
@[simp] theorem modFab_traf (s : State) (f : FabSt → FabSt) : (modFab s f).traf = s.traf := rfl
@[simp] theorem modFab_ledg (s : State) (f : FabSt → FabSt) : (modFab s f).ledg = s.ledg := rfl
@[simp] theorem modFab_regn (s : State) (f : FabSt → FabSt) : (modFab s f).regn = s.regn := rfl
@[simp] theorem modFab_chive (s : State) (f : FabSt → FabSt) : (modFab s f).chive = s.chive := rfl
@[simp] theorem modFab_dill (s : State) (f : FabSt → FabSt) : (modFab s f).dill = s.dill := rfl
@[simp] theorem modFab_host (s : State) (f : FabSt → FabSt) : (modFab s f).host = s.host := rfl
@[simp] theorem modFab_trust (s : State) (f : FabSt → FabSt) : (modFab s f).trust = s.trust := rfl
@[simp] theorem modFab_life (s : State) (f : FabSt → FabSt) : (modFab s f).life = s.life := rfl
@[simp] theorem modFab_health (s : State) (f : FabSt → FabSt) : (modFab s f).health = s.health := rfl
@[simp] theorem modFab_jrnl (s : State) (f : FabSt → FabSt) : (modFab s f).jrnl = s.jrnl := rfl
@[simp] theorem modFab_power (s : State) (f : FabSt → FabSt) : (modFab s f).power = s.power := rfl
@[simp] theorem modFab_taps (s : State) (f : FabSt → FabSt) : (modFab s f).taps = s.taps := rfl

/-! ## modTraf -/

@[simp] theorem modTraf_pending (s : State) (f : TrafSt → TrafSt) : (modTraf s f).pending = s.pending := rfl
@[simp] theorem modTraf_out (s : State) (f : TrafSt → TrafSt) : (modTraf s f).out = s.out := rfl
@[simp] theorem modTraf_freeCtr (s : State) (f : TrafSt → TrafSt) : (modTraf s f).freeCtr = s.freeCtr := rfl
@[simp] theorem modTraf_nextId (s : State) (f : TrafSt → TrafSt) : (modTraf s f).nextId = s.nextId := rfl
@[simp] theorem modTraf_msgs (s : State) (f : TrafSt → TrafSt) : (modTraf s f).msgs = s.msgs := rfl
@[simp] theorem modTraf_regs (s : State) (f : TrafSt → TrafSt) : (modTraf s f).regs = s.regs := rfl
@[simp] theorem modTraf_mem (s : State) (f : TrafSt → TrafSt) : (modTraf s f).mem = s.mem := rfl
@[simp] theorem modTraf_seqs (s : State) (f : TrafSt → TrafSt) : (modTraf s f).seqs = s.seqs := rfl
@[simp] theorem modTraf_merge (s : State) (f : TrafSt → TrafSt) : (modTraf s f).merge = s.merge := rfl
@[simp] theorem modTraf_fab (s : State) (f : TrafSt → TrafSt) : (modTraf s f).fab = s.fab := rfl
@[simp] theorem modTraf_traf (s : State) (f : TrafSt → TrafSt) : (modTraf s f).traf = f s.traf := rfl
@[simp] theorem modTraf_ledg (s : State) (f : TrafSt → TrafSt) : (modTraf s f).ledg = s.ledg := rfl
@[simp] theorem modTraf_regn (s : State) (f : TrafSt → TrafSt) : (modTraf s f).regn = s.regn := rfl
@[simp] theorem modTraf_chive (s : State) (f : TrafSt → TrafSt) : (modTraf s f).chive = s.chive := rfl
@[simp] theorem modTraf_dill (s : State) (f : TrafSt → TrafSt) : (modTraf s f).dill = s.dill := rfl
@[simp] theorem modTraf_host (s : State) (f : TrafSt → TrafSt) : (modTraf s f).host = s.host := rfl
@[simp] theorem modTraf_trust (s : State) (f : TrafSt → TrafSt) : (modTraf s f).trust = s.trust := rfl
@[simp] theorem modTraf_life (s : State) (f : TrafSt → TrafSt) : (modTraf s f).life = s.life := rfl
@[simp] theorem modTraf_health (s : State) (f : TrafSt → TrafSt) : (modTraf s f).health = s.health := rfl
@[simp] theorem modTraf_jrnl (s : State) (f : TrafSt → TrafSt) : (modTraf s f).jrnl = s.jrnl := rfl
@[simp] theorem modTraf_power (s : State) (f : TrafSt → TrafSt) : (modTraf s f).power = s.power := rfl
@[simp] theorem modTraf_taps (s : State) (f : TrafSt → TrafSt) : (modTraf s f).taps = s.taps := rfl

/-! ## modLedg -/

@[simp] theorem modLedg_pending (s : State) (f : LedgSt → LedgSt) : (modLedg s f).pending = s.pending := rfl
@[simp] theorem modLedg_out (s : State) (f : LedgSt → LedgSt) : (modLedg s f).out = s.out := rfl
@[simp] theorem modLedg_freeCtr (s : State) (f : LedgSt → LedgSt) : (modLedg s f).freeCtr = s.freeCtr := rfl
@[simp] theorem modLedg_nextId (s : State) (f : LedgSt → LedgSt) : (modLedg s f).nextId = s.nextId := rfl
@[simp] theorem modLedg_msgs (s : State) (f : LedgSt → LedgSt) : (modLedg s f).msgs = s.msgs := rfl
@[simp] theorem modLedg_regs (s : State) (f : LedgSt → LedgSt) : (modLedg s f).regs = s.regs := rfl
@[simp] theorem modLedg_mem (s : State) (f : LedgSt → LedgSt) : (modLedg s f).mem = s.mem := rfl
@[simp] theorem modLedg_seqs (s : State) (f : LedgSt → LedgSt) : (modLedg s f).seqs = s.seqs := rfl
@[simp] theorem modLedg_merge (s : State) (f : LedgSt → LedgSt) : (modLedg s f).merge = s.merge := rfl
@[simp] theorem modLedg_fab (s : State) (f : LedgSt → LedgSt) : (modLedg s f).fab = s.fab := rfl
@[simp] theorem modLedg_traf (s : State) (f : LedgSt → LedgSt) : (modLedg s f).traf = s.traf := rfl
@[simp] theorem modLedg_ledg (s : State) (f : LedgSt → LedgSt) : (modLedg s f).ledg = f s.ledg := rfl
@[simp] theorem modLedg_regn (s : State) (f : LedgSt → LedgSt) : (modLedg s f).regn = s.regn := rfl
@[simp] theorem modLedg_chive (s : State) (f : LedgSt → LedgSt) : (modLedg s f).chive = s.chive := rfl
@[simp] theorem modLedg_dill (s : State) (f : LedgSt → LedgSt) : (modLedg s f).dill = s.dill := rfl
@[simp] theorem modLedg_host (s : State) (f : LedgSt → LedgSt) : (modLedg s f).host = s.host := rfl
@[simp] theorem modLedg_trust (s : State) (f : LedgSt → LedgSt) : (modLedg s f).trust = s.trust := rfl
@[simp] theorem modLedg_life (s : State) (f : LedgSt → LedgSt) : (modLedg s f).life = s.life := rfl
@[simp] theorem modLedg_health (s : State) (f : LedgSt → LedgSt) : (modLedg s f).health = s.health := rfl
@[simp] theorem modLedg_jrnl (s : State) (f : LedgSt → LedgSt) : (modLedg s f).jrnl = s.jrnl := rfl
@[simp] theorem modLedg_power (s : State) (f : LedgSt → LedgSt) : (modLedg s f).power = s.power := rfl
@[simp] theorem modLedg_taps (s : State) (f : LedgSt → LedgSt) : (modLedg s f).taps = s.taps := rfl

/-! ## modRegn -/

@[simp] theorem modRegn_pending (s : State) (f : RegnSt → RegnSt) : (modRegn s f).pending = s.pending := rfl
@[simp] theorem modRegn_out (s : State) (f : RegnSt → RegnSt) : (modRegn s f).out = s.out := rfl
@[simp] theorem modRegn_freeCtr (s : State) (f : RegnSt → RegnSt) : (modRegn s f).freeCtr = s.freeCtr := rfl
@[simp] theorem modRegn_nextId (s : State) (f : RegnSt → RegnSt) : (modRegn s f).nextId = s.nextId := rfl
@[simp] theorem modRegn_msgs (s : State) (f : RegnSt → RegnSt) : (modRegn s f).msgs = s.msgs := rfl
@[simp] theorem modRegn_regs (s : State) (f : RegnSt → RegnSt) : (modRegn s f).regs = s.regs := rfl
@[simp] theorem modRegn_mem (s : State) (f : RegnSt → RegnSt) : (modRegn s f).mem = s.mem := rfl
@[simp] theorem modRegn_seqs (s : State) (f : RegnSt → RegnSt) : (modRegn s f).seqs = s.seqs := rfl
@[simp] theorem modRegn_merge (s : State) (f : RegnSt → RegnSt) : (modRegn s f).merge = s.merge := rfl
@[simp] theorem modRegn_fab (s : State) (f : RegnSt → RegnSt) : (modRegn s f).fab = s.fab := rfl
@[simp] theorem modRegn_traf (s : State) (f : RegnSt → RegnSt) : (modRegn s f).traf = s.traf := rfl
@[simp] theorem modRegn_ledg (s : State) (f : RegnSt → RegnSt) : (modRegn s f).ledg = s.ledg := rfl
@[simp] theorem modRegn_regn (s : State) (f : RegnSt → RegnSt) : (modRegn s f).regn = f s.regn := rfl
@[simp] theorem modRegn_chive (s : State) (f : RegnSt → RegnSt) : (modRegn s f).chive = s.chive := rfl
@[simp] theorem modRegn_dill (s : State) (f : RegnSt → RegnSt) : (modRegn s f).dill = s.dill := rfl
@[simp] theorem modRegn_host (s : State) (f : RegnSt → RegnSt) : (modRegn s f).host = s.host := rfl
@[simp] theorem modRegn_trust (s : State) (f : RegnSt → RegnSt) : (modRegn s f).trust = s.trust := rfl
@[simp] theorem modRegn_life (s : State) (f : RegnSt → RegnSt) : (modRegn s f).life = s.life := rfl
@[simp] theorem modRegn_health (s : State) (f : RegnSt → RegnSt) : (modRegn s f).health = s.health := rfl
@[simp] theorem modRegn_jrnl (s : State) (f : RegnSt → RegnSt) : (modRegn s f).jrnl = s.jrnl := rfl
@[simp] theorem modRegn_power (s : State) (f : RegnSt → RegnSt) : (modRegn s f).power = s.power := rfl
@[simp] theorem modRegn_taps (s : State) (f : RegnSt → RegnSt) : (modRegn s f).taps = s.taps := rfl

/-! ## modChive -/

@[simp] theorem modChive_pending (s : State) (f : ChiveSt → ChiveSt) : (modChive s f).pending = s.pending := rfl
@[simp] theorem modChive_out (s : State) (f : ChiveSt → ChiveSt) : (modChive s f).out = s.out := rfl
@[simp] theorem modChive_freeCtr (s : State) (f : ChiveSt → ChiveSt) : (modChive s f).freeCtr = s.freeCtr := rfl
@[simp] theorem modChive_nextId (s : State) (f : ChiveSt → ChiveSt) : (modChive s f).nextId = s.nextId := rfl
@[simp] theorem modChive_msgs (s : State) (f : ChiveSt → ChiveSt) : (modChive s f).msgs = s.msgs := rfl
@[simp] theorem modChive_regs (s : State) (f : ChiveSt → ChiveSt) : (modChive s f).regs = s.regs := rfl
@[simp] theorem modChive_mem (s : State) (f : ChiveSt → ChiveSt) : (modChive s f).mem = s.mem := rfl
@[simp] theorem modChive_seqs (s : State) (f : ChiveSt → ChiveSt) : (modChive s f).seqs = s.seqs := rfl
@[simp] theorem modChive_merge (s : State) (f : ChiveSt → ChiveSt) : (modChive s f).merge = s.merge := rfl
@[simp] theorem modChive_fab (s : State) (f : ChiveSt → ChiveSt) : (modChive s f).fab = s.fab := rfl
@[simp] theorem modChive_traf (s : State) (f : ChiveSt → ChiveSt) : (modChive s f).traf = s.traf := rfl
@[simp] theorem modChive_ledg (s : State) (f : ChiveSt → ChiveSt) : (modChive s f).ledg = s.ledg := rfl
@[simp] theorem modChive_regn (s : State) (f : ChiveSt → ChiveSt) : (modChive s f).regn = s.regn := rfl
@[simp] theorem modChive_chive (s : State) (f : ChiveSt → ChiveSt) : (modChive s f).chive = f s.chive := rfl
@[simp] theorem modChive_dill (s : State) (f : ChiveSt → ChiveSt) : (modChive s f).dill = s.dill := rfl
@[simp] theorem modChive_host (s : State) (f : ChiveSt → ChiveSt) : (modChive s f).host = s.host := rfl
@[simp] theorem modChive_trust (s : State) (f : ChiveSt → ChiveSt) : (modChive s f).trust = s.trust := rfl
@[simp] theorem modChive_life (s : State) (f : ChiveSt → ChiveSt) : (modChive s f).life = s.life := rfl
@[simp] theorem modChive_health (s : State) (f : ChiveSt → ChiveSt) : (modChive s f).health = s.health := rfl
@[simp] theorem modChive_jrnl (s : State) (f : ChiveSt → ChiveSt) : (modChive s f).jrnl = s.jrnl := rfl
@[simp] theorem modChive_power (s : State) (f : ChiveSt → ChiveSt) : (modChive s f).power = s.power := rfl
@[simp] theorem modChive_taps (s : State) (f : ChiveSt → ChiveSt) : (modChive s f).taps = s.taps := rfl

/-! ## modDill -/

@[simp] theorem modDill_pending (s : State) (f : DillSt → DillSt) : (modDill s f).pending = s.pending := rfl
@[simp] theorem modDill_out (s : State) (f : DillSt → DillSt) : (modDill s f).out = s.out := rfl
@[simp] theorem modDill_freeCtr (s : State) (f : DillSt → DillSt) : (modDill s f).freeCtr = s.freeCtr := rfl
@[simp] theorem modDill_nextId (s : State) (f : DillSt → DillSt) : (modDill s f).nextId = s.nextId := rfl
@[simp] theorem modDill_msgs (s : State) (f : DillSt → DillSt) : (modDill s f).msgs = s.msgs := rfl
@[simp] theorem modDill_regs (s : State) (f : DillSt → DillSt) : (modDill s f).regs = s.regs := rfl
@[simp] theorem modDill_mem (s : State) (f : DillSt → DillSt) : (modDill s f).mem = s.mem := rfl
@[simp] theorem modDill_seqs (s : State) (f : DillSt → DillSt) : (modDill s f).seqs = s.seqs := rfl
@[simp] theorem modDill_merge (s : State) (f : DillSt → DillSt) : (modDill s f).merge = s.merge := rfl
@[simp] theorem modDill_fab (s : State) (f : DillSt → DillSt) : (modDill s f).fab = s.fab := rfl
@[simp] theorem modDill_traf (s : State) (f : DillSt → DillSt) : (modDill s f).traf = s.traf := rfl
@[simp] theorem modDill_ledg (s : State) (f : DillSt → DillSt) : (modDill s f).ledg = s.ledg := rfl
@[simp] theorem modDill_regn (s : State) (f : DillSt → DillSt) : (modDill s f).regn = s.regn := rfl
@[simp] theorem modDill_chive (s : State) (f : DillSt → DillSt) : (modDill s f).chive = s.chive := rfl
@[simp] theorem modDill_dill (s : State) (f : DillSt → DillSt) : (modDill s f).dill = f s.dill := rfl
@[simp] theorem modDill_host (s : State) (f : DillSt → DillSt) : (modDill s f).host = s.host := rfl
@[simp] theorem modDill_trust (s : State) (f : DillSt → DillSt) : (modDill s f).trust = s.trust := rfl
@[simp] theorem modDill_life (s : State) (f : DillSt → DillSt) : (modDill s f).life = s.life := rfl
@[simp] theorem modDill_health (s : State) (f : DillSt → DillSt) : (modDill s f).health = s.health := rfl
@[simp] theorem modDill_jrnl (s : State) (f : DillSt → DillSt) : (modDill s f).jrnl = s.jrnl := rfl
@[simp] theorem modDill_power (s : State) (f : DillSt → DillSt) : (modDill s f).power = s.power := rfl
@[simp] theorem modDill_taps (s : State) (f : DillSt → DillSt) : (modDill s f).taps = s.taps := rfl

/-! ## modHost -/

@[simp] theorem modHost_pending (s : State) (f : HostSt → HostSt) : (modHost s f).pending = s.pending := rfl
@[simp] theorem modHost_out (s : State) (f : HostSt → HostSt) : (modHost s f).out = s.out := rfl
@[simp] theorem modHost_freeCtr (s : State) (f : HostSt → HostSt) : (modHost s f).freeCtr = s.freeCtr := rfl
@[simp] theorem modHost_nextId (s : State) (f : HostSt → HostSt) : (modHost s f).nextId = s.nextId := rfl
@[simp] theorem modHost_msgs (s : State) (f : HostSt → HostSt) : (modHost s f).msgs = s.msgs := rfl
@[simp] theorem modHost_regs (s : State) (f : HostSt → HostSt) : (modHost s f).regs = s.regs := rfl
@[simp] theorem modHost_mem (s : State) (f : HostSt → HostSt) : (modHost s f).mem = s.mem := rfl
@[simp] theorem modHost_seqs (s : State) (f : HostSt → HostSt) : (modHost s f).seqs = s.seqs := rfl
@[simp] theorem modHost_merge (s : State) (f : HostSt → HostSt) : (modHost s f).merge = s.merge := rfl
@[simp] theorem modHost_fab (s : State) (f : HostSt → HostSt) : (modHost s f).fab = s.fab := rfl
@[simp] theorem modHost_traf (s : State) (f : HostSt → HostSt) : (modHost s f).traf = s.traf := rfl
@[simp] theorem modHost_ledg (s : State) (f : HostSt → HostSt) : (modHost s f).ledg = s.ledg := rfl
@[simp] theorem modHost_regn (s : State) (f : HostSt → HostSt) : (modHost s f).regn = s.regn := rfl
@[simp] theorem modHost_chive (s : State) (f : HostSt → HostSt) : (modHost s f).chive = s.chive := rfl
@[simp] theorem modHost_dill (s : State) (f : HostSt → HostSt) : (modHost s f).dill = s.dill := rfl
@[simp] theorem modHost_host (s : State) (f : HostSt → HostSt) : (modHost s f).host = f s.host := rfl
@[simp] theorem modHost_trust (s : State) (f : HostSt → HostSt) : (modHost s f).trust = s.trust := rfl
@[simp] theorem modHost_life (s : State) (f : HostSt → HostSt) : (modHost s f).life = s.life := rfl
@[simp] theorem modHost_health (s : State) (f : HostSt → HostSt) : (modHost s f).health = s.health := rfl
@[simp] theorem modHost_jrnl (s : State) (f : HostSt → HostSt) : (modHost s f).jrnl = s.jrnl := rfl
@[simp] theorem modHost_power (s : State) (f : HostSt → HostSt) : (modHost s f).power = s.power := rfl
@[simp] theorem modHost_taps (s : State) (f : HostSt → HostSt) : (modHost s f).taps = s.taps := rfl

/-! ## modTrust -/

@[simp] theorem modTrust_pending (s : State) (f : TrustSt → TrustSt) : (modTrust s f).pending = s.pending := rfl
@[simp] theorem modTrust_out (s : State) (f : TrustSt → TrustSt) : (modTrust s f).out = s.out := rfl
@[simp] theorem modTrust_freeCtr (s : State) (f : TrustSt → TrustSt) : (modTrust s f).freeCtr = s.freeCtr := rfl
@[simp] theorem modTrust_nextId (s : State) (f : TrustSt → TrustSt) : (modTrust s f).nextId = s.nextId := rfl
@[simp] theorem modTrust_msgs (s : State) (f : TrustSt → TrustSt) : (modTrust s f).msgs = s.msgs := rfl
@[simp] theorem modTrust_regs (s : State) (f : TrustSt → TrustSt) : (modTrust s f).regs = s.regs := rfl
@[simp] theorem modTrust_mem (s : State) (f : TrustSt → TrustSt) : (modTrust s f).mem = s.mem := rfl
@[simp] theorem modTrust_seqs (s : State) (f : TrustSt → TrustSt) : (modTrust s f).seqs = s.seqs := rfl
@[simp] theorem modTrust_merge (s : State) (f : TrustSt → TrustSt) : (modTrust s f).merge = s.merge := rfl
@[simp] theorem modTrust_fab (s : State) (f : TrustSt → TrustSt) : (modTrust s f).fab = s.fab := rfl
@[simp] theorem modTrust_traf (s : State) (f : TrustSt → TrustSt) : (modTrust s f).traf = s.traf := rfl
@[simp] theorem modTrust_ledg (s : State) (f : TrustSt → TrustSt) : (modTrust s f).ledg = s.ledg := rfl
@[simp] theorem modTrust_regn (s : State) (f : TrustSt → TrustSt) : (modTrust s f).regn = s.regn := rfl
@[simp] theorem modTrust_chive (s : State) (f : TrustSt → TrustSt) : (modTrust s f).chive = s.chive := rfl
@[simp] theorem modTrust_dill (s : State) (f : TrustSt → TrustSt) : (modTrust s f).dill = s.dill := rfl
@[simp] theorem modTrust_host (s : State) (f : TrustSt → TrustSt) : (modTrust s f).host = s.host := rfl
@[simp] theorem modTrust_trust (s : State) (f : TrustSt → TrustSt) : (modTrust s f).trust = f s.trust := rfl
@[simp] theorem modTrust_life (s : State) (f : TrustSt → TrustSt) : (modTrust s f).life = s.life := rfl
@[simp] theorem modTrust_health (s : State) (f : TrustSt → TrustSt) : (modTrust s f).health = s.health := rfl
@[simp] theorem modTrust_jrnl (s : State) (f : TrustSt → TrustSt) : (modTrust s f).jrnl = s.jrnl := rfl
@[simp] theorem modTrust_power (s : State) (f : TrustSt → TrustSt) : (modTrust s f).power = s.power := rfl
@[simp] theorem modTrust_taps (s : State) (f : TrustSt → TrustSt) : (modTrust s f).taps = s.taps := rfl

/-! ## modLife -/

@[simp] theorem modLife_pending (s : State) (f : LifeSt → LifeSt) : (modLife s f).pending = s.pending := rfl
@[simp] theorem modLife_out (s : State) (f : LifeSt → LifeSt) : (modLife s f).out = s.out := rfl
@[simp] theorem modLife_freeCtr (s : State) (f : LifeSt → LifeSt) : (modLife s f).freeCtr = s.freeCtr := rfl
@[simp] theorem modLife_nextId (s : State) (f : LifeSt → LifeSt) : (modLife s f).nextId = s.nextId := rfl
@[simp] theorem modLife_msgs (s : State) (f : LifeSt → LifeSt) : (modLife s f).msgs = s.msgs := rfl
@[simp] theorem modLife_regs (s : State) (f : LifeSt → LifeSt) : (modLife s f).regs = s.regs := rfl
@[simp] theorem modLife_mem (s : State) (f : LifeSt → LifeSt) : (modLife s f).mem = s.mem := rfl
@[simp] theorem modLife_seqs (s : State) (f : LifeSt → LifeSt) : (modLife s f).seqs = s.seqs := rfl
@[simp] theorem modLife_merge (s : State) (f : LifeSt → LifeSt) : (modLife s f).merge = s.merge := rfl
@[simp] theorem modLife_fab (s : State) (f : LifeSt → LifeSt) : (modLife s f).fab = s.fab := rfl
@[simp] theorem modLife_traf (s : State) (f : LifeSt → LifeSt) : (modLife s f).traf = s.traf := rfl
@[simp] theorem modLife_ledg (s : State) (f : LifeSt → LifeSt) : (modLife s f).ledg = s.ledg := rfl
@[simp] theorem modLife_regn (s : State) (f : LifeSt → LifeSt) : (modLife s f).regn = s.regn := rfl
@[simp] theorem modLife_chive (s : State) (f : LifeSt → LifeSt) : (modLife s f).chive = s.chive := rfl
@[simp] theorem modLife_dill (s : State) (f : LifeSt → LifeSt) : (modLife s f).dill = s.dill := rfl
@[simp] theorem modLife_host (s : State) (f : LifeSt → LifeSt) : (modLife s f).host = s.host := rfl
@[simp] theorem modLife_trust (s : State) (f : LifeSt → LifeSt) : (modLife s f).trust = s.trust := rfl
@[simp] theorem modLife_life (s : State) (f : LifeSt → LifeSt) : (modLife s f).life = f s.life := rfl
@[simp] theorem modLife_health (s : State) (f : LifeSt → LifeSt) : (modLife s f).health = s.health := rfl
@[simp] theorem modLife_jrnl (s : State) (f : LifeSt → LifeSt) : (modLife s f).jrnl = s.jrnl := rfl
@[simp] theorem modLife_power (s : State) (f : LifeSt → LifeSt) : (modLife s f).power = s.power := rfl
@[simp] theorem modLife_taps (s : State) (f : LifeSt → LifeSt) : (modLife s f).taps = s.taps := rfl

/-! ## modHealth -/

@[simp] theorem modHealth_pending (s : State) (f : HealthSt → HealthSt) : (modHealth s f).pending = s.pending := rfl
@[simp] theorem modHealth_out (s : State) (f : HealthSt → HealthSt) : (modHealth s f).out = s.out := rfl
@[simp] theorem modHealth_freeCtr (s : State) (f : HealthSt → HealthSt) : (modHealth s f).freeCtr = s.freeCtr := rfl
@[simp] theorem modHealth_nextId (s : State) (f : HealthSt → HealthSt) : (modHealth s f).nextId = s.nextId := rfl
@[simp] theorem modHealth_msgs (s : State) (f : HealthSt → HealthSt) : (modHealth s f).msgs = s.msgs := rfl
@[simp] theorem modHealth_regs (s : State) (f : HealthSt → HealthSt) : (modHealth s f).regs = s.regs := rfl
@[simp] theorem modHealth_mem (s : State) (f : HealthSt → HealthSt) : (modHealth s f).mem = s.mem := rfl
@[simp] theorem modHealth_seqs (s : State) (f : HealthSt → HealthSt) : (modHealth s f).seqs = s.seqs := rfl
@[simp] theorem modHealth_merge (s : State) (f : HealthSt → HealthSt) : (modHealth s f).merge = s.merge := rfl
@[simp] theorem modHealth_fab (s : State) (f : HealthSt → HealthSt) : (modHealth s f).fab = s.fab := rfl
@[simp] theorem modHealth_traf (s : State) (f : HealthSt → HealthSt) : (modHealth s f).traf = s.traf := rfl
@[simp] theorem modHealth_ledg (s : State) (f : HealthSt → HealthSt) : (modHealth s f).ledg = s.ledg := rfl
@[simp] theorem modHealth_regn (s : State) (f : HealthSt → HealthSt) : (modHealth s f).regn = s.regn := rfl
@[simp] theorem modHealth_chive (s : State) (f : HealthSt → HealthSt) : (modHealth s f).chive = s.chive := rfl
@[simp] theorem modHealth_dill (s : State) (f : HealthSt → HealthSt) : (modHealth s f).dill = s.dill := rfl
@[simp] theorem modHealth_host (s : State) (f : HealthSt → HealthSt) : (modHealth s f).host = s.host := rfl
@[simp] theorem modHealth_trust (s : State) (f : HealthSt → HealthSt) : (modHealth s f).trust = s.trust := rfl
@[simp] theorem modHealth_life (s : State) (f : HealthSt → HealthSt) : (modHealth s f).life = s.life := rfl
@[simp] theorem modHealth_health (s : State) (f : HealthSt → HealthSt) : (modHealth s f).health = f s.health := rfl
@[simp] theorem modHealth_jrnl (s : State) (f : HealthSt → HealthSt) : (modHealth s f).jrnl = s.jrnl := rfl
@[simp] theorem modHealth_power (s : State) (f : HealthSt → HealthSt) : (modHealth s f).power = s.power := rfl
@[simp] theorem modHealth_taps (s : State) (f : HealthSt → HealthSt) : (modHealth s f).taps = s.taps := rfl

/-! ## modJrnl -/

@[simp] theorem modJrnl_pending (s : State) (f : JrnlSt → JrnlSt) : (modJrnl s f).pending = s.pending := rfl
@[simp] theorem modJrnl_out (s : State) (f : JrnlSt → JrnlSt) : (modJrnl s f).out = s.out := rfl
@[simp] theorem modJrnl_freeCtr (s : State) (f : JrnlSt → JrnlSt) : (modJrnl s f).freeCtr = s.freeCtr := rfl
@[simp] theorem modJrnl_nextId (s : State) (f : JrnlSt → JrnlSt) : (modJrnl s f).nextId = s.nextId := rfl
@[simp] theorem modJrnl_msgs (s : State) (f : JrnlSt → JrnlSt) : (modJrnl s f).msgs = s.msgs := rfl
@[simp] theorem modJrnl_regs (s : State) (f : JrnlSt → JrnlSt) : (modJrnl s f).regs = s.regs := rfl
@[simp] theorem modJrnl_mem (s : State) (f : JrnlSt → JrnlSt) : (modJrnl s f).mem = s.mem := rfl
@[simp] theorem modJrnl_seqs (s : State) (f : JrnlSt → JrnlSt) : (modJrnl s f).seqs = s.seqs := rfl
@[simp] theorem modJrnl_merge (s : State) (f : JrnlSt → JrnlSt) : (modJrnl s f).merge = s.merge := rfl
@[simp] theorem modJrnl_fab (s : State) (f : JrnlSt → JrnlSt) : (modJrnl s f).fab = s.fab := rfl
@[simp] theorem modJrnl_traf (s : State) (f : JrnlSt → JrnlSt) : (modJrnl s f).traf = s.traf := rfl
@[simp] theorem modJrnl_ledg (s : State) (f : JrnlSt → JrnlSt) : (modJrnl s f).ledg = s.ledg := rfl
@[simp] theorem modJrnl_regn (s : State) (f : JrnlSt → JrnlSt) : (modJrnl s f).regn = s.regn := rfl
@[simp] theorem modJrnl_chive (s : State) (f : JrnlSt → JrnlSt) : (modJrnl s f).chive = s.chive := rfl
@[simp] theorem modJrnl_dill (s : State) (f : JrnlSt → JrnlSt) : (modJrnl s f).dill = s.dill := rfl
@[simp] theorem modJrnl_host (s : State) (f : JrnlSt → JrnlSt) : (modJrnl s f).host = s.host := rfl
@[simp] theorem modJrnl_trust (s : State) (f : JrnlSt → JrnlSt) : (modJrnl s f).trust = s.trust := rfl
@[simp] theorem modJrnl_life (s : State) (f : JrnlSt → JrnlSt) : (modJrnl s f).life = s.life := rfl
@[simp] theorem modJrnl_health (s : State) (f : JrnlSt → JrnlSt) : (modJrnl s f).health = s.health := rfl
@[simp] theorem modJrnl_jrnl (s : State) (f : JrnlSt → JrnlSt) : (modJrnl s f).jrnl = f s.jrnl := rfl
@[simp] theorem modJrnl_power (s : State) (f : JrnlSt → JrnlSt) : (modJrnl s f).power = s.power := rfl
@[simp] theorem modJrnl_taps (s : State) (f : JrnlSt → JrnlSt) : (modJrnl s f).taps = s.taps := rfl

/-! ## modPower -/

@[simp] theorem modPower_pending (s : State) (f : Power → Power) : (modPower s f).pending = s.pending := rfl
@[simp] theorem modPower_out (s : State) (f : Power → Power) : (modPower s f).out = s.out := rfl
@[simp] theorem modPower_freeCtr (s : State) (f : Power → Power) : (modPower s f).freeCtr = s.freeCtr := rfl
@[simp] theorem modPower_nextId (s : State) (f : Power → Power) : (modPower s f).nextId = s.nextId := rfl
@[simp] theorem modPower_msgs (s : State) (f : Power → Power) : (modPower s f).msgs = s.msgs := rfl
@[simp] theorem modPower_regs (s : State) (f : Power → Power) : (modPower s f).regs = s.regs := rfl
@[simp] theorem modPower_mem (s : State) (f : Power → Power) : (modPower s f).mem = s.mem := rfl
@[simp] theorem modPower_seqs (s : State) (f : Power → Power) : (modPower s f).seqs = s.seqs := rfl
@[simp] theorem modPower_merge (s : State) (f : Power → Power) : (modPower s f).merge = s.merge := rfl
@[simp] theorem modPower_fab (s : State) (f : Power → Power) : (modPower s f).fab = s.fab := rfl
@[simp] theorem modPower_traf (s : State) (f : Power → Power) : (modPower s f).traf = s.traf := rfl
@[simp] theorem modPower_ledg (s : State) (f : Power → Power) : (modPower s f).ledg = s.ledg := rfl
@[simp] theorem modPower_regn (s : State) (f : Power → Power) : (modPower s f).regn = s.regn := rfl
@[simp] theorem modPower_chive (s : State) (f : Power → Power) : (modPower s f).chive = s.chive := rfl
@[simp] theorem modPower_dill (s : State) (f : Power → Power) : (modPower s f).dill = s.dill := rfl
@[simp] theorem modPower_host (s : State) (f : Power → Power) : (modPower s f).host = s.host := rfl
@[simp] theorem modPower_trust (s : State) (f : Power → Power) : (modPower s f).trust = s.trust := rfl
@[simp] theorem modPower_life (s : State) (f : Power → Power) : (modPower s f).life = s.life := rfl
@[simp] theorem modPower_health (s : State) (f : Power → Power) : (modPower s f).health = s.health := rfl
@[simp] theorem modPower_jrnl (s : State) (f : Power → Power) : (modPower s f).jrnl = s.jrnl := rfl
@[simp] theorem modPower_power (s : State) (f : Power → Power) : (modPower s f).power = f s.power := rfl
@[simp] theorem modPower_taps (s : State) (f : Power → Power) : (modPower s f).taps = s.taps := rfl

/-! ## setMsgs -/

@[simp] theorem setMsgs_pending (s : State) (l : Assoc Nat Msg) : (setMsgs s l).pending = s.pending := rfl
@[simp] theorem setMsgs_out (s : State) (l : Assoc Nat Msg) : (setMsgs s l).out = s.out := rfl
@[simp] theorem setMsgs_freeCtr (s : State) (l : Assoc Nat Msg) : (setMsgs s l).freeCtr = s.freeCtr := rfl
@[simp] theorem setMsgs_nextId (s : State) (l : Assoc Nat Msg) : (setMsgs s l).nextId = s.nextId := rfl
@[simp] theorem setMsgs_msgs (s : State) (l : Assoc Nat Msg) : (setMsgs s l).msgs = l := rfl
@[simp] theorem setMsgs_regs (s : State) (l : Assoc Nat Msg) : (setMsgs s l).regs = s.regs := rfl
@[simp] theorem setMsgs_mem (s : State) (l : Assoc Nat Msg) : (setMsgs s l).mem = s.mem := rfl
@[simp] theorem setMsgs_seqs (s : State) (l : Assoc Nat Msg) : (setMsgs s l).seqs = s.seqs := rfl
@[simp] theorem setMsgs_merge (s : State) (l : Assoc Nat Msg) : (setMsgs s l).merge = s.merge := rfl
@[simp] theorem setMsgs_fab (s : State) (l : Assoc Nat Msg) : (setMsgs s l).fab = s.fab := rfl
@[simp] theorem setMsgs_traf (s : State) (l : Assoc Nat Msg) : (setMsgs s l).traf = s.traf := rfl
@[simp] theorem setMsgs_ledg (s : State) (l : Assoc Nat Msg) : (setMsgs s l).ledg = s.ledg := rfl
@[simp] theorem setMsgs_regn (s : State) (l : Assoc Nat Msg) : (setMsgs s l).regn = s.regn := rfl
@[simp] theorem setMsgs_chive (s : State) (l : Assoc Nat Msg) : (setMsgs s l).chive = s.chive := rfl
@[simp] theorem setMsgs_dill (s : State) (l : Assoc Nat Msg) : (setMsgs s l).dill = s.dill := rfl
@[simp] theorem setMsgs_host (s : State) (l : Assoc Nat Msg) : (setMsgs s l).host = s.host := rfl
@[simp] theorem setMsgs_trust (s : State) (l : Assoc Nat Msg) : (setMsgs s l).trust = s.trust := rfl
@[simp] theorem setMsgs_life (s : State) (l : Assoc Nat Msg) : (setMsgs s l).life = s.life := rfl
@[simp] theorem setMsgs_health (s : State) (l : Assoc Nat Msg) : (setMsgs s l).health = s.health := rfl
@[simp] theorem setMsgs_jrnl (s : State) (l : Assoc Nat Msg) : (setMsgs s l).jrnl = s.jrnl := rfl
@[simp] theorem setMsgs_power (s : State) (l : Assoc Nat Msg) : (setMsgs s l).power = s.power := rfl
@[simp] theorem setMsgs_taps (s : State) (l : Assoc Nat Msg) : (setMsgs s l).taps = s.taps := rfl

/-! ## setTaps -/

@[simp] theorem setTaps_pending (s : State) (l : Assoc Nat Tap) : (setTaps s l).pending = s.pending := rfl
@[simp] theorem setTaps_out (s : State) (l : Assoc Nat Tap) : (setTaps s l).out = s.out := rfl
@[simp] theorem setTaps_freeCtr (s : State) (l : Assoc Nat Tap) : (setTaps s l).freeCtr = s.freeCtr := rfl
@[simp] theorem setTaps_nextId (s : State) (l : Assoc Nat Tap) : (setTaps s l).nextId = s.nextId := rfl
@[simp] theorem setTaps_msgs (s : State) (l : Assoc Nat Tap) : (setTaps s l).msgs = s.msgs := rfl
@[simp] theorem setTaps_regs (s : State) (l : Assoc Nat Tap) : (setTaps s l).regs = s.regs := rfl
@[simp] theorem setTaps_mem (s : State) (l : Assoc Nat Tap) : (setTaps s l).mem = s.mem := rfl
@[simp] theorem setTaps_seqs (s : State) (l : Assoc Nat Tap) : (setTaps s l).seqs = s.seqs := rfl
@[simp] theorem setTaps_merge (s : State) (l : Assoc Nat Tap) : (setTaps s l).merge = s.merge := rfl
@[simp] theorem setTaps_fab (s : State) (l : Assoc Nat Tap) : (setTaps s l).fab = s.fab := rfl
@[simp] theorem setTaps_traf (s : State) (l : Assoc Nat Tap) : (setTaps s l).traf = s.traf := rfl
@[simp] theorem setTaps_ledg (s : State) (l : Assoc Nat Tap) : (setTaps s l).ledg = s.ledg := rfl
@[simp] theorem setTaps_regn (s : State) (l : Assoc Nat Tap) : (setTaps s l).regn = s.regn := rfl
@[simp] theorem setTaps_chive (s : State) (l : Assoc Nat Tap) : (setTaps s l).chive = s.chive := rfl
@[simp] theorem setTaps_dill (s : State) (l : Assoc Nat Tap) : (setTaps s l).dill = s.dill := rfl
@[simp] theorem setTaps_host (s : State) (l : Assoc Nat Tap) : (setTaps s l).host = s.host := rfl
@[simp] theorem setTaps_trust (s : State) (l : Assoc Nat Tap) : (setTaps s l).trust = s.trust := rfl
@[simp] theorem setTaps_life (s : State) (l : Assoc Nat Tap) : (setTaps s l).life = s.life := rfl
@[simp] theorem setTaps_health (s : State) (l : Assoc Nat Tap) : (setTaps s l).health = s.health := rfl
@[simp] theorem setTaps_jrnl (s : State) (l : Assoc Nat Tap) : (setTaps s l).jrnl = s.jrnl := rfl
@[simp] theorem setTaps_power (s : State) (l : Assoc Nat Tap) : (setTaps s l).power = s.power := rfl
@[simp] theorem setTaps_taps (s : State) (l : Assoc Nat Tap) : (setTaps s l).taps = l := rfl

/-! ## emit -/

@[simp] theorem emit_pending (s : State) (o : Out) : (emit s o).pending = s.pending := rfl
@[simp] theorem emit_out (s : State) (o : Out) : (emit s o).out = s.out ++ [o] := rfl
@[simp] theorem emit_freeCtr (s : State) (o : Out) : (emit s o).freeCtr = s.freeCtr := rfl
@[simp] theorem emit_nextId (s : State) (o : Out) : (emit s o).nextId = s.nextId := rfl
@[simp] theorem emit_msgs (s : State) (o : Out) : (emit s o).msgs = s.msgs := rfl
@[simp] theorem emit_regs (s : State) (o : Out) : (emit s o).regs = s.regs := rfl
@[simp] theorem emit_mem (s : State) (o : Out) : (emit s o).mem = s.mem := rfl
@[simp] theorem emit_seqs (s : State) (o : Out) : (emit s o).seqs = s.seqs := rfl
@[simp] theorem emit_merge (s : State) (o : Out) : (emit s o).merge = s.merge := rfl
@[simp] theorem emit_fab (s : State) (o : Out) : (emit s o).fab = s.fab := rfl
@[simp] theorem emit_traf (s : State) (o : Out) : (emit s o).traf = s.traf := rfl
@[simp] theorem emit_ledg (s : State) (o : Out) : (emit s o).ledg = s.ledg := rfl
@[simp] theorem emit_regn (s : State) (o : Out) : (emit s o).regn = s.regn := rfl
@[simp] theorem emit_chive (s : State) (o : Out) : (emit s o).chive = s.chive := rfl
@[simp] theorem emit_dill (s : State) (o : Out) : (emit s o).dill = s.dill := rfl
@[simp] theorem emit_host (s : State) (o : Out) : (emit s o).host = s.host := rfl
@[simp] theorem emit_trust (s : State) (o : Out) : (emit s o).trust = s.trust := rfl
@[simp] theorem emit_life (s : State) (o : Out) : (emit s o).life = s.life := rfl
@[simp] theorem emit_health (s : State) (o : Out) : (emit s o).health = s.health := rfl
@[simp] theorem emit_jrnl (s : State) (o : Out) : (emit s o).jrnl = s.jrnl := rfl
@[simp] theorem emit_power (s : State) (o : Out) : (emit s o).power = s.power := rfl
@[simp] theorem emit_taps (s : State) (o : Out) : (emit s o).taps = s.taps := rfl

/-! ## fresh -/

@[simp] theorem fresh_pending (s : State) : ((fresh s).2).pending = s.pending := rfl
@[simp] theorem fresh_out (s : State) : ((fresh s).2).out = s.out := rfl
@[simp] theorem fresh_freeCtr (s : State) : ((fresh s).2).freeCtr = s.freeCtr + 1 := rfl
@[simp] theorem fresh_nextId (s : State) : ((fresh s).2).nextId = s.nextId := rfl
@[simp] theorem fresh_msgs (s : State) : ((fresh s).2).msgs = s.msgs := rfl
@[simp] theorem fresh_regs (s : State) : ((fresh s).2).regs = s.regs := rfl
@[simp] theorem fresh_mem (s : State) : ((fresh s).2).mem = s.mem := rfl
@[simp] theorem fresh_seqs (s : State) : ((fresh s).2).seqs = s.seqs := rfl
@[simp] theorem fresh_merge (s : State) : ((fresh s).2).merge = s.merge := rfl
@[simp] theorem fresh_fab (s : State) : ((fresh s).2).fab = s.fab := rfl
@[simp] theorem fresh_traf (s : State) : ((fresh s).2).traf = s.traf := rfl
@[simp] theorem fresh_ledg (s : State) : ((fresh s).2).ledg = s.ledg := rfl
@[simp] theorem fresh_regn (s : State) : ((fresh s).2).regn = s.regn := rfl
@[simp] theorem fresh_chive (s : State) : ((fresh s).2).chive = s.chive := rfl
@[simp] theorem fresh_dill (s : State) : ((fresh s).2).dill = s.dill := rfl
@[simp] theorem fresh_host (s : State) : ((fresh s).2).host = s.host := rfl
@[simp] theorem fresh_trust (s : State) : ((fresh s).2).trust = s.trust := rfl
@[simp] theorem fresh_life (s : State) : ((fresh s).2).life = s.life := rfl
@[simp] theorem fresh_health (s : State) : ((fresh s).2).health = s.health := rfl
@[simp] theorem fresh_jrnl (s : State) : ((fresh s).2).jrnl = s.jrnl := rfl
@[simp] theorem fresh_power (s : State) : ((fresh s).2).power = s.power := rfl
@[simp] theorem fresh_taps (s : State) : ((fresh s).2).taps = s.taps := rfl

/-! ## newId -/

@[simp] theorem newId_pending (s : State) : ((newId s).2).pending = s.pending := rfl
@[simp] theorem newId_out (s : State) : ((newId s).2).out = s.out := rfl
@[simp] theorem newId_freeCtr (s : State) : ((newId s).2).freeCtr = s.freeCtr := rfl
@[simp] theorem newId_nextId (s : State) : ((newId s).2).nextId = s.nextId + 1 := rfl
@[simp] theorem newId_msgs (s : State) : ((newId s).2).msgs = s.msgs := rfl
@[simp] theorem newId_regs (s : State) : ((newId s).2).regs = s.regs := rfl
@[simp] theorem newId_mem (s : State) : ((newId s).2).mem = s.mem := rfl
@[simp] theorem newId_seqs (s : State) : ((newId s).2).seqs = s.seqs := rfl
@[simp] theorem newId_merge (s : State) : ((newId s).2).merge = s.merge := rfl
@[simp] theorem newId_fab (s : State) : ((newId s).2).fab = s.fab := rfl
@[simp] theorem newId_traf (s : State) : ((newId s).2).traf = s.traf := rfl
@[simp] theorem newId_ledg (s : State) : ((newId s).2).ledg = s.ledg := rfl
@[simp] theorem newId_regn (s : State) : ((newId s).2).regn = s.regn := rfl
@[simp] theorem newId_chive (s : State) : ((newId s).2).chive = s.chive := rfl
@[simp] theorem newId_dill (s : State) : ((newId s).2).dill = s.dill := rfl
@[simp] theorem newId_host (s : State) : ((newId s).2).host = s.host := rfl
@[simp] theorem newId_trust (s : State) : ((newId s).2).trust = s.trust := rfl
@[simp] theorem newId_life (s : State) : ((newId s).2).life = s.life := rfl
@[simp] theorem newId_health (s : State) : ((newId s).2).health = s.health := rfl
@[simp] theorem newId_jrnl (s : State) : ((newId s).2).jrnl = s.jrnl := rfl
@[simp] theorem newId_power (s : State) : ((newId s).2).power = s.power := rfl
@[simp] theorem newId_taps (s : State) : ((newId s).2).taps = s.taps := rfl

/-! ## setCells -/

@[simp] theorem setCells_pending (s : State) (l : List Host.Cell) : (setCells s l).pending = s.pending := rfl
@[simp] theorem setCells_out (s : State) (l : List Host.Cell) : (setCells s l).out = s.out := rfl
@[simp] theorem setCells_freeCtr (s : State) (l : List Host.Cell) : (setCells s l).freeCtr = s.freeCtr := rfl
@[simp] theorem setCells_nextId (s : State) (l : List Host.Cell) : (setCells s l).nextId = s.nextId := rfl
@[simp] theorem setCells_msgs (s : State) (l : List Host.Cell) : (setCells s l).msgs = s.msgs := rfl
@[simp] theorem setCells_regs (s : State) (l : List Host.Cell) : (setCells s l).regs = s.regs := rfl
@[simp] theorem setCells_mem (s : State) (l : List Host.Cell) : (setCells s l).mem = { s.mem with cells := l } := rfl
@[simp] theorem setCells_seqs (s : State) (l : List Host.Cell) : (setCells s l).seqs = s.seqs := rfl
@[simp] theorem setCells_merge (s : State) (l : List Host.Cell) : (setCells s l).merge = s.merge := rfl
@[simp] theorem setCells_fab (s : State) (l : List Host.Cell) : (setCells s l).fab = s.fab := rfl
@[simp] theorem setCells_traf (s : State) (l : List Host.Cell) : (setCells s l).traf = s.traf := rfl
@[simp] theorem setCells_ledg (s : State) (l : List Host.Cell) : (setCells s l).ledg = s.ledg := rfl
@[simp] theorem setCells_regn (s : State) (l : List Host.Cell) : (setCells s l).regn = s.regn := rfl
@[simp] theorem setCells_chive (s : State) (l : List Host.Cell) : (setCells s l).chive = s.chive := rfl
@[simp] theorem setCells_dill (s : State) (l : List Host.Cell) : (setCells s l).dill = s.dill := rfl
@[simp] theorem setCells_host (s : State) (l : List Host.Cell) : (setCells s l).host = s.host := rfl
@[simp] theorem setCells_trust (s : State) (l : List Host.Cell) : (setCells s l).trust = s.trust := rfl
@[simp] theorem setCells_life (s : State) (l : List Host.Cell) : (setCells s l).life = s.life := rfl
@[simp] theorem setCells_health (s : State) (l : List Host.Cell) : (setCells s l).health = s.health := rfl
@[simp] theorem setCells_jrnl (s : State) (l : List Host.Cell) : (setCells s l).jrnl = s.jrnl := rfl
@[simp] theorem setCells_power (s : State) (l : List Host.Cell) : (setCells s l).power = s.power := rfl
@[simp] theorem setCells_taps (s : State) (l : List Host.Cell) : (setCells s l).taps = s.taps := rfl

/-! ## setChk -/

@[simp] theorem setChk_pending (s : State) (l : Assoc Nat Nat) : (setChk s l).pending = s.pending := rfl
@[simp] theorem setChk_out (s : State) (l : Assoc Nat Nat) : (setChk s l).out = s.out := rfl
@[simp] theorem setChk_freeCtr (s : State) (l : Assoc Nat Nat) : (setChk s l).freeCtr = s.freeCtr := rfl
@[simp] theorem setChk_nextId (s : State) (l : Assoc Nat Nat) : (setChk s l).nextId = s.nextId := rfl
@[simp] theorem setChk_msgs (s : State) (l : Assoc Nat Nat) : (setChk s l).msgs = s.msgs := rfl
@[simp] theorem setChk_regs (s : State) (l : Assoc Nat Nat) : (setChk s l).regs = s.regs := rfl
@[simp] theorem setChk_mem (s : State) (l : Assoc Nat Nat) : (setChk s l).mem = { s.mem with chk := l } := rfl
@[simp] theorem setChk_seqs (s : State) (l : Assoc Nat Nat) : (setChk s l).seqs = s.seqs := rfl
@[simp] theorem setChk_merge (s : State) (l : Assoc Nat Nat) : (setChk s l).merge = s.merge := rfl
@[simp] theorem setChk_fab (s : State) (l : Assoc Nat Nat) : (setChk s l).fab = s.fab := rfl
@[simp] theorem setChk_traf (s : State) (l : Assoc Nat Nat) : (setChk s l).traf = s.traf := rfl
@[simp] theorem setChk_ledg (s : State) (l : Assoc Nat Nat) : (setChk s l).ledg = s.ledg := rfl
@[simp] theorem setChk_regn (s : State) (l : Assoc Nat Nat) : (setChk s l).regn = s.regn := rfl
@[simp] theorem setChk_chive (s : State) (l : Assoc Nat Nat) : (setChk s l).chive = s.chive := rfl
@[simp] theorem setChk_dill (s : State) (l : Assoc Nat Nat) : (setChk s l).dill = s.dill := rfl
@[simp] theorem setChk_host (s : State) (l : Assoc Nat Nat) : (setChk s l).host = s.host := rfl
@[simp] theorem setChk_trust (s : State) (l : Assoc Nat Nat) : (setChk s l).trust = s.trust := rfl
@[simp] theorem setChk_life (s : State) (l : Assoc Nat Nat) : (setChk s l).life = s.life := rfl
@[simp] theorem setChk_health (s : State) (l : Assoc Nat Nat) : (setChk s l).health = s.health := rfl
@[simp] theorem setChk_jrnl (s : State) (l : Assoc Nat Nat) : (setChk s l).jrnl = s.jrnl := rfl
@[simp] theorem setChk_power (s : State) (l : Assoc Nat Nat) : (setChk s l).power = s.power := rfl
@[simp] theorem setChk_taps (s : State) (l : Assoc Nat Nat) : (setChk s l).taps = s.taps := rfl

/-! ## rset -/

@[simp] theorem rset_pending (s : State) (r : Reg) (i x v : Nat) : (rset s r i x v).pending = s.pending := rfl
@[simp] theorem rset_out (s : State) (r : Reg) (i x v : Nat) : (rset s r i x v).out = s.out := rfl
@[simp] theorem rset_freeCtr (s : State) (r : Reg) (i x v : Nat) : (rset s r i x v).freeCtr = s.freeCtr := rfl
@[simp] theorem rset_nextId (s : State) (r : Reg) (i x v : Nat) : (rset s r i x v).nextId = s.nextId := rfl
@[simp] theorem rset_msgs (s : State) (r : Reg) (i x v : Nat) : (rset s r i x v).msgs = s.msgs := rfl
@[simp] theorem rset_regs (s : State) (r : Reg) (i x v : Nat) : (rset s r i x v).regs = aset s.regs (r, regInst r i, x) (v % 2 ^ r.width) := rfl
@[simp] theorem rset_mem (s : State) (r : Reg) (i x v : Nat) : (rset s r i x v).mem = s.mem := rfl
@[simp] theorem rset_seqs (s : State) (r : Reg) (i x v : Nat) : (rset s r i x v).seqs = s.seqs := rfl
@[simp] theorem rset_merge (s : State) (r : Reg) (i x v : Nat) : (rset s r i x v).merge = s.merge := rfl
@[simp] theorem rset_fab (s : State) (r : Reg) (i x v : Nat) : (rset s r i x v).fab = s.fab := rfl
@[simp] theorem rset_traf (s : State) (r : Reg) (i x v : Nat) : (rset s r i x v).traf = s.traf := rfl
@[simp] theorem rset_ledg (s : State) (r : Reg) (i x v : Nat) : (rset s r i x v).ledg = s.ledg := rfl
@[simp] theorem rset_regn (s : State) (r : Reg) (i x v : Nat) : (rset s r i x v).regn = s.regn := rfl
@[simp] theorem rset_chive (s : State) (r : Reg) (i x v : Nat) : (rset s r i x v).chive = s.chive := rfl
@[simp] theorem rset_dill (s : State) (r : Reg) (i x v : Nat) : (rset s r i x v).dill = s.dill := rfl
@[simp] theorem rset_host (s : State) (r : Reg) (i x v : Nat) : (rset s r i x v).host = s.host := rfl
@[simp] theorem rset_trust (s : State) (r : Reg) (i x v : Nat) : (rset s r i x v).trust = s.trust := rfl
@[simp] theorem rset_life (s : State) (r : Reg) (i x v : Nat) : (rset s r i x v).life = s.life := rfl
@[simp] theorem rset_health (s : State) (r : Reg) (i x v : Nat) : (rset s r i x v).health = s.health := rfl
@[simp] theorem rset_jrnl (s : State) (r : Reg) (i x v : Nat) : (rset s r i x v).jrnl = s.jrnl := rfl
@[simp] theorem rset_power (s : State) (r : Reg) (i x v : Nat) : (rset s r i x v).power = s.power := rfl
@[simp] theorem rset_taps (s : State) (r : Reg) (i x v : Nat) : (rset s r i x v).taps = s.taps := rfl

/-! ## modHub -/

@[simp] theorem modHub_pending (s : State) (h : Nat) (f : HubSt → HubSt) : (modHub s h f).pending = s.pending := rfl
@[simp] theorem modHub_out (s : State) (h : Nat) (f : HubSt → HubSt) : (modHub s h f).out = s.out := rfl
@[simp] theorem modHub_freeCtr (s : State) (h : Nat) (f : HubSt → HubSt) : (modHub s h f).freeCtr = s.freeCtr := rfl
@[simp] theorem modHub_nextId (s : State) (h : Nat) (f : HubSt → HubSt) : (modHub s h f).nextId = s.nextId := rfl
@[simp] theorem modHub_msgs (s : State) (h : Nat) (f : HubSt → HubSt) : (modHub s h f).msgs = s.msgs := rfl
@[simp] theorem modHub_regs (s : State) (h : Nat) (f : HubSt → HubSt) : (modHub s h f).regs = s.regs := rfl
@[simp] theorem modHub_mem (s : State) (h : Nat) (f : HubSt → HubSt) : (modHub s h f).mem = s.mem := rfl
@[simp] theorem modHub_seqs (s : State) (h : Nat) (f : HubSt → HubSt) : (modHub s h f).seqs = s.seqs := rfl
@[simp] theorem modHub_merge (s : State) (h : Nat) (f : HubSt → HubSt) : (modHub s h f).merge = s.merge := rfl
@[simp] theorem modHub_fab (s : State) (h : Nat) (f : HubSt → HubSt) : (modHub s h f).fab = s.fab := rfl
@[simp] theorem modHub_traf (s : State) (h : Nat) (f : HubSt → HubSt) : (modHub s h f).traf = s.traf := rfl
@[simp] theorem modHub_ledg (s : State) (h : Nat) (f : HubSt → HubSt) : (modHub s h f).ledg = s.ledg := rfl
@[simp] theorem modHub_regn (s : State) (h : Nat) (f : HubSt → HubSt) : (modHub s h f).regn = s.regn := rfl
@[simp] theorem modHub_chive (s : State) (h : Nat) (f : HubSt → HubSt) : (modHub s h f).chive = s.chive := rfl
@[simp] theorem modHub_dill (s : State) (h : Nat) (f : HubSt → HubSt) : (modHub s h f).dill = s.dill := rfl
@[simp] theorem modHub_host (s : State) (h : Nat) (f : HubSt → HubSt) : (modHub s h f).host = s.host := rfl
@[simp] theorem modHub_trust (s : State) (h : Nat) (f : HubSt → HubSt) : (modHub s h f).trust = s.trust := rfl
@[simp] theorem modHub_life (s : State) (h : Nat) (f : HubSt → HubSt) : (modHub s h f).life = { s.life with hubs := aset s.life.hubs h (f (hubSt s h)) } := rfl
@[simp] theorem modHub_health (s : State) (h : Nat) (f : HubSt → HubSt) : (modHub s h f).health = s.health := rfl
@[simp] theorem modHub_jrnl (s : State) (h : Nat) (f : HubSt → HubSt) : (modHub s h f).jrnl = s.jrnl := rfl
@[simp] theorem modHub_power (s : State) (h : Nat) (f : HubSt → HubSt) : (modHub s h f).power = s.power := rfl
@[simp] theorem modHub_taps (s : State) (h : Nat) (f : HubSt → HubSt) : (modHub s h f).taps = s.taps := rfl

/-! ## modSlice -/

@[simp] theorem modSlice_pending (s : State) (k : Nat) (f : SliceSt → SliceSt) : (modSlice s k f).pending = s.pending := rfl
@[simp] theorem modSlice_out (s : State) (k : Nat) (f : SliceSt → SliceSt) : (modSlice s k f).out = s.out := rfl
@[simp] theorem modSlice_freeCtr (s : State) (k : Nat) (f : SliceSt → SliceSt) : (modSlice s k f).freeCtr = s.freeCtr := rfl
@[simp] theorem modSlice_nextId (s : State) (k : Nat) (f : SliceSt → SliceSt) : (modSlice s k f).nextId = s.nextId := rfl
@[simp] theorem modSlice_msgs (s : State) (k : Nat) (f : SliceSt → SliceSt) : (modSlice s k f).msgs = s.msgs := rfl
@[simp] theorem modSlice_regs (s : State) (k : Nat) (f : SliceSt → SliceSt) : (modSlice s k f).regs = s.regs := rfl
@[simp] theorem modSlice_mem (s : State) (k : Nat) (f : SliceSt → SliceSt) : (modSlice s k f).mem = s.mem := rfl
@[simp] theorem modSlice_seqs (s : State) (k : Nat) (f : SliceSt → SliceSt) : (modSlice s k f).seqs = s.seqs := rfl
@[simp] theorem modSlice_merge (s : State) (k : Nat) (f : SliceSt → SliceSt) : (modSlice s k f).merge = s.merge := rfl
@[simp] theorem modSlice_fab (s : State) (k : Nat) (f : SliceSt → SliceSt) : (modSlice s k f).fab = s.fab := rfl
@[simp] theorem modSlice_traf (s : State) (k : Nat) (f : SliceSt → SliceSt) : (modSlice s k f).traf = s.traf := rfl
@[simp] theorem modSlice_ledg (s : State) (k : Nat) (f : SliceSt → SliceSt) : (modSlice s k f).ledg = s.ledg := rfl
@[simp] theorem modSlice_regn (s : State) (k : Nat) (f : SliceSt → SliceSt) : (modSlice s k f).regn = s.regn := rfl
@[simp] theorem modSlice_chive (s : State) (k : Nat) (f : SliceSt → SliceSt) : (modSlice s k f).chive = s.chive := rfl
@[simp] theorem modSlice_dill (s : State) (k : Nat) (f : SliceSt → SliceSt) : (modSlice s k f).dill = s.dill := rfl
@[simp] theorem modSlice_host (s : State) (k : Nat) (f : SliceSt → SliceSt) : (modSlice s k f).host = s.host := rfl
@[simp] theorem modSlice_trust (s : State) (k : Nat) (f : SliceSt → SliceSt) : (modSlice s k f).trust = s.trust := rfl
@[simp] theorem modSlice_life (s : State) (k : Nat) (f : SliceSt → SliceSt) : (modSlice s k f).life = { s.life with slices := aset s.life.slices k (f (sliceSt s k)) } := rfl
@[simp] theorem modSlice_health (s : State) (k : Nat) (f : SliceSt → SliceSt) : (modSlice s k f).health = s.health := rfl
@[simp] theorem modSlice_jrnl (s : State) (k : Nat) (f : SliceSt → SliceSt) : (modSlice s k f).jrnl = s.jrnl := rfl
@[simp] theorem modSlice_power (s : State) (k : Nat) (f : SliceSt → SliceSt) : (modSlice s k f).power = s.power := rfl
@[simp] theorem modSlice_taps (s : State) (k : Nat) (f : SliceSt → SliceSt) : (modSlice s k f).taps = s.taps := rfl

end Sys2Proof.Laws
end

