-- ==== Sys2Proof/Laws/Reads.lean ====
section
/-!
SUPPORT. What a read through the word code gives where no word deviates from its check bits, and a write where no snapshot is
fenced.
-/
namespace Sys2Proof.Laws
open Sys2Proof.Machine

@[simp] theorem touchStack_chk (s : State) (a n : Nat) : (touchStack s a n).mem.chk = s.mem.chk := by
  unfold touchStack
  dsimp only
  split
  · rfl
  · split <;> rfl

@[simp] theorem touchBanks_chk (s : State) (a n : Nat) : (touchBanks s a n).mem.chk = s.mem.chk := by
  unfold touchBanks
  dsimp only
  split <;> simp

/-- Without deviating check bits a read gives the bytes and leaves only what a touch of the banks leaves. -/
theorem load_clean {s : State} (h : s.mem.chk = []) (a n r : Nat) :
    load s a n r = (touchBanks s a n, some (peek (touchBanks s a n) a n)) := by
  simp [load, h]

/-- Without deviating check bits a view of memory and records gives bytes. -/
theorem view_clean {s : State} (h : s.mem.chk = []) (a n r : Nat) : (view s a n r).2.isSome = true := by
  unfold view
  split <;> simp [load_clean h]

/-- Without fenced snapshots a write waits for none. -/
theorem lowerFences_clean {s : State} (h : s.dill.snaps = []) (a n : Nat) : lowerFences s a n = s := by
  simp [lowerFences, h]

/-- Without fenced snapshots a write of words is a plain one. -/
theorem putWords_clean {s : State} (h : s.dill.snaps = []) (a : Nat) (bs : List Byte) : putWords s a bs = poke s a bs := by
  simp [putWords, lowerFences_clean h]

end Sys2Proof.Laws
end

