-- ==== Sys2Proof/Laws/Runs.lean ====
section
/-!
SUPPORT. What the shared ways into a command do: the management and session runs, the finding of a sequence, the checks
in order, and the counters.
-/
namespace Sys2Proof.Laws
open Sys2Proof.Machine

/-! ## Management (15_trust.md R351, R352) -/

/-- A management command always answers a next state. -/
theorem mgmtRun_next (s : State) (id op : Nat) (f : State → Msg → MgmtHdr → State) : ∃ t, mgmtRun s id op f = .next t := by
  unfold mgmtRun
  split
  · exact ⟨_, rfl⟩
  · dsimp only
    split
    · exact ⟨_, rfl⟩
    · split
      · exact ⟨_, rfl⟩
      · split <;> exact ⟨_, rfl⟩

/-- A management command without a message of its own to run changes nothing. -/
theorem mgmtRun_waits {s : State} {id op : Nat} {f : State → Msg → MgmtHdr → State} (h : mayStart s id .mgmt = none) :
    mgmtRun s id op f = .next s := by
  unfold mgmtRun
  rw [h]

/-- A request of the op runs its effect, where a primary stands or RECOVERY answers it without one. -/
theorem mgmtRun_runs {s : State} {id op : Nat} {f : State → Msg → MgmtHdr → State} {m : Msg} (h : mayStart s id .mgmt = some m)
    (hv : (MgmtHdr.parse m.be m.payload).ver = 1) (ho : (MgmtHdr.parse m.be m.payload).op = op)
    (hk : mgmtOps.contains op = true)
    (hp : recoveryOp s m (MgmtHdr.parse m.be m.payload) = true ∨ (primaryLov s).isSome = true) :
    mgmtRun s id op f = .next (f s m (MgmtHdr.parse m.be m.payload)) := by
  unfold mgmtRun
  rw [h]
  have hc : ¬ ((primaryLov s).isNone = true ∧ (! recoveryOp s m (MgmtHdr.parse m.be m.payload)) = true) := by
    rintro ⟨h1, h2⟩
    rcases hp with h3 | h3
    · simp [h3] at h2
    · cases hq : primaryLov s <;> simp [hq] at h1 h3
  have hw : ¬ (mgmtOps.contains (MgmtHdr.parse m.be m.payload).op = true ∧ (MgmtHdr.parse m.be m.payload).op ≠ op) :=
    fun x => x.2 ho
  have hx : ¬ ((MgmtHdr.parse m.be m.payload).ver ≠ 1 ∨ ¬ mgmtOps.contains (MgmtHdr.parse m.be m.payload).op = true) := by
    rw [ho, hk, hv]; simp
  dsimp only
  rw [if_neg hw, if_neg hc, if_neg hx]

/-- A request of another version or of no op of R352 is refused, where a primary stands or RECOVERY would answer. -/
theorem mgmtRun_version {s : State} {id op : Nat} {f : State → Msg → MgmtHdr → State} {m : Msg}
    (h : mayStart s id .mgmt = some m)
    (hv : (MgmtHdr.parse m.be m.payload).ver ≠ 1 ∨ ¬ mgmtOps.contains (MgmtHdr.parse m.be m.payload).op = true)
    (ho : mgmtOps.contains (MgmtHdr.parse m.be m.payload).op = true → (MgmtHdr.parse m.be m.payload).op = op)
    (hp : recoveryOp s m (MgmtHdr.parse m.be m.payload) = true ∨ (primaryLov s).isSome = true) :
    mgmtRun s id op f = .next (mgmtAnswer s id m .version []) := by
  unfold mgmtRun
  rw [h]
  have hc : ¬ ((primaryLov s).isNone = true ∧ (! recoveryOp s m (MgmtHdr.parse m.be m.payload)) = true) := by
    rintro ⟨h1, h2⟩
    rcases hp with h3 | h3
    · simp [h3] at h2
    · cases hq : primaryLov s <;> simp [hq] at h1 h3
  dsimp only
  rw [if_neg fun x => x.2 (ho x.1), if_neg hc, if_pos hv]

/-- A session command always answers a next state. -/
theorem sessionRun_next (s : State) (id op : Nat) (pick : List Byte → Bool)
    (f : State → Msg → Session → List Byte → State) : ∃ t, sessionRun s id op pick f = .next t :=
  mgmtRun_next s id op _

/-- A sealed request that opens runs its effect on the state that has taken it. -/
theorem sessionRun_runs {s : State} {id op : Nat} {pick : List Byte → Bool} {f : State → Msg → Session → List Byte → State}
    {m : Msg} {x : Session} {b : List Byte} (h : mayStart s id .mgmt = some m)
    (hv : (MgmtHdr.parse m.be m.payload).ver = 1) (ho : (MgmtHdr.parse m.be m.payload).op = op)
    (hk : mgmtOps.contains op = true) (hp : recoveryOp s m (MgmtHdr.parse m.be m.payload) = true ∨ (primaryLov s).isSome = true)
    (hs : peekSealed s m = .ok (x, b)) (hb : pick b = true) :
    sessionRun s id op pick f = .next (f (takeSealed s x (MgmtHdr.parse m.be m.payload).seq) m x b) := by
  unfold sessionRun
  rw [mgmtRun_runs h hv ho hk hp, hs]
  simp only [hb, if_true]

/-! ## Sequences (03_sequences.md R48) -/

/-- A handle of another tenant is not found, whether or not the sequence exists. -/
theorem findSeq_other_tenant {s : State} {hub tenant handle : Nat} (h : handle / 2 ^ 48 ≠ tenant) :
    findSeq s hub tenant handle = (s, .miss) := by
  unfold findSeq
  rw [if_pos (Or.inl h)]

/-! ## Counters -/

/-- A counter that is raised reads one more, up to its greatest value. -/
theorem rget_bump_same (s : State) (r : Reg) (i : Nat) :
    rget (bump s r i) r i 0 = min (rget s r i 0 + 1) (2 ^ r.width - 1) := by
  unfold bump bumpBy
  rw [rget_rset_same, Nat.mod_eq_of_lt]
  have : 0 < 2 ^ r.width := Nat.two_pow_pos _
  omega

/-! ## Checks in order -/

/-- The first failing check decides: with every check before it passed, its status is the outcome. -/
theorem firstFail_append (l r : List (Bool × Status)) (h : ∀ p ∈ l, p.1 = false) : firstFail (l ++ r) = firstFail r := by
  induction l with
  | nil => rfl
  | cons p l ih =>
    have hp := h p (List.mem_cons_self ..)
    have hl := ih fun q hq => h q (List.mem_cons_of_mem _ hq)
    obtain ⟨b, st⟩ := p
    cases hp
    simpa [firstFail] using hl

end Sys2Proof.Laws
end

