-- ==== Sys2Proof/Laws/Untouched.lean ====
section
/-!
SUPPORT. What the shared operations leave alone: for each, one lemma for every part of the state that it never writes, so
that no later proof unfolds one to see that a part still stands.
-/
namespace Sys2Proof.Laws
open Sys2Proof.Machine

/-- A fold whose every step leaves a part of the state alone leaves it alone. -/
theorem foldl_part {α β : Type} (g : State → β) {f : State → α → State} (hf : ∀ s x, g (f s x) = g s) :
    ∀ (l : List α) (s : State), g (l.foldl f s) = g s
  | [], _ => rfl
  | x :: l, s => (foldl_part g hf l (f s x)).trans (hf s x)

/-! ## modMeter -/

@[simp] theorem modMeter_msgs (s : State) (tenant : Nat) (f : Meter → Meter) : (modMeter s tenant f).msgs = s.msgs := by
  unfold modMeter; (repeat' split) <;> simp
@[simp] theorem modMeter_regs (s : State) (tenant : Nat) (f : Meter → Meter) : (modMeter s tenant f).regs = s.regs := by
  unfold modMeter; (repeat' split) <;> simp
@[simp] theorem modMeter_mem (s : State) (tenant : Nat) (f : Meter → Meter) : (modMeter s tenant f).mem = s.mem := by
  unfold modMeter; (repeat' split) <;> simp
@[simp] theorem modMeter_seqs (s : State) (tenant : Nat) (f : Meter → Meter) : (modMeter s tenant f).seqs = s.seqs := by
  unfold modMeter; (repeat' split) <;> simp
@[simp] theorem modMeter_merge (s : State) (tenant : Nat) (f : Meter → Meter) : (modMeter s tenant f).merge = s.merge := by
  unfold modMeter; (repeat' split) <;> simp
@[simp] theorem modMeter_fab (s : State) (tenant : Nat) (f : Meter → Meter) : (modMeter s tenant f).fab = s.fab := by
  unfold modMeter; (repeat' split) <;> simp
@[simp] theorem modMeter_traf (s : State) (tenant : Nat) (f : Meter → Meter) : (modMeter s tenant f).traf = s.traf := by
  unfold modMeter; (repeat' split) <;> simp
@[simp] theorem modMeter_ledg (s : State) (tenant : Nat) (f : Meter → Meter) : (modMeter s tenant f).ledg = s.ledg := by
  unfold modMeter; (repeat' split) <;> simp
@[simp] theorem modMeter_regn (s : State) (tenant : Nat) (f : Meter → Meter) : (modMeter s tenant f).regn = s.regn := by
  unfold modMeter; (repeat' split) <;> simp
@[simp] theorem modMeter_chive (s : State) (tenant : Nat) (f : Meter → Meter) : (modMeter s tenant f).chive = s.chive := by
  unfold modMeter; (repeat' split) <;> simp
@[simp] theorem modMeter_dill (s : State) (tenant : Nat) (f : Meter → Meter) : (modMeter s tenant f).dill = s.dill := by
  unfold modMeter; (repeat' split) <;> simp
@[simp] theorem modMeter_host (s : State) (tenant : Nat) (f : Meter → Meter) : (modMeter s tenant f).host = s.host := by
  unfold modMeter; (repeat' split) <;> simp
@[simp] theorem modMeter_trust (s : State) (tenant : Nat) (f : Meter → Meter) : (modMeter s tenant f).trust = s.trust := by
  unfold modMeter; (repeat' split) <;> simp
@[simp] theorem modMeter_life (s : State) (tenant : Nat) (f : Meter → Meter) : (modMeter s tenant f).life = s.life := by
  unfold modMeter; (repeat' split) <;> simp
@[simp] theorem modMeter_jrnl (s : State) (tenant : Nat) (f : Meter → Meter) : (modMeter s tenant f).jrnl = s.jrnl := by
  unfold modMeter; (repeat' split) <;> simp
@[simp] theorem modMeter_power (s : State) (tenant : Nat) (f : Meter → Meter) : (modMeter s tenant f).power = s.power := by
  unfold modMeter; (repeat' split) <;> simp
@[simp] theorem modMeter_taps (s : State) (tenant : Nat) (f : Meter → Meter) : (modMeter s tenant f).taps = s.taps := by
  unfold modMeter; (repeat' split) <;> simp
@[simp] theorem modMeter_out (s : State) (tenant : Nat) (f : Meter → Meter) : (modMeter s tenant f).out = s.out := by
  unfold modMeter; (repeat' split) <;> simp
@[simp] theorem modMeter_pending (s : State) (tenant : Nat) (f : Meter → Meter) : (modMeter s tenant f).pending = s.pending := by
  unfold modMeter; (repeat' split) <;> simp
@[simp] theorem modMeter_freeCtr (s : State) (tenant : Nat) (f : Meter → Meter) : (modMeter s tenant f).freeCtr = s.freeCtr := by
  unfold modMeter; (repeat' split) <;> simp
@[simp] theorem modMeter_nextId (s : State) (tenant : Nat) (f : Meter → Meter) : (modMeter s tenant f).nextId = s.nextId := by
  unfold modMeter; (repeat' split) <;> simp

/-! ## raiseRing -/

@[simp] theorem raiseRing_msgs (s : State) (p : Nat) (f : Nat) (r : Nat) : (raiseRing s p f r).msgs = s.msgs := by
  unfold raiseRing
  try dsimp only
  (repeat' split) <;> (try simp) <;> (repeat' split) <;> simp
@[simp] theorem raiseRing_regs (s : State) (p : Nat) (f : Nat) (r : Nat) : (raiseRing s p f r).regs = s.regs := by
  unfold raiseRing
  try dsimp only
  (repeat' split) <;> (try simp) <;> (repeat' split) <;> simp
@[simp] theorem raiseRing_mem (s : State) (p : Nat) (f : Nat) (r : Nat) : (raiseRing s p f r).mem = s.mem := by
  unfold raiseRing
  try dsimp only
  (repeat' split) <;> (try simp) <;> (repeat' split) <;> simp
@[simp] theorem raiseRing_seqs (s : State) (p : Nat) (f : Nat) (r : Nat) : (raiseRing s p f r).seqs = s.seqs := by
  unfold raiseRing
  try dsimp only
  (repeat' split) <;> (try simp) <;> (repeat' split) <;> simp
@[simp] theorem raiseRing_merge (s : State) (p : Nat) (f : Nat) (r : Nat) : (raiseRing s p f r).merge = s.merge := by
  unfold raiseRing
  try dsimp only
  (repeat' split) <;> (try simp) <;> (repeat' split) <;> simp
@[simp] theorem raiseRing_fab (s : State) (p : Nat) (f : Nat) (r : Nat) : (raiseRing s p f r).fab = s.fab := by
  unfold raiseRing
  try dsimp only
  (repeat' split) <;> (try simp) <;> (repeat' split) <;> simp
@[simp] theorem raiseRing_traf (s : State) (p : Nat) (f : Nat) (r : Nat) : (raiseRing s p f r).traf = s.traf := by
  unfold raiseRing
  try dsimp only
  (repeat' split) <;> (try simp) <;> (repeat' split) <;> simp
@[simp] theorem raiseRing_ledg (s : State) (p : Nat) (f : Nat) (r : Nat) : (raiseRing s p f r).ledg = s.ledg := by
  unfold raiseRing
  try dsimp only
  (repeat' split) <;> (try simp) <;> (repeat' split) <;> simp
@[simp] theorem raiseRing_regn (s : State) (p : Nat) (f : Nat) (r : Nat) : (raiseRing s p f r).regn = s.regn := by
  unfold raiseRing
  try dsimp only
  (repeat' split) <;> (try simp) <;> (repeat' split) <;> simp
@[simp] theorem raiseRing_chive (s : State) (p : Nat) (f : Nat) (r : Nat) : (raiseRing s p f r).chive = s.chive := by
  unfold raiseRing
  try dsimp only
  (repeat' split) <;> (try simp) <;> (repeat' split) <;> simp
@[simp] theorem raiseRing_dill (s : State) (p : Nat) (f : Nat) (r : Nat) : (raiseRing s p f r).dill = s.dill := by
  unfold raiseRing
  try dsimp only
  (repeat' split) <;> (try simp) <;> (repeat' split) <;> simp
@[simp] theorem raiseRing_trust (s : State) (p : Nat) (f : Nat) (r : Nat) : (raiseRing s p f r).trust = s.trust := by
  unfold raiseRing
  try dsimp only
  (repeat' split) <;> (try simp) <;> (repeat' split) <;> simp
@[simp] theorem raiseRing_life (s : State) (p : Nat) (f : Nat) (r : Nat) : (raiseRing s p f r).life = s.life := by
  unfold raiseRing
  try dsimp only
  (repeat' split) <;> (try simp) <;> (repeat' split) <;> simp
@[simp] theorem raiseRing_health (s : State) (p : Nat) (f : Nat) (r : Nat) : (raiseRing s p f r).health = s.health := by
  unfold raiseRing
  try dsimp only
  (repeat' split) <;> (try simp) <;> (repeat' split) <;> simp
@[simp] theorem raiseRing_jrnl (s : State) (p : Nat) (f : Nat) (r : Nat) : (raiseRing s p f r).jrnl = s.jrnl := by
  unfold raiseRing
  try dsimp only
  (repeat' split) <;> (try simp) <;> (repeat' split) <;> simp
@[simp] theorem raiseRing_power (s : State) (p : Nat) (f : Nat) (r : Nat) : (raiseRing s p f r).power = s.power := by
  unfold raiseRing
  try dsimp only
  (repeat' split) <;> (try simp) <;> (repeat' split) <;> simp
@[simp] theorem raiseRing_taps (s : State) (p : Nat) (f : Nat) (r : Nat) : (raiseRing s p f r).taps = s.taps := by
  unfold raiseRing
  try dsimp only
  (repeat' split) <;> (try simp) <;> (repeat' split) <;> simp
@[simp] theorem raiseRing_pending (s : State) (p : Nat) (f : Nat) (r : Nat) : (raiseRing s p f r).pending = s.pending := by
  unfold raiseRing
  try dsimp only
  (repeat' split) <;> (try simp) <;> (repeat' split) <;> simp
@[simp] theorem raiseRing_freeCtr (s : State) (p : Nat) (f : Nat) (r : Nat) : (raiseRing s p f r).freeCtr = s.freeCtr := by
  unfold raiseRing
  try dsimp only
  (repeat' split) <;> (try simp) <;> (repeat' split) <;> simp
@[simp] theorem raiseRing_nextId (s : State) (p : Nat) (f : Nat) (r : Nat) : (raiseRing s p f r).nextId = s.nextId := by
  unfold raiseRing
  try dsimp only
  (repeat' split) <;> (try simp) <;> (repeat' split) <;> simp

/-! ## writeCompletion -/

@[simp] theorem writeCompletion_msgs (s : State) (p : Nat) (f : Nat) (slot : Nat) (r : Nat) (seq : Nat) (tag : Nat) (respBytes : Nat) (st : Nat) (hintMin : Nat) (irq : Bool) : (writeCompletion s p f slot r seq tag respBytes st hintMin irq).msgs = s.msgs := by
  unfold writeCompletion; (repeat' split) <;> simp
@[simp] theorem writeCompletion_regs (s : State) (p : Nat) (f : Nat) (slot : Nat) (r : Nat) (seq : Nat) (tag : Nat) (respBytes : Nat) (st : Nat) (hintMin : Nat) (irq : Bool) : (writeCompletion s p f slot r seq tag respBytes st hintMin irq).regs = s.regs := by
  unfold writeCompletion; (repeat' split) <;> simp
@[simp] theorem writeCompletion_mem (s : State) (p : Nat) (f : Nat) (slot : Nat) (r : Nat) (seq : Nat) (tag : Nat) (respBytes : Nat) (st : Nat) (hintMin : Nat) (irq : Bool) : (writeCompletion s p f slot r seq tag respBytes st hintMin irq).mem = s.mem := by
  unfold writeCompletion; (repeat' split) <;> simp
@[simp] theorem writeCompletion_seqs (s : State) (p : Nat) (f : Nat) (slot : Nat) (r : Nat) (seq : Nat) (tag : Nat) (respBytes : Nat) (st : Nat) (hintMin : Nat) (irq : Bool) : (writeCompletion s p f slot r seq tag respBytes st hintMin irq).seqs = s.seqs := by
  unfold writeCompletion; (repeat' split) <;> simp
@[simp] theorem writeCompletion_merge (s : State) (p : Nat) (f : Nat) (slot : Nat) (r : Nat) (seq : Nat) (tag : Nat) (respBytes : Nat) (st : Nat) (hintMin : Nat) (irq : Bool) : (writeCompletion s p f slot r seq tag respBytes st hintMin irq).merge = s.merge := by
  unfold writeCompletion; (repeat' split) <;> simp
@[simp] theorem writeCompletion_fab (s : State) (p : Nat) (f : Nat) (slot : Nat) (r : Nat) (seq : Nat) (tag : Nat) (respBytes : Nat) (st : Nat) (hintMin : Nat) (irq : Bool) : (writeCompletion s p f slot r seq tag respBytes st hintMin irq).fab = s.fab := by
  unfold writeCompletion; (repeat' split) <;> simp
@[simp] theorem writeCompletion_traf (s : State) (p : Nat) (f : Nat) (slot : Nat) (r : Nat) (seq : Nat) (tag : Nat) (respBytes : Nat) (st : Nat) (hintMin : Nat) (irq : Bool) : (writeCompletion s p f slot r seq tag respBytes st hintMin irq).traf = s.traf := by
  unfold writeCompletion; (repeat' split) <;> simp
@[simp] theorem writeCompletion_ledg (s : State) (p : Nat) (f : Nat) (slot : Nat) (r : Nat) (seq : Nat) (tag : Nat) (respBytes : Nat) (st : Nat) (hintMin : Nat) (irq : Bool) : (writeCompletion s p f slot r seq tag respBytes st hintMin irq).ledg = s.ledg := by
  unfold writeCompletion; (repeat' split) <;> simp
@[simp] theorem writeCompletion_regn (s : State) (p : Nat) (f : Nat) (slot : Nat) (r : Nat) (seq : Nat) (tag : Nat) (respBytes : Nat) (st : Nat) (hintMin : Nat) (irq : Bool) : (writeCompletion s p f slot r seq tag respBytes st hintMin irq).regn = s.regn := by
  unfold writeCompletion; (repeat' split) <;> simp
@[simp] theorem writeCompletion_chive (s : State) (p : Nat) (f : Nat) (slot : Nat) (r : Nat) (seq : Nat) (tag : Nat) (respBytes : Nat) (st : Nat) (hintMin : Nat) (irq : Bool) : (writeCompletion s p f slot r seq tag respBytes st hintMin irq).chive = s.chive := by
  unfold writeCompletion; (repeat' split) <;> simp
@[simp] theorem writeCompletion_dill (s : State) (p : Nat) (f : Nat) (slot : Nat) (r : Nat) (seq : Nat) (tag : Nat) (respBytes : Nat) (st : Nat) (hintMin : Nat) (irq : Bool) : (writeCompletion s p f slot r seq tag respBytes st hintMin irq).dill = s.dill := by
  unfold writeCompletion; (repeat' split) <;> simp
@[simp] theorem writeCompletion_trust (s : State) (p : Nat) (f : Nat) (slot : Nat) (r : Nat) (seq : Nat) (tag : Nat) (respBytes : Nat) (st : Nat) (hintMin : Nat) (irq : Bool) : (writeCompletion s p f slot r seq tag respBytes st hintMin irq).trust = s.trust := by
  unfold writeCompletion; (repeat' split) <;> simp
@[simp] theorem writeCompletion_life (s : State) (p : Nat) (f : Nat) (slot : Nat) (r : Nat) (seq : Nat) (tag : Nat) (respBytes : Nat) (st : Nat) (hintMin : Nat) (irq : Bool) : (writeCompletion s p f slot r seq tag respBytes st hintMin irq).life = s.life := by
  unfold writeCompletion; (repeat' split) <;> simp
@[simp] theorem writeCompletion_health (s : State) (p : Nat) (f : Nat) (slot : Nat) (r : Nat) (seq : Nat) (tag : Nat) (respBytes : Nat) (st : Nat) (hintMin : Nat) (irq : Bool) : (writeCompletion s p f slot r seq tag respBytes st hintMin irq).health = s.health := by
  unfold writeCompletion; (repeat' split) <;> simp
@[simp] theorem writeCompletion_jrnl (s : State) (p : Nat) (f : Nat) (slot : Nat) (r : Nat) (seq : Nat) (tag : Nat) (respBytes : Nat) (st : Nat) (hintMin : Nat) (irq : Bool) : (writeCompletion s p f slot r seq tag respBytes st hintMin irq).jrnl = s.jrnl := by
  unfold writeCompletion; (repeat' split) <;> simp
@[simp] theorem writeCompletion_power (s : State) (p : Nat) (f : Nat) (slot : Nat) (r : Nat) (seq : Nat) (tag : Nat) (respBytes : Nat) (st : Nat) (hintMin : Nat) (irq : Bool) : (writeCompletion s p f slot r seq tag respBytes st hintMin irq).power = s.power := by
  unfold writeCompletion; (repeat' split) <;> simp
@[simp] theorem writeCompletion_taps (s : State) (p : Nat) (f : Nat) (slot : Nat) (r : Nat) (seq : Nat) (tag : Nat) (respBytes : Nat) (st : Nat) (hintMin : Nat) (irq : Bool) : (writeCompletion s p f slot r seq tag respBytes st hintMin irq).taps = s.taps := by
  unfold writeCompletion; (repeat' split) <;> simp
@[simp] theorem writeCompletion_pending (s : State) (p : Nat) (f : Nat) (slot : Nat) (r : Nat) (seq : Nat) (tag : Nat) (respBytes : Nat) (st : Nat) (hintMin : Nat) (irq : Bool) : (writeCompletion s p f slot r seq tag respBytes st hintMin irq).pending = s.pending := by
  unfold writeCompletion; (repeat' split) <;> simp
@[simp] theorem writeCompletion_freeCtr (s : State) (p : Nat) (f : Nat) (slot : Nat) (r : Nat) (seq : Nat) (tag : Nat) (respBytes : Nat) (st : Nat) (hintMin : Nat) (irq : Bool) : (writeCompletion s p f slot r seq tag respBytes st hintMin irq).freeCtr = s.freeCtr := by
  unfold writeCompletion; (repeat' split) <;> simp
@[simp] theorem writeCompletion_nextId (s : State) (p : Nat) (f : Nat) (slot : Nat) (r : Nat) (seq : Nat) (tag : Nat) (respBytes : Nat) (st : Nat) (hintMin : Nat) (irq : Bool) : (writeCompletion s p f slot r seq tag respBytes st hintMin irq).nextId = s.nextId := by
  unfold writeCompletion; (repeat' split) <;> simp

/-! ## modSlot -/

@[simp] theorem modSlot_msgs (s : State) (p : Nat) (f : Nat) (k : Nat) (g : HostSlot → HostSlot) : (modSlot s p f k g).msgs = s.msgs := by
  unfold modSlot; (repeat' split) <;> simp
@[simp] theorem modSlot_regs (s : State) (p : Nat) (f : Nat) (k : Nat) (g : HostSlot → HostSlot) : (modSlot s p f k g).regs = s.regs := by
  unfold modSlot; (repeat' split) <;> simp
@[simp] theorem modSlot_mem (s : State) (p : Nat) (f : Nat) (k : Nat) (g : HostSlot → HostSlot) : (modSlot s p f k g).mem = s.mem := by
  unfold modSlot; (repeat' split) <;> simp
@[simp] theorem modSlot_seqs (s : State) (p : Nat) (f : Nat) (k : Nat) (g : HostSlot → HostSlot) : (modSlot s p f k g).seqs = s.seqs := by
  unfold modSlot; (repeat' split) <;> simp
@[simp] theorem modSlot_merge (s : State) (p : Nat) (f : Nat) (k : Nat) (g : HostSlot → HostSlot) : (modSlot s p f k g).merge = s.merge := by
  unfold modSlot; (repeat' split) <;> simp
@[simp] theorem modSlot_fab (s : State) (p : Nat) (f : Nat) (k : Nat) (g : HostSlot → HostSlot) : (modSlot s p f k g).fab = s.fab := by
  unfold modSlot; (repeat' split) <;> simp
@[simp] theorem modSlot_traf (s : State) (p : Nat) (f : Nat) (k : Nat) (g : HostSlot → HostSlot) : (modSlot s p f k g).traf = s.traf := by
  unfold modSlot; (repeat' split) <;> simp
@[simp] theorem modSlot_ledg (s : State) (p : Nat) (f : Nat) (k : Nat) (g : HostSlot → HostSlot) : (modSlot s p f k g).ledg = s.ledg := by
  unfold modSlot; (repeat' split) <;> simp
@[simp] theorem modSlot_regn (s : State) (p : Nat) (f : Nat) (k : Nat) (g : HostSlot → HostSlot) : (modSlot s p f k g).regn = s.regn := by
  unfold modSlot; (repeat' split) <;> simp
@[simp] theorem modSlot_chive (s : State) (p : Nat) (f : Nat) (k : Nat) (g : HostSlot → HostSlot) : (modSlot s p f k g).chive = s.chive := by
  unfold modSlot; (repeat' split) <;> simp
@[simp] theorem modSlot_dill (s : State) (p : Nat) (f : Nat) (k : Nat) (g : HostSlot → HostSlot) : (modSlot s p f k g).dill = s.dill := by
  unfold modSlot; (repeat' split) <;> simp
@[simp] theorem modSlot_trust (s : State) (p : Nat) (f : Nat) (k : Nat) (g : HostSlot → HostSlot) : (modSlot s p f k g).trust = s.trust := by
  unfold modSlot; (repeat' split) <;> simp
@[simp] theorem modSlot_life (s : State) (p : Nat) (f : Nat) (k : Nat) (g : HostSlot → HostSlot) : (modSlot s p f k g).life = s.life := by
  unfold modSlot; (repeat' split) <;> simp
@[simp] theorem modSlot_health (s : State) (p : Nat) (f : Nat) (k : Nat) (g : HostSlot → HostSlot) : (modSlot s p f k g).health = s.health := by
  unfold modSlot; (repeat' split) <;> simp
@[simp] theorem modSlot_jrnl (s : State) (p : Nat) (f : Nat) (k : Nat) (g : HostSlot → HostSlot) : (modSlot s p f k g).jrnl = s.jrnl := by
  unfold modSlot; (repeat' split) <;> simp
@[simp] theorem modSlot_power (s : State) (p : Nat) (f : Nat) (k : Nat) (g : HostSlot → HostSlot) : (modSlot s p f k g).power = s.power := by
  unfold modSlot; (repeat' split) <;> simp
@[simp] theorem modSlot_taps (s : State) (p : Nat) (f : Nat) (k : Nat) (g : HostSlot → HostSlot) : (modSlot s p f k g).taps = s.taps := by
  unfold modSlot; (repeat' split) <;> simp
@[simp] theorem modSlot_out (s : State) (p : Nat) (f : Nat) (k : Nat) (g : HostSlot → HostSlot) : (modSlot s p f k g).out = s.out := by
  unfold modSlot; (repeat' split) <;> simp
@[simp] theorem modSlot_pending (s : State) (p : Nat) (f : Nat) (k : Nat) (g : HostSlot → HostSlot) : (modSlot s p f k g).pending = s.pending := by
  unfold modSlot; (repeat' split) <;> simp
@[simp] theorem modSlot_freeCtr (s : State) (p : Nat) (f : Nat) (k : Nat) (g : HostSlot → HostSlot) : (modSlot s p f k g).freeCtr = s.freeCtr := by
  unfold modSlot; (repeat' split) <;> simp
@[simp] theorem modSlot_nextId (s : State) (p : Nat) (f : Nat) (k : Nat) (g : HostSlot → HostSlot) : (modSlot s p f k g).nextId = s.nextId := by
  unfold modSlot; (repeat' split) <;> simp

/-! ## completePcie -/

@[simp] theorem completePcie_regs (s : State) (m : Msg) (id : Nat) (p : Nat) (f : Nat) (slot : Nat) (st : Status) (hintMin : Nat) (resp : List Byte) : (completePcie s m id p f slot st hintMin resp).regs = s.regs := by
  unfold completePcie
  try dsimp only
  (repeat' split) <;> (try simp) <;> (repeat' split) <;> simp
@[simp] theorem completePcie_mem (s : State) (m : Msg) (id : Nat) (p : Nat) (f : Nat) (slot : Nat) (st : Status) (hintMin : Nat) (resp : List Byte) : (completePcie s m id p f slot st hintMin resp).mem = s.mem := by
  unfold completePcie
  try dsimp only
  (repeat' split) <;> (try simp) <;> (repeat' split) <;> simp
@[simp] theorem completePcie_seqs (s : State) (m : Msg) (id : Nat) (p : Nat) (f : Nat) (slot : Nat) (st : Status) (hintMin : Nat) (resp : List Byte) : (completePcie s m id p f slot st hintMin resp).seqs = s.seqs := by
  unfold completePcie
  try dsimp only
  (repeat' split) <;> (try simp) <;> (repeat' split) <;> simp
@[simp] theorem completePcie_merge (s : State) (m : Msg) (id : Nat) (p : Nat) (f : Nat) (slot : Nat) (st : Status) (hintMin : Nat) (resp : List Byte) : (completePcie s m id p f slot st hintMin resp).merge = s.merge := by
  unfold completePcie
  try dsimp only
  (repeat' split) <;> (try simp) <;> (repeat' split) <;> simp
@[simp] theorem completePcie_fab (s : State) (m : Msg) (id : Nat) (p : Nat) (f : Nat) (slot : Nat) (st : Status) (hintMin : Nat) (resp : List Byte) : (completePcie s m id p f slot st hintMin resp).fab = s.fab := by
  unfold completePcie
  try dsimp only
  (repeat' split) <;> (try simp) <;> (repeat' split) <;> simp
@[simp] theorem completePcie_traf (s : State) (m : Msg) (id : Nat) (p : Nat) (f : Nat) (slot : Nat) (st : Status) (hintMin : Nat) (resp : List Byte) : (completePcie s m id p f slot st hintMin resp).traf = s.traf := by
  unfold completePcie
  try dsimp only
  (repeat' split) <;> (try simp) <;> (repeat' split) <;> simp
@[simp] theorem completePcie_ledg (s : State) (m : Msg) (id : Nat) (p : Nat) (f : Nat) (slot : Nat) (st : Status) (hintMin : Nat) (resp : List Byte) : (completePcie s m id p f slot st hintMin resp).ledg = s.ledg := by
  unfold completePcie
  try dsimp only
  (repeat' split) <;> (try simp) <;> (repeat' split) <;> simp
@[simp] theorem completePcie_regn (s : State) (m : Msg) (id : Nat) (p : Nat) (f : Nat) (slot : Nat) (st : Status) (hintMin : Nat) (resp : List Byte) : (completePcie s m id p f slot st hintMin resp).regn = s.regn := by
  unfold completePcie
  try dsimp only
  (repeat' split) <;> (try simp) <;> (repeat' split) <;> simp
@[simp] theorem completePcie_chive (s : State) (m : Msg) (id : Nat) (p : Nat) (f : Nat) (slot : Nat) (st : Status) (hintMin : Nat) (resp : List Byte) : (completePcie s m id p f slot st hintMin resp).chive = s.chive := by
  unfold completePcie
  try dsimp only
  (repeat' split) <;> (try simp) <;> (repeat' split) <;> simp
@[simp] theorem completePcie_dill (s : State) (m : Msg) (id : Nat) (p : Nat) (f : Nat) (slot : Nat) (st : Status) (hintMin : Nat) (resp : List Byte) : (completePcie s m id p f slot st hintMin resp).dill = s.dill := by
  unfold completePcie
  try dsimp only
  (repeat' split) <;> (try simp) <;> (repeat' split) <;> simp
@[simp] theorem completePcie_trust (s : State) (m : Msg) (id : Nat) (p : Nat) (f : Nat) (slot : Nat) (st : Status) (hintMin : Nat) (resp : List Byte) : (completePcie s m id p f slot st hintMin resp).trust = s.trust := by
  unfold completePcie
  try dsimp only
  (repeat' split) <;> (try simp) <;> (repeat' split) <;> simp
@[simp] theorem completePcie_life (s : State) (m : Msg) (id : Nat) (p : Nat) (f : Nat) (slot : Nat) (st : Status) (hintMin : Nat) (resp : List Byte) : (completePcie s m id p f slot st hintMin resp).life = s.life := by
  unfold completePcie
  try dsimp only
  (repeat' split) <;> (try simp) <;> (repeat' split) <;> simp
@[simp] theorem completePcie_jrnl (s : State) (m : Msg) (id : Nat) (p : Nat) (f : Nat) (slot : Nat) (st : Status) (hintMin : Nat) (resp : List Byte) : (completePcie s m id p f slot st hintMin resp).jrnl = s.jrnl := by
  unfold completePcie
  try dsimp only
  (repeat' split) <;> (try simp) <;> (repeat' split) <;> simp
@[simp] theorem completePcie_power (s : State) (m : Msg) (id : Nat) (p : Nat) (f : Nat) (slot : Nat) (st : Status) (hintMin : Nat) (resp : List Byte) : (completePcie s m id p f slot st hintMin resp).power = s.power := by
  unfold completePcie
  try dsimp only
  (repeat' split) <;> (try simp) <;> (repeat' split) <;> simp
@[simp] theorem completePcie_taps (s : State) (m : Msg) (id : Nat) (p : Nat) (f : Nat) (slot : Nat) (st : Status) (hintMin : Nat) (resp : List Byte) : (completePcie s m id p f slot st hintMin resp).taps = s.taps := by
  unfold completePcie
  try dsimp only
  (repeat' split) <;> (try simp) <;> (repeat' split) <;> simp
@[simp] theorem completePcie_pending (s : State) (m : Msg) (id : Nat) (p : Nat) (f : Nat) (slot : Nat) (st : Status) (hintMin : Nat) (resp : List Byte) : (completePcie s m id p f slot st hintMin resp).pending = s.pending := by
  unfold completePcie
  try dsimp only
  (repeat' split) <;> (try simp) <;> (repeat' split) <;> simp
@[simp] theorem completePcie_freeCtr (s : State) (m : Msg) (id : Nat) (p : Nat) (f : Nat) (slot : Nat) (st : Status) (hintMin : Nat) (resp : List Byte) : (completePcie s m id p f slot st hintMin resp).freeCtr = s.freeCtr := by
  unfold completePcie
  try dsimp only
  (repeat' split) <;> (try simp) <;> (repeat' split) <;> simp
@[simp] theorem completePcie_nextId (s : State) (m : Msg) (id : Nat) (p : Nat) (f : Nat) (slot : Nat) (st : Status) (hintMin : Nat) (resp : List Byte) : (completePcie s m id p f slot st hintMin resp).nextId = s.nextId := by
  unfold completePcie
  try dsimp only
  (repeat' split) <;> (try simp) <;> (repeat' split) <;> simp

/-! ## modConn -/

@[simp] theorem modConn_msgs (s : State) (id : Nat) (f : Conn → Conn) : (modConn s id f).msgs = s.msgs := by
  unfold modConn; (repeat' split) <;> simp
@[simp] theorem modConn_regs (s : State) (id : Nat) (f : Conn → Conn) : (modConn s id f).regs = s.regs := by
  unfold modConn; (repeat' split) <;> simp
@[simp] theorem modConn_mem (s : State) (id : Nat) (f : Conn → Conn) : (modConn s id f).mem = s.mem := by
  unfold modConn; (repeat' split) <;> simp
@[simp] theorem modConn_seqs (s : State) (id : Nat) (f : Conn → Conn) : (modConn s id f).seqs = s.seqs := by
  unfold modConn; (repeat' split) <;> simp
@[simp] theorem modConn_merge (s : State) (id : Nat) (f : Conn → Conn) : (modConn s id f).merge = s.merge := by
  unfold modConn; (repeat' split) <;> simp
@[simp] theorem modConn_traf (s : State) (id : Nat) (f : Conn → Conn) : (modConn s id f).traf = s.traf := by
  unfold modConn; (repeat' split) <;> simp
@[simp] theorem modConn_ledg (s : State) (id : Nat) (f : Conn → Conn) : (modConn s id f).ledg = s.ledg := by
  unfold modConn; (repeat' split) <;> simp
@[simp] theorem modConn_regn (s : State) (id : Nat) (f : Conn → Conn) : (modConn s id f).regn = s.regn := by
  unfold modConn; (repeat' split) <;> simp
@[simp] theorem modConn_chive (s : State) (id : Nat) (f : Conn → Conn) : (modConn s id f).chive = s.chive := by
  unfold modConn; (repeat' split) <;> simp
@[simp] theorem modConn_dill (s : State) (id : Nat) (f : Conn → Conn) : (modConn s id f).dill = s.dill := by
  unfold modConn; (repeat' split) <;> simp
@[simp] theorem modConn_host (s : State) (id : Nat) (f : Conn → Conn) : (modConn s id f).host = s.host := by
  unfold modConn; (repeat' split) <;> simp
@[simp] theorem modConn_trust (s : State) (id : Nat) (f : Conn → Conn) : (modConn s id f).trust = s.trust := by
  unfold modConn; (repeat' split) <;> simp
@[simp] theorem modConn_life (s : State) (id : Nat) (f : Conn → Conn) : (modConn s id f).life = s.life := by
  unfold modConn; (repeat' split) <;> simp
@[simp] theorem modConn_health (s : State) (id : Nat) (f : Conn → Conn) : (modConn s id f).health = s.health := by
  unfold modConn; (repeat' split) <;> simp
@[simp] theorem modConn_jrnl (s : State) (id : Nat) (f : Conn → Conn) : (modConn s id f).jrnl = s.jrnl := by
  unfold modConn; (repeat' split) <;> simp
@[simp] theorem modConn_power (s : State) (id : Nat) (f : Conn → Conn) : (modConn s id f).power = s.power := by
  unfold modConn; (repeat' split) <;> simp
@[simp] theorem modConn_taps (s : State) (id : Nat) (f : Conn → Conn) : (modConn s id f).taps = s.taps := by
  unfold modConn; (repeat' split) <;> simp
@[simp] theorem modConn_out (s : State) (id : Nat) (f : Conn → Conn) : (modConn s id f).out = s.out := by
  unfold modConn; (repeat' split) <;> simp
@[simp] theorem modConn_pending (s : State) (id : Nat) (f : Conn → Conn) : (modConn s id f).pending = s.pending := by
  unfold modConn; (repeat' split) <;> simp
@[simp] theorem modConn_freeCtr (s : State) (id : Nat) (f : Conn → Conn) : (modConn s id f).freeCtr = s.freeCtr := by
  unfold modConn; (repeat' split) <;> simp
@[simp] theorem modConn_nextId (s : State) (id : Nat) (f : Conn → Conn) : (modConn s id f).nextId = s.nextId := by
  unfold modConn; (repeat' split) <;> simp

/-! ## toEgress -/

@[simp] theorem toEgress_msgs (s : State) (h : Nat) (id : Nat) (peer : Nat) (f : Frame) : (toEgress s h id peer f).msgs = s.msgs := by
  unfold toEgress; (repeat' split) <;> simp
@[simp] theorem toEgress_regs (s : State) (h : Nat) (id : Nat) (peer : Nat) (f : Frame) : (toEgress s h id peer f).regs = s.regs := by
  unfold toEgress; (repeat' split) <;> simp
@[simp] theorem toEgress_mem (s : State) (h : Nat) (id : Nat) (peer : Nat) (f : Frame) : (toEgress s h id peer f).mem = s.mem := by
  unfold toEgress; (repeat' split) <;> simp
@[simp] theorem toEgress_seqs (s : State) (h : Nat) (id : Nat) (peer : Nat) (f : Frame) : (toEgress s h id peer f).seqs = s.seqs := by
  unfold toEgress; (repeat' split) <;> simp
@[simp] theorem toEgress_merge (s : State) (h : Nat) (id : Nat) (peer : Nat) (f : Frame) : (toEgress s h id peer f).merge = s.merge := by
  unfold toEgress; (repeat' split) <;> simp
@[simp] theorem toEgress_fab (s : State) (h : Nat) (id : Nat) (peer : Nat) (f : Frame) : (toEgress s h id peer f).fab = s.fab := by
  unfold toEgress; (repeat' split) <;> simp
@[simp] theorem toEgress_ledg (s : State) (h : Nat) (id : Nat) (peer : Nat) (f : Frame) : (toEgress s h id peer f).ledg = s.ledg := by
  unfold toEgress; (repeat' split) <;> simp
@[simp] theorem toEgress_regn (s : State) (h : Nat) (id : Nat) (peer : Nat) (f : Frame) : (toEgress s h id peer f).regn = s.regn := by
  unfold toEgress; (repeat' split) <;> simp
@[simp] theorem toEgress_chive (s : State) (h : Nat) (id : Nat) (peer : Nat) (f : Frame) : (toEgress s h id peer f).chive = s.chive := by
  unfold toEgress; (repeat' split) <;> simp
@[simp] theorem toEgress_dill (s : State) (h : Nat) (id : Nat) (peer : Nat) (f : Frame) : (toEgress s h id peer f).dill = s.dill := by
  unfold toEgress; (repeat' split) <;> simp
@[simp] theorem toEgress_host (s : State) (h : Nat) (id : Nat) (peer : Nat) (f : Frame) : (toEgress s h id peer f).host = s.host := by
  unfold toEgress; (repeat' split) <;> simp
@[simp] theorem toEgress_trust (s : State) (h : Nat) (id : Nat) (peer : Nat) (f : Frame) : (toEgress s h id peer f).trust = s.trust := by
  unfold toEgress; (repeat' split) <;> simp
@[simp] theorem toEgress_life (s : State) (h : Nat) (id : Nat) (peer : Nat) (f : Frame) : (toEgress s h id peer f).life = s.life := by
  unfold toEgress; (repeat' split) <;> simp
@[simp] theorem toEgress_health (s : State) (h : Nat) (id : Nat) (peer : Nat) (f : Frame) : (toEgress s h id peer f).health = s.health := by
  unfold toEgress; (repeat' split) <;> simp
@[simp] theorem toEgress_jrnl (s : State) (h : Nat) (id : Nat) (peer : Nat) (f : Frame) : (toEgress s h id peer f).jrnl = s.jrnl := by
  unfold toEgress; (repeat' split) <;> simp
@[simp] theorem toEgress_power (s : State) (h : Nat) (id : Nat) (peer : Nat) (f : Frame) : (toEgress s h id peer f).power = s.power := by
  unfold toEgress; (repeat' split) <;> simp
@[simp] theorem toEgress_taps (s : State) (h : Nat) (id : Nat) (peer : Nat) (f : Frame) : (toEgress s h id peer f).taps = s.taps := by
  unfold toEgress; (repeat' split) <;> simp
@[simp] theorem toEgress_out (s : State) (h : Nat) (id : Nat) (peer : Nat) (f : Frame) : (toEgress s h id peer f).out = s.out := by
  unfold toEgress; (repeat' split) <;> simp
@[simp] theorem toEgress_pending (s : State) (h : Nat) (id : Nat) (peer : Nat) (f : Frame) : (toEgress s h id peer f).pending = s.pending := by
  unfold toEgress; (repeat' split) <;> simp
@[simp] theorem toEgress_freeCtr (s : State) (h : Nat) (id : Nat) (peer : Nat) (f : Frame) : (toEgress s h id peer f).freeCtr = s.freeCtr := by
  unfold toEgress; (repeat' split) <;> simp
@[simp] theorem toEgress_nextId (s : State) (h : Nat) (id : Nat) (peer : Nat) (f : Frame) : (toEgress s h id peer f).nextId = s.nextId := by
  unfold toEgress; (repeat' split) <;> simp

/-! ## pump -/

@[simp] theorem pump_msgs (s : State) (id : Nat) : (pump s id).msgs = s.msgs := by
  unfold pump; (repeat' split) <;> (try simp) <;> (try (apply foldl_part (fun s => s.msgs); intro s x; (repeat' split) <;> simp))
@[simp] theorem pump_regs (s : State) (id : Nat) : (pump s id).regs = s.regs := by
  unfold pump; (repeat' split) <;> (try simp) <;> (try (apply foldl_part (fun s => s.regs); intro s x; (repeat' split) <;> simp))
@[simp] theorem pump_mem (s : State) (id : Nat) : (pump s id).mem = s.mem := by
  unfold pump; (repeat' split) <;> (try simp) <;> (try (apply foldl_part (fun s => s.mem); intro s x; (repeat' split) <;> simp))
@[simp] theorem pump_seqs (s : State) (id : Nat) : (pump s id).seqs = s.seqs := by
  unfold pump; (repeat' split) <;> (try simp) <;> (try (apply foldl_part (fun s => s.seqs); intro s x; (repeat' split) <;> simp))
@[simp] theorem pump_merge (s : State) (id : Nat) : (pump s id).merge = s.merge := by
  unfold pump; (repeat' split) <;> (try simp) <;> (try (apply foldl_part (fun s => s.merge); intro s x; (repeat' split) <;> simp))
@[simp] theorem pump_ledg (s : State) (id : Nat) : (pump s id).ledg = s.ledg := by
  unfold pump; (repeat' split) <;> (try simp) <;> (try (apply foldl_part (fun s => s.ledg); intro s x; (repeat' split) <;> simp))
@[simp] theorem pump_regn (s : State) (id : Nat) : (pump s id).regn = s.regn := by
  unfold pump; (repeat' split) <;> (try simp) <;> (try (apply foldl_part (fun s => s.regn); intro s x; (repeat' split) <;> simp))
@[simp] theorem pump_chive (s : State) (id : Nat) : (pump s id).chive = s.chive := by
  unfold pump; (repeat' split) <;> (try simp) <;> (try (apply foldl_part (fun s => s.chive); intro s x; (repeat' split) <;> simp))
@[simp] theorem pump_dill (s : State) (id : Nat) : (pump s id).dill = s.dill := by
  unfold pump; (repeat' split) <;> (try simp) <;> (try (apply foldl_part (fun s => s.dill); intro s x; (repeat' split) <;> simp))
@[simp] theorem pump_host (s : State) (id : Nat) : (pump s id).host = s.host := by
  unfold pump; (repeat' split) <;> (try simp) <;> (try (apply foldl_part (fun s => s.host); intro s x; (repeat' split) <;> simp))
@[simp] theorem pump_trust (s : State) (id : Nat) : (pump s id).trust = s.trust := by
  unfold pump; (repeat' split) <;> (try simp) <;> (try (apply foldl_part (fun s => s.trust); intro s x; (repeat' split) <;> simp))
@[simp] theorem pump_life (s : State) (id : Nat) : (pump s id).life = s.life := by
  unfold pump; (repeat' split) <;> (try simp) <;> (try (apply foldl_part (fun s => s.life); intro s x; (repeat' split) <;> simp))
@[simp] theorem pump_health (s : State) (id : Nat) : (pump s id).health = s.health := by
  unfold pump; (repeat' split) <;> (try simp) <;> (try (apply foldl_part (fun s => s.health); intro s x; (repeat' split) <;> simp))
@[simp] theorem pump_jrnl (s : State) (id : Nat) : (pump s id).jrnl = s.jrnl := by
  unfold pump; (repeat' split) <;> (try simp) <;> (try (apply foldl_part (fun s => s.jrnl); intro s x; (repeat' split) <;> simp))
@[simp] theorem pump_power (s : State) (id : Nat) : (pump s id).power = s.power := by
  unfold pump; (repeat' split) <;> (try simp) <;> (try (apply foldl_part (fun s => s.power); intro s x; (repeat' split) <;> simp))
@[simp] theorem pump_taps (s : State) (id : Nat) : (pump s id).taps = s.taps := by
  unfold pump; (repeat' split) <;> (try simp) <;> (try (apply foldl_part (fun s => s.taps); intro s x; (repeat' split) <;> simp))
@[simp] theorem pump_out (s : State) (id : Nat) : (pump s id).out = s.out := by
  unfold pump; (repeat' split) <;> (try simp) <;> (try (apply foldl_part (fun s => s.out); intro s x; (repeat' split) <;> simp))
@[simp] theorem pump_pending (s : State) (id : Nat) : (pump s id).pending = s.pending := by
  unfold pump; (repeat' split) <;> (try simp) <;> (try (apply foldl_part (fun s => s.pending); intro s x; (repeat' split) <;> simp))
@[simp] theorem pump_freeCtr (s : State) (id : Nat) : (pump s id).freeCtr = s.freeCtr := by
  unfold pump; (repeat' split) <;> (try simp) <;> (try (apply foldl_part (fun s => s.freeCtr); intro s x; (repeat' split) <;> simp))
@[simp] theorem pump_nextId (s : State) (id : Nat) : (pump s id).nextId = s.nextId := by
  unfold pump; (repeat' split) <;> (try simp) <;> (try (apply foldl_part (fun s => s.nextId); intro s x; (repeat' split) <;> simp))

/-! ## sendMsg -/

@[simp] theorem sendMsg_msgs (s : State) (id : Nat) (op : Opcode) (flags : Nat) (replyTo : Nat) (cls : Nat) (hint : Nat) (payload : List Byte) : (sendMsg s id op flags replyTo cls hint payload).1.msgs = s.msgs := by
  unfold sendMsg; (repeat' split) <;> simp
@[simp] theorem sendMsg_regs (s : State) (id : Nat) (op : Opcode) (flags : Nat) (replyTo : Nat) (cls : Nat) (hint : Nat) (payload : List Byte) : (sendMsg s id op flags replyTo cls hint payload).1.regs = s.regs := by
  unfold sendMsg; (repeat' split) <;> simp
@[simp] theorem sendMsg_mem (s : State) (id : Nat) (op : Opcode) (flags : Nat) (replyTo : Nat) (cls : Nat) (hint : Nat) (payload : List Byte) : (sendMsg s id op flags replyTo cls hint payload).1.mem = s.mem := by
  unfold sendMsg; (repeat' split) <;> simp
@[simp] theorem sendMsg_seqs (s : State) (id : Nat) (op : Opcode) (flags : Nat) (replyTo : Nat) (cls : Nat) (hint : Nat) (payload : List Byte) : (sendMsg s id op flags replyTo cls hint payload).1.seqs = s.seqs := by
  unfold sendMsg; (repeat' split) <;> simp
@[simp] theorem sendMsg_merge (s : State) (id : Nat) (op : Opcode) (flags : Nat) (replyTo : Nat) (cls : Nat) (hint : Nat) (payload : List Byte) : (sendMsg s id op flags replyTo cls hint payload).1.merge = s.merge := by
  unfold sendMsg; (repeat' split) <;> simp
@[simp] theorem sendMsg_ledg (s : State) (id : Nat) (op : Opcode) (flags : Nat) (replyTo : Nat) (cls : Nat) (hint : Nat) (payload : List Byte) : (sendMsg s id op flags replyTo cls hint payload).1.ledg = s.ledg := by
  unfold sendMsg; (repeat' split) <;> simp
@[simp] theorem sendMsg_regn (s : State) (id : Nat) (op : Opcode) (flags : Nat) (replyTo : Nat) (cls : Nat) (hint : Nat) (payload : List Byte) : (sendMsg s id op flags replyTo cls hint payload).1.regn = s.regn := by
  unfold sendMsg; (repeat' split) <;> simp
@[simp] theorem sendMsg_chive (s : State) (id : Nat) (op : Opcode) (flags : Nat) (replyTo : Nat) (cls : Nat) (hint : Nat) (payload : List Byte) : (sendMsg s id op flags replyTo cls hint payload).1.chive = s.chive := by
  unfold sendMsg; (repeat' split) <;> simp
@[simp] theorem sendMsg_dill (s : State) (id : Nat) (op : Opcode) (flags : Nat) (replyTo : Nat) (cls : Nat) (hint : Nat) (payload : List Byte) : (sendMsg s id op flags replyTo cls hint payload).1.dill = s.dill := by
  unfold sendMsg; (repeat' split) <;> simp
@[simp] theorem sendMsg_host (s : State) (id : Nat) (op : Opcode) (flags : Nat) (replyTo : Nat) (cls : Nat) (hint : Nat) (payload : List Byte) : (sendMsg s id op flags replyTo cls hint payload).1.host = s.host := by
  unfold sendMsg; (repeat' split) <;> simp
@[simp] theorem sendMsg_trust (s : State) (id : Nat) (op : Opcode) (flags : Nat) (replyTo : Nat) (cls : Nat) (hint : Nat) (payload : List Byte) : (sendMsg s id op flags replyTo cls hint payload).1.trust = s.trust := by
  unfold sendMsg; (repeat' split) <;> simp
@[simp] theorem sendMsg_life (s : State) (id : Nat) (op : Opcode) (flags : Nat) (replyTo : Nat) (cls : Nat) (hint : Nat) (payload : List Byte) : (sendMsg s id op flags replyTo cls hint payload).1.life = s.life := by
  unfold sendMsg; (repeat' split) <;> simp
@[simp] theorem sendMsg_health (s : State) (id : Nat) (op : Opcode) (flags : Nat) (replyTo : Nat) (cls : Nat) (hint : Nat) (payload : List Byte) : (sendMsg s id op flags replyTo cls hint payload).1.health = s.health := by
  unfold sendMsg; (repeat' split) <;> simp
@[simp] theorem sendMsg_jrnl (s : State) (id : Nat) (op : Opcode) (flags : Nat) (replyTo : Nat) (cls : Nat) (hint : Nat) (payload : List Byte) : (sendMsg s id op flags replyTo cls hint payload).1.jrnl = s.jrnl := by
  unfold sendMsg; (repeat' split) <;> simp
@[simp] theorem sendMsg_power (s : State) (id : Nat) (op : Opcode) (flags : Nat) (replyTo : Nat) (cls : Nat) (hint : Nat) (payload : List Byte) : (sendMsg s id op flags replyTo cls hint payload).1.power = s.power := by
  unfold sendMsg; (repeat' split) <;> simp
@[simp] theorem sendMsg_taps (s : State) (id : Nat) (op : Opcode) (flags : Nat) (replyTo : Nat) (cls : Nat) (hint : Nat) (payload : List Byte) : (sendMsg s id op flags replyTo cls hint payload).1.taps = s.taps := by
  unfold sendMsg; (repeat' split) <;> simp
@[simp] theorem sendMsg_out (s : State) (id : Nat) (op : Opcode) (flags : Nat) (replyTo : Nat) (cls : Nat) (hint : Nat) (payload : List Byte) : (sendMsg s id op flags replyTo cls hint payload).1.out = s.out := by
  unfold sendMsg; (repeat' split) <;> simp
@[simp] theorem sendMsg_pending (s : State) (id : Nat) (op : Opcode) (flags : Nat) (replyTo : Nat) (cls : Nat) (hint : Nat) (payload : List Byte) : (sendMsg s id op flags replyTo cls hint payload).1.pending = s.pending := by
  unfold sendMsg; (repeat' split) <;> simp
@[simp] theorem sendMsg_freeCtr (s : State) (id : Nat) (op : Opcode) (flags : Nat) (replyTo : Nat) (cls : Nat) (hint : Nat) (payload : List Byte) : (sendMsg s id op flags replyTo cls hint payload).1.freeCtr = s.freeCtr := by
  unfold sendMsg; (repeat' split) <;> simp
@[simp] theorem sendMsg_nextId (s : State) (id : Nat) (op : Opcode) (flags : Nat) (replyTo : Nat) (cls : Nat) (hint : Nat) (payload : List Byte) : (sendMsg s id op flags replyTo cls hint payload).1.nextId = s.nextId := by
  unfold sendMsg; (repeat' split) <;> simp

/-! ## settleFlag -/

@[simp] theorem settleFlag_msgs (s : State) (h : Nat) (cls : Nat) : (settleFlag s h cls).msgs = s.msgs := by
  unfold settleFlag; (repeat' split) <;> simp
@[simp] theorem settleFlag_regs (s : State) (h : Nat) (cls : Nat) : (settleFlag s h cls).regs = s.regs := by
  unfold settleFlag; (repeat' split) <;> simp
@[simp] theorem settleFlag_mem (s : State) (h : Nat) (cls : Nat) : (settleFlag s h cls).mem = s.mem := by
  unfold settleFlag; (repeat' split) <;> simp
@[simp] theorem settleFlag_seqs (s : State) (h : Nat) (cls : Nat) : (settleFlag s h cls).seqs = s.seqs := by
  unfold settleFlag; (repeat' split) <;> simp
@[simp] theorem settleFlag_merge (s : State) (h : Nat) (cls : Nat) : (settleFlag s h cls).merge = s.merge := by
  unfold settleFlag; (repeat' split) <;> simp
@[simp] theorem settleFlag_fab (s : State) (h : Nat) (cls : Nat) : (settleFlag s h cls).fab = s.fab := by
  unfold settleFlag; (repeat' split) <;> simp
@[simp] theorem settleFlag_traf (s : State) (h : Nat) (cls : Nat) : (settleFlag s h cls).traf = s.traf := by
  unfold settleFlag; (repeat' split) <;> simp
@[simp] theorem settleFlag_ledg (s : State) (h : Nat) (cls : Nat) : (settleFlag s h cls).ledg = s.ledg := by
  unfold settleFlag; (repeat' split) <;> simp
@[simp] theorem settleFlag_regn (s : State) (h : Nat) (cls : Nat) : (settleFlag s h cls).regn = s.regn := by
  unfold settleFlag; (repeat' split) <;> simp
@[simp] theorem settleFlag_dill (s : State) (h : Nat) (cls : Nat) : (settleFlag s h cls).dill = s.dill := by
  unfold settleFlag; (repeat' split) <;> simp
@[simp] theorem settleFlag_host (s : State) (h : Nat) (cls : Nat) : (settleFlag s h cls).host = s.host := by
  unfold settleFlag; (repeat' split) <;> simp
@[simp] theorem settleFlag_trust (s : State) (h : Nat) (cls : Nat) : (settleFlag s h cls).trust = s.trust := by
  unfold settleFlag; (repeat' split) <;> simp
@[simp] theorem settleFlag_life (s : State) (h : Nat) (cls : Nat) : (settleFlag s h cls).life = s.life := by
  unfold settleFlag; (repeat' split) <;> simp
@[simp] theorem settleFlag_health (s : State) (h : Nat) (cls : Nat) : (settleFlag s h cls).health = s.health := by
  unfold settleFlag; (repeat' split) <;> simp
@[simp] theorem settleFlag_jrnl (s : State) (h : Nat) (cls : Nat) : (settleFlag s h cls).jrnl = s.jrnl := by
  unfold settleFlag; (repeat' split) <;> simp
@[simp] theorem settleFlag_power (s : State) (h : Nat) (cls : Nat) : (settleFlag s h cls).power = s.power := by
  unfold settleFlag; (repeat' split) <;> simp
@[simp] theorem settleFlag_taps (s : State) (h : Nat) (cls : Nat) : (settleFlag s h cls).taps = s.taps := by
  unfold settleFlag; (repeat' split) <;> simp
@[simp] theorem settleFlag_out (s : State) (h : Nat) (cls : Nat) : (settleFlag s h cls).out = s.out := by
  unfold settleFlag; (repeat' split) <;> simp
@[simp] theorem settleFlag_pending (s : State) (h : Nat) (cls : Nat) : (settleFlag s h cls).pending = s.pending := by
  unfold settleFlag; (repeat' split) <;> simp
@[simp] theorem settleFlag_freeCtr (s : State) (h : Nat) (cls : Nat) : (settleFlag s h cls).freeCtr = s.freeCtr := by
  unfold settleFlag; (repeat' split) <;> simp
@[simp] theorem settleFlag_nextId (s : State) (h : Nat) (cls : Nat) : (settleFlag s h cls).nextId = s.nextId := by
  unfold settleFlag; (repeat' split) <;> simp

/-! ## rowWrite -/

@[simp] theorem rowWrite_msgs (s : State) (h : Nat) (pos : Nat) (r : Option ChiveRow) : (rowWrite s h pos r).msgs = s.msgs := by
  unfold rowWrite; (repeat' split) <;> simp
@[simp] theorem rowWrite_regs (s : State) (h : Nat) (pos : Nat) (r : Option ChiveRow) : (rowWrite s h pos r).regs = s.regs := by
  unfold rowWrite; (repeat' split) <;> simp
@[simp] theorem rowWrite_mem (s : State) (h : Nat) (pos : Nat) (r : Option ChiveRow) : (rowWrite s h pos r).mem = s.mem := by
  unfold rowWrite; (repeat' split) <;> simp
@[simp] theorem rowWrite_seqs (s : State) (h : Nat) (pos : Nat) (r : Option ChiveRow) : (rowWrite s h pos r).seqs = s.seqs := by
  unfold rowWrite; (repeat' split) <;> simp
@[simp] theorem rowWrite_merge (s : State) (h : Nat) (pos : Nat) (r : Option ChiveRow) : (rowWrite s h pos r).merge = s.merge := by
  unfold rowWrite; (repeat' split) <;> simp
@[simp] theorem rowWrite_fab (s : State) (h : Nat) (pos : Nat) (r : Option ChiveRow) : (rowWrite s h pos r).fab = s.fab := by
  unfold rowWrite; (repeat' split) <;> simp
@[simp] theorem rowWrite_traf (s : State) (h : Nat) (pos : Nat) (r : Option ChiveRow) : (rowWrite s h pos r).traf = s.traf := by
  unfold rowWrite; (repeat' split) <;> simp
@[simp] theorem rowWrite_ledg (s : State) (h : Nat) (pos : Nat) (r : Option ChiveRow) : (rowWrite s h pos r).ledg = s.ledg := by
  unfold rowWrite; (repeat' split) <;> simp
@[simp] theorem rowWrite_regn (s : State) (h : Nat) (pos : Nat) (r : Option ChiveRow) : (rowWrite s h pos r).regn = s.regn := by
  unfold rowWrite; (repeat' split) <;> simp
@[simp] theorem rowWrite_dill (s : State) (h : Nat) (pos : Nat) (r : Option ChiveRow) : (rowWrite s h pos r).dill = s.dill := by
  unfold rowWrite; (repeat' split) <;> simp
@[simp] theorem rowWrite_host (s : State) (h : Nat) (pos : Nat) (r : Option ChiveRow) : (rowWrite s h pos r).host = s.host := by
  unfold rowWrite; (repeat' split) <;> simp
@[simp] theorem rowWrite_trust (s : State) (h : Nat) (pos : Nat) (r : Option ChiveRow) : (rowWrite s h pos r).trust = s.trust := by
  unfold rowWrite; (repeat' split) <;> simp
@[simp] theorem rowWrite_life (s : State) (h : Nat) (pos : Nat) (r : Option ChiveRow) : (rowWrite s h pos r).life = s.life := by
  unfold rowWrite; (repeat' split) <;> simp
@[simp] theorem rowWrite_health (s : State) (h : Nat) (pos : Nat) (r : Option ChiveRow) : (rowWrite s h pos r).health = s.health := by
  unfold rowWrite; (repeat' split) <;> simp
@[simp] theorem rowWrite_jrnl (s : State) (h : Nat) (pos : Nat) (r : Option ChiveRow) : (rowWrite s h pos r).jrnl = s.jrnl := by
  unfold rowWrite; (repeat' split) <;> simp
@[simp] theorem rowWrite_power (s : State) (h : Nat) (pos : Nat) (r : Option ChiveRow) : (rowWrite s h pos r).power = s.power := by
  unfold rowWrite; (repeat' split) <;> simp
@[simp] theorem rowWrite_taps (s : State) (h : Nat) (pos : Nat) (r : Option ChiveRow) : (rowWrite s h pos r).taps = s.taps := by
  unfold rowWrite; (repeat' split) <;> simp
@[simp] theorem rowWrite_out (s : State) (h : Nat) (pos : Nat) (r : Option ChiveRow) : (rowWrite s h pos r).out = s.out := by
  unfold rowWrite; (repeat' split) <;> simp
@[simp] theorem rowWrite_pending (s : State) (h : Nat) (pos : Nat) (r : Option ChiveRow) : (rowWrite s h pos r).pending = s.pending := by
  unfold rowWrite; (repeat' split) <;> simp
@[simp] theorem rowWrite_freeCtr (s : State) (h : Nat) (pos : Nat) (r : Option ChiveRow) : (rowWrite s h pos r).freeCtr = s.freeCtr := by
  unfold rowWrite; (repeat' split) <;> simp
@[simp] theorem rowWrite_nextId (s : State) (h : Nat) (pos : Nat) (r : Option ChiveRow) : (rowWrite s h pos r).nextId = s.nextId := by
  unfold rowWrite; (repeat' split) <;> simp

/-! ## bumpBy -/

@[simp] theorem bumpBy_msgs (s : State) (r : Reg) (inst : Nat) (n : Nat) : (bumpBy s r inst n).msgs = s.msgs := by
  unfold bumpBy; (repeat' split) <;> simp
@[simp] theorem bumpBy_mem (s : State) (r : Reg) (inst : Nat) (n : Nat) : (bumpBy s r inst n).mem = s.mem := by
  unfold bumpBy; (repeat' split) <;> simp
@[simp] theorem bumpBy_seqs (s : State) (r : Reg) (inst : Nat) (n : Nat) : (bumpBy s r inst n).seqs = s.seqs := by
  unfold bumpBy; (repeat' split) <;> simp
@[simp] theorem bumpBy_merge (s : State) (r : Reg) (inst : Nat) (n : Nat) : (bumpBy s r inst n).merge = s.merge := by
  unfold bumpBy; (repeat' split) <;> simp
@[simp] theorem bumpBy_fab (s : State) (r : Reg) (inst : Nat) (n : Nat) : (bumpBy s r inst n).fab = s.fab := by
  unfold bumpBy; (repeat' split) <;> simp
@[simp] theorem bumpBy_traf (s : State) (r : Reg) (inst : Nat) (n : Nat) : (bumpBy s r inst n).traf = s.traf := by
  unfold bumpBy; (repeat' split) <;> simp
@[simp] theorem bumpBy_ledg (s : State) (r : Reg) (inst : Nat) (n : Nat) : (bumpBy s r inst n).ledg = s.ledg := by
  unfold bumpBy; (repeat' split) <;> simp
@[simp] theorem bumpBy_regn (s : State) (r : Reg) (inst : Nat) (n : Nat) : (bumpBy s r inst n).regn = s.regn := by
  unfold bumpBy; (repeat' split) <;> simp
@[simp] theorem bumpBy_chive (s : State) (r : Reg) (inst : Nat) (n : Nat) : (bumpBy s r inst n).chive = s.chive := by
  unfold bumpBy; (repeat' split) <;> simp
@[simp] theorem bumpBy_dill (s : State) (r : Reg) (inst : Nat) (n : Nat) : (bumpBy s r inst n).dill = s.dill := by
  unfold bumpBy; (repeat' split) <;> simp
@[simp] theorem bumpBy_host (s : State) (r : Reg) (inst : Nat) (n : Nat) : (bumpBy s r inst n).host = s.host := by
  unfold bumpBy; (repeat' split) <;> simp
@[simp] theorem bumpBy_trust (s : State) (r : Reg) (inst : Nat) (n : Nat) : (bumpBy s r inst n).trust = s.trust := by
  unfold bumpBy; (repeat' split) <;> simp
@[simp] theorem bumpBy_life (s : State) (r : Reg) (inst : Nat) (n : Nat) : (bumpBy s r inst n).life = s.life := by
  unfold bumpBy; (repeat' split) <;> simp
@[simp] theorem bumpBy_health (s : State) (r : Reg) (inst : Nat) (n : Nat) : (bumpBy s r inst n).health = s.health := by
  unfold bumpBy; (repeat' split) <;> simp
@[simp] theorem bumpBy_jrnl (s : State) (r : Reg) (inst : Nat) (n : Nat) : (bumpBy s r inst n).jrnl = s.jrnl := by
  unfold bumpBy; (repeat' split) <;> simp
@[simp] theorem bumpBy_power (s : State) (r : Reg) (inst : Nat) (n : Nat) : (bumpBy s r inst n).power = s.power := by
  unfold bumpBy; (repeat' split) <;> simp
@[simp] theorem bumpBy_taps (s : State) (r : Reg) (inst : Nat) (n : Nat) : (bumpBy s r inst n).taps = s.taps := by
  unfold bumpBy; (repeat' split) <;> simp
@[simp] theorem bumpBy_out (s : State) (r : Reg) (inst : Nat) (n : Nat) : (bumpBy s r inst n).out = s.out := by
  unfold bumpBy; (repeat' split) <;> simp
@[simp] theorem bumpBy_pending (s : State) (r : Reg) (inst : Nat) (n : Nat) : (bumpBy s r inst n).pending = s.pending := by
  unfold bumpBy; (repeat' split) <;> simp
@[simp] theorem bumpBy_freeCtr (s : State) (r : Reg) (inst : Nat) (n : Nat) : (bumpBy s r inst n).freeCtr = s.freeCtr := by
  unfold bumpBy; (repeat' split) <;> simp
@[simp] theorem bumpBy_nextId (s : State) (r : Reg) (inst : Nat) (n : Nat) : (bumpBy s r inst n).nextId = s.nextId := by
  unfold bumpBy; (repeat' split) <;> simp

/-! ## bump -/

@[simp] theorem bump_msgs (s : State) (r : Reg) (inst : Nat) : (bump s r inst).msgs = s.msgs := by
  unfold bump; (repeat' split) <;> simp
@[simp] theorem bump_mem (s : State) (r : Reg) (inst : Nat) : (bump s r inst).mem = s.mem := by
  unfold bump; (repeat' split) <;> simp
@[simp] theorem bump_seqs (s : State) (r : Reg) (inst : Nat) : (bump s r inst).seqs = s.seqs := by
  unfold bump; (repeat' split) <;> simp
@[simp] theorem bump_merge (s : State) (r : Reg) (inst : Nat) : (bump s r inst).merge = s.merge := by
  unfold bump; (repeat' split) <;> simp
@[simp] theorem bump_fab (s : State) (r : Reg) (inst : Nat) : (bump s r inst).fab = s.fab := by
  unfold bump; (repeat' split) <;> simp
@[simp] theorem bump_traf (s : State) (r : Reg) (inst : Nat) : (bump s r inst).traf = s.traf := by
  unfold bump; (repeat' split) <;> simp
@[simp] theorem bump_ledg (s : State) (r : Reg) (inst : Nat) : (bump s r inst).ledg = s.ledg := by
  unfold bump; (repeat' split) <;> simp
@[simp] theorem bump_regn (s : State) (r : Reg) (inst : Nat) : (bump s r inst).regn = s.regn := by
  unfold bump; (repeat' split) <;> simp
@[simp] theorem bump_chive (s : State) (r : Reg) (inst : Nat) : (bump s r inst).chive = s.chive := by
  unfold bump; (repeat' split) <;> simp
@[simp] theorem bump_dill (s : State) (r : Reg) (inst : Nat) : (bump s r inst).dill = s.dill := by
  unfold bump; (repeat' split) <;> simp
@[simp] theorem bump_host (s : State) (r : Reg) (inst : Nat) : (bump s r inst).host = s.host := by
  unfold bump; (repeat' split) <;> simp
@[simp] theorem bump_trust (s : State) (r : Reg) (inst : Nat) : (bump s r inst).trust = s.trust := by
  unfold bump; (repeat' split) <;> simp
@[simp] theorem bump_life (s : State) (r : Reg) (inst : Nat) : (bump s r inst).life = s.life := by
  unfold bump; (repeat' split) <;> simp
@[simp] theorem bump_health (s : State) (r : Reg) (inst : Nat) : (bump s r inst).health = s.health := by
  unfold bump; (repeat' split) <;> simp
@[simp] theorem bump_jrnl (s : State) (r : Reg) (inst : Nat) : (bump s r inst).jrnl = s.jrnl := by
  unfold bump; (repeat' split) <;> simp
@[simp] theorem bump_power (s : State) (r : Reg) (inst : Nat) : (bump s r inst).power = s.power := by
  unfold bump; (repeat' split) <;> simp
@[simp] theorem bump_taps (s : State) (r : Reg) (inst : Nat) : (bump s r inst).taps = s.taps := by
  unfold bump; (repeat' split) <;> simp
@[simp] theorem bump_out (s : State) (r : Reg) (inst : Nat) : (bump s r inst).out = s.out := by
  unfold bump; (repeat' split) <;> simp
@[simp] theorem bump_pending (s : State) (r : Reg) (inst : Nat) : (bump s r inst).pending = s.pending := by
  unfold bump; (repeat' split) <;> simp
@[simp] theorem bump_freeCtr (s : State) (r : Reg) (inst : Nat) : (bump s r inst).freeCtr = s.freeCtr := by
  unfold bump; (repeat' split) <;> simp
@[simp] theorem bump_nextId (s : State) (r : Reg) (inst : Nat) : (bump s r inst).nextId = s.nextId := by
  unfold bump; (repeat' split) <;> simp

/-! ## chiveBump -/

@[simp] theorem chiveBump_msgs (s : State) (h : Nat) (r : Reg) : (chiveBump s h r).msgs = s.msgs := by
  unfold chiveBump; (repeat' split) <;> simp
@[simp] theorem chiveBump_mem (s : State) (h : Nat) (r : Reg) : (chiveBump s h r).mem = s.mem := by
  unfold chiveBump; (repeat' split) <;> simp
@[simp] theorem chiveBump_seqs (s : State) (h : Nat) (r : Reg) : (chiveBump s h r).seqs = s.seqs := by
  unfold chiveBump; (repeat' split) <;> simp
@[simp] theorem chiveBump_merge (s : State) (h : Nat) (r : Reg) : (chiveBump s h r).merge = s.merge := by
  unfold chiveBump; (repeat' split) <;> simp
@[simp] theorem chiveBump_fab (s : State) (h : Nat) (r : Reg) : (chiveBump s h r).fab = s.fab := by
  unfold chiveBump; (repeat' split) <;> simp
@[simp] theorem chiveBump_traf (s : State) (h : Nat) (r : Reg) : (chiveBump s h r).traf = s.traf := by
  unfold chiveBump; (repeat' split) <;> simp
@[simp] theorem chiveBump_ledg (s : State) (h : Nat) (r : Reg) : (chiveBump s h r).ledg = s.ledg := by
  unfold chiveBump; (repeat' split) <;> simp
@[simp] theorem chiveBump_regn (s : State) (h : Nat) (r : Reg) : (chiveBump s h r).regn = s.regn := by
  unfold chiveBump; (repeat' split) <;> simp
@[simp] theorem chiveBump_chive (s : State) (h : Nat) (r : Reg) : (chiveBump s h r).chive = s.chive := by
  unfold chiveBump; (repeat' split) <;> simp
@[simp] theorem chiveBump_dill (s : State) (h : Nat) (r : Reg) : (chiveBump s h r).dill = s.dill := by
  unfold chiveBump; (repeat' split) <;> simp
@[simp] theorem chiveBump_host (s : State) (h : Nat) (r : Reg) : (chiveBump s h r).host = s.host := by
  unfold chiveBump; (repeat' split) <;> simp
@[simp] theorem chiveBump_trust (s : State) (h : Nat) (r : Reg) : (chiveBump s h r).trust = s.trust := by
  unfold chiveBump; (repeat' split) <;> simp
@[simp] theorem chiveBump_life (s : State) (h : Nat) (r : Reg) : (chiveBump s h r).life = s.life := by
  unfold chiveBump; (repeat' split) <;> simp
@[simp] theorem chiveBump_health (s : State) (h : Nat) (r : Reg) : (chiveBump s h r).health = s.health := by
  unfold chiveBump; (repeat' split) <;> simp
@[simp] theorem chiveBump_jrnl (s : State) (h : Nat) (r : Reg) : (chiveBump s h r).jrnl = s.jrnl := by
  unfold chiveBump; (repeat' split) <;> simp
@[simp] theorem chiveBump_power (s : State) (h : Nat) (r : Reg) : (chiveBump s h r).power = s.power := by
  unfold chiveBump; (repeat' split) <;> simp
@[simp] theorem chiveBump_taps (s : State) (h : Nat) (r : Reg) : (chiveBump s h r).taps = s.taps := by
  unfold chiveBump; (repeat' split) <;> simp
@[simp] theorem chiveBump_out (s : State) (h : Nat) (r : Reg) : (chiveBump s h r).out = s.out := by
  unfold chiveBump; (repeat' split) <;> simp
@[simp] theorem chiveBump_pending (s : State) (h : Nat) (r : Reg) : (chiveBump s h r).pending = s.pending := by
  unfold chiveBump; (repeat' split) <;> simp
@[simp] theorem chiveBump_freeCtr (s : State) (h : Nat) (r : Reg) : (chiveBump s h r).freeCtr = s.freeCtr := by
  unfold chiveBump; (repeat' split) <;> simp
@[simp] theorem chiveBump_nextId (s : State) (h : Nat) (r : Reg) : (chiveBump s h r).nextId = s.nextId := by
  unfold chiveBump; (repeat' split) <;> simp

/-! ## setOt -/

@[simp] theorem setOt_msgs (s : State) (h : Nat) (cls : Nat) (rows : List (Nat × ChiveRow)) : (setOt s h cls rows).msgs = s.msgs := by
  unfold setOt; (repeat' split) <;> simp
@[simp] theorem setOt_regs (s : State) (h : Nat) (cls : Nat) (rows : List (Nat × ChiveRow)) : (setOt s h cls rows).regs = s.regs := by
  unfold setOt; (repeat' split) <;> simp
@[simp] theorem setOt_mem (s : State) (h : Nat) (cls : Nat) (rows : List (Nat × ChiveRow)) : (setOt s h cls rows).mem = s.mem := by
  unfold setOt; (repeat' split) <;> simp
@[simp] theorem setOt_seqs (s : State) (h : Nat) (cls : Nat) (rows : List (Nat × ChiveRow)) : (setOt s h cls rows).seqs = s.seqs := by
  unfold setOt; (repeat' split) <;> simp
@[simp] theorem setOt_merge (s : State) (h : Nat) (cls : Nat) (rows : List (Nat × ChiveRow)) : (setOt s h cls rows).merge = s.merge := by
  unfold setOt; (repeat' split) <;> simp
@[simp] theorem setOt_fab (s : State) (h : Nat) (cls : Nat) (rows : List (Nat × ChiveRow)) : (setOt s h cls rows).fab = s.fab := by
  unfold setOt; (repeat' split) <;> simp
@[simp] theorem setOt_traf (s : State) (h : Nat) (cls : Nat) (rows : List (Nat × ChiveRow)) : (setOt s h cls rows).traf = s.traf := by
  unfold setOt; (repeat' split) <;> simp
@[simp] theorem setOt_ledg (s : State) (h : Nat) (cls : Nat) (rows : List (Nat × ChiveRow)) : (setOt s h cls rows).ledg = s.ledg := by
  unfold setOt; (repeat' split) <;> simp
@[simp] theorem setOt_regn (s : State) (h : Nat) (cls : Nat) (rows : List (Nat × ChiveRow)) : (setOt s h cls rows).regn = s.regn := by
  unfold setOt; (repeat' split) <;> simp
@[simp] theorem setOt_dill (s : State) (h : Nat) (cls : Nat) (rows : List (Nat × ChiveRow)) : (setOt s h cls rows).dill = s.dill := by
  unfold setOt; (repeat' split) <;> simp
@[simp] theorem setOt_host (s : State) (h : Nat) (cls : Nat) (rows : List (Nat × ChiveRow)) : (setOt s h cls rows).host = s.host := by
  unfold setOt; (repeat' split) <;> simp
@[simp] theorem setOt_trust (s : State) (h : Nat) (cls : Nat) (rows : List (Nat × ChiveRow)) : (setOt s h cls rows).trust = s.trust := by
  unfold setOt; (repeat' split) <;> simp
@[simp] theorem setOt_life (s : State) (h : Nat) (cls : Nat) (rows : List (Nat × ChiveRow)) : (setOt s h cls rows).life = s.life := by
  unfold setOt; (repeat' split) <;> simp
@[simp] theorem setOt_health (s : State) (h : Nat) (cls : Nat) (rows : List (Nat × ChiveRow)) : (setOt s h cls rows).health = s.health := by
  unfold setOt; (repeat' split) <;> simp
@[simp] theorem setOt_jrnl (s : State) (h : Nat) (cls : Nat) (rows : List (Nat × ChiveRow)) : (setOt s h cls rows).jrnl = s.jrnl := by
  unfold setOt; (repeat' split) <;> simp
@[simp] theorem setOt_power (s : State) (h : Nat) (cls : Nat) (rows : List (Nat × ChiveRow)) : (setOt s h cls rows).power = s.power := by
  unfold setOt; (repeat' split) <;> simp
@[simp] theorem setOt_taps (s : State) (h : Nat) (cls : Nat) (rows : List (Nat × ChiveRow)) : (setOt s h cls rows).taps = s.taps := by
  unfold setOt; (repeat' split) <;> simp
@[simp] theorem setOt_out (s : State) (h : Nat) (cls : Nat) (rows : List (Nat × ChiveRow)) : (setOt s h cls rows).out = s.out := by
  unfold setOt; (repeat' split) <;> simp
@[simp] theorem setOt_pending (s : State) (h : Nat) (cls : Nat) (rows : List (Nat × ChiveRow)) : (setOt s h cls rows).pending = s.pending := by
  unfold setOt; (repeat' split) <;> simp
@[simp] theorem setOt_freeCtr (s : State) (h : Nat) (cls : Nat) (rows : List (Nat × ChiveRow)) : (setOt s h cls rows).freeCtr = s.freeCtr := by
  unfold setOt; (repeat' split) <;> simp
@[simp] theorem setOt_nextId (s : State) (h : Nat) (cls : Nat) (rows : List (Nat × ChiveRow)) : (setOt s h cls rows).nextId = s.nextId := by
  unfold setOt; (repeat' split) <;> simp

/-! ## probed -/

@[simp] theorem probed_msgs (s : State) (h : Nat) (cls : Nat) : (probed s h cls).msgs = s.msgs := by
  unfold probed; (repeat' split) <;> simp
@[simp] theorem probed_mem (s : State) (h : Nat) (cls : Nat) : (probed s h cls).mem = s.mem := by
  unfold probed; (repeat' split) <;> simp
@[simp] theorem probed_seqs (s : State) (h : Nat) (cls : Nat) : (probed s h cls).seqs = s.seqs := by
  unfold probed; (repeat' split) <;> simp
@[simp] theorem probed_merge (s : State) (h : Nat) (cls : Nat) : (probed s h cls).merge = s.merge := by
  unfold probed; (repeat' split) <;> simp
@[simp] theorem probed_fab (s : State) (h : Nat) (cls : Nat) : (probed s h cls).fab = s.fab := by
  unfold probed; (repeat' split) <;> simp
@[simp] theorem probed_traf (s : State) (h : Nat) (cls : Nat) : (probed s h cls).traf = s.traf := by
  unfold probed; (repeat' split) <;> simp
@[simp] theorem probed_ledg (s : State) (h : Nat) (cls : Nat) : (probed s h cls).ledg = s.ledg := by
  unfold probed; (repeat' split) <;> simp
@[simp] theorem probed_regn (s : State) (h : Nat) (cls : Nat) : (probed s h cls).regn = s.regn := by
  unfold probed; (repeat' split) <;> simp
@[simp] theorem probed_chive (s : State) (h : Nat) (cls : Nat) : (probed s h cls).chive = s.chive := by
  unfold probed; (repeat' split) <;> simp
@[simp] theorem probed_dill (s : State) (h : Nat) (cls : Nat) : (probed s h cls).dill = s.dill := by
  unfold probed; (repeat' split) <;> simp
@[simp] theorem probed_host (s : State) (h : Nat) (cls : Nat) : (probed s h cls).host = s.host := by
  unfold probed; (repeat' split) <;> simp
@[simp] theorem probed_trust (s : State) (h : Nat) (cls : Nat) : (probed s h cls).trust = s.trust := by
  unfold probed; (repeat' split) <;> simp
@[simp] theorem probed_life (s : State) (h : Nat) (cls : Nat) : (probed s h cls).life = s.life := by
  unfold probed; (repeat' split) <;> simp
@[simp] theorem probed_health (s : State) (h : Nat) (cls : Nat) : (probed s h cls).health = s.health := by
  unfold probed; (repeat' split) <;> simp
@[simp] theorem probed_jrnl (s : State) (h : Nat) (cls : Nat) : (probed s h cls).jrnl = s.jrnl := by
  unfold probed; (repeat' split) <;> simp
@[simp] theorem probed_power (s : State) (h : Nat) (cls : Nat) : (probed s h cls).power = s.power := by
  unfold probed; (repeat' split) <;> simp
@[simp] theorem probed_taps (s : State) (h : Nat) (cls : Nat) : (probed s h cls).taps = s.taps := by
  unfold probed; (repeat' split) <;> simp
@[simp] theorem probed_out (s : State) (h : Nat) (cls : Nat) : (probed s h cls).out = s.out := by
  unfold probed; (repeat' split) <;> simp
@[simp] theorem probed_pending (s : State) (h : Nat) (cls : Nat) : (probed s h cls).pending = s.pending := by
  unfold probed; (repeat' split) <;> simp
@[simp] theorem probed_freeCtr (s : State) (h : Nat) (cls : Nat) : (probed s h cls).freeCtr = s.freeCtr := by
  unfold probed; (repeat' split) <;> simp
@[simp] theorem probed_nextId (s : State) (h : Nat) (cls : Nat) : (probed s h cls).nextId = s.nextId := by
  unfold probed; (repeat' split) <;> simp

/-! ## delete -/

@[simp] theorem delete_msgs (s : State) (h : Nat) (cls : Nat) (key : Nat) (prio : Nat) : (delete s h cls key prio).msgs = s.msgs := by
  unfold delete
  try dsimp only
  (repeat' split) <;> (try simp) <;> (repeat' split) <;> simp
@[simp] theorem delete_mem (s : State) (h : Nat) (cls : Nat) (key : Nat) (prio : Nat) : (delete s h cls key prio).mem = s.mem := by
  unfold delete
  try dsimp only
  (repeat' split) <;> (try simp) <;> (repeat' split) <;> simp
@[simp] theorem delete_seqs (s : State) (h : Nat) (cls : Nat) (key : Nat) (prio : Nat) : (delete s h cls key prio).seqs = s.seqs := by
  unfold delete
  try dsimp only
  (repeat' split) <;> (try simp) <;> (repeat' split) <;> simp
@[simp] theorem delete_merge (s : State) (h : Nat) (cls : Nat) (key : Nat) (prio : Nat) : (delete s h cls key prio).merge = s.merge := by
  unfold delete
  try dsimp only
  (repeat' split) <;> (try simp) <;> (repeat' split) <;> simp
@[simp] theorem delete_fab (s : State) (h : Nat) (cls : Nat) (key : Nat) (prio : Nat) : (delete s h cls key prio).fab = s.fab := by
  unfold delete
  try dsimp only
  (repeat' split) <;> (try simp) <;> (repeat' split) <;> simp
@[simp] theorem delete_traf (s : State) (h : Nat) (cls : Nat) (key : Nat) (prio : Nat) : (delete s h cls key prio).traf = s.traf := by
  unfold delete
  try dsimp only
  (repeat' split) <;> (try simp) <;> (repeat' split) <;> simp
@[simp] theorem delete_ledg (s : State) (h : Nat) (cls : Nat) (key : Nat) (prio : Nat) : (delete s h cls key prio).ledg = s.ledg := by
  unfold delete
  try dsimp only
  (repeat' split) <;> (try simp) <;> (repeat' split) <;> simp
@[simp] theorem delete_regn (s : State) (h : Nat) (cls : Nat) (key : Nat) (prio : Nat) : (delete s h cls key prio).regn = s.regn := by
  unfold delete
  try dsimp only
  (repeat' split) <;> (try simp) <;> (repeat' split) <;> simp
@[simp] theorem delete_dill (s : State) (h : Nat) (cls : Nat) (key : Nat) (prio : Nat) : (delete s h cls key prio).dill = s.dill := by
  unfold delete
  try dsimp only
  (repeat' split) <;> (try simp) <;> (repeat' split) <;> simp
@[simp] theorem delete_host (s : State) (h : Nat) (cls : Nat) (key : Nat) (prio : Nat) : (delete s h cls key prio).host = s.host := by
  unfold delete
  try dsimp only
  (repeat' split) <;> (try simp) <;> (repeat' split) <;> simp
@[simp] theorem delete_trust (s : State) (h : Nat) (cls : Nat) (key : Nat) (prio : Nat) : (delete s h cls key prio).trust = s.trust := by
  unfold delete
  try dsimp only
  (repeat' split) <;> (try simp) <;> (repeat' split) <;> simp
@[simp] theorem delete_life (s : State) (h : Nat) (cls : Nat) (key : Nat) (prio : Nat) : (delete s h cls key prio).life = s.life := by
  unfold delete
  try dsimp only
  (repeat' split) <;> (try simp) <;> (repeat' split) <;> simp
@[simp] theorem delete_health (s : State) (h : Nat) (cls : Nat) (key : Nat) (prio : Nat) : (delete s h cls key prio).health = s.health := by
  unfold delete
  try dsimp only
  (repeat' split) <;> (try simp) <;> (repeat' split) <;> simp
@[simp] theorem delete_jrnl (s : State) (h : Nat) (cls : Nat) (key : Nat) (prio : Nat) : (delete s h cls key prio).jrnl = s.jrnl := by
  unfold delete
  try dsimp only
  (repeat' split) <;> (try simp) <;> (repeat' split) <;> simp
@[simp] theorem delete_power (s : State) (h : Nat) (cls : Nat) (key : Nat) (prio : Nat) : (delete s h cls key prio).power = s.power := by
  unfold delete
  try dsimp only
  (repeat' split) <;> (try simp) <;> (repeat' split) <;> simp
@[simp] theorem delete_taps (s : State) (h : Nat) (cls : Nat) (key : Nat) (prio : Nat) : (delete s h cls key prio).taps = s.taps := by
  unfold delete
  try dsimp only
  (repeat' split) <;> (try simp) <;> (repeat' split) <;> simp
@[simp] theorem delete_out (s : State) (h : Nat) (cls : Nat) (key : Nat) (prio : Nat) : (delete s h cls key prio).out = s.out := by
  unfold delete
  try dsimp only
  (repeat' split) <;> (try simp) <;> (repeat' split) <;> simp
@[simp] theorem delete_pending (s : State) (h : Nat) (cls : Nat) (key : Nat) (prio : Nat) : (delete s h cls key prio).pending = s.pending := by
  unfold delete
  try dsimp only
  (repeat' split) <;> (try simp) <;> (repeat' split) <;> simp
@[simp] theorem delete_freeCtr (s : State) (h : Nat) (cls : Nat) (key : Nat) (prio : Nat) : (delete s h cls key prio).freeCtr = s.freeCtr := by
  unfold delete
  try dsimp only
  (repeat' split) <;> (try simp) <;> (repeat' split) <;> simp
@[simp] theorem delete_nextId (s : State) (h : Nat) (cls : Nat) (key : Nat) (prio : Nat) : (delete s h cls key prio).nextId = s.nextId := by
  unfold delete
  try dsimp only
  (repeat' split) <;> (try simp) <;> (repeat' split) <;> simp

/-! ## sendUnseq -/

@[simp] theorem sendUnseq_msgs (s : State) (id : Nat) (op : Opcode) (flags : Nat) (hint : Nat) (payload : List Byte) : (sendUnseq s id op flags hint payload).msgs = s.msgs := by
  unfold sendUnseq; (repeat' split) <;> simp
@[simp] theorem sendUnseq_regs (s : State) (id : Nat) (op : Opcode) (flags : Nat) (hint : Nat) (payload : List Byte) : (sendUnseq s id op flags hint payload).regs = s.regs := by
  unfold sendUnseq; (repeat' split) <;> simp
@[simp] theorem sendUnseq_mem (s : State) (id : Nat) (op : Opcode) (flags : Nat) (hint : Nat) (payload : List Byte) : (sendUnseq s id op flags hint payload).mem = s.mem := by
  unfold sendUnseq; (repeat' split) <;> simp
@[simp] theorem sendUnseq_seqs (s : State) (id : Nat) (op : Opcode) (flags : Nat) (hint : Nat) (payload : List Byte) : (sendUnseq s id op flags hint payload).seqs = s.seqs := by
  unfold sendUnseq; (repeat' split) <;> simp
@[simp] theorem sendUnseq_merge (s : State) (id : Nat) (op : Opcode) (flags : Nat) (hint : Nat) (payload : List Byte) : (sendUnseq s id op flags hint payload).merge = s.merge := by
  unfold sendUnseq; (repeat' split) <;> simp
@[simp] theorem sendUnseq_fab (s : State) (id : Nat) (op : Opcode) (flags : Nat) (hint : Nat) (payload : List Byte) : (sendUnseq s id op flags hint payload).fab = s.fab := by
  unfold sendUnseq; (repeat' split) <;> simp
@[simp] theorem sendUnseq_ledg (s : State) (id : Nat) (op : Opcode) (flags : Nat) (hint : Nat) (payload : List Byte) : (sendUnseq s id op flags hint payload).ledg = s.ledg := by
  unfold sendUnseq; (repeat' split) <;> simp
@[simp] theorem sendUnseq_regn (s : State) (id : Nat) (op : Opcode) (flags : Nat) (hint : Nat) (payload : List Byte) : (sendUnseq s id op flags hint payload).regn = s.regn := by
  unfold sendUnseq; (repeat' split) <;> simp
@[simp] theorem sendUnseq_chive (s : State) (id : Nat) (op : Opcode) (flags : Nat) (hint : Nat) (payload : List Byte) : (sendUnseq s id op flags hint payload).chive = s.chive := by
  unfold sendUnseq; (repeat' split) <;> simp
@[simp] theorem sendUnseq_dill (s : State) (id : Nat) (op : Opcode) (flags : Nat) (hint : Nat) (payload : List Byte) : (sendUnseq s id op flags hint payload).dill = s.dill := by
  unfold sendUnseq; (repeat' split) <;> simp
@[simp] theorem sendUnseq_host (s : State) (id : Nat) (op : Opcode) (flags : Nat) (hint : Nat) (payload : List Byte) : (sendUnseq s id op flags hint payload).host = s.host := by
  unfold sendUnseq; (repeat' split) <;> simp
@[simp] theorem sendUnseq_trust (s : State) (id : Nat) (op : Opcode) (flags : Nat) (hint : Nat) (payload : List Byte) : (sendUnseq s id op flags hint payload).trust = s.trust := by
  unfold sendUnseq; (repeat' split) <;> simp
@[simp] theorem sendUnseq_life (s : State) (id : Nat) (op : Opcode) (flags : Nat) (hint : Nat) (payload : List Byte) : (sendUnseq s id op flags hint payload).life = s.life := by
  unfold sendUnseq; (repeat' split) <;> simp
@[simp] theorem sendUnseq_health (s : State) (id : Nat) (op : Opcode) (flags : Nat) (hint : Nat) (payload : List Byte) : (sendUnseq s id op flags hint payload).health = s.health := by
  unfold sendUnseq; (repeat' split) <;> simp
@[simp] theorem sendUnseq_jrnl (s : State) (id : Nat) (op : Opcode) (flags : Nat) (hint : Nat) (payload : List Byte) : (sendUnseq s id op flags hint payload).jrnl = s.jrnl := by
  unfold sendUnseq; (repeat' split) <;> simp
@[simp] theorem sendUnseq_power (s : State) (id : Nat) (op : Opcode) (flags : Nat) (hint : Nat) (payload : List Byte) : (sendUnseq s id op flags hint payload).power = s.power := by
  unfold sendUnseq; (repeat' split) <;> simp
@[simp] theorem sendUnseq_taps (s : State) (id : Nat) (op : Opcode) (flags : Nat) (hint : Nat) (payload : List Byte) : (sendUnseq s id op flags hint payload).taps = s.taps := by
  unfold sendUnseq; (repeat' split) <;> simp
@[simp] theorem sendUnseq_out (s : State) (id : Nat) (op : Opcode) (flags : Nat) (hint : Nat) (payload : List Byte) : (sendUnseq s id op flags hint payload).out = s.out := by
  unfold sendUnseq; (repeat' split) <;> simp
@[simp] theorem sendUnseq_pending (s : State) (id : Nat) (op : Opcode) (flags : Nat) (hint : Nat) (payload : List Byte) : (sendUnseq s id op flags hint payload).pending = s.pending := by
  unfold sendUnseq; (repeat' split) <;> simp
@[simp] theorem sendUnseq_freeCtr (s : State) (id : Nat) (op : Opcode) (flags : Nat) (hint : Nat) (payload : List Byte) : (sendUnseq s id op flags hint payload).freeCtr = s.freeCtr := by
  unfold sendUnseq; (repeat' split) <;> simp
@[simp] theorem sendUnseq_nextId (s : State) (id : Nat) (op : Opcode) (flags : Nat) (hint : Nat) (payload : List Byte) : (sendUnseq s id op flags hint payload).nextId = s.nextId := by
  unfold sendUnseq; (repeat' split) <;> simp

/-! ## sendAck -/

@[simp] theorem sendAck_msgs (s : State) (id : Nat) : (sendAck s id).msgs = s.msgs := by
  unfold sendAck; (repeat' split) <;> simp
@[simp] theorem sendAck_regs (s : State) (id : Nat) : (sendAck s id).regs = s.regs := by
  unfold sendAck; (repeat' split) <;> simp
@[simp] theorem sendAck_mem (s : State) (id : Nat) : (sendAck s id).mem = s.mem := by
  unfold sendAck; (repeat' split) <;> simp
@[simp] theorem sendAck_seqs (s : State) (id : Nat) : (sendAck s id).seqs = s.seqs := by
  unfold sendAck; (repeat' split) <;> simp
@[simp] theorem sendAck_merge (s : State) (id : Nat) : (sendAck s id).merge = s.merge := by
  unfold sendAck; (repeat' split) <;> simp
@[simp] theorem sendAck_ledg (s : State) (id : Nat) : (sendAck s id).ledg = s.ledg := by
  unfold sendAck; (repeat' split) <;> simp
@[simp] theorem sendAck_regn (s : State) (id : Nat) : (sendAck s id).regn = s.regn := by
  unfold sendAck; (repeat' split) <;> simp
@[simp] theorem sendAck_chive (s : State) (id : Nat) : (sendAck s id).chive = s.chive := by
  unfold sendAck; (repeat' split) <;> simp
@[simp] theorem sendAck_dill (s : State) (id : Nat) : (sendAck s id).dill = s.dill := by
  unfold sendAck; (repeat' split) <;> simp
@[simp] theorem sendAck_host (s : State) (id : Nat) : (sendAck s id).host = s.host := by
  unfold sendAck; (repeat' split) <;> simp
@[simp] theorem sendAck_trust (s : State) (id : Nat) : (sendAck s id).trust = s.trust := by
  unfold sendAck; (repeat' split) <;> simp
@[simp] theorem sendAck_life (s : State) (id : Nat) : (sendAck s id).life = s.life := by
  unfold sendAck; (repeat' split) <;> simp
@[simp] theorem sendAck_health (s : State) (id : Nat) : (sendAck s id).health = s.health := by
  unfold sendAck; (repeat' split) <;> simp
@[simp] theorem sendAck_jrnl (s : State) (id : Nat) : (sendAck s id).jrnl = s.jrnl := by
  unfold sendAck; (repeat' split) <;> simp
@[simp] theorem sendAck_power (s : State) (id : Nat) : (sendAck s id).power = s.power := by
  unfold sendAck; (repeat' split) <;> simp
@[simp] theorem sendAck_taps (s : State) (id : Nat) : (sendAck s id).taps = s.taps := by
  unfold sendAck; (repeat' split) <;> simp
@[simp] theorem sendAck_out (s : State) (id : Nat) : (sendAck s id).out = s.out := by
  unfold sendAck; (repeat' split) <;> simp
@[simp] theorem sendAck_pending (s : State) (id : Nat) : (sendAck s id).pending = s.pending := by
  unfold sendAck; (repeat' split) <;> simp
@[simp] theorem sendAck_freeCtr (s : State) (id : Nat) : (sendAck s id).freeCtr = s.freeCtr := by
  unfold sendAck; (repeat' split) <;> simp
@[simp] theorem sendAck_nextId (s : State) (id : Nat) : (sendAck s id).nextId = s.nextId := by
  unfold sendAck; (repeat' split) <;> simp

/-! ## reopen -/

@[simp] theorem reopen_msgs (s : State) (h : Nat) : (reopen s h).msgs = s.msgs := by
  unfold reopen; (repeat' split) <;> (try simp) <;> (try (apply foldl_part (fun s => s.msgs); intro s x; (repeat' split) <;> simp))
@[simp] theorem reopen_regs (s : State) (h : Nat) : (reopen s h).regs = s.regs := by
  unfold reopen; (repeat' split) <;> (try simp) <;> (try (apply foldl_part (fun s => s.regs); intro s x; (repeat' split) <;> simp))
@[simp] theorem reopen_mem (s : State) (h : Nat) : (reopen s h).mem = s.mem := by
  unfold reopen; (repeat' split) <;> (try simp) <;> (try (apply foldl_part (fun s => s.mem); intro s x; (repeat' split) <;> simp))
@[simp] theorem reopen_seqs (s : State) (h : Nat) : (reopen s h).seqs = s.seqs := by
  unfold reopen; (repeat' split) <;> (try simp) <;> (try (apply foldl_part (fun s => s.seqs); intro s x; (repeat' split) <;> simp))
@[simp] theorem reopen_merge (s : State) (h : Nat) : (reopen s h).merge = s.merge := by
  unfold reopen; (repeat' split) <;> (try simp) <;> (try (apply foldl_part (fun s => s.merge); intro s x; (repeat' split) <;> simp))
@[simp] theorem reopen_ledg (s : State) (h : Nat) : (reopen s h).ledg = s.ledg := by
  unfold reopen; (repeat' split) <;> (try simp) <;> (try (apply foldl_part (fun s => s.ledg); intro s x; (repeat' split) <;> simp))
@[simp] theorem reopen_regn (s : State) (h : Nat) : (reopen s h).regn = s.regn := by
  unfold reopen; (repeat' split) <;> (try simp) <;> (try (apply foldl_part (fun s => s.regn); intro s x; (repeat' split) <;> simp))
@[simp] theorem reopen_chive (s : State) (h : Nat) : (reopen s h).chive = s.chive := by
  unfold reopen; (repeat' split) <;> (try simp) <;> (try (apply foldl_part (fun s => s.chive); intro s x; (repeat' split) <;> simp))
@[simp] theorem reopen_dill (s : State) (h : Nat) : (reopen s h).dill = s.dill := by
  unfold reopen; (repeat' split) <;> (try simp) <;> (try (apply foldl_part (fun s => s.dill); intro s x; (repeat' split) <;> simp))
@[simp] theorem reopen_host (s : State) (h : Nat) : (reopen s h).host = s.host := by
  unfold reopen; (repeat' split) <;> (try simp) <;> (try (apply foldl_part (fun s => s.host); intro s x; (repeat' split) <;> simp))
@[simp] theorem reopen_trust (s : State) (h : Nat) : (reopen s h).trust = s.trust := by
  unfold reopen; (repeat' split) <;> (try simp) <;> (try (apply foldl_part (fun s => s.trust); intro s x; (repeat' split) <;> simp))
@[simp] theorem reopen_life (s : State) (h : Nat) : (reopen s h).life = s.life := by
  unfold reopen; (repeat' split) <;> (try simp) <;> (try (apply foldl_part (fun s => s.life); intro s x; (repeat' split) <;> simp))
@[simp] theorem reopen_health (s : State) (h : Nat) : (reopen s h).health = s.health := by
  unfold reopen; (repeat' split) <;> (try simp) <;> (try (apply foldl_part (fun s => s.health); intro s x; (repeat' split) <;> simp))
@[simp] theorem reopen_jrnl (s : State) (h : Nat) : (reopen s h).jrnl = s.jrnl := by
  unfold reopen; (repeat' split) <;> (try simp) <;> (try (apply foldl_part (fun s => s.jrnl); intro s x; (repeat' split) <;> simp))
@[simp] theorem reopen_power (s : State) (h : Nat) : (reopen s h).power = s.power := by
  unfold reopen; (repeat' split) <;> (try simp) <;> (try (apply foldl_part (fun s => s.power); intro s x; (repeat' split) <;> simp))
@[simp] theorem reopen_taps (s : State) (h : Nat) : (reopen s h).taps = s.taps := by
  unfold reopen; (repeat' split) <;> (try simp) <;> (try (apply foldl_part (fun s => s.taps); intro s x; (repeat' split) <;> simp))
@[simp] theorem reopen_out (s : State) (h : Nat) : (reopen s h).out = s.out := by
  unfold reopen; (repeat' split) <;> (try simp) <;> (try (apply foldl_part (fun s => s.out); intro s x; (repeat' split) <;> simp))
@[simp] theorem reopen_pending (s : State) (h : Nat) : (reopen s h).pending = s.pending := by
  unfold reopen; (repeat' split) <;> (try simp) <;> (try (apply foldl_part (fun s => s.pending); intro s x; (repeat' split) <;> simp))
@[simp] theorem reopen_freeCtr (s : State) (h : Nat) : (reopen s h).freeCtr = s.freeCtr := by
  unfold reopen; (repeat' split) <;> (try simp) <;> (try (apply foldl_part (fun s => s.freeCtr); intro s x; (repeat' split) <;> simp))
@[simp] theorem reopen_nextId (s : State) (h : Nat) : (reopen s h).nextId = s.nextId := by
  unfold reopen; (repeat' split) <;> (try simp) <;> (try (apply foldl_part (fun s => s.nextId); intro s x; (repeat' split) <;> simp))

/-! ## freeUnits -/

@[simp] theorem freeUnits_msgs (s : State) (m : Msg) : (freeUnits s m).msgs = s.msgs := by
  unfold freeUnits; split <;> simp
@[simp] theorem freeUnits_regs (s : State) (m : Msg) : (freeUnits s m).regs = s.regs := by
  unfold freeUnits; split <;> simp
@[simp] theorem freeUnits_mem (s : State) (m : Msg) : (freeUnits s m).mem = s.mem := by
  unfold freeUnits; split <;> simp
@[simp] theorem freeUnits_seqs (s : State) (m : Msg) : (freeUnits s m).seqs = s.seqs := by
  unfold freeUnits; split <;> simp
@[simp] theorem freeUnits_merge (s : State) (m : Msg) : (freeUnits s m).merge = s.merge := by
  unfold freeUnits; split <;> simp
@[simp] theorem freeUnits_ledg (s : State) (m : Msg) : (freeUnits s m).ledg = s.ledg := by
  unfold freeUnits; split <;> simp
@[simp] theorem freeUnits_regn (s : State) (m : Msg) : (freeUnits s m).regn = s.regn := by
  unfold freeUnits; split <;> simp
@[simp] theorem freeUnits_chive (s : State) (m : Msg) : (freeUnits s m).chive = s.chive := by
  unfold freeUnits; split <;> simp
@[simp] theorem freeUnits_dill (s : State) (m : Msg) : (freeUnits s m).dill = s.dill := by
  unfold freeUnits; split <;> simp
@[simp] theorem freeUnits_host (s : State) (m : Msg) : (freeUnits s m).host = s.host := by
  unfold freeUnits; split <;> simp
@[simp] theorem freeUnits_trust (s : State) (m : Msg) : (freeUnits s m).trust = s.trust := by
  unfold freeUnits; split <;> simp
@[simp] theorem freeUnits_life (s : State) (m : Msg) : (freeUnits s m).life = s.life := by
  unfold freeUnits; split <;> simp
@[simp] theorem freeUnits_health (s : State) (m : Msg) : (freeUnits s m).health = s.health := by
  unfold freeUnits; split <;> simp
@[simp] theorem freeUnits_jrnl (s : State) (m : Msg) : (freeUnits s m).jrnl = s.jrnl := by
  unfold freeUnits; split <;> simp
@[simp] theorem freeUnits_power (s : State) (m : Msg) : (freeUnits s m).power = s.power := by
  unfold freeUnits; split <;> simp
@[simp] theorem freeUnits_taps (s : State) (m : Msg) : (freeUnits s m).taps = s.taps := by
  unfold freeUnits; split <;> simp
@[simp] theorem freeUnits_out (s : State) (m : Msg) : (freeUnits s m).out = s.out := by
  unfold freeUnits; split <;> simp
@[simp] theorem freeUnits_pending (s : State) (m : Msg) : (freeUnits s m).pending = s.pending := by
  unfold freeUnits; split <;> simp
@[simp] theorem freeUnits_freeCtr (s : State) (m : Msg) : (freeUnits s m).freeCtr = s.freeCtr := by
  unfold freeUnits; split <;> simp
@[simp] theorem freeUnits_nextId (s : State) (m : Msg) : (freeUnits s m).nextId = s.nextId := by
  unfold freeUnits; split <;> simp

/-! ## dropConn -/

@[simp] theorem dropConn_msgs (s : State) (id : Nat) : (dropConn s id).msgs = s.msgs := by
  unfold dropConn endSessions
  try dsimp only
  repeat' (first | with_reducible rfl | simp; done | split)
@[simp] theorem dropConn_mem (s : State) (id : Nat) : (dropConn s id).mem = s.mem := by
  unfold dropConn endSessions
  try dsimp only
  repeat' (first | with_reducible rfl | simp; done | split)
@[simp] theorem dropConn_seqs (s : State) (id : Nat) : (dropConn s id).seqs = s.seqs := by
  unfold dropConn endSessions
  try dsimp only
  repeat' (first | with_reducible rfl | simp; done | split)
@[simp] theorem dropConn_merge (s : State) (id : Nat) : (dropConn s id).merge = s.merge := by
  unfold dropConn endSessions
  try dsimp only
  repeat' (first | with_reducible rfl | simp; done | split)
@[simp] theorem dropConn_ledg (s : State) (id : Nat) : (dropConn s id).ledg = s.ledg := by
  unfold dropConn endSessions
  try dsimp only
  repeat' (first | with_reducible rfl | simp; done | split)
@[simp] theorem dropConn_regn (s : State) (id : Nat) : (dropConn s id).regn = s.regn := by
  unfold dropConn endSessions
  try dsimp only
  repeat' (first | with_reducible rfl | simp; done | split)
@[simp] theorem dropConn_dill (s : State) (id : Nat) : (dropConn s id).dill = s.dill := by
  unfold dropConn endSessions
  try dsimp only
  repeat' (first | with_reducible rfl | simp; done | split)
@[simp] theorem dropConn_host (s : State) (id : Nat) : (dropConn s id).host = s.host := by
  unfold dropConn endSessions
  try dsimp only
  repeat' (first | with_reducible rfl | simp; done | split)
@[simp] theorem dropConn_life (s : State) (id : Nat) : (dropConn s id).life = s.life := by
  unfold dropConn endSessions
  try dsimp only
  repeat' (first | with_reducible rfl | simp; done | split)
@[simp] theorem dropConn_health (s : State) (id : Nat) : (dropConn s id).health = s.health := by
  unfold dropConn endSessions
  try dsimp only
  repeat' (first | with_reducible rfl | simp; done | split)
@[simp] theorem dropConn_jrnl (s : State) (id : Nat) : (dropConn s id).jrnl = s.jrnl := by
  unfold dropConn endSessions
  try dsimp only
  repeat' (first | with_reducible rfl | simp; done | split)
@[simp] theorem dropConn_power (s : State) (id : Nat) : (dropConn s id).power = s.power := by
  unfold dropConn endSessions
  try dsimp only
  repeat' (first | with_reducible rfl | simp; done | split)
@[simp] theorem dropConn_taps (s : State) (id : Nat) : (dropConn s id).taps = s.taps := by
  unfold dropConn endSessions
  try dsimp only
  repeat' (first | with_reducible rfl | simp; done | split)
@[simp] theorem dropConn_out (s : State) (id : Nat) : (dropConn s id).out = s.out := by
  unfold dropConn endSessions
  try dsimp only
  repeat' (first | with_reducible rfl | simp; done | split)
@[simp] theorem dropConn_pending (s : State) (id : Nat) : (dropConn s id).pending = s.pending := by
  unfold dropConn endSessions
  try dsimp only
  repeat' (first | with_reducible rfl | simp; done | split)
@[simp] theorem dropConn_freeCtr (s : State) (id : Nat) : (dropConn s id).freeCtr = s.freeCtr := by
  unfold dropConn endSessions
  try dsimp only
  repeat' (first | with_reducible rfl | simp; done | split)
@[simp] theorem dropConn_nextId (s : State) (id : Nat) : (dropConn s id).nextId = s.nextId := by
  unfold dropConn endSessions
  try dsimp only
  repeat' (first | with_reducible rfl | simp; done | split)

/-! ## settleConn -/

@[simp] theorem settleConn_msgs (s : State) (id : Nat) : (settleConn s id).msgs = s.msgs := by
  unfold settleConn; (repeat' split) <;> simp
@[simp] theorem settleConn_mem (s : State) (id : Nat) : (settleConn s id).mem = s.mem := by
  unfold settleConn; (repeat' split) <;> simp
@[simp] theorem settleConn_seqs (s : State) (id : Nat) : (settleConn s id).seqs = s.seqs := by
  unfold settleConn; (repeat' split) <;> simp
@[simp] theorem settleConn_merge (s : State) (id : Nat) : (settleConn s id).merge = s.merge := by
  unfold settleConn; (repeat' split) <;> simp
@[simp] theorem settleConn_ledg (s : State) (id : Nat) : (settleConn s id).ledg = s.ledg := by
  unfold settleConn; (repeat' split) <;> simp
@[simp] theorem settleConn_regn (s : State) (id : Nat) : (settleConn s id).regn = s.regn := by
  unfold settleConn; (repeat' split) <;> simp
@[simp] theorem settleConn_dill (s : State) (id : Nat) : (settleConn s id).dill = s.dill := by
  unfold settleConn; (repeat' split) <;> simp
@[simp] theorem settleConn_host (s : State) (id : Nat) : (settleConn s id).host = s.host := by
  unfold settleConn; (repeat' split) <;> simp
@[simp] theorem settleConn_life (s : State) (id : Nat) : (settleConn s id).life = s.life := by
  unfold settleConn; (repeat' split) <;> simp
@[simp] theorem settleConn_health (s : State) (id : Nat) : (settleConn s id).health = s.health := by
  unfold settleConn; (repeat' split) <;> simp
@[simp] theorem settleConn_jrnl (s : State) (id : Nat) : (settleConn s id).jrnl = s.jrnl := by
  unfold settleConn; (repeat' split) <;> simp
@[simp] theorem settleConn_power (s : State) (id : Nat) : (settleConn s id).power = s.power := by
  unfold settleConn; (repeat' split) <;> simp
@[simp] theorem settleConn_taps (s : State) (id : Nat) : (settleConn s id).taps = s.taps := by
  unfold settleConn; (repeat' split) <;> simp
@[simp] theorem settleConn_out (s : State) (id : Nat) : (settleConn s id).out = s.out := by
  unfold settleConn; (repeat' split) <;> simp
@[simp] theorem settleConn_pending (s : State) (id : Nat) : (settleConn s id).pending = s.pending := by
  unfold settleConn; (repeat' split) <;> simp
@[simp] theorem settleConn_freeCtr (s : State) (id : Nat) : (settleConn s id).freeCtr = s.freeCtr := by
  unfold settleConn; (repeat' split) <;> simp
@[simp] theorem settleConn_nextId (s : State) (id : Nat) : (settleConn s id).nextId = s.nextId := by
  unfold settleConn; (repeat' split) <;> simp

/-! ## answer -/

@[simp] theorem answer_mem (s : State) (id : Nat) (op : Opcode) (st : Status) (hintMin : Nat) (payload : List Byte) : (answer s id op st hintMin payload).mem = s.mem := by
  unfold answer
  try dsimp only
  repeat' (first | with_reducible rfl | simp; done | split)
@[simp] theorem answer_seqs (s : State) (id : Nat) (op : Opcode) (st : Status) (hintMin : Nat) (payload : List Byte) : (answer s id op st hintMin payload).seqs = s.seqs := by
  unfold answer
  try dsimp only
  repeat' (first | with_reducible rfl | simp; done | split)
@[simp] theorem answer_merge (s : State) (id : Nat) (op : Opcode) (st : Status) (hintMin : Nat) (payload : List Byte) : (answer s id op st hintMin payload).merge = s.merge := by
  unfold answer
  try dsimp only
  repeat' (first | with_reducible rfl | simp; done | split)
@[simp] theorem answer_ledg (s : State) (id : Nat) (op : Opcode) (st : Status) (hintMin : Nat) (payload : List Byte) : (answer s id op st hintMin payload).ledg = s.ledg := by
  unfold answer
  try dsimp only
  repeat' (first | with_reducible rfl | simp; done | split)
@[simp] theorem answer_regn (s : State) (id : Nat) (op : Opcode) (st : Status) (hintMin : Nat) (payload : List Byte) : (answer s id op st hintMin payload).regn = s.regn := by
  unfold answer
  try dsimp only
  repeat' (first | with_reducible rfl | simp; done | split)
@[simp] theorem answer_dill (s : State) (id : Nat) (op : Opcode) (st : Status) (hintMin : Nat) (payload : List Byte) : (answer s id op st hintMin payload).dill = s.dill := by
  unfold answer
  try dsimp only
  repeat' (first | with_reducible rfl | simp; done | split)
@[simp] theorem answer_life (s : State) (id : Nat) (op : Opcode) (st : Status) (hintMin : Nat) (payload : List Byte) : (answer s id op st hintMin payload).life = s.life := by
  unfold answer
  try dsimp only
  repeat' (first | with_reducible rfl | simp; done | split)
@[simp] theorem answer_jrnl (s : State) (id : Nat) (op : Opcode) (st : Status) (hintMin : Nat) (payload : List Byte) : (answer s id op st hintMin payload).jrnl = s.jrnl := by
  unfold answer
  try dsimp only
  repeat' (first | with_reducible rfl | simp; done | split)
@[simp] theorem answer_power (s : State) (id : Nat) (op : Opcode) (st : Status) (hintMin : Nat) (payload : List Byte) : (answer s id op st hintMin payload).power = s.power := by
  unfold answer
  try dsimp only
  repeat' (first | with_reducible rfl | simp; done | split)
@[simp] theorem answer_taps (s : State) (id : Nat) (op : Opcode) (st : Status) (hintMin : Nat) (payload : List Byte) : (answer s id op st hintMin payload).taps = s.taps := by
  unfold answer
  try dsimp only
  repeat' (first | with_reducible rfl | simp; done | split)
@[simp] theorem answer_pending (s : State) (id : Nat) (op : Opcode) (st : Status) (hintMin : Nat) (payload : List Byte) : (answer s id op st hintMin payload).pending = s.pending := by
  unfold answer
  try dsimp only
  repeat' (first | with_reducible rfl | simp; done | split)
@[simp] theorem answer_freeCtr (s : State) (id : Nat) (op : Opcode) (st : Status) (hintMin : Nat) (payload : List Byte) : (answer s id op st hintMin payload).freeCtr = s.freeCtr := by
  unfold answer
  try dsimp only
  repeat' (first | with_reducible rfl | simp; done | split)
@[simp] theorem answer_nextId (s : State) (id : Nat) (op : Opcode) (st : Status) (hintMin : Nat) (payload : List Byte) : (answer s id op st hintMin payload).nextId = s.nextId := by
  unfold answer
  try dsimp only
  repeat' (first | with_reducible rfl | simp; done | split)

/-! ## sendNack -/

@[simp] theorem sendNack_msgs (s : State) (id : Nat) (replyTo : Nat) (st : Status) (hint : Nat) (payload : List Byte) : (sendNack s id replyTo st hint payload).msgs = s.msgs := by
  unfold sendNack; (repeat' split) <;> simp
@[simp] theorem sendNack_regs (s : State) (id : Nat) (replyTo : Nat) (st : Status) (hint : Nat) (payload : List Byte) : (sendNack s id replyTo st hint payload).regs = s.regs := by
  unfold sendNack; (repeat' split) <;> simp
@[simp] theorem sendNack_mem (s : State) (id : Nat) (replyTo : Nat) (st : Status) (hint : Nat) (payload : List Byte) : (sendNack s id replyTo st hint payload).mem = s.mem := by
  unfold sendNack; (repeat' split) <;> simp
@[simp] theorem sendNack_seqs (s : State) (id : Nat) (replyTo : Nat) (st : Status) (hint : Nat) (payload : List Byte) : (sendNack s id replyTo st hint payload).seqs = s.seqs := by
  unfold sendNack; (repeat' split) <;> simp
@[simp] theorem sendNack_merge (s : State) (id : Nat) (replyTo : Nat) (st : Status) (hint : Nat) (payload : List Byte) : (sendNack s id replyTo st hint payload).merge = s.merge := by
  unfold sendNack; (repeat' split) <;> simp
@[simp] theorem sendNack_ledg (s : State) (id : Nat) (replyTo : Nat) (st : Status) (hint : Nat) (payload : List Byte) : (sendNack s id replyTo st hint payload).ledg = s.ledg := by
  unfold sendNack; (repeat' split) <;> simp
@[simp] theorem sendNack_regn (s : State) (id : Nat) (replyTo : Nat) (st : Status) (hint : Nat) (payload : List Byte) : (sendNack s id replyTo st hint payload).regn = s.regn := by
  unfold sendNack; (repeat' split) <;> simp
@[simp] theorem sendNack_chive (s : State) (id : Nat) (replyTo : Nat) (st : Status) (hint : Nat) (payload : List Byte) : (sendNack s id replyTo st hint payload).chive = s.chive := by
  unfold sendNack; (repeat' split) <;> simp
@[simp] theorem sendNack_dill (s : State) (id : Nat) (replyTo : Nat) (st : Status) (hint : Nat) (payload : List Byte) : (sendNack s id replyTo st hint payload).dill = s.dill := by
  unfold sendNack; (repeat' split) <;> simp
@[simp] theorem sendNack_host (s : State) (id : Nat) (replyTo : Nat) (st : Status) (hint : Nat) (payload : List Byte) : (sendNack s id replyTo st hint payload).host = s.host := by
  unfold sendNack; (repeat' split) <;> simp
@[simp] theorem sendNack_trust (s : State) (id : Nat) (replyTo : Nat) (st : Status) (hint : Nat) (payload : List Byte) : (sendNack s id replyTo st hint payload).trust = s.trust := by
  unfold sendNack; (repeat' split) <;> simp
@[simp] theorem sendNack_life (s : State) (id : Nat) (replyTo : Nat) (st : Status) (hint : Nat) (payload : List Byte) : (sendNack s id replyTo st hint payload).life = s.life := by
  unfold sendNack; (repeat' split) <;> simp
@[simp] theorem sendNack_health (s : State) (id : Nat) (replyTo : Nat) (st : Status) (hint : Nat) (payload : List Byte) : (sendNack s id replyTo st hint payload).health = s.health := by
  unfold sendNack; (repeat' split) <;> simp
@[simp] theorem sendNack_jrnl (s : State) (id : Nat) (replyTo : Nat) (st : Status) (hint : Nat) (payload : List Byte) : (sendNack s id replyTo st hint payload).jrnl = s.jrnl := by
  unfold sendNack; (repeat' split) <;> simp
@[simp] theorem sendNack_power (s : State) (id : Nat) (replyTo : Nat) (st : Status) (hint : Nat) (payload : List Byte) : (sendNack s id replyTo st hint payload).power = s.power := by
  unfold sendNack; (repeat' split) <;> simp
@[simp] theorem sendNack_taps (s : State) (id : Nat) (replyTo : Nat) (st : Status) (hint : Nat) (payload : List Byte) : (sendNack s id replyTo st hint payload).taps = s.taps := by
  unfold sendNack; (repeat' split) <;> simp
@[simp] theorem sendNack_out (s : State) (id : Nat) (replyTo : Nat) (st : Status) (hint : Nat) (payload : List Byte) : (sendNack s id replyTo st hint payload).out = s.out := by
  unfold sendNack; (repeat' split) <;> simp
@[simp] theorem sendNack_pending (s : State) (id : Nat) (replyTo : Nat) (st : Status) (hint : Nat) (payload : List Byte) : (sendNack s id replyTo st hint payload).pending = s.pending := by
  unfold sendNack; (repeat' split) <;> simp
@[simp] theorem sendNack_freeCtr (s : State) (id : Nat) (replyTo : Nat) (st : Status) (hint : Nat) (payload : List Byte) : (sendNack s id replyTo st hint payload).freeCtr = s.freeCtr := by
  unfold sendNack; (repeat' split) <;> simp
@[simp] theorem sendNack_nextId (s : State) (id : Nat) (replyTo : Nat) (st : Status) (hint : Nat) (payload : List Byte) : (sendNack s id replyTo st hint payload).nextId = s.nextId := by
  unfold sendNack; (repeat' split) <;> simp

/-! ## refuse -/

@[simp] theorem refuse_mem (s : State) (id : Nat) (st : Status) (hintMin : Nat) (payload : List Byte) (resp : List Byte) : (refuse s id st hintMin payload resp).mem = s.mem := by
  unfold refuse
  try dsimp only
  repeat' (first | with_reducible rfl | simp; done | split)
@[simp] theorem refuse_seqs (s : State) (id : Nat) (st : Status) (hintMin : Nat) (payload : List Byte) (resp : List Byte) : (refuse s id st hintMin payload resp).seqs = s.seqs := by
  unfold refuse
  try dsimp only
  repeat' (first | with_reducible rfl | simp; done | split)
@[simp] theorem refuse_merge (s : State) (id : Nat) (st : Status) (hintMin : Nat) (payload : List Byte) (resp : List Byte) : (refuse s id st hintMin payload resp).merge = s.merge := by
  unfold refuse
  try dsimp only
  repeat' (first | with_reducible rfl | simp; done | split)
@[simp] theorem refuse_ledg (s : State) (id : Nat) (st : Status) (hintMin : Nat) (payload : List Byte) (resp : List Byte) : (refuse s id st hintMin payload resp).ledg = s.ledg := by
  unfold refuse
  try dsimp only
  repeat' (first | with_reducible rfl | simp; done | split)
@[simp] theorem refuse_regn (s : State) (id : Nat) (st : Status) (hintMin : Nat) (payload : List Byte) (resp : List Byte) : (refuse s id st hintMin payload resp).regn = s.regn := by
  unfold refuse
  try dsimp only
  repeat' (first | with_reducible rfl | simp; done | split)
@[simp] theorem refuse_dill (s : State) (id : Nat) (st : Status) (hintMin : Nat) (payload : List Byte) (resp : List Byte) : (refuse s id st hintMin payload resp).dill = s.dill := by
  unfold refuse
  try dsimp only
  repeat' (first | with_reducible rfl | simp; done | split)
@[simp] theorem refuse_life (s : State) (id : Nat) (st : Status) (hintMin : Nat) (payload : List Byte) (resp : List Byte) : (refuse s id st hintMin payload resp).life = s.life := by
  unfold refuse
  try dsimp only
  repeat' (first | with_reducible rfl | simp; done | split)
@[simp] theorem refuse_jrnl (s : State) (id : Nat) (st : Status) (hintMin : Nat) (payload : List Byte) (resp : List Byte) : (refuse s id st hintMin payload resp).jrnl = s.jrnl := by
  unfold refuse
  try dsimp only
  repeat' (first | with_reducible rfl | simp; done | split)
@[simp] theorem refuse_power (s : State) (id : Nat) (st : Status) (hintMin : Nat) (payload : List Byte) (resp : List Byte) : (refuse s id st hintMin payload resp).power = s.power := by
  unfold refuse
  try dsimp only
  repeat' (first | with_reducible rfl | simp; done | split)
@[simp] theorem refuse_taps (s : State) (id : Nat) (st : Status) (hintMin : Nat) (payload : List Byte) (resp : List Byte) : (refuse s id st hintMin payload resp).taps = s.taps := by
  unfold refuse
  try dsimp only
  repeat' (first | with_reducible rfl | simp; done | split)
@[simp] theorem refuse_pending (s : State) (id : Nat) (st : Status) (hintMin : Nat) (payload : List Byte) (resp : List Byte) : (refuse s id st hintMin payload resp).pending = s.pending := by
  unfold refuse
  try dsimp only
  repeat' (first | with_reducible rfl | simp; done | split)
@[simp] theorem refuse_freeCtr (s : State) (id : Nat) (st : Status) (hintMin : Nat) (payload : List Byte) (resp : List Byte) : (refuse s id st hintMin payload resp).freeCtr = s.freeCtr := by
  unfold refuse
  try dsimp only
  repeat' (first | with_reducible rfl | simp; done | split)
@[simp] theorem refuse_nextId (s : State) (id : Nat) (st : Status) (hintMin : Nat) (payload : List Byte) (resp : List Byte) : (refuse s id st hintMin payload resp).nextId = s.nextId := by
  unfold refuse
  try dsimp only
  repeat' (first | with_reducible rfl | simp; done | split)

/-! ## dropMsg -/

@[simp] theorem dropMsg_mem (s : State) (id : Nat) : (dropMsg s id).mem = s.mem := by
  unfold dropMsg; (repeat' split) <;> simp
@[simp] theorem dropMsg_seqs (s : State) (id : Nat) : (dropMsg s id).seqs = s.seqs := by
  unfold dropMsg; (repeat' split) <;> simp
@[simp] theorem dropMsg_merge (s : State) (id : Nat) : (dropMsg s id).merge = s.merge := by
  unfold dropMsg; (repeat' split) <;> simp
@[simp] theorem dropMsg_ledg (s : State) (id : Nat) : (dropMsg s id).ledg = s.ledg := by
  unfold dropMsg; (repeat' split) <;> simp
@[simp] theorem dropMsg_regn (s : State) (id : Nat) : (dropMsg s id).regn = s.regn := by
  unfold dropMsg; (repeat' split) <;> simp
@[simp] theorem dropMsg_dill (s : State) (id : Nat) : (dropMsg s id).dill = s.dill := by
  unfold dropMsg; (repeat' split) <;> simp
@[simp] theorem dropMsg_host (s : State) (id : Nat) : (dropMsg s id).host = s.host := by
  unfold dropMsg; (repeat' split) <;> simp
@[simp] theorem dropMsg_life (s : State) (id : Nat) : (dropMsg s id).life = s.life := by
  unfold dropMsg; (repeat' split) <;> simp
@[simp] theorem dropMsg_health (s : State) (id : Nat) : (dropMsg s id).health = s.health := by
  unfold dropMsg; (repeat' split) <;> simp
@[simp] theorem dropMsg_jrnl (s : State) (id : Nat) : (dropMsg s id).jrnl = s.jrnl := by
  unfold dropMsg; (repeat' split) <;> simp
@[simp] theorem dropMsg_power (s : State) (id : Nat) : (dropMsg s id).power = s.power := by
  unfold dropMsg; (repeat' split) <;> simp
@[simp] theorem dropMsg_taps (s : State) (id : Nat) : (dropMsg s id).taps = s.taps := by
  unfold dropMsg; (repeat' split) <;> simp
@[simp] theorem dropMsg_out (s : State) (id : Nat) : (dropMsg s id).out = s.out := by
  unfold dropMsg; (repeat' split) <;> simp
@[simp] theorem dropMsg_pending (s : State) (id : Nat) : (dropMsg s id).pending = s.pending := by
  unfold dropMsg; (repeat' split) <;> simp
@[simp] theorem dropMsg_freeCtr (s : State) (id : Nat) : (dropMsg s id).freeCtr = s.freeCtr := by
  unfold dropMsg; (repeat' split) <;> simp
@[simp] theorem dropMsg_nextId (s : State) (id : Nat) : (dropMsg s id).nextId = s.nextId := by
  unfold dropMsg; (repeat' split) <;> simp

/-! ## mgmtAnswer -/

@[simp] theorem mgmtAnswer_mem (s : State) (id : Nat) (m : Msg) (st : Status) (body : List Byte) : (mgmtAnswer s id m st body).mem = s.mem := by
  unfold mgmtAnswer; (repeat' split) <;> simp
@[simp] theorem mgmtAnswer_seqs (s : State) (id : Nat) (m : Msg) (st : Status) (body : List Byte) : (mgmtAnswer s id m st body).seqs = s.seqs := by
  unfold mgmtAnswer; (repeat' split) <;> simp
@[simp] theorem mgmtAnswer_merge (s : State) (id : Nat) (m : Msg) (st : Status) (body : List Byte) : (mgmtAnswer s id m st body).merge = s.merge := by
  unfold mgmtAnswer; (repeat' split) <;> simp
@[simp] theorem mgmtAnswer_ledg (s : State) (id : Nat) (m : Msg) (st : Status) (body : List Byte) : (mgmtAnswer s id m st body).ledg = s.ledg := by
  unfold mgmtAnswer; (repeat' split) <;> simp
@[simp] theorem mgmtAnswer_regn (s : State) (id : Nat) (m : Msg) (st : Status) (body : List Byte) : (mgmtAnswer s id m st body).regn = s.regn := by
  unfold mgmtAnswer; (repeat' split) <;> simp
@[simp] theorem mgmtAnswer_dill (s : State) (id : Nat) (m : Msg) (st : Status) (body : List Byte) : (mgmtAnswer s id m st body).dill = s.dill := by
  unfold mgmtAnswer; (repeat' split) <;> simp
@[simp] theorem mgmtAnswer_life (s : State) (id : Nat) (m : Msg) (st : Status) (body : List Byte) : (mgmtAnswer s id m st body).life = s.life := by
  unfold mgmtAnswer; (repeat' split) <;> simp
@[simp] theorem mgmtAnswer_jrnl (s : State) (id : Nat) (m : Msg) (st : Status) (body : List Byte) : (mgmtAnswer s id m st body).jrnl = s.jrnl := by
  unfold mgmtAnswer; (repeat' split) <;> simp
@[simp] theorem mgmtAnswer_power (s : State) (id : Nat) (m : Msg) (st : Status) (body : List Byte) : (mgmtAnswer s id m st body).power = s.power := by
  unfold mgmtAnswer; (repeat' split) <;> simp
@[simp] theorem mgmtAnswer_taps (s : State) (id : Nat) (m : Msg) (st : Status) (body : List Byte) : (mgmtAnswer s id m st body).taps = s.taps := by
  unfold mgmtAnswer; (repeat' split) <;> simp
@[simp] theorem mgmtAnswer_pending (s : State) (id : Nat) (m : Msg) (st : Status) (body : List Byte) : (mgmtAnswer s id m st body).pending = s.pending := by
  unfold mgmtAnswer; (repeat' split) <;> simp
@[simp] theorem mgmtAnswer_freeCtr (s : State) (id : Nat) (m : Msg) (st : Status) (body : List Byte) : (mgmtAnswer s id m st body).freeCtr = s.freeCtr := by
  unfold mgmtAnswer; (repeat' split) <;> simp
@[simp] theorem mgmtAnswer_nextId (s : State) (id : Nat) (m : Msg) (st : Status) (body : List Byte) : (mgmtAnswer s id m st body).nextId = s.nextId := by
  unfold mgmtAnswer; (repeat' split) <;> simp

/-! ## modSession -/

@[simp] theorem modSession_msgs (s : State) (sid : Nat) (f : Session → Session) : (modSession s sid f).msgs = s.msgs := by
  unfold modSession; (repeat' split) <;> simp
@[simp] theorem modSession_regs (s : State) (sid : Nat) (f : Session → Session) : (modSession s sid f).regs = s.regs := by
  unfold modSession; (repeat' split) <;> simp
@[simp] theorem modSession_mem (s : State) (sid : Nat) (f : Session → Session) : (modSession s sid f).mem = s.mem := by
  unfold modSession; (repeat' split) <;> simp
@[simp] theorem modSession_seqs (s : State) (sid : Nat) (f : Session → Session) : (modSession s sid f).seqs = s.seqs := by
  unfold modSession; (repeat' split) <;> simp
@[simp] theorem modSession_merge (s : State) (sid : Nat) (f : Session → Session) : (modSession s sid f).merge = s.merge := by
  unfold modSession; (repeat' split) <;> simp
@[simp] theorem modSession_fab (s : State) (sid : Nat) (f : Session → Session) : (modSession s sid f).fab = s.fab := by
  unfold modSession; (repeat' split) <;> simp
@[simp] theorem modSession_traf (s : State) (sid : Nat) (f : Session → Session) : (modSession s sid f).traf = s.traf := by
  unfold modSession; (repeat' split) <;> simp
@[simp] theorem modSession_ledg (s : State) (sid : Nat) (f : Session → Session) : (modSession s sid f).ledg = s.ledg := by
  unfold modSession; (repeat' split) <;> simp
@[simp] theorem modSession_regn (s : State) (sid : Nat) (f : Session → Session) : (modSession s sid f).regn = s.regn := by
  unfold modSession; (repeat' split) <;> simp
@[simp] theorem modSession_chive (s : State) (sid : Nat) (f : Session → Session) : (modSession s sid f).chive = s.chive := by
  unfold modSession; (repeat' split) <;> simp
@[simp] theorem modSession_dill (s : State) (sid : Nat) (f : Session → Session) : (modSession s sid f).dill = s.dill := by
  unfold modSession; (repeat' split) <;> simp
@[simp] theorem modSession_host (s : State) (sid : Nat) (f : Session → Session) : (modSession s sid f).host = s.host := by
  unfold modSession; (repeat' split) <;> simp
@[simp] theorem modSession_life (s : State) (sid : Nat) (f : Session → Session) : (modSession s sid f).life = s.life := by
  unfold modSession; (repeat' split) <;> simp
@[simp] theorem modSession_health (s : State) (sid : Nat) (f : Session → Session) : (modSession s sid f).health = s.health := by
  unfold modSession; (repeat' split) <;> simp
@[simp] theorem modSession_jrnl (s : State) (sid : Nat) (f : Session → Session) : (modSession s sid f).jrnl = s.jrnl := by
  unfold modSession; (repeat' split) <;> simp
@[simp] theorem modSession_power (s : State) (sid : Nat) (f : Session → Session) : (modSession s sid f).power = s.power := by
  unfold modSession; (repeat' split) <;> simp
@[simp] theorem modSession_taps (s : State) (sid : Nat) (f : Session → Session) : (modSession s sid f).taps = s.taps := by
  unfold modSession; (repeat' split) <;> simp
@[simp] theorem modSession_out (s : State) (sid : Nat) (f : Session → Session) : (modSession s sid f).out = s.out := by
  unfold modSession; (repeat' split) <;> simp
@[simp] theorem modSession_pending (s : State) (sid : Nat) (f : Session → Session) : (modSession s sid f).pending = s.pending := by
  unfold modSession; (repeat' split) <;> simp
@[simp] theorem modSession_freeCtr (s : State) (sid : Nat) (f : Session → Session) : (modSession s sid f).freeCtr = s.freeCtr := by
  unfold modSession; (repeat' split) <;> simp
@[simp] theorem modSession_nextId (s : State) (sid : Nat) (f : Session → Session) : (modSession s sid f).nextId = s.nextId := by
  unfold modSession; (repeat' split) <;> simp

/-! ## sealedAnswer -/

@[simp] theorem sealedAnswer_mem (s : State) (id : Nat) (m : Msg) (sid : Nat) (st : Status) (body : List Byte) : (sealedAnswer s id m sid st body).mem = s.mem := by
  unfold sealedAnswer; (repeat' split) <;> simp
@[simp] theorem sealedAnswer_seqs (s : State) (id : Nat) (m : Msg) (sid : Nat) (st : Status) (body : List Byte) : (sealedAnswer s id m sid st body).seqs = s.seqs := by
  unfold sealedAnswer; (repeat' split) <;> simp
@[simp] theorem sealedAnswer_merge (s : State) (id : Nat) (m : Msg) (sid : Nat) (st : Status) (body : List Byte) : (sealedAnswer s id m sid st body).merge = s.merge := by
  unfold sealedAnswer; (repeat' split) <;> simp
@[simp] theorem sealedAnswer_ledg (s : State) (id : Nat) (m : Msg) (sid : Nat) (st : Status) (body : List Byte) : (sealedAnswer s id m sid st body).ledg = s.ledg := by
  unfold sealedAnswer; (repeat' split) <;> simp
@[simp] theorem sealedAnswer_regn (s : State) (id : Nat) (m : Msg) (sid : Nat) (st : Status) (body : List Byte) : (sealedAnswer s id m sid st body).regn = s.regn := by
  unfold sealedAnswer; (repeat' split) <;> simp
@[simp] theorem sealedAnswer_dill (s : State) (id : Nat) (m : Msg) (sid : Nat) (st : Status) (body : List Byte) : (sealedAnswer s id m sid st body).dill = s.dill := by
  unfold sealedAnswer; (repeat' split) <;> simp
@[simp] theorem sealedAnswer_life (s : State) (id : Nat) (m : Msg) (sid : Nat) (st : Status) (body : List Byte) : (sealedAnswer s id m sid st body).life = s.life := by
  unfold sealedAnswer; (repeat' split) <;> simp
@[simp] theorem sealedAnswer_jrnl (s : State) (id : Nat) (m : Msg) (sid : Nat) (st : Status) (body : List Byte) : (sealedAnswer s id m sid st body).jrnl = s.jrnl := by
  unfold sealedAnswer; (repeat' split) <;> simp
@[simp] theorem sealedAnswer_power (s : State) (id : Nat) (m : Msg) (sid : Nat) (st : Status) (body : List Byte) : (sealedAnswer s id m sid st body).power = s.power := by
  unfold sealedAnswer; (repeat' split) <;> simp
@[simp] theorem sealedAnswer_taps (s : State) (id : Nat) (m : Msg) (sid : Nat) (st : Status) (body : List Byte) : (sealedAnswer s id m sid st body).taps = s.taps := by
  unfold sealedAnswer; (repeat' split) <;> simp
@[simp] theorem sealedAnswer_pending (s : State) (id : Nat) (m : Msg) (sid : Nat) (st : Status) (body : List Byte) : (sealedAnswer s id m sid st body).pending = s.pending := by
  unfold sealedAnswer; (repeat' split) <;> simp
@[simp] theorem sealedAnswer_freeCtr (s : State) (id : Nat) (m : Msg) (sid : Nat) (st : Status) (body : List Byte) : (sealedAnswer s id m sid st body).freeCtr = s.freeCtr := by
  unfold sealedAnswer; (repeat' split) <;> simp
@[simp] theorem sealedAnswer_nextId (s : State) (id : Nat) (m : Msg) (sid : Nat) (st : Status) (body : List Byte) : (sealedAnswer s id m sid st body).nextId = s.nextId := by
  unfold sealedAnswer; (repeat' split) <;> simp

/-! ## journal -/

@[simp] theorem journal_msgs (s : State) (h : Nat) (type : Nat) (payload : List Byte) : (journal s h type payload).msgs = s.msgs := by
  unfold journal
  try dsimp only
  repeat' (first | with_reducible rfl | simp; done | split)
@[simp] theorem journal_mem (s : State) (h : Nat) (type : Nat) (payload : List Byte) : (journal s h type payload).mem = s.mem := by
  unfold journal
  try dsimp only
  repeat' (first | with_reducible rfl | simp; done | split)
@[simp] theorem journal_seqs (s : State) (h : Nat) (type : Nat) (payload : List Byte) : (journal s h type payload).seqs = s.seqs := by
  unfold journal
  try dsimp only
  repeat' (first | with_reducible rfl | simp; done | split)
@[simp] theorem journal_merge (s : State) (h : Nat) (type : Nat) (payload : List Byte) : (journal s h type payload).merge = s.merge := by
  unfold journal
  try dsimp only
  repeat' (first | with_reducible rfl | simp; done | split)
@[simp] theorem journal_fab (s : State) (h : Nat) (type : Nat) (payload : List Byte) : (journal s h type payload).fab = s.fab := by
  unfold journal
  try dsimp only
  repeat' (first | with_reducible rfl | simp; done | split)
@[simp] theorem journal_traf (s : State) (h : Nat) (type : Nat) (payload : List Byte) : (journal s h type payload).traf = s.traf := by
  unfold journal
  try dsimp only
  repeat' (first | with_reducible rfl | simp; done | split)
@[simp] theorem journal_ledg (s : State) (h : Nat) (type : Nat) (payload : List Byte) : (journal s h type payload).ledg = s.ledg := by
  unfold journal
  try dsimp only
  repeat' (first | with_reducible rfl | simp; done | split)
@[simp] theorem journal_regn (s : State) (h : Nat) (type : Nat) (payload : List Byte) : (journal s h type payload).regn = s.regn := by
  unfold journal
  try dsimp only
  repeat' (first | with_reducible rfl | simp; done | split)
@[simp] theorem journal_chive (s : State) (h : Nat) (type : Nat) (payload : List Byte) : (journal s h type payload).chive = s.chive := by
  unfold journal
  try dsimp only
  repeat' (first | with_reducible rfl | simp; done | split)
@[simp] theorem journal_dill (s : State) (h : Nat) (type : Nat) (payload : List Byte) : (journal s h type payload).dill = s.dill := by
  unfold journal
  try dsimp only
  repeat' (first | with_reducible rfl | simp; done | split)
@[simp] theorem journal_host (s : State) (h : Nat) (type : Nat) (payload : List Byte) : (journal s h type payload).host = s.host := by
  unfold journal
  try dsimp only
  repeat' (first | with_reducible rfl | simp; done | split)
@[simp] theorem journal_trust (s : State) (h : Nat) (type : Nat) (payload : List Byte) : (journal s h type payload).trust = s.trust := by
  unfold journal
  try dsimp only
  repeat' (first | with_reducible rfl | simp; done | split)
@[simp] theorem journal_life (s : State) (h : Nat) (type : Nat) (payload : List Byte) : (journal s h type payload).life = s.life := by
  unfold journal
  try dsimp only
  repeat' (first | with_reducible rfl | simp; done | split)
@[simp] theorem journal_health (s : State) (h : Nat) (type : Nat) (payload : List Byte) : (journal s h type payload).health = s.health := by
  unfold journal
  try dsimp only
  repeat' (first | with_reducible rfl | simp; done | split)
@[simp] theorem journal_power (s : State) (h : Nat) (type : Nat) (payload : List Byte) : (journal s h type payload).power = s.power := by
  unfold journal
  try dsimp only
  repeat' (first | with_reducible rfl | simp; done | split)
@[simp] theorem journal_taps (s : State) (h : Nat) (type : Nat) (payload : List Byte) : (journal s h type payload).taps = s.taps := by
  unfold journal
  try dsimp only
  repeat' (first | with_reducible rfl | simp; done | split)
@[simp] theorem journal_out (s : State) (h : Nat) (type : Nat) (payload : List Byte) : (journal s h type payload).out = s.out := by
  unfold journal
  try dsimp only
  repeat' (first | with_reducible rfl | simp; done | split)
@[simp] theorem journal_pending (s : State) (h : Nat) (type : Nat) (payload : List Byte) : (journal s h type payload).pending = s.pending := by
  unfold journal
  try dsimp only
  repeat' (first | with_reducible rfl | simp; done | split)
@[simp] theorem journal_freeCtr (s : State) (h : Nat) (type : Nat) (payload : List Byte) : (journal s h type payload).freeCtr = s.freeCtr := by
  unfold journal
  try dsimp only
  repeat' (first | with_reducible rfl | simp; done | split)
@[simp] theorem journal_nextId (s : State) (h : Nat) (type : Nat) (payload : List Byte) : (journal s h type payload).nextId = s.nextId := by
  unfold journal
  try dsimp only
  repeat' (first | with_reducible rfl | simp; done | split)

/-! ## healthEvent -/

@[simp] theorem healthEvent_msgs (s : State) (die : Nat) (bit : Nat) (value : Nat) : (healthEvent s die bit value).msgs = s.msgs := by
  unfold healthEvent
  try dsimp only
  repeat' (first | with_reducible rfl | simp; done | split)
@[simp] theorem healthEvent_mem (s : State) (die : Nat) (bit : Nat) (value : Nat) : (healthEvent s die bit value).mem = s.mem := by
  unfold healthEvent
  try dsimp only
  repeat' (first | with_reducible rfl | simp; done | split)
@[simp] theorem healthEvent_seqs (s : State) (die : Nat) (bit : Nat) (value : Nat) : (healthEvent s die bit value).seqs = s.seqs := by
  unfold healthEvent
  try dsimp only
  repeat' (first | with_reducible rfl | simp; done | split)
@[simp] theorem healthEvent_merge (s : State) (die : Nat) (bit : Nat) (value : Nat) : (healthEvent s die bit value).merge = s.merge := by
  unfold healthEvent
  try dsimp only
  repeat' (first | with_reducible rfl | simp; done | split)
@[simp] theorem healthEvent_fab (s : State) (die : Nat) (bit : Nat) (value : Nat) : (healthEvent s die bit value).fab = s.fab := by
  unfold healthEvent
  try dsimp only
  repeat' (first | with_reducible rfl | simp; done | split)
@[simp] theorem healthEvent_traf (s : State) (die : Nat) (bit : Nat) (value : Nat) : (healthEvent s die bit value).traf = s.traf := by
  unfold healthEvent
  try dsimp only
  repeat' (first | with_reducible rfl | simp; done | split)
@[simp] theorem healthEvent_ledg (s : State) (die : Nat) (bit : Nat) (value : Nat) : (healthEvent s die bit value).ledg = s.ledg := by
  unfold healthEvent
  try dsimp only
  repeat' (first | with_reducible rfl | simp; done | split)
@[simp] theorem healthEvent_regn (s : State) (die : Nat) (bit : Nat) (value : Nat) : (healthEvent s die bit value).regn = s.regn := by
  unfold healthEvent
  try dsimp only
  repeat' (first | with_reducible rfl | simp; done | split)
@[simp] theorem healthEvent_chive (s : State) (die : Nat) (bit : Nat) (value : Nat) : (healthEvent s die bit value).chive = s.chive := by
  unfold healthEvent
  try dsimp only
  repeat' (first | with_reducible rfl | simp; done | split)
@[simp] theorem healthEvent_dill (s : State) (die : Nat) (bit : Nat) (value : Nat) : (healthEvent s die bit value).dill = s.dill := by
  unfold healthEvent
  try dsimp only
  repeat' (first | with_reducible rfl | simp; done | split)
@[simp] theorem healthEvent_host (s : State) (die : Nat) (bit : Nat) (value : Nat) : (healthEvent s die bit value).host = s.host := by
  unfold healthEvent
  try dsimp only
  repeat' (first | with_reducible rfl | simp; done | split)
@[simp] theorem healthEvent_trust (s : State) (die : Nat) (bit : Nat) (value : Nat) : (healthEvent s die bit value).trust = s.trust := by
  unfold healthEvent
  try dsimp only
  repeat' (first | with_reducible rfl | simp; done | split)
@[simp] theorem healthEvent_life (s : State) (die : Nat) (bit : Nat) (value : Nat) : (healthEvent s die bit value).life = s.life := by
  unfold healthEvent
  try dsimp only
  repeat' (first | with_reducible rfl | simp; done | split)
@[simp] theorem healthEvent_health (s : State) (die : Nat) (bit : Nat) (value : Nat) : (healthEvent s die bit value).health = s.health := by
  unfold healthEvent
  try dsimp only
  repeat' (first | with_reducible rfl | simp; done | split)
@[simp] theorem healthEvent_power (s : State) (die : Nat) (bit : Nat) (value : Nat) : (healthEvent s die bit value).power = s.power := by
  unfold healthEvent
  try dsimp only
  repeat' (first | with_reducible rfl | simp; done | split)
@[simp] theorem healthEvent_taps (s : State) (die : Nat) (bit : Nat) (value : Nat) : (healthEvent s die bit value).taps = s.taps := by
  unfold healthEvent
  try dsimp only
  repeat' (first | with_reducible rfl | simp; done | split)
@[simp] theorem healthEvent_pending (s : State) (die : Nat) (bit : Nat) (value : Nat) : (healthEvent s die bit value).pending = s.pending := by
  unfold healthEvent
  try dsimp only
  repeat' (first | with_reducible rfl | simp; done | split)
@[simp] theorem healthEvent_freeCtr (s : State) (die : Nat) (bit : Nat) (value : Nat) : (healthEvent s die bit value).freeCtr = s.freeCtr := by
  unfold healthEvent
  try dsimp only
  repeat' (first | with_reducible rfl | simp; done | split)
@[simp] theorem healthEvent_nextId (s : State) (die : Nat) (bit : Nat) (value : Nat) : (healthEvent s die bit value).nextId = s.nextId := by
  unfold healthEvent
  try dsimp only
  repeat' (first | with_reducible rfl | simp; done | split)

/-! ## modEng -/

@[simp] theorem modEng_msgs (s : State) (k : Nat) (f : Dill → Dill) : (modEng s k f).msgs = s.msgs := by
  unfold modEng; (repeat' split) <;> simp
@[simp] theorem modEng_regs (s : State) (k : Nat) (f : Dill → Dill) : (modEng s k f).regs = s.regs := by
  unfold modEng; (repeat' split) <;> simp
@[simp] theorem modEng_mem (s : State) (k : Nat) (f : Dill → Dill) : (modEng s k f).mem = s.mem := by
  unfold modEng; (repeat' split) <;> simp
@[simp] theorem modEng_seqs (s : State) (k : Nat) (f : Dill → Dill) : (modEng s k f).seqs = s.seqs := by
  unfold modEng; (repeat' split) <;> simp
@[simp] theorem modEng_merge (s : State) (k : Nat) (f : Dill → Dill) : (modEng s k f).merge = s.merge := by
  unfold modEng; (repeat' split) <;> simp
@[simp] theorem modEng_fab (s : State) (k : Nat) (f : Dill → Dill) : (modEng s k f).fab = s.fab := by
  unfold modEng; (repeat' split) <;> simp
@[simp] theorem modEng_traf (s : State) (k : Nat) (f : Dill → Dill) : (modEng s k f).traf = s.traf := by
  unfold modEng; (repeat' split) <;> simp
@[simp] theorem modEng_ledg (s : State) (k : Nat) (f : Dill → Dill) : (modEng s k f).ledg = s.ledg := by
  unfold modEng; (repeat' split) <;> simp
@[simp] theorem modEng_regn (s : State) (k : Nat) (f : Dill → Dill) : (modEng s k f).regn = s.regn := by
  unfold modEng; (repeat' split) <;> simp
@[simp] theorem modEng_chive (s : State) (k : Nat) (f : Dill → Dill) : (modEng s k f).chive = s.chive := by
  unfold modEng; (repeat' split) <;> simp
@[simp] theorem modEng_host (s : State) (k : Nat) (f : Dill → Dill) : (modEng s k f).host = s.host := by
  unfold modEng; (repeat' split) <;> simp
@[simp] theorem modEng_trust (s : State) (k : Nat) (f : Dill → Dill) : (modEng s k f).trust = s.trust := by
  unfold modEng; (repeat' split) <;> simp
@[simp] theorem modEng_life (s : State) (k : Nat) (f : Dill → Dill) : (modEng s k f).life = s.life := by
  unfold modEng; (repeat' split) <;> simp
@[simp] theorem modEng_health (s : State) (k : Nat) (f : Dill → Dill) : (modEng s k f).health = s.health := by
  unfold modEng; (repeat' split) <;> simp
@[simp] theorem modEng_jrnl (s : State) (k : Nat) (f : Dill → Dill) : (modEng s k f).jrnl = s.jrnl := by
  unfold modEng; (repeat' split) <;> simp
@[simp] theorem modEng_power (s : State) (k : Nat) (f : Dill → Dill) : (modEng s k f).power = s.power := by
  unfold modEng; (repeat' split) <;> simp
@[simp] theorem modEng_taps (s : State) (k : Nat) (f : Dill → Dill) : (modEng s k f).taps = s.taps := by
  unfold modEng; (repeat' split) <;> simp
@[simp] theorem modEng_out (s : State) (k : Nat) (f : Dill → Dill) : (modEng s k f).out = s.out := by
  unfold modEng; (repeat' split) <;> simp
@[simp] theorem modEng_pending (s : State) (k : Nat) (f : Dill → Dill) : (modEng s k f).pending = s.pending := by
  unfold modEng; (repeat' split) <;> simp
@[simp] theorem modEng_freeCtr (s : State) (k : Nat) (f : Dill → Dill) : (modEng s k f).freeCtr = s.freeCtr := by
  unfold modEng; (repeat' split) <;> simp
@[simp] theorem modEng_nextId (s : State) (k : Nat) (f : Dill → Dill) : (modEng s k f).nextId = s.nextId := by
  unfold modEng; (repeat' split) <;> simp

/-! ## modCmd -/

@[simp] theorem modCmd_msgs (s : State) (k : Nat) (i : Nat) (f : CmdSlot → CmdSlot) : (modCmd s k i f).msgs = s.msgs := by
  unfold modCmd; (repeat' split) <;> simp
@[simp] theorem modCmd_regs (s : State) (k : Nat) (i : Nat) (f : CmdSlot → CmdSlot) : (modCmd s k i f).regs = s.regs := by
  unfold modCmd; (repeat' split) <;> simp
@[simp] theorem modCmd_mem (s : State) (k : Nat) (i : Nat) (f : CmdSlot → CmdSlot) : (modCmd s k i f).mem = s.mem := by
  unfold modCmd; (repeat' split) <;> simp
@[simp] theorem modCmd_seqs (s : State) (k : Nat) (i : Nat) (f : CmdSlot → CmdSlot) : (modCmd s k i f).seqs = s.seqs := by
  unfold modCmd; (repeat' split) <;> simp
@[simp] theorem modCmd_merge (s : State) (k : Nat) (i : Nat) (f : CmdSlot → CmdSlot) : (modCmd s k i f).merge = s.merge := by
  unfold modCmd; (repeat' split) <;> simp
@[simp] theorem modCmd_fab (s : State) (k : Nat) (i : Nat) (f : CmdSlot → CmdSlot) : (modCmd s k i f).fab = s.fab := by
  unfold modCmd; (repeat' split) <;> simp
@[simp] theorem modCmd_traf (s : State) (k : Nat) (i : Nat) (f : CmdSlot → CmdSlot) : (modCmd s k i f).traf = s.traf := by
  unfold modCmd; (repeat' split) <;> simp
@[simp] theorem modCmd_ledg (s : State) (k : Nat) (i : Nat) (f : CmdSlot → CmdSlot) : (modCmd s k i f).ledg = s.ledg := by
  unfold modCmd; (repeat' split) <;> simp
@[simp] theorem modCmd_regn (s : State) (k : Nat) (i : Nat) (f : CmdSlot → CmdSlot) : (modCmd s k i f).regn = s.regn := by
  unfold modCmd; (repeat' split) <;> simp
@[simp] theorem modCmd_chive (s : State) (k : Nat) (i : Nat) (f : CmdSlot → CmdSlot) : (modCmd s k i f).chive = s.chive := by
  unfold modCmd; (repeat' split) <;> simp
@[simp] theorem modCmd_host (s : State) (k : Nat) (i : Nat) (f : CmdSlot → CmdSlot) : (modCmd s k i f).host = s.host := by
  unfold modCmd; (repeat' split) <;> simp
@[simp] theorem modCmd_trust (s : State) (k : Nat) (i : Nat) (f : CmdSlot → CmdSlot) : (modCmd s k i f).trust = s.trust := by
  unfold modCmd; (repeat' split) <;> simp
@[simp] theorem modCmd_life (s : State) (k : Nat) (i : Nat) (f : CmdSlot → CmdSlot) : (modCmd s k i f).life = s.life := by
  unfold modCmd; (repeat' split) <;> simp
@[simp] theorem modCmd_health (s : State) (k : Nat) (i : Nat) (f : CmdSlot → CmdSlot) : (modCmd s k i f).health = s.health := by
  unfold modCmd; (repeat' split) <;> simp
@[simp] theorem modCmd_jrnl (s : State) (k : Nat) (i : Nat) (f : CmdSlot → CmdSlot) : (modCmd s k i f).jrnl = s.jrnl := by
  unfold modCmd; (repeat' split) <;> simp
@[simp] theorem modCmd_power (s : State) (k : Nat) (i : Nat) (f : CmdSlot → CmdSlot) : (modCmd s k i f).power = s.power := by
  unfold modCmd; (repeat' split) <;> simp
@[simp] theorem modCmd_taps (s : State) (k : Nat) (i : Nat) (f : CmdSlot → CmdSlot) : (modCmd s k i f).taps = s.taps := by
  unfold modCmd; (repeat' split) <;> simp
@[simp] theorem modCmd_out (s : State) (k : Nat) (i : Nat) (f : CmdSlot → CmdSlot) : (modCmd s k i f).out = s.out := by
  unfold modCmd; (repeat' split) <;> simp
@[simp] theorem modCmd_pending (s : State) (k : Nat) (i : Nat) (f : CmdSlot → CmdSlot) : (modCmd s k i f).pending = s.pending := by
  unfold modCmd; (repeat' split) <;> simp
@[simp] theorem modCmd_freeCtr (s : State) (k : Nat) (i : Nat) (f : CmdSlot → CmdSlot) : (modCmd s k i f).freeCtr = s.freeCtr := by
  unfold modCmd; (repeat' split) <;> simp
@[simp] theorem modCmd_nextId (s : State) (k : Nat) (i : Nat) (f : CmdSlot → CmdSlot) : (modCmd s k i f).nextId = s.nextId := by
  unfold modCmd; (repeat' split) <;> simp

/-! ## takeLane -/

@[simp] theorem takeLane_msgs (s : State) (k : Nat) (i : Nat) : (takeLane s k i).msgs = s.msgs := by
  unfold takeLane
  try dsimp only
  repeat' (first | with_reducible rfl | simp; done | split)
@[simp] theorem takeLane_mem (s : State) (k : Nat) (i : Nat) : (takeLane s k i).mem = s.mem := by
  unfold takeLane
  try dsimp only
  repeat' (first | with_reducible rfl | simp; done | split)
@[simp] theorem takeLane_seqs (s : State) (k : Nat) (i : Nat) : (takeLane s k i).seqs = s.seqs := by
  unfold takeLane
  try dsimp only
  repeat' (first | with_reducible rfl | simp; done | split)
@[simp] theorem takeLane_merge (s : State) (k : Nat) (i : Nat) : (takeLane s k i).merge = s.merge := by
  unfold takeLane
  try dsimp only
  repeat' (first | with_reducible rfl | simp; done | split)
@[simp] theorem takeLane_fab (s : State) (k : Nat) (i : Nat) : (takeLane s k i).fab = s.fab := by
  unfold takeLane
  try dsimp only
  repeat' (first | with_reducible rfl | simp; done | split)
@[simp] theorem takeLane_traf (s : State) (k : Nat) (i : Nat) : (takeLane s k i).traf = s.traf := by
  unfold takeLane
  try dsimp only
  repeat' (first | with_reducible rfl | simp; done | split)
@[simp] theorem takeLane_ledg (s : State) (k : Nat) (i : Nat) : (takeLane s k i).ledg = s.ledg := by
  unfold takeLane
  try dsimp only
  repeat' (first | with_reducible rfl | simp; done | split)
@[simp] theorem takeLane_regn (s : State) (k : Nat) (i : Nat) : (takeLane s k i).regn = s.regn := by
  unfold takeLane
  try dsimp only
  repeat' (first | with_reducible rfl | simp; done | split)
@[simp] theorem takeLane_chive (s : State) (k : Nat) (i : Nat) : (takeLane s k i).chive = s.chive := by
  unfold takeLane
  try dsimp only
  repeat' (first | with_reducible rfl | simp; done | split)
@[simp] theorem takeLane_host (s : State) (k : Nat) (i : Nat) : (takeLane s k i).host = s.host := by
  unfold takeLane
  try dsimp only
  repeat' (first | with_reducible rfl | simp; done | split)
@[simp] theorem takeLane_trust (s : State) (k : Nat) (i : Nat) : (takeLane s k i).trust = s.trust := by
  unfold takeLane
  try dsimp only
  repeat' (first | with_reducible rfl | simp; done | split)
@[simp] theorem takeLane_life (s : State) (k : Nat) (i : Nat) : (takeLane s k i).life = s.life := by
  unfold takeLane
  try dsimp only
  repeat' (first | with_reducible rfl | simp; done | split)
@[simp] theorem takeLane_health (s : State) (k : Nat) (i : Nat) : (takeLane s k i).health = s.health := by
  unfold takeLane
  try dsimp only
  repeat' (first | with_reducible rfl | simp; done | split)
@[simp] theorem takeLane_jrnl (s : State) (k : Nat) (i : Nat) : (takeLane s k i).jrnl = s.jrnl := by
  unfold takeLane
  try dsimp only
  repeat' (first | with_reducible rfl | simp; done | split)
@[simp] theorem takeLane_power (s : State) (k : Nat) (i : Nat) : (takeLane s k i).power = s.power := by
  unfold takeLane
  try dsimp only
  repeat' (first | with_reducible rfl | simp; done | split)
@[simp] theorem takeLane_taps (s : State) (k : Nat) (i : Nat) : (takeLane s k i).taps = s.taps := by
  unfold takeLane
  try dsimp only
  repeat' (first | with_reducible rfl | simp; done | split)
@[simp] theorem takeLane_out (s : State) (k : Nat) (i : Nat) : (takeLane s k i).out = s.out := by
  unfold takeLane
  try dsimp only
  repeat' (first | with_reducible rfl | simp; done | split)
@[simp] theorem takeLane_pending (s : State) (k : Nat) (i : Nat) : (takeLane s k i).pending = s.pending := by
  unfold takeLane
  try dsimp only
  repeat' (first | with_reducible rfl | simp; done | split)
@[simp] theorem takeLane_freeCtr (s : State) (k : Nat) (i : Nat) : (takeLane s k i).freeCtr = s.freeCtr := by
  unfold takeLane
  try dsimp only
  repeat' (first | with_reducible rfl | simp; done | split)
@[simp] theorem takeLane_nextId (s : State) (k : Nat) (i : Nat) : (takeLane s k i).nextId = s.nextId := by
  unfold takeLane
  try dsimp only
  repeat' (first | with_reducible rfl | simp; done | split)

/-! ## touchStack -/

@[simp] theorem touchStack_msgs (s : State) (a : Nat) (n : Nat) : (touchStack s a n).msgs = s.msgs := by
  unfold touchStack
  try dsimp only
  repeat' (first | with_reducible rfl | simp; done | split)
@[simp] theorem touchStack_regs (s : State) (a : Nat) (n : Nat) : (touchStack s a n).regs = s.regs := by
  unfold touchStack
  try dsimp only
  repeat' (first | with_reducible rfl | simp; done | split)
@[simp] theorem touchStack_seqs (s : State) (a : Nat) (n : Nat) : (touchStack s a n).seqs = s.seqs := by
  unfold touchStack
  try dsimp only
  repeat' (first | with_reducible rfl | simp; done | split)
@[simp] theorem touchStack_merge (s : State) (a : Nat) (n : Nat) : (touchStack s a n).merge = s.merge := by
  unfold touchStack
  try dsimp only
  repeat' (first | with_reducible rfl | simp; done | split)
@[simp] theorem touchStack_fab (s : State) (a : Nat) (n : Nat) : (touchStack s a n).fab = s.fab := by
  unfold touchStack
  try dsimp only
  repeat' (first | with_reducible rfl | simp; done | split)
@[simp] theorem touchStack_traf (s : State) (a : Nat) (n : Nat) : (touchStack s a n).traf = s.traf := by
  unfold touchStack
  try dsimp only
  repeat' (first | with_reducible rfl | simp; done | split)
@[simp] theorem touchStack_ledg (s : State) (a : Nat) (n : Nat) : (touchStack s a n).ledg = s.ledg := by
  unfold touchStack
  try dsimp only
  repeat' (first | with_reducible rfl | simp; done | split)
@[simp] theorem touchStack_regn (s : State) (a : Nat) (n : Nat) : (touchStack s a n).regn = s.regn := by
  unfold touchStack
  try dsimp only
  repeat' (first | with_reducible rfl | simp; done | split)
@[simp] theorem touchStack_chive (s : State) (a : Nat) (n : Nat) : (touchStack s a n).chive = s.chive := by
  unfold touchStack
  try dsimp only
  repeat' (first | with_reducible rfl | simp; done | split)
@[simp] theorem touchStack_dill (s : State) (a : Nat) (n : Nat) : (touchStack s a n).dill = s.dill := by
  unfold touchStack
  try dsimp only
  repeat' (first | with_reducible rfl | simp; done | split)
@[simp] theorem touchStack_host (s : State) (a : Nat) (n : Nat) : (touchStack s a n).host = s.host := by
  unfold touchStack
  try dsimp only
  repeat' (first | with_reducible rfl | simp; done | split)
@[simp] theorem touchStack_trust (s : State) (a : Nat) (n : Nat) : (touchStack s a n).trust = s.trust := by
  unfold touchStack
  try dsimp only
  repeat' (first | with_reducible rfl | simp; done | split)
@[simp] theorem touchStack_life (s : State) (a : Nat) (n : Nat) : (touchStack s a n).life = s.life := by
  unfold touchStack
  try dsimp only
  repeat' (first | with_reducible rfl | simp; done | split)
@[simp] theorem touchStack_health (s : State) (a : Nat) (n : Nat) : (touchStack s a n).health = s.health := by
  unfold touchStack
  try dsimp only
  repeat' (first | with_reducible rfl | simp; done | split)
@[simp] theorem touchStack_jrnl (s : State) (a : Nat) (n : Nat) : (touchStack s a n).jrnl = s.jrnl := by
  unfold touchStack
  try dsimp only
  repeat' (first | with_reducible rfl | simp; done | split)
@[simp] theorem touchStack_power (s : State) (a : Nat) (n : Nat) : (touchStack s a n).power = s.power := by
  unfold touchStack
  try dsimp only
  repeat' (first | with_reducible rfl | simp; done | split)
@[simp] theorem touchStack_taps (s : State) (a : Nat) (n : Nat) : (touchStack s a n).taps = s.taps := by
  unfold touchStack
  try dsimp only
  repeat' (first | with_reducible rfl | simp; done | split)
@[simp] theorem touchStack_out (s : State) (a : Nat) (n : Nat) : (touchStack s a n).out = s.out := by
  unfold touchStack
  try dsimp only
  repeat' (first | with_reducible rfl | simp; done | split)
@[simp] theorem touchStack_pending (s : State) (a : Nat) (n : Nat) : (touchStack s a n).pending = s.pending := by
  unfold touchStack
  try dsimp only
  repeat' (first | with_reducible rfl | simp; done | split)
@[simp] theorem touchStack_freeCtr (s : State) (a : Nat) (n : Nat) : (touchStack s a n).freeCtr = s.freeCtr := by
  unfold touchStack
  try dsimp only
  repeat' (first | with_reducible rfl | simp; done | split)
@[simp] theorem touchStack_nextId (s : State) (a : Nat) (n : Nat) : (touchStack s a n).nextId = s.nextId := by
  unfold touchStack
  try dsimp only
  repeat' (first | with_reducible rfl | simp; done | split)

/-! ## touchBanks -/

@[simp] theorem touchBanks_msgs (s : State) (a : Nat) (n : Nat) : (touchBanks s a n).msgs = s.msgs := by
  unfold touchBanks
  try dsimp only
  repeat' (first | with_reducible rfl | simp; done | split)
@[simp] theorem touchBanks_regs (s : State) (a : Nat) (n : Nat) : (touchBanks s a n).regs = s.regs := by
  unfold touchBanks
  try dsimp only
  repeat' (first | with_reducible rfl | simp; done | split)
@[simp] theorem touchBanks_seqs (s : State) (a : Nat) (n : Nat) : (touchBanks s a n).seqs = s.seqs := by
  unfold touchBanks
  try dsimp only
  repeat' (first | with_reducible rfl | simp; done | split)
@[simp] theorem touchBanks_merge (s : State) (a : Nat) (n : Nat) : (touchBanks s a n).merge = s.merge := by
  unfold touchBanks
  try dsimp only
  repeat' (first | with_reducible rfl | simp; done | split)
@[simp] theorem touchBanks_fab (s : State) (a : Nat) (n : Nat) : (touchBanks s a n).fab = s.fab := by
  unfold touchBanks
  try dsimp only
  repeat' (first | with_reducible rfl | simp; done | split)
@[simp] theorem touchBanks_traf (s : State) (a : Nat) (n : Nat) : (touchBanks s a n).traf = s.traf := by
  unfold touchBanks
  try dsimp only
  repeat' (first | with_reducible rfl | simp; done | split)
@[simp] theorem touchBanks_ledg (s : State) (a : Nat) (n : Nat) : (touchBanks s a n).ledg = s.ledg := by
  unfold touchBanks
  try dsimp only
  repeat' (first | with_reducible rfl | simp; done | split)
@[simp] theorem touchBanks_regn (s : State) (a : Nat) (n : Nat) : (touchBanks s a n).regn = s.regn := by
  unfold touchBanks
  try dsimp only
  repeat' (first | with_reducible rfl | simp; done | split)
@[simp] theorem touchBanks_chive (s : State) (a : Nat) (n : Nat) : (touchBanks s a n).chive = s.chive := by
  unfold touchBanks
  try dsimp only
  repeat' (first | with_reducible rfl | simp; done | split)
@[simp] theorem touchBanks_dill (s : State) (a : Nat) (n : Nat) : (touchBanks s a n).dill = s.dill := by
  unfold touchBanks
  try dsimp only
  repeat' (first | with_reducible rfl | simp; done | split)
@[simp] theorem touchBanks_host (s : State) (a : Nat) (n : Nat) : (touchBanks s a n).host = s.host := by
  unfold touchBanks
  try dsimp only
  repeat' (first | with_reducible rfl | simp; done | split)
@[simp] theorem touchBanks_trust (s : State) (a : Nat) (n : Nat) : (touchBanks s a n).trust = s.trust := by
  unfold touchBanks
  try dsimp only
  repeat' (first | with_reducible rfl | simp; done | split)
@[simp] theorem touchBanks_life (s : State) (a : Nat) (n : Nat) : (touchBanks s a n).life = s.life := by
  unfold touchBanks
  try dsimp only
  repeat' (first | with_reducible rfl | simp; done | split)
@[simp] theorem touchBanks_health (s : State) (a : Nat) (n : Nat) : (touchBanks s a n).health = s.health := by
  unfold touchBanks
  try dsimp only
  repeat' (first | with_reducible rfl | simp; done | split)
@[simp] theorem touchBanks_jrnl (s : State) (a : Nat) (n : Nat) : (touchBanks s a n).jrnl = s.jrnl := by
  unfold touchBanks
  try dsimp only
  repeat' (first | with_reducible rfl | simp; done | split)
@[simp] theorem touchBanks_power (s : State) (a : Nat) (n : Nat) : (touchBanks s a n).power = s.power := by
  unfold touchBanks
  try dsimp only
  repeat' (first | with_reducible rfl | simp; done | split)
@[simp] theorem touchBanks_taps (s : State) (a : Nat) (n : Nat) : (touchBanks s a n).taps = s.taps := by
  unfold touchBanks
  try dsimp only
  repeat' (first | with_reducible rfl | simp; done | split)
@[simp] theorem touchBanks_out (s : State) (a : Nat) (n : Nat) : (touchBanks s a n).out = s.out := by
  unfold touchBanks
  try dsimp only
  repeat' (first | with_reducible rfl | simp; done | split)
@[simp] theorem touchBanks_pending (s : State) (a : Nat) (n : Nat) : (touchBanks s a n).pending = s.pending := by
  unfold touchBanks
  try dsimp only
  repeat' (first | with_reducible rfl | simp; done | split)
@[simp] theorem touchBanks_freeCtr (s : State) (a : Nat) (n : Nat) : (touchBanks s a n).freeCtr = s.freeCtr := by
  unfold touchBanks
  try dsimp only
  repeat' (first | with_reducible rfl | simp; done | split)
@[simp] theorem touchBanks_nextId (s : State) (a : Nat) (n : Nat) : (touchBanks s a n).nextId = s.nextId := by
  unfold touchBanks
  try dsimp only
  repeat' (first | with_reducible rfl | simp; done | split)

/-! ## scrub -/

@[simp] theorem scrub_msgs (s : State) (a : Nat) (n : Nat) : (scrub s a n).msgs = s.msgs := by
  unfold scrub; (repeat' split) <;> simp
@[simp] theorem scrub_regs (s : State) (a : Nat) (n : Nat) : (scrub s a n).regs = s.regs := by
  unfold scrub; (repeat' split) <;> simp
@[simp] theorem scrub_seqs (s : State) (a : Nat) (n : Nat) : (scrub s a n).seqs = s.seqs := by
  unfold scrub; (repeat' split) <;> simp
@[simp] theorem scrub_merge (s : State) (a : Nat) (n : Nat) : (scrub s a n).merge = s.merge := by
  unfold scrub; (repeat' split) <;> simp
@[simp] theorem scrub_fab (s : State) (a : Nat) (n : Nat) : (scrub s a n).fab = s.fab := by
  unfold scrub; (repeat' split) <;> simp
@[simp] theorem scrub_traf (s : State) (a : Nat) (n : Nat) : (scrub s a n).traf = s.traf := by
  unfold scrub; (repeat' split) <;> simp
@[simp] theorem scrub_ledg (s : State) (a : Nat) (n : Nat) : (scrub s a n).ledg = s.ledg := by
  unfold scrub; (repeat' split) <;> simp
@[simp] theorem scrub_regn (s : State) (a : Nat) (n : Nat) : (scrub s a n).regn = s.regn := by
  unfold scrub; (repeat' split) <;> simp
@[simp] theorem scrub_chive (s : State) (a : Nat) (n : Nat) : (scrub s a n).chive = s.chive := by
  unfold scrub; (repeat' split) <;> simp
@[simp] theorem scrub_dill (s : State) (a : Nat) (n : Nat) : (scrub s a n).dill = s.dill := by
  unfold scrub; (repeat' split) <;> simp
@[simp] theorem scrub_host (s : State) (a : Nat) (n : Nat) : (scrub s a n).host = s.host := by
  unfold scrub; (repeat' split) <;> simp
@[simp] theorem scrub_trust (s : State) (a : Nat) (n : Nat) : (scrub s a n).trust = s.trust := by
  unfold scrub; (repeat' split) <;> simp
@[simp] theorem scrub_life (s : State) (a : Nat) (n : Nat) : (scrub s a n).life = s.life := by
  unfold scrub; (repeat' split) <;> simp
@[simp] theorem scrub_health (s : State) (a : Nat) (n : Nat) : (scrub s a n).health = s.health := by
  unfold scrub; (repeat' split) <;> simp
@[simp] theorem scrub_jrnl (s : State) (a : Nat) (n : Nat) : (scrub s a n).jrnl = s.jrnl := by
  unfold scrub; (repeat' split) <;> simp
@[simp] theorem scrub_power (s : State) (a : Nat) (n : Nat) : (scrub s a n).power = s.power := by
  unfold scrub; (repeat' split) <;> simp
@[simp] theorem scrub_taps (s : State) (a : Nat) (n : Nat) : (scrub s a n).taps = s.taps := by
  unfold scrub; (repeat' split) <;> simp
@[simp] theorem scrub_out (s : State) (a : Nat) (n : Nat) : (scrub s a n).out = s.out := by
  unfold scrub; (repeat' split) <;> simp
@[simp] theorem scrub_pending (s : State) (a : Nat) (n : Nat) : (scrub s a n).pending = s.pending := by
  unfold scrub; (repeat' split) <;> simp
@[simp] theorem scrub_freeCtr (s : State) (a : Nat) (n : Nat) : (scrub s a n).freeCtr = s.freeCtr := by
  unfold scrub; (repeat' split) <;> simp
@[simp] theorem scrub_nextId (s : State) (a : Nat) (n : Nat) : (scrub s a n).nextId = s.nextId := by
  unfold scrub; (repeat' split) <;> simp

/-! ## modBank -/

@[simp] theorem modBank_msgs (s : State) (die : Nat) (b : Nat) (f : Bank → Bank) : (modBank s die b f).msgs = s.msgs := by
  unfold modBank; (repeat' split) <;> simp
@[simp] theorem modBank_regs (s : State) (die : Nat) (b : Nat) (f : Bank → Bank) : (modBank s die b f).regs = s.regs := by
  unfold modBank; (repeat' split) <;> simp
@[simp] theorem modBank_seqs (s : State) (die : Nat) (b : Nat) (f : Bank → Bank) : (modBank s die b f).seqs = s.seqs := by
  unfold modBank; (repeat' split) <;> simp
@[simp] theorem modBank_merge (s : State) (die : Nat) (b : Nat) (f : Bank → Bank) : (modBank s die b f).merge = s.merge := by
  unfold modBank; (repeat' split) <;> simp
@[simp] theorem modBank_fab (s : State) (die : Nat) (b : Nat) (f : Bank → Bank) : (modBank s die b f).fab = s.fab := by
  unfold modBank; (repeat' split) <;> simp
@[simp] theorem modBank_traf (s : State) (die : Nat) (b : Nat) (f : Bank → Bank) : (modBank s die b f).traf = s.traf := by
  unfold modBank; (repeat' split) <;> simp
@[simp] theorem modBank_ledg (s : State) (die : Nat) (b : Nat) (f : Bank → Bank) : (modBank s die b f).ledg = s.ledg := by
  unfold modBank; (repeat' split) <;> simp
@[simp] theorem modBank_regn (s : State) (die : Nat) (b : Nat) (f : Bank → Bank) : (modBank s die b f).regn = s.regn := by
  unfold modBank; (repeat' split) <;> simp
@[simp] theorem modBank_chive (s : State) (die : Nat) (b : Nat) (f : Bank → Bank) : (modBank s die b f).chive = s.chive := by
  unfold modBank; (repeat' split) <;> simp
@[simp] theorem modBank_dill (s : State) (die : Nat) (b : Nat) (f : Bank → Bank) : (modBank s die b f).dill = s.dill := by
  unfold modBank; (repeat' split) <;> simp
@[simp] theorem modBank_host (s : State) (die : Nat) (b : Nat) (f : Bank → Bank) : (modBank s die b f).host = s.host := by
  unfold modBank; (repeat' split) <;> simp
@[simp] theorem modBank_trust (s : State) (die : Nat) (b : Nat) (f : Bank → Bank) : (modBank s die b f).trust = s.trust := by
  unfold modBank; (repeat' split) <;> simp
@[simp] theorem modBank_life (s : State) (die : Nat) (b : Nat) (f : Bank → Bank) : (modBank s die b f).life = s.life := by
  unfold modBank; (repeat' split) <;> simp
@[simp] theorem modBank_health (s : State) (die : Nat) (b : Nat) (f : Bank → Bank) : (modBank s die b f).health = s.health := by
  unfold modBank; (repeat' split) <;> simp
@[simp] theorem modBank_jrnl (s : State) (die : Nat) (b : Nat) (f : Bank → Bank) : (modBank s die b f).jrnl = s.jrnl := by
  unfold modBank; (repeat' split) <;> simp
@[simp] theorem modBank_power (s : State) (die : Nat) (b : Nat) (f : Bank → Bank) : (modBank s die b f).power = s.power := by
  unfold modBank; (repeat' split) <;> simp
@[simp] theorem modBank_taps (s : State) (die : Nat) (b : Nat) (f : Bank → Bank) : (modBank s die b f).taps = s.taps := by
  unfold modBank; (repeat' split) <;> simp
@[simp] theorem modBank_out (s : State) (die : Nat) (b : Nat) (f : Bank → Bank) : (modBank s die b f).out = s.out := by
  unfold modBank; (repeat' split) <;> simp
@[simp] theorem modBank_pending (s : State) (die : Nat) (b : Nat) (f : Bank → Bank) : (modBank s die b f).pending = s.pending := by
  unfold modBank; (repeat' split) <;> simp
@[simp] theorem modBank_freeCtr (s : State) (die : Nat) (b : Nat) (f : Bank → Bank) : (modBank s die b f).freeCtr = s.freeCtr := by
  unfold modBank; (repeat' split) <;> simp
@[simp] theorem modBank_nextId (s : State) (die : Nat) (b : Nat) (f : Bank → Bank) : (modBank s die b f).nextId = s.nextId := by
  unfold modBank; (repeat' split) <;> simp

/-! ## bankOn -/

@[simp] theorem bankOn_msgs (s : State) (d : Nat) (b : Nat) : (bankOn s d b).msgs = s.msgs := by
  unfold bankOn; (repeat' split) <;> simp
@[simp] theorem bankOn_regs (s : State) (d : Nat) (b : Nat) : (bankOn s d b).regs = s.regs := by
  unfold bankOn; (repeat' split) <;> simp
@[simp] theorem bankOn_seqs (s : State) (d : Nat) (b : Nat) : (bankOn s d b).seqs = s.seqs := by
  unfold bankOn; (repeat' split) <;> simp
@[simp] theorem bankOn_merge (s : State) (d : Nat) (b : Nat) : (bankOn s d b).merge = s.merge := by
  unfold bankOn; (repeat' split) <;> simp
@[simp] theorem bankOn_fab (s : State) (d : Nat) (b : Nat) : (bankOn s d b).fab = s.fab := by
  unfold bankOn; (repeat' split) <;> simp
@[simp] theorem bankOn_traf (s : State) (d : Nat) (b : Nat) : (bankOn s d b).traf = s.traf := by
  unfold bankOn; (repeat' split) <;> simp
@[simp] theorem bankOn_ledg (s : State) (d : Nat) (b : Nat) : (bankOn s d b).ledg = s.ledg := by
  unfold bankOn; (repeat' split) <;> simp
@[simp] theorem bankOn_regn (s : State) (d : Nat) (b : Nat) : (bankOn s d b).regn = s.regn := by
  unfold bankOn; (repeat' split) <;> simp
@[simp] theorem bankOn_chive (s : State) (d : Nat) (b : Nat) : (bankOn s d b).chive = s.chive := by
  unfold bankOn; (repeat' split) <;> simp
@[simp] theorem bankOn_dill (s : State) (d : Nat) (b : Nat) : (bankOn s d b).dill = s.dill := by
  unfold bankOn; (repeat' split) <;> simp
@[simp] theorem bankOn_host (s : State) (d : Nat) (b : Nat) : (bankOn s d b).host = s.host := by
  unfold bankOn; (repeat' split) <;> simp
@[simp] theorem bankOn_trust (s : State) (d : Nat) (b : Nat) : (bankOn s d b).trust = s.trust := by
  unfold bankOn; (repeat' split) <;> simp
@[simp] theorem bankOn_life (s : State) (d : Nat) (b : Nat) : (bankOn s d b).life = s.life := by
  unfold bankOn; (repeat' split) <;> simp
@[simp] theorem bankOn_health (s : State) (d : Nat) (b : Nat) : (bankOn s d b).health = s.health := by
  unfold bankOn; (repeat' split) <;> simp
@[simp] theorem bankOn_jrnl (s : State) (d : Nat) (b : Nat) : (bankOn s d b).jrnl = s.jrnl := by
  unfold bankOn; (repeat' split) <;> simp
@[simp] theorem bankOn_power (s : State) (d : Nat) (b : Nat) : (bankOn s d b).power = s.power := by
  unfold bankOn; (repeat' split) <;> simp
@[simp] theorem bankOn_taps (s : State) (d : Nat) (b : Nat) : (bankOn s d b).taps = s.taps := by
  unfold bankOn; (repeat' split) <;> simp
@[simp] theorem bankOn_out (s : State) (d : Nat) (b : Nat) : (bankOn s d b).out = s.out := by
  unfold bankOn; (repeat' split) <;> simp
@[simp] theorem bankOn_pending (s : State) (d : Nat) (b : Nat) : (bankOn s d b).pending = s.pending := by
  unfold bankOn; (repeat' split) <;> simp
@[simp] theorem bankOn_freeCtr (s : State) (d : Nat) (b : Nat) : (bankOn s d b).freeCtr = s.freeCtr := by
  unfold bankOn; (repeat' split) <;> simp
@[simp] theorem bankOn_nextId (s : State) (d : Nat) (b : Nat) : (bankOn s d b).nextId = s.nextId := by
  unfold bankOn; (repeat' split) <;> simp

/-! ## bankOff -/

@[simp] theorem bankOff_msgs (s : State) (d : Nat) (b : Nat) : (bankOff s d b).msgs = s.msgs := by
  unfold bankOff; (repeat' split) <;> simp
@[simp] theorem bankOff_regs (s : State) (d : Nat) (b : Nat) : (bankOff s d b).regs = s.regs := by
  unfold bankOff; (repeat' split) <;> simp
@[simp] theorem bankOff_seqs (s : State) (d : Nat) (b : Nat) : (bankOff s d b).seqs = s.seqs := by
  unfold bankOff; (repeat' split) <;> simp
@[simp] theorem bankOff_merge (s : State) (d : Nat) (b : Nat) : (bankOff s d b).merge = s.merge := by
  unfold bankOff; (repeat' split) <;> simp
@[simp] theorem bankOff_fab (s : State) (d : Nat) (b : Nat) : (bankOff s d b).fab = s.fab := by
  unfold bankOff; (repeat' split) <;> simp
@[simp] theorem bankOff_traf (s : State) (d : Nat) (b : Nat) : (bankOff s d b).traf = s.traf := by
  unfold bankOff; (repeat' split) <;> simp
@[simp] theorem bankOff_ledg (s : State) (d : Nat) (b : Nat) : (bankOff s d b).ledg = s.ledg := by
  unfold bankOff; (repeat' split) <;> simp
@[simp] theorem bankOff_regn (s : State) (d : Nat) (b : Nat) : (bankOff s d b).regn = s.regn := by
  unfold bankOff; (repeat' split) <;> simp
@[simp] theorem bankOff_chive (s : State) (d : Nat) (b : Nat) : (bankOff s d b).chive = s.chive := by
  unfold bankOff; (repeat' split) <;> simp
@[simp] theorem bankOff_dill (s : State) (d : Nat) (b : Nat) : (bankOff s d b).dill = s.dill := by
  unfold bankOff; (repeat' split) <;> simp
@[simp] theorem bankOff_host (s : State) (d : Nat) (b : Nat) : (bankOff s d b).host = s.host := by
  unfold bankOff; (repeat' split) <;> simp
@[simp] theorem bankOff_trust (s : State) (d : Nat) (b : Nat) : (bankOff s d b).trust = s.trust := by
  unfold bankOff; (repeat' split) <;> simp
@[simp] theorem bankOff_life (s : State) (d : Nat) (b : Nat) : (bankOff s d b).life = s.life := by
  unfold bankOff; (repeat' split) <;> simp
@[simp] theorem bankOff_health (s : State) (d : Nat) (b : Nat) : (bankOff s d b).health = s.health := by
  unfold bankOff; (repeat' split) <;> simp
@[simp] theorem bankOff_jrnl (s : State) (d : Nat) (b : Nat) : (bankOff s d b).jrnl = s.jrnl := by
  unfold bankOff; (repeat' split) <;> simp
@[simp] theorem bankOff_power (s : State) (d : Nat) (b : Nat) : (bankOff s d b).power = s.power := by
  unfold bankOff; (repeat' split) <;> simp
@[simp] theorem bankOff_taps (s : State) (d : Nat) (b : Nat) : (bankOff s d b).taps = s.taps := by
  unfold bankOff; (repeat' split) <;> simp
@[simp] theorem bankOff_out (s : State) (d : Nat) (b : Nat) : (bankOff s d b).out = s.out := by
  unfold bankOff; (repeat' split) <;> simp
@[simp] theorem bankOff_pending (s : State) (d : Nat) (b : Nat) : (bankOff s d b).pending = s.pending := by
  unfold bankOff; (repeat' split) <;> simp
@[simp] theorem bankOff_freeCtr (s : State) (d : Nat) (b : Nat) : (bankOff s d b).freeCtr = s.freeCtr := by
  unfold bankOff; (repeat' split) <;> simp
@[simp] theorem bankOff_nextId (s : State) (d : Nat) (b : Nat) : (bankOff s d b).nextId = s.nextId := by
  unfold bankOff; (repeat' split) <;> simp

/-! ## fwRecord -/

@[simp] theorem fwRecord_msgs (s : State) (sub : Nat) (d : Nat) (b : Bundle) : (fwRecord s sub d b).msgs = s.msgs := by
  unfold fwRecord; (repeat' split) <;> simp
@[simp] theorem fwRecord_mem (s : State) (sub : Nat) (d : Nat) (b : Bundle) : (fwRecord s sub d b).mem = s.mem := by
  unfold fwRecord; (repeat' split) <;> simp
@[simp] theorem fwRecord_seqs (s : State) (sub : Nat) (d : Nat) (b : Bundle) : (fwRecord s sub d b).seqs = s.seqs := by
  unfold fwRecord; (repeat' split) <;> simp
@[simp] theorem fwRecord_merge (s : State) (sub : Nat) (d : Nat) (b : Bundle) : (fwRecord s sub d b).merge = s.merge := by
  unfold fwRecord; (repeat' split) <;> simp
@[simp] theorem fwRecord_fab (s : State) (sub : Nat) (d : Nat) (b : Bundle) : (fwRecord s sub d b).fab = s.fab := by
  unfold fwRecord; (repeat' split) <;> simp
@[simp] theorem fwRecord_traf (s : State) (sub : Nat) (d : Nat) (b : Bundle) : (fwRecord s sub d b).traf = s.traf := by
  unfold fwRecord; (repeat' split) <;> simp
@[simp] theorem fwRecord_ledg (s : State) (sub : Nat) (d : Nat) (b : Bundle) : (fwRecord s sub d b).ledg = s.ledg := by
  unfold fwRecord; (repeat' split) <;> simp
@[simp] theorem fwRecord_regn (s : State) (sub : Nat) (d : Nat) (b : Bundle) : (fwRecord s sub d b).regn = s.regn := by
  unfold fwRecord; (repeat' split) <;> simp
@[simp] theorem fwRecord_chive (s : State) (sub : Nat) (d : Nat) (b : Bundle) : (fwRecord s sub d b).chive = s.chive := by
  unfold fwRecord; (repeat' split) <;> simp
@[simp] theorem fwRecord_dill (s : State) (sub : Nat) (d : Nat) (b : Bundle) : (fwRecord s sub d b).dill = s.dill := by
  unfold fwRecord; (repeat' split) <;> simp
@[simp] theorem fwRecord_host (s : State) (sub : Nat) (d : Nat) (b : Bundle) : (fwRecord s sub d b).host = s.host := by
  unfold fwRecord; (repeat' split) <;> simp
@[simp] theorem fwRecord_trust (s : State) (sub : Nat) (d : Nat) (b : Bundle) : (fwRecord s sub d b).trust = s.trust := by
  unfold fwRecord; (repeat' split) <;> simp
@[simp] theorem fwRecord_life (s : State) (sub : Nat) (d : Nat) (b : Bundle) : (fwRecord s sub d b).life = s.life := by
  unfold fwRecord; (repeat' split) <;> simp
@[simp] theorem fwRecord_health (s : State) (sub : Nat) (d : Nat) (b : Bundle) : (fwRecord s sub d b).health = s.health := by
  unfold fwRecord; (repeat' split) <;> simp
@[simp] theorem fwRecord_power (s : State) (sub : Nat) (d : Nat) (b : Bundle) : (fwRecord s sub d b).power = s.power := by
  unfold fwRecord; (repeat' split) <;> simp
@[simp] theorem fwRecord_taps (s : State) (sub : Nat) (d : Nat) (b : Bundle) : (fwRecord s sub d b).taps = s.taps := by
  unfold fwRecord; (repeat' split) <;> simp
@[simp] theorem fwRecord_out (s : State) (sub : Nat) (d : Nat) (b : Bundle) : (fwRecord s sub d b).out = s.out := by
  unfold fwRecord; (repeat' split) <;> simp
@[simp] theorem fwRecord_pending (s : State) (sub : Nat) (d : Nat) (b : Bundle) : (fwRecord s sub d b).pending = s.pending := by
  unfold fwRecord; (repeat' split) <;> simp
@[simp] theorem fwRecord_freeCtr (s : State) (sub : Nat) (d : Nat) (b : Bundle) : (fwRecord s sub d b).freeCtr = s.freeCtr := by
  unfold fwRecord; (repeat' split) <;> simp
@[simp] theorem fwRecord_nextId (s : State) (sub : Nat) (d : Nat) (b : Bundle) : (fwRecord s sub d b).nextId = s.nextId := by
  unfold fwRecord; (repeat' split) <;> simp

/-! ## noteStore -/

@[simp] theorem noteStore_msgs (s : State) : (noteStore s).msgs = s.msgs := by
  unfold noteStore; (repeat' split) <;> simp
@[simp] theorem noteStore_regs (s : State) : (noteStore s).regs = s.regs := by
  unfold noteStore; (repeat' split) <;> simp
@[simp] theorem noteStore_mem (s : State) : (noteStore s).mem = s.mem := by
  unfold noteStore; (repeat' split) <;> simp
@[simp] theorem noteStore_seqs (s : State) : (noteStore s).seqs = s.seqs := by
  unfold noteStore; (repeat' split) <;> simp
@[simp] theorem noteStore_merge (s : State) : (noteStore s).merge = s.merge := by
  unfold noteStore; (repeat' split) <;> simp
@[simp] theorem noteStore_fab (s : State) : (noteStore s).fab = s.fab := by
  unfold noteStore; (repeat' split) <;> simp
@[simp] theorem noteStore_traf (s : State) : (noteStore s).traf = s.traf := by
  unfold noteStore; (repeat' split) <;> simp
@[simp] theorem noteStore_ledg (s : State) : (noteStore s).ledg = s.ledg := by
  unfold noteStore; (repeat' split) <;> simp
@[simp] theorem noteStore_regn (s : State) : (noteStore s).regn = s.regn := by
  unfold noteStore; (repeat' split) <;> simp
@[simp] theorem noteStore_chive (s : State) : (noteStore s).chive = s.chive := by
  unfold noteStore; (repeat' split) <;> simp
@[simp] theorem noteStore_dill (s : State) : (noteStore s).dill = s.dill := by
  unfold noteStore; (repeat' split) <;> simp
@[simp] theorem noteStore_host (s : State) : (noteStore s).host = s.host := by
  unfold noteStore; (repeat' split) <;> simp
@[simp] theorem noteStore_trust (s : State) : (noteStore s).trust = s.trust := by
  unfold noteStore; (repeat' split) <;> simp
@[simp] theorem noteStore_health (s : State) : (noteStore s).health = s.health := by
  unfold noteStore; (repeat' split) <;> simp
@[simp] theorem noteStore_jrnl (s : State) : (noteStore s).jrnl = s.jrnl := by
  unfold noteStore; (repeat' split) <;> simp
@[simp] theorem noteStore_power (s : State) : (noteStore s).power = s.power := by
  unfold noteStore; (repeat' split) <;> simp
@[simp] theorem noteStore_taps (s : State) : (noteStore s).taps = s.taps := by
  unfold noteStore; (repeat' split) <;> simp
@[simp] theorem noteStore_out (s : State) : (noteStore s).out = s.out := by
  unfold noteStore; (repeat' split) <;> simp
@[simp] theorem noteStore_pending (s : State) : (noteStore s).pending = s.pending := by
  unfold noteStore; (repeat' split) <;> simp
@[simp] theorem noteStore_freeCtr (s : State) : (noteStore s).freeCtr = s.freeCtr := by
  unfold noteStore; (repeat' split) <;> simp
@[simp] theorem noteStore_nextId (s : State) : (noteStore s).nextId = s.nextId := by
  unfold noteStore; (repeat' split) <;> simp

/-! ## poke -/

@[simp] theorem poke_msgs (s : State) (a : Nat) (bs : List Byte) : (poke s a bs).msgs = s.msgs := by
  unfold poke; (repeat' split) <;> simp
@[simp] theorem poke_regs (s : State) (a : Nat) (bs : List Byte) : (poke s a bs).regs = s.regs := by
  unfold poke; (repeat' split) <;> simp
@[simp] theorem poke_seqs (s : State) (a : Nat) (bs : List Byte) : (poke s a bs).seqs = s.seqs := by
  unfold poke; (repeat' split) <;> simp
@[simp] theorem poke_merge (s : State) (a : Nat) (bs : List Byte) : (poke s a bs).merge = s.merge := by
  unfold poke; (repeat' split) <;> simp
@[simp] theorem poke_fab (s : State) (a : Nat) (bs : List Byte) : (poke s a bs).fab = s.fab := by
  unfold poke; (repeat' split) <;> simp
@[simp] theorem poke_traf (s : State) (a : Nat) (bs : List Byte) : (poke s a bs).traf = s.traf := by
  unfold poke; (repeat' split) <;> simp
@[simp] theorem poke_ledg (s : State) (a : Nat) (bs : List Byte) : (poke s a bs).ledg = s.ledg := by
  unfold poke; (repeat' split) <;> simp
@[simp] theorem poke_regn (s : State) (a : Nat) (bs : List Byte) : (poke s a bs).regn = s.regn := by
  unfold poke; (repeat' split) <;> simp
@[simp] theorem poke_chive (s : State) (a : Nat) (bs : List Byte) : (poke s a bs).chive = s.chive := by
  unfold poke; (repeat' split) <;> simp
@[simp] theorem poke_dill (s : State) (a : Nat) (bs : List Byte) : (poke s a bs).dill = s.dill := by
  unfold poke; (repeat' split) <;> simp
@[simp] theorem poke_host (s : State) (a : Nat) (bs : List Byte) : (poke s a bs).host = s.host := by
  unfold poke; (repeat' split) <;> simp
@[simp] theorem poke_trust (s : State) (a : Nat) (bs : List Byte) : (poke s a bs).trust = s.trust := by
  unfold poke; (repeat' split) <;> simp
@[simp] theorem poke_life (s : State) (a : Nat) (bs : List Byte) : (poke s a bs).life = s.life := by
  unfold poke; (repeat' split) <;> simp
@[simp] theorem poke_health (s : State) (a : Nat) (bs : List Byte) : (poke s a bs).health = s.health := by
  unfold poke; (repeat' split) <;> simp
@[simp] theorem poke_jrnl (s : State) (a : Nat) (bs : List Byte) : (poke s a bs).jrnl = s.jrnl := by
  unfold poke; (repeat' split) <;> simp
@[simp] theorem poke_power (s : State) (a : Nat) (bs : List Byte) : (poke s a bs).power = s.power := by
  unfold poke; (repeat' split) <;> simp
@[simp] theorem poke_taps (s : State) (a : Nat) (bs : List Byte) : (poke s a bs).taps = s.taps := by
  unfold poke; (repeat' split) <;> simp
@[simp] theorem poke_out (s : State) (a : Nat) (bs : List Byte) : (poke s a bs).out = s.out := by
  unfold poke; (repeat' split) <;> simp
@[simp] theorem poke_pending (s : State) (a : Nat) (bs : List Byte) : (poke s a bs).pending = s.pending := by
  unfold poke; (repeat' split) <;> simp
@[simp] theorem poke_freeCtr (s : State) (a : Nat) (bs : List Byte) : (poke s a bs).freeCtr = s.freeCtr := by
  unfold poke; (repeat' split) <;> simp
@[simp] theorem poke_nextId (s : State) (a : Nat) (bs : List Byte) : (poke s a bs).nextId = s.nextId := by
  unfold poke; (repeat' split) <;> simp

/-! ## logErr -/

@[simp] theorem logErr_msgs (s : State) (r : ErrRec) : (logErr s r).msgs = s.msgs := by
  unfold logErr
  try dsimp only
  repeat' (first | with_reducible rfl | simp; done | split)
@[simp] theorem logErr_seqs (s : State) (r : ErrRec) : (logErr s r).seqs = s.seqs := by
  unfold logErr
  try dsimp only
  repeat' (first | with_reducible rfl | simp; done | split)
@[simp] theorem logErr_merge (s : State) (r : ErrRec) : (logErr s r).merge = s.merge := by
  unfold logErr
  try dsimp only
  repeat' (first | with_reducible rfl | simp; done | split)
@[simp] theorem logErr_fab (s : State) (r : ErrRec) : (logErr s r).fab = s.fab := by
  unfold logErr
  try dsimp only
  repeat' (first | with_reducible rfl | simp; done | split)
@[simp] theorem logErr_traf (s : State) (r : ErrRec) : (logErr s r).traf = s.traf := by
  unfold logErr
  try dsimp only
  repeat' (first | with_reducible rfl | simp; done | split)
@[simp] theorem logErr_ledg (s : State) (r : ErrRec) : (logErr s r).ledg = s.ledg := by
  unfold logErr
  try dsimp only
  repeat' (first | with_reducible rfl | simp; done | split)
@[simp] theorem logErr_regn (s : State) (r : ErrRec) : (logErr s r).regn = s.regn := by
  unfold logErr
  try dsimp only
  repeat' (first | with_reducible rfl | simp; done | split)
@[simp] theorem logErr_chive (s : State) (r : ErrRec) : (logErr s r).chive = s.chive := by
  unfold logErr
  try dsimp only
  repeat' (first | with_reducible rfl | simp; done | split)
@[simp] theorem logErr_dill (s : State) (r : ErrRec) : (logErr s r).dill = s.dill := by
  unfold logErr
  try dsimp only
  repeat' (first | with_reducible rfl | simp; done | split)
@[simp] theorem logErr_host (s : State) (r : ErrRec) : (logErr s r).host = s.host := by
  unfold logErr
  try dsimp only
  repeat' (first | with_reducible rfl | simp; done | split)
@[simp] theorem logErr_trust (s : State) (r : ErrRec) : (logErr s r).trust = s.trust := by
  unfold logErr
  try dsimp only
  repeat' (first | with_reducible rfl | simp; done | split)
@[simp] theorem logErr_life (s : State) (r : ErrRec) : (logErr s r).life = s.life := by
  unfold logErr
  try dsimp only
  repeat' (first | with_reducible rfl | simp; done | split)
@[simp] theorem logErr_health (s : State) (r : ErrRec) : (logErr s r).health = s.health := by
  unfold logErr
  try dsimp only
  repeat' (first | with_reducible rfl | simp; done | split)
@[simp] theorem logErr_jrnl (s : State) (r : ErrRec) : (logErr s r).jrnl = s.jrnl := by
  unfold logErr
  try dsimp only
  repeat' (first | with_reducible rfl | simp; done | split)
@[simp] theorem logErr_power (s : State) (r : ErrRec) : (logErr s r).power = s.power := by
  unfold logErr
  try dsimp only
  repeat' (first | with_reducible rfl | simp; done | split)
@[simp] theorem logErr_taps (s : State) (r : ErrRec) : (logErr s r).taps = s.taps := by
  unfold logErr
  try dsimp only
  repeat' (first | with_reducible rfl | simp; done | split)
@[simp] theorem logErr_out (s : State) (r : ErrRec) : (logErr s r).out = s.out := by
  unfold logErr
  try dsimp only
  repeat' (first | with_reducible rfl | simp; done | split)
@[simp] theorem logErr_pending (s : State) (r : ErrRec) : (logErr s r).pending = s.pending := by
  unfold logErr
  try dsimp only
  repeat' (first | with_reducible rfl | simp; done | split)
@[simp] theorem logErr_freeCtr (s : State) (r : ErrRec) : (logErr s r).freeCtr = s.freeCtr := by
  unfold logErr
  try dsimp only
  repeat' (first | with_reducible rfl | simp; done | split)
@[simp] theorem logErr_nextId (s : State) (r : ErrRec) : (logErr s r).nextId = s.nextId := by
  unfold logErr
  try dsimp only
  repeat' (first | with_reducible rfl | simp; done | split)

/-! ## modDie -/

@[simp] theorem modDie_msgs (s : State) (d : Nat) (f : DieHealth → DieHealth) : (modDie s d f).msgs = s.msgs := by
  unfold modDie; (repeat' split) <;> simp
@[simp] theorem modDie_regs (s : State) (d : Nat) (f : DieHealth → DieHealth) : (modDie s d f).regs = s.regs := by
  unfold modDie; (repeat' split) <;> simp
@[simp] theorem modDie_mem (s : State) (d : Nat) (f : DieHealth → DieHealth) : (modDie s d f).mem = s.mem := by
  unfold modDie; (repeat' split) <;> simp
@[simp] theorem modDie_seqs (s : State) (d : Nat) (f : DieHealth → DieHealth) : (modDie s d f).seqs = s.seqs := by
  unfold modDie; (repeat' split) <;> simp
@[simp] theorem modDie_merge (s : State) (d : Nat) (f : DieHealth → DieHealth) : (modDie s d f).merge = s.merge := by
  unfold modDie; (repeat' split) <;> simp
@[simp] theorem modDie_fab (s : State) (d : Nat) (f : DieHealth → DieHealth) : (modDie s d f).fab = s.fab := by
  unfold modDie; (repeat' split) <;> simp
@[simp] theorem modDie_traf (s : State) (d : Nat) (f : DieHealth → DieHealth) : (modDie s d f).traf = s.traf := by
  unfold modDie; (repeat' split) <;> simp
@[simp] theorem modDie_ledg (s : State) (d : Nat) (f : DieHealth → DieHealth) : (modDie s d f).ledg = s.ledg := by
  unfold modDie; (repeat' split) <;> simp
@[simp] theorem modDie_regn (s : State) (d : Nat) (f : DieHealth → DieHealth) : (modDie s d f).regn = s.regn := by
  unfold modDie; (repeat' split) <;> simp
@[simp] theorem modDie_chive (s : State) (d : Nat) (f : DieHealth → DieHealth) : (modDie s d f).chive = s.chive := by
  unfold modDie; (repeat' split) <;> simp
@[simp] theorem modDie_dill (s : State) (d : Nat) (f : DieHealth → DieHealth) : (modDie s d f).dill = s.dill := by
  unfold modDie; (repeat' split) <;> simp
@[simp] theorem modDie_host (s : State) (d : Nat) (f : DieHealth → DieHealth) : (modDie s d f).host = s.host := by
  unfold modDie; (repeat' split) <;> simp
@[simp] theorem modDie_trust (s : State) (d : Nat) (f : DieHealth → DieHealth) : (modDie s d f).trust = s.trust := by
  unfold modDie; (repeat' split) <;> simp
@[simp] theorem modDie_life (s : State) (d : Nat) (f : DieHealth → DieHealth) : (modDie s d f).life = s.life := by
  unfold modDie; (repeat' split) <;> simp
@[simp] theorem modDie_jrnl (s : State) (d : Nat) (f : DieHealth → DieHealth) : (modDie s d f).jrnl = s.jrnl := by
  unfold modDie; (repeat' split) <;> simp
@[simp] theorem modDie_power (s : State) (d : Nat) (f : DieHealth → DieHealth) : (modDie s d f).power = s.power := by
  unfold modDie; (repeat' split) <;> simp
@[simp] theorem modDie_taps (s : State) (d : Nat) (f : DieHealth → DieHealth) : (modDie s d f).taps = s.taps := by
  unfold modDie; (repeat' split) <;> simp
@[simp] theorem modDie_out (s : State) (d : Nat) (f : DieHealth → DieHealth) : (modDie s d f).out = s.out := by
  unfold modDie; (repeat' split) <;> simp
@[simp] theorem modDie_pending (s : State) (d : Nat) (f : DieHealth → DieHealth) : (modDie s d f).pending = s.pending := by
  unfold modDie; (repeat' split) <;> simp
@[simp] theorem modDie_freeCtr (s : State) (d : Nat) (f : DieHealth → DieHealth) : (modDie s d f).freeCtr = s.freeCtr := by
  unfold modDie; (repeat' split) <;> simp
@[simp] theorem modDie_nextId (s : State) (d : Nat) (f : DieHealth → DieHealth) : (modDie s d f).nextId = s.nextId := by
  unfold modDie; (repeat' split) <;> simp

/-! ## badWord -/

@[simp] theorem badWord_msgs (s : State) (cls : Nat) (sy : Nat) (die : Nat) (reader : Nat) (off : Nat) : (badWord s cls sy die reader off).msgs = s.msgs := by
  unfold badWord; (repeat' split) <;> simp
@[simp] theorem badWord_seqs (s : State) (cls : Nat) (sy : Nat) (die : Nat) (reader : Nat) (off : Nat) : (badWord s cls sy die reader off).seqs = s.seqs := by
  unfold badWord; (repeat' split) <;> simp
@[simp] theorem badWord_merge (s : State) (cls : Nat) (sy : Nat) (die : Nat) (reader : Nat) (off : Nat) : (badWord s cls sy die reader off).merge = s.merge := by
  unfold badWord; (repeat' split) <;> simp
@[simp] theorem badWord_fab (s : State) (cls : Nat) (sy : Nat) (die : Nat) (reader : Nat) (off : Nat) : (badWord s cls sy die reader off).fab = s.fab := by
  unfold badWord; (repeat' split) <;> simp
@[simp] theorem badWord_traf (s : State) (cls : Nat) (sy : Nat) (die : Nat) (reader : Nat) (off : Nat) : (badWord s cls sy die reader off).traf = s.traf := by
  unfold badWord; (repeat' split) <;> simp
@[simp] theorem badWord_ledg (s : State) (cls : Nat) (sy : Nat) (die : Nat) (reader : Nat) (off : Nat) : (badWord s cls sy die reader off).ledg = s.ledg := by
  unfold badWord; (repeat' split) <;> simp
@[simp] theorem badWord_regn (s : State) (cls : Nat) (sy : Nat) (die : Nat) (reader : Nat) (off : Nat) : (badWord s cls sy die reader off).regn = s.regn := by
  unfold badWord; (repeat' split) <;> simp
@[simp] theorem badWord_chive (s : State) (cls : Nat) (sy : Nat) (die : Nat) (reader : Nat) (off : Nat) : (badWord s cls sy die reader off).chive = s.chive := by
  unfold badWord; (repeat' split) <;> simp
@[simp] theorem badWord_dill (s : State) (cls : Nat) (sy : Nat) (die : Nat) (reader : Nat) (off : Nat) : (badWord s cls sy die reader off).dill = s.dill := by
  unfold badWord; (repeat' split) <;> simp
@[simp] theorem badWord_host (s : State) (cls : Nat) (sy : Nat) (die : Nat) (reader : Nat) (off : Nat) : (badWord s cls sy die reader off).host = s.host := by
  unfold badWord; (repeat' split) <;> simp
@[simp] theorem badWord_trust (s : State) (cls : Nat) (sy : Nat) (die : Nat) (reader : Nat) (off : Nat) : (badWord s cls sy die reader off).trust = s.trust := by
  unfold badWord; (repeat' split) <;> simp
@[simp] theorem badWord_life (s : State) (cls : Nat) (sy : Nat) (die : Nat) (reader : Nat) (off : Nat) : (badWord s cls sy die reader off).life = s.life := by
  unfold badWord; (repeat' split) <;> simp
@[simp] theorem badWord_power (s : State) (cls : Nat) (sy : Nat) (die : Nat) (reader : Nat) (off : Nat) : (badWord s cls sy die reader off).power = s.power := by
  unfold badWord; (repeat' split) <;> simp
@[simp] theorem badWord_taps (s : State) (cls : Nat) (sy : Nat) (die : Nat) (reader : Nat) (off : Nat) : (badWord s cls sy die reader off).taps = s.taps := by
  unfold badWord; (repeat' split) <;> simp
@[simp] theorem badWord_pending (s : State) (cls : Nat) (sy : Nat) (die : Nat) (reader : Nat) (off : Nat) : (badWord s cls sy die reader off).pending = s.pending := by
  unfold badWord; (repeat' split) <;> simp
@[simp] theorem badWord_freeCtr (s : State) (cls : Nat) (sy : Nat) (die : Nat) (reader : Nat) (off : Nat) : (badWord s cls sy die reader off).freeCtr = s.freeCtr := by
  unfold badWord; (repeat' split) <;> simp
@[simp] theorem badWord_nextId (s : State) (cls : Nat) (sy : Nat) (die : Nat) (reader : Nat) (off : Nat) : (badWord s cls sy die reader off).nextId = s.nextId := by
  unfold badWord; (repeat' split) <;> simp

/-! ## readWord -/

@[simp] theorem readWord_msgs (s : State) (a : Nat) (reader : Nat) : (readWord s a reader).1.msgs = s.msgs := by
  unfold readWord
  try dsimp only
  repeat' (first | with_reducible rfl | simp; done | split)
@[simp] theorem readWord_seqs (s : State) (a : Nat) (reader : Nat) : (readWord s a reader).1.seqs = s.seqs := by
  unfold readWord
  try dsimp only
  repeat' (first | with_reducible rfl | simp; done | split)
@[simp] theorem readWord_merge (s : State) (a : Nat) (reader : Nat) : (readWord s a reader).1.merge = s.merge := by
  unfold readWord
  try dsimp only
  repeat' (first | with_reducible rfl | simp; done | split)
@[simp] theorem readWord_fab (s : State) (a : Nat) (reader : Nat) : (readWord s a reader).1.fab = s.fab := by
  unfold readWord
  try dsimp only
  repeat' (first | with_reducible rfl | simp; done | split)
@[simp] theorem readWord_traf (s : State) (a : Nat) (reader : Nat) : (readWord s a reader).1.traf = s.traf := by
  unfold readWord
  try dsimp only
  repeat' (first | with_reducible rfl | simp; done | split)
@[simp] theorem readWord_ledg (s : State) (a : Nat) (reader : Nat) : (readWord s a reader).1.ledg = s.ledg := by
  unfold readWord
  try dsimp only
  repeat' (first | with_reducible rfl | simp; done | split)
@[simp] theorem readWord_regn (s : State) (a : Nat) (reader : Nat) : (readWord s a reader).1.regn = s.regn := by
  unfold readWord
  try dsimp only
  repeat' (first | with_reducible rfl | simp; done | split)
@[simp] theorem readWord_chive (s : State) (a : Nat) (reader : Nat) : (readWord s a reader).1.chive = s.chive := by
  unfold readWord
  try dsimp only
  repeat' (first | with_reducible rfl | simp; done | split)
@[simp] theorem readWord_dill (s : State) (a : Nat) (reader : Nat) : (readWord s a reader).1.dill = s.dill := by
  unfold readWord
  try dsimp only
  repeat' (first | with_reducible rfl | simp; done | split)
@[simp] theorem readWord_host (s : State) (a : Nat) (reader : Nat) : (readWord s a reader).1.host = s.host := by
  unfold readWord
  try dsimp only
  repeat' (first | with_reducible rfl | simp; done | split)
@[simp] theorem readWord_trust (s : State) (a : Nat) (reader : Nat) : (readWord s a reader).1.trust = s.trust := by
  unfold readWord
  try dsimp only
  repeat' (first | with_reducible rfl | simp; done | split)
@[simp] theorem readWord_life (s : State) (a : Nat) (reader : Nat) : (readWord s a reader).1.life = s.life := by
  unfold readWord
  try dsimp only
  repeat' (first | with_reducible rfl | simp; done | split)
@[simp] theorem readWord_power (s : State) (a : Nat) (reader : Nat) : (readWord s a reader).1.power = s.power := by
  unfold readWord
  try dsimp only
  repeat' (first | with_reducible rfl | simp; done | split)
@[simp] theorem readWord_taps (s : State) (a : Nat) (reader : Nat) : (readWord s a reader).1.taps = s.taps := by
  unfold readWord
  try dsimp only
  repeat' (first | with_reducible rfl | simp; done | split)
@[simp] theorem readWord_pending (s : State) (a : Nat) (reader : Nat) : (readWord s a reader).1.pending = s.pending := by
  unfold readWord
  try dsimp only
  repeat' (first | with_reducible rfl | simp; done | split)
@[simp] theorem readWord_freeCtr (s : State) (a : Nat) (reader : Nat) : (readWord s a reader).1.freeCtr = s.freeCtr := by
  unfold readWord
  try dsimp only
  repeat' (first | with_reducible rfl | simp; done | split)
@[simp] theorem readWord_nextId (s : State) (a : Nat) (reader : Nat) : (readWord s a reader).1.nextId = s.nextId := by
  unfold readWord
  try dsimp only
  repeat' (first | with_reducible rfl | simp; done | split)

/-! ## writeKgm -/

@[simp] theorem writeKgm_msgs (s : State) (state : Nat) (entries : List (Nat × Nat × Nat × Nat × Nat)) : (writeKgm s state entries).msgs = s.msgs := by
  unfold writeKgm; (repeat' split) <;> simp
@[simp] theorem writeKgm_regs (s : State) (state : Nat) (entries : List (Nat × Nat × Nat × Nat × Nat)) : (writeKgm s state entries).regs = s.regs := by
  unfold writeKgm; (repeat' split) <;> simp
@[simp] theorem writeKgm_mem (s : State) (state : Nat) (entries : List (Nat × Nat × Nat × Nat × Nat)) : (writeKgm s state entries).mem = s.mem := by
  unfold writeKgm; (repeat' split) <;> simp
@[simp] theorem writeKgm_seqs (s : State) (state : Nat) (entries : List (Nat × Nat × Nat × Nat × Nat)) : (writeKgm s state entries).seqs = s.seqs := by
  unfold writeKgm; (repeat' split) <;> simp
@[simp] theorem writeKgm_merge (s : State) (state : Nat) (entries : List (Nat × Nat × Nat × Nat × Nat)) : (writeKgm s state entries).merge = s.merge := by
  unfold writeKgm; (repeat' split) <;> simp
@[simp] theorem writeKgm_fab (s : State) (state : Nat) (entries : List (Nat × Nat × Nat × Nat × Nat)) : (writeKgm s state entries).fab = s.fab := by
  unfold writeKgm; (repeat' split) <;> simp
@[simp] theorem writeKgm_traf (s : State) (state : Nat) (entries : List (Nat × Nat × Nat × Nat × Nat)) : (writeKgm s state entries).traf = s.traf := by
  unfold writeKgm; (repeat' split) <;> simp
@[simp] theorem writeKgm_ledg (s : State) (state : Nat) (entries : List (Nat × Nat × Nat × Nat × Nat)) : (writeKgm s state entries).ledg = s.ledg := by
  unfold writeKgm; (repeat' split) <;> simp
@[simp] theorem writeKgm_regn (s : State) (state : Nat) (entries : List (Nat × Nat × Nat × Nat × Nat)) : (writeKgm s state entries).regn = s.regn := by
  unfold writeKgm; (repeat' split) <;> simp
@[simp] theorem writeKgm_chive (s : State) (state : Nat) (entries : List (Nat × Nat × Nat × Nat × Nat)) : (writeKgm s state entries).chive = s.chive := by
  unfold writeKgm; (repeat' split) <;> simp
@[simp] theorem writeKgm_dill (s : State) (state : Nat) (entries : List (Nat × Nat × Nat × Nat × Nat)) : (writeKgm s state entries).dill = s.dill := by
  unfold writeKgm; (repeat' split) <;> simp
@[simp] theorem writeKgm_host (s : State) (state : Nat) (entries : List (Nat × Nat × Nat × Nat × Nat)) : (writeKgm s state entries).host = s.host := by
  unfold writeKgm; (repeat' split) <;> simp
@[simp] theorem writeKgm_trust (s : State) (state : Nat) (entries : List (Nat × Nat × Nat × Nat × Nat)) : (writeKgm s state entries).trust = s.trust := by
  unfold writeKgm; (repeat' split) <;> simp
@[simp] theorem writeKgm_health (s : State) (state : Nat) (entries : List (Nat × Nat × Nat × Nat × Nat)) : (writeKgm s state entries).health = s.health := by
  unfold writeKgm; (repeat' split) <;> simp
@[simp] theorem writeKgm_jrnl (s : State) (state : Nat) (entries : List (Nat × Nat × Nat × Nat × Nat)) : (writeKgm s state entries).jrnl = s.jrnl := by
  unfold writeKgm; (repeat' split) <;> simp
@[simp] theorem writeKgm_power (s : State) (state : Nat) (entries : List (Nat × Nat × Nat × Nat × Nat)) : (writeKgm s state entries).power = s.power := by
  unfold writeKgm; (repeat' split) <;> simp
@[simp] theorem writeKgm_taps (s : State) (state : Nat) (entries : List (Nat × Nat × Nat × Nat × Nat)) : (writeKgm s state entries).taps = s.taps := by
  unfold writeKgm; (repeat' split) <;> simp
@[simp] theorem writeKgm_out (s : State) (state : Nat) (entries : List (Nat × Nat × Nat × Nat × Nat)) : (writeKgm s state entries).out = s.out := by
  unfold writeKgm; (repeat' split) <;> simp
@[simp] theorem writeKgm_pending (s : State) (state : Nat) (entries : List (Nat × Nat × Nat × Nat × Nat)) : (writeKgm s state entries).pending = s.pending := by
  unfold writeKgm; (repeat' split) <;> simp
@[simp] theorem writeKgm_freeCtr (s : State) (state : Nat) (entries : List (Nat × Nat × Nat × Nat × Nat)) : (writeKgm s state entries).freeCtr = s.freeCtr := by
  unfold writeKgm; (repeat' split) <;> simp
@[simp] theorem writeKgm_nextId (s : State) (state : Nat) (entries : List (Nat × Nat × Nat × Nat × Nat)) : (writeKgm s state entries).nextId = s.nextId := by
  unfold writeKgm; (repeat' split) <;> simp

/-! ## kgmAdd -/

@[simp] theorem kgmAdd_msgs (s : State) (die : Nat) (kind : Nat) (unit : Nat) (loc : Nat) (value : Nat) : (kgmAdd s die kind unit loc value).msgs = s.msgs := by
  unfold kgmAdd; (repeat' split) <;> simp
@[simp] theorem kgmAdd_regs (s : State) (die : Nat) (kind : Nat) (unit : Nat) (loc : Nat) (value : Nat) : (kgmAdd s die kind unit loc value).regs = s.regs := by
  unfold kgmAdd; (repeat' split) <;> simp
@[simp] theorem kgmAdd_mem (s : State) (die : Nat) (kind : Nat) (unit : Nat) (loc : Nat) (value : Nat) : (kgmAdd s die kind unit loc value).mem = s.mem := by
  unfold kgmAdd; (repeat' split) <;> simp
@[simp] theorem kgmAdd_seqs (s : State) (die : Nat) (kind : Nat) (unit : Nat) (loc : Nat) (value : Nat) : (kgmAdd s die kind unit loc value).seqs = s.seqs := by
  unfold kgmAdd; (repeat' split) <;> simp
@[simp] theorem kgmAdd_merge (s : State) (die : Nat) (kind : Nat) (unit : Nat) (loc : Nat) (value : Nat) : (kgmAdd s die kind unit loc value).merge = s.merge := by
  unfold kgmAdd; (repeat' split) <;> simp
@[simp] theorem kgmAdd_fab (s : State) (die : Nat) (kind : Nat) (unit : Nat) (loc : Nat) (value : Nat) : (kgmAdd s die kind unit loc value).fab = s.fab := by
  unfold kgmAdd; (repeat' split) <;> simp
@[simp] theorem kgmAdd_traf (s : State) (die : Nat) (kind : Nat) (unit : Nat) (loc : Nat) (value : Nat) : (kgmAdd s die kind unit loc value).traf = s.traf := by
  unfold kgmAdd; (repeat' split) <;> simp
@[simp] theorem kgmAdd_ledg (s : State) (die : Nat) (kind : Nat) (unit : Nat) (loc : Nat) (value : Nat) : (kgmAdd s die kind unit loc value).ledg = s.ledg := by
  unfold kgmAdd; (repeat' split) <;> simp
@[simp] theorem kgmAdd_regn (s : State) (die : Nat) (kind : Nat) (unit : Nat) (loc : Nat) (value : Nat) : (kgmAdd s die kind unit loc value).regn = s.regn := by
  unfold kgmAdd; (repeat' split) <;> simp
@[simp] theorem kgmAdd_chive (s : State) (die : Nat) (kind : Nat) (unit : Nat) (loc : Nat) (value : Nat) : (kgmAdd s die kind unit loc value).chive = s.chive := by
  unfold kgmAdd; (repeat' split) <;> simp
@[simp] theorem kgmAdd_dill (s : State) (die : Nat) (kind : Nat) (unit : Nat) (loc : Nat) (value : Nat) : (kgmAdd s die kind unit loc value).dill = s.dill := by
  unfold kgmAdd; (repeat' split) <;> simp
@[simp] theorem kgmAdd_host (s : State) (die : Nat) (kind : Nat) (unit : Nat) (loc : Nat) (value : Nat) : (kgmAdd s die kind unit loc value).host = s.host := by
  unfold kgmAdd; (repeat' split) <;> simp
@[simp] theorem kgmAdd_trust (s : State) (die : Nat) (kind : Nat) (unit : Nat) (loc : Nat) (value : Nat) : (kgmAdd s die kind unit loc value).trust = s.trust := by
  unfold kgmAdd; (repeat' split) <;> simp
@[simp] theorem kgmAdd_health (s : State) (die : Nat) (kind : Nat) (unit : Nat) (loc : Nat) (value : Nat) : (kgmAdd s die kind unit loc value).health = s.health := by
  unfold kgmAdd; (repeat' split) <;> simp
@[simp] theorem kgmAdd_jrnl (s : State) (die : Nat) (kind : Nat) (unit : Nat) (loc : Nat) (value : Nat) : (kgmAdd s die kind unit loc value).jrnl = s.jrnl := by
  unfold kgmAdd; (repeat' split) <;> simp
@[simp] theorem kgmAdd_power (s : State) (die : Nat) (kind : Nat) (unit : Nat) (loc : Nat) (value : Nat) : (kgmAdd s die kind unit loc value).power = s.power := by
  unfold kgmAdd; (repeat' split) <;> simp
@[simp] theorem kgmAdd_taps (s : State) (die : Nat) (kind : Nat) (unit : Nat) (loc : Nat) (value : Nat) : (kgmAdd s die kind unit loc value).taps = s.taps := by
  unfold kgmAdd; (repeat' split) <;> simp
@[simp] theorem kgmAdd_out (s : State) (die : Nat) (kind : Nat) (unit : Nat) (loc : Nat) (value : Nat) : (kgmAdd s die kind unit loc value).out = s.out := by
  unfold kgmAdd; (repeat' split) <;> simp
@[simp] theorem kgmAdd_pending (s : State) (die : Nat) (kind : Nat) (unit : Nat) (loc : Nat) (value : Nat) : (kgmAdd s die kind unit loc value).pending = s.pending := by
  unfold kgmAdd; (repeat' split) <;> simp
@[simp] theorem kgmAdd_freeCtr (s : State) (die : Nat) (kind : Nat) (unit : Nat) (loc : Nat) (value : Nat) : (kgmAdd s die kind unit loc value).freeCtr = s.freeCtr := by
  unfold kgmAdd; (repeat' split) <;> simp
@[simp] theorem kgmAdd_nextId (s : State) (die : Nat) (kind : Nat) (unit : Nat) (loc : Nat) (value : Nat) : (kgmAdd s die kind unit loc value).nextId = s.nextId := by
  unfold kgmAdd; (repeat' split) <;> simp

/-! ## banksOn -/

@[simp] theorem banksOn_msgs (s : State) (die : Nat) (unit : Nat) (n : Nat) : (banksOn s die unit n).msgs = s.msgs := by
  unfold banksOn; (repeat' split) <;> (try simp) <;> (try (apply foldl_part (fun s => s.msgs); intro s x; (repeat' split) <;> simp))
@[simp] theorem banksOn_regs (s : State) (die : Nat) (unit : Nat) (n : Nat) : (banksOn s die unit n).regs = s.regs := by
  unfold banksOn; (repeat' split) <;> (try simp) <;> (try (apply foldl_part (fun s => s.regs); intro s x; (repeat' split) <;> simp))
@[simp] theorem banksOn_seqs (s : State) (die : Nat) (unit : Nat) (n : Nat) : (banksOn s die unit n).seqs = s.seqs := by
  unfold banksOn; (repeat' split) <;> (try simp) <;> (try (apply foldl_part (fun s => s.seqs); intro s x; (repeat' split) <;> simp))
@[simp] theorem banksOn_merge (s : State) (die : Nat) (unit : Nat) (n : Nat) : (banksOn s die unit n).merge = s.merge := by
  unfold banksOn; (repeat' split) <;> (try simp) <;> (try (apply foldl_part (fun s => s.merge); intro s x; (repeat' split) <;> simp))
@[simp] theorem banksOn_fab (s : State) (die : Nat) (unit : Nat) (n : Nat) : (banksOn s die unit n).fab = s.fab := by
  unfold banksOn; (repeat' split) <;> (try simp) <;> (try (apply foldl_part (fun s => s.fab); intro s x; (repeat' split) <;> simp))
@[simp] theorem banksOn_traf (s : State) (die : Nat) (unit : Nat) (n : Nat) : (banksOn s die unit n).traf = s.traf := by
  unfold banksOn; (repeat' split) <;> (try simp) <;> (try (apply foldl_part (fun s => s.traf); intro s x; (repeat' split) <;> simp))
@[simp] theorem banksOn_ledg (s : State) (die : Nat) (unit : Nat) (n : Nat) : (banksOn s die unit n).ledg = s.ledg := by
  unfold banksOn; (repeat' split) <;> (try simp) <;> (try (apply foldl_part (fun s => s.ledg); intro s x; (repeat' split) <;> simp))
@[simp] theorem banksOn_regn (s : State) (die : Nat) (unit : Nat) (n : Nat) : (banksOn s die unit n).regn = s.regn := by
  unfold banksOn; (repeat' split) <;> (try simp) <;> (try (apply foldl_part (fun s => s.regn); intro s x; (repeat' split) <;> simp))
@[simp] theorem banksOn_chive (s : State) (die : Nat) (unit : Nat) (n : Nat) : (banksOn s die unit n).chive = s.chive := by
  unfold banksOn; (repeat' split) <;> (try simp) <;> (try (apply foldl_part (fun s => s.chive); intro s x; (repeat' split) <;> simp))
@[simp] theorem banksOn_dill (s : State) (die : Nat) (unit : Nat) (n : Nat) : (banksOn s die unit n).dill = s.dill := by
  unfold banksOn; (repeat' split) <;> (try simp) <;> (try (apply foldl_part (fun s => s.dill); intro s x; (repeat' split) <;> simp))
@[simp] theorem banksOn_host (s : State) (die : Nat) (unit : Nat) (n : Nat) : (banksOn s die unit n).host = s.host := by
  unfold banksOn; (repeat' split) <;> (try simp) <;> (try (apply foldl_part (fun s => s.host); intro s x; (repeat' split) <;> simp))
@[simp] theorem banksOn_trust (s : State) (die : Nat) (unit : Nat) (n : Nat) : (banksOn s die unit n).trust = s.trust := by
  unfold banksOn; (repeat' split) <;> (try simp) <;> (try (apply foldl_part (fun s => s.trust); intro s x; (repeat' split) <;> simp))
@[simp] theorem banksOn_life (s : State) (die : Nat) (unit : Nat) (n : Nat) : (banksOn s die unit n).life = s.life := by
  unfold banksOn; (repeat' split) <;> (try simp) <;> (try (apply foldl_part (fun s => s.life); intro s x; (repeat' split) <;> simp))
@[simp] theorem banksOn_health (s : State) (die : Nat) (unit : Nat) (n : Nat) : (banksOn s die unit n).health = s.health := by
  unfold banksOn; (repeat' split) <;> (try simp) <;> (try (apply foldl_part (fun s => s.health); intro s x; (repeat' split) <;> simp))
@[simp] theorem banksOn_jrnl (s : State) (die : Nat) (unit : Nat) (n : Nat) : (banksOn s die unit n).jrnl = s.jrnl := by
  unfold banksOn; (repeat' split) <;> (try simp) <;> (try (apply foldl_part (fun s => s.jrnl); intro s x; (repeat' split) <;> simp))
@[simp] theorem banksOn_power (s : State) (die : Nat) (unit : Nat) (n : Nat) : (banksOn s die unit n).power = s.power := by
  unfold banksOn; (repeat' split) <;> (try simp) <;> (try (apply foldl_part (fun s => s.power); intro s x; (repeat' split) <;> simp))
@[simp] theorem banksOn_taps (s : State) (die : Nat) (unit : Nat) (n : Nat) : (banksOn s die unit n).taps = s.taps := by
  unfold banksOn; (repeat' split) <;> (try simp) <;> (try (apply foldl_part (fun s => s.taps); intro s x; (repeat' split) <;> simp))
@[simp] theorem banksOn_out (s : State) (die : Nat) (unit : Nat) (n : Nat) : (banksOn s die unit n).out = s.out := by
  unfold banksOn; (repeat' split) <;> (try simp) <;> (try (apply foldl_part (fun s => s.out); intro s x; (repeat' split) <;> simp))
@[simp] theorem banksOn_pending (s : State) (die : Nat) (unit : Nat) (n : Nat) : (banksOn s die unit n).pending = s.pending := by
  unfold banksOn; (repeat' split) <;> (try simp) <;> (try (apply foldl_part (fun s => s.pending); intro s x; (repeat' split) <;> simp))
@[simp] theorem banksOn_freeCtr (s : State) (die : Nat) (unit : Nat) (n : Nat) : (banksOn s die unit n).freeCtr = s.freeCtr := by
  unfold banksOn; (repeat' split) <;> (try simp) <;> (try (apply foldl_part (fun s => s.freeCtr); intro s x; (repeat' split) <;> simp))
@[simp] theorem banksOn_nextId (s : State) (die : Nat) (unit : Nat) (n : Nat) : (banksOn s die unit n).nextId = s.nextId := by
  unfold banksOn; (repeat' split) <;> (try simp) <;> (try (apply foldl_part (fun s => s.nextId); intro s x; (repeat' split) <;> simp))

/-! ## renameSram -/

@[simp] theorem renameSram_msgs (s : State) (src : Nat) (dst : Nat) (n : Nat) : (renameSram s src dst n).msgs = s.msgs := by
  unfold renameSram; (repeat' split) <;> simp
@[simp] theorem renameSram_regs (s : State) (src : Nat) (dst : Nat) (n : Nat) : (renameSram s src dst n).regs = s.regs := by
  unfold renameSram; (repeat' split) <;> simp
@[simp] theorem renameSram_merge (s : State) (src : Nat) (dst : Nat) (n : Nat) : (renameSram s src dst n).merge = s.merge := by
  unfold renameSram; (repeat' split) <;> simp
@[simp] theorem renameSram_fab (s : State) (src : Nat) (dst : Nat) (n : Nat) : (renameSram s src dst n).fab = s.fab := by
  unfold renameSram; (repeat' split) <;> simp
@[simp] theorem renameSram_traf (s : State) (src : Nat) (dst : Nat) (n : Nat) : (renameSram s src dst n).traf = s.traf := by
  unfold renameSram; (repeat' split) <;> simp
@[simp] theorem renameSram_ledg (s : State) (src : Nat) (dst : Nat) (n : Nat) : (renameSram s src dst n).ledg = s.ledg := by
  unfold renameSram; (repeat' split) <;> simp
@[simp] theorem renameSram_chive (s : State) (src : Nat) (dst : Nat) (n : Nat) : (renameSram s src dst n).chive = s.chive := by
  unfold renameSram; (repeat' split) <;> simp
@[simp] theorem renameSram_host (s : State) (src : Nat) (dst : Nat) (n : Nat) : (renameSram s src dst n).host = s.host := by
  unfold renameSram; (repeat' split) <;> simp
@[simp] theorem renameSram_trust (s : State) (src : Nat) (dst : Nat) (n : Nat) : (renameSram s src dst n).trust = s.trust := by
  unfold renameSram; (repeat' split) <;> simp
@[simp] theorem renameSram_life (s : State) (src : Nat) (dst : Nat) (n : Nat) : (renameSram s src dst n).life = s.life := by
  unfold renameSram; (repeat' split) <;> simp
@[simp] theorem renameSram_health (s : State) (src : Nat) (dst : Nat) (n : Nat) : (renameSram s src dst n).health = s.health := by
  unfold renameSram; (repeat' split) <;> simp
@[simp] theorem renameSram_jrnl (s : State) (src : Nat) (dst : Nat) (n : Nat) : (renameSram s src dst n).jrnl = s.jrnl := by
  unfold renameSram; (repeat' split) <;> simp
@[simp] theorem renameSram_power (s : State) (src : Nat) (dst : Nat) (n : Nat) : (renameSram s src dst n).power = s.power := by
  unfold renameSram; (repeat' split) <;> simp
@[simp] theorem renameSram_taps (s : State) (src : Nat) (dst : Nat) (n : Nat) : (renameSram s src dst n).taps = s.taps := by
  unfold renameSram; (repeat' split) <;> simp
@[simp] theorem renameSram_out (s : State) (src : Nat) (dst : Nat) (n : Nat) : (renameSram s src dst n).out = s.out := by
  unfold renameSram; (repeat' split) <;> simp
@[simp] theorem renameSram_pending (s : State) (src : Nat) (dst : Nat) (n : Nat) : (renameSram s src dst n).pending = s.pending := by
  unfold renameSram; (repeat' split) <;> simp
@[simp] theorem renameSram_freeCtr (s : State) (src : Nat) (dst : Nat) (n : Nat) : (renameSram s src dst n).freeCtr = s.freeCtr := by
  unfold renameSram; (repeat' split) <;> simp
@[simp] theorem renameSram_nextId (s : State) (src : Nat) (dst : Nat) (n : Nat) : (renameSram s src dst n).nextId = s.nextId := by
  unfold renameSram; (repeat' split) <;> simp

/-! ## repairRow -/

@[simp] theorem repairRow_msgs (s : State) (die : Nat) (off : Nat) : (repairRow s die off).msgs = s.msgs := by
  unfold repairRow; (repeat' split) <;> simp
@[simp] theorem repairRow_seqs (s : State) (die : Nat) (off : Nat) : (repairRow s die off).seqs = s.seqs := by
  unfold repairRow; (repeat' split) <;> simp
@[simp] theorem repairRow_merge (s : State) (die : Nat) (off : Nat) : (repairRow s die off).merge = s.merge := by
  unfold repairRow; (repeat' split) <;> simp
@[simp] theorem repairRow_fab (s : State) (die : Nat) (off : Nat) : (repairRow s die off).fab = s.fab := by
  unfold repairRow; (repeat' split) <;> simp
@[simp] theorem repairRow_traf (s : State) (die : Nat) (off : Nat) : (repairRow s die off).traf = s.traf := by
  unfold repairRow; (repeat' split) <;> simp
@[simp] theorem repairRow_ledg (s : State) (die : Nat) (off : Nat) : (repairRow s die off).ledg = s.ledg := by
  unfold repairRow; (repeat' split) <;> simp
@[simp] theorem repairRow_regn (s : State) (die : Nat) (off : Nat) : (repairRow s die off).regn = s.regn := by
  unfold repairRow; (repeat' split) <;> simp
@[simp] theorem repairRow_chive (s : State) (die : Nat) (off : Nat) : (repairRow s die off).chive = s.chive := by
  unfold repairRow; (repeat' split) <;> simp
@[simp] theorem repairRow_dill (s : State) (die : Nat) (off : Nat) : (repairRow s die off).dill = s.dill := by
  unfold repairRow; (repeat' split) <;> simp
@[simp] theorem repairRow_host (s : State) (die : Nat) (off : Nat) : (repairRow s die off).host = s.host := by
  unfold repairRow; (repeat' split) <;> simp
@[simp] theorem repairRow_trust (s : State) (die : Nat) (off : Nat) : (repairRow s die off).trust = s.trust := by
  unfold repairRow; (repeat' split) <;> simp
@[simp] theorem repairRow_power (s : State) (die : Nat) (off : Nat) : (repairRow s die off).power = s.power := by
  unfold repairRow; (repeat' split) <;> simp
@[simp] theorem repairRow_taps (s : State) (die : Nat) (off : Nat) : (repairRow s die off).taps = s.taps := by
  unfold repairRow; (repeat' split) <;> simp
@[simp] theorem repairRow_out (s : State) (die : Nat) (off : Nat) : (repairRow s die off).out = s.out := by
  unfold repairRow; (repeat' split) <;> simp
@[simp] theorem repairRow_pending (s : State) (die : Nat) (off : Nat) : (repairRow s die off).pending = s.pending := by
  unfold repairRow; (repeat' split) <;> simp
@[simp] theorem repairRow_nextId (s : State) (die : Nat) (off : Nat) : (repairRow s die off).nextId = s.nextId := by
  unfold repairRow; (repeat' split) <;> simp

/-! ## removeProg -/

@[simp] theorem removeProg_msgs (s : State) (n : Nat) : (removeProg s n).msgs = s.msgs := by
  unfold removeProg; (repeat' split) <;> simp
@[simp] theorem removeProg_merge (s : State) (n : Nat) : (removeProg s n).merge = s.merge := by
  unfold removeProg; (repeat' split) <;> simp
@[simp] theorem removeProg_fab (s : State) (n : Nat) : (removeProg s n).fab = s.fab := by
  unfold removeProg; (repeat' split) <;> simp
@[simp] theorem removeProg_traf (s : State) (n : Nat) : (removeProg s n).traf = s.traf := by
  unfold removeProg; (repeat' split) <;> simp
@[simp] theorem removeProg_ledg (s : State) (n : Nat) : (removeProg s n).ledg = s.ledg := by
  unfold removeProg; (repeat' split) <;> simp
@[simp] theorem removeProg_chive (s : State) (n : Nat) : (removeProg s n).chive = s.chive := by
  unfold removeProg; (repeat' split) <;> simp
@[simp] theorem removeProg_host (s : State) (n : Nat) : (removeProg s n).host = s.host := by
  unfold removeProg; (repeat' split) <;> simp
@[simp] theorem removeProg_trust (s : State) (n : Nat) : (removeProg s n).trust = s.trust := by
  unfold removeProg; (repeat' split) <;> simp
@[simp] theorem removeProg_power (s : State) (n : Nat) : (removeProg s n).power = s.power := by
  unfold removeProg; (repeat' split) <;> simp
@[simp] theorem removeProg_taps (s : State) (n : Nat) : (removeProg s n).taps = s.taps := by
  unfold removeProg; (repeat' split) <;> simp
@[simp] theorem removeProg_pending (s : State) (n : Nat) : (removeProg s n).pending = s.pending := by
  unfold removeProg; (repeat' split) <;> simp
@[simp] theorem removeProg_nextId (s : State) (n : Nat) : (removeProg s n).nextId = s.nextId := by
  unfold removeProg; (repeat' split) <;> simp

/-! ## installProg -/

@[simp] theorem installProg_msgs (s : State) (n : Nat) (start : Nat) (bound : Nat) (operator : Bool) (ws : List Nat) : (installProg s n start bound operator ws).msgs = s.msgs := by
  unfold installProg; (repeat' split) <;> simp
@[simp] theorem installProg_merge (s : State) (n : Nat) (start : Nat) (bound : Nat) (operator : Bool) (ws : List Nat) : (installProg s n start bound operator ws).merge = s.merge := by
  unfold installProg; (repeat' split) <;> simp
@[simp] theorem installProg_fab (s : State) (n : Nat) (start : Nat) (bound : Nat) (operator : Bool) (ws : List Nat) : (installProg s n start bound operator ws).fab = s.fab := by
  unfold installProg; (repeat' split) <;> simp
@[simp] theorem installProg_traf (s : State) (n : Nat) (start : Nat) (bound : Nat) (operator : Bool) (ws : List Nat) : (installProg s n start bound operator ws).traf = s.traf := by
  unfold installProg; (repeat' split) <;> simp
@[simp] theorem installProg_ledg (s : State) (n : Nat) (start : Nat) (bound : Nat) (operator : Bool) (ws : List Nat) : (installProg s n start bound operator ws).ledg = s.ledg := by
  unfold installProg; (repeat' split) <;> simp
@[simp] theorem installProg_chive (s : State) (n : Nat) (start : Nat) (bound : Nat) (operator : Bool) (ws : List Nat) : (installProg s n start bound operator ws).chive = s.chive := by
  unfold installProg; (repeat' split) <;> simp
@[simp] theorem installProg_host (s : State) (n : Nat) (start : Nat) (bound : Nat) (operator : Bool) (ws : List Nat) : (installProg s n start bound operator ws).host = s.host := by
  unfold installProg; (repeat' split) <;> simp
@[simp] theorem installProg_trust (s : State) (n : Nat) (start : Nat) (bound : Nat) (operator : Bool) (ws : List Nat) : (installProg s n start bound operator ws).trust = s.trust := by
  unfold installProg; (repeat' split) <;> simp
@[simp] theorem installProg_power (s : State) (n : Nat) (start : Nat) (bound : Nat) (operator : Bool) (ws : List Nat) : (installProg s n start bound operator ws).power = s.power := by
  unfold installProg; (repeat' split) <;> simp
@[simp] theorem installProg_taps (s : State) (n : Nat) (start : Nat) (bound : Nat) (operator : Bool) (ws : List Nat) : (installProg s n start bound operator ws).taps = s.taps := by
  unfold installProg; (repeat' split) <;> simp
@[simp] theorem installProg_pending (s : State) (n : Nat) (start : Nat) (bound : Nat) (operator : Bool) (ws : List Nat) : (installProg s n start bound operator ws).pending = s.pending := by
  unfold installProg; (repeat' split) <;> simp
@[simp] theorem installProg_nextId (s : State) (n : Nat) (start : Nat) (bound : Nat) (operator : Bool) (ws : List Nat) : (installProg s n start bound operator ws).nextId = s.nextId := by
  unfold installProg; (repeat' split) <;> simp

/-! ## endSession -/

@[simp] theorem endSession_msgs (s : State) (sid : Nat) : (endSession s sid).msgs = s.msgs := by
  unfold endSession; (repeat' split) <;> simp
@[simp] theorem endSession_regs (s : State) (sid : Nat) : (endSession s sid).regs = s.regs := by
  unfold endSession; (repeat' split) <;> simp
@[simp] theorem endSession_mem (s : State) (sid : Nat) : (endSession s sid).mem = s.mem := by
  unfold endSession; (repeat' split) <;> simp
@[simp] theorem endSession_seqs (s : State) (sid : Nat) : (endSession s sid).seqs = s.seqs := by
  unfold endSession; (repeat' split) <;> simp
@[simp] theorem endSession_merge (s : State) (sid : Nat) : (endSession s sid).merge = s.merge := by
  unfold endSession; (repeat' split) <;> simp
@[simp] theorem endSession_fab (s : State) (sid : Nat) : (endSession s sid).fab = s.fab := by
  unfold endSession; (repeat' split) <;> simp
@[simp] theorem endSession_traf (s : State) (sid : Nat) : (endSession s sid).traf = s.traf := by
  unfold endSession; (repeat' split) <;> simp
@[simp] theorem endSession_ledg (s : State) (sid : Nat) : (endSession s sid).ledg = s.ledg := by
  unfold endSession; (repeat' split) <;> simp
@[simp] theorem endSession_regn (s : State) (sid : Nat) : (endSession s sid).regn = s.regn := by
  unfold endSession; (repeat' split) <;> simp
@[simp] theorem endSession_chive (s : State) (sid : Nat) : (endSession s sid).chive = s.chive := by
  unfold endSession; (repeat' split) <;> simp
@[simp] theorem endSession_dill (s : State) (sid : Nat) : (endSession s sid).dill = s.dill := by
  unfold endSession; (repeat' split) <;> simp
@[simp] theorem endSession_host (s : State) (sid : Nat) : (endSession s sid).host = s.host := by
  unfold endSession; (repeat' split) <;> simp
@[simp] theorem endSession_life (s : State) (sid : Nat) : (endSession s sid).life = s.life := by
  unfold endSession; (repeat' split) <;> simp
@[simp] theorem endSession_health (s : State) (sid : Nat) : (endSession s sid).health = s.health := by
  unfold endSession; (repeat' split) <;> simp
@[simp] theorem endSession_jrnl (s : State) (sid : Nat) : (endSession s sid).jrnl = s.jrnl := by
  unfold endSession; (repeat' split) <;> simp
@[simp] theorem endSession_power (s : State) (sid : Nat) : (endSession s sid).power = s.power := by
  unfold endSession; (repeat' split) <;> simp
@[simp] theorem endSession_taps (s : State) (sid : Nat) : (endSession s sid).taps = s.taps := by
  unfold endSession; (repeat' split) <;> simp
@[simp] theorem endSession_out (s : State) (sid : Nat) : (endSession s sid).out = s.out := by
  unfold endSession; (repeat' split) <;> simp
@[simp] theorem endSession_pending (s : State) (sid : Nat) : (endSession s sid).pending = s.pending := by
  unfold endSession; (repeat' split) <;> simp
@[simp] theorem endSession_freeCtr (s : State) (sid : Nat) : (endSession s sid).freeCtr = s.freeCtr := by
  unfold endSession; (repeat' split) <;> simp
@[simp] theorem endSession_nextId (s : State) (sid : Nat) : (endSession s sid).nextId = s.nextId := by
  unfold endSession; (repeat' split) <;> simp

/-! ## takeSealed -/

@[simp] theorem takeSealed_msgs (s : State) (x : Session) (seq : Nat) : (takeSealed s x seq).msgs = s.msgs := by
  unfold takeSealed; (repeat' split) <;> simp
@[simp] theorem takeSealed_regs (s : State) (x : Session) (seq : Nat) : (takeSealed s x seq).regs = s.regs := by
  unfold takeSealed; (repeat' split) <;> simp
@[simp] theorem takeSealed_mem (s : State) (x : Session) (seq : Nat) : (takeSealed s x seq).mem = s.mem := by
  unfold takeSealed; (repeat' split) <;> simp
@[simp] theorem takeSealed_seqs (s : State) (x : Session) (seq : Nat) : (takeSealed s x seq).seqs = s.seqs := by
  unfold takeSealed; (repeat' split) <;> simp
@[simp] theorem takeSealed_merge (s : State) (x : Session) (seq : Nat) : (takeSealed s x seq).merge = s.merge := by
  unfold takeSealed; (repeat' split) <;> simp
@[simp] theorem takeSealed_fab (s : State) (x : Session) (seq : Nat) : (takeSealed s x seq).fab = s.fab := by
  unfold takeSealed; (repeat' split) <;> simp
@[simp] theorem takeSealed_traf (s : State) (x : Session) (seq : Nat) : (takeSealed s x seq).traf = s.traf := by
  unfold takeSealed; (repeat' split) <;> simp
@[simp] theorem takeSealed_ledg (s : State) (x : Session) (seq : Nat) : (takeSealed s x seq).ledg = s.ledg := by
  unfold takeSealed; (repeat' split) <;> simp
@[simp] theorem takeSealed_regn (s : State) (x : Session) (seq : Nat) : (takeSealed s x seq).regn = s.regn := by
  unfold takeSealed; (repeat' split) <;> simp
@[simp] theorem takeSealed_chive (s : State) (x : Session) (seq : Nat) : (takeSealed s x seq).chive = s.chive := by
  unfold takeSealed; (repeat' split) <;> simp
@[simp] theorem takeSealed_dill (s : State) (x : Session) (seq : Nat) : (takeSealed s x seq).dill = s.dill := by
  unfold takeSealed; (repeat' split) <;> simp
@[simp] theorem takeSealed_host (s : State) (x : Session) (seq : Nat) : (takeSealed s x seq).host = s.host := by
  unfold takeSealed; (repeat' split) <;> simp
@[simp] theorem takeSealed_life (s : State) (x : Session) (seq : Nat) : (takeSealed s x seq).life = s.life := by
  unfold takeSealed; (repeat' split) <;> simp
@[simp] theorem takeSealed_health (s : State) (x : Session) (seq : Nat) : (takeSealed s x seq).health = s.health := by
  unfold takeSealed; (repeat' split) <;> simp
@[simp] theorem takeSealed_jrnl (s : State) (x : Session) (seq : Nat) : (takeSealed s x seq).jrnl = s.jrnl := by
  unfold takeSealed; (repeat' split) <;> simp
@[simp] theorem takeSealed_power (s : State) (x : Session) (seq : Nat) : (takeSealed s x seq).power = s.power := by
  unfold takeSealed; (repeat' split) <;> simp
@[simp] theorem takeSealed_taps (s : State) (x : Session) (seq : Nat) : (takeSealed s x seq).taps = s.taps := by
  unfold takeSealed; (repeat' split) <;> simp
@[simp] theorem takeSealed_out (s : State) (x : Session) (seq : Nat) : (takeSealed s x seq).out = s.out := by
  unfold takeSealed; (repeat' split) <;> simp
@[simp] theorem takeSealed_pending (s : State) (x : Session) (seq : Nat) : (takeSealed s x seq).pending = s.pending := by
  unfold takeSealed; (repeat' split) <;> simp
@[simp] theorem takeSealed_freeCtr (s : State) (x : Session) (seq : Nat) : (takeSealed s x seq).freeCtr = s.freeCtr := by
  unfold takeSealed; (repeat' split) <;> simp
@[simp] theorem takeSealed_nextId (s : State) (x : Session) (seq : Nat) : (takeSealed s x seq).nextId = s.nextId := by
  unfold takeSealed; (repeat' split) <;> simp

/-! ## bumpPrimary -/

@[simp] theorem bumpPrimary_msgs (s : State) (r : Reg) : (bumpPrimary s r).msgs = s.msgs := by
  unfold bumpPrimary; (repeat' split) <;> simp
@[simp] theorem bumpPrimary_mem (s : State) (r : Reg) : (bumpPrimary s r).mem = s.mem := by
  unfold bumpPrimary; (repeat' split) <;> simp
@[simp] theorem bumpPrimary_seqs (s : State) (r : Reg) : (bumpPrimary s r).seqs = s.seqs := by
  unfold bumpPrimary; (repeat' split) <;> simp
@[simp] theorem bumpPrimary_merge (s : State) (r : Reg) : (bumpPrimary s r).merge = s.merge := by
  unfold bumpPrimary; (repeat' split) <;> simp
@[simp] theorem bumpPrimary_fab (s : State) (r : Reg) : (bumpPrimary s r).fab = s.fab := by
  unfold bumpPrimary; (repeat' split) <;> simp
@[simp] theorem bumpPrimary_traf (s : State) (r : Reg) : (bumpPrimary s r).traf = s.traf := by
  unfold bumpPrimary; (repeat' split) <;> simp
@[simp] theorem bumpPrimary_ledg (s : State) (r : Reg) : (bumpPrimary s r).ledg = s.ledg := by
  unfold bumpPrimary; (repeat' split) <;> simp
@[simp] theorem bumpPrimary_regn (s : State) (r : Reg) : (bumpPrimary s r).regn = s.regn := by
  unfold bumpPrimary; (repeat' split) <;> simp
@[simp] theorem bumpPrimary_chive (s : State) (r : Reg) : (bumpPrimary s r).chive = s.chive := by
  unfold bumpPrimary; (repeat' split) <;> simp
@[simp] theorem bumpPrimary_dill (s : State) (r : Reg) : (bumpPrimary s r).dill = s.dill := by
  unfold bumpPrimary; (repeat' split) <;> simp
@[simp] theorem bumpPrimary_host (s : State) (r : Reg) : (bumpPrimary s r).host = s.host := by
  unfold bumpPrimary; (repeat' split) <;> simp
@[simp] theorem bumpPrimary_trust (s : State) (r : Reg) : (bumpPrimary s r).trust = s.trust := by
  unfold bumpPrimary; (repeat' split) <;> simp
@[simp] theorem bumpPrimary_life (s : State) (r : Reg) : (bumpPrimary s r).life = s.life := by
  unfold bumpPrimary; (repeat' split) <;> simp
@[simp] theorem bumpPrimary_health (s : State) (r : Reg) : (bumpPrimary s r).health = s.health := by
  unfold bumpPrimary; (repeat' split) <;> simp
@[simp] theorem bumpPrimary_jrnl (s : State) (r : Reg) : (bumpPrimary s r).jrnl = s.jrnl := by
  unfold bumpPrimary; (repeat' split) <;> simp
@[simp] theorem bumpPrimary_power (s : State) (r : Reg) : (bumpPrimary s r).power = s.power := by
  unfold bumpPrimary; (repeat' split) <;> simp
@[simp] theorem bumpPrimary_taps (s : State) (r : Reg) : (bumpPrimary s r).taps = s.taps := by
  unfold bumpPrimary; (repeat' split) <;> simp
@[simp] theorem bumpPrimary_out (s : State) (r : Reg) : (bumpPrimary s r).out = s.out := by
  unfold bumpPrimary; (repeat' split) <;> simp
@[simp] theorem bumpPrimary_pending (s : State) (r : Reg) : (bumpPrimary s r).pending = s.pending := by
  unfold bumpPrimary; (repeat' split) <;> simp
@[simp] theorem bumpPrimary_freeCtr (s : State) (r : Reg) : (bumpPrimary s r).freeCtr = s.freeCtr := by
  unfold bumpPrimary; (repeat' split) <;> simp
@[simp] theorem bumpPrimary_nextId (s : State) (r : Reg) : (bumpPrimary s r).nextId = s.nextId := by
  unfold bumpPrimary; (repeat' split) <;> simp

end Sys2Proof.Laws
end

