-- ==== Sys2Proof/WellFormed.lean ====
section
/-!
DEFINITION. Which terms are commands the node can meet: operands within the widths and ranges their sources give them.
-/
namespace Sys2Proof

/-- A frame within the MAC's limits, with a packet number of 64 bits. 10_fabric.md R220, R223. -/
def Arrival.wf (f : Arrival) : Bool :=
  decide (64 ≤ f.length) && decide (f.length ≤ 9216) && decide (f.an < 4) && decide (f.pn < 2 ^ 64) &&
    decide (f.bytes.length ≤ f.length)

/-- The widths of a group's name. 05_merge.md R112, R113. -/
def GroupKey.wf (k : GroupKey) : Bool :=
  decide (k.tenant < 2 ^ 16) && decide (k.pd < 2 ^ 16) && decide (k.requester < 2 ^ 24) && decide (k.tag < 2 ^ 32)

/-- The ranges of a tail's name. 03_sequences.md R50. -/
def TailKey.wf (k : TailKey) : Bool :=
  decide (k.desc < 1048576) && decide (k.layer < 1024) && decide (k.kv < 256) && decide (k.page < 2 ^ 24)

/-- A page-space address: bits 31 to 29 reserved and zero. 06_append.md R134. -/
def lpnOk (lpn : Nat) : Bool := decide (lpn < 2 ^ 29)

/-- A bank of a slice (256 banks) or of a hub (512 banks). 01_node.md R12. -/
def bankOk (d : Die) (bank : Nat) : Bool := if d.val < 32 then decide (bank < 256) else decide (bank < 512)

/-- A row of a class that the index holds. 09_chive.md R200, R201. -/
def ChiveRow.wf (r : ChiveRow) : Bool :=
  decide (r.key < 2 ^ 64) && decide (1 ≤ r.cls) && decide (r.cls ≤ 5) && decide (r.prio < 256) &&
    decide (r.value < 2 ^ 64)

/-- The widths of a command slot. 07_dill.md R144. -/
def SlotFill.wf (c : SlotFill) : Bool :=
  decide (c.program < 64) && decide (c.cls ≤ 2) && decide (c.tenant < 2 ^ 16) && decide (c.laneMask < 2 ^ 16) &&
    decide (c.tag < 2 ^ 64) && decide (c.windows.length ≤ 4) && decide (c.params.length ≤ 32) &&
    c.windows.all fun w => decide (w.base % 16 = 0) && decide (w.len % 16 = 0) && decide (w.base < 2 ^ 48) &&
      decide (w.kind ≤ 3)

/-- Format M without reserved codes. 07_dill.md R152. -/
def FmtM.wf (f : FmtM) : Bool :=
  decide (f.buf ≤ 4) && decide (1 ≤ f.len16) && decide (f.len16 ≤ 4096) && decide (f.boff16 < 2 ^ 13)

/-- Format L without reserved codes. 07_dill.md R152. -/
def FmtL.wf (f : FmtL) : Bool :=
  decide (1 ≤ f.count) && decide (f.count ≤ 128) && decide (f.src16 < 2 ^ 13) && decide (f.aux16 < 2 ^ 13) &&
    decide (f.row < 2 ^ 9)

/-- Format S. 07_dill.md R152. -/
def FmtS.wf (f : FmtS) : Bool := decide (f.func < 16)

/-- Format C. 07_dill.md R152. -/
def FmtC.wf (f : FmtC) : Bool := decide (f.maxIter < 2 ^ 16) && decide (f.target < 2 ^ 16)

/-- Format P without reserved codes. 07_dill.md R152, R163. -/
def FmtP.wf (f : FmtP) : Bool := decide (f.func ≤ 3) && decide (1 ≤ f.maxKib) && decide (f.maxKib ≤ 64)

/-- A pool operation's operands. 07_dill.md R163. -/
def PoolForm.wf : PoolForm → Bool
  | .instr f => f.wf
  | .command _ => true

/-- Whether a command's operands lie within the spec's widths and ranges. -/
def Instr.wf : Instr → Bool
  | .plembelFrameReceive _ f => f.wf
  | .attend _ => true
  | .sliceRecordArrival _ _ => true
  | .quadrantRecordArrival _ _ => true
  | .quadrantMergeClose _ _ => true
  | .ingressMergeDeadline _ => true
  | .partialContribution _ => true
  | .partialResponse _ => true
  | .groupDeadline _ key => key.wf
  | .tombstoneExpiry _ key => key.wf
  | .appendTokens _ => true
  | .createSeq _ => true
  | .forkSeq _ => true
  | .forkCommitTimeout _ => true
  | .truncateSeq _ => true
  | .setPattern _ => true
  | .dropSeq _ => true
  | .bindDelta _ => true
  | .sequenceDrainComplete desc => decide (desc < 1048576)
  | .bulkAppend _ => true
  | .sealReq _ => true
  | .sealDeadline _ => true
  | .tailSeal _ => true
  | .sealRetry _ => true
  | .refCountChange _ => true
  | .tailWriteBack tail => tail.wf
  | .tailEvict tail => tail.wf
  | .pagePromote lpn => lpnOk lpn
  | .pageDemote lpn => lpnOk lpn
  | .readRegion _ => true
  | .writeRegion _ => true
  | .registerRegion _ => true
  | .revokeRegion _ => true
  | .reregisterRegion _ => true
  | .revokeDrainComplete index => decide (index < 1048576)
  | .readResp _ => true
  | .ledgerRead _ => true
  | .ledgerPublish _ => true
  | .recall _ => true
  | .recallAck _ => true
  | .recallWaitExpiry _ line sharer => decide (line < 2 ^ 64) && decide (sharer < 2 ^ 24)
  | .leaseExpiry line => decide (line < 2 ^ 64)
  | .transferLeaseExpiry _ line => decide (line < 2 ^ 64)
  | .extentDrainExpiry _ extent => decide (extent < 64)
  | .extentScrubComplete _ extent => decide (extent < 64)
  | .mapAdopt => true
  | .epochWaitExpiry _ => true
  | .linePull _ line => decide (line < 2 ^ 64)
  | .pullTimeout _ line => decide (line < 2 ^ 64)
  | .unitReturn _ => true
  | .ack _ => true
  | .nack _ => true
  | .hello _ => true
  | .connectionFill _ => true
  | .heartbeat _ => true
  | .rtoExpiry _ => true
  | .helloTimeout _ => true
  | .creditStallHeartbeat _ => true
  | .ackDelayExpiry _ => true
  | .keepaliveExpiry _ => true
  | .deadTimeExpiry _ => true
  | .quietTimeExpiry _ => true
  | .subportLinkUp _ _ peerMac => decide (peerMac < 2 ^ 48)
  | .subportLinkDown _ _ => true
  | .kx1 _ _ _ => true
  | .kx2 _ _ _ => true
  | .kx3 _ _ _ => true
  | .kx1Retry _ _ => true
  | .kxRestart _ _ => true
  | .rekeyIntervalExpiry _ _ => true
  | .oldKeyExpiry _ _ => true
  | .bucketRefill _ => true
  | .egressFrameOpportunity _ _ => true
  | .gateListCommit _ => true
  | .gateListSwitch _ _ => true
  | .gateEntryAdvance _ _ => true
  | .commandSlotIssue _ _ c => c.wf
  | .commandCancel _ _ => true
  | .commandSlotRelease _ _ => true
  | .vld _ f => f.wf
  | .vldComplete _ _ => true
  | .vst _ f => f.wf
  | .sld _ f => f.wf
  | .sst _ f => f.wf
  | .waitl _ f => f.wf
  | .cfg _ f => f.wf
  | .dqdot8 _ f => f.wf
  | .dqdot4 _ f => f.wf
  | .dqdot4c _ f => f.wf
  | .fold _ f => f.wf
  | .dotbf _ f => f.wf
  | .bnd _ f => f.wf
  | .bndr _ f => f.wf
  | .logit _ f => f.wf
  | .pmax _ f => f.wf
  | .expacc8 _ f => f.wf
  | .expacc4 _ f => f.wf
  | .expaccbf _ f => f.wf
  | .rmerge _ f => f.wf
  | .remit _ f => f.wf
  | .crcchk _ f => f.wf
  | .salu _ f => f.wf
  | .sfpu _ f => f.wf
  | .movi _ f => f.wf
  | .aadd _ f => f.wf
  | .loopOpen _ f => f.wf
  | .endl _ f => f.wf
  | .brz _ f => f.wf
  | .halt _ f => f.wf
  | .yield _ f => f.wf
  | .pfill _ f => f.wf
  | .pcopy _ f => f.wf
  | .pcmp _ f => f.wf
  | .pred _ f => f.wf
  | .poolChunkComplete _ => true
  | .refreshDue _ pc bank => decide (pc < 64) && decide (bank < 64)
  | .refreshCatchUp _ => true
  | .throttlePauseEnd _ => true
  | .snapshot _ => true
  | .snapshotCopy _ => true
  | .stackTempSample _ _ => true
  | .dieTempSample _ _ _ _ _ => true
  | .powerLevelUpdate _ => true
  | .patrolScrubRead _ => true
  | .bankRetainIdle die bank => bankOk die bank
  | .selfRefreshEntry _ pc => decide (pc < 64)
  | .linkReplay link _ => decide (link.src ≠ link.dst)
  | .hubFailure _ => true
  | .chiveInsert _ row => row.wf
  | .chiveDelete _ row => row.wf
  | .chiveReplace _ row => row.wf
  | .overflowReturn _ cls key => decide (1 ≤ cls) && decide (cls ≤ 5) && decide (key < 2 ^ 64)
  | .camScrub _ => true
  | .blockRebuild _ block => decide (block < 32768)
  | .prefixRootScan _ => true
  | .commandBodyWrite _ _ _ offset data _ => decide (1 ≤ data.length) && decide (offset + data.length ≤ 4096) && (decide (offset + data.length ≤ 56) || decide (64 ≤ offset))
  | .payloadReadComplete _ _ => true
  | .coalesceExpiry _ _ _ => true
  | .directWindowRead _ _ _ offset length _ => decide (1 ≤ length) && decide (length ≤ 4096) && decide (offset + length ≤ 2 ^ 30)
  | .directWindowWrite _ _ _ offset data _ => decide (1 ≤ data.length) && decide (data.length ≤ 512) && decide (offset + data.length ≤ 2 ^ 30)
  | .functionLevelReset _ _ => true
  | .pcieLinkDown _ => true
  | .perstRelease _ => true
  | .ringEnable _ _ _ _ => true
  | .getMeasurements _ => true
  | .keyProg _ stream sub set key => decide (stream < 8) && decide (sub < 8) && decide (set < 2) && decide (key.length = 32)
  | .kSetGo _ stream set => decide (stream < 8) && decide (set < 2)
  | .kSetStop _ stream set => decide (stream < 8) && decide (set < 2)
  | .getCerts _ => true
  | .attest _ => true
  | .sessionOpen _ => true
  | .sessionAuth _ => true
  | .sessionClose _ => true
  | .sessionIdleExpiry _ => true
  | .regRead _ => true
  | .regWrite _ => true
  | .configDelta _ => true
  | .deltaCommit => true
  | .programLoad _ => true
  | .stage _ => true
  | .activate _ => true
  | .revert _ => true
  | .ratify _ => true
  | .fwReadyTimeout _ => true
  | .legacyPsk _ => true
  | .tenantView _ => true
  | .candidate _ _ term => decide (term < 2 ^ 32)
  | .vote _ _ term => decide (term < 2 ^ 32)
  | .beacon _ _ term => decide (term < 2 ^ 32)
  | .beaconSend _ => true
  | .beaconTimeout _ => true
  | .voteWaitExpiry _ => true
  | .candidacyTimeout _ => true
  | .lovageMeasuredBoot _ => true
  | .legacyIdentity counter _ tag => decide (counter < 2 ^ 64) && decide (tag.length = 16)
  | .legacyHealth counter _ tag => decide (counter < 2 ^ 64) && decide (tag.length = 16)
  | .legacyTempPower counter _ tag => decide (counter < 2 ^ 64) && decide (tag.length = 16)
  | .legacyDrain counter _ tag => decide (counter < 2 ^ 64) && decide (tag.length = 16)
  | .legacyDrainRelease counter _ tag => decide (counter < 2 ^ 64) && decide (tag.length = 16)
  | .legacyNodeReset counter _ tag => decide (counter < 2 ^ 64) && decide (tag.length = 16)
  | .retrain => true
  | .retire => true
  | .readmit => true
  | .failover => true
  | .failback => true
  | .isolateTest => true
  | .shutdown => true
  | .bankTest die bank cam _ => (if cam then decide (bank < 16) else bankOk die bank)
  | .classFieldWrite _ _ offset _ _ => decide (offset % 4 = 0) && decide (offset < 2 ^ 24)
  | .registerWrite _ _ offset _ _ => decide (offset % 4 = 0) && decide (offset < 2 ^ 24)
  | .localTimeLatch _ _ _ => true
  | .errPop _ => true
  | .dieSummaryLatch _ _ => true
  | .meterRecordLatch _ _ => true
  | .clearMin => true
  | .journalRecordLoad => true
  | .journalRecordLoaded _ _ => true
  | .censusEntryClear _ _ => true
  | .bankForceOn _ => true
  | .bankForceRetain _ => true
  | .bankForceOff _ => true
  | .bankAutomatic _ => true
  | .marginMeasure _ pc width height => decide (pc < 64) && decide (width < 256) && decide (height < 256)
  | .serdesMarginReport _ unit height => decide (unit < 128) && decide (height < 256)
  | .canaryMeasure _ index => decide (index < 65536)
  | .droopEvent _ _ => true
  | .histogramSample _ _ _ _ => true
  | .histFlush => true
  | .meterSample => true
  | .coarsePublish _ => true
  | .coarsePublishSecond _ => true
  | .journalRecordArrival _ => true
  | .journalFlushExpiry => true
  | .journalPageProgram => true
  | .nandProgramFail _ _ _ => true
  | .vsb33Valid _ => true
  | .vsb33Loss => true
  | .vin48Valid _ => true
  | .railsInRegulation => true
  | .vin48Undervoltage => true
  | .railFault => true
  | .resetAssert => true
  | .resetRelease _ _ => true
  | .throttleAssert => true
  | .throttleRelease => true
  | .drainEvent => true
  | .drainRearm => true
  | .ref25Loss _ => true
  | .bypass _ => true
  | .idcode _ => true
  | .samplePreload _ _ _ => true
  | .extest _ _ => true
  | .clamp _ => true
  | .highz _ => true
  | .linktest _ _ => true
  | .hbmloop _ _ => true
  | .tapReset => true
  | .finalWrite _ _ _ _ _ => true
  | .sliceFailure _ => true
  | .programFree number => decide (number < 64)
  | .securedSession _ => true
  | .ledgerReadResponse _ => true
  | .ledgerPublishResponse _ => true
  | .dieReady _ => true
  | .candidacyBackoffExpiry _ => true
  | .vsb33Removed => true
  | .stackRetrainComplete _ _ => true

end Sys2Proof
end

