-- ==== Sys2Proof/Tests/Slice0.lean ====
section
/-!
SUPPORT. Tests: an ill-formed term for each check of WellFormed, worked examples of the spec, and for each statement with
hypotheses a state and operands that meet them.
-/
namespace Sys2Proof.Tests
open Sys2Proof Sys2Proof.Machine

set_option Elab.async false

/-! ## Well-formedness: what each check refuses -/

/-- A frame of the MAC's least length. -/
def frame0 : Arrival := ⟨0, 64, .cell 0x88B5, true, 0, 1, true, 0, 0, 0, []⟩
theorem test_wf_frame : (Instr.plembelFrameReceive 0 frame0).wf = true := by decide
theorem test_wf_frame_short : (Instr.plembelFrameReceive 0 { frame0 with length := 63 }).wf = false := by decide
theorem test_wf_frame_long : (Instr.plembelFrameReceive 0 { frame0 with length := 9217 }).wf = false := by decide
theorem test_wf_frame_an : (Instr.plembelFrameReceive 0 { frame0 with an := 4 }).wf = false := by decide
theorem test_wf_frame_pn : (Instr.plembelFrameReceive 0 { frame0 with pn := 2 ^ 64 }).wf = false := by decide
theorem test_wf_frame_bytes : (Instr.plembelFrameReceive 0 { frame0 with bytes := zeros 65 }).wf = false := by decide
theorem test_wf_group : [(⟨65536, 0, 0, 0⟩ : GroupKey), ⟨0, 65536, 0, 0⟩, ⟨0, 0, 2 ^ 24, 0⟩, ⟨0, 0, 0, 2 ^ 32⟩].all
    (fun k => ! (Instr.groupDeadline 0 k).wf && ! (Instr.tombstoneExpiry 0 k).wf) = true := by decide
theorem test_wf_tail : [(⟨1048576, 0, 0, 0⟩ : TailKey), ⟨0, 1024, 0, 0⟩, ⟨0, 0, 256, 0⟩, ⟨0, 0, 0, 2 ^ 24⟩].all
    (fun k => ! (Instr.tailWriteBack k).wf && ! (Instr.tailEvict k).wf) = true := by decide
theorem test_wf_desc : (Instr.sequenceDrainComplete 1048576).wf = false := by decide
theorem test_wf_lpn : (Instr.pagePromote (2 ^ 29)).wf = false ∧ (Instr.pageDemote (2 ^ 29)).wf = false := by decide
theorem test_wf_index : (Instr.revokeDrainComplete 1048576).wf = false := by decide
theorem test_wf_line : (Instr.recallWaitExpiry 0 (2 ^ 64) 0).wf = false ∧ (Instr.recallWaitExpiry 0 0 (2 ^ 24)).wf = false ∧
    (Instr.leaseExpiry (2 ^ 64)).wf = false ∧ (Instr.transferLeaseExpiry 0 (2 ^ 64)).wf = false ∧
    (Instr.linePull 0 (2 ^ 64)).wf = false ∧ (Instr.pullTimeout 0 (2 ^ 64)).wf = false := by decide
theorem test_wf_extent : (Instr.extentDrainExpiry 0 64).wf = false ∧ (Instr.extentScrubComplete 0 64).wf = false := by decide
theorem test_wf_mac : (Instr.subportLinkUp 0 0 (2 ^ 48)).wf = false := by decide
/-- A well-formed fill of a command slot. -/
def fill0 : SlotFill := ⟨false, 0, 0, 3, 1, 0, [⟨0, 16, 1, true, false⟩], []⟩
theorem test_wf_slot : (Instr.commandSlotIssue 0 0 fill0).wf = true := by decide
theorem test_wf_slot_bad : [{ fill0 with program := 64 }, { fill0 with cls := 3 }, { fill0 with tenant := 65536 },
    { fill0 with laneMask := 65536 }, { fill0 with tag := 2 ^ 64 }, { fill0 with params := List.replicate 33 0#32 },
    { fill0 with windows := List.replicate 5 ⟨0, 16, 1, true, false⟩ }, { fill0 with windows := [⟨8, 16, 1, true, false⟩] },
    { fill0 with windows := [⟨0, 8, 1, true, false⟩] }, { fill0 with windows := [⟨2 ^ 48, 16, 1, true, false⟩] },
    { fill0 with windows := [⟨0, 16, 4, true, false⟩] }].all (fun c => ! (Instr.commandSlotIssue 0 0 c).wf) = true := by decide
/-- Words of a program, written out from the table of 07_dill.md R152. -/
theorem test_words : wordM 0x0113000200640010 = ⟨1, true, true, 0, 16, 100, 16⟩ ∧
    wordL 0x1005001801C12280 = ⟨5, 3, 7, 9, 2, true⟩ ∧ wordS 0x3201800089ABCDEF = ⟨0, 3, 0, 0, 0x89ABCDEF⟩ ∧
    wordC 0x3846001000000005 = ⟨1, 3, 16, 5⟩ ∧ insnOk 0x0200000000000000 = false ∧ insnOk 0x0600000000000000 = false := by decide
theorem test_wf_formatM : [(⟨5, false, false, 0, 1, 0, 0⟩ : FmtM), ⟨0, false, false, 0, 0, 0, 0⟩, ⟨0, false, false, 0, 4097, 0, 0⟩,
    ⟨0, false, false, 0, 1, 8192, 0⟩].all (fun f => ! (Instr.vld 0 f).wf) = true := by decide
theorem test_wf_formatL : [(⟨0, 0, 0, 0, 0, false⟩ : FmtL), ⟨129, 0, 0, 0, 0, false⟩, ⟨1, 8192, 0, 0, 0, false⟩,
    ⟨1, 0, 8192, 0, 0, false⟩, ⟨1, 0, 0, 512, 0, false⟩].all (fun f => ! (Instr.dqdot8 0 f).wf) = true := by decide
theorem test_wf_formatS : (Instr.salu 0 ⟨16, 0, 0, 0, 0⟩).wf = false := by decide
theorem test_wf_formatC : (Instr.loopOpen 0 ⟨0, 0, 65536, 0⟩).wf = false ∧ (Instr.brz 0 ⟨0, 0, 0, 65536⟩).wf = false := by decide
theorem test_wf_formatP : [(⟨0, 0, 0, 0, 4, 1⟩ : FmtP), ⟨0, 0, 0, 0, 0, 0⟩, ⟨0, 0, 0, 0, 0, 65⟩].all
    (fun f => ! (Instr.pfill 0 (.instr f)).wf) = true := by decide
theorem test_wf_pc : (Instr.refreshDue 0 64 0).wf = false ∧ (Instr.refreshDue 0 0 64).wf = false ∧
    (Instr.selfRefreshEntry 0 64).wf = false ∧ (Instr.marginMeasure 0 64 0 0).wf = false ∧
    (Instr.marginMeasure 0 0 256 0).wf = false ∧ (Instr.marginMeasure 0 0 0 256).wf = false := by decide
theorem test_wf_bank : (Instr.bankRetainIdle 0 256).wf = false ∧ (Instr.bankRetainIdle 32 511).wf = true ∧
    (Instr.bankRetainIdle 32 512).wf = false ∧ (Instr.bankTest 0 16 true []).wf = false ∧
    (Instr.bankTest 0 256 false []).wf = false := by decide
theorem test_wf_link : (Instr.linkReplay ⟨3, 3⟩ 0).wf = false := by decide
theorem test_wf_row : [(⟨2 ^ 64, 1, 0, 0⟩ : ChiveRow), ⟨0, 0, 0, 0⟩, ⟨0, 6, 0, 0⟩, ⟨0, 1, 256, 0⟩, ⟨0, 1, 0, 2 ^ 64⟩].all
    (fun r => ! (Instr.chiveInsert 0 r).wf && ! (Instr.chiveDelete 0 r).wf && ! (Instr.chiveReplace 0 r).wf) = true := by decide
theorem test_wf_overflow : (Instr.overflowReturn 0 0 0).wf = false ∧ (Instr.overflowReturn 0 6 0).wf = false ∧
    (Instr.overflowReturn 0 1 (2 ^ 64)).wf = false ∧ (Instr.blockRebuild 0 32768).wf = false := by decide
theorem test_wf_body : (Instr.commandBodyWrite 0 0 0 0 [] none).wf = false ∧ (Instr.commandBodyWrite 0 0 0 56 [0#8] none).wf = false ∧
    (Instr.commandBodyWrite 0 0 0 4096 [0#8] none).wf = false ∧ (Instr.commandBodyWrite 0 0 0 64 [0#8] none).wf = true := by decide
theorem test_wf_windows : (Instr.directWindowRead 0 0 0 0 0 none).wf = false ∧ (Instr.directWindowRead 0 0 0 0 4097 none).wf = false ∧
    (Instr.directWindowRead 0 0 0 (2 ^ 30) 1 none).wf = false ∧ (Instr.directWindowWrite 0 0 0 0 [] none).wf = false ∧
    (Instr.directWindowWrite 0 0 0 (2 ^ 30) [0#8] none).wf = false ∧ (Instr.directWindowWrite 0 0 0 0 (zeros 513) none).wf = false := by
  decide +kernel
theorem test_wf_keys : (Instr.keyProg 0 8 0 0 (zeros 32)).wf = false ∧ (Instr.keyProg 0 0 8 0 (zeros 32)).wf = false ∧
    (Instr.keyProg 0 0 0 2 (zeros 32)).wf = false ∧ (Instr.keyProg 0 0 0 0 (zeros 31)).wf = false ∧
    (Instr.kSetGo 0 8 0).wf = false ∧ (Instr.kSetGo 0 0 2).wf = false ∧ (Instr.kSetStop 0 8 0).wf = false ∧
    (Instr.kSetStop 0 0 2).wf = false := by decide
theorem test_wf_term : (Instr.candidate 0 1 (2 ^ 32)).wf = false ∧ (Instr.vote 0 1 (2 ^ 32)).wf = false ∧
    (Instr.beacon 0 1 (2 ^ 32)).wf = false := by decide
theorem test_wf_legacy : (legacyCmds (2 ^ 64) [] (zeros 16)).all (fun c => ! c.wf) = true ∧
    (legacyCmds 0 [] (zeros 15)).all (fun c => ! c.wf) = true := by decide
theorem test_wf_register : (Instr.registerWrite 0 0 2 0 none).wf = false ∧ (Instr.registerWrite 0 0 (2 ^ 24) 0 none).wf = false ∧
    (Instr.classFieldWrite 0 0 2 0 none).wf = false ∧ (Instr.classFieldWrite 0 0 (2 ^ 24) 0 none).wf = false := by decide
theorem test_wf_health : (Instr.serdesMarginReport 0 128 0).wf = false ∧ (Instr.serdesMarginReport 0 0 256).wf = false ∧
    (Instr.canaryMeasure 0 65536).wf = false ∧ (Instr.programFree 64).wf = false := by decide

/-! ## Worked examples of the spec -/

/-- 02_pages.md, one Q4T block: the scale of amax 1.8125 is 0x3E85 and channels 0 to 7 quantize as its table says. -/
theorem test_q4t_block :
    scaleFor (f32Dy (f32OfBf16 0x3FE8)) 7 = 0x3E85 ∧
    [0x3FE8, 0xBF70, 0x3F00, 0x3E00, 0xBFA0, 0x3EC8, 0x3F26, 0xBE08].map (fun x => quant x 0x3E85 7) =
      [7, -4, 2, 0, -5, 2, 2, -1] := by decide +kernel
/-- 02_pages.md, one channel's interval: σ of M = 3.0 is 0x3CC2. -/
theorem test_sketch_scale : scaleFor ⟨3, 0⟩ 127 = 0x3CC2 := by decide +kernel
/-- 03_sequences.md, one delta block fragment. -/
theorem test_delta_fragment :
    (rleDecode 4 [0x81#8, 0x01#8, 0x10#8, 0x03#8]).map (xorBytes [0xC7#8, 0x02#8, 0x2B#8, 0xF2#8]) =
      some [0xC7#8, 0x02#8, 0x3B#8, 0xF1#8] := by decide +kernel
/-- 04_attend.md, scoring two tokens: the query's block scale is 2^−7 and its first elements are 127, −64, 32 and 96. -/
theorem test_quantize_query :
    (let x : List F32 := [0x3F7E0000#32, 0xBF000000#32, 0x3E800000#32, 0x3F400000#32] ++ List.replicate 28 0#32
     ((quantizeQuery 1 x).1.take 4, (quantizeQuery 1 x).2) = ([127, -64, 32, 96], [0x3C000000#32])) := by decide +kernel
/-- 04_attend.md: the page bound of the scoring example, worked by hand from the procedure of R85: 0.357605 with its last two
terms. The prose gives 0.35759; the procedure governs (R5; assumption 42). -/
theorem test_page_bound :
    (let q : Qh := ⟨[127, -64, 32, 96] ++ List.replicate 60 0, [0x3C000000#32, 0#32], 0#32⟩
     let g : PGeom := ⟨fmtQ4T, fmtQ4T, 0, 0⟩
     let hi : List Int := [64, 73, 127, 46] ++ List.replicate 60 0
     let lo : List Int := [-37, -28, 18, 18] ++ List.replicate 60 0
     let p : SPage := { (default : SPage) with g := g, sigma := 0x3C62, vis := [0, 1], hi := hi, lo := lo }
     let a : AttQ := { (default : AttQ) with nb := 2, dim := 64, scale := 0x3E000000#32, cap := 0#32, pq := 1 }
     let z := f32Dy (pageBound a q p)
     (z.m * 1000000 / (2 ^ z.e.natAbs : Nat) + 5) / 10 = 35760) := by decide +kernel
/-- 02_pages.md: the sizes of R29's table for the sample model and for the combination that R30 refuses. -/
theorem test_page_sizes : PGeom.size ⟨fmtQ4C, fmtQ4T, 1, 2⟩ = 9296 ∧ PGeom.cls ⟨fmtQ4C, fmtQ4T, 1, 2⟩ = 1 ∧
    PGeom.size ⟨fmtQ8T, fmtQ8T, 2, 4⟩ = 70224 ∧ PGeom.ok ⟨fmtQ8T, fmtQ8T, 2, 4⟩ = false ∧
    PGeom.ok ⟨fmtQ4C, fmtQ4T, 2, 4⟩ = true := by decide +kernel
/-- 08_memory.md, one word: its check bits, the decoding of a nibble in error and of two flipped bits. -/
theorem test_word_code :
    (let w := 1 + 0x30 * 2 ^ 64
     checkBits w = 0xF736 ∧ decodeSyn (wordSyn (1 + 0x50 * 2 ^ 64) 0xF736) = .corrected 17 6 ∧
     wordSyn (w ^^^ (1 + 2 ^ 68)) 0xF736 = (0, 1, 1, 0xA) ∧ decodeSyn (0, 1, 1, 0xA) = .uncorrectable) := by decide +kernel
/-- 08_memory.md: the home of lpn 0x0B3C_0021 is node address 0x2C03_C002_1000. -/
theorem test_lpn_home : homeAddr State.reset 0x0B3C0021 = 0x2C03C0021000 := by decide +kernel
/-- 13_traffic.md, a prefill burst: the fourth and the eighth message, in eighths of a byte. -/
theorem test_policer :
    (let p (tp tc : Nat) : Policer := { (default : Policer) with tp := 8 * tp, tc := 8 * tc }
     (colourOf (p 1234124 110548) 337676).2 = .yellow ∧ (colourOf (p 1234124 110548) 337676).1.tp = 8 * 896448 ∧
     (colourOf (p 83420 210548) 337676).2 = .red ∧ (colourOf (p 83420 210548) 337676).1.tp = 8 * 83420) := by decide +kernel
/-- 07_dill.md, one page visit: the load's charge is 394.0 ns, the whole segment's 574.4 ns. -/
theorem test_segment_cost :
    (let g : Geom := { (default : Geom) with g := 6, d := 128, cap := false }
     let m := 0x01 * 2 ^ 56 + 564 * 2 ^ 29
     let l (op : Nat) := op * 2 ^ 56 + 64 * 2 ^ 48
     insnCost g m = 394 * 96000 ∧
     sumNat ([m, 0x33 * 2 ^ 56, 0x05 * 2 ^ 56, 0x13 * 2 ^ 56, l 0x12, l 0x20, l 0x21, l 0x23, 0x27 * 2 ^ 56, 0x39 * 2 ^ 56,
       0x3F * 2 ^ 56].map (insnCost g)) / 9600 = 5744) := by decide +kernel

/-! ## States and operands that meet the hypotheses of the statements -/

/-- Hub 0 out of reset and in service, with no known-good map. -/
def hub0Node : State := modLife State.reset fun l => { l with hubs := [(0, ⟨0, 0, .inService, 0, true, true⟩)], kgm := [] }

/-- An operator's node: an authenticated session of port 0's PF, and hub 0 up. -/
def opNode : State := modTrust hub0Node fun x => { x with sessions := [⟨1, .pcie 0 0, 0, [], [], [], true, 0, 0, 0⟩] }

/-- A node in service whose port 0 is up, with ring 0 of its PF enabled. -/
def portNode : State :=
  let s := modPower opNode fun x => { x with pcieUp := [true, false], perst := [true, false], rails := true }
  rset (modLife s fun l => { l with node := 2 }) .fn_ring_enable 0 0 1


/-- An active sequence of tenant 3: handle 3 × 2^48 + 1, one layer, one KV head, on slice 0. -/
def desc0 : Desc :=
  { (default : Desc) with keyFormat := 2, valFormat := 2, state := .active, handle := 3 * 2 ^ 48 + 1, tenant := 3, layers := 1,
                          kvHeads := 1, gen := 1, stripe := [0] }

/-- A node whose hub 0 has that sequence, after a change, at descriptor index 0, with its handle row. -/
def seqNode (f : Desc → Desc) : State :=
  let s := modSeqs hub0Node fun q => { q with descs := [(0, f desc0)] }
  let b := homeBlock s 0 clsHandle (3 * 2 ^ 48 + 1)
  modChive s fun c => { c with shadow := [((0, b * 16), ⟨3 * 2 ^ 48 + 1, clsHandle, 0, 0⟩)],
                               cam := [((0, b * 16), ⟨3 * 2 ^ 48 + 1, clsHandle, 0, 0⟩)] }

/-- A request of tenant 3 with number 3 in the queue of hub 0. -/
def reqMsg (op : Opcode) (pay : List Byte) : Msg :=
  { ownMsg hub0Node 0 op pay 0 with origin := .conn 0 9 7, tenant := 3, endpoint := 2 }

/-- A state with one request in its queue. -/
def reqNode (s : State) (op : Opcode) (pay : List Byte) : State := setMsgs s [(3, reqMsg op pay)]

/-- The node of `seqNode` with extent 0 of slices 0 and 1 assigned to tenant 3. -/
def homeNode (f : Desc → Desc) : State :=
  modLedg (seqNode f) fun x => { x with exts := [((0, 0), ⟨.assigned, 3, 1, 0, 0, false⟩), ((1, 0), ⟨.assigned, 3, 1, 0, 0, false⟩)] }

/-- The first tail of the sequence. -/
def tail0 : TailKey := ⟨0, 0, 0, 0⟩

/-- That node with one row of zeros in the tail. -/
def tailNode : State :=
  let s := homeNode fun d => { d with length := 1 }
  let s := (allocTables s 0 desc0).getD s
  match (residentTail s desc0 tail0 0).bind fun s => storeRows s desc0 tail0 [(zeros 128, zeros 128)] with
  | .ok s => modTdir s 0 0 fun t => { t with heldEnd := 1 }
  | .error _ => s

/-- That node with the tail frozen, waiting for its seal. -/
def sealNode : State := freezeTail tailNode desc0 tail0 none 0

/-- An APPEND-shaped payload for the sequence: form, position, tokens, layers, then its rest. -/
def appPay (form pos tokens layers : Nat) (rest : List Byte) : List Byte :=
  beBytes 1 1 ++ beBytes 1 form ++ zeros 2 ++ beBytes 8 (3 * 2 ^ 48 + 1) ++ zeros 4 ++ beBytes 4 pos ++ zeros 2 ++ beBytes 2 1 ++
    beBytes 4 tokens ++ beBytes 2 layers ++ zeros 2 ++ rest

/-- Witnesses of RowsAreAppendedAndSealed: rows that apply, rows held already, rows past the end. -/
theorem wit_append :
    (let pay := appPay 0 0 1 0 (zeros 288)
     let s := reqNode (homeNode id) .append pay
     let m := reqMsg .append pay
     let a := App.parse m.be m.payload
     startsWork s 3 .append = some m ∧ a.form = 0 ∧ a.tokens = 1 ∧ a.kvCount = 1 ∧
     (match findActive s m a with
      | (u, .ok (i, d)) => decide (i = 0) && (match rowsRequest u 3 m a i d false with
          | (_, .ok n) => decide (n = 0)
          | _ => false)
      | _ => false) = true) ∧
    (let pay := appPay 0 0 1 0 (zeros 288)
     let s := reqNode tailNode .append pay
     let m := reqMsg .append pay
     let a := App.parse m.be m.payload
     (match findActive s m a with
      | (u, .ok (i, d)) => (match rowsRequest u 3 m a i d false with
          | (_, .error st) => decide (st = .ok)
          | _ => false)
      | _ => false) = true) ∧
    (match findActive hub0Node (reqMsg .append (appPay 0 0 1 0 [])) (App.parse true (appPay 0 0 1 0 [])) with
     | (_, .error st) => decide (st = .notFound)
     | _ => false) = true ∧
    (App.parse true (appPay 7 0 1 0 [])).form = 7 ∧
    (let pay := appPay 1 0 1 0 []
     (App.parse true pay).form = 1 ∧ startsWork (reqNode (homeNode id) .bulkAppend pay) 3 .bulkAppend = some (reqMsg .bulkAppend pay) ∧
     (match findActive (reqNode (homeNode id) .bulkAppend pay) (reqMsg .bulkAppend pay) (App.parse true pay) with
      | (_, .ok (i, _)) => decide (i = 0)
      | _ => false) = true) := by
  decide +kernel
/-- The node of `tailNode` whose tail has a first word that cannot be corrected. -/
def badTailNode : State :=
  modMem tailNode fun m => { m with chk := [(((aget tailNode.seqs.tails tail0).map (·.base)).getD 0, 0x11)] }
/-- More witnesses of RowsAreAppendedAndSealed: a BULK_APPEND that fills a page, one that does not, and the SEAL forms. -/
theorem wit_seal :
    (let run := fun (pay : List Byte) =>
       let m := reqMsg .bulkAppend pay
       match findActive (reqNode (homeNode id) .bulkAppend pay) m (App.parse true pay) with
       | (u, .ok (i, d)) => (match rowsRequest u 3 m (App.parse true pay) i d true with
           | (_, .ok n) => some n
           | _ => none)
       | _ => none
     run (appPay 0 0 1 0 (zeros 288)) = some 0 ∧ run (appPay 0 0 32 0 (zeros 8224)) = some 1) ∧
    (let pay := appPay 0 0 0 1 (zeros 32)
     let m := reqMsg .seal pay
     let a := App.parse true pay
     startsWork (reqNode tailNode .seal pay) 3 .seal = some m ∧ a.layerCount = 1 ∧ a.keyed = false ∧ m.payload.length = 64 ∧
     a.named a.layerCount = [(0, 0)] ∧ (lookTails (sealTails tailNode 0 desc0 a) tailNode).2 = .ok ∧
     (lookTails (sealTails badTailNode 0 desc0 a) badTailNode).2 = .uncorrectable ∧
     (let v := checkOpen desc0 (sealTails tailNode 0 desc0 a) tailNode
      v.2 = .ok ∧ v.1.mem = tailNode.mem ∧ v.1.seqs = tailNode.seqs) ∧ (tdirOf tailNode 0 0).claim = false ∧ fullTails tailNode 0 desc0 a = [(0, 0)] ∧
     slotsFit tailNode sealNode 3 = true ∧ (tdirOf tailNode 0 0).frozen < 2 ∧ fullTails (homeNode id) 0 desc0 a = [] ∧
     slotsFit (homeNode id) (homeNode id) 3 = true) ∧
    ({ reqMsg .seal [] with phase := .waitSeals 1 } : Msg).phase = .waitSeals 1 := by
  decide +kernel

/-- A CREATE payload for tenant 3: key Q8T, value Q8T, one layer, one KV head. -/
def createPay : List Byte :=
  beBytes 1 1 ++ beBytes 1 1 ++ zeros 2 ++ beBytes 8 (3 * 2 ^ 48 + 1) ++ zeros 20 ++ beBytes 1 2 ++ beBytes 1 2 ++ zeros 2 ++
    beBytes 2 1 ++ beBytes 2 1 ++ zeros 24
/-- A FORK or BIND payload: its form, and the parent or base. -/
def forkPay (form : Nat) : List Byte :=
  beBytes 1 1 ++ beBytes 1 form ++ zeros 2 ++ beBytes 8 (3 * 2 ^ 48 + 1 + (if form = 2 then 1 else 0)) ++ zeros 20 ++
    beBytes 8 (3 * 2 ^ 48 + 1) ++ zeros 24
/-- One slice in service, which has an extent of tenant 3. -/
def oneSlice (s : State) : State :=
  modLife s fun l => { l with slices := (List.range 32).map fun k => (k, if k = 0 then sliceSt s 0 else { sliceSt s k with st := 1 }) }
/-- Witnesses of SequencesAreMadeForkedAndBound: CREATE. -/
theorem wit_create :
    (let s := oneSlice (reqNode (modLedg hub0Node fun x => { x with exts := [((0, 0), ⟨.assigned, 3, 1, 0, 0, false⟩)] })
       .append createPay)
     let m := reqMsg .append createPay
     let a := App.parse true createPay
     appStart s 3 (fun a => decide (a.form = 1)) = some (m, a) ∧ peekSeq s 3 a.handle = none ∧
     freeDescIndex s = some 0 ∧ freshStripe s 0 = [0] ∧
     ((allocTables s 0 (newDesc s m a 0 [0])).bind fun v => enterDesc v 0 (newDesc s m a 0 [0])).isSome = true ∧
     ((peekSeq (homeNode id) 3 (3 * 2 ^ 48 + 1)).map (·.1)) = some 0) := by
  decide +kernel
/-- The CREATE of wit_create keeps its bounds. -/
theorem wit_create_fits : CreateFits (reqMsg .append createPay) (App.parse true createPay) := by
  unfold CreateFits
  decide +kernel
/-- Witnesses of SequencesAreMadeForkedAndBound: FORK and its timeout. -/
theorem wit_fork :
    (let s := reqNode (homeNode id) .append (forkPay 2)
     let m := reqMsg .append (forkPay 2)
     let a := App.parse true (forkPay 2)
     appStart s 3 (fun a => decide (a.form = 2)) = some (m, a) ∧ a.ver = 1 ∧
     (match findOther s m a.other a.otherGen with
      | (u, .ok (i, d)) => decide (d.state = .active) && (peekSeq u 3 a.handle).isNone && ! forkWaits u i a.pos &&
          (match checkFork u i d a.pos with
           | (w, .ok) => (match applyFork w a i d with
               | (_, .ok _) => true
               | _ => false)
           | _ => false)
      | _ => false) = true ∧ handleOk m a = true ∧ a.bare m = true ∧ a.pos ≤ desc0.length ∧
     forkWaits sealNode 0 1 = true ∧
     (match checkFork (seqNode id) 0 desc0 a.pos with
      | (w, .ok) => (match applyFork w a 0 desc0 with
          | (_, .error st) => decide (st = .quota)
          | _ => false)
      | _ => false) = true) ∧
    (checkFork (setChk tailNode [(1099528404992, 0x1234)]) 0 desc0 1).2 = .uncorrectable ∧
    ({ reqMsg .append [] with phase := .waitFork } : Msg).phase = .waitFork := by
  decide +kernel
/-- A delta stream without pages. -/
def emptyStream : List Byte :=
  let h := leBytes 1 1 ++ leBytes 1 2 ++ leBytes 1 2 ++ zeros 1 ++ leBytes 2 1 ++ leBytes 2 1 ++ zeros 24 ++ leBytes 4 64 ++ leBytes 4 64
  h ++ leBytes 4 (crc32c h) ++ zeros 20
/-- A node with the sequence, a base at descriptor 1, and a region of slice 3's SRAM that holds these bytes. -/
def bindState (b : List Byte) : State :=
  let s := homeNode id
  let s := modSeqs s fun q => { q with descs := q.descs ++ [(1, { desc0 with handle := 3 * 2 ^ 48 + 2 })] }
  let row : ChiveRow := ⟨3 * 2 ^ 48 + 2, clsHandle, 0, 1⟩
  let p := (0, homeBlock s 0 clsHandle row.key * 16 + 5)
  let s := modChive s fun c => { c with shadow := c.shadow ++ [(p, row)], cam := c.cam ++ [(p, row)] }
  let r : Region := { (default : Region) with kind := rkScratch, state := 1, read := true, length := 4096, gen := 1,
                                              target := 3 * 2 ^ 42 + 2 ^ 40 + 2 ^ 25 }
  poke (modRegn s fun g => { g with regions := [(1, r)] }) (3 * 2 ^ 42 + 2 ^ 40 + 2 ^ 25) b
/-- A BIND of the sequence to the stream at the start of region key 257, with base 3 × 2^48 + 2. -/
def bindPay : List Byte :=
  beBytes 1 1 ++ beBytes 1 6 ++ zeros 2 ++ beBytes 8 (3 * 2 ^ 48 + 1) ++ zeros 20 ++ beBytes 8 (3 * 2 ^ 48 + 2) ++ zeros 4 ++
    beBytes 4 257 ++ zeros 16
/-- What a BIND meets: its stream's version, whether it is whole, whether it fits, whether it can be applied. -/
def bindRun (b : List Byte) : Option (Nat × Bool × Bool × Bool) :=
  let m := reqMsg .append bindPay
  let a := App.parse true bindPay
  match findOther (reqNode (bindState b) .append bindPay) m a.other a.otherGen with
  | (u, .ok base) =>
    match findActive u m a with
    | (v, .ok (i, d)) =>
      match readStream v m a with
      | (w, .ok x) => some ((Stream.parse x).ver, streamWhole (Stream.parse x) x, streamFits w (Stream.parse x) d i base,
          match applyBind w i d base (Stream.parse x) x with
          | .ok _ => true
          | .error _ => false)
      | _ => none
    | _ => none
  | _ => none
/-- A stream of one block over a base page of key 0. -/
def blockStream : List Byte :=
  let h := leBytes 1 1 ++ leBytes 1 2 ++ leBytes 1 2 ++ zeros 1 ++ leBytes 2 1 ++ leBytes 2 1 ++ zeros 16 ++ leBytes 4 32 ++
    leBytes 4 1 ++ leBytes 4 64 ++ leBytes 4 89
  let x := leBytes 4 72 ++ leBytes 4 17
  h ++ leBytes 4 (crc32c (h ++ x)) ++ zeros 20 ++ x ++ zeros 17
/-- `bindState` of that stream, whose base has lost the page it names. -/
def lostBase : State :=
  modSeqs (bindState blockStream) fun q =>
    { q with descs := amod q.descs 1 fun d => { d with length := 32 }, roots := [((0, 1, 0), ⟨[⟨5, 1, 0, 32, 0⟩], 0, [6]⟩)] }
/-- Witness of SequencesAreMadeForkedAndBound: BIND to a base that has lost a page. -/
theorem wit_lost_base :
    (let m := reqMsg .append bindPay
     let a := App.parse true bindPay
     match findOther (reqNode lostBase .append bindPay) m a.other a.otherGen with
     | (u, .ok base) => (match findActive u m a with
         | (v, .ok (i, d)) => (match readStream v m a with
             | (w, .ok x) => streamWhole (Stream.parse x) x && streamFits w (Stream.parse x) d i base &&
                 decide ((checkShares d ((streamBlocks w (Stream.parse x) x d base).map (·.base)) w).2 = .notFound)
             | _ => false)
         | _ => false)
     | _ => false) = true := by
  decide +kernel
/-- Witnesses of SequencesAreMadeForkedAndBound: BIND of a whole stream, of a damaged one and of one that does not fit. -/
theorem wit_bind : bindRun emptyStream = some (1, true, true, true) ∧
    (bindRun (leBytes 1 1 ++ zeros 63)).map (fun x => (x.1, x.2.1)) = some (1, false) ∧
    (bindRun (let h := leBytes 1 1 ++ zeros 39
              h ++ leBytes 4 (crc32c h) ++ zeros 20)).map (fun x => (x.1, x.2.1, x.2.2.1)) = some (1, true, false) ∧
    (App.parse true bindPay).bare (reqMsg .append bindPay) = true ∧ (App.parse true bindPay).form = 6 := by
  decide +kernel

/-- What a form of APPEND finds on the node of the sequence, with this many requests in flight. -/
def formRun (f n : Nat) (pay : List Byte) : Option (App × Nat × Desc × List Nat) :=
  let m := reqMsg .append pay
  match appStart (reqNode (homeNode fun d => { d with inflight := n, length := 9 }) .append pay) 3 fun a => decide (a.form = f) with
  | some (_, a) =>
    match findActive (reqNode (homeNode fun d => { d with inflight := n, length := 9 }) .append pay) m a with
    | (u, .ok (i, d)) => some (a, i, d, regionsFrom u i d a.pos)
    | _ => none
  | none => none
/-- What a truncation to 1 reads of a sequence whose tail has two rows, with these deviations of check bits. -/
def cutRun (bad : Assoc Nat Nat) : Status × Status :=
  match storeRows tailNode desc0 tail0 [(zeros 128, zeros 128)] with
  | .ok s =>
    let u := drained (setChk s bad) 0 (.truncate 1) 3
    let e : Desc := { desc0 with length := 2, state := .draining, drain := some (.truncate 1, 3) }
    ((checkCut u 0 e 1).2, (cutPages (checkCut u 0 e 1).1 0 e 1).2)
  | .error st => (st, st)
/-- Witnesses of SequencesDrainBeforeTheyChange: the tail that a truncation cuts. -/
theorem wit_cut : cutRun [] = (.ok, .ok) ∧ (cutRun [(1099528404992, 0x1234)]).1 = .uncorrectable ∧
    sealWaiters tailNode 0 = [] := by
  decide +kernel
/-- Witnesses of SequencesDrainBeforeTheyChange. -/
theorem wit_drain :
    (formRun 3 0 (appPay 3 4 0 0 (zeros 32))).map (fun x => (x.1.pos, x.2.1, x.2.2.1.length, x.2.2.1.inflight, x.2.2.2)) =
      some (4, 0, 9, 0, []) ∧
    (formRun 3 2 (appPay 3 4 0 0 (zeros 32))).map (fun x => x.2.2.1.inflight) = some 2 ∧
    (formRun 3 0 (appPay 3 10 0 0 (zeros 32))).map (fun x => x.1.pos) = some 10 ∧
    (formRun 4 0 (appPay 4 0 0 0 (zeros 32))).map (fun x => (x.1.anchors, x.1.keyed, x.1.layerCount)) = some (0, false, 0) ∧
    (formRun 5 0 (appPay 5 0 0 0 (zeros 32))).map (fun x => (x.2.2.2, x.1.bare (reqMsg .append (appPay 5 0 0 0 (zeros 32))))) = some ([], true) ∧
    anchorsOk (App.anchorList true { (default : App) with anchors := 2 } (zeros 72)) = false ∧
    regionsFrom (homeNode id) 0 desc0 (2 ^ 32) = [] ∧ (homeNode id).msgs = [] ∧
    (descOf (homeNode fun d => { d with state := .draining, drain := some (.pattern 5 [], 3) }) 0).map (fun d => (d.state, d.drain)) =
      some (.draining, some (.pattern 5 [], 3)) ∧ (pairPages (homeNode id) 0 desc0 0).isEmpty = true := by
  decide +kernel

/-- A page slot of slice 0 in use, promoted to the node address 2^40, or opened often enough for a promotion. -/
def promoNode (p : Option Promo) (n : Nat) : State :=
  let s := rset hub0Node .tier_promote_en 0 0 1
  let h : Hdr := { (default : Hdr) with ver := 1, kf := 2, vf := 2, gen := 7, refs := 1, sealed := true }
  let s := poke (poke s 4096 { h with crc := 4098796813 }.bytes) (2 ^ 40) { h with damaged := true }.bytes
  modMem s fun m => { m with slots := [(1, ⟨4, 3, .page, 7⟩)], opens := [(1, List.replicate n 0)],
                             promo := (p.map fun x => (1, x)).toList }
/-- Witnesses of SlicesSealEvictAndPromote: the seal, reference and tail units. -/
theorem wit_seals :
    (nextSeal sealNode 0 false).isSome = true ∧ (nextSeal sealNode 0 false).map (fun it => ((sealItem sealNode it).2, sealHeld sealNode it)) = some (.ok, false) ∧
    (nextSeal sealNode 0 false).map (fun it => (sealItem (setChk sealNode [(1099528404992, 0x1234)]) it).2) = some .uncorrectable ∧
    (nextSeal (modSeqs sealNode fun q => { q with sealQ := q.sealQ.map fun it => { it with aside := true } }) 0 true).isSome = true ∧
    (let s := modSeqs (promoNode none 0) fun q => { q with refQ := [⟨1, 7, true⟩] }
     s.seqs.refQ.find? (fun c => decide (lpnSlice c.lpn = 0)) = some ⟨1, 7, true⟩ ∧
     (Hdr.parse (peek s (liveAddr s 1) 64)).kf = 2 ∧ (Hdr.parse (peek s (liveAddr s 1) 64)).gen = 7 ∧
     (Hdr.parse (peek s (liveAddr s 1) 64)).refs = 1) ∧
    (aget tailNode.seqs.tails tail0).map (fun x => (x.dirty.any id, x.frozen)) = some (true, false) ∧
    (writeBack tailNode desc0 tail0).2 = true ∧ (evictTail tailNode desc0 tail0).2 = true ∧
    (descOf tailNode 0).isSome = true := by
  decide +kernel
/-- Witnesses of SlicesSealEvictAndPromote: promotion and demotion. -/
theorem wit_promote :
    (let s := promoNode none 40
     let v := drainRefs s 0
     (aget s.mem.slots 1 = some ⟨4, 3, .page, 7⟩ ∧ rg s .tier_promote_en = 1 ∧
      rg s .tier_promote_threshold ≤ recentOpens s 1 ∧ extentClosing s 1 = false ∧
      (hdrAt s (homeAddr s 1)).sealed = true ∧ (sliceSt s 0).st ≠ 1) ∧
     (match load v (homeAddr v 1) (hdrAt v (homeAddr v 1)).geom.size readPool with
      | (w, some p) => decide (p.length = 4560) && decide (promoUsed w 0 + 4 ≤ 256 * min 48 (rg v .tier_promote_pool_mib)) &&
          (promotedOf w 0).isEmpty && (allocSram w 0 0 4 .promotion).isSome
      | _ => false) = true) ∧
    (aget (promoNode (some ⟨2 ^ 40, true, 0⟩) 0).mem.promo 1) = some ⟨2 ^ 40, true, 0⟩ ∧ Quiet (promoNode (some ⟨2 ^ 40, true, 0⟩) 0) ∧
    ((load (promoNode (some ⟨2 ^ 40, true, 0⟩) 0) (2 ^ 40) (liveHdr (promoNode (some ⟨2 ^ 40, true, 0⟩) 0) 1).geom.size readPool).2.map
      fun p => (Hdr.parse p).damaged) = some true := by
  unfold Quiet
  decide +kernel

/-- Sub-port 1 of hub 0 with its link up. -/
def subNode (k : Kx) : State :=
  modSub (modLife hub0Node fun l => { l with node := 2 }) 0 1 fun p => { p with link := true, kx := k }
/-- Witnesses of LinkKeyExchange and LinkTimers. -/
theorem wit_kx :
    (let s := subNode { (default : Kx) with installed := 1 }
     hubAlive s 0 = true ∧ (subOf s 0 1).link = true ∧ (subOf s 0 1).kx.running = false ∧
     (KxFrame.parse (kxTail 1 0 1 [])).ver = 1 ∧ (KxFrame.parse (kxTail 1 0 1 [])).msg = 1 ∧
     (KxFrame.parse (kxTail 1 0 1 [])).xid ≤ (subOf s 0 1).kx.installed ∧
     (subOf s 0 1).kx.installed < (KxFrame.parse (kxTail 1 0 2 [])).xid) ∧
    (let s := subNode { (default : Kx) with xid := 5, running := true, kx2Sent := true }
     (subOf s 0 1).kx.running = true ∧ (subOf s 0 1).kx.kx2Sent = true ∧ (subOf s 0 1).kx.kx2Valid = false ∧
     (KxFrame.parse (kxTail 2 0 5 [])).msg = 2 ∧ (KxFrame.parse (kxTail 2 0 5 [])).xid = (subOf s 0 1).kx.xid) ∧
    (let s := subNode { (default : Kx) with xid := 5, running := true, kx2Valid := true }
     (subOf s 0 1).kx.kx2Valid = true ∧ (KxFrame.parse (kxTail 3 0 5 [])).msg = 3) := by decide +kernel

/-- Witnesses of LinkTimersAndLinks. -/
theorem wit_links :
    (let s := modLife hub0Node fun l => { l with node := 2 }
     hubAlive s 0 = true ∧ s.life.node ≠ 1 ∧ 0 < subCount s 0 ∧ (subOf s 0 0).link = false) ∧
    (let s := subNode { (default : Kx) with running := true, tries := 18 }
     (subOf s 0 1).kx.running = true ∧ (subOf s 0 1).kx.kx2Valid = false ∧ (subOf s 0 1).kx.tries < 19) ∧
    (let s := subNode { (default : Kx) with running := true, tries := 19 }
     (subOf s 0 1).kx.running = true ∧ (subOf s 0 1).kx.kx2Valid = false ∧ 19 ≤ (subOf s 0 1).kx.tries) ∧
    (let s := subNode { (default : Kx) with failed := true }
     (subOf s 0 1).link = true ∧ (subOf s 0 1).kx.running = false ∧ (subOf s 0 1).kx.failed = true) ∧
    (let s := modSub (subNode default) 0 1 fun p => { p with tx := some ⟨0, 1, [], 1⟩, rxOld := some ⟨1, 2, [], 1⟩ }
     (subOf s 0 1).tx = some ⟨0, 1, [], 1⟩ ∧ (subOf s 0 1).rxOld = some ⟨1, 2, [], 1⟩ ∧ (subOf s 0 1).link = true ∧
     (subOf s 0 1).kx.running = false) := by decide +kernel

/-- A connection of hub 0 to endpoint 2 with record number 9. -/
def connOne : Conn :=
  { newConn hub0Node 0 5 2 0 0 100 77 with state := .open_, version := 1, rcvNext := 1, peerIsn := 1, peerCredit := 8, ownCredit := 8 }
/-- A node that holds that connection, after a change. -/
def connNode (f : Conn → Conn) : State := modFab hub0Node fun x => { x with conns := [(9, f connOne)] }
/-- A segment that the connection has sent and that no acknowledgement covers. -/
def sentOne : SentSeg := ⟨100, default, 3, false, true, false, false, false⟩
/-- Witnesses of ConnectionTimers. -/
theorem wit_conn_timers :
    (let c := { connOne with ring := [sentOne] }
     connOf (connNode fun c => { c with ring := [sentOne] }) 9 = some c ∧ c.live = true ∧
     (sortBy (fun g => g.sentAt) (awaited c)).head? = some sentOne ∧
     c.timeouts + 1 < rget hub0Node .fab_retx_limit c.hub 0) ∧
    ({ connOne with state := .opening } : Conn).timeouts + 1 < rget (connNode fun c => { c with state := .opening }) .fab_retx_limit 0 0 ∧
    stalled { connOne with peerCredit := 0, ring := [{ sentOne with sent := false }] } = true ∧
    ({ connOne with ackDue := some 4 } : Conn).ackDue = some 4 ∧ (connOf (connNode id) 9).map (·.asked) = some [] ∧
    outstanding (connNode fun c => { c with state := .closing }) 9 { connOne with state := .closing } = false := by
  decide +kernel

/-- A message of the connection, in the queue with number 3. -/
def wireOne (f : Msg → Msg) : Msg :=
  f { asMsg hub0Node 9 connOne default .ack 0 .green .arrived [] with resp := false }
/-- The node with that message and the connection. -/
def wireNode (f : Msg → Msg) (g : Conn → Conn) : State := setMsgs (connNode g) [(3, wireOne f)]
/-- The node with the connection's index row. -/
def rowNode (c : Conn) : State :=
  let p := (0, homeBlock hub0Node 0 clsConn (connKey c) * 16)
  modChive (connNode fun _ => c) fun x => { x with shadow := [(p, connRow c)], cam := [(p, connRow c)] }
/-- What the index answers a HELLO with this connection ID: no record (0), that of number 9 (1), or that it cannot say (2). -/
def seekOf (s : State) (cid : Nat) : Nat :=
  let m := wireOne fun m => { m with opcode := .hello, arg0 := cid, endpoint := 2 }
  match helloSeek s 3 m with
  | (_, .error _) => 2
  | (_, .ok none) => 0
  | (u, .ok (some (id, c))) => if id = 9 ∧ connOf u id = some c then 1 else 3
/-- A HELLO payload of version 1. -/
def hello1 : List Byte := beBytes 1 1 ++ beBytes 1 0 ++ beBytes 2 2 ++ beBytes 4 50 ++ zeros 8
/-- Witnesses of ConnectionsOpenAndAcknowledge. -/
theorem wit_conn_open :
    wireMsg (wireNode id id) 3 .ack = some (wireOne id) ∧
    bit1 (wireOne fun m => { m with slotSeq := 1, arg0 := 100 }).slotSeq 0 = true ∧
    sDist connOne.sndUna 100 ≤ sDist connOne.sndUna connOne.sndNext ∧
    (∀ a ∈ connOne.asked, a.seq ≠ some 0) ∧
    ([⟨some 4, .ledgerRead, 0, []⟩] : List Ask).find? (fun a => decide (a.seq = some 4)) = some ⟨some 4, .ledgerRead, 0, []⟩ ∧
    wireMsg (wireNode (fun m => { m with opcode := .nack }) id) 3 .nack = some (wireOne fun m => { m with opcode := .nack }) ∧
    wireMsg (wireNode (fun m => { m with opcode := .heartbeat }) id) 3 .heartbeat = some (wireOne fun m => { m with opcode := .heartbeat }) ∧
    connOf (connNode fun c => { c with onChip := false }) 9 = some { connOne with onChip := false } ∧
    onChipCount (connNode fun c => { c with onChip := false }) 0 < 16384 ∧ hub0Node.fab.fillQ = [] ∧
    (Hello.parse hello1).ver = 1 ∧ bit1 (versions hub0Node 0) (wireOne fun m => { m with slotSeq := 1 }).slotSeq = true ∧ (Hello.parse hello1).vers % 4 &&& versions hub0Node 0 ≠ 0 ∧
    (Hello.parse hello1).status = Status.ok.code ∧ draining hub0Node = false ∧ (hubSt hub0Node 0).st ≠ 1 ∧
    seekOf (connNode id) 6 = 0 ∧ seekOf (rowNode connOne) 5 = 1 ∧
    seekOf (modChive (connNode id) fun c => { c with rebuild := [(0, homeBlock (connNode id) 0 clsConn (5 + 2 * 2 ^ 32))] }) 5 = 2 ∧
    (enterConn (fresh hub0Node).2 connOne).2 = some 1 := by decide +kernel
/-- The node with the connection's record spilled, and without the two slices that hold its arena. -/
def spilt : State := rowNode { connOne with onChip := false }
def noArena : State := modLife spilt fun l =>
  { l with slices := [(2, { sliceSt spilt 2 with home := none }), (3, { sliceSt spilt 3 with home := none })] }
/-- Witnesses of ConnectionsOpenAndAcknowledge: a fill. -/
theorem wit_conn_fill : (readArena spilt 0 0).2 = true ∧ (readArena noArena 0 0).2 = false := by
  refine ⟨?_, by decide +kernel⟩
  have h : sliceServes spilt 2 = true := by decide +kernel
  have e : ∀ a n r, (view spilt a n r).2.isSome = true := Sys2Proof.Laws.view_clean rfl
  have c : ∀ i, (arenaCopy spilt 2 i).2 = true := fun i => by simp [arenaCopy, h, e]
  unfold readArena
  split
  · rfl
  · rename_i g
    have x := c 0
    rw [g] at x
    cases x

/-- Sub-port 0 of hub 0 receives under association 1, and a version-0 connection stands. -/
def rxNode (g : Conn → Conn) : State :=
  rset (modSub (rowNode (g connOne)) 0 0 fun p => { p with link := true, up := true, rx := some ⟨1, 2, [], 5⟩ }) .fab_forerunner_compat 0 0 1
/-- A frame in cell mode with these header bytes. -/
def rxFrame (pn : Nat) (x : Frame) : Arrival := ⟨0, 128, .cell 0x88B5, true, 1, pn, true, 0, 0, 77, x.bytes⟩
/-- A header of the connection. -/
def rxHead (op : Opcode) (cid seq : Nat) (p : List Byte) : Frame :=
  { (default : Frame) with opcode := op.code, src := 2, connId := cid, seq := seq, payLen := p.length, segCount := 1, payload := p }
/-- The record the index finds for a connection ID of endpoint 2 at hub 0, and whether it is on chip at a hub in reach. -/
def seekFound (s : State) (cid : Nat) : Option (Nat × Conn × Bool) :=
  match frameSeek s 0 (rxHead .read cid 1 []) with
  | (v, .ok (some (id, c))) => some (id, c, decide (connOf v id = some c) && (hubRoute v 0 c.hub).isSome)
  | _ => none
/-- The version-0 form of the connection. -/
def connV0 : Conn := { connOne with version := 0 }
/-- Witnesses of FramesReachTheirConnection. -/
theorem wit_frames :
    AtHub (rxNode id) 0 (rxFrame 5 (rxHead .read 5 1 [])) ∧ (rxFrame 4 (rxHead .read 5 1 [])).pn < 5 ∧
    (secCheck (rxNode id) 0 0 (rxFrame 5 (rxHead .read 5 1 []))).isSome = true ∧
    etherOk (rset (rxNode id) .fab_cell_mode 0 0 1) 0 (.cell (rget (rxNode id) .fab_ethertype 0 0)) = (true, true) ∧
    Frame.parse (rxHead .read 5 1 [7#8]).bytes = some (rxHead .read 5 1 [7#8]) ∧
    (rxHead .read 5 1 []).dst = endpointOf (rxNode id) 0 ∧ rget (rxNode id) .fab_forerunner_compat 0 0 ≠ 0 ∧
    seekFound (rxNode id) 6 = none ∧ bit1 (versions (rxNode id) 0) 2 = false ∧
    (hubRoute (modLink (rxNode id) 32 33 fun l => { l with up := false }) 0 1).isNone = true := by
  refine ⟨by unfold AtHub; decide +kernel, by and_intros <;> decide +kernel⟩
/-- More witnesses of FramesReachTheirConnection: a record on chip, one spilled, a duplicate, and a frame the checks pass. -/
theorem wit_frames_open :
    seekFound (rxNode fun _ => connV0) 5 = some (9, connV0, true) ∧ connV0.state = .open_ ∧ connV0.onChip = true ∧
    seekFound (rxNode id) 5 = some (9, connOne, true) ∧ connOne.version ≠ (rxHead .read 5 1 []).version ∧ sLt 0 connV0.rcvNext = true ∧
    seekFound (rxNode fun c => { c with onChip := false }) 5 = some (9, { connOne with onChip := false }, true) := by
  and_intros <;> decide +kernel
/-- The state after a response frame has been heard. -/
def heardNode : State := heard (rxNode fun _ => connV0) 9 connV0 (rxHead .readResp 5 1 [])
/-- A witness of FramesReachTheirConnection: a frame that its first checks pass. -/
theorem wit_frames_pass :
    (connOf heardNode 9).map (fun d => (d.rcvNext, d.reasm, decide (0 < d.ownCredit))) = some (1, [], true) ∧
    (firstChecks heardNode 9 { connV0 with lastUse := 1 } (rxHead .readResp 5 1 [])).2 = .pass 0 .green .arrived ∧
    (connOf (firstChecks heardNode 9 { connV0 with lastUse := 1 } (rxHead .readResp 5 1 [])).1 9).map
      (fun d => (d.rcvNext, d.reasm, d.refused, d.closeRcvd, d.state)) = some (1, [], [], false, .open_) := by
  and_intros <;> decide +kernel

/-- A node with an operator session of the PF of port 0, whose gate list of hub 0 and sub-port 0 is this. -/
def gateNode (es : List (Nat × Nat)) (pend : Option (List (Nat × Nat) × Nat)) : State :=
  modGates opNode 0 0 fun _ => ⟨es, 0, 0, pend⟩
/-- Witnesses of RefillsAndGateLists. -/
theorem wit_gates : opNode.traf.held = [] ∧ pfSession opNode = true ∧
    listRefused (subRate opNode 0) (writtenList opNode 0).1 = true ∧
    (let s := rset (rset (rset (rset opNode .traffic_gl_count 0 0 1) .traffic_gate_mask 0 0 0xFFFF) .traffic_duration_ns 0 0 1000000)
       .traffic_gl_base_lo 0 0 20000
     listRefused (subRate s 0) (writtenList s 0).1 = false ∧ ¬ ((writtenList s 0).2 < now s 0 + 10000)) ∧
    (gatesOf (gateNode [] (some ([(1, 100)], 5))) 0 0).pend = some ([(1, 100)], 5) ∧
    (gatesOf (gateNode [(1, 100)] none) 0 0).run[(gatesOf (gateNode [(1, 100)] none) 0 0).index]? = some (1, 100) ∧
    (modTraf opNode fun x => { x with held := [(.traffic_cbs, 0, 3, 9)] }).traf.held = [(.traffic_cbs, 0, 3, 9)] ∧
    opNode.traf.lag = [] ∧ Reg.traffic_cbs.info.wide = true ∧ portHub 1 = (4 : Hub).val := by
  decide +kernel

/-- Sub-port 0 of hub 0 may send under association 1, and one segment of a class waits. -/
def egNode (cls : Nat) : State :=
  modTraf (modSub (connNode id) 0 0 fun p => { p with link := true, up := true, tx := some ⟨1, 1, [], 1⟩ }) fun x =>
    { x with egress := [⟨0, cls, 9, 77, { (default : Frame) with connId := 5, opcode := 1, cls := cls }⟩] }
/-- Witnesses of EgressSendsOneFrame. -/
theorem wit_egress :
    (subOf (atOpportunity hub0Node 0 0) 0 0).tx = none ∧ (subOf (atOpportunity (egNode 0) 0 0) 0 0).tx = some ⟨1, 1, [], 1⟩ ∧
    (eligible (atOpportunity (egNode 0) 0 0) 0 0 (subQueue (atOpportunity (egNode 0) 0 0) 0 0) 0 = true) ∧
    ((headOf (subQueue (atOpportunity (egNode 0) 0 0) 0 0) 0).isSome = true) ∧
    ((List.range 16).all fun c => ! eligible (atOpportunity (egNode 0) 0 0) 0 1 (subQueue (atOpportunity (egNode 0) 0 0) 0 1) c) = true ∧
    ((List.range 4).all fun c => ! eligible (atOpportunity (egNode 5) 0 0) 0 0 (subQueue (atOpportunity (egNode 5) 0 0) 0 0) c) = true ∧
    eligible (atOpportunity (egNode 5) 0 0) 0 0 (subQueue (atOpportunity (egNode 5) 0 0) 0 0) 5 = true ∧
    ((drr (atOpportunity (egNode 5) 0 0) 0 0 (subQueue (atOpportunity (egNode 5) 0 0) 0 0) drrFuel 4 false []).map (·.1)) = some 5 := by
  decide +kernel

/-- An ATTEND payload for the sequence: generation, group, then 64 query values of zero. -/
def attPay (ver gen group : Nat) : List Byte :=
  beBytes 1 ver ++ beBytes 1 0 ++ beBytes 1 0 ++ beBytes 1 group ++ beBytes 8 (3 * 2 ^ 48 + 1) ++ beBytes 4 gen ++ zeros 4 ++
    beBytes 2 1 ++ zeros 2 ++ beBytes 4 0x3F800000 ++ zeros 36 ++ zeros 128
/-- Witnesses of AttendFansOut. -/
theorem wit_attend :
    (let s := reqNode (seqNode id) .attend (attPay 1 0 1)
     let m := reqMsg .attend (attPay 1 0 1)
     let a := Att.parse m.be m.payload
     mayStart s 3 .attend = some m ∧ a.ver = 1 ∧ a.mode ≠ 3 ∧ (findSeq s 0 3 a.handle).2 = .hit 0 ∧
     descOf (findSeq s 0 3 a.handle).1 0 = some desc0 ∧ genMatch a.gen desc0.gen = true ∧ slicesOnWay s 1 = [] ∧
     attBounds m a desc0 = false ∧ attValues m a = false ∧ attPlaces m a desc0 = false ∧
     mergeQuotaOk (findSeq s 0 3 a.handle).1 3 = true ∧
     fanRoom (findSeq s 0 3 a.handle).1 0 (setUnits a.heads desc0.dim) a.arrival = true ∧ s.mem.chk = [] ∧ s.dill.snaps = [] ∧
     (∀ k, k < 32 → laneIdle s (servingSlice s k) = true ∧ levelOf s (servingSlice s k) = 0) ∧ m.units = 0) := by
  decide +kernel
/-- The refusals of AttendFansOut. -/
theorem wit_attend_refused :
    (Att.parse true (attPay 2 0 1)).ver ≠ 1 ∧ genMatch (Att.parse true (attPay 1 2 1)).gen desc0.gen = false ∧
    (findSeq (reqNode hub0Node .attend (attPay 1 0 1)) 0 3 (3 * 2 ^ 48 + 1)).2 = .miss ∧
    attBounds (reqMsg .attend (attPay 1 0 0)) (Att.parse true (attPay 1 0 0)) desc0 = true ∧
    (descOf (seqNode fun d => { d with state := .draining }) 0).map (·.state) = some .draining ∧
    (descOf (seqNode fun d => { d with state := .dropping }) 0).map (·.state) = some .dropping := by
  decide +kernel

/-- A merge context of hub 0 for the ATTEND in the queue, one quadrant expected. -/
def ctxOne (sl : List (Nat × Report)) (qs : List (Nat × Nat × Report)) : MergeCtx :=
  { msg := 3, hub := 0, tenant := 3, desc := 0, snap := desc0, durNs := 100, deadline := 100, arrival := false, nRecs := 1, dim := 64,
    chains := [⟨0, 0, sl, false, 50⟩], expected := [0], quads := qs }
/-- A node with that context and records on their way to it. -/
def ctxNode (x : MergeCtx) (l : List InFlight) : State :=
  modMerge (reqNode (seqNode fun d => { d with inflight := 1 }) .attend (attPay 1 0 1)) fun y => { y with ctxs := [(1, x)], inflight := l }
/-- Witnesses of MergeRecordsArrive. -/
theorem wit_merge_records :
    (let s := ctxNode (ctxOne [] []) [.slice 1 2 ⟨[], []⟩, .quad 1 0 15 0 ⟨[], []⟩]
     sliceInFlight s 1 2 = some ⟨[], []⟩ ∧ (aget s.life.moving (servingSlice s 2)).isSome = false ∧
     aget s.merge.ctxs 1 = some (ctxOne [] []) ∧
     (ctxOne [] []).chains.find? (fun c => decide (c.quad = 0)) = some ⟨0, 0, [], false, 50⟩ ∧
     quadInFlight s 1 0 = some (15, 0, ⟨[], []⟩) ∧ (∀ e ∈ (ctxOne [] []).expected, e = 0) ∧
     (msgOf s 3).map (fun m => (Att.parse m.be m.payload).tag) = some 0 ∧ aget s.merge.ctxs 2 = none ∧
     sliceInFlight (ctxNode (ctxOne [] []) [.slice 2 2 ⟨[], []⟩]) 2 2 = some ⟨[], []⟩) ∧
    (0 ∈ ({ ctxOne [] [] with expected := [0, 1] } : MergeCtx).expected) := by
  decide +kernel

/-- A contribution without records, of two contributors. -/
def partPay : List Byte :=
  PartHdr.bytes true { (default : PartHdr) with status := 1, tag := 4, contribs := 2, tenant := 3, requester := 8 }
/-- Its group, with contributions of these endpoints, and a state that holds it. -/
def groupNode (eps : List Nat) (ts : List Tombstone) : State :=
  modMerge (reqNode (connNode id) .partialRec partPay) fun y =>
    { y with groups := if eps.isEmpty then [] else
               [⟨0, ⟨3, 0, 8, 4⟩, 2 + eps.length, 100, 100, false, none, eps.map fun e => ⟨e, .ok, 0, 0, 0, []⟩⟩], tombs := ts }
/-- Witnesses of MergePoints. -/
theorem wit_merge_points :
    (let s := groupNode [] []
     let m := reqMsg .partialRec partPay
     let p := PartHdr.parse true partPay
     mayStart s 3 .partialRec = some m ∧ p.ver = 1 ∧ (Status.ofCode p.status).isSome = true ∧ dOf p.dCode ≠ 0 ∧
     m.payload.length = 40 + p.count * recSize p.out32 (dOf p.dCode) ∧ p.count = 0 ∧ p.contribs = 2 ∧
     groupAt s 0 (tupleOf p) = none ∧ mergeQuotaOk s 3 = true ∧ ctxsUsed s 0 < ctxMax ∧
     poolUsed s 0 + groupUnits (groupOf s m p .ok []) ≤ poolMax ∧
     ((groupAt (groupNode [5] []) 0 (tupleOf p)).map fun g => g.parts.map (·.endpoint)) = some [5] ∧
     ((groupAt (groupNode [2] []) 0 (tupleOf p)).map fun g => g.parts.map (·.endpoint)) = some [2] ∧
     now (groupNode [] [⟨0, tupleOf p, 9⟩]) 0 < 9) := by
  decide +kernel
/-- More witnesses of MergePoints: an answer to a contribution, a group and a tombstone. -/
theorem wit_merge_points2 :
    (let s := setMsgs (connNode fun c => { c with asked := [⟨some 8, .partialRec, 4, []⟩] })
       [(3, { reqMsg .partialRec [] with resp := true, replyTo := 8 }), (4, { reqMsg .attend [] with phase := .waitContrib })]
     (respMsg s 3 .partialRec).isSome = true ∧ (msgOf s 4).map (·.phase) = some .waitContrib) ∧
    ((groupNode [5] []).merge.groups.find? fun x => decide (x.hub = 0) && decide (x.key = ⟨3, 0, 8, 4⟩)).isSome = true ∧
    ((groupNode [] [⟨0, ⟨3, 0, 8, 4⟩, 9⟩]).merge.tombs.find? fun t => decide (t.hub = 0) && decide (t.key = ⟨3, 0, 8, 4⟩)) =
      some ⟨0, ⟨3, 0, 8, 4⟩, 9⟩ := by
  decide +kernel

/-- A node with a region of slice 3's SRAM under key 257, of protection domain 0. -/
def regNode (k : Nat) : State :=
  modRegn (connNode id) fun g => { g with regions := [(1, { (default : Region) with
    kind := k, state := 1, read := true, write := true, length := 4096, gen := 1, target := 3 * 2 ^ 42 + 2 ^ 40 + 2 ^ 25 })] }
/-- An access payload: flags, offset, length, and data. -/
def accPay (flags key offset len : Nat) (data : List Byte) : List Byte :=
  beBytes 1 1 ++ beBytes 1 flags ++ zeros 2 ++ beBytes 4 key ++ zeros 8 ++ beBytes 8 offset ++ beBytes 4 len ++ zeros 4 ++ data
/-- What an access meets: its start, its check, its length and its range. -/
def accRun (op : Opcode) (pay : List Byte) : Option (Nat × Bool × Bool) :=
  match accStart (reqNode (regNode rkScratch) op pay) 3 op with
  | some m =>
    let w := decide (op = .write)
    let a := AccHdr.parse true pay
    match accCheck (reqNode (regNode rkScratch) op pay) m w a with
    | (u, .ok (key, _, r)) => some (key, lengthCheck w a (m.payload.length - 32), (rangeCheck u r w a).2.isNone)
    | (_, .error (st, _)) => some (1000 + st.code, false, false)
  | none => none
/-- Witnesses of RemoteReadsAndWrites: accesses that pass and that do not. -/
theorem wit_access :
    accRun .read (accPay 0 257 16 64 []) = some (257, true, true) ∧ accRun .read (accPay 1 257 16 64 []) = some (257, true, true) ∧
    (AccHdr.parse true (accPay 1 257 16 64 [])).snapshot = true ∧
    accRun .write (accPay 0 257 3 2 [1#8, 2#8]) = some (257, true, true) ∧
    accRun .write (accPay 0 257 4095 2 [1#8, 2#8]) = some (257, true, false) ∧
    (accRun .read (accPay 0 513 16 64 [])).map (·.1) = some (1000 + Status.notFound.code) ∧
    (accRun .write (accPay 0 513 16 1 [0#8])).map (·.1) = some (1000 + Status.notFound.code) ∧
    (controlOf (reqMsg .write (accPay 0 257 3 2 [1#8, 2#8]))).isNone = true ∧
    (regNode rkScratch).mem.chk = [] ∧ (regNode rkScratch).dill.snaps = [] ∧ (regionOf (regNode rkScratch) 1).isSome = true := by
  decide +kernel
/-- Witnesses of RemoteReadsAndWrites: the SNAPSHOT command, a copy, and answers to the node's own READs. -/
theorem wit_snapshot :
    (let m := { reqMsg .snapshot [] with arg0 := 257, arg1 := 16, payLen := 64 }
     let s := setMsgs (regNode rkScratch) [(3, m)]
     mayStart s 3 .snapshot = some m ∧
     (match accCheck s m false { (default : AccHdr) with ver := 1, snapshot := true, key := m.arg0, offset := 16, length := 64 } with
      | (u, .ok (_, _, r)) => (rangeCheck u r false { (default : AccHdr) with ver := 1, snapshot := true, key := m.arg0, offset := 16, length := 64 }).2.isNone
      | _ => false) = true) ∧
    (let s := modDill (reqNode (regNode rkScratch) .read (accPay 1 257 16 64 [])) fun d => { d with snaps := [(7, ⟨3, none, 3 * 2 ^ 42 + 2 ^ 40 + 2 ^ 25 + 16, 64, 3, 1, true, 0⟩)] }
     (aget s.dill.snaps 7).map (fun x => (x.raised, x.msg, x.region)) = some (true, 3, 1) ∧ (regionOf s 1).isSome = true ∧
     s.mem.chk = [] ∧ laneWriting s 3 (3 * 2 ^ 42 + 2 ^ 40 + 2 ^ 25 + 16) 64 = false) ∧
    (respMsg (setMsgs (connNode id) [(3, { reqMsg .readResp [] with resp := true, replyTo := 8 })]) 3 .readResp).isSome = true ∧
    moveOf hub0Node 0 true = none := by
  decide +kernel
/-- A READ_RESP of this status to a transfer at this step. -/
def xferNode (code step : Nat) : State :=
  modLedg (setMsgs (connNode fun c => { c with asked := [⟨some 8, .read, 77, []⟩] })
    [(3, { reqMsg .readResp (beBytes 1 1 ++ beBytes 1 code ++ zeros 14 ++ zeros 64) with resp := true, replyTo := 8 })]) fun y =>
    { y with moves := [{ (default : Transfer) with handle := 77, dest := true, peer := 2, step := step }] }
/-- The status, request and step of the transfer that a READ_RESP meets. -/
def xferRun (s : State) : Option (Nat × Nat × Nat) :=
  match respMsg s 3 .readResp, connOf s 9 with
  | some m, some c =>
    match m.origin, c.asked.find? (fun a => decide (a.seq = some m.replyTo)) with
    | .conn _ i _, some a => if i = 9 ∧ c.state = .open_ then
        (moveOf s a.about true).map fun x => (fld m.be m.payload 1 1, a.about, x.step) else none
    | _, _ => none
  | _, _ => none
/-- Witnesses of RemoteReadsAndWrites: answers to the READs of a transfer. -/
theorem wit_xfer : xferRun (xferNode 0 0) = some (0, 77, 0) ∧ xferRun (xferNode 0 1) = some (0, 77, 1) ∧
    xferRun (xferNode 0x26 1) = some (0x26, 77, 1) ∧ xferRun (xferNode 0x20 0) = some (0x20, 77, 0) ∧
    Status.ok.code = 0 ∧ Status.bounds.code = 0x26 ∧ lengthCheck false (AccHdr.parse true (accPay 0 257 16 0 [])) 0 = false := by
  decide +kernel

/-- A control record: operation, kind, rights, target, old key and length. -/
def recPay (op kind rights target old len : Nat) : List Byte :=
  accPay 0 0 0 64 (beBytes 1 1 ++ beBytes 1 op ++ beBytes 1 kind ++ beBytes 1 rights ++ zeros 12 ++ beBytes 8 target ++
    zeros 4 ++ beBytes 4 old ++ zeros 16 ++ beBytes 8 len ++ zeros 8)
/-- A node with this record in its queue and a region in a state under key 257 of tenant 3. -/
def recNode (pay : List Byte) (st n : Nat) : State :=
  reqNode (modRegn (regNode rkScratch) fun g => { g with regions := [(1, { (default : Region) with
    kind := rkScratch, state := st, read := true, write := true, length := 4096, gen := 1, tenant := 3, inflight := n })], fresh := 2 }) .write pay
/-- Witnesses of RegionsAreRegisteredAndRevoked: a REGISTER of SCRATCH. -/
theorem wit_register :
    (let pay := recPay 1 rkScratch 3 3 0 4096
     let s := recNode pay 1 0
     let m := reqMsg .write pay
     (match controlStart s 3 1 with
      | some (m', x) => decide (m' = m) && decide (x.ver = 1) && decide (x.kind = rkScratch) && decide (x.pd = 0) && ! registerBounds s m x &&
          (match registerSeq s m x with
           | (u, .ok none) => decide (freeIndex u = some 2) && ! x.named && (match registerMem u m x with
               | .ok _ => true
               | _ => false)
           | _ => false)
      | none => false) = true) := by decide +kernel
/-- What a REVOKE or REREGISTER record of the region meets. -/
def recRun (op st n : Nat) : Option (Nat × Nat × Nat × Nat × Bool × Bool) :=
  let pay := recPay op 0 3 0 257 0
  match controlStart (recNode pay st n) 3 op with
  | some (m, x) =>
    match oldEntry (recNode pay st n) m x with
    | .ok (i, r) => some (i, r.state, r.inflight, x.ver, x.named, x.read)
    | _ => none
  | none => none
/-- Witnesses of RegionsAreRegisteredAndRevoked: REVOKE and REREGISTER. -/
theorem wit_revoke :
    recRun 2 1 0 = some (1, 1, 0, 1, false, true) ∧ recRun 2 1 4 = some (1, 1, 4, 1, false, true) ∧
    recRun 2 0 0 = some (1, 0, 0, 1, false, true) ∧ recRun 2 2 1 = some (1, 2, 1, 1, false, true) ∧
    recRun 3 1 0 = some (1, 1, 0, 1, false, true) ∧ recRun 3 1 4 = some (1, 1, 4, 1, false, true) ∧
    recRun 3 0 0 = some (1, 0, 0, 1, false, true) := by
  and_intros <;> decide +kernel
/-- Witnesses of RegionsAreRegisteredAndRevoked: a drain that completes, and a record that R252 refuses. -/
theorem wit_revoke_drain :
    (regionOf (recNode [] 2 0) 1).map (fun r => (r.state, r.inflight)) = some (2, 0) ∧
    (regionOf (recNode [] 2 0) 1).map (fun r => (r.reReg.isNone, r.kind)) = some (true, rkScratch) ∧
    (controlStart (recNode (recPay 1 0 3 3 0 4096) 1 0) 3 1).isSome = true ∧
    registerBounds (recNode [] 1 0) (reqMsg .write []) { (default : RegRec) with kind := rkScratch } = true := by
  and_intros <;> decide +kernel

/-- A REGION line of tenant 3. -/
def line0 : Nat := 3 * 2 ^ 62 + 3 * 2 ^ 48 + 5
/-- A directory entry of that line, VALID at version 4, after a change. -/
def entry0 (f : DirEntry → DirEntry) : DirEntry := f { (default : DirEntry) with lineId := line0, version := 4, content := zeros 64 }
/-- A node whose hub 0 is that line's home, without an entry, and with one that its index finds. -/
def homeEmpty : State :=
  modLedg hub0Node fun x => { x with newest := 1, maps := [(1, { (default : CompMap) with buckets := [(lineBucket line0, (0, 0))] })] }
def homeLedger (f : DirEntry → DirEntry) : State :=
  let r : ChiveRow := ⟨line0, clsLedger, 0, 0⟩
  let b := homeBlock homeEmpty 0 clsLedger line0
  modLedg (modChive homeEmpty fun c => { c with shadow := [((0, b * 16), r)], cam := [((0, b * 16), r)] }) fun x =>
    { x with dir := [((0, line0), entry0 f)] }
/-- What the index of hub 0 answers for the line. -/
def lineFound (s : State) : Option (Option (Nat × DirState)) :=
  match findLine s 0 line0 with
  | (_, .ok e) => some (e.map fun e => (e.version, e.state))
  | (_, .error _) => none
/-- A LEDGER_READ of the line, cached. -/
def readPay : List Byte := beBytes 1 1 ++ beBytes 1 1 ++ zeros 6 ++ beBytes 8 line0
/-- A LEDGER_PUBLISH of the line that expects a version. -/
def pubPay (expected : Nat) : List Byte :=
  beBytes 1 1 ++ zeros 7 ++ beBytes 8 line0 ++ beBytes 8 expected ++ [1#8] ++ zeros 63
/-- What a request meets at its home: whether it starts, no earlier one waits, and the hub that serves it. -/
def homeRun (s : State) (op : Opcode) (pay : List Byte) : Option (Bool × Bool × Option Nat) :=
  let s := setMsgs s [(3, reqMsg op pay)]
  (mayStart s 3 op).map fun m => (m.resp, earlierAtLine s 3 line0, servedHome s m line0)
/-- Witnesses of LinesAtTheirHome: requests at the home. -/
theorem wit_home :
    homeRun (homeLedger id) .ledgerRead readPay = some (false, false, some 0) ∧
    homeRun (homeLedger id) .ledgerPublish (pubPay 4) = some (false, false, some 0) ∧
    fld true readPay 8 8 = line0 ∧ fld true (pubPay 4) 8 8 = line0 ∧ lineKind line0 = lkRegion ∧
    (homeLedger id).ledg.pubs = [] ∧ (homeLedger id).msgs = [] ∧ (dirOf (homeLedger id) 0 line0).isSome = true ∧
    oldHome (homeLedger id) line0 = none ∧ lineFound (homeLedger id) = some (some (4, .valid)) ∧
    lineFound homeEmpty = some none ∧ (newEntry homeEmpty 0 line0 .valid 1 0 (zeros 64)).2 = true ∧
    (∀ p ∈ (homeLedger id).ledg.dir, p.2.state ≠ .arriving) ∧ (homeLedger id).ledg.moves = [] := by
  and_intros <;> decide +kernel
/-- Witnesses of LinesAtTheirHome: a publish that passes, one in conflict, sharers, recalls, leases and pulls. -/
theorem wit_home_more :
    PubChecked (homeLedger id) (reqMsg .ledgerPublish (pubPay 4)) line0 4 (zeros 64) = none ∧
    PubChecked (homeLedger id) (reqMsg .ledgerPublish (pubPay 9)) line0 4 (zeros 64) = some .conflict ∧
    PubChecked (homeLedger id) (reqMsg .ledgerPublish (pubPay 0)) line0 0 (zeros 64) = none ∧
    blank (takeBytes (pubPay 4) 24 64) = false ∧
    recallTargets (homeLedger id) (entry0 id) = [] ∧
    recallTargets (homeLedger id) (entry0 fun e => { e with sharers := [7] }) = [7] ∧
    (let s := homeLedger fun e => { e with state := .publishing, pub := some ⟨0, 0, .plain, zeros 64, [7]⟩ }
     (dirOf s 0 line0).isSome = true ∧ holderCopy s line0 (zeros 64) 7 = false) ∧
    Owner.transfer (Owner.parse ([1#8, 1#8] ++ zeros 62)) = true ∧ lineKind (2 * 2 ^ 62 + 5) = lkOwner ∧
    lineHome (homeLedger id) 1 line0 = some (0, 0) ∧ isOwn (homeLedger id) 0 = true := by
  and_intros <;> decide +kernel

/-- A node with one copy of the line, leased until 900 on hub 0, and one read of it outstanding. -/
def copyNode (f : LineCopy → LineCopy) : State :=
  modLedg (connNode fun c => { c with asked := [⟨some 8, .ledgerRead, line0, []⟩] }) fun x => { x with
    copies := [(line0, f ⟨4, zeros 64, some (0, 900)⟩)], reads := [⟨line0, .recalled, 0, 100⟩],
    pubs := [⟨line0, zeros 64, 4, true⟩] }
/-- A response payload with a status, a version and the line. -/
def linePay (st version : Nat) : List Byte :=
  beBytes 1 1 ++ beBytes 1 st ++ beBytes 2 50 ++ zeros 4 ++ beBytes 8 version ++ beBytes 8 line0 ++ zeros 64
/-- The same without a publish. -/
def readNode : State := modLedg (copyNode id) fun x => { x with pubs := [] }
/-- The response in the queue. -/
def lineAns (s : State) (op : Opcode) (st version : Nat) : State :=
  setMsgs s [(3, { reqMsg op (linePay st version) with resp := true, replyTo := 8 })]
/-- Witnesses of LinesTheNodeHolds. -/
theorem wit_copies :
    (mayStart (setMsgs (copyNode id) [(3, reqMsg .recall (zeros 8 ++ beBytes 8 line0 ++ beBytes 8 5))]) 3 .recall).isSome = true ∧
    rereads line0 = false ∧ (aget (copyNode id).ledg.copies line0).map (·.version) = some 4 ∧
    readNode.ledg.pubs = [] ∧ (copyNode id).ledg.pubs.map (fun p => (p.line, p.sent)) = [(line0, true)] ∧
    (respMsg (lineAns readNode .ledgerRead 0 6) 3 .ledgerRead).isSome = true ∧
    (connOf (copyNode id) 9).map (fun c => c.asked.find? fun a => decide (a.seq = some 8)) = some (some ⟨some 8, .ledgerRead, line0, []⟩) ∧
    (copyNode id).ledg.reads.filter (fun r => decide (r.line = line0)) = [⟨line0, .recalled, 0, 100⟩] ∧
    fld true (linePay 0 6) 16 8 = line0 ∧ fld true (linePay 0 6) 8 8 = 6 ∧ Status.ofCode (fld true (linePay 0 6) 1 1) = some .ok ∧
    (respMsg (lineAns (copyNode id) .ledgerPublish 0 6) 3 .ledgerPublish).isSome = true ∧
    moveOf (copyNode id) (line0 % 2 ^ 62) true = none ∧ (copyNode id).ledg.dir = [] ∧ (copyNode id).ledg.moves = [] ∧ agetD (copyNode id).ledg.floors line0 0 ≤ 6 := by
  and_intros <;> decide +kernel

/-- Witnesses of ExtentsMapsAndUnits. -/
theorem wit_extents :
    (let s := modLedg hub0Node fun x => { x with exts := [((0, 2), ⟨.closing, 3, 1, 10, 500, false⟩)] }
     (extentSt s 0 2).state = .closing ∧ (extentSt s 0 2).scrubbing = false ∧ s.merge.ctxs = [] ∧ s.regn.regions = [] ∧ s.dill.snaps = []) ∧
    (let l := extentLine (nodeEndpoint hub0Node) 0 2
     let s := modLedg hub0Node fun x => { x with
       exts := [((0, 2), ⟨.closing, 3, 1, 10, 500, true⟩)], newest := 1,
       maps := [(1, { (default : CompMap) with buckets := [(lineBucket l, (7, 0))] })] }
     (extentSt s 0 2).scrubbing = true ∧ extentBuffers s 0 2 = [] ∧ s.ledg.pubs = [] ∧ s.ledg.dir = [] ∧ s.ledg.moves = [] ∧ lineHome s 1 l = some (7, 0) ∧ isOwn s 7 = false) ∧
    (let s := modLedg hub0Node fun x => { x with pendEpoch := 4 }
     s.ledg.pendEpoch ≠ 0 ∧ s.ledg.previous = 0) ∧
    (let s := setMsgs hub0Node [(3, { reqMsg .attend [] with phase := .waitEpoch })]
     (msgOf s 3).map (·.phase) = some .waitEpoch) ∧
    (sliceSt hub0Node 3).unitSt = .inService ∧ hub0Node.ledg.verify = [] ∧
    (sliceSt (modSlice hub0Node 3 fun y => { y with unitSt := .verifying }) 3).unitSt = .verifying ∧
    (hubSt (modHub hub0Node 0 fun y => { y with unitSt := .verifying }) 0).unitSt = .verifying ∧
    hub0Node.life.nodeUnit = .inService := by
  and_intros <;> decide +kernel

/-- The second half of a slice's SRAM. -/
def winOff : Nat := sramOff + 0x2000000
/-- No structure stands there: the command area lies in the first. -/
theorem plain_place (s : State) (k x : Nat) (h : x < 0x1000000) (hk : k < 32) : placeAt s (dieBase k + (winOff + x)) = none := by
  have h1 : (dieBase k + (winOff + x)) / 2 ^ 42 = k := by unfold dieBase winOff sramOff; omega
  have h2 : (dieBase k + (winOff + x)) % 2 ^ 42 = winOff + x := by unfold dieBase winOff sramOff; omega
  have h3 : ¬ 32 ≤ k := by omega
  have h4 : ¬ 2 * sramOff ≤ winOff + x := by unfold winOff sramOff; omega
  have h5 : sramOff ≤ winOff + x := by unfold winOff; omega
  have h6 : inArray (winOff + x - sramOff) (Config.placeOf 5 0 * 16 % 0x1000000) 256 64 = none := by
    unfold inArray
    rw [if_neg]
    unfold winOff
    omega
  simp only [placeAt, h1, h2, if_neg h3, if_neg h4, if_pos h5, h6]
  rfl
/-- A range there is plain. -/
theorem plain_range (s : State) (k x n : Nat) (h : x + n + 16 < 0x1000000) (hk : k < 32) : PlainRange s k (winOff + x) n := by
  unfold PlainRange recordIn
  rw [List.any_eq_false]
  intro i hi
  have hi := List.mem_range.mp hi
  have h1 : (dieBase k + (winOff + x)) / 16 * 16 + 16 * i = dieBase k + (winOff + (x / 16 * 16 + 16 * i)) := by
    unfold dieBase winOff sramOff; omega
  rw [h1, plain_place s k _ _ hk]
  · simp
  · unfold ceilDiv at hi
    have : (dieBase k + (winOff + x)) % 16 = x % 16 := by unfold dieBase winOff sramOff; omega
    rw [this] at hi
    omega
/-- A command slot that runs for tenant 3 with one window over 64 KiB of slice SRAM. -/
def cmd0 : CmdSlot :=
  { freeCmd with state := .running, tenant := 3, laneMask := 1, windows := [⟨winOff, 65536, 1, true, true⟩] }
/-- A node whose slice 0 runs a segment of slot 2, lane 0 active, after a change of the lane. -/
def laneNode (f : Machine.Lane → Machine.Lane) : State :=
  modEng hub0Node 0 fun d => { d with
    slots := [(2, cmd0)], cur := some 2, segment := true,
    lanes := (List.range 16).map fun n => (n, if n = 0 then f lane0 else { lane0 with active := false }) }
/-- The test of OnlyLane. -/
def onlyLane (s : State) (k i n : Nat) : Bool :=
  (dillOf s k).segment && decide ((dillOf s k).cur = some i) && decide (n < 16) && (laneAt s k n).active &&
    (List.range 16).all fun m => decide (m = n) || ! (laneAt s k m).active
/-- Its dispatcher has no scan to write a slot for. -/
theorem wit_lane_issue (f : Machine.Lane → Machine.Lane) : issueHeld (laneNode f) 0 = laneNode f ∧ (laneNode f).merge.held = [] :=
  ⟨rfl, rfl⟩
/-- Witnesses of LanesComputeScalars. -/
theorem wit_lanes :
    onlyLane (laneNode id) 0 2 0 = true ∧ ((dillOf (laneNode id) 0).slots.map (·.1)).Nodup ∧ (laneAt (laneNode id) 0 0).loads = [] ∧
    (laneAt (laneNode id) 0 0).crc = (laneAt (laneNode id) 0 0).sget 4 ∧
    (laneAt (laneNode fun l => { l with crc := 5#32 }) 0 0).crc ≠ (laneAt (laneNode fun l => { l with crc := 5#32 }) 0 0).sget 4 ∧
    (laneAt (laneNode fun l => { l with loads := [⟨0, 0, 16, winOff, true⟩] }) 0 0).loads = [⟨0, 0, 16, winOff, true⟩] ∧
    (laneNode id).mem.chk = [] ∧ saluRes 8 5#32 0xFFFFFFFF#32 = some 0xFFFFFFFF#32 ∧ saluRes 6 1#32 32#32 = none ∧
    sfpuRes 0 0x3F800000#32 0x3F800000#32 = some 0x40000000#32 := by
  and_intros <;> decide +kernel

/-- Witness of LanesLoadAndStore: a window takes the records of a REMIT, however many the geometry word stands for. -/
theorem wit_remit (n : Nat) (h : n ≤ 16768) : permitted (laneNode id) 0 cmd0 true winOff n = true := by
  have h0 : spans (laneNode id) 0 cmd0 true = [(winOff, 65536)] := rfl
  have h1 : rangeExists (laneNode id) 0 winOff n = true := by
    have h2 : (winOff + n ≤ sramOff + 2 ^ 26) := by unfold winOff; omega
    have h3 : sramOff ≤ winOff := by unfold winOff; omega
    simp only [rangeExists, if_pos (show 0 < 32 by decide), decide_eq_true h2, decide_eq_true h3, Bool.and_true, Bool.or_true, Bool.true_or]
  simp only [permitted, h0, h1]
  cases n with
  | zero => rfl
  | succ n =>
    have h2 : spanCover 2 [(winOff, 65536)] winOff (winOff + (n + 1)) = true := by
      rw [spanCover, if_neg (by omega)]
      simp [spanCover]; omega
    simp only [List.length_cons, List.length_nil]
    rw [h2]; rfl
/-- A lane whose a0 points to the window and whose PB0 has been loaded. -/
def laneFull (l : Machine.Lane) : Machine.Lane :=
  { l with a := [(0, BitVec.ofNat 48 winOff)], pb := (List.range 16).map fun i => ((0, i), 7#8) }
/-- Witnesses of LanesLoadAndStore. -/
theorem wit_loads :
    (let s := laneNode laneFull
     let l := laneAt s 0 0
     let f : FmtM := ⟨0, false, false, 0, 1, 0, 0#16⟩
     onlyLane s 0 2 0 = true ∧ l.loads = [] ∧ mAddr l f % 16 = 0 ∧ f.boff16 * 16 + f.len16 * 16 ≤ bufSize f.buf ∧
     permitted s 0 cmd0 false (mAddr l f) 16 = true ∧ permitted s 0 cmd0 true (mAddr l f) 16 = true ∧
     (l.bufGet 0 0 16).isSome = true ∧ (l.aget 0 + (16#32).setWidth 48).toNat % 16 = 0 ∧
     permitted s 0 cmd0 true (l.aget 0 + (16#32).setWidth 48).toNat 4 = true ∧
     (l.aget 0 + (4#32).setWidth 48).toNat % 16 ≠ 0) ∧
    (let s := laneNode fun l => { l with a := [(0, 8#48)] }
     mAddr (laneAt s 0 0) ⟨0, false, false, 0, 1, 0, 0#16⟩ % 16 ≠ 0 ∧ permitted s 0 cmd0 true 16 16 = false) := by
  and_intros <;> decide +kernel

/-- The first n bytes of PB0, all written with 7. -/
def fullPb : Nat → Assoc (Nat × Nat) Byte
  | 0 => []
  | n + 1 => ((0, n), 7#8) :: fullPb n
/-- Byte i of PB0 is the 7 that fullPb wrote. -/
theorem fullPb_get {n i : Nat} (h : i < n) : Sys2Proof.aget (fullPb n) (0, 0 + i) = some 7#8 := by
  induction n with
  | zero => omega
  | succ n ih =>
    by_cases hi : n = i
    · simp [fullPb, Sys2Proof.aget, hi]
    · simp only [fullPb, Sys2Proof.aget]
      rw [if_neg (by simp; omega)]
      exact ih (by omega)
/-- Gathering bytes of PB0 at places below m gives one 7 for each place. -/
theorem fullPb_gather (m : Nat) : ∀ places : List Nat, (∀ i ∈ places, i < m) →
    (places.mapM fun i => Sys2Proof.aget (fullPb m) (0, 0 + i)) = some (places.map fun _ => 7#8)
  | [], _ => rfl
  | i :: places, below => by
    rw [List.mapM_cons, fullPb_get (below i List.mem_cons_self),
      fullPb_gather m places fun j hj => below j (List.mem_cons_of_mem i hj)]
    rfl
/-- A lane whose PB0 holds m bytes. -/
def laneWide (m : Nat) (l : Machine.Lane) : Machine.Lane :=
  { l with pb := fullPb m, a := [(0, BitVec.ofNat 48 sramOff)] }
/-- Any operand of up to that many bytes can be read. -/
theorem laneWide_get (m n : Nat) (h : n ≤ m) : ∃ b, (laneWide m lane0).bufGet 0 0 n = some b := by
  unfold Machine.Lane.bufGet Machine.Lane.pbGet
  simp only [if_pos (show 0 < 2 by decide)]
  exact ⟨_, fullPb_gather m (List.range n) fun i hi => Nat.lt_of_lt_of_le (List.mem_range.mp hi) h⟩
/-- Witness of LanesAttend: one token's operands of at most 256 elements, whatever the geometry word stands for. -/
theorem wit_operands (src aux : Nat) (hs : src ≤ 1024) (ha : aux ≤ 1024) :
    ∃ p q, Operands (laneWide 1024 lane0) ⟨1, 0, 0, 0, 4, false⟩ src aux p q := by
  obtain ⟨p, hp⟩ := laneWide_get 1024 src hs
  obtain ⟨q, hq⟩ := laneWide_get 1024 aux ha
  refine ⟨p, q, rfl, ?_, ?_, by decide, hp, hq⟩ <;> simp [bufSize, b2n] <;> omega
/-- The operands of every format fit in that. -/
theorem wit_operand_sizes (l : Machine.Lane) : 1 * (2 * l.geo.d) ≤ 1024 ∧ 1 * (l.geo.d / 32 * 2) ≤ 1024 ∧ 2 * l.geo.d + 2 ≤ 1024 := by
  have h : l.geo.d ≤ 256 := by unfold Machine.Lane.geo; exact Nat.min_le_right _ _
  omega
/-- Witness of LanesAttend: the one active lane, whatever it holds. -/
theorem wit_wide (f : Machine.Lane → Machine.Lane) : laneAt (laneNode f) 0 0 = f lane0 := rfl
/-- Witness of LanesAttend: it is the only one. -/
theorem wit_only (f : Machine.Lane → Machine.Lane) (h : (f lane0).active = true) : onlyLane (laneNode f) 0 2 0 = true := by
  have h1 : laneAt (laneNode f) 0 0 = f lane0 := rfl
  simp only [onlyLane, h1, h]
  rfl
/-- Witness of LanesAttend: RMERGE of two sets of at most eight heads, where a geometry word stands for so many. -/
theorem wit_rmerge (l : Machine.Lane) (h : (Config.geometry l.geom).g ≤ 8) :
    recSize true l.geo.d * (0 + 2 * l.geo.g) ≤ bufSize 4 := by
  have hd : l.geo.d ≤ 256 := Nat.min_le_right _ _
  have hg : l.geo.g ≤ 8 := Nat.le_trans (Nat.min_le_left _ _) h
  have h1 : recSize true l.geo.d ≤ 1048 := by simp [recSize]; omega
  calc _ ≤ 1048 * (0 + 2 * 8) := Nat.mul_le_mul h1 (by omega)
    _ = bufSize 4 := by decide

/-- The lane node with a loop of two iterations open. -/
def loopNode (left : Nat) : State :=
  modEng (laneNode fun l => { l with lc := [(1, 2)], s := [(5, 3#32)] }) 0 fun d => { d with loops := [⟨1, 7, left⟩] }
/-- Witnesses of CommandsRunAndEnd. -/
theorem wit_control :
    (dillOf (loopNode 2) 0).lanes.map (·.1) = List.range 16 ∧ ((dillOf (loopNode 2) 0).slots.map (·.1)).Nodup ∧
    onlyLane (loopNode 2) 0 2 0 = true ∧ loopCount (loopNode 2) 0 0 5 = 3 ∧ loopCount (loopNode 2) 0 1 5 = 0 ∧
    (dillOf (loopNode 2) 0).loops = [⟨1, 7, 2⟩] ∧ inDeadLoop (dillOf (loopNode 2) 0) = false ∧
    inDeadLoop (dillOf (loopNode 0) 0) = true ∧ (laneAt (loopNode 2) 0 0).sget 4 = 0#32 ∧
    (cmdOf (dillOf (loopNode 2) 0) 5).state = .free ∧ (loopNode 2).merge.held = [] ∧
    (cmdOf (dillOf (modCmd (loopNode 2) 0 5 fun c => { c with state := .queued }) 0) 5).state = .queued ∧
    (cmdOf (dillOf (modCmd (loopNode 2) 0 5 fun c => { c with state := .done }) 0) 5).state = .done := by
  and_intros <;> decide +kernel
/-- Its dispatcher has no scan to write a slot for. -/
theorem wit_loop_issue (n : Nat) : issueHeld (loopNode n) 0 = loopNode n := rfl
/-- Witnesses of CommandsRunAndEnd: a scan that waits for the slot a release frees. -/
theorem wit_held :
    (let slots := [(2, cmd0), (5, { cmd0 with state := .done })]
     let s := modMerge (modEng (ctxNode (ctxOne [] []) []) 0 fun d => { d with segment := true, cur := some 2, slots := slots })
       fun y => { y with held := [⟨1, 0, 0, none⟩] }
     (dillOf s 0).segment = true ∧ (cmdOf (dillOf s 0) 5).state = .done ∧ s.merge.held = [⟨1, 0, 0, none⟩] ∧
     aget s.merge.ctxs 1 = some (ctxOne [] []) ∧ (msgOf s (ctxOne [] []).msg).isSome = true ∧
     freeCmdSlot (modCmd s 0 5 fun _ => freeCmd) 0 = some 0) := by
  and_intros <;> decide +kernel
/-- Witnesses of CommandsRunAndEnd: the end of a pause lets a command run on. -/
theorem wit_pause :
    (let s := modEng (laneNode id) 0 fun d => { d with segment := false, pause := some 70 }
     let u := modEng (passTo s (dieHub s 0) 70) 0 fun d => { d with pause := none }
     (dillOf s 0).pause = some 70 ∧
     (dillOf s 0).segment = false ∧ laneHeld u 0 = false ∧ pickLane u 0 = some 2) := by
  and_intros <;> decide +kernel

/-- A POOL command of 4096 bytes between two places of slice SRAM without structures that its window covers. -/
def poolCmd (code : Nat) : CmdSlot :=
  { cmd0 with kind := 1, state := .queued,
              params := [(0, BitVec.ofNat 32 code), (1, BitVec.ofNat 32 (winOff % 2 ^ 32)), (2, 256#32),
                         (3, BitVec.ofNat 32 (winOff % 2 ^ 32 + 4096)), (4, 256#32), (5, 4096#32), (7, 1#32)] }
/-- The test of FirstInPool. -/
def firstInPool (s : State) (k i : Nat) (c : CmdSlot) : Bool :=
  (dillOf s k).pool.isNone && decide ((dillOf s k).slots = [(i, c)]) && decide (c.kind = 1) && decide (c.state = .queued) &&
    decide (rget s .dill_pool_en k 0 = 1) && (aget s.life.moving k).isNone &&
    ! poolHeld s k c (cmdArgs c) 0 (min 65536 (cmdArgs c).len) && decide ((cmdArgs c).len = 4096) &&
    (poolCheck s k c (cmdArgs c) 0 (min 65536 (cmdArgs c).len)).isNone
/-- Witnesses of PoolsAndRefreshes. -/
theorem wit_pool :
    (∀ code < 4, firstInPool (modEng hub0Node 0 fun d => { d with slots := [(5, poolCmd code)] }) 0 5 (poolCmd code) = true ∧
      (cmdArgs (poolCmd code)).code = code) ∧
    (let s := laneNode fun l => { l with a := [(0, BitVec.ofNat 48 winOff), (1, BitVec.ofNat 48 (winOff + 4096))], s := [(5, 64#32), (6, 2#32)] }
     ∀ code < 4, (poolCheck s 0 cmd0 (laneArgs (laneAt s 0 0) ⟨0, 1, 5, 6, 0, 1⟩ code 0) 0 64).isNone = true ∧
       (laneArgs (laneAt s 0 0) ⟨0, 1, 5, 6, 0, 1⟩ code 0).len = 64) ∧
    (dillOf (laneNode id) 0).segment = true ∧ (dillOf hub0Node 0).pool = none ∧
    (dillOf hub0Node 0).segment = false := by
  and_intros <;> decide +kernel
/-- Witnesses of PoolsAndRefreshes: ranges without structures, and a pseudo-channel in self-refresh. -/
theorem wit_pool_plain (s : State) (n m : Nat) (hn : n ≤ 65536) (hm : m ≤ 65536) :
    PlainRange s 0 winOff n ∧ PlainRange s 0 (winOff + 4096) m ∧
    7 ∈ (stackSt (modStack hub0Node 0 fun x => { x with selfRef := [7] }) 0).selfRef :=
  ⟨plain_range s 0 0 n (by omega) (by omega), plain_range s 0 4096 m (by omega) (by omega), by decide +kernel⟩
/-- Witness of PoolsAndRefreshes: a command whose range is done. -/
theorem wit_chunk :
    (let s := modEng hub0Node 0 fun d => { d with slots := [(5, poolCmd 1)], pool := some 5, poolDone := 4096, chunk := true }
     (dillOf s 0).pool = some 5 ∧ (dillOf s 0).chunk = true ∧ (cmdArgs (cmdOf (dillOf s 0) 5)).len ≤ (dillOf s 0).poolDone) := by
  and_intros <;> decide +kernel

/-- Witnesses of TemperatureAndPowerSamples. -/
theorem wit_temps : (stackSt State.reset 3).temp < 110 ∧
    (let s := modMem State.reset fun m => { m with stackCtl := [(3, ⟨0, 110, [], [], [], false⟩)] }
     110 ≤ (stackSt s 3).temp ∧ (110 : Int) ≤ 111) ∧ (dillOf State.reset 3).segment = false ∧
    (dieHealth (modDie State.reset 3 fun x => { x with temps := [116, 90, 90, 90] }) 3).temps = [116, 90, 90, 90] := by
  decide

/-- An operator's node with bank 100 of slice 3 on; bank_sel names it. -/
def bankNode : State :=
  rset (modBank (modBank opNode 3 100 fun b => { b with state := .on }) 3 101 fun b => { b with state := .on }) .mem_bank_sel 3 0 100
/-- Witnesses of PatrolRefreshAndBanks. -/
theorem wit_banks : pfSession bankNode = true ∧ rget bankNode .mem_bank_sel 3 0 = 100 ∧ 100 < bankCount 3 ∧
    (bankSt bankNode 3 100).retired = false ∧ (bankSt bankNode 3 100).state = .on ∧ (bankSt bankNode 3 100).request = 0 ∧
    bankInUse bankNode 3 100 = false ∧ segmentUses bankNode 3 100 = false ∧ spareBank bankNode 3 100 = true ∧
    bankInUse (rset bankNode .mem_bank_sel 3 0 2) 3 2 = true ∧ agetD State.reset.mem.chk 0 0 = 0 ∧
    (stackSt State.reset 3).selfRef.contains 63 = false ∧
    (aget (modMem opNode fun m => { m with errs := [(3, [⟨0, false, 0, 0, 3, 0, 0, 0⟩])] }).mem.errs 3).isSome = true := by
  decide +kernel

/-- Witness of a forced RETAIN that waits: a window of the running segment lies in the bank. -/
theorem wit_bank_used : segmentUses (laneNode id) 0 128 = true := by decide +kernel

/-- Witnesses of MarginsCanariesAndDroops. -/
theorem wit_margins :
    (let s := rset State.reset .health_margin_en 0 0 1
     rg s .health_margin_en ≠ 0 ∧ rg s .health_hbm_width_min ≤ min 255 255 ∧ rg s .health_serdes_height_min ≤ min 255 255 ∧
     unitExists 3 65 = true ∧ unitExists 33 7 = true) ∧ 256 + rg State.reset .health_slack_warn ≤ min 0xFFFF 0xFFFF ∧
    rg State.reset .health_droop_mv < 500 ∧ pfSession opNode = true ∧ pfSession State.reset = false := by decide +kernel

/-- The node of an operator whose port 0 is up, with die_sel and the PF's stream requirement. -/
def latchNode (die need : Nat) : State :=
  rset (rset portNode .health_die_sel 0 0 die) .port_fn_ide_required 0 0 need
/-- Witnesses of LatchedReads. -/
theorem wit_latch : rg (latchNode 0 0) .health_die_sel < 40 ∧ 40 ≤ rg (latchNode 63 0) .health_die_sel ∧
    portTakes (latchNode 0 0) 0 = true ∧ ideOk (latchNode 0 0) 0 0 none = true ∧ portTakes (latchNode 0 1) 1 = false ∧
    portTakes (latchNode 0 1) 0 = true ∧ ideOk (latchNode 0 1) 0 0 none = false ∧ sessionOn (latchNode 0 0) (.pcie 0 0) = true ∧
    sessionOn (modTrust (latchNode 0 0) fun x => { x with sessions := [] }) (.pcie 0 0) = false ∧
    pfSession opNode = true := by decide +kernel

/-- Hub 0 lives with one row in its index. -/
def idxNode : State :=
  let s := modLife State.reset fun l => { l with hubs := [(0, ⟨0, 0, .inService, 0, true, true⟩)] }
  let b := homeBlock s 0 1 7
  modChive s fun c => { c with shadow := [((0, b * 16 + 3), ⟨7, 1, 0, 5⟩)], cam := [((0, b * 16 + 3), ⟨7, 1, 0, 5⟩)],
                               scan := [(0, [0])], ovf := [((0, 5), [(0, ⟨9, 5, 0, 1⟩)])] }
/-- Witnesses of IndexRowsAreKept. -/
theorem wit_index : hubAlive idxNode 0 = true ∧ overflowed idxNode 0 1 = false ∧
    idxNode.chive.retired.contains (0, homeBlock idxNode 0 1 8) = false ∧
    (blockRows idxNode.chive.shadow 0 (homeBlock idxNode 0 1 8)).length < 15 ∧
    ((blockRows idxNode.chive.shadow 0 (homeBlock idxNode 0 1 8)).all fun p => ! rowIs 1 8 p.2) = true ∧
    ((blockRows idxNode.chive.shadow 0 (homeBlock idxNode 0 1 7)).find? fun p =>
      rowIs 1 7 p.2 && decide (p.2.prio = 0)) = some (3, ⟨7, 1, 0, 5⟩) ∧ agetD idxNode.chive.scan 0 [] = [0] := by
  decide +kernel

/-- Witness of the scan: a sealed keyed page whose row has room, one that is not sealed, and a header that cannot be read. -/
theorem wit_scan : (let go := fun (h : Hdr) (chk : Assoc Nat Nat) => modMem (poke idxNode 0 h.bytes) fun m =>
      { m with slots := [(0, ⟨1, 5, .page, 1⟩)], chk := chk }
    let h : Hdr := { (default : Hdr) with sealed := true, keyed := true, tenant := 5 }
    let s := go h []
    agetD s.chive.scan 0 [] = [0] ∧ (aget s.mem.slots 0).isSome = true ∧
    (loadHdr (scanned s 0 []) 0 readUnit).2.map (fun x => (x.sealed, x.keyed)) = some (true, true) ∧
    (loadHdr (scanned (go default []) 0 []) 0 readUnit).2.map (fun x => x.sealed && x.keyed) = some false ∧
    (loadHdr (scanned (go default [(0, 0x11)]) 0 []) 0 readUnit).2.isNone = true ∧
    (let r := pageRow h 0
     otFind s 0 clsPrefix r.key = [] ∧ overflowed s 0 clsPrefix = false ∧
     s.chive.retired.contains (0, homeBlock s 0 clsPrefix r.key) = false ∧
     (blockRows s.chive.shadow 0 (homeBlock s 0 clsPrefix r.key)).length < 15 ∧
     ((blockRows s.chive.shadow 0 (homeBlock s 0 clsPrefix r.key)).all fun p => ! rowIs clsPrefix r.key p.2) = true)) := by
  decide +kernel

/-- Witnesses of IndexUpkeep. -/
theorem wit_index_upkeep : rget (rset idxNode .chive_scrub_en 0 0 1) .chive_scrub_en 0 0 = 1 ∧
    (let s := modChive idxNode fun c => { c with ovf := [((0, 5), [(chiveHash 5 9 % otBuckets idxNode 0 5, ⟨9, 5, 0, 1⟩)])] }
     otFind s 0 5 9 ≠ [] ∧ s.chive.retired.contains (0, homeBlock s 0 5 9) = false ∧
     (blockRows s.chive.shadow 0 (homeBlock s 0 5 9)).length + (otFind s 0 5 9).length ≤ 15) := by decide +kernel

/-- The PF's slot 5 with the body of a record: APPEND, 64 bytes of payload in host memory. -/
def slotNode : State :=
  modSlot portNode 0 0 5 fun x =>
    { x with body := (List.range 56).zip (leBytes 1 1 ++ leBytes 1 (Opcode.code .append) ++ zeros 1 ++ leBytes 1 0x40 ++ zeros 20 ++
        leBytes 4 64 ++
        leBytes 4 64 ++ zeros 24) }
/-- Witnesses of CommandSlotWrites: the record, its repeat, and a busy slot. -/
theorem wit_slots :
    (let s := slotNode
     let c := recordAt s 0 0 5 0x10001
     takesTlp s 0 0 none = true ∧ (hostSlot s 0 0 5).busy = false ∧ ringOn s 0 0 0 = true ∧ c.valid = true ∧
     c.seq = (hostSlot s 0 0 5).expected ∧ Opcode.ofCode c.opcode = some .append ∧ c.inl = false ∧ c.length = 64 ∧
     cmdFail s 0 0 c (cmdMsg s 0 0 5 c .append []) (decide (Opcode.append ≠ .attend) && decide (Opcode.append ≠ .read)) = none ∧
     cmdOpen s .append = true ∧ now s 0 / 1000 ≤ agetD s.traf.refillAt 0 0 ∧
     (profOf s 0 (rget s .port_fn_profile 0 0)).on = false ∧
     (profOf s 0 (rget s .port_fn_profile 0 0)).minClass ≤ c.cls ∧ queueLen s 0 < queueMax ∧
     (recordAt s 0 0 5 0x1FFFF).seq = seqBefore (hostSlot s 0 0 5).expected) ∧
    (let s := modSlot portNode 0 0 5 fun x => { x with busy := true }
     takesTlp s 0 0 none = true ∧ (hostSlot s 0 0 5).busy = true) := by decide +kernel

/-- A command of the PF waits for its payload, and ring 3 of the PF holds a message back. -/
def waitNode : State :=
  let m : Msg := { (cmdMsg slotNode 0 0 5 (recordAt slotNode 0 0 5 0x10001) .mgmt []) with phase := .waitPayload }
  modHost (setMsgs slotNode [(4, m)]) fun h => { h with rings := [((0, 0, 3), ⟨0, true, some 9, true⟩)] }
/-- Witnesses of HostPortEvents. -/
theorem wit_port_events :
    (let m : Msg := { (cmdMsg slotNode 0 0 5 (recordAt slotNode 0 0 5 0x10001) .mgmt []) with phase := .waitPayload }
     let m' := { m with payload := zeros 64, phase := .arrived }
     msgOf waitNode 4 = some m ∧ m.phase = .waitPayload ∧ (zeros 64).length = m.payLen ∧
     respShort (payloadArrived waitNode 4 m') m' = false ∧ (nine (payloadArrived waitNode 4 m') 4 m' true).2 = .pass) ∧
    (ringOf waitNode 0 0 3).held = true ∧ portUp waitNode 0 = true ∧ takesTlp waitNode 0 0 none = true ∧
    ringOn waitNode 0 0 1 = false ∧ waitNode.power.rails = true ∧ waitNode.power.perst.length = 2 ∧
    waitNode.power.pcieUp.length = 2 ∧ waitNode.power.pcieLink.length = 2 ∧ (hubSt waitNode 0).up = true ∧
    rget waitNode .fn_ring_vector 0 3 < msixCount waitNode 0 0 := by decide +kernel

/-- The PF's window 2 of an enabled port onto a region of slice 3's SRAM, whose scratch it reads and writes. -/
def winRegion : Region :=
  { (default : Region) with kind := rkScratch, state := 1, read := true, write := true, length := 4096, gen := 1,
                            target := 3 * 2 ^ 42 + 2 ^ 40 + 2 ^ 25 }
/-- A region of page space of the same slice. -/
def bufRegion : Region := { winRegion with kind := rkBuffer, target := 3 * 2 ^ 42 }
/-- The node of that window, after a change of the slice. -/
def winNode (x : Region) (g : SliceSt → SliceSt) : State :=
  modSlice (rset (rset (modRegn portNode fun g => { g with regions := [(1, x)] }) .fn_win_enable 0 2 1) .fn_win_key 0 2 257) 3 g
/-- What a check of a window access comes to: the index, the region and whether its stack retrains, or the status. -/
def winRun (s : State) (write : Bool) (a : AccHdr) : Except Status (Nat × Bool × Bool) :=
  match winCheck s 0 0 write a with
  | (v, .ok (i, r)) => .ok (i, decide (regionOf v i = some r), rangeRetrains v r a.offset a.length)
  | (_, .error st) => .error st
/-- Witnesses of DirectWindows: accesses that pass, that wait, that a check refuses, a slice out of reach, and a function that needs
its stream. -/
theorem wit_windows :
    (let s := winNode winRegion id
     portTakes s 0 = true ∧ ideOk s 0 0 none = true ∧ rget s .fn_win_enable 0 2 ≠ 0 ∧
     (match winRun s false (winAcc s 0 0 2 16 64) with
      | .ok x => decide (x = (1, true, false))
      | .error _ => false) = true ∧
     (match winRun s true (winAcc s 0 0 2 16 64) with
      | .ok x => decide (x = (1, true, false))
      | .error _ => false) = true ∧
     (match (readRange s winRegion (winAcc s 0 0 2 16 64).offset 64).2 with
      | .ok b => decide (b = zeros 64)
      | .error _ => false) = true ∧
     (match winRun s false (winAcc s 0 0 2 4096 1) with
      | .ok _ => false
      | .error st => decide (st = .bounds)) = true ∧
     ideOk (rset s .port_fn_ide_required 0 0 1) 0 0 none = false) ∧
    (let s := modLedg (winNode bufRegion fun x => { x with st := 1 }) fun y => { y with exts := [((3, 0), ⟨.assigned, 0, 1, 0, 0, false⟩)] }
     (match winRun s false (winAcc s 0 0 2 16 64), winRun s true (winAcc s 0 0 2 16 64) with
      | .ok x, .ok y => decide (x = (1, true, true)) && decide (y = (1, true, true))
      | _, _ => false) = true) ∧
    (let s := winNode winRegion fun x => { x with unitSt := .quarantined }
     (match checkKey s 257 0 with
      | .ok (i, r) => decide (i = 1) && tlpStale s r 16 64
      | .error _ => false) = true) := by
  and_intros <;> decide +kernel

/-- A node whose journal is mounted, with one record held and one in the page being filled. -/
def jrnlNode : State :=
  modJrnl (modLife State.reset fun l => { l with hubs := [(0, ⟨0, 0, .inService, 0, true, true⟩)] }) fun j =>
    { j with held := [⟨2, [], 5, 1, 1, 0, 0⟩],
             flash := { j.flash with mounted := true, nBlocks := 64, spares := [9], logBlocks := [0, 1, 2, 3], ring := [4, 5],
                                     fill := [⟨2, [], 4, 1, 1, 0, 7⟩] }, nextSeq := 8 }
/-- Witnesses of JournalPagesAndBlocks. -/
theorem wit_journal : journalPath jrnlNode = true ∧ jrnlNode.jrnl.dropped = [] ∧ nandHub jrnlNode = some 0 ∧
    oldestHeld jrnlNode 0 = some ⟨2, [], 5, 1, 1, 0, 0⟩ ∧
    jrnlNode.jrnl.flash.fillLen + (⟨2, [], 5, 1, 1, 0, 0⟩ : JRec).length ≤ 4096 ∧
    jrnlNode.jrnl.flash.fill = [⟨2, [], 4, 1, 1, 0, 7⟩] ∧ jrnlNode.jrnl.flash.headPage + 1 < 64 ∧
    jrnlNode.jrnl.flash.hasRole 4 = true ∧ 4 ≠ jrnlNode.jrnl.flash.log 2 ∧ 9 ∈ jrnlNode.jrnl.flash.spares := by
  decide +kernel
/-- A full page is waiting. -/
theorem wit_page_full : pageFull (modJrnl jrnlNode fun j =>
    { j with held := [⟨2, zeros 4070, 5, 1, 1, 0, 0⟩] }) = true := by decide +kernel

/-- Witnesses of JournalWindowAndMeters: a record asked for and held, one not held, and sessions. -/
theorem wit_window :
    (let s := modHost (modJrnl jrnlNode fun j => { j with flash := { j.flash with pages := [((4, 0), [⟨2, [], 4, 1, 1, 0, 0⟩])] } })
        fun h => { h with jrStatus := 1 }
     s.host.jrStatus = 1 ∧ s.jrnl.flash.mounted = true ∧ (nandHub s).isSome = true ∧
     pageWith s.jrnl.flash (jrSeq s) = some (4, 0) ∧
     (s.jrnl.flash.recs.find? fun x => decide (x.seq = jrSeq s)) = some ⟨2, [], 4, 1, 1, 0, 0⟩ ∧
     s.jrnl.flash.eccCap = 0 ∧ journalPath s = true) ∧
    pfSession State.reset = false ∧ (nandHub jrnlNode) = some 0 ∧
    (let s := modHost State.reset fun h => { h with jrStatus := 1 }
     s.host.jrStatus = 1 ∧ pageWith s.jrnl.flash (jrSeq s) = none) ∧
    pfSession (modTrust jrnlNode fun x => { x with sessions := [⟨1, .pcie 0 0, 0, [], [], [], true, 0, 0, 0⟩] }) = true := by
  decide +kernel

/-- Witnesses of InputsReachLimits: reset, and supplies present. -/
theorem wit_inputs : State.reset.power.vsb33 = false ∧
    (let s := modPower State.reset fun p => { p with vsb33 := true, vin48 := true }
     s.power.vsb33 = true ∧ s.power.vin48 = true ∧ s.power.railFault = false ∧ s.power.trip = none) ∧
    (let s := modPower State.reset fun p => { p with vsb33 := true }
     s.power.vsb33 = true ∧ s.power.vin48 = false) ∧
    (let s := modPower State.reset fun p => { p with vsb33 := true, vin48 := true, railFault := true }
     s.power.railFault = true) ∧
    (let s := modPower State.reset fun p => { p with vsb33 := true, vin48 := true, trip := some (3, 126) }
     s.power.trip ≠ none) := by decide

/-- Witnesses of LossOfPowerAndReset. -/
theorem wit_power_loss : (modPower State.reset fun p => { p with rails := true }).power.rails = true ∧
    State.reset.power.rails = false ∧ (modPower State.reset fun p => { p with diesOut := true }).power.diesOut = true ∧
    State.reset.power.diesOut = false := by decide

/-- Witnesses of ThrottleAndDrainLands. -/
theorem wit_lands :
    (let s := modLife (modPower State.reset fun p => { p with vsb33 := true, drainArmed := true, diesOut := true })
        fun l => { l with node := 2 }
     s.power.vsb33 = true ∧ s.power.drainArmed = true ∧ s.power.diesOut = true ∧ s.life.node = 2 ∧
     (dillOf s 3).segment = false) ∧
    (let s := modDill (modPower State.reset fun p => { p with diesOut := true }) fun d =>
        { d with eng := [(5, { dillOf State.reset 5 with segment := true })] }
     (dillOf s 5).segment = true ∧ s.power.diesOut = true) ∧
    (let s := modPower State.reset fun p => { p with vsb33 := true, drainArmed := true }
     s.power.vsb33 = true ∧ s.power.drainArmed = true ∧ s.power.diesOut = false) ∧
    (let s := modLife (modPower State.reset fun p => { p with vsb33 := true }) fun l => { l with node := 3 }
     s.power.vsb33 = true ∧ s.power.drainSoft = false ∧ s.life.node = 3 ∧ s.life.op = none) ∧
    (let s := modPower State.reset fun p => { p with vsb33 := true }
     s.power.vsb33 = true ∧ s.life.node ≠ 3 ∧ s.power.drainArmed = false) := by decide

/-- Witnesses of TestPortShiftsOut: a powered package in and out of reset. -/
theorem wit_tap :
    (let s := modPower State.reset fun p => { p with rails := true, resetLow := true }
     s.power.rails = true ∧ s.power.resetLow = true ∧ bit1 (tapOf s 3).linktest.toNat 12 = false ∧
     bit1 (tapOf s 3).hbmloop.toNat 12 = false ∧ unitExists 3 ((66 : BitVec 64).toNat % 256) = true ∧
     (0x103F : BitVec 64).toNat % 256 < 64) ∧
    (modPower State.reset fun p => { p with rails := true }).power.resetLow = false ∧ State.reset.power.rails = false := by
  decide

/-- An operator's node whose lc_target is a die, after a change of the lifecycle's state. -/
def liveNode (d : Nat) (f : LifeSt → LifeSt) : State := rset (modLife opNode f) .life_lc_target 0 0 d
/-- Witnesses of LiveOperationsRun. -/
theorem wit_live :
    (pfSession (liveNode 3 id) = true ∧ (liveNode 3 id).life.op = none ∧ rg (liveNode 3 id) .life_lc_target = 3) ∧
    pfSession hub0Node = false ∧ (sliceSt (liveNode 3 id) 3).st = 0 ∧
    (pickSubst (liveNode 3 id) 3).isSome = true ∧
    (sliceSt (modSlice (liveNode 3 id) 3 fun x => { x with st := 3 }) 3).st = 3 ∧
    ((hubSt (liveNode 32 id) 0).st = 0 ∧ (hubSt (liveNode 32 id) 0).up = true ∧ failoverBusy (liveNode 32 id) 0 = true) ∧
    (let s := liveNode 33 fun l => { l with hubs := (List.range 8).map fun h => (h, ⟨0, 0, .inService, 0, true, true⟩) }
     rg s .life_lc_target = 33 ∧ (hubSt s 1).st = 0 ∧ (hubSt s 1).up = true ∧ failoverBusy s 1 = false ∧
     (hubSt s 1).ref25 = true) ∧
    (liveNode 3 fun l => { l with node := 2 }).life.node = 2 ∧
    (let s := liveNode 3 fun l => { l with op := some ⟨1, 3, false, 0, [], 3⟩ }
     s.life.op = some ⟨1, 3, false, 0, [], 3⟩ ∧ s.life.retrainDue = [] ∧ (dillOf s 3).pool = none) := by
  and_intros <;> decide +kernel

/-- Witnesses of DiesAndLinksAreLost. -/
theorem wit_lost :
    linkExists 0 32 = true ∧ linkUp hub0Node 0 32 = true ∧ decodeSyn (wordSyn 0 0) = .clean ∧
    decodeSyn (wordSyn 0x10 0) = .corrected 1 1 ∧ decodeSyn (wordSyn 0x31 0) = .uncorrectable ∧
    (linkOf (modLink hub0Node 0 32 fun l => { l with pending := true, fails := 2 }) 0 32).fails = 2 ∧
    (hubSt hub0Node 0).up = true ∧ (hubSt hub0Node 0).st = 0 ∧ (hubSt hub0Node 1).up = false ∧
    (let s := modLife (modHub hub0Node 0 fun x => { x with st := 3 }) fun l => { l with op := some ⟨6, 32, false, 0, [], 1⟩ }
     (hubSt s 0).up = true ∧ (hubSt s 0).st = 3 ∧ s.life.op = some ⟨6, 32, false, 0, [], 1⟩) ∧
    (sliceSt hub0Node 3).st ≠ 5 ∧ hub0Node.life.op = none := by
  and_intros <;> decide +kernel

/-- A node whose hub 0 runs a Lovage of term 4, after a change. -/
def lovNode (f : Lovage → Lovage) : State :=
  modLov hub0Node 0 fun x => f { x with booted := true, term := 4, cands := [0], votes := [1, 2, 3, 4] }
/-- Witnesses of PrimaryIsElected. -/
theorem wit_elect :
    lovRuns (lovNode id) 0 = true ∧ (lovOf (lovNode id) 0).term = 4 ∧ lovRuns hub0Node 0 = false ∧
    (lovOf (lovNode fun x => { x with standing := true }) 0).standing = true ∧
    (lovOf (lovNode fun x => { x with isPrimary := true }) 0).isPrimary = true ∧ (lovOf (lovNode id) 0).isPrimary = false ∧
    (lovOf (lovNode fun x => { x with backoff := true }) 0).backoff = true ∧
    (lovOf (lovNode fun x => { x with waiting := true }) 0).waiting = true ∧
    ((lovOf (lovNode id) 0).cands.filter fun c => (lovOf (lovNode id) c).booted).min? = some 0 ∧
    (lovOf (lovNode id) 0).voted ≠ 4 := by
  and_intros <;> decide +kernel

/-- A node whose port 0's responder answers over its secured session, with one key of stream 1. -/
def ideNode : State :=
  modHost (modLov portNode 0 fun x => { x with booted := true }) fun h => { h with secured := [0], ideKeys := [⟨0, 1, 0, 0, [7#8]⟩] }
/-- Witnesses of PortKeysAndMeasurements. -/
theorem wit_ide :
    spdmOn ideNode 0 = true ∧ spdmOn hub0Node 0 = false ∧ ideKm ideNode 0 = true ∧ ideKm hub0Node 0 = false ∧
    (ideStreams ideNode 0).length < 8 ∧ hasSet ideNode 0 1 0 = true ∧ hasSet ideNode 0 1 1 = false ∧
    (let s := modHost ideNode fun h => { h with ideKeys := (List.range 8).map fun i => ⟨0, i, 0, 0, []⟩ }
     (ideStreams s 0).contains 9 = false ∧ 8 ≤ (ideStreams s 0).length) := by
  and_intros <;> decide +kernel

/-- A node whose legacy port is strapped on, with a credential. -/
def legacyNode : State :=
  modTrust (modPower hub0Node fun p => { p with strap := true }) fun t => { t with psk := some (zeros 32) }
/-- Witness of LegacyPortAnswers: a message with its tag passes, whatever the MAC is. -/
theorem wit_legacy : LegacyOk legacyNode 7 [] (Config.hmac16 (zeros 32) (beBytes 8 7 ++ [])) := by
  refine ⟨by decide +kernel, by decide +kernel, ?_⟩
  have h1 : legacyNode.trust.psk = some (zeros 32) := rfl
  have h2 : legacyNode.trust.legacyMax = 0 := rfl
  have h3 : legacyNode.trust.legacyFloor = 0 := rfl
  simp [legacyPasses, h1, h2, h3]
/-- Witnesses of LegacyPortAnswers: a node without a credential, and one in service. -/
theorem wit_legacy_more :
    legacyPasses (modPower hub0Node fun p => { p with strap := true }) 7 [] [] = false ∧ hubAlive State.reset 0 = false ∧
    (modLife legacyNode fun l => { l with node := 3 }).life.node = 3 ∧ shuttingDown legacyNode = false := by
  and_intros <;> decide +kernel

/-- A node whose hub 0's Lovage is primary, with a MGMT request of an op in the queue. -/
def mgmtNode (op : Nat) (sid : Nat) (body : List Byte) : State :=
  reqNode (modLov hub0Node 0 fun x => { x with booted := true, isPrimary := true })
    .mgmt (beBytes 1 1 ++ beBytes 1 op ++ zeros 2 ++ beBytes 4 sid ++ zeros 8 ++ body)
/-- The test of MgmtReq. -/
def mgmtReq (s : State) (op : Nat) : Bool :=
  match mayStart s 3 .mgmt with
  | some m => decide ((MgmtHdr.parse m.be m.payload).ver = 1) && decide ((MgmtHdr.parse m.be m.payload).op = op) && (primaryLov s).isSome
  | none => false
/-- A pending session 5 on the channel of the requests. -/
def pendingNode (s : State) : State := modTrust s fun t => { t with sessions := [⟨5, .conn 0 9, 0, [], [], [], false, 0, 0, 0⟩] }
/-- Witnesses of ManagementSessionsRun. -/
theorem wit_mgmt :
    (∀ op ∈ mgmtOps, mgmtReq (mgmtNode op 0 []) op = true) ∧
    (let s := mgmtNode opAttest 0 (zeros 32)
     mgmtReq s opAttest = true ∧ (msgOf s 3).map (fun m => m.payload.length) = some 48 ∧ reportsNow s (signerHub s) < 256) ∧
    (let s := mgmtNode opSessionOpen 0 (zeros 57)
     (msgOf s 3).map (fun m => (chanOf m, m.payload.length)) = some (some (.conn 0 9), 73) ∧ s.trust.sessions.length < 4) ∧
    (let s := pendingNode (mgmtNode opSessionAuth 5 (zeros 114))
     (msgOf s 3).map (fun m => (pendingSession s m 5).map (·.id)) = some (some 5)) ∧
    (let s := reqNode hub0Node .mgmt (beBytes 1 1 ++ beBytes 1 opAttest ++ zeros 14)
     (mayStart s 3 .mgmt).isSome = true ∧ primaryLov s = none ∧ s.life.node ≠ 1) ∧
    (sessionOf (pendingNode hub0Node) 5).isSome = true := by
  and_intros <;> decide +kernel

/-- Witnesses of RegisterWordsAreWritten: an operator's words of one field of each access, and a VF's. -/
theorem wit_words :
    (let s := portNode
     takesTlp s 0 0 none = true ∧ takesTlp s 1 0 none = false ∧ takesTlp s 0 3 (some 1) = true ∧ pfSession s = true ∧ primaryPort s = 0 ∧
     barPlace 0 0x4000 = none ∧ barPlace 0 0x100010 = some (.sorrel, 0, 0x10) ∧ barPlace 0 0x21000 = some (.fn, 1, 0) ∧
     fnInst 0 0 ≠ 1 ∧ s.life.job = none) ∧
    (wordParts .sorrel 0x10 5 = [(.sorrel_LATE_DISCARDS, 0, 5)] ∧ (Reg.info .sorrel_LATE_DISCARDS).acc = .w1c) ∧
    (wordParts .sorrel 4 5 = [(.sorrel_contexts_free, 0, 5)]) ∧ (wordParts .sorrel 0 5 = [(.sorrel_default_deadline, 0, 5)]) ∧
    critical 0x12 = false ∧
    (wordParts .ledger 0x14 5).map (fun x => critical x.1.info.cls) = [true] ∧
    (wordParts .life 0x14 3).map (fun x => plainField x.1) = [true] ∧
    (pfSession hub0Node = false ∧ sessionOn hub0Node (.pcie 0 0) = false) := by
  and_intros <;> decide +kernel

/-- Witnesses of SessionsReadAndWriteRegisters: the requests stand, and bodies that name each kind of field. What a request
opens to depends on the session's cipher, which is opaque. -/
theorem wit_session_words :
    mgmtReq (mgmtNode opRegRead 5 (zeros 20)) opRegRead = true ∧ mgmtReq (mgmtNode opRegWrite 5 (zeros 24)) opRegWrite = true ∧
    regOffsetOk (fld false (leBytes 4 0x100010) 0 4) = true ∧ regOffsetOk 2 = false ∧ barPlace 0 0x4000 = none ∧
    barPlace 0 0x100010 = some (.sorrel, 0, 0x10) ∧ wordParts .sorrel 0x10 5 = [(.sorrel_LATE_DISCARDS, 0, 5)] := by
  and_intros <;> decide +kernel

/-- Witnesses of HubsPublishCoarseValues: a hub that holds a counter and the node's blocks, one with other holders, and one
out of service. -/
theorem wit_coarse :
    (let s := bumpBy hub0Node .sorrel_LATE_DISCARDS 0 5000
     hubAlive s 0 = true ∧ hubAlive s 1 = false ∧ isCounter .sorrel_LATE_DISCARDS = true ∧ (s.regs.map (·.1)).Nodup ∧
     holderOf s .sorrel 0 = 0 ∧ holderOf s .sorrel 3 = 3 ∧ dieHub s 0 = 0 ∧ nodeHub s = 0) ∧
    (let s := modLife hub0Node fun l => { l with hubs := l.hubs ++ [(1, ⟨0, 0, .inService, 0, true, true⟩)] }
     hubAlive s 1 = true ∧ nodeHub s ≠ 1) := by
  refine ⟨by decide +kernel, by decide +kernel⟩

/-- Witnesses of DeltasAreCheckedAndCommitted: deltas of a bad format and of a good one, a request, and a delta of one field
that waits on a node with a NAND path. -/
theorem wit_deltas :
    (CfgHdr.parse (zeros 32)).ver ≠ 1 ∧
    (let b := leBytes 1 1 ++ leBytes 1 2 ++ leBytes 1 1 ++ zeros 29 ++ leBytes 1 0x12 ++ zeros 200
     (CfgHdr.parse b).ver = 1 ∧ (CfgHdr.parse b).resv = 0 ∧ (CfgHdr.parse b).kind = 2 ∧ (CfgHdr.parse b).count = 1 ∧
     (cfgEntries b (CfgHdr.parse b)).all (fun e => allClasses.contains e.1) = true ∧ cfgSigned hub0Node b (CfgHdr.parse b) = false) ∧
    mgmtReq (mgmtNode opConfigDelta 5 (zeros 20)) opConfigDelta = true ∧
    (nandHub hub0Node).isSome = true ∧ hub0Node.life.slot ≤ 1 ∧ nandHub State.reset = none ∧
    (let m := { reqMsg .mgmt (beBytes 1 1 ++ beBytes 1 opConfigDelta ++ zeros 15 ++ leBytes 1 1) with origin := .pcie 0 0 0 }
     (MgmtHdr.parse m.be m.payload).op = opConfigDelta ∧
     recoveryOp (modLife hub0Node fun l => { l with node := 1 }) m (MgmtHdr.parse m.be m.payload) = true) := by
  and_intros <;> decide +kernel

/-- A node with operator program 16, of two words. -/
def progNode : State :=
  modDill hub0Node fun d => { d with progs := [(16, ⟨12288, 2, 100, true⟩)], store := [(12288, 5), (12289, 6)] }
/-- A word of HALT, in an image of one instruction. -/
def haltImage : List Byte := leBytes 8 1 ++ leBytes 8 (0x3C * 2 ^ 56)
/-- Witnesses of ProgramsAreLoadedAndFreed. -/
theorem wit_programs :
    imageOk [] = false ∧ imageOk haltImage = true ∧ (match checkImage progNode 17 haltImage with | .ok r => decide (r = (12290, 2, [0x3C * 2 ^ 56])) | .error _ => false) = true ∧
    cmdNames progNode 16 = false ∧ (aget progNode.dill.progs 16).isSome = true ∧ aget progNode.dill.progs 17 = none ∧
    mgmtReq (mgmtNode opProgramLoad 5 (zeros 24)) opProgramLoad = true ∧
    (let s := modEng progNode 0 fun d => { d with slots := [(0, { freeCmd with program := 16, state := .running })] }
     cmdNames s 16 = true) := by
  refine ⟨by decide +kernel, by decide +kernel, ?_, by and_intros <;> decide +kernel⟩
  decide +kernel

/-- Witnesses of FirmwareIsStagedAndActivated: a request, and the slots of nodes with and without a staged bundle. -/
theorem wit_firmware :
    mgmtReq (mgmtNode opFirmware 5 (zeros 24)) opFirmware = true ∧ inactiveSlot hub0Node = some 1 ∧
    inactiveSlot (modLife hub0Node fun l => { l with dieFw := [(3, 1)] }) = none ∧ hub0Node.life.staged = none ∧
    (let s := modLife hub0Node fun l => { l with staged := some 1, bundles := [(1, ⟨[7#8], 2, [], true⟩)] }
     fwSlot s 3 ≠ 1 ∧ aget s.life.moving 3 = none ∧ 3 ∈ namedDies false (leBytes 8 2 ++ leBytes 8 8) ∧ 3 ∈ namedDies true (beBytes 8 2 ++ beBytes 8 8) ∧
     (bundleAt s (fwSlot s 3)).digest ∉ (bundleAt s 1).beside ∧ (bundleAt s (1 - fwSlot s 3)).committed = true) ∧
    (let s := modLife hub0Node fun l => { l with staged := some 0 }
     s.life.moving = [] ∧ ∀ d < 48, fwSlot s d = 0) := by
  and_intros <;> decide +kernel

/-- Witnesses of DiesRestartAndTheNodeStarts. -/
theorem wit_restart :
    (let s := modLife hub0Node fun l => { l with moving := [(3, (1, 1)), (35, (1, 1))] }
     aget s.life.moving 3 = some (1, 1) ∧ aget s.life.moving 35 = some (1, 1) ∧ residents (dillOf s 3) = 0 ∧
     aget s.life.moving 4 = none) ∧
    (let s := modEng hub0Node 3 fun d => { d with slots := [(0, { freeCmd with state := .running })] }
     0 < residents (dillOf s 3) ∧ now s (homeHub s 3) < agetD s.life.moveAt 3 0 + 10000000 ∧ s.merge.held = [] ∧
     (cmdOf (dillOf s 3) 0).kind = 0) ∧
    aget (modLife hub0Node fun l => { l with moving := [(40, (1, 1))] }).life.moving 40 = some (1, 1) ∧
    (let s := modPower State.reset fun p => { p with rails := true, pwrok := true }
     s.power.rails = true ∧ s.power.pwrok = true ∧ s.power.diesOut = false) := by
  and_intros <;> decide +kernel

/-- A record with one value, of maximum 0. -/
def rec1 (l o b : F32) : Rec := ⟨0, 0#32, l, b, 1, 0, [o], false, false, false, false⟩
/-- Witnesses of MergedValuesSaturate: two records whose sums pass FMAX, and two finite ones. -/
theorem wit_merge :
    (rec1 FMAX FMAX ONE).empty = false ∧
    f32inf (mergedSum (rec1 FMAX FMAX ONE) (rec1 FMAX ONE POSINF) FMAX FMAX) = true ∧
    (mergeRec (rec1 FMAX FMAX ONE) (rec1 FMAX ONE POSINF)).b = POSINF ∧
    (mergeRec (rec1 FMAX FMAX ONE) (rec1 FMAX ONE POSINF)).l = FMAX ∧
    f32inf (rec1 ONE ONE ONE).l = false ∧ ((rec1 ONE ONE ONE).o.all fun x => ! f32inf x) = true ∧
    (mergeRec (rec1 ONE ONE ONE) (rec1 ONE ONE ONE)).saturated = false := by
  and_intros <;> decide +kernel

/-- Witnesses of QueryPositionIsShared. -/
theorem wit_qpos :
    (∃ a : Att, a.expQpos = true) ∧ (∃ a : Att, a.expQpos = false) ∧ (∃ d : Desc, d.length = 0) := by
  refine ⟨⟨{ (default : Att) with expQpos := true }, rfl⟩, ⟨{ (default : Att) with expQpos := false }, rfl⟩,
    ⟨{ (default : Desc) with length := 0 }, rfl⟩⟩

/-- Witnesses of PagesTakeTheSmallestSlot: a page's geometry, and a slot for it. -/
theorem wit_slot :
    (desc0.geom).size ≤ 65536 ∧ (allocSlot (homeNode id) 0 3 (slotUnits desc0.geom.cls) .page).isSome = true := by
  refine ⟨by decide +kernel, by decide +kernel⟩

/-- Witnesses of StepRunsTheFrontCommand. -/
theorem wit_step :
    (let s := hub0Node
     s.pending = [] ∧ s.life.op = none ∧ s.life.moving = [] ∧ s.life.retrainDue = [] ∧ s.chive.rebuild = [] ∧ s.life.node ≠ 3 ∧
     s.ledg.reads = [] ∧ s.host.waits = [] ∧ s.merge.held = [] ∧ (hubSt s 0).up = true ∧ (hubSt s 0).ref25 = true ∧ (hubSt s 1).up = false) ∧
    ({ hub0Node with pending := [.retrain] } : State).pending = .retrain :: [] ∧
    ((List.range 32).all fun k => ! (dillOf hub0Node k).segment && (dillOf hub0Node k).pool.isNone &&
      (dillOf hub0Node k).slots.isEmpty) = true ∧ insnOk 0 = false ∧
    (let s := modDill (laneNode id) fun d =>
       { d with progs := [(cmd0.program, ⟨0, 1, 1, true⟩)], store := [(0, 0x3201800089ABCDEF)] }
     (aget s.dill.eng 0).isSome = true ∧ (dillOf s 0).segment = true ∧ (dillOf s 0).pool = none ∧ s.merge.held = [] ∧
     ((dillOf s 0).slots.all fun p => decide (p.2.kind ≠ 1)) = true ∧
     fetched s 0 = some 0x3201800089ABCDEF ∧
     (match execMovi 0 ⟨0, 3, 0, 0, 0x89ABCDEF#32⟩ s with
       | .next t => (laneAt t 0 0).sget 3 == 0x89ABCDEF#32
       | _ => false) = true) := by
  refine ⟨by decide +kernel, rfl, by and_intros <;> decide +kernel⟩

/-- Witness of EveryStepKeepsMemoryCanonical: a canonical state that lists a byte, and a step from it. -/
theorem wit_canonical :
    Memory.wf (setCells hub0Node [(8, 1#8)]).mem.cells = true ∧
    (setCells hub0Node [(8, 1#8)]).pending = [] := ⟨by decide +kernel, rfl⟩

/-- A frame with every field at the top of its range. -/
def topFrame : Frame :=
  { version := 15, loadHint := 15, opcode := 255, flags := 65535, src := 2 ^ 24 - 1, cls := 15, dst := 2 ^ 24 - 1,
    connId := 2 ^ 32 - 1, seq := 2 ^ 32 - 1, ack := 2 ^ 32 - 1, tag := 2 ^ 32 - 1, epoch := 65535, pd := 65535, credit := 65535,
    payLen := 2, segIndex := 65535, segCount := 65535, replyTo := 2 ^ 32 - 1, payload := [1#8, 2#8] }
/-- Witness of FramesRoundTrip: its bytes, with padding, spell it. -/
theorem wit_frame : FrameFits topFrame ∧ Frame.parse (topFrame.bytes ++ zeros 14) = some topFrame := by
  refine ⟨by unfold FrameFits; decide +kernel, by decide +kernel⟩

end Sys2Proof.Tests
end

namespace Sys2Proof.Proofs
open Sys2Proof.Machine Sys2Proof.Laws

/-!
No step undoes what stands (O59), and the state after reset (O57). Laws/Keeps.lean says for each operation and each
command what it never undoes; here the commands are put together, and it is shown that each answers a next state.
-/

/-! ## Outcomes: what answers a next state -/

/-- The outcome is a next state, neither a fault nor a refusal. -/
def IsNext (o : Next) : Prop := ∃ t, o = .next t

theorem IsNext.next (t : State) : IsNext (.next t) := ⟨t, rfl⟩

theorem IsNext.ite {c : Prop} [Decidable c] {o p : Next} (ho : IsNext o) (hp : IsNext p) :
    IsNext (if c then o else p) := by
  split <;> assumption

theorem onLane_isNext (k : Nat) (s : State) (f : State → Nat → State) : IsNext (onLane k s f) := by
  unfold onLane
  dsimp only
  split
  · exact .ite (.next _) (.next _)
  · exact .next _

theorem laneOp_isNext (k : Nat) (s : State) (op : State → CmdSlot → Machine.Lane → LaneRes) :
    IsNext (laneOp k s op) := by
  unfold laneOp
  exact onLane_isNext k s _

theorem poolExec_isNext (k code : Nat) (f : PoolForm) (s : State) : IsNext (poolExec k code f s) := by
  cases f with
  | instr f => exact laneOp_isNext k s _
  | command slot => exact .next _

theorem tapRun_isNext (s : State) (d : Nat) (free : Bool) (f : State → State) : IsNext (tapRun s d free f) := by
  unfold tapRun
  exact .ite (.next _) (.ite (.next _) (.next _))

theorem bankWrite_isNext (die : Die) (req : Nat) (s : State) : IsNext (bankWrite die req s) := by
  unfold bankWrite
  exact .ite (.next _) (.next _)

theorem legacyRun_isNext (s : State) (counter : Nat) (b tag : List Byte) (f : State → State) :
    IsNext (legacyRun s counter b tag f) := by
  unfold legacyRun
  exact .ite (.next _) (.ite (.next _) (.next _))

theorem firmwareRun_isNext (s : State) (msg sub : Nat) (f : State → Msg → Session → List Byte → State) :
    IsNext (firmwareRun s msg sub f) := by
  unfold firmwareRun
  exact sessionRun_next ..

theorem execConfigDelta_isNext (msg : Nat) (s : State) : IsNext (execConfigDelta msg s) := by
  unfold execConfigDelta
  extract_lets bare
  exact .ite (mgmtRun_next ..) (sessionRun_next ..)

theorem sealNamed_isNext (s : State) (msg : Nat) (m : Msg) (a : App) (i : Nat) (d : Desc) :
    IsNext (sealNamed s msg m a i d) := by
  unfold sealNamed
  with_reducible repeat' first
    | exact IsNext.next _
    | split
    | dsimp only

/-! ## Commands -/

/-- The supply input driven above 60 V is the one command that faults (assumption 125). -/
theorem execVin48Valid_fault {mv : Nat} (h : 60000 < mv) (s : State) : execVin48Valid mv s = .fault .outsideLimits :=
  if_pos h

theorem execVin48Valid_isNext {mv : Nat} (h : ¬ 60000 < mv) (s : State) : IsNext (execVin48Valid mv s) := by
  unfold execVin48Valid
  rw [if_neg h]
  exact .ite (.next _) (.next _)

/-- Every command but the supply input's answers a next state. A command is one next state, or one of the shared
runs, or branches into next states only. -/
theorem exec_isNext {i : Instr} (h : ∀ mv, i ≠ .vin48Valid mv) (s : State) : IsNext (exec i s) := by
  cases i <;> dsimp only [exec]
  case vin48Valid mv => exact absurd rfl (h mv)
  -- one next state
  case sequenceDrainComplete | pageDemote | ledgerRead | ledgerPublish | recallAck | recallWaitExpiry |
    leaseExpiry | transferLeaseExpiry | extentDrainExpiry | extentScrubComplete | mapAdopt | epochWaitExpiry |
    linePull | pullTimeout | unitReturn | bucketRefill | commandCancel | powerLevelUpdate | patrolScrubRead |
    hubFailure | chiveInsert | chiveDelete | chiveReplace | overflowReturn | camScrub | blockRebuild |
    prefixRootScan | functionLevelReset | pcieLinkDown | candidate | vote | beacon | retrain | retire | readmit |
    failover | failback | isolateTest | shutdown | localTimeLatch | dieSummaryLatch | meterRecordLatch |
    canaryMeasure | histogramSample | histFlush | journalRecordArrival | journalPageProgram | vsb33Loss |
    vin48Undervoltage | resetAssert | throttleAssert | throttleRelease | ref25Loss | tapReset | ledgerReadResponse |
    ledgerPublishResponse | vsb33Removed =>
    exact .next _
  -- an instruction on every lane, or on the lane engine
  case vld | vst | sld | waitl | cfg | dqdot8 | dqdot4 | dqdot4c | fold | dotbf | bnd | bndr | logit | pmax |
    expacc8 | expacc4 | expaccbf | rmerge | remit | crcchk | salu | sfpu | movi | aadd =>
    delta execVld execVst execSld execWaitl execCfg execDqdot8 execDqdot4 execDqdot4c execFold execDotbf execBnd
      execBndr execLogit execPmax execExpacc8 execExpacc4 execExpaccbf execRmerge execRemit execCrcchk execSalu
      execSfpu execMovi execAadd
    with_reducible exact laneOp_isNext ..
  case sst | loopOpen | endl | brz | halt | yield =>
    delta execSst execLoopOpen execEndl execBrz execHalt execYield
    with_reducible exact onLane_isNext ..
  case pfill | pcopy | pcmp | pred =>
    delta execPfill execPcopy execPcmp execPred
    with_reducible exact poolExec_isNext ..
  -- a run of a test access port, of a bank request, of a frame under the legacy key
  case bypass | idcode | samplePreload | extest | clamp | highz | linktest | hbmloop =>
    delta execBypass execIdcode execSamplePreload execExtest execClamp execHighz execLinktest execHbmloop
    with_reducible exact tapRun_isNext ..
  case bankForceOn | bankForceRetain | bankForceOff | bankAutomatic =>
    delta execBankForceOn execBankForceRetain execBankForceOff execBankAutomatic
    with_reducible exact bankWrite_isNext ..
  case legacyIdentity | legacyHealth | legacyTempPower | legacyDrain | legacyDrainRelease | legacyNodeReset =>
    delta execLegacyIdentity execLegacyHealth execLegacyTempPower execLegacyDrain execLegacyDrainRelease
      execLegacyNodeReset
    with_reducible exact legacyRun_isNext ..
  -- a run of management, of a session, of firmware
  case getCerts | attest | sessionOpen | sessionAuth | tenantView =>
    delta execGetCerts execAttest execSessionOpen execSessionAuth execTenantView
    exact mgmtRun_next ..
  case sessionClose | regRead | regWrite | programLoad | legacyPsk =>
    delta execSessionClose execRegRead execRegWrite execProgramLoad execLegacyPsk
    exact sessionRun_next ..
  case stage | activate | revert | ratify =>
    delta execStage execActivate execRevert execRatify
    with_reducible exact firmwareRun_isNext ..
  case configDelta => exact execConfigDelta_isNext ..
  -- the others branch, and every branch ends in a next state; with them RECALL, whose name no `case` can take
  all_goals
    delta execPlembelFrameReceive execAttend execSliceRecordArrival execQuadrantRecordArrival execQuadrantMergeClose
      execIngressMergeDeadline execPartialContribution execPartialResponse execGroupDeadline execTombstoneExpiry
      execAppendTokens execCreateSeq execForkSeq execForkCommitTimeout execTruncateSeq execSetPattern execDropSeq
      execBindDelta execBulkAppend execSealDeadline execTailSeal execSealRetry execRefCountChange execTailWriteBack
      execTailEvict execPagePromote execReadRegion execWriteRegion execRegisterRegion execRevokeRegion
      execReregisterRegion execRevokeDrainComplete execReadResp execAck execNack execHello execConnectionFill
      execHeartbeat execRtoExpiry execHelloTimeout execCreditStallHeartbeat execAckDelayExpiry execKeepaliveExpiry
      execDeadTimeExpiry execQuietTimeExpiry execSubportLinkUp execSubportLinkDown execKx1 execKx2 execKx3
      execKx1Retry execKxRestart execRekeyIntervalExpiry execOldKeyExpiry execEgressFrameOpportunity
      execGateListCommit execGateListSwitch execGateEntryAdvance execCommandSlotIssue execCommandSlotRelease
      execVldComplete execPoolChunkComplete execRefreshDue execRefreshCatchUp execThrottlePauseEnd execSnapshot
      execSnapshotCopy execStackTempSample execDieTempSample execBankRetainIdle execSelfRefreshEntry execLinkReplay
      execCommandBodyWrite execPayloadReadComplete execCoalesceExpiry execDirectWindowRead execDirectWindowWrite
      execPerstRelease execRingEnable execGetMeasurements execKeyProg execKSetGo execKSetStop execSessionIdleExpiry
      execDeltaCommit execFwReadyTimeout execBeaconSend execBeaconTimeout execVoteWaitExpiry execCandidacyTimeout
      execLovageMeasuredBoot execBankTest execClassFieldWrite execRegisterWrite execErrPop execClearMin
      execJournalRecordLoad execJournalRecordLoaded execCensusEntryClear execMarginMeasure execSerdesMarginReport
      execDroopEvent execMeterSample execCoarsePublish execCoarsePublishSecond execJournalFlushExpiry
      execNandProgramFail execVsb33Valid execRailsInRegulation execRailFault execResetRelease execDrainEvent
      execDrainRearm execFinalWrite execSliceFailure execProgramFree execSecuredSession execDieReady
      execCandidacyBackoffExpiry execStackRetrainComplete execSealReq execRecall
    with_reducible repeat' first
      | exact IsNext.next _
      | exact sealNamed_isNext ..
      | split
      | dsimp only

/-- Every command keeps what Laws/Keeps.lean says, by the lemma of its own meaning. -/
theorem exec_keeps {a s : State} (i : Instr) (h : Keeps a s) : KeepsN a (exec i s) :=
  match i with
  | .plembelFrameReceive hub f => execPlembelFrameReceive_keeps hub f s h
  | .attend msg => execAttend_keeps msg s h
  | .sliceRecordArrival ctx slice => execSliceRecordArrival_keeps ctx slice s h
  | .quadrantRecordArrival ctx quad => execQuadrantRecordArrival_keeps ctx quad s h
  | .quadrantMergeClose ctx quad => execQuadrantMergeClose_keeps ctx quad s h
  | .ingressMergeDeadline ctx => execIngressMergeDeadline_keeps ctx s h
  | .partialContribution msg => execPartialContribution_keeps msg s h
  | .partialResponse msg => execPartialResponse_keeps msg s h
  | .groupDeadline hub key => execGroupDeadline_keeps hub key s h
  | .tombstoneExpiry hub key => execTombstoneExpiry_keeps hub key s h
  | .appendTokens msg => execAppendTokens_keeps msg s h
  | .createSeq msg => execCreateSeq_keeps msg s h
  | .forkSeq msg => execForkSeq_keeps msg s h
  | .forkCommitTimeout msg => execForkCommitTimeout_keeps msg s h
  | .truncateSeq msg => execTruncateSeq_keeps msg s h
  | .setPattern msg => execSetPattern_keeps msg s h
  | .dropSeq msg => execDropSeq_keeps msg s h
  | .bindDelta msg => execBindDelta_keeps msg s h
  | .sequenceDrainComplete desc => execSequenceDrainComplete_keeps desc s h
  | .bulkAppend msg => execBulkAppend_keeps msg s h
  | .sealReq msg => execSealReq_keeps msg s h
  | .sealDeadline msg => execSealDeadline_keeps msg s h
  | .tailSeal slice => execTailSeal_keeps slice s h
  | .sealRetry slice => execSealRetry_keeps slice s h
  | .refCountChange slice => execRefCountChange_keeps slice s h
  | .tailWriteBack tail => execTailWriteBack_keeps tail s h
  | .tailEvict tail => execTailEvict_keeps tail s h
  | .pagePromote lpn => execPagePromote_keeps lpn s h
  | .pageDemote lpn => execPageDemote_keeps lpn s h
  | .readRegion msg => execReadRegion_keeps msg s h
  | .writeRegion msg => execWriteRegion_keeps msg s h
  | .registerRegion msg => execRegisterRegion_keeps msg s h
  | .revokeRegion msg => execRevokeRegion_keeps msg s h
  | .reregisterRegion msg => execReregisterRegion_keeps msg s h
  | .revokeDrainComplete index => execRevokeDrainComplete_keeps index s h
  | .readResp msg => execReadResp_keeps msg s h
  | .ledgerRead msg => execLedgerRead_keeps msg s h
  | .ledgerPublish msg => execLedgerPublish_keeps msg s h
  | .recall msg => execRecall_keeps msg s h
  | .recallAck msg => execRecallAck_keeps msg s h
  | .recallWaitExpiry hub line sharer => execRecallWaitExpiry_keeps hub line sharer s h
  | .leaseExpiry line => execLeaseExpiry_keeps line s h
  | .transferLeaseExpiry hub line => execTransferLeaseExpiry_keeps hub line s h
  | .extentDrainExpiry slice extent => execExtentDrainExpiry_keeps slice extent s h
  | .extentScrubComplete slice extent => execExtentScrubComplete_keeps slice extent s h
  | .mapAdopt => execMapAdopt_keeps s h
  | .epochWaitExpiry msg => execEpochWaitExpiry_keeps msg s h
  | .linePull hub line => execLinePull_keeps hub line s h
  | .pullTimeout hub line => execPullTimeout_keeps hub line s h
  | .unitReturn unit => execUnitReturn_keeps unit s h
  | .ack msg => execAck_keeps msg s h
  | .nack msg => execNack_keeps msg s h
  | .hello msg => execHello_keeps msg s h
  | .connectionFill conn => execConnectionFill_keeps conn s h
  | .heartbeat msg => execHeartbeat_keeps msg s h
  | .rtoExpiry conn => execRtoExpiry_keeps conn s h
  | .helloTimeout conn => execHelloTimeout_keeps conn s h
  | .creditStallHeartbeat conn => execCreditStallHeartbeat_keeps conn s h
  | .ackDelayExpiry conn => execAckDelayExpiry_keeps conn s h
  | .keepaliveExpiry conn => execKeepaliveExpiry_keeps conn s h
  | .deadTimeExpiry conn => execDeadTimeExpiry_keeps conn s h
  | .quietTimeExpiry conn => execQuietTimeExpiry_keeps conn s h
  | .subportLinkUp hub sub peerMac => execSubportLinkUp_keeps hub sub peerMac s h
  | .subportLinkDown hub sub => execSubportLinkDown_keeps hub sub s h
  | .kx1 hub sub frame => execKx1_keeps hub sub frame s h
  | .kx2 hub sub frame => execKx2_keeps hub sub frame s h
  | .kx3 hub sub frame => execKx3_keeps hub sub frame s h
  | .kx1Retry hub sub => execKx1Retry_keeps hub sub s h
  | .kxRestart hub sub => execKxRestart_keeps hub sub s h
  | .rekeyIntervalExpiry hub sub => execRekeyIntervalExpiry_keeps hub sub s h
  | .oldKeyExpiry hub sub => execOldKeyExpiry_keeps hub sub s h
  | .bucketRefill hub => execBucketRefill_keeps hub s h
  | .egressFrameOpportunity hub sub => execEgressFrameOpportunity_keeps hub sub s h
  | .gateListCommit hub => execGateListCommit_keeps hub s h
  | .gateListSwitch hub sub => execGateListSwitch_keeps hub sub s h
  | .gateEntryAdvance hub sub => execGateEntryAdvance_keeps hub sub s h
  | .commandSlotIssue slice slot c => execCommandSlotIssue_keeps slice slot c s h
  | .commandCancel slice slot => execCommandCancel_keeps slice slot s h
  | .commandSlotRelease slice slot => execCommandSlotRelease_keeps slice slot s h
  | .vld slice f => execVld_keeps slice f s h
  | .vldComplete slice lane => execVldComplete_keeps slice lane s h
  | .vst slice f => execVst_keeps slice f s h
  | .sld slice f => execSld_keeps slice f s h
  | .sst slice f => execSst_keeps slice f s h
  | .waitl slice f => execWaitl_keeps slice f s h
  | .cfg slice f => execCfg_keeps slice f s h
  | .dqdot8 slice f => execDqdot8_keeps slice f s h
  | .dqdot4 slice f => execDqdot4_keeps slice f s h
  | .dqdot4c slice f => execDqdot4c_keeps slice f s h
  | .fold slice f => execFold_keeps slice f s h
  | .dotbf slice f => execDotbf_keeps slice f s h
  | .bnd slice f => execBnd_keeps slice f s h
  | .bndr slice f => execBndr_keeps slice f s h
  | .logit slice f => execLogit_keeps slice f s h
  | .pmax slice f => execPmax_keeps slice f s h
  | .expacc8 slice f => execExpacc8_keeps slice f s h
  | .expacc4 slice f => execExpacc4_keeps slice f s h
  | .expaccbf slice f => execExpaccbf_keeps slice f s h
  | .rmerge slice f => execRmerge_keeps slice f s h
  | .remit slice f => execRemit_keeps slice f s h
  | .crcchk slice f => execCrcchk_keeps slice f s h
  | .salu slice f => execSalu_keeps slice f s h
  | .sfpu slice f => execSfpu_keeps slice f s h
  | .movi slice f => execMovi_keeps slice f s h
  | .aadd slice f => execAadd_keeps slice f s h
  | .loopOpen slice f => execLoopOpen_keeps slice f s h
  | .endl slice f => execEndl_keeps slice f s h
  | .brz slice f => execBrz_keeps slice f s h
  | .halt slice f => execHalt_keeps slice f s h
  | .yield slice f => execYield_keeps slice f s h
  | .pfill slice f => execPfill_keeps slice f s h
  | .pcopy slice f => execPcopy_keeps slice f s h
  | .pcmp slice f => execPcmp_keeps slice f s h
  | .pred slice f => execPred_keeps slice f s h
  | .poolChunkComplete slice => execPoolChunkComplete_keeps slice s h
  | .refreshDue slice pc bank => execRefreshDue_keeps slice pc bank s h
  | .refreshCatchUp slice => execRefreshCatchUp_keeps slice s h
  | .throttlePauseEnd slice => execThrottlePauseEnd_keeps slice s h
  | .snapshot msg => execSnapshot_keeps msg s h
  | .snapshotCopy snap => execSnapshotCopy_keeps snap s h
  | .stackTempSample slice temp => execStackTempSample_keeps slice temp s h
  | .dieTempSample die t0 t1 t2 t3 => execDieTempSample_keeps die t0 t1 t2 t3 s h
  | .powerLevelUpdate watts => execPowerLevelUpdate_keeps watts s h
  | .patrolScrubRead die => execPatrolScrubRead_keeps die s h
  | .bankRetainIdle die bank => execBankRetainIdle_keeps die bank s h
  | .selfRefreshEntry slice pc => execSelfRefreshEntry_keeps slice pc s h
  | .linkReplay link word => execLinkReplay_keeps link word s h
  | .hubFailure hub => execHubFailure_keeps hub s h
  | .chiveInsert hub row => execChiveInsert_keeps hub row s h
  | .chiveDelete hub row => execChiveDelete_keeps hub row s h
  | .chiveReplace hub row => execChiveReplace_keeps hub row s h
  | .overflowReturn hub cls key => execOverflowReturn_keeps hub cls key s h
  | .camScrub hub => execCamScrub_keeps hub s h
  | .blockRebuild hub block => execBlockRebuild_keeps hub block s h
  | .prefixRootScan hub => execPrefixRootScan_keeps hub s h
  | .commandBodyWrite port fn slot offset data ide => execCommandBodyWrite_keeps port fn slot offset data ide s h
  | .payloadReadComplete msg r => execPayloadReadComplete_keeps msg r s h
  | .coalesceExpiry port fn ring => execCoalesceExpiry_keeps port fn ring s h
  | .directWindowRead port fn window offset length ide => execDirectWindowRead_keeps port fn window offset length ide s h
  | .directWindowWrite port fn window offset data ide => execDirectWindowWrite_keeps port fn window offset data ide s h
  | .functionLevelReset port fn => execFunctionLevelReset_keeps port fn s h
  | .pcieLinkDown port => execPcieLinkDown_keeps port s h
  | .perstRelease port => execPerstRelease_keeps port s h
  | .ringEnable port fn ring ide => execRingEnable_keeps port fn ring ide s h
  | .getMeasurements port => execGetMeasurements_keeps port s h
  | .keyProg port stream sub set key => execKeyProg_keeps port stream sub set key s h
  | .kSetGo port stream set => execKSetGo_keeps port stream set s h
  | .kSetStop port stream set => execKSetStop_keeps port stream set s h
  | .getCerts msg => execGetCerts_keeps msg s h
  | .attest msg => execAttest_keeps msg s h
  | .sessionOpen msg => execSessionOpen_keeps msg s h
  | .sessionAuth msg => execSessionAuth_keeps msg s h
  | .sessionClose msg => execSessionClose_keeps msg s h
  | .sessionIdleExpiry session => execSessionIdleExpiry_keeps session s h
  | .regRead msg => execRegRead_keeps msg s h
  | .regWrite msg => execRegWrite_keeps msg s h
  | .configDelta msg => execConfigDelta_keeps msg s h
  | .deltaCommit => execDeltaCommit_keeps s h
  | .programLoad msg => execProgramLoad_keeps msg s h
  | .stage msg => execStage_keeps msg s h
  | .activate msg => execActivate_keeps msg s h
  | .revert msg => execRevert_keeps msg s h
  | .ratify msg => execRatify_keeps msg s h
  | .fwReadyTimeout die => execFwReadyTimeout_keeps die s h
  | .legacyPsk msg => execLegacyPsk_keeps msg s h
  | .tenantView msg => execTenantView_keeps msg s h
  | .candidate hub sender term => execCandidate_keeps hub sender term s h
  | .vote hub voter term => execVote_keeps hub voter term s h
  | .beacon hub sender term => execBeacon_keeps hub sender term s h
  | .beaconSend hub => execBeaconSend_keeps hub s h
  | .beaconTimeout hub => execBeaconTimeout_keeps hub s h
  | .voteWaitExpiry hub => execVoteWaitExpiry_keeps hub s h
  | .candidacyTimeout hub => execCandidacyTimeout_keeps hub s h
  | .lovageMeasuredBoot hub => execLovageMeasuredBoot_keeps hub s h
  | .legacyIdentity counter body tag => execLegacyIdentity_keeps counter body tag s h
  | .legacyHealth counter body tag => execLegacyHealth_keeps counter body tag s h
  | .legacyTempPower counter body tag => execLegacyTempPower_keeps counter body tag s h
  | .legacyDrain counter body tag => execLegacyDrain_keeps counter body tag s h
  | .legacyDrainRelease counter body tag => execLegacyDrainRelease_keeps counter body tag s h
  | .legacyNodeReset counter body tag => execLegacyNodeReset_keeps counter body tag s h
  | .retrain => execRetrain_keeps s h
  | .retire => execRetire_keeps s h
  | .readmit => execReadmit_keeps s h
  | .failover => execFailover_keeps s h
  | .failback => execFailback_keeps s h
  | .isolateTest => execIsolateTest_keeps s h
  | .shutdown => execShutdown_keeps s h
  | .bankTest die bank cam faults => execBankTest_keeps die bank cam faults s h
  | .classFieldWrite port fn offset value ide => execClassFieldWrite_keeps port fn offset value ide s h
  | .registerWrite port fn offset value ide => execRegisterWrite_keeps port fn offset value ide s h
  | .localTimeLatch hub port ide => execLocalTimeLatch_keeps hub port ide s h
  | .errPop die => execErrPop_keeps die s h
  | .dieSummaryLatch port ide => execDieSummaryLatch_keeps port ide s h
  | .meterRecordLatch port ide => execMeterRecordLatch_keeps port ide s h
  | .clearMin => execClearMin_keeps s h
  | .journalRecordLoad => execJournalRecordLoad_keeps s h
  | .journalRecordLoaded corrected uncorrectable => execJournalRecordLoaded_keeps corrected uncorrectable s h
  | .censusEntryClear hub entry => execCensusEntryClear_keeps hub entry s h
  | .bankForceOn die => execBankForceOn_keeps die s h
  | .bankForceRetain die => execBankForceRetain_keeps die s h
  | .bankForceOff die => execBankForceOff_keeps die s h
  | .bankAutomatic die => execBankAutomatic_keeps die s h
  | .marginMeasure slice pc width height => execMarginMeasure_keeps slice pc width height s h
  | .serdesMarginReport die unit height => execSerdesMarginReport_keeps die unit height s h
  | .canaryMeasure die index => execCanaryMeasure_keeps die index s h
  | .droopEvent die mv => execDroopEvent_keeps die mv s h
  | .histogramSample die temp core input => execHistogramSample_keeps die temp core input s h
  | .histFlush => execHistFlush_keeps s h
  | .meterSample => execMeterSample_keeps s h
  | .coarsePublish hub => execCoarsePublish_keeps hub s h
  | .coarsePublishSecond hub => execCoarsePublishSecond_keeps hub s h
  | .journalRecordArrival hub => execJournalRecordArrival_keeps hub s h
  | .journalFlushExpiry => execJournalFlushExpiry_keeps s h
  | .journalPageProgram => execJournalPageProgram_keeps s h
  | .nandProgramFail block erase again => execNandProgramFail_keeps block erase again s h
  | .vsb33Valid drainLow => execVsb33Valid_keeps drainLow s h
  | .vsb33Loss => execVsb33Loss_keeps s h
  | .vin48Valid mv => execVin48Valid_keeps mv s h
  | .railsInRegulation => execRailsInRegulation_keeps s h
  | .vin48Undervoltage => execVin48Undervoltage_keeps s h
  | .railFault => execRailFault_keeps s h
  | .resetAssert => execResetAssert_keeps s h
  | .resetRelease strap nand => execResetRelease_keeps strap nand s h
  | .throttleAssert => execThrottleAssert_keeps s h
  | .throttleRelease => execThrottleRelease_keeps s h
  | .drainEvent => execDrainEvent_keeps s h
  | .drainRearm => execDrainRearm_keeps s h
  | .ref25Loss hub => execRef25Loss_keeps hub s h
  | .bypass die => execBypass_keeps die s h
  | .idcode die => execIdcode_keeps die s h
  | .samplePreload die lands preload => execSamplePreload_keeps die lands preload s h
  | .extest die lands => execExtest_keeps die lands s h
  | .clamp die => execClamp_keeps die s h
  | .highz die => execHighz_keeps die s h
  | .linktest die data => execLinktest_keeps die data s h
  | .hbmloop die data => execHbmloop_keeps die data s h
  | .tapReset => execTapReset_keeps s h
  | .finalWrite port fn slot value ide => execFinalWrite_keeps port fn slot value ide s h
  | .sliceFailure slice => execSliceFailure_keeps slice s h
  | .programFree number => execProgramFree_keeps number s h
  | .securedSession port => execSecuredSession_keeps port s h
  | .ledgerReadResponse msg => execLedgerReadResponse_keeps msg s h
  | .ledgerPublishResponse msg => execLedgerPublishResponse_keeps msg s h
  | .dieReady die => execDieReady_keeps die s h
  | .candidacyBackoffExpiry hub => execCandidacyBackoffExpiry_keeps hub s h
  | .vsb33Removed => execVsb33Removed_keeps s h
  | .stackRetrainComplete slice failed => execStackRetrainComplete_keeps slice failed s h

/-! ## Steps -/

theorem step_idle {s : State} (h : s.pending = []) : step s = .next (idle s) := by
  unfold step
  rw [h]

theorem step_command {c : Instr} {rest : List Instr} {s : State} (h : s.pending = c :: rest) :
    step s = exec c { s with pending := rest } := by
  unfold step
  rw [h]

/-- A step takes the front command, and undoes nothing else. -/
theorem step_keeps (s : State) : KeepsN { s with pending := s.pending.drop 1 } (step s) := by
  cases h : s.pending with
  | nil =>
    have hs : { s with pending := List.drop 1 [] } = s := by rw [List.drop_nil, ← h]
    rw [step_idle h, hs]
    exact .next (idle_keeps s (.refl s))
  | cons c rest =>
    rw [step_command h]
    exact exec_keeps c (.refl _)

/-- A step answers a next state, or the front command drives the supply input above 60 V. -/
theorem step_cases (s : State) :
    (∃ t, step s = .next t) ∨
      step s = .fault .outsideLimits ∧ ∃ mv rest, s.pending = .vin48Valid mv :: rest ∧ 60000 < mv := by
  cases h : s.pending with
  | nil => exact .inl ⟨_, step_idle h⟩
  | cons c rest =>
    rw [step_command h]
    by_cases hc : ∃ mv, c = .vin48Valid mv
    · obtain ⟨mv, rfl⟩ := hc
      by_cases hv : 60000 < mv
      · exact .inr ⟨execVin48Valid_fault hv _, mv, rest, rfl, hv⟩
      · exact .inl (execVin48Valid_isNext hv _)
    · exact .inl (exec_isNext (fun mv e => hc ⟨mv, e⟩) _)

/-- Settles O59: each command keeps what stands (`step_keeps`), and a step answers a next state unless the supply input
is driven above 60 V, the limit that the model chooses (assumption 125). -/
theorem noStepUndoesWhatStands : Obligations.NoStepUndoesWhatStands := by
  unfold Obligations.NoStepUndoesWhatStands
  intro s
  obtain ⟨t, ht⟩ | ⟨hf, hv⟩ := step_cases s
  · have k := step_keeps s t ht
    rw [ht]
    exact ⟨k.pending, k.out, k.free, k.ids, k.part, k.boot, k.svn⟩
  · rw [hf]
    exact ⟨rfl, hv⟩

/-! ## The state after reset -/

/-- Nothing is stored under a register at reset, so each reads what its table gives. -/
theorem rget_reset (r : Reg) (i e : Nat) : rget State.reset r i e = r.reset (regInst r i) e := rfl

theorem lovOf_reset (h : Nat) : lovOf State.reset h = Lovage.reset := rfl

theorem hubAlive_reset (h : Nat) : hubAlive State.reset h = false := rfl

theorem now_reset (h : Nat) : now State.reset h = 0 := rfl

/-- The bytes that a map's crc is over do not depend on the crc it holds. -/
theorem kgmBytes_crc (m : KgMap) (x c : Nat) : kgmBytes { m with crc := x } c = kgmBytes m c := rfl

theorem kgmOk_iff (m : KgMap) : kgmOk m = true ↔
    m.ver = 1 ∧ (m.state = 1 ∨ m.state = 2) ∧ m.count = m.entries.length ∧ m.crc = crc32c (kgmBytes m 0) := by
  simp only [kgmOk, Bool.and_eq_true, Bool.or_eq_true, decide_eq_true_eq, and_assoc]

/-- A map as it is written, TESTED or DIRTY, is valid (16_lifecycle.md R380). -/
theorem kgmOk_kgmOf {state : Nat} (h : state = 1 ∨ state = 2) (seq : Nat) (pre : List Byte)
    (es : List (Nat × Nat × Nat × Nat × Nat)) : kgmOk (kgmOf state seq pre es) = true :=
  (kgmOk_iff _).mpr ⟨rfl, h, rfl, congrArg crc32c (kgmBytes_crc ..).symm⟩

theorem factoryMap_tested (seq : Nat) :
    (factoryMap seq).state = 1 ∧ kgmOk (factoryMap seq) = true ∧ (factoryMap seq).entries = Config.factoryEntries :=
  ⟨rfl, kgmOk_kgmOf (.inl rfl) .., rfl⟩

theorem kgm_reset : State.reset.life.kgm = [(0, factoryMap 1), (1, factoryMap 2)] := rfl

/-- Settles O57: State.reset is read field by field; the two known-good maps are factory maps, valid by
`kgmOk_kgmOf`. -/
theorem resetStateIsAsSpecified : Obligations.ResetStateIsAsSpecified := by
  unfold Obligations.ResetStateIsAsSpecified
  have hkgm : ∀ p ∈ State.reset.life.kgm,
      p.2.state = 1 ∧ kgmOk p.2 = true ∧ p.2.entries = Config.factoryEntries := by
    intro p hp
    rw [kgm_reset] at hp
    obtain rfl | rfl : p = (0, factoryMap 1) ∨ p = (1, factoryMap 2) := by simpa using hp
    · exact factoryMap_tested 1
    · exact factoryMap_tested 2
  refine ⟨rfl, rfl, rget_reset, rfl, rfl, rfl, rfl, rfl, rfl, rfl, wf_nil, rfl, ?_, rfl, hkgm,
    rfl, rfl, rfl, rfl, rfl, rfl, ?_⟩
  · exact fun h => by rw [lovOf_reset]; exact ⟨rfl, rfl⟩
  · exact fun h => ⟨hubAlive_reset h, now_reset h⟩

end Sys2Proof.Proofs

namespace Sys2Proof.Proofs
open Sys2Proof.Machine Sys2Proof.Laws

/-!
The loss of links and dies (O41). A hub that is lost first drops its merges and then its connections, and what the node had
asked over them fails. The first two parts show what that cannot undo: a hub's index takes rows of that hub alone
(IndexOnly), and no operation that ends a connection touches a merge or a hub's state (Spares). Then each part of the loss
of a hub, of a link and of a slice has its lemma, from which the statement is put together.
-/

/-! ## What a hub's index takes -/

/-- From s to t only the index and counters of its block have changed, and each new CAM row is one of hub h. -/
structure IndexOnly (h : Nat) (s t : State) : Prop where
  rest : t = { s with chive := t.chive, regs := t.regs }
  rows : ∀ p ∈ t.chive.cam, p ∈ s.chive.cam ∨ p.1.1 = h
  regs : ∀ (r : Reg) (i e : Nat), r.info.blk ≠ .chive → rget t r i e = rget s r i e

theorem mem_aset {κ α : Type} [DecidableEq κ] {k : κ} {v : α} {p : κ × α} :
    ∀ {m : Assoc κ α}, p ∈ aset m k v → p ∈ m ∨ p = (k, v)
  | [], hp => .inr (List.mem_singleton.mp hp)
  | (k', v') :: m, hp => by
    unfold aset at hp
    split at hp
    · rcases List.mem_cons.mp hp with e | e
      · exact .inr e
      · exact .inl (List.mem_cons_of_mem _ e)
    · rcases List.mem_cons.mp hp with e | e
      · exact .inl (e ▸ List.mem_cons_self ..)
      · exact (mem_aset e).imp_left (List.mem_cons_of_mem _)

namespace IndexOnly
variable {h : Nat} {a s t : State}

theorem refl (s : State) : IndexOnly h s s := ⟨rfl, fun _ hp => .inl hp, fun _ _ _ _ => rfl⟩

theorem trans (f : IndexOnly h a s) (g : IndexOnly h s t) : IndexOnly h a t where
  rest := by rw [g.rest, f.rest]
  rows p hp := (g.rows p hp).elim (f.rows p) .inr
  regs r i e hr := (g.regs r i e hr).trans (f.regs r i e hr)

theorem foldl {α : Type} {f : State → α → State} (hf : ∀ s x, IndexOnly h s (f s x)) :
    ∀ (l : List α) (s : State), IndexOnly h s (l.foldl f s)
  | [], s => refl s
  | x :: l, s => (hf s x).trans (foldl hf l (f s x))

theorem bumpBy (f : IndexOnly h a s) {r : Reg} (hr : r.info.blk = .chive) (i n : Nat) :
    IndexOnly h a (bumpBy s r i n) :=
  f.trans ⟨rfl, fun _ hp => .inl hp, fun r' i' e hr' => by
    refine rget_rset_other s _ fun he => hr' ?_
    rw [(Prod.mk.inj he).1, hr]⟩

theorem chiveBump (f : IndexOnly h a s) {r : Reg} (hr : r.info.blk = .chive) (i : Nat) :
    IndexOnly h a (chiveBump s i r) := f.bumpBy hr i 1

/-- A change of the index that leaves the CAM. -/
theorem modChive (f : IndexOnly h a s) {g : ChiveSt → ChiveSt} (hg : (g s.chive).cam = s.chive.cam) :
    IndexOnly h a (modChive s g) :=
  f.trans ⟨rfl, fun _ hp => .inl (hg ▸ hp), fun _ _ _ _ => rfl⟩

theorem setOt (f : IndexOnly h a s) (i cls : Nat) (rows : List (Nat × ChiveRow)) : IndexOnly h a (setOt s i cls rows) :=
  f.modChive rfl

theorem rowWrite (f : IndexOnly h a s) (pos : Nat) (r : Option ChiveRow) : IndexOnly h a (rowWrite s h pos r) := by
  refine f.trans ⟨rfl, fun p hp => ?_, fun _ _ _ _ => rfl⟩
  cases r with
  | none => exact .inl (List.mem_filter.mp hp).1
  | some x => exact (mem_aset hp).imp_right fun e => congrArg (·.1.1) e

theorem ite (c : Prop) [Decidable c] (f : IndexOnly h a s) (g : IndexOnly h a t) :
    IndexOnly h a (if c then s else t) := by split <;> assumption

end IndexOnly

theorem probed_index (s : State) (h cls : Nat) : IndexOnly h s (probed s h cls) :=
  .ite _ ((IndexOnly.refl s).chiveBump rfl h) (.refl s)

/-- A row taken out. -/
theorem delete_index (s : State) (h cls key prio : Nat) : IndexOnly h s (delete s h cls key prio) := by
  unfold delete
  extract_lets block s1
  have hb : IndexOnly h s s1 := ((IndexOnly.refl s).chiveBump rfl h).chiveBump rfl h
  split
  · exact hb.rowWrite _ _
  · have hp := (hb.trans (probed_index s1 h cls)).setOt h cls
      ((otRows (probed s1 h cls) h cls).filter fun p => ! (rowIs cls key p.2 && decide (p.2.prio = prio)))
    exact .ite _ (hp.modChive rfl) hp

/-- A row replaced. -/
theorem replace_index (s : State) (h : Nat) (row : ChiveRow) : IndexOnly h s (replace s h row) := by
  unfold replace
  extract_lets block s1
  have hb : IndexOnly h s s1 := ((IndexOnly.refl s).chiveBump rfl h).chiveBump rfl h
  split
  · exact hb.rowWrite _ _
  · exact (hb.trans (probed_index _ h row.cls)).setOt _ _ _

theorem shiftUp_index (s : State) (h block lo n : Nat) : IndexOnly h s (shiftUp s h block lo n) := by
  induction n generalizing s with
  | zero => exact .refl s
  | succ n ih => exact ((IndexOnly.refl s).rowWrite _ _).trans (ih _)

theorem shiftDown_index (s : State) (h block lo n : Nat) : IndexOnly h s (shiftDown s h block lo n) := by
  induction n generalizing s lo with
  | zero => exact .refl s
  | succ n ih => exact ((IndexOnly.refl s).rowWrite _ _).trans (ih _ _)

theorem insertBlock_index (s : State) (h : Nat) (row : ChiveRow) : IndexOnly h s (insertBlock s h row) := by
  unfold insertBlock
  exact (((IndexOnly.ite _ (shiftUp_index ..) (shiftDown_index ..)).bumpBy rfl h _).rowWrite _ _).chiveBump rfl h

theorem otPlace_index {s t : State} {h cls key : Nat} {group : List ChiveRow} (e : otPlace s h cls key group = some t) :
    IndexOnly h s t := by
  obtain ⟨b, -, rfl⟩ := Option.map_eq_some_iff.mp e
  exact (IndexOnly.refl s).setOt _ _ _

/-- A row entered, or refused. -/
theorem insert_index (s : State) (h : Nat) (row : ChiveRow) : IndexOnly h s (Machine.insert s h row).1 := by
  unfold Machine.insert
  extract_lets block rows mine probes spilt have_ same s1 s2
  have hb : IndexOnly h s s2 := by
    have h1 := (IndexOnly.refl (h := h) s).chiveBump (r := .chive_SEARCHES) rfl h
    exact .ite _ (h1.chiveBump rfl h) h1
  split
  · exact hb
  split
  · exact hb
  split
  · rename_i s3 _ _ _
    refine IndexOnly.chiveBump (s := s3) ?_ rfl h
    unfold s3
    split
    · exact hb.rowWrite _ _
    · exact hb.setOt _ _ _
  split
  · exact hb
  split
  · exact hb.trans (insertBlock_index ..)
  split
  · exact hb.chiveBump rfl h
  · next e =>
    have hf := (hb.trans (otPlace_index e)).modChive (g := fun c =>
      { c with flags := if c.flags.contains (h, row.cls) then c.flags else c.flags ++ [(h, row.cls)] }) rfl
    exact ((hf.trans (.foldl (fun s p => (IndexOnly.refl s).rowWrite _ _) _ _)).chiveBump rfl h).chiveBump rfl h

theorem enterRows_index (s : State) (h : Nat) (rows : List ChiveRow) : IndexOnly h s (enterRows s h rows) :=
  .foldl (fun s r => insert_index s h r) rows s

/-! ## What spares merges and hubs -/

/-- From s to t no merge and no hub has changed. A pair of equations, so that simp rewrites with each lemma below. -/
abbrev Spares (s t : State) : Prop := t.merge = s.merge ∧ t.life.hubs = s.life.hubs

theorem Spares.trans {s t u : State} (h : Spares s t) (g : Spares t u) : Spares s u :=
  ⟨g.1.trans h.1, g.2.trans h.2⟩

/-- The same of the state that an operation gives with a result. -/
theorem Spares.of_eq {α : Type} {s t : State} {p : State × α} {r : α} (h : Spares s p.1) (e : p = (t, r)) : Spares s t := by
  subst e; exact h

@[simp] theorem foldl_spares {α : Type} {f : State → α → State} (hf : ∀ s x, Spares s (f s x)) (l : List α) (s : State) :
    Spares s (l.foldl f s) :=
  ⟨foldl_part (·.merge) (fun s x => (hf s x).1) l s, foldl_part (·.life.hubs) (fun s x => (hf s x).2) l s⟩

/-! ### Registers and device memory -/

@[simp] theorem rmax_spares (s : State) (r : Reg) (i v : Nat) : Spares s (rmax s r i v) := by
  unfold rmax
  split <;> simp [Spares]

@[simp] theorem writeKgm_spares (s : State) (st : Nat) (es : List (Nat × Nat × Nat × Nat × Nat)) :
    Spares s (writeKgm s st es) := by
  unfold writeKgm
  split <;> exact ⟨rfl, rfl⟩

@[simp] theorem kgmAdd_spares (s : State) (die kind unit loc v : Nat) : Spares s (kgmAdd s die kind unit loc v) :=
  writeKgm_spares ..

@[simp] theorem freeHeader_spares (s : State) (a gen : Nat) : Spares s (freeHeader s a gen) := by
  simp [Spares, freeHeader]

@[simp] theorem clearSlot_spares (s : State) (lpn : Nat) : Spares s (clearSlot s lpn) := by
  unfold clearSlot
  split <;> simp [Spares]

theorem allocSram_spares {s t : State} {die tenant n a : Nat} {kind : SramKind}
    (e : allocSram s die tenant n kind = some (t, a)) : Spares s t := by
  unfold allocSram at e
  obtain ⟨u, -, h⟩ := Option.map_eq_some_iff.mp e
  cases h
  simp [Spares]

@[simp] theorem freeSram_spares (s : State) (a : Nat) : Spares s (freeSram s a) := by
  unfold freeSram
  dsimp only
  split
  · exact ⟨rfl, rfl⟩
  · refine Spares.trans (t := modMem s _) ⟨rfl, rfl⟩ (foldl_spares (fun s i => ?_) _ _)
    split <;> simp [Spares]

theorem readWord_spares (s : State) (a reader : Nat) : Spares s (readWord s a reader).1 := by simp [Spares]

@[simp] theorem moveWords_spares : ∀ (n : Nat) (s : State) (src dst : Nat), Spares s (moveWords n s src dst)
  | 0, _, _, _ => ⟨rfl, rfl⟩
  | n + 1, s, src, dst => by
    unfold moveWords
    split
    all_goals
      next e => simp [Spares, moveWords_spares n, (readWord_spares ..).of_eq e]

@[simp] theorem moveRaw_spares (s : State) (src dst n : Nat) : Spares s (moveRaw s src dst n) := by
  unfold moveRaw
  dsimp only
  split <;> simp [Spares]

@[simp] theorem moveHold_spares (s : State) (h : SramHold) : Spares s (moveHold s h) := by
  unfold moveHold
  split
  · exact ⟨rfl, rfl⟩
  · next e => simp [Spares, allocSram_spares e]

@[simp] theorem moveArea_spares (s : State) (die b : Nat) : Spares s (moveArea s die b) := by
  unfold moveArea
  split
  · split
    · exact ⟨rfl, rfl⟩
    · next e => simp [Spares, allocSram_spares e]
  · exact ⟨rfl, rfl⟩

@[simp] theorem retireBank_spares (s : State) (die b : Nat) : Spares s (retireBank s die b) := by
  unfold retireBank
  dsimp only
  split <;> simp [Spares]

@[simp] theorem repairColumn_spares (s : State) (die b col : Nat) : Spares s (repairColumn s die b col) := by
  unfold repairColumn
  dsimp only
  split
  · simp [Spares]
  · simp [Spares, apply_ite]

@[simp] theorem repairRow_spares (s : State) (die off : Nat) : Spares s (repairRow s die off) := by
  simp [Spares, repairRow]

@[simp] theorem mend_spares (s : State) (a : Nat) (fix : Option (Nat × Nat)) : Spares s (mend s a fix) := by
  cases fix with
  | none => exact ⟨rfl, rfl⟩
  | some p =>
    unfold mend repairWord
    dsimp only
    (repeat' split) <;> simp [Spares]

@[simp] theorem loadWords_spares : ∀ (n : Nat) (s : State) (a reader : Nat), Spares s (loadWords n s a reader).1
  | 0, _, _, _ => ⟨rfl, rfl⟩
  | n + 1, s, a, reader => by
    unfold loadWords
    split
    all_goals
      next e => simp [Spares, loadWords_spares n, (readWord_spares ..).of_eq e]

@[simp] theorem load_spares (s : State) (a n reader : Nat) : Spares s (load s a n reader).1 := by
  unfold load
  dsimp only
  split
  · split
    all_goals
      next e => simp [Spares, (loadWords_spares ..).of_eq e]
  · simp [Spares]

@[simp] theorem view_spares (s : State) (a n reader : Nat) : Spares s (view s a n reader).1 := by
  unfold view
  split
  · simp [Spares]
  · split
    all_goals
      next e => simp [Spares, (load_spares ..).of_eq e]

/-! ### Answers, snapshots and slots -/

@[simp] theorem countRefusal_spares (s : State) (hub : Nat) (st : Status) : Spares s (countRefusal s hub st) := by
  unfold countRefusal
  split <;> simp [Spares]

@[simp] theorem answerRead_spares (s : State) (id : Nat) (st : Status) (key : Nat) (data : List Byte) :
    Spares s (answerRead s id st key data) := by
  unfold answerRead
  (repeat' split) <;> simp [Spares]

@[simp] theorem modRegion_spares (s : State) (i : Nat) (f : Region → Region) : Spares s (modRegion s i f) := ⟨rfl, rfl⟩

@[simp] theorem answerSnap_spares (s : State) (x : Snapshot) (got : Except Status (List Byte)) :
    Spares s (answerSnap s x got) := by
  unfold answerSnap leaveRegion
  dsimp only
  split
  · exact ⟨rfl, rfl⟩
  · split <;> simp [Spares]

@[simp] theorem dropSnap_spares (s : State) (snap : Nat) (x : Snapshot) : Spares s (dropSnap s snap x) := by
  unfold dropSnap
  dsimp only
  split <;> exact ⟨rfl, rfl⟩

@[simp] theorem snapshotCopy_spares (s : State) (snap : Nat) : Spares s (snapshotCopy s snap) := by
  unfold snapshotCopy
  split
  · exact ⟨rfl, rfl⟩
  · split
    · exact ⟨rfl, rfl⟩
    · dsimp only
      split <;> simp [Spares]

@[simp] theorem lowerFences_spares (s : State) (a n : Nat) : Spares s (lowerFences s a n) := by
  simp [Spares, lowerFences]

@[simp] theorem freeSlot_spares (s : State) (lpn : Nat) : Spares s (freeSlot s lpn) := by
  simp [Spares, freeSlot]

/-! ### Sequences -/

@[simp] theorem putRoot_spares (s : State) (k i pair : Nat) (r : Root) : Spares s (putRoot s k i pair r) := by
  unfold putRoot setRoot freshRefs
  dsimp only
  split <;> simp [Spares]

@[simp] theorem keepRefs_spares (s : State) (k i pair : Nat) (keep : PageRef → Bool) :
    Spares s (keepRefs s k i pair keep) := by
  unfold keepRefs
  dsimp only
  (repeat' split) <;> simp [Spares]

@[simp] theorem giveRef_spares (s : State) (r : PageRef) : Spares s (giveRef s r) := ⟨rfl, rfl⟩

@[simp] theorem dropTail_spares (s : State) (key : TailKey) : Spares s (dropTail s key) := by
  unfold dropTail
  dsimp only
  (repeat' split) <;> simp [Spares]

@[simp] theorem releaseFrom_spares (s : State) (i : Nat) (d : Desc) (pair p : Nat) :
    Spares s (releaseFrom s i d pair p) := by
  simp [Spares, releaseFrom]

@[simp] theorem dropSeals_spares (s : State) (i p : Nat) : Spares s (dropSeals s i p) := ⟨rfl, rfl⟩

@[simp] theorem modDesc_spares (s : State) (i : Nat) (f : Desc → Desc) : Spares s (modDesc s i f) := ⟨rfl, rfl⟩

@[simp] theorem freeDesc_spares (s : State) (i : Nat) (d : Desc) : Spares s (freeDesc s i d) := by
  simp [Spares, freeDesc, deleteAll]

@[simp] theorem releaseSeq_spares (s : State) (i : Nat) (d : Desc) : Spares s (releaseSeq s i d) := by
  unfold releaseSeq
  dsimp only
  (repeat' split) <;> simp [Spares, apply_ite]

/-! ### The index -/

theorem IndexOnly.spares {h : Nat} {s t : State} (f : IndexOnly h s t) : Spares s t := by
  rw [f.rest]; exact ⟨rfl, rfl⟩

@[simp] theorem insert_spares (s : State) (h : Nat) (row : ChiveRow) : Spares s (Machine.insert s h row).1 :=
  (insert_index s h row).spares

@[simp] theorem replace_spares (s : State) (h : Nat) (row : ChiveRow) : Spares s (replace s h row) :=
  (replace_index s h row).spares

@[simp] theorem enterRows_spares (s : State) (h : Nat) (rows : List ChiveRow) : Spares s (enterRows s h rows) :=
  (enterRows_index s h rows).spares

@[simp] theorem insertAll_spares (hs : List Nat) (row : ChiveRow) (s : State) : Spares s (insertAll s hs row).1 := by
  induction hs generalizing s with
  | nil => exact ⟨rfl, rfl⟩
  | cons h hs ih =>
    unfold insertAll
    split
    · next e =>
      have hi := (insert_spares s h row).of_eq e
      split
      all_goals
        next e' => simpa [Spares] using hi.trans ((ih _).of_eq e')
    · next e => exact (insert_spares s h row).of_eq e

/-! ### Regions -/

@[simp] theorem insertName_spares (s : State) (tenant name prio i gen : Nat) :
    Spares s (insertName s tenant name prio i gen).1 := by
  unfold insertName
  split
  · next e => simpa [Spares] using (insertAll_spares ..).of_eq e
  · exact insertAll_spares ..

@[simp] theorem dropName_spares (s : State) (i : Nat) : Spares s (dropName s i) := by
  unfold dropName
  split
  · exact ⟨rfl, rfl⟩
  · split
    · exact foldl_spares (fun s h => by split <;> simp [Spares]) ..
    · exact ⟨rfl, rfl⟩

@[simp] theorem releaseRegion_spares (s : State) (r : Region) : Spares s (releaseRegion s r) := by
  unfold releaseRegion
  (repeat' split) <;> simp [Spares]

@[simp] theorem answerControl_spares (s : State) (id : Nat) (st : Status) (key count : Nat) :
    Spares s (answerControl s id st key count) := by
  unfold answerControl
  split
  · exact ⟨rfl, rfl⟩
  · dsimp only
    split <;> simp [Spares]

@[simp] theorem measureRevoke_spares (s : State) (r : Region) : Spares s (measureRevoke s r) := by
  unfold measureRevoke
  split <;> simp [Spares]

@[simp] theorem endRevoke_spares (s : State) (i : Nat) (r : Region) : Spares s (endRevoke s i r) := by
  simp [Spares, endRevoke]

@[simp] theorem endReregister_spares (s : State) (i : Nat) (r : Region) (x : RegRec) (m : Nat) :
    Spares s (endReregister s i r x m) := by
  unfold endReregister
  dsimp only
  (repeat' split) <;> simp [Spares]

@[simp] theorem finishRevoke_spares (s : State) (i : Nat) : Spares s (finishRevoke s i) := by
  unfold finishRevoke
  dsimp only
  (repeat' split) <;> simp [Spares]

@[simp] theorem setPhase_spares (s : State) (id : Nat) (p : Phase) : Spares s (setPhase s id p) := by
  unfold setPhase modMsg
  dsimp only
  (repeat' split) <;> simp [Spares]

@[simp] theorem startRevoke_spares (s : State) (i : Nat) (waiter : Option Nat)
    (reReg : Option (List Byte × Nat × Bool)) : Spares s (startRevoke s i waiter reReg) := by
  unfold startRevoke
  dsimp only
  (repeat' split) <;> simp [Spares]

/-! ### Requests of the node's own that end without an answer -/

@[simp] theorem dropHere_spares (s : State) (i : Nat) (d : Desc) : Spares s (dropHere s i d) := by
  unfold dropHere
  dsimp only
  (repeat' split) <;> simp [Spares]

@[simp] theorem dropDest_spares (s : State) (handle : Nat) : Spares s (dropDest s handle) := by
  unfold dropDest endMove
  dsimp only
  (repeat' split) <;> simp [Spares]

/-- A READ that nobody answers gives its transfer up. -/
theorem destRead_none (s : State) (handle : Nat) (data : List Byte) : destRead s handle none data = dropDest s handle := by
  unfold destRead
  split
  · next e => simp [dropDest, e]
  · simp

@[simp] theorem directAnswer_spares (s : State) (id : Nat) : Spares s (directAnswer s id) := by
  unfold directAnswer countPartial
  split
  · exact ⟨rfl, rfl⟩
  · dsimp only
    split <;> simp [Spares]

theorem contribAnswered_spares (s : State) (id : Nat) : Spares s (contribAnswered s id false) := by
  unfold contribAnswered
  split
  · exact ⟨rfl, rfl⟩
  · split
    · exact ⟨rfl, rfl⟩
    · rw [if_pos (by decide)]
      exact directAnswer_spares ..

@[simp] theorem readFailed_spares (s : State) (l : Nat) : Spares s (readFailed s l) := by
  unfold readFailed
  refine Spares.trans (t := modLedg s _) ⟨rfl, rfl⟩ (foldl_spares (fun s p => ?_) _ _)
  unfold refuseNine
  split <;> simp [Spares]

@[simp] theorem askFailed_spares (s : State) (a : Ask) : Spares s (askFailed s a) := by
  unfold askFailed
  split
  · exact contribAnswered_spares ..
  · exact readFailed_spares ..
  · exact ⟨rfl, rfl⟩
  · rw [destRead_none]
    exact dropDest_spares ..
  · exact ⟨rfl, rfl⟩

/-! ### Connections -/

theorem spillOne_spares {s t : State} {h : Nat} (e : spillOne s h = some t) : Spares s t := by
  unfold spillOne at e
  dsimp only at e
  split at e
  · cases e
  · obtain ⟨p, -, rfl⟩ := Option.map_eq_some_iff.mp e
    simp [Spares]

theorem makeRoom_spares {s t : State} {h : Nat} (e : makeRoom s h = some t) : Spares s t := by
  unfold makeRoom at e
  split at e
  · cases e; exact ⟨rfl, rfl⟩
  · exact spillOne_spares e

@[simp] theorem enterConn_spares (s : State) (c : Conn) : Spares s (enterConn s c).1 := by
  unfold enterConn
  split
  · exact ⟨rfl, rfl⟩
  · exact ⟨rfl, rfl⟩
  · next e =>
    have h := makeRoom_spares e
    dsimp only
    split
    all_goals
      next e' => simpa [Spares, h] using (insert_spares ..).of_eq e'

@[simp] theorem openConn_spares (s : State) (h peer : Nat) : Spares s (openConn s h peer).1 := by
  unfold openConn sendHello
  split
  · exact ⟨rfl, rfl⟩
  · dsimp only
    split
    all_goals
      next e =>
        have h := (enterConn_spares ..).of_eq e
        (repeat' split) <;> simpa [Spares] using h

@[simp] theorem ask_spares (s : State) (h peer : Nat) (op : Opcode) (about : Nat) (payload : List Byte) :
    Spares s (ask s h peer op about payload).1 := by
  unfold ask
  extract_lets go
  have hgo : ∀ s id, Spares s (go s id) := by
    intro s id
    unfold go
    dsimp only
    (repeat' split) <;> simp [Spares]
  split
  · exact hgo ..
  · split
    · next e => exact ((openConn_spares ..).of_eq e).trans (hgo ..)
    · next e => exact (openConn_spares ..).of_eq e

@[simp] theorem reissue_spares (s : State) (h : Nat) (c : Conn) : Spares s (reissue s h c) := by
  refine foldl_spares (fun s a => ?_) _ _
  split
  · exact askFailed_spares ..
  · split
    · next e => exact (ask_spares ..).of_eq e
    · next e => exact ((ask_spares ..).of_eq e).trans (askFailed_spares ..)

@[simp] theorem loseConn_spares (s : State) (q id : Nat) (c : Conn) : Spares s (loseConn s q id c) := by
  unfold loseConn
  dsimp only
  split <;> simp [Spares]

@[simp] theorem passConn_spares (s : State) (h id : Nat) (c : Conn) (n : Nat) : Spares s (passConn s h id c n) := by
  simp [Spares, passConn]

@[simp] theorem moveConns_spares (s : State) (q : Nat) (planned : Bool) : Spares s (moveConns s q planned) :=
  foldl_spares (fun s p => by (repeat' split) <;> simp [Spares]) _ _

@[simp] theorem moveMsgs_spares (s : State) (q : Nat) (planned : Bool) : Spares s (moveMsgs s q planned) := ⟨rfl, rfl⟩

/-! ## What a lost hub leaves -/

theorem hubSt_congr {s t : State} (h : t.life.hubs = s.life.hubs) (q : Nat) : hubSt t q = hubSt s q := by
  simp only [hubSt, h]

theorem sliceSt_congr {s t : State} (h : t.life.slices = s.life.slices) (k : Nat) : sliceSt t k = sliceSt s k := by
  simp only [sliceSt, h]

/-- A hub is FAILED_OVER and holds nothing more: HubGone but for the homes of slices. -/
structure HoldsNothing (t : State) (q : Nat) : Prop where
  down   : (hubSt t q).st = 2
  egress : ∀ e ∈ t.traf.egress, e.hub ≠ q
  cam    : ∀ p ∈ t.chive.cam, p.1.1 ≠ q
  ctxs   : ∀ p ∈ t.merge.ctxs, p.2.hub ≠ q
  groups : ∀ g ∈ t.merge.groups, g.hub ≠ q
  copies : ∀ c ∈ t.ledg.copies, c.2.lease.map (·.1) ≠ some q

theorem hubGone_iff (t : State) (q : Nat) :
    HubGone t q ↔ HoldsNothing t q ∧ ∀ k : Slice, (sliceSt t k).home ≠ some q :=
  ⟨fun ⟨d, k, e, c, x, g, l⟩ => ⟨⟨d, e, c, x, g, l⟩, k⟩, fun ⟨⟨d, e, c, x, g, l⟩, k⟩ => ⟨d, k, e, c, x, g, l⟩⟩

namespace HoldsNothing
variable {s t : State} {q : Nat}

theorem congr (f : HoldsNothing s q) (hh : t.life.hubs = s.life.hubs) (ht : t.traf = s.traf)
    (hc : t.chive.cam = s.chive.cam) (hx : t.merge.ctxs = s.merge.ctxs) (hg : t.merge.groups = s.merge.groups)
    (hl : t.ledg.copies = s.ledg.copies) : HoldsNothing t q where
  down := by rw [hubSt_congr hh]; exact f.down
  egress := by rw [ht]; exact f.egress
  cam := by rw [hc]; exact f.cam
  ctxs := by rw [hx]; exact f.ctxs
  groups := by rw [hg]; exact f.groups
  copies := by rw [hl]; exact f.copies

/-- Rows of another hub's index. -/
theorem index {h : Nat} (f : HoldsNothing s q) (g : IndexOnly h s t) (hne : h ≠ q) : HoldsNothing t q where
  down := by rw [g.rest]; exact f.down
  egress := by rw [g.rest]; exact f.egress
  cam p hp := (g.rows p hp).elim (f.cam p) fun e => e ▸ hne
  ctxs := by rw [g.rest]; exact f.ctxs
  groups := by rw [g.rest]; exact f.groups
  copies := by rw [g.rest]; exact f.copies

theorem not_alive (f : HoldsNothing s q) : hubAlive s q = false := by
  simp [hubAlive, f.down]

theorem ne_of_alive (f : HoldsNothing s q) {h : Nat} (ha : hubAlive s h = true) : h ≠ q := by
  rintro rfl
  rw [f.not_alive] at ha
  cases ha

end HoldsNothing

/-! ### Commands of a slice -/

theorem foldl_dill {α : Type} {f : State → α → State} (hf : ∀ s x, f s x = { s with dill := (f s x).dill }) :
    ∀ (l : List α) (s : State), l.foldl f s = { s with dill := (l.foldl f s).dill }
  | [], _ => rfl
  | x :: l, s => by
    rw [List.foldl_cons, foldl_dill hf l (f s x), hf s x]

theorem modCmd_dill (s : State) (k i : Nat) (f : CmdSlot → CmdSlot) :
    modCmd s k i f = { s with dill := (modCmd s k i f).dill } := rfl

/-- Aborting a slice's commands changes the sequencers and which results are held. -/
theorem abortCmds_rest (s : State) (k : Nat) :
    abortCmds s k = { s with dill := (abortCmds s k).dill,
                             merge := { s.merge with held := (abortCmds s k).merge.held } } := by
  unfold abortCmds
  extract_lets s1 mine s2
  have h1 : s1 = { s with dill := s1.dill } := foldl_dill (fun s i => by
    unfold abortCmd
    dsimp only
    split <;> rfl) _ _
  have h2 : s2 = { s1 with dill := s2.dill } := foldl_dill (fun s p => modCmd_dill ..) _ _
  clear_value s2 s1
  rw [h2, h1]
  rfl

@[simp] theorem abortCmds_life (s : State) (k : Nat) : (abortCmds s k).life = s.life := by rw [abortCmds_rest]
@[simp] theorem abortCmds_traf (s : State) (k : Nat) : (abortCmds s k).traf = s.traf := by rw [abortCmds_rest]
@[simp] theorem abortCmds_regs (s : State) (k : Nat) : (abortCmds s k).regs = s.regs := by rw [abortCmds_rest]
@[simp] theorem abortCmds_chive (s : State) (k : Nat) : (abortCmds s k).chive = s.chive := by rw [abortCmds_rest]
@[simp] theorem abortCmds_ledg (s : State) (k : Nat) : (abortCmds s k).ledg = s.ledg := by rw [abortCmds_rest]
@[simp] theorem abortCmds_ctxs (s : State) (k : Nat) : (abortCmds s k).merge.ctxs = s.merge.ctxs := by
  rw [abortCmds_rest]
@[simp] theorem abortCmds_groups (s : State) (k : Nat) : (abortCmds s k).merge.groups = s.merge.groups := by
  rw [abortCmds_rest]

/-! ### Homes -/

theorem dropPrefixRows_index (s : State) (h k : Nat) : IndexOnly h s (dropPrefixRows s h k) :=
  IndexOnly.foldl (fun s (r : ChiveRow) => delete_index s h clsPrefix r.key 0) _ _

/-- The first half of moveHome: a home that carries traffic loses the slice's rows. -/
def leaveHome (s : State) (k : Nat) : Option Nat → State
  | some h => if hubAlive s h then dropPrefixRows s h k else s
  | none => s

/-- The second half of moveHome: the slice has its new home. -/
def takeDest (s : State) (k : Nat) (dest : Option Nat) : State :=
  let t := restampSlice (abortCmds (modSlice s k fun x => { x with home := dest }) k) k
  match dest with
  | some h => modChive t fun c => { c with scan := aupd c.scan h [] fun l => l ++ slicePages t k }
  | none => t

theorem moveHome_same (s : State) (k : Nat) : moveHome s k (sliceSt s k).home = s := if_pos rfl

theorem moveHome_eq {s : State} {k : Nat} {dest : Option Nat} (h : (sliceSt s k).home ≠ dest) :
    moveHome s k dest = takeDest (leaveHome s k (sliceSt s k).home) k dest := by
  unfold moveHome
  exact if_neg h

theorem leaveHome_cases (s : State) (k : Nat) (old : Option Nat) :
    leaveHome s k old = s ∨ ∃ h, hubAlive s h = true ∧ IndexOnly h s (leaveHome s k old) := by
  cases old with
  | none => exact .inl rfl
  | some h =>
    by_cases ha : hubAlive s h = true
    · exact .inr ⟨h, ha, by rw [leaveHome, if_pos ha]; exact dropPrefixRows_index s h k⟩
    · exact .inl (if_neg ha)

theorem leaveHome_life (s : State) (k : Nat) (old : Option Nat) : (leaveHome s k old).life = s.life := by
  obtain e | ⟨h, -, f⟩ := leaveHome_cases s k old
  · rw [e]
  · rw [f.rest]

section
variable (s : State) (k : Nat) (dest : Option Nat)

theorem takeDest_life : (takeDest s k dest).life = (modSlice s k fun x => { x with home := dest }).life := by
  cases dest <;> simp [takeDest, restampSlice]

theorem takeDest_traf : (takeDest s k dest).traf = s.traf := by
  cases dest <;> simp [takeDest, restampSlice]

theorem takeDest_regs : (takeDest s k dest).regs = s.regs := by
  cases dest <;> simp [takeDest, restampSlice]

theorem takeDest_cam : (takeDest s k dest).chive.cam = s.chive.cam := by
  cases dest <;> simp [takeDest, restampSlice]

theorem takeDest_merges :
    (takeDest s k dest).merge.ctxs = s.merge.ctxs ∧ (takeDest s k dest).merge.groups = s.merge.groups := by
  cases dest <;> simp [takeDest, restampSlice]

theorem takeDest_copies : (takeDest s k dest).ledg.copies = s.ledg.copies := by
  cases dest <;> simp [takeDest, restampSlice]

end

theorem sliceSt_moveHome_same (s : State) (k : Nat) (dest : Option Nat) :
    sliceSt (moveHome s k dest) k = { sliceSt s k with home := dest } := by
  by_cases h : (sliceSt s k).home = dest
  · subst h
    rw [moveHome_same]
  · rw [moveHome_eq h, sliceSt_congr (congrArg LifeSt.slices (takeDest_life ..)), sliceSt_modSlice_same,
      sliceSt_congr (congrArg LifeSt.slices (leaveHome_life ..))]

theorem sliceSt_moveHome_other (s : State) {k j : Nat} (hj : j ≠ k) (dest : Option Nat) :
    sliceSt (moveHome s k dest) j = sliceSt s j := by
  by_cases h : (sliceSt s k).home = dest
  · subst h
    rw [moveHome_same]
  · rw [moveHome_eq h, sliceSt_congr (congrArg LifeSt.slices (takeDest_life ..)), sliceSt_modSlice_other _ hj,
      sliceSt_congr (congrArg LifeSt.slices (leaveHome_life ..))]

theorem moveHome_links (s : State) (k : Nat) (dest : Option Nat) : (moveHome s k dest).life.links = s.life.links := by
  by_cases h : (sliceSt s k).home = dest
  · subst h
    rw [moveHome_same]
  · rw [moveHome_eq h, takeDest_life, modSlice_life, leaveHome_life]

theorem rget_moveHome (s : State) (k : Nat) (dest : Option Nat) {r : Reg} (hr : r.info.blk ≠ .chive) (i e : Nat) :
    rget (moveHome s k dest) r i e = rget s r i e := by
  by_cases h : (sliceSt s k).home = dest
  · subst h
    rw [moveHome_same]
  · rw [moveHome_eq h, rget, takeDest_regs]
    obtain el | ⟨h, -, f⟩ := leaveHome_cases s k (sliceSt s k).home
    · rw [el]; rfl
    · exact f.regs r i e hr

theorem HoldsNothing.moveHome {s : State} {q : Nat} (f : HoldsNothing s q) (k : Nat) (dest : Option Nat) :
    HoldsNothing (moveHome s k dest) q := by
  by_cases h : (sliceSt s k).home = dest
  · subst h
    rwa [moveHome_same]
  · have hl : HoldsNothing (leaveHome s k (sliceSt s k).home) q := by
      obtain el | ⟨h, ha, g⟩ := leaveHome_cases s k (sliceSt s k).home
      · rwa [el]
      · exact f.index g (f.ne_of_alive ha)
    rw [moveHome_eq h]
    obtain ⟨hx, hg⟩ := takeDest_merges (leaveHome s k (sliceSt s k).home) k dest
    exact hl.congr (by rw [takeDest_life]; rfl) (takeDest_traf ..) (takeDest_cam ..) hx hg (takeDest_copies ..)

/-- A home that is taken carries traffic. -/
theorem hubAlive_of_pickHome {s : State} {k h : Nat} (e : pickHome s k = some h) : hubAlive s h = true := by
  have ok : ∀ {h}, hubOk s h = true → hubAlive s h = true := by
    intro h ho
    simp only [hubOk, hubAlive, Bool.and_eq_true, decide_eq_true_eq] at ho ⊢
    exact ⟨ho.1, by omega⟩
  unfold pickHome at e
  dsimp only at e
  split at e
  · next hc => cases e; exact ok hc.1
  · split at e
    · next hc => cases e; exact ok hc.1
    · cases e

/-- A slice stays where its home carries traffic, has no home, or takes another. -/
theorem rehome_cases (s : State) (k : Nat) :
    (rehome s k = s ∧ ∀ h, (sliceSt s k).home = some h → hubAlive s h = true) ∨ rehome s k = moveHome s k (pickHome s k) := by
  unfold rehome
  split
  · next e => exact .inl ⟨rfl, fun h eh => by rw [e] at eh; cases eh⟩
  · next h e =>
    split
    · next hc => exact .inl ⟨rfl, fun h' eh => by rw [e] at eh; cases eh; exact hc.1⟩
    · exact .inr rfl

theorem HoldsNothing.rehome {s : State} {q : Nat} (f : HoldsNothing s q) (k : Nat) : HoldsNothing (rehome s k) q := by
  obtain ⟨e, -⟩ | e := rehome_cases s k
  · rwa [e]
  · rw [e]; exact f.moveHome ..

/-- No slice that has looked for a home is homed to a hub that is lost. -/
theorem HoldsNothing.rehome_home {s : State} {q : Nat} (f : HoldsNothing s q) (k : Nat) :
    (sliceSt (Machine.rehome s k) k).home ≠ some q := by
  intro hq
  obtain ⟨e, ha⟩ | e := rehome_cases s k
  · rw [e] at hq
    exact f.ne_of_alive (ha q hq) rfl
  · rw [e, sliceSt_moveHome_same] at hq
    exact f.ne_of_alive (hubAlive_of_pickHome hq) rfl

theorem sliceSt_rehome_other (s : State) {k j : Nat} (hj : j ≠ k) : sliceSt (rehome s k) j = sliceSt s j := by
  obtain ⟨e, -⟩ | e := rehome_cases s k
  · rw [e]
  · rw [e, sliceSt_moveHome_other s hj]

theorem HoldsNothing.foldl_rehome {q : Nat} : ∀ (l : List Nat) {s : State}, HoldsNothing s q →
    HoldsNothing (l.foldl Machine.rehome s) q ∧
      ∀ k, k ∈ l ∨ (sliceSt s k).home ≠ some q → (sliceSt (l.foldl Machine.rehome s) k).home ≠ some q
  | [], _, f => ⟨f, fun k hk => hk.elim (fun h => nomatch h) id⟩
  | j :: l, s, f => by
    obtain ⟨g, hl⟩ := foldl_rehome l (f.rehome j)
    refine ⟨g, fun k hk => hl k ?_⟩
    by_cases hj : k = j
    · subst hj
      exact .inr (f.rehome_home k)
    · rw [sliceSt_rehome_other s hj]
      exact hk.imp_left fun h => (List.mem_cons.mp h).resolve_left hj

theorem HoldsNothing.rehomeAll {s : State} {q : Nat} (f : HoldsNothing s q) : HubGone (rehomeAll s) q := by
  obtain ⟨g, hl⟩ := f.foldl_rehome (List.range 32)
  exact (hubGone_iff _ _).mpr ⟨g, fun k => hl k (.inl (List.mem_range.mpr k.isLt))⟩

/-! ### Directories and ports -/

section
variable {s t : State} {q : Nat}

theorem hubGone_congr (f : HubGone s q) (hh : t.life.hubs = s.life.hubs)
    (hk : t.life.slices = s.life.slices) (ht : t.traf = s.traf) (hc : t.chive.cam = s.chive.cam)
    (hx : t.merge = s.merge) (hl : t.ledg.copies = s.ledg.copies) : HubGone t q := by
  obtain ⟨f, k⟩ := (hubGone_iff s q).mp f
  exact (hubGone_iff t q).mpr ⟨f.congr hh ht hc (by rw [hx]) (by rw [hx]) hl, fun j => by rw [sliceSt_congr hk]; exact k j⟩

/-- The hub that serves a quadrant whose own hub is lost is another. -/
theorem HoldsNothing.quadHub_ne {h : Nat} (f : HoldsNothing s q) (e : quadHub s q = some h) : h ≠ q := by
  unfold quadHub at e
  rw [if_neg (by simp [f.not_alive])] at e
  split at e
  · cases e
    omega
  · cases e

theorem enterHomes_gone (f : HubGone s q) : HubGone (enterHomes s q) q := by
  unfold enterHomes
  split
  · exact f
  · next h e =>
    have hr : HubGone (restampDir s q) q := hubGone_congr f rfl rfl rfl rfl rfl rfl
    obtain ⟨fr, k⟩ := (hubGone_iff _ _).mp hr
    have hi := enterRows_index (restampDir s q) h
      (((restampDir s q).ledg.dir.filter fun p => decide (p.1.1 = q)).map fun p => ⟨p.1.2, clsLedger, 0, p.2.index⟩)
    have hne : h ≠ q := ((hubGone_iff s q).mp f).1.quadHub_ne e
    exact (hubGone_iff _ _).mpr ⟨fr.index hi hne, fun j => by rw [hi.rest]; exact k j⟩

theorem movePorts_gone (f : HubGone s q) (old : Option Nat) : HubGone (movePorts s q old) q := by
  have hp (p : Nat) : HubGone (pcieDown s p) q := hubGone_congr f rfl rfl rfl rfl rfl rfl
  unfold movePorts
  extract_lets s1
  have h1 : HubGone s1 q := by
    unfold s1
    split
    · exact hp 0
    · split
      · exact hp 1
      · exact f
  split
  · exact hubGone_congr h1 rfl rfl rfl rfl rfl rfl
  · exact h1

/-! ### Merges -/

theorem foldl_endCtx_ctxs : ∀ (l : List (Nat × MergeCtx)) (s : State) {p : Nat × MergeCtx},
    p ∈ (l.foldl (fun s p => endCtx s p.1 p.2) s).merge.ctxs → p ∈ s.merge.ctxs ∧ p ∉ l
  | [], _, _, hp => ⟨hp, List.not_mem_nil⟩
  | c :: l, s, p, hp => by
    obtain ⟨hm, hl⟩ := foldl_endCtx_ctxs l _ hp
    obtain ⟨hs, hc⟩ := List.mem_filter.mp (show p ∈ adel s.merge.ctxs c.1 from hm)
    refine ⟨hs, fun h => ?_⟩
    rcases List.mem_cons.mp h with rfl | h
    · simp at hc
    · exact hl h

theorem dropMerges_hubs (s : State) (q : Nat) : (dropMerges s q).life.hubs = s.life.hubs :=
  foldl_part (f := fun s (p : Nat × MergeCtx) => endCtx s p.1 p.2) (·.life.hubs) (fun _ _ => rfl) _ s

theorem dropMerges_ctxs (s : State) (q : Nat) : ∀ p ∈ (dropMerges s q).merge.ctxs, p.2.hub ≠ q := by
  intro p hp hq
  obtain ⟨c, hc, rfl⟩ := List.mem_map.mp (show p ∈ List.map _ _ from hp)
  obtain ⟨hs, hn⟩ := foldl_endCtx_ctxs _ s hc
  exact hn (List.mem_filter.mpr ⟨hs, by simpa using hq⟩)

theorem dropMerges_groups (s : State) (q : Nat) : ∀ g ∈ (dropMerges s q).merge.groups, g.hub ≠ q := by
  intro g hg
  simpa using (List.mem_filter.mp hg).2

/-! ### The loss -/

/-- A FAILED_OVER hub without merges holds nothing once it is cleared and the copies that it timed are gone. -/
theorem holdsNothing_clearHub (hd : (hubSt s q).st = 2) (hc : ∀ p ∈ s.merge.ctxs, p.2.hub ≠ q)
    (hg : ∀ g ∈ s.merge.groups, g.hub ≠ q) :
    HoldsNothing (modLedg (clearHub s q) fun y =>
      { y with copies := y.copies.filter fun c => (c.2.lease.map (·.1)) ≠ some q }) q where
  down := (congrArg HubSt.st (hubSt_congr (s := s) rfl q)).trans hd
  egress e he := by simpa using (List.mem_filter.mp he).2
  cam p hp := by simpa using (List.mem_filter.mp hp).2
  ctxs := hc
  groups := hg
  copies c hc := by simpa using (List.mem_filter.mp hc).2

theorem hubLost_gone (hu : (hubSt s q).up = true) (hst : (hubSt s q).st < 2) : HubGone (hubLost s q) q := by
  unfold hubLost
  rw [if_neg (by simp [hu]), if_neg (by omega)]
  extract_lets old was s1 s2 s3 s4 s5 s6 s7 s8
  have h1 : (hubSt s1 q).st = 2 := by
    unfold s1
    rw [hubSt_modHub_same]
  have h3 : s3.life.hubs = s1.life.hubs := by simp [s3, s2]
  have h5 : Spares s4 s5 := by simp [Spares, s5]
  have hd : (hubSt s5 q).st = 2 := by
    rw [hubSt_congr (h5.2.trans ((dropMerges_hubs s3 q).trans h3)), h1]
  have h7 : HoldsNothing s7 q := holdsNothing_clearHub hd (by rw [h5.1]; exact dropMerges_ctxs s3 q)
    (by rw [h5.1]; exact dropMerges_groups s3 q)
  exact movePorts_gone (enterHomes_gone h7.rehomeAll) old

end

theorem ref25Lost_gone {s : State} {q : Nat} (f : HubGone s q) :
    HubGone (modHub s q fun x => { x with ref25 := false }) q := by
  obtain ⟨g, k⟩ := (hubGone_iff s q).mp f
  exact (hubGone_iff _ q).mpr
    ⟨⟨by rw [hubSt_modHub_same]; exact g.down, g.egress, g.cam, g.ctxs, g.groups, g.copies⟩, k⟩

/-- A hub that no operation works on, or that does not run, is not lost again. -/
theorem hubLost_same {s : State} {q : Nat} (h : (hubSt s q).up = false ∨
    2 ≤ (hubSt s q).st ∧ ∀ o, s.life.op = some o → o.target = 32 + q → o.op ≠ 5 ∧ o.op ≠ 6) : hubLost s q = s := by
  unfold hubLost
  rcases h with h | ⟨h2, ho⟩
  · exact if_pos (by simp [h])
  · split
    · rfl
    · unfold lostAgain
      split
      · rfl
      · next o e =>
        refine if_neg fun hc => ?_
        obtain ⟨h5, h6⟩ := ho o e hc.1
        exact hc.2.elim h5 h6

/-- The loss of a hub under failback or test ends that operation (assumption 38). -/
theorem hubLost_again {s : State} {q : Nat} {o : LiveOp} (hu : (hubSt s q).up = true) (h2 : 2 ≤ (hubSt s q).st)
    (e : s.life.op = some o) (ht : o.target = 32 + q) (ho : o.op = 5 ∨ o.op = 6) :
    (hubLost s q).life.op = none ∧ (hubSt (hubLost s q) q).st = (if (hubSt s q).st = 3 then 2 else (hubSt s q).st) ∧
      (hubLost s q).mem = s.mem := by
  have hl : hubLost s q = lostAgain s q := by
    unfold hubLost
    rw [if_neg (by simp [hu]), if_pos h2]
  have ha : lostAgain s q = dieStateRec (modHub (endOpFree s) q fun x => { x with st := if x.st = 3 then 2 else x.st })
      (32 + q) (hubSt s q).st (if (hubSt s q).st = 3 then 2 else (hubSt s q).st) (endOpFree s).life.lcStatus := by
    unfold lostAgain
    rw [e]
    exact if_pos ⟨ht, ho⟩
  rw [hl, ha]
  unfold dieStateRec
  refine ⟨by simp [endOpFree], ?_, by simp [endOpFree]⟩
  rw [hubSt_congr (congrArg LifeSt.hubs (journal_life ..)), hubSt_modHub_same]
  rfl

/-! ## Links -/

theorem linkOf_congr {s t : State} (h : t.life.links = s.life.links) (a b : Nat) : linkOf t a b = linkOf s a b := by
  simp only [linkOf, h]

theorem linkOf_modLink_same (s : State) (a b : Nat) (f : Link → Link) : linkOf (modLink s a b f) a b = f (linkOf s a b) := by
  simp [linkOf, modLink]

theorem linkOf_modLink_other (s : State) {a b x y : Nat} (e : (x, y) ≠ (a, b)) (f : Link → Link) :
    linkOf (modLink s a b f) x y = linkOf s x y :=
  agetD_aset_other _ e _ _

theorem rehome_links (s : State) (k : Nat) : (rehome s k).life.links = s.life.links := by
  obtain ⟨e, -⟩ | e := rehome_cases s k
  · rw [e]
  · rw [e, moveHome_links]

theorem rehomeAll_links (s : State) : (rehomeAll s).life.links = s.life.links := by
  unfold rehomeAll
  exact foldl_part (·.life.links) rehome_links _ s

theorem rget_rehomeAll (s : State) {r : Reg} (hr : r.info.blk ≠ .chive) (i e : Nat) :
    rget (rehomeAll s) r i e = rget s r i e := by
  have hr' (s : State) (k : Nat) : rget (rehome s k) r i e = rget s r i e := by
    obtain ⟨h, -⟩ | h := rehome_cases s k
    · rw [h]
    · rw [h, rget_moveHome s k _ hr]
  unfold rehomeAll
  exact foldl_part (rget · r i e) hr' _ s

/-- A link that goes down is down in both directions (01_node.md R15). -/
theorem linkDown_down (s : State) (a b : Nat) :
    (linkOf (linkDown s a b) a b).up = false ∧ (linkOf (linkDown s a b) b a).up = false := by
  unfold linkDown
  rw [linkOf_congr (rehomeAll_links _), linkOf_congr (rehomeAll_links _), linkOf_modLink_same]
  refine ⟨?_, rfl⟩
  by_cases e : (a, b) = (b, a)
  · obtain ⟨rfl, -⟩ := Prod.mk.inj e
    rw [linkOf_modLink_same]
  · rw [linkOf_modLink_other _ e, linkOf_modLink_same]

theorem rget_linkDown (s : State) (a b : Nat) {r : Reg} (hr : r.info.blk ≠ .chive) (i e : Nat) :
    rget (linkDown s a b) r i e = rget s r i e := by
  unfold linkDown
  rw [rget_rehomeAll _ hr]
  rfl

/-! ### Counters -/

theorem rget_bump_other (s : State) {r r' : Reg} (h : r' ≠ r) (i j e : Nat) : rget (bump s r i) r' j e = rget s r' j e :=
  rget_rset_other s _ fun he => h (Prod.mk.inj he).1

theorem rget_logErr_other (s : State) (x : ErrRec) {r : Reg} (h : r ≠ .mem_LOG_OVERFLOW) (i e : Nat) :
    rget (logErr s x) r i e = rget s r i e := by
  unfold logErr
  dsimp only
  split
  · exact rget_bump_other s h ..
  · rfl

theorem rget_journal_other (s : State) (h type : Nat) (payload : List Byte) {r : Reg} (hr : r ≠ .health_JOURNAL_DROPS)
    (i e : Nat) : rget (journal s h type payload) r i e = rget s r i e := by
  unfold journal
  dsimp only
  split
  · exact rget_bump_other s hr ..
  · rfl

theorem rget_healthEvent_other (s : State) (die bit value : Nat) {r : Reg} (h1 : r ≠ .health_JOURNAL_DROPS)
    (h2 : r ≠ .health_events) (i e : Nat) : rget (healthEvent s die bit value) r i e = rget s r i e := by
  have hs (v : Nat) : rget (rset (journal s (dieHub s die) 0x21 (leBytes 2 die ++ leBytes 2 bit ++ leBytes 4 value))
      .health_events 0 0 v) r i e = rget s r i e := by
    rw [rget_rset_other _ _ fun he => h2 (Prod.mk.inj he).1, rget_journal_other s _ _ _ h1]
  unfold healthEvent
  dsimp only
  split
  · exact hs _
  · exact hs _

/-! ### LINK_REPLAY -/

/-- A word has arrived: it is delivered, and the replays end. -/
def deliverWord (s : State) (a b v : Nat) : State :=
  modLink s a b fun l => { l with fails := 0, pending := false, words := (BitVec.ofNat 128 v :: l.words).take 256 }

/-- A word has failed: the third replay takes the link down, another asks again. -/
def failWord (s : State) (a b : Nat) : State :=
  if (linkOf s a b).pending = true ∧ 2 ≤ (linkOf s a b).fails then linkDown (modLink s a b fun l => { l with fails := 3 }) a b
  else modLink s a b fun l => { l with fails := if (linkOf s a b).pending then (linkOf s a b).fails + 1 else 0, pending := true }

theorem linkOf_deliverWord (s : State) (a b v : Nat) : linkOf (deliverWord s a b v) a b = { linkOf s a b with
    fails := 0, pending := false, words := (BitVec.ofNat 128 v :: (linkOf s a b).words).take 256 } :=
  linkOf_modLink_same ..

theorem linkOf_failWord_again {s : State} {a b : Nat} (h : ¬ ((linkOf s a b).pending = true ∧ 2 ≤ (linkOf s a b).fails)) :
    linkOf (failWord s a b) a b = { linkOf s a b with
      fails := if (linkOf s a b).pending then (linkOf s a b).fails + 1 else 0, pending := true } := by
  unfold failWord
  rw [if_neg h, linkOf_modLink_same]

theorem linkOf_failWord_down {s : State} {a b : Nat} (hp : (linkOf s a b).pending = true) (hf : 2 ≤ (linkOf s a b).fails) :
    (linkOf (failWord s a b) a b).up = false ∧ (linkOf (failWord s a b) b a).up = false := by
  unfold failWord
  rw [if_pos ⟨hp, hf⟩]
  exact linkDown_down ..

theorem rget_failWord (s : State) (a b : Nat) {r : Reg} (hr : r.info.blk ≠ .chive) (i e : Nat) :
    rget (failWord s a b) r i e = rget s r i e := by
  unfold failWord
  split
  · rw [rget_linkDown _ _ _ hr]
    rfl
  · rfl

section
variable {l : LinkId} {word : BitVec 144} {s : State}

theorem execLinkReplay_stays (h : linkExists l.src l.dst = false ∨ linkUp s l.src l.dst = false) :
    execLinkReplay l word s = .next s := by
  unfold execLinkReplay
  exact if_pos (by simpa using h)

section
variable (he : linkExists l.src l.dst = true) (hu : linkUp s l.src l.dst = true)
include he hu

theorem execLinkReplay_clean (hd : decodeSyn (wordSyn (word.toNat % 2 ^ 128) (word.toNat / 2 ^ 128)) = .clean) :
    execLinkReplay l word s = .next (deliverWord s l.src l.dst (word.toNat % 2 ^ 128)) := by
  unfold execLinkReplay
  dsimp only
  rw [if_neg (by simp [he, hu]), hd]
  rfl

theorem execLinkReplay_corrected {nib err : Nat}
    (hd : decodeSyn (wordSyn (word.toNat % 2 ^ 128) (word.toNat / 2 ^ 128)) = .corrected nib err) :
    ∃ u, execLinkReplay l word s = .next (deliverWord u l.src l.dst (flipNib (word.toNat % 2 ^ 128) nib err)) ∧
      u.life = s.life ∧
      rget u .mem_CORRECTED l.dst 0 = min (rget s .mem_CORRECTED l.dst 0 + 1) (2 ^ Reg.mem_CORRECTED.width - 1) := by
  unfold execLinkReplay
  dsimp only
  rw [if_neg (by simp [he, hu]), hd]
  refine ⟨_, rfl, by simp, ?_⟩
  rw [rget_logErr_other _ _ (by decide)]
  exact rget_bump_same ..

theorem execLinkReplay_uncorrectable
    (hd : decodeSyn (wordSyn (word.toNat % 2 ^ 128) (word.toNat / 2 ^ 128)) = .uncorrectable) :
    ∃ u, execLinkReplay l word s = .next (failWord u l.src l.dst) ∧ u.life = s.life ∧
      rget u .mem_UNCORRECTABLE l.dst 0 =
        min (rget s .mem_UNCORRECTABLE l.dst 0 + 1) (2 ^ Reg.mem_UNCORRECTABLE.width - 1) := by
  unfold execLinkReplay
  dsimp only
  rw [if_neg (by simp [he, hu]), hd]
  refine ⟨_, (apply_ite Host.Outcome.next _ _ _).symm, by simp, ?_⟩
  rw [rget_healthEvent_other _ _ _ _ (by decide) (by decide), rget_journal_other _ _ _ _ (by decide),
    rget_logErr_other _ _ (by decide)]
  exact rget_bump_same ..

end
end

/-! ## What a lost slice leaves -/

theorem sliceSt_setSliceSt_same (s : State) (k st lc : Nat) :
    sliceSt (setSliceSt s k st lc) k = { sliceSt s k with st := st } := by
  unfold setSliceSt dieStateRec
  dsimp only
  split
  · next e => rw [← e]
  · rw [sliceSt_congr (congrArg LifeSt.slices (journal_life ..)), sliceSt_modSlice_same]

theorem sliceSt_setSliceSt_other (s : State) {k j : Nat} (hj : j ≠ k) (st lc : Nat) :
    sliceSt (setSliceSt s k st lc) j = sliceSt s j := by
  unfold setSliceSt dieStateRec
  dsimp only
  split
  · rfl
  · rw [sliceSt_congr (congrArg LifeSt.slices (journal_life ..)), sliceSt_modSlice_other _ hj]

@[simp] theorem setSliceSt_mem (s : State) (k st lc : Nat) : (setSliceSt s k st lc).mem = s.mem := by
  unfold setSliceSt dieStateRec
  dsimp only
  split <;> simp

@[simp] theorem setSliceSt_op (s : State) (k st lc : Nat) : (setSliceSt s k st lc).life.op = s.life.op := by
  unfold setSliceSt dieStateRec
  dsimp only
  split <;> simp

@[simp] theorem setSliceSt_retrainDue (s : State) (k st lc : Nat) :
    (setSliceSt s k st lc).life.retrainDue = s.life.retrainDue := by
  unfold setSliceSt dieStateRec
  dsimp only
  split <;> simp

/-- Dropping a slice's records changes the sequencers, and of the merges what is held and on its way. -/
theorem dropSliceRecs_rest (s : State) (k : Nat) :
    dropSliceRecs s k = { s with dill := (dropSliceRecs s k).dill, merge := (dropSliceRecs s k).merge } := by
  unfold dropSliceRecs
  extract_lets s1
  have h1 : s1 = { s with dill := s1.dill } := foldl_dill (fun s p => by
    split <;> rfl) _ _
  clear_value s1
  rw [h1]
  rfl

@[simp] theorem dropSliceRecs_life (s : State) (k : Nat) : (dropSliceRecs s k).life = s.life := by rw [dropSliceRecs_rest]
@[simp] theorem dropSliceRecs_mem (s : State) (k : Nat) : (dropSliceRecs s k).mem = s.mem := by rw [dropSliceRecs_rest]

theorem dropSliceRecs_inflight (s : State) (k c : Nat) (r : Report) :
    .slice c k r ∉ (dropSliceRecs s k).merge.inflight := by
  intro h
  simpa using (List.mem_filter.mp h).2

/-- No automatic retraining waits. -/
theorem nextRetrain_none {s : State} (h : s.life.retrainDue = []) : nextRetrain s = s := by
  unfold nextRetrain
  split
  · rfl
  · rw [h]

theorem nextRetrain_cells (s : State) : (nextRetrain s).mem.cells = s.mem.cells := by
  unfold nextRetrain startRetrain stackSleeps modStack
  split
  · rfl
  · split
    · rfl
    · dsimp only
      split <;> simp

@[simp] theorem opRecord_life (s : State) (d : Nat) : (opRecord s d).life = s.life := by
  unfold opRecord dieStateRec
  simp

@[simp] theorem opRecord_mem (s : State) (d : Nat) : (opRecord s d).mem = s.mem := by
  unfold opRecord dieStateRec
  simp

theorem sliceSt_opRecord (s : State) (d j : Nat) : sliceSt (opRecord s d) j = sliceSt s j :=
  sliceSt_congr (by rw [opRecord_life]) j

theorem sliceSt_endOp (s : State) (st : Status) (j : Nat) : sliceSt (endOp s st) j = sliceSt s j := rfl

/-- A slice that has become UNAVAILABLE, before the operation that runs is looked at. -/
def lostSlice (s : State) (k : Nat) : State := dropSliceRecs (setSliceSt s k 5 s.life.lcStatus) k

section
variable (s : State) (k : Nat)

theorem sliceSt_lostSlice_same : sliceSt (lostSlice s k) k = { sliceSt s k with st := 5 } := by
  unfold lostSlice
  rw [sliceSt_congr (congrArg LifeSt.slices (dropSliceRecs_life ..)), sliceSt_setSliceSt_same]

theorem sliceSt_lostSlice_other {j : Nat} (hj : j ≠ k) : sliceSt (lostSlice s k) j = sliceSt s j := by
  unfold lostSlice
  rw [sliceSt_congr (congrArg LifeSt.slices (dropSliceRecs_life ..)), sliceSt_setSliceSt_other _ hj]

@[simp] theorem lostSlice_mem : (lostSlice s k).mem = s.mem := by simp [lostSlice]

@[simp] theorem lostSlice_op : (lostSlice s k).life.op = s.life.op := by simp [lostSlice]

@[simp] theorem lostSlice_retrainDue : (lostSlice s k).life.retrainDue = s.life.retrainDue := by simp [lostSlice]

end

/-- What the loss of a slice makes of the operation that runs. -/
def endLostOp (s : State) (k : Nat) : Option LiveOp → State
  | none => s
  | some o =>
    if o.op = 2 ∧ o.subst = k then
      nextRetrain (opRecord (endOp (setSliceSt s o.target 0 Status.uncorrectable.code) .uncorrectable) o.target)
    else if o.op = 3 ∧ o.subst = k then nextRetrain (opRecord (endOpFree s) o.target)
    else if (o.op = 1 ∨ o.op = 2 ∨ o.op = 3 ∨ o.op = 6) ∧ o.target = k then nextRetrain (opRecord (endOpFree s) k)
    else s

theorem endLostOp_cells (s : State) (k : Nat) (op : Option LiveOp) : (endLostOp s k op).mem.cells = s.mem.cells := by
  unfold endLostOp
  (repeat' split) <;> simp [nextRetrain_cells, endOp, endOpFree]

/-- An operation that retires a slice to the one that is lost ends, and its source is in service again. -/
theorem endLostOp_retires {s : State} {k : Nat} {o : LiveOp} (ho : o.op = 2) (hs : o.subst = k) (ht : o.target ≠ k)
    (hr : s.life.retrainDue = []) :
    sliceSt (endLostOp s k (some o)) k = sliceSt s k ∧ (sliceSt (endLostOp s k (some o)) o.target).st = 0 ∧
      (endLostOp s k (some o)).life.op = none ∧ (endLostOp s k (some o)).life.lcStatus = Status.uncorrectable.code := by
  have he : endLostOp s k (some o) =
      opRecord (endOp (setSliceSt s o.target 0 Status.uncorrectable.code) .uncorrectable) o.target :=
    (if_pos ⟨ho, hs⟩).trans (nextRetrain_none (by simp [endOp, hr]))
  rw [he]
  refine ⟨?_, ?_, by simp [endOp], by simp [endOp]⟩
  · rw [sliceSt_opRecord, sliceSt_endOp, sliceSt_setSliceSt_other _ (Ne.symm ht)]
  · rw [sliceSt_opRecord, sliceSt_endOp, sliceSt_setSliceSt_same]

section
variable {s : State} {k : Slice}

theorem execSliceFailure_unavailable (h : (sliceSt s k).st = 5) : execSliceFailure k s = .next s := if_pos h

/-- The slice is lost, and then the operation that runs is looked at. -/
theorem execSliceFailure_lost (h : (sliceSt s k).st ≠ 5) :
    execSliceFailure k s = .next (endLostOp (lostSlice s k) k s.life.op) := by
  have hop : (dropSliceRecs (setSliceSt s k 5 s.life.lcStatus) k).life.op = s.life.op := lostSlice_op s k
  unfold execSliceFailure
  dsimp only
  rw [if_neg h, hop]
  cases s.life.op <;> rfl

end

/-! ## The loss of links and dies -/

theorem completes_hubFailure {h : Hub} {s : State} {P : State → Prop} (hp : P (hubLost s h)) :
    Completes (.hubFailure h) s P := ⟨_, rfl, hp⟩

theorem completes_ref25Loss {h : Hub} {s : State} {P : State → Prop}
    (hp : P (modHub (hubLost s h) h fun x => { x with ref25 := false })) : Completes (.ref25Loss h) s P := ⟨_, rfl, hp⟩

theorem completes_linkReplay {l : LinkId} {word : BitVec 144} {s t : State} {P : State → Prop}
    (ht : execLinkReplay l word s = .next t) (hp : P t) : Completes (.linkReplay l word) s P := ⟨t, ht, hp⟩

theorem completes_sliceFailure {k : Slice} {s t : State} {P : State → Prop} (ht : execSliceFailure k s = .next t)
    (hp : P t) : Completes (.sliceFailure k) s P := ⟨t, ht, hp⟩

/-- Settles O41: a word over a link by what its code finds (`execLinkReplay_clean`, `execLinkReplay_corrected`,
`execLinkReplay_uncorrectable`), a hub in service by `hubLost_gone`, one out of service by `hubLost_again` and
`hubLost_same`, a slice by `execSliceFailure_lost` and `endLostOp_retires`. That the loss of a hub under failback or test
ends that operation is the model's choice (assumption 38), as are parts of what a lost hub drops (assumption 91). -/
theorem diesAndLinksAreLost : Obligations.DiesAndLinksAreLost := by
  unfold Obligations.DiesAndLinksAreLost
  refine ⟨fun l word a b w c s ha hb hw hc => ?_, fun h s hu hst => ?_, fun h o s hu h2 e ht ho => ?_,
    fun h s hs => ?_, fun k s => ?_⟩
  · subst ha hb hw hc
    by_cases hn : linkExists l.src l.dst = false ∨ linkUp s l.src l.dst = false
    · exact completes_linkReplay (execLinkReplay_stays hn) ⟨fun _ => rfl, fun he hu => by simp [he, hu] at hn,
        fun _ _ he hu => by simp [he, hu] at hn, fun he hu => by simp [he, hu] at hn⟩
    · obtain ⟨he, hu⟩ : linkExists l.src l.dst = true ∧ linkUp s l.src l.dst = true := by simpa using hn
      cases hd : decodeSyn (wordSyn (word.toNat % 2 ^ 128) (word.toNat / 2 ^ 128)) with
      | clean =>
        exact completes_linkReplay (execLinkReplay_clean he hu hd) ⟨fun h => absurd h hn,
          fun _ _ _ => ⟨linkOf_deliverWord .., rfl⟩, fun _ _ _ _ => nofun, fun _ _ => nofun⟩
      | corrected nib err =>
        obtain ⟨u, ht, hlife, hcount⟩ := execLinkReplay_corrected he hu hd
        refine completes_linkReplay ht ⟨fun h => absurd h hn, fun _ _ => nofun, fun _ _ _ _ e => ?_, fun _ _ => nofun⟩
        cases e
        exact ⟨by rw [linkOf_deliverWord, linkOf_congr (congrArg LifeSt.links hlife)], hcount⟩
      | uncorrectable =>
        obtain ⟨u, ht, hlife, hcount⟩ := execLinkReplay_uncorrectable he hu hd
        refine completes_linkReplay ht ⟨fun h => absurd h hn, fun _ _ => nofun, fun _ _ _ _ => nofun, fun _ _ _ => ?_⟩
        rw [← linkOf_congr (congrArg LifeSt.links hlife)]
        exact ⟨by rw [rget_failWord _ _ _ (by decide), hcount], linkOf_failWord_again, linkOf_failWord_down⟩
  · have hg := hubLost_gone hu hst
    exact ⟨completes_hubFailure hg, completes_ref25Loss ⟨ref25Lost_gone hg, by rw [hubSt_modHub_same]⟩⟩
  · exact completes_hubFailure (hubLost_again hu h2 e ht ho)
  · have hl := hubLost_same hs
    exact ⟨completes_hubFailure hl, completes_ref25Loss ⟨by rw [hl, hubSt_modHub_same], by rw [hl]; rfl⟩⟩
  · by_cases h5 : (sliceSt s k).st = 5
    · exact completes_sliceFailure (execSliceFailure_unavailable h5)
        ⟨rfl, fun _ => rfl, fun h => absurd h5 h, fun _ h => absurd h5 h⟩
    · refine completes_sliceFailure (execSliceFailure_lost h5)
        ⟨by rw [endLostOp_cells, lostSlice_mem], fun h => absurd h h5, fun _ e => ?_, fun o _ e ho hsub htar hr => ?_⟩
      · rw [e]
        exact ⟨sliceSt_lostSlice_same s k, fun j hj => sliceSt_lostSlice_other s k hj,
          dropSliceRecs_inflight _ k, lostSlice_mem s k⟩
      · obtain ⟨hk, hrest⟩ := endLostOp_retires (s := lostSlice s k) ho hsub htar (by simp [hr])
        rw [e, hk, sliceSt_lostSlice_same]
        exact ⟨rfl, hrest⟩

end Sys2Proof.Proofs

namespace Sys2Proof.Proofs
open Sys2Proof.Machine Sys2Proof.Laws

/-!
The slots that pages take (O55): the classes of R29, and where page space lies.
-/

/-- The class of a size up to 64 KiB: it holds the size, and no smaller class does. 02_pages.md R29. -/
theorem slotClass_spec {n : Nat} (h : n ≤ 65536) :
    slotClass n < 7 ∧ n ≤ slotUnits (slotClass n) * 4096 ∧ ∀ c < slotClass n, slotUnits c * 4096 < n := by
  have hs : ((List.range 7).find? fun c => decide (n ≤ slotUnits c * 4096)).isSome :=
    List.find?_isSome.mpr ⟨6, by simp, by simpa [slotUnits] using h⟩
  obtain ⟨c, hc⟩ := Option.isSome_iff_exists.mp hs
  have he : slotClass n = c := by rw [slotClass, hc, Option.getD_some]
  obtain ⟨hn, hlt, hmin⟩ := List.find?_range_eq_some.mp hc
  rw [he]
  exact ⟨List.mem_range.mp hlt, by simpa using hn, fun j hj => by simpa using hmin j hj⟩

/-- A slot that is placed stands in the map with the units it was placed for. -/
theorem placeSlot_units {s t : State} {k tenant units lpn : Nat} {kind : SlotKind}
    (h : placeSlot s k tenant units kind = some (t, lpn)) : (aget t.mem.slots lpn).map (·.units) = some units := by
  obtain ⟨l, -, e⟩ := Option.map_eq_some_iff.mp h
  cases e
  simp

theorem allocSlot_units {s t : State} {k tenant units lpn : Nat} {kind : SlotKind}
    (h : allocSlot s k tenant units kind = some (t, lpn)) : (aget t.mem.slots lpn).map (·.units) = some units := by
  unfold allocSlot at h
  split at h
  · exact placeSlot_units h
  · cases h

/-- Every unit of page space lies on a 4 KiB boundary, of a retired slice's substitute too. 02_pages.md R29. -/
theorem homeAddr_aligned (s : State) (lpn : Nat) : homeAddr s lpn % 4096 = 0 := by
  unfold homeAddr dieBase
  dsimp only
  split <;> omega

/-- Settles O55: the classes by computation, the smallest class by `slotClass_spec`, a page's slot by `allocSlot_units`
and its boundary by `homeAddr_aligned`. -/
theorem pagesTakeTheSmallestSlot : Obligations.PagesTakeTheSmallestSlot := by
  unfold Obligations.PagesTakeTheSmallestSlot
  exact ⟨by decide, fun _ hg => slotClass_spec hg, fun _ _ _ _ _ _ h => allocSlot_units h, homeAddr_aligned⟩

end Sys2Proof.Proofs

namespace Sys2Proof.Proofs
open Sys2Proof.Machine Sys2Proof.Laws

/-!
What slices do by themselves (O4). A read through the word code may repair a bank, and so move what lies in SRAM; a write
may first let a fenced snapshot answer. The first parts show once, for each operation, that neither reaches further into
the sequences than to the places of tails and cached pages, nor to the ledger, nor to a register of the tier block (Moves),
and that where no word deviates from its check bits nothing moves at all (Steady).
-/

/-! ## What an access to memory leaves -/

/-- A tail, wherever in SRAM it lies. -/
def unplaced (x : Tail) : Tail := { x with base := 0 }

/-- From s to t, tails and cached pages may have moved in SRAM; the rest of the sequences, the ledger and the registers of
the tier block stand. -/
structure Moves (s t : State) : Prop where
  rest : t.seqs = { s.seqs with tails := t.seqs.tails, cache := t.seqs.cache }
  tails : ∀ q, (aget t.seqs.tails q).map unplaced = (aget s.seqs.tails q).map unplaced
  ledg : t.ledg = s.ledg
  tier : ∀ (r : Reg) (i e : Nat), r.info.blk = .tier → rget t r i e = rget s r i e

/-- The same, and where no word deviates from its check bits none does afterwards and nothing has moved. -/
structure Steady (s t : State) : Prop extends Moves s t where
  clean : s.mem.chk = [] → t.mem.chk = [] ∧ t.seqs = s.seqs

theorem rget_congr {s t : State} (h : t.regs = s.regs) (r : Reg) (i e : Nat) : rget t r i e = rget s r i e := by
  simp only [rget, h]

/-- A register of the tier block is none of another block. -/
theorem ne_of_tier {r r' : Reg} (h : r.info.blk = .tier) (h' : r'.info.blk ≠ .tier) : r ≠ r' := fun e => h' (e ▸ h)

theorem aget_map {κ α : Type} [DecidableEq κ] (f : α → α) (k : κ) :
    ∀ m : Assoc κ α, aget (m.map fun p => (p.1, f p.2)) k = (aget m k).map f
  | [] => rfl
  | (k', v) :: m => by
    by_cases e : k' = k
    · simp [aget, e]
    · simp [aget, e, aget_map f k m]

namespace Moves
variable {a s t : State}

theorem of_seqs (hs : t.seqs = s.seqs) (hl : t.ledg = s.ledg)
    (hr : ∀ (r : Reg) (i e : Nat), r.info.blk = .tier → rget t r i e = rget s r i e) : Moves s t :=
  ⟨by rw [hs], fun q => by rw [hs], hl, hr⟩

theorem of_regs (hs : t.seqs = s.seqs) (hl : t.ledg = s.ledg) (hr : t.regs = s.regs) : Moves s t :=
  of_seqs hs hl fun r i e _ => rget_congr hr r i e

theorem refl (s : State) : Moves s s := of_regs rfl rfl rfl

theorem trans (f : Moves a s) (g : Moves s t) : Moves a t where
  rest := by rw [g.rest, f.rest]
  tails q := (g.tails q).trans (f.tails q)
  ledg := g.ledg.trans f.ledg
  tier r i e h := (g.tier r i e h).trans (f.tier r i e h)

theorem foldl {α : Type} {f : State → α → State} (hf : ∀ s x, Moves s (f s x)) :
    ∀ (l : List α) (s : State), Moves s (l.foldl f s)
  | [], s => refl s
  | x :: l, s => (hf s x).trans (foldl hf l (f s x))

theorem ite {c : Prop} [Decidable c] (f : Moves a s) (g : Moves a t) : Moves a (if c then s else t) := by
  split <;> assumption

/-- The state that an operation gives with a result. -/
theorem of_eq {α : Type} {p : State × α} {r : α} (h : Moves s p.1) (e : p = (t, r)) : Moves s t := by subst e; exact h

theorem sealQ (f : Moves s t) : t.seqs.sealQ = s.seqs.sealQ := by rw [f.rest]
theorem refQ (f : Moves s t) : t.seqs.refQ = s.seqs.refQ := by rw [f.rest]

end Moves

namespace Steady
variable {a s t : State}

theorem of_mem (h : Moves s t) (hs : t.seqs = s.seqs) (hm : s.mem.chk = [] → t.mem.chk = []) : Steady s t :=
  ⟨h, fun hc => ⟨hm hc, hs⟩⟩

theorem refl (s : State) : Steady s s := ⟨.refl s, fun h => ⟨h, rfl⟩⟩

theorem trans (f : Steady a s) (g : Steady s t) : Steady a t :=
  ⟨f.toMoves.trans g.toMoves, fun h =>
    have ⟨hc, hs⟩ := f.clean h
    ⟨(g.clean hc).1, (g.clean hc).2.trans hs⟩⟩

theorem foldl {α : Type} {f : State → α → State} (hf : ∀ s x, Steady s (f s x)) :
    ∀ (l : List α) (s : State), Steady s (l.foldl f s)
  | [], s => refl s
  | x :: l, s => (hf s x).trans (foldl hf l (f s x))

/-- A fold that gives a result beside the state. -/
theorem foldl_fst {α β : Type} {f : State × β → α → State × β} (hf : ∀ p x, Steady p.1 (f p x).1) :
    ∀ (l : List α) (p : State × β), Steady p.1 (l.foldl f p).1
  | [], p => refl p.1
  | x :: l, p => (hf p x).trans (foldl_fst hf l (f p x))

theorem ite {c : Prop} [Decidable c] (f : Steady a s) (g : Steady a t) : Steady a (if c then s else t) := by
  split <;> assumption

theorem of_eq {α : Type} {p : State × α} {r : α} (h : Steady s p.1) (e : p = (t, r)) : Steady s t := by subst e; exact h

end Steady

/-! ### Registers and records -/

theorem bump_moves (s : State) {r : Reg} (h : r.info.blk ≠ .tier) (i : Nat) : Moves s (bump s r i) :=
  .of_seqs (by simp) (by simp) fun _ _ _ ht => rget_bump_other s (ne_of_tier ht h) ..

theorem rmax_moves (s : State) {r : Reg} (h : r.info.blk ≠ .tier) (i v : Nat) : Moves s (rmax s r i v) := by
  unfold rmax
  refine .ite (.of_seqs rfl rfl fun r' _ _ ht => ?_) (.refl s)
  exact rget_rset_other s _ fun he => ne_of_tier ht h (Prod.mk.inj he).1

theorem fresh_moves (s : State) : Moves s (fresh s).2 := .of_regs rfl rfl rfl

theorem journal_moves (s : State) (h type : Nat) (payload : List Byte) : Moves s (journal s h type payload) :=
  .of_seqs (by simp) (by simp) fun _ _ _ ht => rget_journal_other s _ _ _ (ne_of_tier ht (by decide)) ..

theorem healthEvent_moves (s : State) (die bit v : Nat) : Moves s (healthEvent s die bit v) :=
  .of_seqs (by simp) (by simp) fun _ _ _ ht =>
    rget_healthEvent_other s _ _ _ (ne_of_tier ht (by decide)) (ne_of_tier ht (by decide)) ..

theorem logErr_moves (s : State) (x : ErrRec) : Moves s (logErr s x) :=
  .of_seqs (by simp) (by simp) fun _ _ _ ht => rget_logErr_other s x (ne_of_tier ht (by decide)) ..

theorem modDie_moves (s : State) (d : Nat) (f : DieHealth → DieHealth) : Moves s (modDie s d f) :=
  .of_regs (by simp) (by simp) (by simp)

theorem kgmAdd_moves (s : State) (die kind unit loc v : Nat) : Moves s (kgmAdd s die kind unit loc v) :=
  .of_regs (by simp) (by simp) (by simp)

theorem badWord_moves (s : State) (cls sy die reader off : Nat) : Moves s (badWord s cls sy die reader off) := by
  unfold badWord
  exact ((((bump_moves s (by decide) _).trans (modDie_moves ..)).trans (logErr_moves ..)).trans (journal_moves ..)).trans
    (healthEvent_moves ..)

/-! ### Words -/

theorem poke_moves (s : State) (a : Nat) (bs : List Byte) : Moves s (poke s a bs) :=
  .of_regs (by simp) (by simp) (by simp)

theorem scrub_moves (s : State) (a n : Nat) : Moves s (scrub s a n) := .of_regs (by simp) (by simp) (by simp)

theorem touchBanks_moves (s : State) (a n : Nat) : Moves s (touchBanks s a n) :=
  .of_regs (by simp) (by simp) (by simp)

theorem modMem_moves (s : State) (f : MemSt → MemSt) : Moves s (modMem s f) := .of_regs rfl rfl rfl

theorem modBank_moves (s : State) (die b : Nat) (f : Bank → Bank) : Moves s (modBank s die b f) :=
  .of_regs (by simp) (by simp) (by simp)

theorem poke_steady (s : State) (a : Nat) (bs : List Byte) : Steady s (poke s a bs) :=
  .of_mem (poke_moves ..) (by simp) fun h => by simp [poke, setChk, setCells, h]

theorem scrub_steady (s : State) (a n : Nat) : Steady s (scrub s a n) :=
  .of_mem (scrub_moves ..) (by simp) fun h => by simp [scrub, setChk, setCells, h]

theorem modMem_steady (s : State) {f : MemSt → MemSt} (h : (f s.mem).chk = s.mem.chk) : Steady s (modMem s f) :=
  .of_mem (modMem_moves s f) rfl fun hc => h.trans hc

theorem modBank_steady (s : State) (die b : Nat) (f : Bank → Bank) : Steady s (modBank s die b f) := modMem_steady s rfl

theorem readWord_moves (s : State) (a reader : Nat) : Moves s (readWord s a reader).1 := by
  unfold readWord
  dsimp only
  split
  · exact .refl s
  · split
    · exact .refl s
    · dsimp only
      refine .trans ?_ (modMem_moves ..)
      refine .trans (.trans (.trans ?_ (modDie_moves ..)) (logErr_moves ..)) (poke_moves ..)
      exact bump_moves s (by decide) _
    · exact badWord_moves ..

/-! ### Moving what lies in SRAM -/

theorem moveWords_moves : ∀ (n : Nat) (s : State) (src dst : Nat), Moves s (moveWords n s src dst)
  | 0, s, _, _ => .refl s
  | n + 1, s, src, dst => by
    unfold moveWords
    split
    · next e => exact ((readWord_moves ..).of_eq e).trans ((poke_moves ..).trans (moveWords_moves n ..))
    · next e =>
      dsimp only
      refine ((readWord_moves ..).of_eq e).trans (.trans ?_ (moveWords_moves n ..))
      exact (poke_moves ..).trans (.of_regs rfl rfl rfl)

theorem moveRaw_moves (s : State) (src dst n : Nat) : Moves s (moveRaw s src dst n) := by
  unfold moveRaw
  exact (touchBanks_moves s src n).trans (.ite (moveWords_moves ..) (poke_moves ..))

theorem renameSram_moves (s : State) (src dst n : Nat) : Moves s (renameSram s src dst n) where
  rest := rfl
  tails q := by
    unfold renameSram
    dsimp only [modSeqs_seqs, modMem_seqs, modRegn_seqs, modDill_seqs]
    rw [aget_map fun x : Tail => { x with base := if src ≤ x.base ∧ x.base < src + n then x.base - src + dst else x.base },
      Option.map_map]
    rfl
  ledg := by simp
  tier r i e _ := rget_congr (by simp) r i e

theorem allocSram_moves {s t : State} {die tenant n a : Nat} {kind : SramKind}
    (h : allocSram s die tenant n kind = some (t, a)) : Moves s t := by
  obtain ⟨u, -, e⟩ := Option.map_eq_some_iff.mp h
  cases e
  exact .of_regs (by simp) (by simp) (by simp)

/-- A part that a release of banks, their scrub and the list of allocations leave is one that a release of SRAM leaves. -/
theorem freeSram_part {β : Type} (g : State → β)
    (hm : ∀ s l, g (modMem s fun m => { m with sram := l }) = g s) (hs : ∀ s a n, g (scrub s a n) = g s)
    (hb : ∀ s die b f, g (modBank s die b f) = g s) (s : State) (a : Nat) : g (freeSram s a) = g s := by
  unfold freeSram
  dsimp only
  split
  · rfl
  · refine (foldl_part g (fun s i => ?_) _ _).trans (hm ..)
    split
    · rfl
    · rw [hb, hs]

/-- A place in SRAM that is released changes memory alone. -/
theorem freeSram_rest (s : State) (a : Nat) : freeSram s a = { s with mem := (freeSram s a).mem } :=
  congrArg (fun t : State => { t with mem := (freeSram s a).mem })
    (freeSram_part (fun t => { t with mem := default }) (fun _ _ => rfl) (fun _ _ _ => by simp) (fun _ _ _ _ => rfl) s a)

theorem freeSram_steady (s : State) (a : Nat) : Steady s (freeSram s a) := by
  unfold freeSram
  dsimp only
  split
  · exact .refl s
  · refine .trans (modMem_steady _ rfl) (.foldl (fun s i => ?_) _ _)
    exact .ite (.refl s) ((scrub_steady ..).trans (modBank_steady ..))

theorem moveHold_moves (s : State) (h : SramHold) : Moves s (moveHold s h) := by
  unfold moveHold
  split
  · exact .refl s
  · next e =>
    exact (allocSram_moves e).trans (((moveRaw_moves ..).trans (renameSram_moves ..)).trans (freeSram_steady ..).toMoves)

theorem moveArea_moves (s : State) (die b : Nat) : Moves s (moveArea s die b) := by
  unfold moveArea
  refine .ite ?_ (.refl s)
  split
  · exact .refl s
  · next e =>
    exact (allocSram_moves e).trans (((moveRaw_moves ..).trans (renameSram_moves ..)).trans (modBank_moves ..))

/-! ### Repair -/

theorem retireBank_moves (s : State) (die b : Nat) : Moves s (retireBank s die b) := by
  unfold retireBank
  extract_lets inBank s1 s2 s3
  have h2 : Moves s s2 :=
    (modBank_moves ..).trans ((Moves.foldl moveHold_moves _ _).trans (moveArea_moves ..))
  exact (h2.trans (.ite (.refl _) (modBank_moves ..))).trans ((kgmAdd_moves ..).trans (healthEvent_moves ..))

theorem repairColumn_moves (s : State) (die b col : Nat) : Moves s (repairColumn s die b col) := by
  unfold repairColumn
  extract_lets k n most s1 s2
  have h1 : Moves s s1 := (modBank_moves ..).trans (kgmAdd_moves ..)
  have h2 : Moves s s2 := .ite (retireBank_moves ..) (.ite (h1.trans (healthEvent_moves ..)) h1)
  exact h2.trans (journal_moves ..)

theorem repairRow_moves (s : State) (die off : Nat) : Moves s (repairRow s die off) := by
  unfold repairRow
  dsimp only
  refine .trans (.trans ?_ (fresh_moves _)) (journal_moves ..)
  exact .trans (.trans (modMem_moves ..) (modDie_moves ..)) (kgmAdd_moves ..)

theorem mend_moves (s : State) (a : Nat) (fix : Option (Nat × Nat)) : Moves s (mend s a fix) := by
  unfold mend repairWord
  split
  · exact .refl s
  · exact .ite (.ite (repairRow_moves ..) (.ite (.refl s) (repairColumn_moves ..))) (.refl s)

/-! ### Reads and writes -/

theorem loadWords_moves : ∀ (n : Nat) (s : State) (a reader : Nat), Moves s (loadWords n s a reader).1
  | 0, s, _, _ => .refl s
  | n + 1, s, a, reader => by
    unfold loadWords
    split
    · next e => exact (readWord_moves ..).of_eq e
    · next e => exact ((readWord_moves ..).of_eq e).trans ((loadWords_moves n ..).trans (mend_moves ..))

theorem load_moves (s : State) (a n reader : Nat) : Moves s (load s a n reader).1 := by
  unfold load
  dsimp only
  refine (touchBanks_moves s a n).trans ?_
  split
  · split
    all_goals
      next e => exact (loadWords_moves ..).of_eq e
  · exact .refl _

theorem load_steady (s : State) (a n reader : Nat) : Steady s (load s a n reader).1 :=
  ⟨load_moves .., fun h => by simp [load_clean h, h]⟩

theorem view_steady (s : State) (a n reader : Nat) : Steady s (view s a n reader).1 := by
  unfold view
  split
  · exact load_steady ..
  · split
    all_goals
      next e => exact (load_steady ..).of_eq e

/-! ### Answers and snapshots -/

theorem IndexOnly.moves {h : Nat} {s t : State} (f : IndexOnly h s t) : Moves s t :=
  .of_seqs (by rw [f.rest]) (by rw [f.rest]) fun r i e ht => f.regs r i e (by simp [ht])

theorem IndexOnly.steady {h : Nat} {s t : State} (f : IndexOnly h s t) : Steady s t :=
  .of_mem f.moves (by rw [f.rest]) fun hc => by rw [f.rest]; exact hc

theorem dropConn_moves (s : State) (id : Nat) : Moves s (dropConn s id) := by
  unfold dropConn
  split
  · exact .refl s
  · next c _ =>
    extract_lets mine s1 used s2
    have h2 : Moves s s2 :=
      .trans (t := s2) (.ite (delete_index s c.hub _ _ _).moves (.refl s)) (.of_regs rfl rfl rfl)
    exact .ite h2 (h2.trans (.of_regs (by simp) (by simp) (by simp)))

theorem settleConn_moves (s : State) (id : Nat) : Moves s (settleConn s id) := by
  unfold settleConn
  split
  · exact .ite (dropConn_moves ..) (.refl s)
  · exact .refl s

theorem answer_moves (s : State) (id : Nat) (op : Opcode) (st : Status) (hint : Nat) (payload : List Byte) :
    Moves s (answer s id op st hint payload) := by
  unfold answer
  split
  · exact .refl s
  · split
    · dsimp only
      split
      · exact .of_regs (by simp) (by simp) (by simp)
      · refine .ite (.of_regs (by simp) (by simp) (by simp)) (.trans ?_ (settleConn_moves ..))
        exact .of_regs (by simp) (by simp) (by simp)
    · exact .of_regs (by simp) (by simp) (by simp)
    · exact .of_regs rfl rfl rfl

theorem answer_steady (s : State) (id : Nat) (op : Opcode) (st : Status) (hint : Nat) (payload : List Byte) :
    Steady s (answer s id op st hint payload) :=
  .of_mem (answer_moves ..) (by simp) fun h => by simpa using h

/-- A change that leaves memory, sequences, ledger and registers. -/
theorem Steady.of_regs {s t : State} (hm : t.mem = s.mem) (hs : t.seqs = s.seqs) (hl : t.ledg = s.ledg)
    (hr : t.regs = s.regs) : Steady s t :=
  .of_mem (.of_regs hs hl hr) hs fun h => by rw [hm, h]

theorem bump_steady (s : State) {r : Reg} (h : r.info.blk ≠ .tier) (i : Nat) : Steady s (bump s r i) :=
  .of_mem (bump_moves s h i) (by simp) fun hc => by simpa using hc

theorem rmax_steady (s : State) {r : Reg} (h : r.info.blk ≠ .tier) (i v : Nat) : Steady s (rmax s r i v) :=
  .of_mem (rmax_moves s h i v) (by unfold rmax; split <;> rfl) fun hc => by unfold rmax; split <;> exact hc

theorem countRefusal_steady (s : State) (hub : Nat) (st : Status) : Steady s (countRefusal s hub st) := by
  unfold countRefusal
  split
  · exact bump_steady s (by decide) _
  · exact bump_steady s (by decide) _
  · exact bump_steady s (by decide) _
  · exact .refl s

theorem answerRead_steady (s : State) (id : Nat) (st : Status) (key : Nat) (data : List Byte) :
    Steady s (answerRead s id st key data) := by
  unfold answerRead
  split
  · exact .refl s
  · exact .trans (.ite (bump_steady s (by decide) _) (countRefusal_steady ..)) (answer_steady ..)

theorem answerSnap_steady (s : State) (x : Snapshot) (got : Except Status (List Byte)) :
    Steady s (answerSnap s x got) := by
  unfold answerSnap
  extract_lets s1
  have h1 : Steady s s1 := .of_regs rfl rfl rfl rfl
  split
  · exact h1
  · split
    · exact h1.trans (answerRead_steady ..)
    · exact h1.trans (answerRead_steady ..)

theorem dropSnap_steady (s : State) (snap : Nat) (x : Snapshot) : Steady s (dropSnap s snap x) := by
  unfold dropSnap
  dsimp only
  split <;> exact .of_regs rfl rfl rfl rfl

theorem snapshotCopy_steady (s : State) (snap : Nat) : Steady s (snapshotCopy s snap) := by
  unfold snapshotCopy
  split
  · exact .refl s
  · refine .ite (.refl s) ?_
    dsimp only
    refine .trans (.trans (view_steady ..) (.trans (dropSnap_steady ..) (.ite ?_ (.refl _)))) (answerSnap_steady ..)
    exact (bump_steady _ (by decide) _).trans (rmax_steady _ (by decide) ..)

theorem lowerFences_steady (s : State) (a n : Nat) : Steady s (lowerFences s a n) :=
  .foldl (f := fun s (p : Nat × Snapshot) => snapshotCopy s p.1) (fun s p => snapshotCopy_steady s p.1) _ s

theorem putWords_steady (s : State) (a : Nat) (bs : List Byte) : Steady s (putWords s a bs) :=
  (lowerFences_steady ..).trans (poke_steady ..)

/-! ### Slots -/

theorem clearSlot_steady (s : State) (lpn : Nat) : Steady s (clearSlot s lpn) := by
  unfold clearSlot
  split
  · exact .refl s
  · dsimp only
    refine .trans (.trans (.trans (scrub_steady ..) (poke_steady ..)) (.foldl (fun s p => ?_) _ _)) (modMem_steady _ rfl)
    exact poke_steady ..

theorem freeSlot_steady (s : State) (lpn : Nat) : Steady s (freeSlot s lpn) :=
  (lowerFences_steady ..).trans (clearSlot_steady ..)

theorem loadGen_steady (s : State) (lpn : Nat) : Steady s (loadGen s lpn).1 := by
  unfold loadGen
  split
  · next e => exact (load_steady ..).of_eq e
  · next e => exact ((load_steady ..).of_eq e).trans (.of_regs rfl rfl rfl rfl)

theorem innerGens_steady (s : State) (lpn n : Nat) : Steady s (innerGens s lpn n).1 := by
  unfold innerGens
  refine .foldl_fst (fun acc i => ?_) _ (s, ([] : List (Nat × Nat)))
  exact loadGen_steady acc.1 (lpn + i + 1)

theorem placeSlot_steady {s t : State} {k tenant units lpn : Nat} {kind : SlotKind}
    (h : placeSlot s k tenant units kind = some (t, lpn)) : Steady s t := by
  obtain ⟨l, -, e⟩ := Option.map_eq_some_iff.mp h
  cases e
  have h1 : Steady s (innerGens (loadGen (lowerFences s (homeAddr s lpn) (units * 4096)) lpn).1 lpn units).1 :=
    ((lowerFences_steady ..).trans (loadGen_steady ..)).trans (innerGens_steady ..)
  exact h1.trans (.trans (scrub_steady _ (homeAddr _ lpn) (units * 4096)) (modMem_steady _ rfl))

theorem allocSlot_steady {s t : State} {k tenant units lpn : Nat} {kind : SlotKind}
    (h : allocSlot s k tenant units kind = some (t, lpn)) : Steady s t := by
  unfold allocSlot at h
  split at h
  · exact placeSlot_steady h
  · cases h

/-! ### References -/

theorem noteChange_steady (s : State) (lpn : Nat) : Steady s (noteChange s lpn) := modMem_steady s rfl

theorem markDamaged_moves (s : State) (lpn : Nat) : Moves s (markDamaged s lpn) := by
  unfold markDamaged
  exact ((poke_moves ..).trans (modMem_moves ..)).trans (journal_moves ..)

theorem loadHdr_steady (s : State) (lpn reader : Nat) : Steady s (loadHdr s lpn reader).1 := by
  unfold loadHdr
  split
  all_goals
    next e => exact (load_steady ..).of_eq e

theorem writeRefWord_steady (s : State) (lpn crc refs : Nat) : Steady s (writeRefWord s lpn crc refs) :=
  (putWords_steady ..).trans (noteChange_steady _ lpn)

theorem unindexPage_steady (s : State) (lpn : Nat) (h : Hdr) : Steady s (unindexPage s lpn h) :=
  .ite (delete_index s _ _ _ _).steady (.refl s)

theorem freePage_steady (s : State) (lpn : Nat) : Steady s (freePage s lpn) := by
  unfold freePage
  extract_lets s1 promo s2
  have h2 : Steady s s2 := (unindexPage_steady ..).trans (freeSlot_steady ..)
  cases promo with
  | some a => exact h2.trans (freeSram_steady ..)
  | none => exact h2

/-- A change of a count: the header is read, and then the count is written or the page released. -/
theorem applyRef_steady (s : State) (c : RefChange) : Steady s (applyRef s c).1 := by
  unfold applyRef
  split
  · next e => exact (loadHdr_steady ..).of_eq e
  · next u h e =>
    have hu : Steady s u := (loadHdr_steady ..).of_eq e
    split
    · exact hu
    · split
      · split
        · exact hu
        · exact hu.trans (writeRefWord_steady ..)
      · split
        · exact hu.trans (freePage_steady ..)
        · exact hu.trans (writeRefWord_steady ..)

/-! ## The seal unit -/

theorem mem_sortBy {α : Type} {key : α → Nat} {x : α} : ∀ {l : List α}, x ∈ sortBy key l → x ∈ l
  | [], h => h
  | y :: l, h => by
    have h' : x ∈ (sortBy key l).takeWhile (fun z => decide (key z < key y)) ++
        y :: (sortBy key l).drop ((sortBy key l).takeWhile fun z => decide (key z < key y)).length := h
    rcases List.mem_append.mp h' with h | h
    · exact List.mem_cons_of_mem _ (mem_sortBy ((List.takeWhile_sublist _).mem h))
    · rcases List.mem_cons.mp h with rfl | h
      · exact List.mem_cons_self ..
      · exact List.mem_cons_of_mem _ (mem_sortBy (List.mem_of_mem_drop h))

/-- The page a seal unit takes next waits in its slice, set aside or not as it is asked for. 02_pages.md R43. -/
theorem nextSeal_mem {s : State} {k : Nat} {aside : Bool} {it : SealItem} (h : nextSeal s k aside = some it) :
    it.slice = k ∧ it.aside = aside := by
  unfold nextSeal at h
  extract_lets q mine at h
  obtain ⟨x, hx, hr⟩ := Option.bind_eq_some_iff.mp h
  obtain rfl : x = it := by
    split at hr
    · exact Option.some.inj hr
    · cases hr
  have hm : x ∈ mine := by
    split at hx
    · exact mem_sortBy (List.mem_of_head? hx)
    · exact (List.mem_filter.mp (List.mem_of_head? hx)).1
  simpa using (List.mem_filter.mp hm).2

/-! ### Sharing a page (03_sequences.md R65) -/

/-- A change of the CAM whose new rows are of the hub. -/
theorem IndexOnly.modCam {h : Nat} {a s : State} (f : IndexOnly h a s) {g : ChiveSt → ChiveSt}
    (hg : ∀ p ∈ (g s.chive).cam, p ∈ s.chive.cam ∨ p.1.1 = h) : IndexOnly h a (Machine.modChive s g) :=
  f.trans ⟨rfl, hg, fun _ _ _ _ => rfl⟩

section
variable (h cls key : Nat) (confirm : Nat → Bool)

theorem searchRest_index (s : State) : IndexOnly h s (searchRest s h cls key confirm).1 := by
  unfold searchRest
  dsimp only
  split
  · exact .refl s
  split
  · have hp : IndexOnly h s (chiveBump s h .chive_OVERFLOW_PROBES) := (IndexOnly.refl s).chiveBump rfl h
    split
    · split <;> exact hp.chiveBump rfl h
    · exact hp
  · exact .refl s

theorem searchShadow_index (s : State) : IndexOnly h s (searchShadow s h cls key confirm).1 := by
  unfold searchShadow
  dsimp only
  split
  · next i r _ =>
    have hc : IndexOnly h s (modChive s fun c => { c with cam := aset c.cam (h, homeBlock s h cls key * 16 + i) r }) :=
      (IndexOnly.refl s).modCam fun p hp => (mem_aset hp).imp_right fun e => by rw [e]
    split <;> exact (hc.chiveBump rfl h).chiveBump rfl h
  · exact searchRest_index ..

theorem searchCam_index : ∀ (again : Nat) (s : State), IndexOnly h s (searchCam again s h cls key confirm).1
  | again, s => by
    have h1 : IndexOnly h s (chiveBump s h .chive_SEARCHES) := (IndexOnly.refl s).chiveBump rfl h
    unfold searchCam
    dsimp only
    split
    · exact h1.trans (searchShadow_index ..)
    split
    · exact h1.chiveBump rfl h
    split
    · exact h1.chiveBump rfl h
    have h3 (sh : Option ChiveRow) (n : Nat) : IndexOnly h s (chiveBump (modChive (chiveBump s h .chive_SEARCHES) fun c =>
        { c with cam := match sh with
            | some x => aset c.cam (h, n) x
            | none => adel c.cam (h, n) }) h .chive_SHADOW_CORRECTIONS) := by
      refine (h1.modCam fun p hp => ?_).chiveBump rfl h
      cases sh with
      | some x => exact (mem_aset hp).imp_right fun e => by rw [e]
      | none => exact .inl (List.mem_filter.mp hp).1
    match again with
    | 0 => exact h3 _ _
    | n + 1 => exact (h3 _ _).trans (searchCam_index n _)

/-- A search changes the CAM, where the shadow corrects it, and counts. -/
theorem search_index (s : State) : IndexOnly h s (search s h cls key confirm).1 := searchCam_index h cls key confirm 1 s

end

theorem keyMismatch_moves (s : State) (d : Desc) : Moves s (keyMismatch s d) :=
  .of_regs (by simp [keyMismatch]) (by simp [keyMismatch]) (by simp [keyMismatch])

theorem indexPage_moves (s : State) (k lpn : Nat) (h : Hdr) : Moves s (indexPage s k lpn h) := by
  unfold indexPage
  dsimp only
  split
  · next e => exact ((insert_index ..).moves.of_eq e).trans (replace_index ..).moves
  · next e => exact (insert_index ..).moves.of_eq e

theorem drainRefs_sealQ (s : State) (k : Nat) : (drainRefs s k).seqs.sealQ = s.seqs.sealQ :=
  foldl_part (·.seqs.sealQ) (fun s c => (applyRef_steady s c).sealQ) _ _

theorem drainRefs_ledg (s : State) (k : Nat) : (drainRefs s k).ledg = s.ledg :=
  foldl_part (·.ledg) (fun s c => (applyRef_steady s c).ledg) _ _

theorem takeRef_sealQ (s : State) (r : PageRef) : (takeRef s r).1.seqs.sealQ = s.seqs.sealQ :=
  (applyRef_steady ..).sealQ.trans (drainRefs_sealQ ..)

theorem meetHeld_sealQ (s : State) (d : Desc) (cand : Hdr) (cbody : List Byte) (v : Nat) :
    (meetHeld s d cand cbody v).1.seqs.sealQ = s.seqs.sealQ := by
  unfold meetHeld
  dsimp only
  split
  · next e => exact (((load_steady ..).of_eq e).toMoves.trans (keyMismatch_moves ..)).sealQ
  · next u page e =>
    have hu : Moves s u := ((load_steady ..).of_eq e).toMoves
    split
    · exact hu.sealQ
    · exact (hu.trans (markDamaged_moves ..)).sealQ
    · exact (hu.trans (keyMismatch_moves ..)).sealQ
    · split
      · exact (hu.trans (keyMismatch_moves ..)).sealQ
      · have ht := (takeRef_sealQ u (refOf (Hdr.parse page) (v % 2 ^ 32))).trans hu.sealQ
        split
        all_goals
          next e' => rwa [e'] at ht

theorem shareStep_sealQ (s : State) (d : Desc) (k : Nat) (cand : Hdr) (cbody : List Byte) :
    (shareStep s d k cand cbody).1.seqs.sealQ = s.seqs.sealQ := by
  unfold shareStep
  dsimp only
  split
  · next e => exact (meetHeld_sealQ ..).trans ((search_index ..).moves.of_eq e).sealQ
  · next e => exact ((search_index ..).moves.of_eq e).sealQ
  · next e =>
    have hu := ((search_index ..).moves.of_eq e).sealQ
    split
    · exact (meetHeld_sealQ ..).trans hu
    · exact hu

/-! ### A page is written and committed (02_pages.md R41) -/

theorem writeSealed_moves {s t : State} {d : Desc} {it : SealItem} {cbody : List Byte} {way : ShareWay} {r : PageRef}
    (h : writeSealed s d it cbody way = some (t, r)) : Moves s t := by
  unfold writeSealed at h
  split at h
  · cases h
    exact .refl s
  · obtain ⟨⟨u, lpn⟩, hp, e⟩ := Option.map_eq_some_iff.mp h
    have hu := ((placeSlot_steady hp).trans (putWords_steady u (homeAddr u lpn)
      (withCrc (sealHeader d it (slotGen u lpn)) cbody))).toMoves
    obtain ⟨rfl, -⟩ := Prod.mk.inj e
    exact .ite (hu.trans (indexPage_moves ..)) hu

theorem putRoot_sealQ (s : State) (k i pair : Nat) (r : Root) : (putRoot s k i pair r).seqs.sealQ = s.seqs.sealQ := by
  unfold putRoot setRoot freshRefs
  dsimp only
  split <;> rfl

/-- The structures that a reference may need leave the queue. -/
theorem addRef_sealQ {s t : State} {k i pair tenant : Nat} {ref : PageRef} (h : addRef s k i pair tenant ref = some t) :
    t.seqs.sealQ = s.seqs.sealQ := by
  unfold addRef at h
  extract_lets r dir at h
  obtain ⟨⟨u, r1⟩, hd, h⟩ := Option.bind_eq_some_iff.mp h
  have hu : u.seqs.sealQ = s.seqs.sealQ := by
    unfold dir at hd
    split at hd
    · obtain ⟨⟨v, l⟩, hp, e⟩ := Option.map_eq_some_iff.mp hd
      cases e
      exact (placeSlot_steady hp).sealQ
    · cases hd
      rfl
  obtain ⟨⟨v, r2⟩, hc, rfl⟩ := Option.map_eq_some_iff.mp h
  rw [putRoot_sealQ, ← hu]
  split at hc
  · obtain ⟨⟨w, l⟩, hp, e⟩ := Option.map_eq_some_iff.mp hc
    cases e
    exact (placeSlot_steady hp).sealQ
  · cases hc
    rfl

theorem dropTail_sealQ (s : State) (key : TailKey) : (dropTail s key).seqs.sealQ = s.seqs.sealQ := by
  unfold dropTail
  extract_lets s1 s2
  have h1 : s1.seqs.sealQ = s.seqs.sealQ := by
    unfold s1
    split
    · exact (freeSram_steady ..).sealQ
    · rfl
  have h2 : s2.seqs.sealQ = s1.seqs.sealQ := by
    unfold s2
    split
    · exact (((freeSlot_steady ..).trans (freeSlot_steady ..)).trans (freeSlot_steady ..)).sealQ
    · rfl
  exact h2.trans h1

theorem commitSeal_sealQ {s t : State} {d : Desc} {it : SealItem} {r : PageRef} (h : commitSeal s d it r = some t) :
    t.seqs.sealQ = s.seqs.sealQ := by
  obtain ⟨u, hu, rfl⟩ := Option.map_eq_some_iff.mp h
  rw [← addRef_sealQ hu]
  split
  · exact dropTail_sealQ ..
  · rfl

theorem loadTail_moves (s : State) (d : Desc) (key : TailKey) (reader : Nat) : Moves s (loadTail s d key reader).1 := by
  unfold loadTail
  dsimp only
  split
  · split
    all_goals
      next e => exact ((load_steady ..).of_eq e).toMoves
  split
  · exact .refl s
  split
  · next e => exact ((load_steady ..).of_eq e).toMoves
  · next e =>
    split
    all_goals
      next e' => exact (((load_steady ..).of_eq e).trans ((load_steady ..).of_eq e')).toMoves

theorem sealRows_moves (s : State) (d : Desc) (it : SealItem) : Moves s (sealRows s d it).1 := by
  unfold sealRows
  split
  · split
    all_goals
      next e => exact (loadTail_moves ..).of_eq e
  · exact .refl s

/-- A seal commits, and its page has left the queue; or it finds no place, or its tail cannot be read, and the queue
stands. 02_pages.md R41, R43. -/
theorem sealItem_cases {s v : State} {it : SealItem} {st : Status} (h : sealItem s it = (v, st)) :
    st = .ok ∧ v.seqs.sealQ = s.seqs.sealQ.erase it ∨
      (st = .busy ∨ st = .uncorrectable) ∧ v.seqs.sealQ = s.seqs.sealQ := by
  unfold sealItem at h
  split at h
  · cases h
    exact .inr ⟨.inl rfl, rfl⟩
  · next d _ =>
    split at h
    · next e =>
      cases h
      exact .inr ⟨.inr rfl, ((sealRows_moves ..).of_eq e).sealQ⟩
    · next u ks vs e =>
      have hu : u.seqs.sealQ = s.seqs.sealQ := ((sealRows_moves ..).of_eq e).sealQ
      extract_lets cbody t at h
      split at h
      next x t' way ht =>
      split at h
      · next z hz =>
        cases h
        obtain ⟨⟨w, r⟩, hw, hc⟩ := Option.bind_eq_some_iff.mp hz
        have ht' : t'.seqs.sealQ = u.seqs.sealQ.erase it := by
          split at ht
          · have hs := shareStep_sealQ t d it.slice (sealHeader d it 0) cbody
            rw [ht] at hs
            exact hs
          · cases ht
            rfl
        exact .inl ⟨rfl, (commitSeal_sealQ hc).trans ((writeSealed_moves hw).sealQ.trans (ht'.trans (by rw [hu])))⟩
      · cases h
        exact .inr ⟨.inl rfl, hu⟩

/-! ### TAIL_SEAL and SEAL_RETRY -/

/-- What the seal unit does with a page it takes. That a page whose tail cannot be read is set aside and its request
answered is the model's choice (assumption 133). -/
theorem sealOne_turn (s : State) (it : SealItem) : SealTurn s (sealOne s it) it := by
  obtain ⟨⟨v, st⟩, h⟩ : ∃ p, sealItem s it = p := ⟨_, rfl⟩
  refine ⟨v, st, h, ?_⟩
  unfold sealOne
  rw [h]
  obtain ⟨rfl, hq⟩ | ⟨rfl | rfl, hq⟩ := sealItem_cases h
  · exact ⟨fun _ => ⟨rfl, hq⟩, nofun, fun h => absurd rfl h⟩
  · refine ⟨nofun, fun _ => ⟨?_, ?_, rfl⟩, fun _ h => absurd rfl h⟩
    · rw [← hq]
      rfl
    · exact rget_bump_same ..
  · exact ⟨nofun, nofun, fun _ _ => ⟨rfl, rfl⟩⟩

/-- A page whose tenant has had no slot freed since its latest try is taken no earlier than 100 µs after it. 06_append.md
R129. -/
theorem retryAt_waits {s : State} {it : SealItem}
    (h : freesOf s it.slice (((descOf s it.desc).map (·.tenant)).getD 0) = it.frees) :
    it.tried + 100000 ≤ now (retryAt s it) (homeHub s it.slice) := by
  have he : retryAt s it = passTo s (homeHub s it.slice) (it.tried + 100000) := if_neg fun hn => hn h
  rw [he, now_passTo]
  exact Nat.le_max_right ..

/-! ## Bytes of memory -/

theorem touchStack_rest (s : State) (a n : Nat) :
    touchStack s a n = { s with mem := { s.mem with stackCtl := (touchStack s a n).mem.stackCtl } } := by
  unfold touchStack
  dsimp only
  split
  · rfl
  · split <;> rfl

/-- A touch of the banks changes what banks and stacks are in, and nothing else. -/
theorem touchBanks_rest (s : State) (a n : Nat) : touchBanks s a n =
    { s with mem := { s.mem with banks := (touchBanks s a n).mem.banks, stackCtl := (touchBanks s a n).mem.stackCtl } } := by
  unfold touchBanks
  dsimp only
  rw [touchStack_rest]
  split <;> rfl

@[simp] theorem touchBanks_cells (s : State) (a n : Nat) : (touchBanks s a n).mem.cells = s.mem.cells := by
  rw [touchBanks_rest]
@[simp] theorem touchBanks_slots (s : State) (a n : Nat) : (touchBanks s a n).mem.slots = s.mem.slots := by
  rw [touchBanks_rest]
@[simp] theorem touchBanks_promo (s : State) (a n : Nat) : (touchBanks s a n).mem.promo = s.mem.promo := by
  rw [touchBanks_rest]

@[simp] theorem poke_promo (s : State) (a : Nat) (bs : List Byte) : (poke s a bs).mem.promo = s.mem.promo :=
  touchBanks_promo ..
@[simp] theorem scrub_promo (s : State) (a n : Nat) : (scrub s a n).mem.promo = s.mem.promo := touchBanks_promo ..
@[simp] theorem scrub_slots (s : State) (a n : Nat) : (scrub s a n).mem.slots = s.mem.slots := touchBanks_slots ..

@[simp] theorem freeSram_slots (s : State) (a : Nat) : (freeSram s a).mem.slots = s.mem.slots :=
  freeSram_part (·.mem.slots) (fun _ _ => rfl) scrub_slots (fun _ _ _ _ => rfl) s a
@[simp] theorem freeSram_promo (s : State) (a : Nat) : (freeSram s a).mem.promo = s.mem.promo :=
  freeSram_part (·.mem.promo) (fun _ _ => rfl) scrub_promo (fun _ _ _ _ => rfl) s a

/-- Bytes within what was written read back. -/
theorem peek_poke (s : State) (a : Nat) {bs : List Byte} {i n : Nat} (h : i + n ≤ bs.length) :
    peek (poke s a bs) (a + i) n = (bs.drop i).take n := by
  have hc : (poke s a bs).mem.cells = writeCells s.mem.cells a bs := by simp [poke, setChk, setCells]
  unfold peek
  rw [hc, readCells_eq]
  refine List.ext_getElem (by simp; omega) fun j h1 h2 => ?_
  have hj : j < n := by simpa using h1
  rw [List.getElem_map, List.getElem_range, Nat.add_assoc, readByte_writeCells_same _ _ _ _ (by omega)]
  simp [List.getD_eq_getElem?_getD, show i + j < bs.length by omega]

theorem homeAddr_congr {s t : State} (h : t.life.slices = s.life.slices) (lpn : Nat) : homeAddr t lpn = homeAddr s lpn := by
  simp only [homeAddr, sliceSt, h]

theorem liveAddr_congr {s t : State} (hp : t.mem.promo = s.mem.promo) (h : t.life.slices = s.life.slices) (lpn : Nat) :
    liveAddr t lpn = liveAddr s lpn := by
  simp only [liveAddr, hp, homeAddr_congr h]

/-! ## The reference unit (03_sequences.md R60) -/

theorem leBytes_length (n v : Nat) : (leBytes n v).length = n := by
  induction n generalizing v with
  | zero => rfl
  | succ n ih => simp [leBytes, ih]

section
variable {s u : State} {c : RefChange} {h : Hdr} (hl : loadHdr s c.lpn readUnit = (u, some h))
include hl

theorem applyRef_absent (hx : h.kf = fmtNone ∨ h.vf = fmtNone ∨ h.gen ≠ c.gen) : (applyRef s c).1 = u := by
  unfold applyRef
  rw [hl]
  simp only [hx, if_true]

variable (hk : h.kf ≠ fmtNone) (hv : h.vf ≠ fmtNone) (hg : h.gen = c.gen)
include hk hv hg

theorem applyRef_gains (hi : c.inc = true) (hr : h.refs < 0xFFFFFFFF) :
    (applyRef s c).1 = writeRefWord u c.lpn h.crc (h.refs + 1) := by
  unfold applyRef
  rw [hl]
  simp [hk, hv, hg, hi, Nat.not_le.mpr hr]

theorem applyRef_loses (hi : c.inc = false) (hr : 1 < h.refs) :
    (applyRef s c).1 = writeRefWord u c.lpn h.crc (h.refs - 1) := by
  unfold applyRef
  rw [hl]
  simp [hk, hv, hg, hi, Nat.not_le.mpr hr]

theorem applyRef_frees (hi : c.inc = false) (hr : h.refs ≤ 1) : (applyRef s c).1 = freePage u c.lpn := by
  unfold applyRef
  rw [hl]
  simp [hk, hv, hg, hi, hr]

end

/-- Where no snapshot is fenced, the count that is written reads back at offset 36. 02_pages.md R33. -/
theorem peek_writeRefWord {s : State} (h : s.dill.snaps = []) (lpn crc refs : Nat) :
    peek (writeRefWord s lpn crc refs) (liveAddr s lpn + 36) 4 = leBytes 4 refs := by
  unfold writeRefWord
  rw [putWords_clean h]
  refine (peek_poke s (liveAddr s lpn + 32) (i := 4) (n := 4) (by simp [leBytes_length, zeros])).trans ?_
  rw [List.append_assoc, List.drop_left' (leBytes_length ..), List.take_left' (leBytes_length ..)]

theorem clearSlot_gone (s : State) (lpn : Nat) : aget (clearSlot s lpn).mem.slots lpn = none := by
  unfold clearSlot
  split
  · assumption
  · simp

/-- A page released is in no slot. -/
theorem freePage_gone (s : State) (lpn : Nat) : aget (freePage s lpn).mem.slots lpn = none := by
  unfold freePage
  extract_lets s1 promo s2
  have h2 : aget s2.mem.slots lpn = none := clearSlot_gone ..
  cases promo with
  | some a => exact (congrArg (aget · lpn) (freeSram_slots s2 a)).trans h2
  | none => exact h2

/-- The reference unit takes a change where no word deviates and no snapshot is fenced. -/
theorem refTurn_of_quiet {s : State} (hq : Quiet s) (c : RefChange) :
    RefTurn s (applyRef (modSeqs s fun q => { q with refQ := q.refQ.erase c }) c).1 c
      (Hdr.parse (peek s (liveAddr s c.lpn) 64)) := by
  obtain ⟨hc, hs⟩ := hq
  let u := modSeqs s fun q => { q with refQ := q.refQ.erase c }
  obtain ⟨w, hl, hlive, hn, hcells, hslots⟩ : ∃ w, loadHdr u c.lpn readUnit =
      (w, some (Hdr.parse (peek s (liveAddr s c.lpn) 64))) ∧ liveAddr w c.lpn = liveAddr s c.lpn ∧
      w.dill.snaps = [] ∧ w.mem.cells = s.mem.cells ∧ w.mem.slots = s.mem.slots := by
    refine ⟨touchBanks u (liveAddr s c.lpn) 64, ?_, liveAddr_congr (by simp [u]) (by simp [u]) _, ?_, ?_, ?_⟩
    · unfold loadHdr
      rw [load_clean (show u.mem.chk = [] from hc)]
      simp only [peek, touchBanks_cells]
      rfl
    · rw [touchBanks_dill]
      exact hs
    · exact touchBanks_cells ..
    · exact touchBanks_slots ..
  refine ⟨((applyRef_steady u c).clean hc).2, fun hx => ?_,
    fun hk hv hg => ⟨fun hi hr => ?_, fun hi hr => ?_, fun hi hr => ?_⟩⟩
  · rw [applyRef_absent hl hx]
    exact ⟨hcells, hslots⟩
  · rw [applyRef_gains hl hk hv hg hi hr, ← hlive]
    exact peek_writeRefWord hn ..
  · rw [applyRef_loses hl hk hv hg hi hr, ← hlive]
    exact peek_writeRefWord hn ..
  · rw [applyRef_frees hl hk hv hg hi hr]
    exact freePage_gone ..

/-! ## Tails (06_append.md R130, R131) -/

theorem tailImages_steady {s t : State} {d : Desc} {q : TailKey} {k : Nat} {x : TailImage}
    (h : tailImages s d q k = some (t, x)) : Steady s t := by
  unfold tailImages at h
  extract_lets units at h
  split at h
  · cases h
    exact .refl s
  · obtain ⟨⟨u, r⟩, hr, h⟩ := Option.bind_eq_some_iff.mp h
    obtain ⟨⟨v, a⟩, ha, h⟩ := Option.bind_eq_some_iff.mp h
    obtain ⟨⟨w, b⟩, hb, h⟩ := Option.map_eq_some_iff.mp h
    cases h
    exact ((allocSlot_steady hr).trans (allocSlot_steady ha)).trans (allocSlot_steady hb)

/-- What a write-back that succeeds leaves of its tail x. -/
structure WrittenBack (s v : State) (q : TailKey) (x : Tail) : Prop where
  image : (aget v.seqs.images q).isSome = true
  tail : ∃ y, aget v.seqs.tails q = some y ∧ y.dirty.any id = false ∧ (s.mem.chk = [] → y.base = x.base)
  tier : ∀ (r : Reg) (i e : Nat), r.info.blk = .tier → rget v r i e = rget s r i e

theorem Steady.writtenBack {s t : State} (f : Steady s t) {q : TailKey} {x : Tail} (hx : aget s.seqs.tails q = some x)
    (i : TailImage) : WrittenBack s (modSeqs t fun z => { z with
      images := aset z.images q i,
      tails := amod z.tails q fun y => { y with dirty := y.dirty.map fun _ => false } }) q x where
  image := by simp
  tail := by
    obtain ⟨y, hy, hu⟩ : ∃ y, aget t.seqs.tails q = some y ∧ unplaced y = unplaced x := by
      have h := f.tails q
      rw [hx] at h
      exact Option.map_eq_some_iff.mp h
    refine ⟨{ y with dirty := y.dirty.map fun _ => false }, ?_, by simp, fun hc => ?_⟩
    · rw [modSeqs_seqs, aget_amod_same, hy]
      rfl
    · rw [(f.clean hc).2, hx] at hy
      rw [Option.some.inj hy]
  tier r i e h := f.tier r i e h

theorem writeBack_done {s v : State} {d : Desc} {q : TailKey} {x : Tail} (hx : aget s.seqs.tails q = some x)
    (h : writeBack s d q = (v, true)) : WrittenBack s v q x := by
  unfold writeBack at h
  rw [hx] at h
  dsimp only at h
  split at h
  · cases h
  · next u b hl =>
    split at h
    · cases h
    · next w i hi =>
      cases h
      refine Steady.writtenBack (.trans (.trans ((load_steady ..).of_eq hl) (tailImages_steady hi))
        (.trans (.foldl (fun s p => ?_) _ _) (putWords_steady ..))) hx _
      exact .ite ((putWords_steady ..).trans (putWords_steady ..)) (.refl s)

/-- What an eviction that succeeds leaves: the tail is gone, its images stand, and it is counted. -/
structure Evicted (s v : State) (q : TailKey) : Prop where
  tail : aget v.seqs.tails q = none
  image : (aget v.seqs.images q).isSome = true
  count : rget v .tier_TAIL_EVICTIONS 0 0 =
    min (rget s .tier_TAIL_EVICTIONS 0 0 + 1) (2 ^ Reg.tier_TAIL_EVICTIONS.width - 1)

/-- A tail with images, once it is released. -/
theorem evicted_of_release {s u : State} {q : TailKey} (hi : (aget u.seqs.images q).isSome = true)
    (ht : rget u .tier_TAIL_EVICTIONS 0 0 = rget s .tier_TAIL_EVICTIONS 0 0) (base : Nat) :
    Evicted s (bump (freeSram (modSeqs u fun z => { z with tails := adel z.tails q }) base) .tier_TAIL_EVICTIONS 0) q := by
  rw [freeSram_rest]
  refine ⟨?_, ?_, ?_⟩
  · rw [bump_seqs]
    exact aget_adel_same ..
  · rw [bump_seqs]
    exact hi
  · rw [rget_bump_same, ← ht]
    rfl

theorem evictTail_done {s v : State} {d : Desc} {q : TailKey} {x : Tail} (hx : aget s.seqs.tails q = some x)
    (h : evictTail s d q = (v, true)) : Evicted s v q := by
  unfold evictTail at h
  rw [hx] at h
  dsimp only at h
  generalize hp : (if x.dirty.any id = true ∨ (aget s.seqs.images q).isNone = true then writeBack s d q else (s, true)) = p
    at h
  obtain ⟨u, ok⟩ := p
  split at h
  · next hok =>
    obtain rfl : ok = true := hok
    obtain ⟨rfl, -⟩ := Prod.mk.inj h
    split at hp
    · have hw := writeBack_done hx hp
      exact evicted_of_release hw.image (hw.tier _ _ _ rfl) _
    · next hc =>
      cases hp
      exact evicted_of_release (by simpa [Option.isSome_iff_ne_none] using (not_or.mp hc).2) rfl _
  · cases h

/-! ## Promotion and demotion (06_append.md R135, R136) -/

theorem execPagePromote_due {s : State} {lpn : Nat} {u : SlotUse} (h : PromotionDue s lpn u) :
    execPagePromote lpn s = .next (promotePage (drainRefs s (lpnSlice lpn)) (lpnSlice lpn) lpn u) := by
  obtain ⟨hu, hen, hkind, hpos, hthr, hsealed, hkf, hpromo, hclosing, hst⟩ := h
  unfold execPagePromote
  rw [hu]
  refine if_pos ?_
  unfold recentOpens at hpos hthr
  simp [hen, hkind, hpos, hthr, hsealed, hkf, hpromo, hclosing, hst]

section
variable {s w : State} {k lpn : Nat} {u : SlotUse} {p : List Byte}
  (hlimit : u.units ≤ 256 * min 48 (rg s .tier_promote_pool_mib))
  (hl : load s (homeAddr s lpn) (hdrAt s (homeAddr s lpn)).geom.size readPool = (w, some p))
include hlimit hl

theorem promotePage_damaged (hp : sealCrc p ≠ (Hdr.parse p).crc) : promotePage s k lpn u = markDamaged w lpn := by
  unfold promotePage
  dsimp only
  rw [if_neg (Nat.not_lt.mpr hlimit), hl]
  exact if_pos hp

/-- A page that its pool has room for, with no page to yield, takes its place. -/
theorem promotePage_placed (hp : sealCrc p = (Hdr.parse p).crc)
    (hfits : promoUsed w k + u.units ≤ 256 * min 48 (rg s .tier_promote_pool_mib)) (hno : promotedOf w k = [])
    {z : State} {a : Nat} (ha : allocSram w k 0 u.units .promotion = some (z, a)) :
    promotePage s k lpn u = modMem (poke z a p) fun m =>
      { m with promo := aset m.promo lpn ⟨a, false, now z (homeHub z k)⟩ } := by
  unfold promotePage
  dsimp only
  rw [if_neg (Nat.not_lt.mpr hlimit), hl]
  dsimp only
  rw [if_neg fun hn => hn hp]
  simp only [hno, demoteUntil, hfits, decide_true, Bool.not_true, Bool.false_eq_true, if_false, ha]

end

/-- A page whose demotion ends has no place in SRAM. -/
theorem settleHome_gone (s : State) (lpn : Nat) (p : Promo) (page : List Byte) :
    aget (settleHome s lpn p page).mem.promo lpn = none := by
  unfold settleHome
  rw [freeSram_promo]
  exact aget_adel_same ..

/-- The end of a demotion where no snapshot is fenced, before the page's place is released: the copy is home if it
changed. -/
def broughtHome (s : State) (lpn : Nat) (p : Promo) (page : List Byte) : State :=
  modMem (if p.changed then poke s (homeAddr s lpn) page else s) fun m => { m with promo := adel m.promo lpn }

theorem settleHome_clean {s : State} (hs : s.dill.snaps = []) {lpn : Nat} {p : Promo} (hp : aget s.mem.promo lpn = some p)
    (page : List Byte) : settleHome s lpn p page = freeSram (broughtHome s lpn p page) p.base := by
  unfold settleHome broughtHome
  rw [putWords_clean hs]
  cases p.changed <;> simp [hp]

section
variable (s : State) (lpn : Nat) (p : Promo) (page : List Byte)

theorem poke_rest (a : Nat) (bs : List Byte) : poke s a bs = { s with mem := (poke s a bs).mem } := by
  unfold poke
  dsimp only [setChk, setCells]
  rw [touchBanks_rest]

theorem broughtHome_rest : broughtHome s lpn p page = { s with mem := (broughtHome s lpn p page).mem } := by
  unfold broughtHome
  split
  · rw [poke_rest]
    rfl
  · rfl

theorem broughtHome_promo {l : Nat} (h : l ≠ lpn) :
    aget (broughtHome s lpn p page).mem.promo l = aget s.mem.promo l := by
  unfold broughtHome
  rw [modMem_mem]
  refine (aget_adel_other h _).trans ?_
  split
  · rw [poke_promo]
  · rfl

theorem peek_broughtHome (h : p.changed = true) :
    peek (broughtHome s lpn p page) (homeAddr s lpn) page.length = page := by
  have hb : peek (poke s (homeAddr s lpn) page) (homeAddr s lpn + 0) page.length = page :=
    (peek_poke s _ (by simp)).trans (by simp)
  unfold broughtHome
  rw [if_pos h]
  exact hb

theorem broughtHome_cells (h : p.changed = false) : (broughtHome s lpn p page).mem.cells = s.mem.cells := by
  unfold broughtHome
  rw [h]
  rfl

end

section
variable {s : State} {lpn : Nat} {p : Promo}

theorem demote_closing (h : extentClosing s lpn = true) : demote s lpn = s := by
  unfold demote
  split
  · rfl
  · exact if_pos h

variable (hp : aget s.mem.promo lpn = some p) (hc : extentClosing s lpn = false)
include hp hc

theorem demote_unread {w : State} (hl : load s p.base (liveHdr s lpn).geom.size readPool = (w, none)) :
    demote s lpn = w := by
  unfold demote livePageSize
  rw [hp]
  dsimp only
  rw [if_neg (by simp [hc]), hl]

variable {w : State} {page : List Byte} (hl : load s p.base (liveHdr s lpn).geom.size readPool = (w, some page))
include hl

theorem demote_read : demote s lpn =
    if (Hdr.parse page).damaged = true ∨ sealCrc page = (Hdr.parse page).crc then settleHome w lpn p page
    else settleHome (markDamaged w lpn) lpn { p with changed := true }
      ({ Hdr.parse page with damaged := true }.bytes ++ page.drop 64) := by
  unfold demote livePageSize
  rw [hp]
  dsimp only
  rw [if_neg (by simp [hc]), hl]

/-- Once its copy has been read, a page is demoted, damaged or not. -/
theorem demote_gone : aget (demote s lpn).mem.promo lpn = none := by
  rw [demote_read hp hc hl]
  split
  · exact settleHome_gone ..
  · exact settleHome_gone ..

end

/-- A demotion where no word deviates and no snapshot is fenced changes memory alone. -/
theorem demote_quiet {s w : State} (hq : Quiet s) {lpn : Nat} {p : Promo} {page : List Byte}
    (hp : aget s.mem.promo lpn = some p) (hc : extentClosing s lpn = false)
    (hl : load s p.base (liveHdr s lpn).geom.size readPool = (w, some page))
    (hd : (Hdr.parse page).damaged = true ∨ sealCrc page = (Hdr.parse page).crc) :
    demote s lpn = { s with mem := (demote s lpn).mem } ∧
      (∀ l, l ≠ lpn → aget (demote s lpn).mem.promo l = aget s.mem.promo l) ∧
      ∃ v, demote s lpn = freeSram v p.base ∧ (p.changed = true → peek v (homeAddr s lpn) page.length = page) ∧
        (p.changed = false → v.mem.cells = s.mem.cells) := by
  obtain ⟨hchk, hs⟩ := hq
  obtain rfl : touchBanks s p.base (liveHdr s lpn).geom.size = w := by
    rw [load_clean hchk] at hl
    exact (Prod.mk.inj hl).1
  have hhome : homeAddr (touchBanks s p.base (liveHdr s lpn).geom.size) lpn = homeAddr s lpn :=
    homeAddr_congr (by simp) _
  have he : demote s lpn = freeSram (broughtHome (touchBanks s p.base (liveHdr s lpn).geom.size) lpn p page) p.base := by
    rw [demote_read hp hc hl, if_pos hd, settleHome_clean (by simpa using hs) (by simpa using hp)]
  refine ⟨?_, fun l h => ?_, _, he, fun h => ?_, fun h => ?_⟩
  · rw [he, freeSram_rest, broughtHome_rest, touchBanks_rest]
  · rw [he, freeSram_promo, broughtHome_promo _ _ _ _ h, touchBanks_promo]
  · rw [← hhome]
    exact peek_broughtHome _ _ _ _ h
  · rw [broughtHome_cells _ _ _ _ h, touchBanks_cells]

/-! ## What slices do by themselves -/

/-- A command whose meaning answers t completes with what holds of t. -/
theorem completes_of_exec {c : Instr} {s t : State} {P : State → Prop} (ht : exec c s = .next t) (hp : P t) :
    Completes c s P := ⟨t, ht, hp⟩

section
variable {s : State}

theorem exec_tailSeal {k : Slice} {it : SealItem} (h : nextSeal s k.val false = some it) :
    exec (.tailSeal k) s = .next (if sealHeld s it then s else sealOne s it) := by
  dsimp only [exec]
  unfold execTailSeal
  rw [h]

theorem exec_sealRetry {k : Slice} {it : SealItem} (h : nextSeal s k.val true = some it) :
    exec (.sealRetry k) s = .next (if sealHeld s it then s else sealOne (retryAt s it) it) := by
  dsimp only [exec]
  unfold execSealRetry
  rw [h]

theorem exec_refCountChange {k : Slice} {c : RefChange}
    (h : (s.seqs.refQ.find? fun c => decide (lpnSlice c.lpn = k.val)) = some c) :
    exec (.refCountChange k) s = .next (if scrubHeld s c then s
      else (applyRef (modSeqs s fun q => { q with refQ := q.refQ.erase c }) c).1) := by
  dsimp only [exec]
  unfold execRefCountChange
  rw [h]

variable {q : TailKey} {x : Tail} {d : Desc} (hx : aget s.seqs.tails q = some x) (hd : descOf s q.desc = some d)
include hx hd

theorem exec_tailWriteBack {u : State} (hu : u = passTo s (homeHub s x.slice) (x.lastRow + rg s .tier_wb_idle)) :
    exec (.tailWriteBack q) s = .next (if x.dirty.any id ∧ (sliceSt u x.slice).st ≠ 1 then (writeBack u d q).1 else u) := by
  subst hu
  dsimp only [exec]
  unfold execTailWriteBack
  rw [hx, hd]

theorem exec_tailEvict (hf : x.frozen = false) {u : State}
    (hu : u = passTo s (homeHub s x.slice) (x.lastRow + rg s .tier_evict_idle)) :
    exec (.tailEvict q) s = .next (if (sliceSt s x.slice).st = 1 then s else (evictTail u d q).1) := by
  subst hu
  dsimp only [exec]
  unfold execTailEvict
  rw [hx, hd]
  dsimp only
  simp only [hf, Bool.false_eq_true, false_or]
  split <;> rfl

end

/-- Settles O4: the seal unit by `sealOne_turn` (that a page whose tail cannot be read is set aside and its request
answered is the model's choice, assumption 133), the reference unit by `refTurn_of_quiet`, write-back and eviction by
`writeBack_done` and `evictTail_done`, promotion by `promotePage_damaged` and `promotePage_placed`, demotion by
`demote_gone` and `demote_quiet`. -/
theorem slicesSealEvictAndPromote : Obligations.SlicesSealEvictAndPromote := by
  unfold Obligations.SlicesSealEvictAndPromote
  refine ⟨fun k it s h => ?_, fun k it s h => ?_, fun k c s h => ?_, fun q x d s u hx hd hu => ?_,
    fun q x d s u hx hd hf hu => ?_, fun lpn u s v w p hdue hv hlimit hl hfits hno => ?_, fun lpn p s hp => ?_⟩
  · obtain ⟨hk, ha⟩ := nextSeal_mem h
    refine completes_of_exec (exec_tailSeal h) ⟨hk, ha, fun hh => if_pos hh, fun hh => ?_⟩
    rw [if_neg (by simp [hh])]
    exact sealOne_turn s it
  · obtain ⟨hk, ha⟩ := nextSeal_mem h
    refine completes_of_exec (exec_sealRetry h) ⟨hk, ha, fun hh => if_pos hh, fun hh => ?_, retryAt_waits⟩
    rw [if_neg (by simp [hh])]
    exact sealOne_turn (retryAt s it) it
  · refine completes_of_exec (exec_refCountChange h) ⟨fun hh => if_pos hh, fun hh => ?_⟩
    rw [if_neg (by simp [hh])]
    exact ⟨(applyRef_steady ..).refQ, fun hq => refTurn_of_quiet hq c⟩
  · have hxu : aget u.seqs.tails q = some x := by rw [hu]; exact hx
    refine completes_of_exec (exec_tailWriteBack hx hd hu)
      ⟨fun hn => ?_, fun v hdirty hst hv => ?_, fun v hdirty hst hv => ?_⟩
    · refine if_neg fun hc => ?_
      rcases hn with hn | hn
      · exact absurd hc.1 (by simp [hn])
      · exact hc.2 hn
    · rw [if_pos ⟨hdirty, hst⟩, hv]
      obtain ⟨himage, ⟨y, hy, hclean, hbase⟩, -⟩ := writeBack_done hxu hv
      exact ⟨rfl, himage, y, hy, hclean, fun hc => hbase (by rw [hu]; exact hc)⟩
    · rw [if_pos ⟨hdirty, hst⟩, hv]
  · have hxu : aget u.seqs.tails q = some x := by rw [hu]; exact hx
    refine completes_of_exec (exec_tailEvict hx hd hf hu) ⟨fun hst => if_pos hst, fun v hst hv => ?_, fun v hst hv => ?_⟩
    · obtain ⟨htail, himage, hcount⟩ := evictTail_done hxu hv
      rw [if_neg hst, hv]
      exact ⟨rfl, htail, himage, by rw [hcount, hu]; rfl⟩
    · rw [if_neg hst, hv]
  · refine completes_of_exec (execPagePromote_due hdue) ?_
    rw [← hv]
    refine ⟨promotePage_damaged hlimit hl, fun z a hcrc ha => ?_⟩
    rw [promotePage_placed hlimit hl hcrc hfits hno ha]
    refine ⟨aget_aset_same .., by simp, ?_⟩
    calc (poke z a p).ledg = z.ledg := by simp
      _ = w.ledg := (allocSram_moves ha).ledg
      _ = v.ledg := ((load_moves ..).of_eq hl).ledg
      _ = s.ledg := by rw [hv, drainRefs_ledg]
  · refine completes_of_exec rfl ⟨fun h => ?_, fun w hst hc hl => ?_, fun w page hst hc hl => ?_⟩
    · rcases h with h | h
      · rw [demote_closing h, ite_self]
      · exact if_pos h
    · rw [if_neg hst, demote_unread hp hc hl]
    · rw [if_neg hst]
      exact ⟨demote_gone hp hc hl, fun hq hd => demote_quiet hq hp hc hl hd⟩

end Sys2Proof.Proofs

namespace Sys2Proof.Proofs
open Sys2Proof.Machine Sys2Proof.Laws

/-!
Sequences drain before they change (O3). A request that starts to wait leaves the reassembly space (R314), and where its
peer had used up the credit that it was granted, the receiver says at once that credit has reopened (R240): the ACK for
that is sent by the very step that puts the sequence in DRAINING. So more changes in that step than the sequence's
descriptor and the request's phase.
-/

/-- An active sequence of tenant 3, one request in flight. -/
def busySeq : Desc :=
  { (default : Desc) with state := .active, handle := 3 * 2 ^ 48 + 1, tenant := 3, layers := 1, kvHeads := 1, gen := 1,
                          inflight := 1 }

/-- The payload of its DROP: version 1, form 5, the handle. -/
def dropBytes : List Byte := beBytes 1 1 ++ beBytes 1 5 ++ zeros 2 ++ beBytes 8 busySeq.handle ++ zeros 52

/-- Its DROP, in the queue: it came over connection 9, and its segment holds one unit of the reassembly space. -/
def dropReq : Msg :=
  { ownMsg State.reset 0 .append dropBytes 0 with origin := .conn 0 9 0, tenant := 3, endpoint := 2, units := 1 }

/-- That connection: open, with nothing left of the credit its peer was granted. -/
def spentConn : Conn :=
  { (default : Conn) with state := .open_, peer := 2, version := 1, tenant := 3, onChip := true, rcvNext := 1, edge := 1 }

/-- A node with the sequence at descriptor index 0, its handle's row, the connection and the request. -/
def dropNode : State :=
  let row : ChiveRow := ⟨busySeq.handle, clsHandle, 0, 0⟩
  let place := (0, homeBlock State.reset 0 clsHandle busySeq.handle * 16)
  let s := modSeqs State.reset fun q => { q with descs := [(0, busySeq)] }
  let s := modChive s fun c => { c with shadow := [(place, row)], cam := [(place, row)] }
  setMsgs (modFab s fun x => { x with conns := [(9, spentConn)] }) [(3, dropReq)]

/-- A DROP that passes its checks starts to drain its sequence. -/
theorem exec_dropSeq {s u : State} {msg i : Nat} {m : Msg} {a : App} {d : Desc} (hf : FormFinds s u msg 5 i m a d)
    (hb : a.bare m = true) : exec (.dropSeq msg) s = .next (startDrain u i d .drop msg 0) := by
  obtain ⟨hs, hfind, -⟩ := hf
  dsimp only [exec]
  unfold execDropSeq
  rw [hs]
  dsimp only
  rw [hfind]
  dsimp only
  rw [hb]
  rfl

theorem eq_ok_of_toOption {ε α : Type} {x : Except ε α} {a : α} (h : x.toOption = some a) : x = .ok a := by
  cases x with
  | error e => cases h
  | ok b => exact congrArg Except.ok (Option.some.inj h)

/-- The DROP finds its sequence. -/
theorem dropNode_finds :
    FormFinds dropNode (findActive dropNode dropReq (App.parse true dropBytes)).1 3 5 0 dropReq (App.parse true dropBytes)
      busySeq :=
  ⟨by decide +kernel, Prod.ext rfl (eq_ok_of_toOption (by decide +kernel)), by decide +kernel⟩

/-- The step that lets the DROP wait sends the ACK that reopens the credit. 10_fabric.md R240. -/
theorem dropNode_sends_ack :
    (startDrain (findActive dropNode dropReq (App.parse true dropBytes)).1 0 busySeq .drop 3 0).traf.egress ≠
      (findActive dropNode dropReq (App.parse true dropBytes)).1.traf.egress := by
  decide +kernel

/-- Refutes O3: a DROP that waits for a request in flight is said to change nothing but the descriptor and the messages;
on `dropNode` its segment's unit of reassembly space is freed, and an ACK goes to egress (`dropNode_sends_ack`). -/
theorem not_sequencesDrainBeforeTheyChange : ¬ Obligations.SequencesDrainBeforeTheyChange := by
  unfold Obligations.SequencesDrainBeforeTheyChange
  rintro ⟨-, -, hdrop, -⟩
  obtain ⟨t, ht, hwait, -⟩ := hdrop 3 0 dropReq (App.parse true dropBytes) busySeq dropNode _ dropNode_finds
    (by decide +kernel) (by decide +kernel)
  obtain ⟨-, -, -, hrest⟩ := hwait (by decide)
  rw [exec_dropSeq dropNode_finds (by decide +kernel)] at ht
  cases ht
  exact dropNode_sends_ack (congrArg (·.traf.egress) hrest)

end Sys2Proof.Proofs

namespace Sys2Proof.Proofs
open Sys2Proof.Machine Sys2Proof.Laws

/-!
How a sequence comes to be (O2). What a fork or a bind does to pages, tails, tables and the index stays apart from the
ledger, the merges and the table of descriptors (Apart): shown once for each operation. What each command answers is then
its definition read along one path of its checks, and the descriptor it leaves is the one it enters last.
-/

/-! ## What stays apart from the ledger, the merges and the descriptors -/

/-- From s to t the ledger, the merges and the table of descriptors stand. -/
structure Apart (s t : State) : Prop where
  ledg : t.ledg = s.ledg
  merge : t.merge = s.merge
  descs : t.seqs.descs = s.seqs.descs

theorem bind_eq_ok {ε α β : Type} {x : Except ε α} {f : α → Except ε β} {b : β} (h : x.bind f = .ok b) :
    ∃ a, x = .ok a ∧ f a = .ok b := by
  cases x with
  | error e => cases h
  | ok a => exact ⟨a, rfl, h⟩

theorem map_eq_ok {ε α β : Type} {x : Except ε α} {f : α → β} {b : β} (h : x.map f = .ok b) :
    ∃ a, x = .ok a ∧ f a = b := by
  cases x with
  | error e => cases h
  | ok a => exact ⟨a, rfl, Except.ok.inj h⟩

/-- A fold whose steps all leave a value alone leaves it alone. -/
theorem foldl_stays {α β : Type} {f : β → α → β} {b : β} (hf : ∀ x, f b x = b) : ∀ l : List α, l.foldl f b = b
  | [] => rfl
  | x :: l => by rw [List.foldl_cons, hf, foldl_stays hf l]

namespace Apart
variable {a s t : State}

theorem refl (s : State) : Apart s s := ⟨rfl, rfl, rfl⟩

theorem trans (f : Apart a s) (g : Apart s t) : Apart a t :=
  ⟨g.ledg.trans f.ledg, g.merge.trans f.merge, g.descs.trans f.descs⟩

theorem ite {c : Prop} [Decidable c] (f : Apart a s) (g : Apart a t) : Apart a (if c then s else t) := by
  split <;> assumption

/-- The state that an operation gives with a result. -/
theorem of_eq {β : Type} {p : State × β} {r : β} (h : Apart s p.1) (e : p = (t, r)) : Apart s t := by subst e; exact h

theorem of_moves (f : Moves s t) (h : t.merge = s.merge) : Apart s t := ⟨f.ledg, h, by rw [f.rest]⟩

theorem of_index {h : Nat} (f : IndexOnly h s t) : Apart s t := of_moves f.moves f.spares.1

/-- A change of the sequences that leaves the descriptors. -/
theorem of_modSeqs {f : SeqSt → SeqSt} (h : ∀ q, (f q).descs = q.descs := by intro q; rfl) : Apart s (modSeqs s f) :=
  ⟨rfl, rfl, h s.seqs⟩

theorem foldl {β : Type} {f : State → β → State} (hf : ∀ s x, Apart s (f s x)) :
    ∀ (l : List β) (s : State), Apart s (l.foldl f s)
  | [], s => refl s
  | x :: l, s => (hf s x).trans (foldl hf l (f s x))

/-- A fold that gives a result beside the state. -/
theorem foldl_fst {β γ : Type} {f : State × γ → β → State × γ} (hf : ∀ p x, Apart p.1 (f p x).1) :
    ∀ (l : List β) (p : State × γ), Apart p.1 (l.foldl f p).1
  | [], p => refl p.1
  | x :: l, p => (hf p x).trans (foldl_fst hf l (f p x))

/-- A fold whose steps may find no place. -/
theorem foldl_some {β : Type} {f : State → β → Option State} (hf : ∀ {s t} x, f s x = some t → Apart s t) :
    ∀ (l : List β) {s t : State}, l.foldl (fun o x => o.bind fun s => f s x) (some s) = some t → Apart s t
  | [], s, _, h => by cases h; exact refl s
  | x :: l, s, t, h => by
    change l.foldl _ (f s x) = some t at h
    cases hx : f s x with
    | none =>
      rw [hx, foldl_stays fun _ => rfl] at h
      cases h
    | some u =>
      rw [hx] at h
      exact (hf x hx).trans (foldl_some hf l h)

/-- A fold whose steps may fail, over states with a value each. -/
theorem foldl_ok {β γ : Type} (st : γ → State) {f : γ → β → Except Status γ}
    (hf : ∀ {y z} x, f y x = .ok z → Apart (st y) (st z)) :
    ∀ (l : List β) {y z : γ}, l.foldl (fun (o : Except Status γ) x => o.bind fun y => f y x) (.ok y) = .ok z →
      Apart (st y) (st z)
  | [], y, _, h => by cases h; exact refl _
  | x :: l, y, z, h => by
    change l.foldl _ (f y x) = .ok z at h
    cases hx : f y x with
    | error st =>
      rw [hx, foldl_stays fun _ => rfl] at h
      cases h
    | ok u =>
      rw [hx] at h
      exact (hf x hx).trans (foldl_ok st hf l h)

end Apart

/-! ### Memory -/

theorem load_apart (s : State) (a n reader : Nat) : Apart s (load s a n reader).1 :=
  .of_moves (load_moves ..) (load_spares ..).1

theorem poke_apart (s : State) (a : Nat) (bs : List Byte) : Apart s (poke s a bs) := .of_moves (poke_moves ..) (by simp)

theorem modMem_apart (s : State) (f : MemSt → MemSt) : Apart s (modMem s f) := ⟨rfl, rfl, rfl⟩

theorem bump_apart (s : State) (r : Reg) (i : Nat) : Apart s (bump s r i) := ⟨by simp, by simp, by simp⟩

theorem lowerFences_apart (s : State) (a n : Nat) : Apart s (lowerFences s a n) :=
  .of_moves (lowerFences_steady ..).toMoves (lowerFences_spares ..).1

theorem putWords_apart (s : State) (a : Nat) (bs : List Byte) : Apart s (putWords s a bs) :=
  (lowerFences_apart ..).trans (poke_apart ..)

theorem freeSram_apart (s : State) (a : Nat) : Apart s (freeSram s a) :=
  .of_moves (freeSram_steady ..).toMoves (freeSram_spares ..).1

theorem allocSram_apart {s t : State} {die tenant n a : Nat} {kind : SramKind}
    (h : allocSram s die tenant n kind = some (t, a)) : Apart s t :=
  .of_moves (allocSram_moves h) (allocSram_spares h).1

theorem freeSlot_apart (s : State) (lpn : Nat) : Apart s (freeSlot s lpn) :=
  .of_moves (freeSlot_steady ..).toMoves (freeSlot_spares ..).1

theorem loadGen_apart (s : State) (lpn : Nat) : Apart s (loadGen s lpn).1 := by
  unfold loadGen
  split
  · next e => exact (load_apart ..).of_eq e
  · next e => exact ((load_apart ..).of_eq e).trans ⟨rfl, rfl, rfl⟩

theorem innerGens_apart (s : State) (lpn n : Nat) : Apart s (innerGens s lpn n).1 := by
  unfold innerGens
  refine .foldl_fst (fun acc i => ?_) _ (s, ([] : List (Nat × Nat)))
  exact loadGen_apart acc.1 (lpn + i + 1)

theorem placeSlot_apart {s t : State} {k tenant units lpn : Nat} {kind : SlotKind}
    (h : placeSlot s k tenant units kind = some (t, lpn)) : Apart s t := by
  obtain ⟨l, -, e⟩ := Option.map_eq_some_iff.mp h
  cases e
  exact .trans (.trans (lowerFences_apart ..) ((loadGen_apart ..).trans (innerGens_apart ..)))
    (.trans (.of_moves (scrub_steady ..).toMoves (by simp)) (modMem_apart ..))

theorem allocSlot_apart {s t : State} {k tenant units lpn : Nat} {kind : SlotKind}
    (h : allocSlot s k tenant units kind = some (t, lpn)) : Apart s t := by
  unfold allocSlot at h
  split at h
  · exact placeSlot_apart h
  · cases h

theorem noteChange_apart (s : State) (lpn : Nat) : Apart s (noteChange s lpn) := modMem_apart ..

theorem markDamaged_apart (s : State) (lpn : Nat) : Apart s (markDamaged s lpn) :=
  .of_moves (markDamaged_moves ..) (by simp [markDamaged, noteChange])

/-! ### The index -/

theorem insertAll_apart : ∀ (hs : List Nat) (row : ChiveRow) (s : State), Apart s (insertAll s hs row).1
  | [], _, s => .refl s
  | h :: hs, row, s => by
    unfold insertAll
    split
    · next e =>
      have h1 := (Apart.of_index (insert_index s h row)).of_eq e
      split
      · next e' => exact h1.trans ((insertAll_apart hs row _).of_eq e')
      · next e' => exact (h1.trans ((insertAll_apart hs row _).of_eq e')).trans (.of_index (delete_index ..))
    · next e => exact (Apart.of_index (insert_index s h row)).of_eq e

theorem findSeq_apart (s : State) (hub tenant handle : Nat) : Apart s (findSeq s hub tenant handle).1 := by
  unfold findSeq
  split
  · exact .refl s
  · exact .of_index (search_index ..)

theorem findOther_apart (s : State) (m : Msg) (handle gen : Nat) : Apart s (findOther s m handle gen).1 := by
  have hf {u : State} {r : Found} (e : findSeq s m.hub m.tenant handle = (u, r)) : Apart s u := (findSeq_apart ..).of_eq e
  unfold findOther
  split
  · next e => exact hf e
  · next e => exact hf e
  · next e => split <;> exact hf e

/-! ### References (03_sequences.md R60) -/

theorem loadHdr_apart (s : State) (lpn reader : Nat) : Apart s (loadHdr s lpn reader).1 := by
  unfold loadHdr
  split
  all_goals
    next e => exact (load_apart ..).of_eq e

theorem unindexPage_apart (s : State) (lpn : Nat) (h : Hdr) : Apart s (unindexPage s lpn h) :=
  .ite (.of_index (delete_index s _ _ _ _)) (.refl s)

theorem freePage_apart (s : State) (lpn : Nat) : Apart s (freePage s lpn) := by
  unfold freePage
  extract_lets s1 promo s2
  have h2 : Apart s s2 := (unindexPage_apart ..).trans (freeSlot_apart ..)
  cases promo with
  | some a => exact h2.trans (freeSram_apart ..)
  | none => exact h2

theorem writeRefWord_apart (s : State) (lpn crc refs : Nat) : Apart s (writeRefWord s lpn crc refs) :=
  (putWords_apart ..).trans (noteChange_apart _ lpn)

theorem applyRef_apart (s : State) (c : RefChange) : Apart s (applyRef s c).1 := by
  unfold applyRef
  split
  · next e => exact (loadHdr_apart ..).of_eq e
  · next u h e =>
    have hu : Apart s u := (loadHdr_apart ..).of_eq e
    have hw (n : Nat) : Apart s (writeRefWord u c.lpn h.crc n) := hu.trans (writeRefWord_apart ..)
    split
    · exact hu
    · split
      · split
        · exact hu
        · exact hw _
      · split
        · exact hu.trans (freePage_apart ..)
        · exact hw _

theorem drainRefs_apart (s : State) (k : Nat) : Apart s (drainRefs s k) :=
  (Apart.of_modSeqs).trans (.foldl (fun s c => applyRef_apart s c) _ _)

theorem takeRef_apart (s : State) (r : PageRef) : Apart s (takeRef s r).1 :=
  (drainRefs_apart ..).trans (applyRef_apart ..)

theorem refCount_apart (s : State) (r : PageRef) : Apart s (refCount s r).1 :=
  (drainRefs_apart ..).trans (loadHdr_apart ..)

theorem giveRef_apart (s : State) (r : PageRef) : Apart s (giveRef s r) := .of_modSeqs

theorem putRoot_apart (s : State) (k i pair : Nat) (r : Root) : Apart s (putRoot s k i pair r) := by
  unfold putRoot setRoot freshRefs
  dsimp only
  split
  · exact .of_modSeqs
  · exact ⟨rfl, rfl, rfl⟩

theorem swapRef_apart (s : State) (k i pair : Nat) (old new : PageRef) : Apart s (swapRef s k i pair old new) :=
  putRoot_apart ..

theorem addRef_apart {s t : State} {k i pair tenant : Nat} {ref : PageRef} (h : addRef s k i pair tenant ref = some t) :
    Apart s t := by
  unfold addRef at h
  extract_lets r dir at h
  obtain ⟨⟨u, r1⟩, hd, h⟩ := Option.bind_eq_some_iff.mp h
  have hu : Apart s u := by
    unfold dir at hd
    split at hd
    · obtain ⟨⟨v, l⟩, hp, e⟩ := Option.map_eq_some_iff.mp hd
      cases e
      exact placeSlot_apart hp
    · cases hd
      exact .refl s
  obtain ⟨⟨v, r2⟩, hc, rfl⟩ := Option.map_eq_some_iff.mp h
  refine (hu.trans ?_).trans (putRoot_apart ..)
  split at hc
  · obtain ⟨⟨w, l⟩, hp, e⟩ := Option.map_eq_some_iff.mp hc
    cases e
    exact placeSlot_apart hp
  · cases hc
    exact .refl u

/-! ### Pages -/

theorem readPage_apart (s : State) (r : PageRef) (g : PGeom) (tenant : Nat) (crc : Bool) (reader : Nat) :
    Apart s (readPage s r g tenant crc reader).1 := by
  unfold readPage
  split
  · exact .refl s
  split
  · next e => exact (load_apart ..).of_eq e
  · next u p e =>
    have hu : Apart s u := (load_apart ..).of_eq e
    have hm : Apart s (markDamaged u r.lpn) := hu.trans (markDamaged_apart ..)
    dsimp only
    split
    · exact hu
    split
    · exact hu
    split
    · split
      · exact hm
      · exact hu
    split
    · exact hm
    · exact hu

theorem putPage_apart (s : State) (a : Nat) (h : Hdr) (page : List Byte) (gen refs count : Nat) :
    Apart s (putPage s a h page gen refs count) := putWords_apart ..

theorem rewritePage_apart (s : State) (i : Nat) (d : Desc) (pair : Nat) (r : PageRef) (page : List Byte) (count : Nat) :
    Apart s (rewritePage s i d pair r page count).1 := by
  unfold rewritePage
  dsimp only
  split
  · next e => exact (refCount_apart ..).of_eq e
  · next u h e =>
    have hu : Apart s u := (refCount_apart ..).of_eq e
    split
    · refine hu.trans (.trans ?_ (swapRef_apart ..))
      exact .trans (.trans (unindexPage_apart ..) (putPage_apart ..)) (.trans (modMem_apart ..) (modMem_apart ..))
    split
    · exact hu
    · next v lpn ha =>
      exact (hu.trans (allocSlot_apart ha)).trans ((putPage_apart ..).trans ((swapRef_apart ..).trans (giveRef_apart ..)))

theorem truncPage_apart (s : State) (i : Nat) (d : Desc) (pair : Nat) (r : PageRef) (p : Nat) :
    Apart s (truncPage s i d pair r p).1 := by
  unfold truncPage
  dsimp only
  split
  · next e => exact (readPage_apart ..).of_eq e
  · next e =>
    split
    all_goals
      next e' => exact ((readPage_apart ..).of_eq e).trans ((rewritePage_apart ..).of_eq e')

theorem copyPage_apart (s : State) (d : Desc) (r : PageRef) (n : Nat) : Apart s (copyPage s d r n).1 := by
  unfold copyPage
  split
  · next e => exact (readPage_apart ..).of_eq e
  · next u b e =>
    have hu : Apart s u := (readPage_apart ..).of_eq e
    split
    · exact hu
    · next v lpn ha => exact (hu.trans (allocSlot_apart ha)).trans (putPage_apart ..)

theorem checkPages_apart (d : Desc) : ∀ (l : List PageRef) (s : State), Apart s (checkPages d l s).1
  | [], s => .refl s
  | r :: l, s => by
    unfold checkPages
    split
    · exact .refl s
    split
    · next e => exact (readPage_apart ..).of_eq e
    · next e => exact ((readPage_apart ..).of_eq e).trans (checkPages_apart d l _)

theorem checkShares_apart (d : Desc) : ∀ (l : List PageRef) (s : State), Apart s (checkShares d l s).1
  | [], s => .refl s
  | r :: l, s => by
    unfold checkShares
    split
    · next e => exact (refCount_apart ..).of_eq e
    · next u h e =>
      have hu : Apart s u := (refCount_apart ..).of_eq e
      split
      · exact hu
      split
      · exact hu
      split
      · exact hu.trans (checkShares_apart d l u)
      have hp : Apart s (checkPages d [r] u).1 := hu.trans (checkPages_apart ..)
      split
      · next e' => exact (hp.of_eq e').trans (checkShares_apart d l _)
      · exact hp

/-! ### Tails -/

theorem loadTail_apart (s : State) (d : Desc) (key : TailKey) (reader : Nat) : Apart s (loadTail s d key reader).1 := by
  unfold loadTail
  dsimp only
  split
  · split
    all_goals
      next e => exact (load_apart ..).of_eq e
  split
  · exact .refl s
  split
  · next e => exact (load_apart ..).of_eq e
  · next e =>
    split
    all_goals
      next e' => exact ((load_apart ..).of_eq e).trans ((load_apart ..).of_eq e')

theorem checkTails_apart (d : Desc) : ∀ (l : List TailKey) (s : State), Apart s (checkTails d l s).1
  | [], s => .refl s
  | key :: l, s => by
    unfold checkTails
    split
    · next e => exact (loadTail_apart ..).of_eq e
    · next e => exact ((loadTail_apart ..).of_eq e).trans (checkTails_apart d l _)

theorem tailImages_apart {s t : State} {d : Desc} {q : TailKey} {k : Nat} {x : TailImage}
    (h : tailImages s d q k = some (t, x)) : Apart s t := by
  unfold tailImages at h
  extract_lets units at h
  split at h
  · cases h
    exact .refl s
  · obtain ⟨⟨u, r⟩, hr, h⟩ := Option.bind_eq_some_iff.mp h
    obtain ⟨⟨v, a⟩, ha, h⟩ := Option.bind_eq_some_iff.mp h
    obtain ⟨⟨w, b⟩, hb, h⟩ := Option.map_eq_some_iff.mp h
    cases h
    exact ((allocSlot_apart hr).trans (allocSlot_apart ha)).trans (allocSlot_apart hb)

theorem writeBack_apart (s : State) (d : Desc) (q : TailKey) : Apart s (writeBack s d q).1 := by
  unfold writeBack
  split
  · exact .refl s
  dsimp only
  split
  · next e => exact (load_apart ..).of_eq e
  · next u b e =>
    have hu : Apart s u := (load_apart ..).of_eq e
    split
    · exact hu
    · next v x hx =>
      dsimp only
      refine (hu.trans (tailImages_apart hx)).trans (.trans (.trans (.foldl (fun s p => ?_) _ _) (putWords_apart ..))
        .of_modSeqs)
      exact .ite ((putWords_apart ..).trans (putWords_apart ..)) (.refl s)

theorem evictTail_apart (s : State) (d : Desc) (q : TailKey) : Apart s (evictTail s d q).1 := by
  unfold evictTail
  split
  · exact .refl s
  next t _ =>
  dsimp only
  generalize hp : (if t.dirty.any id = true ∨ (aget s.seqs.images q).isNone = true then writeBack s d q
    else (s, true)) = p
  obtain ⟨u, ok⟩ := p
  have hu : Apart s u := by
    split at hp
    · exact (writeBack_apart ..).of_eq hp
    · cases hp
      exact .refl s
  split
  · exact hu.trans (.trans (.trans .of_modSeqs (freeSram_apart ..)) (bump_apart ..))
  · exact hu

theorem evictUntil_apart (ok : State → Bool) : ∀ (l : List (TailKey × Desc)) (s : State), Apart s (evictUntil ok l s)
  | [], s => .refl s
  | p :: l, s => .ite (.refl s) ((evictTail_apart s p.2 p.1).trans (evictUntil_apart ok l _))

theorem settleHome_apart (s : State) (lpn : Nat) (p : Promo) (page : List Byte) : Apart s (settleHome s lpn p page) :=
  .trans (.trans (.ite (putWords_apart ..) (.refl s)) (modMem_apart ..)) (freeSram_apart ..)

theorem demote_apart (s : State) (lpn : Nat) : Apart s (demote s lpn) := by
  unfold demote
  split
  · exact .refl s
  split
  · exact .refl s
  split
  · next e => exact (load_apart ..).of_eq e
  · next u page e =>
    have hu : Apart s u := (load_apart ..).of_eq e
    exact .ite (hu.trans (settleHome_apart ..)) (hu.trans ((markDamaged_apart ..).trans (settleHome_apart ..)))

theorem demoteUntil_apart (ok : State → Bool) : ∀ (l : List Nat) (s : State), Apart s (demoteUntil ok l s)
  | [], s => .refl s
  | p :: l, s => .ite (.refl s) ((demote_apart s p).trans (demoteUntil_apart ok l _))

theorem uncacheUntil_apart (ok : State → Bool) :
    ∀ (l : List ((Nat × Nat × Nat × Nat × Nat) × Nat)) (s : State), Apart s (uncacheUntil ok l s)
  | [], s => .refl s
  | _ :: l, s => .ite (.refl s) (((Apart.of_modSeqs).trans (freeSram_apart ..)).trans (uncacheUntil_apart ok l _))

theorem sramGet_apart {s t : State} {k tenant n a : Nat} {kind : SramKind}
    (h : sramGet s k tenant n kind = some (t, a)) : Apart s t := by
  unfold sramGet at h
  extract_lets quota place s1 s2 s3 s4 s5 at h
  have h5 : Apart s s5 := (evictUntil_apart ..).trans ((uncacheUntil_apart ..).trans
    ((demoteUntil_apart ..).trans ((uncacheUntil_apart ..).trans (evictUntil_apart ..))))
  split at h
  · exact h5.trans (allocSram_apart h)
  · cases h

theorem openTail_apart {s t : State} {d : Desc} {q : TailKey} {pos : Nat} (h : openTail s d q pos = .ok t) : Apart s t := by
  unfold openTail placeTail at h
  dsimp only at h
  split at h
  · cases h
  · next u a e =>
    cases h
    exact (sramGet_apart e).trans ((poke_apart ..).trans .of_modSeqs)

theorem storeRows_apart {s t : State} {d : Desc} {q : TailKey} {rows : List (List Byte × List Byte)}
    (h : storeRows s d q rows = .ok t) : Apart s t := by
  unfold storeRows at h
  split at h
  · cases h
    exact .refl s
  split at h
  · cases h
  · next u b e =>
    extract_lets t1 hd row ks vs s1 s2 s3 dirty t2 at h
    have h3 : Apart u s3 := .trans (.trans (putWords_apart ..) (putWords_apart ..)) (putWords_apart ..)
    obtain rfl := Except.ok.inj h
    exact ((load_apart ..).of_eq e).trans (h3.trans .of_modSeqs)

/-! ### Tables and descriptors -/

theorem allocTables_apart {s t : State} {i : Nat} {d : Desc} (h : allocTables s i d = some t) : Apart s t := by
  obtain ⟨u, hu, h⟩ := Option.bind_eq_some_iff.mp h
  obtain ⟨⟨v, l⟩, hv, rfl⟩ := Option.map_eq_some_iff.mp h
  refine ((Apart.foldl_some (fun k e => ?_) _ hu).trans (allocSlot_apart hv)).trans .of_modSeqs
  obtain ⟨⟨w, l⟩, hw, rfl⟩ := Option.map_eq_some_iff.mp e
  exact (allocSlot_apart hw).trans .of_modSeqs

/-- A descriptor that is entered stands, and ledger and merges stand. -/
theorem enterDesc_spec {s t : State} {i : Nat} {d : Desc} (h : enterDesc s i d = some t) :
    descOf t i = some d ∧ t.ledg = s.ledg ∧ t.merge = s.merge := by
  unfold enterDesc at h
  split at h
  · next u e =>
    cases h
    have hu : Apart s u := (insertAll_apart ..).of_eq e
    exact ⟨aget_aset_same .., hu.ledg, hu.merge⟩
  · cases h

/-! ## A fork (03_sequences.md R61) -/

theorem checkFork_apart (s : State) (i : Nat) (d : Desc) (p : Nat) : Apart s (checkFork s i d p).1 := by
  unfold checkFork
  extract_lets below shares
  have hs : Apart s shares.1 := checkShares_apart ..
  have hp : Apart s (if shares.2 = .ok then checkPages d (straddlers shares.1 i d p) shares.1 else shares).1 := by
    split
    · exact hs.trans (checkPages_apart ..)
    · exact hs
  split
  · next e => exact (hp.of_eq e).trans (checkTails_apart ..)
  · exact hp

section
variable {s t : State} {i j : Nat} {d c : Desc} {p layer kv pair : Nat} {r : PageRef}

theorem forkPage_apart (h : forkPage s j c p pair r = .ok t) : Apart s t := by
  unfold forkPage at h
  extract_lets k add at h
  have hadd {u v : State} {x : PageRef} (e : add u x = .ok v) : Apart u v := by
    unfold add at e
    split at e
    · next ha =>
      cases e
      exact addRef_apart ha
    · cases e
  split at h
  · next u e =>
    have hu : Apart s u := (takeRef_apart ..).of_eq e
    obtain ⟨v, hv, h⟩ := bind_eq_ok h
    split at h
    · cases h
      exact hu.trans (hadd hv)
    · split at h
      · next e' =>
        cases h
        exact (hu.trans (hadd hv)).trans ((truncPage_apart ..).of_eq e')
      · cases h
  · cases h
  · next u e =>
    split at h
    · next e' => exact (((takeRef_apart ..).of_eq e).trans ((copyPage_apart ..).of_eq e')).trans (hadd h)
    · cases h
  · cases h

theorem forkTail_apart (h : forkTail s i j d c p layer kv = .ok t) : Apart s t := by
  unfold forkTail at h
  dsimp only at h
  split at h
  · next e =>
    cases h
    exact (loadTail_apart ..).of_eq e
  · cases h
  · next u b e =>
    have hu : Apart s u := (loadTail_apart ..).of_eq e
    split at h
    · cases h
      exact hu
    · obtain ⟨v, hv, h⟩ := bind_eq_ok h
      exact (hu.trans (openTail_apart hv)).trans (.trans .of_modSeqs (storeRows_apart h))

theorem forkPair_apart (h : forkPair s i j d c p layer kv = .ok t) : Apart s t := by
  obtain ⟨u, hu, h⟩ := bind_eq_ok h
  exact (Apart.foldl_ok id (fun x e => forkPage_apart e) _ hu).trans (.trans .of_modSeqs (forkTail_apart h))

end

theorem shareBinding_apart (s : State) (i j : Nat) (d : Desc) : Apart s (shareBinding s i j d) := by
  refine .ite (.refl s) (.trans (.foldl (fun s k => ?_) d.stripe s) .of_modSeqs)
  split
  · exact .refl s
  · exact .of_modSeqs

/-- A fork that is applied leaves its child, and ledger and merges stand. -/
theorem applyFork_spec {s t : State} {a : App} {i j : Nat} {d : Desc} (h : applyFork s a i d = (t, .ok j)) :
    descOf t j = some (childDesc s a j a.pos d) ∧ t.ledg = s.ledg ∧ t.merge = s.merge := by
  unfold applyFork at h
  split at h
  · cases h
  next k _ =>
  extract_lets c at h
  split at h
  · cases h
  next u hu =>
  dsimp only at h
  split at h
  · cases h
  next v hv =>
  split at h
  · cases h
  split at h
  · cases h
  next w hw =>
  cases h
  have hs : Apart s (shareBinding v i j d) :=
    (allocTables_apart hu).trans ((Apart.foldl_ok id (fun x e => forkPair_apart e) _ hv).trans (shareBinding_apart ..))
  obtain ⟨hd, hl, hm⟩ := enterDesc_spec hw
  exact ⟨hd, hl.trans hs.ledg, hm.trans hs.merge⟩

/-! ## A bind (03_sequences.md R68) -/

theorem takeBase_apart {s : State} {d : Desc} {x : DeltaBlock} {z : State × DeltaBlock} (h : takeBase s d x = .ok z) :
    Apart s z.1 := by
  unfold takeBase at h
  split at h
  · next e =>
    cases h
    exact (takeRef_apart ..).of_eq e
  · next e =>
    split at h
    · next e' =>
      cases h
      exact ((takeRef_apart ..).of_eq e).trans ((copyPage_apart ..).of_eq e')
    · cases h
  · cases h
  · cases h

theorem placeShares_apart {s t : State} {i : Nat} {d : Desc} {blocks : List DeltaBlock}
    (h : placeShares s i d blocks = some t) : Apart s t := by
  refine Apart.foldl_some (fun {s t} k e => ?_) d.stripe h
  dsimp only at e
  split at e
  · cases e
    exact .refl s
  · obtain ⟨⟨u, l⟩, hu, rfl⟩ := Option.map_eq_some_iff.mp e
    exact (allocSlot_apart hu).trans .of_modSeqs

/-- What a bind leaves of a sequence d over a base e, for a delta of n tokens. -/
structure Bound (s t : State) (i : Nat) (d e : Desc) (n : Nat) : Prop where
  ledg : t.ledg = s.ledg
  merge : t.merge = s.merge
  desc : ∃ b, descOf t i = some { d with stripe := e.stripe, length := n, deltaTokens := n, baseHandle := e.handle,
                                         binding := b } ∧
    (aget t.seqs.bindings b).isSome = true

theorem descOf_modDesc_same {s : State} {i : Nat} {d : Desc} (h : descOf s i = some d) (f : Desc → Desc) :
    descOf (modDesc s i f) i = some (f d) := by
  refine (aget_amod_same ..).trans ?_
  rw [show aget s.seqs.descs i = some d from h]
  rfl

/-- The end of a bind: its binding is entered, the tail directory of its pairs is written, and then its descriptor. -/
theorem bound_of_entered {s : State} {i n : Nat} {d : Desc} (hd : descOf s i = some d) (b : Binding)
    (f : TailDir → TailDir) (g : Desc → Desc) (l : List Nat) {t : State}
    (ht : t = modDesc (l.foldl (fun s pair => modTdir s i pair f)
      (modSeqs s fun q => { q with bindings := aset q.bindings n b })) i g) :
    t.ledg = s.ledg ∧ t.merge = s.merge ∧ descOf t i = some (g d) ∧ (aget t.seqs.bindings n).isSome = true := by
  have hz : Apart s (l.foldl (fun s pair => modTdir s i pair f)
      (modSeqs s fun q => { q with bindings := aset q.bindings n b })) :=
    .trans .of_modSeqs (.foldl (fun _ _ => .of_modSeqs) l _)
  have hb := foldl_part (f := fun s pair => modTdir s i pair f) (·.seqs.bindings) (fun _ _ => rfl) l
    (modSeqs s fun q => { q with bindings := aset q.bindings n b })
  subst ht
  refine ⟨hz.ledg, hz.merge, descOf_modDesc_same ((congrArg (aget · i) hz.descs).trans hd) g, ?_⟩
  refine (congrArg (fun x => (aget x n).isSome) hb).trans ?_
  simp

theorem applyBind_spec {s t : State} {i : Nat} {d : Desc} {base : Nat × Desc} {h : Stream} {b : List Byte}
    (hx : applyBind s i d base h b = .ok t) (hd : descOf s i = some d) : Bound s t i d base.2 h.prefixTokens := by
  unfold applyBind at hx
  dsimp only at hx
  split at hx
  · cases hx
  next u blocks hu =>
  split at hx
  · cases hx
  next v hv =>
  obtain ⟨w, hw, hv⟩ := Option.bind_eq_some_iff.mp hv
  have hsu : Apart s u := Apart.foldl_ok (γ := State × List DeltaBlock) (·.1) (fun x e => by
    obtain ⟨y, hy, e⟩ := map_eq_ok e
    cases e
    exact takeBase_apart hy) _ hu
  have huw : Apart u w := by
    refine .trans (.trans (.trans (.foldl (fun s p => ?_) _ u) (.foldl freeSlot_apart _ _)) .of_modSeqs)
      (allocTables_apart hw)
    exact .ite (.refl s) (freeSlot_apart ..)
  have hsv : Apart s v := (hsu.trans huw).trans (placeShares_apart hv)
  obtain rfl := Except.ok.inj hx
  obtain ⟨hl, hm, hdesc, hb⟩ := bound_of_entered (s := (newId v).2) ((congrArg (aget · i) hsv.descs).trans hd)
    _ _ _ _ rfl
  exact ⟨hl.trans hsv.ledg, hm.trans hsv.merge, _, hdesc, hb⟩

/-! ## What the commands answer -/

/-- A command that answers a next state completes with what holds of every state it answers. -/
theorem completes_of_forall {c : Instr} {s : State} {P : State → Prop} (hc : ∀ mv, c ≠ .vin48Valid mv)
    (h : ∀ t, exec c s = .next t → P t) : Completes c s P := by
  obtain ⟨t, ht⟩ := exec_isNext hc s
  exact ⟨t, ht, h t ht⟩

/-- A command answers one state. -/
theorem next_inj {c : Instr} {s t u : State} (ht : exec c s = .next t) (hu : exec c s = .next u) : t = u :=
  Host.Outcome.next.inj (ht.symm.trans hu)

theorem appAnswer_ledg (s : State) (id : Nat) (m : Msg) (st : Status) (n i : Nat) (l : List (Nat × Nat)) :
    (appAnswer s id m st n i l).ledg = s.ledg := by unfold appAnswer; split <;> simp
theorem appAnswer_merge (s : State) (id : Nat) (m : Msg) (st : Status) (n i : Nat) (l : List (Nat × Nat)) :
    (appAnswer s id m st n i l).merge = s.merge := by unfold appAnswer; split <;> simp
theorem appAnswer_seqs (s : State) (id : Nat) (m : Msg) (st : Status) (n i : Nat) (l : List (Nat × Nat)) :
    (appAnswer s id m st n i l).seqs = s.seqs := by unfold appAnswer; split <;> simp
theorem appAnswer_mem (s : State) (id : Nat) (m : Msg) (st : Status) (n i : Nat) (l : List (Nat × Nat)) :
    (appAnswer s id m st n i l).mem = s.mem := by unfold appAnswer; split <;> simp

theorem descOf_appAnswer (s : State) (id : Nat) (m : Msg) (st : Status) (n i : Nat) (l : List (Nat × Nat)) (j : Nat) :
    descOf (appAnswer s id m st n i l) j = descOf s j := by
  unfold descOf
  rw [appAnswer_seqs]

/-- A request whose handler starts was in the queue. -/
theorem arrived_of_appStart {s : State} {msg : Nat} {pick : App → Bool} {m : Msg} {a : App}
    (h : appStart s msg pick = some (m, a)) : m.phase = .arrived := by
  obtain ⟨x, hx, h⟩ := Option.bind_eq_some_iff.mp h
  obtain rfl : x = m := by
    dsimp only at h
    split at h
    · cases h
      rfl
    · cases h
  have hm : mayStart s msg .append = some x := (Option.filter_eq_some_iff.mp hx).1
  unfold mayStart at hm
  split at hm
  · cases hm
  · dsimp only at hm
    split at hm
    · cases hm
    · next hn =>
      cases hm
      simpa using (not_or.mp (not_or.mp hn).2).1

/-! ### CREATE (03_sequences.md R57) -/

section
variable {s : State} {msg : Nat} {m : Msg} {a : App} (hs : appStart s msg (fun a => decide (a.form = 1)) = some (m, a))
  (hf : CreateFits m a)
include hs hf

/-- A CREATE within bounds of a handle with a sequence compares it. The parameters compared are those the sequence has now:
assumption 134. -/
theorem exec_createSeq_again {i : Nat} {d : Desc} (hp : peekSeq s m.tenant a.handle = some (i, d))
    (h1 : d.state ≠ .draining) (h2 : d.state ≠ .dropping) :
    exec (.createSeq msg) s = .next (appAnswer s msg m (if sameCreate d a none then .ok else .bounds) 0 i []) := by
  obtain ⟨hver, hdonor, hfmt, hhandle, ht, hd, hg, hl1, hl2, hk1, hk2, hlk, hbare⟩ := hf
  dsimp only [exec]
  unfold execCreateSeq
  rw [hs]
  simp [hver, hdonor, hp, firstFail, h1, h2, hfmt, hhandle, ht, hd, hg, hbare, Nat.not_lt.mpr hl1, Nat.not_lt.mpr hl2,
    Nat.not_lt.mpr hk1, Nat.not_lt.mpr hk2, Nat.not_lt.mpr hlk]

variable (hp : peekSeq s m.tenant a.handle = none)
include hp

/-- A CREATE within bounds of a new handle makes its sequence, unless the PAGE class body forbids the geometry. -/
theorem exec_createSeq_new {i : Nat} {v w : State} (hi : freeDescIndex s = some i) (hstripe : freshStripe s i ≠ [])
    (hv : allocTables s i (newDesc s m a i (freshStripe s i)) = some v)
    (hw : enterDesc v i (newDesc s m a i (freshStripe s i)) = some w) :
    exec (.createSeq msg) s = .next (if Config.pagePermits (body s clsPage) a.kf a.vf a.tCode a.dCode
      then appAnswer w msg m .ok 0 i [] else appRefuse s msg m .bounds) := by
  obtain ⟨hver, hdonor, hfmt, hhandle, ht, hd, hg, hl1, hl2, hk1, hk2, hlk, hbare⟩ := hf
  dsimp only [exec]
  unfold execCreateSeq
  rw [hs]
  cases hb : Config.pagePermits (body s clsPage) a.kf a.vf a.tCode a.dCode <;>
    simp [hver, hdonor, hp, firstFail, hfmt, hhandle, ht, hd, hg, hbare, hb, hi, hstripe, hv, hw, Nat.not_lt.mpr hl1,
      Nat.not_lt.mpr hl2, Nat.not_lt.mpr hk1, Nat.not_lt.mpr hk2, Nat.not_lt.mpr hlk]

end

/-- What a CREATE leaves once its tables are placed and its descriptor is entered. -/
theorem newDesc_entered {s v w : State} {m : Msg} {a : App} {i : Nat} {stripe : List Nat}
    (hv : allocTables s i (newDesc s m a i stripe) = some v)
    (hw : enterDesc v i (newDesc s m a i stripe) = some w) :
    descOf w i = some (newDesc s m a i stripe) ∧ w.ledg = s.ledg ∧ w.merge = s.merge := by
  obtain ⟨hd, hl, hm⟩ := enterDesc_spec hw
  exact ⟨hd, hl.trans (allocTables_apart hv).ledg, hm.trans (allocTables_apart hv).merge⟩

/-! ### FORK (03_sequences.md R61) -/

section
variable {s u : State} {msg i : Nat} {m : Msg} {a : App} {d : Desc}
  (hs : appStart s msg (fun a => decide (a.form = 2)) = some (m, a))

include hs in
/-- A fork that passes the checks of its parent and of its own handle runs. -/
theorem exec_forkSeq (hver : a.ver = 1) (hf : findOther s m a.other a.otherGen = (u, .ok (i, d)))
    (hp : peekSeq u m.tenant a.handle = none) (hd : d.state = .active) (hh : handleOk m a = true) (hb : a.bare m = true)
    (hpos : a.pos ≤ d.length) (hdelta : d.deltaTokens ≤ a.pos) :
    exec (.forkSeq msg) s = .next (runFork u msg m a i d) := by
  dsimp only [exec]
  unfold execForkSeq judgeFork
  rw [hs]
  simp [hver, hf, hp, firstFail, hd, hh, hb, Nat.not_lt.mpr hpos, Nat.not_lt.mpr hdelta]

include hs in
theorem runFork_waits (hw : forkWaits u i a.pos = true) :
    runFork u msg m a i d = modMsg (setPhase u msg .waitFork) msg fun x => { x with at_ := now u m.hub } := by
  unfold runFork
  rw [if_pos hw, if_neg (by rw [arrived_of_appStart hs]; decide)]

variable (hw : forkWaits u i a.pos = false) {v w : State}
include hw

theorem runFork_unread {st : Status} (hc : checkFork u i d a.pos = (w, st)) (hst : st ≠ .ok) :
    runFork u msg m a i d = appRefuse w msg m st := by
  unfold runFork
  rw [if_neg (by simp [hw]), hc]
  split
  · next e => exact absurd (Prod.mk.inj e).2 hst
  · next e =>
    cases e
    rfl

variable (hc : checkFork u i d a.pos = (w, .ok))
include hc

theorem runFork_done {j : Nat} (ha : applyFork w a i d = (v, .ok j)) :
    runFork u msg m a i d = appAnswer v msg m .ok 0 j [] := by
  unfold runFork
  rw [if_neg (by simp [hw]), hc]
  dsimp only
  rw [ha]

theorem runFork_refused {st : Status} (ha : applyFork w a i d = (v, .error st)) :
    runFork u msg m a i d = appRefuse v msg m st := by
  unfold runFork
  rw [if_neg (by simp [hw]), hc]
  dsimp only
  rw [ha]

end

theorem exec_forkCommitTimeout {s : State} {msg : Nat} {m : Msg} (hm : msgOf s msg = some m) (hp : m.phase = .waitFork) :
    exec (.forkCommitTimeout msg) s = .next (appRefuse (passTo s m.hub (m.at_ + 10000000)) msg m .busy) := by
  dsimp only [exec]
  unfold execForkCommitTimeout
  rw [hm]
  exact if_neg fun h => h hp

/-- A request that is refused leaves sequences, memory and times. -/
theorem appRefuse_rest (s : State) (id : Nat) (m : Msg) (st : Status) :
    (appRefuse s id m st).seqs = s.seqs ∧ (appRefuse s id m st).mem = s.mem ∧ (appRefuse s id m st).life = s.life :=
  ⟨answer_seqs .., answer_mem .., answer_life ..⟩

/-! ### BIND (03_sequences.md R68) -/

section
variable {s u v w : State} {msg i : Nat} {m : Msg} {a : App} {d : Desc} {base : Nat × Desc} {b : List Byte}
  (hb : BindsStream s u v w msg i m a d base b)
include hb

/-- A stream that fails a check of R68 is refused with the first such status. -/
theorem exec_bindDelta_refused {st : Status} (h : firstFail [(decide ((Stream.parse b).ver ≠ 1), Status.version),
    (! streamWhole (Stream.parse b) b, .damaged), (! streamFits w (Stream.parse b) d i base, .bounds)] = some st) :
    exec (.bindDelta msg) s = .next (appAnswer w msg m st 0 i []) := by
  obtain ⟨hs, hver, hother, hfind, hbare, hread⟩ := hb
  dsimp only [exec]
  unfold execBindDelta
  rw [hs]
  simp only [hver, hother, hfind, hbare, hread, h]
  simp

variable (hver : (Stream.parse b).ver = 1) (hwhole : streamWhole (Stream.parse b) b = true)
  (hfits : streamFits w (Stream.parse b) d i base = true) {y : State}
include hver hwhole hfits

theorem exec_bindDelta_unshared {st : Status}
    (hc : checkShares d ((streamBlocks w (Stream.parse b) b d base).map (·.base)) w = (y, st)) (hst : st ≠ .ok) :
    exec (.bindDelta msg) s = .next (appAnswer y msg m st 0 i []) := by
  obtain ⟨hs, hv, hother, hfind, hbare, hread⟩ := hb
  dsimp only [exec]
  unfold execBindDelta
  rw [hs]
  simp only [hv, hother, hfind, hbare, hread]
  simp [hver, hwhole, hfits, firstFail, hc]

theorem exec_bindDelta_bound {x : State}
    (hc : checkShares d ((streamBlocks w (Stream.parse b) b d base).map (·.base)) w = (y, .ok))
    (hx : applyBind y i d base (Stream.parse b) b = .ok x) :
    exec (.bindDelta msg) s = .next (appAnswer x msg m .ok 0 i []) := by
  obtain ⟨hs, hv, hother, hfind, hbare, hread⟩ := hb
  dsimp only [exec]
  unfold execBindDelta
  rw [hs]
  simp only [hv, hother, hfind, hbare, hread]
  simp [hver, hwhole, hfits, firstFail, hc, hx]

end

/-- Settles O2: a CREATE by `exec_createSeq_new` and `exec_createSeq_again` (what a repeated CREATE is compared with is
the model's choice, assumption 134), a fork by `exec_forkSeq` and what `runFork` does with it (its child by
`applyFork_spec`; that it has its parent's window and anchors is assumption 159), its timeout by
`exec_forkCommitTimeout`, a bind by `exec_bindDelta_refused`, `exec_bindDelta_unshared` and `exec_bindDelta_bound`. -/
theorem sequencesAreMadeForkedAndBound : Obligations.SequencesAreMadeForkedAndBound := by
  unfold Obligations.SequencesAreMadeForkedAndBound
  refine ⟨fun msg i m a s v w hs hf hp hi hstripe hv hw => ?_, fun msg i m a d s hs hf hp h1 h2 => ?_,
    fun msg i m a d s u hs hver hf hp hd hh hb hpos hdelta => ?_, fun msg m s hm hp => ?_,
    fun msg i m a d base b s u v w hb hver => ?_⟩
  · refine completes_of_exec (exec_createSeq_new hs hf hp hi hstripe hv hw) ?_
    obtain ⟨hdesc, hl, hm⟩ := newDesc_entered hv hw
    split
    · refine ⟨rfl, (appAnswer_ledg ..).trans hl, (appAnswer_merge ..).trans hm, _, (descOf_appAnswer ..).trans hdesc, ?_⟩
      exact ⟨rfl, rfl, rfl, rfl, rfl, rfl, rfl, rfl, rfl, rfl, rfl, rfl, rfl⟩
    · rfl
  · exact completes_of_exec (exec_createSeq_again hs hf hp h1 h2) ⟨rfl, appAnswer_seqs .., appAnswer_mem ..⟩
  · refine completes_of_exec (exec_forkSeq hs hver hf hp hd hh hb hpos hdelta)
      ⟨fun hw => runFork_waits hs hw, fun w v j hw hc ha => ?_, fun w v st hw hc ha => runFork_refused hw hc ha,
        fun w st hw hc hst => runFork_unread hw hc hst⟩
    have hsw : Apart s w := ((findOther_apart ..).of_eq hf).trans ((checkFork_apart ..).of_eq hc)
    obtain ⟨hdesc, hl, hm⟩ := applyFork_spec ha
    rw [runFork_done hw hc ha]
    refine ⟨rfl, ((appAnswer_ledg ..).trans hl).trans hsw.ledg, ((appAnswer_merge ..).trans hm).trans hsw.merge, _,
      (descOf_appAnswer ..).trans hdesc, ?_⟩
    exact ⟨rfl, rfl, rfl, rfl, rfl, rfl, rfl, rfl, rfl, rfl, rfl⟩
  · obtain ⟨hseqs, hmem, hlife⟩ := appRefuse_rest (passTo s m.hub (m.at_ + 10000000)) msg m .busy
    refine completes_of_exec (exec_forkCommitTimeout hm hp) ⟨rfl, hseqs, hmem, ?_⟩
    rw [now, hubSt_congr (congrArg LifeSt.hubs hlife), ← now, now_passTo]
    exact Nat.le_max_right ..
  · refine completes_of_forall nofun fun t ht => ⟨fun hwhole => ?_, fun hwhole hfits => ?_,
      fun y st hwhole hfits hst hc => ?_, fun x y hwhole hfits hc hx hdesc => ?_⟩
    · exact next_inj ht (exec_bindDelta_refused hb (by simp [firstFail, hver, hwhole]))
    · exact next_inj ht (exec_bindDelta_refused hb (by simp [firstFail, hver, hwhole, hfits]))
    · exact next_inj ht (exec_bindDelta_unshared hb hver hwhole hfits hc hst)
    · obtain rfl := next_inj ht (exec_bindDelta_bound hb hver hwhole hfits hc hx)
      have hy : Apart w y := (checkShares_apart ..).of_eq hc
      obtain ⟨hl, hm, n, hd, hn⟩ := applyBind_spec hx hdesc
      refine ⟨rfl, ((appAnswer_ledg ..).trans hl).trans hy.ledg, ((appAnswer_merge ..).trans hm).trans hy.merge, _,
        (descOf_appAnswer ..).trans hd, rfl, rfl, rfl, rfl, ?_⟩
      rw [appAnswer_seqs]
      exact hn

end Sys2Proof.Proofs

namespace Sys2Proof.Proofs
open Sys2Proof.Machine Sys2Proof.Laws

/-!
The query position of a request (O54). 04_attend.md R73.
-/

/-- Below position 0 nothing is visible. 04_attend.md R73, R74. -/
theorem sees_of_neg {x : Pat} (h : x.pq < 0) (p : Nat) : x.sees p = false := by
  have hp : ¬ (p : Int) ≤ x.pq := by omega
  simp [Pat.sees, hp]

/-- The query position by R73. -/
theorem attPattern_pq (be : Bool) (a : Att) (payload : List Byte) (d : Desc) :
    (attPattern be a payload d).pq = if a.expQpos then (a.qpos : Int) else (d.length : Int) - 1 := rfl

/-- Settles O54: the position is read off `attPattern_pq`, and below position 0 nothing is visible (`sees_of_neg`). -/
theorem queryPositionIsShared : Obligations.QueryPositionIsShared := by
  unfold Obligations.QueryPositionIsShared
  intro be a payload d
  refine ⟨fun h => ?_, fun h => ?_, fun h hl => ?_, fun a' payload' d' he hq hl => ?_⟩
  · simp [attPattern_pq, h]
  · simp [attPattern_pq, h]
  · have hp : (attPattern be a payload d).pq = -1 := by simp [attPattern_pq, h, hl]
    exact ⟨hp, sees_of_neg (by omega)⟩
  · simp only [attPattern_pq, he, hq, hl]

end Sys2Proof.Proofs

namespace Sys2Proof.Proofs
open Sys2Proof.Machine Sys2Proof.Laws

/-!
The fan-out of a request (O12). A slice's scan reads pages and tails, fills caches and prefetch buffers, and may make room
for them in SRAM. Shown once for each operation: it stays apart from ledger, merges and descriptors, and on quiet memory it
leaves every lane engine as it stands (Scans). So the lanes that are idle when a request comes are idle for each of its 32
scans, and each scan puts one record set on its way.
-/

/-! ## What keeps a lane engine as it stands -/

/-- From s to t nothing has changed that says whether a lane engine takes a command at once, or at which level. -/
structure LanesStand (s t : State) : Prop where
  dill : t.dill = s.dill
  life : t.life = s.life
  level : t.mem.level = s.mem.level
  postponed : ∀ k, (stackSt t k).postponed = (stackSt s k).postponed
  enabled : ∀ k, rget t .dill_lane_en k 0 = rget s .dill_lane_en k 0

namespace LanesStand
variable {a s t : State}

theorem trans (f : LanesStand a s) (g : LanesStand s t) : LanesStand a t where
  dill := g.dill.trans f.dill
  life := g.life.trans f.life
  level := g.level.trans f.level
  postponed k := (g.postponed k).trans (f.postponed k)
  enabled k := (g.enabled k).trans (f.enabled k)

theorem of_mem (hd : t.dill = s.dill) (hl : t.life = s.life) (hm : t.mem = s.mem)
    (he : ∀ k, rget t .dill_lane_en k 0 = rget s .dill_lane_en k 0) : LanesStand s t :=
  ⟨hd, hl, by rw [hm], fun k => by rw [stackSt, hm, stackSt], he⟩

theorem levelOf_eq (f : LanesStand s t) (k : Nat) : levelOf t k = levelOf s k := by rw [levelOf, f.level, levelOf]

theorem dillOf_eq (f : LanesStand s t) (k : Nat) : dillOf t k = dillOf s k := by rw [dillOf, f.dill, dillOf]

theorem sliceSt_eq (f : LanesStand s t) (k : Nat) : sliceSt t k = sliceSt s k := sliceSt_congr (by rw [f.life]) k

theorem laneHeld_eq (f : LanesStand s t) (k : Nat) : laneHeld t k = laneHeld s k := by
  simp only [laneHeld, catchUpDue, f.enabled, f.dillOf_eq, f.levelOf_eq, f.postponed, f.sliceSt_eq]

/-- Without fenced snapshots the command that the lane engine takes is a matter of its slots. 07_dill.md R147. -/
theorem pickLane_eq (f : LanesStand s t) (hs : s.dill.snaps = []) (k : Nat) : pickLane t k = pickLane s k := by
  have hready : laneReady t k = laneReady s k := by
    funext d p
    simp [laneReady, fencedCmd, f.dill, hs, f.life]
  simp only [pickLane, f.dillOf_eq, hready]

theorem laneIdle_eq (f : LanesStand s t) (hs : s.dill.snaps = []) (k : Nat) : laneIdle t k = laneIdle s k := by
  simp only [laneIdle, slotFree, f.dill, f.dillOf_eq, f.laneHeld_eq, f.pickLane_eq hs, f.life]

theorem servingSlice_eq (f : LanesStand s t) (k : Nat) : servingSlice t k = servingSlice s k := by
  simp only [servingSlice, f.sliceSt_eq]

theorem homeHub_eq (f : LanesStand s t) (k : Nat) : homeHub t k = homeHub s k := by simp only [homeHub, f.sliceSt_eq]

theorem sliceReachable_eq (f : LanesStand s t) (k : Nat) : sliceReachable t k = sliceReachable s k := by
  simp only [sliceReachable, f.sliceSt_eq]

theorem hubAlive_eq (f : LanesStand s t) (h : Nat) : hubAlive t h = hubAlive s h := by
  simp only [hubAlive, hubSt_congr (congrArg LifeSt.hubs f.life)]

theorem quadHub_eq (f : LanesStand s t) (q : Nat) : quadHub t q = quadHub s q := by
  simp only [quadHub, f.hubAlive_eq, f.sliceSt_eq]

theorem linkUp_eq (f : LanesStand s t) (a b : Nat) : linkUp t a b = linkUp s a b := by simp only [linkUp, linkOf, f.life]

theorem hubRoute_eq (f : LanesStand s t) (a b : Nat) : hubRoute t a b = hubRoute s a b := by
  simp only [hubRoute, f.linkUp_eq, f.hubAlive_eq]

end LanesStand

/-! ## What scans leave alone -/

/-- From s to t memory stays sound, and every lane engine as it stands; messages, links and ports stand too. -/
structure Calm (s t : State) : Prop where
  rest : t = { s with mem := t.mem, seqs := t.seqs, regs := t.regs, merge := t.merge, jrnl := t.jrnl, health := t.health,
                      freeCtr := t.freeCtr }
  chk : t.mem.chk = []
  lanes : LanesStand s t

namespace Calm
variable {a s t : State}

theorem refl (h : Quiet s) : Calm s s := ⟨rfl, h.1, rfl, rfl, rfl, fun _ => rfl, fun _ => rfl⟩

theorem trans (f : Calm a s) (g : Calm s t) : Calm a t := ⟨by rw [g.rest, f.rest], g.chk, f.lanes.trans g.lanes⟩

theorem quiet (f : Calm s t) (h : Quiet s) : Quiet t := ⟨f.chk, by rw [f.lanes.dill]; exact h.2⟩

/-- A change of memory alone. -/
theorem of_mem (hr : t = { s with mem := t.mem }) (hc : t.mem.chk = []) (hl : t.mem.level = s.mem.level)
    (hp : ∀ k, (stackSt t k).postponed = (stackSt s k).postponed) : Calm s t :=
  ⟨by rw [hr], hc, by rw [hr], by rw [hr], hl, hp, fun k => by rw [hr]; rfl⟩

end Calm

/-- From s to t nothing has been done but what a scan does: it stays apart from ledger, merges and descriptors, and on
quiet memory it is calm. -/
structure Scans (s t : State) : Prop extends Apart s t where
  calm : Quiet s → Calm s t

namespace Scans
variable {a s t : State}

theorem refl (s : State) : Scans s s := ⟨.refl s, .refl⟩

theorem trans (f : Scans a s) (g : Scans s t) : Scans a t :=
  ⟨f.toApart.trans g.toApart, fun h => (f.calm h).trans (g.calm ((f.calm h).quiet h))⟩

theorem ite {c : Prop} [Decidable c] (f : Scans a s) (g : Scans a t) : Scans a (if c then s else t) := by
  split <;> assumption

/-- The state that an operation gives with a result. -/
theorem of_eq {β : Type} {p : State × β} {r : β} (h : Scans s p.1) (e : p = (t, r)) : Scans s t := by subst e; exact h

theorem foldl {β : Type} {f : State → β → State} (hf : ∀ s x, Scans s (f s x)) :
    ∀ (l : List β) (s : State), Scans s (l.foldl f s)
  | [], s => refl s
  | x :: l, s => (hf s x).trans (foldl hf l (f s x))

/-- A fold that gives a result beside the state. -/
theorem foldl_fst {β γ : Type} {f : State × γ → β → State × γ} (hf : ∀ p x, Scans p.1 (f p x).1) :
    ∀ (l : List β) (s : State) (r : γ), Scans s (l.foldl f (s, r)).1
  | [], s, _ => refl s
  | x :: l, s, r => (hf (s, r) x).trans (foldl_fst hf l (f (s, r) x).1 (f (s, r) x).2)

/-- A change of memory that leaves check bits, levels and stacks. -/
theorem modMem {f : MemSt → MemSt} (hc : ∀ m, (f m).chk = m.chk := by intro m; rfl)
    (hl : ∀ m, (f m).level = m.level := by intro m; rfl) (hs : ∀ m, (f m).stackCtl = m.stackCtl := by intro m; rfl) :
    Scans s (Machine.modMem s f) :=
  ⟨modMem_apart s f, fun h => .of_mem rfl ((hc s.mem).trans h.1) (hl s.mem) fun k => by
    rw [stackSt, modMem_mem, hs, stackSt]⟩

/-- A change of the sequences that leaves the descriptors. -/
theorem modSeqs {f : SeqSt → SeqSt} (hd : ∀ q, (f q).descs = q.descs := by intro q; rfl) :
    Scans s (Machine.modSeqs s f) :=
  ⟨.of_modSeqs hd, fun h => ⟨rfl, h.1, rfl, rfl, rfl, fun _ => rfl, fun _ => rfl⟩⟩

theorem bump {r : Reg} (hr : r ≠ .dill_lane_en) (i : Nat) : Scans s (Machine.bump s r i) :=
  ⟨bump_apart .., fun h => ⟨rfl, h.1, .of_mem rfl rfl rfl fun _ => rget_bump_other s hr.symm ..⟩⟩

end Scans

/-! ### Words -/

theorem touchStack_postponed (s : State) (a n k : Nat) :
    (stackSt (touchStack s a n) k).postponed = (stackSt s k).postponed := by
  unfold touchStack
  dsimp only
  split
  · rfl
  · next x hx =>
    split
    · rfl
    · unfold stackSt agetD
      rw [modMem_mem]
      by_cases hk : k = a / 2 ^ 42
      · rw [hk, aget_aset_same, hx]
        rfl
      · rw [aget_aset_other hk]

theorem touchBanks_postponed (s : State) (a n k : Nat) :
    (stackSt (touchBanks s a n) k).postponed = (stackSt s k).postponed := by
  rw [← touchStack_postponed s a n k]
  unfold touchBanks
  dsimp only
  split <;> rfl

theorem touchBanks_calm {s : State} (h : Quiet s) (a n : Nat) : Calm s (touchBanks s a n) :=
  .of_mem (by rw [touchBanks_rest]) (by rw [touchBanks_chk]; exact h.1) (by rw [touchBanks_rest]) (touchBanks_postponed s a n)

theorem load_scans (s : State) (a n reader : Nat) : Scans s (load s a n reader).1 :=
  ⟨load_apart .., fun h => by rw [load_clean h.1]; exact touchBanks_calm h a n⟩

theorem poke_scans (s : State) (a : Nat) (bs : List Byte) : Scans s (poke s a bs) :=
  ⟨poke_apart .., fun h => .of_mem (poke_rest ..) ((poke_steady ..).clean h.1).1
    (touchBanks_calm h a bs.length).lanes.level (touchBanks_postponed s a bs.length)⟩

theorem scrub_scans (s : State) (a n : Nat) : Scans s (scrub s a n) :=
  ⟨.of_moves (scrub_moves ..) (by simp), fun h => (touchBanks_calm h a n).trans
    (.of_mem rfl ((scrub_steady s a n).clean h.1).1 rfl fun _ => rfl)⟩

theorem modBank_scans (s : State) (die b : Nat) (f : Bank → Bank) : Scans s (modBank s die b f) := .modMem

theorem putWords_scans (s : State) (a : Nat) (bs : List Byte) : Scans s (putWords s a bs) :=
  ⟨putWords_apart .., fun h => by rw [putWords_clean h.2]; exact (poke_scans ..).calm h⟩

theorem lowerFences_scans (s : State) (a n : Nat) : Scans s (lowerFences s a n) :=
  ⟨lowerFences_apart .., fun h => by rw [lowerFences_clean h.2]; exact .refl h⟩

theorem journal_scans (s : State) (h type : Nat) (payload : List Byte) : Scans s (journal s h type payload) :=
  ⟨⟨by simp, by simp, by simp⟩, fun hq => ⟨by unfold journal; dsimp only; split <;> rfl, by rw [journal_mem]; exact hq.1,
    .of_mem (by simp) (by simp) (by simp) fun _ => rget_journal_other s _ _ _ (by decide) ..⟩⟩

theorem modMeter_scans (s : State) (tenant : Nat) (f : Meter → Meter) : Scans s (modMeter s tenant f) :=
  ⟨⟨by simp, by simp, by simp⟩, fun hq => ⟨by unfold modMeter; split <;> rfl, by rw [modMeter_mem]; exact hq.1,
    .of_mem (by simp) (by simp) (by simp) fun _ => rget_congr (by simp) ..⟩⟩

theorem markDamaged_scans (s : State) (lpn : Nat) : Scans s (markDamaged s lpn) :=
  (poke_scans ..).trans (.trans .modMem (journal_scans ..))

/-! ### Places in SRAM (06_append.md R131, R136, R138) -/

theorem banksOn_scans (s : State) (die unit n : Nat) : Scans s (banksOn s die unit n) := by
  unfold banksOn
  exact .foldl (fun s i => .ite ((scrub_scans ..).trans (modBank_scans ..)) (modBank_scans ..)) _ s

theorem allocSram_scans {s t : State} {die tenant n a : Nat} {kind : SramKind}
    (h : allocSram s die tenant n kind = some (t, a)) : Scans s t := by
  obtain ⟨u, -, e⟩ := Option.map_eq_some_iff.mp h
  cases e
  exact (banksOn_scans ..).trans ((scrub_scans ..).trans .modMem)

theorem freeSram_scans (s : State) (a : Nat) : Scans s (freeSram s a) := by
  unfold freeSram
  dsimp only
  split
  · exact .refl s
  · exact .trans .modMem (.foldl (fun s i => .ite (.refl s) ((scrub_scans ..).trans (modBank_scans ..))) _ _)

theorem loadGen_scans (s : State) (lpn : Nat) : Scans s (loadGen s lpn).1 := by
  unfold loadGen
  split
  · next e => exact (load_scans ..).of_eq e
  · next u e =>
    have hf : Scans u (fresh u).2 := ⟨⟨rfl, rfl, rfl⟩, fun h => ⟨rfl, h.1, .of_mem rfl rfl rfl fun _ => rfl⟩⟩
    exact ((load_scans ..).of_eq e).trans hf

theorem innerGens_scans (s : State) (lpn n : Nat) : Scans s (innerGens s lpn n).1 := by
  unfold innerGens
  refine .foldl_fst (fun acc i => ?_) _ s _
  exact loadGen_scans acc.1 (lpn + i + 1)

theorem allocSlot_scans {s t : State} {k tenant units lpn : Nat} {kind : SlotKind}
    (h : allocSlot s k tenant units kind = some (t, lpn)) : Scans s t := by
  unfold allocSlot at h
  split at h
  · obtain ⟨l, -, e⟩ := Option.map_eq_some_iff.mp h
    cases e
    exact .trans (.trans (lowerFences_scans ..) ((loadGen_scans ..).trans (innerGens_scans ..)))
      ((scrub_scans ..).trans .modMem)
  · cases h

theorem tailImages_scans {s t : State} {d : Desc} {q : TailKey} {k : Nat} {x : TailImage}
    (h : tailImages s d q k = some (t, x)) : Scans s t := by
  unfold tailImages at h
  extract_lets units at h
  split at h
  · cases h
    exact .refl s
  · obtain ⟨⟨u, r⟩, hr, h⟩ := Option.bind_eq_some_iff.mp h
    obtain ⟨⟨v, a⟩, ha, h⟩ := Option.bind_eq_some_iff.mp h
    obtain ⟨⟨w, b⟩, hb, h⟩ := Option.map_eq_some_iff.mp h
    cases h
    exact ((allocSlot_scans hr).trans (allocSlot_scans ha)).trans (allocSlot_scans hb)

theorem writeBack_scans (s : State) (d : Desc) (q : TailKey) : Scans s (writeBack s d q).1 := by
  unfold writeBack
  split
  · exact .refl s
  dsimp only
  split
  · next e => exact (load_scans ..).of_eq e
  · next u b e =>
    have hu : Scans s u := (load_scans ..).of_eq e
    split
    · exact hu
    · next v x hx =>
      dsimp only
      refine (hu.trans (tailImages_scans hx)).trans (.trans (.trans (.foldl (fun s p => ?_) _ _) (putWords_scans ..)) .modSeqs)
      exact .ite ((putWords_scans ..).trans (putWords_scans ..)) (.refl s)

theorem evictTail_scans (s : State) (d : Desc) (q : TailKey) : Scans s (evictTail s d q).1 := by
  unfold evictTail
  split
  · exact .refl s
  next t _ =>
  dsimp only
  generalize hp : (if t.dirty.any id = true ∨ (aget s.seqs.images q).isNone = true then writeBack s d q
    else (s, true)) = p
  obtain ⟨u, ok⟩ := p
  have hu : Scans s u := by
    split at hp
    · exact (writeBack_scans ..).of_eq hp
    · cases hp
      exact .refl s
  split
  · exact hu.trans (.trans (.trans .modSeqs (freeSram_scans ..)) (.bump (by decide) _))
  · exact hu

theorem evictUntil_scans (ok : State → Bool) : ∀ (l : List (TailKey × Desc)) (s : State), Scans s (evictUntil ok l s)
  | [], s => .refl s
  | p :: l, s => .ite (.refl s) ((evictTail_scans s p.2 p.1).trans (evictUntil_scans ok l _))

theorem settleHome_scans (s : State) (lpn : Nat) (p : Promo) (page : List Byte) : Scans s (settleHome s lpn p page) :=
  .trans (.trans (.ite (putWords_scans ..) (.refl s)) .modMem) (freeSram_scans ..)

theorem demote_scans (s : State) (lpn : Nat) : Scans s (demote s lpn) := by
  unfold demote
  split
  · exact .refl s
  split
  · exact .refl s
  split
  · next e => exact (load_scans ..).of_eq e
  · next u page e =>
    have hu : Scans s u := (load_scans ..).of_eq e
    exact .ite (hu.trans (settleHome_scans ..)) (hu.trans ((markDamaged_scans ..).trans (settleHome_scans ..)))

theorem demoteUntil_scans (ok : State → Bool) : ∀ (l : List Nat) (s : State), Scans s (demoteUntil ok l s)
  | [], s => .refl s
  | p :: l, s => .ite (.refl s) ((demote_scans s p).trans (demoteUntil_scans ok l _))

theorem uncacheUntil_scans (ok : State → Bool) :
    ∀ (l : List ((Nat × Nat × Nat × Nat × Nat) × Nat)) (s : State), Scans s (uncacheUntil ok l s)
  | [], s => .refl s
  | _ :: l, s => .ite (.refl s) (((Scans.modSeqs).trans (freeSram_scans ..)).trans (uncacheUntil_scans ok l _))

theorem sramGet_scans {s t : State} {k tenant n a : Nat} {kind : SramKind}
    (h : sramGet s k tenant n kind = some (t, a)) : Scans s t := by
  unfold sramGet at h
  extract_lets quota place s1 s2 s3 s4 s5 at h
  have h5 : Scans s s5 := (evictUntil_scans ..).trans ((uncacheUntil_scans ..).trans
    ((demoteUntil_scans ..).trans ((uncacheUntil_scans ..).trans (evictUntil_scans ..))))
  split at h
  · exact h5.trans (allocSram_scans h)
  · cases h

/-! ### Pages and tails as a slice opens them (04_attend.md R75, R76, R94) -/

theorem readPage_scans (s : State) (r : PageRef) (g : PGeom) (tenant : Nat) (crc : Bool) (reader : Nat) :
    Scans s (readPage s r g tenant crc reader).1 := by
  unfold readPage
  split
  · exact .refl s
  split
  · next e => exact (load_scans ..).of_eq e
  · next u p e =>
    have hu : Scans s u := (load_scans ..).of_eq e
    have hm : Scans s (markDamaged u r.lpn) := hu.trans (markDamaged_scans ..)
    dsimp only
    split
    · exact hu
    split
    · exact hu
    split
    · split
      · exact hm
      · exact hu
    split
    · exact hm
    · exact hu

theorem deltaDamaged_scans (s : State) (d : Desc) (b : DeltaBlock) (cause : Nat) : Scans s (deltaDamaged s d b cause) := by
  unfold deltaDamaged
  exact (journal_scans ..).trans .modSeqs

theorem expandDelta_scans (s : State) (d : Desc) (b : DeltaBlock) : Scans s (expandDelta s d b).1 := by
  unfold expandDelta
  extract_lets bad
  split
  · exact .refl s
  split
  · next e => exact ((readPage_scans ..).of_eq e).trans (deltaDamaged_scans ..)
  · next e => exact (readPage_scans ..).of_eq e
  · next e =>
    split
    · exact ((readPage_scans ..).of_eq e).trans (deltaDamaged_scans ..)
    · exact (readPage_scans ..).of_eq e

theorem deltaPage_scans (s : State) (k : Nat) (d : Desc) (x : Pat) (kv layer page : Nat) :
    Scans s (deltaPage s k d x kv layer page).1 := by
  unfold deltaPage
  dsimp only
  split
  · split
    all_goals
      next e => exact (Scans.modSeqs).trans ((load_scans ..).of_eq e)
  · split
    · exact .refl s
    · split
      · next e => exact (expandDelta_scans ..).of_eq e
      · next e =>
        refine ((expandDelta_scans ..).of_eq e).trans ?_
        split
        · next e' =>
          dsimp only
          exact (sramGet_scans e').trans ((poke_scans ..).trans .modSeqs)
        · exact .refl _

theorem loadTail_scans (s : State) (d : Desc) (key : TailKey) (reader : Nat) : Scans s (loadTail s d key reader).1 := by
  unfold loadTail
  dsimp only
  split
  · split
    all_goals
      next e => exact (load_scans ..).of_eq e
  · split
    · exact .refl s
    split
    · next e => exact (load_scans ..).of_eq e
    · next e =>
      split
      all_goals
        next e' => exact ((load_scans ..).of_eq e).trans ((load_scans ..).of_eq e')

theorem tailPage_scans (s : State) (d : Desc) (x : Pat) (key : TailKey) : Scans s (tailPage s d x key).1 := by
  unfold tailPage
  split
  · exact .refl s
  dsimp only
  split
  · exact .refl s
  split
  · exact .refl s
  split
  all_goals
    next e => exact (loadTail_scans ..).of_eq e

theorem badRefs_scans (s : State) (r : Root) : Scans s (badRefs s r).1 := by
  unfold badRefs
  refine .foldl_fst (fun acc p => ?_) _ s _
  dsimp only
  split
  all_goals
    next e => exact (load_scans ..).of_eq e

theorem headPages_scans (s : State) (i k : Nat) (d : Desc) (a : Att) (x : Pat) (off kv : Nat) :
    Scans s (headPages s i k d a x off kv).1 := by
  unfold headPages
  dsimp only
  refine .trans (.trans (.foldl_fst (fun acc p => ?_) _ _ _) (badRefs_scans ..)) (.foldl_fst (fun acc q => ?_) _ _ _)
  · exact deltaPage_scans ..
  · split
    all_goals
      next e => exact (tailPage_scans ..).of_eq e

/-! ### What a scan leaves (06_append.md R133, R135) -/

theorem noteOpen_scans (s : State) (k lpn : Nat) : Scans s (noteOpen s k lpn) := by
  unfold noteOpen
  exact .modMem

theorem settleRead_scans (s : State) (i k : Nat) (d : Desc) (pairs : List Nat) (lpn : Nat) :
    Scans s (settleRead s i k d pairs lpn) := by
  unfold settleRead
  split
  · exact .refl s
  · exact (readPage_scans ..).trans (noteOpen_scans ..)

theorem useSketch_scans (s : State) (k lpn : Nat) : Scans s (useSketch s k lpn).1 := by
  unfold useSketch
  dsimp only
  split
  · exact .refl s
  · split
    · dsimp only
      exact .trans .modMem .modMem
    · dsimp only
      exact .trans .modMem (.bump (by decide) _)

theorem readSketch_scans (s : State) (g : PGeom) (lpn : Nat) : Scans s (readSketch s g lpn) :=
  .ite ((load_scans ..).trans (load_scans ..)) (load_scans ..)

theorem settleBound_scans (s : State) (k : Nat) (d : Desc) (lpn : Nat) : Scans s (settleBound s k d lpn) := by
  unfold settleBound
  split
  · next e => exact (useSketch_scans ..).of_eq e
  · next e => exact ((useSketch_scans ..).of_eq e).trans (readSketch_scans ..)

theorem prefetchSketch_scans (s : State) (k lpn gen size : Nat) : Scans s (prefetchSketch s k lpn gen size) := by
  unfold prefetchSketch
  exact .modMem

theorem reloadTail_scans {s t : State} {d : Desc} {key : TailKey} (h : reloadTail s d key = .ok t) : Scans s t := by
  unfold reloadTail at h
  split at h
  · cases h
  · cases h
  · next u b e =>
    unfold placeTail at h
    dsimp only at h
    split at h
    · cases h
    · next e' =>
      cases h
      exact ((loadTail_scans ..).of_eq e).trans ((sramGet_scans e').trans ((poke_scans ..).trans .modSeqs))

theorem prefetchNext_scans (s : State) (i k : Nat) (d : Desc) (a : Att) : Scans s (prefetchNext s i k d a) := by
  unfold prefetchNext
  split
  · exact .refl s
  dsimp only
  refine .trans (.foldl (fun s q => ?_) _ s) (.ite (.refl _) (.foldl (fun s p => .foldl (fun s q => ?_) _ s) _ _))
  · split
    · split
      · next h => exact reloadTail_scans h
      · exact .refl s
    · exact .refl s
  · exact (readSketch_scans ..).trans (prefetchSketch_scans ..)

theorem scanSlice_scans (s : State) (i k : Nat) (d : Desc) (a : Att) (x : Pat) (q : AttQ) :
    Scans s (scanSlice s i k d a x q).1 := by
  unfold scanSlice
  dsimp only
  refine .trans (.trans (.trans (.trans (.foldl_fst (fun acc p => ?_) _ _ _) (.foldl (fun s l => ?_) _ _))
    (.foldl (fun s l => settleBound_scans ..) _ _)) (modMeter_scans ..)) (prefetchNext_scans ..)
  · exact headPages_scans acc.1 i k d a x p.1 p.2
  · exact .trans (.ite (useSketch_scans ..) (.refl s)) (settleRead_scans ..)

/-- A kernel's run, a shipped one's or an operator's, does what a scan does. -/
theorem runKernel_scans (s : State) (i k : Nat) (d : Desc) (a : Att) (x : Pat) (q : AttQ) (prog : Option Nat) :
    Scans s (runKernel s i k d a x q prog).1 := by
  unfold runKernel
  split
  · exact scanSlice_scans ..
  · dsimp only
    split
    · exact scanSlice_scans ..
    · exact (modMeter_scans ..).trans (prefetchNext_scans ..)

/-! ## One slice's part -/

/-- From s to t contexts, groups and descriptors stand. -/
structure Beside (s t : State) : Prop where
  ctxs : t.merge.ctxs = s.merge.ctxs
  groups : t.merge.groups = s.merge.groups
  descs : t.seqs.descs = s.seqs.descs

namespace Beside
variable {a s t : State}

theorem refl (s : State) : Beside s s := ⟨rfl, rfl, rfl⟩

theorem trans (f : Beside a s) (g : Beside s t) : Beside a t :=
  ⟨g.ctxs.trans f.ctxs, g.groups.trans f.groups, g.descs.trans f.descs⟩

theorem foldl {β : Type} {f : State → β → State} (hf : ∀ s x, Beside s (f s x)) :
    ∀ (l : List β) (s : State), Beside s (l.foldl f s)
  | [], s => refl s
  | x :: l, s => (hf s x).trans (foldl hf l (f s x))

theorem of_scans (f : Scans s t) : Beside s t := ⟨by rw [f.merge], by rw [f.merge], f.descs⟩

end Beside

theorem runScan_beside (s : State) (ctx k e : Nat) (m : Msg) (i : Nat) (d : Desc) : Beside s (runScan s ctx k e m i d) := by
  unfold runScan
  extract_lets a x
  generalize hp : runKernel s i k d a x (attQuery m.be a m.payload d x).1 (kernelOf s m.tenant a.mode d) = p
  obtain ⟨u, r⟩ := p
  have hu : Beside s u := .of_scans ((runKernel_scans ..).of_eq hp)
  dsimp only
  generalize hv : (if levelOf u e = 0 then u else pauseAfter u e (levelOf u e) 0) = v
  have huv : Beside u v := by
    subst hv
    split
    · exact .refl u
    · exact ⟨rfl, rfl, rfl⟩
  split
  · exact hu.trans huv
  · exact (hu.trans huv).trans ⟨rfl, rfl, rfl⟩

theorem scanAt_beside (s : State) (ctx i k : Nat) (m : Msg) (d : Desc) : Beside s (scanAt s ctx i k m d) := by
  unfold scanAt
  dsimp only
  split
  · exact runScan_beside ..
  · split <;> exact ⟨rfl, rfl, rfl⟩

/-- Whether the records of a slice that runs on die e reach the hub that keeps its quadrant's chain. 05_merge.md R444. -/
def setArrives (s : State) (k e : Nat) : Bool := (hubRoute s (homeHub s e) ((quadHub s (k / 4)).getD (homeHub s e))).isSome

theorem LanesStand.setArrives_eq {s t : State} (f : LanesStand s t) (k e : Nat) : setArrives t k e = setArrives s k e := by
  simp only [setArrives, f.homeHub_eq, f.quadHub_eq, f.hubRoute_eq]

/-- From s to t, calmly, record sets of the slices of a list and no others are put on their way to a context. -/
structure SetsSent (ctx : Nat) (l : List Nat) (s t : State) : Prop extends Calm s t where
  onWay : slicesOnWay t ctx = slicesOnWay s ctx ++ l
  held : t.merge.held = s.merge.held
  ledg : t.ledg = s.ledg

theorem SetsSent.trans {ctx : Nat} {l l' : List Nat} {a s t : State} (f : SetsSent ctx l a s) (g : SetsSent ctx l' s t) :
    SetsSent ctx (l ++ l') a t :=
  ⟨f.toCalm.trans g.toCalm, by rw [g.onWay, f.onWay, List.append_assoc], g.held.trans f.held, g.ledg.trans f.ledg⟩

/-- On quiet memory and at level 0 a slice's part runs without a pause, and its record set leaves where it can arrive. -/
theorem runScan_sends {s : State} {e : Nat} (hq : Quiet s) (hl : levelOf s e = 0) (ctx k : Nat) (m : Msg) (i : Nat)
    (d : Desc) : SetsSent ctx (if setArrives s k e then [k] else []) s (runScan s ctx k e m i d) := by
  unfold runScan
  extract_lets a x
  generalize hp : runKernel s i k d a x (attQuery m.be a m.payload d x).1 (kernelOf s m.tenant a.mode d) = p
  obtain ⟨u, r⟩ := p
  have hu : Scans s u := (runKernel_scans ..).of_eq hp
  have hc : Calm s u := hu.calm hq
  dsimp only
  rw [if_pos ((hc.lanes.levelOf_eq e).trans hl), ← hc.lanes.setArrives_eq, setArrives]
  by_cases ha : (hubRoute u (homeHub u e) ((quadHub u (k / 4)).getD (homeHub u e))).isSome = true
  · rw [if_pos ha, if_neg (by simpa [Option.isSome_iff_ne_none] using ha)]
    refine ⟨hc.trans ⟨rfl, hc.chk, .of_mem rfl rfl rfl fun _ => rfl⟩, ?_, ?_, hu.ledg⟩
    · simp [slicesOnWay, hu.merge]
    · rw [modMerge_merge, hu.merge]
  · rw [if_neg ha, if_pos (by simpa using ha)]
    exact ⟨hc, by rw [slicesOnWay, hu.merge, List.append_nil, slicesOnWay], by rw [hu.merge], hu.ledg⟩

/-- Every slice whose lane engine is idle and at level 0 when the request comes scans it at once. 07_dill.md R142, R146. -/
theorem scans_send (ctx i : Nat) (m : Msg) (d : Desc) : ∀ (ks : List Nat) {s : State}, Quiet s →
    (∀ k ∈ ks, laneIdle s (servingSlice s k) = true ∧ levelOf s (servingSlice s k) = 0) →
    SetsSent ctx (ks.filter fun k => setArrives s k (servingSlice s k)) s (ks.foldl (fun s k => scanAt s ctx i k m d) s)
  | [], s, hq, _ => ⟨.refl hq, by simp, rfl, rfl⟩
  | k :: ks, s, hq, hk => by
    obtain ⟨hidle, hlevel⟩ := hk k (List.mem_cons_self ..)
    have h1 : SetsSent ctx (if setArrives s k (servingSlice s k) then [k] else []) s (scanAt s ctx i k m d) := by
      unfold scanAt
      dsimp only
      rw [if_pos hidle]
      exact runScan_sends hq hlevel ..
    have hl := h1.lanes
    have h2 := scans_send ctx i m d ks (h1.toCalm.quiet hq) fun j hj => by
      rw [hl.servingSlice_eq, hl.laneIdle_eq hq.2, hl.levelOf_eq]
      exact hk j (List.mem_cons_of_mem _ hj)
    have h := h1.trans h2
    simp only [hl.servingSlice_eq, hl.setArrives_eq] at h
    rw [List.foldl_cons, List.filter_cons]
    split
    · next ha => simpa [ha] using h
    · next ha => simpa [ha] using h

/-! ## The fan-out -/

/-- The request is counted: its sequence is one request heavier, and its tenant's meter one merge further. -/
def counted (s : State) (m : Msg) (a : Att) (i : Nat) (d : Desc) : State :=
  modMeter (modDesc s i fun d => { d with inflight := d.inflight + 1 }) m.tenant fun t =>
    { t with merges := t.merges + 1,
             nonFinite := t.nonFinite + (attQuery m.be a m.payload d (attPattern m.be a m.payload d)).2 }

/-- Duration of a request's deadline at its hub, halved for a contribution. 05_merge.md R107. -/
def attendNs (s : State) (m : Msg) (a : Att) : Nat :=
  if a.tag = 0 then deadlineNs s m.hub a.deadline else deadlineNs s m.hub a.deadline / 2

/-- The context a request opens. 05_merge.md R105 to R109. -/
def freshCtx (s : State) (id : Nat) (m : Msg) (a : Att) (i : Nat) (d : Desc) : MergeCtx :=
  { msg := id, hub := m.hub, tenant := m.tenant, desc := i, snap := d, durNs := attendNs s m a,
    deadline := m.at_ + attendNs s m a, arrival := a.arrival, nRecs := a.heads, dim := d.dim,
    chains := (servedQuads s).map fun (q, h) => ⟨q, h, [], false, now s h + (attendNs s m a * 1023 / 1024 - 2500)⟩,
    expected := (servedQuads s).map (·.1), quads := [] }

/-- The request waits for the context it opens in a state. -/
def opened (s : State) (c : MergeCtx) : State :=
  setPhase (modMerge (newId s).2 fun y => { y with ctxs := aset y.ctxs s.nextId c }) c.msg (.waitMerge s.nextId)

/-- Slices that the request of a hub reaches. 16_lifecycle.md R390, R391. -/
def reached (s : State) (h : Nat) : List Nat :=
  (List.range 32).filter fun k => sliceReachable s (servingSlice s k) && (hubRoute s h (homeHub s (servingSlice s k))).isSome

/-- The fan-out: the request is counted, opens its context, and every slice it reaches scans. -/
theorem startAttend_eq (s : State) (id : Nat) (m : Msg) (a : Att) (i : Nat) (d : Desc) :
    startAttend s id m a i d =
      (reached (opened (counted s m a i d) (freshCtx (counted s m a i d) id m a i d)) m.hub).foldl
        (fun t k => scanAt t (counted s m a i d).nextId i k m d)
        (opened (counted s m a i d) (freshCtx (counted s m a i d) id m a i d)) := rfl

/-- A part that neither the messages nor a reopening of credit touch is one that a change of phase leaves. -/
theorem setPhase_part {β : Type} (g : State → β) (hm : ∀ s id f, g (modMsg s id f) = g s)
    (hf : ∀ s m, g (freeUnits s m) = g s) (s : State) (id : Nat) (p : Phase) : g (setPhase s id p) = g s := by
  unfold setPhase
  split
  · rfl
  · dsimp only
    split
    · exact hm ..
    · rw [hf, hm]

section
variable (s : State) (id : Nat) (p : Phase)

theorem setPhase_regs : (setPhase s id p).regs = s.regs := setPhase_part (·.regs) (fun _ _ _ => rfl) freeUnits_regs s id p
theorem setPhase_mem : (setPhase s id p).mem = s.mem := setPhase_part (·.mem) (fun _ _ _ => rfl) freeUnits_mem s id p
theorem setPhase_seqs : (setPhase s id p).seqs = s.seqs := setPhase_part (·.seqs) (fun _ _ _ => rfl) freeUnits_seqs s id p
theorem setPhase_dill : (setPhase s id p).dill = s.dill := setPhase_part (·.dill) (fun _ _ _ => rfl) freeUnits_dill s id p
theorem setPhase_life : (setPhase s id p).life = s.life := setPhase_part (·.life) (fun _ _ _ => rfl) freeUnits_life s id p
theorem setPhase_ledg : (setPhase s id p).ledg = s.ledg := setPhase_part (·.ledg) (fun _ _ _ => rfl) freeUnits_ledg s id p
theorem setPhase_host : (setPhase s id p).host = s.host := setPhase_part (·.host) (fun _ _ _ => rfl) freeUnits_host s id p

variable {s id} {m : Msg} (hm : msgOf s id = some m)
include hm

theorem setPhase_eq (hp : p.before = false) :
    setPhase s id p = freeUnits (modMsg s id fun m => { m with phase := p, units := 0 }) m := by
  unfold setPhase
  rw [hm]
  simp [hp]

theorem setPhase_phase (hp : p.before = false) : (msgOf (setPhase s id p) id).map (·.phase) = some p := by
  have hs : aget s.msgs id = some m := hm
  rw [setPhase_eq p hm hp, msgOf, freeUnits_msgs]
  simp [modMsg, setMsgs, aget_amod_same, hs]

/-- Without reassembly space to return, a change of phase sends nothing. -/
theorem setPhase_sends_nothing (hp : p.before = false) (hu : m.units = 0) :
    (setPhase s id p).fab = s.fab ∧ (setPhase s id p).traf = s.traf := by
  rw [setPhase_eq p hm hp, freeUnits, if_pos (.inl hu)]
  exact ⟨rfl, rfl⟩

end

/-- What a request is counted in: descriptors and meters. -/
theorem counted_rest (s : State) (m : Msg) (a : Att) (i : Nat) (d : Desc) : counted s m a i d =
    { s with seqs := (modDesc s i fun d => { d with inflight := d.inflight + 1 }).seqs, health := (counted s m a i d).health } := by
  unfold counted modMeter
  split <;> rfl

/-- The state from which the slices scan. -/
def fannedOut (s : State) (id : Nat) (m : Msg) (a : Att) (i : Nat) (d : Desc) : State :=
  opened (counted s m a i d) (freshCtx (counted s m a i d) id m a i d)

section
variable (s : State) (id : Nat) (m : Msg) (a : Att) (i : Nat) (d : Desc)

theorem counted_lanes : LanesStand s (counted s m a i d) := by
  rw [counted_rest]
  exact .of_mem rfl rfl rfl fun _ => rfl

theorem fannedOut_lanes : LanesStand s (fannedOut s id m a i d) := by
  refine (counted_lanes s m a i d).trans (.of_mem ?_ ?_ ?_ fun _ => rget_congr ?_ ..)
  · exact setPhase_dill ..
  · exact setPhase_life ..
  · exact setPhase_mem ..
  · exact setPhase_regs ..

theorem fannedOut_mem : (fannedOut s id m a i d).mem = s.mem := by
  refine (setPhase_mem ..).trans ?_
  rw [modMerge_mem, newId_mem, counted_rest]

theorem fannedOut_merge : (fannedOut s id m a i d).merge =
    { s.merge with ctxs := aset s.merge.ctxs s.nextId (freshCtx (counted s m a i d) id m a i d) } := by
  refine (setPhase_spares ..).1.trans ?_
  rw [modMerge_merge, newId_merge, counted_rest]

theorem fannedOut_ledg : (fannedOut s id m a i d).ledg = s.ledg := by
  refine (setPhase_ledg ..).trans ?_
  rw [modMerge_ledg, newId_ledg, counted_rest]

theorem fannedOut_host : (fannedOut s id m a i d).host = s.host := by
  refine (setPhase_host ..).trans ?_
  rw [modMerge_host, newId_host, counted_rest]

variable {s i d} in
theorem descOf_fannedOut (h : descOf s i = some d) :
    descOf (fannedOut s id m a i d) i = some { d with inflight := d.inflight + 1 } := by
  have hs : (fannedOut s id m a i d).seqs = (modDesc s i fun d => { d with inflight := d.inflight + 1 }).seqs := by
    refine (setPhase_seqs ..).trans ?_
    rw [modMerge_seqs, newId_seqs, counted_rest]
  rw [descOf, hs]
  exact descOf_modDesc_same h _

variable {s id m} in
theorem fannedOut_waits (h : msgOf s id = some m) :
    (msgOf (fannedOut s id m a i d) id).map (·.phase) = some (.waitMerge s.nextId) ∧
    (m.units = 0 → (fannedOut s id m a i d).fab = s.fab ∧ (fannedOut s id m a i d).traf = s.traf) := by
  have hm (f : MergeSt → MergeSt) : msgOf (modMerge (newId (counted s m a i d)).2 f) id = some m := by
    rw [msgOf, modMerge_msgs, newId_msgs, counted_rest]
    exact h
  have hn : (counted s m a i d).nextId = s.nextId := by rw [counted_rest]
  refine ⟨(setPhase_phase _ (hm _) rfl).trans (by rw [hn]), fun hu => ?_⟩
  obtain ⟨hf, ht⟩ := setPhase_sends_nothing (.waitMerge (counted s m a i d).nextId) (hm _) rfl hu
  refine ⟨hf.trans ?_, ht.trans ?_⟩
  · rw [modMerge_fab, newId_fab, counted_rest]
  · rw [modMerge_traf, newId_traf, counted_rest]

theorem startAttend_scans : startAttend s id m a i d =
    (reached (fannedOut s id m a i d) m.hub).foldl (fun t k => scanAt t s.nextId i k m d) (fannedOut s id m a i d) := by
  rw [startAttend_eq, show (counted s m a i d).nextId = s.nextId by rw [counted_rest]]
  rfl

end

/-- The quadrants expected are those that a hub serves. 05_merge.md R109. -/
theorem servedQuads_quads (s : State) :
    (servedQuads s).map (·.1) = (List.range 8).filter fun q => (quadHub s q).isSome := by
  unfold servedQuads
  induction List.range 8 with
  | nil => rfl
  | cons q l ih => cases h : quadHub s q <;> simp [h, ih]

/-- From the fan-out on, what the slices do leaves the context and the sequence's count. -/
theorem fannedOut_spec {s t : State} {i : Nat} {d : Desc} (hd : descOf s i = some d) (id : Nat) (m : Msg) (a : Att)
    (ht : Beside (fannedOut s id m a i d) t) : FannedOut s t id i m a d := by
  have hl := counted_lanes s m a i d
  have hdesc : descOf t i = some { d with inflight := d.inflight + 1 } := by
    rw [descOf, ht.descs]
    exact descOf_fannedOut id m a hd
  have hns : attendNs (counted s m a i d) m a =
      if a.tag = 0 then deadlineNs s m.hub a.deadline else deadlineNs s m.hub a.deadline / 2 := by
    rw [attendNs, counted_rest]
    rfl
  refine ⟨by rw [hdesc]; rfl, freshCtx (counted s m a i d) id m a i d, ?_, rfl, rfl, rfl, rfl, rfl, rfl, rfl, rfl, ?_, ?_,
    hns, rfl⟩
  · rw [ht.ctxs, fannedOut_merge, aget_aset_same]
  · intro x hx
    obtain ⟨q, -, rfl⟩ := List.mem_map.mp hx
    exact ⟨rfl, rfl⟩
  · refine (servedQuads_quads _).trans ?_
    simp only [hl.quadHub_eq]

/-- Of the slices a request reaches, those whose records arrive. -/
theorem reached_arrives (s : State) (h : Nat) :
    ((reached s h).filter fun k => setArrives s k (servingSlice s k)) = slicesInReach s h := by
  unfold reached slicesInReach setArrives
  rw [List.filter_filter]
  exact List.filter_congr fun k _ => Bool.and_comm ..

theorem LanesStand.slicesInReach_eq {s t : State} (f : LanesStand s t) (h : Nat) : slicesInReach t h = slicesInReach s h := by
  simp only [slicesInReach, f.servingSlice_eq, f.sliceReachable_eq, f.homeHub_eq, f.hubRoute_eq, f.quadHub_eq]

/-- A request that starts where every lane engine is idle and at level 0: each slice in reach has sent its record set. -/
theorem startAttend_sends {s : State} {m : Msg} (hq : Quiet s)
    (hk : ∀ k, k < 32 → laneIdle s (servingSlice s k) = true ∧ levelOf s (servingSlice s k) = 0) (id : Nat) (a : Att) (i : Nat)
    (d : Desc) : SetsSent s.nextId (slicesInReach s m.hub) (fannedOut s id m a i d) (startAttend s id m a i d) := by
  have hl := fannedOut_lanes s id m a i d
  have hqf : Quiet (fannedOut s id m a i d) := ⟨by rw [fannedOut_mem]; exact hq.1, by rw [hl.dill]; exact hq.2⟩
  rw [startAttend_scans, ← hl.slicesInReach_eq, ← reached_arrives]
  refine scans_send _ _ _ _ _ hqf fun k hkr => ?_
  rw [hl.servingSlice_eq, hl.laneIdle_eq hq.2, hl.levelOf_eq]
  exact hk k (List.mem_range.mp (List.mem_filter.mp hkr).1)

/-! ## What the command answers -/

/-- A request that may start is in the queue. -/
theorem msgOf_of_mayStart {s : State} {id : Nat} {op : Opcode} {m : Msg} (h : mayStart s id op = some m) :
    msgOf s id = some m := by
  unfold mayStart at h
  split at h
  · cases h
  · next x hx =>
    dsimp only at h
    split at h
    · cases h
    · exact hx.trans h

theorem findSeq_index (s : State) (hub tenant handle : Nat) : IndexOnly hub s (findSeq s hub tenant handle).1 := by
  unfold findSeq
  split
  · exact .refl s
  · exact search_index ..

theorem IndexOnly.lanes {h : Nat} {s t : State} (f : IndexOnly h s t) : LanesStand s t :=
  .of_mem (by rw [f.rest]) (by rw [f.rest]) (by rw [f.rest]) fun _ => f.regs _ _ _ (by decide)

theorem refuseAttend_merge (s : State) (id : Nat) (m : Msg) (a : Att) (st : Status) :
    (refuseAttend s id m a st).merge = s.merge := answer_merge ..

/-- What a request meets from order 2 on, once its handle is found. 04_attend.md R72. -/
def attendFails (s : State) (m : Msg) (a : Att) (d : Desc) : Option Status :=
  firstFail [(! genMatch a.gen d.gen, .notFound), (decide (d.state = .draining), .busy),
    (decide (d.state = .dropping), .notFound), (attBounds m a d, .bounds), (attValues m a, .bounds),
    (attPlaces m a d, .bounds), (! mergeQuotaOk s m.tenant, .quota),
    (! fanRoom s m.hub (setUnits a.heads d.dim) a.arrival, .busy)]

section
variable {s u : State} {msg : Nat} {m : Msg} {a : Att} (hs : mayStart s msg .attend = some m)
  (ha : a = Att.parse m.be m.payload)
include hs ha

theorem exec_attend_version (hv : a.ver ≠ 1 ∨ a.mode = 3) :
    exec (.attend msg) s = .next (refuseAttend s msg m a .version) := by
  subst ha
  dsimp only [exec]
  unfold execAttend
  rw [hs]
  exact if_pos hv

variable (hv : a.ver = 1) (hm : a.mode ≠ 3)
include hv hm

theorem exec_attend_miss (hf : findSeq s m.hub m.tenant a.handle = (u, .miss)) :
    exec (.attend msg) s = .next (refuseAttend u msg m a .notFound) := by
  subst ha
  dsimp only [exec]
  unfold execAttend
  rw [hs]
  dsimp only
  rw [if_neg (not_or.mpr ⟨not_not_intro hv, hm⟩), hf]

/-- A request whose handle the index finds is answered by its first failing check, or starts. -/
theorem exec_attend_hit {i : Nat} {d : Desc} (hf : findSeq s m.hub m.tenant a.handle = (u, .hit i))
    (hd : descOf u i = some d) : exec (.attend msg) s =
      .next ((attendFails u m a d).elim (startAttend u msg m a i d) (refuseAttend u msg m a)) := by
  subst ha
  dsimp only [exec]
  unfold execAttend
  rw [hs]
  dsimp only
  rw [if_neg (not_or.mpr ⟨not_not_intro hv, hm⟩), hf]
  dsimp only
  rw [hd]
  dsimp only
  rw [← attendFails]
  cases attendFails u m (Att.parse m.be m.payload) d <;> rfl

/-- A request that keeps R72 starts. -/
theorem exec_attend_starts {i : Nat} {d : Desc} (hf : findSeq s m.hub m.tenant a.handle = (u, .hit i))
    (hd : descOf u i = some d) (hg : genMatch a.gen d.gen = true) (h1 : d.state ≠ .draining) (h2 : d.state ≠ .dropping)
    (hfit : AttendFits u m a d) : exec (.attend msg) s = .next (startAttend u msg m a i d) := by
  obtain ⟨hb, hval, hp, hquota, hroom⟩ := hfit
  have hn : attendFails u m a d = none := by simp [attendFails, firstFail, hg, h1, h2, hb, hval, hp, hquota, hroom]
  rw [exec_attend_hit hs ha hv hm hf hd, hn]
  rfl

end

/-- Settles O12: an accepted request starts (`exec_attend_starts`), and what the scans do leaves its context as it opened
(`fannedOut_spec`, `scanAt_beside`); where memory is sound and every lane engine idle, each scan puts its set on its way
(`startAttend_sends`). The refusals are read off the checks of R72 in order (`exec_attend_hit`). -/
theorem attendFansOut : Obligations.AttendFansOut := by
  unfold Obligations.AttendFansOut
  have hmerge {s u : State} {hub tenant handle : Nat} {r : Found} (hf : findSeq s hub tenant handle = (u, r)) :
      u.merge = s.merge := ((findSeq_apart ..).of_eq hf).merge
  have hstart {u : State} (msg i : Nat) (m : Msg) (a : Att) (d : Desc) :
      Beside (fannedOut u msg m a i d) (startAttend u msg m a i d) := by
    rw [startAttend_scans]
    exact .foldl (fun s k => scanAt_beside ..) _ _
  refine ⟨fun msg i m a d s u hs ha hv hm hf hd hg h1 h2 hfit => ?_,
    fun msg i m a d s u hs ha hv hm hf hd hg h1 h2 hfit hq hway hk => ?_,
    fun msg m a s hs ha hv => completes_of_exec (exec_attend_version hs ha hv) rfl,
    fun msg m a s u hs ha hv hm hf => completes_of_exec (exec_attend_miss hs ha hv hm hf)
      ⟨rfl, (refuseAttend_merge ..).trans (hmerge hf)⟩,
    fun msg i m a d s u hs ha hv hm hf hd => completes_of_exec (exec_attend_hit hs ha hv hm hf hd) ?_⟩
  · refine completes_of_exec (exec_attend_starts hs ha hv hm hf hd hg h1 h2 hfit)
      ⟨fannedOut_spec hd msg m a (hstart ..), ?_⟩
    rw [(hstart ..).groups, fannedOut_merge, hmerge hf]
  · have hi : IndexOnly m.hub s u := by
      have h := findSeq_index s m.hub m.tenant a.handle
      rwa [hf] at h
    have hrest := hi.rest
    have hqu : Quiet u := by rw [hrest]; exact hq
    have hmsg : msgOf u msg = some m := by rw [hrest]; exact msgOf_of_mayStart hs
    have hsent := startAttend_sends (m := m) hqu (fun k hlt => by
      rw [hi.lanes.servingSlice_eq, hi.lanes.laneIdle_eq hq.2, hi.lanes.levelOf_eq]
      exact hk k hlt) msg a i d
    obtain ⟨hphase, hstill⟩ := fannedOut_waits a i d hmsg
    refine completes_of_exec (exec_attend_starts hs ha hv hm hf hd hg h1 h2 hfit)
      ⟨fannedOut_spec hd msg m a (hstart ..), ?_, ?_, ?_, fun h0 => ⟨?_, ?_⟩, ?_, ?_⟩
    · rw [hsent.rest]
      exact hphase
    · rw [hsent.onWay, slicesOnWay, fannedOut_merge, hmerge hf]
      exact congrArg (· ++ slicesInReach u m.hub) hway
    · rw [hsent.held, fannedOut_merge, hmerge hf]
    · rw [hsent.rest]
      exact (hstill h0).1.trans (by rw [hrest])
    · rw [hsent.rest]
      exact (hstill h0).2.trans (by rw [hrest])
    · rw [hsent.ledg, fannedOut_ledg, hrest]
    · rw [hsent.rest]
      exact (fannedOut_host ..).trans (by rw [hrest])
  · have hmrg (st : Status) : (refuseAttend u msg m a st).merge = s.merge := (refuseAttend_merge ..).trans (hmerge hf)
    have hfails {st : Status} (h : attendFails u m a d = some st) :
        (attendFails u m a d).elim (startAttend u msg m a i d) (refuseAttend u msg m a) = refuseAttend u msg m a st ∧
        ((attendFails u m a d).elim (startAttend u msg m a i d) (refuseAttend u msg m a)).merge = s.merge := by
      rw [h]
      exact ⟨rfl, hmrg st⟩
    refine ⟨fun hg => hfails ?_, fun hg hst => hfails ?_, fun hg hst => hfails ?_, fun hg h1 h2 hb => hfails ?_⟩
    · simp [attendFails, firstFail, hg]
    · simp [attendFails, firstFail, hg, hst]
    · simp [attendFails, firstFail, hg, hst]
    · rcases hb with hb | hb | hb <;> simp [attendFails, firstFail, hg, h1, h2, hb]

end Sys2Proof.Proofs

namespace Sys2Proof.Proofs
open Sys2Proof.Machine Sys2Proof.Laws

/-!
The merge of two records (O53). A replacement answers a value that is not infinite and says whether it replaced one; maxima,
sums and with them the rescaled sums do not depend on the order of their operands. The merge is then said once for each of
the four cases of empty inputs, and what O53 states is read off these.
-/

/-! ## Infinities of FP32 -/

theorem f32inf_iff (x : F32) : f32inf x = true ↔ x = POSINF ∨ x = NEGINF := by
  have hinf : fp32.inf = 0x7F800000 := rfl
  have hmag : fp32.mag x.toNat = x.toNat % 2 ^ 31 := rfl
  have hx := x.isLt
  rw [f32inf, FpFmt.isInf, decide_eq_true_eq, hinf, hmag, ← BitVec.toNat_inj, ← BitVec.toNat_inj]
  simp only [POSINF, NEGINF, BitVec.toNat_ofNat]
  omega

theorem unInf_of_finite {x : F32} (h : f32inf x = false) : unInf x = x := by
  rw [← Bool.not_eq_true, f32inf_iff, not_or] at h
  rw [unInf, if_neg h.1, if_neg h.2]

theorem f32Sat_eq (x : F32) : f32Sat x = (unInf x, f32inf x) := by
  cases h : f32inf x with
  | false => simp [f32Sat, h, unInf_of_finite h]
  | true => rcases (f32inf_iff x).mp h with rfl | rfl <;> decide

theorem f32inf_unInf (x : F32) : f32inf (unInf x) = false := by
  cases h : f32inf x with
  | false => rw [unInf_of_finite h, h]
  | true => rcases (f32inf_iff x).mp h with rfl | rfl <;> decide

/-! ## Operations that do not depend on the order of their operands (05_merge.md R100) -/

theorem dyAdd_comm (x y : Dy) : x.add y = y.add x := by
  unfold Dy.add
  rcases Int.lt_trichotomy x.e y.e with h | h | h
  · rw [if_pos (Int.le_of_lt h), if_neg (Int.not_le.mpr h), Int.add_comm]
  · simp only [h, Int.le_refl, if_true, Int.sub_self, Int.toNat_zero, Nat.pow_zero, Int.natCast_one, Int.mul_one, Int.add_comm]
  · rw [if_neg (Int.not_le.mpr h), if_pos (Int.le_of_lt h), Int.add_comm]

theorem dyAdd_neg (x y : Dy) : x.neg.add y.neg = (x.add y).neg := by
  unfold Dy.add Dy.neg
  dsimp only
  split
  · rw [Int.neg_mul, Int.neg_add]
  · rw [Int.neg_mul, Int.neg_add]

theorem dyLt_asymm {x y : Dy} (h : x.lt y = true) : y.lt x = false := by
  have hy : x.neg.add y = (x.add y.neg).neg := dyAdd_neg x y.neg ▸ by simp [Dy.neg]
  have hneg : (y.add x.neg).m = -(x.add y.neg).m := by rw [dyAdd_comm, hy]; rfl
  rw [Dy.lt, decide_eq_true_eq] at h
  rw [Dy.lt, decide_eq_false_iff_not, hneg]
  omega

theorem f32Lt_asymm {a b : F32} (h : f32Lt a b = true) : f32Lt b a = false := by
  by_cases hn : f32nan a ∨ f32nan b
  · simp [f32Lt, hn] at h
  by_cases ha : a = NEGINF ∨ a = POSINF
  · rcases ha with rfl | rfl <;> simp_all [f32Lt, NEGINF, POSINF]
  by_cases hb : b = NEGINF ∨ b = POSINF
  · rcases hb with rfl | rfl <;> simp_all [f32Lt, NEGINF, POSINF]
  rw [not_or] at ha hb
  rw [f32Lt, if_neg hn, if_neg ha.1, if_neg hb.1, if_neg hb.2, if_neg ha.2] at h
  rw [f32Lt, if_neg (mt Or.symm hn), if_neg hb.1, if_neg ha.1, if_neg ha.2, if_neg hb.2]
  exact dyLt_asymm h

theorem f32Max_comm (a b : F32) : f32Max a b = f32Max b a := by
  unfold f32Max
  by_cases h : f32Lt a b = true
  · rw [if_pos h, if_neg (by simp [f32Lt_asymm h]), if_pos h]
  by_cases g : f32Lt b a = true
  · rw [if_neg h, if_pos g, if_pos g]
  rw [if_neg h, if_neg g, if_neg g, if_neg h]
  rcases Nat.lt_trichotomy a.toNat b.toNat with e | e | e
  · rw [if_pos (Nat.le_of_lt e), if_neg (Nat.not_le.mpr e)]
  · rw [BitVec.eq_of_toNat_eq e]
  · rw [if_neg (Nat.not_le.mpr e), if_pos (Nat.le_of_lt e)]

/-- A zero with its sign bit set is −0. -/
theorem eq_negZero {a : F32} (hz : f32zero a = true) (hs : f32sgn a = true) : a = 0x80000000#32 := by
  have ha := a.isLt
  rw [f32zero, decide_eq_true_eq] at hz
  rw [f32sgn, BitVec.msb_eq_decide, decide_eq_true_eq] at hs
  apply BitVec.eq_of_toNat_eq
  rw [BitVec.toNat_ofNat]
  omega

theorem f32Add_comm (r : Rnd) (a b : F32) : f32Add r a b = f32Add r b a := by
  by_cases hz : f32zero a ∧ f32zero b ∧ f32sgn a ∧ f32sgn b
  · obtain ⟨za, zb, sa, sb⟩ := hz
    rw [eq_negZero za sa, eq_negZero zb sb]
  have hz' : ¬ (f32zero b ∧ f32zero a ∧ f32sgn b ∧ f32sgn a) := fun ⟨zb, za, sb, sa⟩ => hz ⟨za, zb, sa, sb⟩
  have hp : (f32zero b ∧ f32zero a ∧ ¬ f32sgn b ∧ ¬ f32sgn a) = (f32zero a ∧ f32zero b ∧ ¬ f32sgn a ∧ ¬ f32sgn b) :=
    propext ⟨fun ⟨zb, za, sb, sa⟩ => ⟨za, zb, sa, sb⟩, fun ⟨za, zb, sa, sb⟩ => ⟨zb, za, sb, sa⟩⟩
  simp only [f32Add, dyAdd_comm (f32Dy b), or_comm (a := f32nan b = true), if_neg hz, if_neg hz', hp]
  by_cases ha : f32inf a = true <;> by_cases hb : f32inf b = true
  · by_cases e : a = b
    · simp only [e]
    · simp only [ha, hb, e, Ne.symm e, ne_eq, not_false_eq_true, and_self, if_true]
  all_goals simp only [ha, hb, if_true, if_false, Bool.false_eq_true, false_and]

/-! ## The merge of two records (05_merge.md R97 to R100) -/

/-- A rescaled sum with an infinity replaced, and whether it was. -/
theorem satFl_mergedSum (a b : Rec) (x y : F32) :
    satFl false (mergedSum a b x y) = (unInf (mergedSum a b x y), f32inf (mergedSum a b x y)) := by
  rw [satFl, f32Sat_eq, Bool.false_or]

theorem mergedSum_comm (a b : Rec) (x y : F32) : mergedSum a b x y = mergedSum b a y x := by
  rw [mergedSum, mergedSum, f32Add_comm, f32Max_comm]

/-- The fields of a merge that do not depend on whether an input is empty. R98 -/
def mergeBase (a b : Rec) : Rec :=
  { a with saturated := a.saturated || b.saturated, empty := a.empty && b.empty, bounded := a.bounded || b.bounded,
           toppages := a.toppages || b.toppages, scanned := satAdd a.scanned b.scanned,
           skipped := satAdd a.skipped b.skipped }

section
variable {a b : Rec}

theorem mergeRec_both_empty (ha : a.empty = true) (hb : b.empty = true) : mergeRec a b =
    { mergeBase a b with m := NEGINF, l := 0#32, o := a.o.map fun _ => 0#32, b := f32Add .up a.b b.b } := by
  simp [mergeRec, mergeBase, ha, hb]

theorem mergeRec_left_empty (ha : a.empty = true) (hb : b.empty = false) : mergeRec a b =
    { mergeBase a b with m := b.m, l := b.l, o := b.o, b := f32Add .up b.b a.b } := by
  simp [mergeRec, mergeBase, ha, hb]

theorem mergeRec_right_empty (ha : a.empty = false) (hb : b.empty = true) : mergeRec a b =
    { mergeBase a b with m := a.m, l := a.l, o := a.o, b := f32Add .up a.b b.b } := by
  simp [mergeRec, mergeBase, ha, hb]

theorem mergeRec_nonempty (ha : a.empty = false) (hb : b.empty = false) : mergeRec a b =
    { mergeBase a b with
      m := f32Max a.m b.m, l := unInf (mergedSum a b a.l b.l),
      o := (a.o.zip b.o).map fun p => unInf (mergedSum a b p.1 p.2),
      b := f32Add .up (mulUpInf a.b (mergeFactor a.m (f32Max a.m b.m))) (mulUpInf b.b (mergeFactor b.m (f32Max a.m b.m))),
      saturated := a.saturated || b.saturated || f32inf (mergedSum a b a.l b.l) ||
        (a.o.zip b.o).any fun p => f32inf (mergedSum a b p.1 p.2) } := by
  simp only [mergeRec, ha, hb, Bool.false_eq_true, and_self, or_self, if_false, ← mergeFactor.eq_def, ← mergedSum.eq_def,
    satFl_mergedSum, List.map_map, List.any_map, mergeBase]
  rfl

theorem mergeBase_comm (hh : a.head = b.head) :
    mergeBase a b = { mergeBase b a with m := a.m, l := a.l, o := a.o, b := a.b } := by
  simp only [mergeBase, satAdd, hh, Bool.or_comm, Bool.and_comm, Nat.add_comm]

theorem mergeRec_comm (hh : a.head = b.head) (ho : a.o.length = b.o.length) : mergeRec a b = mergeRec b a := by
  cases ha : a.empty <;> cases hb : b.empty
  · have hzip : b.o.zip a.o = (a.o.zip b.o).map Prod.swap := by
      rw [List.zip_eq_zipWith, List.zip_eq_zipWith, List.map_zipWith, List.zipWith_comm]
      rfl
    rw [mergeRec_nonempty ha hb, mergeRec_nonempty hb ha, mergeBase_comm hh, hzip, f32Max_comm b.m,
      f32Add_comm .up (mulUpInf b.b _), Bool.or_comm b.saturated, List.map_map, List.any_map]
    simp only [mergedSum_comm b a, Function.comp_def, Prod.fst_swap, Prod.snd_swap]
  · rw [mergeRec_right_empty ha hb, mergeRec_left_empty hb ha, mergeBase_comm hh]
  · rw [mergeRec_left_empty ha hb, mergeRec_right_empty hb ha, mergeBase_comm hh]
  · rw [mergeRec_both_empty ha hb, mergeRec_both_empty hb ha, mergeBase_comm hh, f32Add_comm, List.map_const', List.map_const',
      ho]

theorem noInf_mergeRec_nonempty (ha : a.empty = false) (hb : b.empty = false) : NoInf (mergeRec a b) := by
  rw [mergeRec_nonempty ha hb]
  refine ⟨f32inf_unInf _, fun x hx => ?_⟩
  obtain ⟨p, -, rfl⟩ := List.mem_map.mp hx
  exact f32inf_unInf _

theorem noInf_mergeRec (hna : NoInf a) (hnb : NoInf b) : NoInf (mergeRec a b) := by
  cases ha : a.empty <;> cases hb : b.empty
  · exact noInf_mergeRec_nonempty ha hb
  · rw [mergeRec_right_empty ha hb]
    exact hna
  · rw [mergeRec_left_empty ha hb]
    exact hnb
  · rw [mergeRec_both_empty ha hb]
    have hzero : f32inf 0#32 = false := by decide
    refine ⟨hzero, fun x hx => ?_⟩
    obtain ⟨y, -, rfl⟩ := List.mem_map.mp hx
    exact hzero

end

/-- The bounds reach only the merged bound. R99 -/
theorem mergeRec_ignores_bounds (a b : Rec) (x y : F32) :
    (mergeRec { a with b := x } { b with b := y }).saturated = (mergeRec a b).saturated ∧
    (mergeRec { a with b := x } { b with b := y }).l = (mergeRec a b).l ∧
    (mergeRec { a with b := x } { b with b := y }).o = (mergeRec a b).o := by
  rcases a.empty.eq_false_or_eq_true with ha | ha <;> rcases b.empty.eq_false_or_eq_true with hb | hb
  · simp only [mergeRec_both_empty, ha, hb, mergeBase, and_self]
  · simp only [mergeRec_left_empty, ha, hb, mergeBase, and_self]
  · simp only [mergeRec_right_empty, ha, hb, mergeBase, and_self]
  · simp only [mergeRec_nonempty, ha, hb, mergedSum, and_self]

/-- Settles O53: the four cases of the merge (`mergeRec_nonempty` and its siblings) with the replacement's outcome
(`satFl_mergedSum`, `f32inf_unInf`) and the symmetry of the operations of R97 (`mergeRec_comm`, R100). -/
theorem mergedValuesSaturate : Obligations.MergedValuesSaturate := by
  unfold Obligations.MergedValuesSaturate
  refine ⟨fun a b ha hb => ?_, mergeRec_ignores_bounds, fun a b => noInf_mergeRec, fun a b => mergeRec_comm⟩
  rw [mergeRec_nonempty ha hb]
  refine ⟨rfl, rfl, ?_, rfl, mergeRec_nonempty ha hb ▸ noInf_mergeRec_nonempty ha hb⟩
  simp only [Bool.or_eq_true, List.any_eq_true, or_assoc]

end Sys2Proof.Proofs

namespace Sys2Proof.Proofs
open Sys2Proof.Machine Sys2Proof.Laws

/-!
Records on their way to a merge (O13). What an answered message and a clock that has passed leave is said once; then what a
chain that closes sends, where a record that arrives goes, and what an ingress merge that closes leaves behind. The
commands are equations over these.
-/

/-! ## Messages that leave the queue -/

theorem adel_eq_self {κ α : Type} [DecidableEq κ] {k : κ} : ∀ {m : Assoc κ α}, aget m k = none → adel m k = m
  | [], _ => rfl
  | (k', v) :: m, h => by
    by_cases e : k' = k
    · simp [aget, e] at h
    · simp only [aget, e, if_false] at h
      have ih : m.filter (fun p => decide (p.1 ≠ k)) = m := adel_eq_self h
      simpa [adel, e] using ih

theorem completePcie_msgs (s : State) (m : Msg) (id p f slot : Nat) (st : Status) (hintMin : Nat) (resp : List Byte) :
    (completePcie s m id p f slot st hintMin resp).msgs = adel s.msgs id := by
  unfold completePcie
  dsimp only
  split
  · rfl
  · split
    · rfl
    · rw [writeCompletion_msgs, modMeter_msgs]
      split <;> rfl

/-- An answered message leaves the queue, whether its answer leaves the node or not. -/
theorem answer_msgs (s : State) (id : Nat) (op : Opcode) (st : Status) (hintMin : Nat) (payload : List Byte) :
    (answer s id op st hintMin payload).msgs = adel s.msgs id := by
  unfold answer
  split
  · rename_i h
    exact (adel_eq_self h).symm
  · dsimp only
    split
    · split
      · simp [setMsgs]
      · split <;> simp [setMsgs]
    · exact completePcie_msgs ..
    · rfl

theorem dropMsg_msgs (s : State) (id : Nat) : (dropMsg s id).msgs = adel s.msgs id := by
  unfold dropMsg
  split
  · rename_i h
    exact (adel_eq_self h).symm
  · dsimp only
    split <;> simp [setMsgs]

theorem msgOf_answer_same (s : State) (id : Nat) (op : Opcode) (st : Status) (hintMin : Nat) (payload : List Byte) :
    msgOf (answer s id op st hintMin payload) id = none := by
  rw [msgOf, answer_msgs, aget_adel_same]

/-! ## Time passes at a hub -/

theorem hubAlive_passTo (s : State) (h t k : Nat) : hubAlive (passTo s h t) k = hubAlive s k := by
  unfold hubAlive passTo
  by_cases e : k = h
  · rw [e, hubSt_modHub_same]
  · rw [hubSt_modHub_other s e]

theorem hubRoute_passTo (s : State) (h t a b : Nat) : hubRoute (passTo s h t) a b = hubRoute s a b := by
  have hlink (x y : Nat) : linkUp (passTo s h t) x y = linkUp s x y := rfl
  simp only [hubRoute, hlink, hubAlive_passTo]

/-! ## Chains of quadrants (05_merge.md R103, R108) -/

/-- A context whose chain of a quadrant has changed. -/
def setChain (x : MergeCtx) (q : Nat) (f : QuadChain → QuadChain) : MergeCtx :=
  { x with chains := x.chains.map fun d => if d.quad = q then f d else d }

section
variable {x : MergeCtx} {c : QuadChain} {q : Nat} (hc : (x.chains.find? fun c => decide (c.quad = q)) = some c)
include hc

theorem quad_of_find : c.quad = q := by simpa using List.find?_some hc

theorem find_setChain {f : QuadChain → QuadChain} (hf : ∀ d, d.quad = q → (f d).quad = q) :
    ((setChain x q f).chains.find? fun c => decide (c.quad = q)) = some (f c) := by
  have hp : ((fun c : QuadChain => decide (c.quad = q)) ∘ fun d => if d.quad = q then f d else d) =
      fun c => decide (c.quad = q) := by
    funext d
    by_cases h : d.quad = q <;> simp [h, hf d]
  rw [setChain, List.find?_map, hp, hc, Option.map_some, if_pos (quad_of_find hc)]

end

/-- A chain that closes is marked closed, and its record is on its way where a path leads to the ingress hub. -/
theorem closeChain_open {s : State} {ctx q : Nat} {x : MergeCtx} {c : QuadChain} (h : OpenChain s ctx q x c) :
    closeChain s ctx q = modMerge s fun y =>
      { y with ctxs := aset y.ctxs ctx (setChain x q fun d => { d with closed := true }),
               inflight := y.inflight ++ chainSends s x ctx c } := by
  obtain ⟨hx, hc, ho⟩ := h
  unfold closeChain
  rw [hx]
  dsimp only
  rw [hc]
  dsimp only
  rw [if_neg (Bool.eq_false_iff.mp ho), chainSends, chainRecord, quad_of_find hc]
  cases hubRoute s c.hub x.hub <;> rfl

/-! ## Records arrive -/

/-- A record set of a slice is on its way no longer. -/
def setLanded (s : State) (ctx k : Nat) (r : Report) : State :=
  modMerge s fun y => { y with inflight := y.inflight.filter fun f => decide (f ≠ .slice ctx k r) }

/-- A record set of a slice has joined its chain. -/
def setJoined (s : State) (ctx k : Nat) (r : Report) (x : MergeCtx) (c : QuadChain) : State :=
  modMerge (setLanded s ctx k r) fun y =>
    { y with ctxs := aset y.ctxs ctx (setChain x (k / 4) fun _ => { c with slices := c.slices ++ [(k, r)] }) }

section
variable {s : State} {ctx : Nat} {k : Slice} {r : Report} (hf : sliceInFlight s ctx k.val = some r)
  (hm : (aget s.life.moving (servingSlice s k.val)).isSome = false)
include hf hm

theorem exec_sliceRecordArrival_late (hx : aget s.merge.ctxs ctx = none) : exec (.sliceRecordArrival ctx k) s =
    .next (bump (setLanded s ctx k.val r) .sorrel_LATE_DISCARDS ((quadHub s (k.val / 4)).getD (k.val / 4))) := by
  dsimp only [exec]
  unfold execSliceRecordArrival
  dsimp only
  rw [hf]
  dsimp only
  rw [hm, if_neg Bool.false_ne_true, modMerge_merge, hx]
  rfl

theorem exec_sliceRecordArrival_joins {x : MergeCtx} {c : QuadChain} (ho : OpenChain s ctx (k.val / 4) x c) :
    exec (.sliceRecordArrival ctx k) s = .next (if c.slices.length = 3
      then closeChain (setJoined s ctx k.val r x c) ctx (k.val / 4) else setJoined s ctx k.val r x c) := by
  obtain ⟨hx, hc, ho⟩ := ho
  dsimp only [exec]
  unfold execSliceRecordArrival
  dsimp only
  rw [hf]
  dsimp only
  rw [hm, if_neg Bool.false_ne_true, modMerge_merge, hx]
  dsimp only
  rw [hc]
  dsimp only
  rw [if_neg (Bool.eq_false_iff.mp ho), List.length_append]
  simp only [List.length_singleton, Nat.reduceEqDiff]
  rfl

end

theorem openChain_setJoined {s : State} {ctx k : Nat} {x : MergeCtx} {c : QuadChain} (r : Report)
    (ho : OpenChain s ctx (k / 4) x c) : OpenChain (setJoined s ctx k r x c) ctx (k / 4)
      (setChain x (k / 4) fun _ => { c with slices := c.slices ++ [(k, r)] }) { c with slices := c.slices ++ [(k, r)] } := by
  obtain ⟨-, hc, ho⟩ := ho
  have hq : c.quad = k / 4 := quad_of_find hc
  exact ⟨aget_aset_same .., find_setChain hc fun _ _ => hq, ho⟩

theorem exec_quadrantMergeClose {s : State} {ctx : Nat} {q : Hub} {x : MergeCtx} {c : QuadChain}
    (ho : OpenChain s ctx q.val x c) :
    exec (.quadrantMergeClose ctx q) s = .next (closeChain (passTo s c.hub c.closeAt) ctx q.val) := by
  obtain ⟨hx, hc, ho⟩ := ho
  dsimp only [exec]
  unfold execQuadrantMergeClose
  rw [hx, Option.bind_some, hc]
  exact if_neg (Bool.eq_false_iff.mp ho)

theorem chainSends_passTo (s : State) (h t : Nat) (x : MergeCtx) (ctx : Nat) (c : QuadChain) :
    chainSends (passTo s h t) x ctx c = chainSends s x ctx c := by
  rw [chainSends, hubRoute_passTo, ← chainSends]

/-! ## The ingress merge (05_merge.md R109) -/

/-- A quadrant record is on its way no longer. -/
def quadLanded (s : State) (ctx q b h : Nat) (r : Report) : State :=
  modMerge s fun y => { y with inflight := y.inflight.filter fun f => decide (f ≠ .quad ctx q b h r) }

/-- A quadrant record has joined its context. -/
def quadJoined (s : State) (ctx q b h : Nat) (r : Report) (x : MergeCtx) : State :=
  modMerge (quadLanded s ctx q b h r) fun y => { y with ctxs := aset y.ctxs ctx { x with quads := x.quads ++ [(q, b, r)] } }

theorem quadInFlight_quadLanded (s : State) (ctx q b h : Nat) (r : Report) :
    quadInFlight (quadLanded s ctx q b h r) ctx q ≠ some (b, h, r) := by
  intro hq
  obtain ⟨f, hf, he⟩ := List.exists_of_findSome?_eq_some hq
  have hne : f ≠ .quad ctx q b h r := of_decide_eq_true (List.mem_filter.mp hf).2
  cases f with
  | slice => simp at he
  | quad c j b' h' r' =>
    simp only [Option.ite_none_right_eq_some, Option.some.injEq, Prod.mk.injEq] at he
    obtain ⟨⟨rfl, rfl⟩, rfl, rfl, rfl⟩ := he
    exact hne rfl

theorem exec_quadrantRecordArrival {s : State} {ctx : Nat} {q : Hub} {b h : Nat} {r : Report} {x : MergeCtx}
    (hf : quadInFlight s ctx q.val = some (b, h, r)) (hx : aget s.merge.ctxs ctx = some x) :
    exec (.quadrantRecordArrival ctx q) s = .next (if ∀ e ∈ x.expected, e = q.val ∨ ∃ p ∈ x.quads, p.1 = e
      then closeMerge (quadJoined s ctx q.val b h r x) ctx else quadJoined s ctx q.val b h r x) := by
  dsimp only [exec]
  unfold execQuadrantRecordArrival
  dsimp only
  rw [hf]
  dsimp only
  rw [modMerge_merge, hx]
  dsimp only
  have hall : (x.expected.all fun e => ((x.quads ++ [(q.val, b, r)]).map (·.1)).contains e) = true ↔
      ∀ e ∈ x.expected, e = q.val ∨ ∃ p ∈ x.quads, p.1 = e := by
    simp only [List.all_eq_true, List.contains_iff_mem, List.map_append, List.mem_append, List.mem_map, List.map_cons,
      List.map_nil, List.mem_singleton, or_comm]
  simp only [hall]
  rfl

theorem exec_ingressMergeDeadline {s : State} {ctx : Nat} {x : MergeCtx} (hx : aget s.merge.ctxs ctx = some x) :
    exec (.ingressMergeDeadline ctx) s = .next (closeMerge (passTo s x.hub x.deadline) ctx) := by
  dsimp only [exec]
  unfold execIngressMergeDeadline
  rw [hx]

theorem countPartial_rest (s : State) (id h : Nat) (st : Status) :
    countPartial s id h st = { s with regs := (countPartial s id h st).regs } := by
  unfold countPartial
  split <;> rfl

/-- Without a merge tag the result answers the request; beside that it only counts. -/
theorem deliver_untagged {s : State} {x : MergeCtx} (hu : Untagged s x) (st : Status) (recs : List Rec) (map kv pos : Nat) :
    ∃ u pay, deliver s x st recs map kv pos = answer u x.msg .attend st 0 pay ∧ u = { s with regs := u.regs } := by
  obtain ⟨m, hm, ht⟩ := hu
  have hb : (if st = .revoked then bump s .ledger_EXTENT_REVOKED x.hub else s) =
      { s with regs := (if st = .revoked then bump s .ledger_EXTENT_REVOKED x.hub else s).regs } := by split <;> rfl
  unfold deliver
  dsimp only
  generalize (if st = .revoked then bump s .ledger_EXTENT_REVOKED x.hub else s) = v at hb ⊢
  have hv : msgOf v x.msg = some m := by rw [hb]; exact hm
  rw [hv]
  dsimp only
  rw [if_neg (not_not_intro ht)]
  refine ⟨_, _, rfl, ?_⟩
  rw [countPartial_rest, hb]

theorem inflight_endCtx (s : State) (ctx : Nat) (x : MergeCtx) :
    (descOf (endCtx s ctx x) x.desc).map (·.inflight) = (descOf s x.desc).map fun d => d.inflight - 1 := by
  rw [descOf, endCtx, modDesc, modSeqs_seqs, aget_amod_same, Option.map_map]
  rfl

theorem closeMerge_delivers {s : State} {ctx : Nat} {x : MergeCtx} (hx : aget s.merge.ctxs ctx = some x) :
    ∃ st recs map kv pos, closeMerge s ctx = deliver (endCtx s ctx x) x st recs map kv pos := by
  unfold closeMerge
  rw [hx]
  dsimp only
  split
  · exact ⟨_, _, _, _, _, rfl⟩
  · exact ⟨_, _, _, _, _, rfl⟩

/-- With nothing arrived of what it expects, an ingress merge delivers PARTIAL without records. 05_merge.md R109 -/
theorem closeMerge_nothing {s : State} {ctx : Nat} {x : MergeCtx} (hx : aget s.merge.ctxs ctx = some x) (hq : x.quads = [])
    (he : x.expected ≠ []) : closeMerge s ctx = deliver (endCtx s ctx x) x .partialMerge [] 0 0 0 := by
  obtain ⟨e, l, he⟩ := List.exists_cons_of_ne_nil he
  unfold closeMerge
  rw [hx]
  simp [hq, he, sortBy, combine, worstFail]

/-- An ingress merge without a merge tag that closes is gone, and its request with it. -/
theorem closeMerge_untagged {s : State} {ctx : Nat} {x : MergeCtx} (hx : aget s.merge.ctxs ctx = some x) (hu : Untagged s x) :
    MergeEnded s (closeMerge s ctx) ctx x ∧ (closeMerge s ctx).life = s.life := by
  obtain ⟨st, recs, map, kv, pos, hd⟩ := closeMerge_delivers hx
  obtain ⟨u, pay, ha, hr⟩ := deliver_untagged (s := endCtx s ctx x) hu st recs map kv pos
  rw [hd, ha]
  refine ⟨⟨?_, msgOf_answer_same .., ?_, ?_, ?_⟩, ?_⟩
  · rw [answer_merge, hr]
    exact aget_adel_same ..
  · rw [descOf, answer_seqs, hr]
    exact inflight_endCtx ..
  · rw [answer_mem, hr]
    rfl
  · rw [answer_ledg, hr]
    rfl
  · rw [answer_life, hr]
    rfl

/-- Settles O13: record sets by `exec_sliceRecordArrival_joins` and `exec_sliceRecordArrival_late`, a chain that closes by
`closeChain_open`, quadrant records by `exec_quadrantRecordArrival`, and the end of an ingress merge by
`closeMerge_untagged` and `closeMerge_nothing`. -/
theorem mergeRecordsArrive : Obligations.MergeRecordsArrive := by
  unfold Obligations.MergeRecordsArrive
  refine ⟨fun ctx k r x c s hf hm ho => completes_of_exec (exec_sliceRecordArrival_joins hf hm ho) ?_,
    fun ctx k r s hf hm hx => completes_of_exec (exec_sliceRecordArrival_late hf hm hx) ⟨by simp [setLanded], rget_bump_same ..⟩,
    fun ctx q x c s ho => completes_of_exec (exec_quadrantMergeClose ho) ?_,
    fun ctx q b h r x s hf hx he => completes_of_exec (exec_quadrantRecordArrival hf hx) ?_,
    fun ctx q b h r x s hf hx he hu => completes_of_exec (exec_quadrantRecordArrival hf hx) ?_,
    fun ctx x s hx hu => completes_of_exec (exec_ingressMergeDeadline hx) ?_⟩
  · have ho' := openChain_setJoined r ho
    have ⟨_, hc', hopen⟩ := ho'
    by_cases h3 : c.slices.length = 3
    · rw [if_pos h3, closeChain_open ho']
      refine ⟨⟨_, _, aget_aset_same .., find_setChain hc' fun _ h => h, rfl, by simp [h3]⟩, ?_, rfl⟩
      rw [if_pos h3]
      rfl
    · rw [if_neg h3, if_neg h3]
      exact ⟨⟨_, _, aget_aset_same .., hc', rfl, hopen.trans (decide_eq_false h3).symm⟩, (List.append_nil _).symm, rfl⟩
  · obtain ⟨hx, hc, hopen⟩ := ho
    have ho' : OpenChain (passTo s c.hub c.closeAt) ctx q.val x c := ⟨hx, hc, hopen⟩
    rw [closeChain_open ho', chainSends_passTo]
    exact ⟨rfl, ⟨_, _, aget_aset_same .., find_setChain hc fun _ h => h, rfl, rfl⟩, now_passTo .., rfl⟩
  · obtain ⟨e, hmem, hne, hq⟩ := he
    have hwait : ¬ ∀ e ∈ x.expected, e = q.val ∨ ∃ p ∈ x.quads, p.1 = e :=
      fun h => (h e hmem).elim hne fun ⟨p, hp, hpe⟩ => hq p hp hpe
    rw [if_neg hwait]
    exact ⟨aget_aset_same .., quadInFlight_quadLanded s ctx q.val b h r, rfl⟩
  · rw [if_pos he]
    exact (closeMerge_untagged (s := quadJoined s ctx q.val b h r x) (aget_aset_same ..) hu).1
  · obtain ⟨hend, hlife⟩ := closeMerge_untagged (s := passTo s x.hub x.deadline) hx hu
    refine ⟨hend, ?_, closeMerge_nothing hx⟩
    rw [now, hubSt_congr (congrArg LifeSt.hubs hlife), ← now, now_passTo]
    exact Nat.le_max_right ..

end Sys2Proof.Proofs

namespace Sys2Proof.Proofs
open Sys2Proof.Machine Sys2Proof.Laws

/-!
Groups at a merge point (O14). A contribution that keeps R112 joins its group or a new one; what refuses it is one list of
checks (joinFails), and what it leaves is said once for both (contributionEntered). The end of a contributor's request and
of a group are said for every part of the state that they leave.
-/

/-! ## Contributions (05_merge.md R113, R114) -/

/-- The place a contribution takes among those of its group. -/
def partOf (m : Msg) (p : PartHdr) (st : Status) (recs : List Rec) : Contribution :=
  ⟨m.endpoint, st, p.bitmap, p.failKv, p.failPos, recs⟩

/-- The shape of a contribution's records; none without records. R113 -/
def shapeOf (p : PartHdr) (recs : List Rec) : Option (Bool × Nat × List Nat) :=
  if recs.isEmpty then none else some (p.out32, dOf p.dCode, recs.map (·.head))

/-- A group before its first contribution. -/
def newGroup (s : State) (m : Msg) (p : PartHdr) : Group :=
  ⟨m.hub, tupleOf p, p.contribs, deadlineNs s m.hub p.deadline, m.at_ + deadlineNs s m.hub p.deadline, p.arrival, none, []⟩

/-- A group with one contribution more. -/
def grown (g : Group) (m : Msg) (p : PartHdr) (st : Status) (recs : List Rec) : Group :=
  { g with shape := g.shape <|> shapeOf p recs, parts := g.parts ++ [partOf m p st recs] }

theorem grown_newGroup (s : State) (m : Msg) (p : PartHdr) (st : Status) (recs : List Rec) :
    grown (newGroup s m p) m p st recs = groupOf s m p st recs := rfl

/-- What refuses a contribution to a group. R114 -/
def joinFails (s : State) (m : Msg) (g : Group) (isNew : Bool) (p : PartHdr) (recs : List Rec) : Option Status :=
  let shape := shapeOf p recs
  let shape' := g.shape <|> shape
  firstFail
    [(decide (p.contribs ≠ g.count), Status.bounds), (shape.isSome && decide (shape ≠ shape'), .bounds),
     (g.parts.any fun c => decide (c.endpoint = m.endpoint), .bounds),
     (isNew && ! mergeQuotaOk s p.tenant, .quota),
     (isNew && decide (ctxMax ≤ ctxsUsed s g.hub), .busy),
     (decide (poolMax < poolUsed s g.hub + (groupUnits { g with shape := shape' } - if isNew then 0 else groupUnits g)), .busy)]

/-- A contribution has entered its group. -/
def contributionEntered (s : State) (g g' : Group) (isNew : Bool) (tenant : Nat) : State :=
  let t := modMerge s fun y =>
    { y with groups := (s.merge.groups.filter fun x => ! (decide (x.hub = g.hub) && decide (x.key = g.key))) ++ [g'] }
  if isNew then modMeter t tenant fun x => { x with merges := x.merges + 1 } else t

theorem contributionEntered_part {β : Type} (f : State → β) (hm : ∀ s tenant g, f (modMeter s tenant g) = f s) (s : State)
    (g g' : Group) (isNew : Bool) (tenant : Nat) :
    f (contributionEntered s g g' isNew tenant) = f (contributionEntered s g g' false tenant) := by
  cases isNew with
  | false => rfl
  | true =>
    rw [contributionEntered, if_pos rfl, hm]
    rfl

section
variable {s : State} {m : Msg} {g : Group} {p : PartHdr} {recs : List Rec}

/-- A new group within quota, contexts and pool takes its first contribution. -/
theorem joinFails_first {st : Status} (hquota : mergeQuotaOk s p.tenant = true) (hctx : ctxsUsed s m.hub < ctxMax)
    (hpool : poolUsed s m.hub + groupUnits (groupOf s m p st recs) ≤ poolMax) :
    joinFails s m (newGroup s m p) true p recs = none := by
  have hunits : groupUnits { newGroup s m p with shape := (newGroup s m p).shape <|> shapeOf p recs } =
      groupUnits (groupOf s m p st recs) := rfl
  rw [joinFails, hunits]
  simp [firstFail, newGroup, hquota, Nat.not_le.mpr hctx, Nat.not_lt.mpr hpool]

/-- A group takes another endpoint's contribution without records where its pool space stands. -/
theorem joinFails_another (hcount : p.contribs = g.count) (hep : ∀ c ∈ g.parts, c.endpoint ≠ m.endpoint)
    (hpool : poolUsed s g.hub ≤ poolMax) : joinFails s m g false p [] = none := by
  have hnone : (g.parts.any fun c => decide (c.endpoint = m.endpoint)) = false := by simpa using hep
  rw [joinFails, hnone]
  simp [firstFail, shapeOf, hcount, Nat.not_lt.mpr hpool]

/-- A second contribution of an endpoint is refused with BOUNDS: no check before this one answers another status. -/
theorem joinFails_again (hep : ∃ c ∈ g.parts, c.endpoint = m.endpoint) : joinFails s m g false p recs = some .bounds := by
  have hany : (g.parts.any fun c => decide (c.endpoint = m.endpoint)) = true := by simpa using hep
  rw [joinFails, hany]
  dsimp only [firstFail]
  split
  · rfl
  · split
    · rfl
    · exact if_pos rfl

end

section
variable {s : State} {id : Nat} {m : Msg} {g : Group} {isNew : Bool} {p : PartHdr} {st : Status} {recs : List Rec}

theorem joinGroup_refused {e : Status} (h : joinFails s m g isNew p recs = some e) :
    joinGroup s id m g isNew p st recs = refusePart s id m e := by
  unfold joinGroup
  dsimp only
  rw [← shapeOf, ← joinFails, h]

/-- A contribution that is not the last one its group waits for enters it and is answered OK. -/
theorem joinGroup_enters (h : joinFails s m g isNew p recs = none) (hn : g.parts.length + 1 < g.count) :
    joinGroup s id m g isNew p st recs =
      answerPart (contributionEntered s g (grown g m p st recs) isNew p.tenant) id m .ok := by
  unfold joinGroup
  dsimp only
  rw [← shapeOf, ← joinFails, h]
  dsimp only
  rw [if_neg (by rw [List.length_append]; exact Nat.not_le.mpr hn)]
  rfl

end

theorem answerPart_conn {m : Msg} (ho : ∃ h id q, m.origin = .conn h id q) (s : State) (id : Nat) (st : Status) :
    answerPart s id m st = answer s id .partialRec st 0 (partResp m.be st) := by
  obtain ⟨h, i, q, ho⟩ := ho
  rw [answerPart, ho]

/-- A contribution that a group takes leaves the queue, and its group stands with it; contexts, tombstones, memory and
sequences are left. -/
theorem entered_spec {s t : State} {msg : Nat} {m : Msg} {g g' : Group} {isNew : Bool} {tenant : Nat}
    (ho : ∃ h id q, m.origin = .conn h id q) (ht : t = answerPart (contributionEntered s g g' isNew tenant) msg m .ok) :
    g' ∈ t.merge.groups ∧ msgOf t msg = none ∧ t.merge.tombs = s.merge.tombs ∧ t.merge.ctxs = s.merge.ctxs ∧
      t.mem = s.mem ∧ t.seqs = s.seqs := by
  rw [ht, answerPart_conn ho, answer_merge, answer_mem, answer_seqs, contributionEntered_part (·.merge) modMeter_merge,
    contributionEntered_part (·.mem) modMeter_mem, contributionEntered_part (·.seqs) modMeter_seqs]
  exact ⟨List.mem_append_right _ (List.mem_singleton_self _), msgOf_answer_same .., rfl, rfl, rfl, rfl⟩

theorem conn_of_contributes {s : State} {msg : Nat} {m : Msg} {p : PartHdr} {st : Status} {recs : List Rec}
    (hc : Contributes s msg m p st recs) : ∃ h id q, m.origin = .conn h id q := by
  obtain ⟨-, ho, -⟩ := hc
  exact ho

section
variable {s : State} {msg : Nat} {m : Msg} {p : PartHdr}

theorem exec_partialContribution_tombstone {x : Tombstone} (hs : mayStart s msg .partialRec = some m)
    (ho : ∃ h id q, m.origin = .conn h id q) (hp : p = PartHdr.parse m.be m.payload) (hx : x ∈ s.merge.tombs)
    (hk : x.key = tupleOf p) (he : endpointOf s x.hub = endpointOf s m.hub) (hu : now s x.hub < x.until_) :
    exec (.partialContribution msg) s =
      .next (answer (bump s .sorrel_TOMBSTONE_DISCARDS m.hub) msg .partialRec .ok 0 (partResp m.be .ok)) := by
  subst hp
  dsimp only [exec]
  unfold execPartialContribution
  rw [hs]
  dsimp only
  rw [if_pos (List.any_eq_true.mpr ⟨x, hx, by simp [hk, he, hu, tupleOf]⟩), answerPart_conn ho]

/-- A contribution that keeps R112 and meets no tombstone goes to the group of its tuple, or to a new one. -/
theorem exec_partialContribution_formed {st : Status} {recs : List Rec} (hc : Contributes s msg m p st recs)
    (hn : NoTomb s m.hub (tupleOf p)) : exec (.partialContribution msg) s =
      .next ((groupAt s m.hub (tupleOf p)).elim (joinGroup s msg m (newGroup s m p) true p st recs)
        fun g => joinGroup s msg m g false p st recs) := by
  obtain ⟨hs, ⟨h, i, q, ho⟩, rfl, hv, hst, hdim, hlen, hfail, h1, h64, rfl⟩ := hc
  have htomb : ¬ (s.merge.tombs.any fun t => decide (t.key = tupleOf (PartHdr.parse m.be m.payload)) &&
      decide (endpointOf s t.hub = endpointOf s m.hub) && decide (now s t.hub < t.until_)) = true := by
    simp only [List.any_eq_true, Bool.and_eq_true, decide_eq_true_eq, not_exists, not_and, and_imp, Nat.not_lt]
    exact hn
  have hown : decide (m.origin = .device) = false := by rw [ho]; rfl
  dsimp only [exec]
  unfold execPartialContribution
  rw [hs]
  dsimp only
  rw [← tupleOf, if_neg htomb, if_neg (not_not_intro hv), hst]
  dsimp only
  rw [hown, if_neg]
  · cases groupAt s m.hub (tupleOf (PartHdr.parse m.be m.payload)) <;> rfl
  · rintro (h | h | h | h | h)
    · exact hdim h
    · exact h hlen
    · exact hfail h
    · exact absurd h1 (Nat.not_le.mpr h)
    · exact absurd h64 (Nat.not_le.mpr h)

end

theorem key_of_groupAt {s : State} {h : Nat} {k : GroupKey} {g : Group} (hg : groupAt s h k = some g) : g.key = k := by
  have := List.find?_some hg
  simp only [Bool.and_eq_true, decide_eq_true_eq] at this
  exact this.1

/-! ## What the merge point answers (05_merge.md R114) -/

theorem mem_of_aget {κ α : Type} [DecidableEq κ] {k : κ} {v : α} : ∀ {l : Assoc κ α}, aget l k = some v → (k, v) ∈ l
  | (k', v') :: l, h => by
    by_cases e : k' = k
    · simp only [aget, e, if_true, Option.some.injEq] at h
      simp [e, h]
    · simp only [aget, e, if_false] at h
      exact List.mem_cons_of_mem _ (mem_of_aget h)

theorem settleConn_eq_self {s : State} {id : Nat} (h : ∀ c, connOf s id = some c → c.state ≠ .closing) :
    settleConn s id = s := by
  unfold settleConn
  split
  · rename_i c hc
    exact if_neg fun hs => h c hc hs.1
  · rfl

/-- A message that holds no reassembly space leaves nothing but the queue where no connection is closing. -/
theorem dropMsg_eq {s : State} {id : Nat} {m : Msg} (hm : msgOf s id = some m) (hu : m.units = 0 ∨ m.phase.before = false)
    (hc : ∀ x ∈ s.fab.conns, x.2.state ≠ .closing) : dropMsg s id = setMsgs s (adel s.msgs id) := by
  have hfree : freeUnits (setMsgs s (adel s.msgs id)) m = setMsgs s (adel s.msgs id) :=
    if_pos (hu.imp_right fun h => by rw [h]; rfl)
  have hm' : aget s.msgs id = some m := hm
  unfold dropMsg
  rw [hm']
  dsimp only
  rw [hfree]
  split
  · exact settleConn_eq_self fun c h => hc _ (mem_of_aget h)
  · rfl

/-- A direct answer leaves the contributor's request and what the requester's connection or port does not touch. -/
theorem directAnswer_spec (s : State) (id : Nat) : (directAnswer s id).msgs = adel s.msgs id ∧
    (directAnswer s id).mem = s.mem ∧ (directAnswer s id).merge = s.merge := by
  unfold directAnswer
  split
  · rename_i h
    exact ⟨(adel_eq_self h).symm, rfl, rfl⟩
  · dsimp only
    rw [answer_msgs, answer_mem, answer_merge, countPartial_rest]
    exact ⟨rfl, rfl, rfl⟩

section
variable {s : State} {id : Nat} {w : Msg} (hw : msgOf s id = some w) (hp : w.phase = .waitContrib)
  (ho : ∃ h id q, w.origin = .conn h id q)
include hw hp

theorem contribAnswered_refused : contribAnswered s id false = directAnswer s id := by
  unfold contribAnswered
  rw [hw]
  dsimp only
  rw [if_neg (not_not_intro hp)]
  rfl

include ho

theorem contribAnswered_ok : contribAnswered s id true = dropMsg s id := by
  obtain ⟨h, i, q, ho⟩ := ho
  unfold contribAnswered
  rw [hw]
  dsimp only
  rw [if_neg (not_not_intro hp), ho]
  rfl

/-- However the merge point answers, the contributor's request is over. -/
theorem contribAnswered_spec (ok : Bool) : (contribAnswered s id ok).msgs = adel s.msgs id ∧
    (contribAnswered s id ok).mem = s.mem ∧ (contribAnswered s id ok).merge = s.merge := by
  cases ok with
  | false =>
    rw [contribAnswered_refused hw hp]
    exact directAnswer_spec s id
  | true =>
    rw [contribAnswered_ok hw hp ho]
    exact ⟨dropMsg_msgs .., dropMsg_mem .., dropMsg_merge ..⟩

end

/-- The node's request that a response names is taken from its connection. -/
def askTaken (s : State) (id : Nat) (a : Ask) : State := modConn s id fun c => { c with asked := c.asked.erase a }

theorem askTaken_conns {s : State} (id : Nat) (a : Ask) (h : ∀ x ∈ s.fab.conns, x.2.state ≠ .closing) :
    ∀ x ∈ (askTaken s id a).fab.conns, x.2.state ≠ .closing := by
  intro x hx
  obtain ⟨y, hy, rfl⟩ := List.mem_map.mp hx
  dsimp only
  split
  · exact h y hy
  · exact h y hy

theorem msgOf_of_respMsg {s : State} {id : Nat} {op : Opcode} {m : Msg} (h : respMsg s id op = some m) : msgOf s id = some m :=
  (Option.filter_eq_some_iff.mp h).1

theorem exec_partialResponse {s : State} {msg id h q : Nat} {m : Msg} {c : Conn} {a : Ask}
    (hm : respMsg s msg .partialRec = some m) (ho : m.origin = .conn h id q) (hc : connOf s id = some c)
    (ha : c.asked.find? (fun a => decide (a.seq = some m.replyTo)) = some a) : exec (.partialResponse msg) s =
      .next (contribAnswered (dropMsg (askTaken s id a) msg) a.about (decide (fld m.be m.payload 1 1 = Status.ok.code))) := by
  have htake : takeAsk s m = (askTaken s id a, some a) := by
    rw [takeAsk, ho]
    dsimp only
    rw [hc, Option.bind_some, ha]
    rfl
  dsimp only [exec]
  unfold execPartialResponse
  rw [hm]
  dsimp only
  rw [htake]

/-! ## Groups and tombstones end (05_merge.md R115) -/

/-- A group is gone, and its tombstone stands. -/
def groupClosed (s : State) (g : Group) : State :=
  modMerge s fun y => { y with groups := y.groups.filter fun x => ! (decide (x.hub = g.hub) && decide (x.key = g.key)),
                               tombs := y.tombs ++ [⟨g.hub, g.key, g.deadline + g.durNs⟩] }

theorem closeGroup_unreached {s : State} {g : Group} (h : requesterConn s g.hub g.key = none) :
    closeGroup s g = bump (groupClosed s g) .sorrel_UNDELIVERED g.hub := by
  have h' : requesterConn (groupClosed s g) g.hub g.key = none := h
  unfold closeGroup
  dsimp only
  rw [← groupClosed, h']

/-- The delivery of a group's result leaves a part that neither counters and meters nor a message sent touches. -/
theorem closeGroup_part {β : Type} (f : State → β) (hb : ∀ s r i, f (bump s r i) = f s)
    (hm : ∀ s tenant g, f (modMeter s tenant g) = f s)
    (hs : ∀ s id op fl rt cls hint pay, f (sendMsg s id op fl rt cls hint pay).1 = f s) (s : State) (g : Group) :
    f (closeGroup s g) = f (groupClosed s g) := by
  unfold closeGroup
  dsimp only
  rw [← groupClosed]
  split
  · exact hb ..
  · rw [hs, hm]
    split
    · exact hb ..
    · rfl

theorem closeGroup_merge (s : State) (g : Group) : (closeGroup s g).merge = (groupClosed s g).merge :=
  closeGroup_part (·.merge) bump_merge modMeter_merge sendMsg_merge s g
theorem closeGroup_mem (s : State) (g : Group) : (closeGroup s g).mem = s.mem :=
  closeGroup_part (·.mem) bump_mem modMeter_mem sendMsg_mem s g
theorem closeGroup_seqs (s : State) (g : Group) : (closeGroup s g).seqs = s.seqs :=
  closeGroup_part (·.seqs) bump_seqs modMeter_seqs sendMsg_seqs s g
theorem closeGroup_life (s : State) (g : Group) : (closeGroup s g).life = s.life :=
  closeGroup_part (·.life) bump_life modMeter_life sendMsg_life s g

theorem closeGroup_gone (s : State) (g : Group) : ∀ x ∈ (closeGroup s g).merge.groups, ¬ (x.hub = g.hub ∧ x.key = g.key) := by
  rw [closeGroup_merge]
  rintro x hx ⟨hh, hk⟩
  have hkept := (List.mem_filter.mp hx).2
  simp [hh, hk] at hkept

theorem exec_groupDeadline {s : State} {h : Hub} {k : GroupKey} {g : Group}
    (hg : (s.merge.groups.find? fun x => decide (x.hub = h.val) && decide (x.key = k)) = some g) :
    exec (.groupDeadline h k) s = .next (closeGroup (passTo s h.val g.deadline) g) := by
  dsimp only [exec]
  unfold execGroupDeadline
  rw [hg]

theorem exec_tombstoneExpiry {s : State} {h : Hub} {k : GroupKey} {x : Tombstone}
    (hx : (s.merge.tombs.find? fun t => decide (t.hub = h.val) && decide (t.key = k)) = some x) :
    exec (.tombstoneExpiry h k) s =
      .next (modMerge (passTo s h.val x.until_) fun y => { y with tombs := y.tombs.erase x }) := by
  dsimp only [exec]
  unfold execTombstoneExpiry
  rw [hx]

/-- Settles O14: contributions by `exec_partialContribution_formed` and what refuses or enters them (`joinGroup_refused`,
`joinGroup_enters` with the three `joinFails` lemmas), answers by `exec_partialResponse` and `contribAnswered_spec`, the
ends of groups and tombstones by `closeGroup_gone`, `closeGroup_unreached` and `exec_tombstoneExpiry`. -/
theorem mergePoints : Obligations.MergePoints := by
  unfold Obligations.MergePoints
  refine ⟨fun msg m p st recs s hc hn hg hcount hquota hctx hpool => ?_,
    fun msg m p st recs g s hc hn hg hcount hr hep hlen hpool => ?_,
    fun msg m p st recs g s hc hn hg hep => ?_,
    fun msg m p x s hs ho hp hx hk he hu =>
      completes_of_exec (exec_partialContribution_tombstone hs ho hp hx hk he hu) ⟨rfl, ?_⟩,
    fun msg id h q m w c a s hm ho hc hopen ha hne hw hph how => ?_,
    fun h g s hg => completes_of_exec (exec_groupDeadline hg) ?_,
    fun h x s hx => completes_of_exec (exec_tombstoneExpiry hx) ⟨rfl, ?_, rfl⟩⟩
  · have he := exec_partialContribution_formed hc hn
    rw [hg, Option.elim_none, joinGroup_enters (joinFails_first hquota hctx hpool) hcount, grown_newGroup] at he
    exact completes_of_exec he (entered_spec (conn_of_contributes hc) rfl)
  · subst hr
    have he := exec_partialContribution_formed hc hn
    rw [hg, Option.elim_some, joinGroup_enters (joinFails_another hcount hep hpool) hlen] at he
    have hkey : (grown g m p st []).key = tupleOf p := key_of_groupAt (g := g) hg
    refine completes_of_exec he ?_
    obtain ⟨hin, hmsg, htombs, -, hmem, -⟩ := entered_spec (conn_of_contributes hc) rfl
    exact ⟨⟨_, hin, hkey, rfl⟩, hmsg, htombs, hmem⟩
  · have he := exec_partialContribution_formed hc hn
    rw [hg, Option.elim_some, joinGroup_refused (joinFails_again hep), refusePart, answerPart_conn (conn_of_contributes hc)] at he
    exact completes_of_exec he ⟨rfl, by rw [answer_merge, bump_merge]⟩
  · rw [answer_merge, bump_merge]
  · have hw' : msgOf (dropMsg (askTaken s id a) msg) a.about = some w := by
      rw [msgOf, dropMsg_msgs, aget_adel_other hne]
      exact hw
    obtain ⟨hmsgs, hmem, hmerge⟩ := contribAnswered_spec hw' hph how (decide (fld m.be m.payload 1 1 = Status.ok.code))
    refine completes_of_exec (exec_partialResponse hm ho hc ha) ⟨?_, ?_, ?_, ?_, fun hst hu hcl => ?_⟩
    · rw [msgOf, hmsgs, aget_adel_other (Ne.symm hne), dropMsg_msgs, aget_adel_same]
    · rw [msgOf, hmsgs, aget_adel_same]
    · rw [hmem, dropMsg_mem]
      rfl
    · rw [hmerge, dropMsg_merge]
      rfl
    · have hcl' := askTaken_conns id a hcl
      have hdrop : dropMsg (askTaken s id a) msg = setMsgs (askTaken s id a) (adel s.msgs msg) :=
        dropMsg_eq (msgOf_of_respMsg hm) (.inl hu) hcl'
      have hbefore : w.phase.before = false := by rw [hph]; rfl
      rw [decide_eq_true hst, contribAnswered_ok hw' hph how, dropMsg_eq hw' (.inr hbefore) (by rw [hdrop]; exact hcl'), hdrop]
      rfl
  · have hgh : g.hub = h.val := by
      have hfound := List.find?_some hg
      simp only [Bool.and_eq_true, decide_eq_true_eq] at hfound
      exact hfound.1
    rw [← hgh]
    refine ⟨closeGroup_gone (passTo s g.hub g.deadline) g, ?_, ?_, fun hnone => ?_, closeGroup_mem .., closeGroup_seqs .., ?_⟩
    · rw [closeGroup_merge]
      rfl
    · rw [now, hubSt_congr (congrArg LifeSt.hubs (closeGroup_life ..)), ← now, now_passTo]
      exact Nat.le_max_right ..
    · rw [closeGroup_unreached (s := passTo s g.hub g.deadline) hnone]
      exact ⟨bump_traf .., rget_bump_same ..⟩
    · rw [closeGroup_merge]
      rfl
  · exact Nat.le_trans (Nat.le_max_right ..) (Nat.le_of_eq (now_passTo s h.val x.until_).symm)

end Sys2Proof.Proofs

namespace Sys2Proof.Proofs
open Sys2Proof.Machine Sys2Proof.Laws

/-!
How rows join a sequence and tails freeze (O1). Storing rows and freezing tails stay apart from the ledger, the merges and
the descriptors, and so the end of a request still finds its sequence as it was looked up; what it leaves of the tail
directory is said once for a change of several entries (modTdirs). A SEAL freezes tails of different pairs, so each freezing
leaves the others as they were, and each adds one page to the seal queue.
-/

/-! ## A read through the word code leaves the messages -/

theorem allocSram_msgs {s t : State} {die tenant n a : Nat} {kind : SramKind}
    (h : allocSram s die tenant n kind = some (t, a)) : t.msgs = s.msgs := by
  obtain ⟨u, -, e⟩ := Option.map_eq_some_iff.mp h
  cases e
  simp

@[simp] theorem freeSram_msgs (s : State) (a : Nat) : (freeSram s a).msgs = s.msgs := by rw [freeSram_rest]

@[simp] theorem moveWords_msgs : ∀ (n : Nat) (s : State) (src dst : Nat), (moveWords n s src dst).msgs = s.msgs
  | 0, _, _, _ => rfl
  | n + 1, s, src, dst => by
    have hr := readWord_msgs s src readDemand
    unfold moveWords
    split
    all_goals
      next e => rw [e] at hr; simp [moveWords_msgs n, setChk, ← hr]

@[simp] theorem moveRaw_msgs (s : State) (src dst n : Nat) : (moveRaw s src dst n).msgs = s.msgs := by
  unfold moveRaw
  dsimp only
  split <;> simp

@[simp] theorem moveHold_msgs (s : State) (h : SramHold) : (moveHold s h).msgs = s.msgs := by
  unfold moveHold
  split
  · rfl
  · next e => simp [allocSram_msgs e]

@[simp] theorem moveArea_msgs (s : State) (die b : Nat) : (moveArea s die b).msgs = s.msgs := by
  unfold moveArea
  split
  · split
    · rfl
    · next e => simp [allocSram_msgs e]
  · rfl

@[simp] theorem retireBank_msgs (s : State) (die b : Nat) : (retireBank s die b).msgs = s.msgs := by
  unfold retireBank
  dsimp only
  split <;> simp [foldl_part (·.msgs) moveHold_msgs]

@[simp] theorem repairColumn_msgs (s : State) (die b col : Nat) : (repairColumn s die b col).msgs = s.msgs := by
  unfold repairColumn
  dsimp only
  split
  · simp
  · simp [apply_ite]

@[simp] theorem mend_msgs (s : State) (a : Nat) (fix : Option (Nat × Nat)) : (mend s a fix).msgs = s.msgs := by
  unfold mend repairWord
  split
  · rfl
  · dsimp only
    (repeat' split) <;> simp

@[simp] theorem loadWords_msgs : ∀ (n : Nat) (s : State) (a reader : Nat), (loadWords n s a reader).1.msgs = s.msgs
  | 0, _, _, _ => rfl
  | n + 1, s, a, reader => by
    have hr := readWord_msgs s a reader
    unfold loadWords
    split
    all_goals
      next e => rw [e] at hr; simp [loadWords_msgs n, ← hr]

@[simp] theorem load_msgs (s : State) (a n reader : Nat) : (load s a n reader).1.msgs = s.msgs := by
  unfold load
  dsimp only
  split
  · have hw := loadWords_msgs (ceilDiv (a + n - a / 16 * 16) 16) (touchBanks s a n) (a / 16 * 16) reader
    split
    all_goals
      next e => rw [e] at hw; simpa using hw
  · simp

/-! ## Looks at tails -/

/-- A part that a read leaves is one that a look at tails leaves. -/
theorem lookTails_part {β : Type} (g : State → β) (hl : ∀ s a n r, g (load s a n r).1 = g s) :
    ∀ (l : List TailKey) (s : State), g (lookTails l s).1 = g s
  | [], _ => rfl
  | key :: l, s => by
    unfold lookTails
    extract_lets o
    clear_value o
    cases o with
    | none => exact lookTails_part g hl l s
    | some a =>
      have hr := hl s a 64 readUnit
      dsimp only
      split
      · next e =>
        rw [e] at hr
        exact hr
      · next e =>
        rw [e] at hr
        exact (lookTails_part g hl l _).trans hr

theorem lookTails_apart (l : List TailKey) (s : State) : Apart s (lookTails l s).1 :=
  ⟨lookTails_part (·.ledg) (fun s a n r => (load_apart s a n r).ledg) l s,
    lookTails_part (·.merge) (fun s a n r => (load_apart s a n r).merge) l s,
    lookTails_part (·.seqs.descs) (fun s a n r => (load_apart s a n r).descs) l s⟩

theorem checkOpen_apart (d : Desc) : ∀ (l : List TailKey) (s : State), Apart s (checkOpen d l s).1
  | [], s => .refl s
  | key :: l, s => by
    have h : Apart s (if (aget s.seqs.tails key).isSome then lookTails [key] s else checkTails d [key] s).1 := by
      split
      · exact lookTails_apart ..
      · exact checkTails_apart ..
    unfold checkOpen
    split
    · next e => exact (h.of_eq e).trans (checkOpen_apart d l _)
    · exact h

/-! ## Rows stored into tails (06_append.md R127, R128, R132) -/

theorem residentTail_apart {s t : State} {d : Desc} {q : TailKey} {pos : Nat} (h : residentTail s d q pos = .ok t) :
    Apart s t := by
  unfold residentTail at h
  split at h
  · cases h
    exact .refl s
  split at h
  · exact (reloadTail_scans h).toApart
  · exact openTail_apart h

theorem freezeTail_apart (s : State) (d : Desc) (q : TailKey) (content : Option Nat) (waiter : Nat) :
    Apart s (freezeTail s d q content waiter) := by
  unfold freezeTail
  dsimp only
  split
  · exact .refl s
  · exact .trans .of_modSeqs .of_modSeqs

theorem queuePage_apart (s : State) (d : Desc) (q : TailKey) (pos : Nat) (rows : List (List Byte × List Byte))
    (content : Option Nat) (waiter : Nat) : Apart s (queuePage s d q pos rows content waiter) := by
  unfold queuePage
  dsimp only
  exact .trans .of_modSeqs .of_modSeqs

theorem dropTail_apart (s : State) (q : TailKey) : Apart s (dropTail s q) := by
  unfold dropTail
  extract_lets s1 s2
  have h1 : Apart s s1 := by
    unfold s1
    split
    · exact freeSram_apart ..
    · exact .refl s
  have h2 : Apart s1 s2 := by
    unfold s2
    split
    · exact ((freeSlot_apart ..).trans (freeSlot_apart ..)).trans (freeSlot_apart ..)
    · exact .refl s1
  exact (h1.trans h2).trans .of_modSeqs

/-- The part of a head's rows that goes into its open tail. -/
theorem storedPart_apart {s u v : State} {d : Desc} {q : TailKey} {pos : Nat} {rows : List (List Byte × List Byte)}
    (hu : residentTail s d q pos = .ok u) (hv : storeRows u d q rows = .ok v) : Apart s v :=
  (residentTail_apart hu).trans (storeRows_apart hv)

section
variable {i : Nat} {d : Desc} {layer kv waiter : Nat}

theorem storeHead_apart : ∀ {fuel : Nat} {s : State} {pos : Nat} {rows : List (List Byte × List Byte)} {keys : List Nat}
    {n : Nat} {r : State × Nat × List Nat}, storeHead i d layer kv waiter fuel s pos rows keys n = .ok r → Apart s r.1
  | 0, s, _, _, _, _, _, h => by cases h; exact .refl s
  | fuel + 1, s, pos, rows, keys, n, r, h => by
    unfold storeHead at h
    split at h
    · cases h
      exact .refl s
    · obtain ⟨u, hu, h⟩ := bind_eq_ok h
      obtain ⟨v, hv, h⟩ := bind_eq_ok h
      have hsv := storedPart_apart hu hv
      split at h
      · exact (hsv.trans (freezeTail_apart ..)).trans (storeHead_apart h)
      · cases h
        exact hsv

theorem bulkHead_apart : ∀ {fuel : Nat} {s : State} {pos : Nat} {rows : List (List Byte × List Byte)} {keys : List Nat}
    {n f : Nat} {r : State × Nat × Nat × List Nat}, bulkHead i d layer kv waiter fuel s pos rows keys n f = .ok r →
      Apart s r.1
  | 0, s, _, _, _, _, _, _, h => by cases h; exact .refl s
  | fuel + 1, s, pos, rows, keys, n, f, r, h => by
    unfold bulkHead at h
    split at h
    · cases h
      exact .refl s
    dsimp only at h
    split at h
    · exact ((dropTail_apart ..).trans (queuePage_apart ..)).trans (bulkHead_apart h)
    · obtain ⟨u, hu, h⟩ := bind_eq_ok h
      obtain ⟨v, hv, h⟩ := bind_eq_ok h
      have hsv := storedPart_apart hu hv
      split at h
      · exact (hsv.trans (freezeTail_apart ..)).trans (bulkHead_apart h)
      · cases h
        exact hsv

end

theorem applyRows_apart {s t : State} {i : Nat} {d : Desc} {m : Msg} {a : App} {bulk : Bool} {waiter n : Nat}
    {keys : List Nat} {b : List Byte} (h : applyRows s i d m a bulk waiter keys b = .ok (t, n)) : Apart s t := by
  obtain ⟨⟨u, k, keys'⟩, hu, h⟩ := bind_eq_ok h
  dsimp only at h
  split at h
  · cases h
    refine Apart.foldl_ok (γ := State × Nat × List Nat) (·.1) (fun {y z} x e => ?_) _ hu
    obtain ⟨⟨w, k', keys''⟩, hw, rfl⟩ := map_eq_ok e
    split at hw
    · obtain ⟨r, hr, e⟩ := map_eq_ok hw
      cases e
      exact (modMeter_scans ..).toApart.trans (bulkHead_apart hr)
    · have hstored := storeHead_apart hw
      exact (modMeter_scans ..).toApart.trans hstored
  · cases h

/-! ## Entries of the tail directory (06_append.md R125, R126) -/

/-- Entries of a sequence's tail directory, changed one after another. -/
def modTdirs (s : State) (i : Nat) (d : Desc) (l : List (Nat × Nat)) (f : TailDir → TailDir) : State :=
  l.foldl (fun s p => modTdir s i (d.pair p.1 p.2) f) s

theorem claimAll_eq (s : State) (i : Nat) (d : Desc) (l : List (Nat × Nat)) (on : Bool) :
    claimAll s i d l on = modTdirs s i d l fun t => { t with claim := on } := rfl

theorem endRows_eq {s : State} {i : Nat} {d : Desc} (hd : descOf s i = some d) (l : List (Nat × Nat)) (n : Nat) :
    endRows s i l n = raiseLength (claimAll (modTdirs s i d l fun t => { t with heldEnd := n }) i d l false) i n := by
  unfold endRows
  rw [hd]
  rfl

theorem tdirOf_modTdir_same (s : State) (i q : Nat) (f : TailDir → TailDir) :
    tdirOf (modTdir s i q f) i q = f (tdirOf s i q) := agetD_aset_same ..

theorem tdirOf_modTdir_other (s : State) {i j q q' : Nat} (h : (j, q') ≠ (i, q)) (f : TailDir → TailDir) :
    tdirOf (modTdir s i q f) j q' = tdirOf s j q' := agetD_aset_other _ h ..

theorem modTdirs_apart (s : State) (i : Nat) (d : Desc) (l : List (Nat × Nat)) (f : TailDir → TailDir) :
    Apart s (modTdirs s i d l f) := .foldl (fun _ _ => .of_modSeqs) l s

section
variable {β : Type} (g : TailDir → β) {f : TailDir → TailDir} (i : Nat) (d : Desc)

/-- A field that the change of an entry leaves. -/
theorem modTdirs_leaves (hf : ∀ t, g (f t) = g t) (l : List (Nat × Nat)) (s : State) (q : Nat) :
    g (tdirOf (modTdirs s i d l f) i q) = g (tdirOf s i q) := by
  refine foldl_part (fun s => g (tdirOf s i q)) (fun s p => ?_) l s
  by_cases e : q = d.pair p.1 p.2
  · rw [e, tdirOf_modTdir_same, hf]
  · rw [tdirOf_modTdir_other s fun h => e (Prod.mk.inj h).2]

/-- A field that the change of an entry sets to one value has that value in every entry changed. -/
theorem modTdirs_sets {x : β} (hf : ∀ t, g (f t) = x) (l : List (Nat × Nat)) (s : State) {p : Nat × Nat} (hp : p ∈ l) :
    g (tdirOf (modTdirs s i d l f) i (d.pair p.1 p.2)) = x := by
  obtain ⟨before, after, rfl⟩ := List.append_of_mem hp
  rw [modTdirs, List.foldl_append, List.foldl_cons]
  refine List.foldlRecOn after _ (motive := fun s => g (tdirOf s i (d.pair p.1 p.2)) = x) ?_ fun s hs r _ => ?_
  · rw [tdirOf_modTdir_same, hf]
  · by_cases e : d.pair p.1 p.2 = d.pair r.1 r.2
    · rw [e, tdirOf_modTdir_same, hf]
    · rw [tdirOf_modTdir_other s fun h => e (Prod.mk.inj h).2, hs]

end

/-! ## The pairs a request names -/

theorem mem_named {a : App} {n : Nat} {p : Nat × Nat} : p ∈ a.named n ↔
    ∃ l < n, ∃ h < a.kvCount, (a.layer + l, a.kvFirst + h) = p := by
  simp [App.named]

theorem mem_named_one {a : App} {h : Nat} (hh : h < a.kvCount) : (a.layer, a.kvFirst + h) ∈ a.named 1 :=
  mem_named.mpr ⟨0, Nat.one_pos, h, hh, rfl⟩

theorem named_nodup (a : App) (n : Nat) : (a.named n).Nodup := by
  refine List.pairwise_flatMap.mpr ⟨fun l _ => ?_, List.nodup_range.imp fun {l l'} hne p hp q hq e => ?_⟩
  · refine List.pairwise_map.mpr (List.nodup_range.imp fun {h h'} hne e => hne ?_)
    exact Nat.add_left_cancel (Prod.mk.inj e).2
  · obtain ⟨h, -, rfl⟩ := List.mem_map.mp hp
    obtain ⟨h', -, rfl⟩ := List.mem_map.mp hq
    exact hne (Nat.add_left_cancel (Prod.mk.inj e).1)

/-- Different pairs of a sequence have different entries. -/
theorem pair_inj {d : Desc} {p q : Nat × Nat} (hp : p.2 < d.kvHeads) (hq : q.2 < d.kvHeads)
    (e : d.pair p.1 p.2 = d.pair q.1 q.2) : p = q := by
  have h2 : p.2 = q.2 := by
    have := congrArg (· % d.kvHeads) e
    simpa [Desc.pair, Nat.mul_add_mod_of_lt, hp, hq, Nat.add_mod, Nat.mod_eq_of_lt] using this
  have h1 : p.1 * d.kvHeads = q.1 * d.kvHeads := by
    unfold Desc.pair at e
    omega
  exact Prod.ext (Nat.eq_of_mul_eq_mul_right (by omega) h1) h2

/-- Named pairs within the heads of a sequence have an entry each. -/
theorem named_pairs_nodup {a : App} {d : Desc} (h : a.kvFirst + a.kvCount ≤ d.kvHeads) (n : Nat) :
    ((a.named n).map fun p => d.pair p.1 p.2).Nodup := by
  have hk {p : Nat × Nat} (hp : p ∈ a.named n) : p.2 < d.kvHeads := by
    obtain ⟨l, -, k, hk, rfl⟩ := mem_named.mp hp
    exact Nat.lt_of_lt_of_le (Nat.add_lt_add_left hk _) h
  exact List.pairwise_map.mpr ((named_nodup a n).imp_of_mem fun hp hq hne e => hne (pair_inj (hk hp) (hk hq) e))

/-! ## Requests of rows (06_append.md R123 to R126) -/

/-- The sequence that a request names stands in the state its search leaves. -/
theorem descOf_of_findActive {s u : State} {m : Msg} {a : App} {i : Nat} {d : Desc}
    (h : findActive s m a = (u, .ok (i, d))) : descOf u i = some d := by
  unfold findActive at h
  split at h
  · cases h
  split at h
  · cases h
  · cases h
  split at h
  · cases h
  next hd =>
  split at h
  · cases h
  · cases h
    exact hd

theorem findActive_index (s : State) (m : Msg) (a : App) : IndexOnly m.hub s (findActive s m a).1 := by
  have hf {u : State} {r : Found} (e : findSeq s m.hub m.tenant a.handle = (u, r)) : IndexOnly m.hub s u := by
    have := findSeq_index s m.hub m.tenant a.handle
    rwa [e] at this
  unfold findActive
  split
  · exact .refl s
  split
  · next e => exact hf e
  · next e => exact hf e
  next e =>
  split
  · exact hf e
  split <;> exact hf e

/-- The search for a sequence leaves all but the index and its counters. -/
theorem findActive_rest {s u : State} {m : Msg} {a : App} {r : Except Status (Nat × Desc)} (h : findActive s m a = (u, r)) :
    u = { s with chive := u.chive, regs := u.regs } := by
  have := (findActive_index s m a).rest
  rwa [h] at this

/-- A request of rows of another form is BOUNDS. -/
theorem rowsRequest_otherForm {u : State} {id i : Nat} {m : Msg} {a : App} {d : Desc} {bulk : Bool} (h : a.form ≠ 0) :
    rowsRequest u id m a i d bulk = (u, .error .bounds) := by
  unfold rowsRequest
  dsimp only
  rw [if_pos (by simp [h])]

/-- What a request of rows can do: it is refused as it stands, or after its look at the tails; or its rows are stored, and
it ends or keeps its claims. -/
theorem rowsRequest_cases {u v : State} {id i : Nat} {m : Msg} {a : App} {d : Desc} {bulk : Bool} {r : Except Status Nat}
    (h : rowsRequest u id m a i d bulk = (v, r)) :
    (v.mem = u.mem ∧ v.seqs = u.seqs ∧ ∃ st, r = .error st) ∨
    (v = (checkOpen d ((a.named 1).map fun p => openKey u i d p.1 p.2) u).1 ∧ ∃ st, r = .error st) ∨
    ∃ w n, Apart u w ∧ r = .ok n ∧
      v = if bulk ∧ n ≠ 0 then claimAll w i d (a.named 1) true else endRows w i (a.named 1) (a.pos + a.tokens) := by
  unfold rowsRequest at h
  extract_lets named rowLen keyLen limit ends bounds looked s1 pages keys at h
  have hs1 : s1 = (checkOpen d (named.map fun p => openKey u i d p.1 p.2) u).1 := rfl
  clear_value s1
  split at h
  · cases h
    exact .inl ⟨rfl, rfl, _, rfl⟩
  split at h
  · cases h
    exact .inl ⟨rfl, rfl, _, rfl⟩
  split at h
  · cases h
    exact .inl ⟨rfl, rfl, _, rfl⟩
  · cases h
    exact .inl ⟨bump_mem .., bump_seqs .., _, rfl⟩
  split at h
  · cases h
    exact .inr (.inl ⟨hs1, _, rfl⟩)
  split at h
  · cases h
    exact .inr (.inl ⟨hs1, _, rfl⟩)
  split at h
  · cases h
    exact .inr (.inl ⟨hs1, _, rfl⟩)
  next w n hw =>
  split at h
  · cases h
    exact .inr (.inl ⟨hs1, _, rfl⟩)
  · cases h
    have hu : Apart u s1 := hs1 ▸ checkOpen_apart ..
    exact .inr (.inr ⟨w, n, hu.trans (applyRows_apart hw), rfl, rfl⟩)

/-- A request of rows that is refused leaves what its look at the tails leaves. -/
theorem rowsRequest_error {u v : State} {id i : Nat} {m : Msg} {a : App} {d : Desc} {bulk : Bool} {st : Status}
    (h : rowsRequest u id m a i d bulk = (v, .error st)) (hc : LooksClean u i d a) : v.mem = u.mem ∧ v.seqs = u.seqs := by
  rcases rowsRequest_cases h with ⟨hm, hs, -⟩ | ⟨rfl, -⟩ | ⟨w, n, -, hr, -⟩
  · exact ⟨hm, hs⟩
  · exact hc.2
  · cases hr

/-- The end of a request of rows: each head it names holds up to its end, and the sequence is at least that long. -/
theorem endRows_holds {w x y t : State} {i : Nat} {d : Desc} {a : App} (hd : descOf w i = some d)
    (hx : x = modTdirs w i d (a.named 1) fun t => { t with heldEnd := a.pos + a.tokens })
    (hy : y = modTdirs x i d (a.named 1) fun t => { t with claim := false })
    (ht : t = raiseLength y i (a.pos + a.tokens)) : RowsHeld t i d a ∧ t.ledg = w.ledg ∧ t.merge = w.merge := by
  have hwx : Apart w x := hx ▸ modTdirs_apart ..
  have hwy : Apart w y := hwx.trans (hy ▸ modTdirs_apart ..)
  have hdy : descOf y i = some d := (congrArg (aget · i) hwy.descs).trans hd
  subst ht
  refine ⟨⟨fun h hh => ?_, ?_⟩, hwy.ledg, hwy.merge⟩
  · have hset : (tdirOf x i (d.pair a.layer (a.kvFirst + h))).heldEnd = a.pos + a.tokens := by
      rw [hx]
      exact modTdirs_sets (·.heldEnd) i d (fun _ => by rfl) (a.named 1) w (mem_named_one hh)
    have hleft : (tdirOf y i (d.pair a.layer (a.kvFirst + h))).heldEnd =
        (tdirOf x i (d.pair a.layer (a.kvFirst + h))).heldEnd := by
      rw [hy]
      exact modTdirs_leaves (·.heldEnd) i d (fun _ => by rfl) (a.named 1) x _
    exact hleft.trans hset
  · rw [raiseLength, descOf_modDesc_same hdy]
    rfl

/-- What a request of rows that passes its checks leaves: its heads hold their rows, or their claims while seals wait. -/
theorem rowsRequest_stores {u v : State} {id i n : Nat} {m : Msg} {a : App} {d : Desc} {bulk : Bool}
    (hd : descOf u i = some d) (h : rowsRequest u id m a i d bulk = (v, .ok n)) :
    v.ledg = u.ledg ∧ v.merge = u.merge ∧ (bulk = false ∨ n = 0 → RowsHeld v i d a) ∧
      (bulk = true → n ≠ 0 → ∀ p ∈ a.named 1, (tdirOf v i (d.pair p.1 p.2)).claim = true) := by
  obtain ⟨-, -, st, hr⟩ | ⟨-, st, hr⟩ | ⟨w, k, hw, hr, rfl⟩ := rowsRequest_cases h
  · cases hr
  · cases hr
  obtain rfl := Except.ok.inj hr
  split
  · next hc =>
    have hv := hw.trans (modTdirs_apart w i d (a.named 1) fun t => { t with claim := true })
    refine ⟨hv.ledg, hv.merge, fun hn => ?_,
      fun _ _ p hp => modTdirs_sets (·.claim) i d (fun _ => by rfl) (a.named 1) w hp⟩
    rcases hn with hn | hn
    · exact absurd (hn.symm.trans hc.1) Bool.false_ne_true
    · exact absurd hn hc.2
  · next hc =>
    have hdw : descOf w i = some d := (congrArg (aget · i) hw.descs).trans hd
    obtain ⟨hheld, hl, hm⟩ := endRows_holds hdw rfl rfl (endRows_eq hdw (a.named 1) (a.pos + a.tokens))
    exact ⟨hl.trans hw.ledg, hm.trans hw.merge, fun _ => hheld, fun hb hn => absurd ⟨hb, hn⟩ hc⟩

/-- What a request holds is said of the sequences alone. -/
theorem rowsHeld_congr {s t : State} {i : Nat} {d : Desc} {a : App} (h : RowsHeld s i d a) (e : t.seqs = s.seqs) :
    RowsHeld t i d a := by
  simpa only [RowsHeld, tdirOf, descOf, e] using h

/-! ## Tails that a SEAL freezes (06_append.md R129) -/

/-- A page of a sequence's tail that a SEAL puts in the seal queue. -/
def SealsFor (msg i : Nat) (it : SealItem) : Prop :=
  it.waiter = msg ∧ it.desc = i ∧ it.fromTail = true ∧ it.aside = false

section
variable (s : State) (d : Desc) (q : TailKey) (content : Option Nat) (waiter : Nat)

theorem freezeTail_rest :
    freezeTail s d q content waiter = { s with seqs := (freezeTail s d q content waiter).seqs } := by
  unfold freezeTail
  dsimp only
  split <;> rfl

theorem freezeTail_images : (freezeTail s d q content waiter).seqs.images = s.seqs.images := by
  unfold freezeTail
  dsimp only
  split <;> rfl

/-- A tail that freezes lies where it lay. -/
theorem freezeTail_bases (q' : TailKey) : (aget (freezeTail s d q content waiter).seqs.tails q').map (·.base) =
    (aget s.seqs.tails q').map (·.base) := by
  unfold freezeTail
  dsimp only
  split
  · rfl
  · by_cases e : q' = q
    · subst e
      simp [modTdir, aget_amod_same, Function.comp_def]
    · simp [modTdir, aget_amod_other e]

/-- A header is read from where its tail lies, or from its record. -/
theorem tailHdr_congr {s t : State} {q : TailKey} (hm : t.mem = s.mem) (hi : t.seqs.images = s.seqs.images)
    (ht : (aget t.seqs.tails q).map (·.base) = (aget s.seqs.tails q).map (·.base)) : tailHdr t q = tailHdr s q := by
  have hseen (a n : Nat) : seen t a n = seen s a n := by simp only [seen, seenWord, peek, hm]
  unfold tailHdr
  rw [hi]
  cases h : aget t.seqs.tails q <;> cases h' : aget s.seqs.tails q <;> simp_all

theorem tailHdr_freezeTail (q' : TailKey) : tailHdr (freezeTail s d q content waiter) q' = tailHdr s q' :=
  tailHdr_congr (by rw [freezeTail_rest]) (freezeTail_images ..) (freezeTail_bases ..)

theorem tdirOf_freezeTail {i pair : Nat} (h : pair ≠ d.pair q.layer q.kv) :
    tdirOf (freezeTail s d q content waiter) i pair = tdirOf s i pair := by
  unfold freezeTail
  dsimp only
  split
  · rfl
  · exact agetD_aset_other _ (fun e => h (Prod.mk.inj e).2) _ _

/-- Freezing a tail of one pair leaves the open tail of another. -/
theorem hasRows_freezeTail {i : Nat} {p : Nat × Nat} (h : d.pair p.1 p.2 ≠ d.pair q.layer q.kv) :
    hasRows (freezeTail s d q content waiter) i d p = hasRows s i d p := by
  rw [hasRows, hasRows, openKey, tdirOf_freezeTail s d q content waiter h, ← openKey, tailCount, tailHdr_freezeTail,
    ← tailCount]

/-- A tail whose header can be read puts its page last in the queue. -/
theorem freezeTail_queues (h : (tailHdr s q).isSome = true) : ∃ it, SealsFor waiter q.desc it ∧
    (freezeTail s d q content waiter).seqs.sealQ = s.seqs.sealQ ++ [it] := by
  obtain ⟨hd, hh⟩ := Option.isSome_iff_exists.mp h
  unfold freezeTail
  rw [hh]
  exact ⟨_, ⟨rfl, rfl, rfl, rfl⟩, rfl⟩

end

theorem tailHdr_of_hasRows {s : State} {i : Nat} {d : Desc} {p : Nat × Nat} (h : hasRows s i d p = true) :
    (tailHdr s (openKey s i d p.1 p.2)).isSome = true := by
  unfold hasRows tailCount at h
  cases hh : tailHdr s (openKey s i d p.1 p.2) with
  | none => simp [hh] at h
  | some x => rfl

/-- The open tails of pairs, frozen one after another for a SEAL without keys. -/
def freezeAll (s : State) (i : Nat) (d : Desc) (msg : Nat) (l : List (Nat × Nat)) : State :=
  l.foldl (fun s p => freezeTail s d (openKey s i d p.1 p.2) none msg) s

theorem freezeAll_part {β : Type} (g : State → β) (hg : ∀ s q, g { s with seqs := q } = g s) (s : State) (i : Nat)
    (d : Desc) (msg : Nat) (l : List (Nat × Nat)) : g (freezeAll s i d msg l) = g s :=
  foldl_part g (fun s p => by rw [freezeTail_rest, hg]) l s

/-- Tails of different pairs that all hold a token put one page each in the queue. -/
theorem freezeAll_queues (i : Nat) (d : Desc) (msg : Nat) : ∀ (l : List (Nat × Nat)) (s : State),
    (l.map fun p => d.pair p.1 p.2).Nodup → (∀ p ∈ l, hasRows s i d p = true) →
    ∃ q, (freezeAll s i d msg l).seqs.sealQ = s.seqs.sealQ ++ q ∧ q.length = l.length ∧ ∀ it ∈ q, SealsFor msg i it
  | [], s, _, _ => ⟨[], (List.append_nil _).symm, rfl, fun _ h => nomatch h⟩
  | p :: l, s, hn, hr => by
    obtain ⟨hp, hl⟩ := List.nodup_cons.mp hn
    have hne {p' : Nat × Nat} (h : p' ∈ l) : d.pair p'.1 p'.2 ≠ d.pair p.1 p.2 := fun e =>
      hp (List.mem_map.mpr ⟨p', h, e⟩)
    obtain ⟨it, hit, hq⟩ := freezeTail_queues s d (openKey s i d p.1 p.2) none msg
      (tailHdr_of_hasRows (hr p (List.mem_cons_self ..)))
    obtain ⟨q, hq', hlen, hall⟩ := freezeAll_queues i d msg l (freezeTail s d (openKey s i d p.1 p.2) none msg) hl
      fun p' h' => (hasRows_freezeTail s d _ none msg (hne h')).trans (hr p' (List.mem_cons_of_mem _ h'))
    refine ⟨it :: q, hq'.trans ?_, congrArg (· + 1) hlen, List.forall_mem_cons.mpr ⟨hit, hall⟩⟩
    rw [hq, List.append_assoc]
    rfl

/-! ## What the commands answer -/

/-- The status that rows are answered with. -/
def rowsStatus : Except Status Nat → Status
  | .ok _ => .ok
  | .error st => st

/-- The seals that rows caused, none where they are not stored. -/
def rowsSeals : Except Status Nat → Nat
  | .ok n => n
  | .error _ => 0

theorem msgOf_of_startsWork {s : State} {id : Nat} {op : Opcode} {m : Msg} (h : startsWork s id op = some m) :
    msgOf s id = some m := msgOf_of_mayStart (Option.filter_eq_some_iff.mp h).1

section
variable {s u v : State} {msg i : Nat} {m : Msg} {a : App} {d : Desc} {st : Status} {r : Except Status Nat}
  (ha : a = App.parse m.be m.payload)

section
variable (hs : startsWork s msg .append = some m)
include hs

theorem exec_appendTokens_reserved (h : 7 ≤ (App.parse m.be m.payload).form) :
    exec (.appendTokens msg) s = .next (appRefuse s msg m .version) := by
  dsimp only [exec]
  unfold execAppendTokens appStart
  rw [hs]
  have h0 : (App.parse m.be m.payload).form ≠ 0 := by omega
  simp [h, h0]

variable (hform : a.form = 0)
include ha hform

theorem appStart_rows : appStart s msg (fun a => decide (a.form = 0) || decide (7 ≤ a.form)) = some (m, a) := by
  subst ha
  unfold appStart
  rw [hs]
  simp [hform]

theorem exec_appendTokens_lost (hf : findActive s m a = (u, .error st)) :
    exec (.appendTokens msg) s = .next (appRefuse u msg m st) := by
  dsimp only [exec]
  unfold execAppendTokens
  rw [appStart_rows ha hs hform]
  dsimp only
  rw [if_neg (not_not_intro hform), hf]

/-- Rows of a sequence that stands are answered with their status and the seals they caused. -/
theorem exec_appendTokens_found (hf : findActive s m a = (u, .ok (i, d))) (hr : rowsRequest u msg m a i d false = (v, r)) :
    exec (.appendTokens msg) s = .next (appAnswer v msg m (rowsStatus r) (rowsSeals r) i (a.named 1)) := by
  dsimp only [exec]
  unfold execAppendTokens
  rw [appStart_rows ha hs hform]
  dsimp only
  rw [if_neg (not_not_intro hform), hf]
  dsimp only
  rw [hr]
  cases r <;> rfl

end

section
variable (hs : startsWork s msg .bulkAppend = some m)
include ha hs

theorem exec_bulkAppend_lost (hform : a.form < 7) (hf : findActive s m a = (u, .error st)) :
    exec (.bulkAppend msg) s = .next (appRefuse u msg m st) := by
  subst ha
  dsimp only [exec]
  unfold execBulkAppend
  rw [hs]
  dsimp only
  rw [if_neg (Nat.not_le.mpr hform), hf]

/-- Rows of a sequence that stands: a BULK_APPEND is answered at once, or waits for the seals it caused. -/
theorem exec_bulkAppend_found (hform : a.form < 7) (hf : findActive s m a = (u, .ok (i, d)))
    (hr : rowsRequest u msg m a i d true = (v, r)) : exec (.bulkAppend msg) s =
      .next (if rowsSeals r = 0 then appAnswer v msg m (rowsStatus r) 0 i (a.named 1)
        else modMsg (setPhase v msg (.waitSeals (rowsSeals r))) msg fun x =>
          { x with heldPos := i, heldMap := a.pos + a.tokens }) := by
  subst ha
  dsimp only [exec]
  unfold execBulkAppend
  rw [hs]
  dsimp only
  rw [if_neg (Nat.not_le.mpr hform), hf]
  dsimp only
  rw [hr]
  match r with
  | .error _ | .ok 0 | .ok (_ + 1) => rfl

theorem exec_bulkAppend_refused (hform : a.form < 7) (hf : findActive s m a = (u, .ok (i, d)))
    (hr : rowsRequest u msg m a i d true = (v, .error st)) :
    exec (.bulkAppend msg) s = .next (appAnswer v msg m st 0 i (a.named 1)) := exec_bulkAppend_found ha hs hform hf hr

end

section
variable (hs : startsWork s msg .seal = some m) (hform : a.form = 0)
include ha hs hform

theorem exec_sealReq_lost (hf : findActive s m a = (u, .error st)) :
    exec (.sealReq msg) s = .next (appRefuse u msg m st) := by
  subst ha
  dsimp only [exec]
  unfold execSealReq
  rw [hs]
  dsimp only
  rw [if_neg (by rw [hform]; decide), hf]

variable (hf : findActive s m a = (u, .ok (i, d)))
include hf

/-- A SEAL within bounds is judged by the tails it names. -/
theorem exec_sealReq_named {x : State} (hfit : SealFits x i d m a) : exec (.sealReq msg) s = sealNamed u msg m a i d := by
  obtain ⟨hcount, hlayers, hkv, hheads, -⟩ := hfit
  subst ha
  dsimp only [exec]
  unfold execSealReq
  rw [hs]
  dsimp only
  rw [if_neg (by rw [hform]; decide), hf]
  simp [hcount, Nat.not_lt.mpr hlayers, hkv, Nat.not_lt.mpr hheads, hform]

end
end

section
variable {u v : State} {msg i : Nat} {m : Msg} {a : App} {d : Desc}

theorem sealNamed_unread (hl : lookTails (sealTails u i d a) u = (v, .uncorrectable)) :
    sealNamed u msg m a i d = .next (appAnswer v msg m .uncorrectable 0 i (a.named a.layerCount)) := by
  unfold sealNamed
  dsimp only
  rw [← sealTails, hl]
  rfl

/-- Tails numbered for the keys of a SEAL that has none. -/
theorem foldl_freeze (l : List (Nat × Nat)) (s : State) :
    l.zipIdx.foldl (fun s x => freezeTail s d (openKey s i d x.1.1 x.1.2) none msg) s =
      freezeAll s i d msg l := by
  have hmap := List.foldl_map (f := Prod.fst) (g := fun s p => freezeTail s d (openKey s i d p.1 p.2) none msg)
    (l := l.zipIdx) (init := s)
  rw [List.zipIdx_map_fst] at hmap
  exact hmap.symm

/-- A SEAL that keeps its bounds, whose tails can be read and which finds its slots and no second frozen tail. -/
theorem sealNamed_freezes (hfit : SealFits v i d m a) (hl : lookTails (sealTails u i d a) u = (v, .ok))
    (hslots : slotsFit v (freezeAll v i d msg (fullTails v i d a)) d.tenant = true)
    (hfrozen : ∀ p ∈ fullTails v i d a, (tdirOf v i (d.pair p.1 p.2)).frozen < 2) :
    sealNamed u msg m a i d = .next (if fullTails v i d a = [] then appAnswer v msg m .ok 0 i (a.named a.layerCount)
      else modMsg (setPhase (freezeAll v i d msg (fullTails v i d a)) msg (.waitSeals (fullTails v i d a).length)) msg
        fun x => { x with heldPos := i, at_ := now v m.hub }) := by
  obtain ⟨-, -, -, -, hkeyed, hlen, hclaim⟩ := hfit
  unfold sealNamed
  dsimp only
  rw [← sealTails, hl]
  dsimp only
  rw [← fullTails]
  have hany : (a.named a.layerCount).any (fun p => (tdirOf v i (d.pair p.1 p.2)).claim) = false :=
    List.any_eq_false.mpr fun p hp => Bool.eq_false_iff.mp (hclaim p hp)
  have hfew : (fullTails v i d a).any (fun p => decide (2 ≤ (tdirOf v i (d.pair p.1 p.2)).frozen)) = false :=
    List.any_eq_false.mpr fun p hp => by simpa using hfrozen p hp
  simp only [hkeyed, hlen, hany, hfew, Bool.false_eq_true, if_false, List.getElem?_nil, foldl_freeze, hslots, ne_eq,
    not_true_eq_false, Nat.add_zero, Bool.not_true, List.isEmpty_iff]
  split <;> rfl

end

theorem exec_sealDeadline {s : State} {msg n : Nat} {m : Msg} (hm : msgOf s msg = some m) (ho : m.opcode = .seal)
    (hp : m.phase = .waitSeals n) : exec (.sealDeadline msg) s =
      .next (appAnswer (modSeqs (passTo s m.hub (m.at_ + 10000000)) fun q =>
          { q with sealQ := q.sealQ.map fun it => if it.waiter = msg then { it with waiter := 0 } else it })
        msg m .busy n m.heldPos ((App.parse m.be m.payload).named (App.parse m.be m.payload).layerCount)) := by
  dsimp only [exec]
  unfold execSealDeadline
  rw [hm]
  dsimp only
  rw [ho, hp]

theorem msgOf_appAnswer_same (s : State) (id : Nat) (m : Msg) (st : Status) (n i : Nat) (l : List (Nat × Nat)) :
    msgOf (appAnswer s id m st n i l) id = none := by
  unfold appAnswer
  split <;> exact msgOf_answer_same ..

theorem now_appAnswer (s : State) (id : Nat) (m : Msg) (st : Status) (n i : Nat) (l : List (Nat × Nat)) (h : Nat) :
    now (appAnswer s id m st n i l) h = now s h := by unfold appAnswer; split <;> simp [now, hubSt]

/-- Rows refused where nothing they look at needs a correction leave memory and sequences. -/
theorem refusedRows_leave {s u v : State} {msg i : Nat} {m : Msg} {a : App} {d : Desc} {bulk : Bool} {st : Status}
    (hf : findActive s m a = (u, .ok (i, d))) (hr : rowsRequest u msg m a i d bulk = (v, .error st))
    (hc : LooksClean u i d a) (n : Nat) (l : List (Nat × Nat)) :
    (appAnswer v msg m st n i l).mem = s.mem ∧ (appAnswer v msg m st n i l).seqs = s.seqs := by
  obtain ⟨hmem, hseqs⟩ := rowsRequest_error hr hc
  rw [appAnswer_mem, appAnswer_seqs, hmem, hseqs, findActive_rest hf]
  exact ⟨rfl, rfl⟩

/-- What a SEAL leaves that waits for the tails it has frozen. -/
theorem freezeAll_waits {v : State} {msg i : Nat} {m : Msg} {d : Desc} {l : List (Nat × Nat)} (hm : msgOf v msg = some m)
    (hn : (l.map fun p => d.pair p.1 p.2).Nodup) (hr : ∀ p ∈ l, hasRows v i d p = true) {f : Msg → Msg}
    (hf : ∀ x, (f x).phase = x.phase) {t : State}
    (ht : t = modMsg (setPhase (freezeAll v i d msg l) msg (.waitSeals l.length)) msg f) :
    (msgOf t msg).map (·.phase) = some (.waitSeals l.length) ∧
      (∃ q, t.seqs.sealQ = v.seqs.sealQ ++ q ∧ q.length = l.length ∧ ∀ it ∈ q, SealsFor msg i it) ∧
      t.mem = v.mem ∧ t.ledg = v.ledg := by
  subst ht
  obtain ⟨q, hq, hlen, hall⟩ := freezeAll_queues i d msg l v hn hr
  have hm' : msgOf (freezeAll v i d msg l) msg = some m := by rwa [msgOf, freezeAll_part (·.msgs) (fun _ _ => rfl)]
  refine ⟨?_, ⟨q, (congrArg SeqSt.sealQ (setPhase_seqs ..)).trans hq, hlen, hall⟩,
    (setPhase_mem ..).trans (freezeAll_part (·.mem) (fun _ _ => rfl) ..),
    (setPhase_ledg ..).trans (freezeAll_part (·.ledg) (fun _ _ => rfl) ..)⟩
  rw [msgOf, modMsg, setMsgs, aget_amod_same, Option.map_map, Function.comp_def]
  simp only [hf]
  exact setPhase_phase _ hm' rfl

/-- Settles O1. A request is answered along one path of its checks (`exec_appendTokens_found`, `exec_bulkAppend_found`,
`exec_sealReq_named` and their like); rows that are stored end with their held ends and their length, or with their claims
(`rowsRequest_stores`), rows that are refused leave what their look at the tails left (`refusedRows_leave`), and the tails a
SEAL freezes put one page each in the seal queue, for they are of different pairs (`freezeAll_waits`). -/
theorem rowsAreAppendedAndSealed : Obligations.RowsAreAppendedAndSealed := by
  unfold Obligations.RowsAreAppendedAndSealed
  refine ⟨fun msg i n m a d s u v hs ha hform hf hr =>
      completes_of_exec (exec_appendTokens_found ha hs hform hf hr) ⟨rfl, ?_⟩,
    fun msg i n m a d s u v hs ha hform hf hr => ?_,
    fun msg i m a d st s u v ha hform hf =>
      ⟨fun hs hr => completes_of_exec (exec_appendTokens_found ha hs hform hf hr)
        ⟨rfl, fun hc => refusedRows_leave hf hr hc 0 _⟩,
      fun hs hr => completes_of_exec (exec_bulkAppend_refused ha hs (by omega) hf hr)
        ⟨rfl, fun hc => refusedRows_leave hf hr hc 0 _⟩⟩,
    fun msg m a st s u ha hform hf => ⟨fun hs => completes_of_exec (exec_appendTokens_lost ha hs hform hf) rfl,
      fun hs => completes_of_exec (exec_bulkAppend_lost ha hs (by omega) hf) rfl,
      fun hs => completes_of_exec (exec_sealReq_lost ha hs hform hf) rfl⟩,
    fun msg i m a d s u hs ha h1 h6 hf =>
      completes_of_exec (exec_bulkAppend_refused ha hs (Nat.lt_succ_of_le h6) hf (rowsRequest_otherForm (by omega)))
        ⟨rfl, ?_⟩,
    fun msg m s hs h => completes_of_exec (exec_appendTokens_reserved hs h) rfl,
    fun msg i m a d s u v hs ha hform hf hfit hl hfull hslots => ?_,
    fun msg i m a d s u v hs ha hform hf hfit hl =>
      completes_of_exec ((exec_sealReq_named ha hs hform hf hfit).trans (sealNamed_unread hl)) rfl,
    fun msg i m a d s u v w hs ha hform hf hfit hl hfull hw hslots hfrozen => ?_,
    fun msg n m s hm ho hp => completes_of_exec (exec_sealDeadline hm ho hp) ⟨msgOf_appAnswer_same .., ?_, ?_,
      appAnswer_mem .., ?_⟩⟩
  · obtain ⟨hl, hm, hheld, -⟩ := rowsRequest_stores (descOf_of_findActive hf) hr
    rw [appAnswer_ledg, appAnswer_merge, hl, hm, findActive_rest hf]
    exact ⟨rowsHeld_congr (hheld (.inl rfl)) (appAnswer_seqs ..), rfl, rfl⟩
  · obtain ⟨hl, hm, hheld, hclaim⟩ := rowsRequest_stores (descOf_of_findActive hf) hr
    have hus : u.ledg = s.ledg ∧ u.merge = s.merge := by rw [findActive_rest hf]; exact ⟨rfl, rfl⟩
    have he := exec_bulkAppend_found ha hs (by omega) hf hr
    by_cases hn : n = 0
    · rw [if_pos (show rowsSeals (.ok n) = 0 from hn)] at he
      exact completes_of_exec he ⟨(appAnswer_ledg ..).trans (hl.trans hus.1), (appAnswer_merge ..).trans (hm.trans hus.2),
        fun _ => ⟨rowsHeld_congr (hheld (.inr hn)) (appAnswer_seqs ..), rfl⟩, fun h => absurd hn h⟩
    · rw [if_neg (show rowsSeals (.ok n) ≠ 0 from hn)] at he
      refine completes_of_exec he ⟨(setPhase_ledg ..).trans (hl.trans hus.1),
        (setPhase_spares ..).1.trans (hm.trans hus.2), fun h => absurd h hn,
        fun _ => ⟨fun p hp => ?_, rfl⟩⟩
      have hseqs : (setPhase v msg (.waitSeals n)).seqs = v.seqs := setPhase_seqs ..
      have hp := hclaim rfl hn p hp
      simpa only [tdirOf, modMsg, setMsgs, rowsSeals, hseqs] using hp
  · rw [appAnswer_mem, appAnswer_seqs, findActive_rest hf]
    exact ⟨rfl, rfl⟩
  · have he := sealNamed_freezes (u := u) (msg := msg) hfit hl (by rw [hfull]; exact hslots) (by rw [hfull]; simp)
    rw [if_pos hfull] at he
    exact completes_of_exec ((exec_sealReq_named ha hs hform hf hfit).trans he) ⟨rfl, appAnswer_seqs ..⟩
  · subst hw
    have he := sealNamed_freezes (u := u) hfit hl hslots hfrozen
    rw [if_neg hfull] at he
    refine completes_of_exec ((exec_sealReq_named ha hs hform hf hfit).trans he) ?_
    obtain ⟨-, -, -, hheads, -⟩ := hfit
    have hm : msgOf v msg = some m := by
      have hv := lookTails_part (·.msgs) load_msgs (sealTails u i d a) u
      rw [hl] at hv
      rw [msgOf, hv, findActive_rest hf]
      exact msgOf_of_startsWork hs
    have hledg : v.ledg = s.ledg := by rw [((lookTails_apart ..).of_eq hl).ledg, findActive_rest hf]
    obtain ⟨hphase, hqueue, hmem, hledg'⟩ := freezeAll_waits
      (f := fun x => { x with heldPos := i, at_ := now v m.hub }) hm
      ((named_pairs_nodup hheads a.layerCount).sublist (List.filter_sublist.map _)) (fun p hp => (List.mem_filter.mp hp).2)
      (fun _ => rfl) rfl
    exact ⟨hphase, hqueue, hmem, hledg'.trans hledg⟩
  · rw [now_appAnswer]
    exact Nat.le_trans (Nat.le_max_right ..) (Nat.le_of_eq (now_passTo s m.hub (m.at_ + 10000000)).symm)
  · rw [appAnswer_seqs]
    rfl
  · rw [appAnswer_seqs]
    rfl

end Sys2Proof.Proofs

namespace Sys2Proof.Proofs
open Sys2Proof.Machine Sys2Proof.Laws

/-!
Memory: its canonical form (O58), the samples of temperature and power (O25), patrol, self-refresh and SRAM banks (O26). Each
exec is first put in one equation per case of its checks; what the shared operations on levels and banks do is said once.
-/

/-! ## The canonical form -/

/-- A listed byte is what its address reads as. -/
theorem readByte_of_mem {c : Host.Cell} : ∀ {l : List Host.Cell}, l.Pairwise (fun c d => c.1 < d.1) → c ∈ l →
    readByte l c.1 = c.2
  | [], _, hc => nomatch hc
  | d :: l, hl, hc => by
    obtain ⟨hd, hl⟩ := List.pairwise_cons.mp hl
    rcases List.mem_cons.mp hc with rfl | hc
    · exact if_pos rfl
    · exact (if_neg (Nat.ne_of_lt (hd c hc))).trans (readByte_of_mem hl hc)

/-- An address that does not read as zero is listed. -/
theorem mem_of_readByte {a : Nat} {l : List Host.Cell} (h : readByte l a ≠ 0#8) : (a, readByte l a) ∈ l := by
  induction l with
  | nil => exact absurd rfl h
  | cons c l ih =>
    unfold readByte at h ⊢
    split
    · next e =>
      subst e
      exact List.mem_cons_self ..
    · next e =>
      rw [if_neg e] at h
      exact List.mem_cons_of_mem _ (ih h)

/-- What a canonical memory lists are the bytes that do not read as zero. -/
theorem mem_iff_readByte {l : List Host.Cell} (h : Memory.wf l = true) (c : Host.Cell) :
    c ∈ l ↔ c.2 ≠ 0#8 ∧ readByte l c.1 = c.2 := by
  obtain ⟨hrise, hne⟩ := (cellsWf_iff l).mp h
  refine ⟨fun hc => ⟨hne c hc, readByte_of_mem hrise hc⟩, fun ⟨hz, hr⟩ => ?_⟩
  have hm := mem_of_readByte (l := l) (a := c.1) (by rwa [hr])
  rwa [hr] at hm

/-- The bytes determine a canonical memory. -/
theorem cells_eq_of_readByte {l r : List Host.Cell} (hl : Memory.wf l = true) (hr : Memory.wf r = true)
    (h : ∀ a, readByte l a = readByte r a) : l = r := by
  have hlr := ((cellsWf_iff l).mp hl).1
  have hrr := ((cellsWf_iff r).mp hr).1
  have hnodup {m : List Host.Cell} (hm : m.Pairwise fun c d => c.1 < d.1) : m.Nodup :=
    List.nodup_iff_pairwise_ne.mpr (hm.imp fun hlt e => Nat.ne_of_lt hlt (congrArg Prod.fst e))
  have hp : l.Perm r := (List.perm_ext_iff_of_nodup (hnodup hlr) (hnodup hrr)).mpr fun c => by
    rw [mem_iff_readByte hl, mem_iff_readByte hr, h]
  exact hp.eq_of_pairwise (fun _ _ _ _ h1 h2 => absurd h1 (Nat.lt_asymm h2)) hlr hrr

theorem step_canonical {s t : State} (hs : Canonical s) (h : step s = .next t) : Canonical t := (step_keeps s t h).mem hs

theorem reaches_canonical : ∀ {n : Nat} {s t : State}, Canonical s → Reaches n s t → Canonical t
  | 0, _, _, hs, h => by rwa [show _ = _ from h]
  | _ + 1, _, _, hs, ⟨_, hu, ht⟩ => reaches_canonical (step_canonical hs hu) ht

/-- Settles O58: a step keeps the canonical form by `step_keeps`, a run by induction on its steps, and a canonical memory
is the list of its bytes that do not read as zero (`cells_eq_of_readByte`). What an unlisted byte reads as is the model's
choice (assumption 4). -/
theorem everyStepKeepsMemoryCanonical : Obligations.EveryStepKeepsMemoryCanonical := by
  unfold Obligations.EveryStepKeepsMemoryCanonical
  exact ⟨fun _ _ => step_canonical, fun _ _ _ => reaches_canonical, fun _ _ => cells_eq_of_readByte⟩

/-! ## Levels of throttling -/

/-- From s to t at most slices' levels and the count of their changes are different. -/
structure LevelsOnly (s t : State) : Prop where
  rest : t = { s with mem := { s.mem with level := t.mem.level }, regs := t.regs }
  regs : ∀ (r : Reg) (i e : Nat), r ≠ .mem_THROTTLE_CHANGES → rget t r i e = rget s r i e

namespace LevelsOnly
variable {a s t : State}

theorem refl (s : State) : LevelsOnly s s := ⟨rfl, fun _ _ _ _ => rfl⟩

theorem trans (f : LevelsOnly a s) (g : LevelsOnly s t) : LevelsOnly a t :=
  ⟨by rw [g.rest, f.rest], fun r i e h => (g.regs r i e h).trans (f.regs r i e h)⟩

theorem foldl {α : Type} {f : State → α → State} (hf : ∀ s x, LevelsOnly s (f s x)) :
    ∀ (l : List α) (s : State), LevelsOnly s (l.foldl f s)
  | [], s => refl s
  | x :: l, s => (hf s x).trans (foldl hf l (f s x))

theorem cells_eq (f : LevelsOnly s t) : t.mem.cells = s.mem.cells := by rw [f.rest]

theorem stackSt_eq (f : LevelsOnly s t) (k : Nat) : stackSt t k = stackSt s k := by rw [f.rest]; rfl

theorem dieHealth_eq (f : LevelsOnly s t) (d : Nat) : dieHealth t d = dieHealth s d := by rw [f.rest]; rfl

theorem dillOf_eq (f : LevelsOnly s t) (k : Nat) : dillOf t k = dillOf s k := by rw [f.rest]; rfl

theorem thermalDue_eq (f : LevelsOnly s t) (k : Nat) : thermalDue t k = thermalDue s k := by
  simp only [thermalDue, hottest, rgi, rg, f.dieHealth_eq, f.regs .mem_throttle_temp 0 0 (by decide)]

/-- The level that a slice is due does not depend on the levels in force. -/
theorem dueLevel_eq (f : LevelsOnly s t) (k : Nat) : dueLevel t k = dueLevel s k := by
  have hp : t.power = s.power := by rw [f.rest]
  have hl : t.mem.powerLvl = s.mem.powerLvl := by rw [f.rest]
  simp only [dueLevel, f.stackSt_eq, f.thermalDue_eq, hp, hl, f.regs .mem_pin_level k 0 (by decide),
    f.regs .mem_min_level k 0 (by decide)]

end LevelsOnly

theorem settleLevel_only (s : State) (k : Nat) : LevelsOnly s (settleLevel s k) := by
  unfold settleLevel
  dsimp only
  split
  · exact .refl s
  · exact ⟨rfl, fun r i e h => rget_bump_other _ h ..⟩

theorem settleLevels_only (s : State) : LevelsOnly s (settleLevels s) := .foldl settleLevel_only _ s

/-- Between segments the level that a slice is due takes force. -/
theorem levelOf_settleLevel_same {s : State} {k : Nat} (h : (dillOf s k).segment = false) :
    levelOf (settleLevel s k) k = dueLevel s k := by
  unfold settleLevel
  dsimp only
  split
  · next hk => exact (hk.resolve_left (by simp [h])).symm
  · exact agetD_aset_same ..

theorem levelOf_settleLevel_other (s : State) {k j : Nat} (h : j ≠ k) : levelOf (settleLevel s k) j = levelOf s j := by
  unfold settleLevel
  dsimp only
  split
  · rfl
  · exact agetD_aset_other _ h ..

/-- The level in force at a slice is the one it is due. -/
def LevelDue (s : State) (k : Nat) : Prop := levelOf s k = dueLevel s k

theorem settleLevel_due {s : State} {k : Nat} (h : (dillOf s k).segment = false) : LevelDue (settleLevel s k) k :=
  (levelOf_settleLevel_same h).trans ((settleLevel_only s k).dueLevel_eq k).symm

theorem LevelDue.settleLevel {s : State} {k : Nat} (h : LevelDue s k) (j : Nat) : LevelDue (settleLevel s j) k := by
  have hd := (settleLevel_only s j).dueLevel_eq k
  by_cases hk : k = j
  · subst hk
    unfold Machine.settleLevel
    dsimp only
    rw [if_pos (.inr h.symm)]
    exact h
  · exact (levelOf_settleLevel_other s hk).trans (h.trans hd.symm)

/-- Between segments each slice takes the level that it is due. 08_memory.md R189. -/
theorem settleLevels_due {s : State} {k : Nat} (hk : k < 32) (h : (dillOf s k).segment = false) :
    LevelDue (settleLevels s) k := by
  have hkeep : ∀ (l : List Nat) (u : State), LevelDue u k → LevelDue (l.foldl settleLevel u) k := by
    intro l
    induction l with
    | nil => exact fun _ hu => hu
    | cons j l ih => exact fun u hu => ih _ (hu.settleLevel j)
  obtain ⟨l, r, hlr⟩ := List.append_of_mem (List.mem_range.mpr hk)
  unfold settleLevels
  rw [hlr, List.foldl_append, List.foldl_cons]
  have hl : LevelsOnly s (l.foldl settleLevel s) := .foldl settleLevel_only l s
  exact hkeep r _ (settleLevel_due (by rw [hl.dillOf_eq, h]))

/-! ## The trip -/

/-- A trip latches its die and reading, and the rails go off with all that memory held. 18_package.md R438. -/
theorem tripDie_trips (s : State) (d : Nat) (t : Int) :
    (tripDie s d t).power.trip = some (d, t) ∧ (tripDie s d t).power.rails = false ∧
      (tripDie s d t).power.pwrok = false ∧ (tripDie s d t).mem.cells = [] := ⟨rfl, rfl, rfl, rfl⟩

/-! ## Samples -/

theorem stackSt_modStack_same (s : State) (k : Nat) (f : Stack → Stack) : stackSt (modStack s k f) k = f (stackSt s k) :=
  agetD_aset_same ..

theorem stackSt_modStack_other (s : State) {k j : Nat} (h : j ≠ k) (f : Stack → Stack) :
    stackSt (modStack s k f) j = stackSt s j := agetD_aset_other _ h ..

theorem dieHealth_modDie_same (s : State) (d : Nat) (f : DieHealth → DieHealth) :
    dieHealth (modDie s d f) d = f (dieHealth s d) := agetD_aset_same ..

theorem dieHealth_modDie_other (s : State) {d e : Nat} (h : e ≠ d) (f : DieHealth → DieHealth) :
    dieHealth (modDie s d f) e = dieHealth s e := agetD_aset_other _ h ..

/-- A stack controller that has taken a sample. 08_memory.md R185, R188. -/
def sampled (s : State) (temp : Int) (x : Stack) : Stack :=
  { x with
    rate := rateAfter (rgi s .mem_temp_2x) (rgi s .mem_temp_4x) (rgi s .mem_hysteresis) x.rate temp
    temp := temp
    crit := decide (rgi s .mem_temp_crit ≤ temp) || (x.crit && decide (rgi s .mem_temp_crit - 5 ≤ temp)) }

theorem sampled_crit (s : State) (temp : Int) (x : Stack) : (sampled s temp x).crit = true ↔
    (rg s .mem_temp_crit : Int) ≤ temp ∨ (x.crit = true ∧ (rg s .mem_temp_crit : Int) - 5 ≤ temp) := by
  simp only [sampled, Bool.or_eq_true, Bool.and_eq_true, decide_eq_true_eq]
  exact Iff.rfl

/-- The second sample of 110 °C in a row trips. -/
theorem execStackTempSample_trips {k : Slice} {temp : Int} {s : State} (h : 110 ≤ (stackSt s k).temp) (ht : 110 ≤ temp) :
    execStackTempSample k temp s = .next (tripDie (modStack s k (sampled s temp)) k temp) := if_pos ⟨h, ht⟩

/-- What the start and the end of the critical state leave: a THERMAL record, and at the start a health event. -/
def critNoted (s : State) (k : Nat) (temp : Int) (old new : Bool) : State :=
  if new ∧ ¬ old then healthEvent (thermalRec s k temp true) k 2 (ofSigned 32 temp)
  else if old ∧ ¬ new then thermalRec s k temp false
  else s

@[simp] theorem critNoted_mem (s : State) (k : Nat) (temp : Int) (old new : Bool) :
    (critNoted s k temp old new).mem = s.mem := by
  unfold critNoted thermalRec
  (repeat' split) <;> simp

@[simp] theorem critNoted_dill (s : State) (k : Nat) (temp : Int) (old new : Bool) :
    (critNoted s k temp old new).dill = s.dill := by
  unfold critNoted thermalRec
  (repeat' split) <;> simp

/-- Another sample is stored, a change of the critical state noted, and the slice's level settles. -/
theorem execStackTempSample_settles {k : Slice} {temp : Int} {s : State} (h : ¬ (110 ≤ (stackSt s k).temp ∧ 110 ≤ temp)) :
    execStackTempSample k temp s = .next (settleLevel (critNoted (modStack s k (sampled s temp)) k temp
      (stackSt s k).crit (sampled s temp (stackSt s k)).crit) k) := if_neg h

/-- The health of a die that four sensors have been read of. 17_health.md R402. -/
def sensed (t0 t1 t2 t3 : Int) (x : DieHealth) : DieHealth :=
  { x with temps := [t0, t1, t2, t3], maxTemp := max x.maxTemp (max (max t0 t1) (max t2 t3)) }

section
variable {d : Die} {t0 t1 t2 t3 : Int} {s : State}

theorem execDieTempSample_cool (h0 : t0 < 115) (h1 : t1 < 115) (h2 : t2 < 115) (h3 : t3 < 115) :
    execDieTempSample d t0 t1 t2 t3 s =
      .next (if d.val < 32 then settleLevel (modDie s d (sensed t0 t1 t2 t3)) d else modDie s d (sensed t0 t1 t2 t3)) := by
  refine if_neg fun hany => ?_
  obtain ⟨p, hp, hhot⟩ := List.any_eq_true.mp hany
  have hm : p.2 ∈ [t0, t1, t2, t3] := (List.of_mem_zip hp).2
  simp only [List.mem_cons, List.not_mem_nil, or_false, Bool.and_eq_true, decide_eq_true_eq] at hm hhot
  omega

theorem execDieTempSample_trips {u0 u1 u2 u3 : Int} (hu : (dieHealth s d.val).temps = [u0, u1, u2, u3])
    (h : 115 ≤ min u0 t0 ∨ 115 ≤ min u1 t1 ∨ 115 ≤ min u2 t2 ∨ 115 ≤ min u3 t3) :
    execDieTempSample d t0 t1 t2 t3 s =
      .next (tripDie (modDie s d (sensed t0 t1 t2 t3)) d (max (max t0 t1) (max t2 t3))) := by
  refine if_pos ?_
  rw [hu]
  simp only [List.zip_cons_cons, List.zip_nil_left, List.any_cons, List.any_nil, Bool.or_false, Bool.or_eq_true,
    Bool.and_eq_true, decide_eq_true_eq]
  omega

end

/-- The level of a die's latest readings is that of the hottest. -/
theorem thermalDue_sensed {s t : State} {d : Nat} {t0 t1 t2 t3 : Int} (h : (dieHealth t d).temps = [t0, t1, t2, t3])
    (hr : rg t .mem_throttle_temp = rg s .mem_throttle_temp) :
    thermalDue t d = thermalLevel (rg s .mem_throttle_temp) (max (max t0 t1) (max t2 t3)) := by
  have hh : hottest t d = max (max t0 t1) (max t2 t3) := by
    rw [hottest, h]
    show max (max (max (max t0 t0) t1) t2) t3 = max (max t0 t1) (max t2 t3)
    omega
  rw [thermalDue, hh, rgi, hr]

/-- The node that has taken a sample of its power, with the level that the sample asks for. 08_memory.md R190. -/
def powerSampled (s : State) (w : Nat) : State :=
  modMem s fun m => { m with
    powerLvl := if rg s .mem_power_limit < w then min 7 (s.mem.powerLvl + 1)
      else if 100 * w < 95 * rg s .mem_power_limit then s.mem.powerLvl - 1 else s.mem.powerLvl
    powerAvg := w
    powerSum := m.powerSum + w
    powerN := m.powerN + 1 }

theorem execPowerLevelUpdate_settles (w : Nat) (s : State) :
    execPowerLevelUpdate w s = .next (settleLevels (powerSampled s w)) := rfl

/-- Settles O25: a sample that trips by `tripDie_trips`; another sets the slice's level, which `settleLevel` puts in force
between segments (`settleLevel_due`), and a power sample every slice's (`settleLevels_due`). -/
theorem temperatureAndPowerSamples : Obligations.TemperatureAndPowerSamples := by
  unfold Obligations.TemperatureAndPowerSamples
  refine ⟨fun k temp s hcool => ?_, fun k temp s hold hnew => ?_, fun d t0 t1 t2 t3 s h0 h1 h2 h3 => ?_,
    fun d t0 t1 t2 t3 u0 u1 u2 u3 s hold hhot => ?_, fun w s => ?_⟩
  · have hx := execStackTempSample_settles (k := k) (temp := temp) (s := s) (by omega)
    generalize hv : critNoted _ _ _ _ _ = v at hx
    have hmem : v.mem = (modStack s k (sampled s temp)).mem := by rw [← hv, critNoted_mem]
    have hstack : ∀ j, stackSt v j = stackSt (modStack s k (sampled s temp)) j := fun j => by rw [stackSt, hmem, stackSt]
    have hl := settleLevel_only v k
    have hsame : stackSt (settleLevel v k) k = sampled s temp (stackSt s k) := by
      rw [hl.stackSt_eq, hstack, stackSt_modStack_same]
    refine completes_of_exec hx ⟨by rw [hsame]; rfl, by rw [hsame]; rfl, by rw [hsame]; exact sampled_crit ..,
      fun j hj => ⟨by rw [hl.stackSt_eq, hstack, stackSt_modStack_other s hj], ?_⟩,
      fun hseg => settleLevel_due (by rw [dillOf, ← hv, critNoted_dill]; exact hseg), by rw [hl.cells_eq, hmem]; rfl⟩
    rw [levelOf_settleLevel_other v hj, levelOf, hmem]
    rfl
  · exact completes_of_exec (execStackTempSample_trips hold hnew) (tripDie_trips ..)
  · have hx := execDieTempSample_cool (d := d) (s := s) h0 h1 h2 h3
    generalize hu : modDie s d (sensed t0 t1 t2 t3) = u at hx
    have hself : dieHealth u d = sensed t0 t1 t2 t3 (dieHealth s d) := by rw [← hu, dieHealth_modDie_same]
    have hother : ∀ e, e ≠ d.val → dieHealth u e = dieHealth s e := fun e he => by rw [← hu, dieHealth_modDie_other s he]
    by_cases hd : d.val < 32
    · rw [if_pos hd] at hx
      have hl := settleLevel_only u d
      have ht : (dieHealth (settleLevel u d) d).temps = [t0, t1, t2, t3] := by rw [hl.dieHealth_eq, hself]; rfl
      refine completes_of_exec hx ⟨ht, by rw [hl.dieHealth_eq, hself]; rfl,
        fun _ => ⟨thermalDue_sensed ht ?_, fun hseg => settleLevel_due (by rw [← hu]; exact hseg)⟩,
        fun h => absurd hd (by omega), fun e he => by rw [hl.dieHealth_eq, hother e he], by rw [hl.cells_eq, ← hu]; rfl⟩
      rw [rg, hl.regs _ _ _ (by decide), ← hu]
      rfl
    · rw [if_neg hd] at hx
      exact completes_of_exec hx ⟨by rw [hself]; rfl, by rw [hself]; rfl, fun h => absurd h hd,
        fun _ => by rw [← hu]; rfl, hother, by rw [← hu]; rfl⟩
  · obtain ⟨htrip, hrails, hok, -⟩ := tripDie_trips (modDie s d (sensed t0 t1 t2 t3)) d (max (max t0 t1) (max t2 t3))
    exact completes_of_exec (execDieTempSample_trips hold hhot) ⟨htrip, hrails, hok⟩
  · have hl := settleLevels_only (powerSampled s w)
    exact completes_of_exec (execPowerLevelUpdate_settles w s) ⟨by rw [hl.rest]; rfl, by rw [hl.rest]; rfl,
      by rw [hl.rest]; rfl, by rw [hl.rest]; rfl, fun k hk hseg => settleLevels_due hk hseg⟩

/-! ## Patrol and self-refresh -/

/-- A word without deviation is read as it stands, and the reading leaves nothing behind. 08_memory.md R177. -/
theorem loadWord_clean {s : State} {a : Nat} (h : agetD s.mem.chk a 0 = 0) (reader : Nat) :
    loadWord s a reader = (s, some (peek s a 16)) := by
  have hr : readWord s a reader = (s, some (peek s a 16), none) := if_pos h
  rw [loadWord, hr]
  rfl

/-- The patrol of a die goes on from an offset to another; with a new round the corrections that the one before has
counted are void. 08_memory.md R182, R183. -/
def patrolOn (s : State) (d off nxt : Nat) : State :=
  modMem s fun m => { m with
    patrol := aset m.patrol d nxt
    hits := if off < nxt then m.hits else m.hits.filter fun p => decide (p.1 / 2 ^ 42 ≠ d) }

theorem execPatrolScrubRead_clean {d : Die} {off : Nat} {s : State}
    (ho : off = agetD s.mem.patrol d.val (if d.val < 32 then 0 else sramOff))
    (h : agetD s.mem.chk (dieBase d.val + off) 0 = 0) :
    execPatrolScrubRead d s = .next (patrolOn s d off (patrolNext s d off)) := by
  unfold execPatrolScrubRead patrolOn
  simp only [← ho, loadWord_clean h, h, if_true, ite_self]
  by_cases hlt : off < patrolNext s d off
  · simp only [hlt, if_true]
  · simp only [hlt, if_false]
    rfl

/-- A stack controller one of whose pseudo-channels has entered self-refresh. 08_memory.md R187. -/
def rested (pc : Nat) (x : Stack) : Stack :=
  { x with selfRef := x.selfRef ++ [pc], postponed := x.postponed.filter fun p => decide (p.1.1 ≠ pc) }

theorem execSelfRefreshEntry_enters {k : Slice} {pc : Nat} {s : State} (hpc : pc < 64)
    (h : (stackSt s k).selfRef.contains pc = false) :
    execSelfRefreshEntry k pc s = .next (modStack s k (rested pc)) := by
  refine if_neg fun hn => ?_
  rcases hn with h64 | hin
  · exact absurd hpc (Nat.not_lt_of_le h64)
  · rw [h] at hin
    cases hin

/-! ## Banks -/

theorem bankSt_modBank_same (s : State) (d b : Nat) (f : Bank → Bank) : bankSt (modBank s d b f) d b = f (bankSt s d b) :=
  agetD_aset_same ..

/-- A map over the values of a finite map that may look at the keys. -/
theorem aget_mapKey {κ α : Type} [DecidableEq κ] (f : κ → α → α) (k : κ) :
    ∀ m : Assoc κ α, aget (m.map fun p => (p.1, f p.1 p.2)) k = (aget m k).map (f k)
  | [] => rfl
  | (k', v) :: m => by
    by_cases e : k' = k
    · subst e
      simp [aget]
    · simp [aget, e, aget_mapKey f k m]

/-- A bank after an access to a range: back from RETAIN where it holds bytes of it. 08_memory.md R192. -/
def woken (a n : Nat) (key : Nat × Nat) (x : Bank) : Bank :=
  if asleep a n (key, x) then { x with state := .on, retainDue := false } else x

theorem woken_request (a n : Nat) (key : Nat × Nat) (x : Bank) : (woken a n key x).request = x.request := by
  unfold woken
  split <;> rfl

theorem touchBanks_banks (s : State) (a n : Nat) : (touchBanks s a n).mem.banks = s.mem.banks ∨
    (touchBanks s a n).mem.banks = s.mem.banks.map fun p => (p.1, woken a n p.1 p.2) := by
  have hb : (touchStack s a n).mem.banks = s.mem.banks := by rw [touchStack_rest]
  unfold touchBanks
  dsimp only
  split
  · refine .inr ?_
    rw [modMem_mem, hb]
    refine List.map_congr_left fun p _ => ?_
    unfold woken
    split <;> rfl
  · exact .inl hb

/-- An access wakes banks and leaves what is asked of them. -/
theorem bankSt_touchBanks_request (s : State) (a n d b : Nat) :
    (bankSt (touchBanks s a n) d b).request = (bankSt s d b).request := by
  rw [bankSt, bankSt, touchBanks_power, agetD, agetD]
  rcases touchBanks_banks s a n with e | e
  · rw [e]
  · rw [e, aget_mapKey (woken a n)]
    cases aget s.mem.banks (d, b) with
    | none => rfl
    | some x => exact woken_request ..

theorem bankSt_scrub_request (s : State) (a n d b : Nat) : (bankSt (scrub s a n) d b).request = (bankSt s d b).request :=
  bankSt_touchBanks_request s a n d b

theorem readByte_zeroCells (l : List Host.Cell) (a n c : Nat) :
    readByte (zeroCells l a n) c = if a ≤ c ∧ c < a + n then 0#8 else readByte l c := by
  split
  · next h =>
    refine readByte_of_forall_ne _ _ fun x hx he => ?_
    have := (List.mem_filter.mp hx).2
    simp only [Bool.or_eq_true, decide_eq_true_eq] at this
    omega
  · next h =>
    refine readByte_filter _ c (fun x hx => ?_) l
    simp only [Bool.or_eq_true, decide_eq_true_eq]
    omega

theorem byteAt_scrub (s : State) (a n c : Nat) : byteAt (scrub s a n) c = if a ≤ c ∧ c < a + n then 0#8 else byteAt s c := by
  have h : (scrub s a n).mem.cells = zeroCells s.mem.cells a n := congrArg (zeroCells · a n) (touchBanks_cells s a n)
  rw [byteAt, h, readByte_zeroCells, byteAt]

section
variable (s : State) (d b : Nat)

/-- A bank that turns ON from OFF reads zero; one that holds its contents keeps them. 08_memory.md R192. -/
theorem byteAt_bankOn_in {a : Nat} (h : InBank d b a) :
    byteAt (bankOn s d b) a = if (bankSt s d b).state = .off then 0#8 else byteAt s a := by
  unfold bankOn
  dsimp only
  split
  · exact (byteAt_scrub ..).trans (if_pos h)
  · rfl

theorem byteAt_bankOn_other {a : Nat} (h : ¬ InBank d b a) : byteAt (bankOn s d b) a = byteAt s a := by
  unfold bankOn
  dsimp only
  split
  · exact (byteAt_scrub ..).trans (if_neg h)
  · rfl

theorem bankSt_bankOn : (bankSt (bankOn s d b) d b).state = .on ∧
    (bankSt (bankOn s d b) d b).request = (bankSt s d b).request := by
  unfold bankOn
  dsimp only
  rw [bankSt_modBank_same]
  refine ⟨rfl, ?_⟩
  split
  · exact bankSt_scrub_request ..
  · rfl

theorem bankOn_regs : (bankOn s d b).regs = s.regs := by
  unfold bankOn
  dsimp only
  split <;> simp

/-- A bank that turns OFF loses its contents. 08_memory.md R192. -/
theorem byteAt_bankOff_in {a : Nat} (h : InBank d b a) : byteAt (bankOff s d b) a = 0#8 :=
  (byteAt_scrub ..).trans (if_pos h)

theorem byteAt_bankOff_other {a : Nat} (h : ¬ InBank d b a) : byteAt (bankOff s d b) a = byteAt s a :=
  (byteAt_scrub ..).trans (if_neg h)

theorem bankSt_bankOff : (bankSt (bankOff s d b) d b).state = .off ∧
    (bankSt (bankOff s d b) d b).request = (bankSt s d b).request := by
  unfold bankOff
  rw [bankSt_modBank_same]
  exact ⟨rfl, bankSt_scrub_request ..⟩

theorem bankOff_regs : (bankOff s d b).regs = s.regs := by
  unfold bankOff
  simp

end

/-! ## Requests of a bank -/

/-- bank_request of a bank holds a value. 08_memory.md R193. -/
def asked (s : State) (d b req : Nat) : State := modBank s d b fun x => { x with request := req }

theorem bankSt_asked (s : State) (d b req : Nat) : bankSt (asked s d b req) d b = { bankSt s d b with request := req } :=
  bankSt_modBank_same ..

/-- With an operator session a write of bank_request is a request of the bank that bank_sel names. 14_host.md R321. -/
theorem bankWrite_session {s : State} (h : pfSession s = true) (d : Die) (req : Nat) :
    bankWrite d req s = .next (bankRequest s d (rget s .mem_bank_sel d 0) req) := if_pos h

section
variable {s : State} {d b : Nat}

theorem bankRequest_on (hb : b < bankCount d) (hr : (bankSt s d b).retired = false) :
    bankRequest s d b 1 = bankOn (asked s d b 1) d b := by
  unfold bankRequest
  rw [if_neg (Nat.not_le_of_lt hb)]
  dsimp only
  rw [if_pos rfl, hr]
  rfl

theorem bankRequest_off (hb : b < bankCount d) (hu : bankInUse s d b = false) :
    bankRequest s d b 3 = bankOff (asked s d b 3) d b := by
  unfold bankRequest
  rw [if_neg (Nat.not_le_of_lt hb), hu]
  rfl

theorem bankRequest_offRefused (hb : b < bankCount d) (hu : bankInUse s d b = true) :
    bankRequest s d b 3 = rset s .mem_bank_request_refused d b 1 := by
  unfold bankRequest
  rw [if_neg (Nat.not_le_of_lt hb), hu]
  rfl

/-- An ON bank goes to RETAIN at once, or at the end of the segment that uses it. -/
theorem bankRequest_retain (hb : b < bankCount d) (ho : (bankSt s d b).state = .on) :
    bankRequest s d b 2 = modBank (asked s d b 2) d b fun x =>
      if segmentUses s d b then { x with retainDue := true } else { x with state := .retain } := by
  unfold bankRequest
  rw [if_neg (Nat.not_le_of_lt hb)]
  dsimp only
  rw [if_neg (by decide), if_pos rfl, if_neg (by simp [ho])]
  split <;> rfl

/-- Automatic control follows the allocations. -/
theorem bankRequest_automatic (hb : b < bankCount d) (hr : (bankSt s d b).retired = false) :
    bankRequest s d b 0 = if bankInUse s d b then bankOn (asked s d b 0) d b else bankOff (asked s d b 0) d b := by
  unfold bankRequest
  rw [if_neg (Nat.not_le_of_lt hb)]
  dsimp only
  rw [if_neg (by decide), if_neg (by decide), if_neg (by decide), hr]
  rfl

end

/-! ## In-service test and error log -/

/-- A test without faults of a bank that has a spare for its contents is counted and noted in the die's health.
16_lifecycle.md R384. -/
theorem execBankTest_sound {d : Die} {b : Nat} {s : State} (hb : b < bankCount d.val) (ho : (bankSt s d b).state = .on)
    (hs : spareBank s d b = true) : execBankTest d b false [] s =
      .next (modDie (bump s .life_TESTS_RUN 0) d fun x => { x with bistResult := 0, bistWhen := 2 }) := by
  unfold execBankTest
  dsimp only
  rw [if_neg (by decide), if_neg (by simp [ho, hb]), hs]
  rfl

/-- With an operator session the oldest record of the log goes. 08_memory.md R184. -/
theorem execErrPop_session {s : State} (h : pfSession s = true) (d : Die) :
    execErrPop d s = .next (modMem s fun m => { m with errs := amod m.errs d.val fun l => l.drop 1 }) := if_pos h

theorem execBankRetainIdle_idle {d : Die} {b : Nat} {s : State} (hb : b < bankCount d.val) (ho : (bankSt s d b).state = .on)
    (hr : (bankSt s d b).request = 0) :
    execBankRetainIdle d b s = .next (modBank s d b fun x => { x with state := .retain }) :=
  if_neg (by simp [ho, hr, hb])

section
variable {d : Die} {b : Nat} {s : State} (hs : pfSession s = true) (hsel : b = rget s .mem_bank_sel d.val 0)
  (hb : b < bankCount d.val)
include hs hsel hb

/-- BANK_FORCE_ON. 08_memory.md R193. -/
theorem completes_bankForceOn (hr : (bankSt s d.val b).retired = false) : Completes (.bankForceOn d) s fun t =>
    (bankSt t d.val b).state = .on ∧ (bankSt t d.val b).request = 1 ∧
      (∀ a, InBank d.val b a → byteAt t a = if (bankSt s d.val b).state = .off then 0#8 else byteAt s a) ∧
      (∀ a, ¬ InBank d.val b a → byteAt t a = byteAt s a) ∧ t.regs = s.regs := by
  have hx := bankWrite_session hs d 1
  rw [← hsel, bankRequest_on hb hr] at hx
  obtain ⟨hstate, hreq⟩ := bankSt_bankOn (asked s d b 1) d b
  refine completes_of_exec hx ⟨hstate, by rw [hreq, bankSt_asked], fun a ha => ?_, fun a ha => byteAt_bankOn_other _ _ _ ha,
    bankOn_regs ..⟩
  rw [byteAt_bankOn_in _ _ _ ha, bankSt_asked]
  rfl

/-- BANK_FORCE_OFF of a bank without allocations. 08_memory.md R193. -/
theorem completes_bankForceOff (hu : bankInUse s d.val b = false) : Completes (.bankForceOff d) s fun t =>
    (bankSt t d.val b).state = .off ∧ (bankSt t d.val b).request = 3 ∧ (∀ a, InBank d.val b a → byteAt t a = 0#8) ∧
      (∀ a, ¬ InBank d.val b a → byteAt t a = byteAt s a) ∧ t.regs = s.regs := by
  have hx := bankWrite_session hs d 3
  rw [← hsel, bankRequest_off hb hu] at hx
  obtain ⟨hstate, hreq⟩ := bankSt_bankOff (asked s d b 3) d b
  exact completes_of_exec hx ⟨hstate, by rw [hreq, bankSt_asked], fun a => byteAt_bankOff_in _ _ _,
    fun a ha => byteAt_bankOff_other _ _ _ ha, bankOff_regs ..⟩

/-- BANK_FORCE_OFF of a bank with allocations. 08_memory.md R193. -/
theorem completes_bankForceOff_refused (hu : bankInUse s d.val b = true) : Completes (.bankForceOff d) s fun t =>
    rget t .mem_bank_request_refused d.val b = 1 ∧ t = { s with regs := t.regs } := by
  have hx := bankWrite_session hs d 3
  rw [← hsel, bankRequest_offRefused hb hu] at hx
  exact completes_of_exec hx ⟨by rw [rget_rset_same]; decide, rfl⟩

/-- BANK_FORCE_RETAIN of an ON bank. 08_memory.md R193. -/
theorem completes_bankForceRetain (ho : (bankSt s d.val b).state = .on) : Completes (.bankForceRetain d) s fun t =>
    (bankSt t d.val b).state = (if segmentUses s d.val b then .on else .retain) ∧ (bankSt t d.val b).request = 2 ∧
      (segmentUses s d.val b = true → (bankSt t d.val b).retainDue = true) ∧
      t = { s with mem := { s.mem with banks := t.mem.banks } } := by
  have hx := bankWrite_session hs d 2
  rw [← hsel, bankRequest_retain hb ho] at hx
  refine completes_of_exec hx ?_
  rw [bankSt_modBank_same, bankSt_asked]
  by_cases hu : segmentUses s d.val b = true
  · rw [if_pos hu, if_pos hu]
    exact ⟨ho, rfl, fun _ => rfl, rfl⟩
  · rw [if_neg hu, if_neg hu]
    exact ⟨rfl, rfl, fun h => absurd h hu, rfl⟩

/-- BANK_AUTOMATIC. 08_memory.md R193. -/
theorem completes_bankAutomatic (hr : (bankSt s d.val b).retired = false) : Completes (.bankAutomatic d) s fun t =>
    (bankSt t d.val b).request = 0 ∧ (bankSt t d.val b).state = (if bankInUse s d.val b then .on else .off) ∧
      (∀ a, ¬ InBank d.val b a → byteAt t a = byteAt s a) := by
  have hx := bankWrite_session hs d 0
  rw [← hsel, bankRequest_automatic hb hr] at hx
  refine completes_of_exec hx ?_
  by_cases hu : bankInUse s d.val b = true
  · rw [if_pos hu, if_pos hu]
    obtain ⟨hstate, hreq⟩ := bankSt_bankOn (asked s d b 0) d b
    exact ⟨by rw [hreq, bankSt_asked], hstate, fun a ha => byteAt_bankOn_other _ _ _ ha⟩
  · rw [if_neg hu, if_neg hu]
    obtain ⟨hstate, hreq⟩ := bankSt_bankOff (asked s d b 0) d b
    exact ⟨by rw [hreq, bankSt_asked], hstate, fun a ha => byteAt_bankOff_other _ _ _ ha⟩

end

/-- Settles O26: the patrol by `execPatrolScrubRead_clean`, the entry into self-refresh by `execSelfRefreshEntry_enters`, the
requests of a bank each by its lemma over `bankOn` and `bankOff`, the test by `execBankTest_sound` and the error log by
`execErrPop_session`. -/
theorem patrolRefreshAndBanks : Obligations.PatrolRefreshAndBanks := by
  unfold Obligations.PatrolRefreshAndBanks
  refine ⟨fun d off s ho hclean => completes_of_exec (execPatrolScrubRead_clean ho hclean)
      ⟨agetD_aset_same .., rfl, rfl, rfl, rfl⟩,
    fun k pc s hpc hin => completes_of_exec (execSelfRefreshEntry_enters hpc hin) ?_,
    fun d b s hb ho hr => completes_of_exec (execBankRetainIdle_idle hb ho hr) ⟨rfl, rfl⟩,
    fun d b s hs hsel hb hr => ⟨completes_bankForceOn hs hsel hb hr, completes_bankForceOff hs hsel hb,
      completes_bankForceOff_refused hs hsel hb, completes_bankForceRetain hs hsel hb, completes_bankAutomatic hs hsel hb hr⟩,
    fun d b s hb ho hspare => completes_of_exec (execBankTest_sound hb ho hspare) ?_,
    fun d r l s hs hl => completes_of_exec (execErrPop_session hs d) ?_⟩
  · rw [stackSt_modStack_same]
    refine ⟨rfl, fun p hp => ?_, fun j hj => stackSt_modStack_other s hj _, rfl, rfl⟩
    simpa using (List.mem_filter.mp hp).2
  · rw [dieHealth_modDie_same]
    exact ⟨rfl, rfl, rfl, rget_bump_same .., rget_bump_other _ (by decide) ..⟩
  · refine ⟨?_, fun e he => aget_amod_other he .., rfl⟩
    rw [modMem_mem, aget_amod_same, hl]
    rfl

end Sys2Proof.Proofs

namespace Sys2Proof.Proofs
open Sys2Proof.Machine Sys2Proof.Laws

/-!
The rows of the index (O29) and its upkeep (O30). The first part shows that a read through the word code, whatever it repairs
on its way, leaves the index and the registers of its block alone. The second says what an insert does to the one block it
works in: the hole moves to the new row's place, no row beside the block changes, and the block holds one row more. The
commands are then put together from these.
-/

/-! ## What an access to memory leaves of the index -/

/-- The index and the registers of its block: what the operations on it look at. -/
def indexPart (s : State) : ChiveSt × (Reg → Nat → Nat → Nat) :=
  (s.chive, fun r i e => if r.info.blk = .chive then rget s r i e else 0)

theorem chive_of_indexPart {s t : State} (h : indexPart t = indexPart s) : t.chive = s.chive := congrArg (·.1) h

theorem rget_of_indexPart {s t : State} (h : indexPart t = indexPart s) {r : Reg} (hr : r.info.blk = .chive) (i e : Nat) :
    rget t r i e = rget s r i e := by
  have := congrFun (congrFun (congrFun (congrArg (·.2) h) r) i) e
  simpa [indexPart, hr] using this

theorem indexPart_of_rget {s t : State} (hc : t.chive = s.chive)
    (hr : ∀ (r : Reg) (i e : Nat), r.info.blk = .chive → rget t r i e = rget s r i e) : indexPart t = indexPart s := by
  refine Prod.ext hc (funext fun r => funext fun i => funext fun e => ?_)
  by_cases h : r.info.blk = .chive
  · simpa [indexPart, h] using hr r i e h
  · simp [indexPart, h]

theorem indexPart_of_regs {s t : State} (hc : t.chive = s.chive) (hr : t.regs = s.regs) : indexPart t = indexPart s :=
  indexPart_of_rget hc fun r i e _ => rget_congr hr r i e

/-- The state that an operation gives with a result. -/
theorem indexPart_of_eq {α : Type} {s t : State} {p : State × α} {r : α} (h : indexPart p.1 = indexPart s) (e : p = (t, r)) :
    indexPart t = indexPart s := by
  subst e
  exact h

/-- A register of the index is none of another block. -/
theorem ne_of_chive {r r' : Reg} (h : r.info.blk = .chive) (h' : r'.info.blk ≠ .chive) : r ≠ r' := fun e => h' (e ▸ h)

/-! ### Registers and records -/

theorem indexPart_bump (s : State) {r : Reg} (h : r.info.blk ≠ .chive) (i : Nat) : indexPart (bump s r i) = indexPart s :=
  indexPart_of_rget (by simp) fun _ _ _ hc => rget_bump_other s (ne_of_chive hc h) ..

@[simp] theorem indexPart_fresh (s : State) : indexPart (fresh s).2 = indexPart s := rfl

@[simp] theorem indexPart_journal (s : State) (h type : Nat) (payload : List Byte) :
    indexPart (journal s h type payload) = indexPart s :=
  indexPart_of_rget (by simp) fun _ _ _ hc => rget_journal_other s _ _ _ (ne_of_chive hc (by decide)) ..

@[simp] theorem indexPart_healthEvent (s : State) (die bit v : Nat) : indexPart (healthEvent s die bit v) = indexPart s :=
  indexPart_of_rget (by simp) fun _ _ _ hc =>
    rget_healthEvent_other s _ _ _ (ne_of_chive hc (by decide)) (ne_of_chive hc (by decide)) ..

@[simp] theorem indexPart_logErr (s : State) (x : ErrRec) : indexPart (logErr s x) = indexPart s :=
  indexPart_of_rget (by simp) fun _ _ _ hc => rget_logErr_other s x (ne_of_chive hc (by decide)) ..

@[simp] theorem indexPart_modDie (s : State) (d : Nat) (f : DieHealth → DieHealth) : indexPart (modDie s d f) = indexPart s :=
  rfl

@[simp] theorem indexPart_kgmAdd (s : State) (die kind unit loc v : Nat) :
    indexPart (kgmAdd s die kind unit loc v) = indexPart s := indexPart_of_regs (by simp) (by simp)

@[simp] theorem indexPart_badWord (s : State) (cls sy die reader off : Nat) :
    indexPart (badWord s cls sy die reader off) = indexPart s := by
  simp [badWord, indexPart_bump s (show Reg.mem_UNCORRECTABLE.info.blk ≠ .chive by decide)]

/-! ### Words -/

@[simp] theorem indexPart_modMem (s : State) (f : MemSt → MemSt) : indexPart (modMem s f) = indexPart s := rfl

@[simp] theorem indexPart_modBank (s : State) (die b : Nat) (f : Bank → Bank) : indexPart (modBank s die b f) = indexPart s :=
  rfl

@[simp] theorem indexPart_setChk (s : State) (l : Assoc Nat Nat) : indexPart (setChk s l) = indexPart s := rfl

@[simp] theorem indexPart_touchBanks (s : State) (a n : Nat) : indexPart (touchBanks s a n) = indexPart s :=
  indexPart_of_regs (by simp) (by simp)

@[simp] theorem indexPart_poke (s : State) (a : Nat) (bs : List Byte) : indexPart (poke s a bs) = indexPart s :=
  indexPart_of_regs (by simp) (by simp)

@[simp] theorem indexPart_scrub (s : State) (a n : Nat) : indexPart (scrub s a n) = indexPart s :=
  indexPart_of_regs (by simp) (by simp)

@[simp] theorem indexPart_readWord (s : State) (a reader : Nat) : indexPart (readWord s a reader).1 = indexPart s := by
  unfold readWord
  dsimp only
  split
  · rfl
  · split
    · rfl
    · simp [indexPart_bump s (show Reg.mem_CORRECTED.info.blk ≠ .chive by decide)]
    · simp

/-! ### Moving what lies in SRAM, and repair -/

@[simp] theorem indexPart_moveWords : ∀ (n : Nat) (s : State) (src dst : Nat), indexPart (moveWords n s src dst) = indexPart s
  | 0, _, _, _ => rfl
  | n + 1, s, src, dst => by
    unfold moveWords
    split
    all_goals
      next e => simp [indexPart_moveWords n, indexPart_of_eq (indexPart_readWord ..) e]

@[simp] theorem indexPart_moveRaw (s : State) (src dst n : Nat) : indexPart (moveRaw s src dst n) = indexPart s := by
  unfold moveRaw
  dsimp only
  split <;> simp

@[simp] theorem indexPart_renameSram (s : State) (src dst n : Nat) : indexPart (renameSram s src dst n) = indexPart s :=
  indexPart_of_regs (by simp) (by simp)

theorem indexPart_allocSram {s t : State} {die tenant n a : Nat} {kind : SramKind}
    (h : allocSram s die tenant n kind = some (t, a)) : indexPart t = indexPart s := by
  obtain ⟨u, -, e⟩ := Option.map_eq_some_iff.mp h
  cases e
  exact indexPart_of_regs (by simp) (by simp)

@[simp] theorem indexPart_freeSram (s : State) (a : Nat) : indexPart (freeSram s a) = indexPart s := by
  rw [freeSram_rest]
  rfl

@[simp] theorem indexPart_moveHold (s : State) (h : SramHold) : indexPart (moveHold s h) = indexPart s := by
  unfold moveHold
  split
  · rfl
  · next e => simp [indexPart_allocSram e]

@[simp] theorem indexPart_moveArea (s : State) (die b : Nat) : indexPart (moveArea s die b) = indexPart s := by
  unfold moveArea
  split
  · split
    · rfl
    · next e => simp [indexPart_allocSram e]
  · rfl

@[simp] theorem indexPart_retireBank (s : State) (die b : Nat) : indexPart (retireBank s die b) = indexPart s := by
  unfold retireBank
  dsimp only
  split <;> simp [foldl_part indexPart indexPart_moveHold]

@[simp] theorem indexPart_repairColumn (s : State) (die b col : Nat) : indexPart (repairColumn s die b col) = indexPart s := by
  unfold repairColumn
  dsimp only
  split
  · simp
  · simp [apply_ite]

@[simp] theorem indexPart_repairRow (s : State) (die off : Nat) : indexPart (repairRow s die off) = indexPart s := by
  simp [repairRow]

@[simp] theorem indexPart_mend (s : State) (a : Nat) (fix : Option (Nat × Nat)) : indexPart (mend s a fix) = indexPart s := by
  cases fix with
  | none => rfl
  | some p =>
    unfold mend repairWord
    dsimp only
    split
    · split
      · simp
      · split
        · rfl
        · simp
    · rfl

/-! ### Reads -/

@[simp] theorem indexPart_loadWords :
    ∀ (n : Nat) (s : State) (a reader : Nat), indexPart (loadWords n s a reader).1 = indexPart s
  | 0, _, _, _ => rfl
  | n + 1, s, a, reader => by
    unfold loadWords
    split
    all_goals
      next e => simp [indexPart_loadWords n, indexPart_of_eq (indexPart_readWord ..) e]

@[simp] theorem indexPart_load (s : State) (a n reader : Nat) : indexPart (load s a n reader).1 = indexPart s := by
  unfold load
  dsimp only
  split
  · split
    all_goals
      next e => simp [indexPart_of_eq (indexPart_loadWords ..) e]
  · simp

/-- A read of a header leaves the index. -/
theorem indexPart_loadHdr (s : State) (lpn reader : Nat) : indexPart (loadHdr s lpn reader).1 = indexPart s := by
  unfold loadHdr
  split
  all_goals
    next e => exact indexPart_of_eq (indexPart_load ..) e

/-- Without deviating check bits a read of a header leaves the bytes of memory. -/
theorem loadHdr_cells {s : State} (h : s.mem.chk = []) (lpn reader : Nat) :
    (loadHdr s lpn reader).1.mem.cells = s.mem.cells := by
  rw [loadHdr, load_clean h]
  exact touchBanks_cells ..

/-! ### What the operations of the index look at -/

section
variable {s t : State} (hp : indexPart t = indexPart s) (h : Nat)
include hp

theorem homeBlock_of_indexPart (cls key : Nat) : homeBlock t h cls key = homeBlock s h cls key := by
  rw [homeBlock, rget_of_indexPart hp rfl, rget_of_indexPart hp rfl, homeBlock]

theorem otFind_of_indexPart (cls key : Nat) : otFind t h cls key = otFind s h cls key := by
  simp only [otFind, probeBuckets, otBuckets, otRows, rget_of_indexPart hp (r := .chive_ot_mib) rfl, chive_of_indexPart hp]

theorem rowOf_of_indexPart (cls key : Nat) : rowOf t h cls key = rowOf s h cls key := by
  rw [rowOf, homeBlock_of_indexPart hp, chive_of_indexPart hp, otFind_of_indexPart hp, rowOf]

theorem roomFor_of_indexPart {row : ChiveRow} (hr : RoomFor s h row) : RoomFor t h row := by
  rw [RoomFor, homeBlock_of_indexPart hp, overflowed, chive_of_indexPart hp]
  exact hr

end
/-! ## One block (09_chive.md R203, R206, R207) -/

/-! ### A row is written -/

section
variable (s : State) (h pos : Nat) (r : Option ChiveRow)

theorem shadow_rowWrite_same : aget (rowWrite s h pos r).chive.shadow (h, pos) = r := by
  cases r with
  | none => exact aget_adel_same ..
  | some x => exact aget_aset_same ..

theorem cam_rowWrite_same : aget (rowWrite s h pos r).chive.cam (h, pos) = r := by
  cases r with
  | none => exact aget_adel_same ..
  | some x => exact aget_aset_same ..

theorem shadow_rowWrite_other {x : Nat × Nat} (hx : x ≠ (h, pos)) :
    aget (rowWrite s h pos r).chive.shadow x = aget s.chive.shadow x := by
  cases r with
  | none => exact aget_adel_other hx _
  | some y => exact aget_aset_other hx y _

end

/-! ### The rows of a block -/

/-- The shadow row at an offset of a block. -/
def rowAt (s : State) (h block i : Nat) : Option ChiveRow := aget s.chive.shadow (h, block * 16 + i)

/-- How many rows a block holds. -/
def rowCount (s : State) (h block : Nat) : Nat := (blockRows s.chive.shadow h block).length

theorem rowCount_congr {s t : State} (h : t.chive = s.chive) (k block : Nat) : rowCount t k block = rowCount s k block := by
  rw [rowCount, h, rowCount]

theorem mem_blockRows {tab : Assoc (Nat × Nat) ChiveRow} {h block : Nat} {p : Nat × ChiveRow} :
    p ∈ blockRows tab h block ↔ p.1 < 16 ∧ aget tab (h, block * 16 + p.1) = some p.2 := by
  obtain ⟨i, r⟩ := p
  simp only [blockRows, List.mem_filterMap, List.mem_range, Option.map_eq_some_iff, Prod.mk.injEq]
  constructor
  · rintro ⟨_, hi, _, hr, rfl, rfl⟩
    exact ⟨hi, hr⟩
  · rintro ⟨hi, hr⟩
    exact ⟨i, hi, r, hr, rfl, rfl⟩

/-- The rows of a block are counted over its offsets. -/
theorem rowCount_eq_countP (s : State) (h block : Nat) :
    rowCount s h block = (List.range 16).countP fun i => (rowAt s h block i).isSome := by
  simp only [rowCount, blockRows, List.length_filterMap_eq_countP, Option.isSome_map]
  rfl

/-- A block that is not full has a hole. -/
theorem exists_hole {s : State} {h block : Nat} (hc : rowCount s h block < 16) : ∃ i, i < 16 ∧ rowAt s h block i = none := by
  refine Classical.byContradiction fun hn => Nat.ne_of_lt hc ?_
  rw [rowCount_eq_countP]
  refine List.countP_eq_length.mpr fun i hi => ?_
  exact Option.isSome_iff_ne_none.mpr fun e => hn ⟨i, List.mem_range.mp hi, e⟩

/-- The rows of a block are those at one offset and those at the others. -/
theorem rowCount_split (s : State) (h block : Nat) {i : Nat} (hi : i < 16) : rowCount s h block =
    ((List.range 16).erase i).countP (fun j => (rowAt s h block j).isSome) + b2n (rowAt s h block i).isSome := by
  rw [rowCount_eq_countP, (List.perm_cons_erase (List.mem_range.mpr hi)).countP_eq, List.countP_cons]
  rfl

/-- A write trades the row at its offset for the new one. -/
theorem rowCount_rowWrite (s : State) (h block : Nat) {i : Nat} (hi : i < 16) (r : Option ChiveRow) :
    rowCount (rowWrite s h (block * 16 + i) r) h block + b2n (rowAt s h block i).isSome =
      rowCount s h block + b2n r.isSome := by
  have hsame : rowAt (rowWrite s h (block * 16 + i) r) h block i = r := shadow_rowWrite_same ..
  have hrest : ((List.range 16).erase i).countP (fun j => (rowAt (rowWrite s h (block * 16 + i) r) h block j).isSome) =
      ((List.range 16).erase i).countP fun j => (rowAt s h block j).isSome := List.countP_congr fun j hj => by
    have hne : j ≠ i := (List.nodup_range.mem_erase_iff.mp hj).1
    have hj : rowAt (rowWrite s h (block * 16 + i) r) h block j = rowAt s h block j :=
      shadow_rowWrite_other _ _ _ _ fun e => hne (Nat.add_left_cancel (Prod.mk.inj e).2)
    rw [hj]
  rw [rowCount_split _ h block hi, rowCount_split s h block hi, hsame, hrest]
  omega

/-! ### What stays in one block -/

/-- From s to t only rows of one block of a hub have changed; the tables, flags and scans of the index stand, and keys keep
their home blocks. -/
structure BlockOnly (h block : Nat) (s t : State) : Prop where
  shadow : ∀ g p, (g, p / 16) ≠ (h, block) → aget t.chive.shadow (g, p) = aget s.chive.shadow (g, p)
  rest : t.chive = { s.chive with shadow := t.chive.shadow, cam := t.chive.cam }
  home : ∀ g cls key, homeBlock t g cls key = homeBlock s g cls key

namespace BlockOnly
variable {h block : Nat} {a s t : State}

theorem refl (s : State) : BlockOnly h block s s := ⟨fun _ _ _ => rfl, rfl, fun _ _ _ => rfl⟩

theorem trans (f : BlockOnly h block a s) (g : BlockOnly h block s t) : BlockOnly h block a t where
  shadow i p hp := (g.shadow i p hp).trans (f.shadow i p hp)
  rest := by rw [g.rest, f.rest]
  home i cls key := (g.home i cls key).trans (f.home i cls key)

theorem ovf (f : BlockOnly h block s t) : t.chive.ovf = s.chive.ovf := by rw [f.rest]

theorem scan (f : BlockOnly h block s t) : t.chive.scan = s.chive.scan := by rw [f.rest]

theorem rowWrite (s : State) (h block : Nat) {i : Nat} (hi : i < 16) (r : Option ChiveRow) :
    BlockOnly h block s (rowWrite s h (block * 16 + i) r) where
  shadow g p hp := shadow_rowWrite_other _ _ _ _ fun e => hp (by
    obtain ⟨rfl, rfl⟩ := Prod.mk.inj e
    exact congrArg (Prod.mk g) (by omega))
  rest := by cases r <;> rfl
  home _ _ _ := rfl

/-- A counter other than the places of the partitions. -/
theorem bumpBy (s : State) {r : Reg} (hb : Reg.chive_part_base ≠ r) (hn : Reg.chive_part_blocks ≠ r) (i n : Nat) :
    BlockOnly h block s (bumpBy s r i n) where
  shadow _ _ _ := by rw [bumpBy_chive]
  rest := by rw [bumpBy_chive]
  home g cls key := by
    simp only [homeBlock, Machine.bumpBy]
    rw [rget_rset_other s _ fun he => hb (Prod.mk.inj he).1, rget_rset_other s _ fun he => hn (Prod.mk.inj he).1]

theorem chiveBump (s : State) {r : Reg} (hb : Reg.chive_part_base ≠ r) (hn : Reg.chive_part_blocks ≠ r) (i : Nat) :
    BlockOnly h block s (chiveBump s i r) := bumpBy s hb hn i 1

end BlockOnly

/-! ### The hole moves to the place of a new row -/

theorem shiftUp_succ (s : State) (h block lo n : Nat) : shiftUp s h block lo (n + 1) =
    shiftUp (rowWrite s h (block * 16 + (lo + (n + 1))) (rowAt s h block (lo + n))) h block lo n := by
  simp only [shiftUp, rowAt, Nat.add_assoc]

theorem shiftDown_succ (s : State) (h block lo n : Nat) : shiftDown s h block lo (n + 1) =
    shiftDown (rowWrite s h (block * 16 + lo) (rowAt s h block (lo + 1))) h block (lo + 1) n := rfl

/-- The rows between the place and the hole move up; the block holds as many as before, beside the row at the place. -/
theorem shiftUp_block (h block lo : Nat) : ∀ (n : Nat) (s : State), lo + n < 16 →
    BlockOnly h block s (shiftUp s h block lo n) ∧
    rowCount (shiftUp s h block lo n) h block + b2n (rowAt s h block (lo + n)).isSome =
      rowCount s h block + b2n (rowAt (shiftUp s h block lo n) h block lo).isSome
  | 0, s, _ => ⟨.refl s, rfl⟩
  | n + 1, s, hn => by
    rw [shiftUp_succ]
    generalize hw : rowWrite s h (block * 16 + (lo + (n + 1))) (rowAt s h block (lo + n)) = u
    have hu : BlockOnly h block s u := hw ▸ .rowWrite s h block hn _
    have hc : rowCount u h block + b2n (rowAt s h block (lo + (n + 1))).isSome =
        rowCount s h block + b2n (rowAt s h block (lo + n)).isSome := hw ▸ rowCount_rowWrite s h block hn _
    have hr : rowAt u h block (lo + n) = rowAt s h block (lo + n) := hw ▸
      shadow_rowWrite_other _ _ _ _ fun e => by simp at e
    obtain ⟨hv, hd⟩ := shiftUp_block h block lo n u (by omega)
    rw [hr] at hd
    exact ⟨hu.trans hv, by omega⟩

/-- The rows between the hole and the place move down; the block holds as many as before, beside the row at the place. -/
theorem shiftDown_block (h block : Nat) : ∀ (n lo : Nat) (s : State), lo + n < 16 →
    BlockOnly h block s (shiftDown s h block lo n) ∧
    rowCount (shiftDown s h block lo n) h block + b2n (rowAt s h block lo).isSome =
      rowCount s h block + b2n (rowAt (shiftDown s h block lo n) h block (lo + n)).isSome
  | 0, lo, s, _ => ⟨.refl s, rfl⟩
  | n + 1, lo, s, hn => by
    rw [shiftDown_succ]
    generalize hw : rowWrite s h (block * 16 + lo) (rowAt s h block (lo + 1)) = u
    have hu : BlockOnly h block s u := hw ▸ .rowWrite s h block (by omega) _
    have hc : rowCount u h block + b2n (rowAt s h block lo).isSome =
        rowCount s h block + b2n (rowAt s h block (lo + 1)).isSome := hw ▸ rowCount_rowWrite s h block (by omega) _
    have hr : rowAt u h block (lo + 1) = rowAt s h block (lo + 1) := hw ▸
      shadow_rowWrite_other _ _ _ _ fun e => by simp at e
    obtain ⟨hv, hd⟩ := shiftDown_block h block n (lo + 1) u (by omega)
    rw [hr] at hd
    rw [Nat.add_comm n 1, ← Nat.add_assoc]
    exact ⟨hu.trans hv, by omega⟩

/-- A new row's place, the hole taken and the rows moved: both lie in the block, the hole is free, and as many rows stand
between them as move. 09_chive.md R207. -/
def PlaceFits (rows : List (Nat × ChiveRow)) : Nat × Bool × Nat × Nat → Prop
  | (at_, up, hole, moves) =>
    hole < 16 ∧ (∀ p ∈ rows, p.1 ≠ hole) ∧ at_ < 16 ∧ if up then hole = at_ + moves else at_ = hole + moves

theorem insertPlace_fits {rows : List (Nat × ChiveRow)} (hin : ∀ p ∈ rows, p.1 < 16)
    (hfree : ∃ i, i < 16 ∧ ∀ p ∈ rows, p.1 ≠ i) (prio : Nat) : PlaceFits rows (insertPlace rows prio) := by
  unfold insertPlace
  extract_lets place holes after before
  have hmem {i : Nat} : i ∈ holes ↔ i < 16 ∧ ∀ p ∈ rows, p.1 ≠ i := by simp [holes]
  have hplace : place ≤ 16 := by
    unfold place
    cases hl : (((rows.filter fun p => decide (prio ≤ p.2.prio)).map fun p => p.1 + 1).getLast?) with
    | none => simp
    | some x =>
      obtain ⟨p, hp, rfl⟩ := List.mem_map.mp (List.mem_of_getLast? hl)
      exact hin p (List.mem_filter.mp hp).1
  have hup {a : Nat} (h : after = some a) : PlaceFits rows (place, true, a, a - place) := by
    obtain ⟨ha, hfull⟩ := hmem.mp (List.mem_of_find?_eq_some h)
    have hle : place ≤ a := by simpa using List.find?_some h
    exact ⟨ha, hfull, by omega, show a = place + (a - place) by omega⟩
  have hdown {b : Nat} (h : before = some b) : PlaceFits rows (place - 1, false, b, place - 1 - b) := by
    obtain ⟨hb, hlt⟩ : b ∈ holes ∧ b < place := by simpa using List.mem_filter.mp (List.mem_of_getLast? h)
    exact ⟨(hmem.mp hb).1, (hmem.mp hb).2, by omega, show place - 1 = b + (place - 1 - b) by omega⟩
  cases hb : before with
  | some b =>
    cases ha : after with
    | some a =>
      dsimp only
      split
      · exact hup ha
      · exact hdown hb
    | none => exact hdown hb
  | none =>
    cases ha : after with
    | some a => exact hup ha
    | none =>
      obtain ⟨i, hi⟩ := hfree
      have hm : i ∈ holes := hmem.mpr hi
      have hge : ¬ place ≤ i := by simpa using List.find?_eq_none.mp ha i hm
      have hlt : i ∈ holes.filter fun i => decide (i < place) := List.mem_filter.mpr ⟨hm, by simpa using hge⟩
      rw [List.getLast?_eq_none_iff.mp hb] at hlt
      cases hlt

/-- A hole of a block has moved to the place of a new row. -/
def holeMoved (s : State) (h block : Nat) : Nat × Bool × Nat × Nat → State
  | (at_, up, hole, moves) => if up then shiftUp s h block at_ moves else shiftDown s h block hole moves

/-- With the hole at the place the block holds as many rows as before beside it. -/
theorem holeMoved_block {s : State} {h block : Nat} {x : Nat × Bool × Nat × Nat}
    (hx : PlaceFits (blockRows s.chive.shadow h block) x) : BlockOnly h block s (holeMoved s h block x) ∧
    rowCount (holeMoved s h block x) h block = rowCount s h block + b2n (rowAt (holeMoved s h block x) h block x.1).isSome := by
  obtain ⟨at_, up, hole, moves⟩ := x
  obtain ⟨h16, hfree, hat, hmoves⟩ := hx
  have hhole : rowAt s h block hole = none := by
    cases hr : rowAt s h block hole with
    | none => rfl
    | some r => exact absurd rfl (hfree (hole, r) (mem_blockRows.mpr ⟨h16, hr⟩))
  cases up with
  | true =>
    have hm : hole = at_ + moves := by simpa using hmoves
    obtain ⟨hs, hn⟩ := shiftUp_block h block at_ moves s (hm ▸ h16)
    rw [← hm, hhole] at hn
    exact ⟨hs, hn⟩
  | false =>
    have hm : at_ = hole + moves := by simpa using hmoves
    obtain ⟨hs, hn⟩ := shiftDown_block h block moves hole s (hm ▸ hat)
    rw [← hm, hhole] at hn
    exact ⟨hs, hn⟩

/-- An insert into a block: the hole moves to the place that R207 gives the row, and the row is written there. -/
theorem insertBlock_eq {s : State} {h block : Nat} {row : ChiveRow} (hb : homeBlock s h row.cls row.key = block)
    {x : Nat × Bool × Nat × Nat} (hx : insertPlace (blockRows s.chive.shadow h block) row.prio = x) :
    insertBlock s h row = chiveBump (rowWrite (bumpBy (holeMoved s h block x) .chive_MOVES h x.2.2.2) h
      (block * 16 + x.1) (some row)) h .chive_UPDATES := by
  unfold insertBlock
  dsimp only
  rw [hb, hx]
  rfl

/-- A row enters its home block where that is not full: it stands there, nothing beside the block has changed, and the block
holds one row more. -/
theorem insertBlock_spec {s : State} {h block : Nat} {row : ChiveRow} (hb : homeBlock s h row.cls row.key = block)
    (hc : rowCount s h block < 16) : BlockOnly h block s (insertBlock s h row) ∧ RowStands (insertBlock s h row) h row ∧
    rowCount (insertBlock s h row) h block = rowCount s h block + 1 := by
  obtain ⟨x, hx⟩ : ∃ x, insertPlace (blockRows s.chive.shadow h block) row.prio = x := ⟨_, rfl⟩
  have hfits : PlaceFits (blockRows s.chive.shadow h block) x := by
    obtain ⟨i, hi, hn⟩ := exists_hole hc
    refine hx ▸ insertPlace_fits (fun p hp => (mem_blockRows.mp hp).1) ⟨i, hi, fun p hp hpi => ?_⟩ _
    rw [rowAt, ← hpi, (mem_blockRows.mp hp).2] at hn
    cases hn
  obtain ⟨hmoved, hcount⟩ := holeMoved_block hfits
  have hat : x.1 < 16 := hfits.2.2.1
  have hblock : BlockOnly h block s (insertBlock s h row) := by
    rw [insertBlock_eq hb hx]
    exact ((hmoved.trans (.bumpBy _ (by decide) (by decide) _ _)).trans (.rowWrite _ h block hat _)).trans
      (.chiveBump _ (by decide) (by decide) _)
  have hchive : (insertBlock s h row).chive = (rowWrite (holeMoved s h block x) h (block * 16 + x.1) (some row)).chive := by
    rw [insertBlock_eq hb hx, chiveBump_chive]
    simp only [rowWrite, modChive_chive, bumpBy_chive]
  refine ⟨hblock, ⟨x.1, hat, ?_, ?_⟩, ?_⟩
  · rw [hblock.home, hb, hchive]
    exact shadow_rowWrite_same ..
  · rw [hblock.home, hb, hchive]
    exact cam_rowWrite_same ..
  · have hw := rowCount_rowWrite (holeMoved s h block x) h block hat (some row)
    rw [← rowCount_congr hchive, hcount, Option.isSome_some, show b2n true = 1 from rfl] at hw
    omega

/-! ## The commands of the index (09_chive.md R206 to R215) -/

/-! ### CHIVE_INSERT, CHIVE_DELETE, CHIVE_REPLACE -/

/-- A home block with room for a new key holds no row of it. -/
theorem room_noRow {s : State} {h : Nat} {row : ChiveRow} (hr : RoomFor s h row) :
    ((blockRows s.chive.shadow h (homeBlock s h row.cls row.key)).filter fun p => rowIs row.cls row.key p.2) = [] := by
  obtain ⟨-, -, -, hnew⟩ := hr
  exact List.filter_eq_nil_iff.mpr fun p hp => by simp [hnew p hp]

/-- A key without a row whose home block has room goes into the block. 09_chive.md R207. -/
theorem insert_room {s : State} {h : Nat} {row : ChiveRow} (hr : RoomFor s h row) :
    Machine.insert s h row = (insertBlock (chiveBump s h .chive_SEARCHES) h row, .done) := by
  have hmine := room_noRow hr
  obtain ⟨hovf, hret, hlen, -⟩ := hr
  have hret' : (h, homeBlock s h row.cls row.key) ∉ s.chive.retired := by simpa using hret
  simp [Machine.insert, hmine, hovf, hlen, hret']

/-- What an insert into a block with room leaves: the row in its home block, and beside it the counters alone. -/
theorem insert_room_spec {s : State} {h : Nat} {row : ChiveRow} (hr : RoomFor s h row) :
    BlockOnly h (homeBlock s h row.cls row.key) s (Machine.insert s h row).1 ∧ RowStands (Machine.insert s h row).1 h row := by
  have hb : BlockOnly h (homeBlock s h row.cls row.key) s (chiveBump s h .chive_SEARCHES) :=
    .chiveBump s (by decide) (by decide) h
  have hlen : rowCount s h (homeBlock s h row.cls row.key) < 15 := hr.2.2.1
  obtain ⟨hblock, hstands, -⟩ := insertBlock_spec (hb.home h row.cls row.key) (by
    rw [rowCount_congr (chiveBump_chive ..)]
    exact Nat.lt_trans hlen (by decide))
  rw [insert_room hr]
  exact ⟨hb.trans hblock, hstands⟩

/-- A row of the home block is deleted in place. 09_chive.md R207. -/
theorem delete_at {s : State} {h i : Nat} {row old : ChiveRow} (hr : RowAt s h row i old) :
    delete s h row.cls row.key row.prio = rowWrite (chiveBump (chiveBump s h .chive_SEARCHES) h .chive_UPDATES) h
      (homeBlock s h row.cls row.key * 16 + i) none := by
  unfold delete
  dsimp only
  rw [chiveBump_chive, chiveBump_chive, hr]

/-- A row of the home block is rewritten in place. 09_chive.md R207. -/
theorem replace_at {s : State} {h i : Nat} {row old : ChiveRow} (hr : RowAt s h row i old) :
    replace s h row = rowWrite (chiveBump (chiveBump s h .chive_SEARCHES) h .chive_UPDATES) h
      (homeBlock s h row.cls row.key * 16 + i) (some row) := by
  unfold replace
  dsimp only
  rw [chiveBump_chive, chiveBump_chive, hr]

/-- One row written after the search for it: no other position changes. -/
theorem shadow_searched_rowWrite_other (s : State) (h pos : Nat) (r : Option ChiveRow) {x : Nat × Nat} (hx : x ≠ (h, pos)) :
    aget (rowWrite (chiveBump (chiveBump s h .chive_SEARCHES) h .chive_UPDATES) h pos r).chive.shadow x =
      aget s.chive.shadow x := by
  rw [shadow_rowWrite_other _ _ _ _ hx, chiveBump_chive, chiveBump_chive]

section
variable {h : Hub} {row old : ChiveRow} {i : Nat} {s : State} (ha : hubAlive s h.val = true)
include ha

theorem execChiveInsert_room (hr : RoomFor s h.val row) :
    execChiveInsert h row s = .next (Machine.insert s h.val row).1 := by
  rw [execChiveInsert, if_pos ha, insertStatus, insert_room hr]

theorem completes_chiveInsert (hr : RoomFor s h.val row) : Completes (.chiveInsert h row) s fun t =>
    RowStands t h.val row ∧ t.out = s.out ∧ t.chive.ovf = s.chive.ovf ∧
    (∀ g p, (g, p / 16) ≠ (h.val, homeBlock s h.val row.cls row.key) →
      aget t.chive.shadow (g, p) = aget s.chive.shadow (g, p)) ∧
    t = { s with chive := t.chive, regs := t.regs } := by
  obtain ⟨hblock, hstands⟩ := insert_room_spec hr
  have hrest := (insert_index s h.val row).rest
  exact completes_of_exec (execChiveInsert_room ha hr) ⟨hstands, by rw [hrest], hblock.ovf, hblock.shadow, hrest⟩

theorem completes_chiveDelete (hr : RowAt s h.val row i old) : Completes (.chiveDelete h row) s fun t =>
    aget t.chive.shadow (h.val, homeBlock s h.val row.cls row.key * 16 + i) = none ∧
    aget t.chive.cam (h.val, homeBlock s h.val row.cls row.key * 16 + i) = none ∧
    (∀ x, x ≠ (h.val, homeBlock s h.val row.cls row.key * 16 + i) → aget t.chive.shadow x = aget s.chive.shadow x) ∧
    t = { s with chive := t.chive, regs := t.regs } := by
  have hx : execChiveDelete h row s = .next (delete s h.val row.cls row.key row.prio) := congrArg Host.Outcome.next (if_pos ha)
  refine completes_of_exec hx ⟨?_, ?_, fun x hne => ?_, (delete_index ..).rest⟩ <;> rw [delete_at hr]
  · exact shadow_rowWrite_same ..
  · exact cam_rowWrite_same ..
  · exact shadow_searched_rowWrite_other _ _ _ _ hne

theorem completes_chiveReplace (hr : RowAt s h.val row i old) : Completes (.chiveReplace h row) s fun t =>
    aget t.chive.shadow (h.val, homeBlock s h.val row.cls row.key * 16 + i) = some row ∧
    aget t.chive.cam (h.val, homeBlock s h.val row.cls row.key * 16 + i) = some row ∧
    (∀ x, x ≠ (h.val, homeBlock s h.val row.cls row.key * 16 + i) → aget t.chive.shadow x = aget s.chive.shadow x) ∧
    t = { s with chive := t.chive, regs := t.regs } := by
  have hx : execChiveReplace h row s = .next (replace s h.val row) := congrArg Host.Outcome.next (if_pos ha)
  refine completes_of_exec hx ⟨?_, ?_, fun x hne => ?_, (replace_index ..).rest⟩ <;> rw [replace_at hr]
  · exact shadow_rowWrite_same ..
  · exact cam_rowWrite_same ..
  · exact shadow_searched_rowWrite_other _ _ _ _ hne

end

/-! ### PREFIX_ROOT_SCAN -/

@[simp] theorem rowWrite_scan (s : State) (h pos : Nat) (r : Option ChiveRow) :
    (rowWrite s h pos r).chive.scan = s.chive.scan := rfl

@[simp] theorem shiftUp_scan (h block lo : Nat) : ∀ (n : Nat) (s : State), (shiftUp s h block lo n).chive.scan = s.chive.scan
  | 0, _ => rfl
  | n + 1, _ => shiftUp_scan h block lo n _

@[simp] theorem shiftDown_scan (h block : Nat) :
    ∀ (n lo : Nat) (s : State), (shiftDown s h block lo n).chive.scan = s.chive.scan
  | 0, _, _ => rfl
  | n + 1, lo, _ => shiftDown_scan h block n (lo + 1) _

@[simp] theorem insertBlock_scan (s : State) (h : Nat) (row : ChiveRow) :
    (insertBlock s h row).chive.scan = s.chive.scan := by
  unfold insertBlock
  dsimp only
  split <;> simp

theorem otPlace_scan {s t : State} {h cls key : Nat} {group : List ChiveRow} (e : otPlace s h cls key group = some t) :
    t.chive.scan = s.chive.scan := by
  obtain ⟨b, -, rfl⟩ := Option.map_eq_some_iff.mp e
  rfl

/-- An insert leaves the scans. -/
theorem insert_scan (s : State) (h : Nat) (row : ChiveRow) : (Machine.insert s h row).1.chive.scan = s.chive.scan := by
  unfold Machine.insert
  extract_lets block rows mine probes spilt have_ same s1 s2
  have hb : s2.chive.scan = s.chive.scan := by
    unfold s2
    split <;> simp [s1]
  split
  · exact hb
  split
  · exact hb
  split
  · rename_i s3 _ _ _
    have hw : s3.chive.scan = s.chive.scan := by
      unfold s3
      split <;> exact hb
    rw [chiveBump_chive]
    exact hw
  split
  · exact hb
  split
  · exact (insertBlock_scan ..).trans hb
  split
  · rw [chiveBump_chive]
    exact hb
  · next e =>
    rw [chiveBump_chive, chiveBump_chive]
    exact (foldl_part (fun s => s.chive.scan) (fun s p => rowWrite_scan s ..) _ _).trans ((otPlace_scan e).trans hb)

/-- A key whose home block has room, and which the overflow table does not hold, has no row. -/
theorem rowOf_room {s : State} {h : Nat} {row : ChiveRow} (hr : RoomFor s h row) (ho : otFind s h row.cls row.key = []) :
    rowOf s h row.cls row.key = none := by
  rw [rowOf, answerRow, room_noRow hr, ho]
  rfl

section
variable {s u : State} {h lpn : Nat} {rest : List Nat} (hs : agetD s.chive.scan h [] = lpn :: rest)
include hs

theorem rootScan_noSlot (hm : aget s.mem.slots lpn = none) : rootScan s h = scanned s h rest := by
  unfold rootScan
  rw [hs]
  exact if_pos (by rw [modChive_mem, hm]; rfl)

variable (hm : (aget s.mem.slots lpn).isSome = true)
include hm

theorem rootScan_unread (hl : loadHdr (scanned s h rest) lpn readUnit = (u, none)) : rootScan s h = u := by
  unfold rootScan
  rw [hs]
  refine (if_neg (by rw [modChive_mem]; simpa using Option.isSome_iff_ne_none.mp hm)).trans ?_
  rw [← scanned, hl]

theorem rootScan_read {hd : Hdr} (hl : loadHdr (scanned s h rest) lpn readUnit = (u, some hd)) : rootScan s h =
    if hd.sealed ∧ hd.keyed ∧ (rowOf u h clsPrefix (pageRow hd lpn).key).isNone then
      (Machine.insert u h (pageRow hd lpn)).1 else u := by
  unfold rootScan
  rw [hs]
  refine (if_neg (by rw [modChive_mem]; simpa using Option.isSome_iff_ne_none.mp hm)).trans ?_
  rw [← scanned, hl]

/-- The scan comes to what the read of the header leaves, or to an insert after it. -/
theorem rootScan_cases {got : Option Hdr} (hl : loadHdr (scanned s h rest) lpn readUnit = (u, got)) :
    rootScan s h = u ∨ ∃ row, rootScan s h = (Machine.insert u h row).1 := by
  cases got with
  | none => exact .inl (rootScan_unread hs hm hl)
  | some hd =>
    rw [rootScan_read hs hm hl]
    split
    · exact .inr ⟨_, rfl⟩
    · exact .inl rfl

/-- A sealed keyed page whose key has no row and whose home block has room gets its row. 09_chive.md R215. -/
theorem rootScan_enters {hd : Hdr} (hl : loadHdr (scanned s h rest) lpn readUnit = (u, some hd)) (hsealed : hd.sealed = true)
    (hkeyed : hd.keyed = true) (hr : RoomFor s h (pageRow hd lpn)) (ho : otFind s h clsPrefix (pageRow hd lpn).key = []) :
    RowStands (rootScan s h) h (pageRow hd lpn) ∧
    rootScan s h = { u with chive := (rootScan s h).chive, regs := (rootScan s h).regs } := by
  have hp : indexPart u = indexPart (scanned s h rest) := indexPart_of_eq (indexPart_loadHdr ..) hl
  have hru : RoomFor u h (pageRow hd lpn) := roomFor_of_indexPart hp h hr
  have hou : otFind u h clsPrefix (pageRow hd lpn).key = [] := (otFind_of_indexPart hp h _ _).trans ho
  have hno : rowOf u h clsPrefix (pageRow hd lpn).key = none := rowOf_room (row := pageRow hd lpn) hru hou
  rw [rootScan_read hs hm hl, if_pos ⟨hsealed, hkeyed, by rw [hno]; rfl⟩]
  exact ⟨(insert_room_spec hru).2, (insert_index ..).rest⟩

end

/-- The scan goes on to the rest of its pages and, where no check bits deviate, leaves the bytes of memory. -/
theorem rootScan_goesOn {s : State} {h lpn : Nat} {rest : List Nat} (hs : agetD s.chive.scan h [] = lpn :: rest) :
    agetD (rootScan s h).chive.scan h [] = rest ∧ (s.mem.chk = [] → (rootScan s h).mem.cells = s.mem.cells) := by
  have hscan : agetD (scanned s h rest).chive.scan h [] = rest := agetD_aset_same ..
  cases hm : aget s.mem.slots lpn with
  | none =>
    rw [rootScan_noSlot hs hm]
    exact ⟨hscan, fun _ => rfl⟩
  | some x =>
    have hu : (loadHdr (scanned s h rest) lpn readUnit).1.chive = (scanned s h rest).chive :=
      chive_of_indexPart (indexPart_loadHdr ..)
    have hc (hchk : s.mem.chk = []) : (loadHdr (scanned s h rest) lpn readUnit).1.mem.cells = s.mem.cells :=
      loadHdr_cells (s := scanned s h rest) hchk ..
    rcases rootScan_cases hs (hm ▸ rfl) (Prod.eta _).symm with e | ⟨row, e⟩
    · rw [e, hu]
      exact ⟨hscan, hc⟩
    · rw [e, insert_scan, hu, (insert_index ..).rest]
      exact ⟨hscan, hc⟩

/-- Settles O29: an insert by `insertBlock_spec` (the hole moves to the row's place, which lies in the block), a delete and a
replace as one row written in place, and the scan by the rule of its case: `rootScan_noSlot`, `rootScan_unread`,
`rootScan_read` and `rootScan_enters`. -/
theorem indexRowsAreKept : Obligations.IndexRowsAreKept := by
  unfold Obligations.IndexRowsAreKept
  refine ⟨fun h row s ha hr => completes_chiveInsert ha hr,
    fun h row old i s ha hr => ⟨completes_chiveDelete ha hr, completes_chiveReplace ha hr⟩,
    fun h lpn rest got s u ha hs hl => ?_⟩
  have hx : execPrefixRootScan h s = .next (rootScan s h.val) := congrArg Host.Outcome.next (if_pos ha)
  obtain ⟨hrest, hcells⟩ := rootScan_goesOn hs
  refine completes_of_exec hx ⟨hrest, hcells, rootScan_noSlot hs, fun hm => ⟨fun hg => ?_, fun hd hg hskip => ?_,
    fun hd hg hsealed hkeyed hr ho => ?_⟩⟩ <;> subst hg
  · exact rootScan_unread hs hm hl
  · refine (rootScan_read hs hm hl).trans (if_neg fun ⟨hsealed, hkeyed, _⟩ => ?_)
    rw [hsealed, hkeyed] at hskip
    cases hskip
  · exact rootScan_enters hs hm hl hsealed hkeyed hr ho

/-! ### CAM_SCRUB -/

/-- The position that the scrubber of a hub compares next. 09_chive.md R212. -/
def scrubPos (s : State) (h : Nat) : Nat := agetD s.chive.scrub h 0 % camPositions

/-- The scrubber has gone on, and the CAM is as given. -/
def scrubbed (s : State) (h : Nat) (cam : Assoc (Nat × Nat) ChiveRow) : State :=
  modChive s fun c => { c with scrub := aset c.scrub h ((scrubPos s h + 1) % camPositions), cam := cam }

/-- A mismatch is counted, and the hub's health takes note of it. 09_chive.md R212. -/
def mismatched (s : State) (h : Nat) : State :=
  modDie (chiveBump s h .chive_SCRUB_MISMATCH) (32 + h) fun d => { d with camScrub := d.camScrub + 1 }

section
variable {s : State} {h : Nat}

theorem camScrubOne_agrees (e : aget s.chive.cam (h, scrubPos s h) = aget s.chive.shadow (h, scrubPos s h)) :
    camScrubOne s h = scrubbed s h s.chive.cam := by
  unfold scrubPos at e
  simp only [camScrubOne, e, decide_true, if_true]
  rfl

theorem camScrubOne_differs (e : aget s.chive.cam (h, scrubPos s h) ≠ aget s.chive.shadow (h, scrubPos s h)) :
    ∃ cam, camScrubOne s h = mismatched (scrubbed s h cam) h ∧
      aget cam (h, scrubPos s h) = aget s.chive.shadow (h, scrubPos s h) ∧
      ∀ x, x ≠ (h, scrubPos s h) → aget cam x = aget s.chive.cam x := by
  unfold scrubPos at e
  simp only [camScrubOne, e, decide_false, Bool.false_eq_true, if_false]
  cases hsh : aget s.chive.shadow (h, scrubPos s h) with
  | none =>
    exact ⟨adel s.chive.cam (h, scrubPos s h), by rw [← scrubPos, hsh]; rfl, aget_adel_same ..,
      fun x hx => aget_adel_other hx _⟩
  | some r =>
    exact ⟨aset s.chive.cam (h, scrubPos s h) r, by rw [← scrubPos, hsh]; rfl, aget_aset_same ..,
      fun x hx => aget_aset_other hx ..⟩

end

theorem completes_camScrub {h : Hub} {s : State} (ha : hubAlive s h.val = true) (hen : rget s .chive_scrub_en h.val 0 = 1) :
    Completes (.camScrub h) s fun t =>
      agetD t.chive.scrub h.val 0 = (scrubPos s h.val + 1) % camPositions ∧ t.chive.shadow = s.chive.shadow ∧
      aget t.chive.cam (h.val, scrubPos s h.val) = aget s.chive.shadow (h.val, scrubPos s h.val) ∧
      (∀ x, x ≠ (h.val, scrubPos s h.val) → aget t.chive.cam x = aget s.chive.cam x) ∧
      rget t .chive_SCRUB_MISMATCH h.val 0 =
        (if aget s.chive.cam (h.val, scrubPos s h.val) = aget s.chive.shadow (h.val, scrubPos s h.val)
          then rget s .chive_SCRUB_MISMATCH h.val 0 else min (rget s .chive_SCRUB_MISMATCH h.val 0 + 1) 0xFFFFFFFF) := by
  have hx : execCamScrub h s = .next (camScrubOne s h.val) := congrArg Host.Outcome.next (if_pos ⟨ha, hen⟩)
  by_cases e : aget s.chive.cam (h.val, scrubPos s h.val) = aget s.chive.shadow (h.val, scrubPos s h.val)
  · rw [camScrubOne_agrees e] at hx
    exact completes_of_exec hx ⟨agetD_aset_same .., rfl, e, fun _ _ => rfl, (if_pos e).symm⟩
  · obtain ⟨cam, ht, hsame, hother⟩ := camScrubOne_differs e
    rw [ht] at hx
    have hc : (mismatched (scrubbed s h.val cam) h.val).chive = (scrubbed s h.val cam).chive :=
      chiveBump_chive (scrubbed s h.val cam) h.val .chive_SCRUB_MISMATCH
    have hn : rget (mismatched (scrubbed s h.val cam) h.val) .chive_SCRUB_MISMATCH h.val 0 =
        min (rget s .chive_SCRUB_MISMATCH h.val 0 + 1) 0xFFFFFFFF := rget_bump_same (scrubbed s h.val cam) ..
    refine completes_of_exec hx ?_
    rw [hc]
    exact ⟨agetD_aset_same .., rfl, hsame, hother, hn.trans (if_neg e).symm⟩

/-! ### BLOCK_REBUILD -/

@[simp] theorem badWord_cells (s : State) (cls sy die reader off : Nat) :
    (badWord s cls sy die reader off).mem.cells = s.mem.cells := by
  simp only [badWord, healthEvent_mem, journal_mem]
  unfold logErr
  dsimp only
  split <;> simp

theorem rget_badWord_uncorrectable (s : State) (cls sy die reader off : Nat) :
    rget (badWord s cls sy die reader off) .mem_UNCORRECTABLE die 0 =
      min (rget s .mem_UNCORRECTABLE die 0 + 1) 0xFFFFFFFF := by
  unfold badWord
  dsimp only
  rw [rget_healthEvent_other _ _ _ _ (by decide) (by decide), rget_journal_other _ _ _ _ (by decide),
    rget_logErr_other _ _ (by decide)]
  exact rget_bump_same s ..

section
variable (s : State) (h block : Nat)

/-- A word of a block's shadow is lost: a row of the block, by a free value, is gone. 09_chive.md R213 step 1. -/
def rowLost (s : State) (h block : Nat) : State :=
  rowWrite (badWord (fresh s).2 3 ((fresh s).1 / 32 % 65536) (32 + h) readDemand
    (shadowOff + (block * 16 + (fresh s).1 % 16) * 32 + (fresh s).1 / 16 % 2 * 16)) h (block * 16 + (fresh s).1 % 16) none

/-- The mark of a block that is being rebuilt. 09_chive.md R213 step 2. -/
def markBlock (s : State) (h block : Nat) : State :=
  modChive s fun c => { c with rebuild := if c.rebuild.contains (h, block) then c.rebuild else c.rebuild ++ [(h, block)] }

theorem markRebuild_eq : markRebuild s h block = chiveBump (markBlock (rowLost s h block) h block) h .chive_REBUILDS := rfl

theorem mem_markBlock : (h, block) ∈ (markBlock s h block).chive.rebuild := by
  rw [markBlock, modChive_chive]
  dsimp only
  split
  · next hc => exact List.contains_iff_mem.mp hc
  · exact List.mem_append_right _ (List.mem_singleton_self _)

theorem rowLost_gone : aget (rowLost s h block).chive.shadow (h, block * 16 + (fresh s).1 % 16) = none :=
  shadow_rowWrite_same ..

theorem rowLost_other {g p : Nat} (hne : (g, p / 16) ≠ (h, block)) :
    aget (rowLost s h block).chive.shadow (g, p) = aget s.chive.shadow (g, p) := by
  unfold rowLost
  rw [(BlockOnly.rowWrite _ h block (Nat.mod_lt _ (by decide)) none).shadow g p hne, badWord_chive]
  rfl

theorem rget_rowLost_rebuilds : rget (rowLost s h block) .chive_REBUILDS h 0 = rget s .chive_REBUILDS h 0 :=
  rget_of_indexPart (indexPart_badWord (fresh s).2 ..) rfl ..

theorem rget_rowLost_uncorrectable : rget (rowLost s h block) .mem_UNCORRECTABLE (32 + h) 0 =
    min (rget s .mem_UNCORRECTABLE (32 + h) 0 + 1) 0xFFFFFFFF :=
  rget_badWord_uncorrectable (fresh s).2 ..

theorem rowLost_cells : (rowLost s h block).mem.cells = s.mem.cells := badWord_cells (fresh s).2 ..

end

theorem completes_blockRebuild {h : Hub} (b : Nat) {s : State} (ha : hubAlive s h.val = true) :
    Completes (.blockRebuild h b) s fun t =>
      (h.val, b) ∈ t.chive.rebuild ∧ aget t.chive.shadow (h.val, b * 16 + (fresh s).1 % 16) = none ∧
      (∀ g p, (g, p / 16) ≠ (h.val, b) → aget t.chive.shadow (g, p) = aget s.chive.shadow (g, p)) ∧
      rget t .chive_REBUILDS h.val 0 = min (rget s .chive_REBUILDS h.val 0 + 1) 0xFFFFFFFF ∧
      rget t .mem_UNCORRECTABLE (32 + h.val) 0 = min (rget s .mem_UNCORRECTABLE (32 + h.val) 0 + 1) 0xFFFFFFFF ∧
      t.mem.cells = s.mem.cells := by
  have hx : execBlockRebuild h b s = .next (markRebuild s h.val b) := congrArg Host.Outcome.next (if_pos ha)
  rw [markRebuild_eq] at hx
  refine completes_of_exec hx ?_
  rw [chiveBump_chive, chiveBump_mem]
  refine ⟨mem_markBlock .., rowLost_gone .., fun g p hne => rowLost_other _ _ _ hne, ?_, ?_, rowLost_cells ..⟩
  · rw [← rget_rowLost_rebuilds s h.val b]
    exact rget_bump_same (markBlock (rowLost s h.val b) h.val b) ..
  · rw [← rget_rowLost_uncorrectable s h.val b]
    exact rget_bump_other (markBlock (rowLost s h.val b) h.val b) (by decide) ..

/-! ### OVERFLOW_RETURN -/

theorem length_sortBy {α : Type} (key : α → Nat) : ∀ l : List α, (sortBy key l).length = l.length
  | [] => rfl
  | x :: l => by
    have hs : sortBy key (x :: l) = (sortBy key l).takeWhile (fun y => decide (key y < key x)) ++
        x :: (sortBy key l).drop ((sortBy key l).takeWhile fun y => decide (key y < key x)).length := rfl
    have hle := (List.takeWhile_sublist (l := sortBy key l) fun y => decide (key y < key x)).length_le
    rw [hs, List.length_append, List.length_cons, List.length_drop, List.length_cons, ← length_sortBy key l]
    omega

/-- Rows of one key enter its home block one by one while there is room for all of them. -/
theorem foldl_insertBlock {h cls key block : Nat} : ∀ (rows : List ChiveRow) (s : State), homeBlock s h cls key = block →
    (∀ r ∈ rows, r.cls = cls ∧ r.key = key) → rowCount s h block + rows.length ≤ 16 →
    BlockOnly h block s (rows.foldl (fun s r => insertBlock s h r) s)
  | [], s, _, _, _ => .refl s
  | r :: rows, s, hb, hr, hc => by
    obtain ⟨rfl, rfl⟩ := hr r (List.mem_cons_self ..)
    rw [List.length_cons] at hc
    obtain ⟨hblock, -, hcount⟩ := insertBlock_spec hb (by omega)
    exact hblock.trans (foldl_insertBlock rows _ ((hblock.home ..).trans hb) (fun x hx => hr x (List.mem_cons_of_mem _ hx))
      (by omega))

theorem settleFlag_ovf (s : State) (h cls : Nat) : (settleFlag s h cls).chive.ovf = s.chive.ovf := by
  unfold settleFlag
  split <;> rfl

theorem settleFlag_shadow (s : State) (h cls : Nat) : (settleFlag s h cls).chive.shadow = s.chive.shadow := by
  unfold settleFlag
  split <;> rfl

/-- The rows that a table holds for a key are of that key. -/
theorem mem_otFind {s : State} {h cls key : Nat} {r : ChiveRow} (hr : r ∈ otFind s h cls key) : r.cls = cls ∧ r.key = key := by
  obtain ⟨p, hp, rfl⟩ := List.mem_map.mp hr
  have := (List.mem_filter.mp hp).2
  simp only [rowIs, Bool.and_eq_true, decide_eq_true_eq] at this
  exact this.2

/-- The rows of a key have gone into its home block. -/
def rowsReturned (s : State) (h cls key : Nat) : State :=
  (byPrio (otFind s h cls key)).foldl (fun s r => insertBlock s h r) s

section
variable {s : State} {h cls key : Nat}

theorem rowsReturned_block
    (hc : (blockRows s.chive.shadow h (homeBlock s h cls key)).length + (otFind s h cls key).length ≤ 15) :
    BlockOnly h (homeBlock s h cls key) s (rowsReturned s h cls key) :=
  foldl_insertBlock _ s rfl (fun r hr => mem_otFind (mem_sortBy hr)) (by
    rw [byPrio, length_sortBy, rowCount]
    omega)

theorem rowsReturned_index : IndexOnly h s (rowsReturned s h cls key) := .foldl (fun s r => insertBlock_index s h r) _ s

/-- A key that fits its block with a hole left returns: its rows go into the block, then leave the table. 09_chive.md R211. -/
theorem returnKey_fits (hne : otFind s h cls key ≠ []) (hret : s.chive.retired.contains (h, homeBlock s h cls key) = false)
    (hc : (blockRows s.chive.shadow h (homeBlock s h cls key)).length + (otFind s h cls key).length ≤ 15) :
    returnKey s h cls key = settleFlag (setOt (rowsReturned s h cls key) h cls
      ((otRows (rowsReturned s h cls key) h cls).filter fun p => ! rowIs cls key p.2)) h cls := by
  have hlen : (byPrio (otFind s h cls key)).length = (otFind s h cls key).length := length_sortBy ..
  have hpos := List.length_pos_iff.mpr hne
  refine if_neg ?_
  rintro (he | hr | hfull)
  · rw [List.isEmpty_iff.mp he] at hlen
    exact absurd hlen (Nat.ne_of_lt hpos)
  · rw [hret] at hr
    cases hr
  · omega

end

theorem completes_overflowReturn {h : Hub} {cls key : Nat} {s : State} (ha : hubAlive s h.val = true)
    (hne : otFind s h.val cls key ≠ []) (hret : s.chive.retired.contains (h.val, homeBlock s h.val cls key) = false)
    (hc : (blockRows s.chive.shadow h.val (homeBlock s h.val cls key)).length + (otFind s h.val cls key).length ≤ 15) :
    Completes (.overflowReturn h cls key) s fun t =>
      (∀ p ∈ otRows t h.val cls, rowIs cls key p.2 = false) ∧ (∀ c, c ≠ cls → otRows t h.val c = otRows s h.val c) ∧
      (∀ g p, (g, p / 16) ≠ (h.val, homeBlock s h.val cls key) →
        aget t.chive.shadow (g, p) = aget s.chive.shadow (g, p)) ∧ t.mem = s.mem ∧ t.out = s.out := by
  have hx : execOverflowReturn h cls key s = .next (returnKey s h.val cls key) := congrArg Host.Outcome.next (if_pos ha)
  have hblock := rowsReturned_block hc
  have hi : IndexOnly h.val s (returnKey s h.val cls key) := by
    rw [returnKey_fits hne hret hc]
    have ho := rowsReturned_index.setOt (s := rowsReturned s h.val cls key) h.val cls
      ((otRows (rowsReturned s h.val cls key) h.val cls).filter fun p => ! rowIs cls key p.2)
    exact .ite _ (ho.modChive rfl) ho
  refine completes_of_exec hx ⟨?_, fun c hcc => ?_, fun g p hne' => ?_, by rw [hi.rest], by rw [hi.rest]⟩ <;>
    rw [returnKey_fits hne hret hc]
  · intro p hp
    rw [otRows, settleFlag_ovf] at hp
    rw [setOt, modChive_chive, agetD_aset_same] at hp
    simpa using (List.mem_filter.mp hp).2
  · rw [otRows, settleFlag_ovf, setOt, modChive_chive]
    dsimp only
    rw [agetD_aset_other _ fun e => hcc (Prod.mk.inj e).2, hblock.ovf, otRows]
  · rw [settleFlag_shadow]
    exact hblock.shadow g p hne'

/-- Settles O30: the scrubber by `camScrubOne_agrees` and `camScrubOne_differs`, a lost word by `markRebuild_eq` and what
`rowLost` leaves, and the return of a key by `returnKey_fits`, whose rows enter their block one by one
(`foldl_insertBlock`). -/
theorem indexUpkeep : Obligations.IndexUpkeep := by
  unfold Obligations.IndexUpkeep
  exact ⟨fun h s ha hen => completes_camScrub ha hen, fun h b s ha => completes_blockRebuild b ha,
    fun h cls key s ha hne hret hc => completes_overflowReturn ha hne hret hc⟩

end Sys2Proof.Proofs

namespace Sys2Proof.Proofs
open Sys2Proof.Machine Sys2Proof.Laws

/-!
Frames on the wire (O60). A field is read from the bytes that were written for it, and what stands before it is passed over; so
the header of a frame, whatever bytes follow, spells the frame's fields, and the payload is the part of those bytes that
payload_length counts.
-/

/-! ## Fields in wire order (00_scope.md R7) -/

@[simp] theorem beBytes_length (n v : Nat) : (beBytes n v).length = n := by rw [beBytes, List.length_reverse, leBytes_length]

theorem leNat_leBytes (n v : Nat) : leNat (leBytes n v) = v % 256 ^ n := by
  induction n generalizing v with
  | zero => simp [leBytes, leNat, Nat.mod_one]
  | succ n ih =>
    rw [leBytes, leNat, ih, BitVec.toNat_ofNat, pow_succ' 256, Nat.mod_mul (x := v)]

theorem beNat_beBytes (n v : Nat) : beNat (beBytes n v) = v % 256 ^ n := by
  rw [beNat, beBytes, List.reverse_reverse, leNat_leBytes]

/-- A field at the head of some bytes. -/
theorem fld_head (n v : Nat) (r : List Byte) : fld true (beBytes n v ++ r) 0 n = v % 256 ^ n := by
  have h : takeBytes (beBytes n v ++ r) 0 n = beBytes n v := by simp [takeBytes]
  rw [fld, if_pos rfl, h, beNat_beBytes]

/-- A field beyond the head of some bytes. -/
theorem fld_tail {k o : Nat} (h : k ≤ o) (v n : Nat) (r : List Byte) :
    fld true (beBytes k v ++ r) o n = fld true r (o - k) n := by
  have hd : (beBytes k v ++ r).drop o = r.drop (o - k) := by
    rw [List.drop_append, List.drop_eq_nil_of_le (by simpa using h), beBytes_length, List.nil_append]
  rw [fld, fld, takeBytes, takeBytes, hd]

/-! ## The header (10_fabric.md R227) -/

/-- A frame's header with bytes after it. -/
def headed (f : Frame) (r : List Byte) : List Byte :=
  beBytes 1 (f.version * 16 + f.loadHint) ++ (beBytes 1 f.opcode ++ (beBytes 2 f.flags ++ (beBytes 4 f.src ++
    (beBytes 4 (f.cls * 2 ^ 24 + f.dst) ++ (beBytes 4 f.connId ++ (beBytes 4 f.seq ++ (beBytes 4 f.ack ++ (beBytes 4 f.tag ++
    (beBytes 2 f.epoch ++ (beBytes 2 f.pd ++ (beBytes 2 f.credit ++ (beBytes 2 f.payLen ++ (beBytes 2 f.segIndex ++
    (beBytes 2 f.segCount ++ (beBytes 4 f.replyTo ++ r)))))))))))))))

theorem bytes_append (f : Frame) (r : List Byte) : f.bytes ++ r = headed f (f.payload ++ r) := by
  simp only [Frame.bytes, headed, List.append_assoc]

theorem bytes_eq (f : Frame) : f.bytes = headed f f.payload := by
  have h := bytes_append f []
  rwa [List.append_nil, List.append_nil] at h

theorem length_headed (f : Frame) (r : List Byte) : (headed f r).length = 44 + r.length := by
  simp only [headed, List.length_append, beBytes_length]
  omega

theorem headed_eq (f : Frame) (r : List Byte) : headed f r = headed f [] ++ r := by
  simp only [headed, List.append_assoc, List.nil_append]

/-- What a header followed by some bytes spells: its frame with the payload that its payload_length counts. -/
theorem parse_headed {f : Frame} (hf : FrameFits f) (r : List Byte) : Frame.parse (headed f r) =
    if r.length < f.payLen then none else some { f with payload := r.take f.payLen } := by
  obtain ⟨hversion, hhint, hopcode, hflags, hsrc, hcls, hdst, hconn, hseq, hack, htag, hepoch, hpd, hcredit, hpayLen, hpay,
    hindex, hcount, hreply⟩ := hf
  have hdrop : (headed f r).drop hdrLen = r := by
    rw [headed_eq]
    exact List.drop_left' (length_headed f [])
  have hpl : fld true (headed f r) 34 2 = f.payLen := by
    simp only [headed, fld_tail, fld_head, Nat.reduceLeDiff, Nat.reduceSub]
    omega
  have hshort : ¬ (headed f r).length < hdrLen := by rw [length_headed, hdrLen]; omega
  have hroom : (headed f r).length < hdrLen + f.payLen ↔ r.length < f.payLen := by rw [length_headed, hdrLen]; omega
  unfold Frame.parse
  dsimp only
  rw [if_neg hshort]
  simp only [hpl, hdrop]
  refine if_congr hroom rfl (congrArg some ?_)
  simp only [headed, fld_tail, fld_head, bits, Nat.reduceLeDiff, Nat.reduceSub, Frame.mk.injEq, true_and, and_true]
  and_intros <;> omega

theorem payLen_of_fits {f : Frame} (hf : FrameFits f) : f.payLen = f.payload.length := by
  obtain ⟨-, -, -, -, -, -, -, -, -, -, -, -, -, -, h, -⟩ := hf
  exact h

theorem parse_bytes_append {f : Frame} (hf : FrameFits f) (pad : List Byte) : Frame.parse (f.bytes ++ pad) = some f := by
  have hp := payLen_of_fits hf
  rw [bytes_append, parse_headed hf, if_neg (by rw [hp, List.length_append]; omega), hp, List.take_left]
  rw [← hp]

/-- Settles O60. -/
theorem framesRoundTrip : Obligations.FramesRoundTrip := by
  unfold Obligations.FramesRoundTrip
  refine ⟨fun f pad hf => ⟨parse_bytes_append hf pad, by rw [bytes_eq, length_headed]⟩, fun f n hf hn => ?_,
    fun f g hf hg h => ?_⟩
  · rw [bytes_eq, length_headed] at hn
    by_cases hshort : n < 44
    · exact if_pos (by rw [List.length_take, hdrLen]; omega)
    · have ht : f.bytes.take n = headed f (f.payload.take (n - 44)) := by
        rw [bytes_eq, headed_eq, headed_eq f (List.take _ _), List.take_append, length_headed, List.length_nil, Nat.add_zero,
          List.take_of_length_le (by rw [length_headed]; simpa using hshort)]
      rw [ht, parse_headed hf, if_pos (by rw [payLen_of_fits hf, List.length_take]; omega)]
  · have hf' := parse_bytes_append hf []
    rw [h, parse_bytes_append hg []] at hf'
    exact (Option.some.inj hf').symm

end Sys2Proof.Proofs

namespace Sys2Proof.Proofs
open Sys2Proof.Machine Sys2Proof.Laws

/-!
Links and the timers of their key exchange (O6). What a sub-port holds after its exchange starts or fails is said once
(startKx_sub, failKx_sub); each command is then one of the two after a clock that has passed.
-/

/-! ## One sub-port -/

theorem subOf_modSub_same (s : State) (h u : Nat) (f : SubPort → SubPort) : subOf (modSub s h u f) h u = f (subOf s h u) :=
  agetD_aset_same ..

theorem otherSubs_modSub (s : State) (h u : Nat) (f : SubPort → SubPort) : OtherSubs s (modSub s h u f) h u :=
  fun _ hx => aget_aset_other hx ..

theorem otherSubs_trans {a s t : State} {h u : Nat} (f : OtherSubs a s h u) (g : OtherSubs s t h u) : OtherSubs a t h u :=
  fun x hx => (g x hx).trans (f x hx)

theorem otherSubs_congr {s t s' t' : State} {h u : Nat} (f : OtherSubs s t h u) (hs : s'.fab = s.fab) (ht : t'.fab = t.fab) :
    OtherSubs s' t' h u := fun x hx => by rw [ht, hs, f x hx]

theorem subOf_congr {s t : State} (e : t.fab = s.fab) (h u : Nat) : subOf t h u = subOf s h u := by rw [subOf, e, subOf]

/-! ## The exchange (15_trust.md R357, R358) -/

/-- The KX1 that an exchange starts with. -/
def firstKx1 (s : State) (h u xid : Nat) : List Byte :=
  let nonce := freshBytes s 32
  let priv := freshBytes nonce.2 56
  kx1Bytes priv.2 h (nextAn (subOf s h u)) (xid % 2 ^ 32) nonce.1 priv.1

/-- An exchange that has started. -/
def startedKx (s : State) (h u xid : Nat) (k : Kx) : Kx :=
  { k with xid := xid % 2 ^ 32, running := true, sent := firstKx1 s h u xid, peer := [],
           priv := (freshBytes (freshBytes s 32).2 56).1, tries := 0, kx2Sent := false, kx2Valid := false, at_ := now s h,
           failed := false }

/-- An exchange that has failed. -/
def failedKx (s : State) (h : Nat) (k : Kx) : Kx :=
  { k with running := false, priv := [], kx2Sent := false, kx2Valid := false, failed := true, at_ := now s h }

theorem startKx_eq (s : State) (h u xid : Nat) : startKx s h u xid =
    emit (modKx (freshBytes (freshBytes s 32).2 56).2 h u (startedKx s h u xid)) (.kx h u (firstKx1 s h u xid)) := rfl

theorem failKx_eq (s : State) (h u : Nat) : failKx s h u = modKx (bump s .lov_KX_FAILURES h) h u (failedKx s h) := rfl

theorem subOf_startKx (s : State) (h u xid : Nat) : subOf (startKx s h u xid) h u =
    { subOf s h u with kx := startedKx s h u xid (subOf s h u).kx } := by
  rw [startKx_eq, subOf_congr (emit_fab ..)]
  exact subOf_modSub_same _ h u fun p => { p with kx := startedKx s h u xid p.kx }

theorem subOf_failKx (s : State) (h u : Nat) : subOf (failKx s h u) h u =
    { subOf s h u with kx := failedKx s h (subOf s h u).kx } := by
  rw [failKx_eq]
  exact subOf_modSub_same _ h u fun p => { p with kx := failedKx s h p.kx }

theorem startKx_others (s : State) (h u xid : Nat) : OtherSubs s (startKx s h u xid) h u :=
  otherSubs_congr (otherSubs_modSub (freshBytes (freshBytes s 32).2 56).2 h u fun p =>
    { p with kx := startedKx s h u xid p.kx }) rfl rfl

theorem failKx_others (s : State) (h u : Nat) : OtherSubs s (failKx s h u) h u :=
  otherSubs_congr (otherSubs_modSub s h u fun p => { p with kx := failedKx s h p.kx }) rfl rfl

theorem startKx_out (s : State) (h u xid : Nat) :
    (startKx s h u xid).out = s.out ++ [.kx h u (subOf (startKx s h u xid) h u).kx.sent] := by
  rw [subOf_startKx]
  rfl

theorem failKx_counts (s : State) (h u : Nat) :
    rget (failKx s h u) .lov_KX_FAILURES h 0 = min (rget s .lov_KX_FAILURES h 0 + 1) 0xFFFFFFFF :=
  rget_bump_same s .lov_KX_FAILURES h

/-! ## The commands -/

/-- A sub-port whose link has come up. -/
def linkedUp (s : State) (h u mac : Nat) : State :=
  modSub s h u fun p => { p with link := true, spent := false, mac := Config.portMac (body s clsPorts) h u, peerMac := mac }

/-- A sub-port whose link has dropped. -/
def linkedDown (s : State) (h u : Nat) : State :=
  modSub s h u fun p => { p with
    link := false, up := false, tx := none, rx := none, rxOld := none,
    kx := { p.kx with running := false, priv := [], sent := [], peer := [], kx2Sent := false, kx2Valid := false, failed := false } }

/-- A KX1 that is repeated at the end of its 10 ms. 15_trust.md R357 step 1. -/
def kx1Repeated (s : State) (h u : Nat) : State :=
  modKx s h u fun x => { x with tries := x.tries + 1, at_ := now s h }

theorem subOf_kx1Repeated (s : State) (h u : Nat) : subOf (kx1Repeated s h u) h u = { subOf s h u with
    kx := { (subOf s h u).kx with tries := (subOf s h u).kx.tries + 1, at_ := now s h } } :=
  subOf_modSub_same s h u fun p => { p with kx := { p.kx with tries := p.kx.tries + 1, at_ := now s h } }

theorem kx1Repeated_others (s : State) (h u : Nat) : OtherSubs s (kx1Repeated s h u) h u :=
  otherSubs_modSub s h u fun p => { p with kx := { p.kx with tries := p.kx.tries + 1, at_ := now s h } }

section
variable {h : Hub} {u : Sub} {s : State}

theorem exec_subportLinkUp {mac : Nat} (ha : hubAlive s h.val = true) (hn : s.life.node ≠ 1) (hu : u.val < subCount s h.val)
    (hl : (subOf s h.val u.val).link = false) : exec (.subportLinkUp h u mac) s = .next
      (startKx (linkedUp s h.val u.val mac) h.val u.val ((subOf (linkedUp s h.val u.val mac) h.val u.val).kx.installed + 1)) :=
  if_neg (by simp [ha, hn, hl, hu])

theorem exec_subportLinkDown (hl : (subOf s h.val u.val).link = true) :
    exec (.subportLinkDown h u) s = .next (linkedDown s h.val u.val) :=
  if_neg (by simp [hl])

theorem exec_kx1Retry (hr : (subOf s h.val u.val).kx.running = true) (hv : (subOf s h.val u.val).kx.kx2Valid = false) :
    exec (.kx1Retry h u) s =
      if 19 ≤ (subOf s h.val u.val).kx.tries then
        .next (failKx (passTo s h.val ((subOf s h.val u.val).kx.at_ + 10000000)) h.val u.val)
      else .next (emit (kx1Repeated (passTo s h.val ((subOf s h.val u.val).kx.at_ + 10000000)) h.val u.val)
        (.kx h.val u.val (subOf s h.val u.val).kx.sent)) :=
  if_neg (by simp [hr, hv])

theorem exec_kxRestart (hl : (subOf s h.val u.val).link = true) (hr : (subOf s h.val u.val).kx.running = false)
    (hf : (subOf s h.val u.val).kx.failed = true) : exec (.kxRestart h u) s =
      .next (startKx (passTo s h.val ((subOf s h.val u.val).kx.at_ + 1000000000)) h.val u.val
        ((subOf s h.val u.val).kx.installed + 1)) :=
  if_neg (by simp [hl, hr, hf])

theorem exec_rekeyIntervalExpiry {a : SecAssoc} (ht : (subOf s h.val u.val).tx = some a) (hp : a.pn < 2 ^ 48)
    (hl : (subOf s h.val u.val).link = true) (hr : (subOf s h.val u.val).kx.running = false) :
    exec (.rekeyIntervalExpiry h u) s = .next (startKx
      (passTo s h.val ((subOf s h.val u.val).keyAt + 1000000000 * rget s .lov_rekey_interval_s h.val 0)) h.val u.val
      ((subOf s h.val u.val).kx.installed + 1)) := by
  dsimp only [exec]
  unfold execRekeyIntervalExpiry
  dsimp only
  rw [ht]
  dsimp only
  rw [if_neg (by simp [hl, hr]), if_neg (Nat.not_le.mpr hp)]

theorem exec_oldKeyExpiry {a : SecAssoc} (ho : (subOf s h.val u.val).rxOld = some a) : exec (.oldKeyExpiry h u) s =
    .next (modSub (passTo s h.val ((subOf s h.val u.val).rxAt + 10000000)) h.val u.val fun x => { x with rxOld := none }) := by
  dsimp only [exec]
  unfold execOldKeyExpiry
  dsimp only
  rw [ho]

end

/-- Settles O6: each command is the start or the failure of an exchange after its clock has passed, or a change of the one
sub-port. -/
theorem linkTimersAndLinks : Obligations.LinkTimersAndLinks := by
  unfold Obligations.LinkTimersAndLinks
  refine ⟨fun h u mac s ha hn hu hl => ?_, fun h u s hl => ?_, fun h u s hr hv ht => ?_, fun h u s hr hv ht => ?_,
    fun h u s hl hr hf => ?_, fun h u a s ht hp hl hr => ?_, fun h u a s ho => ?_⟩
  · refine completes_of_exec (exec_subportLinkUp ha hn hu hl) ?_
    have hsub : subOf (linkedUp s h.val u.val mac) h.val u.val = { subOf s h.val u.val with
        link := true, spent := false, mac := Config.portMac (body s clsPorts) h.val u.val, peerMac := mac } :=
      subOf_modSub_same s _ _ _
    refine ⟨?_, ?_, ?_, ?_, startKx_out .., otherSubs_trans (otherSubs_modSub s _ _ _) (startKx_others _ _ _ _)⟩ <;>
      rw [subOf_startKx, hsub] <;> rfl
  · refine completes_of_exec (exec_subportLinkDown hl) ?_
    refine ⟨?_, ?_, ?_, ?_, ?_, ?_, ?_, otherSubs_modSub s _ _ _, rfl⟩ <;> rw [linkedDown, subOf_modSub_same]
  · refine completes_of_exec ((exec_kx1Retry hr hv).trans (if_neg (Nat.not_le.mpr ht))) ?_
    refine ⟨?_, rfl, now_passTo .., otherSubs_congr (kx1Repeated_others (passTo s _ _) _ _) rfl rfl⟩
    rw [subOf_congr (emit_fab ..), subOf_kx1Repeated]
    rfl
  · refine completes_of_exec ((exec_kx1Retry hr hv).trans (if_pos ht)) ?_
    refine ⟨?_, ?_, ?_, failKx_counts .., rfl, now_passTo .., failKx_others (passTo s _ _) _ _⟩ <;> rw [subOf_failKx] <;> rfl
  · refine completes_of_exec (exec_kxRestart hl hr hf) ?_
    refine ⟨?_, ?_, now_passTo .., startKx_out .., startKx_others (passTo s _ _) _ _ _⟩ <;> rw [subOf_startKx] <;> rfl
  · refine completes_of_exec (exec_rekeyIntervalExpiry ht hp hl hr) ?_
    refine ⟨?_, ?_, ?_, now_passTo .., startKx_out .., startKx_others (passTo s _ _) _ _ _⟩ <;> rw [subOf_startKx]
    · rfl
    · exact ht
    · rfl
  · refine completes_of_exec (exec_oldKeyExpiry ho) ?_
    refine ⟨?_, ?_, ?_, now_passTo .., otherSubs_modSub (passTo s _ _) _ _ _, rfl⟩ <;> rw [subOf_modSub_same] <;> rfl

end Sys2Proof.Proofs

namespace Sys2Proof.Proofs
open Sys2Proof.Machine Sys2Proof.Laws

/-!
Connections and what waits for the egress scheduler. What one record is after each operation on it is said first; then what the
end of a record lets the others send (HandsOn): acknowledgements that reopen credit and segments that a send ring has room for
again. It touches no record of the ended number, and leaves what every other record has received and has to send.
-/

/-! ## One record -/

theorem connOf_modConn_same (s : State) (id : Nat) (f : Conn → Conn) : connOf (modConn s id f) id = (connOf s id).map f :=
  aget_amod_same ..

theorem connOf_modConn_other (s : State) {id j : Nat} (hj : j ≠ id) (f : Conn → Conn) :
    connOf (modConn s id f) j = connOf s j :=
  aget_amod_other hj ..

theorem connOf_congr {s t : State} (h : t.fab = s.fab) (j : Nat) : connOf t j = connOf s j := by rw [connOf, h, connOf]

theorem otherConns_modConn (s : State) (id : Nat) (f : Conn → Conn) : OtherConns s (modConn s id f) id :=
  fun _ hj => connOf_modConn_other s hj f

theorem otherConns_trans {a s t : State} {id : Nat} (f : OtherConns a s id) (g : OtherConns s t id) : OtherConns a t id :=
  fun j hj => (g j hj).trans (f j hj)

theorem otherConns_congr {s t s' t' : State} {id : Nat} (f : OtherConns s t id) (hs : s'.fab = s.fab) (ht : t'.fab = t.fab) :
    OtherConns s' t' id := fun j hj => by rw [connOf_congr hs, connOf_congr ht, f j hj]

/-! ## Frames without a sequence number (10_fabric.md R231) -/

section
variable {s : State} {id : Nat} {c : Conn}

theorem sendUnseq_eq (hc : connOf s id = some c) (op : Opcode) (flags hint : Nat) (payload : List Byte) :
    sendUnseq s id op flags hint payload = toEgress s c.hub id c.peerAddr (frameOf c op flags 0 0 hint payload) := by
  rw [sendUnseq, hc]

theorem oneFrame_sendUnseq (hc : connOf s id = some c) {op : Opcode} (hop : controlOp op = true) (flags hint : Nat)
    (payload : List Byte) : OneFrame s (sendUnseq s id op flags hint payload) id c op := by
  rw [sendUnseq_eq hc]
  exact ⟨frameOf c op flags 0 0 hint payload, by simp [toEgress, frameOf, hop], rfl, rfl, rfl⟩

/-- A record whose acknowledgement has been sent. -/
def acked (c : Conn) : Conn := { c with unacked := 0, ackDue := none }

theorem sendAck_eq (hc : connOf s id = some c) :
    ∃ flags payload, sendAck s id = modConn (sendUnseq s id .ack flags 0 payload) id acked := by
  rw [sendAck, hc]
  exact ⟨_, _, rfl⟩

theorem sendAck_none (hc : connOf s id = none) : sendAck s id = s := by rw [sendAck, hc]

theorem oneFrame_sendAck (hc : connOf s id = some c) : OneFrame s (sendAck s id) id c .ack := by
  obtain ⟨flags, payload, e⟩ := sendAck_eq hc
  rw [e]
  exact oneFrame_sendUnseq (op := .ack) hc rfl flags 0 payload

theorem connOf_sendAck (hc : connOf s id = some c) : connOf (sendAck s id) id = some (acked c) := by
  obtain ⟨flags, payload, e⟩ := sendAck_eq hc
  rw [e, connOf_modConn_same, connOf_congr (sendUnseq_fab ..), hc, Option.map_some]

theorem sendAck_others (hc : connOf s id = some c) : OtherConns s (sendAck s id) id := by
  obtain ⟨flags, payload, e⟩ := sendAck_eq hc
  rw [e]
  exact otherConns_congr (otherConns_modConn (sendUnseq s id .ack flags 0 payload) id acked) (sendUnseq_fab ..).symm rfl

theorem sendAck_rest (s : State) (id : Nat) : sendAck s id = { s with
    fab := { s.fab with conns := (sendAck s id).fab.conns }, traf := { s.traf with egress := (sendAck s id).traf.egress } } := by
  cases hc : connOf s id with
  | none => rw [sendAck_none hc]
  | some c =>
    obtain ⟨flags, payload, e⟩ := sendAck_eq hc
    rw [e, sendUnseq_eq hc]
    rfl

end

/-! ## Segments that leave the egress scheduler (13_traffic.md R307, R308) -/

/-- Only what the scheduler keeps of classes and turns has changed. -/
def ClassesOnly (s t : State) : Prop :=
  t = { s with traf := { s.traf with shapers := t.traf.shapers, turn := t.traf.turn } }

theorem ClassesOnly.trans {a s t : State} (f : ClassesOnly a s) (g : ClassesOnly s t) : ClassesOnly a t := by
  unfold ClassesOnly at *
  rw [g, f]

theorem ClassesOnly.foldl {α : Type} {f : State → α → State} (hf : ∀ s x, ClassesOnly s (f s x)) :
    ∀ (l : List α) (s : State), ClassesOnly s (l.foldl f s)
  | [], _ => rfl
  | x :: l, s => (hf s x).trans (foldl hf l (f s x))

theorem emptied_classes (s : State) (q : Nat × Nat × Nat) : ClassesOnly s (emptied s q) := by
  unfold emptied
  split <;> rfl

theorem keepEgress_rest (s : State) (keep : EgSeg → Bool) : keepEgress s keep = { s with traf := { s.traf with
    egress := s.traf.egress.filter keep, shapers := (keepEgress s keep).traf.shapers,
    turn := (keepEgress s keep).traf.turn } } :=
  ClassesOnly.foldl emptied_classes _ (modTraf s fun x => { x with egress := x.egress.filter keep })

/-! ## What the end of a record lets the others send -/

/-- From s to t connections have handed more to the egress scheduler: none of them has the number id, and none has received
anything or has more or less to send. -/
structure HandsOn (id : Nat) (s t : State) : Prop where
  rest : t = { s with fab := { s.fab with conns := t.fab.conns }, traf := { s.traf with egress := t.traf.egress } }
  conn : connOf t id = connOf s id
  flows : ∀ j, (connOf t j).map flow = (connOf s j).map flow
  egress : ∃ l, t.traf.egress = s.traf.egress ++ l ∧ ∀ e ∈ l, e.conn ≠ id

namespace HandsOn
variable {id j : Nat} {a s t : State}

theorem refl (s : State) : HandsOn id s s := ⟨rfl, rfl, fun _ => rfl, [], by simp, by simp⟩

theorem trans (f : HandsOn id a s) (g : HandsOn id s t) : HandsOn id a t where
  rest := by rw [g.rest, f.rest]
  conn := g.conn.trans f.conn
  flows j := (g.flows j).trans (f.flows j)
  egress := by
    obtain ⟨l, hl, hnl⟩ := f.egress
    obtain ⟨k, hk, hnk⟩ := g.egress
    refine ⟨l ++ k, by rw [hk, hl, List.append_assoc], fun e he => ?_⟩
    exact (List.mem_append.mp he).elim (hnl e) (hnk e)

theorem foldl {α : Type} {f : State → α → State} : ∀ (l : List α) (s : State), (∀ x ∈ l, ∀ s, HandsOn id s (f s x)) →
    HandsOn id s (l.foldl f s)
  | [], s, _ => refl s
  | x :: l, s, hf => (hf x (List.mem_cons_self ..) s).trans
    (foldl l (f s x) fun y hy => hf y (List.mem_cons_of_mem _ hy))

theorem modConn (s : State) (hj : j ≠ id) {f : Conn → Conn} (hf : ∀ c, flow (f c) = flow c) :
    HandsOn id s (modConn s j f) where
  rest := rfl
  conn := connOf_modConn_other s hj.symm f
  flows k := by
    by_cases hk : k = j
    · subst hk
      rw [connOf_modConn_same, Option.map_map]
      exact congrArg (Option.map · _) (funext hf)
    · rw [connOf_modConn_other s hk]
  egress := ⟨[], by simp, by simp⟩

theorem toEgress (s : State) (hj : j ≠ id) (h peer : Nat) (f : Frame) : HandsOn id s (toEgress s h j peer f) :=
  ⟨rfl, rfl, fun _ => rfl, [⟨h, f.cls, j, peer, f⟩], rfl, by simpa using hj⟩

end HandsOn

section
variable {id j : Nat}

theorem sendAck_handsOn (s : State) (hj : j ≠ id) : HandsOn id s (sendAck s j) := by
  cases hc : connOf s j with
  | none => rw [sendAck_none hc]; exact .refl s
  | some c =>
    obtain ⟨flags, payload, e⟩ := sendAck_eq hc
    rw [e, sendUnseq_eq hc]
    exact (HandsOn.toEgress s hj ..).trans (.modConn _ hj fun _ => rfl)

theorem pump_handsOn (s : State) (hj : j ≠ id) : HandsOn id s (pump s j) := by
  unfold pump
  split
  · exact .refl s
  · split
    · exact .refl s
    · refine (HandsOn.foldl _ s fun g _ s => HandsOn.toEgress s hj ..).trans (.modConn _ hj fun c => ?_)
      have hseq : ∀ (r : List Nat) (g : SentSeg), (if r.contains g.seq then { g with queued := true } else g).seq = g.seq :=
        fun r g => by split <;> rfl
      simp only [flow, List.map_map, Function.comp_def, hseq]

theorem pump_failed {s : State} (h : ∀ c, connOf s id = some c → c.state = .failed) : pump s id = s := by
  unfold pump
  split
  · rfl
  · next c hc => exact if_pos (.inr (.inl (h c hc)))

/-- A record that has failed, or is no more, hands on nothing when the send rings of a hub have room again. -/
theorem pumpHub_handsOn {s : State} (h : ∀ c, connOf s id = some c → c.state = .failed) (q : Nat) :
    HandsOn id s (pumpHub s q) := by
  unfold pumpHub
  generalize s.fab.conns.filter _ = l
  induction l generalizing s with
  | nil => exact .refl s
  | cons p l ih =>
    have hp : HandsOn id s (pump s p.1) := by
      by_cases hj : p.1 = id
      · rw [hj, pump_failed h]
        exact .refl s
      · exact pump_handsOn s hj
    exact hp.trans (ih fun c hc => h c (hp.conn ▸ hc))

/-- A record that has failed, or is no more, acknowledges nothing when credit reopens. -/
theorem reopen_handsOn {s : State} (h : ∀ p ∈ s.fab.conns, p.1 = id → p.2.state = .failed) (q : Nat) :
    HandsOn id s (reopen s q) := by
  refine HandsOn.foldl _ s fun p hp s => sendAck_handsOn s fun e => ?_
  obtain ⟨hmem, hst⟩ := List.mem_filter.mp hp
  simp [h p hmem e] at hst

end

/-! ## The end of a record (10_fabric.md R236, R240) -/

section
variable {s : State} {id : Nat} {c : Conn}

/-- The node without a record, before the others send what that permits. -/
def connGone (s : State) (id : Nat) (c : Conn) : State :=
  let mine : Bool := s.fab.conns.all fun p => decide (p.1 = id) || decide (connKey p.2 ≠ connKey c) || decide (p.2.hub ≠ c.hub)
  let s := endSessions (if mine then delete s c.hub clsConn (connKey c) 0 else s) (.conn c.hub id)
  let used := if c.opener ∧ c.state ≠ .failed then [(c.peer, c.id, c.hub, now s c.hub)] else []
  modFab s fun x => { x with conns := adel x.conns id, fillQ := x.fillQ.filter fun p => decide (p.1 ≠ id),
                             usedIds := x.usedIds ++ used }

theorem dropConn_eq (hc : connOf s id = some c) :
    dropConn s id = if c.reasm.isEmpty then connGone s id c else reopen (connGone s id c) c.hub := by
  rw [dropConn, hc]
  rfl

theorem connGone_conns : (connGone s id c).fab.conns = adel s.fab.conns id := by
  unfold connGone
  dsimp only [modFab, endSessions, modTrust]
  split <;> simp

theorem connGone_subs : (connGone s id c).fab.subs = s.fab.subs := by
  unfold connGone
  dsimp only [modFab, endSessions, modTrust]
  split <;> simp

theorem connGone_traf : (connGone s id c).traf = s.traf := by
  unfold connGone
  dsimp only [modFab, endSessions, modTrust]
  split <;> simp

theorem connGone_sessions :
    (connGone s id c).trust.sessions = s.trust.sessions.filter fun y => decide (y.chan ≠ .conn c.hub id) := by
  unfold connGone
  dsimp only [modFab, endSessions, modTrust]
  split <;> simp

theorem connOf_connGone_same : connOf (connGone s id c) id = none := by rw [connOf, connGone_conns, aget_adel_same]

theorem connGone_others : OtherConns s (connGone s id c) id := fun j hj => by
  rw [connOf, connGone_conns, aget_adel_other hj, connOf]

theorem dropConn_handsOn (hc : connOf s id = some c) : HandsOn id (connGone s id c) (dropConn s id) := by
  rw [dropConn_eq hc]
  split
  · exact .refl _
  · refine reopen_handsOn (fun p hp e => ?_) c.hub
    rw [connGone_conns] at hp
    simpa [e] using (List.mem_filter.mp hp).2

theorem connOf_dropConn_same (hc : connOf s id = some c) : connOf (dropConn s id) id = none :=
  (dropConn_handsOn hc).conn.trans connOf_connGone_same

theorem dropConn_flow (hc : connOf s id = some c) : OthersFlow s (dropConn s id) id := fun j hj => by
  rw [(dropConn_handsOn hc).flows, connGone_others j hj]

theorem dropConn_sessions (hc : connOf s id = some c) :
    (dropConn s id).trust.sessions = s.trust.sessions.filter fun y => decide (y.chan ≠ .conn c.hub id) := by
  rw [(dropConn_handsOn hc).rest, ← connGone_sessions (c := c)]

/-- A record that holds no reassembly space ends without a word of the others. -/
theorem dropConn_bare (hc : connOf s id = some c) (hr : c.reasm = []) : dropConn s id = connGone s id c := by
  rw [dropConn_eq hc, hr]
  rfl

end
end Sys2Proof.Proofs

namespace Sys2Proof.Proofs
open Sys2Proof.Machine Sys2Proof.Laws

/-!
The timers of a connection (O7). Each command is a clock that has passed and one operation on the record; what the operations do is
said in the layer of connections above, and for a retransmission and a failure here.
-/

/-! ## Retransmission (10_fabric.md R239, R240) -/

/-- The segments whose rto has passed at a time. -/
def expired (c : Conn) (t : Nat) : List SentSeg := (awaited c).filter fun g => decide (g.sentAt + c.rto ≤ t)

/-- A segment of a record as it waits to leave again. -/
def again (id : Nat) (c : Conn) (g : SentSeg) : EgSeg :=
  ⟨c.hub, g.frame.cls, id, c.peerAddr, { g.frame with flags := g.frame.flags ||| 4 }⟩

/-- A record after one more timeout. -/
def backedOff (s : State) (c : Conn) : Conn :=
  { c with timeouts := c.timeouts + 1, rto := min (2 * c.rto) (rget s .fab_rto_max c.hub 0) }

/-- What a retransmission leaves of a record. -/
def pace (c : Conn) : Nat × Nat × ConnState × List Nat := (c.timeouts, c.rto, c.state, c.ring.map (·.seq))

/-- From s to t the segments l of one record went to the egress scheduler again. -/
structure Resent (id : Nat) (l : List EgSeg) (s t : State) : Prop where
  rest : t = { s with fab := t.fab, traf := { s.traf with egress := s.traf.egress ++ l }, regs := t.regs }
  conn : (connOf t id).map pace = (connOf s id).map pace
  others : OtherConns s t id

theorem Resent.nil (id : Nat) (s : State) : Resent id [] s s := ⟨by rw [List.append_nil], rfl, fun _ _ => rfl⟩

theorem Resent.append {id : Nat} {l k : List EgSeg} {a s t : State} (f : Resent id l a s) (g : Resent id k s t) :
    Resent id (l ++ k) a t where
  rest := by rw [g.rest, f.rest, List.append_assoc]
  conn := g.conn.trans f.conn
  others := otherConns_trans f.others g.others

theorem retransmit_resent (s : State) (id : Nat) (c : Conn) (g : SentSeg) :
    Resent id (if inCredit c g.seq then [again id c g] else []) s (retransmit s id c g) := by
  unfold retransmit
  cases hg : inCredit c g.seq with
  | false => exact .nil id s
  | true =>
    rw [if_neg (show ¬ (!true) = true by decide)]
    refine ⟨rfl, ?_, otherConns_congr (otherConns_modConn s id _) rfl rfl⟩
    have hseq : ∀ y : SentSeg, (if y.seq = g.seq then { y with queued := true, again := true } else y).seq = y.seq := fun y => by
      split <;> rfl
    rw [connOf_modConn_same, Option.map_map, connOf_congr (s := s) (by simp)]
    refine congrArg (Option.map · _) (funext fun x => ?_)
    simp only [pace, Function.comp_def, List.map_map, hseq]

theorem foldl_retransmit_resent (id : Nat) (c : Conn) : ∀ (l : List SentSeg) (s : State),
    Resent id ((l.filter fun g => inCredit c g.seq).map (again id c)) s (l.foldl (fun s g => retransmit s id c g) s)
  | [], s => .nil id s
  | g :: l, s => by
    have h := (retransmit_resent s id c g).append (foldl_retransmit_resent id c l (retransmit s id c g))
    cases hg : inCredit c g.seq <;> simpa [hg] using h

/-! ## Failure (10_fabric.md R236, 15_trust.md R353) -/

/-- A record that has failed. -/
def failedConn (s : State) (c : Conn) : Conn :=
  { c with state := .failed, ring := [], reasm := [], passed := [], refused := [], asked := [], unacked := 0, ackDue := none,
           lastRx := now s c.hub }

/-- The node with a record failed, before the others send what that permits. -/
def connFailed (s : State) (id : Nat) (c : Conn) : State :=
  let s := endSessions (bump s .fab_CONN_FAILED c.hub) (.conn c.hub id)
  keepEgress (modConn s id (failedConn s)) fun e => decide (e.conn ≠ id)

section
variable {s : State} {id : Nat} {c : Conn}

theorem connFail_eq (hc : connOf s id = some c) (ha : c.asked = []) : connFail s id =
    pumpHub (if c.reasm.isEmpty then connFailed s id c else reopen (connFailed s id c) c.hub) c.hub := by
  rw [connFail, hc]
  dsimp only
  rw [reissue, ha]
  rfl

theorem connFailed_conns : (connFailed s id c).fab.conns = amod s.fab.conns id (failedConn s) := by
  unfold connFailed
  dsimp only
  rw [keepEgress_rest]
  rfl

theorem connFailed_egress :
    (connFailed s id c).traf.egress = s.traf.egress.filter fun e => decide (e.conn ≠ id) := by
  unfold connFailed
  dsimp only
  rw [keepEgress_rest]
  rfl

theorem connFailed_regs : (connFailed s id c).regs = (bump s .fab_CONN_FAILED c.hub).regs := by
  unfold connFailed
  dsimp only
  rw [keepEgress_rest]
  rfl

theorem connFailed_rest : connFailed s id c = { s with
    regs := (connFailed s id c).regs, fab := { s.fab with conns := (connFailed s id c).fab.conns },
    traf := (connFailed s id c).traf,
    trust := { s.trust with sessions := s.trust.sessions.filter fun y => decide (y.chan ≠ .conn c.hub id) } } := by
  unfold connFailed
  dsimp only
  rw [keepEgress_rest]
  rfl

theorem connOf_connFailed_same : connOf (connFailed s id c) id = (connOf s id).map (failedConn s) := by
  rw [connOf, connFailed_conns, aget_amod_same, connOf]

theorem connFailed_others : OtherConns s (connFailed s id c) id := fun j hj => by
  rw [connOf, connFailed_conns, aget_amod_other hj, connOf]

/-- Every entry of a failed record has failed, also one that its number would not find. -/
theorem connFailed_failed (p : Nat × Conn) (hp : p ∈ (connFailed s id c).fab.conns) (e : p.1 = id) : p.2.state = .failed := by
  rw [connFailed_conns] at hp
  obtain ⟨q, -, rfl⟩ := List.mem_map.mp hp
  by_cases hq : q.1 = id
  · rw [if_pos hq]
    rfl
  · rw [if_neg hq] at e
    exact absurd e hq

theorem connFail_handsOn (hc : connOf s id = some c) (ha : c.asked = []) :
    HandsOn id (connFailed s id c) (connFail s id) := by
  have hr : HandsOn id (connFailed s id c) (if c.reasm.isEmpty then connFailed s id c else reopen (connFailed s id c) c.hub) := by
    split
    · exact .refl _
    · exact reopen_handsOn connFailed_failed c.hub
  rw [connFail_eq hc ha]
  refine hr.trans (pumpHub_handsOn (fun d hd => ?_) c.hub)
  rw [hr.conn, connOf_connFailed_same, hc] at hd
  cases hd
  rfl

theorem connFail_rest (hc : connOf s id = some c) (ha : c.asked = []) : connFail s id = { s with
    regs := (bump s .fab_CONN_FAILED c.hub).regs, fab := { s.fab with conns := (connFail s id).fab.conns },
    traf := (connFail s id).traf,
    trust := { s.trust with sessions := s.trust.sessions.filter fun y => decide (y.chan ≠ .conn c.hub id) } } := by
  rw [(connFail_handsOn hc ha).rest, connFailed_rest, connFailed_regs]

/-! ## The commands -/

theorem now_congr {t : State} (e : t.life = s.life) (h : Nat) : now t h = now s h := by rw [now, hubSt, e, now, hubSt]

theorem connOf_passTo (s : State) (h t j : Nat) : connOf (passTo s h t) j = connOf s j := rfl

theorem exec_rtoExpiry {g : SentSeg} (hc : connOf s id = some c) (hl : c.live = true)
    (hg : (sortBy (fun g => g.sentAt) (awaited c)).head? = some g) (ht : c.timeouts + 1 < rget s .fab_retx_limit c.hub 0) :
    exec (.rtoExpiry id) s = .next ((expired c (now (passTo s c.hub (g.sentAt + c.rto)) c.hub)).foldl
      (fun s g => retransmit s id c g) (modConn (passTo s c.hub (g.sentAt + c.rto)) id fun x =>
        { x with timeouts := x.timeouts + 1, rto := min (2 * x.rto) (rget s .fab_rto_max c.hub 0) })) := by
  dsimp only [exec]
  unfold execRtoExpiry
  rw [hc]
  dsimp only
  rw [hg]
  dsimp only
  rw [if_neg (by simp [hl])]
  exact if_neg (Nat.not_le.mpr ht)

theorem exec_helloTimeout (hc : connOf s id = some c) (ho : c.state = .opening)
    (ht : c.timeouts + 1 < rget s .fab_retx_limit c.hub 0) : exec (.helloTimeout id) s =
      .next (sendHello (modConn (passTo s c.hub (c.lastRx + c.rto)) id fun x => { x with
        timeouts := x.timeouts + 1, lastRx := now (passTo s c.hub (c.lastRx + c.rto)) x.hub,
        rto := min (2 * x.rto) (rget s .fab_rto_max c.hub 0) }) id) := by
  dsimp only [exec]
  unfold execHelloTimeout
  rw [hc]
  dsimp only
  rw [if_neg (by simp [ho])]
  exact if_neg (Nat.not_le.mpr ht)

theorem exec_creditStallHeartbeat (hc : connOf s id = some c) (hs : stalled c = true) :
    exec (.creditStallHeartbeat id) s = .next (sendHeartbeat (modConn (passTo s c.hub (c.hbAt + c.rto)) id fun x =>
      { x with hbAt := now (passTo s c.hub (c.hbAt + c.rto)) x.hub }) id) := by
  dsimp only [exec]
  unfold execCreditStallHeartbeat
  rw [hc]
  exact if_neg (by simp [hs])

theorem exec_ackDelayExpiry {d : Nat} (hc : connOf s id = some c) (hd : c.ackDue = some d) : exec (.ackDelayExpiry id) s =
    .next (sendAck (passTo s c.hub (d + rget s .fab_ack_delay c.hub 0)) id) := by
  dsimp only [exec]
  unfold execAckDelayExpiry
  rw [hc]
  dsimp only
  rw [hd]

theorem exec_keepaliveExpiry (hc : connOf s id = some c) (hl : c.live = true) : exec (.keepaliveExpiry id) s =
    .next (sendHeartbeat (passTo s c.hub (c.lastRx + 1000000 * rget s .fab_keepalive_ms c.hub 0)) id) := by
  dsimp only [exec]
  unfold execKeepaliveExpiry
  rw [hc]
  exact if_neg (by simp [hl])

/-- The node at the end of a connection's dead_time. -/
def deadAt (s : State) (c : Conn) : State := passTo s c.hub (c.lastRx + 1000000 * rget s .fab_dead_time_ms c.hub 0)

theorem exec_deadTimeExpiry (hc : connOf s id = some c) (hl : c.live = true) : exec (.deadTimeExpiry id) s =
    if c.state = .closing ∧ (!outstanding s id c) = true then .next (dropConn (deadAt s c) id)
    else .next (flush (connFail (deadAt s c) id)) := by
  dsimp only [exec]
  unfold execDeadTimeExpiry
  rw [hc]
  dsimp only
  exact if_neg (by simp [hl])

theorem exec_quietTimeExpiry (hc : connOf s id = some c) (hf : c.state = .failed) : exec (.quietTimeExpiry id) s =
    .next (dropConn (passTo s c.hub (c.lastRx + 1000000 * rget s .fab_quiet_time_ms c.hub 0)) id) := by
  dsimp only [exec]
  unfold execQuietTimeExpiry
  rw [hc]
  exact if_neg (by simp [hf])

theorem sendHeartbeat_eq (hc : connOf s id = some c) :
    sendHeartbeat s id = sendUnseq s id .heartbeat 0 0 (heartbeatPayload s c.hub) := by
  rw [sendHeartbeat, hc]

theorem oneFrame_sendHeartbeat (hc : connOf s id = some c) : OneFrame s (sendHeartbeat s id) id c .heartbeat := by
  rw [sendHeartbeat_eq hc]
  exact oneFrame_sendUnseq (op := .heartbeat) hc rfl 0 0 _

theorem sendHeartbeat_rest (s : State) (id : Nat) : sendHeartbeat s id = { s with
    traf := { s.traf with egress := (sendHeartbeat s id).traf.egress } } := by
  cases hc : connOf s id with
  | none => rw [sendHeartbeat, hc]
  | some c =>
    rw [sendHeartbeat_eq hc, sendUnseq_eq hc]
    rfl

theorem oneFrame_sendHello (hc : connOf s id = some c) : OneFrame s (sendHello s id) id c .hello := by
  rw [sendHello, hc]
  exact ⟨_, rfl, rfl, rfl, rfl⟩

theorem sendHello_rest (s : State) (id : Nat) : sendHello s id = { s with
    traf := { s.traf with egress := (sendHello s id).traf.egress } } := by
  rw [sendHello]
  split <;> rfl

end

/-- Settles O7: after the clock has passed, each timer retransmits, sends one frame, fails the record or ends it. -/
theorem connectionTimers : Obligations.ConnectionTimers := by
  unfold Obligations.ConnectionTimers
  refine ⟨fun id c g s hc hl hg ht => ?_, fun id c s hc ho ht => ?_, fun id c s hc hs => ?_, fun id d c s hc hd => ?_,
    fun id c s hc hl => ?_, fun id c s hc hl ha ho => ?_, fun id c s hc hcl ho => ?_, fun id c s hc hf => ?_⟩
  · refine completes_of_exec (exec_rtoExpiry hc hl hg ht) ?_
    generalize hp : passTo s c.hub (g.sentAt + c.rto) = p
    generalize hb : (modConn p id _) = b
    have h := foldl_retransmit_resent id c (expired c (now p c.hub)) b
    generalize List.foldl _ b _ = t at h ⊢
    have hlife : t.life = p.life := by rw [h.rest, ← hb]; rfl
    have hnow : now t c.hub = now p c.hub := now_congr hlife _
    have hcb : connOf b id = some (backedOff s c) := by
      rw [← hb, connOf_modConn_same, ← hp, connOf_passTo, hc]
      rfl
    refine ⟨by rw [hnow, ← hp, now_passTo], ?_, ?_, ?_, ?_⟩
    · obtain ⟨d, hd, e⟩ := Option.map_eq_some_iff.mp (h.conn.trans (congrArg (Option.map pace) hcb))
      simp only [pace, Prod.mk.injEq] at e
      exact ⟨d, hd, e⟩
    · rw [hnow, h.rest, ← hb, ← hp]
      simp only [expired, List.filter_filter, Bool.and_comm]
      rfl
    · exact otherConns_trans (otherConns_congr (otherConns_modConn p id _) (by rw [← hp]; rfl) (by rw [← hb])) h.others
    · rw [h.rest, ← hb, ← hp]
      rfl
  · refine completes_of_exec (exec_helloTimeout hc ho ht) ?_
    generalize hp : passTo s c.hub (c.lastRx + c.rto) = p
    generalize hb : (modConn p id _) = b
    have hnow : now (sendHello b id) c.hub = now p c.hub := now_congr (by rw [sendHello_rest, ← hb]; rfl) _
    have hcb : connOf b id = some { backedOff s c with lastRx := now p c.hub } := by
      rw [← hb, connOf_modConn_same, ← hp, connOf_passTo, hc]
      rfl
    refine ⟨by rw [hnow, ← hp, now_passTo], ?_, ?_, ?_, ?_⟩
    · rw [hnow, connOf_congr (s := b) (by rw [sendHello_rest])]
      exact hcb
    · have h := oneFrame_sendHello hcb
      rw [← hb, ← hp] at h ⊢
      exact h
    · exact otherConns_congr (otherConns_modConn p id _) (by rw [← hp]; rfl) (by rw [sendHello_rest, ← hb])
    · rw [sendHello_rest, ← hb, ← hp]
      rfl
  · refine completes_of_exec (exec_creditStallHeartbeat hc hs) ?_
    generalize hp : passTo s c.hub (c.hbAt + c.rto) = p
    generalize hb : (modConn p id _) = b
    have hnow : now (sendHeartbeat b id) c.hub = now p c.hub := now_congr (by rw [sendHeartbeat_rest, ← hb]; rfl) _
    have hcb : connOf b id = some { c with hbAt := now p c.hub } := by
      rw [← hb, connOf_modConn_same, ← hp, connOf_passTo, hc]
      rfl
    refine ⟨?_, by rw [hnow, ← hp, now_passTo], ?_, ?_, ?_⟩
    · rw [hnow, connOf_congr (s := b) (by rw [sendHeartbeat_rest])]
      exact hcb
    · have h := oneFrame_sendHeartbeat hcb
      rw [← hb, ← hp] at h ⊢
      exact h
    · exact otherConns_congr (otherConns_modConn p id _) (by rw [← hp]; rfl) (by rw [sendHeartbeat_rest, ← hb])
    · rw [sendHeartbeat_rest, ← hb, ← hp]
      rfl
  · refine completes_of_exec (exec_ackDelayExpiry hc hd) ?_
    refine ⟨connOf_sendAck hc, ?_, oneFrame_sendAck hc, sendAck_others hc, by rw [sendAck_rest]; rfl⟩
    rw [now_congr (s := passTo s c.hub (d + rget s .fab_ack_delay c.hub 0)) (by rw [sendAck_rest]), now_passTo]
  · refine completes_of_exec (exec_keepaliveExpiry hc hl) ?_
    refine ⟨?_, oneFrame_sendHeartbeat hc, by rw [sendHeartbeat_rest]; rfl⟩
    rw [now_congr (s := passTo s c.hub (c.lastRx + 1000000 * rget s .fab_keepalive_ms c.hub 0)) (by rw [sendHeartbeat_rest]),
      now_passTo]
  · refine completes_of_exec ((exec_deadTimeExpiry hc hl).trans (if_neg (by simpa using ho))) ?_
    have hcp : connOf (deadAt s c) id = some c := hc
    have h := connFail_handsOn hcp ha
    have hr := connFail_rest hcp ha
    refine ⟨_, rfl, ⟨failedConn (deadAt s c) c, ?_, rfl, rfl, rfl, rfl⟩, ?_, ?_, ?_, ?_, ?_, ?_, ?_⟩
    · rw [h.conn, connOf_connFailed_same, hcp]
      rfl
    · rw [show s.traf = (deadAt s c).traf from rfl, ← connFailed_egress (c := c)]
      exact h.egress
    · rw [hr]
      rfl
    · rw [show rget (connFail (deadAt s c) id) .fab_CONN_FAILED c.hub 0 =
        rget (bump (deadAt s c) .fab_CONN_FAILED c.hub) .fab_CONN_FAILED c.hub 0 by rw [hr]; rfl, rget_bump_same]
      rfl
    · exact fun j hj => by rw [h.flows, connFailed_others j hj]; rfl
    all_goals rw [hr]; rfl
  · refine completes_of_exec ((exec_deadTimeExpiry hc (by simp [Conn.live, hcl])).trans (if_pos ⟨hcl, by simp [ho]⟩)) ?_
    have hcp : connOf (deadAt s c) id = some c := hc
    refine ⟨connOf_dropConn_same hcp, dropConn_flow hcp, dropConn_mem .., fun hr => ?_, dropConn_sessions hcp⟩
    rw [dropConn_bare hcp hr]
    exact ⟨connGone_others, connGone_traf⟩
  · refine completes_of_exec (exec_quietTimeExpiry hc hf) ?_
    generalize hp : passTo s c.hub _ = p
    have hcp : connOf p id = some c := by rw [← hp]; exact hc
    refine ⟨connOf_dropConn_same hcp, ?_, ?_, fun hr => ?_, ?_⟩
    · exact fun j hj => by rw [dropConn_flow hcp j hj, ← hp]; rfl
    · rw [dropConn_mem, ← hp]
      rfl
    · rw [dropConn_bare hcp hr]
      exact ⟨otherConns_congr (connGone_others (c := c)) (by rw [← hp]; rfl) rfl, by rw [connGone_traf, ← hp]; rfl⟩
    · rw [now_congr (dropConn_life ..), ← hp, now_passTo]

end Sys2Proof.Proofs

namespace Sys2Proof.Proofs
open Sys2Proof.Machine Sys2Proof.Laws

/-!
Messages that leave the queue (O8). The statement lets a NACK that answers no request change nothing but the queue, in every state.
A message that leaves before its handler has started frees the reassembly space that it holds, and that reopens credit (R314, R240):
where it holds some, and its peer has used up what it was granted, an ACK goes to the egress scheduler in the same step. A NACK holds
none when it arrives, but no hypothesis of the statement says so.
-/

/-- A NACK of connection 9 in the queue, with one unit of the reassembly space. -/
def heldNack : Msg := { ownMsg State.reset 0 .nack [] 0 with origin := .conn 0 9 0, units := 1 }

/-- The node with that message, and with nothing left of the credit that its peer was granted. -/
def nackNode : State := setMsgs (modFab State.reset fun x => { x with conns := [(9, spentConn)] }) [(3, heldNack)]

/-- A NACK that answers no request is dropped. -/
theorem exec_nack_of_none {s u : State} {msg : Nat} {m : Msg} (hm : wireMsg s msg .nack = some m)
    (ha : takeAsk s m = (u, none)) : exec (.nack msg) s = .next (dropMsg u msg) := by
  dsimp only [exec]
  unfold execNack
  rw [hm]
  dsimp only
  rw [ha]

theorem takeAsk_nackNode : takeAsk nackNode heldNack = (nackNode, none) := rfl

/-- The step that drops the NACK sends the ACK that reopens the credit. -/
theorem nackNode_sends_ack : (dropMsg nackNode 3).traf.egress ≠ nackNode.traf.egress := by decide +kernel

/-- Refutes O8: a NACK that answers no request is said to change nothing but the queue; on `nackNode` it frees a unit of reassembly
space, and an ACK goes to the egress scheduler (`nackNode_sends_ack`). -/
theorem not_connectionsOpenAndAcknowledge : ¬ Obligations.ConnectionsOpenAndAcknowledge := by
  unfold Obligations.ConnectionsOpenAndAcknowledge
  rintro ⟨-, -, -, -, -, -, -, hnack, -⟩
  have hm : wireMsg nackNode 3 .nack = some heldNack := by decide +kernel
  obtain ⟨t, ht, hrest⟩ := hnack 3 9 0 0 heldNack spentConn nackNode hm rfl rfl rfl (List.forall_mem_nil _)
  rw [exec_nack_of_none hm takeAsk_nackNode] at ht
  cases ht
  exact nackNode_sends_ack (congrArg (·.traf.egress) hrest)

end Sys2Proof.Proofs

namespace Sys2Proof.Proofs
open Sys2Proof.Machine Sys2Proof.Laws

/-!
A frame in another version than its connection's (O9). The NACK that answers it takes the connection's next sequence number; the
segment carries that number modulo 2^32, as every sequence number (R231), and the statement speaks of records of any contents, also of
one whose next sequence number is 2^32. Such a record is out of its field's width and no step reaches it, but no hypothesis of the
statement says so.
-/

/-- An open record of version 0 whose next sequence number does not fit 32 bits. -/
def wideConn : Conn := { spentConn with version := 0, id := 5, sndNext := 2 ^ 32 }

/-- A frame of version 1 to that connection, with a sequence number that it has received. -/
def otherFrame : Frame :=
  { (default : Frame) with version := 1, opcode := Opcode.read.code, src := 2, connId := 5, segCount := 1 }

/-- Its arrival on sub-port 0, in cell mode, under association 1. -/
def otherArrival : Arrival := ⟨0, 128, .cell 0x88B5, true, 1, 5, true, 0, 0, 77, otherFrame.bytes⟩

/-- Hub 0 in service and in cell mode, with the record, its index row and a sub-port that receives. -/
def wideNode : State :=
  let s := modLife State.reset fun l => { l with hubs := [(0, ⟨0, 0, .inService, 0, true, true⟩)] }
  let s := modFab s fun x => { x with conns := [(9, wideConn)] }
  let s := rset (modSub s 0 0 fun p => { p with link := true, up := true, rx := some ⟨1, 2, [], 5⟩ }) .fab_cell_mode 0 0 1
  let place := (0, homeBlock State.reset 0 clsConn (connKey wideConn) * 16)
  modChive s fun c => { c with shadow := [(place, connRow wideConn)], cam := [(place, connRow wideConn)] }

/-- The node with the frame's packet number taken. -/
def wideTaken : State := (secCheck (fecSeen wideNode 0 otherArrival) 0 0 otherArrival).getD wideNode

/-- The sequence numbers that record 9 retains after a step. -/
def ringAfter : Next → List Nat
  | .next t => ((connOf t 9).map fun c => c.ring.map (·.seq)).getD []
  | _ => []

theorem wideNode_arrives : Arrives wideNode wideTaken 0 otherArrival otherFrame := by
  refine ⟨by unfold AtHub; decide +kernel, ?_, rfl, by decide +kernel, by decide +kernel, by decide +kernel, nofun⟩
  exact (Option.getD_of_ne_none (Option.isSome_iff_ne_none.mp (by decide +kernel)) wideNode).symm

theorem wideNode_onOpen : OnOpen wideTaken (frameSeek wideTaken 0 otherFrame).1 0 otherFrame 9 wideConn :=
  ⟨Prod.ext rfl (eq_ok_of_toOption (by decide +kernel)), by decide +kernel, by decide +kernel, rfl, rfl⟩

/-- The NACK takes the number 2^32 modulo 2^32. -/
theorem wideNode_nacks_zero : ringAfter (exec (.plembelFrameReceive 0 otherArrival) wideNode) = [0] := by decide +kernel

/-- Refutes O9: the NACK that answers a frame of another version is said to carry the connection's next sequence number; on
`wideNode`, whose record holds 2^32 there, it carries 0 (`wideNode_nacks_zero`). -/
theorem not_framesReachTheirConnection : ¬ Obligations.FramesReachTheirConnection := by
  unfold Obligations.FramesReachTheirConnection
  rintro ⟨-, -, -, -, -, -, -, -, -, -, hversion⟩
  obtain ⟨t, ht, ⟨d, g, hd, -, hring, hseq, -⟩, -⟩ := hversion 0 otherArrival otherFrame 9 wideConn wideNode wideTaken _
    wideNode_arrives wideNode_onOpen (by decide) (by decide) (by decide) (by decide)
  have hzero := wideNode_nacks_zero
  rw [ht] at hzero
  dsimp only [ringAfter] at hzero
  rw [hd, Option.map_some, Option.getD_some, hring, hseq] at hzero
  exact absurd hzero (by decide)

end Sys2Proof.Proofs

namespace Sys2Proof.Proofs
open Sys2Proof.Machine Sys2Proof.Laws

/-!
What leaves a sub-port (O11). The command is one of five cases (exec_egress_…), and the class that the deficit round robin
names is eligible and its deficit covers its first segment (drr_spec). What the sending changes is said of sendSeg; the choice before it
has changed no more than deficits and the turn, which no count and no frame depends on (leaves_of_classes).
-/

/-! ## What the scheduler keeps (13_traffic.md R307, R308) -/

theorem passTurn_classes (s : State) (h u : Nat) : ClassesOnly s (passTurn s h u) := by
  unfold passTurn
  dsimp only
  split <;> rfl

theorem passTurn_shapers (s : State) (h u : Nat) : (passTurn s h u).traf.shapers = s.traf.shapers := by
  unfold passTurn
  dsimp only
  split <;> rfl

/-- A queue that has emptied loses its deficit and keeps its count. -/
theorem emptied_counts (s : State) (q k : Nat × Nat × Nat) :
    (aget (emptied s q).traf.shapers k).map (·.count) = (aget s.traf.shapers k).map (·.count) := by
  unfold emptied
  split
  · rfl
  · dsimp only [modTraf]
    by_cases hk : k = q
    · rw [hk, aget_amod_same, Option.map_map]
      rfl
    · rw [aget_amod_other hk]

theorem count_shaperOf {s : State} {h u c : Nat} {n : Int} (hn : (aget s.traf.shapers (h, u, c)).map (·.count) = some n) :
    (shaperOf s h u c).count = n := by
  obtain ⟨x, hx, rfl⟩ := Option.map_eq_some_iff.mp hn
  rw [shaperOf, agetD, hx, Option.getD_some]

/-- A class of a sub-port holds its turn, or has passed it on. -/
def HoldsOrPassed (s : State) (h u c : Nat) : Prop :=
  agetD s.traf.turn (h, u) 20 = c ∨ agetD s.traf.turn (h, u) 20 = 16 + nextClass c

theorem HoldsOrPassed.emptied {s : State} {h u c : Nat} (ht : HoldsOrPassed s h u c) :
    HoldsOrPassed (emptied s (h, u, c)) h u c := by
  unfold Machine.emptied
  split
  · exact ht
  · dsimp only [HoldsOrPassed, modTraf, agetD] at ht ⊢
    rw [aget_amod_same]
    cases hv : aget s.traf.turn (h, u) with
    | none => rwa [hv] at ht
    | some t =>
      rw [hv] at ht
      dsimp only [Option.map_some, Option.getD_some] at ht ⊢
      split
      · next hc => exact .inr (by rw [hc])
      · exact ht

theorem HoldsOrPassed.passTurn {s : State} {h u c : Nat} (ht : HoldsOrPassed s h u c) : HoldsOrPassed (passTurn s h u) h u c := by
  unfold Machine.passTurn
  dsimp only
  split
  · next hp =>
    rcases ht with ht | ht
    · right
      rw [ht]
      exact agetD_aset_same ..
    · omega
  · exact ht

/-! ## A sub-port that has an association -/

theorem otherSubs_of_amod {s t : State} {h u : Nat} {f : SubPort → SubPort}
    (e : t.fab.subs = amod s.fab.subs (h, u) f) : OtherSubs s t h u := fun _ hx => by rw [e, aget_amod_other hx]

theorem subOf_of_amod {s t : State} {h u : Nat} {f : SubPort → SubPort} (e : t.fab.subs = amod s.fab.subs (h, u) f)
    (ht : (subOf s h u).tx.isSome = true) : subOf t h u = f (subOf s h u) := by
  dsimp only [subOf, agetD] at ht ⊢
  rw [e, aget_amod_same]
  cases hv : aget s.fab.subs (h, u) with
  | none =>
    rw [hv] at ht
    cases ht
  | some p => rfl

theorem encapOf_congr (s : State) (h : Nat) {f g : Frame} (e : f.connId = g.connId) : encapOf s h f = encapOf s h g := by
  unfold encapOf
  rw [e]

/-! ## The end of a connection in CLOSING -/

theorem settleConn_scheduler (s : State) (id : Nat) : (settleConn s id).fab.subs = s.fab.subs ∧
    (settleConn s id).traf = { s.traf with egress := (settleConn s id).traf.egress } := by
  unfold settleConn
  split
  · next c hc =>
    split
    · rw [(dropConn_handsOn hc).rest, connGone_subs, connGone_traf]
      exact ⟨rfl, rfl⟩
    · exact ⟨rfl, rfl⟩
  · exact ⟨rfl, rfl⟩

/-! ## The sending of a segment (10_fabric.md R223) -/

/-- The frame that carries a segment. -/
def carried (s : State) (e : EgSeg) : Frame :=
  match connOf s e.conn with
  | some c => stamped s c e.frame
  | none => { e.frame with
      loadHint := max e.frame.loadHint (loadHint s e.hub (polEndpoint e.frame.dst) false),
      tag := if e.frame.version = 0 then 0 else configTag s,
      epoch := if e.frame.version = 0 then 0 else s.ledg.newest }

/-- The shaper of a class after a frame of a length. -/
def paid (x : EgClass) (cls len : Nat) : EgClass :=
  { count := x.count - (8 * len : Nat), deficit := if cls < 4 then 0 else x.deficit - len }

/-- The node whose scheduler has given up a segment. -/
def givenUp (s : State) (h u i : Nat) (e : EgSeg) : State :=
  emptied (modTraf (modConn s e.conn (noteSent s (carried s e))) fun x => { x with
    egress := x.egress.eraseIdx i,
    shapers := aset x.shapers (h, u, e.cls) (paid (shaperOf s h u e.cls) e.cls (frameLength s h e.frame)) }) (h, u, e.cls)

/-- The packet number of a sub-port's association has risen by one. -/
def numbered (s : State) (h u : Nat) (sa : SecAssoc) : State :=
  modFab s fun y => { y with subs := amod y.subs (h, u) fun p => { p with tx := some { sa with pn := sa.pn + 1 } } }

/-- The frame as it leaves. -/
def leaving (s : State) (h u : Nat) (e : EgSeg) (sa : SecAssoc) : Out :=
  .frame h u (if rget s .fab_vlan_en h 0 = 1 then some (7 - e.cls / 2) else none) sa.an sa.pn e.peer (frameLength s h e.frame)
    (encapOf s h (carried s e)) (carried s e).bytes

section
variable {s : State} {h u i : Nat} {e : EgSeg} {sa : SecAssoc}

theorem carried_keeps (s : State) (e : EgSeg) : (carried s e).payload = e.frame.payload ∧
    (carried s e).opcode = e.frame.opcode ∧ (carried s e).connId = e.frame.connId ∧ (carried s e).dst = e.frame.dst := by
  unfold carried
  split <;> exact ⟨rfl, rfl, rfl, rfl⟩

theorem givenUp_rest : givenUp s h u i e = { s with
    fab := (modConn s e.conn (noteSent s (carried s e))).fab,
    traf := { s.traf with egress := s.traf.egress.eraseIdx i, shapers := (givenUp s h u i e).traf.shapers,
                          turn := (givenUp s h u i e).traf.turn } } :=
  emptied_classes _ _

theorem sendSeg_eq : sendSeg s h u i e sa =
    settleConn (passTurn (emit (numbered (givenUp s h u i e) h u sa) (leaving s h u e sa)) h u) e.conn := by
  have hr : (givenUp s h u i e).regs = s.regs := by rw [givenUp_rest]
  have hpcp : rget (numbered (givenUp s h u i e) h u sa) .fab_vlan_en h 0 = rget s .fab_vlan_en h 0 := rget_congr hr ..
  have hencap : encapOf (numbered (givenUp s h u i e) h u sa) h (carried s e) = encapOf s h (carried s e) := by
    unfold encapOf
    simp only [rget_congr (t := numbered (givenUp s h u i e) h u sa) hr]
  unfold leaving
  rw [← hpcp, ← hencap]
  rfl

theorem sendSeg_subs : (sendSeg s h u i e sa).fab.subs =
    amod s.fab.subs (h, u) fun p => { p with tx := some { sa with pn := sa.pn + 1 } } := by
  rw [sendSeg_eq, (settleConn_scheduler _ _).1, passTurn_classes, givenUp_rest]
  rfl

theorem sendSeg_out : (sendSeg s h u i e sa).out = s.out ++ [leaving s h u e sa] := by
  rw [sendSeg_eq, settleConn_out, passTurn_classes, givenUp_rest]
  rfl

theorem sendSeg_mem : (sendSeg s h u i e sa).mem = s.mem := by
  rw [sendSeg_eq, settleConn_mem, passTurn_classes, givenUp_rest]
  rfl

theorem sendSeg_seqs : (sendSeg s h u i e sa).seqs = s.seqs := by
  rw [sendSeg_eq, settleConn_seqs, passTurn_classes, givenUp_rest]
  rfl

theorem sendSeg_count : (shaperOf (sendSeg s h u i e sa) h u e.cls).count =
    (shaperOf s h u e.cls).count - (8 * frameLength s h e.frame : Nat) := by
  refine count_shaperOf ?_
  rw [sendSeg_eq, (settleConn_scheduler _ _).2, passTurn_shapers]
  refine (emptied_counts _ (h, u, e.cls) (h, u, e.cls)).trans ?_
  rw [modTraf, aget_aset_same]
  rfl

/-- Sending a segment of a connection that is not closing touches the fabric, the scheduler and what has been shown. -/
theorem sendSeg_open (hc : ∀ c, connOf s e.conn = some c → c.state ≠ .closing) :
    (sendSeg s h u i e sa).traf.egress = s.traf.egress.eraseIdx i ∧
    sendSeg s h u i e sa = { s with fab := (sendSeg s h u i e sa).fab, traf := (sendSeg s h u i e sa).traf,
                                    out := (sendSeg s h u i e sa).out } := by
  have hself : sendSeg s h u i e sa =
      passTurn (emit (numbered (givenUp s h u i e) h u sa) (leaving s h u e sa)) h u := by
    rw [sendSeg_eq]
    refine settleConn_eq_self fun c h' => ?_
    rw [connOf, passTurn_classes, givenUp_rest] at h'
    change connOf (modConn s e.conn (noteSent s (carried s e))) e.conn = some c at h'
    rw [connOf_modConn_same] at h'
    obtain ⟨d, hd, rfl⟩ := Option.map_eq_some_iff.mp h'
    exact hc d hd
  rw [hself, passTurn_classes, givenUp_rest]
  exact ⟨rfl, rfl⟩

theorem sendSeg_leaves (ht : (subOf s h u).tx = some sa) : Leaves s (sendSeg s h u i e sa) h u i e sa := by
  obtain ⟨hpay, hop, hid, hdst⟩ := carried_keeps s e
  have hout : (sendSeg s h u i e sa).out = s.out ++ [.frame h u _ sa.an sa.pn e.peer (frameLength s h e.frame)
      (encapOf s h e.frame) (carried s e).bytes] := sendSeg_out.trans (by rw [leaving, encapOf_congr s h hid])
  have htx : subOf (sendSeg s h u i e sa) h u = _ := subOf_of_amod sendSeg_subs (by rw [ht]; rfl)
  exact ⟨⟨carried s e, _, hpay, hop, hid, hdst, hout⟩, by rw [htx], otherSubs_of_amod sendSeg_subs, sendSeg_count, sendSeg_mem,
    sendSeg_seqs, sendSeg_open⟩

theorem sendSeg_turn (ht : HoldsOrPassed s h u e.cls) : HoldsOrPassed (sendSeg s h u i e sa) h u e.cls := by
  have hg : HoldsOrPassed (givenUp s h u i e) h u e.cls := HoldsOrPassed.emptied ht
  have hp : HoldsOrPassed (passTurn (emit (numbered (givenUp s h u i e) h u sa) (leaving s h u e sa)) h u) h u e.cls :=
    HoldsOrPassed.passTurn hg
  unfold HoldsOrPassed
  rw [sendSeg_eq, (settleConn_scheduler _ _).2]
  exact hp

end

/-! ## The choice of a class (13_traffic.md R307) -/

theorem headOf_cls {q : List (Nat × EgSeg)} {c i : Nat} {e : EgSeg} (hq : headOf q c = some (i, e)) : e.cls = c := by
  simpa using List.find?_some hq

theorem headOf_of_eligible {s : State} {h u c : Nat} {q : List (Nat × EgSeg)} (hc : eligible s h u q c = true) :
    ∃ i e, headOf q c = some (i, e) := by
  unfold eligible at hc
  split at hc
  · cases hc
  · next i e hq => exact ⟨i, e, hq⟩

/-- The class that the round robin names is eligible, and its deficit covers its first segment. -/
theorem drr_spec {s : State} {h u : Nat} {q : List (Nat × EgSeg)} {c : Nat} {ds : Assoc Nat Nat} :
    ∀ {n b : Nat} {begun : Bool} {ds0 : Assoc Nat Nat}, drr s h u q n b begun ds0 = some (c, ds) →
      eligible s h u q c = true ∧ ∃ i e, headOf q c = some (i, e) ∧ frameLength s h e.frame ≤ agetD ds c 0
  | 0, _, _, _, hd => by cases hd
  | n + 1, b, begun, ds0, hd => by
    unfold drr at hd
    split at hd
    · exact drr_spec hd
    · next he =>
      have he : eligible s h u q b = true := by simpa using he
      obtain ⟨i, e, hq⟩ := headOf_of_eligible he
      dsimp only at hd
      generalize (if begun = true then _ else _ : Nat) = d at hd
      rw [hq] at hd
      dsimp only at hd
      split at hd
      · next hlen =>
        cases hd
        exact ⟨he, i, e, hq, by rwa [agetD_aset_same]⟩
      · exact drr_spec hd

/-- A class with another deficit. -/
def setDeficit (h u : Nat) (s : State) (p : Nat × Nat) : State :=
  modTraf s fun t => { t with shapers := aset t.shapers (h, u, p.1) { shaperOf s h u p.1 with deficit := p.2 } }

/-- The node whose scheduler has given a class the turn, with the deficits of the round. -/
def turned (s : State) (h u c : Nat) (ds : Assoc Nat Nat) : State :=
  modTraf (ds.foldl (setDeficit h u) s) fun t => { t with turn := aset t.turn (h, u) c }

theorem count_setDeficit (h u : Nat) (s : State) (p : Nat × Nat) (c : Nat) :
    (shaperOf (setDeficit h u s p) h u c).count = (shaperOf s h u c).count := by
  by_cases hc : c = p.1
  · rw [hc]
    exact count_shaperOf (congrArg _ (aget_aset_same ..))
  · have hk : (h, u, c) ≠ (h, u, p.1) := fun e => hc (Prod.mk.inj (Prod.mk.inj e).2).2
    exact congrArg EgClass.count (agetD_aset_other s.traf.shapers hk ..)

theorem count_foldl_setDeficit (h u c : Nat) : ∀ (ds : Assoc Nat Nat) (s : State),
    (shaperOf (ds.foldl (setDeficit h u) s) h u c).count = (shaperOf s h u c).count
  | [], _ => rfl
  | p :: ds, s => (count_foldl_setDeficit h u c ds _).trans (count_setDeficit h u s p c)

theorem turned_classes (s : State) (h u c : Nat) (ds : Assoc Nat Nat) : ClassesOnly s (turned s h u c ds) :=
  (ClassesOnly.foldl (f := setDeficit h u) (fun _ _ => rfl) ds s).trans rfl

/-- A frame leaves as from the node before deficits and the turn changed. -/
theorem leaves_of_classes {s s' t : State} {h u i : Nat} {e : EgSeg} {sa : SecAssoc} (hs : ClassesOnly s s')
    (hcount : (shaperOf s' h u e.cls).count = (shaperOf s h u e.cls).count) (hl : Leaves s' t h u i e sa) :
    Leaves s t h u i e sa := by
  unfold ClassesOnly at hs
  generalize s'.traf.shapers = shapers, s'.traf.turn = turn at hs
  subst hs
  obtain ⟨hout, htx, hsubs, hc, hmem, hseqs, hopen⟩ := hl
  exact ⟨hout, htx, hsubs, hc.trans (congrArg (· - _) hcount), hmem, hseqs, hopen⟩

/-! ## The cases of the command -/

/-- A sub-port whose association has no packet number left: it is down. -/
def spentSub (p : SubPort) : SubPort := { p with up := false, spent := true, tx := none }

/-- The node with that sub-port. -/
def spent (s : State) (h u : Nat) : State := modFab s fun y => { y with subs := amod y.subs (h, u) spentSub }

section
variable {h : Hub} {v : Sub} {s u : State} {sa : SecAssoc}

theorem exec_egress_noKey (hu : u = atOpportunity s h.val v.val) (ht : (subOf u h.val v.val).tx = none) :
    exec (.egressFrameOpportunity h v) s = .next u := by
  unfold atOpportunity at hu
  dsimp only [exec]
  unfold execEgressFrameOpportunity
  dsimp only
  rw [← hu, show (agetD u.fab.subs (h.val, v.val) default).tx = none from ht]

theorem exec_egress_spent (hu : u = atOpportunity s h.val v.val) (ht : (subOf u h.val v.val).tx = some sa)
    (hp : 2 ^ 62 ≤ sa.pn) : exec (.egressFrameOpportunity h v) s = .next (spent u h.val v.val) := by
  unfold atOpportunity at hu
  dsimp only [exec]
  unfold execEgressFrameOpportunity
  dsimp only
  rw [← hu, show (agetD u.fab.subs (h.val, v.val) default).tx = some sa from ht]
  exact if_pos hp

theorem exec_egress_strict {c i : Nat} {e : EgSeg} (hu : u = atOpportunity s h.val v.val)
    (ht : (subOf u h.val v.val).tx = some sa) (hp : sa.pn < 2 ^ 62)
    (hc : (List.range 4).find? (fun c => eligible u h.val v.val (subQueue u h.val v.val) c) = some c)
    (hq : headOf (subQueue u h.val v.val) c = some (i, e)) :
    exec (.egressFrameOpportunity h v) s = .next (sendSeg u h.val v.val i e sa) := by
  unfold atOpportunity at hu
  dsimp only [exec]
  unfold execEgressFrameOpportunity
  dsimp only
  rw [← hu, show (agetD u.fab.subs (h.val, v.val) default).tx = some sa from ht]
  dsimp only
  rw [if_neg (Nat.not_le.mpr hp), hc, Option.bind_some, hq]

theorem exec_egress_idle (hu : u = atOpportunity s h.val v.val) (ht : (subOf u h.val v.val).tx = some sa)
    (hp : sa.pn < 2 ^ 62)
    (hs : (List.range 4).find? (fun c => eligible u h.val v.val (subQueue u h.val v.val) c) = none)
    (hw : (List.range 16).any (fun c => decide (4 ≤ c) && eligible u h.val v.val (subQueue u h.val v.val) c) = false) :
    exec (.egressFrameOpportunity h v) s = .next u := by
  unfold atOpportunity at hu
  dsimp only [exec]
  unfold execEgressFrameOpportunity
  dsimp only
  rw [← hu, show (agetD u.fab.subs (h.val, v.val) default).tx = some sa from ht]
  dsimp only
  rw [if_neg (Nat.not_le.mpr hp), hs, Option.bind_none, hw]
  rfl

theorem exec_egress_weighted {c i : Nat} {e : EgSeg} {ds : Assoc Nat Nat} (hu : u = atOpportunity s h.val v.val)
    (ht : (subOf u h.val v.val).tx = some sa) (hp : sa.pn < 2 ^ 62)
    (hs : (List.range 4).find? (fun c => eligible u h.val v.val (subQueue u h.val v.val) c) = none)
    (hw : (List.range 16).any (fun c => decide (4 ≤ c) && eligible u h.val v.val (subQueue u h.val v.val) c) = true)
    (hd : drr u h.val v.val (subQueue u h.val v.val) drrFuel
      (if 16 ≤ agetD u.traf.turn (h.val, v.val) 20 then agetD u.traf.turn (h.val, v.val) 20 - 16
        else agetD u.traf.turn (h.val, v.val) 20) (decide (agetD u.traf.turn (h.val, v.val) 20 < 16)) [] = some (c, ds))
    (hq : headOf (subQueue u h.val v.val) c = some (i, e)) :
    exec (.egressFrameOpportunity h v) s = .next (sendSeg (turned u h.val v.val c ds) h.val v.val i e sa) := by
  unfold atOpportunity at hu
  dsimp only [exec]
  unfold execEgressFrameOpportunity
  dsimp only
  rw [← hu, show (agetD u.fab.subs (h.val, v.val) default).tx = some sa from ht]
  dsimp only
  rw [if_neg (Nat.not_le.mpr hp), hs, Option.bind_none, hw]
  dsimp only
  rw [if_neg (by decide), hd]
  dsimp only
  rw [hq]
  rfl

end

/-- Settles O11: each case of the choice, and what the sending of the segment then changes. -/
theorem egressSendsOneFrame : Obligations.EgressSendsOneFrame := by
  unfold Obligations.EgressSendsOneFrame
  refine ⟨fun h v s u hu ht => ?_, fun h v sa s u hu ht hp => ?_, fun h v sa c i e s u hu ht hp hc he hb hq => ?_,
    fun h v sa s u hu ht hp he => ?_, fun h v sa c d ds s u hu ht hp hs hw hd hdrr => ?_⟩
  · exact completes_of_exec (exec_egress_noKey hu ht) rfl
  · refine completes_of_exec (exec_egress_spent hu ht hp) ?_
    have hsub : subOf (spent u h.val v.val) h.val v.val = _ := subOf_of_amod (f := spentSub) rfl (by rw [ht]; rfl)
    exact ⟨rfl, by rw [hsub]; rfl, by rw [hsub]; rfl, by rw [hsub]; rfl,
      otherSubs_of_amod (s := u) (t := spent u h.val v.val) rfl, rfl⟩
  · have hfind : (List.range 4).find? (fun c => eligible u h.val v.val (subQueue u h.val v.val) c) = some c :=
      List.find?_range_eq_some.mpr ⟨he, List.mem_range.mpr hc, fun b hbc => by rw [hb b hbc]; rfl⟩
    exact completes_of_exec (exec_egress_strict hu ht hp hfind hq) ⟨headOf_cls hq, sendSeg_leaves ht⟩
  · refine completes_of_exec (exec_egress_idle hu ht hp ?_ ?_) rfl
    · exact List.find?_range_eq_none.mpr fun b hb => by rw [he b (by omega)]; rfl
    · rw [List.any_eq_false]
      intro b hb
      rw [he b (List.mem_range.mp hb)]
      simp
  · subst hd
    obtain ⟨hc, i, e, hq, hlen⟩ := drr_spec hdrr
    have hcls := headOf_cls hq
    have hfind : (List.range 4).find? (fun c => eligible u h.val v.val (subQueue u h.val v.val) c) = none :=
      List.find?_range_eq_none.mpr fun b hb => by rw [hs b hb]; rfl
    have hany : (List.range 16).any
        (fun c => decide (4 ≤ c) && eligible u h.val v.val (subQueue u h.val v.val) c) = true := by
      obtain ⟨b, h4, h16, hb⟩ := hw
      exact List.any_eq_true.mpr ⟨b, List.mem_range.mpr h16, by simp [h4, hb]⟩
    refine completes_of_exec (exec_egress_weighted hu ht hp hfind hany hdrr hq) ⟨i, e, hq, hcls, hc, hlen, ?_, ?_⟩
    · refine leaves_of_classes (turned_classes u h.val v.val c ds) (count_foldl_setDeficit h.val v.val e.cls ds u)
        (sendSeg_leaves ?_)
      rw [turned_classes u h.val v.val c ds]
      exact ht
    · subst hcls
      exact sendSeg_turn (.inl (agetD_aset_same ..))

end Sys2Proof.Proofs

namespace Sys2Proof.Proofs
open Sys2Proof.Machine Sys2Proof.Laws

/-!
The supply inputs (O36) and what a loss of power or a reset leaves (O37). Every loss of the dies' state is `loseDies`, and
what that keeps is said once.
-/

/-! ## Inputs and rails -/

/-- The standby controller stays, and the rails go: what is lost is what the dies held. -/
theorem loseDies_lost (s : State) : DiesLost s (loseDies s) := by
  refine ⟨?_, ?_, ?_, ?_, ?_, ?_, ?_, ?_, ?_, ?_, ?_, ?_, ?_, ?_, ?_, ?_, ?_, ?_, ?_, ?_, ?_, ?_, ?_, ?_, ?_, ?_, ?_, ?_⟩ <;> rfl

/-- With the rails the ports' test registers and PWROK go; the dies' state is lost. 18_package.md R428. -/
theorem railsOff_eq (s : State) : railsOff s =
    { loseDies s with power := { (loseDies s).power with rails := false, pwrok := false }, taps := [] } := rfl

theorem railsOff_lost (s : State) : DiesLost s (railsOff s) := loseDies_lost s

theorem vsb33Lost_eq (s : State) (h : s.power.vin48 = false) :
    vsb33Lost s = { s with power := { s.power with vsb33 := false } } := by
  unfold vsb33Lost
  rw [if_neg (by simp [h])]
  rfl

theorem vsb33Lost_powered (s : State) (h : s.power.vin48 = true) :
    vsb33Lost s = railsOff (modPower s fun p => { p with vsb33 := false }) := by
  unfold vsb33Lost
  rw [if_pos (by simpa using h)]

theorem vsb33Lost_vsb33 (s : State) : (vsb33Lost s).power.vsb33 = false := by
  unfold vsb33Lost
  dsimp only
  split <;> rfl

theorem railsMayRise_iff (s : State) : railsMayRise s = true ↔
    s.power.vsb33 = true ∧ s.power.vin48 = true ∧ s.power.railFault = false ∧ s.power.trip = none := by
  simp [railsMayRise, and_assoc]

/-- The standby controller as VSB33 leaves it: no trip, no held event, DRAIN# disarmed. 18_package.md R434, R438. -/
def standbyGone (p : Power) : Power :=
  { p with trip := none, drainHeld := false, drainPin := false, drainArmed := false }

theorem exec_vsb33Removed (s : State) : exec .vsb33Removed s =
    .next (modPower (if s.power.vsb33 then vsb33Lost s else s) standbyGone) := rfl

/-- Settles O36: a loss of VSB33 by `vsb33Lost_eq` and `vsb33Lost_powered`, the release of PWROK by `railsMayRise_iff`, and
VIN48 by its three ranges (that it faults above 60 V is assumption 125; R425 allows excursions to 64 V). -/
theorem inputsReachLimits : Obligations.InputsReachLimits := by
  unfold Obligations.InputsReachLimits
  refine ⟨fun low s h => completes_of_exec (if_neg (by simp [h])) rfl,
    fun s h hv => completes_of_exec rfl ?_, fun s h hv => completes_of_exec rfl ?_, fun s => ?_, fun mv s hl hh => ?_,
    fun mv s hl => ?_, fun mv s hh => if_pos hh, fun s hs hv hf ht => ?_, fun s hn => ?_⟩
  · rw [if_pos h, vsb33Lost_eq s hv]
  · rw [if_pos h, vsb33Lost_powered s hv]
    exact ⟨rfl, rfl, rfl, hv, rfl, rfl, rfl, rfl, rfl, rfl, rfl⟩
  · refine completes_of_exec (exec_vsb33Removed s) ⟨?_, rfl, rfl, rfl, fun hn => ?_⟩
    · by_cases h : s.power.vsb33 = true
      · rw [if_pos h]
        exact vsb33Lost_vsb33 s
      · rw [if_neg h]
        exact Bool.eq_false_iff.mpr h
    · by_cases h : s.power.vsb33 = true
      · rw [if_pos h, vsb33Lost_eq s (hn.resolve_left (by simp [h]))]
        rfl
      · rw [if_neg h]
        have hf := Bool.eq_false_iff.mpr h
        unfold modPower standbyGone
        rw [← hf]
  · exact completes_of_exec ((if_neg (by omega)).trans (if_neg (by omega))) rfl
  · exact (if_neg (by omega)).trans (if_pos hl)
  · exact completes_of_exec (if_pos ((railsMayRise_iff s).mpr ⟨hs, hv, hf, ht⟩)) rfl
  · refine if_neg fun hr => ?_
    obtain ⟨hs, hv, hf, ht⟩ := (railsMayRise_iff s).mp hr
    rcases hn with hn | hn | hn | hn
    · exact absurd hs (by simp [hn])
    · exact absurd hv (by simp [hn])
    · exact absurd hf (by simp [hn])
    · exact hn ht

/-- Settles O37: what is lost is `loseDies_lost`; each command then sets its own bits of the standby controller. -/
theorem lossOfPowerAndReset : Obligations.LossOfPowerAndReset := by
  unfold Obligations.LossOfPowerAndReset
  refine ⟨fun s => completes_of_exec rfl ⟨railsOff_lost _, rfl, rfl, rfl, rfl, rfl, rfl, rfl⟩,
    fun s h => completes_of_exec (if_pos h) ⟨railsOff_lost _, rfl, rfl, rfl, rfl, rfl⟩,
    fun s h => if_neg (by simp [h]), fun s h => completes_of_exec rfl ?_, fun s h => completes_of_exec rfl ?_⟩
  · rw [if_pos h]
    exact ⟨loseDies_lost s, rfl, rfl, rfl, rfl, rfl⟩
  · rw [if_neg (by simp [h])]
    rfl

end Sys2Proof.Proofs

namespace Sys2Proof.Proofs
open Sys2Proof.Machine Sys2Proof.Laws

/-!
THROTTLE# and DRAIN# (O38), and the test access port (O39): the lands that reach the dies from outside.
-/

/-! ## THROTTLE# and DRAIN# -/

theorem levelOf_settleLevels_running {s : State} {k : Nat} (h : (dillOf s k).segment = true) :
    levelOf (settleLevels s) k = levelOf s k := by
  unfold settleLevels
  generalize List.range 32 = l
  induction l generalizing s with
  | nil => rfl
  | cons j l ih =>
    rw [List.foldl_cons, ih (by rw [(settleLevel_only s j).dillOf_eq, h])]
    by_cases hj : k = j
    · subst hj
      unfold settleLevel
      rw [if_pos (.inl h)]
    · exact levelOf_settleLevel_other s hj

/-- What a change of THROTTLE# leaves: the lands's state, and the levels of the slices between segments. -/
theorem settleLevels_throttled {s u : State} (hu : u.mem = s.mem) (hd : u.dill = s.dill) :
    (settleLevels u).power = u.power ∧ (settleLevels u).mem.cells = s.mem.cells ∧
      (∀ k, k < 32 → (dillOf s k).segment = false → levelOf (settleLevels u) k = dueLevel (settleLevels u) k) ∧
      (∀ k, k < 32 → (dillOf s k).segment = true → levelOf (settleLevels u) k = levelOf s k) := by
  have hdill : ∀ k, dillOf u k = dillOf s k := fun k => by simp only [dillOf, hd]
  refine ⟨by rw [(settleLevels_only u).rest], by rw [(settleLevels_only u).cells_eq, hu], fun k hk h => ?_, fun k _ h => ?_⟩
  · exact settleLevels_due hk (by rw [hdill, h])
  · rw [levelOf_settleLevels_running (by rw [hdill, h])]
    simp only [levelOf, hu]

theorem exec_throttleAssert {s : State} (h : s.power.diesOut = true) :
    exec .throttleAssert s = .next (settleLevels (modPower s fun p => { p with throttle := true })) :=
  congrArg Host.Outcome.next (if_pos h)

theorem exec_throttleRelease {s : State} (h : s.power.diesOut = true) :
    exec .throttleRelease s = .next (settleLevels (modPower s fun p => { p with throttle := false })) :=
  congrArg Host.Outcome.next (if_pos h)

/-- Without a drain latched or a shutdown a draining node returns to service. 18_package.md R433. -/
theorem endDraining_returns {s : State} (hn : s.life.node = 3) (hl : drainLatched s = false) (ho : shuttingDown s = false) :
    endDraining s = modLife s fun l => { l with node := 2 } := if_pos ⟨hn, by simp [hl], by simp [ho]⟩

theorem endDraining_stays {s : State} (h : s.life.node ≠ 3 ∨ drainLatched s = true ∨ shuttingDown s = true) :
    endDraining s = s := by
  refine if_neg ?_
  rintro ⟨hn, hl, ho⟩
  rcases h with h | h | h
  · exact h hn
  · exact hl h
  · exact ho h

theorem takeDrain_held {s : State} (h : s.power.diesOut = false) :
    takeDrain s = modPower s fun p => { p with drainHeld := true } := if_pos (.inr (by simp [h]))

theorem takeDrain_drains {s : State} (h : s.power.diesOut = true) (hn : s.life.node = 2) :
    takeDrain s = { s with power := { s.power with drainPin := true }, life := { s.life with node := 3 } } := by
  unfold takeDrain
  rw [if_neg (by simp [h, hn]), if_pos (.inl hn)]
  exact if_pos hn

/-- Settles O38: THROTTLE# by `settleLevels_throttled`, an event by `takeDrain_held` and `takeDrain_drains`, and re-arming by
`endDraining_returns` and `endDraining_stays`. -/
theorem throttleAndDrainLands : Obligations.ThrottleAndDrainLands := by
  unfold Obligations.ThrottleAndDrainLands
  refine ⟨fun s h => ?_, fun s h => ?_, fun s hv ha hd hn => ?_, fun s hv ha hd => ?_, fun s ha => ?_,
    fun s hv hs hn ho => ?_, fun s hv hn => ?_⟩
  · exact completes_of_exec (exec_throttleAssert h) (settleLevels_throttled rfl rfl)
  · exact completes_of_exec (exec_throttleRelease h) (settleLevels_throttled rfl rfl)
  · exact completes_of_exec (if_pos ⟨hv, ha⟩) (takeDrain_drains hd hn)
  · exact completes_of_exec (if_pos ⟨hv, ha⟩) (takeDrain_held hd)
  · exact if_neg (by simp [ha])
  · refine completes_of_exec (if_pos hv) (endDraining_returns hn ?_ ?_)
    · simp [drainLatched, hs]
    · simp [shuttingDown, ho]
  · refine completes_of_exec (if_pos hv) (endDraining_stays (hn.imp_right fun hs => .inl ?_))
    simp [drainLatched, hs]

/-! ## The test access port (18_package.md R442, R443) -/

theorem tapRun_off {s : State} (h : s.power.rails = false) (d : Nat) (free : Bool) (f : State → State) :
    tapRun s d free f = .next s := if_pos (by simp [h])

/-- An instruction runs while RESET# is low, and BYPASS and IDCODE always. -/
theorem tapRun_runs {s : State} (h : s.power.rails = true) {free : Bool} (hf : free = true ∨ s.power.resetLow = true)
    (d : Nat) (f : State → State) : tapRun s d free f = .next (f s) :=
  (if_neg (by simp [h])).trans (if_pos hf)

theorem tapRun_bypasses {s : State} (h : s.power.rails = true) (hr : s.power.resetLow = false) (d : Nat)
    (f : State → State) : tapRun s d false f = .next (tapBypass s d) :=
  (if_neg (by simp [h])).trans (if_neg (by simp [hr]))

theorem tapOf_modTap_same (s : State) (d : Nat) (f : Tap → Tap) : tapOf (modTap s d f) d = f (tapOf s d) :=
  agetD_aset_same ..

theorem tapOf_modTap_other (s : State) {d e : Nat} (h : e ≠ d) (f : Tap → Tap) : tapOf (modTap s d f) e = tapOf s e :=
  agetD_aset_other _ h ..

/-- With the checker off a test register shows what it holds. -/
theorem testCapture_off {r : BitVec 64} (h : bit1 r.toNat 12 = false) (s : State) : testCapture s r = (r, s) :=
  if_neg (by simp [h])

/-- A number below 2^13 and a count of 16 bits fill a test register without overlap. -/
theorem testReg_toNat (old data : BitVec 64) : (testReg old data).toNat =
    data.toNat % 8192 + (if bit1 data.toNat 12 then 0 else bits old.toNat 47 16) * 65536 := by
  have he : (if bit1 data.toNat 12 then 0 else bits old.toNat 47 16) < 2 ^ 32 := by
    split
    · omega
    · exact Nat.mod_lt _ (by omega)
  have hd : bits data.toNat 12 0 = data.toNat % 8192 := by simp [bits]
  simp only [testReg, hd, BitVec.toNat_ofNat]
  refine Nat.mod_eq_of_lt ?_
  omega

/-- The control bits are as written; the count is kept, or cleared by chk_en. 18_package.md R443. -/
theorem testReg_written (old data : BitVec 64) : (testReg old data).toNat % 8192 = data.toNat % 8192 ∧
    bits (testReg old data).toNat 47 16 = if bit1 data.toNat 12 then 0 else bits old.toNat 47 16 := by
  have he : (if bit1 data.toNat 12 then 0 else bits old.toNat 47 16) < 2 ^ 32 := by
    split
    · omega
    · exact Nat.mod_lt _ (by omega)
  have hb : ∀ n, bits n 47 16 = n / 65536 % 2 ^ 32 := fun n => by simp [bits]
  rw [hb, testReg_toNat]
  generalize (if bit1 data.toNat 12 then 0 else bits old.toNat 47 16) = e at he
  omega

/-- What an instruction of a port does, where it runs. -/
def tapEffect (s : State) (d : Nat) (f : Tap → Tap) (shown : List Bool) : State :=
  emit (modTap s d f) (.tdo d shown)

theorem exec_bypass (d : Die) (s : State) : exec (.bypass d) s =
    tapRun s d.val true fun s => tapEffect s d.val (fun t => { t with instr := .bypass }) [false] := rfl

theorem exec_idcode (d : Die) (s : State) : exec (.idcode d) s = tapRun s d.val true fun s =>
    tapEffect s d.val (fun t => { t with instr := .idcode }) (bitList 32 (idcode d.val)) := rfl

theorem exec_samplePreload (d : Die) (lands pre : List Bool) (s : State) : exec (.samplePreload d lands pre) s =
    tapRun s d.val false fun s =>
      tapEffect s d.val (fun t => { t with instr := .samplePreload, cells := pre }) lands := rfl

theorem exec_extest (d : Die) (lands : List Bool) (s : State) : exec (.extest d lands) s =
    tapRun s d.val false fun s => tapEffect s d.val (fun t => { t with instr := .extest }) lands := rfl

theorem exec_clamp (d : Die) (s : State) : exec (.clamp d) s =
    tapRun s d.val false fun s => tapEffect s d.val (fun t => { t with instr := .clamp }) [false] := rfl

theorem exec_highz (d : Die) (s : State) : exec (.highz d) s =
    tapRun s d.val false fun s => tapEffect s d.val (fun t => { t with instr := .highz }) [false] := rfl

theorem exec_linktest (d : Die) (data : BitVec 64) (s : State) : ∃ f, exec (.linktest d data) s = tapRun s d.val false f ∧
    (unitExists d.val (data.toNat % 256) = true → bit1 (tapOf s d.val).linktest.toNat 12 = false →
      f s = tapEffect s d.val (fun t => { t with instr := .linktest, linktest := testReg (tapOf s d.val).linktest data })
        (bitList 64 (tapOf s d.val).linktest.toNat)) := by
  dsimp only [exec]
  refine ⟨_, rfl, fun hu hc => ?_⟩
  have hb : bits data.toNat 7 0 = data.toNat % 256 := by simp [bits]
  rw [if_pos (by rw [hb]; exact hu), testCapture_off hc]
  rfl

theorem exec_hbmloop (d : Die) (data : BitVec 64) (s : State) : ∃ f, exec (.hbmloop d data) s = tapRun s d.val false f ∧
    (d.val < 32 → data.toNat % 256 < 64 → bit1 (tapOf s d.val).hbmloop.toNat 12 = false →
      f s = tapEffect s d.val (fun t => { t with instr := .hbmloop, hbmloop := testReg (tapOf s d.val).hbmloop data })
        (bitList 64 (tapOf s d.val).hbmloop.toNat)) := by
  dsimp only [exec]
  refine ⟨_, rfl, fun hd hu hc => ?_⟩
  have hb : bits data.toNat 7 0 = data.toNat % 256 := by simp [bits]
  rw [if_pos ⟨hd, by rw [hb]; exact hu⟩, testCapture_off hc]
  rfl

/-- A test register after its instruction: shown as it was, then written. -/
theorem tapTest_written {s t : State} {d : Nat} {i : TapInstr} {r : BitVec 64} {g : Tap → BitVec 64} {f : Tap → Tap}
    (ht : t = tapEffect s d f (bitList 64 r.toNat)) (hi : (f (tapOf s d)).instr = i) (data : BitVec 64)
    (hg : g (f (tapOf s d)) = testReg r data) :
    t.out = s.out ++ [.tdo d (bitList 64 r.toNat)] ∧ (tapOf t d).instr = i ∧
      (g (tapOf t d)).toNat % 8192 = data.toNat % 8192 ∧
      bits (g (tapOf t d)).toNat 47 16 = (if bit1 data.toNat 12 then 0 else bits r.toNat 47 16) ∧
      (∀ e, e ≠ d → tapOf t e = tapOf s e) ∧ t = { s with out := t.out, taps := t.taps } := by
  have hsame : tapOf t d = f (tapOf s d) := by rw [ht]; exact tapOf_modTap_same s d f
  refine ⟨by rw [ht]; rfl, by rw [hsame, hi], ?_, ?_, fun e he => by rw [ht]; exact tapOf_modTap_other s he f, by rw [ht]; rfl⟩
  · rw [hsame, hg]; exact (testReg_written r data).1
  · rw [hsame, hg]; exact (testReg_written r data).2

theorem aget_mapVal {κ α β : Type} [DecidableEq κ] (f : α → β) (k : κ) :
    ∀ m : Assoc κ α, aget (m.map fun p => (p.1, f p.2)) k = (aget m k).map f
  | [] => rfl
  | (j, v) :: m => by
    by_cases h : j = k
    · simp [aget, h]
    · simp [aget, h, aget_mapVal f k m]

/-- TRST# puts every port to IDCODE and keeps its cells. -/
theorem tapOf_tapReset (s : State) (d : Nat) :
    tapOf (setTaps s (s.taps.map fun p => (p.1, { p.2 with instr := .idcode }))) d =
      { tapOf s d with instr := .idcode } := by
  simp only [tapOf, agetD, setTaps_taps, aget_mapVal (fun x : Tap => { x with instr := .idcode })]
  cases aget s.taps d <;> rfl

/-- Each of the six that RESET# gates is run by the port, but not freely. -/
theorem gated_run {d : Die} {lands pre : List Bool} {data : BitVec 64} {c : Instr}
    (h : c ∈ [Instr.samplePreload d lands pre, .extest d lands, .clamp d, .highz d, .linktest d data, .hbmloop d data])
    (s : State) : ∃ f, exec c s = tapRun s d.val false f := by
  simp only [List.mem_cons, List.not_mem_nil, or_false] at h
  rcases h with rfl | rfl | rfl | rfl | rfl | rfl <;> dsimp only [exec] <;> exact ⟨_, rfl⟩

/-- Settles O39: an instruction runs, acts as BYPASS or does nothing by `tapRun_runs`, `tapRun_bypasses` and `tapRun_off`; the
two test registers are `tapTest_written`. -/
theorem testPortShiftsOut : Obligations.TestPortShiftsOut := by
  unfold Obligations.TestPortShiftsOut
  refine ⟨fun d s h => ?_, fun d s h => ?_, fun d lands pre s h hr => ⟨?_, ?_, ?_, ?_⟩, fun d data s h hr hu hc => ?_,
    fun d data s h hr hd hu hc => ?_, fun d lands pre data s c h hr hm => ?_, fun s => ?_, fun d lands pre data s c h hm => ?_⟩
  · exact completes_of_exec ((exec_bypass d s).trans (tapRun_runs h (.inl rfl) ..)) rfl
  · exact completes_of_exec ((exec_idcode d s).trans (tapRun_runs h (.inl rfl) ..)) rfl
  · exact completes_of_exec ((exec_samplePreload d lands pre s).trans (tapRun_runs h (.inr hr) ..)) rfl
  · exact completes_of_exec ((exec_extest d lands s).trans (tapRun_runs h (.inr hr) ..)) rfl
  · exact completes_of_exec ((exec_clamp d s).trans (tapRun_runs h (.inr hr) ..)) rfl
  · exact completes_of_exec ((exec_highz d s).trans (tapRun_runs h (.inr hr) ..)) rfl
  · obtain ⟨f, hf, hs⟩ := exec_linktest d data s
    exact completes_of_exec (hf.trans (tapRun_runs h (.inr hr) ..))
      (tapTest_written (g := (·.linktest)) (hs hu hc) rfl data rfl)
  · obtain ⟨f, hf, hs⟩ := exec_hbmloop d data s
    exact completes_of_exec (hf.trans (tapRun_runs h (.inr hr) ..))
      (tapTest_written (g := (·.hbmloop)) (hs hd hu hc) rfl data rfl)
  · obtain ⟨f, hf⟩ := gated_run hm s
    rw [hf, tapRun_bypasses h hr]
    exact ((exec_bypass d s).trans (tapRun_runs h (.inl rfl) ..)).symm
  · refine completes_of_exec rfl ⟨fun d => ?_, fun d => ?_, rfl⟩ <;> rw [tapOf_tapReset]
  · rcases List.mem_cons.mp hm with rfl | hm
    · exact (exec_bypass d s).trans (tapRun_off h ..)
    · rcases List.mem_cons.mp hm with rfl | hm
      · exact (exec_idcode d s).trans (tapRun_off h ..)
      · obtain ⟨f, hf⟩ := gated_run hm s
        exact hf.trans (tapRun_off h ..)

end Sys2Proof.Proofs

namespace Sys2Proof.Proofs
open Sys2Proof.Machine Sys2Proof.Laws

/-!
The Bay journal (O34), its window and the records of histograms and metering (O35). What forms records alone is said once
(Noted); the flash translation is then followed by the ring, the bad blocks and the pages that hold a block (Retired).
-/

/-! ## Records are noted -/

/-- From s to t records have been formed and health events noted; nothing has been programmed. -/
structure Noted (s t : State) : Prop where
  flash : ∃ b, t.jrnl.flash = { s.jrnl.flash with readonly := b }
  held : ∀ r ∈ t.jrnl.held, r ∈ s.jrnl.held ∨ r.seq = 0
  regs : ∀ r i e, r ≠ .health_JOURNAL_DROPS → r ≠ .health_events → rget t r i e = rget s r i e
  mem : t.mem = s.mem
  life : t.life = s.life

namespace Noted
variable {a s t : State}

theorem refl (s : State) : Noted s s := ⟨⟨_, rfl⟩, fun _ h => .inl h, fun _ _ _ _ _ => rfl, rfl, rfl⟩

theorem trans (f : Noted a s) (g : Noted s t) : Noted a t := by
  obtain ⟨b, hb⟩ := f.flash
  obtain ⟨c, hc⟩ := g.flash
  refine ⟨⟨c, by rw [hc, hb]⟩, fun r hr => ?_, fun r i e hd he => (g.regs r i e hd he).trans (f.regs r i e hd he),
    g.mem.trans f.mem, g.life.trans f.life⟩
  rcases g.held r hr with h | h
  · exact f.held r h
  · exact .inr h

end Noted

theorem journal_noted (s : State) (h type : Nat) (payload : List Byte) : Noted s (journal s h type payload) := by
  unfold journal
  dsimp only
  split
  · exact ⟨⟨_, rfl⟩, fun _ hr => .inl hr, fun r i e hd _ => rget_bump_other s hd .., rfl, rfl⟩
  · refine ⟨⟨_, rfl⟩, fun r hr => ?_, fun _ _ _ _ _ => rfl, rfl, rfl⟩
    rcases List.mem_append.mp hr with hr | hr
    · exact .inl hr
    · rw [List.mem_singleton.mp hr]
      exact .inr rfl

theorem healthEvent_noted (s : State) (die bit v : Nat) : Noted s (healthEvent s die bit v) := by
  have hj := journal_noted s (dieHub s die) 0x21 (leBytes 2 die ++ leBytes 2 bit ++ leBytes 4 v)
  unfold healthEvent
  dsimp only
  generalize journal s (dieHub s die) 0x21 (leBytes 2 die ++ leBytes 2 bit ++ leBytes 4 v) = u at hj
  have hset : ∀ n, Noted u (rset u .health_events 0 0 n) := fun n =>
    ⟨⟨_, rfl⟩, fun _ hr => .inl hr, fun r i e _ he => rget_rset_other u _ fun hx => he (Prod.mk.inj hx).1, rfl, rfl⟩
  refine hj.trans ?_
  split
  · exact (hset _).trans ⟨⟨_, rfl⟩, fun _ hr => .inl hr, fun _ _ _ _ _ => rfl, rfl, rfl⟩
  · exact hset _

theorem flashRecord_noted (s : State) (blk cause : Nat) : Noted s (flashRecord s blk cause) := journal_noted ..

theorem settleFlash_noted (s : State) (old : Flash) : Noted s (settleFlash s old) := by
  have hlow : Noted s (if s.jrnl.flash.low ∧ ¬ old.low then healthEvent s (32 + (nandHub s).getD 0) 6
      (if s.jrnl.flash.spareLeft < 25 then s.jrnl.flash.spareLeft else s.jrnl.flash.wearUsed) else s) := by
    split
    · exact healthEvent_noted ..
    · exact .refl s
  have hro : ∀ u, Noted u (modFlash u fun x => { x with readonly := true }) := fun u =>
    ⟨⟨_, rfl⟩, fun _ hr => .inl hr, fun _ _ _ _ _ => rfl, rfl, rfl⟩
  unfold settleFlash
  dsimp only
  refine hlow.trans ?_
  generalize (if s.jrnl.flash.low ∧ ¬ old.low then healthEvent s (32 + (nandHub s).getD 0) 6
    (if s.jrnl.flash.spareLeft < 25 then s.jrnl.flash.spareLeft else s.jrnl.flash.wearUsed) else s) = u
  split
  · exact (hro u).trans (healthEvent_noted ..)
  · exact .refl u

theorem Noted.foldl {α : Type} {f : State → α → State} (hf : ∀ s x, Noted s (f s x)) :
    ∀ (l : List α) (s : State), Noted s (l.foldl f s)
  | [], s => .refl s
  | x :: l, s => (hf s x).trans (Noted.foldl hf l (f s x))

/-! ## Arrival (17_health.md R408) -/

theorem journalPath_iff (s : State) : journalPath s = true ↔
    (nandHub s).isSome = true ∧ s.jrnl.flash.mounted = true ∧ s.jrnl.flash.readonly = false := by
  simp [journalPath, and_assoc]

theorem dropEvents_none {s : State} (h : s.jrnl.dropped = []) : dropEvents s = s := by
  unfold dropEvents
  split
  · rfl
  · have hs : modJrnl s (fun j => { j with dropped := [] }) = s := by
      unfold modJrnl
      rw [← h]
    simp only [hs, h, List.eraseDups_nil, List.foldl_nil]

/-- The oldest record of a hub that has none takes the next record_seq and the next place. -/
theorem arriveRec_fits {s : State} {h : Nat} {r : JRec} (hp : journalPath s = true) (hr : oldestHeld s h = some r)
    (hf : s.jrnl.flash.fillLen + r.length ≤ 4096) :
    (arriveRec s h).jrnl.flash.fill = s.jrnl.flash.fill ++ [{ r with seq := s.jrnl.nextSeq }] ∧
      (arriveRec s h).jrnl.nextSeq = s.jrnl.nextSeq + 1 ∧
      { r with seq := s.jrnl.nextSeq } ∈ (arriveRec s h).jrnl.held ∧
      (arriveRec s h).jrnl.held.length = s.jrnl.held.length ∧ arriveRec s h = { s with jrnl := (arriveRec s h).jrnl } := by
  obtain ⟨hn, hm, hro⟩ := (journalPath_iff s).mp hp
  obtain ⟨v, hv⟩ := Option.isSome_iff_exists.mp hn
  have hw : ¬ (¬ s.jrnl.flash.writable = true ∨ 4096 < s.jrnl.flash.fillLen + r.length) := by
    simp [Flash.writable, hm, hro, hf]
  unfold arriveRec
  rw [hr, hv]
  dsimp only
  rw [if_neg hw]
  refine ⟨rfl, rfl, List.mem_map.mpr ⟨r, List.mem_of_find?_eq_some hr, if_pos rfl⟩, List.length_map .., rfl⟩

/-! ## Programming (17_health.md R409, R411) -/

theorem nandHub_passTo (s : State) (h t : Nat) : nandHub (passTo s h t) = nandHub s := by
  simp only [nandHub, hubAlive_passTo]

theorem journalPath_passTo (s : State) (h t : Nat) : journalPath (passTo s h t) = journalPath s := by
  simp only [journalPath, nandHub_passTo]
  rfl

/-- The page being filled stands in the head block. -/
def headWritten (s : State) : State :=
  modFlash s fun x => { x with pages := aset x.pages (x.log 0, x.headPage) x.fill, headPage := x.headPage + 1 }

/-- The page being filled is programmed into the head block, and a full head block gives way. -/
def writeHead (s : State) : State :=
  let s := programmed (headWritten s)
  if s.jrnl.flash.headPage < 64 then s else modFlash s Flash.switchHead

/-- Programming changes the journal, its own statistics, and nothing else. -/
theorem programmed_rest (s : State) :
    (programmed s).mem = s.mem ∧ (programmed s).regs = s.regs ∧ (programmed s).life = s.life := ⟨rfl, rfl, rfl⟩

theorem headWritten_rest (s : State) :
    (headWritten s).mem = s.mem ∧ (headWritten s).regs = s.regs ∧ (headWritten s).life = s.life := ⟨rfl, rfl, rfl⟩

theorem writeHead_of_lt {s : State} (h : s.jrnl.flash.headPage + 1 < 64) : writeHead s = programmed (headWritten s) :=
  if_pos h

theorem programPage_eq {s : State} (hp : journalPath s = true) (hf : s.jrnl.flash.fill ≠ []) :
    programPage s = settleFlash (writeHead s) s.jrnl.flash := by
  unfold programPage
  exact if_neg (by simp [hf, hp])

/-- A page that is not the head's last is programmed in order, and every hub drops its copies. -/
theorem programPage_programs {s : State} (hp : journalPath s = true) (hf : s.jrnl.flash.fill ≠ [])
    (hh : s.jrnl.flash.headPage + 1 < 64) : HeadProgrammed s (programPage s) ∧ (programPage s).life = s.life := by
  rw [programPage_eq hp hf, writeHead_of_lt hh]
  have hn := settleFlash_noted (programmed (headWritten s)) s.jrnl.flash
  have hmem := (programmed_rest (headWritten s)).1.trans (headWritten_rest s).1
  have hlife := (programmed_rest (headWritten s)).2.2.trans (headWritten_rest s).2.2
  generalize settleFlash (programmed (headWritten s)) s.jrnl.flash = t at hn
  obtain ⟨b, hb⟩ := hn.flash
  have hfill : t.jrnl.flash.fill = [] := by rw [hb]; rfl
  have hpages : t.jrnl.flash.pages =
      aset s.jrnl.flash.pages (s.jrnl.flash.log 0, s.jrnl.flash.headPage) s.jrnl.flash.fill := by rw [hb]; rfl
  have hhead : t.jrnl.flash.headPage = s.jrnl.flash.headPage + 1 := by rw [hb]; rfl
  refine ⟨⟨hfill, by rw [hpages]; exact aget_aset_same .., hhead, hn.mem.trans hmem, fun r hr h0 ht => ?_⟩,
    hn.life.trans hlife⟩
  have hkept := (List.mem_filter.mp ((hn.held r ht).resolve_right h0)).2
  have hin : (s.jrnl.flash.fill.map fun r => r.seq).contains r.seq = true :=
    List.contains_iff_mem.mpr (List.mem_map.mpr ⟨r, hr, rfl⟩)
  rw [Bool.or_eq_true] at hkept
  rcases hkept with hz | hz
  · exact h0 (of_decide_eq_true hz)
  · change (! (s.jrnl.flash.fill.map fun r => r.seq).contains r.seq) = true at hz
    rw [hin] at hz
    exact absurd hz (by decide)

/-! ## Retiring a block (17_health.md R413) -/

/-- The block is out of the ring, the pool and the head, among the bad blocks, and holds no page. -/
structure Retired (b : Nat) (f : Flash) : Prop where
  bad : b ∈ f.bad
  ring : b ∉ f.ring
  head : f.log 0 ≠ b
  pages : ∀ p ∈ f.pages, p.1.1 ≠ b

namespace Retired
variable {b : Nat} {f : Flash}

theorem erase (h : Retired b f) (c : Nat) : Retired b (f.erase c) :=
  ⟨h.bad, h.ring, h.head, fun p hp => h.pages p (List.mem_of_mem_filter hp)⟩

theorem log_setLog_of_ne (f : Flash) {i j : Nat} (h : i ≠ j) (c : Nat) : (f.setLog i c).log j = f.log j := by
  simp [Flash.log, Flash.setLog, List.getD_eq_getElem?_getD, List.getElem?_set_ne h]

theorem setLog (h : Retired b f) {i : Nat} (hi : i ≠ 0) (c : Nat) : Retired b (f.setLog i c) :=
  ⟨h.bad, h.ring, by rw [log_setLog_of_ne f hi c]; exact h.head, h.pages⟩

theorem takeSpare {c : Nat} {g : Flash} (h : Retired b f) (e : f.takeSpare = some (c, g)) : Retired b g := by
  obtain ⟨x, -, hx⟩ := Option.map_eq_some_iff.mp e
  obtain ⟨-, rfl⟩ := Prod.mk.inj hx
  exact ⟨h.bad, h.ring, h.head, h.pages⟩

theorem checkpoint (h : Retired b f) : Retired b f.checkpoint := by
  have hg : Retired b { f with ckptSeq := f.ckptSeq + 1, ckptPage := f.ckptPage + 1 } := ⟨h.bad, h.ring, h.head, h.pages⟩
  unfold Flash.checkpoint
  dsimp only
  split
  · exact hg
  · split
    · exact h
    · next c g e =>
      have hl := (hg.takeSpare e).setLog (i := 1) (by decide) c
      have hc : Retired b { g.setLog 1 c with ckptPage := 1 } := ⟨hl.bad, hl.ring, hl.head, hl.pages⟩
      exact hc.erase _

theorem refillLog (h : Retired b f) {i : Nat} (hi : i ≠ 0) : Retired b (f.refillLog i) := by
  unfold Flash.refillLog
  split
  · exact h
  · next c g e => exact (h.takeSpare e).setLog hi c

end Retired

/-- The ring, the bad blocks and the pages of a retired block's flash; its head may be any block. -/
def OutOfRing (b : Nat) (f : Flash) : Prop := b ∈ f.bad ∧ b ∉ f.ring ∧ ∀ p ∈ f.pages, p.1.1 ≠ b

theorem Retired.outOfRing {b : Nat} {f : Flash} (h : Retired b f) : OutOfRing b f := ⟨h.bad, h.ring, h.pages⟩

namespace OutOfRing
variable {b : Nat} {f : Flash}

theorem takeSpare {c : Nat} {g : Flash} (h : OutOfRing b f) (e : f.takeSpare = some (c, g)) : OutOfRing b g := by
  obtain ⟨x, -, hx⟩ := Option.map_eq_some_iff.mp e
  obtain ⟨-, rfl⟩ := Prod.mk.inj hx
  exact h

theorem erase (h : OutOfRing b f) (c : Nat) : OutOfRing b (f.erase c) :=
  ⟨h.1, h.2.1, fun p hp => h.2.2 p (List.mem_of_mem_filter hp)⟩

theorem checkpoint (h : OutOfRing b f) : OutOfRing b f.checkpoint := by
  unfold Flash.checkpoint
  dsimp only
  split
  · exact h
  · split
    · exact h
    · next c g e =>
      have hg := OutOfRing.takeSpare (f := { f with ckptSeq := f.ckptSeq + 1, ckptPage := f.ckptPage + 1 }) h e
      exact OutOfRing.erase hg _

end OutOfRing

/-- A head that fills takes its place in the ring, which is not the retired block's. -/
theorem Retired.switchHead {b : Nat} {f : Flash} (h : Retired b f) : OutOfRing b f.switchHead := by
  have hring : b ∉ f.ring.set f.next (f.log 0) := fun hb => by
    rcases List.mem_or_eq_of_mem_set hb with hb | hb
    · exact h.ring hb
    · exact h.head hb.symm
  have hg : OutOfRing b { f with ring := f.ring.set f.next (f.log 0), next := (f.next + 1) % max 1 f.ring.length,
                                 headPage := 0 } := ⟨h.bad, hring, h.pages⟩
  have he := hg.checkpoint.erase (f.ring.getD f.next 0)
  unfold Flash.switchHead
  dsimp only
  split
  · exact he
  · next c g e =>
    have hl : OutOfRing b (g.setLog 0 c) := he.takeSpare (g := g) e
    exact hl.checkpoint

/-- What takes a block's place is not that block, so no role stays with it. -/
theorem sub_ne {b dst : Nat} (h : dst ≠ b) (x : Nat) : (if x = b then dst else x) ≠ b := by
  split
  · exact h
  · assumption

theorem log_map_ne {f : Flash} {b : Nat} (h : f.log 2 ≠ b) :
    (f.logBlocks.map fun x => if x = b then f.log 2 else x).getD 0 0 ≠ b := by
  cases hl : f.logBlocks with
  | nil =>
    have hz : f.log 2 = 0 := by simp [Flash.log, hl]
    simpa [hz] using h
  | cons x l => exact sub_ne h x

/-- A block that is not the relocation block gives up its role, its pages and its place. 17_health.md R413 steps 2 to 4. -/
theorem relocate_retired {f : Flash} {b : Nat} (h : b ≠ f.log 2) : Retired b (f.relocate b false) := by
  have hdst : f.log 2 ≠ b := fun e => h e.symm
  have hg : Retired b (({ f with pages := f.pages.map fun p =>
      if p.1.1 = b then ((f.log 2, p.1.2), p.2) else p } : Flash).giveRole b (f.log 2)) := by
    refine ⟨List.mem_append_right _ (List.mem_singleton.mpr rfl), fun hb => ?_, log_map_ne hdst, fun p hp => ?_⟩
    · obtain ⟨x, -, hx⟩ := List.mem_map.mp hb
      exact sub_ne hdst x hx
    · obtain ⟨q, -, rfl⟩ := List.mem_map.mp hp
      split
      · exact hdst
      · assumption
  exact (hg.checkpoint.refillLog (i := 2) (by decide)).checkpoint

/-- The failed page itself goes to the head that took the block's place. -/
theorem Retired.programs {b : Nat} {f : Flash} (h : Retired b f) (l : List JRec) :
    Retired b { f with pages := aset f.pages (f.log 0, f.headPage) l, headPage := f.headPage + 1 } := by
  refine ⟨h.bad, h.ring, h.head, fun p hp => ?_⟩
  rcases mem_aset hp with hp | rfl
  · exact h.pages p hp
  · exact h.head

theorem writeHead_spec {s : State} {b : Nat} (h : Retired b s.jrnl.flash) :
    OutOfRing b (writeHead s).jrnl.flash ∧ (writeHead s).mem = s.mem ∧ (writeHead s).regs = s.regs := by
  have hp := h.programs s.jrnl.flash.fill
  have hf : ∀ u, (programmed u).jrnl.flash = { u.jrnl.flash with fill := [] } := fun u => rfl
  unfold writeHead
  dsimp only
  generalize hu : headWritten s = u
  have hr : Retired b (programmed u).jrnl.flash := by
    rw [hf, ← hu]
    exact ⟨hp.bad, hp.ring, hp.head, hp.pages⟩
  have hms : (programmed u).mem = s.mem ∧ (programmed u).regs = s.regs := by
    obtain ⟨hm, hr, -⟩ := programmed_rest u
    rw [hm, hr, ← hu]
    exact ⟨rfl, rfl⟩
  split
  · exact ⟨hr.outOfRing, hms⟩
  · exact ⟨hr.switchHead, hms⟩

theorem programFails_eq (s : State) (b : Nat) : programFails s b false =
    settleFlash (flashRecord (bumpBy
      (if b = s.jrnl.flash.log 0 ∧ ¬ s.jrnl.flash.fill.isEmpty then
        writeHead (modFlash s fun x => x.relocate b false) else modFlash s fun x => x.relocate b false)
      .health_PROGRAM_FAILS 0 1) b 0) s.jrnl.flash := by
  unfold programFails writeHead headWritten lostBlocks
  simp only [decide_eq_true_eq, Bool.false_eq_true, if_false, List.length_singleton, List.foldl_cons, List.foldl_nil]

theorem OutOfRing.noted {s t : State} {b : Nat} (h : OutOfRing b s.jrnl.flash) (f : Noted s t) :
    OutOfRing b t.jrnl.flash := by
  obtain ⟨x, hx⟩ := f.flash
  rw [hx]
  exact h

theorem programFails_retires {s : State} {b : Nat} (h : b ≠ s.jrnl.flash.log 2) :
    OutOfRing b (programFails s b false).jrnl.flash ∧
      rg (programFails s b false) .health_PROGRAM_FAILS = min (rg s .health_PROGRAM_FAILS + 1) 0xFFFFFFFF ∧
      (programFails s b false).mem = s.mem := by
  have hr : Retired b (modFlash s fun x => x.relocate b false).jrnl.flash := relocate_retired h
  rw [programFails_eq]
  generalize hu : (if b = s.jrnl.flash.log 0 ∧ ¬ s.jrnl.flash.fill.isEmpty then
    writeHead (modFlash s fun x => x.relocate b false) else modFlash s fun x => x.relocate b false) = u
  have hspec : OutOfRing b u.jrnl.flash ∧ u.mem = s.mem ∧ u.regs = s.regs := by
    rw [← hu]
    split
    · exact writeHead_spec hr
    · exact ⟨hr.outOfRing, rfl, rfl⟩
  obtain ⟨hout, hmem, hregs⟩ := hspec
  have hn : Noted (bump u .health_PROGRAM_FAILS 0) (settleFlash (flashRecord (bump u .health_PROGRAM_FAILS 0) b 0)
      s.jrnl.flash) := (flashRecord_noted ..).trans (settleFlash_noted ..)
  have hrg : rget u .health_PROGRAM_FAILS 0 0 = rget s .health_PROGRAM_FAILS 0 0 := by simp only [rget, hregs]
  refine ⟨OutOfRing.noted (s := bump u .health_PROGRAM_FAILS 0) hout hn, ?_, hn.mem.trans hmem⟩
  exact (hn.regs .health_PROGRAM_FAILS 0 0 (by decide) (by decide)).trans ((rget_bump_same u _ 0).trans (by rw [hrg]; rfl))

theorem checkpoint_bad (f : Flash) : f.checkpoint.bad = f.bad := by
  unfold Flash.checkpoint
  dsimp only
  split
  · rfl
  · split
    · rfl
    · next c g e =>
      obtain ⟨x, -, hx⟩ := Option.map_eq_some_iff.mp e
      obtain ⟨-, rfl⟩ := Prod.mk.inj hx
      rfl

theorem eraseFails_retires (s : State) (b : Nat) : b ∈ (eraseFails s b).jrnl.flash.bad ∧
    rg (eraseFails s b) .health_ERASE_FAILS = min (rg s .health_ERASE_FAILS + 1) 0xFFFFFFFF ∧
    (eraseFails s b).mem = s.mem := by
  unfold eraseFails
  dsimp only
  generalize hu : bump (modFlash s fun x =>
    { x with spares := x.spares.filter fun c => decide (c ≠ b), bad := x.bad ++ [b] }.checkpoint) .health_ERASE_FAILS 0 = u
  have hn : Noted u (settleFlash (flashRecord u b 1) s.jrnl.flash) := (flashRecord_noted ..).trans (settleFlash_noted ..)
  obtain ⟨x, hx⟩ := hn.flash
  refine ⟨?_, (hn.regs .health_ERASE_FAILS 0 0 (by decide) (by decide)).trans ?_, hn.mem.trans ?_⟩
  · have hbad : u.jrnl.flash.bad = s.jrnl.flash.bad ++ [b] := by
      rw [← hu]
      exact checkpoint_bad _
    rw [hx]
    change b ∈ u.jrnl.flash.bad
    simp [hbad]
  · rw [← hu]
    exact rget_bump_same ..
  · rw [← hu]
    rfl

/-- Settles O34: arrival by `arriveRec_fits`, programming by `programPage_programs`, a failed program by
`programFails_retires` and a failed erase by `eraseFails_retires`. -/
theorem journalPagesAndBlocks : Obligations.JournalPagesAndBlocks := by
  unfold Obligations.JournalPagesAndBlocks
  refine ⟨fun h r s hp hd hr hf => ?_, fun h r l s hp hn hf hh => ?_, fun s hp hf hfull hh => ?_,
    fun b s hp hrole hb => ?_, fun b again s hp hb => ?_⟩
  · refine completes_of_exec rfl ?_
    rw [dropEvents_none hd]
    exact arriveRec_fits hp hr hf
  · have ht : exec .journalFlushExpiry s =
        .next (programPage (passTo s h (r.time + rg s .health_journal_flush_ms * 1000000))) := by
      dsimp only [exec]
      unfold execJournalFlushExpiry
      rw [hf, hn]
    have hfu : (passTo s h (r.time + rg s .health_journal_flush_ms * 1000000)).jrnl.flash.fill ≠ [] := by
      change s.jrnl.flash.fill ≠ []
      simp [hf]
    obtain ⟨hhead, hlife⟩ := programPage_programs (s := passTo s h (r.time + rg s .health_journal_flush_ms * 1000000))
      ((journalPath_passTo ..).trans hp) hfu hh
    refine completes_of_exec ht ⟨hhead, ?_⟩
    have hnow := now_passTo s h (r.time + rg s .health_journal_flush_ms * 1000000)
    simp only [now, hubSt] at hnow ⊢
    rw [hlife, hnow]
  · exact completes_of_exec (congrArg Host.Outcome.next (if_pos hfull)) (programPage_programs hp hf hh).1
  · have ht : exec (.nandProgramFail b false false) s = .next (programFails s b false) := by
      dsimp only [exec]
      unfold execNandProgramFail
      simp [hp, hrole]
    obtain ⟨⟨hbad, hring, hpages⟩, hcount, hmem⟩ := programFails_retires hb
    exact completes_of_exec ht ⟨hbad, hring, hpages, hcount, hmem⟩
  · have ht : exec (.nandProgramFail b true again) s = .next (eraseFails s b) := by
      dsimp only [exec]
      unfold execNandProgramFail
      simp [hp, hb]
    exact completes_of_exec ht (eraseFails_retires s b)

/-! ## The journal window (17_health.md R414, R419) -/

theorem execJournalRecordLoaded_found {n : Nat} {pg : Nat × Nat} {r : JRec} {s : State} (hj : s.host.jrStatus = 1)
    (hm : s.jrnl.flash.mounted = true) (hn : (nandHub s).isSome = true) (hp : pageWith s.jrnl.flash (jrSeq s) = some pg)
    (hr : (s.jrnl.flash.recs.find? fun x => decide (x.seq = jrSeq s)) = some r)
    (he : s.jrnl.flash.eccCap = 0 ∨ 4 * n < 3 * s.jrnl.flash.eccCap) :
    execJournalRecordLoaded n false s = .next { s with host := { s.host with jrStatus := 0, jrWin := r.bytes } } := by
  obtain ⟨h, hh⟩ := Option.isSome_iff_exists.mp hn
  unfold execJournalRecordLoaded
  rw [if_neg (by simp [hj])]
  dsimp only
  rw [hp, hh]
  dsimp only
  rw [if_neg (by simp [hm]), if_neg (by simp), if_neg (by omega), hr]
  rfl

theorem execJournalRecordLoaded_gone {n : Nat} {u : Bool} {s : State} (hj : s.host.jrStatus = 1)
    (hp : pageWith s.jrnl.flash (jrSeq s) = none) :
    execJournalRecordLoaded n u s = .next { s with host := { s.host with jrStatus := 2 } } := by
  unfold execJournalRecordLoaded
  rw [if_neg (by simp [hj])]
  dsimp only
  rw [hp]
  rfl

/-! ## Histograms and metering (17_health.md R405, R418) -/

/-- With a path to the journal a hub forms the record and holds it. -/
theorem journal_holds {s : State} (hp : journalPath s = true) (h type : Nat) (b : List Byte) : ∃ r : JRec,
    r.type = type ∧ r.payload = b ∧ r.seq = 0 ∧ journal s h type b =
      { s with jrnl := { s.jrnl with held := s.jrnl.held ++ [r], origin := aset s.jrnl.origin h r.originSeq } } := by
  refine ⟨⟨type, b, now s h, agetD s.jrnl.origin h 0 + 1, s.life.boot, h, 0⟩, rfl, rfl, rfl, ?_⟩
  unfold journal
  exact if_neg (by simp [hp])

/-- From s to t the records l have been formed, and nothing else has changed but their numbering. -/
def Formed (l : List JRec) (s t : State) : Prop :=
  t.jrnl.held = s.jrnl.held ++ l ∧ t = { s with jrnl := { s.jrnl with held := t.jrnl.held, origin := t.jrnl.origin } }

theorem Formed.nil (s : State) : Formed [] s s := ⟨(List.append_nil _).symm, rfl⟩

theorem Formed.path {l : List JRec} {s t : State} (h : Formed l s t) : journalPath t = journalPath s := by
  rw [h.2]; rfl

theorem Formed.trans {l m : List JRec} {s t u : State} (h : Formed l s t) (g : Formed m t u) : Formed (l ++ m) s u := by
  refine ⟨by rw [g.1, h.1, List.append_assoc], ?_⟩
  rw [g.2, h.2]

theorem journal_forms {s : State} (hp : journalPath s = true) (h type : Nat) (b : List Byte) :
    ∃ r : JRec, r.type = type ∧ r.payload = b ∧ r.seq = 0 ∧ Formed [r] s (journal s h type b) := by
  obtain ⟨r, ht, hb, hz, he⟩ := journal_holds hp h type b
  exact ⟨r, ht, hb, hz, by rw [he]; exact ⟨rfl, rfl⟩⟩

/-- The histograms do not depend on the records formed, so each die's payload is that of the start. -/
theorem Formed.histPayload {l : List JRec} {s t : State} (h : Formed l s t) (d : Nat) :
    histPayload t d = Machine.histPayload s d := by
  rw [h.2]; rfl

/-- One HISTOGRAM record for each die of the list, in its order. -/
theorem foldl_histogram_forms {s : State} (hp : journalPath s = true) : ∀ (ds : List Nat) (t : State) (l₀ : List JRec),
    Formed l₀ s t → ∃ l, Formed (l₀ ++ l) s (ds.foldl (fun s d => journal s (dieHub s d) 0x30 (histPayload s d)) t) ∧
      List.Forall₂ (fun d r => r.type = 0x30 ∧ r.payload = Machine.histPayload s d ∧ r.seq = 0) ds l
  | [], t, l₀, h => ⟨[], by rw [List.append_nil]; exact h, .nil⟩
  | d :: ds, t, l₀, h => by
    obtain ⟨r, ht, hb, hz, hf⟩ := journal_forms (h.path.trans hp) (dieHub t d) 0x30 (histPayload t d)
    obtain ⟨l, hl, hall⟩ := foldl_histogram_forms hp ds _ _ (h.trans hf)
    exact ⟨r :: l, by rw [List.append_assoc] at hl; exact hl, .cons ⟨ht, by rw [hb, h.histPayload], hz⟩ hall⟩

theorem foldl_meters_forms {h : Nat} : ∀ (gs : List (List (Nat × Meter))) {s : State}, journalPath s = true →
    ∃ l, Formed l s (gs.foldl (fun s g => if g.isEmpty then s else journal s h 0x31 (meterPayload g)) s) ∧
      ∀ r ∈ l, r.type = 0x31
  | [], s, _ => ⟨[], .nil s, by simp⟩
  | g :: gs, s, hp => by
    rw [List.foldl_cons]
    split
    · exact foldl_meters_forms gs hp
    · obtain ⟨r, ht, -, -, hf⟩ := journal_forms hp h 0x31 (meterPayload g)
      obtain ⟨l, hl, hall⟩ := foldl_meters_forms gs (hf.path.trans hp)
      exact ⟨r :: l, hf.trans hl, List.forall_mem_cons.mpr ⟨ht, hall⟩⟩

theorem journalMeters_forms {s : State} (hp : journalPath s = true) : ∃ l, Formed l s (journalMeters s) ∧
    ∀ r ∈ l, r.type = 0x31 := foldl_meters_forms _ hp

/-- A HISTOGRAM record for each die, in die order, and then the METER records. -/
theorem histFlush_forms {s : State} (hp : journalPath s = true) : ∃ l, Formed l s (histFlush s) ∧
    (∀ r ∈ l, r.type = 0x30 ∨ r.type = 0x31) ∧
    ∀ d, d < 40 → ∃ r, l[d]? = some r ∧ r.type = 0x30 ∧ r.payload = histPayload s d ∧ r.seq = 0 := by
  obtain ⟨l, hl, hall⟩ := foldl_histogram_forms hp (List.range 40) s [] (.nil s)
  rw [List.nil_append] at hl
  obtain ⟨m, hm, hmall⟩ := journalMeters_forms (hl.path.trans hp)
  have hlen : l.length = 40 := by rw [← hall.length_eq, List.length_range]
  refine ⟨l ++ m, hl.trans hm, fun r hr => ?_, fun d hd => ?_⟩
  · rcases List.mem_append.mp hr with hr | hr
    · obtain ⟨i, hi, rfl⟩ := List.mem_iff_getElem.mp hr
      exact .inl (hall.get (by simpa using hlen ▸ hi) hi).1
    · exact .inr (hmall r hr)
  · have hdl : d < l.length := hlen ▸ hd
    have hget := hall.get (i := d) (by simpa using hd) hdl
    simp only [List.get_eq_getElem, List.getElem_range] at hget
    exact ⟨l[d], by rw [List.getElem?_append_left hdl, List.getElem?_eq_getElem hdl], hget⟩

/-! ## METER_SAMPLE (17_health.md R417) -/

/-- What a sample adds to the metering record of a tenant. -/
def meterSampled (s : State) (x : Nat) (m : Meter) : Meter :=
  { m with pageMs := (m.pageMs + slotUsed s x) % 2 ^ 64, sramMs := (m.sramMs + sramUsed s x) % 2 ^ 64 }

theorem meterOf_modMeter_same {s : State} {x : Nat} (h : 1 ≤ x ∧ x ≤ 16383) (f : Meter → Meter) :
    meterOf (modMeter s x f) x = f (meterOf s x) := by
  unfold modMeter
  rw [if_pos h]
  exact agetD_aset_same ..

theorem meterOf_modMeter_other (s : State) {x y : Nat} (h : x ≠ y) (f : Meter → Meter) :
    meterOf (modMeter s y f) x = meterOf s x := by
  unfold modMeter
  split
  · exact agetD_aset_other _ h ..
  · rfl

theorem meterSampled_congr {s t : State} (hm : t.mem = s.mem) (hq : t.seqs = s.seqs) (x : Nat) :
    meterSampled t x = meterSampled s x := by
  funext m
  simp only [meterSampled, slotUsed, sramUsed, hm, hq]

/-- Each tenant of a list without repetitions is sampled once. -/
theorem foldl_meterSampled {x : Nat} (hx : 1 ≤ x ∧ x ≤ 16383) : ∀ (l : List Nat) (s : State), l.Nodup →
    meterOf (l.foldl (fun s t => modMeter s t (meterSampled s t)) s) x =
      if x ∈ l then meterSampled s x (meterOf s x) else meterOf s x
  | [], s, _ => by simp
  | y :: l, s, hl => by
    obtain ⟨hy, hl⟩ := List.nodup_cons.mp hl
    rw [List.foldl_cons, foldl_meterSampled hx l _ hl, meterSampled_congr (modMeter_mem ..) (modMeter_seqs ..)]
    by_cases h : x = y
    · subst h
      simp [hy, meterOf_modMeter_same hx]
    · simp [h, meterOf_modMeter_other s h]

theorem nodup_eraseDups {α : Type} [DecidableEq α] (l : List α) : l.eraseDups.Nodup := by
  induction h : l.length using Nat.strong_induction_on generalizing l with
  | _ n ih =>
    cases l with
    | nil => simp
    | cons a l =>
      rw [List.eraseDups_cons, List.nodup_cons]
      refine ⟨fun ha => ?_, ih _ ?_ _ rfl⟩
      · have := List.mem_of_mem_filter (List.mem_eraseDups.mp ha)
        simpa using (List.mem_filter.mp (List.mem_eraseDups.mp ha)).2
      · rw [← h]
        exact Nat.lt_succ_of_le (List.length_filter_le ..)

theorem heldTenants_nodup (s : State) : (heldTenants s).Nodup := nodup_eraseDups _

theorem exec_meterSample {h : Nat} {s : State} (hn : nandHub s = some h) : exec .meterSample s =
    .next ((heldTenants s).foldl (fun s t => modMeter s t (meterSampled s t))
      (passTo s h ((now s h / 1000000 + 1) * 1000000))) := by
  dsimp only [exec]
  unfold execMeterSample
  rw [hn]
  rfl

/-- Settles O35: the window by `execJournalRecordLoaded_found` and `execJournalRecordLoaded_gone`, HIST_FLUSH by
`histFlush_forms`, and METER_SAMPLE by `foldl_meterSampled`. -/
theorem journalWindowAndMeters : Obligations.JournalWindowAndMeters := by
  unfold Obligations.JournalWindowAndMeters
  refine ⟨fun s h => completes_of_exec (if_pos h) rfl, fun s h => completes_of_exec (if_neg (by simp [h])) ⟨?_, rfl⟩,
    fun n pg r s hj hm hn hp hr he => completes_of_exec (execJournalRecordLoaded_found hj hm hn hp hr he) rfl,
    fun n u s hj hp => completes_of_exec (execJournalRecordLoaded_gone hj hp) rfl, fun s hp => ?_, fun h s hn => ?_⟩
  · exact rget_bump_same ..
  · obtain ⟨l, ⟨hheld, hrest⟩, htypes, hdies⟩ := histFlush_forms hp
    exact completes_of_exec rfl ⟨⟨l, hheld, htypes, hdies⟩, by rw [hrest], by rw [hrest], by rw [hrest]⟩
  · have hlife := foldl_part (·.life) (f := fun s t => modMeter s t (meterSampled s t)) (fun _ _ => modMeter_life ..)
      (heldTenants s) (passTo s h ((now s h / 1000000 + 1) * 1000000))
    have hmem := foldl_part (·.mem) (f := fun s t => modMeter s t (meterSampled s t)) (fun _ _ => modMeter_mem ..)
      (heldTenants s) (passTo s h ((now s h / 1000000 + 1) * 1000000))
    have hseqs := foldl_part (·.seqs) (f := fun s t => modMeter s t (meterSampled s t)) (fun _ _ => modMeter_seqs ..)
      (heldTenants s) (passTo s h ((now s h / 1000000 + 1) * 1000000))
    refine completes_of_exec (exec_meterSample hn) ⟨?_, hmem, hseqs, fun x h1 h2 => ?_⟩
    · have hnow := now_passTo s h ((now s h / 1000000 + 1) * 1000000)
      have hlt : now s h < (now s h / 1000000 + 1) * 1000000 := by omega
      refine (congrArg (·.time) (hubSt_congr (by rw [hlife]) h)).trans (hnow.trans ?_)
      exact Nat.max_eq_right (by omega)
    · rw [foldl_meterSampled ⟨h1, h2⟩ _ _ (heldTenants_nodup s),
        meterSampled_congr (s := s) (t := passTo s h ((now s h / 1000000 + 1) * 1000000)) rfl rfl]
      rfl

end Sys2Proof.Proofs

namespace Sys2Proof.Proofs
open Sys2Proof.Machine Sys2Proof.Laws

/-!
Margins, canaries and droops (O27), and the reads that latch (O28). 17_health.md R397 to R405, R417.
-/

/-! ## Margins, canaries, droops -/

theorem marginOf_modMargin_same (s : State) (d u : Nat) (f : Margin → Margin) :
    marginOf (modMargin s d u f) d u = f (marginOf s d u) := agetD_aset_same ..

theorem marginOf_modMargin_other (s : State) {d u e v : Nat} (h : (e, v) ≠ (d, u)) (f : Margin → Margin) :
    marginOf (modMargin s d u f) e v = marginOf s e v := agetD_aset_other _ h ..

/-- A read eye that is wide enough is kept, and no low reading in a row is left. -/
theorem exec_marginMeasure_wide {k : Slice} {pc w h : Nat} {s : State} (hen : rg s .health_margin_en ≠ 0) (hpc : pc < 64)
    (hw : rg s .health_hbm_width_min ≤ min w 255) : exec (.marginMeasure k pc w h) s =
      .next (modMargin s k.val pc fun x =>
        { x with width := min w 255, height := min h 255, minW := min x.minW (min w 255), low := 0 }) := by
  dsimp only [exec]
  unfold execMarginMeasure
  have hl : ¬ min w 255 < rg s .health_hbm_width_min := by omega
  have hc : ¬ (rg s .health_margin_en = 0 ∨ 64 ≤ pc) := by omega
  dsimp only
  rw [if_neg hc, if_neg hl, if_pos (by decide)]

theorem exec_serdesMarginReport_tall {d : Die} {u h : Nat} {s : State} (hen : rg s .health_margin_en ≠ 0)
    (hu : unitExists d.val u = true) (hd : 32 ≤ d.val ∨ 64 ≤ u) (hh : rg s .health_serdes_height_min ≤ min h 255) :
    exec (.serdesMarginReport d u h) s = .next (modMargin s d.val u fun x => { x with height := min h 255, low := 0 }) := by
  dsimp only [exec]
  unfold execSerdesMarginReport
  have hl : ¬ min h 255 < rg s .health_serdes_height_min := by omega
  have hc : ¬ (rg s .health_margin_en = 0 ∨ ¬ unitExists d.val u = true ∨ d.val < 32 ∧ u < 64) := by
    rw [hu]
    simp only [not_true_eq_false, false_or]
    omega
  dsimp only
  rw [if_neg hc, if_neg hl, if_neg (by decide)]

theorem exec_canaryMeasure_fast {d : Die} {i : Nat} {s : State} (h : 256 + rg s .health_slack_warn ≤ min i 0xFFFF) :
    exec (.canaryMeasure d i) s =
      .next (modDie s d.val fun x => { x with speed := min i 0xFFFF, speedMin := min x.speedMin (min i 0xFFFF) }) :=
  congrArg Host.Outcome.next (if_neg fun hc => absurd hc.1 (by omega))

/-- A die's count of droops, and of those within the last second. 17_health.md R402. -/
def drooped (x : DieHealth) : DieHealth := { x with droops := satAdd x.droops 1, droopSec := x.droopSec + 1 }

/-- A droop above droop_mv is counted; the 64th of a second is noted besides. -/
theorem exec_droopEvent_counts {d : Die} {mv : Nat} {s : State} (h : rg s .health_droop_mv < mv) :
    ∃ t, exec (.droopEvent d mv) s = .next t ∧ t.health = (modDie s d.val drooped).health ∧ t.mem = s.mem := by
  refine ⟨_, (if_neg (by omega)).trans rfl, ?_, ?_⟩
  · split
    · exact healthEvent_health ..
    · rfl
  · split
    · exact healthEvent_mem ..
    · rfl

theorem dieHealth_congr {s t : State} (h : t.health.dies = s.health.dies) (e : Nat) : dieHealth t e = dieHealth s e := by
  simp only [dieHealth, h]

/-- The second of a die's droops ends. -/
def secondEnded (x : DieHealth) : DieHealth := { x with droopSec := 0 }

/-- What clear_min restarts of a die. 17_health.md R419. -/
def minCleared (x : DieHealth) : DieHealth := { x with speedMin := 0xFFFF, maxTemp := -128 }

theorem dieHealth_clearMin (s : State) (e : Nat) :
    dieHealth (clearMin s) e = dieHealth (modDie s (rg s .health_die_sel) minCleared) e := dieHealth_congr rfl e

/-- Settles O27: each command is one change of the die's health or of a margin unit. -/
theorem marginsCanariesAndDroops : Obligations.MarginsCanariesAndDroops := by
  unfold Obligations.MarginsCanariesAndDroops
  refine ⟨fun k pc w h s hen hpc hw => ?_, fun d u h s hen hu hd hh => ?_, fun d i s h => ?_, fun d mv s h => ?_,
    fun d mv s h => if_pos h, fun d temp core input s => ?_, fun s h => ?_, fun s h => ?_⟩
  · refine completes_of_exec (exec_marginMeasure_wide hen hpc hw) ⟨?_, ?_, ?_, ?_, ?_, rfl⟩
    · rw [marginOf_modMargin_same]
    · rw [marginOf_modMargin_same]
    · rw [marginOf_modMargin_same]
    · rw [marginOf_modMargin_same]
    · exact fun e v hv => marginOf_modMargin_other s hv _
  · refine completes_of_exec (exec_serdesMarginReport_tall hen hu hd hh) ⟨?_, ?_, ?_, rfl⟩
    · rw [marginOf_modMargin_same]
    · rw [marginOf_modMargin_same]
    · exact fun e v hv => marginOf_modMargin_other s hv _
  · refine completes_of_exec (exec_canaryMeasure_fast h) ⟨?_, ?_, ?_, rfl⟩
    · rw [dieHealth_modDie_same]
    · rw [dieHealth_modDie_same]
    · exact fun e he => dieHealth_modDie_other s he _
  · obtain ⟨t, ht, hh, hm⟩ := exec_droopEvent_counts (d := d) h
    have hd := dieHealth_congr (congrArg (·.dies) hh)
    refine completes_of_exec ht ⟨?_, ?_, fun e he => (hd e).trans (dieHealth_modDie_other s he _), hm⟩
    · rw [hd, dieHealth_modDie_same]
      rfl
    · rw [hd, dieHealth_modDie_same]
      rfl
  · refine completes_of_exec rfl ⟨agetD_aset_same .., agetD_aset_same .., ?_, fun x hx => agetD_aset_other _ hx .., rfl⟩
    exact congrArg (·.droopSec)
      ((dieHealth_congr (s := modDie s d.val secondEnded) rfl d.val).trans (dieHealth_modDie_same ..))
  · refine completes_of_exec (if_pos h) ⟨?_, ?_, fun e he => ?_, rfl⟩
    · rw [dieHealth_clearMin, dieHealth_modDie_same]
      rfl
    · rw [dieHealth_clearMin, dieHealth_modDie_same]
      rfl
    · rw [dieHealth_clearMin, dieHealth_modDie_other s he]
  · exact completes_of_exec (if_neg (by simp [h])) ⟨rfl, rfl⟩

/-! ## Reads that latch (12_ledger.md R299, 17_health.md R403, R417) -/

section
variable {s : State} {p off i o : Nat} {b : Blk} {ide : Option Nat}

/-- A read of the PF at a place latches what the table says of that place, for a reader whose session stands or not. -/
theorem barRead_latches (h : barPlace p off = some (b, i, o)) :
    (barRead s p 0 off).1 = latchRead s b i o (! sessionOn s (.pcie p 0)) := by
  unfold barRead
  rw [if_neg (by simp)]
  by_cases hs : sessionOn s (.pcie p 0) = true
  · rw [if_pos hs]
    unfold readReg
    rw [h, hs]
    rfl
  · rw [if_neg hs, h]
    rw [Bool.not_eq_true] at hs
    rw [hs]
    rfl

theorem readTlp_latches (ht : portTakes s p = true) (hi : ideOk s p 0 ide = true) (h : barPlace p off = some (b, i, o)) :
    ∃ x, x.length = 4 ∧
      readTlp s p off ide = emit (latchRead s b i o (! sessionOn s (.pcie p 0))) (.readDone p 0 false (some x)) := by
  refine ⟨leBytes 4 (barRead s p 0 off).2, leBytes_length .., ?_⟩
  unfold readTlp
  rw [if_neg (by simp [ht]), if_neg (by simp [hi])]
  rw [← barRead_latches h]

theorem readTlp_down (ht : portTakes s p = false) : readTlp s p off ide = s := if_pos (by simp [ht])

theorem readTlp_unstreamed (ht : portTakes s p = true) (hi : ideOk s p 0 ide = false) :
    readTlp s p off ide = { s with out := s.out ++ [.aer p 0, .readDone p 0 false none] } := by
  unfold readTlp
  rw [if_neg (by simp [ht]), if_pos (by simp [hi])]
  simp only [emit, List.append_assoc]
  rfl

end

/-- local_time_lo of a hub's ledger block. 14_host.md R338. -/
theorem barPlace_localTime (p : Nat) (h : Hub) : barPlace p (0x104000 + 0x100000 * h.val) = some (.ledger, h.val, 0) := by
  have hh := h.isLt
  have hd : (0x104000 + 0x100000 * h.val - 0x100000) / 0x100000 = h.val := by omega
  have hm : (0x104000 + 0x100000 * h.val) % 0x100000 / 0x1000 = 4 := by omega
  have ho : (0x104000 + 0x100000 * h.val) % 0x1000 = 0 := by omega
  unfold barPlace
  rw [if_neg (by omega), if_neg (by omega), if_neg (by omega), if_neg (by omega), if_neg (by omega), if_neg (by omega),
    if_neg (by omega), if_neg (by omega), if_pos (by omega), hd, hm, ho]
  rfl

theorem latchRead_summary (s : State) (coarse : Bool) : latchRead s .health 0 0x100 coarse = latchSummary s := rfl
theorem latchRead_meter (s : State) (coarse : Bool) : latchRead s .health 0 0x540 coarse = latchMeter s coarse := rfl
theorem latchRead_time (s : State) (h : Nat) (coarse : Bool) : latchRead s .ledger h 0 coarse = latchTime s h := rfl

/-- Each of the reads that latch is a read TLP of its port. -/
theorem latchReads_tlp {p : Port} {h : Hub} {ide : Option Nat} {c : Instr} (hc : c ∈ latchReads p h ide) (s : State) :
    ∃ off, exec c s = .next (readTlp s p.val off ide) := by
  simp only [latchReads, List.mem_cons, List.not_mem_nil, or_false] at hc
  rcases hc with rfl | rfl | rfl
  · exact ⟨0xD10100, rfl⟩
  · exact ⟨0xD10540, rfl⟩
  · exact ⟨0x104000 + 0x100000 * h.val, rfl⟩

/-- What a read that latches leaves, where it is taken. -/
theorem readAnswered_of_latch {s u t : State} {p : Port} {x : List Byte} (hx : x.length = 4)
    (ht : t = emit u (.readDone p.val 0 false (some x))) (hu : u = { s with host := u.host, freeCtr := u.freeCtr }) :
    ReadAnswered s t p := by
  have ho : u.out = s.out := by rw [hu]
  refine ⟨⟨x, hx, by rw [ht, emit_out, ho]⟩, ?_⟩
  rw [ht]
  unfold emit
  rw [hu]

theorem latchSummary_die {s : State} (h : rg s .health_die_sel < 40) : latchSummary s =
    modHost (fresh s).2 fun x => { x with dieSum := dieSummary s (rg s .health_die_sel) (fresh s).1 } :=
  if_neg (by omega)

theorem latchSummary_none {s : State} (h : 40 ≤ rg s .health_die_sel) :
    latchSummary s = modHost s fun x => { x with dieSum := zeros 64 } := if_pos h

theorem latchSummary_rest (s : State) :
    latchSummary s = { s with host := { s.host with dieSum := (latchSummary s).host.dieSum },
                              freeCtr := (latchSummary s).freeCtr } := by
  by_cases h : rg s .health_die_sel < 40
  · rw [latchSummary_die h]; rfl
  · rw [latchSummary_none (by omega)]; rfl

/-- Settles O28: a read is taken, refused or lost by `readTlp_latches`, `readTlp_unstreamed` and `readTlp_down`; what it latches
is then the table's (`latchRead_summary` and its siblings). -/
theorem latchedReads : Obligations.LatchedReads := by
  unfold Obligations.LatchedReads
  refine ⟨fun p h ide c s hc => ?_, fun p ide s ⟨ht, hi⟩ => ?_, fun p ide s ⟨ht, hi⟩ => ?_, fun p h ide s ⟨ht, hi⟩ => ?_,
    fun h i s hs => completes_of_exec (if_pos hs) ⟨?_, fun g hg => ?_, rfl⟩⟩
  · obtain ⟨off, hoff⟩ := latchReads_tlp hc s
    exact completes_of_exec hoff ⟨fun ht => readTlp_down ht, fun ht hi => readTlp_unstreamed ht hi⟩
  · obtain ⟨x, hx, he⟩ := readTlp_latches (off := 0xD10100) ht hi (b := .health) (i := 0) (o := 0x100) rfl
    rw [latchRead_summary] at he
    have hrest := latchSummary_rest s
    refine completes_of_exec (t := readTlp s p.val 0xD10100 ide) rfl
      ⟨readAnswered_of_latch hx he (by rw [hrest]), by rw [he, emit_host, hrest], fun h => ?_, fun h => ?_⟩
    · rw [he, latchSummary_die h]
      exact ⟨rfl, rfl⟩
    · rw [he, latchSummary_none h]
      exact ⟨rfl, rfl⟩
  · obtain ⟨x, hx, he⟩ := readTlp_latches (off := 0xD10540) ht hi (b := .health) (i := 0) (o := 0x540) rfl
    rw [latchRead_meter] at he
    refine completes_of_exec (t := readTlp s p.val 0xD10540 ide) rfl
      ⟨readAnswered_of_latch hx he rfl, by rw [he]; rfl, by rw [he]; rfl, ?_⟩
    rw [he]
    cases sessionOn s (.pcie p.val 0) <;> rfl
  · obtain ⟨x, hx, he⟩ := readTlp_latches ht hi (barPlace_localTime p.val h)
    rw [latchRead_time] at he
    refine completes_of_exec (t := readTlp s p.val (0x104000 + 0x100000 * h.val) ide) rfl
      ⟨readAnswered_of_latch hx he rfl, by rw [he]; rfl, by rw [he]; rfl, ?_, fun g hg => ?_⟩
    · rw [he]
      exact agetD_aset_same ..
    · rw [he]
      exact agetD_aset_other _ hg ..
  · exact aget_amod_same h.val (fun l => l.set i.val none) s.fab.census
  · exact aget_amod_other hg (fun l => l.set i.val none) s.fab.census

end Sys2Proof.Proofs

namespace Sys2Proof.Proofs
open Sys2Proof.Machine Sys2Proof.Laws

/-!
Refills and gate lists (O10). A refill changes the traffic block and applies what is held for it; what it leaves of the rest is
said once (`refillTo_rest`). That a held node-wide write is in force hub by hub, and that the register shows the new value at
once, is assumption 51; that a list of count 0, above the table or of duration 0 is refused is assumption 54.
-/

/-! ## Refills (13_traffic.md R303, R308, R309) -/

/-- Without a write that waits for the hub or that the hub has still to apply, nothing is applied. -/
theorem applyHeld_none {s : State} (hh : s.traf.held = []) (hl : s.traf.lag = []) (h k0 : Nat) : applyHeld s h k0 = s := by
  unfold applyHeld
  dsimp only
  rw [if_pos (by simp [hh, hl])]

/-- The shapers of a hub after n refills. -/
theorem aget_refillShapers (s : State) (h n g u c : Nat) : aget (refillShapers s h n).traf.shapers (g, u, c) =
    (aget s.traf.shapers (g, u, c)).map fun x => if g = h then refilled s h u c n x else x := by
  have heq : (refillShapers s h n).traf.shapers = s.traf.shapers.map fun p =>
      (p.1, if p.1.1 = h then refilled s h p.1.2.1 p.1.2.2 n p.2 else p.2) := by
    refine List.map_congr_left fun p _ => ?_
    dsimp only
    split <;> rfl
  rw [heq]
  exact aget_mapKey (fun (k : Nat × Nat × Nat) x => if k.1 = h then refilled s h k.2.1 k.2.2 n x else x) (g, u, c) _

/-- The refills of a hub that its time has passed: its shapers and the number of the last refill. -/
def refillsDone (s : State) (h n : Nat) : State :=
  modTraf (refillShapers s h n) fun x => { x with refillAt := aset x.refillAt h (now s h / 1000) }

theorem refillTo_due {s : State} {h : Nat} (hd : agetD s.traf.refillAt h 0 < now s h / 1000) :
    refillTo s h = modTraf (refillShapers (applyHeld s h (agetD s.traf.refillAt h 0)) h
      (now s h / 1000 - agetD s.traf.refillAt h 0)) fun x => { x with refillAt := aset x.refillAt h (now s h / 1000) } := by
  unfold refillTo
  exact if_neg (by omega)

theorem refillTo_notDue {s : State} {h : Nat} (hd : NoRefillDue s h) : refillTo s h = s := if_pos hd

/-- What a refill leaves of the node: of the traffic block the gate lists, the queues and the deficits of egress. -/
structure RefillLeaves (s t : State) : Prop where
  rest : t = { s with traf := t.traf, regs := t.regs }
  gates : t.traf.gates = s.traf.gates
  egress : t.traf.egress = s.traf.egress

theorem RefillLeaves.refl (s : State) : RefillLeaves s s := ⟨rfl, rfl, rfl⟩

theorem RefillLeaves.trans {s t u : State} (f : RefillLeaves s t) (g : RefillLeaves t u) : RefillLeaves s u :=
  ⟨by rw [g.rest, f.rest], g.gates.trans f.gates, g.egress.trans f.egress⟩

theorem applyWrite_leaves (h : Nat) (s : State) (w : Reg × Nat × Nat × Nat) : RefillLeaves s (applyWrite h s w) := by
  unfold applyWrite
  dsimp only
  split <;> exact ⟨rfl, rfl, rfl⟩

theorem applyHeld_leaves (s : State) (h k0 : Nat) : RefillLeaves s (applyHeld s h k0) := by
  have hfold : ∀ (l : List (Reg × Nat × Nat × Nat)) (u : State), RefillLeaves u (l.foldl (applyWrite h) u) := by
    intro l
    induction l with
    | nil => exact fun u => .refl u
    | cons w l ih => exact fun u => (applyWrite_leaves h u w).trans (ih _)
  unfold applyHeld
  dsimp only
  split
  · exact .refl s
  · refine .trans ?_ (hfold _ _)
    exact ⟨rfl, rfl, rfl⟩

theorem refillTo_leaves (s : State) (h : Nat) : RefillLeaves s (refillTo s h) := by
  by_cases hd : NoRefillDue s h
  · rw [refillTo_notDue hd]
    exact .refl s
  · rw [refillTo_due (Nat.lt_of_not_le hd)]
    exact (applyHeld_leaves s h _).trans ⟨rfl, rfl, rfl⟩

/-- Without held writes no register changes. -/
theorem refillTo_regs {s : State} (hh : s.traf.held = []) (h : Nat) : (refillTo s h).regs = s.regs := by
  by_cases hd : NoRefillDue s h
  · rw [refillTo_notDue hd]
  · rw [refillTo_due (Nat.lt_of_not_le hd)]
    change (applyHeld s h _).regs = s.regs
    unfold applyHeld
    dsimp only
    split
    · rfl
    · simp [hh, settlePolicers]

/-! ## A held write takes effect (13_traffic.md R305, R309) -/

/-- Whether a held write is one that a refill of the hub applies. -/
def AppliesAt (h : Nat) (r : Reg) (k : Nat) : Prop :=
  r.info.wide = true ∨ if r = .port_fn_profile then portHub k = h else k = h

/-- The policers of a hub are brought up to its last refill, and the one write that waits is no longer held. -/
def beforeWrite (s : State) (h k0 : Nat) : State :=
  modTraf (settlePolicers s h k0) fun x => { x with held := [], lag := [] }

theorem applyHeld_one {s : State} {h k0 k i v : Nat} {r : Reg} (hh : s.traf.held = [(r, k, i, v)]) (hl : s.traf.lag = [])
    (hr : AppliesAt h r k) : applyHeld s h k0 = applyWrite h (beforeWrite s h k0) (r, k, i, v) := by
  have hm : (r.info.wide || if r = .port_fn_profile then decide (portHub k = h) else decide (k = h)) = true := by
    rw [Bool.or_eq_true]
    refine hr.imp_right fun hk => ?_
    split at hk
    · simp [*]
    · simp [*]
  unfold applyHeld beforeWrite
  dsimp only
  simp only [hh, hl, List.filter_cons, hm, List.filter_nil, if_true, settlePolicers, modTraf, List.isEmpty_cons,
    Bool.false_eq_true, false_and, if_false, List.foldl_cons, List.foldl_nil, List.map_nil, Bool.not_true]

/-- A write in force: the register shows it, and a node-wide field is new at this hub and old at the others. -/
theorem applyWrite_inForce (s : State) {h k i v : Nat} (r : Reg) (hl : s.traf.lag = []) :
    rget (applyWrite h s (r, k, i, v)) r k i = v % 2 ^ r.width ∧ (applyWrite h s (r, k, i, v)).traf.held = s.traf.held ∧
      (r.info.wide = true → hubField (applyWrite h s (r, k, i, v)) h r i = v % 2 ^ r.width ∧
        ∀ g, g < 8 → g ≠ h → hubField (applyWrite h s (r, k, i, v)) g r i = rget s r 0 i) := by
  unfold applyWrite
  dsimp only
  refine ⟨rget_rset_same .., by split <;> rfl, fun hw => ⟨?_, fun g hg hgh => ?_⟩⟩
  · rw [if_pos hw]
    have hlag : ((modTraf s fun x => { x with lag := x.lag ++ [(r, i, rget s r 0 i,
        (List.range 8).filter fun k => decide (k ≠ h))] }).traf.lag.find?
          fun x => decide (x.1 = r) && decide (x.2.1 = i) && x.2.2.2.contains h) = none := by
      simp [hl]
    unfold hubField
    simp only [rset] at hlag ⊢
    rw [hlag]
    have hk : regInst r k = regInst r 0 := by simp [regInst, hw]
    simp only [rget, hk]
    exact agetD_aset_same ..
  · rw [if_pos hw]
    have hlag : ((modTraf s fun x => { x with lag := x.lag ++ [(r, i, rget s r 0 i,
        (List.range 8).filter fun k => decide (k ≠ h))] }).traf.lag.find?
          fun x => decide (x.1 = r) && decide (x.2.1 = i) && x.2.2.2.contains g) =
        some (r, i, rget s r 0 i, (List.range 8).filter fun k => decide (k ≠ h)) := by
      simp [hl, hg, hgh]
    unfold hubField
    simp only [rset] at hlag ⊢
    rw [hlag]

theorem hubField_congr {s t : State} (hr : t.regs = s.regs) (hl : t.traf.lag = s.traf.lag) (g : Nat) (r : Reg) (i : Nat) :
    hubField t g r i = hubField s g r i := by
  simp only [hubField, hl, rget_congr hr]

/-! ## BUCKET_REFILL -/

/-- The next refill of a hub is due. -/
def toRefill (s : State) (h : Nat) : State := passTo s h ((agetD s.traf.refillAt h 0 + 1) * 1000)

theorem toRefill_due (s : State) (h : Nat) : agetD s.traf.refillAt h 0 < now (toRefill s h) h / 1000 := by
  unfold toRefill
  rw [now_passTo]
  have := Nat.le_max_right (now s h) ((agetD s.traf.refillAt h 0 + 1) * 1000)
  omega

theorem bucketRefill_plain {h : Nat} {s t : State} (hh : s.traf.held = []) (hl : s.traf.lag = [])
    (ht : t = refillTo (toRefill s h) h) :
    agetD s.traf.refillAt h 0 < agetD t.traf.refillAt h 0 ∧
      now t h = max (now s h) ((agetD s.traf.refillAt h 0 + 1) * 1000) ∧ agetD t.traf.refillAt h 0 = now t h / 1000 ∧
      (∀ u c, aget t.traf.shapers (h, u, c) = (aget s.traf.shapers (h, u, c)).map fun x =>
        refilled s h u c (agetD t.traf.refillAt h 0 - agetD s.traf.refillAt h 0) x) ∧
      (∀ g u c, g ≠ h → aget t.traf.shapers (g, u, c) = aget s.traf.shapers (g, u, c)) ∧
      t = { s with life := t.life, traf := { s.traf with shapers := t.traf.shapers, refillAt := t.traf.refillAt } } := by
  have hdue := toRefill_due s h
  have hnow : now (toRefill s h) h = max (now s h) ((agetD s.traf.refillAt h 0 + 1) * 1000) := now_passTo ..
  have happ : applyHeld (toRefill s h) h (agetD s.traf.refillAt h 0) = toRefill s h :=
    applyHeld_none (s := toRefill s h) hh hl ..
  have he : t = refillsDone (toRefill s h) h (now (toRefill s h) h / 1000 - agetD s.traf.refillAt h 0) := by
    rw [ht, refillTo_due (s := toRefill s h) hdue]
    change modTraf (refillShapers (applyHeld (toRefill s h) h (agetD s.traf.refillAt h 0)) h _) _ = _
    rw [happ]
    rfl
  have hat : agetD t.traf.refillAt h 0 = now (toRefill s h) h / 1000 := by
    rw [he]
    exact agetD_aset_same ..
  have hlife : now t h = now (toRefill s h) h := by
    rw [he]
    rfl
  have hshape : ∀ g u c, aget t.traf.shapers (g, u, c) = (aget s.traf.shapers (g, u, c)).map fun x =>
      if g = h then refilled s h u c (now (toRefill s h) h / 1000 - agetD s.traf.refillAt h 0) x else x := by
    intro g u c
    rw [he]
    exact aget_refillShapers (toRefill s h) h _ g u c
  refine ⟨hat ▸ hdue, hlife.trans hnow, by rw [hat, hlife], fun u c => ?_, fun g u c hg => ?_, by rw [he]; rfl⟩
  · rw [hshape, hat]
    simp only [if_true]
  · rw [hshape]
    simp only [hg, if_false, Option.map_id']

theorem bucketRefill_applies {h k i v : Nat} {r : Reg} {s t : State} (hh : s.traf.held = [(r, k, i, v)])
    (hl : s.traf.lag = []) (hr : AppliesAt h r k) (ht : t = refillTo (toRefill s h) h) :
    t.traf.held = [] ∧ rget t r k i = v % 2 ^ r.width ∧
      (r.info.wide = true → hubField t h r i = v % 2 ^ r.width ∧ ∀ g, g < 8 → g ≠ h → hubField t g r i = rget s r 0 i) := by
  obtain ⟨hshow, hheld, hwide⟩ := applyWrite_inForce (h := h) (k := k) (i := i) (v := v)
    (beforeWrite (toRefill s h) h (agetD s.traf.refillAt h 0)) r rfl
  have happ := applyHeld_one (s := toRefill s h) (k0 := agetD s.traf.refillAt h 0) hh hl hr
  have he : t.regs = (applyWrite h (beforeWrite (toRefill s h) h (agetD s.traf.refillAt h 0)) (r, k, i, v)).regs ∧
      t.traf.held = (applyWrite h (beforeWrite (toRefill s h) h (agetD s.traf.refillAt h 0)) (r, k, i, v)).traf.held ∧
      t.traf.lag = (applyWrite h (beforeWrite (toRefill s h) h (agetD s.traf.refillAt h 0)) (r, k, i, v)).traf.lag := by
    rw [ht, refillTo_due (s := toRefill s h) (toRefill_due s h), ← happ]
    exact ⟨rfl, rfl, rfl⟩
  obtain ⟨hregs, hht, hlag⟩ := he
  refine ⟨hht.trans hheld, (rget_congr hregs ..).trans hshow, fun hw => ⟨?_, fun g hg hgh => ?_⟩⟩
  · exact (hubField_congr hregs hlag ..).trans (hwide hw).1
  · exact (hubField_congr hregs hlag ..).trans ((hwide hw).2 g hg hgh)

/-! ## Gate lists (13_traffic.md R310, R311) -/

theorem gatesOf_modGates_same (s : State) (h u : Nat) (f : Gates → Gates) :
    gatesOf (modGates s h u f) h u = f (gatesOf s h u) := agetD_aset_same ..

theorem otherGates_modGates (s : State) (h u : Nat) (f : Gates → Gates) : OtherGates s (modGates s h u f) h u :=
  fun _ hx => aget_aset_other hx ..

theorem gatesOf_congr {s t : State} (h : t.traf.gates = s.traf.gates) (g u : Nat) : gatesOf t g u = gatesOf s g u := by
  simp only [gatesOf, h]

theorem commitGates_eq (s : State) (h : Nat) : (commitGates s h).1 =
    if listRefused (subRate s h) (writtenList s h).1 = true ∨ (writtenList s h).2 < now s h + 10000 then
      rset s .traffic_gl_refused h (64 * rget s .traffic_gl_subport h 0) 1
    else modGates s h (rget s .traffic_gl_subport h 0) fun g => { g with pend := some (writtenList s h) } := by
  unfold commitGates writtenList
  dsimp only
  split <;> rfl

/-- The list in force from its base time on, at its first entry. -/
def startList (es : List (Nat × Nat)) (base : Nat) (g : Gates) : Gates :=
  { g with run := es, index := 0, since := base, pend := none }

theorem exec_gateListSwitch {h : Hub} {u : Sub} {es : List (Nat × Nat)} {base : Nat} {s : State}
    (hp : (gatesOf s h.val u.val).pend = some (es, base)) : exec (.gateListSwitch h u) s =
      .next (bump (modGates (refillTo (passTo s h.val base) h.val) h.val u.val (startList es base))
        .traffic_GATE_SWITCHES h.val) := by
  dsimp only [exec]
  unfold execGateListSwitch
  dsimp only
  rw [hp]
  rfl

/-- The next entry is in force, the first after the last. -/
def nextEntry (d : Nat) (g : Gates) : Gates :=
  { g with index := if g.index + 1 < g.run.length then g.index + 1 else 0, since := g.since + d }

theorem exec_gateEntryAdvance {h : Hub} {u : Sub} {e : Nat × Nat} {s : State}
    (he : (gatesOf s h.val u.val).run[(gatesOf s h.val u.val).index]? = some e) : exec (.gateEntryAdvance h u) s =
      .next (modGates (passTo s h.val ((gatesOf s h.val u.val).since + e.2)) h.val u.val (nextEntry e.2)) := by
  dsimp only [exec]
  unfold execGateEntryAdvance
  dsimp only
  rw [he]
  rfl

theorem nextEntry_index {g : Gates} {d : Nat} (h : g.index < g.run.length) :
    (nextEntry d g).index = (g.index + 1) % g.run.length := by
  unfold nextEntry
  dsimp only
  split
  · rw [Nat.mod_eq_of_lt (by assumption)]
  · have he : g.index + 1 = g.run.length := by omega
    rw [he, Nat.mod_self]

/-- Settles O10: a refill by `bucketRefill_plain` and `bucketRefill_applies`, a commit by `commitGates_eq`, a switch by
`exec_gateListSwitch` and the end of an entry by `nextEntry_index`. -/
theorem refillsAndGateLists : Obligations.RefillsAndGateLists := by
  unfold Obligations.RefillsAndGateLists
  refine ⟨fun h s hh hl => completes_of_exec rfl (bucketRefill_plain hh hl rfl), fun h r k i v s hh hl hr => ?_,
    fun h s hp => ?_, fun h u es base s hp hh => ?_, fun h u e s he => ?_⟩
  · have hleaves : RefillLeaves (toRefill s h.val) (refillTo (toRefill s h.val) h.val) := refillTo_leaves ..
    obtain ⟨hheld, hshow, hwide⟩ := bucketRefill_applies hh hl hr rfl
    refine completes_of_exec rfl ⟨hheld, hshow, hwide, ?_, hleaves.gates, hleaves.egress⟩
    exact congrArg (·.mem) hleaves.rest
  · refine completes_of_exec (if_pos hp) ?_
    rw [commitGates_eq]
    split
    · exact ⟨(rget_rset_same ..).trans (by decide), rfl⟩
    · refine ⟨?_, ?_, otherGates_modGates s _ _ _, rfl⟩
      · rw [gatesOf_modGates_same]
      · rw [gatesOf_modGates_same]
  · have hleaves := refillTo_leaves (passTo s h.val base) h.val
    have hregs := refillTo_regs (s := passTo s h.val base) hh h.val
    have hlife : (refillTo (passTo s h.val base) h.val).life = (passTo s h.val base).life := congrArg (·.life) hleaves.rest
    refine completes_of_exec (exec_gateListSwitch hp) ⟨?_, ?_, fun x hx => ?_, ?_, ?_, ?_⟩
    · exact gatesOf_modGates_same ..
    · refine le_trans (Nat.le_max_right (now s h.val) base) (le_of_eq ?_)
      exact (now_passTo s h.val base).symm.trans (now_congr hlife _).symm
    · exact (otherGates_modGates (refillTo (passTo s h.val base) h.val) h.val u.val (startList es base) x hx).trans
        (congrArg (aget · x) hleaves.gates)
    · refine (rget_bump_same ..).trans ?_
      have hrg : rget (modGates (refillTo (passTo s h.val base) h.val) h.val u.val (startList es base))
          .traffic_GATE_SWITCHES h.val 0 = rget s .traffic_GATE_SWITCHES h.val 0 := rget_congr hregs ..
      rw [hrg]
    · exact congrArg (·.mem) hleaves.rest
    · exact congrArg (·.out) hleaves.rest
  · have hsame : gatesOf (modGates (passTo s h.val ((gatesOf s h.val u.val).since + e.2)) h.val u.val (nextEntry e.2))
        h.val u.val = nextEntry e.2 (gatesOf s h.val u.val) := gatesOf_modGates_same ..
    refine completes_of_exec (exec_gateEntryAdvance he) ⟨by rw [hsame]; rfl, ?_, by rw [hsame]; rfl, ?_,
      otherGates_modGates _ h.val u.val (nextEntry e.2), rfl⟩
    · rw [hsame, nextEntry_index (List.getElem?_eq_some_iff.mp he).1]
    · exact now_passTo ..

end Sys2Proof.Proofs

namespace Sys2Proof.Proofs
open Sys2Proof.Machine Sys2Proof.Laws

/-!
Command slots (O31): the bytes of a body, and a final write that is accepted, is a repeat, or meets a busy slot.
-/

/-! ## Bodies (14_host.md R325) -/

/-- Bytes stored one by one from a place on. -/
def storeBytes (m : Assoc Nat Byte) (o : Nat) (data : List Byte) (n : Nat) : Assoc Nat Byte :=
  (data.zipIdx n).foldl (fun m b => aset m (o + b.2) b.1) m

theorem storeBytes_cons (m : Assoc Nat Byte) (o : Nat) (b : Byte) (data : List Byte) (n : Nat) :
    storeBytes m o (b :: data) n = storeBytes (aset m (o + n) b) o data (n + 1) := rfl

theorem agetD_storeBytes_outside {o a : Nat} : ∀ (data : List Byte) (m : Assoc Nat Byte) (n : Nat),
    a < o + n ∨ o + n + data.length ≤ a → agetD (storeBytes m o data n) a 0#8 = agetD m a 0#8
  | [], _, _, _ => rfl
  | b :: data, m, n, h => by
    rw [List.length_cons] at h
    rw [storeBytes_cons, agetD_storeBytes_outside data _ _ (by omega), agetD_aset_other _ (by omega)]

theorem agetD_storeBytes_inside {o i : Nat} : ∀ (data : List Byte) (m : Assoc Nat Byte) (n : Nat), i < data.length →
    agetD (storeBytes m o data n) (o + n + i) 0#8 = data.getD i 0#8
  | [], _, _, h => absurd h (Nat.not_lt_zero _)
  | b :: data, m, n, h => by
    rw [storeBytes_cons]
    cases i with
    | zero => rw [agetD_storeBytes_outside data _ _ (by omega), Nat.add_zero, agetD_aset_same]; rfl
    | succ j =>
      have hj := agetD_storeBytes_inside (o := o) data (aset m (o + n) b) (n + 1) (Nat.lt_of_succ_lt_succ h)
      rw [show o + n + (j + 1) = o + (n + 1) + j by omega, hj]
      rfl

theorem hostSlot_modSlot_same (s : State) (p f k : Nat) (g : HostSlot → HostSlot) :
    hostSlot (modSlot s p f k g) p f k = g (hostSlot s p f k) := agetD_aset_same ..

theorem hostSlot_congr {s t : State} (h : t.host.slots = s.host.slots) (p f k : Nat) :
    hostSlot t p f k = hostSlot s p f k := by simp only [hostSlot, h]

theorem exec_commandBodyWrite_stores {p : Port} {f : Fn} {k : Slot64} {o : Nat} {data : List Byte} {ide : Option Nat}
    {s : State} (ht : takesTlp s p.val f.val ide = true) (hb : (hostSlot s p.val f.val k.val).busy = false) :
    exec (.commandBodyWrite p f k o data ide) s =
      .next (modSlot s p.val f.val k.val fun x => { x with body := storeBytes x.body o data 0 }) :=
  (if_neg (by simp [ht])).trans (if_neg (by simp [hb]))

theorem exec_commandBodyWrite_busy {p : Port} {f : Fn} {k : Slot64} {o : Nat} {data : List Byte} {ide : Option Nat}
    {s : State} (ht : takesTlp s p.val f.val ide = true) (hb : (hostSlot s p.val f.val k.val).busy = true) :
    exec (.commandBodyWrite p f k o data ide) s = .next (bump s .fn_SLOT_BUSY_WRITES (fnInst p.val f.val)) :=
  (if_neg (by simp [ht])).trans (if_pos hb)

/-! ## Final writes (14_host.md R326) -/

section
variable {p : Port} {f : Fn} {k : Slot64} {v : BitVec 64} {ide : Option Nat} {s : State}
  (ht : takesTlp s p.val f.val ide = true)
include ht

theorem exec_finalWrite_busy (hb : (hostSlot s p.val f.val k.val).busy = true) :
    exec (.finalWrite p f k v ide) s = .next (bump s .fn_SLOT_BUSY_WRITES (fnInst p.val f.val)) :=
  (if_neg (by simp [ht])).trans (if_pos (.inr hb))

variable (hr : ringOn s p.val f.val 0 = true) (hb : (hostSlot s p.val f.val k.val).busy = false)
  (hv : (recordAt s p.val f.val k.val v).valid = true)
include hr hb hv

theorem exec_finalWrite_again (hs : (recordAt s p.val f.val k.val v).seq ≠ (hostSlot s p.val f.val k.val).expected)
    (ha : (recordAt s p.val f.val k.val v).seq = seqBefore (hostSlot s p.val f.val k.val).expected) :
    exec (.finalWrite p f k v ide) s = .next (bump s .fn_DUP_FINALS (fnInst p.val f.val)) := by
  have hfin : finalTo s p.val f.val k.val v = bump s .fn_DUP_FINALS (fnInst p.val f.val) :=
    (if_neg (by simpa [recordAt] using hv)).trans ((if_neg hs).trans (if_pos ha))
  rw [← hfin]
  exact (if_neg (by simp [ht])).trans (if_neg (by simp [hr, hb]))

theorem exec_finalWrite_accepts (hs : (recordAt s p.val f.val k.val v).seq = (hostSlot s p.val f.val k.val).expected) :
    exec (.finalWrite p f k v ide) s = .next (acceptCmd s p.val f.val k.val (recordAt s p.val f.val k.val v)) := by
  have hfin : finalTo s p.val f.val k.val v = acceptCmd s p.val f.val k.val (recordAt s p.val f.val k.val v) :=
    (if_neg (by simpa [recordAt] using hv)).trans (if_pos hs)
  rw [← hfin]
  exact (if_neg (by simp [ht])).trans (if_neg (by simp [hr, hb]))

end

/-- A slot taken by a command: busy, and its expected sequence one on. -/
def takenSlot (x : HostSlot) : HostSlot := { x with busy := true, expected := seqAfter x.expected }

/-- The state once a command is accepted: its slot taken, COMMANDS one on, and a number drawn for it. -/
def accepted (s : State) (p f k : Nat) : State := (newId (bump (modSlot s p f k takenSlot) .port_COMMANDS p)).2

theorem rget_accepted (s : State) (p f k : Nat) {r : Reg} (h : r ≠ .port_COMMANDS) (i e : Nat) :
    rget (accepted s p f k) r i e = rget s r i e := rget_bump_other _ h ..

/-- Acceptance changes the slot, COMMANDS and the numbers. -/
theorem accepted_rest (s : State) (p f k : Nat) :
    accepted s p f k = { s with host := (accepted s p f k).host, regs := (accepted s p f k).regs, nextId := s.nextId + 1 } :=
  rfl

/-- The primary port is told by the preference, the hubs and the ports' links. -/
theorem primaryPort_congr {s t : State} (hp : rg t .port_primary_pref = rg s .port_primary_pref)
    (hl : t.life.hubs = s.life.hubs) (hw : t.power = s.power) : primaryPort t = primaryPort s := by
  have ha : hubAlive t = hubAlive s := funext fun h => by simp only [hubAlive, hubSt_congr hl]
  have hlost : portLost t = portLost s := funext fun p => by simp only [portLost, ha, hw]
  unfold primaryPort
  rw [hp, hlost, ha]

theorem primaryPort_accepted (s : State) (p f k : Nat) : primaryPort (accepted s p f k) = primaryPort s :=
  primaryPort_congr (rget_accepted s p f k (r := .port_primary_pref) (by decide) 0 0) rfl rfl

/-- Orders 1 to 4 of R327 do not depend on the slot, the count or the number. -/
theorem cmdFail_accepted (s : State) (p f k : Nat) (c : CmdRec) (m : Msg) (known : Bool) :
    cmdFail (accepted s p f k) p f c m known = cmdFail s p f c m known := by
  have hs : respShort (accepted s p f k) m = respShort s m := rfl
  simp only [cmdFail, ringOn, hs, primaryPort_accepted, rget_accepted s p f k (r := .fn_ring_enable) (by decide),
    rget_accepted s p f k (r := .port_fn_tenant) (by decide)]

/-! ## Order 8 without a policer profile (13_traffic.md R301) -/

/-- A request of an entry without a policer profile: green, and counted. -/
def greened (s : State) (h key : Nat) : State :=
  bump (modTraf s fun x => { x with pols := amod x.pols (h, key) fun e => { e with last := .green } }) .traffic_GREEN h

theorem orderEight_unpoliced {s : State} {h key cls charge : Nat} (hd : NoRefillDue s h)
    (hp : (profOf s h (profIndex s h key)).on = false) (hc : (profOf s h (profIndex s h key)).minClass ≤ cls)
    (hq : queueLen s h < queueMax) : orderEight s h key cls charge true = (greened s h key, .take cls .green) := by
  have hmeter : meter s h key charge = (greened s h key, .green) := by
    unfold meter
    rw [refillTo_notDue hd]
    exact if_pos (by simp [hp])
  have hlen : ¬ queueMax ≤ queueLen (greened s h key) h := by
    change ¬ queueMax ≤ queueLen s h
    omega
  have hlow : ¬ cls < (profOf s h (profIndex s h key)).minClass := by omega
  unfold orderEight
  dsimp only
  rw [refillTo_notDue hd, if_neg hlow, hmeter]
  dsimp only
  rw [if_neg hlen, Nat.max_eq_left hc, if_neg (by decide)]

/-- A function's policer entry names the profile of the function. 14_host.md R319. -/
theorem profIndex_polFn (s : State) (h p f : Nat) (hf : f < 64) :
    profIndex s h (polFn p f) = rget s .port_fn_profile p f := by
  unfold profIndex polFn
  rw [if_neg (by omega), show (2 ^ 24 + 64 * p + f - 2 ^ 24) / 64 = p by omega,
    show (2 ^ 24 + 64 * p + f - 2 ^ 24) % 64 = f by omega]

theorem hubField_accepted (s : State) (p f k h : Nat) {r : Reg} (hr : r ≠ .port_COMMANDS) (i : Nat) :
    hubField (accepted s p f k) h r i = hubField s h r i := by
  have ht : (accepted s p f k).traf = s.traf := rfl
  simp only [hubField, ht, rget_accepted s p f k hr]

theorem profOf_accepted (s : State) (p f k h i : Nat) : profOf (accepted s p f k) h i = profOf s h i := by
  simp only [profOf, hubField_accepted s p f k h (r := .traffic_prof_enable) (by decide),
    hubField_accepted s p f k h (r := .traffic_cir_mbps) (by decide), hubField_accepted s p f k h (r := .traffic_cbs) (by decide),
    hubField_accepted s p f k h (r := .traffic_pir_mbps) (by decide), hubField_accepted s p f k h (r := .traffic_pbs) (by decide),
    hubField_accepted s p f k h (r := .traffic_min_class) (by decide)]

/-! ## Acceptance (14_host.md R327) -/

/-- A command whose payload lies in host memory: the host is asked for its bytes and the command waits for them. -/
def payloadAsked (s : State) (id p : Nat) (c : CmdRec) (m : Msg) : State :=
  emit (setPhase (queueCmd s id m) id .waitPayload) (.hostRead p c.addr c.length)

theorem cmdFive_asks {s : State} {id p f : Nat} {c : CmdRec} {m : Msg} (ho : cmdOpen s m.opcode = true)
    (h8 : orderEight s m.hub (polFn p f) c.cls (c.length + 64) true = (greened s m.hub (polFn p f), .take c.cls .green))
    (hi : c.inl = false) (hl : 0 < c.length) (hn : m.opcode ≠ .snapshot) : cmdFive s id c m p f =
      payloadAsked (greened s m.hub (polFn p f)) id p c { m with cls := c.cls, colour := .green } := by
  unfold cmdFive
  rw [if_neg (by simp [ho]), h8]
  dsimp only
  rw [if_neg (by simp [hi, hn, Nat.ne_of_gt hl])]
  rfl

/-- What waits in the queue keeps its record but for its phase, under its number. -/
theorem setPhase_queued (s : State) (id : Nat) (m : Msg) {q : Phase} (hq : q.before = true) :
    ∃ g : Msg → Msg, (∀ x, g x = { x with phase := q }) ∧ setPhase (queueCmd s id m) id q = modMsg (queueCmd s id m) id g := by
  refine ⟨fun x => { x with phase := q }, fun _ => rfl, ?_⟩
  have hsome : (msgOf (queueCmd s id m) id).isSome = true := by
    unfold msgOf queueCmd
    rw [setMsgs_msgs]
    induction s.msgs with
    | nil => simp [aget]
    | cons x l ih =>
      by_cases hx : x.1 = id
      · simp [aget, hx]
      · simpa [aget, hx] using ih
  obtain ⟨y, hy⟩ := Option.isSome_iff_exists.mp hsome
  unfold setPhase
  rw [hy]
  dsimp only
  rw [if_pos hq]
  simp only [hq, if_true]

theorem payloadAsked_spec (s : State) (id p : Nat) (c : CmdRec) (m : Msg) :
    (id, { m with phase := .waitPayload }) ∈ (payloadAsked s id p c m).msgs ∧
      payloadAsked s id p c m = { s with msgs := (payloadAsked s id p c m).msgs,
                                         out := s.out ++ [.hostRead p c.addr c.length] } := by
  obtain ⟨g, hg, he⟩ := setPhase_queued s id m (q := .waitPayload) rfl
  unfold payloadAsked
  rw [he]
  refine ⟨?_, rfl⟩
  have hm : (modMsg (queueCmd s id m) id g).msgs = amod (s.msgs ++ [(id, m)]) id g := rfl
  rw [emit_msgs, hm]
  exact List.mem_map.mpr ⟨(id, m), List.mem_append_right _ (List.mem_singleton.mpr rfl), by simp [hg]⟩

section
variable {p : Port} {f : Fn} {k : Slot64} {c : CmdRec} {op : Opcode} {s : State}

/-- A command with its payload in host memory that passes orders 1 to 5. -/
theorem acceptCmd_asks (hop : Opcode.ofCode c.opcode = some op) (hn : op ≠ .snapshot) (hi : c.inl = false) (hl : 0 < c.length)
    (hfail : cmdFail s p.val f.val c (cmdMsg s p.val f.val k.val c op []) (decide (op ≠ .attend) && decide (op ≠ .read)) = none)
    (ho : cmdOpen s op = true) (hd : NoRefillDue s (portHub p.val))
    (hp : (profOf s (portHub p.val) (rget s .port_fn_profile p.val f.val)).on = false)
    (hc : (profOf s (portHub p.val) (rget s .port_fn_profile p.val f.val)).minClass ≤ c.cls)
    (hq : queueLen s (portHub p.val) < queueMax) : acceptCmd s p.val f.val k.val c =
      payloadAsked (greened (accepted s p.val f.val k.val) (portHub p.val) (polFn p.val f.val)) s.nextId p.val c
        { cmdMsg s p.val f.val k.val c op [] with cls := c.cls, colour := .green } := by
  have hidx : profIndex (accepted s p.val f.val k.val) (portHub p.val) (polFn p.val f.val) =
      rget s .port_fn_profile p.val f.val := by
    rw [profIndex_polFn _ _ _ _ f.isLt, rget_accepted _ _ _ _ (by decide)]
  have h8 := orderEight_unpoliced (s := accepted s p.val f.val k.val) (key := polFn p.val f.val) (cls := c.cls)
    (charge := c.length + 64) hd (by rw [hidx, profOf_accepted, hp]) (by rw [hidx, profOf_accepted]; exact hc) hq
  have hfail' := (cmdFail_accepted s p.val f.val k.val c (cmdMsg s p.val f.val k.val c op [])
    (decide (op ≠ .attend) && decide (op ≠ .read))).trans hfail
  refine Eq.trans ?_ (cmdFive_asks (s := accepted s p.val f.val k.val) (id := s.nextId) (p := p.val) (f := f.val) (c := c)
    (m := cmdMsg s p.val f.val k.val c op []) ho h8 hi hl hn)
  unfold acceptCmd
  dsimp only
  simp only [hop, Option.getD_some, hi, Bool.false_eq_true, false_and, if_false, Bool.false_or]
  change (match cmdFail (accepted s p.val f.val k.val) p.val f.val c (cmdMsg s p.val f.val k.val c op [])
      (decide (op ≠ .attend) && decide (op ≠ .read)) with
    | some st => endCmd (queueCmd (accepted s p.val f.val k.val) s.nextId (cmdMsg s p.val f.val k.val c op [])) s.nextId st 0
    | none => cmdFive (accepted s p.val f.val k.val) s.nextId c (cmdMsg s p.val f.val k.val c op []) p.val f.val) = _
  rw [hfail']

end

/-- Settles O31: bodies by `agetD_storeBytes_inside` and `agetD_storeBytes_outside`, acceptance by `acceptCmd_asks`. -/
theorem commandSlotWrites : Obligations.CommandSlotWrites := by
  unfold Obligations.CommandSlotWrites
  refine ⟨fun p f k o data ide s ht hb => ?_, fun p f k v op ide s ht hr hb hv hs hop hn hi hl hfail ho hd hp hc hq => ?_,
    fun p f k v ide s ht hr hb hv hs ha => exec_finalWrite_again ht hr hb hv hs ha,
    fun p f k v o data ide s ht hb => ⟨exec_finalWrite_busy ht hb, exec_commandBodyWrite_busy ht hb⟩⟩
  · refine completes_of_exec (exec_commandBodyWrite_stores ht hb)
      ⟨fun i hi => ?_, fun a ha => ?_, fun x hx => aget_aset_other hx .., rfl⟩
    · rw [hostSlot_modSlot_same]
      exact agetD_storeBytes_inside data _ 0 hi
    · rw [hostSlot_modSlot_same]
      exact agetD_storeBytes_outside data _ 0 ha
  · refine completes_of_exec ((exec_finalWrite_accepts ht hr hb hv hs).trans
      (congrArg Host.Outcome.next (acceptCmd_asks hop hn hi hl hfail ho hd hp hc hq))) ?_
    generalize recordAt s p.val f.val k.val v = c at *
    generalize hu : greened (accepted s p.val f.val k.val) (portHub p.val) (polFn p.val f.val) = u
    obtain ⟨hm, hrest⟩ := payloadAsked_spec u s.nextId p.val c
      { cmdMsg s p.val f.val k.val c op [] with cls := c.cls, colour := .green }
    have hslot : hostSlot u p.val f.val k.val = takenSlot (hostSlot s p.val f.val k.val) := by
      rw [← hu]
      exact hostSlot_modSlot_same ..
    have hcount : rget u .port_COMMANDS p.val 0 =
        min (rget s .port_COMMANDS p.val 0 + 1) (2 ^ Reg.width .port_COMMANDS - 1) := by
      rw [← hu]
      exact (rget_bump_other _ (by decide) ..).trans (rget_bump_same ..)
    have hpart : u.out = s.out ∧ u.mem = s.mem ∧ u.seqs = s.seqs := by
      rw [← hu]
      exact ⟨rfl, rfl, rfl⟩
    refine ⟨?_, ?_, ?_, ?_, ⟨_, hm, rfl, rfl, rfl⟩, ?_, ?_⟩
    · rw [hostSlot_congr (s := u) (by rw [hrest]), hslot]
      rfl
    · rw [hostSlot_congr (s := u) (by rw [hrest]), hslot]
      rfl
    · rw [rget_congr (s := u) (by rw [hrest]), hcount]
    · rw [hrest, ← hpart.1]
    · rw [hrest, ← hpart.2.1]
    · rw [hrest, ← hpart.2.2]

end Sys2Proof.Proofs

namespace Sys2Proof.Proofs
open Sys2Proof.Machine Sys2Proof.Laws

/-!
Events of a host port (O32): the end of payload reads, rings, resets of a function, and the loss and release of a port.
-/

/-! ## PAYLOAD_READ_COMPLETE (14_host.md R327 orders 6 and 7) -/

theorem msgOf_modMsg_const {s : State} {id : Nat} {m y : Msg} (h : msgOf s id = some m) :
    msgOf (modMsg s id fun _ => y) id = some y :=
  (aget_amod_same id (fun _ => y) s.msgs).trans (by rw [show aget s.msgs id = some m from h]; rfl)

theorem msgOf_payloadArrived {s : State} {id : Nat} {m y : Msg} (h : msgOf s id = some m) :
    msgOf (payloadArrived s id y) id = some y := by
  unfold payloadArrived msgOf
  rw [modMeter_msgs]
  exact msgOf_modMsg_const h

theorem runNine_pass {s v : State} {id : Nat} {m : Msg} (hm : msgOf s id = some m) (h9 : nine s id m true = (v, .pass)) :
    runNine s id = setPhase v id .arrived := by
  unfold runNine
  rw [hm]
  dsimp only
  rw [h9]

theorem exec_payloadReadComplete_data {id : Nat} {m : Msg} {b : List Byte} {s : State} (hm : msgOf s id = some m)
    (hp : m.phase = .waitPayload) (hb : b.length = m.payLen) : exec (.payloadReadComplete id (.data b)) s =
      .next (payloadIn (modMsg s id fun _ => { m with payload := b, phase := .arrived }) id
        { m with payload := b, phase := .arrived }) := by
  dsimp only [exec]
  unfold execPayloadReadComplete
  rw [hm]
  dsimp only
  rw [if_neg (by simp [hp]), if_neg (by simp [hb])]

/-! ## Rings (14_host.md R331, R340) -/

/-- A ring whose message has gone out. -/
def ringSent (s : State) (p f r : Nat) : Ring :=
  { ringOf s p f r with lastMsg := some (now s (portHub p)), held := false }

def ringKept (s : State) (p f r : Nat) : State :=
  modHost s fun x => { x with rings := aset x.rings (p, f, r) (ringSent s p f r) }

/-- A ring's message goes out once its interval is over. -/
theorem raiseRing_due {s : State} {p f r : Nat} (h : (ringOf s p f r).lastMsg.getD 0 + rget s .fn_coalesce_ns (fnInst p f) r ≤
    now s (portHub p)) : raiseRing s p f r =
      { s with host := { s.host with rings := aset s.host.rings (p, f, r) (ringSent s p f r) },
               out := s.out ++ if rget s .fn_ring_vector (fnInst p f) r < msixCount s p f then
                 [.msix p f (rget s .fn_ring_vector (fnInst p f) r)] else [] } := by
  have hdue : (match (ringOf s p f r).lastMsg with
      | none => true
      | some l => decide (l + rget s .fn_coalesce_ns (fnInst p f) r ≤ now s (portHub p))) = true := by
    cases hl : (ringOf s p f r).lastMsg with
    | none => rfl
    | some l => simpa [hl] using h
  refine Eq.trans (if_pos hdue) ?_
  change (if rget s .fn_ring_vector (fnInst p f) r < msixCount s p f then
    emit (ringKept s p f r) (.msix p f (rget s .fn_ring_vector (fnInst p f) r)) else ringKept s p f r) = _
  by_cases hc : rget s .fn_ring_vector (fnInst p f) r < msixCount s p f
  · rw [if_pos hc, if_pos hc]
    rfl
  · rw [if_neg hc, if_neg hc, List.append_nil]
    rfl

theorem exec_coalesceExpiry_held {p : Port} {f : Fn} {r : Fin 16} {s : State} (hh : (ringOf s p.val f.val r.val).held = true)
    (hu : portUp s p.val = true) : exec (.coalesceExpiry p f r) s =
      .next (raiseRing (passTo s (portHub p.val) ((ringOf s p.val f.val r.val).lastMsg.getD 0 +
        rget s .fn_coalesce_ns (fnInst p.val f.val) r.val)) p.val f.val r.val) :=
  if_neg (by simp [hh, hu])

theorem exec_ringEnable_starts {p : Port} {f : Fn} {r : Fin 16} {ide : Option Nat} {s : State}
    (ht : takesTlp s p.val f.val ide = true) (hr : ringOn s p.val f.val r.val = false) : exec (.ringEnable p f r ide) s =
      .next (modHost (rset s .fn_ring_enable (fnInst p.val f.val) r.val 1) fun x =>
        { x with rings := aset x.rings (p.val, f.val, r.val) ⟨0, true, none, false⟩ }) :=
  (if_pos ht).trans (congrArg Host.Outcome.next (if_neg (by simp [hr])))

theorem ringOn_iff (s : State) (p f r : Nat) : ringOn s p f r = decide (rget s .fn_ring_enable (fnInst p f) r = 1) := rfl

/-! ## A function is reset (14_host.md R335) -/

/-- One ring and one window of a function are disabled. -/
def disableOne (i : Nat) (s : State) (r : Nat) : State :=
  rset (rset s .fn_ring_enable i r 0) .fn_win_enable i r 0

theorem disableOne_ring (s : State) (i r j : Nat) : rget (disableOne i s r) .fn_ring_enable i j =
    if j = r then 0 else rget s .fn_ring_enable i j := by
  unfold disableOne
  rw [rget_rset_other _ _ (by simp)]
  split
  · next h => subst h; rw [rget_rset_same]; rfl
  · next h => exact rget_rset_other _ _ (by simp [h])

theorem disableOne_win (s : State) (i r j : Nat) : rget (disableOne i s r) .fn_win_enable i j =
    if j = r then 0 else rget s .fn_win_enable i j := by
  unfold disableOne
  split
  · next h => subst h; rw [rget_rset_same]; rfl
  · next h => rw [rget_rset_other _ _ (by simp [h]), rget_rset_other _ _ (by simp)]

theorem disableOne_other (s : State) (i r : Nat) {q : Reg} (h1 : q ≠ .fn_ring_enable) (h2 : q ≠ .fn_win_enable) (j e : Nat) :
    rget (disableOne i s r) q j e = rget s q j e := by
  unfold disableOne
  rw [rget_rset_other _ _ (by simp [h2]), rget_rset_other _ _ (by simp [h1])]

/-- Rings and windows of a function are disabled one after the other. -/
def disableAll (s : State) (i : Nat) (l : List Nat) : State := l.foldl (disableOne i) s

theorem disableAll_off (i : Nat) : ∀ (l : List Nat) (s : State) (r : Nat),
    rget (disableAll s i l) .fn_ring_enable i r = (if r ∈ l then 0 else rget s .fn_ring_enable i r) ∧
      rget (disableAll s i l) .fn_win_enable i r = (if r ∈ l then 0 else rget s .fn_win_enable i r)
  | [], s, r => by simp [disableAll]
  | k :: l, s, r => by
    obtain ⟨hring, hwin⟩ := disableAll_off i l (disableOne i s k) r
    have hcons : disableAll s i (k :: l) = disableAll (disableOne i s k) i l := rfl
    rw [hcons, hring, hwin, disableOne_ring, disableOne_win]
    by_cases hl : r ∈ l <;> by_cases hk : r = k <;> simp [hl, hk]

theorem disableAll_rest (i : Nat) : ∀ (l : List Nat) (s : State),
    disableAll s i l = { s with regs := (disableAll s i l).regs } ∧
      ∀ q : Reg, q ≠ .fn_ring_enable → q ≠ .fn_win_enable → ∀ j e, rget (disableAll s i l) q j e = rget s q j e
  | [], s => ⟨rfl, fun _ _ _ _ _ => rfl⟩
  | k :: l, s => by
    obtain ⟨hrest, hregs⟩ := disableAll_rest i l (disableOne i s k)
    have hcons : disableAll s i (k :: l) = disableAll (disableOne i s k) i l := rfl
    rw [hcons]
    exact ⟨by rw [hrest]; rfl, fun q h1 h2 j e => (hregs q h1 h2 j e).trans (disableOne_other s i k h1 h2 j e)⟩

/-- The host block once a function is reset. -/
def fnCleared (s : State) (p f : Nat) : HostSt :=
  { s.host with
    muted := s.host.muted ++ (fnCmds s p f).filter fun i => ! s.host.muted.contains i
    slots := s.host.slots.filter fun x => ! (decide (x.1.1 = p) && decide (x.1.2.1 = f))
    rings := s.host.rings.filter fun x => ! (decide (x.1.1 = p) && decide (x.1.2.1 = f))
    msix := aset s.host.msix (p, f) (rget s .port_fn_msix_count p f) }

theorem resetFn_eq (s : State) (p f : Nat) :
    resetFn s p f = disableAll { s with host := fnCleared s p f } (fnInst p f) (List.range 16) := rfl

/-- What a reset of a function leaves: its rings and windows are off, and of the node only the host block has changed. -/
theorem resetFn_rest (s : State) (p f : Nat) :
    resetFn s p f = { s with host := fnCleared s p f, regs := (resetFn s p f).regs } ∧
      ∀ q : Reg, q ≠ .fn_ring_enable → q ≠ .fn_win_enable → ∀ j e, rget (resetFn s p f) q j e = rget s q j e := by
  rw [resetFn_eq]
  obtain ⟨hrest, hregs⟩ := disableAll_rest (fnInst p f) (List.range 16) { s with host := fnCleared s p f }
  exact ⟨by rw [hrest], hregs⟩

theorem resetFn_off (s : State) (p f : Nat) {r : Nat} (h : r < 16) :
    rget (resetFn s p f) .fn_ring_enable (fnInst p f) r = 0 ∧ rget (resetFn s p f) .fn_win_enable (fnInst p f) r = 0 := by
  rw [resetFn_eq]
  obtain ⟨hring, hwin⟩ := disableAll_off (fnInst p f) (List.range 16) { s with host := fnCleared s p f } r
  exact ⟨hring.trans (if_pos (List.mem_range.mpr h)), hwin.trans (if_pos (List.mem_range.mpr h))⟩

theorem aget_filter_none {κ α : Type} [DecidableEq κ] {q : κ × α → Bool} {k : κ} (hq : ∀ v, q (k, v) = false) :
    ∀ m : Assoc κ α, aget (m.filter q) k = none
  | [] => rfl
  | (j, v) :: m => by
    by_cases h : q (j, v) = true
    · have hj : j ≠ k := fun e => by rw [e, hq] at h; exact Bool.false_ne_true h
      simp [h, aget, hj, aget_filter_none hq m]
    · simp [h, aget_filter_none hq m]

theorem hostSlot_resetFn_same (s : State) (p f k : Nat) : hostSlot (resetFn s p f) p f k = ⟨1, false, []⟩ := by
  have hn : aget (fnCleared s p f).slots (p, f, k) = none := aget_filter_none (by simp) _
  rw [(resetFn_rest s p f).1]
  simp only [hostSlot, agetD, hn]
  rfl

theorem hostSlot_resetFn_other (s : State) {p f q g : Nat} (h : (q, g) ≠ (p, f)) (k : Nat) :
    hostSlot (resetFn s p f) q g k = hostSlot s q g k := by
  have hn : aget (fnCleared s p f).slots (q, g, k) = aget s.host.slots (q, g, k) := by
    refine aget_filter _ _ (fun v => ?_) _
    simp only [Bool.not_eq_true', Bool.and_eq_false_iff, decide_eq_false_iff_not]
    exact not_and_or.mp fun ⟨hq, hg⟩ => h (by rw [hq, hg])
  rw [(resetFn_rest s p f).1]
  simp only [hostSlot, agetD, hn]

theorem fnCmds_muted (s : State) (p f : Nat) : ∀ id ∈ fnCmds s p f, id ∈ (fnCleared s p f).muted := by
  intro id hid
  by_cases h : id ∈ s.host.muted
  · exact List.mem_append_left _ h
  · exact List.mem_append_right _ (List.mem_filter.mpr ⟨hid, by simpa using h⟩)

/-! ## A port goes down (14_host.md R336) -/

theorem getD_set_of_lt {α : Type} {l : List α} {i : Nat} (h : i < l.length) (v d : α) : (l.set i v).getD i d = v := by
  simp [List.getD_eq_getElem?_getD, h]

theorem getD_set_false (l : List Bool) (i : Nat) : (l.set i false).getD i false = false := by
  by_cases h : i < l.length
  · exact getD_set_of_lt h ..
  · have hl : (l.set i false)[i]? = none := List.getElem?_eq_none (by simpa using h)
    rw [List.getD_eq_getElem?_getD, hl]
    rfl

theorem mem_pcieDown_sessions (s : State) (p : Nat) (x : Session) :
    x ∈ (pcieDown s p).trust.sessions ↔ x ∈ s.trust.sessions ∧ ∀ g, x.chan ≠ .pcie p g := by
  refine List.mem_filter.trans (and_congr_right fun _ => ?_)
  cases x.chan with
  | pcie q g =>
    simp only [decide_eq_true_eq, ne_eq, Channel.pcie.injEq, not_and]
    exact ⟨fun h _ e => absurd e h, fun h e => h g e rfl⟩
  | conn id => simp

/-! ## PERST# is released (18_package.md R427 step 6) -/

/-- What resets of functions leave: of the node only the host block, and of the registers those of rings and windows. -/
structure FnsReset (s t : State) : Prop where
  rest : t = { s with host := t.host, regs := t.regs }
  regs : ∀ q : Reg, q ≠ .fn_ring_enable → q ≠ .fn_win_enable → ∀ j e, rget t q j e = rget s q j e

theorem FnsReset.foldl (p : Nat) (l : List Nat) (s : State) : FnsReset s (l.foldl (fun s f => resetFn s p f) s) := by
  induction l generalizing s with
  | nil => exact ⟨rfl, fun _ _ _ _ _ => rfl⟩
  | cons f l ih =>
    obtain ⟨hrest, hregs⟩ := resetFn_rest s p f
    have h := ih (resetFn s p f)
    rw [List.foldl_cons]
    exact ⟨by rw [h.rest, hrest], fun q h1 h2 j e => (h.regs q h1 h2 j e).trans (hregs q h1 h2 j e)⟩

theorem hostSlot_resetFns (p k : Nat) {f : Nat} (l : List Nat) (s : State)
    (h : f ∈ l ∨ hostSlot s p f k = ⟨1, false, []⟩) :
    hostSlot (l.foldl (fun s f => resetFn s p f) s) p f k = ⟨1, false, []⟩ := by
  induction l generalizing s with
  | nil => exact h.resolve_left (List.not_mem_nil)
  | cons g l ih =>
    rw [List.foldl_cons]
    refine ih _ ?_
    by_cases hg : f = g
    · subst hg
      exact .inr (hostSlot_resetFn_same ..)
    · refine h.imp (fun hm => (List.mem_cons.mp hm).resolve_left hg) fun hs => ?_
      rw [hostSlot_resetFn_other s (by simp [hg]), hs]

/-- Every function of a port is reset. -/
def fnsReset (s : State) (p : Nat) : State := (List.range 64).foldl (fun s f => resetFn s p f) s

/-- A port's keys and its SPDM session are gone, and PERST# is high. -/
def keysGone (s : State) (p : Nat) : State :=
  modPower (modHost s fun h =>
    { h with ideKeys := h.ideKeys.filter fun k => decide (k.port ≠ p), ideSet := h.ideSet.filter fun k => decide (k.1.1 ≠ p),
             secured := h.secured.filter fun q => decide (q ≠ p) }) fun x => { x with perst := x.perst.set p true }

/-- A port whose functions are reset, with PERST# high. -/
def released (s : State) (p : Nat) : State := keysGone (fnsReset s p) p

theorem keysGone_rest (s : State) (p : Nat) : (keysGone s p).host.slots = s.host.slots ∧ (keysGone s p).regs = s.regs ∧
    (keysGone s p).power = { s.power with perst := s.power.perst.set p true } ∧ (keysGone s p).mem = s.mem ∧
    (keysGone s p).seqs = s.seqs ∧ (keysGone s p).life = s.life := ⟨rfl, rfl, rfl, rfl, rfl, rfl⟩

theorem keysGone_keys (s : State) (p : Nat) : ∀ k ∈ (keysGone s p).host.ideKeys, k.port ≠ p :=
  fun _ hk => of_decide_eq_true (List.mem_filter.mp hk).2

theorem portRelease_eq (s : State) (p : Nat) : portRelease s p =
    if (hubSt (released s p) (portHub p)).up then trainPort (released s p) p
    else modPower (released s p) fun x => { x with pcieUp := x.pcieUp.set p false } := rfl

/-- Rate and width that a port trains to (assumption 105). -/
def trainedTo (s : State) (p : Nat) : Nat × Nat :=
  (5 + (fresh s).1 % (min 7 (max 5 (rget s .port_max_speed p 0)) - 4), 4 * 2 ^ ((fresh (fresh s).2).1 % 3))

theorem trainPort_eq (s : State) (p : Nat) : (trainPort s p).host = s.host ∧ (trainPort s p).mem = s.mem ∧
    (trainPort s p).seqs = s.seqs ∧ (trainPort s p).power =
      { s.power with pcieUp := s.power.pcieUp.set p true, pcieLink := s.power.pcieLink.set p (trainedTo s p),
                     pcieLost := s.power.pcieLost.set p false } := by
  unfold trainPort
  dsimp only
  split <;> exact ⟨rfl, rfl, rfl, rfl⟩

theorem trainedTo_range (s : State) (p : Nat) : 5 ≤ (trainedTo s p).1 ∧ (trainedTo s p).1 ≤ 7 ∧
    (trainedTo s p).1 ≤ max 5 (rget s .port_max_speed p 0) ∧
    ((trainedTo s p).2 = 4 ∨ (trainedTo s p).2 = 8 ∨ (trainedTo s p).2 = 16) := by
  have hmod := Nat.mod_lt (fresh s).1 (show 0 < min 7 (max 5 (rget s .port_max_speed p 0)) - 4 by omega)
  refine ⟨Nat.le_add_right .., ?_, ?_, ?_⟩
  · simp only [trainedTo]
    omega
  · simp only [trainedTo]
    omega
  · have hw : (fresh (fresh s).2).1 % 3 < 3 := Nat.mod_lt _ (by decide)
    simp only [trainedTo]
    generalize (fresh (fresh s).2).1 % 3 = w at hw
    obtain rfl | rfl | rfl : w = 0 ∨ w = 1 ∨ w = 2 := by omega
    · exact .inl rfl
    · exact .inr (.inl rfl)
    · exact .inr (.inr rfl)

/-- Settles O32: payload reads by `runNine_pass`, rings by `raiseRing_due` and `exec_ringEnable_starts`, a reset of a function by
`resetFn_off` and what follows it, a port's loss by `mem_pcieDown_sessions`, its release by `trainPort_eq`. -/
theorem hostPortEvents : Obligations.HostPortEvents := by
  unfold Obligations.HostPortEvents
  refine ⟨fun id m b s v hm hp hb hr h9 => ?_, fun p f r s hh hu => ?_, fun p f r ide s ht hr => ?_, fun p f s => ?_,
    fun p s => ?_, fun p s hr hpl hul hll => ?_⟩
  · refine completes_of_exec (exec_payloadReadComplete_data hm hp hb) ⟨?_, modMeter_mem ..⟩
    refine (if_neg (by simpa [payloadArrived] using hr)).trans ?_
    exact runNine_pass (msgOf_payloadArrived hm) h9
  · have hnow := now_passTo s (portHub p.val) ((ringOf s p.val f.val r.val).lastMsg.getD 0 +
      rget s .fn_coalesce_ns (fnInst p.val f.val) r.val)
    refine completes_of_exec ((exec_coalesceExpiry_held hh hu).trans
      (congrArg Host.Outcome.next (raiseRing_due ?_))) ⟨rfl, ?_, fun x hx => aget_aset_other hx .., hnow, rfl, rfl⟩
    · rw [hnow]
      exact Nat.le_max_right ..
    · exact congrArg (·.held) (agetD_aset_same s.host.rings (p.val, f.val, r.val) (ringSent _ p.val f.val r.val) _)
  · refine completes_of_exec (exec_ringEnable_starts ht hr)
      ⟨?_, agetD_aset_same .., fun x hx => aget_aset_other hx .., rfl⟩
    rw [ringOn_iff]
    exact decide_eq_true ((rget_rset_same s .fn_ring_enable (fnInst p.val f.val) r.val 1).trans (by decide))
  · refine completes_of_exec (t := resetFn s p.val f.val) rfl ⟨fun r h => ?_, fun k => hostSlot_resetFn_same ..,
      fun q g k h => hostSlot_resetFn_other s h k, by rw [(resetFn_rest s p.val f.val).1], fun id hid => ?_, ?_⟩
    · obtain ⟨hring, hwin⟩ := resetFn_off s p.val f.val h
      exact ⟨by rw [ringOn_iff, hring]; rfl, hwin⟩
    · rw [(resetFn_rest s p.val f.val).1]
      exact fnCmds_muted s p.val f.val id hid
    · rw [(resetFn_rest s p.val f.val).1]
  · refine completes_of_exec (t := pcieDown s p.val) rfl
      ⟨?_, fun x hx => (mem_pcieDown_sessions ..).mp hx, fun x hx hg => (mem_pcieDown_sessions ..).mpr ⟨hx, hg⟩, rfl, rfl, rfl⟩
    have hup : (pcieDown s p.val).power.pcieUp.getD p.val false = false := getD_set_false ..
    rw [portUp, hup, Bool.false_and]
  · have hreset : FnsReset s (fnsReset s p.val) := FnsReset.foldl ..
    obtain ⟨hs, hregs, hpow, hm, hq, hl⟩ := keysGone_rest (fnsReset s p.val) p.val
    have hslots : ∀ f k, f < 64 → hostSlot (released s p.val) p.val f k = ⟨1, false, []⟩ := fun f k hf =>
      (hostSlot_congr hs ..).trans (hostSlot_resetFns p.val k (List.range 64) s (.inl (List.mem_range.mpr hf)))
    have hkeys : ∀ k ∈ (released s p.val).host.ideKeys, k.port ≠ p.val :=
      keysGone_keys (fnsReset s p.val) p.val
    have hspeed : rget (released s p.val) .port_max_speed p.val 0 = rget s .port_max_speed p.val 0 :=
      (rget_congr hregs ..).trans (hreset.regs _ (by decide) (by decide) _ _)
    have hpower : (released s p.val).power = { s.power with perst := s.power.perst.set p.val true } :=
      hpow.trans (by rw [hreset.rest])
    have hmem : (released s p.val).mem = s.mem := hm.trans (by rw [hreset.rest])
    have hseqs : (released s p.val).seqs = s.seqs := hq.trans (by rw [hreset.rest])
    have hlife : (released s p.val).life = s.life := hl.trans (by rw [hreset.rest])
    have hhub : hubSt (released s p.val) (portHub p.val) = hubSt s (portHub p.val) := hubSt_congr (by rw [hlife]) _
    refine completes_of_exec (t := portRelease s p.val) (if_pos hr) ?_
    rw [portRelease_eq, hhub]
    by_cases hup : (hubSt s (portHub p.val)).up = true
    · obtain ⟨hhost, hm, hq, hp⟩ := trainPort_eq (released s p.val) p.val
      obtain ⟨h5, h7, hmax, hw⟩ := trainedTo_range (released s p.val) p.val
      have hlt : p.val < 2 := p.isLt
      have hperst : p.val < s.power.perst.length := by omega
      have hups : p.val < s.power.pcieUp.length := by omega
      have hlinks : p.val < s.power.pcieLink.length := by omega
      rw [if_pos hup, hp, hpower]
      refine ⟨getD_set_of_lt hperst .., (getD_set_of_lt hups ..).trans hup.symm,
        fun _ => ⟨_, _, getD_set_of_lt hlinks .., h5, h7, by rw [← hspeed]; exact hmax, hw⟩, ?_, ?_, hm.trans hmem, hq.trans hseqs⟩
      · rw [hhost]
        exact hkeys
      · intro f k hf
        rw [hostSlot_congr (s := released s p.val) (by rw [hhost]), hslots f k hf]
    · rw [if_neg hup]
      refine ⟨?_, ?_, fun h => absurd h hup, ?_, ?_, (modPower_mem ..).trans hmem, (modPower_seqs ..).trans hseqs⟩
      · have hlt : p.val < 2 := p.isLt
        have hperst : p.val < s.power.perst.length := by omega
        rw [modPower_power, hpower]
        exact getD_set_of_lt hperst ..
      · have hdown : ∀ u : State, (modPower u fun x => { x with pcieUp := x.pcieUp.set p.val false }).power.pcieUp.getD
            p.val false = false := fun u => getD_set_false u.power.pcieUp p.val
        rw [hdown, Bool.eq_false_iff.mpr hup]
      · rw [modPower_host]
        exact hkeys
      · intro f k hf
        rw [hostSlot_congr (s := released s p.val) (by rw [modPower_host]), hslots f k hf]

end Sys2Proof.Proofs

namespace Sys2Proof.Proofs
open Sys2Proof.Machine Sys2Proof.Laws

/-!
What a read of device memory leaves. A read may correct a word, repair it, retire its bank and so move what lies in SRAM;
none of that concerns the messages, the host ports, the ledger, the regions or the life cycle. `aside` collects those parts, so that each
operation on the way to a read has one equation.
-/

/-- The parts of the state that no read of device memory concerns. -/
structure Aside where
  msgs  : Assoc Nat Msg
  merge : MergeSt
  fab   : FabSt
  traf  : TrafSt
  ledg  : LedgSt
  chive : ChiveSt
  host  : HostSt
  trust : TrustSt
  /-- all but the known-good map -/
  life  : LifeSt
  power : Power
  /-- all but where the regions lie -/
  regn  : RegnSt

/-- A region apart from its place. -/
def placeless (r : Region) : Region := { r with target := 0 }

def aside (s : State) : Aside :=
  ⟨s.msgs, s.merge, s.fab, s.traf, s.ledg, s.chive, s.host, s.trust, { s.life with kgm := [] }, s.power,
    { s.regn with regions := s.regn.regions.map fun p => (p.1, placeless p.2) }⟩

theorem aside_of_eq {α : Type} {s t : State} {p : State × α} {r : α} (h : aside p.1 = aside s) (e : p = (t, r)) :
    aside t = aside s := by subst e; exact h

theorem aside_ite {c : Prop} [Decidable c] {s a b : State} (ha : aside a = aside s) (hb : aside b = aside s) :
    aside (if c then a else b) = aside s := by split <;> assumption

theorem aside_foldl {α : Type} {f : State → α → State} (hf : ∀ s x, aside (f s x) = aside s) (l : List α) (s : State) :
    aside (l.foldl f s) = aside s := foldl_part aside hf l s

/-! ## Records and words -/

@[simp] theorem modMem_aside (s : State) (f : MemSt → MemSt) : aside (modMem s f) = aside s := rfl
@[simp] theorem modSeqs_aside (s : State) (f : SeqSt → SeqSt) : aside (modSeqs s f) = aside s := rfl
@[simp] theorem fresh_aside (s : State) : aside (fresh s).2 = aside s := rfl
@[simp] theorem modBank_aside (s : State) (d b : Nat) (f : Bank → Bank) : aside (modBank s d b f) = aside s := rfl

@[simp] theorem journal_aside (s : State) (h type : Nat) (payload : List Byte) : aside (journal s h type payload) = aside s := by
  simp [aside]

@[simp] theorem healthEvent_aside (s : State) (d b v : Nat) : aside (healthEvent s d b v) = aside s := by simp [aside]

@[simp] theorem kgmAdd_aside (s : State) (die kind unit loc v : Nat) : aside (kgmAdd s die kind unit loc v) = aside s := by
  unfold kgmAdd writeKgm
  split <;> rfl

@[simp] theorem modDie_aside (s : State) (d : Nat) (f : DieHealth → DieHealth) : aside (modDie s d f) = aside s := by
  simp [aside]

@[simp] theorem poke_aside (s : State) (a : Nat) (bs : List Byte) : aside (poke s a bs) = aside s := by simp [aside]

@[simp] theorem setChk_aside (s : State) (l : Assoc Nat Nat) : aside (setChk s l) = aside s := rfl

@[simp] theorem touchBanks_aside (s : State) (a n : Nat) : aside (touchBanks s a n) = aside s := by simp [aside]

@[simp] theorem readWord_aside (s : State) (a reader : Nat) : aside (readWord s a reader).1 = aside s := by simp [aside]

/-! ## Moving what lies in SRAM -/

@[simp] theorem moveWords_aside : ∀ (n : Nat) (s : State) (src dst : Nat), aside (moveWords n s src dst) = aside s
  | 0, _, _, _ => rfl
  | n + 1, s, src, dst => by
    unfold moveWords
    split
    all_goals
      next e => simp [moveWords_aside n, aside_of_eq (readWord_aside ..) e]

@[simp] theorem moveRaw_aside (s : State) (src dst n : Nat) : aside (moveRaw s src dst n) = aside s := by
  unfold moveRaw
  exact (aside_ite (moveWords_aside ..) (poke_aside ..)).trans (touchBanks_aside s src n)

@[simp] theorem renameSram_aside (s : State) (src dst n : Nat) : aside (renameSram s src dst n) = aside s := by
  have h : aside (renameSram s src dst n) = { aside s with regn := (aside (renameSram s src dst n)).regn } := rfl
  rw [h]
  refine congrArg (fun l => { aside s with regn := { s.regn with regions := l } }) ?_
  unfold renameSram
  simp only [modDill_regn, modRegn_regn, modMem_regn, modSeqs_regn, List.map_map]
  refine List.map_congr_left fun p _ => ?_
  dsimp only [Function.comp_apply]
  split <;> rfl

theorem allocSram_aside {s t : State} {die tenant n a : Nat} {kind : SramKind}
    (h : allocSram s die tenant n kind = some (t, a)) : aside t = aside s := by
  obtain ⟨u, -, e⟩ := Option.map_eq_some_iff.mp h
  cases e
  simp [aside]

@[simp] theorem freeSram_aside (s : State) (a : Nat) : aside (freeSram s a) = aside s :=
  freeSram_part aside (fun _ _ => rfl) (fun _ _ _ => by simp [aside]) (fun _ _ _ _ => rfl) s a

@[simp] theorem moveHold_aside (s : State) (h : SramHold) : aside (moveHold s h) = aside s := by
  unfold moveHold
  split
  · rfl
  · next e => simp [allocSram_aside e]

@[simp] theorem moveArea_aside (s : State) (die b : Nat) : aside (moveArea s die b) = aside s := by
  unfold moveArea
  refine aside_ite ?_ rfl
  split
  · rfl
  · next e => simp [allocSram_aside e]

/-! ## Repair -/

@[simp] theorem retireBank_aside (s : State) (die b : Nat) : aside (retireBank s die b) = aside s := by
  unfold retireBank
  dsimp only
  split <;> simp [aside_foldl moveHold_aside]

@[simp] theorem repairColumn_aside (s : State) (die b col : Nat) : aside (repairColumn s die b col) = aside s := by
  unfold repairColumn
  extract_lets k n most s1 s2
  have h1 : aside s1 = aside s := by simp [s1]
  exact (journal_aside ..).trans (aside_ite (retireBank_aside ..) (aside_ite ((healthEvent_aside ..).trans h1) h1))

@[simp] theorem repairRow_aside (s : State) (die off : Nat) : aside (repairRow s die off) = aside s := by simp [repairRow]

@[simp] theorem mend_aside (s : State) (a : Nat) (fix : Option (Nat × Nat)) : aside (mend s a fix) = aside s := by
  unfold mend repairWord
  split
  · rfl
  · exact aside_ite (aside_ite (repairRow_aside ..) (aside_ite rfl (repairColumn_aside ..))) rfl

/-! ## Reads -/

@[simp] theorem loadWords_aside : ∀ (n : Nat) (s : State) (a reader : Nat), aside (loadWords n s a reader).1 = aside s
  | 0, _, _, _ => rfl
  | n + 1, s, a, reader => by
    unfold loadWords
    split
    all_goals
      next e => simp [loadWords_aside n, aside_of_eq (readWord_aside ..) e]

@[simp] theorem load_aside (s : State) (a n reader : Nat) : aside (load s a n reader).1 = aside s := by
  unfold load
  dsimp only
  split
  · split
    all_goals
      next e => exact (aside_of_eq (loadWords_aside ..) e).trans (touchBanks_aside ..)
  · exact touchBanks_aside ..

@[simp] theorem view_aside (s : State) (a n reader : Nat) : aside (view s a n reader).1 = aside s := by
  unfold view
  split
  · exact load_aside ..
  · split
    all_goals
      next e => exact aside_of_eq (load_aside ..) e

/-! ## Pages -/

@[simp] theorem markDamaged_aside (s : State) (lpn : Nat) : aside (markDamaged s lpn) = aside s := by
  simp [markDamaged, noteChange]

@[simp] theorem readPage_aside (s : State) (r : PageRef) (g : PGeom) (tenant : Nat) (crc : Bool) (reader : Nat) :
    aside (readPage s r g tenant crc reader).1 = aside s := by
  unfold readPage
  split
  · rfl
  split
  · next e => exact aside_of_eq (load_aside ..) e
  · next e =>
    have hu := aside_of_eq (load_aside ..) e
    dsimp only
    (repeat' split) <;> simp [hu]

@[simp] theorem loadHdr_aside (s : State) (lpn reader : Nat) : aside (loadHdr s lpn reader).1 = aside s := by
  unfold loadHdr
  split
  all_goals
    next e => exact aside_of_eq (load_aside ..) e

@[simp] theorem deltaDamaged_aside (s : State) (d : Desc) (b : DeltaBlock) (cause : Nat) :
    aside (deltaDamaged s d b cause) = aside s := by simp [deltaDamaged]

@[simp] theorem expandDelta_aside (s : State) (d : Desc) (b : DeltaBlock) : aside (expandDelta s d b).1 = aside s := by
  unfold expandDelta
  extract_lets bad
  split
  · rfl
  split
  · next e => exact (deltaDamaged_aside ..).trans (aside_of_eq (readPage_aside ..) e)
  · next e => exact aside_of_eq (readPage_aside ..) e
  · next e =>
    have hu := aside_of_eq (readPage_aside ..) e
    split
    · exact (deltaDamaged_aside ..).trans hu
    · exact hu

/-! ## Regions -/

/-- Reads carried out one after another, each only where those before it gave a value, leave what each of them leaves. -/
theorem aside_foldl_fst {α β : Type} {f : State × β → α → State × β} (hf : ∀ p x, aside (f p x).1 = aside p.1) (l : List α)
    (p : State × β) : aside (l.foldl f p).1 = aside p.1 := by
  induction l generalizing p with
  | nil => rfl
  | cons x l ih => exact (ih _).trans (hf p x)

theorem pairImages_aside (s : State) (i : Nat) (d : Desc) (pair : Nat) : aside (pairImages s i d pair).1 = aside s := by
  unfold pairImages
  extract_lets l h step fromDelta
  have hstep : ∀ acc go, (∀ u, aside (go u).1 = aside u) → aside (step acc go).1 = aside acc.1 := by
    intro acc go hgo
    dsimp only [step]
    split
    · rfl
    · split
      all_goals
        next e => exact aside_of_eq (hgo _) e
  clear_value step
  refine (aside_foldl_fst (fun p x => ?_) _ _).trans (aside_foldl_fst (fun p x => ?_) _ _)
  · apply hstep
    intro u
    split
    all_goals
      next e => exact aside_of_eq (readPage_aside ..) e
  · apply hstep
    intro u
    split
    · rfl
    · split
      all_goals
        next e => exact aside_of_eq (expandDelta_aside ..) e

@[simp] theorem xferBytes_aside (s : State) (r : Region) : aside (xferBytes s r).1 = aside s := by
  unfold xferBytes
  split
  · rfl
  · extract_lets got
    have hg : aside got.1 = aside s := by
      refine aside_foldl_fst (fun p x => ?_) _ _
      split
      · rfl
      · split
        all_goals
          next e => exact aside_of_eq (pairImages_aside ..) e
    clear_value got
    obtain ⟨u, _ | b⟩ := got
    · exact hg
    · exact hg

@[simp] theorem refStatus_aside (s : State) (g : PGeom) (tenant : Nat) (ref : PageRef) :
    aside (refStatus s g tenant ref).1 = aside s := by
  unfold refStatus
  split
  · rfl
  · split
    all_goals
      next e => exact aside_of_eq (loadHdr_aside ..) e

@[simp] theorem partsStatus_aside (g : PGeom) (tenant : Nat) : ∀ (l : List (Nat × PageRef × Nat × Nat)) (s : State),
    aside (partsStatus g tenant l s).1 = aside s
  | [], _ => rfl
  | (_, ref, _, _) :: ps, s => by
    have h := refStatus_aside s g tenant ref
    unfold partsStatus
    split
    · next e => exact (partsStatus_aside g tenant ps _).trans (aside_of_eq h e)
    · exact h

@[simp] theorem rangeCheck_aside (s : State) (r : Region) (write : Bool) (a : AccHdr) :
    aside (rangeCheck s r write a).1 = aside s := by
  unfold rangeCheck
  (repeat' split) <;> simp

/-- Order 7 of R257 reads nothing for a region that is not a SEQUENCE. -/
theorem rangeCheck_still {r : Region} (h : r.kind ≠ rkSequence) (s : State) (write : Bool) (a : AccHdr) :
    (rangeCheck s r write a).1 = s := by
  unfold rangeCheck
  rw [if_neg h]
  (repeat' split) <;> rfl

@[simp] theorem readRange_aside (s : State) (r : Region) (off len : Nat) : aside (readRange s r off len).1 = aside s := by
  unfold readRange
  split
  · split
    all_goals
      next e => exact aside_of_eq (xferBytes_aside ..) e
  split
  · split
    · rfl
    · refine aside_foldl_fst (fun p x => ?_) _ _
      obtain ⟨_, ref, o, n⟩ := x
      dsimp only
      split
      · rfl
      · split
        all_goals
          next e => exact aside_of_eq (load_aside ..) e
  · have h : aside (if r.kind = rkWindow then view s (spanAddr s r off) len readHost
        else load s (spanAddr s r off) len readHost).1 = aside s := by split <;> simp
    split
    all_goals
      next e => exact aside_of_eq h e

end Sys2Proof.Proofs

namespace Sys2Proof.Proofs
open Sys2Proof.Machine Sys2Proof.Laws

/-!
Direct windows (O33, 14_host.md R332, R333). The checks and the read of a window access leave the host ports (`aside`), so
the port that took a request is still up when its completion goes out.
-/

/-! ## Regions and refusals -/

/-- A region whose entry changes. -/
theorem regionOf_modRegion_same {s : State} {i : Nat} {r : Region} (f : Region → Region) (h : regionOf s i = some r) :
    regionOf (modRegion s i f) i = some (f r) :=
  (aget_amod_same i f s.regn.regions).trans (by rw [show aget s.regn.regions i = some r from h]; rfl)

/-- A refusal by a key is counted in the registers alone. -/
theorem countRefusal_rest (s : State) (hub : Nat) (st : Status) :
    countRefusal s hub st = { s with regs := (countRefusal s hub st).regs } := by
  unfold countRefusal
  split <;> rfl

/-- A counter of refusals by keys is none of a function's registers. -/
theorem rget_countRefusal_other (s : State) (hub : Nat) (st : Status) {r : Reg} (h : r.info.blk ≠ .region) (i x : Nat) :
    rget (countRefusal s hub st) r i x = rget s r i x := by
  unfold countRefusal
  have hne : ∀ c : Reg, c.info.blk = .region → r ≠ c := fun c hc e => h (e ▸ hc)
  split
  · exact rget_bump_other s (hne _ rfl) ..
  · exact rget_bump_other s (hne _ rfl) ..
  · exact rget_bump_other s (hne _ rfl) ..
  · rfl

/-- A refused access of a window is latched and counted in the registers alone; a read is answered. -/
theorem refuseTlp_write (s : State) (p f w i o n : Nat) (data : List Byte) (st : Status) :
    refuseTlp s ⟨p, f, w, i, o, n, some data⟩ st =
      bump (latchWin (countRefusal s (portHub p) st) p f w st.code) .fn_WINDOW_REFUSED (fnInst p f) := rfl

theorem refuseTlp_read (s : State) (p f w i o n : Nat) (st : Status) :
    refuseTlp s ⟨p, f, w, i, o, n, none⟩ st =
      readDone (latchWin (countRefusal s (portHub p) st) p f w st.code) p f false none := rfl

theorem latchWin_status (s : State) (p f w code : Nat) :
    rget (latchWin s p f w code) .fn_win_status (fnInst p f) w = code % 256 := rget_rset_same ..

/-! ## The checks and the port -/

theorem winCheck_aside (s : State) (p f : Nat) (write : Bool) (a : AccHdr) : aside (winCheck s p f write a).1 = aside s := by
  unfold winCheck
  split
  · rfl
  split
  · rfl
  split
  · rfl
  split
  all_goals
    next e => exact aside_of_eq (rangeCheck_aside ..) e

/-- The checks of a window access to a region that is not a SEQUENCE read no memory. -/
theorem winCheck_still {s v : State} {p f i : Nat} {write : Bool} {a : AccHdr} {r : Region}
    (h : winCheck s p f write a = (v, .ok (i, r))) (hr : r.kind ≠ rkSequence) : v = s := by
  unfold winCheck at h
  split at h
  · cases h
  split at h
  · cases h
  split at h
  · cases h
  split at h
  · cases h
  · next e =>
    cases h
    exact (congrArg Prod.fst e).symm.trans (rangeCheck_still hr ..)

/-- A port is up as long as its power and its hub are. -/
theorem portUp_congr {s t : State} (h : aside t = aside s) (p : Nat) : portUp t p = portUp s p := by
  have hp : t.power = s.power := congrArg Aside.power h
  have hh : hubSt t = hubSt s := funext fun q => hubSt_congr (congrArg (·.life.hubs) h) q
  unfold portUp hubAlive
  rw [hp, hh]

theorem readDone_up {s : State} {p : Nat} (h : portUp s p = true) (f : Nat) (poisoned : Bool) (data : Option (List Byte)) :
    readDone s p f poisoned data = emit s (.readDone p f poisoned data) := if_pos h

theorem portTakes_up {s : State} {p : Nat} (h : portTakes s p = true) : portUp s p = true :=
  (Bool.and_eq_true_iff.mp h).1

/-! ## An access that its function takes -/

theorem exec_windowRead {s : State} {p : Port} {f : Fn} {w : Fin 16} {ide : Option Nat} (h : WindowTakes s p f w ide)
    (o n : Nat) : exec (.directWindowRead p f w o n ide) s =
      match winCheck s p.val f.val false (winAcc s p.val f.val w.val o n) with
      | (v, .error st) => .next (refuseTlp v ⟨p.val, f.val, w.val, 0, (winAcc s p.val f.val w.val o n).offset, n, none⟩ st)
      | (v, .ok (i, r)) => .next (takeTlp v (winTlp s p f w i o n none) r) := by
  obtain ⟨htake, hide, hwin⟩ := h
  dsimp only [exec]
  unfold execDirectWindowRead
  dsimp only
  rw [if_neg (by simp [htake]), if_neg (by simp [hide]), if_neg hwin]
  rfl

theorem exec_windowWrite {s : State} {p : Port} {f : Fn} {w : Fin 16} {ide : Option Nat} (h : WindowTakes s p f w ide)
    (o : Nat) (data : List Byte) : exec (.directWindowWrite p f w o data ide) s =
      match winCheck s p.val f.val true (winAcc s p.val f.val w.val o data.length) with
      | (v, .error st) =>
        .next (refuseTlp v ⟨p.val, f.val, w.val, 0, (winAcc s p.val f.val w.val o data.length).offset, data.length, some data⟩ st)
      | (v, .ok (i, r)) => .next (takeTlp v (winTlp s p f w i o data.length (some data)) r) := by
  obtain ⟨htake, hide, hwin⟩ := h
  dsimp only [exec]
  unfold execDirectWindowWrite
  dsimp only
  rw [if_neg (by simp [htake]), if_neg (by simp [hide]), if_neg hwin]
  rfl

/-- An access of a range whose stack is being retrained waits. -/
theorem takeTlp_waits {v : State} {x : WinTlp} {r : Region} (hr : regionOf v x.region = some r)
    (h : rangeRetrains v r x.offset x.length = true) : TlpWaits v (takeTlp v x r) x r := by
  have e : takeTlp v x r = modHost (modRegion v x.region fun y => { y with inflight := y.inflight + 1 })
      fun h => { h with waits := h.waits ++ [x] } := if_pos h
  rw [e]
  exact ⟨rfl, regionOf_modRegion_same _ hr, rfl⟩

theorem takeTlp_serves {v : State} {x : WinTlp} {r : Region} (h : rangeRetrains v r x.offset x.length = false) :
    takeTlp v x r = serveTlp v x r := if_neg (by simp [h])

/-- A read whose bytes come is answered with them and charged to its tenant. -/
theorem serveTlp_read {v u : State} {p f w i o n : Nat} {r : Region} {b : List Byte} (h : readRange v r o n = (u, .ok b)) :
    serveTlp v ⟨p, f, w, i, o, n, none⟩ r =
      readDone (modMeter u (fnTenant u p f) fun x => { x with bytesOut := x.bytesOut + b.length }) p f false (some b) := by
  unfold serveTlp
  dsimp only
  rw [h]

theorem serveTlp_read_leaves {v u : State} {p f w i o n : Nat} {r : Region} {b : List Byte} (hup : portUp v p = true)
    (h : readRange v r o n = (u, .ok b)) :
    (serveTlp v ⟨p, f, w, i, o, n, none⟩ r).out = u.out ++ [.readDone p f false (some b)] ∧
    (serveTlp v ⟨p, f, w, i, o, n, none⟩ r).mem = u.mem ∧ (serveTlp v ⟨p, f, w, i, o, n, none⟩ r).regs = u.regs := by
  have hu : portUp u p = true := (portUp_congr (aside_of_eq (readRange_aside v r o n) h) p).trans hup
  have hm : portUp (modMeter u (fnTenant u p f) fun x => { x with bytesOut := x.bytesOut + b.length }) p = true :=
    (portUp_congr (by simp [aside]) p).trans hu
  rw [serveTlp_read h, readDone_up hm]
  simp [emit]

/-! ## The obligation -/

/-- Settles O33: a window access that passes its checks waits behind a retraining or is served by the region's own read or
write; a refused one is latched, and answered or counted. -/
theorem directWindows : Obligations.DirectWindows := by
  unfold Obligations.DirectWindows
  refine ⟨fun p f w i o n ide r s v hw hc hr => ?_, fun p f w i o data ide r s v hw hc hr => ?_,
    fun p f w o n ide st s v hw hc => ?_, fun p f w o data ide st s v hw hc => ?_, fun p f write a i r s hk hst => ?_,
    fun p f w o n data ide s ht hi => ⟨?_, ?_⟩⟩
  · have he := exec_windowRead hw o n
    rw [hc] at he
    have hup : portUp v p.val = true :=
      (portUp_congr (aside_of_eq (winCheck_aside ..) hc) _).trans (portTakes_up hw.1)
    refine completes_of_exec he ⟨winCheck_still hc, fun h => takeTlp_waits hr h, fun b u h hb => ?_⟩
    rw [takeTlp_serves h]
    exact serveTlp_read_leaves hup hb
  · have he := exec_windowWrite hw o data
    rw [hc] at he
    exact completes_of_exec he ⟨fun h => takeTlp_waits hr h, fun h => takeTlp_serves h⟩
  · have he := exec_windowRead hw o n
    rw [hc] at he
    have hup : portUp (latchWin (countRefusal v (portHub p.val) st) p.val f.val w.val st.code) p.val = true := by
      rw [countRefusal_rest]
      exact (portUp_congr (s := v) rfl _).trans
        ((portUp_congr (aside_of_eq (winCheck_aside ..) hc) _).trans (portTakes_up hw.1))
    dsimp only at he
    rw [refuseTlp_read, readDone_up hup] at he
    refine completes_of_exec he ⟨latchWin_status .., ?_⟩
    rw [countRefusal_rest]
    exact ⟨rfl, rfl, rfl⟩
  · have he := exec_windowWrite hw o data
    rw [hc] at he
    dsimp only at he
    rw [refuseTlp_write] at he
    refine completes_of_exec he ⟨?_, ?_, ?_⟩
    · exact (rget_bump_other _ (by decide) ..).trans (latchWin_status ..)
    · rw [rget_bump_same, latchWin, rget_rset_other _ _ (by simp), rget_countRefusal_other _ _ _ (by decide)]
    · rw [countRefusal_rest]
      rfl
  · unfold winCheck
    rw [hk]
    exact if_pos hst
  · dsimp only [exec]
    unfold execDirectWindowRead
    dsimp only
    rw [if_neg (by simp [ht]), if_pos (by simp [hi])]
    simp [emit]
  · dsimp only [exec]
    unfold execDirectWindowWrite
    dsimp only
    rw [if_neg (by simp [ht]), if_pos (by simp [hi])]
    rfl

end Sys2Proof.Proofs

namespace Sys2Proof.Proofs
open Sys2Proof.Machine Sys2Proof.Laws

/-!
SPDM and IDE keys of a PCIe port (O43, 15_trust.md R347, R360). A key is found by its four numbers, and a command removes
exactly the keys of the numbers it names.
-/

/-! ## The keys a port holds -/

/-- Whether a key is the one of a port's stream, sub-stream and set. -/
def isKey (p stream sub set : Nat) (k : IdeKey) : Bool :=
  decide (k.port = p) && decide (k.stream = stream) && decide (k.sub = sub) && decide (k.set = set)

/-- Whether a key belongs to a set of a port's stream. -/
def ofSet (p stream set : Nat) (k : IdeKey) : Bool :=
  decide (k.port = p) && decide (k.stream = stream) && decide (k.set = set)

theorem keyOf_eq (s : State) (p stream sub set : Nat) :
    keyOf s p stream sub set = (s.host.ideKeys.find? (isKey p stream sub set)).map (·.key) := rfl

theorem hasSet_eq (s : State) (p stream set : Nat) : hasSet s p stream set = s.host.ideKeys.any (ofSet p stream set) := rfl

theorem isKey_iff {p stream sub set : Nat} {k : IdeKey} :
    isKey p stream sub set k = true ↔ (k.port, k.stream, k.sub, k.set) = (p, stream, sub, set) := by
  simp [isKey, and_assoc]

theorem ofSet_iff {p stream set : Nat} {k : IdeKey} :
    ofSet p stream set k = true ↔ (k.port, k.stream, k.set) = (p, stream, set) := by simp [ofSet, and_assoc]

/-- A search is not concerned by the removal of what it does not look for. -/
theorem find?_filter_of_imp {α : Type} {f g : α → Bool} (h : ∀ x, f x = true → g x = true) (l : List α) :
    (l.filter g).find? f = l.find? f := by
  rw [List.find?_filter]
  refine congrArg (l.find? ·) (funext fun x => ?_)
  cases hf : f x <;> simp
  exact h x hf

/-- The keys after KEY_PROG. -/
def progKeys (l : List IdeKey) (p stream sub set : Nat) (key : List Byte) : List IdeKey :=
  l.filter (fun k => ! isKey p stream sub set k) ++ [⟨p, stream, sub, set, key⟩]

theorem find?_progKeys_same (l : List IdeKey) (p stream sub set : Nat) (key : List Byte) :
    (progKeys l p stream sub set key).find? (isKey p stream sub set) = some ⟨p, stream, sub, set, key⟩ := by
  have hl : (l.filter fun k => ! isKey p stream sub set k).find? (isKey p stream sub set) = none := by
    simp [List.find?_eq_none]
  rw [progKeys, List.find?_append, hl]
  simp [isKey]

theorem find?_progKeys_other (l : List IdeKey) {p stream sub set q a b c : Nat} (key : List Byte)
    (h : (q, a, b, c) ≠ (p, stream, sub, set)) :
    (progKeys l p stream sub set key).find? (isKey q a b c) = l.find? (isKey q a b c) := by
  have hone : [(⟨p, stream, sub, set, key⟩ : IdeKey)].find? (isKey q a b c) = none := by
    simpa [isKey_iff] using fun e1 e2 e3 e4 => h (by rw [e1, e2, e3, e4])
  rw [progKeys, List.find?_append, hone, Option.or_none]
  refine find?_filter_of_imp (fun k hk => ?_) l
  have hk' := isKey_iff.mp hk
  simpa using mt isKey_iff.mp (hk' ▸ h)

/-- The keys after K_SET_STOP. -/
def stopKeys (l : List IdeKey) (p stream set : Nat) : List IdeKey := l.filter fun k => ! ofSet p stream set k

theorem any_stopKeys (l : List IdeKey) (p stream set : Nat) : (stopKeys l p stream set).any (ofSet p stream set) = false := by
  simp [stopKeys]

theorem find?_stopKeys_other (l : List IdeKey) {p stream set q a b c : Nat} (h : (q, a, c) ≠ (p, stream, set)) :
    (stopKeys l p stream set).find? (isKey q a b c) = l.find? (isKey q a b c) := by
  refine find?_filter_of_imp (fun k hk => ?_) l
  obtain ⟨rfl, rfl, rfl, rfl⟩ : k.port = q ∧ k.stream = a ∧ k.sub = b ∧ k.set = c := by simpa using isKey_iff.mp hk
  simpa using mt ofSet_iff.mp h

/-! ## The commands -/

theorem exec_getMeasurements (p : Port) (s : State) : exec (.getMeasurements p) s =
    if ! spdmOn s p then .next s
    else .next (emit s (.spdm p (((reportDigests s (portHub p)).zipIdx).flatMap fun d => leBytes 1 (d.2 + 1) ++ d.1))) := rfl

theorem exec_securedSession (p : Port) (s : State) : exec (.securedSession p) s =
    if ! spdmOn s p ∨ s.host.secured.contains p.val then .next s
    else .next (modHost s fun h => { h with secured := h.secured ++ [p.val] }) := rfl

theorem exec_keyProg (p : Port) (stream sub set : Nat) (key : List Byte) (s : State) : exec (.keyProg p stream sub set key) s =
    if ! ideKm s p ∨ (! (ideStreams s p).contains stream ∧ 8 ≤ (ideStreams s p).length) then .next s
    else .next (modHost s fun h => { h with ideKeys := progKeys h.ideKeys p stream sub set key }) := rfl

/-- What the new set in use still accepts: packets under the set before, where that was another. -/
def goBoth (s : State) (p stream set : Nat) : Bool :=
  match aget s.host.ideSet (p, stream) with
  | some (u, b) => if u = set then b else true
  | none => false

theorem exec_kSetGo (p : Port) (stream set : Nat) (s : State) : exec (.kSetGo p stream set) s =
    if ! ideKm s p ∨ ! hasSet s p stream set then .next s
    else .next (modHost s fun h => { h with ideSet := aset h.ideSet (p.val, stream) (set, goBoth s p stream set) }) := rfl

/-- The sets in use after K_SET_STOP. -/
def stopSets (m : Assoc (Nat × Nat) (Nat × Bool)) (p stream set : Nat) : Assoc (Nat × Nat) (Nat × Bool) :=
  match aget m (p, stream) with
  | none => m
  | some (u, _) => if u = set then adel m (p, stream) else aset m (p, stream) (u, false)

theorem exec_kSetStop (p : Port) (stream set : Nat) (s : State) (h : ideKm s p = true) : exec (.kSetStop p stream set) s =
    .next (modHost s fun x => { x with ideKeys := stopKeys x.ideKeys p stream set, ideSet := stopSets x.ideSet p stream set }) := by
  dsimp only [exec]
  unfold execKSetStop stopSets
  dsimp only [modHost_host]
  rw [if_neg (by simp [h])]
  cases e : aget s.host.ideSet (p.val, stream) with
  | none => simp [modHost, e, stopKeys, ofSet]
  | some x =>
    obtain ⟨u, b⟩ := x
    by_cases hu : u = set
    · simp [modHost, e, stopKeys, ofSet, hu]
    · simp [modHost, e, stopKeys, ofSet, hu]

theorem aget_stopSets_other (m : Assoc (Nat × Nat) (Nat × Bool)) {p stream : Nat} (set : Nat) {y : Nat × Nat}
    (h : y ≠ (p, stream)) : aget (stopSets m p stream set) y = aget m y := by
  unfold stopSets
  split
  · rfl
  split
  · exact aget_adel_other h _
  · exact aget_aset_other h ..

/-! ## The obligation -/

/-- Settles O43: each command changes the host ports alone, and of the keys and sets exactly the one it names (the ninth
stream: assumption 111). -/
theorem portKeysAndMeasurements : Obligations.PortKeysAndMeasurements := by
  unfold Obligations.PortKeysAndMeasurements
  refine ⟨fun p s => ⟨fun h => ?_, fun h => ?_, fun h => ⟨?_, ?_⟩⟩, fun p stream sub set key s hk hn => ?_,
    fun p stream sub set key s => ⟨fun h => ⟨?_, ?_, ?_⟩, fun hc hn => ?_, fun h => ?_⟩, fun p stream set s hk hs => ?_,
    fun p stream set s hk => ?_⟩
  · exact completes_of_exec ((exec_getMeasurements p s).trans (if_neg (by simp [h]))) ⟨rfl, rfl⟩
  · by_cases hc : s.host.secured.contains p.val
    · exact completes_of_exec ((exec_securedSession p s).trans (if_pos (Or.inr hc)))
        ⟨rfl, fun q => ⟨Or.inr, fun hq => hq.elim (fun e => e ▸ List.contains_iff_mem.mp hc) id⟩⟩
    · exact completes_of_exec ((exec_securedSession p s).trans (if_neg (by simpa [h] using hc)))
        ⟨rfl, fun q => by simp [or_comm]⟩
  · exact completes_of_exec ((exec_getMeasurements p s).trans (if_pos (by simp [h]))) rfl
  · exact completes_of_exec ((exec_securedSession p s).trans (if_pos (by simp [h]))) rfl
  · have hgo : ¬((! ideKm s p) = true ∨ (! (ideStreams s p).contains stream) = true ∧ 8 ≤ (ideStreams s p).length) := by
      rintro (h | ⟨hc, hl⟩)
      · simp [hk] at h
      · rcases hn with hn | hn
        · simp only [hn] at hc
          cases hc
        · omega
    refine completes_of_exec ((exec_keyProg p stream sub set key s).trans (if_neg hgo))
      ⟨⟨fun _ _ => rfl, rfl⟩, rfl, ?_, fun q a b c hne => ?_⟩
    · rw [keyOf_eq, modHost_host, find?_progKeys_same]
      rfl
    · rw [keyOf_eq, modHost_host, find?_progKeys_other _ _ hne, keyOf_eq]
  · exact completes_of_exec ((exec_keyProg p stream sub set key s).trans (if_pos (by simp [h]))) rfl
  · exact completes_of_exec ((exec_kSetGo p stream set s).trans (if_pos (by simp [h]))) rfl
  · refine completes_of_exec (t := s) ?_ rfl
    dsimp only [exec]
    unfold execKSetStop
    exact if_pos (by simp [h])
  · exact completes_of_exec ((exec_keyProg p stream sub set key s).trans (if_pos (Or.inr ⟨by simpa using hc, hn⟩))) rfl
  · exact completes_of_exec ((exec_kSetGo p stream set s).trans (if_pos (by simp [h]))) rfl
  · refine completes_of_exec ((exec_kSetGo p stream set s).trans (if_neg (by simp [hk, hs])))
      ⟨⟨fun y hy => aget_aset_other hy .., rfl⟩, rfl, goBoth s p stream set, aget_aset_same .., fun u b hu hne => ?_⟩
    simp [goBoth, hu, hne]
  · refine completes_of_exec (exec_kSetStop p stream set s hk)
      ⟨⟨fun y hy => aget_stopSets_other _ set hy, rfl⟩, ?_, fun q a b c hne => ?_, fun b hb => ?_, fun u b hb hne => ?_⟩
    · exact (hasSet_eq ..).trans (any_stopKeys ..)
    · rw [keyOf_eq, modHost_host, find?_stopKeys_other _ hne, keyOf_eq]
    · simp [stopSets, hb]
    · simp [stopSets, hb, hne]

end Sys2Proof.Proofs

namespace Sys2Proof.Proofs
open Sys2Proof.Machine Sys2Proof.Laws

/-!
The legacy management port (O44, 15_trust.md R364 to R366). What the acceptance of a message leaves is said once; each of
the six functions is then its own answer on an accepted state.
-/

/-! ## Acceptance (R366) -/

/-- A message has been accepted: its counter is kept, and besides the run of acceptances and the journal nothing moves. -/
structure LegacyTaken (s t : State) (counter : Nat) : Prop where
  trust  : t.trust = { s.trust with legacyMax := counter, legacyRun := t.trust.legacyRun }
  life   : t.life = s.life
  power  : t.power = s.power
  mem    : t.mem = s.mem
  seqs   : t.seqs = s.seqs
  health : t.health = s.health
  out    : t.out = s.out
  events : rg t .health_events = rg s .health_events

theorem legacyTake_taken (s : State) (counter : Nat) : LegacyTaken s (legacyTake s counter) counter := by
  unfold legacyTake
  extract_lets u
  split
  · exact ⟨rfl, rfl, rfl, rfl, rfl, rfl, rfl, rfl⟩
  · constructor
    case events => exact rget_journal_other _ _ _ _ (by decide) ..
    all_goals simp [u]

/-! ## The six functions -/

/-- What each function does on an accepted message. 15_trust.md R365. -/
theorem exec_legacy {s : State} {counter : Nat} {b tag : List Byte} (h : LegacyOk s counter b tag) :
    exec (.legacyIdentity counter b tag) s = .next (legacyAnswer (legacyTake s counter) 0
      (leBytes 1 (legacyTake s counter).life.part.code ++ leBytes 1 0xB0 ++ leBytes 8 Config.serial)) ∧
    exec (.legacyHealth counter b tag) s = .next (legacyAnswer (legacyTake s counter) 1
      (leBytes 1 (legacyTake s counter).life.node ++ leBytes 2 (rg (legacyTake s counter) .health_events) ++
        (List.range 32).flatMap (fun k => leBytes 1 (sliceSt (legacyTake s counter) k).st) ++
        (List.range 8).flatMap fun h => leBytes 1 (hubSt (legacyTake s counter) h).st)) ∧
    exec (.legacyTempPower counter b tag) s = .next (legacyAnswer (legacyTake s counter) 2
      ((List.range 40).flatMap (fun d => leBytes 1 (ofSigned 8 (dieTemp (legacyTake s counter) d))) ++
        (List.range 32).flatMap (fun k => leBytes 1 (ofSigned 8 (stackSt (legacyTake s counter) k).temp)) ++
        leBytes 2 (legacyTake s counter).mem.powerAvg)) ∧
    exec (.legacyDrain counter b tag) s = .next (legacyAnswer
      (if (legacyTake s counter).life.node = 2 ∨ (legacyTake s counter).life.node = 3 then
        startDraining (modPower (legacyTake s counter) fun p => { p with drainSoft := true }) else legacyTake s counter) 3 []) ∧
    exec (.legacyDrainRelease counter b tag) s = .next (legacyAnswer
      (endDraining (modPower (legacyTake s counter) fun p => { p with drainSoft := false })) 4 []) ∧
    exec (.legacyNodeReset counter b tag) s = .next (loseDies (legacyAnswer (legacyTake s counter) 5 [])) := by
  obtain ⟨hal, hon, hp⟩ := h
  have hrun : ∀ f, legacyRun s counter b tag f = .next (f (legacyTake s counter)) := fun f =>
    (if_neg (by simp [hal, hon])).trans (if_neg (by simp [hp]))
  refine ⟨?_, ?_, ?_, ?_, ?_, ?_⟩
  all_goals
    dsimp only [exec, execLegacyIdentity, execLegacyHealth, execLegacyTempPower, execLegacyDrain, execLegacyDrainRelease,
      execLegacyNodeReset]
    exact hrun _

/-- The answer goes out on the port; the rest is as the function left it. -/
theorem LegacyTaken.replied {s t u : State} {counter : Nat} (h : LegacyTaken s t counter) (fn : Nat) (content : List Byte)
    (htrust : u.trust = t.trust) (hmem : u.mem = t.mem) (hseqs : u.seqs = t.seqs) (hout : u.out = t.out) :
    LegacyReplied s (legacyAnswer u fn content) counter fn content := by
  have ht : u.trust = { s.trust with legacyMax := counter, legacyRun := t.trust.legacyRun } := htrust.trans h.trust
  refine ⟨?_, ?_, hmem.trans h.mem, hseqs.trans h.seqs, ?_, ?_⟩
  · exact congrArg TrustSt.legacyMax ht
  · exact congrArg (· ++ [.legacy (Config.legacyReply fn content)]) (hout.trans h.out)
  · exact (congrArg TrustSt.psk ht).trans rfl
  · exact (congrArg TrustSt.sessions ht).trans rfl

/-! ## DRAIN and DRAIN_RELEASE (18_package.md R433, R434) -/

/-- A node in service or draining drains. -/
theorem startDraining_drains {s : State} (h : s.life.node = 2 ∨ s.life.node = 3) :
    startDraining s = { s with life := { s.life with node := 3 } } := by
  unfold startDraining
  by_cases h2 : s.life.node = 2
  · exact if_pos h2
  · have e : ({ s.life with node := 3 } : LifeSt) = s.life := by rw [← h.resolve_left h2]
    rw [if_neg h2, e]

/-- A drain changes the node's state alone. -/
theorem endDraining_rest (s : State) : endDraining s = { s with life := { s.life with node := (endDraining s).life.node } } := by
  unfold endDraining
  split <;> rfl

/-! ## NODE_RESET (18_package.md R435) -/

/-- A hub after the dies lost their state: out of service, with its unit generation. -/
theorem hubSt_loseDies (s : State) (h : Nat) :
    (hubSt (loseDies s) h).up = false ∧ (hubSt (loseDies s) h).unitGen = (hubSt s h).unitGen := by
  have e : aget (loseDies s).life.hubs h = (aget s.life.hubs h).map fun x => coldHub x (hubSt State.reset h) :=
    aget_mapKey (fun q x => coldHub x (hubSt State.reset q)) h s.life.hubs
  unfold hubSt agetD
  rw [e]
  cases aget s.life.hubs h <;> exact ⟨rfl, rfl⟩

/-! ## The obligation -/

/-- A message of any function that fails is counted, and a port that is not enabled does nothing. -/
theorem legacyRun_refuses (s : State) (counter : Nat) (b tag : List Byte) (f : State → State) :
    ((hubAlive s 0 = false ∨ legacyOn s = false) → legacyRun s counter b tag f = .next s) ∧
    (hubAlive s 0 = true → legacyOn s = true → legacyPasses s counter b tag = false →
      legacyRun s counter b tag f = .next (bump s .lov_LEGACY_AUTH_FAILS 0)) :=
  ⟨fun h => if_pos (by rcases h with h | h <;> simp [h]),
    fun ha ho hp => (if_neg (by simp [ha, ho])).trans (if_pos (by simp [hp]))⟩

theorem legacyCmds_refused {s : State} {counter : Nat} {b tag : List Byte} {c : Instr} (hc : c ∈ legacyCmds counter b tag) :
    ∃ f, exec c s = legacyRun s counter b tag f := by
  simp only [legacyCmds, List.mem_cons, List.not_mem_nil, or_false] at hc
  rcases hc with rfl | rfl | rfl | rfl | rfl | rfl
  all_goals
    dsimp only [exec, execLegacyIdentity, execLegacyHealth, execLegacyTempPower, execLegacyDrain, execLegacyDrainRelease,
      execLegacyNodeReset]
    exact ⟨_, rfl⟩

/-- Settles O44: the six functions on an accepted message by `exec_legacy`, and what acceptance leaves by
`legacyTake_taken` (the MAC and the layout are opaque, assumption 112). -/
theorem legacyPortAnswers : Obligations.LegacyPortAnswers := by
  unfold Obligations.LegacyPortAnswers
  refine ⟨fun counter b tag c s hc => ?_, fun counter b tag s h => ?_⟩
  · obtain ⟨f, hf⟩ := legacyCmds_refused (s := s) hc
    obtain ⟨hoff, hfail⟩ := legacyRun_refuses s counter b tag f
    refine completes_of_forall (fun mv e => ?_) fun t ht => ⟨fun h => ?_, fun ha ho hp => ?_⟩
    · subst e
      simp [legacyCmds] at hc
    · exact (Host.Outcome.next.inj ((hoff h).symm.trans (hf.symm.trans ht))).symm
    · exact (Host.Outcome.next.inj ((hfail ha ho hp).symm.trans (hf.symm.trans ht))).symm
  · obtain ⟨h0, h1, h2, h3, h4, h5⟩ := exec_legacy h
    have hk := legacyTake_taken s counter
    refine ⟨completes_of_exec h0 ⟨hk.life, hk.power, ?_⟩, completes_of_exec h1 ⟨hk.life, hk.power, ?_⟩,
      completes_of_exec h2 ⟨hk.life, hk.power, ?_⟩, completes_of_exec h3 ⟨?_, fun hn => ?_, fun h2 h3 => ?_⟩,
      completes_of_exec h4 ⟨?_, ?_, fun hn hp ho => ?_, fun hn => ?_⟩, completes_of_exec h5 ?_⟩
    · rw [hk.life]
      exact hk.replied 0 _ rfl rfl rfl rfl
    · have hs : sliceSt (legacyTake s counter) = sliceSt s := funext fun k => sliceSt_congr (congrArg LifeSt.slices hk.life) k
      have hh : hubSt (legacyTake s counter) = hubSt s := funext fun k => hubSt_congr (congrArg LifeSt.hubs hk.life) k
      rw [hs, hh, hk.events, hk.life]
      exact hk.replied 1 _ rfl rfl rfl rfl
    · have hd : dieTemp (legacyTake s counter) = dieTemp s := funext fun d => by
        simp only [dieTemp, dieHealth_congr (congrArg HealthSt.dies hk.health) d]
      have hst : stackSt (legacyTake s counter) = stackSt s := funext fun k => by simp only [stackSt, hk.mem]
      rw [hd, hst, hk.mem]
      exact hk.replied 2 _ rfl rfl rfl rfl
    · split
      · next hn =>
        rw [startDraining_drains (s := modPower (legacyTake s counter) _) hn]
        exact hk.replied 3 _ rfl rfl rfl rfl
      · exact hk.replied 3 _ rfl rfl rfl rfl
    · have hn' : (legacyTake s counter).life.node = 2 ∨ (legacyTake s counter).life.node = 3 := by rwa [hk.life]
      rw [if_pos hn', startDraining_drains (s := modPower (legacyTake s counter) _) hn']
      exact ⟨congrArg (fun l : LifeSt => { l with node := 3 }) hk.life,
        congrArg (fun p : Power => { p with drainSoft := true }) hk.power⟩
    · rw [if_neg (by rw [hk.life]; omega)]
      exact ⟨hk.life, hk.power⟩
    · rw [endDraining_rest]
      exact hk.replied 4 _ rfl rfl rfl rfl
    · rw [endDraining_rest]
      exact congrArg (fun p : Power => { p with drainSoft := false }) hk.power
    · have e := endDraining_returns (s := modPower (legacyTake s counter) fun p => { p with drainSoft := false })
        (by rw [modPower_life, hk.life]; exact hn) (by simp [drainLatched, hk.power, hp])
        (by simpa [shuttingDown, hk.life] using ho)
      rw [e]
      exact congrArg (fun l : LifeSt => { l with node := 2 }) hk.life
    · have e := endDraining_stays (s := modPower (legacyTake s counter) fun p => { p with drainSoft := false })
        (by simpa [drainLatched, shuttingDown, hk.life, hk.power] using hn)
      rw [e]
      exact hk.life
    · have ht := hk.trust
      have ho := congrArg (· ++ [Out.legacy (Config.legacyReply 5 [])]) hk.out
      refine ⟨ho, rfl, rfl, rfl, ?_, ?_, ?_, ?_, fun q => ?_, rfl⟩
      · exact (congrArg TrustSt.pskNand ht).trans rfl
      · exact (congrArg TrustSt.fuses ht).trans rfl
      · exact (congrArg TrustSt.svnMin ht).trans rfl
      · exact (congrArg LifeSt.part hk.life).trans rfl
      · obtain ⟨hu, hg⟩ := hubSt_loseDies (legacyAnswer (legacyTake s counter) 5 []) q
        exact ⟨hu, hg.trans (congrArg HubSt.unitGen (hubSt_congr (congrArg LifeSt.hubs hk.life) q))⟩

end Sys2Proof.Proofs

namespace Sys2Proof.Proofs
open Sys2Proof.Machine Sys2Proof.Laws

/-!
What hubs publish for tenant-facing readers (O48, 15_trust.md R362, R363). A publication replaces exactly the entries the
hub holds; the passing of local time changes neither who holds a field nor a value.
-/

/-! ## Lists of entries -/

section
variable {κ α : Type} [DecidableEq κ]

theorem aget_append (k : κ) (b : Assoc κ α) : ∀ a : Assoc κ α, aget (a ++ b) k = (aget a k).or (aget b k)
  | [] => rfl
  | (j, v) :: a => by
    by_cases e : j = k
    · simp [aget, e]
    · simp [aget, e, aget_append k b a]

theorem aget_none_of_forall {k : κ} : ∀ {l : Assoc κ α}, (∀ p ∈ l, p.1 ≠ k) → aget l k = none
  | [], _ => rfl
  | (j, v) :: l, h => by
    have hj : j ≠ k := h _ (List.mem_cons_self ..)
    simp [aget, hj, aget_none_of_forall fun p hp => h p (List.mem_cons_of_mem _ hp)]

theorem aget_of_mem {k : κ} {v : α} : ∀ {l : Assoc κ α}, (l.map (·.1)).Nodup → (k, v) ∈ l → aget l k = some v
  | (j, w) :: l, hn, hm => by
    obtain ⟨hj, hl⟩ := List.nodup_cons.mp hn
    rcases List.mem_cons.mp hm with e | hm
    · cases e
      simp [aget]
    · have hne : j ≠ k := fun e => hj (List.mem_map.mpr ⟨(k, v), hm, e.symm⟩)
      simpa [aget, hne] using aget_of_mem hl hm

/-- Entries of value zero need not be listed. -/
theorem agetD_filter_ne_zero {l : Assoc κ Nat} (hn : (l.map (·.1)).Nodup) (k : κ) :
    agetD (l.filter fun p => decide (p.2 ≠ 0)) k 0 = agetD l k 0 := by
  have hsub : ((l.filter fun p => decide (p.2 ≠ 0)).map (·.1)).Nodup := hn.sublist (List.filter_sublist.map _)
  unfold agetD
  cases e : aget l k with
  | none =>
    have : aget (l.filter fun p => decide (p.2 ≠ 0)) k = none :=
      aget_none_of_forall fun p hp he => by
        have := aget_of_mem hn (he ▸ (List.mem_filter.mp hp).1 : (k, p.2) ∈ l)
        rw [e] at this
        cases this
    rw [this]
  | some v =>
    by_cases hv : v = 0
    · have : aget (l.filter fun p => decide (p.2 ≠ 0)) k = none :=
        aget_none_of_forall fun p hp he => by
          obtain ⟨hm, hz⟩ := List.mem_filter.mp hp
          have := aget_of_mem hn (he ▸ hm : (k, p.2) ∈ l)
          rw [e, hv] at this
          exact absurd (Option.some.inj this).symm (by simpa using hz)
      rw [this, hv]
      rfl
    · rw [aget_of_mem hsub (List.mem_filter.mpr ⟨mem_of_aget e, by simpa using hv⟩)]

/-- Entries set one after another: one that none of them names stands. -/
theorem aget_foldl_aset_other {k : κ} : ∀ (l m : Assoc κ α), (∀ p ∈ l, p.1 ≠ k) →
    aget (l.foldl (fun m v => aset m v.1 v.2) m) k = aget m k
  | [], _, _ => rfl
  | p :: l, m, h => by
    rw [List.foldl_cons, aget_foldl_aset_other l _ fun q hq => h q (List.mem_cons_of_mem _ hq),
      aget_aset_other (h p (List.mem_cons_self ..)).symm]

/-- One that some of them name, all with one value, has that value. -/
theorem aget_foldl_aset_mem {k : κ} {v : α} : ∀ (l m : Assoc κ α), (k, v) ∈ l → (∀ p ∈ l, p.1 = k → p.2 = v) →
    aget (l.foldl (fun m v => aset m v.1 v.2) m) k = some v
  | p :: l, m, hm, hv => by
    rw [List.foldl_cons]
    by_cases hl : (k, v) ∈ l
    · exact aget_foldl_aset_mem l _ hl fun q hq => hv q (List.mem_cons_of_mem _ hq)
    · have hp : p = (k, v) := ((List.mem_cons.mp hm).resolve_right hl).symm
      rw [aget_foldl_aset_other l _ fun q hq e => hl (by
        have := hv q (List.mem_cons_of_mem _ hq) e
        subst this
        exact e ▸ hq), hp, aget_aset_same]

end

/-! ## The passing of time -/

theorem primaryLov_passTo (s : State) (h t : Nat) : primaryLov (passTo s h t) = primaryLov s := by
  simp only [primaryLov, hubAlive_passTo]
  rfl

theorem nodeHub_passTo (s : State) (h t : Nat) : nodeHub (passTo s h t) = nodeHub s := by
  simp only [nodeHub, primaryLov_passTo, nandHub_passTo]

theorem dieHub_passTo (s : State) (h t : Nat) : dieHub (passTo s h t) = dieHub s := rfl

theorem holderOf_passTo (s : State) (h t : Nat) (b : Blk) (i : Nat) : holderOf (passTo s h t) b i = holderOf s b i := by
  unfold holderOf
  rw [nodeHub_passTo, dieHub_passTo]
  rfl

theorem nextMultiple_dvd (t n : Nat) : nextMultiple t n % n = 0 := Nat.mul_mod_left ..

theorem lt_nextMultiple (t : Nat) {n : Nat} (h : 0 < n) : t < nextMultiple t n :=
  Nat.lt_mul_of_div_lt (Nat.lt_succ_self _) h

theorem nextMultiple_le (t n : Nat) : nextMultiple t n ≤ t + n := by
  rw [nextMultiple, Nat.add_mul, one_mul]
  exact Nat.add_le_add_right (Nat.div_mul_le_self t n) n

/-- A hub's local time passes to the next multiple of a period, which comes afterwards and within it. -/
theorem now_passTo_nextMultiple (s : State) (h : Nat) {n : Nat} (hn : 0 < n) :
    now (passTo s h (nextMultiple (now s h) n)) h = nextMultiple (now s h) n := by
  rw [now_passTo]
  exact Nat.max_eq_right (lt_nextMultiple _ hn).le

/-! ## Counters (R362) -/

/-- No occupancy field is a counter, and each lies in a block whose hub `occPlaces` lists. -/
theorem occupancy_forms : ∀ r ∈ occupancy, isCounter r = false ∧ r.info.blk ≠ .port ∧ r.info.blk ≠ .fn ∧ r.info.blk ≠ .ident ∧
    r.info.blk ≠ .life := by decide

/-- The places of an occupancy field that a hub lists are those it holds. -/
theorem holderOf_occPlaces {s : State} {h : Nat} {r : Reg} {p : Nat × Nat} (hr : r ∈ occupancy) (hp : p ∈ occPlaces s h r) :
    holderOf s r.info.blk p.1 = h := by
  obtain ⟨-, hport, hfn, hident, hlife⟩ := occupancy_forms r hr
  unfold occPlaces at hp
  dsimp only at hp
  obtain ⟨i, hi, he⟩ := List.mem_flatMap.mp hp
  have hpi : p.1 = i := by
    split at he
    · obtain ⟨e, -, he⟩ := List.mem_filterMap.mp he
      split at he <;> cases he
      rfl
    · obtain ⟨k, -, rfl⟩ := List.mem_map.mp he
      rfl
  rw [hpi]
  cases hb : r.info.blk <;> simp only [hb, ne_eq, not_true_eq_false, reduceCtorEq, not_false_eq_true] at hi hport hfn hident hlife
  all_goals simp only [holderOf]
  case sorrel | chive | fab | region | ledger | traffic | lov => exact List.mem_singleton.mp hi
  case mem | dill => simpa using (List.mem_filter.mp hi).2
  case tier | health =>
    split at hi
    · assumption
    · cases hi

/-- What a hub publishes of its counters, zeros among it. -/
def counterGranules (s : State) (h : Nat) : Assoc (Reg × Nat × Nat) Nat :=
  (s.regs.filter fun p => isCounter p.1.1 && decide (holderOf s p.1.1.info.blk p.1.2.1 = h)).map fun p => (p.1, granule p.2)

/-- What it publishes of its occupancy fields. -/
def occGranules (s : State) (h : Nat) : Assoc (Reg × Nat × Nat) Nat :=
  occupancy.flatMap fun r => (occPlaces s h r).map fun (i, e) => ((r, i, e), granule (occVal s r i e))

theorem coarseOf_eq (s : State) (h : Nat) :
    coarseOf s h = (counterGranules s h).filter (fun p => decide (p.2 ≠ 0)) ++ (occGranules s h).filter fun p => decide (p.2 ≠ 0) := by
  unfold coarseOf
  exact List.filter_append ..

theorem mem_occGranules {s : State} {h : Nat} {p : (Reg × Nat × Nat) × Nat} (hp : p ∈ occGranules s h) :
    p.1.1 ∈ occupancy ∧ holderOf s p.1.1.info.blk p.1.2.1 = h := by
  obtain ⟨r, hr, hm⟩ := List.mem_flatMap.mp hp
  obtain ⟨q, hq, rfl⟩ := List.mem_map.mp hm
  exact ⟨hr, holderOf_occPlaces hr hq⟩

theorem mem_counterGranules {s : State} {h : Nat} {p : (Reg × Nat × Nat) × Nat} (hp : p ∈ counterGranules s h) :
    holderOf s p.1.1.info.blk p.1.2.1 = h := by
  obtain ⟨q, hq, rfl⟩ := List.mem_map.mp hp
  have := (List.mem_filter.mp hq).2
  simp only [Bool.and_eq_true, decide_eq_true_eq] at this
  exact this.2

/-- A hub publishes what it holds alone. -/
theorem aget_coarseOf_other {s : State} {h : Nat} {y : Reg × Nat × Nat} (hy : holderOf s y.1.info.blk y.2.1 ≠ h) :
    aget (coarseOf s h) y = none := by
  refine aget_none_of_forall fun p hp e => hy ?_
  rw [coarseOf_eq] at hp
  rcases List.mem_append.mp hp with hp | hp
  · exact e ▸ mem_counterGranules (List.mem_filter.mp hp).1
  · exact e ▸ (mem_occGranules (List.mem_filter.mp hp).1).2

theorem aget_counterGranules {s : State} {h : Nat} {r : Reg} {i e : Nat} (hc : isCounter r = true)
    (hh : holderOf s r.info.blk i = h) : aget (counterGranules s h) (r, i, e) = (aget s.regs (r, i, e)).map granule := by
  unfold counterGranules
  rw [aget_map granule, aget_filter _ _ fun v => by simp [hc, hh]]

/-- A counter is published as its value rounded down to a granule. -/
theorem agetD_coarseOf_counter {s : State} {h : Nat} {r : Reg} {i e : Nat} (hn : (s.regs.map (·.1)).Nodup)
    (hc : isCounter r = true) (hh : holderOf s r.info.blk i = h) :
    agetD (coarseOf s h) (r, i, e) 0 = agetD s.regs (r, i, e) 0 / 4096 * 4096 := by
  have hnd : ((counterGranules s h).map (·.1)).Nodup := by
    unfold counterGranules
    rw [List.map_map]
    exact hn.sublist (List.filter_sublist.map _)
  have hocc : aget ((occGranules s h).filter fun p => decide (p.2 ≠ 0)) (r, i, e) = none :=
    aget_none_of_forall fun p hp he => by
      have := (occupancy_forms _ (mem_occGranules (List.mem_filter.mp hp).1).1).1
      rw [he] at this
      simp [hc] at this
  have hval := agetD_filter_ne_zero hnd (r, i, e)
  rw [coarseOf_eq]
  unfold agetD at hval ⊢
  rw [aget_append, hocc, Option.or_none, hval, aget_counterGranules hc hh]
  cases aget s.regs (r, i, e) <;> rfl

/-! ## The publication of a hub -/

/-- A metering record as it is published. -/
def meterGranules (m : Meter) : Meter :=
  ⟨granule m.pageMs, granule m.sramMs, granule m.scanned, granule m.skipped, granule m.bytesIn, granule m.bytesOut,
    granule m.merges, granule m.nonFinite, granule m.keyMiss⟩

/-- What is published of the node's registers after a publication of a hub. -/
def pubAfter (s : State) (h : Nat) : Assoc (Reg × Nat × Nat) Nat :=
  s.health.pub.filter (fun p => decide (holderOf s p.1.1.info.blk p.1.2.1 ≠ h)) ++ coarseOf s h

theorem publish_eq (s : State) (h : Nat) : publish s h = modHealth s fun x =>
    { x with pub := pubAfter s h,
             pubM := if nodeHub s = h then x.meters.map fun p => (p.1, meterGranules p.2) else x.pubM } := rfl

theorem agetD_pubAfter_counter {s : State} {h : Nat} {r : Reg} {i e : Nat} (hn : (s.regs.map (·.1)).Nodup)
    (hc : isCounter r = true) (hh : holderOf s r.info.blk i = h) :
    agetD (pubAfter s h) (r, i, e) 0 = agetD s.regs (r, i, e) 0 / 4096 * 4096 := by
  rw [← agetD_coarseOf_counter hn hc hh]
  unfold agetD pubAfter
  rw [aget_append, aget_filter_none fun v => by simp [hh], Option.none_or]

theorem agetD_pubAfter_other {s : State} {h : Nat} {y : Reg × Nat × Nat} (hy : holderOf s y.1.info.blk y.2.1 ≠ h) :
    agetD (pubAfter s h) y 0 = agetD s.health.pub y 0 := by
  unfold agetD pubAfter
  rw [aget_append, aget_coarseOf_other hy, Option.or_none, aget_filter _ _ fun v => by simpa using hy]

theorem aget_meterGranules {l : Assoc Nat Meter} {x : Nat} {m : Meter} (h : aget l x = some m) :
    aget (l.map fun p => (p.1, meterGranules p.2)) x = some (meterGranules m) := by
  rw [aget_map, h]
  rfl

theorem exec_coarsePublish {h : Hub} {s : State} (ha : hubAlive s h = true) : exec (.coarsePublish h) s =
    .next (publish (passTo s h (nextMultiple (now s h) 10000000)) h) := if_neg (by simp [ha])

/-! ## The publication of a second (R363) -/

/-- The values a hub publishes of its dies. -/
def dieVals (s : State) (h : Nat) : Assoc (Reg × Nat) Nat :=
  ((List.range 40).filter fun d => decide (dieHub s d = h)).flatMap fun d =>
    [Reg.mem_die_temp, Reg.mem_stack_temp, Reg.mem_throttle_level].map fun r => ((r, d), (dieVal s r d 0).getD 0)

theorem mem_dieVals {s : State} {h d : Nat} {r : Reg} (hd : d < 40) (hh : dieHub s d = h)
    (hr : r ∈ [Reg.mem_die_temp, Reg.mem_stack_temp, Reg.mem_throttle_level]) :
    ((r, d), (dieVal s r d 0).getD 0) ∈ dieVals s h :=
  List.mem_flatMap.mpr ⟨d, List.mem_filter.mpr ⟨List.mem_range.mpr hd, by simpa using hh⟩, List.mem_map.mpr ⟨r, hr, rfl⟩⟩

theorem of_mem_dieVals {s : State} {h : Nat} {p : (Reg × Nat) × Nat} (hp : p ∈ dieVals s h) :
    p.1.1 ∈ [Reg.mem_die_temp, Reg.mem_stack_temp, Reg.mem_throttle_level] ∧ p.2 = (dieVal s p.1.1 p.1.2 0).getD 0 := by
  obtain ⟨d, -, hm⟩ := List.mem_flatMap.mp hp
  obtain ⟨r, hr, rfl⟩ := List.mem_map.mp hm
  exact ⟨hr, rfl⟩

/-- The average power that the node's hub publishes. -/
def powerAverage (s : State) : Nat := if s.mem.powerN = 0 then s.mem.powerAvg else s.mem.powerSum / s.mem.powerN

/-- What is published of dies and power after a hub's second. -/
def secondAfter (s : State) (h : Nat) : Assoc (Reg × Nat) Nat :=
  let t := (dieVals s h).foldl (fun m v => aset m v.1 v.2) s.health.pubT
  if nodeHub s = h then aset t (.mem_power_avg, 0) (powerAverage s / 5 * 5) else t

theorem publishSecond_eq (s : State) (h : Nat) : publishSecond s h =
    { s with health := { s.health with pubT := secondAfter s h },
             mem := if nodeHub s = h then { s.mem with powerSum := 0, powerN := 0 } else s.mem } := by
  unfold publishSecond secondAfter
  by_cases hh : nodeHub s = h
  · simp only [hh, decide_true, if_true]
    rfl
  · simp only [hh, decide_false, if_false]
    rfl

/-- A value of a die is published as it stands. -/
theorem agetD_secondAfter_die {s : State} {h d : Nat} {r : Reg} (hd : d < 40) (hh : dieHub s d = h)
    (hr : r ∈ [Reg.mem_die_temp, Reg.mem_stack_temp, Reg.mem_throttle_level]) :
    agetD (secondAfter s h) (r, d) 0 = (dieVal s r d 0).getD 0 := by
  have hfold : aget ((dieVals s h).foldl (fun m v => aset m v.1 v.2) s.health.pubT) (r, d) = some ((dieVal s r d 0).getD 0) :=
    aget_foldl_aset_mem _ _ (mem_dieVals hd hh hr) fun p hp e => by rw [(of_mem_dieVals hp).2, e]
  have hne : (r, d) ≠ (Reg.mem_power_avg, 0) := fun e => by
    rw [(Prod.mk.inj e).1] at hr
    exact absurd hr (by decide)
  unfold secondAfter agetD
  dsimp only
  split
  · rw [aget_aset_other hne, hfold]
    rfl
  · rw [hfold]
    rfl

theorem agetD_secondAfter_power (s : State) (h : Nat) : agetD (secondAfter s h) (.mem_power_avg, 0) 0 =
    if nodeHub s = h then powerAverage s / 5 * 5 else agetD s.health.pubT (.mem_power_avg, 0) 0 := by
  unfold secondAfter
  dsimp only
  split
  · exact agetD_aset_same ..
  · unfold agetD
    rw [aget_foldl_aset_other _ _ fun p hp e => by
      have := (of_mem_dieVals hp).1
      rw [e] at this
      exact absurd this (by decide)]

theorem exec_coarsePublishSecond {h : Hub} {s : State} (ha : hubAlive s h = true) : exec (.coarsePublishSecond h) s =
    .next (publishSecond (passTo s h (nextMultiple (now s h) 1000000000)) h) := if_neg (by simp [ha])

/-! ## The obligation -/

/-- Settles O48: a publication replaces what the hub holds (`publish_eq`, `publishSecond_eq`), at the next multiple of its
period (`now_passTo_nextMultiple`). -/
theorem hubsPublishCoarseValues : Obligations.HubsPublishCoarseValues := by
  unfold Obligations.HubsPublishCoarseValues
  refine ⟨fun h s ha => ⟨completes_of_exec (if_pos (by simp [ha])) rfl, completes_of_exec (if_pos (by simp [ha])) rfl⟩,
    fun h s ha => completes_of_exec (exec_coarsePublish ha) ?_, fun h s ha => completes_of_exec (exec_coarsePublishSecond ha) ?_⟩
  · have hnow := now_passTo_nextMultiple s h (n := 10000000) (by decide)
    have hhold := holderOf_passTo s h (nextMultiple (now s h) 10000000)
    have hnode := nodeHub_passTo s h (nextMultiple (now s h) 10000000)
    rw [publish_eq, hnode]
    refine ⟨rfl, rfl, ?_, ?_, ?_, fun g hg => ?_, fun hn r i e hc hr => ?_, fun y hy => ?_, fun hh x m hm => ?_, fun hh => ?_, rfl⟩
    · exact (congrArg (· % 10000000) hnow).trans (nextMultiple_dvd ..)
    · exact (lt_nextMultiple _ (by decide)).trans_eq hnow.symm
    · exact hnow.trans_le (nextMultiple_le ..)
    · exact hubSt_modHub_other s hg fun x => { x with time := max x.time (nextMultiple (now s h) 10000000) }
    · exact agetD_pubAfter_counter (s := passTo s h _) hn hc ((hhold ..).trans hr)
    · exact agetD_pubAfter_other (s := passTo s h _) (fun e => hy ((hhold ..).symm.trans e))
    · refine ⟨meterGranules m, ?_, rfl, rfl, rfl, rfl, rfl, rfl, rfl, rfl, rfl⟩
      rw [modHealth_health, if_pos hh]
      exact aget_meterGranules hm
    · rw [modHealth_health, if_neg hh]
      rfl
  · have hnow := now_passTo_nextMultiple s h (n := 1000000000) (by decide)
    have hnode := nodeHub_passTo s h (nextMultiple (now s h) 1000000000)
    have hdie := fun (d : Nat) (r : Reg) (hd : d < 40) (hh : dieHub s d = h) =>
      agetD_secondAfter_die (s := passTo s h (nextMultiple (now s h) 1000000000)) (r := r) hd hh
    have hpow := agetD_secondAfter_power (passTo s h (nextMultiple (now s h) 1000000000)) h
    rw [hnode] at hpow
    rw [publishSecond_eq, hnode]
    refine ⟨rfl, ?_, rfl, ?_, ?_, ?_, fun d hd hh => ⟨?_, fun hlt => ⟨?_, ?_⟩⟩, fun hh => ⟨?_, ?_, ?_⟩, fun hh => ⟨?_, ?_⟩⟩
    · split <;> rfl
    · exact (congrArg (· % 1000000000) hnow).trans (nextMultiple_dvd ..)
    · exact (lt_nextMultiple _ (by decide)).trans_eq hnow.symm
    · exact hnow.trans_le (nextMultiple_le ..)
    · exact (hdie d _ hd hh (by decide)).trans rfl
    · exact (hdie d _ hd hh (by decide)).trans (if_pos hlt)
    · exact (hdie d _ hd hh (by decide)).trans (if_pos hlt)
    · exact hpow.trans (if_pos hh)
    · rw [if_pos hh]
    · rw [if_pos hh]
    · rw [if_neg hh]
      rfl
    · exact hpow.trans (if_neg hh)

end Sys2Proof.Proofs

namespace Sys2Proof.Proofs
open Sys2Proof.Machine Sys2Proof.Laws

/-!
What one step does (O56): the front command, or, without one, a cycle of the references and the node's own work. Each part of
that work stands still where it finds nothing to do.
-/

/-! ## The clocks (12_ledger.md R268) -/

/-- One cycle of a hub's 25 MHz reference. -/
def tickHub (x : HubSt) : HubSt := if x.up ∧ x.ref25 then { x with time := (x.time + 40) % 2 ^ 64 } else x

theorem tickClocks_eq (s : State) :
    tickClocks s = { s with life := { s.life with hubs := s.life.hubs.map fun p => (p.1, tickHub p.2) } } := by
  unfold tickClocks
  have e : (fun p : Nat × HubSt => (p.1, tickHub p.2)) = fun p => if p.2.up ∧ p.2.ref25 then
      (p.1, { p.2 with time := (p.2.time + 40) % 2 ^ 64 }) else p := by
    funext p
    unfold tickHub
    split <;> rfl
  rw [e]
  rfl

theorem hubSt_tickClocks (s : State) (h : Nat) : hubSt (tickClocks s) h = tickHub (hubSt s h) := by
  rw [tickClocks_eq]
  unfold hubSt agetD
  dsimp only
  rw [aget_map tickHub]
  cases aget s.life.hubs h <;> rfl

/-! ## A step without work (assumptions 2, 27, 182) -/

theorem liveStep_none {s : State} (ho : s.life.op = none) (hm : s.life.moving = []) (hr : s.life.retrainDue = []) :
    liveStep s = s := by
  have hh : hubToMove s = none := by simp [hubToMove, hm]
  unfold liveStep
  rw [ho]
  dsimp only
  unfold nextOp
  rw [hh]
  dsimp only
  unfold nextRetrain
  simp [hr]

theorem rebuildStep_none {s : State} (h : s.chive.rebuild = []) : rebuildStep s = s := by
  unfold rebuildStep
  rw [h]

theorem drainStep_none {s : State} (h : s.life.node ≠ 3) : drainStep s = s := if_neg fun hc => h hc.1

theorem retryReads_none {s : State} (h : s.ledg.reads = []) : retryReads s = s := by
  unfold retryReads
  simp [h]

theorem winStep_none {s : State} (h : s.host.waits = []) : winStep s = s := by
  unfold winStep
  simp [h]

/-! ## Schedulers and pool engines (07_dill.md R146, R147, R171) -/

theorem issueHeld_none {s : State} {k : Nat} (h : NoScans s k) : issueHeld s k = s := by
  have hf : (s.merge.held.filter fun p => decide (p.die = k) && p.slot.isNone) = [] :=
    List.filter_eq_nil_iff.mpr fun p hp => by simp [h p hp]
  unfold issueHeld
  rw [hf]
  rfl

/-- A lane engine whose segment runs takes no command. -/
theorem scheduleN_segment {n : Nat} {s : State} {k : Nat} (h : (dillOf s k).segment = true) : scheduleN (n + 1) s k = s :=
  if_pos (Or.inl h)

theorem pickLane_none {s : State} {k : Nat}
    (h : ∀ p ∈ (dillOf s k).slots, p.2.state ≠ .queued ∧ p.2.state ≠ .running ∧ p.2.state ≠ .yielded) : pickLane s k = none := by
  have hf : (dillOf s k).slots.filter (laneReady s k (dillOf s k)) = [] :=
    List.filter_eq_nil_iff.mpr fun p hp => by
      obtain ⟨hq, hr, hy⟩ := h p hp
      simp [laneReady, hq, hr, hy]
  unfold pickLane
  dsimp only
  rw [hf]
  exact (if_neg fun hc => by cases hc.2).trans rfl

/-- Where no command waits none is taken. -/
theorem scheduleN_none {n : Nat} {s : State} {k : Nat} (h : pickLane s k = none) : scheduleN (n + 1) s k = s := by
  unfold scheduleN
  rw [h]
  exact ite_self _

theorem poolNext_none {s : State} {k : Nat} (hp : (dillOf s k).pool = none)
    (h : ∀ p ∈ (dillOf s k).slots, p.2.kind = 1 → p.2.state ≠ .queued) : poolNext s k = s := by
  have hf : ((dillOf s k).slots.filter fun p => decide (p.2.kind = 1) && decide (p.2.state = .queued)) = [] :=
    List.filter_eq_nil_iff.mpr fun p hm => by simpa using h p hm
  unfold poolNext
  rw [hf, if_neg (by simp [hp])]
  rfl

/-! ## Lane engines (07_dill.md R142, R148) -/

/-- An engine that holds no command, and whose slice holds no scan, stands still. -/
theorem engineStep_none {s : State} {k : Slice} (hs : NoScans s k) (hseg : (dillOf s k).segment = false)
    (hp : (dillOf s k).pool = none)
    (h : ∀ p ∈ (dillOf s k).slots, p.2.state ≠ .queued ∧ p.2.state ≠ .running ∧ p.2.state ≠ .yielded) : engineStep s k = s := by
  have hnext : poolNext (schedule s k.val) k.val = s := by
    unfold schedule
    rw [issueHeld_none hs, scheduleN_none (pickLane_none h)]
    exact poolNext_none hp fun p hm _ => (h p hm).1
  have hfetch : fetched s k.val = none := by simp [fetched, hseg]
  unfold engineStep
  rw [hnext, ite_self]
  dsimp only
  rw [hfetch]
  rfl

theorem engines_none {s : State} (h : ∀ k : Slice, engineStep s k = s) : engines s = s := by
  unfold engines
  generalize List.finRange 32 = l
  induction l with
  | nil => rfl
  | cons k l ih => rw [List.foldl_cons, h k, ih]

/-- On a node with no work of its own a step without a command is one cycle of every reference. -/
theorem idle_nothingToDo {s : State} (h : NothingToDo s) : idle s = tickClocks s := by
  obtain ⟨hop, hmove, hretrain, hrebuild, hnode, hreads, hwaits, hheld, heng⟩ := h
  have hlife : (tickClocks s).life.op = none ∧ (tickClocks s).life.moving = [] ∧ (tickClocks s).life.retrainDue = [] ∧
      (tickClocks s).life.node ≠ 3 := ⟨hop, hmove, hretrain, hnode⟩
  obtain ⟨ho, hm, hr, hn⟩ := hlife
  unfold idle
  rw [liveStep_none ho hm hr, rebuildStep_none (s := tickClocks s) hrebuild, drainStep_none hn,
    retryReads_none (s := tickClocks s) hreads, winStep_none (s := tickClocks s) hwaits]
  refine engines_none fun k => ?_
  obtain ⟨hseg, hpool, hslots⟩ := heng k k.isLt
  exact engineStep_none (fun p hp => by rw [show (tickClocks s).merge.held = [] from hheld] at hp; cases hp) hseg hpool hslots

/-- A lane engine whose segment runs does what the command of the stored instruction it is at does. -/
theorem engineStep_runs {k : Slice} {i w : Nat} {p : Prog} {f : State → Next} {s u t : State}
    (he : (aget s.dill.eng k.val).isSome = true) (hu : u = poolNext (schedule s k.val) k.val)
    (hseg : (dillOf u k.val).segment = true) (hcur : (dillOf u k.val).cur = some i)
    (hp : aget u.dill.progs (cmdOf (dillOf u k.val) i).program = some p) (hpc : (dillOf u k.val).pc < p.len)
    (hw : aget u.dill.store (p.start + (dillOf u k.val).pc) = some w) (hf : wordRun k w = some f) (ht : f u = .next t) :
    engineStep s k = t := by
  have hfetch : fetched u k.val = some w := by simp [fetched, hcur, hp, hseg, hpc, hw]
  unfold engineStep
  rw [if_pos (Or.inl he), ← hu]
  dsimp only
  rw [hfetch, Option.bind_some, hf]
  dsimp only
  rw [ht]

/-! ## The obligation -/

/-- Settles O56: a step is exec of the front command, or `idle`, which on a node without work is the cycle of the references
(assumptions 2, 27 and 182). -/
theorem stepRunsTheFrontCommand : Obligations.StepRunsTheFrontCommand := by
  unfold Obligations.StepRunsTheFrontCommand
  refine ⟨fun c rest s h => step_command h, fun s h hn => ⟨tickClocks s, ?_, rfl, rfl, fun h => ?_⟩,
    fun k i w p f s u t he hu hseg hcur hp hpc hw hf ht => engineStep_runs he hu hseg hcur hp hpc hw hf ht,
    fun k s hseg hs hp hq => ?_, fun k w h => if_pos (by simp [h]), fun k => ⟨rfl, rfl, rfl, rfl⟩⟩
  · rw [step_idle h, idle_nothingToDo hn]
  · unfold now
    rw [hubSt_tickClocks]
    unfold tickHub
    split <;> rfl
  · unfold schedule
    rw [issueHeld_none hs, scheduleN_segment hseg]
    exact poolNext_none hp hq

end Sys2Proof.Proofs

namespace Sys2Proof.Proofs
open Sys2Proof.Machine Sys2Proof.Laws

/-!
What answers leave of the trust block. An answer that goes out on a connection is unacknowledged, so it pins the connection:
answering ends no connection, and with it no operator session (10_fabric.md R236, R245).
-/

theorem segments_ne_nil (n size : Nat) (b : List Byte) : segments (n + 1) size b ≠ [] := by
  unfold segments
  split <;> exact List.cons_ne_nil _ _

/-- What a connection hands to egress stays in its send ring. -/
theorem pump_ring {s : State} {id : Nat} {c : Conn} (h : connOf s id = some c) :
    ∃ c', connOf (pump s id) id = some c' ∧ c'.ring.length = c.ring.length := by
  unfold pump
  rw [h]
  dsimp only
  split
  · exact ⟨c, h, rfl⟩
  · generalize takeFit (sendUnits - sendUsed s c.hub) (c.ring.filter fun g => ! g.queued && ! g.sent && inCredit c g.seq) = ready
    generalize he : ready.foldl (fun s g => toEgress s c.hub id c.peerAddr g.frame) s = u
    have hfab : u.fab = s.fab := he ▸ foldl_part (·.fab) (fun s (g : SentSeg) => toEgress_fab s c.hub id c.peerAddr g.frame) ready s
    have hu : connOf u id = some c := (connOf_congr hfab id).trans h
    exact ⟨_, (connOf_modConn_same u id _).trans (congrArg (Option.map _) hu), by simp⟩

/-- A message that is sent stands in the send ring. -/
theorem sendMsg_ring {s : State} {id : Nat} {c : Conn} (h : connOf s id = some c) (op : Opcode) (flags replyTo cls hint : Nat)
    (payload : List Byte) : ∃ c', connOf (sendMsg s id op flags replyTo cls hint payload).1 id = some c' ∧ c'.ring ≠ [] := by
  unfold sendMsg
  rw [h]
  dsimp only
  obtain ⟨c', hc, hl⟩ := pump_ring ((connOf_modConn_same s id _).trans (congrArg (Option.map _) h))
  refine ⟨c', hc, fun e => ?_⟩
  have hn := segments_ne_nil (payload.length / 1024) (segSize c) payload
  simp only [e, List.length_nil, List.length_append, List.length_map, List.length_range] at hl
  exact hn (List.length_eq_zero_iff.mp (by omega))

/-- A connection that has just sent a message does not end. -/
theorem settleConn_sendMsg (s : State) (id : Nat) (op : Opcode) (flags replyTo cls hint : Nat) (payload : List Byte) :
    settleConn (sendMsg s id op flags replyTo cls hint payload).1 id = (sendMsg s id op flags replyTo cls hint payload).1 := by
  unfold settleConn
  cases h : connOf s id with
  | none =>
    have he : (sendMsg s id op flags replyTo cls hint payload).1 = s := by
      unfold sendMsg
      rw [h]
    rw [he, h]
  | some c =>
    obtain ⟨c', hc, hr⟩ := sendMsg_ring h op flags replyTo cls hint payload
    rw [hc]
    refine if_neg fun hx => ?_
    simp [pinned, hr] at hx

/-- An answer leaves the trust block, the sessions with it. -/
@[simp] theorem answer_trust (s : State) (id : Nat) (op : Opcode) (st : Status) (hint : Nat) (payload : List Byte) :
    (answer s id op st hint payload).trust = s.trust := by
  unfold answer
  split
  · rfl
  split
  · dsimp only
    split
    · simp
    split
    · simp
    · rw [settleConn_sendMsg]
      simp
  · simp
  · rfl

@[simp] theorem mgmtAnswer_trust (s : State) (id : Nat) (m : Msg) (st : Status) (body : List Byte) :
    (mgmtAnswer s id m st body).trust = s.trust := answer_trust ..

/-- A sealed answer counts in its session alone. -/
theorem sealedAnswer_trust (s : State) (id : Nat) (m : Msg) (sid : Nat) (st : Status) (body : List Byte) :
    (sealedAnswer s id m sid st body).trust = { s.trust with sessions := (sealedAnswer s id m sid st body).trust.sessions } := by
  unfold sealedAnswer
  split
  · rw [mgmtAnswer_trust]
  · rw [answer_trust]
    rfl

end Sys2Proof.Proofs

namespace Sys2Proof.Proofs
open Sys2Proof.Machine Sys2Proof.Laws

/-!
The election of a primary (O42, 15_trust.md R342, R344). A change of one Lovage leaves the others; a step-down leaves every
Lovage but the role of the one that steps down. The times of beacons and candidacies are not stored, and a wait runs from
the command (assumptions 3 and 107).
-/

/-! ## One Lovage -/

@[simp] theorem lovOf_modLov_same (s : State) (h : Nat) (f : Lovage → Lovage) : lovOf (modLov s h f) h = f (lovOf s h) :=
  agetD_aset_same ..

theorem lovOf_modLov_other (s : State) {h j : Nat} (e : j ≠ h) (f : Lovage → Lovage) : lovOf (modLov s h f) j = lovOf s j :=
  agetD_aset_other _ e ..

theorem lovOf_congr {s t : State} (h : t.trust = s.trust) : lovOf t = lovOf s := by
  funext q
  rw [lovOf, h, lovOf]

theorem modLov_others (s : State) (h : Nat) (f : Lovage → Lovage) : OtherLovages s (modLov s h f) h :=
  fun _ e => lovOf_modLov_other s e f

theorem otherLovages_trans {s t u : State} {h : Nat} (f : OtherLovages s t h) (g : OtherLovages t u h) : OtherLovages s u h :=
  fun j e => (g j e).trans (f j e)

theorem otherLovages_of_lov {s t : State} (h : Nat) (e : lovOf t = lovOf s) : OtherLovages s t h := fun j _ => congrFun e j

/-! ## A primary steps down (R343) -/

/-- What the end of a primary leaves: the Lovages, memory, the fuses, and what of the life block the election reads. -/
structure Steps (s t : State) : Prop where
  mem   : t.mem = s.mem
  lov   : t.trust.lov = s.trust.lov
  fuses : t.trust.fuses = s.trust.fuses
  hubs  : t.life.hubs = s.life.hubs
  dieFw : t.life.dieFw = s.life.dieFw

theorem Steps.trans {s t u : State} (f : Steps s t) (g : Steps t u) : Steps s u :=
  ⟨g.mem.trans f.mem, g.lov.trans f.lov, g.fuses.trans f.fuses, g.hubs.trans f.hubs, g.dieFw.trans f.dieFw⟩

theorem Steps.lovOf_eq {s t : State} (f : Steps s t) : lovOf t = lovOf s := by
  funext q
  rw [lovOf, f.lov, lovOf]

theorem mgmtAnswer_steps (s : State) (id : Nat) (m : Msg) (st : Status) (body : List Byte) :
    Steps s (mgmtAnswer s id m st body) := ⟨by simp, by simp, by simp, by simp, by simp⟩

theorem foldl_steps {α : Type} {f : State → α → State} (hf : ∀ s x, Steps s (f s x)) (l : List α) (s : State) :
    Steps s (l.foldl f s) := by
  induction l generalizing s with
  | nil => exact ⟨rfl, rfl, rfl, rfl, rfl⟩
  | cons x l ih => exact (hf s x).trans (ih _)

theorem primaryGone_steps (s : State) : Steps s (primaryGone s) := by
  unfold primaryGone
  extract_lets s1 ids s2
  have h2 : Steps s s2 := Steps.trans (t := s1) ⟨rfl, rfl, rfl, rfl, rfl⟩ (foldl_steps (fun u id => by
    split
    · exact mgmtAnswer_steps ..
    · exact ⟨rfl, rfl, rfl, rfl, rfl⟩) ids s1)
  clear_value s2
  split
  · split
    · exact h2
    · exact h2.trans ⟨rfl, rfl, rfl, rfl, rfl⟩
  · exact h2

/-- A Lovage that is not primary has no role to give up. -/
theorem stepDown_none {s : State} {h : Nat} (e : (lovOf s h).isPrimary = false) : stepDown s h = s := if_neg (by simp [e])

/-- One that is gives it up, and with it what it knew of a primary. -/
theorem stepDown_lov (s : State) (h : Nat) : ∃ p, lovOf (stepDown s h) h = { lovOf s h with isPrimary := false, primary := p } ∧
    OtherLovages s (stepDown s h) h := by
  unfold stepDown
  split
  · have hp := (primaryGone_steps (modLov s h fun x => { x with isPrimary := false, primary := none })).lovOf_eq
    exact ⟨none, by rw [hp, lovOf_modLov_same], otherLovages_trans (modLov_others s h _) (otherLovages_of_lov h hp)⟩
  · next e =>
    refine ⟨(lovOf s h).primary, ?_, fun _ _ => rfl⟩
    generalize lovOf s h = x at e
    cases x
    simp_all

theorem stepDown_rest (s : State) (h : Nat) : (stepDown s h).mem = s.mem ∧ (stepDown s h).trust.fuses = s.trust.fuses ∧
    (stepDown s h).life.hubs = s.life.hubs ∧ (stepDown s h).life.dieFw = s.life.dieFw := by
  unfold stepDown
  split
  · have hp := primaryGone_steps (modLov s h fun x => { x with isPrimary := false, primary := none })
    exact ⟨hp.mem, hp.fuses, hp.hubs, hp.dieFw⟩
  · exact ⟨rfl, rfl, rfl, rfl⟩

/-! ## Standing as a candidate -/

/-- A Lovage that has stood as candidate of the next term. -/
def stood (h : Nat) (x : Lovage) : Lovage :=
  { x with term := nextTerm x.term, primary := none, standing := true, votes := [], cands := [h], waiting := true, backoff := false }

theorem stand_eq (s : State) (h : Nat) : stand s h = emit (bump (modLov (stepDown s h) h (stood h)) .lov_ELECTIONS h)
    (.lov 1 h 8 (lovOf (bump (modLov (stepDown s h) h (stood h)) .lov_ELECTIONS h) h).term) := rfl

theorem lovOf_stand_eq (s : State) (h : Nat) : lovOf (stand s h) = lovOf (modLov (stepDown s h) h (stood h)) := by
  rw [stand_eq]
  exact lovOf_congr (by simp)

theorem lovOf_stand (s : State) (h : Nat) : ∃ p, lovOf (stand s h) h =
    stood h { lovOf s h with isPrimary := false, primary := p } := by
  obtain ⟨p, hp, -⟩ := stepDown_lov s h
  exact ⟨p, by rw [lovOf_stand_eq, lovOf_modLov_same, hp]⟩

theorem stand_others (s : State) (h : Nat) : OtherLovages s (stand s h) h := by
  obtain ⟨-, -, ho⟩ := stepDown_lov s h
  exact otherLovages_trans (otherLovages_trans ho (modLov_others _ h (stood h))) (otherLovages_of_lov h (lovOf_stand_eq s h))

theorem stand_rest (s : State) (h : Nat) : (stand s h).mem = s.mem ∧ (stand s h).trust.fuses = s.trust.fuses ∧
    (stand s h).life.hubs = s.life.hubs ∧ (stand s h).life.dieFw = s.life.dieFw := by
  obtain ⟨hm, hf, hh, hd⟩ := stepDown_rest s h
  rw [stand_eq]
  exact ⟨by simpa [modLov] using hm, by simpa [modLov] using hf, by simpa [modLov] using hh, by simpa [modLov] using hd⟩

/-- A Lovage that is not primary stands: the next term, its own candidacy, a CANDIDATE sent, the election counted. -/
theorem stand_stands {s : State} {h : Nat} (e : (lovOf s h).isPrimary = false) : Stands s (stand s h) h := by
  have hl : lovOf (bump (modLov s h (stood h)) .lov_ELECTIONS h) h = stood h (lovOf s h) := by
    rw [lovOf_congr (by simp : (bump (modLov s h (stood h)) .lov_ELECTIONS h).trust = (modLov s h (stood h)).trust),
      lovOf_modLov_same]
  have hs : stand s h = emit (bump (modLov s h (stood h)) .lov_ELECTIONS h) (.lov 1 h 8 (stood h (lovOf s h)).term) := by
    rw [stand_eq, stepDown_none e, hl]
  have hlov : lovOf (stand s h) h = stood h (lovOf s h) := by
    rw [hs]
    exact hl
  refine ⟨by rw [hlov]; rfl, by rw [hlov]; rfl, by rw [hlov]; rfl, by rw [hlov]; rfl, by rw [hlov]; rfl, by rw [hlov]; rfl,
    by rw [hlov]; rfl, ?_, ?_⟩
  · rw [hs]
    exact congrArg (· ++ _) (bump_out ..)
  · rw [hs]
    exact (rget_bump_same ..).trans rfl

/-- Time passes at a hub, and its Lovage stands. -/
theorem stand_passTo {s : State} {h d : Nat} (e : (lovOf s h).isPrimary = false) :
    now (stand (passTo s h (now s h + d)) h) h = now s h + d ∧ Stands s (stand (passTo s h (now s h + d)) h) h ∧
      OtherLovages s (stand (passTo s h (now s h + d)) h) h ∧ (stand (passTo s h (now s h + d)) h).mem = s.mem := by
  obtain ⟨hm, -, hh, -⟩ := stand_rest (passTo s h (now s h + d)) h
  refine ⟨?_, stand_stands (s := passTo s h (now s h + d)) e, stand_others (passTo s h (now s h + d)) h, hm⟩
  have ht : now (stand (passTo s h (now s h + d)) h) h = now (passTo s h (now s h + d)) h := by
    exact congrArg HubSt.time (hubSt_congr hh h)
  rw [ht, now_passTo]
  omega

/-! ## Terms -/

theorem onTerm_discards {s : State} {h term : Nat} (e : lovRuns s h = false ∨ term < (lovOf s h).term) (f : State → State) :
    onTerm s h term f = s := if_pos (by rcases e with e | e <;> simp [e])

theorem onTerm_runs {s : State} {h term : Nat} (hr : lovRuns s h = true) (e : (lovOf s h).term ≤ term) (f : State → State) :
    onTerm s h term f = f (adoptTerm s h term) := if_neg (by simp [hr, Nat.not_lt.mpr e])

theorem adoptTerm_same {s : State} {h term : Nat} (e : (lovOf s h).term = term) : adoptTerm s h term = s :=
  if_neg (by omega)

/-- A Lovage that has adopted a newer term. -/
def adopted (term : Nat) (x : Lovage) : Lovage :=
  { x with term := term, isPrimary := false, primary := none, standing := false, votes := [], cands := [], waiting := false,
           backoff := false }

theorem adoptTerm_newer {s : State} {h term : Nat} (e : (lovOf s h).term < term) :
    lovOf (adoptTerm s h term) h = adopted term (lovOf s h) ∧ OtherLovages s (adoptTerm s h term) h ∧
      (adoptTerm s h term).mem = s.mem := by
  obtain ⟨p, hp, ho⟩ := stepDown_lov s h
  obtain ⟨hm, -⟩ := stepDown_rest s h
  unfold adoptTerm
  rw [if_pos e]
  exact ⟨by rw [lovOf_modLov_same, hp]; rfl, otherLovages_trans ho (modLov_others _ h _), hm⟩

/-! ## Votes -/

theorem settleVotes_wait {s : State} {h : Nat} (e : (lovOf s h).votes.length < 5) : settleVotes s h = s :=
  if_neg fun hc => absurd hc.2 (by omega)

/-- A candidate with five votes is primary, says so, and journals it. -/
theorem settleVotes_won {s : State} {h : Nat} (hs : (lovOf s h).standing = true) (e : 5 ≤ (lovOf s h).votes.length) :
    lovOf (settleVotes s h) h = { lovOf s h with isPrimary := true, primary := some h, standing := false } ∧
      OtherLovages s (settleVotes s h) h ∧ (settleVotes s h).mem = s.mem ∧ (settleVotes s h).life = s.life ∧
      (settleVotes s h).out = s.out ++ [.lov 3 h 8 (lovOf s h).term] := by
  have he : settleVotes s h = emit (journal (modLov s h fun y => { y with isPrimary := true, primary := some h, standing := false })
      h 0x07 (leBytes 4 (lovOf s h).term ++ leBytes 1 h)) (.lov 3 h 8 (lovOf s h).term) := if_pos ⟨hs, e⟩
  have hl : lovOf (settleVotes s h) =
      lovOf (modLov s h fun y => { y with isPrimary := true, primary := some h, standing := false }) := by
    rw [he]
    exact lovOf_congr (by simp)
  refine ⟨by rw [hl, lovOf_modLov_same], otherLovages_trans (modLov_others s h _) (otherLovages_of_lov h hl), ?_, ?_, ?_⟩
  · rw [he]; simp [modLov]
  · rw [he]; simp [modLov]
  · rw [he]; simp [emit, modLov]

/-- Whether or not the votes suffice, they stand, and neither another Lovage nor memory changes. -/
theorem settleVotes_keeps_votes (s : State) (h : Nat) : OtherLovages s (settleVotes s h) h ∧ (settleVotes s h).mem = s.mem ∧
    (settleVotes s h).life = s.life ∧ (lovOf (settleVotes s h) h).votes = (lovOf s h).votes ∧
    (lovOf (settleVotes s h) h).term = (lovOf s h).term ∧ (lovOf (settleVotes s h) h).voted = (lovOf s h).voted ∧
    (lovOf (settleVotes s h) h).waiting = (lovOf s h).waiting := by
  by_cases hc : (lovOf s h).standing = true ∧ 5 ≤ (lovOf s h).votes.length
  · obtain ⟨hl, ho, hm, hlife, -⟩ := settleVotes_won hc.1 hc.2
    exact ⟨ho, hm, hlife, by rw [hl], by rw [hl], by rw [hl], by rw [hl]⟩
  · have he : settleVotes s h = s := if_neg hc
    rw [he]
    exact ⟨fun _ _ => rfl, rfl, rfl, rfl, rfl, rfl, rfl⟩

/-! ## Messages -/

/-- A Lovage that holds one more candidacy. -/
def candidacy (c : Nat) (x : Lovage) : Lovage :=
  { x with cands := if x.cands.contains c then x.cands else x.cands ++ [c],
           waiting := x.waiting || (x.cands.isEmpty && decide (x.voted ≠ x.term)) }

/-- A Lovage that holds one more vote. -/
def votedFor (c : Nat) (x : Lovage) : Lovage := { x with votes := if x.votes.contains c then x.votes else x.votes ++ [c] }

/-- A Lovage that has heard its primary. -/
def heard (c : Nat) (x : Lovage) : Lovage :=
  { x with primary := some c, standing := false, waiting := false, backoff := false, votes := [] }

def onVote (h c : Nat) (s : State) : State :=
  if (lovOf s h).standing then settleVotes (modLov s h (votedFor c)) h else s

def onBeacon (h c : Nat) (s : State) : State := if (lovOf s h).isPrimary then s else modLov s h (heard c)

theorem exec_candidate (h c : Hub) (term : Nat) (s : State) : exec (.candidate h c term) s =
    .next (onTerm s h (term % 2 ^ 32) fun s => modLov s h (candidacy c)) := rfl

theorem exec_vote (h c : Hub) (term : Nat) (s : State) : exec (.vote h c term) s =
    .next (onTerm s h (term % 2 ^ 32) (onVote h c)) := rfl

theorem exec_beacon (h c : Hub) (term : Nat) (s : State) : exec (.beacon h c term) s =
    .next (onTerm s h (term % 2 ^ 32) (onBeacon h c)) := rfl

/-! ## The wait to vote -/

/-- The state in which a Lovage gives its vote: its wait is over. -/
def waitOver (s : State) (h : Nat) : State :=
  modLov (passTo s h (now s h + 100000)) h fun y => { y with waiting := false }

def noteVote (s : State) (h : Nat) : State := modLov s h fun y => { y with voted := y.term }

/-- A Lovage votes for itself. -/
def voteOwn (s : State) (h : Nat) : State :=
  modLov s h fun y => { y with votes := if y.votes.contains h then y.votes else y.votes ++ [h] }

theorem lovOf_waitOver (s : State) (h : Nat) : lovOf (waitOver s h) h = { lovOf s h with waiting := false } :=
  lovOf_modLov_same ..

theorem waitOver_others (s : State) (h : Nat) : OtherLovages s (waitOver s h) h :=
  fun _ e => lovOf_modLov_other (passTo s h (now s h + 100000)) e _

theorem now_waitOver (s : State) (h : Nat) : now (waitOver s h) h = now s h + 100000 :=
  (now_passTo s h (now s h + 100000)).trans (by omega)

theorem booted_waitOver (s : State) (h c : Nat) : (lovOf (waitOver s h) c).booted = (lovOf s c).booted := by
  by_cases e : c = h
  · rw [e, lovOf_waitOver]
  · rw [waitOver_others s h c e]

theorem exec_voteWaitExpiry {s : State} {h : Hub} (hr : lovRuns s h = true) (hw : (lovOf s h).waiting = true) :
    exec (.voteWaitExpiry h) s = match ((lovOf s h).cands.filter fun c => (lovOf s c).booted).min? with
      | none => .next (waitOver s h)
      | some c =>
        if (lovOf s h).voted = (lovOf s h).term then .next (waitOver s h)
        else if c = h.val then .next (settleVotes (voteOwn (noteVote (waitOver s h) h) h) h)
        else .next (emit (noteVote (waitOver s h) h) (.lov 2 h c (lovOf s h).term)) := by
  have hb : (fun c => (lovOf (waitOver s h) c).booted) = fun c => (lovOf s c).booted := funext (booted_waitOver s h)
  rw [← hb]
  dsimp only [exec]
  unfold execVoteWaitExpiry
  dsimp only
  rw [if_neg (by simp [hr, hw])]
  rfl

theorem lovOf_noteVote_waitOver (s : State) (h : Nat) : lovOf (noteVote (waitOver s h) h) h =
    { lovOf s h with waiting := false, voted := (lovOf s h).term } := by
  rw [noteVote, lovOf_modLov_same, lovOf_waitOver]

theorem noteVote_others (s : State) (h : Nat) : OtherLovages s (noteVote (waitOver s h) h) h :=
  otherLovages_trans (waitOver_others s h) (modLov_others _ h _)

/-- The votes of a Lovage that has voted for itself hold its own. -/
theorem mem_voteOwn (s : State) (h : Nat) : h ∈ (lovOf (voteOwn s h) h).votes := by
  rw [voteOwn, lovOf_modLov_same]
  dsimp only
  split
  · next hc => exact List.contains_iff_mem.mp hc
  · exact List.mem_append_right _ (List.mem_singleton.mpr rfl)

/-! ## Measured boot (R344, R345) -/

/-- The state of a node whose Lovage h has booted from slot k. -/
def bootedFrom (s : State) (h k : Nat) : State :=
  unwrapPsk (modLov (modLife s fun l => { l with dieFw := aset l.dieFw (40 + h) k, moving := adel l.moving (40 + h) }) h
    fun _ => derive s h k) h

theorem unwrapPsk_rest (s : State) (h : Nat) : lovOf (unwrapPsk s h) = lovOf s ∧
    (unwrapPsk s h).trust.fuses = s.trust.fuses ∧ unwrapPsk s h = { s with trust := (unwrapPsk s h).trust } := by
  unfold unwrapPsk
  split <;> exact ⟨rfl, rfl, rfl⟩

theorem lovOf_bootedFrom (s : State) (h k : Nat) : lovOf (bootedFrom s h k) h = derive s h k := by
  rw [bootedFrom, (unwrapPsk_rest _ h).1, lovOf_modLov_same]

theorem bootedFrom_others (s : State) (h k : Nat) : OtherLovages s (bootedFrom s h k) h := by
  intro j e
  rw [bootedFrom, (unwrapPsk_rest _ h).1, lovOf_modLov_other _ e]
  rfl

theorem bootedFrom_rest (s : State) (h k : Nat) : (bootedFrom s h k).mem = s.mem ∧ (bootedFrom s h k).trust.fuses = s.trust.fuses ∧
    (bootedFrom s h k).out = s.out ∧ (bootedFrom s h k).regs = s.regs ∧
    agetD (bootedFrom s h k).life.dieFw (40 + h) 0 = k := by
  obtain ⟨-, hf, he⟩ := unwrapPsk_rest
    (modLov (modLife s fun l => { l with dieFw := aset l.dieFw (40 + h) k, moving := adel l.moving (40 + h) }) h
      fun _ => derive s h k) h
  refine ⟨?_, hf, ?_, ?_, ?_⟩
  · rw [bootedFrom, he]; rfl
  · rw [bootedFrom, he]; rfl
  · rw [bootedFrom, he]; rfl
  · rw [bootedFrom, he]
    exact agetD_aset_same ..

theorem exec_measuredBoot {s : State} {h : Hub} {k : Nat} (ha : hubAlive s h = true) (hb : (lovOf s h).booted = false)
    (hk : bootSlot s h = some k) : exec (.lovageMeasuredBoot h) s =
      .next (if (derive s h k).primary.isNone then stand (bootedFrom s h k) h else bootedFrom s h k) := by
  rw [← lovOf_bootedFrom]
  dsimp only [exec]
  unfold execLovageMeasuredBoot
  dsimp only
  rw [if_neg (by simp [ha, hb]), hk]
  rfl

/-- The end of the wait: no vote without a candidate that booted or in a term that has one; else the lowest gets it. -/
theorem voteWaitExpiry_votes {h : Hub} {x : Lovage} {s : State} (hx : x = lovOf s h) (hr : lovRuns s h = true)
    (hw : x.waiting = true) : Completes (.voteWaitExpiry h) s fun t => OtherLovages s t h ∧ t.mem = s.mem ∧
      now t h = now s h + 100000 ∧ (lovOf t h).waiting = false ∧ (lovOf t h).term = x.term ∧
      ((x.cands.filter fun c => (lovOf s c).booted) = [] → (lovOf t h).voted = x.voted ∧ t.out = s.out) ∧
      (x.voted = x.term → (lovOf t h).votes = x.votes ∧ t.out = s.out) ∧
      (∀ c, (x.cands.filter fun c => (lovOf s c).booted).min? = some c → x.voted ≠ x.term → (lovOf t h).voted = x.term ∧
        (c ≠ (h : Nat) → t.out = s.out ++ [.lov 2 h c x.term] ∧ (lovOf t h).votes = x.votes) ∧
        (c = (h : Nat) → (h : Nat) ∈ (lovOf t h).votes)) := by
  subst hx
  have he := exec_voteWaitExpiry hr hw
  cases hmin : ((lovOf s h).cands.filter fun c => (lovOf s c).booted).min? with
  | none =>
    rw [hmin] at he
    refine completes_of_exec he ⟨waitOver_others s h, rfl, now_waitOver s h, ?_⟩
    rw [lovOf_waitOver]
    exact ⟨rfl, rfl, fun _ => ⟨rfl, rfl⟩, fun _ => ⟨rfl, rfl⟩, fun c hc => by cases hc⟩
  | some c =>
    rw [hmin] at he
    have hne : ((lovOf s h).cands.filter fun c => (lovOf s c).booted) ≠ [] := fun e => by simp [e] at hmin
    by_cases hvoted : (lovOf s h).voted = (lovOf s h).term
    · refine completes_of_exec (he.trans (if_pos hvoted)) ⟨waitOver_others s h, rfl, now_waitOver s h, ?_⟩
      rw [lovOf_waitOver]
      exact ⟨rfl, rfl, fun e => absurd e hne, fun _ => ⟨rfl, rfl⟩, fun c _ e => absurd hvoted e⟩
    · have he := he.trans (if_neg hvoted)
      by_cases hc : c = h.val
      · have hl := lovOf_noteVote_waitOver s h
        obtain ⟨ho, hm, hlife, hvotes, hterm, hvote, hwait⟩ := settleVotes_keeps_votes (voteOwn (noteVote (waitOver s h) h) h) h
        have hown : lovOf (voteOwn (noteVote (waitOver s h) h) h) h =
            { lovOf (noteVote (waitOver s h) h) h with votes := (lovOf (voteOwn (noteVote (waitOver s h) h) h) h).votes } := by
          rw [voteOwn, lovOf_modLov_same]
        refine completes_of_exec (he.trans (if_pos hc)) ⟨?_, hm, ?_, ?_, ?_, fun e => absurd e hne,
          fun e => absurd e hvoted, fun c' hc' _ => ⟨?_, fun e => ?_, fun _ => ?_⟩⟩
        · exact otherLovages_trans (otherLovages_trans (noteVote_others s h) (modLov_others _ h _)) ho
        · exact (congrArg HubSt.time (hubSt_congr (congrArg LifeSt.hubs hlife) h)).trans (now_waitOver s h)
        · rw [hwait, hown, hl]
        · rw [hterm, hown, hl]
        · rw [hvote, hown, hl]
        · exact absurd ((Option.some.inj hc').symm.trans hc) e
        · rw [hvotes]
          exact mem_voteOwn ..
      · have hl : lovOf (emit (noteVote (waitOver s h) h) (.lov 2 h c (lovOf s h).term)) h = _ := lovOf_noteVote_waitOver s h
        refine completes_of_exec (he.trans (if_neg hc)) ⟨noteVote_others s h, rfl, now_waitOver s h, ?_, ?_,
          fun e => absurd e hne, fun e => absurd e hvoted, fun c' hc' _ => ⟨?_, fun _ => ⟨?_, ?_⟩, fun e => ?_⟩⟩
        · rw [hl]
        · rw [hl]
        · rw [hl]
        · rw [← Option.some.inj hc']
          rfl
        · rw [hl]
        · exact absurd ((Option.some.inj hc').trans e) hc

/-- A Lovage that does not run boots from the slot that passes, and stands where it knows no primary. -/
theorem lovageMeasuredBoot_boots (h : Hub) (s : State) : Completes (.lovageMeasuredBoot h) s fun t =>
    OtherLovages s t h ∧ t.mem = s.mem ∧
      ((hubAlive s h = false ∨ (lovOf s h).booted = true ∨ bootSlot s h = none) → t = s) ∧
      (∀ k, hubAlive s h = true → (lovOf s h).booted = false → bootSlot s h = some k →
        (lovOf t h).booted = true ∧ agetD t.life.dieFw (40 + h) 0 = k ∧ t.trust.fuses = s.trust.fuses ∧
        (lovOf t h).keyUnit = [] ∧ (lovOf t h).svn = (agetD s.life.bundles k default).svn ∧
        (lovOf t h).lfw = takeBytes (Config.imageDigest (agetD s.life.bundles k default).digest 2) 0 64 ∧
        ((lovOf s h).primary.isSome = true → lovOf t h = derive s h k) ∧
        ((lovOf s h).primary = none → (lovOf s h).isPrimary = false → Stands s t h)) := by
  by_cases hstay : hubAlive s h = false ∨ (lovOf s h).booted = true ∨ bootSlot s h = none
  · have he : exec (.lovageMeasuredBoot h) s = .next s := by
      dsimp only [exec]
      unfold execLovageMeasuredBoot
      dsimp only
      split
      · rfl
      · next hrun =>
        have hnone : bootSlot s h = none := by
          rcases hstay with e | e | e
          · exact absurd (Or.inl (by simp [e])) hrun
          · exact absurd (Or.inr e) hrun
          · exact e
        rw [hnone]
    refine completes_of_exec he ⟨fun _ _ => rfl, rfl, fun _ => rfl, fun k ha hb hk => ?_⟩
    rcases hstay with e | e | e
    · rw [ha] at e; cases e
    · rw [hb] at e; cases e
    · rw [hk] at e; cases e
  · obtain ⟨ha, hb, hk⟩ : hubAlive s h = true ∧ (lovOf s h).booted = false ∧ ∃ k, bootSlot s h = some k := by
      simpa [not_or, Option.ne_none_iff_exists'] using hstay
    obtain ⟨k, hk⟩ := hk
    obtain ⟨hm, hf, hout, hregs, hfw⟩ := bootedFrom_rest s h k
    have he := exec_measuredBoot ha hb hk
    by_cases hp : (derive s h k).primary.isNone = true
    · rw [if_pos hp] at he
      obtain ⟨p, hl⟩ := lovOf_stand (bootedFrom s h k) h
      obtain ⟨hm', hf', -, hd'⟩ := stand_rest (bootedFrom s h k) h
      rw [lovOf_bootedFrom] at hl
      refine completes_of_exec he ⟨otherLovages_trans (bootedFrom_others s h k) (stand_others (bootedFrom s h k) h), hm'.trans hm,
        fun e => absurd e hstay, fun k' _ _ hk' => ?_⟩
      obtain rfl := Option.some.inj (hk.symm.trans hk')
      refine ⟨by rw [hl]; rfl, by rw [hd']; exact hfw, hf'.trans hf, by rw [hl]; rfl, by rw [hl]; rfl, by rw [hl]; rfl,
        fun e => ?_, fun _ hnp => ?_⟩
      · have : (lovOf s h).primary.isNone = true := hp
        cases hq : (lovOf s h).primary <;> simp_all
      · have hst := stand_stands (s := bootedFrom s h k) (h := h) (by rw [lovOf_bootedFrom]; exact hnp)
        have hlov : lovOf (bootedFrom s h k) h = derive s h k := lovOf_bootedFrom s h k
        unfold Stands at hst ⊢
        rw [hlov, hout, rget_congr hregs] at hst
        exact hst
    · rw [if_neg hp] at he
      refine completes_of_exec he ⟨bootedFrom_others s h k, hm, fun e => absurd e hstay, fun k' _ _ hk' => ?_⟩
      obtain rfl := Option.some.inj (hk.symm.trans hk')
      rw [lovOf_bootedFrom]
      refine ⟨rfl, hfw, hf, rfl, rfl, rfl, fun _ => rfl, fun e => ?_⟩
      have : ¬ (lovOf s h).primary.isNone = true := hp
      simp [e] at this

/-! ## The obligation -/

/-- An election message of the Lovage's own term, or of a newer one, by its three kinds. -/
theorem election_messages (h c : Hub) (term n : Nat) (x : Lovage) (s : State) (hx : x = lovOf s h) (hn : n = term % 2 ^ 32) :
    ((lovRuns s h = false ∨ n < x.term) → Completes (.candidate h c term) s (fun t => t = s) ∧
      Completes (.vote h c term) s (fun t => t = s) ∧ Completes (.beacon h c term) s (fun t => t = s)) ∧
    (lovRuns s h = true → x.term ≤ n → ∀ u, u = adoptTerm s h n →
      exec (.candidate h c term) s = .next (modLov u h (candidacy c)) ∧
      exec (.vote h c term) s = .next (onVote h c u) ∧ exec (.beacon h c term) s = .next (onBeacon h c u)) := by
  subst hx hn
  refine ⟨fun he => ⟨?_, ?_, ?_⟩, fun hr he u hu => ⟨?_, ?_, ?_⟩⟩
  · exact completes_of_exec ((exec_candidate ..).trans (congrArg _ (onTerm_discards he _))) rfl
  · exact completes_of_exec ((exec_vote ..).trans (congrArg _ (onTerm_discards he _))) rfl
  · exact completes_of_exec ((exec_beacon ..).trans (congrArg _ (onTerm_discards he _))) rfl
  · rw [exec_candidate, onTerm_runs hr he, hu]
  · rw [exec_vote, onTerm_runs hr he, hu]
  · rw [exec_beacon, onTerm_runs hr he, hu]

/-- Settles O42: each event is a change of one Lovage by its term, its votes or its boot; the waits run from the command
(assumptions 3 and 107). -/
theorem primaryIsElected : Obligations.PrimaryIsElected := by
  unfold Obligations.PrimaryIsElected
  refine ⟨fun h sender term n x s hx hn => ?_, fun h x s hx hr => ⟨fun hp => ?_, fun hp => ⟨?_, ?_⟩, fun hb hp => ?_, fun hs => ?_⟩,
    fun h x s hx hr hw => voteWaitExpiry_votes hx hr hw, lovageMeasuredBoot_boots⟩
  · obtain ⟨hold, hrun⟩ := election_messages h sender term n x s hx hn
    subst hx
    refine ⟨hold, fun hr hlt => ?_, fun hr he => ?_⟩
    · obtain ⟨hl, ho, hm⟩ := adoptTerm_newer hlt
      obtain ⟨hc, hv, hb⟩ := hrun hr hlt.le _ rfl
      have hoc : ∀ f, OtherLovages s (modLov (adoptTerm s h n) h f) h := fun f => otherLovages_trans ho (modLov_others _ h f)
      refine ⟨completes_of_exec hc ⟨hoc _, hm, ?_⟩, completes_of_exec hv ?_, completes_of_exec hb ?_⟩
      · rw [lovOf_modLov_same, hl]
        exact ⟨rfl, rfl, rfl, rfl, rfl, rfl⟩
      · rw [onVote, if_neg (by simp [hl, adopted]), hl]
        exact ⟨ho, hm, rfl, rfl, rfl, rfl⟩
      · rw [onBeacon, if_neg (by simp [hl, adopted])]
        refine ⟨hoc _, hm, ?_⟩
        rw [lovOf_modLov_same, hl]
        exact ⟨rfl, rfl, rfl, rfl⟩
    · obtain ⟨hc, hv, hb⟩ := hrun hr he.le _ rfl
      rw [adoptTerm_same he] at hc hv hb
      refine ⟨completes_of_exec hc ⟨modLov_others s h _, rfl, lovOf_modLov_same ..⟩, fun hs => completes_of_exec hv ?_,
        fun v hs hv' => completes_of_exec hv ?_, fun hp => completes_of_exec hb ?_, fun hp => completes_of_exec hb ?_⟩
      · exact if_neg (by simp [hs])
      · have hl : lovOf (modLov s h (votedFor sender)) h = { lovOf s h with votes := v } := by
          rw [lovOf_modLov_same, hv']
          rfl
        obtain ⟨ho, hm, -⟩ := settleVotes_keeps_votes (modLov s h (votedFor sender)) h
        rw [onVote, if_pos hs]
        refine ⟨otherLovages_trans (modLov_others s h _) ho, hm, fun hlen => ?_, fun hlen => ?_⟩
        · rw [settleVotes_wait (by rw [hl]; exact hlen)]
          exact ⟨hl, rfl⟩
        · obtain ⟨hwon, -, -, -, hout⟩ := settleVotes_won (s := modLov s h (votedFor sender)) (h := h)
            (by rw [hl]; exact hs) (by rw [hl]; exact hlen)
          exact ⟨by rw [hwon, hl], by rw [hout, hl]; rfl⟩
      · exact if_pos hp
      · rw [onBeacon, if_neg (by simp [hp])]
        exact ⟨modLov_others s h _, rfl, lovOf_modLov_same ..⟩
  · subst hx
    refine completes_of_exec (if_pos ⟨hr, hp⟩) ⟨?_, rfl, rfl⟩
    exact (now_passTo s h _).trans (by omega)
  · subst hx
    exact completes_of_exec (if_neg (by simp [hp])) rfl
  · subst hx
    exact completes_of_exec (if_pos ⟨hr, by simp [hp]⟩) (stand_passTo hp)
  · subst hx
    exact completes_of_exec (if_pos ⟨hr, hb⟩) (stand_passTo hp)
  · subst hx
    refine completes_of_exec (if_pos ⟨hr, hs⟩) ⟨?_, modLov_others (passTo s h _) h _, lovOf_modLov_same .., rfl⟩
    exact (now_passTo s h _).trans (by omega)

end Sys2Proof.Proofs

namespace Sys2Proof.Proofs
open Sys2Proof.Machine Sys2Proof.Laws

/-!
Management sessions (O45, 15_trust.md R346 to R353, R362, R366). Every command of the class is a run of its op; each op's
effect ends in one answer, and an answer leaves the trust block (`answer_trust`).
-/

/-! ## Runs of the class -/

/-- A command that runs one effect or another runs its op either way. -/
theorem mgmtRun_ite {s : State} {msg op : Nat} {c : Prop} [Decidable c] {a b : Next} (ha : ∃ f, a = mgmtRun s msg op f)
    (hb : ∃ f, b = mgmtRun s msg op f) : ∃ f, (if c then a else b) = mgmtRun s msg op f := by split <;> assumption

/-- Every command of the class runs its op. -/
theorem exec_mgmtCmds {msg op : Nat} {c : Instr} (hc : (c, op) ∈ mgmtCmds msg) (s : State) :
    ∃ f, exec c s = mgmtRun s msg op f := by
  simp only [mgmtCmds, List.mem_cons, Prod.mk.injEq, List.not_mem_nil, or_false] at hc
  rcases hc with ⟨rfl, rfl⟩ | ⟨rfl, rfl⟩ | ⟨rfl, rfl⟩ | ⟨rfl, rfl⟩ | ⟨rfl, rfl⟩ | ⟨rfl, rfl⟩ | ⟨rfl, rfl⟩ | ⟨rfl, rfl⟩ |
    ⟨rfl, rfl⟩ | ⟨rfl, rfl⟩ | ⟨rfl, rfl⟩ | ⟨rfl, rfl⟩ | ⟨rfl, rfl⟩ | ⟨rfl, rfl⟩ | ⟨rfl, rfl⟩
  case inr.inr.inr.inr.inr.inr.inr.inl =>
    dsimp only [exec, execConfigDelta, sessionRun]
    exact mgmtRun_ite ⟨_, rfl⟩ ⟨_, rfl⟩
  all_goals
    dsimp only [exec, execGetCerts, execAttest, execSessionOpen, execSessionAuth, execSessionClose, execRegRead, execRegWrite,
      execProgramLoad, execStage, execActivate, execRevert, execRatify, execLegacyPsk, execTenantView, firmwareRun, sessionRun]
    exact ⟨_, rfl⟩

/-- A request of another command of the class waits for it. -/
theorem mgmtRun_other {s : State} {id op : Nat} {f : State → Msg → MgmtHdr → State} {m : Msg}
    (h : mayStart s id .mgmt = some m) (hk : mgmtOps.contains (MgmtHdr.parse m.be m.payload).op = true)
    (ho : (MgmtHdr.parse m.be m.payload).op ≠ op) : mgmtRun s id op f = .next s := by
  unfold mgmtRun
  rw [h]
  exact if_pos ⟨hk, ho⟩

/-- Without a primary a request that RECOVERY does not answer receives BUSY. -/
theorem mgmtRun_busy {s : State} {id op : Nat} {f : State → Msg → MgmtHdr → State} {m : Msg}
    (h : mayStart s id .mgmt = some m)
    (ho : mgmtOps.contains (MgmtHdr.parse m.be m.payload).op = false ∨ (MgmtHdr.parse m.be m.payload).op = op)
    (hp : primaryLov s = none) (hr : recoveryOp s m (MgmtHdr.parse m.be m.payload) = false) :
    mgmtRun s id op f = .next (mgmtAnswer s id m .busy []) := by
  unfold mgmtRun
  rw [h]
  refine (if_neg ?_).trans (if_pos ⟨by simp [hp], by simp [hr]⟩)
  rintro ⟨h1, h2⟩
  rcases ho with ho | ho
  · rw [ho] at h1; cases h1
  · exact h2 ho

/-- A request of a listed op runs its effect. -/
theorem mgmtRun_req {s : State} {id op : Nat} {f : State → Msg → MgmtHdr → State} {m : Msg} (h : MgmtReq s id op m)
    (hk : mgmtOps.contains op = true) : mgmtRun s id op f = .next (f s m (MgmtHdr.parse m.be m.payload)) := by
  obtain ⟨hm, hv, ho, hp⟩ := h
  exact mgmtRun_runs hm hv ho hk hp

/-- A sealed request that opens runs its effect. -/
theorem sessionRun_opens {s u : State} {id op : Nat} {f : State → Msg → Session → List Byte → State} {m : Msg} {x : Session}
    {b : List Byte} (h : Opens s id op m x b u) (hk : mgmtOps.contains op = true) :
    sessionRun s id op (fun _ => true) f = .next (f u m x b) := by
  obtain ⟨⟨hm, hv, ho, hp⟩, hs, rfl⟩ := h
  exact sessionRun_runs hm hv ho hk hp hs rfl

/-- A part that the answers and an op's effect leave is one that the whole run leaves. -/
theorem mgmtRun_part {β : Type} (g : State → β) {s t : State} {id op : Nat} {f : State → Msg → MgmtHdr → State}
    (ha : ∀ s m st b, g (mgmtAnswer s id m st b) = g s) (hf : ∀ m h, g (f s m h) = g s) (ht : mgmtRun s id op f = .next t) :
    g t = g s := by
  unfold mgmtRun at ht
  split at ht
  · cases ht; rfl
  dsimp only at ht
  split at ht
  · cases ht; rfl
  split at ht
  · cases ht; exact ha ..
  split at ht
  · cases ht; exact ha ..
  · cases ht; exact hf ..

/-- No session command whose effect leaves memory writes memory. -/
theorem sessionRun_mem {s t : State} {id op : Nat} {pick : List Byte → Bool} {f : State → Msg → Session → List Byte → State}
    (hf : ∀ u m x b, (f u m x b).mem = u.mem) (ht : sessionRun s id op pick f = .next t) : t.mem = s.mem := by
  refine mgmtRun_part (·.mem) (fun _ _ _ _ => mgmtAnswer_mem ..) (fun m h => ?_) ht
  dsimp only
  split
  · rw [mgmtAnswer_mem]
    split
    · simp [endSession]
    · rfl
  · split
    · exact (hf ..).trans rfl
    · rfl

/-! ## Sessions -/

theorem sessionOf_endSession (s : State) (sid : Nat) : sessionOf (endSession s sid) sid = none := by
  simp [sessionOf, endSession, modTrust, List.find?_eq_none]

theorem sessionOf_congr {s t : State} (h : t.trust = s.trust) (sid : Nat) : sessionOf t sid = sessionOf s sid := by
  rw [sessionOf, h, sessionOf]

/-- The session that SESSION_OPEN adds. -/
def openedSession (s : State) (m : Msg) (c : Channel) (priv nonce : List Byte) (sid : Nat) : Session :=
  { id := sid, chan := c, keyIdx := fld m.be (m.payload.drop 16) 0 1,
    trans := m.payload.drop 16 ++ (takeBytes (Config.x448Public priv) 0 56 ++ nonce ++ put m.be 4 sid),
    secret := Config.x448 priv ((m.payload.drop 16).drop 1), key := [],
    authed := false, seqIn := 0, seqOut := 0, lastAt := primaryNow s }

theorem fld_drop (be : Bool) (b : List Byte) (k o n : Nat) : fld be (b.drop k) o n = fld be b (k + o) n := by
  simp [fld, takeBytes, List.drop_drop]

/-- The state with the numbers and the session number of a SESSION_OPEN drawn. -/
def openDraws (s : State) : State := (newId (freshBytes (freshBytes s 56).2 32).2).2

/-- The state with the new session. -/
def sessionAdded (s : State) (m : Msg) (c : Channel) : State :=
  modTrust (openDraws s) fun t => { t with sessions := t.sessions ++
    [openedSession (openDraws s) m c (freshBytes s 56).1 (freshBytes (freshBytes s 56).2 32).1 s.nextId] }

/-- SESSION_OPEN adds one pending session and is answered, or receives BUSY. -/
theorem exec_sessionOpen {s : State} {msg : Nat} {m : Msg} {c : Channel} (h : MgmtReq s msg opSessionOpen m)
    (hc : chanOf m = some c) (hl : m.payload.length = 73) : ∃ b,
      exec (.sessionOpen msg) s = .next (if 4 ≤ s.trust.sessions.length then mgmtAnswer s msg m .busy [] else
        answer (sessionAdded s m c) msg .mgmt .ok 0 b) := by
  dsimp only [exec, execSessionOpen]
  rw [mgmtRun_req h (by decide), hc]
  dsimp only
  rw [if_neg (by simp [hl])]
  exact ⟨_, rfl⟩

/-! ## SESSION_AUTH -/

/-- Whether the signature of a SESSION_AUTH verifies. -/
def authVerifies (s : State) (m : Msg) (x : Session) : Bool :=
  match aget (trustCfg s).opKeys x.keyIdx with
  | some k => Config.ed448Verify k ctxSession (Config.shake256 (x.trans ++ chanBytes s x.chan) 64) (m.payload.drop 16)
  | none => false

theorem exec_sessionAuth {s : State} {msg : Nat} {m : Msg} (h : MgmtReq s msg opSessionAuth m) :
    exec (.sessionAuth msg) s = .next (match pendingSession s m (MgmtHdr.parse m.be m.payload).sid with
      | none => mgmtAnswer s msg m .notFound []
      | some x =>
        if authVerifies s m x then
          mgmtAnswer (modSession s x.id fun y => { y with
            authed := true, key := Config.shake256 (sessionLabel ++ x.secret ++ x.trans) 32, lastAt := primaryNow s }) msg m .ok []
        else mgmtAnswer (endSession (bumpPrimary s .lov_SESSION_FAILS) x.id) msg m .notFound []) := by
  dsimp only [exec, execSessionAuth]
  rw [mgmtRun_req h (by decide)]
  rfl

/-! ## LEGACY_PSK -/

/-- Free bytes drawn change no key. -/
theorem storeKey_freshBytes (s : State) (n : Nat) :
    (lovOf (freshBytes s n).2 (signerHub (freshBytes s n).2)).storeKey = (lovOf s (signerHub s)).storeKey := rfl

theorem takeSealed_psk (s : State) (x : Session) (seq : Nat) : (takeSealed s x seq).trust.psk = s.trust.psk := rfl

theorem sealedAnswer_psk (s : State) (id : Nat) (m : Msg) (sid : Nat) (st : Status) (body : List Byte) :
    (sealedAnswer s id m sid st body).trust.psk = s.trust.psk :=
  (congrArg TrustSt.psk (sealedAnswer_trust s id m sid st body) :)

/-! ## The obligation -/

/-- Settles O45: the runs of the class by `exec_mgmtCmds`, and each op by its own effect and answer (bodies of another length
and the refusals of sessions: assumptions 108 to 110). -/
theorem managementSessionsRun : Obligations.ManagementSessionsRun := by
  unfold Obligations.ManagementSessionsRun
  refine ⟨fun msg op m h c s hc hm hh => ?_, fun msg m s h => ?_, fun msg m s h => ?_, fun msg m c s h hc hl => ?_,
    fun msg sid m s h hsid => ?_, fun msg m s hm => ⟨?_, ?_⟩, fun sid s => ?_, fun msg m s h => ?_⟩
  · subst hh
    obtain ⟨f, hf⟩ := exec_mgmtCmds hc s
    obtain ⟨t, ht⟩ := mgmtRun_next s msg op f
    have hres : ∀ u, mgmtRun s msg op f = .next u → t = u := fun u hu => Host.Outcome.next.inj (ht.symm.trans hu)
    refine completes_of_exec (hf.trans ht) ⟨fun hk ho => hres _ (mgmtRun_other hm hk ho),
      fun ho hp hr => hres _ (mgmtRun_busy hm ho hp hr), fun ho hp => hres _ (mgmtRun_version hm ?_ ?_ hp.symm)⟩
    · rcases ho with ho | ⟨-, hv⟩
      · exact Or.inr (by rw [ho]; decide)
      · exact Or.inl hv
    · rcases ho with ho | ⟨ho, -⟩
      · rw [ho]; intro e; cases e
      · exact fun _ => ho
  · refine completes_of_exec (t := mgmtAnswer s msg m .ok (certChain s (signerHub s))) ?_ ⟨rfl, mgmtAnswer_mem ..⟩
    dsimp only [exec, execGetCerts]
    exact mgmtRun_req h (by decide)
  · have he : exec (.attest msg) s = .next (if m.payload.length ≠ 48 then mgmtAnswer s msg m .bounds []
        else if 256 ≤ reportsNow s (signerHub s) then mgmtAnswer s msg m .busy []
        else mgmtAnswer (bump (modTrust s fun t => { t with reports :=
          (now s (signerHub s) / 1000000000, reportsNow s (signerHub s) + 1) }) .lov_ATTESTS (signerHub s)) msg m .ok
            (report s (signerHub s) (m.payload.drop 16))) := by
      dsimp only [exec, execAttest]
      exact mgmtRun_req h (by decide)
    refine completes_of_exec he ⟨?_, fun hl => if_pos hl, fun hl hn => (if_neg (by simp [hl])).trans (if_pos hn), fun hl hn => ?_⟩
    · split
      · simp
      split
      · simp
      · simp [modTrust]
    · rw [if_neg (by simp [hl]), if_neg (by omega)]
      exact ⟨by rw [mgmtAnswer_trust, bump_trust]; rfl, _, by rw [mgmtAnswer_trust, bump_trust]; rfl, rfl⟩
  · obtain ⟨b, he⟩ := exec_sessionOpen h hc hl
    refine completes_of_exec he ⟨?_, fun hn => if_pos hn, fun hn => ?_⟩
    · split
      · simp
      · exact (answer_mem ..).trans rfl
    · rw [if_neg (by omega)]
      refine ⟨msgOf_answer_same .., _, by rw [answer_trust]; rfl, rfl, rfl, rfl, ?_, rfl, rfl, rfl⟩
      exact fld_drop ..
  · subst hsid
    refine completes_of_exec (exec_sessionAuth h) ⟨?_, fun hn => ?_, fun x k hx hk hv => ?_, fun x hx hk => ?_⟩
    · split
      · simp
      · split
        · simp [modSession]
        · simp [endSession]
    · rw [hn]
    · rw [hx]
      dsimp only
      rw [if_pos (by rw [authVerifies, hk]; exact hv)]
      exact ⟨msgOf_answer_same .., by rw [mgmtAnswer_trust]; rfl⟩
    · rw [hx]
      dsimp only
      rw [if_neg (by simp [authVerifies, hk])]
      exact ⟨rfl, (sessionOf_congr (mgmtAnswer_trust ..) _).trans (sessionOf_endSession ..)⟩
  · refine completes_of_forall (fun _ e => by cases e) fun t ht => ⟨?_, fun x b u ho => ?_⟩
    · dsimp only [exec, execSessionClose] at ht
      exact sessionRun_mem (fun u m x b => by simp [endSession]) ht
    · dsimp only [exec, execSessionClose] at ht
      rw [sessionRun_opens ho (by decide)] at ht
      cases ht
      exact ⟨rfl, sessionOf_endSession ..⟩
  · refine completes_of_forall (fun _ e => by cases e) fun t ht => ⟨?_, fun x b u ho => ?_⟩
    · dsimp only [exec, execLegacyPsk] at ht
      refine sessionRun_mem (fun u m x b => ?_) ht
      split
      · simp
      · simp [modTrust, freshBytes]
    · dsimp only [exec, execLegacyPsk] at ht
      rw [sessionRun_opens ho (by decide)] at ht
      cases ht
      refine ⟨fun hb => ?_, fun hb => ?_⟩
      · rw [if_neg (by simp [hb])]
        exact ⟨(sealedAnswer_psk ..).trans rfl, _, _, rfl, by rw [storeKey_freshBytes]; rfl⟩
      · rw [if_pos hb]
        obtain ⟨-, -, rfl⟩ := ho
        exact ⟨rfl, (sealedAnswer_psk ..).trans (takeSealed_psk ..)⟩
  · cases hx : sessionOf s sid with
    | none =>
      refine completes_of_exec (t := s) ?_ ⟨hx, rfl, fun y hy _ => hy, fun x e => by simp at e, fun _ => rfl⟩
      dsimp only [exec, execSessionIdleExpiry]
      rw [hx]
    | some x =>
      refine completes_of_exec (t := endSession (passTo s ((primaryLov s).getD 0) (x.lastAt + 600000000000)) sid) ?_
        ⟨sessionOf_endSession .., rfl, fun y hy hne => List.mem_filter.mpr ⟨hy, by simpa using hne⟩, fun y e => ?_,
          fun e => by simp at e⟩
      · dsimp only [exec, execSessionIdleExpiry]
        rw [hx]
      · cases e
        exact (Nat.le_max_right ..).trans_eq (now_passTo ..).symm
  · refine completes_of_exec (t := if m.tenant = 0 then mgmtAnswer s msg m .pdMismatch [] else mgmtAnswer s msg m .ok
      ((meterSeen s m.tenant).wire m.be ++ put m.be 4 (tenantPub s m.tenant .tier_sram_used) ++
        put m.be 4 (tenantPub s m.tenant .tier_slot_used) ++ put m.be 4 (tenantPub s m.tenant .tier_merge_used))) ?_
      ⟨?_, fun ht => if_pos ht, fun ht => if_neg ht⟩
    · dsimp only [exec, execTenantView]
      exact mgmtRun_req h (by decide)
    · split <;> simp

end Sys2Proof.Proofs

namespace Sys2Proof.Proofs
open Sys2Proof.Machine Sys2Proof.Laws

/-!
The link key exchange of a sub-port (O5, 15_trust.md R356 to R358, R367). A KX1, a KX2 or a KX3 starts, fails or carries on
the exchange of one sub-port; what starting and failing do is said with the timers (startKx, failKx).
-/

theorem subOf_modKx_same (s : State) (h u : Nat) (f : Kx → Kx) :
    subOf (modKx s h u f) h u = { subOf s h u with kx := f (subOf s h u).kx } :=
  subOf_modSub_same s h u fun p => { p with kx := f p.kx }

theorem modKx_others (s : State) (h u : Nat) (f : Kx → Kx) : OtherSubs s (modKx s h u f) h u :=
  otherSubs_modSub s h u fun p => { p with kx := f p.kx }

/-- The peer check reads the configuration alone. -/
theorem peerChecked_congr {s t : State} (e : t.life = s.life) (h u : Nat) (k : KxFrame) : peerChecked t h u k = peerChecked s h u k := by
  simp only [peerChecked, trustCfg, body, cfgSlot, e]

/-- The form of a KX2. -/
theorem parse_kxTail_msg (an xid : Nat) (sig : List Byte) : (KxFrame.parse (kxTail 2 an xid sig)).msg = 2 := by
  have h : fld true (kxTail 2 an xid sig) 0 1 = 33 := by
    simp only [kxTail, kxHead, List.append_assoc, fld_head]
    rfl
  simp only [KxFrame.parse, h]

/-! ## KX2 goes out, or the exchange fails (R357 step 3, R358) -/

/-- The KX2 a sub-port sends. -/
def ownKx2 (s : State) (h u : Nat) : List Byte :=
  kxTail 2 (KxFrame.parse (subOf s h u).kx.sent).an (subOf s h u).kx.xid (aliasSign s h ctxKx (transcriptKx (subOf s h u)))

def sentKx2 (s : State) (h u : Nat) : State := emit (modKx s h u fun k => { k with kx2Sent := true }) (.kx h u (ownKx2 s h u))

theorem subOf_sentKx2 (s : State) (h u : Nat) :
    subOf (sentKx2 s h u) h u = { subOf s h u with kx := { (subOf s h u).kx with kx2Sent := true } } :=
  subOf_modKx_same s h u fun k => { k with kx2Sent := true }

theorem sentKx2_others (s : State) (h u : Nat) : OtherSubs s (sentKx2 s h u) h u :=
  modKx_others s h u fun k => { k with kx2Sent := true }

theorem sendKx2_admitted {s : State} {h u : Nat} (e : peerChecked s h u (KxFrame.parse (subOf s h u).kx.peer) = true) :
    sendKx2 s h u = sentKx2 s h u := if_neg (by simp [e])

theorem sendKx2_refused {s : State} {h u : Nat} (e : peerChecked s h u (KxFrame.parse (subOf s h u).kx.peer) = false) :
    sendKx2 s h u = failKx s h u := if_pos (by simp [e])

/-! ## Joining an exchange (R357 step 2) -/

/-- The node has joined a peer's exchange: its own KX1 has gone out, and the peer's is held. -/
def joinedKx (s : State) (h u : Nat) (b : List Byte) : State :=
  modKx (startKx s h u (KxFrame.parse b).xid) h u fun x => { x with peer := b }

theorem subOf_joinedKx (s : State) (h u : Nat) (b : List Byte) : subOf (joinedKx s h u b) h u = { subOf s h u with
    kx := { startedKx s h u (KxFrame.parse b).xid (subOf s h u).kx with peer := b } } := by
  rw [joinedKx, subOf_modKx_same, subOf_startKx]

theorem joinedKx_others (s : State) (h u : Nat) (b : List Byte) : OtherSubs s (joinedKx s h u b) h u :=
  otherSubs_trans (startKx_others s h u _) (modKx_others _ h u _)

section
variable {h : Hub} {u : Sub} {b : List Byte} {s : State}

/-- A KX1 that meets no running exchange: the node starts its own next one, or joins the peer's. -/
theorem exec_kx1 (ha : hubAlive s h.val = true) (hl : (subOf s h.val u.val).link = true) (hv : (KxFrame.parse b).ver = 1)
    (hm : (KxFrame.parse b).msg = 1) (hr : (subOf s h.val u.val).kx.running = false) : exec (.kx1 h u b) s = .next
      (if (subOf s h.val u.val).kx.installed < (KxFrame.parse b).xid then sendKx2 (joinedKx s h.val u.val b) h.val u.val
       else startKx s h.val u.val ((subOf s h.val u.val).kx.installed + 1)) := by
  dsimp only [exec]
  unfold execKx1
  dsimp only
  rw [if_neg (by simp [ha, hl, hv, hm])]
  simp only [hr, Bool.false_eq_true, if_false, false_and]
  split <;> rfl

/-- Whether the KX2 of the running exchange verifies over the transcript. -/
def kx2Verifies (s : State) (h u : Nat) (b : List Byte) : Bool :=
  Config.ed448Verify (Config.chainCheck (trustCfg s).anchors (KxFrame.parse (subOf s h u).kx.peer).tail).2.2
    ctxKx (transcriptKx (subOf s h u)) (KxFrame.parse b).tail

/-- A sub-port whose receive association is installed. -/
def rxInstalled (s : State) (h u : Nat) (b : List Byte) (x : SubPort) : SubPort :=
  { x with rxOld := x.rx, rx := some ⟨(KxFrame.parse b).an, if lowerMac (subOf s h u) then 2 else 1, (kxKeys (subOf s h u)).2, 1⟩,
           rxAt := now s h, kx := { x.kx with kx2Valid := true } }

theorem exec_kx2 (ha : hubAlive s h.val = true) (hl : (subOf s h.val u.val).link = true) (hv : (KxFrame.parse b).ver = 1)
    (hm : (KxFrame.parse b).msg = 2) (hr : (subOf s h.val u.val).kx.running = true)
    (hs : (subOf s h.val u.val).kx.kx2Sent = true) (hn : (subOf s h.val u.val).kx.kx2Valid = false)
    (hx : (KxFrame.parse b).xid = (subOf s h.val u.val).kx.xid) : exec (.kx2 h u b) s = .next
      (if kx2Verifies s h.val u.val b then emit (modSub s h.val u.val (rxInstalled s h.val u.val b))
        (.kx h.val u.val (kxTail 3 (KxFrame.parse (subOf s h.val u.val).kx.sent).an (subOf s h.val u.val).kx.xid []))
       else failKx s h.val u.val) := by
  dsimp only [exec]
  unfold execKx2
  dsimp only
  rw [if_neg (by simp [ha, hl, hv, hm, hr, hs, hn, hx])]
  change (if (! kx2Verifies s h.val u.val b) = true then _ else _) = _
  cases kx2Verifies s h.val u.val b <;> rfl

/-- A sub-port whose exchange is done: the send association is in force. R357 step 5. -/
def kxDone (s : State) (h u : Nat) (x : SubPort) : SubPort :=
  { x with tx := some ⟨(KxFrame.parse (subOf s h u).kx.sent).an, if lowerMac (subOf s h u) then 1 else 2,
             (kxKeys (subOf s h u)).1, 1⟩,
           up := true, spent := false, keyAt := now s h,
           kx := { x.kx with installed := (subOf s h u).kx.xid, running := false, priv := [], failed := false } }

theorem exec_kx3 (ha : hubAlive s h.val = true) (hl : (subOf s h.val u.val).link = true) (hv : (KxFrame.parse b).ver = 1)
    (hm : (KxFrame.parse b).msg = 3) (hr : (subOf s h.val u.val).kx.running = true)
    (hn : (subOf s h.val u.val).kx.kx2Valid = true) (hx : (KxFrame.parse b).xid = (subOf s h.val u.val).kx.xid) :
    exec (.kx3 h u b) s = .next (bump (modSub s h.val u.val (kxDone s h.val u.val)) .lov_KX_DONE h.val) :=
  if_neg (by simp [ha, hl, hv, hm, hr, hn, hx])

end

/-! ## The obligation -/

/-- Settles O5: each frame starts, joins, fails or carries on the exchange of its one sub-port (assumption 67). -/
theorem linkKeyExchange : Obligations.LinkKeyExchange := by
  unfold Obligations.LinkKeyExchange
  refine ⟨fun h u b s ha hl hv hm hr hx => ?_, fun h u b s ha hl hv hm hr hx => ?_,
    fun h u b s ha hl hv hm hr hs hn hx => ?_, fun h u b s ha hl hv hm hr hn hx => ?_⟩
  · refine completes_of_exec ((exec_kx1 ha hl hv hm hr).trans (congrArg _ (if_neg (Nat.not_lt.mpr hx)))) ?_
    refine ⟨?_, ?_, startKx_out .., startKx_others s _ _ _, rfl⟩ <;> rw [subOf_startKx] <;> rfl
  · have he := (exec_kx1 ha hl hv hm hr).trans (congrArg _ (if_pos hx))
    have hj := subOf_joinedKx s h.val u.val b
    have hpeer : (subOf (joinedKx s h.val u.val b) h.val u.val).kx.peer = b := by rw [hj]
    cases hc : peerChecked (joinedKx s h.val u.val b) h.val u.val (KxFrame.parse b) with
    | true =>
      rw [sendKx2_admitted (by rw [hpeer]; exact hc)] at he
      have hsub := subOf_sentKx2 (joinedKx s h.val u.val b) h.val u.val
      rw [hj] at hsub
      refine completes_of_exec he ⟨by rw [hsub]; rfl, by rw [hsub],
        otherSubs_trans (joinedKx_others s h u b) (sentKx2_others (joinedKx s h u b) h u), rfl, ?_⟩
      have hc' := (peerChecked_congr (s := joinedKx s h.val u.val b) (t := sentKx2 (joinedKx s h.val u.val b) h.val u.val) rfl
        h.val u.val (KxFrame.parse b)).trans hc
      rw [if_pos hc']
      refine ⟨by rw [hsub], by rw [hsub]; rfl, ownKx2 (joinedKx s h.val u.val b) h.val u.val, ?_, parse_kxTail_msg ..⟩
      rw [hsub]
      exact List.append_assoc ..
    | false =>
      rw [sendKx2_refused (by rw [hpeer]; exact hc)] at he
      have hsub := subOf_failKx (joinedKx s h.val u.val b) h.val u.val
      rw [hj] at hsub
      refine completes_of_exec he ⟨by rw [hsub]; rfl, by rw [hsub]; rfl,
        otherSubs_trans (joinedKx_others s h u b) (failKx_others (joinedKx s h u b) h u), rfl, ?_⟩
      have hc' := (peerChecked_congr (s := joinedKx s h.val u.val b) (t := failKx (joinedKx s h.val u.val b) h.val u.val) rfl
        h.val u.val (KxFrame.parse b)).trans hc
      rw [if_neg (by simp [hc'])]
      exact ⟨by rw [hsub]; rfl, by rw [hsub]; rfl, by rw [hsub]; rfl, failKx_counts ..⟩
  · have he := exec_kx2 ha hl hv hm hr hs hn hx
    cases hc : kx2Verifies s h.val u.val b with
    | true =>
      rw [hc, if_pos rfl] at he
      have hsub := subOf_modSub_same s h.val u.val (rxInstalled s h.val u.val b)
      refine completes_of_exec he ⟨otherSubs_modSub s _ _ _, rfl, ?_⟩
      change if kx2Verifies s h.val u.val b = true then _ else _
      rw [if_pos hc]
      exact ⟨congrArg SubPort.rx hsub, congrArg SubPort.rxOld hsub, congrArg (fun p : SubPort => p.kx.kx2Valid) hsub,
        List.length_append ..⟩
    | false =>
      rw [hc, if_neg Bool.false_ne_true] at he
      have hsub := subOf_failKx s h.val u.val
      refine completes_of_exec he ⟨failKx_others s h u, rfl, ?_⟩
      change if kx2Verifies s h.val u.val b = true then _ else _
      rw [if_neg (by simp [hc])]
      exact ⟨congrArg (fun p : SubPort => p.kx.failed) hsub, congrArg (fun p : SubPort => p.kx.running) hsub, rfl,
        (congrArg SubPort.rx hsub).trans rfl⟩
  · have hsub : subOf (bump (modSub s h.val u.val (kxDone s h.val u.val)) .lov_KX_DONE h.val) h.val u.val = _ :=
      subOf_modSub_same s h.val u.val (kxDone s h.val u.val)
    refine completes_of_exec (exec_kx3 ha hl hv hm hr hn hx) ?_
    rw [hsub]
    exact ⟨rfl, rfl, rfl, rfl, rfl, rfl, rfl, rget_bump_same .., fun r i e hne => rget_bump_other _ hne ..,
      otherSubs_congr (otherSubs_modSub s _ _ _) rfl rfl, rfl⟩

end Sys2Proof.Proofs

namespace Sys2Proof.Proofs
open Sys2Proof.Machine Sys2Proof.Laws

/-!
Firmware (O51, 16_lifecycle.md R387, R388). A sub-op runs on a sealed request of its own number; ACTIVATE and REVERT move the
named dies one after another, and a die that moves leaves the others.
-/

/-! ## The sub-ops -/

/-- A sealed request of a sub-op runs that sub-op. -/
theorem firmwareRun_opens {s u : State} {msg sub : Nat} {f : State → Msg → Session → List Byte → State} {m : Msg} {x : Session}
    {b : List Byte} (h : FwOpens s msg sub m x b u) : firmwareRun s msg sub f = .next (f u m x b) := by
  obtain ⟨⟨⟨hm, hv, ho, hp⟩, hs, rfl⟩, hsub⟩ := h
  unfold firmwareRun
  rw [sessionRun_runs hm hv ho (by decide) hp hs (by simp [hsub]), if_pos hsub]

/-- A reserved sub-op is refused with VERSION by every command of the class. -/
theorem firmwareRun_reserved {s u : State} {msg sub : Nat} {f : State → Msg → Session → List Byte → State} {m : Msg} {x : Session}
    {b : List Byte} (h : Opens s msg opFirmware m x b u) (hb : fld false b 0 1 = 0 ∨ 4 < fld false b 0 1) (h1 : 1 ≤ sub)
    (h4 : sub ≤ 4) : firmwareRun s msg sub f = .next (sealedAnswer u msg m x.id .version []) := by
  obtain ⟨⟨hm, hv, ho, hp⟩, hs, rfl⟩ := h
  unfold firmwareRun
  rw [sessionRun_runs hm hv ho (by decide) hp hs (by rcases hb with hb | hb <;> simp [hb]), if_neg (by omega)]

/-- What the effect of a sealed request, its taking and its refusals leave, the command leaves. -/
theorem sessionRun_part {β : Type} (g : State → β) {s t : State} {id op : Nat} {pick : List Byte → Bool}
    {f : State → Msg → Session → List Byte → State} (ha : ∀ s m st b, g (mgmtAnswer s id m st b) = g s)
    (hb : ∀ s r, g (bumpPrimary s r) = g s) (he : ∀ s sid, g (endSession s sid) = g s) (ht : ∀ s x n, g (takeSealed s x n) = g s)
    (hf : ∀ u m x b, g (f u m x b) = g u) (h : sessionRun s id op pick f = .next t) : g t = g s := by
  unfold sessionRun at h
  refine mgmtRun_part g ha (fun m hd => ?_) h
  dsimp only
  split
  · rw [ha]
    split
    · rw [he, hb]
    · rfl
  · split
    · rw [hf, ht]
    · rfl

/-- What the effect of a sub-op, the taking of the request and its answers leave, the command leaves. -/
theorem firmwareRun_part {β : Type} (g : State → β) {s t : State} {msg sub : Nat} {f : State → Msg → Session → List Byte → State}
    (ha : ∀ s m st b, g (mgmtAnswer s msg m st b) = g s) (hs : ∀ s m sid st b, g (sealedAnswer s msg m sid st b) = g s)
    (hb : ∀ s r, g (bumpPrimary s r) = g s) (he : ∀ s sid, g (endSession s sid) = g s) (ht : ∀ s x n, g (takeSealed s x n) = g s)
    (hf : ∀ u m x b, g (f u m x b) = g u) (h : firmwareRun s msg sub f = .next t) : g t = g s := by
  refine sessionRun_part g ha hb he ht (fun u m x b => ?_) h
  split
  · exact hf ..
  · exact hs ..

theorem sealedAnswer_svnMin (s : State) (id : Nat) (m : Msg) (sid : Nat) (st : Status) (body : List Byte) :
    (sealedAnswer s id m sid st body).trust.svnMin = s.trust.svnMin :=
  (congrArg TrustSt.svnMin (sealedAnswer_trust s id m sid st body) :)

theorem firmwareRun_mem {s t : State} {msg sub : Nat} {f : State → Msg → Session → List Byte → State}
    (hf : ∀ u m x b, (f u m x b).mem = u.mem) (h : firmwareRun s msg sub f = .next t) : t.mem = s.mem :=
  firmwareRun_part (·.mem) (fun _ _ _ _ => mgmtAnswer_mem ..) (fun _ _ _ _ _ => sealedAnswer_mem ..)
    (fun _ _ => bumpPrimary_mem ..) (fun _ _ => rfl) (fun _ _ _ => rfl) hf h

theorem firmwareRun_svnMin {s t : State} {msg sub : Nat} {f : State → Msg → Session → List Byte → State}
    (hf : ∀ u m x b, (f u m x b).trust.svnMin = u.trust.svnMin) (h : firmwareRun s msg sub f = .next t) :
    t.trust.svnMin = s.trust.svnMin :=
  firmwareRun_part (·.trust.svnMin) (fun s m st b => congrArg TrustSt.svnMin (mgmtAnswer_trust s msg m st b))
    (fun _ _ _ _ _ => sealedAnswer_svnMin ..) (fun s r => congrArg TrustSt.svnMin (bumpPrimary_trust s r)) (fun _ _ => rfl)
    (fun _ _ _ => rfl) hf h

/-- A status the spec leaves open is never OK. -/
theorem freeRefusal_ne_ok (s : State) : (freeRefusal s).2 ≠ .ok := by
  have h : ∀ i, i < 18 → (Status.all.drop 3).getD i .busy ≠ .ok := by decide
  exact h _ (Nat.mod_lt _ (by decide))

theorem freelyRefused (u : State) (msg : Nat) (m : Msg) (x : Session) :
    FreelyRefused u (sealedAnswer (freeRefusal u).1 msg m x.id (freeRefusal u).2 []) msg m x :=
  ⟨(freeRefusal u).2, freeRefusal_ne_ok u, rfl⟩

/-! ## A step-down among moving dies -/

/-- What the life and the trust block keep when a primary steps down. -/
theorem stepDown_life (s : State) (h : Nat) : (stepDown s h).life = { s.life with job := (stepDown s h).life.job } ∧
    (stepDown s h).trust.svnMin = s.trust.svnMin := by
  have hgone : ∀ v : State, (primaryGone v).life = { v.life with job := (primaryGone v).life.job } ∧
      (primaryGone v).trust.svnMin = v.trust.svnMin := by
    intro v
    unfold primaryGone
    extract_lets s1 ids s2
    have hl : s2.life = v.life := foldl_part (·.life) (fun u id => by split <;> simp) ids s1
    have ht : s2.trust.svnMin = v.trust.svnMin := foldl_part (·.trust.svnMin) (fun u id => by split <;> simp) ids s1
    clear_value s2
    split
    · split
      · exact ⟨by rw [hl], ht⟩
      · exact ⟨by rw [modLife_life, hl], ht⟩
    · exact ⟨by rw [hl], ht⟩
  unfold stepDown
  split
  · exact hgone _
  · exact ⟨rfl, rfl⟩

/-! ## One die moves (R388) -/

/-- A die begins to move: the slot it goes to, and what it waits for. -/
def beginsMove (k d : Nat) (s : State) : State :=
  modLife s fun l => { l with moving := aset l.moving d (k, if d < 32 ∨ 40 ≤ d then 1 else 0),
                              moveAt := if d < 32 then aset l.moveAt d (now s (homeHub s d)) else l.moveAt }

/-- A Lovage that restarts runs nothing till it boots. -/
def lovageStops (x : Lovage) : Lovage :=
  { x with booted := false, primary := none, standing := false, waiting := false, backoff := false, votes := [], cands := [] }

def lovageRestarts (k d : Nat) (s : State) : State :=
  modLife (modLov (stepDown s (d - 40)) (d - 40) lovageStops) fun l => { l with dieFw := aset l.dieFw d k }

theorem moveDie_eq (k : Nat) (s : State) (d : Nat) :
    moveDie k s d = if d < 40 then beginsMove k d s else lovageRestarts k d (beginsMove k d s) := rfl

/-- What the move of one die does to the life block. -/
theorem moveDie_life (k : Nat) (s : State) (d : Nat) :
    (moveDie k s d).life.moving = aset s.life.moving d (k, if d < 32 ∨ 40 ≤ d then 1 else 0) ∧
    (moveDie k s d).life.dieFw = (if d < 40 then s.life.dieFw else aset s.life.dieFw d k) ∧
    (moveDie k s d).life.bundles = s.life.bundles ∧ (moveDie k s d).mem = s.mem ∧
    (moveDie k s d).trust.svnMin = s.trust.svnMin := by
  rw [moveDie_eq]
  by_cases hd : d < 40
  · rw [if_pos hd, if_pos hd]
    exact ⟨rfl, rfl, rfl, rfl, rfl⟩
  · rw [if_neg hd, if_neg hd]
    obtain ⟨hl, hs⟩ := stepDown_life (beginsMove k d s) (d - 40)
    obtain ⟨hm, -⟩ := stepDown_rest (beginsMove k d s) (d - 40)
    have hlife : (lovageRestarts k d (beginsMove k d s)).life = { (stepDown (beginsMove k d s) (d - 40)).life with
        dieFw := aset (stepDown (beginsMove k d s) (d - 40)).life.dieFw d k } := rfl
    rw [hlife, hl]
    exact ⟨rfl, rfl, rfl, hm, hs⟩

/-- What it does to the Lovages: one that restarts has not booted, the others stand. -/
theorem moveDie_lov (k : Nat) (s : State) (d : Nat) : (40 ≤ d → (lovOf (moveDie k s d) (d - 40)).booted = false) ∧
    ∀ j, 40 + j ≠ d → lovOf (moveDie k s d) j = lovOf s j := by
  rw [moveDie_eq]
  by_cases hd : d < 40
  · rw [if_pos hd]
    exact ⟨fun h => absurd hd (by omega), fun _ _ => rfl⟩
  · rw [if_neg hd]
    obtain ⟨-, -, ho⟩ := stepDown_lov (beginsMove k d s) (d - 40)
    refine ⟨fun _ => congrArg Lovage.booted (lovOf_modLov_same (stepDown (beginsMove k d s) (d - 40)) (d - 40) lovageStops), ?_⟩
    intro j hj
    have hne : j ≠ d - 40 := by omega
    exact (lovOf_modLov_other (stepDown (beginsMove k d s) (d - 40)) hne lovageStops).trans (ho j hne)

/-! ## Several dies move -/

/-- A list of dies moves, and the Lovages that are not among them stand. -/
structure ListMoves (s t : State) (ds : List Nat) (dest : Nat → Nat) : Prop where
  moves : ∀ d ∈ ds, aget t.life.moving d = some (dest d, if d < 32 ∨ 40 ≤ d then 1 else 0) ∧
    fwSlot t d = if d < 40 then fwSlot s d else dest d
  stands : ∀ d, d ∉ ds → aget t.life.moving d = aget s.life.moving d ∧ fwSlot t d = fwSlot s d
  restarts : ∀ d ∈ ds, 40 ≤ d → (lovOf t (d - 40)).booted = false
  runs : ∀ j, 40 + j ∉ ds → lovOf t j = lovOf s j
  bundles : t.life.bundles = s.life.bundles
  mem : t.mem = s.mem
  svnMin : t.trust.svnMin = s.trust.svnMin

theorem foldl_moveDie (dest : Nat → Nat) : ∀ (ds : List Nat) (s : State), ds.Nodup →
    ListMoves s (ds.foldl (fun s d => moveDie (dest d) s d) s) ds dest
  | [], s, _ => ⟨fun _ h => (List.not_mem_nil h).elim, fun _ _ => ⟨rfl, rfl⟩, fun _ h => (List.not_mem_nil h).elim,
      fun _ _ => rfl, rfl, rfl, rfl⟩
  | d :: ds, s, hn => by
    obtain ⟨hd, hn⟩ := List.nodup_cons.mp hn
    obtain ⟨hmove, hfw, hb, hm, hsv⟩ := moveDie_life (dest d) s d
    obtain ⟨hboot, hlov⟩ := moveDie_lov (dest d) s d
    have ih := foldl_moveDie dest ds (moveDie (dest d) s d) hn
    have hother : ∀ e, e ≠ d → aget (moveDie (dest d) s d).life.moving e = aget s.life.moving e ∧
        fwSlot (moveDie (dest d) s d) e = fwSlot s e := fun e he => by
      refine ⟨by rw [hmove, aget_aset_other he], ?_⟩
      unfold fwSlot
      rw [hfw]
      split
      · rfl
      · exact agetD_aset_other _ he ..
    rw [List.foldl_cons]
    refine ⟨fun e he => ?_, fun e he => ?_, fun e he h40 => ?_, fun j hj => ?_, ih.bundles.trans hb, ih.mem.trans hm,
      ih.svnMin.trans hsv⟩
    · rcases List.mem_cons.mp he with rfl | he
      · obtain ⟨h1, h2⟩ := ih.stands e hd
        refine ⟨h1.trans (by rw [hmove, aget_aset_same]), h2.trans ?_⟩
        unfold fwSlot
        rw [hfw]
        split
        · rfl
        · exact agetD_aset_same ..
      · have hne : e ≠ d := fun h => hd (h ▸ he)
        obtain ⟨h1, h2⟩ := ih.moves e he
        exact ⟨h1, h2.trans (by rw [(hother e hne).2])⟩
    · obtain ⟨hne, hmem⟩ := not_or.mp (mt List.mem_cons.mpr he)
      obtain ⟨h1, h2⟩ := ih.stands e hmem
      exact ⟨h1.trans (hother e hne).1, h2.trans (hother e hne).2⟩
    · by_cases hmem : e ∈ ds
      · exact ih.restarts e hmem h40
      · obtain rfl := (List.mem_cons.mp he).resolve_right hmem
        rw [ih.runs (e - 40) (by rwa [Nat.add_sub_cancel' h40])]
        exact hboot h40
    · obtain ⟨hne, hmem⟩ := not_or.mp (mt List.mem_cons.mpr hj)
      exact (ih.runs j hmem).trans (hlov j hne)

/-- The list of named dies holds each once. -/
theorem namedDies_nodup (be : Bool) (b : List Byte) : (namedDies be b).Nodup := List.nodup_range.filter _

/-- A list of dies that move, as the obligations say it. -/
theorem ListMoves.diesMove {s v t : State} {ds : List Nat} {dest : Nat → Nat} {moves : Nat → Prop} (h : ListMoves v t ds dest)
    (hv : v.life = s.life) (hmoves : ∀ d, d ∈ ds ↔ moves d) : DiesMove s t moves dest := by
  have hfw : ∀ d, fwSlot v d = fwSlot s d := fun d => by rw [fwSlot, hv, fwSlot]
  refine ⟨fun d hd hm => ?_, fun d hd _ hm => ?_, fun d hm => ?_, h.bundles.trans (by rw [hv])⟩
  · obtain ⟨h1, h2⟩ := h.moves d ((hmoves d).mpr hm)
    rw [if_pos hd, hfw] at h2
    refine ⟨h1.trans ?_, h2⟩
    have : (d < 32 ∨ 40 ≤ d) ↔ d < 32 := by omega
    simp only [this]
  · obtain ⟨h1, h2⟩ := h.moves d ((hmoves d).mpr hm)
    rw [if_neg (by omega)] at h2
    exact ⟨h1.trans (by rw [if_pos (Or.inr hd)]), h2, h.restarts d ((hmoves d).mpr hm) hd⟩
  · obtain ⟨h1, h2⟩ := h.stands d (mt (hmoves d).mp hm)
    exact ⟨h1.trans (by rw [hv]), h2.trans (hfw d)⟩

/-- The records of a sub-op's dies change neither the life nor the trust block, nor memory. -/
theorem foldl_fwRecord (sub : Nat) (bu : State → Nat → Bundle) (ds : List Nat) (s : State) :
    (ds.foldl (fun s d => fwRecord s sub d (bu s d)) s).life = s.life ∧
    (ds.foldl (fun s d => fwRecord s sub d (bu s d)) s).mem = s.mem ∧
    (ds.foldl (fun s d => fwRecord s sub d (bu s d)) s).trust = s.trust :=
  ⟨foldl_part (·.life) (fun _ _ => fwRecord_life ..) ds s, foldl_part (·.mem) (fun _ _ => fwRecord_mem ..) ds s,
    foldl_part (·.trust) (fun _ _ => fwRecord_trust ..) ds s⟩

/-! ## The effects of the four sub-ops -/

/-- What STAGE does on an opened request. -/
def stageEffect (msg : Nat) (s : State) (m : Msg) (x : Session) (b : List Byte) : State :=
  match inactiveSlot s with
  | none => sealedAnswer s msg m x.id .busy []
  | some k =>
    let f := Config.bundleFacts (b.drop 16)
    if ! (f.1 && (List.range 8).all (fun h => decide (agetD s.trust.svnMin h 0 ≤ f.2.1)) && (nandHub s).isSome) then
      sealedAnswer (freeRefusal s).1 msg m x.id (freeRefusal s).2 []
    else
      sealedAnswer (fwRecord (modLife s fun l =>
        { l with bundles := aset l.bundles k ⟨f.2.2.1, f.2.1, f.2.2.2, true⟩, staged := some k }) 1 0
        ⟨f.2.2.1, f.2.1, f.2.2.2, true⟩) msg m x.id .ok []

/-- The dies that ACTIVATE moves. -/
def activated (s : State) (be : Bool) (b : List Byte) (k : Nat) : List Nat :=
  (namedDies be b).filter fun d => decide (fwSlot s d ≠ k) && (aget s.life.moving d).isNone

/-- What ACTIVATE does. -/
def activateEffect (msg : Nat) (s : State) (m : Msg) (x : Session) (b : List Byte) : State :=
  match s.life.staged with
  | none => sealedAnswer s msg m x.id .bounds []
  | some k =>
    if (activated s m.be b k).any fun d => ! (bundleAt s k).beside.contains (bundleAt s (fwSlot s d)).digest then
      sealedAnswer s msg m x.id .bounds []
    else
      (activated s m.be b k).foldl (fun s d => moveDie k s d)
        (sealedAnswer ((activated s m.be b k).foldl (fun s d => fwRecord s 2 d (bundleAt s k)) s) msg m x.id .ok [])

/-- The dies that REVERT moves. -/
def reverted (s : State) (be : Bool) (b : List Byte) : List Nat :=
  (namedDies be b).filter fun d => (aget s.life.moving d).isNone

/-- What REVERT does. -/
def revertEffect (msg : Nat) (s : State) (m : Msg) (x : Session) (b : List Byte) : State :=
  if (reverted s m.be b).any fun d => ! (bundleAt s (1 - fwSlot s d)).committed then
    sealedAnswer (freeRefusal s).1 msg m x.id (freeRefusal s).2 []
  else
    (reverted s m.be b).foldl (fun t d => moveDie (1 - fwSlot s d) t d)
      (sealedAnswer ((reverted s m.be b).foldl (fun t d => fwRecord t 3 d (bundleAt t (1 - fwSlot s d))) s) msg m x.id .ok [])

/-- What RATIFY does. -/
def ratifyEffect (msg : Nat) (s : State) (m : Msg) (x : Session) (_ : List Byte) : State :=
  match s.life.staged with
  | none => sealedAnswer (freeRefusal s).1 msg m x.id (freeRefusal s).2 []
  | some k =>
    if ! s.life.moving.isEmpty || (List.range 48).any (fun d => decide (fwSlot s d ≠ k)) then sealedAnswer s msg m x.id .busy []
    else
      sealedAnswer (fwRecord (modTrust s fun t =>
        { t with svnMin := (List.range 8).map fun h => (h, max (agetD t.svnMin h 0) (bundleAt s k).svn) }) 4 0
        (bundleAt (modTrust s fun t =>
          { t with svnMin := (List.range 8).map fun h => (h, max (agetD t.svnMin h 0) (bundleAt s k).svn) }) k)) msg m x.id .ok []

theorem exec_stage (msg : Nat) (s : State) : exec (.stage msg) s = firmwareRun s msg 1 (stageEffect msg) := rfl
theorem exec_activate (msg : Nat) (s : State) : exec (.activate msg) s = firmwareRun s msg 2 (activateEffect msg) := rfl
theorem exec_revert (msg : Nat) (s : State) : exec (.revert msg) s = firmwareRun s msg 3 (revertEffect msg) := rfl
theorem exec_ratify (msg : Nat) (s : State) : exec (.ratify msg) s = firmwareRun s msg 4 (ratifyEffect msg) := rfl

/-- No sub-op writes memory, and only RATIFY changes a fused minimum. -/
theorem stageEffect_leaves (msg : Nat) (u : State) (m : Msg) (x : Session) (b : List Byte) :
    (stageEffect msg u m x b).mem = u.mem ∧ (stageEffect msg u m x b).trust.svnMin = u.trust.svnMin := by
  unfold stageEffect
  split
  · exact ⟨sealedAnswer_mem .., sealedAnswer_svnMin ..⟩
  · dsimp only
    split
    · exact ⟨sealedAnswer_mem .., sealedAnswer_svnMin ..⟩
    · exact ⟨by simp, by rw [sealedAnswer_svnMin, fwRecord_trust]; rfl⟩

theorem activateEffect_leaves (msg : Nat) (u : State) (m : Msg) (x : Session) (b : List Byte) :
    (activateEffect msg u m x b).mem = u.mem ∧ (activateEffect msg u m x b).trust.svnMin = u.trust.svnMin := by
  unfold activateEffect
  split
  · exact ⟨sealedAnswer_mem .., sealedAnswer_svnMin ..⟩
  · next k _ =>
    split
    · exact ⟨sealedAnswer_mem .., sealedAnswer_svnMin ..⟩
    · have hm := foldl_moveDie (fun _ => k) (activated u m.be b k)
        (sealedAnswer ((activated u m.be b k).foldl (fun s d => fwRecord s 2 d (bundleAt s k)) u) msg m x.id .ok [])
        ((namedDies_nodup _ _).filter _)
      obtain ⟨-, hmem, htrust⟩ := foldl_fwRecord 2 (fun s _ => bundleAt s k) (activated u m.be b k) u
      exact ⟨hm.mem.trans ((sealedAnswer_mem ..).trans hmem),
        hm.svnMin.trans ((sealedAnswer_svnMin ..).trans (congrArg TrustSt.svnMin htrust))⟩

theorem revertEffect_leaves (msg : Nat) (u : State) (m : Msg) (x : Session) (b : List Byte) :
    (revertEffect msg u m x b).mem = u.mem ∧ (revertEffect msg u m x b).trust.svnMin = u.trust.svnMin := by
  unfold revertEffect
  split
  · exact ⟨sealedAnswer_mem .., sealedAnswer_svnMin ..⟩
  · have hm := foldl_moveDie (fun d => 1 - fwSlot u d) (reverted u m.be b)
      (sealedAnswer ((reverted u m.be b).foldl (fun t d => fwRecord t 3 d (bundleAt t (1 - fwSlot u d))) u) msg m x.id .ok [])
      ((namedDies_nodup _ _).filter _)
    obtain ⟨-, hmem, htrust⟩ := foldl_fwRecord 3 (fun t d => bundleAt t (1 - fwSlot u d)) (reverted u m.be b) u
    exact ⟨hm.mem.trans ((sealedAnswer_mem ..).trans hmem),
      hm.svnMin.trans ((sealedAnswer_svnMin ..).trans (congrArg TrustSt.svnMin htrust))⟩

theorem ratifyEffect_mem (msg : Nat) (u : State) (m : Msg) (x : Session) (b : List Byte) :
    (ratifyEffect msg u m x b).mem = u.mem := by
  unfold ratifyEffect
  split
  · exact sealedAnswer_mem ..
  · split
    · exact sealedAnswer_mem ..
    · simp

theorem agetD_mapRange (g : Nat → Nat) {h : Nat} (hh : h < 8) : agetD ((List.range 8).map fun h => (h, g h)) h 0 = g h := by
  interval_cases h <;> rfl

/-! ## What each sub-op does on its request -/

/-- The taking of a sealed request leaves everything but the sessions. -/
theorem fwOpens_leaves {s u : State} {msg sub : Nat} {m : Msg} {x : Session} {b : List Byte} (h : FwOpens s msg sub m x b u) :
    u.life = s.life ∧ u.trust.svnMin = s.trust.svnMin ∧ nandHub u = nandHub s := by
  obtain ⟨⟨-, -, rfl⟩, -⟩ := h
  exact ⟨rfl, rfl, rfl⟩

theorem bundleAt_congr {s t : State} (h : t.life = s.life) (k : Nat) : bundleAt t k = bundleAt s k := by
  unfold bundleAt
  rw [h]

theorem fwSlot_congr {s t : State} (h : t.life = s.life) (d : Nat) : fwSlot t d = fwSlot s d := by
  unfold fwSlot
  rw [h]

theorem inactiveSlot_congr {s t : State} (h : t.life = s.life) : inactiveSlot t = inactiveSlot s := by
  unfold inactiveSlot fwSlot
  rw [h]

/-- The test of STAGE says that the bundle passes. -/
theorem bundlePasses_iff {s u : State} (hs : u.trust.svnMin = s.trust.svnMin) (hn : nandHub u = nandHub s)
    (f : Bool × Nat × List Byte × List (List Byte)) :
    (f.1 && (List.range 8).all (fun h => decide (agetD u.trust.svnMin h 0 ≤ f.2.1)) && (nandHub u).isSome) = true ↔
      BundlePasses s f := by
  rw [hs, hn]
  unfold BundlePasses
  simp only [Bool.and_eq_true, List.all_eq_true, List.mem_range, decide_eq_true_eq, and_assoc]

theorem stageEffect_spec {s u : State} {msg : Nat} {m : Msg} {x : Session} {b : List Byte} (h : FwOpens s msg 1 m x b u) :
    (inactiveSlot s = none → stageEffect msg u m x b = sealedAnswer u msg m x.id .busy []) ∧
    (∀ k, inactiveSlot s = some k → BundlePasses s (Config.bundleFacts (b.drop 16)) →
      bundleAt (stageEffect msg u m x b) k = ⟨(Config.bundleFacts (b.drop 16)).2.2.1, (Config.bundleFacts (b.drop 16)).2.1,
        (Config.bundleFacts (b.drop 16)).2.2.2, true⟩ ∧
      (stageEffect msg u m x b).life = { s.life with staged := some k, bundles := (stageEffect msg u m x b).life.bundles } ∧
      (∀ i, i ≠ k → bundleAt (stageEffect msg u m x b) i = bundleAt s i)) ∧
    (∀ k, inactiveSlot s = some k → ¬ BundlePasses s (Config.bundleFacts (b.drop 16)) →
      FreelyRefused u (stageEffect msg u m x b) msg m x) := by
  obtain ⟨hl, hs, hn⟩ := fwOpens_leaves h
  have hpass := bundlePasses_iff hs hn (Config.bundleFacts (b.drop 16))
  unfold stageEffect
  rw [inactiveSlot_congr hl]
  refine ⟨fun hk => by rw [hk], fun k hk hp => ?_, fun k hk hp => ?_⟩
  · rw [hk]
    dsimp only
    rw [if_neg (by rw [hpass.mpr hp]; decide)]
    have hlife : ∀ v : State, ∀ bd : Bundle, (sealedAnswer (fwRecord v 1 0 bd) msg m x.id .ok []).life = v.life := fun v bd =>
      (sealedAnswer_life ..).trans (fwRecord_life ..)
    refine ⟨?_, ?_, fun i hi => ?_⟩
    · unfold bundleAt
      rw [hlife, modLife_life]
      exact agetD_aset_same ..
    · rw [hlife, modLife_life, hl]
    · unfold bundleAt
      rw [hlife, modLife_life, hl]
      exact agetD_aset_other _ hi ..
  · rw [hk]
    dsimp only
    rw [if_pos (by rw [Bool.not_eq_true', ← Bool.not_eq_true, hpass]; exact hp)]
    exact freelyRefused u msg m x

theorem mem_activated {u : State} {be : Bool} {b : List Byte} {k d : Nat} :
    d ∈ activated u be b k ↔ d ∈ namedDies be b ∧ fwSlot u d ≠ k ∧ aget u.life.moving d = none := by
  simp only [activated, List.mem_filter, Bool.and_eq_true, decide_eq_true_eq, Option.isNone_iff_eq_none]

theorem activateEffect_spec {s u : State} {msg : Nat} {m : Msg} {x : Session} {b : List Byte} (h : FwOpens s msg 2 m x b u) :
    (s.life.staged = none → activateEffect msg u m x b = sealedAnswer u msg m x.id .bounds []) ∧
    (∀ k d, s.life.staged = some k → d ∈ namedDies m.be b → fwSlot s d ≠ k → aget s.life.moving d = none →
      (bundleAt s (fwSlot s d)).digest ∉ (bundleAt s k).beside →
      activateEffect msg u m x b = sealedAnswer u msg m x.id .bounds []) ∧
    (∀ k, s.life.staged = some k →
      (∀ d ∈ namedDies m.be b, fwSlot s d ≠ k → aget s.life.moving d = none →
        (bundleAt s (fwSlot s d)).digest ∈ (bundleAt s k).beside) →
      DiesMove s (activateEffect msg u m x b)
        (fun d => d ∈ namedDies m.be b ∧ fwSlot s d ≠ k ∧ aget s.life.moving d = none) fun _ => k) := by
  obtain ⟨hl, -, -⟩ := fwOpens_leaves h
  have hb := bundleAt_congr hl
  have hf := fwSlot_congr hl
  have hmem : ∀ k d, d ∈ activated u m.be b k ↔ d ∈ namedDies m.be b ∧ fwSlot s d ≠ k ∧ aget s.life.moving d = none := fun k d => by
    rw [mem_activated, hf, hl]
  unfold activateEffect
  refine ⟨fun hk => by rw [hl, hk], fun k d hk hd hne hmv hbe => ?_, fun k hk hall => ?_⟩
  · rw [hl, hk]
    dsimp only
    rw [if_pos (List.any_eq_true.mpr ⟨d, (hmem k d).mpr ⟨hd, hne, hmv⟩, by rw [hb, hf, hb]; simpa using hbe⟩)]
  · rw [hl, hk]
    dsimp only
    rw [if_neg (by
      rw [List.any_eq_true]
      rintro ⟨d, hd, hbad⟩
      obtain ⟨h1, h2, h3⟩ := (hmem k d).mp hd
      rw [hb, hf, hb] at hbad
      simp [hall d h1 h2 h3] at hbad)]
    have hrec := (foldl_fwRecord 2 (fun s _ => bundleAt s k) (activated u m.be b k) u).1
    exact (foldl_moveDie (fun _ => k) (activated u m.be b k) _ ((namedDies_nodup _ _).filter _)).diesMove
      ((sealedAnswer_life ..).trans (hrec.trans hl)) (hmem k)

theorem mem_reverted {u : State} {be : Bool} {b : List Byte} {d : Nat} :
    d ∈ reverted u be b ↔ d ∈ namedDies be b ∧ aget u.life.moving d = none := by
  simp only [reverted, List.mem_filter, Option.isNone_iff_eq_none]

theorem revertEffect_spec {s u : State} {msg : Nat} {m : Msg} {x : Session} {b : List Byte} (h : FwOpens s msg 3 m x b u) :
    ((∃ d ∈ namedDies m.be b, aget s.life.moving d = none ∧ (bundleAt s (1 - fwSlot s d)).committed = false) →
      FreelyRefused u (revertEffect msg u m x b) msg m x) ∧
    ((∀ d ∈ namedDies m.be b, aget s.life.moving d = none → (bundleAt s (1 - fwSlot s d)).committed = true) →
      DiesMove s (revertEffect msg u m x b) (fun d => d ∈ namedDies m.be b ∧ aget s.life.moving d = none)
        fun d => 1 - fwSlot s d) := by
  obtain ⟨hl, -, -⟩ := fwOpens_leaves h
  have hb := bundleAt_congr hl
  have hf := fwSlot_congr hl
  have hmem : ∀ d, d ∈ reverted u m.be b ↔ d ∈ namedDies m.be b ∧ aget s.life.moving d = none := fun d => by
    rw [mem_reverted, hl]
  unfold revertEffect
  refine ⟨fun ⟨d, hd, hmv, hc⟩ => ?_, fun hall => ?_⟩
  · rw [if_pos (List.any_eq_true.mpr ⟨d, (hmem d).mpr ⟨hd, hmv⟩, by rw [hf, hb, hc]; rfl⟩)]
    exact freelyRefused u msg m x
  · rw [if_neg (by
      rw [List.any_eq_true]
      rintro ⟨d, hd, hbad⟩
      obtain ⟨h1, h2⟩ := (hmem d).mp hd
      rw [hf, hb, hall d h1 h2] at hbad
      exact absurd hbad (by decide))]
    have hrec := (foldl_fwRecord 3 (fun t d => bundleAt t (1 - fwSlot u d)) (reverted u m.be b) u).1
    have hdest : (fun d => 1 - fwSlot u d) = fun d => 1 - fwSlot s d := funext fun d => by rw [hf]
    rw [← hdest]
    exact (foldl_moveDie (fun d => 1 - fwSlot u d) (reverted u m.be b) _ ((namedDies_nodup _ _).filter _)).diesMove
      ((sealedAnswer_life ..).trans (hrec.trans hl)) hmem

theorem ratifyEffect_spec {s u : State} {msg : Nat} {m : Msg} {x : Session} {b : List Byte} (h : FwOpens s msg 4 m x b u) :
    (s.life.staged = none → FreelyRefused u (ratifyEffect msg u m x b) msg m x) ∧
    (∀ k, s.life.staged = some k → (s.life.moving ≠ [] ∨ ∃ d, d < 48 ∧ fwSlot s d ≠ k) →
      ratifyEffect msg u m x b = sealedAnswer u msg m x.id .busy []) ∧
    (∀ k, s.life.staged = some k → s.life.moving = [] → (∀ d, d < 48 → fwSlot s d = k) →
      (ratifyEffect msg u m x b).life = s.life ∧
      ∀ h, h < 8 → agetD (ratifyEffect msg u m x b).trust.svnMin h 0 = max (agetD s.trust.svnMin h 0) (bundleAt s k).svn) := by
  obtain ⟨hl, hs, -⟩ := fwOpens_leaves h
  have hf := fwSlot_congr hl
  have htest : ∀ k, (! u.life.moving.isEmpty || (List.range 48).any fun d => decide (fwSlot u d ≠ k)) = true ↔
      s.life.moving ≠ [] ∨ ∃ d, d < 48 ∧ fwSlot s d ≠ k := fun k => by
    simp only [hl, hf, Bool.or_eq_true, Bool.not_eq_true', List.isEmpty_eq_false_iff, List.any_eq_true, List.mem_range,
      decide_eq_true_eq]
  unfold ratifyEffect
  refine ⟨fun hk => ?_, fun k hk hbusy => ?_, fun k hk hmv hall => ?_⟩
  · rw [hl, hk]
    exact freelyRefused u msg m x
  · rw [hl, hk]
    dsimp only
    rw [← hl, if_pos ((htest k).mpr hbusy)]
  · rw [hl, hk]
    dsimp only
    rw [← hl, if_neg (mt (htest k).mp (by rintro (h | ⟨d, hd, h⟩); exacts [h hmv, h (hall d hd)]))]
    refine ⟨(sealedAnswer_life ..).trans (fwRecord_life ..), fun h hh => ?_⟩
    rw [sealedAnswer_svnMin, fwRecord_trust]
    refine (agetD_mapRange _ hh).trans ?_
    rw [hs, bundleAt_congr hl]

/-! ## The obligation -/

/-- Settles O51: each sub-op runs on its own sealed request (assumptions 41, 109 and 116), and the named dies move one by one
(`foldl_moveDie`). -/
theorem firmwareIsStagedAndActivated : Obligations.FirmwareIsStagedAndActivated := by
  unfold Obligations.FirmwareIsStagedAndActivated
  refine ⟨fun msg sub c m s hc hm => ?_, fun msg m s hm => completes_of_forall (fun _ e => by cases e) fun t ht x b u ho => ?_,
    fun msg m s hm => completes_of_forall (fun _ e => by cases e) fun t ht x b u ho => ?_,
    fun msg m s hm => completes_of_forall (fun _ e => by cases e) fun t ht x b u ho => ?_,
    fun msg m s hm => completes_of_forall (fun _ e => by cases e) fun t ht x b u ho => ?_⟩
  · simp only [fwCmds, List.mem_cons, Prod.mk.injEq, List.not_mem_nil, or_false] at hc
    have hres : ∀ f t, 1 ≤ sub → sub ≤ 4 → firmwareRun s msg sub f = .next t → ∀ x b u, Opens s msg opFirmware m x b u →
        (fld false b 0 1 = 0 ∨ 4 < fld false b 0 1) → t = sealedAnswer u msg m x.id .version [] := fun f t h1 h4 ht x b u ho hb =>
      Host.Outcome.next.inj (ht.symm.trans (firmwareRun_reserved ho hb h1 h4))
    rcases hc with ⟨rfl, rfl⟩ | ⟨rfl, rfl⟩ | ⟨rfl, rfl⟩ | ⟨rfl, rfl⟩
    · refine completes_of_forall (fun _ e => by cases e) fun t ht => ?_
      rw [exec_stage] at ht
      exact ⟨firmwareRun_mem (fun u m x b => (stageEffect_leaves msg u m x b).1) ht,
        fun _ => firmwareRun_svnMin (fun u m x b => (stageEffect_leaves msg u m x b).2) ht, hres _ t (by decide) (by decide) ht⟩
    · refine completes_of_forall (fun _ e => by cases e) fun t ht => ?_
      rw [exec_activate] at ht
      exact ⟨firmwareRun_mem (fun u m x b => (activateEffect_leaves msg u m x b).1) ht,
        fun _ => firmwareRun_svnMin (fun u m x b => (activateEffect_leaves msg u m x b).2) ht, hres _ t (by decide) (by decide) ht⟩
    · refine completes_of_forall (fun _ e => by cases e) fun t ht => ?_
      rw [exec_revert] at ht
      exact ⟨firmwareRun_mem (fun u m x b => (revertEffect_leaves msg u m x b).1) ht,
        fun _ => firmwareRun_svnMin (fun u m x b => (revertEffect_leaves msg u m x b).2) ht, hres _ t (by decide) (by decide) ht⟩
    · refine completes_of_forall (fun _ e => by cases e) fun t ht => ?_
      rw [exec_ratify] at ht
      exact ⟨firmwareRun_mem (ratifyEffect_mem msg) ht, fun h => absurd rfl h, hres _ t (by decide) (by decide) ht⟩
  · rw [exec_stage, firmwareRun_opens ho] at ht
    cases ht
    exact stageEffect_spec ho
  · rw [exec_activate, firmwareRun_opens ho] at ht
    cases ht
    exact activateEffect_spec ho
  · rw [exec_revert, firmwareRun_opens ho] at ht
    cases ht
    exact revertEffect_spec ho
  · rw [exec_ratify, firmwareRun_opens ho] at ht
    cases ht
    exact ratifyEffect_spec ho

end Sys2Proof.Proofs

namespace Sys2Proof.Proofs
open Sys2Proof.Machine Sys2Proof.Laws

/-!
A slice that restarts with two entries for one command slot (O52, 16_lifecycle.md R388). The resident command of the slot ends in FAULT;
the restarted slice then takes its queue, and a second entry of the same number that is QUEUED makes it take that slot and set the first
entry RUNNING. No slot has two entries in a state that a run reaches, but no hypothesis of the statement says so.
-/

/-- Slice 0 restarts into firmware slot 1, 10 ms after its activation. Its command slot 0 is entered as RUNNING, and again as QUEUED. -/
def twiceSlot : State :=
  let s := modLife State.reset fun l =>
    { l with moving := [(0, (1, 1))], hubs := [(0, ⟨10000000, 0, .inService, 0, true, true⟩)] }
  modEng (rset s .dill_lane_en 0 0 1) 0 fun d =>
    { d with slots := [(0, { freeCmd with state := .running }), (0, { freeCmd with state := .queued })] }

/-- The state of slice 0's command slot 0 after a step. -/
def slotAfter : Next → Option CmdState
  | .next t => some (cmdOf (dillOf t 0) 0).state
  | _ => none

theorem twiceSlot_restarts : Restarts twiceSlot 0 1 := by
  unfold Restarts
  decide +kernel

theorem twiceSlot_noScans : NoScans twiceSlot 0 := fun _ hp => (List.not_mem_nil hp).elim

/-- The 10 ms of the resident command are over. -/
theorem twiceSlot_waited : ¬ StillWorks twiceSlot 0 := by
  unfold StillWorks
  decide +kernel

/-- After the restart the slot whose command ended in FAULT runs. -/
theorem twiceSlot_runs : slotAfter (exec (.dieReady 0) twiceSlot) = some .running := by decide +kernel

/-- Refutes O52: a resident command of a slice that restarts is said to be in FAULT afterwards; on `twiceSlot`, which enters the
command's slot a second time as QUEUED, it is RUNNING (`twiceSlot_runs`). -/
theorem not_diesRestartAndTheNodeStarts : ¬ Obligations.DiesRestartAndTheNodeStarts := by
  unfold Obligations.DiesRestartAndTheNodeStarts
  rintro ⟨-, -, hready, -⟩
  obtain ⟨t, ht, -, -, hover⟩ := hready 0 1 twiceSlot twiceSlot_restarts fun _ => twiceSlot_noScans
  obtain ⟨-, -, -, hfault⟩ := hover twiceSlot_waited
  have hslot := hfault (by decide) 0 (by decide +kernel) (Or.inl (by decide +kernel))
  have hruns := twiceSlot_runs
  rw [ht, slotAfter, Option.some_inj] at hruns
  have hstate := congrArg CmdSlot.state hslot
  exact absurd (hruns.symm.trans hstate) (by decide)

end Sys2Proof.Proofs

namespace Sys2Proof.Proofs
open Sys2Proof.Machine Sys2Proof.Laws

/-!
Deltas (O49, 16_lifecycle.md R373 to R375). The four checks of R373 are read off one after another (`firstFail_cons`). A commit writes
the other slot (`commitSlot`); what takes effect after it, a class or a register field, leaves the slots (`slots`).
-/

/-! ## The checks of R373 -/

/-- The first check of R373. -/
def formatBad (s : State) (b : List Byte) : Bool :=
  let h := CfgHdr.parse b
  decide (h.ver ≠ 1) || decide (h.resv ≠ 0) || (decide (h.kind ≠ 1) && decide (h.kind ≠ 2)) || decide (h.count = 0) ||
    decide (9 < h.count) || ((cfgEntries b h).map (·.1)).any (fun c => ! allClasses.contains c) ||
    (decide (h.kind = 1) && ! decide (s.life.node = 1))

/-- The third. -/
def boundsBad (s : State) (b : List Byte) : Bool :=
  let h := CfgHdr.parse b
  let es := cfgEntries b h
  ! bit1 h.partMask s.life.part.code ||
    (if decide (h.kind = 1) then decide (h.base ≠ 0) || allClasses.any (fun c => ! (es.map (·.1)).contains c)
     else decide (h.base ≠ configSeq s) || decide (h.seq ≤ configSeq s)) ||
    es.any (fun e => decide (h.length < e.2.2.1 + e.2.1 + 114) || ! classOk s e.1 (takeBytes b e.2.2.1 e.2.1) ||
      decide (digestOf e.1 (takeBytes b e.2.2.1 e.2.1) ≠ e.2.2.2)) ||
    ! phaseOk s h (es.map (·.1))

theorem checkCfg_eq (s : State) (b : List Byte) : checkCfg s b =
    if formatBad s b = true then .error .version
    else if cfgSigned s b (CfgHdr.parse b) = false then .error .notFound
    else if boundsBad s b = true then .error .bounds
    else if s.life.job.isSome = true then .error .busy
    else .ok (CfgHdr.parse b) := by
  have h : checkCfg s b = match firstFail [(formatBad s b, .version), (! cfgSigned s b (CfgHdr.parse b), .notFound),
      (boundsBad s b, .bounds), (s.life.job.isSome, .busy)] with
    | some st => .error st
    | none => .ok (CfgHdr.parse b) := rfl
  rw [h]
  cases formatBad s b <;> cases cfgSigned s b (CfgHdr.parse b) <;> cases boundsBad s b <;> cases s.life.job.isSome <;> rfl

theorem formatBad_iff (s : State) (b : List Byte) : formatBad s b = true ↔ BadFormat s b := by
  unfold formatBad BadFormat
  simp only [Bool.or_eq_true, Bool.and_eq_true, decide_eq_true_eq, List.any_map, List.any_eq_true, Function.comp_apply,
    Bool.not_eq_true', decide_eq_false_iff_not, List.contains_eq_mem]
  grind

/-- What a delta that passes the third check keeps. -/
theorem boundsBad_false {s : State} {b : List Byte} (h : boundsBad s b = false) :
    (∀ e ∈ cfgEntries b (CfgHdr.parse b), mapMargin s e.1 (takeBytes b e.2.2.1 e.2.1) = true) ∧
    ((CfgHdr.parse b).kind = 2 → (CfgHdr.parse b).base = configSeq s ∧ configSeq s < (CfgHdr.parse b).seq ∧
      ((CfgHdr.parse b).phase = 0 → ∀ e ∈ cfgEntries b (CfgHdr.parse b), critical e.1 = false)) := by
  unfold boundsBad at h
  simp only [Bool.or_eq_false_iff, List.any_eq_false, Bool.or_eq_true, not_or, Bool.not_eq_true', Bool.not_eq_false,
    decide_eq_true_eq, not_lt] at h
  obtain ⟨⟨⟨-, hkind⟩, hentries⟩, hphase⟩ := h
  refine ⟨fun e he => ?_, fun h2 => ?_⟩
  · have hc := (hentries e he).1.2
    unfold classOk at hc
    simp only [Bool.and_eq_true] at hc
    exact hc.1.2
  · rw [if_neg (by simp [h2])] at hkind
    simp only [Bool.or_eq_false_iff, decide_eq_false_iff_not, not_not, not_le] at hkind
    refine ⟨hkind.1, hkind.2, fun h0 e he => ?_⟩
    unfold phaseOk at hphase
    rw [if_neg (by omega), if_pos h0] at hphase
    rw [Bool.not_eq_false'] at hphase
    have hall := List.all_eq_true.mp hphase e.1 (List.mem_map_of_mem he)
    rwa [Bool.not_eq_true'] at hall

/-! ## Fields and classes that take effect (16_lifecycle.md R368) -/

theorem trainPort_life (s : State) (p : Nat) : (trainPort s p).life = s.life := by
  unfold trainPort
  dsimp only
  split
  · exact (bump_life (fresh (fresh s).2).2 .port_LINK_RETRAINS p :)
  · rfl

theorem bankRequest_life (s : State) (d b req : Nat) : (bankRequest s d b req).life = s.life := by
  unfold bankRequest
  dsimp only
  (repeat' split) <;> first | rfl | simp

/-- A field takes its value without a change of the life cycle. -/
theorem putField_life (s : State) (r : Reg) (inst e v : Nat) : (putField s r inst e v).life = s.life := by
  unfold putField
  split
  · split <;> rfl
  split
  · unfold holdWrite
    exact foldl_part (·.life) (fun s h => (congrArg State.life (refillTo_leaves s h).rest :)) _ s
  split
  · rw [(settleLevels_only _).rest]
    rfl
  split
  · exact bankRequest_life ..
  · split
    · unfold enableRing
      split <;> rfl
    · rfl
  · rfl
  · rfl
  · split <;> rfl
  · split
    · unfold maxSpeed
      dsimp only
      split
      · exact trainPort_life ..
      · rfl
    · rfl
  · split <;> rfl
  · split <;> rfl
  · rfl
  · split <;> rfl

/-- The life cycle apart from the profile that a NODE class selects. -/
def profileless (l : LifeSt) : LifeSt := { l with full := false, fullNext := false }

theorem takeField_life (s : State) (b : List Byte) (start : Bool) (r : Reg) (p : Nat × Nat) :
    (takeField s b start r p).life = s.life := by
  unfold takeField
  split
  · rfl
  · dsimp only
    split
    · rfl
    split
    · rfl
    · exact putField_life ..

theorem loadImage_life (s : State) (n : Nat) (b : List Byte) : (loadImage s n b).1.life = s.life := by
  unfold loadImage
  split
  · rfl
  · unfold installProg removeProg
    split <;> rfl

/-- A class that takes effect leaves the slots and the delta in progress. -/
theorem applyClass_life (start : Bool) (s : State) (c : Nat) : profileless (applyClass start s c).life = profileless s.life := by
  unfold applyClass
  extract_lets b s1
  have h1 : s1.life = s.life :=
    foldl_part (·.life) (fun s r => foldl_part (·.life) (fun s p => takeField_life s b start r p) _ s) _ s
  clear_value s1
  split
  · unfold takeProfile
    dsimp only
    split
    · rw [journal_life, modLife_life, h1]
      rfl
    · rw [modLife_life, h1]
      rfl
  split
  · unfold takePrograms
    exact congrArg profileless ((foldl_part (·.life) (fun s (p : Nat × List Byte) => loadImage_life s p.1 p.2) _ s1).trans h1)
  · rw [h1]

/-! ## The commit (16_lifecycle.md R374) -/

theorem answerDelta_life (s : State) (j : DeltaJob) : (answerDelta s j).life = s.life := by
  unfold answerDelta
  split
  · rfl
  split
  · rfl
  · dsimp only
    split
    · exact mgmtAnswer_life ..
    · exact sealedAnswer_life ..

/-- What a delta takes effect on leaves the slots. -/
theorem commitDelta_life {s : State} {j : DeltaJob} (hj : j.image = false) :
    profileless (commitDelta s j).life = profileless (commitSlot s j).life := by
  unfold commitDelta
  extract_lets old cs s1 s2 s3
  rw [if_neg (by simp [hj])]
  have h2 : profileless s2.life = profileless s1.life := by
    unfold s2
    split
    · exact foldl_part (fun s => profileless s.life) (fun s c => applyClass_life false s c) _ s1
    · exact congrArg profileless (foldl_part (·.life) (fun s (f : Reg × Nat × Nat × Nat) => putField_life s f.1 f.2.1 f.2.2.1 f.2.2.2) _ s1)
  have h3 : profileless s3.life = profileless s2.life := congrArg profileless (answerDelta_life s2 j)
  split
  · exact h3.trans h2
  · exact h3.trans h2

/-- The slot that a commit writes. -/
def committedSlot (s : State) (j : DeltaJob) : CfgSlot :=
  { seq := j.seq, signer := j.signer, partMask := j.partMask, bodies := nextBodies s j, committed := true, good := true }

theorem commitSlot_life (s : State) (j : DeltaJob) : (commitSlot s j).life = { s.life with
    slot := 1 - s.life.slot, cfg := aset s.life.cfg (1 - s.life.slot) (committedSlot s j), alt := (nextAlt s j).1,
    crit := (nextAlt s j).2, job := none, binding := (commitSlot s j).life.binding } := by
  unfold commitSlot
  dsimp only
  rw [journal_life, bump_life, modLife_life]
  rfl

/-- After the commit of a delta. -/
theorem commitDelta_slots {s : State} {j : DeltaJob} (hj : j.image = false) :
    (commitDelta s j).life.slot = 1 - s.life.slot ∧ (commitDelta s j).life.job = none ∧
    (commitDelta s j).life.cfg = aset s.life.cfg (1 - s.life.slot) (committedSlot s j) ∧
    (commitDelta s j).life.alt = (nextAlt s j).1 ∧ (commitDelta s j).life.crit = (nextAlt s j).2 ∧
    cfgSlot (commitDelta s j) = committedSlot s j := by
  have h := commitDelta_life (s := s) hj
  have hl := commitSlot_life s j
  have hs : (commitDelta s j).life.slot = 1 - s.life.slot :=
    (congrArg LifeSt.slot h :).trans (congrArg LifeSt.slot hl :)
  have hc : (commitDelta s j).life.cfg = aset s.life.cfg (1 - s.life.slot) (committedSlot s j) :=
    (congrArg LifeSt.cfg h :).trans (congrArg LifeSt.cfg hl :)
  refine ⟨hs, (congrArg LifeSt.job h :).trans (congrArg LifeSt.job hl :), hc,
    (congrArg LifeSt.alt h :).trans (congrArg LifeSt.alt hl :), (congrArg LifeSt.crit h :).trans (congrArg LifeSt.crit hl :), ?_⟩
  unfold cfgSlot
  rw [hs, hc, agetD_aset_same]

/-- Committing an image takes the dies' state. -/
theorem commitDelta_image {s : State} {j : DeltaJob} (hj : j.image = true) :
    commitDelta s j = loseDies (answerDelta (commitSlot s j) j) := by
  unfold commitDelta
  exact if_pos hj

/-! ## A delta is accepted (16_lifecycle.md R373) -/

/-- The delta in progress that the bytes of one give. -/
def deltaJob (msg : Nat) (b : List Byte) (h : CfgHdr) : DeltaJob :=
  ⟨msg, h.seq, h.signer, h.phase, cfgBodies b h, decide (h.kind = 1), h.partMask, false, []⟩

theorem startDelta_eq (s : State) (msg : Nat) (b : List Byte) (h : CfgHdr) :
    startDelta s msg b h = setPhase (modLife s fun l => { l with job := some (deltaJob msg b h) }) msg .waitCommit := rfl

/-- What CONFIG_DELTA does with the bytes of a delta that no session seals. -/
def bareDelta (msg : Nat) (s : State) (m : Msg) (_ : MgmtHdr) : State :=
  match checkCfg s (m.payload.drop 16) with
  | .error st => mgmtAnswer (bump s .life_DELTAS_REFUSED 0) msg m st []
  | .ok h => startDelta s msg (m.payload.drop 16) h

/-- What it does with those of a sealed one. -/
def sealedDelta (msg : Nat) (s : State) (m : Msg) (x : Session) (b : List Byte) : State :=
  match checkCfg s b with
  | .error st => sealedAnswer (bump s .life_DELTAS_REFUSED 0) msg m x.id st []
  | .ok h => startDelta s msg b h

theorem exec_configDelta_bare {s : State} {msg : Nat} {m : Msg} (hm : msgOf s msg = some m) (hb : BareImage s m) :
    exec (.configDelta msg) s = mgmtRun s msg opConfigDelta (bareDelta msg) := by
  dsimp only [exec]
  unfold execConfigDelta
  rw [hm]
  dsimp only
  exact if_pos (by simp [hb.1, hb.2])

theorem exec_configDelta_sealed {s : State} {msg : Nat} {m : Msg} (hm : msgOf s msg = some m) (hb : ¬ BareImage s m) :
    exec (.configDelta msg) s = sessionRun s msg opConfigDelta (fun _ => true) (sealedDelta msg) := by
  dsimp only [exec]
  unfold execConfigDelta
  rw [hm]
  dsimp only
  exact if_neg (by simpa [BareImage] using hb)

/-- A delta that comes in leaves memory and the slots. -/
theorem bareDelta_leaves (msg : Nat) (s : State) (m : Msg) (h : MgmtHdr) : (bareDelta msg s m h).mem = s.mem ∧
    (bareDelta msg s m h).life.cfg = s.life.cfg ∧ (bareDelta msg s m h).life.slot = s.life.slot := by
  unfold bareDelta
  split
  · simp
  · rw [startDelta_eq, setPhase_mem, setPhase_life]
    exact ⟨rfl, rfl, rfl⟩

theorem sealedDelta_leaves (msg : Nat) (s : State) (m : Msg) (x : Session) (b : List Byte) : (sealedDelta msg s m x b).mem = s.mem ∧
    (sealedDelta msg s m x b).life.cfg = s.life.cfg ∧ (sealedDelta msg s m x b).life.slot = s.life.slot := by
  unfold sealedDelta
  split
  · simp
  · rw [startDelta_eq, setPhase_mem, setPhase_life]
    exact ⟨rfl, rfl, rfl⟩

theorem configDelta_leaves {s t : State} {msg : Nat} {m : Msg} (hm : msgOf s msg = some m)
    (h : exec (.configDelta msg) s = .next t) : t.mem = s.mem ∧ t.life.cfg = s.life.cfg ∧ t.life.slot = s.life.slot := by
  by_cases hb : BareImage s m
  · rw [exec_configDelta_bare hm hb] at h
    exact ⟨mgmtRun_part (·.mem) (by simp) (fun m hd => (bareDelta_leaves msg s m hd).1) h,
      mgmtRun_part (·.life.cfg) (by simp) (fun m hd => (bareDelta_leaves msg s m hd).2.1) h,
      mgmtRun_part (·.life.slot) (by simp) (fun m hd => (bareDelta_leaves msg s m hd).2.2) h⟩
  · rw [exec_configDelta_sealed hm hb] at h
    have part : ∀ {β : Type} (g : State → β), (∀ s m st b, g (mgmtAnswer s msg m st b) = g s) →
        (∀ s r, g (bumpPrimary s r) = g s) → (∀ s sid, g (endSession s sid) = g s) → (∀ s x n, g (takeSealed s x n) = g s) →
        (∀ u m x b, g (sealedDelta msg u m x b) = g u) → g t = g s := fun g ha hbp he ht hf => sessionRun_part g ha hbp he ht hf h
    exact ⟨part (·.mem) (by simp) (by simp) (by simp) (by simp) fun u m x b => (sealedDelta_leaves msg u m x b).1,
      part (·.life.cfg) (by simp) (by simp) (by simp) (by simp) fun u m x b => (sealedDelta_leaves msg u m x b).2.1,
      part (·.life.slot) (by simp) (by simp) (by simp) (by simp) fun u m x b => (sealedDelta_leaves msg u m x b).2.2⟩

/-- A sealed delta that passes waits for its commit. -/
theorem sealedDelta_accepted {s u : State} {msg : Nat} {m : Msg} {x : Session} {b : List Byte} {h : CfgHdr}
    (ho : Opens s msg opConfigDelta m x b u) (hc : checkCfg u b = .ok h) :
    (sealedDelta msg u m x b).out = s.out ∧ (sealedDelta msg u m x b).regs = s.regs ∧
    (msgOf (sealedDelta msg u m x b) msg).map (·.phase) = some .waitCommit ∧
    (sealedDelta msg u m x b).life = { s.life with job := some (deltaJob msg b h) } := by
  have he : sealedDelta msg u m x b = startDelta u msg b h := by
    unfold sealedDelta
    rw [hc]
  obtain ⟨⟨hm, -, -, -⟩, -, rfl⟩ := ho
  rw [he, startDelta_eq, setPhase_regs, setPhase_life]
  refine ⟨setPhase_part (·.out) (fun _ _ _ => rfl) (by simp) .., rfl, setPhase_phase _ (m := m) (msgOf_of_mayStart hm) rfl, rfl⟩

/-! ## The obligation -/

/-- Settles O49: the checks in their order, the delta that waits, and the other slot (assumptions 113 and 115). -/
theorem deltasAreCheckedAndCommitted : Obligations.DeltasAreCheckedAndCommitted := by
  unfold Obligations.DeltasAreCheckedAndCommitted
  refine ⟨fun s b => ⟨fun h => ?_, fun h hs => ?_, fun h hc => ?_⟩, fun msg m s hm => ?_, fun s h => ?_, fun j s hj hn => ?_⟩
  · rw [checkCfg_eq, if_pos ((formatBad_iff s b).mpr h)]
  · rw [checkCfg_eq, if_neg (mt (formatBad_iff s b).mp h), if_pos hs]
  · rw [checkCfg_eq] at hc
    split at hc
    · cases hc
    next hf =>
    split at hc
    · cases hc
    next hs =>
    split at hc
    · cases hc
    next hb =>
    split at hc
    · cases hc
    next hjob =>
    cases hc
    obtain ⟨hmap, hkind⟩ := boundsBad_false (Bool.not_eq_true _ ▸ hb)
    exact ⟨mt (formatBad_iff s b).mpr hf, rfl, by simpa using hs, by simpa using hjob, hmap, hkind⟩
  · have hmsg := msgOf_of_mayStart hm
    refine completes_of_forall (fun _ e => by cases e) fun t ht => ?_
    obtain ⟨hmem, hcfg, hslot⟩ := configDelta_leaves hmsg ht
    refine ⟨hmem, hcfg, hslot, fun st hb hreq hc => ?_, fun x b u st hb ho hc => ?_, fun x b u h hb ho hc => ?_⟩
    · rw [exec_configDelta_bare hmsg hb, mgmtRun_req hreq (by decide)] at ht
      cases ht
      unfold bareDelta
      rw [hc]
    · rw [exec_configDelta_sealed hmsg hb, sessionRun_opens ho (by decide)] at ht
      cases ht
      unfold sealedDelta
      rw [hc]
    · rw [exec_configDelta_sealed hmsg hb, sessionRun_opens ho (by decide)] at ht
      cases ht
      obtain ⟨hout, hregs, hphase, hlife⟩ := sealedDelta_accepted ho hc
      exact ⟨hout, hregs, hphase, _, hlife, rfl, rfl, rfl, rfl, rfl, rfl, rfl⟩
  · refine completes_of_exec ?_ rfl
    dsimp only [exec]
    unfold execDeltaCommit
    rcases h with h | h
    · rw [h]
    · split
      · rfl
      · rw [if_pos (by rw [h]; rfl)]
  · have hexec : exec .deltaCommit s = .next (commitDelta s j) := by
      dsimp only [exec]
      unfold execDeltaCommit
      rw [hj]
      exact if_neg (by rw [Option.isNone_iff_eq_none]; exact Option.isSome_iff_ne_none.mp hn)
    refine completes_of_exec hexec ⟨fun hi hs => ?_, fun c body hf hs => ?_, fun hi => ?_⟩
    · obtain ⟨hslot, hjob, hcfg, -, -, hcs⟩ := commitDelta_slots (s := s) hi
      refine ⟨hslot, hjob, by rw [configSeq, hcs]; rfl, by rw [hcs]; rfl, by rw [hcs]; rfl, ?_⟩
      rw [hcfg, aget_aset_other (by omega)]
    · obtain ⟨hi, hp, hbodies, -⟩ := hf
      obtain ⟨-, -, -, halt, hcrit, hcs⟩ := commitDelta_slots (s := s) hi
      have hnext : nextBodies s j = aset (cfgSlot s).bodies c body := by
        unfold nextBodies
        simp [hi, hp, hbodies]
      have hnalt : nextAlt s j = (s.life.alt, s.life.crit) := by
        unfold nextAlt
        simp [hp]
      rw [halt, hcrit, hcs, hnalt, committedSlot, hnext]
      exact ⟨agetD_aset_same .., fun d hd => agetD_aset_other _ hd .., rfl, rfl⟩
    · rw [commitDelta_image hi]
      exact ⟨rfl, rfl⟩

end Sys2Proof.Proofs

namespace Sys2Proof.Proofs
open Sys2Proof.Machine Sys2Proof.Laws

/-!
Register words (O46, 14_host.md R321, R338, R340; 16_lifecycle.md R373). A word that is one field's comes to one of four: a field of no
class is written at once (`writeNode_now`), one of a critical class refused (`writeNode_critical`), one of another class becomes a delta
or is refused (`fieldDelta_one`). A function's own block holds registers of no other.
-/

/-! ## Fields of a word -/

theorem mem_fieldsAt {b : Blk} {off : Nat} {x : Reg × Nat} (h : x ∈ fieldsAt b off) : x.1 ∈ Reg.ofBlk b := by
  unfold fieldsAt at h
  obtain ⟨r, hr, e⟩ := List.mem_filterMap.mp h
  dsimp only at e
  obtain ⟨-, e⟩ := Option.ite_none_right_eq_some.mp e
  cases e
  exact hr

theorem mem_wordParts {b : Blk} {off v : Nat} {x : Reg × Nat × Nat} (h : x ∈ wordParts b off v) :
    x.1 ∈ Reg.ofBlk b ∧ x.2.2 < 2 ^ x.1.width := by
  obtain ⟨y, hy, rfl⟩ := List.mem_map.mp h
  exact ⟨mem_fieldsAt hy, Nat.mod_lt _ (Nat.two_pow_pos _)⟩

theorem mem_allBlks (b : Blk) : b ∈ allBlks := by cases b <;> decide

theorem ofBlk_blk (b : Blk) : ∀ r ∈ Reg.ofBlk b, r.info.blk = b := by
  have h : ∀ b ∈ allBlks, ∀ r ∈ Reg.ofBlk b, r.info.blk = b := by decide +kernel
  exact h b (mem_allBlks b)

/-- The registers of a function's block have an instance for each function, start nothing and wait for nothing. -/
theorem ofBlk_fn : ∀ r ∈ Reg.ofBlk .fn, r.info.wide = false ∧ r.info.acc ≠ .w1s ∧ measured r = false ∧ heldField r = false ∧
    levelField r = false ∧ r.info.sel ≠ .kernel := by decide +kernel

/-! ## One field is written -/

/-- A plain field takes the value. -/
theorem putField_plain {r : Reg} (hp : plainField r = true) (hb : r.info.blk ≠ .fn) (s : State) (inst e v : Nat) :
    putField s r inst e v = rset s r inst e v := by
  unfold plainField at hp
  simp only [Bool.and_eq_true, decide_eq_true_eq, Bool.not_eq_true', List.contains_eq_mem, decide_eq_false_iff_not] at hp
  obtain ⟨⟨⟨⟨⟨⟨-, -⟩, hm⟩, hh⟩, hl⟩, hk⟩, hne⟩ := hp
  unfold putField
  rw [if_neg (by simp [hm]), if_neg (by simp [hh]), if_neg (by simp [hl])]
  split
  case h_1 => exact absurd (by decide) hne
  case h_2 | h_3 | h_4 | h_5 => exact absurd rfl hb
  case h_6 | h_7 | h_8 | h_9 => exact absurd (by decide) hne
  case h_10 => exact if_neg fun h => hk h.1

theorem plainField_facts {r : Reg} (hp : plainField r = true) :
    r.info.acc = .rw ∧ r.info.cls = 0 ∧ r ≠ .life_census_valid := by
  unfold plainField at hp
  simp only [Bool.and_eq_true, decide_eq_true_eq, Bool.not_eq_true', List.contains_eq_mem, decide_eq_false_iff_not] at hp
  obtain ⟨⟨⟨⟨⟨⟨ha, hc⟩, -⟩, -⟩, -⟩, -⟩, hne⟩ := hp
  exact ⟨ha, hc, fun h => hne (h ▸ List.mem_cons_self ..)⟩

theorem putField_cells (s : State) (r : Reg) (inst e v : Nat) (hr : r ≠ .mem_bank_request) :
    (putField s r inst e v).mem.cells = s.mem.cells := by
  unfold putField
  split
  · split <;> rfl
  split
  · unfold holdWrite
    exact foldl_part (·.mem.cells) (fun s h => (congrArg (·.mem.cells) (refillTo_leaves s h).rest :)) _ s
  split
  · rw [(settleLevels_only _).cells_eq]
    rfl
  split
  · exact absurd rfl hr
  · split
    · unfold enableRing
      split <;> rfl
    · rfl
  · rfl
  · rfl
  · split <;> rfl
  · split
    · unfold maxSpeed
      dsimp only
      split
      · rw [(trainPort_eq _ _).2.1]
        rfl
      · rfl
    · rfl
  · split <;> rfl
  · split <;> rfl
  · rfl
  · split <;> rfl

theorem writeField_cells {r : Reg} (ha : r.info.acc ≠ .w1s) (hr : r ≠ .mem_bank_request) (s : State) (hub inst k v : Nat) :
    (writeField s hub r inst k v).mem.cells = s.mem.cells := by
  unfold writeField
  dsimp only
  split
  · rfl
  · rfl
  · next e => exact absurd e ha
  · split
    · split <;> rfl
    · exact putField_cells s r inst _ v hr

/-- What a store of one field is: the value, and every other field's. -/
theorem rset_one (s : State) (r : Reg) (inst e v : Nat) (hv : v < 2 ^ r.width) :
    rset s r inst e v = { s with regs := (rset s r inst e v).regs } ∧ rget (rset s r inst e v) r inst e = v ∧
    ∀ y, y ≠ (r, regInst r inst, e) → aget (rset s r inst e v).regs y = aget s.regs y :=
  ⟨rfl, by rw [rget_rset_same, Nat.mod_eq_of_lt hv], fun _ hy => aget_aset_other hy ..⟩

/-! ## A word of one field (16_lifecycle.md R373) -/

section
variable {s : State} {p : Nat} {b : Blk} {inst o v msg signer : Nat} {silent : Bool} {r : Reg} {k w : Nat}

theorem OneField.mem (h : OneField b o v r k w) : r ∈ Reg.ofBlk b ∧ w < 2 ^ r.width :=
  mem_wordParts (x := (r, k, w)) (by rw [show wordParts b o v = _ from h]; exact List.mem_singleton_self _)

/-- A field of no class is written at once. -/
theorem writeNode_now (h : OneField b o v r k w) (hc : r.info.cls = 0) (ha : r.info.acc ≠ .w1s) :
    writeNode s p b inst o v msg signer silent = (writeField s (portHub p) r inst k w, .ok) := by
  unfold writeNode classParts
  rw [show wordParts b o v = [(r, k, w)] from h]
  simp [hc, ha, gatesRefused]

/-- A word of a critical class is refused. -/
theorem writeNode_critical (h : OneField b o v r k w) (hc : critical r.info.cls = true) :
    writeNode s p b inst o v msg signer silent = (bump s .life_DELTAS_REFUSED 0, .bounds) := by
  have h0 : r.info.cls ≠ 0 := fun e => by rw [e] at hc; exact absurd hc (by decide)
  unfold writeNode classParts
  rw [show wordParts b o v = [(r, k, w)] from h]
  simp [hc, h0]

/-- The delta that a field of another class asks for. -/
theorem fieldDelta_one (hc : critical r.info.cls = false) : fieldDelta s inst [(r, k, w)] =
    if Config.bodyOk r.info.cls (newBody s r inst k w) = false then .error .bounds
    else if s.life.job.isSome = true then .error .busy
    else .ok ([(r.info.cls, newBody s r inst k w)], [(r, regInst r inst, entryOf s r inst k, w)]) := by
  unfold fieldDelta
  rw [if_neg (by simp [hc])]
  change (if ([(r.info.cls, newBody s r inst k w)].any fun p => ! Config.bodyOk p.1 p.2) = true then _ else _) = _
  simp only [List.any_cons, List.any_nil, Bool.or_false, Bool.not_eq_true']
  rfl

theorem writeNode_refused (h : OneField b o v r k w) (h0 : r.info.cls ≠ 0) (hc : critical r.info.cls = false) {e : Status}
    (hd : fieldDelta s inst [(r, k, w)] = .error e) :
    writeNode s p b inst o v msg signer silent = (bump s .life_DELTAS_REFUSED 0, e) := by
  unfold writeNode classParts
  rw [show wordParts b o v = [(r, k, w)] from h]
  simp [hc, h0, gatesRefused, hd]

theorem writeNode_started (h : OneField b o v r k w) (h0 : r.info.cls ≠ 0) (hc : critical r.info.cls = false)
    {bodies : Assoc Nat (List Byte)} {fs : List (Reg × Nat × Nat × Nat)} (hd : fieldDelta s inst [(r, k, w)] = .ok (bodies, fs)) :
    writeNode s p b inst o v msg signer silent = (startFieldDelta s msg signer silent bodies fs, .ok) := by
  unfold writeNode classParts
  rw [show wordParts b o v = [(r, k, w)] from h]
  simp [hc, h0, gatesRefused, hd]

end

/-- What a word of one field leaves of page memory. -/
theorem writeNode_cells {s : State} {p : Nat} {b : Blk} {inst o v msg signer : Nat} {silent : Bool} {r : Reg} {k w : Nat}
    (h : OneField b o v r k w) (ha : r.info.acc ≠ .w1s) (hr : r ≠ .mem_bank_request) :
    (writeNode s p b inst o v msg signer silent).1.mem.cells = s.mem.cells := by
  by_cases h0 : r.info.cls = 0
  · rw [writeNode_now h h0 ha]
    exact writeField_cells ha hr ..
  cases hc : critical r.info.cls with
  | true =>
    rw [writeNode_critical h hc]
    rfl
  | false =>
    cases hd : fieldDelta s inst [(r, k, w)] with
    | error e =>
      rw [writeNode_refused h h0 hc hd]
      rfl
    | ok d =>
      rw [writeNode_started h h0 hc hd]
      rfl

/-! ## A function's own block (14_host.md R340) -/

/-- A field of a function's block is written among its registers and rings. -/
structure OwnWrite (s t : State) (p f : Nat) : Prop where
  rest : t = { s with regs := t.regs, host := t.host }
  others : ∀ r i e, (r.info.blk ≠ .fn ∨ i ≠ fnInst p f) → rget t r i e = rget s r i e
  counters : ∀ r e, r.info.acc = .w1c → rget t r (fnInst p f) e = rget s r (fnInst p f) e

namespace OwnWrite
variable {a s t : State} {p f : Nat}

theorem refl (s : State) : OwnWrite s s p f := ⟨rfl, fun _ _ _ _ => rfl, fun _ _ _ => rfl⟩

theorem trans (x : OwnWrite a s p f) (y : OwnWrite s t p f) : OwnWrite a t p f :=
  ⟨by rw [y.rest, x.rest], fun r i e h => (y.others r i e h).trans (x.others r i e h),
    fun r e h => (y.counters r e h).trans (x.counters r e h)⟩

theorem foldl {α : Type} {g : State → α → State} {l : List α} (hg : ∀ s, ∀ x ∈ l, OwnWrite s (g s x) p f) (s : State) :
    OwnWrite s (l.foldl g s) p f := by
  induction l generalizing s with
  | nil => exact refl s
  | cons x l ih =>
    exact (hg s x (List.mem_cons_self ..)).trans (ih (fun s y hy => hg s y (List.mem_cons_of_mem _ hy)) _)

end OwnWrite

/-- One of a function's registers that is no counter is stored. -/
theorem rset_own {r : Reg} (hr : r ∈ Reg.ofBlk .fn) (ha : r.info.acc = .rw) (s : State) (p f e v : Nat) :
    OwnWrite s (rset s r (fnInst p f) e v) p f := by
  obtain ⟨hw, -⟩ := ofBlk_fn r hr
  refine ⟨rfl, fun r' i e' h => rget_rset_other s v fun he => ?_, fun r' e' h => rget_rset_other s v fun he => ?_⟩
  · obtain ⟨rfl, hi⟩ := Prod.mk.inj he
    obtain ⟨hi, -⟩ := Prod.mk.inj hi
    unfold regInst at hi
    rw [hw] at hi
    exact h.elim (fun h => h (ofBlk_blk .fn _ hr)) fun h => h hi
  · obtain ⟨rfl, -⟩ := Prod.mk.inj he
    exact absurd (ha.symm.trans h) (by decide)

theorem putField_own {r : Reg} (hr : r ∈ Reg.ofBlk .fn) (ha : r.info.acc = .rw) (s : State) {p f : Nat} (hf : f < 64) (e v : Nat) :
    OwnWrite s (putField s r (fnInst p f) e v) p f := by
  obtain ⟨-, -, hm, hh, hl, hk⟩ := ofBlk_fn r hr
  have hb := ofBlk_blk .fn r hr
  have hp : fnInst p f / 64 = p ∧ fnInst p f % 64 = f := by unfold fnInst; omega
  have hset := rset_own hr ha
  unfold putField
  rw [if_neg (by simp [hm]), if_neg (by simp [hh]), if_neg (by simp [hl]), hp.1, hp.2]
  split
  · cases hb
  · split
    · unfold enableRing
      split
      · exact .refl s
      · exact (hset s p f e 1).trans ⟨rfl, fun _ _ _ _ => rfl, fun _ _ _ => rfl⟩
    · exact hset ..
  · exact hset ..
  · exact hset ..
  · split
    · exact hset ..
    · exact .refl s
  · cases hb
  · cases hb
  · cases hb
  · cases hb
  · rw [if_neg fun h => hk h.1]
    exact hset ..

theorem writeField_own {r : Reg} (hr : r ∈ Reg.ofBlk .fn) (ha : r.info.acc ≠ .w1c) (s : State) (hub : Nat) {p f : Nat} (hf : f < 64)
    (k v : Nat) : OwnWrite s (writeField s hub r (fnInst p f) k v) p f := by
  obtain ⟨-, hs, -⟩ := ofBlk_fn r hr
  unfold writeField
  dsimp only
  split
  · exact .refl s
  · next e => exact absurd e ha
  · next e => exact absurd e hs
  · next e =>
    rw [if_neg fun h => by subst h; exact absurd (ofBlk_blk .fn _ hr) (by decide)]
    exact putField_own hr e s hf _ v

/-- A VF's write changes fields of its own block that are no counters. -/
theorem writeOwn_own (s : State) {p f : Nat} (h0 : f ≠ 0) (hf : f < 64) (off v : Nat) : OwnWrite s (writeOwn s p f off v) p f := by
  unfold writeOwn
  extract_lets full xs last
  have hmem : ∀ x ∈ xs, x.1 ∈ Reg.ofBlk .fn ∧ x.1.info.acc ≠ .w1c := fun x hx => by
    obtain ⟨hx, hp⟩ := List.mem_filter.mp hx
    exact ⟨(mem_wordParts hx).1, by simpa [full, h0] using hp⟩
  refine OwnWrite.foldl (fun s x hx => ?_) s
  have hx' : x ∈ xs := by
    rcases List.mem_append.mp hx with h | h <;> exact (List.mem_filter.mp h).1
  exact writeField_own (hmem x hx').1 (hmem x hx').2 s _ hf _ _

/-! ## The two commands -/

theorem exec_wordWrites {p : Port} {f : Fn} {off : Nat} {v : BitVec 32} {ide : Option Nat} {c : Instr}
    (hc : c ∈ wordWrites p f off v ide) (s : State) : exec c s =
      if takesTlp s p.val f.val ide then .next (barWrite s p.val f.val off v.toNat) else .next (untaken s p.val f.val) := by
  simp only [wordWrites, List.mem_cons, List.not_mem_nil, or_false] at hc
  rcases hc with rfl | rfl <;> rfl

/-- Settles O46: a function's own block (`writeOwn_own`) and the four kinds of a word of one field (assumptions 102 and 175). -/
theorem registerWordsAreWritten : Obligations.RegisterWordsAreWritten := by
  unfold Obligations.RegisterWordsAreWritten
  refine ⟨fun p f off v ide c s hc => ?_, fun p f off v ide b inst o r k w nb c s hc hop h hnb => ?_⟩
  · have he := exec_wordWrites hc s
    cases ht : takesTlp s p.val f.val ide with
    | false =>
      rw [ht, if_neg (by decide)] at he
      exact completes_of_exec he ⟨fun _ => rfl, nofun, nofun, nofun, nofun⟩
    | true =>
      rw [ht, if_pos rfl] at he
      refine completes_of_exec he ⟨nofun, fun _ h0 hb => ?_, fun b inst o _ h0 hb hn hr => ?_,
        fun inst o _ h0 hb hi hs => ?_, fun _ h0 => ?_⟩
      · unfold barWrite
        rw [if_neg (by simpa using h0), hb]
      · unfold barWrite
        rw [if_neg (by simpa using h0), hb]
        dsimp only
        rw [if_neg hn, if_pos (by simpa using hr)]
      · unfold barWrite
        rw [if_neg (by simpa using h0), hb]
        dsimp only
        rw [if_pos rfl, if_neg hi]
        unfold writeOther
        rw [hs]
        rfl
      · unfold barWrite
        rw [if_pos h0]
        obtain ⟨hrest, hothers, hcounters⟩ := writeOwn_own s (p := p.val) h0 f.isLt off v.toNat
        exact ⟨hrest, hothers, hcounters⟩
  · obtain ⟨ht, h0, hb, hn, hs, hp⟩ := hop
    obtain ⟨hmem, hw⟩ := OneField.mem h
    have he : exec c s = .next (writeNode s p.val b inst o v.toNat 0 (pfKey s) true).1 := by
      rw [exec_wordWrites hc s, ht, if_pos rfl]
      unfold barWrite
      rw [if_neg (by simpa using h0), hb]
      dsimp only
      rw [if_neg hn, if_neg (by simp [hs, hp])]
    refine completes_of_exec he ⟨fun ha hr => writeNode_cells h ha hr, fun hc0 ha => ?_, fun hc0 ha => ?_, fun hpl => ?_,
      fun hcr => ?_, fun hc0 hcr hok hj => ?_, fun hc0 hcr hbad => ?_⟩
    · rw [writeNode_now h hc0 (by simp [ha])]
      unfold writeField
      rw [ha]
    · rw [writeNode_now h hc0 (by simp [ha])]
      unfold writeField
      rw [ha]
      exact rset_one _ _ _ _ _ (lt_of_le_of_lt Nat.and_le_right (by have := Nat.two_pow_pos r.width; omega))
    · obtain ⟨ha, hc0, hne⟩ := plainField_facts hpl
      rw [writeNode_now h hc0 (by simp [ha])]
      unfold writeField
      rw [ha]
      dsimp only
      rw [if_neg hne, putField_plain hpl (by rw [ofBlk_blk b r hmem]; exact hn)]
      exact rset_one _ _ _ _ _ hw
    · rw [writeNode_critical h hcr]
    · have hd := fieldDelta_one (s := s) (inst := inst) (k := k) (w := w) hcr
      rw [if_neg (by rw [← hnb, hok]; decide), if_neg (by rw [hj]; decide)] at hd
      rw [writeNode_started h hc0 hcr hd]
      exact ⟨rfl, _, rfl, rfl, rfl, rfl, rfl, rfl, rfl, by rw [hnb]⟩
    · have hd := fieldDelta_one (s := s) (inst := inst) (k := k) (w := w) hcr
      have herr : ∃ e, fieldDelta s inst [(r, k, w)] = .error e := by
        rw [hd, ← hnb]
        split
        · exact ⟨_, rfl⟩
        · next hok => exact ⟨_, if_pos (hbad.resolve_left hok)⟩
      obtain ⟨e, hd⟩ := herr
      rw [writeNode_refused h hc0 hcr hd]

end Sys2Proof.Proofs

namespace Sys2Proof.Proofs
open Sys2Proof.Machine Sys2Proof.Laws

/-!
Registers over an operator session (O47, 15_trust.md R351, R352). A sealed request opens, and REG_WRITE then writes as a word of the
primary port's PF is written (O46); what it answers is the status of that write, but where a delta names the request.
-/

/-! ## REG_READ -/

theorem readReg_mem (s : State) (p off : Nat) : (readReg s p off).1.mem = s.mem := by
  unfold readReg
  split
  · rfl
  · dsimp only
    unfold latchRead
    split
    · rfl
    split
    · unfold latchSummary
      dsimp only
      split <;> rfl
    split
    · rfl
    · rfl

/-- What REG_READ does with its request. -/
def readEffect (msg : Nat) (s : State) (m : Msg) (x : Session) (b : List Byte) : State :=
  if b.length ≠ 4 ∨ ! regOffsetOk (fld m.be b 0 4) then sealedAnswer s msg m x.id .bounds []
  else sealedAnswer (readReg s (primaryPort s) (fld m.be b 0 4)).1 msg m x.id .ok
    (put m.be 4 (readReg s (primaryPort s) (fld m.be b 0 4)).2)

theorem exec_regRead (msg : Nat) (s : State) :
    exec (.regRead msg) s = sessionRun s msg opRegRead (fun _ => true) (readEffect msg) := rfl

theorem readEffect_mem (msg : Nat) (s : State) (m : Msg) (x : Session) (b : List Byte) : (readEffect msg s m x b).mem = s.mem := by
  unfold readEffect
  split
  · exact sealedAnswer_mem ..
  · exact (sealedAnswer_mem ..).trans (readReg_mem ..)

/-! ## REG_WRITE -/

/-- What REG_WRITE does with its request. -/
def writeEffect (msg : Nat) (s : State) (m : Msg) (x : Session) (b : List Byte) : State :=
  if b.length ≠ 8 ∨ ! regOffsetOk (fld m.be b 0 4) then sealedAnswer s msg m x.id .bounds []
  else sessionWrite s msg m x (fld m.be b 0 4) (fld m.be b 4 4)

theorem exec_regWrite (msg : Nat) (s : State) :
    exec (.regWrite msg) s = sessionRun s msg opRegWrite (fun _ => true) (writeEffect msg) := rfl

/-- The answer to a write of a node block: the status of the write, but where the delta names the request. -/
def wordAnswer (msg : Nat) (m : Msg) (x : Session) (r : State × Status) : State :=
  if r.2 = .ok ∧ r.1.life.job.map (·.msg) = some msg then setPhase r.1 msg .waitCommit else sealedAnswer r.1 msg m x.id r.2 []

theorem writeEffect_field {u : State} {msg : Nat} {m : Msg} {x : Session} {b : List Byte} {blk : Blk} {inst o : Nat} {r : Reg}
    {k w : Nat} (h : SessionField m b u blk inst o r k w) : writeEffect msg u m x b =
      wordAnswer msg m x (writeNode u (primaryPort u) blk inst o (fld m.be b 4 4) msg x.keyIdx false) := by
  obtain ⟨hl, ho, hb, hn, -⟩ := h
  unfold writeEffect sessionWrite
  rw [if_neg (by simp [hl, ho])]
  dsimp only
  rw [hb]
  dsimp only
  rw [if_neg hn]
  generalize writeNode u (primaryPort u) blk inst o (fld m.be b 4 4) msg x.keyIdx false = y
  obtain ⟨v, st⟩ := y
  unfold wordAnswer
  cases st <;> simp

theorem wordAnswer_cells (msg : Nat) (m : Msg) (x : Session) (r : State × Status) :
    (wordAnswer msg m x r).mem.cells = r.1.mem.cells := by
  unfold wordAnswer
  split
  · rw [setPhase_mem]
  · rw [sealedAnswer_mem]

/-- A write whose delta is not the request's is answered with its status. -/
theorem wordAnswer_sealed {msg : Nat} {v : State} (m : Msg) (x : Session) (st : Status)
    (h : v.life.job.map (·.msg) ≠ some msg) : wordAnswer msg m x (v, st) = sealedAnswer v msg m x.id st [] :=
  if_neg fun hc => h hc.2

theorem wordAnswer_refused {msg : Nat} (v : State) (m : Msg) (x : Session) {st : Status} (h : st ≠ .ok) :
    wordAnswer msg m x (v, st) = sealedAnswer v msg m x.id st [] := if_neg fun hc => h hc.1

/-- The request of a delta waits for its commit. -/
theorem wordAnswer_started {s u : State} {msg : Nat} {m : Msg} {x : Session} {signer : Nat} {bodies : Assoc Nat (List Byte)}
    {fs : List (Reg × Nat × Nat × Nat)} {b : List Byte} (ho : Opens s msg opRegWrite m x b u) :
    let t := wordAnswer msg m x (startFieldDelta u msg signer false bodies fs, .ok)
    t.out = s.out ∧ t.regs = s.regs ∧ (msgOf t msg).map (·.phase) = some .waitCommit ∧
    t.life = { s.life with job := some ⟨msg, configSeq s + 1, signer, 0, bodies, false, (cfgSlot s).partMask, false, fs⟩ } := by
  obtain ⟨⟨hm, -, -, -⟩, -, rfl⟩ := ho
  have ht : wordAnswer msg m x (startFieldDelta (takeSealed s x (MgmtHdr.parse m.be m.payload).seq) msg signer false bodies fs, .ok) =
      setPhase (startFieldDelta (takeSealed s x (MgmtHdr.parse m.be m.payload).seq) msg signer false bodies fs) msg .waitCommit :=
    if_pos ⟨rfl, rfl⟩
  dsimp only
  rw [ht, setPhase_regs, setPhase_life]
  exact ⟨setPhase_part (·.out) (fun _ _ _ => rfl) (by simp) .., rfl, setPhase_phase _ (m := m) (msgOf_of_mayStart hm) rfl, rfl⟩

/-- Settles O47: both commands run on a request that opens (assumption 109), and a word is written as O46 has it. -/
theorem sessionsReadAndWriteRegisters : Obligations.SessionsReadAndWriteRegisters := by
  unfold Obligations.SessionsReadAndWriteRegisters
  refine ⟨fun msg m s hm => completes_of_forall (fun _ e => by cases e) fun t ht => ?_,
    fun msg m s hm => completes_of_forall (fun _ e => by cases e) fun t ht x b u ho => ?_⟩
  · rw [exec_regRead] at ht
    refine ⟨sessionRun_mem (readEffect_mem msg) ht, fun x b u ho => ?_⟩
    rw [sessionRun_opens ho (by decide)] at ht
    cases ht
    unfold readEffect
    refine ⟨fun hb => if_pos (by simpa using hb), fun hl hr => if_neg (by simp [hl, hr]), fun hl hr hp => ?_⟩
    have hread : readReg u (primaryPort u) (fld m.be b 0 4) = (u, 0) := by
      unfold readReg
      rw [hp]
    rw [if_neg (by simp [hl, hr]), hread]
  · rw [exec_regWrite, sessionRun_opens ho (by decide)] at ht
    cases ht
    refine ⟨fun hb => ?_, fun hl hr hp => ?_, fun blk inst o r k w nb h hnb hjob => ?_⟩
    · unfold writeEffect
      exact if_pos (by simpa using hb)
    · unfold writeEffect sessionWrite
      rw [if_neg (by simp [hl, hr])]
      dsimp only
      rw [hp]
    · rw [writeEffect_field h]
      obtain ⟨-, -, -, hn, hone⟩ := h
      obtain ⟨hmem, hw⟩ := OneField.mem hone
      have hcells : u.mem.cells = s.mem.cells := by
        obtain ⟨-, -, rfl⟩ := ho
        rfl
      have hd := fun hcr => fieldDelta_one (s := u) (inst := inst) (k := k) (w := w) (r := r) hcr
      rw [← hnb] at hd
      refine ⟨fun ha hr => ?_, fun hc0 ha => ?_, fun hc0 ha => ?_, fun hpl => ?_, fun hcr => ?_, fun hc0 hcr hok => ?_,
        fun hc0 hcr hok hj => ?_, fun hc0 hcr hok hj => ?_⟩
      · rw [wordAnswer_cells, writeNode_cells hone ha hr, hcells]
      · rw [writeNode_now hone hc0 (by simp [ha])]
        unfold writeField
        rw [ha]
        exact wordAnswer_sealed m x _ hjob
      · rw [writeNode_now hone hc0 (by simp [ha])]
        unfold writeField
        rw [ha]
        exact wordAnswer_sealed m x _ hjob
      · obtain ⟨ha, hc0, hne⟩ := plainField_facts hpl
        rw [writeNode_now hone hc0 (by simp [ha])]
        unfold writeField
        rw [ha]
        dsimp only
        rw [if_neg hne, putField_plain hpl (by rw [ofBlk_blk blk r hmem]; exact hn)]
        exact wordAnswer_sealed m x _ hjob
      · rw [writeNode_critical hone hcr, wordAnswer_refused _ _ _ (by decide)]
      · rw [writeNode_refused hone hc0 hcr ((hd hcr).trans (if_pos hok)), wordAnswer_refused _ _ _ (by decide)]
      · rw [writeNode_refused hone hc0 hcr ((hd hcr).trans ((if_neg (by simp [hok])).trans (if_pos hj))),
          wordAnswer_refused _ _ _ (by decide)]
      · rw [writeNode_started hone hc0 hcr ((hd hcr).trans ((if_neg (by simp [hok])).trans (if_neg (by simp [hj]))))]
        obtain ⟨hout, hregs, hphase, hlife⟩ := wordAnswer_started (signer := x.keyIdx) (bodies := [(r.info.cls, nb)])
          (fs := [(r, regInst r inst, entryOf u r inst k, w)]) ho
        exact ⟨hout, hregs, hphase, _, hlife, rfl, rfl, rfl, rfl, rfl, rfl⟩

end Sys2Proof.Proofs

namespace Sys2Proof.Proofs
open Sys2Proof.Machine Sys2Proof.Laws

/-!
Regions (O16, 11_remote_access.md R249 to R253, R263, R264). A change of the index leaves everything else (`InIndex`); the release of a
region's memory leaves every entry but where it lies and how many accesses it counts (`cores`). What a revocation does to an entry is
then read off its last steps.
-/

/-! ## The index -/

/-- From s to t only the index and registers have changed. -/
def InIndex (s t : State) : Prop := t = { s with chive := t.chive, regs := t.regs }

theorem InIndex.refl (s : State) : InIndex s s := rfl

theorem InIndex.trans {a s t : State} (f : InIndex a s) (g : InIndex s t) : InIndex a t := by
  unfold InIndex at *
  rw [g, f]

section
variable {s t : State} (h : InIndex s t)
include h

theorem InIndex.mem : t.mem = s.mem := (congrArg State.mem h :)
theorem InIndex.dill : t.dill = s.dill := (congrArg State.dill h :)
theorem InIndex.regn : t.regn = s.regn := (congrArg State.regn h :)
theorem InIndex.msgs : t.msgs = s.msgs := (congrArg State.msgs h :)

theorem InIndex.regionOf_eq (i : Nat) : regionOf t i = regionOf s i := by
  unfold regionOf
  rw [h.regn]

end

theorem IndexOnly.inIndex {h : Nat} {s t : State} (f : IndexOnly h s t) : InIndex s t := f.rest

theorem InIndex.of_eq {β : Type} {s t : State} {p : State × β} {r : β} (h : InIndex s p.1) (e : p = (t, r)) : InIndex s t := by
  subst e
  exact h

theorem InIndex.foldl {α : Type} {f : State → α → State} (hf : ∀ s x, InIndex s (f s x)) : ∀ (l : List α) (s : State),
    InIndex s (l.foldl f s)
  | [], s => refl s
  | x :: l, s => (hf s x).trans (foldl hf l (f s x))

theorem insertAll_inIndex : ∀ (hs : List Nat) (row : ChiveRow) (s : State), InIndex s (insertAll s hs row).1
  | [], _, s => .refl s
  | h :: hs, row, s => by
    unfold insertAll
    split
    · next e =>
      have h1 := (insert_index s h row).inIndex.of_eq e
      split
      · next e' => exact h1.trans ((insertAll_inIndex hs row _).of_eq e')
      · next e' => exact (h1.trans ((insertAll_inIndex hs row _).of_eq e')).trans (delete_index ..).inIndex
    · next e => exact (insert_index s h row).inIndex.of_eq e

theorem dropName_inIndex (s : State) (i : Nat) : InIndex s (dropName s i) := by
  unfold dropName
  split
  · exact .refl s
  · split
    · refine .foldl (fun s h => ?_) _ s
      split
      · exact (delete_index ..).inIndex
      · exact .refl s
    · exact .refl s

theorem registerSeq_inIndex (s : State) (m : Msg) (x : RegRec) : InIndex s (registerSeq s m x).1 := by
  unfold registerSeq
  split
  · exact .refl s
  · split
    · next e => exact (findSeq_index ..).inIndex.of_eq e
    · next e => exact (findSeq_index ..).inIndex.of_eq e
    · next e =>
      have h := (findSeq_index s m.hub m.tenant x.target).inIndex.of_eq e
      split
      · exact h
      · split <;> exact h

/-- An entry after another version's row has taken its name. -/
def loseName (i tenant name prio j : Nat) (r : Region) : Region :=
  if decide (j ≠ i) && decide (r.state ≠ 0) && r.named && decide (r.tenant = tenant) && decide (r.name = name) &&
    decide (r.prio = prio) then { r with named := false, name := 0 } else r

/-- A name row in the index takes the name of another version of its priority, and changes nothing else of an entry. -/
theorem insertName_regions (s : State) (tenant name prio i gen : Nat) :
    (insertName s tenant name prio i gen).1.mem = s.mem ∧ (insertName s tenant name prio i gen).1.dill = s.dill ∧
    ∀ j, (regionOf (insertName s tenant name prio i gen).1 j).map unnamed = (regionOf s j).map unnamed := by
  unfold insertName
  have hi := insertAll_inIndex (liveHubs s) ⟨nameKey tenant name, clsRegion, prio, regionKey i gen⟩ s
  split
  · next v e =>
    have hv : InIndex s v := hi.of_eq e
    refine ⟨hv.mem, hv.dill, fun j => ?_⟩
    have heq : (v.regn.regions.map fun p => if (decide (p.1 ≠ i) && decide (p.2.state ≠ 0) && p.2.named &&
        decide (p.2.tenant = tenant) && decide (p.2.name = name) && decide (p.2.prio = prio)) = true then
          (p.1, { p.2 with named := false, name := 0 }) else p) =
        s.regn.regions.map fun p => (p.1, loseName i tenant name prio p.1 p.2) := by
      rw [hv.regn]
      refine List.map_congr_left fun p _ => ?_
      unfold loseName
      split <;> rfl
    unfold regionOf
    dsimp only [modRegn_regn]
    rw [heq, aget_mapKey (loseName i tenant name prio), Option.map_map]
    refine Option.map_congr fun r _ => ?_
    dsimp only [Function.comp_apply]
    unfold loseName
    split <;> rfl
  · exact ⟨hi.mem, hi.dill, fun j => by rw [hi.regionOf_eq]⟩

/-! ## Answers -/

theorem countRefusal_msgs (s : State) (hub : Nat) (st : Status) : (countRefusal s hub st).msgs = s.msgs := by
  cases st <;> rfl

/-- An answer to a control record takes its message from the queue. -/
theorem answerControl_msgs (s : State) (id : Nat) (st : Status) (key count : Nat) :
    (answerControl s id st key count).msgs = adel s.msgs id := by
  unfold answerControl
  split
  · next h => exact (adel_eq_self h).symm
  · dsimp only
    rw [answer_msgs]
    split
    · rfl
    · rw [countRefusal_msgs]

theorem answerControl_part {β : Type} (g : State → β) (hb : ∀ s r i, g (bump s r i) = g s)
    (ha : ∀ s id op st n b, g (answer s id op st n b) = g s) (s : State) (id : Nat) (st : Status) (key count : Nat) :
    g (answerControl s id st key count) = g s := by
  unfold answerControl
  split
  · rfl
  · dsimp only
    rw [ha]
    split
    · rfl
    · cases st <;> first | exact hb .. | rfl

theorem answerControl_regn (s : State) (id : Nat) (st : Status) (key count : Nat) :
    (answerControl s id st key count).regn = s.regn := answerControl_part (·.regn) (by simp) (by simp) s id st key count

theorem answerControl_mem (s : State) (id : Nat) (st : Status) (key count : Nat) :
    (answerControl s id st key count).mem = s.mem := answerControl_part (·.mem) (by simp) (by simp) s id st key count

theorem regionOf_congr {s t : State} (h : t.regn = s.regn) (i : Nat) : regionOf t i = regionOf s i := by
  unfold regionOf
  rw [h]

/-- Several messages are answered. -/
def answerAll (s : State) (l : List Nat) (key : Nat) : State := l.foldl (fun s w => answerControl s w .ok key 0) s

theorem answerAll_regn (s : State) (l : List Nat) (key : Nat) : (answerAll s l key).regn = s.regn :=
  foldl_part (·.regn) (fun _ _ => answerControl_regn ..) l s

theorem answerAll_mem (s : State) (l : List Nat) (key : Nat) : (answerAll s l key).mem = s.mem :=
  foldl_part (·.mem) (fun _ _ => answerControl_mem ..) l s

/-- None of them is in the queue afterwards, and none comes back. -/
theorem answerAll_gone (key : Nat) : ∀ (l : List Nat) (s : State) (id : Nat), (id ∈ l ∨ msgOf s id = none) →
    msgOf (answerAll s l key) id = none
  | [], _, _, h => h.resolve_left List.not_mem_nil
  | w :: l, s, id, h => by
    refine answerAll_gone key l (answerControl s w .ok key 0) id ?_
    by_cases he : id = w
    · subst he
      exact .inr (by rw [msgOf, answerControl_msgs, aget_adel_same])
    · refine (h.imp_left fun hm => (List.mem_cons.mp hm).resolve_left he).imp_right fun hn => ?_
      rw [msgOf, answerControl_msgs, aget_adel_other he]
      exact hn

/-! ## A region's memory is released (R263 step 5) -/

/-- A region apart from where it lies and how many accesses it counts. -/
def coreOf (r : Region) : Region := { r with target := 0, inflight := 0 }

/-- The table of regions in these terms. -/
def cores (s : State) : RegnSt := { s.regn with regions := s.regn.regions.map fun p => (p.1, coreOf p.2) }

theorem cores_of_aside {s t : State} (h : aside t = aside s) : cores t = cores s := by
  have hc : ∀ v : State, cores v =
      { (aside v).regn with regions := (aside v).regn.regions.map fun p => (p.1, coreOf p.2) } := fun v => by
    unfold cores aside
    dsimp only
    rw [List.map_map]
    rfl
  rw [hc, hc, h]

theorem cores_of_regn {s t : State} (h : t.regn = s.regn) : cores t = cores s := by
  unfold cores
  rw [h]

theorem cores_region {s t : State} (h : cores t = cores s) (i : Nat) : (regionOf t i).map coreOf = (regionOf s i).map coreOf := by
  have hm := congrArg (fun x => aget x.regions i) h
  unfold cores at hm
  dsimp only at hm
  rwa [aget_map, aget_map] at hm

theorem leaveRegion_cores (s : State) (i : Nat) : cores (leaveRegion s i) = cores s := by
  have h : ∀ l : Assoc Nat Region, (amod l i fun r => { r with inflight := r.inflight - 1 }).map (fun p => (p.1, coreOf p.2)) =
      l.map fun p => (p.1, coreOf p.2) := by
    intro l
    unfold amod
    rw [List.map_map]
    refine List.map_congr_left fun p _ => ?_
    dsimp only [Function.comp_apply]
    split <;> rfl
  unfold cores leaveRegion modRegion
  rw [modRegn_regn]
  dsimp only
  rw [h]

theorem answerSnap_cores (s : State) (x : Snapshot) (got : Except Status (List Byte)) : cores (answerSnap s x got) = cores s := by
  have hr : ∀ (v : State) (id : Nat) (st : Status) (key : Nat) (b : List Byte), (answerRead v id st key b).regn = v.regn := by
    intro v id st key b
    unfold answerRead
    split
    · rfl
    · dsimp only
      rw [answer_regn]
      split
      · exact bump_regn ..
      · cases st <;> rfl
  unfold answerSnap
  dsimp only
  split
  · exact leaveRegion_cores ..
  · cases got with
    | ok b => exact (cores_of_regn (hr ..)).trans (leaveRegion_cores ..)
    | error st => exact (cores_of_regn (hr ..)).trans (leaveRegion_cores ..)

theorem dropSnap_regn (s : State) (k : Nat) (x : Snapshot) : (dropSnap s k x).regn = s.regn := by
  unfold dropSnap
  dsimp only
  split <;> rfl

theorem snapshotCopy_cores (s : State) (k : Nat) : cores (snapshotCopy s k) = cores s := by
  unfold snapshotCopy
  split
  · rfl
  · next x hx =>
    split
    · rfl
    · dsimp only
      refine (answerSnap_cores ..).trans
        ((cores_of_regn ?_).trans (cores_of_aside (view_aside s (snapAddr s x) x.len readPool)))
      split
      · unfold rmax
        split <;> simp [dropSnap_regn]
      · exact dropSnap_regn ..

theorem lowerFences_cores (s : State) (a n : Nat) : cores (lowerFences s a n) = cores s :=
  foldl_part cores (fun _ _ => snapshotCopy_cores ..) _ s

theorem clearSlot_regn (s : State) (lpn : Nat) : (clearSlot s lpn).regn = s.regn := by
  have hf : ∀ (v : State) (a gen : Nat), (freeHeader v a gen).regn = v.regn := fun v a gen => poke_regn ..
  unfold clearSlot
  split
  · rfl
  · dsimp only
    rw [modMem_regn, foldl_part (·.regn) (fun _ _ => hf ..), hf, scrub_regn]

theorem freeSram_regn (s : State) (a : Nat) : (freeSram s a).regn = s.regn :=
  freeSram_part (·.regn) (fun _ _ => rfl) scrub_regn (fun _ _ _ _ => rfl) s a

theorem releaseRegion_cores (s : State) (r : Region) : cores (releaseRegion s r) = cores s := by
  unfold releaseRegion freeSlot
  split
  · exact (cores_of_regn (clearSlot_regn ..)).trans (lowerFences_cores ..)
  · split
    · exact cores_of_regn ((scrub_regn ..).trans (freeSram_regn ..))
    · rfl

/-- Without fences the release leaves the table as it stands. -/
theorem releaseRegion_regn {s : State} (h : s.dill.snaps = []) (r : Region) : (releaseRegion s r).regn = s.regn := by
  unfold releaseRegion freeSlot
  rw [lowerFences_clean h]
  split
  · exact clearSlot_regn ..
  · split
    · exact (scrub_regn ..).trans (freeSram_regn ..)
    · rfl

/-! ## A revocation ends (R263 steps 5 to 7) -/

theorem regionOf_modRegion_other {i j : Nat} (h : j ≠ i) (s : State) (f : Region → Region) :
    regionOf (modRegion s i f) j = regionOf s j := aget_amod_other h f s.regn.regions

theorem coreOf_state {r q : Region} (h : coreOf q = coreOf r) : q.gen = r.gen := (congrArg Region.gen h :)

/-- Before its waiters are answered. -/
def revoked (s : State) (i : Nat) (r : Region) : State :=
  let v := releaseRegion (bump s .region_REVOKES (waiterHub s r.waiters.head?)) r
  modRegion (modRegn v fun x => { x with clock := v.regn.clock + 1 }) i fun r =>
    { r with state := 0, named := false, name := 0, freedAt := v.regn.clock + 1, waiters := [] }

theorem endRevoke_eq (s : State) (i : Nat) (r : Region) :
    endRevoke s i r = answerAll (revoked s i r) r.waiters (regionKey i r.gen) := rfl

/-- What stands of an entry when its revocation has ended. -/
def Freed (t : State) (i gen : Nat) : Prop :=
  ∃ e, regionOf t i = some e ∧ e.state = 0 ∧ e.named = false ∧ e.waiters = [] ∧ e.gen = gen

theorem endRevoke_freed {s : State} {i : Nat} {r : Region} (hr : regionOf s i = some r) : Freed (endRevoke s i r) i r.gen := by
  have hc := cores_region ((releaseRegion_cores (bump s .region_REVOKES (waiterHub s r.waiters.head?)) r).trans
    (cores_of_regn (bump_regn ..))) i
  rw [hr] at hc
  obtain ⟨q, hq, he⟩ := Option.map_eq_some_iff.mp hc
  rw [endRevoke_eq, Freed, regionOf_congr (answerAll_regn ..)]
  exact ⟨_, regionOf_modRegion_same _ hq, rfl, rfl, rfl, (coreOf_state he :)⟩

theorem endRevoke_clock (s : State) (i : Nat) (r : Region) : (endRevoke s i r).regn.clock = s.regn.clock + 1 := by
  have hc := congrArg RegnSt.clock ((releaseRegion_cores (bump s .region_REVOKES (waiterHub s r.waiters.head?)) r).trans
    (cores_of_regn (bump_regn ..)))
  rw [endRevoke_eq, answerAll_regn]
  exact congrArg (· + 1) hc

theorem endRevoke_answers (s : State) (i : Nat) (r : Region) (w : Nat) (h : w ∈ r.waiters) : msgOf (endRevoke s i r) w = none := by
  rw [endRevoke_eq]
  exact answerAll_gone _ _ _ _ (.inl h)

theorem endRevoke_other {s : State} (h : s.dill.snaps = []) (i : Nat) (r : Region) {j : Nat} (hj : j ≠ i) :
    regionOf (endRevoke s i r) j = regionOf s j := by
  rw [endRevoke_eq, regionOf_congr (answerAll_regn ..), revoked, regionOf_modRegion_other hj]
  have hv := (releaseRegion_regn (s := bump s .region_REVOKES (waiterHub s r.waiters.head?)) (h) r).trans (bump_regn ..)
  exact (congrArg (fun x => aget x.regions j) hv :)

theorem measureRevoke_regn (s : State) (r : Region) : (measureRevoke s r).regn = s.regn := by
  unfold measureRevoke rmax
  split
  · split <;> simp
  · rfl

theorem measureRevoke_dill (s : State) (r : Region) : (measureRevoke s r).dill = s.dill := by
  unfold measureRevoke rmax
  split
  · split <;> rfl
  · rfl

theorem measureRevoke_mem (s : State) (r : Region) : (measureRevoke s r).mem = s.mem := by
  unfold measureRevoke rmax
  split
  · split <;> rfl
  · rfl

section
variable {s : State} {i : Nat} {r : Region} (hr : regionOf s i = some r)
include hr

theorem finishRevoke_stands (h : ¬ (r.state = 2 ∧ r.inflight = 0)) : finishRevoke s i = s := by
  unfold finishRevoke
  rw [hr]
  dsimp only
  rw [if_pos]
  by_cases hs : r.state = 2
  · exact .inr fun hi => h ⟨hs, hi⟩
  · exact .inl hs

theorem finishRevoke_frees (hs : r.state = 2) (hi : r.inflight = 0) (hn : r.reReg = none) :
    finishRevoke s i = endRevoke (measureRevoke s r) i r := by
  unfold finishRevoke
  rw [hr]
  dsimp only
  rw [if_neg (by simp [hs, hi]), hn]

theorem finishRevoke_returns (hs : r.state = 2) (hi : r.inflight = 0) {b : List Byte} {w : Nat} {be : Bool}
    (hn : r.reReg = some (b, w, be)) :
    finishRevoke s i = endReregister (measureRevoke s r) i r (RegRec.parse be b) w := by
  unfold finishRevoke
  rw [hr]
  dsimp only
  rw [if_neg (by simp [hs, hi]), hn]

end

/-! ## A revocation starts (R263 steps 1 to 4) -/

/-- The entry that a revocation makes REVOKING. -/
def revokingEntry (r : Region) (w : Nat) (x : Option (List Byte × Nat × Bool)) (at_ h : Nat) : Region :=
  { r with state := 2, waiters := r.waiters ++ [w], reReg := x, revokedAt := at_, revHub := h }

/-- What an ACTIVE entry's revocation by a message makes of the state before it may end. -/
def revoking (s : State) (i w : Nat) (x : Option (List Byte × Nat × Bool)) : State :=
  let v := dropName s i
  let h := waiterHub v (some w)
  setPhase (modRegion v i fun r => revokingEntry r w x (now v h) h) w (.waitRevoke i)

section
variable {s : State} {i w : Nat} {x : Option (List Byte × Nat × Bool)}

theorem startRevoke_active {r : Region} (hr : regionOf s i = some r) (hs : r.state = 1) :
    startRevoke s i (some w) x = finishRevoke (revoking s i w x) i := by
  unfold startRevoke
  rw [hr]
  dsimp only
  rw [hs]
  rfl

theorem setPhase_regn (s : State) (id : Nat) (p : Phase) : (setPhase s id p).regn = s.regn :=
  setPhase_part (·.regn) (fun _ _ _ => rfl) freeUnits_regn s id p

theorem revoking_entry {r : Region} (hr : regionOf s i = some r) :
    ∃ a h, regionOf (revoking s i w x) i = some (revokingEntry r w x a h) := by
  refine ⟨now (dropName s i) (waiterHub (dropName s i) (some w)), waiterHub (dropName s i) (some w), ?_⟩
  rw [revoking, regionOf_congr (setPhase_regn ..)]
  exact regionOf_modRegion_same _ (((dropName_inIndex s i).regionOf_eq i).trans hr)

theorem revoking_other {j : Nat} (hj : j ≠ i) : regionOf (revoking s i w x) j = regionOf s j := by
  rw [revoking, regionOf_congr (setPhase_regn ..), regionOf_modRegion_other hj, (dropName_inIndex s i).regionOf_eq]

theorem revoking_clock : (revoking s i w x).regn.clock = s.regn.clock := by
  rw [revoking, setPhase_regn]
  exact (congrArg RegnSt.clock (dropName_inIndex s i).regn :)

theorem revoking_mem : (revoking s i w x).mem = s.mem := (setPhase_mem ..).trans (dropName_inIndex s i).mem

theorem revoking_dill : (revoking s i w x).dill = s.dill := (setPhase_dill ..).trans (dropName_inIndex s i).dill

theorem revoking_phase {m : Msg} (hm : msgOf s w = some m) :
    (msgOf (revoking s i w x) w).map (·.phase) = some (.waitRevoke i) := by
  have h : msgOf (dropName s i) w = some m := by
    rw [msgOf, (dropName_inIndex s i).msgs]
    exact hm
  exact setPhase_phase (.waitRevoke i) h rfl

end

/-! ## A REREGISTER ends -/

/-- The entry that a REREGISTER without a name leaves. -/
def returned (r : Region) (x : RegRec) : Region :=
  { r with state := 1, gen := nextRegionGen r.gen, read := x.read, write := x.write, named := false, prio := x.prio, name := 0,
           waiters := [], reReg := none }

/-- Without a name in the record the entry comes back and everyone that waits is answered. -/
theorem endReregister_unnamed (s : State) (i : Nat) (r : Region) {x : RegRec} (w : Nat) (hx : x.named = false) :
    endReregister s i r x w =
      answerAll (answerControl (bump (modRegion s i fun _ => returned r x) .region_REGISTERS
        (waiterHub (modRegion s i fun _ => returned r x) r.waiters.head?)) w .ok (regionKey i (nextRegionGen r.gen)) r.length)
        (r.waiters.filter fun v => decide (v ≠ w)) (regionKey i r.gen) := by
  unfold endReregister
  rw [hx]
  rfl

section
variable {s : State} {i : Nat} {r : Region} {x : RegRec} {w : Nat} (hx : x.named = false)
include hx

theorem endReregister_regn : (endReregister s i r x w).regn = (modRegion s i fun _ => returned r x).regn := by
  rw [endReregister_unnamed _ _ _ _ hx, answerAll_regn, answerControl_regn, bump_regn]

theorem endReregister_mem : (endReregister s i r x w).mem = s.mem := by
  rw [endReregister_unnamed _ _ _ _ hx, answerAll_mem, answerControl_mem]
  rfl

theorem endReregister_answers : msgOf (endReregister s i r x w) w = none := by
  rw [endReregister_unnamed _ _ _ _ hx]
  refine answerAll_gone _ _ _ _ (.inr ?_)
  rw [msgOf, answerControl_msgs, aget_adel_same]

end

/-! ## The records -/

section
variable {s : State} {msg op i : Nat} {m : Msg} {x : RegRec} {r : Region}

theorem msgOf_of_controlStart (h : controlStart s msg op = some (m, x)) : msgOf s msg = some m := by
  obtain ⟨m', hm, h⟩ := Option.bind_eq_some_iff.mp h
  obtain ⟨m'', hs, hw⟩ := Option.bind_eq_some_iff.mp hm
  obtain ⟨y, -, hy⟩ := Option.bind_eq_some_iff.mp h
  split at hy
  · split at hw
    · cases hw
    · cases hw
      cases hy
      exact msgOf_of_startsWork hs
  · cases hy

theorem controlStart_record (h : controlStart s msg op = some (m, x)) : x = RegRec.parse m.be (m.payload.drop 32) := by
  obtain ⟨m', -, h⟩ := Option.bind_eq_some_iff.mp h
  obtain ⟨y, hc, hy⟩ := Option.bind_eq_some_iff.mp h
  unfold controlOf at hc
  dsimp only at hc
  split at hc
  · cases hc
  · split at hy
    · cases hc
      cases hy
      rfl
    · cases hy

/-- A REVOKE that names an entry does as the entry's state says. -/
theorem exec_revokeRegion (h : NamesEntry s msg 2 i m x r) : exec (.revokeRegion msg) s =
    if r.state = 0 then .next (answerControl s msg .ok x.oldKey 0)
    else if r.state = 2 then
      .next (setPhase (modRegion s i fun r => { r with waiters := r.waiters ++ [msg] }) msg (.waitRevoke i))
    else .next (startRevoke s i (some msg) none) := by
  obtain ⟨hc, hv, hp, ho, -⟩ := h
  dsimp only [exec]
  unfold execRevokeRegion
  rw [hc]
  simp only [firstFail, hv, hp, ne_eq, not_true_eq_false, decide_false, Bool.false_eq_true, if_false, ho]

/-- A REREGISTER without a name that names an entry of the requester's starts the entry's revocation when it is ACTIVE. -/
theorem exec_reregisterRegion (h : NamesEntry s msg 3 i m x r) (ha : (x.read || x.write) = true)
    (hn : ¬ (x.named = true ∧ x.name = 0)) : exec (.reregisterRegion msg) s =
    if r.state ≠ 1 then .next (answerControl s msg .keyRevoked x.oldKey 0)
    else if x.named ∧ nameFull s m.tenant x.name x.prio i then .next (answerControl s msg .bounds x.oldKey 0)
    else .next (startRevoke s i (some msg) (some (m.payload.drop 32, msg, m.be))) := by
  obtain ⟨hc, hv, hp, ho, -⟩ := h
  have hb : ((! x.read && ! x.write) || (x.named && decide (x.name = 0))) = false := by
    rw [Bool.or_eq_false_iff, ← Bool.not_or, ha]
    exact ⟨rfl, by simpa using hn⟩
  dsimp only [exec]
  unfold execReregisterRegion
  rw [hc]
  simp only [firstFail, hv, hp, hb, ne_eq, not_true_eq_false, decide_false, Bool.false_eq_true, if_false, ho]

theorem exec_revokeDrainComplete (hr : regionOf s i = some r) : exec (.revokeDrainComplete i) s =
    if r.state = 2 ∧ r.inflight = 0 then .next (drainAfter (finishRevoke s i) r) else .next s := by
  dsimp only [exec]
  unfold execRevokeDrainComplete
  rw [hr]

theorem drainAfter_other (h : r.kind ≠ rkSequence) (s : State) : drainAfter s r = s := if_neg h

end

/-! ## A registration -/

theorem placeSlot_scans {s t : State} {k tenant units lpn : Nat} {kind : SlotKind}
    (h : placeSlot s k tenant units kind = some (t, lpn)) : Scans s t := by
  obtain ⟨l, -, e⟩ := Option.map_eq_some_iff.mp h
  cases e
  exact .trans (.trans (lowerFences_scans ..) ((loadGen_scans ..).trans (innerGens_scans ..))) ((scrub_scans ..).trans .modMem)

theorem scratchGet_scans {s t : State} {die tenant n a : Nat} (h : scratchGet s die tenant n = .ok (t, a)) : Scans s t := by
  unfold scratchGet at h
  split at h
  · split at h
    · next e =>
      cases h
      exact sramGet_scans e
    · cases h
  · split at h
    · cases h
    · split at h
      · next e =>
        cases h
        exact allocSram_scans e
      · cases h

theorem registerMem_scans {s t : State} {m : Msg} {x : RegRec} {a : Nat} (h : registerMem s m x = .ok (t, a)) : Scans s t := by
  unfold registerMem at h
  dsimp only at h
  split at h
  · split at h
    · cases h
    · split at h
      · next e =>
        cases h
        obtain ⟨k, -, hk⟩ := List.exists_of_findSome?_eq_some e
        exact placeSlot_scans hk
      · cases h
  · split at h
    · split at h
      · cases h
      · exact scratchGet_scans h
    · cases h
      exact .refl s

/-- A REGISTER that one of orders 1 to 3 refuses is answered with that order's status. -/
theorem exec_registerRegion_refused {msg : Nat} {m : Msg} {x : RegRec} {s : State} {st : Status} (h : controlStart s msg 1 = some (m, x))
    (hs : firstFail [(decide (x.ver ≠ 1) || decide (x.kind = 0) || decide (4 < x.kind), Status.version),
        (decide (x.pd ≠ m.pd), .pdMismatch), (registerBounds s m x, .bounds)] = some st) :
    exec (.registerRegion msg) s = .next (answerControl s msg st 0 0) := by
  dsimp only [exec]
  unfold execRegisterRegion
  rw [h]
  dsimp only
  rw [hs]

theorem kindOk {x : RegRec} (hv : x.ver = 1) (h1 : 1 ≤ x.kind) (h4 : x.kind ≤ 4) :
    (decide (x.ver ≠ 1) || decide (x.kind = 0) || decide (4 < x.kind)) = false := by
  simp only [hv, ne_eq, not_true_eq_false, decide_false, Bool.false_or, Bool.or_eq_false_iff, decide_eq_false_iff_not]
  omega

/-- A REGISTER that keeps orders 1 to 11 enters its entry. -/
theorem exec_registerRegion {msg i addr : Nat} {m : Msg} {x : RegRec} {d : Option Desc} {s u v w : State}
    (h : Registers s u v msg i m x d) (hw : registerMem v m x = .ok (w, addr)) : exec (.registerRegion msg) s =
      .next (answerControl (bump (enterRegion w i (newRegion w m x i addr d)) .region_REGISTERS m.hub) msg .ok
        (regionKey i (newRegion w m x i addr d).gen) (newRegion w m x i addr d).length) := by
  obtain ⟨hc, hv, hk1, hk4, hp, hb, hs, ⟨z, hz⟩, hi, hn, hv'⟩ := h
  dsimp only [exec]
  unfold execRegisterRegion
  rw [hc]
  simp only [firstFail, kindOk hv hk1 hk4, hp, hb, ne_eq, not_true_eq_false, decide_false, Bool.false_eq_true, if_false, hs, hz, hi, hn]
  unfold registerName
  dsimp only
  rw [hv']
  dsimp only
  rw [hw]

section
variable {msg i addr : Nat} {m : Msg} {x : RegRec} {d : Option Desc} {s u v w : State} (h : Registers s u v msg i m x d)
include h

/-- The name row changes no entry but for its name. -/
theorem registers_named : v.mem = s.mem ∧ v.dill = s.dill ∧
    (∀ j, (regionOf v j).map unnamed = (regionOf s j).map unnamed) ∧ (x.named = false → v.regn = s.regn) := by
  obtain ⟨-, -, -, -, -, -, hs, -, -, -, hv⟩ := h
  have hu : InIndex s u := (registerSeq_inIndex s m x).of_eq hs
  split at hv
  · next hx =>
    obtain ⟨h1, h2, h3⟩ := insertName_regions u m.tenant x.name x.prio i (regionGenAt u i)
    rw [hv] at h1 h2 h3
    exact ⟨h1.trans hu.mem, h2.trans hu.dill, fun j => by rw [h3, hu.regionOf_eq], fun hf => absurd hx (by rw [hf]; nofun)⟩
  · cases hv
    exact ⟨hu.mem, hu.dill, fun j => by rw [hu.regionOf_eq], fun _ => hu.regn⟩

/-- On quiet memory the place of the region concerns no other entry. -/
theorem registers_placed (hw : registerMem v m x = .ok (w, addr)) (hq : Quiet s) : w.regn = v.regn := by
  obtain ⟨hm, hd, -⟩ := registers_named h
  have hv : Quiet v := ⟨by rw [hm]; exact hq.1, by rw [hd]; exact hq.2⟩
  rw [((registerMem_scans hw).calm hv).rest]

end

/-- Settles O16: what the last steps of each record leave of the entry it acts on (`coreOf`, `InIndex`, `Scans`). -/
theorem regionsAreRegisteredAndRevoked : Obligations.RegionsAreRegisteredAndRevoked := by
  unfold Obligations.RegionsAreRegisteredAndRevoked
  refine ⟨fun msg i addr m x d s u v w h hw => ?_, fun msg m x s h => ?_, fun msg i m x r s h => ?_,
    fun msg i m x r s h ha hn => ?_, fun i r s hr => ?_⟩
  · refine completes_of_exec (exec_registerRegion h hw) ⟨?_, fun hq j hj => ?_, rfl⟩
    · rw [regionOf_congr (answerControl_regn ..), regionOf_congr (bump_regn ..)]
      exact aget_aset_same ..
    · have ht : ∀ y, regionOf (answerControl (bump (enterRegion w i y) .region_REGISTERS m.hub) msg .ok (regionKey i y.gen)
          y.length) j = regionOf v j := fun y => by
        rw [regionOf_congr (answerControl_regn ..), regionOf_congr (bump_regn ..)]
        exact (aget_aset_other hj _ _).trans (regionOf_congr (registers_placed h hw hq) j)
      obtain ⟨-, -, hu, hx⟩ := registers_named h
      rw [ht]
      exact ⟨fun hf => regionOf_congr (hx hf) j, hu j⟩
  · refine completes_of_forall (fun _ e => by cases e) fun t ht => ⟨fun hv => ?_, fun hv h1 h4 hp => ?_, fun hv h1 h4 hp hb => ?_⟩
    · refine next_inj ht (exec_registerRegion_refused h (if_pos ?_))
      simpa only [Bool.or_eq_true, decide_eq_true_eq, or_assoc] using hv
    · exact next_inj ht (exec_registerRegion_refused h (by rw [firstFail, kindOk hv h1 h4]; simp [firstFail, hp]))
    · have he := next_inj ht (exec_registerRegion_refused (st := .bounds) h (by rw [firstFail, kindOk hv h1 h4]; simp [firstFail, hp, hb]))
      exact ⟨he, by rw [he, answerControl_regn]⟩
  · have hr := h.2.2.2.2
    have hm := msgOf_of_controlStart h.1
    have he := exec_revokeRegion h
    refine completes_of_forall (fun _ e => by cases e) fun t ht => ⟨fun hs => ?_, fun hs => ?_, fun hs hi => ?_, fun hs hi => ?_⟩
    · rw [if_pos hs] at he
      exact next_inj ht he
    · rw [if_neg (by omega), if_pos hs] at he
      cases next_inj ht he
      exact ⟨(regionOf_congr (setPhase_regn ..) i).trans (regionOf_modRegion_same _ hr), setPhase_phase _ hm rfl, setPhase_mem ..⟩
    all_goals
      rw [if_neg (by omega), if_neg (by omega), startRevoke_active hr hs] at he
      obtain ⟨a, b, hv⟩ := revoking_entry (w := msg) (x := none) hr
    · rw [finishRevoke_stands hv fun hc => hi hc.2] at he
      cases next_inj ht he
      exact ⟨⟨_, hv, rfl, rfl, rfl, rfl⟩, revoking_phase hm, revoking_mem⟩
    · rw [finishRevoke_frees hv rfl hi rfl] at he
      cases next_inj ht he
      refine ⟨endRevoke_freed ((regionOf_congr (measureRevoke_regn ..) i).trans hv),
        endRevoke_answers _ _ _ _ (List.mem_append_right _ (List.mem_singleton_self _)), ?_, fun hn j hj => ?_⟩
      · rw [endRevoke_clock, measureRevoke_regn, revoking_clock]
      · rw [endRevoke_other (by rw [measureRevoke_dill, revoking_dill]; exact hn) _ _ hj,
          regionOf_congr (measureRevoke_regn ..), revoking_other hj]
  · have hr := h.2.2.2.2
    have hm := msgOf_of_controlStart h.1
    have he := exec_reregisterRegion h ha hn
    refine completes_of_forall (fun _ e => by cases e) fun t ht => ⟨fun hs => ?_, fun hs hx hi => ?_, fun hs hx hi => ?_⟩
    · rw [if_pos hs] at he
      exact next_inj ht he
    all_goals
      rw [if_neg (by omega), if_neg (by simp [hx]), startRevoke_active hr hs] at he
      obtain ⟨a, b, hv⟩ := revoking_entry (w := msg) (x := some (m.payload.drop 32, msg, m.be)) hr
    · rw [finishRevoke_returns hv rfl hi rfl, ← controlStart_record h.1] at he
      cases next_inj ht he
      refine ⟨⟨_, (regionOf_congr (endReregister_regn hx) i).trans (regionOf_modRegion_same _ ((regionOf_congr (measureRevoke_regn ..) i).trans hv)), rfl, rfl, rfl,
        rfl, rfl, rfl, rfl, rfl, rfl⟩, endReregister_answers hx, ?_, fun j hj => ?_⟩
      · rw [endReregister_mem hx, measureRevoke_mem, revoking_mem]
      · rw [regionOf_congr (endReregister_regn hx) j, regionOf_modRegion_other hj, regionOf_congr (measureRevoke_regn ..), revoking_other hj]
    · rw [finishRevoke_stands hv fun hc => hi hc.2] at he
      cases next_inj ht he
      exact ⟨⟨_, hv, rfl, rfl, rfl⟩, revoking_phase hm⟩
  · have he := exec_revokeDrainComplete hr
    refine completes_of_forall (fun _ e => by cases e) fun t ht => ⟨fun hs => ?_, fun hs hi hn hk => ?_⟩
    · rw [if_neg hs] at he
      exact next_inj ht he
    · rw [if_pos ⟨hs, hi⟩, drainAfter_other hk, finishRevoke_frees hr hs hi hn] at he
      cases next_inj ht he
      obtain ⟨e, h1, h2, -, h3, h4⟩ := endRevoke_freed ((regionOf_congr (measureRevoke_regn s r) i).trans hr)
      exact ⟨⟨e, h1, h2, h3, h4⟩, fun w hw => endRevoke_answers _ _ _ w hw, by rw [endRevoke_clock, measureRevoke_regn]⟩

end Sys2Proof.Proofs

namespace Sys2Proof.Proofs
open Sys2Proof.Machine Sys2Proof.Laws

/-!
What moves no die. Reads and writes of memory, scans, the release of memory and the end of accesses change neither the states of the
dies, nor the operation that runs, nor the ledger, nor what the pool engines run, and put no stack to sleep: an access takes
pseudo-channels out of self-refresh and puts none in (08_memory.md R187). `Unmoved` carries this through each of them.
-/

/-- The life cycle but for the known-good map. -/
def still (s : State) : LifeSt := { s.life with kgm := [] }

/-- From s to t no die, no operation, nothing in the ledger and no pool engine's command has changed, no stack without
pseudo-channels in self-refresh has got one, and no message has come. -/
structure Unmoved (s t : State) : Prop where
  life : still t = still s
  ledg : t.ledg = s.ledg
  awake : ∀ k, (stackSt s k).selfRef = [] → (stackSt t k).selfRef = []
  pool : ∀ k, (dillOf t k).pool = (dillOf s k).pool
  gone : ∀ id, msgOf s id = none → msgOf t id = none

/-- What leaves the queue is gone, and what was gone stays so. -/
theorem gone_of_adel {s t : State} {id k : Nat} (hm : t.msgs = adel s.msgs k) (h : id = k ∨ msgOf s id = none) : msgOf t id = none := by
  rw [msgOf, hm]
  by_cases e : id = k
  · rw [e, aget_adel_same]
  · rw [aget_adel_other e]
    exact h.resolve_left e

namespace Unmoved
variable {a s t : State}

theorem refl (s : State) : Unmoved s s := ⟨rfl, rfl, fun _ => id, fun _ => rfl, fun _ => id⟩

theorem trans (f : Unmoved a s) (g : Unmoved s t) : Unmoved a t :=
  ⟨g.life.trans f.life, g.ledg.trans f.ledg, fun k h => g.awake k (f.awake k h),
    fun k => (g.pool k).trans (f.pool k), fun id h => g.gone id (f.gone id h)⟩

theorem ite {c : Prop} [Decidable c] (f : Unmoved a s) (g : Unmoved a t) : Unmoved a (if c then s else t) := by
  split <;> assumption

/-- The state that an operation gives with a result. -/
theorem of_eq {β : Type} {p : State × β} {r : β} (h : Unmoved s p.1) (e : p = (t, r)) : Unmoved s t := by subst e; exact h

theorem foldl {β : Type} {f : State → β → State} (hf : ∀ s x, Unmoved s (f s x)) :
    ∀ (l : List β) (s : State), Unmoved s (l.foldl f s)
  | [], s => refl s
  | x :: l, s => (hf s x).trans (foldl hf l (f s x))

/-- A fold that gives a result beside the state. -/
theorem foldl_fst {β γ : Type} {f : State × γ → β → State × γ} (hf : ∀ p x, Unmoved p.1 (f p x).1) :
    ∀ (l : List β) (s : State) (r : γ), Unmoved s (l.foldl f (s, r)).1
  | [], s, _ => refl s
  | x :: l, s, r => (hf (s, r) x).trans (foldl_fst hf l (f (s, r) x).1 (f (s, r) x).2)

/-- A change that leaves the life cycle, the ledger, the stack controllers and the sequencers, and lets no message in. -/
theorem of_gone (hl : t.life = s.life) (hg : t.ledg = s.ledg) (hc : t.mem.stackCtl = s.mem.stackCtl) (hd : t.dill.eng = s.dill.eng)
    (hm : ∀ id, msgOf s id = none → msgOf t id = none) : Unmoved s t :=
  ⟨congrArg (fun y : LifeSt => { y with kgm := [] }) hl, hg, fun k h => by rw [stackSt, hc]; exact h,
    fun k => by rw [dillOf, hd, dillOf], hm⟩

theorem of_parts (hl : t.life = s.life) (hg : t.ledg = s.ledg) (hc : t.mem.stackCtl = s.mem.stackCtl) (hd : t.dill.eng = s.dill.eng)
    (hm : t.msgs = s.msgs) : Unmoved s t :=
  of_gone hl hg hc hd fun id h => by rw [msgOf, hm]; exact h

/-- The same, of a change by whose definition these parts are the same. -/
theorem of_rest (h : (t.life, t.ledg, t.mem.stackCtl, t.dill.eng, t.msgs) =
    (s.life, s.ledg, s.mem.stackCtl, s.dill.eng, s.msgs)) : Unmoved s t := by
  obtain ⟨hl, hg, hc, hd, hm⟩ : t.life = s.life ∧ t.ledg = s.ledg ∧ t.mem.stackCtl = s.mem.stackCtl ∧ t.dill.eng = s.dill.eng ∧
      t.msgs = s.msgs := by
    simpa using h
  exact of_parts hl hg hc hd hm

theorem slices (f : Unmoved s t) : t.life.slices = s.life.slices := (congrArg LifeSt.slices f.life :)
theorem hubs (f : Unmoved s t) : t.life.hubs = s.life.hubs := (congrArg LifeSt.hubs f.life :)
theorem retrainDue (f : Unmoved s t) : t.life.retrainDue = s.life.retrainDue := (congrArg LifeSt.retrainDue f.life :)
theorem lcStatus (f : Unmoved s t) : t.life.lcStatus = s.life.lcStatus := (congrArg LifeSt.lcStatus f.life :)
theorem op (f : Unmoved s t) : t.life.op = s.life.op := (congrArg LifeSt.op f.life :)

end Unmoved

/-! ## Words -/

theorem modSeqs_unmoved (s : State) (f : SeqSt → SeqSt) : Unmoved s (modSeqs s f) := .of_rest rfl

theorem fresh_unmoved (s : State) : Unmoved s (fresh s).2 := .of_rest rfl

theorem modMem_unmoved (s : State) {f : MemSt → MemSt} (h : ∀ m, (f m).stackCtl = m.stackCtl) : Unmoved s (modMem s f) :=
  .of_parts rfl rfl (h s.mem) rfl rfl

theorem touchStack_unmoved (s : State) (a n : Nat) : Unmoved s (touchStack s a n) := by
  unfold touchStack
  dsimp only
  split
  · exact .refl s
  · next x hx =>
    split
    · exact .refl s
    · refine ⟨rfl, rfl, fun k h => ?_, fun _ => rfl, fun _ => id⟩
      unfold stackSt agetD at h ⊢
      rw [modMem_mem]
      by_cases hk : k = a / 2 ^ 42
      · rw [hk, hx] at h
        rw [hk, aget_aset_same]
        change x.selfRef = [] at h
        change x.selfRef.filter _ = []
        rw [h]
        rfl
      · rw [aget_aset_other hk]
        exact h

theorem touchBanks_unmoved (s : State) (a n : Nat) : Unmoved s (touchBanks s a n) := by
  unfold touchBanks
  dsimp only
  exact (touchStack_unmoved s a n).trans (.ite (.of_rest (by exact rfl)) (.refl _))

theorem poke_unmoved (s : State) (a : Nat) (bs : List Byte) : Unmoved s (poke s a bs) :=
  (touchBanks_unmoved s a bs.length).trans (.of_rest (by exact rfl))

theorem scrub_unmoved (s : State) (a n : Nat) : Unmoved s (scrub s a n) := (touchBanks_unmoved s a n).trans (.of_rest (by exact rfl))

theorem modBank_unmoved (s : State) (die b : Nat) (f : Bank → Bank) : Unmoved s (modBank s die b f) := .of_rest rfl

theorem bump_unmoved (s : State) (r : Reg) (i : Nat) : Unmoved s (bump s r i) := .of_parts (by simp) (by simp) (by simp) (by simp) (by simp)

theorem rmax_unmoved (s : State) (r : Reg) (i v : Nat) : Unmoved s (rmax s r i v) := by
  unfold rmax
  exact .ite (.of_rest (by exact rfl)) (.refl s)

theorem journal_unmoved (s : State) (h type : Nat) (payload : List Byte) : Unmoved s (journal s h type payload) :=
  .of_parts (by simp) (by simp) (by simp) (by simp) (by simp)

theorem healthEvent_unmoved (s : State) (die bit v : Nat) : Unmoved s (healthEvent s die bit v) :=
  .of_parts (by simp) (by simp) (by simp) (by simp) (by simp)

theorem modDie_unmoved (s : State) (d : Nat) (f : DieHealth → DieHealth) : Unmoved s (modDie s d f) :=
  .of_parts (by simp) (by simp) (by simp) (by simp) (by simp)

theorem modMeter_unmoved (s : State) (tenant : Nat) (f : Meter → Meter) : Unmoved s (modMeter s tenant f) :=
  .of_parts (by simp) (by simp) (by simp) (by simp) (by simp)

theorem logErr_unmoved (s : State) (x : ErrRec) : Unmoved s (logErr s x) := by
  unfold logErr
  dsimp only
  exact .ite (bump_unmoved ..) (.of_rest (by exact rfl))

theorem kgmAdd_unmoved (s : State) (die kind unit loc v : Nat) : Unmoved s (kgmAdd s die kind unit loc v) :=
  ⟨congrArg Aside.life (kgmAdd_aside s die kind unit loc v), by simp, fun k h => by rw [stackSt, kgmAdd_mem]; exact h,
    fun k => by rw [dillOf, kgmAdd_dill, dillOf], fun id h => by rw [msgOf, kgmAdd_msgs]; exact h⟩

theorem badWord_unmoved (s : State) (cls sy die reader off : Nat) : Unmoved s (badWord s cls sy die reader off) := by
  unfold badWord
  exact ((((bump_unmoved s _ _).trans (modDie_unmoved ..)).trans (logErr_unmoved ..)).trans (journal_unmoved ..)).trans
    (healthEvent_unmoved ..)

theorem readWord_unmoved (s : State) (a reader : Nat) : Unmoved s (readWord s a reader).1 := by
  unfold readWord
  dsimp only
  split
  · exact .refl s
  · split
    · exact .refl s
    · dsimp only
      refine .trans ?_ (modMem_unmoved _ fun _ => rfl)
      refine .trans (.trans (.trans ?_ (modDie_unmoved ..)) (logErr_unmoved ..)) (poke_unmoved ..)
      exact bump_unmoved s _ _
    · exact badWord_unmoved ..

/-! ## Places in SRAM and repair -/

theorem banksOn_unmoved (s : State) (die unit n : Nat) : Unmoved s (banksOn s die unit n) := by
  unfold banksOn
  exact .foldl (fun s i => .ite ((scrub_unmoved ..).trans (modBank_unmoved ..)) (modBank_unmoved ..)) _ s

theorem allocSram_unmoved {s t : State} {die tenant n a : Nat} {kind : SramKind}
    (h : allocSram s die tenant n kind = some (t, a)) : Unmoved s t := by
  obtain ⟨u, -, e⟩ := Option.map_eq_some_iff.mp h
  cases e
  exact (banksOn_unmoved ..).trans ((scrub_unmoved ..).trans (.of_rest (by exact rfl)))

theorem freeSram_unmoved (s : State) (a : Nat) : Unmoved s (freeSram s a) := by
  unfold freeSram
  dsimp only
  split
  · exact .refl s
  · exact .trans (.of_rest (by exact rfl)) (.foldl (fun s i => .ite (.refl s) ((scrub_unmoved ..).trans (modBank_unmoved ..))) _ _)

theorem moveWords_unmoved : ∀ (n : Nat) (s : State) (src dst : Nat), Unmoved s (moveWords n s src dst)
  | 0, s, _, _ => .refl s
  | n + 1, s, src, dst => by
    unfold moveWords
    split
    · next e => exact ((readWord_unmoved ..).of_eq e).trans ((poke_unmoved ..).trans (moveWords_unmoved n ..))
    · next e =>
      dsimp only
      exact ((readWord_unmoved ..).of_eq e).trans (.trans ((poke_unmoved ..).trans (.of_rest (by exact rfl))) (moveWords_unmoved n ..))

theorem moveRaw_unmoved (s : State) (src dst n : Nat) : Unmoved s (moveRaw s src dst n) := by
  unfold moveRaw
  exact (touchBanks_unmoved s src n).trans (.ite (moveWords_unmoved ..) (poke_unmoved ..))

theorem renameSram_unmoved (s : State) (src dst n : Nat) : Unmoved s (renameSram s src dst n) := by
  refine ⟨rfl, rfl, fun _ => id, fun k => ?_, fun _ => id⟩
  unfold renameSram dillOf agetD
  simp only [modDill_dill, modRegn_dill, modMem_dill, modSeqs_dill]
  rw [aget_mapKey fun k (d : Dill) => { d with slots := d.slots.map fun c => (c.1, { c.2 with windows := c.2.windows.map fun w =>
    { w with base := (if src ≤ dieBase k + w.base ∧ dieBase k + w.base < src + n then dieBase k + w.base - src + dst
      else dieBase k + w.base) - dieBase k } }) }]
  cases aget s.dill.eng k <;> rfl

theorem moveHold_unmoved (s : State) (h : SramHold) : Unmoved s (moveHold s h) := by
  unfold moveHold
  split
  · exact .refl s
  · next e =>
    exact (allocSram_unmoved e).trans (((moveRaw_unmoved ..).trans (renameSram_unmoved ..)).trans (freeSram_unmoved ..))

theorem moveArea_unmoved (s : State) (die b : Nat) : Unmoved s (moveArea s die b) := by
  unfold moveArea
  refine .ite ?_ (.refl s)
  split
  · exact .refl s
  · next e =>
    exact (allocSram_unmoved e).trans (((moveRaw_unmoved ..).trans (renameSram_unmoved ..)).trans (modBank_unmoved ..))

theorem retireBank_unmoved (s : State) (die b : Nat) : Unmoved s (retireBank s die b) := by
  unfold retireBank
  extract_lets inBank s1 s2 s3
  have h2 : Unmoved s s2 :=
    (modBank_unmoved ..).trans ((Unmoved.foldl moveHold_unmoved _ _).trans (moveArea_unmoved ..))
  exact (h2.trans (.ite (.refl _) (modBank_unmoved ..))).trans ((kgmAdd_unmoved ..).trans (healthEvent_unmoved ..))

theorem repairColumn_unmoved (s : State) (die b col : Nat) : Unmoved s (repairColumn s die b col) := by
  unfold repairColumn
  extract_lets k n most s1 s2
  have h1 : Unmoved s s1 := (modBank_unmoved ..).trans (kgmAdd_unmoved ..)
  have h2 : Unmoved s s2 := .ite (retireBank_unmoved ..) (.ite (h1.trans (healthEvent_unmoved ..)) h1)
  exact h2.trans (journal_unmoved ..)

theorem repairRow_unmoved (s : State) (die off : Nat) : Unmoved s (repairRow s die off) := by
  unfold repairRow
  dsimp only
  refine .trans (.trans ?_ (fresh_unmoved _)) (journal_unmoved ..)
  refine .trans (.trans ?_ (modDie_unmoved ..)) (kgmAdd_unmoved ..)
  exact modMem_unmoved _ fun _ => rfl

theorem mend_unmoved (s : State) (a : Nat) (fix : Option (Nat × Nat)) : Unmoved s (mend s a fix) := by
  unfold mend repairWord
  split
  · exact .refl s
  · exact .ite (.ite (repairRow_unmoved ..) (.ite (.refl s) (repairColumn_unmoved ..))) (.refl s)

/-! ## Reads -/

theorem loadWords_unmoved : ∀ (n : Nat) (s : State) (a reader : Nat), Unmoved s (loadWords n s a reader).1
  | 0, s, _, _ => .refl s
  | n + 1, s, a, reader => by
    unfold loadWords
    split
    · next e => exact (readWord_unmoved ..).of_eq e
    · next e => exact ((readWord_unmoved ..).of_eq e).trans ((loadWords_unmoved n ..).trans (mend_unmoved ..))

theorem load_unmoved (s : State) (a n reader : Nat) : Unmoved s (load s a n reader).1 := by
  unfold load
  dsimp only
  refine (touchBanks_unmoved s a n).trans ?_
  split
  · split
    all_goals
      next e => exact (loadWords_unmoved ..).of_eq e
  · exact .refl _

theorem view_unmoved (s : State) (a n reader : Nat) : Unmoved s (view s a n reader).1 := by
  unfold view
  split
  · exact load_unmoved ..
  · split
    all_goals
      next e => exact (load_unmoved ..).of_eq e

/-! ## Answers and snapshots -/

theorem answer_unmoved (s : State) (id : Nat) (op : Opcode) (st : Status) (hint : Nat) (payload : List Byte) :
    Unmoved s (answer s id op st hint payload) :=
  .of_gone (by simp) (by simp) (by simp) (by simp) fun _ h => gone_of_adel (answer_msgs ..) (.inr h)

theorem countRefusal_unmoved (s : State) (hub : Nat) (st : Status) : Unmoved s (countRefusal s hub st) := by
  unfold countRefusal
  split
  all_goals first | exact bump_unmoved .. | exact .refl s

theorem answerRead_unmoved (s : State) (id : Nat) (st : Status) (key : Nat) (data : List Byte) :
    Unmoved s (answerRead s id st key data) := by
  unfold answerRead
  split
  · exact .refl s
  · exact .trans (.ite (bump_unmoved ..) (countRefusal_unmoved ..)) (answer_unmoved ..)

theorem leaveRegion_unmoved (s : State) (i : Nat) : Unmoved s (leaveRegion s i) := .of_rest rfl

theorem answerSnap_unmoved (s : State) (x : Snapshot) (got : Except Status (List Byte)) : Unmoved s (answerSnap s x got) := by
  unfold answerSnap
  dsimp only
  split
  · exact leaveRegion_unmoved ..
  · split
    all_goals exact (leaveRegion_unmoved ..).trans (answerRead_unmoved ..)

theorem dropSnap_unmoved (s : State) (snap : Nat) (x : Snapshot) : Unmoved s (dropSnap s snap x) := by
  unfold dropSnap
  dsimp only
  split <;> exact .of_rest rfl

theorem snapshotCopy_unmoved (s : State) (snap : Nat) : Unmoved s (snapshotCopy s snap) := by
  unfold snapshotCopy
  split
  · exact .refl s
  · refine .ite (.refl s) ?_
    dsimp only
    refine .trans (.trans (view_unmoved ..) (.trans (dropSnap_unmoved ..) (.ite ?_ (.refl _)))) (answerSnap_unmoved ..)
    exact (bump_unmoved ..).trans (rmax_unmoved ..)

theorem lowerFences_unmoved (s : State) (a n : Nat) : Unmoved s (lowerFences s a n) :=
  .foldl (f := fun s (p : Nat × Snapshot) => snapshotCopy s p.1) (fun s p => snapshotCopy_unmoved s p.1) _ s

theorem putWords_unmoved (s : State) (a : Nat) (bs : List Byte) : Unmoved s (putWords s a bs) :=
  (lowerFences_unmoved ..).trans (poke_unmoved ..)

theorem markDamaged_unmoved (s : State) (lpn : Nat) : Unmoved s (markDamaged s lpn) :=
  (poke_unmoved ..).trans (.trans (.of_rest (by exact rfl)) (journal_unmoved ..))

/-! ## Slots -/

theorem freeHeader_unmoved (s : State) (a gen : Nat) : Unmoved s (freeHeader s a gen) := poke_unmoved ..

theorem clearSlot_unmoved (s : State) (lpn : Nat) : Unmoved s (clearSlot s lpn) := by
  unfold clearSlot
  split
  · exact .refl s
  · dsimp only
    refine .trans (.trans (.trans (scrub_unmoved ..) (freeHeader_unmoved ..)) (.foldl (fun s p => ?_) _ _))
      (modMem_unmoved _ fun _ => rfl)
    exact freeHeader_unmoved ..

theorem freeSlot_unmoved (s : State) (lpn : Nat) : Unmoved s (freeSlot s lpn) :=
  (lowerFences_unmoved ..).trans (clearSlot_unmoved ..)

theorem loadGen_unmoved (s : State) (lpn : Nat) : Unmoved s (loadGen s lpn).1 := by
  unfold loadGen
  split
  · next e => exact (load_unmoved ..).of_eq e
  · next e => exact ((load_unmoved ..).of_eq e).trans (.of_rest (by exact rfl))

theorem innerGens_unmoved (s : State) (lpn n : Nat) : Unmoved s (innerGens s lpn n).1 := by
  unfold innerGens
  refine .foldl_fst (fun acc i => ?_) _ s _
  exact loadGen_unmoved acc.1 (lpn + i + 1)

theorem allocSlot_unmoved {s t : State} {k tenant units lpn : Nat} {kind : SlotKind}
    (h : allocSlot s k tenant units kind = some (t, lpn)) : Unmoved s t := by
  unfold allocSlot at h
  split at h
  · obtain ⟨l, -, e⟩ := Option.map_eq_some_iff.mp h
    cases e
    exact .trans (.trans (lowerFences_unmoved ..) ((loadGen_unmoved ..).trans (innerGens_unmoved ..)))
      ((scrub_unmoved ..).trans (modMem_unmoved _ fun _ => rfl))
  · cases h

/-! ## Tails and pages in SRAM -/

theorem tailImages_unmoved {s t : State} {d : Desc} {q : TailKey} {k : Nat} {x : TailImage}
    (h : tailImages s d q k = some (t, x)) : Unmoved s t := by
  unfold tailImages at h
  extract_lets units at h
  split at h
  · cases h
    exact .refl s
  · obtain ⟨⟨u, r⟩, hr, h⟩ := Option.bind_eq_some_iff.mp h
    obtain ⟨⟨v, a⟩, ha, h⟩ := Option.bind_eq_some_iff.mp h
    obtain ⟨⟨w, b⟩, hb, h⟩ := Option.map_eq_some_iff.mp h
    cases h
    exact ((allocSlot_unmoved hr).trans (allocSlot_unmoved ha)).trans (allocSlot_unmoved hb)

theorem writeBack_unmoved (s : State) (d : Desc) (q : TailKey) : Unmoved s (writeBack s d q).1 := by
  unfold writeBack
  split
  · exact .refl s
  dsimp only
  split
  · next e => exact (load_unmoved ..).of_eq e
  · next u b e =>
    have hu : Unmoved s u := (load_unmoved ..).of_eq e
    split
    · exact hu
    · next v x hx =>
      dsimp only
      refine (hu.trans (tailImages_unmoved hx)).trans (.trans (.trans (.foldl (fun s p => ?_) _ _) (putWords_unmoved ..))
        (modSeqs_unmoved ..))
      exact .ite ((putWords_unmoved ..).trans (putWords_unmoved ..)) (.refl s)

theorem evictTail_unmoved (s : State) (d : Desc) (q : TailKey) : Unmoved s (evictTail s d q).1 := by
  unfold evictTail
  split
  · exact .refl s
  next t _ =>
  dsimp only
  generalize hp : (if t.dirty.any id = true ∨ (aget s.seqs.images q).isNone = true then writeBack s d q
    else (s, true)) = p
  obtain ⟨u, ok⟩ := p
  have hu : Unmoved s u := by
    split at hp
    · exact (writeBack_unmoved ..).of_eq hp
    · cases hp
      exact .refl s
  split
  · exact hu.trans (.trans (.trans (.of_rest (by exact rfl)) (freeSram_unmoved ..)) (bump_unmoved ..))
  · exact hu

theorem evictUntil_unmoved (ok : State → Bool) : ∀ (l : List (TailKey × Desc)) (s : State), Unmoved s (evictUntil ok l s)
  | [], s => .refl s
  | p :: l, s => .ite (.refl s) ((evictTail_unmoved s p.2 p.1).trans (evictUntil_unmoved ok l _))

theorem settleHome_unmoved (s : State) (lpn : Nat) (p : Promo) (page : List Byte) : Unmoved s (settleHome s lpn p page) :=
  .trans (.trans (.ite (putWords_unmoved ..) (.refl s)) (.of_rest (by exact rfl))) (freeSram_unmoved ..)

theorem demote_unmoved (s : State) (lpn : Nat) : Unmoved s (demote s lpn) := by
  unfold demote
  split
  · exact .refl s
  split
  · exact .refl s
  split
  · next e => exact (load_unmoved ..).of_eq e
  · next u page e =>
    have hu : Unmoved s u := (load_unmoved ..).of_eq e
    exact .ite (hu.trans (settleHome_unmoved ..)) (hu.trans ((markDamaged_unmoved ..).trans (settleHome_unmoved ..)))

theorem demoteUntil_unmoved (ok : State → Bool) : ∀ (l : List Nat) (s : State), Unmoved s (demoteUntil ok l s)
  | [], s => .refl s
  | p :: l, s => .ite (.refl s) ((demote_unmoved s p).trans (demoteUntil_unmoved ok l _))

theorem uncacheUntil_unmoved (ok : State → Bool) :
    ∀ (l : List ((Nat × Nat × Nat × Nat × Nat) × Nat)) (s : State), Unmoved s (uncacheUntil ok l s)
  | [], s => .refl s
  | _ :: l, s => .ite (.refl s) ((Unmoved.trans (.of_rest (by exact rfl)) (freeSram_unmoved ..)).trans (uncacheUntil_unmoved ok l _))

theorem sramGet_unmoved {s t : State} {k tenant n a : Nat} {kind : SramKind}
    (h : sramGet s k tenant n kind = some (t, a)) : Unmoved s t := by
  unfold sramGet at h
  extract_lets quota place s1 s2 s3 s4 s5 at h
  have h5 : Unmoved s s5 := (evictUntil_unmoved ..).trans ((uncacheUntil_unmoved ..).trans
    ((demoteUntil_unmoved ..).trans ((uncacheUntil_unmoved ..).trans (evictUntil_unmoved ..))))
  split at h
  · exact h5.trans (allocSram_unmoved h)
  · cases h

/-! ## A slice's scan -/

theorem readPage_unmoved (s : State) (r : PageRef) (g : PGeom) (tenant : Nat) (crc : Bool) (reader : Nat) :
    Unmoved s (readPage s r g tenant crc reader).1 := by
  unfold readPage
  split
  · exact .refl s
  split
  · next e => exact (load_unmoved ..).of_eq e
  · next u p e =>
    have hu : Unmoved s u := (load_unmoved ..).of_eq e
    have hm : Unmoved s (markDamaged u r.lpn) := hu.trans (markDamaged_unmoved ..)
    dsimp only
    repeat' split
    all_goals assumption

theorem deltaDamaged_unmoved (s : State) (d : Desc) (b : DeltaBlock) (cause : Nat) : Unmoved s (deltaDamaged s d b cause) := by
  unfold deltaDamaged
  exact (journal_unmoved ..).trans (.of_rest (by exact rfl))

theorem expandDelta_unmoved (s : State) (d : Desc) (b : DeltaBlock) : Unmoved s (expandDelta s d b).1 := by
  unfold expandDelta
  extract_lets bad
  split
  · exact .refl s
  split
  · next e => exact ((readPage_unmoved ..).of_eq e).trans (deltaDamaged_unmoved ..)
  · next e => exact (readPage_unmoved ..).of_eq e
  · next e =>
    split
    · exact ((readPage_unmoved ..).of_eq e).trans (deltaDamaged_unmoved ..)
    · exact (readPage_unmoved ..).of_eq e

theorem deltaPage_unmoved (s : State) (k : Nat) (d : Desc) (x : Pat) (kv layer page : Nat) :
    Unmoved s (deltaPage s k d x kv layer page).1 := by
  unfold deltaPage
  dsimp only
  split
  · split
    all_goals
      next e => exact .trans (.of_rest (by exact rfl)) ((load_unmoved ..).of_eq e)
  · split
    · exact .refl s
    · split
      · next e => exact (expandDelta_unmoved ..).of_eq e
      · next e =>
        refine ((expandDelta_unmoved ..).of_eq e).trans ?_
        split
        · next e' =>
          dsimp only
          exact (sramGet_unmoved e').trans ((poke_unmoved ..).trans (.of_rest (by exact rfl)))
        · exact .refl _

theorem loadTail_unmoved (s : State) (d : Desc) (key : TailKey) (reader : Nat) : Unmoved s (loadTail s d key reader).1 := by
  unfold loadTail
  dsimp only
  split
  · split
    all_goals
      next e => exact (load_unmoved ..).of_eq e
  · split
    · exact .refl s
    split
    · next e => exact (load_unmoved ..).of_eq e
    · next e =>
      split
      all_goals
        next e' => exact ((load_unmoved ..).of_eq e).trans ((load_unmoved ..).of_eq e')

theorem tailPage_unmoved (s : State) (d : Desc) (x : Pat) (key : TailKey) : Unmoved s (tailPage s d x key).1 := by
  unfold tailPage
  split
  · exact .refl s
  dsimp only
  split
  · exact .refl s
  split
  · exact .refl s
  split
  all_goals
    next e => exact (loadTail_unmoved ..).of_eq e

theorem badRefs_unmoved (s : State) (r : Root) : Unmoved s (badRefs s r).1 := by
  unfold badRefs
  refine .foldl_fst (fun acc p => ?_) _ s _
  dsimp only
  split
  all_goals
    next e => exact (load_unmoved ..).of_eq e

theorem headPages_unmoved (s : State) (i k : Nat) (d : Desc) (a : Att) (x : Pat) (off kv : Nat) :
    Unmoved s (headPages s i k d a x off kv).1 := by
  unfold headPages
  dsimp only
  refine .trans (.trans (.foldl_fst (fun acc p => ?_) _ _ _) (badRefs_unmoved ..)) (.foldl_fst (fun acc q => ?_) _ _ _)
  · exact deltaPage_unmoved ..
  · split
    all_goals
      next e => exact (tailPage_unmoved ..).of_eq e

theorem noteOpen_unmoved (s : State) (k lpn : Nat) : Unmoved s (noteOpen s k lpn) := .of_rest rfl

theorem settleRead_unmoved (s : State) (i k : Nat) (d : Desc) (pairs : List Nat) (lpn : Nat) :
    Unmoved s (settleRead s i k d pairs lpn) := by
  unfold settleRead
  split
  · exact .refl s
  · exact (readPage_unmoved ..).trans (noteOpen_unmoved ..)

theorem useSketch_unmoved (s : State) (k lpn : Nat) : Unmoved s (useSketch s k lpn).1 := by
  unfold useSketch
  dsimp only
  split
  · exact .refl s
  · split
    · exact .of_rest rfl
    · exact .trans (.of_rest (by exact rfl)) (bump_unmoved ..)

theorem readSketch_unmoved (s : State) (g : PGeom) (lpn : Nat) : Unmoved s (readSketch s g lpn) :=
  .ite ((load_unmoved ..).trans (load_unmoved ..)) (load_unmoved ..)

theorem settleBound_unmoved (s : State) (k : Nat) (d : Desc) (lpn : Nat) : Unmoved s (settleBound s k d lpn) := by
  unfold settleBound
  split
  · next e => exact (useSketch_unmoved ..).of_eq e
  · next e => exact ((useSketch_unmoved ..).of_eq e).trans (readSketch_unmoved ..)

theorem prefetchSketch_unmoved (s : State) (k lpn gen size : Nat) : Unmoved s (prefetchSketch s k lpn gen size) := .of_rest rfl

theorem reloadTail_unmoved {s t : State} {d : Desc} {key : TailKey} (h : reloadTail s d key = .ok t) : Unmoved s t := by
  unfold reloadTail at h
  split at h
  · cases h
  · cases h
  · next u b e =>
    unfold placeTail at h
    dsimp only at h
    split at h
    · cases h
    · next e' =>
      cases h
      exact ((loadTail_unmoved ..).of_eq e).trans ((sramGet_unmoved e').trans ((poke_unmoved ..).trans (.of_rest (by exact rfl))))

theorem prefetchNext_unmoved (s : State) (i k : Nat) (d : Desc) (a : Att) : Unmoved s (prefetchNext s i k d a) := by
  unfold prefetchNext
  split
  · exact .refl s
  dsimp only
  refine .trans (.foldl (fun s q => ?_) _ s) (.ite (.refl _) (.foldl (fun s p => .foldl (fun s q => ?_) _ s) _ _))
  · split
    · split
      · next h => exact reloadTail_unmoved h
      · exact .refl s
    · exact .refl s
  · exact (readSketch_unmoved ..).trans (prefetchSketch_unmoved ..)

theorem scanSlice_unmoved (s : State) (i k : Nat) (d : Desc) (a : Att) (x : Pat) (q : AttQ) :
    Unmoved s (scanSlice s i k d a x q).1 := by
  unfold scanSlice
  dsimp only
  refine .trans (.trans (.trans (.trans (.foldl_fst (fun acc p => ?_) _ _ _) (.foldl (fun s l => ?_) _ _))
    (.foldl (fun s l => settleBound_unmoved ..) _ _)) (modMeter_unmoved ..)) (prefetchNext_unmoved ..)
  · exact headPages_unmoved acc.1 i k d a x p.1 p.2
  · refine .trans ?_ (settleRead_unmoved ..)
    exact .ite (useSketch_unmoved ..) (.refl s)

theorem runKernel_unmoved (s : State) (i k : Nat) (d : Desc) (a : Att) (x : Pat) (q : AttQ) (prog : Option Nat) :
    Unmoved s (runKernel s i k d a x q prog).1 := by
  unfold runKernel
  split
  · exact scanSlice_unmoved ..
  · dsimp only
    split
    · exact scanSlice_unmoved ..
    · exact (modMeter_unmoved ..).trans (prefetchNext_unmoved ..)

/-! ## The scheduler -/

theorem modEng_unmoved (s : State) (k : Nat) {f : Dill → Dill} (hf : ∀ d, (f d).pool = d.pool) : Unmoved s (modEng s k f) := by
  refine ⟨rfl, rfl, fun _ => id, fun j => ?_, fun _ => id⟩
  unfold modEng dillOf
  rw [modDill_dill]
  by_cases h : j = k
  · subst h
    rw [agetD_aset_same, hf]
  · rw [agetD_aset_other _ h]

theorem modCmd_unmoved (s : State) (k i : Nat) (f : CmdSlot → CmdSlot) : Unmoved s (modCmd s k i f) :=
  modEng_unmoved _ _ fun _ => rfl

theorem fillSlot_unmoved (s : State) (k i : Nat) (c : CmdSlot) : Unmoved s (fillSlot s k i c) := modEng_unmoved _ _ fun _ => rfl

theorem modMerge_unmoved (s : State) (f : MergeSt → MergeSt) : Unmoved s (modMerge s f) := .of_rest rfl

theorem pauseAfter_unmoved (s : State) (k n t : Nat) : Unmoved s (pauseAfter s k n t) := modEng_unmoved _ _ fun _ => rfl

theorem runScan_unmoved (s : State) (ctx k e : Nat) (m : Msg) (i : Nat) (d : Desc) : Unmoved s (runScan s ctx k e m i d) := by
  unfold runScan
  dsimp only
  have hk := runKernel_unmoved s i k d (Att.parse m.be m.payload) (attPattern m.be (Att.parse m.be m.payload) m.payload d)
    (attQuery m.be (Att.parse m.be m.payload) m.payload d (attPattern m.be (Att.parse m.be m.payload) m.payload d)).1
    (kernelOf s m.tenant (Att.parse m.be m.payload).mode d)
  refine hk.trans (.trans (.ite (.refl _) (pauseAfter_unmoved ..)) (.ite (.refl _) (modMerge_unmoved ..)))

theorem runHeld_unmoved (s : State) (p : HeldScan) : Unmoved s (runHeld s p) := by
  unfold runHeld
  extract_lets s1 s2
  have h2 : Unmoved s s2 := by
    refine (modMerge_unmoved s fun y => { y with held := y.held.filter fun q => decide (q ≠ p) }).trans ?_
    unfold s2
    split
    · exact modEng_unmoved _ _ fun _ => rfl
    · exact .refl _
  split
  · exact h2
  · split
    · exact h2.trans (runScan_unmoved ..)
    · exact h2

theorem issueHeld_unmoved (s : State) (k : Nat) : Unmoved s (issueHeld s k) := by
  unfold issueHeld
  refine .foldl (fun s p => ?_) _ s
  split
  · exact .refl s
  · dsimp only
    split
    · exact (fillSlot_unmoved ..).trans (modMerge_unmoved ..)
    · exact modMerge_unmoved ..

theorem takeLane_unmoved (s : State) (k i : Nat) : Unmoved s (takeLane s k i) := by
  unfold takeLane
  extract_lets d bg c s1 l0 s2
  have h1 : Unmoved s s1 := by
    unfold s1
    split
    · split
      · exact .refl s
      · refine .trans ?_ (bump_unmoved ..)
        exact (modCmd_unmoved ..).trans (modEng_unmoved _ _ fun _ => rfl)
    · exact .refl s
  have h2 : Unmoved s1 s2 := by
    unfold s2
    split
    · exact .refl _
    · split <;> exact modEng_unmoved _ _ fun _ => rfl
  exact (h1.trans h2).trans ((modCmd_unmoved ..).trans (modEng_unmoved _ _ fun _ => rfl))

theorem scheduleN_unmoved : ∀ (n : Nat) (s : State) (k : Nat), Unmoved s (scheduleN n s k)
  | 0, s, _ => .refl s
  | n + 1, s, k => by
    unfold scheduleN
    split
    · exact .refl s
    · split
      · exact .refl s
      · split
        · exact (runHeld_unmoved ..).trans (scheduleN_unmoved n ..)
        · exact takeLane_unmoved ..

theorem schedule_unmoved (s : State) (k : Nat) : Unmoved s (schedule s k) :=
  (issueHeld_unmoved ..).trans (scheduleN_unmoved ..)

end Sys2Proof.Proofs

namespace Sys2Proof.Proofs
open Sys2Proof.Machine Sys2Proof.Laws

/-!
Live operations (O40, 16_lifecycle.md R383 to R394). Without a session a write of lc_go is counted, with one `startOp` takes the operation by
its number. What a retirement or the end of a retraining sets going besides (revocations, tails that leave, commands that begin) moves
no die (`Unmoved`), so that the operation and the target stand as the start or the end has left them.
-/

/-! ## Revocations move no die -/

theorem InIndex.unmoved {s t : State} (f : InIndex s t) : Unmoved s t :=
  .of_parts (congrArg State.life f :) (congrArg State.ledg f :) (congrArg (fun v : State => v.mem.stackCtl) f :)
    (congrArg (fun v : State => v.dill.eng) f :) (congrArg State.msgs f :)

theorem insertName_unmoved (s : State) (tenant name prio i gen : Nat) :
    Unmoved s (insertName s tenant name prio i gen).1 := by
  unfold insertName
  have hi := (insertAll_inIndex (liveHubs s) ⟨nameKey tenant name, clsRegion, prio, regionKey i gen⟩ s).unmoved
  split
  · next e => exact (hi.of_eq e).trans (.of_rest (by exact rfl))
  · exact hi

theorem answerControl_unmoved (s : State) (id : Nat) (st : Status) (key count : Nat) :
    Unmoved s (answerControl s id st key count) := by
  unfold answerControl
  split
  · exact .refl s
  · exact .trans (.ite (.refl s) (countRefusal_unmoved ..)) (answer_unmoved ..)

theorem answerAll_unmoved (s : State) (l : List Nat) (key : Nat) : Unmoved s (answerAll s l key) :=
  .foldl (fun _ _ => answerControl_unmoved ..) l s

theorem releaseRegion_unmoved (s : State) (r : Region) : Unmoved s (releaseRegion s r) := by
  unfold releaseRegion
  exact .ite (freeSlot_unmoved ..) (.ite ((freeSram_unmoved ..).trans (scrub_unmoved ..)) (.refl s))

theorem measureRevoke_unmoved (s : State) (r : Region) : Unmoved s (measureRevoke s r) := by
  unfold measureRevoke
  exact .ite (rmax_unmoved ..) (.refl s)

theorem endRevoke_unmoved (s : State) (i : Nat) (r : Region) : Unmoved s (endRevoke s i r) := by
  rw [endRevoke_eq]
  refine .trans ?_ (answerAll_unmoved ..)
  unfold revoked
  exact ((bump_unmoved ..).trans (releaseRegion_unmoved ..)).trans (.of_rest (by exact rfl))

theorem endReregister_unmoved (s : State) (i : Nat) (r : Region) (x : RegRec) (m : Nat) :
    Unmoved s (endReregister s i r x m) := by
  unfold endReregister
  extract_lets gen
  split
  next v got he =>
  have hv : Unmoved s v := by
    split at he
    · exact (insertName_unmoved ..).of_eq he
    · cases he
      exact .refl s
  extract_lets named s1 s2
  have h1 : Unmoved s s1 := hv.trans (.of_rest (by exact rfl))
  have h2 : Unmoved s1 s2 := by
    unfold s2
    split
    · exact (bump_unmoved ..).trans (answerControl_unmoved ..)
    · exact answerControl_unmoved ..
    · exact answerControl_unmoved ..
  exact (h1.trans h2).trans (answerAll_unmoved ..)

theorem finishRevoke_unmoved (s : State) (i : Nat) : Unmoved s (finishRevoke s i) := by
  unfold finishRevoke
  split
  · exact .refl s
  · split
    · exact .refl s
    · dsimp only
      split
      · exact (measureRevoke_unmoved ..).trans (endRevoke_unmoved ..)
      · exact (measureRevoke_unmoved ..).trans (endReregister_unmoved ..)

theorem modMsg_isSome (s : State) (id : Nat) (f : Msg → Msg) (i : Nat) : (msgOf (modMsg s id f) i).isSome = (msgOf s i).isSome := by
  by_cases h : i = id
  · subst h
    exact (congrArg Option.isSome (aget_amod_same i f s.msgs)).trans Option.isSome_map
  · exact congrArg Option.isSome (aget_amod_other h f s.msgs)

theorem setPhase_gone {s : State} {i : Nat} (id : Nat) (p : Phase) (h : msgOf s i = none) : msgOf (setPhase s id p) i = none := by
  have hp := setPhase_part (fun s => (msgOf s i).isSome) (fun s id f => modMsg_isSome s id f i)
    (fun s m => by rw [msgOf, freeUnits_msgs, msgOf]) s id p
  rw [h] at hp
  simpa using hp

theorem setPhase_unmoved (s : State) (id : Nat) (p : Phase) : Unmoved s (setPhase s id p) :=
  .of_gone (setPhase_life ..) (setPhase_ledg ..) (congrArg MemSt.stackCtl (setPhase_mem s id p))
    (congrArg DillSt.eng (setPhase_dill s id p)) fun _ => setPhase_gone id p

theorem startRevoke_unmoved (s : State) (i : Nat) (w : Option Nat) (x : Option (List Byte × Nat × Bool)) :
    Unmoved s (startRevoke s i w x) := by
  unfold startRevoke
  split
  · exact .refl s
  · split
    · extract_lets s1 h s2 s3
      have h2 : Unmoved s s2 := (dropName_inIndex s i).unmoved.trans (.of_rest (by exact rfl))
      have h3 : Unmoved s2 s3 := by
        unfold s3
        split
        · exact setPhase_unmoved ..
        · exact .refl _
      exact (h2.trans h3).trans (finishRevoke_unmoved ..)
    · dsimp only
      exact .trans (.trans (.of_rest (by exact rfl)) (answerControl_unmoved ..)) (finishRevoke_unmoved ..)
    · exact .refl s

theorem revokeScratch_unmoved (s : State) (d : Nat) : Unmoved s (revokeScratch s d) :=
  .foldl (f := fun s i => startRevoke s i none none) (fun _ _ => startRevoke_unmoved ..) _ s

theorem emptySram_unmoved (s : State) (k : Nat) (leaves : Bool) : Unmoved s (emptySram s k leaves) := by
  unfold emptySram
  dsimp only
  refine .trans (.trans (.foldl (fun s p => ?_) _ s) (uncacheUntil_unmoved ..)) (.foldl (fun s p => demote_unmoved s p) _ _)
  split
  · exact .ite (writeBack_unmoved ..) (evictTail_unmoved ..)
  · exact .refl s

/-! ## The start (R386) -/

/-- lc_go has been written with its lc_op. -/
def withOp (s : State) (op : Nat) : State := rset s .life_lc_op 0 0 op

theorem lcGo_refused {s : State} (op : Nat) (h : pfSession s = false) : lcGo s op = writeRefused s (primaryPort s) := by
  unfold lcGo
  rw [h]
  rfl

theorem lcGo_starts {s : State} (op : Nat) (h : pfSession s = true) : lcGo s op = startOp (withOp s op) := by
  unfold lcGo
  rw [h]
  rfl

/-- While an operation runs another is answered BUSY. -/
theorem lcGo_busy {s : State} {o : LiveOp} (op : Nat) (h : pfSession s = true) (ho : s.life.op = some o) :
    lcGo s op = { rset s .life_lc_op 0 0 op with life := { s.life with lcStatus := Status.busy.code } } := by
  rw [lcGo_starts op h]
  unfold startOp
  exact if_pos (show (withOp s op).life.op.isSome = true by rw [show (withOp s op).life.op = some o from ho]; rfl)

section
variable {s : State} {d : Nat} (h : MayGo s d)
include h

/-- Without an operation that runs the start turns on lc_op and lc_target alone. -/
theorem lcGo_fields {op : Nat} (hop : op < 8) : lcGo s op = startOp (withOp s op) ∧ rg (withOp s op) .life_lc_op = op ∧
    rg (withOp s op) .life_lc_target = d ∧ (withOp s op).life.op.isSome = false := by
  obtain ⟨hs, ho, hd⟩ := h
  refine ⟨lcGo_starts op hs, ?_, ?_, congrArg Option.isSome ho⟩
  · exact (rget_rset_same s .life_lc_op 0 0 op).trans (Nat.mod_eq_of_lt (hop.trans_le (by decide)))
  · exact (rget_rset_other s (r := .life_lc_op) (i := 0) (x := 0) op (by simp)).trans hd

theorem lcGo_retrain : lcGo s 1 =
    if d < 32 ∧ (sliceSt s d).st = 0 then startRetrain (withOp s 1) d false else endOp (withOp s 1) .bounds := by
  obtain ⟨e, h1, h2, h3⟩ := lcGo_fields h (op := 1) (by decide)
  rw [e]
  unfold startOp
  dsimp only
  rw [h1, h2, h3]
  rfl

theorem lcGo_retire : lcGo s 2 =
    if d < 32 ∧ (sliceSt s d).st = 0 then startRetire (withOp s 2) d else endOp (withOp s 2) .bounds := by
  obtain ⟨e, h1, h2, h3⟩ := lcGo_fields h (op := 2) (by decide)
  rw [e]
  unfold startOp
  dsimp only
  rw [h1, h2, h3]
  rfl

theorem lcGo_readmit : lcGo s 3 =
    if d < 32 ∧ (sliceSt s d).st = 3 then startReadmit (withOp s 3) d else endOp (withOp s 3) .bounds := by
  obtain ⟨e, h1, h2, h3⟩ := lcGo_fields h (op := 3) (by decide)
  rw [e]
  unfold startOp
  dsimp only
  rw [h1, h2, h3]
  rfl

/-- The hub that an operation names, as `startOp` tests it. -/
def isHubDie (d : Nat) : Bool := decide (32 ≤ d) && decide (d < 40)

theorem lcGo_failover : lcGo s 4 =
    if isHubDie d ∧ (hubSt s (d - 32)).st = 0 ∧ (hubSt s (d - 32)).up then
      (if failoverBusy s (d - 32) then endOp (withOp s 4) .busy else startFailover (withOp s 4) (d - 32))
    else endOp (withOp s 4) .bounds := by
  obtain ⟨e, h1, h2, h3⟩ := lcGo_fields h (op := 4) (by decide)
  rw [e]
  unfold startOp
  dsimp only
  rw [h1, h2, h3]
  rfl

theorem lcGo_failback : lcGo s 5 =
    if isHubDie d ∧ (hubSt s (d - 32)).st = 2 ∧ (hubSt s (d - 32)).up ∧ (hubSt s (d - 32)).ref25 then
      modLife (withOp s 5) fun l => { l with op := some ⟨5, d, false, 0, [], 0⟩, progress := 0 }
    else endOp (withOp s 5) .bounds := by
  obtain ⟨e, h1, h2, h3⟩ := lcGo_fields h (op := 5) (by decide)
  rw [e]
  unfold startOp
  dsimp only
  rw [h1, h2, h3]
  rfl

theorem lcGo_isolateTest : lcGo s 6 =
    if d < 32 ∧ (sliceSt s d).st = 3 then
      modLife (setSliceSt (withOp s 6) d 4 0) fun l => { l with op := some ⟨6, d, false, 0, [], 1⟩, progress := 1 }
    else if isHubDie d ∧ (hubSt s (d - 32)).st = 2 then
      modLife (setHubSt (withOp s 6) (d - 32) 3 0) fun l => { l with op := some ⟨6, d, false, 0, [], 1⟩, progress := 1 }
    else endOp (withOp s 6) .bounds := by
  obtain ⟨e, h1, h2, h3⟩ := lcGo_fields h (op := 6) (by decide)
  rw [e]
  unfold startOp
  dsimp only
  rw [h1, h2, h3]
  rfl

theorem lcGo_shutdown : lcGo s 7 =
    if s.life.node = 2 ∨ s.life.node = 3 then
      modLife (withOp s 7) fun l => { l with op := some ⟨7, 0, false, 0, [], 2⟩, progress := 1, node := 3 }
    else endOp (withOp s 7) .bounds := by
  obtain ⟨e, h1, h2, h3⟩ := lcGo_fields h (op := 7) (by decide)
  rw [e]
  unfold startOp
  dsimp only
  rw [h1, h2, h3]
  rfl

end

theorem isHubDie_iff (d : Nat) : isHubDie d = true ↔ 32 ≤ d ∧ d < 40 := by simp [isHubDie]

theorem hubSt_setHubSt_same (s : State) (q st lc : Nat) : hubSt (setHubSt s q st lc) q = { hubSt s q with st := st } := by
  unfold setHubSt dieStateRec
  dsimp only
  split
  · next e => rw [← e]
  · rw [hubSt_congr (congrArg LifeSt.hubs (journal_life ..)), hubSt_modHub_same]

theorem setHubSt_mem (s : State) (q st lc : Nat) : (setHubSt s q st lc).mem = s.mem := by
  unfold setHubSt dieStateRec
  dsimp only
  split <;> simp

/-! ## Starts that set more going -/

theorem startRetrain_slice (s : State) (k : Nat) (auto : Bool) : sliceSt (startRetrain s k auto) k = { sliceSt s k with st := 1 } :=
  sliceSt_setSliceSt_same ..

theorem startRetrain_stack (s : State) (k : Nat) (auto : Bool) : (stackSt (startRetrain s k auto) k).selfRef = List.range 64 := by
  unfold startRetrain stackSleeps modStack
  rw [stackSt, modLife_mem, modMem_mem, agetD_aset_same]

theorem startRetrain_cells (s : State) (k : Nat) (auto : Bool) : (startRetrain s k auto).mem.cells = s.mem.cells :=
  (congrArg MemSt.cells (setSliceSt_mem s k 1 0) :)

/-- The slice is RETIRING to its substitute, and nothing else is done yet. -/
def retiring (s : State) (k u : Nat) : State :=
  setSliceSt (modSlice s k fun x => { x with subst := some u, moved := [], tested := false }) k 2 0

/-- What a retirement sets going moves no die. -/
theorem retiring_slices (s : State) (k u : Nat) :
    (emptySram (revokeScratch (abortCmds (retiring s k u) k) k) k false).life.slices = (retiring s k u).life.slices :=
  ((revokeScratch_unmoved ..).trans (emptySram_unmoved ..)).slices.trans (congrArg LifeSt.slices (abortCmds_life ..))

theorem startRetire_eq {s : State} {k u : Nat} (hu : pickSubst s k = some u) : startRetire s k =
    modLife (emptySram (revokeScratch (abortCmds (retiring s k u) k) k) k false) fun l =>
      { l with op := some ⟨2, k, false, u, (extentsUsed s k).zip (extentsFree s u), 2⟩, progress := 0 } := by
  unfold startRetire
  rw [hu]
  rfl

/-- A retirement with a substitute leaves the slice RETIRING to it, and runs. -/
theorem startRetire_some {s : State} {k u : Nat} (hu : pickSubst s k = some u) :
    sliceSt (startRetire s k) k = { sliceSt s k with subst := some u, moved := [], tested := false, st := 2 } ∧
    (startRetire s k).life.op = some ⟨2, k, false, u, (extentsUsed s k).zip (extentsFree s u), 2⟩ := by
  rw [startRetire_eq hu]
  refine ⟨(sliceSt_congr (s := retiring s k u) ?_ k).trans ?_, rfl⟩
  · have h := retiring_slices s k u
    generalize emptySram (revokeScratch (abortCmds (retiring s k u) k) k) k false = v at h ⊢
    exact h
  · rw [retiring, sliceSt_setSliceSt_same, sliceSt_modSlice_same]

theorem startRetire_none {s : State} {k : Nat} (hu : pickSubst s k = none) : startRetire s k = endOp s .quota := by
  unfold startRetire
  rw [hu]

theorem startFailover_facts (s : State) (q : Nat) : hubSt (startFailover s q) q = { hubSt s q with st := 1 } ∧
    (startFailover s q).mem = s.mem := by
  obtain ⟨hm, -, hh, -⟩ := stepDown_rest (setHubSt s q 1 0) q
  exact ⟨(hubSt_congr hh q).trans (hubSt_setHubSt_same ..), hm.trans (setHubSt_mem ..)⟩

/-! ## The end of a retraining (R389) -/

theorem poolStart_none {s : State} {k : Nat} (h : (dillOf s k).pool = none) : poolStart s k = s := by
  unfold poolStart
  dsimp only
  rw [h]

/-- The retraining has ended well and the slice is in service; what waited has not begun yet. -/
def retrained (s : State) (k : Nat) : State :=
  let s := modStack s k fun x => { x with selfRef := [] }
  let s := opRecord (restartMargins (setSliceSt (endOp s .ok) k 0 0) k) k
  modLife s fun l => { l with progress := 4, retrainDue := l.retrainDue.filter fun x => decide (x ≠ k) }

theorem retrained_facts (s : State) (k : Nat) : (sliceSt (retrained s k) k).st = 0 ∧ (stackSt (retrained s k) k).selfRef = [] ∧
    (retrained s k).life.op = none ∧ (retrained s k).life.lcStatus = Status.ok.code ∧
    (retrained s k).life.retrainDue = s.life.retrainDue.filter fun x => decide (x ≠ k) := by
  unfold retrained
  extract_lets s1 s2
  have hl : s2.life = (setSliceSt (endOp s1 .ok) k 0 0).life := opRecord_life ..
  have hm : s2.mem = s1.mem := (opRecord_mem ..).trans (setSliceSt_mem (endOp s1 .ok) k 0 0)
  refine ⟨?_, ?_, ?_, ?_, ?_⟩
  · have : sliceSt s2 k = sliceSt (setSliceSt (endOp s1 .ok) k 0 0) k := sliceSt_congr (congrArg LifeSt.slices hl) k
    rw [sliceSt_setSliceSt_same] at this
    exact congrArg SliceSt.st this
  · rw [stackSt, modLife_mem, hm]
    exact congrArg Stack.selfRef (agetD_aset_same ..)
  · exact (congrArg LifeSt.op hl).trans (setSliceSt_op ..)
  · refine (congrArg LifeSt.lcStatus hl).trans ?_
    unfold setSliceSt dieStateRec
    dsimp only
    split <;> simp [endOp, modSlice]
  · exact congrArg (List.filter _) ((congrArg LifeSt.retrainDue hl).trans (setSliceSt_retrainDue ..))

theorem exec_stackRetrainComplete_ok {k : Slice} {s : State} {o : LiveOp} (ho : s.life.op = some o) (h1 : o.op = 1)
    (hk : o.target = (k : Nat)) : exec (.stackRetrainComplete k false) s =
      .next (nextRetrain (poolStart (schedule (retrained s k) k) k)) := by
  dsimp only [exec]
  unfold execStackRetrainComplete
  rw [ho]
  dsimp only
  rw [if_neg (by simp [h1, hk])]
  rfl

theorem exec_stackRetrainComplete_failed {k : Slice} {s : State} {o : LiveOp} (ho : s.life.op = some o) (h1 : o.op = 1)
    (hk : o.target = (k : Nat)) : exec (.stackRetrainComplete k true) s =
      .next (nextRetrain (opRecord (endOpFree (dropSliceRecs (setSliceSt s k 5 s.life.lcStatus) k)) k)) := by
  dsimp only [exec]
  unfold execStackRetrainComplete
  rw [ho]
  dsimp only
  rw [if_neg (by simp [h1, hk]), if_pos rfl]

theorem exec_stackRetrainComplete_stands {k : Slice} {failed : Bool} {s : State}
    (h : ∀ o, s.life.op = some o → o.op ≠ 1 ∨ o.target ≠ (k : Nat)) : exec (.stackRetrainComplete k failed) s = .next s := by
  dsimp only [exec]
  unfold execStackRetrainComplete
  dsimp only
  split
  · next o ho => rw [if_pos (h o ho)]
  · rfl

theorem setSliceSt_dill (s : State) (k st lc : Nat) : (setSliceSt s k st lc).dill = s.dill := by
  unfold setSliceSt dieStateRec
  dsimp only
  split <;> simp [modSlice]

theorem opRecord_dill (s : State) (d : Nat) : (opRecord s d).dill = s.dill := by
  unfold opRecord dieStateRec
  simp

theorem retrained_dill (s : State) (k : Nat) : (retrained s k).dill = s.dill :=
  (opRecord_dill ..).trans (setSliceSt_dill (endOp (modStack s k fun x => { x with selfRef := [] }) .ok) k 0 0)

section
variable {s : State} {k : Nat}

/-- No other retraining is due, and no pool operation waits. -/
theorem retrained_resumes (hd : ∀ x ∈ s.life.retrainDue, x = k) (hp : (dillOf s k).pool = none) :
    nextRetrain (poolStart (schedule (retrained s k) k) k) = schedule (retrained s k) k := by
  obtain ⟨-, -, -, -, h⟩ := retrained_facts s k
  have hu := schedule_unmoved (retrained s k) k
  have hpool : (dillOf (schedule (retrained s k) k) k).pool = none := by
    rw [hu.pool, dillOf, retrained_dill]
    exact hp
  have hr : (retrained s k).life.retrainDue = [] := by
    rw [h, List.filter_eq_nil_iff]
    intro x hx
    simp [hd x hx]
  rw [poolStart_none hpool, nextRetrain_none]
  exact hu.retrainDue.trans hr

/-- Whatever command begins, the slice is in service, its stack awake, and the operation has ended. -/
theorem resumed_facts : (sliceSt (schedule (retrained s k) k) k).st = 0 ∧ (stackSt (schedule (retrained s k) k) k).selfRef = [] ∧
    (schedule (retrained s k) k).life.op = none ∧ (schedule (retrained s k) k).life.lcStatus = Status.ok.code := by
  obtain ⟨h1, h2, h3, h4, -⟩ := retrained_facts s k
  have hu := schedule_unmoved (retrained s k) k
  exact ⟨by rw [sliceSt_congr hu.slices]; exact h1, hu.awake k h2, hu.op.trans h3, hu.lcStatus.trans h4⟩

end

/-- Settles O40: each operation's start is one branch of `startOp`; what it or the end of a retraining sets going moves no die
(`Unmoved`). The targets refused with BOUNDS are assumption 39, the running reference clock that FAILBACK asks for is assumption 38. -/
theorem liveOperationsRun : Obligations.LiveOperationsRun := by
  unfold Obligations.LiveOperationsRun
  refine ⟨fun c op s hc => ?_, fun d s h => ?_, fun d s h => ?_, fun d s h => ?_, fun d s h => ?_, fun d s h => ?_, fun d s h => ?_,
    fun d s h => ?_, fun k failed s => ?_⟩
  · have he : exec c s = .next (lcGo s op) := by
      simp only [liveOps, List.mem_cons, Prod.mk.injEq, List.not_mem_nil, or_false] at hc
      rcases hc with ⟨rfl, rfl⟩ | ⟨rfl, rfl⟩ | ⟨rfl, rfl⟩ | ⟨rfl, rfl⟩ | ⟨rfl, rfl⟩ | ⟨rfl, rfl⟩ | ⟨rfl, rfl⟩ <;> rfl
    exact completes_of_exec he ⟨lcGo_refused op, fun o hs ho => lcGo_busy op hs ho⟩
  · refine completes_of_exec (show exec .retrain s = .next (lcGo s 1) from rfl) ⟨fun hd hs => ?_, fun hn => ?_⟩
    · rw [lcGo_retrain h, if_pos ⟨hd, hs⟩]
      exact ⟨startRetrain_slice (withOp s 1) d false, startRetrain_stack .., rfl, startRetrain_cells ..⟩
    · rw [lcGo_retrain h, if_neg (by omega)]
      rfl
  · refine completes_of_exec (show exec .retire s = .next (lcGo s 2) from rfl) ⟨fun u hd hs hu => ?_, fun hd hs hu => ?_, fun hn => ?_⟩
    · rw [lcGo_retire h, if_pos ⟨hd, hs⟩]
      obtain ⟨h1, h2⟩ := startRetire_some (s := withOp s 2) (k := d) (u := u) hu
      rw [h1]
      exact ⟨rfl, rfl, rfl, h2⟩
    · rw [lcGo_retire h, if_pos ⟨hd, hs⟩, startRetire_none (s := withOp s 2) hu]
      rfl
    · rw [lcGo_retire h, if_neg (by omega)]
      rfl
  · refine completes_of_exec (show exec .readmit s = .next (lcGo s 3) from rfl) ⟨fun hd hs => ?_, fun hn => ?_⟩
    · rw [lcGo_readmit h, if_pos ⟨hd, hs⟩]
      exact ⟨rfl, rfl, rfl⟩
    · rw [lcGo_readmit h, if_neg (by omega)]
      rfl
  · refine completes_of_exec (show exec .failover s = .next (lcGo s 4) from rfl)
      ⟨fun h1 h2 hs hu hb => ?_, fun h1 h2 hs hu hb => ?_, fun hn => ?_⟩
    · rw [lcGo_failover h, if_pos ⟨(isHubDie_iff d).mpr ⟨h1, h2⟩, hs, hu⟩, if_neg (by simp [hb])]
      obtain ⟨e1, e2⟩ := startFailover_facts (withOp s 4) (d - 32)
      refine ⟨congrArg HubSt.st e1, ?_, e2⟩
      have : 32 + (d - 32) = d := by omega
      exact congrArg (fun x => some (⟨4, x, false, 0, [], 2⟩ : LiveOp)) this
    · rw [lcGo_failover h, if_pos ⟨(isHubDie_iff d).mpr ⟨h1, h2⟩, hs, hu⟩, if_pos hb]
      rfl
    · rw [lcGo_failover h, if_neg ?_]
      · rfl
      · rintro ⟨hd, hs, hu⟩
        obtain ⟨h1, h2⟩ := (isHubDie_iff d).mp hd
        rcases hn with hn | hn | hn | hn
        · omega
        · omega
        · exact hn hs
        · simp [hn] at hu
  · refine completes_of_exec (show exec .failback s = .next (lcGo s 5) from rfl) ⟨fun h1 h2 hs hu hr => ?_, fun hn => ?_⟩
    · rw [lcGo_failback h, if_pos ⟨(isHubDie_iff d).mpr ⟨h1, h2⟩, hs, hu, hr⟩]
      exact ⟨rfl, rfl⟩
    · rw [lcGo_failback h, if_neg ?_]
      · rfl
      · rintro ⟨hd, hs, hu, hr⟩
        obtain ⟨h1, h2⟩ := (isHubDie_iff d).mp hd
        rcases hn with hn | hn | hn | hn | hn
        · omega
        · omega
        · exact hn hs
        · simp [hn] at hu
        · simp [hn] at hr
  · refine completes_of_exec (show exec .isolateTest s = .next (lcGo s 6) from rfl) ?_
    rw [lcGo_isolateTest h]
    by_cases hk : d < 32 ∧ (sliceSt s d).st = 3
    · rw [if_pos hk]
      refine ⟨setSliceSt_mem (withOp s 6) .., fun _ _ => ⟨?_, rfl⟩, fun h1 => by omega, fun hn => by omega⟩
      exact congrArg SliceSt.st (sliceSt_setSliceSt_same (withOp s 6) d 4 0)
    · rw [if_neg hk]
      by_cases hq : isHubDie d = true ∧ (hubSt s (d - 32)).st = 2
      · obtain ⟨h1, h2⟩ := (isHubDie_iff d).mp hq.1
        rw [if_pos hq]
        refine ⟨setHubSt_mem (withOp s 6) .., fun h3 => by omega, fun _ _ _ => ⟨?_, rfl⟩, fun hn => by omega⟩
        exact congrArg HubSt.st (hubSt_setHubSt_same (withOp s 6) (d - 32) 3 0)
      · rw [if_neg hq]
        exact ⟨rfl, fun h1 h2 => absurd ⟨h1, h2⟩ hk, fun h1 h2 h3 => absurd ⟨(isHubDie_iff d).mpr ⟨h1, h2⟩, h3⟩ hq, fun _ => rfl⟩
  · refine completes_of_exec (show exec .shutdown s = .next (lcGo s 7) from rfl) ?_
    rw [lcGo_shutdown h]
    by_cases hn : s.life.node = 2 ∨ s.life.node = 3
    · rw [if_pos hn]
      exact ⟨rfl, fun _ => ⟨rfl, rfl⟩, fun h2 h3 => by omega⟩
    · rw [if_neg hn]
      exact ⟨rfl, fun h1 => absurd h1 hn, fun _ _ => rfl⟩
  · refine completes_of_forall (fun _ e => by cases e) fun t ht => ⟨fun ho => ?_, fun o ho hn => ?_, fun o ho h1 hk hd hp hf => ?_,
      fun o ho h1 hk hd hf => ?_⟩
    · exact next_inj ht (exec_stackRetrainComplete_stands fun o h => by simp [ho] at h)
    · exact next_inj ht (exec_stackRetrainComplete_stands fun o' h => by cases ho.symm.trans h; exact hn)
    · subst hf
      cases next_inj ht (exec_stackRetrainComplete_ok ho h1 hk)
      rw [retrained_resumes hd hp]
      exact resumed_facts
    · subst hf
      cases next_inj ht (exec_stackRetrainComplete_failed ho h1 hk)
      have hl := opRecord_life (endOpFree (dropSliceRecs (setSliceSt s k 5 s.life.lcStatus) k)) k
      have he : (endOpFree (dropSliceRecs (setSliceSt s k 5 s.life.lcStatus) k)).life.retrainDue = [] :=
        (congrArg LifeSt.retrainDue (dropSliceRecs_life ..) :).trans ((setSliceSt_retrainDue ..).trans hd)
      have hs : (endOpFree (dropSliceRecs (setSliceSt s k 5 s.life.lcStatus) k)).life.slices =
          (setSliceSt s k 5 s.life.lcStatus).life.slices := (congrArg LifeSt.slices (dropSliceRecs_life ..) :)
      rw [nextRetrain_none ((congrArg LifeSt.retrainDue hl).trans he)]
      refine ⟨?_, congrArg LifeSt.op hl, ?_⟩
      · rw [sliceSt_congr ((congrArg LifeSt.slices hl).trans hs), sliceSt_setSliceSt_same]
      · rw [opRecord_mem]
        exact (dropSliceRecs_mem (setSliceSt s k 5 s.life.lcStatus) k).trans (setSliceSt_mem ..)

end Sys2Proof.Proofs

namespace Sys2Proof.Proofs
open Sys2Proof.Machine Sys2Proof.Laws

/-!
What goes out to other devices, and what the checks of a request do. A message that leaves, an answer and a request of the node's own
change connections, queues, the index and counters (`Outward`); a request that is judged again changes of the ledger no more than the
reads outstanding and the lines on their way here (`Judged`). On these rest the statements about ledger lines.
-/

/-! ## What leaves the node -/

/-- From s to t memory, sequences, merges, regions, sequencers, the life cycle and the ledger stand, and no message has come. -/
structure Outward (s t : State) : Prop where
  mem   : t.mem = s.mem
  seqs  : t.seqs = s.seqs
  merge : t.merge = s.merge
  regn  : t.regn = s.regn
  dill  : t.dill = s.dill
  life  : t.life = s.life
  ledg  : t.ledg = s.ledg
  gone  : ∀ id, msgOf s id = none → msgOf t id = none

namespace Outward
variable {a s t : State}

theorem refl (s : State) : Outward s s := ⟨rfl, rfl, rfl, rfl, rfl, rfl, rfl, fun _ => id⟩

theorem trans (f : Outward a s) (g : Outward s t) : Outward a t :=
  ⟨g.mem.trans f.mem, g.seqs.trans f.seqs, g.merge.trans f.merge, g.regn.trans f.regn, g.dill.trans f.dill, g.life.trans f.life,
    g.ledg.trans f.ledg, fun id h => g.gone id (f.gone id h)⟩

theorem ite {c : Prop} [Decidable c] (f : Outward a s) (g : Outward a t) : Outward a (if c then s else t) := by
  split <;> assumption

theorem of_eq {β : Type} {p : State × β} {r : β} (h : Outward s p.1) (e : p = (t, r)) : Outward s t := by subst e; exact h

theorem foldl {β : Type} {f : State → β → State} (hf : ∀ s x, Outward s (f s x)) :
    ∀ (l : List β) (s : State), Outward s (l.foldl f s)
  | [], s => refl s
  | x :: l, s => (hf s x).trans (foldl hf l (f s x))

theorem unmoved (f : Outward s t) : Unmoved s t :=
  .of_gone f.life f.ledg (congrArg MemSt.stackCtl f.mem) (congrArg DillSt.eng f.dill) f.gone

end Outward

theorem InIndex.outward {s t : State} (f : InIndex s t) : Outward s t :=
  ⟨(congrArg State.mem f :), (congrArg State.seqs f :), (congrArg State.merge f :), (congrArg State.regn f :),
    (congrArg State.dill f :), (congrArg State.life f :), (congrArg State.ledg f :), fun id h => by rw [msgOf, f.msgs]; exact h⟩

theorem bump_outward (s : State) (r : Reg) (i : Nat) : Outward s (bump s r i) := by constructor <;> simp [msgOf]

theorem sendMsg_outward (s : State) (id : Nat) (op : Opcode) (flags replyTo cls hint : Nat) (payload : List Byte) :
    Outward s (sendMsg s id op flags replyTo cls hint payload).1 := by constructor <;> simp [msgOf]

theorem answer_outward (s : State) (id : Nat) (op : Opcode) (st : Status) (hint : Nat) (payload : List Byte) :
    Outward s (answer s id op st hint payload) := by
  refine ⟨?_, ?_, ?_, ?_, ?_, ?_, ?_, fun _ h => gone_of_adel (answer_msgs ..) (.inr h)⟩ <;> simp

theorem dropMsg_outward (s : State) (id : Nat) : Outward s (dropMsg s id) := by
  refine ⟨?_, ?_, ?_, ?_, ?_, ?_, ?_, fun _ h => gone_of_adel (dropMsg_msgs ..) (.inr h)⟩ <;> simp

theorem refuse_msgs (s : State) (id : Nat) (st : Status) (hint : Nat) (payload resp : List Byte) :
    (refuse s id st hint payload resp).msgs = adel s.msgs id := by
  unfold refuse
  split
  · next h => exact (adel_eq_self h).symm
  · dsimp only
    split
    · split
      · simp [setMsgs]
      · split <;> simp [setMsgs]
    · exact completePcie_msgs ..
    · rfl

theorem refuse_outward (s : State) (id : Nat) (st : Status) (hint : Nat) (payload resp : List Byte) :
    Outward s (refuse s id st hint payload resp) := by
  refine ⟨?_, ?_, ?_, ?_, ?_, ?_, ?_, fun _ h => gone_of_adel (refuse_msgs ..) (.inr h)⟩ <;> simp

theorem refuseNine_outward (s : State) (id : Nat) (st : Status) (payload : List Byte) : Outward s (refuseNine s id st payload) := by
  unfold refuseNine
  split
  · exact .refl s
  · exact refuse_outward ..

theorem setPhase_outward (s : State) (id : Nat) (p : Phase) : Outward s (setPhase s id p) :=
  ⟨setPhase_mem .., setPhase_seqs .., setPhase_part (·.merge) (fun _ _ _ => rfl) freeUnits_merge s id p, setPhase_regn ..,
    setPhase_dill .., setPhase_life .., setPhase_ledg .., fun _ => setPhase_gone id p⟩


/-! ## Requests of the node's own -/

/-- The same, and the messages and what the node has shown stand too. -/
structure Asking (s t : State) : Prop extends Outward s t where
  msgs : t.msgs = s.msgs
  out  : t.out = s.out

namespace Asking
variable {a s t : State}

theorem refl (s : State) : Asking s s := ⟨.refl s, rfl, rfl⟩

theorem trans (f : Asking a s) (g : Asking s t) : Asking a t :=
  ⟨f.toOutward.trans g.toOutward, g.msgs.trans f.msgs, g.out.trans f.out⟩

theorem of_eq {β : Type} {p : State × β} {r : β} (h : Asking s p.1) (e : p = (t, r)) : Asking s t := by subst e; exact h

theorem foldl {β : Type} {f : State → β → State} (hf : ∀ s x, Asking s (f s x)) :
    ∀ (l : List β) (s : State), Asking s (l.foldl f s)
  | [], s => refl s
  | x :: l, s => (hf s x).trans (foldl hf l (f s x))

end Asking

theorem InIndex.asking {s t : State} (f : InIndex s t) : Asking s t :=
  ⟨f.outward, (congrArg State.msgs f :), (congrArg State.out f :)⟩

theorem bump_asking (s : State) (r : Reg) (i : Nat) : Asking s (bump s r i) := ⟨bump_outward .., by simp, by simp⟩

theorem modFab_asking (s : State) (f : FabSt → FabSt) : Asking s (modFab s f) := ⟨⟨rfl, rfl, rfl, rfl, rfl, rfl, rfl, fun _ => id⟩, rfl, rfl⟩

theorem modConn_asking (s : State) (id : Nat) (f : Conn → Conn) : Asking s (modConn s id f) := modFab_asking ..

theorem sendMsg_asking (s : State) (id : Nat) (op : Opcode) (flags replyTo cls hint : Nat) (payload : List Byte) :
    Asking s (sendMsg s id op flags replyTo cls hint payload).1 := ⟨sendMsg_outward .., by simp, by simp⟩

theorem toEgress_asking (s : State) (h id peer : Nat) (f : Frame) : Asking s (toEgress s h id peer f) :=
  ⟨by constructor <;> simp [msgOf], by simp, by simp⟩

theorem spillOne_asking {s t : State} {h : Nat} (e : spillOne s h = some t) : Asking s t := by
  unfold spillOne at e
  dsimp only at e
  split at e
  · cases e
  · obtain ⟨p, -, rfl⟩ := Option.map_eq_some_iff.mp e
    exact ((modConn_asking ..).trans (replace_index ..).inIndex.asking).trans (bump_asking ..)

theorem makeRoom_asking {s t : State} {h : Nat} (e : makeRoom s h = some t) : Asking s t := by
  unfold makeRoom at e
  split at e
  · cases e
    exact .refl s
  · exact spillOne_asking e

theorem enterConn_asking (s : State) (c : Conn) : Asking s (enterConn s c).1 := by
  unfold enterConn
  split
  · exact .refl s
  · exact .refl s
  · next e =>
    have h := makeRoom_asking e
    have hn : ∀ v : State, Asking v (newId v).2 := fun v => ⟨⟨rfl, rfl, rfl, rfl, rfl, rfl, rfl, fun _ => id⟩, rfl, rfl⟩
    dsimp only
    split
    · next e' => exact (h.trans (hn _)).trans ((insert_index ..).inIndex.of_eq e').asking
    · next e' => exact (h.trans (hn _)).trans ((insert_index ..).inIndex.of_eq e').asking
    · next e' =>
      refine ((h.trans (hn _)).trans ((insert_index ..).inIndex.of_eq e').asking).trans ?_
      exact modFab_asking _ fun x => { x with conns := aset x.conns _ _ }

theorem sendHello_asking (s : State) (id : Nat) : Asking s (sendHello s id) := by
  unfold sendHello
  split
  · exact .refl s
  · exact toEgress_asking ..

theorem openConn_asking (s : State) (h peer : Nat) : Asking s (openConn s h peer).1 := by
  unfold openConn
  split
  · exact .refl s
  · have hf : Asking s (fresh s).2 := ⟨⟨rfl, rfl, rfl, rfl, rfl, rfl, rfl, fun _ => id⟩, rfl, rfl⟩
    dsimp only
    split
    · next e => exact (hf.trans ((enterConn_asking ..).of_eq e)).trans (sendHello_asking ..)
    · next e => exact hf.trans ((enterConn_asking ..).of_eq e)

theorem ask_asking (s : State) (h peer : Nat) (op : Opcode) (about : Nat) (payload : List Byte) :
    Asking s (ask s h peer op about payload).1 := by
  unfold ask
  extract_lets go
  have hgo : ∀ s id, Asking s (go s id) := by
    intro s id
    unfold go
    split
    · exact .refl s
    · split
      · exact (sendMsg_asking ..).trans (modConn_asking ..)
      · exact modConn_asking ..
  split
  · exact hgo ..
  · split
    · next e => exact ((openConn_asking ..).of_eq e).trans (hgo ..)
    · next e => exact (openConn_asking ..).of_eq e

/-! ## A request is judged (12_ledger.md R295) -/

/-- From s to t no more has changed of these parts than the ledger's directory and the reads outstanding, and no message has come. -/
structure Judged (s t : State) : Prop where
  mem   : t.mem = s.mem
  seqs  : t.seqs = s.seqs
  merge : t.merge = s.merge
  regn  : t.regn = s.regn
  dill  : t.dill = s.dill
  life  : t.life = s.life
  ledg  : t.ledg = { s.ledg with dir := t.ledg.dir, reads := t.ledg.reads }
  gone  : ∀ id, msgOf s id = none → msgOf t id = none

namespace Judged
variable {a s t : State}

theorem of_outward (f : Outward s t) : Judged s t :=
  ⟨f.mem, f.seqs, f.merge, f.regn, f.dill, f.life, by rw [f.ledg], f.gone⟩

theorem refl (s : State) : Judged s s := of_outward (.refl s)

theorem trans (f : Judged a s) (g : Judged s t) : Judged a t :=
  ⟨g.mem.trans f.mem, g.seqs.trans f.seqs, g.merge.trans f.merge, g.regn.trans f.regn, g.dill.trans f.dill, g.life.trans f.life,
    by rw [g.ledg, f.ledg], fun id h => g.gone id (f.gone id h)⟩

theorem of_eq {β : Type} {p : State × β} {r : β} (h : Judged s p.1) (e : p = (t, r)) : Judged s t := by subst e; exact h

theorem foldl {β : Type} {f : State → β → State} (hf : ∀ s x, Judged s (f s x)) :
    ∀ (l : List β) (s : State), Judged s (l.foldl f s)
  | [], s => refl s
  | x :: l, s => (hf s x).trans (foldl hf l (f s x))

end Judged

theorem InIndex.judged {s t : State} (f : InIndex s t) : Judged s t := .of_outward f.outward

theorem noteRead_judged (s : State) (r : LineRead) : Judged s (modLedg s fun x => { x with reads := x.reads ++ [r] }) :=
  ⟨rfl, rfl, rfl, rfl, rfl, rfl, rfl, fun _ => id⟩

theorem sendRead_judged (s : State) (ep l : Nat) (why : ReadWhy) (pull : Bool) : Judged s (sendRead s ep l why pull).1 := by
  unfold sendRead
  dsimp only
  split
  · exact noteRead_judged ..
  · split
    · next e => exact (Judged.of_outward ((ask_asking ..).of_eq e).toOutward).trans (noteRead_judged ..)
    · next e =>
      have h := Judged.of_outward ((ask_asking ..).of_eq e).toOutward
      dsimp only
      split
      · exact h
      · exact h.trans (noteRead_judged ..)

theorem findLine_inIndex (s : State) (h l : Nat) : InIndex s (findLine s h l).1 := by
  unfold findLine
  split
  all_goals
    next e => exact (search_index (s := s) ..).inIndex.of_eq e

theorem newEntry_judged (s : State) (h l : Nat) (st : DirState) (epoch version : Nat) (content : List Byte) :
    Judged s (newEntry s h l st epoch version content).1 := by
  unfold newEntry
  split
  · exact .refl s
  · dsimp only
    split
    · next e =>
      exact ((insert_index ..).inIndex.of_eq e).judged.trans ⟨rfl, rfl, rfl, rfl, rfl, rfl, rfl, fun _ => id⟩
    · next e => exact ((insert_index ..).inIndex.of_eq e).judged

theorem startPull_judged (s : State) (h l : Nat) : Judged s (startPull s h l).1 := by
  unfold startPull
  split
  · split
    · next e => exact (newEntry_judged ..).of_eq e
    · next e =>
      have hn := (newEntry_judged ..).of_eq e
      split
      · exact hn
      · exact hn.trans (sendRead_judged ..)
  · exact .refl s

theorem seekLine_judged (s : State) (l : Nat) (why : ReadWhy) : Judged s (seekLine s l why).1 := by
  unfold seekLine
  split
  · exact .refl s
  · split
    · split
      · next e => exact ((findLine_inIndex ..).of_eq e).judged
      · next e =>
        have h := ((findLine_inIndex ..).of_eq e).judged
        split <;> exact h
      · next e =>
        have h := ((findLine_inIndex ..).of_eq e).judged
        split
        · exact h
        · split
          all_goals
            next e' => exact h.trans ((startPull_judged ..).of_eq e')
    · split
      · split
        · exact .refl s
        · split
          all_goals
            next e => exact (sendRead_judged ..).of_eq e
      · split
        all_goals
          next e => exact (sendRead_judged ..).of_eq e

theorem readHead_judged (s : State) : Judged s (readHead s) := by
  unfold readHead
  split
  · exact .refl s
  · split
    · exact .refl s
    · exact sendRead_judged ..

theorem nineHint_judged (s : State) (m : Msg) (st : Status) (kind ep hub gen l : Nat) :
    Judged s (nineHint s m st kind ep hub gen l).1 := by
  unfold nineHint
  dsimp only
  split
  all_goals first | exact .of_outward (bump_outward ..) | exact .refl s

theorem nineEpoch_judged (s : State) (m : Msg) : Judged s (nineEpoch s m).1 := by
  unfold nineEpoch
  dsimp only
  (repeat' split) <;> first | exact .refl s | exact readHead_judged s | exact nineHint_judged ..

theorem nineStale_judged (s : State) (m : Msg) : Judged s (nineStale s m).1 := by
  unfold nineStale
  dsimp only
  generalize (match lineHome s (effEpoch s m) (fld m.be m.payload 8 8) with
    | some (ep, h) => _
    | none => _ : Bool) = bad
  (repeat' split) <;> first | exact .refl s | exact nineHint_judged ..

theorem nineHome_judged (s : State) (m : Msg) : Judged s (nineHome s m).1 := by
  unfold nineHome
  dsimp only
  (repeat' split) <;> first | exact .refl s | exact nineHint_judged ..

theorem nineOwner_judged (s : State) (id : Nat) (m : Msg) : Judged s (nineOwner s id m).1 := by
  unfold nineOwner
  extract_lets drop go
  have hgo : ∀ handle w, Judged s (go handle w).1 := by
    intro handle w
    unfold go
    dsimp only
    split
    all_goals
      next e =>
        have h := (seekLine_judged ..).of_eq e
        first
          | exact h
          | ((repeat' split) <;> first | exact h | exact h.trans (nineHint_judged ..))
  (repeat' split) <;> first | exact .refl s | exact hgo ..

theorem nineExtent_judged (s : State) (m : Msg) : Judged s (nineExtent s m).1 := by
  unfold nineExtent
  split <;> exact .refl s

theorem nineClosing_judged (s : State) (m : Msg) : Judged s (nineClosing s m).1 := by
  unfold nineClosing
  dsimp only
  split <;> exact .refl s

theorem nineSeq_judged : ∀ (l : List (State → State × Nine)) (s : State), (∀ f ∈ l, ∀ v, Judged v (f v).1) →
    Judged s (nineSeq l s).1
  | [], s, _ => .refl s
  | f :: fs, s, h => by
    have hf := h f (List.mem_cons_self ..) s
    unfold nineSeq
    split
    · next e => exact (hf.of_eq e).trans (nineSeq_judged fs _ fun g hg => h g (List.mem_cons_of_mem _ hg))
    · exact hf

theorem nineWhole_judged (s : State) (m : Msg) : Judged s (nineWhole s m).1 := by
  refine nineSeq_judged _ s fun f hf => ?_
  simp only [List.mem_cons, List.not_mem_nil, or_false] at hf
  rcases hf with rfl | rfl
  · exact fun v => nineExtent_judged v m
  · exact fun v => nineClosing_judged v m

theorem nine_judged (s : State) (id : Nat) (m : Msg) (whole : Bool) : Judged s (nine s id m whole).1 := by
  refine nineSeq_judged _ s fun f hf => ?_
  simp only [List.mem_append, List.mem_cons, List.not_mem_nil, or_false] at hf
  rcases hf with (rfl | rfl | rfl | rfl) | hf
  · exact fun v => nineEpoch_judged v m
  · exact fun v => nineStale_judged v m
  · exact fun v => nineHome_judged v m
  · exact fun v => nineOwner_judged v id m
  · split at hf
    · rw [List.mem_singleton] at hf
      subst hf
      exact fun v => nineWhole_judged v m
    · cases hf

theorem runNine_judged (s : State) (id : Nat) : Judged s (runNine s id) := by
  unfold runNine
  split
  · exact .refl s
  · next m _ =>
    have h := nine_judged s id m true
    split
    · next e => exact (h.of_eq e).trans (.of_outward (setPhase_outward ..))
    · next e => exact (h.of_eq e).trans (.of_outward (setPhase_outward ..))
    · next e => exact (h.of_eq e).trans (.of_outward (refuseNine_outward ..))

theorem wake_judged (s : State) (pick : Phase → Bool) : Judged s (wake s pick) :=
  .foldl (f := fun s (p : Nat × Msg) => runNine s p.1) (fun s p => runNine_judged s p.1) _ s

theorem wakeLine_judged (s : State) (l : Nat) : Judged s (wakeLine s l) := wake_judged ..

/-- A message that waited for a line's home has come back to the queue. -/
def backFrom (k : Nat) (m : Msg) : Msg := if m.phase = .waitHome k then { m with phase := .arrived } else m

theorem wakeHome_msgs (s : State) (k : Nat) : (wakeHome s k).msgs = s.msgs.map fun p => (p.1, backFrom k p.2) := by
  refine List.map_congr_left fun p _ => ?_
  unfold backFrom
  split <;> rfl

theorem wakeHome_gone {s : State} {id : Nat} (k : Nat) (h : msgOf s id = none) : msgOf (wakeHome s k) id = none := by
  rw [msgOf, wakeHome_msgs, aget_map, show aget s.msgs id = none from h]
  rfl

theorem wakeHome_outward (s : State) (l : Nat) : Outward s (wakeHome s l) :=
  ⟨rfl, rfl, rfl, rfl, rfl, rfl, rfl, fun _ => wakeHome_gone l⟩

/-! ## Where nothing waits and nothing is due -/

/-- No message waits for a line. -/
theorem wakeLine_quiet {s : State} {l : Nat} (h : ∀ p ∈ s.msgs, p.2.phase ≠ .waitLine l) : wakeLine s l = s := by
  unfold wakeLine wake
  rw [List.filter_eq_nil_iff.mpr fun p hp => by simp [h p hp]]
  rfl

theorem readFailed_quiet {s : State} {l : Nat} (h : ∀ p ∈ s.msgs, p.2.phase ≠ .waitLine l) :
    readFailed s l = modLedg s fun y => { y with reads := y.reads.filter fun r => decide (r.line ≠ l) || ! r.why.checks } := by
  unfold readFailed
  dsimp only
  rw [List.filter_eq_nil_iff.mpr fun p hp => by simp [h p hp]]
  rfl

theorem resumeSources_quiet {s : State} (h : ∀ x ∈ s.ledg.moves, x.dest = true ∨ x.step ≠ 9) : resumeSources s = s := by
  unfold resumeSources
  rw [List.filter_eq_nil_iff.mpr fun x hx => by rcases h x hx with h | h <;> simp [h]]
  rfl

theorem localPulls_quiet {s : State} (h : ∀ p ∈ s.ledg.dir, p.2.state ≠ .arriving) : localPulls s = s := by
  unfold localPulls
  rw [List.filter_eq_nil_iff.mpr fun p hp => by simp [h p hp]]
  rfl

theorem flushPubs_quiet {s : State} (h : ∀ p ∈ s.ledg.pubs, p.sent = true) : ∀ n, flushPubs n s = s
  | 0 => rfl
  | n + 1 => by
    unfold flushPubs
    rw [List.find?_eq_none.mpr fun p hp => by simp [h p hp]]

/-- The ledger sends nothing where nothing is due. -/
theorem flush_quiet {s : State} (h : NothingDue s) : flush s = s := by
  obtain ⟨hp, hd, hm⟩ := h
  rw [flush, resumeSources_quiet hm, localPulls_quiet hd, flushPubs_quiet hp]

/-- What counts for that stands in the ledger. -/
theorem nothingDue_congr {s t : State} (h : t.ledg = s.ledg) (hn : NothingDue s) : NothingDue t := by
  unfold NothingDue
  rw [h]
  exact hn

end Sys2Proof.Proofs

namespace Sys2Proof.Proofs
open Sys2Proof.Machine Sys2Proof.Laws

/-!
Lines that the node holds (O18, 12_ledger.md R274 to R279): a RECALL, the end of a lease, and the answers to the node's own reads and
publishes. Each is taken to the ledger it leaves; what goes out besides changes no copy (`Outward`, `Judged`).
-/

/-! ## A RECALL (R278) -/

/-- Whether the node's copy of a line is older than a version. -/
def hadOlder (s : State) (l v : Nat) : Bool :=
  match aget s.ledg.copies l with
  | some c => decide (c.version < v)
  | none => false

/-- An older copy is gone. -/
def dropOlder (s : State) (l v : Nat) : State :=
  if hadOlder s l v then modLedg s fun y => { y with copies := adel y.copies l } else s

/-- A read that is outstanding is held to the recalled version. -/
def raiseFloor (s : State) (l v : Nat) : State :=
  if s.ledg.reads.any fun r => decide (r.line = l) then
    modLedg s fun y => { y with floors := aset y.floors l (max v (agetD y.floors l 0)) }
  else s

theorem exec_recall {s : State} {msg l v : Nat} {m : Msg} (h : mayStart s msg .recall = some m) (hl : l = fld m.be m.payload 8 8)
    (hv : v = fld m.be m.payload 16 8) (hr : rereads l = false) :
    exec (.recall msg) s = .next (answer (raiseFloor (dropOlder s l v) l v) msg .recallAck .ok 0 (recallBytes m.be l v)) := by
  subst hl hv
  dsimp only [exec]
  unfold execRecall
  rw [h]
  dsimp only
  rw [if_neg (by simp [hr])]
  rfl

theorem dropOlder_eq (s : State) (l v : Nat) : dropOlder s l v = { s with ledg := { s.ledg with copies := (dropOlder s l v).ledg.copies } } := by
  unfold dropOlder
  split <;> rfl

theorem raiseFloor_eq (s : State) (l v : Nat) : raiseFloor s l v = { s with ledg := { s.ledg with floors := (raiseFloor s l v).ledg.floors } } := by
  unfold raiseFloor
  split <;> rfl

theorem dropOlder_copies (s : State) (l v : Nat) :
    aget (dropOlder s l v).ledg.copies l = (aget s.ledg.copies l).bind fun c => if c.version < v then none else some c := by
  unfold dropOlder hadOlder
  cases h : aget s.ledg.copies l with
  | none => exact h
  | some c =>
    dsimp only [Option.bind_some]
    by_cases hv : c.version < v
    · rw [if_pos (decide_eq_true hv), if_pos hv]
      exact aget_adel_same ..
    · rw [if_neg (by simpa using hv), if_neg hv]
      exact h

theorem dropOlder_other (s : State) (l v : Nat) : OtherCopies s (dropOlder s l v) l := by
  intro j hj
  unfold dropOlder
  split
  · exact aget_adel_other hj _
  · rfl

theorem raiseFloor_floor {s : State} {l : Nat} (v : Nat) {r : LineRead} (hr : r ∈ s.ledg.reads) (hl : r.line = l) :
    agetD (raiseFloor s l v).ledg.floors l 0 = max v (agetD s.ledg.floors l 0) := by
  unfold raiseFloor
  rw [if_pos (List.any_eq_true.mpr ⟨r, hr, decide_eq_true hl⟩)]
  exact agetD_aset_same ..

/-! ## The end of a lease (R274) -/

theorem exec_leaseExpiry_none {s : State} {l : Nat} {c : LineCopy} (h : aget s.ledg.copies l = some c) (hn : c.lease = none) :
    exec (.leaseExpiry l) s = .next s := by
  obtain ⟨v, b, le⟩ := c
  cases hn
  dsimp only [exec]
  unfold execLeaseExpiry
  rw [h]

theorem exec_leaseExpiry_some {s : State} {l q e : Nat} {c : LineCopy} (h : aget s.ledg.copies l = some c) (hn : c.lease = some (q, e)) :
    exec (.leaseExpiry l) s = .next (modLedg (passTo s q e) fun y => { y with copies := adel y.copies l }) := by
  obtain ⟨v, b, le⟩ := c
  cases hn
  dsimp only [exec]
  unfold execLeaseExpiry
  rw [h]

/-! ## The answers to the node's own requests -/

/-- The request is off its connection and the answer off the queue. -/
def taken (s : State) (msg id : Nat) (a : Ask) : State :=
  dropMsg (modConn s id fun c => { c with asked := c.asked.erase a }) msg

section
variable (s : State) (msg id : Nat) (a : Ask)

theorem taken_outward : Outward s (taken s msg id a) := (modConn_asking ..).toOutward.trans (dropMsg_outward ..)

theorem taken_msgs : (taken s msg id a).msgs = adel s.msgs msg := by
  rw [taken, dropMsg_msgs, modConn_msgs]

theorem taken_gone : msgOf (taken s msg id a) msg = none := by
  rw [msgOf, taken_msgs, aget_adel_same]

end

section
variable {s : State} {msg id l : Nat} {op : Opcode} {m : Msg} {c : Conn} {a : Ask}

theorem taken_waits (h : LineQuiet s l) : ∀ p ∈ (taken s msg id a).msgs, p.2.phase ≠ .waitLine l := by
  intro p hp
  rw [taken_msgs] at hp
  exact h.2 p (List.mem_of_mem_filter hp)

theorem takeAsk_of_answers (h : Answers s msg op m id c a) :
    takeAsk s m = (modConn s id fun c => { c with asked := c.asked.erase a }, some a) := by
  obtain ⟨-, ⟨q, n, ho⟩, hc, hf⟩ := h
  unfold takeAsk
  rw [ho]
  dsimp only
  rw [hc, Option.bind_some, hf]

/-- An OPEN connection stays with the request off it, where the answer held no reassembly space. -/
theorem taken_conn (h : Answers s msg op m id c a) (ho : c.state = .open_) (hu : m.units = 0) :
    connOf (taken s msg id a) id = some { c with asked := c.asked.erase a } := by
  obtain ⟨hm, ⟨q, n, hor⟩, hc, -⟩ := h
  have hm' : aget s.msgs msg = some m := (Option.filter_eq_some_iff.mp hm).1
  have hv : connOf (setMsgs (modConn s id fun c => { c with asked := c.asked.erase a }) (adel s.msgs msg)) id =
      some { c with asked := c.asked.erase a } := by
    refine (aget_amod_same id (fun c : Conn => { c with asked := c.asked.erase a }) s.fab.conns).trans ?_
    rw [show aget s.fab.conns id = some c from hc]
    rfl
  unfold taken dropMsg
  rw [modConn_msgs, hm']
  dsimp only
  rw [hor]
  dsimp only
  rw [freeUnits, if_pos (.inl hu), settleConn, hv]
  dsimp only
  rw [if_neg (by simp [ho])]
  exact hv

/-- The answer to a read installs the line when it brings one, and fails it otherwise. -/
theorem exec_ledgerReadResponse (h : Answers s msg .ledgerRead m id c a) (hl : l = fld m.be m.payload 16 8) {st : Status}
    (hs : Status.ofCode (fld m.be m.payload 1 1) = some st) : exec (.ledgerReadResponse msg) s =
      if st = .ok ∨ st = .notFound then
        .next (flush (installLine (taken s msg id a) l (some st) (fld m.be m.payload 2 2) (fld m.be m.payload 8 8)
          (takeBytes m.payload 24 64)))
      else .next (readFailed (taken s msg id a) l) := by
  subst hl
  dsimp only [exec]
  unfold execLedgerReadResponse
  rw [h.1]
  dsimp only
  rw [takeAsk_of_answers h, hs]
  dsimp only
  by_cases hst : st = .ok ∨ st = .notFound
  · rw [if_pos hst, if_pos (by simpa using hst)]
    rfl
  · rw [if_neg hst, if_neg (by simpa using hst)]
    rfl

/-- The answer to a publish takes the publish from those that wait and the copy from the node, and the line is read again. -/
theorem exec_ledgerPublishResponse (h : Answers s msg .ledgerPublish m id c a) (hl : l = fld m.be m.payload 16 8) {p : OwnPub}
    (hp : s.ledg.pubs.find? (fun p => decide (p.line = l)) = some p) (hk : lineKind l = lkRegion)
    (hmv : moveOf s (l % 2 ^ 62) true = none) :
    exec (.ledgerPublishResponse msg) s = .next
      (let u := modLedg (taken s msg id a) fun y =>
        { y with pubs := y.pubs.filter fun q => decide (q.line ≠ l), copies := adel y.copies l }
      if Status.ofCode (fld m.be m.payload 1 1) = some .ok then flush (readAgain u l)
      else match lineHome u u.ledg.newest l with
        | some (ep, _) => (sendRead u ep l .recalled false).1
        | none => u) := by
  subst hl
  have hlc : ∀ (v : State) b, lineChanged v (fld m.be m.payload 16 8) b = v := fun v b => by
    unfold lineChanged
    rw [if_neg (by rw [hk]; decide), if_neg (by rw [hk]; decide), if_neg (by rw [hk]; decide)]
  have hd : ∀ v : State, v.ledg.moves = s.ledg.moves → dropDest v (fld m.be m.payload 16 8 % 2 ^ 62) = v := fun v hv => by
    unfold dropDest moveOf
    rw [hv, show (s.ledg.moves.find? _) = none from hmv]
  have hlg := (taken_outward s msg id a).ledg
  dsimp only [exec]
  unfold execLedgerPublishResponse
  rw [h.1]
  dsimp only
  rw [takeAsk_of_answers h]
  dsimp only
  rw [show (dropMsg (modConn s id fun c => { c with asked := c.asked.erase a }) msg) = taken s msg id a from rfl, hlg, hp]
  dsimp only
  split
  · rw [hlc]
    rfl
  · rw [hd _ (by rw [modLedg_ledg, modLedg_ledg, hlg])]
    rfl

end

/-! ## A read is sent again -/

/-- From s to t no more has changed of these parts than the reads outstanding. -/
structure Rereads (s t : State) : Prop where
  msgs : t.msgs = s.msgs
  mem  : t.mem = s.mem
  seqs : t.seqs = s.seqs
  ledg : t.ledg = { s.ledg with reads := t.ledg.reads }

theorem Asking.rereads {s t : State} (f : Asking s t) : Rereads s t := ⟨f.msgs, f.mem, f.seqs, by rw [f.ledg]⟩

theorem Rereads.trans {a s t : State} (f : Rereads a s) (g : Rereads s t) : Rereads a t :=
  ⟨g.msgs.trans f.msgs, g.mem.trans f.mem, g.seqs.trans f.seqs, by rw [g.ledg, f.ledg]⟩

theorem noteRead_rereads (s : State) (r : LineRead) : Rereads s (modLedg s fun x => { x with reads := x.reads ++ [r] }) :=
  ⟨rfl, rfl, rfl, rfl⟩

theorem sendRead_rereads (s : State) (ep l : Nat) (why : ReadWhy) (pull : Bool) : Rereads s (sendRead s ep l why pull).1 := by
  unfold sendRead
  dsimp only
  split
  · exact noteRead_rereads ..
  · split
    · next e => exact ((ask_asking ..).of_eq e).rereads.trans (noteRead_rereads ..)
    · next e =>
      have h := ((ask_asking ..).of_eq e).rereads
      dsimp only
      split
      · exact h
      · exact h.trans (noteRead_rereads ..)

/-- What the node lives by is outstanding afterwards, whether its request went out or not (assumption 182). -/
theorem sendRead_stays (s : State) (ep l : Nat) {why : ReadWhy} (pull : Bool) (hw : why.checks = false) :
    ∃ r ∈ (sendRead s ep l why pull).1.ledg.reads, r.line = l := by
  have hn : ∀ v : State, ∃ r ∈ (modLedg v fun x => { x with reads := x.reads ++ [⟨l, why, ledgerHub s, now v (ledgerHub s)⟩] }).ledg.reads,
      r.line = l := fun v => ⟨_, List.mem_append_right _ (List.mem_singleton.mpr rfl), rfl⟩
  unfold sendRead
  dsimp only
  split
  · exact hn s
  · split
    · next v _ => exact hn v
    · next v _ =>
      dsimp only
      rw [if_neg (by simp [hw])]
      exact hn v

theorem readAgain_rereads (s : State) (l : Nat) : Rereads s (readAgain s l) := by
  unfold readAgain
  split
  · exact (Asking.refl s).rereads
  · split
    · exact sendRead_rereads ..
    · exact (Asking.refl s).rereads

theorem readAgain_stays {s : State} {l : Nat} {x : Nat × Nat} (h : lineHome s s.ledg.newest l = some x) :
    ∃ r ∈ (readAgain s l).ledg.reads, r.line = l := by
  unfold readAgain
  split
  · next ha =>
    obtain ⟨r, hr, hl⟩ := List.any_eq_true.mp ha
    exact ⟨r, hr, of_decide_eq_true hl⟩
  · obtain ⟨ep, y⟩ := x
    rw [h]
    exact sendRead_stays s ep l false rfl

/-- Nothing is due where of the ledger's own work there is no more than before. -/
theorem nothingDue_of {s t : State} (hp : ∀ p ∈ t.ledg.pubs, p ∈ s.ledg.pubs) (hd : t.ledg.dir = s.ledg.dir)
    (hm : t.ledg.moves = s.ledg.moves) (hn : NothingDue s) : NothingDue t := by
  obtain ⟨np, nd, nm⟩ := hn
  exact ⟨fun p h => np p (hp p h), by rw [hd]; exact nd, by rw [hm]; exact nm⟩

theorem Rereads.nothingDue {s t : State} (f : Rereads s t) (hn : NothingDue s) : NothingDue t :=
  nothingDue_of (by rw [f.ledg]; exact fun _ h => h) (by rw [f.ledg]) (by rw [f.ledg]) hn

/-! ## What a read brought is installed -/

section
variable {s : State} {l v : Nat} {r : LineRead} {st : Status} (lease : Nat) (b : List Byte)

/-- The reads of a line are over. -/
def readOver (s : State) (l v : Nat) : State :=
  modLedg s fun y =>
    { y with reads := y.reads.filter fun r => decide (r.line ≠ l), floors := adel y.floors l,
             verify := if v < agetD s.ledg.floors l 0 then y.verify else y.verify.filter fun v => decide (v ≠ l) }

/-- An answer older than a RECALL's version is not installed: the line is read again, or not at all without a home. -/
theorem installLine_old (hr : s.ledg.reads.filter (fun r => decide (r.line = l)) = [r]) (hv : v < agetD s.ledg.floors l 0) :
    Rereads (readOver s l v) (installLine s l (some st) lease v b) := by
  unfold installLine
  dsimp only
  rw [hr]
  dsimp only [List.head?_cons]
  rw [if_pos hv]
  change Rereads (readOver s l v) (match lineHome (readOver s l v) (readOver s l v).ledg.newest l with
    | some (ep, _) => (sendRead (readOver s l v) ep l r.why false).1
    | none => readOver s l v)
  split
  · exact sendRead_rereads ..
  · exact (Asking.refl _).rereads

/-- The copy that an answer brought, with its lease from the sending of the read. -/
def installed (s : State) (l v lease : Nat) (b : List Byte) (r : LineRead) : State :=
  modLedg (readOver s l v) fun y =>
    { y with copies := aset y.copies l ⟨v, b, if lease = 0 then none else some (r.hub, r.at_ + lease * 1000)⟩ }

/-- Another answer is installed. -/
theorem installLine_new (hr : s.ledg.reads.filter (fun r => decide (r.line = l)) = [r]) (hw : ∀ h, r.why ≠ .pull h)
    (hv : agetD s.ledg.floors l 0 ≤ v) (hk : lineKind l = lkRegion) (hq : ∀ p ∈ s.msgs, p.2.phase ≠ .waitLine l)
    (hst : st = .ok ∨ st = .notFound) :
    installLine s l (some st) lease v b = installed s l v lease b r := by
  have hlc : ∀ (v : State) b, lineChanged v l b = v := fun v b => by
    unfold lineChanged
    rw [if_neg (by rw [hk]; decide), if_neg (by rw [hk]; decide), if_neg (by rw [hk]; decide)]
  unfold installLine
  dsimp only
  rw [hr]
  dsimp only [List.head?_cons]
  rw [if_neg (Nat.not_lt.mpr hv)]
  split
  · next h _ _ e =>
    have hm := List.mem_singleton.mp (List.mem_of_find?_eq_some e)
    exact absurd (congrArg LineRead.why hm.symm) (hw h)
  · rw [if_pos (by simpa using hst), hlc]
    exact wakeLine_quiet hq

end

/-! ## The obligation -/

section
variable {s : State} {msg l id : Nat} {m : Msg} {c : Conn} {a : Ask}

theorem recall_settles {v : Nat} (h : mayStart s msg .recall = some m) (hl : l = fld m.be m.payload 8 8) (hv : v = fld m.be m.payload 16 8)
    (hr : rereads l = false) : Completes (.recall msg) s fun t =>
      (∃ u, u = { s with ledg := u.ledg } ∧ t = answer u msg .recallAck .ok 0 (recallBytes m.be l v)) ∧
      (∀ c, aget s.ledg.copies l = some c → aget t.ledg.copies l = if c.version < v then none else some c) ∧
      (aget s.ledg.copies l = none → aget t.ledg.copies l = none) ∧ OtherCopies s t l ∧
      (∀ r ∈ s.ledg.reads, r.line = l → agetD t.ledg.floors l 0 = max v (agetD s.ledg.floors l 0)) ∧
      t.ledg.dir = s.ledg.dir ∧ t.mem = s.mem := by
  refine completes_of_exec (exec_recall h hl hv hr) ?_
  have hd := dropOlder_eq s l v
  have hf := raiseFloor_eq (dropOlder s l v) l v
  have hall : raiseFloor (dropOlder s l v) l v = { s with ledg := (raiseFloor (dropOlder s l v) l v).ledg } := by rw [hf, hd]
  have hcp : (raiseFloor (dropOlder s l v) l v).ledg.copies = (dropOlder s l v).ledg.copies := by rw [hf]
  have hrd : (dropOlder s l v).ledg.reads = s.ledg.reads := by rw [hd]
  have hfl : (dropOlder s l v).ledg.floors = s.ledg.floors := by rw [hd]
  have hdir : (raiseFloor (dropOlder s l v) l v).ledg.dir = s.ledg.dir := by rw [hf, hd]
  have hmem : (raiseFloor (dropOlder s l v) l v).mem = s.mem := by rw [hf, hd]
  have out := answer_outward (raiseFloor (dropOlder s l v) l v) msg .recallAck .ok 0 (recallBytes m.be l v)
  refine ⟨⟨_, hall, rfl⟩, fun c hc => ?_, fun hn => ?_, fun j hj => ?_, fun r hr hrl => ?_, ?_, out.mem.trans hmem⟩
  · rw [out.ledg, hcp, dropOlder_copies, hc]
    rfl
  · rw [out.ledg, hcp, dropOlder_copies, hn]
    rfl
  · rw [out.ledg, hcp]
    exact dropOlder_other s l v j hj
  · rw [out.ledg, raiseFloor_floor v (hrd ▸ hr) hrl, hfl]
  · rw [out.ledg, hdir]

theorem leaseExpiry_settles {c' : LineCopy} (h : aget s.ledg.copies l = some c') : Completes (.leaseExpiry l) s fun t =>
      (c'.lease = none → t = s) ∧
      (∀ h e, c'.lease = some (h, e) → aget t.ledg.copies l = none ∧ now t h = max (now s h) e ∧ OtherCopies s t l ∧
        t = { s with ledg := { s.ledg with copies := t.ledg.copies }, life := t.life }) := by
  cases hn : c'.lease with
  | none => exact completes_of_exec (exec_leaseExpiry_none h hn) ⟨fun _ => rfl, nofun⟩
  | some x =>
    obtain ⟨q, e⟩ := x
    refine completes_of_exec (exec_leaseExpiry_some h hn) ⟨nofun, fun q' e' he => ?_⟩
    obtain ⟨rfl, rfl⟩ : q = q' ∧ e = e' := by simpa using he
    refine ⟨?_, now_passTo .., fun j hj => ?_, ?_⟩
    · rw [modLedg_ledg]
      exact aget_adel_same ..
    · rw [modLedg_ledg]
      exact (aget_adel_other hj _).trans (by rw [show (passTo s q e).ledg = s.ledg from rfl])
    · rfl

/-- The answer to a read: the line is installed, or read again, or the read fails. -/
theorem readResponse_settles {v : Nat} {r : LineRead} {st : Status} (h : Answers s msg .ledgerRead m id c a)
    (hl : l = fld m.be m.payload 16 8) (hv : v = fld m.be m.payload 8 8) (hk : lineKind l = lkRegion) (hq : LineQuiet s l)
    (hn : NothingDue s) (hr : s.ledg.reads.filter (fun r => decide (r.line = l)) = [r]) (hw : ∀ h, r.why ≠ .pull h)
    (hs : Status.ofCode (fld m.be m.payload 1 1) = some st) : Completes (.ledgerReadResponse msg) s fun t =>
      msgOf t msg = none ∧ t.mem = s.mem ∧ OtherCopies s t l ∧
      (st ≠ .ok → st ≠ .notFound → aget t.ledg.copies l = aget s.ledg.copies l ∧
        t.ledg.reads = s.ledg.reads.filter fun x => decide (x.line ≠ l) || ! x.why.checks) ∧
      ((st = .ok ∨ st = .notFound) → v < agetD s.ledg.floors l 0 → aget t.ledg.copies l = aget s.ledg.copies l) ∧
      ((st = .ok ∨ st = .notFound) → agetD s.ledg.floors l 0 ≤ v →
        aget t.ledg.copies l = some ⟨v, takeBytes m.payload 24 64,
          if fld m.be m.payload 2 2 = 0 then none else some (r.hub, r.at_ + fld m.be m.payload 2 2 * 1000)⟩ ∧
        (∀ x ∈ t.ledg.reads, x.line ≠ l) ∧
        (c.state = .open_ → m.units = 0 → connOf t id = some { c with asked := c.asked.erase a })) := by
  have he := exec_ledgerReadResponse h hl hs
  have hf := taken_outward s msg id a
  have hgone := taken_gone s msg id a
  have hcon := taken_conn h
  have hwait := taken_waits (msg := msg) (id := id) (a := a) hq
  rw [← hv] at he
  generalize taken s msg id a = u at *
  have hu : NothingDue u := nothingDue_congr hf.ledg hn
  have hru : u.ledg.reads.filter (fun r => decide (r.line = l)) = [r] := by rw [hf.ledg]; exact hr
  by_cases hst : st = .ok ∨ st = .notFound
  · rw [if_pos hst] at he
    by_cases hold : v < agetD s.ledg.floors l 0
    · have hi := installLine_old (st := st) (fld m.be m.payload 2 2) (takeBytes m.payload 24 64) hru (by rw [hf.ledg]; exact hold)
      have hro : NothingDue (readOver u l v) := nothingDue_of (fun _ h => h) rfl rfl hu
      rw [flush_quiet (hi.nothingDue hro)] at he
      refine completes_of_exec he ?_
      generalize installLine u l (some st) (fld m.be m.payload 2 2) v (takeBytes m.payload 24 64) = t at *
      have hc : t.ledg.copies = s.ledg.copies := by
        rw [hi.ledg]
        exact (congrArg LedgSt.copies hf.ledg :)
      refine ⟨by rw [msgOf, hi.msgs]; exact hgone, hi.mem.trans hf.mem, fun j _ => by rw [hc], fun h1 h2 => ?_, fun _ _ => by rw [hc],
        fun _ hv' => absurd hold (Nat.not_lt.mpr hv')⟩
      exact (hst.elim h1 h2).elim
    · have hv' := Nat.not_lt.mp hold
      rw [installLine_new _ _ hru hw (by rw [hf.ledg]; exact hv') hk hwait hst,
        flush_quiet (nothingDue_of (t := installed u ..) (fun _ h => h) rfl rfl hu)] at he
      refine completes_of_exec he ⟨hgone, hf.mem, fun j hj => ?_, fun h1 h2 => (hst.elim h1 h2).elim, fun _ h => absurd h hold,
        fun _ _ => ⟨aget_aset_same .., fun x hx => ?_, hcon⟩⟩
      · exact (aget_aset_other hj ..).trans (congrArg (fun y : LedgSt => aget y.copies j) hf.ledg :)
      · exact of_decide_eq_true (List.mem_filter.mp hx).2
  · rw [if_neg hst, readFailed_quiet hwait] at he
    refine completes_of_exec he ⟨hgone, hf.mem, fun j _ => (congrArg (fun y : LedgSt => aget y.copies j) hf.ledg :), fun _ _ => ⟨?_, ?_⟩,
      fun h => absurd h hst, fun h => absurd h hst⟩
    · exact (congrArg (fun y : LedgSt => aget y.copies l) hf.ledg :)
    · exact (congrArg (fun y : LedgSt => y.reads.filter fun x => decide (x.line ≠ l) || ! x.why.checks) hf.ledg :)

/-- The answer to a publish: the line is read again. -/
theorem publishResponse_settles {p : OwnPub} (h : Answers s msg .ledgerPublish m id c a) (hl : l = fld m.be m.payload 16 8)
    (hk : lineKind l = lkRegion) (hp : s.ledg.pubs.find? (fun p => decide (p.line = l)) = some p) (hn : NothingDue s)
    (hm : moveOf s (l % 2 ^ 62) true = none) : Completes (.ledgerPublishResponse msg) s fun t =>
      msgOf t msg = none ∧ (∀ q ∈ t.ledg.pubs, q.line ≠ l) ∧ OtherCopies s t l ∧ t.mem = s.mem ∧ t.seqs = s.seqs ∧
      aget t.ledg.copies l = none ∧ (∀ x, lineHome s s.ledg.newest l = some x → ∃ r ∈ t.ledg.reads, r.line = l) := by
  have he := exec_ledgerPublishResponse h hl hp hk hm
  have hf := taken_outward s msg id a
  have hgone := taken_gone s msg id a
  dsimp only at he
  generalize taken s msg id a = u at *
  generalize hw : (modLedg u fun y => { y with pubs := y.pubs.filter fun q => decide (q.line ≠ l), copies := adel y.copies l }) = w at *
  have hwl : w.ledg = { s.ledg with pubs := s.ledg.pubs.filter fun q => decide (q.line ≠ l), copies := adel s.ledg.copies l } := by
    rw [← hw, modLedg_ledg, hf.ledg]
  have hwn : NothingDue w := nothingDue_of (by rw [hwl]; exact fun p h => List.mem_of_mem_filter h) (by rw [hwl]) (by rw [hwl]) hn
  have hhome : ∀ x, lineHome s s.ledg.newest l = some x → lineHome w w.ledg.newest l = some x := fun x hx => by
    rw [← hx, lineHome, lineHome, if_neg (by rw [hk]; decide), if_neg (by rw [hk]; decide), hwl]
  have fin : ∀ t, Rereads w t → (∀ x, lineHome w w.ledg.newest l = some x → ∃ r ∈ t.ledg.reads, r.line = l) →
      exec (.ledgerPublishResponse msg) s = .next t → Completes (.ledgerPublishResponse msg) s fun t =>
        msgOf t msg = none ∧ (∀ q ∈ t.ledg.pubs, q.line ≠ l) ∧ OtherCopies s t l ∧ t.mem = s.mem ∧ t.seqs = s.seqs ∧
        aget t.ledg.copies l = none ∧ (∀ x, lineHome s s.ledg.newest l = some x → ∃ r ∈ t.ledg.reads, r.line = l) := by
    intro t g hx e
    have hwm : w.msgs = u.msgs := by rw [← hw]; rfl
    have hwmem : w.mem = s.mem := by rw [← hw]; exact hf.mem
    have hws : w.seqs = s.seqs := by rw [← hw]; exact hf.seqs
    have hc : t.ledg.copies = adel s.ledg.copies l := by rw [g.ledg, hwl]
    have hpb : t.ledg.pubs = s.ledg.pubs.filter fun q => decide (q.line ≠ l) := by rw [g.ledg, hwl]
    refine completes_of_exec e ⟨by rw [msgOf, g.msgs, hwm]; exact hgone, fun q hq => ?_, fun j hj => ?_, g.mem.trans hwmem,
      g.seqs.trans hws, ?_, fun x h => hx x (hhome x h)⟩
    · rw [hpb] at hq
      exact of_decide_eq_true (List.mem_filter.mp hq).2
    · rw [hc]
      exact aget_adel_other hj _
    · rw [hc]
      exact aget_adel_same ..
  split at he
  · rw [flush_quiet ((readAgain_rereads w l).nothingDue hwn)] at he
    exact fin _ (readAgain_rereads w l) (fun x hx => readAgain_stays hx) he
  · split at he
    · exact fin _ (sendRead_rereads ..) (fun _ _ => sendRead_stays w _ l false rfl) he
    · next hno => exact fin _ (Asking.refl w).rereads (fun x hx => by rw [hno] at hx; cases hx) he

end

/-- Settles O18: a RECALL, the end of a lease, and the answers to the node's own reads and publishes (assumption 182: a failed
read that the node lives by stays outstanding). -/
theorem linesTheNodeHolds : Obligations.LinesTheNodeHolds := by
  unfold Obligations.LinesTheNodeHolds
  exact ⟨fun _ _ _ _ _ h hl hv hr => recall_settles h hl hv hr, fun _ _ _ h => leaseExpiry_settles h,
    fun _ _ _ _ _ _ _ _ _ _ h hl hv hk hq hn hr hw hs => readResponse_settles h hl hv hk hq hn hr hw hs,
    fun _ _ _ _ _ _ _ _ h hl hk hp hn hm => publishResponse_settles h hl hk hp hn hm⟩

end Sys2Proof.Proofs

namespace Sys2Proof.Proofs
open Sys2Proof.Machine Sys2Proof.Laws

/-!
What the ledger's work moves (12_ledger.md R277 to R295). Whatever a line's content sets going at this node, and whatever the ledger
sends afterwards, no die changes its state, no local time passes and the newest epoch stays (`Abides`). The release of a sequence comes
first, which moves less (`Unmoved`).
-/

/-! ## The release of a sequence -/

theorem deleteAll_inIndex (s : State) (cls key prio : Nat) : InIndex s (deleteAll s cls key prio) :=
  .foldl (fun _ _ => (delete_index ..).inIndex) _ _

theorem modDesc_unmoved (s : State) (i : Nat) (f : Desc → Desc) : Unmoved s (modDesc s i f) := modSeqs_unmoved ..

theorem freshRefs_unmoved (s : State) (a b : Root) : Unmoved s (freshRefs s a b) := by
  unfold freshRefs
  dsimp only
  exact .ite (.refl s) (.of_rest rfl)

theorem keepRefs_unmoved (s : State) (k i pair : Nat) (keep : PageRef → Bool) : Unmoved s (keepRefs s k i pair keep) := by
  have hf := Unmoved.foldl (f := freeSlot) freeSlot_unmoved
  unfold keepRefs
  dsimp only
  split
  · exact ((hf ..).trans (.ite (.refl _) (freeSlot_unmoved ..))).trans (modSeqs_unmoved ..)
  · unfold putRoot setRoot
    exact ((hf ..).trans (freshRefs_unmoved ..)).trans (modSeqs_unmoved ..)

theorem giveRef_unmoved (s : State) (r : PageRef) : Unmoved s (giveRef s r) := modSeqs_unmoved ..

theorem releaseFrom_unmoved (s : State) (i : Nat) (d : Desc) (pair p : Nat) : Unmoved s (releaseFrom s i d pair p) := by
  unfold releaseFrom
  exact .trans (.foldl (fun s x => giveRef_unmoved s _) _ _) (.foldl (fun _ _ => keepRefs_unmoved ..) _ _)

theorem dropTail_unmoved (s : State) (q : TailKey) : Unmoved s (dropTail s q) := by
  unfold dropTail
  extract_lets s1 s2
  have h1 : Unmoved s s1 := by
    unfold s1
    split
    · exact freeSram_unmoved ..
    · exact .refl s
  have h2 : Unmoved s1 s2 := by
    unfold s2
    split
    · exact ((freeSlot_unmoved ..).trans (freeSlot_unmoved ..)).trans (freeSlot_unmoved ..)
    · exact .refl s1
  exact (h1.trans h2).trans (modSeqs_unmoved ..)

theorem releaseSeq_unmoved (s : State) (i : Nat) (d : Desc) : Unmoved s (releaseSeq s i d) := by
  have hf := Unmoved.foldl (f := freeSlot) freeSlot_unmoved
  unfold releaseSeq
  extract_lets s1 s2 mine s3 s4 s5 s6
  have h2 : Unmoved s s2 := (modSeqs_unmoved ..).trans (.foldl (fun _ _ => releaseFrom_unmoved ..) _ _)
  have h3 : Unmoved s s3 := h2.trans (.foldl dropTail_unmoved _ _)
  have h4 : Unmoved s s4 := h3.trans (.foldl (fun _ _ => .ite (.refl _) (freeSlot_unmoved ..)) _ _)
  have h5 : Unmoved s s5 := h4.trans (hf ..)
  have h6 : Unmoved s5 s6 := by
    unfold s6
    split
    · exact .refl s5
    · dsimp only
      split
      · exact (((Unmoved.foldl (fun s _ => giveRef_unmoved s _) _ _).trans (.foldl (fun s _ => freeSlot_unmoved s _) _ _)).trans
          (.foldl (fun s _ => freeSram_unmoved s _) _ _)).trans (modSeqs_unmoved ..)
      · exact modSeqs_unmoved ..
  exact (h5.trans h6).trans (modSeqs_unmoved ..)

theorem freeDesc_unmoved (s : State) (i : Nat) (d : Desc) : Unmoved s (freeDesc s i d) :=
  .trans (deleteAll_inIndex ..).outward.unmoved (.of_rest (by exact rfl))

theorem lookTails_unmoved : ∀ (l : List TailKey) (s : State), Unmoved s (lookTails l s).1
  | [], s => .refl s
  | key :: l, s => by
    unfold lookTails
    extract_lets o
    clear_value o
    cases o with
    | none => exact lookTails_unmoved l s
    | some a =>
      dsimp only
      split
      · next e => exact (load_unmoved ..).of_eq e
      · next e => exact ((load_unmoved ..).of_eq e).trans (lookTails_unmoved l _)

theorem freezeTail_unmoved (s : State) (d : Desc) (q : TailKey) (content : Option Nat) (waiter : Nat) :
    Unmoved s (freezeTail s d q content waiter) := by
  unfold freezeTail
  dsimp only
  split
  · exact .refl s
  · exact (modSeqs_unmoved ..).trans (modSeqs_unmoved ..)

theorem freezeTails_unmoved (s : State) (i : Nat) (d : Desc) : Unmoved s (Machine.freezeAll s i d) := by
  unfold Machine.freezeAll
  dsimp only
  refine (lookTails_unmoved _ s).trans (.foldl (fun s k => ?_) _ _)
  split
  · exact .refl s
  · exact .ite (dropTail_unmoved ..) (freezeTail_unmoved ..)

theorem dropHere_unmoved (s : State) (i : Nat) (d : Desc) : Unmoved s (dropHere s i d) := by
  unfold dropHere
  extract_lets s1 keep s2 s3 s4
  have h1 : Unmoved s s1 := by
    unfold s1
    split
    · split
      · exact .refl s
      · split
        · exact answer_unmoved ..
        · exact .refl s
    · exact .refl s
  have h3 : Unmoved s s3 := (h1.trans (modDesc_unmoved ..)).trans (.foldl (fun s r => startRevoke_unmoved s r none none) _ _)
  split
  · exact h3
  · exact ((h3.trans (modDesc_unmoved ..)).trans (releaseSeq_unmoved ..)).trans (freeDesc_unmoved ..)

theorem dropXfer_unmoved (s : State) (x : Transfer) : Unmoved s (dropXfer s x) := .ite (.refl s) (startRevoke_unmoved ..)

/-! ## What stands whatever the ledger does -/

/-- From s to t no die has changed its state, no local time has passed, the newest epoch is the same, and no message has come. -/
structure Abides (s t : State) : Prop where
  life : still t = still s
  newest : t.ledg.newest = s.ledg.newest
  gone : ∀ id, msgOf s id = none → msgOf t id = none

namespace Abides
variable {a s t : State}

theorem refl (s : State) : Abides s s := ⟨rfl, rfl, fun _ => id⟩

theorem trans (f : Abides a s) (g : Abides s t) : Abides a t := ⟨g.life.trans f.life, g.newest.trans f.newest, fun id h => g.gone id (f.gone id h)⟩

theorem ite {c : Prop} [Decidable c] (f : Abides a s) (g : Abides a t) : Abides a (if c then s else t) := by
  split <;> assumption

theorem of_eq {β : Type} {p : State × β} {r : β} (h : Abides s p.1) (e : p = (t, r)) : Abides s t := by subst e; exact h

theorem foldl {β : Type} {f : State → β → State} (hf : ∀ s x, Abides s (f s x)) :
    ∀ (l : List β) (s : State), Abides s (l.foldl f s)
  | [], s => refl s
  | x :: l, s => (hf s x).trans (foldl hf l (f s x))

end Abides

theorem Unmoved.abides {s t : State} (f : Unmoved s t) : Abides s t := ⟨f.life, by rw [f.ledg], f.gone⟩

theorem Judged.abides {s t : State} (f : Judged s t) : Abides s t :=
  ⟨congrArg (fun y : LifeSt => { y with kgm := [] }) f.life, by rw [f.ledg], f.gone⟩

theorem Outward.abides {s t : State} (f : Outward s t) : Abides s t := (Judged.of_outward f).abides

theorem modLedg_abides (s : State) {f : LedgSt → LedgSt} (h : ∀ y, (f y).newest = y.newest) : Abides s (modLedg s f) :=
  ⟨rfl, h s.ledg, fun _ => id⟩

theorem modDir_abides (s : State) (h l : Nat) (f : DirEntry → DirEntry) : Abides s (modDir s h l f) := modLedg_abides _ fun _ => rfl

theorem modMove_abides (s : State) (i : Nat) (dest : Bool) (f : Transfer → Transfer) : Abides s (modMove s i dest f) :=
  modLedg_abides _ fun _ => rfl

theorem endMove_abides (s : State) (i : Nat) (dest : Bool) : Abides s (endMove s i dest) := modLedg_abides _ fun _ => rfl

theorem queuePub_abides (s : State) (l : Nat) (b : List Byte) (v : Nat) : Abides s (queuePub s l b v) := modLedg_abides _ fun _ => rfl

theorem dropEntry_abides (s : State) (h l : Nat) : Abides s (dropEntry s h l) :=
  .trans (delete_index ..).inIndex.outward.abides ⟨rfl, rfl, fun _ => id⟩

/-! ## Transfers -/

theorem offerTransfer_abides (s : State) (i : Nat) : Abides s (offerTransfer s i) := by
  unfold offerTransfer
  split
  · split
    · exact .refl s
    · exact ⟨rfl, rfl, fun _ => id⟩
  · exact .refl s

theorem sealSource_abides (s : State) (i : Nat) (d : Desc) : Abides s (sealSource s i d) :=
  ((modDesc_unmoved ..).trans (freezeTails_unmoved ..)).abides.trans (offerTransfer_abides ..)

theorem startSource_abides (s : State) (i : Nat) (d : Desc) (o : Owner) : Abides s (startSource s i d o) := by
  have h (mv : Transfer) := modLedg_abides s (f := fun y => { y with moves := y.moves ++ [mv] }) fun _ => rfl
  unfold startSource
  dsimp only
  exact .ite (.refl s) (.ite ((h _).trans (sealSource_abides ..)) (h _))

theorem endSource_abides (s : State) (i : Nat) (d : Desc) (kept : Bool) : Abides s (endSource s i d kept) := by
  unfold endSource
  split
  · exact .refl s
  · have h (x : Transfer) := (dropXfer_unmoved s x).abides.trans (endMove_abides _ d.handle false)
    exact .ite ((h _).trans (modDesc_unmoved ..).abides) ((h _).trans (dropHere_unmoved ..).abides)

theorem askStretch_abides (s : State) (x : Transfer) (n : Nat) : Abides s (askStretch s x n) := (ask_asking ..).toOutward.abides

theorem startDest_abides (s : State) (i : Nat) (o : Owner) : Abides s (startDest s i o) := by
  unfold startDest
  dsimp only
  exact .ite (.refl s) ((modLedg_abides s (by exact fun _ => rfl)).trans (askStretch_abides ..))

theorem dropDest_abides (s : State) (i : Nat) : Abides s (dropDest s i) := by
  unfold dropDest
  split
  · exact .refl s
  · dsimp only
    split
    · exact .ite ((endMove_abides ..).trans (dropHere_unmoved ..).abides) (endMove_abides ..)
    · exact endMove_abides ..

/-! ## Contents of lines -/

theorem applyExtent_abides (s : State) (l : Nat) (c : Option (List Byte)) : Abides s (applyExtent s l c) := ⟨rfl, rfl, fun _ => id⟩

theorem applyOwner_abides (s : State) (l : Nat) (c : Option (List Byte)) : Abides s (applyOwner s l c) := by
  unfold applyOwner
  extract_lets handle
  split
  · exact dropDest_abides ..
  · extract_lets o mine s1
    have h1 : Abides s s1 := by
      unfold s1
      split
      · exact .refl s
      · dsimp only
        exact (modDesc_unmoved ..).abides.trans (.ite (.ite (startSource_abides ..) (modMove_abides ..)) (.ite (endSource_abides ..)
          (.ite (endSource_abides ..) (.refl _))))
    exact h1.trans (.ite (.ite (.refl _) (startDest_abides ..)) (.ite (endMove_abides ..) (.ite (dropDest_abides ..) (.refl _))))

theorem addMapPart_abides (s : State) (n p : Nat) (c : List Byte) : Abides s (addMapPart s n p c) := ⟨rfl, rfl, fun _ => id⟩

theorem readPart_abides (s : State) (n p : Nat) : Abides s (readPart s n p) := by
  unfold readPart
  dsimp only
  split
  · exact .refl s
  · split
    · split
      · exact addMapPart_abides ..
      · exact .refl s
    · exact (sendRead_judged ..).abides

theorem readMap_abides (s : State) (n : Nat) : Abides s (readMap s n) := .ite (.refl s) (.foldl (fun _ _ => readPart_abides ..) _ _)

theorem setPending_abides (s : State) : Abides s (setPending s) := modLedg_abides _ fun _ => rfl

theorem headChanged_abides (s : State) (c : List Byte) : Abides s (headChanged s c) := by
  unfold headChanged
  extract_lets s1
  have h1 : Abides s s1 := ⟨rfl, rfl, fun _ => id⟩
  exact ((h1.trans (readMap_abides ..)).trans (readMap_abides ..)).trans (setPending_abides _)

theorem lineChanged_abides (s : State) (l : Nat) (c : Option (List Byte)) : Abides s (lineChanged s l c) := by
  unfold lineChanged
  refine .ite (.ite (applyExtent_abides ..) (.refl s)) (.ite (applyOwner_abides ..) (.ite ?_ (.refl s)))
  split
  · exact .refl s
  · exact .ite (headChanged_abides ..) (.ite (addMapPart_abides ..) (.refl s))

/-! ## Publishing -/

theorem sendRecall_asking (s : State) (x ep l v : Nat) : Asking s (sendRecall s x ep l v) := by
  unfold sendRecall
  dsimp only
  split
  · exact (sendMsg_asking ..).trans (modConn_asking ..)
  · exact ask_asking ..

theorem settleTransfer_abides (s : State) (h l : Nat) (kind : PubKind) (a b : List Byte) :
    Abides s (settleTransfer s h l kind a b) := by
  have hb (v : State) (r : Reg) : Abides v (bump v r h) := (bump_outward v r h).abides
  unfold settleTransfer
  dsimp only
  exact .ite (.refl s) (.ite (modDir_abides ..) (.ite ((modDir_abides ..).trans (.ite (hb ..) (.ite (hb ..) (.refl _)))) (.refl s)))

theorem answerPub_outward (s : State) (id : Nat) (st : Status) (n v l : Nat) : Outward s (answerPub s id st n v l) := by
  unfold answerPub
  split
  · exact .refl s
  · exact answer_outward ..

theorem arrive_abides (s : State) (l v : Nat) (c : List Byte) : Abides s (arrive s l v c) := by
  unfold arrive
  split
  · exact .refl s
  · exact modDir_abides ..

theorem wakeBoth_abides (s : State) (l : Nat) : Abides s (wakeLine (wakeHome s l) l) :=
  (wakeHome_outward ..).abides.trans (wakeLine_judged ..).abides

theorem finishPublish_abides (s : State) (h l : Nat) : Abides s (finishPublish s h l) := by
  unfold finishPublish
  split
  · exact .refl s
  · split
    · exact .refl s
    · dsimp only
      refine .trans (.ite ?_ ?_) (wakeBoth_abides ..)
      · refine .trans (dropEntry_abides s h l) ?_
        split
        · exact .ite (arrive_abides ..) (.refl _)
        · exact (answer_outward ..).abides
      · have hd (v : State) (b : List Byte) : Abides v (if blank b then dropEntry v h l else v) := .ite (dropEntry_abides ..) (.refl v)
        exact (((((bump_outward ..).abides.trans (modDir_abides ..)).trans (settleTransfer_abides ..)).trans
          (hd ..)).trans (answerPub_outward ..).abides).trans ((modLedg_abides _ (by exact fun _ => rfl)).trans (lineChanged_abides ..))

theorem startPublish_abides (s : State) (h l : Nat) (kind : PubKind) (c : List Byte) (id : Nat) :
    Abides s (startPublish s h l kind c id) := by
  unfold startPublish
  split
  · exact .refl s
  · extract_lets ts x p s1 s2
    have h2 : Abides s s2 := (modDir_abides ..).trans
      (.foldl (fun _ _ => ((sendRecall_asking ..).trans (bump_asking ..)).toOutward.abides) _ _)
    exact .ite (h2.trans (finishPublish_abides ..)) h2

theorem homePublish_abides (s : State) (h l : Nat) (w : Publisher) (ver v : Nat) (c : List Byte) (id : Nat) :
    Abides s (homePublish s h l w ver v c id) := by
  unfold homePublish
  dsimp only
  split
  · exact (bump_outward ..).abides.trans (answerPub_outward ..).abides
  · exact (answerPub_outward ..).abides
  · split
    · exact startPublish_abides ..
    · split
      · next e => exact ((newEntry_judged ..).of_eq e).abides.trans (startPublish_abides ..)
      · next e => exact ((newEntry_judged ..).of_eq e).abides.trans (answerPub_outward ..).abides

theorem ownPublish_abides (s : State) (h : Nat) (p : OwnPub) : Abides s (ownPublish s h p) := by
  have hf {v : State} {r : Except Status (Option DirEntry)} (e : findLine s h p.line = (v, r)) : Abides s v :=
    ((findLine_inIndex ..).of_eq e).outward.abides
  unfold ownPublish
  dsimp only
  split
  · next e => exact hf e
  · next e =>
    split
    · exact (hf e).trans (startPull_judged ..).abides
    · exact (hf e).trans (homePublish_abides ..)
  · next e =>
    split
    · exact ((hf e).trans (.ite (bump_outward ..).abides (.refl _))).trans ((modLedg_abides _ (by exact fun _ => rfl)).trans (dropDest_abides ..))
    · exact (hf e).trans (homePublish_abides ..)

theorem flushPubs_abides : ∀ (n : Nat) (s : State), Abides s (flushPubs n s)
  | 0, s => .refl s
  | n + 1, s => by
    have hm (v : State) (l : Nat) (b : Bool) := modLedg_abides v (f := fun y => { y with pubs := y.pubs.map fun q =>
      if q.line = l then { q with sent := b } else q }) fun _ => rfl
    unfold flushPubs
    dsimp only
    split
    · exact .refl s
    · split
      · exact .refl s
      · split
        · exact (((hm ..).trans (ownPublish_abides ..)).trans (.ite (hm ..) (.refl _))).trans (flushPubs_abides n _)
        · exact ((hm ..).trans (ask_asking ..).toOutward.abides).trans (flushPubs_abides n _)

theorem localPulls_abides (s : State) : Abides s (localPulls s) := by
  unfold localPulls
  refine .foldl (fun s p => ?_) _ _
  dsimp only
  split
  · exact .refl s
  · split
    · exact .refl s
    · split
      · exact (arrive_abides ..).trans (wakeBoth_abides ..)
      · exact .ite (startPublish_abides ..) (.refl s)

theorem resumeSources_abides (s : State) : Abides s (resumeSources s) := by
  unfold resumeSources
  refine .foldl (fun s x => ?_) _ _
  split
  · exact endMove_abides ..
  · exact .ite ((modMove_abides ..).trans (sealSource_abides ..)) (.refl s)

theorem flush_abides (s : State) : Abides s (flush s) :=
  ((resumeSources_abides s).trans (localPulls_abides _)).trans (flushPubs_abides 8 _)

end Sys2Proof.Proofs

namespace Sys2Proof.Proofs
open Sys2Proof.Machine Sys2Proof.Laws

/-!
Lines at their home (O17, 12_ledger.md R273 to R278, R280, R288, R293). What a home finds, grants and writes is taken to a change of one
directory entry; where nothing else is due (`NothingDue`, `LineQuiet`) that, an answer and the requests that come back to the queue are
all. What the ledger does beyond that passes no time (`Abides`).
-/

/-! ## One entry of the directory -/

theorem dirOf_modDir {s : State} {h l : Nat} {e : DirEntry} (he : dirOf s h l = some e) (f : DirEntry → DirEntry) :
    dirOf (modDir s h l f) h l = some (f e) := by
  refine (aget_amod_same (h, l) f s.ledg.dir).trans ?_
  rw [show aget s.ledg.dir (h, l) = some e from he]
  rfl

theorem modDir_other (s : State) (h l : Nat) (f : DirEntry → DirEntry) : OtherLines s (modDir s h l f) h l :=
  fun _ hk => aget_amod_other hk f _

/-- Nothing is due after a change of entries that puts none on its way. -/
theorem nothingDue_modDir {s : State} {h l : Nat} {f : DirEntry → DirEntry} (hf : ∀ e, e.state ≠ .arriving → (f e).state ≠ .arriving)
    (hn : NothingDue s) : NothingDue (modDir s h l f) := by
  obtain ⟨hp, hd, hm⟩ := hn
  refine ⟨hp, fun p h => ?_, hm⟩
  obtain ⟨q, hq, rfl⟩ := List.mem_map.mp h
  split
  · exact hf _ (hd q hq)
  · exact hd q hq

theorem OtherLines.trans {a s t : State} {h l : Nat} (f : OtherLines a s h l) (g : OtherLines s t h l) : OtherLines a t h l :=
  fun k hk => (g k hk).trans (f k hk)

theorem otherLines_congr {a s t : State} {h l : Nat} (f : OtherLines a s h l) (g : t.ledg.dir = s.ledg.dir) : OtherLines a t h l :=
  fun k hk => by rw [g]; exact f k hk

theorem otherLines_of {s a t : State} {h l : Nat} (f : OtherLines a t h l) (g : a.ledg.dir = s.ledg.dir) : OtherLines s t h l :=
  fun k hk => by rw [f k hk, g]

theorem dirOf_congr {s t : State} (h : t.ledg.dir = s.ledg.dir) (q l : Nat) : dirOf t q l = dirOf s q l := by rw [dirOf, dirOf, h]

/-! ## What a check reads -/

section
variable {s t : State} (h l : Nat)

theorem hubAlive_congr (hh : t.life.hubs = s.life.hubs) : hubAlive t h = hubAlive s h := by
  unfold hubAlive
  rw [hubSt_congr hh]

theorem quadHub_congr (hh : t.life.hubs = s.life.hubs) (hs : t.life.slices = s.life.slices) : quadHub t h = quadHub s h := by
  unfold quadHub
  rw [hubAlive_congr h hh]
  simp only [sliceSt_congr hs]

theorem homeNow_congr (hh : t.life.hubs = s.life.hubs) (hs : t.life.slices = s.life.slices) : homeNow t h = homeNow s h := by
  unfold homeNow now
  rw [quadHub_congr h hh hs, hubSt_congr hh]

theorem body_congr (hl : t.life = s.life) (c : Nat) : body t c = body s c := by unfold body cfgSlot; rw [hl]

theorem isOwn_congr (hr : t.regs = s.regs) (ep : Nat) : isOwn t ep = isOwn s ep := by
  unfold isOwn endpointOf
  simp only [rget_congr hr]

theorem recallTargets_congr (hl : t.life = s.life) (hr : t.regs = s.regs) (e : DirEntry) : recallTargets t e = recallTargets s e := by
  unfold recallTargets
  simp only [body_congr hl, isOwn_congr hr]

theorem holderCopy_congr (hg : t.ledg = s.ledg) (c : List Byte) (ep : Nat) : holderCopy t l c ep = holderCopy s l c ep := by
  unfold holderCopy isMember
  rw [hg]

theorem lineHome_congr (hl : t.life = s.life) (hg : t.ledg.maps = s.ledg.maps) (n : Nat) : lineHome t n l = lineHome s n l := by
  unfold lineHome
  rw [body_congr hl, hg]

theorem oldHome_congr (hl : t.life = s.life) (hg : t.ledg = s.ledg) : oldHome t l = oldHome s l := by
  unfold oldHome
  simp only [lineHome_congr l hl (congrArg LedgSt.maps hg), hg]

theorem pubCheck_congr (hl : t.life = s.life) (hg : t.ledg = s.ledg) (w : Publisher) (ver v x : Nat) (a b : List Byte) :
    pubCheck t w ver l v x a b = pubCheck s w ver l v x a b := by
  have he : extentCount t = extentCount s := by rw [extentCount, hl, extentCount]
  unfold pubCheck extentStep mapStep dirOf
  simp only [body_congr hl, hg, he]

end

theorem homeNow_abides {s t : State} (f : Abides s t) (h : Nat) : homeNow t h = homeNow s h :=
  homeNow_congr h (congrArg LifeSt.hubs f.life :) (congrArg LifeSt.slices f.life :)

/-! ## Answers leave every register but the index's -/

/-- From s to t no register has changed but the index's own. -/
structure SameRegs (s t : State) : Prop where
  regs : ∀ (r : Reg) (i e : Nat), r.info.blk ≠ .chive → rget t r i e = rget s r i e

theorem SameRegs.trans {a s t : State} (f : SameRegs a s) (g : SameRegs s t) : SameRegs a t :=
  ⟨fun r i e h => (g.regs r i e h).trans (f.regs r i e h)⟩

theorem sameRegs_of {s t : State} (h : t.regs = s.regs) : SameRegs s t := ⟨fun r i e _ => rget_congr h r i e⟩

theorem dropConn_sameRegs (s : State) (id : Nat) : SameRegs s (dropConn s id) := by
  unfold dropConn
  split
  · exact sameRegs_of rfl
  · next c _ =>
    extract_lets mine s1 used s2
    have h2 : SameRegs s s2 := by
      have hd : SameRegs s (if mine then delete s c.hub clsConn (connKey c) 0 else s) := by
        split
        · exact ⟨(delete_index s c.hub _ _ _).regs⟩
        · exact sameRegs_of rfl
      exact ⟨hd.regs⟩
    split
    · exact h2
    · exact h2.trans (sameRegs_of (by simp))

theorem settleConn_sameRegs (s : State) (id : Nat) : SameRegs s (settleConn s id) := by
  unfold settleConn
  split
  · split
    · exact dropConn_sameRegs ..
    · exact sameRegs_of rfl
  · exact sameRegs_of rfl

theorem answer_sameRegs (s : State) (id : Nat) (op : Opcode) (st : Status) (hint : Nat) (payload : List Byte) :
    SameRegs s (answer s id op st hint payload) := by
  unfold answer
  split
  · exact sameRegs_of rfl
  · split
    · dsimp only
      split
      · exact sameRegs_of (by simp)
      · split
        · exact sameRegs_of (by simp)
        · exact .trans (sameRegs_of (by simp)) (settleConn_sameRegs ..)
    · exact sameRegs_of (by simp)
    · exact sameRegs_of rfl

theorem answerPub_sameRegs (s : State) (id : Nat) (st : Status) (n v l : Nat) : SameRegs s (answerPub s id st n v l) := by
  unfold answerPub
  split
  · exact sameRegs_of rfl
  · exact answer_sameRegs ..

/-! ## Messages that wait -/

/-- No message waits for a line. -/
def Unwaited (s : State) (l : Nat) : Prop := ∀ p ∈ s.msgs, p.2.phase ≠ .waitLine l

theorem unwaited_congr {s t : State} {l : Nat} (h : t.msgs = s.msgs) (hq : Unwaited s l) : Unwaited t l := by
  unfold Unwaited
  rw [h]
  exact hq

theorem unwaited_adel {s t : State} {l id : Nat} (h : t.msgs = adel s.msgs id) (hq : Unwaited s l) : Unwaited t l := by
  intro p hp
  rw [h] at hp
  exact hq p (List.mem_of_mem_filter hp)

theorem setPhase_unwaited {s : State} {l : Nat} (id : Nat) {p : Phase} (hp : p ≠ .waitLine l) (hq : Unwaited s l) :
    Unwaited (setPhase s id p) l := by
  have hm : ∀ f : Msg → Msg, (∀ m, (f m).phase = p) → Unwaited (modMsg s id f) l := by
    intro f hf q hqm
    obtain ⟨x, hx, rfl⟩ := List.mem_map.mp hqm
    split
    · exact (hf x.2).trans_ne hp
    · exact hq x hx
  unfold setPhase
  split
  · exact hq
  · dsimp only
    split
    · exact hm _ fun _ => rfl
    · exact unwaited_congr (freeUnits_msgs ..) (hm _ fun _ => rfl)

theorem wakeHome_unwaited {s : State} {l : Nat} (k : Nat) (hq : Unwaited s l) : Unwaited (wakeHome s k) l := by
  intro p hp
  obtain ⟨x, hx, rfl⟩ := List.mem_map.mp hp
  split
  · exact Phase.noConfusion
  · exact hq x hx

theorem answerPub_msgs (s : State) (id : Nat) (st : Status) (n v l : Nat) : (answerPub s id st n v l).msgs = adel s.msgs id := by
  unfold answerPub
  split
  · next h => exact (adel_eq_self h).symm
  · exact answer_msgs ..

/-! ## A line is found, or its entry made -/

section
variable {s u v : State} {h l : Nat}

theorem findLine_some {e : DirEntry} (hf : findLine s h l = (v, .ok (some e))) : dirOf v h l = some e := by
  unfold findLine at hf
  split at hf
  · obtain ⟨rfl, he⟩ := Prod.mk.inj hf
    exact Except.ok.inj he
  · cases hf
  · cases hf

theorem findLine_rest {r : Except Status (Option DirEntry)} (hf : findLine s h l = (v, r)) : InIndex s v :=
  (findLine_inIndex ..).of_eq hf

/-- The entry a home makes of a line. -/
def freshEntry (h i l : Nat) (st : DirState) (epoch version : Nat) (content : List Byte) : DirEntry :=
  { hub := h, index := i, lineId := l, state := st, homeEpoch := epoch, version := version, sharers := [],
    coarse := false, cells := [], grantTime := 0, leaseEnd := 0, content := content, pub := none }

theorem newEntry_made {st : DirState} {n ver : Nat} {c : List Byte} (hm : newEntry s h l st n ver c = (u, true)) :
    ∃ i w, InIndex s w ∧ u = modLedg w fun y => { y with dir := aset y.dir (h, l) (freshEntry h i l st n ver c) } := by
  unfold newEntry at hm
  split at hm
  · cases hm
  · dsimp only at hm
    split at hm
    · next w e =>
      cases hm
      exact ⟨_, w, (insert_index ..).inIndex.of_eq e, rfl⟩
    · cases hm

/-- What the making of an entry changes. -/
structure Makes (s u : State) (h l : Nat) (e : DirEntry) : Prop where
  entry : dirOf u h l = some e
  other : OtherLines s u h l
  dir   : u.ledg = { s.ledg with dir := aset s.ledg.dir (h, l) e }
  msgs  : u.msgs = s.msgs
  mem   : u.mem = s.mem
  life  : u.life = s.life

theorem newEntry_makes {st : DirState} {n ver : Nat} {c : List Byte} (hm : newEntry s h l st n ver c = (u, true)) :
    ∃ i, Makes s u h l (freshEntry h i l st n ver c) := by
  obtain ⟨i, w, hw, rfl⟩ := newEntry_made hm
  have hl : (modLedg w fun y => { y with dir := aset y.dir (h, l) (freshEntry h i l st n ver c) }).ledg =
      { s.ledg with dir := aset s.ledg.dir (h, l) (freshEntry h i l st n ver c) } := by rw [modLedg_ledg, hw.outward.ledg]
  refine ⟨i, ?_, fun k hk => ?_, hl, hw.msgs, hw.mem, hw.outward.life⟩
  · rw [dirOf, hl]
    exact aget_aset_same ..
  · rw [hl]
    exact aget_aset_other hk ..

theorem Makes.nothingDue {e : DirEntry} (hm : Makes s u h l e) (he : e.state ≠ .arriving) (hn : NothingDue s) : NothingDue u := by
  obtain ⟨hp, hd, hv⟩ := hn
  refine ⟨by rw [hm.dir]; exact hp, fun p hq => ?_, by rw [hm.dir]; exact hv⟩
  rw [hm.dir] at hq
  rcases mem_aset hq with hq | rfl
  · exact hd p hq
  · exact he

end

/-! ## A read at the home (R274, R275) -/

section
variable (s : State) (m : Msg) (h l : Nat) (e : DirEntry)

/-- A reader that caches the line becomes a sharer of it. -/
def shared (c : Bool) : State :=
  if c then modDir s h l fun x =>
    { addSharer x m.endpoint with grantTime := if holderCopy s l e.content m.endpoint then x.grantTime else homeNow s h }
  else s

theorem grantLine_eq (id : Nat) (c : Bool) : grantLine s id m h l e c =
    answer (shared s m h l e c) id .ledgerRead (readStatus e) 0 (ledgerReadResp m.be (readStatus e)
      (if c ∧ ¬ holderCopy s l e.content m.endpoint then rget s .ledger_lease_us h 0 else 0) e.version l e.content) := rfl

theorem addSharer_state (ep : Nat) : (addSharer e ep).state = e.state := by
  unfold addSharer
  dsimp only
  (repeat' split) <;> rfl

theorem shared_eq (c : Bool) : shared s m h l e c = { s with ledg := { s.ledg with dir := (shared s m h l e c).ledg.dir } } := by
  unfold shared
  split <;> rfl

theorem shared_other (c : Bool) : OtherLines s (shared s m h l e c) h l := by
  unfold shared
  split
  · exact modDir_other _ _ _ _
  · exact fun _ _ => rfl

theorem shared_nothingDue (c : Bool) (hn : NothingDue s) : NothingDue (shared s m h l e c) := by
  unfold shared
  split
  · exact nothingDue_modDir (fun x hx => by rw [addSharer_state]; exact hx) hn
  · exact hn

variable {s m h l e}

theorem shared_entry (c : Bool) (he : dirOf s h l = some e) : dirOf (shared s m h l e c) h l =
    some (if c then { addSharer e m.endpoint with
      grantTime := if holderCopy s l e.content m.endpoint then e.grantTime else homeNow s h } else e) := by
  unfold shared
  split
  · exact dirOf_modDir he _
  · exact he

end

section
variable {s v : State} {msg l h : Nat} {m : Msg} {c : Bool}

/-- A read is judged at the line's home, and what it made due goes out. -/
theorem exec_ledgerRead (ha : AtHome s msg .ledgerRead m l h) (hver : fld m.be m.payload 0 1 % 16 = 1)
    (hpull : (bit1 (fld m.be m.payload 1 1) 1 && decide (m.tenant = 0) && ! viaPcie m) = false)
    (hc : c = (bit1 (fld m.be m.payload 1 1) 0 && ! viaPcie m)) :
    exec (.ledgerRead msg) s = .next (flush (homeRead s msg m h l c false)) := by
  obtain ⟨hm, hr, rfl, hearly, hhome⟩ := ha
  subst hc
  dsimp only [exec]
  unfold execLedgerRead
  rw [hm]
  dsimp only
  rw [if_neg (by simp [hr, hearly]), if_neg (by simp [hver]), hhome]
  dsimp only
  rw [hpull]

theorem flush_outward {t u : State} (f : Outward t u) (hn : NothingDue t) : flush u = u := flush_quiet (nothingDue_congr f.ledg hn)

/-- What a home does with a read, by what it finds. -/
theorem ledgerRead_settles (ha : AtHome s msg .ledgerRead m l h) (hn : NothingDue s) (hver : fld m.be m.payload 0 1 % 16 = 1)
    (hpull : (bit1 (fld m.be m.payload 1 1) 1 && decide (m.tenant = 0) && ! viaPcie m) = false)
    (hc : c = (bit1 (fld m.be m.payload 1 1) 0 && ! viaPcie m)) : Completes (.ledgerRead msg) s fun t =>
      (∀ e hold, findLine s h l = (v, .ok (some e)) → e.state = .valid → hold = holderCopy v l e.content m.endpoint →
        ∃ u, t = answer u msg .ledgerRead (readStatus e) 0 (ledgerReadResp m.be (readStatus e)
            (if c ∧ ¬ hold then rget v .ledger_lease_us h 0 else 0) e.version l e.content) ∧
          dirOf u h l = some (if c then { addSharer e m.endpoint with grantTime := if hold then e.grantTime else homeNow v h }
            else e) ∧ OtherLines s u h l ∧ u = { v with ledg := { v.ledg with dir := u.ledg.dir } }) ∧
      (∀ e, findLine s h l = (v, .ok (some e)) → e.state ≠ .valid → t = setPhase v msg (.waitHome l)) ∧
      (∀ st, findLine s h l = (v, .error st) → t = answer v msg .ledgerRead st 0 (ledgerReadResp m.be st 0 0 l [])) ∧
      (findLine s h l = (v, .ok none) → oldHome v l = none → c = false →
        t = answer v msg .ledgerRead .notFound 0 (ledgerReadResp m.be .notFound 0 0 l [])) ∧
      (∀ u, findLine s h l = (v, .ok none) → oldHome v l = none → c = true →
        newEntry v h l .valid v.ledg.newest 0 (zeros 64) = (u, true) → OtherLines s t h l ∧ msgOf t msg = none ∧
        ∃ e, dirOf t h l = some e ∧ e.state = .valid ∧ e.version = 0 ∧ e.sharers = [m.endpoint]) := by
  refine completes_of_exec (exec_ledgerRead ha hver hpull hc) ?_
  have due {r} (hf : findLine s h l = (v, r)) : NothingDue v := nothingDue_congr (findLine_rest hf).outward.ledg hn
  refine ⟨fun e hold hf he hh => ?_, fun e hf he => ?_, fun st hf => ?_, fun hf ho hcf => ?_, fun u hf ho hct hu => ?_⟩
  · subst hh
    refine ⟨shared v m h l e c, ?_, shared_entry c (findLine_some hf),
      otherLines_of (shared_other _ _ _ _ _ _) (by rw [(findLine_rest hf).outward.ledg]), shared_eq ..⟩
    unfold homeRead
    rw [hf]
    dsimp only
    rw [if_neg (by simp [he]), if_neg Bool.false_ne_true, grantLine_eq]
    exact flush_outward (answer_outward ..) (shared_nothingDue v m h l e c (due hf))
  · unfold homeRead
    rw [hf]
    dsimp only
    rw [if_pos he]
    exact flush_outward (setPhase_outward ..) (due hf)
  · unfold homeRead
    rw [hf]
    exact flush_outward (answer_outward ..) (due hf)
  · unfold homeRead
    rw [hf]
    dsimp only
    rw [if_neg Bool.false_ne_true, ho]
    dsimp only
    rw [hcf]
    exact flush_outward (answer_outward ..) (due hf)
  · obtain ⟨i, hmk⟩ := newEntry_makes hu
    have hgo : homeRead s msg m h l c false = grantLine u msg m h l (freshEntry h i l .valid v.ledg.newest 0 (zeros 64)) true := by
      unfold homeRead
      rw [hf]
      dsimp only
      rw [if_neg Bool.false_ne_true, ho]
      dsimp only
      rw [hct]
      unfold readNone
      rw [if_neg (by simp), hu]
      dsimp only
      rw [hmk.entry]
    rw [hgo, grantLine_eq, flush_outward (answer_outward ..) (shared_nothingDue u m h l _ true (hmk.nothingDue nofun (due hf)))]
    have hans := fun a b c' d e' => answer_outward (shared u m h l (freshEntry h i l .valid v.ledg.newest 0 (zeros 64)) true) a b c' d e'
    refine ⟨?_, ?_, ?_⟩
    · refine otherLines_congr ?_ (congrArg LedgSt.dir (hans ..).ledg)
      exact OtherLines.trans (otherLines_of hmk.other (by rw [(findLine_rest hf).outward.ledg])) (shared_other _ _ _ _ _ _)
    · rw [msgOf, answer_msgs, aget_adel_same]
    · exact ⟨_, (dirOf_congr (congrArg LedgSt.dir (hans ..).ledg) ..).trans (shared_entry true hmk.entry), addSharer_state .., rfl, rfl⟩

end

/-! ## A publish that is written (R277 steps 5 and 6) -/

section
variable (s : State) (h l : Nat) (p : Publish) (e : DirEntry)

/-- The content and the next version are written. -/
def tallied : State := modDir (bump s .ledger_PUBLISHES h) h l fun x => written x p.content

/-- The publisher is answered. -/
def wrote : State := answerPub (tallied s h l p) p.msg .ok 0 (e.version + 1) l

theorem tallied_fab : (tallied s h l p).fab = s.fab := by simp [tallied, modDir]
theorem tallied_out : (tallied s h l p).out = s.out := by simp [tallied, modDir]
theorem tallied_msgs : (tallied s h l p).msgs = s.msgs := by simp [tallied, modDir]

theorem wrote_answers {m : Msg} (hm : msgOf s p.msg = some m) : wrote s h l p e =
    answer (tallied s h l p) p.msg .ledgerPublish .ok 0 (ledgerPubResp m.be .ok 0 (e.version + 1) l) := by
  have ht : msgOf (tallied s h l p) p.msg = some m := by rw [msgOf, tallied_msgs]; exact hm
  rw [wrote, answerPub, ht]

/-- The node's own publish of the line waits no more, and what waited for the home comes back. -/
def published : State :=
  wakeHome (modLedg (wrote s h l p e) fun y => { y with pubs := y.pubs.filter fun q => ! (decide (q.line = l) && q.sent) }) l

theorem finishPublish_region {s : State} {h l : Nat} {p : Publish} {e : DirEntry} (he : dirOf s h l = some e) (hp : e.pub = some p)
    (hk : p.kind ≠ .pull) (hl : lineKind l = lkRegion) (hb : blank p.content = false) (hq : Unwaited s l) :
    finishPublish s h l = published s h l p e := by
  have hset : ∀ (v : State) k a b, settleTransfer v h l k a b = v := fun v k a b => by
    unfold settleTransfer
    rw [if_pos (by rw [hl]; decide)]
  have hlc : ∀ (v : State) b, lineChanged v l b = v := fun v b => by
    unfold lineChanged
    rw [if_neg (by rw [hl]; decide), if_neg (by rw [hl]; decide), if_neg (by rw [hl]; decide)]
  unfold finishPublish
  rw [he]
  dsimp only
  rw [hp]
  dsimp only
  rw [if_neg hk, hset, if_neg (by simp [hb]), hlc]
  refine wakeLine_quiet (wakeHome_unwaited l (unwaited_adel (id := p.msg) (answerPub_msgs ..) ?_))
  exact unwaited_congr (tallied_msgs s h l p) hq

/-- Nothing but the entry, the answer and the count has changed. -/
structure Publishes (s t : State) (h l : Nat) (p : Publish) (e : DirEntry) : Prop where
  entry : dirOf t h l = some (written e p.content)
  other : OtherLines s t h l
  mem   : t.mem = s.mem
  seqs  : t.seqs = s.seqs
  gone  : ∀ id, id = p.msg ∨ msgOf s id = none → msgOf t id = none
  count : rget t .ledger_PUBLISHES h 0 = min (rget s .ledger_PUBLISHES h 0 + 1) (2 ^ Reg.ledger_PUBLISHES.width - 1)
  answered : ∀ m, msgOf s p.msg = some m → ∃ u w, u.fab = s.fab ∧ u.out = s.out ∧ u.msgs = s.msgs ∧
    w = answer u p.msg .ledgerPublish .ok 0 (ledgerPubResp m.be .ok 0 (e.version + 1) l) ∧
    t.fab = w.fab ∧ t.out = w.out ∧ t.msgs = (wakeHome w l).msgs

theorem published_publishes {s : State} {h l : Nat} {p : Publish} {e : DirEntry}
    (he : dirOf s h l = some e) : Publishes s (published s h l p e) h l p e := by
  have ho := answerPub_outward (tallied s h l p) p.msg .ok 0 (e.version + 1) l
  have hr := answerPub_sameRegs (tallied s h l p) p.msg .ok 0 (e.version + 1) l
  have hm := answerPub_msgs (tallied s h l p) p.msg .ok 0 (e.version + 1) l
  have hb := bump_asking s .ledger_PUBLISHES h
  have hdir : (published s h l p e).ledg.dir = (tallied s h l p).ledg.dir :=
    (congrArg LedgSt.dir ho.ledg :)
  refine ⟨?_, ?_, ho.mem.trans hb.mem, ho.seqs.trans hb.seqs, fun id hid => ?_, ?_,
    fun m hm => ⟨tallied s h l p, wrote s h l p e, tallied_fab .., tallied_out .., tallied_msgs .., wrote_answers s h l p e hm, rfl, rfl, rfl⟩⟩
  · rw [dirOf_congr hdir]
    exact dirOf_modDir ((dirOf_congr (congrArg LedgSt.dir hb.ledg) ..).trans he) _
  · exact otherLines_congr (otherLines_of (modDir_other _ _ _ _) (congrArg LedgSt.dir hb.ledg)) hdir
  · have hg := gone_of_adel (hm.trans (congrArg (fun x => adel x p.msg) hb.msgs)) hid
    exact wakeHome_gone l hg
  · refine (hr.regs .ledger_PUBLISHES h 0 (by decide)).trans ?_
    exact rget_bump_same ..

end

/-! ## A publish at the home (R277 steps 1 to 4, R280) -/

section
variable {s v : State} {msg l h : Nat} {m : Msg}

/-- Who publishes. -/
def publisher (s : State) (m : Msg) : Publisher := ⟨m.tenant, m.endpoint, operatorRole s m⟩

/-- What the home does with a publish once the line's entry is known. -/
def judgePublish (v : State) (msg h l : Nat) (m : Msg) : State :=
  homePublish (setPhase v msg (.waitHome l)) h l (publisher v m) (fld m.be m.payload 0 1 % 16) (fld m.be m.payload 16 8)
    (takeBytes m.payload 24 64) msg

theorem exec_ledgerPublish (ha : AtHome s msg .ledgerPublish m l h) : exec (.ledgerPublish msg) s = .next
    (match findLine s h l with
    | (v, .error st) => answer v msg .ledgerPublish st 0 (ledgerPubResp m.be st 0 0 l)
    | (v, .ok (some e)) => if e.state ≠ .valid then setPhase v msg (.waitHome l) else flush (judgePublish v msg h l m)
    | (v, .ok none) =>
      if (oldHome v l).isNone then flush (judgePublish v msg h l m)
      else
        match startPull v h l with
        | (v, true) => flush (setPhase v msg (.waitHome l))
        | (v, false) => answer v msg .ledgerPublish .busy 0 (ledgerPubResp m.be .busy 0 0 l)) := by
  obtain ⟨hm, hr, rfl, hearly, hhome⟩ := ha
  dsimp only [exec]
  unfold execLedgerPublish
  rw [hm]
  dsimp only
  rw [if_neg (by simp [hr, hearly]), hhome]
  rfl

/-- A request that waits for its home is the one that came. -/
theorem waits_eq (hm : msgOf v msg = some m) : ∃ m', msgOf (setPhase v msg (.waitHome l)) msg = some m' ∧ m'.be = m.be ∧
    m'.phase = .waitHome l := by
  refine ⟨{ m with phase := .waitHome l, units := 0 }, ?_, rfl, rfl⟩
  rw [setPhase_eq (.waitHome l) hm rfl, msgOf, freeUnits_msgs]
  refine (aget_amod_same msg (fun m : Msg => { m with phase := .waitHome l, units := 0 }) v.msgs).trans ?_
  rw [show aget v.msgs msg = some m from hm]
  rfl

/-- A publish that fails a check. -/
theorem judgePublish_fails {e : DirEntry} {st : Status} (hn : NothingDue v) (he : dirOf v h l = some e)
    (hm : msgOf v msg = some m) (hc : PubChecked v m l e.version e.content = some st) :
    Outward v (flush (judgePublish v msg h l m)) ∧ msgOf (flush (judgePublish v msg h l m)) msg = none ∧
    (st ≠ .conflict → flush (judgePublish v msg h l m) =
      answer (setPhase v msg (.waitHome l)) msg .ledgerPublish st 0 (ledgerPubResp m.be st 0 0 l)) := by
  have hs := setPhase_outward v msg (.waitHome l)
  obtain ⟨m', hm', hbe, -⟩ := waits_eq (l := l) hm
  have hk : pubCheck (setPhase v msg (.waitHome l)) (publisher v m) (fld m.be m.payload 0 1 % 16) l e.version
      (fld m.be m.payload 16 8) e.content (takeBytes m.payload 24 64) = some st :=
    (pubCheck_congr l hs.life hs.ledg ..).trans hc
  have hd : dirOf (setPhase v msg (.waitHome l)) h l = some e := (dirOf_congr (congrArg LedgSt.dir hs.ledg) ..).trans he
  unfold judgePublish homePublish
  dsimp only
  rw [hd]
  dsimp only [Option.map_some, Option.getD_some]
  rw [hk]
  split
  · next hst =>
    cases hst
    have ho := (hs.trans (bump_outward _ .ledger_CONFLICTS h)).trans (answerPub_outward _ msg .conflict
      (beNat (takeBytes (Config.shake256 e.content 64) 0 4)) e.version l)
    rw [flush_outward ho hn]
    exact ⟨ho, gone_of_adel (answerPub_msgs ..) (.inl rfl), fun h => absurd rfl h⟩
  · next st' hst' _ hst =>
    cases hst
    have ho := hs.trans (answerPub_outward (setPhase v msg (.waitHome l)) msg st 0 0 l)
    rw [flush_outward ho hn]
    refine ⟨ho, gone_of_adel (answerPub_msgs ..) (.inl rfl), fun _ => ?_⟩
    rw [answerPub, hm', ← hbe]
  · next hst => cases hst

/-- A publish that passes starts at once where the line has an entry. -/
theorem judgePublish_starts {e : DirEntry} (he : dirOf v h l = some e) (hc : PubChecked v m l e.version e.content = none) :
    judgePublish v msg h l m =
      startPublish (setPhase v msg (.waitHome l)) h l (pubKind l e.content (takeBytes m.payload 24 64)) (takeBytes m.payload 24 64) msg := by
  have hs := setPhase_outward v msg (.waitHome l)
  have hk : pubCheck (setPhase v msg (.waitHome l)) (publisher v m) (fld m.be m.payload 0 1 % 16) l e.version
      (fld m.be m.payload 16 8) e.content (takeBytes m.payload 24 64) = none :=
    (pubCheck_congr l hs.life hs.ledg ..).trans hc
  have hd : dirOf (setPhase v msg (.waitHome l)) h l = some e := (dirOf_congr (congrArg LedgSt.dir hs.ledg) ..).trans he
  unfold judgePublish homePublish
  dsimp only
  rw [hd]
  dsimp only [Option.map_some, Option.getD_some]
  rw [hk]

/-- The publish that a home has begun. -/
def begun (s : State) (h : Nat) (e : DirEntry) (kind : PubKind) (content : List Byte) (msg : Nat) : Publish :=
  ⟨msg, homeNow s h, kind, content, recallTargets s e⟩

/-- The line while its publish waits for sharers. -/
def publishing (s : State) (h l : Nat) (e : DirEntry) (kind : PubKind) (content : List Byte) (msg : Nat) : State :=
  modDir s h l fun x => { x with state := .publishing, pub := some (begun s h e kind content msg) }

/-- Without sharers a publish is written at once. -/
theorem startPublish_alone {e : DirEntry} {kind : PubKind} {content : List Byte} (he : dirOf s h l = some e)
    (ht : recallTargets s e = []) : startPublish s h l kind content msg =
      finishPublish (publishing s h l e kind content msg) h l := by
  unfold startPublish publishing
  rw [he]
  dsimp only
  rw [ht]
  dsimp only [List.foldl_nil, List.isEmpty_nil]
  rw [if_pos rfl, begun, ht]

/-- With sharers the line is PUBLISHING, and they are recalled. -/
theorem startPublish_recalls {e : DirEntry} {kind : PubKind} {content : List Byte} (he : dirOf s h l = some e)
    (ht : recallTargets s e ≠ []) :
    Asking (publishing s h l e kind content msg) (startPublish s h l kind content msg) := by
  unfold startPublish
  rw [he]
  dsimp only
  rw [if_neg (by simpa using ht)]
  exact .foldl (fun _ _ => (sendRecall_asking ..).trans (bump_asking ..)) _ _

theorem publishing_nothingDue {e : DirEntry} {kind : PubKind} {content : List Byte} (hn : NothingDue s) :
    NothingDue (publishing s h l e kind content msg) :=
  nothingDue_modDir (fun _ _ => nofun) hn

theorem published_quiet {p : Publish} {e : DirEntry} (hn : NothingDue s) : flush (published s h l p e) = published s h l p e := by
  have hb : NothingDue (bump s .ledger_PUBLISHES h) := nothingDue_congr (bump_asking ..).ledg hn
  have hd : NothingDue (tallied s h l p) :=
    nothingDue_modDir (fun _ _ => nofun) hb
  have hw : NothingDue (wrote s h l p e) := nothingDue_congr (answerPub_outward ..).ledg hd
  exact flush_quiet (nothingDue_of (s := wrote s h l p e) (fun _ hp => List.mem_of_mem_filter hp) rfl rfl hw)

/-- A publish of a REGION line without sharers, from its start to its end. -/
theorem startPublish_writes {e : DirEntry} {kind : PubKind} {content : List Byte} (he : dirOf s h l = some e)
    (ht : recallTargets s e = []) (hk : kind ≠ .pull) (hl : lineKind l = lkRegion) (hb : blank content = false) (hq : Unwaited s l)
    (hn : NothingDue s) : Publishes (publishing s h l e kind content msg) (flush (startPublish s h l kind content msg)) h l
      (begun s h e kind content msg) { e with state := .publishing, pub := some (begun s h e kind content msg) } := by
  have hd : dirOf (publishing s h l e kind content msg) h l =
      some { e with state := .publishing, pub := some (begun s h e kind content msg) } := dirOf_modDir he _
  rw [startPublish_alone he ht, finishPublish_region hd rfl hk hl hb (unwaited_congr (s := s) rfl hq),
    published_quiet (publishing_nothingDue hn)]
  exact published_publishes hd

theorem pubKind_ne_pull (l : Nat) (a b : List Byte) : pubKind l a b ≠ .pull := by
  unfold pubKind
  dsimp only
  split <;> exact PubKind.noConfusion

theorem unwaited_of_quiet (hq : LineQuiet s l) (hv : InIndex s v) : Unwaited v l := unwaited_congr hv.msgs hq.2

/-- A publish of a line that has an entry. -/
theorem ledgerPublish_settles {e : DirEntry} {content : List Byte} (ha : AtHome s msg .ledgerPublish m l h) (hq : LineQuiet s l)
    (hn : NothingDue s) (hf : findLine s h l = (v, .ok (some e))) (hv : e.state = .valid) (hc : content = takeBytes m.payload 24 64) :
    Completes (.ledgerPublish msg) s fun t =>
      (∀ st, PubChecked v m l e.version e.content = some st → t.ledg = s.ledg ∧ msgOf t msg = none ∧ t.mem = s.mem ∧
        (st ≠ .conflict → t = answer (setPhase v msg (.waitHome l)) msg .ledgerPublish st 0 (ledgerPubResp m.be st 0 0 l))) ∧
      (PubChecked v m l e.version e.content = none → recallTargets v e ≠ [] →
        dirOf t h l = some { e with
          state := .publishing, pub := some ⟨msg, homeNow v h, pubKind l e.content content, content, recallTargets v e⟩ } ∧
        OtherLines s t h l ∧ (msgOf t msg).map (·.phase) = some (.waitHome l) ∧ t.mem = s.mem) ∧
      (PubChecked v m l e.version e.content = none → recallTargets v e = [] → lineKind l = lkRegion → blank content = false →
        dirOf t h l = some (written e content) ∧ OtherLines s t h l ∧ t.mem = s.mem ∧ t.seqs = s.seqs ∧
        rget t .ledger_PUBLISHES h 0 = min (rget v .ledger_PUBLISHES h 0 + 1) (2 ^ Reg.ledger_PUBLISHES.width - 1) ∧
        ∃ u w, u.fab = (setPhase v msg (.waitHome l)).fab ∧ u.out = s.out ∧ u.msgs = (setPhase v msg (.waitHome l)).msgs ∧
          w = answer u msg .ledgerPublish .ok 0 (ledgerPubResp m.be .ok 0 (e.version + 1) l) ∧
          t.fab = w.fab ∧ t.out = w.out ∧ t.msgs = (wakeHome w l).msgs) := by
  subst hc
  have hx := exec_ledgerPublish ha
  rw [hf] at hx
  dsimp only at hx
  rw [if_neg (by simp [hv])] at hx
  refine completes_of_exec hx ?_
  have hi := findLine_rest hf
  have he := findLine_some hf
  have hnv : NothingDue v := nothingDue_congr hi.outward.ledg hn
  have hm : msgOf v msg = some m := by rw [msgOf, hi.msgs]; exact msgOf_of_mayStart ha.1
  have hs := setPhase_outward v msg (.waitHome l)
  have hwd : dirOf (setPhase v msg (.waitHome l)) h l = some e := (dirOf_congr (congrArg LedgSt.dir hs.ledg) ..).trans he
  have hwn : NothingDue (setPhase v msg (.waitHome l)) := nothingDue_congr hs.ledg hnv
  have hrt : recallTargets (setPhase v msg (.waitHome l)) e = recallTargets v e := recallTargets_congr hs.life (setPhase_regs ..) e
  have hdir : (setPhase v msg (.waitHome l)).ledg.dir = s.ledg.dir := by rw [hs.ledg, hi.outward.ledg]
  refine ⟨fun st hc => ?_, fun hc hts => ?_, fun hc hts hl hb => ?_⟩
  · obtain ⟨ho, hg, ha⟩ := judgePublish_fails hnv he hm hc
    exact ⟨ho.ledg.trans hi.outward.ledg, hg, ho.mem.trans hi.mem, ha⟩
  · rw [judgePublish_starts he hc]
    have hr := startPublish_recalls (kind := pubKind l e.content (takeBytes m.payload 24 64)) (content := takeBytes m.payload 24 64)
      (msg := msg) hwd (by rw [hrt]; exact hts)
    rw [flush_outward hr.toOutward (publishing_nothingDue hwn)]
    refine ⟨?_, ?_, ?_, hr.mem.trans (hs.mem.trans hi.mem)⟩
    · refine ((dirOf_congr (congrArg LedgSt.dir hr.ledg) ..).trans (dirOf_modDir hwd _)).trans ?_
      rw [begun, hrt, homeNow_congr h (congrArg LifeSt.hubs hs.life) (congrArg LifeSt.slices hs.life)]
    · exact otherLines_congr (otherLines_of (modDir_other _ _ _ _) hdir) (congrArg LedgSt.dir hr.ledg)
    · rw [msgOf, hr.msgs]
      exact setPhase_phase _ hm rfl
  · rw [judgePublish_starts he hc]
    have hp := startPublish_writes (msg := msg) hwd (by rw [hrt]; exact hts) (pubKind_ne_pull l e.content (takeBytes m.payload 24 64)) hl hb
      (setPhase_unwaited msg nofun (unwaited_of_quiet hq hi)) hwn
    refine ⟨hp.entry, ?_, hp.mem.trans (hs.mem.trans hi.mem), hp.seqs.trans (hs.seqs.trans hi.outward.seqs), ?_, ?_⟩
    · exact OtherLines.trans (otherLines_of (modDir_other _ _ _ _) hdir) hp.other
    · refine hp.count.trans ?_
      rw [rget_congr (show (publishing (setPhase v msg (.waitHome l)) h l e _ _ msg).regs = v.regs from setPhase_regs ..)]
    · obtain ⟨m', hm', hbe, -⟩ := waits_eq (l := l) hm
      obtain ⟨u, w, huf, huo, hum, hw, hwt⟩ := hp.answered m' hm'
      refine ⟨u, w, huf, huo.trans ?_, hum, ?_, hwt⟩
      · exact (setPhase_part (·.out) (fun _ _ _ => rfl) freeUnits_out v msg _).trans (congrArg State.out hi :)
      · rw [← hbe]
        exact hw

/-- A publish of a line without an entry: one is made, and written. -/
theorem ledgerPublish_makes {u : State} {content : List Byte} (ha : AtHome s msg .ledgerPublish m l h) (hq : LineQuiet s l)
    (hn : NothingDue s) (hf : findLine s h l = (v, .ok none)) (hd : dirOf s h l = none) (ho : oldHome v l = none)
    (hc : content = takeBytes m.payload 24 64) (hl : lineKind l = lkRegion) (hb : blank content = false)
    (hk : PubChecked v m l 0 (zeros 64) = none)
    (hu : newEntry (setPhase v msg (.waitHome l)) h l .valid v.ledg.newest 0 (zeros 64) = (u, true)) :
    Completes (.ledgerPublish msg) s fun t =>
      (∃ e, dirOf t h l = some e ∧ e.state = .valid ∧ e.version = 1 ∧ e.content = content ∧ e.sharers = [] ∧ e.lineId = l) ∧
      OtherLines s t h l ∧ msgOf t msg = none ∧ t.mem = s.mem := by
  subst hc
  have hx := exec_ledgerPublish ha
  rw [hf] at hx
  dsimp only at hx
  rw [if_pos (by rw [ho]; rfl)] at hx
  refine completes_of_exec hx ?_
  have hi := findLine_rest hf
  have hs := setPhase_outward v msg (.waitHome l)
  have hwn : NothingDue (setPhase v msg (.waitHome l)) := nothingDue_congr (hs.ledg.trans hi.outward.ledg) hn
  have hwd : dirOf (setPhase v msg (.waitHome l)) h l = none :=
    (dirOf_congr (congrArg LedgSt.dir (hs.ledg.trans hi.outward.ledg)) ..).trans hd
  have hk' : pubCheck (setPhase v msg (.waitHome l)) (publisher v m) (fld m.be m.payload 0 1 % 16) l 0
      (fld m.be m.payload 16 8) (zeros 64) (takeBytes m.payload 24 64) = none := (pubCheck_congr l hs.life hs.ledg ..).trans hk
  have hgo : judgePublish v msg h l m = startPublish u h l .plain (takeBytes m.payload 24 64) msg := by
    unfold judgePublish homePublish
    dsimp only
    rw [hwd]
    dsimp only [Option.map_none, Option.getD_none]
    rw [hk']
    dsimp only
    rw [congrArg LedgSt.newest hs.ledg, hu]
  obtain ⟨i, hmk⟩ := newEntry_makes hu
  rw [hgo]
  have hp := startPublish_writes (msg := msg) (kind := .plain) hmk.entry rfl nofun hl hb
    (unwaited_congr hmk.msgs (setPhase_unwaited msg nofun (unwaited_of_quiet hq hi))) (hmk.nothingDue nofun hwn)
  refine ⟨⟨_, hp.entry, rfl, rfl, rfl, rfl, rfl⟩, ?_, hp.gone _ (.inl rfl), hp.mem.trans (hmk.mem.trans (hs.mem.trans hi.mem))⟩
  refine OtherLines.trans (OtherLines.trans (otherLines_of hmk.other ?_) (modDir_other _ _ _ _)) hp.other
  rw [hs.ledg, hi.outward.ledg]

end

/-! ## A sharer's answer, or its being passed over (R277 step 4) -/

section
variable {s : State} {h l ep : Nat} {e : DirEntry} {p : Publish}

/-- The sharers whose answers are missing once one is not. -/
def leftOf (p : Publish) (ep : Nat) : List Nat := p.waiting.filter fun x => decide (x ≠ ep)

/-- The line once one sharer's answer is not missing. -/
def withoutSharer (s : State) (h l ep : Nat) (p : Publish) : State :=
  modDir s h l fun x => { x with pub := some { p with waiting := leftOf p ep } }

theorem withoutSharer_nothingDue (hn : NothingDue s) : NothingDue (withoutSharer s h l ep p) := nothingDue_modDir (fun _ hx => hx) hn

theorem sharerGone_abides (s : State) (h l ep : Nat) : Abides s (sharerGone s h l ep) := by
  unfold sharerGone
  split
  · exact .refl s
  · split
    · exact .refl s
    · exact .ite ((modDir_abides ..).trans (finishPublish_abides ..)) (modDir_abides ..)

theorem sharerGone_eq (he : dirOf s h l = some e) (hp : e.pub = some p) : sharerGone s h l ep =
    if (leftOf p ep).isEmpty then finishPublish (withoutSharer s h l ep p) h l else withoutSharer s h l ep p := by
  unfold sharerGone
  rw [he]
  dsimp only
  rw [hp]
  rfl

/-- While others are missing the line waits on. -/
theorem sharerGone_waits (he : dirOf s h l = some e) (hp : e.pub = some p) (hw : leftOf p ep ≠ []) (hn : NothingDue s) :
    flush (sharerGone s h l ep) = withoutSharer s h l ep p := by
  rw [sharerGone_eq he hp, if_neg (by simpa using hw)]
  exact flush_quiet (withoutSharer_nothingDue hn)

/-- With the last a publish of a REGION line is written. -/
theorem sharerGone_writes (he : dirOf s h l = some e) (hp : e.pub = some p) (hw : leftOf p ep = []) (hk : p.kind = .plain)
    (hl : lineKind l = lkRegion) (hb : blank p.content = false) (hq : Unwaited s l) (hn : NothingDue s) :
    Publishes (withoutSharer s h l ep p) (flush (sharerGone s h l ep)) h l { p with waiting := leftOf p ep }
      { e with pub := some { p with waiting := leftOf p ep } } := by
  have hd : dirOf (withoutSharer s h l ep p) h l = some { e with pub := some { p with waiting := leftOf p ep } } := dirOf_modDir he _
  rw [sharerGone_eq he hp, if_pos (by simp [hw]), finishPublish_region hd rfl (by rw [hk]; nofun) hl hb (unwaited_congr (s := s) rfl hq),
    published_quiet (withoutSharer_nothingDue hn)]
  exact published_publishes hd

end

section
variable {s : State} {msg : Nat} {m : Msg}

/-- The RECALL is off its connection and its answer off the queue. -/
def ackTaken (s : State) (msg l : Nat) (m : Msg) : State :=
  dropMsg (match m.origin with
    | .conn _ idx _ => modConn s idx fun c => { c with asked := c.asked.filter fun a =>
        ! (decide (a.op = .recall) && decide (a.about = l)) }
    | _ => s) msg

theorem ackTaken_taken (s : State) (msg l : Nat) (m : Msg) :
    Outward s (ackTaken s msg l m) ∧ (ackTaken s msg l m).msgs = adel s.msgs msg := by
  unfold ackTaken
  split
  · exact ⟨(modConn_asking ..).toOutward.trans (dropMsg_outward ..), by rw [dropMsg_msgs, modConn_msgs]⟩
  · exact ⟨dropMsg_outward .., dropMsg_msgs ..⟩

theorem recallAck_settles {l v h : Nat} {e : DirEntry} {p : Publish} (hm : msgOf s msg = some m) (hop : m.opcode = .recallAck)
    (hph : m.phase = .arrived) (hl : l = fld m.be m.payload 8 8) (hv : v = fld m.be m.payload 16 8) (hq : LineQuiet s l)
    (hn : NothingDue s) (he : dirOf s h l = some e) (hp : e.pub = some p)
    (hfind : (s.ledg.dir.find? fun x => decide (x.1.2 = l) && decide (x.2.version + 1 = v) && x.2.pub.isSome) = some ((h, l), e)) :
    Completes (.recallAck msg) s fun t =>
      msgOf t msg = none ∧
      (p.waiting.filter (fun x => decide (x ≠ m.endpoint)) ≠ [] →
        dirOf t h l = some { e with pub := some { p with waiting := p.waiting.filter fun x => decide (x ≠ m.endpoint) } } ∧
        OtherLines s t h l ∧ t.mem = s.mem) ∧
      (p.waiting.filter (fun x => decide (x ≠ m.endpoint)) = [] → p.kind = .plain → lineKind l = lkRegion → blank p.content = false →
        dirOf t h l = some (written e p.content) ∧ OtherLines s t h l ∧ msgOf t p.msg = none ∧ t.mem = s.mem) := by
  subst hl hv
  have ⟨ho, htm⟩ := ackTaken_taken s msg (fld m.be m.payload 8 8) m
  have hx : exec (.recallAck msg) s = .next (flush (sharerGone (ackTaken s msg (fld m.be m.payload 8 8) m) h (fld m.be m.payload 8 8) m.endpoint)) := by
    dsimp only [exec]
    unfold execRecallAck
    rw [show (msgOf s msg).filter (fun m => decide (m.opcode = .recallAck) && decide (m.phase = .arrived)) = some m by
      rw [hm, Option.filter_some, if_pos (by simp [hop, hph])]]
    change (.next (match (ackTaken s msg (fld m.be m.payload 8 8) m).ledg.dir.find? _ with
      | some p => flush (sharerGone (ackTaken s msg (fld m.be m.payload 8 8) m) p.1.1 (fld m.be m.payload 8 8) m.endpoint)
      | none => ackTaken s msg (fld m.be m.payload 8 8) m) : Next) = _
    rw [ho.ledg, hfind]
  refine completes_of_exec hx ?_
  have hgone : msgOf (ackTaken s msg (fld m.be m.payload 8 8) m) msg = none := gone_of_adel htm (.inl rfl)
  have hwait : Unwaited (ackTaken s msg (fld m.be m.payload 8 8) m) (fld m.be m.payload 8 8) := unwaited_adel htm hq.2
  generalize ackTaken s msg (fld m.be m.payload 8 8) m = u at *
  generalize fld m.be m.payload 8 8 = l at *
  have hnu : NothingDue u := nothingDue_congr ho.ledg hn
  have heu : dirOf u h l = some e := (dirOf_congr (congrArg LedgSt.dir ho.ledg) ..).trans he
  have hother : OtherLines s (withoutSharer u h l m.endpoint p) h l :=
    otherLines_of (modDir_other _ _ _ _) (congrArg LedgSt.dir ho.ledg)
  refine ⟨((sharerGone_abides u h l m.endpoint).trans (flush_abides _)).gone msg hgone, fun hw => ?_, fun hw hk hl hb => ?_⟩
  · rw [sharerGone_waits heu hp hw hnu]
    exact ⟨dirOf_modDir heu _, hother, ho.mem⟩
  · have hpub := sharerGone_writes heu hp hw hk hl hb hwait hnu
    exact ⟨hpub.entry, OtherLines.trans hother hpub.other, hpub.gone _ (.inl rfl), hpub.mem.trans ho.mem⟩

end

/-! ## A wait for a sharer, or a lease of a transfer, ends (R277 step 4, R288) -/

section
variable {s : State} {h l : Nat} {e : DirEntry}

theorem now_passTo_le (s : State) (h t : Nat) : t ≤ homeNow (passTo s ((quadHub s h).getD h) t) h := by
  have hq : quadHub (passTo s ((quadHub s h).getD h) t) h = quadHub s h := by
    unfold quadHub
    rw [hubAlive_passTo]
    rfl
  unfold homeNow
  rw [hq, now_passTo]
  exact le_max_right ..

/-- A publish that its home refuses: the line is VALID again. -/
def unpublished (s : State) (h l : Nat) : State := modDir s h l fun x => { x with state := .valid, pub := none }

/-- The publisher is told so, and the node's own publish of the line waits again. -/
def toldBusy (s : State) (h l : Nat) (e : DirEntry) (p : Publish) : State :=
  modLedg (answerPub (unpublished s h l) p.msg .busy 0 e.version l) fun y =>
    { y with pubs := y.pubs.map fun q => if q.line = l then { q with sent := false } else q }

theorem toldBusy_nothingDue {p : Publish} (hq : LineQuiet s l) (hn : NothingDue s) : NothingDue (toldBusy s h l e p) := by
  have hu : NothingDue (answerPub (unpublished s h l) p.msg .busy 0 e.version l) :=
    nothingDue_congr (answerPub_outward ..).ledg (nothingDue_modDir (fun _ _ => nofun) hn)
  have hp : (answerPub (unpublished s h l) p.msg .busy 0 e.version l).ledg.pubs = s.ledg.pubs :=
    (congrArg LedgSt.pubs (answerPub_outward ..).ledg :)
  obtain ⟨-, hd, hm⟩ := hu
  refine ⟨fun q hmem => ?_, hd, hm⟩
  obtain ⟨x, hx, rfl⟩ := List.mem_map.mp hmem
  rw [hp] at hx
  rw [if_neg (hq.1 x hx).2]
  exact (hq.1 x hx).1

theorem failPublish_eq {p : Publish} (he : dirOf s h l = some e) (hp : e.pub = some p) (hq : LineQuiet s l) :
    failPublish s h l .busy = wakeHome (toldBusy s h l e p) l := by
  unfold failPublish
  rw [he]
  dsimp only
  rw [hp]
  exact wakeLine_quiet (wakeHome_unwaited l (unwaited_adel (answerPub_msgs ..) (unwaited_congr (s := s) rfl hq.2)))

theorem failPublish_flushed {p : Publish} (he : dirOf s h l = some e) (hp : e.pub = some p) (hq : LineQuiet s l) (hn : NothingDue s) :
    dirOf (flush (failPublish s h l .busy)) h l = some { e with state := .valid, pub := none } ∧
    msgOf (flush (failPublish s h l .busy)) p.msg = none ∧ OtherLines s (flush (failPublish s h l .busy)) h l ∧
    (flush (failPublish s h l .busy)).mem = s.mem ∧ Abides s (flush (failPublish s h l .busy)) := by
  have ho := answerPub_outward (unpublished s h l) p.msg .busy 0 e.version l
  have hdir : (wakeHome (toldBusy s h l e p) l).ledg.dir = (unpublished s h l).ledg.dir := (congrArg LedgSt.dir ho.ledg :)
  have hg : msgOf (toldBusy s h l e p) p.msg = none :=
    gone_of_adel (s := unpublished s h l) (t := toldBusy s h l e p) (answerPub_msgs ..) (.inl rfl)
  rw [failPublish_eq he hp hq, flush_outward (wakeHome_outward ..) (toldBusy_nothingDue hq hn)]
  refine ⟨(dirOf_congr hdir ..).trans (dirOf_modDir he _), wakeHome_gone l hg, ?_, ho.mem, ?_⟩
  · exact otherLines_congr (modDir_other _ _ _ _) hdir
  · refine ((modDir_abides ..).trans ho.abides).trans (.trans ?_ (wakeHome_outward ..).abides)
    exact modLedg_abides _ fun _ => rfl

/-- The state in which a recall wait has ended. -/
def waited (s : State) (h l : Nat) (e : DirEntry) (p : Publish) (sharer : Nat) : State :=
  bump (passTo s ((quadHub s h).getD h) (recallDue s h l e p sharer)) .ledger_RECALL_TIMEOUTS h

theorem waited_asking (p : Publish) (sharer : Nat) :
    Asking (passTo s ((quadHub s h).getD h) (recallDue s h l e p sharer)) (waited s h l e p sharer) := bump_asking ..

theorem recallWaitExpiry_settles {h : Hub} {p : Publish} {sharer : Nat} (he : dirOf s h l = some e) (hp : e.pub = some p)
    (hs : p.waiting.contains sharer = true) (hq : LineQuiet s l) (hn : NothingDue s) :
    Completes (.recallWaitExpiry h l sharer) s fun t =>
      recallDue s h l e p sharer ≤ homeNow t h ∧
      (holderCopy s l e.content sharer = true → p.kind = .plain → lineKind l ≠ lkMap →
        dirOf t h l = some { e with state := .valid, pub := none } ∧ msgOf t p.msg = none ∧ OtherLines s t h l ∧ t.mem = s.mem) ∧
      (holderCopy s l e.content sharer = false → p.waiting.filter (fun x => decide (x ≠ sharer)) ≠ [] →
        dirOf t h l = some { e with pub := some { p with waiting := p.waiting.filter fun x => decide (x ≠ sharer) } } ∧
        OtherLines s t h l ∧ t.msgs = s.msgs ∧ t.mem = s.mem) := by
  have hk : holderCopy (waited s h l e p sharer) l e.content sharer = holderCopy s l e.content sharer :=
    holderCopy_congr l (waited_asking p sharer).ledg ..
  have hx : exec (.recallWaitExpiry h l sharer) s = .next
      (if holderCopy s l e.content sharer ∧ p.kind = .plain ∧ lineKind l ≠ lkMap then flush (failPublish (waited s h l e p sharer) h l .busy)
      else flush (sharerGone (waited s h l e p sharer) h l sharer)) := by
    rw [← hk]
    dsimp only [exec]
    unfold execRecallWaitExpiry
    rw [he]
    dsimp only
    rw [hp]
    dsimp only
    rw [if_neg (by simp only [hs]; decide)]
    rfl
  refine completes_of_exec hx ?_
  have hw := waited_asking (s := s) (h := h) (l := l) (e := e) p sharer
  have hle : recallDue s h l e p sharer ≤ homeNow (waited s h l e p sharer) h := by
    rw [homeNow_congr h (congrArg LifeSt.hubs hw.life) (congrArg LifeSt.slices hw.life)]
    exact now_passTo_le ..
  have hledg : (waited s h l e p sharer).ledg = s.ledg := hw.ledg
  have hmsgs : (waited s h l e p sharer).msgs = s.msgs := hw.msgs
  have hmem : (waited s h l e p sharer).mem = s.mem := hw.mem
  generalize waited s h l e p sharer = u at *
  have heu : dirOf u h l = some e := (dirOf_congr (congrArg LedgSt.dir hledg) ..).trans he
  have hnu : NothingDue u := nothingDue_congr hledg hn
  have hqu : LineQuiet u l := ⟨by rw [hledg]; exact hq.1, by rw [hmsgs]; exact hq.2⟩
  split
  · next hc =>
    obtain ⟨hhold, hkind, hmap⟩ := hc
    obtain ⟨h1, h2, h3, h4, h5⟩ := failPublish_flushed heu hp hqu hnu
    refine ⟨by rw [homeNow_abides h5]; exact hle, fun _ _ _ => ⟨h1, h2, otherLines_of h3 (by rw [hledg]), h4.trans hmem⟩, fun hf => ?_⟩
    rw [hf] at hhold
    cases hhold
  · next hc =>
    refine ⟨?_, fun hhold hkind hmap => absurd ⟨hhold, hkind, hmap⟩ hc, fun _ hleft => ?_⟩
    · rw [homeNow_abides ((sharerGone_abides ..).trans (flush_abides _))]
      exact hle
    · rw [sharerGone_waits heu hp hleft hnu]
      exact ⟨dirOf_modDir heu _, otherLines_of (modDir_other _ _ _ _) (by rw [hledg]), hmsgs, hmem⟩

theorem transferLeaseExpiry_settles {h : Hub} {o : Owner} (he : dirOf s h l = some e) (ho : o = Owner.parse e.content) (hn : NothingDue s) :
    Completes (.transferLeaseExpiry h l) s fun t =>
      ((lineKind l ≠ lkOwner ∨ e.state ≠ .valid ∨ o.transfer = false ∨ e.leaseEnd = 0) → t = s) ∧
      (lineKind l = lkOwner → e.state = .valid → o.transfer = true → e.leaseEnd ≠ 0 → recallTargets s e ≠ [] →
        (∃ at_, dirOf t h l = some { e with
          state := .publishing, pub := some ⟨0, at_, .abort,
            { o with transfer := false, gen := (o.gen + 1) % 2 ^ 32, target := 0, lease := 0, key := 0 }.bytes,
            recallTargets s e⟩ }) ∧ e.leaseEnd ≤ homeNow t h ∧ OtherLines s t h l ∧ t.mem = s.mem) := by
  subst ho
  have hx : exec (.transferLeaseExpiry h l) s = .next
      (if lineKind l ≠ lkOwner ∨ e.state ≠ .valid ∨ ! (Owner.parse e.content).transfer ∨ e.leaseEnd = 0 then s
      else flush (startPublish (passTo s ((quadHub s h).getD h) e.leaseEnd) h l .abort
        { Owner.parse e.content with transfer := false, gen := ((Owner.parse e.content).gen + 1) % 2 ^ 32, target := 0, lease := 0,
                                     key := 0 }.bytes 0)) := by
    dsimp only [exec]
    unfold execTransferLeaseExpiry
    rw [he]
  refine completes_of_exec hx ⟨fun hc => if_pos (by simpa using hc), fun hk hv ht hle hts => ?_⟩
  rw [if_neg (by simp [hk, hv, ht, hle])]
  generalize { Owner.parse e.content with transfer := false, gen := ((Owner.parse e.content).gen + 1) % 2 ^ 32, target := 0, lease := 0,
                                          key := 0 }.bytes = b
  have hpt : recallTargets (passTo s ((quadHub s h).getD h) e.leaseEnd) e = recallTargets s e := rfl
  have hr := startPublish_recalls (s := passTo s ((quadHub s h).getD h) e.leaseEnd) (kind := .abort) (content := b) (msg := 0)
    he (by rw [hpt]; exact hts)
  rw [flush_outward hr.toOutward (publishing_nothingDue hn)]
  refine ⟨⟨_, ((dirOf_congr (congrArg LedgSt.dir hr.ledg) ..).trans (dirOf_modDir he _)).trans (by rw [begun, hpt])⟩, ?_, ?_, hr.mem⟩
  · rw [homeNow_abides ((modDir_abides (passTo s ((quadHub s h).getD h) e.leaseEnd) h l _).trans hr.toOutward.abides)]
    exact now_passTo_le ..
  · exact otherLines_congr (modDir_other _ _ _ _) (congrArg LedgSt.dir hr.ledg)

end

/-! ## Lines on their way here (R293) -/

section
variable {s : State} {h : Hub} {l : Nat}

theorem startPull_pulls {v : State} (hp : startPull s h l = (v, true)) :
    OtherLines s v h l ∧ ∃ e, dirOf v h l = some e ∧ e.state = .arriving ∧ e.version = 0 ∧ e.homeEpoch = s.ledg.newest := by
  unfold startPull at hp
  split at hp
  · split at hp
    · cases hp
    · next hu =>
      obtain ⟨i, hmk⟩ := newEntry_makes hu
      split at hp
      · cases hp
        exact ⟨hmk.other, _, hmk.entry, rfl, rfl, rfl⟩
      · obtain ⟨rfl, -⟩ := Prod.mk.inj hp
        have hr := fun u ep => sendRead_rereads u ep l (.pull h) true
        exact ⟨otherLines_congr hmk.other (by rw [(hr ..).ledg]), _, (dirOf_congr (by rw [(hr ..).ledg]) ..).trans hmk.entry, rfl, rfl, rfl⟩
  · cases hp

theorem linePull_settles {ep : Nat} (hh : lineHome s s.ledg.newest l = some (ep, (h : Nat))) (ho : isOwn s ep = true) :
    Completes (.linePull h l) s fun t =>
      ((∃ e, dirOf s h l = some e) → t = s) ∧
      (∀ v, startPull s h l = (v, true) → t = v ∧ OtherLines s t h l ∧
        ∃ e, dirOf t h l = some e ∧ e.state = .arriving ∧ e.version = 0 ∧ e.homeEpoch = s.ledg.newest) := by
  have hx : exec (.linePull h l) s = .next (startPull s h l).1 := by
    dsimp only [exec]
    unfold execLinePull
    rw [hh]
    dsimp only
    rw [if_pos ⟨ho, rfl⟩]
  refine completes_of_exec hx ⟨fun ⟨e, he⟩ => ?_, fun v hv => ?_⟩
  · unfold startPull
    rw [he]
  · rw [hv]
    exact ⟨rfl, startPull_pulls hv⟩

/-- The state in which a pull's wait has ended. -/
def pullWaited (s : State) (h l : Nat) : State :=
  match (s.ledg.reads.find? fun r => decide (r.line = l)).map fun r => (r.hub, r.at_) with
  | some (x, t) => passTo s x (t + rget s .ledger_pull_timeout_us h 0 * 1000)
  | none => s

theorem pullWaited_eq (s : State) (h l : Nat) : pullWaited s h l = { s with life := (pullWaited s h l).life } ∧
    oldHome (pullWaited s h l) l = oldHome s l := by
  unfold pullWaited
  split
  · exact ⟨rfl, rfl⟩
  · exact ⟨rfl, rfl⟩

/-- The line is made anew. -/
def lostLine (s : State) (h l : Nat) : State :=
  modLedg (modDir (bump s .ledger_LINES_LOST h) h l fun e => { e with state := .valid }) fun y =>
    { y with reads := y.reads.filter fun r => decide (r.line ≠ l) }

theorem pullTimeout_settles {e : DirEntry} (he : dirOf s h l = some e) (ha : e.state = .arriving) (hq : LineQuiet s l) :
    Completes (.pullTimeout h l) s fun t =>
      ((∀ ep x, oldHome s l = some (ep, x) → isMember s ep = false) →
        dirOf t h l = some { e with state := .valid } ∧ OtherLines s t h l ∧ t.mem = s.mem ∧ (∀ r ∈ t.ledg.reads, r.line ≠ l) ∧
        rget t .ledger_LINES_LOST h 0 = min (rget s .ledger_LINES_LOST h 0 + 1) (2 ^ Reg.ledger_LINES_LOST.width - 1)) ∧
      (∀ ep x, oldHome s l = some (ep, x) → isMember s ep = true → t.ledg = s.ledg ∧ t.msgs = s.msgs) := by
  obtain ⟨hu, hold⟩ := pullWaited_eq s h l
  have hx : exec (.pullTimeout h l) s = .next
      (if (match oldHome (pullWaited s h l) l with
          | some (ep, _) => ! isMember (pullWaited s h l) ep
          | none => true) = true then wakeLine (wakeHome (lostLine (pullWaited s h l) h l) l) l
      else pullWaited s h l) := by
    dsimp only [exec]
    unfold execPullTimeout
    rw [he]
    dsimp only
    rw [if_neg (by simp [ha])]
    rfl
  rw [hold] at hx
  have hm : ∀ ep, isMember (pullWaited s h l) ep = isMember s ep := fun ep => by rw [hu]; rfl
  refine completes_of_exec hx ⟨fun habs => ?_, fun ep x hox hmem => ?_⟩
  · have hc : (match oldHome s l with
        | some (ep, _) => ! isMember (pullWaited s h l) ep
        | none => true) = true := by
      split
      · next ep x hox => rw [hm, habs ep x hox]; rfl
      · rfl
    rw [if_pos hc]
    have hledg : (pullWaited s h l).ledg = s.ledg := by rw [hu]
    have hregs : (pullWaited s h l).regs = s.regs := by rw [hu]
    have hmem : (pullWaited s h l).mem = s.mem := by rw [hu]
    have hmsgs : (pullWaited s h l).msgs = s.msgs := by rw [hu]
    generalize pullWaited s h l = u at *
    have hb := bump_asking u .ledger_LINES_LOST h
    have hdir : (bump u .ledger_LINES_LOST h).ledg.dir = s.ledg.dir := by rw [hb.ledg, hledg]
    have hwait : Unwaited (lostLine u h l) l := unwaited_congr (s := s) (hb.msgs.trans hmsgs) hq.2
    rw [wakeLine_quiet (wakeHome_unwaited l hwait)]
    have hother := modDir_other (bump u .ledger_LINES_LOST h) h l fun e => { e with state := .valid }
    refine ⟨?_, otherLines_congr (otherLines_of hother hdir) rfl, hb.mem.trans hmem, fun r hr => ?_, ?_⟩
    · exact dirOf_modDir (s := bump u .ledger_LINES_LOST h) ((dirOf_congr hdir ..).trans he) fun e => { e with state := .valid }
    · exact of_decide_eq_true (List.mem_filter.mp hr).2
    · rw [← rget_congr hregs .ledger_LINES_LOST h 0]
      exact rget_bump_same ..
  · rw [hox]
    dsimp only
    rw [if_neg (by rw [hm, hmem]; decide), hu]
    exact ⟨rfl, rfl⟩

end

/-- Settles O17: lines at their home (assumptions 45: a VALID entry of version 0 is NOT_FOUND; 147: a cached read of a line without an
entry makes one; 182: a pull stays outstanding). -/
theorem linesAtTheirHome : Obligations.LinesAtTheirHome := by
  unfold Obligations.LinesAtTheirHome
  refine ⟨fun _ _ _ _ _ _ _ ha _ hn hver hpull hc => ledgerRead_settles ha hn hver hpull hc,
    fun _ _ _ _ _ _ _ _ ha hq hn hf hv hc => ledgerPublish_settles ha hq hn hf hv hc, fun _ _ _ _ _ _ _ ha hf => ?_,
    fun _ _ _ _ _ _ _ ha hf hv => ?_,
    fun _ _ _ _ _ _ _ _ ha hq hn hf hd ho hc hl hb hk hu => ledgerPublish_makes ha hq hn hf hd ho hc hl hb hk hu,
    fun _ _ _ _ _ _ _ _ hm hop hph hl hv hq hn he hp hf => recallAck_settles hm hop hph hl hv hq hn he hp hf,
    fun _ _ _ _ _ _ he hp hs hq hn => recallWaitExpiry_settles he hp hs hq hn,
    fun _ _ _ _ _ he ho hn => transferLeaseExpiry_settles he ho hn, fun _ _ _ _ hh ho => linePull_settles hh ho,
    fun _ _ _ _ he ha hq => pullTimeout_settles he ha hq⟩
  · refine completes_of_exec ((exec_ledgerPublish ha).trans ?_) rfl
    rw [hf]
  · refine completes_of_exec ((exec_ledgerPublish ha).trans ?_) rfl
    rw [hf]
    dsimp only
    rw [if_pos hv]

end Sys2Proof.Proofs

namespace Sys2Proof.Proofs
open Sys2Proof.Machine Sys2Proof.Laws

/-!
Extents, maps and units that return (O19, 12_ledger.md R282, R283, R291, R292, R297). A withdrawal ends merges, snapshots and BUFFERs of an
extent; none of that moves a die or a line (`Lasting`, `Unmoved`). A slice is verified by the ledger's work, which passes no time and
leaves the newest epoch (`Abides`).
-/

/-! ## A withdrawn extent (R283 steps 4 to 6) -/

/-- From s to t the life cycle and the ledger stand. -/
structure Lasting (s t : State) : Prop where
  life : t.life = s.life
  ledg : t.ledg = s.ledg

namespace Lasting
variable {a s t : State}

theorem refl (s : State) : Lasting s s := ⟨rfl, rfl⟩

theorem trans (f : Lasting a s) (g : Lasting s t) : Lasting a t := ⟨g.life.trans f.life, g.ledg.trans f.ledg⟩

theorem foldl {β : Type} {f : State → β → State} (hf : ∀ s x, Lasting s (f s x)) :
    ∀ (l : List β) (s : State), Lasting s (l.foldl f s)
  | [], s => refl s
  | x :: l, s => (hf s x).trans (foldl hf l (f s x))

end Lasting

theorem Outward.lasting {s t : State} (f : Outward s t) : Lasting s t := ⟨f.life, f.ledg⟩

theorem countPartial_lasting (s : State) (id h : Nat) (st : Status) : Lasting s (countPartial s id h st) := by
  unfold countPartial
  split
  · exact (bump_outward ..).lasting
  · exact .refl s

theorem directAnswer_lasting (s : State) (id : Nat) : Lasting s (directAnswer s id) := by
  unfold directAnswer
  split
  · exact .refl s
  · exact (countPartial_lasting ..).trans (answer_outward ..).lasting

theorem contribute_lasting (s : State) (id : Nat) (m : Msg) (a : Att) (dim : Nat) (st : Status) (recs : List Rec) (map kv pos : Nat) :
    Lasting s (contribute s id m a dim st recs map kv pos) := by
  unfold contribute
  extract_lets s1 hdr
  have h1 : Lasting s s1 := (setPhase_outward s id .waitContrib).lasting.trans ⟨rfl, rfl⟩
  split
  · split
    · exact h1.trans (directAnswer_lasting ..)
    · exact h1.trans ⟨rfl, rfl⟩
  · split
    · next e => exact h1.trans ((ask_asking ..).of_eq e).toOutward.lasting
    · next e => exact (h1.trans ((ask_asking ..).of_eq e).toOutward.lasting).trans (directAnswer_lasting ..)

theorem deliver_lasting (s : State) (x : MergeCtx) (st : Status) (recs : List Rec) (map kv pos : Nat) :
    Lasting s (deliver s x st recs map kv pos) := by
  have hb : Lasting s (if st = .revoked then bump s .ledger_EXTENT_REVOKED x.hub else s) := by
    split
    · exact (bump_outward ..).lasting
    · exact .refl s
  unfold deliver
  dsimp only
  split
  · exact hb
  · split
    · exact hb.trans (contribute_lasting ..)
    · exact (hb.trans (countPartial_lasting ..)).trans (answer_outward ..).lasting

theorem revokeCtx_lasting (s : State) (ctx : Nat) (x : MergeCtx) : Lasting s (revokeCtx s ctx x) :=
  .trans (t := revokeCtx s ctx x) (s := endCtx s ctx x) ⟨rfl, rfl⟩ (deliver_lasting ..)

theorem revokeSnaps_unmoved (s : State) (k e : Nat) : Unmoved s (revokeSnaps s k e) := by
  unfold revokeSnaps
  refine .foldl (fun s p => ?_) _ s
  dsimp only
  refine .trans ?_ (answerSnap_unmoved ..)
  split
  · exact dropSnap_unmoved ..
  · exact (dropSnap_unmoved ..).trans (bump_unmoved ..)

theorem clearExtent_unmoved (s : State) (k e : Nat) : Unmoved s (clearExtent s k e) :=
  ((revokeSnaps_unmoved s k e).trans (.foldl (fun s i => startRevoke_unmoved s i none none) _ _)).trans (.foldl freeSlot_unmoved _ _)

/-! ## Slots that are freed -/

/-- From s to t only memory has changed, and its slots stand. -/
structure KeepsSlots (s t : State) : Prop where
  rest  : t = { s with mem := t.mem }
  slots : t.mem.slots = s.mem.slots

namespace KeepsSlots
variable {a s t : State}

theorem refl (s : State) : KeepsSlots s s := ⟨rfl, rfl⟩

theorem trans (f : KeepsSlots a s) (g : KeepsSlots s t) : KeepsSlots a t := ⟨by rw [g.rest, f.rest], g.slots.trans f.slots⟩

theorem foldl {β : Type} {f : State → β → State} (hf : ∀ s x, KeepsSlots s (f s x)) :
    ∀ (l : List β) (s : State), KeepsSlots s (l.foldl f s)
  | [], s => refl s
  | x :: l, s => (hf s x).trans (foldl hf l (f s x))

end KeepsSlots

theorem scrub_keepsSlots (s : State) (a n : Nat) : KeepsSlots s (scrub s a n) := by
  refine ⟨?_, scrub_slots ..⟩
  unfold scrub
  dsimp only [setChk, setCells]
  rw [touchBanks_rest]

theorem freeHeader_keepsSlots (s : State) (a gen : Nat) : KeepsSlots s (freeHeader s a gen) :=
  ⟨poke_rest .., (touchBanks_slots .. : _)⟩

theorem modMem_rest {s t : State} (h : t = { s with mem := t.mem }) (f : MemSt → MemSt) :
    modMem t f = { s with mem := (modMem t f).mem } := by
  generalize t.mem = m at h
  subst h
  rfl

/-- A slot that is freed is gone, and nothing but memory has changed besides. -/
theorem clearSlot_frees (s : State) (lpn : Nat) : clearSlot s lpn = { s with mem := (clearSlot s lpn).mem } ∧
    ∀ j, aget (clearSlot s lpn).mem.slots j = if j = lpn then none else aget s.mem.slots j := by
  unfold clearSlot
  split
  · next h =>
    refine ⟨rfl, fun j => ?_⟩
    split
    · next e => rw [e, h]
    · rfl
  · next u h =>
    extract_lets a s1 s2 s3
    have hk : KeepsSlots s s3 :=
      ((scrub_keepsSlots ..).trans (freeHeader_keepsSlots ..)).trans (.foldl (fun _ _ => freeHeader_keepsSlots ..) _ _)
    refine ⟨?_, fun j => ?_⟩
    · exact modMem_rest hk.rest _
    · rw [modMem_mem]
      split
      · next e => rw [e, aget_adel_same]
      · next e => rw [aget_adel_other e, hk.slots]

theorem freeSlot_frees {s : State} (hs : s.dill.snaps = []) (lpn : Nat) : freeSlot s lpn = { s with mem := (freeSlot s lpn).mem } ∧
    ∀ j, aget (freeSlot s lpn).mem.slots j = if j = lpn then none else aget s.mem.slots j := by
  unfold freeSlot
  rw [lowerFences_clean hs]
  exact clearSlot_frees ..

theorem freeSlots_free : ∀ (l : List Nat) {s : State}, s.dill.snaps = [] →
    l.foldl freeSlot s = { s with mem := (l.foldl freeSlot s).mem } ∧
    ∀ j, aget (l.foldl freeSlot s).mem.slots j = if j ∈ l then none else aget s.mem.slots j
  | [], s, _ => ⟨rfl, fun j => rfl⟩
  | x :: l, s, hs => by
    obtain ⟨h1, h2⟩ := freeSlot_frees hs x
    obtain ⟨h3, h4⟩ := freeSlots_free l (s := freeSlot s x) (by rw [h1]; exact hs)
    refine ⟨?_, fun j => ?_⟩
    · rw [List.foldl_cons, h3, h1]
    · rw [List.foldl_cons, h4, h2]
      by_cases hj : j = x <;> simp [hj]

section
variable {s : State} {k e : Nat}

/-- Where no BUFFER stands and nothing is fenced, a scrub frees the slots of its extent and no others. -/
theorem scrubExtent_frees (hb : ∀ p ∈ s.regn.regions, p.2.kind = rkBuffer → p.2.state = 0) (hs : s.dill.snaps = []) :
    scrubExtent s k e = { s with mem := (scrubExtent s k e).mem } ∧
    (∀ lpn, lpnSlice lpn = k → lpnExtent lpn = e → aget (scrubExtent s k e).mem.slots lpn = none) ∧
    (∀ lpn, (lpnSlice lpn ≠ k ∨ lpnExtent lpn ≠ e) → aget (scrubExtent s k e).mem.slots lpn = aget s.mem.slots lpn) := by
  have hh : ∀ lpn, bufferHolds s lpn = false := fun lpn => by
    refine List.any_eq_false.mpr fun p hp h => ?_
    simp only [Bool.and_eq_true, decide_eq_true_eq] at h
    exact h.1.2 (hb p hp h.1.1)
  have hl : (extentSlots s k e).filter (fun lpn => ! bufferHolds s lpn) = extentSlots s k e :=
    List.filter_eq_self.mpr fun lpn _ => by rw [hh]; rfl
  have hmem : ∀ lpn, lpn ∈ extentSlots s k e → lpnSlice lpn = k ∧ lpnExtent lpn = e := fun lpn h => by
    obtain ⟨p, hp, rfl⟩ := List.mem_map.mp h
    simpa using (List.mem_filter.mp hp).2
  unfold scrubExtent
  rw [hl]
  obtain ⟨h1, h2⟩ := freeSlots_free (extentSlots s k e) hs
  refine ⟨h1, fun lpn hk he => ?_, fun lpn hne => ?_⟩
  · rw [h2]
    split
    · rfl
    · next hn =>
      refine aget_none_of_forall fun p hp hpl => hn ?_
      subst hpl
      exact List.mem_map_of_mem (f := Prod.fst) (List.mem_filter.mpr ⟨hp, by simp [hk, he]⟩)
  · rw [h2, if_neg fun h => ?_]
    obtain ⟨h3, h4⟩ := hmem lpn h
    exact hne.elim (· h3) (· h4)

/-- The same, of a withdrawal without BUFFERs and snapshots. -/
theorem clearExtent_frees (hb : ∀ p ∈ s.regn.regions, p.2.kind = rkBuffer → p.2.state = 0) (hs : s.dill.snaps = []) :
    clearExtent s k e = scrubExtent s k e := by
  have hr : revokeSnaps s k e = s := by
    unfold revokeSnaps
    rw [hs]
    rfl
  have hn : extentBuffers s k e = [] := by
    unfold extentBuffers
    rw [List.filter_eq_nil_iff.mpr fun p hp => ?_]
    · rfl
    · intro h
      simp only [Bool.and_eq_true, decide_eq_true_eq] at h
      exact h.1.1.2 (hb p hp h.1.1.1)
  unfold clearExtent
  dsimp only
  rw [hr, hn]
  rfl

end

/-! ## The end of a drain -/

section
variable {s : State} {k : Slice} {e : Nat} {x : Extent}

/-- The merges that read a page of the extent have ended, its hub's time has reached the end of the drain. -/
def drained (s : State) (k e : Nat) (x : Extent) : State :=
  ((passTo s (homeHub s k) x.drainEnd).merge.ctxs.filter fun p => ctxTouches (passTo s (homeHub s k) x.drainEnd) k e p.2).foldl
    (fun s p => revokeCtx s p.1 p.2) (passTo s (homeHub s k) x.drainEnd)

/-- The extent scrubs. -/
def extentScrubs (v : State) (k e : Nat) (x : Extent) : State :=
  modLedg v fun y => { y with exts := aset y.exts (k, e) { x with scrubbing := true } }

theorem extentScrubs_now (v : State) (h : Nat) : now (extentScrubs v k e x) h = now v h := rfl

theorem extentScrubs_ext (v : State) : extentSt (extentScrubs v k e x) k e = { x with scrubbing := true } := agetD_aset_same ..

theorem extentScrubs_dir (v : State) : (extentScrubs v k e x).ledg.dir = v.ledg.dir := rfl

theorem extentScrubs_rest {v : State} (hv : v = { s with mem := v.mem, life := v.life }) : extentScrubs v k e x =
    { s with mem := (extentScrubs v k e x).mem, ledg := (extentScrubs v k e x).ledg, life := (extentScrubs v k e x).life } := by
  generalize v.mem = m at hv
  generalize v.life = l at hv
  subst hv
  rfl

theorem exec_extentDrainExpiry (hx : x = extentSt s k e) : exec (.extentDrainExpiry k e) s = .next
    (if x.state ≠ .closing ∨ x.scrubbing then s else extentScrubs (clearExtent (drained s k e x) k e) k e x) := by
  subst hx
  rfl

theorem extentDrainExpiry_settles (hx : x = extentSt s k e) : Completes (.extentDrainExpiry k e) s fun t =>
      ((x.state ≠ .closing ∨ x.scrubbing = true) → t = s) ∧
      (x.state = .closing → x.scrubbing = false → x.drainEnd ≤ now t (homeHub s k) ∧
        extentSt t k e = { x with scrubbing := true } ∧ t.ledg.dir = s.ledg.dir) ∧
      (x.state = .closing → x.scrubbing = false → s.merge.ctxs = [] → (∀ p ∈ s.regn.regions, p.2.kind = rkBuffer → p.2.state = 0) →
        s.dill.snaps = [] →
        (∀ lpn, lpnSlice lpn = k → lpnExtent lpn = e → aget t.mem.slots lpn = none) ∧
        (∀ lpn, (lpnSlice lpn ≠ k ∨ lpnExtent lpn ≠ e) → aget t.mem.slots lpn = aget s.mem.slots lpn) ∧
        t = { s with mem := t.mem, ledg := t.ledg, life := t.life }) := by
  refine completes_of_exec (exec_extentDrainExpiry hx) ⟨fun h => if_pos (by simpa using h), fun hc hs => ?_, fun hc hs hm hb hn => ?_⟩
  · rw [if_neg (by simp [hc, hs])]
    have hd : Lasting (passTo s (homeHub s k) x.drainEnd) (drained s k e x) := .foldl (fun _ _ => revokeCtx_lasting ..) _ _
    have hu := clearExtent_unmoved (drained s k e x) k e
    have ht : now (clearExtent (drained s k e x) k e) (homeHub s k) = now (passTo s (homeHub s k) x.drainEnd) (homeHub s k) := by
      unfold now
      rw [hubSt_congr hu.hubs, hubSt_congr (congrArg LifeSt.hubs hd.life)]
    have hg := hu.ledg.trans hd.ledg
    generalize clearExtent (drained s k e x) k e = v at *
    refine ⟨?_, extentScrubs_ext v, (extentScrubs_dir v).trans (congrArg LedgSt.dir hg)⟩
    rw [extentScrubs_now, ht, now_passTo]
    exact le_max_right ..
  · rw [if_neg (by simp [hc, hs])]
    have hd : drained s k e x = passTo s (homeHub s k) x.drainEnd := by
      unfold drained
      rw [show (passTo s (homeHub s k) x.drainEnd).merge.ctxs = [] from hm]
      rfl
    rw [hd, clearExtent_frees (s := passTo s (homeHub s k) x.drainEnd) hb hn]
    obtain ⟨h1, h2, h3⟩ := scrubExtent_frees (s := passTo s (homeHub s k) x.drainEnd) (k := k) (e := e) hb hn
    generalize scrubExtent (passTo s (homeHub s k) x.drainEnd) k e = v at *
    refine ⟨h2, h3, extentScrubs_rest ?_⟩
    rw [h1]
    rfl

end

/-! ## The end of a scrub (R283 step 7) -/

section
variable {s : State} {k : Slice} {e : Nat} {x : Extent}

/-- A publish of the node's own that stands alone goes out to the line's home, and nothing else does. -/
theorem flush_queuePub {l ep h v : Nat} {c : List Byte} (hp : s.ledg.pubs = []) (hn : NothingDue s)
    (hh : lineHome s s.ledg.newest l = some (ep, h)) (ho : isOwn s ep = false) :
    (flush (queuePub s l c v)).ledg = { s.ledg with pubs := [⟨l, c, v, true⟩] } ∧ (flush (queuePub s l c v)).mem = s.mem := by
  have hq : queuePub s l c v = { s with ledg := { s.ledg with pubs := [⟨l, c, v, false⟩] } } := by
    unfold queuePub modLedg
    dsimp only
    rw [hp]
    rfl
  rw [hq]
  generalize hu : ({ s with ledg := { s.ledg with pubs := [⟨l, c, v, false⟩] } } : State) = u
  have hul : u.ledg = { s.ledg with pubs := [⟨l, c, v, false⟩] } := by rw [← hu]
  have hum : u.mem = s.mem := by rw [← hu]
  have huh : lineHome u u.ledg.newest l = some (ep, h) := by rw [← hu]; exact hh
  have huo : isOwn u ep = false := by rw [← hu]; exact ho
  obtain ⟨-, hd, hm⟩ := hn
  unfold flush
  rw [resumeSources_quiet (by rw [hul]; exact hm), localPulls_quiet (by rw [hul]; exact hd)]
  have hb : pubBlocked u ⟨l, c, v, false⟩ = false := by
    unfold pubBlocked
    dsimp only
    rw [huh]
    dsimp only
    rw [huo]
    rfl
  unfold flushPubs
  rw [show u.ledg.pubs.find? (fun p => ! p.sent && ! pubBlocked u p) = some ⟨l, c, v, false⟩ by
    rw [hul, List.find?_cons_of_pos]
    simp [hb]]
  dsimp only
  rw [huh]
  dsimp only
  rw [if_neg (by rw [huo]; decide)]
  generalize hw : (modLedg u fun y => { y with pubs := y.pubs.map fun q => if q.line = l then { q with sent := true } else q }) = w
  have hwl : w.ledg = { s.ledg with pubs := [⟨l, c, v, true⟩] } := by
    rw [← hw, modLedg_ledg, hul]
    simp
  have ha := ask_asking w (ledgerHub u) ep .ledgerPublish l (ledgerPubReq true l v c)
  rw [flushPubs_quiet (by rw [ha.ledg, hwl]; simp)]
  exact ⟨ha.ledg.trans hwl, ha.mem.trans (by rw [← hw]; exact hum)⟩

theorem extentScrubComplete_settles (hx : x = extentSt s k e) : Completes (.extentScrubComplete k e) s fun t =>
      ((x.state ≠ .closing ∨ x.scrubbing = false ∨ extentBuffers s k e ≠ []) → t = s) ∧
      (∀ l ep h, x.state = .closing → x.scrubbing = true → extentBuffers s k e = [] → s.ledg.pubs = [] → NothingDue s →
        l = extentLine (nodeEndpoint s) k e →
        lineHome s s.ledg.newest l = some (ep, h) → isOwn s ep = false →
        t.ledg.pubs = [⟨l, ExtLine.bytes ⟨1, 0, 0, (x.gen + 1) % 2 ^ 32, 0⟩, ((heldContent s l).map (·.1)).getD 0, true⟩] ∧ t.mem = s.mem ∧ t.ledg.exts = s.ledg.exts) := by
  subst hx
  have hx : exec (.extentScrubComplete k e) s = .next
      (if (extentSt s k e).state ≠ .closing ∨ ! (extentSt s k e).scrubbing then s
      else if ! (extentBuffers s k e).isEmpty then s
      else flush (queuePub s (extentLine (nodeEndpoint s) k e) (ExtLine.bytes ⟨1, 0, 0, ((extentSt s k e).gen + 1) % 2 ^ 32, 0⟩)
        (((heldContent s (extentLine (nodeEndpoint s) k e)).map (·.1)).getD 0))) := by
    dsimp only [exec]
    unfold execExtentScrubComplete
    rfl
  refine completes_of_exec hx ⟨fun h => ?_, fun l ep h hc hs hb hp hn hl hh ho => ?_⟩
  · by_cases hcl : (extentSt s k e).state ≠ .closing ∨ ! (extentSt s k e).scrubbing
    · rw [if_pos hcl]
    · rw [if_neg hcl]
      refine if_pos ?_
      rcases h with h | h | h
      · exact absurd (.inl h) hcl
      · exact absurd (.inr (by rw [h]; rfl)) hcl
      · simpa using h
  · subst hl
    rw [if_neg (by simp [hc, hs]), if_neg (by simp [hb])]
    obtain ⟨h1, h2⟩ := flush_queuePub (c := ExtLine.bytes ⟨1, 0, 0, ((extentSt s k e).gen + 1) % 2 ^ 32, 0⟩)
      (v := ((heldContent s (extentLine (nodeEndpoint s) k e)).map (·.1)).getD 0) hp hn hh ho
    rw [h1]
    exact ⟨rfl, h2, rfl⟩

end

/-! ## Maps (R291, R292) -/

/-- From s to t memory, the epochs and their maps stand. -/
structure KeepsMaps (s t : State) : Prop where
  mem  : t.mem = s.mem
  maps : (t.ledg.newest, t.ledg.previous, t.ledg.pendEpoch, t.ledg.head, t.ledg.maps) =
    (s.ledg.newest, s.ledg.previous, s.ledg.pendEpoch, s.ledg.head, s.ledg.maps)

namespace KeepsMaps
variable {a s t : State}

theorem refl (s : State) : KeepsMaps s s := ⟨rfl, rfl⟩

theorem trans (f : KeepsMaps a s) (g : KeepsMaps s t) : KeepsMaps a t := ⟨g.mem.trans f.mem, g.maps.trans f.maps⟩

theorem foldl {β : Type} {f : State → β → State} (hf : ∀ s x, KeepsMaps s (f s x)) :
    ∀ (l : List β) (s : State), KeepsMaps s (l.foldl f s)
  | [], s => refl s
  | x :: l, s => (hf s x).trans (foldl hf l (f s x))

theorem nextPending_eq (f : KeepsMaps s t) : nextPending t = nextPending s := by
  obtain ⟨-, h⟩ := f
  simp only [Prod.mk.injEq] at h
  obtain ⟨h1, -, -, h2, h3⟩ := h
  unfold nextPending mapWhole
  rw [h1, h2, h3]

end KeepsMaps

theorem Judged.keepsMaps {s t : State} (f : Judged s t) : KeepsMaps s t := ⟨f.mem, by rw [f.ledg]⟩

theorem readExtents_keepsMaps (s : State) : KeepsMaps s (readExtents s) := by
  unfold readExtents
  refine .foldl (fun s k => .foldl (fun s e => ?_) _ s) _ s
  dsimp only
  split
  · exact .refl s
  · split
    · split
      · split
        · exact ⟨rfl, rfl⟩
        · exact .refl s
      · exact .refl s
    · split
      · exact .refl s
      · exact (sendRead_judged ..).keepsMaps

section
variable {s : State}

/-- The map that has been read is newest. -/
def mapAdopted (s : State) (n : Nat) : State :=
  setPending (modLedg s fun y =>
    { y with newest := n, previous := s.ledg.newest,
             maps := y.maps.filter fun p => decide (p.1 = n) || decide (p.1 = s.ledg.newest) || serialLt 16 n p.1 })

/-- A node that the newest map lists has been a member. -/
def joined (s : State) : State := if isMember s (nodeEndpoint s) then modLife s fun y => { y with member := true } else s

theorem joined_keepsMaps (s : State) : KeepsMaps s (joined s) := by
  unfold joined
  split
  · exact ⟨rfl, rfl⟩
  · exact .refl s

theorem mapAdopt_settles {n : Nat} (hp : n = s.ledg.pendEpoch) : Completes .mapAdopt s fun t =>
      ((n = 0 ∨ s.ledg.previous ≠ 0 ∧ 0 < inflightAll s s.ledg.previous) → t = s) ∧
      (n ≠ 0 → (s.ledg.previous = 0 ∨ inflightAll s s.ledg.previous = 0) →
        t.ledg.newest = n ∧ t.ledg.previous = s.ledg.newest ∧ t.ledg.pendEpoch = nextPending t ∧
        t.ledg.maps = s.ledg.maps.filter (fun p => decide (p.1 = n) || decide (p.1 = s.ledg.newest) || serialLt 16 n p.1) ∧ t.mem = s.mem) := by
  subst hp
  have hx : exec .mapAdopt s = .next (if s.ledg.pendEpoch = 0 ∨ (s.ledg.previous ≠ 0 ∧ 0 < inflightAll s s.ledg.previous) then s
      else wakeEpoch (readExtents (joined (mapAdopted s s.ledg.pendEpoch)))) := by
    dsimp only [exec]
    unfold execMapAdopt
    rfl
  refine completes_of_exec hx ⟨fun h => if_pos h, fun hne hi => ?_⟩
  rw [if_neg (by omega)]
  have hk : KeepsMaps (mapAdopted s s.ledg.pendEpoch) (wakeEpoch (readExtents (joined (mapAdopted s s.ledg.pendEpoch)))) :=
    ((joined_keepsMaps _).trans (readExtents_keepsMaps _)).trans (wake_judged ..).keepsMaps
  have hnp := hk.nextPending_eq
  generalize wakeEpoch (readExtents (joined (mapAdopted s s.ledg.pendEpoch))) = t at *
  obtain ⟨hm, h⟩ := hk
  simp only [Prod.mk.injEq] at h
  obtain ⟨h1, h2, h3, h4, h5⟩ := h
  exact ⟨h1, h2, h3.trans hnp.symm, h5, hm⟩

theorem epochWaitExpiry_settles {msg : Nat} {m : Msg} (hm : msgOf s msg = some m) : Completes (.epochWaitExpiry msg) s fun t =>
      (m.phase ≠ .waitEpoch → t = s) ∧
      (m.phase = .waitEpoch → msgOf t msg = none ∧ t.mem = s.mem ∧ t.ledg = s.ledg ∧
        m.at_ + rget s .ledger_epoch_wait_us m.hub 0 * 1000 ≤ now t m.hub) := by
  have hx : exec (.epochWaitExpiry msg) s = .next (if m.phase = .waitEpoch then
      refuseNine (passTo s m.hub (m.at_ + rget s .ledger_epoch_wait_us m.hub 0 * 1000)) msg .busy [] else s) := by
    dsimp only [exec]
    unfold execEpochWaitExpiry
    rw [hm]
  refine completes_of_exec hx ⟨fun h => if_neg h, fun h => ?_⟩
  rw [if_pos h]
  have ho := refuseNine_outward (passTo s m.hub (m.at_ + rget s .ledger_epoch_wait_us m.hub 0 * 1000)) msg .busy []
  refine ⟨?_, ho.mem, ho.ledg, ?_⟩
  · unfold refuseNine
    rw [show msgOf (passTo s m.hub (m.at_ + rget s .ledger_epoch_wait_us m.hub 0 * 1000)) msg = some m from hm]
    exact gone_of_adel (refuse_msgs ..) (.inl rfl)
  · unfold now
    rw [hubSt_congr (congrArg LifeSt.hubs ho.life)]
    exact (le_max_right ..).trans_eq (now_passTo ..).symm

end

/-! ## Units that return (R297) -/

theorem dropStale_unmoved (s : State) (i : Nat) : Unmoved s (dropStale s i) := by
  unfold dropStale
  split
  · exact .refl s
  · exact dropHere_unmoved ..

theorem verifySlice_abides (s : State) (k : Nat) : Abides s (verifySlice s k) := by
  unfold verifySlice
  extract_lets bad s1 mine
  have h1 : Abides s s1 := .foldl (fun s e => (clearExtent_unmoved s k e).abides.trans (applyExtent_abides ..)) _ _
  refine .ite (.refl s) (h1.trans (.foldl (fun s p => ?_) _ _))
  dsimp only
  split
  · exact (dropStale_unmoved ..).abides.trans (lineChanged_abides ..)
  · exact (dropStale_unmoved ..).abides

/-- From s to t memory and the life cycle stand, and no copy has come. -/
structure Verifies (s t : State) : Prop where
  mem    : t.mem = s.mem
  life   : t.life = s.life
  copies : s.ledg.copies = [] → t.ledg.copies = []

namespace Verifies
variable {a s t : State}

theorem refl (s : State) : Verifies s s := ⟨rfl, rfl, id⟩

theorem trans (f : Verifies a s) (g : Verifies s t) : Verifies a t :=
  ⟨g.mem.trans f.mem, g.life.trans f.life, fun h => g.copies (f.copies h)⟩

theorem foldl {β : Type} {f : State → β → State} (hf : ∀ s x, Verifies s (f s x)) :
    ∀ (l : List β) (s : State), Verifies s (l.foldl f s)
  | [], s => refl s
  | x :: l, s => (hf s x).trans (foldl hf l (f s x))

end Verifies

theorem Judged.verifies {s t : State} (f : Judged s t) : Verifies s t := ⟨f.mem, f.life, fun h => by rw [f.ledg]; exact h⟩

theorem startVerify_verifies (s : State) (ks more : List Nat) : Verifies s (startVerify s ks more) := by
  unfold startVerify
  split
  · exact .refl s
  · refine .foldl (fun s l => ?_) _ s
    split
    · exact ⟨rfl, rfl, id⟩
    · split
      · exact .refl s
      · dsimp only
        refine .trans ?_ (sendRead_judged ..).verifies
        refine ⟨rfl, rfl, fun h => ?_⟩
        rw [modLedg_ledg]
        dsimp only
        rw [h]
        rfl

section
variable (s : State) (k : Slice)

/-- What the return of a slice does, by the state of its unit. -/
theorem exec_unitReturn_slice : exec (.unitReturn (.slice k)) s = .next
    (match (sliceSt s k).unitSt with
    | .inService => modSlice s k fun y => { y with unitGen := (y.unitGen + 1) % 2 ^ 32, unitSt := .quarantined }
    | .quarantined => startVerify (modSlice s k fun y => { y with unitSt := .verifying }) [k] []
    | .verifying => if ! s.ledg.verify.isEmpty then s else modSlice (verifySlice s k) k fun y => { y with unitSt := .inService }) := rfl

theorem unitReturn_slice : Completes (.unitReturn (.slice k)) s fun t =>
      ((sliceSt s k).unitSt = .inService →
        sliceSt t k = { sliceSt s k with unitGen := ((sliceSt s k).unitGen + 1) % 2 ^ 32, unitSt := .quarantined } ∧
        (∀ j, j ≠ (k : Nat) → sliceSt t j = sliceSt s j) ∧ t = { s with life := t.life }) ∧
      ((sliceSt s k).unitSt = .quarantined → sliceSt t k = { sliceSt s k with unitSt := .verifying } ∧ t.mem = s.mem) ∧
      ((sliceSt s k).unitSt = .verifying → s.ledg.verify ≠ [] → t = s) ∧
      ((sliceSt s k).unitSt = .verifying → s.ledg.verify = [] → sliceSt t k = { sliceSt s k with unitSt := .inService } ∧
        (∀ j, j ≠ (k : Nat) → sliceSt t j = sliceSt s j)) := by
  refine completes_of_exec (exec_unitReturn_slice s k) ⟨fun h => ?_, fun h => ?_, fun h hv => ?_, fun h hv => ?_⟩ <;> rw [h] <;> dsimp only
  · exact ⟨sliceSt_modSlice_same .., fun j hj => sliceSt_modSlice_other s hj _, rfl⟩
  · have hf := startVerify_verifies (modSlice s k fun y => { y with unitSt := .verifying }) [k] []
    exact ⟨(sliceSt_congr (congrArg LifeSt.slices hf.life) _).trans (sliceSt_modSlice_same ..), hf.mem⟩
  · exact if_pos (by simpa using hv)
  · rw [if_neg (by simp [hv])]
    have hs : ∀ j, sliceSt (verifySlice s k) j = sliceSt s j :=
      sliceSt_congr (congrArg LifeSt.slices (verifySlice_abides s k).life :)
    exact ⟨(sliceSt_modSlice_same ..).trans (by rw [hs]), fun j hj => (sliceSt_modSlice_other _ hj _).trans (hs j)⟩

end

/-! ### A hub -/

theorem delete_rebuild (s : State) (h cls key prio : Nat) : (delete s h cls key prio).chive.rebuild = s.chive.rebuild := by
  unfold delete settleFlag
  dsimp only
  split
  · simp [rowWrite]
  · split <;> simp [setOt]

theorem dropConn_rebuild (s : State) (id : Nat) : (dropConn s id).chive.rebuild = s.chive.rebuild := by
  unfold dropConn
  split
  · rfl
  · next c _ =>
    dsimp only
    have hd : ∀ b : Prop, [Decidable b] → (if b then delete s c.hub clsConn (connKey c) 0 else s).chive.rebuild = s.chive.rebuild :=
      fun b _ => by
        split
        · exact delete_rebuild ..
        · rfl
    split
    · exact hd _
    · exact (congrArg ChiveSt.rebuild (reopen_chive ..)).trans (hd _)

section
variable (s : State) (h : Hub)

theorem rebuildHub_rebuilds {p : (Nat × Nat) × ChiveRow} (hp : p ∈ s.chive.shadow) (hh : p.1.1 = (h : Nat)) :
    ((h : Nat), p.1.2 / 16) ∈ (rebuildHub s h).chive.rebuild := by
  have hb : ((h : Nat), p.1.2 / 16) ∈ ((s.chive.shadow.filter fun p => decide (p.1.1 = (h : Nat))).map fun p => ((h : Nat), p.1.2 / 16)).eraseDups :=
    List.mem_eraseDups.mpr (List.mem_map.mpr ⟨p, List.mem_filter.mpr ⟨hp, decide_eq_true hh⟩, rfl⟩)
  unfold rebuildHub
  dsimp only
  rw [foldl_part (·.chive.rebuild) (fun _ _ => dropConn_rebuild ..), bumpBy_chive, modChive_chive]
  rw [List.mem_append, List.mem_filter]
  by_cases hc : s.chive.rebuild.contains ((h : Nat), p.1.2 / 16) = true
  · exact .inl (List.contains_iff_mem.mp hc)
  · exact .inr ⟨hb, by simpa using hc⟩

theorem rebuildHub_rest : (rebuildHub s h).life = s.life ∧ (rebuildHub s h).mem = s.mem ∧ (rebuildHub s h).seqs = s.seqs := by
  unfold rebuildHub
  dsimp only
  exact ⟨by rw [foldl_part (·.life) (fun _ _ => dropConn_life ..)]; simp, by rw [foldl_part (·.mem) (fun _ _ => dropConn_mem ..)]; simp,
    by rw [foldl_part (·.seqs) (fun _ _ => dropConn_seqs ..)]; simp⟩

/-- What the return of a hub does, by the state of its unit. -/
theorem exec_unitReturn_hub : exec (.unitReturn (.hub h)) s = .next
    (match (hubSt s h).unitSt with
    | .inService => modHub s h fun y => { y with unitGen := (y.unitGen + 1) % 2 ^ 32, unitSt := .quarantined }
    | .quarantined => modHub s h fun y => { y with unitSt := .verifying }
    | .verifying => modHub (rebuildHub s h) h fun y => { y with unitSt := .inService }) := rfl

theorem unitReturn_hub : Completes (.unitReturn (.hub h)) s fun t =>
      ((hubSt s h).unitSt = .inService →
        hubSt t h = { hubSt s h with unitGen := ((hubSt s h).unitGen + 1) % 2 ^ 32, unitSt := .quarantined }) ∧
      ((hubSt s h).unitSt = .quarantined → hubSt t h = { hubSt s h with unitSt := .verifying }) ∧
      ((hubSt s h).unitSt = .verifying → hubSt t h = { hubSt s h with unitSt := .inService } ∧
        ∀ p ∈ s.chive.shadow, p.1.1 = (h : Nat) → ((h : Nat), p.1.2 / 16) ∈ t.chive.rebuild) ∧
      (∀ j, j ≠ (h : Nat) → hubSt t j = hubSt s j) ∧ t.mem = s.mem ∧ t.seqs = s.seqs := by
  refine completes_of_exec (exec_unitReturn_hub s h) ?_
  obtain ⟨hl, hm, hq⟩ := rebuildHub_rest s h
  have hs : ∀ j, hubSt (rebuildHub s h) j = hubSt s j := hubSt_congr (congrArg LifeSt.hubs hl)
  cases hu : (hubSt s h).unitSt with
  | inService => exact ⟨fun _ => hubSt_modHub_same .., nofun, nofun, fun j hj => hubSt_modHub_other s hj _, rfl, rfl⟩
  | quarantined => exact ⟨nofun, fun _ => hubSt_modHub_same .., nofun, fun j hj => hubSt_modHub_other s hj _, rfl, rfl⟩
  | verifying =>
    exact ⟨nofun, nofun, fun _ => ⟨(hubSt_modHub_same ..).trans (by rw [hs]), fun p hp hh => rebuildHub_rebuilds s h hp hh⟩,
      fun j hj => (hubSt_modHub_other _ hj _).trans (hs j), hm, hq⟩

end

/-! ### The node -/

theorem dropEntry_dir (s : State) (h l : Nat) : (dropEntry s h l).ledg.dir = adel s.ledg.dir (h, l) := by
  unfold dropEntry
  dsimp only
  rw [modLedg_ledg, (delete_index ..).inIndex.outward.ledg]

theorem dropEntries_dir : ∀ (l : List ((Nat × Nat) × DirEntry)) (s : State),
    (l.foldl (fun s p => dropEntry s p.1.1 p.1.2) s).ledg.dir = s.ledg.dir.filter fun q => l.all fun p => decide (q.1 ≠ p.1)
  | [], s => by simp
  | x :: l, s => by
    rw [List.foldl_cons, dropEntries_dir l, dropEntry_dir, adel, List.filter_filter]
    refine List.filter_congr fun q _ => ?_
    rw [List.all_cons, Bool.and_comm]

theorem dropDirectory_empties (s : State) : (s.ledg.dir.foldl (fun s p => dropEntry s p.1.1 p.1.2) s).ledg.dir = [] := by
  rw [dropEntries_dir, List.filter_eq_nil_iff]
  intro q hq h
  have := List.all_eq_true.mp h q hq
  simp at this

section
variable (s : State)

/-- The node's own copies are let go, and what it held is read again. -/
def verifyNode : State :=
  startVerify (readHead (modLedg (modLife s fun y => { y with nodeUnit := .verifying }) fun y => { y with copies := [] })) (List.range 32)
    (((s.ledg.copies.filter fun c => c.2.lease.isNone).map (·.1)).filter fun l => decide (l ≠ headLine))

/-- The directory of a node that the map has left behind goes. -/
def settleNode (u : State) : State :=
  modLife (if u.ledg.pendEpoch ≠ 0 ∨ u.ledg.newest ≠ u.life.leftEpoch then u.ledg.dir.foldl (fun s p => dropEntry s p.1.1 p.1.2) u else u)
    fun y => { y with nodeUnit := .inService }

theorem exec_unitReturn_node : exec (.unitReturn .node) s = .next
    (match s.life.nodeUnit with
    | .inService => modLife s fun y =>
        { y with nodeGen := (y.nodeGen + 1) % 2 ^ 32, nodeUnit := .quarantined, leftEpoch := s.ledg.newest }
    | .quarantined => verifyNode s
    | .verifying => if ! s.ledg.verify.isEmpty then s else settleNode ((List.range 32).foldl verifySlice s)) := rfl

theorem settleNode_nodeGen (u : State) : (settleNode u).life.nodeGen = u.life.nodeGen := by
  have h : Abides u (if u.ledg.pendEpoch ≠ 0 ∨ u.ledg.newest ≠ u.life.leftEpoch then
      u.ledg.dir.foldl (fun s p => dropEntry s p.1.1 p.1.2) u else u) :=
    .ite (.foldl (fun _ _ => dropEntry_abides ..) _ _) (.refl u)
  exact (congrArg LifeSt.nodeGen h.life :)

theorem unitReturn_node : Completes (.unitReturn .node) s fun t =>
      (s.life.nodeUnit = .inService → t.life.nodeGen = (s.life.nodeGen + 1) % 2 ^ 32 ∧ t.life.nodeUnit = .quarantined ∧
        t = { s with life := t.life }) ∧
      (s.life.nodeUnit = .quarantined → t.life.nodeUnit = .verifying ∧ t.ledg.copies = [] ∧ t.mem = s.mem) ∧
      (s.life.nodeUnit = .verifying → s.ledg.verify ≠ [] → t = s) ∧
      (s.life.nodeUnit = .verifying → s.ledg.verify = [] → t.life.nodeUnit = .inService ∧ t.life.nodeGen = s.life.nodeGen ∧
        (s.ledg.newest ≠ s.life.leftEpoch → t.ledg.dir = [])) := by
  refine completes_of_exec (exec_unitReturn_node s) ⟨fun h => ?_, fun h => ?_, fun h hv => ?_, fun h hv => ?_⟩ <;> rw [h] <;> dsimp only
  · exact ⟨rfl, rfl, rfl⟩
  · have hf := (readHead_judged (modLedg (modLife s fun y => { y with nodeUnit := .verifying }) fun y => { y with copies := [] })).verifies.trans
      (startVerify_verifies _ (List.range 32) (((s.ledg.copies.filter fun c => c.2.lease.isNone).map (·.1)).filter fun l => decide (l ≠ headLine)))
    exact ⟨(congrArg LifeSt.nodeUnit hf.life).trans rfl, hf.copies rfl, hf.mem⟩
  · exact if_pos (by simpa using hv)
  · rw [if_neg (by simp [hv])]
    have ha : Abides s ((List.range 32).foldl verifySlice s) := .foldl verifySlice_abides _ _
    generalize (List.range 32).foldl verifySlice s = u at *
    refine ⟨rfl, (settleNode_nodeGen u).trans (congrArg LifeSt.nodeGen ha.life :), fun hne => ?_⟩
    have hleft : u.life.leftEpoch = s.life.leftEpoch := (congrArg LifeSt.leftEpoch ha.life :)
    have hst : u.ledg.newest ≠ u.life.leftEpoch := by rw [ha.newest, hleft]; exact hne
    unfold settleNode
    rw [if_pos (.inr hst)]
    exact dropDirectory_empties u

end

/-- Settles O19: extents that are withdrawn, maps that are adopted, requests that wait for an epoch, units that return. -/
theorem extentsMapsAndUnits : Obligations.ExtentsMapsAndUnits := by
  unfold Obligations.ExtentsMapsAndUnits
  exact ⟨fun _ _ _ _ hx => extentDrainExpiry_settles hx, fun _ _ _ _ hx => extentScrubComplete_settles hx, fun _ _ hp => mapAdopt_settles hp,
    fun _ _ _ hm => epochWaitExpiry_settles hm, fun k s => unitReturn_slice s k, fun h s => unitReturn_hub s h, unitReturn_node⟩

end Sys2Proof.Proofs

namespace Sys2Proof.Proofs
open Sys2Proof.Machine Sys2Proof.Laws

/-!
A SNAPSHOT of a range whose stack is being retrained (O15, 16_lifecycle.md R389). A READ and a WRITE are stated for requests whose
handler may start (`accStart`), which leaves out those that wait for a retraining; the SNAPSHOT command is stated for every message
that is next in its stream (`mayStart`), and one of such a range waits there all the same.
-/

/-- A SNAPSHOT that needs a stack which is being retrained changes nothing. -/
theorem exec_snapshot_waits {s : State} {msg : Nat} {m : Msg} (hm : mayStart s msg .snapshot = some m) (hw : stackWaits s m = true) :
    exec (.snapshot msg) s = .next s := by
  have hs : startsWork s msg .snapshot = none := by simp [startsWork, hm, hw]
  dsimp only [exec]
  unfold execSnapshot
  rw [hs]

/-- A WINDOW region of 4 KiB of slice 3's stack that may be read, under key 257. -/
def stackRegion : Region :=
  { (default : Region) with state := 1, kind := rkWindow, read := true, gen := 1, length := 4096, target := dieBase 3 }

/-- A SNAPSHOT command of the first 64 bytes of that region. -/
def stackSnapshot : Msg := { ownMsg State.reset 0 .snapshot [] 0 with origin := .pcie 0 0 0, arg0 := 257, payLen := 64 }

/-- The command in the queue while slice 3's stack is being retrained. -/
def retrainingNode : State :=
  modSlice (modRegn (setMsgs State.reset [(3, stackSnapshot)]) fun g => { g with regions := [(1, stackRegion)] }) 3 fun x => { x with st := 1 }

/-- The access that the command makes. -/
def stackAccess : AccHdr :=
  { (default : AccHdr) with ver := 1, snapshot := true, key := stackSnapshot.arg0 % 2 ^ 32, offset := stackSnapshot.arg1, length := stackSnapshot.payLen }

theorem stackSnapshot_mayStart : mayStart retrainingNode 3 .snapshot = some stackSnapshot := by decide +kernel

theorem stackSnapshot_waits : stackWaits retrainingNode stackSnapshot = true := by decide +kernel

/-- Its key resolves. -/
theorem stackAccess_key : accCheck retrainingNode stackSnapshot false stackAccess = (retrainingNode, .ok (257, 1, stackRegion)) := rfl

/-- Its range and rights hold. -/
theorem stackAccess_range : rangeCheck retrainingNode stackRegion false stackAccess = (retrainingNode, none) := rfl

/-- Refutes O15: a SNAPSHOT that passes the checks is said to raise its fence and wait for the copy; on `retrainingNode` it passes them,
and it stays as it arrived, for the stack of its range is being retrained (16_lifecycle.md R389; assumption 94). -/
theorem not_remoteReadsAndWrites : ¬ Obligations.RemoteReadsAndWrites := by
  unfold Obligations.RemoteReadsAndWrites
  rintro ⟨-, -, -, -, -, -, hsnapshot, -⟩
  obtain ⟨t, ht, hfenced⟩ := hsnapshot 3 257 1 stackSnapshot stackAccess stackRegion retrainingNode retrainingNode retrainingNode
    stackSnapshot_mayStart rfl stackAccess_key (by decide) stackAccess_range rfl
  obtain rfl := next_inj (exec_snapshot_waits stackSnapshot_mayStart stackSnapshot_waits) ht
  obtain ⟨-, -, hphase, -⟩ := hfenced
  exact absurd hphase (by decide +kernel)

end Sys2Proof.Proofs
